-- ==== Sys2Proof/Word.lean ====
section
/-! DEFINITION. The word types of the block: bytes, register words, data blocks and the information part of a
codeword (02 R6, 09 R273). -/

namespace Sys2Proof

/-- A byte. -/
abbrev Byte := BitVec 8

/-- A 32-bit register word (R521). -/
abbrev Dword := BitVec 32

/-- A 4 KiB data block. -/
abbrev Block := BitVec 32768

/-- The 33,024 information bits of a codeword: 4,096 B of data and 32 B of metadata (R15, R273). -/
abbrev Info := BitVec 33024

end Sys2Proof
end

