-- ==== Sys2Proof/Machine/Tbl.lean ====
section
/-! DEFINITION. Sparse tables: lists of key and value with strictly rising keys. -/

namespace Sys2Proof

/-- A sparse table: pairs of key and value, keys strictly rising. -/
abbrev Tbl (α : Type) := List (Nat × α)

namespace Machine

/-- The value at a key, if the table lists one. -/
def Tbl.get {α : Type} (t : Tbl α) (k : Nat) : Option α :=
  match t with
  | [] => none
  | (k', v) :: r => if k' = k then some v else Tbl.get r k

/-- The value at a key, or what an unlisted key reads as. -/
def Tbl.getD {α : Type} (t : Tbl α) (k : Nat) (d : α) : α :=
  (Tbl.get t k).getD d

/-- The table with one key set. -/
def Tbl.set {α : Type} (t : Tbl α) (k : Nat) (v : α) : Tbl α :=
  match t with
  | [] => [(k, v)]
  | (k', v') :: r =>
    if k < k' then (k, v) :: (k', v') :: r
    else if k = k' then (k, v) :: r
    else (k', v') :: Tbl.set r k v

/-- The table with one key no longer listed. -/
def Tbl.erase {α : Type} (t : Tbl α) (k : Nat) : Tbl α :=
  match t with
  | [] => []
  | (k', v') :: r => if k' = k then Tbl.erase r k else (k', v') :: Tbl.erase r k

/-- Set a key whose unlisted reading is `d`: a value equal to `d` is not listed. -/
def Tbl.put {α : Type} [DecidableEq α] (t : Tbl α) (k : Nat) (v d : α) : Tbl α :=
  if v = d then Tbl.erase t k else Tbl.set t k v

/-- Change a listed value; an unlisted key stays unlisted. -/
def Tbl.upd {α : Type} (t : Tbl α) (k : Nat) (f : α → α) : Tbl α :=
  match t with
  | [] => []
  | (k', v') :: r => if k' = k then (k', f v') :: r else (k', v') :: Tbl.upd r k f

/-- The same change to every listed value. -/
def Tbl.map {α : Type} (t : Tbl α) (f : Nat → α → α) : Tbl α :=
  List.map (fun p => (p.1, f p.1 p.2)) t

/-- The listed pairs that satisfy a test. -/
def Tbl.filter {α : Type} (t : Tbl α) (p : Nat → α → Bool) : Tbl α :=
  List.filter (fun q => p q.1 q.2) t

/-- The listed keys. -/
def Tbl.keys {α : Type} (t : Tbl α) : List Nat :=
  List.map Prod.fst t

/-- Canonical form: keys strictly rising. -/
def Tbl.wf {α : Type} : Tbl α → Bool
  | [] => true
  | [_] => true
  | (k, _) :: (k', v') :: r => decide (k < k') && Tbl.wf ((k', v') :: r)

end Machine
end Sys2Proof
end

