-- ==== Sys2Proof/Syntax.lean ====
section
/-! DEFINITION. The commands of the block: one constructor for each row of the table of operations and events,
with what the row concerns as operands. -/

namespace Sys2Proof.Machine

open Sys2Proof

/-- The three control-plane paths (R16, R520), in the order of R16. -/
inductive Path | jtag | bmc | manager
  deriving DecidableEq, Repr

/-- Transport bindings (R106), in the order of harness status BIND. -/
inductive Bind | none | pcie | network
  deriving DecidableEq, Repr

/-- The fields of a harness record (R111). -/
structure Harness where
  gait : Nat
  tether : Bool
  hard : Bool
  qpairs : Nat
  slotShare : Nat
  dieShare : Nat
  wbMib : Nat
  tags : Nat
  iopsMax : Nat
  bwMax : Nat
  burst : Nat
  openZones : Nat
  capGib : Nat
  deriving DecidableEq, Repr

/-- Cipher modes (R385), in the order of their codes. -/
inductive CipherMode | none | xts | gcm
  deriving DecidableEq, Repr

/-- What the reads of NOR find at start-up: ledger locations that fail their CRC, and which copies of the roster and of
the function table fail theirs (R479, R508). -/
structure NorScan where
  corrupt : Nat
  rosterNew : Bool
  rosterOld : Bool
  tableNew : Bool
  tableOld : Bool
  deriving DecidableEq, Repr

/-- Key sources (R397), in the order of byte 3073: generated, imported persistent, imported volatile. -/
inductive KeySource | generated | persistent | volatile
  deriving DecidableEq, Repr

/-- Namespace types (R137). -/
inductive NsType | conventional | zoned
  deriving DecidableEq, Repr

/-- LBA format 0-2 and protection information type 0-3 of a namespace (R139). -/
structure LbaFormat where
  index : Nat
  pi : Nat
  deriving DecidableEq, Repr

/-- PRINFO and tags of an I/O command's entry (R139): PRACT, the three checks of PRCHK, the initial logical block
reference tag, the application tag and its mask. -/
structure PiArgs where
  pract : Bool
  guard : Bool
  app : Bool
  ref : Bool
  ilbrt : Nat
  lbat : Nat
  lbatm : Nat
  deriving DecidableEq, Repr

/-- Descriptor and operation types (R210), in the order of their TYPE codes. -/
inductive OpType
  | free | read | readRun | program | erase | eraseIntent | status | feature | reset | raw
  deriving DecidableEq, Repr

/-- Completion status codes (R211), in the order of their codes. -/
inductive CStat
  | ok | programFail | eraseFail | busyLimit | reinRefused | underErase | noIntent | timeout
  | dieAbsent | dumpStop | chainBroken | badDesc | resetAbort
  deriving DecidableEq, Repr

/-- Reset causes in the order of BOT_RESET.CAUSE (R499). -/
inductive ResetCause | powerOn | relight | nssr | nvmeMi | softReset | jtag | hld
  deriving DecidableEq, Repr

/-- A completion queue entry (R84, R103). -/
structure Cqe where
  cid : Nat
  sqid : Nat
  sqHead : Nat
  /-- status code type -/
  sct : Nat
  /-- status code -/
  sc : Nat
  /-- do not retry -/
  dnr : Bool
  /-- Dwords 0 and 1 -/
  dw0 : BitVec 32
  dw1 : BitVec 32
  /-- gait and elapsed time of the fetch, for a command that the latency histograms count (R125) -/
  lat : Option (Nat × Nat)
  /-- DSCP that the response of a network-bound function carries (R439) -/
  dscp : Option Nat
  deriving DecidableEq, Repr

/-- A submission queue of a function (R68, R75, R130). -/
structure Sq where
  base : Nat
  /-- entries 2-4,096 -/
  size : Nat
  cqid : Nat
  head : Nat
  tail : Nat
  /-- physically contiguous -/
  pc : Bool
  deriving DecidableEq, Repr

/-- A completion queue of a function (R89, R97, R130). -/
structure Cq where
  base : Nat
  size : Nat
  head : Nat
  tail : Nat
  phase : Bool
  pc : Bool
  ien : Bool
  vector : Nat
  /-- entries written and not yet released by the host's head doorbell, oldest first -/
  posted : List Cqe
  /-- completions held while the queue is full, oldest first (R89) -/
  held : List Cqe
  /-- strides for which the queue has been full (R89) -/
  fullFor : Nat
  /-- CQ_STALL was written for the present full period -/
  stalled : Bool
  deriving DecidableEq, Repr

/-- A meter record (R124). -/
structure Meter where
  minute : Nat
  func : Nat
  flags : BitVec 8
  gait : Nat
  readArounds : Nat
  bytesRead : Nat
  bytesWritten : Nat
  mediaBytes : Nat
  commands : Nat
  slots : Nat
  /-- sum of the second samples in MiB; CAP_MIB_MIN is this divided by 60, rounded down -/
  capSum : Rat
  /-- histogram counts by 32 * gait + bucket (R125) -/
  hist : Tbl Nat
  deriving DecidableEq, Repr

/-- A saved queue entry of a migration record (R130). -/
structure QEntry where
  qid : Nat
  sq : Sq
  cq : Cq
  deriving DecidableEq, Repr

/-- A migration record before encryption (R130). -/
structure MigRecord where
  srcBind : Bind
  srcFunc : Nat
  epoch : Nat
  srcSerial : Nat
  migSerial : Nat
  ledgerSeq : Nat
  saveSeconds : Nat
  keyId : Nat
  harness : Harness
  queues : List QEntry
  /-- (NSID, NGUID, cipher mode, namespace key value) -/
  spaces : List (Nat × Nat × Nat × Nat)
  meters : List Meter
  /-- migration key in force at the Save, and the IV drawn for it (R130) -/
  key : Nat
  iv : Nat
  deriving DecidableEq, Repr

/-- Regions of DRAM (R26, R363), numbered from 1 in that table's order. -/
inductive Region
  | writeBuffer | coarse | finePool | zoneMap | delta | journal | readBuffer | tenant | ledger
  | firmware
  deriving DecidableEq, Repr

/-- A line check failure of DRAM (R370). -/
structure LineFail where
  line : Nat
  region : Region
  /-- slot index, and whether the line is the slot's descriptor, for the write buffer -/
  slot : Nat
  descriptor : Bool
  /-- function that the requester expects as the owner of a read buffer or tenant state line (R364) -/
  fn : Nat
  deriving DecidableEq, Repr

/-- SRAM pools (R378, SRM LAST_POOL); DRAM receives fabric words too. -/
inductive Pool | accumulators | mapCache | rings | staging | hold | dram
  deriving DecidableEq, Repr

/-- What a word belongs to that an operation must know: nothing more than its pool, an entry of a die's descriptor ring, or
the DRAM line that was to take a fabric word (R378). -/
inductive SrmHit
  | word
  | ring (die entry : Nat)
  | line (x : LineFail)
  deriving DecidableEq, Repr

/-- A configuration request: a word at an offset, or the Device Control register, which it writes with a value; and whether
its TLP came on the selective stream that covers the function (R419, R420, R429). -/
inductive ConfigAt
  | word (off : Nat)
  | deviceControl (write : Option (BitVec 16))
  deriving DecidableEq, Repr

structure ConfigReq where
  at_ : ConfigAt
  stream : Bool
  deriving DecidableEq, Repr

/-- IDE_KM messages (R428): a key with the RID range of its stream, start and stop. -/
inductive IdeOp
  | keyProg (key ridLo ridHi : Nat)
  | go
  | stop
  deriving DecidableEq, Repr

/-- What a decode reports to its job (R280, R283, R559): success with the bits on media or with other bits, and the
corrected bits and those of them that went from 1 to 0; a miscorrection; a failure with LDC's estimate of the
threshold shift (R287); an erased codeword. -/
inductive DecResult
  | ok (bits ones : Nat)
  | other (info : BitVec 33024) (bits ones : Nat)
  | miscorrect
  | fail (shift : Int)
  | erased
  deriving DecidableEq, Repr


/-- Geometry that a die's parameter page gives (R142): physical blocks per plane, word lines per block, pages per word
line, planes. -/
structure Geom where
  blocks : Nat
  wls : Nat
  bits : Nat
  planes : Nat
  deriving DecidableEq, Repr

/-- What bring-up finds at a die position (R3, R200, R202, R237): its unique ID, its Read ID bytes and parameter-page
revision, its geometry with the data bytes and spare bytes of a page, and the time of each of the six steps in us. -/
structure DieFound where
  uid : Nat
  readId : List (BitVec 8)
  revision : BitVec 16
  geom : Geom
  dataBytes : Nat
  spareBytes : Nat
  times : List Nat
  deriving DecidableEq, Repr

/-- The least timing margin of any DQ bit of a die, in hundredths of a UI, by ladder rate in MT/s (R238). -/
abbrev Margins := List (Nat × Nat)

/-- A DRAM arrangement as training finds it (R358-R360): x16 data devices, 32 Gbit devices, ranks, the trained rate in
100 MT/s (0 for none), and what every device's mode registers report. -/
structure DramFound where
  x16 : Bool
  d32g : Bool
  ranks : Nat
  rate : Nat
  wcrc : Bool
  capar : Bool
  hppr : Bool
  /-- the walk over every data, check and CA bit passes (R379) -/
  busOk : Bool
  deriving DecidableEq, Repr

end Sys2Proof.Machine

namespace Sys2Proof

open Machine

/-- The commands of the block, one constructor for each row of spec/opcode_table.json. Rows without operands stand
last: Lean compiles a constructor with operands only among the first 245. -/
inductive Instr
  /-- `STRIDE_TICK` (R38): The TBS stride boundary passes and a new 8,000 ns stride begins, with NS_IN_STRIDE
    returning to 0 and STRIDE_IN_SEC advancing. -/
  | strideTick (fw : Bool)
  /-- `PLAN_COMMIT` (R39): At NS_IN_STRIDE 7,200 STP commits the plan for the next stride and ungating of
    granted domains begins. -/
  | planCommit (complete : Bool) (ns : Nat)
  /-- `PPS_EDGE` (R46): An active PPS edge is timestamped and judged valid or a glitch, and the phase error is
    measured. -/
  | ppsEdge (rising : Bool) (ns width : Nat)
  /-- `PPS_STEP` (R50): At the next target boundary TBS ends the second early with a step stride and starts
    stride 0 of the new second. -/
  | ppsStep (fw : Bool)
  /-- `SET_FEATURES_TIMESTAMP` (R54): The manager names a new SECONDS value for the next second boundary, and
    a tenant receives Feature Not Changeable. -/
  | setFeaturesTimestamp (seq ns ms : Nat)
  /-- `GET_FEATURES_TIMESTAMP` (R54): Any function reads SECONDS in milliseconds with the current origin. -/
  | getFeaturesTimestamp (seq : Nat)
  /-- `TBS_SET_GO` (R55): A write of GO arms SET_HI:SET_LO for the next second boundary. -/
  | tbsSetGo (p : Path) (w : Dword)
  /-- `TBS_SEC_LO_READ` (R66): A read of TBS_SEC_LO latches SEC_HI and the stride position for the reading
    path. -/
  | tbsSecLoRead (p : Path) (ns : Nat)
  /-- `GET_LOG_PAGE_LANTERN` (R60): Any function reads the 160 B lantern table of log page 0xC0. -/
  | getLogPageLantern (seq off len : Nat)
  /-- `SQ_TAIL_DOORBELL` (R75): A host writes a submission queue tail doorbell, waking fetch for that queue.
    -/
  | sqTailDoorbell (f qid val : Nat)
  /-- `CQ_HEAD_DOORBELL` (R89): A host advances a completion queue head, releasing held completions. -/
  | cqHeadDoorbell (f qid val : Nat)
  /-- `COMMAND_FETCH` (R73): QMX fetches a submission queue entry when the function's harness has room and
    gives it an intake sequence number. -/
  | commandFetch (f qid cid op n : Nat)
  /-- `COMPLETION_POINT` (R84): A command's effect becomes durable, MAP updates its entries and QMX writes the
    completion entry after its data transfer. -/
  | completionPoint (seq : Nat) (pi : PiArgs)
  /-- `CQ_STALL` (R89): A completion queue full for STALL_STRIDES writes ledger event QMX_CQ_STALL. -/
  | cqStall (f qid : Nat)
  /-- `CREATE_IO_SQ` (R68): Admin 01h creates an I/O submission queue within the harness queue pairs. -/
  | createIoSq (seq qid size base cqid : Nat) (pc : Bool)
  /-- `CREATE_IO_CQ` (R68): Admin 05h creates an I/O completion queue within the harness queue pairs. -/
  | createIoCq (seq qid size base vector : Nat) (pc ien : Bool)
  /-- `DELETE_IO_SQ` (R94): Admin 00h deletes a submission queue, ending its unfinished commands at the next
    boundary. -/
  | deleteIoSq (seq qid : Nat)
  /-- `DELETE_IO_CQ` (R97): Admin 04h deletes a completion queue, or fails with Invalid Queue Deletion while
    submission queues are bound to it. -/
  | deleteIoCq (seq qid : Nat)
  /-- `GET_LOG_PAGE` (R68): Admin 02h returns an NVMe-defined log page. -/
  | getLogPage (seq lid off len : Nat)
  /-- `GET_LOG_PAGE_METERS` (R126): Log page 0xC1 returns a function's current-minute and latched meter
    records. -/
  | getLogPageMeters (seq f off len : Nat)
  /-- `GET_LOG_PAGE_HARNESS_STATUS` (R127): Log page 0xC2 returns a function's harness status. -/
  | getLogPageHarnessStatus (seq f off len : Nat)
  /-- `GET_LOG_PAGE_REDUNDANCY` (R329): Log page 0xC3 returns the redundancy status. -/
  | getLogPageRedundancy (seq off len : Nat)
  /-- `GET_LOG_PAGE_THERMAL` (R457): Log page 0xC4 returns the thermal model. -/
  | getLogPageThermal (seq off len : Nat)
  /-- `GET_LOG_PAGE_LEDGER` (R514): Log page 0xC5 returns ledger records indexed by SEQ, for the manager only.
    -/
  | getLogPageLedger (seq off len : Nat)
  /-- `GET_LOG_PAGE_LEDGER_SUMMARY` (R514): Log page 0xC5 with Log Specific Parameter bit 0 set returns the
    oldest and newest SEQ, the watermark and the unread count. -/
  | getLogPageLedgerSummary (seq len : Nat)
  /-- `GET_LOG_PAGE_MIGRATION_RECORD` (R129): Log page 0xC6 returns a saved function's migration record to the
    manager. -/
  | getLogPageMigrationRecord (seq f off len : Nat)
  /-- `GET_LOG_PAGE_DIE_ROSTER` (R488): Log page 0xC7 returns the die roster. -/
  | getLogPageDieRoster (seq off len : Nat)
  /-- `IDENTIFY` (R68): Admin 06h returns identify data. -/
  | identify (seq cns nsid cntid csi : Nat)
  /-- `ABORT` (R93): Admin 08h always completes with command not aborted. -/
  | abort (seq : Nat)
  /-- `SET_FEATURES` (R69): Admin 09h sets a supported feature that has no row of its own, or fails for absent
    or manager-only features. -/
  | setFeatures (seq fid : Nat) (v : Dword)
  /-- `SET_FEATURES_ARBITRATION` (R75): Sets the function's Arbitration Burst for round robin fetch. -/
  | setFeaturesArbitration (seq : Nat) (v : Dword)
  /-- `SET_FEATURES_POWER_MANAGEMENT` (R461): The manager sets the power state. -/
  | setFeaturesPowerManagement (seq : Nat) (w : Dword)
  /-- `SET_FEATURES_VOLATILE_WRITE_CACHE` (R86): A tethered function sets WCE, and WCE = 0 makes each of its
    writes FUA. -/
  | setFeaturesVolatileWriteCache (seq : Nat) (wce : Bool)
  /-- `SET_FEATURES_NUMBER_OF_QUEUES` (R69): Grants I/O queues up to the harness queue pairs. -/
  | setFeaturesNumberOfQueues (seq nsq ncq : Nat)
  /-- `SET_FEATURES_TEMPERATURE_THRESHOLD` (R456): Sets the thresholds compared with Composite Temperature. -/
  | setFeaturesTemperatureThreshold (seq : Nat) (w : Dword)
  /-- `SET_FEATURES_KEEP_ALIVE_TIMER` (R438): Sets the Keep Alive timer of a fabrics association. -/
  | setFeaturesKeepAliveTimer (seq ms : Nat)
  /-- `SET_FEATURES_FDP` (R161): The manager enables FDP, binding a stream to each reclaim unit handle. -/
  | setFeaturesFdp (seq : Nat) (enable : Bool)
  /-- `GET_FEATURES` (R69): Admin 0Ah returns a feature value. -/
  | getFeatures (seq fid : Nat) (dw11 : Dword)
  /-- `ASYNCHRONOUS_EVENT_REQUEST` (R68): Admin 0Ch posts one of up to 8 outstanding asynchronous event
    requests. -/
  | asynchronousEventRequest (seq : Nat)
  /-- `NAMESPACE_CREATE` (R385): Namespace Management create makes a namespace with its cipher mode, key
    source and owner. -/
  | namespaceCreate (seq : Nat) (typ : NsType) (nsze ncap : Nat) (fmt : LbaFormat) (mode source owner zsze : Nat)
  /-- `NAMESPACE_DELETE` (R562): Namespace Management delete unmaps the namespace and clears its key slot. -/
  | namespaceDelete (seq nsid : Nat)
  /-- `NAMESPACE_ATTACH` (R112): Namespace Attachment attaches a namespace to a function within its harness
    capacity. -/
  | namespaceAttach (seq nsid f : Nat)
  /-- `NAMESPACE_DETACH` (R138): Namespace Attachment detaches a namespace from a function. -/
  | namespaceDetach (seq nsid f : Nat)
  /-- `FIRMWARE_IMAGE_DOWNLOAD` (R68): Admin 11h transfers a piece of a firmware image. -/
  | firmwareImageDownload (seq off : Nat) (data : List Byte)
  /-- `FIRMWARE_COMMIT_STORE` (R100): Firmware Commit action 001b stores a verified image in a slot. -/
  | firmwareCommitStore (seq fs : Nat)
  /-- `FIRMWARE_COMMIT_NEXT_RESET` (R100): Firmware Commit action 010b stores a verified image and activates
    it at the next controller-level reset. -/
  | firmwareCommitNextReset (seq fs : Nat)
  /-- `FIRMWARE_COMMIT_IMMEDIATE` (R101): Firmware Commit action 011b starts immediate activation. -/
  | firmwareCommitImmediate (seq fs : Nat)
  /-- `DEVICE_SELF_TEST` (R68): Admin 14h runs a short or extended self-test. -/
  | deviceSelfTest (seq nsid stc : Nat)
  /-- `KEEP_ALIVE` (R68): Admin 18h restarts the Keep Alive timer of a fabrics association. -/
  | keepAlive (seq : Nat)
  /-- `SECONDARY_CONTROLLER_ONLINE` (R68): Virtualization Management brings a secondary controller online. -/
  | secondaryControllerOnline (seq f : Nat)
  /-- `SECONDARY_CONTROLLER_OFFLINE` (R68): Virtualization Management takes a secondary controller offline. -/
  | secondaryControllerOffline (seq f : Nat)
  /-- `NVME_MI_SEND` (R68): Admin 1Dh carries an NVMe-MI request in-band. -/
  | nvmeMiSend (seq op a v : Nat) (data : List Byte)
  /-- `NVME_MI_RECEIVE` (R68): Admin 1Eh returns an NVMe-MI response in-band. -/
  | nvmeMiReceive (seq op a v : Nat)
  /-- `FORMAT_NVM` (R141): Format NVM with SES 000b clears every entry of the namespace without physical
    erase. -/
  | formatNvm (seq nsid : Nat) (fmt : LbaFormat)
  /-- `FORMAT_NVM_CRYPTO_ERASE` (R406): Format NVM with SES 010b erases a namespace by key. -/
  | formatNvmCryptoErase (seq nsid : Nat) (fmt : LbaFormat)
  /-- `SECURITY_SEND` (R68): Admin 81h carries a security protocol request. -/
  | securitySend (seq secp spsp : Nat) (data : List Byte)
  /-- `SECURITY_RECEIVE` (R68): Admin 82h returns security protocol data. -/
  | securityReceive (seq secp spsp len : Nat)
  /-- `SANITIZE_BLOCK_ERASE` (R355): Sanitize block erase unmaps every namespace and erases every span and the
    dump reserve. -/
  | sanitizeBlockErase (seq : Nat)
  /-- `SANITIZE_CRYPTO_ERASE` (R406): Sanitize crypto erase erases every namespace by key. -/
  | sanitizeCryptoErase (seq : Nat)
  /-- `SANITIZE_OVERWRITE` (R68): Sanitize overwrite completes with Invalid Field in Command. -/
  | sanitizeOverwrite (seq : Nat)
  /-- `UNUSED_VENDOR_OPCODE` (R400): Vendor opcodes 0xC2, 0xC3, 0xC7, 0xCB, 0xCE and 0xCF complete with
    Invalid Command Opcode. -/
  | unusedVendorOpcode (seq : Nat)
  /-- `FLUSH` (R91): A Flush completes at admission, or on a tethered function pads and closes the rows
    holding earlier completed writes. -/
  | flush (seq nsid : Nat)
  /-- `WRITE` (R19): A host write moves into the write buffer, completes, and is assembled, encrypted, folded,
    encoded and programmed. -/
  | write (seq nsid lba : Nat) (fua : Bool) (handle : Option Nat) (data : List Block) (metas : List (BitVec 128))
  /-- `READ` (R80): A host read returns the last overlapping write fetched before it, from the buffer or from
    media. -/
  | read (seq nsid lba nlb : Nat)
  /-- `WRITE_UNCORRECTABLE` (R146): Marks logical blocks UNCORR on conventional namespaces. -/
  | writeUncorrectable (seq nsid lba nlb : Nat)
  /-- `COMPARE` (R80): Compares host data with the stored data of the named blocks. -/
  | compare (seq nsid lba : Nat) (fused : Bool) (data : List Block)
  /-- `WRITE_ZEROES` (R81): Writes zeros, or deallocates when DEAC is set. -/
  | writeZeroes (seq nsid lba nlb : Nat) (deac fua : Bool)
  /-- `DATASET_MANAGEMENT` (R68): Deallocates the named ranges and ignores the other attributes. -/
  | datasetManagement (seq nsid : Nat) (deallocate : Bool) (ranges : List (Nat × Nat))
  /-- `VERIFY` (R68): Reads and checks the named blocks and transfers nothing. -/
  | verify (seq nsid lba nlb : Nat)
  /-- `COPY` (R68): I/O 19h completes with Invalid Command Opcode. -/
  | copy (seq : Nat)
  /-- `IO_MANAGEMENT_RECEIVE` (R156): Reports reclaim unit handle status and remaining capacity. -/
  | ioManagementReceive (seq nsid n : Nat)
  /-- `IO_MANAGEMENT_SEND` (R156): Reclaim Unit Handle Update makes the handle's stream begin a new span. -/
  | ioManagementSend (seq nsid : Nat) (handles : List Nat)
  /-- `ZONE_MANAGEMENT_RECEIVE` (R159): Reports zone descriptors. -/
  | zoneManagementReceive (seq nsid lba filter n : Nat)
  /-- `ZONE_RESET` (R160): Returns every chunk entry of the zone to UNWRITTEN and defers the physical erase.
    -/
  | zoneReset (seq nsid lba : Nat) (all : Bool)
  /-- `ZONE_FINISH` (R160): Pads the open chunk to a whole program unit and sets the write pointer to the zone
    end. -/
  | zoneFinish (seq nsid lba : Nat) (all : Bool)
  /-- `ZONE_OPEN` (R159): Opens a zone within the function's open-zone limit. -/
  | zoneOpen (seq nsid lba : Nat) (all : Bool)
  /-- `ZONE_CLOSE` (R159): Closes an open zone. -/
  | zoneClose (seq nsid lba : Nat) (all : Bool)
  /-- `ZONE_APPEND` (R82): Writes at the write pointer current at admission and returns that LBA. -/
  | zoneAppend (seq nsid zslba : Nat) (fua : Bool) (data : List Block) (metas : List (BitVec 128))
  /-- `FUNCTION_CREATE` (R108): Moves a function from FREE to IDLE with its harness. -/
  | functionCreate (seq f : Nat) (data : List Byte)
  /-- `FUNCTION_DELETE` (R108): Moves a function to FREE, first resetting it when ACTIVE or DRAINING. -/
  | functionDelete (seq f : Nat)
  /-- `FUNCTION_BIND` (R108): Binds an IDLE function to PCIe or network, or rebinds an ACTIVE one with a
    function-level reset. -/
  | functionBind (seq f kind : Nat)
  /-- `HARNESS_SET` (R113): The manager replaces a function's harness, checked against the pool. -/
  | harnessSet (seq f : Nat) (data : List Byte)
  /-- `HARNESS_APPLY` (R113): At the next boundary fetch applies the new limits, and the shares apply from the
    plan after. -/
  | harnessApply (f : Nat)
  /-- `FUNCTION_FREEZE` (R128): Function State Freeze moves the function to DRAINING at the next boundary. -/
  | functionFreeze (seq f : Nat)
  /-- `FREEZE_DRAINED` (R128): At the first boundary with none of the function's commands in flight, the
    function becomes FROZEN. -/
  | freezeDrained (f : Nat)
  /-- `TEN_FREEZE_LATE` (R128): A drain not complete after 6,250 strides completes the Freeze with Command
    Interrupted. -/
  | tenFreezeLate (f : Nat)
  /-- `FUNCTION_SAVE` (R129): Function State Save builds a migration record at the next boundary. -/
  | functionSave (seq f : Nat)
  /-- `SAVE_APPLY` (R129): At the boundary TEN closes the meter record, builds the record, writes the function
    table and moves the function to SAVED. -/
  | saveApply (f : Nat)
  /-- `FUNCTION_THAW` (R133): Function State Thaw moves a FROZEN or SAVED function to ACTIVE at the next
    boundary. -/
  | functionThaw (seq f : Nat)
  /-- `FUNCTION_RESTORE` (R131): Function Restore checks a migration record and installs the function as
    FROZEN. -/
  | functionRestore (seq f kind : Nat) (record : List Byte) (plain : Option (List Byte)) (keys : List (Option Nat))
  /-- `FUNCTION_LEVEL_RESET` (R120): At the boundary after a reset cause, the epoch advances, queues are
    removed and fetch stops. -/
  | functionLevelReset (f : Nat)
  /-- `FLR_COMPLETE` (R120): At the first boundary with no unpinned old-epoch job in any engine, the reset
    completes. -/
  | flrComplete (f : Nat)
  /-- `PCIE_FLR` (R120): A PCIe function-level reset of a virtual function. -/
  | pcieFlr (f : Nat)
  /-- `CC_EN_CLEAR` (R98): CC.EN going from 1 to 0 resets the controller of the function. -/
  | ccEnClear (f : Nat) (port : Option Nat)
  /-- `CC_EN_SET` (R426): CC.EN going from 0 to 1 enables the controller and, in dual-port mode, may take
    ownership of function 0. -/
  | ccEnSet (f : Nat) (port : Option Nat) (asqs acqs asq acq : Nat)
  /-- `SRIOV_NUMVFS_WRITE` (R106): A change of NumVFs enables or disables VFs, resetting a bound function
    whose VF is disabled. -/
  | sriovNumvfsWrite (p n : Nat)
  /-- `TEN_MIG_SERIAL_LO_READ` (R136): A read of MIG_SERIAL_LO latches MIG_SERIAL_HI for the path. -/
  | tenMigSerialLoRead (p : Path)
  /-- `CKPT_NOW` (R170): A write of CKPT_NOW starts a checkpoint. -/
  | ckptNow (p : Path) (w : Dword)
  /-- `MAP_CKPT_NUM_LO_READ` (R170): A read of CKPT_NUM_LO latches CKPT_NUM_HI for the path. -/
  | mapCkptNumLoRead (p : Path)
  /-- `PROGRAM_UNIT_ASSEMBLY` (R182): WBF assembles a full program unit from a target's held granules and
    hands it on. -/
  | programUnitAssembly (t : Nat)
  /-- `SPAN_ALLOCATE` (R333): At the boundary RCL gives a stream that needs one an ERASED span by erase count.
    -/
  | spanAllocate (n : Nat)
  /-- `IDLE_CLOSURE` (R186): A target that received no granule for IDLE_STRIDES has its open program unit
    padded. -/
  | idleClosure (t : Nat)
  /-- `CODEWORD_ENCODE` (R188): In the stride before its slot a codeword is encrypted, CRC-stamped, folded
    into P and Q and LDPC-encoded. -/
  | codewordEncode (stream serial member : Nat) (crcBad : Bool)
  /-- `DESCRIPTOR_READ` (R217): A due READ starts with status-enhanced and page read, then transfers its
    codewords after tR. -/
  | descriptorRead (d slot : Nat) (busy : Bool)
  /-- `DESCRIPTOR_READ_RUN` (R219): A due READ_RUN reads consecutive page groups with cache reads. -/
  | descriptorReadRun (d slot : Nat) (busy : Bool)
  /-- `DESCRIPTOR_PROGRAM` (R210): A due PROGRAM transfers a program unit or pSLC page and confirms the
    program. -/
  | descriptorProgram (d ix : Nat)
  /-- `DESCRIPTOR_ERASE_INTENT` (R228): A due ERASE_INTENT programs the intent record and arms the die for its
    target block. -/
  | descriptorEraseIntent (d ix : Nat)
  /-- `DESCRIPTOR_ERASE` (R228): A due ERASE erases the armed block, or completes with NO_INTENT. -/
  | descriptorErase (d ix : Nat)
  /-- `DESCRIPTOR_STATUS` (R210): A due STATUS returns the die's enhanced status byte. -/
  | descriptorStatus (d ix : Nat) (dstat : BitVec 8)
  /-- `DESCRIPTOR_FEATURE` (R210): A due FEATURE gets or sets a die feature. -/
  | descriptorFeature (d ix : Nat) (value : Int)
  /-- `DESCRIPTOR_RESET` (R210): A due RESET resets a LUN or a chip enable. -/
  | descriptorReset (d ix : Nat)
  /-- `DESCRIPTOR_RAW` (R210): A due DIAG RAW descriptor runs up to eight command, address or data steps. -/
  | descriptorRaw (d ix : Nat) (data : BitVec 36864) (dec : Option (BitVec 33024))
  /-- `DIE_OP_POLL` (R215): At the nominal end of an operation and in later command group slots, FCH polls the
    die. -/
  | dieOpPoll (d : Nat) (ready : Bool) (dstat : BitVec 8)
  /-- `DIE_OP_COMPLETE` (R211): A die operation ends and FCH writes its completion record. -/
  | dieOpComplete (d pageFails : Nat)
  /-- `FCH_DIE_TIMEOUT` (R215): An operation not ready at its profile maximum is reset and completes with
    TIMEOUT. -/
  | fchDieTimeout (d : Nat)
  /-- `DIE_RESET_TIMEOUT` (R215): A Reset LUN not ready at the profile's maximum reset time takes the die out
    of service at once. -/
  | dieResetTimeout (d : Nat)
  /-- `REIN_SUSPEND` (R223): A reinable operation is suspended in a command group slot for a REIN read. -/
  | reinSuspend (d ix : Nat)
  /-- `REIN_READ` (R223): After the suspend latency, a poll confirms the suspend and the rein's page reads are
    issued. -/
  | reinRead (d ix : Nat)
  /-- `REIN_RESUME` (R225): After the rein's transfers, or under a hold plan, the suspended operation is
    resumed. -/
  | reinResume (d : Nat)
  /-- `SLOT_ARBITRATION` (R216): 200 ns before a slot ends, the channel arbiter grants the next slot by rank,
    burst and preemption. -/
  | slotArbitration (nn : Nat)
  /-- `CODEWORD_TRANSFER_END` (R235): A codeword transfer on the channel ends and the owner's progress count
    advances. -/
  | codewordTransferEnd (nn : Nat)
  /-- `FCH_STALL_PROMOTE` (R236): A stalled channel request reaching AGE_LIMIT is promoted to rank 0. -/
  | fchStallPromote (nn r : Nat)
  /-- `DIE_RETRAIN` (R239): Per PERIOD_MS or a DTEMP move, FCH runs ZQ calibration short and re-centring on an
    idle die. -/
  | dieRetrain (d : Nat) (low : Bool)
  /-- `CHANNEL_RETRAIN_DONE` (R239): The channel completes retraining and returns to planning. -/
  | channelRetrainDone (nn rate : Nat)
  /-- `FCH_PIN_GO` (R245): A write of PIN_GO runs the pin test on a channel out of service. -/
  | fchPinGo (nn : Nat) (short open_ : BitVec 22)
  /-- `ENG_STALL_PROMOTE` (R268): An engine job in a stall reaching ENG_AGE_LIMIT is promoted to rank 0. -/
  | engStallPromote (id : Nat)
  /-- `DECODE_DONE` (R283): An LDC decode ends and reports success, failure or miscorrection to its job. -/
  | decodeDone (id pos : Nat) (r : DecResult)
  /-- `TRACKER_REVIEW` (R286): An entry that has gathered TRACK_WINDOW corrected bits moves its thresholds by
    the 1-to-0 share. -/
  | trackerReview (die entry : Nat)
  /-- `LDC_INJ_ARM` (R298): A write of INJ_ARM injects bit flips into the next codeword decoded from INJ_DIE.
    -/
  | ldcInjArm (p : Path) (w : Dword)
  /-- `LDC_BITS_LO_READ` (R298): A read of BITS_LO latches BITS_HI for the path. -/
  | ldcBitsLoRead (p : Path)
  /-- `JOURNAL_FLUSH` (R311): When 1,024 records gather or JR_FLUSH expires, PAR programs a journal page on
    all three mirrors. -/
  | journalFlush (fails : List Nat)
  /-- `REBUILD_ROW` (R319): PAR reads a queued row's surviving members, reconstructs the lost ones and writes
    them as proxies. -/
  | rebuildRow (bad : List (Nat × Nat))
  /-- `GROOM_ROW` (R325): Groom reads a row, checks its syndromes and relocates or corrects it. -/
  | groomRow (bad : List (Nat × Nat)) (reads : List (Nat × Nat))
  /-- `RAW_MEDIA_READ` (R328): Vendor 0xCA reads one codeword raw or hard-decoded. -/
  | rawMediaRead (seq : Nat) (dw10 dw11 : Dword)
  /-- `GROOM_SPAN` (R328): Redundancy Control action 0 grooms the named span. -/
  | groomSpan (seq n : Nat)
  /-- `PAUSE_REBUILD` (R328): Redundancy Control action 1 pauses a running rebuild. -/
  | pauseRebuild (seq : Nat)
  /-- `RESUME_REBUILD` (R328): Redundancy Control action 2 resumes a paused rebuild. -/
  | resumeRebuild (seq : Nat)
  /-- `MOVE_JOURNAL_MIRROR` (R328): Redundancy Control action 3 moves a journal mirror to the named die. -/
  | moveJournalMirror (seq k die : Nat)
  /-- `PAR_JSEQ_LO_READ` (R331): A read of JSEQ_LO latches JSEQ_HI for the path. -/
  | parJseqLoRead (p : Path)
  /-- `RECLAIM_ROW_COPY` (R338): RCL reads a victim row and copies its valid granules to stream 252 or 253. -/
  | reclaimRowCopy (n : Nat) (bad : List (Nat × Nat))
  /-- `SPAN_ERASE_START` (R61): A RELEASED span's member erases start in dim windows within their class turns.
    -/
  | spanEraseStart (n c : Nat)
  /-- `RCL_COPY_LO_READ` (R357): A read of COPY_LO latches COPY_HI for the path. -/
  | rclCopyLoRead (p : Path)
  /-- `RCL_HOST_LO_READ` (R357): A read of HOST_LO latches HOST_HI for the path. -/
  | rclHostLoRead (p : Path)
  /-- `DRAM_LINE_CHECK_FAIL` (R370): A DRAM line fails its checks and is refetched up to twice before
    recompute. -/
  | dramLineCheckFail (x : LineFail) (qtr : BitVec 4) (lcrc tag passes : Bool) (raw : BitVec 640)
  /-- `DMC_RECOMPUTE` (R371): A failed line is rebuilt from its region's source and written back. -/
  | dmcRecompute (ok covered : Bool)
  /-- `DUMP_GO` (R375): A write of DUMP_GO in the frozen state starts a verified dump. -/
  | dumpGo (w : Dword)
  /-- `DRAM_ALERT` (R359): ALERT_N reports a write CRC or CA parity error and DMC replays the access. -/
  | dramAlert (ca : Bool) (n : Nat) (x : LineFail)
  /-- `DRAM_OSC_READ` (R369): Every OSC_STRIDES DMC reads the DQS oscillators and re-centres a drifted rank.
    -/
  | dramOscRead (sc rank drift : Nat)
  /-- `DRAM_ZQ_CALIBRATION` (R369): Every 16,000 strides DMC runs ZQ calibration on each rank. -/
  | dramZqCalibration (sc rank : Nat)
  /-- `SRM_WORD_CHECK_FAIL` (R378): An SRAM or fabric word fails its CRC-16 and is read or sent again, then
    recomputed from its pool's source. -/
  | srmWordCheckFail (addr : Nat) (raw : BitVec 144) (p : Pool) (fabric again source : Bool) (hit : SrmHit)
  /-- `KEY_EXCHANGE_OFFER` (R402): Key Manage action 0 draws an ephemeral key pair and derives the function's
    KWK. -/
  | keyExchangeOffer (seq hostPub hostNonce : Nat)
  /-- `EXCHANGE_RESPONSE` (R402): Key Query action 0 returns the device's signed exchange values. -/
  | exchangeResponse (seq : Nat)
  /-- `CERTIFICATE_CHAIN` (R401): Key Query action 1 returns the SPDM certificate chain from an offset. -/
  | certificateChain (seq off len : Nat)
  /-- `KEY_STATUS` (R401): Key Query action 2 returns a namespace key's mode, source, state, KEY_ID and KCV.
    -/
  | keyStatus (seq nsid : Nat)
  /-- `LOAD_NAMESPACE_KEY` (R403): Key Manage action 1 unwraps and loads an owner's namespace key. -/
  | loadNamespaceKey (seq nsid : Nat) (data : List Byte)
  /-- `LOAD_MIGRATION_KEY` (R404): Key Manage action 2 loads the volatile migration key under the manager's
    KWK. -/
  | loadMigrationKey (seq : Nat) (data : List Byte)
  /-- `CLEAR_KEY` (R405): Key Manage action 3 empties a namespace or migration key slot, deferred through the
    shadow. -/
  | clearKey (seq nsid : Nat)
  /-- `SHADOW_ZEROIZE` (R405): When no job refers to a shadow key, KEY zeroizes it. -/
  | shadowZeroize (k : Nat)
  /-- `CIP_DECRYPT_DONE` (R388): A read granule is decrypted into the hold buffer and, for GCM, its tag
    verified before transfer. -/
  | cipDecryptDone (id : Nat) (tagOk : Bool)
  /-- `TLS_RECORD_RECEIVE` (R408): CIP decrypts a received TLS record, closing the association on a tag
    failure. -/
  | tlsRecordReceive (a : Nat) (tagOk : Bool)
  /-- `TLS_KEY_UPDATE` (R408): After 2^23 records under one key, the device sends KeyUpdate and installs the
    next key. -/
  | tlsKeyUpdate (a : Nat) (tx : Bool)
  /-- `KEY_KCV_LO_READ` (R416): A read of KCV_LO latches KCV_HI for the path. -/
  | keyKcvLoRead (p : Path)
  /-- `GET_VERSION` (R412): SPDM GET_VERSION request. -/
  | getVersion (doe : Bool)
  /-- `GET_CAPABILITIES` (R412): SPDM GET_CAPABILITIES request. -/
  | getCapabilities (doe : Bool)
  /-- `NEGOTIATE_ALGORITHMS` (R412): SPDM NEGOTIATE_ALGORITHMS request. -/
  | negotiateAlgorithms (doe ecdsa384 sha384 secp384 aesGcm : Bool)
  /-- `GET_DIGESTS` (R412): SPDM GET_DIGESTS request. -/
  | getDigests (doe : Bool)
  /-- `GET_CERTIFICATE` (R411): SPDM GET_CERTIFICATE for slot 0, or error Unspecified when the certificates
    failed. -/
  | getCertificate (doe : Bool) (slot off len : Nat)
  /-- `CHALLENGE` (R412): SPDM CHALLENGE request. -/
  | challenge (doe : Bool) (slot nonce : Nat)
  /-- `GET_MEASUREMENTS` (R412): SPDM GET_MEASUREMENTS returns signed measurement digests. -/
  | getMeasurements (doe : Bool) (index nonce : Nat)
  /-- `KEY_EXCHANGE` (R412): SPDM KEY_EXCHANGE opens one of four secured sessions. -/
  | keyExchange (doe : Bool)
  /-- `FINISH` (R412): SPDM FINISH completes a session handshake. -/
  | finish (doe : Bool) (id : Nat) (good : Bool)
  /-- `HEARTBEAT` (R412): SPDM HEARTBEAT within a session. -/
  | heartbeat (doe : Bool) (id : Nat)
  /-- `KEY_UPDATE` (R412): SPDM KEY_UPDATE within a session. -/
  | keyUpdate (doe : Bool) (id : Nat)
  /-- `END_SESSION` (R412): SPDM END_SESSION closes a session. -/
  | endSession (doe : Bool) (id : Nat)
  /-- `IDE_KM` (R428): IDE_KM messages in an SPDM session program a selective IDE stream. -/
  | ideKm (id k : Nat) (op : IdeOp)
  /-- `PCIE_LINK_UP` (R420): A PCIe port's link trains and configuration requests are answered. -/
  | pcieLinkUp (p speed width : Nat) (flit : Bool)
  /-- `PCIE_LINK_DOWN` (R421): A hot reset or link-down on a port resets only that port's functions. -/
  | pcieLinkDown (p : Nat)
  /-- `PERST_ASSERT` (R421): PE_PERST_Nn asserts and resets that port's link and PCIe functions. -/
  | perstAssert (p : Nat)
  /-- `PCIE_CONFIG_REQUEST` (R420): A configuration request is answered from the image's identity and
    capability values. -/
  | pcieConfigRequest (p f : Nat) (req : ConfigReq)
  /-- `HIF_IDE_FAIL` (R429): A TLP failing its IDE check makes the stream Insecure and resets the functions in
    its RID range. -/
  | hifIdeFail (k : Nat)
  /-- `HIF_WIN_CLOSE` (R424): A write of HIF_WIN.CLOSE closes BAR2 until device reset. -/
  | hifWinClose (w : Dword)
  /-- `ETH_LINK_CHANGE` (R430): An Ethernet interface comes up or goes down. -/
  | ethLinkChange (ix : Nat) (up : Bool)
  /-- `TLS_HANDSHAKE` (R434): A TLS 1.3 PSK handshake on NVMe/TCP takes a TLS index and installs traffic keys.
    -/
  | tlsHandshake (f suite psk : Nat)
  /-- `CONNECT` (R437): A fabrics Connect is checked in six steps and accepted or refused. -/
  | connect (f qid size hostHash kato ix : Nat) (v6 rdma : Bool) (tls : Option Nat)
  /-- `COMMAND_CAPSULE` (R439): A received command capsule takes the slower of its DSCP gait and its
    function's gait. -/
  | commandCapsule (f qid cid dscp : Nat)
  /-- `KEEP_ALIVE_EXPIRY` (R438): The Keep Alive timer expires and the association is lost. -/
  | keepAliveExpiry (f : Nat)
  /-- `ADMIN_CONNECTION_CLOSE` (R438): The admin connection closes and the association is lost. -/
  | adminConnectionClose (f : Nat)
  /-- `PROPERTY_GET` (R374): A fabrics Property Get returns controller properties such as CSTS. -/
  | propertyGet (f off : Nat)
  /-- `NET_PFC_STORM` (R432): Pause received for 100 ms makes NET ignore pause on that priority. -/
  | netPfcStorm (ix : Nat)
  /-- `PFC_STORM_END` (R432): Pause absent for 100 ms makes NET honour pause again. -/
  | pfcStormEnd (ix : Nat)
  /-- `ARP_REQUEST` (R431): NET answers ARP. -/
  | arpRequest (ix ip : Nat)
  /-- `NEIGHBOR_DISCOVERY` (R431): NET answers IPv6 neighbour discovery. -/
  | neighborDiscovery (ix ip : Nat)
  /-- `ICMP_ECHO` (R431): NET answers ICMP echo. -/
  | icmpEcho (ix ip : Nat) (v6 : Bool) (data : List Byte)
  /-- `ROUTER_ADVERTISEMENT` (R431): NET takes the IPv6 default route from a router advertisement. -/
  | routerAdvertisement (ix router lifetime : Nat)
  /-- `INTERFACE_ADDRESS_WRITE` (R431): A change to an interface address drops the connections using the old
    address. -/
  | interfaceAddressWrite (p : Path) (off : Nat) (w : Dword)
  /-- `DISCOVERY_LOG_PAGE` (R440): The discovery controller returns the entries admitted for the host. -/
  | discoveryLogPage (hostHash : Nat)
  /-- `REGISTER_READ_MESSAGE` (R443): An MCTP register access message with command 01h reads 1–16 words. -/
  | registerReadMessage (pec : Bool) (off n ns : Nat)
  /-- `REGISTER_WRITE_MESSAGE` (R443): An MCTP register access message with command 02h writes 1–16 words. -/
  | registerWriteMessage (pec : Bool) (off : Nat) (ws : List Dword) (short open_ : BitVec 22)
  /-- `SET_ENDPOINT_ID` (R441): The bus owner assigns the MCTP endpoint ID. -/
  | setEndpointId (pec : Bool) (eid : Nat)
  /-- `READ_NVME_MI_DATA_STRUCTURE` (R442): NVMe-MI Read NVMe-MI Data Structure. -/
  | readNvmeMiDataStructure (pec : Bool) (typ ctl : Nat)
  /-- `SUBSYSTEM_HEALTH_STATUS_POLL` (R442): NVMe-MI Subsystem Health Status Poll. -/
  | subsystemHealthStatusPoll (pec : Bool)
  /-- `CONTROLLER_HEALTH_STATUS_POLL` (R442): NVMe-MI Controller Health Status Poll. -/
  | controllerHealthStatusPoll (pec : Bool) (from_ n : Nat)
  /-- `CONFIGURATION_GET` (R442): NVMe-MI Configuration Get. -/
  | configurationGet (pec : Bool) (cfg : Nat)
  /-- `CONFIGURATION_SET` (R442): NVMe-MI Configuration Set of SMBus frequency or MCTP transmission unit. -/
  | configurationSet (pec : Bool) (cfg v : Nat)
  /-- `VPD_READ` (R442): NVMe-MI VPD Read of the 256 B VPD area. -/
  | vpdRead (pec : Bool) (off len : Nat)
  /-- `VPD_WRITE` (R442): NVMe-MI VPD Write of the 256 B VPD area. -/
  | vpdWrite (pec : Bool) (off : Nat) (data : List Byte)
  /-- `NVME_MI_RESET` (R442): NVMe-MI Reset performs a device reset. -/
  | nvmeMiReset (pec : Bool)
  /-- `TUNNELLED_ADMIN_COMMAND` (R442): An NVMe-MI tunnelled Identify, Get Log Page or Get Features to any
    function. -/
  | tunnelledAdminCommand (pec : Bool) (f opcode nsid dw10 dw11 off len : Nat)
  /-- `UART_CONSOLE_INPUT` (R444): Console input is accepted while UART_IN_EN is 1. -/
  | uartConsoleInput (data : List Byte)
  /-- `JTAG_REGISTER_ACCESS` (R445): The JTAG register access instruction reads or writes the window while
    JTAG_REG_EN is 1. -/
  | jtagRegisterAccess (addr : Nat) (data : Option Dword) (ns : Nat) (short open_ : BitVec 22)
  /-- `HOUSEKEEPING_ROUND` (R452): THM samples every fitted channel, advances the thermal model and sets the
    throttle level. -/
  | housekeepingRound (codes : Tbl (BitVec 12)) (diodes : List Int) (restores : Option Nat)
  /-- `OPEN_TEST` (R453): Every 100 rounds THM injects 10 µA into each ball channel to find opens. -/
  | openTest (moves : Tbl Nat)
  /-- `PACKAGE_TEMPERATURE_READ` (R455): Every 60 s FCH reads each die's temperature and corrects the package
    node biases. -/
  | packageTemperatureRead (readings : Tbl Int)
  /-- `STRING_TEST` (R467): Every TEST_S seconds HLD measures each connected string's capacitance and ESR. -/
  | stringTest (k tAll tK esr : Nat)
  /-- `HLD_TEST_NOW` (R476): A write of TEST_NOW tests every connected string. -/
  | hldTestNow (p : Path) (w : Dword)
  /-- `DUMP_END` (R471): The dump writes its closing record and ends. -/
  | dumpEnd (closing : Nat) (lost : List Nat) (badLog : Bool) (mib : Nat)
  /-- `CONFIGURATION_IMAGE_LOAD` (R481): Phase 2 reads and verifies both configuration copies and uses the
    newer verified one. -/
  | configurationImageLoad (reversed shorted : BitVec 8)
  /-- `PCIE_LINK_TRAINING` (R484): HIF starts link training after phase 2 and PE_PERST_Nn de-assertion. -/
  | pcieLinkTraining (p : Nat)
  /-- `FIRMWARE_LOAD` (R493): Phase 4 verifies and loads a firmware slot, releases the cores and loads keys
    and certificates. -/
  | firmwareLoad (bad : Nat) (lost : List (Nat × Bool)) (healthy : Bool) (scan : NorScan)
  /-- `DRAM_PHASE` (R360): Phase 5 trains and bus-tests the DRAM subchannels and runs the flash pin test. -/
  | dramPhase (d : DramFound) (pins : Tbl (BitVec 22 × BitVec 22))
  /-- `DRAM_FILL` (R380): DMC fills and checks DRAM region by region, remapping failed rows. -/
  | dramFill (rows : Tbl Nat) (ppr : Nat)
  /-- `FLASH_GROUP_START` (R485): A group of eight channels starts die bring-up after the previous group and
    its supply settling. -/
  | flashGroupStart (found : Tbl DieFound) (pins : Tbl (BitVec 22 × BitVec 22)) (margins : Tbl Margins)
  /-- `INITIALISATION` (R490): An uninitialised drive chooses its layout, pSLC blocks and spans and writes an
    empty state. -/
  | initialisation (bad : List Nat)
  /-- `REPLAY` (R492): Phase 10 brings the map and write path forward by the dump, clean or uncontrolled path.
    -/
  | replay (bad : List Nat)
  /-- `NVM_SUBSYSTEM_RESET` (R494): A write of 0x4E56_4D65 to NSSR of function 0 causes a device reset. -/
  | nvmSubsystemReset (f : Nat) (w : Dword)
  /-- `BOT_SOFT_RESET` (R499): A write of CTRL.SOFT_RESET in the BOT page causes a device reset. -/
  | botSoftReset (w : Dword)
  /-- `BLOCK_SOFT_RESET` (R527): A write of CTRL.SOFT_RESET in any other block resets its event registers,
    capture and counters. -/
  | blockSoftReset (p : Nat) (same : Dword)
  /-- `TENANT_SHUTDOWN` (R491): CC.SHN on a tenant function pads that function's targets and reports complete
    after their programs. -/
  | tenantShutdown (f : Nat)
  /-- `EVENT_RAISE` (R509): A block raises an event, which EVL timestamps and screens against its rate limit.
    -/
  | eventRaise (p code : Nat) (func : Option Nat) (payload : List (Nat × Nat)) (addr : Option Nat)
  /-- `LEDGER_PROGRAM_DONE` (R503): The record's program verifies, its VALID byte is programmed and the mirror
    takes it. -/
  | ledgerProgramDone (ok : Bool)
  /-- `WINDOW_LOAD` (R512): A write of LOAD fetches the record at the path's cursor into its window. -/
  | windowLoad (p : Path)
  /-- `WINDOW_NEXT` (R512): A write of NEXT advances the cursor to the next existing SEQ and fetches it. -/
  | windowNext (p : Path)
  /-- `WINDOW_RESULT` (R534): A window fetch completes and VALID rises with the result. -/
  | windowResult (p : Path)
  /-- `WATERMARK_WRITE` (R515): The manager's write of WMARK_LO applies the new watermark. -/
  | watermarkWrite (p : Path) (lo : Dword)
  /-- `EVL_NEWEST_LO_READ` (R519): A read of NEWEST_LO latches NEWEST_HI for the path. -/
  | evlNewestLoRead (p : Path)
  /-- `EVL_OLDEST_LO_READ` (R519): A read of OLDEST_LO latches OLDEST_HI for the path. -/
  | evlOldestLoRead (p : Path)
  /-- `BOT_SERIAL0_READ` (R531): A read of SERIAL0 latches SERIAL1–SERIAL3 for the path. -/
  | botSerial0Read (p : Path)
  /-- `THM_SENSE_BAD_LO_READ` (R475): A read of SENSE_BAD_LO latches SENSE_BAD_HI for the path. -/
  | thmSenseBadLoRead (p : Path)
  /-- `EVT_RAW_CLEAR` (R528): A W1C write clears event bits, a same-cycle set winning. -/
  | evtRawClear (p : Nat) (w same : Dword)
  /-- `EVT_FORCE` (R528): A write of EVT_FORCE sets and counts event bits unless SEAL is set. -/
  | evtForce (p : Nat) (w : Dword)
  /-- `ERR_ACK` (R529): A write of ERR_FIRST.ACK releases the captured error. -/
  | errAck (p : Nat)
  /-- `SEAL` (R530): A write of SEAL makes the block's RW-S fields read-only until device reset. -/
  | sealBlock (p : Nat)
  /-- `REGISTER_WRITE` (R521): A write to a register field with no row of its own stores or is ignored under
    its access code. -/
  | registerWrite (p : Path) (port addr : Nat) (w : Dword) (whole : Bool) (short open_ : BitVec 22)
  /-- `DOMAIN_WAKE` (R30): A demand-woken domain wakes on an incoming request. -/
  | domainWake (d : Nat)
  /-- `DOMAIN_GATE` (R30): A demand-woken domain idle for two strides is gated. -/
  | domainGate (d : Nat)
  /-- `DIRECTIVE_SEND` (R68): Admin 19h completes with Invalid Command Opcode. -/
  | directiveSend (seq : Nat)
  /-- `DIRECTIVE_RECEIVE` (R68): Admin 1Ah completes with Invalid Command Opcode. -/
  | directiveReceive (seq : Nat)
  /-- `DOORBELL_BUFFER_CONFIG` (R68): Admin 7Ch completes with Invalid Command Opcode. -/
  | doorbellBufferConfig (seq : Nat)
  /-- `GET_LBA_STATUS` (R68): Admin 86h completes with Invalid Command Opcode. -/
  | getLbaStatus (seq : Nat)
  /-- `RESERVATION_REGISTER` (R68): I/O 0Dh completes with Invalid Command Opcode. -/
  | reservationRegister (seq : Nat)
  /-- `RESERVATION_REPORT` (R68): I/O 0Eh completes with Invalid Command Opcode. -/
  | reservationReport (seq : Nat)
  /-- `RESERVATION_ACQUIRE` (R68): I/O 11h completes with Invalid Command Opcode. -/
  | reservationAcquire (seq : Nat)
  /-- `RESERVATION_RELEASE` (R68): I/O 15h completes with Invalid Command Opcode. -/
  | reservationRelease (seq : Nat)
  /-- `SECOND_BOUNDARY` (R37): STRIDE_IN_SEC passes 124,999 and SECONDS advances. -/
  | secondBoundary
  /-- `MINUTE_BOUNDARY` (R56): A second whose SECONDS mod 60 is 0 begins, or a set changes SECONDS by other
    than +1, and TEN latches the per-minute meters. -/
  | minuteBoundary
  /-- `TBS_HOUR` (R59): Seconds-in-hour passes 3,599, the operating-hours count advances, and EVL writes
    TBS_HOUR. -/
  | tbsHour
  /-- `TURN_BOUNDARY` (R254): A turn of TURN_STRIDES ends and the open phase class advances. -/
  | turnBoundary
  /-- `PPS_HOLDOVER` (R51): With no valid edge for 3 s, TBS enters HOLDOVER and keeps the last learned
    frequency. -/
  | ppsHoldover
  /-- `SECONDS_SET_APPLY` (R55): At the second boundary a pending set replaces SECONDS, sets origin 001b and
    writes TBS_SEC_SET records. -/
  | secondsSetApply
  /-- `LANTERN_TABLE_PUBLISH` (R60): The fixed table becomes readable as log page 0xC0 within 250 strides. -/
  | lanternTablePublish
  /-- `LANTERN_DATAGRAM` (R65): NET sends the lantern table as a UDP datagram after each PPS, or once per
    125,000 strides in FREE. -/
  | lanternDatagram
  /-- `WRITE_THROUGH_ENTER` (R87): At the boundary after HLD reports no usable hold-up every function enters
    write-through mode and WBF pads held targets. -/
  | writeThroughEnter
  /-- `WRITE_THROUGH_EXIT` (R193): At the boundary after usable hold-up returns with room above the
    acknowledged slots, write-through mode ends. -/
  | writeThroughExit
  /-- `SQ_DELETION_APPLY` (R94): At the boundary after the Delete, unfinished fetched commands complete with
    Command Aborted due to SQ Deletion and unfetched entries are discarded. -/
  | sqDeletionApply
  /-- `NAMESPACE_CREATE_FINE_FIT` (R561): A creation that shrinks the fine pool completes once the fine units
    in use fit the new target. -/
  | namespaceCreateFineFit
  /-- `NAMESPACE_CREATE_FINE_TIMEOUT` (R561): A creation whose fine units do not fit within 10 s completes
    with Namespace Insufficient Capacity. -/
  | namespaceCreateFineTimeout
  /-- `FW_ACTIVATION_STOP` (R101): At the boundary after the Commit, fetch stops on every queue and CSTS.PP is
    set. -/
  | fwActivationStop
  /-- `FW_ACTIVATION_SWITCH` (R101): When the drain ends or its limit expires, CPX switches to the new image.
    -/
  | fwActivationSwitch
  /-- `FW_ACTIVATION_RESUME` (R101): Fetch resumes at a stride boundary, CSTS.PP clears and the Commit
    completes. -/
  | fwActivationResume
  /-- `SANITIZE_COMPLETE` (R355): When every span is ERASED and the checkpoint is adopted, the sanitize
    operation completes or is reported failed. -/
  | sanitizeComplete
  /-- `POOL_SCALE_APPLY` (R110): At the boundary after the pool shrinks or recovers, effective shares are
    scaled by S. -/
  | poolScaleApply
  /-- `DEMOTION` (R153): While free fine units are low, the sweep picks a unit and copies its 16 granules into
    stream 253. -/
  | demotion
  /-- `CHECKPOINT_START` (R166): The active delta half reaches THRESH, or shutdown comes, and MAP seals it and
    writes changed map pages. -/
  | checkpointStart
  /-- `CKPT_DONE` (R166): The root record reaches two journal dies, the checkpoint is adopted and the sealed
    half is freed. -/
  | ckptDone
  /-- `CEILING_CHANGE` (R176): At the boundary after HLD reports a new energy, the buffer ceiling changes. -/
  | ceilingChange
  /-- `POISON_WAIT` (R291): A poisoning that waits for a fine unit is repeated each stride until it succeeds.
    -/
  | poisonWait
  /-- `REVERSE_SEARCH` (R563): A background pass over every map entry finds and poisons the blocks of queued
    failed MGAs. -/
  | reverseSearch
  /-- `DIE_LOST` (R314): At the boundary after a die leaves service, PAR marks its members lost, starts the
    degraded state and queues its spans. -/
  | dieLost
  /-- `PAR_JRN_REHOME` (R313): A lost journal mirror is re-homed onto a die in another channel. -/
  | parJrnRehome
  /-- `JOURNAL_REHOME_DONE` (R313): The new mirror holds the root and later records and new records go to all
    three mirrors. -/
  | journalRehomeDone
  /-- `PAR_REBUILD_DONE` (R322): With the queue empty and handed-over spans erased, the rebuild completes and
    the degraded state ends. -/
  | parRebuildDone
  /-- `RECLAIM_VICTIM_PICK` (R337): RCL takes a victim: handed-over span, due wear victim, or the closed span
    with fewest valid granules. -/
  | reclaimVictimPick
  /-- `DRBG_RESEED` (R409): After 2^20 requests the DRBG reseeds from the entropy source. -/
  | drbgReseed
  /-- `KEY_DRBG_FAIL` (R409): A failed health test makes KEY refuse every request needing random bits. -/
  | keyDrbgFail
  /-- `BASIC_MANAGEMENT_COMMAND` (R441): The NVMe-MI basic management command at SMBus address 0x6A. -/
  | basicManagementCommand
  /-- `JTAG_PIN_INSTRUCTION_EXIT` (R445): Leaving EXTEST or another pin-driving instruction performs a device
    reset. -/
  | jtagPinInstructionExit
  /-- `THROTTLE_LEVEL_LOWER` (R459): After every candidate stays below the level for 1 s, the level falls one
    step. -/
  | throttleLevelLower
  /-- `SNUFF_POWER_OFF` (R463): When the snuff dump ends, THM asserts SNUFF_N and removes clock and power from
    all but the always-on domains. -/
  | snuffPowerOff
  /-- `RELIGHT` (R464): With the controller cool and the minimum wait passed, THM releases SNUFF_N and runs
    power-on start-up. -/
  | relight
  /-- `LOW_POWER_STATE_ENTRY` (R462): PS3 or PS4 is entered at the first boundary with no acknowledged slot
    and no die operation. -/
  | lowPowerStateEntry
  /-- `PWR_FAIL` (R470): PWR_FAIL_N low for 2 µs starts the power-loss dump. -/
  | pwrFail
  /-- `BANK_TRIP` (R470): HLD_SENSE below V_TRIP starts the dump through the bank comparator. -/
  | bankTrip
  /-- `VDD_CORE_LOW` (R544): VDD_CORE below 0.68 V for 1 µs starts the dump as a power failure. -/
  | vddCoreLow
  /-- `VDD_AON_LOW` (R544): VDD_AON below 0.72 V for 1 µs causes an internal power-on reset. -/
  | vddAonLow
  /-- `DUMP_FREEZE` (R471): At the boundary after the trigger, fetch stops, cores stop, links lose power and
    dump plans run. -/
  | dumpFreeze
  /-- `POWER_RETURN_DURING_DUMP` (R473): Power returns during a dump, which completes and is followed by a
    device reset after 100 ms of PWR_FAIL_N high. -/
  | powerReturnDuringDump
  /-- `XTAL_STOP` (R554): The crystal stops; the synthesizer holds 1 ms and then asserts power-on reset. -/
  | xtalStop
  /-- `POWER_ON_RESET` (R483): Power-on reset is released and start-up begins with the fuse load of phase 1.
    -/
  | powerOnReset
  /-- `ROSTER_CHECK` (R489): Phase 7 compares the die roster with the dies found. -/
  | rosterCheck
  /-- `INTENT_SCAN` (R231): Phase 8 reads every intent block and queues re-erases for unfinished erases. -/
  | intentScan
  /-- `JOURNAL_LOAD` (R312): Phase 9 reads the journal mirrors and loads the root and map checkpoint. -/
  | journalLoad
  /-- `NVME_READY` (R486): Phase 11 reaches NVMe ready and NET brings up its interfaces. -/
  | nvmeReady
  /-- `DEVICE_RESET` (R495): A device reset dumps unless a dump has completed and restarts from phase 1. -/
  | deviceReset
  /-- `SYS_RST` (R494): SYS_RST_N low causes a power-on reset, after any dump in progress. -/
  | sysRst
  /-- `NORMAL_SHUTDOWN` (R491): CC.SHN = 01b on function 0 stops fetch and pads held targets. -/
  | normalShutdown
  /-- `SHUTDOWN_PROGRAMS_DONE` (R491): Once every shutdown program completes, MAP checkpoints, CLEAN is set
    and CSTS.SHST reports complete. -/
  | shutdownProgramsDone
  /-- `ABRUPT_SHUTDOWN` (R491): CC.SHN = 10b on function 0 runs the dump on board power. -/
  | abruptShutdown
  /-- `LEDGER_RECORD_PROGRAM` (R503): EVL starts programming the next queued record into the ring and assigns
    its SEQ. -/
  | ledgerRecordProgram
  /-- `EVL_WMARK` (R516): 60 s after a watermark advance, EVL records the watermark. -/
  | evlWmark
  /-- `CPX_FW_STOPPED` (R537): HEARTBEAT still for 125 strides sets FW_STOPPED and writes a direct ledger
    record. -/
  | cpxFwStopped
  /-- `PWR_FAIL_N_HIGH` (R554): PWR_FAIL_N has been high for 100 ms, and start-up waiting at phase 1 proceeds.
    -/
  | pwrFailNHigh
  /-- `LEDGER_SECTOR_ERASE_DONE` (R557): The NOR erase of the ledger sector ahead completes, and a record
    waiting on a filled sector may be programmed. -/
  | ledgerSectorEraseDone
  /-- `NOR_RECORD_WRITE_DONE` (R497): A key-store or function-table record write to the external NOR
    completes, and the command that waits on it completes. -/
  | norRecordWriteDone
  deriving DecidableEq, Repr

end Sys2Proof
end

