-- ==== Sys2Proof/Decode.lean ====
section
/-! DEFINITION. The decoder. The table of operations and events gives its rows no bits (its "fields" are empty), so
no word spells a command. -/

namespace Sys2Proof

/-- The command that a word of `nbits` bits spells by the table's bits: none, since no row has any. -/
def decodeTableWord (_nbits _w : Nat) : Option Instr := none

end Sys2Proof
end

