-- ==== Sys2Proof/Config.lean ====
section
/-! DEFINITION. Values that the spec leaves open, or fixes only by a cryptographic function: constants without a body,
so that no proof can see a value of them. -/

namespace Sys2Proof

/-! ## Cryptographic functions: the spec names the algorithm, and no statement rests on a value of one -/

/-- AES key wrap of a key value under a key (R130, R403). -/
opaque Config.keyWrap : Nat → Nat → Nat

/-- AES key unwrap under a key: none when its integrity check fails (R403). -/
opaque Config.keyUnwrap : Nat → List (BitVec 8) → Option Nat

/-- Ephemeral public key and nonce of draw `n`; the shared secret of that key and a host's public key (R402). -/
opaque Config.ephemeral : Nat → Nat
opaque Config.nonce : Nat → Nat
opaque Config.ecdh : Nat → Nat → Nat

/-- HKDF-SHA384 of a salt, an input and an info string, its first 48 B, byte 0 lowest (R398, R402, R410, R434). -/
opaque Config.hkdf : List (BitVec 8) → Nat → List (BitVec 8) → Nat

/-- Signature by the alias key of measurements 1-3 over a number (R402, R410). -/
opaque Config.aliasSign : List Nat → Nat → Nat

/-- SPDM certificate chain of slot 0 for measurements 1-3, and its digest (R411). -/
opaque Config.certChain : List Nat → List (BitVec 8)
opaque Config.certDigest : List Nat → Nat

/-- AES-256-GCM: ciphertext of a body under a key and IV, as a little-endian number; and the tag of additional
authenticated data and a body (R130). -/
opaque Config.gcmBody : Nat → Nat → List (BitVec 8) → Nat
opaque Config.gcmTag : Nat → Nat → List (BitVec 8) → List (BitVec 8) → Nat

/-- The IV that KEY's random bit generator gives at a draw for a migration record (R130). -/
opaque Config.gcmIv : Nat → Nat

/-- XTS-AES-256 of a granule: key, LBA, data; and its inverse (R386). -/
opaque Config.xtsEnc : Nat → Nat → Block → Block
opaque Config.xtsDec : Nat → Nat → Block → Block

/-- AES-256-GCM of a granule: key, LBA, write sequence number, data; its inverse; and the tag over the ciphertext and
metadata bytes 0-13 (R386). -/
opaque Config.granEnc : Nat → Nat → Nat → Block → Block
opaque Config.granDec : Nat → Nat → Nat → Block → Block
opaque Config.granTag : Nat → Nat → Nat → BitVec 112 → Block → BitVec 128

/-- The key that KEY's random bit generator gives at draw `n` (R397). -/
opaque Config.randomKey : Nat → Nat

/-- The NGUID that a namespace created at draw `n` carries: the spec states no rule for it. -/
opaque Config.nguid : Nat → Nat

/-- TLS traffic keys of draw `n` (R407, R408). -/
opaque Config.trafficKey : Nat → Nat

/-- Identity and capability words of configuration space: image digest, function, offset (R420). -/
opaque Config.configWord : Nat → Nat → Nat → BitVec 32

/-! ## On-die monitors: the spec gives no scale for channels 0-15 (R451) -/

/-- Value of an on-die channel's code, and its valid range. -/
opaque Config.monitor : Nat → Nat → Int
opaque Config.monitorLo : Nat → Int
opaque Config.monitorHi : Nat → Int

/-! ## Start-up: codes and digests whose values the spec does not give (R411, R493) -/

/-- FAIL_CODE of a phase and the cause within it (R493, R499). -/
opaque Config.failCode : Nat → Nat → Nat

/-- Measurement 1, SHA-384 of the boot ROM (R411). -/
opaque Config.romDigest : Nat

/-- Measurement 4 of the security fuse state: image key index, revocation bits, fused SVN (R411). -/
opaque Config.fuseDigest : Nat → Nat → Nat → Nat

/-- Measurement 5 of the debug state: JTAG enabled, register window sealed (R411). -/
opaque Config.debugDigest : Bool → Bool → Nat

/-! ## Bytes of NVMe structures and of messages that the spec leaves open (R68, R442) -/

/-- Byte of an Identify structure that the spec does not fix: image digest, function, CNS * 256 + CSI, offset. -/
opaque Config.identifyByte : Nat → Nat → Nat → Nat → BitVec 8

/-- Byte of an NVMe-defined log page, or of an NVMe-MI response, that the spec does not fix: page, draw, offset. -/
opaque Config.logByte : Nat → Nat → Nat → BitVec 8

/-- Firmware revision string of an image's digest. -/
opaque Config.fwRevision : Nat → BitVec 64

/-- SHA-384 of bytes, byte 0 lowest, and whether the ECDSA P-384 signature in the last 96 B of an image verifies (R413). -/
opaque Config.sha384 : List (BitVec 8) → Nat
opaque Config.signatureOk : List (BitVec 8) → Bool

/-- Result code, segment and length in seconds of the self-test of a draw and a self-test code (R68). -/
opaque Config.selfTestResult : Nat → Nat → BitVec 4
opaque Config.selfTestSeconds : Nat → Nat → Nat

/-- Whether a security protocol other than 00h is there, by protocol and specific field, and its answer to the last
payload sent (R68: chapter 13 names no in-band protocol). -/
opaque Config.securityProtocol : Nat → Nat → Bool
opaque Config.securityAnswer : Nat → Nat → List (BitVec 8) → Nat → List (BitVec 8)

/-! ## Registers whose value the spec leaves to the board or to the assembly of the SRAM (R245, R450, KEY 0x070) -/

/-- Placement target number of a zone's target in a slot descriptor (R172: 16 bits, no numbering given). -/
opaque Config.zoneTarget : Nat → BitVec 16

/-- SRAM addresses of a channel's die rings and completion ring, in units of 64 B. -/
opaque Config.ringBase : Nat → BitVec 24
opaque Config.cringBase : Nat → BitVec 24

/-- SRAM address of a ring entry's buffer list in units of 64 B, and the staging buffer of a codeword of that entry (R208,
R209: no allocation given). -/
opaque Config.bufList : Nat → Nat → BitVec 24
opaque Config.stagingBuffer : Nat → Nat → Nat → BitVec 12

/-- Command bytes of the JESD230 sequence of a die function (R201 names the function only). -/
opaque Config.jedecBytes : Nat → List (BitVec 8)

/-- Steps of the RAW descriptor of a Raw Media Read, by die, block, word line, page type, plane and codeword (R328 names
none). -/
opaque Config.rawSteps : Nat → Nat → Nat → Nat → Nat → Nat → BitVec 128

/-- Levels of the GPIO balls at an elapsed time. -/
opaque Config.gpioIn : Nat → BitVec 8

/-- CNTLID that a Connect to the discovery subsystem returns at a draw (R440 gives none). -/
opaque Config.discoveryCntlid : Nat → BitVec 16

/-- Some DRAM device reads above 85 °C at an elapsed time (R368: no operation brings the readout). -/
opaque Config.dramHot : Nat → Bool

/-- Bank and row of a line within its subchannel (R361, R367: no mapping given). -/
opaque Config.dramPlace : Nat → Nat × Nat

/-- Refresh intervals that reads of rank 1 or 2 put off in the stride of a draw, by subchannel * 2 + rank (R368). -/
opaque Config.refreshLate : Nat → Nat → Nat

/-- SHA-384 of measurements 1-3 together. -/
opaque Config.measDigest : List Nat → Nat

end Sys2Proof
end

