-- ==== Sys2Proof/Machine/State.lean ====
section
/-! DEFINITION. The state of the block, with every register, buffer, counter and mode of the spec; its reset value. -/

namespace Sys2Proof.Machine

open Sys2Proof

/-- Faults. No meaning of this model raises one: every command answers a next state. -/
inductive Fault
  /-- raised by nothing (safe) -/
  | never
  deriving DecidableEq, Repr

/-- Refusals. -/
inductive Refusal
  /-- raised by an arm of `exec` whose command has no meaning yet (safe) -/
  | notModelled (mnemonic : String)
  deriving DecidableEq, Repr

/-! ## Clock domains (01_architecture.md, R28-R34) -/

/-- Clock gating of the 249 domains. -/
structure Gate where
  /-- domains clocked in the current stride, bit d = domain d (R33 THM_GATE_ACT) -/
  act : BitVec 256
  /-- domains clocked now: those of `act`, and those woken or gated since the stride began (R30, R32) -/
  on : BitVec 256
  /-- domains that a request or a register access has reached in this stride (R30, R32) -/
  busy : BitVec 256
  /-- whole strides without activity, 0-2, of the demand-woken domains, by domain (R30) -/
  idle : Tbl Nat
  deriving DecidableEq, Repr

/-! ## Time base (02_stride_time.md, R36-R59, R66-R67) -/

/-- PPS states of R51, in the order of TBS_PPS_STAT.STATE. -/
inductive PpsState | free | acquire | locked | holdover
  deriving DecidableEq, Repr

/-- A set of SECONDS that waits for the next second boundary (R54, R55, R67). -/
structure PendSet where
  /-- true for the register set, false for the Timestamp feature -/
  viaReg : Bool
  /-- the value for the boundary (register set), or T in milliseconds (Timestamp) -/
  value : Nat
  /-- elapsed timebase ns at receipt -/
  receipt : Nat
  deriving DecidableEq, Repr

/-- TBS: counters of the always-on domain and the PPS engine. -/
structure Tbs where
  /-- elapsed timebase time at the start of the stride in progress, ns since power-on (R57) -/
  clk : Nat
  /-- SECONDS (R37) -/
  seconds : BitVec 48
  /-- SECONDS in the second before the last boundary (R55, R67) -/
  prevSeconds : BitVec 48
  /-- STRIDE_IN_SEC 0-124,999 (R37) -/
  strideInSec : Nat
  /-- NS_IN_STRIDE at the last step (R37) -/
  nsInStride : Nat
  /-- length in ns of the stride in progress (R38) -/
  strideLen : Nat
  /-- STRIDE_IN_SEC has passed 124,999 and SECONDS has not yet advanced (R37) -/
  secondDue : Bool
  /-- the current instant is a second boundary whose pending sets may still apply (R55) -/
  atSecond : Bool
  /-- a minute boundary has come and the meters are not yet latched (R56) -/
  minuteDue : Bool
  /-- the minute boundary that is due comes from a set (R56) -/
  minutePartial : Bool
  /-- timestamp origin (R53, R55) -/
  origin : BitVec 3
  /-- operating hours, 24 bits (R57) -/
  hours : Nat
  /-- seconds-in-hour 0-3,599 (R57) -/
  hourSec : Nat
  /-- elapsed ns of the operating second in progress (R57) -/
  hourNs : Nat
  /-- an operating-hour boundary has passed and TBS_HOUR is not yet written (R59) -/
  hourDue : Bool
  /-- power-cycle count, 24 bits (R58) -/
  pcycle : Nat
  /-- PPS state (R51) -/
  pps : PpsState
  /-- LOCKED was entered since power-on (R51, HOLDOVER entry from ACQUIRE-after-LOCKED) -/
  wasLocked : Bool
  /-- elapsed time at which the PPS input was last enabled (R51: no valid edge for 3 s) -/
  enabledAt : Nat
  /-- elapsed time of the previous valid edge (R46) -/
  lastEdge : Option Nat
  /-- elapsed time of the last edge that could begin a valid pair (R46, R51) -/
  lastAny : Option Nat
  /-- active edge: some true rising, some false falling, none undecided (R45) -/
  polarity : Option Bool
  /-- polarity shown by the previous pulse (R45) -/
  polPrev : Option Bool
  /-- phase error at the previous valid edge (R50) -/
  prevErr : Option Int
  /-- elapsed time of the predicted edge: one second and the frequency residual after the last valid edge (R46) -/
  predEdge : Nat
  /-- the first alignment is done (R51) -/
  aligned : Bool
  /-- consecutive valid edges with |E| at most 100 ns (R51) -/
  goodRun : Nat
  /-- elapsed time at which LOCKED was entered (R48) -/
  lockedAt : Nat
  /-- elapsed target boundary of a step that is due, with its E (R50) -/
  stepDue : Option (Nat × Int)
  /-- ns left to remove (positive) or add (negative), one per slew stride (R49) -/
  slewLeft : Int
  /-- the ns to remove or add in the strides of the second that follows (R49) -/
  slewNext : Int
  /-- sets of SECONDS that wait for the next boundary, in order of receipt (R67) -/
  sets : List PendSet
  deriving DecidableEq, Repr

/-! ## Plan commit and the lantern table (02_stride_time.md, R39-R41, R60-R65) -/

/-- The fields of a lantern table that are not constant (R64). -/
structure Lantern where
  second : Nat
  flags : BitVec 8
  phase : Nat
  duty : Nat
  dimCount : Nat
  brokenPrev : Nat
  bitmap : BitVec 1000
  deriving DecidableEq, Repr

/-! ## Command intake (03_command_intake.md) -/

/-- The transfer and effect of a fetched I/O command (R68, R84). -/
inductive IoBody
  /-- fetched, its opcode not yet taken -/
  | undecoded
  /-- an admin command that is processed and whose action is not complete -/
  | adminWait
  /-- Write, Zone Append (`append`), Write Zeroes without DEAC: one data block per logical block -/
  | write (fua append : Bool) (handle : Option Nat) (data : List Block) (metas : List (BitVec 128))
  /-- Write Zeroes with DEAC, deallocation, Write Uncorrectable: the new kind of each block -/
  | mapOnly (uncorr : Bool)
  | flush (allNs : Bool)
  | read
  /-- Compare with the host's data -/
  | compare (data : List Block)
  | verify
  /-- Zone Management Send actions: 1 close, 2 finish, 3 open, 4 reset -/
  | zone (action : Nat) (all : Bool)
  deriving DecidableEq, Repr

/-- Where one logical block of an admitted read is taken from (R80, R155). -/
inductive ReadSrc
  | zeros
  | buffer (slot : Nat)
  | media (mga : Nat)
  /-- UNCORR or POISON or LOST: the read ends with an error status -/
  | bad (lost : Bool)
  deriving DecidableEq, Repr

/-- The progress of one granule of an admitted read. -/
structure ReadPart where
  /-- granule number within its namespace (LBA of 4 KiB) -/
  lba : Nat
  src : ReadSrc
  /-- verified plaintext ready for transfer, with its host metadata -/
  done : Option Block
  hostMeta : BitVec 128
  /-- status the granule ended with: (sct, sc) -/
  err : Option (Nat × Nat)
  deriving DecidableEq, Repr

/-- A command between fetch and its completion entry (R73-R84). -/
structure Cmd where
  /-- intake sequence number (R75) -/
  seq : Nat
  fn : Nat
  epoch : Nat
  sqid : Nat
  cid : Nat
  admin : Bool
  /-- opcode and number of logical blocks that its entry names (R73, R114) -/
  op : Nat
  blocks : Nat
  /-- gait under which it was fetched (R72, R113) -/
  gait : Nat
  /-- bytes of write data its buffer allotment holds (R73) -/
  wbBytes : Nat
  /-- elapsed time of the fetch (R125), and the completion points passed then (R91) -/
  fetchClk : Nat
  /-- tick count of the stride of its fetch (R288) -/
  fetchTick : Nat
  mark : Nat
  nsid : Nat
  /-- namespace index -/
  ns : Nat
  lba : Nat
  nlb : Nat
  body : IoBody
  /-- extra ranges of a Dataset Management deallocation -/
  ranges : List (Nat × Nat)
  admitted : Bool
  /-- counted in OVL_WAIT (R80) -/
  waited : Bool
  /-- fine units reserved for it (R150) -/
  fineRsv : Nat
  /-- write-buffer slots taken, in block order (R175) -/
  slots : List Nat
  /-- granules of an admitted Read, Compare or Verify -/
  parts : List ReadPart
  /-- the effect is in the map; a FUA, write-through or Flush command still waits for rows (R84) -/
  atPoint : Bool
  /-- rows (stream, serial) whose closing the command waits for (R85, R91) -/
  rows : List (Nat × Nat)
  /-- the command waits for the programs of its slots (write-through, R87) -/
  wthru : Bool
  deriving DecidableEq, Repr

/-- A firmware slot (R100, R413, R479). -/
structure FwImage where
  valid : Bool
  svn : Nat
  svnCommit : Bool
  keyIndex : Nat
  /-- SHA-384 of the image, and of the key that it carries (R413) -/
  digest : Nat
  keyDigest : Nat
  /-- revocation fuses that the image blows (R414, R480) -/
  revoke : BitVec 4
  deriving DecidableEq, Repr

/-- Progress of an immediate activation (R101). -/
inductive ActState
  | idle
  /-- armed by the Commit, fetch stops at the next boundary -/
  | armed
  /-- fetch stopped; strides of drain so far -/
  | draining (strides : Nat)
  | switched
  deriving DecidableEq, Repr

/-- QMX. -/
structure Qmx where
  /-- next intake sequence number (R75) -/
  nextSeq : Nat
  /-- fetched commands without a completion entry, in fetch order -/
  cmds : List Cmd
  /-- write-through mode (R87) -/
  wthru : Bool
  /-- HLD's report of no usable hold-up waits for the next boundary (R87) -/
  wthruArm : Bool
  /-- hold-up returned; write-through ends at the next boundary with room (R193) -/
  wthruOff : Bool
  act : ActState
  /-- slot that the activation switches to, and the Commit to complete (by sequence number) -/
  actSlot : Nat
  actCmd : Option Nat
  /-- fetch stopped because the device is frozen or firmware stopped (R104) -/
  frozen : Bool
  /-- pieces of a downloaded firmware image by byte offset (R68, Firmware Image Download) -/
  download : Tbl (List Byte)
  /-- submission queues to delete at the next boundary: (fn, sqid, sequence number of the Delete) (R94) -/
  sqDel : List (Nat × Nat × Nat)
  /-- deleted queues whose aborted completions a full completion queue holds: (fn, cqid, sqid, sequence number of the
  Delete) (R89, R94) -/
  sqWait : List (Nat × Nat × Nat × Nat)
  deriving DecidableEq, Repr

/-! ## Functions (04_tenants.md) -/

/-- Function states (R107), in the order of harness status byte 64. -/
inductive FnState | free | idle | active | draining | frozen | saved
  deriving DecidableEq, Repr

/-- Why a function is to be reset at the next boundary (R106, R108, R120). -/
inductive FlrCause | pcieFlr | ccEn | assocLost | rebind | delete | numVfs | linkDown
  deriving DecidableEq, Repr

/-- A change of a function's state that waits for the next boundary (R107, R108, R134). -/
inductive FnArm
  | create (h : Harness)
  | bind (b : Bind)
  | harness (h : Harness)
  | freeze
  | save
  | thaw
  | restore (r : MigRecord) (b : Bind)
  | delete
  deriving DecidableEq, Repr

/-- Where QMX stands among the submission queues of a function (R75). -/
structure Visit where
  /-- queue of the visit, and the entries that it may still take -/
  q : Nat
  left : Nat
  /-- the I/O queue visited last -/
  io : Nat
  deriving DecidableEq, Repr

/-- A resource of the device pool as of the last boundary: what harnesses may draw and what they are promised (R110). -/
structure Scale where
  avail : Nat
  prom : Nat
  deriving DecidableEq, Repr

/-- One function of the 256 (R105-R133). -/
structure Fn where
  state : FnState
  bind : Bind
  harness : Harness
  /-- SLOT_SHARE and DIE_SHARE in force for the plan (R113) -/
  planSlot : Nat
  planDie : Nat
  planHard : Bool
  epoch : Nat
  reject : Nat
  iopsLevel : Int
  bwLevel : Int
  /-- deficit credits of R115 in 1/256 units -/
  slotCredit : Int
  dieCredit : Int
  /-- CC.EN and CSTS.RDY (R98, R426) -/
  enabled : Bool
  /-- CSTS.PP (R101) -/
  pp : Bool
  /-- CSTS.SHST: 0 normal, 1 in progress, 2 complete (R491) -/
  shst : Nat
  sqs : Tbl Sq
  cqs : Tbl Cq
  /-- outstanding Asynchronous Event Requests by sequence number, oldest first, at most 8 (R68) -/
  aers : List Nat
  /-- asynchronous events not yet reported: (type, information, log page) -/
  events : List (Nat × Nat × Nat)
  /-- feature values by FID (R69) -/
  feats : Tbl (BitVec 32)
  /-- attached namespaces: NSID to namespace index (R112, R138) -/
  spaces : Tbl Nat
  cur : Meter
  /-- latched records, newest first, at most 120 (R123) -/
  ring : List Meter
  /-- migration record held for reading (R129) -/
  record : Option MigRecord
  /-- changes armed for the next boundary with the admin command to complete (by sequence number) -/
  arms : List (FnArm × Nat)
  /-- strides since DRAINING was entered (R128) -/
  drainFor : Nat
  /-- Freeze commands waiting for FROZEN, by sequence number (R128) -/
  freezeWait : List Nat
  freezeLate : Bool
  /-- reset to start at the next boundary (R120) -/
  flrArm : Option FlrCause
  /-- reset in progress: its cause and the strides since step 1 (R120) -/
  flr : Option FlrCause
  flrFor : Nat
  /-- Delete command waiting for the reset (R108) -/
  deleteWait : Option Nat
  /-- taken offline as a secondary controller (R68, Virtualization Management) -/
  offline : Bool
  /-- Composite Temperature lies beyond a threshold of this function (R456) -/
  tempWarn : Bool
  visit : Visit
  /-- its harness had no room for an I/O command in this stride (R75) -/
  passed : Bool
  /-- entries fetched in this stride over SLOT_SHARE, the weighted round robin of fetch (R75) -/
  fetched : Nat
  /-- a Save has built the record, and its function table is not yet in NOR (R129) -/
  saving : Bool
  deriving DecidableEq, Repr

/-- TEN: device pool and migration serial (R109, R110, R136). -/
structure Ten where
  /-- BG_MAX in force (R136: applies at the next boundary) -/
  bgMax : Nat
  /-- channel slots, die time and write buffer under R110 -/
  scaleSlot : Scale
  scaleDie : Scale
  scaleWb : Scale
  migSerial : Nat
  deriving DecidableEq, Repr

/-! ## Mapping engine (05_mapping.md) -/

/-- Kinds of a map entry (R145), in the order of their codes. -/
inductive Kind | unmapped | media | buffer | fine | uncorr | poison | lost
  deriving DecidableEq, Repr

/-- A map entry: KIND and the 40-bit ADDR (R145). HDR of a fine entry is held in the unit's header. -/
structure Entry where
  kind : Kind
  addr : Nat
  deriving DecidableEq, Repr

/-- A fine unit: its header fields (R149) and its 16 entries. -/
structure FineUnit where
  ns : Nat
  unit : Nat
  age : Nat
  zchunk : Bool
  entries : List Entry
  deriving DecidableEq, Repr

/-- Zone states of the Zoned Namespace Command Set that R159 uses. -/
inductive ZState | empty | implOpen | explOpen | closed | full | readOnly
  deriving DecidableEq, Repr

/-- One zone (R157-R160). -/
structure Zone where
  state : ZState
  /-- write pointer as an offset in logical blocks from the zone's start -/
  wp : Nat
  /-- logical blocks written; Finish moves the write pointer past them (R160) -/
  data : Nat
  /-- the order in which it was opened, for implicit close -/
  opened : Nat
  deriving DecidableEq, Repr

/-- A namespace (R137-R140, R152, R385). -/
structure Space where
  typ : NsType
  /-- NSZE in logical blocks -/
  nsze : Nat
  lbaf : Nat
  /-- protection information type, 0 for none (R139) -/
  pi : Nat
  mode : CipherMode
  source : KeySource
  owner : Nat
  nguid : Nat
  /-- last write sequence number given (R152) -/
  seq : Nat
  /-- write-protected by the sequence limit (R152) -/
  wp : Bool
  /-- zone size and zone capacity in logical blocks (R157); 0 on a conventional namespace -/
  zsze : Nat
  zcap : Nat
  zones : Tbl Zone
  /-- deleted, its index not yet free (R562) -/
  deleted : Bool
  deriving DecidableEq, Repr

/-- A delta record before packing (R165). -/
structure Delta where
  lba : Nat
  ns : Nat
  typ : Nat
  entry : Entry
  deriving DecidableEq, Repr

/-- A demotion in flight (R153). -/
structure Demote where
  fine : Nat
  src : List Nat
  /-- first slot of the copy: a group of 16, or the program unit of a whole chunk (R158) -/
  slot : Nat
  deriving DecidableEq, Repr

/-- What a root record stands for in the map (R166). -/
structure MapRoot where
  ckptNum : Nat
  seqHigh : Nat
  seconds : Nat
  seqs : Tbl Nat
  /-- NGUID of each namespace that it covers (R169) -/
  guids : Tbl Nat
  coarse : Tbl Entry
  fine : Tbl FineUnit
  chunks : Tbl Entry
  /-- zones by namespace index -/
  zones : Tbl (Tbl Zone)
  /-- MGA of every page of the checkpoint by its number (R166) -/
  dir : Tbl Nat
  deriving DecidableEq, Repr

/-- Checkpoint progress (R166). -/
inductive CkptState
  | idle
  /-- sealed, its map pages go through stream 255 -/
  | writing
  /-- the pages of a level of the page directory go through stream 255 -/
  | directory (level : Nat)
  deriving DecidableEq, Repr

/-- A namespace creation that waits for the fine pool (R561). -/
structure FineWaitCreate where
  /-- the Create command, by sequence number -/
  seq : Nat
  space : Space
  target : Nat
  since : Nat
  deriving DecidableEq, Repr

/-- MAP. -/
structure Map where
  spaces : Tbl Space
  /-- coarse entries by namespace index * 2^48 + unit -/
  coarse : Tbl Entry
  /-- fine units in use by index -/
  fine : Tbl FineUnit
  /-- zone chunk entries by namespace index * 2^48 + zone * 2^24 + chunk -/
  chunks : Tbl Entry
  /-- fine pool in force (R163, R561) -/
  fineTotal : Nat
  fineReserved : Nat
  fineCreate : Option FineWaitCreate
  /-- sequence high-water mark (R152) -/
  seqHigh : Nat
  /-- sweep hand (R153) -/
  hand : Nat
  demoting : Bool
  demotes : List Demote
  /-- records of the active half, newest first, and of the sealed half (R166) -/
  active : List Delta
  sealed : List Delta
  deltaFull : Bool
  ckpt : CkptState
  /-- CKPT_NOW is written and its checkpoint not yet adopted (R170) -/
  ckptNow : Bool
  /-- the free fine units lie below LOW_PCT (R153) -/
  fineLow : Bool
  /-- page directory: MGA of every map page and directory page by its number (R166) -/
  dir : Tbl Nat
  /-- the root a checkpoint being written will adopt -/
  nextRoot : Option MapRoot
  ckptNum : Nat
  /-- reclaim unit handle streams while FDP is enabled (R156, R161) -/
  fdp : Bool
  /-- DRAM found at start-up, MiB (R163, R164) -/
  dramMib : Nat
  /-- a fine-unit wait was reported in the current second (R154) -/
  fineEmptySeen : Bool
  /-- count of zone opens, orders implicit closes -/
  zoneOpens : Nat
  deriving DecidableEq, Repr

/-! ## Write buffer and streams (06_write_streams.md) -/

/-- Slot states (R173). -/
inductive SlotState | free | filling | held | assembled | sent | copy | ckpt
  deriving DecidableEq, Repr

/-- A slot descriptor (R172) with the slot's data. -/
structure Slot where
  state : SlotState
  fn : Nat
  epoch : Nat
  pinned : Bool
  pad : Bool
  reserve : Bool
  readers : Nat
  stream : Nat
  pos : Nat
  member : Nat
  rowSerial : Nat
  target : Nat
  ns : Nat
  lba : Nat
  /-- write sequence number, metadata bytes 8-13 (R152) -/
  wseq : Nat
  /-- generation of the namespace's key when it was accepted (R405) -/
  keyGen : Nat
  /-- host metadata, metadata bytes 16-31 (R139) -/
  hostMeta : BitVec 128
  /-- command that wrote it -/
  cmd : Nat
  /-- first granule of an aligned group of 16 (R175) -/
  group : Bool
  /-- the completion points passed when its command came to its own, 0 before that (R91, R178) -/
  landed : Nat
  /-- the granule's source MGA of a copy (R23) -/
  srcMga : Nat
  /-- freed, waiting for READERS = 0 (R174) -/
  dying : Bool
  /-- MGA at which its program has completed while its command is not at its completion point (R87, R192) -/
  mga : Option Nat
  data : Block
  /-- info part of a granule or syndrome that is copied or reconstructed as it stands on media (R22, R315) -/
  raw : Option Info
  deriving DecidableEq, Repr

/-- A placement target's chain and closing marks (R161, R182, R186). -/
structure Target where
  fn : Nat
  stream : Option Nat
  /-- held granules in completion order: first slot of a group of 16, or a single slot -/
  held : List Nat
  /-- strides since the last granule came -/
  idle : Nat
  /-- the open program unit is to be closed with pad -/
  close : Bool
  /-- the row is to be padded to closure as well, and the function that is charged for its pad (R91, R186) -/
  closeRow : Bool
  closeFn : Nat
  deriving DecidableEq, Repr

/-- Open row states (R180). -/
inductive RowState | none | accumulating | parityOut | parityProg
  deriving DecidableEq, Repr

/-- A write stream and its accumulators (R179, R180). -/
structure Stream where
  state : RowState
  span : Option Nat
  /-- number of the row in the span, and the next row to open -/
  row : Nat
  nextRow : Nat
  serial : Nat
  members : Nat
  /-- positions folded so far in the last data member -/
  folded : Nat
  /-- accumulators by position: data and metadata parts together (R188) -/
  accP : Tbl Info
  accQ : Tbl Info
  /-- parity codewords sent -/
  paritySent : Nat
  /-- begin a new span at the next row (R156, R346) -/
  newSpan : Bool
  /-- the data members not yet assembled are filled with pad (R186, R314) -/
  padRow : Bool
  /-- the function charged for that pad (R186) -/
  padFn : Nat
  deriving DecidableEq, Repr

/-- Where a program unit stands on its way to media; `waiting`: assembled, with no row to take it (R180). -/
inductive PuState | opening | waiting | assembled | sent | programming | done | failed
  deriving DecidableEq, Repr

/-- An assembly record of R183 with its program unit: the open chunk of a zone (`opening`), an assembled program unit,
or a P or Q member (member 254, 255), which takes no record. -/
structure Pu where
  /-- assembly record index 0-8,191; 8,192 for P and Q -/
  recNo : Nat
  stream : Nat
  serial : Nat
  member : Nat
  target : Nat
  fn : Nat
  /-- one slot per position, none for pad -/
  slots : List (Option Nat)
  die : Nat
  /-- first MGA of the program unit -/
  mga : Nat
  encoded : Nat
  /-- codewords folded into the row's accumulators (R188, R195) -/
  foldedTo : Nat
  sent : Nat
  state : PuState
  /-- the proxy that fills the program unit: origin span, row and member position (R315) -/
  proxyOf : Option (Nat × Nat × Nat)
  /-- mismatches before encoding of the codeword in turn (R296) -/
  tries : Nat
  /-- the chunk of a zone that it holds whole (R158, R182) -/
  chunk : Option Nat
  /-- the row is to be padded to closure once it has entered (R91) -/
  rowPad : Bool
  /-- the function charged for its pad (R186) -/
  padFn : Nat
  /-- of a programmed unit: the least `landed` of its granules by namespace index (R91) -/
  cov : Tbl Nat
  deriving DecidableEq, Repr

/-- WBF. -/
structure Wbf where
  slots : Tbl Slot
  /-- buffer ceiling in MiB (R176) -/
  ceil : Nat
  /-- writes that have come to their completion points (R91) -/
  landings : Nat
  /-- HLD's new ceiling, applied at the next boundary -/
  ceilNext : Option Nat
  /-- the ceiling is below acknowledged holdings (R178) -/
  dropping : Bool
  targets : Tbl Target
  streams : Tbl Stream
  pus : List Pu
  deriving DecidableEq, Repr

/-! ## Flash channels (07_flash_channels.md) -/

/-- The job tag of R118. -/
structure JobTag where
  fn : Nat
  epoch : Nat
  pinned : Bool
  deriving DecidableEq, Repr

/-- What a descriptor or an engine job works for, so that its result finds its owner. -/
inductive Owner
  /-- member read `member` of the read job `id`; member 255 is the target itself -/
  | read (id : Nat) (member : Nat)
  /-- program of a member of an open row (R184); member 254 is P, 255 is Q -/
  | pu (stream serial member : Nat)
  /-- erase of a member of a span (R332) -/
  | spanErase (span die : Nat)
  /-- erase of the old intent block (R226) or another block outside spans -/
  | blockErase (die block : Nat)
  /-- read of a victim row granule (R338), groom (R325), rebuild (R319) or demotion (R153) -/
  | copy (kind : Nat) (mga : Nat)
  /-- raw media read of a command, decoded or not (R328) -/
  | diag (seq : Nat) (decode : Bool)
  | none
  deriving DecidableEq, Repr

/-- A flash descriptor (R208). The physical form keeps its fields apart. -/
structure Desc where
  typ : OpType
  chain : Bool
  rein : Bool
  diag : Bool
  gait : Nat
  cls : Nat
  pslc : Bool
  tag : JobTag
  planes : BitVec 6
  die : Nat
  earliest : BitVec 32
  /-- first MGA (MGA form) -/
  mga : Nat
  /-- block, word line, page type, plane, codeword (physical form) -/
  block : Nat
  wl : Nat
  page : Nat
  plane : Nat
  cw : Nat
  count : Nat
  buflist : Nat
  thresh : Nat
  soft : Nat
  param : BitVec 128
  /-- CRC-32 of bytes 0-59 (R204, R208) -/
  crc : BitVec 32
  /-- requeues under status-on-busy (R218), and whether a hold plan put it back (R225) -/
  requeued : Nat
  putBack : Bool
  /-- in the ring when the plan in force was committed (R206) -/
  planned : Bool
  owner : Owner
  deriving DecidableEq, Repr

/-- Phases of a rein (R223). -/
inductive ReinPhase
  | none
  /-- suspend issued, strides of latency left -/
  | suspending (left : Nat)
  /-- suspended, its reads run -/
  | suspended
  /-- resumed, strides of the die's own resume time left -/
  | resuming (left : Nat)
  deriving DecidableEq, Repr

/-- A die operation in progress (R207, R221). -/
structure DieOp where
  slot : Nat
  desc : Desc
  /-- unsuspended run time in strides, and the run time at which the array read in progress began (R219) -/
  run : Nat
  since : Nat
  /-- run time since the start or last resume, the rein interval (R221) -/
  interval : Nat
  reins : Nat
  /-- reads of the rein in progress (R223) -/
  reinReads : Nat
  phase : ReinPhase
  /-- codewords transferred, the progress count (R235) -/
  done : Nat
  /-- the array time has passed and the die was polled ready -/
  ready : Bool
  /-- page groups of a READ_RUN that the cache register has taken (R219) -/
  groups : Nat
  /-- the job was stale at the end of the array read: nothing is transferred (R217) -/
  discard : Bool
  /-- last status byte -/
  dstat : BitVec 8
  deriving DecidableEq, Repr

/-- Segment of a die timeline (R246). -/
structure Seg where
  slot : Nat
  typ : OpType
  start : Nat
  nomEnd : Nat
  reinFrom : Nat
  reins : Nat
  rank : Nat
  deriving DecidableEq, Repr

/-- A record page of an intent block: the block and the 64 B record that its four codewords hold (R226, R227). -/
structure IntentPage where
  block : Nat
  data : BitVec 512
  deriving DecidableEq, Repr

/-- An intent or done record on a die (R227). -/
structure IntentRec where
  done : Bool
  flags : BitVec 8
  block : Nat
  recSeq : Nat
  eraseCount : Nat
  reason : Nat
  seconds : Nat
  pcycle : Nat
  deriving DecidableEq, Repr

/-- A completion record (R211) with the owner of its descriptor. -/
structure CRec where
  slot : Nat
  pos : Nat
  status : CStat
  reined : Bool
  discarded : Bool
  requeued : Bool
  slow : Bool
  typ : OpType
  tag : JobTag
  dstat : BitVec 8
  done : Nat
  req : Nat
  reins : Nat
  endTick : BitVec 32
  owner : Owner
  desc : Desc
  deriving DecidableEq, Repr

/-- A die profile of the configuration image (R202): what it matches, the data interface of its dies as IFACE codes it
(R200), the sequences and feature addresses that it supplies, the times in strides, and the pSLC area (R142). -/
structure Profile where
  readId : List (BitVec 8)
  revision : BitVec 16
  iface : Nat
  /-- one-shot program sequence; empty where the profile names none (R201) -/
  oneShot : List (BitVec 8)
  progSuspend : List (BitVec 8)
  progResume : List (BitVec 8)
  eraseSuspend : List (BitVec 8)
  eraseResume : List (BitVec 8)
  pslcEntry : List (BitVec 8)
  pslcExit : List (BitVec 8)
  /-- feature addresses of the read thresholds, of the soft-read sequences and of the on-die temperature -/
  threshAt : List (BitVec 8)
  softRead : List (BitVec 8)
  tempAt : BitVec 8
  /-- sequences for functions that a Toggle die lacks (R201), by function number -/
  ownSeq : Tbl (List (BitVec 8))
  tr : Nat
  prog : Nat
  slc : Nat
  erase : Nat
  suspend : Nat
  resume : Nat
  reset : Nat
  trMax : Nat
  progMax : Nat
  slcMax : Nat
  eraseMax : Nat
  resetMax : Nat
  /-- blocks of the pSLC area (R142) -/
  pslc : Nat
  deriving DecidableEq, Repr

/-- One die of the 1,024 (R8, R203, R226, R241). -/
structure Die where
  present : Bool
  service : Bool
  uid : Nat
  geom : Geom
  /-- spare bytes of a page (R273) -/
  spare : Nat
  profile : Profile
  /-- phase class (R254, R302) -/
  phaseClass : Nat
  ring : Tbl Desc
  /-- ring entry after the last one STP wrote -/
  next : Nat
  op : Option DieOp
  /-- the READ that runs in the rein of `op` -/
  reinRead : Option DieOp
  timeline : List Seg
  /-- block for which an intent is armed (R228) -/
  armed : Option Nat
  /-- armed record's erase count and reason -/
  armCount : Nat
  armReason : Nat
  toRun : Nat
  intentAct : Nat
  intentStby : Nat
  intentFree : Nat
  recSeq : Nat
  /-- record pages of the two intent blocks, newest first -/
  records : List IntentPage
  /-- threshold table entry set in the die (R217) -/
  thresh : Nat
  /-- elapsed ms since the last retraining and the temperature at it (R239) -/
  trainedAt : Nat
  trainTemp : Int
  temp : Int
  /-- polls of the die in the stride (R215) -/
  polls : Nat
  deriving DecidableEq, Repr

/-- A bus request in its stall (R236). -/
structure Stall where
  age : Nat
  promoted : Bool
  deriving DecidableEq, Repr

/-- The functions of a NAND die that the channels use (R201), and the sequences of the die profile (R202). -/
inductive NandFn
  | reset | resetLun | syncReset
  | readId | readUniqueId | readParam
  | status | statusEnhanced
  | readPage | readMulti
  | cacheNext | cacheEnd
  | columnOut
  | program | programMulti
  | columnIn
  | erase | eraseMulti
  | getFeature | setFeature | getFeatureLun | setFeatureLun
  | zqLong | zqShort
  | trainRead | trainWriteTx | trainWriteRx
  | oneShot | progSuspend | progResume | eraseSuspend | eraseResume | pslcEntry | pslcExit
  /-- a step of a RAW descriptor (R210) -/
  | raw (step : BitVec 16)
  deriving DecidableEq, Repr

/-- An entry of a command group (R214): its rank, its die position, the die function that it issues, and the function
whose work it is, 256 for none. -/
structure CgEntry where
  rank : Nat
  pos : Nat
  what : NandFn
  fn : Nat
  deriving DecidableEq, Repr

/-- A flash channel (R203, R205, R212, R232-R239). -/
structure Chan where
  inService : Bool
  /-- channel rate in MT/s, 0 = not trained -/
  rate : Nat
  /-- data interface code of IFACE -/
  iface : Nat
  /-- unread completion records, oldest first -/
  cring : List CRec
  /-- completions that wait for a free record (R212) -/
  waiting : List CRec
  /-- records reserved by started descriptors (R212) -/
  reserved : Nat
  cringTail : Nat
  cringHead : Nat
  /-- bus owner: requester 0-31 dies, 32 CMD, 33 MNT -/
  owner : Option Nat
  burst : Nat
  /-- a codeword transfer is in progress on the bus -/
  busy : Bool
  /-- slots of the stride already granted (R42) -/
  slot : Nat
  stalls : Tbl Stall
  /-- last requester granted at each rank (R233) -/
  last : Tbl Nat
  /-- entries of the command group or MNT slot in progress, in the order in which they run (R214) -/
  group : List CgEntry
  /-- a retraining has used an MNT slot of the stride (R239) -/
  mntUsed : Bool
  /-- retraining at a lower rate (R239) -/
  retraining : Bool
  /-- channel or chip enables failed their pins (R240) -/
  pinBad : Bool
  ceBad : BitVec 8
  deriving DecidableEq, Repr

/-- FCH: the part common to the channels, and what the dies hold. -/
structure Fch where
  /-- tick count, identical on all channels (R205) -/
  tick : BitVec 32
  chans : Tbl Chan
  dies : Tbl Die
  /-- pSLC blocks to erase: die, block, the checkpoint number at the switch, and the reason of R227 (R226, R311,
  R342) -/
  intentErase : List (Nat × Nat × Nat × Nat)
  /-- programmed native codewords by MGA, as information bits (R143, R273) -/
  media : Tbl Info
  deriving DecidableEq, Repr

/-! ## Stride planner (08_planner_gaits.md) -/

/-- How a media read is served (R259, R262, R289). -/
inductive ReadKind | direct | around | degraded | step5
  deriving DecidableEq, Repr

/-- One member read of a reconstruction (R260). -/
structure MemberRead where
  /-- position of the member in the row: 0 to d-1 data, d is P, d+1 is Q -/
  pos : Nat
  die : Nat
  mga : Nat
  /-- its codewords have transferred and wait for a decoder -/
  arrived : Bool
  /-- decoded information bits -/
  info : Option Info
  failed : Bool
  lost : Bool
  /-- its own ladder step (R289), the threshold table entry it reads at, and whether its READ is placed -/
  step : Nat
  thresh : Nat
  placed : Bool
  deriving DecidableEq, Repr

/-- A media read in service for one granule of a host command. -/
structure RdJob where
  id : Nat
  cmd : Nat
  part : Nat
  mga : Nat
  ns : Nat
  lba : Nat
  /-- generation of the namespace's key when the read resolved (R405) -/
  keyGen : Nat
  gait : Nat
  tag : JobTag
  kind : ReadKind
  /-- recovery ladder step 1-6 (R287) -/
  step : Nat
  /-- admission tick and the direct limit that held then (R270) -/
  admitTick : Nat
  limit : Nat
  /-- its kind and members are decided -/
  placed : Bool
  members : List MemberRead
  /-- decoded target, waiting for CIP -/
  result : Option Info
  /-- corrected bits of the decode -/
  corrected : Nat
  deriving DecidableEq, Repr

/-- Engine kinds (R266). -/
inductive EngKind | hard | soft | cip
  deriving DecidableEq, Repr

/-- Where an engine job stands (R266-R268). -/
inductive EngState | running | stalled | waiting
  deriving DecidableEq, Repr

/-- An engine job (R266-R268). -/
structure EngJob where
  id : Nat
  kind : EngKind
  rank : Nat
  tag : JobTag
  owner : Owner
  state : EngState
  /-- strides since it entered its stall -/
  age : Nat
  promoted : Bool
  /-- strides since its grant, the youngest is preempted (R267) -/
  since : Nat
  /-- number of the engine that runs it: decoder or lane (R13) -/
  eng : Nat
  /-- a CIP message longer than one granule is suspended, not restarted (R267, R392) -/
  long : Bool
  /-- 16 B blocks done of a long message (R392) -/
  done : Nat
  deriving DecidableEq, Repr

/-- Credit of a background share: slots and die time, in 1/256 (R115, R263). -/
structure Credit where
  slot : Int
  die : Int
  deriving DecidableEq, Repr

/-- STP. -/
structure Stp where
  /-- the plan for the next stride is complete (R39, R40) -/
  planReady : Bool
  /-- the plan of this stride is committed -/
  committed : Bool
  /-- the stride in progress runs a hold plan -/
  hold : Bool
  /-- the next stride runs a hold plan -/
  holdNext : Bool
  /-- the stride in progress is a step stride and runs a hold plan (R50) -/
  stepHold : Bool
  /-- lantern tables of the second in progress and of the next, and whether the next is readable -/
  lantern : Option Lantern
  lanternNext : Option Lantern
  published : Bool
  /-- lit windows broken in this and in the previous second -/
  broken : Nat
  brokenPrev : Nat
  /-- last window counted as broken -/
  brokenWin : Option Nat
  /-- turns (R254-R256) -/
  openClass : Nat
  turnPos : Nat
  turnLen : Nat
  /-- tick at which the unreadable window of the turn ends -/
  windowEnd : Nat
  /-- dies that wait with a window for a later turn (R271 TURN_WAIT) -/
  turnWaits : List Nat
  /-- read-around quota credit in 1/256 units (R261) -/
  raSlot : Nat
  raDie : Nat
  /-- shares in force, percent -/
  rclNow : Nat
  groomNow : Nat
  rebuildNow : Nat
  /-- credits of the reclaim, groom and rebuild shares, and whether no function claims capacity in the plan (R263, R264) -/
  rclShare : Credit
  groomShare : Credit
  rebuildShare : Credit
  unclaimed : Bool
  /-- throttle level in force and the level the next plan takes (R269) -/
  throttle : Nat
  throttleNext : Nat
  degraded : Bool
  /-- RA_SHORT and the groom deadline were reported in this second -/
  raShortSeen : Bool
  groomLate : Bool
  reads : List RdJob
  nextJob : Nat
  engs : List EngJob
  /-- engine jobs granted in the stride in progress, by kind: 0 hard, 1 soft, 2 CIP -/
  engUsed : Tbl Nat
  deriving DecidableEq, Repr

/-! ## Media code (09_media_code.md) -/

/-- A threshold table entry: offsets of levels 1-15 and its counts (R284, R286). -/
structure ThreshEntry where
  offsets : List Int
  /-- corrected bits gathered, and those that went from 1 to 0 -/
  bits : Nat
  ones : Nat
  deriving DecidableEq, Repr

/-- A poisoning that waits for a fine unit (R291). -/
structure PoisonReq where
  ns : Nat
  lba : Nat
  mga : Nat
  step : Nat
  deriving DecidableEq, Repr

/-- LDC. -/
structure Ldc where
  /-- threshold tables by die * 256 + entry (R284) -/
  track : Tbl ThreshEntry
  /-- poisonings waiting for a fine unit, and failed MGAs queued for reverse search (R291, R563) -/
  poison : List PoisonReq
  reverse : List Nat
  /-- corrected bits since device reset, 64 bits (R298) -/
  bits : Nat
  injArmed : Bool
  /-- LDC_MISDIRECT was written in this second (R277) -/
  misdirectSeen : Bool
  /-- SMART Media and Data Integrity Errors (R293) -/
  mediaErrors : Nat
  /-- Error Information log: (namespace index, first LBA, command seq), newest first (R292) -/
  errorLog : List (Nat × Nat × Nat)
  deriving DecidableEq, Repr

/-! ## Parity, journal and rebuild (10_parity_rebuild.md) -/

/-- Layout of the drive (R301-R304). -/
structure Layout where
  declustered : Bool
  k : Nat
  d : Nat
  f : Nat
  /-- generations, or groups -/
  gen : Nat
  spans : Nat
  spareDie : Nat
  /-- highest spare blocks S of a grouped die, or first spare block of a declustered die -/
  spareBlocks : Nat
  /-- members of group g at class c by g * 32 + c (R303) -/
  groups : Tbl Nat
  /-- dies in service at initialisation, in channel and die-number order -/
  dies : List Nat
  deriving DecidableEq, Repr

/-- Span phases (R332). -/
inductive Phase | erased | open | closed | victim | released | erasing | retired
  deriving DecidableEq, Repr

/-- One entry of the span table (R306, R332-R334). -/
structure Span where
  phase : Phase
  stream : Nat
  /-- SECONDS and operating hours at its closing, and SECONDS of its last groom -/
  closedAt : Nat
  closedHours : Nat
  groomedAt : Nat
  /-- SECONDS when its first row was programmed (R285) -/
  firstAt : Nat
  firstHours : Nat
  /-- substitutions by member position: die and block (R306) -/
  subst : Tbl (Nat × Nat)
  /-- row valid counts (R334) -/
  valid : Tbl Nat
  /-- members of closed rows that are lost and not programmed, by row (R310, R323) -/
  lost : Tbl (BitVec 32)
  /-- members whose erase has reported OK (R332) -/
  erasedMembers : List Nat
  /-- members whose erase has started -/
  startedMembers : List Nat
  /-- victim rows that have given their credit, and granules copied from each row (R340) -/
  doneRows : List Nat
  rowCopies : Tbl Nat
  /-- a spare span of rebuild (R307): its member dies and blocks -/
  spareMembers : List (Nat × Nat)
  deriving DecidableEq, Repr

/-- An open or closing row in the journal's DRAM copy (R310, R311). -/
structure Row where
  stream : Nat
  serial : Nat
  span : Nat
  row : Nat
  /-- row state of R180, 4 = closed -/
  state : Nat
  done : BitVec 32
  lost : BitVec 32
  deriving DecidableEq, Repr

/-- A proxy (R315, R316). -/
structure Proxy where
  span : Nat
  row : Nat
  pos : Nat
  /-- 0 data, 1 P, 2 Q -/
  kind : Nat
  mga : Nat
  /-- VOID bitmap by codeword position -/
  void : BitVec 96
  /-- members taken as zero (R327) -/
  zero : BitVec 32
  /-- its program has completed and its record is written -/
  serving : Bool
  deriving DecidableEq, Repr

/-- A journal record (R309, R310); the BODY is kept by its fields. -/
structure JRec where
  typ : Nat
  stream : Nat
  row : Nat
  span : Nat
  jseq : Nat
  serial : Nat
  body : BitVec 288
  deriving DecidableEq, Repr

/-- A journal mirror (R308, R313). -/
structure Mirror where
  die : Nat
  service : Bool
  rehoming : Bool
  /-- active and standby journal block -/
  act : Nat
  stby : Nat
  /-- journal sequence number up to which it holds records, and whether it holds the ROOT -/
  upTo : Nat
  hasRoot : Bool
  /-- records in the active block -/
  fill : Nat
  fails : Nat
  deriving DecidableEq, Repr

/-- A root record: the map at its checkpoint, and the span table, proxies and open rows when it entered the journal
(R166, R306, R311). -/
structure Root where
  map : MapRoot
  spans : Tbl Span
  proxies : List Proxy
  rows : List Row
  retired : List Nat
  spareTaken : List Nat
  retiredSpans : Nat
  deriving DecidableEq, Repr

/-- PAR. -/
structure Par where
  layout : Option Layout
  spans : Tbl Span
  rows : List Row
  proxies : List Proxy
  /-- records of the DRAM copy since the newest adopted ROOT, newest first -/
  journal : List JRec
  jseq : Nat
  /-- records not yet on the mirrors and strides since the oldest of them -/
  unflushed : Nat
  flushAge : Nat
  mirrors : List Mirror
  /-- newest adopted root, and a root in the journal not yet adopted -/
  root : Option Root
  rootPending : Option Root
  /-- dies out of service, oldest first (R314, R329) -/
  lost : List Nat
  /-- dies to handle at the next boundary -/
  lostArm : List Nat
  /-- rebuild queue: (span, row, losses) (R318) -/
  queue : List (Nat × Nat × Nat)
  /-- 0 none, 1 running, 2 paused, 3 stopped -/
  rbState : Nat
  rowsDone : Nat
  rbStart : Nat
  handed : List Nat
  /-- spans handed over by this rebuild and not yet erased (R322) -/
  rbHanded : List Nat
  thirdLoss : Nat
  mismatch : Nat
  fixed : Nat
  /-- groom: span visited, next row, spans done in the cycle, commands (span, sequence number) that wait -/
  groomSpan : Option Nat
  groomRow : Nat
  /-- rows relocated and corrected in the span visited, and SECONDS at the start of the cycle (R324) -/
  groomMoved : Nat
  groomFixed : Nat
  groomStart : Nat
  groomDone : List Nat
  groomWait : List (Nat × Nat)
  /-- moves of a mirror that wait: (mirror, die, sequence number) (R328) -/
  moveWait : List (Nat × Nat × Nat)
  deriving DecidableEq, Repr

/-! ## Reclaim and wear (11_reclaim_wear.md) -/

/-- Sanitize progress (R355, R406). -/
inductive Sanitize
  | never
  /-- armed for the next boundary -/
  | armed
  | erasing
  | completed
  | failed
  deriving DecidableEq, Repr

/-- RCL. -/
structure Rcl where
  /-- erase counts by die * 2^14 + block (R342) -/
  counts : Tbl Nat
  /-- retired native blocks by the same key (R345) -/
  retired : List Nat
  /-- spare blocks in use by the same key (R306, R348) -/
  spareTaken : List Nat
  spareTotal : Nat
  retiredSpans : Nat
  victims : List Nat
  wlVictim : Option Nat
  /-- victims taken under throttling add their selection credit (R340) -/
  credit : Int
  throttling : Bool
  urgentSeen : Bool
  floorSeen : Bool
  lowSeen : Bool
  readOnly : Bool
  life100 : Bool
  pctUsed : Nat
  availSpare : Nat
  copied : Nat
  hosted : Nat
  userGran : Nat
  sanitize : Sanitize
  sanitizeBad : List Nat
  /-- the blocks of the sanitize operation retried once -/
  sanitizeRetried : List Nat
  /-- spans that the operation has still to erase, how many there were, and the checkpoint that ends it (R355) -/
  sanitizeSpans : List Nat
  sanitizeTotal : Nat
  sanitizeCkpt : Option Nat
  deriving DecidableEq, Repr

/-! ## Memory (12_memory.md) -/

/-- Freeze causes (R374, R383), in the order of DMC_FREEZE.CAUSE with code 2 for region without source. -/
inductive FreezeCause | none | notFolded | noSource | recomputeFailed | sram
  deriving DecidableEq, Repr

/-- A DRAM bank: the row that the last access left open, and its 2-bit close predictor (R367). -/
structure DramBank where
  row : Option Nat
  ctr : Nat
  deriving DecidableEq, Repr

/-- A subchannel: the lines of its write queue (R365, R366), and its banks (R367). -/
structure Subch where
  writes : List Nat
  banks : Tbl DramBank
  deriving DecidableEq, Repr

/-- Refresh of a rank: time since its last interval was due, intervals due, and REFsb commands taken (R368). -/
structure RankRefresh where
  ns : Nat
  due : Nat
  taken : Nat
  deriving DecidableEq, Repr

/-- DMC settings in force in the stride (R383): WQ_HIGH, WQ_LOW, PRED_EN, OSC_STRIDES, DRIFT. -/
structure DmcConf where
  wqHigh : Nat
  wqLow : Nat
  pred : Bool
  osc : Nat
  drift : Nat
  deriving DecidableEq, Repr

/-- DMC and SRM. -/
structure Dmc where
  trained : Bool
  subch : Tbl Subch
  /-- lines that failed both refetches and wait for recompute (R370) -/
  fails : List LineFail
  frozen : Bool
  cause : FreezeCause
  dumpBusy : Bool
  dumpDone : Bool
  /-- regions whose fill has ended (R380) -/
  usable : List Region
  filling : Bool
  /-- remapped rows by rank (R381) -/
  remaps : Tbl Nat
  /-- tick of the last oscillator read and ZQ calibration by subchannel * 2 + rank (R369) -/
  lastOsc : Tbl (BitVec 32)
  lastZq : Tbl (BitVec 32)
  /-- a retraining window is taken in this stride (R369) -/
  window : Bool
  /-- refresh by subchannel * 2 + rank (R368) -/
  refresh : Tbl RankRefresh
  conf : DmcConf
  deriving DecidableEq, Repr

/-! ## Keys and cipher (13_cipher_keys.md) -/

/-- A key slot (R395). Keys are values no path reads; here they are numbers. -/
structure KeySlot where
  /-- key in force; none = EMPTY -/
  key : Option Nat
  shadow : Option Nat
  source : KeySource
  owner : Nat
  keyId : Nat
  /-- generation, advanced at each load or clear (R396) -/
  gen : Nat
  deriving DecidableEq, Repr

/-- A namespace's key store record in NOR (R398). -/
structure KeyRec where
  mode : CipherMode
  source : KeySource
  owner : Nat
  keyId : Nat
  kcv : Nat
  /-- KCVs of the last 16 erased keys, newest first -/
  erased : List Nat
  /-- generation number, whose parity is the copy that holds the record -/
  gen : Nat
  /-- the key wrapped under the SWK, for sources 0 and 1 -/
  wrapped : Option Nat
  deriving DecidableEq, Repr

/-- The latest exchange of a function (R402). -/
structure Offer where
  hostPub : Nat
  hostNonce : Nat
  devPub : Nat
  devNonce : Nat
  sig : Nat
  deriving DecidableEq, Repr

/-- A clear or change of a key that is not yet complete (R405). -/
structure KeyClear where
  slot : Nat
  /-- the command to complete, if any, by sequence number -/
  seq : Option Nat
  deriving DecidableEq, Repr

/-- An SPDM secured session (R412). -/
structure Session where
  id : Nat
  finished : Bool
  /-- true over DOE, false over MCTP -/
  doe : Bool
  keyGen : Nat
  deriving DecidableEq, Repr

/-- A function's entry in the function table in NOR (R497). -/
structure FnEntry where
  state : FnState
  bind : Bind
  harness : Harness
  spaces : Tbl Nat
  epoch : Nat
  deriving DecidableEq, Repr

/-- A record write to the external NOR in progress or waiting, with what it writes (R398, R403, R497). -/
structure NorWait where
  /-- commands that complete when it ends, by sequence number -/
  seqs : List Nat
  dw0 : BitVec 32
  /-- function table: a function's entry, and the next MIG_SERIAL -/
  entry : Option (Nat × FnEntry)
  mig : Nat
  /-- key store: namespace index and its record -/
  key : Option (Nat × KeyRec)
  deriving DecidableEq, Repr

/-- KEY. -/
structure Key where
  slots : Tbl KeySlot
  offers : Tbl Offer
  clears : List KeyClear
  health : Bool
  requests : Nat
  sessions : List Session
  nextSession : Nat
  certOk : Bool
  aliasOk : Bool
  /-- measurements 1-5, and measurements 1-3 of the alias key in use (R410, R411) -/
  meas : Tbl Nat
  aliasFor : List Nat
  /-- SPDM negotiation on MCTP and DOE: 0 none, 1 version, 2 capabilities, 3 algorithms -/
  spdm : Tbl Nat
  storeOk : Bool
  /-- volatile keys that dumped granules wait for (R399) -/
  waitKeys : List Nat
  /-- last Security Send payload by function * 2^24 + protocol * 2^16 + its specific field (R68) -/
  secure : Tbl (List Byte)
  deriving DecidableEq, Repr

/-- A granule or a TLS record that CIP works on. -/
structure Cip where
  lanes : Nat
  /-- saved contexts in use (R392) -/
  ctxUsed : Nat
  /-- records received under the current receive key by TLS index (R408) -/
  rxRecords : Tbl Nat
  /-- a GCM read waited for places in this stride (R389) -/
  waited : Bool
  deriving DecidableEq, Repr

/-- An encoded codeword by stream, serial, member and position: in the staging pool ahead of its slot (R188), then in
the die until its program ends. -/
structure Staged where
  stream : Nat
  serial : Nat
  member : Nat
  pos : Nat
  info : Info
  deriving DecidableEq, Repr

/-! ## Links (14_host_links.md) -/

/-- A PCIe port (R418-R426). -/
structure Port where
  up : Bool
  perst : Bool
  training : Bool
  numVfs : Nat
  /-- a link-down event was written and the link has not trained again (R421) -/
  lost : Bool
  deriving DecidableEq, Repr

/-- A selective IDE stream (R428, R429). -/
inductive IdeState | off | secure | insecure
  deriving DecidableEq, Repr

structure IdeStream where
  state : IdeState
  ridLo : Nat
  ridHi : Nat
  key : Option Nat
  deriving DecidableEq, Repr

/-- HIF. -/
structure Hif where
  ports : Tbl Port
  dual : Bool
  owner : Option Nat
  closed : Bool
  ide : Tbl IdeStream
  /-- Device Control of a function (R419) -/
  devCtl : Tbl (BitVec 16)
  deriving DecidableEq, Repr

/-- An entry of the Discovery Log Page: function, transport, interface, address, and secure channel required (R440). -/
structure DiscItem where
  fn : Nat
  rdma : Bool
  iface : Nat
  v6 : Bool
  addr : Nat
  tls : Bool
  deriving DecidableEq, Repr

/-- An association of a network-bound function (R436-R438). -/
structure Assoc where
  fn : Nat
  hostHash : Nat
  rdma : Bool
  /-- Keep Alive timeout in ms, 0 = off, and elapsed time of the last restart -/
  kato : Nat
  kaClk : Nat
  /-- connected queues and the TLS index of each -/
  queues : List (Nat × Option Nat)
  /-- interface and address family of its connections (R431) -/
  iface : Nat
  v6 : Bool
  discovery : Bool
  /-- of a discovery association: its page as last seen, and the event of a change that waits for its host (R440) -/
  seen : List DiscItem
  notice : Bool
  deriving DecidableEq, Repr

/-- An Ethernet interface (R430-R432). -/
structure Iface where
  up : Bool
  /-- elapsed time since which pause has been received, or absent -/
  ignorePause : Bool
  v6Route : Option Nat
  deriving DecidableEq, Repr

/-- NET. -/
structure Net where
  ifaces : Tbl Iface
  assocs : List Assoc
  /-- TLS indices in use, with the function and the cipher suite (R435) -/
  tls : Tbl (Nat × Nat)
  /-- capsules received and not yet fetched: function, queue, cid, gait (R101, R439) -/
  capsules : List (Nat × Nat × Nat × Nat)
  refusedSeen : Bool
  ready : Bool
  datagramDue : Bool
  /-- port modes in force (R430) -/
  modes : List Nat
  /-- Discovery Log Page of all hosts as last seen, with the allow lists, and its generation (R440) -/
  discSeen : List DiscItem
  discAcl : List Nat
  discGen : Nat
  deriving DecidableEq, Repr

/-- SBI. -/
structure Sbi where
  /-- MCTP endpoint ID, 0 = unassigned (R441, R450) -/
  eid : Nat
  /-- MCTP transmission unit (R442) -/
  mtu : Nat
  /-- console input accepted so far, in order (R444) -/
  console : List (BitVec 8)
  deriving DecidableEq, Repr

/-! ## Power and hold-up (15_power_thermal.md) -/

/-- A housekeeping channel (R451, R453). -/
structure HkChan where
  raw : Nat
  /-- scaled value in the channel's unit -/
  val : Int
  /-- consecutive rounds outside the valid range -/
  badRun : Nat
  broken : Bool
  deriving DecidableEq, Repr

/-- A node of the thermal model (R454, R455), temperatures in 0.1 °C. -/
structure Node where
  t : Rat
  bias : Rat
  /-- reported temperatures by elapsed ns, newest first, back to one that is 1 s old -/
  history : List (Nat × Rat)
  /-- the diode differs from the model by more than 8 °C -/
  gap : Bool
  /-- the diode as last read -/
  diode : Option Int
  deriving DecidableEq, Repr

/-- Snuff progress (R463, R464). -/
inductive SnuffState
  | none
  /-- the dump runs -/
  | dumping
  | off
  deriving DecidableEq, Repr

/-- THM. -/
structure Thm where
  chans : Tbl HkChan
  nodes : Tbl Node
  level : Nat
  lAbs : Nat
  lRise : Nat
  lPower : Nat
  /-- rounds since a candidate was at or above the level, in elapsed ns -/
  belowSince : Option Nat
  /-- power state in force, armed, and the last operational one (R461, R462) -/
  ps : Nat
  psArm : Option Nat
  psOper : Nat
  fast : Bool
  warn : Bool
  rounds : Nat
  /-- strides since the last round, rounds at the last open test -/
  sinceRound : Nat
  lastOpen : Nat
  /-- elapsed ns of the last reading of the dies' temperatures, and of relight -/
  lastPkg : Nat
  relightAt : Option Nat
  /-- die-time that committed plans placed since the last round, by die (R454) -/
  dieTime : Tbl Nat
  /-- controller power samples of the second: sum in mW and count (R460) -/
  powerSum : Nat
  powerCount : Nat
  /-- power of zones 0-11 at the last round and averaged over the last second, mW -/
  power : Nat
  powerAvg : Nat
  snuff : SnuffState
  snuffAt : Nat
  /-- operating time of the last snuff in seconds, and the minimum wait (R464) -/
  lastSnuff : Option Nat
  wait : Nat
  hotNode : Nat
  /-- highest rise in 0.1 °C/s -/
  riseMax : Rat
  deriving DecidableEq, Repr

/-- String states (R467), in the order of HLD_STRING.STATE. -/
inductive StrState | notFitted | untested | ok | weak | open | shorted | reversed
  deriving DecidableEq, Repr

/-- A capacitor string (R465). -/
structure Str where
  state : StrState
  cUf : Nat
  esr : Nat
  iso : Bool
  /-- deferrals of its test in a row, and the round of the last one (R469) -/
  defers : Nat
  deferredAt : Nat
  /-- the ceiling is set as though it were isolated (R469) -/
  discount : Bool
  deriving DecidableEq, Repr

/-- Why a dump runs (R470, R491, R495). -/
inductive DumpCause | powerFail | snuff | dumpGo | shutdown | deviceReset
  deriving DecidableEq, Repr

/-- Dump progress (R470, R471). -/
inductive DumpState
  | idle
  | armed (cause : DumpCause)
  | running (cause : DumpCause)
  | done (cause : DumpCause)
  deriving DecidableEq, Repr

/-- What a dump image holds (R194, R471). -/
structure DumpImage where
  valid : Bool
  verified : Bool
  slots : Tbl Slot
  targets : Tbl Target
  streams : Tbl Stream
  pus : List Pu
  /-- both halves of the delta log, and the write sequence numbers given -/
  active : List Delta
  sealed : List Delta
  seqs : Tbl Nat
  seqHigh : Nat
  /-- the stripe journal's DRAM copy, span table and proxies with it -/
  par : Par
  meters : Tbl Meter
  /-- slots left out (R376), and whether a line of the delta log or the journal copy failed -/
  lost : List Nat
  badLog : Bool
  /-- power-cycle count whose dump key covers the granules (R399) -/
  pcycle : Nat
  mib : Nat
  /-- read by a start-up; its blocks wait for the next checkpoint (R492) -/
  replayed : Bool
  deriving DecidableEq, Repr

/-- HLD. -/
structure Hld where
  strings : Tbl Str
  /-- bank voltage in mV at the last round, its lowest of the last second -/
  vBank : Nat
  vLow : List (Nat × Nat)
  charged : Bool
  energy : Int
  noHoldup : Bool
  /-- strings whose test is due, and elapsed ns of the last test -/
  toTest : List Nat
  lastTest : Nat
  dump : DumpState
  image : Option DumpImage
  /-- 0 none, 1 valid, 2 failed, 3 verified -/
  last : Nat
  /-- dump reserve blocks by die * 2^14 + block, and those of them that are erased (R471, R473, R490) -/
  reserve : List Nat
  erased : List Nat
  /-- elapsed ns of the dump's trigger -/
  dumpStart : Nat
  /-- a dump has completed since the last start-up (R495) -/
  dumped : Bool
  /-- a device reset follows when PWR_FAIL_N has been high for 100 ms (R473) -/
  resetAfter : Bool
  lostLines : List Nat
  deriving DecidableEq, Repr

/-! ## Start-up and reset (16_startup_reset.md) -/

/-- Fuses (R477). -/
structure Fuses where
  ok : Bool
  secretOk : Bool
  /-- SHA-384 of the signing keys by key index -/
  digests : Tbl Nat
  revoked : BitVec 4
  svn : Nat
  serial : BitVec 128
  mac : BitVec 48
  grade : Nat
  throttleC : Nat
  snuffC : Nat
  debugBlown : BitVec 2
  deriving DecidableEq, Repr

/-- A node of the image's thermal network (R454): heat capacity in mJ per 0.1 °C, resistances in 0.1 °C per mW. -/
structure NetNode where
  cap : Rat
  rAmb : Rat
  /-- coupled nodes: 0-11 controller, 12 + n package n -/
  links : List (Nat × Rat)
  /-- channel 12-15 of a controller zone's rail -/
  rail : Nat
  /-- rated maximum power of the zone in mW -/
  rated : Nat
  /-- dies of a package node -/
  dies : List Nat
  deriving DecidableEq, Repr

/-- A ball channel of the image's housekeeping table (R451, R453): value = scale × code + offset. -/
structure HkDef where
  scale : Rat
  offset : Rat
  lo : Int
  hi : Int
  /-- codes by which the open test may move it -/
  openThr : Nat
  /-- flash rail group: supply voltage in mV and rated maximum power in mW -/
  mv : Nat
  rated : Nat
  deriving DecidableEq, Repr

/-- An entry of an image's section table (R480): its type, REQUIRED, and whether its content matches its CRC-32. -/
structure ImgSection where
  typ : Nat
  required : Bool
  crcOk : Bool
  deriving DecidableEq, Repr

/-- What the configuration image sets (R480, R481). -/
structure CfgImage where
  /-- an Ityolor image of TYPE 1 whose signature verifies (R413, R480) -/
  valid : Bool
  /-- its section table -/
  sections : List ImgSection
  generation : Nat
  digest : Nat
  keyDigest : Nat
  svn : Nat
  svnCommit : Bool
  revoke : BitVec 4
  keyIndex : Nat
  harness0 : Option Harness
  pkgTp : Nat
  ambMax : Nat
  nodes : Tbl NetNode
  /-- the fitted ball channels -/
  channels : Tbl HkDef
  /-- Maximum Power of each power state in 0.01 W (R460) -/
  maxPower : Tbl Nat
  strings : BitVec 8
  /-- nominal capacitance by string, uF -/
  cNom : Tbl Nat
  vMin : Nat
  vTrip : Nat
  eta : Nat
  loadOhm : Nat
  esrLimit : Nat
  dual : Bool
  portModes : List Nat
  smbAddr : Nat
  closeBar2 : Bool
  uartIn : Bool
  jtagReg : Bool
  sealed : BitVec 32
  ratedPe : Nat
  /-- non-default reset values of RW fields: register key and value -/
  values : List (Nat × Nat)
  profiles : List Profile
  deriving DecidableEq, Repr

/-- A die roster entry (R488). -/
structure RosterEntry where
  uid : Nat
  profile : Nat
  state : Nat
  changed : Nat
  deriving DecidableEq, Repr

/-- The die roster (R488). -/
structure Roster where
  valid : Bool
  readOnly : Bool
  clean : Bool
  generation : Nat
  initSeconds : Nat
  /-- geometry of the drive (R142) -/
  geom : Option Geom
  entries : Tbl RosterEntry
  deriving DecidableEq, Repr

/-- A copy of the function table with its header: the next MIG_SERIAL, and a sanitize operation unfinished (R355, R497). -/
structure FnCopy where
  table : Tbl FnEntry
  mig : Nat
  sanitize : Bool
  deriving DecidableEq, Repr

/-- External NOR besides the ledger ring (R479). -/
structure Nor where
  /-- what its SFDP reports: an 8D-8D-8D mode, and erase suspend (R552) -/
  octal : Bool
  suspend : Bool
  cfgA : CfgImage
  cfgB : CfgImage
  fw : Tbl FwImage
  /-- slot chosen by the last Firmware Commit -/
  fwNext : Nat
  /-- newest record of each namespace, and the record before it in the other copy of the key store (R398) -/
  keys : Tbl KeyRec
  keysOld : Tbl KeyRec
  /-- the newer copy of the roster, and the older one (R479, R488) -/
  roster : Roster
  rosterOld : Roster
  certs : Bool
  /-- the newer copy of the function table with its header, the older one, and the generation (R479, R497) -/
  fnTable : Tbl FnEntry
  migSerial : Nat
  /-- a sanitize operation is recorded as unfinished (R355) -/
  sanitize : Bool
  fnOld : FnCopy
  fnGen : Nat
  vpd : Tbl (BitVec 8)
  /-- user capacity in granules that initialisation fixed (R349) -/
  userGran : Nat
  deriving DecidableEq, Repr

/-- Start-up, resets and shutdown (R483-R499). -/
structure Bot where
  /-- phase in progress 1-11, 15 = stopped, 0 = held in power-on reset -/
  phase : Nat
  failPhase : Nat
  failCode : Nat
  path : Nat
  ready : Bool
  fallback : Bool
  cause : ResetCause
  fwSlot : Nat
  cfgCopy : Bool
  norOk : BitVec 5
  /-- elapsed time of the release of reset and of the start of the phase in progress -/
  releaseClk : Nat
  phaseClk : Nat
  /-- elapsed time at which link training could begin, while phase 3 lasts (R484, R499) -/
  linkClk : Option Nat
  /-- next flash group 0-4, and elapsed time at which its FPWR_EN rose (R485) -/
  group : Nat
  groupClk : Nat
  missing : Nat
  foreign : Nat
  expected : Nat
  inService : Nat
  resetArm : Option ResetCause
  /-- CC.SHN of function 0 in progress: 0 none, 1 normal, 2 abrupt, 3 normal at its checkpoint (R491) -/
  shutdown : Nat
  /-- the start-up initialised the drive -/
  initialised : Bool
  cfg : CfgImage
  deriving DecidableEq, Repr

/-- Signal pins and supplies that the rules read or drive (R494, R543, R544, R553, R554). -/
structure Pins where
  /-- PWR_FAIL_N level, and elapsed time since it is high -/
  pwrFailN : Bool
  pwrHighAt : Option Nat
  sysRstN : Bool
  snuffN : Bool
  fpwrEn : BitVec 4
  xtal : Bool
  hldChgEn : Bool
  hldLoadN : Bool
  /-- manufacturing test, tied low by the board (R541) -/
  testEn : Bool
  /-- DMCs_RESET_N of the four subchannels, one level for all (R549) -/
  dmcResetN : Bool
  deriving DecidableEq, Repr

/-! ## Event ledger (17_event_ledger.md) -/

/-- A ledger record before packing (R500). -/
structure LRec where
  seq : Nat
  pcycle : Nat
  hours : Nat
  hourSec : Nat
  severity : Nat
  subsys : Nat
  code : Nat
  /-- function concerned, when FUNC_VALID -/
  func : Option Nat
  direct : Bool
  summary : Bool
  early : Bool
  suppressed : Nat
  seconds : Nat
  ms : Nat
  /-- payload values with their widths in bytes, in order (R501) -/
  payload : List (Nat × Nat)
  deriving DecidableEq, Repr

/-- Rate limit state of one code (R509). -/
structure Bucket where
  tokens : Nat
  /-- boundaries since it last gained a token -/
  since : Nat
  suppressed : Nat
  last : Option LRec
  deriving DecidableEq, Repr

/-- A window of a control-plane path (R512, R534). -/
structure Window where
  cursor : BitVec 48
  valid : Bool
  result : Nat
  serial : BitVec 16
  record : Option LRec
  /-- a fetch is in progress: false LOAD, true NEXT -/
  pending : Option Bool
  deriving DecidableEq, Repr

/-- EVL. -/
structure Evl where
  /-- ring locations by number 0-131,071 that hold a record or a torn one -/
  ring : Tbl LRec
  torn : List Nat
  /-- next location to program and whether the sector ahead is being erased -/
  next : Nat
  erasing : Option Nat
  /-- records waiting, oldest first; direct records go first -/
  queue : List LRec
  programming : Option (Nat × LRec)
  failRun : Nat
  norStopped : Bool
  mirror : List LRec
  /-- records raised before TBS restored its counts, with elapsed ns at the raise (R502) -/
  held : List (Nat × LRec)
  restored : Bool
  buckets : Tbl Bucket
  /-- second boundaries since device reset, the refill count of a code never raised (R509) -/
  bounds : Nat
  wmark : Nat
  wmarkDue : Option Nat
  aen : Bool
  aenWaiting : Bool
  windows : Tbl Window
  deriving DecidableEq, Repr

/-! ## Register pages (18_register_pages.md) -/

/-- What a path holds for itself (R17, R531-R533). -/
structure PathState where
  /-- latched upper words by block * 4096 + offset (R531) -/
  latch : Tbl (BitVec 32)
  /-- selector fields by register key (R533) -/
  sel : Tbl Nat
  /-- upper parts written and not yet applied, by register key (R532) -/
  upper : Tbl Nat
  deriving DecidableEq, Repr

/-- Header state of one page (R526-R530): 0-22 blocks by index, 64 + nn for FCHnn. -/
structure Page where
  evtRaw : BitVec 32
  evtMask : BitVec 32
  enable : Bool
  freezeOnErr : Bool
  evtCount : Nat
  errValid : Bool
  errCode : Nat
  errFunc : Nat
  errMore : Nat
  errAddr : BitVec 32
  sealBit : Bool
  deriving DecidableEq, Repr

/-- A device self-test (R68): its code, elapsed ns at its start, the draw of its result and length, and the Device
Self-test command that started it. -/
structure SelfTest where
  code : Nat
  start : Nat
  draw : Nat
  nsid : Nat
  deriving DecidableEq, Repr

/-- A result of a self-test: its code, the result and operating hours. -/
structure TestResult where
  code : Nat
  result : Nat
  hours : Nat
  nsid : Nat
  deriving DecidableEq, Repr

/-- CPX (R537). -/
structure Cpx where
  /-- self-test in progress, and the last 20 results, newest first (R68) -/
  selfTest : Option SelfTest
  results : List TestResult
  running : BitVec 16
  heartbeat : BitVec 32
  /-- strides since HEARTBEAT last advanced -/
  still : Nat
  stopped : Bool
  deriving DecidableEq, Repr

/-- What the last command answered to its sender: the model's own field. -/
inductive Answer
  | none
  /-- a register word, or the words of a register access message with its status -/
  | word (w : BitVec 32)
  | words (status : Nat) (ws : List (BitVec 32))
  /-- bytes of a log page, an Identify structure or a response -/
  | bytes (b : List (BitVec 8))
  /-- data blocks transferred to the host -/
  | data (b : List Block) (hostMeta : List (BitVec 128))
  /-- a UDP datagram sent: network interface, VLAN identifier, UDP source and destination ports, source and destination
  addresses of the IP version, payload (R65) -/
  | datagram (iface : Nat) (vlan : Option Nat) (srcPort dstPort : Nat) (v6 : Bool) (src dst : Nat)
      (payload : List (BitVec 8))
  /-- a number a response carries -/
  | value (n : Nat)
  | refusal (code : Nat)
  deriving DecidableEq, Repr

/-- The whole machine. -/
structure State where
  /-- commands that wait, first in, first out -/
  pending : List Instr
  ans : Answer
  /-- draws of free values so far: the model's own counter -/
  draws : Nat
  gate : Gate
  tbs : Tbs
  stp : Stp
  qmx : Qmx
  ten : Ten
  fns : Tbl Fn
  map : Map
  wbf : Wbf
  fch : Fch
  ldc : Ldc
  par : Par
  rcl : Rcl
  dmc : Dmc
  key : Key
  cip : Cip
  staged : List Staged
  norWaits : List NorWait
  hif : Hif
  net : Net
  sbi : Sbi
  thm : Thm
  hld : Hld
  fuses : Fuses
  nor : Nor
  bot : Bot
  pins : Pins
  evl : Evl
  paths : Tbl PathState
  pages : Tbl Page
  /-- values of stored register fields by key, default the field's reset value -/
  regs : Tbl Nat
  cpx : Cpx
  deriving DecidableEq, Repr

/-! ## Reset -/

/-- A harness with every field 0. -/
def Harness.zero : Harness :=
  { gait := 0, tether := false, hard := false, qpairs := 0, slotShare := 0, dieShare := 0, wbMib := 0, tags := 0,
    iopsMax := 0, bwMax := 0, burst := 0, openZones := 0, capGib := 0 }

/-- An empty meter record of a function (R124). -/
def Meter.zero (f : Nat) : Meter :=
  { minute := 0, func := f, flags := 0, gait := 0, readArounds := 0, bytesRead := 0, bytesWritten := 0,
    mediaBytes := 0, commands := 0, slots := 0, capSum := 0, hist := [] }

/-- A FREE function (R107): what an unlisted function reads as. -/
def Fn.free : Fn :=
  { state := .free, bind := .none, harness := Harness.zero, planSlot := 0, planDie := 0, planHard := false,
    epoch := 0, reject := 0, iopsLevel := 0, bwLevel := 0, slotCredit := 0, dieCredit := 0, enabled := false,
    pp := false, shst := 0, sqs := [], cqs := [], aers := [], events := [], feats := [], spaces := [],
    cur := Meter.zero 0, ring := [], record := none, arms := [], drainFor := 0, freezeWait := [],
    freezeLate := false, flrArm := none, flr := none, flrFor := 0, deleteWait := none, offline := false,
    tempWarn := false, visit := { q := 0, left := 0, io := 0 }, passed := false, fetched := 0, saving := false }

/-- A slot with nothing in it (R173 FREE). -/
def Slot.free : Slot :=
  { state := .free, fn := 0, epoch := 0, pinned := false, pad := false, reserve := false, readers := 0,
    stream := 0, pos := 0, member := 0, rowSerial := 0, target := 0, ns := 0, lba := 0, wseq := 0, keyGen := 0, hostMeta := 0,
    cmd := 0, group := false, landed := 0, srcMga := 0, dying := false, mga := none, data := 0, raw := none }

/-- A target with nothing held. -/
def Target.empty : Target :=
  { fn := 0, stream := none, held := [], idle := 0, close := false, closeRow := false, closeFn := 0 }

/-- A stream without an open row. -/
def Stream.empty : Stream :=
  { state := .none, span := none, row := 0, nextRow := 0, serial := 0, members := 0, folded := 0, accP := [],
    accQ := [], paritySent := 0, newSpan := false, padRow := false, padFn := 0 }

/-- A program unit with no position filled. -/
def Pu.blank : Pu :=
  { recNo := 8192, stream := 0, serial := 0, member := 0, target := 0, fn := 0, slots := [], die := 0, mga := 0, encoded := 0,
    foldedTo := 0, sent := 0, state := .opening, proxyOf := none, tries := 0, chunk := none, rowPad := false, padFn := 0,
    cov := [] }

/-- A profile with no times. -/
def Profile.zero : Profile :=
  { readId := [], revision := 0, iface := 0, oneShot := [], progSuspend := [], progResume := [], eraseSuspend := [],
    eraseResume := [], pslcEntry := [], pslcExit := [], threshAt := [], softRead := [], tempAt := 0, ownSeq := [],
    tr := 0, prog := 0, slc := 0, erase := 0, suspend := 0, resume := 0, reset := 0, trMax := 0, progMax := 0, slcMax := 0,
    eraseMax := 0, resetMax := 0, pslc := 0 }

/-- No geometry. -/
def Geom.zero : Geom := { blocks := 0, wls := 0, bits := 0, planes := 0 }

/-- A die position with no die: what an unlisted die reads as. -/
def Die.absent : Die :=
  { present := false, service := false, uid := 0, geom := Geom.zero, spare := 0, profile := Profile.zero, phaseClass := 0, ring := [], next := 0,
    op := none, reinRead := none, timeline := [], armed := none, armCount := 0, armReason := 0, toRun := 0,
    intentAct := 0, intentStby := 1, intentFree := 0, recSeq := 0, records := [], thresh := 0,
    trainedAt := 0, trainTemp := 0, temp := 0, polls := 0 }

/-- A channel that has not trained: what an unlisted channel reads as. -/
def Chan.empty : Chan :=
  { inService := false, rate := 0, iface := 0, cring := [], waiting := [], reserved := 0, cringTail := 0,
    cringHead := 0, owner := none, burst := 0, busy := false, slot := 0, stalls := [], last := [], group := [], mntUsed := false,
    retraining := false, pinBad := false, ceBad := 0 }

/-- A span with every member erased. -/
def Span.erased : Span :=
  { phase := .erased, stream := 0, closedAt := 0, closedHours := 0, groomedAt := 0, firstAt := 0, firstHours := 0,
    subst := [], valid := [], lost := [], erasedMembers := [], startedMembers := [], doneRows := [], rowCopies := [], spareMembers := [] }

/-- An empty key slot (R395). -/
def KeySlot.empty : KeySlot :=
  { key := none, shadow := none, source := .generated, owner := 0, keyId := 0, gen := 0 }

/-- A configuration image copy that holds nothing (R480). -/
def CfgImage.none : CfgImage :=
  { valid := false, sections := [], generation := 0, digest := 0, keyDigest := 0, svn := 0, svnCommit := false, revoke := 0, keyIndex := 0,
    harness0 := .none, pkgTp := 0,
    ambMax := 0, nodes := [], channels := [], maxPower := [], strings := 0, cNom := [], vMin := 0, vTrip := 0, eta := 0, loadOhm := 0,
    esrLimit := 0, dual := false, portModes := [], smbAddr := 0, closeBar2 := false, uartIn := false,
    jtagReg := false, sealed := 0, ratedPe := 0, values := [], profiles := [] }

/-- A firmware slot that holds nothing. -/
def FwImage.none : FwImage :=
  { valid := false, svn := 0, svnCommit := false, keyIndex := 0, digest := 0,
    keyDigest := 0, revoke := 0 }

/-- A window that has fetched nothing (R512). -/
def Window.empty : Window :=
  { cursor := 0, valid := false, result := 0, serial := 0, record := none, pending := none }

/-- The latches of a path after device reset (R531-R533). -/
def PathState.empty : PathState := { latch := [], sel := [], upper := [] }

/-- The header of a page after device reset (R526). -/
def Page.reset : Page :=
  { evtRaw := 0, evtMask := 0, enable := true, freezeOnErr := false, evtCount := 0, errValid := false,
    errCode := 0, errFunc := 0, errMore := 0, errAddr := 0, sealBit := false }

def Gate.reset : Gate := { act := 0, on := 0, busy := 0, idle := [] }

def Tbs.reset : Tbs :=
  { clk := 0, seconds := 0, prevSeconds := 0, strideInSec := 0, nsInStride := 0, strideLen := 8000,
    secondDue := false, atSecond := false, minuteDue := false, minutePartial := false, origin := 0, hours := 0,
    hourSec := 0, hourNs := 0, hourDue := false, pcycle := 0, pps := .free, wasLocked := false, enabledAt := 0, lastEdge := none,
    lastAny := none, polarity := none, polPrev := none, prevErr := none, predEdge := 0, aligned := false, goodRun := 0,
    lockedAt := 0, stepDue := none, slewLeft := 0, slewNext := 0, sets := [] }

def Stp.reset : Stp :=
  { planReady := false, committed := false, hold := false, holdNext := false, stepHold := false, lantern := none,
    lanternNext := none, published := false, broken := 0, brokenPrev := 0, brokenWin := none, openClass := 0,
    turnPos := 0, turnLen := 0, windowEnd := 0, turnWaits := [], raSlot := 0, raDie := 0, rclNow := 0,
    groomNow := 0, rebuildNow := 0, rclShare := ⟨0, 0⟩, groomShare := ⟨0, 0⟩, rebuildShare := ⟨0, 0⟩,
    unclaimed := false, throttle := 0, throttleNext := 0, degraded := false, raShortSeen := false,
    groomLate := false, reads := [], nextJob := 0, engs := [], engUsed := [] }

def Qmx.reset : Qmx :=
  { nextSeq := 0, cmds := [], wthru := false, wthruArm := false, wthruOff := false, act := .idle, actSlot := 0,
    actCmd := none, frozen := false, download := [], sqDel := [], sqWait := [] }

def Ten.reset : Ten :=
  { bgMax := 0, scaleSlot := ⟨0, 0⟩, scaleDie := ⟨0, 0⟩, scaleWb := ⟨0, 0⟩, migSerial := 0 }

def Map.reset : Map :=
  { spaces := [], coarse := [], fine := [], chunks := [], fineTotal := 0, fineReserved := 0, fineCreate := none,
    seqHigh := 0, hand := 0, demoting := false, demotes := [], active := [], sealed := [],
    deltaFull := false, ckpt := .idle, ckptNow := false, fineLow := false, dir := [], nextRoot := none, ckptNum := 0, fdp := false, dramMib := 0,
    fineEmptySeen := false, zoneOpens := 0 }

def Wbf.reset : Wbf :=
  { slots := [], ceil := 0, landings := 0, ceilNext := none, dropping := false, targets := [], streams := [], pus := [] }

def Fch.reset : Fch := { tick := 0, chans := [], dies := [], intentErase := [], media := [] }

def Ldc.reset : Ldc :=
  { track := [], poison := [], reverse := [], bits := 0, injArmed := false, misdirectSeen := false,
    mediaErrors := 0, errorLog := [] }

def Par.reset : Par :=
  { layout := none, spans := [], rows := [], proxies := [], journal := [], jseq := 0, unflushed := 0,
    flushAge := 0, mirrors := [], root := none, rootPending := none, lost := [], lostArm := [], queue := [],
    rbState := 0, rowsDone := 0, rbStart := 0, handed := [], rbHanded := [], thirdLoss := 0, mismatch := 0,
    fixed := 0, groomSpan := none, groomRow := 0, groomMoved := 0, groomFixed := 0, groomStart := 0, groomDone := [], groomWait := [], moveWait := [] }

def Rcl.reset : Rcl :=
  { counts := [], retired := [], spareTaken := [], spareTotal := 0, retiredSpans := 0, victims := [],
    wlVictim := none, credit := 0, throttling := false, urgentSeen := false, floorSeen := false,
    lowSeen := false, readOnly := false, life100 := false, pctUsed := 0, availSpare := 0, copied := 0,
    hosted := 0, userGran := 0, sanitize := .never, sanitizeBad := [], sanitizeRetried := [], sanitizeSpans := [],
    sanitizeTotal := 0, sanitizeCkpt := none }

def Dmc.reset : Dmc :=
  { trained := false, subch := [], fails := [], frozen := false, cause := .none, dumpBusy := false,
    dumpDone := false, usable := [], filling := false, remaps := [], lastOsc := [], lastZq := [], window := false,
    refresh := [], conf := { wqHigh := 48, wqLow := 16, pred := true, osc := 1250, drift := 8 } }

def Key.reset : Key :=
  { slots := [], offers := [], clears := [], health := false, requests := 0, sessions := [], nextSession := 0,
    certOk := false, aliasOk := false, meas := [], aliasFor := [], spdm := [], storeOk := false, waitKeys := [],
    secure := [] }

def Cip.reset : Cip :=
  { lanes := 0, ctxUsed := 0, rxRecords := [], waited := false }

def Hif.reset : Hif := { ports := [], dual := false, owner := none, closed := false, ide := [], devCtl := [] }

def Net.reset : Net :=
  { ifaces := [], assocs := [], tls := [], capsules := [], refusedSeen := false, ready := false,
    datagramDue := false, modes := [], discSeen := [],
    discAcl := [], discGen := 0 }

def Sbi.reset : Sbi := { eid := 0, mtu := 64, console := [] }

def Thm.reset : Thm :=
  { chans := [], nodes := [], level := 0, lAbs := 0, lRise := 0, lPower := 0, belowSince := none, ps := 0,
    psArm := none, psOper := 0, fast := true, warn := false, rounds := 0, sinceRound := 0, lastOpen := 0, lastPkg := 0,
    relightAt := none, dieTime := [], powerSum := 0, powerCount := 0, power := 0, powerAvg := 0, snuff := .none,
    snuffAt := 0, lastSnuff := none, wait := 30, hotNode := 0, riseMax := 0 }

/-- A string before its test: isolated (R466, STR_ISO). -/
def Str.untested : Str :=
  { state := .untested, cUf := 0, esr := 0, iso := true, defers := 0, deferredAt := 0, discount := false }

def Hld.reset : Hld :=
  { strings := [], vBank := 0, vLow := [], charged := false, energy := 0, noHoldup := true, toTest := [],
    lastTest := 0, dump := .idle, image := none, last := 0, reserve := [], erased := [], dumpStart := 0,
    dumped := false, resetAfter := false, lostLines := [] }

def Fuses.reset : Fuses :=
  { ok := true, secretOk := true, digests := [], revoked := 0, svn := 0, serial := 0, mac := 0, grade := 0,
    throttleC := 105, snuffC := 115, debugBlown := 0 }

def Roster.reset : Roster :=
  { valid := false, readOnly := false, clean := false, generation := 0, initSeconds := 0, geom := none, entries := [] }

def Nor.reset : Nor :=
  { cfgA := CfgImage.none, cfgB := CfgImage.none, octal := true, suspend := true, fw := [], fwNext := 1, keys := [], keysOld := [],
    roster := Roster.reset, rosterOld := Roster.reset, certs := false, fnTable := [], migSerial := 0, sanitize := false,
    fnOld := { table := [], mig := 0, sanitize := false }, fnGen := 0, vpd := [], userGran := 0 }

def Bot.reset : Bot :=
  { phase := 0, failPhase := 0, failCode := 0, path := 0, ready := false, fallback := false, cause := .powerOn,
    fwSlot := 0, cfgCopy := false, norOk := 0, releaseClk := 0, phaseClk := 0, linkClk := none, group := 0,
    groupClk := 0, missing := 0,
    foreign := 0, expected := 0, inService := 0, resetArm := none, shutdown := 0, initialised := false,
    cfg := CfgImage.none }

def Pins.reset : Pins :=
  { pwrFailN := false, pwrHighAt := none, sysRstN := true, snuffN := true, fpwrEn := 0,
    xtal := true, hldChgEn := false, hldLoadN := true, testEn := false, dmcResetN := false }

def Evl.reset : Evl :=
  { ring := [], torn := [], next := 0, erasing := none, queue := [], programming := none, failRun := 0,
    norStopped := false, mirror := [], held := [], restored := false, buckets := [], bounds := 0, wmark := 1,
    wmarkDue := none, aen := false, aenWaiting := false, windows := [] }

def Cpx.reset : Cpx := { selfTest := none, results := [], running := 0, heartbeat := 0, still := 0, stopped := false }

/-- The block in power-on reset, before its release (R483). -/
def State.reset : State :=
  { pending := [], ans := .none, draws := 0, gate := Gate.reset, tbs := Tbs.reset, stp := Stp.reset,
    qmx := Qmx.reset, ten := Ten.reset, fns := [], map := Map.reset, wbf := Wbf.reset, fch := Fch.reset,
    ldc := Ldc.reset, par := Par.reset, rcl := Rcl.reset, dmc := Dmc.reset, key := Key.reset, cip := Cip.reset,
    staged := [], norWaits := [], hif := Hif.reset, net := Net.reset, sbi := Sbi.reset, thm := Thm.reset,
    hld := Hld.reset, fuses := Fuses.reset, nor := Nor.reset, bot := Bot.reset, pins := Pins.reset,
    evl := Evl.reset, paths := [], pages := [], regs := [], cpx := Cpx.reset }

end Sys2Proof.Machine
end

