-- ==== Sys2Proof/Machine/RegTable.lean ====
section
/-! DEFINITION. The register fields of the pages (R525), one constant for each, with the block, offset, lowest
bit, width, access code and reset value that its chapter gives. The header of R526 is held in `Page`. -/

namespace Sys2Proof.Machine

open Sys2Proof

/-- Access codes (R11). -/
inductive Acc | ro | rw | rws | w1s | w1c
  deriving DecidableEq, Repr

/-- A register field. `n` words in a row carry it (an array field); `sat` marks a saturating counter (R527). -/
structure Fld where
  blk : Nat
  off : Nat
  lo : Nat
  w : Nat
  acc : Acc
  reset : Nat
  n : Nat
  sat : Bool
  deriving DecidableEq, Repr

/-- THM_ACT, offset 0x800 [31:0] (R33). -/
def rTHM_ACT : Fld := ⟨4, 0x800, 0, 32, .ro, 0x0, 8, false⟩
/-- THM_FORCE, offset 0x820 [31:0] (R33). -/
def rTHM_FORCE : Fld := ⟨4, 0x820, 0, 32, .rws, 0x0, 8, false⟩
/-- STP_OVR_TOTAL, offset 0x040 [15:0] (R41). -/
def rSTP_OVR_TOTAL : Fld := ⟨14, 0x040, 0, 16, .ro, 0x0, 1, true⟩
/-- STP_OVR_RUN, offset 0x040 [23:16] (R41). -/
def rSTP_OVR_RUN : Fld := ⟨14, 0x040, 16, 8, .ro, 0x0, 1, true⟩
/-- STP_OVR_MAXRUN, offset 0x040 [31:24] (R41). -/
def rSTP_OVR_MAXRUN : Fld := ⟨14, 0x040, 24, 8, .ro, 0x0, 1, true⟩
/-- STP_PHASE, offset 0x060 [9:0] (R65). -/
def rSTP_PHASE : Fld := ⟨14, 0x060, 0, 10, .rw, 0x0, 1, false⟩
/-- STP_DUTY, offset 0x060 [20:10] (R65). -/
def rSTP_DUTY : Fld := ⟨14, 0x060, 10, 11, .rw, 0x0, 1, false⟩
/-- STP_DGRAM_EN, offset 0x064 [0] (R65). -/
def rSTP_DGRAM_EN : Fld := ⟨14, 0x064, 0, 1, .rw, 0x0, 1, false⟩
/-- STP_IPV6, offset 0x064 [1] (R65). -/
def rSTP_IPV6 : Fld := ⟨14, 0x064, 1, 1, .rw, 0x0, 1, false⟩
/-- STP_PORT, offset 0x064 [3:2] (R65). -/
def rSTP_PORT : Fld := ⟨14, 0x064, 2, 2, .rw, 0x0, 1, false⟩
/-- STP_VLAN_ID, offset 0x064 [15:4] (R65). -/
def rSTP_VLAN_ID : Fld := ⟨14, 0x064, 4, 12, .rw, 0x0, 1, false⟩
/-- STP_VLAN_EN, offset 0x064 [16] (R65). -/
def rSTP_VLAN_EN : Fld := ⟨14, 0x064, 16, 1, .rw, 0x0, 1, false⟩
/-- STP_DST_PORT, offset 0x068 [15:0] (R65). -/
def rSTP_DST_PORT : Fld := ⟨14, 0x068, 0, 16, .rw, 0x1DC4, 1, false⟩
/-- STP_SRC_PORT, offset 0x068 [31:16] (R65). -/
def rSTP_SRC_PORT : Fld := ⟨14, 0x068, 16, 16, .rw, 0x1DC4, 1, false⟩
/-- STP_IPk, offset 0x070 [31:0] (R65). -/
def rSTP_IPk : Fld := ⟨14, 0x070, 0, 32, .rw, 0x0, 4, false⟩
/-- STP_BROKEN, offset 0x080 [15:0] (R65). -/
def rSTP_BROKEN : Fld := ⟨14, 0x080, 0, 16, .ro, 0x0, 1, false⟩
/-- STP_DGRAM_SENT, offset 0x080 [31:16] (R65). -/
def rSTP_DGRAM_SENT : Fld := ⟨14, 0x080, 16, 16, .ro, 0x0, 1, false⟩
/-- TBS_SEC_LO, offset 0x040 [31:0] (R66). -/
def rTBS_SEC_LO : Fld := ⟨2, 0x040, 0, 32, .ro, 0x0, 1, false⟩
/-- TBS_SEC_HI, offset 0x044 [15:0] (R66). -/
def rTBS_SEC_HI : Fld := ⟨2, 0x044, 0, 16, .ro, 0x0, 1, false⟩
/-- TBS_ORIGIN, offset 0x044 [18:16] (R66). -/
def rTBS_ORIGIN : Fld := ⟨2, 0x044, 16, 3, .ro, 0x0, 1, false⟩
/-- TBS_STRIDE, offset 0x048 [16:0] (R66). -/
def rTBS_STRIDE : Fld := ⟨2, 0x048, 0, 17, .ro, 0x0, 1, false⟩
/-- TBS_NS, offset 0x048 [29:17] (R66). -/
def rTBS_NS : Fld := ⟨2, 0x048, 17, 13, .ro, 0x0, 1, false⟩
/-- TBS_EN, offset 0x050 [0] (R66). -/
def rTBS_EN : Fld := ⟨2, 0x050, 0, 1, .rw, 0x0, 1, false⟩
/-- TBS_DIFF, offset 0x050 [1] (R66). -/
def rTBS_DIFF : Fld := ⟨2, 0x050, 1, 1, .rws, 0x1, 1, false⟩
/-- TBS_POL, offset 0x050 [3:2] (R66). -/
def rTBS_POL : Fld := ⟨2, 0x050, 2, 2, .rw, 0x0, 1, false⟩
/-- TBS_STEP_EN, offset 0x050 [4] (R66). -/
def rTBS_STEP_EN : Fld := ⟨2, 0x050, 4, 1, .rw, 0x1, 1, false⟩
/-- TBS_PPS_OFFSET, offset 0x054 [31:0] (R66). -/
def rTBS_PPS_OFFSET : Fld := ⟨2, 0x054, 0, 32, .rw, 0x0, 1, false⟩
/-- TBS_STATE, offset 0x058 [2:0] (R66). -/
def rTBS_STATE : Fld := ⟨2, 0x058, 0, 3, .ro, 0x0, 1, false⟩
/-- TBS_POL_INV, offset 0x058 [3] (R66). -/
def rTBS_POL_INV : Fld := ⟨2, 0x058, 3, 1, .ro, 0x0, 1, false⟩
/-- TBS_FREQ_OK, offset 0x058 [4] (R66). -/
def rTBS_FREQ_OK : Fld := ⟨2, 0x058, 4, 1, .ro, 0x0, 1, false⟩
/-- TBS_HOLD_S, offset 0x058 [31:16] (R66). -/
def rTBS_HOLD_S : Fld := ⟨2, 0x058, 16, 16, .ro, 0x0, 1, true⟩
/-- TBS_PHASE_ERR, offset 0x05C [31:0] (R66). -/
def rTBS_PHASE_ERR : Fld := ⟨2, 0x05C, 0, 32, .ro, 0x0, 1, true⟩
/-- TBS_FREQ_ERR, offset 0x060 [31:0] (R66). -/
def rTBS_FREQ_ERR : Fld := ⟨2, 0x060, 0, 32, .ro, 0x0, 1, false⟩
/-- TBS_GLITCH, offset 0x064 [15:0] (R66). -/
def rTBS_GLITCH : Fld := ⟨2, 0x064, 0, 16, .ro, 0x0, 1, true⟩
/-- TBS_STEPS, offset 0x064 [31:16] (R66). -/
def rTBS_STEPS : Fld := ⟨2, 0x064, 16, 16, .ro, 0x0, 1, true⟩
/-- TBS_HOURS, offset 0x068 [23:0] (R66). -/
def rTBS_HOURS : Fld := ⟨2, 0x068, 0, 24, .ro, 0x0, 1, false⟩
/-- TBS_HOUR_SEC, offset 0x06C [11:0] (R66). -/
def rTBS_HOUR_SEC : Fld := ⟨2, 0x06C, 0, 12, .ro, 0x0, 1, false⟩
/-- TBS_PCYCLE, offset 0x070 [23:0] (R66). -/
def rTBS_PCYCLE : Fld := ⟨2, 0x070, 0, 24, .ro, 0x0, 1, false⟩
/-- TBS_SET_LO, offset 0x078 [31:0] (R66). -/
def rTBS_SET_LO : Fld := ⟨2, 0x078, 0, 32, .rw, 0x0, 1, false⟩
/-- TBS_SET_HI, offset 0x07C [15:0] (R66). -/
def rTBS_SET_HI : Fld := ⟨2, 0x07C, 0, 16, .rw, 0x0, 1, false⟩
/-- TBS_GO, offset 0x07C [31] (R66). -/
def rTBS_GO : Fld := ⟨2, 0x07C, 31, 1, .w1s, 0x0, 1, false⟩
/-- QMX_DRAIN_STRIDES, offset 0x040 [11:0] (R104). -/
def rQMX_DRAIN_STRIDES : Fld := ⟨11, 0x040, 0, 12, .rw, 0x9C4, 1, false⟩
/-- QMX_STALL_STRIDES, offset 0x044 [23:0] (R104). -/
def rQMX_STALL_STRIDES : Fld := ⟨11, 0x044, 0, 24, .rw, 0x1E848, 1, false⟩
/-- QMX_DEPTHg, offset 0x050 [13:0] (R104). -/
def rQMX_DEPTHg : Fld := ⟨11, 0x050, 0, 14, .ro, 0x0, 4, false⟩
/-- QMX_TAGS_IN_USE, offset 0x060 [16:0] (R104). -/
def rQMX_TAGS_IN_USE : Fld := ⟨11, 0x060, 0, 17, .ro, 0x0, 1, false⟩
/-- QMX_SQDEL, offset 0x064 [15:0] (R104). -/
def rQMX_SQDEL : Fld := ⟨11, 0x064, 0, 16, .ro, 0x0, 1, true⟩
/-- QMX_BADDB, offset 0x064 [23:16] (R104). -/
def rQMX_BADDB : Fld := ⟨11, 0x064, 16, 8, .ro, 0x0, 1, true⟩
/-- QMX_FETCH_STOP, offset 0x068 [0] (R104). -/
def rQMX_FETCH_STOP : Fld := ⟨11, 0x068, 0, 1, .ro, 0x0, 1, false⟩
/-- QMX_WTHRU, offset 0x068 [1] (R104). -/
def rQMX_WTHRU : Fld := ⟨11, 0x068, 1, 1, .ro, 0x0, 1, false⟩
/-- QMX_OVL_WAIT, offset 0x06C [31:0] (R104). -/
def rQMX_OVL_WAIT : Fld := ⟨11, 0x06C, 0, 32, .ro, 0x0, 1, true⟩
/-- TEN_POOL_SLOTS, offset 0x040 [17:0] (R136). -/
def rTEN_POOL_SLOTS : Fld := ⟨12, 0x040, 0, 18, .ro, 0x0, 1, false⟩
/-- TEN_POOL_DIES, offset 0x044 [19:0] (R136). -/
def rTEN_POOL_DIES : Fld := ⟨12, 0x044, 0, 20, .ro, 0x0, 1, false⟩
/-- TEN_AVAIL_SLOTS, offset 0x048 [17:0] (R136). -/
def rTEN_AVAIL_SLOTS : Fld := ⟨12, 0x048, 0, 18, .ro, 0x0, 1, false⟩
/-- TEN_AVAIL_DIES, offset 0x04C [19:0] (R136). -/
def rTEN_AVAIL_DIES : Fld := ⟨12, 0x04C, 0, 20, .ro, 0x0, 1, false⟩
/-- TEN_PROM_SLOTS, offset 0x050 [17:0] (R136). -/
def rTEN_PROM_SLOTS : Fld := ⟨12, 0x050, 0, 18, .ro, 0x0, 1, false⟩
/-- TEN_PROM_DIES, offset 0x054 [19:0] (R136). -/
def rTEN_PROM_DIES : Fld := ⟨12, 0x054, 0, 20, .ro, 0x0, 1, false⟩
/-- TEN_BG_MAX, offset 0x058 [5:0] (R136). -/
def rTEN_BG_MAX : Fld := ⟨12, 0x058, 0, 6, .rws, 0x1E, 1, false⟩
/-- TEN_WB_AVAIL_MIB, offset 0x05C [11:0] (R136). -/
def rTEN_WB_AVAIL_MIB : Fld := ⟨12, 0x05C, 0, 12, .ro, 0x0, 1, false⟩
/-- TEN_WB_PROM_MIB, offset 0x05C [27:16] (R136). -/
def rTEN_WB_PROM_MIB : Fld := ⟨12, 0x05C, 16, 12, .ro, 0x0, 1, false⟩
/-- TEN_TAGS_FREE, offset 0x060 [15:0] (R136). -/
def rTEN_TAGS_FREE : Fld := ⟨12, 0x060, 0, 16, .ro, 0xE000, 1, false⟩
/-- TEN_QP_FREE, offset 0x060 [28:16] (R136). -/
def rTEN_QP_FREE : Fld := ⟨12, 0x060, 16, 13, .ro, 0x1000, 1, false⟩
/-- TEN_TETHERED, offset 0x064 [4:0] (R136). -/
def rTEN_TETHERED : Fld := ⟨12, 0x064, 0, 5, .ro, 0x0, 1, false⟩
/-- TEN_ACTIVE, offset 0x064 [15:8] (R136). -/
def rTEN_ACTIVE : Fld := ⟨12, 0x064, 8, 8, .ro, 0x0, 1, false⟩
/-- TEN_SCALE_SLOT, offset 0x068 [16:0] (R136). -/
def rTEN_SCALE_SLOT : Fld := ⟨12, 0x068, 0, 17, .ro, 0x10000, 1, false⟩
/-- TEN_SCALE_DIE, offset 0x06C [16:0] (R136). -/
def rTEN_SCALE_DIE : Fld := ⟨12, 0x06C, 0, 17, .ro, 0x10000, 1, false⟩
/-- TEN_FLR_COUNT, offset 0x070 [15:0] (R136). -/
def rTEN_FLR_COUNT : Fld := ⟨12, 0x070, 0, 16, .ro, 0x0, 1, true⟩
/-- TEN_MIG_SAVES, offset 0x070 [31:16] (R136). -/
def rTEN_MIG_SAVES : Fld := ⟨12, 0x070, 16, 16, .ro, 0x0, 1, true⟩
/-- TEN_MIG_SERIAL_LO, offset 0x074 [31:0] (R136). -/
def rTEN_MIG_SERIAL_LO : Fld := ⟨12, 0x074, 0, 32, .ro, 0x0, 1, false⟩
/-- TEN_MIG_SERIAL_HI, offset 0x078 [31:0] (R136). -/
def rTEN_MIG_SERIAL_HI : Fld := ⟨12, 0x078, 0, 32, .ro, 0x0, 1, false⟩
/-- MAP_BLOCKS, offset 0x040 [13:0] (R170). -/
def rMAP_BLOCKS : Fld := ⟨13, 0x040, 0, 14, .ro, 0x0, 1, false⟩
/-- MAP_WLS, offset 0x040 [26:16] (R170). -/
def rMAP_WLS : Fld := ⟨13, 0x040, 16, 11, .ro, 0x0, 1, false⟩
/-- MAP_PLANES, offset 0x044 [2:0] (R170). -/
def rMAP_PLANES : Fld := ⟨13, 0x044, 0, 3, .ro, 0x0, 1, false⟩
/-- MAP_BITS, offset 0x044 [5:3] (R170). -/
def rMAP_BITS : Fld := ⟨13, 0x044, 3, 3, .ro, 0x0, 1, false⟩
/-- MAP_PU_GRAN, offset 0x044 [12:6] (R170). -/
def rMAP_PU_GRAN : Fld := ⟨13, 0x044, 6, 7, .ro, 0x0, 1, false⟩
/-- MAP_SLOTS_DIE, offset 0x048 [31:0] (R170). -/
def rMAP_SLOTS_DIE : Fld := ⟨13, 0x048, 0, 32, .ro, 0x0, 1, false⟩
/-- MAP_FINE_TOTAL, offset 0x050 [26:0] (R170). -/
def rMAP_FINE_TOTAL : Fld := ⟨13, 0x050, 0, 27, .ro, 0x0, 1, false⟩
/-- MAP_FINE_FREE, offset 0x054 [26:0] (R170). -/
def rMAP_FINE_FREE : Fld := ⟨13, 0x054, 0, 27, .ro, 0x0, 1, false⟩
/-- MAP_LOW_PCT, offset 0x058 [4:0] (R170). -/
def rMAP_LOW_PCT : Fld := ⟨13, 0x058, 0, 5, .rw, 0x2, 1, false⟩
/-- MAP_HIGH_PCT, offset 0x058 [12:8] (R170). -/
def rMAP_HIGH_PCT : Fld := ⟨13, 0x058, 8, 5, .rw, 0x4, 1, false⟩
/-- MAP_MIN_AGE, offset 0x058 [19:16] (R170). -/
def rMAP_MIN_AGE : Fld := ⟨13, 0x058, 16, 4, .rw, 0x2, 1, false⟩
/-- MAP_THRESH, offset 0x060 [6:0] (R170). -/
def rMAP_THRESH : Fld := ⟨13, 0x060, 0, 7, .rw, 0x50, 1, false⟩
/-- MAP_CKPT_NOW, offset 0x060 [31] (R170). -/
def rMAP_CKPT_NOW : Fld := ⟨13, 0x060, 31, 1, .w1s, 0x0, 1, false⟩
/-- MAP_DELTA_FILL, offset 0x064 [6:0] (R170). -/
def rMAP_DELTA_FILL : Fld := ⟨13, 0x064, 0, 7, .ro, 0x0, 1, false⟩
/-- MAP_CKPT_BUSY, offset 0x064 [8] (R170). -/
def rMAP_CKPT_BUSY : Fld := ⟨13, 0x064, 8, 1, .ro, 0x0, 1, false⟩
/-- MAP_CKPT_NUM_LO, offset 0x068 [31:0] (R170). -/
def rMAP_CKPT_NUM_LO : Fld := ⟨13, 0x068, 0, 32, .ro, 0x0, 1, false⟩
/-- MAP_CKPT_NUM_HI, offset 0x06C [31:0] (R170). -/
def rMAP_CKPT_NUM_HI : Fld := ⟨13, 0x06C, 0, 32, .ro, 0x0, 1, false⟩
/-- MAP_STREAMS_BOUND, offset 0x070 [8:0] (R170). -/
def rMAP_STREAMS_BOUND : Fld := ⟨13, 0x070, 0, 9, .ro, 0x0, 1, false⟩
/-- MAP_STREAMS_SHARED, offset 0x070 [24:16] (R170). -/
def rMAP_STREAMS_SHARED : Fld := ⟨13, 0x070, 16, 9, .ro, 0x0, 1, false⟩
/-- MAP_ZONES_OPEN, offset 0x074 [12:0] (R170). -/
def rMAP_ZONES_OPEN : Fld := ⟨13, 0x074, 0, 13, .ro, 0x0, 1, false⟩
/-- MAP_PROMOTE, offset 0x078 [31:0] (R170). -/
def rMAP_PROMOTE : Fld := ⟨13, 0x078, 0, 32, .ro, 0x0, 1, true⟩
/-- MAP_DEMOTE, offset 0x07C [31:0] (R170). -/
def rMAP_DEMOTE : Fld := ⟨13, 0x07C, 0, 32, .ro, 0x0, 1, true⟩
/-- MAP_DEMOTE_ABORT, offset 0x080 [15:0] (R170). -/
def rMAP_DEMOTE_ABORT : Fld := ⟨13, 0x080, 0, 16, .ro, 0x0, 1, true⟩
/-- MAP_FINE_WAIT, offset 0x080 [31:16] (R170). -/
def rMAP_FINE_WAIT : Fld := ⟨13, 0x080, 16, 16, .ro, 0x0, 1, true⟩
/-- WBF_BUF_CEIL, offset 0x040 [11:0] (R199). -/
def rWBF_BUF_CEIL : Fld := ⟨15, 0x040, 0, 12, .ro, 0x0, 1, false⟩
/-- WBF_SLOTS_TOTAL, offset 0x044 [19:0] (R199). -/
def rWBF_SLOTS_TOTAL : Fld := ⟨15, 0x044, 0, 20, .ro, 0x0, 1, false⟩
/-- WBF_SLOTS_FREE, offset 0x048 [19:0] (R199). -/
def rWBF_SLOTS_FREE : Fld := ⟨15, 0x048, 0, 20, .ro, 0x0, 1, false⟩
/-- WBF_SLOTS_ACK, offset 0x04C [19:0] (R199). -/
def rWBF_SLOTS_ACK : Fld := ⟨15, 0x04C, 0, 20, .ro, 0x0, 1, false⟩
/-- WBF_SLOTS_FILLING, offset 0x050 [19:0] (R199). -/
def rWBF_SLOTS_FILLING : Fld := ⟨15, 0x050, 0, 20, .ro, 0x0, 1, false⟩
/-- WBF_SLICES, offset 0x054 [1:0] (R199). -/
def rWBF_SLICES : Fld := ⟨15, 0x054, 0, 2, .ro, 0x1, 1, false⟩
/-- WBF_TGT_STREAMS, offset 0x054 [9:2] (R199). -/
def rWBF_TGT_STREAMS : Fld := ⟨15, 0x054, 2, 8, .ro, 0xFC, 1, false⟩
/-- WBF_IDLE_STRIDES, offset 0x058 [23:0] (R199). -/
def rWBF_IDLE_STRIDES : Fld := ⟨15, 0x058, 0, 24, .rw, 0x1E848, 1, false⟩
/-- WBF_PAD_GRAN, offset 0x05C [31:0] (R199). -/
def rWBF_PAD_GRAN : Fld := ⟨15, 0x05C, 0, 32, .ro, 0x0, 1, true⟩
/-- WBF_ABSORBED, offset 0x060 [31:0] (R199). -/
def rWBF_ABSORBED : Fld := ⟨15, 0x060, 0, 32, .ro, 0x0, 1, true⟩
/-- WBF_IDLE_CLOSE, offset 0x064 [15:0] (R199). -/
def rWBF_IDLE_CLOSE : Fld := ⟨15, 0x064, 0, 16, .ro, 0x0, 1, true⟩
/-- WBF_FORCED_CLOSE, offset 0x064 [31:16] (R199). -/
def rWBF_FORCED_CLOSE : Fld := ⟨15, 0x064, 16, 16, .ro, 0x0, 1, true⟩
/-- WBF_ASM_FREE, offset 0x068 [13:0] (R199). -/
def rWBF_ASM_FREE : Fld := ⟨15, 0x068, 0, 14, .ro, 0x2000, 1, false⟩
/-- WBF_STREAM_SEL, offset 0x070 [7:0] (R199). -/
def rWBF_STREAM_SEL : Fld := ⟨15, 0x070, 0, 8, .rw, 0x0, 1, false⟩
/-- WBF_ROW_STATE, offset 0x074 [2:0] (R199). -/
def rWBF_ROW_STATE : Fld := ⟨15, 0x074, 0, 3, .ro, 0x0, 1, false⟩
/-- WBF_MEMBERS, offset 0x074 [7:3] (R199). -/
def rWBF_MEMBERS : Fld := ⟨15, 0x074, 3, 5, .ro, 0x0, 1, false⟩
/-- WBF_TARGETS, offset 0x074 [15:8] (R199). -/
def rWBF_TARGETS : Fld := ⟨15, 0x074, 8, 8, .ro, 0x0, 1, true⟩
/-- WBF_STREAM_HELD, offset 0x078 [19:0] (R199). -/
def rWBF_STREAM_HELD : Fld := ⟨15, 0x078, 0, 20, .ro, 0x0, 1, false⟩
/-- WBF_ROW_SERIAL, offset 0x07C [31:0] (R199). -/
def rWBF_ROW_SERIAL : Fld := ⟨15, 0x07C, 0, 32, .ro, 0x0, 1, false⟩
/-- FCH_RATE, offset 0x040 [5:0] (R245). -/
def rFCH_RATE : Fld := ⟨19, 0x040, 0, 6, .ro, 0x0, 1, false⟩
/-- FCH_SLOTS, offset 0x040 [10:8] (R245). -/
def rFCH_SLOTS : Fld := ⟨19, 0x040, 8, 3, .ro, 0x0, 1, false⟩
/-- FCH_IN_SERVICE, offset 0x040 [11] (R245). -/
def rFCH_IN_SERVICE : Fld := ⟨19, 0x040, 11, 1, .ro, 0x0, 1, false⟩
/-- FCH_IFACE, offset 0x040 [13:12] (R245). -/
def rFCH_IFACE : Fld := ⟨19, 0x040, 12, 2, .ro, 0x0, 1, false⟩
/-- FCH_DIES_PRESENT, offset 0x044 [31:0] (R245). -/
def rFCH_DIES_PRESENT : Fld := ⟨19, 0x044, 0, 32, .ro, 0x0, 1, false⟩
/-- FCH_DIES_SERVICE, offset 0x048 [31:0] (R245). -/
def rFCH_DIES_SERVICE : Fld := ⟨19, 0x048, 0, 32, .ro, 0x0, 1, false⟩
/-- FCH_RATE_CAP, offset 0x04C [5:0] (R245). -/
def rFCH_RATE_CAP : Fld := ⟨19, 0x04C, 0, 6, .rws, 0x28, 1, false⟩
/-- FCH_FCH_BURST, offset 0x050 [4:0] (R245). -/
def rFCH_FCH_BURST : Fld := ⟨19, 0x050, 0, 5, .rw, 0x4, 1, false⟩
/-- FCH_AGE_LIMIT, offset 0x050 [15:8] (R245). -/
def rFCH_AGE_LIMIT : Fld := ⟨19, 0x050, 8, 8, .rw, 0x40, 1, false⟩
/-- FCH_PROG_INTERVAL, offset 0x054 [7:0] (R245). -/
def rFCH_PROG_INTERVAL : Fld := ⟨19, 0x054, 0, 8, .rw, 0xC, 1, false⟩
/-- FCH_ERASE_INTERVAL, offset 0x054 [15:8] (R245). -/
def rFCH_ERASE_INTERVAL : Fld := ⟨19, 0x054, 8, 8, .rw, 0x20, 1, false⟩
/-- FCH_PROG_CAP, offset 0x054 [23:16] (R245). -/
def rFCH_PROG_CAP : Fld := ⟨19, 0x054, 16, 8, .rw, 0x20, 1, false⟩
/-- FCH_ERASE_CAP, offset 0x054 [31:24] (R245). -/
def rFCH_ERASE_CAP : Fld := ⟨19, 0x054, 24, 8, .rw, 0x40, 1, false⟩
/-- FCH_TAIL, offset 0x058 [7:0] (R245). -/
def rFCH_TAIL : Fld := ⟨19, 0x058, 0, 8, .rw, 0x8, 1, false⟩
/-- FCH_MAX_READS, offset 0x058 [11:8] (R245). -/
def rFCH_MAX_READS : Fld := ⟨19, 0x058, 8, 4, .rw, 0x1, 1, false⟩
/-- FCH_READ_REQ_MAX, offset 0x058 [19:16] (R245). -/
def rFCH_READ_REQ_MAX : Fld := ⟨19, 0x058, 16, 4, .rw, 0x8, 1, false⟩
/-- FCH_PERIOD_MS, offset 0x05C [15:0] (R245). -/
def rFCH_PERIOD_MS : Fld := ⟨19, 0x05C, 0, 16, .rw, 0x3E8, 1, false⟩
/-- FCH_DTEMP, offset 0x05C [23:16] (R245). -/
def rFCH_DTEMP : Fld := ⟨19, 0x05C, 16, 8, .rw, 0xA, 1, false⟩
/-- FCH_PROMOTED, offset 0x060 [15:0] (R245). -/
def rFCH_PROMOTED : Fld := ⟨19, 0x060, 0, 16, .ro, 0x0, 1, true⟩
/-- FCH_PREEMPT, offset 0x060 [31:16] (R245). -/
def rFCH_PREEMPT : Fld := ⟨19, 0x060, 16, 16, .ro, 0x0, 1, true⟩
/-- FCH_SLOTS_DATA, offset 0x064 [31:0] (R245). -/
def rFCH_SLOTS_DATA : Fld := ⟨19, 0x064, 0, 32, .ro, 0x0, 1, true⟩
/-- FCH_SLOTS_CMD, offset 0x068 [31:0] (R245). -/
def rFCH_SLOTS_CMD : Fld := ⟨19, 0x068, 0, 32, .ro, 0x0, 1, true⟩
/-- FCH_SLOTS_IDLE, offset 0x06C [31:0] (R245). -/
def rFCH_SLOTS_IDLE : Fld := ⟨19, 0x06C, 0, 32, .ro, 0x0, 1, true⟩
/-- FCH_REINS, offset 0x070 [15:0] (R245). -/
def rFCH_REINS : Fld := ⟨19, 0x070, 0, 16, .ro, 0x0, 1, true⟩
/-- FCH_REFUSED, offset 0x070 [31:16] (R245). -/
def rFCH_REFUSED : Fld := ⟨19, 0x070, 16, 16, .ro, 0x0, 1, true⟩
/-- FCH_ON_BUSY, offset 0x074 [15:0] (R245). -/
def rFCH_ON_BUSY : Fld := ⟨19, 0x074, 0, 16, .ro, 0x0, 1, true⟩
/-- FCH_BUSY_LIMIT, offset 0x074 [31:16] (R245). -/
def rFCH_BUSY_LIMIT : Fld := ⟨19, 0x074, 16, 16, .ro, 0x0, 1, true⟩
/-- FCH_PROG_FAIL, offset 0x078 [7:0] (R245). -/
def rFCH_PROG_FAIL : Fld := ⟨19, 0x078, 0, 8, .ro, 0x0, 1, true⟩
/-- FCH_ERASE_FAIL, offset 0x078 [15:8] (R245). -/
def rFCH_ERASE_FAIL : Fld := ⟨19, 0x078, 8, 8, .ro, 0x0, 1, true⟩
/-- FCH_TIMEOUT, offset 0x078 [23:16] (R245). -/
def rFCH_TIMEOUT : Fld := ⟨19, 0x078, 16, 8, .ro, 0x0, 1, true⟩
/-- FCH_UNDER_ERASE, offset 0x078 [31:24] (R245). -/
def rFCH_UNDER_ERASE : Fld := ⟨19, 0x078, 24, 8, .ro, 0x0, 1, true⟩
/-- FCH_PIN_GO, offset 0x080 [0] (R245). -/
def rFCH_PIN_GO : Fld := ⟨19, 0x080, 0, 1, .w1s, 0x0, 1, false⟩
/-- FCH_PIN_SHORT, offset 0x084 [21:0] (R245). -/
def rFCH_PIN_SHORT : Fld := ⟨19, 0x084, 0, 22, .ro, 0x0, 1, false⟩
/-- FCH_PIN_OPEN, offset 0x088 [21:0] (R245). -/
def rFCH_PIN_OPEN : Fld := ⟨19, 0x088, 0, 22, .ro, 0x0, 1, false⟩
/-- FCH_RING_BASE, offset 0x090 [23:0] (R245). -/
def rFCH_RING_BASE : Fld := ⟨19, 0x090, 0, 24, .ro, 0x0, 1, false⟩
/-- FCH_CRING_BASE, offset 0x094 [23:0] (R245). -/
def rFCH_CRING_BASE : Fld := ⟨19, 0x094, 0, 24, .ro, 0x0, 1, false⟩
/-- FCH_CRING_HEAD, offset 0x098 [9:0] (R245). -/
def rFCH_CRING_HEAD : Fld := ⟨19, 0x098, 0, 10, .rw, 0x0, 1, false⟩
/-- FCH_CRING_TAIL, offset 0x098 [25:16] (R245). -/
def rFCH_CRING_TAIL : Fld := ⟨19, 0x098, 16, 10, .ro, 0x0, 1, false⟩
/-- FCH_TICK, offset 0x09C [31:0] (R245). -/
def rFCH_TICK : Fld := ⟨19, 0x09C, 0, 32, .ro, 0x0, 1, false⟩
/-- FCH_DIE_SEL, offset 0x0A0 [4:0] (R245). -/
def rFCH_DIE_SEL : Fld := ⟨19, 0x0A0, 0, 5, .rw, 0x0, 1, false⟩
/-- FCH_OP, offset 0x0A4 [3:0] (R245). -/
def rFCH_OP : Fld := ⟨19, 0x0A4, 0, 4, .ro, 0x0, 1, false⟩
/-- FCH_SUSPENDED, offset 0x0A4 [4] (R245). -/
def rFCH_SUSPENDED : Fld := ⟨19, 0x0A4, 4, 1, .ro, 0x0, 1, false⟩
/-- FCH_REINABLE, offset 0x0A4 [5] (R245). -/
def rFCH_REINABLE : Fld := ⟨19, 0x0A4, 5, 1, .ro, 0x0, 1, false⟩
/-- FCH_OUT, offset 0x0A4 [6] (R245). -/
def rFCH_OUT : Fld := ⟨19, 0x0A4, 6, 1, .ro, 0x0, 1, false⟩
/-- FCH_ARMED, offset 0x0A4 [7] (R245). -/
def rFCH_ARMED : Fld := ⟨19, 0x0A4, 7, 1, .ro, 0x0, 1, false⟩
/-- FCH_REIN_USED, offset 0x0A4 [14:8] (R245). -/
def rFCH_REIN_USED : Fld := ⟨19, 0x0A4, 8, 7, .ro, 0x0, 1, false⟩
/-- FCH_RUN, offset 0x0A4 [27:16] (R245). -/
def rFCH_RUN : Fld := ⟨19, 0x0A4, 16, 12, .ro, 0x0, 1, true⟩
/-- FCH_RING_USED, offset 0x0A8 [6:0] (R245). -/
def rFCH_RING_USED : Fld := ⟨19, 0x0A8, 0, 7, .ro, 0x0, 1, false⟩
/-- FCH_TO_RUN, offset 0x0A8 [15:8] (R245). -/
def rFCH_TO_RUN : Fld := ⟨19, 0x0A8, 8, 8, .ro, 0x0, 1, false⟩
/-- FCH_INTENT_ACT, offset 0x0B0 [13:0] (R245). -/
def rFCH_INTENT_ACT : Fld := ⟨19, 0x0B0, 0, 14, .ro, 0x0, 1, false⟩
/-- FCH_INTENT_STBY, offset 0x0B0 [29:16] (R245). -/
def rFCH_INTENT_STBY : Fld := ⟨19, 0x0B0, 16, 14, .ro, 0x0, 1, false⟩
/-- FCH_INTENT_FREE, offset 0x0B4 [15:0] (R245). -/
def rFCH_INTENT_FREE : Fld := ⟨19, 0x0B4, 0, 16, .ro, 0x0, 1, false⟩
/-- FCH_REERASE, offset 0x0B4 [31:16] (R245). -/
def rFCH_REERASE : Fld := ⟨19, 0x0B4, 16, 16, .ro, 0x0, 1, false⟩
/-- STP_READ_WAIT, offset 0x0A0 [4:0] (R271). -/
def rSTP_READ_WAIT : Fld := ⟨14, 0x0A0, 0, 5, .rw, 0x12, 1, false⟩
/-- STP_TURN_STRIDES, offset 0x0A0 [13:8] (R271). -/
def rSTP_TURN_STRIDES : Fld := ⟨14, 0x0A0, 8, 6, .rw, 0x18, 1, false⟩
/-- STP_RUN_GROUPS, offset 0x0A0 [18:16] (R271). -/
def rSTP_RUN_GROUPS : Fld := ⟨14, 0x0A0, 16, 3, .rw, 0x2, 1, false⟩
/-- STP_REBUILD_PCT, offset 0x0A4 [5:0] (R271). -/
def rSTP_REBUILD_PCT : Fld := ⟨14, 0x0A4, 0, 6, .rw, 0xA, 1, false⟩
/-- STP_GROOM_BASE, offset 0x0A4 [11:8] (R271). -/
def rSTP_GROOM_BASE : Fld := ⟨14, 0x0A4, 8, 4, .rw, 0x1, 1, false⟩
/-- STP_RCL_NOW, offset 0x0A8 [5:0] (R271). -/
def rSTP_RCL_NOW : Fld := ⟨14, 0x0A8, 0, 6, .ro, 0x0, 1, false⟩
/-- STP_GROOM_NOW, offset 0x0A8 [13:8] (R271). -/
def rSTP_GROOM_NOW : Fld := ⟨14, 0x0A8, 8, 6, .ro, 0x0, 1, false⟩
/-- STP_REBUILD_NOW, offset 0x0A8 [21:16] (R271). -/
def rSTP_REBUILD_NOW : Fld := ⟨14, 0x0A8, 16, 6, .ro, 0x0, 1, false⟩
/-- STP_THROTTLE, offset 0x0A8 [26:24] (R271). -/
def rSTP_THROTTLE : Fld := ⟨14, 0x0A8, 24, 3, .ro, 0x0, 1, false⟩
/-- STP_DEGRADED, offset 0x0A8 [27] (R271). -/
def rSTP_DEGRADED : Fld := ⟨14, 0x0A8, 27, 1, .ro, 0x0, 1, false⟩
/-- STP_OPEN_CLASS, offset 0x0AC [5:0] (R271). -/
def rSTP_OPEN_CLASS : Fld := ⟨14, 0x0AC, 0, 6, .ro, 0x0, 1, false⟩
/-- STP_CLASSES, offset 0x0AC [13:8] (R271). -/
def rSTP_CLASSES : Fld := ⟨14, 0x0AC, 8, 6, .ro, 0x0, 1, false⟩
/-- STP_STRETCH, offset 0x0AC [31:16] (R271). -/
def rSTP_STRETCH : Fld := ⟨14, 0x0AC, 16, 16, .ro, 0x0, 1, true⟩
/-- STP_RA_COUNT, offset 0x0B0 [31:0] (R271). -/
def rSTP_RA_COUNT : Fld := ⟨14, 0x0B0, 0, 32, .ro, 0x0, 1, true⟩
/-- STP_DEGRADED_READS, offset 0x0B4 [31:0] (R271). -/
def rSTP_DEGRADED_READS : Fld := ⟨14, 0x0B4, 0, 32, .ro, 0x0, 1, true⟩
/-- STP_RA_SHORT, offset 0x0B8 [15:0] (R271). -/
def rSTP_RA_SHORT : Fld := ⟨14, 0x0B8, 0, 16, .ro, 0x0, 1, true⟩
/-- STP_TURN_WAIT, offset 0x0B8 [31:16] (R271). -/
def rSTP_TURN_WAIT : Fld := ⟨14, 0x0B8, 16, 16, .ro, 0x0, 1, true⟩
/-- STP_RA_SLOT_CREDIT, offset 0x0BC [16:0] (R271). -/
def rSTP_RA_SLOT_CREDIT : Fld := ⟨14, 0x0BC, 0, 17, .ro, 0x0, 1, false⟩
/-- STP_RA_DIE_CREDIT, offset 0x0C0 [19:0] (R271). -/
def rSTP_RA_DIE_CREDIT : Fld := ⟨14, 0x0C0, 0, 20, .ro, 0x0, 1, false⟩
/-- STP_D_GALLOP, offset 0x0C4 [7:0] (R271). -/
def rSTP_D_GALLOP : Fld := ⟨14, 0x0C4, 0, 8, .ro, 0x4, 1, false⟩
/-- STP_D_CANTER, offset 0x0C4 [15:8] (R271). -/
def rSTP_D_CANTER : Fld := ⟨14, 0x0C4, 8, 8, .ro, 0x39, 1, false⟩
/-- STP_D_TROT, offset 0x0C4 [25:16] (R271). -/
def rSTP_D_TROT : Fld := ⟨14, 0x0C4, 16, 10, .ro, 0x1B0, 1, false⟩
/-- STP_DD_GALLOP, offset 0x0C8 [7:0] (R271). -/
def rSTP_DD_GALLOP : Fld := ⟨14, 0x0C8, 0, 8, .ro, 0x1B, 1, false⟩
/-- STP_DD_CANTER, offset 0x0C8 [15:8] (R271). -/
def rSTP_DD_CANTER : Fld := ⟨14, 0x0C8, 8, 8, .ro, 0x9B, 1, false⟩
/-- STP_DD_TROT, offset 0x0C8 [25:16] (R271). -/
def rSTP_DD_TROT : Fld := ⟨14, 0x0C8, 16, 10, .ro, 0x389, 1, false⟩
/-- STP_ENG_AGE_LIMIT, offset 0x0D0 [7:0] (R271). -/
def rSTP_ENG_AGE_LIMIT : Fld := ⟨14, 0x0D0, 0, 8, .rw, 0x40, 1, false⟩
/-- STP_ENG_PREEMPT, offset 0x0D4 [15:0] (R271). -/
def rSTP_ENG_PREEMPT : Fld := ⟨14, 0x0D4, 0, 16, .ro, 0x0, 1, true⟩
/-- STP_ENG_PROMOTED, offset 0x0D4 [31:16] (R271). -/
def rSTP_ENG_PROMOTED : Fld := ⟨14, 0x0D4, 16, 16, .ro, 0x0, 1, true⟩
/-- STP_ENG_STALLS, offset 0x0D8 [8:0] (R271). -/
def rSTP_ENG_STALLS : Fld := ⟨14, 0x0D8, 0, 9, .ro, 0x0, 1, false⟩
/-- LDC_HARD_AVAIL, offset 0x040 [5:0] (R298). -/
def rLDC_HARD_AVAIL : Fld := ⟨18, 0x040, 0, 6, .ro, 0x30, 1, false⟩
/-- LDC_SOFT_AVAIL, offset 0x040 [11:8] (R298). -/
def rLDC_SOFT_AVAIL : Fld := ⟨18, 0x040, 8, 4, .ro, 0x8, 1, false⟩
/-- LDC_HARD_ITER, offset 0x044 [5:0] (R298). -/
def rLDC_HARD_ITER : Fld := ⟨18, 0x044, 0, 6, .rw, 0x14, 1, false⟩
/-- LDC_SOFT_ITER, offset 0x044 [13:8] (R298). -/
def rLDC_SOFT_ITER : Fld := ⟨18, 0x044, 8, 6, .rw, 0x1E, 1, false⟩
/-- LDC_TRACK_MIN, offset 0x044 [23:16] (R298). -/
def rLDC_TRACK_MIN : Fld := ⟨18, 0x044, 16, 8, .rw, 0x20, 1, false⟩
/-- LDC_TRACK_WINDOW, offset 0x048 [23:0] (R298). -/
def rLDC_TRACK_WINDOW : Fld := ⟨18, 0x048, 0, 24, .rw, 0x4000, 1, false⟩
/-- LDC_DECODED, offset 0x050 [31:0] (R298). -/
def rLDC_DECODED : Fld := ⟨18, 0x050, 0, 32, .ro, 0x0, 1, true⟩
/-- LDC_HARD_FAIL, offset 0x054 [31:0] (R298). -/
def rLDC_HARD_FAIL : Fld := ⟨18, 0x054, 0, 32, .ro, 0x0, 1, true⟩
/-- LDC_STEP2_OK, offset 0x058 [15:0] (R298). -/
def rLDC_STEP2_OK : Fld := ⟨18, 0x058, 0, 16, .ro, 0x0, 1, true⟩
/-- LDC_STEP3_OK, offset 0x058 [31:16] (R298). -/
def rLDC_STEP3_OK : Fld := ⟨18, 0x058, 16, 16, .ro, 0x0, 1, true⟩
/-- LDC_STEP4_OK, offset 0x05C [15:0] (R298). -/
def rLDC_STEP4_OK : Fld := ⟨18, 0x05C, 0, 16, .ro, 0x0, 1, true⟩
/-- LDC_STEP5_OK, offset 0x05C [31:16] (R298). -/
def rLDC_STEP5_OK : Fld := ⟨18, 0x05C, 16, 16, .ro, 0x0, 1, true⟩
/-- LDC_UNRECOVERED, offset 0x060 [15:0] (R298). -/
def rLDC_UNRECOVERED : Fld := ⟨18, 0x060, 0, 16, .ro, 0x0, 1, true⟩
/-- LDC_MISDIRECT, offset 0x060 [31:16] (R298). -/
def rLDC_MISDIRECT : Fld := ⟨18, 0x060, 16, 16, .ro, 0x0, 1, true⟩
/-- LDC_CRC_ENC, offset 0x064 [15:0] (R298). -/
def rLDC_CRC_ENC : Fld := ⟨18, 0x064, 0, 16, .ro, 0x0, 1, true⟩
/-- LDC_CRC_DEC, offset 0x064 [31:16] (R298). -/
def rLDC_CRC_DEC : Fld := ⟨18, 0x064, 16, 16, .ro, 0x0, 1, true⟩
/-- LDC_BITS_LO, offset 0x068 [31:0] (R298). -/
def rLDC_BITS_LO : Fld := ⟨18, 0x068, 0, 32, .ro, 0x0, 1, false⟩
/-- LDC_BITS_HI, offset 0x06C [31:0] (R298). -/
def rLDC_BITS_HI : Fld := ⟨18, 0x06C, 0, 32, .ro, 0x0, 1, false⟩
/-- LDC_PEAK, offset 0x070 [15:0] (R298). -/
def rLDC_PEAK : Fld := ⟨18, 0x070, 0, 16, .ro, 0x0, 1, false⟩
/-- LDC_POISON_WAIT, offset 0x070 [31:16] (R298). -/
def rLDC_POISON_WAIT : Fld := ⟨18, 0x070, 16, 16, .ro, 0x0, 1, true⟩
/-- LDC_INJ_DIE, offset 0x080 [9:0] (R298). -/
def rLDC_INJ_DIE : Fld := ⟨18, 0x080, 0, 10, .rws, 0x0, 1, false⟩
/-- LDC_INJ_ARM, offset 0x080 [10] (R298). -/
def rLDC_INJ_ARM : Fld := ⟨18, 0x080, 10, 1, .w1s, 0x0, 1, false⟩
/-- LDC_INJ_BITS, offset 0x080 [23:16] (R298). -/
def rLDC_INJ_BITS : Fld := ⟨18, 0x080, 16, 8, .rws, 0x0, 1, false⟩
/-- PAR_DECLUSTERED, offset 0x040 [0] (R331). -/
def rPAR_DECLUSTERED : Fld := ⟨16, 0x040, 0, 1, .ro, 0x0, 1, false⟩
/-- PAR_K, offset 0x040 [6:1] (R331). -/
def rPAR_K : Fld := ⟨16, 0x040, 1, 6, .ro, 0x0, 1, false⟩
/-- PAR_F, offset 0x040 [8:7] (R331). -/
def rPAR_F : Fld := ⟨16, 0x040, 7, 2, .ro, 0x0, 1, false⟩
/-- PAR_GEN, offset 0x040 [23:16] (R331). -/
def rPAR_GEN : Fld := ⟨16, 0x040, 16, 8, .ro, 0x0, 1, false⟩
/-- PAR_SPANS, offset 0x044 [19:0] (R331). -/
def rPAR_SPANS : Fld := ⟨16, 0x044, 0, 20, .ro, 0x0, 1, false⟩
/-- PAR_SPARE_PCT, offset 0x048 [3:0] (R331). -/
def rPAR_SPARE_PCT : Fld := ⟨16, 0x048, 0, 4, .rws, 0x2, 1, false⟩
/-- PAR_SPARE_DIE, offset 0x048 [27:16] (R331). -/
def rPAR_SPARE_DIE : Fld := ⟨16, 0x048, 16, 12, .ro, 0x0, 1, false⟩
/-- PAR_GROOM_DAYS, offset 0x050 [6:0] (R331). -/
def rPAR_GROOM_DAYS : Fld := ⟨16, 0x050, 0, 7, .rw, 0xE, 1, false⟩
/-- PAR_REFRESH_BITS, offset 0x050 [15:8] (R331). -/
def rPAR_REFRESH_BITS : Fld := ⟨16, 0x050, 8, 8, .rw, 0x60, 1, false⟩
/-- PAR_RB_RECLAIM_PCT, offset 0x050 [22:16] (R331). -/
def rPAR_RB_RECLAIM_PCT : Fld := ⟨16, 0x050, 16, 7, .rw, 0x19, 1, false⟩
/-- PAR_JR_FLUSH, offset 0x054 [10:0] (R331). -/
def rPAR_JR_FLUSH : Fld := ⟨16, 0x054, 0, 11, .rw, 0x7D, 1, false⟩
/-- PAR_JDIEm, offset 0x058 [9:0] (R331). -/
def rPAR_JDIEm : Fld := ⟨16, 0x058, 0, 10, .ro, 0x0, 3, false⟩
/-- PAR_IN_SERVICE, offset 0x058 [10] (R331). -/
def rPAR_IN_SERVICE : Fld := ⟨16, 0x058, 10, 1, .ro, 0x0, 3, false⟩
/-- PAR_REHOMING, offset 0x058 [11] (R331). -/
def rPAR_REHOMING : Fld := ⟨16, 0x058, 11, 1, .ro, 0x0, 3, false⟩
/-- PAR_RB_STATE, offset 0x064 [1:0] (R331). -/
def rPAR_RB_STATE : Fld := ⟨16, 0x064, 0, 2, .ro, 0x0, 1, false⟩
/-- PAR_LOST_DIES, offset 0x064 [17:8] (R331). -/
def rPAR_LOST_DIES : Fld := ⟨16, 0x064, 8, 10, .ro, 0x0, 1, false⟩
/-- PAR_RAW_EN, offset 0x068 [0] (R331). -/
def rPAR_RAW_EN : Fld := ⟨16, 0x068, 0, 1, .rws, 0x1, 1, false⟩
/-- PAR_ROWS_TWO, offset 0x06C [31:0] (R331). -/
def rPAR_ROWS_TWO : Fld := ⟨16, 0x06C, 0, 32, .ro, 0x0, 1, false⟩
/-- PAR_ROWS_ONE, offset 0x070 [31:0] (R331). -/
def rPAR_ROWS_ONE : Fld := ⟨16, 0x070, 0, 32, .ro, 0x0, 1, false⟩
/-- PAR_ROWS_DONE, offset 0x074 [31:0] (R331). -/
def rPAR_ROWS_DONE : Fld := ⟨16, 0x074, 0, 32, .ro, 0x0, 1, false⟩
/-- PAR_PROXIES, offset 0x078 [31:0] (R331). -/
def rPAR_PROXIES : Fld := ⟨16, 0x078, 0, 32, .ro, 0x0, 1, false⟩
/-- PAR_THIRD_LOSS, offset 0x07C [15:0] (R331). -/
def rPAR_THIRD_LOSS : Fld := ⟨16, 0x07C, 0, 16, .ro, 0x0, 1, true⟩
/-- PAR_REHOMES, offset 0x07C [31:16] (R331). -/
def rPAR_REHOMES : Fld := ⟨16, 0x07C, 16, 16, .ro, 0x0, 1, true⟩
/-- PAR_GROOM_ROWS, offset 0x080 [31:0] (R331). -/
def rPAR_GROOM_ROWS : Fld := ⟨16, 0x080, 0, 32, .ro, 0x0, 1, true⟩
/-- PAR_MISMATCH, offset 0x084 [15:0] (R331). -/
def rPAR_MISMATCH : Fld := ⟨16, 0x084, 0, 16, .ro, 0x0, 1, true⟩
/-- PAR_FIXED, offset 0x084 [31:16] (R331). -/
def rPAR_FIXED : Fld := ⟨16, 0x084, 16, 16, .ro, 0x0, 1, true⟩
/-- PAR_UNRESOLVED, offset 0x088 [15:0] (R331). -/
def rPAR_UNRESOLVED : Fld := ⟨16, 0x088, 0, 16, .ro, 0x0, 1, true⟩
/-- PAR_RELOCATED, offset 0x088 [31:16] (R331). -/
def rPAR_RELOCATED : Fld := ⟨16, 0x088, 16, 16, .ro, 0x0, 1, true⟩
/-- PAR_GROOM_AGE_H, offset 0x08C [15:0] (R331). -/
def rPAR_GROOM_AGE_H : Fld := ⟨16, 0x08C, 0, 16, .ro, 0x0, 1, true⟩
/-- PAR_JSEQ_LO, offset 0x090 [31:0] (R331). -/
def rPAR_JSEQ_LO : Fld := ⟨16, 0x090, 0, 32, .ro, 0x0, 1, false⟩
/-- PAR_JSEQ_HI, offset 0x094 [15:0] (R331). -/
def rPAR_JSEQ_HI : Fld := ⟨16, 0x094, 0, 16, .ro, 0x0, 1, false⟩
/-- RCL_LOW_BP, offset 0x040 [9:0] (R357). -/
def rRCL_LOW_BP : Fld := ⟨17, 0x040, 0, 10, .rw, 0x96, 1, false⟩
/-- RCL_URGENT_BP, offset 0x040 [19:10] (R357). -/
def rRCL_URGENT_BP : Fld := ⟨17, 0x040, 10, 10, .rw, 0x4B, 1, false⟩
/-- RCL_FLOOR_BP, offset 0x040 [29:20] (R357). -/
def rRCL_FLOOR_BP : Fld := ⟨17, 0x040, 20, 10, .rw, 0x19, 1, false⟩
/-- RCL_OP_PCT, offset 0x044 [3:0] (R357). -/
def rRCL_OP_PCT : Fld := ⟨17, 0x044, 0, 4, .rws, 0x4, 1, false⟩
/-- RCL_AGE_SPLIT_H, offset 0x044 [31:16] (R357). -/
def rRCL_AGE_SPLIT_H : Fld := ⟨17, 0x044, 16, 16, .rw, 0xA8, 1, false⟩
/-- RCL_WL_SPREAD, offset 0x048 [15:0] (R357). -/
def rRCL_WL_SPREAD : Fld := ⟨17, 0x048, 0, 16, .rw, 0x64, 1, false⟩
/-- RCL_RATED_PE, offset 0x048 [31:16] (R357). -/
def rRCL_RATED_PE : Fld := ⟨17, 0x048, 16, 16, .rws, 0x0, 1, false⟩
/-- RCL_SPANS_LIVE, offset 0x04C [19:0] (R357). -/
def rRCL_SPANS_LIVE : Fld := ⟨17, 0x04C, 0, 20, .ro, 0x0, 1, false⟩
/-- RCL_PADDOCK, offset 0x050 [19:0] (R357). -/
def rRCL_PADDOCK : Fld := ⟨17, 0x050, 0, 20, .ro, 0x0, 1, false⟩
/-- RCL_RELEASED, offset 0x054 [19:0] (R357). -/
def rRCL_RELEASED : Fld := ⟨17, 0x054, 0, 20, .ro, 0x0, 1, false⟩
/-- RCL_RETIRED, offset 0x058 [19:0] (R357). -/
def rRCL_RETIRED : Fld := ⟨17, 0x058, 0, 20, .ro, 0x0, 1, false⟩
/-- RCL_LOW_SPANS, offset 0x05C [15:0] (R357). -/
def rRCL_LOW_SPANS : Fld := ⟨17, 0x05C, 0, 16, .ro, 0x0, 1, false⟩
/-- RCL_URGENT_SPANS, offset 0x060 [15:0] (R357). -/
def rRCL_URGENT_SPANS : Fld := ⟨17, 0x060, 0, 16, .ro, 0x0, 1, false⟩
/-- RCL_FLOOR_SPANS, offset 0x060 [31:16] (R357). -/
def rRCL_FLOOR_SPANS : Fld := ⟨17, 0x060, 16, 16, .ro, 0x0, 1, false⟩
/-- RCL_DELTA, offset 0x064 [9:0] (R357). -/
def rRCL_DELTA : Fld := ⟨17, 0x064, 0, 10, .ro, 0x0, 1, false⟩
/-- RCL_THROTTLING, offset 0x064 [10] (R357). -/
def rRCL_THROTTLING : Fld := ⟨17, 0x064, 10, 1, .ro, 0x0, 1, false⟩
/-- RCL_FLOOR_HOLD, offset 0x064 [11] (R357). -/
def rRCL_FLOOR_HOLD : Fld := ⟨17, 0x064, 11, 1, .ro, 0x0, 1, false⟩
/-- RCL_READ_ONLY, offset 0x064 [12] (R357). -/
def rRCL_READ_ONLY : Fld := ⟨17, 0x064, 12, 1, .ro, 0x0, 1, false⟩
/-- RCL_WL_ACTIVE, offset 0x064 [13] (R357). -/
def rRCL_WL_ACTIVE : Fld := ⟨17, 0x064, 13, 1, .ro, 0x0, 1, false⟩
/-- RCL_WRITE_CREDIT, offset 0x068 [31:0] (R357). -/
def rRCL_WRITE_CREDIT : Fld := ⟨17, 0x068, 0, 32, .ro, 0x0, 1, false⟩
/-- RCL_AVG_EC, offset 0x06C [15:0] (R357). -/
def rRCL_AVG_EC : Fld := ⟨17, 0x06C, 0, 16, .ro, 0x0, 1, false⟩
/-- RCL_MAX_EC, offset 0x06C [31:16] (R357). -/
def rRCL_MAX_EC : Fld := ⟨17, 0x06C, 16, 16, .ro, 0x0, 1, false⟩
/-- RCL_MIN_EC, offset 0x070 [15:0] (R357). -/
def rRCL_MIN_EC : Fld := ⟨17, 0x070, 0, 16, .ro, 0x0, 1, false⟩
/-- RCL_SPARE_TOTAL, offset 0x074 [19:0] (R357). -/
def rRCL_SPARE_TOTAL : Fld := ⟨17, 0x074, 0, 20, .ro, 0x0, 1, false⟩
/-- RCL_SPARE_USED, offset 0x078 [19:0] (R357). -/
def rRCL_SPARE_USED : Fld := ⟨17, 0x078, 0, 20, .ro, 0x0, 1, false⟩
/-- RCL_PCT_USED, offset 0x07C [7:0] (R357). -/
def rRCL_PCT_USED : Fld := ⟨17, 0x07C, 0, 8, .ro, 0x0, 1, false⟩
/-- RCL_AVAIL_SPARE, offset 0x07C [15:8] (R357). -/
def rRCL_AVAIL_SPARE : Fld := ⟨17, 0x07C, 8, 8, .ro, 0x0, 1, false⟩
/-- RCL_VICTIMS, offset 0x080 [31:0] (R357). -/
def rRCL_VICTIMS : Fld := ⟨17, 0x080, 0, 32, .ro, 0x0, 1, true⟩
/-- RCL_WL_VICTIMS, offset 0x084 [15:0] (R357). -/
def rRCL_WL_VICTIMS : Fld := ⟨17, 0x084, 0, 16, .ro, 0x0, 1, true⟩
/-- RCL_RETIRE_BLOCKS, offset 0x084 [31:16] (R357). -/
def rRCL_RETIRE_BLOCKS : Fld := ⟨17, 0x084, 16, 16, .ro, 0x0, 1, true⟩
/-- RCL_TARGET_FAIL, offset 0x088 [15:0] (R357). -/
def rRCL_TARGET_FAIL : Fld := ⟨17, 0x088, 0, 16, .ro, 0x0, 1, true⟩
/-- RCL_COPY_LO, offset 0x090 [31:0] (R357). -/
def rRCL_COPY_LO : Fld := ⟨17, 0x090, 0, 32, .ro, 0x0, 1, false⟩
/-- RCL_COPY_HI, offset 0x094 [31:0] (R357). -/
def rRCL_COPY_HI : Fld := ⟨17, 0x094, 0, 32, .ro, 0x0, 1, false⟩
/-- RCL_HOST_LO, offset 0x098 [31:0] (R357). -/
def rRCL_HOST_LO : Fld := ⟨17, 0x098, 0, 32, .ro, 0x0, 1, false⟩
/-- RCL_HOST_HI, offset 0x09C [31:0] (R357). -/
def rRCL_HOST_HI : Fld := ⟨17, 0x09C, 0, 32, .ro, 0x0, 1, false⟩
/-- DMC_SPEED, offset 0x040 [6:0] (R383). -/
def rDMC_SPEED : Fld := ⟨20, 0x040, 0, 7, .ro, 0x0, 1, false⟩
/-- DMC_RANKS, offset 0x040 [8:7] (R383). -/
def rDMC_RANKS : Fld := ⟨20, 0x040, 7, 2, .ro, 0x0, 1, false⟩
/-- DMC_X16, offset 0x040 [9] (R383). -/
def rDMC_X16 : Fld := ⟨20, 0x040, 9, 1, .ro, 0x0, 1, false⟩
/-- DMC_D32G, offset 0x040 [10] (R383). -/
def rDMC_D32G : Fld := ⟨20, 0x040, 10, 1, .ro, 0x0, 1, false⟩
/-- DMC_SIZE_GIB, offset 0x040 [22:16] (R383). -/
def rDMC_SIZE_GIB : Fld := ⟨20, 0x040, 16, 7, .ro, 0x0, 1, false⟩
/-- DMC_WCRC, offset 0x044 [0] (R383). -/
def rDMC_WCRC : Fld := ⟨20, 0x044, 0, 1, .ro, 0x0, 1, false⟩
/-- DMC_CAPAR, offset 0x044 [1] (R383). -/
def rDMC_CAPAR : Fld := ⟨20, 0x044, 1, 1, .ro, 0x0, 1, false⟩
/-- DMC_HPPR, offset 0x044 [2] (R383). -/
def rDMC_HPPR : Fld := ⟨20, 0x044, 2, 1, .ro, 0x0, 1, false⟩
/-- DMC_REF_2X, offset 0x044 [3] (R383). -/
def rDMC_REF_2X : Fld := ⟨20, 0x044, 3, 1, .ro, 0x0, 1, false⟩
/-- DMC_WQ_HIGH, offset 0x048 [5:0] (R383). -/
def rDMC_WQ_HIGH : Fld := ⟨20, 0x048, 0, 6, .rw, 0x30, 1, false⟩
/-- DMC_WQ_LOW, offset 0x048 [13:8] (R383). -/
def rDMC_WQ_LOW : Fld := ⟨20, 0x048, 8, 6, .rw, 0x10, 1, false⟩
/-- DMC_PRED_EN, offset 0x048 [16] (R383). -/
def rDMC_PRED_EN : Fld := ⟨20, 0x048, 16, 1, .rw, 0x1, 1, false⟩
/-- DMC_OSC_STRIDES, offset 0x04C [15:0] (R383). -/
def rDMC_OSC_STRIDES : Fld := ⟨20, 0x04C, 0, 16, .rw, 0x4E2, 1, false⟩
/-- DMC_DRIFT, offset 0x04C [21:16] (R383). -/
def rDMC_DRIFT : Fld := ⟨20, 0x04C, 16, 6, .rw, 0x8, 1, false⟩
/-- DMC_REFETCH_OK, offset 0x050 [15:0] (R383). -/
def rDMC_REFETCH_OK : Fld := ⟨20, 0x050, 0, 16, .ro, 0x0, 1, true⟩
/-- DMC_RECOMPUTED, offset 0x050 [31:16] (R383). -/
def rDMC_RECOMPUTED : Fld := ⟨20, 0x050, 16, 16, .ro, 0x0, 1, true⟩
/-- DMC_WCRC_RETRY, offset 0x054 [15:0] (R383). -/
def rDMC_WCRC_RETRY : Fld := ⟨20, 0x054, 0, 16, .ro, 0x0, 1, true⟩
/-- DMC_CAPAR_RETRY, offset 0x054 [31:16] (R383). -/
def rDMC_CAPAR_RETRY : Fld := ⟨20, 0x054, 16, 16, .ro, 0x0, 1, true⟩
/-- DMC_FROZEN, offset 0x058 [0] (R383). -/
def rDMC_FROZEN : Fld := ⟨20, 0x058, 0, 1, .ro, 0x0, 1, false⟩
/-- DMC_CAUSE, offset 0x058 [3:1] (R383). -/
def rDMC_CAUSE : Fld := ⟨20, 0x058, 1, 3, .ro, 0x0, 1, false⟩
/-- DMC_DUMP_GO, offset 0x058 [4] (R383). -/
def rDMC_DUMP_GO : Fld := ⟨20, 0x058, 4, 1, .w1s, 0x0, 1, false⟩
/-- DMC_DUMP_BUSY, offset 0x058 [5] (R383). -/
def rDMC_DUMP_BUSY : Fld := ⟨20, 0x058, 5, 1, .ro, 0x0, 1, false⟩
/-- DMC_DUMP_DONE, offset 0x058 [6] (R383). -/
def rDMC_DUMP_DONE : Fld := ⟨20, 0x058, 6, 1, .ro, 0x0, 1, false⟩
/-- DMC_LOST_LINES, offset 0x05C [19:0] (R383). -/
def rDMC_LOST_LINES : Fld := ⟨20, 0x05C, 0, 20, .ro, 0x0, 1, false⟩
/-- DMC_REMAPPED, offset 0x060 [7:0] (R383). -/
def rDMC_REMAPPED : Fld := ⟨20, 0x060, 0, 8, .ro, 0x0, 1, false⟩
/-- DMC_PPR, offset 0x060 [15:8] (R383). -/
def rDMC_PPR : Fld := ⟨20, 0x060, 8, 8, .ro, 0x0, 1, true⟩
/-- DMC_SELFTEST, offset 0x060 [17:16] (R383). -/
def rDMC_SELFTEST : Fld := ⟨20, 0x060, 16, 2, .ro, 0x0, 1, false⟩
/-- DMC_WQ_DEPTH, offset 0x064 [31:0] (R383). -/
def rDMC_WQ_DEPTH : Fld := ⟨20, 0x064, 0, 32, .ro, 0x0, 1, false⟩
/-- DMC_FAIL_SC, offset 0x068 [1:0] (R383). -/
def rDMC_FAIL_SC : Fld := ⟨20, 0x068, 0, 2, .ro, 0x0, 1, false⟩
/-- DMC_FAIL_QTR, offset 0x068 [5:2] (R383). -/
def rDMC_FAIL_QTR : Fld := ⟨20, 0x068, 2, 4, .ro, 0x0, 1, false⟩
/-- DMC_LCRC_BAD, offset 0x068 [6] (R383). -/
def rDMC_LCRC_BAD : Fld := ⟨20, 0x068, 6, 1, .ro, 0x0, 1, false⟩
/-- DMC_TAG_BAD, offset 0x068 [7] (R383). -/
def rDMC_TAG_BAD : Fld := ⟨20, 0x068, 7, 1, .ro, 0x0, 1, false⟩
/-- DMC_DIAG_LINE, offset 0x100 [31:0] (R383). -/
def rDMC_DIAG_LINE : Fld := ⟨20, 0x100, 0, 32, .ro, 0x0, 20, false⟩
/-- SRM_WORD_ERR, offset 0x040 [15:0] (R384). -/
def rSRM_WORD_ERR : Fld := ⟨21, 0x040, 0, 16, .ro, 0x0, 1, true⟩
/-- SRM_RECOMPUTED, offset 0x040 [31:16] (R384). -/
def rSRM_RECOMPUTED : Fld := ⟨21, 0x040, 16, 16, .ro, 0x0, 1, true⟩
/-- SRM_FABRIC_RESEND, offset 0x044 [15:0] (R384). -/
def rSRM_FABRIC_RESEND : Fld := ⟨21, 0x044, 0, 16, .ro, 0x0, 1, true⟩
/-- SRM_FABRIC_FAIL, offset 0x044 [31:16] (R384). -/
def rSRM_FABRIC_FAIL : Fld := ⟨21, 0x044, 16, 16, .ro, 0x0, 1, true⟩
/-- SRM_LAST_POOL, offset 0x048 [3:0] (R384). -/
def rSRM_LAST_POOL : Fld := ⟨21, 0x048, 0, 4, .ro, 0x0, 1, false⟩
/-- SRM_LAST_BANK, offset 0x048 [7:4] (R384). -/
def rSRM_LAST_BANK : Fld := ⟨21, 0x048, 4, 4, .ro, 0x0, 1, false⟩
/-- KEY_SLOT_SEL, offset 0x040 [11:0] (R416). -/
def rKEY_SLOT_SEL : Fld := ⟨6, 0x040, 0, 12, .rw, 0x0, 1, false⟩
/-- KEY_STATE, offset 0x044 [1:0] (R416). -/
def rKEY_STATE : Fld := ⟨6, 0x044, 0, 2, .ro, 0x0, 1, false⟩
/-- KEY_CLASS, offset 0x044 [4:2] (R416). -/
def rKEY_CLASS : Fld := ⟨6, 0x044, 2, 3, .ro, 0x0, 1, false⟩
/-- KEY_SOURCE, offset 0x044 [6:5] (R416). -/
def rKEY_SOURCE : Fld := ⟨6, 0x044, 5, 2, .ro, 0x0, 1, false⟩
/-- KEY_OWNER, offset 0x044 [15:8] (R416). -/
def rKEY_OWNER : Fld := ⟨6, 0x044, 8, 8, .ro, 0x0, 1, false⟩
/-- KEY_KEY_ID, offset 0x048 [31:0] (R416). -/
def rKEY_KEY_ID : Fld := ⟨6, 0x048, 0, 32, .ro, 0x0, 1, false⟩
/-- KEY_KCV_LO, offset 0x04C [31:0] (R416). -/
def rKEY_KCV_LO : Fld := ⟨6, 0x04C, 0, 32, .ro, 0x0, 1, false⟩
/-- KEY_KCV_HI, offset 0x050 [31:0] (R416). -/
def rKEY_KCV_HI : Fld := ⟨6, 0x050, 0, 32, .ro, 0x0, 1, false⟩
/-- KEY_LOADED, offset 0x054 [12:0] (R416). -/
def rKEY_LOADED : Fld := ⟨6, 0x054, 0, 13, .ro, 0x0, 1, false⟩
/-- KEY_SESSIONS, offset 0x054 [18:16] (R416). -/
def rKEY_SESSIONS : Fld := ⟨6, 0x054, 16, 3, .ro, 0x0, 1, false⟩
/-- KEY_STORE_OK, offset 0x058 [0] (R416). -/
def rKEY_STORE_OK : Fld := ⟨6, 0x058, 0, 1, .ro, 0x0, 1, false⟩
/-- KEY_STORE_BUSY, offset 0x058 [1] (R416). -/
def rKEY_STORE_BUSY : Fld := ⟨6, 0x058, 1, 1, .ro, 0x0, 1, false⟩
/-- KEY_HEALTH_OK, offset 0x05C [0] (R416). -/
def rKEY_HEALTH_OK : Fld := ⟨6, 0x05C, 0, 1, .ro, 0x0, 1, false⟩
/-- KEY_RESEEDS, offset 0x05C [31:16] (R416). -/
def rKEY_RESEEDS : Fld := ⟨6, 0x05C, 16, 16, .ro, 0x0, 1, true⟩
/-- KEY_IMG_KEY, offset 0x060 [1:0] (R416). -/
def rKEY_IMG_KEY : Fld := ⟨6, 0x060, 0, 2, .ro, 0x0, 1, false⟩
/-- KEY_REVOKED, offset 0x060 [5:2] (R416). -/
def rKEY_REVOKED : Fld := ⟨6, 0x060, 2, 4, .ro, 0x0, 1, false⟩
/-- KEY_SVN_FUSED, offset 0x060 [14:8] (R416). -/
def rKEY_SVN_FUSED : Fld := ⟨6, 0x060, 8, 7, .ro, 0x0, 1, false⟩
/-- KEY_SVN_RUN, offset 0x060 [21:16] (R416). -/
def rKEY_SVN_RUN : Fld := ⟨6, 0x060, 16, 6, .ro, 0x0, 1, false⟩
/-- KEY_LOADS, offset 0x064 [15:0] (R416). -/
def rKEY_LOADS : Fld := ⟨6, 0x064, 0, 16, .ro, 0x0, 1, true⟩
/-- KEY_UNWRAP_FAIL, offset 0x064 [31:16] (R416). -/
def rKEY_UNWRAP_FAIL : Fld := ⟨6, 0x064, 16, 16, .ro, 0x0, 1, true⟩
/-- KEY_CERASE, offset 0x068 [15:0] (R416). -/
def rKEY_CERASE : Fld := ⟨6, 0x068, 0, 16, .ro, 0x0, 1, true⟩
/-- KEY_IMG_REJECT, offset 0x068 [31:16] (R416). -/
def rKEY_IMG_REJECT : Fld := ⟨6, 0x068, 16, 16, .ro, 0x0, 1, true⟩
/-- KEY_MEAS, offset 0x070 [31:0] (R416). -/
def rKEY_MEAS : Fld := ⟨6, 0x070, 0, 32, .ro, 0x0, 12, false⟩
/-- KEY_ALIAS_OK, offset 0x0A0 [0] (R416). -/
def rKEY_ALIAS_OK : Fld := ⟨6, 0x0A0, 0, 1, .ro, 0x0, 1, false⟩
/-- KEY_CERT_OK, offset 0x0A0 [1] (R416). -/
def rKEY_CERT_OK : Fld := ⟨6, 0x0A0, 1, 1, .ro, 0x0, 1, false⟩
/-- CIP_LANES, offset 0x040 [3:0] (R417). -/
def rCIP_LANES : Fld := ⟨7, 0x040, 0, 4, .ro, 0x0, 1, false⟩
/-- CIP_CTX_USED, offset 0x040 [14:8] (R417). -/
def rCIP_CTX_USED : Fld := ⟨7, 0x040, 8, 7, .ro, 0x0, 1, false⟩
/-- CIP_HOLD_USED, offset 0x044 [10:0] (R417). -/
def rCIP_HOLD_USED : Fld := ⟨7, 0x044, 0, 11, .ro, 0x0, 1, false⟩
/-- CIP_HOLD_RSV, offset 0x044 [26:16] (R417). -/
def rCIP_HOLD_RSV : Fld := ⟨7, 0x044, 16, 11, .ro, 0x0, 1, false⟩
/-- CIP_GRAN_ENC, offset 0x048 [31:0] (R417). -/
def rCIP_GRAN_ENC : Fld := ⟨7, 0x048, 0, 32, .ro, 0x0, 1, true⟩
/-- CIP_GRAN_DEC, offset 0x04C [31:0] (R417). -/
def rCIP_GRAN_DEC : Fld := ⟨7, 0x04C, 0, 32, .ro, 0x0, 1, true⟩
/-- CIP_TAG_FAIL, offset 0x050 [15:0] (R417). -/
def rCIP_TAG_FAIL : Fld := ⟨7, 0x050, 0, 16, .ro, 0x0, 1, true⟩
/-- CIP_SUSPEND, offset 0x050 [31:16] (R417). -/
def rCIP_SUSPEND : Fld := ⟨7, 0x050, 16, 16, .ro, 0x0, 1, true⟩
/-- CIP_RESTART, offset 0x054 [15:0] (R417). -/
def rCIP_RESTART : Fld := ⟨7, 0x054, 0, 16, .ro, 0x0, 1, true⟩
/-- CIP_CTX_FULL, offset 0x054 [31:16] (R417). -/
def rCIP_CTX_FULL : Fld := ⟨7, 0x054, 16, 16, .ro, 0x0, 1, true⟩
/-- CIP_TLS_REC, offset 0x058 [31:0] (R417). -/
def rCIP_TLS_REC : Fld := ⟨7, 0x058, 0, 32, .ro, 0x0, 1, true⟩
/-- CIP_TLS_AUTH_FAIL, offset 0x05C [15:0] (R417). -/
def rCIP_TLS_AUTH_FAIL : Fld := ⟨7, 0x05C, 0, 16, .ro, 0x0, 1, true⟩
/-- CIP_KEY_UPDATE, offset 0x05C [31:16] (R417). -/
def rCIP_KEY_UPDATE : Fld := ⟨7, 0x05C, 16, 16, .ro, 0x0, 1, true⟩
/-- CIP_HOLD_WAIT, offset 0x060 [15:0] (R417). -/
def rCIP_HOLD_WAIT : Fld := ⟨7, 0x060, 0, 16, .ro, 0x0, 1, true⟩
/-- HIF_SPEEDp, offset 0x040 [2:0] (R448). -/
def rHIF_SPEEDp : Fld := ⟨8, 0x040, 0, 3, .ro, 0x0, 2, false⟩
/-- HIF_WIDTHp, offset 0x040 [6:3] (R448). -/
def rHIF_WIDTHp : Fld := ⟨8, 0x040, 3, 4, .ro, 0x0, 2, false⟩
/-- HIF_FLITp, offset 0x040 [7] (R448). -/
def rHIF_FLITp : Fld := ⟨8, 0x040, 7, 1, .ro, 0x0, 2, false⟩
/-- HIF_DUAL, offset 0x048 [0] (R448). -/
def rHIF_DUAL : Fld := ⟨8, 0x048, 0, 1, .rws, 0x0, 1, false⟩
/-- HIF_MAX_SPEED, offset 0x048 [3:1] (R448). -/
def rHIF_MAX_SPEED : Fld := ⟨8, 0x048, 1, 3, .rws, 0x6, 1, false⟩
/-- HIF_CLOSE, offset 0x04C [0] (R448). -/
def rHIF_CLOSE : Fld := ⟨8, 0x04C, 0, 1, .w1s, 0x0, 1, false⟩
/-- HIF_NUMVFS0, offset 0x060 [8:0] (R448). -/
def rHIF_NUMVFS0 : Fld := ⟨8, 0x060, 0, 9, .ro, 0x0, 1, false⟩
/-- HIF_NUMVFS1, offset 0x060 [24:16] (R448). -/
def rHIF_NUMVFS1 : Fld := ⟨8, 0x060, 16, 9, .ro, 0x0, 1, false⟩
/-- HIF_OWNED, offset 0x064 [0] (R448). -/
def rHIF_OWNED : Fld := ⟨8, 0x064, 0, 1, .ro, 0x0, 1, false⟩
/-- HIF_OWNER_PORT, offset 0x064 [1] (R448). -/
def rHIF_OWNER_PORT : Fld := ⟨8, 0x064, 1, 1, .ro, 0x0, 1, false⟩
/-- HIF_DENIED, offset 0x064 [15:8] (R448). -/
def rHIF_DENIED : Fld := ⟨8, 0x064, 8, 8, .ro, 0x0, 1, true⟩
/-- HIF_IDE_SECURE, offset 0x068 [3:0] (R448). -/
def rHIF_IDE_SECURE : Fld := ⟨8, 0x068, 0, 4, .ro, 0x0, 1, false⟩
/-- HIF_IDE_INSECURE, offset 0x068 [11:4] (R448). -/
def rHIF_IDE_INSECURE : Fld := ⟨8, 0x068, 4, 8, .ro, 0x0, 1, false⟩
/-- HIF_AER_CE, offset 0x06C [15:0] (R448). -/
def rHIF_AER_CE : Fld := ⟨8, 0x06C, 0, 16, .ro, 0x0, 1, true⟩
/-- HIF_AER_UE, offset 0x06C [31:16] (R448). -/
def rHIF_AER_UE : Fld := ⟨8, 0x06C, 16, 16, .ro, 0x0, 1, true⟩
/-- HIF_FLR, offset 0x070 [15:0] (R448). -/
def rHIF_FLR : Fld := ⟨8, 0x070, 0, 16, .ro, 0x0, 1, true⟩
/-- HIF_LINK_DOWN, offset 0x070 [31:16] (R448). -/
def rHIF_LINK_DOWN : Fld := ⟨8, 0x070, 16, 16, .ro, 0x0, 1, true⟩
/-- HIF_VF_PORTk, offset 0x080 [31:0] (R448). -/
def rHIF_VF_PORTk : Fld := ⟨8, 0x080, 0, 32, .rw, 0x0, 8, false⟩
/-- NET_P0_MODE, offset 0x040 [1:0] (R449). -/
def rNET_P0_MODE : Fld := ⟨9, 0x040, 0, 2, .rws, 0x0, 1, false⟩
/-- NET_P1_MODE, offset 0x040 [3:2] (R449). -/
def rNET_P1_MODE : Fld := ⟨9, 0x040, 2, 2, .rws, 0x0, 1, false⟩
/-- NET_P0_ONE_LANE, offset 0x040 [4] (R449). -/
def rNET_P0_ONE_LANE : Fld := ⟨9, 0x040, 4, 1, .rws, 0x0, 1, false⟩
/-- NET_P1_ONE_LANE, offset 0x040 [5] (R449). -/
def rNET_P1_ONE_LANE : Fld := ⟨9, 0x040, 5, 1, .rws, 0x0, 1, false⟩
/-- NET_LINK, offset 0x044 [3:0] (R449). -/
def rNET_LINK : Fld := ⟨9, 0x044, 0, 4, .ro, 0x0, 1, false⟩
/-- NET_IF_SEL, offset 0x048 [1:0] (R449). -/
def rNET_IF_SEL : Fld := ⟨9, 0x048, 0, 2, .rw, 0x0, 1, false⟩
/-- NET_VLAN_ID, offset 0x04C [11:0] (R449). -/
def rNET_VLAN_ID : Fld := ⟨9, 0x04C, 0, 12, .rw, 0x0, 1, false⟩
/-- NET_VLAN_EN, offset 0x04C [12] (R449). -/
def rNET_VLAN_EN : Fld := ⟨9, 0x04C, 12, 1, .rw, 0x0, 1, false⟩
/-- NET_PFC_PRIO, offset 0x04C [15:13] (R449). -/
def rNET_PFC_PRIO : Fld := ⟨9, 0x04C, 13, 3, .rw, 0x3, 1, false⟩
/-- NET_PFC_EN, offset 0x04C [16] (R449). -/
def rNET_PFC_EN : Fld := ⟨9, 0x04C, 16, 1, .rw, 0x1, 1, false⟩
/-- NET_ECN_EN, offset 0x04C [17] (R449). -/
def rNET_ECN_EN : Fld := ⟨9, 0x04C, 17, 1, .rw, 0x1, 1, false⟩
/-- NET_MTU, offset 0x04C [31:18] (R449). -/
def rNET_MTU : Fld := ⟨9, 0x04C, 18, 14, .rw, 0x5DC, 1, false⟩
/-- NET_IPV4, offset 0x050 [31:0] (R449). -/
def rNET_IPV4 : Fld := ⟨9, 0x050, 0, 32, .rw, 0x0, 1, false⟩
/-- NET_V4_PREFIX, offset 0x054 [5:0] (R449). -/
def rNET_V4_PREFIX : Fld := ⟨9, 0x054, 0, 6, .rw, 0x0, 1, false⟩
/-- NET_GW4, offset 0x058 [31:0] (R449). -/
def rNET_GW4 : Fld := ⟨9, 0x058, 0, 32, .rw, 0x0, 1, false⟩
/-- NET_IPV6k, offset 0x060 [31:0] (R449). -/
def rNET_IPV6k : Fld := ⟨9, 0x060, 0, 32, .rw, 0x0, 4, false⟩
/-- NET_V6_PREFIX, offset 0x070 [6:0] (R449). -/
def rNET_V6_PREFIX : Fld := ⟨9, 0x070, 0, 7, .rw, 0x0, 1, false⟩
/-- NET_DSCP_GAITk, offset 0x080 [31:0] (R449). -/
def rNET_DSCP_GAITk : Fld := ⟨9, 0x080, 0, 32, .rw, 0x0, 4, false⟩
/-- NET_TCP_PORT, offset 0x090 [15:0] (R449). -/
def rNET_TCP_PORT : Fld := ⟨9, 0x090, 0, 16, .rw, 0x1144, 1, false⟩
/-- NET_DISC_PORT, offset 0x090 [31:16] (R449). -/
def rNET_DISC_PORT : Fld := ⟨9, 0x090, 16, 16, .rw, 0x1F49, 1, false⟩
/-- NET_TCP_EN, offset 0x094 [0] (R449). -/
def rNET_TCP_EN : Fld := ⟨9, 0x094, 0, 1, .rw, 0x1, 1, false⟩
/-- NET_RDMA_EN, offset 0x094 [1] (R449). -/
def rNET_RDMA_EN : Fld := ⟨9, 0x094, 1, 1, .rw, 0x1, 1, false⟩
/-- NET_DISC_EN, offset 0x094 [2] (R449). -/
def rNET_DISC_EN : Fld := ⟨9, 0x094, 2, 1, .rw, 0x1, 1, false⟩
/-- NET_DSCP_DISC, offset 0x094 [13:8] (R449). -/
def rNET_DSCP_DISC : Fld := ⟨9, 0x094, 8, 6, .rw, 0x0, 1, false⟩
/-- NET_DSCP_TX, offset 0x098 [23:0] (R449). -/
def rNET_DSCP_TX : Fld := ⟨9, 0x098, 0, 24, .rw, 0x0, 1, false⟩
/-- NET_FUNC_SEL, offset 0x09C [7:0] (R449). -/
def rNET_FUNC_SEL : Fld := ⟨9, 0x09C, 0, 8, .rw, 0x0, 1, false⟩
/-- NET_TLS_REQ, offset 0x0A0 [0] (R449). -/
def rNET_TLS_REQ : Fld := ⟨9, 0x0A0, 0, 1, .rw, 0x0, 1, false⟩
/-- NET_TCP_OK, offset 0x0A0 [1] (R449). -/
def rNET_TCP_OK : Fld := ⟨9, 0x0A0, 1, 1, .rw, 0x1, 1, false⟩
/-- NET_RDMA_OK, offset 0x0A0 [2] (R449). -/
def rNET_RDMA_OK : Fld := ⟨9, 0x0A0, 2, 1, .rw, 0x0, 1, false⟩
/-- NET_ANY_HOST, offset 0x0A0 [3] (R449). -/
def rNET_ANY_HOST : Fld := ⟨9, 0x0A0, 3, 1, .rw, 0x0, 1, false⟩
/-- NET_PSK_GEN, offset 0x0A4 [31:0] (R449). -/
def rNET_PSK_GEN : Fld := ⟨9, 0x0A4, 0, 32, .rw, 0x0, 1, false⟩
/-- NET_ACL, offset 0x0B0 [31:0] (R449). -/
def rNET_ACL : Fld := ⟨9, 0x0B0, 0, 32, .rw, 0x0, 16, false⟩
/-- NET_ASSOC_USED, offset 0x0F0 [10:0] (R449). -/
def rNET_ASSOC_USED : Fld := ⟨9, 0x0F0, 0, 11, .ro, 0x0, 1, false⟩
/-- NET_NQP_USED, offset 0x0F0 [28:16] (R449). -/
def rNET_NQP_USED : Fld := ⟨9, 0x0F0, 16, 13, .ro, 0x0, 1, false⟩
/-- NET_TLS_USED, offset 0x0F4 [10:0] (R449). -/
def rNET_TLS_USED : Fld := ⟨9, 0x0F4, 0, 11, .ro, 0x0, 1, false⟩
/-- NET_CONN_REFUSED, offset 0x0F8 [15:0] (R449). -/
def rNET_CONN_REFUSED : Fld := ⟨9, 0x0F8, 0, 16, .ro, 0x0, 1, true⟩
/-- NET_KATO, offset 0x0F8 [31:16] (R449). -/
def rNET_KATO : Fld := ⟨9, 0x0F8, 16, 16, .ro, 0x0, 1, true⟩
/-- SBI_SMB_ADDR, offset 0x040 [6:0] (R450). -/
def rSBI_SMB_ADDR : Fld := ⟨10, 0x040, 0, 7, .rws, 0x1D, 1, false⟩
/-- SBI_SMB_SPEED, offset 0x040 [9:8] (R450). -/
def rSBI_SMB_SPEED : Fld := ⟨10, 0x040, 8, 2, .rw, 0x2, 1, false⟩
/-- SBI_EID, offset 0x044 [7:0] (R450). -/
def rSBI_EID : Fld := ⟨10, 0x044, 0, 8, .ro, 0x0, 1, false⟩
/-- SBI_UART_BAUD, offset 0x048 [1:0] (R450). -/
def rSBI_UART_BAUD : Fld := ⟨10, 0x048, 0, 2, .rw, 0x0, 1, false⟩
/-- SBI_UART_IN_EN, offset 0x048 [2] (R450). -/
def rSBI_UART_IN_EN : Fld := ⟨10, 0x048, 2, 1, .rws, 0x0, 1, false⟩
/-- SBI_JTAG_REG_EN, offset 0x04C [0] (R450). -/
def rSBI_JTAG_REG_EN : Fld := ⟨10, 0x04C, 0, 1, .rws, 0x0, 1, false⟩
/-- SBI_GPIO_DIR, offset 0x050 [7:0] (R450). -/
def rSBI_GPIO_DIR : Fld := ⟨10, 0x050, 0, 8, .rw, 0x0, 1, false⟩
/-- SBI_GPIO_OD, offset 0x050 [15:8] (R450). -/
def rSBI_GPIO_OD : Fld := ⟨10, 0x050, 8, 8, .rw, 0x0, 1, false⟩
/-- SBI_GPIO_OUT, offset 0x050 [23:16] (R450). -/
def rSBI_GPIO_OUT : Fld := ⟨10, 0x050, 16, 8, .rw, 0x0, 1, false⟩
/-- SBI_GPIO_IN, offset 0x050 [31:24] (R450). -/
def rSBI_GPIO_IN : Fld := ⟨10, 0x050, 24, 8, .ro, 0x0, 1, false⟩
/-- SBI_GPIO_FUNC, offset 0x054 [31:0] (R450). -/
def rSBI_GPIO_FUNC : Fld := ⟨10, 0x054, 0, 32, .rw, 0x0, 1, false⟩
/-- SBI_MCTP_RX, offset 0x058 [15:0] (R450). -/
def rSBI_MCTP_RX : Fld := ⟨10, 0x058, 0, 16, .ro, 0x0, 1, true⟩
/-- SBI_PEC_ERR, offset 0x058 [31:16] (R450). -/
def rSBI_PEC_ERR : Fld := ⟨10, 0x058, 16, 16, .ro, 0x0, 1, true⟩
/-- THM_RISE_WARN, offset 0x040 [7:0] (R475). -/
def rTHM_RISE_WARN : Fld := ⟨4, 0x040, 0, 8, .rw, 0x14, 1, false⟩
/-- THM_RISE_THR, offset 0x040 [15:8] (R475). -/
def rTHM_RISE_THR : Fld := ⟨4, 0x040, 8, 8, .rw, 0x28, 1, false⟩
/-- THM_RELIGHT_C, offset 0x040 [22:16] (R475). -/
def rTHM_RELIGHT_C : Fld := ⟨4, 0x040, 16, 7, .rws, 0x5A, 1, false⟩
/-- THM_FAST_FORCE, offset 0x040 [23] (R475). -/
def rTHM_FAST_FORCE : Fld := ⟨4, 0x040, 23, 1, .rw, 0x0, 1, false⟩
/-- THM_PKG_TP, offset 0x040 [30:24] (R475). -/
def rTHM_PKG_TP : Fld := ⟨4, 0x040, 24, 7, .ro, 0x0, 1, false⟩
/-- THM_LEVEL, offset 0x044 [2:0] (R475). -/
def rTHM_LEVEL : Fld := ⟨4, 0x044, 0, 3, .ro, 0x0, 1, false⟩
/-- THM_L_ABS, offset 0x044 [5:3] (R475). -/
def rTHM_L_ABS : Fld := ⟨4, 0x044, 3, 3, .ro, 0x0, 1, false⟩
/-- THM_L_RISE, offset 0x044 [8:6] (R475). -/
def rTHM_L_RISE : Fld := ⟨4, 0x044, 6, 3, .ro, 0x0, 1, false⟩
/-- THM_L_POWER, offset 0x044 [11:9] (R475). -/
def rTHM_L_POWER : Fld := ⟨4, 0x044, 9, 3, .ro, 0x0, 1, false⟩
/-- THM_PS, offset 0x044 [14:12] (R475). -/
def rTHM_PS : Fld := ⟨4, 0x044, 12, 3, .ro, 0x0, 1, false⟩
/-- THM_FAST, offset 0x044 [15] (R475). -/
def rTHM_FAST : Fld := ⟨4, 0x044, 15, 1, .ro, 0x1, 1, false⟩
/-- THM_WARN, offset 0x044 [16] (R475). -/
def rTHM_WARN : Fld := ⟨4, 0x044, 16, 1, .ro, 0x0, 1, false⟩
/-- THM_P_CTRL, offset 0x048 [15:0] (R475). -/
def rTHM_P_CTRL : Fld := ⟨4, 0x048, 0, 16, .ro, 0x0, 1, false⟩
/-- THM_P_BUDGET, offset 0x048 [31:16] (R475). -/
def rTHM_P_BUDGET : Fld := ⟨4, 0x048, 16, 16, .ro, 0x9C4, 1, false⟩
/-- THM_T_CTRL, offset 0x04C [15:0] (R475). -/
def rTHM_T_CTRL : Fld := ⟨4, 0x04C, 0, 16, .ro, 0x0, 1, false⟩
/-- THM_T_PKG, offset 0x04C [31:16] (R475). -/
def rTHM_T_PKG : Fld := ⟨4, 0x04C, 16, 16, .ro, 0x0, 1, false⟩
/-- THM_HOT_NODE, offset 0x050 [8:0] (R475). -/
def rTHM_HOT_NODE : Fld := ⟨4, 0x050, 0, 9, .ro, 0x0, 1, false⟩
/-- THM_RISE_MAX, offset 0x050 [31:16] (R475). -/
def rTHM_RISE_MAX : Fld := ⟨4, 0x050, 16, 16, .ro, 0x0, 1, false⟩
/-- THM_DIODEj, offset 0x058 [15:0] (R475). -/
def rTHM_DIODEj : Fld := ⟨4, 0x058, 0, 16, .ro, 0x0, 4, false⟩
/-- THM_GAPj, offset 0x058 [31:16] (R475). -/
def rTHM_GAPj : Fld := ⟨4, 0x058, 16, 16, .ro, 0x0, 4, false⟩
/-- THM_SENSE_BAD_LO, offset 0x068 [31:0] (R475). -/
def rTHM_SENSE_BAD_LO : Fld := ⟨4, 0x068, 0, 32, .ro, 0x0, 1, false⟩
/-- THM_SENSE_BAD_HI, offset 0x06C [31:0] (R475). -/
def rTHM_SENSE_BAD_HI : Fld := ⟨4, 0x06C, 0, 32, .ro, 0x0, 1, false⟩
/-- THM_CH_SEL, offset 0x070 [5:0] (R475). -/
def rTHM_CH_SEL : Fld := ⟨4, 0x070, 0, 6, .rw, 0x0, 1, false⟩
/-- THM_CH_RAW, offset 0x074 [11:0] (R475). -/
def rTHM_CH_RAW : Fld := ⟨4, 0x074, 0, 12, .ro, 0x0, 1, false⟩
/-- THM_CH_VAL, offset 0x074 [31:16] (R475). -/
def rTHM_CH_VAL : Fld := ⟨4, 0x074, 16, 16, .ro, 0x0, 1, false⟩
/-- THM_SNUFFS, offset 0x078 [15:0] (R475). -/
def rTHM_SNUFFS : Fld := ⟨4, 0x078, 0, 16, .ro, 0x0, 1, false⟩
/-- THM_THROTTLE_S, offset 0x078 [31:16] (R475). -/
def rTHM_THROTTLE_S : Fld := ⟨4, 0x078, 16, 16, .ro, 0x0, 1, true⟩
/-- THM_RELIGHT_WAIT, offset 0x07C [8:0] (R475). -/
def rTHM_RELIGHT_WAIT : Fld := ⟨4, 0x07C, 0, 9, .ro, 0x1E, 1, false⟩
/-- HLD_ENERGY, offset 0x040 [15:0] (R476). -/
def rHLD_ENERGY : Fld := ⟨5, 0x040, 0, 16, .ro, 0x0, 1, false⟩
/-- HLD_NO_HOLDUP, offset 0x040 [16] (R476). -/
def rHLD_NO_HOLDUP : Fld := ⟨5, 0x040, 16, 1, .ro, 0x1, 1, false⟩
/-- HLD_TEST_BUSY, offset 0x040 [17] (R476). -/
def rHLD_TEST_BUSY : Fld := ⟨5, 0x040, 17, 1, .ro, 0x0, 1, false⟩
/-- HLD_CHARGED, offset 0x040 [18] (R476). -/
def rHLD_CHARGED : Fld := ⟨5, 0x040, 18, 1, .ro, 0x0, 1, false⟩
/-- HLD_V_BANK, offset 0x044 [15:0] (R476). -/
def rHLD_V_BANK : Fld := ⟨5, 0x044, 0, 16, .ro, 0x0, 1, false⟩
/-- HLD_V_MIN, offset 0x044 [31:16] (R476). -/
def rHLD_V_MIN : Fld := ⟨5, 0x044, 16, 16, .ro, 0x0, 1, false⟩
/-- HLD_TEST_S, offset 0x048 [15:0] (R476). -/
def rHLD_TEST_S : Fld := ⟨5, 0x048, 0, 16, .rw, 0xE10, 1, false⟩
/-- HLD_ETA_PCT, offset 0x048 [23:16] (R476). -/
def rHLD_ETA_PCT : Fld := ⟨5, 0x048, 16, 8, .ro, 0x0, 1, false⟩
/-- HLD_C_MIN_PCT, offset 0x048 [30:24] (R476). -/
def rHLD_C_MIN_PCT : Fld := ⟨5, 0x048, 24, 7, .rw, 0x46, 1, false⟩
/-- HLD_TEST_NOW, offset 0x048 [31] (R476). -/
def rHLD_TEST_NOW : Fld := ⟨5, 0x048, 31, 1, .w1s, 0x0, 1, false⟩
/-- HLD_STR_SEL, offset 0x04C [2:0] (R476). -/
def rHLD_STR_SEL : Fld := ⟨5, 0x04C, 0, 3, .rw, 0x0, 1, false⟩
/-- HLD_STR_FITTED, offset 0x04C [15:8] (R476). -/
def rHLD_STR_FITTED : Fld := ⟨5, 0x04C, 8, 8, .ro, 0x0, 1, false⟩
/-- HLD_STR_ISO, offset 0x04C [23:16] (R476). -/
def rHLD_STR_ISO : Fld := ⟨5, 0x04C, 16, 8, .ro, 0xFF, 1, false⟩
/-- HLD_STATE, offset 0x050 [2:0] (R476). -/
def rHLD_STATE : Fld := ⟨5, 0x050, 0, 3, .ro, 0x0, 1, false⟩
/-- HLD_C_UF, offset 0x050 [31:16] (R476). -/
def rHLD_C_UF : Fld := ⟨5, 0x050, 16, 16, .ro, 0x0, 1, false⟩
/-- HLD_ESR, offset 0x054 [15:0] (R476). -/
def rHLD_ESR : Fld := ⟨5, 0x054, 0, 16, .ro, 0x0, 1, false⟩
/-- HLD_C_NOM, offset 0x054 [31:16] (R476). -/
def rHLD_C_NOM : Fld := ⟨5, 0x054, 16, 16, .ro, 0x0, 1, false⟩
/-- HLD_LAST, offset 0x058 [1:0] (R476). -/
def rHLD_LAST : Fld := ⟨5, 0x058, 0, 2, .ro, 0x0, 1, false⟩
/-- HLD_BUSY, offset 0x058 [2] (R476). -/
def rHLD_BUSY : Fld := ⟨5, 0x058, 2, 1, .ro, 0x0, 1, false⟩
/-- HLD_READY_PCT, offset 0x058 [15:8] (R476). -/
def rHLD_READY_PCT : Fld := ⟨5, 0x058, 8, 8, .ro, 0x0, 1, false⟩
/-- HLD_LAST_MS, offset 0x058 [31:16] (R476). -/
def rHLD_LAST_MS : Fld := ⟨5, 0x058, 16, 16, .ro, 0x0, 1, false⟩
/-- HLD_DUMPS, offset 0x05C [15:0] (R476). -/
def rHLD_DUMPS : Fld := ⟨5, 0x05C, 0, 16, .ro, 0x0, 1, false⟩
/-- HLD_DUMP_FAILS, offset 0x05C [31:16] (R476). -/
def rHLD_DUMP_FAILS : Fld := ⟨5, 0x05C, 16, 16, .ro, 0x0, 1, false⟩
/-- HLD_LAST_MIB, offset 0x060 [11:0] (R476). -/
def rHLD_LAST_MIB : Fld := ⟨5, 0x060, 0, 12, .ro, 0x0, 1, false⟩
/-- HLD_RESERVE_BLOCKS, offset 0x060 [15:12] (R476). -/
def rHLD_RESERVE_BLOCKS : Fld := ⟨5, 0x060, 12, 4, .rws, 0x4, 1, false⟩
/-- HLD_DEFERS, offset 0x060 [31:16] (R476). -/
def rHLD_DEFERS : Fld := ⟨5, 0x060, 16, 16, .ro, 0x0, 1, true⟩
/-- BOT_PHASE, offset 0x040 [3:0] (R499). -/
def rBOT_PHASE : Fld := ⟨1, 0x040, 0, 4, .ro, 0x1, 1, false⟩
/-- BOT_FAIL_PHASE, offset 0x040 [7:4] (R499). -/
def rBOT_FAIL_PHASE : Fld := ⟨1, 0x040, 4, 4, .ro, 0x0, 1, false⟩
/-- BOT_FAIL_CODE, offset 0x040 [15:8] (R499). -/
def rBOT_FAIL_CODE : Fld := ⟨1, 0x040, 8, 8, .ro, 0x0, 1, false⟩
/-- BOT_PATH, offset 0x040 [17:16] (R499). -/
def rBOT_PATH : Fld := ⟨1, 0x040, 16, 2, .ro, 0x0, 1, false⟩
/-- BOT_READY, offset 0x040 [18] (R499). -/
def rBOT_READY : Fld := ⟨1, 0x040, 18, 1, .ro, 0x0, 1, false⟩
/-- BOT_FALLBACK, offset 0x040 [19] (R499). -/
def rBOT_FALLBACK : Fld := ⟨1, 0x040, 19, 1, .ro, 0x0, 1, false⟩
/-- BOT_CAUSE, offset 0x044 [3:0] (R499). -/
def rBOT_CAUSE : Fld := ⟨1, 0x044, 0, 4, .ro, 0x0, 1, false⟩
/-- BOT_FW_SLOT, offset 0x044 [5:4] (R499). -/
def rBOT_FW_SLOT : Fld := ⟨1, 0x044, 4, 2, .ro, 0x0, 1, false⟩
/-- BOT_CFG_COPY, offset 0x044 [6] (R499). -/
def rBOT_CFG_COPY : Fld := ⟨1, 0x044, 6, 1, .ro, 0x0, 1, false⟩
/-- BOT_NOR_OK, offset 0x044 [11:7] (R499). -/
def rBOT_NOR_OK : Fld := ⟨1, 0x044, 7, 5, .ro, 0x0, 1, false⟩
/-- BOT_READY_MS, offset 0x048 [19:0] (R499). -/
def rBOT_READY_MS : Fld := ⟨1, 0x048, 0, 20, .ro, 0x0, 1, true⟩
/-- BOT_DIES_EXPECTED, offset 0x04C [10:0] (R499). -/
def rBOT_DIES_EXPECTED : Fld := ⟨1, 0x04C, 0, 11, .ro, 0x0, 1, false⟩
/-- BOT_DIES_IN_SERVICE, offset 0x04C [26:16] (R499). -/
def rBOT_DIES_IN_SERVICE : Fld := ⟨1, 0x04C, 16, 11, .ro, 0x0, 1, false⟩
/-- BOT_DIES_MISSING, offset 0x050 [10:0] (R499). -/
def rBOT_DIES_MISSING : Fld := ⟨1, 0x050, 0, 11, .ro, 0x0, 1, false⟩
/-- BOT_DIES_FOREIGN, offset 0x050 [26:16] (R499). -/
def rBOT_DIES_FOREIGN : Fld := ⟨1, 0x050, 16, 11, .ro, 0x0, 1, false⟩
/-- BOT_PHASE_MSk, offset 0x054 [15:0] (R499). -/
def rBOT_PHASE_MSk : Fld := ⟨1, 0x054, 0, 16, .ro, 0x0, 6, true⟩
/-- BOT_PHASE_MSk, offset 0x054 [31:16] (R499). -/
def rBOT_PHASE_MSk_16 : Fld := ⟨1, 0x054, 16, 16, .ro, 0x0, 6, true⟩
/-- BOT_SERIALk, offset 0x070 [31:0] (R499). -/
def rBOT_SERIALk : Fld := ⟨1, 0x070, 0, 32, .ro, 0x0, 4, false⟩
/-- BOT_MAC_LO, offset 0x080 [31:0] (R499). -/
def rBOT_MAC_LO : Fld := ⟨1, 0x080, 0, 32, .ro, 0x0, 1, false⟩
/-- BOT_MAC_HI, offset 0x084 [15:0] (R499). -/
def rBOT_MAC_HI : Fld := ⟨1, 0x084, 0, 16, .ro, 0x0, 1, false⟩
/-- BOT_PART, offset 0x088 [11:0] (R499). -/
def rBOT_PART : Fld := ⟨1, 0x088, 0, 12, .ro, 0x620, 1, false⟩
/-- BOT_GRADE, offset 0x088 [15:12] (R499). -/
def rBOT_GRADE : Fld := ⟨1, 0x088, 12, 4, .ro, 0x0, 1, false⟩
/-- BOT_STEPPING, offset 0x088 [23:16] (R499). -/
def rBOT_STEPPING : Fld := ⟨1, 0x088, 16, 8, .ro, 0x0, 1, false⟩
/-- BOT_DEBUG, offset 0x088 [25:24] (R499). -/
def rBOT_DEBUG : Fld := ⟨1, 0x088, 24, 2, .ro, 0x0, 1, false⟩
/-- EVL_NEWEST_LO, offset 0x040 [31:0] (R519). -/
def rEVL_NEWEST_LO : Fld := ⟨3, 0x040, 0, 32, .ro, 0x0, 1, false⟩
/-- EVL_NEWEST_HI, offset 0x044 [15:0] (R519). -/
def rEVL_NEWEST_HI : Fld := ⟨3, 0x044, 0, 16, .ro, 0x0, 1, false⟩
/-- EVL_OLDEST_LO, offset 0x048 [31:0] (R519). -/
def rEVL_OLDEST_LO : Fld := ⟨3, 0x048, 0, 32, .ro, 0x0, 1, false⟩
/-- EVL_OLDEST_HI, offset 0x04C [15:0] (R519). -/
def rEVL_OLDEST_HI : Fld := ⟨3, 0x04C, 0, 16, .ro, 0x0, 1, false⟩
/-- EVL_WMARK_LO, offset 0x050 [31:0] (R519). -/
def rEVL_WMARK_LO : Fld := ⟨3, 0x050, 0, 32, .rw, 0x0, 1, false⟩
/-- EVL_WMARK_HI, offset 0x054 [15:0] (R519). -/
def rEVL_WMARK_HI : Fld := ⟨3, 0x054, 0, 16, .rw, 0x0, 1, false⟩
/-- EVL_UNREAD, offset 0x058 [17:0] (R519). -/
def rEVL_UNREAD : Fld := ⟨3, 0x058, 0, 18, .ro, 0x0, 1, false⟩
/-- EVL_AEN_SEV, offset 0x05C [2:0] (R519). -/
def rEVL_AEN_SEV : Fld := ⟨3, 0x05C, 0, 3, .rw, 0x3, 1, false⟩
/-- EVL_BUCKET, offset 0x05C [14:8] (R519). -/
def rEVL_BUCKET : Fld := ⟨3, 0x05C, 8, 7, .rw, 0x8, 1, false⟩
/-- EVL_REFILL_S, offset 0x05C [27:16] (R519). -/
def rEVL_REFILL_S : Fld := ⟨3, 0x05C, 16, 12, .rw, 0x1, 1, false⟩
/-- EVL_QUEUE, offset 0x060 [10:0] (R519). -/
def rEVL_QUEUE : Fld := ⟨3, 0x060, 0, 11, .ro, 0x0, 1, false⟩
/-- EVL_SUPPRESSED, offset 0x064 [31:0] (R519). -/
def rEVL_SUPPRESSED : Fld := ⟨3, 0x064, 0, 32, .ro, 0x0, 1, true⟩
/-- EVL_TORN, offset 0x068 [15:0] (R519). -/
def rEVL_TORN : Fld := ⟨3, 0x068, 0, 16, .ro, 0x0, 1, false⟩
/-- EVL_CORRUPT, offset 0x068 [31:16] (R519). -/
def rEVL_CORRUPT : Fld := ⟨3, 0x068, 16, 16, .ro, 0x0, 1, false⟩
/-- EVL_UNREAD_LOST, offset 0x06C [15:0] (R519). -/
def rEVL_UNREAD_LOST : Fld := ⟨3, 0x06C, 0, 16, .ro, 0x0, 1, true⟩
/-- EVL_NOR_FAIL, offset 0x06C [31:16] (R519). -/
def rEVL_NOR_FAIL : Fld := ⟨3, 0x06C, 16, 16, .ro, 0x0, 1, true⟩
/-- EVL_OVR_CODEk, offset 0x070 [15:0] (R519). -/
def rEVL_OVR_CODEk : Fld := ⟨3, 0x070, 0, 16, .rw, 0x0, 16, false⟩
/-- EVL_OVR_DEPTHk, offset 0x070 [21:16] (R519). -/
def rEVL_OVR_DEPTHk : Fld := ⟨3, 0x070, 16, 6, .rw, 0x0, 16, false⟩
/-- EVL_OVR_REFILLk, offset 0x070 [31:22] (R519). -/
def rEVL_OVR_REFILLk : Fld := ⟨3, 0x070, 22, 10, .rw, 0x0, 16, false⟩
/-- EVL_CUR_LO, offset 0x100 [31:0] (R519). -/
def rEVL_CUR_LO : Fld := ⟨3, 0x100, 0, 32, .rw, 0x0, 1, false⟩
/-- EVL_CUR_HI, offset 0x104 [15:0] (R519). -/
def rEVL_CUR_HI : Fld := ⟨3, 0x104, 0, 16, .rw, 0x0, 1, false⟩
/-- EVL_LOAD, offset 0x108 [0] (R519). -/
def rEVL_LOAD : Fld := ⟨3, 0x108, 0, 1, .w1s, 0x0, 1, false⟩
/-- EVL_NEXT, offset 0x108 [1] (R519). -/
def rEVL_NEXT : Fld := ⟨3, 0x108, 1, 1, .w1s, 0x0, 1, false⟩
/-- EVL_VALID, offset 0x10C [0] (R519). -/
def rEVL_VALID : Fld := ⟨3, 0x10C, 0, 1, .ro, 0x0, 1, false⟩
/-- EVL_RESULT, offset 0x10C [2:1] (R519). -/
def rEVL_RESULT : Fld := ⟨3, 0x10C, 1, 2, .ro, 0x0, 1, false⟩
/-- EVL_SEQ, offset 0x10C [31:16] (R519). -/
def rEVL_SEQ : Fld := ⟨3, 0x10C, 16, 16, .ro, 0x0, 1, false⟩
/-- EVL_WIN, offset 0x110 [31:0] (R519). -/
def rEVL_WIN : Fld := ⟨3, 0x110, 0, 32, .ro, 0x0, 16, false⟩
/-- BOT_PEND, offset 0x0C0 [22:1] (R536). -/
def rBOT_PEND : Fld := ⟨1, 0x0C0, 1, 22, .ro, 0x0, 1, false⟩
/-- BOT_FCH_PEND, offset 0x0C4 [31:0] (R536). -/
def rBOT_FCH_PEND : Fld := ⟨1, 0x0C4, 0, 32, .ro, 0x0, 1, false⟩
/-- BOT_BAD_SIZE, offset 0x0C8 [15:0] (R536). -/
def rBOT_BAD_SIZE : Fld := ⟨1, 0x0C8, 0, 16, .ro, 0x0, 1, true⟩
/-- BOT_SEALED_WR, offset 0x0C8 [31:16] (R536). -/
def rBOT_SEALED_WR : Fld := ⟨1, 0x0C8, 16, 16, .ro, 0x0, 1, true⟩
/-- CPX_RUNNING, offset 0x040 [15:0] (R537). -/
def rCPX_RUNNING : Fld := ⟨22, 0x040, 0, 16, .ro, 0x0, 1, false⟩
/-- CPX_HEARTBEAT, offset 0x044 [31:0] (R537). -/
def rCPX_HEARTBEAT : Fld := ⟨22, 0x044, 0, 32, .ro, 0x0, 1, false⟩
/-- CPX_FW_STOPPED, offset 0x048 [0] (R537). -/
def rCPX_FW_STOPPED : Fld := ⟨22, 0x048, 0, 1, .ro, 0x0, 1, false⟩

/-- The fields of the THM page. -/
def fieldsTHM : List Fld :=
  [rTHM_ACT, rTHM_FORCE, rTHM_RISE_WARN, rTHM_RISE_THR, rTHM_RELIGHT_C] ++
  [rTHM_FAST_FORCE, rTHM_PKG_TP, rTHM_LEVEL, rTHM_L_ABS, rTHM_L_RISE] ++
  [rTHM_L_POWER, rTHM_PS, rTHM_FAST, rTHM_WARN, rTHM_P_CTRL] ++
  [rTHM_P_BUDGET, rTHM_T_CTRL, rTHM_T_PKG, rTHM_HOT_NODE, rTHM_RISE_MAX] ++
  [rTHM_DIODEj, rTHM_GAPj, rTHM_SENSE_BAD_LO, rTHM_SENSE_BAD_HI, rTHM_CH_SEL] ++
  [rTHM_CH_RAW, rTHM_CH_VAL, rTHM_SNUFFS, rTHM_THROTTLE_S, rTHM_RELIGHT_WAIT]

/-- The fields of the STP page. -/
def fieldsSTP : List Fld :=
  [rSTP_OVR_TOTAL, rSTP_OVR_RUN, rSTP_OVR_MAXRUN, rSTP_PHASE, rSTP_DUTY] ++
  [rSTP_DGRAM_EN, rSTP_IPV6, rSTP_PORT, rSTP_VLAN_ID, rSTP_VLAN_EN] ++
  [rSTP_DST_PORT, rSTP_SRC_PORT, rSTP_IPk, rSTP_BROKEN, rSTP_DGRAM_SENT] ++
  [rSTP_READ_WAIT, rSTP_TURN_STRIDES, rSTP_RUN_GROUPS, rSTP_REBUILD_PCT, rSTP_GROOM_BASE] ++
  [rSTP_RCL_NOW, rSTP_GROOM_NOW, rSTP_REBUILD_NOW, rSTP_THROTTLE, rSTP_DEGRADED] ++
  [rSTP_OPEN_CLASS, rSTP_CLASSES, rSTP_STRETCH, rSTP_RA_COUNT, rSTP_DEGRADED_READS] ++
  [rSTP_RA_SHORT, rSTP_TURN_WAIT, rSTP_RA_SLOT_CREDIT, rSTP_RA_DIE_CREDIT, rSTP_D_GALLOP] ++
  [rSTP_D_CANTER, rSTP_D_TROT, rSTP_DD_GALLOP, rSTP_DD_CANTER, rSTP_DD_TROT] ++
  [rSTP_ENG_AGE_LIMIT, rSTP_ENG_PREEMPT, rSTP_ENG_PROMOTED, rSTP_ENG_STALLS]

/-- The fields of the TBS page. -/
def fieldsTBS : List Fld :=
  [rTBS_SEC_LO, rTBS_SEC_HI, rTBS_ORIGIN, rTBS_STRIDE, rTBS_NS] ++
  [rTBS_EN, rTBS_DIFF, rTBS_POL, rTBS_STEP_EN, rTBS_PPS_OFFSET] ++
  [rTBS_STATE, rTBS_POL_INV, rTBS_FREQ_OK, rTBS_HOLD_S, rTBS_PHASE_ERR] ++
  [rTBS_FREQ_ERR, rTBS_GLITCH, rTBS_STEPS, rTBS_HOURS, rTBS_HOUR_SEC] ++
  [rTBS_PCYCLE, rTBS_SET_LO, rTBS_SET_HI, rTBS_GO]

/-- The fields of the QMX page. -/
def fieldsQMX : List Fld :=
  [rQMX_DRAIN_STRIDES, rQMX_STALL_STRIDES, rQMX_DEPTHg, rQMX_TAGS_IN_USE, rQMX_SQDEL] ++
  [rQMX_BADDB, rQMX_FETCH_STOP, rQMX_WTHRU, rQMX_OVL_WAIT]

/-- The fields of the TEN page. -/
def fieldsTEN : List Fld :=
  [rTEN_POOL_SLOTS, rTEN_POOL_DIES, rTEN_AVAIL_SLOTS, rTEN_AVAIL_DIES, rTEN_PROM_SLOTS] ++
  [rTEN_PROM_DIES, rTEN_BG_MAX, rTEN_WB_AVAIL_MIB, rTEN_WB_PROM_MIB, rTEN_TAGS_FREE] ++
  [rTEN_QP_FREE, rTEN_TETHERED, rTEN_ACTIVE, rTEN_SCALE_SLOT, rTEN_SCALE_DIE] ++
  [rTEN_FLR_COUNT, rTEN_MIG_SAVES, rTEN_MIG_SERIAL_LO, rTEN_MIG_SERIAL_HI]

/-- The fields of the MAP page. -/
def fieldsMAP : List Fld :=
  [rMAP_BLOCKS, rMAP_WLS, rMAP_PLANES, rMAP_BITS, rMAP_PU_GRAN] ++
  [rMAP_SLOTS_DIE, rMAP_FINE_TOTAL, rMAP_FINE_FREE, rMAP_LOW_PCT, rMAP_HIGH_PCT] ++
  [rMAP_MIN_AGE, rMAP_THRESH, rMAP_CKPT_NOW, rMAP_DELTA_FILL, rMAP_CKPT_BUSY] ++
  [rMAP_CKPT_NUM_LO, rMAP_CKPT_NUM_HI, rMAP_STREAMS_BOUND, rMAP_STREAMS_SHARED, rMAP_ZONES_OPEN] ++
  [rMAP_PROMOTE, rMAP_DEMOTE, rMAP_DEMOTE_ABORT, rMAP_FINE_WAIT]

/-- The fields of the WBF page. -/
def fieldsWBF : List Fld :=
  [rWBF_BUF_CEIL, rWBF_SLOTS_TOTAL, rWBF_SLOTS_FREE, rWBF_SLOTS_ACK, rWBF_SLOTS_FILLING] ++
  [rWBF_SLICES, rWBF_TGT_STREAMS, rWBF_IDLE_STRIDES, rWBF_PAD_GRAN, rWBF_ABSORBED] ++
  [rWBF_IDLE_CLOSE, rWBF_FORCED_CLOSE, rWBF_ASM_FREE, rWBF_STREAM_SEL, rWBF_ROW_STATE] ++
  [rWBF_MEMBERS, rWBF_TARGETS, rWBF_STREAM_HELD, rWBF_ROW_SERIAL]

/-- The fields of the FCH page. -/
def fieldsFCH : List Fld :=
  [rFCH_RATE, rFCH_SLOTS, rFCH_IN_SERVICE, rFCH_IFACE, rFCH_DIES_PRESENT] ++
  [rFCH_DIES_SERVICE, rFCH_RATE_CAP, rFCH_FCH_BURST, rFCH_AGE_LIMIT, rFCH_PROG_INTERVAL] ++
  [rFCH_ERASE_INTERVAL, rFCH_PROG_CAP, rFCH_ERASE_CAP, rFCH_TAIL, rFCH_MAX_READS] ++
  [rFCH_READ_REQ_MAX, rFCH_PERIOD_MS, rFCH_DTEMP, rFCH_PROMOTED, rFCH_PREEMPT] ++
  [rFCH_SLOTS_DATA, rFCH_SLOTS_CMD, rFCH_SLOTS_IDLE, rFCH_REINS, rFCH_REFUSED] ++
  [rFCH_ON_BUSY, rFCH_BUSY_LIMIT, rFCH_PROG_FAIL, rFCH_ERASE_FAIL, rFCH_TIMEOUT] ++
  [rFCH_UNDER_ERASE, rFCH_PIN_GO, rFCH_PIN_SHORT, rFCH_PIN_OPEN, rFCH_RING_BASE] ++
  [rFCH_CRING_BASE, rFCH_CRING_HEAD, rFCH_CRING_TAIL, rFCH_TICK, rFCH_DIE_SEL] ++
  [rFCH_OP, rFCH_SUSPENDED, rFCH_REINABLE, rFCH_OUT, rFCH_ARMED] ++
  [rFCH_REIN_USED, rFCH_RUN, rFCH_RING_USED, rFCH_TO_RUN, rFCH_INTENT_ACT] ++
  [rFCH_INTENT_STBY, rFCH_INTENT_FREE, rFCH_REERASE]

/-- The fields of the LDC page. -/
def fieldsLDC : List Fld :=
  [rLDC_HARD_AVAIL, rLDC_SOFT_AVAIL, rLDC_HARD_ITER, rLDC_SOFT_ITER, rLDC_TRACK_MIN] ++
  [rLDC_TRACK_WINDOW, rLDC_DECODED, rLDC_HARD_FAIL, rLDC_STEP2_OK, rLDC_STEP3_OK] ++
  [rLDC_STEP4_OK, rLDC_STEP5_OK, rLDC_UNRECOVERED, rLDC_MISDIRECT, rLDC_CRC_ENC] ++
  [rLDC_CRC_DEC, rLDC_BITS_LO, rLDC_BITS_HI, rLDC_PEAK, rLDC_POISON_WAIT] ++
  [rLDC_INJ_DIE, rLDC_INJ_ARM, rLDC_INJ_BITS]

/-- The fields of the PAR page. -/
def fieldsPAR : List Fld :=
  [rPAR_DECLUSTERED, rPAR_K, rPAR_F, rPAR_GEN, rPAR_SPANS] ++
  [rPAR_SPARE_PCT, rPAR_SPARE_DIE, rPAR_GROOM_DAYS, rPAR_REFRESH_BITS, rPAR_RB_RECLAIM_PCT] ++
  [rPAR_JR_FLUSH, rPAR_JDIEm, rPAR_IN_SERVICE, rPAR_REHOMING, rPAR_RB_STATE] ++
  [rPAR_LOST_DIES, rPAR_RAW_EN, rPAR_ROWS_TWO, rPAR_ROWS_ONE, rPAR_ROWS_DONE] ++
  [rPAR_PROXIES, rPAR_THIRD_LOSS, rPAR_REHOMES, rPAR_GROOM_ROWS, rPAR_MISMATCH] ++
  [rPAR_FIXED, rPAR_UNRESOLVED, rPAR_RELOCATED, rPAR_GROOM_AGE_H, rPAR_JSEQ_LO] ++
  [rPAR_JSEQ_HI]

/-- The fields of the RCL page. -/
def fieldsRCL : List Fld :=
  [rRCL_LOW_BP, rRCL_URGENT_BP, rRCL_FLOOR_BP, rRCL_OP_PCT, rRCL_AGE_SPLIT_H] ++
  [rRCL_WL_SPREAD, rRCL_RATED_PE, rRCL_SPANS_LIVE, rRCL_PADDOCK, rRCL_RELEASED] ++
  [rRCL_RETIRED, rRCL_LOW_SPANS, rRCL_URGENT_SPANS, rRCL_FLOOR_SPANS, rRCL_DELTA] ++
  [rRCL_THROTTLING, rRCL_FLOOR_HOLD, rRCL_READ_ONLY, rRCL_WL_ACTIVE, rRCL_WRITE_CREDIT] ++
  [rRCL_AVG_EC, rRCL_MAX_EC, rRCL_MIN_EC, rRCL_SPARE_TOTAL, rRCL_SPARE_USED] ++
  [rRCL_PCT_USED, rRCL_AVAIL_SPARE, rRCL_VICTIMS, rRCL_WL_VICTIMS, rRCL_RETIRE_BLOCKS] ++
  [rRCL_TARGET_FAIL, rRCL_COPY_LO, rRCL_COPY_HI, rRCL_HOST_LO, rRCL_HOST_HI]

/-- The fields of the DMC page. -/
def fieldsDMC : List Fld :=
  [rDMC_SPEED, rDMC_RANKS, rDMC_X16, rDMC_D32G, rDMC_SIZE_GIB] ++
  [rDMC_WCRC, rDMC_CAPAR, rDMC_HPPR, rDMC_REF_2X, rDMC_WQ_HIGH] ++
  [rDMC_WQ_LOW, rDMC_PRED_EN, rDMC_OSC_STRIDES, rDMC_DRIFT, rDMC_REFETCH_OK] ++
  [rDMC_RECOMPUTED, rDMC_WCRC_RETRY, rDMC_CAPAR_RETRY, rDMC_FROZEN, rDMC_CAUSE] ++
  [rDMC_DUMP_GO, rDMC_DUMP_BUSY, rDMC_DUMP_DONE, rDMC_LOST_LINES, rDMC_REMAPPED] ++
  [rDMC_PPR, rDMC_SELFTEST, rDMC_WQ_DEPTH, rDMC_FAIL_SC, rDMC_FAIL_QTR] ++
  [rDMC_LCRC_BAD, rDMC_TAG_BAD, rDMC_DIAG_LINE]

/-- The fields of the SRM page. -/
def fieldsSRM : List Fld :=
  [rSRM_WORD_ERR, rSRM_RECOMPUTED, rSRM_FABRIC_RESEND, rSRM_FABRIC_FAIL, rSRM_LAST_POOL] ++
  [rSRM_LAST_BANK]

/-- The fields of the KEY page. -/
def fieldsKEY : List Fld :=
  [rKEY_SLOT_SEL, rKEY_STATE, rKEY_CLASS, rKEY_SOURCE, rKEY_OWNER] ++
  [rKEY_KEY_ID, rKEY_KCV_LO, rKEY_KCV_HI, rKEY_LOADED, rKEY_SESSIONS] ++
  [rKEY_STORE_OK, rKEY_STORE_BUSY, rKEY_HEALTH_OK, rKEY_RESEEDS, rKEY_IMG_KEY] ++
  [rKEY_REVOKED, rKEY_SVN_FUSED, rKEY_SVN_RUN, rKEY_LOADS, rKEY_UNWRAP_FAIL] ++
  [rKEY_CERASE, rKEY_IMG_REJECT, rKEY_MEAS, rKEY_ALIAS_OK, rKEY_CERT_OK]

/-- The fields of the CIP page. -/
def fieldsCIP : List Fld :=
  [rCIP_LANES, rCIP_CTX_USED, rCIP_HOLD_USED, rCIP_HOLD_RSV, rCIP_GRAN_ENC] ++
  [rCIP_GRAN_DEC, rCIP_TAG_FAIL, rCIP_SUSPEND, rCIP_RESTART, rCIP_CTX_FULL] ++
  [rCIP_TLS_REC, rCIP_TLS_AUTH_FAIL, rCIP_KEY_UPDATE, rCIP_HOLD_WAIT]

/-- The fields of the HIF page. -/
def fieldsHIF : List Fld :=
  [rHIF_SPEEDp, rHIF_WIDTHp, rHIF_FLITp, rHIF_DUAL, rHIF_MAX_SPEED] ++
  [rHIF_CLOSE, rHIF_NUMVFS0, rHIF_NUMVFS1, rHIF_OWNED, rHIF_OWNER_PORT] ++
  [rHIF_DENIED, rHIF_IDE_SECURE, rHIF_IDE_INSECURE, rHIF_AER_CE, rHIF_AER_UE] ++
  [rHIF_FLR, rHIF_LINK_DOWN, rHIF_VF_PORTk]

/-- The fields of the NET page. -/
def fieldsNET : List Fld :=
  [rNET_P0_MODE, rNET_P1_MODE, rNET_P0_ONE_LANE, rNET_P1_ONE_LANE, rNET_LINK] ++
  [rNET_IF_SEL, rNET_VLAN_ID, rNET_VLAN_EN, rNET_PFC_PRIO, rNET_PFC_EN] ++
  [rNET_ECN_EN, rNET_MTU, rNET_IPV4, rNET_V4_PREFIX, rNET_GW4] ++
  [rNET_IPV6k, rNET_V6_PREFIX, rNET_DSCP_GAITk, rNET_TCP_PORT, rNET_DISC_PORT] ++
  [rNET_TCP_EN, rNET_RDMA_EN, rNET_DISC_EN, rNET_DSCP_DISC, rNET_DSCP_TX] ++
  [rNET_FUNC_SEL, rNET_TLS_REQ, rNET_TCP_OK, rNET_RDMA_OK, rNET_ANY_HOST] ++
  [rNET_PSK_GEN, rNET_ACL, rNET_ASSOC_USED, rNET_NQP_USED, rNET_TLS_USED] ++
  [rNET_CONN_REFUSED, rNET_KATO]

/-- The fields of the SBI page. -/
def fieldsSBI : List Fld :=
  [rSBI_SMB_ADDR, rSBI_SMB_SPEED, rSBI_EID, rSBI_UART_BAUD, rSBI_UART_IN_EN] ++
  [rSBI_JTAG_REG_EN, rSBI_GPIO_DIR, rSBI_GPIO_OD, rSBI_GPIO_OUT, rSBI_GPIO_IN] ++
  [rSBI_GPIO_FUNC, rSBI_MCTP_RX, rSBI_PEC_ERR]

/-- The fields of the HLD page. -/
def fieldsHLD : List Fld :=
  [rHLD_ENERGY, rHLD_NO_HOLDUP, rHLD_TEST_BUSY, rHLD_CHARGED, rHLD_V_BANK] ++
  [rHLD_V_MIN, rHLD_TEST_S, rHLD_ETA_PCT, rHLD_C_MIN_PCT, rHLD_TEST_NOW] ++
  [rHLD_STR_SEL, rHLD_STR_FITTED, rHLD_STR_ISO, rHLD_STATE, rHLD_C_UF] ++
  [rHLD_ESR, rHLD_C_NOM, rHLD_LAST, rHLD_BUSY, rHLD_READY_PCT] ++
  [rHLD_LAST_MS, rHLD_DUMPS, rHLD_DUMP_FAILS, rHLD_LAST_MIB, rHLD_RESERVE_BLOCKS] ++
  [rHLD_DEFERS]

/-- The fields of the BOT page. -/
def fieldsBOT : List Fld :=
  [rBOT_PHASE, rBOT_FAIL_PHASE, rBOT_FAIL_CODE, rBOT_PATH, rBOT_READY] ++
  [rBOT_FALLBACK, rBOT_CAUSE, rBOT_FW_SLOT, rBOT_CFG_COPY, rBOT_NOR_OK] ++
  [rBOT_READY_MS, rBOT_DIES_EXPECTED, rBOT_DIES_IN_SERVICE, rBOT_DIES_MISSING, rBOT_DIES_FOREIGN] ++
  [rBOT_PHASE_MSk, rBOT_PHASE_MSk_16, rBOT_SERIALk, rBOT_MAC_LO, rBOT_MAC_HI] ++
  [rBOT_PART, rBOT_GRADE, rBOT_STEPPING, rBOT_DEBUG, rBOT_PEND] ++
  [rBOT_FCH_PEND, rBOT_BAD_SIZE, rBOT_SEALED_WR]

/-- The fields of the EVL page. -/
def fieldsEVL : List Fld :=
  [rEVL_NEWEST_LO, rEVL_NEWEST_HI, rEVL_OLDEST_LO, rEVL_OLDEST_HI, rEVL_WMARK_LO] ++
  [rEVL_WMARK_HI, rEVL_UNREAD, rEVL_AEN_SEV, rEVL_BUCKET, rEVL_REFILL_S] ++
  [rEVL_QUEUE, rEVL_SUPPRESSED, rEVL_TORN, rEVL_CORRUPT, rEVL_UNREAD_LOST] ++
  [rEVL_NOR_FAIL, rEVL_OVR_CODEk, rEVL_OVR_DEPTHk, rEVL_OVR_REFILLk, rEVL_CUR_LO] ++
  [rEVL_CUR_HI, rEVL_LOAD, rEVL_NEXT, rEVL_VALID, rEVL_RESULT] ++
  [rEVL_SEQ, rEVL_WIN]

/-- The fields of the CPX page. -/
def fieldsCPX : List Fld :=
  [rCPX_RUNNING, rCPX_HEARTBEAT, rCPX_FW_STOPPED]

/-- The block-specific fields of a block by index. -/
def fieldsOf (blk : Nat) : List Fld :=
  match blk with
  | 1 => fieldsBOT
  | 2 => fieldsTBS
  | 3 => fieldsEVL
  | 4 => fieldsTHM
  | 5 => fieldsHLD
  | 6 => fieldsKEY
  | 7 => fieldsCIP
  | 8 => fieldsHIF
  | 9 => fieldsNET
  | 10 => fieldsSBI
  | 11 => fieldsQMX
  | 12 => fieldsTEN
  | 13 => fieldsMAP
  | 14 => fieldsSTP
  | 15 => fieldsWBF
  | 16 => fieldsPAR
  | 17 => fieldsRCL
  | 18 => fieldsLDC
  | 19 => fieldsFCH
  | 20 => fieldsDMC
  | 21 => fieldsSRM
  | 22 => fieldsCPX
  | _ => []

/-! ## Event bits of the pages and event codes of the ledger (R517) -/

/-- TBS_EVT_RAW bit 0, PPS_LOCK. -/
def eTBS_PPS_LOCK : Nat × Nat := (2, 0)
/-- TBS_EVT_RAW bit 1, PPS_LOST. -/
def eTBS_PPS_LOST : Nat × Nat := (2, 1)
/-- TBS_EVT_RAW bit 2, STEP. -/
def eTBS_STEP : Nat × Nat := (2, 2)
/-- TBS_EVT_RAW bit 3, GLITCH. -/
def eTBS_GLITCH : Nat × Nat := (2, 3)
/-- TBS_EVT_RAW bit 4, SEC_SET. -/
def eTBS_SEC_SET : Nat × Nat := (2, 4)
/-- TBS_EVT_RAW bit 5, MINUTE. -/
def eTBS_MINUTE : Nat × Nat := (2, 5)
/-- QMX_EVT_RAW bit 0, CQ_STALL. -/
def eQMX_CQ_STALL : Nat × Nat := (11, 0)
/-- QMX_EVT_RAW bit 1, ACT_START. -/
def eQMX_ACT_START : Nat × Nat := (11, 1)
/-- QMX_EVT_RAW bit 2, ACT_DONE. -/
def eQMX_ACT_DONE : Nat × Nat := (11, 2)
/-- QMX_EVT_RAW bit 3, WTHRU. -/
def eQMX_WTHRU : Nat × Nat := (11, 3)
/-- QMX_EVT_RAW bit 4, BADDB. -/
def eQMX_BADDB : Nat × Nat := (11, 4)
/-- TEN_EVT_RAW bit 0, POOL_SHORT. -/
def eTEN_POOL_SHORT : Nat × Nat := (12, 0)
/-- TEN_EVT_RAW bit 1, FLR. -/
def eTEN_FLR : Nat × Nat := (12, 1)
/-- TEN_EVT_RAW bit 2, FREEZE_LATE. -/
def eTEN_FREEZE_LATE : Nat × Nat := (12, 2)
/-- TEN_EVT_RAW bit 3, SAVE. -/
def eTEN_SAVE : Nat × Nat := (12, 3)
/-- TEN_EVT_RAW bit 4, RESTORE. -/
def eTEN_RESTORE : Nat × Nat := (12, 4)
/-- TEN_EVT_RAW bit 5, ABANDON. -/
def eTEN_ABANDON : Nat × Nat := (12, 5)
/-- TEN_EVT_RAW bit 6, REJECT. -/
def eTEN_REJECT : Nat × Nat := (12, 6)
/-- MAP_EVT_RAW bit 0, FINE_LOW. -/
def eMAP_FINE_LOW : Nat × Nat := (13, 0)
/-- MAP_EVT_RAW bit 1, FINE_EMPTY. -/
def eMAP_FINE_EMPTY : Nat × Nat := (13, 1)
/-- MAP_EVT_RAW bit 2, CKPT_DONE. -/
def eMAP_CKPT_DONE : Nat × Nat := (13, 2)
/-- MAP_EVT_RAW bit 3, DELTA_FULL. -/
def eMAP_DELTA_FULL : Nat × Nat := (13, 3)
/-- MAP_EVT_RAW bit 4, REPLAY_LOSS. -/
def eMAP_REPLAY_LOSS : Nat × Nat := (13, 4)
/-- MAP_EVT_RAW bit 5, SEQ_LIMIT. -/
def eMAP_SEQ_LIMIT : Nat × Nat := (13, 5)
/-- WBF_EVT_RAW bit 0, CEIL_DROP. -/
def eWBF_CEIL_DROP : Nat × Nat := (15, 0)
/-- WBF_EVT_RAW bit 1, CEIL_CHANGE. -/
def eWBF_CEIL_CHANGE : Nat × Nat := (15, 1)
/-- WBF_EVT_RAW bit 2, ASM_WAIT. -/
def eWBF_ASM_WAIT : Nat × Nat := (15, 2)
/-- WBF_EVT_RAW bit 3, FORCED_CLOSE. -/
def eWBF_FORCED_CLOSE : Nat × Nat := (15, 3)
/-- WBF_EVT_RAW bit 4, REPLAY. -/
def eWBF_REPLAY : Nat × Nat := (15, 4)
/-- FCH_EVT_RAW bit 0, TRAIN_DONE. -/
def eFCH_TRAIN_DONE : Nat × Nat := (19, 0)
/-- FCH_EVT_RAW bit 1, RATE_DROP. -/
def eFCH_RATE_DROP : Nat × Nat := (19, 1)
/-- FCH_EVT_RAW bit 2, CH_OUT. -/
def eFCH_CH_OUT : Nat × Nat := (19, 2)
/-- FCH_EVT_RAW bit 3, DIE_OUT. -/
def eFCH_DIE_OUT : Nat × Nat := (19, 3)
/-- FCH_EVT_RAW bit 4, PROG_FAIL. -/
def eFCH_PROG_FAIL : Nat × Nat := (19, 4)
/-- FCH_EVT_RAW bit 5, ERASE_FAIL. -/
def eFCH_ERASE_FAIL : Nat × Nat := (19, 5)
/-- FCH_EVT_RAW bit 6, TIMEOUT. -/
def eFCH_TIMEOUT : Nat × Nat := (19, 6)
/-- FCH_EVT_RAW bit 7, PIN_FAULT. -/
def eFCH_PIN_FAULT : Nat × Nat := (19, 7)
/-- FCH_EVT_RAW bit 8, BAD_DESC. -/
def eFCH_BAD_DESC : Nat × Nat := (19, 8)
/-- FCH_EVT_RAW bit 9, REIN_CAP. -/
def eFCH_REIN_CAP : Nat × Nat := (19, 9)
/-- FCH_EVT_RAW bit 10, CRING_FULL. -/
def eFCH_CRING_FULL : Nat × Nat := (19, 10)
/-- FCH_EVT_RAW bit 11, REERASE. -/
def eFCH_REERASE : Nat × Nat := (19, 11)
/-- STP_EVT_RAW bit 0, OVERRUN_RUN. -/
def eSTP_OVERRUN_RUN : Nat × Nat := (14, 0)
/-- STP_EVT_RAW bit 1, LIT_BROKEN. -/
def eSTP_LIT_BROKEN : Nat × Nat := (14, 1)
/-- STP_EVT_RAW bit 2, RA_SHORT. -/
def eSTP_RA_SHORT : Nat × Nat := (14, 2)
/-- STP_EVT_RAW bit 3, THROTTLE. -/
def eSTP_THROTTLE : Nat × Nat := (14, 3)
/-- STP_EVT_RAW bit 4, DEGRADED. -/
def eSTP_DEGRADED : Nat × Nat := (14, 4)
/-- STP_EVT_RAW bit 5, GROOM_DEADLINE. -/
def eSTP_GROOM_DEADLINE : Nat × Nat := (14, 5)
/-- STP_EVT_RAW bit 6, STRETCH. -/
def eSTP_STRETCH : Nat × Nat := (14, 6)
/-- STP_EVT_RAW bit 7, ENG_FULL. -/
def eSTP_ENG_FULL : Nat × Nat := (14, 7)
/-- LDC_EVT_RAW bit 0, UNRECOVERED. -/
def eLDC_UNRECOVERED : Nat × Nat := (18, 0)
/-- LDC_EVT_RAW bit 1, CRC_ENC. -/
def eLDC_CRC_ENC : Nat × Nat := (18, 1)
/-- LDC_EVT_RAW bit 2, CRC_DEC. -/
def eLDC_CRC_DEC : Nat × Nat := (18, 2)
/-- LDC_EVT_RAW bit 3, MISDIRECT. -/
def eLDC_MISDIRECT : Nat × Nat := (18, 3)
/-- LDC_EVT_RAW bit 4, POISON_WAIT. -/
def eLDC_POISON_WAIT : Nat × Nat := (18, 4)
/-- LDC_EVT_RAW bit 5, INJECTED. -/
def eLDC_INJECTED : Nat × Nat := (18, 5)
/-- PAR_EVT_RAW bit 0, DIE_LOST. -/
def ePAR_DIE_LOST : Nat × Nat := (16, 0)
/-- PAR_EVT_RAW bit 1, REBUILD_DONE. -/
def ePAR_REBUILD_DONE : Nat × Nat := (16, 1)
/-- PAR_EVT_RAW bit 2, THIRD_LOSS. -/
def ePAR_THIRD_LOSS : Nat × Nat := (16, 2)
/-- PAR_EVT_RAW bit 3, REHOME. -/
def ePAR_REHOME : Nat × Nat := (16, 3)
/-- PAR_EVT_RAW bit 4, GROOM_MISMATCH. -/
def ePAR_GROOM_MISMATCH : Nat × Nat := (16, 4)
/-- PAR_EVT_RAW bit 5, GROOM_FIX. -/
def ePAR_GROOM_FIX : Nat × Nat := (16, 5)
/-- PAR_EVT_RAW bit 6, NO_SPARE. -/
def ePAR_NO_SPARE : Nat × Nat := (16, 6)
/-- PAR_EVT_RAW bit 7, JRN_LOW. -/
def ePAR_JRN_LOW : Nat × Nat := (16, 7)
/-- PAR_EVT_RAW bit 8, CYCLE_DONE. -/
def ePAR_CYCLE_DONE : Nat × Nat := (16, 8)
/-- RCL_EVT_RAW bit 0, LOW. -/
def eRCL_LOW : Nat × Nat := (17, 0)
/-- RCL_EVT_RAW bit 1, URGENT. -/
def eRCL_URGENT : Nat × Nat := (17, 1)
/-- RCL_EVT_RAW bit 2, FLOOR. -/
def eRCL_FLOOR : Nat × Nat := (17, 2)
/-- RCL_EVT_RAW bit 3, RETIRE. -/
def eRCL_RETIRE : Nat × Nat := (17, 3)
/-- RCL_EVT_RAW bit 4, TARGET_FAIL. -/
def eRCL_TARGET_FAIL : Nat × Nat := (17, 4)
/-- RCL_EVT_RAW bit 5, NO_SUBST. -/
def eRCL_NO_SUBST : Nat × Nat := (17, 5)
/-- RCL_EVT_RAW bit 6, WL. -/
def eRCL_WL : Nat × Nat := (17, 6)
/-- RCL_EVT_RAW bit 7, READ_ONLY. -/
def eRCL_READ_ONLY : Nat × Nat := (17, 7)
/-- RCL_EVT_RAW bit 8, LIFE_100. -/
def eRCL_LIFE_100 : Nat × Nat := (17, 8)
/-- DMC_EVT_RAW bit 0, REFETCH_OK. -/
def eDMC_REFETCH_OK : Nat × Nat := (20, 0)
/-- DMC_EVT_RAW bit 1, RECOMPUTE. -/
def eDMC_RECOMPUTE : Nat × Nat := (20, 1)
/-- DMC_EVT_RAW bit 2, FREEZE. -/
def eDMC_FREEZE : Nat × Nat := (20, 2)
/-- DMC_EVT_RAW bit 3, LOST. -/
def eDMC_LOST : Nat × Nat := (20, 3)
/-- DMC_EVT_RAW bit 4, WCRC. -/
def eDMC_WCRC : Nat × Nat := (20, 4)
/-- DMC_EVT_RAW bit 5, CAPAR. -/
def eDMC_CAPAR : Nat × Nat := (20, 5)
/-- DMC_EVT_RAW bit 6, RETRAIN. -/
def eDMC_RETRAIN : Nat × Nat := (20, 6)
/-- DMC_EVT_RAW bit 7, SELFTEST_FAIL. -/
def eDMC_SELFTEST_FAIL : Nat × Nat := (20, 7)
/-- DMC_EVT_RAW bit 8, REMAP. -/
def eDMC_REMAP : Nat × Nat := (20, 8)
/-- SRM_EVT_RAW bit 0, WORD_ERR. -/
def eSRM_WORD_ERR : Nat × Nat := (21, 0)
/-- SRM_EVT_RAW bit 1, RECOMPUTE. -/
def eSRM_RECOMPUTE : Nat × Nat := (21, 1)
/-- SRM_EVT_RAW bit 2, FABRIC_RESEND. -/
def eSRM_FABRIC_RESEND : Nat × Nat := (21, 2)
/-- SRM_EVT_RAW bit 3, FATAL. -/
def eSRM_FATAL : Nat × Nat := (21, 3)
/-- KEY_EVT_RAW bit 0, LOAD. -/
def eKEY_LOAD : Nat × Nat := (6, 0)
/-- KEY_EVT_RAW bit 1, UNWRAP_FAIL. -/
def eKEY_UNWRAP_FAIL : Nat × Nat := (6, 1)
/-- KEY_EVT_RAW bit 2, CRYPTO_ERASE. -/
def eKEY_CRYPTO_ERASE : Nat × Nat := (6, 2)
/-- KEY_EVT_RAW bit 3, IMAGE_REJECT. -/
def eKEY_IMAGE_REJECT : Nat × Nat := (6, 3)
/-- KEY_EVT_RAW bit 4, DRBG_FAIL. -/
def eKEY_DRBG_FAIL : Nat × Nat := (6, 4)
/-- KEY_EVT_RAW bit 5, STORE_FAIL. -/
def eKEY_STORE_FAIL : Nat × Nat := (6, 5)
/-- KEY_EVT_RAW bit 6, CERT_BAD. -/
def eKEY_CERT_BAD : Nat × Nat := (6, 6)
/-- KEY_EVT_RAW bit 7, SVN_COMMIT. -/
def eKEY_SVN_COMMIT : Nat × Nat := (6, 7)
/-- CIP_EVT_RAW bit 0, TAG_FAIL. -/
def eCIP_TAG_FAIL : Nat × Nat := (7, 0)
/-- CIP_EVT_RAW bit 1, CTX_FULL. -/
def eCIP_CTX_FULL : Nat × Nat := (7, 1)
/-- CIP_EVT_RAW bit 2, HOLD_WAIT. -/
def eCIP_HOLD_WAIT : Nat × Nat := (7, 2)
/-- CIP_EVT_RAW bit 3, TLS_FAIL. -/
def eCIP_TLS_FAIL : Nat × Nat := (7, 3)
/-- CIP_EVT_RAW bit 4, LANE_FAIL. -/
def eCIP_LANE_FAIL : Nat × Nat := (7, 4)
/-- HIF_EVT_RAW bit 0, LINK_UP. -/
def eHIF_LINK_UP : Nat × Nat := (8, 0)
/-- HIF_EVT_RAW bit 1, LINK_DOWN. -/
def eHIF_LINK_DOWN : Nat × Nat := (8, 1)
/-- HIF_EVT_RAW bit 2, SPEED. -/
def eHIF_SPEED : Nat × Nat := (8, 2)
/-- HIF_EVT_RAW bit 3, FLR. -/
def eHIF_FLR : Nat × Nat := (8, 3)
/-- HIF_EVT_RAW bit 4, IDE_FAIL. -/
def eHIF_IDE_FAIL : Nat × Nat := (8, 4)
/-- HIF_EVT_RAW bit 5, OWNER_DENIED. -/
def eHIF_OWNER_DENIED : Nat × Nat := (8, 5)
/-- HIF_EVT_RAW bit 6, AER. -/
def eHIF_AER : Nat × Nat := (8, 6)
/-- NET_EVT_RAW bit 0, LINK_UP. -/
def eNET_LINK_UP : Nat × Nat := (9, 0)
/-- NET_EVT_RAW bit 1, LINK_DOWN. -/
def eNET_LINK_DOWN : Nat × Nat := (9, 1)
/-- NET_EVT_RAW bit 2, CONN_REFUSED. -/
def eNET_CONN_REFUSED : Nat × Nat := (9, 2)
/-- NET_EVT_RAW bit 3, ASSOC_LOST. -/
def eNET_ASSOC_LOST : Nat × Nat := (9, 3)
/-- NET_EVT_RAW bit 4, PFC_STORM. -/
def eNET_PFC_STORM : Nat × Nat := (9, 4)
/-- NET_EVT_RAW bit 5, TLS_FULL. -/
def eNET_TLS_FULL : Nat × Nat := (9, 5)
/-- SBI_EVT_RAW bit 0, EID_SET. -/
def eSBI_EID_SET : Nat × Nat := (10, 0)
/-- SBI_EVT_RAW bit 1, PEC_ERR. -/
def eSBI_PEC_ERR : Nat × Nat := (10, 1)
/-- SBI_EVT_RAW bit 2, REG_ACCESS_ERR. -/
def eSBI_REG_ACCESS_ERR : Nat × Nat := (10, 2)
/-- THM_EVT_RAW bit 0, WARN. -/
def eTHM_WARN : Nat × Nat := (4, 0)
/-- THM_EVT_RAW bit 1, THROTTLE. -/
def eTHM_THROTTLE : Nat × Nat := (4, 1)
/-- THM_EVT_RAW bit 2, SENSE_FAULT. -/
def eTHM_SENSE_FAULT : Nat × Nat := (4, 2)
/-- THM_EVT_RAW bit 3, DIODE_GAP. -/
def eTHM_DIODE_GAP : Nat × Nat := (4, 3)
/-- THM_EVT_RAW bit 4, FAST. -/
def eTHM_FAST : Nat × Nat := (4, 4)
/-- THM_EVT_RAW bit 5, PS_CHANGE. -/
def eTHM_PS_CHANGE : Nat × Nat := (4, 5)
/-- THM_EVT_RAW bit 6, RELIGHT. -/
def eTHM_RELIGHT : Nat × Nat := (4, 6)
/-- HLD_EVT_RAW bit 0, STRING_FAULT. -/
def eHLD_STRING_FAULT : Nat × Nat := (5, 0)
/-- HLD_EVT_RAW bit 1, NO_HOLDUP. -/
def eHLD_NO_HOLDUP : Nat × Nat := (5, 1)
/-- HLD_EVT_RAW bit 2, ENERGY_CHANGE. -/
def eHLD_ENERGY_CHANGE : Nat × Nat := (5, 2)
/-- HLD_EVT_RAW bit 3, TEST_DEFER. -/
def eHLD_TEST_DEFER : Nat × Nat := (5, 3)
/-- HLD_EVT_RAW bit 4, DUMP_DONE. -/
def eHLD_DUMP_DONE : Nat × Nat := (5, 4)
/-- HLD_EVT_RAW bit 5, DUMP_FAIL. -/
def eHLD_DUMP_FAIL : Nat × Nat := (5, 5)
/-- BOT_EVT_RAW bit 0, READY. -/
def eBOT_READY : Nat × Nat := (1, 0)
/-- BOT_EVT_RAW bit 1, STOPPED. -/
def eBOT_STOPPED : Nat × Nat := (1, 1)
/-- BOT_EVT_RAW bit 2, FALLBACK. -/
def eBOT_FALLBACK : Nat × Nat := (1, 2)
/-- BOT_EVT_RAW bit 3, DIE_MISSING. -/
def eBOT_DIE_MISSING : Nat × Nat := (1, 3)
/-- BOT_EVT_RAW bit 4, DIE_FOREIGN. -/
def eBOT_DIE_FOREIGN : Nat × Nat := (1, 4)
/-- BOT_EVT_RAW bit 5, INIT. -/
def eBOT_INIT : Nat × Nat := (1, 5)
/-- BOT_EVT_RAW bit 6, SHUTDOWN. -/
def eBOT_SHUTDOWN : Nat × Nat := (1, 6)
/-- EVL_EVT_RAW bit 0, AEN. -/
def eEVL_AEN : Nat × Nat := (3, 0)
/-- EVL_EVT_RAW bit 1, UNREAD_LOST. -/
def eEVL_UNREAD_LOST : Nat × Nat := (3, 1)
/-- EVL_EVT_RAW bit 2, TORN. -/
def eEVL_TORN : Nat × Nat := (3, 2)
/-- EVL_EVT_RAW bit 3, NOR_ERR. -/
def eEVL_NOR_ERR : Nat × Nat := (3, 3)
/-- EVL_EVT_RAW bit 4, QUEUE_FULL. -/
def eEVL_QUEUE_FULL : Nat × Nat := (3, 4)
/-- EVL_EVT_RAW bit 5, SUPPRESSED. -/
def eEVL_SUPPRESSED : Nat × Nat := (3, 5)
/-- CPX_EVT_RAW bit 0, FW_STOPPED. -/
def eCPX_FW_STOPPED : Nat × Nat := (22, 0)
/-- Ledger event BOT_READY, severity 1. -/
def lBOT_READY : Nat := 0x0101
/-- Ledger event BOT_START_FAIL, severity 4. -/
def lBOT_START_FAIL : Nat := 0x0102
/-- Ledger event BOT_FW_FALLBACK, severity 3. -/
def lBOT_FW_FALLBACK : Nat := 0x0103
/-- Ledger event BOT_DIE_MISSING, severity 3. -/
def lBOT_DIE_MISSING : Nat := 0x0104
/-- Ledger event BOT_DIE_FOREIGN, severity 3. -/
def lBOT_DIE_FOREIGN : Nat := 0x0105
/-- Ledger event BOT_INIT, severity 1. -/
def lBOT_INIT : Nat := 0x0106
/-- Ledger event TBS_PPS_LOCK, severity 1. -/
def lTBS_PPS_LOCK : Nat := 0x0201
/-- Ledger event TBS_PPS_LOST, severity 2. -/
def lTBS_PPS_LOST : Nat := 0x0202
/-- Ledger event TBS_PPS_STEP, severity 2. -/
def lTBS_PPS_STEP : Nat := 0x0203
/-- Ledger event TBS_SEC_SET, severity 1. -/
def lTBS_SEC_SET : Nat := 0x0204
/-- Ledger event TBS_HOUR, severity 0. -/
def lTBS_HOUR : Nat := 0x0205
/-- Ledger event EVL_TORN, severity 2. -/
def lEVL_TORN : Nat := 0x0301
/-- Ledger event EVL_UNREAD_LOST, severity 2. -/
def lEVL_UNREAD_LOST : Nat := 0x0302
/-- Ledger event EVL_WMARK, severity 0. -/
def lEVL_WMARK : Nat := 0x0303
/-- Ledger event THM_SENSE_FAULT, severity 3. -/
def lTHM_SENSE_FAULT : Nat := 0x0401
/-- Ledger event THM_DIODE_GAP, severity 2. -/
def lTHM_DIODE_GAP : Nat := 0x0402
/-- Ledger event THM_WARN, severity 2. -/
def lTHM_WARN : Nat := 0x0403
/-- Ledger event THM_SNUFF, severity 5. -/
def lTHM_SNUFF : Nat := 0x0404
/-- Ledger event THM_RELIGHT, severity 3. -/
def lTHM_RELIGHT : Nat := 0x0405
/-- Ledger event HLD_STRING_FAULT, severity 3. -/
def lHLD_STRING_FAULT : Nat := 0x0501
/-- Ledger event HLD_NO_HOLDUP, severity 4. -/
def lHLD_NO_HOLDUP : Nat := 0x0502
/-- Ledger event HLD_DUMP_DONE, severity 2. -/
def lHLD_DUMP_DONE : Nat := 0x0503
/-- Ledger event HLD_DUMP_FAIL, severity 4. -/
def lHLD_DUMP_FAIL : Nat := 0x0504
/-- Ledger event KEY_LOAD, severity 0. -/
def lKEY_LOAD : Nat := 0x0601
/-- Ledger event KEY_UNWRAP_FAIL, severity 2. -/
def lKEY_UNWRAP_FAIL : Nat := 0x0602
/-- Ledger event KEY_CRYPTO_ERASE, severity 1. -/
def lKEY_CRYPTO_ERASE : Nat := 0x0603
/-- Ledger event KEY_IMAGE_REJECT, severity 3. -/
def lKEY_IMAGE_REJECT : Nat := 0x0604
/-- Ledger event KEY_DRBG_FAIL, severity 4. -/
def lKEY_DRBG_FAIL : Nat := 0x0605
/-- Ledger event KEY_STORE_FAIL, severity 4. -/
def lKEY_STORE_FAIL : Nat := 0x0606
/-- Ledger event KEY_CERT_BAD, severity 4. -/
def lKEY_CERT_BAD : Nat := 0x0607
/-- Ledger event KEY_SVN_COMMIT, severity 1. -/
def lKEY_SVN_COMMIT : Nat := 0x0608
/-- Ledger event CIP_TAG_FAIL, severity 3. -/
def lCIP_TAG_FAIL : Nat := 0x0701
/-- Ledger event CIP_LANE_FAIL, severity 3. -/
def lCIP_LANE_FAIL : Nat := 0x0702
/-- Ledger event CIP_TLS_FAIL, severity 2. -/
def lCIP_TLS_FAIL : Nat := 0x0703
/-- Ledger event HIF_LINK_UP, severity 1. -/
def lHIF_LINK_UP : Nat := 0x0801
/-- Ledger event HIF_LINK_DOWN, severity 2. -/
def lHIF_LINK_DOWN : Nat := 0x0802
/-- Ledger event HIF_IDE_FAIL, severity 3. -/
def lHIF_IDE_FAIL : Nat := 0x0803
/-- Ledger event NET_CONN_REFUSED, severity 1. -/
def lNET_CONN_REFUSED : Nat := 0x0901
/-- Ledger event NET_ASSOC_LOST, severity 2. -/
def lNET_ASSOC_LOST : Nat := 0x0902
/-- Ledger event NET_PFC_STORM, severity 3. -/
def lNET_PFC_STORM : Nat := 0x0903
/-- Ledger event QMX_CQ_STALL, severity 2. -/
def lQMX_CQ_STALL : Nat := 0x0B01
/-- Ledger event QMX_ACT_START, severity 1. -/
def lQMX_ACT_START : Nat := 0x0B02
/-- Ledger event QMX_ACT_DONE, severity 1. -/
def lQMX_ACT_DONE : Nat := 0x0B03
/-- Ledger event TEN_POOL_SHORT, severity 2. -/
def lTEN_POOL_SHORT : Nat := 0x0C01
/-- Ledger event TEN_FREEZE_LATE, severity 2. -/
def lTEN_FREEZE_LATE : Nat := 0x0C02
/-- Ledger event TEN_MIG_SAVE, severity 1. -/
def lTEN_MIG_SAVE : Nat := 0x0C03
/-- Ledger event TEN_MIG_RESTORE, severity 1. -/
def lTEN_MIG_RESTORE : Nat := 0x0C04
/-- Ledger event TEN_MIG_ABANDON, severity 2. -/
def lTEN_MIG_ABANDON : Nat := 0x0C05
/-- Ledger event TEN_MIG_REJECT, severity 3. -/
def lTEN_MIG_REJECT : Nat := 0x0C06
/-- Ledger event MAP_FINE_EMPTY, severity 2. -/
def lMAP_FINE_EMPTY : Nat := 0x0D01
/-- Ledger event MAP_REPLAY_LOSS, severity 4. -/
def lMAP_REPLAY_LOSS : Nat := 0x0D02
/-- Ledger event MAP_SEQ_LIMIT, severity 3. -/
def lMAP_SEQ_LIMIT : Nat := 0x0D03
/-- Ledger event STP_OVERRUN_RUN, severity 3. -/
def lSTP_OVERRUN_RUN : Nat := 0x0E01
/-- Ledger event STP_LIT_BROKEN, severity 1. -/
def lSTP_LIT_BROKEN : Nat := 0x0E02
/-- Ledger event STP_RA_SHORT, severity 2. -/
def lSTP_RA_SHORT : Nat := 0x0E03
/-- Ledger event STP_THROTTLE, severity 2. -/
def lSTP_THROTTLE : Nat := 0x0E04
/-- Ledger event STP_DEGRADED, severity 3. -/
def lSTP_DEGRADED : Nat := 0x0E05
/-- Ledger event STP_GROOM_LATE, severity 3. -/
def lSTP_GROOM_LATE : Nat := 0x0E06
/-- Ledger event WBF_CEIL_DROP, severity 3. -/
def lWBF_CEIL_DROP : Nat := 0x0F01
/-- Ledger event WBF_REPLAY, severity 1. -/
def lWBF_REPLAY : Nat := 0x0F02
/-- Ledger event PAR_REBUILD_START, severity 3. -/
def lPAR_REBUILD_START : Nat := 0x1001
/-- Ledger event PAR_REBUILD_DONE, severity 1. -/
def lPAR_REBUILD_DONE : Nat := 0x1002
/-- Ledger event PAR_THIRD_LOSS, severity 4. -/
def lPAR_THIRD_LOSS : Nat := 0x1003
/-- Ledger event PAR_NO_SPARE, severity 4. -/
def lPAR_NO_SPARE : Nat := 0x1004
/-- Ledger event PAR_JRN_REHOME, severity 2. -/
def lPAR_JRN_REHOME : Nat := 0x1005
/-- Ledger event PAR_GROOM_FIX, severity 2. -/
def lPAR_GROOM_FIX : Nat := 0x1006
/-- Ledger event PAR_GROOM_UNRESOLVED, severity 3. -/
def lPAR_GROOM_UNRESOLVED : Nat := 0x1007
/-- Ledger event PAR_LAYOUT_REFUSED, severity 4. -/
def lPAR_LAYOUT_REFUSED : Nat := 0x1008
/-- Ledger event RCL_URGENT, severity 2. -/
def lRCL_URGENT : Nat := 0x1101
/-- Ledger event RCL_FLOOR, severity 3. -/
def lRCL_FLOOR : Nat := 0x1102
/-- Ledger event RCL_WL, severity 0. -/
def lRCL_WL : Nat := 0x1103
/-- Ledger event RCL_RETIRE, severity 2. -/
def lRCL_RETIRE : Nat := 0x1104
/-- Ledger event RCL_TARGET_FAIL, severity 2. -/
def lRCL_TARGET_FAIL : Nat := 0x1105
/-- Ledger event RCL_SPAN_RETIRE, severity 3. -/
def lRCL_SPAN_RETIRE : Nat := 0x1106
/-- Ledger event RCL_READ_ONLY, severity 4. -/
def lRCL_READ_ONLY : Nat := 0x1107
/-- Ledger event RCL_LIFE_100, severity 3. -/
def lRCL_LIFE_100 : Nat := 0x1108
/-- Ledger event RCL_SANITIZE, severity 2. -/
def lRCL_SANITIZE : Nat := 0x1109
/-- Ledger event LDC_POISON, severity 3. -/
def lLDC_POISON : Nat := 0x1201
/-- Ledger event LDC_MISDIRECT, severity 3. -/
def lLDC_MISDIRECT : Nat := 0x1202
/-- Ledger event LDC_CRC_ENC, severity 3. -/
def lLDC_CRC_ENC : Nat := 0x1203
/-- Ledger event FCH_DIE_TIMEOUT, severity 2. -/
def lFCH_DIE_TIMEOUT : Nat := 0x1301
/-- Ledger event FCH_DIE_OUT, severity 3. -/
def lFCH_DIE_OUT : Nat := 0x1302
/-- Ledger event FCH_CH_OUT, severity 4. -/
def lFCH_CH_OUT : Nat := 0x1303
/-- Ledger event FCH_RATE_DROP, severity 2. -/
def lFCH_RATE_DROP : Nat := 0x1304
/-- Ledger event FCH_PIN_FAULT, severity 3. -/
def lFCH_PIN_FAULT : Nat := 0x1305
/-- Ledger event FCH_INTENT_MOVE, severity 2. -/
def lFCH_INTENT_MOVE : Nat := 0x1306
/-- Ledger event FCH_REERASE, severity 1. -/
def lFCH_REERASE : Nat := 0x1307
/-- Ledger event DMC_RECOMPUTE, severity 2. -/
def lDMC_RECOMPUTE : Nat := 0x1401
/-- Ledger event DMC_FREEZE, severity 5. -/
def lDMC_FREEZE : Nat := 0x1402
/-- Ledger event DMC_LOST_WRITE, severity 4. -/
def lDMC_LOST_WRITE : Nat := 0x1403
/-- Ledger event DMC_SELFTEST_FAIL, severity 5. -/
def lDMC_SELFTEST_FAIL : Nat := 0x1404
/-- Ledger event DMC_ROW_REMAP, severity 2. -/
def lDMC_ROW_REMAP : Nat := 0x1405
/-- Ledger event SRM_RECOMPUTE, severity 2. -/
def lSRM_RECOMPUTE : Nat := 0x1501
/-- Ledger event CPX_FW_STOPPED, severity 4. -/
def lCPX_FW_STOPPED : Nat := 0x1601

/-- The event codes of R517. -/
def ledgerCodes : List Nat :=
  [0x0101, 0x0102, 0x0103, 0x0104, 0x0105, 0x0106, 0x0201, 0x0202, 0x0203, 0x0204, 0x0205, 0x0301] ++
  [0x0302, 0x0303, 0x0401, 0x0402, 0x0403, 0x0404, 0x0405, 0x0501, 0x0502, 0x0503, 0x0504, 0x0601] ++
  [0x0602, 0x0603, 0x0604, 0x0605, 0x0606, 0x0607, 0x0608, 0x0701, 0x0702, 0x0703, 0x0801, 0x0802] ++
  [0x0803, 0x0901, 0x0902, 0x0903, 0x0B01, 0x0B02, 0x0B03, 0x0C01, 0x0C02, 0x0C03, 0x0C04, 0x0C05] ++
  [0x0C06, 0x0D01, 0x0D02, 0x0D03, 0x0E01, 0x0E02, 0x0E03, 0x0E04, 0x0E05, 0x0E06, 0x0F01, 0x0F02] ++
  [0x1001, 0x1002, 0x1003, 0x1004, 0x1005, 0x1006, 0x1007, 0x1008, 0x1101, 0x1102, 0x1103, 0x1104] ++
  [0x1105, 0x1106, 0x1107, 0x1108, 0x1109, 0x1201, 0x1202, 0x1203, 0x1301, 0x1302, 0x1303, 0x1304] ++
  [0x1305, 0x1306, 0x1307, 0x1401, 0x1402, 0x1403, 0x1404, 0x1405, 0x1501, 0x1601]

end Sys2Proof.Machine
end

