-- ==== Sys2Proof/Machine/Ops.lean ====
section
/-! DEFINITION. The operations that every family shares: register fields and saturating counters, page events, the
ledger's intake, functions and queues, completions and asynchronous events. -/

namespace Sys2Proof.Machine

open Sys2Proof

/-! ## Fields of the state -/

def State.setAns (s : State) (x : Answer) : State := { s with ans := x }
def State.setDraws (s : State) (x : Nat) : State := { s with draws := x }
def State.setGate (s : State) (x : Gate) : State := { s with gate := x }
def State.setTbs (s : State) (x : Tbs) : State := { s with tbs := x }
def State.setStp (s : State) (x : Stp) : State := { s with stp := x }
def State.setQmx (s : State) (x : Qmx) : State := { s with qmx := x }
def State.setTen (s : State) (x : Ten) : State := { s with ten := x }
def State.setFns (s : State) (x : Tbl Fn) : State := { s with fns := x }
def State.setMap (s : State) (x : Map) : State := { s with map := x }
def State.setWbf (s : State) (x : Wbf) : State := { s with wbf := x }
def State.setFch (s : State) (x : Fch) : State := { s with fch := x }
def State.setLdc (s : State) (x : Ldc) : State := { s with ldc := x }
def State.setPar (s : State) (x : Par) : State := { s with par := x }
def State.setRcl (s : State) (x : Rcl) : State := { s with rcl := x }
def State.setDmc (s : State) (x : Dmc) : State := { s with dmc := x }
def State.setKey (s : State) (x : Key) : State := { s with key := x }
def State.setCip (s : State) (x : Cip) : State := { s with cip := x }
def State.setStaged (s : State) (x : List Staged) : State := { s with staged := x }
def State.setNorWaits (s : State) (x : List NorWait) : State := { s with norWaits := x }
def State.setHif (s : State) (x : Hif) : State := { s with hif := x }
def State.setNet (s : State) (x : Net) : State := { s with net := x }
def State.setSbi (s : State) (x : Sbi) : State := { s with sbi := x }
def State.setThm (s : State) (x : Thm) : State := { s with thm := x }
def State.setHld (s : State) (x : Hld) : State := { s with hld := x }
def State.setFuses (s : State) (x : Fuses) : State := { s with fuses := x }
def State.setNor (s : State) (x : Nor) : State := { s with nor := x }
def State.setBot (s : State) (x : Bot) : State := { s with bot := x }
def State.setPins (s : State) (x : Pins) : State := { s with pins := x }
def State.setEvl (s : State) (x : Evl) : State := { s with evl := x }
def State.setPaths (s : State) (x : Tbl PathState) : State := { s with paths := x }
def State.setPages (s : State) (x : Tbl Page) : State := { s with pages := x }
def State.setRegs (s : State) (x : Tbl Nat) : State := { s with regs := x }
def State.setCpx (s : State) (x : Cpx) : State := { s with cpx := x }

/-! ## Clock domains (01 R13, R28-R32) -/

/-- Bits `lo` to `hi` of a domain set. -/
def domains (lo hi : Nat) : BitVec 256 := BitVec.ofNat 256 (2 ^ (hi + 1) - 2 ^ lo)

/-- Block index of a page. -/
def pageBlk (p : Nat) : Nat := if p ≥ 64 then 0x13 else p

/-- Channel of an FCH page, 0 for every other block. -/
def pageInst (p : Nat) : Nat := p - 64

/-- First and last clock domain of a page's block (R13). -/
def blockDomains (pg : Nat) : Nat × Nat :=
  match pageBlk pg with
  | 1 => (0, 1) | 2 => (2, 2) | 3 => (3, 3) | 4 => (4, 5) | 5 => (6, 7) | 6 => (8, 9) | 7 => (10, 22)
  | 8 => (23, 28) | 9 => (29, 37) | 10 => (38, 41) | 11 => (42, 45) | 12 => (46, 47) | 13 => (48, 51)
  | 14 => (52, 53) | 15 => (54, 56) | 16 => (57, 60) | 17 => (61, 62) | 18 => (63, 118)
  | 19 => (119 + 3 * pageInst pg, 121 + 3 * pageInst pg)
  | 20 => (215, 219) | 21 => (220, 231) | _ => (232, 248)

/-- A request or a register access reaches domains: they are clocked, and have had work in this stride (R30, R32). In
snuff only the always-on domains are clocked. -/
def State.wake (s : State) (d : BitVec 256) : State :=
  if s.thm.snuff = .off then s else s.setGate { s.gate with on := s.gate.on ||| d, busy := s.gate.busy ||| d }

/-- A control-plane access wakes the domains of the block that it reaches. The access is one event, so the domains stay
clocked until it completes, whatever the plan gates in the same cycle (R32). -/
def State.wakePage (s : State) (pg : Nat) : State := s.wake (domains (blockDomains pg).1 (blockDomains pg).2)

/-- QMX's four domains: doorbells, fetch, harness check, ordering and completions (R13). -/
def qmxDomains : BitVec 256 := domains 42 45

/-- KEY's two domains. -/
def keyDomains : BitVec 256 := domains 8 9

/-- PCIe link and transaction layers with the PHY lanes of a port: lanes 0-3 on port 0, 4-7 on port 1, all eight on the
single port (R13). -/
def linkDomains (dual : Bool) (port : Nat) : BitVec 256 :=
  domains 25 25 ||| (if !dual then domains 23 24 else if port = 1 then domains 24 24 else domains 23 23)

/-- The domains of a network interface: PHY and MAC, TCP transport and RoCEv2 transport of its port, association table
and classifier; interfaces 0 and 1 are halves of port 0 (R13, R430). -/
def netDomains (iface : Nat) : BitVec 256 :=
  domains 36 37 ||| (if iface < 2 then domains 29 31 else domains 32 34)

/-- XSPI_RESET_N is low: in power-on reset, and for 1 ms from the start of each start-up (R552). -/
def xspiReset (s : State) : Bool := decide (s.bot.phase = 0 ∨ s.tbs.clk < s.bot.releaseClk + 1000000)

/-! ## Outcomes -/

/-- The outcome of a command that answers a next state. -/
abbrev Out := Host.Outcome State Fault Refusal

/-! ## Register fields (R11, R521, R527) -/

/-- Page number: the block index, or 64 + nn for FCHnn (R524). -/
def pageNo (blk inst : Nat) : Nat :=
  if blk = 0x13 then 64 + inst else blk

/-- Key of word `k` of a field on a page. -/
def fieldKey (f : Fld) (inst k : Nat) : Nat :=
  (pageNo f.blk inst * 4096 + f.off + 4 * k) * 32 + f.lo

/-- Stored value of word `k` of a field, on channel `inst` for FCH. -/
def State.rdAt (s : State) (f : Fld) (inst k : Nat) : Nat :=
  Tbl.getD s.regs (fieldKey f inst k) f.reset

/-- Word `k` of a field that a selector banks: interface or function `b`. -/
def bankKey (f : Fld) (k b : Nat) : Nat := fieldKey f 0 k + 2 ^ 32 * (b + 1)

def State.rdBank (s : State) (f : Fld) (k b : Nat) : Nat := Tbl.getD s.regs (bankKey f k b) f.reset

def State.wrBank (s : State) (f : Fld) (k b v : Nat) : State :=
  s.setRegs (Tbl.put s.regs (bankKey f k b) (v % 2 ^ f.w) f.reset)

/-- Stored value of a field. -/
def State.rd (s : State) (f : Fld) : Nat := s.rdAt f 0 0

/-- Store word `k` of a field, cut to its width. -/
def State.wrAt (s : State) (f : Fld) (inst k v : Nat) : State :=
  s.setRegs (Tbl.put s.regs (fieldKey f inst k) (v % 2 ^ f.w) f.reset)

/-- Store a field. -/
def State.wr (s : State) (f : Fld) (v : Nat) : State := s.wrAt f 0 0 v

/-- The header of a page. -/
def State.page (s : State) (p : Nat) : Page := Tbl.getD s.pages p Page.reset

def State.setPage (s : State) (p : Nat) (x : Page) : State :=
  s.setPages (Tbl.put s.pages p x Page.reset)

/-- The block's counters hold from an error capture until ACK under FREEZE_ON_ERR (R527). -/
def State.cntHeld (s : State) (p : Nat) : Bool :=
  (s.page p).freezeOnErr && (s.page p).errValid

/-- Advance a saturating counter by `n` (R527). -/
def State.bumpAt (s : State) (f : Fld) (inst k n : Nat) : State :=
  if s.cntHeld (pageNo f.blk inst) then s
  else s.wrAt f inst k (min (s.rdAt f inst k + n) (2 ^ f.w - 1))

def State.bump (s : State) (f : Fld) (n : Nat) : State := s.bumpAt f 0 0 n

/-- Two's complement of an integer in `w` bits. -/
def toSigned (w : Nat) (x : Int) : Nat := (x % (2 ^ w : Int)).toNat

/-- The integer of a two's complement number of `w` bits. -/
def ofSigned (w : Nat) (n : Nat) : Int :=
  if n < 2 ^ (w - 1) then (n : Int) else (n : Int) - 2 ^ w

/-- An integer brought into the range of `w` signed bits. -/
def satSigned (w : Nat) (x : Int) : Int :=
  max (-(2 ^ (w - 1) : Int)) (min x (2 ^ (w - 1) - 1))

/-! ## Page events (R528, R529) -/

/-- An event set: the bit of EVT_RAW rises and EVT_COUNT advances (R528). -/
def State.evt (s : State) (p bit : Nat) : State :=
  let x := s.page p
  s.setPage p { x with evtRaw := x.evtRaw ||| BitVec.ofNat 32 (2 ^ bit),
                       evtCount := min (x.evtCount + 1) 0xFFFFFFFF }

/-- An event set by its page and bit. -/
def State.ev (s : State) (e : Nat × Nat) : State := s.evt e.1 e.2

/-- An event set on the page of FCHnn. -/
def State.evCh (s : State) (nn : Nat) (e : Nat × Nat) : State := s.evt (64 + nn) e.2

/-- ERR_FIRST takes the first error, and MORE counts the later ones (R529). -/
def State.capture (s : State) (p code : Nat) (func : Option Nat) (addr : Nat) : State :=
  let x := s.page p
  s.setPage p <|
    if x.errValid then { x with errMore := min (x.errMore + 1) 255 }
    else { x with errValid := true, errCode := code, errFunc := func.getD 0,
                  errAddr := BitVec.ofNat 32 addr }

/-! ## Ledger intake (R500-R510, R517) -/

/-- Severity of an event code (R517). -/
def severity (code : Nat) : Nat :=
  match code with
  | 0x0101 => 1 | 0x0102 => 4 | 0x0103 => 3 | 0x0104 => 3 | 0x0105 => 3 | 0x0106 => 1
  | 0x0201 => 1 | 0x0202 => 2 | 0x0203 => 2 | 0x0204 => 1 | 0x0205 => 0
  | 0x0301 => 2 | 0x0302 => 2 | 0x0303 => 0
  | 0x0401 => 3 | 0x0402 => 2 | 0x0403 => 2 | 0x0404 => 5 | 0x0405 => 3
  | 0x0501 => 3 | 0x0502 => 4 | 0x0503 => 2 | 0x0504 => 4
  | 0x0601 => 0 | 0x0602 => 2 | 0x0603 => 1 | 0x0604 => 3 | 0x0605 => 4 | 0x0606 => 4 | 0x0607 => 4
  | 0x0608 => 1
  | 0x0701 => 3 | 0x0702 => 3 | 0x0703 => 2
  | 0x0801 => 1 | 0x0802 => 2 | 0x0803 => 3
  | 0x0901 => 1 | 0x0902 => 2 | 0x0903 => 3
  | 0x0B01 => 2 | 0x0B02 => 1 | 0x0B03 => 1
  | 0x0C01 => 2 | 0x0C02 => 2 | 0x0C03 => 1 | 0x0C04 => 1 | 0x0C05 => 2 | 0x0C06 => 3
  | 0x0D01 => 2 | 0x0D02 => 4 | 0x0D03 => 3
  | 0x0E01 => 3 | 0x0E02 => 1 | 0x0E03 => 2 | 0x0E04 => 2 | 0x0E05 => 3 | 0x0E06 => 3
  | 0x0F01 => 3 | 0x0F02 => 1
  | 0x1001 => 3 | 0x1002 => 1 | 0x1003 => 4 | 0x1004 => 4 | 0x1005 => 2 | 0x1006 => 2 | 0x1007 => 3
  | 0x1008 => 4
  | 0x1101 => 2 | 0x1102 => 3 | 0x1103 => 0 | 0x1104 => 2 | 0x1105 => 2 | 0x1106 => 3 | 0x1107 => 4
  | 0x1108 => 3 | 0x1109 => 2
  | 0x1201 => 3 | 0x1202 => 3 | 0x1203 => 3
  | 0x1301 => 2 | 0x1302 => 3 | 0x1303 => 4 | 0x1304 => 2 | 0x1305 => 3 | 0x1306 => 2 | 0x1307 => 1
  | 0x1401 => 2 | 0x1402 => 5 | 0x1403 => 4 | 0x1404 => 5 | 0x1405 => 2
  | 0x1501 => 2
  | 0x1601 => 4
  | _ => 0

/-- Direct events: THM_SNUFF, DMC_FREEZE and CPX_FW_STOPPED (R506). -/
def isDirect (code : Nat) : Bool :=
  code == 0x0404 || code == 0x1402 || code == 0x1601

/-- The rate limit never refuses severity 5, direct records and EVL's own codes (R509). -/
def neverRefused (code : Nat) : Bool :=
  severity code == 5 || isDirect code || code / 256 == 3

/-- The first payload values that fit 30 B (R501). -/
def fitPayload (room : Nat) : List (Nat × Nat) → List (Nat × Nat)
  | [] => []
  | (v, w) :: r => if w ≤ room then (v % 256 ^ w, w) :: fitPayload (room - w) r else []

/-- Payload values at their natural widths (R501): a die, namespace index or function; an LBA, SECONDS or sequence
number; an MGA; a count or other value. -/
def p2 (v : Nat) : Nat × Nat := (v, 2)
def p6 (v : Nat) : Nat × Nat := (v, 6)
def p5 (v : Nat) : Nat × Nat := (v, 5)
def p4 (v : Nat) : Nat × Nat := (v, 4)

/-- Little-endian value of the first `n` bytes of a payload. -/
def payloadNat : List (Nat × Nat) → Nat
  | [] => 0
  | (v, w) :: r => v % 256 ^ w + 256 ^ w * payloadNat r

/-- The bucket of an event: CIP_TAG_FAIL keeps one for each namespace index (R509). -/
def bucketKey (code : Nat) (payload : List (Nat × Nat)) : Nat :=
  if code = 0x0701 then 65536 + (payload.head?.map Prod.fst).getD 0 else code

/-- Code of a bucket key. -/
def bucketCode (k : Nat) : Nat := if k < 65536 then k else 0x0701

/-- The override entry of a code, if one of the 16 names it (R509). -/
def overrideOf (s : State) (code : Nat) : Nat → Option Nat
  | 0 => none
  | k + 1 => if s.rdAt rEVL_OVR_CODEk 0 (15 - k) = code ∧ code ≠ 0 then some (15 - k) else overrideOf s code k

/-- Bucket depth of a code (R509, R519). -/
def bucketDepth (s : State) (code : Nat) : Nat :=
  match overrideOf s code 16 with
  | some k => if s.rdAt rEVL_OVR_DEPTHk 0 k = 0 then s.rd rEVL_BUCKET else s.rdAt rEVL_OVR_DEPTHk 0 k
  | none => s.rd rEVL_BUCKET

/-- Refill interval of a code in second boundaries (R509, R519). -/
def bucketRefill (s : State) (code : Nat) : Nat :=
  match overrideOf s code 16 with
  | some k => if s.rdAt rEVL_OVR_REFILLk 0 k = 0 then s.rd rEVL_REFILL_S else s.rdAt rEVL_OVR_REFILLk 0 k
  | none => s.rd rEVL_REFILL_S

/-- The bucket of a key; one never used is full. -/
def bucketOf (s : State) (k : Nat) : Bucket :=
  Tbl.getD s.evl.buckets k
    { tokens := bucketDepth s (bucketCode k), since := s.evl.bounds, suppressed := 0, last := none }


/-- Newest SEQ that the ring holds, 0 for none (R503). -/
def newestSeq (e : Evl) : Nat :=
  e.ring.foldl (fun m r => max m r.2.seq) 0

/-- A record enters the queue: a direct one ahead of those that are not (R506). When NOR writing has stopped the
mirror alone takes it (R505). -/
def enqueue (e : Evl) (r : LRec) : Evl :=
  if e.norStopped then
    let n := max (newestSeq e) ((e.mirror.map LRec.seq).foldl max 0) + 1
    { e with mirror := { r with seq := n } :: e.mirror }
  else if r.direct then
    { e with queue := e.queue.takeWhile LRec.direct ++ r :: e.queue.dropWhile LRec.direct }
  else { e with queue := e.queue ++ [r] }

/-- Set the bucket of a key. -/
def State.setBucket (s : State) (k : Nat) (b : Bucket) : State :=
  s.setEvl { s.evl with buckets := Tbl.set s.evl.buckets k b }

/-- A refused event is counted (R506, R509); `bit` is the EVL event bit. -/
def refuse (s : State) (k : Nat) (r : LRec) (bit : Nat) : State :=
  let b := bucketOf s k
  let s := s.setBucket k { b with suppressed := min (b.suppressed + 1) 0xFFFF, last := some r }
  (s.bump rEVL_SUPPRESSED 1).evt 3 bit

/-- A raised event is screened against the rate limit and the queue, and recorded or counted (R506, R509). -/
def accept (s : State) (code : Nat) (r : LRec) : State :=
  if r.direct then s.setEvl (enqueue s.evl r)
  else
    let k := bucketKey code r.payload
    let b := bucketOf s k
    if neverRefused code || b.tokens > 0 then
      if s.evl.queue.length ≥ 1024 then refuse s k r 4
      else
        let left := if neverRefused code then b.tokens else b.tokens - 1
        let s := s.setBucket k { b with tokens := left, suppressed := 0, last := none }
        s.setEvl (enqueue s.evl { r with suppressed := b.suppressed })
    else refuse s k r 5

/-- The record of an event raised now (R500, R502). -/
def recordNow (s : State) (code : Nat) (func : Option Nat) (payload : List (Nat × Nat)) : LRec :=
  { seq := 0, pcycle := s.tbs.pcycle, hours := s.tbs.hours, hourSec := s.tbs.hourSec,
    severity := severity code, subsys := code / 256, code := code % 256, func := func, direct := isDirect code,
    summary := false, early := false, suppressed := 0, seconds := s.tbs.seconds.toNat,
    ms := s.tbs.strideInSec / 125, payload := fitPayload 30 payload }

/-- A block raises an event on page `p` (R509): an error is captured there (R529), and before TBS restores its
counts the record is held (R502). `addr` is ERR_ADDR where the block gives its own (DMC, SRM, FCH). -/
def State.raiseAt (s : State) (p code : Nat) (func : Option Nat) (payload : List (Nat × Nat))
    (addr : Option Nat) : State :=
  let r := recordNow s code func payload
  let s := if severity code ≥ 3 then
      s.capture p (code % 256) func (addr.getD (payloadNat r.payload % 2 ^ 32))
    else s
  if s.evl.restored then accept s code r
  else s.setEvl { s.evl with held := s.evl.held ++ [(s.tbs.clk, r)] }

/-- A block other than FCH, DMC and SRM raises an event. -/
def State.raise (s : State) (code : Nat) (func : Option Nat) (payload : List (Nat × Nat)) : State :=
  s.raiseAt (code / 256) code func payload none

/-! ## Free values -/

/-- The number of the next draw of a free value, and the state after it. -/
def State.draw (s : State) : Nat × State := (s.draws, (s.setDraws (s.draws + 1)))

/-! ## Functions -/

/-- Function `f` (R105). -/
def State.fn (s : State) (f : Nat) : Fn := Tbl.getD s.fns f Fn.free

def State.setFn (s : State) (f : Nat) (x : Fn) : State := s.setFns (Tbl.put s.fns f x Fn.free)

def State.updFn (s : State) (f : Nat) (g : Fn → Fn) : State := s.setFn f (g (s.fn f))

/-- The functions that the table lists. -/
def State.fnList (s : State) : List (Nat × Fn) := s.fns

/-- A function's requests are answered with Unsupported Request: an IDE stream that covers its RID is Insecure
(R429). -/
def ideBlocked (s : State) (f : Nat) : Bool :=
  s.hif.ide.any fun p => p.2.state == .insecure && decide (p.2.ridLo ≤ f ∧ f ≤ p.2.ridHi)

/-- Requests to a function that did not come on the stream that covers it are dropped, once the stream is Secure (R429). -/
def ideSecure (s : State) (f : Nat) : Bool :=
  s.hif.ide.any fun p => p.2.state == .secure && decide (p.2.ridLo ≤ f ∧ f ≤ p.2.ridHi)

/-- SBI's domains: SMBus and MCTP, UART, JTAG, GPIO (R13). -/
def smbusDomain : BitVec 256 := domains 38 38
def uartDomain : BitVec 256 := domains 39 39
def jtagDomain : BitVec 256 := domains 40 40

/-! ## Statuses (R103 and the NVMe codes) -/

/-- A completion status: code type, code, do not retry. -/
structure Status where
  sct : Nat
  sc : Nat
  dnr : Bool
  deriving DecidableEq, Repr

def st (sct sc : Nat) (dnr : Bool) : Status := ⟨sct, sc, dnr⟩
def stOk : Status := st 0 0 false
def stInvalidOpcode : Status := st 0 0x01 true
def stInvalidField : Status := st 0 0x02 true
def stInternal : Status := st 0 0x06 true
def stSqDeletion : Status := st 0 0x08 false
def stInvalidNs : Status := st 0 0x0B true
def stSanitizeFailed : Status := st 0 0x1C true
def stSanitizing : Status := st 0 0x1D false
def stWriteProtected : Status := st 0 0x20 true
def stInterrupted : Status := st 0 0x21 false
def stLbaRange : Status := st 0 0x80 true
def stCapacityExceeded : Status := st 0 0x81 true
def stNsNotReady : Status := st 0 0x82 false
def stFormatInProgress : Status := st 0 0x84 false
def stInvalidCq : Status := st 1 0x00 true
def stInvalidQid : Status := st 1 0x01 true
def stInvalidQsize : Status := st 1 0x02 true
def stSequence : Status := st 0 0x0C true
def stAerLimit : Status := st 1 0x05 true
def stInvalidFwSlot : Status := st 1 0x06 true
def stInvalidFwImage : Status := st 1 0x07 true
def stInvalidVector : Status := st 1 0x08 true
def stInvalidLogPage : Status := st 1 0x09 true
def stInvalidFormat : Status := st 1 0x0A true
def stInvalidQdel : Status := st 1 0x0C true
def stNotChangeable : Status := st 1 0x0E true
def stFwReset : Status := st 1 0x10 false
def stNsCapacity : Status := st 1 0x15 true
def stNsidUnavailable : Status := st 1 0x16 true
def stNsAttached : Status := st 1 0x18 true
def stNsNotAttached : Status := st 1 0x1A true
def stSelfTestRunning : Status := st 1 0x1D false
def stInvalidCtrlId : Status := st 1 0x1F true
def stInvalidSecState : Status := st 1 0x20 true
def stZoneBoundary : Status := st 1 0xB8 true
def stZoneFull : Status := st 1 0xB9 true
def stZoneReadOnly : Status := st 1 0xBA true
def stZoneInvalidWrite : Status := st 1 0xBC true
def stTooManyActive : Status := st 1 0xBD true
def stTooManyOpen : Status := st 1 0xBE true
def stZoneTransition : Status := st 1 0xBF true
def stDataTransfer : Status := st 0 0x04 false
def stUnrecovered : Status := st 2 0x81 true
def stCompareFail : Status := st 2 0x85 true
def stTagMismatch : Status := st 7 0x01 true
def stUnderErase : Status := st 7 0x02 true
def stKeyNotLoaded : Status := st 7 0x03 false
def stHarnessCap : Status := st 7 0x04 true
def stFrozen : Status := st 7 0x05 false
def stMigRejected : Status := st 7 0x06 true
def stRedundancy : Status := st 7 0x07 true
def stLostWrite : Status := st 7 0x08 true

/-! ## Completions (R84, R89) -/

/-- A queue is full when one entry of it is free (the NVMe rule). -/
def Cq.full (q : Cq) : Bool := decide (q.posted.length + 1 ≥ q.size)

/-- Write an entry into a completion queue with room, or hold it (R89). -/
def Cq.push (q : Cq) (e : Cqe) : Cq :=
  if q.full || !q.held.isEmpty then { q with held := q.held ++ [e] }
  else { q with posted := q.posted ++ [e], tail := (q.tail + 1) % q.size,
                phase := if q.tail + 1 = q.size then !q.phase else q.phase }

/-- The fetched command of a sequence number. -/
def State.cmd? (s : State) (seq : Nat) : Option Cmd := s.qmx.cmds.find? (fun c => c.seq == seq)

/-- Replace a fetched command. -/
def State.updCmd (s : State) (seq : Nat) (g : Cmd → Cmd) : State :=
  s.setQmx { s.qmx with cmds := s.qmx.cmds.map (fun c => if c.seq = seq then g c else c) }

def State.dropCmd (s : State) (seq : Nat) : State :=
  s.setQmx { s.qmx with cmds := s.qmx.cmds.filter (fun c => c.seq != seq) }

/-- Histogram bucket upper bounds in us (R125); bucket 31 is unbounded. -/
def latencyBounds : List Nat :=
  [50, 60, 70, 80, 90, 100, 125, 150, 200, 250, 300, 400, 500, 600, 800, 1000] ++
  [1250, 1500, 2000, 2500, 3000, 4000, 5000, 6000, 8000, 10000, 20000, 50000, 100000, 500000, 1000000]

/-- The bucket of a latency in ns (R125). -/
def latencyBucket (ns : Nat) : Nat :=
  (latencyBounds.takeWhile fun b => decide (ns > b * 1000)).length

/-- Count a Read, Compare or Verify in the histogram of the gait at which it was fetched (R125). -/
def Meter.hit (m : Meter) (gait ns : Nat) : Meter :=
  let k := 32 * gait + latencyBucket ns
  { m with hist := Tbl.set m.hist k (min (Tbl.getD m.hist k 0 + 1) 0xFFFFFFFF) }

/-- Change the current-minute record of a function (R123). -/
def State.meter (s : State) (f : Nat) (g : Meter → Meter) : State :=
  s.updFn f fun x => { x with cur := g x.cur }

/-- The completion entry of a Read, Compare or Verify is written: its latency counts (R125). -/
def State.entryWritten (s : State) (f : Nat) (e : Cqe) : State :=
  match e.lat with
  | some (g, t) => s.meter f fun m => m.hit g (s.tbs.clk - t)
  | none => s

/-- Opcodes that the latency histograms count: Read, Compare, Verify (R125). -/
def opTimed (op : Nat) : Bool := op == 0x02 || op == 0x05 || op == 0x0C

/-- The completion entry of a command goes to the completion queue of its submission queue, or is held there. -/
def State.postWide (s : State) (c : Cmd) (t : Status) (dw0 dw1 : Dword) : State :=
  let x := s.fn c.fn
  match Tbl.get x.sqs c.sqid with
  | none => s
  | some q =>
    let e : Cqe := { cid := c.cid, sqid := c.sqid, sqHead := q.head, sct := t.sct, sc := t.sc, dnr := t.dnr,
                     dw0 := dw0, dw1 := dw1,
                     lat := if !c.admin && opTimed c.op then some (c.gait, c.fetchClk) else none,
                     dscp := if x.bind = .network then some (s.rd rNET_DSCP_TX / 64 ^ c.gait % 64) else none }
    let held := (Tbl.get x.cqs q.cqid).any fun k => k.full || !k.held.isEmpty
    let s := s.setFn c.fn { x with cqs := Tbl.upd x.cqs q.cqid (fun k => k.push e) }
    if held then s else s.entryWritten c.fn e

/-- The command leaves QMX with its completion entry; an I/O command counts in its function's meters (R124). -/
def State.endCmd (s : State) (c : Cmd) (t : Status) (dw0 dw1 : Dword) : State :=
  let s := (s.postWide c t dw0 dw1).dropCmd c.seq
  if c.admin then s else s.meter c.fn fun m => { m with commands := m.commands + 1 }

/-- The command ends: its entry is posted and it leaves QMX. A command that is gone (its function was reset) posts
nothing (R98). -/
def State.complete (s : State) (seq : Nat) (t : Status) (dw0 : Dword) : State :=
  match s.cmd? seq with
  | none => s
  | some c => s.endCmd c t dw0 0

/-- The same with Dword 0 zero. -/
def State.finish (s : State) (seq : Nat) (t : Status) : State := s.complete seq t 0

/-- Dword 0 of an asynchronous event's completion: type, information and log page. -/
def aenDword (typ info page : Nat) : Dword := BitVec.ofNat 32 (typ + 256 * info + 65536 * page)

/-- An asynchronous event on a function: it completes the oldest outstanding request, or waits for one. -/
def State.asyncEvent (s : State) (f typ info page : Nat) : State :=
  let x := s.fn f
  match x.aers with
  | [] => s.setFn f { x with events := x.events ++ [(typ, info, page)] }
  | a :: r => (s.setFn f { x with aers := r }).complete a stOk (aenDword typ info page)

/-! ## Answers -/

def State.answer (s : State) (a : Answer) : State := s.setAns a

/-- An in-band command that returns bytes: they are answered and the command completes. -/
def State.reply (s : State) (seq : Nat) (b : List Byte) : State :=
  match s.cmd? seq with
  | none => s
  | some _ => (s.answer (.bytes b)).finish seq stOk

/-! ## Bytes (R6: little-endian) -/

/-- The lowest `n` bytes of a number, lowest first. -/
def leBytes (n v : Nat) : List Byte :=
  match n with
  | 0 => []
  | n + 1 => BitVec.ofNat 8 v :: leBytes n (v / 256)

/-- Zero bytes. -/
def zeros (n : Nat) : List Byte := List.replicate n 0

/-- Little-endian number of bytes. -/
def leNat : List Byte → Nat
  | [] => 0
  | b :: r => b.toNat + 256 * leNat r

/-! ## Admin commands (R74, R76) -/

/-- Admin commands of a function are processed in intake-sequence order: `seq` is processable when it is a fetched
admin command of an undecoded opcode and no earlier admin command of its function is undecoded. -/
def State.adminCmd (s : State) (seq : Nat) : Option Cmd :=
  match s.cmd? seq with
  | none => none
  | some c =>
    if c.admin && (c.body == .undecoded) &&
       !(s.qmx.cmds.any fun d => d.fn == c.fn && d.admin && (d.body == .undecoded) && decide (d.seq < seq))
    then some c else none

/-- Run the action of an admin command in its order; a number that names none changes nothing. -/
def State.admin (s : State) (seq : Nat) (act : Cmd → State) : State :=
  match s.adminCmd seq with
  | none => s
  | some c => act c

/-- The action is not complete: the command waits. -/
def State.hold (s : State) (seq : Nat) : State := s.updCmd seq fun c => { c with body := .adminWait }

/-- A fetched I/O command of opcode `op`, not yet taken. -/
def State.ioCmd (s : State) (seq op : Nat) (act : Cmd → State) : State :=
  match s.cmd? seq with
  | none => s
  | some c => if !c.admin && decide (c.op = op) && (c.body == .undecoded) then act c else s

/-- Nothing of a plan is built and nothing that it grants begins: the plan in force is a hold plan (R40, R50), or the
firmware has stopped (R35). -/
def planHeld (s : State) : Bool := s.stp.hold || s.stp.stepHold || s.cpx.stopped

end Sys2Proof.Machine
end

