-- ==== Sys2Proof/Machine/Layout.lean ====
section
/-! DEFINITION. Geometry and layout: media granule addresses (R142, R143), spans and their member blocks
(R302-R307), row valid counts (R334). -/

namespace Sys2Proof.Machine

open Sys2Proof

/-! ## Geometry (R142, R143) -/

def puGran (s : State) : Nat := s.rd rMAP_PU_GRAN
def slotsDie (s : State) : Nat := s.rd rMAP_SLOTS_DIE
def wordLines (s : State) : Nat := s.rd rMAP_WLS
def nativeBlocks (s : State) : Nat := s.rd rMAP_BLOCKS

/-- The parts of an MGA (R143). -/
structure MgaParts where
  die : Nat
  block : Nat
  wl : Nat
  page : Nat
  plane : Nat
  cw : Nat
  deriving DecidableEq, Repr

/-- Decomposition of an MGA by the figures of the geometry (R143). -/
def mgaSplit (slots wls bits planes mga : Nat) : MgaParts :=
  let r0 := mga % slots
  let r1 := r0 / 4
  let r2 := r1 / planes
  let r3 := r2 / bits
  { die := mga / slots, cw := r0 % 4, plane := r1 % planes, page := r2 % bits, wl := r3 % wls, block := r3 / wls }

def mgaParts (s : State) (mga : Nat) : MgaParts :=
  mgaSplit (slotsDie s) (wordLines s) (s.rd rMAP_BITS) (s.rd rMAP_PLANES) mga

/-- The MGA of position `p` of the program unit at a die, block and word line. -/
def mgaOf (s : State) (die block wl p : Nat) : Nat :=
  die * slotsDie s + (block * wordLines s + wl) * puGran s + p

/-- Position of an MGA in its program unit. -/
def mgaPos (s : State) (mga : Nat) : Nat := mga % slotsDie s % puGran s

/-- Channel of a die. -/
def chanOf (die : Nat) : Nat := die / 32

/-! ## Dies -/

def State.die (s : State) (d : Nat) : Die := Tbl.getD s.fch.dies d Die.absent
def State.setDie (s : State) (d : Nat) (x : Die) : State :=
  s.setFch { s.fch with dies := Tbl.put s.fch.dies d x Die.absent }
def State.updDie (s : State) (d : Nat) (g : Die → Die) : State := s.setDie d (g (s.die d))
def State.chan (s : State) (c : Nat) : Chan := Tbl.getD s.fch.chans c Chan.empty
def State.setChan (s : State) (c : Nat) (x : Chan) : State :=
  s.setFch { s.fch with chans := Tbl.put s.fch.chans c x Chan.empty }
def State.updChan (s : State) (c : Nat) (g : Chan → Chan) : State := s.setChan c (g (s.chan c))

/-- A die that serves: in service, on a channel in service that is not retraining (R239, R241, R258). -/
def dieServes (s : State) (d : Nat) : Bool :=
  (s.die d).service && (s.chan (chanOf d)).inService && !(s.chan (chanOf d)).retraining

/-- A die is in service; its channel may be retraining. -/
def dieIn (s : State) (d : Nat) : Bool := (s.die d).service && (s.chan (chanOf d)).inService

/-! ## Layout (R302-R307) -/

/-- Multiplication by x in GF(32) with field polynomial 0x25 (R304). -/
def gf32x (a : Nat) : Nat := if a < 16 then 2 * a else (2 * a - 32) ^^^ 5

/-- Product in GF(32) (R304). -/
def gf32mul (a b : Nat) : Nat :=
  let t := fun i (x : Nat) => if b / 2 ^ i % 2 = 1 then x else 0
  let a1 := gf32x a
  let a2 := gf32x a1
  let a3 := gf32x a2
  t 0 a ^^^ t 1 a1 ^^^ t 2 a2 ^^^ t 3 a3 ^^^ t 4 (gf32x a3)

/-- The dies of channel `c` in the layout, in die-number order. -/
def layoutOn (l : Layout) (c : Nat) : List Nat := l.dies.filter fun d => chanOf d == c

/-- f_c = 32 / n_c of a channel (R304). -/
def fOf (l : Layout) (c : Nat) : Nat := 32 / max (layoutOn l c).length 1

/-- Member `c` of a span before substitution: die and block (R303, R304). -/
def baseMember (l : Layout) (blocks span c : Nat) : Nat × Nat :=
  if l.declustered then
    let g := span / 1024
    let b := span / 32 % 32
    let v := (span % 32) ^^^ gf32mul b c
    let f := fOf l c
    ((layoutOn l c).getD (v / f) 0, 32 * f * g + 32 * (v % f) + b)
  else
    let per := blocks - l.spareBlocks
    (Tbl.getD l.groups (span / per * 32 + c) 0, span % per)

/-- The span table entry of a span. -/
def State.span (s : State) (n : Nat) : Span := Tbl.getD s.par.spans n Span.erased

def State.setSpan (s : State) (n : Nat) (x : Span) : State :=
  s.setPar { s.par with spans := Tbl.put s.par.spans n x Span.erased }

def State.updSpan (s : State) (n : Nat) (g : Span → Span) : State := s.setSpan n (g (s.span n))

/-- Member `c` of a span with its substitution (R306, R307): die and block. -/
def member (s : State) (l : Layout) (span c : Nat) : Nat × Nat :=
  let x := s.span span
  match Tbl.get x.subst c with
  | some m => m
  | none => if x.spareMembers.isEmpty then baseMember l (nativeBlocks s) span c else x.spareMembers.getD c (0, 0)

/-- All K members of a span. -/
def members (s : State) (l : Layout) (span : Nat) : List (Nat × Nat) :=
  (List.range l.k).map fun c => member s l span c

/-- Member position of P, of Q and of data member `i` in row `r` (R302). -/
def posP (l : Layout) (r : Nat) : Nat := r % l.k
def posQ (l : Layout) (r : Nat) : Nat := (r + 1) % l.k
def posData (l : Layout) (r i : Nat) : Nat := (r + 2 + i) % l.k

/-- Data member index at a member position of row `r`, k − 2 for P and k − 1 for Q. -/
def memberIndex (l : Layout) (r pos : Nat) : Nat := (pos + l.k - (r + 2) % l.k) % l.k

/-- The span that a block belongs to by the layout's formula, and its member position. -/
def baseSpan (s : State) (l : Layout) (die block : Nat) : Option (Nat × Nat) :=
  if l.declustered then
    let c := chanOf die
    let f := fOf l c
    match (layoutOn l c).findIdx? (· == die) with
    | none => none
    | some q =>
      if block < 32 * f * l.gen then
        let g := block / (32 * f)
        let r := block % (32 * f)
        let b := r % 32
        let v := q * f + r / 32
        some (1024 * g + 32 * b + (v ^^^ gf32mul b c), c)
      else none
  else
    let per := nativeBlocks s - l.spareBlocks
    match l.groups.find? fun p => p.2 == die with
    | none => none
    | some (k, _) => if block < per then some (k / 32 * per + block, k % 32) else none

/-- A substitution or a spare span that names a block, if one does. -/
def substSpan (s : State) (die block : Nat) : Option (Nat × Nat) :=
  s.par.spans.findSome? fun p =>
    match p.2.subst.find? fun m => m.2 == (die, block) with
    | some m => some (p.1, m.1)
    | none => (p.2.spareMembers.findIdx? (· == (die, block))).map fun c => (p.1, c)

/-- The span and member position that a native block serves now. -/
def spanOf (s : State) (die block : Nat) : Option (Nat × Nat) :=
  match s.par.layout with
  | none => none
  | some l =>
    match substSpan s die block with
    | some p => some p
    | none =>
      match baseSpan s l die block with
      | some (n, c) => if (Tbl.get (s.span n).subst c).isNone then some (n, c) else none
      | none => none

/-- Data members per row, and members per span. -/
def dataMembers (s : State) : Nat := (s.par.layout.map Layout.d).getD 0
def spanMembers (s : State) : Nat := (s.par.layout.map Layout.k).getD 0

/-! ## Row valid counts (R334) -/

/-- Valid data granules of a row. -/
def rowValid (x : Span) (r : Nat) : Nat := Tbl.getD x.valid r 0

/-- Valid data granules of a span. -/
def spanValid (x : Span) : Nat := (x.valid.map Prod.snd).sum

/-- `n` granules from an MGA become valid. -/
def validUp (s : State) (mga n : Nat) : State :=
  let p := mgaParts s mga
  match spanOf s p.die p.block with
  | none => s
  | some (sp, _) => s.updSpan sp fun x => { x with valid := Tbl.put x.valid p.wl (rowValid x p.wl + n) 0 }

/-- `n` granules from an MGA stop being valid. -/
def validDown (s : State) (mga n : Nat) : State :=
  let p := mgaParts s mga
  match spanOf s p.die p.block with
  | none => s
  | some (sp, _) => s.updSpan sp fun x => { x with valid := Tbl.put x.valid p.wl (rowValid x p.wl - n) 0 }

end Sys2Proof.Machine
end

