-- ==== Sys2Proof/Machine/MapOps.lean ====
section
/-! DEFINITION. Shared operations of the map and the write buffer: entries (R145-R151), deltas (R165), slots
(R171-R175), chains of placement targets (R161, R182), zone chunks (R158). -/

namespace Sys2Proof.Machine

open Sys2Proof

/-! ## Entries -/

def Entry.unmapped : Entry := ⟨.unmapped, 0⟩

def unitKey (ns u : Nat) : Nat := ns * 2 ^ 48 + u
def chunkKey (ns z c : Nat) : Nat := ns * 2 ^ 48 + z * 2 ^ 24 + c


/-- A namespace that exists. -/
def State.space (s : State) (ns : Nat) : Option Space :=
  match Tbl.get s.map.spaces ns with
  | some sp => if sp.deleted then none else some sp
  | none => none

def State.setSpace (s : State) (ns : Nat) (sp : Space) : State :=
  s.setMap { s.map with spaces := Tbl.set s.map.spaces ns sp }

def coarseOf (s : State) (ns u : Nat) : Entry := Tbl.getD s.map.coarse (unitKey ns u) Entry.unmapped
def chunkOf (s : State) (ns z c : Nat) : Entry := Tbl.getD s.map.chunks (chunkKey ns z c) Entry.unmapped

/-- Entry of block `i` of a unit whose coarse entry is `e` (R147, R150). -/
def Entry.at (e : Entry) (i : Nat) : Entry :=
  match e.kind with
  | .media => ⟨.media, e.addr + i⟩
  | .buffer => ⟨.buffer, e.addr + i⟩
  | k => ⟨k, 0⟩

/-- Entry `i` of a fine unit. -/
def fineEntry (s : State) (f i : Nat) : Entry :=
  match Tbl.get s.map.fine f with
  | some u => u.entries.getD i Entry.unmapped
  | none => Entry.unmapped

/-- Zone, offset in it, of a logical block. -/
def zoneOf (sp : Space) (lba : Nat) : Nat × Nat := (lba / max sp.zsze 1, lba % max sp.zsze 1)

def Zone.empty : Zone := { state := .empty, wp := 0, data := 0, opened := 0 }

def Space.zone (sp : Space) (z : Nat) : Zone := Tbl.getD sp.zones z Zone.empty

/-- The program unit of an assembly record. -/
def recordOf (s : State) (r : Nat) : Option Pu := s.wbf.pus.find? fun p => p.recNo == r

/-- Data blocks of a chunk: those that the zone has written. -/
def chunkData (s : State) (zn : Zone) (c : Nat) : Nat := min (puGran s) (zn.data - c * puGran s)

/-- A slot descriptor as it stands. -/
def State.slot (s : State) (i : Nat) : Slot := Tbl.getD s.wbf.slots i Slot.free

/-- The entry of position `p` of a chunk. A granule whose write is not at its completion point is not in the map
(R190). -/
def chunkPart (s : State) (ns : Nat) (sp : Space) (z c p : Nat) : Entry :=
  let e := chunkOf s ns z c
  match e.kind with
  | .media => if p < chunkData s (sp.zone z) c then ⟨.media, e.addr + p⟩ else Entry.unmapped
  | .buffer =>
    match (recordOf s e.addr).bind fun r => r.slots.getD p none with
    | some i => if (s.slot i).pinned then ⟨.buffer, i⟩ else Entry.unmapped
    | none => Entry.unmapped
  | .fine => fineEntry s (e.addr + p / 16) (p % 16)
  | k => ⟨k, 0⟩

/-- The entry of one logical block: a place in the buffer, a granule, or none (R146, R155, R159). -/
def blockEntry (s : State) (ns lba : Nat) : Entry :=
  match s.space ns with
  | none => Entry.unmapped
  | some sp =>
    match sp.typ with
    | .conventional =>
      let e := coarseOf s ns (lba / 16)
      if e.kind = .fine then fineEntry s e.addr (lba % 16) else e.at (lba % 16)
    | .zoned =>
      let (z, off) := zoneOf sp lba
      if off ≥ (sp.zone z).wp then Entry.unmapped else chunkPart s ns sp z (off / puGran s) (off % puGran s)

/-! ## Deltas (R165-R167) -/

/-- Records of one half of the 192 MiB delta log. -/
def deltaHalf : Nat := 6291456

/-- A change of an entry is logged in the active half. -/
def State.delta (s : State) (ns lba typ : Nat) (e : Entry) : State :=
  s.setMap { s.map with active := { lba := lba, ns := ns, typ := typ, entry := e } :: s.map.active }

/-! ## Slots (R171-R174) -/

def State.setSlot (s : State) (i : Nat) (x : Slot) : State :=
  s.setWbf { s.wbf with slots := Tbl.put s.wbf.slots i x Slot.free }

def State.updSlot (s : State) (i : Nat) (g : Slot → Slot) : State := s.setSlot i (g (s.slot i))

/-- A slot that is no longer needed returns to FREE when no read transfers from it (R174). -/
def State.freeSlot (s : State) (i : Nat) : State :=
  let x := s.slot i
  if x.readers = 0 then s.setSlot i Slot.free else s.setSlot i { x with dying := true, group := false }

def State.target (s : State) (t : Nat) : Target := Tbl.getD s.wbf.targets t Target.empty

def State.setTarget (s : State) (t : Nat) (x : Target) : State :=
  s.setWbf { s.wbf with targets := Tbl.put s.wbf.targets t x Target.empty }

def State.updTarget (s : State) (t : Nat) (g : Target → Target) : State := s.setTarget t (g (s.target t))

def State.stream (s : State) (n : Nat) : Stream := Tbl.getD s.wbf.streams n Stream.empty

def State.setStream (s : State) (n : Nat) (x : Stream) : State :=
  s.setWbf { s.wbf with streams := Tbl.put s.wbf.streams n x Stream.empty }

def State.updStream (s : State) (n : Nat) (g : Stream → Stream) : State := s.setStream n (g (s.stream n))

/-- A group of 16 in its target's chain becomes 16 single granules. -/
def ungroup (s : State) (i : Nat) : State :=
  let x := s.slot i
  if !x.group then s
  else
    let s := s.setSlot i { x with group := false }
    s.updTarget x.target fun t =>
      { t with held := t.held.flatMap fun j => if j = i then (List.range 16).map (i + ·) else [j] }

/-- First slot of the group that a slot of a coarse BUFFER unit belongs to. -/
def groupBase (i : Nat) : Nat := i - i % 16

/-- An overwritten granule: a HELD one is absorbed, its slot freed; a later one is programmed, and its swap fails
(R191). -/
def absorb (s : State) (i : Nat) : State :=
  let x := s.slot i
  if x.state = .held then
    let s := s.updTarget x.target fun t => { t with held := t.held.filter (· != i) }
    (s.bump rWBF_ABSORBED 1).freeSlot i
  else s

/-- An entry stops naming `n` granules from its address: a MEDIA one no longer counts as valid (R334), a BUFFER one
is absorbed where it is still HELD. -/
def dropEntry (s : State) (e : Entry) (n : Nat) : State :=
  match e.kind with
  | .media => validDown s e.addr n
  | .buffer => (List.range n).foldl (fun s i => absorb s (e.addr + i)) (if n = 16 then ungroup s e.addr else s)
  | _ => s

/-- An entry begins to name `n` granules. -/
def addEntry (s : State) (e : Entry) (n : Nat) : State :=
  if e.kind = .media then validUp s e.addr n else s

/-! ## Fine pool (R149-R154) -/

/-- Lowest key that a table does not list, at or above `k`. -/
def freeKey {α : Type} (t : Tbl α) (k : Nat) : Nat :=
  match t with
  | [] => k
  | (k', _) :: r => if k' < k then freeKey r k else if k' = k then freeKey r (k + 1) else k

/-- Lowest multiple of `n`, at or above `k`, from which `n` keys are unlisted. -/
def freeGroup {α : Type} (t : Tbl α) (n k : Nat) : Nat :=
  match t with
  | [] => k
  | (k', _) :: r =>
    if k' < k then freeGroup r n k else if k' < k + n then freeGroup r n ((k' / n + 1) * n) else k

/-- Lowest key from which `n` keys are unlisted. -/
def freeRun {α : Type} (t : Tbl α) (n k : Nat) : Nat :=
  match t with
  | [] => k
  | (k', _) :: r => if k' < k then freeRun r n k else if k' < k + n then freeRun r n (k' + 1) else k

/-- Pool size that holds for allocation: the target of a creation that waits (R561), else the pool in force. -/
def finePool (s : State) : Nat :=
  match s.map.fineCreate with
  | some w => min w.target s.map.fineTotal
  | none => s.map.fineTotal

/-- Fine units free and unreserved (MAP_FINE_FREE): 0 while a creation waits (R561). -/
def fineFree (s : State) : Nat := finePool s - s.map.fine.length - s.map.fineReserved

def State.setFineUnit (s : State) (f : Nat) (u : FineUnit) : State :=
  s.setMap { s.map with fine := Tbl.set s.map.fine f u }

def State.freeFine (s : State) (f : Nat) : State :=
  s.setMap { s.map with fine := Tbl.erase s.map.fine f }

/-- The 16 entries of a fine unit that a coarse entry turns into (R150). -/
def spread (e : Entry) : List Entry := (List.range 16).map e.at

/-- Promotion: the unit gets a fine unit that holds its former mapping; a group of slots becomes single granules
(R150). -/
def promote (s : State) (ns u : Nat) : State :=
  let e := coarseOf s ns u
  if e.kind = .fine then s
  else
    let s := if e.kind = .buffer then ungroup s e.addr else s
    let f := freeKey s.map.fine 0
    let s := s.setFineUnit f { ns := ns, unit := u, age := 0, zchunk := false, entries := spread e }
    let s := s.setMap { s.map with coarse := Tbl.set s.map.coarse (unitKey ns u) ⟨.fine, f⟩ }
    (s.bump rMAP_PROMOTE 1).delta ns (16 * u) 2 ⟨.fine, f⟩

/-- Set one entry of a fine unit; AGE returns to 0 (R149). -/
def setFine (s : State) (f i ns lba : Nat) (e : Entry) : State :=
  match Tbl.get s.map.fine f with
  | none => s
  | some u =>
    let s := dropEntry s (u.entries.getD i Entry.unmapped) 1
    let s := s.setFineUnit f { u with age := 0, entries := u.entries.set i e }
    (addEntry s e 1).delta ns lba 1 e

/-- Set a coarse entry directly; a fine unit that the unit held returns to the pool (R151). -/
def setCoarse (s : State) (ns u : Nat) (e : Entry) : State :=
  let old := coarseOf s ns u
  let s := match old.kind with
    | .fine =>
      match Tbl.get s.map.fine old.addr with
      | some x => (x.entries.foldl (fun s e => dropEntry s e 1) s).freeFine old.addr
      | none => s
    | _ => dropEntry s old 16
  let s := s.setMap { s.map with coarse := Tbl.put s.map.coarse (unitKey ns u) e Entry.unmapped }
  (addEntry s e 16).delta ns (16 * u) 0 e

/-- Sixteen block entries that one coarse entry says: the same kind without an address, a group of slots, or
granules in a row at an offset that R147 allows. -/
def wholeEntry (s : State) (es : List Entry) : Option Entry :=
  match es with
  | [] => none
  | e :: _ =>
    if es.length ≠ 16 ∨ e.kind = .fine then none
    else if es ≠ spread e then none
    else match e.kind with
      | .buffer => if (s.slot e.addr).group ∧ e.addr % 16 = 0 then some e else none
      | .media => if mgaPos s e.addr % 16 = 0 then some e else none
      | _ => some e

/-- Set the entries of consecutive blocks of a conventional namespace: whole units by their coarse entry, parts by
promotion (R150, R151). `fuel` is the number of blocks. -/
def setBlocks (s : State) (ns lba : Nat) (es : List Entry) : Nat → State
  | 0 => s
  | fuel + 1 =>
    match es with
    | [] => s
    | e :: r =>
      match (if lba % 16 = 0 then wholeEntry s (es.take 16) else none) with
      | some w => setBlocks (setCoarse s ns (lba / 16) w) ns (lba + 16) (es.drop 16) fuel
      | none =>
        let s := promote s ns (lba / 16)
        let s := setFine s (coarseOf s ns (lba / 16)).addr (lba % 16) ns lba e
        setBlocks s ns (lba + 1) r fuel

/-! ## Placement targets (R161, R182) -/

/-- Target numbers: the default target of function `f`, a reclaim unit handle, a zone. -/
def tgtFn (f : Nat) : Nat := f
def tgtRuh (h : Nat) : Nat := 256 + h
def tgtZone (ns z : Nat) : Nat := 512 + ns * 2 ^ 24 + z

/-- Target streams by slices per syndrome (R179). -/
def slices (s : State) : Nat := if puGran s ≤ 64 then 1 else 2
def targetStreams (s : State) : Nat := if slices s = 1 then 252 else 124

/-- Targets bound to a stream. -/
def targetsOf (s : State) (n : Nat) : List (Nat × Target) := s.wbf.targets.filter fun p => p.2.stream == some n

/-- The stream among `cands` with the fewest targets, the lowest on a tie. -/
def fewest (s : State) (cands : List Nat) : Option Nat :=
  cands.foldl (fun a n => match a with
    | none => some n
    | some b => if (targetsOf s n).length < (targetsOf s b).length then some n else some b) none

/-- A default target that holds no buffered granule gives up its stream to another target (R161 rule 3). -/
def idleDefault (s : State) (p : Nat × Target) : Bool :=
  decide (p.1 < 256) && p.2.held.isEmpty && !(s.wbf.pus.any fun u => u.target == p.1 && u.state != .done)

/-- A stream that no target needs: none is bound, or only default targets that hold nothing. -/
def streamOpen (s : State) (n : Nat) : Bool := (targetsOf s n).all (idleDefault s)

/-- The stream for a target's first write (R161): one with no target; else the fewest targets among those that
carry targets of the same function; else the fewest. A handle's stream is not shared. -/
def chooseStream (s : State) (f : Nat) : Option Nat :=
  let all := List.range (targetStreams s)
  let shared := all.filter fun n => !(targetsOf s n).any fun p => decide (256 ≤ p.1 ∧ p.1 < 512)
  ((all.find? fun n => (targetsOf s n).isEmpty).orElse fun _ => shared.find? (streamOpen s)).orElse fun _ =>
    (fewest s (shared.filter fun n => (targetsOf s n).any fun p => p.2.fn == f)).orElse fun _ => fewest s shared

/-- Bind a target to a stream if it has none; default targets that held the stream idly are unbound. -/
def bindTarget (s : State) (t f : Nat) : State :=
  let x := s.target t
  if x.stream.isSome then s.setTarget t { x with fn := f }
  else
    match chooseStream s f with
    | none => s.setTarget t { x with fn := f }
    | some n =>
      let s := if streamOpen s n then
          s.setWbf { s.wbf with targets := s.wbf.targets.map fun (p : Nat × Target) =>
            (p.1, if p.2.stream = some n then { p.2 with stream := none } else p.2) }
        else s
      s.setTarget t { x with fn := f, stream := some n }

/-- Mark a target for closing with pad, of its open program unit and, with `row`, of the row as well; function `f` is
charged. A Flush's mark goes before any other (R186, R198). -/
def markClose (s : State) (t f : Nat) (row : Bool) : State :=
  s.updTarget t fun x => { x with close := true, closeRow := x.closeRow || row,
                                  closeFn := if row || !x.close then f else x.closeFn }

/-- The 64 reclaim unit handles hold a stream each for as long as FDP is enabled (R156). -/
def handleTargets (streams : List Nat) : Tbl Target :=
  (List.range 64).foldl (fun t h => Tbl.set t (tgtRuh h) { Target.empty with stream := streams[h]? }) []

/-- A granule joins its target's chain in completion order. -/
def pushHeld (s : State) (t i : Nat) : State :=
  s.updTarget t fun x => { x with held := x.held ++ [i], idle := 0 }

/-! ## Assembly records and zone chunks (R158, R183) -/

/-- Lowest free assembly record. -/
def freeRecord (s : State) : Option Nat :=
  let used := s.wbf.pus.map Pu.recNo
  (List.range 8192).find? fun r => !used.contains r

/-- A program unit that is a member of a row: past its assembly and its wait for the row. -/
def Pu.placed (u : Pu) : Bool := u.state != .opening && u.state != .waiting

/-- Records in use. -/
def recordsUsed (s : State) : Nat := (s.wbf.pus.filter fun p => decide (p.recNo < 8192)).length

def State.addPu (s : State) (p : Pu) : State := s.setWbf { s.wbf with pus := s.wbf.pus ++ [p] }

/-- Change a program unit by its record. -/
def State.updPu (s : State) (r : Nat) (g : Pu → Pu) : State :=
  s.setWbf { s.wbf with pus := s.wbf.pus.map fun p => if p.recNo = r then g p else p }

/-- Set a zone chunk entry with its delta (type 4). -/
def setChunk (s : State) (ns z c : Nat) (e : Entry) (lba : Nat) : State :=
  (s.setMap { s.map with chunks := Tbl.put s.map.chunks (chunkKey ns z c) e Entry.unmapped }).delta ns lba 4 e

/-- The first logical block of a chunk. -/
def chunkLba (s : State) (sp : Space) (z c : Nat) : Nat := z * sp.zsze + c * puGran s

/-- The open program unit of chunk `c` of a zone's target (R158). -/
def openUnit (s : State) (t c : Nat) : Option Pu :=
  s.wbf.pus.find? fun u => u.target == t && u.state == .opening && u.chunk == some c

/-- Free assembly records. -/
def recordsFree (s : State) : Nat := 8192 - recordsUsed s

/-- A written block of a zone is accepted: it takes its place in the open chunk's record, taken at the chunk's first
write, or joins the chain of the zone's target (R158, R183). -/
def zoneWrite (s : State) (ns : Nat) (sp : Space) (lba i : Nat) : State :=
  let (z, off) := zoneOf sp lba
  let c := off / puGran s
  let p := off % puGran s
  let t := tgtZone ns z
  let place (s : State) : State := s.updTarget t fun x => { x with idle := 0 }
  if (chunkOf s ns z c).kind = .fine then pushHeld s t i
  else match openUnit s t c with
    | some u => place (s.updPu u.recNo fun u => { u with slots := u.slots.set p (some i) })
    | none =>
      match freeRecord s with
      | none => s.ev eWBF_ASM_WAIT
      | some r =>
        let slots := (List.replicate (puGran s) none).set p (some i)
        let n := (s.target t).stream.getD 0
        let f := (s.slot i).fn
        place (s.addPu { Pu.blank with
          recNo := r, stream := n, target := t, fn := f, padFn := f, slots := slots, chunk := some c })

/-- Fine units of a chunk (R158). -/
def chunkUnits (s : State) : Nat := (puGran s + 15) / 16

/-- Owner unit number of a chunk's fine units. DESIGN CHOICE: the spec names none for a unit with ZCHUNK; it is the
chunk's number in its namespace. -/
def chunkNo (s : State) (sp : Space) (z c : Nat) : Nat := z * (sp.zcap / max (puGran s) 1) + c

/-- Zone and chunk of a chunk number. -/
def chunkOfNo (s : State) (sp : Space) (n : Nat) : Nat × Nat :=
  let per := max (sp.zcap / max (puGran s) 1) 1
  (n / per, n % per)

/-- A chunk becomes FINE: consecutive fine units take its entries as they stand (R158). -/
def fineChunk (s : State) (ns : Nat) (sp : Space) (z c : Nat) : State :=
  if (chunkOf s ns z c).kind = .fine then s
  else
    let n := chunkUnits s
    let f := freeRun s.map.fine n 0
    let part (p : Nat) : Entry := if p < puGran s then chunkPart s ns sp z c p else Entry.unmapped
    let unit (k : Nat) : FineUnit :=
      { ns := ns, unit := chunkNo s sp z c, age := 0, zchunk := true,
        entries := (List.range 16).map fun i => part (16 * k + i) }
    let t := (List.range n).foldl (fun t k => t.setFineUnit (f + k) (unit k)) s
    let t := setChunk t ns z c ⟨.fine, f⟩ (chunkLba s sp z c)
    (List.range (puGran s)).foldl (fun t p => t.delta ns (chunkLba s sp z c + p) 1 (part p)) t

/-- An open chunk whose program unit is closed before it is complete becomes FINE, once fine units are free: its slots
join the target's chain as single granules (R158, R186). -/
def splitChunk (s : State) (u : Pu) (ns z c : Nat) (sp : Space) : State :=
  if chunkUnits s > fineFree s then s
  else
    let s := fineChunk s ns sp z c
    let s := s.setWbf { s.wbf with pus := s.wbf.pus.filter fun p => p.recNo != u.recNo }
    (u.slots.filterMap id).foldl (fun s i => pushHeld s u.target i) s

/-- Set the entry of one position of a zone, whose chunk is FINE or becomes it. -/
def setZonePart (s : State) (ns : Nat) (sp : Space) (lba : Nat) (e : Entry) : State :=
  let (z, off) := zoneOf sp lba
  let s := fineChunk s ns sp z (off / puGran s)
  let p := off % puGran s
  setFine s ((chunkOf s ns z (off / puGran s)).addr + p / 16) (p % 16) ns lba e

/-- A zoned write at its completion point: the entry of a block names its slot, its record, or the granule that its
program has written (R190). -/
def landZone (s : State) (ns : Nat) (sp : Space) (lba i : Nat) : State :=
  let (z, off) := zoneOf sp lba
  let c := off / puGran s
  let p := off % puGran s
  let first := chunkLba s sp z c
  match (s.slot i).mga, (chunkOf s ns z c).kind with
  | some m, .fine => setZonePart s ns sp lba ⟨.media, m⟩
  | some m, .unmapped => validUp (setChunk s ns z c ⟨.media, m - p⟩ first) (m - p) (chunkData s (sp.zone z) c)
  | none, .fine => setZonePart s ns sp lba ⟨.buffer, i⟩
  | none, .unmapped =>
    match s.wbf.pus.find? fun u => u.target == tgtZone ns z && u.chunk == some c && u.slots.contains (some i) with
    | some u => setChunk s ns z c ⟨.buffer, u.recNo⟩ first
    | none => s
  | _, _ => s

/-- One chunk of a zone returns to UNWRITTEN (R160): its fine units are freed, its HELD slots too, and its record if
it is still open; a program unit on its way to media no longer stands for it. -/
def clearChunk (s : State) (ns z c : Nat) (sp : Space) : State :=
  let e := chunkOf s ns z c
  let s := match e.kind with
    | .media => validDown s e.addr (chunkData s (sp.zone z) c)
    | .buffer =>
      match recordOf s e.addr with
      | some u =>
        if u.state = PuState.opening then
          let s := (u.slots.filterMap id).foldl (fun (s : State) i => s.freeSlot i) s
          s.setWbf { s.wbf with pus := s.wbf.pus.filter fun p => p.recNo != u.recNo }
        else s
      | none => s
    | .fine => (List.range (chunkUnits s)).foldl (fun s k =>
        match Tbl.get s.map.fine (e.addr + k) with
        | some x => (x.entries.foldl (fun s e => dropEntry s e 1) s).freeFine (e.addr + k)
        | none => s) s
    | _ => s
  let gone (u : Pu) : Pu := if u.target = tgtZone ns z ∧ u.chunk = some c then { u with chunk := none } else u
  let s := s.setWbf { s.wbf with pus := s.wbf.pus.map gone }
  if e.kind = .unmapped then s else setChunk s ns z c Entry.unmapped (chunkLba s sp z c)

/-- Every chunk entry of a zone that is not UNWRITTEN. -/
def zoneChunks (s : State) (ns z : Nat) : List Nat :=
  (s.map.chunks.filter fun p => p.1 / 2 ^ 24 == ns * 2 ^ 24 + z).map fun p => p.1 % 2 ^ 24

/-- ENTRY of a zone state record. DESIGN CHOICE: R165 gives it no form; bits [21:0] hold the write pointer, [43:22] the
blocks written, both in logical blocks of the zone, and [46:44] the state. -/
def Zone.entryBits (z : Zone) : Nat := z.wp + 2 ^ 22 * z.data + 2 ^ 44 * z.state.ctorIdx

/-- The zone that such an entry gives. -/
def zoneOfBits (b : Nat) : Zone :=
  let t : ZState := match b / 2 ^ 44 % 8 with
    | 1 => .implOpen | 2 => .explOpen | 3 => .closed | 4 => .full | 5 => .readOnly | _ => .empty
  { state := t, wp := b % 2 ^ 22, data := b / 2 ^ 22 % 2 ^ 22, opened := 0 }

/-- A zone of a namespace, changed, with its delta (type 5). -/
def State.setZone (s : State) (ns : Nat) (z : Nat) (zn : Zone) : State :=
  match s.space ns with
  | none => s
  | some sp =>
    let s := s.setSpace ns { sp with zones := Tbl.put sp.zones z zn Zone.empty }
    s.delta ns (z * sp.zsze) 5 ⟨.unmapped, zn.entryBits⟩

/-! ## Write sequence (R152) -/

/-- The highest write sequence number (R152). -/
def wseqLast : Nat := 2 ^ 48 - 1

/-- A namespace whose sequence has come to its end is write-protected, and MAP_SEQ_LIMIT is written (R152). -/
def seqLimit (s : State) (ns : Nat) : State :=
  match s.space ns with
  | none => s
  | some sp =>
    if sp.seq < wseqLast ∨ sp.wp then s
    else ((s.setSpace ns { sp with wp := true }).ev eMAP_SEQ_LIMIT).raise lMAP_SEQ_LIMIT none [p2 ns]

/-- The next write sequence number of a namespace. -/
def nextWseq (s : State) (ns : Nat) : Nat × State :=
  match s.space ns with
  | none => (0, s)
  | some sp =>
    let n := min (sp.seq + 1) wseqLast
    let s := s.setSpace ns { sp with seq := n }
    (n, seqLimit (s.setMap { s.map with seqHigh := max s.map.seqHigh n }) ns)

/-- A namespace's sequence moves to the high-water mark plus one (R152). -/
def bumpSeq (s : State) (ns : Nat) : State :=
  match s.space ns with
  | none => s
  | some sp => seqLimit (s.setSpace ns { sp with seq := min (s.map.seqHigh + 1) wseqLast }) ns

/-! ## Clearing a namespace (R141, R562) -/

/-- Every entry of a namespace becomes UNMAPPED, its fine units are freed, its zones return to Empty, its HELD slots
are absorbed, and one delta of type 6 says so. -/
def clearSpace (s : State) (ns : Nat) : State :=
  let units := (s.map.coarse.filter fun (p : Nat × Entry) => p.1 / 2 ^ 48 == ns).map fun (p : Nat × Entry) => p.1 % 2 ^ 48
  let act := s.map.active
  let s := units.foldl (fun s u => setCoarse s ns u Entry.unmapped) s
  let s := match s.space ns with
    | none => s
    | some sp =>
      let cs := (s.map.chunks.filter fun (p : Nat × Entry) => p.1 / 2 ^ 48 == ns).map fun (p : Nat × Entry) => p.1 % 2 ^ 48
      let s := cs.foldl (fun s k => clearChunk s ns (k / 2 ^ 24) (k % 2 ^ 24) sp) s
      match s.space ns with
      | some sp => s.setSpace ns { sp with zones := [] }
      | none => s
  let held := (s.wbf.slots.filter fun (p : Nat × Slot) =>
    p.2.ns == ns && p.2.state == SlotState.held && !p.2.reserve).map Prod.fst
  let s := held.foldl absorb (held.foldl ungroup s)
  (s.setMap { s.map with active := act }).delta ns 0 6 Entry.unmapped

/-! ## Pages of the checkpoint (R166) -/

/-- The page of the checkpoint that lies at an MGA, by its number. -/
def mapPageAt (s : State) (mga : Nat) : Option Nat := (s.map.dir.find? fun p => p.2 == mga).map Prod.fst

/-- A page of the checkpoint has a new place. -/
def placePage (s : State) (num mga : Nat) : State :=
  validUp (s.setMap { s.map with dir := Tbl.set s.map.dir num mga }) mga 1

/-- Reclaim moved a page of the checkpoint. DESIGN CHOICE: the spec gives map pages no repoint; the directory and the
root in force take the new place at once. -/
def movePage (s : State) (num old mga : Nat) : State :=
  if Tbl.get s.map.dir num ≠ some old then s
  else
    let s := validDown (placePage s num mga) old 1
    s.setPar { s.par with root := s.par.root.map fun r =>
      { r with map := { r.map with dir := if Tbl.get r.map.dir num = some old then Tbl.set r.map.dir num mga else r.map.dir } } }

/-! ## Key slots (R395, R398, R405) -/

/-- Key slot of a namespace index. -/
def keySlotNs (ns : Nat) : Nat := 512 + ns

def State.keySlot (s : State) (k : Nat) : KeySlot := Tbl.getD s.key.slots k KeySlot.empty


def State.setKeySlot (s : State) (k : Nat) (x : KeySlot) : State :=
  s.setKey { s.key with slots := Tbl.put s.key.slots k x KeySlot.empty }

/-- A namespace slot's key changes: the old key becomes the shadow until no job refers to it (R405). `seq` is a
command that completes at that point. -/
def changeKey (s : State) (ns : Nat) (key : Option Nat) (source : KeySource) (owner keyId : Nat) (seq : Option Nat) :
    State :=
  let k := s.keySlot (keySlotNs ns)
  let s := s.setKeySlot (keySlotNs ns)
    { k with key := key, shadow := if k.key.isSome then k.key else k.shadow, source := source, owner := owner,
             keyId := keyId, gen := k.gen + 1 }
  if k.key.isNone ∧ k.shadow.isNone ∧ seq.isNone then s
  else s.setKey { s.key with clears := s.key.clears ++ [{ slot := keySlotNs ns, seq := seq }] }

/-- The key check value of a key: the first 8 B of SHA-384 over QH7620-KCV and the 64 B of its slot (R395, R398). -/
def kcv (key : Nat) : Nat :=
  Config.sha384 ([0x51, 0x48, 0x37, 0x36, 0x32, 0x30, 0x2D, 0x4B, 0x43, 0x56] ++ leBytes 64 key) % 2 ^ 64

/-- The record of a namespace in the key store (R398). -/
def keyRec (s : State) (ns : Nat) : Option KeyRec := Tbl.get s.nor.keys ns

/-- A record is written into the copy of the key store that does not hold the newer one, with the next generation (R398). -/
def Nor.putKey (n : Nor) (ns : Nat) (r : KeyRec) : Nor :=
  match Tbl.get n.keys ns with
  | some old => { n with keys := Tbl.set n.keys ns { r with gen := old.gen + 1 }, keysOld := Tbl.set n.keysOld ns old }
  | none => { n with keys := Tbl.set n.keys ns r }

/-- The roster is written into the copy that does not hold the newer one, with the next generation (R479, R488). -/
def Nor.putRoster (n : Nor) (r : Roster) : Nor :=
  { n with roster := { r with generation := n.roster.generation + 1 }, rosterOld := n.roster }

/-- The function table is written in the same way, with its header (R479, R497). -/
def Nor.putTable (n : Nor) (t : Tbl FnEntry) (mig : Nat) (sanitize : Bool) : Nor :=
  { n with fnTable := t, migSerial := mig, sanitize := sanitize, fnGen := n.fnGen + 1,
           fnOld := { table := n.fnTable, mig := n.migSerial, sanitize := n.sanitize } }

/-- A write of a namespace's record to NOR; `seqs` complete with it (R398, R403). -/
def State.writeKeyRec (s : State) (ns : Nat) (r : KeyRec) (seqs : List Nat) (dw0 : Dword) : State :=
  s.setNorWaits (s.norWaits ++
      [{ seqs := seqs, dw0 := dw0, entry := none, mig := s.ten.migSerial, key := some (ns, r) }])

/-- KEY's random bit generator serves a request (R409). -/
def useDrbg (s : State) : State := (s.wake keyDomains).setKey { s.key with requests := s.key.requests + 1 }

/-- The record of a loaded or generated key. -/
def newKeyRec (sp : Space) (key : Option Nat) (keyId : Nat) (erased : List Nat) : KeyRec :=
  { mode := sp.mode, source := sp.source, owner := sp.owner, keyId := keyId, kcv := (key.map kcv).getD 0,
    erased := erased, gen := 0, wrapped := if sp.source = .volatile then none else key }

end Sys2Proof.Machine
end

