-- ==== Sys2Proof/Machine/Codes.lean ====
section
/-! DEFINITION. Pure codes and record layouts: CRC-32 and the 64 B ledger record (R500), the internal CRC-16 (R294),
codeword metadata (R275), the syndromes of a stripe row (R299, R300), the LDPC code (R278, R279) and the scrambler
(R274). -/

namespace Sys2Proof.Machine

open Sys2Proof

/-- One bit of the reflected CRC-32 with polynomial 0x04C1_1DB7 (R500). -/
def crc32Bit (c : BitVec 32) : BitVec 32 :=
  if c.getLsbD 0 then (c >>> 1) ^^^ 0xEDB88320 else c >>> 1

/-- One byte of the CRC-32. -/
def crc32Byte (c : BitVec 32) (b : Byte) : BitVec 32 :=
  let x := c ^^^ b.setWidth 32
  crc32Bit (crc32Bit (crc32Bit (crc32Bit (crc32Bit (crc32Bit (crc32Bit (crc32Bit x)))))))

/-- CRC-32: initial value 0xFFFF_FFFF, reflected, final inversion (R500). -/
def crc32 (b : List Byte) : BitVec 32 := ~~~ b.foldl crc32Byte 0xFFFFFFFF

/-- The payload bytes of a record, 30 B (R501). -/
def payloadBytes (p : List (Nat × Nat)) : List Byte :=
  let b := (p.map fun v => leBytes v.2 v.1).flatten
  b ++ zeros (30 - b.length)

/-- A ledger record, 64 B (R500). -/
def recordBytes (r : LRec) : List Byte :=
  let head := leBytes 6 r.seq ++ leBytes 3 r.pcycle ++ leBytes 3 r.hours ++ leBytes 2 (r.hourSec + 4096 * r.severity)
    ++ leBytes 1 r.subsys ++ leBytes 1 r.code ++ leBytes 1 (r.func.getD 0)
    ++ leBytes 1 ((if r.func.isSome then 1 else 0) + (if r.direct then 2 else 0) + (if r.summary then 4 else 0)
        + (if r.early then 8 else 0))
    ++ leBytes 2 r.suppressed ++ leBytes 6 r.seconds ++ leBytes 2 r.ms ++ payloadBytes r.payload
  head ++ leBytes 4 (crc32 head).toNat ++ [0, 0x5A]

/-! ## Bytes and bit vectors -/

/-- The bits of bytes, byte 0 lowest (R6). -/
def bitsOf (w : Nat) (b : List Byte) : BitVec w := BitVec.ofNat w (leNat b)

/-- The lowest `n` bytes of a bit vector. -/
def bytesOf {w : Nat} (n : Nat) (x : BitVec w) : List Byte :=
  (List.range n).map fun i => BitVec.ofNat 8 (x.toNat / 256 ^ i)

/-! ## Internal CRC-16 (R294) -/

/-- One bit of the CRC-16 with polynomial 0x8BB7. -/
def crc16Bit (c : BitVec 16) : BitVec 16 := if c.getLsbD 15 then (c <<< 1) ^^^ 0x8BB7 else c <<< 1

/-- One byte: no reflection, no final inversion. -/
def crc16Byte (c : BitVec 16) (b : Byte) : BitVec 16 :=
  let x := c ^^^ (b.setWidth 16 <<< 8)
  crc16Bit (crc16Bit (crc16Bit (crc16Bit (crc16Bit (crc16Bit (crc16Bit (crc16Bit x)))))))

/-- CRC-16 of bytes, initial value 0. -/
def crc16Of (b : List Byte) : BitVec 16 := b.foldl crc16Byte 0

/-- CRC-16 of the bytes of a data part. -/
def crc16 (d : Block) : BitVec 16 := crc16Of (bytesOf 4096 d)

/-! ## DRAM lines, SRAM and fabric words (R361-R364, R377) -/

/-- One bit of the reflected CRC-32 with polynomial 0x1EDC_6F41 (R362). -/
def crc32cBit (c : BitVec 32) : BitVec 32 :=
  if c.getLsbD 0 then (c >>> 1) ^^^ 0x82F63B78 else c >>> 1

def crc32cByte (c : BitVec 32) (b : Byte) : BitVec 32 :=
  let x := c ^^^ b.setWidth 32
  crc32cBit (crc32cBit (crc32cBit (crc32cBit (crc32cBit (crc32cBit (crc32cBit (crc32cBit x)))))))

/-- Initial value 0xFFFF_FFFF, reflected, final inversion (R362). -/
def crc32c (b : List Byte) : BitVec 32 := ~~~ b.foldl crc32cByte 0xFFFFFFFF

/-- An owner tag (R363). -/
structure OwnerTag where
  fn : Nat
  cls : Nat
  epoch : Nat
  region : Nat
  deriving DecidableEq, Repr

/-- FUNC, CLASS, EPOCH and REGION in 32 bits. -/
def OwnerTag.pack (t : OwnerTag) : BitVec 32 :=
  BitVec.ofNat 32 (t.fn % 256 + 2 ^ 8 * (t.cls % 16) + 2 ^ 12 * (t.epoch % 256) + 2 ^ 20 * (t.region % 4096))

/-- The tag in 32 bits. -/
def ownerTag (w : BitVec 32) : OwnerTag :=
  let n := w.toNat
  { fn := n % 256, cls := n / 2 ^ 8 % 16, epoch := n / 2 ^ 12 % 256, region := n / 2 ^ 20 }

/-- The CRC-16 of a 16 B word behind a 4 B address: QCRC of quarter k of a line at line index * 4 + k (R362), and the check
of an SRAM or fabric word at its word address (R377). -/
def wordCrc (addr : Nat) (b : List Byte) : BitVec 16 := crc16Of (leBytes 4 addr ++ b)

/-- LCRC: the 64 data bytes, the line index and the owner tag (R362). -/
def lineCrc (line : Nat) (data : List Byte) (tag : BitVec 32) : BitVec 32 :=
  crc32c (data ++ leBytes 4 line ++ leBytes 4 tag.toNat)

/-- Quarter k of 64 data bytes. -/
def lineQuarter (data : List Byte) (k : Nat) : List Byte := (data.drop (16 * k)).take 16

/-- The 80 B of a line as DMC writes it: data, four QCRC, LCRC, owner tag (R361, R362). -/
def lineBytes (line : Nat) (data : List Byte) (tag : BitVec 32) : List Byte :=
  data ++ ((List.range 4).flatMap fun k => leBytes 2 (wordCrc (line * 4 + k) (lineQuarter data k)).toNat) ++
    leBytes 4 (lineCrc line data tag).toNat ++ leBytes 4 tag.toNat

/-- The line as 640 bits. -/
def lineImage (line : Nat) (data : List Byte) (tag : BitVec 32) : BitVec 640 := bitsOf 640 (lineBytes line data tag)

/-- Data, LCRC and owner tag of a line as read. -/
def lineData (raw : BitVec 640) : List Byte := bytesOf 64 raw
def lineTag (raw : BitVec 640) : BitVec 32 := raw.extractLsb' 608 32

/-- The checks of a line on its read: the quarters whose QCRC fails, whether LCRC fails, and whether the tag is not the one
that the requester expects in FUNC, CLASS and REGION (R364). -/
def lineCheck (line : Nat) (raw : BitVec 640) (want : OwnerTag) : BitVec 4 × Bool × Bool :=
  let data := lineData raw
  let t := ownerTag (lineTag raw)
  let bad (k : Nat) : Bool := raw.extractLsb' (512 + 16 * k) 16 != wordCrc (line * 4 + k) (lineQuarter data k)
  (BitVec.ofNat 4 ((List.range 4).map fun k => if bad k then 2 ^ k else 0).sum,
   raw.extractLsb' 576 32 != lineCrc line data (lineTag raw),
   t.fn != want.fn || t.cls != want.cls || t.region != want.region)

/-- A partial write of bytes at `off`: the line is read and checked, and goes back with fresh checks; none when its read
fails (R362). -/
def partialWrite (line : Nat) (raw : BitVec 640) (want : OwnerTag) (off : Nat) (b : List Byte) : Option (BitVec 640) :=
  if lineCheck line raw want = (0, false, false) then
    let data := lineData raw
    some (lineImage line ((data.take off ++ b ++ data.drop (off + b.length)).take 64) (lineTag raw))
  else none

/-- A 128-bit SRAM or fabric word passes its check: 16 B and their CRC-16 (R377). -/
def wordOk (addr : Nat) (raw : BitVec 144) : Bool := raw.extractLsb' 128 16 == wordCrc addr (bytesOf 16 raw)

/-! ## Info parts (R272, R275) -/

/-- The data part and the metadata part of a codeword's info bytes. -/
def infoData (x : Info) : Block := x.extractLsb' 0 32768
def infoMeta (x : Info) : BitVec 256 := x.extractLsb' 32768 256

/-- Info bytes from data and metadata. -/
def mkInfo (d : Block) (m : BitVec 256) : Info := (m ++ d).setWidth 33024

/-- Metadata fields of a data granule. -/
structure Metadata where
  lga : Nat
  ns : Nat
  pad : Bool
  gcm : Bool
  hmeta : Bool
  internal : Bool
  wseq : Nat
  crc : BitVec 16
  tag : BitVec 128
  deriving DecidableEq, Repr

/-- The 32 B of metadata: LGA, NSF, WSEQ, CRC, TAG. -/
def Metadata.pack (m : Metadata) : BitVec 256 :=
  let b (x : Bool) (n : Nat) : Nat := if x then 2 ^ n else 0
  BitVec.ofNat 256 (m.lga % 2 ^ 48
    + 2 ^ 48 * (m.ns % 1024 + b m.pad 10 + b m.gcm 11 + b m.hmeta 12 + b m.internal 13)
    + 2 ^ 64 * (m.wseq % 2 ^ 48) + 2 ^ 112 * m.crc.toNat + 2 ^ 128 * m.tag.toNat)

/-- The metadata of info bytes. -/
def infoMetadata (x : Info) : Metadata :=
  let n := (infoMeta x).toNat
  let nsf := n / 2 ^ 48 % 65536
  { lga := n % 2 ^ 48, ns := nsf % 1024, pad := nsf.testBit 10, gcm := nsf.testBit 11, hmeta := nsf.testBit 12,
    internal := nsf.testBit 13, wseq := n / 2 ^ 64 % 2 ^ 48, crc := BitVec.ofNat 16 (n / 2 ^ 112),
    tag := BitVec.ofNat 128 (n / 2 ^ 128) }

/-- The CRC of a data granule matches (R295). -/
def infoCrcOk (x : Info) : Bool := (infoMetadata x).crc == crc16 (infoData x)

/-- A pad granule: zero bytes, PAD set, LGA all ones (R185). -/
def padInfo : Info :=
  mkInfo 0 (Metadata.pack { lga := 2 ^ 48 - 1, ns := 0, pad := true, gcm := false, hmeta := false,
                            internal := false, wseq := 0, crc := 0, tag := 0 })

/-! ## Syndromes (R299, R300) -/

/-- The byte 0x01 in every byte of the info part. -/
def onesInfo : Info := BitVec.ofNat 33024 ((256 ^ 4128 - 1) / 255)

/-- Every byte times g = 0x02 in GF(2^8) with polynomial 0x11D. -/
def gf2x (x : Info) : Info :=
  let top := (x >>> 7) &&& onesInfo
  ((x <<< 1) &&& ~~~ onesInfo) ^^^ (top * 0x1D#33024)

/-- Every byte times g^n. -/
def gfPow (n : Nat) (x : Info) : Info :=
  match n with
  | 0 => x
  | n + 1 => gf2x (gfPow n x)

/-- Multiplication by 2 of one element. -/
def gfx (a : Nat) : Nat := if a < 128 then 2 * a else (2 * a - 256) ^^^ 0x1D

/-- The element g^n. -/
def gfExp : Nat → Nat
  | 0 => 1
  | n + 1 => gfx (gfExp n)

/-- The discrete logarithm of a nonzero element. -/
def gfLog (a : Nat) : Nat := ((List.range 255).find? fun n => gfExp n == a).getD 0

/-- Every byte divided by a nonzero element. -/
def gfDiv (x : Info) (a : Nat) : Info := gfPow ((255 - gfLog a) % 255) x

/-- A codeword enters the accumulators of its position: data member index `i` (R299). -/
def foldP (p x : Info) : Info := p ^^^ x
def foldQ (q x : Info) (i : Nat) : Info := q ^^^ gfPow i x

/-- P and Q over data members given by index. -/
def syndromeP (ds : List (Nat × Info)) : Info := ds.foldl (fun a d => foldP a d.2) 0
def syndromeQ (ds : List (Nat × Info)) : Info := ds.foldl (fun a d => foldQ a d.2 d.1) 0

/-- Recovery of the erased member `x` of a row with `d` data members at one position (R300): `known` holds the info
bytes of the members that are available, index d for P and d + 1 for Q; `erased` the members that are not. -/
def recover (d : Nat) (known : List (Nat × Info)) (erased : List Nat) (x : Nat) : Option Info :=
  let data := known.filter fun k => decide (k.1 < d)
  let get (m : Nat) : Info := ((known.find? fun k => k.1 == m).map Prod.snd).getD 0
  let sp := get d ^^^ syndromeP data
  let sq := get (d + 1) ^^^ syndromeQ data
  let lost := erased.filter fun e => decide (e < d)
  let noP := erased.contains d
  let noQ := erased.contains (d + 1)
  match lost with
  | [] => if x = d then some (syndromeP data) else if x = d + 1 then some (syndromeQ data) else none
  | [a] =>
    if noP ∧ noQ then none
    else
      let da := if noP then gfDiv sq (gfExp a) else sp
      if x = a then some da
      else if x = d then some (syndromeP ((a, da) :: data))
      else if x = d + 1 then some (syndromeQ ((a, da) :: data))
      else none
  | [a, b] =>
    if noP ∨ noQ then none
    else
      let da := gfDiv (sq ^^^ gfPow b sp) (gfExp a ^^^ gfExp b)
      if x = a then some da else if x = b then some (sp ^^^ da) else none
  | _ => none

/-! ## LDPC code (R278, R279) -/

/-- Block `j` of the info bits, 256 bits. -/
def infoBlock (x : Info) (j : Nat) : BitVec 256 := x.extractLsb' (256 * j) 256

/-- Shift of the circulant of block row `i` and information column `j`. -/
def circShift (i j : Nat) : Nat := 37 * (i + 1) * (2 * j + 1) % 256

/-- Block rows that hold a circulant of information column `j`. -/
def circRow (i j : Nat) : Bool := i == j % 15 || i == (j + 4) % 15 || i == (j + 9) % 15 || i == (j + 13) % 15

/-- u_i: block row `i` of the information part times the info bits. A circulant of shift s has its 1 of row r in
column (r + s) mod 256. -/
def ldpcU (x : Info) (i : Nat) : BitVec 256 :=
  (List.range 129).foldl (fun a j =>
    if circRow i j then a ^^^ (infoBlock x j).rotateRight (circShift i j) else a) 0

/-- Parity block m. -/
def ldpcP (x : Info) : Nat → BitVec 256
  | 0 => ldpcU x 0
  | m + 1 => ldpcU x (m + 1) ^^^ ldpcP x m

/-- The 36,864 bits of a codeword. -/
def codeword (x : Info) : BitVec 36864 :=
  (List.range 15).foldl (fun (a : BitVec 36864) m => a ||| ((ldpcP x m).setWidth 36864 <<< (33024 + 256 * m)))
    (x.setWidth 36864)

/-! ## Scrambler (R274) -/

/-- The generator's seed for a codeword's place. -/
def scrambleSeed (block wl page plane cw : Nat) : Nat :=
  ((((block * 2048 + wl) * 8 + page) * 8 + plane) * 4 + cw) % 8388607 + 1

/-- `n` output bits of the generator x^23 + x^18 + 1 from a 23-bit state: the output is the oldest bit, the new bit
the sum of the bits 23 and 18 steps back. -/
def scrambleBits (st : BitVec 23) : Nat → List Bool
  | 0 => []
  | n + 1 =>
    let fb := st.getLsbD 22 != st.getLsbD 17
    st.getLsbD 22 :: scrambleBits ((st <<< 1) ||| (if fb then 1 else 0)) n

/-- A codeword XORed with the generator's output, both on the way in and on the way out. -/
def scramble (seed : Nat) (x : BitVec 36864) : BitVec 36864 :=
  let b := scrambleBits (BitVec.ofNat 23 seed) 36864
  x ^^^ BitVec.ofNat 36864 (b.foldr (fun v a => 2 * a + (if v then 1 else 0)) 0)

/-- Zero bits of a codeword as transferred (R559). -/
def zeroBits (x : BitVec 36864) : Nat := ((List.range 36864).filter fun i => !x.getLsbD i).length

/-- An erased codeword has at most 256 zero bits (R559). -/
def erasedWord (x : BitVec 36864) : Bool := decide (zeroBits x ≤ 256)

/-! ## Packed forms (R145, R148, R149, R165) -/

/-- The 48 bits of an entry: ADDR, KIND and a part of a fine-unit header (R145). -/
def Entry.bits (e : Entry) (hdr : Nat) : Nat := e.addr % 2 ^ 40 + 2 ^ 40 * e.kind.ctorIdx + 2 ^ 43 * (hdr % 32)

/-- The 80-bit header of a fine unit (R149). -/
def FineUnit.header (u : FineUnit) : Nat :=
  u.ns % 1024 + 2 ^ 10 * (u.unit % 2 ^ 34) + 2 ^ 44 * (u.age % 16) + (if u.zchunk then 2 ^ 48 else 0)

/-- A fine unit in DRAM, 96 B: entry `j` carries header bits 5 j + 4 to 5 j (R149). -/
def FineUnit.bytes (u : FineUnit) : List Byte :=
  u.entries.zipIdx.flatMap fun e => leBytes 6 (e.1.bits (u.header / 2 ^ (5 * e.2)))

/-- Map line `k` of a namespace, 192 B: the coarse entries of units 32 k to 32 k + 31 (R148). -/
def mapLine (s : State) (ns k : Nat) : List Byte :=
  (List.range 32).flatMap fun i => leBytes 6 ((coarseOf s ns (32 * k + i)).bits 0)

/-- The 48 bits of ENTRY of a delta record: the new entry, the fine-unit index of a promote, the zone's state (R165). -/
def Delta.entryBits (d : Delta) : Nat :=
  if d.typ = 2 ∨ d.typ = 5 then d.entry.addr % 2 ^ 48 else if d.typ = 6 then 0 else d.entry.bits 0

/-- A delta record in the log, 16 B, with the CRC-16 of its first 14 (R165; DEDUCED: the CRC-16 of R294, the one that
the spec computes over bytes). -/
def Delta.bytes (d : Delta) : List Byte :=
  let b := leBytes 6 d.lba ++ leBytes 2 (d.ns % 1024 + 1024 * d.typ) ++ leBytes 6 d.entryBits
  b ++ leBytes 2 (crc16Of b).toNat

/-- The 64 B descriptor of slot `i` (R172). Metadata bytes 14-15, and 16-31 on a namespace of mode GCM, are zero until CIP
produces them. A zone target's number is a free value: R172 gives it 16 bits and R161 no numbers. -/
def slotDescriptor (s : State) (i : Nat) : List Byte :=
  let x := s.slot i
  let sp := Tbl.get s.map.spaces x.ns
  let gcm := sp.any fun p => p.mode == .gcm
  let tagged := sp.any fun p => p.lbaf != 0
  let m : Metadata := { lga := x.lba, ns := x.ns, pad := x.pad, gcm := gcm && !x.pad, hmeta := tagged, internal := false,
                        wseq := if x.pad then 0 else x.wseq, crc := 0, tag := if gcm then 0 else x.hostMeta }
  let meta_ : List Byte := match x.raw with
    | some r => bytesOf 32 (infoMeta r)
    | none => bytesOf 32 m.pack
  let flags := x.state.ctorIdx + (if x.pinned then 8 else 0) + (if x.pad then 16 else 0) + (if x.reserve then 32 else 0)
  let asm := ((s.wbf.pus.find? fun u => u.slots.contains (some i)).map Pu.recNo).getD 0
  let held := (s.target x.target).held
  let next := ((held.dropWhile (· != i)).drop 1).head?.getD 0
  let number := if x.target < 512 then x.target else (Config.zoneTarget x.target).toNat
  let b := meta_ ++ leBytes 1 x.fn ++ leBytes 1 x.epoch ++ leBytes 1 flags ++ leBytes 1 x.readers ++ leBytes 1 x.stream
    ++ leBytes 1 x.pos ++ leBytes 1 x.member ++ leBytes 1 0 ++ leBytes 2 number ++ leBytes 2 0 ++ leBytes 4 x.rowSerial
    ++ leBytes 4 next ++ leBytes 2 asm ++ zeros 6
  b ++ leBytes 4 (crc32 b).toNat

end Sys2Proof.Machine
end

