-- ==== Sys2Proof/Machine/Time.lean ====
section
/-! DEFINITION. Time base: the stride and its counters, PPS alignment, calendar seconds, operating hours, the
lantern table, clock gating (01 R28-R35, 02 R36-R67). -/

namespace Sys2Proof.Machine

open Sys2Proof

/-! ## Counters -/


/-- SECONDS, 48 bits, as a number. -/
def State.seconds (s : State) : Nat := s.tbs.seconds.toNat

/-- Operating hours after `ns` more of elapsed time (R57). -/
def hoursAfter (t : Tbs) (ns : Nat) : Tbs :=
  let n := t.hourNs + ns
  let sec := t.hourSec + n / 1000000000
  if sec < 3600 then { t with hourNs := n % 1000000000, hourSec := sec }
  else { t with hourNs := n % 1000000000, hourSec := sec % 3600,
                hours := min (t.hours + sec / 3600) 0xFFFFFF, hourDue := true }

/-- Length of the stride that begins at elapsed time `clk` (R38, R49, R50): a step stride ends at a target boundary
4,000 to 11,999 ns away; a slew stride, one per 2,500, is 1 ns shorter or longer. -/
def strideLength (t : Tbs) : Nat :=
  match t.stepDue with
  | some (b, _) =>
    if t.clk + 4000 ≤ b ∧ b < t.clk + 12000 then b - t.clk
    else if t.strideInSec % 2500 = 0 ∧ 0 < t.slewLeft then 7999
    else if t.strideInSec % 2500 = 0 ∧ t.slewLeft < 0 then 8001 else 8000
  | none =>
    if t.strideInSec % 2500 = 0 ∧ 0 < t.slewLeft then 7999
    else if t.strideInSec % 2500 = 0 ∧ t.slewLeft < 0 then 8001 else 8000

/-- The stride in progress is a step stride (R50): it ends at the target boundary of a step that is due. -/
def stepStride (t : Tbs) : Bool :=
  match t.stepDue with
  | some (b, _) => t.clk + t.strideLen == b && t.strideLen ≥ 4000 && t.strideLen < 12000
  | none => false

/-- Start the stride whose position is already set: its length, and one ns of slew used up where it is a slew
stride (R38, R49). -/
def startStride (t : Tbs) : Tbs :=
  let n := strideLength t
  { t with strideLen := n, nsInStride := 0,
           slewLeft := if n = 7999 ∧ t.strideInSec % 2500 = 0 ∧ 0 < t.slewLeft then t.slewLeft - 1
                       else if n = 8001 ∧ t.strideInSec % 2500 = 0 ∧ t.slewLeft < 0 then t.slewLeft + 1
                       else t.slewLeft }

/-- The counters at a stride tick (R37): the stride that ends adds its length to elapsed time. -/
def tbsTick (t : Tbs) : Tbs :=
  let t := hoursAfter { t with clk := t.clk + t.strideLen } t.strideLen
  if t.strideInSec + 1 = 125000 then
    startStride { t with strideInSec := 0, secondDue := true, atSecond := false,
                         slewLeft := t.slewNext, slewNext := 0 }
  else startStride { t with strideInSec := t.strideInSec + 1, atSecond := false }

/-- The counters at a step (R50): stride 0 of the new second starts at the target boundary. -/
def tbsStep (t : Tbs) : Tbs :=
  let t := hoursAfter { t with clk := t.clk + t.strideLen } t.strideLen
  startStride { t with strideInSec := 0, secondDue := true, atSecond := false, stepDue := none,
                       aligned := true, slewLeft := 0, slewNext := 0, prevErr := none }

/-- SECONDS advances at a second boundary (R37). -/
def tbsSecond (t : Tbs) : Tbs :=
  let n := t.seconds + 1
  { t with secondDue := false, atSecond := true, prevSeconds := t.seconds, seconds := n,
           minuteDue := decide (n.toNat % 60 = 0), minutePartial := false }

/-! ## PPS (R44-R52) -/

/-- The active edge that TBS_PPS_CFG.POL forces or the automatic decision found (R45). -/
def activeEdge (s : State) : Option Bool :=
  if s.rd rTBS_POL = 1 then some true else if s.rd rTBS_POL = 2 then some false else s.tbs.polarity

/-- The automatic decision (R45): two consecutive pulses that agree. The level that an edge begins is a pulse when
it holds for less than half a second. -/
def polarityAfter (t : Tbs) (rising : Bool) (width : Nat) : Tbs :=
  if width < 500000000 then
    if t.polPrev = some rising then { t with polarity := some rising, polPrev := some rising }
    else { t with polPrev := some rising }
  else t

/-- The phase error of an edge (R47): its position in the device's second, `r` ns after the target boundary is
subtracted, in the range −500 ms < E ≤ +500 ms. -/
def phaseError (pos : Nat) (offset : Int) : Int :=
  let r := ((pos : Int) + offset) % 1000000000
  if r < 500000000 then -r else 1000000000 - r

/-- An edge counts as a glitch (R46). -/
def ppsGlitch (s : State) : State := (s.bump rTBS_GLITCH 1).ev eTBS_GLITCH

/-- LOCKED is entered (R51). -/
def ppsLock (s : State) (t : Nat) (fromHoldover : Bool) : State :=
  let s := s.setTbs { s.tbs with pps := .locked, wasLocked := true, lockedAt := t, aligned := true }
  let s := s.ev eTBS_PPS_LOCK
  if fromHoldover then s.raise lTBS_PPS_LOCK none [] else s

/-- Slew of R49: min(|E|, 50) ns over the next second. -/
def slewFor (e : Int) : Int := max (-50) (min e 50)

/-- The next target boundary of an edge at `t` (R47, R50) that a step can still reach. -/
def stepTarget (clk t : Nat) (offset : Int) : Nat :=
  let b := (((t : Int) + offset) % 1000000000).toNat
  let base := t - t % 1000000000
  let b0 := base + b
  let b1 := if b0 ≤ t then b0 + 1000000000 else b0
  if b1 < clk + 4000 then b1 + 1000000000 else b1

/-- Correction at a valid edge (R49-R51): slew a small error; step one above 4,000 ns that the previous edge
confirmed within 1 us, where STEP_EN or the first alignment allows it; else slew. A step that is due keeps its target
boundary, whatever later edges show. -/
def ppsCorrect (s : State) (t : Nat) (e : Int) (offset : Int) : State :=
  let b := s.tbs
  if e.natAbs ≤ 4000 then s.setTbs { b with slewNext := slewFor e, aligned := true }
  else if s.rd rTBS_STEP_EN = 1 || !b.aligned then
    if b.stepDue.isSome then s
    else match b.prevErr with
    | some p =>
      if p.natAbs > 4000 ∧ (p - e).natAbs ≤ 1000 then
        let tgt := stepTarget b.clk t offset
        let b := { b with stepDue := some (tgt, e) }
        let b := { b with strideLen := if tgt < b.clk + 12000 then tgt - b.clk else b.strideLen }
        (s.setTbs b).setStp { s.stp with stepHold := s.stp.stepHold || stepStride b }
      else s
    | none => s
  else s.setTbs { b with slewNext := slewFor e }

/-- What a valid edge does in each PPS state (R49-R52); `good` is the run of edges within 100 ns. DESIGN CHOICE: the edge
that makes the first alignment by slew counts among the four consecutive valid edges (R51 does not say). -/
def ppsPhase (s : State) (t : Nat) (e offset : Int) (good : Nat) : State :=
  match s.tbs.pps with
  | .free => s
  | .acquire =>
    let ready := s.tbs.aligned && decide (good ≥ 4)
    let s := ppsCorrect s t e offset
    if ready then ppsLock s t false else s
  | .locked => ppsCorrect s t e offset
  | .holdover => ppsCorrect (ppsLock s t true) t e offset

/-- The frequency residual that an edge at `t` shows, in 0.001 ppm: its spacing from the valid edge before it less one
second, one ns of spacing for each unit. 120 s after LOCKED was entered it is within 0.05 ppm (R48). -/
def freqResidual (last : Option Nat) (t lockedAt : Nat) : Int :=
  let r : Int := match last with
    | some a => (t : Int) - a - 1000000000
    | none => 0
  if t ≥ lockedAt + 120000000000 then max (-50) (min r 50) else r

/-- In LOCKED the timebase learns the frequency from the spacing of a valid edge at `t` from the one before it: it reports
the residual, FREQ_OK is set once it is within 0.05 ppm (R48), and the next edge is predicted one second and the residual
later (R46). -/
def ppsLearn (s : State) (last : Option Nat) (t : Nat) : State :=
  if s.tbs.pps = .locked then
    let r := freqResidual last t s.tbs.lockedAt
    let s := s.setTbs { s.tbs with predEdge := ((t : Int) + 1000000000 + r).toNat }
    let s := s.wr rTBS_FREQ_ERR (toSigned 32 (satSigned 32 r))
    if r.natAbs ≤ 50 then s.wr rTBS_FREQ_OK 1 else s
  else s

/-- A valid edge at elapsed time `t` and phase error `e` (R46-R52). -/
def ppsValid (s : State) (t : Nat) (e : Int) (offset : Int) : State :=
  let s := (s.wr rTBS_PHASE_ERR (toSigned 32 (satSigned 32 e)))
  let s := s.setNet { s.net with datagramDue := true }
  let last := s.tbs.lastEdge.orElse fun _ => s.tbs.lastAny
  let good := if e.natAbs ≤ 100 then s.tbs.goodRun + 1 else 0
  let s := s.setTbs { s.tbs with lastEdge := some t, lastAny := some t, goodRun := good }
  let s := ppsPhase s t e offset good
  ppsLearn (s.setTbs { s.tbs with prevErr := some e, predEdge := t + 1000000000 }) last t

/-- Within 200 us of one second after an edge (R46). -/
def nearSecond (t a : Nat) : Bool := decide (((t : Int) - a - 1000000000).natAbs ≤ 200000)

/-- An edge is valid: one second after the previous valid edge, and in LOCKED near the predicted edge too (R46). -/
def edgeValid (b : Tbs) (t a : Nat) : Bool :=
  nearSecond t a && (b.pps != .locked || decide (((t : Int) - b.predEdge).natAbs ≤ 200000))

/-- PPS_EDGE: an edge `ns` after the start of the stride in progress begins a level that holds `width` ns. DESIGN CHOICE:
the first edge, which has no valid edge before it, is neither valid nor a glitch, and the pair starts from it (R46 does
not say). -/
def execPpsEdge (rising : Bool) (ns width : Nat) (s : State) : Out :=
  .next <|
    if s.rd rTBS_EN = 0 ∨ ns ≥ s.tbs.strideLen then s
    else
      let s := s.setTbs (polarityAfter s.tbs rising width)
      match activeEdge s with
      | none => s
      | some a =>
        if a ≠ rising then s
        else if width < 100 ∨ 400000000 < width then ppsGlitch s
        else
          let t := s.tbs.clk + ns
          let offset := ofSigned 32 (s.rd rTBS_PPS_OFFSET)
          let e := phaseError (s.tbs.strideInSec * 8000 + min ns 7999) offset
          match s.tbs.lastEdge with
          | some a =>
            if edgeValid s.tbs t a then ppsValid s t e offset else ppsGlitch s
          | none =>
            match s.tbs.lastAny with
            | none => s.setTbs { s.tbs with lastAny := some t, prevErr := some e }
            | some a =>
              if edgeValid s.tbs t a then ppsValid s t e offset
              else ppsGlitch (s.setTbs { s.tbs with lastAny := some t, prevErr := some e })

/-- PPS_HOLDOVER: LOCKED, or ACQUIRE after LOCKED, and no valid edge for 3 s (R51, R52). -/
def execPpsHoldover (s : State) : Out :=
  .next <|
    let t := s.tbs
    let stale := match t.lastEdge with
      | some a => decide (t.clk ≥ a + 3000000000)
      | none => decide (t.clk ≥ t.enabledAt + 3000000000)
    if stale && (t.pps == .locked || (t.pps == .acquire && t.wasLocked)) then
      let s := s.setTbs { t with pps := .holdover, lastEdge := none, lastAny := none, prevErr := none, goodRun := 0 }
      (((s.wr rTBS_HOLD_S 0).wr rTBS_FREQ_OK 0).ev eTBS_PPS_LOST).raise lTBS_PPS_LOST none []
    else s

/-- The effect of TBS_PPS_CFG.EN on the PPS state (R51). ACQUIRE entered again after LOCKED stays ACQUIRE-after-LOCKED. -/
def ppsEnable (s : State) : State :=
  let t := s.tbs
  if s.rd rTBS_EN = 0 then
    (s.wr rTBS_FREQ_OK 0).setTbs
      { t with pps := .free, lastEdge := none, lastAny := none, prevErr := none, aligned := false, goodRun := 0,
               stepDue := none, slewLeft := 0, slewNext := 0, polarity := none, polPrev := none }
  else if t.pps = .free then s.setTbs { t with pps := .acquire, enabledAt := t.clk } else s

/-! ## Calendar seconds (R53-R56, R66, R67) -/

/-- A set of SECONDS waits for the next boundary; an earlier one of the same path is replaced. -/
def addSet (t : Tbs) (p : PendSet) : Tbs :=
  { t with sets := (t.sets.filter fun q => q.viaReg != p.viaReg) ++ [p] }

/-- The value that a set names for the boundary at elapsed time `b` (R55). -/
def setValue (p : PendSet) (b : Nat) : Nat :=
  if p.viaReg then p.value % 2 ^ 48
  else ((p.value * 1000000 + (b - p.receipt) + 500000000) / 1000000000) % 2 ^ 48

/-- SET_FEATURES_TIMESTAMP: the manager's value in milliseconds, received `ns` into the stride (R54). -/
def execSetFeaturesTimestamp (seq ns ms : Nat) (s : State) : Out :=
  .next <| s.admin seq fun c =>
    if c.fn ≠ 0 then s.finish seq stNotChangeable
    else (s.setTbs (addSet s.tbs { viaReg := false, value := ms, receipt := s.tbs.clk + ns })).finish seq stOk

/-- Milliseconds of R54. -/
def timestampMs (s : State) : Nat := s.seconds * 1000 + s.tbs.strideInSec / 125

/-- The 8-byte Timestamp structure: 48 bits of ms, Synch 0, origin (R54). -/
def timestampBytes (s : State) : List Byte :=
  leBytes 6 (timestampMs s) ++ [BitVec.ofNat 8 (2 * s.tbs.origin.toNat), 0]

/-- GET_FEATURES_TIMESTAMP (R54). -/
def execGetFeaturesTimestamp (seq : Nat) (s : State) : Out :=
  .next <| s.admin seq fun _ =>
    s.reply seq (timestampBytes s)

/-- The state of a path (R17). -/
def State.path (s : State) (p : Path) : PathState := Tbl.getD s.paths p.ctorIdx PathState.empty

def State.setPath (s : State) (p : Path) (x : PathState) : State :=
  s.setPaths (Tbl.put s.paths p.ctorIdx x PathState.empty)

/-- Latch a word for a path at block and offset: an access to that block's page (R32, R531). -/
def State.latch (s : State) (p : Path) (blk off : Nat) (v : Dword) : State :=
  let x := s.path p
  (s.wakePage blk).setPath p { x with latch := Tbl.put x.latch (blk * 4096 + off) v 0 }

/-- A path's latched word; 0 before any LO read (R531). -/
def State.latched (s : State) (p : Path) (blk off : Nat) : Dword :=
  Tbl.getD (s.path p).latch (blk * 4096 + off) 0

/-- The upper part that a path holds for a field, 0 before any write (R532). -/
def State.upper (s : State) (p : Path) (f : Fld) : Nat := Tbl.getD (s.path p).upper (fieldKey f 0 0) 0

def State.setUpper (s : State) (p : Path) (f : Fld) (v : Nat) : State :=
  let x := s.path p
  s.setPath p { x with upper := Tbl.put x.upper (fieldKey f 0 0) v 0 }

/-- The write of TBS 0x07C by a path: SET_HI is held, and GO arms SET_HI:SET_LO (R55, R532). -/
def writeTbsSetHi (p : Path) (w : Dword) (s : State) : State :=
  let s := s.setUpper p rTBS_SET_HI (w.toNat % 65536)
  if w.getLsbD 31 then
    let v := s.upper p rTBS_SET_HI * 2 ^ 32 + s.rd rTBS_SET_LO
    s.setTbs (addSet s.tbs { viaReg := true, value := v, receipt := s.tbs.clk })
  else s

/-- TBS_SET_GO: a path writes 0x07C with GO set. -/
def execTbsSetGo (p : Path) (w : Dword) (s : State) : Out :=
  .next (if w.getLsbD 31 then writeTbsSetHi p w s else s)

/-- The TBS_SEC_SET record of a set (R55, R67). -/
def secSetRecord (s : State) (old b : Nat) (p : PendSet) (applied : Bool) : State :=
  s.raise lTBS_SEC_SET none
    [p6 old, p6 (setValue p b), p4 ((if applied then 1 else 0) + (if p.viaReg then 2 else 0))]

/-- SECONDS_SET_APPLY: at the second boundary the set received last replaces SECONDS (R55, R67), and the minute
boundary follows the value that applied (R56). The table of the second that begins and that of the next keep to
the new SECONDS and origin (R64). -/
def execSecondsSetApply (s : State) : Out :=
  .next <|
    let t := s.tbs
    match t.atSecond, t.sets.reverse with
    | true, p :: earlier =>
      let v := setValue p t.clk
      let old := t.prevSeconds.toNat
      let plain := decide (v = (old + 1) % 2 ^ 48)
      let s := s.setTbs { t with seconds := BitVec.ofNat 48 v, origin := 1, sets := [], atSecond := false,
                                 minuteDue := !plain || decide (v % 60 = 0), minutePartial := !plain }
      let s := s.setStp { s.stp with lantern := s.stp.lantern.map fun l => { l with second := v },
                                     lanternNext := s.stp.lanternNext.map fun l =>
                                       { l with second := (v + 1) % 2 ^ 48, flags := l.flags ||| 4 } }
      let s := s.ev eTBS_SEC_SET
      match earlier with
      | [] => if plain then s else secSetRecord s old t.clk p true
      | q :: _ => secSetRecord (secSetRecord s old t.clk q false) old t.clk p true
    | _, _ => s

/-- TBS_SEC_LO_READ: latches SEC_HI and the stride position for the path (R66), `ns` into the stride. DESIGN CHOICE: in a
step stride longer than 8,000 ns NS_IN_STRIDE holds 7,999 to its end, as R38 gives for 8,001 ns strides. -/
def execTbsSecLoRead (p : Path) (ns : Nat) (s : State) : Out :=
  .next <|
    let s := s.latch p 2 0x44 (BitVec.ofNat 32 (s.seconds / 2 ^ 32))
    let s := s.latch p 2 0x48 (BitVec.ofNat 32 (s.tbs.strideInSec + 131072 * min ns 7999))
    s.answer (.word (BitVec.ofNat 32 s.seconds))

/-- TBS_HOUR: the operating-hour boundary is written to the ledger (R59). -/
def execTbsHour (s : State) : Out :=
  .next <|
    if s.tbs.hourDue then (s.setTbs { s.tbs with hourDue := false }).raise lTBS_HOUR none [] else s

/-! ## Plan commit (R39-R41) and clock gating (R28-R34) -/

/-- PLAN_COMMIT: the plan for the next stride, complete at NS_IN_STRIDE `ns` or not at all, is committed at 7,200 (R39);
one that is not complete by then is an overrun, and the next stride runs a hold plan (R40). A hold plan after a firmware
stop or a step stride is no overrun (R41). -/
def execPlanCommit (complete : Bool) (ns : Nat) (s : State) : Out :=
  .next <|
    if s.stp.committed then s
    else if s.cpx.stopped then
      s.setStp { s.stp with committed := true, holdNext := true }
    else if complete ∧ ns ≤ 7200 then
      let s := s.wr rSTP_OVR_RUN 0
      s.setStp { s.stp with committed := true, holdNext := false, planReady := true }
    else if s.stp.stepHold then
      s.setStp { s.stp with committed := true, holdNext := true, planReady := false }
    else
      let run := min (s.rd rSTP_OVR_RUN + 1) 255
      let s := s.bump rSTP_OVR_TOTAL 1
      let s := (s.wr rSTP_OVR_RUN run).wr rSTP_OVR_MAXRUN (max run (s.rd rSTP_OVR_MAXRUN))
      let s := s.setStp { s.stp with committed := true, holdNext := true, planReady := false }
      if run = 3 then (s.ev eSTP_OVERRUN_RUN).raise lSTP_OVERRUN_RUN none [] else s

/-- The domains that exist. -/
def allDomains : BitVec 256 := domains 0 248

/-- The always-on and fixed-on domains (R28). -/
def alwaysOn : BitVec 256 := domains 2 2 ||| domains 4 7
def fixedOn : BitVec 256 :=
  domains 0 0 ||| domains 3 3 ||| domains 46 47 ||| domains 52 53 ||| domains 215 215 ||| domains 232 232

/-- The demand-woken domains: KEY, HIF, NET, SBI, QMX (R28). -/
def demandWoken : BitVec 256 := domains 8 9 ||| domains 23 45

/-- The plan-gated domains (R28). -/
def planGated : BitVec 256 :=
  allDomains &&& ~~~ (alwaysOn ||| fixedOn ||| demandWoken)

/-- THM_GATE_FORCE as one set; domains 249-255 do not exist (R33). -/
def forced (s : State) : BitVec 256 :=
  BitVec.ofNat 256
    ((List.range 8).foldl (fun a k => a + s.rdAt rTHM_FORCE 0 k * 2 ^ (32 * k)) 0) &&& allDomains

/-- A set of domains if a condition holds. -/
def when (b : Bool) (d : BitVec 256) : BitVec 256 := if b then d else 0

/-- A channel has work: a transfer, a command group, a maintenance slot, a completion that waits for a record, a
descriptor in a ring, or a die operation that the sequencer has still to serve. -/
def channelWorks (s : State) (nn : Nat) (c : Chan) : Bool :=
  c.busy || c.owner.isSome || !c.group.isEmpty || !c.waiting.isEmpty ||
    s.fch.dies.any fun p => p.1 / 32 == nn && (!p.2.ring.isEmpty || p.2.reinRead.isSome ||
      p.2.op.any fun o => o.ready || o.phase != .none || decide (o.done < o.desc.count))

/-- Domain of the engine that runs a job: hard decoder k is 63 + k, soft decoder k is 111 + k, cipher lane k is 10 + k
(R13). -/
def engDomain (j : EngJob) : Nat :=
  match j.kind with
  | .hard => 63 + j.eng
  | .soft => 111 + j.eng
  | .cip => 10 + j.eng

/-- The engines of the jobs that run; the cipher's context store while a context is in it. -/
def engineWork (s : State) : BitVec 256 :=
  (s.stp.engs.filter fun j => j.state == .running).foldl (fun a j => a ||| domains (engDomain j) (engDomain j))
    (when (decide (s.cip.ctxUsed > 0)) (domains 22 22))

/-- Lookups, demotions and checkpoint pages of MAP. -/
def mapWorks (s : State) : Bool :=
  s.qmx.cmds.any (fun c => !c.admin) || !s.map.demotes.isEmpty || s.map.ckpt != .idle || s.map.fineCreate.isSome

/-- Banks of the accumulators in use: those of stream n lie in bank n / 32, 256 KiB each, two a stream (R25). -/
def accumulatorWork (s : State) : BitVec 256 :=
  s.wbf.streams.foldl (fun a p =>
    if p.2.state = .none then a else a ||| domains (220 + p.1 / 32 % 8) (220 + p.1 / 32 % 8)) 0

/-- The hold buffer has work: decrypted data waits for its tag, or decoded data for its cipher (R25). -/
def holdWorks (s : State) : Bool :=
  s.stp.reads.any fun j => j.result.isSome || j.members.any fun m => m.info.isSome

/-- DRAM is accessed: slots fill or leave, host data is in transit, a checkpoint is written, or map regions fill. -/
def dramWorks (s : State) : Bool :=
  !s.qmx.cmds.isEmpty || !s.wbf.pus.isEmpty || s.map.ckpt != .idle || s.dmc.filling || s.dmc.dumpBusy

/-- A subchannel has writes in its queue or a failed line that waits. -/
def subchannelWork (s : State) : BitVec 256 :=
  (List.range 4).foldl (fun a k => a ||| when ((Tbl.get s.dmc.subch k).any fun q => !q.writes.isEmpty)
    (domains (216 + k) (216 + k))) (when (dramWorks s || !s.dmc.fails.isEmpty) (domains 216 219))

/-- The plan-gated domains that hold unfinished work, or that the plan for the stride grants a slot, a job or an access
(R29). -/
def working (s : State) : BitVec 256 :=
  s.fch.chans.foldl (fun a p => a ||| when (channelWorks s p.1 p.2) (domains (119 + 3 * p.1) (121 + 3 * p.1))) 0
    ||| engineWork s
    ||| when (!s.bot.ready) (domains 1 1)
    ||| when (mapWorks s) (domains 48 51 ||| domains 228 229)
    ||| when (!s.wbf.pus.isEmpty || s.wbf.targets.any fun t => !t.2.held.isEmpty) (domains 54 56)
    ||| when (!s.par.rows.isEmpty || s.par.groomSpan.isSome || s.par.rbState == 1 || decide (s.par.unflushed > 0))
          (domains 57 60)
    ||| when (!s.rcl.victims.isEmpty || s.rcl.wlVictim.isSome || !s.rcl.sanitizeSpans.isEmpty) (domains 61 62)
    ||| subchannelWork s
    ||| accumulatorWork s
    ||| when (!s.qmx.cmds.isEmpty || s.fch.dies.any fun p => !p.2.ring.isEmpty) (domains 230 230)
    ||| when (!s.staged.isEmpty || holdWorks s) (domains 231 231)
    ||| (s.cpx.running.setWidth 256 <<< (233 : Nat))

/-- In PS4 the NET domains are off (R461). -/
def portsOff (s : State) : BitVec 256 := when (decide (s.thm.ps = 4)) (domains 29 37)

/-- The domains clocked in the stride that begins: demand-woken ones until they are gated, plan-gated ones that have work
(R28-R30, R33). -/
def clocked (s : State) : BitVec 256 :=
  if s.thm.snuff = .off then alwaysOn
  else (alwaysOn ||| fixedOn ||| (s.gate.on &&& demandWoken &&& ~~~ portsOff s) ||| (working s &&& planGated) |||
    forced s) &&& allDomains

/-- The gates at a stride boundary: ACT shows the domains of the stride that begins (R33), and each clocked demand-woken
domain that nothing reached in the stride that ended counts one more idle stride (R30). -/
def gateTick (s : State) : State :=
  let on := clocked s
  let idle := (List.range 249).filterMap fun d =>
    if demandWoken.getLsbD d && on.getLsbD d then
      some (d, if s.gate.busy.getLsbD d then 0 else min (Tbl.getD s.gate.idle d 0 + 1) 2)
    else none
  s.setGate { act := on, on := on, busy := 0, idle := idle }

/-- DOMAIN_WAKE: a request reaches a demand-woken domain (R30). It aligns to the stride in progress (R34). -/
def execDomainWake (d : Nat) (s : State) : Out :=
  .next (if demandWoken.getLsbD d then s.wake (domains d d) else s)

/-- DOMAIN_GATE: a demand-woken domain idle for two strides, and in the stride in progress, is gated (R30) unless it is
forced (R33). -/
def execDomainGate (d : Nat) (s : State) : Out :=
  .next <|
    if demandWoken.getLsbD d && decide (Tbl.getD s.gate.idle d 0 ≥ 2) && !s.gate.busy.getLsbD d &&
        !(forced s).getLsbD d then
      s.setGate { s.gate with on := s.gate.on &&& ~~~ domains d d, idle := Tbl.erase s.gate.idle d }
    else s

/-- CPX_FW_STOPPED: HEARTBEAT has not advanced for 125 consecutive strides (R35, R537). -/
def execCpxFwStopped (s : State) : Out :=
  .next <|
    if s.cpx.stopped || decide (s.cpx.still < 125) then s
    else ((s.setCpx { s.cpx with stopped := true }).ev eCPX_FW_STOPPED).raise lCPX_FW_STOPPED none []

/-! ## Lantern table (R60-R65) -/

/-- The degraded state as the lantern shows it: a die lost or a channel that retrains (R64, R250). -/
def degradedShown (s : State) : Bool :=
  s.stp.degraded || s.fch.chans.any (fun c => c.2.retraining)

/-- FLAGS of a lantern table now (R64). -/
def lanternFlags (s : State) (revised : Bool) : BitVec 8 :=
  BitVec.ofNat 8 ((if s.tbs.pps = .locked then 1 else 0) + (if s.tbs.pps = .holdover then 2 else 0)
    + (if s.tbs.origin = 1 then 4 else 0) + (if degradedShown s then 8 else 0) + (if revised then 16 else 0)
    + (if s.rd rSTP_DUTY = 0 then 0 else 32))

/-- The table before the first is fixed: every window lit (R60). -/
def litTable (s : State) : Lantern :=
  { second := s.seconds, flags := lanternFlags s (s.stp.brokenPrev != 0), phase := s.rd rSTP_PHASE,
    duty := s.rd rSTP_DUTY, dimCount := 0, brokenPrev := s.stp.brokenPrev, bitmap := 0 }

/-- The windows that STP dims for `n` windows of work (R63). -/
def dimBitmap (n phase duty : Nat) : BitVec 1000 :=
  if duty = 0 then BitVec.ofNat 1000 (2 ^ n - 1)
  else BitVec.ofNat 1000
    ((List.range (min n duty)).foldl (fun a i => a + 2 ^ ((phase + i) % 1000)) 0)

/-- The table that log page 0xC0 returns now (R60). -/
def lanternNow (s : State) : Lantern :=
  match s.stp.published, s.stp.lanternNext, s.stp.lantern with
  | true, some l, _ => l
  | _, _, some l => l
  | _, _, none => litTable s

/-- The 160 B of a lantern table (R64). -/
def lanternBytes (l : Lantern) : List Byte :=
  leBytes 8 l.second ++ leBytes 2 1 ++ [l.flags, 0] ++ leBytes 2 l.phase ++ leBytes 2 l.duty
    ++ leBytes 2 l.dimCount ++ leBytes 2 l.brokenPrev ++ zeros 12 ++ leBytes 128 l.bitmap.toNat

/-- Bytes `off` to `off + len` of a page, zeros past its end. -/
def slice (b : List Byte) (off len : Nat) : List Byte :=
  let r := (b.drop off).take len
  r ++ zeros (len - r.length)

/-- LANTERN_TABLE_PUBLISH: the fixed table becomes readable (R60). -/
def execLanternTablePublish (s : State) : Out :=
  .next (if s.stp.lanternNext.isSome then s.setStp { s.stp with published := true } else s)

/-- GET_LOG_PAGE_LANTERN: any function reads the table (R60). -/
def execGetLogPageLantern (seq off len : Nat) (s : State) : Out :=
  .next <| s.admin seq fun _ =>
    if off > 160 then s.finish seq stInvalidField else s.reply seq (slice (lanternBytes (lanternNow s)) off len)
/-- The words of a 128-bit address, lowest first, as one number. -/
def addressOf (w : Nat → Nat) : Nat := w 0 + 2 ^ 32 * w 1 + 2 ^ 64 * w 2 + 2 ^ 96 * w 3

/-- LANTERN_DATAGRAM: the table as a UDP payload with its 16 B header, on the interface, VLAN, ports and destination of
STP_LANT_CFG, STP_LANT_UDP and STP_LANT_IPk, from the interface's own address (R65). -/
def execLanternDatagram (s : State) : Out :=
  .next <|
    if s.rd rSTP_DGRAM_EN = 1 && s.net.datagramDue then
      let ix := s.rd rSTP_PORT
      let v6 := s.rd rSTP_IPV6 == 1
      let src := if v6 then addressOf fun k => s.rdBank rNET_IPV6k k ix else s.rdBank rNET_IPV4 0 ix
      let dst := if v6 then addressOf fun k => s.rdAt rSTP_IPk 0 k else s.rdAt rSTP_IPk 0 0
      let vlan := if s.rd rSTP_VLAN_EN = 1 then some (s.rd rSTP_VLAN_ID) else none
      let head : List Byte := [0x51, 0x48, 0x4C, 0x54, 0x01, 0, 0, 0] ++ leBytes 8 s.fuses.serial.toNat
      let body := head ++ lanternBytes (lanternNow s)
      let srcPort := s.rd rSTP_SRC_PORT
      let dstPort := s.rd rSTP_DST_PORT
      let s := (s.wake (netDomains ix)).wr rSTP_DGRAM_SENT (s.rd rSTP_DGRAM_SENT + 1)
      let s := s.setNet { s.net with datagramDue := false }
      s.answer (.datagram ix vlan srcPort dstPort v6 src dst body)
    else s

end Sys2Proof.Machine
end

