-- ==== Sys2Proof/Machine/Ledger.lean ====
section
/-! DEFINITION. Event ledger: raising, writing to the ring in NOR, windows, watermark (17 R500-R519, R557). -/

namespace Sys2Proof.Machine

open Sys2Proof

/-- Locations of the ring and records of a sector (R504). -/
def ringSize : Nat := 131072
def sectorSize : Nat := 64

/-- The records that readers see: those that exist in the ring (R503), and, once NOR writing has stopped, those the
mirror alone holds (R505). -/
def Evl.records (e : Evl) : List LRec :=
  let n := newestSeq e
  e.ring.map Prod.snd ++ (if e.norStopped then e.mirror.filter fun r => decide (r.seq > n) else [])

/-- Newest SEQ, 0 for none. -/
def Evl.newest (e : Evl) : Nat := (e.records.map LRec.seq).foldl max 0

/-- Oldest existing SEQ, 0 for none. -/
def Evl.oldest (e : Evl) : Nat :=
  match e.records.map LRec.seq with
  | [] => 0
  | a :: r => r.foldl min a

/-- The record of a SEQ. -/
def Evl.find (e : Evl) (seq : Nat) : Option LRec := e.records.find? fun r => r.seq == seq

/-- Unread records (R515). -/
def Evl.unread (e : Evl) : Nat := e.newest + 1 - e.wmark

/-- A record at or above the watermark has severity at or above AEN_SEV (R516). -/
def aenHolds (s : State) : Bool :=
  let v := s.rd rEVL_AEN_SEV
  decide (v < 6) && s.evl.records.any fun r => decide (r.seq ≥ s.evl.wmark) && decide (r.severity ≥ v)

/-- Event AEN follows the records and the watermark; each rise raises one asynchronous event on function 0, which
waits for a request (R516). -/
def aenUpdate (s : State) : State :=
  let h := aenHolds s
  if h && !s.evl.aen then
    let s := (s.setEvl { s.evl with aen := true }).ev eEVL_AEN
    if (s.fn 0).aers.isEmpty then s.setEvl { s.evl with aenWaiting := true }
    else s.asyncEvent 0 7 0 0xC5
  else if !h && s.evl.aen then
    let s := s.setEvl { s.evl with aen := false, aenWaiting := false }
    let x := s.page 3
    s.setPage 3 { x with evtRaw := x.evtRaw &&& ~~~ 1#32 }
  else s

/-- EVENT_RAISE: a block raises an event of the table of R517 on its page; codes not in the table are never
written. -/
def execEventRaise (p code : Nat) (func : Option Nat) (payload : List (Nat × Nat)) (addr : Option Nat) (s : State) :
    Out :=
  .next (if ledgerCodes.contains code then s.raiseAt p code func payload addr else s)

/-- The erase of the sector after the one that location `loc` begins (R504): its records are gone, and unread ones
are counted (R516). -/
def eraseAhead (s : State) (loc : Nat) : State :=
  if loc % sectorSize ≠ 0 then s
  else
    let sec := (loc / sectorSize + 1) % (ringSize / sectorSize)
    let gone := s.evl.ring.filter fun r => r.1 / sectorSize == sec
    let lost := (gone.filter fun r => decide (r.2.seq ≥ s.evl.wmark)).length
    let e := { s.evl with ring := s.evl.ring.filter (fun r => r.1 / sectorSize != sec),
                          torn := s.evl.torn.filter (fun k => k / sectorSize != sec), erasing := some sec }
    let s := s.setEvl e
    if lost = 0 then s
    else ((s.bump rEVL_UNREAD_LOST lost).ev eEVL_UNREAD_LOST).raise lEVL_UNREAD_LOST none [p4 lost]

/-- LEDGER_RECORD_PROGRAM: the record at the head of the queue begins its first program at the next free location
and takes the newest SEQ plus one (R503); it waits for an erase of its sector (R557), and while
XSPI_RESET_N is low (R552). -/
def execLedgerRecordProgram (s : State) : Out :=
  .next <|
    let e := s.evl
    match e.programming, e.queue with
    | none, r :: q =>
      if e.norStopped || !e.restored || xspiReset s || e.erasing == some (e.next / sectorSize) then s
      else
        let rec0 := { r with seq := newestSeq e + 1 }
        eraseAhead (s.setEvl { e with queue := q, programming := some (e.next, rec0) }) e.next
    | _, _ => s

/-- LEDGER_PROGRAM_DONE: the program verifies, so VALID is programmed and the mirror takes the record (R503, R506);
or the location is abandoned, and after 16 in a row NOR writing stops (R505). -/
def execLedgerProgramDone (ok : Bool) (s : State) : Out :=
  .next <|
    let e := s.evl
    match e.programming with
    | none => s
    | some (loc, r) =>
      let nxt := (loc + 1) % ringSize
      if ok then
        aenUpdate (s.setEvl { e with ring := Tbl.set e.ring loc r, next := nxt, programming := none, failRun := 0,
                                     mirror := (r :: e.mirror).take 16384 })
      else
        let s := s.bump rEVL_NOR_FAIL 1
        let run := e.failRun + 1
        let e := { e with torn := loc :: e.torn, next := nxt, programming := none, failRun := run }
        if run < 16 then s.setEvl { e with queue := r :: e.queue }
        else
          let stopped := { e with norStopped := true, queue := [] }
          aenUpdate ((s.setEvl ((r :: e.queue).foldl enqueue stopped)).ev eEVL_NOR_ERR)

/-- LEDGER_SECTOR_ERASE_DONE: the erase of the sector ahead completes (R557). -/
def execLedgerSectorEraseDone (s : State) : Out :=
  .next (s.setEvl { s.evl with erasing := none })

/-! ## Windows (R512, R513, R534) -/

def State.window (s : State) (p : Path) : Window := Tbl.getD s.evl.windows p.ctorIdx Window.empty

def State.setWindow (s : State) (p : Path) (w : Window) : State :=
  s.setEvl { s.evl with windows := Tbl.put s.evl.windows p.ctorIdx w Window.empty }

/-- A request on a result register set: SEQ advances and VALID clears (R534). -/
def Window.request (w : Window) (next : Bool) : Window :=
  { w with serial := w.serial + 1, valid := false, result := 0, record := none, pending := some next }

/-- The smallest existing SEQ above `n`. -/
def Evl.above (e : Evl) (n : Nat) : Option Nat :=
  ((e.records.map LRec.seq).filter fun q => decide (q > n)).foldl
    (fun a q => match a with | none => some q | some b => some (min b q)) none

/-- WINDOW_LOAD: a write of LOAD by a path (R512). -/
def execWindowLoad (p : Path) (s : State) : Out :=
  .next (s.setWindow p ((s.window p).request false))

/-- WINDOW_NEXT: the cursor moves to the next existing SEQ, if there is one, and the record is fetched (R512). -/
def execWindowNext (p : Path) (s : State) : Out :=
  .next <|
    let w := s.window p
    match s.evl.above w.cursor.toNat with
    | some n => s.setWindow p ({ w with cursor := BitVec.ofNat 48 n }.request false)
    | none => s.setWindow p (w.request true)

/-- The result of a fetch at a cursor (R512): code, record, cursor. `last` says that NEXT found nothing above. -/
def fetchResult (e : Evl) (cur : Nat) (last : Bool) : Nat × Option LRec × Nat :=
  if last || e.records.isEmpty || decide (cur > e.newest) then (2, none, cur)
  else if cur < e.oldest then (1, e.find e.oldest, e.oldest)
  else match e.find cur with
    | some r => (0, some r, cur)
    | none => (3, none, cur)

/-- WINDOW_RESULT: the fetch of a path's window completes (R512, R534). -/
def execWindowResult (p : Path) (s : State) : Out :=
  .next <|
    let w := s.window p
    match w.pending with
    | none => s
    | some last =>
      let (code, r, cur) := fetchResult s.evl w.cursor.toNat last
      s.setWindow p { w with valid := true, result := code, record := r, cursor := BitVec.ofNat 48 cur,
                             pending := none }

/-! ## Watermark (R515, R516) -/

/-- WATERMARK_WRITE: a write of WMARK_LO applies the path's upper part with it; only the manager's is taken, at or
above the present watermark and at most the newest SEQ plus one (R515, R532). -/
def execWatermarkWrite (p : Path) (lo : Dword) (s : State) : Out :=
  .next <|
    let v := s.upper p rEVL_WMARK_HI * 2 ^ 32 + lo.toNat
    if p = .manager ∧ s.evl.wmark ≤ v ∧ v ≤ s.evl.newest + 1 then
      let due := if v = s.evl.wmark ∨ s.evl.wmarkDue.isSome then s.evl.wmarkDue else some s.tbs.clk
      aenUpdate (s.setEvl { s.evl with wmark := v, wmarkDue := due })
    else s

/-- The ledger keeps the watermark (R516). -/
def wmarkRecord (s : State) : State :=
  (s.setEvl { s.evl with wmarkDue := none }).raise lEVL_WMARK none [p6 s.evl.wmark]

/-- EVL_WMARK: 60 s after an advance (R516). -/
def execEvlWmark (s : State) : Out :=
  .next <|
    match s.evl.wmarkDue with
    | some t => if s.tbs.clk ≥ t + 60000000000 then wmarkRecord s else s
    | none => s

/-- EVL_NEWEST_LO_READ: latches NEWEST_HI for the path (R519). -/
def execEvlNewestLoRead (p : Path) (s : State) : Out :=
  .next <|
    let n := s.evl.newest
    (s.latch p 3 0x44 (BitVec.ofNat 32 (n / 2 ^ 32))).answer (.word (BitVec.ofNat 32 n))

/-- EVL_OLDEST_LO_READ: latches OLDEST_HI for the path (R519). -/
def execEvlOldestLoRead (p : Path) (s : State) : Out :=
  .next <|
    let n := s.evl.oldest
    (s.latch p 3 0x4C (BitVec.ofNat 32 (n / 2 ^ 32))).answer (.word (BitVec.ofNat 32 n))

/-! ## Log page 0xC5 (R511, R514) -/

/-- `n` records from SEQ `q`, zeros where none exists. -/
def ledgerPage (e : Evl) (q : Nat) : Nat → List Byte
  | 0 => []
  | n + 1 => ((e.find q).map recordBytes).getD (zeros 64) ++ ledgerPage e (q + 1) n

/-- The summary of the ledger (R514). -/
def ledgerSummary (e : Evl) : List Byte :=
  leBytes 6 e.oldest ++ leBytes 6 e.newest ++ leBytes 6 e.wmark ++ leBytes 4 (min e.unread 0xFFFFFFFF) ++ zeros 42

/-- GET_LOG_PAGE_LEDGER: the manager reads records by SEQ; offset = SEQ × 64 (R514). -/
def execGetLogPageLedger (seq off len : Nat) (s : State) : Out :=
  .next <| s.admin seq fun c =>
    if c.fn ≠ 0 ∨ off % 64 ≠ 0 then s.finish seq stInvalidField
    else s.reply seq (slice (ledgerPage s.evl (off / 64) ((len + 63) / 64)) 0 len)

/-- GET_LOG_PAGE_LEDGER_SUMMARY: Log Specific Parameter bit 0 set (R514). -/
def execGetLogPageLedgerSummary (seq len : Nat) (s : State) : Out :=
  .next <| s.admin seq fun c =>
    if c.fn ≠ 0 then s.finish seq stInvalidField else s.reply seq (slice (ledgerSummary s.evl) 0 len)

/-! ## Second boundaries (R509) -/

/-- A bucket at a second boundary: one token when REFILL_S boundaries have passed without a gain. -/
def bucketSecond (s : State) (k : Nat) (b : Bucket) : Bucket :=
  let d := bucketDepth s (bucketCode k)
  if b.since + 1 ≥ bucketRefill s (bucketCode k) then
    if b.tokens < d then { b with tokens := b.tokens + 1, since := 0 }
    else { b with tokens := d, since := b.since + 1 }
  else { b with tokens := min b.tokens d, since := b.since + 1 }

/-- A bucket that is back at its full depth with suppressed events writes a SUMMARY record (R509). -/
def bucketSummary (s : State) (k : Nat) : State :=
  let b := bucketOf s k
  match b.last with
  | some r =>
    if b.tokens ≥ bucketDepth s (bucketCode k) ∧ b.suppressed > 0 ∧ s.evl.queue.length < 1024 then
      let s := s.setBucket k { b with suppressed := 0, last := none }
      s.setEvl (enqueue s.evl { r with summary := true, suppressed := b.suppressed })
    else s
  | none => s

/-- The buckets at a second boundary (R509). -/
def ledgerSecond (s : State) : State :=
  let s := s.setEvl { s.evl with bounds := min (s.evl.bounds + 1) 4096,
                                 buckets := Tbl.map s.evl.buckets (bucketSecond s) }
  (Tbl.keys s.evl.buckets).foldl bucketSummary s

end Sys2Proof.Machine
end

