-- ==== Sys2Proof/Machine/Header.lean ====
section
/-! DEFINITION. The common header of a page: event registers, error capture, seal and soft reset (18 R526-R530). -/

namespace Sys2Proof.Machine

open Sys2Proof

/-- Event bits that a page implements (EVT_BITS, R526): one more than the highest of its event table. -/
def evtBits (p : Nat) : Nat :=
  match p with
  | 1 => 7 | 2 => 6 | 3 => 6 | 4 => 7 | 5 => 6 | 6 => 8 | 7 => 5 | 8 => 7 | 9 => 6 | 10 => 3 | 11 => 5 | 12 => 7
  | 13 => 6 | 14 => 8 | 15 => 5 | 16 => 9 | 17 => 9 | 18 => 6 | 20 => 9 | 21 => 4 | 22 => 1
  | p => if 64 ≤ p ∧ p < 96 then 12 else 0

/-- Pages that exist (R524). -/
def pageExists (p : Nat) : Bool := evtBits p != 0

/-- Set the event bits of a mask one by one, each counting (R528). -/
def setEvents (s : State) (p : Nat) (mask : Dword) : State :=
  (List.range (evtBits p)).foldl (fun s b => if mask.getLsbD b then s.evt p b else s) s

/-- EVT_RAW_CLEAR: a W1C write clears the bits of `w`; `same` are the bits that the hardware sets in the same cycle,
which win and count (R528, R535). AEN stays set while its condition holds (R516). -/
def execEvtRawClear (p : Nat) (w same : Dword) (s : State) : Out :=
  .next <|
    if !pageExists p then s
    else
      let s := s.wakePage p
      let x := s.page p
      let keep : Dword := if p = 3 ∧ s.evl.aen then 1 else 0
      setEvents (s.setPage p { x with evtRaw := x.evtRaw &&& (~~~ w ||| keep) }) p same

/-- EVT_FORCE: sets and counts event bits like hardware, writes no ledger record, and is ignored while SEAL is set
(R528, R530). -/
def execEvtForce (p : Nat) (w : Dword) (s : State) : Out :=
  .next (if pageExists p then (if (s.page p).sealBit then s.wakePage p else setEvents (s.wakePage p) p w) else s)

/-- ERR_ACK: the captured error is released (R529). -/
def execErrAck (p : Nat) (s : State) : Out :=
  .next <|
    if !pageExists p then s
    else
      let s := s.wakePage p
      let x := s.page p
      s.setPage p { x with errValid := false, errCode := 0, errFunc := 0, errMore := 0, errAddr := 0 }

/-- SEAL: the block's RW-S fields are read-only until device reset (R530). -/
def execSealBlock (p : Nat) (s : State) : Out :=
  .next (if pageExists p then (s.wakePage p).setPage p { s.page p with sealBit := true } else s)

/-- Reset the saturating counters of a page (R527). -/
def clearCounters (s : State) (p : Nat) : State :=
  let ks := ((fieldsOf (pageBlk p)).filter Fld.sat).flatMap fun f =>
    (List.range f.n).map fun k => fieldKey f (pageInst p) k
  s.setRegs (ks.foldl Tbl.erase s.regs)

/-- BLOCK_SOFT_RESET: SOFT_RESET of any block but BOT returns its event registers, capture and saturating counters
to their reset values and leaves the rest (R527); `same` are hardware sets of the same cycle, which apply after it
(R535). -/
def execBlockSoftReset (p : Nat) (same : Dword) (s : State) : Out :=
  .next <|
    if p = 1 || !pageExists p then s
    else
      let s := s.wakePage p
      let x := s.page p
      let y := { x with evtRaw := 0, evtCount := 0, errValid := false, errCode := 0, errFunc := 0, errMore := 0,
                        errAddr := 0 }
      setEvents ((clearCounters s p).setPage p y) p same

end Sys2Proof.Machine
end

