-- ==== Sys2Proof/Machine/Words.lean ====
section
/-! DEFINITION. The stored fields of a register word: the ranges in which a write is taken, selectors and banks, and
SEAL (R11, R18, R521, R530, R533). -/

namespace Sys2Proof.Machine

open Sys2Proof

/-- Field selected by a block, offset and lowest bit: the constant `g` or a word of it. -/
def Fld.is (f g : Fld) : Bool := f.blk == g.blk && f.off == g.off && f.lo == g.lo

/-- A value lies in a range. -/
def within (lo hi v : Nat) : Bool := decide (lo ≤ v ∧ v ≤ hi)

/-- Ranges of writable fields that do not depend on other fields: (field, lowest, highest). -/
def fieldRanges : List (Fld × Nat × Nat) :=
  [(rSTP_PHASE, 0, 999), (rSTP_DUTY, 0, 1000), (rQMX_DRAIN_STRIDES, 1, 2500), (rTEN_BG_MAX, 10, 50),
   (rMAP_LOW_PCT, 1, 20), (rMAP_THRESH, 10, 90), (rFCH_FCH_BURST, 1, 16), (rFCH_AGE_LIMIT, 8, 255),
   (rFCH_PROG_INTERVAL, 4, 255), (rFCH_ERASE_INTERVAL, 4, 255), (rFCH_PROG_CAP, 0, 32), (rFCH_ERASE_CAP, 0, 64)] ++
  [(rFCH_MAX_READS, 1, 4), (rFCH_READ_REQ_MAX, 1, 15), (rFCH_PERIOD_MS, 100, 60000), (rFCH_DTEMP, 2, 40),
   (rSTP_READ_WAIT, 8, 18), (rSTP_TURN_STRIDES, 8, 63), (rSTP_RUN_GROUPS, 1, 4), (rSTP_REBUILD_PCT, 0, 50),
   (rSTP_GROOM_BASE, 0, 10), (rSTP_ENG_AGE_LIMIT, 8, 255), (rLDC_HARD_ITER, 8, 40), (rLDC_SOFT_ITER, 10, 60)] ++
  [(rLDC_TRACK_WINDOW, 1024, 2 ^ 24 - 1), (rPAR_SPARE_PCT, 1, 10), (rPAR_GROOM_DAYS, 1, 90),
   (rPAR_REFRESH_BITS, 32, 140), (rPAR_RB_RECLAIM_PCT, 0, 50), (rPAR_JR_FLUSH, 8, 1250), (rRCL_OP_PCT, 2, 15),
   (rRCL_WL_SPREAD, 16, 5000), (rDMC_WQ_HIGH, 32, 63), (rDMC_OSC_STRIDES, 125, 12500), (rDMC_DRIFT, 2, 32),
   (rNET_MTU, 1500, 9216)] ++
  [(rSBI_SMB_SPEED, 0, 2), (rSBI_UART_BAUD, 0, 2), (rTHM_RISE_WARN, 5, 200), (rTHM_RELIGHT_C, 70, 100),
   (rHLD_TEST_S, 60, 65535), (rHLD_C_MIN_PCT, 20, 95), (rHLD_RESERVE_BLOCKS, 2, 8), (rEVL_BUCKET, 1, 64),
   (rEVL_REFILL_S, 1, 3600)]

/-- The value of a written field is taken; any other is ignored. -/
def fieldOk (s : State) (f : Fld) (v : Nat) : Bool :=
  if f.is rTBS_PPS_OFFSET then decide (ofSigned 32 v ≤ 499999999 ∧ ofSigned 32 v ≥ -499999999)
  else if f.is rMAP_HIGH_PCT then within (s.rd rMAP_LOW_PCT + 1) 25 v
  else if f.is rTHM_RISE_THR then within (s.rd rTHM_RISE_WARN + 1) 200 v
  else if f.is rDMC_WQ_LOW then decide (v + 8 ≤ s.rd rDMC_WQ_HIGH)
  else if f.is rFCH_RATE_CAP then within 24 (if s.fuses.grade = 0 then 40 else 32) v && v % 2 == 0
  else match fieldRanges.find? fun r => f.is r.1 with
    | some (_, lo, hi) => within lo hi v
    | none => true

/-- Selector fields, one value for each path (R533). -/
def isSelector (f : Fld) : Bool :=
  [rWBF_STREAM_SEL, rFCH_DIE_SEL, rKEY_SLOT_SEL, rNET_IF_SEL, rNET_FUNC_SEL, rHLD_STR_SEL, rTHM_CH_SEL].any f.is

/-- The value of a selector for a path, on channel `inst`. -/
def selected (s : State) (p : Path) (f : Fld) (inst : Nat) : Nat :=
  Tbl.getD (s.path p).sel (fieldKey f inst 0) f.reset

/-- NET fields of the selected interface, and of the selected function (R449). -/
def byInterface (f : Fld) : Bool := f.blk == 9 && within 0x4C 0x70 f.off
def byFunction (f : Fld) : Bool := f.blk == 9 && within 0xA0 0xEC f.off

/-- The bank of a field for a path, for the NET fields that a selector governs. -/
def bankOf (s : State) (p : Path) (f : Fld) : Option Nat :=
  if byInterface f then some (selected s p rNET_IF_SEL 0)
  else if byFunction f then some (selected s p rNET_FUNC_SEL 0)
  else none

/-- Word `k` of a stored field as a path reads it. -/
def storedField (s : State) (p : Path) (f : Fld) (inst k : Nat) : Nat :=
  if isSelector f then selected s p f inst
  else match bankOf s p f with
    | some b => s.rdBank f k b
    | none => s.rdAt f inst k

/-- HIF_VF_PORTk: the bits of functions that are bound to PCIe are not written, and bit 0 of word 0 stays 0 (R427,
R448). -/
def vfPorts (s : State) (k old new : Nat) : Nat :=
  let keep (j : Nat) : Bool := (s.fn (32 * k + j)).bind == .pcie
  (List.range 32).foldl (fun n j =>
    let v := if keep j then old else new
    if (32 * k + j != 0) && v.testBit j then n + 2 ^ j else n) 0

/-- Word `k` of a stored field takes a value that a path writes; UART_IN_EN and JTAG_REG_EN stay 0 where the debug fuse
is not blown (R478). -/
def storeField (s : State) (p : Path) (f : Fld) (inst k v : Nat) : State :=
  if isSelector f then
    s.setPath p { s.path p with sel := Tbl.put (s.path p).sel (fieldKey f inst 0) v f.reset }
  else match bankOf s p f with
    | some b => s.wrBank f k b v
    | none => s.wrAt f inst k (if f.is rHIF_VF_PORTk then vfPorts s k (s.rdAt f inst k) v
      else if f.is rTHM_FORCE ∧ k = 7 then v % 2 ^ 25
      else if f.is rSBI_UART_IN_EN ∧ !s.fuses.debugBlown.getLsbD 1 ∨ f.is rSBI_JTAG_REG_EN ∧ !s.fuses.debugBlown.getLsbD 0 then 0
      else v)

/-- Fields of page `pg` whose words include offset `off`. -/
def fieldsAt (pg off : Nat) : List Fld :=
  (fieldsOf (pageBlk pg)).filter fun f => decide (f.off ≤ off ∧ off < f.off + 4 * f.n)

/-- The value that a written word gives a field. -/
def fieldOf (f : Fld) (w : Dword) : Nat := w.toNat / 2 ^ f.lo % 2 ^ f.w

/-- Fields that keep an upper part or a window of a path, and so are not stored with the others (R512, R532). -/
def keptElsewhere (f : Fld) : Bool :=
  [rTBS_SET_HI, rEVL_WMARK_LO, rEVL_WMARK_HI, rEVL_CUR_LO, rEVL_CUR_HI].any f.is

/-- The stored fields of a word take a path's write. RW-S fields are left under SEAL, and the write is counted (R530).
The paddock thresholds are taken together or not at all (R352). -/
def storeWord (s : State) (p : Path) (pg off : Nat) (w : Dword) : State :=
  let fs := (fieldsAt pg off).filter fun f => !keptElsewhere f
  let x := s.page pg
  let s := if x.sealBit && fs.any fun f => f.acc == .rws then s.bump rBOT_SEALED_WR 1 else s
  let group := pg == 17 && off == 0x40
  let low := fieldOf rRCL_LOW_BP w
  let urgent := fieldOf rRCL_URGENT_BP w
  if group && !(within 10 1000 low && decide (fieldOf rRCL_FLOOR_BP w < urgent ∧ urgent < low)) then s
  else fs.foldl (fun s f =>
    let v := fieldOf f w
    if (f.acc == .rw || (f.acc == .rws && !x.sealBit)) && fieldOk s f v then
      storeField s p f (pageInst pg) ((off - f.off) / 4) v
    else s) s

end Sys2Proof.Machine
end

