-- ==== Sys2Proof/Machine/Tenants.lean ====
section
/-! DEFINITION. Functions, harnesses, the device pool, meters and migration (04 R105-R136). -/

namespace Sys2Proof.Machine

open Sys2Proof

/-! ## Device pool (R109, R110) -/

/-- Slots per stride of a channel by its trained rate (R42). -/
def slotsPerStride (c : Chan) : Nat :=
  if !c.inService then 0 else if c.rate ≥ 3800 then 6 else if c.rate ≥ 3200 then 5 else if c.rate ≥ 2400 then 4 else 0

/-- Channel slots of the pool in 1/256 slot per stride, and die time in 1/256 die-stride. -/
def poolSlots (s : State) : Nat := 256 * (s.fch.chans.map fun c => slotsPerStride c.2).sum
def poolDies (s : State) : Nat := 256 * (s.fch.dies.filter fun d => d.2.service).length

/-- Channel slots that the throttle level plans, in percent; the dies that may run go by quarters (R269). -/
def slotPct (s : State) : Nat :=
  match s.stp.throttle with
  | 0 | 1 => 100
  | 2 => 75
  | 3 => 50
  | _ => 25

/-- What is available to harnesses (R109), with the throttle level's shrink (R269). -/
def availSlots (s : State) : Nat := poolSlots s * slotPct s / 100 * (98 - s.ten.bgMax) / 100
def availDies (s : State) : Nat := poolDies s * (4 - s.stp.throttle) / 4 * (98 - s.ten.bgMax) / 100
def availWb (s : State) : Nat := s.wbf.ceil - 128

/-- The user capacity in GiB (R109, R349). -/
def userGib (s : State) : Nat := s.rcl.userGran / 262144

/-- A function's harness once the changes armed for the next boundary have applied. -/
def armedHarness (x : Fn) : Harness :=
  x.arms.foldl (fun h a => match a.1 with
    | .create h' => h'
    | .harness h' => h'
    | .restore r _ => r.harness
    | .delete => Harness.zero
    | _ => h) x.harness

/-- A function's state once those changes have applied and a Save in progress is done (R107, R108, R129). -/
def armedState (x : Fn) : FnState :=
  let now := if x.saving then .saved else x.state
  x.arms.foldl (fun t a => match a.1 with
    | .create _ => .idle
    | .bind .none => .idle
    | .bind _ => .active
    | .freeze => .draining
    | .save => .saved
    | .thaw => .active
    | .restore _ _ => .frozen
    | .delete => .free
    | .harness _ => t) now

/-- Sum of a harness figure over all functions but `f`. -/
def promised (s : State) (f : Nat) (g : Harness → Nat) : Nat :=
  ((s.fns.filter fun p => p.1 != f).map fun p => g (armedHarness p.2)).sum

/-- Sum of a harness figure in force over all functions (the PROM fields of R136). -/
def promisedAll (s : State) (g : Harness → Nat) : Nat := (s.fns.map fun p => g p.2.harness).sum

/-- Every field of a harness is in its range (R111). -/
def Harness.inRange (h : Harness) : Bool :=
  decide (h.gait < 4) && decide (1 ≤ h.qpairs ∧ h.qpairs ≤ 64) && decide (1 ≤ h.slotShare ∧ h.slotShare ≤ 49152)
    && decide (1 ≤ h.dieShare ∧ h.dieShare ≤ 262144) && decide (2 ≤ h.wbMib ∧ h.wbMib ≤ 2048)
    && decide (1 ≤ h.tags ∧ h.tags ≤ 57344) && decide (h.iopsMax < 2 ^ 32) && decide (h.bwMax < 2 ^ 32)
    && decide (1 ≤ h.burst ∧ h.burst ≤ 1250) && decide (h.openZones ≤ 4096) && decide (h.capGib < 2 ^ 32)

/-- Why a harness of function `f` does not fit the pool: REJECT reason 2-9, 0 when it fits (R109, R117, R127). -/
def poolReject (s : State) (f : Nat) (h : Harness) : Nat :=
  if promised s f Harness.slotShare + h.slotShare > availSlots s then 2
  else if promised s f Harness.dieShare + h.dieShare > availDies s then 3
  else if promised s f Harness.wbMib + h.wbMib > availWb s then 4
  else if promised s f Harness.tags + h.tags > 57344 then 5
  else if promised s f Harness.qpairs + h.qpairs > 4096 then 6
  else if promised s f (fun g => if g.tether then 1 else 0) + (if h.tether then 1 else 0) > 16 then 7
  else if promised s f Harness.openZones + h.openZones > 4096 then 8
  else if promised s f Harness.capGib + h.capGib > userGib s then 9
  else 0

/-- The harness record's fields from its 64 B (R111): the function number and the harness, or nothing where a
reserved part is not zero. -/
def parseHarness (b : List Byte) : Option (Nat × Harness) :=
  let u (o n : Nat) : Nat := leNat ((b.drop o).take n)
  let mode := u 2 1
  if b.length = 64 ∧ u 0 2 < 256 ∧ mode < 16 ∧ u 32 32 = 0 then
    some (u 0 2, { gait := mode % 4, tether := mode / 4 % 2 = 1, hard := mode / 8 % 2 = 1, qpairs := u 3 1,
                   slotShare := u 4 4, dieShare := u 8 4, wbMib := u 12 2, tags := u 14 2, iopsMax := u 16 4,
                   bwMax := u 20 4, burst := u 24 2, openZones := u 26 2, capGib := u 28 4 })
  else none

/-- The 64 B of a harness record (R111). -/
def harnessBytes (f : Nat) (h : Harness) : List Byte :=
  leBytes 2 f ++ leBytes 1 (h.gait + (if h.tether then 4 else 0) + (if h.hard then 8 else 0)) ++ leBytes 1 h.qpairs
    ++ leBytes 4 h.slotShare ++ leBytes 4 h.dieShare ++ leBytes 2 h.wbMib ++ leBytes 2 h.tags ++ leBytes 4 h.iopsMax
    ++ leBytes 4 h.bwMax ++ leBytes 2 h.burst ++ leBytes 2 h.openZones ++ leBytes 4 h.capGib ++ zeros 32

/-- More of a resource is promised than harnesses may draw: S is below 1 (R110). -/
def Scale.short (c : Scale) : Bool := decide (c.avail < c.prom)

/-- S times 65,536 (R110, R136). -/
def Scale.factor (c : Scale) : Nat := if c.short then c.avail * 65536 / c.prom else 65536

/-- A harness value times S, rounded down (R110). -/
def Scale.apply (c : Scale) (h : Nat) : Nat := if c.short then h * c.avail / c.prom else h

/-- Effective shares of a function (R110). The write-buffer allotment is never scaled below 2 MiB. -/
def effSlot (s : State) (x : Fn) : Nat := s.ten.scaleSlot.apply x.harness.slotShare
def effDie (s : State) (x : Fn) : Nat := s.ten.scaleDie.apply x.harness.dieShare
def effWb (s : State) (x : Fn) : Nat :=
  if s.ten.scaleWb.short then max 2 (s.ten.scaleWb.apply x.harness.wbMib) else x.harness.wbMib

/-- A scale factor is below 1 (R110). -/
def poolScaled (s : State) : Bool := s.ten.scaleSlot.short || s.ten.scaleDie.short || s.ten.scaleWb.short

/-- POOL_SCALE_APPLY: at a boundary effective shares follow the pool (R110). -/
def execPoolScaleApply (s : State) : Out :=
  .next <|
    let a : Scale := ⟨availSlots s, promisedAll s Harness.slotShare⟩
    let b : Scale := ⟨availDies s, promisedAll s Harness.dieShare⟩
    let c : Scale := ⟨availWb s, promisedAll s Harness.wbMib⟩
    let fell := (a.short && !s.ten.scaleSlot.short) || (b.short && !s.ten.scaleDie.short)
      || (c.short && !s.ten.scaleWb.short)
    let s := s.setTen { s.ten with scaleSlot := a, scaleDie := b, scaleWb := c }
    let s := if poolScaled s then
        s.setFns (Tbl.map s.fns fun _ x => { x with cur := { x.cur with flags := x.cur.flags ||| 0x20 } })
      else s
    if fell then (s.ev eTEN_POOL_SHORT).raise lTEN_POOL_SHORT none [] else s

/-! ## Token buckets (R114) -/

/-- Gains per stride in 1/65,536 tokens, and depths. -/
def iopsGain (h : Harness) : Nat := h.iopsMax * 65536 / 125000
def bwGain (h : Harness) : Nat := h.bwMax * 8 * 65536

/-- A bucket after a refill. -/
def refill (level : Int) (gain burst : Nat) : Int := min (level + gain) (gain * burst : Nat)

/-- Both buckets of a function at a stride boundary. -/
def tokenTick (x : Fn) : Fn :=
  { x with iopsLevel := refill x.iopsLevel (iopsGain x.harness) x.harness.burst,
           bwLevel := refill x.bwLevel (bwGain x.harness) x.harness.burst }

/-- A bucket allows a cost when it holds at least the cost or stands at its depth; a ceiling of 0 disables it. -/
def tokenRoom (max : Nat) (level : Int) (gain burst cost : Nat) : Bool :=
  max == 0 || decide (level ≥ (cost * 65536 : Nat)) || decide (level = (gain * burst : Nat))

/-! ## Manager commands (R108, R134) -/

/-- A refused Create, Harness Set, Bind or Restore keeps its reason (R127). -/
def State.reject (s : State) (seq f reason : Nat) (t : Status) : State :=
  (s.updFn f fun x => { x with reject := reason }).finish seq t

/-- A change waits for the boundary with its command. -/
def State.arm (s : State) (seq f : Nat) (a : FnArm) : State :=
  (s.updFn f fun x => { x with arms := x.arms ++ [(a, seq)] }).hold seq

/-- Manager commands of R134: a tenant receives Invalid Command Opcode; Dword 10 above 255 is an invalid field. -/
def State.manager (s : State) (seq f : Nat) (act : State → State) : State :=
  s.admin seq fun c =>
    if c.fn ≠ 0 then s.finish seq stInvalidOpcode
    else if f > 255 then s.finish seq stInvalidField
    else act s

/-- DRAINING, FROZEN and SAVED answer most manager commands with Function Frozen (R108). -/
def held (t : FnState) : Bool := t == .draining || t == .frozen || t == .saved

/-- FUNCTION_CREATE (R108, R111, R134). DEDUCED: on a function in DRAINING, FROZEN or SAVED R134's table says Command
Sequence Error and R108 Function Frozen; R108 names its exceptions and Create is none of them, so Function Frozen is
answered. -/
def execFunctionCreate (seq f : Nat) (data : List Byte) (s : State) : Out :=
  .next <| s.manager seq f fun s =>
    if held (s.fn f).state then s.reject seq f 10 stFrozen
    else if armedState (s.fn f) ≠ .free ∨ f = 0 then s.reject seq f 10 stSequence
    else match parseHarness data with
      | none => s.reject seq f 1 stInvalidField
      | some (g, h) =>
        if g ≠ f ∨ !h.inRange then s.reject seq f 1 stInvalidField
        else
          let r := poolReject s f h
          if r ≠ 0 then s.reject seq f r stInvalidField else s.arm seq f (.create h)

/-- FUNCTION_DELETE (R108, R134). -/
def execFunctionDelete (seq f : Nat) (s : State) : Out :=
  .next <| s.manager seq f fun s =>
    if f = 0 ∨ armedState (s.fn f) = .free ∨ (s.fn f).deleteWait.isSome then s.finish seq stInvalidField
    else s.arm seq f .delete

/-- VF `k` is enabled: the NumVFs of its port's PF is at least `k` (R106, R427). -/
def vfEnabled (s : State) (k : Nat) : Bool :=
  let port := if s.hif.dual then (s.rdAt rHIF_VF_PORTk 0 (k / 32)) / 2 ^ (k % 32) % 2 else 0
  decide (((Tbl.get s.hif.ports port).map Port.numVfs).getD 0 ≥ k) && k != 0

/-- FUNCTION_BIND: `kind` is Dword 11 bits [1:0] (R108, R134). -/
def execFunctionBind (seq f kind : Nat) (s : State) : Out :=
  .next <| s.manager seq f fun s =>
    let t := armedState (s.fn f)
    if f = 0 then s.reject seq f 1 stInvalidField
    else if t = .free then s.reject seq f 10 stSequence
    else if held t then s.reject seq f 10 stFrozen
    else match kind with
      | 0 => s.arm seq f (.bind .none)
      | 1 => if vfEnabled s f then s.arm seq f (.bind .pcie) else s.reject seq f 1 stInvalidField
      | 2 => s.arm seq f (.bind .network)
      | _ => s.reject seq f 1 stInvalidField

/-- TETHER may change only while a tenant function is IDLE, or function 0 has no I/O queue (R117). -/
def tetherMayChange (x : Fn) (f : Nat) (t : FnState) : Bool :=
  if f = 0 then (Tbl.keys x.sqs).all (· == 0) && (Tbl.keys x.cqs).all (· == 0) else t == .idle

/-- A zoned namespace is attached to the function (R159). -/
def holdsZoned (s : State) (x : Fn) : Bool :=
  x.spaces.any fun p => (Tbl.get s.map.spaces p.2).any fun sp => sp.typ == .zoned

/-- HARNESS_SET (R113, R117, R134); a function with a zoned namespace keeps an OPEN_ZONES above 0 (R159). -/
def execHarnessSet (seq f : Nat) (data : List Byte) (s : State) : Out :=
  .next <| s.manager seq f fun s =>
    let x := s.fn f
    let t := armedState x
    if f ≠ 0 ∧ t = .free then s.reject seq f 10 stSequence
    else if f ≠ 0 ∧ held t then s.reject seq f 10 stFrozen
    else match parseHarness data with
      | none => s.reject seq f 1 stInvalidField
      | some (g, h) =>
        if g ≠ f ∨ !h.inRange then s.reject seq f 1 stInvalidField
        else if h.tether ≠ (armedHarness x).tether ∧ !tetherMayChange x f t then s.reject seq f 10 stInvalidField
        else if h.openZones = 0 ∧ holdsZoned s x then s.reject seq f 8 stInvalidField
        else
          let r := poolReject s f h
          if r ≠ 0 then s.reject seq f r stInvalidField else s.arm seq f (.harness h)

/-- The function table in NOR takes a function's entry with a state (R497). The write runs on its own; `seqs` complete
with it. -/
def State.writeEntry (s : State) (f : Nat) (t : FnState) (seqs : List Nat) (dw0 : Dword) : State :=
  let x := s.fn f
  let e : FnEntry := { state := t, bind := x.bind, harness := x.harness, spaces := x.spaces, epoch := x.epoch }
  s.setNorWaits (s.norWaits ++
      [{ seqs := seqs, dw0 := dw0, entry := some (f, e), mig := s.ten.migSerial, key := none }])

/-- The same with the function's state. -/
def State.writeTable (s : State) (f : Nat) (seqs : List Nat) (dw0 : Dword) : State :=
  s.writeEntry f (s.fn f).state seqs dw0

/-- The functions' changes of a kind that are armed, removed from the list. -/
def takeArms (x : Fn) (p : FnArm → Bool) : List (FnArm × Nat) × Fn :=
  (x.arms.filter fun a => p a.1, { x with arms := x.arms.filter fun a => !p a.1 })

def isHarnessArm : FnArm → Bool
  | .harness _ => true
  | _ => false

/-- HARNESS_APPLY: at the boundary fetch applies a function's new limits, each bucket clipped to its new depth, in
the order in which the commands were processed (R113, R135). -/
def execHarnessApply (f : Nat) (s : State) : Out :=
  .next <|
    let (as, x) := takeArms (s.fn f) isHarnessArm
    if as.isEmpty then s
    else
      let h := as.foldl (fun h a => match a.1 with | .harness h' => h' | _ => h) x.harness
      let y := { x with harness := h, iopsLevel := min x.iopsLevel (iopsGain h * h.burst : Nat),
                        bwLevel := min x.bwLevel (bwGain h * h.burst : Nat) }
      let s := as.foldl (fun s a => s.finish a.2 stOk) (s.setFn f y)
      s.writeTable f [] 0

/-- FUNCTION_FREEZE (R128, R134): a FROZEN function answers at once, a DRAINING one when it is drained. -/
def execFunctionFreeze (seq f : Nat) (s : State) : Out :=
  .next <| s.manager seq f fun s =>
    let x := s.fn f
    match armedState x with
    | .active => if f = 0 then s.finish seq stSequence
        else (s.arm seq f .freeze).updFn f fun x => { x with freezeWait := x.freezeWait ++ [seq] }
    | .draining => (s.hold seq).updFn f fun x => { x with freezeWait := x.freezeWait ++ [seq] }
    | .frozen => s.finish seq stOk
    | _ => s.finish seq stSequence

/-- Commands of a function between fetch and completion point. Outstanding Asynchronous Event Requests are not
counted: they end only with an event. -/
def inFlight (s : State) (f : Nat) : List Cmd :=
  s.qmx.cmds.filter fun c => c.fn == f && !(s.fn f).aers.contains c.seq

/-- The function is FROZEN, and its Freezes complete after the table write (R128, R497). -/
def freezeDone (s : State) (f : Nat) : State :=
  let x := s.fn f
  let s := s.setFn f { x with state := .frozen, freezeWait := [], freezeLate := false, drainFor := 0 }
  s.writeTable f x.freezeWait 0

/-- FREEZE_DRAINED: at the first boundary with no command in flight (R128). -/
def execFreezeDrained (f : Nat) (s : State) : Out :=
  .next (if (s.fn f).state = .draining ∧ (inFlight s f).isEmpty then freezeDone s f else s)

/-- TEN_FREEZE_LATE: a drain not complete after 6,250 strides (R128). -/
def execTenFreezeLate (f : Nat) (s : State) : Out :=
  .next <|
    let x := s.fn f
    if x.state = .draining ∧ x.drainFor ≥ 6250 ∧ !x.freezeLate then
      let s := s.setFn f { x with freezeWait := [], freezeLate := true }
      let s := x.freezeWait.foldl (fun s q => s.finish q stInterrupted) s
      (s.ev eTEN_FREEZE_LATE).raise lTEN_FREEZE_LATE (some f) []
    else s

/-- A migration key is loaded (slot 256, R395). -/
def migKey (s : State) : Option KeySlot :=
  match Tbl.get s.key.slots 256 with
  | some k => if k.key.isSome then some k else none
  | none => none

/-- FUNCTION_SAVE: accepted in FROZEN with a migration key loaded (R129, R134); the record's IV needs random bits
(R409). -/
def execFunctionSave (seq f : Nat) (s : State) : Out :=
  .next <| s.manager seq f fun s =>
    if armedState (s.fn f) = .frozen ∧ (migKey s).isSome ∧ f ≠ 0 then
      if s.key.health then (useDrbg s).arm seq f .save else s.finish seq stInternal
    else s.finish seq stSequence

/-! ## Meters (R123-R126) -/

/-- The current-minute record as it is closed: GAIT is the gait at latch, CURRENT is clear. -/
def closeMeter (x : Fn) (add : BitVec 8) : Meter :=
  { x.cur with flags := (x.cur.flags &&& 0xFD) ||| add, gait := x.harness.gait }

/-- A new current-minute record that begins now: CURRENT, and WTHRU and POOL_SCALED where they are in force. -/
def openMeter (s : State) (f : Nat) (add : BitVec 8) : Meter :=
  { Meter.zero f with minute := s.seconds,
                      flags := 2 ||| add ||| (if s.qmx.wthru then 4 else 0) ||| (if poolScaled s then 0x20 else 0),
                      gait := (s.fn f).harness.gait }

/-- The ring takes a record and keeps the newest 120 (R123). -/
def pushRing (r : List Meter) (m : Meter) : List Meter := (m :: r).take 120

/-- MINUTE_BOUNDARY: every function's record is latched and a new one begins (R56, R123). -/
def execMinuteBoundary (s : State) : Out :=
  .next <|
    if !s.tbs.minuteDue then s
    else
      let part : BitVec 8 := if s.tbs.minutePartial then 1 else 0
      let latch (f : Nat) (x : Fn) : Fn :=
        if x.state = .free ∧ f ≠ 0 then x
        else { x with ring := pushRing x.ring (closeMeter x part), cur := openMeter s f 0 }
      let s := s.setFns (Tbl.map s.fns latch)
      (s.setTbs { s.tbs with minuteDue := false, minutePartial := false }).ev eTBS_MINUTE

/-- A meter record, 576 B (R124). -/
def meterBytes (m : Meter) : List Byte :=
  leBytes 8 m.minute ++ leBytes 2 m.func ++ [m.flags] ++ leBytes 1 m.gait ++ leBytes 4 m.readArounds
    ++ leBytes 8 m.bytesRead ++ leBytes 8 m.bytesWritten ++ leBytes 8 m.mediaBytes ++ leBytes 8 m.commands
    ++ leBytes 8 m.slots ++ leBytes 8 (m.capSum / 60).floor.toNat
    ++ (List.range 128).flatMap fun i => leBytes 4 (Tbl.getD m.hist i 0)

/-- A page about function `f`: a tenant reads only its own (R126). -/
def State.aboutFn (s : State) (seq f : Nat) (b : List Byte) (off len : Nat) : State :=
  s.admin seq fun c =>
    if f > 255 ∨ (c.fn ≠ 0 ∧ c.fn ≠ f) then s.finish seq stInvalidField else s.reply seq (slice b off len)

/-- Log page 0xC1 of a function (R126). -/
def meterPage (x : Fn) (f : Nat) : List Byte :=
  leBytes 2 f ++ leBytes 2 (1 + x.ring.length) ++ leBytes 8 ((x.ring.head?.map Meter.minute).getD 0) ++ zeros 52
    ++ meterBytes { x.cur with gait := x.harness.gait } ++ x.ring.flatMap meterBytes

/-- GET_LOG_PAGE_METERS (R126). -/
def execGetLogPageMeters (seq f off len : Nat) (s : State) : Out :=
  .next (s.aboutFn seq f (meterPage (s.fn f) f) off len)

/-! ## Harness status (R127) -/

/-- Completion entries of a function's queue held behind a full completion queue (R89). -/
def heldEntries (s : State) (f : Nat) (p : Nat → Bool) : Nat :=
  ((s.fn f).cqs.map fun q => (q.2.held.filter fun e => p e.sqid).length).sum

/-- I/O command tags that a function holds, from fetch until the completion entry is written (R127). -/
def tagsUsed (s : State) (f : Nat) : Nat :=
  (s.qmx.cmds.filter fun c => c.fn == f && !c.admin).length + heldEntries s f (· != 0)

/-- Admin tags that a function holds (R74). -/
def adminTagsUsed (s : State) (f : Nat) : Nat :=
  (s.qmx.cmds.filter fun c => c.fn == f && c.admin).length + heldEntries s f (· == 0)

/-- A slot counts among its function's holdings (R177). -/
def Slot.counts (x : Slot) : Bool :=
  x.state == .filling || x.state == .held || x.state == .assembled || x.state == .sent

/-- Write-buffer slots that a function holds, pinned ones included (R177). -/
def wbSlots (s : State) (f : Nat) : Nat := (s.wbf.slots.filter fun p => p.2.fn == f && p.2.counts).length

/-- Open and active zones of a namespace (R159). -/
def openZones (sp : Space) : Nat :=
  (sp.zones.filter fun z => z.2.state == .implOpen || z.2.state == .explOpen || z.2.state == .closed).length

/-- Open and active zones across a function's zoned namespaces (R111, R127). -/
def fnZones (s : State) (x : Fn) : Nat :=
  (x.spaces.map fun p => ((Tbl.get s.map.spaces p.2).map openZones).getD 0).sum

/-- A fabrics association of a function is present. -/
def hasAssoc (s : State) (f : Nat) : Bool := s.net.assocs.any fun a => a.fn == f && !a.discovery

/-- Whole tokens of a level with 16 fractional bits, rounded down. -/
def wholeTokens (l : Int) : Int := l / 65536

/-- Log page 0xC2 of a function (R127). -/
def harnessStatus (s : State) (f : Nat) : List Byte :=
  let x := s.fn f
  harnessBytes f x.harness ++ leBytes 1 x.state.ctorIdx ++ leBytes 1 x.epoch
    ++ leBytes 1 (x.bind.ctorIdx + (if hasAssoc s f then 4 else 0)) ++ leBytes 1 x.reject
    ++ leBytes 2 ((Tbl.keys x.sqs).filter (· != 0)).length ++ leBytes 2 (tagsUsed s f)
    ++ leBytes 4 (wbSlots s f * 4) ++ leBytes 4 (effSlot s x) ++ leBytes 4 (effDie s x) ++ leBytes 2 (effWb s x)
    ++ leBytes 2 (fnZones s x) ++ leBytes 4 (toSigned 32 (wholeTokens x.iopsLevel))
    ++ leBytes 4 (toSigned 32 (wholeTokens x.bwLevel)) ++ leBytes 2 x.spaces.length ++ zeros 30

/-- GET_LOG_PAGE_HARNESS_STATUS (R127). -/
def execGetLogPageHarnessStatus (seq f off len : Nat) (s : State) : Out :=
  .next (s.aboutFn seq f (harnessStatus s f) off len)

/-! ## Save, thaw, restore (R129-R133) -/

/-- Queue entries of a record, the admin queue first (R130). -/
def saveQueues (x : Fn) : List QEntry :=
  x.sqs.filterMap fun p => (Tbl.get x.cqs p.2.cqid).map fun q => { qid := p.1, sq := p.2, cq := q }

/-- Namespace entries of a record (R130): NSID, NGUID, mode and key value. -/
def saveSpaces (s : State) (x : Fn) : List (Nat × Nat × Nat × Nat) :=
  x.spaces.filterMap fun p => (Tbl.get s.map.spaces p.2).map fun sp =>
    (p.1, sp.nguid, sp.mode.ctorIdx,
      if sp.mode = .none then 0 else ((Tbl.get s.key.slots (512 + p.2)).bind KeySlot.key).getD 0)

/-- Length of a migration record in bytes (R130). -/
def recordLength (r : MigRecord) : Nat :=
  80 + 64 + 40 * r.queues.length + 96 * r.spaces.length + 576 * r.meters.length + 16

/-- SAVE_APPLY: at the boundary the record is built and the function table written; the function is SAVED, and the Save
completes with the record length, after that write (R129). DESIGN CHOICE: the spec does not say which record runs from
the close to Thaw; a plain current-minute record opens, and Thaw replaces it without latching it. -/
def execSaveApply (f : Nat) (s : State) : Out :=
  .next <|
    let (as, x) := takeArms (s.fn f) (· == .save)
    match as, migKey s with
    | _ :: _, some k =>
      let closed := closeMeter x 8
      let (n, s) := s.draw
      let r : MigRecord :=
        { srcBind := x.bind, srcFunc := f, epoch := x.epoch, srcSerial := s.fuses.serial.toNat,
          migSerial := s.ten.migSerial, ledgerSeq := s.evl.newest, saveSeconds := s.seconds,
          keyId := k.keyId, harness := x.harness, queues := saveQueues x,
          spaces := saveSpaces s x, meters := closed :: x.ring.take 60, key := k.key.getD 0, iv := Config.gcmIv n }
      let s := s.setTen { s.ten with migSerial := s.ten.migSerial + 1 }
      let s := s.setFn f { x with saving := true, record := some r, ring := pushRing x.ring closed,
                                  cur := openMeter s f 0 }
      s.writeEntry f .saved (as.map Prod.snd) (BitVec.ofNat 32 (recordLength r))
    | [], _ => s
    | _ :: _, none => as.foldl (fun s a => s.finish a.2 stSequence) (s.setFn f x)

/-- The write of the function table that a Save waits for is done: the function is SAVED, its record readable
(R129, R136). -/
def savedDone (s : State) (f : Nat) : State :=
  let x := s.fn f
  match x.record with
  | some r =>
    if x.saving ∧ x.state = .frozen then
      ((((s.setFn f { x with saving := false, state := .saved }).bump rTEN_MIG_SAVES 1).ev eTEN_SAVE).raise
        lTEN_MIG_SAVE (some f) [p4 r.migSerial])
    else s
  | none => s

/-- The record that the manager can read: of a SAVED function (R129). -/
def recordReadable (s : State) (f : Nat) : Option MigRecord :=
  if (s.fn f).state = .saved then (s.fn f).record else none

/-- The plaintext header of a record, 80 B (R130). -/
def recordHeader (r : MigRecord) : List Byte :=
  [0x51, 0x48, 0x4D, 0x52] ++ leBytes 2 1 ++ leBytes 1 r.srcBind.ctorIdx ++ leBytes 1 r.queues.length
    ++ leBytes 1 r.spaces.length ++ leBytes 1 r.meters.length ++ leBytes 1 r.srcFunc ++ leBytes 1 r.epoch
    ++ leBytes 4 (recordLength r) ++ leBytes 16 r.srcSerial ++ leBytes 8 r.migSerial ++ leBytes 6 r.ledgerSeq
    ++ zeros 2 ++ leBytes 8 r.saveSeconds ++ leBytes 4 r.keyId ++ leBytes 12 r.iv ++ zeros 8

/-- A queue entry of a record, 40 B (R130). -/
def queueBytes (net : Bool) (q : QEntry) : List Byte :=
  leBytes 8 (if net then 0 else q.sq.base) ++ leBytes 8 (if net then 0 else q.cq.base) ++ leBytes 2 q.qid
    ++ leBytes 2 (q.sq.size - 1) ++ leBytes 2 (q.cq.size - 1) ++ leBytes 2 q.sq.head ++ leBytes 2 q.sq.tail
    ++ leBytes 2 q.cq.head ++ leBytes 2 q.cq.tail ++ leBytes 2 q.cq.vector
    ++ leBytes 1 ((if q.cq.phase then 1 else 0) + (if q.sq.pc then 2 else 0) + (if q.cq.ien then 4 else 0)) ++ zeros 7

/-- The body of a record before encryption, 64 + 40 q + 96 n + 576 m bytes (R130). -/
def recordBody (r : MigRecord) : List Byte :=
  harnessBytes r.srcFunc r.harness ++ r.queues.flatMap (queueBytes (r.srcBind == .network))
    ++ r.spaces.flatMap (fun n => leBytes 4 n.1 ++ leBytes 16 n.2.1 ++ leBytes 1 n.2.2.1 ++ zeros 3
        ++ leBytes 72 (if n.2.2.1 = 0 then 0 else Config.keyWrap r.key n.2.2.2))
    ++ r.meters.flatMap meterBytes

/-- The record as the manager reads it: header, encrypted body, and the tag over both (R130). -/
def recordCipher (r : MigRecord) : List Byte :=
  let h := recordHeader r
  let b := recordBody r
  h ++ leBytes b.length (Config.gcmBody r.key r.iv b) ++ leBytes 16 (Config.gcmTag r.key r.iv h b)

/-- GET_LOG_PAGE_MIGRATION_RECORD: the manager reads the record of a SAVED function; with no record the page has
zero length (R129). -/
def execGetLogPageMigrationRecord (seq f off len : Nat) (s : State) : Out :=
  .next <| s.admin seq fun c =>
    if c.fn ≠ 0 ∨ f > 255 then s.finish seq stInvalidField
    else match recordReadable s f with
      | none => s.reply seq []
      | some r => s.reply seq (slice (recordCipher r) off len)

/-- FUNCTION_THAW: from FROZEN or SAVED (R133, R134). -/
def execFunctionThaw (seq f : Nat) (s : State) : Out :=
  .next <| s.manager seq f fun s =>
    match armedState (s.fn f) with
    | .frozen => if f = 0 then s.finish seq stSequence else s.arm seq f .thaw
    | .saved => s.arm seq f .thaw
    | _ => s.finish seq stSequence

/-- The namespace of an NGUID: its index and itself. -/
def spaceByGuid (s : State) (g : Nat) : Option (Nat × Space) :=
  s.map.spaces.find? fun p => p.2.nguid == g && !p.2.deleted

/-- A namespace holds mapped data: some entry of it is not unmapped. -/
def hasData (s : State) (ns : Nat) : Bool :=
  (s.map.coarse.any fun p => p.1 / 2 ^ 48 == ns && p.2.kind != .unmapped)
    || (s.map.chunks.any fun p => p.1 / 2 ^ 48 == ns && p.2.kind != .unmapped)

/-- Step 4 of R131 for a namespace entry, and whether its key unwraps. -/
def restoreSpaceOk (s : State) (e : Nat × Nat × Nat × Nat) (unwraps : Bool) : Bool :=
  match spaceByGuid s e.2.1 with
  | none => false
  | some (ns, sp) =>
    e.2.2.1 == 0 || (sp.mode.ctorIdx == e.2.2.1 && unwraps &&
      (!hasData s ns || ((Tbl.get s.nor.keys ns).map KeyRec.kcv) == some (kcv e.2.2.2)))

/-- A Restore is refused at steps 1-4 of R131. -/
def restoreReject (s : State) (seq f : Nat) : State :=
  ((s.ev eTEN_REJECT).raise lTEN_MIG_REJECT (some f) []).finish seq stMigRejected

/-- Field of a record or of one of its parts: `n` bytes from byte `off`, little-endian. -/
def recField (b : List Byte) (off n : Nat) : Nat := leNat (slice b off n)

/-- MAGIC, VERSION and LENGTH of a record are right (R130, R131 step 1): LENGTH is the length of the bytes and of the
parts that the counts give. -/
def recordForm (b : List Byte) : Bool :=
  slice b 0 4 == [0x51, 0x48, 0x4D, 0x52] && recField b 4 2 == 1 && recField b 12 4 == b.length &&
    b.length == 160 + 40 * recField b 7 1 + 96 * recField b 8 1 + 576 * recField b 9 1

/-- An entry that a queue held when it was saved; its bytes are in host memory. -/
def savedEntry : Cqe :=
  { cid := 0, sqid := 0, sqHead := 0, sct := 0, sc := 0, dnr := false, dw0 := 0, dw1 := 0, lat := none, dscp := none }

/-- A queue entry of a record (R130). DEDUCED: an entry names one identifier, so the completion queue of a pair carries
that of its submission queue. -/
def parseQueue (b : List Byte) : QEntry :=
  let u (off n : Nat) : Nat := recField b off n
  let bit (k : Nat) : Bool := u 32 1 / 2 ^ k % 2 == 1
  let n := (u 28 2 + (u 20 2 + 1) - u 26 2) % (u 20 2 + 1)
  { qid := u 16 2,
    sq := { base := u 0 8, size := u 18 2 + 1, cqid := u 16 2, head := u 22 2, tail := u 24 2, pc := bit 1 },
    cq := { base := u 8 8, size := u 20 2 + 1, head := u 26 2, tail := u 28 2, phase := bit 0, pc := bit 1,
            ien := bit 2, vector := u 30 2, posted := List.replicate n savedEntry, held := [], fullFor := 0,
            stalled := false } }

/-- A meter record's fields from its 576 B (R124). -/
def parseMeter (b : List Byte) : Meter :=
  let u (off n : Nat) : Nat := recField b off n
  { minute := u 0 8, func := u 8 2, flags := BitVec.ofNat 8 (u 10 1), gait := u 11 1, readArounds := u 12 4,
    bytesRead := u 16 8, bytesWritten := u 24 8, mediaBytes := u 32 8, commands := u 40 8, slots := u 48 8,
    capSum := 60 * u 56 8,
    hist := (List.range 128).foldl (fun t i => Tbl.put t i (u (64 + 4 * i) 4) 0) [] }

/-- The record that a header and a decrypted body give, with the namespace keys as they unwrap; none where the harness
record has a reserved part that is not zero (R111, R130). -/
def parseRecord (b body : List Byte) (keys : List (Option Nat)) (key : Nat) : Option MigRecord :=
  let (q, n, m) := (recField b 7 1, recField b 8 1, recField b 9 1)
  let spaceAt (i : Nat) : Nat × Nat × Nat × Nat :=
    let e := slice body (64 + 40 * q + 96 * i) 96
    (recField e 0 4, recField e 4 16, recField e 20 1, (keys.getD i none).getD 0)
  (parseHarness (slice body 0 64)).map fun h =>
    { srcBind := match recField b 6 1 with | 1 => .pcie | 2 => .network | _ => .none
      srcFunc := recField b 10 1, epoch := recField b 11 1, srcSerial := recField b 16 16,
      migSerial := recField b 32 8, ledgerSeq := recField b 40 6, saveSeconds := recField b 48 8,
      keyId := recField b 56 4, harness := h.2,
      queues := (List.range q).map fun i => parseQueue (slice body (64 + 40 * i) 40),
      spaces := (List.range n).map spaceAt,
      meters := (List.range m).map fun i => parseMeter (slice body (64 + 40 * q + 96 * n + 576 * i) 576),
      key := key, iv := recField b 60 12 }

/-- Steps 5 and 6 of R131, and the arming of a record that passes. -/
def restoreFits (s : State) (seq f kind : Nat) (r : MigRecord) : State :=
  if !r.harness.inRange then s.reject seq f 1 stInvalidField
  else if poolReject s f r.harness ≠ 0 then s.reject seq f (poolReject s f r.harness) stInvalidField
  else match kind with
    | 0 => s.arm seq f (.restore r .none)
    | 1 => if vfEnabled s f then s.arm seq f (.restore r .pcie) else s.reject seq f 1 stInvalidField
    | 2 => s.arm seq f (.restore r .network)
    | _ => s.reject seq f 1 stInvalidField

/-- FUNCTION_RESTORE of a record's bytes (R131). AES is not computed here: `plain` is the body as it decrypts under the
loaded migration key, none where the tag does not verify, and `keys` is what the namespace entries' keys unwrap to,
none where an unwrap fails. -/
def execFunctionRestore (seq f kind : Nat) (record : List Byte) (plain : Option (List Byte))
    (keys : List (Option Nat)) (s : State) : Out :=
  .next <| s.manager seq f fun s =>
    let t := armedState (s.fn f)
    let here := t = .saved ∧ f = recField record 10 1 ∧ recField record 16 16 = s.fuses.serial.toNat
    if f = 0 ∨ ¬(t = .free ∨ here) then s.reject seq f 10 stSequence
    else if !recordForm record then restoreReject s seq f
    else match migKey s with
    | none => restoreReject s seq f
    | some k =>
      if k.keyId ≠ recField record 56 4 then restoreReject s seq f
      else match plain with
      | none => restoreReject s seq f
      | some body =>
        if body.length + 96 ≠ record.length then restoreReject s seq f
        else match parseRecord record body keys (k.key.getD 0) with
        | none => s.reject seq f 1 stInvalidField
        | some r =>
          if r.spaces.zipIdx.all fun e => restoreSpaceOk s e.1 (keys.getD e.2 none).isSome then restoreFits s seq f kind r
          else restoreReject s seq f

/-- TEN_MIG_SERIAL_LO_READ: latches MIG_SERIAL_HI for the path (R136). -/
def execTenMigSerialLoRead (p : Path) (s : State) : Out :=
  .next <|
    (s.latch p 12 0x78 (BitVec.ofNat 32 (s.ten.migSerial / 2 ^ 32))).answer
      (.word (BitVec.ofNat 32 s.ten.migSerial))

/-! ## Boundary changes of a function (R107, R108, R128, R132, R133) -/

/-- A function becomes FREE: its namespaces are detached, its meters end; the reason of the last refusal stays. -/
def freeFn (x : Fn) : Fn := { Fn.free with reject := x.reject }

/-- Traffic keys of a TLS index are cleared and the index is free (R435). -/
def freeTls (s : State) (a : Nat) : State :=
  let s := s.setNet { s.net with tls := Tbl.erase s.net.tls a }
  (s.setKeySlot (1536 + 2 * a) KeySlot.empty).setKeySlot (1537 + 2 * a) KeySlot.empty

/-- The fabrics association of a function goes with its connections and the capsules not yet fetched. -/
def dropAssoc (s : State) (f : Nat) : State :=
  let tls := (s.net.assocs.filter fun a => a.fn == f && !a.discovery).flatMap fun a => a.queues.filterMap Prod.snd
  let s := tls.foldl freeTls s
  s.setNet { s.net with assocs := s.net.assocs.filter fun a => a.fn != f || a.discovery,
                               capsules := s.net.capsules.filter fun c => c.1 != f }

/-- A function without commands in flight becomes FREE: its outstanding Asynchronous Event Requests and its association
go with it (R108), and its KWK is zeroized (R415). -/
def endFn (s : State) (f : Nat) : State :=
  let s := (s.setKeySlot f KeySlot.empty).setKey { (s.setKeySlot f KeySlot.empty).key with
    offers := Tbl.erase s.key.offers f }
  let s := s.setQmx { s.qmx with cmds := s.qmx.cmds.filter fun c => c.fn != f }
  (dropAssoc s f).updFn f freeFn

/-- The keys of a restored record's namespaces enter their slots; a key that the slot holds stays. The write sequence
moves above every value given before (R132, R152, R404, R405). -/
def loadKeys (s : State) (r : MigRecord) : State :=
  r.spaces.foldl (fun s e =>
    match spaceByGuid s e.2.1 with
    | none => s
    | some (ns, sp) =>
      if e.2.2.1 = 0 ∨ (s.keySlot (keySlotNs ns)).key = some e.2.2.2 then s
      else
        let s := bumpSeq (changeKey s ns (some e.2.2.2) sp.source sp.owner r.keyId none) ns
        let old := ((keyRec s ns).map KeyRec.erased).getD []
        s.writeKeyRec ns (newKeyRec sp (some e.2.2.2) r.keyId old) [] 0) s

/-- The function that a Restore installs (R132). DESIGN CHOICE: the record carries no bucket level and the spec names
none; both start at 0. -/
def restoredFn (s : State) (x : Fn) (r : MigRecord) (b : Machine.Bind) : Fn :=
  let both := r.srcBind == .pcie && b == .pcie
  { Fn.free with state := .frozen, bind := b, harness := r.harness, epoch := (r.epoch + 1) % 256,
                 reject := x.reject, planSlot := r.harness.slotShare, planDie := r.harness.dieShare,
                 planHard := r.harness.hard, enabled := both,
                 sqs := if both then r.queues.foldl (fun t q => Tbl.set t q.qid q.sq) [] else [],
                 cqs := if both then r.queues.foldl (fun t q => Tbl.set t q.sq.cqid q.cq) [] else [],
                 spaces := r.spaces.foldl (fun t e => match spaceByGuid s e.2.1 with
                   | some (ns, _) => Tbl.set t e.1 ns
                   | none => t) [],
                 ring := r.meters.take 120, cur := openMeter s r.srcFunc 0x10 }

/-- Apply one change that the boundary brings about. DESIGN CHOICE: the spec gives a created function's bucket levels no
value; both buckets start full. -/
def applyArm (s : State) (f : Nat) (a : FnArm) (seq : Nat) : State :=
  let x := s.fn f
  match a with
  | .create h =>
    let y := { Fn.free with state := .idle, harness := h, reject := x.reject, planSlot := h.slotShare,
                            planDie := h.dieShare, planHard := h.hard,
                            iopsLevel := (iopsGain h * h.burst : Nat), bwLevel := (bwGain h * h.burst : Nat) }
    let s := s.setFn f { y with cur := openMeter (s.setFn f y) f 0 }
    (s.finish seq stOk).writeTable f [] 0
  | .bind b =>
    let s := match x.state with
      | .active => s.setFn f { x with state := if b = Machine.Bind.none then FnState.idle else FnState.active, bind := b,
                                      flrArm := some .rebind }
      | _ => s.setFn f { x with state := if b = Machine.Bind.none then FnState.idle else FnState.active, bind := b }
    (s.finish seq stOk).writeTable f [] 0
  | .freeze => s.setFn f { x with state := .draining, drainFor := 0, freezeLate := false }
  | .thaw =>
    let s := match x.record with
      | some r =>
        let s := s.setFn f { x with state := .active, record := none, saving := false, cur := openMeter s f 0x10 }
        (s.ev eTEN_ABANDON).raise lTEN_MIG_ABANDON (some f) [p4 r.migSerial]
      | none => s.setFn f { x with state := .active }
    (s.finish seq stOk).writeTable f [] 0
  | .restore r b =>
    let s := loadKeys (s.setFn f (restoredFn s x r b)) r
    let s := s.updFn f fun y => { y with cur := { y.cur with func := f } }
    let s := (s.ev eTEN_RESTORE).raise lTEN_MIG_RESTORE (some f) [p4 r.srcSerial, p4 r.migSerial, p6 r.ledgerSeq]
    (s.finish seq stOk).writeTable f [] 0
  | .delete =>
    if x.state = .active ∨ x.state = .draining then
      let s := x.freezeWait.foldl (fun s q => s.finish q stSequence) s
      s.updFn f fun y => { y with freezeWait := [], flrArm := some .delete, deleteWait := some seq }
    else ((endFn s f).finish seq stOk).writeTable f [] 0
  | .save => s
  | .harness _ => s

/-- The changes of one function that apply with the stride tick: all but a harness and a Save, which have steps of
their own. -/
def applyArms (s : State) (f : Nat) : State :=
  let (as, x) := takeArms (s.fn f) fun a => !(isHarnessArm a || a == .save)
  as.foldl (fun s a => applyArm s f a.1 a.2) (s.setFn f x)

/-- TEN at a stride boundary: the plan takes the shares of the stride before (R113), the buckets refill (R114), the
drains age (R128), BG_MAX applies (R136), and armed changes take effect (R107). -/
def tenTick (s : State) : State :=
  let s := s.setTen { s.ten with bgMax := s.rd rTEN_BG_MAX }
  let turn (_ : Nat) (x : Fn) : Fn :=
    let x := tokenTick x
    { x with passed := false, fetched := 0, planSlot := effSlot s x, planDie := effDie s x, planHard := x.harness.hard,
             drainFor := if x.state = .draining then x.drainFor + 1 else x.drainFor,
             flrFor := if x.flr.isSome then x.flrFor + 1 else x.flrFor }
  let s := s.setFns (Tbl.map s.fns turn)
  (Tbl.keys s.fns).foldl applyArms s

end Sys2Proof.Machine
end

