-- ==== Sys2Proof/Machine/Intake.lean ====
section
/-! DEFINITION. Command intake: doorbells, fetch, queues, features, asynchronous events, absent commands
(03 R68-R76, R89, R93-R97, R104). -/

namespace Sys2Proof.Machine

open Sys2Proof

/-! ## Doorbells (R75, R89, R97) -/

/-- A doorbell write that is ignored: counted, and reported by an asynchronous event of type Error status with the
Error Information log (R97). -/
def badDoorbell (s : State) (f info : Nat) : State :=
  ((s.bump rQMX_BADDB 1).ev eQMX_BADDB).asyncEvent f 0 info 1

/-- PS3 or PS4 is left for the last operational state; an entry into one that is not complete is abandoned
(R462, R474). -/
def leaveLowPower (s : State) : State :=
  if s.thm.ps ≥ 3 then (s.setThm { s.thm with ps := s.thm.psOper, psArm := none }).ev eTHM_PS_CHANGE
  else if s.thm.psArm.any fun n => decide (n ≥ 3) then s.setThm { s.thm with psArm := none }
  else s

/-- PCIe port of a function: in dual-port mode a VF's by HIF_VF_PORT, function 0's the owner's (R426, R427). -/
def pciePort (s : State) (f : Nat) : Nat :=
  if !s.hif.dual then 0
  else if f = 0 then s.hif.owner.getD 0
  else s.rdAt rHIF_VF_PORTk 0 (f / 32) / 2 ^ (f % 32) % 2

/-- The domains that a host request of function `f` reaches: its transport's and QMX's (R30). -/
def requestDomains (s : State) (f : Nat) : BitVec 256 :=
  qmxDomains |||
    (if (s.fn f).bind = .network then
      match s.net.assocs.find? fun a => a.fn == f && !a.discovery with
      | some a => netDomains a.iface
      | none => domains 36 37
    else linkDomains s.hif.dual (pciePort s f) ||| domains 26 26)

/-- In PS4 the first doorbell returns the device (R462). -/
def ringWake (s : State) : State := if s.thm.ps = 4 then leaveLowPower s else s

/-- SQ_TAIL_DOORBELL: function `f`, queue, value (R75, R97); no request passes an Insecure stream (R429). -/
def execSqTailDoorbell (f qid val : Nat) (s : State) : Out :=
  .next <|
    let x := s.fn f
    if ideBlocked s f then s
    else
    let s := s.wake (requestDomains s f)
    match Tbl.get x.sqs qid with
    | none => badDoorbell s f 0
    | some q =>
      if val ≥ q.size then badDoorbell s f 1
      else ringWake (s.setFn f { x with sqs := Tbl.set x.sqs qid { q with tail := val } })

/-- Write held completions while the queue has room, oldest first (R89). -/
def Cq.drain (q : Cq) : Nat → Cq
  | 0 => q
  | n + 1 =>
    match q.held with
    | [] => q
    | e :: r =>
      if q.full then q
      else
        let empty : Cq := { q with held := [] }
        let k := empty.push e
        Cq.drain { k with held := r } n

/-- The queue after its head moves to `val`, releasing `n` entries (R89). -/
def Cq.release (q : Cq) (val n : Nat) : Cq :=
  Cq.drain { q with head := val, posted := q.posted.drop n } q.held.length

/-- A Delete I/O Submission Queue whose aborted completions were held completes once they are written (R94). -/
def deletesDone (s : State) (f : Nat) : State :=
  (s.qmx.sqWait.filter fun w => w.1 == f).foldl (fun s w =>
    let q := Tbl.get (s.fn f).cqs w.2.1
    if q.any fun k => k.held.any fun e => e.sqid == w.2.2.1 then s
    else (s.setQmx { s.qmx with sqWait := s.qmx.sqWait.filter (· != w) }).finish w.2.2.2 stOk) s

/-- The host releases entries of a completion queue: held completions are written in their place, each at the end of its
command's latency (R89, R125). -/
def releaseCq (s : State) (f qid val n : Nat) (q : Cq) : State :=
  let k := q.release val n
  let s := s.updFn f fun x => { x with cqs := Tbl.set x.cqs qid k }
  let s := (q.held.take (q.held.length - k.held.length)).foldl (fun s e => s.entryWritten f e) s
  deletesDone s f

/-- CQ_HEAD_DOORBELL (R89, R97). -/
def execCqHeadDoorbell (f qid val : Nat) (s : State) : Out :=
  .next <|
    let x := s.fn f
    if ideBlocked s f then s
    else
    let s := s.wake (requestDomains s f)
    match Tbl.get x.cqs qid with
    | none => badDoorbell s f 0
    | some q =>
      let n := (val + q.size - q.head) % q.size
      if val ≥ q.size ∨ n > q.posted.length then badDoorbell s f 1
      else ringWake (releaseCq s f qid val n q)

/-- A completion queue at a stride boundary: strides for which it has been full (R89). -/
def Cq.age (q : Cq) : Cq :=
  if q.full then { q with fullFor := q.fullFor + 1 } else { q with fullFor := 0, stalled := false }

/-- CQ_STALL: a queue full for STALL_STRIDES; 0 disables the event (R89, R104). -/
def execCqStall (f qid : Nat) (s : State) : Out :=
  .next <|
    let x := s.fn f
    match Tbl.get x.cqs qid with
    | none => s
    | some q =>
      let lim := s.rd rQMX_STALL_STRIDES
      if lim = 0 ∨ q.fullFor < lim ∨ q.stalled then s
      else
        let s := s.setFn f { x with cqs := Tbl.set x.cqs qid { q with stalled := true } }
        (s.ev eQMX_CQ_STALL).raise lQMX_CQ_STALL (some f) []

/-! ## Fetch (R73-R76) -/

/-- An immediate activation has stopped fetch (R101). -/
def actRuns (s : State) : Bool := s.qmx.act != .idle && s.qmx.act != .armed

/-- Fetch is stopped by activation, freeze or firmware stop (QMX_STAT.FETCH_STOP). -/
def fetchStop (s : State) : Bool := s.qmx.frozen || s.cpx.stopped || actRuns s

/-- Fetch runs for function `f`: the device is ready and not shutting down, dumping or stopped, and the function is
ACTIVE, enabled and in no reset. -/
def fetchRuns (s : State) (f : Nat) : Bool :=
  let x := s.fn f
  !fetchStop s && s.bot.ready && s.bot.shutdown == 0 && s.hld.dump == .idle && x.state == .active && x.enabled
    && x.shst == 0 && x.flr.isNone && x.flrArm.isNone

/-- Commands of a gait between fetch and admission (R76). -/
def intakeDepth (s : State) (g : Nat) : Nat :=
  (s.qmx.cmds.filter fun c => !c.admin && !c.admitted && c.gait == g).length

/-- Slots that fetched writes of a function will take at admission. -/
def wbReserved (s : State) (f : Nat) : Nat :=
  ((s.qmx.cmds.filter fun c => c.fn == f && !c.admitted).map fun c => (c.wbBytes + 4095) / 4096).sum

/-- Bytes of logical-block data that a command of opcode `op` on `n` blocks moves between host and block: the transfer
of Read, Write, Compare and Zone Append, and 0 of every other (R114). -/
def transferBytes (op n : Nat) : Nat :=
  if op = 0x01 ∨ op = 0x02 ∨ op = 0x05 ∨ op = 0x7D then 4096 * n else 0

/-- Bytes of write data that it brings (R73). -/
def writeBytes (op n : Nat) : Nat := if op = 0x01 ∨ op = 0x7D then 4096 * n else 0

/-- The harness has room for an I/O command of opcode `op` on `n` blocks, of gait `g` (R73, R114, R177). While the
function holds more than a lowered allotment nothing is fetched (R78). -/
def harnessRoom (s : State) (f op n g : Nat) : Bool :=
  let x := s.fn f
  decide (tagsUsed s f < x.harness.tags)
    && decide (wbSlots s f + wbReserved s f + (writeBytes op n + 4095) / 4096 ≤ effWb s x * 252)
    && tokenRoom x.harness.iopsMax x.iopsLevel (iopsGain x.harness) x.harness.burst 1
    && tokenRoom x.harness.bwMax x.bwLevel (bwGain x.harness) x.harness.burst (transferBytes op n)
    && decide (intakeDepth s g < 8192)

/-- Command identifier of the capsule that came first for a queue (R101). -/
def firstCapsule (s : State) (f qid : Nat) : Option Nat :=
  (s.net.capsules.find? fun c => c.1 == f && c.2.1 == qid).map fun c => c.2.2.1

/-- The queue has an unfetched entry, of command identifier `cid`: between head and tail, or the first capsule for it in
a NET buffer. -/
def entryWaits (s : State) (f qid cid : Nat) (q : Sq) : Bool :=
  if (s.fn f).bind = .network then firstCapsule s f qid == some cid else q.head != q.tail

/-- A queue that QMX may visit: it has an entry, its completion queue has room (R89), and for the admin queue one of the
32 admin tags is free (R74). -/
def queueReady (s : State) (f qid : Nat) : Bool :=
  let x := s.fn f
  match Tbl.get x.sqs qid with
  | none => false
  | some q =>
    (if x.bind = .network then (firstCapsule s f qid).isSome else q.head != q.tail) &&
      (match Tbl.get x.cqs q.cqid with
       | some k => !k.full && k.held.isEmpty
       | none => false) &&
      (if qid = 0 then decide (adminTagsUsed s f < 32) else !x.passed)

/-- The queue that QMX visits now: up to 2^AB entries of one queue, the I/O queues in round robin, and the admin queue
between every two of them (R75). -/
def queueInTurn (s : State) (f : Nat) : Option Nat :=
  let x := s.fn f
  let v := x.visit
  if v.left > 0 ∧ queueReady s f v.q then some v.q
  else
    let ios := (Tbl.keys x.sqs).filter fun q => q != 0 && queueReady s f q
    let admin := if queueReady s f 0 then some 0 else none
    let next := (ios.find? fun q => decide (q > v.io)).orElse fun _ => ios.head?
    if v.q = 0 then next.orElse fun _ => admin else admin.orElse fun _ => next

/-- The function whose turn it is: the fastest gait first, then the fewest entries of this stride for its SLOT_SHARE
(R75; DEDUCED: the deficits of fetch start again with each stride), the lowest number on a tie. -/
def fnInTurn (s : State) : Option Nat :=
  let fs := (s.fns.filter fun p => fetchRuns s p.1 && (queueInTurn s p.1).isSome).map Prod.fst
  fs.foldl (fun (a : Option Nat) f =>
    let key (f : Nat) : Nat := (s.fn f).harness.gait * 2 ^ 64 + (s.fn f).fetched
    match a with
    | none => some f
    | some g => if key f < key g then some f else a) none

/-- The visit after an entry of queue `q`: AB above 6 counts as 6 (R69). -/
def Visit.take (v : Visit) (q ab : Nat) : Visit :=
  if v.left > 0 ∧ v.q = q then { v with left := v.left - 1 }
  else { q := q, left := 2 ^ min ab 6 - 1, io := if q = 0 then v.io else q }

/-- The slower of the function's gait and the capsule's (R72, R439). -/
def fetchGait (s : State) (f qid cid : Nat) : Nat :=
  let g := (s.fn f).harness.gait
  match s.net.capsules.find? fun c => c.1 == f && c.2.1 == qid && c.2.2.1 == cid with
  | some c => if (s.fn f).bind = .network then max g c.2.2.2 else g
  | none => g

/-- A fetched command with nothing decoded. -/
def newCmd (s : State) (f qid cid gait op n : Nat) : Cmd :=
  { seq := s.qmx.nextSeq, fn := f, epoch := (s.fn f).epoch, sqid := qid, cid := cid, admin := qid == 0, op := op,
    blocks := n, gait := gait, wbBytes := if qid = 0 then 0 else writeBytes op n, fetchClk := s.tbs.clk, fetchTick := s.fch.tick.toNat, mark := s.wbf.landings,
    nsid := 0, ns := 0, lba := 0, nlb := 0, body := .undecoded, ranges := [], admitted := false, waited := false, fineRsv := 0, slots := [],
    parts := [], atPoint := false, rows := [], wthru := false }

/-- The entry leaves its queue or its capsule buffer, and the round robin goes on. -/
def takeEntry (s : State) (f qid cid : Nat) (q : Sq) : State :=
  let s := s.updFn f fun x =>
    { x with sqs := Tbl.set x.sqs qid { q with head := (q.head + 1) % q.size },
             visit := x.visit.take qid (Tbl.getD x.feats 1 0).toNat,
             fetched := x.fetched + 2 ^ 20 / max x.harness.slotShare 1 }
  s.setNet { s.net with
      capsules := s.net.capsules.filter fun c => !(c.1 == f && c.2.1 == qid && c.2.2.1 == cid) }

/-- COMMAND_FETCH: QMX takes the next entry of the queue in turn of the function in turn, of opcode `op` and naming `n`
logical blocks, when the harness has room; else the function is passed over for the stride (R73-R75, R114). An I/O
command returns the device from PS3 or PS4 to its last operational state (R462). -/
def execCommandFetch (f qid cid op n : Nat) (s : State) : Out :=
  .next <|
    let x := s.fn f
    match Tbl.get x.sqs qid with
    | none => s
    | some q =>
      if fnInTurn s ≠ some f ∨ queueInTurn s f ≠ some qid ∨ !entryWaits s f qid cid q then s
      else
        let g := fetchGait s f qid cid
        if qid ≠ 0 ∧ !harnessRoom s f op n g then s.setFn f { x with passed := true }
        else
          let c := newCmd s f qid cid g op n
          let s := takeEntry (s.wake (requestDomains s f)) f qid cid q
          let s := s.setQmx { s.qmx with cmds := s.qmx.cmds ++ [c], nextSeq := c.seq + 1 }
          if qid = 0 then (if s.thm.ps = 4 then leaveLowPower s else s)
          else
            let s := s.updFn f fun x => { x with
              iopsLevel := if x.harness.iopsMax = 0 then x.iopsLevel else x.iopsLevel - 65536,
              bwLevel := if x.harness.bwMax = 0 then x.bwLevel else x.bwLevel - (transferBytes op n * 65536 : Nat) }
            leaveLowPower s

/-! ## Queues (R68, R70, R94, R97) -/

/-- CREATE_IO_CQ: `size` entries, at most 4,096 (R70); queue identifiers are those of the harness queue pairs. A
fabrics association makes its queues by Connect. -/
def execCreateIoCq (seq qid size base vector : Nat) (pc ien : Bool) (s : State) : Out :=
  .next <| s.admin seq fun c =>
    let x := s.fn c.fn
    if x.bind = .network then s.finish seq stInvalidOpcode
    else if qid = 0 ∨ qid > x.harness.qpairs ∨ (Tbl.get x.cqs qid).isSome then s.finish seq stInvalidQid
    else if size < 2 ∨ size > 4096 then s.finish seq stInvalidQsize
    else if vector > 2047 then s.finish seq stInvalidVector
    else
      let q : Cq := { base := base, size := size, head := 0, tail := 0, phase := true, pc := pc, ien := ien,
                      vector := vector, posted := [], held := [], fullFor := 0, stalled := false }
      (s.setFn c.fn { x with cqs := Tbl.set x.cqs qid q }).finish seq stOk

/-- CREATE_IO_SQ: bound to an existing I/O completion queue. -/
def execCreateIoSq (seq qid size base cqid : Nat) (pc : Bool) (s : State) : Out :=
  .next <| s.admin seq fun c =>
    let x := s.fn c.fn
    if x.bind = .network then s.finish seq stInvalidOpcode
    else if qid = 0 ∨ qid > x.harness.qpairs ∨ (Tbl.get x.sqs qid).isSome then s.finish seq stInvalidQid
    else if size < 2 ∨ size > 4096 then s.finish seq stInvalidQsize
    else if cqid = 0 ∨ (Tbl.get x.cqs cqid).isNone then s.finish seq stInvalidCq
    else
      let q : Sq := { base := base, size := size, cqid := cqid, head := 0, tail := 0, pc := pc }
      (s.setFn c.fn { x with sqs := Tbl.set x.sqs qid q }).finish seq stOk

/-- An immediate activation drains: a Delete I/O Submission Queue or an Abort that was fetched before the stop is
processed after the switch (R99, R101). -/
def actDrains (s : State) : Bool :=
  match s.qmx.act with
  | .draining _ => true
  | _ => false

/-- DELETE_IO_SQ: takes effect at the next boundary (R94). -/
def execDeleteIoSq (seq qid : Nat) (s : State) : Out :=
  .next <| s.admin seq fun c =>
    if actDrains s then s
    else if qid = 0 ∨ (Tbl.get (s.fn c.fn).sqs qid).isNone then s.finish seq stInvalidQid
    else
      let s := s.hold seq
      s.setQmx { s.qmx with sqDel := s.qmx.sqDel ++ [(c.fn, qid, seq)] }

/-- DELETE_IO_CQ: refused while submission queues are bound to the queue (R97). -/
def execDeleteIoCq (seq qid : Nat) (s : State) : Out :=
  .next <| s.admin seq fun c =>
    let x := s.fn c.fn
    if qid = 0 ∨ (Tbl.get x.cqs qid).isNone then s.finish seq stInvalidQid
    else if x.sqs.any fun p => p.2.cqid == qid then s.finish seq stInvalidQdel
    else (s.setFn c.fn { x with cqs := Tbl.erase x.cqs qid }).finish seq stOk

/-! ## Commands with a fixed answer (R68, R93) -/

/-- ABORT: always completes with "command not aborted" (R93). -/
def execAbort (seq : Nat) (s : State) : Out :=
  .next <| s.admin seq fun _ => if actDrains s then s else s.complete seq stOk 1

/-- An absent admin command: Invalid Command Opcode and no other effect (R68). -/
def absentAdmin (seq : Nat) (s : State) : State := s.admin seq fun _ => s.finish seq stInvalidOpcode

/-- An absent I/O command of opcode `op` (R68). -/
def absentIo (seq op : Nat) (s : State) : State := s.ioCmd seq op fun _ => s.finish seq stInvalidOpcode

def execDirectiveSend (seq : Nat) (s : State) : Out := .next (absentAdmin seq s)
def execDirectiveReceive (seq : Nat) (s : State) : Out := .next (absentAdmin seq s)
def execDoorbellBufferConfig (seq : Nat) (s : State) : Out := .next (absentAdmin seq s)
def execGetLbaStatus (seq : Nat) (s : State) : Out := .next (absentAdmin seq s)
/-- UNUSED_VENDOR_OPCODE: 0xC2, 0xC3, 0xC7, 0xCB, 0xCE, 0xCF (R400). -/
def execUnusedVendorOpcode (seq : Nat) (s : State) : Out := .next (absentAdmin seq s)
def execReservationRegister (seq : Nat) (s : State) : Out := .next (absentIo seq 0x0D s)
def execReservationReport (seq : Nat) (s : State) : Out := .next (absentIo seq 0x0E s)
def execReservationAcquire (seq : Nat) (s : State) : Out := .next (absentIo seq 0x11 s)
def execReservationRelease (seq : Nat) (s : State) : Out := .next (absentIo seq 0x15 s)
def execCopy (seq : Nat) (s : State) : Out := .next (absentIo seq 0x19 s)

/-! ## Asynchronous events (R68) -/

/-- ASYNCHRONOUS_EVENT_REQUEST: up to 8 outstanding; a waiting event completes it at once. The ledger's event waits
on function 0 and is raised only while AEN is 1 (R516). -/
def execAsynchronousEventRequest (seq : Nat) (s : State) : Out :=
  .next <| s.admin seq fun c =>
    let x := s.fn c.fn
    if x.aers.length ≥ 8 then s.finish seq stAerLimit
    else match x.events with
      | (t, i, p) :: r => (s.setFn c.fn { x with events := r }).complete seq stOk (aenDword t i p)
      | [] =>
        if c.fn = 0 ∧ s.evl.aenWaiting then
          let s := s.setEvl { s.evl with aenWaiting := false }
          if s.evl.aen then s.complete seq stOk (aenDword 7 0 0xC5)
          else (s.setFn c.fn { x with aers := x.aers ++ [seq] }).hold seq
        else (s.setFn c.fn { x with aers := x.aers ++ [seq] }).hold seq

/-! ## Features (R69) -/

/-- Features that a Set Features without a row of its own stores. -/
def plainFeature (fid : Nat) : Bool := [0x05, 0x08, 0x09, 0x0A, 0x0B, 0x19, 0x80].contains fid

/-- Features with a row of their own. -/
def ownFeature (fid : Nat) : Bool := [0x01, 0x02, 0x04, 0x06, 0x07, 0x0E, 0x0F, 0x1D].contains fid

def State.feat (s : State) (f fid : Nat) (v : Dword) : State :=
  s.updFn f fun x => { x with feats := Tbl.set x.feats fid v }

/-- SET_FEATURES: a supported feature without a row of its own is stored (DULBE, absent, stays 0); an absent feature
is an invalid field (R69). -/
def execSetFeatures (seq fid : Nat) (v : Dword) (s : State) : Out :=
  .next <| s.admin seq fun c =>
    if plainFeature fid then
      (s.feat c.fn fid (if fid = 5 then v &&& 0xFFFEFFFF else v)).finish seq stOk
    else if ownFeature fid then s
    else s.finish seq stInvalidField

/-- SET_FEATURES_ARBITRATION: Arbitration Burst (R69, R75); the weights are ignored. -/
def execSetFeaturesArbitration (seq : Nat) (v : Dword) (s : State) : Out :=
  .next <| s.admin seq fun c => (s.feat c.fn 1 (v &&& 7)).finish seq stOk

/-- SET_FEATURES_VOLATILE_WRITE_CACHE: on tethered functions only (R69, R86). -/
def execSetFeaturesVolatileWriteCache (seq : Nat) (wce : Bool) (s : State) : Out :=
  .next <| s.admin seq fun c =>
    if (s.fn c.fn).harness.tether then (s.feat c.fn 6 (if wce then 1 else 0)).finish seq stOk
    else s.finish seq stInvalidField

/-- Each write of the function is treated as FUA: tethered with WCE = 0 (R86). -/
def writesAreFua (x : Fn) : Bool := x.harness.tether && Tbl.getD x.feats 6 1 == 0

/-- SET_FEATURES_NUMBER_OF_QUEUES: 0-based counts, granted up to the harness queue pairs (R69). -/
def execSetFeaturesNumberOfQueues (seq nsq ncq : Nat) (s : State) : Out :=
  .next <| s.admin seq fun c =>
    let x := s.fn c.fn
    if nsq ≥ 65535 ∨ ncq ≥ 65535 then s.finish seq stInvalidField
    else if (Tbl.keys x.sqs).any (· != 0) || (Tbl.keys x.cqs).any (· != 0) then s.finish seq stSequence
    else
      let v := BitVec.ofNat 32 (min nsq (x.harness.qpairs - 1) + 65536 * min ncq (x.harness.qpairs - 1))
      (s.feat c.fn 7 v).complete seq stOk v

/-- The fabrics association of a function. -/
def assocOf (s : State) (f : Nat) : Option Assoc := s.net.assocs.find? fun a => a.fn == f && !a.discovery

/-- Change the association of a function. -/
def State.updAssoc (s : State) (f : Nat) (g : Assoc → Assoc) : State :=
  s.setNet { s.net with
      assocs := s.net.assocs.map fun a => if a.fn = f ∧ !a.discovery then g a else a }

/-- SET_FEATURES_KEEP_ALIVE_TIMER: in ms, on a fabrics association (R69, R438). -/
def execSetFeaturesKeepAliveTimer (seq ms : Nat) (s : State) : Out :=
  .next <| s.admin seq fun c =>
    if (assocOf s c.fn).isNone then s.finish seq stInvalidField
    else (s.updAssoc c.fn fun a => { a with kato := ms, kaClk := s.tbs.clk }).finish seq stOk

/-- KEEP_ALIVE: restarts the timer of a fabrics association (R68, R438). -/
def execKeepAlive (seq : Nat) (s : State) : Out :=
  .next <| s.admin seq fun c =>
    if (assocOf s c.fn).isNone then s.finish seq stInvalidOpcode
    else (s.updAssoc c.fn fun a => { a with kaClk := s.tbs.clk }).finish seq stOk

/-- Key of a temperature threshold: Composite Temperature (TMPSEL 0, or all sensors), over (THSEL 0) or under (THSEL 1);
0 for none. -/
def thresholdKey (w : Dword) : Nat :=
  let sel := (w >>> 16).toNat % 16
  if sel = 0 ∨ sel = 15 then
    match (w >>> 20).toNat % 4 with
    | 0 => 0x104
    | 1 => 0x204
    | _ => 0
  else 0

/-- The value of a feature of function `f`, if it is supported there (R69). Timestamp has a row of its own. -/
def featureValue (s : State) (f fid : Nat) : Option Dword :=
  let x := s.fn f
  match fid with
  | 0x02 => some (BitVec.ofNat 32 s.thm.ps)
  | 0x06 => if x.harness.tether then some (Tbl.getD x.feats 6 1) else none
  | 0x07 => some (Tbl.getD x.feats 7 (BitVec.ofNat 32 ((x.harness.qpairs - 1) * 65537)))
  | 0x0F => (assocOf s f).map fun a => BitVec.ofNat 32 a.kato
  | 0x1D => some (if s.map.fdp then 1 else 0)
  | 0x104 => some (Tbl.getD x.feats 0x104 378)
  | 0x204 => some (Tbl.getD x.feats 0x204 0)
  | _ => if plainFeature fid || fid == 1 then some (Tbl.getD x.feats fid 0) else none

/-- GET_FEATURES (R69). -/
def execGetFeatures (seq fid : Nat) (dw11 : Dword) (s : State) : Out :=
  .next <| s.admin seq fun c =>
    if fid = 0x0E then s
    else match featureValue s c.fn (if fid = 4 then thresholdKey dw11 else fid % 256) with
      | some v => s.complete seq stOk v
      | none => s.finish seq stInvalidField

end Sys2Proof.Machine
end

