-- ==== Sys2Proof/Machine/Protect.lean ====
section
/-! DEFINITION. Protection information of LBA formats 1 and 2 (R139): guard, tags, checks and insertion. The layout of
the tuple, the CRC of the 64b Guard and the values that switch a check off are those of the NVMe command set (PRESUMED). -/

namespace Sys2Proof.Machine

open Sys2Proof

/-- One bit of the reflected CRC-64 of the 64b Guard. -/
def crc64Bit (c : BitVec 64) : BitVec 64 := if c.getLsbD 0 then (c >>> 1) ^^^ 0x9A6C9329AC4BC9B5 else c >>> 1

def crc64Byte (c : BitVec 64) (b : Byte) : BitVec 64 :=
  let x := c ^^^ b.setWidth 64
  crc64Bit (crc64Bit (crc64Bit (crc64Bit (crc64Bit (crc64Bit (crc64Bit (crc64Bit x)))))))

/-- CRC-64 of bytes: initial value all ones, final inversion. -/
def crc64 (b : List Byte) : BitVec 64 := ~~~ b.foldl crc64Byte (BitVec.allOnes 64)

/-- A number as bytes, the highest first, and back. -/
def beBytes (n v : Nat) : List Byte := (leBytes n v).reverse
def beNat (b : List Byte) : Nat := leNat b.reverse

/-- Host metadata of a format: its first 8 B, all 16, or none; the rest is zero (R139). -/
def hostPart (lbaf : Nat) (m : BitVec 128) : BitVec 128 := m &&& BitVec.ofNat 128 (2 ^ (64 * lbaf) - 1)

/-- The fields of a block's protection information. -/
structure PiTuple where
  guard : Nat
  app : Nat
  ref : Nat
  deriving DecidableEq, Repr

/-- Bits of the reference tag: 32 with the 16b Guard, 48 with the 64b Guard. -/
def refBits (lbaf : Nat) : Nat := if lbaf = 1 then 32 else 48

/-- Guard of a block (R139). -/
def piGuard (lbaf : Nat) (d : Block) : Nat :=
  if lbaf = 1 then (crc16 d).toNat else (crc64 (bytesOf 4096 d)).toNat

/-- The tuple in host metadata. -/
def piOf (lbaf : Nat) (m : BitVec 128) : PiTuple :=
  let b := bytesOf 16 m
  let g := if lbaf = 1 then 2 else 8
  { guard := beNat (b.take g), app := beNat ((b.drop g).take 2), ref := beNat ((b.drop (g + 2)).take (refBits lbaf / 8)) }

/-- Host metadata that holds a tuple. -/
def piMeta (lbaf : Nat) (t : PiTuple) : BitVec 128 :=
  bitsOf 128 (beBytes (if lbaf = 1 then 2 else 8) t.guard ++ beBytes 2 t.app ++ beBytes (refBits lbaf / 8) t.ref)

/-- What PRACT inserts for block `k` of a command (R139). -/
def piInsert (lbaf : Nat) (a : PiArgs) (k : Nat) (d : Block) : BitVec 128 :=
  piMeta lbaf { guard := piGuard lbaf d, app := a.lbat, ref := (a.ilbrt + k) % 2 ^ refBits lbaf }

/-- The check of block `k`, as PRCHK directs (R139): the status code of what fails, Guard, Application Tag or Reference
Tag first. All ones in the application tag, with type 3 in both tags, switch the checks off. -/
def piCheck (lbaf type : Nat) (a : PiArgs) (k : Nat) (d : Block) (m : BitVec 128) : Option Nat :=
  let t := piOf lbaf m
  let last := 2 ^ refBits lbaf
  if t.app = 0xFFFF ∧ (type ≠ 3 ∨ t.ref = last - 1) then none
  else if a.guard ∧ t.guard ≠ piGuard lbaf d then some 0x82
  else if a.app ∧ (t.app ^^^ a.lbat) &&& a.lbatm ≠ 0 then some 0x83
  else if a.ref ∧ type ≠ 3 ∧ t.ref ≠ (a.ilbrt + k) % last then some 0x84
  else none

/-- Protection information of a block that nothing wrote: all ones. -/
def blankMeta (sp : Space) : BitVec 128 := if sp.pi = 0 then 0 else hostPart sp.lbaf (BitVec.allOnes 128)

/-- The status with which the checks end a command on `blocks`, (data, metadata) in block order (R139). With type 1 the
initial reference tag has to be that of the first block. -/
def piStatus (sp : Space) (a : PiArgs) (lba : Nat) (blocks : List (Block × BitVec 128)) : Option Status :=
  if sp.pi = 0 then none
  else if sp.pi = 1 ∧ a.ref ∧ a.ilbrt % 2 ^ refBits sp.lbaf ≠ lba % 2 ^ refBits sp.lbaf then some (st 1 0x81 true)
  else (blocks.zipIdx.findSome? fun b => piCheck sp.lbaf sp.pi a b.2 b.1.1 b.1.2).map fun n => st 2 n true

end Sys2Proof.Machine
end

