-- ==== Sys2Proof/Machine/Io.lean ====
section
/-! DEFINITION. I/O commands: what a fetched entry asks for, the order of their effects, and completion points
(03 R68-R71, R79-R92, R103; 05 R150-R160). -/

namespace Sys2Proof.Machine

open Sys2Proof

/-! ## Checks that every I/O command meets -/

/-- I/O to a namespace with a cipher mode needs its key, and a lane in service (R394, R396). -/
def keyReady (s : State) (ns : Nat) (sp : Space) : Bool :=
  sp.mode == .none || ((s.keySlot (keySlotNs ns)).key.isSome && s.cip.lanes != 0)

/-- The namespace that an I/O command names on its function, with the status that refuses the command: Sanitize In
Progress (R355), Invalid Namespace, Key Not Loaded (R396), Namespace Write Protected for a change (R152, R351). -/
def ioSpace (s : State) (c : Cmd) (nsid : Nat) (change : Bool) : Except Status (Nat × Space) :=
  if s.rcl.sanitize = .armed ∨ s.rcl.sanitize = .erasing then .error stSanitizing
  else match Tbl.get (s.fn c.fn).spaces nsid with
    | none => .error stInvalidNs
    | some ns =>
      match s.space ns with
      | none => .error stInvalidNs
      | some sp =>
        if !keyReady s ns sp then .error stKeyNotLoaded
        else if change && (s.rcl.readOnly || sp.wp) then .error stWriteProtected
        else .ok (ns, sp)

/-- Logical blocks of the largest transfer, MDTS = 8 (R70). -/
def maxBlocks : Nat := 256

/-- An I/O command of opcode `op` on the `n` blocks from `lba` that its entry named at fetch: refused by its checks, or
waiting for admission with its body. -/
def ioTake (s : State) (seq op nsid lba n : Nat) (limit change : Bool) (body : Space → Except Status IoBody) : State :=
  s.ioCmd seq op fun c =>
    if c.blocks ≠ n then s
    else match ioSpace s c nsid change with
    | .error t => s.finish seq t
    | .ok (ns, sp) =>
      if n = 0 ∨ (limit ∧ n > maxBlocks) then s.finish seq stInvalidField
      else if lba + n > sp.nsze then s.finish seq stLbaRange
      else match body sp with
        | .error t => s.finish seq t
        | .ok b => s.updCmd seq fun c => { c with nsid := nsid, ns := ns, lba := lba, nlb := n, body := b }

/-! ## Rows of the I/O opcodes -/

/-- A placement handle is one of 64, named only while FDP is enabled on a conventional namespace (R156). -/
def handleOk (s : State) (sp : Space) (h : Option Nat) : Bool :=
  match h with
  | none => true
  | some k => s.map.fdp && sp.typ == .conventional && decide (k < 64)

/-- WRITE: `data` is the block data that arrives, `metas` its host metadata, `handle` the placement identifier of
DSPEC (R19, R68, R70, R156). -/
def execWrite (seq nsid lba : Nat) (fua : Bool) (handle : Option Nat) (data : List Block)
    (metas : List (BitVec 128)) (s : State) : Out :=
  .next <| ioTake s seq 0x01 nsid lba data.length true true fun sp =>
    if !handleOk s sp handle then .error stInvalidField else .ok (.write fua false handle data (metas.map (hostPart sp.lbaf)))

/-- ZONE_APPEND: `zslba` is the first block of the zone; the write pointer at admission gives the address (R82).
ZASL is 8, 1 MiB (R159). -/
def execZoneAppend (seq nsid zslba : Nat) (fua : Bool) (data : List Block) (metas : List (BitVec 128))
    (s : State) : Out :=
  .next <| ioTake s seq 0x7D nsid zslba data.length true true fun sp =>
    if sp.typ = .conventional then .error stInvalidOpcode
    else if zslba % max sp.zsze 1 ≠ 0 then .error stInvalidField
    else .ok (.write fua true none data (metas.map (hostPart sp.lbaf)))

/-- WRITE_ZEROES: with DEAC a conventional namespace deallocates (R140); otherwise zeros are written (R81, R84). -/
def execWriteZeroes (seq nsid lba nlb : Nat) (deac fua : Bool) (s : State) : Out :=
  .next <| ioTake s seq 0x08 nsid lba nlb false true fun sp =>
    if deac ∧ sp.typ = .conventional then .ok (.mapOnly false)
    else .ok (.write fua false none (List.replicate nlb 0) [])

/-- WRITE_UNCORRECTABLE: conventional namespaces only (R68, R146). -/
def execWriteUncorrectable (seq nsid lba nlb : Nat) (s : State) : Out :=
  .next <| ioTake s seq 0x04 nsid lba nlb false true fun sp =>
    if sp.typ = .zoned then .error stInvalidOpcode else .ok (.mapOnly true)

/-- DATASET_MANAGEMENT: deallocates the ranges (start, length) when `deallocate` is set; its other functions are
ignored (R68). A zoned namespace keeps its blocks. -/
def execDatasetManagement (seq nsid : Nat) (deallocate : Bool) (ranges : List (Nat × Nat)) (s : State) : Out :=
  .next <| s.ioCmd seq 0x09 fun c =>
    match ioSpace s c nsid deallocate with
    | .error t => s.finish seq t
    | .ok (ns, sp) =>
      if ranges.isEmpty ∨ ranges.length > 256 then s.finish seq stInvalidField
      else if ranges.any fun r => decide (r.1 + r.2 > sp.nsze) then s.finish seq stLbaRange
      else
        let rs := ranges.filter fun r => r.2 != 0
        match rs with
        | [] => s.finish seq stOk
        | (l, n) :: r =>
          if !deallocate || sp.typ == .zoned then s.finish seq stOk
          else s.updCmd seq fun c =>
            { c with nsid := nsid, ns := ns, lba := l, nlb := n, ranges := r, body := .mapOnly false }

/-- READ (R80, R146). -/
def execRead (seq nsid lba nlb : Nat) (s : State) : Out :=
  .next <| ioTake s seq 0x02 nsid lba nlb true false fun _ => .ok .read

/-- COMPARE: the fused operation is absent (R68). -/
def execCompare (seq nsid lba : Nat) (fused : Bool) (data : List Block) (s : State) : Out :=
  .next <| ioTake s seq 0x05 nsid lba data.length true false fun _ =>
    if fused then .error stInvalidField else .ok (.compare data)

/-- VERIFY: reads and checks, transfers nothing (R68). -/
def execVerify (seq nsid lba nlb : Nat) (s : State) : Out :=
  .next <| ioTake s seq 0x0C nsid lba nlb false false fun _ => .ok .verify

/-- FLUSH of one namespace, or of every attached one with NSID FFFF_FFFFh (R90). -/
def execFlush (seq nsid : Nat) (s : State) : Out :=
  .next <| s.ioCmd seq 0x00 fun c =>
    if nsid = 0xFFFFFFFF then
      if s.rcl.sanitize = .armed ∨ s.rcl.sanitize = .erasing then s.finish seq stSanitizing
      else s.updCmd seq fun c => { c with nsid := nsid, body := .flush true }
    else match ioSpace s c nsid false with
      | .error t => s.finish seq t
      | .ok (ns, _) => s.updCmd seq fun c => { c with nsid := nsid, ns := ns, body := .flush false }

/-- A Zone Management Send action on the zone at `lba`, or on all zones (R68, R82, R351). -/
def zoneAction (seq nsid lba action : Nat) (all : Bool) (s : State) : State :=
  s.ioCmd seq 0x79 fun c =>
    match ioSpace s c nsid true with
    | .error t => s.finish seq t
    | .ok (ns, sp) =>
      if sp.typ = .conventional then s.finish seq stInvalidOpcode
      else if !all ∧ lba ≥ sp.nsze then s.finish seq stLbaRange
      else if !all ∧ lba % max sp.zsze 1 ≠ 0 then s.finish seq stInvalidField
      else s.updCmd seq fun c =>
        { c with nsid := nsid, ns := ns, lba := if all then 0 else lba,
                 nlb := if all then sp.nsze else sp.zsze, body := .zone action all }

def execZoneClose (seq nsid lba : Nat) (all : Bool) (s : State) : Out := .next (zoneAction seq nsid lba 1 all s)
def execZoneFinish (seq nsid lba : Nat) (all : Bool) (s : State) : Out := .next (zoneAction seq nsid lba 2 all s)
def execZoneOpen (seq nsid lba : Nat) (all : Bool) (s : State) : Out := .next (zoneAction seq nsid lba 3 all s)
def execZoneReset (seq nsid lba : Nat) (all : Bool) (s : State) : Out := .next (zoneAction seq nsid lba 4 all s)

/-- Zone state code of a zone descriptor. -/
def zoneCode : ZState → Nat
  | .empty => 1 | .implOpen => 2 | .explOpen => 3 | .closed => 4 | .readOnly => 0xD | .full => 0xE

/-- The state a zone reports: every zone is Read Only in the read-only state (R351). -/
def zoneStateNow (s : State) (sp : Space) (z : Nat) : ZState :=
  if s.rcl.readOnly then .readOnly else (sp.zone z).state

/-- A 64 B zone descriptor. -/
def zoneDesc (s : State) (sp : Space) (z : Nat) : List Byte :=
  [0x02, BitVec.ofNat 8 (16 * zoneCode (zoneStateNow s sp z))] ++ zeros 6 ++ leBytes 8 sp.zcap
    ++ leBytes 8 (z * sp.zsze) ++ leBytes 8 (z * sp.zsze + (sp.zone z).wp) ++ zeros 32

/-- ZONE_MANAGEMENT_RECEIVE: zones from `lba` on whose state code is `filter` (0 all), `n` bytes of the report. -/
def execZoneManagementReceive (seq nsid lba filter n : Nat) (s : State) : Out :=
  .next <| s.ioCmd seq 0x7A fun c =>
    match ioSpace s c nsid false with
    | .error t => s.finish seq t
    | .ok (_, sp) =>
      if sp.typ = .conventional then s.finish seq stInvalidOpcode
      else if lba ≥ sp.nsze then s.finish seq stLbaRange
      else
        let count := sp.nsze / max sp.zsze 1
        let zs := (List.range count).filter fun z =>
          decide (z ≥ lba / max sp.zsze 1) && (filter == 0 || zoneCode (zoneStateNow s sp z) == filter)
        let page := leBytes 8 zs.length ++ zeros 56 ++ (zs.map fun z => zoneDesc s sp z).flatten
        s.reply seq (page.take n)

/-- Logical blocks that the current reclaim unit of a handle still takes: the rest of its stream's span (R156). -/
def handleRoom (s : State) (h : Nat) : Nat :=
  match (s.target (tgtRuh h)).stream with
  | none => 0
  | some n =>
    let x := s.stream n
    let used := if x.state = .accumulating then x.members else 0
    if x.span.isNone then 0
    else (wordLines s - (if x.state = .accumulating then x.row else x.nextRow)) * dataMembers s * puGran s
      - used * puGran s

/-- IO_MANAGEMENT_RECEIVE: reclaim unit handle status, one 32 B descriptor for each handle (R156). -/
def execIoManagementReceive (seq nsid n : Nat) (s : State) : Out :=
  .next <| s.ioCmd seq 0x12 fun c =>
    match ioSpace s c nsid false with
    | .error t => s.finish seq t
    | .ok _ =>
      if !s.map.fdp then s.finish seq stInvalidField
      else
        let d := (List.range 64).map fun h =>
          leBytes 2 h ++ leBytes 2 h ++ zeros 4 ++ leBytes 8 (handleRoom s h) ++ zeros 16
        s.reply seq ((zeros 14 ++ leBytes 2 64 ++ d.flatten).take n)

/-- IO_MANAGEMENT_SEND: Reclaim Unit Handle Update makes each handle's stream begin a new span (R156). -/
def execIoManagementSend (seq nsid : Nat) (handles : List Nat) (s : State) : Out :=
  .next <| s.ioCmd seq 0x1D fun c =>
    match ioSpace s c nsid false with
    | .error t => s.finish seq t
    | .ok _ =>
      if !s.map.fdp ∨ handles.any (· ≥ 64) then s.finish seq stInvalidField
      else
        let s := handles.foldl (fun s h => match (s.target (tgtRuh h)).stream with
          | some n => s.updStream n fun x => { x with newSpan := true }
          | none => s) s
        s.finish seq stOk

/-- SET_FEATURES_FDP: the manager enables or disables FDP while no namespace exists; each of the 64 handles takes a
stream for itself alone, or the command is refused (R156, R161). -/
def execSetFeaturesFdp (seq : Nat) (enable : Bool) (s : State) : Out :=
  .next <| s.admin seq fun c =>
    if c.fn ≠ 0 then s.finish seq stNotChangeable
    else if s.map.spaces.any fun p => !p.2.deleted then s.finish seq stSequence
    else if enable = s.map.fdp then s.finish seq stOk
    else if enable then
      let free := (List.range (targetStreams s)).filter fun n => (targetsOf s n).isEmpty
      if free.length < 64 then s.finish seq stInvalidField
      else
        let s := (handleTargets free).foldl (fun (s : State) (p : Nat × Target) => s.setTarget p.1 p.2) s
        (s.setMap { s.map with fdp := true }).finish seq stOk
    else
      let s := (List.range 64).foldl (fun s h => s.setTarget (tgtRuh h) Target.empty) s
      (s.setMap { s.map with fdp := false }).finish seq stOk

/-! ## Order of effects (R79-R82) -/

/-- Block ranges that a command names. -/
def Cmd.spans (c : Cmd) : List (Nat × Nat) := (c.lba, c.nlb) :: c.ranges

def rangesMeet (a b : List (Nat × Nat)) : Bool :=
  a.any fun x => b.any fun y => decide (x.1 < y.1 + y.2 ∧ y.1 < x.1 + x.2)

/-- Two commands overlap (R79). -/
def Cmd.overlaps (c d : Cmd) : Bool := c.ns == d.ns && rangesMeet c.spans d.spans

/-- Counted as a write by the ordering rules (R81, R82). -/
def Cmd.changes (c : Cmd) : Bool :=
  match c.body with
  | .write .. | .mapOnly _ | .zone .. => true
  | _ => false

/-- Resolves addresses (R80). -/
def Cmd.resolves (c : Cmd) : Bool :=
  match c.body with
  | .read | .compare _ | .verify => true
  | _ => false

/-- I/O commands fetched before `c` and not complete. -/
def earlier (s : State) (c : Cmd) : List Cmd := s.qmx.cmds.filter fun d => !d.admin && decide (d.seq < c.seq)

/-- An earlier write that overlaps and is not at its completion point (R80, R81); an entry whose opcode is not yet
taken may be one. -/
def behindWrite (s : State) (c : Cmd) : Bool :=
  (earlier s c).any fun d => d.body == .undecoded || (d.changes && d.overlaps c)

/-- An earlier overlapping write that is not accepted, or an earlier read that has not resolved (R80, R152). -/
def behindAccept (s : State) (c : Cmd) : Bool :=
  (earlier s c).any fun d =>
    d.body == .undecoded || (d.changes && d.overlaps c && !d.atPoint) || (d.resolves && !d.admitted && d.overlaps c)

/-! ## What a command gives back (R93-R95, R150, R174) -/

/-- A read's transfer from a slot ends: READERS falls, and a slot that waits for it is freed (R174). -/
def dropReader (s : State) (i : Nat) : State :=
  let x := s.slot i
  if x.readers = 1 ∧ x.dying then s.setSlot i Slot.free else s.setSlot i { x with readers := x.readers - 1 }

/-- Readers of a command's parts end. -/
def endReaders (s : State) (c : Cmd) : State :=
  c.parts.foldl (fun s p => match p.src with
    | .buffer i => dropReader s i
    | _ => s) s

/-- The reservation of fine units returns (R150). -/
def dropFine (s : State) (c : Cmd) : State :=
  s.setMap { s.map with fineReserved := s.map.fineReserved - c.fineRsv }

/-- Read jobs of a command end with it; their media operations run to their end and are discarded (R96). -/
def dropReads (s : State) (c : Cmd) : State :=
  s.setStp { s.stp with reads := s.stp.reads.filter fun j => j.cmd != c.seq }

/-- The program unit that holds a slot and is on its way to media. -/
def unitOf (s : State) (i : Nat) : Option Pu :=
  s.wbf.pus.find? fun u => u.state != .done && u.slots.contains (some i)

/-- A slot of a write that ends before its completion point, once it is in a program unit: a position not yet folded
becomes pad and the slot is freed; one that the row's parity holds is programmed for no function (R119, R120). -/
def leaveUnit (s : State) (u : Pu) (i : Nat) : State :=
  let same (p : Pu) : Bool := p.stream == u.stream && p.serial == u.serial && p.member == u.member && p.recNo == u.recNo
  if (u.slots.findIdx? (· == some i)).any fun p => decide (p ≥ u.foldedTo) then
    let off (p : Pu) : Pu :=
      if same p then { p with slots := p.slots.map fun q => if q = some i then none else q } else p
    (s.setWbf { s.wbf with pus := s.wbf.pus.map off }).freeSlot i
  else s.updSlot i fun x => { x with fn := 256, pinned := true }

/-- A slot of a write that ends before its completion point is given up. -/
def dropSlot (s : State) (i : Nat) : State :=
  let x := s.slot i
  if x.state = .filling ∨ x.mga.isSome then s.freeSlot i
  else match unitOf s i with
    | some u => leaveUnit s u i
    | none =>
      let s := ungroup s (groupBase i)
      (s.updTarget x.target fun t => { t with held := t.held.filter (· != i) }).freeSlot i

/-- The slots of a command before its completion point. -/
def dropSlots (s : State) (c : Cmd) : State :=
  c.slots.foldl (fun s i => if (s.slot i).pinned then s else dropSlot s i) s

/-- A block that an admitted zoned write reserved reads as zeros once the write ends early: its slot becomes pad at the
block's address, or the block's entry UNMAPPED where the granule is past its slot (R95, R122, R185). -/
def padBlock (s : State) (c : Cmd) (sp : Space) (lba i : Nat) : State :=
  let x := s.slot i
  let past := x.mga.isSome || (unitOf s i).any fun u => u.state != .opening
  if x.pinned then s
  else if past then dropSlot (setZonePart s c.ns sp lba Entry.unmapped) i
  else
    let s := s.setSlot i { x with state := .held, pad := true, pinned := true, landed := s.wbf.landings, data := 0,
                                  hostMeta := 0, target := tgtZone c.ns (zoneOf sp lba).1 }
    let s := if x.state = .filling then zoneWrite s c.ns sp lba i else s
    landZone s c.ns sp lba i

/-- The blocks that an admitted zoned write reserved, when it ends early (R95). -/
def padReserved (s : State) (c : Cmd) (sp : Space) : State :=
  (c.slots.zipIdx).foldl (fun s p => padBlock s c sp (c.lba + p.2) p.1) s

/-- Everything that a command holds returns. -/
def releaseCmd (s : State) (c : Cmd) : State :=
  let s := dropReads (endReaders (dropFine s c) c) c
  match c.body, s.space c.ns with
  | .write .., some sp => if sp.typ = .zoned ∧ c.admitted then padReserved s c sp else dropSlots s c
  | .write .., none => dropSlots s c
  | _, _ => s

/-! ## Completion points (R84) -/

/-- The completion of an I/O command, with the bytes that it moved in its function's meters (R123-R125). -/
def finishIo (s : State) (c : Cmd) (t : Status) (dw0 dw1 : Dword) (rd wr : Nat) : State :=
  let s := (releaseCmd s c).meter c.fn fun m =>
    { m with bytesRead := m.bytesRead + rd, bytesWritten := m.bytesWritten + wr }
  s.endCmd c t dw0 dw1

/-- Placement target of a write (R161). -/
def writeTarget (s : State) (c : Cmd) (sp : Space) (handle : Option Nat) : Nat :=
  match sp.typ with
  | .zoned => tgtZone c.ns (c.lba / max sp.zsze 1)
  | .conventional => if s.map.fdp then tgtRuh (handle.getD 0) else tgtFn c.fn

/-- Each granule takes the next write sequence number (R152); its slot joins its target's chain or its zone chunk.
DESIGN CHOICE: a write that is accepted and not yet at its completion point has to be assembled (R192), which R173 and
R189 give no state for; its slots are HELD and not PINNED. -/
def acceptWrite (s : State) (c : Cmd) (sp : Space) (t : Nat) : State :=
  let s := c.slots.foldl (fun s i =>
    let (n, s) := nextWseq s c.ns
    s.updSlot i fun x => { x with state := .held, wseq := n, target := t,
                                   keyGen := (s.keySlot (keySlotNs c.ns)).gen }) s
  match sp.typ with
  | .zoned =>
    (c.slots.zipIdx).foldl (fun s p => match s.space c.ns with
      | some sp => zoneWrite s c.ns sp (c.lba + p.2) p.1
      | none => s) s
  | .conventional =>
    let inGroup (i : Nat) : Bool := groupBase i != i && c.slots.contains (groupBase i) && (s.slot (groupBase i)).group
    c.slots.foldl (fun s i => if inGroup i then s else pushHeld s t i) s

/-- Assembly records that a zoned write needs: one for each chunk that it begins (R183). -/
def recordsNeeded (s : State) (c : Cmd) (sp : Space) : Nat :=
  let chunks := ((List.range c.nlb).map fun k =>
    let (z, off) := zoneOf sp (c.lba + k)
    (z, off / puGran s)).eraseDups
  (chunks.filter fun p => (chunkOf s c.ns p.1 p.2).kind != .fine && (openUnit s (tgtZone c.ns p.1) p.2).isNone).length

/-- The write completes only when its programs have (R84, R87, R178). -/
def programPoint (s : State) (_c : Cmd) : Bool := s.qmx.wthru || s.wbf.dropping

/-- The write completes only in a closed row: FUA on a tethered function (R84, R86, R192). -/
def rowPoint (s : State) (c : Cmd) (fua : Bool) : Bool :=
  (s.fn c.fn).harness.tether && (fua || writesAreFua (s.fn c.fn))

/-- A row is closed and parity-complete (R85): no open record of it stands. -/
def rowClosed (s : State) (stream serial : Nat) : Bool :=
  !(s.par.rows.any fun r => r.stream == stream && r.serial == serial && r.state != 4)

/-- Tag of a program's job: the function, the epoch of its commands, PINNED once they all are at their completion points;
the controller's streams carry function 0, epoch 0 and PINNED (R118). -/
def programTag (s : State) (u : Pu) : JobTag :=
  let host := (u.slots.filterMap id).map s.slot
  if u.stream ≥ 252 then { fn := 0, epoch := 0, pinned := true }
  else { fn := u.fn, epoch := (host.head?.map Slot.epoch).getD (s.fn u.fn).epoch, pinned := host.all Slot.pinned }

/-- WBF sets PINNED on the program of a unit whose commands have come to their completion points (R118). -/
def repin (s : State) (u : Pu) : State :=
  let o : Owner := .pu u.stream u.serial u.member
  let tag := programTag s u
  let put (d : Desc) : Desc := if d.owner = o then { d with tag := tag } else d
  s.updDie u.die fun y => { y with ring := Tbl.map y.ring fun _ d => put d,
                                   op := y.op.map fun x => { x with desc := put x.desc } }

/-- A granule that was programmed before its completion point counts among those that a Flush covers (R91). -/
def coverGranule (s : State) (i : Nat) : State :=
  let x := s.slot i
  let cover (u : Pu) : Pu :=
    if u.stream = x.stream ∧ u.serial = x.rowSerial ∧ u.member = x.member ∧ u.state = .done then
      { u with cov := Tbl.set u.cov x.ns (min x.landed (Tbl.getD u.cov x.ns x.landed)) }
    else u
  s.setWbf { s.wbf with pus := s.wbf.pus.map cover }

/-- A held granule goes to the end of its chain: the chain is in completion order (R182). -/
def chainLast (s : State) (i : Nat) : State :=
  let x := s.slot i
  s.updTarget x.target fun t =>
    if t.held.contains i then { t with held := t.held.filter (· != i) ++ [i] } else t

/-- The effect of a write enters the map (R150, R151, R190): slots, or granules already programmed. -/
def landWrite (s : State) (c : Cmd) (sp : Space) : State :=
  let s := s.setWbf { s.wbf with landings := s.wbf.landings + 1 }
  let s := c.slots.foldl (fun s i => s.updSlot i fun x => { x with pinned := true, landed := s.wbf.landings }) (dropFine s c)
  let s := s.updCmd c.seq fun c => { c with fineRsv := 0 }
  let es := c.slots.map fun i => match (s.slot i).mga with
    | some m => (⟨.media, m⟩ : Entry)
    | none => ⟨.buffer, i⟩
  let s := c.slots.foldl chainLast s
  let s := match sp.typ with
    | .zoned => c.slots.zipIdx.foldl (fun (s : State) (p : Nat × Nat) => landZone s c.ns sp (c.lba + p.2) p.1) s
    | .conventional => setBlocks s c.ns c.lba es c.nlb
  let us := s.wbf.pus.filter fun (u : Pu) => u.placed && u.state != .done &&
    u.slots.any fun q => q.any c.slots.contains
  let s := us.foldl repin s
  c.slots.foldl (fun s i => if (s.slot i).mga.isSome then (coverGranule s i).freeSlot i else s) s

/-- Dwords of a Zone Append's assigned address. -/
def appendDwords (append : Bool) (lba : Nat) : Dword × Dword :=
  if append then (BitVec.ofNat 32 lba, BitVec.ofNat 32 (lba / 2 ^ 32)) else (0, 0)

/-- The write is done: its entry posts. -/
def completeWrite (s : State) (c : Cmd) (sp : Space) (append : Bool) : State :=
  let s := landWrite s c sp
  let (d0, d1) := appendDwords append c.lba
  finishIo s { c with slots := [], fineRsv := 0 } stOk d0 d1 0 (4096 * c.nlb)

/-- Whether an accepted write has come to its completion point. -/
def writeReady (s : State) (c : Cmd) (fua : Bool) : Bool :=
  if rowPoint s c fua then
    c.slots.all fun i => (s.slot i).mga.isSome && rowClosed s (s.slot i).stream (s.slot i).rowSerial
  else if programPoint s c then c.slots.all fun i => (s.slot i).mga.isSome
  else true

/-- The data and host metadata of a command's slots. -/
def slotBlocks (s : State) (c : Cmd) : List (Block × BitVec 128) :=
  c.slots.map fun i => ((s.slot i).data, (s.slot i).hostMeta)

/-- With PRACT, QMX inserts the protection information of every block (R139). -/
def protect (s : State) (c : Cmd) (sp : Space) (a : PiArgs) : State :=
  if sp.pi = 0 ∨ !a.pract then s
  else c.slots.zipIdx.foldl (fun s p => s.updSlot p.1 fun x => { x with hostMeta := piInsert sp.lbaf a p.2 x.data }) s

/-- The checks that a write passes before its acceptance point: the write sequence still has a value for each of its
granules (DEDUCED: a command that would go beyond the last one is refused, R152), and its protection information
(R139). -/
def acceptRefused (s : State) (c : Cmd) (sp : Space) (a : PiArgs) : Option Status :=
  if sp.seq + c.nlb > wseqLast then some stWriteProtected
  else if a.pract then none
  else piStatus sp a c.lba (slotBlocks s c)

/-- A refused write ends; one that the write sequence has no values left for write-protects its namespace (R152). -/
def refuseWrite (s : State) (c : Cmd) (sp : Space) (t : Status) : State :=
  let s := if sp.seq + c.nlb > wseqLast then seqLimit (s.setSpace c.ns { sp with seq := wseqLast }) c.ns else s
  finishIo s c t 0 0 0 0

/-- An admitted write, Zone Append or Write Zeroes comes to its acceptance point and, when it may, to its completion
point. -/
def writePoint (s : State) (c : Cmd) (fua append : Bool) (handle : Option Nat) (pi : PiArgs) : State :=
  match s.space c.ns with
  | none => finishIo s c stInvalidNs 0 0 0 0
  | some sp =>
    if (s.rcl.readOnly || sp.wp) && !c.atPoint then finishIo s c stWriteProtected 0 0 0 0
    else if behindAccept s c then s
    else match (if c.atPoint then none else acceptRefused s c sp pi) with
      | some t => refuseWrite s c sp t
      | none =>
        let t := writeTarget s c sp handle
        if !c.atPoint && sp.typ == .zoned && decide (recordsNeeded s c sp > recordsFree s) then s.ev eWBF_ASM_WAIT
        else
          let s := if c.atPoint then s
            else
              let s := acceptWrite (bindTarget (protect s c sp pi) t c.fn) c sp t
              let s := s.updCmd c.seq fun d => { d with atPoint := true, wthru := rowPoint s c fua || programPoint s c }
              if rowPoint s c fua then markClose s t c.fn true else s
          if writeReady s c fua && !behindWrite s c then completeWrite s c sp append else s

/-- Deallocation, Write Zeroes with DEAC and Write Uncorrectable change the map alone (R84, R150, R151). -/
def mapPoint (s : State) (c : Cmd) (uncorr : Bool) : State :=
  match s.space c.ns with
  | none => finishIo s c stInvalidNs 0 0 0 0
  | some sp =>
    if s.rcl.readOnly || sp.wp then finishIo s c stWriteProtected 0 0 0 0
    else if behindWrite s c || behindAccept s c then s
    else
      let e : Entry := ⟨if uncorr then .uncorr else .unmapped, 0⟩
      let s := c.spans.foldl (fun s r => setBlocks s c.ns r.1 (List.replicate r.2 e) r.2) (dropFine s c)
      finishIo s { c with fineRsv := 0 } stOk 0 0 0 0

/-- The status of a read whose parts have all ended: a failed tag comes first (R390), then the first block in
error. -/
def partsStatus (ps : List ReadPart) : Option Status :=
  let errs := ps.filterMap ReadPart.err
  if errs.any fun e => e == (7, 1) then some stTagMismatch
  else errs.head?.map fun e => st e.1 e.2 true

/-- A part is not yet verified: its codeword is not decoded, or a DRAM line of its slot has failed its checks and is not
yet recomputed (R21, R371). -/
def partOpen (s : State) (p : ReadPart) : Bool :=
  (p.done.isNone && p.err.isNone) ||
    match p.src with
    | .buffer i => s.dmc.fails.any fun x => x.region == .writeBuffer && x.slot == i && !x.descriptor
    | _ => false

/-- A Read, Compare or Verify whose data is decoded and checked transfers and completes (R84, R139, R146). With PRACT the
protection information is checked and not transferred. -/
def readPoint (s : State) (c : Cmd) (pi : PiArgs) : State :=
  if c.parts.any (partOpen s) then s
  else
    let blocks := c.parts.map fun p => (p.done.getD 0, p.hostMeta)
    match partsStatus c.parts, (s.space c.ns).bind fun sp => piStatus sp pi c.lba blocks with
    | some t, _ => finishIo s c t 0 0 0 0
    | none, some t => finishIo s c t 0 0 0 0
    | none, none =>
      let data := blocks.map Prod.fst
      match c.body with
      | .compare d => finishIo s c (if data = d then stOk else stCompareFail) 0 0 0 0
      | .read =>
        finishIo (s.answer (.data data (if pi.pract then [] else blocks.map Prod.snd))) c stOk 0 0 (4096 * c.nlb) 0
      | _ => finishIo s c stOk 0 0 0 0

/-- A Flush on a tethered function completes when the rows it closes are closed (R91); elsewhere at admission. -/
def flushPoint (s : State) (c : Cmd) : State :=
  if (s.fn c.fn).harness.tether &&
      !(c.slots.isEmpty && c.rows.all fun r => rowClosed s r.1 r.2) then s
  else finishIo s { c with slots := [] } stOk 0 0 0 0

/-! ## Zone actions (R159, R160) -/

def zoneIsOpen (t : ZState) : Bool := t == .implOpen || t == .explOpen
def zoneIsActive (t : ZState) : Bool := zoneIsOpen t || t == .closed

/-- Zones of the function's attached namespaces whose state meets a test. -/
def zoneCount (s : State) (f : Nat) (p : ZState → Bool) : Nat :=
  ((s.fn f).spaces.map fun n => match s.space n.2 with
    | some sp => (sp.zones.filter fun z => p z.2.state).length
    | none => 0).sum

/-- The implicitly open zone of a function that was opened first: (namespace index, zone). -/
def oldestImplicit (s : State) (f : Nat) : Option (Nat × Nat) :=
  let zs := (s.fn f).spaces.flatMap fun n => match s.space n.2 with
    | some sp => (sp.zones.filter fun z => z.2.state == .implOpen).map fun z => (z.2.opened, n.2, z.1)
    | none => []
  (zs.foldl (fun (a : Option (Nat × Nat × Nat)) z => match a with
    | none => some z
    | some b => if z.1 < b.1 then some z else some b) none).map fun z => (z.2.1, z.2.2)

/-- Change one zone. -/
def State.updZone (s : State) (ns z : Nat) (g : Zone → Zone) : State :=
  match s.space ns with
  | none => s
  | some sp => s.setZone ns z (g (sp.zone z))

/-- Closing a zone: one with nothing written returns to Empty. -/
def closeZone (s : State) (ns z : Nat) : State :=
  s.updZone ns z fun x => { x with state := if x.wp = 0 then .empty else .closed }

/-- Opening zone `z` splits a chunk: it is closed with a chunk that still assembles (R158). -/
def reopens (s : State) (sp : Space) (ns z : Nat) : Option Pu :=
  if (sp.zone z).state = .closed then
    s.wbf.pus.find? fun u => u.target == tgtZone ns z && u.state == .opening
  else none

/-- The fine units for that split are not free. -/
def reopenWaits (s : State) (ns z : Nat) : Bool :=
  match s.space ns with
  | none => false
  | some sp => (reopens s sp ns z).isSome && decide (chunkUnits s > fineFree s)

/-- The open chunk of a zone that reopens becomes FINE. -/
def splitReopened (s : State) (ns z : Nat) : State :=
  match s.space ns with
  | none => s
  | some sp => match reopens s sp ns z with
    | some u => splitChunk s u ns z (u.chunk.getD 0) sp
    | none => s

/-- Open a zone within the function's limit of open and active zones, closing the oldest implicitly open one when
only the open limit is met (R112, R159). -/
def openZone (s : State) (f ns z : Nat) (explicit : Bool) : Except Status State :=
  match s.space ns with
  | none => .error stInvalidNs
  | some sp =>
    let x := sp.zone z
    let goal : ZState := if explicit then .explOpen else .implOpen
    let lim := (s.fn f).harness.openZones
    let enter (s : State) : State :=
      let s := splitReopened s ns z
      let s := s.setMap { s.map with zoneOpens := s.map.zoneOpens + 1 }
      s.updZone ns z fun x => { x with state := goal, opened := s.map.zoneOpens }
    match x.state with
    | .explOpen => .ok s
    | .implOpen => .ok (if explicit then enter s else s)
    | .full => .error stZoneTransition
    | .readOnly => .error stZoneReadOnly
    | .empty =>
      if zoneCount s f zoneIsActive ≥ lim then .error stTooManyActive
      else .ok (enter s)
    | .closed =>
      if zoneCount s f zoneIsOpen < lim then .ok (enter s)
      else match oldestImplicit s f with
        | some (n, y) => .ok (enter (closeZone s n y))
        | none => .error stTooManyOpen

/-- A zone that has left the open states and whose granules sit in program units gives up its stream (R161). -/
def unbindZone (s : State) (ns z : Nat) : State :=
  let t := tgtZone ns z
  match s.space ns with
  | none => s.setTarget t Target.empty
  | some sp =>
    if zoneIsOpen (sp.zone z).state then s
    else if (s.target t).held.isEmpty && !(s.wbf.pus.any fun u => u.target == t && u.state == .opening) then
      s.setTarget t Target.empty
    else s

/-- Reset: the zone is Empty and its chunks UNWRITTEN (R160). -/
def resetZone (s : State) (ns z : Nat) : State :=
  match s.space ns with
  | none => s
  | some sp =>
    let s := (zoneChunks s ns z).foldl (fun s c => clearChunk s ns z c sp) s
    unbindZone (s.updZone ns z fun _ => Zone.empty) ns z

/-- Finish: the open chunk is to be padded to a whole program unit, and the write pointer goes to the zone's end
(R160, R186). -/
def finishZone (s : State) (ns z : Nat) : State :=
  match s.space ns with
  | none => s
  | some sp =>
    let s := markClose s (tgtZone ns z) (s.target (tgtZone ns z)).fn false
    unbindZone (s.updZone ns z fun x => { x with state := .full, wp := sp.zsze }) ns z

/-- One action on one zone; the zone states that each action accepts are those of the command set. -/
def zoneStep (s : State) (f ns z action : Nat) : Except Status State :=
  match s.space ns with
  | none => .error stInvalidNs
  | some sp =>
    let t := (sp.zone z).state
    match action with
    | 1 => if zoneIsOpen t then .ok (unbindZone (closeZone s ns z) ns z)
           else if t = .closed then .ok s else .error stZoneTransition
    | 2 => if t = .full then .ok s else if t = .readOnly then .error stZoneTransition
           else if t = .empty ∧ zoneCount s f zoneIsActive ≥ (s.fn f).harness.openZones then .error stTooManyActive
           else .ok (finishZone s ns z)
    | 3 => openZone s f ns z true
    | _ => if t = .empty then .ok s else if t = .readOnly then .error stZoneTransition
           else .ok (resetZone s ns z)

/-- Zones that an action on all zones takes: close the open ones, finish the open and closed, open the closed, reset
those that are not empty. -/
def allZones (sp : Space) (action : Nat) : List Nat :=
  (sp.zones.filter fun z => match action with
    | 1 => zoneIsOpen z.2.state
    | 2 => zoneIsActive z.2.state
    | 3 => z.2.state == .closed
    | _ => zoneIsActive z.2.state || z.2.state == .full).map Prod.fst

/-- A zone action takes effect in order with the writes of its zone (R82). -/
def zonePoint (s : State) (c : Cmd) (action : Nat) (all : Bool) : State :=
  match s.space c.ns with
  | none => finishIo s c stInvalidNs 0 0 0 0
  | some sp =>
    if s.rcl.readOnly || sp.wp then finishIo s c stWriteProtected 0 0 0 0
    else if behindWrite s c || behindAccept s c then s
    else
      let zs := if all then allZones sp action else [c.lba / max sp.zsze 1]
      if action = 3 ∧ zs.any (reopenWaits s c.ns) then s
      else
      let r := zs.foldl (fun (r : Except Status State) z => match r with
        | .ok s => zoneStep s c.fn c.ns z action
        | .error t => .error t) (.ok s)
      match r with
      | .ok s => finishIo s c stOk 0 0 0 0
      | .error t => finishIo s c t 0 0 0 0

/-- COMPLETION_POINT: the admitted command `seq` comes to its completion point if nothing it waits for is left; `pi` is
its entry's PRINFO with the tags (R71, R84, R139). -/
def execCompletionPoint (seq : Nat) (pi : PiArgs) (s : State) : Out :=
  .next <|
    match s.cmd? seq with
    | none => s
    | some c =>
      if !c.admitted ∨ s.dmc.frozen then s
      else match c.body with
        | .write fua append handle _ _ => writePoint s c fua append handle pi
        | .mapOnly u => mapPoint s c u
        | .flush _ => flushPoint s c
        | .zone a all => zonePoint s c a all
        | .read | .compare _ | .verify => readPoint s c pi
        | .undecoded | .adminWait => s

end Sys2Proof.Machine
end

