-- ==== Sys2Proof/Machine/Journal.lean ====
section
/-! DEFINITION. The stripe journal (R308-R311), open rows (R85, R180), substitutes (R306), spans and the paddock
(R332-R337, R345-R348), proxies (R315, R316). -/

namespace Sys2Proof.Machine

open Sys2Proof

def State.now (s : State) : Nat := s.tbs.seconds.toNat

/-! ## Journal (R309-R311) -/

/-- A record enters the DRAM copy at once and waits for the mirrors. -/
def jrec (s : State) (typ stream row span serial : Nat) (body : List (Nat × Nat)) : State :=
  let r : JRec := { typ := typ, stream := stream, row := row, span := span, jseq := s.par.jseq, serial := serial,
                    body := BitVec.ofNat 288 (payloadNat body) }
  s.setPar { s.par with journal := r :: s.par.journal, jseq := (s.par.jseq + 1) % 2 ^ 48,
                        unflushed := s.par.unflushed + 1,
                        flushAge := if s.par.unflushed = 0 then 0 else s.par.flushAge }

/-! ## Open rows (R85, R180, R310) -/

/-- Bitmap of a set of member positions. -/
def bitmap (ps : List Nat) : BitVec 32 := ps.foldl (fun (b : BitVec 32) p => b ||| (1 <<< p)) 0

def State.openRow? (s : State) (stream serial : Nat) : Option Row :=
  s.par.rows.find? fun r => r.stream == stream && r.serial == serial

def State.updRow (s : State) (stream serial : Nat) (g : Row → Row) : State :=
  s.setPar { s.par with rows := s.par.rows.map fun r => if r.stream = stream ∧ r.serial = serial then g r else r }

/-- ROW_STATE record of a row as it stands. -/
def jrow (s : State) (r : Row) (state : Nat) : State :=
  jrec s 2 r.stream r.row r.span r.serial [(state, 1), (r.done.toNat, 4), (r.lost.toNat, 4)]

/-- A row moves to another state of R180, recorded. -/
def rowTo (s : State) (stream serial state : Nat) : State :=
  match s.openRow? stream serial with
  | none => s
  | some r => jrow (s.updRow stream serial fun r => { r with state := state }) r state

/-- Proxies that serve a member of a row. -/
def proxyFor (s : State) (span row pos : Nat) : Option Proxy :=
  s.par.proxies.find? fun p => p.serving && p.span == span && p.row == row && p.pos == pos

/-- Every member has reported: programmed, a lost data member entered in LOST, or a lost P or Q member whose proxy
serves (R85). -/
def rowReported (s : State) (l : Layout) (r : Row) : Bool :=
  (List.range l.k).all fun c =>
    r.done.getLsbD c ||
      (r.lost.getLsbD c &&
        (if c = posP l r.row ∨ c = posQ l r.row then (proxyFor s r.span r.row c).isSome else true))

/-! ## Spans (R306, R332) -/

/-- SPAN_STATE record. -/
def jspan (s : State) (n state : Nat) : State := jrec s 7 (s.span n).stream 0 n 0 [(state, 1), (s.now, 8)]

/-- A span of the layout or a spare span that has members. -/
def spanExists (s : State) (l : Layout) (n : Nat) : Bool := decide (n < l.spans) || !(s.span n).spareMembers.isEmpty

/-- Spans by number: those of the layout and the spare spans that stand. -/
def allSpans (s : State) (l : Layout) : List Nat :=
  List.range l.spans ++ ((s.par.spans.filter fun p => decide (p.1 ≥ l.spans) && !p.2.spareMembers.isEmpty).map Prod.fst)

/-- No stream is bound to the span and none of its rows is open. -/
def spanIdle (s : State) (n : Nat) : Bool :=
  !(s.wbf.streams.any fun p => p.2.span == some n) && !(s.par.rows.any fun r => r.span == n)

/-- An open span that no stream uses closes (R332). -/
def closeSpan (s : State) (n : Nat) : State :=
  if (s.span n).phase = .open ∧ spanIdle s n then
    let s := s.updSpan n fun x => { x with phase := .closed, closedAt := s.now, closedHours := s.tbs.hours }
    jspan s n 2
  else s

/-- A stream gives up its span. -/
def leaveSpan (s : State) (n : Nat) : State :=
  match (s.stream n).span with
  | none => s
  | some sp => closeSpan (s.updStream n fun x => { x with span := none, nextRow := 0, newSpan := false }) sp

/-- A row that closes with a member on a die out of service enters the rebuild queue (R314, R323). -/
def queueRow (s : State) (l : Layout) (span row : Nat) : State :=
  let n := ((List.range l.k).filter fun c => !dieIn s (member s l span c).1).length
  if n = 0 ∨ s.par.rbState = 0 ∨ (s.par.queue.any fun q => q.1 == span && q.2.1 == row) then s
  else s.setPar { s.par with queue := s.par.queue ++ [(span, row, n)] }

/-- A row whose members have all reported closes: ROW_STATE 4, its program units leave the buffer's list, and its
span closes with its last row (R85, R311, R332). -/
def tryCloseRow (s : State) (stream serial : Nat) : State :=
  match s.openRow? stream serial, s.par.layout with
  | some r, some l =>
    if r.state = 3 ∧ rowReported s l r then
      let s := jrow s r 4
      let gone := r.lost &&& ~~~ r.done
      let s := if gone = 0 then s else s.updSpan r.span fun x => { x with lost := Tbl.set x.lost r.row gone }
      let s := s.setPar { s.par with rows := s.par.rows.filter fun q => !(q.stream == stream && q.serial == serial) }
      let s := s.setWbf { s.wbf with
        pus := s.wbf.pus.filter fun p => !(p.stream == stream && p.serial == serial && p.state == .done) }
      let s := if (s.stream stream).serial = serial ∧ (s.stream stream).state = .parityProg
        then s.updStream stream fun x => { x with state := .none, members := 0 } else s
      let s := if (s.stream stream).span = some r.span ∧ r.row + 1 ≥ wordLines s ∧ (s.stream stream).serial = serial
        then leaveSpan s stream else s
      closeSpan (queueRow s l r.span r.row) r.span
    else s
  | _, _ => s

/-! ## Spare blocks and substitutes (R303, R306, R348) -/

def blockKey (die block : Nat) : Nat := die * 16384 + block
def eraseCount (s : State) (die block : Nat) : Nat := Tbl.getD s.rcl.counts (blockKey die block) 0

/-- First block of a die's spare region: all of an idle die, the blocks past the layout's elsewhere. -/
def spareFrom (s : State) (l : Layout) (die : Nat) : Nat :=
  if l.declustered then 32 * fOf l (chanOf die) * l.gen
  else if l.groups.any fun g => g.2 == die then nativeBlocks s - l.spareBlocks else 0

/-- Surviving blocks of retired spans on a die. -/
def returnedBlocks (s : State) (l : Layout) (die : Nat) : List Nat :=
  (s.par.spans.filter fun p => p.2.phase == .retired).flatMap fun p =>
    ((members s l p.1).filter fun m => m.1 == die).map Prod.snd

/-- Free spare blocks of a die, lowest first. -/
def freeSpares (s : State) (l : Layout) (die : Nat) : List Nat :=
  let own := (List.range (nativeBlocks s)).filter fun b => decide (b ≥ spareFrom s l die)
  (own ++ returnedBlocks s l die).filter fun b =>
    !s.rcl.spareTaken.contains (blockKey die b) && !s.rcl.retired.contains (blockKey die b)

/-- The die that gives a substitute for a member of a span: the same one for a retired block while it has a spare
block; else, of the same phase class, in service and no member of the span, the one with the most spare blocks, the
lowest number on a tie. -/
def substDie (s : State) (l : Layout) (span die : Nat) (same : Bool) : Option Nat :=
  if same && (s.die die).service && !(freeSpares s l die).isEmpty then some die
  else
    let ms := (members s l span).map Prod.fst
    let cand := (s.fch.dies.filter fun p => p.2.service && p.2.phaseClass == (s.die die).phaseClass &&
      !ms.contains p.1 && !(freeSpares s l p.1).isEmpty).map Prod.fst
    cand.foldl (fun (a : Option Nat) d => match a with
      | none => some d
      | some b => if (freeSpares s l b).length < (freeSpares s l d).length then some d else some b) none

/-- Member `c` of a span takes a substitute, with its SUBST record; reason 0 retirement, 1 die out of service. None
is taken at a fifth member position. -/
def takeSubst (s : State) (l : Layout) (span c reason : Nat) : Option State :=
  let x := s.span span
  if (Tbl.get x.subst c).isNone ∧ x.subst.length ≥ 4 then none
  else
    let (d, _) := member s l span c
    match substDie s l span d (reason == 0) with
    | none => none
    | some e =>
      match freeSpares s l e with
      | [] => none
      | b :: _ =>
        let s := s.setRcl { s.rcl with spareTaken := blockKey e b :: s.rcl.spareTaken }
        let s := s.updSpan span fun x => { x with subst := Tbl.set x.subst c (e, b) }
        some (jrec s 6 0 0 span 0 [(c, 1), (e, 2), (b, 2), (reason, 1)])

/-! ## The pSLC area (R142) -/

/-- Blocks of a die's pSLC area that something uses: intent blocks, dump reserve, journal blocks, retired ones. -/
def pslcTaken (s : State) (d b : Nat) : Bool :=
  let y := s.die d
  b == y.intentAct || b == y.intentStby || s.hld.reserve.contains (blockKey d b) ||
    s.rcl.retired.contains (blockKey d b) || (s.par.mirrors.any fun m => m.die == d && (m.act == b || m.stby == b))

/-- A block for pSLC use: the lowest free one of the die's pSLC area, else its lowest free native spare block
(R142, R348). -/
def takePslc (s : State) (d : Nat) : Option (Nat × State) :=
  match ((List.range (s.die d).profile.pslc).map (nativeBlocks s + ·)).find? fun b => !pslcTaken s d b with
  | some b => some (b, s)
  | none =>
    match s.par.layout with
    | none => none
    | some l => match freeSpares s l d with
      | b :: _ => some (b, s.setRcl { s.rcl with spareTaken := blockKey d b :: s.rcl.spareTaken })
      | [] => none

/-- A pSLC block waits for its erase, for the reason of R227. -/
def queuePslcErase (s : State) (d b reason : Nat) : State :=
  s.setFch { s.fch with intentErase := s.fch.intentErase ++ [(d, b, s.map.ckptNum, reason)] }


/-- Two erased blocks of a die's dump reserve go to the journal, and the reserve is replenished (R313). -/
def journalBlocks (s : State) (d : Nat) : List Nat × State :=
  let own := s.hld.erased.filter fun k => k / 16384 == d
  let take := own.take 2
  let s := s.setHld { s.hld with reserve := s.hld.reserve.filter fun k => !take.contains k,
                                 erased := s.hld.erased.filter fun k => !take.contains k }
  let s := take.foldl (fun s _ => match takePslc s d with
    | some (b, s) => queuePslcErase (s.setHld { s.hld with reserve := s.hld.reserve ++ [blockKey d b] }) d b 2
    | none => s) s
  (take.map (· % 16384), s)

/-- A native block is retired (R345). -/
def retireBlock (s : State) (die block cause : Nat) : State :=
  if s.rcl.retired.contains (blockKey die block) then s
  else
    let s := s.setRcl { s.rcl with retired := blockKey die block :: s.rcl.retired }
    ((s.bump rRCL_RETIRE_BLOCKS 1).ev eRCL_RETIRE).raise lRCL_RETIRE none [p2 die, p4 block, p4 cause]

/-- The rebuild stops: no spare span can be formed, or the layout has a single group (R322). -/
def stopRebuild (s : State) : State :=
  if s.par.rbState = 3 ∨ s.par.rbState = 0 then s
  else ((s.setPar { s.par with rbState := 3 }).ev ePAR_NO_SPARE).raise lPAR_NO_SPARE none []

/-- A span without a substitute is retired (R306, R347). -/
def retireSpan (s : State) (n : Nat) : State :=
  let s := s.updSpan n fun x => { x with phase := .retired, valid := [], lost := [] }
  let s := s.setRcl { s.rcl with retiredSpans := s.rcl.retiredSpans + 1,
                                 victims := s.rcl.victims.filter (· != n) }
  ((jspan s n 3).ev eRCL_NO_SUBST).raise lRCL_SPAN_RETIRE none [p4 n]

/-! ## The paddock (R335, R336) -/

/-- Spans not retired. -/
def spansLive (s : State) : Nat := match s.par.layout with
  | none => 0
  | some l => l.spans - (s.par.spans.filter fun p => p.2.phase == .retired && decide (p.1 < l.spans)).length

/-- ERASED spans. -/
def paddock (s : State) : Nat := match s.par.layout with
  | none => 0
  | some l => l.spans - (s.par.spans.filter fun p => p.2.phase != .erased && decide (p.1 < l.spans)).length

/-- A threshold in spans from basis points, rounded up. -/
def bpSpans (s : State) (bp : Nat) : Nat := (spansLive s * bp + 9999) / 10000
def lowSpans (s : State) : Nat := bpSpans s (s.rd rRCL_LOW_BP)
def urgentSpans (s : State) : Nat := bpSpans s (s.rd rRCL_URGENT_BP)
def floorSpans (s : State) : Nat := bpSpans s (s.rd rRCL_FLOOR_BP)
def belowLow (s : State) : Bool := decide (paddock s < lowSpans s)
def belowUrgent (s : State) : Bool := decide (paddock s < urgentSpans s)
def atFloor (s : State) : Bool := decide (paddock s ≤ floorSpans s)

/-- User granules of a span. -/
def spanUser (s : State) : Nat := dataMembers s * puGran s * wordLines s

/-- Erase count of a span: the highest among its members (R333). -/
def spanErases (s : State) (l : Layout) (n : Nat) : Nat :=
  ((members s l n).map fun m => eraseCount s m.1 m.2).foldl max 0

/-- The write credit rises while throttling is in force, to one span's user granules at most (R340). -/
def addCredit (s : State) (n : Nat) : State :=
  if s.rcl.throttling && belowUrgent s && !atFloor s then
    s.setRcl { s.rcl with credit := min (s.rcl.credit + n) (spanUser s) }
  else s

/-! ## Choosing among spans -/

/-- The span with the least key, the lowest number on a tie. -/
def leastBy (ns : List Nat) (key : Nat → Nat) : Option Nat :=
  ns.foldl (fun (a : Option Nat) n => match a with
    | none => some n
    | some b => if key n < key b then some n else some b) none

/-- The span with the greatest key, the lowest number on a tie. -/
def mostBy (ns : List Nat) (key : Nat → Nat) : Option Nat :=
  ns.foldl (fun (a : Option Nat) n => match a with
    | none => some n
    | some b => if key b < key n then some n else some b) none

/-- A span handed over as a victim (R318, R346). -/
def handOver (s : State) (n : Nat) : State :=
  if s.par.handed.contains n then s else s.setPar { s.par with handed := s.par.handed ++ [n] }

/-! ## Serving proxies (R315, R316) -/

/-- Granules of a proxy lie in a span. -/
def proxyInSpan (s : State) (n : Nat) (p : Proxy) : Bool :=
  let m := mgaParts s p.mga
  p.serving && ((spanOf s m.die m.block).map Prod.fst == some n)

/-- A span is empty when no granule in it is valid, no proxy in it serves (R332), and no program of a write that has
not come to its completion point lies in it. -/
def spanEmpty (s : State) (n : Nat) : Bool :=
  decide (spanValid (s.span n) = 0) && !(s.par.proxies.any (proxyInSpan s n)) &&
    !(s.wbf.slots.any fun p => match p.2.mga with
      | some m => (spanOf s (mgaParts s m).die (mgaParts s m).block).map Prod.fst == some n
      | none => false)

/-- Member `c` is lost in the records of its row (R310). -/
def rowLost (s : State) (span row c : Nat) : Bool :=
  match s.par.rows.find? fun r => r.span == span && r.row == row with
  | some r => r.lost.getLsbD c
  | none => (Tbl.getD (s.span span).lost row 0).getLsbD c

/-- The MGA at which member `c` of a row is read at a position: its proxy where one serves, else its own block; none
when it is lost or VOID (R300, R316, R317). -/
def memberMga (s : State) (l : Layout) (span row c pos : Nat) : Option Nat :=
  match proxyFor s span row c with
  | some p => if p.void.getLsbD pos then none else some (p.mga + pos)
  | none =>
    let (d, b) := member s l span c
    if rowLost s span row c || !dieServes s d then none else some (mgaOf s d b row pos)

/-- A member of a row has neither its own block in service nor a proxy. -/
def memberLost (s : State) (l : Layout) (span row c : Nat) : Bool :=
  (proxyFor s span row c).isNone &&
    (!dieIn s (member s l span c).1 || rowLost s span row c)

/-! ## Reading a row (R300, R317, R327) -/

/-- Member position of a member index in a row. -/
def posOf (l : Layout) (row idx : Nat) : Nat :=
  if idx = l.d then posP l row else if idx = l.d + 1 then posQ l row else posData l row idx

/-- A member taken as zero when its row was closed after a failed dump. -/
def takenZero (s : State) (span row c : Nat) : Bool :=
  s.par.proxies.any fun q => q.serving && q.span == span && q.row == row && q.zero.getLsbD c

/-- Codeword `p` of member position `c` of a closed row, or none when it is lost, VOID, or fails the ladder's steps;
`bad` lists those that fail. A data codeword must pass the internal CRC (R22, R294). -/
def rowWord (s : State) (l : Layout) (span row : Nat) (bad : List (Nat × Nat)) (c p : Nat) : Option Info :=
  if bad.contains (c, p) then none
  else if takenZero s span row c then some 0
  else match memberMga s l span row c p with
    | none => none
    | some m =>
      let word := Tbl.get s.fch.media m
      if memberIndex l row c < l.d ∧ !(word.any infoCrcOk) then none else word

/-- The codewords of one position by member index, and the indices that are erasures. -/
def rowPosition (s : State) (l : Layout) (span row : Nat) (bad : List (Nat × Nat)) (p : Nat) :
    List (Nat × Info) × List Nat :=
  let all := (List.range l.k).map fun i => (i, rowWord s l span row bad (posOf l row i) p)
  (all.filterMap fun x => x.2.map fun w => (x.1, w), (all.filter fun x => x.2.isNone).map Prod.fst)

/-- Codeword `p` of member index `i`, read or recovered; none beyond two erasures. -/
def rowRecover (s : State) (l : Layout) (span row : Nat) (bad : List (Nat × Nat)) (i p : Nat) : Option Info :=
  let (known, erased) := rowPosition s l span row bad p
  if erased.contains i then (if erased.length ≤ 2 then recover l.d known erased i else none)
  else (known.find? fun k => k.1 == i).map Prod.snd

/-- The granule at an MGA as a controller read returns it: the codeword, or what its row recovers (R300). -/
def readGranule (s : State) (mga : Nat) : Option Info :=
  let p := mgaParts s mga
  match s.par.layout, spanOf s p.die p.block with
  | some l, some (n, c) => rowRecover s l n p.wl [] (memberIndex l p.wl c) (mgaPos s mga)
  | _, _ => none

/-! ## Lit and dim windows (R61) -/

/-- Window of the stride in progress, 0-999. -/
def windowNow (s : State) : Nat := s.tbs.strideInSec / 125

/-- The window is dim in the table of the second in progress; before the first table every window is lit (R60). -/
def dimNow (s : State) : Bool :=
  match s.stp.lantern with
  | some l => l.bitmap.getLsbD (windowNow s)
  | none => false

/-- Seconds since a closed span's last groom, or since it closed (R324). -/
def groomAge (s : State) (n : Nat) : Nat :=
  let x := s.span n
  s.now - (if x.groomedAt ≠ 0 then x.groomedAt else x.closedAt)

/-- Spans that groom visits: closed, and not in the rebuild queue (R324). -/
def groomable (s : State) (n : Nat) : Bool :=
  (s.span n).phase == .closed && !(s.par.queue.any fun q => q.1 == n)

def groomSpans (s : State) : List Nat :=
  match s.par.layout with
  | none => []
  | some l => (allSpans s l).filter (groomable s)

/-- A span has passed its groom deadline, twice GROOM_DAYS (R61, R263). -/
def groomOverdue (s : State) : Bool :=
  (groomSpans s).any fun n => decide (groomAge s n > 2 * s.rd rPAR_GROOM_DAYS * 86400)

/-- A sanitize operation is armed or runs (R355). -/
def sanitizing (s : State) : Bool := s.rcl.sanitize == .armed || s.rcl.sanitize == .erasing

/-- Heavy work may start in a lit window (R61). -/
def heavyExcused (s : State) : Bool := belowUrgent s || groomOverdue s || sanitizing s

/-- A lit window is broken: counted once, the first of a second written (R61). -/
def breakWindow (s : State) : State :=
  let w := s.now * 1000 + windowNow s
  if s.stp.brokenWin = some w then s
  else
    let first := s.stp.broken = 0
    let s := s.setStp { s.stp with brokenWin := some w, broken := s.stp.broken + 1 }
    if first then (s.ev eSTP_LIT_BROKEN).raise lSTP_LIT_BROKEN none [] else s

end Sys2Proof.Machine
end

