-- ==== Sys2Proof/Machine/Buffer.lean ====
section
/-! DEFINITION. Write buffer and streams: slots, program-unit assembly, encryption and folding, span allocation, map
updates after programs, failed programs, ceiling and write-through (06 R171-R197; 05 R161; 09 R296; 11 R333, R346). -/

namespace Sys2Proof.Machine

open Sys2Proof

/-! ## Taking slots (R171, R175, R177) -/

/-- Slots that the buffer ceiling provides (R171, R176). -/
def slotsTotal (s : State) : Nat := s.wbf.ceil * 252

/-- Slots of the whole region (R171). -/
def slotsAll : Nat := 516096

/-- The reserve of streams 252-255, 128 MiB (R177). -/
def reserveTotal : Nat := 32256

/-- Slots of streams 252-255 (R177). -/
def reserveUsed (s : State) : Nat := (s.wbf.slots.filter fun p => p.2.reserve).length

/-- Slots that may be in use: those under the ceiling. DESIGN CHOICE: R110 lets every function fetch a write of 2 MiB at
any ceiling, so the limit leaves 512 slots for each function beside the reserve; in write-through mode, and while the
ceiling lies below the holdings, no slot waits for hold-up and the whole region serves. -/
def slotLimit (s : State) : Nat :=
  if s.qmx.wthru ∨ s.wbf.dropping then slotsAll
  else min slotsAll (max (slotsTotal s) (reserveTotal + 512 * (s.fns.filter fun p => p.2.state != .free).length))

/-- Slots that hold acknowledged data (R178). -/
def ackSlots (s : State) : Nat := (s.wbf.slots.filter fun p => !p.2.reserve && p.2.pinned).length

/-- Slots in a state (WBF_SLOTS_ACK, WBF_SLOTS_FILLING). -/
def slotsIn (s : State) (l : List SlotState) : Nat := (s.wbf.slots.filter fun p => l.contains p.2.state).length

/-- Keys of the slot table in order. -/
def slotKeys (s : State) : Tbl Slot := s.wbf.slots

/-- A free slot, lowest first. -/
def freeSlotIndex (s : State) : Option Nat :=
  let k := freeKey (slotKeys s) 0
  if k < slotLimit s then some k else none

/-- An aligned free group of 16 (R175). -/
def freeSlotGroup (s : State) : Option Nat :=
  let k := freeGroup (slotKeys s) 16 0
  if k + 16 ≤ slotLimit s then some k else none

/-- Slots that the host functions may still take. -/
def hostRoom (s : State) : Nat :=
  (slotLimit s - reserveTotal) - ((slotKeys s).filter fun p => !p.2.reserve).length

/-! ## Copies (R20, R22, R177) -/

/-- Target of a controller stream 252-255, whose chain holds its copies. -/
def tgtCtl (n : Nat) : Nat := 2 ^ 40 + n

/-- The controller stream of a target. -/
def ctlStream (t : Nat) : Option Nat := if t ≥ 2 ^ 40 then some (t - 2 ^ 40) else none

/-- Stream that serves a target. -/
def streamOf (s : State) (t : Nat) : Option Nat :=
  match ctlStream t with
  | some n => some n
  | none => (s.target t).stream

/-- A copy takes a slot of the reserve and joins its stream's chain; `src` is the MGA it was read from. -/
def pushCopy (s : State) (n src : Nat) (x : Info) (state : SlotState) : State :=
  match freeSlotIndex s with
  | none => s
  | some i =>
    let m := infoMetadata x
    let s := s.setSlot i { Slot.free with state := state, reserve := true, stream := n, target := tgtCtl n, ns := m.ns,
                                          lba := m.lga, wseq := m.wseq, srcMga := src, raw := some x }
    pushHeld s (tgtCtl n) i

/-- Room for `n` more copies. -/
def copyRoom (s : State) (n : Nat) : Bool :=
  decide (reserveUsed s + n ≤ reserveTotal ∧ (slotKeys s).length + n ≤ slotLimit s)

/-- The source of a demotion's copies: no MGA, since they enter the map as a whole or not at all (R153). -/
def noMga : Nat := 2 ^ 40

/-- Sixteen copies of a unit, in one aligned group of slots (R153). -/
def pushCopyUnit (s : State) (n : Nat) (xs : List Info) : Option (Nat × State) :=
  match freeSlotGroup s with
  | none => none
  | some b =>
    let s := xs.zipIdx.foldl (fun s p =>
      let m := infoMetadata p.1
      s.setSlot (b + p.2) { Slot.free with state := .copy, reserve := true, stream := n, target := tgtCtl n,
                                           ns := m.ns, lba := m.lga, wseq := m.wseq, srcMga := noMga,
                                           raw := some p.1, group := p.2 == 0 }) s
    some (b, pushHeld s (tgtCtl n) b)

/-- The copies of a whole chunk, in one program unit of their own (R158). -/
def pushCopyChunk (s : State) (n : Nat) (xs : List Info) : Option (Nat × State) :=
  match freeRecord s, freeSlotIndex s with
  | some r, some first =>
    let (s, slots) := xs.foldl (fun (a : State × List (Option Nat)) x => match freeSlotIndex a.1 with
      | none => (a.1, a.2 ++ [none])
      | some i =>
        let m := infoMetadata x
        (a.1.setSlot i { Slot.free with state := .copy, reserve := true, stream := n, target := tgtCtl n, ns := m.ns,
                                        lba := m.lga, wseq := m.wseq, srcMga := noMga, raw := some x },
         a.2 ++ [some i])) (s, [])
    some (first, s.addPu { Pu.blank with recNo := r, stream := n, target := tgtCtl n, slots := slots, state := .waiting })
  | _, _ => none

/-- A proxy or moved proxy waits to be assembled in a program unit of its own (R315): one slot per position, pad at VOID
ones. -/
def pushProxy (s : State) (n : Nat) (origin : Nat × Nat × Nat) (xs : List (Option Info)) : State :=
  let (s, slots) := xs.foldl (fun (a : State × List (Option Nat)) x => match x with
    | none => (a.1, a.2 ++ [none])
    | some info =>
      match freeSlotIndex a.1 with
      | none => (a.1, a.2 ++ [none])
      | some i => (a.1.setSlot i { Slot.free with state := .copy, reserve := true, stream := n, target := tgtCtl n,
                                                  raw := some info }, a.2 ++ [some i])) (s, [])
  s.addPu { Pu.blank with recNo := 8192, stream := n, target := tgtCtl n, slots := slots, proxyOf := some origin }

/-- A new proxy of a member: kind 0 data, 1 P, 2 Q. It serves from its program on (R315). -/
def makeProxy (s : State) (span row pos kind : Nat) (xs : List (Option Info)) (zero : BitVec 32) : State :=
  let void : BitVec 96 := xs.zipIdx.foldl (fun (b : BitVec 96) x => if x.1.isNone then b ||| (1 <<< x.2) else b) 0
  let s := s.setPar { s.par with proxies := s.par.proxies ++
    [{ span := span, row := row, pos := pos, kind := kind, mga := 0, void := void, zero := zero, serving := false }] }
  pushProxy s 254 (span, row, pos) xs

/-! ## Rows (R179-R181) -/

/-- Stream `n` needs a span: it has none, or its span is full or to be left, and its accumulators are free. -/
def rowsFree (x : Stream) : Bool := x.state == .none || x.state == .parityProg

def spanSpent (s : State) (x : Stream) : Bool := x.span.isSome && (x.newSpan || decide (x.nextRow ≥ wordLines s))

/-- A stream whose span is spent leaves it once its accumulators are free. -/
def leaveIfSpent (s : State) (n : Nat) : State :=
  let x := s.stream n
  if rowsFree x ∧ spanSpent s x then leaveSpan s n else s

/-- Member positions of a span's dies out of service. -/
def lostMembers (s : State) (l : Layout) (span : Nat) : List Nat :=
  (List.range l.k).filter fun c => !(s.die (member s l span c).1).service

/-- The stream opens its next row: accumulators cleared, ROW_OPEN and ROW_STATE written (R180, R310, R311). -/
def openRow (s : State) (l : Layout) (n sp : Nat) : State :=
  let x := s.stream n
  let lost := bitmap (lostMembers s l sp)
  let ser := x.serial + 1
  let s := s.setStream n { x with state := .accumulating, row := x.nextRow, nextRow := x.nextRow + 1, serial := ser,
                                  members := 0, folded := 0, accP := [], accQ := [], paritySent := 0, padRow := false }
  let r : Row := { stream := n, serial := ser, span := sp, row := x.nextRow, state := 1, done := 0, lost := lost }
  let s := s.setPar { s.par with rows := s.par.rows ++ [r] }
  let s := jrec s 1 n x.nextRow sp ser [(lost.toNat, 4), (l.d, 1)]
  jrow s r 1

/-- The stream's row that takes the next program unit, opened when it must be; none while it must wait. -/
def rowForNext (s : State) (l : Layout) (n : Nat) : Option State :=
  let x := s.stream n
  match x.span with
  | none => none
  | some sp =>
    if x.state = .accumulating then (if x.members < l.d then some s else none)
    else if rowsFree x && !spanSpent s x then some (openRow s l n sp)
    else none

/-! ## Assembly (R182-R187) -/

/-- Positions that whole units take: 16 k for the first `g` of them. -/
def unitPositions (s : State) (units : List Nat) : List (Nat × Nat) :=
  (units.zipIdx.filter fun u => decide (16 * (u.2 + 1) ≤ puGran s)).flatMap fun u =>
    (List.range 16).map fun j => (16 * u.2 + j, u.1 + j)

/-- Fill positions 0 to PU_GRAN − 1: units first, single granules in the rest, in completion order. -/
def fillPositions (s : State) (units singles : List Nat) : List (Option Nat) :=
  let taken := unitPositions s units
  let rest := (List.range (puGran s)).filter fun p => !(taken.any fun t => t.1 == p)
  let all := taken ++ rest.zip singles
  (List.range (puGran s)).map fun p => (all.find? fun t => t.1 == p).map Prod.snd

/-- What a target's chain offers for one program unit: the slots by position, and the chain that stays. -/
def gather (s : State) (t : Target) : List (Option Nat) × List Nat :=
  let units := (t.held.filter fun i => (s.slot i).group).take (puGran s / 16)
  let singles := (t.held.filter fun i => !(s.slot i).group).take (puGran s - 16 * units.length)
  (fillPositions s units singles, t.held.filter fun i => !units.contains i && !singles.contains i)

/-- Rows that a waiting Flush must see closed gain the row that takes one of its granules (R91). -/
def flushRows (s : State) (slots : List Nat) (stream serial : Nat) : State :=
  s.setQmx { s.qmx with cmds := s.qmx.cmds.map fun c => match c.body with
      | .flush _ =>
        if c.slots.any fun i => slots.contains i then
          { c with slots := c.slots.filter fun i => !slots.contains i, rows := (stream, serial) :: c.rows }
        else c
      | _ => c }

/-- A program unit is assembled: its slots take their positions, and it waits for its row (R180, R182). A slot of a
member that failed stays SENT (R197). -/
def assemble (s : State) (u : Pu) : State :=
  let pads := (u.slots.filter Option.isNone).length
  let s := u.slots.zipIdx.foldl (fun s p => match p.1 with
    | some i => s.updSlot i fun y => { y with
        state := if y.state = .held then .assembled else y.state, stream := u.stream, pos := p.2 }
    | none => s) (s.addPu { u with state := .waiting })
  let s := if ctlStream u.target = none ∧ s.rcl.throttling then
      s.setRcl { s.rcl with credit := s.rcl.credit - (pads : Nat) } else s
  s.bump rWBF_PAD_GRAN pads

/-- An assembled program unit becomes the next data member of its stream's open row (R181). -/
def enterRow (s : State) (l : Layout) (u : Pu) : State :=
  let x := s.stream u.stream
  let (die, block) := member s l (x.span.getD 0) (posData l x.row x.members)
  let s := s.setWbf { s.wbf with pus := (s.wbf.pus.filter fun p => p.recNo != u.recNo) ++
    [{ u with serial := x.serial, member := x.members, die := die, mga := mgaOf s die block x.row 0, state := .assembled }] }
  let slots := u.slots.filterMap id
  let s := slots.foldl (fun s i => s.updSlot i fun y => { y with member := x.members, rowSerial := x.serial }) s
  let s := s.setStream u.stream { x with
    members := x.members + 1, padRow := (x.padRow || u.rowPad) && decide (x.members + 1 < l.d),
    padFn := if u.rowPad then u.padFn else x.padFn }
  flushRows s slots u.stream x.serial

/-- A member of pad alone (R187), charged to `f`. -/
def padUnit (s : State) (n f rec : Nat) : Pu :=
  { Pu.blank with recNo := rec, stream := n, target := tgtCtl n, fn := f, padFn := f, state := .waiting,
                  slots := List.replicate (puGran s) none }

/-- A pad member enters the open row. -/
def assemblePad (s : State) (l : Layout) (n f : Nat) : State :=
  match freeRecord s with
  | none => s.ev eWBF_ASM_WAIT
  | some r => enterRow (assemble s (padUnit s n f r)) l (padUnit s n f r)

/-- The next member's die suits a program unit: a proxy goes to a die outside its origin span (R315). -/
def suitsUnit (s : State) (l : Layout) (u : Pu) : Bool :=
  let x := s.stream u.stream
  let (die, _) := member s l (x.span.getD 0) (posData l x.row x.members)
  match u.proxyOf with
  | none => true
  | some (o, _, _) => dieServes s die && !((members s l o).any fun m => m.1 == die)

/-- Assembled program units of a stream enter its rows in order, while accumulators and a span are there (R180). A pad
member takes the place that does not suit a proxy. -/
def enterRows (s : State) (l : Layout) (n : Nat) : Nat → State
  | 0 => s
  | fuel + 1 =>
    match s.wbf.pus.find? fun u => u.stream == n && u.state == .waiting with
    | none => s
    | some u => match rowForNext s l n with
      | none => s
      | some s =>
        if suitsUnit s l u then enterRows (enterRow s l u) l n fuel
        else if (freeRecord s).isNone then s.ev eWBF_ASM_WAIT
        else enterRows (assemblePad s l n 0) l n fuel

/-- More members than the rows of one call can take. -/
def rowFuel : Nat := 128

/-- A target's marks after one of its program units is assembled: with nothing held left they fall, and the unit's row is
then to be padded as well where the marks say so (R91, R186). -/
def afterClose (s : State) (t rec : Nat) : State :=
  let x := s.target t
  let busy := s.wbf.pus.any fun u => u.target == t && u.state == .opening
  if !x.held.isEmpty || busy then s
  else
    let s := s.setTarget t { x with close := false, closeRow := false }
    if x.closeRow then s.updPu rec fun u => { u with rowPad := true, padFn := x.closeFn } else s

/-- The open chunk of a zone target, or a proxy that waits to be assembled. -/
def openChunk (s : State) (t : Nat) : Option Pu :=
  s.wbf.pus.find? fun u => u.target == t && u.state == .opening

/-- Namespace index, zone and chunk of a zone target's program unit. -/
def chunkPlace (u : Pu) : Option (Nat × Nat × Nat) :=
  u.chunk.map fun c => ((u.target - 512) / 2 ^ 24, (u.target - 512) % 2 ^ 24, c)

/-- An open program unit that is whole is assembled: a zone's chunk keeps its record, a proxy takes one (R183). -/
def assembleOpen (s : State) (u : Pu) : State :=
  match (if u.recNo < 8192 then some u.recNo else freeRecord s) with
  | none => s.ev eWBF_ASM_WAIT
  | some r =>
    let s := s.setWbf { s.wbf with pus := s.wbf.pus.filter fun p =>
      !(p.recNo == u.recNo && p.state == .opening && p.proxyOf == u.proxyOf) }
    let f := (s.target u.target).closeFn
    let u := { u with recNo := r, padFn := if (s.target u.target).close then f else u.padFn }
    afterClose (assemble s u) u.target r

/-- A program unit of granules from a target's chain. -/
def assembleHeld (s : State) (n t : Nat) : State :=
  let x := s.target t
  let (slots, rest) := gather s x
  if x.held.isEmpty || !(slots.all Option.isSome || x.close) then s
  else match freeRecord s with
    | none => s.ev eWBF_ASM_WAIT
    | some r =>
      let s := s.setTarget t { x with held := rest }
      let u : Pu := { Pu.blank with recNo := r, stream := n, target := t, fn := x.fn, slots := slots,
                                    padFn := if x.close then x.closeFn else x.fn }
      afterClose (assemble s u) t r

/-- A program unit that is complete, or the open chunk of a full zone whose blocks are all there: it is padded as it
stands (R160, R186). -/
def chunkWhole (s : State) (u : Pu) : Bool :=
  u.proxyOf.isSome || u.slots.all Option.isSome ||
    (match chunkPlace u with
     | some (ns, z, c) => match s.space ns with
       | some sp => (sp.zone z).state == .full && (u.slots.take (chunkData s (sp.zone z) c)).all Option.isSome
       | none => false
     | none => false)

/-- The open chunk of a target that is to be closed before it is whole becomes FINE (R158). -/
def splitOpen (s : State) (u : Pu) : State :=
  match chunkPlace u with
  | some (ns, z, c) => match s.space ns with
    | some sp => splitChunk s u ns z c sp
    | none => s
  | none => s

/-- PROGRAM_UNIT_ASSEMBLY: target `t`, or with the target number of a controller stream its copies, proxies and pad
(R180-R187). -/
def execProgramUnitAssembly (t : Nat) (s : State) : Out :=
  .next <|
    if s.dmc.frozen then s
    else match streamOf s t, s.par.layout with
    | some n, some l =>
      let s := enterRows s l n rowFuel
      let x := s.stream n
      if x.padRow ∧ x.state = .accumulating then assemblePad s l n x.padFn
      else
        let s := match openChunk s t with
          | some u => if chunkWhole s u then assembleOpen s u
            else if (s.target t).close then assembleHeld (splitOpen s u) n t
            else assembleHeld s n t
          | none => assembleHeld s n t
        enterRows s l n rowFuel
    | _, _ => s

/-! ## Span allocation (R333, R336, R307) -/

/-- A stream with something to write. -/
def streamWants (s : State) (n : Nat) : Bool :=
  (s.stream n).padRow || (s.wbf.targets.any fun p => (streamOf s p.1 == some n) && !p.2.held.isEmpty) ||
    (s.wbf.pus.any fun u => (u.state == .opening || u.state == .waiting) && u.stream == n)

/-- Members of the next spare span of a declustered layout (R307). -/
def spareBase (l : Layout) (blocks n : Nat) : List (Nat × Nat) := (List.range l.k).map fun c => baseMember l blocks n c

/-- Lowest free spare block of a die, taken. -/
def takeSpare (s : State) (l : Layout) (die : Nat) : Option (Nat × State) :=
  match freeSpares s l die with
  | [] => none
  | b :: _ => some (b, s.setRcl { s.rcl with spareTaken := blockKey die b :: s.rcl.spareTaken })

/-- Form spare span `n` from one spare block on each of `dies`; a die out of service is replaced by one of its phase
class (R306, R307). -/
def formSpare (s : State) (l : Layout) (n : Nat) (dies : List Nat) : Option State :=
  let r := dies.foldl (fun (a : Option (State × List (Nat × Nat))) d => match a with
    | none => none
    | some (s, ms) =>
      let pick := if (s.die d).service ∧ !(freeSpares s l d).isEmpty then some d
        else leastBy ((s.fch.dies.filter fun p => p.2.service && p.2.phaseClass == (s.die d).phaseClass &&
          !(freeSpares s l p.1).isEmpty && !(ms.any fun m => m.1 == p.1)).map Prod.fst)
          fun e => 65536 - (freeSpares s l e).length
      match pick with
      | none => none
      | some e => match takeSpare s l e with
        | none => none
        | some (b, s) => some (s, ms ++ [(e, b)])) (some (s, []))
  r.map fun a => a.1.updSpan n fun x => { x with spareMembers := a.2 }

/-- Groups that may hold proxies of the rows that wait: not the group of an origin (R307). -/
def spareGroup (s : State) (l : Layout) : Option Nat :=
  let origins := s.par.proxies.filterMap fun p => if p.serving then none else some (p.span / max (nativeBlocks s - l.spareBlocks) 1)
  (List.range l.gen).find? fun g => !origins.contains g &&
    ((List.range 16).all fun c => !(freeSpares s l (Tbl.getD l.groups (g * 32 + c) 0)).isEmpty)

/-- The next spare span, formed; none when no spare block set can be found. -/
def nextSpare (s : State) (l : Layout) : Option (Nat × State) :=
  let used := (s.par.spans.filter fun p => decide (p.1 ≥ l.spans) && !p.2.spareMembers.isEmpty).map Prod.fst
  let n := ((List.range (used.length + 1)).find? fun j => !used.contains (l.spans + j)).getD 0 + l.spans
  let dies := if l.declustered then some ((spareBase l (nativeBlocks s) n).map Prod.fst)
    else (spareGroup s l).map fun g => (List.range l.k).map fun c => Tbl.getD l.groups (g * 32 + c) 0
  match dies with
  | none => none
  | some ds => (formSpare s l n ds).map fun s => (n, s)

/-- Take substitutes for the members on dies out of service; none when one cannot be had (R306, R314, R333). -/
def fixMembers (s : State) (l : Layout) (n : Nat) : Option State :=
  (lostMembers s l n).foldl (fun (a : Option State) c => match a with
    | none => none
    | some s => takeSubst s l n c 1) (some s)

/-- A stream begins a span: SPAN_STATE 1. -/
def beginSpan (s : State) (n sp : Nat) : State :=
  let s := s.updStream n fun x => { x with span := some sp, nextRow := 0, newSpan := false }
  let s := s.updSpan sp fun x => { x with phase := .open, stream := n, valid := [], lost := [], firstAt := 0, firstHours := 0,
                                          erasedMembers := [], startedMembers := [], doneRows := [], rowCopies := [] }
  jspan s sp 1

/-- Proxies wait in stream 254 for a spare span. -/
def proxyWaits (s : State) : Bool := s.wbf.pus.any fun u =>
  (u.state == .opening || u.state == .waiting) && u.proxyOf.isSome && u.stream == 254

/-- SPAN_ALLOCATE: stream `n` takes the ERASED span of least erase count, stream 253 that of the greatest, the lowest
number on a tie; at or below PADDOCK_FLOOR only streams 252-255 take one; rows of proxies go to spare spans (R307,
R333, R335, R336, R341). -/
def execSpanAllocate (n : Nat) (s : State) : Out :=
  .next <|
    let s := leaveIfSpent s n
    let x := s.stream n
    match s.par.layout with
    | none => s
    | some l =>
      if x.span.isSome ∨ !rowsFree x ∨ !streamWants s n ∨ (n < 252 ∧ (n ≥ targetStreams s ∨ atFloor s)) ∨ n > 255 then s
      else if n = 254 ∧ proxyWaits s then
        match nextSpare s l with
        | none => stopRebuild s
        | some (sp, s) => enterRows (beginSpan s n sp) l n rowFuel
      else
        let erased := (List.range l.spans).filter fun m => (s.span m).phase == .erased
        match (if n = 253 then mostBy erased (spanErases s l) else leastBy erased (spanErases s l)) with
        | none => s
        | some sp =>
          match fixMembers s l sp with
          | some s => enterRows (beginSpan s n sp) l n rowFuel
          | none => retireSpan s sp

/-! ## Encryption, fold and encoding (R188, R275, R296, R386) -/

/-- Metadata of a host granule before its CRC and tag. -/
def hostMetadata (x : Slot) (sp : Space) : Metadata :=
  { lga := x.lba, ns := x.ns, pad := x.pad, gcm := sp.mode == .gcm, hmeta := sp.lbaf != 0, internal := false,
    wseq := if x.pad then 0 else x.wseq, crc := 0, tag := if sp.lbaf != 0 then x.hostMeta else 0 }

/-- A granule of a namespace with a cipher mode waits while no key of its generation is in KEY (R399). -/
def keyMissing (s : State) (x : Slot) : Bool :=
  x.raw.isNone && !x.pad && !x.reserve &&
    (match Tbl.get s.map.spaces x.ns with
     | some sp =>
       let k := s.keySlot (keySlotNs x.ns)
       sp.mode != .none && (if k.gen = x.keyGen then k.key.isNone else k.shadow.isNone && k.key.isNone)
     | none => false)

/-- The key that encrypts a granule; one whose generation's key is gone, a volatile key loaded again, takes the key in
force. -/
def granuleKeyOr (s : State) (x : Slot) : Nat :=
  let k := s.keySlot (keySlotNs x.ns)
  ((if k.gen = x.keyGen then k.key else if k.shadow.isSome then k.shadow else k.key)).getD 0

/-- The info bytes of a slot's granule: a copy's as they stand, pad and plaintext as they are, the rest encrypted. -/
def slotInfo (s : State) (x : Slot) : Info :=
  match x.raw with
  | some r => r
  | none =>
    match Tbl.get s.map.spaces x.ns with
    | none => mkInfo x.data (Metadata.pack { lga := x.lba, ns := x.ns, pad := x.pad, gcm := false, hmeta := false,
                                             internal := x.reserve, wseq := x.wseq, crc := crc16 x.data, tag := 0 })
    | some sp =>
      let m := hostMetadata x sp
      let k := granuleKeyOr s x
      let d := if x.pad then 0 else match sp.mode with
        | .none => x.data
        | .xts => Config.xtsEnc k x.lba x.data
        | .gcm => Config.granEnc k x.lba x.wseq x.data
      let tag := if sp.mode = .gcm ∧ !x.pad then
          Config.granTag k x.lba x.wseq ((Metadata.pack m).setWidth 112) d else m.tag
      mkInfo d (Metadata.pack { m with gcm := m.gcm && !x.pad, crc := crc16 d, tag := tag })

/-- Info bytes of position `p` of a program unit. -/
def puInfo (s : State) (u : Pu) (p : Nat) : Info :=
  match u.slots.getD p none with
  | some i => slotInfo s (s.slot i)
  | none => padInfo

def State.findPu (s : State) (stream serial member : Nat) : Option Pu :=
  s.wbf.pus.find? fun u => u.stream == stream && u.serial == serial && u.member == member && u.placed

/-- Change a program unit by its row and member. -/
def State.updPuAt (s : State) (stream serial member : Nat) (g : Pu → Pu) : State :=
  s.setWbf { s.wbf with pus := s.wbf.pus.map fun u =>
    if u.stream = stream ∧ u.serial = serial ∧ u.member = member ∧ u.placed then g u else u }

/-- A program unit has its PROGRAM in its die's ring. -/
def puPlaced (s : State) (u : Pu) : Bool :=
  let o : Owner := .pu u.stream u.serial u.member
  (s.die u.die).ring.any fun p => p.2.owner == o

/-- A codeword waits in the staging pool. -/
def stage (s : State) (stream serial member p : Nat) (x : Info) : State :=
  s.setStaged (s.staged ++ [{ stream := stream, serial := serial, member := member, pos := p, info := x }])

/-- The row's P and Q codewords go out: a program unit on the P and Q member dies, or a parity proxy from the
accumulators for a lost one (R180, R188, R314). -/
def parityOut (s : State) (l : Layout) (n : Nat) : State :=
  let x := s.stream n
  let sp := x.span.getD 0
  let lost := match s.openRow? n x.serial with
    | some r => r.lost
    | none => 0
  let s := rowTo (s.setStream n { x with state := .parityOut }) n x.serial 2
  let one (s : State) (m c kind : Nat) (acc : Tbl Info) : State :=
    if lost.getLsbD c then
      makeProxy s sp x.row c kind ((List.range (puGran s)).map fun p => some (Tbl.getD acc p 0)) 0
    else
      let (die, block) := member s l sp c
      s.addPu { Pu.blank with recNo := 8192, stream := n, serial := x.serial, member := m, target := tgtCtl n,
                              slots := List.replicate (puGran s) none, die := die, mga := mgaOf s die block x.row 0,
                              state := .assembled }
  let s := one s 254 (posP l x.row) 1 x.accP
  one s 255 (posQ l x.row) 2 x.accQ

/-- When no codeword of P or Q is left to send, the accumulators are released: PARITY_PROG (R180). -/
def parityProg (s : State) (n serial : Nat) : State :=
  let x := s.stream n
  let left := s.wbf.pus.any fun u => u.stream == n && u.serial == serial && decide (u.member ≥ 254) &&
    u.placed && decide (u.sent < puGran s) && u.state != .done && u.state != .failed
  if x.state = .parityOut ∧ x.serial = serial ∧ !left then
    let s := rowTo (s.setStream n { x with state := .parityProg, accP := [], accQ := [] }) n serial 3
    let s := tryCloseRow s n serial
    match s.par.layout with
    | some l => enterRows (leaveIfSpent s n) l n rowFuel
    | none => s
  else s

/-- Every codeword of every data member of the row has been folded. -/
def allFolded (s : State) (l : Layout) (n : Nat) : Bool :=
  let x := s.stream n
  decide (x.members = l.d ∧ x.folded = l.d * puGran s)

/-- A word that fails on its way into the staging pool twice: counted, and recomputed from the codeword's source (R378). -/
def fabricFailed (s : State) : State :=
  let s := ((s.bump rSRM_FABRIC_RESEND 1).ev eSRM_FABRIC_RESEND).bump rSRM_FABRIC_FAIL 1
  let s := (s.wr rSRM_LAST_POOL 15).wr rSRM_LAST_BANK 11
  ((s.bump rSRM_RECOMPUTED 1).ev eSRM_RECOMPUTE).raise lSRM_RECOMPUTE none []

/-- The check before encoding failed: a ledger event at the first mismatch of a granule; its source lines have been checked
after the third, and a fourth is a fabric check failure (R296). -/
def encodeMismatch (s : State) (u : Pu) : State :=
  let s := (s.bump rLDC_CRC_ENC 1).ev eLDC_CRC_ENC
  if u.tries = 0 then s.raise lLDC_CRC_ENC none [p5 (u.mga + u.encoded)]
  else if u.tries ≥ 3 then fabricFailed s else s

/-- CODEWORD_ENCODE: the next codeword of a member of an open row is encrypted, stamped with its CRC, folded and
encoded; P and Q codewords (members 254 and 255) come from the accumulators. `crcBad`: the check before encoding
fails, and the granule is to be rebuilt from its source (R188, R295, R296). The engines work for program units that STP
has placed, and under no hold plan (R40, R188). -/
def execCodewordEncode (stream serial member : Nat) (crcBad : Bool) (s : State) : Out :=
  .next <|
    match s.findPu stream serial member, s.par.layout with
    | some u, some l =>
      let p := u.encoded
      let x := s.stream stream
      -- a codeword that the accumulators hold already goes out again after a dump, without a fold (R195)
      let again := decide (p < u.foldedTo) && decide (member < 254)
      if s.dmc.frozen ∨ planHeld s ∨ !(puPlaced s u || !dieIn s u.die) ∨ p ≥ puGran s ∨ (x.serial ≠ serial ∧ !again) ∨ (u.state ≠ .assembled ∧ u.state ≠ .sent) then s
      else if member ≥ 254 then
        if x.state ≠ .parityOut then s
        else
          let info := Tbl.getD (if member = 254 then x.accP else x.accQ) p 0
          (stage s stream serial member p info).updPuAt stream serial member fun u => { u with encoded := p + 1 }
      else if (x.state ≠ .accumulating ∧ !again) ∨ ((u.slots.getD p none).any fun i => keyMissing s (s.slot i)) then s
      else if crcBad then
        (encodeMismatch s u).updPuAt stream serial member fun u => { u with tries := u.tries + 1 }
      else
        let info := puInfo s u p
        let s := stage s stream serial member p info
        let s := s.updPuAt stream serial member fun u =>
          { u with encoded := p + 1, foldedTo := max u.foldedTo (p + 1), tries := 0 }
        let host := match u.slots.getD p none with
          | some i => (s.slot i).raw.isNone && !(s.slot i).pad
          | none => false
        let s := if host then s.bump rCIP_GRAN_ENC 1 else s
        if again then s
        else
        let s := s.setStream stream { x with
          accP := Tbl.put x.accP p (foldP (Tbl.getD x.accP p 0) info) 0,
          accQ := Tbl.put x.accQ p (foldQ (Tbl.getD x.accQ p 0) info member) 0,
          folded := x.folded + 1 }
        if allFolded s l stream then parityProg (parityOut s l stream) stream serial else s
    | _, _ => s

/-! ## Map updates after a program (R190, R23) -/

/-- A fine entry that still names a slot takes its MGA. -/
def swapFine (s : State) (f i ns lba slot m : Nat) : State :=
  if fineEntry s f i = ⟨.buffer, slot⟩ then setFine s f i ns lba ⟨.media, m⟩ else s

/-- The entry of a host granule becomes MEDIA where it still names the slot. -/
def swapHost (s : State) (i m : Nat) : State :=
  let x := s.slot i
  match s.space x.ns with
  | none => s
  | some sp =>
    match sp.typ with
    | .conventional =>
      let e := coarseOf s x.ns (x.lba / 16)
      if e.kind = .fine then swapFine s e.addr (x.lba % 16) x.ns x.lba i m
      else if x.group ∧ e = ⟨.buffer, i⟩ then setCoarse s x.ns (x.lba / 16) ⟨.media, m⟩
      else s
    | .zoned =>
      let (z, off) := zoneOf sp x.lba
      let e := chunkOf s x.ns z (off / puGran s)
      if e.kind = .fine then
        let p := off % puGran s
        swapFine s (e.addr + p / 16) (p % 16) x.ns x.lba i m
      else s

/-- The entry of one block that still names an MGA takes another (R23): a fine entry, a whole unit promoted first, a
chunk split first. -/
def swapMga (s : State) (ns lba old : Nat) (e : Entry) : State :=
  if blockEntry s ns lba ≠ ⟨.media, old⟩ then s
  else match s.space ns with
    | none => s
    | some sp =>
      match sp.typ with
      | .conventional => setBlocks s ns lba [e] 1
      | .zoned => setZonePart s ns sp lba e

/-- Fine units that a swap of one block needs. -/
def swapNeeds (s : State) (ns lba : Nat) : Nat :=
  match s.space ns with
  | none => 0
  | some sp =>
    match sp.typ with
    | .conventional => if (coarseOf s ns (lba / 16)).kind = .fine then 0 else 1
    | .zoned =>
      let (z, off) := zoneOf sp lba
      if (chunkOf s ns z (off / puGran s)).kind = .fine then 0 else chunkUnits s

/-- Consecutive copies of a whole unit or chunk swap its entry at once; other copies swap block by block (R23, R153,
R338). A unit copied as 16 consecutive granules from 16 consecutive granules keeps its coarse entry. -/
def swapCopy (s : State) (x : Slot) (m : Nat) : State :=
  match s.space x.ns with
  | none => s
  | some sp =>
    let e := coarseOf s x.ns (x.lba / 16)
    if sp.typ = .conventional ∧ x.group ∧ e = ⟨.media, x.srcMga⟩ ∧ x.lba % 16 = 0 then
      setCoarse s x.ns (x.lba / 16) ⟨.media, m⟩
    else swapMga s x.ns x.lba x.srcMga ⟨.media, m⟩

/-- Fine units of a demotion: one, or those of a whole chunk. -/
def demoteUnits (s : State) (d : Demote) : List FineUnit :=
  (List.range ((d.src.length + 15) / 16)).filterMap fun k => Tbl.get s.map.fine (d.fine + k)

/-- DEMOTION_COMMIT: all fine entries still name the sources, and the coarse entry, or the chunk entry, takes the
destination; else the copy is dropped (R153, R158). -/
def demoteCommit (s : State) (d : Demote) (m : Nat) : State :=
  let s := s.setMap { s.map with demotes := s.map.demotes.filter fun e => e.fine != d.fine }
  let us := demoteUnits s d
  let entries := (us.flatMap FineUnit.entries).take d.src.length
  match us.head? with
  | none => s.bump rMAP_DEMOTE_ABORT 1
  | some u =>
    if entries ≠ d.src.map fun a => (⟨.media, a⟩ : Entry) then s.bump rMAP_DEMOTE_ABORT 1
    else if !u.zchunk then
      let s := setCoarse s u.ns u.unit ⟨.media, m⟩
      (s.delta u.ns (16 * u.unit) 3 ⟨.media, m⟩).bump rMAP_DEMOTE 1
    else match s.space u.ns with
      | none => s.bump rMAP_DEMOTE_ABORT 1
      | some sp =>
        let (z, c) := chunkOfNo s sp u.unit
        if chunkOf s u.ns z c ≠ ⟨.fine, d.fine⟩ then s.bump rMAP_DEMOTE_ABORT 1
        else
          let s := d.src.foldl (fun s a => validDown s a 1) s
          let s := (List.range us.length).foldl (fun s k => s.freeFine (d.fine + k)) s
          let s := validUp (setChunk s u.ns z c ⟨.media, m⟩ (chunkLba s sp z c)) m d.src.length
          s.bump rMAP_DEMOTE 1

/-- The slot of a programmed granule: freed, or kept with its MGA while its command is not at its completion point. -/
def programmed (s : State) (i m : Nat) : State :=
  let x := s.slot i
  if !x.reserve ∧ !x.pinned ∧ (s.cmd? x.cmd).isSome then
    s.setSlot i { x with mga := some m, state := .sent }
  else s.freeSlot i

/-- A queued row whose lost members all have proxies leaves the rebuild queue (R319). -/
def rowRebuilt (s : State) (span row : Nat) : State :=
  match s.par.layout with
  | none => s
  | some l =>
    if !(s.par.queue.any fun q => q.1 == span && q.2.1 == row) then s
    else if (List.range l.k).any (memberLost s l span row) then s
    else s.setPar { s.par with queue := s.par.queue.filter fun q => !(q.1 == span && q.2.1 == row),
                               rowsDone := s.par.rowsDone + 1 }

/-- PROXY_COMMIT: a proxy's program has completed. Its record is written and MAP repoints the valid granules of a data
proxy; a moved proxy writes PROXY_MOVE (R315, R316). -/
def proxyCommit (s : State) (u : Pu) (o : Nat × Nat × Nat) : State :=
  match s.par.proxies.find? fun p => p.span == o.1 && p.row == o.2.1 && p.pos == o.2.2 with
  | none => s
  | some p =>
    let oldMga := if p.serving then some p.mga else
      s.par.layout.map fun l =>
        let (d, b) := member s l p.span p.pos
        mgaOf s d b p.row 0
    let s := s.setPar { s.par with proxies := s.par.proxies.map fun q =>
      if q.span = p.span ∧ q.row = p.row ∧ q.pos = p.pos then { q with mga := u.mga, serving := true } else q }
    let s := if p.serving then jrec s 5 0 p.row p.span 0 [(p.pos, 1), (p.mga, 5), (u.mga, 5)]
      else jrec s 4 0 p.row p.span 0 [(u.mga, 5), (p.pos, 1), (p.kind, 1), (0, 1), (p.void.toNat, 12), (p.zero.toNat, 4)]
    let s := rowRebuilt s p.span p.row
    let s := match s.par.rows.find? fun r => r.span == p.span && r.row == p.row with
      | some r => tryCloseRow s r.stream r.serial
      | none => s
    if p.kind ≠ 0 then s
    else u.slots.zipIdx.foldl (fun s q => match q.1, oldMga with
      | some i, some old =>
        match (s.slot i).raw with
        | some x => if (infoMetadata x).pad then s
          else swapMga s (infoMetadata x).ns (infoMetadata x).lga (old + q.2) ⟨.media, u.mga + q.2⟩
        | none => s
      | _, _ => s) s

/-- Member position in its span of a program unit. -/
def puPos (l : Layout) (row member : Nat) : Nat :=
  if member = 254 then posP l row else if member = 255 then posQ l row else posData l row member

/-- A whole zone chunk takes its MGA in one swap, where its entry still names the record (R190). -/
def chunkDone (s : State) (u : Pu) : State :=
  match chunkPlace u with
  | none => s
  | some (ns, z, c) =>
    match s.space ns with
    | some sp =>
      if chunkOf s ns z c ≠ ⟨.buffer, u.recNo⟩ then s
      else
        let s := setChunk s ns z c ⟨.media, u.mga⟩ (chunkLba s sp z c)
        validUp s u.mga (chunkData s (sp.zone z) c)
    | none => s

/-- The least place in completion order of the granules of a unit, by namespace (R91). -/
def unitCover (s : State) (u : Pu) : Tbl Nat :=
  ((u.slots.filterMap id).map s.slot).foldl (fun t x =>
    if x.pinned ∧ !x.reserve ∧ !x.pad then Tbl.set t x.ns (min x.landed (Tbl.getD t x.ns x.landed)) else t) []

/-- A granule of a programmed unit, held by slot `g.1`, takes its MGA `g.2` in the map; a proxy's does not. A page of the
checkpoint takes it in the directory. -/
def granuleDone (u : Pu) (s : State) (g : Nat × Nat) : State :=
  let x := s.slot g.1
  match s.map.demotes.find? fun d => d.slot == g.1 with
  | some d => demoteCommit s d g.2
  | none =>
    if u.proxyOf.isSome then s
    else if x.state = .ckpt then placePage s x.lba g.2
    else if x.raw.any fun r => (infoMetadata r).internal then movePage s x.lba x.srcMga g.2
    else if x.reserve then swapCopy s x g.2
    else swapHost s g.1 g.2

/-- REPOINT and ROW_CLOSE: a program has completed with OK (R85, R190, R311). -/
def puDone (s : State) (u : Pu) : State :=
  match s.openRow? u.stream u.serial, s.par.layout with
  | some r, some l =>
    let s := s.setStaged (s.staged.filter fun g =>
      !(g.stream == u.stream && g.serial == u.serial && g.member == u.member))
    let s := s.updPuAt u.stream u.serial u.member fun u => { u with state := .done, recNo := 8192, cov := unitCover s u }
    let s := s.updRow u.stream u.serial fun r => { r with done := r.done ||| (1 <<< puPos l r.row u.member) }
    let s := if (s.span r.span).firstAt = 0 then
        s.updSpan r.span fun x => { x with firstAt := s.now, firstHours := s.tbs.hours } else s
    let granules := u.slots.zipIdx.filterMap fun p => p.1.map fun i => (i, u.mga + p.2)
    let s := chunkDone s u
    let s := match u.proxyOf with
      | some o => proxyCommit s u o
      | none => s
    let s := granules.foldl (granuleDone u) s
    let s := granules.foldl (fun s g => programmed s g.1 g.2) s
    let s := if u.member < 254 then
        let pads := (u.slots.filter Option.isNone).length
        let put (s : State) (f n : Nat) : State := s.meter f fun m => { m with mediaBytes := m.mediaBytes + 4096 * n }
        if u.stream < 252 then put (put s u.fn (puGran s - pads)) u.padFn pads else s
      else s
    let s := if u.member ≥ 254 then s
      else if u.stream < 252 then s.setRcl { s.rcl with hosted := s.rcl.hosted + puGran s }
      else if u.stream < 254 then s.setRcl { s.rcl with copied := s.rcl.copied + granules.length }
      else s
    tryCloseRow s u.stream u.serial
  | _, _ => s

/-! ## Failed programs (R197, R346) -/

/-- A failed program unit keeps its record and its slots, and is the next of its stream's program units (R197). -/
def requeue (s : State) (u : Pu) : State :=
  s.setWbf { s.wbf with pus := { u with serial := 0, member := 0, encoded := 0, foldedTo := 0, sent := 0, tries := 0,
                                        state := .waiting } :: s.wbf.pus }

/-- A waiting Flush follows the granules of a failed program unit to their new row (R91, R197). -/
def reflush (u : Pu) (slots : List Nat) (k : Cmd) : Cmd :=
  match k.body with
  | .flush _ => if k.rows.contains (u.stream, u.serial) then { k with slots := k.slots ++ slots } else k
  | _ => k

/-- A parity unit that failed goes to a proxy, made of its staged codewords and of what its accumulator holds. -/
def parityLost (s : State) (u : Pu) (span row c : Nat) (staged : List Staged) : State :=
  let acc := if u.member = 254 then (s.stream u.stream).accP else (s.stream u.stream).accQ
  let raws := (List.range (puGran s)).map fun p => match staged.find? fun g => g.pos == p with
    | some g => some g.info
    | none => some (Tbl.getD acc p 0)
  makeProxy s span row c (u.member - 253) raws 0

/-- The granules of a data unit that failed wait again, with the Flushes that follow them; codewords of the lost member
that were not folded count as zero in the row. -/
def dataLost (s : State) (u : Pu) : State :=
  let slots := u.slots.filterMap id
  let s := s.setQmx { s.qmx with cmds := s.qmx.cmds.map (reflush u slots) }
  let left := puGran s - u.foldedTo
  let s := s.updStream u.stream fun x => if x.serial = u.serial then { x with folded := x.folded + left } else x
  requeue s u

/-- RECLAIM_TARGET_FAILURE: the program of a member failed; `cause` is the completion status code, and `retire` says
whether the block is retired (R345, R346, R560). -/
def puFailed (s : State) (u : Pu) (cause : Nat) (retire : Bool) : State :=
  match s.openRow? u.stream u.serial, s.par.layout with
  | some r, some l =>
    let c := puPos l r.row u.member
    let s := s.updRow u.stream u.serial fun r => { r with lost := r.lost ||| (1 <<< c) }
    let s := match s.openRow? u.stream u.serial with
      | some r => jrow s r r.state
      | none => s
    let block := (mgaParts s u.mga).block
    let s := if retire then retireBlock s u.die block cause else s
    let staged := s.staged.filter fun g => g.stream == u.stream && g.serial == u.serial && g.member == u.member
    let s := s.setStaged (s.staged.filter fun g =>
      !(g.stream == u.stream && g.serial == u.serial && g.member == u.member))
    let s := s.setWbf { s.wbf with pus := s.wbf.pus.filter fun p =>
      !(p.stream == u.stream && p.serial == u.serial && p.member == u.member && p.placed) }
    let s := if u.member ≥ 254 then parityLost s u r.span r.row c staged else dataLost s u
    let s := if (s.stream u.stream).span = some r.span then
        s.updStream u.stream fun x => { x with newSpan := true } else s
    let s := ((s.bump rRCL_TARGET_FAIL 1).ev eRCL_TARGET_FAIL).raise lRCL_TARGET_FAIL none
      [p4 u.stream, p4 r.span, p4 c]
    let s := handOver s r.span
    let s := if (s.stream u.stream).serial = u.serial ∧ (s.stream u.stream).state = .accumulating ∧ allFolded s l u.stream
      then parityOut s l u.stream else s
    tryCloseRow (parityProg s u.stream u.serial) u.stream u.serial
  | _, _ => s

/-! ## Closures (R186), ceiling (R176, R178), write-through (R87, R192, R193) -/

/-- A target holds granules that are not in a program unit. -/
def targetHolds (s : State) (t : Nat) : Bool :=
  !(s.target t).held.isEmpty || (openChunk s t).isSome

/-- IDLE_CLOSURE: target `t` received no granule for IDLE_STRIDES; 0 disables it (R186, R199). -/
def execIdleClosure (t : Nat) (s : State) : Out :=
  .next <|
    let lim := s.rd rWBF_IDLE_STRIDES
    let x := s.target t
    if lim = 0 ∨ x.idle < lim ∨ x.close ∨ !targetHolds s t then s
    else (markClose s t x.fn false).bump rWBF_IDLE_CLOSE 1

/-- CEILING_CHANGE: the ceiling that HLD reported applies (R176); below the acknowledged holdings it forces
write-through completions and padded closures (R178). -/
def execCeilingChange (s : State) : Out :=
  .next <|
    match s.wbf.ceilNext with
    | none => s
    | some c =>
      if c = s.wbf.ceil then s.setWbf { s.wbf with ceilNext := none }
      else
        let s := (s.setWbf { s.wbf with ceil := c, ceilNext := none }).ev eWBF_CEIL_CHANGE
        if ackSlots s > c * 252 then
          if s.wbf.dropping then s
          else ((s.setWbf { s.wbf with dropping := true }).ev eWBF_CEIL_DROP).raise lWBF_CEIL_DROP none
            [p4 c, p4 (ackSlots s)]
        else s.setWbf { s.wbf with dropping := false }

/-- Every host target that holds granules is to be closed with pad. -/
def closeAll (s : State) : State :=
  ((s.wbf.targets.map Prod.fst).filter fun t => (ctlStream t).isNone && targetHolds s t).foldl
    (fun s t => markClose s t (s.target t).fn false) s

/-- WRITE_THROUGH_ENTER (R87, R192). -/
def execWriteThroughEnter (s : State) : Out :=
  .next <|
    if !s.qmx.wthruArm then s
    else
      let s := s.setQmx { s.qmx with wthruArm := false, wthru := true, wthruOff := false }
      let s := s.setFns (Tbl.map s.fns fun _ x => { x with cur := { x.cur with flags := x.cur.flags ||| 4 } })
      (closeAll s).ev eQMX_WTHRU

/-- WRITE_THROUGH_EXIT: usable hold-up yields a ceiling above the slots that hold acknowledged data (R193). -/
def execWriteThroughExit (s : State) : Out :=
  .next <|
    if s.qmx.wthru ∧ s.qmx.wthruOff ∧ slotsTotal s > ackSlots s then
      (s.setQmx { s.qmx with wthru := false, wthruOff := false }).ev eQMX_WTHRU
    else s

end Sys2Proof.Machine
end

