-- ==== Sys2Proof/Machine/Engines.lean ====
section
/-! DEFINITION. The engine pool: grants, preemption, stalls and promotion of decoder and cipher jobs (08 R266-R268;
09 R281, R282; 13 R391-R393), and the arrival of read codewords at their jobs. -/

namespace Sys2Proof.Machine

open Sys2Proof

/-! ## Order -/

/-- Insert before the first element of a greater key. -/
def insertBy {α : Type} (key : α → Nat) (x : α) : List α → List α
  | [] => [x]
  | y :: r => if key x < key y then x :: y :: r else y :: insertBy key x r

/-- A list in rising order of a key; equal keys keep their order. -/
def sortBy {α : Type} (key : α → Nat) (l : List α) : List α := l.foldl (fun a x => insertBy key x a) []

/-! ## Capacity (R266, R269, R281, R282, R391) -/

def engNo : EngKind → Nat
  | .hard => 0
  | .soft => 1
  | .cip => 2

/-- Hard decoders that the throttle level leaves: 48, 48, 36, 24, 12 of the full pool (R269). -/
def hardDecoders (s : State) : Nat :=
  let n := s.rd rLDC_HARD_AVAIL
  match s.stp.throttle with
  | 0 | 1 => n
  | 2 => n * 3 / 4
  | 3 => n / 2
  | _ => n / 4

/-- Jobs of a kind that one stride's plan grants. -/
def engCap (s : State) : EngKind → Nat
  | .hard => 6 * hardDecoders s
  | .soft => s.rd rLDC_SOFT_AVAIL
  | .cip => 48 * s.cip.lanes

def engUsed (s : State) (k : EngKind) : Nat := Tbl.getD s.stp.engUsed (engNo k) 0

def engStalls (s : State) : Nat := (s.stp.engs.filter fun j => j.state == .stalled).length

def State.setEngs (s : State) (l : List EngJob) : State := s.setStp { s.stp with engs := l }

def State.updEng (s : State) (id : Nat) (g : EngJob → EngJob) : State :=
  s.setEngs (s.stp.engs.map fun j => if j.id = id then g j else j)

/-- Jobs of one kind that one engine takes in a stride (R266). -/
def engLoad : EngKind → Nat
  | .hard => 6
  | .soft => 1
  | .cip => 48

/-- The engine that takes the next job of a kind: the lowest-numbered one with room in this stride (DEDUCED: the spec
gives the pool one capacity and does not say which engine takes a job). -/
def engPick (s : State) (k : EngKind) : Nat :=
  let load (n : Nat) : Nat := (s.stp.engs.filter fun j => decide (j.kind = k) && j.state == .running && j.eng == n).length
  ((List.range 48).find? fun n => decide (load n < engLoad k)).getD 0

/-- A job runs in the stride in progress; a message that was suspended takes its context back (R392). -/
def engRun (s : State) (j : EngJob) : State :=
  let s := if j.long && j.state == .stalled && decide (j.done > 0) then
      s.setCip { s.cip with ctxUsed := s.cip.ctxUsed - 1 } else s
  let n := engPick s j.kind
  s.updEng j.id fun j => { j with state := .running, eng := n, since := 0, age := 0 }

/-- Count one grant of a kind in this stride. -/
def engCount (s : State) (k : EngKind) : State :=
  s.setStp { s.stp with engUsed := Tbl.set s.stp.engUsed (engNo k) (engUsed s k + 1) }

/-- A job without a grant enters a stall, or stays with its work when all 256 are taken (R268). -/
def engStall (s : State) (id : Nat) : State :=
  if engStalls s < 256 then s.updEng id fun j => { j with state := .stalled }
  else (s.updEng id fun j => { j with state := .waiting }).ev eSTP_ENG_FULL

/-- The running job that a job of rank `r` preempts: of strictly worse rank, not promoted; the worst rank, the
youngest among equals (R267). -/
def engVictim (s : State) (k : EngKind) (r : Nat) : Option EngJob :=
  (s.stp.engs.filter fun j => decide (j.kind = k) && j.state == .running && decide (j.rank > r) && !j.promoted).foldl
    (fun (a : Option EngJob) j => match a with
      | none => some j
      | some b => if j.rank > b.rank ∨ (j.rank = b.rank ∧ j.since ≤ b.since) then some j else some b) none

/-- A preempted job: its partial result is discarded, or a message's context is saved (R267, R392). -/
def engPreempt (s : State) (v : EngJob) : State :=
  let s := s.bump rSTP_ENG_PREEMPT 1
  let s := if v.long then
      let s := s.setCip { s.cip with ctxUsed := s.cip.ctxUsed + 1 }
      (s.bump rCIP_SUSPEND 1).updEng v.id fun j => { j with done := max j.done 1 }
    else
      let s := if v.kind = .cip then s.bump rCIP_RESTART 1 else s
      s.updEng v.id fun j => { j with done := 0 }
  engStall s v.id

/-- A message is not preempted while all 64 contexts are in use (R392). -/
def noContext (s : State) (v : EngJob) : Bool := v.long && decide (s.cip.ctxUsed ≥ 64)

/-- A job asks for an engine: a free one, one that it preempts, or a stall (R266-R268). -/
def engTry (s : State) (j : EngJob) : State :=
  if engUsed s j.kind < engCap s j.kind then engRun (engCount s j.kind) j
  else match engVictim s j.kind j.rank with
    | some v =>
      if noContext s v then engStall ((s.bump rCIP_CTX_FULL 1).ev eCIP_CTX_FULL) j.id
      else engRun (engPreempt s v) j
    | none => engStall s j.id

/-- A new job. A hard decode and a cipher job ask at once; a soft decode waits for the plan of the next stride (R282), and
under a hold plan every job waits (R40). -/
def engOffer (s : State) (kind : EngKind) (rank : Nat) (tag : JobTag) (owner : Owner) (long : Bool) : State :=
  let j : EngJob := { id := s.stp.nextJob, kind := kind, rank := rank, tag := tag, owner := owner, state := .waiting,
                      age := 0, promoted := false, since := 0, eng := 0, long := long, done := 0 }
  let s := s.setStp { s.stp with engs := s.stp.engs ++ [j], nextJob := s.stp.nextJob + 1 }
  if kind = .soft ∨ planHeld s then s else engTry s j

/-- A job of a stale epoch (R119). -/
def tagStale (s : State) (t : JobTag) : Bool := !t.pinned && decide (t.epoch ≠ (s.fn t.fn).epoch)

/-- A job that leaves the pool gives its context back (R393). -/
def engDrop (s : State) (j : EngJob) : State :=
  let s := if j.long && j.state == .stalled && decide (j.done > 0) then
      s.setCip { s.cip with ctxUsed := s.cip.ctxUsed - 1 } else s
  s.setEngs (s.stp.engs.filter fun k => k.id != j.id)

/-- The job that a result of an engine of kind `k` ends, if it runs. -/
def engFor (s : State) (k : EngKind) (owner : Owner) : Option EngJob :=
  s.stp.engs.find? fun j => decide (j.kind = k) && j.state == .running && j.owner == owner

/-- Order of grants: promoted jobs oldest first, then by rank, then by age (R268). -/
def engKey (j : EngJob) : Nat :=
  if j.promoted then 1000000 - min j.age 1000000 else 1000000 * (j.rank + 1) + (999999 - min j.age 999999)

/-- The grants of a stride's plan: running jobs keep their engine, stalls age, and jobs that have none are granted in
order; a stale job in a stall is dropped when its turn comes (R266, R268). -/
def engGrants (s : State) : State :=
  let age (j : EngJob) : EngJob := match j.state with
    | .running => { j with since := j.since + 1 }
    | .stalled => { j with age := j.age + 1 }
    | .waiting => j
  let s := s.setEngs (s.stp.engs.map age)
  let runs (k : EngKind) : Nat := (s.stp.engs.filter fun j => decide (j.kind = k) && j.state == .running).length
  let s := s.setStp { s.stp with engUsed := [(0, runs .hard), (1, runs .soft), (2, runs .cip)] }
  (sortBy engKey (s.stp.engs.filter fun j => j.state != .running)).foldl (fun s j =>
    if tagStale s j.tag then engDrop s j
    else if j.state == .stalled && decide (engUsed s j.kind ≥ engCap s j.kind) && (engVictim s j.kind j.rank).isNone
    then s
    else engTry s j) s

/-- ENG_STALL_PROMOTE: a job whose age in its stall has come to ENG_AGE_LIMIT is promoted to rank 0 (R268). -/
def execEngStallPromote (id : Nat) (s : State) : Out :=
  .next <|
    match s.stp.engs.find? fun j => j.id == id with
    | some j =>
      if j.state = .stalled ∧ !j.promoted ∧ j.age ≥ s.rd rSTP_ENG_AGE_LIMIT then
        (s.updEng id fun j => { j with promoted := true, rank := 0 }).bump rSTP_ENG_PROMOTED 1
      else s
    | none => s

/-! ## Arrival of codewords -/

def State.job? (s : State) (id : Nat) : Option RdJob := s.stp.reads.find? fun j => j.id == id

def State.updJob (s : State) (id : Nat) (g : RdJob → RdJob) : State :=
  s.setStp { s.stp with reads := s.stp.reads.map fun j => if j.id = id then g j else j }

def State.updMember (s : State) (id pos : Nat) (g : MemberRead → MemberRead) : State :=
  s.updJob id fun j => { j with members := j.members.map fun m => if m.pos = pos then g m else m }

/-- Gait rank of a job's reads (R249). -/
def jobRank (j : RdJob) : Nat := j.gait + 1

/-- The codewords of one member have transferred: a decoder is asked for (R282). -/
def memberArrives (s : State) (id pos : Nat) (soft : Bool) : State :=
  match s.job? id with
  | none => s
  | some j =>
    let s := s.updMember id pos fun m => { m with arrived := true }
    engOffer s (if soft then .soft else .hard) (jobRank j) j.tag (.read id pos) false

/-- A READ or READ_RUN has completed with OK: each of its codewords goes to its job. A run of `count` codewords of one
command carries the first job's number and member 255. -/
def arrive (s : State) (x : Desc) : State :=
  match x.owner with
  | .read id m =>
    if m = 255 then (List.range x.count).foldl (fun s k => match s.job? (id + k) with
      | some j => match j.members with
        | [d] => memberArrives s (id + k) d.pos false
        | _ => s
      | none => s) s
    else memberArrives s id m (x.soft ≥ 2)
  | _ => s

end Sys2Proof.Machine
end

