-- ==== Sys2Proof/Machine/Nand.lean ====
section
/-! DEFINITION. What goes over a flash channel's bus and through its rings, byte by byte: the NAND command subset (07
R200-R202), the descriptor and completion record layouts (R208, R211), and the intent record (R227). -/

namespace Sys2Proof.Machine

open Sys2Proof

/-! ## The NAND command subset (R201) -/

/-- ONFI 5.1 sequence of a die function: its command bytes, address and data cycles left out (R201). The sequences of
the die profile stand in its own fields (R202). -/
def onfiBytes (p : Profile) : NandFn → List Byte
  | .reset => [0xFF]
  | .resetLun => [0xFA]
  | .syncReset => [0xFC]
  | .readId => [0x90]
  | .readUniqueId => [0xED]
  | .readParam => [0xEC]
  | .status => [0x70]
  | .statusEnhanced => [0x78]
  | .readPage => [0x00, 0x30]
  | .readMulti => [0x00, 0x32]
  | .cacheNext => [0x31]
  | .cacheEnd => [0x3F]
  | .columnOut => [0x06, 0xE0]
  | .program => [0x80, 0x10]
  | .programMulti => [0x80, 0x11]
  | .columnIn => [0x85]
  | .erase => [0x60, 0xD0]
  | .eraseMulti => [0x60, 0xD1]
  | .getFeature => [0xEE]
  | .setFeature => [0xEF]
  | .getFeatureLun => [0xD4]
  | .setFeatureLun => [0xD5]
  | .zqLong => [0xF9]
  | .zqShort => [0xD9]
  | .trainRead => [0x62]
  | .trainWriteTx => [0x63]
  | .trainWriteRx => [0x64]
  | .oneShot => p.oneShot
  | .progSuspend => p.progSuspend
  | .progResume => p.progResume
  | .eraseSuspend => p.eraseSuspend
  | .eraseResume => p.eraseResume
  | .pslcEntry => p.pslcEntry
  | .pslcExit => p.pslcExit
  | .raw step => if step.extractLsb' 8 2 = 0 then [step.setWidth 8] else []

/-- Number of a die function in a profile's own sequences. -/
def fnNumber (f : NandFn) : Nat := f.ctorIdx

/-- Command bytes of a function on a die of a profile: ONFI's, or under Toggle DDR the JESD230 sequence for the same
function, where the profile names one for a function that the die lacks, that one (R201). -/
def nandBytes (p : Profile) (f : NandFn) : List Byte :=
  if p.iface = 3 then
    match Tbl.get p.ownSeq (fnNumber f) with
    | some b => b
    | none => Config.jedecBytes (fnNumber f)
  else onfiBytes p f

/-- Planes that an operation addresses: for a read those of its codewords, with all of a run's page groups; for others
all of the die's (R208, R210, R219). -/
def planesUsed (g : Geom) (x : Desc) : Nat :=
  let size := max (4 * g.planes) 1
  let first := x.mga % size
  if x.pslc ∨ x.typ = .eraseIntent then 1
  else if x.typ = .read then (first + x.count - 1) / 4 - first / 4 + 1
  else g.planes

/-- One entry for each plane but the last, then the last's. -/
def onPlanes (n : Nat) (multi last : NandFn) : List NandFn := List.replicate (n - 1) multi ++ [last]

/-- The steps of a RAW descriptor: eight of 2 B, of which 0x0000 ends the list (R210). -/
def rawSteps (param : BitVec 128) : List (BitVec 16) :=
  ((List.range 8).map fun k => param.extractLsb' (16 * k) 16).takeWhile (· != 0)

/-- Entries that the start of a descriptor puts into its command group, on a die whose thresholds are set to `thresh`
(R201, R210, R214, R217, R219): a read selects its LUN by Read Status Enhanced. -/
def startFns (p : Profile) (g : Geom) (thresh : Nat) (x : Desc) : List NandFn :=
  let n := planesUsed g x
  match x.typ with
  | .read | .readRun =>
    (if x.thresh ≠ thresh then [.setFeatureLun] else []) ++ .statusEnhanced :: onPlanes n .readMulti .readPage
  | .program =>
    if x.pslc then .pslcEntry :: onPlanes n .programMulti .program ++ [.pslcExit]
    else if p.oneShot.isEmpty then onPlanes n .programMulti .program else [.oneShot]
  | .eraseIntent => [.pslcEntry, .program, .pslcExit]
  | .erase => onPlanes n .eraseMulti .erase
  | .status => [.statusEnhanced]
  | .feature =>
    [match x.param.getLsbD 8, x.param.getLsbD 9 with
      | false, false => .getFeature
      | true, false => .setFeature
      | false, true => .getFeatureLun
      | true, true => .setFeatureLun]
  | .reset => [match x.param.toNat % 4 with | 0 => .resetLun | 1 => .reset | _ => .syncReset]
  | .raw => (rawSteps x.param).map NandFn.raw
  | .free => []

/-- Suspend and resume of an operation (R202, R214). -/
def suspendFn (x : Desc) : NandFn := if x.typ = .erase then .eraseSuspend else .progSuspend
def resumeFn (x : Desc) : NandFn := if x.typ = .erase then .eraseResume else .progResume

/-! ## Descriptors (R208-R210) -/

/-- A job tag as 20 bits (R118). -/
def JobTag.bits (t : JobTag) : Nat := t.fn % 256 + 2 ^ 8 * (t.epoch % 256) + (if t.pinned then 2 ^ 16 else 0)

/-- The physical form of the address field. -/
def physAddr (x : Desc) : Nat :=
  x.block % 2 ^ 14 + 2 ^ 14 * (x.wl % 2 ^ 11) + 2 ^ 25 * (x.page % 8) + 2 ^ 28 * (x.plane % 8) + 2 ^ 31 * (x.cw % 4)

/-- The address field: physical form with PSLC, for ERASE_INTENT and RAW, else MGA form. -/
def addrField (x : Desc) : Nat :=
  if x.pslc ∨ x.typ = .eraseIntent ∨ x.typ = .raw then physAddr x else x.mga

/-- Bytes 0-59 of a descriptor (R208). -/
def Desc.bytes (x : Desc) : List Byte :=
  let ctl := x.typ.ctorIdx + (if x.chain then 16 else 0) + (if x.rein then 32 else 0) + (if x.diag then 64 else 0)
  let cls := x.gait % 4 + 4 * (x.cls % 8) + (if x.pslc then 32 else 0)
  leBytes 1 ctl ++ leBytes 1 cls ++ leBytes 3 x.tag.bits ++ leBytes 1 x.planes.toNat ++ leBytes 2 x.die ++
    leBytes 4 x.earliest.toNat ++ leBytes 5 (addrField x) ++ zeros 1 ++ leBytes 2 x.count ++ leBytes 3 x.buflist ++
    leBytes 1 x.thresh ++ leBytes 1 x.soft ++ zeros 7 ++ leBytes 16 x.param.toNat ++ zeros 12

/-- A descriptor with the CRC-32 of its bytes. -/
def Desc.sealed (x : Desc) : Desc := { x with crc := crc32 x.bytes }

/-- Values that the type table allows (R204, R208, R210): REIN on a READ only, no reserved SOFT value, COUNT and PARAM in
their ranges; a READ stays in one page group. -/
def Desc.legal (g : Geom) (x : Desc) : Bool :=
  let size := 4 * g.planes
  let low (n : Nat) : Bool := x.param.toNat < 2 ^ n
  (!x.rein || x.typ == .read) && decide (x.soft = 0 ∨ x.soft = 2 ∨ x.soft = 3) &&
  match x.typ with
  | .free => true
  | .read => decide (1 ≤ x.count ∧ x.mga % max size 1 + x.count ≤ size) && low 0
  | .readRun => decide (1 ≤ x.count ∧ x.count ≤ 256) && low 0
  | .program => x.count == (if x.pslc then size else g.bits * size) && low 0
  | .erase => x.count == 0
  | .eraseIntent => x.count == 0 && low 64 && decide (x.param.toNat / 2 ^ 12 % 16 = 0 ∧ x.param.toNat / 2 ^ 30 % 4 = 0)
  | .status => x.count == 0 && low 0
  | .feature => x.count == 0 && low 64 && decide (x.param.toNat / 2 ^ 10 % 2 ^ 22 = 0)
  | .reset => x.count == 0 && decide (x.param.toNat < 3)
  | .raw => x.diag && decide (x.count ≤ 4608)

/-- An entry passes the checks of its first consideration: its CRC, its values and its die (R204). -/
def Desc.passes (g : Geom) (d : Nat) (x : Desc) : Bool := x.crc == crc32 x.bytes && x.legal g && x.die == d

/-! ## Completion records (R211) -/

/-- The 16 B of a completion record. -/
def CRec.bytes (r : CRec) : List Byte :=
  let flags := (if r.reined then 1 else 0) + (if r.discarded then 2 else 0) + (if r.requeued then 4 else 0) +
    (if r.slow then 8 else 0) + 16 * r.typ.ctorIdx
  leBytes 2 (r.slot % 64 + 64 * (r.pos % 32)) ++ leBytes 1 r.status.ctorIdx ++ leBytes 1 flags ++
    leBytes 3 r.tag.bits ++ [r.dstat] ++ leBytes 2 r.done ++ leBytes 1 (min r.req 255) ++ leBytes 1 (min r.reins 255) ++
    leBytes 4 r.endTick.toNat

/-! ## Pages (R272-R274) -/

/-- A page of native word lines: codeword c at bytes 4,608 c, scrambled for its place, and 0xFF in what the die's spare area
has beyond 18,432 B (R273, R274). -/
def pageBytes (spare block wl page plane : Nat) (words : List (BitVec 36864)) : List Byte :=
  (words.zipIdx.flatMap fun w => bytesOf 4608 (scramble (scrambleSeed block wl page plane w.2) w.1)) ++
    List.replicate (spare - 2048) 0xFF

/-- What die `d` holds in a page of its native blocks: four codewords, once its program unit has been programmed. -/
def pageImage (s : State) (d block wl page plane : Nat) : Option (List Byte) :=
  let y := s.die d
  let first := mgaOf s d block wl (page * y.geom.planes * 4 + plane * 4)
  let words := (List.range 4).filterMap fun c => (Tbl.get s.fch.media (first + c)).map codeword
  if words.length = 4 then some (pageBytes y.spare block wl page plane words) else none

/-! ## Threshold tables (R284) -/

/-- A threshold table entry, 16 B: signed offsets of read levels 1-15, and 0. -/
def ThreshEntry.bytes (x : ThreshEntry) : List Byte :=
  (List.range 15).map (fun k => BitVec.ofInt 8 (x.offsets.getD k 0)) ++ [0]

/-! ## Journal records (R309) -/

/-- The 64 B of a journal record. -/
def JRec.bytes (r : JRec) : List Byte :=
  let b := leBytes 1 r.typ ++ leBytes 1 r.stream ++ leBytes 2 r.row ++ leBytes 4 r.span ++ leBytes 6 r.jseq ++ zeros 2 ++
    leBytes 4 r.serial ++ bytesOf 36 r.body ++ zeros 4
  b ++ leBytes 4 (crc32 b).toNat

/-- A codeword of a journal block holds 64 records (R308). -/
def journalWord (rs : List JRec) : List Byte := (rs.take 64).flatMap JRec.bytes

/-! ## Intent records (R227) -/

/-- Bytes 0-59 of an intent or done record of die `d`. -/
def IntentRec.bytes (d : Nat) (r : IntentRec) : List Byte :=
  [0x51, 0x48, 0x49, 0x4E] ++ leBytes 1 (if r.done then 2 else 1) ++ [r.flags] ++ leBytes 2 (r.block % 2 ^ 14) ++
    leBytes 6 r.recSeq ++ leBytes 2 (d % 1024) ++ leBytes 4 r.eraseCount ++ leBytes 1 r.reason ++ zeros 3 ++
    leBytes 8 r.seconds ++ leBytes 3 r.pcycle ++ zeros 25

/-- The 64 B page content of a record. -/
def IntentRec.page (d : Nat) (r : IntentRec) : BitVec 512 :=
  let b := r.bytes d
  BitVec.ofNat 512 (leNat (b ++ leBytes 4 (crc32 b).toNat))

/-- Field of a 64 B page: `n` bytes from `off`. -/
def pageField (p : BitVec 512) (off n : Nat) : Nat := p.toNat / 256 ^ off % 256 ^ n

/-- The record of a page, when its magic, its die and its CRC fit (R231). -/
def readIntent (d : Nat) (p : BitVec 512) : Option IntentRec :=
  if pageField p 0 4 = leNat [0x51, 0x48, 0x49, 0x4E] ∧ pageField p 14 2 = d % 1024 ∧
      pageField p 60 4 = (crc32 (bytesOf 60 p)).toNat ∧ (pageField p 4 1 = 1 ∨ pageField p 4 1 = 2) then
    some { done := decide (pageField p 4 1 = 2), flags := BitVec.ofNat 8 (pageField p 5 1), block := pageField p 6 2,
           recSeq := pageField p 8 6, eraseCount := pageField p 16 4, reason := pageField p 20 1,
           seconds := pageField p 24 8, pcycle := pageField p 32 3 }
  else none

end Sys2Proof.Machine
end

