-- ==== Sys2Proof/Machine/Flash.lean ====
section
/-! DEFINITION. Flash channel controllers: rings, starts, completions, reins, intent records, the channel arbiter,
timeouts, retraining and the pin test (07 R200-R245, R560). -/

namespace Sys2Proof.Machine

open Sys2Proof

/-! ## Rings (R203-R207) -/

/-- Die position on its channel. -/
def diePos (d : Nat) : Nat := d % 32

/-- Occupied ring slots, oldest first. -/
def ringOrder (x : Die) : List (Nat × Desc) :=
  (List.range 64).filterMap fun k =>
    let i := (x.next + k) % 64
    (Tbl.get x.ring i).map fun d => (i, d)

/-- STP writes a descriptor into the die's next free entry; not in the plan in force (R204, R206). It is due `ahead`
strides ahead, or one stride later when it is written after the commit. -/
def pushDesc (s : State) (d : Nat) (x : Desc) (ahead : Nat) : State :=
  let y := s.die d
  match (List.range 64).find? fun k => (Tbl.get y.ring ((y.next + k) % 64)).isNone with
  | none => s
  | some k =>
    let i := (y.next + k) % 64
    let due := s.fch.tick + BitVec.ofNat 32 (max ahead (if s.stp.committed then 2 else 1))
    let x := Desc.sealed { x with planned := false, earliest := due, buflist := (Config.bufList d i).toNat }
    s.setDie d { y with ring := Tbl.set y.ring i x, next := (i + 1) % 64 }

/-- Free entries of a die's ring. -/
def ringRoom (s : State) (d : Nat) : Nat := 64 - (s.die d).ring.length

/-- A descriptor with nothing set. -/
def Desc.blank : Desc :=
  { typ := .free, chain := false, rein := false, diag := false, gait := 0, cls := 0, pslc := false,
    tag := { fn := 0, epoch := 0, pinned := false }, planes := 0, die := 0, earliest := 0, mga := 0, block := 0,
    wl := 0, page := 0, plane := 0, cw := 0, count := 0, buflist := 0, thresh := 0, soft := 0, param := 0, crc := 0,
    requeued := 0, putBack := false, planned := false, owner := .none }

/-- Due in the stride in progress (R205). -/
def descDue (s : State) (x : Desc) : Bool := decide ((s.fch.tick - x.earliest).toNat < 2 ^ 31)

def isRead (t : OpType) : Bool := t == .read || t == .readRun
def yields (t : OpType) : Bool := t == .program || t == .erase || t == .eraseIntent

/-- Nothing ahead of ring entry `i` holds it back: no chain it follows, and no earlier due entry that it may not pass
(R207). -/
def mayPass (s : State) (x : Die) (i : Nat) (t : OpType) : Bool :=
  let ahead := (ringOrder x).takeWhile fun p => p.1 != i
  let inOp := fun (p : Nat × Desc) => (x.op.map DieOp.slot == some p.1) || (x.reinRead.map DieOp.slot == some p.1)
  !(ahead.getLast?.any fun p => p.2.chain) &&
    ahead.all fun p => inOp p || !descDue s p.2 || (isRead t && yields p.2.typ)

/-- Native block that a descriptor addresses, on its die (R208). -/
def descBlock (s : State) (x : Desc) : Nat :=
  if x.pslc ∨ x.typ = .raw then x.block
  else if x.typ = .eraseIntent then (x.param >>> 16).toNat % 16384
  else (mgaParts s x.mga).block

/-- The die's erase, running or reined, targets the block (R229). -/
def underErase (s : State) (x : Die) (b : Nat) : Bool :=
  match x.op with
  | some o => o.desc.typ == .erase && descBlock s o.desc == b
  | none => false

/-! ## Completion records (R211, R212) -/

/-- Data slots that an operation's codewords take: 2 or 3 for a codeword of a soft read (R213, R282). -/
def transfersOf (x : Desc) : Nat := x.count * (if x.soft ≥ 2 then x.soft else 1)

/-- Nominal and maximum run time of an operation in strides (R202, R215); a soft read takes one or three strides more
than tR (R287). -/
def nominal (p : Profile) (x : Desc) : Nat :=
  match x.typ with
  | .read | .readRun => p.tr + (if x.soft = 2 then 1 else if x.soft = 3 then 3 else 0)
  | .program => if x.pslc then p.slc else p.prog
  | .erase => p.erase
  | .eraseIntent => p.slc
  | .reset => p.reset
  | _ => 1

def maxTime (p : Profile) (x : Desc) : Nat :=
  match x.typ with
  | .read | .readRun => p.trMax
  | .program => if x.pslc then p.slcMax else p.progMax
  | .erase => p.eraseMax
  | .eraseIntent => p.slcMax
  | .reset => p.resetMax
  | _ => 2

/-- A completion record enters the channel's ring, or waits for a free record (R212). -/
def Chan.record (c : Chan) (r : CRec) : Chan :=
  if c.cring.length + c.reserved < 1024 && c.waiting.isEmpty then
    { c with cring := c.cring ++ [r], cringTail := (c.cringTail + 1) % 1024 }
  else { c with waiting := c.waiting ++ [r] }

/-- Count a completion status (R245). -/
def countStatus (s : State) (nn : Nat) (t : CStat) : State :=
  match t with
  | .programFail => (s.bumpAt rFCH_PROG_FAIL nn 0 1).evCh nn eFCH_PROG_FAIL
  | .eraseFail => (s.bumpAt rFCH_ERASE_FAIL nn 0 1).evCh nn eFCH_ERASE_FAIL
  | .timeout => (s.bumpAt rFCH_TIMEOUT nn 0 1).evCh nn eFCH_TIMEOUT
  | .underErase => s.bumpAt rFCH_UNDER_ERASE nn 0 1
  | .reinRefused => s.bumpAt rFCH_REFUSED nn 0 1
  | .busyLimit => s.bumpAt rFCH_BUSY_LIMIT nn 0 1
  | .badDesc => s.evCh nn eFCH_BAD_DESC
  | _ => s

/-- The record of ring entry `i` of die `d`, with what its operation reports. -/
def makeRec (s : State) (d i : Nat) (x : Desc) (t : CStat) (op : Option DieOp) (discarded : Bool) : CRec :=
  let run := (op.map DieOp.run).getD 0
  { slot := i, pos := diePos d, status := t, reined := decide ((op.map DieOp.reins).getD 0 > 0),
    discarded := discarded, requeued := x.putBack || decide (x.requeued > 0),
    slow := decide (2 * run > 3 * nominal (s.die d).profile x), typ := x.typ, tag := x.tag,
    dstat := (op.map DieOp.dstat).getD 0,
    done := (op.map DieOp.done).getD 0 / (if x.soft ≥ 2 then x.soft else 1), req := x.requeued,
    reins := (op.map DieOp.reins).getD 0, endTick := s.fch.tick, owner := x.owner, desc := x }

/-- Ring entry `i` completes: its record is written and the entry is free (R204, R211). -/
def completeEntry (s : State) (d i : Nat) (t : CStat) (op : Option DieOp) (discarded : Bool) : State :=
  let y := s.die d
  match Tbl.get y.ring i with
  | none => s
  | some x =>
    let r := makeRec s d i x t op discarded
    let s := s.setDie d { y with ring := Tbl.erase y.ring i }
    let nn := chanOf d
    let s := s.updChan nn fun c =>
      Chan.record (if op.isSome then { c with reserved := c.reserved - 1 } else c) r
    let s := if (s.chan nn).waiting.isEmpty then s else s.evCh nn eFCH_CRING_FULL
    let s := if t = .ok ∧ !discarded ∧ isRead x.typ then arrive s x else s
    countStatus s nn t

/-- The entries chained after `i`, up to and including the first without CHAIN (R207). -/
def chainAfter (x : Die) (i : Nat) : List Nat :=
  let rest := ((ringOrder x).dropWhile fun p => p.1 != i).drop 1
  let run := rest.takeWhile fun p => p.2.chain
  (run ++ ((rest.drop run.length).take 1)).map Prod.fst

/-- CHAIN_BROKEN: an entry with CHAIN that ends other than OK ends the rest of its chain (R207). -/
def finishEntry (s : State) (d i : Nat) (t : CStat) (op : Option DieOp) (discarded : Bool) : State :=
  let y := s.die d
  match Tbl.get y.ring i with
  | none => s
  | some x =>
    let rest := if x.chain ∧ t ≠ .ok then chainAfter y i else []
    let s := completeEntry s d i t op discarded
    rest.foldl (fun s k => completeEntry s d k .chainBroken none false) s

/-! ## Leaving service (R241, R242) -/

/-- FCH_DIE_OUT: the die leaves service; every entry of its ring completes with DIE_ABSENT; a channel without a die in
service leaves too. PAR takes it up at the next boundary. -/
def dieOut (s : State) (d : Nat) : State :=
  if !(s.die d).service then s
  else
    let y := s.die d
    let nn := chanOf d
    let held := (if y.op.any fun o => decide (o.slot < 64) then 1 else 0) + (if y.reinRead.isSome then 1 else 0)
    let s := s.updChan nn fun c => { c with reserved := c.reserved - held }
    let s := (ringOrder y).foldl (fun s p => completeEntry s d p.1 .dieAbsent none false) s
    let s := s.updDie d fun y => { y with service := false, op := none, reinRead := none, timeline := [], armed := none }
    let s := (s.evCh nn eFCH_DIE_OUT).raiseAt (64 + nn) lFCH_DIE_OUT none [p2 d] (some (diePos d))
    let s := s.setPar { s.par with lostArm := s.par.lostArm ++ [d] }
    if s.fch.dies.any fun p => chanOf p.1 == nn && p.2.service then s
    else
      let s := s.updChan nn fun c => { c with inService := false }
      (s.evCh nn eFCH_CH_OUT).raiseAt (64 + nn) lFCH_CH_OUT none [p4 nn] none

/-! ## Starts (R206, R212, R217-R228) -/

/-- A hold plan, a dump or a retraining channel starts nothing (R40, R239, R243). -/
def startsHeld (s : State) (nn : Nat) : Bool :=
  s.stp.hold || s.stp.stepHold || s.hld.dump != .idle || (s.chan nn).retraining

/-- The slot in progress is a command group with room for `k` more entries (R214). -/
def groupRoom (c : Chan) (k : Nat) : Bool := c.owner == some 32 && decide (c.group.length + k ≤ 8)

/-- Rank of work: its gait for host and read-around work and programs, 1 for dump and intent, 5 for background
(R233). -/
def descRank (x : Desc) : Nat :=
  if x.cls = 6 then 1 else if x.cls ≤ 1 then x.gait + 1 else 5

/-- Put an entry behind those of its rank and better (R214). -/
def insertEntry (e : CgEntry) : List CgEntry → List CgEntry
  | [] => [e]
  | x :: t => if e.rank < x.rank then e :: x :: t else x :: insertEntry e t

/-- Function whose meter and share work counts to, 256 for none. -/
def chargedFn (x : Desc) : Nat := if x.cls ≤ 1 then x.tag.fn else 256

/-- The work of a descriptor enters the command group in progress: one entry for each of its die functions. A slot that
carries its function's commands counts once in the function's meter (R124, R214). -/
def addGroup (s : State) (d : Nat) (x : Desc) (fns : List NandFn) : State :=
  let f := chargedFn x
  let first := !((s.chan (chanOf d)).group.any fun e => e.fn == f) && decide (f < 256) && !fns.isEmpty
  let s := s.updChan (chanOf d) fun c => { c with
    group := fns.foldl (fun g w => insertEntry { rank := descRank x, pos := diePos d, what := w, fn := f } g) c.group }
  if first then s.meter f fun m => { m with slots := m.slots + 1 } else s

/-- The entry `i` of die `d`, when it is of type `t` and may start now. -/
def startable (s : State) (d i : Nat) (t : OpType) : Option Desc :=
  let y := s.die d
  match Tbl.get y.ring i with
  | none => none
  | some x =>
    if x.typ = t && x.planned && descDue s x && !startsHeld s (chanOf d) && mayPass s y i t then some x else none

/-- No completion record is free on the channel: nothing starts (R212). -/
def noRecord (s : State) (nn : Nat) : Bool :=
  let c := s.chan nn
  decide (c.cring.length + c.reserved ≥ 1024) || !c.waiting.isEmpty

/-- Entries of the start of a descriptor on a die. -/
def startsOf (s : State) (d : Nat) (x : Desc) : List NandFn :=
  startFns (s.die d).profile (s.die d).geom (s.die d).thresh x

/-- An operation that begins. -/
def DieOp.start (i : Nat) (x : Desc) : DieOp :=
  { slot := i, desc := x, run := 0, since := 0, interval := 0, reins := 0, reinReads := 0, phase := .none, done := 0,
    ready := false, groups := 0, discard := false, dstat := 0 }

/-- An operation starts on a die; a completion record is reserved for it. A READ or READ_RUN sets the die's thresholds
when they differ (R217). -/
def startOp (s : State) (d i : Nat) (x : Desc) : State :=
  let fns := startsOf s d x
  let s := s.updChan (chanOf d) fun c => { c with reserved := c.reserved + 1 }
  let s := s.updDie d fun y =>
    { y with op := some (DieOp.start i x), thresh := if isRead x.typ then x.thresh else y.thresh }
  addGroup s d x fns

/-- Ring entry of a reset that FCH issues itself (R215, R210): none. -/
def noSlot : Nat := 64

/-- FCH resets a LUN without a descriptor: the die is busy until the reset is over. -/
def lunReset (s : State) (d kind : Nat) : State :=
  let x : Desc := { Desc.blank with typ := .reset, cls := 7, die := d, param := BitVec.ofNat 128 kind }
  s.updDie d fun y => { y with op := some (DieOp.start noSlot x) }

/-- Checks that complete an entry with no die action: a bad descriptor, a die out of service, a block under erase. -/
def preCheck (s : State) (d : Nat) (x : Desc) : Option CStat :=
  if !x.passes (s.die d).geom d then some .badDesc
  else if !(s.die d).service ∨ !(s.chan (chanOf d)).inService then some .dieAbsent
  else if (isRead x.typ ∨ x.typ = .program ∨ x.typ = .raw) ∧ underErase s (s.die d) (descBlock s x) then some .underErase
  else none

/-- RAW steps go in MNT slots, all other starts in command groups (R214, R232). -/
def slotFor (s : State) (d : Nat) (x : Desc) : Bool :=
  let c := s.chan (chanOf d)
  if x.typ = .raw then c.owner == some 33 && c.group.isEmpty else groupRoom c (startsOf s d x).length

/-- A start of type `t`: checked, then run by `go` when the die is free, its channel has a record and the slot in
progress has room. -/
def startWith (s : State) (d i : Nat) (t : OpType) (go : Desc → State → State) : State :=
  match startable s d i t with
  | none => s
  | some x =>
    match preCheck s d x with
    | some st => finishEntry s d i st none false
    | none =>
      if noRecord s (chanOf d) then s.evCh (chanOf d) eFCH_CRING_FULL
      else if (s.die d).op.isSome ∨ !slotFor s d x then s
      else go x s

/-- STATUS_ON_BUSY: the LUN reports busy; the read goes back to its entry for the next stride, or ends with BUSY_LIMIT
(R218). The command group returns the status byte in place of issuing the read. -/
def onBusy (s : State) (d i : Nat) (x : Desc) : State :=
  let nn := chanOf d
  let s := addGroup s d x [.statusEnhanced]
  if x.requeued ≥ s.rdAt rFCH_READ_REQ_MAX nn 0 then finishEntry s d i .busyLimit none false
  else
    let x := { x with requeued := x.requeued + 1, planned := false }
    (s.updDie d fun y => { y with ring := Tbl.set y.ring i x }).bumpAt rFCH_ON_BUSY nn 0 1

/-- Strides of nominal run time left. -/
def opLeft (y : Die) (o : DieOp) : Nat := nominal y.profile o.desc - o.run

/-- The operation's kind can be reined: a native PROGRAM whose data is in, or an ERASE (R221). -/
def reinKind (o : DieOp) : Bool :=
  (o.desc.typ == .program && !o.desc.pslc && decide (o.done ≥ o.desc.count)) || o.desc.typ == .erase

def reinCap (s : State) (nn : Nat) (o : DieOp) : Nat :=
  if o.desc.typ = .erase then s.rdAt rFCH_ERASE_CAP nn 0 else s.rdAt rFCH_PROG_CAP nn 0

def reinInterval (s : State) (nn : Nat) (o : DieOp) : Nat :=
  if o.desc.typ = .erase then s.rdAt rFCH_ERASE_INTERVAL nn 0 else s.rdAt rFCH_PROG_INTERVAL nn 0

/-- The cap is reached or the tail has begun: a REIN read is refused (R222). -/
def reinRefuses (s : State) (d : Nat) (o : DieOp) : Bool :=
  let nn := chanOf d
  !reinKind o || decide (o.reins ≥ reinCap s nn o) || decide (opLeft (s.die d) o ≤ s.rdAt rFCH_TAIL nn 0)

/-- Reinable in the stride in progress (R221). -/
def reinable (s : State) (d : Nat) (o : DieOp) : Bool :=
  !reinRefuses s d o && o.phase == .none && decide (o.interval ≥ reinInterval s (chanOf d) o)

/-- DESCRIPTOR_READ: die `d`, ring entry `i`; `busy` when the LUN reports busy (R217, R218, R222). -/
def execDescriptorRead (d i : Nat) (busy : Bool) (s : State) : Out :=
  .next <|
    match startable s d i .read, (s.die d).op with
    | some x, some o =>
      if (preCheck s d x).isNone ∧ x.rein ∧ reinKind o ∧ o.phase = .none ∧ reinRefuses s d o then
        finishEntry s d i .reinRefused none false
      else startWith s d i .read fun _ s => s
    | _, _ => startWith s d i .read fun x s => if busy then onBusy s d i x else startOp s d i x

/-- DESCRIPTOR_READ_RUN: it must not cross a block boundary (R210, R219). -/
def execDescriptorReadRun (d i : Nat) (busy : Bool) (s : State) : Out :=
  .next <| startWith s d i .readRun fun x s =>
    if (mgaParts s x.mga).block ≠ (mgaParts s (x.mga + x.count - 1)).block then
      finishEntry s d i .badDesc none false
    else if busy then onBusy s d i x else startOp s d i x

/-- DESCRIPTOR_PROGRAM: the transfer of its codewords begins (R210, R213). -/
def execDescriptorProgram (d i : Nat) (s : State) : Out :=
  .next <| startWith s d i .program fun x s =>
    let s := startOp s d i x
    match x.owner with
    | .pu st ser m => s.updPuAt st ser m fun u => { u with state := .sent }
    | _ => s

/-- INTENT_BLOCK_SWITCH: with no free page the standby becomes active and the old block is to be erased (R226). -/
def intentPage (s : State) (d : Nat) : State :=
  let y := s.die d
  if y.intentFree > 0 then s
  else
    let s := s.setDie d { y with intentAct := y.intentStby, intentStby := y.intentAct, intentFree := wordLines s }
    queuePslcErase s d y.intentAct 4

/-- DESCRIPTOR_ERASE_INTENT: the intent record is built and programmed (R227, R228). -/
def execDescriptorEraseIntent (d i : Nat) (s : State) : Out :=
  .next <| startWith s d i .eraseIntent fun x s => startOp (intentPage s d) d i x

/-- An armed erase starts in a dim window; in a lit one it waits, or breaks it under R61's conditions: `armReason` 2 is the
dump reserve's (R227). -/
def startErase (s : State) (d i : Nat) (x : Desc) : State :=
  if dimNow s then startOp s d i x
  else if heavyExcused s ∨ (s.die d).armReason % 256 = 2 then startOp (breakWindow s) d i x
  else s

/-- DESCRIPTOR_ERASE: the die must be armed for the block (R228), and the window dim (R61). -/
def execDescriptorErase (d i : Nat) (s : State) : Out :=
  .next <| startWith s d i .erase fun x s =>
    if (s.die d).armed = some (descBlock s x) then startErase s d i x
    else finishEntry s d i .noIntent none false

/-- An operation that reports at once: its record carries the status byte. -/
def instantOp (s : State) (d i : Nat) (x : Desc) (dstat : BitVec 8) (done : Nat) : State :=
  let s := startOp s d i x
  let op := (s.die d).op.map fun o => { o with dstat := dstat, done := done, ready := true }
  finishEntry (s.updDie d fun y => { y with op := none }) d i .ok op false

/-- DESCRIPTOR_STATUS: returns the die's enhanced status byte (R210). -/
def execDescriptorStatus (d i : Nat) (dstat : BitVec 8) (s : State) : Out :=
  .next <| startWith s d i .status fun x s => instantOp s d i x dstat 0

/-- DESCRIPTOR_FEATURE: Get or Set Features; a Get of the temperature feature gives the die's temperature `value`
(R201, R210, R455). -/
def execDescriptorFeature (d i : Nat) (value : Int) (s : State) : Out :=
  .next <| startWith s d i .feature fun x s =>
    let s := instantOp s d i x 0 0
    if x.param.getLsbD 8 ∨ x.param.setWidth 8 ≠ (s.die d).profile.tempAt then s
    else s.updDie d fun y => { y with temp := value }

/-- Every LUN of the die's chip enable is idle (R210). -/
def ceIdle (s : State) (d : Nat) : Bool :=
  s.fch.dies.all fun p => p.1 / 4 != d / 4 || p.2.op.isNone

/-- DESCRIPTOR_RESET: kind 00 the LUN, 01 and 10 every LUN of the chip enable, once all are idle; 11 is reserved. -/
def execDescriptorReset (d i : Nat) (s : State) : Out :=
  .next <| startWith s d i .reset fun x s =>
    let kind := x.param.toNat % 4
    if kind = 3 then finishEntry s d i .badDesc none false
    else if kind ≠ 0 ∧ !ceIdle s d then s
    else
      let s := startOp s d i x
      if kind = 0 then s
      else ((s.fch.dies.map Prod.fst).filter fun e => e / 4 == d / 4 && e != d).foldl (fun s e => lunReset s e kind) s

/-- What a Raw Media Read answers: the 4,608 B descrambled, or with DECODE the 4,128 info bytes of a hard decode and
480 zero bytes; a decode that fails, or an erased codeword (R559), is an Unrecovered Read Error (R328). -/
def rawAnswer (s : State) (x : Desc) (seq : Nat) (decode : Bool) (data : BitVec 36864) (dec : Option Info) : State :=
  let plain := scramble (scrambleSeed x.block x.wl x.page x.plane x.cw) data
  if decode then
    match (if erasedWord data then none else dec) with
    | some i => (s.answer (.bytes (bytesOf 4128 i ++ zeros 480))).finish seq stOk
    | none => s.finish seq stUnrecovered
  else (s.answer (.bytes (bytesOf 4608 plain))).finish seq stOk

/-- DESCRIPTOR_RAW: with DIAG set, on a die with no operation; `data` is what the die returns and `dec` what a hard
decode of it gives (R210, R328). -/
def execDescriptorRaw (d i : Nat) (data : BitVec 36864) (dec : Option Info) (s : State) : Out :=
  .next <| startWith s d i .raw fun x s =>
    let s := instantOp s d i x 0 x.count
    match x.owner with
    | .diag seq decode => rawAnswer s x seq decode data dec
    | _ => s.answer (.bytes (bytesOf x.count data))

/-! ## Operations (R215, R221, R228-R230) -/

/-- Codewords of a run before its first page group's first one that the group holds (R219). -/
def groupOffset (s : State) (x : Desc) : Nat := x.mga % max (4 * s.rd rMAP_PLANES) 1

/-- Page groups of a READ_RUN (R219). -/
def runGroups (s : State) (x : Desc) : Nat :=
  let g := max (4 * s.rd rMAP_PLANES) 1
  (groupOffset s x + x.count + g - 1) / g

/-- Codewords of a read whose data the die's cache register holds or has held: all of a READ's once its array read is
done, a READ_RUN's by page groups (R219). -/
def readable (s : State) (o : DieOp) : Nat :=
  if o.desc.typ = .readRun then min o.desc.count (o.groups * max (4 * s.rd rMAP_PLANES) 1 - groupOffset s o.desc)
  else if o.ready then transfersOf o.desc else 0

/-- A job is stale: unpinned, of another epoch than its function's (R119). -/
def staleTag (s : State) (t : JobTag) : Bool := !t.pinned && decide (t.epoch ≠ (s.fn t.fn).epoch)

/-- A read whose array read is polled ready: a READ_RUN moves the group to the cache register and reads the next, once the
group before is transferred (R219); a stale job transfers nothing (R217). -/
def arrayDone (s : State) (o : DieOp) (dstat : BitVec 8) : DieOp :=
  let o := { o with dstat := dstat, discard := o.discard || staleTag s o.desc.tag }
  if o.desc.typ = .readRun then
    { o with groups := o.groups + 1, since := o.run, ready := decide (o.groups + 1 ≥ runGroups s o.desc) }
  else { o with ready := true }

/-- The array time of an operation has reached its nominal end, and, for a READ_RUN, the cache register is free. -/
def pollDue (s : State) (p : Profile) (o : DieOp) : Bool :=
  !o.ready && decide (o.run - o.since ≥ nominal p o.desc) && (o.desc.typ != .readRun || decide (o.done ≥ readable s o)) &&
    !(o.desc.typ == .program && decide (o.done < o.desc.count))

/-- What a poll puts into the command group: the status, and for a READ_RUN whose array read is done the cache command. -/
def pollFns (s : State) (o : DieOp) (ready : Bool) : List NandFn :=
  if ready && o.desc.typ == .readRun then
    [.statusEnhanced, if o.groups + 1 ≥ runGroups s o.desc then .cacheEnd else .cacheNext]
  else [.statusEnhanced]

/-- A polled operation: `dstat` is its status byte, `ready` when the die reports it done. -/
def polled (s : State) (o : DieOp) (ready : Bool) (dstat : BitVec 8) : DieOp :=
  if ready && isRead o.desc.typ then arrayDone s o dstat
  else { o with ready := ready, dstat := dstat }

/-- The program that a rein holds fails: the rein ends, its read goes on as a plain one, and the program completes with
PROGRAM_FAIL (R244). -/
def reinFails (s : State) (d : Nat) (o : DieOp) (dstat : BitVec 8) : State :=
  let s := s.updDie d fun y => { y with op := y.reinRead, reinRead := none, toRun := 0 }
  finishEntry s d o.slot .programFail (some { o with dstat := dstat }) false

/-- DIE_OP_POLL: from the nominal end on, a poll in a command group slot asks whether the operation is ready, at most
twice per die and stride; `dstat` is the status byte. A poll of a reined program can find it failed (R215, R244). -/
def execDieOpPoll (d : Nat) (ready : Bool) (dstat : BitVec 8) (s : State) : Out :=
  .next <|
    let y := s.die d
    if y.polls ≥ 2 then s
    else match y.reinRead, y.op with
      | some r, o =>
        let fails := o.any fun o => ready && dstat.getLsbD 0 && o.desc.typ == .program
        if !groupRoom (s.chan (chanOf d)) (pollFns s r ready).length then s
        else if !pollDue s y.profile r then
          match o with
          | some o =>
            if fails then reinFails (addGroup (s.setDie d { y with polls := y.polls + 1 }) d o.desc [.statusEnhanced]) d o dstat
            else s
          | none => s
        else
          addGroup (s.setDie d { y with reinRead := some (polled s r ready dstat), polls := y.polls + 1 }) d r.desc
            (pollFns s r ready)
      | none, some o =>
        if !groupRoom (s.chan (chanOf d)) (pollFns s o ready).length then s
        else if (o.phase = .suspending 0 ∨ o.phase = .suspended) ∧ ready ∧ dstat.getLsbD 0 ∧ o.desc.typ = .program then
          reinFails (addGroup (s.setDie d { y with polls := y.polls + 1 }) d o.desc [.statusEnhanced]) d o dstat
        else if o.phase ≠ .none ∨ !pollDue s y.profile o then s
        else
          addGroup (s.setDie d { y with op := some (polled s o ready dstat), polls := y.polls + 1 }) d o.desc
            (pollFns s o ready)
      | none, none => s

/-- A record page of the die: skipped when it fails to program; after three consecutive failures the intent block is
replaced (R228). -/
def writeIntent (s : State) (d : Nat) (r : IntentRec) (pageFails : Nat) : State :=
  let s := intentPage s d
  let y := s.die d
  let r := { r with recSeq := y.recSeq + 1 }
  let page : IntentPage := { block := y.intentAct, data := r.page d }
  let s := s.setDie d { y with recSeq := y.recSeq + 1, records := page :: y.records, intentFree := y.intentFree - (pageFails + 1) }
  if pageFails ≥ 3 then
    let s := match takePslc s d with
      | some (b, s) => s.updDie d fun y => { y with intentAct := b, intentFree := wordLines s }
      | none => s
    s.raiseAt (64 + chanOf d) lFCH_INTENT_MOVE none [p2 d] (some (diePos d))
  else s

/-- The record of an erase from its ERASE_INTENT's parameters. -/
def intentOf (s : State) (param : BitVec 128) (done : Bool) (failed : Bool) : IntentRec :=
  { done := done, flags := (param >>> 8).setWidth 8 ||| (if failed then 8 else 0), block := (param >>> 16).toNat % 16384,
    recSeq := 0, eraseCount := (param >>> 32).toNat % 2 ^ 32, reason := param.toNat % 256, seconds := s.now,
    pcycle := s.tbs.pcycle }

/-- Program operations put their codewords on media, erases clear their block. -/
def mediaAfter (s : State) (d : Nat) (x : Desc) : State :=
  match x.typ, x.owner with
  | .program, .pu st ser m =>
    let cws := s.staged.filter fun g => g.stream == st && g.serial == ser && g.member == m
    s.setFch { s.fch with media := cws.foldl (fun t g => Tbl.set t (x.mga + g.pos) g.info) s.fch.media }
  | .erase, _ =>
    if x.pslc then
      -- an erased intent block holds no record page any more (R226)
      s.updDie d fun y => { y with records := y.records.filter fun p => p.block != x.block }
    else
      let lo := mgaOf s d (descBlock s x) 0 0
      let hi := mgaOf s d (descBlock s x + 1) 0 0
      s.setFch { s.fch with media := s.fch.media.filter fun p => decide (p.1 < lo ∨ p.1 ≥ hi) }
  | _, _ => s

/-- The end of an operation that is ready: its status by the FAIL bit of its status byte, its records and its effect
on media. -/
def endOp (s : State) (d : Nat) (o : DieOp) (pageFails : Nat) : State :=
  let x := o.desc
  let fail := o.dstat.getLsbD 0
  let s := s.updDie d fun y => { y with op := none, toRun := if o.slot = noSlot then y.toRun else 0 }
  match x.typ with
  | .program =>
    let s := if fail then s else mediaAfter s d x
    finishEntry s d o.slot (if fail then .programFail else .ok) (some o) false
  | .eraseIntent =>
    let s := writeIntent s d (intentOf s x.param false false) pageFails
    let s := s.updDie d fun y => { y with armed := some ((x.param >>> 16).toNat % 16384),
                                          armCount := (x.param >>> 32).toNat % 2 ^ 32,
                                          armReason := (x.param.toNat % 65536) }
    finishEntry s d o.slot .ok (some o) false
  | .erase =>
    let y := s.die d
    let r : IntentRec := { done := true, flags := BitVec.ofNat 8 (y.armReason / 256) ||| (if fail then 8 else 0),
                           block := descBlock s x, recSeq := 0, eraseCount := y.armCount, reason := y.armReason % 256,
                           seconds := s.now, pcycle := s.tbs.pcycle }
    let s := writeIntent s d r pageFails
    let s := s.updDie d fun y => { y with armed := none }
    let s := if fail then s else mediaAfter s d x
    finishEntry s d o.slot (if fail then .eraseFail else .ok) (some o) false
  | _ => finishEntry s d o.slot .ok (some o) o.discard

/-- Codewords of a read are all transferred, or its job was stale at the end of its array read and none is (R217). -/
def readEnds (o : DieOp) : Bool := o.discard || (o.ready && decide (o.done ≥ transfersOf o.desc))

/-- DIE_OP_COMPLETE: the operation of die `d`, or the read in its rein, ends; `pageFails` is how many pages of the
intent block failed under its record (R211, R215, R228). -/
def execDieOpComplete (d pageFails : Nat) (s : State) : Out :=
  .next <|
    let y := s.die d
    match y.reinRead, y.op with
    | some o, _ =>
      if readEnds o then
        finishEntry (s.setDie d { y with reinRead := none, toRun := 0 }) d o.slot .ok (some o) o.discard
      else s
    | none, some o =>
      if isRead o.desc.typ then (if readEnds o then endOp s d o pageFails else s)
      else if o.ready ∧ o.phase = .none then endOp s d o pageFails else s
    | none, none => s

/-- FCH_DIE_TIMEOUT: not ready at the profile maximum: Reset LUN, which holds the die until it is over, and TIMEOUT; a
timeout of a read in a rein also ends the operation held suspended with RESET_ABORT; three in a row take the die out of
service (R215, R560). -/
def execFchDieTimeout (d : Nat) (s : State) : Out :=
  .next <|
    let y := s.die d
    let nn := chanOf d
    let late (o : DieOp) : Bool :=
      !o.ready && o.desc.typ != .reset && decide (o.run - o.since ≥ maxTime y.profile o.desc)
    let report (s : State) (t : OpType) : State :=
      let s := s.raiseAt (64 + nn) lFCH_DIE_TIMEOUT none [p2 d, p4 t.ctorIdx] (some (diePos d))
      let s := s.updDie d fun y => { y with toRun := y.toRun + 1 }
      if (s.die d).toRun ≥ 3 then dieOut s d else lunReset s d 0
    match y.reinRead, y.op with
    | some r, some o =>
      if late r then
        let s := s.setDie d { y with reinRead := none, op := none, armed := none }
        let s := finishEntry s d r.slot .timeout (some r) false
        report (finishEntry s d o.slot .resetAbort (some o) false) r.desc.typ
      else s
    | none, some o =>
      if late o ∧ o.phase = .none ∧ !(o.desc.typ = .program ∧ o.done < o.desc.count) then
        let s := s.setDie d { y with op := none, armed := if o.desc.typ = .erase then none else y.armed }
        report (finishEntry s d o.slot .timeout (some o) false) o.desc.typ
      else s
    | _, none => s

/-- DIE_RESET_TIMEOUT: a reset of the die is not ready at the profile's maximum: the die leaves service (R215,
R241). -/
def execDieResetTimeout (d : Nat) (s : State) : Out :=
  .next <|
    match (s.die d).op with
    | some o =>
      if o.desc.typ = .reset ∧ !o.ready ∧ o.run ≥ maxTime (s.die d).profile o.desc then dieOut s d else s
    | none => s

/-! ## Reins (R220-R225) -/

/-- REIN_SUSPEND: a due REIN read of entry `i` suspends the die's reinable operation (R222, R223). -/
def execReinSuspend (d i : Nat) (s : State) : Out :=
  .next <|
    let y := s.die d
    match startable s d i .read, y.op with
    | some x, some o =>
      if !x.rein ∨ (preCheck s d x).isSome ∨ !reinable s d o ∨ !groupRoom (s.chan (chanOf d)) 1 then s
      else
        let o := { o with phase := .suspending y.profile.suspend, reins := o.reins + 1, reinReads := 0 }
        let s := addGroup (s.setDie d { y with op := some o }) d x [suspendFn o.desc]
        let s := s.bumpAt rFCH_REINS (chanOf d) 0 1
        if o.reins ≥ reinCap s (chanOf d) o then s.evCh (chanOf d) eFCH_REIN_CAP else s
    | _, _ => s

/-- REIN_READ: after the suspend latency a poll confirms the suspend, and the page read of entry `i` is issued; up to
MAX_READS, one after another (R223). -/
def execReinRead (d i : Nat) (s : State) : Out :=
  .next <|
    let y := s.die d
    match startable s d i .read, y.op with
    | some x, some o =>
      let latent := o.phase == .suspending 0 || o.phase == .suspended
      let fns := (if o.reinReads = 0 then [.statusEnhanced] else []) ++ startsOf s d x
      if !x.rein ∨ (preCheck s d x).isSome ∨ !latent ∨ y.reinRead.isSome ∨
          !groupRoom (s.chan (chanOf d)) fns.length ∨
          o.reinReads ≥ s.rdAt rFCH_MAX_READS (chanOf d) 0 ∨ noRecord s (chanOf d) then s
      else
        let s := s.updChan (chanOf d) fun c => { c with reserved := c.reserved + 1 }
        let o := { o with phase := .suspended, reinReads := o.reinReads + 1 }
        addGroup (s.setDie d { y with op := some o, reinRead := some (DieOp.start i x), thresh := x.thresh }) d x fns
    | _, _ => s

/-- A read of a rein whose transfer has not begun goes back to its entry with REQUEUED (R225). -/
def requeueRein (s : State) (d : Nat) : State :=
  let y := s.die d
  match y.reinRead with
  | some r =>
    if r.done = 0 then
      let x := { r.desc with putBack := true, planned := false }
      let s := s.setDie d { y with reinRead := none, ring := Tbl.set y.ring r.slot x }
      s.updChan (chanOf d) fun c => { c with reserved := c.reserved - 1 }
    else s
  | none => s

/-- REIN_RESUME: after the rein's transfers, or at once under a hold plan; the die's own resume time follows (R223,
R225). -/
def execReinResume (d : Nat) (s : State) : Out :=
  .next <|
    let s := if startsHeld s (chanOf d) then requeueRein s d else s
    let y := s.die d
    match y.op with
    | some o =>
      if (o.phase = .suspended ∨ (o.phase = .suspending 0 ∧ startsHeld s (chanOf d))) ∧ y.reinRead.isNone ∧
          groupRoom (s.chan (chanOf d)) 1 then
        let o := { o with phase := if y.profile.resume = 0 then .none else .resuming y.profile.resume,
                          interval := 0, reinReads := 0 }
        addGroup (s.setDie d { y with op := some o }) d o.desc [resumeFn o.desc]
      else s
    | none => s

/-! ## The channel arbiter (R232-R236) -/

/-- Staging buffers: 12 MiB in units of 4,608 B (R25, R209). -/
def stagingBuffers : Nat := 2730

/-- Staging buffers that hold a codeword: encoded ones, those that reads have transferred, and those that wait for a
decoder. -/
def stagingUsed (s : State) : Nat :=
  let mid (o : Option DieOp) : Nat := match o with
    | some o => if isRead o.desc.typ then o.done else 0
    | none => 0
  s.staged.length + (s.fch.dies.map fun p => mid p.2.op + mid p.2.reinRead).sum +
    (s.stp.reads.map fun j => (j.members.filter fun m => m.arrived && m.info.isNone && !m.failed).length).sum

/-- Codeword `k` of a program is encoded in its buffer, that of a read has a free buffer (R209). -/
def bufferReady (s : State) (x : Desc) (k : Nat) : Bool :=
  match x.typ, x.owner with
  | .program, .pu st ser m =>
    s.staged.any fun g => g.stream == st && g.serial == ser && g.member == m && g.pos == k
  | .program, _ => true
  | _, _ => decide (stagingUsed s < stagingBuffers)

/-- The buffer list of ring entry `i` of die `d`: a staging buffer and READY for each codeword (R209). -/
def bufferList (s : State) (d i : Nat) (x : Desc) : List (BitVec 16) :=
  (List.range x.count).map fun k =>
    (Config.stagingBuffer d i k).setWidth 16 ||| (if bufferReady s x k then 0x8000 else 0)

/-- FCH asks for a slot for codeword `k` only when its entry is READY: bit 15 of the buffer list's entry (R209). -/
def listReady (s : State) (x : Desc) (k : Nat) : Bool := bufferReady s x (if x.soft ≥ 2 then k / x.soft else k)

/-- A die has a codeword to transfer: a read with codewords left in its cache register, or a program whose next codeword
is encoded (R209, R219). -/
def dieTransfers (s : State) (y : Die) : Option Desc :=
  let out := fun (o : DieOp) => isRead o.desc.typ && !o.discard && decide (o.done < readable s o) && listReady s o.desc o.done
  match y.reinRead, y.op with
  | some o, _ => if out o then some o.desc else none
  | none, some o =>
    if out o then some o.desc
    else if o.desc.typ = .program ∧ o.done < o.desc.count then
      if listReady s o.desc o.done then some o.desc else none
    else none
  | none, none => none

/-- A die has an entry for a command group: a descriptor that may start, a poll, a suspend or a resume; with its
rank. -/
def dieCommand (s : State) (d : Nat) (y : Die) : Option Nat :=
  let start := (ringOrder y).findSome? fun p =>
    if (startable s d p.1 p.2.typ).isSome && (y.op.isNone || p.2.rein) then some (descRank p.2) else none
  match start, y.op with
  | some r, _ => some r
  | none, some o =>
    if o.phase != .none || pollDue s y.profile o || (y.reinRead.any fun r => pollDue s y.profile r) then
      some (descRank o.desc)
    else none
  | none, none => none

/-- A die is due for retraining: its period has passed or its temperature has moved (R239). -/
def retrainDue (s : State) (d : Nat) : Bool :=
  let y := s.die d
  let nn := chanOf d
  decide (s.tbs.clk / 1000000 ≥ y.trainedAt + s.rdAt rFCH_PERIOD_MS nn 0) ||
    decide ((y.temp - y.trainTemp).natAbs ≥ 10 * s.rdAt rFCH_DTEMP nn 0)

/-- A die may be retrained now: it serves, is idle, and no retraining has used the stride's slot (R239). -/
def retrainable (s : State) (d : Nat) : Bool :=
  let y := s.die d
  let c := s.chan (chanOf d)
  y.service && y.op.isNone && retrainDue s d && !c.mntUsed && !c.retraining && c.inService

/-- A die of the channel asks for an MNT slot: a retraining, or a RAW descriptor that may start (R232, R239). -/
def mntWanted (s : State) (d : Nat) (y : Die) : Bool :=
  retrainable s d || (y.op.isNone && (ringOrder y).any fun p => p.2.typ == .raw && (startable s d p.1 .raw).isSome)

/-- The requests of a channel: requester and rank, promoted ones at rank 0 (R232, R233, R236). Under a hold plan no new
transfer begins (R40). -/
def requests (s : State) (nn : Nat) : List (Nat × Nat) :=
  let c := s.chan nn
  let dies := s.fch.dies.filter fun p => chanOf p.1 == nn
  let data := if planHeld s then [] else
    dies.filterMap fun p => (dieTransfers s p.2).map fun x => (diePos p.1, descRank x)
  let cmds := dies.filterMap fun p => dieCommand s p.1 p.2
  let cmd := if cmds.isEmpty then [] else [(32, cmds.foldl min 5)]
  let mnt := if dies.any fun p => mntWanted s p.1 p.2 then [(33, 5)] else []
  (data ++ cmd ++ mnt).map fun r => match Tbl.get c.stalls r.1 with
    | some t => if t.promoted then (r.1, 0) else r
    | none => r

/-- The best request at a rank: the oldest among promoted ones, else round robin after the last granted there. -/
def pickAt (c : Chan) (rs : List Nat) (rank : Nat) : Option Nat :=
  if rank = 0 then
    rs.foldl (fun (a : Option Nat) r => match a with
      | none => some r
      | some b => if ((Tbl.get c.stalls b).map Stall.age).getD 0 < ((Tbl.get c.stalls r).map Stall.age).getD 0 then some r
                  else some b) none
  else
    let from_ := (Tbl.getD c.last rank 33) + 1
    leastBy rs fun r => (r + 68 - from_ % 34) % 34

/-- The winner among requests: the best rank; an owner whose burst has expired stands behind the others of its rank
(R233, R234). -/
def winner (c : Chan) (rs : List (Nat × Nat)) (last : Option Nat) : Option Nat :=
  match rs with
  | [] => none
  | _ =>
    let best := rs.foldl (fun a r => min a r.2) 6
    let same := (rs.filter fun r => r.2 == best).map Prod.fst
    let others := same.filter fun r => some r != last
    pickAt c (if others.isEmpty then same else others) best

/-- The stalls after an arbitration: one that asks no more leaves its stall, a loser enters it, and the winner's age
begins anew; a promoted winner keeps its rank until it drops or completes a burst (R236). -/
def settle (c : Chan) (rs : List (Nat × Nat)) (w burst lim : Nat) : Tbl Stall :=
  let t := c.stalls.filter fun p => rs.any fun q => q.1 == p.1
  let t := rs.foldl (fun t r => if r.1 = w ∨ (Tbl.get t r.1).isSome then t
    else Tbl.set t r.1 { age := 0, promoted := false }) t
  if (Tbl.get t w).any Stall.promoted ∧ burst < lim then Tbl.set t w { age := 0, promoted := true } else Tbl.erase t w

/-- SLOT_ARBITRATION: the grant of channel `nn`'s next slot (R216, R234-R236). -/
def execSlotArbitration (nn : Nat) (s : State) : Out :=
  .next <|
    let c := s.chan nn
    if c.busy ∨ c.slot ≥ slotsPerStride c then s
    else
      let rs := requests s nn
      let s := s.setChan nn { c with slot := c.slot + 1, group := [] }
      let c := s.chan nn
      let lim := s.rdAt rFCH_FCH_BURST nn 0
      let rankOf (r : Nat) : Nat := ((rs.find? fun q => q.1 == r).map Prod.snd).getD 6
      let asks := match c.owner with
        | some o => rs.any fun q => q.1 == o
        | none => false
      let owner := c.owner.getD 0
      let promotedOwner := asks && (Tbl.get c.stalls owner).any Stall.promoted
      let better := rs.any fun q => decide (q.2 < rankOf owner)
      let keep := asks && decide (c.burst < lim) && (!better || promotedOwner)
      let w := if keep then some owner else winner c rs (if asks ∧ c.burst ≥ lim then c.owner else none)
      match w with
      | none => (s.setChan nn { c with owner := none, burst := 0 }).bumpAt rFCH_SLOTS_IDLE nn 0 1
      | some w =>
        let preempt := asks && !keep && decide (c.burst < lim) && w != owner
        let burst := if keep then c.burst + 1 else 1
        let s := s.setChan nn { c with owner := some w, burst := burst, stalls := settle c rs w burst lim,
                                       last := Tbl.set c.last (rankOf w) w, busy := decide (w < 32) }
        let s := if preempt then s.bumpAt rFCH_PREEMPT nn 0 1 else s
        if w < 32 then s.bumpAt rFCH_SLOTS_DATA nn 0 1 else s.bumpAt rFCH_SLOTS_CMD nn 0 1

/-- FCH_STALL_PROMOTE: a stalled request of age AGE_LIMIT is promoted to rank 0 (R236). -/
def execFchStallPromote (nn r : Nat) (s : State) : Out :=
  .next <|
    let c := s.chan nn
    match Tbl.get c.stalls r with
    | some t =>
      if t.promoted ∨ t.age < s.rdAt rFCH_AGE_LIMIT nn 0 then s
      else (s.setChan nn { c with stalls := Tbl.set c.stalls r { t with promoted := true } }).bumpAt rFCH_PROMOTED nn 0 1
    | none => s

/-- CODEWORD_TRANSFER_END: the codeword on channel `nn` has transferred; the owner's progress count advances, and a
program's slot is SENT (R188, R235). The slot counts in the function's meter (R124). -/
def execCodewordTransferEnd (nn : Nat) (s : State) : Out :=
  .next <|
    let c := s.chan nn
    match c.owner with
    | none => s
    | some r =>
      if !c.busy ∨ r ≥ 32 then s
      else
        let d := nn * 32 + r
        let y := s.die d
        let s := s.setChan nn { c with busy := false }
        match y.reinRead, y.op with
        | some o, _ =>
          let s := if o.desc.cls ≤ 1 then s.meter o.desc.tag.fn fun m => { m with slots := m.slots + 1 } else s
          s.updDie d fun y => { y with reinRead := some { o with done := o.done + 1 } }
        | none, some o =>
          let s := if o.desc.cls ≤ 1 then s.meter o.desc.tag.fn fun m => { m with slots := m.slots + 1 } else s
          let s := s.updDie d fun y => { y with op := some { o with done := o.done + 1 } }
          match o.desc.typ, o.desc.owner with
          | .program, .pu st ser m =>
            let s := s.updPuAt st ser m fun u => { u with sent := o.done + 1,
                                                          state := if o.done + 1 ≥ puGran s then .programming else .sent }
            let slot := match s.findPu st ser m with
              | some u => u.slots.getD o.done none
              | none => none
            let s := match slot with
              | some i => s.updSlot i fun x => { x with state := if x.reserve then x.state else .sent }
              | none => s
            parityProg s st ser
          | _, _ => s
        | none, none => s

/-! ## Retraining and the pin test (R237-R240) -/

/-- DIE_RETRAIN: ZQ Calibration Short and re-centring on an idle die, in an MNT slot; `low` when it shows less than
0.20 UI of margin: the channel is to retrain at the next lower ladder rate (R239). -/
def execDieRetrain (d : Nat) (low : Bool) (s : State) : Out :=
  .next <|
    let y := s.die d
    let nn := chanOf d
    if !retrainable s d ∨ (s.chan nn).owner ≠ some 33 ∨ !(s.chan nn).group.isEmpty then s
    else
      let s := s.setDie d { y with trainedAt := s.tbs.clk / 1000000, trainTemp := y.temp }
      let entry (f : NandFn) : CgEntry := { rank := 5, pos := diePos d, what := f, fn := 256 }
      let s := s.updChan nn fun c => { c with mntUsed := true, group := [entry .zqShort, entry .trainRead] }
      if low then
        let s := s.updChan nn fun c => { c with retraining := true }
        let s := if s.stp.degraded then s
          else (s.setStp { s.stp with degraded := true }).ev eSTP_DEGRADED |>.raise lSTP_DEGRADED none []
        (s.evCh nn eFCH_RATE_DROP).raiseAt (64 + nn) lFCH_RATE_DROP none [p4 nn] none
      else s

/-- Ladder rates: 4,000 down to 2,400 MT/s in steps of 200 (R238). -/
def ladderRate (r : Nat) : Bool := decide (2400 ≤ r ∧ r ≤ 4000) && r % 200 == 0

/-- CHANNEL_RETRAIN_DONE: with no operation left in progress the channel returns at `rate`, a lower ladder rate; at 0
no rate passes and its dies leave service (R238, R239). -/
def execChannelRetrainDone (nn rate : Nat) (s : State) : Out :=
  .next <|
    let c := s.chan nn
    let idle := s.fch.dies.all fun p => chanOf p.1 != nn || (p.2.op.isNone && p.2.reinRead.isNone)
    if !c.retraining ∨ !idle then s
    else if rate = 0 then
      let s := s.setChan nn { c with retraining := false, rate := 0 }
      (s.fch.dies.filter fun p => chanOf p.1 == nn).foldl (fun s p => dieOut s p.1) s
    else if !ladderRate rate ∨ rate ≥ c.rate then s
    else
      let s := s.setChan nn { c with retraining := false, rate := rate }
      let s := s.evCh nn eFCH_TRAIN_DONE
      if s.par.lost.isEmpty && s.par.lostArm.isEmpty && !(s.fch.chans.any fun p => p.2.retraining) then
        s.setStp { s.stp with degraded := false } else s

/-- What a pin test found: stuck or shorted pins, and opens (R240). A fault on a data or strobe pin or a common
control pin takes the channel out; one on a chip enable its dies. -/
def pinFaults (s : State) (nn : Nat) (short open_ : BitVec 22) : State :=
  let s := (s.wrAt rFCH_PIN_SHORT nn 0 short.toNat).wrAt rFCH_PIN_OPEN nn 0 open_.toNat
  if short = 0 ∧ open_ = 0 then s
  else
    let chan := short.toNat % 2 ^ 14 != 0 || open_.toNat % 2 ^ 10 != 0
    let ce : BitVec 8 := ((short ||| open_) >>> 14).setWidth 8
    let s := s.updChan nn fun c => { c with pinBad := c.pinBad || chan, ceBad := c.ceBad ||| ce }
    let dies := s.fch.dies.filter fun p => chanOf p.1 == nn && (chan || ce.getLsbD (diePos p.1 / 4))
    let s := dies.foldl (fun s p => dieOut s p.1) s
    let s := if chan then s.updChan nn fun c => { c with inService := false } else s
    (s.evCh nn eFCH_PIN_FAULT).raiseAt (64 + nn) lFCH_PIN_FAULT none [p4 nn, p4 short.toNat, p4 open_.toNat] none

/-- FCH_PIN_GO: the pin test of a channel out of service; ignored in service (R240, R245). -/
def execFchPinGo (nn : Nat) (short open_ : BitVec 22) (s : State) : Out :=
  .next <|
    if nn ≥ 32 then s
    else
      let s := s.wakePage (64 + nn)
      if (s.chan nn).inService then s else pinFaults s nn short open_

end Sys2Proof.Machine
end

