-- ==== Sys2Proof/Machine/Spaces.lean ====
section
/-! DEFINITION. Namespaces: creation, deletion, attachment, Format and crypto erase; the fine pool's demotion; map
checkpoints (04 R112; 05 R137-R141, R152, R153, R163-R167, R170, R561, R562; 13 R385, R397, R406). -/

namespace Sys2Proof.Machine

open Sys2Proof

/-- A command for the manager alone; a tenant receives Invalid Command Opcode. -/
def State.managerOnly (s : State) (seq : Nat) (act : Cmd → State) : State :=
  s.admin seq fun c => if c.fn ≠ 0 then s.finish seq stInvalidOpcode else act c

/-- Namespaces that exist: index and namespace. -/
def liveSpaces (s : State) : List (Nat × Space) := s.map.spaces.filter fun p => !p.2.deleted

/-- The namespace that function `f` names by an NSID: the manager sees every one under index + 1 (R138). -/
def spaceOf (s : State) (f nsid : Nat) : Option (Nat × Space) :=
  let ns := if f = 0 then (if nsid = 0 then none else some (nsid - 1)) else Tbl.get (s.fn f).spaces nsid
  ns.bind fun n => (s.space n).map fun sp => (n, sp)

/-! ## DRAM and the fine pool (R163, R164, R561) -/

/-- Logical blocks of the drive's namespaces of a type. -/
def blocksOf (l : List (Nat × Space)) (t : NsType) : Nat := ((l.filter fun p => p.2.typ == t).map fun p => p.2.nsze).sum

/-- MiB of DRAM that a set of namespaces requires (R163): 96 MiB for each TiB of conventional size, 32 MiB, or 24 MiB
with a 256 KiB program unit, for each TiB of zoned size, and 4 GiB. -/
def dramNeeds (s : State) (l : List (Nat × Space)) : Nat :=
  let tib := 2 ^ 28
  let zoned := if puGran s = 64 then 24 else 32
  4096 + (96 * blocksOf l .conventional + tib - 1) / tib + (zoned * blocksOf l .zoned + tib - 1) / tib

/-- Fine units beside a set of namespaces: the fixed 1 GiB and all DRAM that is left, up to 6 GiB, 96 B a unit. -/
def fineUnits (s : State) (l : List (Nat × Space)) : Nat :=
  min (2 ^ 26) ((1024 + (s.map.dramMib - dramNeeds s l)) * 2 ^ 20 / 96)

/-- The fine pool follows the namespaces that exist. -/
def resizeFine (s : State) : State := s.setMap { s.map with fineTotal := fineUnits s (liveSpaces s) }

/-! ## Namespace Management (R137-R139, R157, R385, R561) -/

/-- Granules of user capacity that a namespace takes. -/
def spaceUse (sp : Space) : Nat := if sp.typ = .zoned then sp.nsze / max sp.zsze 1 * sp.zcap else sp.nsze

/-- Zone sizes: 256 MiB to 8 GiB (R157). -/
def zoneSizes : List Nat := [65536, 131072, 262144, 524288, 1048576, 2097152]

/-- Zone capacity of a zone size on a layout, whole program units (R157). -/
def zoneCap (s : State) (zsze : Nat) : Nat :=
  let d := dataMembers s
  zsze * d / (d + 2) / max (puGran s) 1 * puGran s

def modeOf : Nat → Option CipherMode
  | 0 => some .none
  | 1 => some .xts
  | 2 => some .gcm
  | _ => none

def sourceOf : Nat → Option KeySource
  | 0 => some .generated
  | 1 => some .persistent
  | 2 => some .volatile
  | _ => none

/-- A format that the QH7620 reports: 0 to 2, with protection information of type 1 to 3, or none, on those that have
metadata for it (R139). -/
def formatOk (fmt : LbaFormat) : Bool := decide (fmt.index ≤ 2 ∧ fmt.pi ≤ 3 ∧ (fmt.index = 0 → fmt.pi = 0))

/-- The checks of a creation, and the namespace it makes. `zsze` is in logical blocks, 0 for the default 2 GiB. -/
def checkCreate (s : State) (typ : NsType) (nsze ncap : Nat) (fmt : LbaFormat) (mode source owner zsze : Nat) :
    Except Status Space :=
  let z := if zsze = 0 then 524288 else zsze
  let step := if typ = .zoned then z else 16
  match modeOf mode, sourceOf source with
  | some m, some k =>
    if owner > 255 ∨ ncap ≠ nsze ∨ nsze = 0 ∨ nsze % step ≠ 0 ∨ (typ = .zoned ∧ !zoneSizes.contains z) then
      .error stInvalidField
    else if !formatOk fmt ∨ (m = .gcm ∧ fmt.index ≠ 0) then .error stInvalidFormat
    else
      let sp : Space :=
        { typ := typ, nsze := nsze, lbaf := fmt.index, pi := fmt.pi, mode := m, source := k, owner := owner, nguid := 0, seq := 0,
          wp := false, zsze := if typ = .zoned then z else 0, zcap := if typ = .zoned then zoneCap s z else 0,
          zones := [], deleted := false }
      if (liveSpaces s).length ≥ 1024 ∨ freeKey s.map.spaces 0 ≥ 1024 then .error stNsidUnavailable
      else
        let used := ((liveSpaces s).map fun p => spaceUse p.2).sum
        if s.par.layout.isNone ∨ used + spaceUse sp > s.rcl.userGran
            ∨ dramNeeds s ((1024, sp) :: liveSpaces s) > s.map.dramMib then .error stNsCapacity
        else if m ≠ .none ∧ k = .generated ∧ !s.key.health then .error stInternal
        else .ok sp
  | _, _ => .error stInvalidField

/-- A key of source 0: drawn by KEY and placed in the namespace's slot (R397, R405). -/
def generateKey (s : State) (ns : Nat) (sp : Space) : Option Nat × State :=
  if sp.mode = .none then (none, s)
  else if sp.source = .generated then
    let (n, s) := (useDrbg s).draw
    let k := Config.randomKey n
    (some k, (changeKey s ns (some k) sp.source sp.owner 0 none).bump rKEY_LOADS 1)
  else (none, changeKey s ns none sp.source sp.owner 0 none)

/-- The namespace is made: the lowest free index, a sequence above every value given, its key, and its key store
record, with which the command completes (R138, R152, R397, R398). -/
def createSpace (s : State) (seq : Nat) (sp : Space) : State :=
  let ns := freeKey s.map.spaces 0
  let (n, s) := s.draw
  let sp := { sp with nguid := Config.nguid n }
  let s := s.setMap { s.map with spaces := Tbl.set s.map.spaces ns sp }
  let s := bumpSeq s ns
  let (k, s) := generateKey s ns sp
  let s := resizeFine s
  (s.hold seq).writeKeyRec ns (newKeyRec sp k 0 []) [seq] (BitVec.ofNat 32 (ns + 1))

/-- Fine units in use, reserved ones included (R561). -/
def fineInUse (s : State) : Nat := s.map.fine.length + s.map.fineReserved

/-- NAMESPACE_CREATE (R137, R385); a creation that the fine pool does not yet fit waits (R561), and one that waits
holds a later one. -/
def execNamespaceCreate (seq : Nat) (typ : NsType) (nsze ncap : Nat) (fmt : LbaFormat) (mode source owner zsze : Nat)
    (s : State) : Out :=
  .next <| s.managerOnly seq fun _ =>
    if sanitizing s then s.finish seq stSanitizing
    else if s.map.fineCreate.isSome then s
    else match checkCreate s typ nsze ncap fmt mode source owner zsze with
      | .error t => s.finish seq t
      | .ok sp =>
        let target := fineUnits s ((1024, sp) :: liveSpaces s)
        if fineInUse s ≤ target then createSpace s seq sp
        else (s.setMap { s.map with
          fineCreate := some { seq := seq, space := sp, target := target, since := s.tbs.clk } }).hold seq

/-- NAMESPACE_CREATE_FINE_FIT: the units in use fit the target (R561). -/
def execNamespaceCreateFineFit (s : State) : Out :=
  .next <|
    match s.map.fineCreate with
    | some w =>
      if fineInUse s ≤ w.target then createSpace (s.setMap { s.map with fineCreate := none }) w.seq w.space else s
    | none => s

/-- NAMESPACE_CREATE_FINE_TIMEOUT: they do not fit within 10 s (R561). -/
def execNamespaceCreateFineTimeout (s : State) : Out :=
  .next <|
    match s.map.fineCreate with
    | some w =>
      if s.tbs.clk ≥ w.since + 10000000000 ∧ fineInUse s > w.target then
        (s.setMap { s.map with fineCreate := none }).finish w.seq stNsCapacity
      else s
    | none => s

/-- Commands on a namespace that are not at their completion point end with Invalid Namespace. -/
def endSpaceCmds (s : State) (ns : Nat) : State :=
  (s.qmx.cmds.filter fun c => !c.admin && c.body != .undecoded && c.ns == ns && !c.atPoint).foldl
    (fun s c => (releaseCmd s c).finish c.seq stInvalidNs) s

/-- A namespace leaves a function; the function table takes the change (R497). -/
def detachSpace (s : State) (ns f : Nat) (seqs : List Nat) : State :=
  let s := s.updFn f fun x => { x with spaces := Tbl.filter x.spaces fun _ n => n != ns }
  s.writeTable f seqs 0

/-- A checkpoint being written omits a namespace that is deleted (R169). -/
def forgetSpace (s : State) (ns : Nat) : State :=
  let off {α : Type} (t : Tbl α) : Tbl α := t.filter fun p => p.1 != ns
  s.setMap { s.map with nextRoot := s.map.nextRoot.map fun r =>
    { r with seqs := off r.seqs, guids := off r.guids, zones := off r.zones } }

/-- A namespace is deleted: its commands end, its entries are cleared, it is detached everywhere, and its key slot is
cleared (R562). -/
def deleteSpace (s : State) (ns : Nat) : State :=
  let s := clearSpace (endSpaceCmds s ns) ns
  let fs := (s.fns.filter fun p => p.2.spaces.any fun q => q.2 == ns).map Prod.fst
  let s := fs.foldl (fun s f => detachSpace s ns f []) s
  match s.space ns with
  | none => s
  | some sp =>
    let s := forgetSpace (s.setSpace ns { sp with deleted := true }) ns
    let s := changeKey s ns none .generated 0 0 none
    s.writeKeyRec ns { mode := .none, source := .generated, owner := 0, keyId := 0, kcv := 0, erased := [],
                       gen := 0, wrapped := none } [] 0

/-- NAMESPACE_DELETE: one namespace, or every one with NSID FFFFFFFFh (R562). -/
def execNamespaceDelete (seq nsid : Nat) (s : State) : Out :=
  .next <| s.managerOnly seq fun _ =>
    if sanitizing s then s.finish seq stSanitizing
    else if nsid = 0xFFFFFFFF then
      (resizeFine ((liveSpaces s).foldl (fun s p => deleteSpace s p.1) s)).finish seq stOk
    else match spaceOf s 0 nsid with
      | none => s.finish seq stInvalidNs
      | some (ns, _) => (resizeFine (deleteSpace s ns)).finish seq stOk

/-- The index of a deleted namespace becomes free when no slot of it is ASSEMBLED or SENT (R562). -/
def reapSpaces (s : State) : State :=
  let busy (ns : Nat) : Bool := s.wbf.slots.any fun p =>
    p.2.ns == ns && !p.2.reserve && (p.2.state == .assembled || p.2.state == .sent)
  s.setMap { s.map with spaces := s.map.spaces.filter fun p => !(p.2.deleted && !busy p.1) }

/-! ## Namespace Attachment (R112, R138) -/

/-- Functions that a namespace is attached to. -/
def attachCount (s : State) (ns : Nat) : Nat :=
  (s.fns.filter fun p => p.2.spaces.any fun q => q.2 == ns).length

/-- Logical blocks that a function is charged for its namespaces: NCAP of each, which is NSZE, divided by the functions
attached to it (R112). -/
def chargedBlocks (s : State) (x : Fn) : Rat :=
  (x.spaces.map fun p => match s.space p.2 with
    | some q => (q.nsze : Rat) / (max (attachCount s p.2) 1 : Nat)
    | none => 0).sum

/-- The same with one namespace more. -/
def chargeWith (s : State) (f ns : Nat) (sp : Space) : Rat :=
  chargedBlocks s (s.fn f) + (sp.nsze : Rat) / (attachCount s ns + 1 : Nat)

/-- NAMESPACE_ATTACH (R112, R138). -/
def execNamespaceAttach (seq nsid f : Nat) (s : State) : Out :=
  .next <| s.managerOnly seq fun _ =>
    let x := s.fn f
    match spaceOf s 0 nsid with
    | none => s.finish seq stInvalidNs
    | some (ns, sp) =>
      if f > 255 ∨ (f ≠ 0 ∧ x.state = .free) then s.finish seq (st 1 0x1C true)
      else if held x.state then s.finish seq stFrozen
      else if x.spaces.any fun p => p.2 == ns then s.finish seq stNsAttached
      else if x.spaces.length ≥ 128 ∨ chargeWith s f ns sp > (x.harness.capGib * 262144 : Nat)
          ∨ (sp.typ = .zoned ∧ x.harness.openZones = 0) then s.finish seq stHarnessCap
      else
        let id := if f = 0 then ns + 1 else freeKey x.spaces 1
        let s := s.setFn f { x with spaces := Tbl.set x.spaces id ns }
        (s.hold seq).writeTable f [seq] 0

/-- NAMESPACE_DETACH (R138). -/
def execNamespaceDetach (seq nsid f : Nat) (s : State) : Out :=
  .next <| s.managerOnly seq fun _ =>
    let x := s.fn f
    match spaceOf s 0 nsid with
    | none => s.finish seq stInvalidNs
    | some (ns, _) =>
      if f > 255 ∨ (f ≠ 0 ∧ x.state = .free) then s.finish seq (st 1 0x1C true)
      else if held x.state then s.finish seq stFrozen
      else if !(x.spaces.any fun p => p.2 == ns) then s.finish seq stNsNotAttached
      else detachSpace (s.hold seq) ns f [seq]

/-! ## Format NVM (R141, R406) -/

/-- I/O commands fetched before the Format that it must let pass (R81, R141). -/
def formatWaits (s : State) (seq : Nat) (nss : List Nat) : Bool :=
  s.qmx.cmds.any fun d => !d.admin && decide (d.seq < seq) && (d.body == .undecoded || (nss.contains d.ns && !d.atPoint))

/-- The namespaces that a Format covers: one, or with NSID FFFFFFFFh every one the function sees. -/
def formatCovers (s : State) (f nsid : Nat) : List (Nat × Space) :=
  if nsid = 0xFFFFFFFF then
    if f = 0 then liveSpaces s else (s.fn f).spaces.filterMap fun p => (s.space p.2).map fun sp => (p.2, sp)
  else (spaceOf s f nsid).toList

/-- What refuses a Format by function `f` to LBA format `lbaf`; a tenant formats only namespaces attached to it alone
(R68). -/
def formatRefused (s : State) (f : Nat) (l : List (Nat × Space)) (fmt : LbaFormat) : Option Status :=
  if sanitizing s then some stSanitizing
  else if l.isEmpty then some stInvalidNs
  else if f ≠ 0 ∧ l.any (fun p => decide (attachCount s p.1 > 1)) then some stInvalidField
  else if s.rcl.readOnly then some stWriteProtected
  else if !formatOk fmt ∨ l.any (fun p => p.2.mode == .gcm && fmt.index != 0) then some stInvalidFormat
  else none

/-- The namespace takes its new LBA format. -/
def setFormat (s : State) (ns : Nat) (fmt : LbaFormat) : State :=
  match s.space ns with
  | none => s
  | some sp => s.setSpace ns { sp with lbaf := fmt.index, pi := fmt.pi }

/-- A Format that waits for the commands before it holds those after it on its namespaces (R141): it leaves the list of
them with its command. -/
def formatHolds (s : State) (seq : Nat) (nss : List Nat) : State :=
  s.updCmd seq fun c => { c with nlb := 1, ranges := nss.map fun n => (n, 0) }

/-- FORMAT_NVM with SES 000b: every entry is cleared, nothing is erased physically (R141). -/
def execFormatNvm (seq nsid : Nat) (fmt : LbaFormat) (s : State) : Out :=
  .next <| s.admin seq fun c =>
    let l := formatCovers s c.fn nsid
    match formatRefused s c.fn l fmt with
    | some t => s.finish seq t
    | none =>
      if c.op ≠ 0x80 then s
      else if formatWaits s seq (l.map Prod.fst) then formatHolds s seq (l.map Prod.fst)
      else (l.foldl (fun s p => setFormat (clearSpace s p.1) p.1 fmt) s).finish seq stOk

/-- Crypto erase of one namespace, steps 1-5 of R406; `seqs` complete with its NOR record. -/
def cryptoErase (s : State) (ns : Nat) (sp : Space) (seqs : List Nat) : State :=
  let s := bumpSeq (clearSpace s ns) ns
  let old := match keyRec s ns with
    | some r => if r.kcv = 0 then r.erased else (r.kcv :: r.erased).take 16
    | none => []
  let (k, s) := generateKey s ns sp
  let s := s.writeKeyRec ns (newKeyRec sp k 0 old) seqs 0
  ((s.bump rKEY_CERASE 1).ev eKEY_CRYPTO_ERASE).raise lKEY_CRYPTO_ERASE none []

/-- Crypto erase of namespaces in turn; the last record completes the command. -/
def cryptoEraseAll (s : State) (seq : Nat) : List (Nat × Space) → State
  | [] => s.finish seq stOk
  | [p] => (cryptoErase s p.1 p.2 [seq]).hold seq
  | p :: r => cryptoEraseAll (cryptoErase s p.1 p.2 []) seq r

/-- A new key must be drawn for some of the namespaces while the random bit generator is refused (R409). -/
def keysRefused (s : State) (l : List (Nat × Space)) : Bool :=
  !s.key.health && l.any fun p => p.2.source == .generated

/-- FORMAT_NVM_CRYPTO_ERASE: SES 010b (R406). -/
def execFormatNvmCryptoErase (seq nsid : Nat) (fmt : LbaFormat) (s : State) : Out :=
  .next <| s.admin seq fun c =>
    let l := formatCovers s c.fn nsid
    match formatRefused s c.fn l fmt with
    | some t => s.finish seq t
    | none =>
      if c.op ≠ 0x80 then s
      else if l.any fun p => p.2.mode == .none then s.finish seq stInvalidField
      else if keysRefused s l then s.finish seq stInternal
      else if formatWaits s seq (l.map Prod.fst) then formatHolds s seq (l.map Prod.fst)
      else
        let s := l.foldl (fun s p => setFormat s p.1 fmt) s
        cryptoEraseAll s seq l

/-! ## Demotion (R153) -/

/-- Demotion starts below LOW_PCT of the pool free and stops above HIGH_PCT; a creation that waits runs it whatever
they are (R153, R561). -/
def demotionRuns (s : State) : Bool :=
  let free := finePool s - fineInUse s
  s.map.fineCreate.isSome
    || decide (free * 100 < s.rd rMAP_LOW_PCT * s.map.fineTotal)
    || (s.map.demoting && decide (free * 100 ≤ s.rd rMAP_HIGH_PCT * s.map.fineTotal))

/-- All 16 entries say the same kind without an address. -/
def allKind (u : FineUnit) (k : Kind) : Bool := u.entries.all fun e => e.kind == k

/-- The fine units that a demotion takes together, with the index of the first: one unit, or those of a whole chunk
(R153, R158). -/
def demoteGroup (s : State) (f : Nat) (u : FineUnit) : Nat × Nat :=
  if !u.zchunk then (f, 16)
  else match s.space u.ns with
    | none => (f, 0)
    | some sp => let (z, c) := chunkOfNo s sp u.unit; ((chunkOf s u.ns z c).addr, puGran s)

/-- The entries of those units. -/
def groupEntries (s : State) (g : Nat × Nat) : List Entry :=
  ((List.range ((g.2 + 15) / 16)).flatMap fun k =>
    ((Tbl.get s.map.fine (g.1 + k)).map FineUnit.entries).getD []).take g.2

/-- A unit that the sweep can take: every entry is MEDIA, and no demotion of it is in flight. -/
def eligible (s : State) (f : Nat) (u : FineUnit) : Bool :=
  let es := groupEntries s (demoteGroup s f u)
  !es.isEmpty && (es.all fun e => e.kind == .media) &&
    !(s.map.demotes.any fun d => d.fine == (demoteGroup s f u).1)

/-- A unit that returns to one coarse entry at once. -/
def trivialUnit (u : FineUnit) : Bool := !u.zchunk && (allKind u .unmapped || allKind u .uncorr)

/-- The sweep from the hand: the unit it takes, and the units it passes. -/
def sweep (s : State) (minAge : Nat) : List (Nat × FineUnit) → List Nat → Option (Nat × FineUnit) × List Nat
  | [], passed => (none, passed)
  | (f, u) :: r, passed =>
    if trivialUnit u || (eligible s f u && decide (u.age ≥ minAge)) then (some (f, u), passed)
    else sweep s minAge r (f :: passed)

/-- The eligible unit with the highest AGE, after a full pass without one of MIN_AGE. DESIGN CHOICE: R153 breaks no tie;
the lowest index does. -/
def oldestUnit (s : State) (l : List (Nat × FineUnit)) : Option (Nat × FineUnit) :=
  (l.filter fun p => eligible s p.1 p.2).foldl (fun (a : Option (Nat × FineUnit)) p => match a with
    | none => some p
    | some b => if b.2.age < p.2.age then some p else some b) none

/-- The copy of a fine unit or of a zone chunk, in stream 253 (R153, R158). -/
def pushCopyFine (s : State) (u : FineUnit) (xs : List Info) : Option (Nat × State) :=
  if u.zchunk then pushCopyChunk s 253 xs else pushCopyUnit s 253 xs

/-- One unit is demoted: returned at once, or copied into stream 253, as 16 consecutive granules or a whole chunk. A source
that cannot be read leaves the unit fine. -/
def demoteUnit (s : State) (f : Nat) (u : FineUnit) : State :=
  if trivialUnit u then
    let k := (u.entries.head?.map Entry.kind).getD .unmapped
    (setCoarse s u.ns u.unit ⟨k, 0⟩).bump rMAP_DEMOTE 1
  else
    let g := demoteGroup s f u
    let src := (groupEntries s g).map Entry.addr
    let xs := src.filterMap (readGranule s)
    if !copyRoom s g.2 ∨ xs.length ≠ src.length then s
    else match pushCopyFine s u xs with
      | none => s
      | some (b, s) => s.setMap { s.map with demotes := s.map.demotes ++ [{ fine := g.1, src := src, slot := b }] }

/-- FINE_LOW is set at each fall of the free fine units below LOW_PCT (R170). -/
def fineTick (s : State) : State :=
  let low := decide ((finePool s - fineInUse s) * 100 < s.rd rMAP_LOW_PCT * s.map.fineTotal)
  let s := if low ∧ !s.map.fineLow then s.ev eMAP_FINE_LOW else s
  s.setMap { s.map with fineLow := low }

/-- DEMOTION: while free fine units are low the sweep takes one unit (R153). -/
def execDemotion (s : State) : Out :=
  .next <|
    let on := demotionRuns s
    let s := s.setMap { s.map with demoting := on }
    if !on then s
    else
      let order := (s.map.fine.filter fun p => decide (p.1 ≥ s.map.hand)) ++
        (s.map.fine.filter fun p => decide (p.1 < s.map.hand))
      let (pick, passed) := sweep s (s.rd rMAP_MIN_AGE) order []
      let age (f : Nat) (u : FineUnit) : FineUnit := if passed.contains f then { u with age := min (u.age + 1) 15 } else u
      let s := s.setMap { s.map with fine := Tbl.map s.map.fine age }
      match pick with
      | some (f, u) => demoteUnit (s.setMap { s.map with hand := f + 1 }) f u
      | none =>
        match oldestUnit s s.map.fine with
        | some (f, u) => demoteUnit (s.setMap { s.map with hand := f + 1 }) f u
        | none => s

/-! ## Checkpoints (R165-R167) -/

/-- Percent of the active half in use. -/
def deltaPct (s : State) : Nat := s.map.active.length * 100 / deltaHalf

/-- A page of the checkpoint. -/
structure MapPage where
  /-- 0 coarse entries, 1 fine units, 2 zone chunk entries, 3 page directory, 4 write sequence numbers -/
  kind : Nat
  /-- namespace index, or the level of a directory page -/
  ns : Nat
  /-- number of the page among those of its kind and namespace -/
  page : Nat
  deriving DecidableEq, Repr

/-- Map page number. DESIGN CHOICE: R275 puts one into an INTERNAL granule and the spec gives it no form. -/
def MapPage.number (p : MapPage) : Nat := p.kind * 2 ^ 44 + p.ns * 2 ^ 34 + p.page

/-- Chunk of a zoned namespace's block. -/
def chunkAt (s : State) (sp : Space) (lba : Nat) : Nat × Nat := ((zoneOf sp lba).1, (zoneOf sp lba).2 / max (puGran s) 1)

/-- The pages of the fine units from `f` on, `n` of them. -/
def finePages (f n : Nat) : List MapPage :=
  ((List.range n).map fun k => ({ kind := 1, ns := 0, page := (f + k) / 42 } : MapPage)).eraseDups

/-- The pages that a delta changed. A namespace clear changed those that the last checkpoint had for it. -/
def deltaPages (s : State) (d : Delta) : List MapPage :=
  let coarse : MapPage := { kind := 0, ns := d.ns, page := d.lba / 16 / 680 }
  let chunk (sp : Space) (lba : Nat) : MapPage :=
    { kind := 2, ns := d.ns, page := chunkNo s sp (chunkAt s sp lba).1 (chunkAt s sp lba).2 / 680 }
  match s.space d.ns with
  | none => []
  | some sp =>
    match d.typ with
    | 0 | 3 => [coarse]
    | 2 => coarse :: finePages d.entry.addr 1
    | 1 => match sp.typ with
      | .conventional =>
        let e := coarseOf s d.ns (d.lba / 16)
        if e.kind = .fine then finePages e.addr 1 else []
      | .zoned =>
        let (z, c) := chunkAt s sp d.lba
        let e := chunkOf s d.ns z c
        if e.kind = .fine then finePages (e.addr + (zoneOf sp d.lba).2 % max (puGran s) 1 / 16) 1 else []
    | 4 => chunk sp d.lba :: (if d.entry.kind = .fine then finePages d.entry.addr (chunkUnits s) else [])
    | 5 => [chunk sp d.lba]
    | _ => (s.map.dir.filter fun p => p.1 / 2 ^ 34 == d.ns || p.1 / 2 ^ 34 == 2048 + d.ns).map fun p =>
        { kind := p.1 / 2 ^ 44, ns := d.ns, page := p.1 % 2 ^ 34 }

/-- The pages that a half of the delta log changed, each once, and those of the write sequence numbers. -/
def changedPages (s : State) (ds : List Delta) : List MapPage :=
  let top := ((liveSpaces s).map fun p => p.1 + 1).foldl max 1
  (ds.flatMap (deltaPages s)).eraseDups ++ (List.range ((top + 679) / 680)).map fun k => { kind := 4, ns := 0, page := k }

/-- Pages that a page of the directory lists. DESIGN CHOICE: a page number of 6 B and an MGA of 5 B for each, 370 to a
page; the spec gives the tree no form. -/
def dirFan : Nat := 370

/-- What level `k` of the directory lists: the map pages at level 1, the pages of the level below above it. -/
def dirLists (d : Tbl Nat) (k : Nat) : List (List (Nat × Nat)) :=
  let l := d.filter fun p => if k = 1 then p.1 / 2 ^ 44 != 3 else p.1 / 2 ^ 34 == 3072 + (k - 1)
  (List.range ((l.length + dirFan - 1) / dirFan)).map fun i => (l.drop (dirFan * i)).take dirFan

/-- The bytes of a page as the map stands: a 16 B header with namespace index, first unit or zone and checkpoint number,
and the entries (R166). -/
def pageData (s : State) (p : MapPage) (num : Nat) : Block :=
  let first := if p.kind = 1 then p.page * 42 else p.page * 680
  let (at_, body) : Nat × List Byte := match p.kind with
    | 0 => (first, (List.range 680).flatMap fun i => leBytes 6 ((coarseOf s p.ns (first + i)).bits 0))
    | 1 => (first, (List.range 42).flatMap fun i => match Tbl.get s.map.fine (first + i) with
      | some u => u.bytes
      | none => zeros 96)
    | 2 => match s.space p.ns with
      | some sp => ((chunkOfNo s sp first).1, (List.range 680).flatMap fun i =>
          let (z, c) := chunkOfNo s sp (first + i)
          leBytes 6 ((chunkOf s p.ns z c).bits 0))
      | none => (0, [])
    | 3 => (p.page, ((dirLists s.map.dir p.ns).getD p.page []).flatMap fun e => leBytes 6 e.1 ++ leBytes 5 e.2)
    | _ => (first, (List.range 680).flatMap fun i => leBytes 6 (((s.space (first + i)).map Space.seq).getD 0))
  bitsOf 32768 (leBytes 2 p.ns ++ leBytes 6 at_ ++ leBytes 8 num ++ body)

/-- A page as a granule of stream 255: INTERNAL, with its number and namespace index 0 (R275). -/
def pageInfo (s : State) (p : MapPage) (num : Nat) : Info :=
  let d := pageData s p num
  mkInfo d (Metadata.pack { lga := p.number, ns := 0, pad := false, gcm := false, hmeta := false, internal := true,
                            wseq := num, crc := crc16 d, tag := 0 })

/-- What the root record of a checkpoint started now stands for: the map as it is. -/
def rootNow (s : State) : MapRoot :=
  { ckptNum := s.map.ckptNum + 1, seqHigh := s.map.seqHigh, seconds := s.now,
    seqs := (liveSpaces s).map fun p => (p.1, p.2.seq), guids := (liveSpaces s).map fun p => (p.1, p.2.nguid),
    coarse := s.map.coarse, fine := s.map.fine, chunks := s.map.chunks,
    zones := (liveSpaces s).map fun p => (p.1, p.2.zones), dir := s.map.dir }

/-- Pages go to stream 255, its last program unit closed with pad. -/
def pushPages (s : State) (pages : List MapPage) (num : Nat) : State :=
  let s := pages.foldl (fun s p => pushCopy s 255 0 (pageInfo s p num) .ckpt) s
  s.updTarget (tgtCtl 255) fun t => if t.held.isEmpty then t else { t with close := true }

/-- Pages of namespaces that are gone leave the directory. -/
def liveDir (s : State) : Tbl Nat :=
  s.map.dir.filter fun p => (p.1 / 2 ^ 44 != 0 && p.1 / 2 ^ 44 != 2) || (s.space (p.1 / 2 ^ 34 % 1024)).isSome

/-- A checkpoint starts: the active half is sealed and every changed page goes to stream 255 (R166). Without room for its
pages, or while one is being written, none starts. -/
def startCkpt (s : State) : State :=
  if s.map.ckpt ≠ .idle ∨ s.par.layout.isNone then s
  else
    let ps := changedPages s s.map.active
    if !copyRoom s ps.length then s
    else
      let root := rootNow s
      let s := pushPages (s.setMap { s.map with dir := liveDir s }) ps root.ckptNum
      s.setMap { s.map with ckpt := .writing, nextRoot := some root, sealed := s.map.active ++ s.map.sealed,
                            active := [] }

/-- CHECKPOINT_START: the active half reaches THRESH percent, or shutdown has come to its checkpoint (R166, R491). -/
def execCheckpointStart (s : State) : Out :=
  .next (if deltaPct s ≥ s.rd rMAP_THRESH then startCkpt s else s)

/-- CKPT_NOW: a write of 1 starts a checkpoint, and stands until one is adopted; THRESH is in the same word (R170). -/
def execCkptNow (p : Path) (w : Dword) (s : State) : Out :=
  .next <|
    let s := storeWord (s.wakePage 0x0D) p 13 0x60 w
    if w.getLsbD 31 then startCkpt (s.setMap { s.map with ckptNow := true }) else s

/-- Nothing of stream 255 waits: the pages handed to it are programmed. -/
def pagesWritten (s : State) : Bool :=
  !(s.wbf.slots.any fun p => p.2.state == .ckpt) && !(s.wbf.pus.any fun u => u.stream == 255 && u.state != .done)

/-- The changed pages of level `k` of the directory go to stream 255; pages past its end leave it (R166 step 3). -/
def pushLevel (s : State) (num k : Nat) : State :=
  let new := dirLists s.map.dir k
  let old := dirLists ((s.par.root.map fun r => r.map.dir).getD []) k
  let ps := ((List.range new.length).filter fun i => new[i]? != old[i]?).map fun i =>
    ({ kind := 3, ns := k, page := i } : MapPage)
  if !copyRoom s ps.length then s
  else
    let dir := s.map.dir.filter fun p => !(p.1 / 2 ^ 34 == 3072 + k && decide (p.1 % 2 ^ 34 ≥ new.length))
    (pushPages (s.setMap { s.map with dir := dir }) ps num).setMap
      { (pushPages (s.setMap { s.map with dir := dir }) ps num).map with ckpt := .directory k }

/-- Step 4: the root record enters the journal (R166, R309). -/
def recordRoot (s : State) (r : MapRoot) (top : Nat) : State :=
  let mga (n : Nat) : Nat := Tbl.getD s.map.dir n 0
  let s := jrec s 3 0 0 0 0 [(r.ckptNum, 8), (mga (MapPage.number { kind := 3, ns := top, page := 0 }), 5),
    (mga (MapPage.number { kind := 4, ns := 0, page := 0 }), 5), (r.seconds, 8), (r.seqHigh, 6)]
  let root : Root := { map := { r with dir := s.map.dir }, spans := s.par.spans, proxies := s.par.proxies,
                       rows := s.par.rows, retired := s.rcl.retired, spareTaken := s.rcl.spareTaken,
                       retiredSpans := s.rcl.retiredSpans }
  (s.setPar { s.par with rootPending := some root }).setMap { s.map with nextRoot := none }

/-- The pages that a checkpoint has written so far are on media: the next level of the directory follows, and after the
level of a single page the root record (R166 steps 3 and 4). -/
def writeRoot (s : State) : State :=
  match s.map.nextRoot, s.map.ckpt with
  | some r, .writing => if pagesWritten s ∧ s.par.rootPending.isNone then pushLevel s r.ckptNum 1 else s
  | some r, .directory k =>
    if !pagesWritten s ∨ s.par.rootPending.isSome then s
    else if (dirLists s.map.dir k).length ≤ 1 then recordRoot s r k
    else pushLevel s r.ckptNum (k + 1)
  | _, _ => s

/-- A checkpoint that CKPT_NOW asked for and that could not start is tried again (R170). -/
def ckptTick (s : State) : State := if s.map.ckptNow then startCkpt s else s

/-- Records of the journal from the newest ROOT on, newest first. -/
def sinceRoot : List JRec → List JRec
  | [] => []
  | r :: l => if r.typ = 3 then [r] else r :: sinceRoot l

/-- A replayed dump image is no longer needed once a checkpoint is adopted: its blocks are erased (R473, R492). -/
def eraseReserve (s : State) : State :=
  if s.hld.image.any DumpImage.replayed then
    let ks := s.hld.reserve.filter fun k => !s.hld.erased.contains k
    ks.foldl (fun s k => queuePslcErase s (k / 16384) (k % 16384) 2) (s.setHld { s.hld with image := none })
  else s

/-- Pages of the checkpoint that an adopted one replaces are valid no longer. -/
def dropPages (s : State) (old new : Tbl Nat) : State :=
  old.foldl (fun (s : State) (p : Nat × Nat) => if Tbl.get new p.1 = some p.2 then s else validDown s p.2 1) s

/-- CKPT_DONE: the root record is on two journal dies: it is adopted and the sealed half is freed (R166). -/
def execCkptDone (s : State) : Out :=
  .next <|
    match s.par.rootPending with
    | some r =>
      if (s.par.mirrors.filter fun m => m.service && m.hasRoot).length < 2 then s
      else
        let old := (s.par.root.map fun r => r.map.dir).getD []
        let s := s.setPar { s.par with root := some r, rootPending := none, journal := sinceRoot s.par.journal,
                                       mirrors := s.par.mirrors.map fun m => { m with hasRoot := false } }
        let s := eraseReserve (dropPages s old r.map.dir)
        (s.setMap { s.map with ckpt := .idle, ckptNow := false, ckptNum := r.map.ckptNum, sealed := [],
                               deltaFull := false }).ev eMAP_CKPT_DONE
    | none => s

/-- MAP_CKPT_NUM_LO_READ: latches CKPT_NUM_HI for the path (R170). -/
def execMapCkptNumLoRead (p : Path) (s : State) : Out :=
  .next <|
    (s.latch p rMAP_CKPT_NUM_HI.blk rMAP_CKPT_NUM_HI.off (BitVec.ofNat 32 (s.map.ckptNum / 2 ^ 32))).answer
      (.word (BitVec.ofNat 32 s.map.ckptNum))

end Sys2Proof.Machine
end

