-- ==== Sys2Proof/Machine/Resets.lean ====
section
/-! DEFINITION. Function-level resets, controller enable, SR-IOV, and the end of a deleted submission queue
(03 R94-R98; 04 R106, R118-R122, R129, R135; 14 R421, R426, R427). -/

namespace Sys2Proof.Machine

open Sys2Proof

/-! ## Deleted submission queues (R94-R96) -/

/-- Every command of a deleted queue that is not at its completion point ends with Command Aborted due to SQ Deletion;
then the queue goes, and its Delete completes once the aborted commands' completions are written. -/
def deleteSq (s : State) (f qid seq : Nat) : State :=
  let cs := s.qmx.cmds.filter fun c => c.fn == f && c.sqid == qid && !c.admin
  let s := cs.foldl (fun s c => (releaseCmd s c).finish c.seq stSqDeletion) s
  let s := s.bump rQMX_SQDEL cs.length
  let x := s.fn f
  let cqid := ((Tbl.get x.sqs qid).map Sq.cqid).getD 0
  let waits := (Tbl.get x.cqs cqid).any fun k => k.held.any fun e => e.sqid == qid
  let s := s.setFn f { x with sqs := Tbl.erase x.sqs qid }
  if waits then s.setQmx { s.qmx with sqWait := s.qmx.sqWait ++ [(f, cqid, qid, seq)] } else s.finish seq stOk

/-- SQ_DELETION_APPLY: the boundary after a Delete I/O Submission Queue (R94). -/
def execSqDeletionApply (s : State) : Out :=
  .next <|
    let l := s.qmx.sqDel
    l.foldl (fun s d => deleteSq s d.1 d.2.1 d.2.2) (s.setQmx { s.qmx with sqDel := [] })

/-! ## Firmware images (R413, R415) -/

/-- Why KEY refuses an image: 1 key digest, 2 revoked, 3 SVN, 4 signature or form (R413). -/
def imageReason (s : State) (sigOk : Bool) (keyDigest keyIndex svn : Nat) : Option Nat :=
  if Tbl.get s.fuses.digests keyIndex ≠ some keyDigest then some 1
  else if s.fuses.revoked.getLsbD keyIndex then some 2
  else if svn < s.fuses.svn then some 3
  else if !sigOk then some 4
  else none

/-- Section types that BOT knows (R480). -/
def knownSection (typ : Nat) : Bool := decide (1 ≤ typ ∧ typ ≤ 10) || typ == 0x100 || typ == 0x101

/-- The section table of a configuration image: 1-256 sections whose content matches their CRC-32; a type that BOT does not
know is ignored, and refused where it is REQUIRED (R480). -/
def sectionsFit (l : List ImgSection) : Bool :=
  decide (1 ≤ l.length ∧ l.length ≤ 256) && l.all fun x => x.crcOk && (knownSection x.typ || !x.required)

/-- Why KEY refuses a configuration image. -/
def cfgReason (s : State) (c : CfgImage) : Option Nat :=
  imageReason s (c.valid && sectionsFit c.sections) c.keyDigest c.keyIndex c.svn

/-- Firmware slot `k` (1 or 2). -/
def State.fwSlot (s : State) (k : Nat) : FwImage := Tbl.getD s.nor.fw k FwImage.none

/-- Why KEY refuses the image of a slot. -/
def slotReason (s : State) (k : Nat) : Option Nat :=
  let x := s.fwSlot k
  imageReason s x.valid x.keyDigest x.keyIndex x.svn

/-- CPX runs the image of slot `k`: measurement 3 is its digest, and open SPDM sessions end (R411, R415). -/
def switchImage (s : State) (k : Nat) : State :=
  let s := s.setBot { s.bot with fwSlot := k }
  s.setKey { s.key with meas := Tbl.set s.key.meas 3 (s.fwSlot k).digest, sessions := [] }

/-- A controller-level reset of function 0 activates the image that the last Firmware Commit chose for it (R100). DESIGN
CHOICE: the rule says "the next controller-level reset" and names no function; it is that of function 0, whose
controller received the Commit. -/
def activateNext (s : State) : State :=
  if s.bot.ready ∧ s.nor.fwNext ≠ s.bot.fwSlot ∧ s.qmx.act = .idle ∧ (slotReason s s.nor.fwNext).isNone then
    switchImage s s.nor.fwNext
  else s

/-! ## Function-level reset (R120-R122) -/

/-- A cause of a reset waits for the next boundary. -/
def armReset (s : State) (f : Nat) (c : FlrCause) : State := s.updFn f fun x => { x with flrArm := some c }

/-- Unpinned jobs of function `f` in any engine whose epoch passes a test (R118, R120, R121). -/
def staleJobs (s : State) (f : Nat) (p : Nat → Bool) : Bool :=
  let tagHit (t : JobTag) : Bool := t.fn == f && !t.pinned && p t.epoch
  s.stp.engs.any (fun j => tagHit j.tag) || s.stp.reads.any (fun j => tagHit j.tag)
    || s.fch.dies.any (fun d => (d.2.ring.any fun r => tagHit r.2.tag)
        || (d.2.op.any fun o => tagHit o.desc.tag) || (d.2.reinRead.any fun o => tagHit o.desc.tag))

/-- Step 1 and step 2 of R120: the epoch advances, every command of the function ends without a completion and returns
what it holds, and its queues, requests and features go. -/
def resetFn (s : State) (f : Nat) (cause : FlrCause) : State :=
  let cs := s.qmx.cmds.filter fun c => c.fn == f
  let s := cs.foldl (fun s c => (releaseCmd s c).dropCmd c.seq) s
  let s := s.setQmx { s.qmx with sqDel := s.qmx.sqDel.filter fun d => d.1 != f,
                                 sqWait := s.qmx.sqWait.filter fun d => d.1 != f }
  let s := dropAssoc s f
  s.updFn f fun x =>
    { x with epoch := (x.epoch + 1) % 256, enabled := false, shst := 0, sqs := [], cqs := [], aers := [], events := [],
             feats := [], tempWarn := false, flrArm := none, flr := some cause, flrFor := 0 }

/-- FUNCTION_LEVEL_RESET: the boundary after a cause. It waits while a job of the coming epoch remains (R121). A
function in DRAINING is FROZEN, and a saved record is withdrawn (R129, R135). -/
def execFunctionLevelReset (f : Nat) (s : State) : Out :=
  .next <|
    match (s.fn f).flrArm with
    | none => s
    | some cause =>
      let e := ((s.fn f).epoch + 1) % 256
      if staleJobs s f (· == e) then s
      else
        let s := resetFn s f cause
        let s := if f = 0 then activateNext s else s
        let s := s.updFn f fun x => { x with saving := false, record := none }
        match (s.fn f).state with
        | .draining => freezeDone s f
        | .saved => (s.updFn f fun x => { x with state := .frozen }).writeTable f [] 0
        | _ => s.writeTable f [] 0

/-- FLR_COMPLETE: no unpinned job of an old epoch remains in any engine; a Delete that waited completes (R108, R120). -/
def execFlrComplete (f : Nat) (s : State) : Out :=
  .next <|
    let x := s.fn f
    if x.flr.isNone ∨ x.flrArm.isSome ∨ staleJobs s f (· != x.epoch) then s
    else
      let s := (s.bump rTEN_FLR_COUNT 1).ev eTEN_FLR
      match x.deleteWait with
      | none => s.setFn f { x with flr := none }
      | some seq => ((endFn s f).finish seq stOk).writeTable f [] 0

/-- A function that a PCIe port reaches: function 0 on its PF, a function bound to PCIe whose VF is enabled (R106,
R107). -/
def pcieReach (s : State) (f : Nat) : Bool :=
  f == 0 || (decide (f < 256) && (s.fn f).bind == .pcie && (s.fn f).state != .free && (s.fn f).state != .idle
    && vfEnabled s f)

/-- A reset of a PCIe function puts its Device Control back (R419). -/
def resetDeviceControl (s : State) (f : Nat) : State := s.setHif { s.hif with devCtl := Tbl.erase s.hif.devCtl f }

/-- PCIE_FLR: a PCIe function-level reset of the PF or of a VF (R120, R418). -/
def execPcieFlr (f : Nat) (s : State) : Out :=
  .next <|
    if pcieReach s f then
      armReset (((resetDeviceControl (s.wake (requestDomains s f)) f).bump rHIF_FLR 1).ev eHIF_FLR) f .pcieFlr
    else s

/-! ## Controller enable (R98, R426) -/

/-- The controller of `f` can be reached: by PCIe on port `p`, or with no port by its fabrics association. -/
def reached (s : State) (f : Nat) (p : Option Nat) : Bool :=
  match p with
  | none => (assocOf s f).isSome
  | some p =>
    pcieReach s f && !ideBlocked s f && decide (p = 0 ∨ (p = 1 ∧ s.hif.dual)) &&
      (f == 0 || !s.hif.dual || decide (s.rdAt rHIF_VF_PORTk 0 (f / 32) / 2 ^ (f % 32) % 2 = p))

/-- The controller is enabled. On PCIe its admin queues are those of AQA, ASQ and ACQ; a fabrics controller has them
from its Connect. -/
def enableFn (s : State) (f : Nat) (pcie : Bool) (asqs acqs asq acq : Nat) : State :=
  let sq : Sq := { base := asq, size := asqs % 4096 + 1, cqid := 0, head := 0, tail := 0, pc := true }
  let cq : Cq := { base := acq, size := acqs % 4096 + 1, head := 0, tail := 0, phase := true, pc := true, ien := true,
                   vector := 0, posted := [], held := [], fullFor := 0, stalled := false }
  s.updFn f fun x =>
    if pcie then { x with enabled := true, sqs := Tbl.set x.sqs 0 sq, cqs := Tbl.set x.cqs 0 cq }
    else { x with enabled := true }

/-- CC_EN_SET: CC.EN of function `f` goes from 0 to 1, with the queue sizes of AQA and the bases of ASQ and ACQ; in
dual-port mode the first port to set it owns function 0, and the other is denied (R426). A write during a reset of the
function has no effect. -/
def execCcEnSet (f : Nat) (port : Option Nat) (asqs acqs asq acq : Nat) (s : State) : Out :=
  .next <|
    let x := s.fn f
    if !reached s f port then s
    else
    let s := s.wake (requestDomains s f)
    if x.flr.isSome ∨ x.flrArm.isSome ∨ x.offline then s
    else if f = 0 ∧ s.hif.dual ∧ port.isSome ∧ s.hif.owner.isSome ∧ s.hif.owner ≠ port then
      (s.bump rHIF_DENIED 1).ev eHIF_OWNER_DENIED
    else if x.enabled then s
    else
      let s := if f = 0 ∧ s.hif.dual then s.setHif { s.hif with owner := port } else s
      enableFn s f port.isSome asqs acqs asq acq

/-- CC_EN_CLEAR: CC.EN of function `f` goes from 1 to 0: the function is reset, and the owner gives up function 0
(R98, R120, R426). -/
def execCcEnClear (f : Nat) (port : Option Nat) (s : State) : Out :=
  .next <|
    let x := s.fn f
    if !reached s f port then s
    else
    let s := s.wake (requestDomains s f)
    if !x.enabled then s
    else if f = 0 ∧ s.hif.dual then
      if s.hif.owner = port then
        armReset ((s.setHif { s.hif with owner := none }).updFn 0 fun x => { x with enabled := false }) 0 .ccEn
      else s
    else armReset (s.setFn f { x with enabled := false }) f .ccEn

/-! ## SR-IOV (R106, R427) -/

def State.port (s : State) (p : Nat) : Port :=
  Tbl.getD s.hif.ports p { up := false, perst := false, training := false, numVfs := 0, lost := false }

def State.setPort (s : State) (p : Nat) (x : Port) : State :=
  s.setHif { s.hif with ports := Tbl.set s.hif.ports p x }

/-- Tenant functions bound to PCIe on a port. -/
def boundOn (s : State) (p : Nat) : List Nat :=
  ((s.fns.filter fun q => q.1 != 0 && q.2.bind == .pcie && q.2.state != .free && q.2.state != .idle).map Prod.fst).filter
    fun f => !s.hif.dual || s.rdAt rHIF_VF_PORTk 0 (f / 32) / 2 ^ (f % 32) % 2 == p

/-- SRIOV_NUMVFS_WRITE: NumVFs of a port's PF; a bound function whose VF it disables is reset and keeps its state and
binding (R106). -/
def execSriovNumvfsWrite (p n : Nat) (s : State) : Out :=
  .next <|
    if n > 255 ∨ (p ≠ 0 ∧ !(p = 1 ∧ s.hif.dual)) then s
    else
      let s := s.wake (linkDomains s.hif.dual p)
      let off := (boundOn s p).filter fun f => vfEnabled s f && decide (n < f)
      off.foldl (fun s f => armReset s f .numVfs) (s.setPort p { s.port p with numVfs := n })

end Sys2Proof.Machine
end

