-- ==== Sys2Proof/Machine/Links.lean ====
section
/-! DEFINITION. PCIe ports, IDE failures, Ethernet interfaces, fabrics associations and TLS records
(13 R408; 14 R418-R440). -/

namespace Sys2Proof.Machine

open Sys2Proof

/-! ## PCIe ports (R420, R421, R424, R425) -/

/-- A port that the mode has: port 1 only in dual-port mode (R425). -/
def portThere (s : State) (p : Nat) : Bool := p == 0 || (p == 1 && s.hif.dual)

/-- The port's link is gone: its register fields read link down. -/
def portDown (s : State) (p : Nat) (perst : Bool) : State :=
  let x := s.port p
  let s := s.setPort p { x with up := false, perst := perst, numVfs := 0, lost := x.lost || x.up }
  ((s.wrAt rHIF_SPEEDp 0 p 0).wrAt rHIF_WIDTHp 0 p 0).wrAt rHIF_FLITp 0 p 0

/-- Device Control after a reset of the function: PRESUMED the PCIe default, Relaxed Ordering and No Snoop enabled, 512 B
reads. -/
def deviceControlReset : BitVec 16 := 0x2810
def deviceControl (s : State) (f : Nat) : BitVec 16 := Tbl.getD s.hif.devCtl f deviceControlReset

/-- What HIF writes to host memory. -/
inductive HostWrite | data | completion | msix
  deriving DecidableEq, Repr

/-- The Relaxed Ordering attribute of a write to host memory: of data when Device Control enables it (bit 4), never of a
completion entry or an MSI-X message, so that neither passes the data before it (R419). -/
def relaxedOrdering (s : State) (f : Nat) : HostWrite → Bool
  | .data => (deviceControl s f).getLsbD 4
  | .completion | .msix => false

/-- A port's link is reset or lost: after start-up the functions bound on it are reset, and function 0 when the port
owns it (R421). -/
def linkReset (s : State) (p : Nat) (perst : Bool) : State :=
  let x := s.port p
  let fs := boundOn s p
  let owns := !s.hif.dual || s.hif.owner == some p
  let s := portDown s p perst
  let s := (if owns then 0 :: fs else fs).foldl resetDeviceControl s
  let s := if x.up then
      ((s.bump rHIF_LINK_DOWN 1).ev eHIF_LINK_DOWN).raise lHIF_LINK_DOWN none []
    else s
  if !s.bot.ready then s
  else
    let s := fs.foldl (fun s f => armReset s f .linkDown) s
    if owns then
      let s := if s.hif.dual then s.setHif { s.hif with owner := none } else s
      armReset (s.updFn 0 fun x => { x with enabled := false }) 0 .linkDown
    else s

/-- Duration of a phase in ms goes to PHASE_MS. -/
def phaseMs (s : State) (n from_ : Nat) : State :=
  let f := if n % 2 = 1 then rBOT_PHASE_MSk else rBOT_PHASE_MSk_16
  s.wrAt f 0 ((n - 1) / 2) (min ((s.tbs.clk - from_) / 1000000) 0xFFFF)

/-- PCIE_LINK_UP: port `p` trains at a rate code, width and mode, not above MAX_SPEED: x8, x4, x2 or x1, a port of the
dual-port mode x4 at most, and 64 GT/s in Flit mode only (R418, R420, R425, R448). -/
def execPcieLinkUp (p speed width : Nat) (flit : Bool) (s : State) : Out :=
  .next <|
    let x := s.port p
    if !portThere s p ∨ x.up ∨ !x.training ∨ speed = 0 ∨ speed > min 6 (s.rd rHIF_MAX_SPEED)
        ∨ !([1, 2, 4, 8] : List Nat).contains width ∨ (s.hif.dual ∧ width = 8) ∨ (speed = 6 ∧ !flit) then s
    else
      let s := s.wake (linkDomains s.hif.dual p)
      let s := s.setPort p { x with up := true, perst := false, lost := false }
      let s := ((s.wrAt rHIF_SPEEDp 0 p speed).wrAt rHIF_WIDTHp 0 p width).wrAt rHIF_FLITp 0 p (if flit then 1 else 0)
      let s := (s.ev eHIF_LINK_UP).ev eHIF_SPEED
      -- the first training of a start-up ends phase 3 (R484, R499)
      let s := match s.bot.linkClk with
        | some from_ => (phaseMs s 3 from_ : State)
        | none => s
      let s := s.setBot { s.bot with linkClk := none }
      if x.lost then s.raise lHIF_LINK_UP none [] else s

/-- PCIE_LINK_DOWN: a hot reset or link-down on port `p` (R421). -/
def execPcieLinkDown (p : Nat) (s : State) : Out :=
  .next (if portThere s p ∧ (s.port p).up then linkReset s p false else s)

/-- PERST_ASSERT: PE_PERST_Nn of a port that the mode has (R421, R425). -/
def execPerstAssert (p : Nat) (s : State) : Out :=
  .next (if portThere s p ∧ !(s.port p).perst then linkReset s p true else s)

/-- A request that HIF answers with Unsupported Request: a stream that covers the function is Insecure, or it is Secure and
the TLP did not come on it (R429); or the function is no enabled VF. -/
def configRefused (s : State) (f : Nat) (stream : Bool) : Bool :=
  ideBlocked s f || (ideSecure s f && !stream) || !(f == 0 || vfEnabled s f)

/-- PCIE_CONFIG_REQUEST: a request to configuration space of function `f` on port `p`, answered once the link is up (R420);
Device Control may be written (R419). A virtual function in reset answers when the reset is complete (R120). -/
def execPcieConfigRequest (p f : Nat) (req : ConfigReq) (s : State) : Out :=
  .next <|
    if !portThere s p ∨ !(s.port p).up then s
    else
      let s := s.wake (linkDomains s.hif.dual p)
      if configRefused s f req.stream then s.answer (.refusal 1)
      else if f ≠ 0 ∧ (s.fn f).flr.isSome then s
      else match req.at_ with
        | .word off => s.answer (.word (Config.configWord s.bot.cfg.digest f off))
        | .deviceControl none => s.answer (.word ((deviceControl s f).setWidth 32))
        | .deviceControl (some v) =>
          (s.setHif { s.hif with devCtl := Tbl.put s.hif.devCtl f v deviceControlReset }).answer .none

/-- HIF_WIN_CLOSE: a write of 1 to CLOSE closes BAR2 until device reset (R424). -/
def execHifWinClose (w : Dword) (s : State) : Out :=
  let s := s.wakePage 8
  .next (if w.getLsbD 0 then s.setHif { s.hif with closed := true } else s)

/-- HIF_IDE_FAIL: a TLP on stream `k` fails its check: the stream is Insecure and every function in its RID range is
reset (R429). -/
def execHifIdeFail (k : Nat) (s : State) : Out :=
  .next <|
    match Tbl.get s.hif.ide k with
    | some x =>
      if x.state ≠ .secure then s
      else
        let s := s.setHif { s.hif with ide := Tbl.set s.hif.ide k { x with state := .insecure } }
        let fs := (List.range 256).filter fun f =>
          decide (x.ridLo ≤ f ∧ f ≤ x.ridHi) && (f == 0 || ((s.fn f).state != .free && (s.fn f).state != .idle))
        let s := fs.foldl (fun s f => armReset s f .pcieFlr) s
        (s.ev eHIF_IDE_FAIL).raise lHIF_IDE_FAIL none [p4 k]
    | none => s

/-! ## Interfaces (R430-R432) -/

def State.iface (s : State) (i : Nat) : Iface :=
  Tbl.getD s.net.ifaces i { up := false, ignorePause := false, v6Route := none }

def State.setIface (s : State) (i : Nat) (x : Iface) : State :=
  s.setNet { s.net with ifaces := Tbl.set s.net.ifaces i x }

/-- Interfaces that the port modes in force give (R430): port p gives 2p, and 2p + 1 in mode 11. -/
def ifaceThere (s : State) (i : Nat) : Bool :=
  let m := s.net.modes.getD (i / 2) 0
  decide (i < 4) && m != 0 && (i % 2 == 0 || m == 3)

/-- ETH_LINK_CHANGE: interface `i` comes up or goes down; interfaces come up once NVMe is ready, and not in PS4
(R430, R461, R486). -/
def execEthLinkChange (i : Nat) (up : Bool) (s : State) : Out :=
  .next <|
    let x := s.iface i
    if !ifaceThere s i ∨ x.up = up ∨ (up ∧ (!s.net.ready ∨ s.thm.ps = 4)) then s
    else
      let s := s.setIface i { x with up := up }
      let s := s.wr rNET_LINK ((List.range 4).foldl (fun a k => if (s.iface k).up then a + 2 ^ k else a) 0)
      s.ev (if up then eNET_LINK_UP else eNET_LINK_DOWN)

/-- NET_PFC_STORM: pause on PFC_PRIO received for 100 ms is ignored (R432). -/
def execNetPfcStorm (i : Nat) (s : State) : Out :=
  .next <|
    let x := s.iface i
    if !ifaceThere s i ∨ !x.up ∨ x.ignorePause ∨ s.rdBank rNET_PFC_EN 0 i = 0 then s
    else ((s.setIface i { x with ignorePause := true }).ev eNET_PFC_STORM).raise lNET_PFC_STORM none [p4 i]

/-- PFC_STORM_END: pause absent for 100 ms is honoured again (R432). -/
def execPfcStormEnd (i : Nat) (s : State) : Out :=
  .next (if (s.iface i).ignorePause then s.setIface i { s.iface i with ignorePause := false } else s)

/-- MAC address of an interface: the base MAC plus the interface number (R431). -/
def ifaceMac (s : State) (i : Nat) : Nat := (s.fuses.mac.toNat + i) % 2 ^ 48

/-- IPv4 address of an interface; 0 is none. -/
def ifaceV4 (s : State) (i : Nat) : Nat := s.rdBank rNET_IPV4 0 i

/-- IPv6 address of an interface, IPV60 lowest. -/
def ifaceV6 (s : State) (i : Nat) : Nat :=
  addressOf fun k => s.rdBank rNET_IPV6k k i

/-- The interface answers. -/
def ifaceUp (s : State) (i : Nat) : Bool := ifaceThere s i && (s.iface i).up

/-- Link-local IPv6 address of an interface: PRESUMED fe80::/64 with the modified EUI-64 of its MAC address (R431). -/
def linkLocal (s : State) (i : Nat) : Nat :=
  let m := ifaceMac s i
  let high := (BitVec.ofNat 24 (m / 2 ^ 24) ^^^ 0x020000).toNat
  0xFE80 * 2 ^ 112 + high * 2 ^ 40 + 0xFFFE * 2 ^ 24 + m % 2 ^ 24

/-- An address of the interface, IPv4, IPv6 global or link-local; 0 is none. -/
def ifaceHas (s : State) (i : Nat) (v6 : Bool) (ip : Nat) : Bool :=
  ip != 0 && (if v6 then ip == ifaceV6 s i || ip == linkLocal s i else ip == ifaceV4 s i)

/-- A packet arrives at an interface that is up, and wakes its domains (R30). -/
def packetIn (s : State) (i : Nat) (act : State → State) : State :=
  if ifaceUp s i then act (s.wake (netDomains i)) else s

/-- ARP_REQUEST for an IPv4 address: answered with the interface's MAC address when it is the interface's (R431). -/
def execArpRequest (i ip : Nat) (s : State) : Out :=
  .next <| packetIn s i fun s => if ifaceHas s i false ip then s.answer (.value (ifaceMac s i)) else s

/-- NEIGHBOR_DISCOVERY for an IPv6 address (R431). -/
def execNeighborDiscovery (i ip : Nat) (s : State) : Out :=
  .next <| packetIn s i fun s => if ifaceHas s i true ip then s.answer (.value (ifaceMac s i)) else s

/-- ICMP_ECHO to an address of the interface: the data comes back (R431). -/
def execIcmpEcho (i ip : Nat) (v6 : Bool) (data : List Byte) (s : State) : Out :=
  .next <| packetIn s i fun s => if ifaceHas s i v6 ip then s.answer (.bytes data) else s

/-- ROUTER_ADVERTISEMENT: the IPv6 default route is the advertising router while its lifetime is not 0 (R431). -/
def execRouterAdvertisement (i router lifetime : Nat) (s : State) : Out :=
  .next <| packetIn s i fun s =>
    if lifetime ≠ 0 then s.setIface i { s.iface i with v6Route := some router }
    else if (s.iface i).v6Route = some router then s.setIface i { s.iface i with v6Route := none }
    else s

/-! ## TLS (R408, R434, R435) -/

/-- Lowest free TLS index of the 1,024. -/
def freeTlsIndex (s : State) : Option Nat :=
  let a := freeKey s.net.tls 0
  if a < 1024 then some a else none

/-- The PSK of a tenant function under a suite: the first 32 B (SHA-256, suite 1) or 48 B of HKDF-SHA384 of the manager's KWK
with QH7620-PSK, the function and its PSK_GEN (R407, R434). -/
def tlsPsk (s : State) (kwk f suite : Nat) : Nat :=
  Config.hkdf [] kwk ([0x51, 0x48, 0x37, 0x36, 0x32, 0x30, 0x2D, 0x50, 0x53, 0x4B] ++ leBytes 1 f ++ leBytes 4 (s.rdBank rNET_PSK_GEN 0 f)) %
    2 ^ (if suite = 1 then 256 else 384)

/-- TLS_HANDSHAKE for function `f` with a suite, 0 or 1, and the PSK that the host holds: it fails with alert
unknown_psk_identity (115) while slot 0 is EMPTY, decrypt_error (51) on another PSK, and internal_error (80) without a
free index; else the connection takes an index and its traffic keys (R434, R435). -/
def execTlsHandshake (f suite psk : Nat) (s : State) : Out :=
  .next <|
    if !s.net.ready then s
    else
      let s := s.wake (domains 35 37 ||| keyDomains)
      match (s.keySlot 0).key with
      | none => s.answer (.refusal 115)
      | some kwk =>
        if psk ≠ tlsPsk s kwk f suite then s.answer (.refusal 51)
        else match freeTlsIndex s with
          | none => (s.ev eNET_TLS_FULL).answer (.refusal 80)
          | some a =>
            let (n, s) := s.draw
            let (m, s) := s.draw
            let s := s.setNet { s.net with tls := Tbl.set s.net.tls a (f, suite) }
            let s := s.setCip { s.cip with rxRecords := Tbl.put s.cip.rxRecords a 0 0 }
            let key (k : Nat) : KeySlot := { KeySlot.empty with key := some (Config.trafficKey k), owner := f }
            ((s.setKeySlot (1536 + 2 * a) (key n)).setKeySlot (1537 + 2 * a) (key m)).answer (.value a)

/-- Number that CONNECT gives for the well-known discovery NQN: no function has it (R440). -/
def discoveryFn : Nat := 256

/-- A discovery association that a condition names is lost (R438, R440). -/
def loseDiscovery (s : State) (cause : Nat) (which : Assoc → Bool) : State :=
  match s.net.assocs.findIdx? fun a => a.discovery && which a with
  | none => s
  | some i =>
    let s := s.setNet { s.net with assocs := s.net.assocs.eraseIdx i }
    (s.ev eNET_ASSOC_LOST).raise lNET_ASSOC_LOST none [p4 cause]

/-- The association of a function is lost: its function is reset at the next boundary (R98, R120, R438). Causes of the
ledger event: 1 Keep Alive, 2 admin connection closed, 3 address changed, 4 TLS. -/
def loseAssoc (s : State) (f cause : Nat) : State :=
  if f = discoveryFn then loseDiscovery s cause fun _ => true
  else if (assocOf s f).isNone ∨ (s.fn f).flrArm.isSome then s
  else ((armReset s f .assocLost).ev eNET_ASSOC_LOST).raise lNET_ASSOC_LOST (some f) [p4 cause]

/-- TLS_RECORD_RECEIVE on TLS index `a`: a tag failure closes the association with alert bad_record_mac (20) (R408). -/
def execTlsRecordReceive (a : Nat) (tagOk : Bool) (s : State) : Out :=
  .next <|
    match Tbl.get s.net.tls a with
    | none => s
    | some (f, _) =>
      let s := (s.wake (domains 35 35 ||| keyDomains)).bump rCIP_TLS_REC 1
      if tagOk then
        s.setCip { s.cip with rxRecords := Tbl.put s.cip.rxRecords a (Tbl.getD s.cip.rxRecords a 0 + 1) 0 }
      else
        let s := ((s.bump rCIP_TLS_AUTH_FAIL 1).ev eCIP_TLS_FAIL).raise lCIP_TLS_FAIL (some f) []
        let s := s.answer (.refusal 20)
        if (assocOf s f).any fun x => x.queues.any fun q => q.2 == some a then loseAssoc s f 4 else freeTls s a

/-- TLS_KEY_UPDATE: after 2^23 records under one key in a direction the next key enters the same slot, the old one its
shadow (R405, R408). Transmitted records pass no command of the table: the sender of this one has counted them. -/
def execTlsKeyUpdate (a : Nat) (tx : Bool) (s : State) : Out :=
  .next <|
    match Tbl.get s.net.tls a with
    | none => s
    | some _ =>
      if !tx ∧ Tbl.getD s.cip.rxRecords a 0 < 2 ^ 23 then s
      else
        let k := if tx then 1536 + 2 * a else 1537 + 2 * a
        let (n, s) := s.draw
        let x := s.keySlot k
        let s := s.setKeySlot k { x with key := some (Config.trafficKey n), shadow := x.key, gen := x.gen + 1 }
        let s := s.setKey { s.key with clears := s.key.clears ++ [{ slot := k, seq := none }] }
        let s := if tx then s else s.setCip { s.cip with rxRecords := Tbl.put s.cip.rxRecords a 0 0 }
        s.bump rCIP_KEY_UPDATE 1

/-! ## Associations (R436-R439) -/

/-- Network queue pairs in use, admin queues included (R433). -/
def nqpUsed (s : State) : Nat := (s.net.assocs.map fun a => a.queues.length).sum

/-- The host is in the function's allow list, or the list is ignored; an all-zero entry is empty (R437). -/
def hostAllowed (s : State) (f hostHash : Nat) : Bool :=
  let word (e w : Nat) : Nat := s.rdBank rNET_ACL (4 * e + w) f
  let entry (e : Nat) : Nat := word e 0 + 2 ^ 32 * word e 1 + 2 ^ 64 * word e 2 + 2 ^ 96 * word e 3
  s.rdBank rNET_ANY_HOST 0 f == 1 || ((List.range 4).any fun e => entry e != 0 && entry e == hostHash)

/-- Transports that a function allows. -/
def transports (s : State) (f : Nat) : List Bool :=
  (if s.rd rNET_TCP_EN * s.rdBank rNET_TCP_OK 0 f = 1 then [false] else []) ++
    (if s.rd rNET_RDMA_EN * s.rdBank rNET_RDMA_OK 0 f = 1 then [true] else [])

/-- Configured addresses: interface, IPv6 or not, and the address. -/
def addresses (s : State) : List (Nat × Bool × Nat) :=
  ((List.range 4).filter (ifaceThere s)).flatMap fun i =>
    (if ifaceV4 s i = 0 then [] else [(i, false, ifaceV4 s i)]) ++
      (if ifaceV6 s i = 0 then [] else [(i, true, ifaceV6 s i)])

/-- Discovery Log Page entries of the ACTIVE network-bound functions that a condition picks: one for each allowed transport
and configured address (R440). -/
def discoveryItems (s : State) (picks : Nat → Bool) : List DiscItem :=
  let fs := (s.fns.filter fun p => p.1 != 0 && p.2.state == .active && p.2.bind == .network && picks p.1).map Prod.fst
  fs.flatMap fun f => (transports s f).flatMap fun r => (addresses s).map fun a =>
    { fn := f, rdma := r, iface := a.1, v6 := a.2.1, addr := a.2.2, tls := s.rdBank rNET_TLS_REQ 0 f == 1 }

/-- The allow lists that decide which host sees which entry. -/
def discoveryAcl (s : State) : List Nat :=
  (discoveryItems s fun _ => true).flatMap fun x =>
    s.rdBank rNET_ANY_HOST 0 x.fn :: (List.range 16).map fun k => s.rdBank rNET_ACL k x.fn

/-- A persistent discovery association, one with a Keep Alive timeout, sees its page change (R440). -/
def discoveryNotice (s : State) (a : Assoc) : Assoc :=
  let now := discoveryItems s fun f => hostAllowed s f a.hostHash
  if a.discovery && now != a.seen then { a with seen := now, notice := a.notice || decide (a.kato ≠ 0) } else a

/-- At a boundary: a page that has changed has a new generation, and persistent discovery connections an event (R440). -/
def discoveryTick (s : State) : State :=
  let now := discoveryItems s fun _ => true
  let acl := discoveryAcl s
  if now = s.net.discSeen ∧ acl = s.net.discAcl then s
  else s.setNet { s.net with discSeen := now, discAcl := acl, discGen := s.net.discGen + 1,
                             assocs := s.net.assocs.map (discoveryNotice s) }

/-- The checks of R437 in order: the status of the first that fails. Connect Controller Busy is 81h, Invalid
Parameters 82h, Invalid Host 84h. -/
def connectRefused (s : State) (f qid hostHash : Nat) (rdma : Bool) (tls : Option Nat) : Option Nat :=
  let x := s.fn f
  let usesTls := match tls.bind fun a => Tbl.get s.net.tls a with
    | some (g, _) => g == f
    | none => false
  if f = 0 ∨ f > 255 ∨ x.bind ≠ .network ∨ x.state ≠ .active then some 0x82
  else if (if rdma then s.rd rNET_RDMA_EN * s.rdBank rNET_RDMA_OK 0 f else s.rd rNET_TCP_EN * s.rdBank rNET_TCP_OK 0 f) = 0
    then some 0x82
  else if s.rdBank rNET_TLS_REQ 0 f = 1 ∧ !usesTls then some 0x84
  else if !hostAllowed s f hostHash then some 0x84
  else if qid = 0 ∧ ((assocOf s f).isSome ∨ x.flr.isSome ∨ x.flrArm.isSome ∨ s.net.assocs.length ≥ 1024) then some 0x81
  else if qid ≠ 0 ∧ !((assocOf s f).any fun a => a.hostHash == hostHash) then some 0x81
  else if qid > x.harness.qpairs ∨ nqpUsed s ≥ 4096 ∨ (Tbl.get x.sqs qid).isSome then some 0x82
  else none

/-- The Connect checks that a discovery association meets: DISC_EN, the transport, and room; no host is refused (R433, R436,
R440). -/
def discoveryRefused (s : State) (qid : Nat) (rdma : Bool) : Option Nat :=
  if s.rd rNET_DISC_EN = 0 ∨ s.rd (if rdma then rNET_RDMA_EN else rNET_TCP_EN) = 0 ∨ qid ≠ 0 then some 0x82
  else if s.net.assocs.length ≥ 1024 then some 0x81
  else if nqpUsed s ≥ 4096 then some 0x82
  else none

/-- A refused Connect is counted, and the first in a second recorded (R437). -/
def connectRefuse (s : State) (t : Nat) : State :=
  let s := (s.bump rNET_CONN_REFUSED 1).ev eNET_CONN_REFUSED
  let s := if s.net.refusedSeen then s
    else (s.setNet { s.net with refusedSeen := true }).raise lNET_CONN_REFUSED none []
  s.answer (.refusal t)

/-- An association begins on its admin queue. -/
def beginAssoc (s : State) (f hostHash kato i : Nat) (v6 rdma : Bool) (tls : Option Nat) (seen : List DiscItem) : State :=
  s.setNet { s.net with assocs := s.net.assocs ++
    [{ fn := f, hostHash := hostHash, rdma := rdma, kato := kato, kaClk := s.tbs.clk, queues := [(0, tls)],
       iface := i, v6 := v6, discovery := f == discoveryFn, seen := seen, notice := false }] }

/-- CONNECT of queue `qid` with `size` entries to the subsystem of function `f`, from a host by the hash of its NQN, on
interface `i`; accepted, it returns CNTLID (R436, R437). KATO is in ms, 0 for none (R438). The discovery subsystem, number
256, takes discovery associations, whose CNTLID is free (R440). -/
def execConnect (f qid size hostHash kato i : Nat) (v6 rdma : Bool) (tls : Option Nat) (s : State) : Out :=
  .next <|
    if !s.net.ready then s
    else
      let s := s.wake (netDomains i)
      if f = discoveryFn then
        match discoveryRefused s qid rdma with
        | some t => connectRefuse s t
        | none =>
          let (n, s) := s.draw
          (beginAssoc s f hostHash kato i v6 rdma none (discoveryItems s fun f => hostAllowed s f hostHash)).answer
            (.value (Config.discoveryCntlid n).toNat)
      else match connectRefused s f qid hostHash rdma tls with
      | some t => connectRefuse s t
      | none =>
        let n := max 2 (min size 4096)
        let sq : Sq := { base := 0, size := n, cqid := qid, head := 0, tail := 0, pc := true }
        let cq : Cq := { base := 0, size := n, head := 0, tail := 0, phase := true, pc := true, ien := false,
                         vector := 0, posted := [], held := [], fullFor := 0, stalled := false }
        let s := s.updFn f fun x => { x with sqs := Tbl.set x.sqs qid sq, cqs := Tbl.set x.cqs qid cq }
        let s := if qid = 0 then beginAssoc s f hostHash kato i v6 rdma tls []
          else s.updAssoc f fun a => { a with queues := a.queues ++ [(qid, tls)] }
        s.answer (.value f)

/-- A receive buffer for a capsule of the queue is free; else NET withholds window or credit, and the capsule has not
arrived (R101). DESIGN CHOICE: the spec gives no buffer size; a queue has one for each of its entries. -/
def capsuleRoom (s : State) (f qid : Nat) : Bool :=
  decide ((s.net.capsules.filter fun c => c.1 == f && c.2.1 == qid).length <
    ((Tbl.get (s.fn f).sqs qid).map Sq.size).getD 0)

/-- COMMAND_CAPSULE: a capsule of queue `qid` arrives with a DSCP, whose gait it keeps (R439). -/
def execCommandCapsule (f qid cid dscp : Nat) (s : State) : Out :=
  .next <|
    let g := s.rdAt rNET_DSCP_GAITk 0 (dscp % 64 / 16) / 4 ^ (dscp % 16) % 4
    if !((assocOf s f).any fun a => a.queues.any fun q => q.1 == qid) ∨ !capsuleRoom s f qid then s
    else
      let s := s.wake (requestDomains s f)
      s.setNet { s.net with capsules := s.net.capsules ++ [(f, qid, cid, g)] }

/-- KEEP_ALIVE_EXPIRY (R438). -/
def execKeepAliveExpiry (f : Nat) (s : State) : Out :=
  .next <|
    if f = discoveryFn then
      -- no command of the table restarts a discovery association's timer: its expiry is as told
      if s.net.assocs.any fun a => a.discovery && decide (a.kato ≠ 0 ∧ a.kaClk + 1000000 * a.kato ≤ s.tbs.clk) then
        loseDiscovery (s.bump rNET_KATO 1) 1 fun a => decide (a.kato ≠ 0 ∧ a.kaClk + 1000000 * a.kato ≤ s.tbs.clk)
      else s
    else match assocOf s f with
    | some a =>
      if a.kato = 0 ∨ s.tbs.clk < a.kaClk + 1000000 * a.kato ∨ (s.fn f).flrArm.isSome then s
      else loseAssoc (s.bump rNET_KATO 1) f 1
    | none => s

/-- ADMIN_CONNECTION_CLOSE (R438). -/
def execAdminConnectionClose (f : Nat) (s : State) : Out := .next (loseAssoc s f 2)

/-! ## Properties (R70, R374, R420, R426, R487) -/

/-- CSTS.CFS: the device is frozen (R374), or start-up stopped at phase 4 or later, on function 0 (R493). -/
def cfs (s : State) (f : Nat) : Bool := s.dmc.frozen || (f == 0 && decide (s.bot.failPhase ≥ 4))

/-- CSTS of a function: RDY, CFS, SHST, PP. -/
def csts (s : State) (f : Nat) : Nat :=
  let x := s.fn f
  (if s.bot.ready && x.enabled then 1 else 0) + (if cfs s f then 2 else 0) + 4 * x.shst + (if x.pp then 32 else 0)

/-- CAP: MQES 4,095, TO 240, NSSRS on function 0, both command sets by CSS 40h, CRMS 1 (R70, R487, R494). -/
def cap (f : Nat) : Nat :=
  4095 + 2 ^ 16 + 240 * 2 ^ 24 + (if f = 0 then 2 ^ 36 else 0) + 0x40 * 2 ^ 37 + 2 ^ 59

/-- PROPERTY_GET of an offset of the controller registers: CAP 00h, CC 14h (EN), CSTS 1Ch, CRTO 68h; others have no
value in the model's state and read 0. -/
def execPropertyGet (f off : Nat) (s : State) : Out :=
  .next <|
    if (assocOf s f).isNone then s
    else (s.wake (requestDomains s f)).answer (.value (match off with
      | 0x00 => cap f
      | 0x14 => if (s.fn f).enabled then 1 else 0
      | 0x1C => csts s f
      | 0x68 => 240
      | _ => 0))

/-! ## Discovery (R440) -/

/-- Bytes of text, padded. -/
def text (n : Nat) (t : String) : List Byte :=
  let b := t.toList.map fun c => BitVec.ofNat 8 c.toNat
  b ++ zeros (n - b.length)

/-- Hexadecimal digits of a byte, lower case. -/
def hexDigit (n : Nat) : Byte := BitVec.ofNat 8 (if n < 10 then 0x30 + n else 0x57 + n)
def hexByte (b : Byte) : List Byte := [hexDigit (b.toNat / 16), hexDigit (b.toNat % 16)]

/-- The version-8 UUID of a tenant function: the first 16 B of SHA-384 over the device serial and the function number, with
the version and variant bits of that form (R436). -/
def uuidOf (s : State) (f : Nat) : List Byte :=
  let b := leBytes 16 (Config.sha384 (leBytes 16 s.fuses.serial.toNat ++ leBytes 1 f))
  b.zipIdx.map fun x =>
    if x.2 = 6 then (x.1 &&& 0x0F) ||| 0x80 else if x.2 = 8 then (x.1 &&& 0x3F) ||| 0x80 else x.1

/-- The subsystem NQN of a tenant function, nqn.2014-08.org.nvmexpress:uuid: and its UUID, in 256 B (R436). -/
def subsystemNqn (s : State) (f : Nat) : List Byte :=
  let u := uuidOf s f
  let part (a n : Nat) : List Byte := ((u.drop a).take n).flatMap hexByte
  let t : List Byte :=
    [0x6E, 0x71, 0x6E, 0x2E, 0x32, 0x30, 0x31, 0x34, 0x2D, 0x30, 0x38, 0x2E, 0x6F, 0x72, 0x67, 0x2E, 0x6E,
     0x76, 0x6D, 0x65, 0x78, 0x70, 0x72, 0x65, 0x73, 0x73, 0x3A, 0x75, 0x75, 0x69, 0x64, 0x3A]
  let b := t ++ part 0 4 ++ [0x2D] ++ part 4 2 ++ [0x2D] ++ part 6 2 ++ [0x2D] ++ part 8 2 ++ [0x2D] ++ part 10 6
  b ++ zeros (256 - b.length)

/-- An entry of the Discovery Log Page, 1,024 B, in the layout of the NVMe over Fabrics specification. -/
def discoveryEntry (s : State) (x : DiscItem) : List Byte :=
  let head := leBytes 1 (if x.rdma then 1 else 3) ++ leBytes 1 (if x.v6 then 2 else 1) ++ leBytes 1 2
    ++ leBytes 1 (if x.tls then 1 else 2) ++ leBytes 2 x.iface ++ leBytes 2 x.fn ++ leBytes 2 32 ++ zeros 22
  let svc := leBytes 2 (s.rd rNET_TCP_PORT) ++ zeros 30
  head ++ svc ++ zeros 192 ++ subsystemNqn s x.fn ++ (leBytes 16 x.addr ++ zeros 240) ++ zeros 256

/-- DISCOVERY_LOG_PAGE for a host: one entry for each allowed transport and address of each ACTIVE network-bound
function that admits the host (R440). The host has then seen the change that an event told. -/
def execDiscoveryLogPage (hostHash : Nat) (s : State) : Out :=
  .next <|
    if !s.net.ready ∨ s.rd rNET_DISC_EN = 0 then s
    else
      let s := s.wake (domains 36 37)
      let es := (discoveryItems s fun f => hostAllowed s f hostHash).map (discoveryEntry s)
      let s := s.setNet { s.net with assocs := s.net.assocs.map fun a =>
        if a.discovery ∧ a.hostHash = hostHash then { a with notice := false } else a }
      s.answer (.bytes (leBytes 8 s.net.discGen ++ leBytes 8 es.length ++ zeros 1008 ++ es.flatten))

end Sys2Proof.Machine
end

