-- ==== Sys2Proof/Machine/Planner.lean ====
section
/-! DEFINITION. The stride planner: die timelines and answer strides (R246-R252), turns and windows (R253-R256),
read-around and degraded reads (R259-R262), throttling (R269). -/

namespace Sys2Proof.Machine

open Sys2Proof

/-! ## Ticks (R205) -/

def tickNow (s : State) : Nat := s.fch.tick.toNat

/-- The tick `n` strides after the one in progress. -/
def tickPlus (s : State) (n : Nat) : Nat := (tickNow s + n) % 2 ^ 32

/-- Strides from the one in progress to tick `x`, negative for the past. -/
def tickDiff (s : State) (x : Nat) : Int := ofSigned 32 ((x + 2 ^ 32 - tickNow s) % 2 ^ 32)

/-! ## Turns (R254, R255) -/

/-- K, the number of classes (R254). -/
def classes (s : State) : Nat := spanMembers s

/-- Turn `n` strides ahead: its class, and the position of that stride in it. -/
def turnAt (s : State) (n : Nat) : Nat × Nat :=
  let len := max s.stp.turnLen 1
  let p := s.stp.turnPos + n
  ((s.stp.openClass + p / len) % max (classes s) 1, p % len)

/-- A window of `len` unreadable strides that begins `n` strides ahead lies in one turn of the die's class (R255). -/
def windowFits (s : State) (d n len : Nat) : Bool :=
  let (c, p) := turnAt s n
  c == (s.die d).phaseClass && decide (p + len ≤ s.stp.turnLen)

/-- Unreadable strides of an operation's rein interval: the interval plus the suspend latency less READ_WAIT
(R255). -/
def windowLen (s : State) (d : Nat) (t : OpType) : Nat :=
  let nn := chanOf d
  let i := if t = .erase then s.rdAt rFCH_ERASE_INTERVAL nn 0 else s.rdAt rFCH_PROG_INTERVAL nn 0
  i + (s.die d).profile.suspend - s.rd rSTP_READ_WAIT

/-- A window is deferred to a later turn: counted once for each die that waits with one (R271). -/
def deferWindow (s : State) (d : Nat) : State :=
  if s.stp.turnWaits.contains d then s
  else (s.setStp { s.stp with turnWaits := d :: s.stp.turnWaits }).bump rSTP_TURN_WAIT 1

/-- A die's window is placed. -/
def windowPlaced (s : State) (d : Nat) : State :=
  s.setStp { s.stp with turnWaits := s.stp.turnWaits.filter (· != d) }

/-- TURN_BOUNDARY: a turn whose strides have passed ends; the open class advances, unless a window of the class
outlasts the turn, which then stretches (R254, R256). TURN_STRIDES applies from here (R271). -/
def execTurnBoundary (s : State) : Out :=
  .next <|
    if s.stp.turnPos < s.stp.turnLen ∨ classes s = 0 then s
    else if tickDiff s s.stp.windowEnd > 0 then
      let first := decide (s.stp.turnPos = s.stp.turnLen)
      let s := s.setStp { s.stp with turnLen := s.stp.turnLen + 1 }
      if first then (s.bump rSTP_STRETCH 1).ev eSTP_STRETCH else s
    else s.setStp { s.stp with openClass := (s.stp.openClass + 1) % classes s, turnPos := 0,
                               turnLen := s.rd rSTP_TURN_STRIDES }

/-! ## Timelines (R246) -/

/-- Strides for which a descriptor holds its die. -/
def holdStrides (s : State) (d : Nat) (x : Desc) : Nat :=
  let p := (s.die d).profile
  match x.typ with
  | .readRun => runGroups s x * p.tr + 3
  | _ => nominal p x

/-- A descriptor placed on a die takes a ring entry and a segment after those of its timeline that it may not pass
(R207, R246, R248), due `ahead` strides ahead; none when either is full. -/
def placeAt (s : State) (d ahead : Nat) (x : Desc) : Option State :=
  let y := s.die d
  if ringRoom s d = 0 ∨ y.timeline.length ≥ 16 then none
  else
    let slot := ((List.range 64).find? fun k => (Tbl.get y.ring ((y.next + k) % 64)).isNone).getD 0
    let before := y.timeline.filter fun g => !(isRead x.typ && yields g.typ)
    let start := before.foldl (fun m g => max m (tickDiff s g.nomEnd + 1)) 1
    let from_ := max start.toNat ahead
    let i := if x.typ = .erase then s.rdAt rFCH_ERASE_INTERVAL (chanOf d) 0 else s.rdAt rFCH_PROG_INTERVAL (chanOf d) 0
    let g : Seg := { slot := (y.next + slot) % 64, typ := x.typ, start := tickPlus s from_,
                     nomEnd := tickPlus s (from_ + holdStrides s d x), reinFrom := tickPlus s (from_ + i), reins := 0,
                     rank := descRank x }
    let s := pushDesc s d x ahead
    some (s.updDie d fun y => { y with timeline := y.timeline ++ [g] })

/-- A descriptor placed for the next stride. -/
def placeDesc (s : State) (d : Nat) (x : Desc) : Option State := placeAt s d 1 x

/-- Two descriptors of one die, placed together or not at all. -/
def placeTwo (s : State) (d : Nat) (x y : Desc) : Option State :=
  (placeDesc s d x).bind fun s => placeDesc s d y

/-- Segments at a stride boundary: ended ones leave; the running operation's segment follows it, and one that runs
past its end, or has not started, is extended (R246). -/
def advanceTimeline (s : State) (d : Nat) (y : Die) : Die :=
  let t := y.timeline.filter fun g => (Tbl.get y.ring g.slot).isSome
  let adv (g : Seg) : Seg :=
    match y.op with
    | some o =>
      if o.slot = g.slot then
        let i := if g.typ = .erase then s.rdAt rFCH_ERASE_INTERVAL (chanOf d) 0
          else s.rdAt rFCH_PROG_INTERVAL (chanOf d) 0
        { g with nomEnd := tickPlus s (max 1 (nominal y.profile o.desc - o.run)),
                 reinFrom := tickPlus s (i - o.interval), reins := o.reins }
      else if tickDiff s g.nomEnd < 1 then { g with nomEnd := tickPlus s 1 } else g
    | none => if tickDiff s g.nomEnd < 1 then { g with nomEnd := tickPlus s 1 } else g
  { y with timeline := t.map adv }

/-- A die may take one more program or erase: at throttle levels 1-4, dies that hold one number less than 3/4, 1/2, 1/4
and 0 of those in service (R269). -/
def yieldRoom (s : State) (d : Nat) : Bool :=
  let busy (y : Die) : Bool := y.timeline.any fun g => yields g.typ
  let n := (s.fch.dies.filter fun p => p.2.service).length
  s.stp.throttle == 0 || (s.stp.throttle < 4 && busy (s.die d)) ||
    decide ((s.fch.dies.filter fun p => busy p.2).length < n * (4 - s.stp.throttle) / 4)

/-! ## Answer strides (R252) -/

/-- STP may rein the operation: the next rein does not bring it to its cap less one (R252). -/
def stpMayRein (s : State) (d : Nat) (o : DieOp) : Bool :=
  reinKind o && decide (o.reins + 1 < reinCap s (chanOf d) o - 1)

/-- Strides ahead at which a rein of one read at `t` lets the operation resume. -/
def resumeAt (s : State) (d : Nat) (t : Nat) : Nat := t + (s.die d).profile.suspend + (s.die d).profile.tr + 1

/-- The next rein leaves the operation at STP's rein limit: no further one may follow it (R255). -/
def lastRein (s : State) (d : Nat) (o : DieOp) : Bool := !stpMayRein s d { o with reins := o.reins + 1 }

/-- What the operation's resume opens fits a turn of the die's class: a window of its rein interval, or, when the rein
leaves it at the rein limit, all that remains of it; what is no window fits anywhere (R255). -/
def resumeFits (s : State) (d : Nat) (o : DieOp) (t : Nat) : Bool :=
  let w := windowLen s d o.desc.typ
  let left := opLeft (s.die d) o
  (w == 0 || windowFits s d (resumeAt s d t) w) &&
    (!lastRein s d o || decide (left ≤ s.rd rSTP_READ_WAIT) || windowFits s d (resumeAt s d t) left)

/-- Where a read of gait `g` on die `d` can begin, counted from the stride in progress with the next as 1: the stride in
which its array read can begin, the answer, and the stride in which the rein that lets it begins, if one does (R252). -/
def answerPlan (s : State) (d g : Nat) : Nat × Option Nat :=
  let y := s.die d
  let ends := (y.timeline.filter fun x => isRead x.typ && decide (x.rank ≤ g + 1)).map fun x =>
    (tickDiff s x.nomEnd + 1).toNat
  let t := ends.foldl max 1
  match y.op with
  | none => (t, none)
  | some o =>
    let left := opLeft y o
    let end_ := max t (max 1 left)
    if isRead o.desc.typ ∨ t > left then (t, none)
    else if left ≤ t + s.rdAt rFCH_TAIL (chanOf d) 0 ∨ g ≥ 3 ∨ !stpMayRein s d o then (end_, none)
    else
      let t := max t (reinInterval s (chanOf d) o - o.interval)
      if !resumeFits s d o t then (end_, none) else (t + y.profile.suspend, some t)

/-- The answer stride (R252). -/
def answer (s : State) (d g : Nat) : Nat := (answerPlan s d g).1

/-- A READ placed as its answer stride was computed: due when its rein or its array read begins; a read that is to wait
for the die's operation takes no rein (R248, R252, R255). -/
def placeOn (s : State) (d : Nat) (x : Desc) : Option State :=
  let (t, rein) := answerPlan s d x.gait
  match (s.die d).op, rein with
  | some o, none =>
    if isRead o.desc.typ then placeAt s d 1 x else placeAt s d t { x with rein := false }
  | some _, some r => placeAt s d r x
  | none, _ => placeAt s d 1 x

/-! ## Bounds (R249, R251) -/

/-- The read bound of a gait in strides; none for walk. -/
def boundStrides (g : Nat) (degraded : Bool) : Nat :=
  (match g with | 0 => 50 | 1 => 125 | _ => 500) * (if degraded then 2 else 1)

/-- The direct limit D of a gait (R251). -/
def directLimit (s : State) (g : Nat) (degraded : Bool) : Nat :=
  let w := s.rd rSTP_READ_WAIT
  match g, degraded with
  | 0, false => 22 - w
  | 0, true => 63 - 2 * w
  | 1, false => 75 - w
  | 1, true => 191 - 2 * w
  | _, false => 450 - w
  | _, true => 941 - 2 * w

/-- The allowance of step 5 (R251). -/
def step5Allowance (s : State) (degraded : Bool) : Nat :=
  (s.rd rSTP_READ_WAIT + 9) * (if degraded then 2 else 1)

/-! ## Thresholds (R284, R285) -/

/-- Retention class of a span: min(62, floor(4 log2 (1 + h))) (R285). -/
def retentionClass (s : State) (n : Nat) : Nat :=
  let x := s.span n
  let h := if x.firstAt = 0 then 0
    else if s.tbs.origin = 1 then (s.now - x.firstAt) / 3600 else s.tbs.hours - x.firstHours
  min 62 (Nat.log2 ((1 + h) ^ 4))

/-- The tracked entry that serves an MGA: page type and retention class (R284). -/
def trackedEntry (s : State) (mga : Nat) : Nat :=
  let p := mgaParts s mga
  match spanOf s p.die p.block with
  | some (n, _) => 1 + 4 * retentionClass s n + p.page % 4
  | none => 0

/-- A scratch entry that no read of the die uses (R284). -/
def scratchEntry (s : State) (d : Nat) : Nat :=
  let used := s.stp.reads.flatMap fun j => (j.members.filter fun m => m.die == d).map MemberRead.thresh
  ([253, 254, 255].find? fun e => !used.contains e).getD 255

/-! ## Rows and members (R259, R260, R299, R300, R317) -/

/-- Place of an MGA in its stripe row: span, row, member index (d is P, d + 1 is Q), codeword position. -/
structure RowPlace where
  span : Nat
  row : Nat
  idx : Nat
  pos : Nat
  deriving DecidableEq, Repr

def rowPlace (s : State) (mga : Nat) : Option RowPlace :=
  match s.par.layout with
  | none => none
  | some l =>
    let p := mgaParts s mga
    (spanOf s p.die p.block).map fun q =>
      { span := q.1, row := p.wl, idx := memberIndex l p.wl q.2, pos := mgaPos s mga }

def MemberRead.start (idx : Nat) : MemberRead :=
  { pos := idx, die := 0, mga := 0, arrived := false, info := none, failed := false, lost := false, step := 1,
    thresh := 0, placed := false }

/-- The open record of a row. -/
def openRowAt (s : State) (span row : Nat) : Option Row := s.par.rows.find? fun r => r.span == span && r.row == row

/-- A codeword of an open row that is still in the staging pool or its die's buffers. -/
def stagedInfo (s : State) (r : Row) (idx d p : Nat) : Option Info :=
  let m := if idx = d then 254 else if idx = d + 1 then 255 else idx
  (s.staged.find? fun g => g.stream == r.stream && g.serial == r.serial && g.member == m && g.pos == p).map Staged.info

/-- Member `idx` of a row at codeword position `p`, as a read of it starts: lost, already known, or at an MGA. In a
row whose P and Q are not out the accumulators stand in for them, and only members folded so far count (R181, R300);
members taken as zero are zero (R327). -/
def memberAt (s : State) (l : Layout) (span row idx p : Nat) : MemberRead :=
  let m := MemberRead.start idx
  let c := posOf l row idx
  let media : MemberRead := match memberMga s l span row c p with
    | none => { m with lost := true }
    | some a => { m with die := (mgaParts s a).die, mga := a, thresh := trackedEntry s a }
  match openRowAt s span row with
  | none =>
    if s.par.proxies.any fun q => q.serving && q.span == span && q.row == row && q.zero.getLsbD c
    then { m with info := some 0 } else media
  | some r =>
    match stagedInfo s r idx l.d p with
    | some x => { m with info := some x }
    | none =>
      if r.state ≤ 2 ∧ idx ≥ l.d then
        let x := s.stream r.stream
        { m with info := some (Tbl.getD (if idx = l.d then x.accP else x.accQ) p 0) }
      else if r.done.getLsbD c then media
      else if r.lost.getLsbD c then { m with lost := true }
      else if r.state ≤ 2 then { m with info := some 0 }
      else media

/-- Indices of the other members of a row that P, or P and Q, need. -/
def otherIdx (l : Layout) (t : Nat) : List Nat := (List.range (l.d + 1)).filter (· != t)

/-- Earliest answer of a member, 0 when it needs no read. -/
def memberAnswer (s : State) (g : Nat) (m : MemberRead) : Nat :=
  if m.info.isSome then 0 else answer s m.die g

/-- Members of a read-around from the quota: the other data members and P within READ_WAIT; Q for one that is lost or
late; none when two are (R260, R270). -/
def aroundMembers (s : State) (l : Layout) (g : Nat) (r : RowPlace) : Option (List MemberRead) :=
  let ms := (otherIdx l r.idx).map fun i => memberAt s l r.span r.row i r.pos
  let late (m : MemberRead) : Bool := m.lost || decide (memberAnswer s g m > 1 + s.rd rSTP_READ_WAIT)
  let bad := ms.filter late
  let q := memberAt s l r.span r.row (l.d + 1) r.pos
  match bad with
  | [] => some ms
  | [_] => if late q then none else some (ms.filter (fun m => !late m) ++ [q])
  | _ => none

/-- Members of a degraded read or a step 5: those that R300 names for the lost ones, with Q in place of the one that
answers later than Q when Q is not needed (R260). -/
def fullMembers (s : State) (l : Layout) (g : Nat) (r : RowPlace) : List MemberRead :=
  let ms := (otherIdx l r.idx).map fun i => memberAt s l r.span r.row i r.pos
  let q := memberAt s l r.span r.row (l.d + 1) r.pos
  if ms.any MemberRead.lost then ms ++ [q]
  else
    let slow := ms.filter fun m => !q.lost && decide (memberAnswer s g m > memberAnswer s g q)
    match slow with
    | [x] => ms.filter (fun m => m.pos != x.pos) ++ [q]
    | _ => ms

/-! ## Quota and charges (R248, R261, R262, R289) -/

/-- A member read would rein its die. -/
def memberReins (s : State) (m : MemberRead) : Bool :=
  m.info.isNone && ((s.die m.die).op.any fun o => !isRead o.desc.typ)

/-- Slots in 1/256: 1 and 3/8 per member read and 3/8 per rein; die time in 1/256 die-strides (R261). -/
def membersCost (s : State) (ms : List MemberRead) : Nat × Nat :=
  ms.foldl (fun a m =>
    if m.info.isSome ∨ m.lost then a
    else if memberReins s m then
      (a.1 + 352 + 96, a.2 + 256 * ((s.die m.die).profile.suspend + (s.die m.die).profile.tr + 1))
    else (a.1 + 352, a.2 + 256 * (s.die m.die).profile.tr)) (0, 0)

/-- Charge a function's deficit credits. -/
def chargeFn (s : State) (f slots die : Nat) : State :=
  s.updFn f fun x => { x with slotCredit := x.slotCredit - slots, dieCredit := x.dieCredit - die }

/-! ## Placement (R259, R270) -/

/-- A read served from the target itself. -/
def directMember (s : State) (j : RdJob) (r : RowPlace) : MemberRead :=
  { MemberRead.start r.idx with die := (mgaParts s j.mga).die, mga := j.mga, thresh := trackedEntry s j.mga }

/-- The target of a job in its row; an MGA outside every span is a row of its own. -/
def jobPlace (s : State) (j : RdJob) : RowPlace :=
  (rowPlace s j.mga).getD { span := 0, row := 0, idx := 0, pos := mgaPos s j.mga }

/-- The die that holds a job's target serves, and the target is not entered as lost in its open row. -/
def targetLost (s : State) (l : Layout) (j : RdJob) : Bool :=
  match rowPlace s j.mga with
  | none => !dieServes s (mgaParts s j.mga).die
  | some r => !dieServes s (mgaParts s j.mga).die ||
      (match openRowAt s r.span r.row with
       | some o => o.lost.getLsbD (posOf l r.row r.idx)
       | none => false)

/-- The members and kind of a reconstruction are set; its reads are charged to the job's function (R262, R289). -/
def startFull (s : State) (l : Layout) (j : RdJob) (kind : ReadKind) : State :=
  let ms := fullMembers s l j.gait (jobPlace s j)
  let (a, b) := membersCost s ms
  let s := chargeFn s j.tag.fn a b
  s.updJob j.id fun j => { j with kind := kind, placed := true, members := ms }

/-- place_read: the kind of a job's service; the flag says that a read was held direct for want of quota alone
(R259-R262). -/
def placeRead (s : State) (j : RdJob) : State × Bool :=
  match s.par.layout with
  | none => (s.updJob j.id fun j => { j with placed := true, members := [directMember s j (jobPlace s j)] }, false)
  | some l =>
    let r := jobPlace s j
    if j.kind = .step5 then (startFull s l j .step5, false)
    else if targetLost s l j then
      ((startFull s l j .degraded).bump rSTP_DEGRADED_READS 1, false)
    else
      let direct := s.updJob j.id fun j => { j with kind := .direct, placed := true, members := [directMember s j r] }
      let t := answer s (mgaParts s j.mga).die j.gait
      let wait := Int.ofNat t - tickDiff s j.admitTick
      if j.gait ≥ 3 ∨ wait ≤ Int.ofNat j.limit ∨ j.step ≠ 1 then (direct, false)
      else
        let ready := if (openRowAt s r.span r.row).isSome ∨ (rowPlace s j.mga).isNone then none
          else aroundMembers s l j.gait r
        match ready with
        | none => (direct, false)
        | some ms =>
          let (a, b) := membersCost s ms
          if a ≤ s.stp.raSlot ∧ b ≤ s.stp.raDie then
            let s := s.setStp { s.stp with raSlot := s.stp.raSlot - a, raDie := s.stp.raDie - b }
            let s := s.bump rSTP_RA_COUNT 1
            let s := s.meter j.tag.fn fun m => { m with readArounds := m.readArounds + 1 }
            (s.updJob j.id fun j => { j with kind := .around, placed := true, members := ms }, false)
          else (direct, true)

/-- READ of one member of a job: soft for ladder steps 3 and 4, which are never reined (R287); a walk read takes no
rein (R249). -/
def memberDesc (j : RdJob) (m : MemberRead) : Desc :=
  let soft := if m.step = 3 then 2 else if m.step = 4 then 3 else 0
  { Desc.blank with typ := .read, rein := decide (j.gait < 3) && soft == 0, gait := j.gait,
                    cls := if j.kind = .direct then 0 else 1, tag := j.tag, die := m.die, mga := m.mga, count := 1,
                    thresh := m.thresh, soft := soft, owner := .read j.id m.pos }

/-- Page group of an MGA on its die (R219). -/
def pageGroup (s : State) (mga : Nat) : Nat := mga / max (4 * s.rd rMAP_PLANES) 1

/-- How many of the jobs after `j` one descriptor serves with it: first direct reads of one command at consecutive
MGAs, in one page group, or on an idle die in up to RUN_GROUPS of them within a block (R155, R210, R219). -/
def runLength (s : State) (j : RdJob) : Nat :=
  let groups := if (s.die (mgaParts s j.mga).die).op.isNone then s.rd rSTP_RUN_GROUPS else 1
  let ok (k : Nat) : Bool := match s.job? (j.id + k) with
    | some i => i.cmd == j.cmd && decide (i.kind = .direct) && i.step == 1 && i.placed && i.mga == j.mga + k &&
        (i.members.all fun m => !m.placed) && decide (pageGroup s i.mga < pageGroup s j.mga + groups) &&
        (mgaParts s i.mga).block == (mgaParts s j.mga).block && (mgaParts s i.mga).die == (mgaParts s j.mga).die
    | none => false
  ((List.range 256).takeWhile ok).length

/-- The die time and slots of a direct read fall on its function: its data slots, 2 or 3 for a codeword of a soft read, 3/8
of a slot for its entries in a page group and for a rein; the strides for which it holds the die, a rein's included (R115,
R248, R261). -/
def chargeDirect (s : State) (j : RdJob) (d : Nat) (x : Desc) : State :=
  let groups := if x.typ = .readRun then runGroups s x else 1
  let reins := x.rein && ((s.die d).op.any fun o => !isRead o.desc.typ)
  let held := (s.die d).profile.suspend + (s.die d).profile.tr + 1
  chargeFn s j.tag.fn (256 * transfersOf x + 96 * groups + if reins then 96 else 0)
    (256 * if reins then held else holdStrides s d x)

/-- The unplaced reads of a job take ring entries; what finds no room stays for the next stride. -/
def placeMembers (s : State) (id : Nat) : State :=
  match s.job? id with
  | none => s
  | some j =>
    if !j.placed then s
    else j.members.foldl (fun s m =>
      if m.placed ∨ m.info.isSome ∨ m.failed ∨ m.lost then s
      else
        let n := if j.kind = .direct ∧ m.step = 1 then runLength s j else 1
        if n ≤ 1 then
          match placeOn s m.die (memberDesc j m) with
          | none => s
          | some t =>
            let t := if j.kind = .direct then chargeDirect t j m.die (memberDesc j m) else t
            t.updMember id m.pos fun m => { m with placed := true }
        else
          let one := pageGroup s j.mga = pageGroup s (j.mga + n - 1)
          let x := { memberDesc j m with typ := if one then .read else .readRun, rein := one && decide (j.gait < 3),
                                         count := n, owner := .read id 255 }
          match placeOn s m.die x with
          | none => s
          | some s =>
            let s := chargeDirect s j m.die x
            (List.range n).foldl (fun s k => s.updJob (id + k) fun i =>
              { i with members := i.members.map fun m => { m with placed := true } }) s) s

/-- Step 2 of the plan: reads in gait order (R247, R248, R259), and RA_SHORT (R261). -/
def placeReads (s : State) : State :=
  let order := (sortBy (fun (j : RdJob) => j.gait) s.stp.reads).map RdJob.id
  let (s, short) := order.foldl (fun (a : State × Bool) id => match a.1.job? id with
    | some j => if j.placed then a else
        let (s, b) := placeRead a.1 j
        (s, a.2 || b)
    | none => a) (s, false)
  let s := order.foldl placeMembers s
  if short then
    let s := (s.bump rSTP_RA_SHORT 1).ev eSTP_RA_SHORT
    if s.stp.raShortSeen then s
    else (s.setStp { s.stp with raShortSeen := true }).raise lSTP_RA_SHORT none []
  else s

/-- Step 1 of the plan: the read-around quota gains 2% of the slot and die-time pools, in 1/256 units, up to 125 strides'
worth (R261). -/
def accrueQuota (s : State) (slots dies : Nat) : State :=
  let a := slots * 2 / 100
  let b := dies * 2 / 100
  s.setStp { s.stp with raSlot := min (s.stp.raSlot + a) (125 * a), raDie := min (s.stp.raDie + b) (125 * b) }

/-! ## Completion records of reads (R218, R262, R270) -/

/-- What a read that did not transfer becomes: placed again after BUSY_LIMIT and like ends; a degraded read or an
erasure when its die is gone. A timeout counts as a failed step, which the caller takes. -/
def readAgain (s : State) (id pos : Nat) : State :=
  match s.job? id with
  | none => s
  | some j =>
    if j.kind = .direct ∧ j.step = 1 then s.updJob id fun j => { j with placed := false, members := [] }
    else s.updMember id pos fun m => { m with placed := false, arrived := false }

/-- The die of a member has left service: the target's read becomes degraded, a member lost (R262, R270, R297). -/
def readLost (s : State) (id pos : Nat) : State :=
  match s.job? id with
  | none => s
  | some j =>
    if j.kind = .direct then s.updJob id fun j => { j with placed := false, members := [], step := 1 }
    else s.updMember id pos fun m => { m with lost := true, placed := true }

end Sys2Proof.Machine
end

