-- ==== Sys2Proof/Machine/Media.lean ====
section
/-! DEFINITION. Decoding and read recovery: decode results, the recovery ladder, reconstruction, poisoning, threshold
tracking, and decryption of read granules (08 R260; 09 R277-R298, R559, R563; 13 R386-R393). -/

namespace Sys2Proof.Machine

open Sys2Proof

/-! ## Threshold tracking (R284, R286) -/

def threshKey (die entry : Nat) : Nat := die * 256 + entry

def ThreshEntry.default : ThreshEntry := { offsets := List.replicate 15 0, bits := 0, ones := 0 }

def threshOf (s : State) (die entry : Nat) : ThreshEntry :=
  Tbl.getD s.ldc.track (threshKey die entry) ThreshEntry.default

def State.setThresh (s : State) (die entry : Nat) (x : ThreshEntry) : State :=
  s.setLdc { s.ldc with track := Tbl.put s.ldc.track (threshKey die entry) x ThreshEntry.default }

/-- An offset stays within 24 steps of the die default (R286). -/
def clampStep (x : Int) : Int := max (-24) (min 24 x)

/-- Offsets all moved by one amount. -/
def shiftOffsets (k : Int) (o : List Int) : List Int := o.map fun x => clampStep (x + k)

/-- A successful decode of a member counts toward its entry; one at step 2-4 copies its scratch offsets into the
tracked entry, whose counts restart (R286, R297). -/
def trackDecode (s : State) (m : MemberRead) (bits ones : Nat) : State :=
  let e := trackedEntry s m.mga
  if e = 0 ∨ m.die ≥ 1024 then s
  else if m.step ≥ 2 then
    s.setThresh m.die e { offsets := (threshOf s m.die m.thresh).offsets, bits := 0, ones := 0 }
  else if bits ≥ s.rd rLDC_TRACK_MIN then
    let x := threshOf s m.die e
    s.setThresh m.die e { x with bits := x.bits + bits, ones := x.ones + ones }
  else s

/-- TRACKER_REVIEW: an entry that has gathered TRACK_WINDOW corrected bits moves by its 1-to-0 share, and its counts
restart (R286). -/
def execTrackerReview (die entry : Nat) (s : State) : Out :=
  .next <|
    let x := threshOf s die entry
    if entry = 0 ∨ entry > 252 ∨ x.bits = 0 ∨ x.bits < s.rd rLDC_TRACK_WINDOW then s
    else
      let k : Int := if 10 * x.ones > 6 * x.bits then 1 else if 10 * x.ones < 4 * x.bits then -1 else 0
      s.setThresh die entry { offsets := shiftOffsets k x.offsets, bits := 0, ones := 0 }

/-! ## Poisoning (R291-R293, R563) -/

/-- The block whose entry still names the failed MGA becomes POISON; it waits while no fine unit is free for its
promotion (R291, R293). -/
def poisonBlock (s : State) (ns lba mga step : Nat) : State :=
  if blockEntry s ns lba ≠ ⟨.media, mga⟩ then s
  else if fineFree s < swapNeeds s ns lba then
    let s := s.setLdc { s.ldc with poison := s.ldc.poison ++ [{ ns := ns, lba := lba, mga := mga, step := step }] }
    s.ev eLDC_POISON_WAIT
  else
    let s := swapMga s ns lba mga ⟨.poison, 0⟩
    let s := s.setLdc { s.ldc with mediaErrors := s.ldc.mediaErrors + 1 }
    s.raise lLDC_POISON none [p2 ns, p6 lba, p5 mga, p4 step]

/-- POISON_WAIT: the poisonings that wait for a fine unit are tried again (R291). -/
def execPoisonWait (s : State) : Out :=
  .next <| s.ldc.poison.foldl (fun s r => poisonBlock s r.ns r.lba r.mga r.step)
    (s.setLdc { s.ldc with poison := [] })

/-- The logical block of entry `i` of fine unit `f` (R149, R158). -/
def fineLba (s : State) (f : Nat) (u : FineUnit) (i : Nat) : Option Nat :=
  if u.zchunk then
    match s.space u.ns with
    | none => none
    | some sp =>
      let (z, c) := chunkOfNo s sp u.unit
      let base := (chunkOf s u.ns z c).addr
      some (chunkLba s sp z c + 16 * (f - base) + i)
  else some (16 * u.unit + i)

/-- Every block whose entry names an MGA, or is covered by an entry that does (R563). -/
def blocksNaming (s : State) (m : Nat) : List (Nat × Nat) :=
  let coarse := s.map.coarse.filterMap fun (p : Nat × Entry) =>
    if p.2.kind = .media ∧ p.2.addr ≤ m ∧ m < p.2.addr + 16 then
      some (p.1 / 2 ^ 48, 16 * (p.1 % 2 ^ 48) + (m - p.2.addr)) else none
  let fine := s.map.fine.flatMap fun (p : Nat × FineUnit) => p.2.entries.zipIdx.filterMap fun e =>
    if e.1 = ⟨.media, m⟩ then (fineLba s p.1 p.2 e.2).map fun l => (p.2.ns, l) else none
  let chunks := s.map.chunks.filterMap fun (p : Nat × Entry) =>
    let ns := p.1 / 2 ^ 48
    let z := p.1 % 2 ^ 48 / 2 ^ 24
    let c := p.1 % 2 ^ 24
    match s.space ns with
    | none => none
    | some sp =>
      if p.2.kind = .media ∧ p.2.addr ≤ m ∧ m < p.2.addr + chunkData s (sp.zone z) c then
        some (ns, chunkLba s sp z c + (m - p.2.addr)) else none
  coarse ++ fine ++ chunks

/-- A granule on media is valid: the map names it, or it is a page of the checkpoint (R334). -/
def granuleLive (s : State) (m : Nat) : Bool := !(blocksNaming s m).isEmpty || (mapPageAt s m).isSome

/-- REVERSE_SEARCH: one pass over the map finds and poisons the blocks of the queued MGAs (R563). -/
def execReverseSearch (s : State) : Out :=
  .next <|
    let ms := s.ldc.reverse
    let s := s.setLdc { s.ldc with reverse := [] }
    ms.foldl (fun s m => (blocksNaming s m).foldl (fun s b => poisonBlock s b.1 b.2 m 6) s) s

/-! ## Ends of a read job -/

def dropJob (s : State) (id : Nat) : State :=
  s.setStp { s.stp with reads := s.stp.reads.filter fun j => j.id != id }

/-- A granule of the command ends with data or with an error. -/
def setPart (s : State) (j : RdJob) (g : ReadPart → ReadPart) : State :=
  s.updCmd j.cmd fun c => { c with parts := c.parts.zipIdx.map fun p => if p.2 = j.part then g p.1 else p.1 }

/-- Step 6: the granule is unrecovered; it is poisoned, its read ends with Unrecovered Read Error, and the error log
names it (R291, R292). -/
def unrecovered (s : State) (j : RdJob) : State :=
  let s := (s.bump rLDC_UNRECOVERED 1).ev eLDC_UNRECOVERED
  let s := setPart s j fun p => { p with err := some (2, 0x81) }
  let s := s.setLdc { s.ldc with errorLog := ((j.ns, j.lba, j.cmd) :: s.ldc.errorLog).take 64 }
  poisonBlock (dropJob s j.id) j.ns j.lba j.mga j.step

/-- Plaintext and host metadata of a granule leave for the host. -/
def deliver (s : State) (j : RdJob) (b : Block) (x : Info) : State :=
  let m := infoMetadata x
  dropJob (setPart s j fun p => { p with done := some b, hostMeta := if m.pad then ((s.space j.ns).map blankMeta).getD 0 else if m.hmeta then m.tag else 0 }) j.id

/-- The codeword is decoded and checked: pad reads as zeros (R185), a plaintext namespace's data leaves, other data
waits for a CIP lane (R21, R388). -/
def jobResult (s : State) (j : RdJob) (x : Info) (bits : Nat) : State :=
  let s := s.updJob j.id fun j => { j with result := some x, corrected := bits }
  if (infoMetadata x).pad then deliver s j 0 x
  else match s.space j.ns with
  | none => deliver s j (infoData x) x
  | some sp =>
    if sp.mode = .none then deliver s j (infoData x) x
    else engOffer s .cip (jobRank j) j.tag (.read j.id 254) false

/-! ## Reconstruction (R260, R289, R300) -/

/-- A misdirected codeword (R277). -/
def misdirect (s : State) : State :=
  let s := (s.bump rLDC_MISDIRECT 1).ev eLDC_MISDIRECT
  if s.ldc.misdirectSeen then s
  else (s.setLdc { s.ldc with misdirectSeen := true }).raise lLDC_MISDIRECT none []

/-- Members of the row that a job does not read. -/
def missingIdx (l : Layout) (t : Nat) (ms : List MemberRead) : List Nat :=
  (List.range (l.d + 2)).filter fun i => i != t && !(ms.any fun m => m.pos == i)

/-- A member is answered: decoded, failed, or lost. -/
def MemberRead.answered (m : MemberRead) : Bool := m.info.isSome || m.failed || m.lost

/-- The reconstructed target passes its checks: the CRC, and the address of the block (R277, R295). -/
def rebuiltOk (j : RdJob) (x : Info) : Bool :=
  infoCrcOk x && (infoMetadata x).lga == j.lba && (infoMetadata x).ns == j.ns

/-- A read-around falls back to a direct read of its target, from step 1 (R260). -/
def fallBack (s : State) (j : RdJob) : State :=
  s.updJob j.id fun i => { i with kind := .direct, step := 1, placed := true, members := [directMember s j (jobPlace s j)] }

/-- A member that failed its hard decode runs steps 2 to 4 (R289): it is read again at the next step. -/
def retryMember (s : State) (m : MemberRead) : MemberRead :=
  { m with failed := false, arrived := false, placed := false, step := m.step + 1,
           thresh := if m.step = 1 then scratchEntry s m.die else m.thresh }

/-- Every member has answered: the target is reconstructed, or another member is read, or the failed members run their
own ladder, or the read falls back or ends at step 6 (R260, R289, R300). -/
def settleJob (s : State) (id : Nat) : State :=
  match s.job? id, s.par.layout with
  | some j, some l =>
    if !(j.members.all MemberRead.answered) then s
    else
      let r := jobPlace s j
      let known := j.members.filterMap fun m => m.info.map fun x => (m.pos, x)
      let erased := (List.range (l.d + 2)).filter fun i => !(known.any fun k => k.1 == i)
      match recover l.d known erased r.idx with
      | some x =>
        if rebuiltOk j x then
          let s := if j.kind = .step5 then s.bump rLDC_STEP5_OK 1 else s
          jobResult s j x 0
        else
          let s := if infoCrcOk x then misdirect s
            else (s.bump rLDC_CRC_DEC 1).ev eLDC_CRC_DEC
          if j.kind = .around then fallBack s j else unrecovered s { j with step := 5 }
      | none =>
        match missingIdx l r.idx j.members with
        | i :: _ => s.updJob id fun j => { j with members := j.members ++ [memberAt s l r.span r.row i r.pos] }
        | [] =>
          if j.kind = .around then fallBack s j
          else if j.members.any fun m => m.failed && decide (m.step < 4) then
            s.updJob id fun j => { j with members := j.members.map fun m =>
              if m.failed ∧ m.step < 4 then retryMember s m else m }
          else unrecovered s { j with step := 5 }
  | _, _ => s

/-- A member has failed: Q, or the member passed over for Q, is read for it, and the job settles when all have
answered (R260). -/
def memberFail (s : State) (j : RdJob) (pos : Nat) (erased : Bool) : State :=
  let s := s.updMember j.id pos fun m => { m with failed := true, step := if erased then 4 else m.step }
  match s.job? j.id, s.par.layout with
  | some j, some l =>
    let r := jobPlace s j
    let s := match missingIdx l r.idx j.members with
      | i :: _ => s.updJob j.id fun j => { j with members := j.members ++ [memberAt s l r.span r.row i r.pos] }
      | [] => s
    settleJob s j.id
  | _, _ => s

/-! ## The ladder (R287, R288) -/

/-- Strides left in the bound of a gallop read when a step would start in the next stride, counted from the stride of the
command's fetch (R288). -/
def boundLeft (s : State) (j : RdJob) : Nat :=
  let used : Int := match s.cmd? j.cmd with
    | some c => 1 - tickDiff s c.fetchTick
    | none => 1
  (Int.ofNat (boundStrides 0 s.stp.degraded) - used).toNat

/-- The step that follows a failed step of a direct read (R287, R288, R559). -/
def nextStep (s : State) (j : RdJob) (step : Nat) (erased : Bool) : Nat :=
  let five := if (rowPlace s j.mga).isSome then 5 else 6
  if erased ∨ step ≥ 4 then five
  else if j.gait = 0 then
    if step = 1 ∧ boundLeft s j ≥ 8 + step5Allowance s s.stp.degraded + 1 then 2 else five
  else step + 1

/-- A direct read's step has failed (R287): the next is placed in the next plan. -/
def ladderFail (s : State) (j : RdJob) (m : MemberRead) (erased : Bool) (shift : Int) : State :=
  match nextStep s j m.step erased with
  | 6 => unrecovered s j
  | 5 => s.updJob j.id fun j => { j with kind := .step5, step := 5, placed := false, members := [] }
  | n =>
    let e := if m.step = 1 then scratchEntry s m.die else m.thresh
    let s := if m.step = 1 then
        s.setThresh m.die e { (threshOf s m.die m.thresh) with
          offsets := shiftOffsets shift (threshOf s m.die m.thresh).offsets, bits := 0, ones := 0 }
      else s
    (s.updJob j.id fun j => { j with step := n }).updMember j.id m.pos fun m =>
      { m with step := n, thresh := e, arrived := false, placed := false }

/-- A decode step has failed, for the target or for a member. -/
def stepFail (s : State) (j : RdJob) (m : MemberRead) (erased : Bool) (shift : Int) : State :=
  let s := if m.step = 1 then s.bump rLDC_HARD_FAIL 1 else s
  if j.kind = .direct then ladderFail s j m erased shift
  else if m.step ≥ 2 ∧ m.step < 4 ∧ !erased then
    s.updMember j.id m.pos fun m => { m with step := m.step + 1, arrived := false, placed := false }
  else memberFail s j m.pos erased

/-! ## DECODE_DONE -/

/-- Corrected bits of a successful decode are counted (R283, R298). -/
def countBits (s : State) (m : MemberRead) (bits ones : Nat) : State :=
  let s := s.setLdc { s.ldc with bits := (s.ldc.bits + bits) % 2 ^ 64 }
  let s := if bits > s.rd rLDC_PEAK then s.wr rLDC_PEAK bits else s
  let s := match m.step with
    | 2 => s.bump rLDC_STEP2_OK 1
    | 3 => s.bump rLDC_STEP3_OK 1
    | 4 => s.bump rLDC_STEP4_OK 1
    | _ => s
  trackDecode s m bits ones

/-- A codeword of the target or of a data member carries a CRC; P and Q do not (R295). -/
def hasCrc (s : State) (pos : Nat) : Bool := decide (pos < dataMembers s) || s.par.layout.isNone

/-- A decode with a zero syndrome: its CRC and, for the target, its address are checked. A member whose bits are not
those of its place is misdirected (R277, R280, R295, R297). -/
def decoded (s : State) (j : RdJob) (m : MemberRead) (x : Info) (here : Bool) (bits ones : Nat) : State :=
  if hasCrc s m.pos && !infoCrcOk x then
    stepFail ((s.bump rLDC_CRC_DEC 1).ev eLDC_CRC_DEC) j m false 0
  else if j.kind = .direct then
    if (infoMetadata x).lga = j.lba ∧ (infoMetadata x).ns = j.ns then jobResult (countBits s m bits ones) j x bits
    else stepFail (misdirect s) j m false 0
  else if !here then memberFail (misdirect s) j m.pos true
  else settleJob ((countBits s m bits ones).updMember j.id m.pos fun m => { m with info := some x }) j.id

/-- An armed injection is applied to the next codeword decoded from INJ_DIE (R298). -/
def injectNow (s : State) (m : MemberRead) : State :=
  if s.ldc.injArmed && m.die == s.rd rLDC_INJ_DIE then
    (s.setLdc { s.ldc with injArmed := false }).ev eLDC_INJECTED
  else s

/-- DECODE_DONE: a decoder ends the codeword of member `pos` of read job `id` with result `r` (R277, R283,
R287-R292, R559). A job of a stale epoch reports nothing (R119). -/
def execDecodeDone (id pos : Nat) (r : DecResult) (s : State) : Out :=
  .next <|
    let e := (engFor s .hard (.read id pos)).orElse fun _ => engFor s .soft (.read id pos)
    match s.job? id, e with
    | some j, some e =>
      let s := engDrop s e
      if tagStale s j.tag then dropJob s id
      else match j.members.find? fun m => m.pos == pos with
        | none => s
        | some m =>
          let s := injectNow s m
          match r with
          | .erased => stepFail s j m true 0
          | .fail k => stepFail (s.bump rLDC_DECODED 1) j m false k
          | .miscorrect => stepFail ((s.bump rLDC_DECODED 1 |>.bump rLDC_CRC_DEC 1).ev eLDC_CRC_DEC) j m false 0
          | .other x b o => decoded (s.bump rLDC_DECODED 1) j m x (Tbl.get s.fch.media m.mga == some x) b o
          | .ok b o =>
            match Tbl.get s.fch.media m.mga with
            | some x => decoded (s.bump rLDC_DECODED 1) j m x true b o
            | none => stepFail s j m true 0
    | none, some e => engDrop s e
    | _, none => s

/-! ## Injection and counters (R298) -/

/-- LDC_INJ_ARM: a write of `w` to 0x080; ignored while SEAL is set (R298, R530). -/
def execLdcInjArm (p : Path) (w : Dword) (s : State) : Out :=
  .next <|
    let s := storeWord (s.wakePage 18) p 18 0x80 w
    if w.getLsbD 10 && !(s.page 18).sealBit then s.setLdc { s.ldc with injArmed := true } else s

/-- LDC_BITS_LO_READ: latches BITS_HI for the path (R298). -/
def execLdcBitsLoRead (p : Path) (s : State) : Out :=
  .next <| (s.latch p 18 0x6C (BitVec.ofNat 32 (s.ldc.bits / 2 ^ 32))).answer (.word (BitVec.ofNat 32 s.ldc.bits))

/-! ## Decryption (R386, R388, R390) -/

/-- The key under which a read decrypts: the key in force when it resolved, now the key or its shadow (R405). -/
def readKey (s : State) (j : RdJob) : Nat :=
  let k := s.keySlot (keySlotNs j.ns)
  (if k.gen = j.keyGen then k.key else k.shadow).getD 0

/-- CIP_DECRYPT_DONE: a lane ends the granule of read job `id`; `tagOk` says that a GCM tag verifies (R386, R388,
R390, R393). -/
def execCipDecryptDone (id : Nat) (tagOk : Bool) (s : State) : Out :=
  .next <|
    match s.job? id, engFor s .cip (.read id 254) with
    | some j, some e =>
      let s := engDrop s e
      if tagStale s j.tag then dropJob s id
      else match j.result, s.space j.ns with
        | some x, some sp =>
          let m := infoMetadata x
          let k := readKey s j
          match sp.mode with
          | .none => deliver s j (infoData x) x
          | .xts => deliver (s.bump rCIP_GRAN_DEC 1) j (Config.xtsDec k j.lba (infoData x)) x
          | .gcm =>
            if tagOk then deliver (s.bump rCIP_GRAN_DEC 1) j (Config.granDec k j.lba m.wseq (infoData x)) x
            else
              let s := (s.bump rCIP_TAG_FAIL 1).ev eCIP_TAG_FAIL
              let s := s.raise lCIP_TAG_FAIL (some j.tag.fn) [p2 j.ns, p6 j.lba, p5 j.mga]
              dropJob (setPart s j fun p => { p with err := some (7, 1) }) id
        | _, _ => dropJob s id
    | none, some e => engDrop s e
    | _, none => s

end Sys2Proof.Machine
end

