-- ==== Sys2Proof/Machine/Parity.lean ====
section
/-! DEFINITION. Lost dies, the journal's mirrors, rebuild, groom and the redundancy commands (10 R308-R331; 02 R61). -/

namespace Sys2Proof.Machine

open Sys2Proof

/-! ## Heavy work (R61) -/

/-- STP admits groom or reclaim work: not during an activation (R101) or in PS3 or PS4 (R462); at throttle level 3 only
reclaim below PADDOCK_URGENT, at level 4 none (R269). -/
def bgRuns (s : State) (reclaim : Bool) : Bool :=
  !actRuns s && decide (s.thm.ps < 3) &&
    (decide (s.stp.throttle ≤ 2) || (s.stp.throttle == 3 && reclaim && belowUrgent s))

/-- Groom (false) or reclaim (true) work starts now: in a dim window, or in a lit one that it breaks; none where it must
wait. -/
def heavyStart (s : State) (reclaim : Bool) : Option State :=
  if !bgRuns s reclaim then none
  else if dimNow s then some s else if heavyExcused s then some (breakWindow s) else none

/-- The three kinds of background work that have a share (R263). -/
inductive BgWork | reclaim | groom | rebuild
  deriving DecidableEq, Repr

/-- Charge background work to its share: slots and die time in 1/256. With its credit overdrawn it waits, unless no function
claims capacity (R115, R263, R264). -/
def bgCharge (s : State) (w : BgWork) (slot die : Nat) : Option State :=
  let c : Credit := match w with
    | .reclaim => s.stp.rclShare
    | .groom => s.stp.groomShare
    | .rebuild => s.stp.rebuildShare
  let left : Credit := { slot := c.slot - slot, die := c.die - die }
  if c.slot ≤ 0 ∨ c.die ≤ 0 then (if s.stp.unclaimed then some s else none)
  else some (s.setStp (match w with
    | .reclaim => { s.stp with rclShare := left }
    | .groom => { s.stp with groomShare := left }
    | .rebuild => { s.stp with rebuildShare := left }))

/-- Slots and die time of `members` reads of whole program units, and of the programs of `copies` granules: a data slot a
codeword and 3/8 of a slot a page group, tR a page group; a data slot a granule and the program time (R115, R248). -/
def rowCost (s : State) (members copies : Nat) : Nat × Nat :=
  let p := ((s.fch.dies.find? fun p => p.2.service).map fun p => p.2.profile).getD Profile.zero
  let groups := members * s.rd rMAP_BITS
  (256 * (members * puGran s + copies) + 96 * groups, 256 * (groups * p.tr + copies * p.prog / max (puGran s) 1))

/-- Background work on a row, charged to its share. -/
def bgRow (s : State) (w : BgWork) (members copies : Nat) : Option State :=
  bgCharge s w (rowCost s members copies).1 (rowCost s members copies).2

/-- Background work that the lantern gate lets start (R61), charged to its share. -/
def heavyCharge (s : State) (w : BgWork) (slots time : Nat) : Option State :=
  match heavyStart s true with
  | none => none
  | some s => bgCharge s w slots time

/-- A row of background work that the lantern gate lets start (R61), charged to its share. -/
def heavyRow (s : State) (w : BgWork) (members copies : Nat) : Option State :=
  match heavyStart s true with
  | none => none
  | some s => bgRow s w members copies

/-! ## Reading a row (R300, R317, R327) -/

/-- Some codeword of a row is on media. -/
def rowWritten (s : State) (l : Layout) (span row : Nat) : Bool :=
  (List.range l.k).any fun c =>
    let (d, b) := member s l span c
    let m := mgaOf s d b row 0
    s.fch.media.any fun q => decide (m ≤ q.1 ∧ q.1 < m + puGran s)

/-- The MGA that the map may name for a data codeword of a row: its proxy's, or its own place. -/
def rowMga (s : State) (l : Layout) (span row c p : Nat) : Nat :=
  match proxyFor s span row c with
  | some q => q.mga + p
  | none => let (d, b) := member s l span c; mgaOf s d b row p

/-- Valid data granules of a row: index, position and MGA of those that the map names. -/
def rowValids (s : State) (l : Layout) (span row : Nat) : List (Nat × Nat × Nat) :=
  (List.range l.d).flatMap fun i => (List.range (puGran s)).filterMap fun p =>
    let m := rowMga s l span row (posOf l row i) p
    if granuleLive s m then some (i, p, m) else none

/-- Valid granules of a row move through stream `n` with what `word` gives for each; one without content is queued for
reverse search (R291, R321, R563). -/
def moveRow (s : State) (n : Nat) (vs : List (Nat × Nat × Nat)) (word : Nat → Nat → Option Info) : State :=
  vs.foldl (fun s v => match word v.1 v.2.1 with
    | some x => pushCopy s n v.2.2 x .copy
    | none => s.setLdc { s.ldc with reverse := s.ldc.reverse ++ [v.2.2] }) s

/-! ## Lost dies (R314, R318, R322) -/

/-- Valid granules are fewer than RB_RECLAIM_PCT percent of the span's user capacity (R318). -/
def fewValid (s : State) (n : Nat) : Bool :=
  decide (spanValid (s.span n) * 100 < s.rd rPAR_RB_RECLAIM_PCT * spanUser s)

/-- The span has a member on a die. -/
def spanOnDie (s : State) (l : Layout) (n d : Nat) : Bool := (members s l n).any fun m => m.1 == d

/-- A span's closed rows with lost members enter the rebuild queue; a closed span with few valid granules is handed to
RCL instead (R314, R318). -/
def queueSpan (s : State) (l : Layout) (n : Nat) : State :=
  if (s.span n).phase = .closed ∧ fewValid s n then
    let s := handOver s n
    s.setPar { s.par with rbHanded := if s.par.rbHanded.contains n then s.par.rbHanded else s.par.rbHanded ++ [n],
                          queue := s.par.queue.filter fun q => q.1 != n }
  else
    let rows := (List.range (wordLines s)).filter fun r => rowWritten s l n r && (openRowAt s n r).isNone
    let es := rows.filterMap fun r =>
      let k := ((List.range l.k).filter (memberLost s l n r)).length
      if k = 0 then none else some (n, r, k)
    s.setPar { s.par with queue := (s.par.queue.filter fun q => q.1 != n) ++ es }

/-- The layout has one group only (R322). -/
def singleGroup (l : Layout) : Bool := !l.declustered && l.gen == 1

/-- A die that leaves service goes to state 2 of the roster; a foreign one's entry stays (R488, R489). -/
def rosterOut (s : State) (d : Nat) : State :=
  let out (e : RosterEntry) : RosterEntry :=
    if e.state = 1 ∧ e.uid = (s.die d).uid then { e with state := 2, changed := s.now } else e
  s.setNor (s.nor.putRoster { s.nor.roster with entries := Tbl.upd s.nor.roster.entries d out })

/-- One die that left service (R314). -/
def loseDie (s : State) (l : Layout) (d : Nat) : State :=
  let s := rosterOut s d
  let s := jrec s 8 0 0 0 0 [(d, 2)]
  let s := s.setPar { s.par with lost := s.par.lost ++ [d],
                                 mirrors := s.par.mirrors.map fun m =>
                                   if m.die = d then { m with service := false, rehoming := false } else m }
  let s := if s.stp.degraded then s
    else ((s.setStp { s.stp with degraded := true }).ev eSTP_DEGRADED).raise lSTP_DEGRADED none []
  -- open rows with a member on the die
  let s := s.par.rows.foldl (fun s r =>
    match (members s l r.span).findIdx? fun m => m.1 == d with
    | none => s
    | some c =>
      let s := s.updRow r.stream r.serial fun r => { r with lost := r.lost ||| (1 <<< c) }
      let s := match s.openRow? r.stream r.serial with
        | some r => jrow s r r.state
        | none => s
      let x := s.stream r.stream
      if x.serial = r.serial then
        let pad := x.state == .accumulating && decide (x.members < l.d)
        s.setStream r.stream { x with newSpan := true, padRow := x.padRow || pad, padFn := if x.padRow then x.padFn else 0 }
      else s) s
  let s := s.wbf.streams.foldl (fun s p => match p.2.span with
    | some n => if spanOnDie s l n d then s.updStream p.1 fun x => { x with newSpan := true } else s
    | none => s) s
  let spans := (allSpans s l).filter fun n =>
    ((s.span n).phase == .open || (s.span n).phase == .closed || (s.span n).phase == .victim) && spanOnDie s l n d
  let s := spans.foldl (fun s n => queueSpan s l n) s
  let s := if s.par.rbState = 1 ∨ s.par.rbState = 2 then s
    else s.setPar { s.par with rbState := 1, rowsDone := 0, rbStart := s.tbs.clk }
  let s := if singleGroup l then stopRebuild s else s
  let s := (s.ev ePAR_DIE_LOST).raise lPAR_REBUILD_START none [p2 d]
  if (s.par.mirrors.filter fun m => m.service).length < 2 then s.ev ePAR_JRN_LOW else s

/-- DIE_LOST: the boundary after FCH took dies out of service (R314). -/
def execDieLost (s : State) : Out :=
  .next <|
    match s.par.layout with
    | none => s.setPar { s.par with lostArm := [] }
    | some l =>
      let ds := s.par.lostArm
      ds.foldl (fun s d => loseDie s l d) (s.setPar { s.par with lostArm := [] })

/-! ## Journal mirrors (R311, R313) -/

/-- Records that a journal block holds: a record page takes one pSLC program, planes times 4 codewords of 64 records
(R308). -/
def journalPage (s : State) : Nat := s.rd rMAP_PLANES * 4 * 64
def journalBlock (s : State) : Nat := wordLines s * journalPage s

/-- Records that a block taken anew begins with: the newest adopted ROOT and every record since, and the state of each
open row. -/
def carried (s : State) : Nat := s.par.journal.length + s.par.rows.length

/-- A page of records goes to a mirror; `fails` pages before it failed to program. After three the block is replaced;
a full block gives way to the standby, and the old one is erased with reason 3. -/
def flushMirror (s : State) (k fails : Nat) (m : Mirror) : State :=
  let put (s : State) (m : Mirror) : State := s.setPar { s.par with mirrors := s.par.mirrors.set k m }
  let m := { m with upTo := s.par.jseq, fails := if fails ≥ 3 then 0 else fails, fill := m.fill + (1 + min fails 3) * journalPage s,
                    hasRoot := m.hasRoot || s.par.rootPending.isSome }
  if fails ≥ 3 then
    match takePslc s m.die with
    | some (b, s) => put s { m with act := b, fill := carried s }
    | none => put s m
  else if m.fill > journalBlock s then
    queuePslcErase (put s { m with act := m.stby, stby := m.act, fill := carried s }) m.die m.act 3
  else put s m

/-- JOURNAL_FLUSH: 1,024 records have gathered, or JR_FLUSH strides have passed since the oldest; `fails` gives the
pages that failed by mirror. Past half a block since the newest ROOT a checkpoint starts (R311). -/
def execJournalFlush (fails : List Nat) (s : State) : Out :=
  .next <|
    if s.par.unflushed = 0 ∨ (s.par.unflushed < 1024 ∧ s.par.flushAge < s.rd rPAR_JR_FLUSH) then s
    else
      let s := s.par.mirrors.zipIdx.foldl (fun s m => if m.1.service then flushMirror s m.2 (fails.getD m.2 0) m.1 else s) s
      let s := s.setPar { s.par with unflushed := 0, flushAge := 0 }
      if s.par.journal.length > journalBlock s / 2 then startCkpt s else s

/-- Channels in order after a channel. -/
def channelsAfter (c : Nat) : List Nat := (List.range 32).map fun i => (c + 1 + i) % 32

/-- A channel that holds another mirror. -/
def holdsMirror (s : State) (k c : Nat) : Bool := s.par.mirrors.zipIdx.any fun m => m.2 != k && chanOf m.1.die == c

/-- The lowest-numbered die in service on the first channel after the lost die's that holds no other mirror (R313). -/
def rehomeDie (s : State) (k : Nat) (old : Nat) : Option Nat :=
  (channelsAfter (chanOf old)).findSome? fun c =>
    if holdsMirror s k c then none
    else ((s.fch.dies.filter fun p => p.2.service && chanOf p.1 == c && p.1 != old).map Prod.fst).head?

/-- Mirror `k` begins to move to a die: REHOME, and two pre-erased blocks of its dump reserve (R313 steps 1-3). -/
def beginRehome (s : State) (k die : Nat) : State :=
  let old := ((s.par.mirrors[k]?).map Mirror.die).getD 0
  let s := jrec s 10 0 0 0 0 [(k, 1), (old, 2), (die, 2)]
  let (bs, s) := journalBlocks s die
  s.setPar { s.par with mirrors := s.par.mirrors.zipIdx.map fun m =>
    if m.2 = k then { m.1 with die := die, service := false, rehoming := true, act := bs.getD 0 0, stby := bs.getD 1 0,
                               fill := 0, fails := 0, hasRoot := false } else m.1 }

/-- Two pre-erased blocks of a die's dump reserve are there to take (R313 step 3). -/
def rehomeRoom (s : State) (d : Nat) : Bool := decide (2 ≤ (s.hld.erased.filter fun k => k / 16384 == d).length)

/-- PAR_JRN_REHOME: a lost mirror begins to be re-homed, one after another (R313). -/
def execParJrnRehome (s : State) : Out :=
  .next <|
    if s.par.mirrors.any fun m => m.rehoming then s
    else match s.par.mirrors.zipIdx.find? fun m => !m.1.service with
      | none => s
      | some (m, k) =>
        match rehomeDie s k m.die with
        | none => s
        | some d => if rehomeRoom s d then beginRehome s k d else s

/-- JOURNAL_REHOME_DONE: the mirror holds the ROOT and every record since (R313 steps 4, 5). -/
def execJournalRehomeDone (s : State) : Out :=
  .next <|
    match s.par.mirrors.zipIdx.find? fun m => m.1.rehoming with
    | none => s
    | some (_, k) =>
      let s := s.setPar { s.par with mirrors := s.par.mirrors.zipIdx.map fun m =>
        if m.2 = k then { m.1 with service := true, rehoming := false, upTo := s.par.jseq, fill := carried s,
                                   hasRoot := s.par.rootPending.isSome } else m.1 }
      let s := ((s.bump rPAR_REHOMES 1).ev ePAR_REHOME).raise lPAR_JRN_REHOME none []
      let done := s.par.moveWait.filter fun w => w.1 == k
      let s := s.setPar { s.par with moveWait := s.par.moveWait.filter fun w => w.1 != k }
      done.foldl (fun s w => s.finish w.2.2 stOk) s

/-! ## Rebuild (R318-R322) -/

/-- Order of a queued row: two losses first; open spans first, then decreasing valid granules; row order (R318). -/
def rebuildBefore (s : State) (a b : Nat × Nat × Nat) : Bool :=
  let two (q : Nat × Nat × Nat) : Nat := if q.2.2 ≥ 2 then 0 else 1
  let opn (q : Nat × Nat × Nat) : Nat := if (s.span q.1).phase = .open then 0 else 1
  let val (q : Nat × Nat × Nat) : Nat := spanValid (s.span q.1)
  if two a ≠ two b then decide (two a < two b)
  else if opn a ≠ opn b then decide (opn a < opn b)
  else if opn a = 1 ∧ val a ≠ val b then decide (val a > val b)
  else if a.1 ≠ b.1 then decide (a.1 < b.1)
  else decide (a.2.1 < b.2.1)

/-- A row whose proxies are being written. -/
def rowPending (s : State) (q : Nat × Nat × Nat) : Bool :=
  s.par.proxies.any fun p => p.span == q.1 && p.row == q.2.1 && !p.serving

/-- The queued row that is rebuilt next. -/
def nextRebuild (s : State) : Option (Nat × Nat × Nat) :=
  (s.par.queue.filter fun q => !rowPending s q).foldl (fun (a : Option (Nat × Nat × Nat)) q => match a with
    | none => some q
    | some b => if rebuildBefore s q b then some q else some b) none

/-- A position with more than two erasures: LOSS, the poisoning of every valid erasure, THIRD_LOSS (R321). -/
def thirdLoss (s : State) (l : Layout) (span row p : Nat) (erased : List Nat) : State :=
  let s := jrec s 9 0 row span 0 [(p, 1), ((bitmap (erased.map (posOf l row))).toNat, 4)]
  let ms := (erased.filter fun i => decide (i < l.d)).map fun i => rowMga s l span row (posOf l row i) p
  let s := s.setLdc { s.ldc with reverse := s.ldc.reverse ++ ms.filter fun m => !(blocksNaming s m).isEmpty }
  let s := s.setPar { s.par with thirdLoss := s.par.thirdLoss + 1 }
  ((s.bump rPAR_THIRD_LOSS 1).ev ePAR_THIRD_LOSS).raise lPAR_THIRD_LOSS none [p4 span, p4 row, p4 p]

/-- Member kind of a proxy: 0 data, 1 P, 2 Q. -/
def proxyKind (l : Layout) (i : Nat) : Nat := if i = l.d then 1 else if i = l.d + 1 then 2 else 0

/-- One row is reconstructed: each lost member becomes a proxy, VOID where it cannot be had; with a third loss the
row's valid granules are relocated (R319, R321). -/
def rebuildRow (s : State) (l : Layout) (span row : Nat) (bad : List (Nat × Nat)) : State :=
  let lost := (List.range l.k).filter (memberLost s l span row)
  let ps := List.range (puGran s)
  let hot := ps.filterMap fun p =>
    let e := (rowPosition s l span row bad p).2
    if e.length > 2 then some (p, e) else none
  let lostVs := rowValids s l span row
  let word := rowRecover s l span row bad
  let proxies := lost.map fun c =>
    let i := memberIndex l row c
    (c, proxyKind l i, ps.map fun p => word i p)
  let moves := lostVs.filter fun v => (word v.1 v.2.1).isSome
  let copies := moves.map fun v => (v, word v.1 v.2.1)
  let s := hot.foldl (fun s e => thirdLoss s l span row e.1 e.2) s
  let s := proxies.foldl (fun s x => makeProxy s span row x.1 x.2.1 x.2.2 0) s
  if hot.isEmpty then s
  else copies.foldl (fun s v => match v.2 with
    | some x => pushCopy s 254 v.1.2.2 x .copy
    | none => s) s

/-- REBUILD_ROW: the next queued row, while a rebuild runs and the throttle is below level 4; `bad` lists codewords, by
member position, that fail ladder steps 1-4. A closed span with few valid granules goes to RCL; a row with no lost
member leaves the queue (R318-R320). -/
def execRebuildRow (bad : List (Nat × Nat)) (s : State) : Out :=
  .next <|
    match s.par.layout with
    | none => s
    | some l =>
      if s.par.rbState ≠ 1 ∨ s.stp.throttle ≥ 4 ∨ actRuns s then s
      else match nextRebuild s with
        | none => s
        | some (span, row, _) =>
          let lost := (List.range l.k).filter (memberLost s l span row)
          if (s.span span).phase = .closed ∧ fewValid s span then queueSpan s l span
          else if lost.isEmpty then
            s.setPar { s.par with queue := s.par.queue.filter fun q => !(q.1 == span && q.2.1 == row),
                                  rowsDone := s.par.rowsDone + 1 }
          else if !copyRoom s (lost.length * puGran s + rowValid (s.span span) row) then s
          else match bgRow s .rebuild (l.k - lost.length) (lost.length * puGran s) with
            | some s => rebuildRow s l span row bad
            | none => s

/-- PAR_REBUILD_DONE: the queue is empty and every span handed over has been erased (R322). -/
def execParRebuildDone (s : State) : Out :=
  .next <|
    let erased := s.par.rbHanded.all fun n => (s.span n).phase == .erased || (s.span n).phase == .retired
    if s.par.rbState ≠ 1 ∨ !s.par.queue.isEmpty ∨ !s.par.lostArm.isEmpty ∨ !erased then s
    else
      let t := (s.tbs.clk - s.par.rbStart) / 1000000000
      let s := s.setPar { s.par with rbState := 0, rbHanded := [] }
      let s := s.setStp { s.stp with degraded := s.fch.chans.any fun c => c.2.retraining }
      (s.ev ePAR_REBUILD_DONE).raise lPAR_REBUILD_DONE none [p4 t]

/-! ## Groom (R324-R326) -/

/-- Bytes of a syndrome that are not zero, with both syndromes' values. -/
def syndromeBytes (sp sq : Info) : List (Nat × Nat) :=
  ((List.range 4128).map fun j => ((sp >>> (8 * j)).toNat % 256, (sq >>> (8 * j)).toNat % 256)).filter fun b => b.1 != 0

/-- Where a mismatch lies (R325): index d is P, d + 1 is Q. -/
def locate (d : Nat) (sp sq : Info) : Option Nat :=
  if sp ≠ 0 ∧ sq = 0 then some d
  else if sp = 0 ∧ sq ≠ 0 then some (d + 1)
  else
    let xs := (syndromeBytes sp sq).map fun b =>
      if b.2 = 0 then 255 else (gfLog b.2 + 255 - gfLog b.1) % 255
    match xs with
    | [] => none
    | x :: r => if r.all (· == x) ∧ x < d then some x else none

/-- What groom finds at one position: relocate, mismatch located in P or Q, a correction of a data member, unresolved. -/
inductive GroomFind
  | clean
  | failed
  | parity
  | fixed (i : Nat) (x : Info)
  | unresolved
  deriving DecidableEq, Repr

/-- The check of one position (R325). A corrected granule must pass its CRC and lie at the address that names it. -/
def groomPos (s : State) (l : Layout) (span row : Nat) (bad : List (Nat × Nat)) (p : Nat) : GroomFind :=
  let (known, erased) := rowPosition s l span row bad p
  if !erased.isEmpty then .failed
  else
    let data := known.filter fun k => decide (k.1 < l.d)
    let get (i : Nat) : Info := ((known.find? fun k => k.1 == i).map Prod.snd).getD 0
    let sp := get l.d ^^^ syndromeP data
    let sq := get (l.d + 1) ^^^ syndromeQ data
    if sp = 0 ∧ sq = 0 then .clean
    else match locate l.d sp sq with
      | none => .unresolved
      | some x =>
        if x ≥ l.d then .parity
        else
          let y := get x ^^^ sp
          let m := rowMga s l span row (posOf l row x) p
          let named := blocksNaming s m
          let lgaOk := named.isEmpty || named.contains ((infoMetadata y).ns, (infoMetadata y).lga)
          if infoCrcOk y && lgaOk then .fixed x y else .unresolved

/-- Counters and records of one finding. -/
def groomNote (s : State) (l : Layout) (span row : Nat) (f : GroomFind) : State :=
  match f with
  | .clean | .failed => s
  | .parity =>
    let s := s.setPar { s.par with mismatch := s.par.mismatch + 1 }
    (s.bump rPAR_MISMATCH 1).ev ePAR_GROOM_MISMATCH
  | .fixed x _ =>
    let s := s.setPar { s.par with fixed := s.par.fixed + 1 }
    ((s.bump rPAR_FIXED 1).ev ePAR_GROOM_FIX).raise lPAR_GROOM_FIX none [p4 span, p4 row, p4 (posOf l row x)]
  | .unresolved =>
    let s := s.setPar { s.par with mismatch := s.par.mismatch + 1 }
    (((s.bump rPAR_MISMATCH 1).bump rPAR_UNRESOLVED 1).ev ePAR_GROOM_MISMATCH).raise lPAR_GROOM_UNRESOLVED none
      [p4 span, p4 row]

/-- The span that groom visits next: one a command waits for, else the oldest not done in this cycle. -/
def nextGroom (s : State) : Option Nat :=
  let ns := groomSpans s
  match s.par.groomWait.find? fun w => ns.contains w.1 with
  | some w => some w.1
  | none => mostBy (ns.filter fun n => !s.par.groomDone.contains n) (groomAge s)

/-- Groom begins its next span, and a new cycle when the last is complete and its days have passed. -/
def startGroom (s : State) : State :=
  match s.par.groomSpan with
  | some n => if groomable s n then s else s.setPar { s.par with groomSpan := none, groomRow := 0 }
  | none =>
    let late := s.now ≥ s.par.groomStart + s.rd rPAR_GROOM_DAYS * 86400
    let s := if late ∧ ((groomSpans s).all fun n => s.par.groomDone.contains n) then
        s.setPar { s.par with groomStart := s.now, groomDone := [] } else s
    s.setPar { s.par with groomSpan := nextGroom s, groomRow := 0, groomMoved := 0, groomFixed := 0 }

/-- The end of a span: GROOMED, its commands complete, and the cycle when it was the last (R324, R328). -/
def endGroom (s : State) (n : Nat) : State :=
  let s := jrec s 11 0 0 n 0 [(s.par.groomMoved, 2), (s.par.groomFixed, 2), (s.now, 8)]
  let s := s.updSpan n fun x => { x with groomedAt := s.now }
  let first := !s.par.groomDone.contains n
  let s := s.setPar { s.par with groomSpan := none, groomRow := 0,
                                 groomDone := if first then n :: s.par.groomDone else s.par.groomDone }
  let done := s.par.groomWait.filter fun w => w.1 == n
  let s := s.setPar { s.par with groomWait := s.par.groomWait.filter fun w => w.1 != n }
  let s := done.foldl (fun s w => s.finish w.2 stOk) s
  if first ∧ ((groomSpans s).all fun n => s.par.groomDone.contains n) then s.ev ePAR_CYCLE_DONE else s

/-- A codeword needed ladder step 2 or more, or REFRESH_BITS or more corrected bits (R325). -/
def worn (s : State) (reads : List (Nat × Nat)) : Bool :=
  reads.any fun r => decide (r.1 ≥ 2 ∨ r.2 ≥ s.rd rPAR_REFRESH_BITS)

/-- One row is groomed; `worn` says that a codeword of it is worn. -/
def groomRow (s : State) (l : Layout) (n row : Nat) (bad : List (Nat × Nat)) (worn : Bool) : State :=
  let ps := List.range (puGran s)
  let finds := ps.map fun p => (p, groomPos s l n row bad p)
  let move := worn || finds.any fun f => f.2 != .clean
  let s0 := s
  let s := finds.foldl (fun s f => groomNote s l n row f.2) s
  let fixed := finds.filterMap fun f => match f.2 with
    | .fixed x y => some ((x, f.1), y)
    | _ => none
  let s := s.bump rPAR_GROOM_ROWS 1
  let s := s.setPar { s.par with groomFixed := s.par.groomFixed + (if fixed.isEmpty then 0 else 1) }
  if !move then s
  else
    let word (i p : Nat) : Option Info := match fixed.find? fun f => f.1 == (i, p) with
      | some f => some f.2
      | none => rowRecover s0 l n row bad i p
    let s := moveRow s 254 (rowValids s0 l n row) word
    let s := s.setPar { s.par with groomMoved := s.par.groomMoved + 1 }
    s.bump rPAR_RELOCATED 1

/-- GROOM_ROW: the next row of the span that groom visits; `bad` lists codewords, by member position, that fail ladder
steps 1-4, `reads` the step and the corrected bits that each of the others took (R324, R325). Groom starts no read in a lit window without an excuse (R61). -/
def execGroomRow (bad reads : List (Nat × Nat)) (s : State) : Out :=
  .next <|
    match s.par.layout, heavyStart s false with
    | some l, some s =>
      let s := startGroom s
      match s.par.groomSpan with
      | none => s
      | some n =>
        let row := s.par.groomRow
        if row ≥ wordLines s then endGroom s n
        else if !rowWritten s l n row then s.setPar { s.par with groomRow := row + 1 }
        else if !copyRoom s (rowValid (s.span n) row) then s
        else match bgRow s .groom l.k 0 with
          | some s => groomRow (s.setPar { s.par with groomRow := row + 1 }) l n row bad (worn s reads)
          | none => s
    | _, _ => s

/-! ## Vendor commands (R328) and log page 0xC3 (R329) -/

/-- RAW_MEDIA_READ: Dwords 10 and 11 (R328). The die's answer completes the command with DESCRIPTOR_RAW. -/
def execRawMediaRead (seq : Nat) (dw10 dw11 : Dword) (s : State) : Out :=
  .next <| s.managerOnly seq fun _ =>
    let a := dw10.toNat
    let b := dw11.toNat
    let d := a % 1024
    let block := b % 2 ^ 14
    let wl := b / 2 ^ 14 % 2 ^ 11
    let page := b / 2 ^ 25 % 8
    let plane := b / 2 ^ 28 % 8
    let pslc := a / 2 ^ 13 % 2 = 1
    if s.rd rPAR_RAW_EN = 0 then s.finish seq stInvalidOpcode
    else if a / 2 ^ 14 ≠ 0 ∨ b / 2 ^ 31 ≠ 0 then s.finish seq stInvalidField
    else if !dieServes s d ∨ (!pslc ∧ block ≥ nativeBlocks s) ∨ wl ≥ wordLines s
        ∨ page ≥ (if pslc then 1 else s.rd rMAP_BITS) ∨ plane ≥ s.rd rMAP_PLANES then s.finish seq stInvalidField
    else if underErase s (s.die d) block then s.finish seq stUnderErase
    else if ringRoom s d = 0 then s
    else
      let x : Desc := { Desc.blank with
        typ := .raw, diag := true, gait := 3, cls := 7, pslc := pslc, die := d,
        tag := { fn := 0, epoch := (s.fn 0).epoch, pinned := false }, block := block,
        wl := wl, page := page, plane := plane, cw := a / 2 ^ 10 % 4, count := 4608,
        param := Config.rawSteps d block wl page plane (a / 2 ^ 10 % 4),
        owner := .diag seq (decide (a / 2 ^ 12 % 2 = 1)) }
      -- a RAW operation is a window up to its maximum: within a turn of the die's class (R255)
      if !windowFits s d 1 (maxTime (s.die d).profile x) then deferWindow s d
      else match placeDesc (windowPlaced s d) d x with
        | some s => s.hold seq
        | none => s

/-- GROOM_SPAN: Redundancy Control action 0 (R328). A span with nothing to groom has been groomed. -/
def execGroomSpan (seq n : Nat) (s : State) : Out :=
  .next <| s.managerOnly seq fun _ =>
    match s.par.layout with
    | none => s.finish seq stInvalidField
    | some l =>
      if !spanExists s l n then s.finish seq stInvalidField
      else if s.par.queue.any fun q => q.1 == n then s.finish seq stRedundancy
      else if (s.span n).phase ≠ .closed then s.finish seq stOk
      else (s.setPar { s.par with groomWait := s.par.groomWait ++ [(n, seq)] }).hold seq

/-- PAUSE_REBUILD: action 1 (R328). -/
def execPauseRebuild (seq : Nat) (s : State) : Out :=
  .next <| s.managerOnly seq fun _ =>
    if s.par.rbState = 1 then (s.setPar { s.par with rbState := 2 }).finish seq stOk else s.finish seq stSequence

/-- RESUME_REBUILD: action 2 (R328). -/
def execResumeRebuild (seq : Nat) (s : State) : Out :=
  .next <| s.managerOnly seq fun _ =>
    if s.par.rbState = 2 then (s.setPar { s.par with rbState := 1 }).finish seq stOk else s.finish seq stSequence

/-- MOVE_JOURNAL_MIRROR: action 3, mirror `k` to `die` (R328). -/
def execMoveJournalMirror (seq k die : Nat) (s : State) : Out :=
  .next <| s.managerOnly seq fun _ =>
    if s.par.rbState = 1 ∨ s.par.mirrors.any (fun m => m.rehoming || !m.service) then s.finish seq stRedundancy
    else if k ≥ s.par.mirrors.length ∨ die ≥ 1024 ∨ !dieServes s die ∨ holdsMirror s k (chanOf die) then
      s.finish seq stInvalidField
    -- the command waits until the die's reserve holds two erased blocks
    else if !rehomeRoom s die then s
    else
      let s := beginRehome s k die
      (s.setPar { s.par with moveWait := s.par.moveWait ++ [(k, die, seq)] }).hold seq

/-- Queued rows with two losses, and with one. -/
def rowsTwo (s : State) : Nat := (s.par.queue.filter fun q => decide (q.2.2 ≥ 2)).length
def rowsOne (s : State) : Nat := (s.par.queue.filter fun q => decide (q.2.2 < 2)).length

/-- Age of the oldest closed span in hours. -/
def groomAgeHours (s : State) : Nat := ((groomSpans s).map (groomAge s)).foldl max 0 / 3600

/-- Seconds to completion at the present rate; unknown before the first row (R329). -/
def rebuildEst (s : State) : Nat :=
  if s.par.rbState ≠ 1 ∨ s.par.rowsDone = 0 then 0xFFFFFFFF
  else min 0xFFFFFFFE (s.par.queue.length * ((s.tbs.clk - s.par.rbStart) / 1000000000) / s.par.rowsDone)

/-- The largest f_c of a declustered layout (R304). -/
def layoutF (l : Layout) : Nat := if l.declustered then l.f else 0

/-- Log page 0xC3 (R329). -/
def redundancyPage (s : State) : List Byte :=
  let l := s.par.layout
  let lost := s.par.lost.take 64
  leBytes 2 1 ++ leBytes 1 ((l.map fun l => (if l.declustered then 1 else 0) + 2 * layoutF l).getD 0)
    ++ leBytes 1 ((l.map Layout.k).getD 0) ++ leBytes 4 ((l.map Layout.spans).getD 0)
    ++ leBytes 2 ((l.map Layout.spareDie).getD 0) ++ leBytes 2 s.par.lost.length ++ leBytes 1 s.par.rbState
    ++ leBytes 1 (s.par.mirrors.filter fun m => m.service).length ++ zeros 2 ++ leBytes 8 (rowsTwo s)
    ++ leBytes 8 (rowsOne s) ++ leBytes 8 s.par.rowsDone ++ leBytes 4 (rebuildEst s) ++ leBytes 4 s.par.thirdLoss
    ++ leBytes 4 (groomAgeHours s) ++ leBytes 4 s.par.groomDone.length ++ leBytes 4 s.par.mismatch
    ++ leBytes 4 s.par.fixed ++ ((List.range 3).flatMap fun k => leBytes 2 (((s.par.mirrors[k]?).map Mirror.die).getD 0))
    ++ zeros 58 ++ (List.range 64).flatMap fun i => leBytes 2 (lost.getD i 0xFFFF)

/-- GET_LOG_PAGE_REDUNDANCY: any function (R329). -/
def execGetLogPageRedundancy (seq off len : Nat) (s : State) : Out :=
  .next <| s.admin seq fun _ => s.reply seq (slice (redundancyPage s) off len)

/-- PAR_JSEQ_LO_READ: latches JSEQ_HI for the path (R331). -/
def execParJseqLoRead (p : Path) (s : State) : Out :=
  .next <|
    (s.latch p rPAR_JSEQ_HI.blk rPAR_JSEQ_HI.off (BitVec.ofNat 32 (s.par.jseq / 2 ^ 32))).answer
      (.word (BitVec.ofNat 32 s.par.jseq))

end Sys2Proof.Machine
end

