-- ==== Sys2Proof/Machine/Reclaim.lean ====
section
/-! DEFINITION. Reclaim, wear and sanitize: victims, row copies, member erases, the paddock, the read-only state, the
life figure, sanitize (11 R332-R357; 13 R406). -/

namespace Sys2Proof.Machine

open Sys2Proof

/-! ## Victims (R337, R344) -/

/-- Highest erase count of ERASED and CLOSED spans, and lowest of CLOSED ones. -/
def maxErases (s : State) (l : Layout) : Nat :=
  (((allSpans s l).filter fun n => (s.span n).phase == .erased || (s.span n).phase == .closed).map (spanErases s l)).foldl
    max 0

def closedSpans (s : State) (l : Layout) : List Nat := (allSpans s l).filter fun n => (s.span n).phase == .closed

/-- The CLOSED span of lowest erase count (R344). -/
def coldSpan (s : State) (l : Layout) : Option Nat := leastBy (closedSpans s l) (spanErases s l)

def minErases (s : State) (l : Layout) : Nat := ((coldSpan s l).map (spanErases s l)).getD 0

/-- A wear victim is due and none is in progress (R344). -/
def wearDue (s : State) (l : Layout) : Bool :=
  s.rcl.wlVictim.isNone && !(closedSpans s l).isEmpty &&
    decide (maxErases s l > minErases s l + s.rd rRCL_WL_SPREAD)

/-- The CLOSED span with the fewest valid granules, the oldest closing on a tie; not one in the rebuild queue, nor the
one that groom visits. -/
def leanSpan (s : State) (l : Layout) : Option Nat :=
  let ns := (closedSpans s l).filter fun n =>
    !(s.par.queue.any fun q => q.1 == n) && s.par.groomSpan != some n
  let least := (ns.map fun n => spanValid (s.span n)).foldl min (2 ^ 64)
  leastBy (ns.filter fun n => spanValid (s.span n) == least) fun n => (s.span n).closedAt

/-- pick_victim: the span, and whether it is the wear victim. -/
def pickVictim (s : State) (l : Layout) : Option (Nat × Bool) :=
  match s.par.handed.find? fun n => (s.span n).phase == .closed with
  | some n => some (n, false)
  | none =>
    if wearDue s l ∧ !belowUrgent s then (coldSpan s l).map fun n => (n, true)
    else if belowLow s then (leanSpan s l).map fun n => (n, false)
    else none

/-- Rows of a victim with no valid granule give their credit as it is taken (R340). -/
def selectCredit (s : State) (n : Nat) : State :=
  let empty := (List.range (wordLines s)).filter fun r => rowValid (s.span n) r == 0
  addCredit (s.updSpan n fun x => { x with doneRows := empty, rowCopies := [] })
    (empty.length * (dataMembers s * puGran s))

/-- RECLAIM_VICTIM_PICK: the next victim in the order of R337. -/
def execReclaimVictimPick (s : State) : Out :=
  .next <|
    match s.par.layout with
    | none => s
    | some l =>
      match (if actRuns s then none else pickVictim s l) with
      | none => s
      | some (n, wear) =>
        let s := s.setPar { s.par with handed := s.par.handed.filter (· != n),
                                       groomSpan := if s.par.groomSpan = some n then none else s.par.groomSpan }
        let s := s.updSpan n fun x => { x with phase := .victim }
        let s := s.setRcl { s.rcl with victims := s.rcl.victims ++ [n],
                                       wlVictim := if wear then some n else s.rcl.wlVictim }
        let s := selectCredit s n
        if wear then (s.ev eRCL_WL).raise lRCL_WL none [] else s

/-! ## Row copies (R338, R339, R316) -/

/-- Copies of a row are in flight. -/
def rowInFlight (s : State) (n row : Nat) : Bool :=
  s.wbf.slots.any fun p =>
    let m := mgaParts s p.2.srcMga
    p.2.reserve && p.2.state == .copy && p.2.raw.isSome && m.wl == row && (spanOf s m.die m.block).map Prod.fst == some n

/-- A proxy's move is in flight. -/
def proxyMoving (s : State) (q : Proxy) : Bool :=
  s.wbf.pus.any fun u => u.proxyOf == some (q.span, q.row, q.pos) && u.state != .done

/-- Serving proxies that lie in a row. -/
def rowProxies (s : State) (n row : Nat) : List Proxy :=
  s.par.proxies.filter fun q => proxyInSpan s n q && (mgaParts s q.mga).wl == row

/-- Valid granules at their own place in a row and in no proxy that lies there: index, position and MGA. -/
def ownValids (s : State) (l : Layout) (n row : Nat) : List (Nat × Nat × Nat) :=
  (List.range l.d).flatMap fun i =>
    let (d, b) := member s l n (posData l row i)
    let m := mgaOf s d b row 0
    if s.par.proxies.any fun q => q.serving && q.mga == m then []
    else (List.range (puGran s)).filterMap fun p =>
      if granuleLive s (m + p) then some (i, p, m + p) else none

/-- A copy from the span is old: it was written by stream 253, or closed more than AGE_SPLIT_H hours earlier, or is the
wear victim (R339, R344). -/
def copiesOld (s : State) (n : Nat) : Bool :=
  let x := s.span n
  let h := s.rd rRCL_AGE_SPLIT_H
  h == 0 || x.stream == 253 || s.rcl.wlVictim == some n ||
    (if s.tbs.origin = 1 then decide (s.now - x.closedAt > 3600 * h) else decide (s.tbs.hours - x.closedHours > h))

/-- The next row of a victim to copy: a valid granule or a proxy in it, and nothing of it in flight. -/
def nextVictimRow (s : State) (n : Nat) : Option Nat :=
  (List.range (wordLines s)).find? fun r =>
    (decide (rowValid (s.span n) r ≠ 0) && !rowInFlight s n r) || (rowProxies s n r).any fun q => !proxyMoving s q

/-- One row of a victim is copied. -/
def copyRow (s : State) (l : Layout) (n row : Nat) (bad : List (Nat × Nat)) : State :=
  let word := rowRecover s l n row bad
  let vs := if rowInFlight s n row then [] else ownValids s l n row
  let got := vs.map fun v => (v, word v.1 v.2.1)
  let moves := ((rowProxies s n row).filter fun q => !proxyMoving s q).map fun q =>
    let i := memberIndex l row ((spanOf s (mgaParts s q.mga).die (mgaParts s q.mga).block).map Prod.snd |>.getD 0)
    (q, (List.range (puGran s)).map fun p => if q.void.getLsbD p then none else word i p)
  let stream := if copiesOld s n then 253 else 252
  let s := got.foldl (fun s v => match v.2 with
    | some x => pushCopy s stream v.1.2.2 x .copy
    | none => s.setLdc { s.ldc with reverse := s.ldc.reverse ++ [v.1.2.2] }) s
  let s := moves.foldl (fun s q => pushProxy s 253 (q.1.span, q.1.row, q.1.pos) q.2) s
  s.updSpan n fun x => { x with rowCopies := Tbl.set x.rowCopies row (Tbl.getD x.rowCopies row 0 + got.length) }

/-- RECLAIM_ROW_COPY: the next row of victim `n`; `bad` lists codewords, by member position, that fail ladder steps
1-4. Without room for its copies, or in a lit window without an excuse, it waits (R61, R338). -/
def execReclaimRowCopy (n : Nat) (bad : List (Nat × Nat)) (s : State) : Out :=
  .next <|
    match s.par.layout, nextVictimRow s n with
    | some l, some row =>
      if (s.span n).phase ≠ .victim ∨
          !copyRoom s (rowValid (s.span n) row + (rowProxies s n row).length * puGran s) then s
      -- a span that rebuild handed over is copied within rebuild's share (R318, R337)
      else match heavyRow s (if s.par.rbState = 1 ∧ s.par.rbHanded.contains n then .rebuild else .reclaim) l.d
          (rowValid (s.span n) row) with
        | some s => copyRow s l n row bad
        | none => s
    | _, _ => s

/-! ## Release and erase (R332, R340, R347) -/

/-- Every valid granule of a victim row has been repointed or dropped: the row gives its credit (R340). -/
def creditRow (s : State) (n row : Nat) : State :=
  let x := s.span n
  if rowValid x row ≠ 0 ∨ x.doneRows.contains row ∨ rowInFlight s n row then s
  else addCredit (s.updSpan n fun x => { x with doneRows := row :: x.doneRows })
    (dataMembers s * puGran s - Tbl.getD x.rowCopies row 0)

/-- Credit of the victims' rows at a stride boundary. -/
def creditRows (s : State) : State :=
  s.rcl.victims.foldl (fun s n => (List.range (wordLines s)).foldl (fun s r => creditRow s n r) s) s

/-- A span moves to RELEASED; a victim is then completed (R332). -/
def releaseSpan (s : State) (n : Nat) : State :=
  let victim := s.rcl.victims.contains n
  let s := if victim then s.bump rRCL_VICTIMS 1 else s
  let s := if s.rcl.wlVictim = some n then s.bump rRCL_WL_VICTIMS 1 else s
  let s := s.setRcl { s.rcl with victims := s.rcl.victims.filter (· != n),
                                 wlVictim := if s.rcl.wlVictim = some n then none else s.rcl.wlVictim }
  let s := s.setPar { s.par with handed := s.par.handed.filter (· != n),
                                 groomSpan := if s.par.groomSpan = some n then none else s.par.groomSpan,
                                 queue := s.par.queue.filter fun q => q.1 != n }
  s.updSpan n fun x => { x with phase := .released, startedMembers := [], erasedMembers := [] }

/-- A failed MGA of the span waits for its poisoning. -/
def reverseIn (s : State) (n : Nat) : Bool :=
  s.ldc.reverse.any fun m => (spanOf s (mgaParts s m).die (mgaParts s m).block).map Prod.fst == some n

/-- A resolved location of the span is still to be read: it stays readable until the read's transfer from it ends (R80). -/
def readPending (s : State) (n : Nat) : Bool :=
  s.stp.reads.any fun j => j.result.isNone && (spanOf s (mgaParts s j.mga).die (mgaParts s j.mga).block).map Prod.fst == some n

/-- SPAN_RELEASE at a stride boundary: closed and victim spans that are empty (R332). -/
def releaseSpans (s : State) : State :=
  match s.par.layout with
  | none => s
  | some l => (allSpans s l).foldl (fun s n =>
      if ((s.span n).phase = .closed ∨ (s.span n).phase = .victim) ∧ spanEmpty s n ∧ !reverseIn s n then releaseSpan s n
      else s) s

/-- Every member on a die in service has reported its done record with OK. -/
def allErased (s : State) (l : Layout) (n : Nat) : Bool :=
  (List.range l.k).all fun c => (s.span n).erasedMembers.contains c || !(s.die (member s l n c).1).service

/-- SPAN_ERASED: the span returns to the paddock, or a spare span's blocks to spare; proxies of its rows are gone
(R307, R332). -/
def spanErased (s : State) (l : Layout) (n : Nat) : State :=
  let s := s.setPar { s.par with proxies := s.par.proxies.filter fun q => q.span != n }
  let s := s.setRcl { s.rcl with sanitizeSpans := s.rcl.sanitizeSpans.filter (· != n) }
  let x := s.span n
  if n ≥ l.spans then
    let keys := (members s l n).map fun m => blockKey m.1 m.2
    let s := s.setRcl { s.rcl with spareTaken := s.rcl.spareTaken.filter fun k => !keys.contains k }
    (jspan s n 0).setSpan n Span.erased
  else jspan (s.setSpan n { Span.erased with stream := x.stream, subst := x.subst, groomedAt := x.groomedAt }) n 0

/-- A span whose members are all erased becomes ERASED. -/
def tryErased (s : State) (n : Nat) : State :=
  match s.par.layout with
  | none => s
  | some l => if (s.span n).phase = .erasing ∧ allErased s l n then spanErased s l n else s

/-- The erase of member `c` is to start again. -/
def eraseAgain (s : State) (n c : Nat) : State :=
  s.updSpan n fun x => { x with startedMembers := x.startedMembers.filter (· != c) }

/-- A member erase failed: under sanitize it is retried once; then its block is retired and the substitute joins the
span erase, or the span is retired (R345, R347, R355). -/
def eraseFailed (s : State) (l : Layout) (n c die block cause : Nat) : State :=
  let k := blockKey die block
  if sanitizing s ∧ !s.rcl.sanitizeRetried.contains k then
    eraseAgain (s.setRcl { s.rcl with sanitizeRetried := k :: s.rcl.sanitizeRetried }) n c
  else
    let s := if sanitizing s then s.setRcl { s.rcl with sanitizeBad := s.rcl.sanitizeBad ++ [k] } else s
    let s := retireBlock s die block cause
    match takeSubst s l n c 0 with
    | some s => eraseAgain s n c
    | none =>
      let s := retireSpan s n
      s.setRcl { s.rcl with sanitizeSpans := s.rcl.sanitizeSpans.filter (· != n) }

/-- What the completion record of a member erase says to RCL (R332, R343, R347, R356). -/
def memberErased (s : State) (n die : Nat) (t : CStat) : State :=
  match s.par.layout with
  | none => s
  | some l =>
    match (members s l n).findIdx? fun m => m.1 == die with
    | none => tryErased s n
    | some c =>
      if (s.span n).phase ≠ .erasing then s
      else
        let b := (member s l n c).2
        let counted := s.setRcl { s.rcl with counts := Tbl.set s.rcl.counts (blockKey die b) (eraseCount s die b + 1) }
        match t with
        | .ok => tryErased (counted.updSpan n fun x => { x with erasedMembers := c :: x.erasedMembers }) n
        | .eraseFail => eraseFailed counted l n c die b t.ctorIdx
        | .timeout => eraseFailed s l n c die b t.ctorIdx
        | _ => tryErased (eraseAgain s n c) n

/-- ERASE_INTENT and ERASE of a block, chained (R208, R227, R228). -/
def erasePair (s : State) (die block count reason flags : Nat) (owner : Owner) : Desc × Desc :=
  let tag : JobTag := { fn := 0, epoch := 0, pinned := true }
  let x : Desc := { Desc.blank with
    typ := .eraseIntent, chain := true, gait := 3, cls := 4, tag := tag, die := die, mga := mgaOf s die block 0 0,
    block := block, owner := .none,
    param := BitVec.ofNat 128 (reason + 2 ^ 8 * flags + 2 ^ 16 * block + 2 ^ 32 * count) }
  (x, { x with typ := .erase, chain := false, owner := owner })

/-- SPAN_ERASE_START: the erase of member `c` of a RELEASED or ERASING span is placed, in a dim window, so that it
begins and its first interval ends in a turn of its die's class (R61, R255, R332). -/
def execSpanEraseStart (n c : Nat) (s : State) : Out :=
  .next <|
    match s.par.layout with
    | none => s
    | some l =>
      let x := s.span n
      let (d, b) := member s l n c
      if (x.phase ≠ .released ∧ x.phase ≠ .erasing) ∨ readPending s n ∨ c ≥ l.k ∨ x.startedMembers.contains c ∨ !dieServes s d
          ∨ (s.fch.intentErase.any fun q => q.1 == d && q.2.1 == b)
          ∨ ringRoom s d < 2 ∨ (s.die d).timeline.length ≥ 15 then s
      else
        let (a, e) := erasePair s d b (eraseCount s d b + 1) 0 0 (.spanErase n d)
        match placeTwo s d a e with
        | none => s
        | some t =>
          let start := match (t.die d).timeline.getLast? with
            | some g => (tickDiff s g.start).toNat
            | none => 1
          if !windowFits s d start (windowLen s d .erase) then deferWindow s d
          else if !yieldRoom s d then s
          else match heavyCharge (windowPlaced t d) .reclaim 192 (256 * (t.die d).profile.erase) with
            | none => s
            | some t =>
              t.updSpan n fun x => { x with phase := .erasing, startedMembers := c :: x.startedMembers }

/-! ## The paddock at a stride boundary (R335, R340, R341) -/

/-- Threshold crossings, and the begin and end of write throttling. -/
def paddockLevels (s : State) : State :=
  if s.par.layout.isNone then s
  else
    let s := if belowLow s ∧ !s.rcl.lowSeen then s.ev eRCL_LOW else s
    let s := if belowUrgent s ∧ !s.rcl.urgentSeen then (s.ev eRCL_URGENT).raise lRCL_URGENT none [] else s
    let s := if atFloor s ∧ !s.rcl.floorSeen then (s.ev eRCL_FLOOR).raise lRCL_FLOOR none [] else s
    s.setRcl { s.rcl with lowSeen := belowLow s, urgentSeen := belowUrgent s, floorSeen := atFloor s,
                          throttling := belowUrgent s,
                          credit := if s.rcl.throttling && belowUrgent s then s.rcl.credit else 0 }

/-- Paddock deficit times 1,000: 0 at PADDOCK_LOW, 1,000 at PADDOCK_FLOOR (R263). -/
def deficit (s : State) : Nat :=
  let low := lowSpans s
  let floor := floorSpans s
  if s.par.layout.isNone then 0
  else min 1000 ((low - paddock s) * 1000 / max (low - floor) 1)

/-! ## Read-only (R350, R351) and the life figure (R348, R353, R354) -/

/-- A: allocated spans. -/
def allocatedSpans (s : State) : Nat :=
  let g := ((liveSpaces s).map fun p => spaceUse p.2).sum
  (g + spanUser s - 1) / max (spanUser s) 1

/-- A SMART critical warning begins: an asynchronous event on every function that enables its bit. -/
def smartEvent (s : State) (bit info : Nat) : State :=
  (s.fns.filter fun p => p.2.enabled && (Tbl.getD p.2.feats 0x0B 0).getLsbD bit).foldl
    (fun s p => s.asyncEvent p.1 1 info 2) s

/-- Bodies that change logical blocks. -/
def changesBlocks : IoBody → Bool
  | .write .. | .mapOnly _ | .zone .. => true
  | _ => false

/-- READ_ONLY_ENTER: spans not retired fall below A + F + 256 (R350, R351). -/
def readOnlyEnter (s : State) : State :=
  if s.rcl.readOnly ∨ s.par.layout.isNone ∨ spansLive s ≥ allocatedSpans s + floorSpans s + 256 then s
  else
    let s := s.setRcl { s.rcl with readOnly := true, pctUsed := max s.rcl.pctUsed 100 }
    let s := s.setNor (s.nor.putRoster { s.nor.roster with readOnly := true })
    let s := (s.qmx.cmds.filter fun c => !c.admin && changesBlocks c.body && !c.atPoint).foldl
      (fun s c => (releaseCmd s c).finish c.seq stWriteProtected) s
    smartEvent ((s.ev eRCL_READ_ONLY).raise lRCL_READ_ONLY none []) 3 0

/-- Free spare blocks on dies in service. -/
def freeSpareCount (s : State) : Nat :=
  match s.par.layout with
  | none => 0
  | some l => ((s.fch.dies.filter fun p => p.2.service).map fun p => (freeSpares s l p.1).length).sum

/-- Spare consumed (R348). -/
def spareUsed (s : State) : Nat :=
  s.rcl.spareTotal - freeSpareCount s + spanMembers s * s.rcl.retiredSpans

/-- Erase counts of the member blocks of spans not retired, on dies in service: their sum and number (R343). -/
def eraseSum (s : State) : Nat × Nat :=
  match s.par.layout with
  | none => (0, 0)
  | some l =>
    ((List.range l.spans).filter fun n => (s.span n).phase != .retired).foldl (fun a n =>
      (members s l n).foldl (fun a m =>
        if (s.die m.1).service then (a.1 + eraseCount s m.1 m.2, a.2 + 1) else a) a) (0, 0)

def averageErases (s : State) : Nat := (eraseSum s).1 / max (eraseSum s).2 1

/-- Percentage Used as recomputed (R353). -/
def percentUsed (s : State) : Nat :=
  let (a, n) := eraseSum s
  let wear := if s.rd rRCL_RATED_PE = 0 then 0 else 100 * a / (max n 1 * s.rd rRCL_RATED_PE)
  let spare := 100 * spareUsed s / max s.rcl.spareTotal 1
  let p := min 255 (max wear spare)
  if s.rcl.readOnly then max p 100 else p

/-- Available Spare (R354). -/
def availableSpare (s : State) : Nat :=
  if s.rcl.spareTotal = 0 then 100 else 100 * (s.rcl.spareTotal - spareUsed s) / s.rcl.spareTotal

/-- LIFE_FIGURE: at each second boundary (R353, R354). -/
def lifeFigure (s : State) : State :=
  if s.par.layout.isNone then s
  else
    let p := percentUsed s
    let a := availableSpare s
    let low := decide (a < 10 ∧ s.rcl.availSpare ≥ 10)
    let first := decide (p ≥ 100) && !s.rcl.life100
    let s := s.setRcl { s.rcl with pctUsed := p, availSpare := a, life100 := s.rcl.life100 || first }
    let s := if first then (s.ev eRCL_LIFE_100).raise lRCL_LIFE_100 none [] else s
    if low then smartEvent s 0 2 else s

/-! ## Sanitize (R355, R406) -/

/-- SANITIZE_BLOCK_ERASE, step 1: the command completes at once and the operation is armed (R355). -/
def execSanitizeBlockErase (seq : Nat) (s : State) : Out :=
  .next <| s.managerOnly seq fun _ =>
    if sanitizing s then s.finish seq stSanitizing
    else
      let s := s.setRcl { s.rcl with sanitize := .armed, sanitizeBad := [], sanitizeRetried := [],
                                     sanitizeSpans := [], sanitizeTotal := 0, sanitizeCkpt := none }
      (s.setNor (s.nor.putTable s.nor.fnTable s.nor.migSerial true)).finish seq stOk

/-- Copies, and program units that have not entered a row, are dropped. -/
def dropCopies (s : State) : State :=
  let held := (s.wbf.targets.filter fun p => decide (p.1 ≥ 2 ^ 40) && p.1 != tgtCtl 255).flatMap fun p => p.2.held
  let slots := held.flatMap fun i => if (s.slot i).group then (List.range 16).map (i + ·) else [i]
  let loose (u : Pu) : Bool := u.stream != 255 && ((u.state == .opening && u.proxyOf.isSome) || u.state == .waiting)
  let open_ := s.wbf.pus.filter loose
  let s := (slots ++ open_.flatMap fun u => u.slots.filterMap id).foldl (fun s i => s.setSlot i Slot.free) s
  let s := s.setWbf { s.wbf with
    targets := s.wbf.targets.filter fun p => !(decide (p.1 ≥ 2 ^ 40) && p.1 != tgtCtl 255),
    pus := s.wbf.pus.filter fun u => !loose u }
  let s := s.setMap { s.map with demotes := s.map.demotes.filter fun d => !slots.contains d.slot }
  s.setPar { s.par with proxies := s.par.proxies.filter Proxy.serving, queue := [], handed := [], groomSpan := none }

/-- Open rows close with pad, and the streams leave their spans (R187, R355). -/
def closeStreams (s : State) (l : Layout) : State :=
  s.wbf.streams.foldl (fun s p =>
    let x := s.stream p.1
    let s := s.setStream p.1 { x with newSpan := x.span.isSome,
                                      padRow := x.padRow || (x.state == .accumulating && decide (x.members < l.d)),
                                      padFn := if x.padRow then x.padFn else 0 }
    leaveIfSpent s p.1) s

/-- Step 2, at the boundary: every entry becomes UNMAPPED, waiting commands end, open rows are padded, and the spans to
erase are taken down (R355). -/
def sanitizeBegin (s : State) : State :=
  match s.par.layout with
  | none => s
  | some l =>
    let s := (s.qmx.cmds.filter fun c => !c.admin && c.body != .undecoded && !c.atPoint).foldl
      (fun s c => (releaseCmd s c).finish c.seq stSanitizing) s
    let s := (liveSpaces s).foldl (fun s p => clearSpace s p.1) s
    let s := closeStreams (dropCopies s) l
    let ns := (allSpans s l).filter fun n => (s.span n).phase != .erased && (s.span n).phase != .retired
    s.setRcl { s.rcl with sanitize := .erasing, sanitizeSpans := ns, sanitizeTotal := ns.length }

/-- Steps 3 and 4, at each boundary: spans that have closed are released, and with all erased a checkpoint starts. -/
def sanitizeRun (s : State) : State :=
  let s := s.rcl.sanitizeSpans.foldl (fun s n =>
    if (s.span n).phase = .closed ∨ (s.span n).phase = .victim then releaseSpan s n else closeSpan s n) s
  if s.rcl.sanitizeSpans.isEmpty ∧ s.rcl.sanitizeCkpt.isNone ∧ s.map.ckpt = .idle then
    let n := s.map.ckptNum + 1
    (startCkpt s).setRcl { (startCkpt s).rcl with sanitizeCkpt := some n }
  else s

/-- The sanitize operation at a stride boundary. -/
def sanitizeTick (s : State) : State :=
  match s.rcl.sanitize with
  | .armed => sanitizeBegin s
  | .erasing => sanitizeRun s
  | _ => s

/-- SANITIZE_COMPLETE: every span is ERASED and the checkpoint is adopted; the dump reserve has been erased again. With
a block that failed twice the operation is reported failed, and the event names the blocks (R355). -/
def execSanitizeComplete (s : State) : Out :=
  .next <|
    match s.rcl.sanitizeCkpt with
    | none => s
    | some n =>
      if s.rcl.sanitize ≠ .erasing ∨ !s.rcl.sanitizeSpans.isEmpty ∨ s.map.ckptNum < n then s
      else
        let bad := s.rcl.sanitizeBad
        let s := s.setRcl { s.rcl with sanitize := if bad.isEmpty then .completed else .failed }
        let s := (s.setNor (s.nor.putTable s.nor.fnTable s.nor.migSerial false)).setHld { s.hld with image := none }
        s.raise lRCL_SANITIZE none (bad.flatMap fun k => [p2 (k / 16384), p4 (k % 16384)])

/-- SANITIZE_CRYPTO_ERASE: every namespace is erased by key; one of mode none refuses it (R406). -/
def execSanitizeCryptoErase (seq : Nat) (s : State) : Out :=
  .next <| s.managerOnly seq fun _ =>
    let l := liveSpaces s
    if sanitizing s then s.finish seq stSanitizing
    else if l.any fun p => p.2.mode == .none then s.finish seq stInvalidField
    else if keysRefused s l then s.finish seq stInternal
    else if formatWaits s seq (l.map Prod.fst) then s
    else cryptoEraseAll (s.setRcl { s.rcl with sanitize := .completed }) seq l

/-- SANITIZE_OVERWRITE: not supported (R68). -/
def execSanitizeOverwrite (seq : Nat) (s : State) : Out :=
  .next <| s.managerOnly seq fun _ => s.finish seq stInvalidField

/-! ## RCL counters (R357) -/

/-- A read of the low word of a 64-bit counter latches its high word for the path. -/
def readWide (s : State) (p : Path) (hi : Fld) (v : Nat) : State :=
  (s.latch p hi.blk hi.off (BitVec.ofNat 32 (v / 2 ^ 32))).answer (.word (BitVec.ofNat 32 v))

def execRclCopyLoRead (p : Path) (s : State) : Out := .next (readWide s p rRCL_COPY_HI s.rcl.copied)

def execRclHostLoRead (p : Path) (s : State) : Out := .next (readWide s p rRCL_HOST_HI s.rcl.hosted)

end Sys2Proof.Machine
end

