-- ==== Sys2Proof/Machine/Memory.lean ====
section
/-! DEFINITION. DRAM lines and SRAM words that fail their checks, recompute, freeze, retraining windows (12 R358-R384). -/

namespace Sys2Proof.Machine

open Sys2Proof


/-- Subchannel of a line (R361). -/
def lineSc (line : Nat) : Nat := line % 4

def Subch.empty : Subch :=
  { writes := [], banks := [] }

def State.subch (s : State) (c : Nat) : Subch := Tbl.getD s.dmc.subch c Subch.empty

def State.setSubch (s : State) (c : Nat) (x : Subch) : State :=
  s.setDmc { s.dmc with subch := Tbl.put s.dmc.subch c x Subch.empty }

/-! ## Row prediction and the write queues (R365-R367) -/

/-- A bank before its first access: no open row, counter 1. -/
def DramBank.fresh : DramBank := { row := none, ctr := 1 }

/-- The counter after an access to a row: up on a hit of a row left open, down when another row is needed. -/
def DramBank.count (b : DramBank) (row : Nat) : Nat :=
  match b.row with
  | some r => if r = row then min 3 (b.ctr + 1) else b.ctr - 1
  | none => b.ctr

/-- An access to a line: the bank's row stays open when a queued access hits it, or when the counter is 2 or 3; with
PRED_EN = 0 every row is closed (R367). -/
def Subch.access (c : Subch) (pred : Bool) (line : Nat) : Subch :=
  let (k, row) := Config.dramPlace line
  let b := Tbl.getD c.banks k DramBank.fresh
  let n := b.count row
  let hit := c.writes.any fun w => w != line && Config.dramPlace w == (k, row)
  { c with banks := Tbl.put c.banks k { row := if pred && (hit || decide (n ≥ 2)) then some row else none, ctr := n }
                      DramBank.fresh }

/-- DMC reads a line. -/
def readLine (s : State) (line : Nat) : State :=
  s.setSubch (lineSc line) ((s.subch (lineSc line)).access s.dmc.conf.pred line)

/-- The oldest `n` writes of a queue go to the DRAM. -/
def Subch.drain (c : Subch) (pred : Bool) : Nat → Subch
  | 0 => c
  | n + 1 => match c.writes with
    | [] => c
    | w :: r => (({ c with writes := r }).access pred w).drain pred n

/-- A write-back enters its subchannel's write queue, replacing a queued write to the same line (R365); a queue that comes
to WQ_HIGH drains to WQ_LOW, oldest first (R366). -/
def writeBack (s : State) (line : Nat) : State :=
  let c := s.subch (lineSc line)
  if c.writes.contains line then s
  else
    let c := { c with writes := c.writes ++ [line] }
    let n := if c.writes.length ≥ s.dmc.conf.wqHigh then c.writes.length - s.dmc.conf.wqLow else 0
    s.setSubch (lineSc line) (c.drain s.dmc.conf.pred n)

/-! ## Freeze (R374) -/

def causeCode : FreezeCause → Nat
  | .none => 0 | .notFolded => 1 | .noSource => 2 | .recomputeFailed => 3 | .sram => 4

/-- DMC freezes: no DRAM access but the dump's, no fetch, hold plans, a direct ledger record (R374, R378). -/
def freeze (s : State) (cause : FreezeCause) (line : Nat) : State :=
  if s.dmc.frozen then s
  else
    let s := s.setDmc { s.dmc with frozen := true, cause := cause, fails := [] }
    let s := s.setQmx { s.qmx with frozen := true }
    let s := s.setStp { s.stp with holdNext := true }
    (s.ev eDMC_FREEZE).raiseAt 0x14 lDMC_FREEZE none [p4 (causeCode cause)] (some line)

/-! ## Line check failures (R370) -/

/-- Region number of a line, and its class: that of a write-buffer line follows its slot's state (R26, R173, R363). -/
def regionNo (r : Region) : Nat := r.ctorIdx + 1
def lineClass (s : State) (x : LineFail) : Nat :=
  match x.region with
  | .readBuffer => 1
  | .writeBuffer => match (s.slot x.slot).state with
    | .copy => 1
    | .ckpt => 0
    | _ => 2
  | _ => 0

/-- The owner tag that the requester of a line expects: a slot's function, the requester's for read buffer and tenant state,
else 0 (R363, R364). -/
def lineOwner (s : State) (x : LineFail) : OwnerTag :=
  let host := lineClass s x = 2 ∧ (s.slot x.slot).fn < 256
  { cls := lineClass s x, region := regionNo x.region,
    fn := match x.region with
      | .writeBuffer => if host then (s.slot x.slot).fn else 0
      | .readBuffer | .tenant => x.fn % 256
      | _ => 0,
    epoch := if host then (s.slot x.slot).epoch % 256 else 0 }

/-- Line `k` of the 64 data lines of a slot as DMC wrote it at line index `line` (R171, R362, R363). -/
def slotLine (s : State) (i k line : Nat) : BitVec 640 :=
  lineImage line (bytesOf 64 ((s.slot i).data >>> (512 * k)))
    (lineOwner s { line := line, region := .writeBuffer, slot := i, descriptor := false, fn := 0 }).pack

/-- A line of the DRAM found, and of a slot that the buffer has (R26, R361). -/
def lineExists (s : State) (x : LineFail) : Bool :=
  decide (x.line < s.rd rDMC_SIZE_GIB * 2 ^ 24 ∧ (x.region ≠ .writeBuffer ∨ x.slot < slotsAll))

/-- Both refetches failed: the failure is captured, with the line as first read while none is held, and waits for its
recompute. -/
def lineFailed (s : State) (x : LineFail) (qtr : BitVec 4) (lcrc tag : Bool) (raw : BitVec 640) : State :=
  let first := !(s.page 0x14).errValid
  let s := if first then
      let s := s.wr rDMC_FAIL_SC (lineSc x.line)
      let s := s.wr rDMC_FAIL_QTR qtr.toNat
      let s := s.wr rDMC_LCRC_BAD (if lcrc then 1 else 0)
      let s := s.wr rDMC_TAG_BAD (if tag then 1 else 0)
      (List.range 20).foldl (fun s k => s.wrAt rDMC_DIAG_LINE 0 k ((raw >>> (32 * k)).toNat % 2 ^ 32)) s
    else s
  let s := s.capture 0x14 1 none x.line
  s.setDmc { s.dmc with fails := s.dmc.fails ++ [x] }

/-- A line of write data in FILLING whose epoch is no longer its function's: its command is gone (R364). -/
def lineStale (s : State) (x : LineFail) (raw : BitVec 640) : Bool :=
  let y := s.slot x.slot
  x.region == .writeBuffer && y.state == .filling && (s.cmd? y.cmd).isNone &&
    (ownerTag (lineTag raw)).epoch != (s.fn y.fn).epoch

/-- DRAM_LINE_CHECK_FAIL: a line read as `raw` fails the checks `qtr`, `lcrc` and `tag` for its requester; `passes` says
that a refetch clears it. A queued write to the line serves the read; a stale line of a slot in FILLING is not delivered,
and frees its slot (R364, R370, R382). A read of DMC's own for a partial write is checked alike (R362). -/
def execDramLineCheckFail (x : LineFail) (qtr : BitVec 4) (lcrc tag passes : Bool) (raw : BitVec 640) (s : State) : Out :=
  .next <|
    if s.dmc.frozen ∨ !lineExists s x ∨ (s.subch (lineSc x.line)).writes.contains x.line
        ∨ lineCheck x.line raw (lineOwner s x) ≠ (qtr, lcrc, tag) then s
    else if lineStale s x raw then (readLine s x.line).freeSlot x.slot
    else if qtr = 0 ∧ !lcrc ∧ !tag then s
    else
      let s := readLine s x.line
      if passes then writeBack ((s.bump rDMC_REFETCH_OK 1).ev eDMC_REFETCH_OK) x.line
      else lineFailed s x qtr lcrc tag raw

/-! ## Recompute (R371-R373) -/

/-- What recomputes a line. -/
inductive Source
  /-- flash, NOR, the journal mirrors or the host -/
  | copy
  /-- the host, for a slot in FILLING -/
  | host
  /-- P and the other members, or the granule's own program (R372) -/
  | row
  | notFolded
  | none
  deriving DecidableEq, Repr

/-- The granule of a slot has been folded (R372). -/
def slotFolded (s : State) (x : Slot) : Bool :=
  match s.findPu x.stream x.rowSerial x.member with
  | some u => decide (x.pos < u.foldedTo)
  | none => false

/-- The source of a line by its region and class (R371); `covered` says that the journal mirrors hold its records. -/
def lineSource (s : State) (x : LineFail) (covered : Bool) : Source :=
  match x.region with
  | .coarse | .finePool | .zoneMap | .firmware | .ledger | .readBuffer => .copy
  | .journal => if covered then .copy else .none
  | .delta | .tenant => .none
  | .writeBuffer =>
    if x.descriptor then .none
    else
      let y := s.slot x.slot
      match y.state with
      | .filling => .host
      | .held => .notFolded
      | .assembled => if slotFolded s y then .row else .notFolded
      | .sent => .row
      | _ => if slotFolded s y then .row else .copy

/-- The line is written back, counted and recorded. -/
def recomputed (s : State) (x : LineFail) : State :=
  ((writeBack (s.bump rDMC_RECOMPUTED 1) x.line).ev eDMC_RECOMPUTE).raise lDMC_RECOMPUTE none
    [p4 x.line, p4 (regionNo x.region), p4 (lineClass s x)]

/-- DMC_RECOMPUTE: the oldest failed line is rebuilt from its source; `ok` says that the source gives it. Without a
source, or when the source fails, DMC freezes. A slot in FILLING whose data came in-capsule has no host source: its
command ends with Data Transfer Error; one whose command is gone is dropped (R370-R374, R382). -/
def execDmcRecompute (ok covered : Bool) (s : State) : Out :=
  .next <|
    match s.dmc.fails with
    | [] => s
    | x :: r =>
      let t := s.setDmc { s.dmc with fails := r }
      match lineSource s x covered with
      | .none => freeze t .noSource x.line
      | .notFolded => freeze t .notFolded x.line
      | .host =>
        match s.cmd? (s.slot x.slot).cmd with
        | none => t.freeSlot x.slot
        | some c => if ok then recomputed t x else (releaseCmd t c).finish c.seq stDataTransfer
      | _ => if ok then recomputed t x else freeze t .recomputeFailed x.line

/-! ## Replays (R359) -/

/-- DRAM_ALERT: `ca` a command, else a write, replayed `n` times; sixteen within a stride make the line a check
failure. A check that is not in use raises no alert. -/
def execDramAlert (ca : Bool) (n : Nat) (x : LineFail) (s : State) : Out :=
  .next <|
    let used := if ca then s.rd rDMC_CAPAR else s.rd rDMC_WCRC
    if s.dmc.frozen ∨ used = 0 ∨ n = 0 then s
    else
      let s := if ca then (s.bump rDMC_CAPAR_RETRY n).ev eDMC_CAPAR else (s.bump rDMC_WCRC_RETRY n).ev eDMC_WCRC
      if n ≥ 16 then lineFailed s x 0 false false 0 else s

/-! ## Retraining windows (R369) -/

/-- Strides since a tick, modulo 2^32. -/
def ticksSince (s : State) (t : BitVec 32) : Nat := (s.fch.tick - t).toNat

/-- A window may be taken: the rank exists, and none is taken in this stride. -/
def windowFree (s : State) (sc rank : Nat) : Bool :=
  s.dmc.trained && !s.dmc.frozen && !s.dmc.window && decide (sc < 4 ∧ rank < s.rd rDMC_RANKS) && s.hld.dump == .idle

/-- DRAM_OSC_READ: every OSC_STRIDES the oscillator of a rank is read; a drift beyond DRIFT sixty-fourths of a UI
re-centres it. -/
def execDramOscRead (sc rank drift : Nat) (s : State) : Out :=
  .next <|
    let k := sc * 2 + rank
    if !windowFree s sc rank ∨ ticksSince s (Tbl.getD s.dmc.lastOsc k 0) < s.dmc.conf.osc then s
    else
      let s := s.setDmc { s.dmc with window := true, lastOsc := Tbl.set s.dmc.lastOsc k s.fch.tick }
      if drift > s.dmc.conf.drift then s.ev eDMC_RETRAIN else s

/-- DRAM_ZQ_CALIBRATION: every 16,000 strides on each rank. -/
def execDramZqCalibration (sc rank : Nat) (s : State) : Out :=
  .next <|
    let k := sc * 2 + rank
    if !windowFree s sc rank ∨ ticksSince s (Tbl.getD s.dmc.lastZq k 0) < 16000 then s
    else s.setDmc { s.dmc with window := true, lastZq := Tbl.set s.dmc.lastZq k s.fch.tick }

/-- At a stride boundary the windows are free again, the write queues drain: wholly, since no read is queued across the
boundary (R366); and the settings written come into force (R383). -/
def drainWrites (s : State) : State :=
  if s.dmc.frozen then s
  else
    let conf : DmcConf :=
      { wqHigh := s.rd rDMC_WQ_HIGH, wqLow := s.rd rDMC_WQ_LOW, pred := s.rd rDMC_PRED_EN == 1, osc := s.rd rDMC_OSC_STRIDES,
        drift := s.rd rDMC_DRIFT }
    s.setDmc { s.dmc with window := false, conf := conf,
                          subch := Tbl.map s.dmc.subch fun _ (c : Subch) => c.drain s.dmc.conf.pred c.writes.length }

/-! ## Refresh (R368, R40) -/

/-- Average refresh interval in ns: halved while a device reads above 85 C. -/
def refreshInterval (s : State) : Nat := if Config.dramHot s.tbs.clk then 1950 else 3900

def RankRefresh.none : RankRefresh := { ns := 0, due := 0, taken := 0 }

/-- A stride of a rank's refresh: the intervals that fell due, and `late`, at most four, that stay put off. -/
def RankRefresh.tick (r : RankRefresh) (len interval late : Nat) : RankRefresh :=
  let t := r.ns + len
  let due := r.due + t / interval
  let left := min (min late 4) due
  { ns := t % interval, due := left, taken := r.taken + (due - left) }

/-- DRAM refreshes itself in PS4, which a dump leaves (R461, R471). -/
def selfRefresh (s : State) : Bool := decide (s.thm.ps = 4 ∧ s.hld.dump = .idle)

/-- The plan's refresh windows in a stride, taken under a hold plan too: each rank of each subchannel takes the REFsb
commands that have fallen due. Reads of rank 1 or 2 may put off up to four intervals; with no read in service none is put
off (R40, R368). -/
def refreshTick (s : State) : State :=
  if !s.dmc.trained ∨ selfRefresh s then s
  else
    let (k, s) := if s.stp.reads.isEmpty then (0, s) else s.draw
    let keys := (List.range 4).flatMap fun c => (List.range (s.rd rDMC_RANKS)).map fun r => 2 * c + r
    let late (key : Nat) : Nat := if s.stp.reads.isEmpty then 0 else Config.refreshLate k key
    let next (t : Tbl RankRefresh) (key : Nat) : Tbl RankRefresh :=
      let r := (Tbl.getD t key RankRefresh.none).tick s.tbs.strideLen (refreshInterval s) (late key)
      Tbl.put t key r RankRefresh.none
    s.setDmc { s.dmc with refresh := keys.foldl next s.dmc.refresh }

/-! ## The dump on command (R375) -/

/-- DUMP_GO: bit 4 of a write to DMC_FREEZE starts a verified dump; ignored unless FROZEN (R375, R383). -/
def execDumpGo (w : Dword) (s : State) : Out :=
  .next <|
    let s := s.wakePage 0x14
    if !w.getLsbD 4 ∨ !s.dmc.frozen ∨ s.dmc.dumpDone ∨ s.hld.dump ≠ .idle then s
    else (s.setDmc { s.dmc with dumpBusy := true }).setHld { s.hld with dump := .armed .dumpGo }

/-! ## SRAM and fabric words (R377, R378) -/

def poolNo (p : Pool) : Nat := p.ctorIdx

/-- Bank of a word address, 16 MiB each, and the pool that holds the word: the staging pool takes the lower 12 MiB of
bank 11 (R25). -/
def wordBank (addr : Nat) : Nat := addr / 2 ^ 20
def wordPool (addr : Nat) : Option Pool :=
  let b := wordBank addr
  if b < 8 then some .accumulators else if b < 10 then some .mapCache else if b = 10 then some .rings
  else if b = 11 then some (if addr % 2 ^ 20 < 3 * 2 ^ 18 then .staging else .hold) else none

/-- The word can fail so: at an address of its pool, or on a transfer to DRAM, of which it names the line; and its CRC-16
does fail (R377). -/
def wordFails (addr : Nat) (raw : BitVec 144) (p : Pool) (fabric : Bool) (hit : SrmHit) : Bool :=
  !wordOk addr raw && (wordPool addr == some p || p == .dram) &&
    match p, hit with
    | .dram, .line _ => fabric
    | .dram, _ => false
    | .rings, .line _ => false
    | .rings, _ => true
    | _, .word => true
    | _, _ => false

/-- SRM_WORD_CHECK_FAIL: the word at `addr`, as `raw` with its CRC-16, fails on a read, or on a fabric transfer into the
pool or into DRAM; `again` says that the second read or transfer fails too, and `source` that the pool's source gives it. A
descriptor in the rings completes with BAD_DESC (R204); a word for DRAM is a failed line. Without a source the device
freezes (R377, R378). -/
def execSrmWordCheckFail (addr : Nat) (raw : BitVec 144) (p : Pool) (fabric again source : Bool) (hit : SrmHit)
    (s : State) : Out :=
  .next <|
    if s.dmc.frozen ∨ !wordFails addr raw p fabric hit then s
    else
      let s := if fabric then (s.bump rSRM_FABRIC_RESEND 1).ev eSRM_FABRIC_RESEND else s
      if !again then s
      else
        let s := if fabric then s.bump rSRM_FABRIC_FAIL 1 else (s.bump rSRM_WORD_ERR 1).ev eSRM_WORD_ERR
        let s := s.wr rSRM_LAST_POOL (if fabric then 15 else poolNo p)
        let s := s.wr rSRM_LAST_BANK (wordBank addr % 16)
        let s := s.capture 0x15 1 none addr
        match hit with
        | .line x => lineFailed s x 0 false false 0
        | _ =>
          if !source then freeze (s.ev eSRM_FATAL) .sram addr
          else
            let s := ((s.bump rSRM_RECOMPUTED 1).ev eSRM_RECOMPUTE).raise lSRM_RECOMPUTE none []
            match hit with
            | .ring d i => finishEntry s d i .badDesc none false
            | _ => s

end Sys2Proof.Machine
end

