-- ==== Sys2Proof/Machine/Keys.lean ====
section
/-! DEFINITION. KEY: exchanges, key loads and clears, the random bit generator, the SPDM responder and IDE key
management (13 R395-R412; 14 R428). -/

namespace Sys2Proof.Machine

open Sys2Proof

/-! ## Exchanges (R400-R402) -/

/-- Measurements 1-3, which the alias key stands for (R410). -/
def aliasMeas (s : State) : List Nat := s.key.aliasFor

/-- The KWK of an exchange: the first 32 B of HKDF-SHA384 with the nonces as salt, the ECDH secret as input, and QH7620-KWK,
the function and the device serial as info (R402). -/
def exchangeKey (s : State) (hostPub hostNonce n f : Nat) : Nat :=
  Config.hkdf (leBytes 32 hostNonce ++ leBytes 32 (Config.nonce n)) (Config.ecdh hostPub n)
    ([0x51, 0x48, 0x37, 0x36, 0x32, 0x30, 0x2D, 0x4B, 0x57, 0x4B] ++ leBytes 1 f ++ leBytes 16 s.fuses.serial.toNat) % 2 ^ 256

/-- KEY_EXCHANGE_OFFER: Key Manage action 0 (R402): the function's KWK and latest offer. -/
def execKeyExchangeOffer (seq hostPub hostNonce : Nat) (s : State) : Out :=
  .next <| s.admin seq fun c =>
    let s := s.wake keyDomains
    if !s.key.health then s.finish seq stInternal
    else
      let (n, s) := (useDrbg s).draw
      let pub := Config.ephemeral n
      let nonce := Config.nonce n
      let sig := Config.aliasSign (aliasMeas s) (Config.sha384
        (leBytes 97 hostPub ++ leBytes 32 hostNonce ++ leBytes 97 pub ++ leBytes 32 nonce ++ leBytes 1 c.fn))
      let s := s.setKeySlot c.fn { s.keySlot c.fn with
        key := some (exchangeKey s hostPub hostNonce n c.fn), owner := c.fn, gen := (s.keySlot c.fn).gen + 1 }
      let o : Offer :=
        { hostPub := hostPub, hostNonce := hostNonce, devPub := pub, devNonce := nonce, sig := sig }
      (s.setKey { s.key with offers := Tbl.set s.key.offers c.fn o }).finish seq stOk

/-- EXCHANGE_RESPONSE: Key Query action 0 (R401, R402). -/
def execExchangeResponse (seq : Nat) (s : State) : Out :=
  .next <| s.admin seq fun c =>
    let s := s.wake keyDomains
    match Tbl.get s.key.offers c.fn with
    | none => s.finish seq stSequence
    | some o => s.reply seq (leBytes 97 o.devPub ++ leBytes 32 o.devNonce ++ leBytes 96 o.sig)

/-- CERTIFICATE_CHAIN: Key Query action 1, at most 4,096 B from an offset (R401). -/
def execCertificateChain (seq off len : Nat) (s : State) : Out :=
  .next <| s.admin seq fun _ =>
    (s.wake keyDomains).reply seq (((Config.certChain (aliasMeas s)).drop off).take (min len 4096))

def sourceCode : KeySource → Nat
  | .generated => 0 | .persistent => 1 | .volatile => 2

/-- KEY_STATUS: Key Query action 2 (R401). -/
def execKeyStatus (seq nsid : Nat) (s : State) : Out :=
  .next <| s.admin seq fun c =>
    let s := s.wake keyDomains
    match spaceOf s c.fn nsid with
    | none => s.finish seq stInvalidNs
    | some (ns, sp) =>
      let k := s.keySlot (keySlotNs ns)
      let flags := (if k.key.isSome then 1 else 0) + (if k.shadow.isSome then 2 else 0)
      s.reply seq (leBytes 1 sp.mode.ctorIdx ++ leBytes 1 (sourceCode sp.source) ++ leBytes 1 flags
        ++ leBytes 1 sp.owner ++ leBytes 4 k.keyId ++ leBytes 8 ((k.key.map kcv).getD 0))

/-! ## Loads and clears (R403-R405) -/

/-- A blob of Load Namespace Key: length in bits, KEY_ID, wrapped key (R401). -/
structure KeyBlob where
  bits : Nat
  keyId : Nat
  wrapped : List Byte
  deriving DecidableEq, Repr

def keyBlob (data : List Byte) : KeyBlob :=
  { bits := leNat (data.take 2), keyId := leNat ((data.drop 4).take 4), wrapped := data.drop 16 }

/-- Key length of a mode in bits. -/
def modeBits : CipherMode → Nat
  | .xts => 512
  | _ => 256

/-- A wrapped key is 8 B longer than the key. -/
def blobFits (b : KeyBlob) (bits : Nat) : Bool := b.bits == bits && b.wrapped.length == bits / 8 + 8

/-- An XTS key with equal halves (R386). -/
def equalHalves (key : Nat) : Bool := key % 2 ^ 256 == key / 2 ^ 256 % 2 ^ 256

/-- The key that a function's blob carries, if it is accepted for a namespace (R403). -/
def unwrapFor (s : State) (f ns : Nat) (sp : Space) (b : KeyBlob) : Option Nat :=
  match (s.keySlot f).key.bind fun kwk => Config.keyUnwrap kwk b.wrapped with
  | none => none
  | some k =>
    let r := keyRec s ns
    let v := kcv k
    if !blobFits b (modeBits sp.mode) || (sp.mode == .xts && equalHalves k)
        || (r.any fun r => r.erased.contains v) || (hasData s ns && r.any fun r => r.kcv != v) then none
    else some k

/-- A refused load is counted and recorded. -/
def refuseLoad (s : State) (f seq : Nat) : State :=
  (((s.bump rKEY_UNWRAP_FAIL 1).ev eKEY_UNWRAP_FAIL).raise lKEY_UNWRAP_FAIL (some f) []).finish seq stInvalidField

/-- An accepted load is counted and recorded with its slot and KEY_ID. -/
def loadDone (s : State) (f slot keyId : Nat) : State :=
  ((s.bump rKEY_LOADS 1).ev eKEY_LOAD).raise lKEY_LOAD (some f) [p4 slot, p4 keyId]

/-- LOAD_NAMESPACE_KEY: Key Manage action 1, from the owner of a namespace of source 1 or 2. A persistent key completes
with its NOR record (R399, R403). -/
def execLoadNamespaceKey (seq nsid : Nat) (data : List Byte) (s : State) : Out :=
  .next <| s.admin seq fun c =>
    let s := s.wake keyDomains
    match spaceOf s c.fn nsid with
    | none => s.finish seq stInvalidNs
    | some (ns, sp) =>
      if c.fn ≠ sp.owner ∨ sp.source = .generated ∨ sp.mode = .none then s.finish seq stInvalidField
      else
        let b := keyBlob data
        match unwrapFor s c.fn ns sp b with
        | none => refuseLoad s c.fn seq
        | some k =>
          let old := ((keyRec s ns).map KeyRec.erased).getD []
          let s := bumpSeq (changeKey s ns (some k) sp.source sp.owner b.keyId none) ns
          let s := loadDone s c.fn (keySlotNs ns) b.keyId
          let s := s.setKey { s.key with waitKeys := s.key.waitKeys.filter (· != ns) }
          let r := newKeyRec sp (some k) b.keyId old
          if sp.source = .persistent then (s.hold seq).writeKeyRec ns r [seq] 0
          else (s.setNor (s.nor.putKey ns r)).finish seq stOk

/-- LOAD_MIGRATION_KEY: Key Manage action 2, under the manager's KWK (R404). -/
def execLoadMigrationKey (seq : Nat) (data : List Byte) (s : State) : Out :=
  .next <| s.managerOnly seq fun c =>
    let s := s.wake keyDomains
    let b := keyBlob data
    match (s.keySlot 0).key.bind fun kwk => Config.keyUnwrap kwk b.wrapped with
    | none => refuseLoad s c.fn seq
    | some k =>
      if !blobFits b 256 then refuseLoad s c.fn seq
      else
        let s := s.setKeySlot 256 { s.keySlot 256 with
          key := some k, source := .volatile, owner := 0, keyId := b.keyId, gen := (s.keySlot 256).gen + 1 }
        (loadDone s c.fn 256 b.keyId).finish seq stOk

/-- CLEAR_KEY: Key Manage action 3. A namespace's clear completes when no job refers to its shadow; an EMPTY slot has
nothing to clear (R404, R405). The migration key is the manager's. -/
def execClearKey (seq nsid : Nat) (s : State) : Out :=
  .next <| s.admin seq fun c =>
    let s := s.wake keyDomains
    if nsid = 0xFFFFFFFF then
      if c.fn ≠ 0 then s.finish seq stInvalidField
      else (s.setKeySlot 256 { KeySlot.empty with gen := (s.keySlot 256).gen + 1 }).finish seq stOk
    else match spaceOf s c.fn nsid with
      | none => s.finish seq stInvalidNs
      | some (ns, sp) =>
        if (s.keySlot (keySlotNs ns)).key.isNone then s.finish seq stOk
        else changeKey (s.hold seq) ns none sp.source sp.owner 0 (some seq)

/-- Some job refers to the shadow of a slot: a read resolved or a granule accepted under an older key of the
namespace, not yet programmed (R405). -/
def shadowUsed (s : State) (k : Nat) : Bool :=
  let g := (s.keySlot k).gen
  let ns := k - 512
  decide (512 ≤ k ∧ k < 1536) &&
    ((s.stp.reads.any fun j => j.ns == ns && j.keyGen != g) ||
      (s.wbf.slots.any fun p => p.2.ns == ns && p.2.keyGen != g && !p.2.reserve && p.2.mga.isNone && p.2.state != .free))

/-- SHADOW_ZEROIZE: no job refers to the shadow of slot `k`; the commands that wait for it complete (R405). -/
def execShadowZeroize (k : Nat) (s : State) : Out :=
  .next <|
    if shadowUsed s k then s
    else
      let done := s.key.clears.filter fun x => x.slot == k
      let s := s.setKeySlot k { s.keySlot k with shadow := none }
      let s := s.setKey { s.key with clears := s.key.clears.filter fun x => x.slot != k }
      (done.filterMap KeyClear.seq).foldl (fun s q => s.finish q stOk) s

/-! ## Random bit generator (R409) -/

/-- DRBG_RESEED: after 2^20 requests. -/
def execDrbgReseed (s : State) : Out :=
  .next <|
    if s.key.requests < 2 ^ 20 then s
    else (s.setKey { s.key with requests := 0 }).bump rKEY_RESEEDS 1

/-- KEY_DRBG_FAIL: a health test fails. -/
def execKeyDrbgFail (s : State) : Out :=
  .next (((s.setKey { s.key with health := false }).ev eKEY_DRBG_FAIL).raise lKEY_DRBG_FAIL none [])

/-- KEY_KCV_LO_READ: the KCV of the slot that the path selected; latches KCV_HI (R416). -/
def execKeyKcvLoRead (p : Path) (s : State) : Out :=
  .next <|
    let k := Tbl.getD (s.path p).sel (fieldKey rKEY_SLOT_SEL 0 0) 0
    readWide s p rKEY_KCV_HI (((s.keySlot k).key.map kcv).getD 0)

/-! ## SPDM responder (R411, R412) -/

/-- Transports: MCTP over SMBus 0, PCIe DOE 1. SBI is unpowered in snuff; DOE needs a link. -/
def spdmKey (doe : Bool) : Nat := if doe then 1 else 0

/-- SBI takes MCTP messages unless it is unpowered (R446, R447). -/
def sbiPowered (s : State) : Bool :=
  s.thm.snuff != .off && s.bot.phase != 0 && (match s.hld.dump with
    | .running c | .done c => !(c == .powerFail || c == .snuff)
    | _ => true)

/-- A message arrives on a transport, and is answered when that transport works. -/
def spdmIn (s : State) (doe : Bool) (act : State → State) : State :=
  if doe then (if s.hif.ports.any fun p => p.2.up then act (s.wake (domains 25 25 ||| domains 27 27 ||| keyDomains)) else s)
  else if sbiPowered s then act ((s.wake (smbusDomain ||| keyDomains)).bump rSBI_MCTP_RX 1) else s

/-- SPDM error codes (DSP0274). -/
def spdmInvalid : Nat := 0x01
def spdmInvalidSession : Nat := 0x02
def spdmUnexpected : Nat := 0x04
def spdmUnspecified : Nat := 0x05
def spdmDecrypt : Nat := 0x06
def spdmSessionLimit : Nat := 0x0A

def spdmError (s : State) (code : Nat) : State := s.answer (.refusal code)

/-- Negotiation step of a transport: 0 none, 1 version, 2 capabilities, 3 algorithms. -/
def spdmStep (s : State) (doe : Bool) : Nat := Tbl.getD s.key.spdm (spdmKey doe) 0

def setSpdm (s : State) (doe : Bool) (n : Nat) : State :=
  s.setKey { s.key with spdm := Tbl.put s.key.spdm (spdmKey doe) n 0 }

/-- A request that needs the negotiation complete. -/
def spdmReady (s : State) (doe : Bool) (act : State → State) : State :=
  spdmIn s doe fun s => if spdmStep s doe < 3 then spdmError s spdmUnexpected else act s

/-- GET_VERSION: versions 1.2 and 1.3; the negotiation begins again. -/
def execGetVersion (doe : Bool) (s : State) : Out :=
  .next <| spdmIn s doe fun s => (setSpdm s doe 1).answer (.bytes (leBytes 2 0x1200 ++ leBytes 2 0x1300))

/-- Capability flags: CERT, CHAL, MEAS with signature, ENCRYPT, MAC, KEY_EX, HBEAT, KEY_UPD. -/
def spdmFlags : Nat := 2 + 4 + 0x10 + 0x40 + 0x80 + 0x200 + 0x2000 + 0x4000

def execGetCapabilities (doe : Bool) (s : State) : Out :=
  .next <| spdmIn s doe fun s =>
    if spdmStep s doe ≠ 1 then spdmError s spdmUnexpected else (setSpdm s doe 2).answer (.value spdmFlags)

/-- NEGOTIATE_ALGORITHMS: what the requester offers must include ECDSA P-384, SHA-384, secp384r1 and AES-256-GCM. -/
def execNegotiateAlgorithms (doe ecdsa384 sha384 secp384 aesGcm : Bool) (s : State) : Out :=
  .next <| spdmIn s doe fun s =>
    if spdmStep s doe ≠ 2 then spdmError s spdmUnexpected
    else if ecdsa384 && sha384 && secp384 && aesGcm then (setSpdm s doe 3).answer .none
    else spdmError s spdmInvalid

/-- GET_DIGESTS: slot 0 only. -/
def execGetDigests (doe : Bool) (s : State) : Out :=
  .next <| spdmReady s doe fun s => s.answer (.value (Config.certDigest (aliasMeas s)))

/-- GET_CERTIFICATE: slot 0; error Unspecified when certificates 2 and 3 failed (R411). -/
def execGetCertificate (doe : Bool) (slot off len : Nat) (s : State) : Out :=
  .next <| spdmReady s doe fun s =>
    if slot ≠ 0 then spdmError s spdmInvalid
    else if !s.key.certOk then spdmError s spdmUnspecified
    else s.answer (.bytes (((Config.certChain (aliasMeas s)).drop off).take len))

/-- CHALLENGE: signed by the alias key. -/
def execChallenge (doe : Bool) (slot nonce : Nat) (s : State) : Out :=
  .next <| spdmReady s doe fun s =>
    if slot ≠ 0 then spdmError s spdmInvalid
    else s.answer (.value (Config.aliasSign (aliasMeas s) nonce))

/-- Measurements that an index names: 0 the number of them, 255 all (R411, R412). -/
def measOf (s : State) (index : Nat) : Option (List Nat) :=
  let m (i : Nat) := Tbl.getD s.key.meas i 0
  if index = 0 then some [5]
  else if index = 255 then some ((List.range 5).map fun i => m (i + 1))
  else if index ≤ 5 then some [m index] else none

/-- GET_MEASUREMENTS: digests with the alias key's signature. -/
def execGetMeasurements (doe : Bool) (index nonce : Nat) (s : State) : Out :=
  .next <| spdmReady s doe fun s =>
    match measOf s index with
    | none => spdmError s spdmInvalid
    | some ms => s.answer (.bytes (ms.flatMap (leBytes (if index = 0 then 1 else 48)) ++
        leBytes 96 (Config.aliasSign (aliasMeas s) nonce)))

/-- KEY_EXCHANGE: at most four sessions, shared by both transports; random bits are refused after a failed health test
(R409, R412). -/
def execKeyExchange (doe : Bool) (s : State) : Out :=
  .next <| spdmReady s doe fun s =>
    if !s.key.health then spdmError s spdmUnspecified
    else if s.key.sessions.length ≥ 4 then spdmError s spdmSessionLimit
    else
      let (_, s) := (useDrbg s).draw
      let id := s.key.nextSession
      let x : Session := { id := id, finished := false, doe := doe, keyGen := 0 }
      (s.setKey { s.key with nextSession := id + 1, sessions := s.key.sessions ++ [x] }).answer (.value id)

/-- A message of a session of its transport. -/
def inSession (s : State) (doe : Bool) (id : Nat) (done : Bool) (act : Session → State → State) : State :=
  spdmReady s doe fun s =>
    match s.key.sessions.find? fun x => x.id == id && x.doe == doe with
    | none => spdmError s spdmInvalidSession
    | some x => if x.finished = done then act x s else spdmError s spdmUnexpected

def dropSession (s : State) (id : Nat) : State :=
  s.setKey { s.key with sessions := s.key.sessions.filter fun x => x.id != id }

def updSession (s : State) (id : Nat) (g : Session → Session) : State :=
  s.setKey { s.key with sessions := s.key.sessions.map fun x => if x.id = id then g x else x }

/-- FINISH: a handshake whose verify data is wrong ends the session. -/
def execFinish (doe : Bool) (id : Nat) (good : Bool) (s : State) : Out :=
  .next <| inSession s doe id false fun _ s =>
    if good then (updSession s id fun x => { x with finished := true }).answer .none
    else spdmError (dropSession s id) spdmDecrypt

def execHeartbeat (doe : Bool) (id : Nat) (s : State) : Out :=
  .next <| inSession s doe id true fun _ s => s.answer .none

def execKeyUpdate (doe : Bool) (id : Nat) (s : State) : Out :=
  .next <| inSession s doe id true fun _ s => (updSession s id fun x => { x with keyGen := x.keyGen + 1 }).answer .none

def execEndSession (doe : Bool) (id : Nat) (s : State) : Out :=
  .next <| inSession s doe id true fun _ s => (dropSession s id).answer .none

/-! ## IDE key management (R428, R429) -/

/-- A stream is programmed: keys are set and it is not yet Secure, it goes Secure, or it stops. -/
def ideApply (s : State) (k : Nat) (x : IdeStream) : State :=
  s.setHif { s.hif with ide := Tbl.set s.hif.ide k x }

/-- IDE_KM, in a finished session over DOE, on selective stream `k` of 0-7: KEY_PROG with a key and the RID range that
the host programs, then K_SET_GO, or K_SET_STOP. Another session, transport or stream is refused. -/
def execIdeKm (id k : Nat) (op : IdeOp) (s : State) : Out :=
  .next <| inSession s true id true fun _ s =>
    if k ≥ 8 then spdmError s spdmInvalid
    else
      let x := Tbl.getD s.hif.ide k { state := .off, ridLo := 1, ridHi := 0, key := none }
      match op with
      | .keyProg key lo hi => (ideApply s k { x with key := some key, ridLo := lo, ridHi := hi }).answer .none
      | .go => if x.key.isNone then spdmError s spdmUnexpected else (ideApply s k { x with state := .secure }).answer .none
      | .stop => (ideApply s k { x with state := .off, key := none }).answer .none

end Sys2Proof.Machine
end

