-- ==== Sys2Proof/Machine/Records.lean ====
section
/-! DEFINITION. What the consumers of completion records do with them at a stride boundary (R211, R212): reads,
programs, erases and diagnostics. -/

namespace Sys2Proof.Machine

open Sys2Proof

/-- A read of member `pos` of job `id` ended with a status other than OK (R218, R222, R241, R262, R270). -/
def readEnded (s : State) (t : CStat) (id pos : Nat) : State :=
  match t with
  | .busyLimit | .reinRefused | .dumpStop | .resetAbort | .chainBroken => readAgain s id pos
  | .dieAbsent => settleJob (readLost s id pos) id
  | _ =>
    match s.job? id with
    | none => s
    | some j => match j.members.find? fun m => m.pos == pos with
      | some m => stepFail s j m (t == .badDesc || t == .underErase) 0
      | none => s

/-- The record of a read: one member, or the members of a run (R155, R210). A discarded one is of a stale job. -/
def readRecord (s : State) (r : CRec) (id pos : Nat) : State :=
  if r.status = .ok ∨ r.discarded then s
  else if pos = 255 then
    (List.range r.desc.count).foldl (fun s k => match s.job? (id + k) with
      | some j => match j.members with
        | m :: _ => readEnded s r.status (id + k) m.pos
        | [] => s
      | none => s) s
  else readEnded s r.status id pos

/-- The record of a program of an open row's member (R190, R197, R241, R345, R560). -/
def programRecord (s : State) (r : CRec) (stream serial member : Nat) : State :=
  match s.findPu stream serial member with
  | none => s
  | some u =>
    match r.status with
    | .ok => puDone s u
    | .programFail | .timeout => puFailed s u r.status.ctorIdx true
    | _ => puFailed s u r.status.ctorIdx false

/-- The record of the re-erase of a native block: its span, if it waits for erase, has that member erased; a block that
fails is retired (R231, R332, R345). -/
def nativeRecord (s : State) (t : CStat) (die block count : Nat) : State :=
  match s.par.layout, spanOf s die block with
  | some l, some (n, c) =>
    let waits := (s.span n).phase = .released ∨ (s.span n).phase = .erasing
    match t with
    | .ok =>
      if waits then
        tryErased (s.updSpan n fun x => { x with
          phase := .erasing, startedMembers := c :: x.startedMembers.filter (· != c),
          erasedMembers := c :: x.erasedMembers.filter (· != c) }) n
      else s
    | .eraseFail | .timeout =>
      if waits then eraseFailed s l n c die block t.ctorIdx else retireBlock s die block t.ctorIdx
    | _ => s.setFch { s.fch with intentErase := s.fch.intentErase ++ [(die, block, count, 5)] }
  | _, _ => match t with
    | .eraseFail | .timeout => retireBlock s die block t.ctorIdx
    | _ => s

/-- The record of an erase outside span erases, whose done record carries `count`: a reserve block is erased; one whose
erase fails is replaced; a re-erased native block returns to its span (R142, R231, R473). -/
def blockRecord (s : State) (t : CStat) (die block count : Nat) : State :=
  let k := blockKey die block
  let s := if t = .ok ∨ t = .eraseFail then s.setRcl { s.rcl with counts := Tbl.set s.rcl.counts k count } else s
  if block < nativeBlocks s then nativeRecord s t die block count
  else if !s.hld.reserve.contains k then s
  else match t with
    | .ok => if s.hld.erased.contains k then s else s.setHld { s.hld with erased := s.hld.erased ++ [k] }
    | .eraseFail | .timeout =>
      let s := s.setHld { s.hld with reserve := s.hld.reserve.filter (· != k) }
      let s := s.setRcl { s.rcl with retired := k :: s.rcl.retired }
      match takePslc s die with
      | some (b, s) => queuePslcErase (s.setHld { s.hld with reserve := s.hld.reserve ++ [blockKey die b] }) die b 2
      | none => s
    | _ => queuePslcErase s die block 2

/-- Status of a Raw Media Read whose descriptor did not end OK (R229, R328). -/
def diagStatus (t : CStat) : Status :=
  match t with
  | .underErase => stUnderErase
  | .dieAbsent => stInvalidField
  | _ => stInternal

/-- One completion record goes to the owner of its descriptor. -/
def takeRecord (s : State) (r : CRec) : State :=
  match r.owner with
  | .read id pos => readRecord s r id pos
  | .pu stream serial member => programRecord s r stream serial member
  | .spanErase n die => memberErased s n die r.status
  | .blockErase die block => blockRecord s r.status die block ((r.desc.param >>> 32).toNat % 2 ^ 32)
  | .diag seq _ => if r.status = .ok then s else s.finish seq (diagStatus r.status)
  | .copy _ _ | .none => s

/-- Every record of a channel is consumed; completions that waited for a free record then take one (R212). -/
def drainChan (s : State) (nn : Nat) : State :=
  let c := s.chan nn
  let s := c.cring.foldl takeRecord (s.setChan nn { c with cring := [], cringHead := c.cringTail })
  s.updChan nn fun c =>
    { c with cring := c.waiting.take 1024, waiting := c.waiting.drop 1024,
             cringTail := (c.cringTail + min c.waiting.length 1024) % 1024 }

/-- The records of every channel, in channel order. -/
def drainRecords (s : State) : State := (s.fch.chans.map Prod.fst).foldl drainChan s

end Sys2Proof.Machine
end

