-- ==== Sys2Proof/Machine/Power.lean ====
section
/-! DEFINITION. Housekeeping channels, the thermal model, throttling, power states, snuff, the hold-up bank and the
power-loss dump (15 R451-R476; 07 R243; 06 R194). -/

namespace Sys2Proof.Machine

open Sys2Proof


/-! ## Housekeeping channels (R451, R453) -/

def HkChan.none : HkChan := { raw := 0, val := 0, badRun := 0, broken := false }

def State.hk (s : State) (c : Nat) : HkChan := Tbl.getD s.thm.chans c HkChan.none

/-- On-die monitors are always sampled; ball channels where the image marks them fitted. -/
def chanFitted (s : State) (c : Nat) : Bool := decide (c < 16) || (Tbl.get s.bot.cfg.channels c).isSome

/-- A code in the channel's unit. -/
def scaleCode (s : State) (c code : Nat) : Int :=
  if c < 16 then Config.monitor c code
  else match Tbl.get s.bot.cfg.channels c with
    | some d => (d.scale * (code : Rat) + d.offset).floor
    | none => 0

/-- A value inside the channel's valid range. -/
def inRange (s : State) (c : Nat) (v : Int) : Bool :=
  if c < 16 then decide (Config.monitorLo c ≤ v ∧ v ≤ Config.monitorHi c)
  else match Tbl.get s.bot.cfg.channels c with
    | some d => decide (d.lo ≤ v ∧ v ≤ d.hi)
    | none => true

/-- A string's state changes; one that leaves OK is an event (R467). -/
def setStr (s : State) (k : Nat) (x : Str) : State :=
  let old := Tbl.getD s.hld.strings k Str.untested
  let s := s.setHld { s.hld with strings := Tbl.set s.hld.strings k x }
  if old.state = .ok ∧ x.state ≠ .ok then (s.ev eHLD_STRING_FAULT).raise lHLD_STRING_FAULT none [] else s

def strOf (s : State) (k : Nat) : Str := Tbl.getD s.hld.strings k Str.untested

/-- A channel is found broken: until device reset; a string's channel makes its string OPEN (R453, R467). -/
def breakChan (s : State) (c : Nat) : State :=
  if (s.hk c).broken then s
  else
    let s := s.setThm { s.thm with chans := Tbl.set s.thm.chans c { s.hk c with broken := true } }
    let s := (s.ev eTHM_SENSE_FAULT).raise lTHM_SENSE_FAULT none [p4 c]
    if 49 ≤ c ∧ c ≤ 56 ∧ (Tbl.get s.hld.strings (c - 49)).isSome then
      setStr s (c - 49) { strOf s (c - 49) with state := .open, iso := true }
    else s

/-- One channel is sampled. -/
def sampleChan (s : State) (c code : Nat) : State :=
  let v := scaleCode s c code
  let n := if inRange s c v then 0 else (s.hk c).badRun + 1
  let s := s.setThm { s.thm with
    chans := Tbl.set s.thm.chans c { s.hk c with raw := code, val := v, badRun := n } }
  if n ≥ 2 then breakChan s c else s

def sampleAll (s : State) (codes : Tbl (BitVec 12)) : State :=
  (List.range 64).foldl (fun s c =>
    if chanFitted s c then sampleChan s c (Tbl.getD codes c 0).toNat else s) s

/-! ## Power into the model (R453, R454, R463) -/

/-- Power of a controller zone in mW: current times rail voltage, the rated maximum where either is broken. -/
def zonePower (s : State) (z : Nat) (n : NetNode) : Rat :=
  if s.thm.snuff = .off then 0
  else if (s.hk z).broken ∨ (s.hk n.rail).broken then n.rated
  else ((s.hk z).val * (s.hk n.rail).val : Int) / 1000

/-- Power of a channel's flash rail group in mW. -/
def groupPower (s : State) (nn : Nat) : Rat :=
  match Tbl.get s.bot.cfg.channels (16 + nn) with
  | some d => if (s.hk (16 + nn)).broken then d.rated else ((s.hk (16 + nn)).val * (d.mv : Int) : Int) / 1000
  | none => 0

def dieTimeOf (s : State) (ds : List Nat) : Nat := (ds.map fun d => Tbl.getD s.thm.dieTime d 0).sum

/-- The package nodes of a channel. -/
def channelPackages (s : State) (nn : Nat) : List NetNode :=
  (s.bot.cfg.nodes.filter fun (p : Nat × NetNode) => decide (p.1 ≥ 12) && p.2.dies.head?.map chanOf == some nn).map Prod.snd

/-- Power of a package: its channel's, in proportion to the die-time placed on its dies; in equal parts when none was
placed. -/
def packagePower (s : State) (n : NetNode) : Rat :=
  match n.dies.head? with
  | none => 0
  | some d =>
    let nn := chanOf d
    let all := channelPackages s nn
    let total := (all.map fun p => dieTimeOf s p.dies).sum
    if s.thm.snuff = .off then 0
    else if total = 0 then groupPower s nn / (max all.length 1 : Nat)
    else groupPower s nn * (dieTimeOf s n.dies : Rat) / (total : Rat)

def nodePower (s : State) (k : Nat) (n : NetNode) : Rat := if k < 12 then zonePower s k n else packagePower s n

/-- The model's ambient in 0.1 °C: the inlet thermistor, or AMB_MAX (R453, R454). -/
def ambient (s : State) : Rat :=
  if (s.hk 61).broken ∨ !chanFitted s 61 then 10 * (s.bot.cfg.ambMax : Rat) else (s.hk 61).val

/-! ## The thermal model (R454, R455) -/

/-- A node at the first round: at ambient, with no bias. -/
def Node.start (t : Rat) : Node := { t := t, bias := 0, history := [], gap := false, diode := .none }

def State.node (s : State) (k : Nat) : Node := Tbl.getD s.thm.nodes k (Node.start (ambient s))

/-- The diode of a controller zone. -/
def diodeOf (z : Nat) : Option Nat :=
  match z with
  | 0 => some 0 | 1 => some 1 | 3 => some 2 | 6 => some 3
  | _ => none

/-- Heat that flows into a node in mW (the loop of `step`). -/
def nodeFlow (s : State) (k : Nat) (n : NetNode) : Rat :=
  let t := (s.node k).t
  n.links.foldl (fun q l => q - (t - (s.node l.1).t) / l.2) (nodePower s k n - (t - ambient s) / n.rAmb)

/-- Every node advances over `dt` seconds (R454). -/
def modelStep (s : State) (dt : Rat) : State :=
  let nodes := s.bot.cfg.nodes.map fun (p : Nat × NetNode) =>
    (p.1, { s.node p.1 with t := (s.node p.1).t + dt * nodeFlow s p.1 p.2 / p.2.cap })
  s.setThm { s.thm with nodes := nodes }

/-- The reported temperature of a node: t + b, or the diode where that is higher during a gap. -/
def Node.reported (n : Node) : Rat :=
  match n.diode with
  | some d => if n.gap then max (n.t + n.bias) d else n.t + n.bias
  | .none => n.t + n.bias

/-- A diode corrects its node's bias by one eighth; a difference beyond 8 °C is a gap (R455). -/
def diodeStep (s : State) (diodes : List Int) (k : Nat) : State :=
  match (diodeOf k).bind fun j => diodes[j]? with
  | .none => s
  | some d =>
    let n := s.node k
    let b := n.bias + ((d : Rat) - (n.t + n.bias)) / 8
    let x := (d : Rat) - (n.t + b)
    let gap := decide (x > 80 ∨ x < -80)
    let s := s.setThm { s.thm with nodes := Tbl.set s.thm.nodes k { n with bias := b, gap := gap, diode := some d } }
    if gap ∧ !n.gap then (s.ev eTHM_DIODE_GAP).raise lTHM_DIODE_GAP none [] else s

def diodeSteps (s : State) (diodes : List Int) : State :=
  [0, 1, 3, 6].foldl (fun s k => if (Tbl.get s.thm.nodes k).isSome then diodeStep s diodes k else s) s

/-- A node's reported temperature 1 s earlier (R458). -/
def Node.before (n : Node) (clk : Nat) : Option Rat :=
  (n.history.find? fun h => decide (h.1 + 1000000000 ≤ clk)).map Prod.snd

/-- Rise in 0.1 °C/s; none before a second of rounds. -/
def Node.rise (n : Node) (clk : Nat) : Rat :=
  match n.before clk with
  | some t => n.reported - t
  | .none => 0

/-- The reported temperature joins the history, which keeps one entry a second old. -/
def Node.remember (n : Node) (clk : Nat) : Node :=
  let young := n.history.takeWhile fun h => decide (clk < h.1 + 1000000000)
  let old := (n.history.drop young.length).take 1
  { n with history := (clk, n.reported) :: young ++ old }

/-- Throttle point of a node in 0.1 °C: fused for the controller, PKG_TP for packages (R458). -/
def throttlePoint (s : State) (k : Nat) : Rat :=
  if k < 12 then 10 * (s.fuses.throttleC : Rat) else 10 * (s.bot.cfg.pkgTp : Rat)

/-- The element of a node table with the greatest key, the first on a tie. -/
def hottestBy (t : Tbl Node) (key : Nat → Node → Rat) : Option (Nat × Node) :=
  t.foldl (fun (a : Option (Nat × Node)) p => match a with
    | .none => some p
    | some b => if key b.1 b.2 < key p.1 p.2 then some p else some b) .none

def controllers (s : State) : Tbl Node := s.thm.nodes.filter fun p => decide (p.1 < 12)
def packages (s : State) : Tbl Node := s.thm.nodes.filter fun p => decide (p.1 ≥ 12)

/-- Hottest reported temperature of some nodes, 0.1 °C. -/
def hottest (t : Tbl Node) : Option Rat := (hottestBy t fun _ n => n.reported).map fun p => p.2.reported

/-- Composite Temperature: the hottest reported controller temperature (R456). -/
def composite (s : State) : Option Rat := hottest (controllers s)

/-- Kelvin of a temperature in 0.1 °C, rounded down. -/
def kelvin (t : Rat) : Int := (t / 10).floor + 273

/-! ## Throttling (R458-R461) -/

/-- Highest temperature relative to the throttle point, with its node. -/
def relative (s : State) : Option (Nat × Rat) :=
  (hottestBy s.thm.nodes fun k n => n.reported - throttlePoint s k).map fun p =>
    (p.1, p.2.reported - throttlePoint s p.1)

def absLevel (rel : Rat) : Nat := if rel ≥ 60 then 4 else if rel ≥ 30 then 3 else if rel ≥ 0 then 2 else 0

/-- The floor of the power state in force (R461). -/
def floorLevel (ps : Nat) : Nat := match ps with
  | 0 => 0 | 1 => 1 | 2 => 2 | _ => 4

/-- Budget of a power state in 10 mW (R461). -/
def budget (ps : Nat) : Nat := match ps with
  | 0 => 2500 | 1 => 1600 | 2 => 1000 | 3 => 350 | _ => 120

/-- The highest candidate (R459). -/
def candidate (s : State) : Nat := max (max s.thm.lAbs s.thm.lRise) (max s.thm.lPower (floorLevel s.thm.ps))

/-- The level in force changes: the next plan takes it (R269, R459). -/
def setLevel (s : State) (n : Nat) : State :=
  let s := s.setThm { s.thm with level := n, belowSince := .none }
  let s := s.setStp { s.stp with throttleNext := n }
  ((s.ev eTHM_THROTTLE).ev eSTP_THROTTLE).raise lSTP_THROTTLE none []

/-- The level rises to the highest candidate at once; below it, the time is noted. -/
def levelStep (s : State) : State :=
  let m := candidate s
  if m > s.thm.level then setLevel s m
  else if m = s.thm.level then s.setThm { s.thm with belowSince := .none }
  else if s.thm.belowSince.isSome then s
  else s.setThm { s.thm with belowSince := some s.tbs.clk }

/-- Rises, candidates and the level at the end of a round (R458, R459). -/
def throttleStep (s : State) : State :=
  let clk := s.tbs.clk
  let top := hottestBy s.thm.nodes fun _ n => n.rise clk
  let rise := (top.map fun p => p.2.rise clk).getD 0
  let near := top.any fun p => decide (p.2.reported ≥ throttlePoint s p.1 - 50)
  let lRise := if rise ≥ ((s.rd rTHM_RISE_THR : Nat) : Rat) then (if near then 2 else 1) else 0
  let rel := relative s
  let warn := decide (rise ≥ ((s.rd rTHM_RISE_WARN : Nat) : Rat))
  let began := warn && !s.thm.warn
  let s := s.setThm { s.thm with
    lAbs := absLevel ((rel.map Prod.snd).getD (-1)), lRise := lRise, hotNode := (rel.map Prod.fst).getD 0,
    riseMax := rise, warn := warn, nodes := s.thm.nodes.map fun p => (p.1, p.2.remember clk) }
  let s := if began then (s.ev eTHM_WARN).raise lTHM_WARN none [] else s
  levelStep s

/-- Critical Warning bit 1 of a function: Composite Temperature is at or above its over-temperature threshold or below
its under-temperature threshold (R69, R456). -/
def tempBeyond (s : State) (x : Fn) : Bool :=
  match composite s with
  | .none => false
  | some t =>
    decide (kelvin t ≥ ((Tbl.getD x.feats 0x104 378).toNat : Int) ∨ kelvin t < ((Tbl.getD x.feats 0x204 0).toNat : Int))

/-- Composite Temperature against a function's thresholds; its event is written as it passes one (R456). -/
def thresholdFn (s : State) (f : Nat) : State :=
  let x := s.fn f
  let bad := tempBeyond s x
  let s := s.setFn f { x with tempWarn := bad }
  if bad && !x.tempWarn && x.enabled && (Tbl.getD x.feats 0x0B 0).getLsbD 1 then s.asyncEvent f 1 1 2 else s

def thresholdStep (s : State) : State := (s.fns.map Prod.fst).foldl thresholdFn s

/-- R460: the power of the second that ends against the budget; the average that P_CTRL reports. -/
def powerLoop (s : State) : State :=
  let avg := s.thm.powerSum / max s.thm.powerCount 1
  let b := 10 * budget s.thm.ps
  let l := if avg > b then min 4 (s.thm.lPower + 1) else if 100 * avg ≤ 85 * b then s.thm.lPower - 1 else s.thm.lPower
  s.setThm { s.thm with powerAvg := avg, powerSum := 0, powerCount := 0, lPower := l }

/-- THROTTLE_LEVEL_LOWER: every candidate has stayed below the level in force for 1 s (R459). -/
def execThrottleLevelLower (s : State) : Out :=
  .next <|
    match s.thm.belowSince with
    | .none => s
    | some t => if s.tbs.clk < t + 1000000000 ∨ candidate s ≥ s.thm.level then s else setLevel s (s.thm.level - 1)

/-! ## Dump triggers (R470, R498) -/

/-- A dump is armed: only after start-up has reached ready, and unless one runs or has completed (R470, R474, R498). -/
def armDump (s : State) (c : DumpCause) : State :=
  if s.hld.dump ≠ .idle ∨ !s.bot.ready then s
  else s.setHld { s.hld with dump := .armed c, dumpStart := s.tbs.clk }

/-! ## Snuff (R463, R464) -/

/-- Operating time in seconds (R57). -/
def operatingSeconds (s : State) : Nat := s.tbs.hours * 3600 + s.tbs.hourSec

/-- The hottest controller node reaches the fused snuff point (R463): the dump on board power, and the direct record.
Further snuffs within 3,600 s of operating time double the wait. -/
def snuffStep (s : State) : State :=
  let now := operatingSeconds s
  let recent := s.thm.lastSnuff.any fun t => decide (now < t + 3600)
  let s := if recent then s else s.setThm { s.thm with wait := 30 }
  if s.thm.snuff ≠ .none then s
  else match composite s with
    | .none => s
    | some t =>
      if t < 10 * (s.fuses.snuffC : Rat) then s
      else
        let s := s.setThm { s.thm with snuff := .dumping, snuffAt := s.tbs.clk, lastSnuff := some now,
                                       wait := if recent then min 480 (2 * s.thm.wait) else 30 }
        armDump ((s.bump rTHM_SNUFFS 1).raise lTHM_SNUFF none []) .snuff

/-- A dump is armed or runs. -/
def dumpBusy (s : State) : Bool :=
  match s.hld.dump with
  | .armed _ | .running _ => true
  | _ => false

/-- A direct record still waits for NOR. -/
def directWaits (s : State) : Bool :=
  !s.evl.norStopped && (s.evl.queue.any LRec.direct || s.evl.programming.any fun p => p.2.direct)

/-- SNUFF_POWER_OFF: the dump has ended and the direct record is in NOR; SNUFF_N is asserted, every FPWR_EN falls, and
only THM, TBS and HLD keep clock and power (R463, R485, R554). -/
def execSnuffPowerOff (s : State) : Out :=
  .next <|
    if s.thm.snuff ≠ .dumping ∨ dumpBusy s ∨ directWaits s then s
    else
      let s := s.setThm { s.thm with snuff := .off, ps := 0, psArm := .none }
      let s := (s.setPins { s.pins with snuffN := false, fpwrEn := 0 }).setQmx { s.qmx with cmds := [] }
      (s.setCpx { s.cpx with running := 0 }).setBot { s.bot with ready := false }

/-! ## The hold-up bank (R465-R469) -/

/-- Strings that are connected. -/
def connected (s : State) : List Nat := (s.hld.strings.filter fun p => !p.2.iso).map Prod.fst

/-- Capacitance that counts in the energy, uF (R467, R468). -/
def countedC (l : Tbl Str) : Nat :=
  (l.map fun p => if (p.2.state = .ok ∨ p.2.state = .weak) ∧ !p.2.iso ∧ !p.2.discount then p.2.cUf else 0).sum

/-- Times of a 2 GiB dump by slot mode: steps 3 and 4, and the whole, in ms (R472). -/
def dumpTimes (slots : Nat) : Nat × Nat := if slots ≥ 6 then (32, 40) else if slots = 5 then (38, 48) else (48, 60)

/-- t_d in ms: the slowest slot mode in service, and 32 / N of the time with N channels (R468, R472). -/
def dumpMs (s : State) : Option Rat :=
  let cs := (s.fch.chans.map fun p => slotsPerStride p.2).filter (· > 0)
  match cs with
  | [] => .none
  | c :: r =>
    let (steps, whole) := dumpTimes (r.foldl min c)
    some ((whole - steps : Nat) + (steps : Rat) * 32 / (cs.length : Rat))

/-- Lowest bank voltage of the last second, mV. -/
def lowestBank (s : State) : Nat := s.hld.vLow.foldl (fun m p => min m p.2) s.hld.vBank

/-- Usable energy in mJ with the given strings (R468). -/
def energyOf (s : State) (l : Tbl Str) : Int :=
  match dumpMs s with
  | .none => 0
  | some t =>
    if (s.hk 48).broken then 0
    else
      let v := lowestBank s
      let m := s.bot.cfg.vMin
      let e : Rat := (s.bot.cfg.eta * countedC l : Nat) * ((v * v : Nat) - (m * m : Nat) : Int) / 200000000000
      (e - 14 * max 0 (t - 60)).floor

/-- The buffer ceiling in MiB of an energy in mJ (R176). -/
def ceilingOf (e : Int) : Nat := min 2048 (256 * e.toNat / 1000)

/-- Erased dump reserve in percent of a full dump (READY_PCT). -/
def readyPct (s : State) : Nat := if s.hld.reserve.isEmpty then 0 else 100 * s.hld.erased.length / s.hld.reserve.length

/-- A bank node that falls by more than 10% within a round: the string whose isolation restores it is SHORTED (R466). -/
def bankDrop (s : State) (v : Nat) (restores : Option Nat) : State :=
  match restores with
  | some k =>
    if 10 * v < 9 * s.hld.vBank ∧ s.hld.dump = .idle ∧ !(s.hk 48).broken ∧ (connected s).contains k then
      setStr s k { strOf s k with state := .shorted, iso := true }
    else s
  | .none => s

/-- Usable hold-up is lost or returns (R87, R193, R468). -/
def holdupStep (s : State) (none_ : Bool) : State :=
  if none_ = s.hld.noHoldup then s
  else
    let s := s.setHld { s.hld with noHoldup := none_ }
    if none_ then
      let s := (s.ev eHLD_NO_HOLDUP).raise lHLD_NO_HOLDUP none []
      s.setQmx { s.qmx with wthruArm := true, wthruOff := false }
    else s.setQmx { s.qmx with wthruOff := true, wthruArm := false }

/-- The ceiling that an energy gives is passed on where it changes (R176). -/
def reportCeiling (s : State) (e : Int) : State :=
  let c := ceilingOf e
  if c = s.wbf.ceilNext.getD s.wbf.ceil then s
  else (s.setWbf { s.wbf with ceilNext := some c }).ev eHLD_ENERGY_CHANGE

/-- HLD's part of a round (R466-R468). -/
def hldRound (s : State) (restores : Option Nat) : State :=
  let v := (s.hk 48).val.toNat
  let s := bankDrop s v restores
  let clk := s.tbs.clk
  let s := s.setHld { s.hld with
    vBank := v, charged := decide (v ≥ s.bot.cfg.vMin ∧ s.bot.cfg.valid),
    vLow := (clk, v) :: s.hld.vLow.filter fun p => decide (clk < p.1 + 1000000000) }
  let due := s.hld.toTest.isEmpty && decide (clk ≥ s.hld.lastTest + s.rd rHLD_TEST_S * 1000000000)
  let s := if due then s.setHld { s.hld with toTest := connected s } else s
  let e := energyOf s s.hld.strings
  let s := s.setHld { s.hld with energy := e }
  let s := reportCeiling s e
  holdupStep s (decide (e ≤ 0) || !s.hld.charged || decide (readyPct s < 100))

/-- Natural logarithm of 1 / 0.95, to 17 places (R467 step 3). -/
def lnFall : Rat := 5129329438755058 / 100000000000000000

/-- Capacitance in uF from the two discharge times in ns (R467). -/
def measuredC (s : State) (tAll tK : Nat) : Nat :=
  if s.bot.cfg.loadOhm = 0 then 0
  else (((tAll : Rat) - (tK : Rat)) / (1000 * (s.bot.cfg.loadOhm : Rat) * lnFall)).floor.toNat

/-- The state that a test gives (R467). -/
def testedState (s : State) (k c esr : Nat) : StrState :=
  let nom := Tbl.getD s.bot.cfg.cNom k 0
  if 10 * c < nom then .open
  else if 100 * c ≥ s.rd rHLD_C_MIN_PCT * nom ∧ esr ≤ s.bot.cfg.esrLimit then .ok
  else .weak

/-- STRING_TEST: the test of string `k`, with the discharge times of the whole bank and of the bank without it in ns and
its ESR in mΩ. While the holdings would not fit the ceiling without it, it is deferred round by round; from 100 on the
ceiling falls as though it were isolated (R467, R469). A dump releases the load (R474). -/
def execStringTest (k tAll tK esr : Nat) (s : State) : Out :=
  .next <|
    let x := strOf s k
    if !s.hld.toTest.contains k ∨ x.iso ∨ s.hld.dump ≠ .idle ∨ !s.hld.charged then s
    else
      let without := Tbl.set s.hld.strings k { x with iso := true }
      if ackSlots s > ceilingOf (energyOf s without) * 252 then
        if x.deferredAt = s.thm.rounds ∧ x.defers > 0 then s
        else
          let x := { x with defers := x.defers + 1, deferredAt := s.thm.rounds, discount := decide (x.defers + 1 ≥ 100) }
          let s := ((setStr s k x).bump rHLD_DEFERS 1).ev eHLD_TEST_DEFER
          if x.discount then reportCeiling s (energyOf s s.hld.strings) else s
      else
        let c := measuredC s tAll tK
        let t := testedState s k c esr
        let s := setStr s k { x with state := t, cUf := c, esr := esr, iso := t == .open, defers := 0, discount := false }
        let rest := s.hld.toTest.filter (· != k)
        s.setHld { s.hld with toTest := rest, lastTest := if rest.isEmpty then s.tbs.clk else s.hld.lastTest }

/-- HLD_TEST_NOW: bit 31 of a write to 0x048 tests every connected string (R476). -/
def execHldTestNow (p : Path) (w : Dword) (s : State) : Out :=
  .next <|
    let s := storeWord s p 5 0x48 w
    if w.getLsbD 31 ∧ s.hld.toTest.isEmpty then s.setHld { s.hld with toTest := connected s } else s

/-! ## The housekeeping round (R452) -/

/-- Fast rounds hold from the end of this round on (R452). -/
def fastNow (s : State) : Bool :=
  !s.bot.ready || !s.hld.toTest.isEmpty || decide (s.rd rTHM_FAST_FORCE = 1) || s.thm.snuff != .none ||
    (s.thm.relightAt.any fun t => decide (s.tbs.clk < t + 60000000000)) ||
    ((relative s).any fun r => decide (r.2 ≥ -50))

/-- Strides of a round. -/
def roundStrides (s : State) : Nat := if s.thm.fast then 125 else 1250

/-- The temperature of each die is its package node's (R455). -/
def dieTemps (s : State) : State :=
  s.bot.cfg.nodes.foldl (fun s (p : Nat × NetNode) =>
    if p.1 < 12 then s
    else p.2.dies.foldl (fun s d =>
      if (s.die d).present then s.updDie d fun y => { y with temp := (s.node p.1).reported.floor } else s) s) s

/-- Controller power enters the second's sum (R460). -/
def sumPower (s : State) : State :=
  let p : Rat := (s.bot.cfg.nodes.map fun (p : Nat × NetNode) => if p.1 < 12 then zonePower s p.1 p.2 else 0).sum
  s.setThm { s.thm with power := p.floor.toNat, powerSum := s.thm.powerSum + p.floor.toNat,
                        powerCount := s.thm.powerCount + 1 }

/-- HOUSEKEEPING_ROUND: a round is due. `codes` are the converter's codes by channel, `diodes` the diode readings in
0.1 °C, and `restores` the string whose isolation restores a fallen bank node (R452-R459, R463, R466-R468). -/
def execHousekeepingRound (codes : Tbl (BitVec 12)) (diodes : List Int) (restores : Option Nat) (s : State) : Out :=
  .next <|
    let n := roundStrides s
    if s.thm.sinceRound < n ∨ s.bot.phase = 0 then s
    else
      let s := sampleAll s codes
      let s := modelStep s ((n : Rat) / 125000)
      let s := dieTemps (diodeSteps (sumPower s) diodes)
      let s := throttleStep s
      let s := thresholdStep s
      let s := snuffStep s
      let s := hldRound s restores
      let fast := fastNow s
      let s := if fast ∧ !s.thm.fast then s.ev eTHM_FAST else s
      s.setThm { s.thm with rounds := s.thm.rounds + 1, sinceRound := 0, dieTime := [], fast := fast }

/-- OPEN_TEST: once every 100 rounds; `moves` gives how far each ball channel's code moves (R453). -/
def execOpenTest (moves : Tbl Nat) (s : State) : Out :=
  .next <|
    if s.thm.rounds < s.thm.lastOpen + 100 then s
    else
      let s := s.bot.cfg.channels.foldl (fun s (p : Nat × HkDef) =>
        if Tbl.getD moves p.1 0 > p.2.openThr then breakChan s p.1 else s) s
      s.setThm { s.thm with lastOpen := s.thm.rounds }

/-- PACKAGE_TEMPERATURE_READ: every 60 s each die in service answers a FEATURE at rank 5; `readings` are the answers in
0.1 °C, and each package's bias moves by half of the difference of its hottest die (R455). -/
def execPackageTemperatureRead (readings : Tbl Int) (s : State) : Out :=
  .next <|
    if s.tbs.clk < s.thm.lastPkg + 60000000000 ∨ !s.bot.ready ∨ s.thm.snuff = .off then s
    else
      let s := s.bot.cfg.nodes.foldl (fun s (p : Nat × NetNode) =>
        let rs := (p.2.dies.filter fun d => (s.die d).service).filterMap fun d => Tbl.get readings d
        if p.1 < 12 ∨ (Tbl.get s.thm.nodes p.1).isNone then s
        else match rs with
          | [] => s
          | r :: rest =>
            let x := s.node p.1
            let hot : Rat := ((rest.foldl max r : Int) : Rat)
            let x := { x with bias := x.bias + (hot - (x.t + x.bias)) / 2 }
            s.setThm { s.thm with nodes := Tbl.set s.thm.nodes p.1 x }) s
      s.setThm { s.thm with lastPkg := s.tbs.clk }

/-! ## Power states (R461, R462) -/

/-- An armed PS0-PS2 applies at a boundary. -/
def applyPs (s : State) : State :=
  match s.thm.psArm with
  | some n => if n ≤ 2 then
      let changed := decide (n ≠ s.thm.ps)
      let s := s.setThm { s.thm with ps := n, psOper := n, psArm := .none }
      if changed then s.ev eTHM_PS_CHANGE else s
    else s
  | .none => s

/-- No die operation runs. -/
def diesIdle (s : State) : Bool := s.fch.dies.all fun p => p.2.op.isNone && p.2.reinRead.isNone

/-- LOW_POWER_STATE_ENTRY: the armed PS3 or PS4 is entered when no slot holds acknowledged data, no I/O command is in
flight and no die operation runs; in PS4 the Ethernet ports are off (R461, R462, R474). -/
def execLowPowerStateEntry (s : State) : Out :=
  .next <|
    match s.thm.psArm with
    | some n =>
      if n < 3 ∨ ackSlots s ≠ 0 ∨ (s.qmx.cmds.any fun c => !c.admin) ∨ !diesIdle s then s
      else
        let s := (s.setThm { s.thm with ps := n, psArm := .none }).ev eTHM_PS_CHANGE
        let ifaces := Tbl.map s.net.ifaces fun _ (i : Iface) => { i with up := false }
        if n = 4 then s.setNet { s.net with ifaces := ifaces }
        else s
    | .none => s

/-! ## The power-loss dump (R471, R243, R194) -/

/-- Work in progress on a die at the dump (R243): programs run to their end, reined ones resumed; erases and reads end
with DUMP_STOP, and so do unstarted descriptors. -/
def stopDie (s : State) (d : Nat) : State :=
  let y := s.die d
  let keep (o : DieOp) : Bool := o.desc.typ == .program || o.desc.typ == .eraseIntent
  let s := match y.reinRead with
    | some r => finishEntry (s.updDie d fun y => { y with reinRead := .none }) d r.slot .dumpStop (some r) false
    | .none => s
  let s := match y.op with
    | some o =>
      if keep o then s.updDie d fun y => { y with op := some { o with phase := .none } }
      else finishEntry (s.updDie d fun y => { y with op := .none, armed := .none }) d o.slot .dumpStop (some o) false
    | .none => s
  let running := ((s.die d).op.map DieOp.slot)
  ((ringOrder (s.die d)).filter fun p => some p.1 != running).foldl (fun s p =>
    completeEntry s d p.1 .dumpStop .none false) s

/-- A dump whose power is going: links, NET and the bus domains of SBI lose theirs (R471). -/
def linksLost (c : DumpCause) : Bool := c == .powerFail || c == .snuff

/-- DUMP_FREEZE: the boundary after the trigger (R471 step 2, R88, R474, R507). -/
def execDumpFreeze (s : State) : Out :=
  .next <|
    match s.hld.dump with
    | .armed c =>
      let s := (s.fch.dies.map Prod.fst).foldl stopDie s
      let s := s.setStp { s.stp with reads := [], engs := [] }
      let ends (x : Fn) : Fn :=
        { x with aers := [], cqs := Tbl.map x.cqs fun _ (q : Cq) => { q with held := [] } }
      let s := (s.setQmx { s.qmx with cmds := [] }).setCpx { s.cpx with running := 0 }
      let s := (s.setPins { s.pins with hldLoadN := true }).setFns (Tbl.map s.fns fun _ x => ends x)
      let s := if linksLost c then
          let ports := Tbl.map s.hif.ports fun _ (p : Port) => { p with up := false, training := false }
          let ifaces := Tbl.map s.net.ifaces fun _ (i : Iface) => { i with up := false }
          (s.setHif { s.hif with ports := ports }).setNet { s.net with ifaces := ifaces, assocs := [], capsules := [] }
        else s
      s.setHld { s.hld with dump := .running c }
    | _ => s

/-- Programs have run to their end. -/
def programsDone (s : State) : Bool := s.fch.dies.all fun p => p.2.op.isNone

/-- A slot that the dump takes (R194). -/
def dumpsSlot (s : State) (x : Slot) : Bool :=
  match x.state with
  | .held | .assembled | .sent => true
  | .copy | .ckpt =>
    s.wbf.pus.any fun u => u.stream == x.stream && u.serial == x.rowSerial && u.member == x.member &&
      u.placed && u.state != .done &&
      ((s.stream x.stream).state == .accumulating || (s.stream x.stream).state == .parityOut)
  | _ => false

/-- The image of the dump that ends now. -/
def makeImage (s : State) (valid verified : Bool) (lost : List Nat) (badLog : Bool) (mib : Nat) : DumpImage :=
  { valid := valid, verified := verified,
    slots := s.wbf.slots.filter fun p => dumpsSlot s p.2 && !lost.contains p.1,
    targets := s.wbf.targets, streams := s.wbf.streams, pus := s.wbf.pus,
    active := s.map.active, sealed := s.map.sealed, seqs := (s.map.spaces.map fun p => (p.1, p.2.seq)),
    seqHigh := s.map.seqHigh, par := s.par, meters := s.fns.map fun p => (p.1, p.2.cur), lost := lost,
    badLog := badLog, pcycle := s.tbs.pcycle, mib := mib, replayed := false }

/-- The dump ends: its programs are recorded, the image is what the reserve holds, and its counters advance
(R375, R376, R471, R476). An image still waiting for its checkpoint is kept when this one is not valid. -/
def endDump (s : State) (c : DumpCause) (valid : Bool) (lost : List Nat) (badLog : Bool) (mib : Nat) : State :=
  let s := drainRecords s
  let verified := decide (c = .dumpGo)
  let img := makeImage s valid verified lost badLog mib
  let s := s.setHld { s.hld with
    dump := .done c, image := if !valid && s.hld.image.any (fun i => i.valid) then s.hld.image else some img, dumped := true, erased := [],
    last := if !valid then 2 else if verified then 3 else 1, lostLines := lost }
  let s := (s.wr rHLD_LAST_MS (min ((s.tbs.clk - s.hld.dumpStart) / 1000000) 0xFFFF)).wr rHLD_LAST_MIB (min mib 4095)
  let s := s.bump rHLD_DUMPS 1
  let s := if valid then s else s.bump rHLD_DUMP_FAILS 1
  let s := lost.foldl (fun s _ => (s.bump rDMC_LOST_LINES 1).ev eDMC_LOST) s
  if c = .dumpGo then
    let s := s.setDmc { s.dmc with dumpBusy := false, dumpDone := valid }
    if valid then s.ev eHLD_DUMP_DONE else s
  else if c = .shutdown then
    let s := s.updFn 0 fun x => { x with shst := 2 }
    (s.setBot { s.bot with shutdown := 0 }).ev eBOT_SHUTDOWN
  else s

end Sys2Proof.Machine
end

