-- ==== Sys2Proof/Machine/Boot.lean ====
section
/-! DEFINITION. Resets and the first phases of start-up: power loss, dump end, fuses, configuration image, firmware,
DRAM, flash discovery, die roster (16 R477-R489, R493-R499; 15 R464, R466, R470-R474; 19 R543, R544, R553, R554;
12 R358-R360, R379-R381; 07 R237-R241; 02 R53-R59; 17 R502-R508; 13 R394-R398, R410-R413). -/

namespace Sys2Proof.Machine

open Sys2Proof

/-! ## What each reset keeps (R494, R496) -/

/-- The wide reset levels. A relight is a power-on reset that keeps the always-on domains (R494). -/
inductive ResetLevel | powerOn | relight | device
  deriving DecidableEq, Repr

/-- What of a die outlasts every reset: its identity and the records it holds. -/
def Die.kept (y : Die) : Die :=
  { Die.absent with
    uid := y.uid, geom := y.geom, profile := y.profile, phaseClass := y.phaseClass, intentAct := y.intentAct,
    intentStby := y.intentStby, intentFree := y.intentFree, recSeq := y.recSeq, records := y.records }

/-- A record write in NOR takes effect (R398, R497). A FREE function has no entry. -/
def norStore (n : Nor) (w : NorWait) : Nor :=
  let n := match w.entry with
    | some (f, e) =>
      n.putTable (if e.state == FnState.free then Tbl.erase n.fnTable f else Tbl.set n.fnTable f e) w.mig n.sanitize
    | none => n
  match w.key with
  | some (ns, r) => n.putKey ns r
  | none => n

/-- The function table with every epoch advanced by one (R496). -/
def nextEpochs (s : State) (t : Tbl FnEntry) : Tbl FnEntry :=
  Tbl.map t fun f e =>
    let now := match Tbl.get s.fns f with
      | some x => x.epoch
      | none => e.epoch
    { e with epoch := (now + 1) % 256 }

/-- The newest EVL_WMARK record's watermark, 1 without one (R515). -/
def wmarkOf (l : List LRec) : Nat :=
  (l.foldl (fun (a : Nat × Nat) r =>
    if r.subsys = 3 ∧ r.code = 3 ∧ r.seq ≥ a.1 then (r.seq, (r.payload.head?.map Prod.fst).getD 1) else a) (0, 1)).2

/-- The mirror as start-up fills it from the ring: its newest 16,384 records, newest first. -/
def mirrorOf (ring : Tbl LRec) : List LRec :=
  ((sortBy LRec.seq (ring.map Prod.snd)).reverse).take 16384

/-- EVL after a reset: the ring stands; a record whose program was cut off is a torn location (R507). A device reset
leaves the queue, which its fixed-on domain holds. -/
def evlRestart (lv : ResetLevel) (e : Evl) : Evl :=
  let kept : Evl := { Evl.reset with
    ring := e.ring, torn := e.torn, next := e.next, erasing := e.erasing, mirror := mirrorOf e.ring,
    wmark := wmarkOf (e.ring.map Prod.snd), restored := lv != .powerOn && e.restored }
  if lv = .device then
    { kept with queue := e.queue, held := e.held, programming := e.programming, wmark := e.wmark, wmarkDue := e.wmarkDue }
  else match e.programming with
    | some (loc, _) => { kept with torn := loc :: e.torn, next := (loc + 1) % ringSize }
    | none => kept

/-- TBS: all of it starts again at power-on; a relight and a device reset keep what the always-on domain holds, and a
relight counts a power cycle (R53, R57, R58). -/
def tbsRestart (lv : ResetLevel) (t : Tbs) : Tbs :=
  match lv with
  | .powerOn => Tbs.reset
  | .relight => { t with pcycle := min (t.pcycle + 1) 0xFFFFFF }
  | .device => t

/-- THM: the model runs on, but for a power-on reset; channels are whole again (R453). -/
def thmRestart (lv : ResetLevel) (clk : Nat) (t : Thm) : Thm :=
  match lv with
  | .powerOn => Thm.reset
  | _ =>
    let chans := Tbl.map t.chans fun _ (c : HkChan) => { c with badRun := 0, broken := false }
    { Thm.reset with
      chans := chans, nodes := t.nodes, snuffAt := t.snuffAt, lastSnuff := t.lastSnuff, wait := t.wait,
      lastPkg := t.lastPkg,
      relightAt := if lv = .relight then some clk else t.relightAt }

/-- HLD: the reserve and its image stand; strings are isolated again at power-on only (R466), and every connected one is
tested at start-up (R467). -/
def hldRestart (lv : ResetLevel) (h : Hld) : Hld :=
  let kept := { Hld.reset with image := h.image, reserve := h.reserve, erased := h.erased }
  match lv with
  | .powerOn => kept
  | _ =>
    { kept with strings := h.strings, vBank := h.vBank, vLow := h.vLow, charged := h.charged, energy := h.energy,
                toTest := (h.strings.filter fun p => !p.2.iso).map Prod.fst }

/-- PAR: the layout, the mirrors with the records they hold, and the adopted roots. -/
def parRestart (p : Par) : Par :=
  let written := p.mirrors.any fun m => m.hasRoot
  { Par.reset with
    layout := p.layout, spans := p.spans, journal := p.journal.drop p.unflushed,
    jseq := (p.jseq + 2 ^ 48 - p.unflushed % 2 ^ 48) % 2 ^ 48,
    mirrors := p.mirrors.map fun m => { m with rehoming := false },
    root := p.root, rootPending := if written then p.rootPending else none,
    thirdLoss := p.thirdLoss, mismatch := p.mismatch, fixed := p.fixed }

/-- RCL: erase counts, retired blocks, the read-only state and the sanitize operation (R352, R355, R496). -/
def rclRestart (r : Rcl) (n : Nor) : Rcl :=
  { Rcl.reset with
    counts := r.counts, retired := r.retired, spareTaken := r.spareTaken, spareTotal := r.spareTotal,
    retiredSpans := r.retiredSpans, life100 := r.life100, userGran := n.userGran,
    sanitize := if n.sanitize then .armed else r.sanitize, sanitizeBad := r.sanitizeBad }

/-- Register fields that a reset restores: SNUFFS, DUMPS, DUMP_FAILS (R475, R476), and the per-function NET fields,
which the function table holds (R496). -/
def regsKept (t : Tbl Nat) : Tbl Nat :=
  let keys := [fieldKey rTHM_SNUFFS 0 0, fieldKey rHLD_DUMPS 0 0, fieldKey rHLD_DUMP_FAILS 0 0]
  t.filter fun p =>
    let k := p.1 % 2 ^ 32
    keys.contains p.1 ||
      (decide (p.1 ≥ 2 ^ 32) && k / 2 ^ 17 == 9 && decide (0xA0 ≤ k / 32 % 4096 ∧ k / 32 % 4096 < 0xF0))

/-- The state of each block after a reset of a level. A power-on reset holds the machine in phase 0 until its release;
the others go on at phase 1. -/
def restarted (s : State) (lv : ResetLevel) (cause : ResetCause) : State :=
  let n := if lv = .device then s.norWaits.foldl norStore s.nor else s.nor
  let clk := if lv = .powerOn then 0 else s.tbs.clk
  let spaces : Tbl Space := s.map.spaces.filter fun p => !p.2.deleted
  let ports : Tbl Port := Tbl.map s.hif.ports fun _ p =>
    { up := false, perst := p.perst, training := false, numVfs := 0, lost := false }
  { State.reset with
    pending := s.pending
    ans := s.ans
    draws := s.draws
    tbs := tbsRestart lv s.tbs
    map := { Map.reset with spaces := spaces, fdp := s.map.fdp }
    wbf := { Wbf.reset with targets := if s.map.fdp then handleTargets (List.range 64) else [] }
    fch := { Fch.reset with dies := Tbl.map s.fch.dies fun _ y => y.kept, media := s.fch.media,
                            intentErase := s.fch.intentErase.filter fun q => q.2.2.2 != 2 && q.2.2.2 != 5 }
    ldc := { Ldc.reset with mediaErrors := s.ldc.mediaErrors }
    par := parRestart s.par
    rcl := rclRestart s.rcl n
    hif := { Hif.reset with ports := ports }
    sbi := Sbi.reset
    thm := thmRestart lv clk s.thm
    hld := hldRestart lv s.hld
    fuses := s.fuses
    nor := { n with fnTable := nextEpochs s n.fnTable,
                    fnOld := { n.fnOld with table := nextEpochs s n.fnOld.table } }
    bot := { Bot.reset with phase := if lv = .powerOn then 0 else 1, cause := cause, releaseClk := clk, phaseClk := clk }
    pins := { Pins.reset with pwrFailN := s.pins.pwrFailN, sysRstN := s.pins.sysRstN, xtal := s.pins.xtal,
                              fpwrEn := if lv = .device then s.pins.fpwrEn else 0,
                              hldChgEn := lv != .powerOn && s.pins.hldChgEn, testEn := s.pins.testEn,
                              dmcResetN := lv == .device && s.pins.dmcResetN }
    evl := evlRestart lv s.evl
    cpx := { Cpx.reset with results := s.cpx.results }
    regs := regsKept s.regs }

/-- The machine as a reset of a level leaves it: RATE_CAP resets to 32 on a part of the lower speed grade (R245), and
TBS_PPS_CFG.EN has its effect. -/
def restart (s : State) (lv : ResetLevel) (cause : ResetCause) : State :=
  let t := restarted s lv cause
  let t := if s.fuses.grade = 0 then t else (List.range 32).foldl (fun t nn => t.wrAt rFCH_RATE_CAP nn 0 32) t
  ppsEnable t

/-! ## Progress of start-up (R483, R493, R499) -/


/-- The phase in progress ends and phase `n` begins. -/
def toPhase (s : State) (n : Nat) : State :=
  (phaseMs s s.bot.phase s.bot.phaseClk).setBot { s.bot with phase := n, phaseClk := s.tbs.clk }

/-- Start-up stops at phase `n` for a cause within it (R493). -/
def stopStartup (s : State) (n cause : Nat) : State :=
  let code := Config.failCode n cause % 256
  let s := (s.setBot { s.bot with phase := 15, failPhase := n, failCode := code }).ev eBOT_STOPPED
  if n > 4 then s.raise lBOT_START_FAIL none [p4 n, p4 code] else s

/-! ## Power loss, power return and power-on reset (R470-R474, R494, R498, R543, R544, R554) -/

/-- A power failure: the dump once start-up has reached ready; before phase 4, start-up returns to phase 1 and waits
(R470, R498, R554). -/
def powerFailure (s : State) : State :=
  if s.bot.phase ≥ 1 ∧ s.bot.phase < 4 then s.setBot { s.bot with phase := 1, phaseClk := s.tbs.clk }
  else armDump s .powerFail

/-- PWR_FAIL: PWR_FAIL_N is low for 2 µs. -/
def execPwrFail (s : State) : Out :=
  .next (powerFailure (s.setPins { s.pins with pwrFailN := false, pwrHighAt := none }))

/-- BANK_TRIP: the bank comparator sees HLD_SENSE below V_TRIP (R470). -/
def execBankTrip (s : State) : Out := .next (armDump s .powerFail)

/-- VDD_CORE_LOW: as a power failure (R544). -/
def execVddCoreLow (s : State) : Out := .next (powerFailure s)

/-- A dump cut off leaves an incomplete image (R554). -/
def cutDump (s : State) : State :=
  match s.hld.dump with
  | .running _ => s.setHld { s.hld with image := some (makeImage s false false [] false 0), erased := [] }
  | _ => s

/-- VDD_AON_LOW: an internal power-on reset at once (R544). -/
def execVddAonLow (s : State) : Out := .next (restart (cutDump s) .powerOn .powerOn)

/-- XTAL_STOP: 1 ms later the synthesizer asserts power-on reset (R553, R554). -/
def execXtalStop (s : State) : Out :=
  .next (restart (cutDump (s.setPins { s.pins with xtal := false })) .powerOn .powerOn)

/-- SYS_RST: SYS_RST_N falls: power-on reset, latched while a dump runs (R494, R554). -/
def execSysRst (s : State) : Out :=
  .next <|
    let s := s.setPins { s.pins with sysRstN := false }
    if dumpBusy s then s else restart s .powerOn .powerOn

/-- POWER_ON_RESET: SYS_RST_N is high and the crystal runs, with TEST_EN low (R541): power-on reset is released and the fuses load (R477, R483,
R543). When a fuse check fails start-up stops. -/
def execPowerOnReset (s : State) : Out :=
  .next <|
    if s.bot.phase ≠ 0 ∨ s.pins.testEn then s
    else
      let s := s.setPins { s.pins with sysRstN := true, xtal := true }
      let s := s.setBot { s.bot with phase := 1, releaseClk := s.tbs.clk, phaseClk := s.tbs.clk }
      if s.fuses.ok && s.fuses.secretOk then s else stopStartup s 1 0

/-- A device reset takes effect once no dump is needed or the dump has ended (R495). -/
def deviceReset (s : State) (cause : ResetCause) : State := restart s .device cause

/-- PWR_FAIL_N_HIGH: PWR_FAIL_N has been high for 100 ms: start-up that waits at phase 1 may proceed, and after a dump
during which power returned HLD performs a device reset (R473, R554). -/
def execPwrFailNHigh (s : State) : Out :=
  .next <|
    let s := s.setPins { s.pins with pwrFailN := true, pwrHighAt := some s.tbs.clk }
    match s.hld.dump with
    | .done .powerFail | .done .snuff => if s.hld.resetAfter ∧ s.thm.snuff = .none then deviceReset s .hld else s
    | _ => s

/-- POWER_RETURN_DURING_DUMP: the dump completes; a device reset follows 100 ms of PWR_FAIL_N high (R473). -/
def execPowerReturnDuringDump (s : State) : Out :=
  .next <|
    match s.hld.dump with
    | .armed .powerFail | .running .powerFail | .done .powerFail => s.setHld { s.hld with resetAfter := true }
    | _ => s

/-- DUMP_END: the programs of the dump have run to their end. `closing`: dies on which the closing record passes its CRC,
two making the image valid; `lost`: the
slots left out; `badLog`: a line of the delta log or of the journal copy failed; `mib`: the image's size (R376, R471).
A device reset that waited for the dump follows, and so does a latched SYS_RST_N (R495, R554). -/
def execDumpEnd (closing : Nat) (lost : List Nat) (badLog : Bool) (mib : Nat) (s : State) : Out :=
  .next <|
    match s.hld.dump with
    | .running c =>
      if !programsDone s then s
      else
        let s := endDump s c (decide (2 ≤ closing)) lost badLog mib
        if !s.pins.sysRstN then restart s .powerOn .powerOn
        else match c, s.bot.resetArm with
          | .powerFail, _ | .snuff, _ => s
          | _, some cause => deviceReset s cause
          | _, none => s
    | _ => s

/-! ## Device resets (R494, R495) -/

/-- A source asks for a device reset; while snuffed no path answers. -/
def armDeviceReset (s : State) (cause : ResetCause) : State :=
  if s.bot.phase = 0 ∨ s.thm.snuff = .off then s
  else s.setBot { s.bot with resetArm := some (s.bot.resetArm.getD cause) }

/-- DEVICE_RESET: the reset that a source asked for: at once before ready and after a completed dump; else the dump comes
first (R495, R498). -/
def execDeviceReset (s : State) : Out :=
  .next <|
    match s.bot.resetArm with
    | none => s
    | some cause =>
      if s.hld.dump = .idle ∧ s.bot.ready ∧ !s.hld.dumped then armDump s .deviceReset
      else if dumpBusy s then s
      else deviceReset s cause

/-- NVM_SUBSYSTEM_RESET: a write to NSSR of function `f`; tenants have none (R494). -/
def execNvmSubsystemReset (f : Nat) (w : Dword) (s : State) : Out :=
  .next <|
    if f = 0 ∧ w = 0x4E564D65 ∧ (pcieReach s 0 ∨ (assocOf s 0).isSome) then armDeviceReset s .nssr else s

/-- BOT_SOFT_RESET: a write to CTRL of the BOT page with SOFT_RESET, bit 1 (R499, R527). -/
def execBotSoftReset (w : Dword) (s : State) : Out :=
  .next (if w.getLsbD 1 then armDeviceReset s .softReset else s)

/-- RELIGHT: the hottest controller node is at or below RELIGHT_C and the wait has passed: SNUFF_N is released and the
power-on sequence runs; the ledger records the snuff's duration (R464). -/
def execRelight (s : State) : Out :=
  .next <|
    let cool := match composite s with
      | some t => decide (t ≤ 10 * ((s.rd rTHM_RELIGHT_C : Nat) : Rat))
      | none => true
    if s.thm.snuff ≠ .off ∨ !cool ∨ s.tbs.clk < s.thm.snuffAt + s.thm.wait * 1000000000 then s
    else
      let secs := (s.tbs.clk - s.thm.snuffAt) / 1000000000
      (((restart s .relight .relight).ev eTHM_RELIGHT).raise lTHM_RELIGHT none [p4 secs])

/-! ## Phase 2: configuration image (R413, R466, R478, R481) -/

/-- A refusal is counted and written with its reason. -/
def rejectImage (s : State) (reason : Option Nat) : State :=
  match reason with
  | none => s
  | some r => ((s.bump rKEY_IMG_REJECT 1).ev eKEY_IMAGE_REJECT).raise lKEY_IMAGE_REJECT none [p4 r]

/-- A register field of a key, and whether software may write it. -/
def fieldOfKey (k : Nat) : Option Fld :=
  let page := k % 2 ^ 32 / 2 ^ 17
  (fieldsOf (pageBlk page)).find? fun f =>
    (f.acc == .rw || f.acc == .rws) &&
      (List.range f.n).any fun i => fieldKey f (pageInst page) i == k % 2 ^ 32

/-- Non-default reset values of RW fields (section 0x000A). -/
def imageValues (s : State) (vs : List (Nat × Nat)) : State :=
  vs.foldl (fun s v => match fieldOfKey v.1 with
    | some f => s.setRegs (Tbl.put s.regs v.1 (v.2 % 2 ^ f.w) f.reset)
    | none => s) s

/-- A debug fuse that is not blown forces the matching field to 0 (R478). -/
def debugForce (s : State) : State :=
  let s := if s.fuses.debugBlown.getLsbD 0 then s else s.wr rSBI_JTAG_REG_EN 0
  if s.fuses.debugBlown.getLsbD 1 then s else s.wr rSBI_UART_IN_EN 0

/-- Strings are admitted one at a time at power-on (R466). -/
def admitStrings (s : State) (c : CfgImage) (reversed shorted : BitVec 8) : State :=
  let one (k : Nat) : Str :=
    if reversed.getLsbD k then { Str.untested with state := .reversed }
    else if shorted.getLsbD k then { Str.untested with state := .shorted }
    else { Str.untested with iso := false }
  let ks := (List.range 8).filter fun k => c.strings.getLsbD k
  if !s.hld.strings.isEmpty then s
  else s.setHld { s.hld with
    strings := ks.map fun k => (k, one k), toTest := ks.filter fun k => !(one k).iso }

/-- The image in use applies (R480, R481). -/
def applyCfg (s : State) (c : CfgImage) (copyB : Bool) : State :=
  let s := s.setBot { s.bot with cfg := c, cfgCopy := copyB }
  let s := imageValues s c.values
  let s := (s.wr rSBI_UART_IN_EN (if c.uartIn then 1 else 0)).wr rSBI_JTAG_REG_EN (if c.jtagReg then 1 else 0)
  let s := debugForce ((s.wr rSBI_SMB_ADDR c.smbAddr).wr rRCL_RATED_PE c.ratedPe)
  let s := s.wr rHIF_DUAL (if c.dual then 1 else 0)
  let s := (s.wr rNET_P0_MODE (c.portModes.getD 0 0)).wr rNET_P1_MODE (c.portModes.getD 1 0)
  (s.setHif { s.hif with dual := c.dual }).setNet { s.net with modes := c.portModes }

/-- CONFIGURATION_IMAGE_LOAD: with PWR_FAIL_N high and XSPI_RESET_N released, BOT reads the SFDP of the NOR, and refuses one
without 8D-8D-8D or erase suspend (R552); both copies are read and the verified one of the higher GENERATION
is used; without one start-up stops. The strings whose HLD_STRk reads reversed, or that short the bank when connected,
are given (R466, R481, R493). -/
def execConfigurationImageLoad (reversed shorted : BitVec 8) (s : State) : Out :=
  .next <|
    if s.bot.phase ≠ 1 ∨ !s.pins.pwrFailN ∨ xspiReset s then s
    else if !s.nor.octal ∨ !s.nor.suspend then stopStartup (toPhase s 2) 2 1
    else
      let s := toPhase s 2
      let a := s.nor.cfgA
      let b := s.nor.cfgB
      let ra := cfgReason s a
      let rb := cfgReason s b
      let s := rejectImage (rejectImage s ra) rb
      let ok : BitVec 5 := (if ra.isNone then 1 else 0) ||| (if rb.isNone then 2 else 0)
      let s := s.setBot { s.bot with norOk := ok }
      if ra.isSome ∧ rb.isSome then stopStartup s 2 0
      else
        let useB := rb.isNone && (ra.isSome || decide (b.generation > a.generation))
        let s := applyCfg s (if useB then b else a) useB
        let s := admitStrings s s.bot.cfg reversed shorted
        let s := s.setPins { s.pins with hldChgEn := true }
        (toPhase s 4).setBot { (toPhase s 4).bot with linkClk := some s.tbs.clk }

/-! ## Phase 3: link training (R484) -/

/-- PCIE_LINK_TRAINING: port `p` begins to train, after phase 2 and the de-assertion of its PE_PERST_Nn; a start-up
stopped at phase 4 or later trains as well (R484, R493). -/
def execPcieLinkTraining (p : Nat) (s : State) : Out :=
  .next <|
    let after := decide (4 ≤ s.bot.phase ∧ s.bot.phase ≤ 11) || decide (s.bot.failPhase ≥ 4)
    if !after ∨ !portThere s p ∨ (s.port p).up ∨ (s.port p).training ∨ s.thm.snuff = .off ∨ dumpBusy s then s
    else s.setPort p { s.port p with training := true, perst := false }

/-! ## Phase 4: firmware, keys, ledger, functions -/

/-- The slot to run: the one that the last Firmware Commit chose, else the other (R493). -/
def pickSlot (s : State) : Option Nat :=
  let k := s.nor.fwNext
  let o := 3 - k
  if (slotReason s k).isNone then some k else if (slotReason s o).isNone then some o else none

/-- The record that KEY reads of a namespace: the newer copy's, else the older one's; `lost` lists the namespaces whose newer
record fails, with whether the older one fails too (R398). -/
def storeRecord (s : State) (lost : List (Nat × Bool)) (ns : Nat) : Option KeyRec :=
  match lost.find? fun x => x.1 == ns with
  | none => keyRec s ns
  | some (_, both) => if both then none else Tbl.get s.nor.keysOld ns

/-- KEY loads every persistent key; a record that fails in both copies leaves its slot EMPTY (R398). -/
def loadStore (s : State) (lost : List (Nat × Bool)) : State :=
  let s := s.setKey { s.key with storeOk := !(lost.any Prod.snd) }
  (liveSpaces s).foldl (fun s p =>
    match keyRec s p.1, storeRecord s lost p.1 with
    | none, _ => s
    | some _, none => (s.ev eKEY_STORE_FAIL).raise lKEY_STORE_FAIL none [p2 p.1]
    | some _, some r => match r.wrapped with
        | none => s
        | some key => s.setKeySlot (keySlotNs p.1)
            { KeySlot.empty with key := some key, source := r.source, owner := r.owner, keyId := r.keyId, gen := 1 }) s

/-- Identity: certificates, alias key and measurements (R410, R411). -/
def loadIdentity (s : State) (fwDigest keyIndex : Nat) : State :=
  let meas : Tbl Nat := [(1, Config.romDigest), (2, s.bot.cfg.digest), (3, fwDigest),
    (4, Config.fuseDigest keyIndex s.fuses.revoked.toNat s.fuses.svn),
    (5, Config.debugDigest (decide (s.rd rSBI_JTAG_REG_EN = 1)) s.bot.cfg.closeBar2)]
  let s := s.setKey { s.key with certOk := s.nor.certs, aliasOk := true, meas := meas,
                                 aliasFor := [Config.romDigest, s.bot.cfg.digest, fwDigest] }
  if s.nor.certs then s else (s.ev eKEY_CERT_BAD).raise lKEY_CERT_BAD none []

/-- TBS takes both counts from the newest existing record, and counts the power cycle (R59); none gives 0, 0 and 1. Relights
before the counts were restored are counted too (R58). -/
def restoreCounts (s : State) : State :=
  let last := (s.evl.mirror).head?
  s.setTbs { s.tbs with
    hours := (last.map LRec.hours).getD 0, hourSec := (last.map LRec.hourSec).getD 0,
    pcycle := min ((last.map LRec.pcycle).getD 0 + 1 + s.tbs.pcycle) 0xFFFFFF }

/-- A record held since before the counts were restored takes them, less the time since (R502). -/
def earlyRecord (s : State) (raised : Nat) (r : LRec) : LRec :=
  let op := s.tbs.hours * 3600 + s.tbs.hourSec - (s.tbs.clk - raised) / 1000000000
  { r with pcycle := s.tbs.pcycle, hours := op / 3600, hourSec := op % 3600, early := true }

/-- Records held are accepted in order. -/
def releaseHeld (s : State) : State :=
  let held := s.evl.held
  held.foldl (fun s h =>
    let r := earlyRecord s h.1 h.2
    accept s (r.subsys * 256 + r.code) r) (s.setEvl { s.evl with held := [], restored := true })

/-- EVL's scan of the ring: torn locations and those that fail their CRC are counted; counts on the next power-on are
restored (R508, R59). -/
def restoreLedger (s : State) (corrupt : Nat) : State :=
  let s := if !s.evl.restored then restoreCounts s else s
  let s := releaseHeld s
  let torn := s.evl.torn.length
  let s := (s.wr rEVL_TORN (min torn 0xFFFF)).wr rEVL_CORRUPT (min corrupt 0xFFFF)
  if torn = 0 ∧ corrupt = 0 then aenUpdate s
  else aenUpdate ((s.ev eEVL_TORN).raise lEVL_TORN none [p4 torn, p4 corrupt])

/-- Function 0's harness when the image carries none (R105). -/
def harnessZero : Harness :=
  { gait := 1, tether := false, hard := false, qpairs := 16, slotShare := 1, dieShare := 4, wbMib := 64, tags := 1024,
    iopsMax := 0, bwMax := 0, burst := 125, openZones := 0, capGib := 0 }

/-- A function as its table entry gives it: DRAINING, FROZEN and SAVED become FROZEN (R497). -/
def functionFrom (s : State) (f : Nat) (e : FnEntry) : Fn :=
  let t : FnState := match e.state with
    | .draining | .frozen | .saved => .frozen
    | t => t
  let h := e.harness
  let x : Fn := { Fn.free with
    state := t, bind := e.bind, harness := h, planSlot := h.slotShare, planDie := h.dieShare, planHard := h.hard,
    epoch := e.epoch, spaces := e.spaces,
    iopsLevel := (iopsGain h * h.burst : Nat), bwLevel := (bwGain h * h.burst : Nat) }
  { x with cur := { Meter.zero f with minute := s.seconds, flags := 2 } }

/-- TEN restores the functions and its next MIG_SERIAL; function 0 exists from start-up with the image's harness (R105,
R136, R497). -/
def restoreFunctions (s : State) : State :=
  let old := Tbl.get s.nor.fnTable 0
  let zero : FnEntry :=
    { state := .active, bind := .pcie, harness := s.bot.cfg.harness0.getD harnessZero,
      spaces := (old.map FnEntry.spaces).getD [], epoch := (old.map FnEntry.epoch).getD 0 }
  let s := s.setNor { s.nor with fnTable := Tbl.set s.nor.fnTable 0 zero }
  let s := s.setFns (s.nor.fnTable.map fun (p : Nat × FnEntry) => (p.1, functionFrom s p.1 p.2))
  s.setTen { s.ten with migSerial := s.nor.migSerial }

/-- Known-answer tests: `bad` of the 12 lanes fail (R391, R394). -/
def testLanes (s : State) (bad : Nat) : State :=
  let s := s.setCip { s.cip with lanes := 12 - bad }
  if bad = 0 then s else (s.ev eCIP_LANE_FAIL).raise lCIP_LANE_FAIL none [p4 bad]

/-- The newer valid copy of the roster and of the function table is used; where both copies fail, the drive has no roster,
or no function (R479). -/
def readCopies (s : State) (x : NorScan) : State :=
  let n := s.nor
  let r := if x.rosterNew then { n.rosterOld with valid := n.rosterOld.valid && !x.rosterOld } else n.roster
  let n := { n with roster := r }
  s.setNor <|
    if !x.tableNew then n
    else if x.tableOld then { n with fnTable := [], migSerial := 0, sanitize := false }
    else { n with fnTable := n.fnOld.table, migSerial := n.fnOld.mig, sanitize := n.fnOld.sanitize }

/-- FIRMWARE_LOAD: the slot of the last Firmware Commit, else the other, runs on the cores; keys, certificates, lanes,
ledger and functions are restored. `bad`: lanes that fail; `lost`: namespaces whose newer key record fails, and whether the older does too; `healthy`: the
entropy source passes; `scan`: what else fails its CRC in NOR (R394, R398, R409-R411, R493, R497, R508). -/
def execFirmwareLoad (bad : Nat) (lost : List (Nat × Bool)) (healthy : Bool) (scan : NorScan) (s : State) : Out :=
  .next <|
    if s.bot.phase ≠ 4 ∨ bad > 12 then s
    else
      let s := readCopies (restoreLedger s scan.corrupt) scan
      let s := rejectImage s (if (slotReason s s.nor.fwNext).isNone then none else slotReason s s.nor.fwNext)
      let ok : BitVec 5 := s.bot.norOk ||| (if (slotReason s 1).isNone then 4 else 0) |||
        (if (slotReason s 2).isNone then 8 else 0) ||| (if s.nor.roster.valid then 16 else 0)
      let s := s.setBot { s.bot with norOk := ok }
      match pickSlot s with
      | none => stopStartup (rejectImage s (slotReason s (3 - s.nor.fwNext))) 4 0
      | some k =>
        let x := s.fwSlot k
        let fall := k != s.nor.fwNext
        let s := s.setBot { s.bot with fwSlot := k, fallback := fall }
        let s := if fall then (s.ev eBOT_FALLBACK).raise lBOT_FW_FALLBACK none [p4 k] else s
        let s := s.setCpx { Cpx.reset with running := 0xFFFF, results := s.cpx.results }
        let s := s.setKey { s.key with health := healthy, requests := 0 }
        let s := if healthy then s.bump rKEY_RESEEDS 1 else (s.ev eKEY_DRBG_FAIL).raise lKEY_DRBG_FAIL none []
        let s := loadIdentity (loadStore (testLanes s bad) lost) x.digest x.keyIndex
        let s := toPhase (restoreFunctions s) 5
        -- at the start of phase 5 FPWR_EN0 and DMCs_RESET_N rise (R485, R549)
        let s := s.setPins { s.pins with fpwrEn := s.pins.fpwrEn ||| 1, dmcResetN := true }
        s.setBot { s.bot with group := 0, groupClk := s.tbs.clk }

/-! ## Phase 5: DRAM and the flash pin test (R240, R358-R360, R379-R381) -/

/-- Data per subchannel in GiB and the highest rate of an arrangement, if the table lists it (R358). -/
def arrangement (d : DramFound) : Option (Nat × Nat) :=
  match d.x16, d.d32g, d.ranks with
  | false, false, 1 => some (8, 64)
  | false, false, 2 => some (16, 56)
  | false, true, 1 => some (16, 64)
  | true, false, 1 => some (4, 64)
  | true, true, 1 => some (8, 64)
  | true, true, 2 => some (16, 56)
  | _, _, _ => none

/-- The self-test fails start-up at the DRAM phase (R379, R381). -/
def dramFails (s : State) (cause : Nat) : State :=
  let s := ((s.wr rDMC_SELFTEST 3).ev eDMC_SELFTEST_FAIL).raise lDMC_SELFTEST_FAIL none []
  stopStartup (s.setDmc { s.dmc with filling := false }) 5 cause

/-- DRAM_PHASE: training, bus test, and the pin test of every channel, `pins` giving the shorted and open pins found by
channel. The DRAM found leaves out 4 MiB of row reserve in each subchannel (R240, R358, R379, R381). -/
def execDramPhase (d : DramFound) (pins : Tbl (BitVec 22 × BitVec 22)) (s : State) : Out :=
  .next <|
    if s.bot.phase ≠ 5 then s
    else match arrangement d with
      | none => stopStartup s 5 0
      | some (gib, top) =>
        if !(([64, 56, 48] : List Nat).contains d.rate) ∨ d.rate > top then stopStartup s 5 1
        else
          let bit (b : Bool) : Nat := if b then 1 else 0
          let s := (((s.wr rDMC_SPEED d.rate).wr rDMC_RANKS d.ranks).wr rDMC_X16 (bit d.x16)).wr rDMC_D32G (bit d.d32g)
          let s := ((s.wr rDMC_SIZE_GIB (4 * gib)).wr rDMC_WCRC (bit d.wcrc)).wr rDMC_CAPAR (bit d.capar)
          let s := s.wr rDMC_HPPR (bit d.hppr)
          if !d.busOk then dramFails s 2
          else
            let s := s.wr rDMC_SELFTEST 1
            let s := s.setDmc { s.dmc with trained := true, filling := true }
            let s := s.setMap { s.map with dramMib := 4096 * gib - 16 }
            let s := pins.foldl (fun s p => if p.1 < 32 then pinFaults s p.1 p.2.1 p.2.2 else s) s
            toPhase s 6

/-- Order of the fill: firmware, map regions, write buffer, then the rest (R380). -/
def fillOrder : List Region :=
  [.firmware, .coarse, .finePool, .zoneMap, .writeBuffer, .delta, .journal, .readBuffer, .tenant, .ledger]

/-- DRAM_FILL: both passes over the next region. `rows` are the failing rows by subchannel * 2 + rank that are remapped,
`ppr` those that hPPR repairs. Beyond 64 remapped rows of a rank start-up fails (R380, R381). -/
def execDramFill (rows : Tbl Nat) (ppr : Nat) (s : State) : Out :=
  .next <|
    match fillOrder.find? fun r => !s.dmc.usable.contains r with
    | none => s
    | some r =>
      if !s.dmc.filling then s
      else
        let n := (rows.map Prod.snd).sum + ppr
        let remaps := rows.foldl (fun (t : Tbl Nat) p => Tbl.put t p.1 (Tbl.getD t p.1 0 + p.2) 0) s.dmc.remaps
        let s := (s.bump rDMC_PPR ppr).setDmc { s.dmc with remaps := remaps }
        let s := s.wr rDMC_REMAPPED (min 255 (remaps.map Prod.snd).sum)
        let s := (List.range n).foldl (fun s _ => (s.ev eDMC_REMAP).raise lDMC_ROW_REMAP none []) s
        if remaps.any fun p => decide (p.2 > 64) then dramFails s 3
        else
          let usable := s.dmc.usable ++ [r]
          let done := decide (usable.length = fillOrder.length)
          let s := s.setDmc { s.dmc with usable := usable, filling := !done }
          if done then s.wr rDMC_SELFTEST 2 else s

/-! ## Phase 6: flash discovery (R200, R202, R237-R241, R485) -/

/-- Channels of group `g`. -/
def groupChannels (g : Nat) : List Nat := (List.range 8).map (8 * g + ·)

/-- Rates of the ladder from RATE_CAP of the channel down, in MT/s (R238). -/
def rateLadder (s : State) (nn : Nat) : List Nat :=
  ((List.range 9).map (4000 - 200 * ·)).filter fun r => decide (r ≤ 100 * s.rdAt rFCH_RATE_CAP nn 0)

/-- A die of the kinds that R3 names: 1 to 4 Tibit of native cells, TLC or QLC, 4 to 6 planes, a 16 KiB page with at least
2,048 B spare. -/
def dieKind (x : DieFound) : Bool :=
  let g := x.geom
  let tibit := g.blocks * g.planes * g.wls * g.bits * 2 ^ 17 / 2 ^ 40
  decide (1 ≤ tibit ∧ tibit ≤ 4) && decide (g.bits = 3 ∨ g.bits = 4) && decide (4 ≤ g.planes ∧ g.planes ≤ 6) &&
    decide (x.dataBytes = 16384 ∧ x.spareBytes ≥ 2048)

/-- The profile of the image that matches a die by its Read ID bytes and its parameter-page revision (R202). -/
def profileOf (s : State) (x : DieFound) : Option Profile :=
  if dieKind x then s.bot.cfg.profiles.find? fun p => p.readId == x.readId && p.revision == x.revision else none

/-- Bounds of the six steps of a die's bring-up in us (R237). -/
def stepBounds : List Nat := [1000, 400, 1200, 1000, 800, 200]

/-- A die completed each step within its bound. -/
def stepsOk (x : DieFound) : Bool :=
  x.times.length == 6 && (x.times.zip stepBounds).all fun p => decide (p.1 ≤ p.2)

/-- The highest ladder rate, at most `r`, at which a die keeps 0.30 UI of margin (R238). -/
def passesAt (s : State) (nn r : Nat) (m : Margins) : Option Nat :=
  (rateLadder s nn).find? fun q => decide (q ≤ r) && m.any fun p => p.1 == q && decide (p.2 ≥ 30)

/-- A die of a channel with data interface `iface` is brought up from rate `r` on: it serves when it matches a profile of
that interface, completed its steps and passes a rate, behind sound pins; the rate that it leaves for the next die (R200,
R202, R237, R238). -/
def bringUp (s : State) (iface r d : Nat) (x : DieFound) (m : Margins) : State × Nat :=
  let c := s.chan (chanOf d)
  let p := profileOf s x
  let fits := (p.any fun p => p.iface == iface) && stepsOk x && !c.pinBad && !c.ceBad.getLsbD (diePos d / 4)
  let pass := if fits then passesAt s (chanOf d) r m else none
  (s.updDie d fun y =>
    { y with present := true, service := pass.isSome, uid := x.uid, geom := x.geom, spare := x.spareBytes, profile := p.getD Profile.zero,
             thresh := 0, trainedAt := s.tbs.clk / 1000000, trainTemp := y.temp }, pass.getD r)

/-- Chip enables of a channel behind which the roster expects dies but none answers are open (R240). -/
def openEnables (s : State) (nn : Nat) (found : Tbl DieFound) : BitVec 22 :=
  (List.range 8).foldl (fun (b : BitVec 22) k =>
    let at_ (d : Nat) : Bool := chanOf d == nn && diePos d / 4 == k
    if (s.nor.roster.entries.any fun p => p.2.state != 0 && at_ p.1) && !(found.any fun p => at_ p.1)
    then b ||| (1 <<< (14 + k)) else b) 0

/-- One channel comes up: its pin test, its dies in position order at the interface of the lowest present one, the opens that
their training shows, and its rate, the highest that every die in service passes (R200, R237, R238, R240). -/
def channelUp (s : State) (nn : Nat) (found : Tbl DieFound) (pins : BitVec 22 × BitVec 22)
    (margins : Tbl Margins) : State :=
  let mine := sortBy Prod.fst (found.filter fun (p : Nat × DieFound) => chanOf p.1 == nn)
  let s := if pins.1 = 0 then s else pinFaults s nn pins.1 (BitVec.ofNat 22 (s.rdAt rFCH_PIN_OPEN nn 0))
  let iface := ((mine.head?.bind fun p => profileOf s p.2).map Profile.iface).getD 0
  let cap := 100 * s.rdAt rFCH_RATE_CAP nn 0
  let (s, rate) := mine.foldl (fun (a : State × Nat) p =>
    bringUp a.1 iface a.2 p.1 p.2 (Tbl.getD margins p.1 [])) (s, cap)
  let serves := mine.any fun p => (s.die p.1).service
  let s := s.updChan nn fun c => { c with inService := serves && !c.pinBad, rate := if serves then rate else 0,
                                          iface := if serves then iface else 0 }
  let s := if serves then s.evCh nn eFCH_TRAIN_DONE else s
  let o := pins.2 ||| openEnables s nn found
  let short := BitVec.ofNat 22 (s.rdAt rFCH_PIN_SHORT nn 0)
  if o = 0 then s else pinFaults s nn short (o ||| BitVec.ofNat 22 (s.rdAt rFCH_PIN_OPEN nn 0))

/-- FLASH_GROUP_START: the next group's eight channels come up, 20 ms after its FPWR_EN rose; the next group's FPWR_EN
rises. `found` gives what answers, `pins` what the pin test finds shorted and which data pins never toggle by channel,
`margins` the timing margins of the dies in hundredths of a UI by rate. After group 3 start-up goes on to phase 7, or
stops without a channel in service (R237-R240, R485, R493). -/
def execFlashGroupStart (found : Tbl DieFound) (pins : Tbl (BitVec 22 × BitVec 22)) (margins : Tbl Margins)
    (s : State) : Out :=
  .next <|
    if s.bot.phase ≠ 6 ∨ s.tbs.clk < s.bot.groupClk + 20000000 then s
    else
      let g := s.bot.group
      let s := (groupChannels g).foldl (fun s nn =>
        channelUp s nn found (Tbl.getD pins nn (0, 0)) margins) s
      let s := (s.setPins { s.pins with fpwrEn := s.pins.fpwrEn ||| (1 <<< (g + 1)) }).setPar { s.par with lostArm := [] }
      let s := s.setBot { s.bot with group := g + 1, groupClk := s.tbs.clk }
      if g < 3 then s
      else if s.fch.chans.any fun p => p.2.inService then toPhase s 7
      else stopStartup s 6 0

/-! ## Phase 7: the die roster (R142, R488, R489) -/

/-- The geometry registers (R142). -/
def setGeometry (s : State) (g : Geom) (pslc : Nat) : State :=
  let blocks := g.blocks - pslc
  let pu := g.bits * g.planes * 4
  let s := ((s.wr rMAP_BLOCKS blocks).wr rMAP_WLS g.wls).wr rMAP_PLANES g.planes
  ((s.wr rMAP_BITS g.bits).wr rMAP_PU_GRAN pu).wr rMAP_SLOTS_DIE (blocks * g.wls * pu)

/-- The pSLC area of the profile of the lowest-numbered die that serves. -/
def pslcSize (s : State) : Nat :=
  ((s.fch.dies.find? fun p => p.2.service).map fun p => p.2.profile.pslc).getD 0

/-- The roster is written. -/
def State.setRoster (s : State) (r : Roster) : State := s.setNor (s.nor.putRoster r)

/-- An entry of the roster that the check is about to write. -/
def setEntry (s : State) (d : Nat) (e : RosterEntry) : State :=
  s.setNor { s.nor with roster := { s.nor.roster with entries := Tbl.set s.nor.roster.entries d e } }

/-- A die is taken out before it serves: its ring is empty and no record is written for it. -/
def benchDie (s : State) (d : Nat) : State := s.updDie d fun y => { y with service := false }

/-- The dies out of service by the roster, oldest change first. -/
def lostByRoster (s : State) : List Nat :=
  (sortBy (fun p : Nat × RosterEntry => p.2.changed) (s.nor.roster.entries.filter fun p => p.2.state == 2)).map Prod.fst

/-- One roster entry against what was found (R489). -/
def checkEntry (s : State) (d : Nat) (e : RosterEntry) : State :=
  let y := s.die d
  let fits := s.nor.roster.geom = some y.geom
  let foreign := y.present && decide (y.uid ≠ e.uid)
  if e.state = 0 then benchDie s d
  else if foreign then
    let s := (benchDie s d).setBot { s.bot with foreign := s.bot.foreign + 1 }
    let s := (s.ev eBOT_DIE_FOREIGN).raise lBOT_DIE_FOREIGN none [p2 d]
    if e.state = 1 then s.setPar { s.par with lostArm := s.par.lostArm ++ [d] } else s
  else if e.state = 1 then
    if y.service ∧ fits then s
    else
      let s := (benchDie s d).setBot { s.bot with missing := s.bot.missing + 1 }
      let s := setEntry s d { e with state := 2, changed := s.now }
      let s := s.setPar { s.par with lostArm := s.par.lostArm ++ [d] }
      (s.ev eBOT_DIE_MISSING).raise lBOT_DIE_MISSING none [p2 d]
  else if y.service ∧ fits then setEntry s d { e with state := 1, changed := s.now }
  else benchDie s d

/-- A die number without an entry is not used. -/
def benchUnlisted (s : State) : State :=
  (s.fch.dies.map Prod.fst).foldl (fun s d =>
    if (Tbl.get s.nor.roster.entries d).isSome then s else benchDie s d) s

/-- Dies in service, and the channels that are left with none. -/
def countService (s : State) : State :=
  let s := (s.fch.chans.map Prod.fst).foldl (fun s nn =>
    if s.fch.dies.any fun p => chanOf p.1 == nn && p.2.service then s
    else s.updChan nn fun c => { c with inService := false }) s
  s.setBot { s.bot with
    inService := (s.fch.dies.filter fun p => p.2.service).length,
    expected := (s.nor.roster.entries.filter fun p => p.2.state != 0).length }

/-- ROSTER_CHECK: phase 7 on a drive with a roster; an uninitialised drive takes INITIALISATION in its place (R489,
R490). Without a die in service start-up stops. -/
def execRosterCheck (s : State) : Out :=
  .next <|
    if s.bot.phase ≠ 7 ∨ !s.nor.roster.valid then s
    else
      let s := s.setBot { s.bot with missing := 0, foreign := 0 }
      let before := s.nor.roster
      let s : State := before.entries.foldl (fun s p => checkEntry s p.1 p.2) s
      let s := if s.nor.roster = before then s
        else s.setNor (({ s.nor with roster := before } : Nor).putRoster s.nor.roster)
      let s := countService (benchUnlisted s)
      let lost := lostByRoster s
      let s := s.setPar { s.par with lost := lost.filter fun d => !s.par.lostArm.contains d }
      let s : State := match s.nor.roster.geom with
        | some g => setGeometry s g (pslcSize s)
        | none => s
      if s.bot.inService = 0 then stopStartup s 7 0
      else
        let s : State := if lost.isEmpty ∧ s.par.lostArm.isEmpty then s else s.setStp { s.stp with degraded := true }
        toPhase s 8

/-- BOT_SERIAL0_READ: latches SERIAL1-SERIAL3 for the path (R499). -/
def execBotSerial0Read (p : Path) (s : State) : Out :=
  .next <|
    let w (k : Nat) : Dword := BitVec.ofNat 32 (s.fuses.serial.toNat / 2 ^ (32 * k))
    let s := (List.range 3).foldl (fun s k =>
      s.latch p rBOT_SERIALk.blk (rBOT_SERIALk.off + 4 * (k + 1)) (w (k + 1))) s
    s.answer (.word (w 0))

/-- THM_SENSE_BAD_LO_READ: latches SENSE_BAD_HI for the path (R475). -/
def execThmSenseBadLoRead (p : Path) (s : State) : Out :=
  .next <|
    let bad := (List.range 64).foldl (fun n c => if (s.hk c).broken then n + 2 ^ c else n) 0
    readWide s p rTHM_SENSE_BAD_HI bad

end Sys2Proof.Machine
end

