-- ==== Sys2Proof/Machine/Replay.lean ====
section
/-! DEFINITION. The last phases of start-up: initialisation, intent scan, journal load, replay, NVMe ready (16 R486,
R489-R492, R498; 10 R301-R304, R308, R312, R327; 05 R168; 06 R195, R196; 12 R376; 13 R399; 07 R231). -/

namespace Sys2Proof.Machine

open Sys2Proof

/-! ## Choice of the layout (R301-R304) -/

/-- Channels of the dies given, in channel order. -/
def channelsOf (dies : List Nat) : List Nat := (List.range 32).filter fun c => dies.any fun d => chanOf d == c

/-- The channel of class `c` with most ungrouped dies, the lowest on a tie (R303). -/
def channelOfClass (chs free : List Nat) (c : Nat) : Option Nat :=
  mostBy ((chs.zipIdx.filter fun x => x.2 % 16 == c && free.any fun d => chanOf d == x.1).map Prod.fst)
    fun h => (free.filter fun d => chanOf d == h).length

/-- The last `n` classes of one group, and the dies left ungrouped; none where a class has no die left (R303). -/
def oneGroup (chs : List Nat) : Nat → List Nat → Option (List Nat × List Nat)
  | 0, free => some ([], free)
  | n + 1, free =>
    match channelOfClass chs free (15 - n) with
    | none => none
    | some h => match free.find? fun d => chanOf d == h with
      | none => none
      | some d => (oneGroup chs n (free.filter (· != d))).map fun x => (d :: x.1, x.2)

/-- make_groups of R303. -/
def makeGroups (chs : List Nat) : Nat → List Nat → List (List Nat)
  | 0, _ => []
  | n + 1, free => match oneGroup chs 16 free with
    | none => []
    | some (g, rest) => g :: makeGroups chs n rest

/-- Spare blocks of SPARE_PCT percent, rounded up. -/
def sparePart (blocks pct : Nat) : Nat := (blocks * pct + 99) / 100

/-- Fixed groups of 16 to 256 dies on at least 16 channels (R301, R303). -/
def groupLayout (dies : List Nat) (blocks pct : Nat) : Option Layout :=
  let chs := channelsOf dies
  let gs := makeGroups chs (dies.length / 16) dies
  let sp := sparePart blocks pct
  if chs.length < 16 ∨ gs.isEmpty ∨ sp ≥ blocks then none
  else some { declustered := false, k := 16, d := 14, f := 0, gen := gs.length, spans := gs.length * (blocks - sp),
              spareDie := sp, spareBlocks := sp,
              groups := gs.zipIdx.flatMap fun g => g.1.zipIdx.map fun d => (g.2 * 32 + d.2, d.1), dies := dies }

/-- The declustered layout: 16 or 32 dies on each of 32 channels (R301, R304). -/
def declusteredLayout (dies : List Nat) (blocks pct : Nat) : Option Layout :=
  let ns := (List.range 32).map fun c => (dies.filter fun d => chanOf d == c).length
  let f := if ns.any (· == 16) then 2 else 1
  let g := (blocks - sparePart blocks pct) / (32 * f)
  -- the smallest spare over the dies is that of the channels with f dies' worth of blocks in use
  let spare := blocks - 32 * f * g
  if !(ns.all fun n => n == 16 || n == 32) ∨ g = 0 then none
  else some { declustered := true, k := 32, d := 30, f := f, gen := g, spans := 1024 * g, spareDie := spare,
              spareBlocks := 32 * f * g, groups := [], dies := dies }

/-- The layout for the dies in service, refused for any other population (R301). -/
def chooseLayout (dies : List Nat) (blocks pct : Nat) : Option Layout :=
  let n := dies.length
  if n < 16 then none
  else if n ≤ 256 then groupLayout dies blocks pct
  else if n ≤ 1024 then declusteredLayout dies blocks pct
  else none

/-- Phase class of a die: its channel, or the rank of its channel mod 16 (R303, R304). -/
def classOf (l : Layout) (d : Nat) : Nat :=
  if l.declustered then chanOf d else ((channelsOf l.dies).findIdx (· == chanOf d)) % 16

/-! ## Initialisation (R490) -/

/-- Free spare blocks of every die of the layout before any is taken: the spare total (R348). -/
def spareAtStart (s : State) (l : Layout) : Nat :=
  (l.dies.map fun d => nativeBlocks s - spareFrom s l d).sum

/-- The records of one erase of a block: its intent and its done record. -/
def eraseRecords (s : State) (d b reason : Nat) : State :=
  let k := eraseCount s d b + 1
  let r : IntentRec :=
    { done := false, flags := if reason = 0 then 0 else if reason = 4 then 5 else 1, block := b, recSeq := 0,
      eraseCount := k, reason := reason, seconds := s.now, pcycle := s.tbs.pcycle }
  let s := writeIntent (writeIntent s d r 0) d { r with done := true } 0
  s.setRcl { s.rcl with counts := Tbl.set s.rcl.counts (blockKey d b) k }

/-- One erase of initialisation; an intent block that it fills is erased after it (R226). -/
def firstErase (s : State) (d b reason : Nat) : State :=
  let s := eraseRecords s d b reason
  match s.fch.intentErase.find? fun q => q.1 == d with
  | some q => eraseRecords (s.setFch { s.fch with intentErase := s.fch.intentErase.filter (· != q) }) d q.2.1 4
  | none => s

/-- The pSLC blocks of a die that erase without failure, lowest first. -/
def goodPslc (s : State) (bad : List Nat) (d : Nat) : List Nat :=
  ((List.range (s.die d).profile.pslc).map (nativeBlocks s + ·)).filter fun b => !bad.contains (blockKey d b)

/-- Intent blocks, dump reserve and, on a journal die, the journal blocks of one die (R226, R308, R490 step 2). -/
def initDie (s : State) (bad jdies : List Nat) (d : Nat) : State :=
  let good := goodPslc s bad d
  let n := s.rd rHLD_RESERVE_BLOCKS
  let res := (good.drop 2).take n
  let jb := if jdies.contains d then (good.drop (2 + n)).take 2 else []
  let s := s.updDie d fun y =>
    { y with intentAct := good.getD 0 0, intentStby := good.getD 1 0, intentFree := wordLines s, recSeq := 0,
             records := [] }
  let s := (good.take 2).foldl (fun s b => firstErase s d b 4) s
  let s := res.foldl (fun s b => firstErase s d b 2) s
  let s := jb.foldl (fun s b => firstErase s d b 3) s
  let keys := res.map (blockKey d)
  s.setHld { s.hld with reserve := s.hld.reserve ++ keys, erased := s.hld.erased ++ keys }

/-- Journal die of mirror `m`: the lowest-numbered die on the channel of rank ⌊m × N ÷ 3⌋ (R308). -/
def journalDie (dies : List Nat) (m : Nat) : Nat :=
  let chs := channelsOf dies
  let c := chs.getD (m * chs.length / 3) 0
  (dies.find? fun d => chanOf d == c).getD 0

/-- A mirror on its die, its active block holding the first root. -/
def firstMirror (s : State) (bad : List Nat) (dies : List Nat) (m : Nat) : Mirror :=
  let d := journalDie dies m
  let at_ := (goodPslc s bad d).drop (2 + s.rd rHLD_RESERVE_BLOCKS)
  { die := d, service := true, rehoming := false, act := at_.getD 0 0, stby := at_.getD 1 0, upTo := 0, hasRoot := true,
    fill := 1, fails := 0 }

/-- Native blocks that fail their first erase are retired; the member of a span takes a substitute (R345, R490). -/
def retireBad (s : State) (l : Layout) (bad : List Nat) : State :=
  bad.foldl (fun s k =>
    let d := k / 16384
    let b := k % 16384
    if b ≥ nativeBlocks s then s.setRcl { s.rcl with retired := k :: s.rcl.retired }
    else
      let at_ := spanOf s d b
      let s := retireBlock s d b CStat.eraseFail.ctorIdx
      match at_ with
      | none => s
      | some (n, c) => match takeSubst s l n c 0 with
        | some s => s
        | none => retireSpan s n) s

/-- The spans: the first PADDOCK_LOW and 256 are ERASED, every other one RELEASED (R490 step 4). -/
def initSpans (s : State) (l : Layout) : State :=
  let n := lowSpans s + 256
  let live := (List.range l.spans).filter fun m => (s.span m).phase != .retired
  let s := (live.take n).foldl (fun s m =>
    (members s l m).foldl (fun s p => firstErase s p.1 p.2 0) s) s
  (live.drop n).foldl (fun s m => s.updSpan m fun x => { x with phase := .released }) s

/-- Capacity reserve in spans (R349). -/
def capacityReserve (s : State) (l : Layout) : Nat :=
  max ((l.spans * s.rd rRCL_OP_PCT + 99) / 100) (floorSpans s + 256 + (l.spans + 99) / 100)

/-- The root of the empty checkpoint. -/
def emptyRoot (s : State) : Root :=
  { map := { ckptNum := 1, seqHigh := 0, seconds := s.now, seqs := [], guids := [], coarse := [], fine := [],
             chunks := [], zones := [], dir := [] },
    spans := s.par.spans, proxies := [], rows := [], retired := s.rcl.retired, spareTaken := s.rcl.spareTaken,
    retiredSpans := s.rcl.retiredSpans }

/-- The roster of the dies found (R488, R490 step 6). -/
def newRoster (s : State) (g : Geom) (dies : List Nat) : Roster :=
  let entry (d : Nat) : Nat × RosterEntry :=
    let y := s.die d
    (d, { uid := y.uid, profile := s.bot.cfg.profiles.findIdx (· == y.profile), state := 1, changed := s.now })
  { valid := true, readOnly := false, clean := false, generation := s.nor.roster.generation + 1,
    initSeconds := s.now, geom := some g, entries := dies.map entry }

/-- Stores that initialisation writes empty: key store, function table, ledger ring; and the counts (R490 step 5). -/
def emptyStores (s : State) : State :=
  let table := Tbl.map (s.nor.fnTable.filter fun p => p.1 == 0) fun _ e => { e with spaces := [] }
  let s := s.setNor { s.nor with keys := [], keysOld := [], sanitize := false, fnTable := table,
                                   fnOld := { table := table, mig := s.nor.migSerial, sanitize := false } }
  let s := s.setFns (Tbl.map (s.fns.filter fun (p : Nat × Fn) => p.1 == 0) fun _ (x : Fn) => { x with spaces := [] })
  let s := s.setMap { s.map with spaces := [], fdp := false }
  let s := s.setEvl { s.evl with ring := [], torn := [], next := 0, erasing := none, programming := none, mirror := [],
                                 wmark := 1, wmarkDue := none }
  s.setTbs { s.tbs with hours := 0, hourSec := 0, hourNs := 0, pcycle := 1 }

/-- Every die found enters the drive, the spans are formed and the first checkpoint is adopted (R490). -/
def initialise (s : State) (g : Geom) (l : Layout) (bad : List Nat) : State :=
  let s := emptyStores s
  let s := l.dies.foldl (fun s d => s.updDie d fun y => { y with phaseClass := classOf l d }) s
  let jdies := (List.range 3).map (journalDie l.dies)
  let s := s.setPar { Par.reset with layout := some l, mirrors := (List.range 3).map (firstMirror s bad l.dies) }
  let s := s.setRcl { Rcl.reset with spareTotal := spareAtStart s l }
  let s := s.setHld { s.hld with reserve := [], erased := [], image := none }
  let s := l.dies.foldl (fun s d => initDie s bad jdies d) s
  let s := initSpans (retireBad s l bad) l
  let user := (l.spans - capacityReserve s l) * spanUser s
  let root := emptyRoot s
  let s := s.setPar { s.par with root := some root, journal := [] }
  let s := s.setRcl { s.rcl with userGran := user }
  let s := s.setMap { s.map with ckptNum := 1 }
  let s := s.setNor { s.nor with userGran := user }
  s.setRoster (newRoster s g l.dies)

/-- INITIALISATION: at phase 7 without a valid roster. `bad` are the blocks, by die * 2^14 + block, that fail their first
erase. A die whose geometry is not that of the lowest-numbered one serves no more. When the population is refused
start-up stops (R142, R301, R490). -/
def execInitialisation (bad : List Nat) (s : State) : Out :=
  .next <|
    if s.bot.phase ≠ 7 ∨ s.nor.roster.valid then s
    else match s.fch.dies.find? fun p => p.2.service with
      | none => stopStartup s 7 0
      | some (_, y) =>
        let g := y.geom
        let s := (s.fch.dies.filter fun p => p.2.service && decide (p.2.geom ≠ g)).foldl (fun s p => benchDie s p.1) s
        let s := setGeometry s g (pslcSize s)
        let dies := (s.fch.dies.filter fun p => p.2.service).map Prod.fst
        match chooseLayout dies (nativeBlocks s) (s.rd rPAR_SPARE_PCT) with
        | none => stopStartup (s.raise lPAR_LAYOUT_REFUSED none []) 7 1
        | some l =>
          let s := countService (initialise s g l bad)
          let s := s.setBot { s.bot with path := 3, initialised := true }
          resizeFine (toPhase ((s.ev eBOT_INIT).raise lBOT_INIT none []) 11)

/-! ## Phase 8: intent scan (R231) -/

/-- The newest valid record of each block of die `d`, from its two intent blocks' pages (R231). -/
def newestRecords (d : Nat) (y : Die) : List IntentRec :=
  let rs := y.records.filterMap fun p => readIntent d p.data
  rs.filter fun r => !(rs.any fun q => q.block == r.block && decide (q.recSeq > r.recSeq))

/-- A block whose newest record is an intent is re-erased before any other use. -/
def scanDie (s : State) (d : Nat) : State :=
  let rs := newestRecords d (s.die d)
  let s := rs.foldl (fun s r =>
    if r.done then s.setRcl { s.rcl with counts := Tbl.set s.rcl.counts (blockKey d r.block) r.eraseCount } else s) s
  (rs.filter fun r => !r.done).foldl (fun s r =>
    let s := s.setFch { s.fch with
      intentErase := (s.fch.intentErase.filter fun q => !(q.1 == d && q.2.1 == r.block)) ++
        [(d, r.block, r.eraseCount, 5)] }
    let s := (s.evCh (chanOf d) eFCH_REERASE).bumpAt rFCH_REERASE (chanOf d) 0 1
    s.raiseAt (64 + chanOf d) lFCH_REERASE none [p2 d, p4 r.block] (some (diePos d))) s

/-- INTENT_SCAN: phase 8. -/
def execIntentScan (s : State) : Out :=
  .next <|
    if s.bot.phase ≠ 8 then s
    else
      let ds := (s.fch.dies.filter fun p => p.2.service).map Prod.fst
      toPhase (ds.foldl scanDie s) 9

/-! ## Phase 9: journal and root (R168, R312) -/

/-- Bytes of a record's body as a number. -/
def bodyField (r : JRec) (off n : Nat) : Nat := r.body.toNat / 256 ^ off % 256 ^ n

/-- What the journal rebuilds. -/
structure Book where
  spans : Tbl Span
  proxies : List Proxy
  rows : List Row
  taken : List Nat
  retired : Nat
  deriving DecidableEq, Repr

def Book.span (b : Book) (n : Nat) : Span := Tbl.getD b.spans n Span.erased

def Book.setSpan (b : Book) (n : Nat) (x : Span) : Book := { b with spans := Tbl.put b.spans n x Span.erased }

def Book.updRow (b : Book) (r : JRec) (g : Row → Row) : Book :=
  { b with rows := b.rows.map fun q => if q.stream = r.stream ∧ q.serial = r.serial then g q else q }

/-- A row's state 4: it is no longer open, and its lost members are kept with its span (R310). -/
def Book.closeRow (b : Book) (r : JRec) (done lost : BitVec 32) : Book :=
  let gone := lost &&& ~~~ done
  let b := { b with rows := b.rows.filter fun q => !(q.stream == r.stream && q.serial == r.serial) }
  if gone = 0 then b
  else
    let x := b.span r.span
    b.setSpan r.span { x with lost := Tbl.set x.lost r.row gone }

/-- A span's state from its record; `old` gives the members of a spare span. -/
def Book.spanState (b : Book) (r : JRec) (spans : Nat) (old : Span) : Book :=
  let x := b.span r.span
  let secs := bodyField r 1 8
  match bodyField r 0 1 with
  | 0 =>
    let b := { b with proxies := b.proxies.filter fun q => q.span != r.span }
    if r.span ≥ spans then
      let keys := x.spareMembers.map fun m => blockKey m.1 m.2
      { b with taken := b.taken.filter fun k => !keys.contains k }.setSpan r.span Span.erased
    else b.setSpan r.span { Span.erased with stream := r.stream, subst := x.subst, groomedAt := x.groomedAt }
  | 1 =>
    let ms := if r.span ≥ spans then old.spareMembers else []
    let b := { b with taken := (ms.map fun (m : Nat × Nat) => blockKey m.1 m.2) ++ b.taken }
    b.setSpan r.span { x with phase := .open, stream := r.stream, lost := [], spareMembers := ms,
                              firstAt := old.firstAt, firstHours := old.firstHours }
  | 2 => b.setSpan r.span { x with phase := .closed, closedAt := secs, closedHours := old.closedHours }
  | _ => { b with retired := b.retired + 1 }.setSpan r.span { x with phase := .retired, lost := [] }

/-- One journal record applies (R310, R312). -/
def Book.apply (b : Book) (spans : Nat) (old : Tbl Span) (r : JRec) : Book :=
  match r.typ with
  | 1 => { b with rows := (b.rows.filter fun q => !(q.stream == r.stream && q.serial == r.serial)) ++
             [{ stream := r.stream, serial := r.serial, span := r.span, row := r.row, state := 1, done := 0,
                lost := BitVec.ofNat 32 (bodyField r 0 4) }] }
  | 2 =>
    let done := BitVec.ofNat 32 (bodyField r 1 4)
    let lost := BitVec.ofNat 32 (bodyField r 5 4)
    if bodyField r 0 1 = 4 then b.closeRow r done lost
    else b.updRow r fun q => { q with state := bodyField r 0 1, done := done, lost := lost }
  | 4 =>
    let p : Proxy :=
      { span := r.span, row := r.row, pos := bodyField r 5 1, kind := bodyField r 6 1, mga := bodyField r 0 5,
        void := BitVec.ofNat 96 (bodyField r 8 12), zero := BitVec.ofNat 32 (bodyField r 20 4), serving := true }
    { b with proxies := (b.proxies.filter fun q => !(q.span == p.span && q.row == p.row && q.pos == p.pos)) ++ [p] }
  | 5 => { b with proxies := b.proxies.map fun q =>
             if q.span = r.span ∧ q.row = r.row ∧ q.pos = bodyField r 0 1 then { q with mga := bodyField r 6 5 } else q }
  | 6 =>
    let x := b.span r.span
    let m := (bodyField r 1 2, bodyField r 3 2)
    { b with taken := blockKey m.1 m.2 :: b.taken }.setSpan r.span
      { x with subst := Tbl.set x.subst (bodyField r 0 1) m }
  | 7 => b.spanState r spans (Tbl.getD old r.span Span.erased)
  | 11 =>
    let x := b.span r.span
    b.setSpan r.span { x with groomedAt := bodyField r 4 8 }
  | _ => b

/-- A span as start-up takes it over: nothing of a reclaim or an erase in progress is kept. -/
def restartSpan (x : Span) : Span :=
  let ph : Phase := match x.phase with
    | .victim | .released | .erasing => .closed
    | p => p
  { x with phase := ph, valid := [], erasedMembers := [], startedMembers := [], doneRows := [], rowCopies := [] }

/-- Native blocks that intent, dump or journal use holds. -/
def pslcNative (s : State) : List Nat :=
  let own := s.fch.dies.flatMap fun p => [blockKey p.1 p.2.intentAct, blockKey p.1 p.2.intentStby]
  let jb := s.par.mirrors.flatMap fun m => [blockKey m.die m.act, blockKey m.die m.stby]
  (own ++ s.hld.reserve ++ jb).filter fun k => decide (k % 16384 < nativeBlocks s)

/-- The root that two journal mirrors in service hold: a pending one is then adopted (R166, R168). -/
def chosenRoot (s : State) : Option Root :=
  let on := s.par.mirrors.filter fun m => m.service && (s.die m.die).service
  if on.length < 2 then none
  else if s.par.rootPending.isSome ∧ (on.filter fun m => m.hasRoot).length ≥ 2 then s.par.rootPending
  else s.par.root

/-- Span table, proxies and open rows from the root and the records since (R312). -/
def loadBook (s : State) (l : Layout) (r : Root) : State :=
  let recs := (sinceRoot s.par.journal).reverse
  let b0 : Book := { spans := r.spans, proxies := r.proxies.filter Proxy.serving, rows := r.rows, taken := r.spareTaken,
                     retired := r.retiredSpans }
  let b := recs.foldl (fun b x => b.apply l.spans s.par.spans x) b0
  let s := s.setPar { s.par with
    spans := Tbl.map b.spans (fun _ x => restartSpan x), proxies := b.proxies, rows := b.rows, journal := recs.reverse,
    root := some r, rootPending := none, mirrors := s.par.mirrors.map fun m => { m with hasRoot := false } }
  s.setRcl { s.rcl with spareTaken := (b.taken ++ pslcNative s).eraseDups, retiredSpans := b.retired }

/-- The map of a root (R168). A namespace that the root does not know, by its index and NGUID, has none of its pages
loaded (R169) and begins above its high-water mark. -/
def loadMap (s : State) (r : MapRoot) : State :=
  let live (k : Nat) : Bool := (s.space k).any fun sp => Tbl.get r.guids k == some sp.nguid
  let spaces : Tbl Space := Tbl.map s.map.spaces fun ns sp =>
    let n := if live ns then Tbl.getD r.seqs ns r.seqHigh else r.seqHigh
    { sp with seq := n, wp := decide (n ≥ wseqLast), zones := if live ns then Tbl.getD r.zones ns [] else [] }
  let coarse : Tbl Entry := r.coarse.filter fun p => live (p.1 / 2 ^ 48)
  let fine : Tbl FineUnit := r.fine.filter fun p => live p.2.ns
  let chunks : Tbl Entry := r.chunks.filter fun p => live (p.1 / 2 ^ 48)
  resizeFine (s.setMap { s.map with
    spaces := spaces, coarse := coarse, fine := fine, chunks := chunks, seqHigh := r.seqHigh, ckptNum := r.ckptNum,
    active := [], sealed := [], dir := r.dir })

/-- JOURNAL_LOAD: phase 9, once the fill has made the map regions usable; without a root on two mirrors start-up stops
(R168, R312, R483, R493). -/
def execJournalLoad (s : State) : Out :=
  .next <|
    let usable := [Region.coarse, .finePool, .zoneMap].all fun r => s.dmc.usable.contains r
    if s.bot.phase ≠ 9 ∨ !usable then s
    else match s.par.layout, chosenRoot s with
      | some l, some r => toPhase (loadMap (loadBook s l r) r.map) 10
      | _, _ => stopStartup s 9 0

/-! ## Phase 10 after a dump (R168, R195, R376, R399, R492) -/

/-- Fine units of a unit or chunk return to the pool, `n` from the address of its entry. -/
def dropUnits (s : State) (e : Entry) (n : Nat) : State :=
  if e.kind = .fine then (List.range n).foldl (fun s k => s.freeFine (e.addr + k)) s else s

/-- One delta record applies to the map (R165, R168). -/
def applyDelta (s : State) (d : Delta) : State :=
  match s.space d.ns with
  | none => s
  | some sp =>
    let u := d.lba / 16
    let old := coarseOf s d.ns u
    match d.typ with
    | 0 | 3 =>
      let s := if old = d.entry then s else dropUnits s old 1
      s.setMap { s.map with coarse := Tbl.put s.map.coarse (unitKey d.ns u) d.entry Entry.unmapped }
    | 2 =>
      let s := s.setFineUnit d.entry.addr { ns := d.ns, unit := u, age := 0, zchunk := false, entries := spread old }
      s.setMap { s.map with coarse := Tbl.put s.map.coarse (unitKey d.ns u) d.entry Entry.unmapped }
    | 1 =>
      let at_ : Option (Nat × Nat) := match sp.typ with
        | .conventional => if old.kind = .fine then some (old.addr, d.lba % 16) else none
        | .zoned =>
          let (z, off) := zoneOf sp d.lba
          let e := chunkOf s d.ns z (off / puGran s)
          let p := off % puGran s
          if e.kind = .fine then some (e.addr + p / 16, p % 16) else none
      match at_ with
      | none => s
      | some (f, i) => s.setMap { s.map with fine := Tbl.upd s.map.fine f fun x =>
          { x with age := 0, entries := x.entries.set i d.entry } }
    | 4 =>
      let (z, off) := zoneOf sp d.lba
      let c := off / puGran s
      let s := if chunkOf s d.ns z c = d.entry then s else dropUnits s (chunkOf s d.ns z c) (chunkUnits s)
      let blank : FineUnit :=
        { ns := d.ns, unit := chunkNo s sp z c, age := 0, zchunk := true, entries := List.replicate 16 Entry.unmapped }
      let s := if d.entry.kind = .fine then
          (List.range (chunkUnits s)).foldl (fun s k => s.setFineUnit (d.entry.addr + k) blank) s else s
      s.setMap { s.map with chunks := Tbl.put s.map.chunks (chunkKey d.ns z c) d.entry Entry.unmapped }
    | 5 => s.setSpace d.ns { sp with
        zones := Tbl.put sp.zones (d.lba / max sp.zsze 1) (zoneOfBits d.entry.addr) Zone.empty }
    | _ =>
      let coarse : Tbl Entry := s.map.coarse.filter fun p => p.1 / 2 ^ 48 != d.ns
      let chunks : Tbl Entry := s.map.chunks.filter fun p => p.1 / 2 ^ 48 != d.ns
      let fine : Tbl FineUnit := s.map.fine.filter fun p => p.2.ns != d.ns
      (s.setMap { s.map with coarse := coarse, chunks := chunks, fine := fine }).setSpace d.ns { sp with zones := [] }

/-- A command number that no fetched command has: restored slots belong to no command. -/
def noCmd : Nat := 2 ^ 64

/-- The slots that come back: those whose program has not completed, with no reader (R195). -/
def restoreSlots (s : State) (img : DumpImage) : State :=
  let back : Tbl Slot := img.slots.filter fun p => p.2.mga.isNone && !p.2.dying
  let one (x : Slot) : Slot :=
    { x with readers := 0, cmd := noCmd, keyGen := (s.keySlot (keySlotNs x.ns)).gen, landed := if x.pinned then 1 else 0 }
  s.setWbf { s.wbf with slots := Tbl.map back fun _ x => one x, landings := 1 }

/-- A program unit as it comes back: one of an open row is sent again from its start; its granules were complete before
any Flush to come (R91). -/
def restoreUnit (s : State) (u : Pu) : Pu :=
  let there (i : Nat) : Bool := (Tbl.get s.wbf.slots i).isSome
  let u : Pu := { u with slots := u.slots.map fun o => o.filter there, cov := Tbl.map u.cov fun _ _ => 1 }
  if u.state = .opening ∨ u.state = .waiting ∨ u.state = .done then u else { u with encoded := 0, sent := 0, tries := 0, state := .assembled }

/-- A member whose program ran to its end before the dump has its granules swapped (R195 step 2). -/
def finishSent (s : State) (u : Pu) : State :=
  let ended := (List.range (puGran s)).all fun p => (Tbl.get s.fch.media (u.mga + p)).isSome
  if u.placed ∧ u.state ≠ .done ∧ ended then puDone s u else s

/-- Program units and streams go on from their dumped slices: codewords go out again, without a new fold where they are
folded already (R195). The position of a slot that was left out is pad. Copies and proxies that had not entered a row
were not dumped: their work is done again (R194). -/
def restoreRows (s : State) (img : DumpImage) : State :=
  let there (i : Nat) : Bool := (Tbl.get s.wbf.slots i).isSome
  let pus := (img.pus.filter fun u => u.placed || decide (u.stream < 252)).map (restoreUnit s)
  let targets : Tbl Target := Tbl.map img.targets fun _ t => { t with held := t.held.filter there, idle := 0 }
  let s := s.setWbf { s.wbf with targets := targets, streams := img.streams, pus := pus }
  let stays (p : Proxy) : Bool := p.serving || pus.any fun u => u.proxyOf == some (p.span, p.row, p.pos)
  let s := s.setPar { s.par with proxies := s.par.proxies.filter stays }
  pus.foldl finishSent s

/-- Both halves of the dumped delta log, oldest first; the sealed half is in the root when its checkpoint was adopted
(R166, R168). A checkpoint whose root has not entered the journal starts over. -/
def restoreDeltas (s : State) (img : DumpImage) : State :=
  let rootNum (p : Par) : Nat := (p.root.map fun r => r.map.ckptNum).getD 0
  let adopted := decide (rootNum s.par > rootNum img.par)
  let sealed := if adopted then [] else img.sealed
  let s := (img.active ++ sealed).reverse.foldl applyDelta s
  let spaces : Tbl Space := Tbl.map s.map.spaces fun ns sp =>
    let n := Tbl.getD img.seqs ns sp.seq
    { sp with seq := n, wp := decide (n ≥ wseqLast) }
  let waits := !adopted && img.par.rootPending.isSome
  s.setMap { s.map with
    spaces := spaces, seqHigh := img.seqHigh, active := if waits then img.active else img.active ++ sealed,
    sealed := if waits then sealed else [], ckpt := if waits then .writing else .idle }

/-- The journal's DRAM copy of the dump replaces what the mirrors hold (R312). -/
def restoreJournal (s : State) (img : DumpImage) : State :=
  let p := img.par
  let rootNum (p : Par) : Nat := (p.root.map fun r => r.map.ckptNum).getD 0
  let adopted := decide (rootNum s.par > rootNum p)
  s.setPar { p with
    spans := Tbl.map p.spans (fun _ x => restartSpan x), proxies := p.proxies,
    journal := if adopted then sinceRoot p.journal else p.journal,
    root := if adopted then s.par.root else p.root, rootPending := if adopted then none else p.rootPending,
    mirrors := s.par.mirrors, lost := s.par.lost, lostArm := s.par.lostArm, queue := [], groomSpan := none,
    groomRow := 0, groomWait := [], moveWait := [] }

/-- Logical blocks whose entries name one of the slots, namespace by namespace. -/
def namedBy (s : State) (lost : List Nat) : List (Nat × Nat) :=
  (liveSpaces s).flatMap fun (p : Nat × Space) => match p.2.typ with
    | .conventional =>
      let us := (s.map.coarse.filter fun (q : Nat × Entry) => q.1 / 2 ^ 48 == p.1 &&
        (q.2.kind == .buffer || q.2.kind == .fine)).map fun (q : Nat × Entry) => q.1 % 2 ^ 48
      us.flatMap fun u => ((List.range 16).filter fun i =>
        let e := blockEntry s p.1 (16 * u + i)
        e.kind == .buffer && lost.contains e.addr).map fun i => (p.1, 16 * u + i)
    | .zoned =>
      let cs := (s.map.chunks.filter fun (q : Nat × Entry) => q.1 / 2 ^ 48 == p.1 &&
        (q.2.kind == .buffer || q.2.kind == .fine)).map fun (q : Nat × Entry) => q.1 % 2 ^ 48
      cs.flatMap fun k => ((List.range (puGran s)).filter fun i =>
        let e := blockEntry s p.1 (k / 2 ^ 24 * p.2.zsze + k % 2 ^ 24 * puGran s + i)
        e.kind == .buffer && lost.contains e.addr).map fun i =>
          (p.1, k / 2 ^ 24 * p.2.zsze + k % 2 ^ 24 * puGran s + i)

/-- A zone chunk becomes FINE with the entries that its blocks have now. -/
def refineChunk (s : State) (ns : Nat) (sp : Space) (z c : Nat) : State :=
  let e := chunkOf s ns z c
  if e.kind = .fine then s
  else
    let n := chunkUnits s
    let f := freeRun s.map.fine n 0
    let ent (p : Nat) : Entry := blockEntry s ns (chunkLba s sp z c + p)
    let unit (k : Nat) : FineUnit :=
      { ns := ns, unit := chunkNo s sp z c, age := 0, zchunk := true,
        entries := (List.range 16).map fun i => if 16 * k + i < puGran s then ent (16 * k + i) else Entry.unmapped }
    let units := (List.range n).map fun k => (f + k, unit k)
    -- an open program unit gives its slots to the target's chain
    let s := match recordOf s e.addr with
      | some u =>
        if e.kind = .buffer ∧ u.state = .opening then
          let s := s.setWbf { s.wbf with pus := s.wbf.pus.filter fun q => q.recNo != u.recNo }
          (u.slots.filterMap id).foldl (fun s i => pushHeld s u.target i) s
        else s
      | none => s
    let s := units.foldl (fun s x => s.setFineUnit x.1 x.2) s
    let s := setChunk s ns z c ⟨.fine, f⟩ (chunkLba s sp z c)
    (List.range (puGran s)).foldl (fun s p =>
      s.delta ns (chunkLba s sp z c + p) 1 (fineEntry s (f + p / 16) (p % 16))) s

/-- The entry of one block at start-up. -/
def setOne (s : State) (ns lba : Nat) (e : Entry) : State :=
  match s.space ns with
  | none => s
  | some sp =>
    match sp.typ with
    | .conventional =>
      let s := promote s ns (lba / 16)
      let f := (coarseOf s ns (lba / 16)).addr
      (s.setMap { s.map with fine := Tbl.upd s.map.fine f fun x =>
        { x with age := 0, entries := x.entries.set (lba % 16) e } }).delta ns lba 1 e
    | .zoned =>
      let (z, off) := zoneOf sp lba
      let p := off % puGran s
      let s := refineChunk s ns sp z (off / puGran s)
      let f := (chunkOf s ns z (off / puGran s)).addr + p / 16
      (s.setMap { s.map with fine := Tbl.upd s.map.fine f fun x =>
        { x with age := 0, entries := x.entries.set (p % 16) e } }).delta ns lba 1 e

/-- Blocks of the slots left out of the image become LOST (R376). -/
def loseSlots (s : State) (lost : List Nat) : State :=
  match namedBy s lost with
  | [] => s
  | (ns, lba) :: r =>
    let bs := (ns, lba) :: r
    let s := bs.foldl (fun s b => setOne s b.1 b.2 ⟨.lost, 0⟩) s
    s.raiseAt 20 lDMC_LOST_WRITE none [p4 bs.length, p2 ns, p6 lba] none

/-- Valid counts of every row from the map (R334). -/
def recount (s : State) : State :=
  let s := s.setPar { s.par with spans := Tbl.map s.par.spans fun _ x => { x with valid := [] } }
  let s : State := s.map.coarse.foldl (fun s (p : Nat × Entry) => if p.2.kind = .media then validUp s p.2.addr 16 else s) s
  let s : State := s.map.fine.foldl (fun s (p : Nat × FineUnit) =>
    p.2.entries.foldl (fun s e => if e.kind = .media then validUp s e.addr 1 else s) s) s
  let s : State := s.map.dir.foldl (fun s (p : Nat × Nat) => validUp s p.2 1) s
  s.map.chunks.foldl (fun s (p : Nat × Entry) =>
    if p.2.kind = .media then
      match s.space (p.1 / 2 ^ 48) with
      | some sp => validUp s p.2.addr (chunkData s (sp.zone (p.1 / 2 ^ 24 % 2 ^ 24)) (p.1 % 2 ^ 24))
      | none => s
    else s) s

/-- Rows that go on after a dump: ACCUMULATING or PARITY_OUT (R195). -/
def rowsResumed (s : State) : Nat :=
  (s.wbf.streams.filter fun p => p.2.state == .accumulating || p.2.state == .parityOut).length

/-- Namespaces of restored granules whose volatile key is to be loaded again (R399). -/
def keysAwaited (s : State) : List Nat :=
  ((liveSpaces s).filter fun (p : Nat × Space) => p.2.source == KeySource.volatile && p.2.mode != CipherMode.none &&
    s.wbf.slots.any fun (q : Nat × Slot) => q.2.ns == p.1 && !q.2.reserve).map Prod.fst

/-- The current-minute meters of the image. -/
def restoreMeters (s : State) (img : DumpImage) : State :=
  s.setFns (Tbl.map s.fns fun f x => match Tbl.get img.meters f with
      | some m => { x with cur := m }
      | none => x)

/-- LAST of HLD_DUMP from what the reserve holds. -/
def lastOf (img : DumpImage) : Nat := if !img.valid then 2 else if img.verified then 3 else 1

/-- The path after a dump. -/
def replayDump (s : State) (img : DumpImage) : State :=
  let s := restoreDeltas s img
  let s := restoreRows (restoreSlots (restoreJournal s img) img) img
  let s := loseSlots (restoreMeters s img) img.lost
  let s := s.setKey { s.key with waitKeys := keysAwaited s }
  let s := s.setHld { s.hld with image := some { img with replayed := true }, last := lastOf img }
  let s := (s.ev eHLD_DUMP_DONE).raise lHLD_DUMP_DONE none []
  (s.ev eWBF_REPLAY).raise lWBF_REPLAY none [p4 (rowsResumed s)]

/-! ## Phase 10 without a dump: span scan and row closing (R168, R196, R327, R376) -/

/-- Spans open at the root or opened since: those that the scan reads. -/
def scanSpans (s : State) : List Nat :=
  let at_ := match s.par.root with
    | some r => (r.spans.filter fun p => p.2.phase == .open).map Prod.fst
    | none => []
  let later := (s.par.journal.filter fun r => r.typ == 7 && bodyField r 0 1 == 1).map JRec.span
  (at_ ++ later).eraseDups

/-- A granule that the scan finds: write sequence number, namespace, LBA and the entry that names it. -/
structure Found where
  wseq : Nat
  ns : Nat
  lba : Nat
  entry : Entry
  deriving DecidableEq, Repr

/-- Host granules of a span on media, `bad` being MGAs that no ladder step reads. -/
def scanSpan (s : State) (l : Layout) (bad : List Nat) (n : Nat) : List Found :=
  (List.range (wordLines s)).flatMap fun row => (List.range l.d).flatMap fun i =>
    (List.range (puGran s)).filterMap fun p =>
      let m := rowMga s l n row (posOf l row i) p
      match Tbl.get s.fch.media m with
      | none => none
      | some x =>
        let h := infoMetadata x
        if bad.contains m ∨ h.pad ∨ h.internal ∨ (s.space h.ns).isNone ∨ !infoCrcOk x then none
        else some { wseq := h.wseq, ns := h.ns, lba := h.lga, entry := ⟨.media, m⟩ }

/-- Write sequence number of the granule that a checkpoint entry names; none where it is erased. -/
def mediaSeq (s : State) (e : Entry) : Option Nat :=
  if e.kind = .media then (Tbl.get s.fch.media e.addr).map fun x => (infoMetadata x).wseq else none

/-- A granule applies: one above the root's sequence always, a copy only over a checkpoint entry whose granule is erased
or carries a lower sequence, or that is still BUFFER (R168). -/
def foundApplies (s : State) (r : MapRoot) (ckpt : State) (g : Found) : Bool :=
  if g.wseq > Tbl.getD r.seqs g.ns r.seqHigh then true
  else
    let e := blockEntry ckpt g.ns g.lba
    match e.kind with
    | .media => match mediaSeq s e with
      | none => true
      | some q => decide (q < g.wseq)
    | .buffer => true
    | _ => false

/-- A zone's write pointer covers every granule found in it. -/
def coverZone (s : State) (ns lba : Nat) : State :=
  match s.space ns with
  | none => s
  | some sp =>
    if sp.typ = .conventional then s
    else
      let (z, off) := zoneOf sp lba
      let zn := sp.zone z
      if off < zn.data then s
      else s.setZone ns z { zn with wp := max zn.wp (off + 1), data := off + 1,
                                    state := if off + 1 ≥ sp.zcap then .full else if zn.state = .empty then .closed else zn.state }

/-- One found granule enters the map; in a zone, a whole program unit keeps one chunk entry. -/
def applyFound (s : State) (g : Found) : State :=
  let s := coverZone s g.ns g.lba
  match s.space g.ns with
  | none => s
  | some sp =>
    match sp.typ with
    | .conventional => setOne s g.ns g.lba g.entry
    | .zoned =>
      let (z, off) := zoneOf sp g.lba
      let c := off / puGran s
      let p := off % puGran s
      let e := chunkOf s g.ns z c
      let whole : Entry := ⟨.media, g.entry.addr - p⟩
      if g.entry.kind = .media ∧ mgaPos s g.entry.addr = p ∧ (e.kind = .unmapped ∨ e.kind = .buffer ∨ e = whole) then
        (if e = whole then s else setChunk s g.ns z c whole (chunkLba s sp z c))
      else setOne s g.ns g.lba g.entry

/-- Entries still BUFFER become LOST; their count (R168). `kept` are slots that stand. -/
def loseBuffer (s : State) (kept : List Nat) : Nat × State :=
  let cs : List (Nat × Nat) := (liveSpaces s).flatMap fun (p : Nat × Space) => match p.2.typ with
    | .conventional =>
      let us := (s.map.coarse.filter fun (q : Nat × Entry) => q.1 / 2 ^ 48 == p.1 &&
        (q.2.kind == .buffer || q.2.kind == .fine)).map fun (q : Nat × Entry) => q.1 % 2 ^ 48
      us.flatMap fun u => ((List.range 16).filter fun i =>
        let e := blockEntry s p.1 (16 * u + i)
        e.kind == .buffer && !kept.contains e.addr).map fun i => (p.1, 16 * u + i)
    | .zoned =>
      let fs := (s.map.chunks.filter fun (q : Nat × Entry) => q.1 / 2 ^ 48 == p.1 && q.2.kind == .fine).map
        fun (q : Nat × Entry) => q.1 % 2 ^ 48
      fs.flatMap fun k => ((List.range (puGran s)).filter fun i =>
        let e := blockEntry s p.1 (k / 2 ^ 24 * p.2.zsze + k % 2 ^ 24 * puGran s + i)
        e.kind == .buffer && !kept.contains e.addr).map fun i =>
          (p.1, k / 2 ^ 24 * p.2.zsze + k % 2 ^ 24 * puGran s + i)
  -- a chunk whose program unit is gone is LOST as a whole
  let whole := s.map.chunks.filter fun (q : Nat × Entry) => q.2.kind == .buffer
  let n := (whole.map fun (q : Nat × Entry) => match s.space (q.1 / 2 ^ 48) with
    | some sp => chunkData s (sp.zone (q.1 / 2 ^ 24 % 2 ^ 24)) (q.1 % 2 ^ 24)
    | none => 0).sum
  let s := cs.foldl (fun s b => setOne s b.1 b.2 ⟨.lost, 0⟩) s
  let s := whole.foldl (fun s (q : Nat × Entry) => match s.space (q.1 / 2 ^ 48) with
    | some sp =>
      let z := q.1 / 2 ^ 24 % 2 ^ 24
      setChunk s (q.1 / 2 ^ 48) z (q.1 % 2 ^ 24) ⟨.lost, 0⟩ (chunkLba s sp z (q.1 % 2 ^ 24))
    | none => s) s
  (cs.length + n, s)

/-- The sequences rise above every value that the scan finds (R168). -/
def raiseSeqs (s : State) (gs : List Found) : State :=
  gs.foldl (fun s g => match s.space g.ns with
    | none => s
    | some sp =>
      let n := max sp.seq g.wseq
      (s.setSpace g.ns { sp with seq := n, wp := decide (n ≥ 2 ^ 48 - 1) }).setMap
        { (s.setSpace g.ns { sp with seq := n, wp := decide (n ≥ 2 ^ 48 - 1) }).map with
          seqHigh := max s.map.seqHigh g.wseq }) s

/-- The span scan: granules in increasing sequence order, then entries left in BUFFER (R168, R376). -/
def spanScan (s : State) (l : Layout) (bad : List Nat) (slots : Tbl Slot) : State :=
  match s.par.root with
  | none => s
  | some r =>
    let media := (scanSpans s).flatMap (scanSpan s l bad)
    let held := (slots.filter fun (p : Nat × Slot) => !p.2.reserve && (s.space p.2.ns).isSome).map
      fun (p : Nat × Slot) => ({ wseq := p.2.wseq, ns := p.2.ns, lba := p.2.lba, entry := ⟨.buffer, p.1⟩ } : Found)
    let gs := sortBy Found.wseq (media ++ held)
    let use := gs.filter (foundApplies s r.map s)
    let s := use.foldl applyFound s
    let kept := slots.map Prod.fst
    let (n, s) := loseBuffer (raiseSeqs s gs) kept
    if n = 0 then s else (s.ev eMAP_REPLAY_LOSS).raise lMAP_REPLAY_LOSS none [p4 n]

/-- The dumped slots that passed are held again, in sequence order; one that no entry names is not needed (R376). -/
def holdDumped (s : State) (slots : Tbl Slot) : State :=
  let ks := (sortBy (fun (p : Nat × Slot) => p.2.wseq) slots).filter fun (p : Nat × Slot) =>
    blockEntry s p.2.ns p.2.lba == ⟨.buffer, p.1⟩
  ks.foldl (fun s (p : Nat × Slot) =>
    let x : Slot := { p.2 with state := .held, readers := 0, cmd := noCmd, group := false, mga := none, landed := 1,
                               keyGen := (s.keySlot (keySlotNs p.2.ns)).gen }
    let s := bindTarget (s.setSlot p.1 x) x.target x.fn
    pushHeld s x.target p.1) s

/-- One open row is closed after a failed dump: P and Q over its programmed data members go out as parity proxies, a
member of which nothing decodes counting as zero; a position that a member cannot give is VOID in both, and the row is
relocated (R196, R327). -/
def closeOpenRow (s : State) (l : Layout) (bad : List Nat) (r : Row) : State :=
  let word (i p : Nat) : Option Info :=
    let m := rowMga s l r.span r.row (posOf l r.row i) p
    if bad.contains m ∨ !dieServes s (mgaParts s m).die then none else Tbl.get s.fch.media m
  let ps := List.range (puGran s)
  let zero := (List.range l.d).filter fun i => ps.all fun p => (word i p).isNone
  let there := (List.range l.d).filter fun i => !zero.contains i
  let void (p : Nat) : Bool := there.any fun i => (word i p).isNone
  let data (p : Nat) : List (Nat × Info) := there.filterMap fun i => (word i p).map fun x => (i, x)
  let zmap := bitmap (zero.map (posOf l r.row))
  let pq (f : List (Nat × Info) → Info) : List (Option Info) := ps.map fun p => if void p then none else some (f (data p))
  let lost := zmap ||| (1 <<< posP l r.row) ||| (1 <<< posQ l r.row)
  let vs := if ps.any void then rowValids s l r.span r.row else []
  let words := vs.map fun v => (v, word v.1 v.2.1)
  let s := s.updRow r.stream r.serial fun q => { q with state := 3, done := bitmap (there.map (posOf l r.row)), lost := lost }
  let s := match s.openRow? r.stream r.serial with
    | some q => jrow s q 3
    | none => s
  let s := makeProxy s r.span r.row (posP l r.row) 1 (pq syndromeP) zmap
  let s := makeProxy s r.span r.row (posQ l r.row) 2 (pq syndromeQ) zmap
  let s := s.updStream r.stream fun x => { x with serial := max x.serial r.serial }
  words.foldl (fun s v => match v.2 with
    | some x => pushCopy s 254 v.1.2.2 x .copy
    | none => s) s

/-- Every row below state 4 is closed, and every open span without one (R332). -/
def closeOpenRows (s : State) (l : Layout) (bad : List Nat) : State :=
  let s := s.par.rows.foldl (fun s r => closeOpenRow s l bad r) s
  (allSpans s l).foldl closeSpan s

/-! ## Phase 10 (R492) -/

/-- Which path: 0 clean, 1 after a dump, 2 uncontrolled. -/
def pathOf (s : State) : Nat :=
  if s.hld.image.any DumpImage.valid then 1 else if s.nor.roster.clean then 0 else 2

/-- Dump reserve blocks that are not erased, and not held by an image that a checkpoint must outlive, are erased
(R473, R492). -/
def refillReserve (s : State) : State :=
  if s.hld.image.any DumpImage.replayed then s
  else
    let ks := s.hld.reserve.filter fun k => !s.hld.erased.contains k &&
      !(s.fch.intentErase.any fun q => blockKey q.1 q.2.1 == k)
    ks.foldl (fun s k => queuePslcErase s (k / 16384) (k % 16384) 2) (s.setHld { s.hld with image := none })

/-- Lost dies, the rebuild queue and the degraded state follow from the roster (R250, R314, R318, R323). -/
def lostAtStart (s : State) (l : Layout) : State :=
  let out := s.par.lost
  let s := out.foldl (fun s d => s.setPar { s.par with mirrors := s.par.mirrors.map fun m =>
    if m.die = d then { m with service := false } else m }) s
  let spans := (allSpans s l).filter fun n =>
    ((s.span n).phase == .open || (s.span n).phase == .closed) && out.any fun d => spanOnDie s l n d
  let s := spans.foldl (fun s n => queueSpan s l n) s
  let more := !s.par.queue.isEmpty || !s.par.rbHanded.isEmpty
  let s := if out.isEmpty ∨ !more then s.setStp { s.stp with degraded := false }
    else
      let s := s.setPar { s.par with rbState := 1, rowsDone := 0, rbStart := s.tbs.clk }
      if singleGroup l then stopRebuild s else s
  let armed := s.par.lostArm
  armed.foldl (fun s d => loseDie s l d) (s.setPar { s.par with lostArm := [] })

/-- REPLAY: phase 10 by the first path whose condition holds; `bad` are MGAs that no ladder step reads (R492). -/
def execReplay (bad : List Nat) (s : State) : Out :=
  .next <|
    match s.par.layout with
    | none => s
    | some l =>
      if s.bot.phase ≠ 10 then s
      else
        let path := pathOf s
        let s := s.setBot { s.bot with path := path }
        let s := match path, s.hld.image with
          | 1, some img =>
            if img.badLog then
              let slots : Tbl Slot := img.slots.filter fun (p : Nat × Slot) => !p.2.reserve && p.2.mga.isNone && !p.2.dying
              let s := restoreMeters s img
              let s := holdDumped (spanScan (closeOpenRows s l bad) l bad slots) slots
              let s := s.setKey { s.key with waitKeys := keysAwaited s }
              let s := s.setHld { s.hld with image := some { img with replayed := true }, last := lastOf img }
              let s := s.setWbf { s.wbf with landings := 1 }
              let s := (s.ev eHLD_DUMP_DONE).raise lHLD_DUMP_DONE none []
              s.raise lWBF_REPLAY none [p4 (rowsResumed s)]
            else replayDump s img
          | 0, _ => closeOpenRows s l bad
          | _, image =>
            let s := spanScan (closeOpenRows s l bad) l bad []
            if image.isSome then
              ((s.setHld { s.hld with last := 2 }).ev eHLD_DUMP_FAIL).raise lHLD_DUMP_FAIL none []
            else s
        toPhase (refillReserve (lostAtStart (recount s) l)) 11

/-! ## Phase 11: NVMe ready (R350, R355, R414, R486, R488, R490) -/

/-- An image whose SVN_COMMIT flag is set raises the fused count (R414). -/
def commitSvn (s : State) (flag : Bool) (svn : Nat) : State :=
  if flag ∧ svn > s.fuses.svn then
    ((s.setFuses { s.fuses with svn := svn }).ev eKEY_SVN_COMMIT).raise lKEY_SVN_COMMIT none [p4 svn]
  else s

/-- The pages of block `b` are sealed: every channel's for FCH (R480, R530). -/
def sealBlock (s : State) (b : Nat) : State :=
  (if b = 0x13 then (List.range 32).map (64 + ·) else [b]).foldl (fun s p =>
    s.setPage p { s.page p with sealBit := true }) s

/-- NVME_READY: phase 11 ends (R486). -/
def execNvmeReady (s : State) : Out :=
  .next <|
    if s.bot.phase ≠ 11 ∨ s.bot.ready then s
    else
      let ms := min ((s.tbs.clk - s.bot.releaseClk) / 1000000) 0xFFFFF
      let s := phaseMs s 11 s.bot.phaseClk
      let s := (s.setBot { s.bot with ready := true }).wr rBOT_READY_MS ms
      let s := (s.ev eBOT_READY).raise lBOT_READY none [p4 s.bot.path, p4 ms]
      let x := s.fwSlot s.bot.fwSlot
      let s := commitSvn (commitSvn s s.bot.cfg.svnCommit s.bot.cfg.svn) x.svnCommit x.svn
      let s := s.setFuses { s.fuses with revoked := s.fuses.revoked ||| s.bot.cfg.revoke ||| x.revoke }
      -- blocks that the image seals, and the register window it closes
      let s := (List.range 23).foldl (fun s p =>
        if s.bot.cfg.sealed.getLsbD p then sealBlock s p else s) s
      let s := s.setHif { s.hif with closed := s.hif.closed || s.bot.cfg.closeBar2 }
      let s := (s.setNet { s.net with ready := true }).setQmx { s.qmx with wthru := s.hld.noHoldup }
      let s := if s.qmx.wthru then s.ev eQMX_WTHRU else s
      let s := s.setRcl { s.rcl with readOnly := s.nor.roster.readOnly,
                                     sanitize := if s.nor.sanitize then .armed else s.rcl.sanitize }
      s.setRoster { s.nor.roster with clean := false }

end Sys2Proof.Machine
end

