-- ==== Sys2Proof/Machine/Shutdown.lean ====
section
/-! DEFINITION. Shutdowns (16 R491, R498) and the end of a record write to the external NOR (R398, R403, R497). -/

namespace Sys2Proof.Machine

open Sys2Proof

/-! ## Shutdowns (R491) -/

/-- Every host granule that was held has been programmed, and no program is outstanding. Copies of the controller's
streams that fill no program unit stay behind: their sources stand (R173). -/
def allProgrammed (s : State) : Bool :=
  (s.wbf.targets.all fun p => (ctlStream p.1).isSome || p.2.held.isEmpty) &&
    s.wbf.pus.all fun u => u.state == .done || (decide (u.stream ≥ 252) && !u.placed)

/-- NORMAL_SHUTDOWN: CC.SHN = 01b on function 0: fetch stops on every function and every target that holds granules is
closed with pad. The ledger records the watermark (R491, R516). -/
def execNormalShutdown (s : State) : Out :=
  .next <|
    if !(s.fn 0).enabled ∨ !s.bot.ready ∨ s.bot.shutdown ≠ 0 ∨ (s.fn 0).shst ≠ 0 then s
    else
      let s := s.updFn 0 fun x => { x with shst := 1 }
      wmarkRecord (closeAll (s.setBot { s.bot with shutdown := 1 }))

/-- SHUTDOWN_PROGRAMS_DONE: every program of the shutdown has completed: MAP takes a checkpoint; with its adoption CLEAN
is set and CSTS.SHST reads 10b (R491). -/
def execShutdownProgramsDone (s : State) : Out :=
  .next <|
    if s.bot.shutdown = 1 then
      if !allProgrammed s ∨ s.map.ckpt ≠ .idle then s
      else
        let t := startCkpt s
        if t.map.ckpt = .idle then s else t.setBot { t.bot with shutdown := 3 }
    else if s.bot.shutdown = 3 ∧ s.map.ckpt = .idle then
      let s := s.setRoster { s.nor.roster with clean := true }
      let s := s.updFn 0 fun x => { x with shst := 2 }
      (s.setBot { s.bot with shutdown := 0 }).ev eBOT_SHUTDOWN
    else s

/-- ABRUPT_SHUTDOWN: CC.SHN = 10b on function 0: the dump on board power; one that has completed already answers at once
(R491, R498). -/
def execAbruptShutdown (s : State) : Out :=
  .next <|
    if !(s.fn 0).enabled ∨ !s.bot.ready ∨ s.bot.shutdown = 2 ∨ (s.fn 0).shst = 2 then s
    else if s.hld.dumped then
      ((s.updFn 0 fun x => { x with shst := 2 }).setBot { s.bot with shutdown := 0 }).ev eBOT_SHUTDOWN
    else
      let s := s.updFn 0 fun x => { x with shst := 1 }
      armDump (s.setBot { s.bot with shutdown := 2 }) .shutdown

/-- Slots of a function that wait for their program. -/
def functionHolds (s : State) (f : Nat) : Bool :=
  s.wbf.slots.any fun p => p.2.fn == f && !p.2.reserve && p.2.mga.isNone

/-- TENANT_SHUTDOWN: CC.SHN on a tenant function pads its targets, and reports 10b once their programs have completed;
the row stands for both instants (R491). -/
def execTenantShutdown (f : Nat) (s : State) : Out :=
  .next <|
    let x := s.fn f
    if f = 0 ∨ f > 255 ∨ !x.enabled ∨ x.shst = 2 then s
    else if x.shst = 1 ∨ !functionHolds s f then
      if functionHolds s f then s else s.setFn f { x with shst := 2 }
    else
      let s := s.setFn f { x with shst := 1 }
      s.setWbf { s.wbf with targets := s.wbf.targets.map fun p =>
        (p.1, if p.2.fn = f ∧ targetHolds s p.1 then { p.2 with close := true } else p.2) }

/-! ## External NOR (R398, R403, R497) -/

/-- NOR_RECORD_WRITE_DONE: the oldest record write completes; a function whose Save waited on it is SAVED, and the
commands that wait on it complete (R129). -/
def execNorRecordWriteDone (s : State) : Out :=
  .next <|
    match s.norWaits with
    | [] => s
    | w :: r =>
      let s := (s.setNor (norStore s.nor w)).setNorWaits r
      let s := match w.entry with
        | some (f, e) => if e.state = .saved then savedDone s f else s
        | none => s
      w.seqs.foldl (fun s q => s.complete q stOk w.dw0) s

end Sys2Proof.Machine
end

