-- ==== Sys2Proof/Machine/Report.lean ====
section
/-! DEFINITION. What Identify and the log pages report (R68-R71, R137-R140, R156, R159, R292, R353-R355, R385, R456,
R457, R487, R488). Byte offsets of NVMe structures are PRESUMED; bytes that the spec does not fix are free values. -/

namespace Sys2Proof.Machine

open Sys2Proof

/-- `n` bytes: those of the listed fields at their offsets, `rest` elsewhere. -/
def lay (n : Nat) (rest : Nat → Byte) (fs : List (Nat × List Byte)) : List Byte :=
  (List.range n).map fun k =>
    match fs.find? fun f => decide (f.1 ≤ k ∧ k < f.1 + f.2.length) with
    | some f => f.2.getD (k - f.1) 0
    | none => rest k

/-! ## Identify (R68) -/

/-- Logical blocks of a namespace that are mapped (R137, NUSE). -/
def mappedBlocks (s : State) (ns : Nat) (sp : Space) : Nat :=
  if sp.typ = .zoned then (sp.zones.map fun (z : Nat × Zone) => z.2.data).sum
  else ((s.map.coarse.filter fun (e : Nat × Entry) => e.1 / 2 ^ 48 == ns).map fun (e : Nat × Entry) =>
    match e.2.kind with
    | .unmapped => 0
    | .fine => ((Tbl.get s.map.fine e.2.addr).map fun u => (u.entries.filter fun k => k.kind != .unmapped).length).getD 0
    | _ => 16).sum

/-- LBA formats 0-2: LBADS 12, metadata of 0, 8 and 16 B (R139). -/
def lbaFormats : List Byte :=
  leBytes 2 0 ++ [12, 0] ++ leBytes 2 8 ++ [12, 0] ++ leBytes 2 16 ++ [12, 0]

/-- MC, DPC and DPS: both metadata placements, types 1-3, and the type in force; whether protection information may stand
in the first or the last bytes is free, since it fills the metadata (R139). -/
def protectionBytes (free : Nat → Byte) (pi : Nat) : List Byte :=
  [3, 7 ||| (free 28 &&& 0x18), BitVec.ofNat 8 (pi % 8) ||| (free 29 &&& 8)]

/-- Identify Namespace of namespace `ns` (R71, R137-R140, R385). -/
def identifyNamespace (s : State) (f ns : Nat) (sp : Space) : List Byte :=
  let free := Config.identifyByte s.bot.cfg.digest f 0
  lay 4096 free
    [(0, leBytes 8 sp.nsze), (8, leBytes 8 sp.nsze), (16, leBytes 8 (mappedBlocks s ns sp)),
     (25, [2, BitVec.ofNat 8 sp.lbaf]), (27, protectionBytes free sp.pi), (33, [9]), (34, leBytes 2 255), (36, leBytes 2 255),
     (104, leBytes 16 sp.nguid), (128, lbaFormats),
     (3072, [BitVec.ofNat 8 sp.mode.ctorIdx, BitVec.ofNat 8 sp.source.ctorIdx, BitVec.ofNat 8 sp.owner])]

/-- Power state descriptor: Maximum Power in 0.01 W from the image, NOPS, entry and exit latency in us (R460, R461). -/
def powerDescriptor (s : State) (k : Nat) : List Byte :=
  let lat : Nat × Nat := match k with
    | 3 => (60000, 5000)
    | 4 => (100000, 60000)
    | _ => (0, 0)
  leBytes 2 (Tbl.getD s.bot.cfg.maxPower k 0) ++ [0, if k ≥ 3 then 2 else 0] ++ leBytes 4 lat.1 ++ leBytes 4 lat.2

/-- OACS: Security and Format for every function; Firmware, Namespace Management, Self-test, NVMe-MI and Virtualization
for the manager; no Directives, Doorbell Buffer Config or Get LBA Status (R68). -/
def oacs (f : Nat) : Nat := if f = 0 then 0xDF else 0x03

/-- ONCS: Compare, Write Uncorrectable, Dataset Management, Write Zeroes, Timestamp, Verify; no Reservations, no Copy. -/
def oncs : Nat := 0xCF

/-- SGLS: SGL data pointers with no alignment of their own, and keyed descriptors on an RDMA association (R70). -/
def sgls (s : State) (f : Nat) : Nat := if (assocOf s f).any Assoc.rdma then 5 else 1

/-- Identify Controller of function `f`: KAS 1 (R438), in-capsule data of 8 KiB at offset 0 on the network (R433); for a tenant
its subsystem NQN (R436); and R68, R70, R71, R103, R456, R461, R487. -/
def identifyController (s : State) (f : Nat) : List Byte :=
  lay 4096 (Config.identifyByte s.bot.cfg.digest f 0x100)
    ([(77, [8]), (78, leBytes 2 f), (84, leBytes 4 8000000), (88, leBytes 4 5000000), (128, zeros 6),
      (256, leBytes 2 (oacs f)), (259, [7]), (260, [0x14]), (263, [4]), (266, leBytes 2 378), (268, leBytes 2 388),
      (270, leBytes 2 1), (320, leBytes 2 1), (328, leBytes 4 3), (340, leBytes 2 1), (512, [0x66, 0x44]), (516, leBytes 4 1024),
      (520, leBytes 2 oncs), (522, leBytes 2 0), (525, [if (s.fn f).harness.tether then 1 else 0]),
      (526, leBytes 2 255), (528, leBytes 2 255), (536, leBytes 4 (sgls s f))]
     ++ (if (s.fn f).bind = .network then [(1792, leBytes 4 516), (1796, leBytes 4 1), (1800, leBytes 2 0)] else [])
     ++ (if f = 0 then [] else [(768, subsystemNqn s f)]) ++ (List.range 5).map fun k => (2048 + 32 * k, powerDescriptor s k))

/-- A list of namespace identifiers or controllers in `w` bytes each, in a 4,096 B structure. -/
def idList (w : Nat) (l : List Nat) : List Byte := slice (l.flatMap (leBytes w)) 0 4096

/-- NSIDs that function `f` sees, ascending, with the namespace index of each (R138). -/
def activeIds (s : State) (f : Nat) : List (Nat × Nat) :=
  if f = 0 then sortBy Prod.fst ((liveSpaces s).map fun p => (p.1 + 1, p.1)) else sortBy Prod.fst (s.fn f).spaces

/-- Command set identifier of a namespace (R137). -/
def csiOf (sp : Space) : Nat := if sp.typ = .zoned then 2 else 0

/-- Functions that a namespace is attached to. -/
def attachedTo (s : State) (ns : Nat) : List Nat :=
  sortBy id ((s.fns.filter fun p => p.2.spaces.any fun q => q.2 == ns).map Prod.fst)

/-- Functions that exist (R107). -/
def functionsThere (s : State) : List Nat := sortBy id ((s.fns.filter fun p => p.2.state != FnState.free).map Prod.fst)

/-- Secondary controller list: the tenant functions from `from_` on, with their state (R68). -/
def secondaryList (s : State) (from_ : Nat) : List Byte :=
  let l := (functionsThere s).filter fun f => decide (f ≠ 0 ∧ f ≥ from_)
  slice ([BitVec.ofNat 8 (min l.length 127)] ++ zeros 31 ++ (l.take 127).flatMap fun f =>
    leBytes 2 f ++ leBytes 2 0 ++ [if (s.fn f).offline then 0 else 1] ++ zeros 3 ++ leBytes 2 f ++ zeros 22) 0 4096

/-- The structure of a zoned namespace, CNS 05h: MAR, MOR and the zone size (R157, R159). -/
def identifyZoned (s : State) (f : Nat) (sp : Space) : List Byte :=
  let n := (s.fn f).harness.openZones - 1
  lay 4096 (Config.identifyByte s.bot.cfg.digest f 0x502)
    ([(2, leBytes 2 1), (4, leBytes 4 n), (8, leBytes 4 n)] ++
      (List.range 3).map fun k => (2816 + 16 * k, leBytes 8 sp.zsze ++ zeros 8))

/-- Extended LBA formats 0-2: the 64b Guard for format 2 (R139). -/
def guardFormats : List Byte := leBytes 4 0 ++ leBytes 4 0 ++ leBytes 4 0x100

/-- Identify: the structure that CNS, NSID, CNTID and CSI select for function `f`, or the status that refuses it. -/
def identifyData (s : State) (f cns nsid cntid csi : Nat) : Except Status (List Byte) :=
  let free := Config.identifyByte s.bot.cfg.digest f (256 * cns + csi)
  match cns with
  | 0x00 | 0x11 =>
    if cns = 0x11 ∧ f ≠ 0 then .error stInvalidField
    else if cns = 0 ∧ nsid = 0xFFFFFFFF then .ok (lay 4096 free [(25, [2]), (27, protectionBytes free 0), (128, lbaFormats)])
    else if nsid = 0 ∨ nsid > 1024 then .error stInvalidNs
    else match spaceOf s f nsid with
      | some (ns, sp) => .ok (identifyNamespace s f ns sp)
      | none => .ok (zeros 4096)
  | 0x01 => .ok (identifyController s f)
  | 0x02 => .ok (idList 4 (((activeIds s f).map Prod.fst).filter fun n => decide (n > nsid)))
  | 0x03 =>
    match spaceOf s f nsid with
    | some (_, sp) =>
      .ok (slice ([2, 16, 0, 0] ++ leBytes 16 sp.nguid ++ [4, 1, 0, 0, BitVec.ofNat 8 (csiOf sp)]) 0 4096)
    | none => .error stInvalidNs
  | 0x05 =>
    match spaceOf s f nsid with
    | some (_, sp) =>
      if csi ≠ csiOf sp then .error stInvalidField
      else if csi = 2 then .ok (identifyZoned s f sp) else .ok (lay 4096 free [(12, guardFormats)])
    | none => if csi = 0 ∨ csi = 2 then .ok (zeros 4096) else .error stInvalidField
  | 0x06 => if csi = 0 then .ok (lay 4096 free []) else if csi = 2 then .ok (lay 4096 free [(0, [8])])
    else .error stInvalidField
  | 0x07 =>
    .ok (idList 4 (((activeIds s f).filter fun p => decide (p.1 > nsid) &&
      (s.space p.2).any fun sp => csiOf sp == csi).map Prod.fst))
  | 0x10 => if f ≠ 0 then .error stInvalidField
    else .ok (idList 4 (((activeIds s 0).map Prod.fst).filter fun n => decide (n > nsid)))
  | 0x12 | 0x13 =>
    if f ≠ 0 then .error stInvalidField
    else
      let all := if cns = 0x12 then attachedTo s (nsid - 1) else functionsThere s
      let l := all.filter fun k => decide (k ≥ cntid)
      .ok (slice (leBytes 2 l.length ++ l.flatMap (leBytes 2)) 0 4096)
  | 0x15 => if f ≠ 0 then .error stInvalidField else .ok (secondaryList s cntid)
  | 0x1C => .ok (slice (leBytes 8 1 ++ leBytes 8 5) 0 4096)
  | _ => .error stInvalidField

/-! ## NVMe-defined log pages (R68) -/

/-- NVMe-defined log pages that are there: supported pages, Error Information, SMART, Firmware Slot, Commands
Supported, Self-test, Endurance Group, the FDP pages, Sanitize Status. -/
def nvmePages : List Nat := [0x00, 0x01, 0x02, 0x03, 0x05, 0x06, 0x09, 0x20, 0x21, 0x22, 0x81]

/-- The vendor pages that function `f` may read (R68, 00 scope). -/
def vendorPages (f : Nat) : List Nat :=
  if f = 0 then [0xC0, 0xC1, 0xC2, 0xC3, 0xC4, 0xC5, 0xC6, 0xC7] else [0xC0, 0xC1, 0xC2, 0xC3, 0xC4, 0xC7]

/-- Critical Warning of a function: spare, temperature, read-only (R352, R354, R456). -/
def criticalWarning (s : State) (f : Nat) : Nat :=
  (if s.rcl.availSpare < 10 then 1 else 0) + (if tempBeyond s (s.fn f) then 2 else 0) + (if s.rcl.readOnly then 8 else 0)

/-- A temperature of the model in whole kelvin, 0 for none. -/
def kelvinBytes (t : Option Rat) : List Byte := leBytes 2 ((t.map fun t => (kelvin t).toNat).getD 0)

/-- A diode as last read, by diode number (R456). -/
def diodeRead (s : State) (k : Nat) : Option Rat :=
  ((s.node ([0, 1, 3, 6].getD k 0)).diode).map fun d => ((d : Int) : Rat)

/-- SMART / Health Information (R293, R353, R354, R456). -/
def smartPage (s : State) (f : Nat) : List Byte :=
  lay 512 (Config.logByte 2 s.draws)
    ([(0, [BitVec.ofNat 8 (criticalWarning s f)]), (1, kelvinBytes (composite s)),
      (3, [BitVec.ofNat 8 s.rcl.availSpare, 10, BitVec.ofNat 8 s.rcl.pctUsed]), (112, leBytes 16 s.tbs.pcycle),
      (128, leBytes 16 s.tbs.hours), (160, leBytes 16 s.ldc.mediaErrors), (200, kelvinBytes (composite s)),
      (202, kelvinBytes (hottest (packages s))), (204, kelvinBytes (some (ambient s)))]
     ++ (List.range 4).map fun k => (206 + 2 * k, kelvinBytes (diodeRead s k)))

/-- The NSID under which a function sees a namespace. -/
def nsidOf (s : State) (f ns : Nat) : Option Nat :=
  if f = 0 then some (ns + 1) else ((s.fn f).spaces.find? fun p => p.2 == ns).map Prod.fst

/-- Error Information: the namespace and first LBA of each read that reached step 6, newest first; a function sees the
entries of its namespaces (R292). -/
def errorPage (s : State) (f : Nat) : List Byte :=
  let es := s.ldc.errorLog.filterMap fun e => (nsidOf s f e.1).map fun n => (n, e.2.1)
  (es.zipIdx.flatMap fun (e : (Nat × Nat) × Nat) =>
    lay 64 (fun k => Config.logByte 1 s.draws (64 * e.2 + k))
      [(12, leBytes 2 (0x8000 + 2 * (0x200 + 0x81))), (16, leBytes 8 e.1.2), (24, leBytes 4 e.1.1)])
    ++ zeros (64 * (64 - es.length))

/-- Firmware Slot Information: the active slot, the slot of the next reset where it differs, and both revisions
(R68, R100). -/
def firmwarePage (s : State) : List Byte :=
  let a := s.bot.fwSlot
  let n := if s.nor.fwNext = a then 0 else s.nor.fwNext
  let rev (k : Nat) : List Byte := if (s.fwSlot k).valid then bytesOf 8 (Config.fwRevision (s.fwSlot k).digest) else zeros 8
  lay 512 (fun _ => 0) [(0, [BitVec.ofNat 8 (a + 16 * n)]), (8, rev 1), (16, rev 2)]

/-- Admin and I/O opcodes that function `f` may issue (R68). -/
def adminOpcodes (f : Nat) : List Nat :=
  [0x00, 0x01, 0x02, 0x04, 0x05, 0x06, 0x08, 0x09, 0x0A, 0x0C, 0x18, 0x80, 0x81, 0x82] ++
    (if f = 0 then [0x0D, 0x10, 0x11, 0x14, 0x15, 0x1C, 0x1D, 0x1E, 0x84] else [])
def ioOpcodes : List Nat :=
  [0x00, 0x01, 0x02, 0x04, 0x05, 0x08, 0x09, 0x0C, 0x12, 0x1D, 0x79, 0x7A, 0x7D]

/-- A 4 B entry for each of `n` numbers: bit 0 for those listed, the other bits open. -/
def supportPage (s : State) (page base n : Nat) (l : List Nat) : List Byte :=
  (List.range n).flatMap fun k =>
    if l.contains k then lay 4 (fun j => Config.logByte page s.draws (base + 4 * k + j))
      [(0, [Config.logByte page s.draws (base + 4 * k) ||| 1])]
    else zeros 4

/-- Device Self-test: the test in progress and the last 20 results (R68). -/
def selfTestPage (s : State) : List Byte :=
  let one (k : Nat) : List Byte := match s.cpx.results[k]? with
    | some r => lay 28 (fun j => Config.logByte 6 s.draws (4 + 28 * k + j))
        [(0, [BitVec.ofNat 8 (r.result + 16 * r.code)]), (4, leBytes 8 r.hours), (12, leBytes 4 r.nsid)]
    | none => lay 28 (fun _ => 0) [(0, [0xF])]
  let now : List Byte := match s.cpx.selfTest with
    | some t => [BitVec.ofNat 8 t.code, Config.logByte 6 s.draws 1 &&& 0x7F, 0, 0]
    | none => zeros 4
  now ++ (List.range 20).flatMap one

/-- Endurance Group Information of group 1 (R353, R354). -/
def endurancePage (s : State) : List Byte :=
  lay 512 (Config.logByte 9 s.draws)
    [(0, [BitVec.ofNat 8 ((if s.rcl.availSpare < 10 then 1 else 0) + (if s.rcl.readOnly then 8 else 0))]),
     (3, [BitVec.ofNat 8 s.rcl.availSpare, 10, BitVec.ofNat 8 s.rcl.pctUsed]), (160, leBytes 16 s.ldc.mediaErrors)]

/-- FDP Configurations: one configuration of 64 initially isolated handles and one reclaim group; a reclaim unit is one
span's user capacity (R156). -/
def fdpConfigs (s : State) : List Byte :=
  lay 336 (Config.logByte 0x20 s.draws)
    [(0, leBytes 2 0), (4, leBytes 4 336), (16, leBytes 2 320), (20, leBytes 4 1), (24, leBytes 2 64),
     (32, leBytes 8 (spanUser s * 4096)), (80, (List.range 64).flatMap fun _ => [1, 0, 0, 0])]

/-- Reclaim Unit Handle Usage: handles are in use while FDP is enabled (R156). -/
def fdpUsage (s : State) : List Byte :=
  leBytes 2 64 ++ zeros 6 ++ (List.range 64).flatMap fun _ => [if s.map.fdp then (1 : Byte) else 0] ++ zeros 7

/-- FDP Statistics: host and media bytes written (R27: granules accepted and copied). -/
def fdpStatistics (s : State) : List Byte :=
  lay 64 (Config.logByte 0x22 s.draws)
    [(0, leBytes 16 (4096 * s.rcl.hosted)), (16, leBytes 16 (4096 * (s.rcl.hosted + s.rcl.copied)))]

/-- Sanitize Status: progress by spans erased, and the state of the last operation (R355). -/
def sanitizePage (s : State) : List Byte :=
  let n := s.rcl.sanitizeTotal
  let prog : Nat := match s.rcl.sanitize with
    | .armed => 0
    | .erasing => if n = 0 then 0 else (n - s.rcl.sanitizeSpans.length) * 65536 / n
    | _ => 0xFFFF
  let stat : Nat := match s.rcl.sanitize with
    | .never => 0
    | .completed => 1
    | .armed | .erasing => 2
    | .failed => 3
  lay 512 (Config.logByte 0x81 s.draws) [(0, leBytes 2 (min prog 0xFFFF)), (2, leBytes 2 stat)]

/-- An NVMe-defined log page as function `f` reads it. -/
def nvmePage (s : State) (f lid : Nat) : Option (List Byte) :=
  match lid with
  | 0x00 => some (supportPage s 0 0 256 (nvmePages ++ vendorPages f))
  | 0x01 => some (errorPage s f)
  | 0x02 => some (smartPage s f)
  | 0x03 => some (firmwarePage s)
  | 0x05 => some (supportPage s 5 0 256 (adminOpcodes f ++ (List.range 16).map (0xC0 + ·)) ++
      supportPage s 5 1024 256 ioOpcodes ++ zeros 2048)
  | 0x06 => some (selfTestPage s)
  | 0x09 => some (endurancePage s)
  | 0x20 => some (fdpConfigs s)
  | 0x21 => some (fdpUsage s)
  | 0x22 => some (fdpStatistics s)
  | 0x81 => some (sanitizePage s)
  | _ => none

/-! ## Log page 0xC4 (R457) -/

/-- Signed value in `n` bytes, brought into range. -/
def signedBytes (n : Nat) (x : Int) : List Byte := leBytes n (toSigned (8 * n) (satSigned (8 * n) x))

/-- A node's 4 B entry. -/
def nodeEntry (s : State) (k : Nat) : List Byte :=
  let x := s.node k
  let broken := (diodeOf k).isSome && x.diode.isNone
  let used := x.gap && x.diode.any fun d => decide (((d : Int) : Rat) > x.t + x.bias)
  signedBytes 2 (x.reported).floor ++ signedBytes 1 (x.rise s.tbs.clk).floor ++
    [(if broken then 1 else 0) ||| (if used then 2 else 0)]

/-- Log page 0xC4, 1,088 B. -/
def thermalPage (s : State) : List Byte :=
  let n := (packages s).length
  leBytes 2 1 ++ leBytes 1 s.thm.level ++ leBytes 1 s.thm.ps ++ leBytes 2 (s.thm.powerAvg / 10) ++ leBytes 2 n
    ++ signedBytes 2 (ambient s).floor ++ zeros 6 ++ (List.range 12).flatMap (nodeEntry s)
    ++ (List.range 256).flatMap fun k => if k < n then nodeEntry s (12 + k) else zeros 4

/-! ## Log page 0xC7 (R488) -/

/-- A 32 B roster entry. -/
def rosterEntry (r : Roster) (d : Nat) : List Byte :=
  match Tbl.get r.entries d with
  | some e => leBytes 16 e.uid ++ leBytes 2 d ++ leBytes 1 e.profile ++ leBytes 1 e.state ++ leBytes 8 e.changed ++ zeros 4
  | none => zeros 16 ++ leBytes 2 d ++ zeros 14

/-- The roster: header and 1,024 entries; the CRC covers header bytes 0-59 and every entry. -/
def rosterPage (s : State) : List Byte :=
  let r := s.nor.roster
  let es := (List.range 1024).flatMap (rosterEntry r)
  let expected := (r.entries.filter fun (e : Nat × RosterEntry) => e.2.state == 1 || e.2.state == 2).length
  let head : List Byte := [0x51, 0x48, 0x44, 0x52] ++ leBytes 2 1
    ++ [(if r.readOnly then 1 else 0) ||| (if r.clean then 2 else 0), 0] ++ leBytes 4 r.generation ++ leBytes 2 expected
    ++ zeros 2 ++ leBytes 8 r.initSeconds ++ zeros 36
  if r.valid then head ++ bytesOf 4 (crc32 (head ++ es)) ++ es else zeros (64 + 32 * 1024)

end Sys2Proof.Machine
end

