-- ==== Sys2Proof/Machine/Admin.lean ====
section
/-! DEFINITION. Identify, log pages, power and temperature features, firmware, self-test, virtualization and security
admin commands (R68, R69, R100, R101, R456, R461). -/

namespace Sys2Proof.Machine

open Sys2Proof

/-! ## Identify and Get Log Page (R68) -/

/-- Bytes of a page from an offset; one past its end is an invalid field. -/
def State.page? (s : State) (seq : Nat) (b : List Byte) (off len : Nat) : State :=
  if off > b.length then s.finish seq stInvalidField else s.reply seq (slice b off len)

/-- IDENTIFY: the structure that CNS, NSID, CNTID and CSI select. -/
def execIdentify (seq cns nsid cntid csi : Nat) (s : State) : Out :=
  .next <| s.admin seq fun c =>
    match identifyData s c.fn cns nsid cntid csi with
    | .ok b => s.reply seq b
    | .error t => s.finish seq t

/-- Log pages with rows of their own: Discovery and 0xC0-0xC7. -/
def ownPage (lid : Nat) : Bool := lid == 0x70 || decide (0xC0 ≤ lid ∧ lid ≤ 0xC7)

/-- GET_LOG_PAGE: an NVMe-defined page; a page that is absent is an invalid log page. -/
def execGetLogPage (seq lid off len : Nat) (s : State) : Out :=
  .next <| s.admin seq fun c =>
    if ownPage lid then s
    else match nvmePage s c.fn lid with
      | some b => (s.draw.2).page? seq b off len
      | none => s.finish seq stInvalidLogPage

/-- GET_LOG_PAGE_THERMAL: any function (R457). -/
def execGetLogPageThermal (seq off len : Nat) (s : State) : Out :=
  .next <| s.admin seq fun _ => s.page? seq (thermalPage s) off len

/-- GET_LOG_PAGE_DIE_ROSTER: any function (R488). -/
def execGetLogPageDieRoster (seq off len : Nat) (s : State) : Out :=
  .next <| s.admin seq fun _ => s.page? seq (rosterPage s) off len

/-! ## Features (R69, R456, R461, R462) -/

/-- SET_FEATURES_POWER_MANAGEMENT: the manager's power state waits for a boundary; for PS3 and PS4 every target that
holds granules closes with pad; PS4 needs that no association exists. -/
def execSetFeaturesPowerManagement (seq : Nat) (w : Dword) (s : State) : Out :=
  .next <| s.admin seq fun c =>
    let n := w.toNat % 32
    if c.fn ≠ 0 then s.finish seq stNotChangeable
    else if n > 4 ∨ (n = 4 ∧ !s.net.assocs.isEmpty) then s.finish seq stInvalidField
    else
      let s := s.setThm { s.thm with psArm := some n }
      (if n ≥ 3 then closeAll s else s).finish seq stOk

/-- SET_FEATURES_TEMPERATURE_THRESHOLD: a threshold of the function, in kelvin, against Composite Temperature. -/
def execSetFeaturesTemperatureThreshold (seq : Nat) (w : Dword) (s : State) : Out :=
  .next <| s.admin seq fun c =>
    match thresholdKey w with
    | 0 => s.finish seq stInvalidField
    | k => (thresholdFn (s.feat c.fn k (w &&& 0xFFFF)) c.fn).finish seq stOk

/-! ## Firmware images (R100, R101, R413, R480) -/

def stOverlap : Status := st 1 0x14 true
def stFwProhibited : Status := st 1 0x13 true

/-- FIRMWARE_IMAGE_DOWNLOAD: a piece in dwords, within the 16 MiB of a slot; a piece that overlaps one already held is
refused. -/
def execFirmwareImageDownload (seq off : Nat) (data : List Byte) (s : State) : Out :=
  .next <| s.managerOnly seq fun _ =>
    let n := data.length
    if sanitizing s then s.finish seq stSanitizing
    else if n = 0 ∨ n % 4 ≠ 0 ∨ off % 4 ≠ 0 ∨ off + n > 16777216 then s.finish seq stInvalidField
    else if s.qmx.download.any fun p => decide (p.1 < off + n ∧ off < p.1 + p.2.length) then s.finish seq stOverlap
    else (s.setQmx { s.qmx with download := Tbl.set s.qmx.download off data }).finish seq stOk

/-- The downloaded bytes, when the pieces follow each other from offset 0. -/
def joinPieces : List (Nat × List Byte) → Nat → Option (List Byte)
  | [], _ => some []
  | (o, b) :: r, at_ => if o = at_ then (joinPieces r (at_ + b.length)).map (b ++ ·) else none

/-- A field of an image. -/
def imageField (b : List Byte) (off n : Nat) : Nat := leNat (slice b off n)

/-- Section `k` of the section table: its content matches its CRC-32, and a type that is not known is not REQUIRED
(R480). -/
def sectionOk (b : List Byte) (k : Nat) : Bool :=
  let e := 256 + 16 * k
  let typ := imageField b e 2
  let off := imageField b (e + 4) 4
  let len := imageField b (e + 8) 4
  (knownSection typ || imageField b (e + 2) 2 % 2 == 0) && decide (off + len ≤ b.length) &&
    (crc32 (slice b off len)).toNat == imageField b (e + 12) 4

/-- The firmware image that bytes carry: an Ityolor image of TYPE 2 (R480); `valid` when its form is right and its
signature verifies. -/
def parseImage (b : List Byte) : FwImage :=
  let len := imageField b 8 4
  let img := b.take len
  let n := imageField b 18 2
  let form := slice b 0 4 == [0x49, 0x54, 0x59, 0x4C] && imageField b 4 2 == 1 && imageField b 6 1 == 2 &&
    decide (256 + 16 * n + 96 ≤ len ∧ len ≤ b.length ∧ 1 ≤ n ∧ n ≤ 256) && (List.range n).all (sectionOk img)
  { valid := form && Config.signatureOk img, svn := imageField b 17 1, svnCommit := imageField b 7 1 % 2 == 1,
    keyIndex := imageField b 16 1, digest := Config.sha384 img, keyDigest := Config.sha384 (slice b 64 97),
    revoke := BitVec.ofNat 4 (imageField b 20 1) }

/-- Why KEY refuses an image (R413). -/
def fwReason (s : State) (x : FwImage) : Option Nat := imageReason s x.valid x.keyDigest x.keyIndex x.svn

/-- The slot that a Commit names: 1 or 2; 0 leaves the choice to the device, which takes the one not running. -/
def commitSlot (s : State) (fs : Nat) : Option Nat :=
  if fs = 1 ∨ fs = 2 then some fs
  else if fs = 0 then some (if s.bot.fwSlot = 1 then 2 else 1)
  else none

/-- The checks of a Firmware Commit, and the store of the downloaded image; without a download the image that the slot
holds is verified where `old` allows it. An image that fails changes nothing (R100). -/
def commitImage (s : State) (seq fs : Nat) (old : Bool) (act : Nat → State → State) : State :=
  s.managerOnly seq fun _ =>
    if sanitizing s then s.finish seq stSanitizing
    else if s.qmx.act ≠ .idle then s.finish seq stFwProhibited
    else match commitSlot s fs with
      | none => s.finish seq stInvalidFwSlot
      | some k =>
        let img : Option FwImage :=
          if s.qmx.download.isEmpty then (if old then some (s.fwSlot k) else none)
          else (joinPieces s.qmx.download 0).map parseImage
        match img with
        | none => s.finish seq stInvalidFwImage
        | some x =>
          match fwReason s x with
          | some r => (rejectImage s (some r)).finish seq stInvalidFwImage
          | none =>
            act k ((s.setNor { s.nor with fw := Tbl.set s.nor.fw k x }).setQmx { s.qmx with download := [] })

/-- FIRMWARE_COMMIT_STORE: the verified image is stored in the slot. -/
def execFirmwareCommitStore (seq fs : Nat) (s : State) : Out :=
  .next <| commitImage s seq fs false fun _ s => s.finish seq stOk

/-- FIRMWARE_COMMIT_NEXT_RESET: stored, and activated at the next controller-level reset. -/
def execFirmwareCommitNextReset (seq fs : Nat) (s : State) : Out :=
  .next <| commitImage s seq fs true fun k s =>
    (s.setNor { s.nor with fwNext := k }).finish seq stOk

/-- FIRMWARE_COMMIT_IMMEDIATE: stored, and the activation begins at the next boundary; the Commit completes with it. -/
def execFirmwareCommitImmediate (seq fs : Nat) (s : State) : Out :=
  .next <| commitImage s seq fs true fun k s =>
    let s := s.setNor { s.nor with fwNext := k }
    (s.setQmx { s.qmx with act := .armed, actSlot := k, actCmd := some seq }).hold seq

/-- CSTS.PP on every function. -/
def setPp (s : State) (v : Bool) : State :=
  s.setFns (s.fns.map fun (p : Nat × Fn) => (p.1, { p.2 with pp := v }))

/-- FW_ACTIVATION_STOP: the boundary after the Commit: fetch stops and CSTS.PP is set (R101 step 1). -/
def execFwActivationStop (s : State) : Out :=
  .next <|
    if s.qmx.act ≠ .armed then s
    else
      let s := setPp (s.setQmx { s.qmx with act := .draining 0 }) true
      (s.ev eQMX_ACT_START).raise lQMX_ACT_START none []

/-- Strides that the drain may take: DRAIN_STRIDES, at most 2,500 (R101, R104). -/
def drainLimit (s : State) : Nat := min (s.rd rQMX_DRAIN_STRIDES) 2500

/-- FW_ACTIVATION_SWITCH: no admitted command is left, or the drain limit has passed: CPX runs the new image
(R101 step 4). -/
def execFwActivationSwitch (s : State) : Out :=
  .next <|
    match s.qmx.act with
    | .draining n =>
      if (s.qmx.cmds.any fun c => c.admitted) && decide (n < drainLimit s) then s
      else switchImage (s.setQmx { s.qmx with act := .switched }) s.qmx.actSlot
    | _ => s

/-- FW_ACTIVATION_RESUME: fetch resumes, CSTS.PP clears and the Commit completes (R101 step 5). -/
def execFwActivationResume (s : State) : Out :=
  .next <|
    if s.qmx.act ≠ .switched then s
    else
      let cmd := s.qmx.actCmd
      let s := setPp (s.setQmx { s.qmx with act := .idle, actCmd := none }) false
      let s := (s.ev eQMX_ACT_DONE).raise lQMX_ACT_DONE none []
      match cmd with
      | some q => s.finish q stOk
      | none => s

/-! ## Device Self-test (R68) -/

/-- A result of a self-test enters the log. -/
def logTest (s : State) (t : SelfTest) (result : Nat) : State :=
  let r : TestResult := { code := t.code, result := result, hours := s.tbs.hours, nsid := t.nsid }
  s.setCpx { s.cpx with selfTest := none, results := (r :: s.cpx.results).take 20 }

/-- DEVICE_SELF_TEST: 1 short, 2 extended, Fh abort. Its length and result are free values. -/
def execDeviceSelfTest (seq nsid stc : Nat) (s : State) : Out :=
  .next <| s.managerOnly seq fun _ =>
    if sanitizing s then s.finish seq stSanitizing
    else if nsid ≠ 0 ∧ nsid ≠ 0xFFFFFFFF ∧ (spaceOf s 0 nsid).isNone then s.finish seq stInvalidNs
    else if stc = 15 then
      (match s.cpx.selfTest with
      | some t => logTest s t 1
      | none => s).finish seq stOk
    else if stc ≠ 1 ∧ stc ≠ 2 then s.finish seq stInvalidField
    else if s.cpx.selfTest.isSome then s.finish seq stSelfTestRunning
    else
      let (n, s) := s.draw
      let t : SelfTest := { code := stc, start := s.tbs.clk, draw := n, nsid := nsid }
      (s.setCpx { s.cpx with selfTest := some t }).finish seq stOk

/-- A self-test ends at the second boundary at which its length has passed. -/
def selfTestEnd (s : State) : State :=
  match s.cpx.selfTest with
  | some t =>
    if s.tbs.clk < t.start + Config.selfTestSeconds t.draw t.code * 1000000000 then s
    else logTest s t (Config.selfTestResult t.draw t.code).toNat
  | none => s

/-! ## Virtualization Management (R68) -/

/-- A secondary controller: an existing tenant function; in DRAINING, FROZEN or SAVED it answers with Function Frozen
(R108). -/
def secondary (s : State) (seq f : Nat) (act : State → State) : State :=
  s.managerOnly seq fun _ =>
    if f = 0 ∨ f > 255 ∨ (s.fn f).state = .free then s.finish seq stInvalidCtrlId
    else if held (s.fn f).state then s.finish seq stFrozen
    else act s

/-- SECONDARY_CONTROLLER_ONLINE. -/
def execSecondaryControllerOnline (seq f : Nat) (s : State) : Out :=
  .next <| secondary s seq f fun s => (s.updFn f fun x => { x with offline := false }).finish seq stOk

/-- SECONDARY_CONTROLLER_OFFLINE: an enabled controller is reset; it can be enabled again once it is online. -/
def execSecondaryControllerOffline (seq f : Nat) (s : State) : Out :=
  .next <| secondary s seq f fun s =>
    let s := if (s.fn f).enabled then armReset s f .ccEn else s
    (s.updFn f fun x => { x with offline := true, enabled := false }).finish seq stOk

/-! ## Security Send and Receive (R68) -/

/-- Where the last payload of a function for a protocol is held. -/
def secKey (f secp spsp : Nat) : Nat := f * 2 ^ 24 + secp * 2 ^ 16 + spsp

/-- SECURITY_SEND: protocol 00h takes no data; whether another protocol is there is a free value, and its payload is
held for the answer. -/
def execSecuritySend (seq secp spsp : Nat) (data : List Byte) (s : State) : Out :=
  .next <| s.admin seq fun c =>
    if secp = 0 ∨ secp > 255 ∨ spsp > 65535 ∨ !Config.securityProtocol secp spsp then s.finish seq stInvalidField
    else (s.setKey { s.key with secure := Tbl.set s.key.secure (secKey c.fn secp spsp) data }).finish seq stOk

/-- SECURITY_RECEIVE: protocol 00h lists the protocols: itself and those that are there; another protocol answers the
last payload with a free value. -/
def execSecurityReceive (seq secp spsp len : Nat) (s : State) : Out :=
  .next <| s.admin seq fun c =>
    if secp = 0 then
      if spsp ≠ 0 then s.finish seq stInvalidField
      else
        let l := 0 :: (List.range 255).filterMap fun p => if Config.securityProtocol (p + 1) 0 then some (p + 1) else none
        s.reply seq (slice (zeros 6 ++ [BitVec.ofNat 8 (l.length / 256), BitVec.ofNat 8 l.length] ++ l.map (BitVec.ofNat 8)) 0 len)
    else if secp > 255 ∨ spsp > 65535 ∨ !Config.securityProtocol secp spsp then s.finish seq stInvalidField
    else
      let b := Config.securityAnswer secp spsp (Tbl.getD s.key.secure (secKey c.fn secp spsp) []) s.draws
      (s.draw.2).reply seq (slice b 0 len)

end Sys2Proof.Machine
end

