-- ==== Sys2Proof/Machine/Sideband.lean ====
section
/-! DEFINITION. The sideband: MCTP and NVMe-MI over SMBus, NVMe-MI in-band, UART console and the pins of JTAG
(03 R68; 14 R441, R442, R444, R445, R450). Response layouts are PRESUMED from NVMe-MI. -/

namespace Sys2Proof.Machine

open Sys2Proof

/-! ## Messages (R441) -/

/-- The start-up phase that has been reached, whether or not start-up has stopped in it (R493). -/
def phaseReached (s : State) : Nat := if s.bot.phase = 15 then s.bot.failPhase else s.bot.phase

/-- SBI is released and powered. -/
def sbiUp (s : State) : Bool := sbiPowered s && decide (phaseReached s ≥ 3)

/-- The resident firmware serves NVMe-MI: its cores are released and start-up has not stopped (R483, R493). -/
def miServed (s : State) : Bool := decide (5 ≤ s.bot.phase ∧ s.bot.phase ≤ 11)

/-- A message over MCTP on SMBus: a PEC error is counted and the message is not taken (R441, R450). -/
def mctpIn (s : State) (pec : Bool) (act : State → State) : State :=
  if !sbiUp s then s
  else
    let s := s.wake smbusDomain
    if !pec then (s.bump rSBI_PEC_ERR 1).ev eSBI_PEC_ERR else act (s.bump rSBI_MCTP_RX 1)

/-- SET_ENDPOINT_ID: the bus owner assigns an endpoint ID, 8-254 (R441). -/
def execSetEndpointId (pec : Bool) (eid : Nat) (s : State) : Out :=
  .next <| mctpIn s pec fun s =>
    if within 8 254 eid then (s.setSbi { s.sbi with eid := eid }).ev eSBI_EID_SET else s

/-! ## NVMe-MI commands (R442) -/

/-- NVMe-MI response statuses: invalid opcode, invalid parameter. -/
def miInvalidOpcode : Nat := 0x03
def miInvalidParameter : Nat := 0x04

/-- A response, or the status that refuses the request. -/
abbrev MiReply := Except Nat (List Byte)

/-- Data structures 0 subsystem, 1 port, 2 controller list, 3 controller and 4 optional commands. -/
def miStructure (s : State) (typ ctl : Nat) : MiReply :=
  match typ with
  | 0 | 1 | 3 | 4 => .ok (lay 32 (Config.logByte (0x1000 + 0x100 * typ + ctl % 256) s.draws) [])
  | 2 =>
    let l := (functionsThere s).filter fun f => decide (f ≥ ctl)
    .ok (leBytes 2 l.length ++ l.flatMap (leBytes 2))
  | _ => .error miInvalidParameter

/-- A temperature of the model in whole degrees Celsius, 0 for none. -/
def celsiusByte (t : Option Rat) : Byte := BitVec.ofNat 8 (toSigned 8 (satSigned 8 ((t.map Rat.floor).getD 0)))

/-- Composite status of the subsystem: SMART warnings inverted, Composite Temperature, Percentage Used. -/
def miSubsystem (s : State) : List Byte :=
  lay 8 (Config.logByte 0x1001 s.draws)
    [(1, [~~~ BitVec.ofNat 8 (criticalWarning s 0)]), (2, [celsiusByte (composite s), BitVec.ofNat 8 s.rcl.pctUsed])]

/-- Health of one controller: its number, CSTS, temperature, life, spare and warnings. -/
def miController (s : State) (f : Nat) : List Byte :=
  lay 16 (Config.logByte (0x1100 + f) s.draws)
    [(0, leBytes 2 f), (2, leBytes 2 (csts s f)), (4, kelvinBytes (composite s)),
     (6, [BitVec.ofNat 8 s.rcl.pctUsed, BitVec.ofNat 8 s.rcl.availSpare, BitVec.ofNat 8 (criticalWarning s f)])]

/-- Health of up to `n` controllers from number `from_` on. -/
def miControllers (s : State) (from_ n : Nat) : List Byte :=
  let l := ((functionsThere s).filter fun f => decide (f ≥ from_)).take n
  leBytes 4 l.length ++ l.flatMap (miController s)

/-- Configuration Get: 1 SMBus frequency (1-3), 3 MCTP transmission unit. -/
def miConfigGet (s : State) (cfg : Nat) : MiReply :=
  match cfg with
  | 1 => .ok (leBytes 4 (s.rd rSBI_SMB_SPEED + 1))
  | 3 => .ok (leBytes 4 s.sbi.mtu)
  | _ => .error miInvalidParameter

/-- Configuration Set: the frequencies of R441 and units of 64-250 B. -/
def miConfigSet (s : State) (cfg v : Nat) : Except Nat State :=
  match cfg with
  | 1 => if within 1 3 v then .ok (s.wr rSBI_SMB_SPEED (v - 1)) else .error miInvalidParameter
  | 3 => if within 64 250 v then .ok (s.setSbi { s.sbi with mtu := v }) else .error miInvalidParameter
  | _ => .error miInvalidParameter

/-- Bytes of the 256 B VPD area, which is held in the external NOR. -/
def miVpdRead (s : State) (off len : Nat) : MiReply :=
  if off + len > 256 then .error miInvalidParameter
  else .ok ((List.range len).map fun k => Tbl.getD s.nor.vpd (off + k) 0)

def miVpdWrite (s : State) (off : Nat) (data : List Byte) : Except Nat State :=
  if off + data.length > 256 then .error miInvalidParameter
  else
    let vpd := data.zipIdx.foldl (fun (t : Tbl Byte) (b : Byte × Nat) => Tbl.put t (off + b.2) b.1 0) s.nor.vpd
    .ok (s.setNor { s.nor with vpd := vpd })

/-- The answer of a request that reads. -/
def miReply (s : State) (r : MiReply) : State :=
  match r with
  | .ok b => (s.answer (.bytes b)).draw.2
  | .error e => s.answer (.refusal e)

/-- The answer of a request that changes the block. -/
def miDone (s : State) (r : Except Nat State) : State :=
  match r with
  | .ok t => t.answer .none
  | .error e => s.answer (.refusal e)

/-- An NVMe-MI message over MCTP. -/
def miIn (s : State) (pec : Bool) (act : State → State) : State :=
  mctpIn s pec fun s => if miServed s then act s else s

def execReadNvmeMiDataStructure (pec : Bool) (typ ctl : Nat) (s : State) : Out :=
  .next <| miIn s pec fun s => miReply s (miStructure s typ ctl)

def execSubsystemHealthStatusPoll (pec : Bool) (s : State) : Out :=
  .next <| miIn s pec fun s => miReply s (.ok (miSubsystem s))

def execControllerHealthStatusPoll (pec : Bool) (from_ n : Nat) (s : State) : Out :=
  .next <| miIn s pec fun s => miReply s (.ok (miControllers s from_ n))

def execConfigurationGet (pec : Bool) (cfg : Nat) (s : State) : Out :=
  .next <| miIn s pec fun s => miReply s (miConfigGet s cfg)

def execConfigurationSet (pec : Bool) (cfg v : Nat) (s : State) : Out :=
  .next <| miIn s pec fun s => miDone s (miConfigSet s cfg v)

def execVpdRead (pec : Bool) (off len : Nat) (s : State) : Out :=
  .next <| miIn s pec fun s => miReply s (miVpdRead s off len)

def execVpdWrite (pec : Bool) (off : Nat) (data : List Byte) (s : State) : Out :=
  .next <| miIn s pec fun s => miDone s (miVpdWrite s off data)

/-- NVME_MI_RESET: a device reset. -/
def execNvmeMiReset (pec : Bool) (s : State) : Out :=
  .next <| miIn s pec fun s => miDone s (.ok (armDeviceReset s .nvmeMi))

/-! ## Tunnelled admin commands (R442) -/

/-- A log page that the tunnel reads of function `f`: an NVMe-defined page, or 0xC2-0xC5. The Log Specific Identifier of
0xC2 names a function; 0xC5 belongs to function 0. -/
def tunnelPage (s : State) (f lid lsp lsi off len : Nat) : Except Status (List Byte) :=
  match lid with
  | 0xC2 => if f ≠ 0 ∧ lsi ≠ f ∨ lsi > 255 then .error stInvalidField else .ok (slice (harnessStatus s lsi) off len)
  | 0xC3 => .ok (slice (redundancyPage s) off len)
  | 0xC4 => .ok (slice (thermalPage s) off len)
  | 0xC5 =>
    if f ≠ 0 then .error stInvalidField
    else if lsp % 2 = 1 then .ok (slice (ledgerSummary s.evl) 0 len)
    else if off % 64 ≠ 0 then .error stInvalidField
    else .ok (slice (ledgerPage s.evl (off / 64) ((len + 63) / 64)) 0 len)
  | _ =>
    match nvmePage s f lid with
    | some b => if off > b.length then .error stInvalidField else .ok (slice b off len)
    | none => .error stInvalidLogPage

/-- Get Features of function `f`: its value, or the Timestamp structure. -/
def tunnelFeature (s : State) (f fid dw11 : Nat) : Except Status (List Byte) :=
  if fid = 0x0E then .ok (timestampBytes s)
  else match featureValue s f (if fid = 4 then thresholdKey (BitVec.ofNat 32 dw11) else fid) with
    | some v => .ok (leBytes 4 v.toNat)
    | none => .error stInvalidField

/-- TUNNELLED_ADMIN_COMMAND to function `f`: Identify, Get Log Page and Get Features; every other opcode is an invalid
command opcode. -/
def execTunnelledAdminCommand (pec : Bool) (f opcode nsid dw10 dw11 off len : Nat) (s : State) : Out :=
  .next <| miIn s pec fun s =>
    if (s.fn f).state = .free then s.answer (.refusal miInvalidParameter)
    else
      let r : Except Status (List Byte) := match opcode with
        | 0x02 => tunnelPage s f (dw10 % 256) (dw10 / 256 % 128) (dw11 / 65536) off len
        | 0x06 => identifyData s f (dw10 % 256) nsid (dw10 / 65536) (dw11 / 2 ^ 24)
        | 0x0A => tunnelFeature s f (dw10 % 256) dw11
        | _ => .error stInvalidOpcode
      match r with
      | .ok b => (s.answer (.bytes b)).draw.2
      | .error t => s.answer (.refusal (256 * t.sct + t.sc))

/-! ## NVMe-MI in-band (R68) -/

/-- NVME_MI_SEND: opcode 03h Configuration Set, 06h VPD Write, 07h Reset; the response status is Dword 0's low byte. -/
def execNvmeMiSend (seq op a v : Nat) (data : List Byte) (s : State) : Out :=
  .next <| s.managerOnly seq fun _ =>
    let r : Except Nat State := match op with
      | 3 => miConfigSet s a v
      | 6 => miVpdWrite s a data
      | 7 => .ok (armDeviceReset s .nvmeMi)
      | _ => .error miInvalidOpcode
    match r with
    | .ok t => t.finish seq stOk
    | .error e => s.complete seq stOk (BitVec.ofNat 32 e)

/-- NVME_MI_RECEIVE: opcode 00h data structure, 01h and 02h health polls, 04h Configuration Get, 05h VPD Read. -/
def execNvmeMiReceive (seq op a v : Nat) (s : State) : Out :=
  .next <| s.managerOnly seq fun _ =>
    let r : MiReply := match op with
      | 0 => miStructure s a v
      | 1 => .ok (miSubsystem s)
      | 2 => .ok (miControllers s a v)
      | 4 => miConfigGet s a
      | 5 => miVpdRead s a v
      | _ => .error miInvalidOpcode
    match r with
    | .ok b => (s.draw.2).reply seq b
    | .error e => s.complete seq stOk (BitVec.ofNat 32 e)

/-! ## Basic management, UART and JTAG (R441, R444, R445) -/

/-- BASIC_MANAGEMENT_COMMAND at address 0x6A: the status block from 0 and the identity block from 8, without their PEC
bytes. -/
def execBasicManagementCommand (s : State) : Out :=
  .next <|
    if !(sbiUp s && miServed s) then s
    else
      let id (k : Nat) : Byte := Config.identifyByte s.bot.cfg.digest 0 0x100 k
      let b := lay 31 (fun k => if k < 8 then Config.logByte 0x1002 s.draws k else id k)
        [(0, [6]), (2, [~~~ BitVec.ofNat 8 (criticalWarning s 0), celsiusByte (composite s), BitVec.ofNat 8 s.rcl.pctUsed]),
         (8, [22]), (9, [id 0, id 1]), (11, (List.range 20).map fun k => id (4 + k))]
      miReply (s.wake smbusDomain) (.ok b)

/-- UART_CONSOLE_INPUT: accepted only while UART_IN_EN is 1. -/
def execUartConsoleInput (data : List Byte) (s : State) : Out :=
  .next <|
    if !sbiUp s then s
    else
      let s := s.wake uartDomain
      if s.rd rSBI_UART_IN_EN = 1 then s.setSbi { s.sbi with console := s.sbi.console ++ data } else s

/-! ## GPIO (R446) -/

/-- Function code of a ball; 6-15 are treated as 0. -/
def gpioFunc (s : State) (n : Nat) : Nat :=
  let c := s.rd rSBI_GPIO_FUNC / 16 ^ n % 16
  if c ≥ 6 then 0 else c

/-- A fault that the fault LED shows: CSTS.CFS on function 0, the read-only or the degraded state. -/
def faultShown (s : State) : Bool := cfs s 0 || s.rcl.readOnly || s.stp.degraded

/-- Level that the function of a ball asks for; none for an input. The activity LED is low while commands are in flight,
pulsed at 8 Hz: DEDUCED low in the first half of each 125 ms. -/
def gpioAsks (s : State) (n : Nat) : Option Bool :=
  match gpioFunc s n with
  | 1 => some (s.qmx.cmds.isEmpty || decide (s.tbs.clk / 62500000 % 2 = 1))
  | 2 => some (!faultShown s)
  | 3 => some (!(s.thm.warn || decide (s.thm.level > 0)))
  | 4 => some (decide (s.tbs.strideInSec < 125))
  | 5 => some (!s.rcl.readOnly)
  | _ => if s.rd rSBI_GPIO_DIR / 2 ^ n % 2 = 1 then some (decide (s.rd rSBI_GPIO_OUT / 2 ^ n % 2 = 1)) else none

/-- Level that a ball drives; none where it floats: an input, a high open-drain output, and every ball during snuff. -/
def gpioDrives (s : State) (n : Nat) : Option Bool :=
  if s.thm.snuff = .off then none
  else match gpioAsks s n with
    | some true => if s.rd rSBI_GPIO_OD / 2 ^ n % 2 = 1 then none else some true
    | x => x

/-- GPIO_IN: the ball levels, what the board gives where the device does not drive. -/
def gpioLevels (s : State) : BitVec 8 :=
  BitVec.ofNat 8 ((List.range 8).map fun n =>
    if (gpioDrives s n).getD ((Config.gpioIn s.tbs.clk).getLsbD n) then 2 ^ n else 0).sum

/-- JTAG_PIN_INSTRUCTION_EXIT: leaving EXTEST, or another instruction that drove the pins, is a device reset. -/
def execJtagPinInstructionExit (s : State) : Out := .next (armDeviceReset (s.wake jtagDomain) .jtag)

end Sys2Proof.Machine
end

