-- ==== Sys2Proof/Machine/Admit.lean ====
section
/-! DEFINITION. Admission of commands into the plan: what each kind of command needs and reserves (R73, R80-R82, R91,
R150, R154, R167, R175, R340, R389), and the deficit round robin over functions (R77, R115). -/

namespace Sys2Proof.Machine

open Sys2Proof

/-! ## Costs (R115, R248) -/

/-- Slots in 1/256 and die time in 1/256 die-strides. -/
abbrev Cost := Nat × Nat

/-- Strides of a native program, from the profile of the lowest die in service (R202). -/
def programStrides (s : State) : Nat := ((s.fch.dies.find? fun p => p.2.service).map fun p => p.2.profile.prog).getD 0

/-- A write of `n` granules: a data slot each, 3/8 of a slot and a PROGRAM for each program unit (R115, R248). -/
def writeCost (s : State) (n : Nat) : Cost :=
  let g := max (puGran s) 1
  (256 * n + 96 * ((n + g - 1) / g), 256 * programStrides s * n / g)

/-- Media reads of a list of MGAs: a slot each, and 3/8 of a slot and one tR for each run within a page group (R115,
R155, R248). -/
def readCost (s : State) : Option Nat → List Nat → Cost
  | _, [] => (0, 0)
  | last, m :: r =>
    let (a, b) := readCost s (some m) r
    match last with
    | some k => if m = k + 1 ∧ pageGroup s m = pageGroup s k then (a + 256, b)
        else (a + 352, b + 256 * (s.die (mgaParts s m).die).profile.tr)
    | none => (a + 352, b + 256 * (s.die (mgaParts s m).die).profile.tr)

/-! ## Writes: slots and fine units (R150, R175) -/

/-- The parts of a block range by coarse unit: first block and count. -/
def segments (lba n : Nat) : Nat → List (Nat × Nat)
  | 0 => []
  | fuel + 1 =>
    if n = 0 then []
    else
      let k := min n (16 - lba % 16)
      (lba, k) :: segments (lba + k) (n - k) fuel

/-- The first and the last of those parts. -/
def edges (lba n : Nat) : List (Nat × Nat) :=
  if n = 0 then []
  else
    let k := min n (16 - lba % 16)
    let e := lba + n - 1
    if e / 16 = lba / 16 then [(lba, k)] else [(lba, k), (e - e % 16, e % 16 + 1)]

/-- A fetched change ahead of `c`, admitted and not complete, touches unit `u` of its namespace: the unit's kind at the
command's completion point is not yet known. -/
def unitInFlight (s : State) (c : Cmd) (u : Nat) : Bool :=
  (earlier s c).any fun d => d.admitted && d.changes && d.ns == c.ns && rangesMeet d.spans [(16 * u, 16)]

/-- Fine units that a part of a unit needs: one unless the unit is FINE and stays so (R150). -/
def partNeed (s : State) (c : Cmd) (g : Nat × Nat) : Nat :=
  if g.2 = 16 then 0
  else if (coarseOf s c.ns (g.1 / 16)).kind = .fine ∧ !unitInFlight s c (g.1 / 16) then 0 else 1

/-- Take `n` single slots; `k` is the offset of the first in the command. -/
def takeSingles (s : State) (c : Cmd) (data : List Block) (metas : List (BitVec 128)) (k : Nat) :
    Nat → State × List Nat
  | 0 => (s, [])
  | n + 1 =>
    match freeSlotIndex s with
    | none => (s, [])
    | some i =>
      let x : Slot := { Slot.free with
        state := .filling, fn := c.fn, epoch := c.epoch, ns := c.ns, lba := c.lba + k, cmd := c.seq,
        data := data.getD k 0, hostMeta := metas.getD k 0 }
      let (s, r) := takeSingles (s.setSlot i x) c data metas (k + 1) n
      (s, i :: r)

/-- Take an aligned group of 16. -/
def takeGroup (s : State) (c : Cmd) (data : List Block) (metas : List (BitVec 128)) (k b : Nat) : State :=
  (List.range 16).foldl (fun s j => s.setSlot (b + j) { Slot.free with
    state := .filling, fn := c.fn, epoch := c.epoch, ns := c.ns, lba := c.lba + k + j, cmd := c.seq,
    group := j == 0, data := data.getD (k + j) 0, hostMeta := metas.getD (k + j) 0 }) s

/-- The slots of a conventional write, in block order, and the fine units that it must reserve (R150, R175). -/
def takeSlots (s : State) (c : Cmd) (data : List Block) (metas : List (BitVec 128)) : State × List Nat × Nat :=
  (segments c.lba c.nlb c.nlb).foldl (fun (a : State × List Nat × Nat) g =>
    let k := g.1 - c.lba
    match (if g.2 = 16 then freeSlotGroup a.1 else none) with
    | some b => (takeGroup a.1 c data metas k b, a.2.1 ++ (List.range 16).map (b + ·), a.2.2)
    | none =>
      let (t, l) := takeSingles a.1 c data metas k g.2
      (t, a.2.1 ++ l, a.2.2 + (if g.2 = 16 then 1 else partNeed s c g))) (s, [], 0)

/-- A wait for a fine unit (R154): counted once for each command, the first in a second reported. -/
def fineWait (s : State) (c : Cmd) : State :=
  let s := if c.waited then s else (s.bump rMAP_FINE_WAIT 1).updCmd c.seq fun c => { c with waited := true }
  if s.map.fineEmptySeen then s
  else ((s.setMap { s.map with fineEmptySeen := true }).ev eMAP_FINE_EMPTY).raise lMAP_FINE_EMPTY none []

/-- An attempt to admit a command: admitted (or ended) at a cost, passed over, or held until its function has
credit. -/
inductive Tried
  | admitted (s : State) (cost : Cost) (read : Bool)
  | passed (s : State)
  | noCredit
  deriving Repr

/-- Whether a cost may be granted, as the round robin says. -/
abbrev Grant := Cost → Bool

/-- The write credit that an admission subtracts under throttling, and the floor at which none is admitted (R340,
R341). -/
def writePaced (s : State) (n : Nat) : Option State :=
  if s.par.layout.isNone then some s
  else if atFloor s then none
  else if !belowUrgent s then some s
  else if s.rcl.credit ≥ (n : Nat) then some (s.setRcl { s.rcl with credit := s.rcl.credit - (n : Nat) })
  else none

/-- A write of a conventional namespace (R150, R154, R175). -/
def admitPlain (s : State) (c : Cmd) (data : List Block) (metas : List (BitVec 128)) (g : Grant) : Tried :=
  match writePaced s c.nlb with
  | none => .passed s
  | some t =>
    if hostRoom s < c.nlb then .passed s
    else if !g (writeCost s c.nlb) then .noCredit
    else
      let (t, slots, need) := takeSlots t c data metas
      if need > fineFree s then .passed (fineWait s c)
      else
        let t := t.setMap { t.map with fineReserved := t.map.fineReserved + need }
        .admitted (t.updCmd c.seq fun c => { c with admitted := true, slots := slots, fineRsv := need })
          (writeCost s c.nlb) false

/-- An earlier change of the zone is not yet admitted, or a zone action on it not yet complete (R82). -/
def behindZone (s : State) (c : Cmd) (sp : Space) : Bool :=
  let z := (c.lba / max sp.zsze 1 * sp.zsze, sp.zsze)
  (earlier s c).any fun d => d.body == .undecoded || (d.ns == c.ns && d.changes && rangesMeet d.spans [z] &&
    (!d.admitted || (match d.body with | .zone .. => true | _ => false)))

/-- A Write, Zone Append or Write Zeroes of a zone is checked against the write pointer at admission (R82, R159): a
refusal, or the address that it takes. -/
def zoneCheck (sp : Space) (c : Cmd) (append : Bool) : Except Status Nat :=
  let (z, off) := zoneOf sp c.lba
  let x := sp.zone z
  let at_ := if append then x.wp else off
  if x.state = .readOnly then .error stZoneReadOnly
  else if x.state = .full then .error stZoneFull
  else if off + c.nlb > sp.zsze ∧ !append then .error stZoneBoundary
  else if off ≠ x.wp ∧ !append then .error stZoneInvalidWrite
  else if at_ + c.nlb > sp.zcap then .error stZoneBoundary
  else .ok (z * sp.zsze + at_)

/-- The write pointer moves past the blocks that a write reserves; at the zone capacity the zone is Full. -/
def advanceZone (s : State) (ns z n zcap : Nat) : State :=
  s.updZone ns z fun x => { x with wp := x.wp + n, data := x.data + n,
                                   state := if x.wp + n ≥ zcap then .full else x.state }

/-- A write of a zoned namespace (R82, R159). -/
def admitZoned (s : State) (c : Cmd) (sp : Space) (append : Bool) (data : List Block) (metas : List (BitVec 128))
    (g : Grant) : Tried :=
  if behindZone s c sp then .passed s
  else match zoneCheck sp c append with
  | .error t => .admitted (finishIo s c t 0 0 0 0) (0, 0) false
  | .ok lba =>
    match writePaced s c.nlb with
    | none => .passed s
    | some t =>
      if hostRoom s < c.nlb then .passed s
      else if !g (writeCost s c.nlb) then .noCredit
      else if reopenWaits s c.ns (lba / max sp.zsze 1) then .passed (fineWait s c)
      else match openZone t c.fn c.ns (lba / max sp.zsze 1) false with
        | .error e => .admitted (finishIo s c e 0 0 0 0) (0, 0) false
        | .ok t =>
          let t := advanceZone t c.ns (lba / max sp.zsze 1) c.nlb sp.zcap
          let d := { c with lba := lba }
          let (t, slots) := takeSingles t d data metas 0 c.nlb
          .admitted (t.updCmd c.seq fun c => { c with admitted := true, lba := lba, slots := slots })
            (writeCost s c.nlb) false

/-! ## Reads (R80, R146, R155, R174, R389) -/

/-- The granule of a buffered block as a read takes it. -/
def slotBlock (x : Slot) : Block := if x.pad then 0 else match x.raw with
  | some r => infoData r
  | none => x.data

/-- A read of a block that a fine unit maps sets the unit's AGE to 0 (R149). -/
def touchFine (s : State) (ns lba : Nat) : State :=
  let young (f : Nat) : State := s.setMap { s.map with fine := Tbl.upd s.map.fine f fun u => { u with age := 0 } }
  match s.space ns with
  | none => s
  | some sp =>
    match sp.typ with
    | .conventional =>
      let e := coarseOf s ns (lba / 16)
      if e.kind = .fine then young e.addr else s
    | .zoned =>
      let (z, off) := zoneOf sp lba
      let e := chunkOf s ns z (off / puGran s)
      if e.kind = .fine then young (e.addr + off % puGran s / 16) else s

/-- Resolve block `k` of a read: zeros, a slot, an error, or a media read. -/
def resolveBlock (s : State) (c : Cmd) (k : Nat) : State × ReadPart × Option Nat :=
  let e := blockEntry s c.ns (c.lba + k)
  let blank := ((s.space c.ns).map blankMeta).getD 0
  let p : ReadPart := { lba := c.lba + k, src := .zeros, done := none, hostMeta := blank, err := none }
  let s := touchFine s c.ns (c.lba + k)
  match e.kind with
  | .buffer =>
    let x := s.slot e.addr
    (s.setSlot e.addr { x with readers := x.readers + 1 },
     { p with src := .buffer e.addr, done := some (slotBlock x), hostMeta := if x.pad then blank else x.hostMeta }, none)
  | .media =>
    let j : RdJob :=
      { id := s.stp.nextJob, cmd := c.seq, part := k, mga := e.addr, ns := c.ns, lba := c.lba + k,
        keyGen := (s.keySlot (keySlotNs c.ns)).gen, gait := c.gait,
        tag := { fn := c.fn, epoch := c.epoch, pinned := false }, kind := .direct, step := 1,
        admitTick := tickPlus s 1, limit := directLimit s c.gait s.stp.degraded, placed := false, members := [],
        result := none, corrected := 0 }
    (s.setStp { s.stp with reads := s.stp.reads ++ [j], nextJob := s.stp.nextJob + 1 },
     { p with src := .media e.addr }, some e.addr)
  | .uncorr | .poison => (s, { p with src := .bad false, err := some (2, 0x81) }, none)
  | .lost => (s, { p with src := .bad true, err := some (7, 8) }, none)
  | .unmapped | .fine => (s, { p with done := some 0 }, none)

/-- Every block of a read resolved, with the MGAs that it reads. -/
def resolveRead (s : State) (c : Cmd) : State × List ReadPart × List Nat :=
  (List.range c.nlb).foldl (fun (a : State × List ReadPart × List Nat) k =>
    let (s, p, m) := resolveBlock a.1 c k
    (s, a.2.1 ++ [p], a.2.2 ++ m.toList)) (s, [], [])

/-- A read of a GCM namespace. -/
def isGcm (s : State) (c : Cmd) : Bool :=
  c.resolves && ((s.space c.ns).map Space.mode == some .gcm)

/-- Places of the hold buffer that admitted GCM reads have reserved (R389). -/
def holdReserved (s : State) : Nat := ((s.qmx.cmds.filter fun c => c.admitted && isGcm s c).map Cmd.nlb).sum

/-- A GCM read finds no room in the hold buffer of 1,024 granules: the stride is counted once (R389). -/
def holdWait (s : State) : State :=
  if s.cip.waited then s else ((s.setCip { s.cip with waited := true }).bump rCIP_HOLD_WAIT 1).ev eCIP_HOLD_WAIT

/-- A Read, Compare or Verify (R80). -/
def admitRead (s : State) (c : Cmd) (g : Grant) : Tried :=
  if behindWrite s c then
    .passed (if c.waited then s else (s.bump rQMX_OVL_WAIT 1).updCmd c.seq fun c => { c with waited := true })
  else if isGcm s c && decide (holdReserved s + c.nlb > 1024) then .passed (holdWait s)
  else
    let (t, parts, mgas) := resolveRead s c
    let cost := readCost s none mgas
    if !g cost then .noCredit
    else .admitted (t.updCmd c.seq fun c => { c with admitted := true, parts := parts }) cost true

/-! ## Changes of the map alone, zone actions, Flush (R90, R91, R150, R167) -/

/-- Fine units for the partly covered units of every range (R150, R154). -/
def admitMap (s : State) (c : Cmd) : Tried :=
  let need := ((c.spans.flatMap fun r => edges r.1 r.2).map (partNeed s c)).sum
  if need > fineFree s then .passed (fineWait s c)
  else
    let s := s.setMap { s.map with fineReserved := s.map.fineReserved + need }
    .admitted (s.updCmd c.seq fun c => { c with admitted := true, fineRsv := need }) (0, 0) false

/-- Namespace indices that a Flush covers (R90). -/
def flushCovers (s : State) (c : Cmd) (all : Bool) : List Nat :=
  if all then (s.fn c.fn).spaces.map Prod.snd else [c.ns]

/-- A granule that a Flush covers: its write was complete when the Flush was fetched (R91). -/
def flushSlot (nss : List Nat) (c : Cmd) (x : Slot) : Bool :=
  x.pinned && !x.reserve && !x.pad && nss.contains x.ns && decide (0 < x.landed ∧ x.landed ≤ c.mark)

/-- Slots that a target holds: a group stands for sixteen. -/
def targetSlots (s : State) (t : Nat) : List Nat :=
  ((s.target t).held.flatMap fun i => if (s.slot i).group then (List.range 16).map (i + ·) else [i]) ++
    (match openChunk s t with
     | some u => u.slots.filterMap id
     | none => [])

/-- A program unit holds covered granules, or held them when it was programmed. -/
def flushUnit (s : State) (nss : List Nat) (c : Cmd) (u : Pu) : Bool :=
  if u.state = .done then u.cov.any fun p => nss.contains p.1 && decide (0 < p.2 ∧ p.2 ≤ c.mark)
  else (u.slots.filterMap id).any fun i => flushSlot nss c (s.slot i)

/-- An open row of a target stream holds covered granules: in a program unit, or programmed already. -/
def flushRow (s : State) (nss : List Nat) (c : Cmd) (r : Row) : Bool :=
  decide (r.stream < 252 ∧ r.state ≠ 4) &&
    s.wbf.pus.any fun u => u.placed && u.stream == r.stream && u.serial == r.serial && flushUnit s nss c u

/-- The row is padded to closure, charged to `f`, unless granules of a marked target, or a marked program unit, are
still to enter it. -/
def padOpenRow (s : State) (f : Nat) (r : Row) : State :=
  let marked := (s.wbf.targets.any fun p => p.2.stream == some r.stream && p.2.closeRow) ||
    s.wbf.pus.any fun u => u.stream == r.stream && u.state == .waiting && u.rowPad
  s.updStream r.stream fun x =>
    if x.state = .accumulating ∧ x.serial = r.serial ∧ x.members < dataMembers s ∧ !marked then
      { x with padRow := true, padFn := f }
    else x

/-- Flush: on a tethered function the targets and program units that hold covered granules not yet in a row, and the open
rows that hold covered ones, are marked for closing (R91, R186); elsewhere nothing waits. -/
def admitFlush (s : State) (c : Cmd) (all : Bool) : Tried :=
  let s := s.updCmd c.seq fun c => { c with admitted := true }
  if !(s.fn c.fn).harness.tether then .admitted s (0, 0) false
  else
    let nss := flushCovers s c all
    let ts := (s.wbf.targets.map Prod.fst).filter fun t => (ctlStream t).isNone &&
      (targetSlots s t).any fun i => flushSlot nss c (s.slot i)
    let us := s.wbf.pus.filter fun u => u.state == .waiting && u.stream < 252 && flushUnit s nss c u
    let held := ((ts.flatMap (targetSlots s)) ++ us.flatMap fun u => u.slots.filterMap id).filter fun i =>
      flushSlot nss c (s.slot i)
    let rows := s.par.rows.filter (flushRow s nss c)
    let s := ts.foldl (fun s t => markClose s t c.fn true) s
    let s := us.foldl (fun s u => s.updPu u.recNo fun u => { u with rowPad := true, padFn := c.fn }) s
    let s := rows.foldl (fun s r => padOpenRow s c.fn r) s
    .admitted (s.updCmd c.seq fun c => { c with slots := held, rows := rows.map fun r => (r.stream, r.serial) }) (0, 0)
      false

/-- A Format NVM fetched before an I/O command and not yet in effect holds it: the command is to see the namespace empty
(R141). One that has not come to its checks yet holds every namespace. -/
def behindFormat (s : State) (c : Cmd) : Bool :=
  s.qmx.cmds.any fun d => d.admin && d.op == 0x80 && decide (d.seq < c.seq) && d.body == .undecoded &&
    (decide (d.nlb = 0) || d.ranges.any fun r => r.1 == c.ns)

/-- One command of an existing namespace is tried. -/
def tryBody (s : State) (c : Cmd) (sp : Space) (g : Grant) : Tried :=
  match c.body with
  | .flush _ | .undecoded | .adminWait => .passed s
  | .read | .compare _ | .verify => admitRead s c g
  | .mapOnly _ => if s.map.deltaFull then .passed s else admitMap s c
  | .zone .. =>
    if s.map.deltaFull then .passed s
    else .admitted (s.updCmd c.seq fun c => { c with admitted := true }) (0, 0) false
  | .write _ append _ data metas =>
    if s.map.deltaFull then .passed s
    else match sp.typ with
      | .conventional => admitPlain s c data metas g
      | .zoned => admitZoned s c sp append data metas g

/-- One command is tried. -/
def tryAdmit (s : State) (c : Cmd) (g : Grant) : Tried :=
  match c.body, s.space c.ns with
  | .flush all, _ => admitFlush s c all
  | .undecoded, _ | .adminWait, _ => .passed s
  | _, none => .admitted (finishIo s c stInvalidNs 0 0 0 0) (0, 0) false
  | _, some sp => if behindFormat s c then .passed s else tryBody s c sp g

/-! ## The round robin (R77, R115) -/

/-- What a function may use in the plan being built: cost granted to it so far from its credit (reads are charged when
they are placed, so the credit does not show them yet) and surplus left. -/
structure Share where
  used : Int × Int
  surplus : Int × Int
  /-- no credit was left for its command in turn: the later ones of that gait wait -/
  stopped : Bool
  deriving Repr

/-- A cost fits the credit: each resource that it needs is positive, and covers it or stands at its cap. -/
def creditFits (credit used : Int) (cap cost : Nat) : Bool :=
  cost == 0 || (decide (credit - used > 0) && (decide (credit - used ≥ (cost : Nat)) || decide (credit - used ≥ (cap : Nat))))

/-- Both resources of a function's credit fit a cost. -/
def fromCredit (x : Fn) (h : Share) (c : Cost) : Bool :=
  creditFits x.slotCredit h.used.1 (125 * x.planSlot) c.1 && creditFits x.dieCredit h.used.2 (125 * x.planDie) c.2

/-- The function's part of the capacity that no function claims is not yet used up; HARD functions have none. -/
def fromSurplus (h : Share) (c : Cost) : Bool :=
  (c.1 == 0 || decide (h.surplus.1 > 0)) && (c.2 == 0 || decide (h.surplus.2 > 0))

/-- The credit after a grant: a write is charged now, a read when it is placed; a read on surplus gains beforehand what
its placement will take. -/
def chargeGrant (s : State) (f : Nat) (h : Share) (c : Cost) (read : Bool) : State × Share :=
  if fromCredit (s.fn f) h c then
    if read then (s, { h with used := (h.used.1 + (c.1 : Nat), h.used.2 + (c.2 : Nat)) })
    else (chargeFn s f c.1 c.2, h)
  else
    let h := { h with surplus := (h.surplus.1 - (c.1 : Nat), h.surplus.2 - (c.2 : Nat)) }
    if read then
      (s.updFn f fun x => { x with slotCredit := x.slotCredit + (c.1 : Nat), dieCredit := x.dieCredit + (c.2 : Nat) },
       { h with used := (h.used.1 + (c.1 : Nat), h.used.2 + (c.2 : Nat)) })
    else (s, h)

/-- A command of a function in its turn. -/
def turnOf (a : State × Tbl Share) (seq : Nat) : State × Tbl Share :=
  match a.1.cmd? seq with
  | none => a
  | some c =>
    let h := Tbl.getD a.2 c.fn { used := (0, 0), surplus := (0, 0), stopped := false }
    if h.stopped then a
    else match tryAdmit a.1 c fun k => fromCredit (a.1.fn c.fn) h k || fromSurplus h k with
      | .passed s => (s, a.2)
      | .noCredit => (a.1, Tbl.set a.2 c.fn { h with stopped := true })
      | .admitted s k read =>
        let (s, h) := chargeGrant s c.fn h k read
        (s, Tbl.set a.2 c.fn h)

/-- Fetched I/O commands that wait for admission. -/
def waiting (s : State) : List Cmd := s.qmx.cmds.filter fun c =>
  !c.admin && !c.admitted && c.body != .undecoded && c.body != .adminWait

/-- Functions with work that the ordering rules let start: commands, or program units to be placed (R184). -/
def activeFns (s : State) : List Nat :=
  let units := s.wbf.pus.filter fun u => u.state == .assembled && decide (u.stream < 252 ∧ u.member < 254) && !puPlaced s u
  (((waiting s).filter fun c => !(c.resolves && behindWrite s c)).map Cmd.fn ++ units.map Pu.fn).eraseDups

/-- Credit of a function with admissible work at a stride, cut at 125 strides' worth (R115). -/
def accrue (x : Fn) : Fn :=
  { x with slotCredit := min (x.slotCredit + x.planSlot) (125 * x.planSlot : Nat),
           dieCredit := min (x.dieCredit + x.planDie) (125 * x.planDie : Nat) }

/-- Percent of the pools that functions may use in this stride: not the quota's 2, nor the background shares that have work;
a share without work is offered to functions (R264). -/
def hostPct (s : State) : Nat :=
  let used (b : Bool) (n : Nat) : Nat := if b then n else 0
  let reclaims := !s.rcl.victims.isEmpty || belowLow s
  98 - min 98 (used reclaims s.stp.rclNow + used (s.par.groomSpan.isSome || groomOverdue s) s.stp.groomNow +
    used (!s.par.queue.isEmpty) s.stp.rebuildNow)

/-- Each active function's part of the pool that no function claims, by its shares (R115). -/
def surplusOf (s : State) (fs : List Nat) : Tbl Share :=
  let soft := fs.filter fun f => !(s.fn f).planHard
  let sum (g : Fn → Nat) (l : List Nat) : Nat := (l.map fun f => g (s.fn f)).sum
  let slots := poolSlots s * slotPct s / 100 * hostPct s / 100 - sum Fn.planSlot fs
  let dies := poolDies s * (4 - s.stp.throttle) / 4 * hostPct s / 100 - sum Fn.planDie fs
  soft.foldl (fun t f => Tbl.set t f
    { used := (0, 0), stopped := false,
      surplus := ((slots * (s.fn f).planSlot / max (sum Fn.planSlot soft) 1 : Nat),
                  (dies * (s.fn f).planDie / max (sum Fn.planDie soft) 1 : Nat)) }) []

/-- Functions in the order of the round robin: the one with the greatest slot credit first, the lowest number on a
tie. -/
def robinOrder (s : State) (fs : List Nat) : List Nat :=
  sortBy (fun f => (2 ^ 64 - (s.fn f).slotCredit).toNat * 256 + f) fs

/-- Commands that wait, of one gait, in the order of R77. -/
def gaitOrder (s : State) (fs : List Nat) (g : Nat) : List Nat :=
  fs.flatMap fun f => ((waiting s).filter fun c => c.fn == f && c.gait == g).map Cmd.seq

/-- Step 3 of the plan: admission in gait, round robin and intake order (R77). -/
def admitAll (s : State) : State :=
  let active := activeFns s
  let s := s.setStp { s.stp with unclaimed := active.isEmpty }
  let s := active.foldl (fun s f => s.updFn f accrue) s
  let fs := robinOrder s ((waiting s).map Cmd.fn).eraseDups
  let shares := surplusOf s active
  ([0, 1, 2, 3].foldl (fun (a : State × Tbl Share) g =>
    let a := (gaitOrder a.1 fs g).foldl turnOf a
    (a.1, Tbl.map a.2 fun _ h => { h with stopped := false })) (s, shares)).1

end Sys2Proof.Machine
end

