-- ==== Sys2Proof/Machine/Stride.lean ====
section
/-! DEFINITION. What a stride boundary, a step and a second boundary bring about: the plan for the stride that begins
(02 R37-R41, R50, R60-R63; 03 R77; 07 R205-R246; 08 R246-R269; 06 R178, R186, R192; 95 STRIDE_TICK, SECOND_BOUNDARY). -/

namespace Sys2Proof.Machine

open Sys2Proof

/-! ## Die operations over a stride (R215, R221, R223, R246, R256) -/

/-- An operation has run one more stride. A program's array time begins when its data is in; a suspended one does not
run; the suspend latency passes. -/
def DieOp.tick (o : DieOp) : DieOp :=
  match o.phase with
  | .suspending n => { o with phase := .suspending (n - 1) }
  | .suspended => o
  | .resuming n => { o with phase := if n ≤ 1 then .none else .resuming (n - 1) }
  | .none =>
    if o.desc.typ = .program ∧ o.done < o.desc.count then o
    else { o with run := o.run + 1, interval := o.interval + 1 }

/-- A die at a stride boundary: its operations, and its ring's entries belong to the plan in force when it is no hold
plan. -/
def Die.tick (y : Die) (run : Bool) : Die :=
  { y with polls := 0, op := y.op.map DieOp.tick, reinRead := y.reinRead.map DieOp.tick,
           ring := if run then Tbl.map y.ring fun _ x => { x with planned := true } else y.ring }

/-- A channel at a stride boundary: its slots are free again, but a transfer that crosses the tick takes the first of
them; its stalls are a stride older (R42, R43, R236). -/
def Chan.tick (c : Chan) : Chan :=
  { c with slot := if c.busy then 1 else 0, mntUsed := false, stalls := Tbl.map c.stalls fun _ t => { t with age := t.age + 1 } }

/-- FCH: the tick count, the channels and the dies; die-time placed on each die counts for the thermal model (R205,
R454). -/
def fchTick (s : State) (run : Bool) : State :=
  let s := s.setFch { s.fch with tick := s.fch.tick + 1, chans := Tbl.map s.fch.chans fun _ c => c.tick,
                                 dies := Tbl.map s.fch.dies fun _ y => y.tick run }
  let busy := (s.fch.dies.filter fun p => p.2.op.isSome).map Prod.fst
  s.setThm { s.thm with dieTime := busy.foldl (fun t d => Tbl.set t d (Tbl.getD t d 0 + 1)) s.thm.dieTime }

/-- Timelines follow the dies (R246). -/
def timelineTick (s : State) : State :=
  s.setFch { s.fch with dies := Tbl.map s.fch.dies fun d y => advanceTimeline s d y }

/-- A die is unreadable in the stride that begins (R253): in a rein interval, or in an operation that STP may not rein and
whose nominal time left, or its time beyond that, keeps a read waiting. -/
def unreadable (s : State) (d : Nat) (y : Die) : Bool :=
  match y.op with
  | none => false
  | some o =>
    if o.phase ≠ .none ∨ o.ready then false
    else
      let wait := s.rd rSTP_READ_WAIT
      let left := reinInterval s (chanOf d) o - o.interval
      (yields o.desc.typ && reinKind o && decide (left > 0 ∧ left + y.profile.suspend > wait)) ||
        (!stpMayRein s d o && decide (opLeft y o > wait ∨ o.run ≥ nominal y.profile o.desc))

/-- Turns pass with the strides; a window of the open class that goes on puts off the turn's end (R254, R256). -/
def turnTick (s : State) : State :=
  let on := s.fch.dies.any fun p => p.2.service && p.2.phaseClass == s.stp.openClass && unreadable s p.1 p.2
  s.setStp { s.stp with turnPos := s.stp.turnPos + 1, windowEnd := if on then tickPlus s 1 else s.stp.windowEnd }

/-! ## Background shares (R263, R264, R269) -/

/-- Groom's share from the age of the oldest span in days against GROOM_DAYS. -/
def groomShare (s : State) : Nat :=
  let bg := s.ten.bgMax
  let age := ((groomSpans s).map (groomAge s)).foldl max 0
  let unit := max (s.rd rPAR_GROOM_DAYS * 86400) 1
  max (s.rd rSTP_GROOM_BASE) (min bg (bg * (age - unit) / unit))

/-- The slot pool and the die-time pool of the plan in 1/256, under the throttle level (R109, R269). -/
def slotUnits (s : State) : Nat := poolSlots s * slotPct s / 100
def dieUnits (s : State) : Nat := poolDies s * (4 - s.stp.throttle) / 4

/-- The three shares of the plan, and what each gains in credit, up to 125 strides' worth (R115, R263, R264); above BG_MAX rebuild comes first; throttling halves, narrows or ends them. -/
def shareTick (s : State) : State :=
  let bg := s.ten.bgMax
  let r := deficit s * bg / 1000
  let g := groomShare s
  let b := min bg (if s.par.rbState = 1 then s.rd rSTP_REBUILD_PCT else 0)
  let (r, g) := if r + g + b ≤ bg then (r, g) else ((bg - b) * r / max (r + g) 1, (bg - b) * g / max (r + g) 1)
  let (r, g, b) := match s.stp.throttle with
    | 0 | 1 => (r, g, b)
    | 2 => (r / 2, g / 2, b / 2)
    | 3 => (if belowUrgent s then r else 0, 0, b)
    | _ => (0, 0, 0)
  let gain (c : Credit) (pct : Nat) : Credit :=
    let a := slotUnits s * pct / 100
    let d := dieUnits s * pct / 100
    { slot := min (c.slot + a) (125 * a : Nat), die := min (c.die + d) (125 * d : Nat) }
  s.setStp { s.stp with rclNow := r, groomNow := g, rebuildNow := b, rclShare := gain s.stp.rclShare r,
                        groomShare := gain s.stp.groomShare g, rebuildShare := gain s.stp.rebuildShare b }

/-! ## Closures (R178, R186, R192) -/

/-- A target holds a granule of a write that is not at its completion point. -/
def holdsUnfinished (s : State) (t : Nat) : Bool :=
  (targetSlots s t).any fun i => !(s.slot i).pinned && (s.cmd? (s.slot i).cmd).isSome

/-- Write-through: a target that received nothing in the stride and holds a granule of a waiting write closes (R192);
while PS3 or PS4 is entered, every target that holds granules does (R462). -/
def throughClose (s : State) : State :=
  if s.thm.psArm.any fun n => decide (n ≥ 3) then closeAll s
  else if s.qmx.wthru || s.wbf.dropping then
    (s.wbf.targets.map Prod.fst).foldl (fun s t =>
      if (s.target t).idle ≥ 1 ∧ !(s.target t).close ∧ holdsUnfinished s t then
        markClose s t (s.target t).fn false
      else s) s
  else s

/-- The place in completion order of a target's oldest granule; one whose write is not complete comes last. -/
def oldestHeld (s : State) (t : Nat) : Nat :=
  ((targetSlots s t).map fun i => if (s.slot i).landed = 0 then 2 ^ 65 else (s.slot i).landed).foldl min (2 ^ 65)

/-- A target is closed for its function's allotment or for the ceiling (R199). -/
def forceClose (s : State) (t : Nat) : State :=
  ((markClose s t (s.target t).fn false).bump rWBF_FORCED_CLOSE 1).ev eWBF_FORCED_CLOSE

/-- Acknowledged slots on their way to media: targets that closed handed them on (R178). -/
def slotsLeaving (s : State) : Nat :=
  (s.wbf.slots.filter fun p => !p.2.reserve && p.2.pinned && (p.2.state == .assembled || p.2.state == .sent)).length

/-- The ceiling lies below the acknowledged holdings: targets close, oldest granule first, until those that close, and
the slots already handed on (DEDUCED: they are those of targets already closing), cover the excess; when the holdings
fit again the mode ends (R178). -/
def ceilingClose (s : State) : State :=
  if !s.wbf.dropping then s
  else if ackSlots s ≤ slotsTotal s then s.setWbf { s.wbf with dropping := false }
  else
    let excess := ackSlots s - slotsTotal s
    let host := (s.wbf.targets.map Prod.fst).filter fun t => (ctlStream t).isNone && targetHolds s t
    let closing := ((host.filter fun t => (s.target t).close).map fun t => (targetSlots s t).length).sum
    let rest := sortBy (oldestHeld s) (host.filter fun t => !(s.target t).close)
    (rest.foldl (fun (a : State × Nat) t =>
      if a.2 ≥ excess then a
      else (forceClose a.1 t, a.2 + (targetSlots s t).length)) (s, closing + slotsLeaving s)).1

/-- A command waits at a queue of the function, and fetch is held back by the write-buffer allotment. -/
def allotmentHolds (s : State) (f : Nat) : Bool :=
  let x := s.fn f
  x.state == .active && decide (wbSlots s f + wbReserved s f ≥ effWb s x * 252) &&
    ((x.sqs.any fun q => q.1 != 0 && q.2.head != q.2.tail) || s.net.capsules.any fun c => c.1 == f && c.2.1 != 0)

/-- Allotment: the target of the function that holds its oldest HELD granule closes, one in a stride (R186). -/
def allotmentClose (s : State) : State :=
  (s.fns.map Prod.fst).foldl (fun s f =>
    if !allotmentHolds s f then s
    else
      let ts := (s.wbf.targets.filter fun p => p.2.fn == f && (ctlStream p.1).isNone).map Prod.fst
      let held := ts.filter fun t => targetHolds s t
      match leastBy (held.filter fun t => !(s.target t).close) (oldestHeld s) with
        | some t => forceClose s t
        | none => s) s

/-- A target marked for closing that holds nothing any more: its marks fall, and a row that was to be padded is (R91). -/
def settleMarks (s : State) : State :=
  ((s.wbf.targets.filter fun p => p.2.close && !targetHolds s p.1).map Prod.fst).foldl (fun s t =>
    let x := s.target t
    let s := s.setTarget t { x with close := false, closeRow := false }
    match x.closeRow, x.stream with
    | true, some n => s.updStream n fun y =>
        if y.state = .accumulating ∧ y.members < dataMembers s then { y with padRow := true, padFn := x.closeFn } else y
    | _, _ => s) s

/-- The closures of a boundary, then every target's strides without a granule. -/
def closeTick (s : State) : State :=
  let s := allotmentClose (ceilingClose (throughClose (settleMarks s)))
  let s := s.setWbf { s.wbf with targets := Tbl.map s.wbf.targets fun _ t => { t with idle := t.idle + 1 } }
  let zones := (s.wbf.targets.filter fun p => decide (512 ≤ p.1 ∧ p.1 < 2 ^ 40) && p.2.stream.isSome).map Prod.fst
  zones.foldl (fun s t => unbindZone s ((t - 512) / 2 ^ 24) ((t - 512) % 2 ^ 24)) s

/-! ## Placement of programs and erases (R184, R248, R255, R226, R342) -/

/-- A yielding descriptor's window, if it makes one, lies in a turn of its die's class (R255). -/
def windowOk (s : State) (d : Nat) (t : OpType) : Bool :=
  let start := match (s.die d).timeline.getLast? with
    | some g => (tickDiff s g.start).toNat
    | none => 1
  windowLen s d t == 0 || windowFits s d start (windowLen s d t)

/-- PROGRAM of a program unit: at its function's gait on the target streams, at rank 5 on the controller's (R233,
R249). -/
def programDesc (s : State) (u : Pu) : Desc :=
  let x := s.fn u.fn
  let host := decide (u.stream < 252)
  { Desc.blank with typ := .program, gait := if host then x.harness.gait else 3,
                    cls := if host then 0 else if u.stream = 255 then 5 else if u.stream = 254 then 4 else 2,
                    tag := programTag s u,
                    planes := BitVec.ofNat 6 (2 ^ s.rd rMAP_PLANES - 1), die := u.die, mga := u.mga,
                    count := puGran s, owner := .pu u.stream u.serial u.member }

/-- The row of a program unit is being closed (R91): its programs go before the function's new writes (R92). -/
def rowClosing (s : State) (u : Pu) : Bool :=
  u.rowPad || (s.stream u.stream).padRow || s.qmx.cmds.any fun c => (match c.body with
    | .flush _ => true
    | .write fua .. => rowPoint s c fua
    | _ => false) && (c.rows.contains (u.stream, u.serial) ||
      c.slots.any fun i => (s.slot i).stream == u.stream && (s.slot i).rowSerial == u.serial && (s.slot i).state != .held)

/-- A member whose die serves no more: a member of pad alone is lost once it is folded (R314); the program of any other
completes with DIE_ABSENT and is handled as a failed program (R197, R241). -/
def puAbsent (s : State) (u : Pu) : State :=
  if u.member < 254 ∧ u.slots.all Option.isNone then
    if u.encoded < puGran s then s
    else
      let mine (n k m : Nat) : Bool := n == u.stream && k == u.serial && m == u.member
      let s := s.setStaged (s.staged.filter fun g => !mine g.stream g.serial g.member)
      s.setWbf { s.wbf with pus := s.wbf.pus.filter fun p => !(mine p.stream p.serial p.member && p.placed) }
  else puFailed s u CStat.dieAbsent.ctorIdx false

/-- A program of reclaim's streams 252 and 253 is heavy work, any other is not: the state in which it may be placed, a lit
window counted as broken, or none where it waits for a dim window (R61). -/
def puWindow (s : State) (u : Pu) : Option State :=
  if u.stream = 252 ∨ u.stream = 253 then
    if dimNow s then some s else if heavyExcused s then some (breakWindow s) else none
  else some s

/-- A program unit passes on subject to its function's slot share (R184): while the function's slot credit is overdrawn it
waits. The slots of its granules were charged at admission, those of its pad are charged when it is placed (DEDUCED). -/
def slotShareOk (s : State) (u : Pu) : Bool :=
  decide (u.stream ≥ 252 ∨ u.member ≥ 254 ∨ (s.fn u.fn).slotCredit ≥ 0)

/-- An assembled program unit takes a ring entry of its die (R184); its function is charged for its pad (R115). -/
def placePu (s : State) (u : Pu) : State :=
  let pads := (u.slots.filter Option.isNone).length
  if u.state = .assembled ∧ !dieIn s u.die then puAbsent s u
  else if !slotShareOk s u then s
  else if u.state ≠ .assembled ∨ !dieServes s u.die ∨ puPlaced s u ∨ !yieldRoom s u.die then s
  else match placeDesc s u.die (programDesc s u) with
    | none => s
    | some t =>
      if !windowOk t u.die .program then deferWindow s u.die
      else match puWindow t u with
        | none => s
        | some t =>
          let t := windowPlaced t u.die
          if u.stream ≥ 252 ∨ u.member ≥ 254 then t else chargeFn t u.padFn (256 * pads) (256 * programStrides s * pads / max (puGran s) 1)

/-- A pSLC block's erase, or a re-erase, is placed: in a dim window, or in a lit one for the dump reserve or under R61's
other exceptions. An old intent block waits for a checkpoint that covers its done records (R61, R226, R231, R342). -/
def placeErase (s : State) (q : Nat × Nat × Nat × Nat) : State :=
  let (d, b, k, reason) := q
  if !dieServes s d ∨ !yieldRoom s d then s
  else if reason = 4 ∧ s.map.ckptNum ≤ k then startCkpt s
  else
    let again := reason = 5
    let pslc := decide (b ≥ nativeBlocks s)
    let flags := (if pslc then 1 else 0) + (if again then 2 else 0) + (if reason = 4 then 4 else 0)
    let (x, e) := erasePair s d b (if again then k else eraseCount s d b + 1) reason flags (.blockErase d b)
    match placeTwo s d { x with cls := 6 } { e with cls := 6, pslc := pslc } with
    | none => s
    | some t =>
      if !windowOk t d .erase then deferWindow s d
      else if !dimNow s ∧ reason ≠ 2 ∧ !heavyExcused s then s
      else
        let t := windowPlaced (if dimNow s then t else breakWindow t) d
        t.setFch { t.fch with intentErase := t.fch.intentErase.filter (· != q) }

/-- Step 3 and 4 of the plan: program units, those of rows that are being closed first (R92), each kind in the order of
its assembly, then the erases that wait. -/
def placeWrites (s : State) : State :=
  let us := s.wbf.pus.filter Pu.placed
  let s := (us.filter (rowClosing s) ++ us.filter fun u => !rowClosing s u).foldl placePu s
  s.fch.intentErase.foldl placeErase s

/-! ## The boundary -/

/-- What ages with each stride outside the plan: completion queues, the journal, activation, keep-out of windows. -/
def ageTick (s : State) : State :=
  let s := s.setFns (Tbl.map s.fns fun _ (x : Fn) => { x with cqs := Tbl.map x.cqs fun _ q => q.age })
  let s := s.setPar { s.par with flushAge := if s.par.unflushed > 0 then s.par.flushAge + 1 else 0 }
  let act := match s.qmx.act with
    | .draining n => ActState.draining (n + 1)
    | a => a
  let s := (s.setQmx { s.qmx with act := act }).setCip { s.cip with waited := false }
  let s := if s.ldc.poison.isEmpty then s else s.bump rLDC_POISON_WAIT 1
  let full := decide (s.map.active.length ≥ deltaHalf) && s.map.ckpt != .idle
  let s := if full ∧ !s.map.deltaFull then s.ev eMAP_DELTA_FULL else s
  s.setMap { s.map with deltaFull := full }

/-- Step 1 of the plan: records, levels, credits, quota and shares (R247). -/
def planIntake (s : State) : State :=
  let s := timelineTick (drainRecords s)
  let s := s.setStp { s.stp with throttle := s.stp.throttleNext }
  let s := shareTick (tenTick s)
  accrueQuota s (slotUnits s) (dieUnits s)

/-- Reclaim's and the map's part of a boundary (R332, R335, R340, R350, R355, R562). -/
def spaceTick (s : State) : State :=
  readOnlyEnter (reapSpaces (fineTick (ckptTick (writeRoot (sanitizeTick (paddockLevels (releaseSpans (creditRows s))))))))

/-- Steps 2 to 5: admission, engine grants, reads, program units and erases. -/
def planBuild (s : State) : State :=
  if planHeld s then s else placeWrites (placeReads (engGrants (admitAll s)))

/-- The plan that the last stride committed comes into force: one that was not complete, or a stride without a commit,
gives a hold plan; a step stride runs one too (R39, R40, R50). -/
def planTurn (s : State) (fw : Bool) : State :=
  let hold := !s.stp.committed || s.stp.holdNext
  let s := s.setStp { s.stp with hold := hold, stepHold := stepStride s.tbs, committed := false, holdNext := false,
                                 planReady := false }
  s.setCpx (if fw ∧ !s.cpx.stopped then { s.cpx with heartbeat := s.cpx.heartbeat + 1, still := 0 }
                  else { s.cpx with still := s.cpx.still + 1 })

/-- A dump runs or has ended. -/
def dumpTaken (s : State) : Bool :=
  match s.hld.dump with
  | .idle | .armed _ => false
  | .running _ | .done _ => true

/-- The block at a stride boundary whose counters have moved. In snuff only THM and TBS go on (R463); during a dump, and
while DMC is frozen, FCH alone does (R243, R374). `fw`: the firmware has done its stride's work (R35). -/
def boundary (s : State) (fw : Bool) : State :=
  let s := s.setThm { s.thm with sinceRound := s.thm.sinceRound + 1 }
  if s.thm.snuff = .off then gateTick s
  else
    let s := planTurn s fw
    let s := refreshTick (turnTick (fchTick s (!planHeld s)))
    if dumpTaken s || s.dmc.frozen then gateTick s
    else
      let s := ageTick (discoveryTick (drainWrites (closeTick (spaceTick (planIntake s)))))
      gateTick (planBuild (applyPs s))

/-- STRIDE_TICK: a stride ends and the next begins (R38); the end of a step stride is a step. -/
def execStrideTick (fw : Bool) (s : State) : Out :=
  .next (if stepStride s.tbs then s else boundary (s.setTbs (tbsTick s.tbs)) fw)

/-- PPS_STEP: the step stride ends at the target boundary, and stride 0 of the new second starts (R50). -/
def execPpsStep (fw : Bool) (s : State) : Out :=
  .next <|
    match stepStride s.tbs, s.tbs.stepDue with
    | true, some (_, e) =>
      let s := (s.setTbs (tbsStep s.tbs)).bump rTBS_STEPS 1
      let s := (s.ev eTBS_STEP).raise lTBS_PPS_STEP none [p4 (toSigned 32 (satSigned 32 e))]
      boundary s fw
    | _, _ => s

/-! ## Pending heavy work and the lantern (R60, R63) -/

/-- Member erases not yet started of spans in RELEASED and ERASING. -/
def erasesLeft (s : State) : Nat :=
  match s.par.layout with
  | none => 0
  | some l => (((allSpans s l).filter fun n => (s.span n).phase == .released || (s.span n).phase == .erasing).map
      fun n => l.k - (s.span n).startedMembers.length).sum

/-- Rows that hold valid granules of the victims in progress, and those granules. -/
def victimRows (s : State) : Nat × Nat :=
  s.rcl.victims.foldl (fun a n =>
    let v := (s.span n).valid.filter fun r => r.2 != 0
    (a.1 + v.length, a.2 + (v.map Prod.snd).sum)) (0, 0)

/-- Rows that groom reads in the next second: those of the cycle's spans over GROOM_DAYS, the shortest even pace. -/
def groomRowsDue (s : State) : Nat :=
  let days := max (s.rd rPAR_GROOM_DAYS * 86400) 1
  ((groomSpans s).length * wordLines s + days - 1) / days

/-- Pending heavy work in die-strides (R63, R248): an ERASE for each member; a tR for each page group of the data members
of each victim row and of all members of each groom row (R325), and the programs of the copies with their parity. -/
def heavyWork (s : State) : Nat :=
  let p := ((s.fch.dies.find? fun p => p.2.service).map fun p => p.2.profile).getD Profile.zero
  let groups := (puGran s + 4 * s.rd rMAP_PLANES - 1) / max (4 * s.rd rMAP_PLANES) 1
  let (rows, copies) := victimRows s
  let user := max (dataMembers s * puGran s) 1
  erasesLeft s * p.erase + (rows * dataMembers s + groomRowsDue s * spanMembers s) * groups * p.tr
    + (copies + user - 1) / user * spanMembers s * p.prog

/-- The windows that the next table dims (R63). -/
def dimWindows (s : State) : Nat :=
  let w := heavyWork s
  let b := 125 * ((s.fch.dies.filter fun p => p.2.service).length * s.ten.bgMax)
  let n := if w = 0 then 0 else if b = 0 then 1000 else (100 * w + b - 1) / b
  let least := if erasesLeft s = 0 then 0 else (spanMembers s * s.rd rSTP_TURN_STRIDES + 124) / 125
  min 1000 (max n least)

/-- LANTERN_TABLE_FIX: the table of the second that begins comes into force, and that of the next is fixed; windows broken
in the second that ends set its REVISED flag and BROKEN_PREV (R60, R61, R64). -/
def fixLantern (s : State) : State :=
  let phase := s.rd rSTP_PHASE
  let duty := s.rd rSTP_DUTY
  let n := dimWindows s
  let m := if duty = 0 then n else min n duty
  let s := s.setStp { s.stp with brokenPrev := s.stp.broken, broken := 0, brokenWin := none }
  let l : Lantern :=
    { second := (s.seconds + 1) % 2 ^ 48, flags := lanternFlags s (s.stp.brokenPrev != 0), phase := phase, duty := duty,
      dimCount := m, brokenPrev := s.stp.brokenPrev, bitmap := dimBitmap n phase duty }
  s.setStp { s.stp with lantern := s.stp.lanternNext, lanternNext := some l, published := false }

/-! ## The second boundary (R37, R52, R60, R123, R353, R460, R509) -/

/-- A function's charged capacity in MiB (R112, R124). -/
def chargedMib (s : State) (x : Fn) : Rat := chargedBlocks s x / 256

/-- Each function's capacity sample (R123). -/
def capacitySample (s : State) : State :=
  s.setFns (Tbl.map s.fns fun _ (x : Fn) =>
      if x.state = .free then x else { x with cur := { x.cur with capSum := x.cur.capSum + chargedMib s x } })

/-- Reports that are made once in a second may be made again; a groom deadline that begins to be missed is reported
(R154, R261, R263, R277). -/
def secondReports (s : State) : State :=
  let late := groomOverdue s
  let s := if late ∧ !s.stp.groomLate then (s.ev eSTP_GROOM_DEADLINE).raise lSTP_GROOM_LATE none [] else s
  let s := s.setStp { s.stp with groomLate := late, raShortSeen := false }
  let s := s.setMap { s.map with fineEmptySeen := false }
  let s := s.setLdc { s.ldc with misdirectSeen := false }
  s.setNet { s.net with refusedSeen := false }

/-- SECOND_BOUNDARY: SECONDS advances in the first stride of a second (R37). In snuff TBS and THM alone go on. -/
def execSecondBoundary (s : State) : Out :=
  .next <|
    if !s.tbs.secondDue then s
    else
      let s := s.setTbs (tbsSecond s.tbs)
      let s := if s.tbs.pps = .holdover then s.bump rTBS_HOLD_S 1 else s
      if s.thm.snuff = .off then s
      else
        let s := if s.tbs.pps = .free then s.setNet { s.net with datagramDue := true }
          else s
        let s := capacitySample (fixLantern (secondReports s))
        let s := if s.thm.level ≥ 1 then s.bump rTHM_THROTTLE_S 1 else s
        selfTestEnd (ledgerSecond (powerLoop (lifeFigure s)))

end Sys2Proof.Machine
end

