-- ==== Sys2Proof/Machine/RegView.lean ====
section
/-! DEFINITION. What the register window reads: page addresses, the common header and the fields that report the state
of their block (18 R520-R536 and the register tables of the chapters). -/

namespace Sys2Proof.Machine

open Sys2Proof

/-! ## Addresses (R524) -/

/-- Page and offset of an address; none in space outside the pages (R521). -/
def pageAt (addr : Nat) : Option (Nat × Nat) :=
  let b := addr / 2 ^ 20
  let o := addr % 2 ^ 20
  if b = 0x13 then (if o % 0x8000 < 4096 then some (64 + o / 0x8000, o % 0x8000) else none)
  else if 1 ≤ b ∧ b ≤ 0x16 ∧ o < 4096 then some (b, o) else none

/-- The start-up phase that releases each block: the first phase whose work it does (R483). -/
def releasePhase (blk : Nat) : Nat :=
  match blk with
  | 1 | 2 | 3 | 4 | 5 => 1
  | 6 => 2
  | 8 | 10 => 3
  | 7 | 22 | 12 => 4
  | 20 | 19 | 21 => 5
  | 18 | 14 => 6
  | 17 => 8
  | 16 | 13 => 9
  | 15 => 10
  | _ => 11

/-- STATUS.RELEASED (R522, R526). -/
def released (s : State) (pg : Nat) : Bool := decide (releasePhase (pageBlk pg) ≤ phaseReached s)

/-! ## The common header (R526) -/

def bit (b : Bool) : Nat := if b then 1 else 0

/-- Bits of EVT_RAW, EVT_MASK and EVT_FORCE that a page implements. -/
def evtMaskOf (pg : Nat) : Dword := BitVec.ofNat 32 (2 ^ evtBits pg - 1)

/-- EVT_PEND. -/
def evtPend (s : State) (pg : Nat) : Dword := (s.page pg).evtRaw &&& ~~~ (s.page pg).evtMask

/-- A page contributes to the BOT summary (R527, R536). -/
def pagePends (s : State) (pg : Nat) : Bool := (s.page pg).enable && evtPend s pg != 0

/-- Word at an offset of the header. -/
def headerWord (s : State) (pg off : Nat) : Nat :=
  let x := s.page pg
  let b := pageBlk pg
  let d := blockDomains pg
  match off with
  | 0x00 => 0x100 + 2 ^ 16 * pageInst pg + 2 ^ 24 * b
  | 0x04 =>
    evtBits pg + 2 ^ 8 * bit ((fieldsOf b).any fun f => f.acc == .rws) + 2 ^ 9 * bit (b == 3)
      + 2 ^ 10 * bit ((fieldsOf b).any isSelector) + 2 ^ 11 * bit ([1, 2, 3, 4, 6, 12, 13, 16, 17, 18].contains b)
  | 0x08 => bit x.enable + 4 * bit x.freezeOnErr
  | 0x0C =>
    bit (s.gate.on &&& domains d.1 d.2 != 0) + 2 * bit x.sealBit + 4 * bit x.errValid + 8 * bit (s.cntHeld pg)
      + 16 * bit (released s pg)
  | 0x10 => x.evtRaw.toNat
  | 0x14 => x.evtMask.toNat
  | 0x18 => (evtPend s pg).toNat
  | 0x20 => x.evtCount
  | 0x24 => x.errCode + 2 ^ 8 * x.errFunc + 2 ^ 16 * x.errMore + 2 ^ 30 * bit x.errValid
  | 0x28 => x.errAddr.toNat
  | 0x2C => bit x.sealBit
  | _ => 0

/-! ## Fields that report state: by offset and lowest bit; none for a stored field -/

def viewBOT (s : State) (off lo : Nat) : Option Nat :=
  let b := s.bot
  match off, lo with
  | 0x40, 0 => some b.phase
  | 0x40, 4 => some b.failPhase
  | 0x40, 8 => some b.failCode
  | 0x40, 16 => some b.path
  | 0x40, 18 => some (bit b.ready)
  | 0x40, 19 => some (bit b.fallback)
  | 0x44, 0 => some b.cause.ctorIdx
  | 0x44, 4 => some b.fwSlot
  | 0x44, 6 => some (bit b.cfgCopy)
  | 0x44, 7 => some b.norOk.toNat
  | 0x4C, 0 => some b.expected
  | 0x4C, 16 => some b.inService
  | 0x50, 0 => some b.missing
  | 0x50, 16 => some b.foreign
  | 0x80, 0 => some s.fuses.mac.toNat
  | 0x84, 0 => some (s.fuses.mac.toNat / 2 ^ 32)
  | 0x88, 12 => some s.fuses.grade
  | 0x88, 24 => some s.fuses.debugBlown.toNat
  | 0xC0, 1 => some (((List.range 22).map fun k =>
      2 ^ k * bit (if k = 18 then (List.range 32).any fun nn => pagePends s (64 + nn) else pagePends s (k + 1))).sum)
  | 0xC4, 0 => some (((List.range 32).map fun nn => 2 ^ nn * bit (pagePends s (64 + nn))).sum)
  | _, _ => none

def viewTBS (s : State) (p : Path) (off lo : Nat) : Option Nat :=
  let t := s.tbs
  match off, lo with
  | 0x44, 0 => some ((s.latched p 2 0x44).toNat % 65536)
  | 0x44, 16 => some t.origin.toNat
  | 0x58, 0 => some t.pps.ctorIdx
  | 0x58, 3 => some (bit (decide (activeEdge s = some false)))
  | 0x68, 0 => some t.hours
  | 0x6C, 0 => some t.hourSec
  | 0x70, 0 => some t.pcycle
  | 0x7C, 0 => some (s.upper p rTBS_SET_HI)
  | 0x7C, 31 => some (bit (t.sets.any PendSet.viaReg))
  | _, _ => none

/-- Word `k` of a window's record, 0 while VALID is 0 (R512, R534). -/
def windowWord (w : Window) (k : Nat) : Nat :=
  match w.valid, w.record with
  | true, some r => leNat (slice (recordBytes r) (4 * k) 4)
  | _, _ => 0

def viewEVL (s : State) (p : Path) (off lo k : Nat) : Option Nat :=
  let w := s.window p
  match off, lo with
  | 0x50, 0 => some s.evl.wmark
  | 0x54, 0 => some (s.evl.wmark / 2 ^ 32)
  | 0x58, 0 => some s.evl.unread
  | 0x60, 0 => some s.evl.queue.length
  | 0x100, 0 => some w.cursor.toNat
  | 0x104, 0 => some (w.cursor.toNat / 2 ^ 32)
  | 0x10C, 0 => some (bit w.valid)
  | 0x10C, 1 => some w.result
  | 0x10C, 16 => some w.serial.toNat
  | 0x110, 0 => some (windowWord w k)
  | _, _ => none

/-- A temperature in 0.1 °C as 16 signed bits, 0 for none. -/
def tenths (t : Option Rat) : Nat := toSigned 16 (satSigned 16 ((t.map Rat.floor).getD 0))

/-- GAPj: the node's reported temperature less its diode (R475). -/
def diodeGap (s : State) (k : Nat) : Option Rat :=
  (diodeRead s k).map fun d => (s.node ([0, 1, 3, 6].getD k 0)).reported - d

def viewTHM (s : State) (p : Path) (off lo k : Nat) : Option Nat :=
  let t := s.thm
  let c := s.hk (selected s p rTHM_CH_SEL 0)
  match off, lo with
  | 0x40, 24 => some s.bot.cfg.pkgTp
  | 0x44, 0 => some t.level
  | 0x44, 3 => some t.lAbs
  | 0x44, 6 => some t.lRise
  | 0x44, 9 => some t.lPower
  | 0x44, 12 => some t.ps
  | 0x44, 15 => some (bit t.fast)
  | 0x44, 16 => some (bit t.warn)
  | 0x48, 0 => some (t.powerAvg / 10)
  | 0x48, 16 => some (budget t.ps)
  | 0x4C, 0 => some (tenths (hottest (controllers s)))
  | 0x4C, 16 => some (tenths (hottest (packages s)))
  | 0x50, 0 => some t.hotNode
  | 0x50, 16 => some (tenths (some t.riseMax))
  | 0x58, 0 => some (tenths (diodeRead s k))
  | 0x58, 16 => some (tenths (diodeGap s k))
  | 0x74, 0 => some c.raw
  | 0x74, 16 => some (toSigned 16 (satSigned 16 c.val))
  | 0x7C, 0 => some t.wait
  | 0x800, 0 => some (s.gate.act.toNat / 2 ^ (32 * k))
  | _, _ => none

/-- STATE of a string: 0 where none is fitted (R476). -/
def stringState (s : State) (k : Nat) : Nat := ((Tbl.get s.hld.strings k).map fun x => x.state.ctorIdx).getD 0

def viewHLD (s : State) (p : Path) (off lo : Nat) : Option Nat :=
  let h := s.hld
  let k := selected s p rHLD_STR_SEL 0
  match off, lo with
  | 0x40, 0 => some (min h.energy.toNat 65535)
  | 0x40, 16 => some (bit h.noHoldup)
  | 0x40, 17 => some (bit !h.toTest.isEmpty)
  | 0x40, 18 => some (bit h.charged)
  | 0x44, 0 => some h.vBank
  | 0x44, 16 => some s.bot.cfg.vMin
  | 0x48, 16 => some s.bot.cfg.eta
  | 0x48, 31 => some (bit !h.toTest.isEmpty)
  | 0x4C, 8 => some s.bot.cfg.strings.toNat
  | 0x4C, 16 => some (((List.range 8).map fun k => 2 ^ k * bit ((Tbl.get h.strings k).all fun x => x.iso)).sum)
  | 0x50, 0 => some (stringState s k)
  | 0x50, 16 => some ((Tbl.get h.strings k).map Str.cUf |>.getD 0)
  | 0x54, 0 => some ((Tbl.get h.strings k).map Str.esr |>.getD 0)
  | 0x54, 16 => some (Tbl.getD s.bot.cfg.cNom k 0)
  | 0x58, 0 => some h.last
  | 0x58, 2 => some (bit (match h.dump with | .running _ => true | _ => false))
  | 0x58, 8 => some (readyPct s)
  | _, _ => none

/-- Class of a key slot (R395). -/
def slotClass (k : Nat) : Nat :=
  if k < 256 then 0 else if k = 256 then 1 else if k < 512 then 5 else if k < 1536 then 2 else if k < 3584 then 3 else 4

/-- SHA-384 of measurements 1-3, 0 before they are taken. -/
def measWords (s : State) : Nat :=
  if s.key.meas.isEmpty then 0 else Config.measDigest ((List.range 3).map fun k => Tbl.getD s.key.meas (k + 1) 0)

def viewKEY (s : State) (p : Path) (off lo k : Nat) : Option Nat :=
  let n := selected s p rKEY_SLOT_SEL 0
  let x := s.keySlot n
  let fw := s.fwSlot s.bot.fwSlot
  match off, lo with
  | 0x44, 0 => some (if x.key.isNone then 0 else if x.shadow.isSome then 2 else 1)
  | 0x44, 2 => some (slotClass n)
  | 0x44, 5 => some (sourceCode x.source)
  | 0x44, 8 => some x.owner
  | 0x48, 0 => some x.keyId
  | 0x54, 0 => some (s.key.slots.filter fun e => e.2.key.isSome).length
  | 0x54, 16 => some s.key.sessions.length
  | 0x58, 0 => some (bit s.key.storeOk)
  | 0x58, 1 => some (bit !s.norWaits.isEmpty)
  | 0x5C, 0 => some (bit s.key.health)
  | 0x60, 0 => some fw.keyIndex
  | 0x60, 2 => some s.fuses.revoked.toNat
  | 0x60, 8 => some s.fuses.svn
  | 0x60, 16 => some fw.svn
  | 0x70, 0 => some (measWords s / 2 ^ (32 * k))
  | 0xA0, 0 => some (bit s.key.aliasOk)
  | 0xA0, 1 => some (bit s.key.certOk)
  | _, _ => none

/-- Places of the hold buffer in use: decrypted granules of admitted GCM reads, and granules that a lane decrypts for
other reads (R389). -/
def holdUsed (s : State) : Nat :=
  (((s.qmx.cmds.filter fun c => c.admitted && isGcm s c).map fun c => (c.parts.filter fun q => q.done.isSome).length).sum)
    + (s.stp.engs.filter fun j => decide (j.kind = .cip) && !j.long && j.state == .running).length

def viewCIP (s : State) (off lo : Nat) : Option Nat :=
  match off, lo with
  | 0x40, 0 => some s.cip.lanes
  | 0x40, 8 => some s.cip.ctxUsed
  | 0x44, 0 => some (min (holdUsed s) 1024)
  | 0x44, 16 => some (holdReserved s)
  | _, _ => none

def viewHIF (s : State) (off lo : Nat) : Option Nat :=
  let vfs (q : Nat) : Nat := ((Tbl.get s.hif.ports q).map Port.numVfs).getD 0
  match off, lo with
  | 0x4C, 0 => some (bit s.hif.closed)
  | 0x60, 0 => some (vfs 0)
  | 0x60, 16 => some (vfs 1)
  | 0x64, 0 => some (bit s.hif.owner.isSome)
  | 0x64, 1 => some (s.hif.owner.getD 0)
  | 0x68, 0 => some (s.hif.ide.filter fun e => e.2.state == .secure).length
  | 0x68, 4 => some ((s.hif.ide.map fun e => 2 ^ e.1 * bit (e.2.state == .insecure)).sum)
  | _, _ => none

def viewNET (s : State) (off lo : Nat) : Option Nat :=
  match off, lo with
  | 0xF0, 0 => some s.net.assocs.length
  | 0xF0, 16 => some (nqpUsed s)
  | 0xF4, 0 => some s.net.tls.length
  | _, _ => none

def viewSBI (s : State) (off lo : Nat) : Option Nat :=
  match off, lo with
  | 0x44, 0 => some s.sbi.eid
  | 0x50, 24 => some (gpioLevels s).toNat
  | _, _ => none

def viewQMX (s : State) (off lo k : Nat) : Option Nat :=
  match off, lo with
  | 0x50, 0 => some (intakeDepth s k)
  | 0x60, 0 => some ((s.fns.map fun p => tagsUsed s p.1 + adminTagsUsed s p.1).sum)
  | 0x68, 0 => some (bit (fetchStop s))
  | 0x68, 1 => some (bit s.qmx.wthru)
  | _, _ => none

def viewTEN (s : State) (off lo : Nat) : Option Nat :=
  match off, lo with
  | 0x40, 0 => some (poolSlots s)
  | 0x44, 0 => some (poolDies s)
  | 0x48, 0 => some (availSlots s)
  | 0x4C, 0 => some (availDies s)
  | 0x50, 0 => some (promisedAll s Harness.slotShare)
  | 0x54, 0 => some (promisedAll s Harness.dieShare)
  | 0x5C, 0 => some (availWb s)
  | 0x5C, 16 => some (promisedAll s Harness.wbMib)
  | 0x60, 0 => some (57344 - promisedAll s Harness.tags)
  | 0x60, 16 => some (4096 - promisedAll s Harness.qpairs)
  | 0x64, 0 => some (s.fns.filter fun e => e.2.harness.tether).length
  | 0x64, 8 => some (s.fns.filter fun e => e.1 != 0 && e.2.state == .active).length
  | 0x68, 0 => some s.ten.scaleSlot.factor
  | 0x6C, 0 => some s.ten.scaleDie.factor
  | _, _ => none

/-- Streams 0-251 with at least `n` targets. -/
def streamsWith (s : State) (n : Nat) : Nat :=
  ((List.range 252).filter fun k => decide ((targetsOf s k).length ≥ n)).length

/-- Open zones of the whole device. -/
def zonesOpen (s : State) : Nat :=
  (s.map.spaces.map fun e => (e.2.zones.filter fun z => zoneIsOpen z.2.state).length).sum

def viewMAP (s : State) (off lo : Nat) : Option Nat :=
  match off, lo with
  | 0x50, 0 => some s.map.fineTotal
  | 0x54, 0 => some (fineFree s)
  | 0x60, 31 => some (bit s.map.ckptNow)
  | 0x64, 0 => some (deltaPct s)
  | 0x64, 8 => some (bit (s.map.ckpt != .idle))
  | 0x70, 0 => some (streamsWith s 1)
  | 0x70, 16 => some (streamsWith s 2)
  | 0x74, 0 => some (zonesOpen s)
  | _, _ => none

def viewSTP (s : State) (off lo : Nat) : Option Nat :=
  let t := s.stp
  match off, lo with
  | 0x80, 0 => some t.broken
  | 0xA8, 0 => some t.rclNow
  | 0xA8, 8 => some t.groomNow
  | 0xA8, 16 => some t.rebuildNow
  | 0xA8, 24 => some t.throttle
  | 0xA8, 27 => some (bit t.degraded)
  | 0xAC, 0 => some t.openClass
  | 0xAC, 8 => some (classes s)
  | 0xBC, 0 => some t.raSlot
  | 0xC0, 0 => some t.raDie
  | 0xC4, 0 => some (directLimit s 0 false)
  | 0xC4, 8 => some (directLimit s 1 false)
  | 0xC4, 16 => some (directLimit s 2 false)
  | 0xC8, 0 => some (directLimit s 0 true)
  | 0xC8, 8 => some (directLimit s 1 true)
  | 0xC8, 16 => some (directLimit s 2 true)
  | 0xD8, 0 => some (engStalls s)
  | _, _ => none

def viewWBF (s : State) (p : Path) (off lo : Nat) : Option Nat :=
  let n := selected s p rWBF_STREAM_SEL 0
  let x := s.stream n
  match off, lo with
  | 0x40, 0 => some s.wbf.ceil
  | 0x44, 0 => some (slotsTotal s)
  | 0x48, 0 => some (slotsTotal s - s.wbf.slots.length)
  | 0x4C, 0 => some (slotsIn s [.held, .assembled, .sent])
  | 0x50, 0 => some (slotsIn s [.filling])
  | 0x54, 0 => some (slices s)
  | 0x54, 2 => some (targetStreams s)
  | 0x68, 0 => some (8192 - recordsUsed s)
  | 0x74, 0 => some x.state.ctorIdx
  | 0x74, 3 => some x.members
  | 0x74, 8 => some (min (targetsOf s n).length 255)
  | 0x78, 0 => some (((targetsOf s n).map fun t => (targetSlots s t.1).length).sum)
  | 0x7C, 0 => some x.serial
  | _, _ => none

def viewPAR (s : State) (off lo k : Nat) : Option Nat :=
  let l (g : Layout → Nat) : Option Nat := some ((s.par.layout.map g).getD 0)
  let m (g : Mirror → Nat) : Option Nat := some ((s.par.mirrors[k]?.map g).getD 0)
  match off, lo with
  | 0x40, 0 => l fun l => bit l.declustered
  | 0x40, 1 => l Layout.k
  | 0x40, 7 => l layoutF
  | 0x40, 16 => l Layout.gen
  | 0x44, 0 => l Layout.spans
  | 0x48, 16 => l Layout.spareDie
  | 0x58, 0 => m Mirror.die
  | 0x58, 10 => m fun m => bit m.service
  | 0x58, 11 => m fun m => bit m.rehoming
  | 0x64, 0 => some s.par.rbState
  | 0x64, 8 => some s.par.lost.length
  | 0x6C, 0 => some (rowsTwo s)
  | 0x70, 0 => some (rowsOne s)
  | 0x74, 0 => some s.par.rowsDone
  | 0x78, 0 => some (s.par.proxies.filter Proxy.serving).length
  | 0x8C, 0 => some (min (groomAgeHours s) 0xFFFF)
  | _, _ => none

/-- Highest erase count of the spans not retired, and lowest of the closed ones (R343, R357). -/
def spanCounts (s : State) (p : Span → Bool) : List Nat :=
  match s.par.layout with
  | none => []
  | some l => ((List.range l.spans).filter fun n => p (s.span n)).map (spanErases s l)

def viewRCL (s : State) (off lo : Nat) : Option Nat :=
  let r := s.rcl
  let low := spanCounts s fun x => x.phase == .closed
  let e := eraseSum s
  let releasing : Nat := match s.par.layout with
    | none => 0
    | some l => ((allSpans s l).filter fun n => (s.span n).phase == .released || (s.span n).phase == .erasing).length
  match off, lo with
  | 0x4C, 0 => some (spansLive s)
  | 0x50, 0 => some (paddock s)
  | 0x54, 0 => some releasing
  | 0x58, 0 => some r.retiredSpans
  | 0x5C, 0 => some (lowSpans s)
  | 0x60, 0 => some (urgentSpans s)
  | 0x60, 16 => some (floorSpans s)
  | 0x64, 0 => some (deficit s)
  | 0x64, 10 => some (bit r.throttling)
  | 0x64, 11 => some (bit (s.par.layout.isSome && atFloor s))
  | 0x64, 12 => some (bit r.readOnly)
  | 0x64, 13 => some (bit r.wlVictim.isSome)
  | 0x68, 0 => some (toSigned 32 (satSigned 32 r.credit))
  | 0x6C, 0 => some (min (e.1 / max e.2 1) 0xFFFF)
  | 0x6C, 16 => some (min ((spanCounts s fun x => x.phase != .retired).foldl max 0) 0xFFFF)
  | 0x70, 0 => some (low.foldl min (if low.isEmpty then 0 else 0xFFFF))
  | 0x74, 0 => some r.spareTotal
  | 0x78, 0 => some (spareUsed s)
  | 0x7C, 0 => some r.pctUsed
  | 0x7C, 8 => some r.availSpare
  | _, _ => none

def viewLDC (s : State) (off lo : Nat) : Option Nat :=
  match off, lo with
  | 0x80, 10 => some (bit s.ldc.injArmed)
  | _, _ => none

/-- The dies of a channel that satisfy a test, by die position. -/
def dieMap (s : State) (nn : Nat) (p : Die → Bool) : Nat :=
  ((List.range 32).map fun k => 2 ^ k * bit (p (s.die (32 * nn + k)))).sum

def viewFCH (s : State) (p : Path) (nn off lo : Nat) : Option Nat :=
  let c := s.chan nn
  let d := 32 * nn + selected s p rFCH_DIE_SEL nn
  let x := s.die d
  let o (g : DieOp → Nat) : Option Nat := some ((x.op.map g).getD 0)
  match off, lo with
  | 0x40, 0 => some (if c.inService then c.rate / 100 else 0)
  | 0x40, 8 => some (slotsPerStride c)
  | 0x40, 11 => some (bit c.inService)
  | 0x40, 12 => some c.iface
  | 0x44, 0 => some (dieMap s nn Die.present)
  | 0x48, 0 => some (dieMap s nn Die.service)
  | 0x90, 0 => some (Config.ringBase nn).toNat
  | 0x94, 0 => some (Config.cringBase nn).toNat
  | 0x98, 0 => some c.cringHead
  | 0x98, 16 => some c.cringTail
  | 0x9C, 0 => some s.fch.tick.toNat
  | 0xA4, 0 => o fun o => o.desc.typ.ctorIdx
  | 0xA4, 4 => o fun o => bit (o.phase == .suspended)
  | 0xA4, 5 => o fun o => bit (reinable s d o)
  | 0xA4, 6 => some (bit !x.service)
  | 0xA4, 7 => some (bit x.armed.isSome)
  | 0xA4, 8 => o DieOp.reins
  | 0xA4, 16 => o fun o => min o.run 4095
  | 0xA8, 0 => some x.ring.length
  | 0xA8, 8 => some (min x.toRun 255)
  | 0xB0, 0 => some x.intentAct
  | 0xB0, 16 => some x.intentStby
  | 0xB4, 0 => some x.intentFree
  | _, _ => none

def viewDMC (s : State) (off lo : Nat) : Option Nat :=
  let d := s.dmc
  match off, lo with
  | 0x44, 3 => some (bit (Config.dramHot s.tbs.clk))
  | 0x58, 0 => some (bit d.frozen)
  | 0x58, 1 => some (causeCode d.cause)
  | 0x58, 4 => some 0
  | 0x58, 5 => some (bit d.dumpBusy)
  | 0x58, 6 => some (bit d.dumpDone)
  | 0x64, 0 => some (((List.range 4).map fun c => 2 ^ (8 * c) * min (s.subch c).writes.length 127).sum)
  | _, _ => none

def viewCPX (s : State) (off lo : Nat) : Option Nat :=
  match off, lo with
  | 0x40, 0 => some s.cpx.running.toNat
  | 0x44, 0 => some s.cpx.heartbeat.toNat
  | 0x48, 0 => some (bit s.cpx.stopped)
  | _, _ => none

/-- The state that word `k` of a field reports, for a path and a channel; none for a stored field. -/
def viewOf (s : State) (p : Path) (f : Fld) (inst k : Nat) : Option Nat :=
  match f.blk with
  | 1 => viewBOT s f.off f.lo
  | 2 => viewTBS s p f.off f.lo
  | 3 => viewEVL s p f.off f.lo k
  | 4 => viewTHM s p f.off f.lo k
  | 5 => viewHLD s p f.off f.lo
  | 6 => viewKEY s p f.off f.lo k
  | 7 => viewCIP s f.off f.lo
  | 8 => viewHIF s f.off f.lo
  | 9 => viewNET s f.off f.lo
  | 10 => viewSBI s f.off f.lo
  | 11 => viewQMX s f.off f.lo k
  | 12 => viewTEN s f.off f.lo
  | 13 => viewMAP s f.off f.lo
  | 14 => viewSTP s f.off f.lo
  | 15 => viewWBF s p f.off f.lo
  | 16 => viewPAR s f.off f.lo k
  | 17 => viewRCL s f.off f.lo
  | 18 => viewLDC s f.off f.lo
  | 19 => viewFCH s p inst f.off f.lo
  | 20 => viewDMC s f.off f.lo
  | 22 => viewCPX s f.off f.lo
  | _ => none

/-- Word `k` of a field as a path reads it; a control that clears itself reads 0 (R11). -/
def fieldValue (s : State) (p : Path) (f : Fld) (inst k : Nat) : Nat :=
  match viewOf s p f inst k with
  | some v => v % 2 ^ f.w
  | none => if f.acc = .w1s then 0 else storedField s p f inst k

/-- Words that a read of a LO word latches for the path (R531), by page and offset. -/
def latchWords : List (Nat × Nat) :=
  [(1, 0x74), (1, 0x78), (1, 0x7C), (2, 0x48), (3, 0x44), (3, 0x4C), (4, 0x6C), (6, 0x50), (12, 0x78), (13, 0x6C),
   (16, 0x94), (17, 0x94), (17, 0x9C), (18, 0x6C)]

/-- The word at an offset of a page's block-specific space: its defined fields, reserved bits 0 (R521). -/
def bodyWord (s : State) (p : Path) (pg off : Nat) : Dword :=
  if latchWords.contains (pg, off) then s.latched p pg off
  else BitVec.ofNat 32
    (((fieldsAt pg off).map fun f => 2 ^ f.lo * fieldValue s p f (pageInst pg) ((off - f.off) / 4)).sum)

end Sys2Proof.Machine
end

