-- ==== Sys2Proof/Machine/RegAccess.lean ====
section
/-! DEFINITION. Accesses to the register window: the paths, reads and writes of a word, register access messages and the
JTAG access instruction (14 R424, R426, R431, R443, R445; 18 R520-R523, R526-R535). -/

namespace Sys2Proof.Machine

open Sys2Proof

/-- What an access finds outside the registers: NS_IN_STRIDE at a read of TBS, and the outcome of a pin test. -/
structure Around where
  ns : Nat
  short : BitVec 22
  open_ : BitVec 22
  deriving DecidableEq, Repr

/-! ## Paths (R520, R522) -/

/-- A dump leaves only JTAG: while it runs, and after one that took the power of the links and the sideband. -/
def jtagOnly (s : State) : Bool :=
  match s.hld.dump with
  | .running _ => true
  | .done c => c == .powerFail || c == .snuff
  | _ => false

/-- The window answers: phase 2 has ended and the controller is not snuffed. -/
def windowUp (s : State) (p : Path) : Bool :=
  decide (phaseReached s ≥ 3) && s.thm.snuff != .off && (p == .jtag || !jtagOnly s)

/-- The port has a trained link, so that its BAR2 is reached. -/
def portUp (s : State) (port : Nat) : Bool := portThere s port && (Tbl.get s.hif.ports port).any Port.up

/-- BAR2 of the port is open: not closed, and on the owning port in dual-port mode (R424, R426). -/
def bar2Open (s : State) (port : Nat) : Bool := !s.hif.closed && (!s.hif.dual || s.hif.owner == some port)

/-- A write by a path takes effect. -/
def pathWrites (s : State) (p : Path) (port : Nat) : Bool :=
  windowUp s p && match p with
    | .manager => portUp s port && bar2Open s port
    | .bmc => s.sbi.eid != 0 && sbiUp s
    | .jtag => s.rd rSBI_JTAG_REG_EN == 1

/-! ## Reads -/

/-- The word that a meaning answers, and the state after it. -/
def answered (s : State) (o : Out) : Dword × State :=
  match o with
  | .next t => (match t.ans with | .word w => w | _ => 0, t)
  | _ => (0, s)

/-- One read of a register word (R521, R531). -/
def regRead (s : State) (p : Path) (a : Around) (addr : Nat) : Dword × State :=
  match pageAt addr with
  | none => (0, s)
  | some (pg, off) =>
    let s := s.wakePage pg
    if off < 0x40 then (BitVec.ofNat 32 (headerWord s pg off), s)
    else if !released s pg then (0, s)
    else match pg, off with
      | 1, 0x70 => answered s (execBotSerial0Read p s)
      | 2, 0x40 => answered s (execTbsSecLoRead p a.ns s)
      | 3, 0x40 => answered s (execEvlNewestLoRead p s)
      | 3, 0x48 => answered s (execEvlOldestLoRead p s)
      | 4, 0x68 => answered s (execThmSenseBadLoRead p s)
      | 6, 0x4C => answered s (execKeyKcvLoRead p s)
      | 12, 0x74 => answered s (execTenMigSerialLoRead p s)
      | 13, 0x68 => answered s (execMapCkptNumLoRead p s)
      | 16, 0x90 => answered s (execParJseqLoRead p s)
      | 17, 0x90 => answered s (execRclCopyLoRead p s)
      | 17, 0x98 => answered s (execRclHostLoRead p s)
      | 18, 0x68 => answered s (execLdcBitsLoRead p s)
      | _, _ => (bodyWord s p pg off, s)

/-! ## Writes -/

/-- The state that a meaning answers. -/
def Out.state (o : Out) (s : State) : State :=
  match o with
  | .next t => t
  | _ => s

/-- CTRL: ENABLE and FREEZE_ON_ERR are stored, and SOFT_RESET acts (R527). -/
def writeCtrl (s : State) (pg : Nat) (w : Dword) : State :=
  let s := s.setPage pg { s.page pg with enable := w.getLsbD 0, freezeOnErr := w.getLsbD 2 }
  if !w.getLsbD 1 then s
  else if pg = 1 then armDeviceReset s .softReset
  else Out.state (execBlockSoftReset pg 0 s) s

/-- A write of a header word (R526). -/
def writeHeader (s : State) (pg off : Nat) (w : Dword) : State :=
  match off with
  | 0x08 => writeCtrl s pg w
  | 0x10 => Out.state (execEvtRawClear pg w 0 s) s
  | 0x14 => s.setPage pg { s.page pg with evtMask := w &&& evtMaskOf pg }
  | 0x1C => Out.state (execEvtForce pg w s) s
  | 0x24 => if w.getLsbD 31 then Out.state (execErrAck pg s) s else s
  | 0x2C => if w.getLsbD 0 then Out.state (execSealBlock pg s) s else s
  | _ => s

/-- Offsets of an interface's IPv4 and IPv6 address words on the NET page. -/
def addressWord (off : Nat) : Bool := off == 0x50 || decide (0x60 ≤ off ∧ off ≤ 0x6C)

/-- The associations whose connections use interface `ix` with the address family are lost (R431). -/
def dropAddress (s : State) (ix : Nat) (v6 : Bool) : State :=
  (s.net.assocs.filter fun a => a.iface == ix && a.v6 == v6).foldl
    (fun s a => if a.discovery then loseDiscovery s 3 fun b => b.iface == ix && b.v6 == v6 else loseAssoc s a.fn 3) s

/-- A write of an address word of the interface that the path selects: a change drops the connections that use the old
address. -/
def writeAddress (p : Path) (off : Nat) (w : Dword) (s : State) : State :=
  let old := bodyWord s p 9 off
  let t := storeWord s p 9 off w
  if old = w then t else dropAddress t (selected s p rNET_IF_SEL 0) (off != 0x50)

/-- INTERFACE_ADDRESS_WRITE: 0x050, or 0x060-0x06C, of the NET page. -/
def execInterfaceAddressWrite (p : Path) (off : Nat) (w : Dword) (s : State) : Out :=
  .next (if addressWord off && off % 4 == 0 && released s 9 then writeAddress p off w (s.wakePage 9) else s)

/-- The window's cursor takes a written part (R512). -/
def writeCursor (s : State) (p : Path) (hi : Bool) (w : Dword) : State :=
  let x := s.window p
  let c := x.cursor.toNat
  let n := if hi then w.toNat % 65536 * 2 ^ 32 + c % 2 ^ 32 else c / 2 ^ 32 * 2 ^ 32 + w.toNat
  s.setWindow p { x with cursor := BitVec.ofNat 48 n }

/-- The window's control: LOAD, then NEXT (R512). -/
def writeWindow (s : State) (p : Path) (w : Dword) : State :=
  let s := if w.getLsbD 0 then Out.state (execWindowLoad p s) s else s
  if w.getLsbD 1 then Out.state (execWindowNext p s) s else s

/-- CRING_HEAD: the records before the written head are consumed; a head outside the unread records moves alone. -/
def writeCringHead (s : State) (nn : Nat) (w : Dword) : State :=
  s.updChan nn fun c =>
    let h := w.toNat % 1024
    let left := (c.cringTail + 1024 - h) % 1024
    { c with cringHead := h, cring := if left ≤ c.cring.length then c.cring.drop (c.cring.length - left) else c.cring }

/-- A write of a block-specific word of a released page: the controls act, and the stored fields take their values. -/
def writeBody (s : State) (p : Path) (a : Around) (pg off : Nat) (w : Dword) : State :=
  match pg, off with
  | 2, 0x50 => ppsEnable (storeWord s p pg off w)
  | 2, 0x7C => writeTbsSetHi p w s
  | 3, 0x50 => Out.state (execWatermarkWrite p w s) s
  | 3, 0x54 => s.setUpper p rEVL_WMARK_HI (w.toNat % 65536)
  | 3, 0x5C => aenUpdate (storeWord s p pg off w)
  | 3, 0x100 => writeCursor s p false w
  | 3, 0x104 => writeCursor s p true w
  | 3, 0x108 => writeWindow s p w
  | 5, 0x48 => Out.state (execHldTestNow p w s) s
  | 8, 0x4C => Out.state (execHifWinClose w s) s
  | 13, 0x60 => Out.state (execCkptNow p w s) s
  | 18, 0x80 => Out.state (execLdcInjArm p w s) s
  | 20, 0x58 => Out.state (execDumpGo w s) s
  | _, _ =>
    if pg = 9 ∧ addressWord off then writeAddress p off w s
    else if pg ≥ 64 ∧ off = 0x80 then (if w.getLsbD 0 then Out.state (execFchPinGo (pg - 64) a.short a.open_ s) s else s)
    else if pg ≥ 64 ∧ off = 0x98 then writeCringHead s (pg - 64) w
    else storeWord s p pg off w

/-- One write of a register word (R521, R522). -/
def regWrite (s : State) (p : Path) (a : Around) (addr : Nat) (w : Dword) : State :=
  match pageAt addr with
  | none => s
  | some (pg, off) =>
    let s := s.wakePage pg
    if off < 0x40 then writeHeader s pg off w
    else if released s pg then writeBody s p a pg off w
    else s

/-! ## The commands -/

/-- REGISTER_WRITE: a word written by a path; the manager's goes through a port. `whole` is false for a PCIe request that
is not one dword with all byte enables: it is dropped and counted (R521). A word whose write has a row of its own acts
as that row. -/
def execRegisterWrite (p : Path) (port addr : Nat) (w : Dword) (whole : Bool) (short open_ : BitVec 22) (s : State) :
    Out :=
  .next <|
    if !pathWrites s p port then s
    else if !whole then (if p = .manager then s.bump rBOT_BAD_SIZE 1 else s)
    else if addr % 4 ≠ 0 then s
    else regWrite s p ⟨0, short, open_⟩ addr w

/-- Status of a register access message: 2 for a count outside 1-16, 1 for an offset outside the window (R443). -/
def messageStatus (off n : Nat) : Nat :=
  if n = 0 ∨ n > 16 then 2 else if off % 4 ≠ 0 ∨ off + 4 * n > 2 ^ 26 then 1 else 0

/-- A message that is refused sets REG_ACCESS_ERR. -/
def messageRefused (s : State) (status : Nat) : State := (s.ev eSBI_REG_ACCESS_ERR).answer (.words status [])

/-- Words of a message read in increasing offset order. -/
def readWords (s : State) (a : Around) (off : Nat) : Nat → List Dword × State
  | 0 => ([], s)
  | n + 1 =>
    let (w, s) := regRead s .bmc a off
    let (ws, s) := readWords s a (off + 4) n
    (w :: ws, s)

/-- Words of a message written in increasing offset order. -/
def writeWords (s : State) (a : Around) (off : Nat) : List Dword → State
  | [] => s
  | w :: ws => writeWords (regWrite s .bmc a off w) a (off + 4) ws

/-- A register access message of the BMC: its endpoint ID is assigned and its PEC holds. -/
def messageIn (s : State) (pec : Bool) (act : State → State) : State :=
  mctpIn s pec fun s => if s.sbi.eid != 0 && windowUp s .bmc then act s else s

/-- REGISTER_READ_MESSAGE: `n` words from an offset; `ns` is the time in the stride of a read of TBS. -/
def execRegisterReadMessage (pec : Bool) (off n ns : Nat) (s : State) : Out :=
  .next <| messageIn s pec fun s =>
    match messageStatus off n with
    | 0 =>
      let (ws, s) := readWords s ⟨ns, 0, 0⟩ off n
      s.answer (.words 0 ws)
    | k => messageRefused s k

/-- REGISTER_WRITE_MESSAGE: the data words from an offset; `short` and `open_` are what a pin test that it starts
finds. -/
def execRegisterWriteMessage (pec : Bool) (off : Nat) (ws : List Dword) (short open_ : BitVec 22) (s : State) : Out :=
  .next <| messageIn s pec fun s =>
    match messageStatus off ws.length with
    | 0 => (writeWords s ⟨0, short, open_⟩ off ws).answer (.words 0 [])
    | k => messageRefused s k

/-- JTAG_REGISTER_ACCESS: while JTAG_REG_EN is 0 it reads zeros and writes nothing (R445). -/
def execJtagRegisterAccess (addr : Nat) (data : Option Dword) (ns : Nat) (short open_ : BitVec 22) (s : State) : Out :=
  .next <|
    let s := s.wake jtagDomain
    if !windowUp s .jtag ∨ addr % 4 ≠ 0 then s
    else if s.rd rSBI_JTAG_REG_EN = 0 then (if data.isNone then s.answer (.word 0) else s)
    else match data with
      | some w => regWrite s .jtag ⟨ns, short, open_⟩ addr w
      | none =>
        let (w, s) := regRead s .jtag ⟨ns, short, open_⟩ addr
        s.answer (.word w)

end Sys2Proof.Machine
end

