-- ==== Sys2Proof/Machine/Dispatch.lean ====
section
/-! DEFINITION. The dispatch of a command to its meaning: one arm for each constructor of Instr. -/

namespace Sys2Proof.Machine

open Sys2Proof

/-- The effect of a command on everything but the queue. -/
def exec (i : Instr) (s : State) : Host.Outcome State Fault Refusal :=
  match i with
  | .strideTick fw => Sys2Proof.Machine.execStrideTick fw s
  | .secondBoundary => Sys2Proof.Machine.execSecondBoundary s
  | .minuteBoundary => Sys2Proof.Machine.execMinuteBoundary s
  | .tbsHour => Sys2Proof.Machine.execTbsHour s
  | .planCommit complete ns => Sys2Proof.Machine.execPlanCommit complete ns s
  | .turnBoundary => Sys2Proof.Machine.execTurnBoundary s
  | .ppsEdge rising ns width => Sys2Proof.Machine.execPpsEdge rising ns width s
  | .ppsStep fw => Sys2Proof.Machine.execPpsStep fw s
  | .ppsHoldover => Sys2Proof.Machine.execPpsHoldover s
  | .setFeaturesTimestamp seq ns ms => Sys2Proof.Machine.execSetFeaturesTimestamp seq ns ms s
  | .getFeaturesTimestamp seq => Sys2Proof.Machine.execGetFeaturesTimestamp seq s
  | .tbsSetGo p w => Sys2Proof.Machine.execTbsSetGo p w s
  | .secondsSetApply => Sys2Proof.Machine.execSecondsSetApply s
  | .tbsSecLoRead p ns => Sys2Proof.Machine.execTbsSecLoRead p ns s
  | .lanternTablePublish => Sys2Proof.Machine.execLanternTablePublish s
  | .lanternDatagram => Sys2Proof.Machine.execLanternDatagram s
  | .getLogPageLantern seq off len => Sys2Proof.Machine.execGetLogPageLantern seq off len s
  | .sqTailDoorbell f qid val => Sys2Proof.Machine.execSqTailDoorbell f qid val s
  | .cqHeadDoorbell f qid val => Sys2Proof.Machine.execCqHeadDoorbell f qid val s
  | .commandFetch f qid cid op n => Sys2Proof.Machine.execCommandFetch f qid cid op n s
  | .completionPoint seq pi => Sys2Proof.Machine.execCompletionPoint seq pi s
  | .cqStall f qid => Sys2Proof.Machine.execCqStall f qid s
  | .writeThroughEnter => Sys2Proof.Machine.execWriteThroughEnter s
  | .writeThroughExit => Sys2Proof.Machine.execWriteThroughExit s
  | .createIoSq seq qid size base cqid pc => Sys2Proof.Machine.execCreateIoSq seq qid size base cqid pc s
  | .createIoCq seq qid size base vector pc ien => Sys2Proof.Machine.execCreateIoCq seq qid size base vector pc ien s
  | .deleteIoSq seq qid => Sys2Proof.Machine.execDeleteIoSq seq qid s
  | .sqDeletionApply => Sys2Proof.Machine.execSqDeletionApply s
  | .deleteIoCq seq qid => Sys2Proof.Machine.execDeleteIoCq seq qid s
  | .getLogPage seq lid off len => Sys2Proof.Machine.execGetLogPage seq lid off len s
  | .getLogPageMeters seq f off len => Sys2Proof.Machine.execGetLogPageMeters seq f off len s
  | .getLogPageHarnessStatus seq f off len => Sys2Proof.Machine.execGetLogPageHarnessStatus seq f off len s
  | .getLogPageRedundancy seq off len => Sys2Proof.Machine.execGetLogPageRedundancy seq off len s
  | .getLogPageThermal seq off len => Sys2Proof.Machine.execGetLogPageThermal seq off len s
  | .getLogPageLedger seq off len => Sys2Proof.Machine.execGetLogPageLedger seq off len s
  | .getLogPageLedgerSummary seq len => Sys2Proof.Machine.execGetLogPageLedgerSummary seq len s
  | .getLogPageMigrationRecord seq f off len => Sys2Proof.Machine.execGetLogPageMigrationRecord seq f off len s
  | .getLogPageDieRoster seq off len => Sys2Proof.Machine.execGetLogPageDieRoster seq off len s
  | .identify seq cns nsid cntid csi => Sys2Proof.Machine.execIdentify seq cns nsid cntid csi s
  | .abort seq => Sys2Proof.Machine.execAbort seq s
  | .setFeatures seq fid v => Sys2Proof.Machine.execSetFeatures seq fid v s
  | .setFeaturesArbitration seq v => Sys2Proof.Machine.execSetFeaturesArbitration seq v s
  | .setFeaturesPowerManagement seq w => Sys2Proof.Machine.execSetFeaturesPowerManagement seq w s
  | .setFeaturesVolatileWriteCache seq wce => Sys2Proof.Machine.execSetFeaturesVolatileWriteCache seq wce s
  | .setFeaturesNumberOfQueues seq nsq ncq => Sys2Proof.Machine.execSetFeaturesNumberOfQueues seq nsq ncq s
  | .setFeaturesTemperatureThreshold seq w => Sys2Proof.Machine.execSetFeaturesTemperatureThreshold seq w s
  | .setFeaturesKeepAliveTimer seq ms => Sys2Proof.Machine.execSetFeaturesKeepAliveTimer seq ms s
  | .setFeaturesFdp seq enable => Sys2Proof.Machine.execSetFeaturesFdp seq enable s
  | .getFeatures seq fid dw11 => Sys2Proof.Machine.execGetFeatures seq fid dw11 s
  | .asynchronousEventRequest seq => Sys2Proof.Machine.execAsynchronousEventRequest seq s
  | .namespaceCreate seq typ nsze ncap fmt mode source owner zsze => Sys2Proof.Machine.execNamespaceCreate seq typ nsze ncap fmt mode source owner zsze s
  | .namespaceCreateFineFit => Sys2Proof.Machine.execNamespaceCreateFineFit s
  | .namespaceCreateFineTimeout => Sys2Proof.Machine.execNamespaceCreateFineTimeout s
  | .namespaceDelete seq nsid => Sys2Proof.Machine.execNamespaceDelete seq nsid s
  | .namespaceAttach seq nsid f => Sys2Proof.Machine.execNamespaceAttach seq nsid f s
  | .namespaceDetach seq nsid f => Sys2Proof.Machine.execNamespaceDetach seq nsid f s
  | .firmwareImageDownload seq off data => Sys2Proof.Machine.execFirmwareImageDownload seq off data s
  | .firmwareCommitStore seq fs => Sys2Proof.Machine.execFirmwareCommitStore seq fs s
  | .firmwareCommitNextReset seq fs => Sys2Proof.Machine.execFirmwareCommitNextReset seq fs s
  | .firmwareCommitImmediate seq fs => Sys2Proof.Machine.execFirmwareCommitImmediate seq fs s
  | .fwActivationStop => Sys2Proof.Machine.execFwActivationStop s
  | .fwActivationSwitch => Sys2Proof.Machine.execFwActivationSwitch s
  | .fwActivationResume => Sys2Proof.Machine.execFwActivationResume s
  | .deviceSelfTest seq nsid stc => Sys2Proof.Machine.execDeviceSelfTest seq nsid stc s
  | .keepAlive seq => Sys2Proof.Machine.execKeepAlive seq s
  | .directiveSend seq => Sys2Proof.Machine.execDirectiveSend seq s
  | .directiveReceive seq => Sys2Proof.Machine.execDirectiveReceive seq s
  | .secondaryControllerOnline seq f => Sys2Proof.Machine.execSecondaryControllerOnline seq f s
  | .secondaryControllerOffline seq f => Sys2Proof.Machine.execSecondaryControllerOffline seq f s
  | .nvmeMiSend seq op a v data => Sys2Proof.Machine.execNvmeMiSend seq op a v data s
  | .nvmeMiReceive seq op a v => Sys2Proof.Machine.execNvmeMiReceive seq op a v s
  | .doorbellBufferConfig seq => Sys2Proof.Machine.execDoorbellBufferConfig seq s
  | .formatNvm seq nsid fmt => Sys2Proof.Machine.execFormatNvm seq nsid fmt s
  | .formatNvmCryptoErase seq nsid fmt => Sys2Proof.Machine.execFormatNvmCryptoErase seq nsid fmt s
  | .securitySend seq secp spsp data => Sys2Proof.Machine.execSecuritySend seq secp spsp data s
  | .securityReceive seq secp spsp len => Sys2Proof.Machine.execSecurityReceive seq secp spsp len s
  | .sanitizeBlockErase seq => Sys2Proof.Machine.execSanitizeBlockErase seq s
  | .sanitizeComplete => Sys2Proof.Machine.execSanitizeComplete s
  | .sanitizeCryptoErase seq => Sys2Proof.Machine.execSanitizeCryptoErase seq s
  | .sanitizeOverwrite seq => Sys2Proof.Machine.execSanitizeOverwrite seq s
  | .getLbaStatus seq => Sys2Proof.Machine.execGetLbaStatus seq s
  | .unusedVendorOpcode seq => Sys2Proof.Machine.execUnusedVendorOpcode seq s
  | .flush seq nsid => Sys2Proof.Machine.execFlush seq nsid s
  | .write seq nsid lba fua handle data metas => Sys2Proof.Machine.execWrite seq nsid lba fua handle data metas s
  | .read seq nsid lba nlb => Sys2Proof.Machine.execRead seq nsid lba nlb s
  | .writeUncorrectable seq nsid lba nlb => Sys2Proof.Machine.execWriteUncorrectable seq nsid lba nlb s
  | .compare seq nsid lba fused data => Sys2Proof.Machine.execCompare seq nsid lba fused data s
  | .writeZeroes seq nsid lba nlb deac fua => Sys2Proof.Machine.execWriteZeroes seq nsid lba nlb deac fua s
  | .datasetManagement seq nsid deallocate ranges => Sys2Proof.Machine.execDatasetManagement seq nsid deallocate ranges s
  | .verify seq nsid lba nlb => Sys2Proof.Machine.execVerify seq nsid lba nlb s
  | .reservationRegister seq => Sys2Proof.Machine.execReservationRegister seq s
  | .reservationReport seq => Sys2Proof.Machine.execReservationReport seq s
  | .reservationAcquire seq => Sys2Proof.Machine.execReservationAcquire seq s
  | .reservationRelease seq => Sys2Proof.Machine.execReservationRelease seq s
  | .copy seq => Sys2Proof.Machine.execCopy seq s
  | .ioManagementReceive seq nsid n => Sys2Proof.Machine.execIoManagementReceive seq nsid n s
  | .ioManagementSend seq nsid handles => Sys2Proof.Machine.execIoManagementSend seq nsid handles s
  | .zoneManagementReceive seq nsid lba filter n => Sys2Proof.Machine.execZoneManagementReceive seq nsid lba filter n s
  | .zoneReset seq nsid lba all => Sys2Proof.Machine.execZoneReset seq nsid lba all s
  | .zoneFinish seq nsid lba all => Sys2Proof.Machine.execZoneFinish seq nsid lba all s
  | .zoneOpen seq nsid lba all => Sys2Proof.Machine.execZoneOpen seq nsid lba all s
  | .zoneClose seq nsid lba all => Sys2Proof.Machine.execZoneClose seq nsid lba all s
  | .zoneAppend seq nsid zslba fua data metas => Sys2Proof.Machine.execZoneAppend seq nsid zslba fua data metas s
  | .functionCreate seq f data => Sys2Proof.Machine.execFunctionCreate seq f data s
  | .functionDelete seq f => Sys2Proof.Machine.execFunctionDelete seq f s
  | .functionBind seq f kind => Sys2Proof.Machine.execFunctionBind seq f kind s
  | .harnessSet seq f data => Sys2Proof.Machine.execHarnessSet seq f data s
  | .harnessApply f => Sys2Proof.Machine.execHarnessApply f s
  | .functionFreeze seq f => Sys2Proof.Machine.execFunctionFreeze seq f s
  | .freezeDrained f => Sys2Proof.Machine.execFreezeDrained f s
  | .tenFreezeLate f => Sys2Proof.Machine.execTenFreezeLate f s
  | .functionSave seq f => Sys2Proof.Machine.execFunctionSave seq f s
  | .saveApply f => Sys2Proof.Machine.execSaveApply f s
  | .functionThaw seq f => Sys2Proof.Machine.execFunctionThaw seq f s
  | .functionRestore seq f kind record plain keys => Sys2Proof.Machine.execFunctionRestore seq f kind record plain keys s
  | .functionLevelReset f => Sys2Proof.Machine.execFunctionLevelReset f s
  | .flrComplete f => Sys2Proof.Machine.execFlrComplete f s
  | .pcieFlr f => Sys2Proof.Machine.execPcieFlr f s
  | .ccEnClear f port => Sys2Proof.Machine.execCcEnClear f port s
  | .ccEnSet f port asqs acqs asq acq => Sys2Proof.Machine.execCcEnSet f port asqs acqs asq acq s
  | .sriovNumvfsWrite p n => Sys2Proof.Machine.execSriovNumvfsWrite p n s
  | .poolScaleApply => Sys2Proof.Machine.execPoolScaleApply s
  | .tenMigSerialLoRead p => Sys2Proof.Machine.execTenMigSerialLoRead p s
  | .demotion => Sys2Proof.Machine.execDemotion s
  | .checkpointStart => Sys2Proof.Machine.execCheckpointStart s
  | .ckptNow p w => Sys2Proof.Machine.execCkptNow p w s
  | .ckptDone => Sys2Proof.Machine.execCkptDone s
  | .mapCkptNumLoRead p => Sys2Proof.Machine.execMapCkptNumLoRead p s
  | .programUnitAssembly t => Sys2Proof.Machine.execProgramUnitAssembly t s
  | .spanAllocate n => Sys2Proof.Machine.execSpanAllocate n s
  | .idleClosure t => Sys2Proof.Machine.execIdleClosure t s
  | .ceilingChange => Sys2Proof.Machine.execCeilingChange s
  | .codewordEncode stream serial member crcBad => Sys2Proof.Machine.execCodewordEncode stream serial member crcBad s
  | .descriptorRead d slot busy => Sys2Proof.Machine.execDescriptorRead d slot busy s
  | .descriptorReadRun d slot busy => Sys2Proof.Machine.execDescriptorReadRun d slot busy s
  | .descriptorProgram d ix => Sys2Proof.Machine.execDescriptorProgram d ix s
  | .descriptorEraseIntent d ix => Sys2Proof.Machine.execDescriptorEraseIntent d ix s
  | .descriptorErase d ix => Sys2Proof.Machine.execDescriptorErase d ix s
  | .descriptorStatus d ix dstat => Sys2Proof.Machine.execDescriptorStatus d ix dstat s
  | .descriptorFeature d ix value => Sys2Proof.Machine.execDescriptorFeature d ix value s
  | .descriptorReset d ix => Sys2Proof.Machine.execDescriptorReset d ix s
  | .descriptorRaw d ix data dec => Sys2Proof.Machine.execDescriptorRaw d ix data dec s
  | .dieOpPoll d ready dstat => Sys2Proof.Machine.execDieOpPoll d ready dstat s
  | .dieOpComplete d pageFails => Sys2Proof.Machine.execDieOpComplete d pageFails s
  | .fchDieTimeout d => Sys2Proof.Machine.execFchDieTimeout d s
  | .dieResetTimeout d => Sys2Proof.Machine.execDieResetTimeout d s
  | .reinSuspend d ix => Sys2Proof.Machine.execReinSuspend d ix s
  | .reinRead d ix => Sys2Proof.Machine.execReinRead d ix s
  | .reinResume d => Sys2Proof.Machine.execReinResume d s
  | .slotArbitration nn => Sys2Proof.Machine.execSlotArbitration nn s
  | .codewordTransferEnd nn => Sys2Proof.Machine.execCodewordTransferEnd nn s
  | .fchStallPromote nn r => Sys2Proof.Machine.execFchStallPromote nn r s
  | .dieRetrain d low => Sys2Proof.Machine.execDieRetrain d low s
  | .channelRetrainDone nn rate => Sys2Proof.Machine.execChannelRetrainDone nn rate s
  | .fchPinGo nn short open_ => Sys2Proof.Machine.execFchPinGo nn short open_ s
  | .engStallPromote id => Sys2Proof.Machine.execEngStallPromote id s
  | .decodeDone id pos r => Sys2Proof.Machine.execDecodeDone id pos r s
  | .poisonWait => Sys2Proof.Machine.execPoisonWait s
  | .reverseSearch => Sys2Proof.Machine.execReverseSearch s
  | .trackerReview die entry => Sys2Proof.Machine.execTrackerReview die entry s
  | .ldcInjArm p w => Sys2Proof.Machine.execLdcInjArm p w s
  | .ldcBitsLoRead p => Sys2Proof.Machine.execLdcBitsLoRead p s
  | .dieLost => Sys2Proof.Machine.execDieLost s
  | .journalFlush fails => Sys2Proof.Machine.execJournalFlush fails s
  | .parJrnRehome => Sys2Proof.Machine.execParJrnRehome s
  | .journalRehomeDone => Sys2Proof.Machine.execJournalRehomeDone s
  | .rebuildRow bad => Sys2Proof.Machine.execRebuildRow bad s
  | .parRebuildDone => Sys2Proof.Machine.execParRebuildDone s
  | .groomRow bad reads => Sys2Proof.Machine.execGroomRow bad reads s
  | .rawMediaRead seq dw10 dw11 => Sys2Proof.Machine.execRawMediaRead seq dw10 dw11 s
  | .groomSpan seq n => Sys2Proof.Machine.execGroomSpan seq n s
  | .pauseRebuild seq => Sys2Proof.Machine.execPauseRebuild seq s
  | .resumeRebuild seq => Sys2Proof.Machine.execResumeRebuild seq s
  | .moveJournalMirror seq k die => Sys2Proof.Machine.execMoveJournalMirror seq k die s
  | .parJseqLoRead p => Sys2Proof.Machine.execParJseqLoRead p s
  | .reclaimVictimPick => Sys2Proof.Machine.execReclaimVictimPick s
  | .reclaimRowCopy n bad => Sys2Proof.Machine.execReclaimRowCopy n bad s
  | .spanEraseStart n c => Sys2Proof.Machine.execSpanEraseStart n c s
  | .rclCopyLoRead p => Sys2Proof.Machine.execRclCopyLoRead p s
  | .rclHostLoRead p => Sys2Proof.Machine.execRclHostLoRead p s
  | .dramLineCheckFail x qtr lcrc tag passes raw => Sys2Proof.Machine.execDramLineCheckFail x qtr lcrc tag passes raw s
  | .dmcRecompute ok covered => Sys2Proof.Machine.execDmcRecompute ok covered s
  | .dumpGo w => Sys2Proof.Machine.execDumpGo w s
  | .dramAlert ca n x => Sys2Proof.Machine.execDramAlert ca n x s
  | .dramOscRead sc rank drift => Sys2Proof.Machine.execDramOscRead sc rank drift s
  | .dramZqCalibration sc rank => Sys2Proof.Machine.execDramZqCalibration sc rank s
  | .srmWordCheckFail addr raw p fabric again source hit => Sys2Proof.Machine.execSrmWordCheckFail addr raw p fabric again source hit s
  | .keyExchangeOffer seq hostPub hostNonce => Sys2Proof.Machine.execKeyExchangeOffer seq hostPub hostNonce s
  | .exchangeResponse seq => Sys2Proof.Machine.execExchangeResponse seq s
  | .certificateChain seq off len => Sys2Proof.Machine.execCertificateChain seq off len s
  | .keyStatus seq nsid => Sys2Proof.Machine.execKeyStatus seq nsid s
  | .loadNamespaceKey seq nsid data => Sys2Proof.Machine.execLoadNamespaceKey seq nsid data s
  | .loadMigrationKey seq data => Sys2Proof.Machine.execLoadMigrationKey seq data s
  | .clearKey seq nsid => Sys2Proof.Machine.execClearKey seq nsid s
  | .shadowZeroize k => Sys2Proof.Machine.execShadowZeroize k s
  | .cipDecryptDone id tagOk => Sys2Proof.Machine.execCipDecryptDone id tagOk s
  | .tlsRecordReceive a tagOk => Sys2Proof.Machine.execTlsRecordReceive a tagOk s
  | .tlsKeyUpdate a tx => Sys2Proof.Machine.execTlsKeyUpdate a tx s
  | .drbgReseed => Sys2Proof.Machine.execDrbgReseed s
  | .keyDrbgFail => Sys2Proof.Machine.execKeyDrbgFail s
  | .keyKcvLoRead p => Sys2Proof.Machine.execKeyKcvLoRead p s
  | .getVersion doe => Sys2Proof.Machine.execGetVersion doe s
  | .getCapabilities doe => Sys2Proof.Machine.execGetCapabilities doe s
  | .negotiateAlgorithms doe ecdsa384 sha384 secp384 aesGcm => Sys2Proof.Machine.execNegotiateAlgorithms doe ecdsa384 sha384 secp384 aesGcm s
  | .getDigests doe => Sys2Proof.Machine.execGetDigests doe s
  | .getCertificate doe slot off len => Sys2Proof.Machine.execGetCertificate doe slot off len s
  | .challenge doe slot nonce => Sys2Proof.Machine.execChallenge doe slot nonce s
  | .getMeasurements doe index nonce => Sys2Proof.Machine.execGetMeasurements doe index nonce s
  | .keyExchange doe => Sys2Proof.Machine.execKeyExchange doe s
  | .finish doe id good => Sys2Proof.Machine.execFinish doe id good s
  | .heartbeat doe id => Sys2Proof.Machine.execHeartbeat doe id s
  | .keyUpdate doe id => Sys2Proof.Machine.execKeyUpdate doe id s
  | .endSession doe id => Sys2Proof.Machine.execEndSession doe id s
  | .ideKm id k op => Sys2Proof.Machine.execIdeKm id k op s
  | .pcieLinkUp p speed width flit => Sys2Proof.Machine.execPcieLinkUp p speed width flit s
  | .pcieLinkDown p => Sys2Proof.Machine.execPcieLinkDown p s
  | .perstAssert p => Sys2Proof.Machine.execPerstAssert p s
  | .pcieConfigRequest p f req => Sys2Proof.Machine.execPcieConfigRequest p f req s
  | .hifIdeFail k => Sys2Proof.Machine.execHifIdeFail k s
  | .hifWinClose w => Sys2Proof.Machine.execHifWinClose w s
  | .ethLinkChange ix up => Sys2Proof.Machine.execEthLinkChange ix up s
  | .tlsHandshake f suite psk => Sys2Proof.Machine.execTlsHandshake f suite psk s
  | .connect f qid size hostHash kato ix v6 rdma tls => Sys2Proof.Machine.execConnect f qid size hostHash kato ix v6 rdma tls s
  | .commandCapsule f qid cid dscp => Sys2Proof.Machine.execCommandCapsule f qid cid dscp s
  | .keepAliveExpiry f => Sys2Proof.Machine.execKeepAliveExpiry f s
  | .adminConnectionClose f => Sys2Proof.Machine.execAdminConnectionClose f s
  | .propertyGet f off => Sys2Proof.Machine.execPropertyGet f off s
  | .netPfcStorm ix => Sys2Proof.Machine.execNetPfcStorm ix s
  | .pfcStormEnd ix => Sys2Proof.Machine.execPfcStormEnd ix s
  | .arpRequest ix ip => Sys2Proof.Machine.execArpRequest ix ip s
  | .neighborDiscovery ix ip => Sys2Proof.Machine.execNeighborDiscovery ix ip s
  | .icmpEcho ix ip v6 data => Sys2Proof.Machine.execIcmpEcho ix ip v6 data s
  | .routerAdvertisement ix router lifetime => Sys2Proof.Machine.execRouterAdvertisement ix router lifetime s
  | .interfaceAddressWrite p off w => Sys2Proof.Machine.execInterfaceAddressWrite p off w s
  | .discoveryLogPage hostHash => Sys2Proof.Machine.execDiscoveryLogPage hostHash s
  | .registerReadMessage pec off n ns => Sys2Proof.Machine.execRegisterReadMessage pec off n ns s
  | .registerWriteMessage pec off ws short open_ => Sys2Proof.Machine.execRegisterWriteMessage pec off ws short open_ s
  | .setEndpointId pec eid => Sys2Proof.Machine.execSetEndpointId pec eid s
  | .readNvmeMiDataStructure pec typ ctl => Sys2Proof.Machine.execReadNvmeMiDataStructure pec typ ctl s
  | .subsystemHealthStatusPoll pec => Sys2Proof.Machine.execSubsystemHealthStatusPoll pec s
  | .controllerHealthStatusPoll pec from_ n => Sys2Proof.Machine.execControllerHealthStatusPoll pec from_ n s
  | .configurationGet pec cfg => Sys2Proof.Machine.execConfigurationGet pec cfg s
  | .configurationSet pec cfg v => Sys2Proof.Machine.execConfigurationSet pec cfg v s
  | .vpdRead pec off len => Sys2Proof.Machine.execVpdRead pec off len s
  | .vpdWrite pec off data => Sys2Proof.Machine.execVpdWrite pec off data s
  | .nvmeMiReset pec => Sys2Proof.Machine.execNvmeMiReset pec s
  | .tunnelledAdminCommand pec f opcode nsid dw10 dw11 off len => Sys2Proof.Machine.execTunnelledAdminCommand pec f opcode nsid dw10 dw11 off len s
  | .basicManagementCommand => Sys2Proof.Machine.execBasicManagementCommand s
  | .uartConsoleInput data => Sys2Proof.Machine.execUartConsoleInput data s
  | .jtagRegisterAccess addr data ns short open_ => Sys2Proof.Machine.execJtagRegisterAccess addr data ns short open_ s
  | .jtagPinInstructionExit => Sys2Proof.Machine.execJtagPinInstructionExit s
  | .housekeepingRound codes diodes restores => Sys2Proof.Machine.execHousekeepingRound codes diodes restores s
  | .openTest moves => Sys2Proof.Machine.execOpenTest moves s
  | .packageTemperatureRead readings => Sys2Proof.Machine.execPackageTemperatureRead readings s
  | .throttleLevelLower => Sys2Proof.Machine.execThrottleLevelLower s
  | .snuffPowerOff => Sys2Proof.Machine.execSnuffPowerOff s
  | .relight => Sys2Proof.Machine.execRelight s
  | .lowPowerStateEntry => Sys2Proof.Machine.execLowPowerStateEntry s
  | .stringTest k tAll tK esr => Sys2Proof.Machine.execStringTest k tAll tK esr s
  | .hldTestNow p w => Sys2Proof.Machine.execHldTestNow p w s
  | .pwrFail => Sys2Proof.Machine.execPwrFail s
  | .bankTrip => Sys2Proof.Machine.execBankTrip s
  | .vddCoreLow => Sys2Proof.Machine.execVddCoreLow s
  | .vddAonLow => Sys2Proof.Machine.execVddAonLow s
  | .dumpFreeze => Sys2Proof.Machine.execDumpFreeze s
  | .dumpEnd closing lost badLog mib => Sys2Proof.Machine.execDumpEnd closing lost badLog mib s
  | .powerReturnDuringDump => Sys2Proof.Machine.execPowerReturnDuringDump s
  | .xtalStop => Sys2Proof.Machine.execXtalStop s
  | .powerOnReset => Sys2Proof.Machine.execPowerOnReset s
  | .configurationImageLoad reversed shorted => Sys2Proof.Machine.execConfigurationImageLoad reversed shorted s
  | .pcieLinkTraining p => Sys2Proof.Machine.execPcieLinkTraining p s
  | .firmwareLoad bad lost healthy scan => Sys2Proof.Machine.execFirmwareLoad bad lost healthy scan s
  | .dramPhase d pins => Sys2Proof.Machine.execDramPhase d pins s
  | .dramFill rows ppr => Sys2Proof.Machine.execDramFill rows ppr s
  | .flashGroupStart found pins margins => Sys2Proof.Machine.execFlashGroupStart found pins margins s
  | .rosterCheck => Sys2Proof.Machine.execRosterCheck s
  | .initialisation bad => Sys2Proof.Machine.execInitialisation bad s
  | .intentScan => Sys2Proof.Machine.execIntentScan s
  | .journalLoad => Sys2Proof.Machine.execJournalLoad s
  | .replay bad => Sys2Proof.Machine.execReplay bad s
  | .nvmeReady => Sys2Proof.Machine.execNvmeReady s
  | .deviceReset => Sys2Proof.Machine.execDeviceReset s
  | .nvmSubsystemReset f w => Sys2Proof.Machine.execNvmSubsystemReset f w s
  | .sysRst => Sys2Proof.Machine.execSysRst s
  | .botSoftReset w => Sys2Proof.Machine.execBotSoftReset w s
  | .blockSoftReset p same => Sys2Proof.Machine.execBlockSoftReset p same s
  | .normalShutdown => Sys2Proof.Machine.execNormalShutdown s
  | .shutdownProgramsDone => Sys2Proof.Machine.execShutdownProgramsDone s
  | .abruptShutdown => Sys2Proof.Machine.execAbruptShutdown s
  | .tenantShutdown f => Sys2Proof.Machine.execTenantShutdown f s
  | .eventRaise p code func payload addr => Sys2Proof.Machine.execEventRaise p code func payload addr s
  | .ledgerRecordProgram => Sys2Proof.Machine.execLedgerRecordProgram s
  | .ledgerProgramDone ok => Sys2Proof.Machine.execLedgerProgramDone ok s
  | .windowLoad p => Sys2Proof.Machine.execWindowLoad p s
  | .windowNext p => Sys2Proof.Machine.execWindowNext p s
  | .windowResult p => Sys2Proof.Machine.execWindowResult p s
  | .watermarkWrite p lo => Sys2Proof.Machine.execWatermarkWrite p lo s
  | .evlWmark => Sys2Proof.Machine.execEvlWmark s
  | .evlNewestLoRead p => Sys2Proof.Machine.execEvlNewestLoRead p s
  | .evlOldestLoRead p => Sys2Proof.Machine.execEvlOldestLoRead p s
  | .botSerial0Read p => Sys2Proof.Machine.execBotSerial0Read p s
  | .thmSenseBadLoRead p => Sys2Proof.Machine.execThmSenseBadLoRead p s
  | .evtRawClear p w same => Sys2Proof.Machine.execEvtRawClear p w same s
  | .evtForce p w => Sys2Proof.Machine.execEvtForce p w s
  | .errAck p => Sys2Proof.Machine.execErrAck p s
  | .sealBlock p => Sys2Proof.Machine.execSealBlock p s
  | .registerWrite p port addr w whole short open_ => Sys2Proof.Machine.execRegisterWrite p port addr w whole short open_ s
  | .domainWake d => Sys2Proof.Machine.execDomainWake d s
  | .domainGate d => Sys2Proof.Machine.execDomainGate d s
  | .cpxFwStopped => Sys2Proof.Machine.execCpxFwStopped s
  | .pwrFailNHigh => Sys2Proof.Machine.execPwrFailNHigh s
  | .ledgerSectorEraseDone => Sys2Proof.Machine.execLedgerSectorEraseDone s
  | .norRecordWriteDone => Sys2Proof.Machine.execNorRecordWriteDone s

end Sys2Proof.Machine
end

