-- ==== Sys2Proof/Safety.lean ====
section
/-! DEFINITION. What a safe run is, and the terms that the statements use: which parts of the block a command may
change, and how a fetched command ends. -/

namespace Sys2Proof.Machine

open Sys2Proof

/-- A state from which one step neither faults nor is refused. -/
def State.safe (s : State) : Prop := ∃ t, step s = .next t

/-! ## The time base (R37, R38, R50, R57, R58) -/

/-- STRIDE_IN_SEC is 0-124,999 (R37); a stride is 4,000 to 11,999 ns long, 8,000 but for step and slew strides (R38,
R50); the ns of the operating second are below one second (R57); the power-cycle count has 24 bits (R58). -/
def Tbs.ok (b : Tbs) : Prop :=
  b.strideInSec < 125000 ∧ 4000 ≤ b.strideLen ∧ b.strideLen < 12000 ∧ b.hourNs < 1000000000 ∧ b.pcycle ≤ 0xFFFFFF

/-! ## Frames -/

/-- The parts of the block: one for each field of the state, and five finer ones. -/
inductive Part
  | pending | ans | draws | gate | tbs | stp | qmx | ten | fns | map | wbf | fch | ldc | par | rcl | dmc | key
  | cip | staged | norWaits | hif | net | sbi | thm | hld | fuses | nor | bot | pins | evl | paths | pages | regs | cpx
  /-- programmed codewords (R143): a part of `fch` -/
  | media
  /-- canonical form of the table of programmed codewords: kept when the table stays canonical -/
  | canon
  /-- SEAL bits (R530), a part of `pages`: kept when every sealed page stays sealed -/
  | seals
  /-- fuses, a part of `fuses`: kept when no fuse is un-blown: no revocation bit falls and the SVN does not (R414, R477) -/
  | otp
  /-- the bounds of the time base, a part of `tbs`: kept when `Tbs.ok` is -/
  | clock
  deriving DecidableEq, Repr

/-- Part `p` of `s` is kept in `t`. -/
def State.same (s t : State) : Part → Prop
  | .pending => t.pending = s.pending
  | .ans => t.ans = s.ans
  | .draws => t.draws = s.draws
  | .gate => t.gate = s.gate
  | .tbs => t.tbs = s.tbs
  | .stp => t.stp = s.stp
  | .qmx => t.qmx = s.qmx
  | .ten => t.ten = s.ten
  | .fns => t.fns = s.fns
  | .map => t.map = s.map
  | .wbf => t.wbf = s.wbf
  | .fch => t.fch = s.fch
  | .ldc => t.ldc = s.ldc
  | .par => t.par = s.par
  | .rcl => t.rcl = s.rcl
  | .dmc => t.dmc = s.dmc
  | .key => t.key = s.key
  | .cip => t.cip = s.cip
  | .staged => t.staged = s.staged
  | .norWaits => t.norWaits = s.norWaits
  | .hif => t.hif = s.hif
  | .net => t.net = s.net
  | .sbi => t.sbi = s.sbi
  | .thm => t.thm = s.thm
  | .hld => t.hld = s.hld
  | .fuses => t.fuses = s.fuses
  | .nor => t.nor = s.nor
  | .bot => t.bot = s.bot
  | .pins => t.pins = s.pins
  | .evl => t.evl = s.evl
  | .paths => t.paths = s.paths
  | .pages => t.pages = s.pages
  | .regs => t.regs = s.regs
  | .cpx => t.cpx = s.cpx
  | .media => t.fch.media = s.fch.media
  | .canon => Tbl.wf s.fch.media = true → Tbl.wf t.fch.media = true
  | .seals => ∀ p, (s.page p).sealBit = true → (t.page p).sealBit = true
  | .otp => (∀ i, s.fuses.revoked.getLsbD i = true → t.fuses.revoked.getLsbD i = true) ∧ s.fuses.svn ≤ t.fuses.svn
  | .clock => s.tbs.ok → t.tbs.ok

/-- Only the parts in `ps` may differ between `s` and `t`. -/
def Frame (ps : List Part) (s t : State) : Prop := ∀ p, p ∉ ps → s.same t p

/-! ## How a fetched command ends (R84, R89) -/

/-- The completion entry of command `c`, fetched from queue `q`: an entry that the latency histogram counts keeps its gait
and the time of its fetch (R125), and one that leaves through the network its DSCP (R439). -/
def entryOf (s : State) (q : Sq) (c : Cmd) (x : Status) (dw0 : Dword) : Cqe :=
  { cid := c.cid, sqid := c.sqid, sqHead := q.head, sct := x.sct, sc := x.sc, dnr := x.dnr, dw0 := dw0, dw1 := 0,
    lat := if !c.admin && opTimed c.op then some (c.gait, c.fetchClk) else none,
    dscp := if (s.fn c.fn).bind = .network then some (s.rd rNET_DSCP_TX / 64 ^ c.gait % 64) else none }

/-- Between `s` and `t` the fetched command `seq`, and no other, has left QMX, and its entry with status `x` and Dword 0
`dw0` has gone to the completion queue of its submission queue. -/
def State.ends (s t : State) (seq : Nat) (x : Status) (dw0 : Dword) : Prop :=
  ∃ c, s.cmd? seq = some c ∧ t.qmx.cmds = s.qmx.cmds.filter (fun d => d.seq != seq) ∧
    ∀ q k, Tbl.get (s.fn c.fn).sqs c.sqid = some q → Tbl.get (s.fn c.fn).cqs q.cqid = some k →
      Tbl.get (t.fn c.fn).cqs q.cqid = some (k.push (entryOf s q c x dw0))

/-- Between `s` and `t` the fetched admin command `seq`, and no other, has begun to wait for the end of its action. -/
def State.waits (s t : State) (seq : Nat) : Prop :=
  ∃ c, s.cmd? seq = some c ∧
    t.qmx.cmds = s.qmx.cmds.map fun d => if d.seq = seq then { d with body := .adminWait } else d

/-- Between `s` and `t` the fetched command `seq`, and no other, has become `d`. -/
def State.takes (s t : State) (seq : Nat) (d : Cmd) : Prop :=
  t.cmd? seq = some d ∧ ∀ n, n ≠ seq → t.cmd? n = s.cmd? n

/-! ## Events (R500-R509, R528) -/

/-- The bit of an event is set on its page. -/
def State.shows (t : State) (e : Nat × Nat) : Prop := (t.page e.1).evtRaw.getLsbD e.2 = true

/-- A record of the event `code`, raised in state `s`. -/
def LRec.of (r : LRec) (s : State) (code : Nat) (func : Option Nat) (payload : List (Nat × Nat)) : Prop :=
  r.subsys = code / 256 ∧ r.code = code % 256 ∧ r.severity = Machine.severity code ∧ r.func = func ∧
    r.payload = fitPayload 30 payload ∧ r.hours = s.tbs.hours ∧ r.hourSec = s.tbs.hourSec ∧ r.pcycle = s.tbs.pcycle

/-- The ledger of `t` has heard of the event `code` raised in `s`: its record is queued, held until the counts are
restored, in the mirror, or the last one that its bucket refused. -/
def State.tells (s t : State) (code : Nat) (func : Option Nat) (payload : List (Nat × Nat)) : Prop :=
  ∃ r : LRec, r.of s code func payload ∧
    (r ∈ t.evl.queue ∨ r ∈ t.evl.mirror ∨ (∃ n, (n, r) ∈ t.evl.held) ∨
      ∃ k b, Tbl.get t.evl.buckets k = some b ∧ b.last = some r)

/-! ## Die operations (R204, R211, R212) -/

/-- Between `s` and `t` ring entry `i` of die `d`, with descriptor `x`, has started its operation; a completion record
is reserved for it, and no other die has changed. -/
def State.begins (s t : State) (d i : Nat) (x : Desc) : Prop :=
  (∃ o, (t.die d).op = some o ∧ o.slot = i ∧ o.desc = x ∧ o.run = 0 ∧ o.done = 0 ∧ o.phase = .none) ∧
    (t.die d).ring = (s.die d).ring ∧
    (t.chan (chanOf d)).reserved = (s.chan (chanOf d)).reserved + 1 ∧ ∀ e, e ≠ d → t.die e = s.die e

/-- In `t` ring entry `i` of die `d` is free, and its completion record with status `x` is in the channel's ring or
waits for room in it. -/
def State.records (t : State) (d i : Nat) (x : CStat) : Prop :=
  Tbl.get (t.die d).ring i = none ∧
    ∃ r, (r ∈ (t.chan (chanOf d)).cring ∨ r ∈ (t.chan (chanOf d)).waiting) ∧ r.slot = i ∧ r.pos = diePos d ∧
      r.status = x

end Sys2Proof.Machine

namespace Sys2Proof

/-- The parts of the block that a command may change. -/
def Instr.parts : Instr → List Machine.Part
  | .strideTick _ =>
    [.draws, .gate, .tbs, .stp, .qmx, .ten, .fns, .map, .wbf, .fch, .ldc, .par, .rcl, .dmc, .key, .cip, .staged,
    .norWaits, .net, .thm, .hld, .nor, .evl, .pages, .regs, .cpx]
  | .secondBoundary => [.tbs, .stp, .qmx, .fns, .map, .ldc, .rcl, .net, .thm, .evl, .pages, .regs, .cpx]
  | .minuteBoundary => [.tbs, .fns, .pages]
  | .tbsHour => [.tbs, .evl, .pages, .regs]
  | .planCommit _ _ => [.stp, .evl, .pages, .regs]
  | .turnBoundary => [.stp, .pages, .regs]
  | .ppsEdge _ _ _ => [.tbs, .stp, .net, .evl, .pages, .regs]
  | .ppsStep _ =>
    [.draws, .gate, .tbs, .stp, .qmx, .ten, .fns, .map, .wbf, .fch, .ldc, .par, .rcl, .dmc, .key, .cip, .staged,
    .norWaits, .net, .thm, .hld, .nor, .evl, .pages, .regs, .cpx]
  | .ppsHoldover => [.tbs, .evl, .pages, .regs]
  | .setFeaturesTimestamp _ _ _ => [.tbs, .qmx, .fns]
  | .getFeaturesTimestamp _ => [.ans, .qmx, .fns]
  | .tbsSetGo _ _ => [.tbs, .paths]
  | .secondsSetApply => [.tbs, .stp, .evl, .pages, .regs]
  | .tbsSecLoRead _ _ => [.ans, .gate, .paths]
  | .lanternTablePublish => [.stp]
  | .lanternDatagram => [.ans, .gate, .net, .regs]
  | .getLogPageLantern _ _ _ => [.ans, .qmx, .fns]
  | .sqTailDoorbell _ _ _ => [.gate, .qmx, .fns, .thm, .pages, .regs]
  | .cqHeadDoorbell _ _ _ => [.gate, .qmx, .fns, .thm, .pages, .regs]
  | .commandFetch _ _ _ _ _ => [.gate, .qmx, .fns, .net, .thm, .pages]
  | .completionPoint _ _ => [.ans, .stp, .qmx, .fns, .map, .wbf, .fch, .par, .evl, .pages, .regs]
  | .cqStall _ _ => [.fns, .evl, .pages, .regs]
  | .writeThroughEnter => [.qmx, .fns, .wbf, .pages]
  | .writeThroughExit => [.qmx, .pages]
  | .createIoSq _ _ _ _ _ _ => [.qmx, .fns]
  | .createIoCq _ _ _ _ _ _ _ => [.qmx, .fns]
  | .deleteIoSq _ _ => [.qmx, .fns]
  | .sqDeletionApply => [.stp, .qmx, .fns, .map, .wbf, .par, .pages, .regs]
  | .deleteIoCq _ _ => [.qmx, .fns]
  | .getLogPage _ _ _ _ => [.ans, .draws, .qmx, .fns]
  | .getLogPageMeters _ _ _ _ => [.ans, .qmx, .fns]
  | .getLogPageHarnessStatus _ _ _ _ => [.ans, .qmx, .fns]
  | .getLogPageRedundancy _ _ _ => [.ans, .qmx, .fns]
  | .getLogPageThermal _ _ _ => [.ans, .qmx, .fns]
  | .getLogPageLedger _ _ _ => [.ans, .qmx, .fns]
  | .getLogPageLedgerSummary _ _ => [.ans, .qmx, .fns]
  | .getLogPageMigrationRecord _ _ _ _ => [.ans, .qmx, .fns]
  | .getLogPageDieRoster _ _ _ => [.ans, .qmx, .fns]
  | .identify _ _ _ _ _ => [.ans, .qmx, .fns]
  | .abort _ => [.qmx, .fns]
  | .setFeatures _ _ _ => [.qmx, .fns]
  | .setFeaturesArbitration _ _ => [.qmx, .fns]
  | .setFeaturesPowerManagement _ _ => [.qmx, .fns, .wbf, .thm]
  | .setFeaturesVolatileWriteCache _ _ => [.qmx, .fns]
  | .setFeaturesNumberOfQueues _ _ _ => [.qmx, .fns]
  | .setFeaturesTemperatureThreshold _ _ => [.qmx, .fns]
  | .setFeaturesKeepAliveTimer _ _ => [.qmx, .fns, .net]
  | .setFeaturesFdp _ _ => [.qmx, .fns, .map, .wbf]
  | .getFeatures _ _ _ => [.qmx, .fns]
  | .asynchronousEventRequest _ => [.qmx, .fns, .evl]
  | .namespaceCreate _ _ _ _ _ _ _ _ _ => [.draws, .gate, .qmx, .fns, .map, .key, .norWaits, .evl, .pages, .regs]
  | .namespaceCreateFineFit => [.draws, .gate, .qmx, .map, .key, .norWaits, .evl, .pages, .regs]
  | .namespaceCreateFineTimeout => [.qmx, .fns, .map]
  | .namespaceDelete _ _ => [.stp, .qmx, .fns, .map, .wbf, .par, .key, .norWaits, .pages, .regs]
  | .namespaceAttach _ _ _ => [.qmx, .fns, .norWaits]
  | .namespaceDetach _ _ _ => [.qmx, .fns, .norWaits]
  | .firmwareImageDownload _ _ _ => [.qmx, .fns]
  | .firmwareCommitStore _ _ => [.qmx, .fns, .nor, .evl, .pages, .regs]
  | .firmwareCommitNextReset _ _ => [.qmx, .fns, .nor, .evl, .pages, .regs]
  | .firmwareCommitImmediate _ _ => [.qmx, .fns, .nor, .evl, .pages, .regs]
  | .fwActivationStop => [.qmx, .fns, .evl, .pages, .regs]
  | .fwActivationSwitch => [.qmx, .key, .bot]
  | .fwActivationResume => [.qmx, .fns, .evl, .pages, .regs]
  | .deviceSelfTest _ _ _ => [.draws, .qmx, .fns, .cpx]
  | .keepAlive _ => [.qmx, .fns, .net]
  | .directiveSend _ => [.qmx, .fns]
  | .directiveReceive _ => [.qmx, .fns]
  | .secondaryControllerOnline _ _ => [.qmx, .fns]
  | .secondaryControllerOffline _ _ => [.qmx, .fns]
  | .nvmeMiSend _ _ _ _ _ => [.qmx, .fns, .sbi, .nor, .bot, .regs]
  | .nvmeMiReceive _ _ _ _ => [.ans, .draws, .qmx, .fns]
  | .doorbellBufferConfig _ => [.qmx, .fns]
  | .formatNvm _ _ _ => [.qmx, .fns, .map, .wbf, .par, .regs]
  | .formatNvmCryptoErase _ _ _ =>
    [.draws, .gate, .qmx, .fns, .map, .wbf, .par, .key, .norWaits, .evl, .pages, .regs]
  | .securitySend _ _ _ _ => [.qmx, .fns, .key]
  | .securityReceive _ _ _ _ => [.ans, .draws, .qmx, .fns]
  | .sanitizeBlockErase _ => [.qmx, .fns, .rcl, .nor]
  | .sanitizeComplete => [.rcl, .hld, .nor, .evl, .pages, .regs]
  | .sanitizeCryptoErase _ =>
    [.draws, .gate, .qmx, .fns, .map, .wbf, .par, .rcl, .key, .norWaits, .evl, .pages, .regs]
  | .sanitizeOverwrite _ => [.qmx, .fns]
  | .getLbaStatus _ => [.qmx, .fns]
  | .unusedVendorOpcode _ => [.qmx, .fns]
  | .flush _ _ => [.qmx, .fns]
  | .write _ _ _ _ _ _ _ => [.qmx, .fns]
  | .read _ _ _ _ => [.qmx, .fns]
  | .writeUncorrectable _ _ _ _ => [.qmx, .fns]
  | .compare _ _ _ _ _ => [.qmx, .fns]
  | .writeZeroes _ _ _ _ _ _ => [.qmx, .fns]
  | .datasetManagement _ _ _ _ => [.qmx, .fns]
  | .verify _ _ _ _ => [.qmx, .fns]
  | .reservationRegister _ => [.qmx, .fns]
  | .reservationReport _ => [.qmx, .fns]
  | .reservationAcquire _ => [.qmx, .fns]
  | .reservationRelease _ => [.qmx, .fns]
  | .copy _ => [.qmx, .fns]
  | .ioManagementReceive _ _ _ => [.ans, .qmx, .fns]
  | .ioManagementSend _ _ _ => [.qmx, .fns, .wbf]
  | .zoneManagementReceive _ _ _ _ _ => [.ans, .qmx, .fns]
  | .zoneReset _ _ _ _ => [.qmx, .fns]
  | .zoneFinish _ _ _ _ => [.qmx, .fns]
  | .zoneOpen _ _ _ _ => [.qmx, .fns]
  | .zoneClose _ _ _ _ => [.qmx, .fns]
  | .zoneAppend _ _ _ _ _ _ => [.qmx, .fns]
  | .functionCreate _ _ _ => [.qmx, .fns]
  | .functionDelete _ _ => [.qmx, .fns]
  | .functionBind _ _ _ => [.qmx, .fns]
  | .harnessSet _ _ _ => [.qmx, .fns]
  | .harnessApply _ => [.qmx, .fns, .norWaits]
  | .functionFreeze _ _ => [.qmx, .fns]
  | .freezeDrained _ => [.fns, .norWaits]
  | .tenFreezeLate _ => [.qmx, .fns, .evl, .pages, .regs]
  | .functionSave _ _ => [.gate, .qmx, .fns, .key]
  | .saveApply _ => [.draws, .qmx, .ten, .fns, .norWaits]
  | .functionThaw _ _ => [.qmx, .fns]
  | .functionRestore _ _ _ _ _ _ => [.qmx, .fns, .evl, .pages, .regs]
  | .functionLevelReset _ => [.stp, .qmx, .fns, .map, .wbf, .par, .key, .norWaits, .net, .bot, .pages, .regs]
  | .flrComplete _ => [.qmx, .fns, .key, .norWaits, .net, .pages, .regs]
  | .pcieFlr _ => [.gate, .fns, .hif, .pages, .regs]
  | .ccEnClear _ _ => [.gate, .fns, .hif]
  | .ccEnSet _ _ _ _ _ _ => [.gate, .fns, .hif, .pages, .regs]
  | .sriovNumvfsWrite _ _ => [.gate, .fns, .hif]
  | .poolScaleApply => [.ten, .fns, .evl, .pages, .regs]
  | .tenMigSerialLoRead _ => [.ans, .gate, .paths]
  | .demotion => [.map, .wbf, .par, .regs]
  | .checkpointStart => [.map, .wbf]
  | .ckptNow _ _ => [.gate, .map, .wbf, .paths, .regs]
  | .ckptDone => [.map, .fch, .par, .hld, .pages]
  | .mapCkptNumLoRead _ => [.ans, .gate, .paths]
  | .programUnitAssembly _ => [.qmx, .map, .wbf, .par, .rcl, .pages, .regs]
  | .spanAllocate _ => [.qmx, .wbf, .par, .rcl, .evl, .pages, .regs]
  | .idleClosure _ => [.wbf, .regs]
  | .ceilingChange => [.wbf, .evl, .pages, .regs]
  | .codewordEncode _ _ _ _ => [.qmx, .wbf, .par, .rcl, .staged, .evl, .pages, .regs]
  | .descriptorRead _ _ _ => [.stp, .fns, .fch, .cip, .pages, .regs]
  | .descriptorReadRun _ _ _ => [.stp, .fns, .fch, .cip, .pages, .regs]
  | .descriptorProgram _ _ => [.stp, .fns, .wbf, .fch, .cip, .pages, .regs]
  | .descriptorEraseIntent _ _ => [.stp, .fns, .fch, .cip, .pages, .regs]
  | .descriptorErase _ _ => [.stp, .fns, .fch, .cip, .evl, .pages, .regs]
  | .descriptorStatus _ _ _ => [.stp, .fns, .fch, .cip, .pages, .regs]
  | .descriptorFeature _ _ _ => [.stp, .fns, .fch, .cip, .pages, .regs]
  | .descriptorReset _ _ => [.stp, .fns, .fch, .cip, .pages, .regs]
  | .descriptorRaw _ _ _ _ => [.ans, .stp, .qmx, .fns, .fch, .cip, .pages, .regs]
  | .dieOpPoll _ _ _ => [.stp, .fns, .fch, .cip, .pages, .regs]
  | .dieOpComplete _ _ => [.stp, .fch, .rcl, .cip, .evl, .pages, .regs, .media]
  | .fchDieTimeout _ => [.stp, .fch, .par, .cip, .evl, .pages, .regs]
  | .dieResetTimeout _ => [.stp, .fch, .par, .cip, .evl, .pages, .regs]
  | .reinSuspend _ _ => [.fns, .fch, .pages, .regs]
  | .reinRead _ _ => [.fns, .fch]
  | .reinResume _ => [.fns, .fch]
  | .slotArbitration _ => [.fch, .regs]
  | .codewordTransferEnd _ => [.qmx, .fns, .wbf, .fch, .par, .rcl, .pages, .regs]
  | .fchStallPromote _ _ => [.fch, .regs]
  | .dieRetrain _ _ => [.stp, .fch, .evl, .pages, .regs]
  | .channelRetrainDone _ _ => [.stp, .fch, .par, .cip, .evl, .pages, .regs]
  | .fchPinGo _ _ _ => [.gate, .stp, .fch, .par, .cip, .evl, .pages, .regs]
  | .engStallPromote _ => [.stp, .regs]
  | .decodeDone _ _ _ => [.stp, .qmx, .map, .wbf, .ldc, .par, .cip, .evl, .pages, .regs]
  | .poisonWait => [.map, .wbf, .ldc, .par, .evl, .pages, .regs]
  | .reverseSearch => [.map, .wbf, .ldc, .par, .evl, .pages, .regs]
  | .trackerReview _ _ => [.ldc]
  | .ldcInjArm _ _ => [.gate, .ldc, .paths, .regs]
  | .ldcBitsLoRead _ => [.ans, .gate, .paths]
  | .dieLost => [.stp, .wbf, .par, .nor, .evl, .pages, .regs]
  | .journalFlush _ => [.map, .wbf, .fch, .par, .rcl]
  | .parJrnRehome => [.fch, .par, .rcl, .hld]
  | .journalRehomeDone => [.qmx, .fns, .par, .evl, .pages, .regs]
  | .rebuildRow _ => [.stp, .wbf, .ldc, .par, .evl, .pages, .regs]
  | .parRebuildDone => [.stp, .par, .evl, .pages, .regs]
  | .groomRow _ _ => [.stp, .qmx, .fns, .wbf, .ldc, .par, .evl, .pages, .regs]
  | .rawMediaRead _ _ _ => [.stp, .qmx, .fns, .fch, .regs]
  | .groomSpan _ _ => [.qmx, .fns, .par]
  | .pauseRebuild _ => [.qmx, .fns, .par]
  | .resumeRebuild _ => [.qmx, .fns, .par]
  | .moveJournalMirror _ _ _ => [.qmx, .fns, .fch, .par, .rcl, .hld]
  | .parJseqLoRead _ => [.ans, .gate, .paths]
  | .reclaimVictimPick => [.par, .rcl, .evl, .pages, .regs]
  | .reclaimRowCopy _ _ => [.stp, .wbf, .ldc, .par, .evl, .pages, .regs]
  | .spanEraseStart _ _ => [.stp, .fch, .par, .evl, .pages, .regs]
  | .rclCopyLoRead _ => [.ans, .gate, .paths]
  | .rclHostLoRead _ => [.ans, .gate, .paths]
  | .dramLineCheckFail _ _ _ _ _ _ => [.wbf, .dmc, .pages, .regs]
  | .dmcRecompute _ _ => [.stp, .qmx, .fns, .map, .wbf, .par, .dmc, .evl, .pages, .regs]
  | .dumpGo _ => [.gate, .dmc, .hld]
  | .dramAlert _ _ _ => [.dmc, .pages, .regs]
  | .dramOscRead _ _ _ => [.dmc, .pages]
  | .dramZqCalibration _ _ => [.dmc]
  | .srmWordCheckFail _ _ _ _ _ _ _ => [.stp, .qmx, .fch, .dmc, .cip, .evl, .pages, .regs]
  | .keyExchangeOffer _ _ _ => [.draws, .gate, .qmx, .fns, .key]
  | .exchangeResponse _ => [.ans, .gate, .qmx, .fns]
  | .certificateChain _ _ _ => [.ans, .gate, .qmx, .fns]
  | .keyStatus _ _ => [.ans, .gate, .qmx, .fns]
  | .loadNamespaceKey _ _ _ => [.gate, .qmx, .fns, .map, .key, .norWaits, .nor, .evl, .pages, .regs]
  | .loadMigrationKey _ _ => [.gate, .qmx, .fns, .key, .evl, .pages, .regs]
  | .clearKey _ _ => [.gate, .qmx, .fns, .key]
  | .shadowZeroize _ => [.qmx, .fns, .key]
  | .cipDecryptDone _ _ => [.stp, .qmx, .cip, .evl, .pages, .regs]
  | .tlsRecordReceive _ _ => [.ans, .gate, .fns, .key, .cip, .net, .evl, .pages, .regs]
  | .tlsKeyUpdate _ _ => [.draws, .key, .cip, .regs]
  | .drbgReseed => [.key, .regs]
  | .keyDrbgFail => [.key, .evl, .pages, .regs]
  | .keyKcvLoRead _ => [.ans, .gate, .paths]
  | .getVersion _ => [.ans, .gate, .key, .regs]
  | .getCapabilities _ => [.ans, .gate, .key, .regs]
  | .negotiateAlgorithms _ _ _ _ _ => [.ans, .gate, .key, .regs]
  | .getDigests _ => [.ans, .gate, .regs]
  | .getCertificate _ _ _ _ => [.ans, .gate, .regs]
  | .challenge _ _ _ => [.ans, .gate, .regs]
  | .getMeasurements _ _ _ => [.ans, .gate, .regs]
  | .keyExchange _ => [.ans, .draws, .gate, .key, .regs]
  | .finish _ _ _ => [.ans, .gate, .key, .regs]
  | .heartbeat _ _ => [.ans, .gate, .regs]
  | .keyUpdate _ _ => [.ans, .gate, .key, .regs]
  | .endSession _ _ => [.ans, .gate, .key, .regs]
  | .ideKm _ _ _ => [.ans, .gate, .hif, .regs]
  | .pcieLinkUp _ _ _ _ => [.gate, .hif, .bot, .evl, .pages, .regs]
  | .pcieLinkDown _ => [.fns, .hif, .evl, .pages, .regs]
  | .perstAssert _ => [.fns, .hif, .evl, .pages, .regs]
  | .pcieConfigRequest _ _ _ => [.ans, .gate, .hif]
  | .hifIdeFail _ => [.fns, .hif, .evl, .pages, .regs]
  | .hifWinClose _ => [.gate, .hif]
  | .ethLinkChange _ _ => [.net, .pages, .regs]
  | .tlsHandshake _ _ _ => [.ans, .draws, .gate, .key, .cip, .net, .pages]
  | .connect _ _ _ _ _ _ _ _ _ => [.ans, .draws, .gate, .fns, .net, .evl, .pages, .regs]
  | .commandCapsule _ _ _ _ => [.gate, .net]
  | .keepAliveExpiry _ => [.fns, .net, .evl, .pages, .regs]
  | .adminConnectionClose _ => [.fns, .net, .evl, .pages, .regs]
  | .propertyGet _ _ => [.ans, .gate]
  | .netPfcStorm _ => [.net, .evl, .pages, .regs]
  | .pfcStormEnd _ => [.net]
  | .arpRequest _ _ => [.ans, .gate]
  | .neighborDiscovery _ _ => [.ans, .gate]
  | .icmpEcho _ _ _ _ => [.ans, .gate]
  | .routerAdvertisement _ _ _ => [.gate, .net]
  | .interfaceAddressWrite _ _ _ => [.gate, .fns, .net, .evl, .paths, .pages, .regs]
  | .discoveryLogPage _ => [.ans, .gate, .net]
  | .registerReadMessage _ _ _ _ => [.ans, .gate, .paths, .pages, .regs]
  | .registerWriteMessage _ _ _ _ _ =>
    [.ans, .gate, .tbs, .stp, .qmx, .fns, .map, .wbf, .fch, .ldc, .par, .dmc, .cip, .hif, .net, .hld, .bot,
    .evl, .paths, .pages, .regs]
  | .setEndpointId _ _ => [.gate, .sbi, .pages, .regs]
  | .readNvmeMiDataStructure _ _ _ => [.ans, .draws, .gate, .pages, .regs]
  | .subsystemHealthStatusPoll _ => [.ans, .draws, .gate, .pages, .regs]
  | .controllerHealthStatusPoll _ _ _ => [.ans, .draws, .gate, .pages, .regs]
  | .configurationGet _ _ => [.ans, .draws, .gate, .pages, .regs]
  | .configurationSet _ _ _ => [.ans, .gate, .sbi, .pages, .regs]
  | .vpdRead _ _ _ => [.ans, .draws, .gate, .pages, .regs]
  | .vpdWrite _ _ _ => [.ans, .gate, .nor, .pages, .regs]
  | .nvmeMiReset _ => [.ans, .gate, .bot, .pages, .regs]
  | .tunnelledAdminCommand _ _ _ _ _ _ _ _ => [.ans, .draws, .gate, .pages, .regs]
  | .basicManagementCommand => [.ans, .draws, .gate]
  | .uartConsoleInput _ => [.gate, .sbi]
  | .jtagRegisterAccess _ _ _ _ _ =>
    [.ans, .gate, .tbs, .stp, .qmx, .fns, .map, .wbf, .fch, .ldc, .par, .dmc, .cip, .hif, .net, .hld, .bot,
    .evl, .paths, .pages, .regs]
  | .jtagPinInstructionExit => [.gate, .bot]
  | .housekeepingRound _ _ _ => [.stp, .qmx, .fns, .wbf, .fch, .thm, .hld, .evl, .pages, .regs]
  | .openTest _ => [.thm, .hld, .evl, .pages, .regs]
  | .packageTemperatureRead _ => [.thm]
  | .throttleLevelLower => [.stp, .thm, .evl, .pages, .regs]
  | .snuffPowerOff => [.qmx, .thm, .bot, .pins, .cpx]
  | .relight =>
    [.gate, .tbs, .stp, .qmx, .ten, .fns, .map, .wbf, .fch, .ldc, .par, .rcl, .dmc, .key, .cip, .staged,
    .norWaits, .hif, .net, .sbi, .thm, .hld, .nor, .bot, .pins, .evl, .paths, .pages, .regs, .cpx, .seals]
  | .lowPowerStateEntry => [.net, .thm, .pages]
  | .stringTest _ _ _ _ => [.wbf, .hld, .evl, .pages, .regs]
  | .hldTestNow _ _ => [.hld, .paths, .regs]
  | .pwrFail => [.hld, .bot, .pins]
  | .bankTrip => [.hld]
  | .vddCoreLow => [.hld, .bot]
  | .vddAonLow =>
    [.gate, .tbs, .stp, .qmx, .ten, .fns, .map, .wbf, .fch, .ldc, .par, .rcl, .dmc, .key, .cip, .staged,
    .norWaits, .hif, .net, .sbi, .thm, .hld, .nor, .bot, .pins, .evl, .paths, .pages, .regs, .cpx, .seals]
  | .dumpFreeze => [.stp, .qmx, .fns, .fch, .cip, .hif, .net, .hld, .pins, .pages, .regs, .cpx]
  | .dumpEnd _ _ _ _ =>
    [.gate, .tbs, .stp, .qmx, .ten, .fns, .map, .wbf, .fch, .ldc, .par, .rcl, .dmc, .key, .cip, .staged,
    .norWaits, .hif, .net, .sbi, .thm, .hld, .nor, .bot, .pins, .evl, .paths, .pages, .regs, .cpx, .seals]
  | .powerReturnDuringDump => [.hld]
  | .xtalStop =>
    [.gate, .tbs, .stp, .qmx, .ten, .fns, .map, .wbf, .fch, .ldc, .par, .rcl, .dmc, .key, .cip, .staged,
    .norWaits, .hif, .net, .sbi, .thm, .hld, .nor, .bot, .pins, .evl, .paths, .pages, .regs, .cpx, .seals]
  | .powerOnReset => [.bot, .pins, .evl, .pages, .regs]
  | .configurationImageLoad _ _ => [.hif, .net, .hld, .bot, .pins, .evl, .pages, .regs]
  | .pcieLinkTraining _ => [.hif]
  | .firmwareLoad _ _ _ _ => [.tbs, .qmx, .ten, .fns, .key, .cip, .nor, .bot, .pins, .evl, .pages, .regs, .cpx]
  | .dramPhase _ _ => [.stp, .map, .fch, .par, .dmc, .cip, .bot, .evl, .pages, .regs]
  | .dramFill _ _ => [.dmc, .bot, .evl, .pages, .regs]
  | .flashGroupStart _ _ _ => [.stp, .fch, .par, .cip, .bot, .pins, .evl, .pages, .regs]
  | .rosterCheck => [.stp, .fch, .par, .nor, .bot, .evl, .pages, .regs]
  | .initialisation _ => [.tbs, .fns, .map, .fch, .par, .rcl, .hld, .nor, .bot, .evl, .pages, .regs]
  | .intentScan => [.fch, .rcl, .bot, .evl, .pages, .regs]
  | .journalLoad => [.map, .par, .rcl, .bot, .evl, .pages, .regs]
  | .replay _ => [.stp, .fns, .map, .wbf, .fch, .par, .rcl, .key, .staged, .hld, .nor, .bot, .evl, .pages, .regs]
  | .nvmeReady => [.qmx, .rcl, .hif, .net, .fuses, .nor, .bot, .evl, .pages, .regs]
  | .deviceReset =>
    [.gate, .tbs, .stp, .qmx, .ten, .fns, .map, .wbf, .fch, .ldc, .par, .rcl, .dmc, .key, .cip, .staged,
    .norWaits, .hif, .net, .sbi, .thm, .hld, .nor, .bot, .pins, .evl, .paths, .pages, .regs, .cpx, .seals]
  | .nvmSubsystemReset _ _ => [.bot]
  | .sysRst =>
    [.gate, .tbs, .stp, .qmx, .ten, .fns, .map, .wbf, .fch, .ldc, .par, .rcl, .dmc, .key, .cip, .staged,
    .norWaits, .hif, .net, .sbi, .thm, .hld, .nor, .bot, .pins, .evl, .paths, .pages, .regs, .cpx, .seals]
  | .botSoftReset _ => [.bot]
  | .blockSoftReset _ _ => [.gate, .pages, .regs]
  | .normalShutdown => [.fns, .wbf, .bot, .evl, .pages, .regs]
  | .shutdownProgramsDone => [.fns, .map, .wbf, .nor, .bot, .pages]
  | .abruptShutdown => [.fns, .hld, .bot, .pages]
  | .tenantShutdown _ => [.fns, .wbf]
  | .eventRaise _ _ _ _ _ => [.evl, .pages, .regs]
  | .ledgerRecordProgram => [.evl, .pages, .regs]
  | .ledgerProgramDone _ => [.qmx, .fns, .evl, .pages, .regs]
  | .windowLoad _ => [.evl]
  | .windowNext _ => [.evl]
  | .windowResult _ => [.evl]
  | .watermarkWrite _ _ => [.qmx, .fns, .evl, .pages]
  | .evlWmark => [.evl, .pages, .regs]
  | .evlNewestLoRead _ => [.ans, .gate, .paths]
  | .evlOldestLoRead _ => [.ans, .gate, .paths]
  | .botSerial0Read _ => [.ans, .gate, .paths]
  | .thmSenseBadLoRead _ => [.ans, .gate, .paths]
  | .evtRawClear _ _ _ => [.gate, .pages]
  | .evtForce _ _ => [.gate, .pages]
  | .errAck _ => [.gate, .pages]
  | .sealBlock _ => [.gate, .pages]
  | .registerWrite _ _ _ _ _ _ _ =>
    [.gate, .tbs, .stp, .qmx, .fns, .map, .wbf, .fch, .ldc, .par, .dmc, .cip, .hif, .net, .hld, .bot, .evl,
    .paths, .pages, .regs]
  | .domainWake _ => [.gate]
  | .domainGate _ => [.gate]
  | .cpxFwStopped => [.evl, .pages, .regs, .cpx]
  | .pwrFailNHigh =>
    [.gate, .tbs, .stp, .qmx, .ten, .fns, .map, .wbf, .fch, .ldc, .par, .rcl, .dmc, .key, .cip, .staged,
    .norWaits, .hif, .net, .sbi, .thm, .hld, .nor, .bot, .pins, .evl, .paths, .pages, .regs, .cpx, .seals]
  | .ledgerSectorEraseDone => [.evl]
  | .norRecordWriteDone => [.qmx, .fns, .norWaits, .nor, .evl, .pages, .regs]

/-- The commands at which a device reset or a power-on can begin. -/
def Instr.startsReset : Instr → Bool
  | .strideTick _ => false
  | .secondBoundary => false
  | .minuteBoundary => false
  | .tbsHour => false
  | .planCommit _ _ => false
  | .turnBoundary => false
  | .ppsEdge _ _ _ => false
  | .ppsStep _ => false
  | .ppsHoldover => false
  | .setFeaturesTimestamp _ _ _ => false
  | .getFeaturesTimestamp _ => false
  | .tbsSetGo _ _ => false
  | .secondsSetApply => false
  | .tbsSecLoRead _ _ => false
  | .lanternTablePublish => false
  | .lanternDatagram => false
  | .getLogPageLantern _ _ _ => false
  | .sqTailDoorbell _ _ _ => false
  | .cqHeadDoorbell _ _ _ => false
  | .commandFetch _ _ _ _ _ => false
  | .completionPoint _ _ => false
  | .cqStall _ _ => false
  | .writeThroughEnter => false
  | .writeThroughExit => false
  | .createIoSq _ _ _ _ _ _ => false
  | .createIoCq _ _ _ _ _ _ _ => false
  | .deleteIoSq _ _ => false
  | .sqDeletionApply => false
  | .deleteIoCq _ _ => false
  | .getLogPage _ _ _ _ => false
  | .getLogPageMeters _ _ _ _ => false
  | .getLogPageHarnessStatus _ _ _ _ => false
  | .getLogPageRedundancy _ _ _ => false
  | .getLogPageThermal _ _ _ => false
  | .getLogPageLedger _ _ _ => false
  | .getLogPageLedgerSummary _ _ => false
  | .getLogPageMigrationRecord _ _ _ _ => false
  | .getLogPageDieRoster _ _ _ => false
  | .identify _ _ _ _ _ => false
  | .abort _ => false
  | .setFeatures _ _ _ => false
  | .setFeaturesArbitration _ _ => false
  | .setFeaturesPowerManagement _ _ => false
  | .setFeaturesVolatileWriteCache _ _ => false
  | .setFeaturesNumberOfQueues _ _ _ => false
  | .setFeaturesTemperatureThreshold _ _ => false
  | .setFeaturesKeepAliveTimer _ _ => false
  | .setFeaturesFdp _ _ => false
  | .getFeatures _ _ _ => false
  | .asynchronousEventRequest _ => false
  | .namespaceCreate _ _ _ _ _ _ _ _ _ => false
  | .namespaceCreateFineFit => false
  | .namespaceCreateFineTimeout => false
  | .namespaceDelete _ _ => false
  | .namespaceAttach _ _ _ => false
  | .namespaceDetach _ _ _ => false
  | .firmwareImageDownload _ _ _ => false
  | .firmwareCommitStore _ _ => false
  | .firmwareCommitNextReset _ _ => false
  | .firmwareCommitImmediate _ _ => false
  | .fwActivationStop => false
  | .fwActivationSwitch => false
  | .fwActivationResume => false
  | .deviceSelfTest _ _ _ => false
  | .keepAlive _ => false
  | .directiveSend _ => false
  | .directiveReceive _ => false
  | .secondaryControllerOnline _ _ => false
  | .secondaryControllerOffline _ _ => false
  | .nvmeMiSend _ _ _ _ _ => false
  | .nvmeMiReceive _ _ _ _ => false
  | .doorbellBufferConfig _ => false
  | .formatNvm _ _ _ => false
  | .formatNvmCryptoErase _ _ _ => false
  | .securitySend _ _ _ _ => false
  | .securityReceive _ _ _ _ => false
  | .sanitizeBlockErase _ => false
  | .sanitizeComplete => false
  | .sanitizeCryptoErase _ => false
  | .sanitizeOverwrite _ => false
  | .getLbaStatus _ => false
  | .unusedVendorOpcode _ => false
  | .flush _ _ => false
  | .write _ _ _ _ _ _ _ => false
  | .read _ _ _ _ => false
  | .writeUncorrectable _ _ _ _ => false
  | .compare _ _ _ _ _ => false
  | .writeZeroes _ _ _ _ _ _ => false
  | .datasetManagement _ _ _ _ => false
  | .verify _ _ _ _ => false
  | .reservationRegister _ => false
  | .reservationReport _ => false
  | .reservationAcquire _ => false
  | .reservationRelease _ => false
  | .copy _ => false
  | .ioManagementReceive _ _ _ => false
  | .ioManagementSend _ _ _ => false
  | .zoneManagementReceive _ _ _ _ _ => false
  | .zoneReset _ _ _ _ => false
  | .zoneFinish _ _ _ _ => false
  | .zoneOpen _ _ _ _ => false
  | .zoneClose _ _ _ _ => false
  | .zoneAppend _ _ _ _ _ _ => false
  | .functionCreate _ _ _ => false
  | .functionDelete _ _ => false
  | .functionBind _ _ _ => false
  | .harnessSet _ _ _ => false
  | .harnessApply _ => false
  | .functionFreeze _ _ => false
  | .freezeDrained _ => false
  | .tenFreezeLate _ => false
  | .functionSave _ _ => false
  | .saveApply _ => false
  | .functionThaw _ _ => false
  | .functionRestore _ _ _ _ _ _ => false
  | .functionLevelReset _ => false
  | .flrComplete _ => false
  | .pcieFlr _ => false
  | .ccEnClear _ _ => false
  | .ccEnSet _ _ _ _ _ _ => false
  | .sriovNumvfsWrite _ _ => false
  | .poolScaleApply => false
  | .tenMigSerialLoRead _ => false
  | .demotion => false
  | .checkpointStart => false
  | .ckptNow _ _ => false
  | .ckptDone => false
  | .mapCkptNumLoRead _ => false
  | .programUnitAssembly _ => false
  | .spanAllocate _ => false
  | .idleClosure _ => false
  | .ceilingChange => false
  | .codewordEncode _ _ _ _ => false
  | .descriptorRead _ _ _ => false
  | .descriptorReadRun _ _ _ => false
  | .descriptorProgram _ _ => false
  | .descriptorEraseIntent _ _ => false
  | .descriptorErase _ _ => false
  | .descriptorStatus _ _ _ => false
  | .descriptorFeature _ _ _ => false
  | .descriptorReset _ _ => false
  | .descriptorRaw _ _ _ _ => false
  | .dieOpPoll _ _ _ => false
  | .dieOpComplete _ _ => false
  | .fchDieTimeout _ => false
  | .dieResetTimeout _ => false
  | .reinSuspend _ _ => false
  | .reinRead _ _ => false
  | .reinResume _ => false
  | .slotArbitration _ => false
  | .codewordTransferEnd _ => false
  | .fchStallPromote _ _ => false
  | .dieRetrain _ _ => false
  | .channelRetrainDone _ _ => false
  | .fchPinGo _ _ _ => false
  | .engStallPromote _ => false
  | .decodeDone _ _ _ => false
  | .poisonWait => false
  | .reverseSearch => false
  | .trackerReview _ _ => false
  | .ldcInjArm _ _ => false
  | .ldcBitsLoRead _ => false
  | .dieLost => false
  | .journalFlush _ => false
  | .parJrnRehome => false
  | .journalRehomeDone => false
  | .rebuildRow _ => false
  | .parRebuildDone => false
  | .groomRow _ _ => false
  | .rawMediaRead _ _ _ => false
  | .groomSpan _ _ => false
  | .pauseRebuild _ => false
  | .resumeRebuild _ => false
  | .moveJournalMirror _ _ _ => false
  | .parJseqLoRead _ => false
  | .reclaimVictimPick => false
  | .reclaimRowCopy _ _ => false
  | .spanEraseStart _ _ => false
  | .rclCopyLoRead _ => false
  | .rclHostLoRead _ => false
  | .dramLineCheckFail _ _ _ _ _ _ => false
  | .dmcRecompute _ _ => false
  | .dumpGo _ => false
  | .dramAlert _ _ _ => false
  | .dramOscRead _ _ _ => false
  | .dramZqCalibration _ _ => false
  | .srmWordCheckFail _ _ _ _ _ _ _ => false
  | .keyExchangeOffer _ _ _ => false
  | .exchangeResponse _ => false
  | .certificateChain _ _ _ => false
  | .keyStatus _ _ => false
  | .loadNamespaceKey _ _ _ => false
  | .loadMigrationKey _ _ => false
  | .clearKey _ _ => false
  | .shadowZeroize _ => false
  | .cipDecryptDone _ _ => false
  | .tlsRecordReceive _ _ => false
  | .tlsKeyUpdate _ _ => false
  | .drbgReseed => false
  | .keyDrbgFail => false
  | .keyKcvLoRead _ => false
  | .getVersion _ => false
  | .getCapabilities _ => false
  | .negotiateAlgorithms _ _ _ _ _ => false
  | .getDigests _ => false
  | .getCertificate _ _ _ _ => false
  | .challenge _ _ _ => false
  | .getMeasurements _ _ _ => false
  | .keyExchange _ => false
  | .finish _ _ _ => false
  | .heartbeat _ _ => false
  | .keyUpdate _ _ => false
  | .endSession _ _ => false
  | .ideKm _ _ _ => false
  | .pcieLinkUp _ _ _ _ => false
  | .pcieLinkDown _ => false
  | .perstAssert _ => false
  | .pcieConfigRequest _ _ _ => false
  | .hifIdeFail _ => false
  | .hifWinClose _ => false
  | .ethLinkChange _ _ => false
  | .tlsHandshake _ _ _ => false
  | .connect _ _ _ _ _ _ _ _ _ => false
  | .commandCapsule _ _ _ _ => false
  | .keepAliveExpiry _ => false
  | .adminConnectionClose _ => false
  | .propertyGet _ _ => false
  | .netPfcStorm _ => false
  | .pfcStormEnd _ => false
  | .arpRequest _ _ => false
  | .neighborDiscovery _ _ => false
  | .icmpEcho _ _ _ _ => false
  | .routerAdvertisement _ _ _ => false
  | .interfaceAddressWrite _ _ _ => false
  | .discoveryLogPage _ => false
  | .registerReadMessage _ _ _ _ => false
  | .registerWriteMessage _ _ _ _ _ => false
  | .setEndpointId _ _ => false
  | .readNvmeMiDataStructure _ _ _ => false
  | .subsystemHealthStatusPoll _ => false
  | .controllerHealthStatusPoll _ _ _ => false
  | .configurationGet _ _ => false
  | .configurationSet _ _ _ => false
  | .vpdRead _ _ _ => false
  | .vpdWrite _ _ _ => false
  | .nvmeMiReset _ => false
  | .tunnelledAdminCommand _ _ _ _ _ _ _ _ => false
  | .basicManagementCommand => false
  | .uartConsoleInput _ => false
  | .jtagRegisterAccess _ _ _ _ _ => false
  | .jtagPinInstructionExit => false
  | .housekeepingRound _ _ _ => false
  | .openTest _ => false
  | .packageTemperatureRead _ => false
  | .throttleLevelLower => false
  | .snuffPowerOff => false
  | .relight => true
  | .lowPowerStateEntry => false
  | .stringTest _ _ _ _ => false
  | .hldTestNow _ _ => false
  | .pwrFail => false
  | .bankTrip => false
  | .vddCoreLow => false
  | .vddAonLow => true
  | .dumpFreeze => false
  | .dumpEnd _ _ _ _ => true
  | .powerReturnDuringDump => false
  | .xtalStop => true
  | .powerOnReset => false
  | .configurationImageLoad _ _ => false
  | .pcieLinkTraining _ => false
  | .firmwareLoad _ _ _ _ => false
  | .dramPhase _ _ => false
  | .dramFill _ _ => false
  | .flashGroupStart _ _ _ => false
  | .rosterCheck => false
  | .initialisation _ => false
  | .intentScan => false
  | .journalLoad => false
  | .replay _ => false
  | .nvmeReady => false
  | .deviceReset => true
  | .nvmSubsystemReset _ _ => false
  | .sysRst => true
  | .botSoftReset _ => false
  | .blockSoftReset _ _ => false
  | .normalShutdown => false
  | .shutdownProgramsDone => false
  | .abruptShutdown => false
  | .tenantShutdown _ => false
  | .eventRaise _ _ _ _ _ => false
  | .ledgerRecordProgram => false
  | .ledgerProgramDone _ => false
  | .windowLoad _ => false
  | .windowNext _ => false
  | .windowResult _ => false
  | .watermarkWrite _ _ => false
  | .evlWmark => false
  | .evlNewestLoRead _ => false
  | .evlOldestLoRead _ => false
  | .botSerial0Read _ => false
  | .thmSenseBadLoRead _ => false
  | .evtRawClear _ _ _ => false
  | .evtForce _ _ => false
  | .errAck _ => false
  | .sealBlock _ => false
  | .registerWrite _ _ _ _ _ _ _ => false
  | .domainWake _ => false
  | .domainGate _ => false
  | .cpxFwStopped => false
  | .pwrFailNHigh => true
  | .ledgerSectorEraseDone => false
  | .norRecordWriteDone => false

end Sys2Proof
end

