-- ==== Sys2Proof/Certificates/Slice0/Obligations.lean ====
section
/-! DEFINITION. The statements: what the commands of each family do, what every step keeps, and what reset leaves. Each
docstring says what a statement says; OBLIGATIONS.json names the rules. -/

open Sys2Proof Sys2Proof.Machine

/-- O1. A step runs the command at the front of the queue. For every command c, queue rest q and state s: step of s with c
at the front of its queue is exec of c on s with the queue's rest. -/
def Obligations.StepRunsFrontCommand : Prop :=
  ∀ (c : Instr) (q : List Instr) (s : State),
    step { s with pending := c :: q } = exec c { s with pending := q }

/-- O2. Every step answers a next state and the queue is first in, first out. From every state a step answers a next
state, never a fault or a refusal; its queue is the queue before without the command at the front (an empty queue
stays empty, the model's own choice, log entry 2). -/
def Obligations.EveryStepAnswersNext : Prop :=
  ∀ s : State, ∃ t, step s = .next t ∧ t.pending = s.pending.tail ∧ (s.pending = [] → t = s)

/-- O3. Every step keeps the bounds of the time base. If STRIDE_IN_SEC is below 125,000, the stride in progress is 4,000
to 11,999 ns long, the operating second holds less than 10^9 ns and the power-cycle count fits 24 bits, then the same
holds after every step. -/
def Obligations.TimeBaseBoundsKept : Prop :=
  ∀ s t : State, s.tbs.ok → step s = .next t → t.tbs.ok

/-- O4. Every step keeps the table of programmed codewords in its canonical form. If the table that says which codeword
each programmed MGA holds lists its addresses strictly rising, then it does after every step, so that two media with
the same contents are the same data. -/
def Obligations.CodewordTableStaysCanonical : Prop :=
  ∀ s t : State, Tbl.wf s.fch.media = true → step s = .next t → Tbl.wf t.fch.media = true

/-- O5. A sealed page stays sealed through every command that is no reset. A page whose SEAL is set is still sealed after
any command except the seven at which a device reset or a power-on can begin: DEVICE_RESET, DUMP_END, SYS_RST,
XTAL_STOP, VDD_AON_LOW, RELIGHT and PWR_FAIL_N_HIGH. No access of any control-plane path clears it. -/
def Obligations.SealHoldsUntilReset : Prop :=
  ∀ (c : Instr) (s t : State) (p : Nat), Instr.startsReset c = false → exec c s = .next t →
    (s.page p).sealBit = true → (t.page p).sealBit = true

/-- O6. The fused SVN count never falls and a revocation fuse stays blown. Over every step, from every state: the fused
security version does not fall, and every revocation fuse that is blown stays blown. -/
def Obligations.FusesNeverComeBack : Prop :=
  ∀ s t : State, step s = .next t →
    s.fuses.svn ≤ t.fuses.svn ∧ ∀ i, s.fuses.revoked.getLsbD i = true → t.fuses.revoked.getLsbD i = true

/-- O7. Every command changes only the parts of the block that it acts on. For every command c: where exec answers a next
state, every part of the block outside Instr.parts c (registers and page headers, functions and their queues, map,
write buffer, media, keys, links, power, ledger, pins, fuses, windows of the paths) is as before. Instr.parts lists
the parts command by command. -/
def Obligations.EveryCommandKeepsOtherParts : Prop :=
  ∀ (c : Instr) (s t : State), exec c s = .next t → Frame c.parts s t

/-- O8. State.reset holds the values that the spec states. After power-on: SECONDS is 0 with timestamp origin 000b and the
PPS machine is FREE; no function but 0 exists; no ledger record is queued or in the ring; no page is sealed; the
device is not ready. State.reset meets the bounds of the time base and the canonical form of the codeword table, no
page is sealed, and its queue of commands is empty. -/
def Obligations.ResetLeavesStatedValues : Prop :=
  (State.reset.tbs.seconds = 0 ∧ State.reset.tbs.origin = 0 ∧ State.reset.tbs.pps = .free ∧
    (∀ f, f ≠ 0 → (State.reset.fn f).state = .free) ∧ State.reset.evl.queue = [] ∧ State.reset.evl.ring = [] ∧
    State.reset.bot.ready = false) ∧
  (State.reset.tbs.ok ∧ Tbl.wf State.reset.fch.media = true ∧
    (∀ p, (State.reset.page p).sealBit = false) ∧ State.reset.pending = [])

/-- O9. A command that ends leaves QMX and posts one entry. When a fetched command ends with a status and Dword 0: QMX no
longer holds it and holds every other command as before, and its entry (identifier, submission queue, head, status,
Dword 0) goes to the completion queue that its submission queue is bound to, or to the held completions behind it when
that queue is full. A number that names no fetched command changes nothing. -/
def Obligations.EndedCommandPostsItsEntry : Prop :=
  (∀ (s : State) (seq : Nat) (c : Cmd) (x : Status) (dw0 : Dword), s.cmd? seq = some c →
    s.ends (s.complete seq x dw0) seq x dw0 ∧
      (∀ f, f ≠ c.fn → (s.complete seq x dw0).fn f = s.fn f)) ∧
  (∀ (s : State) (seq : Nat) (x : Status) (dw0 : Dword), s.cmd? seq = none → s.complete seq x dw0 = s) ∧
  (∀ (k : Cq) (e : Cqe), k.full = true → (k.push e).held = k.held ++ [e] ∧ (k.push e).posted = k.posted) ∧
  (∀ (k : Cq) (e : Cqe), k.full = false → k.held = [] →
    (k.push e).posted = k.posted ++ [e] ∧ (k.push e).tail = (k.tail + 1) % k.size ∧ (k.push e).held = [])

/-- O10. A raised event is queued, held, kept in the mirror or counted in its bucket. EVENT_RAISE of a code of the ledger
answers a next state in which the event's record, with the hours, seconds-in-hour and power-cycle count of this
instant, is queued, held until the counts are restored, in the mirror, or the last record refused by its bucket. A
direct event or one of severity 5 is never refused by the rate limit. It changes no register page but the counters and
event bits of its own and the EVL page. -/
def Obligations.RaisedEventIsRecordedOrCounted : Prop :=
  (∀ (s : State) (p code : Nat) (func : Option Nat) (payload : List (Nat × Nat)) (addr : Option Nat),
    ledgerCodes.contains code = true →
    ∃ t, exec (.eventRaise p code func payload addr) s = .next t ∧ s.tells t code func payload ∧
      Frame [.evl, .pages, .regs] s t) ∧
  (∀ (s : State) (p code : Nat) (func : Option Nat) (payload : List (Nat × Nat)) (addr : Option Nat),
    ledgerCodes.contains code = true → isDirect code = true → s.evl.restored = true → s.evl.norStopped = false →
    ∃ t r, exec (.eventRaise p code func payload addr) s = .next t ∧ r ∈ t.evl.queue ∧
      r.of s code func payload)

/-- O11. STRIDE_TICK, SECOND_BOUNDARY and PPS_STEP move the counters; the operating hours saturate. STRIDE_TICK (no step
stride in progress) answers a next state with the elapsed time advanced by the stride's length, STRIDE_IN_SEC advanced
modulo 125,000, the second due exactly when it wraps, SECONDS unchanged, and an 8,000 ns stride when no step or slew
is due. SECOND_BOUNDARY, when due, adds one to SECONDS, and a minute is due exactly when the new value is a multiple
of 60. PPS_STEP at the end of a step stride starts stride 0 of a new second and ends the pending step. In snuff
SECOND_BOUNDARY changes nothing but the time base and its registers. At a stride tick the elapsed nanoseconds of the
operating hour grow by the stride's length, whatever SECONDS holds and in snuff too; every 3,600 s the hours advance
by one and saturate at FF_FFFFh. -/
def Obligations.TimeBaseCounts : Prop :=
  (∀ (s : State) (fw : Bool), stepStride s.tbs = false → s.tbs.strideInSec < 125000 →
    ∃ t, exec (.strideTick fw) s = .next t ∧ t.tbs.clk = s.tbs.clk + s.tbs.strideLen ∧
      t.tbs.strideInSec = (s.tbs.strideInSec + 1) % 125000 ∧ t.tbs.nsInStride = 0 ∧
      t.tbs.secondDue = (s.tbs.secondDue || decide (s.tbs.strideInSec = 124999)) ∧ t.tbs.seconds = s.tbs.seconds ∧
      (s.tbs.stepDue = none → s.tbs.slewLeft = 0 → s.tbs.slewNext = 0 → t.tbs.strideLen = 8000)) ∧
  (∀ s : State, s.tbs.secondDue = true →
    ∃ t, exec .secondBoundary s = .next t ∧ t.tbs.seconds = s.tbs.seconds + 1 ∧ t.tbs.prevSeconds = s.tbs.seconds ∧
      t.tbs.secondDue = false ∧ t.tbs.minuteDue = decide ((s.tbs.seconds + 1).toNat % 60 = 0) ∧
      t.tbs.strideInSec = s.tbs.strideInSec ∧ t.tbs.clk = s.tbs.clk ∧
      (s.thm.snuff = .off → Frame [.tbs, .regs] s t)) ∧
  (∀ (s : State) (fw : Bool) (b : Nat) (e : Int), stepStride s.tbs = true → s.tbs.stepDue = some (b, e) →
    ∃ t, exec (.ppsStep fw) s = .next t ∧ t.tbs.strideInSec = 0 ∧ t.tbs.clk = b ∧ t.tbs.secondDue = true ∧
      t.tbs.stepDue = none ∧ t.tbs.aligned = true ∧ t.tbs.seconds = s.tbs.seconds) ∧
  (∀ (s : State) (fw : Bool), stepStride s.tbs = false → s.tbs.hourNs < 1000000000 → s.tbs.hourSec < 3600 →
    s.tbs.hours ≤ 0xFFFFFF → s.tbs.strideLen < 12000 →
    ∃ t, exec (.strideTick fw) s = .next t ∧ t.tbs.hourNs < 1000000000 ∧ t.tbs.hourSec < 3600 ∧
      t.tbs.hours ≤ 0xFFFFFF ∧
      (1000000000 * t.tbs.hourSec + t.tbs.hourNs) % 3600000000000 =
        (1000000000 * s.tbs.hourSec + s.tbs.hourNs + s.tbs.strideLen) % 3600000000000 ∧
      t.tbs.hours = (if 1000000000 * s.tbs.hourSec + s.tbs.hourNs + s.tbs.strideLen < 3600000000000 then s.tbs.hours
        else min (s.tbs.hours + 1) 0xFFFFFF))

/-- O12. PPS_EDGE and PPS_HOLDOVER complete with the effects of a valid edge, a glitch and a loss. With the PPS input
enabled and the active edge forced rising: an edge whose pulse is shorter than 100 ns is a glitch, it sets event
GLITCH and leaves the PPS state and the last valid edge alone; a rising edge of a good pulse within 200,000 ns of one
second after the previous valid edge, and in LOCKED within 200,000 ns of the predicted edge, becomes the last valid
edge. PPS_HOLDOVER, three seconds after the last valid edge in LOCKED, enters HOLDOVER, sets HOLD_S to 0 and records
TBS_PPS_LOST. -/
def Obligations.PpsEdgesAndHoldover : Prop :=
  (∀ (s : State) (ns width : Nat), s.rd rTBS_EN = 1 → s.rd rTBS_POL = 1 → ns < s.tbs.strideLen → width < 100 →
    ∃ t, exec (.ppsEdge true ns width) s = .next t ∧ t.shows eTBS_GLITCH ∧ t.tbs.pps = s.tbs.pps ∧
      t.tbs.lastEdge = s.tbs.lastEdge ∧ t.tbs.clk = s.tbs.clk) ∧
  (∀ (s : State) (ns width a : Nat), s.rd rTBS_EN = 1 → s.rd rTBS_POL = 1 → ns < s.tbs.strideLen → 100 ≤ width →
    width ≤ 400000000 → s.tbs.lastEdge = some a → a + 1000000000 ≤ s.tbs.clk + ns + 200000 →
    s.tbs.clk + ns ≤ a + 1000000000 + 200000 →
    (s.tbs.pps = .locked → s.tbs.predEdge ≤ s.tbs.clk + ns + 200000 ∧ s.tbs.clk + ns ≤ s.tbs.predEdge + 200000) →
    ∃ t, exec (.ppsEdge true ns width) s = .next t ∧ t.tbs.lastEdge = some (s.tbs.clk + ns) ∧
      t.tbs.clk = s.tbs.clk ∧ t.tbs.seconds = s.tbs.seconds ∧ t.net.datagramDue = true) ∧
  (∀ (s : State) (a : Nat), s.tbs.pps = .locked → s.tbs.lastEdge = some a → a + 3000000000 ≤ s.tbs.clk →
    ∃ t, exec .ppsHoldover s = .next t ∧ t.tbs.pps = .holdover ∧ t.rd rTBS_HOLD_S = 0 ∧ t.shows eTBS_PPS_LOST ∧
      s.tells t lTBS_PPS_LOST none [] ∧ t.tbs.clk = s.tbs.clk)

/-- O13. SECONDS is set through Set Features Timestamp and TBS_SET, and applies at a second boundary. A Set Features
Timestamp of function 0 completes and waits as the Timestamp set; a tenant's ends with Feature Not Changeable and
changes no set. Get Features Timestamp returns SECONDS x 1,000 + STRIDE_IN_SEC / 125, Synch 0 and the origin. TBS_SET
with GO arms SET_HI:SET_LO as the register set. SECONDS_SET_APPLY gives SECONDS the value of the set received last and
origin 001b, and leaves STRIDE_IN_SEC alone. A register set names its value modulo 2^48; a Timestamp of T ms received
D ns before the boundary names (T ms + D) rounded to the nearest second, halves up. -/
def Obligations.SettingSeconds : Prop :=
  (∀ (s : State) (seq ns ms : Nat) (c : Cmd), s.adminCmd seq = some c → c.fn = 0 →
    ∃ t, exec (.setFeaturesTimestamp seq ns ms) s = .next t ∧ s.ends t seq stOk 0 ∧
      t.tbs.sets = (s.tbs.sets.filter fun q => q.viaReg) ++ [⟨false, ms, s.tbs.clk + ns⟩] ∧
      t.tbs.seconds = s.tbs.seconds) ∧
  (∀ (s : State) (seq ns ms : Nat) (c : Cmd), s.adminCmd seq = some c → c.fn ≠ 0 →
    ∃ t, exec (.setFeaturesTimestamp seq ns ms) s = .next t ∧ s.ends t seq stNotChangeable 0 ∧ t.tbs = s.tbs) ∧
  (∀ (s : State) (seq : Nat) (c : Cmd), s.adminCmd seq = some c →
    ∃ t, exec (.getFeaturesTimestamp seq) s = .next t ∧ s.ends t seq stOk 0 ∧
      t.ans = .bytes (leBytes 6 (s.tbs.seconds.toNat * 1000 + s.tbs.strideInSec / 125) ++
        [BitVec.ofNat 8 (2 * s.tbs.origin.toNat), 0])) ∧
  (∀ (s : State) (p : Path) (w : Dword), w.getLsbD 31 = true →
    ∃ t, exec (.tbsSetGo p w) s = .next t ∧
      t.tbs.sets = (s.tbs.sets.filter fun q => !q.viaReg) ++
        [⟨true, w.toNat % 65536 * 2 ^ 32 + s.rd rTBS_SET_LO, s.tbs.clk⟩] ∧
      t.tbs.seconds = s.tbs.seconds ∧ ∀ p', p' ≠ p → t.path p' = s.path p') ∧
  (∀ (s : State) (l : List PendSet) (p : PendSet), s.tbs.atSecond = true → s.tbs.sets = l ++ [p] →
    ∃ t, exec .secondsSetApply s = .next t ∧ t.tbs.seconds = BitVec.ofNat 48 (setValue p s.tbs.clk) ∧
      t.tbs.origin = 1 ∧ t.tbs.sets = [] ∧ t.tbs.strideInSec = s.tbs.strideInSec ∧ t.shows eTBS_SEC_SET) ∧
  (∀ (v r b : Nat), v < 2 ^ 48 → setValue ⟨true, v, r⟩ b = v) ∧
  (∀ (ms d r : Nat), ms < 2 ^ 48 → d ≤ 1000000000 →
    setValue ⟨false, ms, r⟩ (r + d) = (2 * (ms * 1000000 + d) + 1000000000) / 2000000000)

/-- O14. MINUTE_BOUNDARY, TBS_HOUR and CPX_FW_STOPPED complete with their effects. MINUTE_BOUNDARY, when due, latches the
current-minute record of every existing function as the newest of its ring, clears the due bit and sets event MINUTE.
TBS_HOUR writes its ledger event once for each operating-hour boundary. CPX_FW_STOPPED, when the heartbeat has not
advanced for 125 strides, stops and is recorded. -/
def Obligations.MinuteHourAndFirmwareEvents : Prop :=
  (∀ s : State, s.tbs.minuteDue = true →
    ∃ t, exec .minuteBoundary s = .next t ∧ t.tbs.minuteDue = false ∧ t.shows eTBS_MINUTE ∧
      (∀ f x, Tbl.get s.fns f = some x → x.state ≠ .free ∨ f = 0 →
        (t.fn f).ring = (closeMeter x (if s.tbs.minutePartial then 1 else 0) :: x.ring).take 120 ∧
        (t.fn f).state = x.state ∧ (t.fn f).sqs = x.sqs ∧ (t.fn f).cqs = x.cqs)) ∧
  (∀ s : State, s.tbs.hourDue = true →
    ∃ t, exec .tbsHour s = .next t ∧ t.tbs.hourDue = false ∧ s.tells t lTBS_HOUR none [] ∧
      t.tbs.hours = s.tbs.hours) ∧
  (∀ s : State, s.cpx.stopped = false → 125 ≤ s.cpx.still →
    ∃ t, exec .cpxFwStopped s = .next t ∧ t.cpx.stopped = true ∧ t.shows eCPX_FW_STOPPED ∧
      s.tells t lCPX_FW_STOPPED none [])

/-- O15. Plans, turns and the lantern table act as stated. A plan complete by 7,200 ns is committed and sets the overrun
run to 0; one not complete by then makes the next stride a hold plan and is an overrun: the overrun run advances,
saturating at 255, and the third in a row is recorded; with the firmware stopped, or in a step stride, the next stride
is a hold plan too, but no overrun. TURN_BOUNDARY opens the next class when the turn's strides have passed and no
unreadable window of the class goes on; it stretches the turn by one stride while one does. LANTERN_TABLE_PUBLISH
makes the fixed table of the next second readable. GET_LOG_PAGE_LANTERN returns the bytes of the readable table from
the offset, for any function. LANTERN_DATAGRAM, when enabled and due, sends one UDP datagram on the interface, VLAN,
ports and destination of STP_LANT_CFG, STP_LANT_UDP and STP_LANT_IPk from that interface's own address: the header,
the serial number and the 160 bytes of the table; it counts it and is not due again. -/
def Obligations.PlansTurnsAndLanternTable : Prop :=
  (∀ (s : State) (ns : Nat), s.stp.committed = false → s.cpx.stopped = false → ns ≤ 7200 →
    ∃ t, exec (.planCommit true ns) s = .next t ∧ t.stp.committed = true ∧ t.stp.holdNext = false ∧
      t.stp.planReady = true ∧ t.rd rSTP_OVR_RUN = 0 ∧ Frame [.stp, .regs] s t) ∧
  (∀ (s : State) (ok : Bool) (ns : Nat), s.stp.committed = false → s.cpx.stopped = false → s.stp.stepHold = false →
    ok = false ∨ 7200 < ns →
    ∃ t, exec (.planCommit ok ns) s = .next t ∧ t.stp.committed = true ∧ t.stp.holdNext = true ∧
      t.rd rSTP_OVR_RUN = min (s.rd rSTP_OVR_RUN + 1) 255 ∧
      (s.rd rSTP_OVR_RUN = 2 → t.shows eSTP_OVERRUN_RUN ∧ s.tells t lSTP_OVERRUN_RUN none []) ∧
      Frame [.stp, .evl, .pages, .regs] s t) ∧
  (∀ (s : State) (ok : Bool) (ns : Nat), s.stp.committed = false →
    s.cpx.stopped = true ∨ (s.stp.stepHold = true ∧ (ok = false ∨ 7200 < ns)) →
    ∃ t, exec (.planCommit ok ns) s = .next t ∧ t.stp.committed = true ∧ t.stp.holdNext = true ∧ Frame [.stp] s t) ∧
  (∀ s : State, s.stp.turnLen ≤ s.stp.turnPos → classes s ≠ 0 → tickDiff s s.stp.windowEnd ≤ 0 →
    ∃ t, exec .turnBoundary s = .next t ∧ t.stp.openClass = (s.stp.openClass + 1) % classes s ∧ t.stp.turnPos = 0 ∧
      t.stp.turnLen = s.rd rSTP_TURN_STRIDES ∧ t.regs = s.regs) ∧
  (∀ s : State, s.stp.turnPos = s.stp.turnLen → classes s ≠ 0 → 0 < tickDiff s s.stp.windowEnd →
    ∃ t, exec .turnBoundary s = .next t ∧ t.stp.openClass = s.stp.openClass ∧
      t.stp.turnLen = s.stp.turnLen + 1 ∧ t.shows eSTP_STRETCH) ∧
  (∀ (s : State) (l : Lantern), s.stp.lanternNext = some l →
    ∃ t, exec .lanternTablePublish s = .next t ∧ lanternNow t = l ∧ Frame [.stp] s t) ∧
  (∀ (s : State) (seq off len : Nat) (c : Cmd), s.adminCmd seq = some c → off ≤ 160 →
    ∃ t, exec (.getLogPageLantern seq off len) s = .next t ∧ s.ends t seq stOk 0 ∧
      t.ans = .bytes (slice (lanternBytes (lanternNow s)) off len)) ∧
  (∀ s : State, s.rd rSTP_DGRAM_EN = 1 → s.net.datagramDue = true →
    ∃ t, exec .lanternDatagram s = .next t ∧ t.net.datagramDue = false ∧
      t.rd rSTP_DGRAM_SENT = (s.rd rSTP_DGRAM_SENT + 1) % 2 ^ rSTP_DGRAM_SENT.w ∧
      t.ans = .datagram (s.rd rSTP_PORT) (if s.rd rSTP_VLAN_EN = 1 then some (s.rd rSTP_VLAN_ID) else none)
        (s.rd rSTP_SRC_PORT) (s.rd rSTP_DST_PORT) (s.rd rSTP_IPV6 == 1)
        (if s.rd rSTP_IPV6 = 1 then addressOf fun k => s.rdBank rNET_IPV6k k (s.rd rSTP_PORT)
          else s.rdBank rNET_IPV4 0 (s.rd rSTP_PORT))
        (if s.rd rSTP_IPV6 = 1 then addressOf fun k => s.rdAt rSTP_IPk 0 k else s.rdAt rSTP_IPk 0 0)
        ([0x51, 0x48, 0x4C, 0x54, 0x01, 0, 0, 0] ++ leBytes 8 s.fuses.serial.toNat ++ lanternBytes (lanternNow s))) ∧
  (∀ l : Lantern, (lanternBytes l).length = 160)

/-- O16. Waking or gating a domain changes the gates alone. DOMAIN_WAKE of a demand-woken domain, outside snuff, clocks it
and marks it as having work in this stride; DOMAIN_GATE of one that has been idle for two strides, has no work in this
one and is not forced on stops its clock. Each leaves every other domain as it was, the domains that THM_GATE_ACT
shows for this stride, and every part of the block but the gates. -/
def Obligations.GatingLosesNoState : Prop :=
  (∀ (s : State) (d : Nat), demandWoken.getLsbD d = true → s.thm.snuff ≠ .off →
    ∃ t, exec (.domainWake d) s = .next t ∧ t.gate.on.getLsbD d = true ∧ t.gate.busy.getLsbD d = true ∧
      t.gate.act = s.gate.act ∧ (∀ e, e ≠ d → t.gate.on.getLsbD e = s.gate.on.getLsbD e)) ∧
  (∀ (s : State) (d : Nat), demandWoken.getLsbD d = true → 2 ≤ Tbl.getD s.gate.idle d 0 →
    s.gate.busy.getLsbD d = false → (forced s).getLsbD d = false →
    ∃ t, exec (.domainGate d) s = .next t ∧ t.gate.on.getLsbD d = false ∧ t.gate.act = s.gate.act ∧
      (∀ e, e ≠ d → t.gate.on.getLsbD e = s.gate.on.getLsbD e)) ∧
  (∀ (s t : State) (d : Nat), exec (.domainWake d) s = .next t ∨ exec (.domainGate d) s = .next t →
    Frame [.gate] s t)

/-- O17. The manager's commands arm their change and are closed to tenants. For the manager (function 0) and a function
number up to 255: Function Create of a FREE function with a harness record in range that the pool can promise, Delete
of one that is not FREE, Bind to nothing, to PCIe with its VF enabled, or to the network, Harness Set, Freeze of an
ACTIVE function, Save of a FROZEN one with a migration key, Thaw of a FROZEN one: the command waits, the change is
armed behind those armed before, and the function's state and harness stay until the boundary. Function Create,
Delete, Bind, Harness Set, Freeze, Save, Thaw and Restore from a function other than 0 end with Invalid Command
Opcode; nothing but QMX and the function's own completion queue changes, and no other function changes at all. -/
def Obligations.ManagerCommandsArmTheirChange : Prop :=
  (∀ (s : State) (seq f : Nat) (data : List Byte) (h : Harness) (c : Cmd), s.adminCmd seq = some c → c.fn = 0 →
    f ≤ 255 → f ≠ 0 → armedState (s.fn f) = .free → held (s.fn f).state = false → parseHarness data = some (f, h) →
    h.inRange = true → poolReject s f h = 0 →
    ∃ t, exec (.functionCreate seq f data) s = .next t ∧ s.waits t seq ∧
      (t.fn f).arms = (s.fn f).arms ++ [(.create h, seq)] ∧ (t.fn f).state = (s.fn f).state) ∧
  (∀ (s : State) (seq f : Nat) (c : Cmd), s.adminCmd seq = some c → c.fn = 0 → f ≤ 255 → f ≠ 0 →
    armedState (s.fn f) ≠ .free → (s.fn f).deleteWait = none →
    ∃ t, exec (.functionDelete seq f) s = .next t ∧ s.waits t seq ∧
      (t.fn f).arms = (s.fn f).arms ++ [(.delete, seq)] ∧ (t.fn f).state = (s.fn f).state) ∧
  (∀ (s : State) (seq f kind : Nat) (b : Machine.Bind) (c : Cmd), s.adminCmd seq = some c → c.fn = 0 → f ≤ 255 →
    f ≠ 0 → armedState (s.fn f) ≠ .free → held (armedState (s.fn f)) = false →
    (kind = 0 ∧ b = .none) ∨ (kind = 1 ∧ b = .pcie ∧ vfEnabled s f = true) ∨ (kind = 2 ∧ b = .network) →
    ∃ t, exec (.functionBind seq f kind) s = .next t ∧ s.waits t seq ∧
      (t.fn f).arms = (s.fn f).arms ++ [(.bind b, seq)] ∧ (t.fn f).bind = (s.fn f).bind) ∧
  (∀ (s : State) (seq f : Nat) (data : List Byte) (h : Harness) (c : Cmd), s.adminCmd seq = some c → c.fn = 0 →
    f ≤ 255 → (f ≠ 0 → armedState (s.fn f) ≠ .free ∧ held (armedState (s.fn f)) = false) →
    parseHarness data = some (f, h) → h.inRange = true → h.tether = (armedHarness (s.fn f)).tether →
    (h.openZones = 0 → holdsZoned s (s.fn f) = false) → poolReject s f h = 0 →
    ∃ t, exec (.harnessSet seq f data) s = .next t ∧ s.waits t seq ∧
      (t.fn f).arms = (s.fn f).arms ++ [(.harness h, seq)] ∧ (t.fn f).harness = (s.fn f).harness) ∧
  (∀ (s : State) (seq f : Nat) (c : Cmd), s.adminCmd seq = some c → c.fn = 0 → f ≤ 255 → f ≠ 0 →
    armedState (s.fn f) = .active →
    ∃ t, exec (.functionFreeze seq f) s = .next t ∧ s.waits t seq ∧
      (t.fn f).arms = (s.fn f).arms ++ [(.freeze, seq)] ∧ (t.fn f).freezeWait = (s.fn f).freezeWait ++ [seq]) ∧
  (∀ (s : State) (seq f : Nat) (c : Cmd), s.adminCmd seq = some c → c.fn = 0 → f ≤ 255 → f ≠ 0 →
    armedState (s.fn f) = .frozen → (migKey s).isSome = true → s.key.health = true →
    ∃ t, exec (.functionSave seq f) s = .next t ∧ s.waits t seq ∧
      (t.fn f).arms = (s.fn f).arms ++ [(.save, seq)] ∧ t.key.requests = s.key.requests + 1) ∧
  (∀ (s : State) (seq f : Nat) (c : Cmd), s.adminCmd seq = some c → c.fn = 0 → f ≤ 255 → f ≠ 0 →
    armedState (s.fn f) = .frozen ∨ armedState (s.fn f) = .saved →
    ∃ t, exec (.functionThaw seq f) s = .next t ∧ s.waits t seq ∧
      (t.fn f).arms = (s.fn f).arms ++ [(.thaw, seq)] ∧ (t.fn f).state = (s.fn f).state) ∧
  (∀ (s : State) (seq f kind : Nat) (data : List Byte) (plain : Option (List Byte)) (keys : List (Option Nat))
      (c : Cmd) (i : Instr),
    s.adminCmd seq = some c → c.fn ≠ 0 →
    i ∈ [Instr.functionCreate seq f data, .functionDelete seq f, .functionBind seq f kind, .harnessSet seq f data,
      .functionFreeze seq f, .functionSave seq f, .functionThaw seq f,
      .functionRestore seq f kind data plain keys] →
    ∃ t, exec i s = .next t ∧ s.ends t seq stInvalidOpcode 0 ∧ Frame [.qmx, .fns] s t ∧
      ∀ g, g ≠ c.fn → t.fn g = s.fn g)

/-- O18. Function Restore passes the checks of R131 in order, or is rejected and recorded. For the manager: a Restore into
a FREE function of a record whose MAGIC, VERSION and LENGTH are right, which was made under the loaded migration key,
whose tag verifies, whose namespaces the device holds with keys that unwrap and whose harness is in range and fits the
pool, is armed for the boundary (bound to nothing, or to the network), and the function stays as it is until then. A
record with a wrong head, key or tag ends with Migration Record Rejected, sets event REJECT, records TEN_MIG_REJECT
and arms nothing. What the bytes decrypt to is an operand of the command (log entry 4). -/
def Obligations.RestoreIsCheckedInItsOrder : Prop :=
  (∀ (s : State) (seq f kind : Nat) (b : Machine.Bind) (rec body : List Byte) (keys : List (Option Nat))
      (r : MigRecord) (k : KeySlot) (c : Cmd),
    s.adminCmd seq = some c → c.fn = 0 → f ≤ 255 → f ≠ 0 → armedState (s.fn f) = .free → recordForm rec = true →
    migKey s = some k → k.keyId = recField rec 56 4 → body.length + 96 = rec.length →
    parseRecord rec body keys (k.key.getD 0) = some r →
    r.spaces.zipIdx.all (fun e => restoreSpaceOk s e.1 (keys.getD e.2 none).isSome) = true →
    r.harness.inRange = true → poolReject s f r.harness = 0 → (kind = 0 ∧ b = .none) ∨ (kind = 2 ∧ b = .network) →
    ∃ t, exec (.functionRestore seq f kind rec (some body) keys) s = .next t ∧ s.waits t seq ∧
      (t.fn f).arms = (s.fn f).arms ++ [(.restore r b, seq)] ∧ (t.fn f).state = (s.fn f).state) ∧
  (∀ (s : State) (seq f kind : Nat) (rec : List Byte) (plain : Option (List Byte)) (keys : List (Option Nat))
      (c : Cmd), s.adminCmd seq = some c → c.fn = 0 → f ≤ 255 → f ≠ 0 → armedState (s.fn f) = .free →
    recordForm rec = false ∨ plain = none ∨ (migKey s).map KeySlot.keyId ≠ some (recField rec 56 4) →
    ∃ t, exec (.functionRestore seq f kind rec plain keys) s = .next t ∧ t.cmd? seq = none ∧
      t.shows eTEN_REJECT ∧ s.tells t lTEN_MIG_REJECT (some f) [] ∧ (t.fn f).arms = (s.fn f).arms ∧
      s.ends t seq stMigRejected 0)

/-- O19. At the boundary an armed change of a function takes effect. The changes of function f that wait for the boundary,
applied there: one armed Create makes it IDLE with the harness of the record; one armed Freeze makes it DRAINING with
its drain counted from zero; one armed Thaw of a FROZEN function without a record makes it ACTIVE; one armed Delete of
an IDLE function makes it FREE. Each but Freeze ends its command with success and writes the function table. -/
def Obligations.ArmedChangesApplyAtTheBoundary : Prop :=
  (∀ (s : State) (f seq : Nat) (h : Harness), (s.fn f).arms = [(.create h, seq)] → f ≠ 0 →
    ((applyArms s f).fn f).state = .idle ∧ ((applyArms s f).fn f).harness = h ∧
      ((applyArms s f).fn f).arms = [] ∧ (applyArms s f).cmd? seq = none ∧
      (applyArms s f).norWaits.length = s.norWaits.length + 1) ∧
  (∀ (s : State) (f seq : Nat), (s.fn f).arms = [(.freeze, seq)] → f ≠ 0 →
    ((applyArms s f).fn f).state = .draining ∧ ((applyArms s f).fn f).drainFor = 0 ∧
      ((applyArms s f).fn f).arms = [] ∧ (applyArms s f).qmx = s.qmx) ∧
  (∀ (s : State) (f seq : Nat), (s.fn f).arms = [(.thaw, seq)] → (s.fn f).record = none → f ≠ 0 →
    ((applyArms s f).fn f).state = .active ∧ ((applyArms s f).fn f).arms = [] ∧
      (applyArms s f).cmd? seq = none ∧ (applyArms s f).norWaits.length = s.norWaits.length + 1) ∧
  (∀ (s : State) (f seq : Nat), (s.fn f).arms = [(.delete, seq)] → (s.fn f).state = .idle → f ≠ 0 →
    ((applyArms s f).fn f).state = .free ∧ ((applyArms s f).fn f).spaces = [] ∧
      (applyArms s f).cmd? seq = none ∧ (applyArms s f).norWaits.length = s.norWaits.length + 1)

/-- O20. The boundary events of functions complete with their effects. HARNESS_APPLY gives the function the harness armed
last, clips each bucket to its new depth and ends every Harness Set that waited. FREEZE_DRAINED of a DRAINING function
with no command in flight makes it FROZEN and writes the function table. TEN_FREEZE_LATE after 6,250 strides of
draining ends the Freezes that wait with Command Interrupted and leaves the function DRAINING. SAVE_APPLY builds a
record of the function's harness and epoch under the next migration serial, and the function is SAVED once
NOR_RECORD_WRITE_DONE ends the write of its table entry, with TEN_MIG_SAVE recorded. POOL_SCALE_APPLY sets each scale
factor to available / promised, 1 when the promise fits. -/
def Obligations.FunctionBoundaryRowsComplete : Prop :=
  (∀ (s : State) (f seq : Nat) (h : Harness) (l : List (FnArm × Nat)),
    (takeArms (s.fn f) isHarnessArm).1 = l ++ [(.harness h, seq)] →
    ∃ t, exec (.harnessApply f) s = .next t ∧ (t.fn f).harness = h ∧
      (t.fn f).iopsLevel ≤ (iopsGain h * h.burst : Nat) ∧ (t.fn f).bwLevel ≤ (bwGain h * h.burst : Nat) ∧
      (∀ a ∈ l ++ [(.harness h, seq)], t.cmd? a.2 = none) ∧ t.norWaits.length = s.norWaits.length + 1) ∧
  (∀ (s : State) (f : Nat), (s.fn f).state = .draining → inFlight s f = [] →
    ∃ t, exec (.freezeDrained f) s = .next t ∧ (t.fn f).state = .frozen ∧ (t.fn f).freezeWait = [] ∧
      t.norWaits.length = s.norWaits.length + 1 ∧ ∀ g, g ≠ f → t.fn g = s.fn g) ∧
  (∀ (s : State) (f : Nat), (s.fn f).state = .draining → 6250 ≤ (s.fn f).drainFor → (s.fn f).freezeLate = false →
    ∃ t, exec (.tenFreezeLate f) s = .next t ∧ (t.fn f).state = .draining ∧ (t.fn f).freezeWait = [] ∧
      (t.fn f).freezeLate = true ∧ (∀ q ∈ (s.fn f).freezeWait, t.cmd? q = none) ∧ t.shows eTEN_FREEZE_LATE ∧
      s.tells t lTEN_FREEZE_LATE (some f) []) ∧
  (∀ (s : State) (f seq : Nat), (.save, seq) ∈ (s.fn f).arms → (migKey s).isSome = true →
    ∃ t r, exec (.saveApply f) s = .next t ∧ (t.fn f).saving = true ∧ (t.fn f).state = (s.fn f).state ∧
      (t.fn f).record = some r ∧ r.srcFunc = f ∧ r.epoch = (s.fn f).epoch ∧ r.harness = (s.fn f).harness ∧
      r.migSerial = s.ten.migSerial ∧ t.ten.migSerial = s.ten.migSerial + 1 ∧
      t.norWaits.length = s.norWaits.length + 1) ∧
  (∀ (s : State) (f : Nat) (w : NorWait) (q : List NorWait) (e : FnEntry) (r : MigRecord), s.norWaits = w :: q →
    w.entry = some (f, e) → e.state = .saved → w.seqs = [] → (s.fn f).saving = true → (s.fn f).state = .frozen →
    (s.fn f).record = some r →
    ∃ t, exec .norRecordWriteDone s = .next t ∧ (t.fn f).state = .saved ∧ (t.fn f).saving = false ∧
      recordReadable t f = some r ∧ t.norWaits = q ∧ t.shows eTEN_SAVE ∧
      s.tells t lTEN_MIG_SAVE (some f) [p4 r.migSerial] ∧ ∀ g, g ≠ f → t.fn g = s.fn g) ∧
  (∀ s : State, ∃ t, exec .poolScaleApply s = .next t ∧
      t.ten.scaleSlot = ⟨availSlots s, promisedAll s Harness.slotShare⟩ ∧
      t.ten.scaleDie = ⟨availDies s, promisedAll s Harness.dieShare⟩ ∧
      t.ten.scaleWb = ⟨availWb s, promisedAll s Harness.wbMib⟩ ∧
      (s.ten.scaleSlot.short = false → t.ten.scaleSlot.short = true → t.shows eTEN_POOL_SHORT ∧
        s.tells t lTEN_POOL_SHORT none []))

/-- O21. A tenant reads only its own meters and harness status; the manager reads all. Log pages Meters and Harness Status
of function f answer the manager and function f itself with the page's bytes from the offset; from any other tenant
they end with Invalid Field and answer nothing. The migration record page answers the manager alone, and has zero
length when no record is readable. -/
def Obligations.FunctionLogPagesAreOwn : Prop :=
  (∀ (s : State) (seq f off len : Nat) (c : Cmd), s.adminCmd seq = some c → f ≤ 255 → c.fn = 0 ∨ c.fn = f →
    (∃ t, exec (.getLogPageMeters seq f off len) s = .next t ∧ s.ends t seq stOk 0 ∧
      t.ans = .bytes (slice (meterPage (s.fn f) f) off len)) ∧
    (∃ t, exec (.getLogPageHarnessStatus seq f off len) s = .next t ∧ s.ends t seq stOk 0 ∧
      t.ans = .bytes (slice (harnessStatus s f) off len))) ∧
  (∀ (s : State) (seq f off len : Nat) (c : Cmd) (i : Instr), s.adminCmd seq = some c → c.fn ≠ 0 →
    (i = .getLogPageMeters seq f off len ∧ f ≠ c.fn) ∨ (i = .getLogPageHarnessStatus seq f off len ∧ f ≠ c.fn) ∨
      i = .getLogPageMigrationRecord seq f off len →
    ∃ t, exec i s = .next t ∧ s.ends t seq stInvalidField 0 ∧ t.ans = s.ans ∧ Frame [.qmx, .fns] s t) ∧
  (∀ (s : State) (seq f off len : Nat) (c : Cmd), s.adminCmd seq = some c → c.fn = 0 → f ≤ 255 →
    (recordReadable s f = none →
      ∃ t, exec (.getLogPageMigrationRecord seq f off len) s = .next t ∧ s.ends t seq stOk 0 ∧ t.ans = .bytes []) ∧
    (∀ r, recordReadable s f = some r →
      ∃ t, exec (.getLogPageMigrationRecord seq f off len) s = .next t ∧ s.ends t seq stOk 0 ∧
        t.ans = .bytes (slice (recordCipher r) off len)))

/-- O22. A reset of a function is armed by its causes, begins at a boundary and ends. PCIE_FLR, CC.EN cleared and NumVFs
lowered arm a reset of the functions they reach. The owner of function 0 in dual-port mode gives it up when it clears
CC.EN. FUNCTION_LEVEL_RESET, with no stale job of the coming epoch, advances the epoch by one modulo 256, disables the
function and removes its queues, requests, events, features and saved record; a DRAINING or SAVED function is FROZEN;
no command of the function stays in QMX. FLR_COMPLETE, when no unpinned job of an old epoch remains, ends the reset
and counts it. -/
def Obligations.FunctionResetsComplete : Prop :=
  (∀ (s : State) (f : Nat), pcieReach s f = true →
    ∃ t, exec (.pcieFlr f) s = .next t ∧ (t.fn f).flrArm = some .pcieFlr ∧ t.shows eHIF_FLR ∧
      ∀ g, g ≠ f → t.fn g = s.fn g) ∧
  (∀ (s : State) (f : Nat) (port : Option Nat), reached s f port = true → (s.fn f).enabled = true →
    (f = 0 → s.hif.dual = false) →
    ∃ t, exec (.ccEnClear f port) s = .next t ∧ (t.fn f).enabled = false ∧ (t.fn f).flrArm = some .ccEn ∧
      (∀ g, g ≠ f → t.fn g = s.fn g) ∧ Frame [.gate, .fns] s t) ∧
  (∀ (s : State) (port : Option Nat), reached s 0 port = true → (s.fn 0).enabled = true → s.hif.dual = true →
    s.hif.owner = port →
    ∃ t, exec (.ccEnClear 0 port) s = .next t ∧ (t.fn 0).enabled = false ∧ (t.fn 0).flrArm = some .ccEn ∧
      t.hif.owner = none ∧ ∀ g, g ≠ 0 → t.fn g = s.fn g) ∧
  (∀ (s : State) (p n f : Nat), n ≤ 255 → p = 0 ∨ (p = 1 ∧ s.hif.dual = true) → f ∈ boundOn s p →
    vfEnabled s f = true → n < f →
    ∃ t, exec (.sriovNumvfsWrite p n) s = .next t ∧ (t.port p).numVfs = n ∧ (t.fn f).flrArm = some .numVfs) ∧
  (∀ (s : State) (f : Nat) (cause : FlrCause), (s.fn f).flrArm = some cause →
    staleJobs s f (fun e => e == ((s.fn f).epoch + 1) % 256) = false →
    ∃ t, exec (.functionLevelReset f) s = .next t ∧ (t.fn f).epoch = ((s.fn f).epoch + 1) % 256 ∧
      (t.fn f).enabled = false ∧ (t.fn f).sqs = [] ∧ (t.fn f).cqs = [] ∧ (t.fn f).aers = [] ∧
      (t.fn f).events = [] ∧ (t.fn f).feats = [] ∧ (t.fn f).flrArm = none ∧ (t.fn f).flr = some cause ∧
      (t.fn f).record = none ∧ (t.fn f).state = (if (s.fn f).state = .draining ∨ (s.fn f).state = .saved then .frozen
        else (s.fn f).state) ∧
      (∀ c ∈ t.qmx.cmds, c.fn ≠ f) ∧ t.norWaits.length = s.norWaits.length + 1) ∧
  (∀ (s : State) (f : Nat), (s.fn f).flr.isSome = true → (s.fn f).flrArm = none → (s.fn f).deleteWait = none →
    staleJobs s f (fun e => e != (s.fn f).epoch) = false →
    ∃ t, exec (.flrComplete f) s = .next t ∧ (t.fn f).flr = none ∧ (t.fn f).epoch = (s.fn f).epoch ∧
      t.shows eTEN_FLR ∧ t.rd rTEN_FLR_COUNT = (if s.cntHeld (pageNo rTEN_FLR_COUNT.blk 0) then s.rd rTEN_FLR_COUNT
        else min (s.rd rTEN_FLR_COUNT + 1) (2 ^ rTEN_FLR_COUNT.w - 1)))

/-- O23. Queue creation and deletion complete with their effects. For the function c.fn of the fetched command, not on the
network: Create I/O SQ and CQ with a free identifier from 1 to the harness queue pairs and 2 to 4,096 entries (the SQ
on an existing CQ, the CQ with a vector up to 2,047) end with success and the new queue stands empty. Delete I/O CQ of
a queue that no SQ uses removes it. Delete I/O SQ, while no firmware activation drains, waits, and SQ_DELETION_APPLY
removes every queue that was to be deleted, leaves no I/O command of it and ends each Delete, or lets it wait for
aborted completions that are held; other queues stay. On the network, where Connect makes the queues, both creations
end with Invalid Command Opcode (log entry 12). -/
def Obligations.QueueCommandsComplete : Prop :=
  (∀ (s : State) (seq qid size base cqid : Nat) (pc : Bool) (c : Cmd) (k : Cq), s.adminCmd seq = some c →
    (s.fn c.fn).bind ≠ .network → 1 ≤ qid → qid ≤ (s.fn c.fn).harness.qpairs → Tbl.get (s.fn c.fn).sqs qid = none →
    2 ≤ size → size ≤ 4096 → cqid ≠ 0 → Tbl.get (s.fn c.fn).cqs cqid = some k →
    ∃ t, exec (.createIoSq seq qid size base cqid pc) s = .next t ∧ s.ends t seq stOk 0 ∧
      Tbl.get (t.fn c.fn).sqs qid = some ⟨base, size, cqid, 0, 0, pc⟩ ∧
      (∀ q, q ≠ qid → Tbl.get (t.fn c.fn).sqs q = Tbl.get (s.fn c.fn).sqs q) ∧
      (∀ g, g ≠ c.fn → t.fn g = s.fn g)) ∧
  (∀ (s : State) (seq qid size base vector : Nat) (pc ien : Bool) (c : Cmd), s.adminCmd seq = some c →
    (s.fn c.fn).bind ≠ .network → 1 ≤ qid → qid ≤ (s.fn c.fn).harness.qpairs → Tbl.get (s.fn c.fn).cqs qid = none →
    2 ≤ size → size ≤ 4096 → vector ≤ 2047 →
    (∀ q, Tbl.get (s.fn c.fn).sqs c.sqid = some q → q.cqid ≠ qid) →
    ∃ t k, exec (.createIoCq seq qid size base vector pc ien) s = .next t ∧ s.ends t seq stOk 0 ∧
      Tbl.get (t.fn c.fn).cqs qid = some k ∧ k.size = size ∧ k.base = base ∧ k.vector = vector ∧ k.head = 0 ∧
      k.tail = 0 ∧ k.phase = true ∧ k.posted = [] ∧ k.held = [] ∧ k.ien = ien ∧ k.pc = pc ∧
      (∀ g, g ≠ c.fn → t.fn g = s.fn g)) ∧
  (∀ (s : State) (seq qid : Nat) (c : Cmd) (q : Sq), s.adminCmd seq = some c → qid ≠ 0 →
    Tbl.get (s.fn c.fn).sqs qid = some q → actDrains s = false →
    ∃ t, exec (.deleteIoSq seq qid) s = .next t ∧ s.waits t seq ∧
      t.qmx.sqDel = s.qmx.sqDel ++ [(c.fn, qid, seq)] ∧ t.fns = s.fns) ∧
  (∀ (s : State) (seq qid : Nat) (c : Cmd) (k : Cq), s.adminCmd seq = some c → qid ≠ 0 →
    Tbl.get (s.fn c.fn).cqs qid = some k → (∀ p ∈ (s.fn c.fn).sqs, p.2.cqid ≠ qid) →
    ∃ t, exec (.deleteIoCq seq qid) s = .next t ∧ s.ends t seq stOk 0 ∧ Tbl.get (t.fn c.fn).cqs qid = none ∧
      (t.fn c.fn).sqs = (s.fn c.fn).sqs ∧ ∀ g, g ≠ c.fn → t.fn g = s.fn g) ∧
  (∀ s : State, ∃ t, exec .sqDeletionApply s = .next t ∧ t.qmx.sqDel = [] ∧
      (∀ d ∈ s.qmx.sqDel, Tbl.get (t.fn d.1).sqs d.2.1 = none ∧
        (∀ c ∈ t.qmx.cmds, c.admin = false → c.fn = d.1 → c.sqid ≠ d.2.1) ∧
        (t.cmd? d.2.2 = none ∨ ∃ w ∈ t.qmx.sqWait, w.1 = d.1 ∧ w.2.2.1 = d.2.1 ∧ w.2.2.2 = d.2.2)) ∧
      (∀ f q, (∀ d ∈ s.qmx.sqDel, d.1 ≠ f ∨ d.2.1 ≠ q) → Tbl.get (t.fn f).sqs q = Tbl.get (s.fn f).sqs q)) ∧
  (∀ (s : State) (seq : Nat) (c : Cmd) (i : Instr) (qid size base cqid vector : Nat) (pc ien : Bool),
    s.adminCmd seq = some c → (s.fn c.fn).bind = .network →
    i = .createIoSq seq qid size base cqid pc ∨ i = .createIoCq seq qid size base vector pc ien →
    ∃ t, exec i s = .next t ∧ s.ends t seq stInvalidOpcode 0 ∧ Frame [.qmx, .fns] s t)

/-- O24. A doorbell moves its queue, and a bad one is counted and reported. SQ tail doorbell with a value below the size
of an existing queue sets its tail. CQ head doorbell with a value that releases posted entries only sets the head,
releases them, and no held completion is lost; a Delete I/O SQ that waited for held completions ends once none is
left. A write to an absent queue, or of a value at or beyond the size, or of a head that would release more than is
posted, changes no queue: it sets event BADDB and gives the function an asynchronous event of type Error status with
the information of the case, which waits, or completes the oldest outstanding request. No other function's queues
change. On an Insecure stream a doorbell is dropped. -/
def Obligations.DoorbellsTakeEffect : Prop :=
  (∀ (s : State) (f qid val : Nat) (q : Sq), ideBlocked s f = false → Tbl.get (s.fn f).sqs qid = some q → val < q.size →
    ∃ t, exec (.sqTailDoorbell f qid val) s = .next t ∧ Tbl.get (t.fn f).sqs qid = some { q with tail := val } ∧
      (t.fn f).cqs = (s.fn f).cqs ∧ (∀ k, k ≠ qid → Tbl.get (t.fn f).sqs k = Tbl.get (s.fn f).sqs k) ∧
      t.qmx = s.qmx ∧ ∀ g, g ≠ f → t.fn g = s.fn g) ∧
  (∀ (s : State) (f qid val : Nat) (q : Cq), ideBlocked s f = false → Tbl.get (s.fn f).cqs qid = some q → val < q.size →
    (val + q.size - q.head) % q.size ≤ q.posted.length → (∀ w ∈ s.qmx.sqWait, w.1 ≠ f) →
    ∃ t k, exec (.cqHeadDoorbell f qid val) s = .next t ∧ Tbl.get (t.fn f).cqs qid = some k ∧ k.head = val ∧
      k.posted ++ k.held = q.posted.drop ((val + q.size - q.head) % q.size) ++ q.held ∧
      (k.held = [] ∨ k.full = true) ∧
      (∀ j, j ≠ qid → Tbl.get (t.fn f).cqs j = Tbl.get (s.fn f).cqs j) ∧
      (t.fn f).sqs = (s.fn f).sqs ∧ t.qmx = s.qmx ∧ ∀ g, g ≠ f → t.fn g = s.fn g) ∧
  (∀ (s : State) (f qid val sq seq : Nat) (q : Cq) (c : Cmd), ideBlocked s f = false →
    Tbl.get (s.fn f).cqs qid = some q → val < q.size → (val + q.size - q.head) % q.size ≤ q.posted.length →
    s.qmx.sqWait = [(f, qid, sq, seq)] → s.cmd? seq = some c →
    (∀ e ∈ (q.release val ((val + q.size - q.head) % q.size)).held, e.sqid ≠ sq) →
    ∃ t, exec (.cqHeadDoorbell f qid val) s = .next t ∧ t.cmd? seq = none ∧ t.qmx.sqWait = []) ∧
  (∀ (s : State) (f qid val info : Nat) (i : Instr), ideBlocked s f = false →
    (i = .sqTailDoorbell f qid val ∧ Tbl.get (s.fn f).sqs qid = none ∧ info = 0) ∨
      (i = .cqHeadDoorbell f qid val ∧ Tbl.get (s.fn f).cqs qid = none ∧ info = 0) ∨
      (∃ q, i = .sqTailDoorbell f qid val ∧ Tbl.get (s.fn f).sqs qid = some q ∧ q.size ≤ val ∧ info = 1) ∨
      (∃ q, i = .cqHeadDoorbell f qid val ∧ Tbl.get (s.fn f).cqs qid = some q ∧
        (q.size ≤ val ∨ q.posted.length < (val + q.size - q.head) % q.size) ∧ info = 1) →
    ((s.fn f).aers = [] →
      ∃ t, exec i s = .next t ∧ (t.fn f).sqs = (s.fn f).sqs ∧ (t.fn f).cqs = (s.fn f).cqs ∧ t.shows eQMX_BADDB ∧
        (t.fn f).events = (s.fn f).events ++ [(0, info, 1)] ∧ t.qmx = s.qmx ∧ ∀ g, g ≠ f → t.fn g = s.fn g) ∧
    (∀ a r c, (s.fn f).aers = a :: r → s.cmd? a = some c → c.fn = f →
      ∃ t, exec i s = .next t ∧ (t.fn f).sqs = (s.fn f).sqs ∧ t.shows eQMX_BADDB ∧ (t.fn f).aers = r ∧
        (t.fn f).events = (s.fn f).events ∧ s.ends t a stOk (BitVec.ofNat 32 (256 * info + 65536)) ∧
        ∀ g, g ≠ f → t.fn g = s.fn g)) ∧
  (∀ (s : State) (f qid val : Nat) (i : Instr), ideBlocked s f = true →
    i = .sqTailDoorbell f qid val ∨ i = .cqHeadDoorbell f qid val → exec i s = .next s)

/-- O25. COMMAND_FETCH, CC_EN_SET and CQ_STALL complete with their effects. For the function in turn and its queue in
turn, with an entry waiting there, COMMAND_FETCH takes the entry when the harness has room for it (an admin command
needs none): the head advances, and QMX holds one more command under the next intake sequence number, undecoded, with
the function's epoch, the opcode and the block count of the entry. Without room the function is passed over for the
stride and nothing else changes. CC_EN_SET of a disabled function reached by a port enables it with admin queues of
the sizes and bases given; a port that is not the owner is denied function 0. CQ_STALL is recorded once for a queue
full for STALL_STRIDES. -/
def Obligations.FetchAndEnableComplete : Prop :=
  (∀ (s : State) (f qid cid op n : Nat) (q : Sq), Tbl.get (s.fn f).sqs qid = some q → fnInTurn s = some f →
    queueInTurn s f = some qid → entryWaits s f qid cid q = true →
    (qid = 0 ∨ harnessRoom s f op n (fetchGait s f qid cid) = true →
      ∃ t c, exec (.commandFetch f qid cid op n) s = .next t ∧ t.qmx.cmds = s.qmx.cmds ++ [c] ∧
        c.seq = s.qmx.nextSeq ∧ t.qmx.nextSeq = s.qmx.nextSeq + 1 ∧ c.fn = f ∧ c.sqid = qid ∧ c.cid = cid ∧
        c.op = op ∧ c.blocks = n ∧ c.epoch = (s.fn f).epoch ∧ c.admin = (qid == 0) ∧
        c.gait = fetchGait s f qid cid ∧ c.body = .undecoded ∧ c.fetchClk = s.tbs.clk ∧
        Tbl.get (t.fn f).sqs qid = some { q with head := (q.head + 1) % q.size } ∧
        (t.fn f).cqs = (s.fn f).cqs ∧ ∀ g, g ≠ f → t.fn g = s.fn g) ∧
    (qid ≠ 0 → harnessRoom s f op n (fetchGait s f qid cid) = false →
      ∃ t, exec (.commandFetch f qid cid op n) s = .next t ∧ (t.fn f).passed = true ∧ (t.fn f).sqs = (s.fn f).sqs ∧
        (∀ g, g ≠ f → t.fn g = s.fn g) ∧ Frame [.fns] s t)) ∧
  (∀ (s : State) (f p asqs acqs asq acq : Nat), reached s f (some p) = true → (s.fn f).flr = none →
    (s.fn f).flrArm = none → (s.fn f).offline = false → (s.fn f).enabled = false →
    (f = 0 → s.hif.dual = true → s.hif.owner = none ∨ s.hif.owner = some p) →
    ∃ t q k, exec (.ccEnSet f (some p) asqs acqs asq acq) s = .next t ∧ (t.fn f).enabled = true ∧
      Tbl.get (t.fn f).sqs 0 = some q ∧ q.size = asqs % 4096 + 1 ∧ q.base = asq ∧ q.cqid = 0 ∧
      Tbl.get (t.fn f).cqs 0 = some k ∧ k.size = acqs % 4096 + 1 ∧ k.base = acq ∧
      (f = 0 → s.hif.dual = true → t.hif.owner = some p) ∧ ∀ g, g ≠ f → t.fn g = s.fn g) ∧
  (∀ (s : State) (p asqs acqs asq acq r : Nat), reached s 0 (some p) = true → (s.fn 0).flr = none →
    (s.fn 0).flrArm = none → (s.fn 0).offline = false → s.hif.dual = true → s.hif.owner = some r → r ≠ p →
    ∃ t, exec (.ccEnSet 0 (some p) asqs acqs asq acq) s = .next t ∧ t.shows eHIF_OWNER_DENIED ∧
      t.hif = s.hif ∧ t.fns = s.fns) ∧
  (∀ (s : State) (f qid : Nat) (q : Cq), Tbl.get (s.fn f).cqs qid = some q → s.rd rQMX_STALL_STRIDES ≠ 0 →
    s.rd rQMX_STALL_STRIDES ≤ q.fullFor → q.stalled = false →
    ∃ t, exec (.cqStall f qid) s = .next t ∧ Tbl.get (t.fn f).cqs qid = some { q with stalled := true } ∧
      t.shows eQMX_CQ_STALL ∧ s.tells t lQMX_CQ_STALL (some f) [])

/-- O26. The Abort command aborts nothing. Abort ends with success and Dword 0 bit 0 = 1; every other fetched command is
in QMX exactly as before, and nothing but QMX's list and the completion queue of the function changes. While a
firmware activation drains, Abort waits and changes nothing. -/
def Obligations.AbortAbortsNothing : Prop :=
  (∀ (s : State) (seq : Nat) (c : Cmd), s.adminCmd seq = some c → actDrains s = false →
    ∃ t, exec (.abort seq) s = .next t ∧ s.ends t seq stOk 1 ∧ (∀ n, n ≠ seq → t.cmd? n = s.cmd? n) ∧
      Frame [.qmx, .fns] s t ∧ ∀ g, g ≠ c.fn → t.fn g = s.fn g) ∧
  (∀ (s : State) (seq : Nat) (c : Cmd), s.adminCmd seq = some c → actDrains s = true →
    exec (.abort seq) s = .next s)

/-- O27. An absent command completes with its stated response and has no other effect. Directive Send and Receive,
Doorbell Buffer Config, Get LBA Status and the unused vendor opcodes of the admin set, and Reservation Register,
Report, Acquire, Release and Copy of the I/O set, end with Invalid Command Opcode; Sanitize Overwrite ends with
Invalid Field. Nothing but QMX's list and the completion queue of the function changes. -/
def Obligations.AbsentCommandsEndWithInvalidOpcode : Prop :=
  (∀ (s : State) (seq : Nat) (c : Cmd) (i : Instr), s.adminCmd seq = some c →
    i ∈ [Instr.directiveSend seq, .directiveReceive seq, .doorbellBufferConfig seq, .getLbaStatus seq,
      .unusedVendorOpcode seq] →
    ∃ t, exec i s = .next t ∧ s.ends t seq stInvalidOpcode 0 ∧ Frame [.qmx, .fns] s t ∧
      ∀ g, g ≠ c.fn → t.fn g = s.fn g) ∧
  (∀ (s : State) (seq : Nat) (c : Cmd) (i : Instr), s.cmd? seq = some c → c.admin = false → c.body = .undecoded →
    (i, c.op) ∈ [(Instr.reservationRegister seq, 0x0D), (.reservationReport seq, 0x0E), (.reservationAcquire seq, 0x11),
      (.reservationRelease seq, 0x15), (.copy seq, 0x19)] →
    ∃ t, exec i s = .next t ∧ s.ends t seq stInvalidOpcode 0 ∧ Frame [.qmx, .fns] s t ∧
      ∀ g, g ≠ c.fn → t.fn g = s.fn g) ∧
  (∀ (s : State) (seq : Nat) (c : Cmd), s.adminCmd seq = some c → c.fn = 0 →
    ∃ t, exec (.sanitizeOverwrite seq) s = .next t ∧ s.ends t seq stInvalidField 0 ∧ Frame [.qmx, .fns] s t)

/-- O28. Features are set and read; event requests and keep-alive complete. Set Features of a supported feature without a
row of its own stores the value (DULBE of Error Recovery stays 0); of an absent feature it ends with Invalid Field and
stores nothing. Arbitration keeps the burst alone. Volatile Write Cache is set on tethered functions and refused
elsewhere. Number of Queues, with no I/O queue, grants at most the harness queue pairs. Keep Alive Timer is set on a
fabrics association. A Composite Temperature threshold is stored, one of another sensor refused. Power Management, by
the manager, arms the state; a tenant's ends with Feature Not Changeable. Get Features returns the value of a feature
that is there in Dword 0, and Invalid Field for another. In each case the features of other functions stay. With 8
requests outstanding a further Asynchronous Event Request ends with the limit status. With a waiting event it
completes at once and takes that event; with none (and no ledger event on function 0) it waits as the newest
outstanding one. Keep Alive on a fabrics association restarts its timer. -/
def Obligations.FeaturesEventsAndKeepAlive : Prop :=
  (∀ (s : State) (seq fid : Nat) (v : Dword) (c : Cmd), s.adminCmd seq = some c →
    fid ∈ [0x05, 0x08, 0x09, 0x0A, 0x0B, 0x19, 0x80] →
    ∃ t, exec (.setFeatures seq fid v) s = .next t ∧ s.ends t seq stOk 0 ∧
      Tbl.get (t.fn c.fn).feats fid = some (if fid = 0x05 then v &&& 0xFFFEFFFF else v) ∧
      ∀ g, g ≠ c.fn → t.fn g = s.fn g) ∧
  (∀ (s : State) (seq fid : Nat) (v : Dword) (c : Cmd), s.adminCmd seq = some c →
    fid ∈ [0x0C, 0x0D, 0x10, 0x11, 0x12, 0x13, 0x14, 0x16, 0x17, 0x18] →
    ∃ t, exec (.setFeatures seq fid v) s = .next t ∧ s.ends t seq stInvalidField 0 ∧
      (t.fn c.fn).feats = (s.fn c.fn).feats) ∧
  (∀ (s : State) (seq : Nat) (v : Dword) (c : Cmd), s.adminCmd seq = some c →
    ∃ t, exec (.setFeaturesArbitration seq v) s = .next t ∧ s.ends t seq stOk 0 ∧
      Tbl.get (t.fn c.fn).feats 1 = some (v &&& 7)) ∧
  (∀ (s : State) (seq : Nat) (wce : Bool) (c : Cmd), s.adminCmd seq = some c →
    ∃ t, exec (.setFeaturesVolatileWriteCache seq wce) s = .next t ∧
      ((s.fn c.fn).harness.tether = true → s.ends t seq stOk 0 ∧
        Tbl.get (t.fn c.fn).feats 6 = some (if wce then 1 else 0)) ∧
      ((s.fn c.fn).harness.tether = false → s.ends t seq stInvalidField 0 ∧
        (t.fn c.fn).feats = (s.fn c.fn).feats)) ∧
  (∀ (s : State) (seq nsq ncq : Nat) (c : Cmd), s.adminCmd seq = some c → nsq < 65535 → ncq < 65535 →
    (∀ k ∈ Tbl.keys (s.fn c.fn).sqs, k = 0) → (∀ k ∈ Tbl.keys (s.fn c.fn).cqs, k = 0) →
    ∃ t v, exec (.setFeaturesNumberOfQueues seq nsq ncq) s = .next t ∧ s.ends t seq stOk v ∧
      v = BitVec.ofNat 32 (min nsq ((s.fn c.fn).harness.qpairs - 1) +
        65536 * min ncq ((s.fn c.fn).harness.qpairs - 1)) ∧ Tbl.get (t.fn c.fn).feats 7 = some v) ∧
  (∀ (s : State) (seq ms : Nat) (c : Cmd) (a : Assoc), s.adminCmd seq = some c → assocOf s c.fn = some a →
    ∃ t, exec (.setFeaturesKeepAliveTimer seq ms) s = .next t ∧ s.ends t seq stOk 0 ∧
      assocOf t c.fn = some { a with kato := ms, kaClk := s.tbs.clk }) ∧
  (∀ (s : State) (seq : Nat) (w : Dword) (c : Cmd), s.adminCmd seq = some c → thresholdKey w ≠ 0 →
    ∃ t, exec (.setFeaturesTemperatureThreshold seq w) s = .next t ∧
      Tbl.get (t.fn c.fn).feats (thresholdKey w) = some (w &&& 0xFFFF) ∧ t.cmd? seq = none) ∧
  (∀ (s : State) (seq : Nat) (w : Dword) (c : Cmd), s.adminCmd seq = some c → thresholdKey w = 0 →
    ∃ t, exec (.setFeaturesTemperatureThreshold seq w) s = .next t ∧ s.ends t seq stInvalidField 0 ∧
      (t.fn c.fn).feats = (s.fn c.fn).feats) ∧
  (∀ (s : State) (seq : Nat) (w : Dword) (c : Cmd), s.adminCmd seq = some c → c.fn = 0 → w.toNat % 32 ≤ 4 →
    (w.toNat % 32 = 4 → s.net.assocs = []) →
    ∃ t, exec (.setFeaturesPowerManagement seq w) s = .next t ∧ s.ends t seq stOk 0 ∧
      t.thm.psArm = some (w.toNat % 32) ∧ t.thm.ps = s.thm.ps) ∧
  (∀ (s : State) (seq : Nat) (w : Dword) (c : Cmd), s.adminCmd seq = some c → c.fn ≠ 0 →
    ∃ t, exec (.setFeaturesPowerManagement seq w) s = .next t ∧ s.ends t seq stNotChangeable 0 ∧ t.thm = s.thm) ∧
  (∀ (s : State) (seq fid : Nat) (dw11 : Dword) (c : Cmd), s.adminCmd seq = some c → fid ≠ 0x0E →
    (∀ v, featureValue s c.fn (if fid = 4 then thresholdKey dw11 else fid % 256) = some v →
      ∃ t, exec (.getFeatures seq fid dw11) s = .next t ∧ s.ends t seq stOk v ∧ Frame [.qmx, .fns] s t) ∧
    (featureValue s c.fn (if fid = 4 then thresholdKey dw11 else fid % 256) = none →
      ∃ t, exec (.getFeatures seq fid dw11) s = .next t ∧ s.ends t seq stInvalidField 0 ∧ Frame [.qmx, .fns] s t)) ∧
  (∀ (s : State) (seq : Nat) (c : Cmd), s.adminCmd seq = some c → 8 ≤ (s.fn c.fn).aers.length →
    ∃ t, exec (.asynchronousEventRequest seq) s = .next t ∧ s.ends t seq stAerLimit 0 ∧
      (t.fn c.fn).aers = (s.fn c.fn).aers) ∧
  (∀ (s : State) (seq typ info page : Nat) (r : List (Nat × Nat × Nat)) (c : Cmd), s.adminCmd seq = some c →
    (s.fn c.fn).aers.length < 8 → (s.fn c.fn).events = (typ, info, page) :: r →
    ∃ t, exec (.asynchronousEventRequest seq) s = .next t ∧
      s.ends t seq stOk (BitVec.ofNat 32 (typ + 256 * info + 65536 * page)) ∧ (t.fn c.fn).events = r) ∧
  (∀ (s : State) (seq : Nat) (c : Cmd), s.adminCmd seq = some c → (s.fn c.fn).aers.length < 8 →
    (s.fn c.fn).events = [] → s.evl.aenWaiting = false →
    ∃ t, exec (.asynchronousEventRequest seq) s = .next t ∧ s.waits t seq ∧
      (t.fn c.fn).aers = (s.fn c.fn).aers ++ [seq] ∧ ∀ g, g ≠ c.fn → t.fn g = s.fn g) ∧
  (∀ (s : State) (seq : Nat) (c : Cmd) (a : Assoc), s.adminCmd seq = some c → assocOf s c.fn = some a →
    ∃ t, exec (.keepAlive seq) s = .next t ∧ s.ends t seq stOk 0 ∧
      assocOf t c.fn = some { a with kaClk := s.tbs.clk })

/-- O29. A fetched I/O command that passes its checks is taken with what it names. For a fetched, undecoded I/O command of
the row's opcode whose namespace its function may use and whose blocks, those that its entry named at fetch, lie in it
(one to 256 for a command that transfers data): Write, Read, Write Uncorrectable (conventional), Compare (not fused),
Write Zeroes, Verify, Dataset Management deallocation (conventional), Flush, Zone Append (at a zone's start) and the
four zone actions set in QMX the namespace, the blocks and the body of that command and nothing else; the command then
waits for admission and its completion point. Dataset Management without deallocation, or on a zoned namespace, ends
with success and changes no map. -/
def Obligations.IoCommandsAreTaken : Prop :=
  (∀ (s : State) (seq nsid ns : Nat) (c : Cmd) (sp : Space) (lba n : Nat), s.cmd? seq = some c → c.admin = false →
    c.body = .undecoded → ioSpace s c nsid false = .ok (ns, sp) →
    (c.blocks = n → 1 ≤ n → lba + n ≤ sp.nsze →
      (c.op = 0x02 → n ≤ 256 → ∃ t, exec (.read seq nsid lba n) s = .next t ∧ Frame [.qmx] s t ∧
        s.takes t seq { c with nsid := nsid, ns := ns, lba := lba, nlb := n, body := .read }) ∧
      (c.op = 0x0C → ∃ t, exec (.verify seq nsid lba n) s = .next t ∧ Frame [.qmx] s t ∧
        s.takes t seq { c with nsid := nsid, ns := ns, lba := lba, nlb := n, body := .verify }) ∧
      (∀ data : List Block, c.op = 0x05 → data.length = n → n ≤ 256 →
        ∃ t, exec (.compare seq nsid lba false data) s = .next t ∧ Frame [.qmx] s t ∧
          s.takes t seq { c with nsid := nsid, ns := ns, lba := lba, nlb := n, body := .compare data })) ∧
    (c.op = 0x00 → nsid ≠ 0xFFFFFFFF → ∃ t, exec (.flush seq nsid) s = .next t ∧ Frame [.qmx] s t ∧
      s.takes t seq { c with nsid := nsid, ns := ns, body := .flush false })) ∧
  (∀ (s : State) (seq : Nat) (c : Cmd), s.cmd? seq = some c → c.admin = false → c.body = .undecoded → c.op = 0x00 →
    s.rcl.sanitize ≠ .armed → s.rcl.sanitize ≠ .erasing →
    ∃ t, exec (.flush seq 0xFFFFFFFF) s = .next t ∧ Frame [.qmx] s t ∧
      s.takes t seq { c with nsid := 0xFFFFFFFF, body := .flush true }) ∧
  (∀ (s : State) (seq nsid ns : Nat) (c : Cmd) (sp : Space) (lba n : Nat), s.cmd? seq = some c → c.admin = false →
    c.body = .undecoded → ioSpace s c nsid true = .ok (ns, sp) → 1 ≤ n → lba + n ≤ sp.nsze →
    (c.blocks = n →
      (∀ (fua : Bool) (h : Option Nat) (data : List Block) (metas : List (BitVec 128)), c.op = 0x01 →
        data.length = n → n ≤ 256 → handleOk s sp h = true →
        ∃ t, exec (.write seq nsid lba fua h data metas) s = .next t ∧ Frame [.qmx] s t ∧
          s.takes t seq { c with nsid := nsid, ns := ns, lba := lba, nlb := n,
                                 body := .write fua false h data (metas.map (hostPart sp.lbaf)) }) ∧
      (c.op = 0x04 → sp.typ = .conventional →
        ∃ t, exec (.writeUncorrectable seq nsid lba n) s = .next t ∧ Frame [.qmx] s t ∧
          s.takes t seq { c with nsid := nsid, ns := ns, lba := lba, nlb := n, body := .mapOnly true }) ∧
      (∀ deac fua : Bool, c.op = 0x08 →
        ∃ t, exec (.writeZeroes seq nsid lba n deac fua) s = .next t ∧ Frame [.qmx] s t ∧
          s.takes t seq { c with nsid := nsid, ns := ns, lba := lba, nlb := n,
                                 body := if deac = true ∧ sp.typ = .conventional then .mapOnly false
                                   else .write fua false none (List.replicate n 0) [] }) ∧
      (∀ (fua : Bool) (data : List Block) (metas : List (BitVec 128)), c.op = 0x7D → sp.typ = .zoned →
        lba % max sp.zsze 1 = 0 → data.length = n → n ≤ 256 →
        ∃ t, exec (.zoneAppend seq nsid lba fua data metas) s = .next t ∧ Frame [.qmx] s t ∧
          s.takes t seq { c with nsid := nsid, ns := ns, lba := lba, nlb := n,
                                 body := .write fua true none data (metas.map (hostPart sp.lbaf)) })) ∧
    (∀ r : List (Nat × Nat), c.op = 0x09 → r.length ≤ 255 → (∀ x ∈ r, 1 ≤ x.2 ∧ x.1 + x.2 ≤ sp.nsze) →
      (sp.typ = .conventional →
        ∃ t, exec (.datasetManagement seq nsid true ((lba, n) :: r)) s = .next t ∧ Frame [.qmx] s t ∧
          s.takes t seq { c with nsid := nsid, ns := ns, lba := lba, nlb := n, ranges := r, body := .mapOnly false }) ∧
      (∀ deallocate : Bool, deallocate = false ∨ sp.typ = .zoned →
        ∃ t, exec (.datasetManagement seq nsid deallocate ((lba, n) :: r)) s = .next t ∧ s.ends t seq stOk 0 ∧
          Frame [.qmx, .fns] s t)) ∧
    (sp.typ = .zoned → c.op = 0x79 → ∀ i a all,
      (i, a) ∈ [(Instr.zoneClose seq nsid lba all, 1), (.zoneFinish seq nsid lba all, 2),
        (.zoneOpen seq nsid lba all, 3), (.zoneReset seq nsid lba all, 4)] → all = true ∨ lba % max sp.zsze 1 = 0 →
      ∃ t, exec i s = .next t ∧ Frame [.qmx] s t ∧
        s.takes t seq { c with nsid := nsid, ns := ns, lba := if all then 0 else lba,
                               nlb := if all then sp.nsze else sp.zsze, body := .zone a all }))

/-- O30. An I/O command that fails a check ends with the status of the check. A Read, Write or Flush of a namespace that
is not attached ends with Invalid Namespace; while a sanitize is armed or erasing every Read ends with Sanitize In
Progress; a Write to a write-protected namespace or in the read-only state ends with Namespace Write Protected; a
namespace with a cipher mode and no key in its slot gives Key Not Loaded; blocks beyond the namespace give LBA Out of
Range; a Read of more than 256 blocks and a fused Compare give Invalid Field; Zone actions, Zone Append and Zone
Management Receive of a conventional namespace, and Write Uncorrectable of a zoned one, give Invalid Command Opcode.
Nothing but QMX and the function's completion queue changes. -/
def Obligations.IoCommandsAreRefused : Prop :=
  ∀ (s : State) (seq nsid lba n : Nat) (c : Cmd) (i : Instr) (x : Status), s.cmd? seq = some c → c.admin = false →
    c.body = .undecoded → c.blocks = n →
    (((s.rcl.sanitize = .armed ∨ s.rcl.sanitize = .erasing) ∧ c.op = 0x02 ∧ i = .read seq nsid lba n ∧
        x = stSanitizing) ∨
      (s.rcl.sanitize ≠ .armed ∧ s.rcl.sanitize ≠ .erasing ∧
        ((Tbl.get (s.fn c.fn).spaces nsid = none ∧ x = stInvalidNs ∧
            ((c.op = 0x02 ∧ i = .read seq nsid lba n) ∨
              (c.op = 0x01 ∧ i = .write seq nsid lba false none (List.replicate n 0) []) ∨
              (c.op = 0x00 ∧ i = .flush seq nsid ∧ nsid ≠ 0xFFFFFFFF))) ∨
          (∃ ns sp, Tbl.get (s.fn c.fn).spaces nsid = some ns ∧ s.space ns = some sp ∧
            ((keyReady s ns sp = false ∧ c.op = 0x02 ∧ i = .read seq nsid lba n ∧ x = stKeyNotLoaded) ∨
              (keyReady s ns sp = true ∧ (s.rcl.readOnly = true ∨ sp.wp = true) ∧ c.op = 0x01 ∧
                i = .write seq nsid lba false none (List.replicate n 0) [] ∧ x = stWriteProtected) ∨
              (keyReady s ns sp = true ∧ 256 < n ∧ c.op = 0x02 ∧ i = .read seq nsid lba n ∧ x = stInvalidField) ∨
              (keyReady s ns sp = true ∧ 1 ≤ n ∧ n ≤ 256 ∧ sp.nsze < lba + n ∧ c.op = 0x02 ∧
                i = .read seq nsid lba n ∧ x = stLbaRange) ∨
              (keyReady s ns sp = true ∧ 1 ≤ n ∧ n ≤ 256 ∧ lba + n ≤ sp.nsze ∧ c.op = 0x05 ∧
                i = .compare seq nsid lba true (List.replicate n 0) ∧ x = stInvalidField) ∨
              (keyReady s ns sp = true ∧ sp.typ = .conventional ∧ x = stInvalidOpcode ∧ c.op = 0x7A ∧
                i = .zoneManagementReceive seq nsid lba 0 n) ∨
              (keyReady s ns sp = true ∧ sp.typ = .conventional ∧ s.rcl.readOnly = false ∧ sp.wp = false ∧
                x = stInvalidOpcode ∧
                ((c.op = 0x79 ∧ (i = .zoneReset seq nsid lba false ∨ i = .zoneFinish seq nsid lba false ∨
                    i = .zoneOpen seq nsid lba false ∨ i = .zoneClose seq nsid lba false)) ∨
                  (c.op = 0x7D ∧ 1 ≤ n ∧ n ≤ 256 ∧ lba + n ≤ sp.nsze ∧
                    i = .zoneAppend seq nsid lba false (List.replicate n 0) []))) ∨
              (keyReady s ns sp = true ∧ sp.typ = .zoned ∧ s.rcl.readOnly = false ∧ sp.wp = false ∧ 1 ≤ n ∧
                lba + n ≤ sp.nsze ∧ x = stInvalidOpcode ∧ c.op = 0x04 ∧ i = .writeUncorrectable seq nsid lba n)))))) →
    ∃ t, exec i s = .next t ∧ s.ends t seq x 0 ∧ Frame [.qmx, .fns] s t ∧ ∀ g, g ≠ c.fn → t.fn g = s.fn g

/-- O31. At its completion point an admitted command has its effect and ends. For an admitted command, with DMC not
frozen: a Read whose granules are all verified answers their data, block by block, and ends with success, counted in
its function's meters; a Compare ends with success exactly when the data agree; a Verify ends with success; a granule
in error ends the Read with its status, a failed tag first. A read whose blocks fail their protection information ends
with that status. A Flush of a standard function ends at once. A deallocation or Write Uncorrectable with nothing
overlapping before it, on a namespace that may be written, ends with success. A Write of a standard function outside
write-through, with nothing overlapping before it and no check failing, ends with success, and its bytes are counted;
on a namespace made write-protected meanwhile it ends with Namespace Write Protected. -/
def Obligations.CompletionPointsComplete : Prop :=
  (∀ (s : State) (seq : Nat) (c : Cmd) (pi : PiArgs), s.cmd? seq = some c → c.admitted = true → s.dmc.frozen = false →
    c.parts.any (partOpen s) = false → partsStatus c.parts = none →
    ((s.space c.ns).bind fun sp => piStatus sp pi c.lba (c.parts.map fun p => (p.done.getD 0, p.hostMeta))) = none →
    (c.body = .read → c.admin = false → ∃ t, exec (.completionPoint seq pi) s = .next t ∧ s.ends t seq stOk 0 ∧
      t.ans = .data (c.parts.map fun p => p.done.getD 0) (if pi.pract then [] else c.parts.map ReadPart.hostMeta) ∧
      (t.fn c.fn).cur.bytesRead = (s.fn c.fn).cur.bytesRead + 4096 * c.nlb ∧
      (t.fn c.fn).cur.commands = (s.fn c.fn).cur.commands + 1) ∧
    (∀ d, c.body = .compare d → ∃ t, exec (.completionPoint seq pi) s = .next t ∧
      s.ends t seq (if c.parts.map (fun p => p.done.getD 0) = d then stOk else stCompareFail) 0 ∧ t.ans = s.ans) ∧
    (c.body = .verify → ∃ t, exec (.completionPoint seq pi) s = .next t ∧ s.ends t seq stOk 0 ∧ t.ans = s.ans)) ∧
  (∀ (s : State) (seq : Nat) (c : Cmd) (pi : PiArgs) (x : Status), s.cmd? seq = some c → c.admitted = true →
    s.dmc.frozen = false → c.body = .read → c.parts.any (partOpen s) = false →
    partsStatus c.parts = some x ∨ (partsStatus c.parts = none ∧
      ((s.space c.ns).bind fun sp => piStatus sp pi c.lba (c.parts.map fun p => (p.done.getD 0, p.hostMeta))) = some x) →
    ∃ t, exec (.completionPoint seq pi) s = .next t ∧ s.ends t seq x 0 ∧ t.ans = s.ans ∧
      (t.fn c.fn).cur.bytesRead = (s.fn c.fn).cur.bytesRead) ∧
  (∀ (s : State) (seq : Nat) (c : Cmd) (all : Bool) (pi : PiArgs), s.cmd? seq = some c → c.admitted = true →
    s.dmc.frozen = false → c.body = .flush all → (s.fn c.fn).harness.tether = false →
    ∃ t, exec (.completionPoint seq pi) s = .next t ∧ s.ends t seq stOk 0) ∧
  (∀ (s : State) (seq : Nat) (c : Cmd) (u : Bool) (sp : Space) (pi : PiArgs), s.cmd? seq = some c →
    c.admitted = true → s.dmc.frozen = false → c.body = .mapOnly u → s.space c.ns = some sp →
    s.rcl.readOnly = false → sp.wp = false → behindWrite s c = false → behindAccept s c = false →
    ∃ t, exec (.completionPoint seq pi) s = .next t ∧ s.ends t seq stOk 0) ∧
  (∀ (s : State) (seq : Nat) (c : Cmd) (h : Option Nat) (d : List Block) (m : List (BitVec 128)) (sp : Space)
      (pi : PiArgs),
    s.cmd? seq = some c → c.admitted = true → s.dmc.frozen = false → c.body = .write false false h d m →
    s.space c.ns = some sp → sp.typ = .conventional → c.atPoint = false →
    (s.rcl.readOnly = false → sp.wp = false → (s.fn c.fn).harness.tether = false → s.qmx.wthru = false →
      s.wbf.dropping = false → behindWrite s c = false → behindAccept s c = false → acceptRefused s c sp pi = none →
      ∃ t, exec (.completionPoint seq pi) s = .next t ∧ s.ends t seq stOk 0 ∧
        (t.fn c.fn).cur.bytesWritten = (s.fn c.fn).cur.bytesWritten + 4096 * c.nlb) ∧
    (s.rcl.readOnly = true ∨ sp.wp = true →
      ∃ t, exec (.completionPoint seq pi) s = .next t ∧ s.ends t seq stWriteProtected 0 ∧
        (t.fn c.fn).cur.bytesWritten = (s.fn c.fn).cur.bytesWritten))

/-- O32. FDP, reclaim unit handles and zone reports complete as stated. Set Features FDP, by the manager with no
namespace: enabling with 64 free streams or more enables FDP and gives every handle a stream; with fewer it ends with
Invalid Field; a tenant's ends with Feature Not Changeable; with a namespace it ends with Command Sequence Error. With
FDP enabled, I/O Management Send makes the stream of every handle it names begin a new span, and I/O Management
Receive answers the status of the 64 handles. Zone Management Receive of a zoned namespace answers the report cut to
the length asked. -/
def Obligations.PlacementAndZoneReportsComplete : Prop :=
  (∀ (s : State) (seq : Nat) (c : Cmd), s.adminCmd seq = some c → c.fn = 0 → s.map.spaces.all (·.2.deleted) = true →
    s.map.fdp = false → 64 ≤ ((List.range (targetStreams s)).filter fun n => (targetsOf s n).isEmpty).length →
    ∃ t, exec (.setFeaturesFdp seq true) s = .next t ∧ s.ends t seq stOk 0 ∧ t.map.fdp = true ∧
      ∀ h, h < 64 → ((t.target (tgtRuh h)).stream).isSome = true) ∧
  (∀ (s : State) (seq : Nat) (c : Cmd), s.adminCmd seq = some c → c.fn = 0 → s.map.spaces.all (·.2.deleted) = true →
    s.map.fdp = false → ((List.range (targetStreams s)).filter fun n => (targetsOf s n).isEmpty).length < 64 →
    ∃ t, exec (.setFeaturesFdp seq true) s = .next t ∧ s.ends t seq stInvalidField 0 ∧ t.map = s.map) ∧
  (∀ (s : State) (seq : Nat) (e : Bool) (c : Cmd), s.adminCmd seq = some c → c.fn ≠ 0 →
    ∃ t, exec (.setFeaturesFdp seq e) s = .next t ∧ s.ends t seq stNotChangeable 0 ∧ t.map = s.map) ∧
  (∀ (s : State) (seq nsid ns : Nat) (hs : List Nat) (c : Cmd) (sp : Space), s.cmd? seq = some c → c.admin = false →
    c.body = .undecoded → c.op = 0x1D → ioSpace s c nsid false = .ok (ns, sp) → s.map.fdp = true →
    (∀ h ∈ hs, h < 64) →
    ∃ t, exec (.ioManagementSend seq nsid hs) s = .next t ∧ s.ends t seq stOk 0 ∧
      ∀ h ∈ hs, ∀ n, (s.target (tgtRuh h)).stream = some n → (t.stream n).newSpan = true) ∧
  (∀ (s : State) (seq nsid ns n : Nat) (c : Cmd) (sp : Space), s.cmd? seq = some c → c.admin = false →
    c.body = .undecoded → c.op = 0x12 → ioSpace s c nsid false = .ok (ns, sp) → s.map.fdp = true →
    ∃ t b, exec (.ioManagementReceive seq nsid n) s = .next t ∧ s.ends t seq stOk 0 ∧ t.ans = .bytes b ∧
      b.length = min n (16 + 64 * 32)) ∧
  (∀ (s : State) (seq nsid ns lba filter n : Nat) (c : Cmd) (sp : Space), s.cmd? seq = some c → c.admin = false →
    c.body = .undecoded → c.op = 0x7A → ioSpace s c nsid false = .ok (ns, sp) → sp.typ = .zoned →
    lba < sp.nsze →
    ∃ t b, exec (.zoneManagementReceive seq nsid lba filter n) s = .next t ∧ s.ends t seq stOk 0 ∧ t.ans = .bytes b ∧
      b.length ≤ n)

/-- O33. Write-through, the ceiling and idle closure complete with their effects. WRITE_THROUGH_ENTER, when armed, begins
write-through, marks the current record of every function, marks every host target that holds granules for closing and
sets its event; WRITE_THROUGH_EXIT, once the ceiling lies above the acknowledged holdings again, ends it.
CEILING_CHANGE gives the buffer its new ceiling with its event, and records WBF_CEIL_DROP when the acknowledged
holdings exceed it. IDLE_CLOSURE marks a target that holds granules and has been idle for IDLE_STRIDES for closing. -/
def Obligations.WriteBufferModesComplete : Prop :=
  (∀ s : State, s.qmx.wthruArm = true →
    ∃ t, exec .writeThroughEnter s = .next t ∧ t.qmx.wthru = true ∧ t.qmx.wthruArm = false ∧ t.shows eQMX_WTHRU ∧
      (∀ f x, Tbl.get s.fns f = some x → (t.fn f).cur.flags = x.cur.flags ||| 4) ∧
      ∀ g, ctlStream g = none → (s.target g).held ≠ [] → (t.target g).close = true) ∧
  (∀ s : State, s.qmx.wthru = true → s.qmx.wthruOff = true → ackSlots s < slotsTotal s →
    ∃ t, exec .writeThroughExit s = .next t ∧ t.qmx.wthru = false ∧ t.qmx.wthruOff = false ∧ t.shows eQMX_WTHRU) ∧
  (∀ (s : State) (c : Nat), s.wbf.ceilNext = some c → c ≠ s.wbf.ceil →
    ∃ t, exec .ceilingChange s = .next t ∧ t.wbf.ceil = c ∧ t.wbf.ceilNext = none ∧ t.shows eWBF_CEIL_CHANGE ∧
      t.wbf.slots = s.wbf.slots ∧
      (c * 252 < ackSlots s → t.wbf.dropping = true ∧ (s.wbf.dropping = false →
        s.tells t lWBF_CEIL_DROP none [p4 c, p4 (ackSlots s)])) ∧
      (ackSlots s ≤ c * 252 → t.wbf.dropping = false)) ∧
  (∀ (s : State) (g : Nat), s.rd rWBF_IDLE_STRIDES ≠ 0 → s.rd rWBF_IDLE_STRIDES ≤ (s.target g).idle →
    (s.target g).close = false → targetHolds s g = true →
    ∃ t, exec (.idleClosure g) s = .next t ∧ (t.target g).close = true ∧ (t.target g).held = (s.target g).held ∧
      ∀ h, h ≠ g → t.target h = s.target h)

/-- O34. Program units are assembled, spans begun, codewords encoded and folded. With an accumulating row that still takes
members, no assembled unit waiting for it, a free assembly record and a target whose chain fills every position or
that is to be closed, PROGRAM_UNIT_ASSEMBLY hands one program unit of the chain's granules on as the row's next
member, in the positions that the chain gives, and the unit's granules leave the chain. A row that is to be padded
gets a member of pad alone. SPAN_ALLOCATE for a stream without a span that has something to write opens the erased
span of least erase count (stream 253: of the greatest), at its first row unless assembled units wait for it; stream
254 with proxies that wait begins a spare span; with no erased span nothing changes. Under a plan that is not held,
for an assembled or sent program unit of the accumulating row that STP has placed and whose next position has its key:
the codeword of that position waits in the staging pool with the info bytes that encryption and metadata give it, and
is the next member's fold into P and Q at that position. If the CRC check before encoding fails, nothing is staged,
the position is tried again and the event is set. A P or Q codeword is staged as its accumulator holds it. -/
def Obligations.ProgramUnitsAreAssembledAndSpansBegun : Prop :=
  (∀ (s : State) (g n r : Nat) (l : Layout), s.dmc.frozen = false → streamOf s g = some n → s.par.layout = some l →
    (∀ u ∈ s.wbf.pus, u.stream = n → u.state ≠ .waiting) → (s.stream n).state = .accumulating →
    (s.stream n).span.isSome = true → (s.stream n).members < l.d → freeRecord s = some r →
    ((s.stream n).padRow = false → openChunk s g = none → (s.target g).held ≠ [] →
      (gather s (s.target g)).1.all Option.isSome = true ∨ (s.target g).close = true →
      ∃ t u, exec (.programUnitAssembly g) s = .next t ∧ u ∈ t.wbf.pus ∧ u.recNo = r ∧ u.stream = n ∧
        u.serial = (s.stream n).serial ∧ u.member = (s.stream n).members ∧ u.state = .assembled ∧ u.encoded = 0 ∧
        u.slots = (gather s (s.target g)).1 ∧ (t.stream n).members = (s.stream n).members + 1 ∧
        (t.target g).held = (gather s (s.target g)).2) ∧
    ((s.stream n).padRow = true →
      ∃ t u, exec (.programUnitAssembly g) s = .next t ∧ u ∈ t.wbf.pus ∧ u.recNo = r ∧ u.stream = n ∧
        u.member = (s.stream n).members ∧ u.state = .assembled ∧ u.slots = List.replicate (puGran s) none ∧
        (t.stream n).members = (s.stream n).members + 1 ∧
        (t.stream n).padRow = decide ((s.stream n).members + 1 < l.d))) ∧
  (∀ (s : State) (n sp : Nat) (l : Layout), s.par.layout = some l → n ≤ 255 → (s.stream n).span = none →
    rowsFree (s.stream n) = true → streamWants s n = true → (n < 252 → n < targetStreams s ∧ atFloor s = false) →
    ((n = 254 → proxyWaits s = false) → lostMembers s l sp = [] →
      (if n = 253 then mostBy ((List.range l.spans).filter fun m => (s.span m).phase == .erased) (spanErases s l)
        else leastBy ((List.range l.spans).filter fun m => (s.span m).phase == .erased) (spanErases s l)) = some sp →
      ∃ t, exec (.spanAllocate n) s = .next t ∧ (t.stream n).span = some sp ∧
        ((∀ u ∈ s.wbf.pus, u.stream = n → u.state ≠ .waiting) → (t.stream n).nextRow = 0) ∧
        (t.span sp).phase = .open ∧ (t.span sp).stream = n ∧ ∀ m, m ≠ sp → t.span m = s.span m) ∧
    (∀ u, n = 254 → proxyWaits s = true → nextSpare s l = some (sp, u) →
      ∃ t, exec (.spanAllocate n) s = .next t ∧ (t.stream n).span = some sp ∧ (t.span sp).phase = .open ∧
        (t.span sp).stream = n ∧ (t.span sp).spareMembers = (u.span sp).spareMembers) ∧
    ((n = 254 → proxyWaits s = false) → (∀ m, m < l.spans → (s.span m).phase ≠ .erased) →
      exec (.spanAllocate n) s = .next s)) ∧
  (∀ (s : State) (n ser m : Nat) (u : Pu) (l : Layout), s.findPu n ser m = some u → s.par.layout = some l →
    s.dmc.frozen = false → planHeld s = false → puPlaced s u = true → m < 254 → u.encoded < puGran s → u.foldedTo ≤ u.encoded → (s.stream n).serial = ser →
    (s.stream n).state = .accumulating → u.state = .assembled ∨ u.state = .sent →
    ((u.slots.getD u.encoded none).any fun i => keyMissing s (s.slot i)) = false →
    (∃ t, exec (.codewordEncode n ser m false) s = .next t ∧
      t.staged = s.staged ++ [⟨n, ser, m, u.encoded, puInfo s u u.encoded⟩] ∧
      ((s.stream n).members < l.d → (t.stream n).folded = (s.stream n).folded + 1 ∧
        Tbl.getD (t.stream n).accP u.encoded 0 =
          foldP (Tbl.getD (s.stream n).accP u.encoded 0) (puInfo s u u.encoded) ∧
        Tbl.getD (t.stream n).accQ u.encoded 0 =
          foldQ (Tbl.getD (s.stream n).accQ u.encoded 0) (puInfo s u u.encoded) m)) ∧
    (∃ t, exec (.codewordEncode n ser m true) s = .next t ∧ t.staged = s.staged ∧ t.shows eLDC_CRC_ENC ∧
      t.stream n = s.stream n)) ∧
  (∀ (s : State) (n ser m : Nat) (u : Pu) (l : Layout) (b : Bool), s.findPu n ser m = some u →
    s.par.layout = some l → s.dmc.frozen = false → planHeld s = false → puPlaced s u = true → m = 254 ∨ m = 255 → u.encoded < puGran s →
    (s.stream n).serial = ser → (s.stream n).state = .parityOut → u.state = .assembled ∨ u.state = .sent →
    ∃ t, exec (.codewordEncode n ser m b) s = .next t ∧
      t.staged = s.staged ++ [⟨n, ser, m, u.encoded,
        Tbl.getD (if m = 254 then (s.stream n).accP else (s.stream n).accQ) u.encoded 0⟩] ∧ t.regs = s.regs)

/-- O35. Namespace Management and Attachment complete with their effects. For the manager, outside a sanitize: a creation
that passes its checks and fits the fine pool makes the namespace under the lowest free index, with the size, format,
mode, source and owner asked for, and the command waits for its key store record, which answers index + 1; one that
the fine pool does not yet fit waits. CREATE_FINE_FIT makes the namespace that waited; CREATE_FINE_TIMEOUT after 10 s
ends it with Namespace Insufficient Capacity. Attach gives the function the lowest free NSID (function 0: index + 1),
detach takes the namespace from it, and each waits for the function table. -/
def Obligations.NamespaceCommandsComplete : Prop :=
  (∀ (s : State) (seq : Nat) (typ : NsType) (nsze ncap mode source owner zsze : Nat) (fmt : LbaFormat) (c : Cmd) (sp : Space),
    s.adminCmd seq = some c → c.fn = 0 → sanitizing s = false → s.map.fineCreate = none →
    checkCreate s typ nsze ncap fmt mode source owner zsze = .ok sp →
    (fineInUse s ≤ fineUnits s ((1024, sp) :: liveSpaces s) →
      ∃ t q, exec (.namespaceCreate seq typ nsze ncap fmt mode source owner zsze) s = .next t ∧
        t.space (freeKey s.map.spaces 0) = some q ∧ q.typ = typ ∧ q.nsze = nsze ∧ q.lbaf = fmt.index ∧ q.pi = fmt.pi ∧
        q.mode.ctorIdx = mode ∧ q.owner = owner ∧ q.deleted = false ∧ s.waits t seq ∧
        t.norWaits.length = s.norWaits.length + 1 ∧
        ∀ n, n ≠ freeKey s.map.spaces 0 → t.space n = s.space n) ∧
    (fineUnits s ((1024, sp) :: liveSpaces s) < fineInUse s →
      ∃ t w, exec (.namespaceCreate seq typ nsze ncap fmt mode source owner zsze) s = .next t ∧
        t.map.fineCreate = some w ∧ w.seq = seq ∧ w.since = s.tbs.clk ∧ s.waits t seq ∧
        t.map.spaces = s.map.spaces)) ∧
  (∀ (s : State) (w : FineWaitCreate), s.map.fineCreate = some w → fineInUse s ≤ w.target →
    ∃ t q, exec .namespaceCreateFineFit s = .next t ∧ t.map.fineCreate = none ∧
      t.space (freeKey s.map.spaces 0) = some q ∧ q.nsze = w.space.nsze ∧ q.typ = w.space.typ ∧
      t.norWaits.length = s.norWaits.length + 1) ∧
  (∀ (s : State) (w : FineWaitCreate) (c : Cmd), s.map.fineCreate = some w → w.target < fineInUse s →
    w.since + 10000000000 ≤ s.tbs.clk → s.cmd? w.seq = some c →
    ∃ t, exec .namespaceCreateFineTimeout s = .next t ∧ t.map.fineCreate = none ∧ s.ends t w.seq stNsCapacity 0 ∧
      t.map.spaces = s.map.spaces) ∧
  (∀ (s : State) (seq nsid ns f : Nat) (c : Cmd) (sp : Space), s.adminCmd seq = some c → c.fn = 0 →
    spaceOf s 0 nsid = some (ns, sp) → f ≤ 255 → (f ≠ 0 → (s.fn f).state ≠ .free) → held (s.fn f).state = false →
    (∀ p ∈ (s.fn f).spaces, p.2 ≠ ns) → (s.fn f).spaces.length < 128 →
    chargeWith s f ns sp ≤ (s.fn f).harness.capGib * 262144 → (sp.typ = .zoned → (s.fn f).harness.openZones ≠ 0) →
    ∃ t, exec (.namespaceAttach seq nsid f) s = .next t ∧ s.waits t seq ∧
      Tbl.get (t.fn f).spaces (if f = 0 then ns + 1 else freeKey (s.fn f).spaces 1) = some ns ∧
      t.norWaits.length = s.norWaits.length + 1 ∧ ∀ g, g ≠ f → t.fn g = s.fn g) ∧
  (∀ (s : State) (seq nsid ns f : Nat) (c : Cmd) (sp : Space), s.adminCmd seq = some c → c.fn = 0 →
    spaceOf s 0 nsid = some (ns, sp) → f ≤ 255 → (f ≠ 0 → (s.fn f).state ≠ .free) → held (s.fn f).state = false →
    (∃ p ∈ (s.fn f).spaces, p.2 = ns) →
    ∃ t, exec (.namespaceDetach seq nsid f) s = .next t ∧ s.waits t seq ∧ (∀ p ∈ (t.fn f).spaces, p.2 ≠ ns) ∧
      t.norWaits.length = s.norWaits.length + 1 ∧ ∀ g, g ≠ f → t.fn g = s.fn g)

/-- O36. Format NVM, crypto erase and a namespace deletion clear the map of the namespace. Format NVM (SES 000b) of one
namespace that nothing refuses, with no earlier I/O of it outstanding (else it waits), ends with success; every coarse
entry of the namespace is UNMAPPED, the namespace takes the new LBA format and keeps its mode, and namespaces with
other indices keep their entries. With SES 010b the command waits for the key record of the namespace, its key is
replaced (a generated one drawn, others left EMPTY) and the old one becomes the shadow; mode none ends with Invalid
Field. Deletion by the manager marks the namespace deleted, clears it and empties its key slot. -/
def Obligations.FormatAndDeleteClearTheNamespace : Prop :=
  (∀ (s : State) (seq nsid ns : Nat) (fmt : LbaFormat) (c : Cmd) (sp : Space), s.adminCmd seq = some c →
    formatCovers s c.fn nsid = [(ns, sp)] → s.space ns = some sp → formatRefused s c.fn [(ns, sp)] fmt = none →
    c.op = 0x80 → formatWaits s seq [ns] = false →
    ∃ t q, exec (.formatNvm seq nsid fmt) s = .next t ∧ t.cmd? seq = none ∧ (∀ u, u < 2 ^ 48 → coarseOf t ns u = Entry.unmapped) ∧
      (∀ m u, m ≠ ns → u < 2 ^ 48 → coarseOf t m u = coarseOf s m u) ∧ t.space ns = some q ∧ q.lbaf = fmt.index ∧ q.pi = fmt.pi ∧
      q.mode = sp.mode ∧ q.nsze = sp.nsze ∧ t.key = s.key) ∧
  (∀ (s : State) (seq nsid ns : Nat) (fmt : LbaFormat) (c : Cmd) (sp : Space), s.adminCmd seq = some c →
    formatCovers s c.fn nsid = [(ns, sp)] → formatRefused s c.fn [(ns, sp)] fmt = none → sp.mode = .none →
    c.op = 0x80 →
    ∃ t, exec (.formatNvmCryptoErase seq nsid fmt) s = .next t ∧ s.ends t seq stInvalidField 0 ∧ t.map = s.map) ∧
  (∀ (s : State) (seq nsid ns : Nat) (fmt : LbaFormat) (c : Cmd) (sp : Space), s.adminCmd seq = some c →
    formatCovers s c.fn nsid = [(ns, sp)] → s.space ns = some sp → formatRefused s c.fn [(ns, sp)] fmt = none →
    c.op = 0x80 → formatWaits s seq [ns] = false → sp.mode ≠ .none → s.key.health = true →
    ∃ t, exec (.formatNvmCryptoErase seq nsid fmt) s = .next t ∧
      (t.cmd? seq).map (fun d => d.body) = some .adminWait ∧
      (t.keySlot (keySlotNs ns)).shadow = (s.keySlot (keySlotNs ns)).key ∧
      (sp.source = .generated → (t.keySlot (keySlotNs ns)).key.isSome = true) ∧
      (sp.source ≠ .generated → (t.keySlot (keySlotNs ns)).key = none) ∧ t.shows eKEY_CRYPTO_ERASE ∧
      t.norWaits.length = s.norWaits.length + 1) ∧
  (∀ (s : State) (seq nsid ns : Nat) (fmt : LbaFormat) (c : Cmd) (sp : Space) (i : Instr), s.adminCmd seq = some c →
    formatCovers s c.fn nsid = [(ns, sp)] → formatRefused s c.fn [(ns, sp)] fmt = none → c.op = 0x80 →
    formatWaits s seq [ns] = true →
    i = .formatNvm seq nsid fmt ∨ (i = .formatNvmCryptoErase seq nsid fmt ∧ sp.mode ≠ .none ∧ s.key.health = true) →
    ∃ t, exec i s = .next t ∧ (t.cmd? seq).map (fun d => d.body) = some .undecoded ∧ Frame [.qmx] s t) ∧
  (∀ (s : State) (seq nsid ns : Nat) (c : Cmd) (sp : Space), s.adminCmd seq = some c → c.fn = 0 →
    sanitizing s = false → nsid ≠ 0xFFFFFFFF → spaceOf s 0 nsid = some (ns, sp) →
    ∃ t, exec (.namespaceDelete seq nsid) s = .next t ∧ t.cmd? seq = none ∧
      (∀ f p, p ∈ (t.fn f).spaces → p.2 ≠ ns) ∧ (t.space ns) = none ∧
      (t.keySlot (keySlotNs ns)).key = none)

/-- O37. Checkpoints and the rows of a sanitize complete as stated. CHECKPOINT_START at or above THRESH percent, and a
write of CKPT_NOW with bit 31, begin a checkpoint when none runs, a layout exists and the copies have room: the active
half is sealed and the other half takes new deltas. CKPT_DONE, when the pending root is on two journal mirrors in
service, adopts it: the sealed half is freed, its number is the checkpoint number and the event is set. DEMOTION with
enough free fine units changes no fine unit. For the manager, outside a sanitize: block erase completes at once and is
armed, with no span yet counted, and NOR remembers it. SANITIZE_COMPLETE, when every span is erased and the checkpoint
that it waits for is adopted, reports the operation completed (failed when blocks could not be erased), forgets it in
NOR and records it. Crypto erase ends with Invalid Field when a namespace has mode none; with no namespace it ends
with success and reports completed. -/
def Obligations.CheckpointsAndSanitizeComplete : Prop :=
  (∀ s : State, s.rd rMAP_THRESH ≤ deltaPct s → s.map.ckpt = .idle → s.par.layout.isSome = true →
    copyRoom s (changedPages s s.map.active).length = true →
    ∃ t, exec .checkpointStart s = .next t ∧ t.map.ckpt = .writing ∧ t.map.active = [] ∧
      t.map.sealed = s.map.active ++ s.map.sealed) ∧
  (∀ (s : State) (p : Path) (w : Dword), w.getLsbD 31 = true → s.map.ckpt = .idle → s.par.layout.isSome = true →
    copyRoom s (changedPages s s.map.active).length = true →
    ∃ t, exec (.ckptNow p w) s = .next t ∧ t.map.ckpt = .writing ∧ t.map.active = [] ∧
      t.map.sealed = s.map.active ++ s.map.sealed) ∧
  (∀ (s : State) (r : Root), s.par.rootPending = some r →
    2 ≤ (s.par.mirrors.filter fun m => m.service && m.hasRoot).length →
    ∃ t, exec .ckptDone s = .next t ∧ t.par.root = some r ∧ t.par.rootPending = none ∧ t.map.ckpt = .idle ∧
      t.map.ckptNum = r.map.ckptNum ∧ t.map.sealed = [] ∧ t.map.active = s.map.active ∧ t.shows eMAP_CKPT_DONE) ∧
  (∀ s : State, demotionRuns s = false → ∃ t, exec .demotion s = .next t ∧ t.map.fine = s.map.fine ∧
      t.map.demoting = false ∧ Frame [.map] s t) ∧
  (∀ (s : State) (f : Nat) (u : FineUnit) (l : List Nat), demotionRuns s = true →
    sweep s (s.rd rMAP_MIN_AGE) ((s.map.fine.filter fun p => decide (p.1 ≥ s.map.hand)) ++
      (s.map.fine.filter fun p => decide (p.1 < s.map.hand))) [] = (some (f, u), l) →
    ∃ t, exec .demotion s = .next t ∧ t.map.demoting = true ∧ t.map.hand = f + 1) ∧
  (∀ (s : State) (seq : Nat) (c : Cmd), s.adminCmd seq = some c → c.fn = 0 → sanitizing s = false →
    ∃ t, exec (.sanitizeBlockErase seq) s = .next t ∧ s.ends t seq stOk 0 ∧ t.rcl.sanitize = .armed ∧
      t.rcl.sanitizeSpans = [] ∧ t.nor.sanitize = true) ∧
  (∀ (s : State) (n : Nat), s.rcl.sanitizeCkpt = some n → s.rcl.sanitize = .erasing → s.rcl.sanitizeSpans = [] →
    n ≤ s.map.ckptNum →
    ∃ t, exec .sanitizeComplete s = .next t ∧
      t.rcl.sanitize = (if s.rcl.sanitizeBad = [] then .completed else .failed) ∧ t.nor.sanitize = false ∧
      t.hld.image = none ∧
      s.tells t lRCL_SANITIZE none (s.rcl.sanitizeBad.flatMap fun k => [p2 (k / 16384), p4 (k % 16384)])) ∧
  (∀ (s : State) (seq : Nat) (c : Cmd), s.adminCmd seq = some c → c.fn = 0 → sanitizing s = false →
    (∃ p ∈ liveSpaces s, p.2.mode = .none) →
    ∃ t, exec (.sanitizeCryptoErase seq) s = .next t ∧ s.ends t seq stInvalidField 0 ∧ t.map = s.map ∧
      t.key = s.key) ∧
  (∀ (s : State) (seq : Nat) (c : Cmd), s.adminCmd seq = some c → c.fn = 0 → sanitizing s = false →
    liveSpaces s = [] → formatWaits s seq [] = false →
    ∃ t, exec (.sanitizeCryptoErase seq) s = .next t ∧ s.ends t seq stOk 0 ∧ t.rcl.sanitize = .completed) ∧
  (∀ (s : State) (seq ns : Nat) (sp : Space) (c : Cmd), s.adminCmd seq = some c → c.fn = 0 → sanitizing s = false →
    liveSpaces s = [(ns, sp)] → sp.mode ≠ .none → s.key.health = true → formatWaits s seq [ns] = false →
    ∃ t, exec (.sanitizeCryptoErase seq) s = .next t ∧ t.rcl.sanitize = .completed ∧
      (t.cmd? seq).map (fun d => d.body) = some .adminWait ∧
      (t.keySlot (keySlotNs ns)).shadow = (s.keySlot (keySlotNs ns)).key ∧ t.shows eKEY_CRYPTO_ERASE)

/-- O38. Log pages and Identify answer their bytes. Get Log Page of a page the function may read answers the page's bytes
from the offset, an offset past its end ends with Invalid Field, and an absent page ends with Invalid Log Page; the
thermal, die roster and redundancy pages answer any function. The ledger pages answer the manager alone: a tenant's
command ends with Invalid Field and answers nothing. Identify answers the structure that CNS, NSID, CNTID and CSI
select, or ends with the status that refuses it. -/
def Obligations.LogPagesAndIdentifyAnswer : Prop :=
  (∀ (s : State) (seq lid off len : Nat) (c : Cmd), s.adminCmd seq = some c → ownPage lid = false →
    (∀ b, nvmePage s c.fn lid = some b → off ≤ b.length →
      ∃ t, exec (.getLogPage seq lid off len) s = .next t ∧ s.ends t seq stOk 0 ∧ t.ans = .bytes (slice b off len)) ∧
    (nvmePage s c.fn lid = none →
      ∃ t, exec (.getLogPage seq lid off len) s = .next t ∧ s.ends t seq stInvalidLogPage 0 ∧ t.ans = s.ans) ∧
    (∀ b, nvmePage s c.fn lid = some b → b.length < off →
      ∃ t, exec (.getLogPage seq lid off len) s = .next t ∧ s.ends t seq stInvalidField 0 ∧ t.ans = s.ans)) ∧
  (∀ (s : State) (seq off len : Nat) (c : Cmd) (i : Instr) (b : List Byte), s.adminCmd seq = some c →
    off ≤ b.length →
    (i = .getLogPageThermal seq off len ∧ b = thermalPage s) ∨
      (i = .getLogPageDieRoster seq off len ∧ b = rosterPage s) ∨
      (i = .getLogPageRedundancy seq off len ∧ b = redundancyPage s) →
    ∃ t, exec i s = .next t ∧ s.ends t seq stOk 0 ∧ t.ans = .bytes (slice b off len)) ∧
  (∀ (s : State) (seq k len : Nat) (c : Cmd), s.adminCmd seq = some c → c.fn = 0 →
    (∃ t, exec (.getLogPageLedger seq (64 * k) len) s = .next t ∧ s.ends t seq stOk 0 ∧
      t.ans = .bytes (slice (ledgerPage s.evl k ((len + 63) / 64)) 0 len)) ∧
    (∃ t, exec (.getLogPageLedgerSummary seq len) s = .next t ∧ s.ends t seq stOk 0 ∧
      t.ans = .bytes (slice (ledgerSummary s.evl) 0 len))) ∧
  (∀ (s : State) (seq off len : Nat) (c : Cmd) (i : Instr), s.adminCmd seq = some c → c.fn ≠ 0 →
    i = .getLogPageLedger seq off len ∨ i = .getLogPageLedgerSummary seq len →
    ∃ t, exec i s = .next t ∧ s.ends t seq stInvalidField 0 ∧ t.ans = s.ans) ∧
  (∀ (s : State) (seq cns nsid cntid csi : Nat) (c : Cmd), s.adminCmd seq = some c →
    (∀ b, identifyData s c.fn cns nsid cntid csi = .ok b →
      ∃ t, exec (.identify seq cns nsid cntid csi) s = .next t ∧ s.ends t seq stOk 0 ∧ t.ans = .bytes b) ∧
    (∀ x, identifyData s c.fn cns nsid cntid csi = .error x →
      ∃ t, exec (.identify seq cns nsid cntid csi) s = .next t ∧ s.ends t seq x 0 ∧ t.ans = s.ans))

/-- O39. Firmware download, commit and activation complete as stated. For the manager, outside a sanitize: Firmware Image
Download of whole dwords within 16 MiB that meet no earlier piece keeps the piece. A Commit of a downloaded image that
KEY accepts stores it in the slot: action 001b ends, 010b ends and names the slot for the next controller-level reset,
011b waits and arms the activation; without a download 010b and 011b take the image of the slot (the model's choice
for that image) and 001b is refused; an image that fails verification ends each with Invalid Firmware Image and leaves
the slots as they were. FW_ACTIVATION_STOP sets CSTS.PP everywhere, stops fetch and records QMX_ACT_START; SWITCH,
with no admitted command left, runs the new slot; RESUME clears CSTS.PP, ends the Commit and records QMX_ACT_DONE. -/
def Obligations.FirmwareCommandsComplete : Prop :=
  (∀ (s : State) (seq off : Nat) (data : List Byte) (c : Cmd), s.adminCmd seq = some c → c.fn = 0 →
    sanitizing s = false → data ≠ [] → data.length % 4 = 0 → off % 4 = 0 → off + data.length ≤ 16777216 →
    (∀ p ∈ s.qmx.download, off + data.length ≤ p.1 ∨ p.1 + p.2.length ≤ off) →
    ∃ t, exec (.firmwareImageDownload seq off data) s = .next t ∧ s.ends t seq stOk 0 ∧
      Tbl.get t.qmx.download off = some data ∧ t.nor = s.nor) ∧
  (∀ (s : State) (seq fs k : Nat) (c : Cmd) (b : List Byte), s.adminCmd seq = some c → c.fn = 0 →
    sanitizing s = false → s.qmx.act = .idle → commitSlot s fs = some k → s.qmx.download ≠ [] →
    joinPieces s.qmx.download 0 = some b → fwReason s (parseImage b) = none →
    (∃ t, exec (.firmwareCommitStore seq fs) s = .next t ∧ s.ends t seq stOk 0 ∧
      Tbl.get t.nor.fw k = some (parseImage b) ∧ t.nor.fwNext = s.nor.fwNext ∧ t.bot.fwSlot = s.bot.fwSlot) ∧
    (∃ t, exec (.firmwareCommitNextReset seq fs) s = .next t ∧ s.ends t seq stOk 0 ∧
      Tbl.get t.nor.fw k = some (parseImage b) ∧ t.nor.fwNext = k ∧ t.bot.fwSlot = s.bot.fwSlot) ∧
    (∃ t, exec (.firmwareCommitImmediate seq fs) s = .next t ∧ s.waits t seq ∧
      Tbl.get t.nor.fw k = some (parseImage b) ∧ t.nor.fwNext = k ∧ t.qmx.act = .armed ∧ t.qmx.actSlot = k ∧
      t.qmx.actCmd = some seq)) ∧
  (∀ (s : State) (seq fs k : Nat) (c : Cmd), s.adminCmd seq = some c → c.fn = 0 →
    sanitizing s = false → s.qmx.act = .idle → commitSlot s fs = some k → s.qmx.download = [] →
    fwReason s (s.fwSlot k) = none →
    (∃ t, exec (.firmwareCommitNextReset seq fs) s = .next t ∧ s.ends t seq stOk 0 ∧
      t.fwSlot k = s.fwSlot k ∧ t.nor.fwNext = k ∧ t.bot.fwSlot = s.bot.fwSlot) ∧
    (∃ t, exec (.firmwareCommitImmediate seq fs) s = .next t ∧ s.waits t seq ∧
      t.fwSlot k = s.fwSlot k ∧ t.qmx.act = .armed ∧ t.qmx.actSlot = k ∧ t.qmx.actCmd = some seq) ∧
    (∃ t, exec (.firmwareCommitStore seq fs) s = .next t ∧ s.ends t seq stInvalidFwImage 0 ∧ t.nor = s.nor)) ∧
  (∀ (s : State) (seq fs k : Nat) (c : Cmd) (b : List Byte) (r : Nat) (i : Instr), s.adminCmd seq = some c → c.fn = 0 →
    sanitizing s = false → s.qmx.act = .idle → commitSlot s fs = some k → s.qmx.download ≠ [] →
    joinPieces s.qmx.download 0 = some b → fwReason s (parseImage b) = some r →
    i ∈ [Instr.firmwareCommitStore seq fs, .firmwareCommitNextReset seq fs, .firmwareCommitImmediate seq fs] →
    ∃ t, exec i s = .next t ∧ s.ends t seq stInvalidFwImage 0 ∧ t.nor = s.nor) ∧
  (∀ s : State, s.qmx.act = .armed →
    ∃ t, exec .fwActivationStop s = .next t ∧ t.qmx.act = .draining 0 ∧ fetchStop t = true ∧
      (∀ f x, Tbl.get s.fns f = some x → (t.fn f).pp = true) ∧ t.shows eQMX_ACT_START ∧
      s.tells t lQMX_ACT_START none []) ∧
  (∀ (s : State) (n : Nat), s.qmx.act = .draining n → (∀ c ∈ s.qmx.cmds, c.admitted = false) ∨ drainLimit s ≤ n →
    ∃ t, exec .fwActivationSwitch s = .next t ∧ t.qmx.act = .switched ∧ t.bot.fwSlot = s.qmx.actSlot ∧
      t.qmx.cmds = s.qmx.cmds) ∧
  (∀ (s : State) (seq : Nat) (c : Cmd), s.qmx.act = .switched → s.qmx.actCmd = some seq → s.cmd? seq = some c →
    ∃ t, exec .fwActivationResume s = .next t ∧ t.qmx.act = .idle ∧ t.cmd? seq = none ∧
      (∀ f x, Tbl.get s.fns f = some x → (t.fn f).pp = false) ∧ t.shows eQMX_ACT_DONE ∧
      s.tells t lQMX_ACT_DONE none [])

/-- O40. Self-test, secondary controllers and security commands complete as stated. For the manager: Device Self-test 1 or
2 with none running starts one now, and 15 ends the one that runs with result 1; a secondary controller is taken
online or offline, and an enabled one that goes offline is disabled and reset. Security Receive of protocol 00h
answers the list of protocols; Security Send to another protocol that is there keeps the payload for that function. A
function that drains, is frozen or saved answers Function Frozen, and a controller number that names no function
Invalid Controller Identifier. -/
def Obligations.SelfTestControllersAndSecurity : Prop :=
  (∀ (s : State) (seq nsid stc : Nat) (c : Cmd), s.adminCmd seq = some c → c.fn = 0 → sanitizing s = false →
    nsid = 0 ∨ nsid = 0xFFFFFFFF ∨ (spaceOf s 0 nsid).isSome → stc = 1 ∨ stc = 2 → s.cpx.selfTest = none →
    ∃ t x, exec (.deviceSelfTest seq nsid stc) s = .next t ∧ s.ends t seq stOk 0 ∧ t.cpx.selfTest = some x ∧
      x.code = stc ∧ x.start = s.tbs.clk ∧ x.nsid = nsid) ∧
  (∀ (s : State) (seq nsid : Nat) (c : Cmd) (x : SelfTest), s.adminCmd seq = some c → c.fn = 0 →
    sanitizing s = false → nsid = 0 ∨ nsid = 0xFFFFFFFF ∨ (spaceOf s 0 nsid).isSome → s.cpx.selfTest = some x →
    ∃ t r, exec (.deviceSelfTest seq nsid 15) s = .next t ∧ s.ends t seq stOk 0 ∧ t.cpx.selfTest = none ∧
      t.cpx.results = (r :: s.cpx.results).take 20 ∧ r.code = x.code ∧ r.result = 1) ∧
  (∀ (s : State) (seq f : Nat) (c : Cmd), s.adminCmd seq = some c → c.fn = 0 → f ≠ 0 → f ≤ 255 →
    (s.fn f).state ≠ .free → held (s.fn f).state = false →
    (∃ t, exec (.secondaryControllerOnline seq f) s = .next t ∧ s.ends t seq stOk 0 ∧ (t.fn f).offline = false) ∧
    (∃ t, exec (.secondaryControllerOffline seq f) s = .next t ∧ s.ends t seq stOk 0 ∧ (t.fn f).offline = true ∧
      (t.fn f).enabled = false ∧ ((s.fn f).enabled = true → (t.fn f).flrArm = some .ccEn))) ∧
  (∀ (s : State) (seq f : Nat) (c : Cmd) (i : Instr), s.adminCmd seq = some c → c.fn = 0 →
    f = 0 ∨ 255 < f ∨ (s.fn f).state = .free →
    i = .secondaryControllerOnline seq f ∨ i = .secondaryControllerOffline seq f →
    ∃ t, exec i s = .next t ∧ s.ends t seq stInvalidCtrlId 0 ∧ Frame [.qmx, .fns] s t) ∧
  (∀ (s : State) (seq f : Nat) (c : Cmd) (i : Instr), s.adminCmd seq = some c → c.fn = 0 → f ≠ 0 → f ≤ 255 →
    held (s.fn f).state = true →
    i = .secondaryControllerOnline seq f ∨ i = .secondaryControllerOffline seq f →
    ∃ t, exec i s = .next t ∧ s.ends t seq stFrozen 0 ∧ Frame [.qmx, .fns] s t) ∧
  (∀ (s : State) (seq secp spsp : Nat) (data : List Byte) (c : Cmd), s.adminCmd seq = some c → 1 ≤ secp → secp ≤ 255 →
    spsp ≤ 65535 → Config.securityProtocol secp spsp = true →
    ∃ t, exec (.securitySend seq secp spsp data) s = .next t ∧ s.ends t seq stOk 0 ∧
      Tbl.get t.key.secure (secKey c.fn secp spsp) = some data) ∧
  (∀ (s : State) (seq len : Nat) (c : Cmd), s.adminCmd seq = some c →
    ∃ t b, exec (.securityReceive seq 0 0 len) s = .next t ∧ s.ends t seq stOk 0 ∧ t.ans = .bytes b ∧ b.length = len) ∧
  (∀ (s : State) (seq : Nat) (data : List Byte) (spsp : Nat) (c : Cmd), s.adminCmd seq = some c →
    ∃ t, exec (.securitySend seq 0 spsp data) s = .next t ∧ s.ends t seq stInvalidField 0 ∧ t.key = s.key) ∧
  (∀ (s : State) (seq secp spsp len : Nat) (c : Cmd), s.adminCmd seq = some c → 1 ≤ secp → secp ≤ 255 →
    spsp ≤ 65535 → Config.securityProtocol secp spsp = true →
    ∃ t, exec (.securityReceive seq secp spsp len) s = .next t ∧ s.ends t seq stOk 0 ∧
      t.ans = .bytes (slice (Config.securityAnswer secp spsp (Tbl.getD s.key.secure (secKey c.fn secp spsp) []) s.draws)
        0 len))

/-- O41. A LO read answers the low word and latches the rest for its own path alone. Each read of the low word of a wide
register answers bits [31:0] of its value and latches the upper part at the HI offset of that path: TBS (SECONDS, with
STRIDE_IN_SEC and NS_IN_STRIDE), EVL (newest and oldest SEQ), THM (SENSE_BAD), KEY (KCV of the slot that the path
selected), TEN (migration serial), MAP (checkpoint number), PAR (journal sequence), RCL (copied and hosted), LDC
(bits) and BOT (the serial's words). No other path's latches, selectors or upper parts change, and nothing else of the
block does but the clock domains that the access wakes. -/
def Obligations.LowReadsLatchOnlyTheirPath : Prop :=
  (∀ (s : State) (p : Path) (i : Instr) (n blk off : Nat),
    (i = .evlNewestLoRead p ∧ n = s.evl.newest ∧ blk = 3 ∧ off = 0x44) ∨
      (i = .evlOldestLoRead p ∧ n = s.evl.oldest ∧ blk = 3 ∧ off = 0x4C) ∨
      (i = .thmSenseBadLoRead p ∧ blk = 4 ∧ off = 0x6C ∧ n < 2 ^ 64 ∧ ∀ c, c < 64 → n.testBit c = (s.hk c).broken) ∨
      (i = .keyKcvLoRead p ∧ blk = 6 ∧ off = 0x50 ∧
        n = ((s.keySlot (selected s p rKEY_SLOT_SEL 0)).key.map kcv).getD 0) ∨
      (i = .tenMigSerialLoRead p ∧ n = s.ten.migSerial ∧ blk = 12 ∧ off = 0x78) ∨
      (i = .mapCkptNumLoRead p ∧ n = s.map.ckptNum ∧ blk = 13 ∧ off = 0x6C) ∨
      (i = .parJseqLoRead p ∧ n = s.par.jseq ∧ blk = 16 ∧ off = 0x94) ∨
      (i = .rclCopyLoRead p ∧ n = s.rcl.copied ∧ blk = 17 ∧ off = 0x94) ∨
      (i = .rclHostLoRead p ∧ n = s.rcl.hosted ∧ blk = 17 ∧ off = 0x9C) ∨
      (i = .ldcBitsLoRead p ∧ n = s.ldc.bits ∧ blk = 18 ∧ off = 0x6C) →
    ∃ t, exec i s = .next t ∧ t.ans = .word (BitVec.ofNat 32 n) ∧
      t.latched p blk off = BitVec.ofNat 32 (n / 2 ^ 32) ∧
      (∀ b o, b * 4096 + o ≠ blk * 4096 + off → t.latched p b o = s.latched p b o) ∧
      (∀ q, q ≠ p → t.path q = s.path q) ∧ Frame [.ans, .gate, .paths] s t) ∧
  (∀ (s : State) (p : Path) (ns : Nat), ns ≤ 7999 →
    ∃ t, exec (.tbsSecLoRead p ns) s = .next t ∧ t.ans = .word (BitVec.ofNat 32 s.seconds) ∧
      t.latched p 2 0x44 = BitVec.ofNat 32 (s.seconds / 2 ^ 32) ∧
      t.latched p 2 0x48 = BitVec.ofNat 32 (s.tbs.strideInSec + 131072 * ns) ∧
      (∀ q, q ≠ p → t.path q = s.path q) ∧ Frame [.ans, .gate, .paths] s t) ∧
  (∀ (s : State) (p : Path),
    ∃ t, exec (.botSerial0Read p) s = .next t ∧ t.ans = .word (BitVec.ofNat 32 s.fuses.serial.toNat) ∧
      (∀ k, 1 ≤ k → k ≤ 3 →
        t.latched p 1 (0x70 + 4 * k) = BitVec.ofNat 32 (s.fuses.serial.toNat / 2 ^ (32 * k))) ∧
      (∀ q, q ≠ p → t.path q = s.path q) ∧ Frame [.ans, .gate, .paths] s t)

/-- O42. Ledger records are programmed in order, the windows answer by SEQ, the watermark moves up only. Out of XSPI
reset, LEDGER_RECORD_PROGRAM programs the front of the queue at the next location under the newest SEQ plus one.
LEDGER_PROGRAM_DONE, verified, makes that record exist and puts it in the mirror; a failed verify counts NOR_FAIL,
leaves the location torn and returns the record to the front of the queue, before the 16th failure in a row. LOAD and
NEXT clear VALID and advance the path's serial, and NEXT moves the cursor to the next SEQ; WINDOW_RESULT answers FOUND
with the record of the cursor, NOT_YET above the newest, and below the oldest moves to it (codes 0, 2, 1, and 3 for a
gap). WMARK_LO takes WMARK_HI:WMARK_LO from the manager within its bounds and otherwise changes nothing. EVL_WMARK
after 60 s writes its record. Only the commands of the ring touch it. -/
def Obligations.LedgerRingAndWindowsWork : Prop :=
  (∀ (s : State) (r : LRec) (q : List LRec), s.evl.programming = none → s.evl.queue = r :: q →
    s.evl.norStopped = false → s.evl.restored = true → xspiReset s = false → s.evl.erasing ≠ some (s.evl.next / 64) →
    ∃ t, exec .ledgerRecordProgram s = .next t ∧
      t.evl.programming = some (s.evl.next, { r with seq := newestSeq s.evl + 1 }) ∧ t.evl.next = s.evl.next ∧
      t.evl.mirror = s.evl.mirror ∧
      (s.evl.next % 64 ≠ 0 → t.evl.ring = s.evl.ring ∧ t.evl.queue = q) ∧
      ∀ x, x ∈ t.evl.ring ↔ x ∈ s.evl.ring ∧ (s.evl.next % 64 = 0 → x.1 / 64 ≠ (s.evl.next / 64 + 1) % 2048)) ∧
  (∀ (s : State) (loc : Nat) (r : LRec), s.evl.programming = some (loc, r) →
    (∃ t, exec (.ledgerProgramDone true) s = .next t ∧ Tbl.get t.evl.ring loc = some r ∧
      t.evl.next = (loc + 1) % 131072 ∧ t.evl.programming = none ∧ t.evl.failRun = 0 ∧
      t.evl.mirror = (r :: s.evl.mirror).take 16384 ∧ t.evl.queue = s.evl.queue ∧
      ∀ k, k ≠ loc → Tbl.get t.evl.ring k = Tbl.get s.evl.ring k) ∧
    (s.evl.failRun < 15 →
      ∃ t, exec (.ledgerProgramDone false) s = .next t ∧ t.evl.ring = s.evl.ring ∧ t.evl.queue = r :: s.evl.queue ∧
        t.evl.torn = loc :: s.evl.torn ∧ t.evl.next = (loc + 1) % 131072 ∧ t.evl.failRun = s.evl.failRun + 1 ∧
        t.evl.norStopped = s.evl.norStopped ∧ t.evl.mirror = s.evl.mirror ∧ Frame [.evl, .regs] s t) ∧
    (15 ≤ s.evl.failRun →
      ∃ t, exec (.ledgerProgramDone false) s = .next t ∧ t.evl.ring = s.evl.ring ∧ t.evl.norStopped = true ∧
        t.evl.queue = [] ∧ t.shows eEVL_NOR_ERR)) ∧
  (∀ (s : State) (p : Path),
    (∃ t, exec (.windowLoad p) s = .next t ∧ (t.window p).valid = false ∧
      (t.window p).serial = (s.window p).serial + 1 ∧ (t.window p).cursor = (s.window p).cursor ∧
      (∀ q, q ≠ p → t.window q = s.window q) ∧ Frame [.evl] s t ∧ t.evl.ring = s.evl.ring) ∧
    (∃ t, exec (.windowNext p) s = .next t ∧ (t.window p).valid = false ∧
      (t.window p).serial = (s.window p).serial + 1 ∧
      (∀ n, s.evl.above (s.window p).cursor.toNat = some n → (t.window p).cursor = BitVec.ofNat 48 n) ∧
      (∀ q, q ≠ p → t.window q = s.window q) ∧ Frame [.evl] s t ∧ t.evl.ring = s.evl.ring)) ∧
  (∀ (s : State) (p : Path) (last : Bool), (s.window p).pending = some last →
    ∃ t, exec (.windowResult p) s = .next t ∧ (t.window p).valid = true ∧ (t.window p).pending = none ∧
      (t.window p).serial = (s.window p).serial ∧
      (s.evl.newest < (s.window p).cursor.toNat →
        (t.window p).result = 2 ∧ (t.window p).record = none ∧ (t.window p).cursor = (s.window p).cursor) ∧
      (∀ r, last = false → (s.window p).cursor.toNat ≤ s.evl.newest → s.evl.oldest ≤ (s.window p).cursor.toNat →
        s.evl.find (s.window p).cursor.toNat = some r →
        (t.window p).result = 0 ∧ (t.window p).record = some r ∧ (t.window p).cursor = (s.window p).cursor) ∧
      (last = false → (s.window p).cursor.toNat < s.evl.oldest → s.evl.oldest ≤ s.evl.newest →
        (t.window p).result = 1 ∧ (t.window p).record = s.evl.find s.evl.oldest ∧
        (t.window p).cursor = BitVec.ofNat 48 s.evl.oldest) ∧
      (last = false → s.evl.records ≠ [] → (s.window p).cursor.toNat ≤ s.evl.newest →
        s.evl.oldest ≤ (s.window p).cursor.toNat → s.evl.find (s.window p).cursor.toNat = none →
        (t.window p).result = 3 ∧ (t.window p).record = none) ∧
      (last = true → (t.window p).result = 2 ∧ (t.window p).record = none) ∧
      (∀ q, q ≠ p → t.window q = s.window q) ∧ Frame [.evl] s t) ∧
  (∀ (s : State) (lo : Dword) (v : Nat), v = s.upper .manager rEVL_WMARK_HI * 2 ^ 32 + lo.toNat →
    (s.evl.wmark ≤ v → v ≤ s.evl.newest + 1 →
      ∃ t, exec (.watermarkWrite .manager lo) s = .next t ∧ t.evl.wmark = v ∧ t.evl.ring = s.evl.ring) ∧
    (v < s.evl.wmark ∨ s.evl.newest + 1 < v → exec (.watermarkWrite .manager lo) s = .next s) ∧
    exec (.watermarkWrite .bmc lo) s = .next s ∧ exec (.watermarkWrite .jtag lo) s = .next s) ∧
  (∀ (s : State) (b : Nat), s.evl.wmarkDue = some b → b + 60000000000 ≤ s.tbs.clk →
    ∃ t, exec .evlWmark s = .next t ∧ t.evl.wmarkDue = none ∧ t.evl.wmark = s.evl.wmark ∧
      s.tells t lEVL_WMARK none [p6 s.evl.wmark]) ∧
  (∀ (s : State) (n : Nat), s.evl.erasing = some n →
    ∃ t, exec .ledgerSectorEraseDone s = .next t ∧ t.evl.erasing = none ∧ t.evl.ring = s.evl.ring ∧
      Frame [.evl] s t)

/-- O43. Event bits, the captured error, SEAL and SOFT_RESET of a page act as stated. On a page that exists: a W1C write
of EVT_RAW clears the written bits but those that the hardware sets in the same cycle and EVL's AEN while its
condition holds, and every event set counts; EVT_FORCE sets and counts the implemented bits of its word, writes no
ledger record, and is ignored while SEAL is set; ERR_ACK releases ERR_FIRST and ERR_ADDR and nothing else; a seal is
set and stays through a soft reset; BLOCK_SOFT_RESET of a block other than BOT clears EVT_RAW and EVT_COUNT but for
the events of the same cycle, ERR_FIRST and ERR_ADDR and the block's saturating counters and leaves EVT_MASK, SEAL,
CTRL and every other stored field. Other pages are untouched. -/
def Obligations.PageHeadersAct : Prop :=
  (∀ (s : State) (p : Nat) (w same : Dword), pageExists p = true →
    ∃ t, exec (.evtRawClear p w same) s = .next t ∧
      (∀ b, b < evtBits p → (t.page p).evtRaw.getLsbD b =
        (same.getLsbD b || ((s.page p).evtRaw.getLsbD b &&
          (!w.getLsbD b || decide (p = 3 ∧ b = 0 ∧ s.evl.aen = true))))) ∧
      ((s.page p).evtCount ≤ 0xFFFFFFFF → (t.page p).evtCount =
        min ((s.page p).evtCount + ((List.range (evtBits p)).filter fun b => same.getLsbD b).length) 0xFFFFFFFF) ∧
      (t.page p).evtMask = (s.page p).evtMask ∧ (t.page p).sealBit = (s.page p).sealBit ∧
      (∀ q, q ≠ p → t.page q = s.page q) ∧ Frame [.gate, .pages] s t) ∧
  (∀ (s : State) (p : Nat) (w : Dword), pageExists p = true → (s.page p).sealBit = false →
    ∃ t, exec (.evtForce p w) s = .next t ∧
      (∀ b, b < evtBits p → (t.page p).evtRaw.getLsbD b = (w.getLsbD b || (s.page p).evtRaw.getLsbD b)) ∧
      ((s.page p).evtCount ≤ 0xFFFFFFFF → (t.page p).evtCount =
        min ((s.page p).evtCount + ((List.range (evtBits p)).filter fun b => w.getLsbD b).length) 0xFFFFFFFF) ∧
      (∀ q, q ≠ p → t.page q = s.page q) ∧ Frame [.gate, .pages] s t) ∧
  (∀ (s : State) (p : Nat) (w : Dword), (s.page p).sealBit = true →
    ∃ t, exec (.evtForce p w) s = .next t ∧ Frame [.gate] s t) ∧
  (∀ (s : State) (p : Nat), pageExists p = true →
    (∃ t, exec (.errAck p) s = .next t ∧
      t.page p = { s.page p with errValid := false, errCode := 0, errFunc := 0, errMore := 0, errAddr := 0 } ∧
      (∀ q, q ≠ p → t.page q = s.page q) ∧ Frame [.gate, .pages] s t) ∧
    (∃ t, exec (.sealBlock p) s = .next t ∧ t.page p = { s.page p with sealBit := true } ∧
      (∀ q, q ≠ p → t.page q = s.page q) ∧ Frame [.gate, .pages] s t)) ∧
  (∀ (s : State) (p : Nat) (same : Dword), pageExists p = true → p ≠ 1 →
    ∃ t, exec (.blockSoftReset p same) s = .next t ∧
      (∀ b, b < evtBits p → (t.page p).evtRaw.getLsbD b = same.getLsbD b) ∧
      (t.page p).evtCount = ((List.range (evtBits p)).filter fun b => same.getLsbD b).length ∧
      (t.page p).errValid = false ∧ (t.page p).errAddr = 0 ∧ (t.page p).sealBit = (s.page p).sealBit ∧
      (t.page p).evtMask = (s.page p).evtMask ∧ (t.page p).enable = (s.page p).enable ∧
      (∀ f ∈ fieldsOf (pageBlk p), f.sat = true → ∀ k, k < f.n → t.rdAt f (pageInst p) k = f.reset) ∧
      (∀ f n k, (∀ g ∈ fieldsOf (pageBlk p), g.sat = true → ∀ j, j < g.n →
        fieldKey g (pageInst p) j ≠ fieldKey f n k) → t.rdAt f n k = s.rdAt f n k) ∧
      (∀ q, q ≠ p → t.page q = s.page q) ∧ Frame [.gate, .pages, .regs] s t)

/-- O44. Register writes, messages and JTAG accesses take effect in range and unsealed, and are dropped otherwise. Shown
on TEN BG_MAX (RW-S, 10-50), at 0x00C0_0058: a write by a path that reaches the window, to the released and unsealed
block, stores a value in range and changes no other stored field; a value out of range changes no field; under SEAL
the field keeps its value and BOT SEALED_WR counts the write. A path that does not reach the window changes nothing,
and a manager's write that is not one whole dword is only counted in BAD_SIZE. A read message of 1 to 16 words answers
status 0 and as many words; a count outside that is refused with REG_ACCESS_ERR. JTAG reads zeros and writes nothing
while JTAG_REG_EN is 0. An interface address written through the selected interface is stored for it. -/
def Obligations.RegisterAccessesReadAndWrite : Prop :=
  (∀ (s : State) (p : Path) (port : Nat) (w : Dword), pathWrites s p port = true → released s 12 = true →
    ((s.page 12).sealBit = false → 10 ≤ w.toNat % 64 → w.toNat % 64 ≤ 50 →
      ∃ t, exec (.registerWrite p port 0xC00058 w true 0 0) s = .next t ∧ t.rd rTEN_BG_MAX = w.toNat % 64 ∧
        (∀ f n k, fieldKey f n k ≠ fieldKey rTEN_BG_MAX 0 0 → t.rdAt f n k = s.rdAt f n k) ∧
        Frame [.gate, .regs] s t) ∧
    ((s.page 12).sealBit = false → w.toNat % 64 < 10 ∨ 50 < w.toNat % 64 →
      ∃ t, exec (.registerWrite p port 0xC00058 w true 0 0) s = .next t ∧ Frame [.gate] s t) ∧
    ((s.page 12).sealBit = true → s.cntHeld 1 = false → s.rd rBOT_SEALED_WR < 65535 →
      ∃ t, exec (.registerWrite p port 0xC00058 w true 0 0) s = .next t ∧
        t.rd rTEN_BG_MAX = s.rd rTEN_BG_MAX ∧ t.rd rBOT_SEALED_WR = s.rd rBOT_SEALED_WR + 1 ∧
        Frame [.gate, .regs] s t)) ∧
  (∀ (s : State) (p : Path) (port addr : Nat) (w : Dword) (b : Bool), pathWrites s p port = false →
    exec (.registerWrite p port addr w b 0 0) s = .next s) ∧
  (∀ (s : State) (port addr : Nat) (w : Dword), pathWrites s .manager port = true →
    exec (.registerWrite .manager port addr w false 0 0) s = .next (s.bump rBOT_BAD_SIZE 1)) ∧
  (∀ (s : State) (off n ns : Nat), sbiUp s = true → s.sbi.eid ≠ 0 → windowUp s .bmc = true →
    (1 ≤ n → n ≤ 16 → off % 4 = 0 → off + 4 * n ≤ 2 ^ 26 →
      ∃ t ws, exec (.registerReadMessage true off n ns) s = .next t ∧ t.ans = .words 0 ws ∧ ws.length = n ∧
        Frame [.ans, .gate, .paths, .regs] s t) ∧
    (n = 0 ∨ 16 < n →
      ∃ t, exec (.registerReadMessage true off n ns) s = .next t ∧ t.ans = .words 2 [] ∧ t.shows eSBI_REG_ACCESS_ERR ∧
        Frame [.ans, .gate, .pages, .regs] s t) ∧
    (1 ≤ n → n ≤ 16 → off % 4 ≠ 0 ∨ 2 ^ 26 < off + 4 * n →
      ∃ t, exec (.registerReadMessage true off n ns) s = .next t ∧ t.ans = .words 1 [] ∧ t.shows eSBI_REG_ACCESS_ERR ∧
        Frame [.ans, .gate, .pages, .regs] s t)) ∧
  (∀ (s : State) (w : Dword), sbiUp s = true → s.sbi.eid ≠ 0 → windowUp s .bmc = true → released s 12 = true →
    (s.page 12).sealBit = false → 10 ≤ w.toNat % 64 → w.toNat % 64 ≤ 50 →
    ∃ t, exec (.registerWriteMessage true 0xC00058 [w] 0 0) s = .next t ∧ t.ans = .words 0 [] ∧
      t.rd rTEN_BG_MAX = w.toNat % 64 ∧ Frame [.ans, .gate, .regs] s t) ∧
  (∀ (s : State) (ws : List Dword) (off : Nat), sbiUp s = true → s.sbi.eid ≠ 0 → windowUp s .bmc = true →
    ws = [] ∨ 16 < ws.length →
    ∃ t, exec (.registerWriteMessage true off ws 0 0) s = .next t ∧ t.ans = .words 2 [] ∧
      Frame [.ans, .gate, .pages, .regs] s t) ∧
  (∀ (s : State) (addr ns : Nat) (w : Dword), windowUp s .jtag = true → addr % 4 = 0 →
    (s.rd rSBI_JTAG_REG_EN = 0 →
      (∃ t, exec (.jtagRegisterAccess addr (some w) ns 0 0) s = .next t ∧ Frame [.gate] s t) ∧
      ∃ t, exec (.jtagRegisterAccess addr none ns 0 0) s = .next t ∧ t.ans = .word 0 ∧ Frame [.ans, .gate] s t) ∧
    (s.rd rSBI_JTAG_REG_EN = 1 →
      (∃ t, exec (.jtagRegisterAccess 0xC00000 none ns 0 0) s = .next t ∧ t.ans = .word 0x0C000100 ∧
        Frame [.ans, .gate] s t) ∧
      (released s 12 = true → (s.page 12).sealBit = false → 10 ≤ w.toNat % 64 → w.toNat % 64 ≤ 50 →
        ∃ t, exec (.jtagRegisterAccess 0xC00058 (some w) ns 0 0) s = .next t ∧ t.rd rTEN_BG_MAX = w.toNat % 64 ∧
          Frame [.gate, .regs] s t))) ∧
  (∀ (s : State) (p : Path) (w : Dword), released s 9 = true → (s.page 9).sealBit = false →
    (∃ t, exec (.interfaceAddressWrite p 0x50 w) s = .next t ∧
      t.rdBank rNET_IPV4 0 (selected t p rNET_IF_SEL 0) = w.toNat) ∧
    ∀ k, k < 4 → ∃ t, exec (.interfaceAddressWrite p (0x60 + 4 * k) w) s = .next t ∧
      t.rdBank rNET_IPV6k k (selected t p rNET_IF_SEL 0) = w.toNat)

/-- O45. MCTP, NVMe-MI, UART and JTAG pin requests answer and act as stated. Over powered SMBus after phase 2: a message
with a bad PEC is counted and changes nothing else but the domain it wakes; SET_ENDPOINT_ID of 8-254 assigns it. While
the resident firmware runs, the NVMe-MI reads answer their bytes or the status that refuses them and change nothing
but counters, Configuration Set in range sets the SMBus frequency or the MTU, VPD Write stores its bytes within 256
and VPD Read returns them, a reset asks for a device reset, the tunnel answers Get Log Page, Identify and Get Features
of a function that is there, refuses every other opcode and a free function, and the basic management command answers
31 bytes. Without power or before, nothing changes. UART input is taken while UART_IN_EN is 1, and the JTAG pin
instructions' exit asks for a device reset. -/
def Obligations.SidebandRequestsAnswer : Prop :=
  (∀ (s : State) (eid : Nat), sbiUp s = true → 8 ≤ eid → eid ≤ 254 →
    ∃ t, exec (.setEndpointId true eid) s = .next t ∧ t.sbi.eid = eid ∧ t.shows eSBI_EID_SET ∧
      Frame [.gate, .sbi, .pages, .regs] s t) ∧
  (∀ (s : State) (pec : Bool) (i : Instr) (a b c d e f g : Nat) (data : List Byte) (ws : List Dword)
      (x y : BitVec 22),
    i ∈ [Instr.setEndpointId pec a, .readNvmeMiDataStructure pec a b, .subsystemHealthStatusPoll pec,
      .controllerHealthStatusPoll pec a b, .configurationGet pec a, .configurationSet pec a b, .vpdRead pec a b,
      .vpdWrite pec a data, .nvmeMiReset pec, .tunnelledAdminCommand pec a b c d e f g,
      .registerReadMessage pec a b c, .registerWriteMessage pec a ws x y] →
    (sbiUp s = false → exec i s = .next s) ∧
    (sbiUp s = true → pec = false → ∃ t, exec i s = .next t ∧ t.shows eSBI_PEC_ERR ∧
      Frame [.gate, .pages, .regs] s t)) ∧
  (∀ (s u : State) (i : Instr) (a b : Nat) (r : MiReply), sbiUp s = true → miServed s = true →
    u = (s.wake smbusDomain).bump rSBI_MCTP_RX 1 →
    (i = .readNvmeMiDataStructure true a b ∧ r = miStructure u a b) ∨
      (i = .subsystemHealthStatusPoll true ∧ r = .ok (miSubsystem u)) ∨
      (i = .controllerHealthStatusPoll true a b ∧ r = .ok (miControllers u a b)) ∨
      (i = .configurationGet true a ∧ r = miConfigGet u a) ∨ (i = .vpdRead true a b ∧ r = miVpdRead u a b) →
    (∀ x, r = .ok x → ∃ t, exec i s = .next t ∧ t.ans = .bytes x ∧ Frame [.ans, .draws, .gate, .regs] s t) ∧
    (∀ x, r = .error x → ∃ t, exec i s = .next t ∧ t.ans = .refusal x ∧ Frame [.ans, .gate, .regs] s t)) ∧
  (∀ (s : State) (v : Nat), sbiUp s = true → miServed s = true →
    (∀ cfg x, miConfigSet s cfg v = .error x →
      ∃ t, exec (.configurationSet true cfg v) s = .next t ∧ t.ans = .refusal 4 ∧ Frame [.ans, .gate, .regs] s t) ∧
    (1 ≤ v → v ≤ 3 → ∃ t, exec (.configurationSet true 1 v) s = .next t ∧ t.ans = .none ∧
      t.rd rSBI_SMB_SPEED = v - 1 ∧ Frame [.ans, .gate, .regs] s t) ∧
    (64 ≤ v → v ≤ 250 → ∃ t, exec (.configurationSet true 3 v) s = .next t ∧ t.ans = .none ∧ t.sbi.mtu = v ∧
      t.sbi.eid = s.sbi.eid ∧ Frame [.ans, .gate, .sbi, .regs] s t) ∧
    (v = 0 ∨ 3 < v → ∃ t, exec (.configurationSet true 1 v) s = .next t ∧ t.ans = .refusal 4 ∧
      t.rd rSBI_SMB_SPEED = s.rd rSBI_SMB_SPEED ∧ Frame [.ans, .gate, .regs] s t)) ∧
  (∀ (s : State) (off : Nat) (data : List Byte), sbiUp s = true → miServed s = true → off + data.length ≤ 256 →
    ∃ t, exec (.vpdWrite true off data) s = .next t ∧ t.ans = .none ∧ miVpdRead t off data.length = .ok data ∧
      (∀ k, k < off ∨ off + data.length ≤ k → Tbl.getD t.nor.vpd k 0 = Tbl.getD s.nor.vpd k 0) ∧
      Frame [.ans, .gate, .nor, .regs] s t) ∧
  (∀ (s : State), sbiUp s = true → miServed s = true → s.thm.snuff ≠ .off →
    ∃ t, exec (.nvmeMiReset true) s = .next t ∧ t.ans = .none ∧ t.bot.resetArm = some (s.bot.resetArm.getD .nvmeMi) ∧
      Frame [.ans, .gate, .bot, .regs] s t) ∧
  (∀ (s u : State) (f op nsid dw10 dw11 off len : Nat) (r : Except Status (List Byte)), sbiUp s = true →
    miServed s = true → u = (s.wake smbusDomain).bump rSBI_MCTP_RX 1 →
    (op = 2 ∧ r = tunnelPage u f (dw10 % 256) (dw10 / 256 % 128) (dw11 / 65536) off len) ∨
      (op = 6 ∧ r = identifyData u f (dw10 % 256) nsid (dw10 / 65536) (dw11 / 2 ^ 24)) ∨
      (op = 10 ∧ r = tunnelFeature u f (dw10 % 256) dw11) ∨
      (op ≠ 2 ∧ op ≠ 6 ∧ op ≠ 10 ∧ r = .error stInvalidOpcode) →
    ((s.fn f).state = .free → ∃ t, exec (.tunnelledAdminCommand true f op nsid dw10 dw11 off len) s = .next t ∧
      t.ans = .refusal 4 ∧ Frame [.ans, .gate, .regs] s t) ∧
    ((s.fn f).state ≠ .free →
      (∀ x, r = .ok x → ∃ t, exec (.tunnelledAdminCommand true f op nsid dw10 dw11 off len) s = .next t ∧
        t.ans = .bytes x ∧ Frame [.ans, .draws, .gate, .regs] s t) ∧
      (∀ x, r = .error x → ∃ t, exec (.tunnelledAdminCommand true f op nsid dw10 dw11 off len) s = .next t ∧
        t.ans = .refusal (256 * x.sct + x.sc) ∧ Frame [.ans, .gate, .regs] s t))) ∧
  (∀ (s : State), sbiUp s = true → miServed s = true →
    ∃ t b, exec .basicManagementCommand s = .next t ∧ t.ans = .bytes b ∧ b.length = 31 ∧ Frame [.ans, .draws, .gate] s t) ∧
  (∀ (s : State) (data : List Byte), sbiUp s = true →
    (s.rd rSBI_UART_IN_EN = 1 → ∃ t, exec (.uartConsoleInput data) s = .next t ∧
      t.sbi.console = s.sbi.console ++ data ∧ Frame [.gate, .sbi] s t) ∧
    (s.rd rSBI_UART_IN_EN = 0 → ∃ t, exec (.uartConsoleInput data) s = .next t ∧ Frame [.gate] s t)) ∧
  (∀ s : State, s.bot.phase ≠ 0 → s.thm.snuff ≠ .off →
    ∃ t, exec .jtagPinInstructionExit s = .next t ∧ t.bot.resetArm = some (s.bot.resetArm.getD .jtag) ∧
      Frame [.gate, .bot] s t) ∧
  (∀ (s : State) (seq a v : Nat) (data : List Byte) (c : Cmd), s.adminCmd seq = some c →
    (c.fn = 0 → 64 ≤ v → v ≤ 250 →
      (∃ t, exec (.nvmeMiSend seq 3 3 v data) s = .next t ∧ s.ends t seq stOk 0 ∧ t.sbi.mtu = v) ∧
      (∃ t, exec (.nvmeMiReceive seq 4 3 v) s = .next t ∧ s.ends t seq stOk 0 ∧
        t.ans = .bytes (leBytes 4 s.sbi.mtu))) ∧
    (c.fn = 0 →
      (∀ off, off + data.length ≤ 256 → ∃ t, exec (.nvmeMiSend seq 6 off v data) s = .next t ∧ s.ends t seq stOk 0 ∧
        miVpdRead t off data.length = .ok data) ∧
      (∃ t, exec (.nvmeMiSend seq 7 a v data) s = .next t ∧ s.ends t seq stOk 0 ∧
        (s.bot.phase ≠ 0 → s.thm.snuff ≠ .off → t.bot.resetArm = some (s.bot.resetArm.getD .nvmeMi))) ∧
      (∀ op, op ∉ [3, 6, 7] → ∃ t, exec (.nvmeMiSend seq op a v data) s = .next t ∧ s.ends t seq stOk 3) ∧
      (∀ op, op ∉ [0, 1, 2, 4, 5] → ∃ t, exec (.nvmeMiReceive seq op a v) s = .next t ∧ s.ends t seq stOk 3 ∧
        t.ans = s.ans) ∧
      (∀ op x, (op = 0 ∧ miStructure s a v = .ok x) ∨ (op = 1 ∧ x = miSubsystem s) ∨
          (op = 2 ∧ x = miControllers s a v) ∨ (op = 4 ∧ miConfigGet s a = .ok x) ∨ (op = 5 ∧ miVpdRead s a v = .ok x) →
        ∃ t, exec (.nvmeMiReceive seq op a v) s = .next t ∧ s.ends t seq stOk 0 ∧ t.ans = .bytes x)) ∧
    (c.fn ≠ 0 →
      (∃ t, exec (.nvmeMiSend seq 3 a v data) s = .next t ∧ s.ends t seq stInvalidOpcode 0 ∧ t.sbi = s.sbi) ∧
      (∃ t, exec (.nvmeMiReceive seq 4 a v) s = .next t ∧ s.ends t seq stInvalidOpcode 0 ∧ t.ans = s.ans)))

/-- O46. Journal flushes, re-homing, die losses, rebuild and groom take their steps. JOURNAL_FLUSH, due by 1,024 records
or JR_FLUSH strides, brings every serving mirror to the journal's end and clears the count. PAR_JRN_REHOME begins to
move a lost mirror to the next die, whose reserve has two erased blocks, and journals it; JOURNAL_REHOME_DONE makes it
serve and ends the moves that wait for it. DIE_LOST lists the dies as lost, takes their mirrors out of service and
starts a rebuild. REBUILD_ROW within its share makes a proxy of every lost member of the next row, drops a row that
has lost none, or hands a span with few valid granules to reclaim. PAR_REBUILD_DONE ends the rebuild when the queue is
empty. GROOM_ROW steps over an unwritten row, counts a written one, and past the last ends the span. Pause, Resume,
Groom Span, Move Journal Mirror and Raw Media Read end or wait with the status of the table. -/
def Obligations.RedundancyRowsComplete : Prop :=
  (∀ (s : State) (fails : List Nat), 0 < s.par.unflushed → 1024 ≤ s.par.unflushed ∨ s.rd rPAR_JR_FLUSH ≤ s.par.flushAge →
    s.par.journal.length ≤ journalBlock s / 2 →
    ∃ t, exec (.journalFlush fails) s = .next t ∧ t.par.unflushed = 0 ∧ t.par.flushAge = 0 ∧
      t.par.journal = s.par.journal ∧ t.par.jseq = s.par.jseq ∧
      ∀ (k : Nat) (m : Mirror), s.par.mirrors[k]? = some m → m.service = true →
        ∃ m' : Mirror, t.par.mirrors[k]? = some m' ∧ m'.service = true ∧ m'.upTo = s.par.jseq) ∧
  (∀ (s : State) (k d : Nat) (m : Mirror), (∀ x ∈ s.par.mirrors, x.rehoming = false) →
    s.par.mirrors.zipIdx.find? (fun m => !m.1.service) = some (m, k) → rehomeDie s k m.die = some d →
    rehomeRoom s d = true →
    ∃ t m', exec .parJrnRehome s = .next t ∧ t.par.mirrors[k]? = some m' ∧ m'.die = d ∧ m'.rehoming = true ∧
      m'.service = false ∧ t.par.jseq = (s.par.jseq + 1) % 2 ^ 48 ∧
      ∀ j, j ≠ k → t.par.mirrors[j]? = s.par.mirrors[j]?) ∧
  (∀ (s : State) (k : Nat) (m : Mirror), s.par.mirrors.zipIdx.find? (fun m => m.1.rehoming) = some (m, k) →
    ∃ t m', exec .journalRehomeDone s = .next t ∧ t.par.mirrors[k]? = some m' ∧ m'.service = true ∧
      m'.rehoming = false ∧ m'.upTo = s.par.jseq ∧ m'.die = m.die ∧ t.shows ePAR_REHOME ∧
      s.tells t lPAR_JRN_REHOME none [] ∧ t.par.moveWait = s.par.moveWait.filter fun w => w.1 != k) ∧
  (∀ (s : State) (l : Layout) (d : Nat), s.par.layout = some l → s.par.lostArm = [d] →
    ∃ t, exec .dieLost s = .next t ∧ t.par.lostArm = [] ∧ t.par.lost = s.par.lost ++ [d] ∧ t.stp.degraded = true ∧
      (∀ m ∈ t.par.mirrors, m.die = d → m.service = false) ∧ t.shows ePAR_DIE_LOST ∧ t.par.rbState ≠ 0 ∧
      t.fch = s.fch ∧ t.map = s.map) ∧
  (∀ (s : State) (bad : List (Nat × Nat)) (l : Layout) (span row n : Nat), s.par.layout = some l → s.par.rbState = 1 →
    s.stp.throttle < 4 → actRuns s = false → nextRebuild s = some (span, row, n) →
    ((s.span span).phase = .closed → fewValid s span = false) →
    ((∀ c, c < l.k → memberLost s l span row c = false) →
      ∃ t, exec (.rebuildRow bad) s = .next t ∧ t.par.rowsDone = s.par.rowsDone + 1 ∧
        (∀ q, q ∈ t.par.queue ↔ q ∈ s.par.queue ∧ ¬(q.1 = span ∧ q.2.1 = row)) ∧ Frame [.par] s t) ∧
    (∀ u lost, lost = ((List.range l.k).filter (memberLost s l span row)).length →
      copyRoom s (lost * puGran s + rowValid (s.span span) row) = true →
      bgRow s .rebuild (l.k - lost) (lost * puGran s) = some u →
      ∃ t, exec (.rebuildRow bad) s = .next t ∧
        (∀ c, c < l.k → memberLost s l span row c = true →
          ∃ p ∈ t.par.proxies, p.span = span ∧ p.row = row ∧ p.pos = c) ∧
        Frame [.stp, .wbf, .ldc, .par, .evl, .pages, .regs] s t)) ∧
  (∀ (s : State) (bad : List (Nat × Nat)) (l : Layout) (span row n : Nat), s.par.layout = some l → s.par.rbState = 1 →
    s.stp.throttle < 4 → actRuns s = false → nextRebuild s = some (span, row, n) → (s.span span).phase = .closed →
    fewValid s span = true →
    ∃ t, exec (.rebuildRow bad) s = .next t ∧ span ∈ t.par.rbHanded ∧ ∀ q ∈ t.par.queue, q.1 ≠ span) ∧
  (∀ s : State, s.par.rbState = 1 → s.par.queue = [] → s.par.lostArm = [] → s.par.rbHanded = [] →
    ∃ t, exec .parRebuildDone s = .next t ∧ t.par.rbState = 0 ∧ t.shows ePAR_REBUILD_DONE ∧
      s.tells t lPAR_REBUILD_DONE none [p4 ((s.tbs.clk - s.par.rbStart) / 1000000000)] ∧
      t.stp.degraded = s.fch.chans.any fun c => c.2.retraining) ∧
  (∀ (s u : State) (bad reads : List (Nat × Nat)) (l : Layout) (n : Nat), s.par.layout = some l →
    heavyStart s false = some u → s.par.groomSpan = some n → groomable u n = true →
    (wordLines u ≤ s.par.groomRow →
      ∃ t, exec (.groomRow bad reads) s = .next t ∧ t.par.groomSpan = none ∧ n ∈ t.par.groomDone ∧
        (t.span n).groomedAt = u.now ∧ ∀ w ∈ t.par.groomWait, w.1 ≠ n) ∧
    (s.par.groomRow < wordLines u →
    rowWritten u l n s.par.groomRow = false →
      ∃ t, exec (.groomRow bad reads) s = .next t ∧ t.par.groomRow = s.par.groomRow + 1 ∧ t.par.groomSpan = some n ∧
        t.wbf = u.wbf) ∧
    (∀ v, s.par.groomRow < wordLines u → rowWritten u l n s.par.groomRow = true →
      copyRoom u (rowValid (u.span n) s.par.groomRow) = true → bgRow u .groom l.k 0 = some v →
      ∃ t, exec (.groomRow bad reads) s = .next t ∧ t.par.groomRow = s.par.groomRow + 1 ∧ t.par.groomSpan = some n)) ∧
  (∀ (s : State) (seq : Nat) (c : Cmd), s.adminCmd seq = some c → c.fn = 0 →
    (s.par.rbState = 1 → ∃ t, exec (.pauseRebuild seq) s = .next t ∧ s.ends t seq stOk 0 ∧ t.par.rbState = 2 ∧
      t.par.queue = s.par.queue) ∧
    (s.par.rbState ≠ 1 → ∃ t, exec (.pauseRebuild seq) s = .next t ∧ s.ends t seq stSequence 0 ∧ t.par = s.par) ∧
    (s.par.rbState = 2 → ∃ t, exec (.resumeRebuild seq) s = .next t ∧ s.ends t seq stOk 0 ∧ t.par.rbState = 1 ∧
      t.par.queue = s.par.queue) ∧
    (s.par.rbState ≠ 2 → ∃ t, exec (.resumeRebuild seq) s = .next t ∧ s.ends t seq stSequence 0 ∧ t.par = s.par)) ∧
  (∀ (s : State) (seq n : Nat) (c : Cmd) (l : Layout), s.adminCmd seq = some c → c.fn = 0 → s.par.layout = some l →
    (spanExists s l n = true → (s.span n).phase = .closed → (∀ q ∈ s.par.queue, q.1 ≠ n) →
      ∃ t, exec (.groomSpan seq n) s = .next t ∧ s.waits t seq ∧ t.par.groomWait = s.par.groomWait ++ [(n, seq)]) ∧
    (spanExists s l n = true → (s.span n).phase ≠ .closed → (∀ q ∈ s.par.queue, q.1 ≠ n) →
      ∃ t, exec (.groomSpan seq n) s = .next t ∧ s.ends t seq stOk 0 ∧ t.par = s.par) ∧
    (spanExists s l n = false →
      ∃ t, exec (.groomSpan seq n) s = .next t ∧ s.ends t seq stInvalidField 0 ∧ t.par = s.par) ∧
    (spanExists s l n = true → (∃ q ∈ s.par.queue, q.1 = n) →
      ∃ t, exec (.groomSpan seq n) s = .next t ∧ s.ends t seq stRedundancy 0 ∧ t.par = s.par)) ∧
  (∀ (s : State) (seq k die : Nat) (c : Cmd), s.adminCmd seq = some c → c.fn = 0 →
    (s.par.rbState ≠ 1 → (∀ m ∈ s.par.mirrors, m.service = true ∧ m.rehoming = false) → k < s.par.mirrors.length →
      die < 1024 → dieServes s die = true → holdsMirror s k (chanOf die) = false →
      rehomeRoom s die = true →
      ∃ t m, exec (.moveJournalMirror seq k die) s = .next t ∧ s.waits t seq ∧ t.par.mirrors[k]? = some m ∧
        m.die = die ∧ m.rehoming = true ∧ t.par.moveWait = s.par.moveWait ++ [(k, die, seq)]) ∧
    (s.par.rbState ≠ 1 → (∀ m ∈ s.par.mirrors, m.service = true ∧ m.rehoming = false) →
      s.par.mirrors.length ≤ k ∨ 1024 ≤ die ∨ dieServes s die = false ∨ holdsMirror s k (chanOf die) = true →
      ∃ t, exec (.moveJournalMirror seq k die) s = .next t ∧ s.ends t seq stInvalidField 0 ∧ t.par = s.par) ∧
    (s.par.rbState = 1 ∨ (∃ m ∈ s.par.mirrors, m.service = false ∨ m.rehoming = true) →
      ∃ t, exec (.moveJournalMirror seq k die) s = .next t ∧ s.ends t seq stRedundancy 0 ∧ t.par = s.par)) ∧
  (∀ (s : State) (seq : Nat) (dw10 dw11 : Dword) (c : Cmd), s.adminCmd seq = some c → c.fn = 0 →
    (s.rd rPAR_RAW_EN = 0 →
      ∃ t, exec (.rawMediaRead seq dw10 dw11) s = .next t ∧ s.ends t seq stInvalidOpcode 0 ∧ t.fch = s.fch) ∧
    (s.rd rPAR_RAW_EN = 1 → dw10.toNat < 1024 → dw11.toNat < 2 ^ 14 → dieServes s dw10.toNat = true →
      dw11.toNat < nativeBlocks s → 0 < wordLines s → 0 < s.rd rMAP_BITS → 0 < s.rd rMAP_PLANES →
      underErase s (s.die dw10.toNat) dw11.toNat = false → 0 < ringRoom s dw10.toNat →
      windowFits s dw10.toNat 1 2 = true → (∀ i, 64 ≤ i → Tbl.get (s.die dw10.toNat).ring i = none) →
      ∃ t k x, exec (.rawMediaRead seq dw10 dw11) s = .next t ∧ s.waits t seq ∧
        Tbl.get (t.die dw10.toNat).ring k = some x ∧ x.typ = .raw ∧ x.owner = .diag seq false ∧
        x.block = dw11.toNat))

/-- O47. DRAM line failures, recomputes, alerts, retraining windows and SRAM word failures act as stated. While DMC is not
frozen: a line read whose check fails for its requester and whose refetch passes is written back, counted and waits
for nothing; one that fails again waits for its recompute as the last of the failed lines, and a stale line of a slot
in FILLING frees its slot. DMC_RECOMPUTE of the oldest failed line without a source freezes DMC: fetch stops, hold
plans follow, DMC_FREEZE is recorded; with a good source it counts, records and drops the failure; a host line without
its data ends its command. An alert counts its replays, and the sixteenth makes the line a failure. An oscillator read
and a ZQ calibration take the stride's window. An SRAM or fabric word whose CRC fails is resent on the fabric; one
that fails again is captured and recomputed, ends its ring entry with BAD_DESC or fails its DRAM line, and without a
source freezes DMC. DUMP_GO with bit 4, frozen and without a dump, arms the dump. -/
def Obligations.MemoryFailuresAreHandled : Prop :=
  (∀ (s : State) (x : LineFail) (qtr : BitVec 4) (lcrc tag : Bool) (raw : BitVec 640), s.dmc.frozen = false →
    lineExists s x = true → x.line ∉ (s.subch (lineSc x.line)).writes →
    lineCheck x.line raw (lineOwner s x) = (qtr, lcrc, tag) →
    (lineStale s x raw = false → qtr ≠ 0 ∨ lcrc = true ∨ tag = true →
      (∃ t, exec (.dramLineCheckFail x qtr lcrc tag true raw) s = .next t ∧ t.shows eDMC_REFETCH_OK ∧
        t.dmc.fails = s.dmc.fails ∧ t.dmc.frozen = false ∧ Frame [.dmc, .pages, .regs] s t) ∧
      (∃ t, exec (.dramLineCheckFail x qtr lcrc tag false raw) s = .next t ∧ t.dmc.fails = s.dmc.fails ++ [x] ∧
        t.dmc.frozen = false ∧ (t.page 0x14).errValid = true ∧
        ((s.page 0x14).errValid = false → (t.page 0x14).errAddr = BitVec.ofNat 32 x.line) ∧
        Frame [.dmc, .pages, .regs] s t)) ∧
    (∀ passes, lineStale s x raw = true →
      ∃ t, exec (.dramLineCheckFail x qtr lcrc tag passes raw) s = .next t ∧ t.slot x.slot = Slot.free ∧
        t.dmc.fails = s.dmc.fails)) ∧
  (∀ (s : State) (x : LineFail) (r : List LineFail) (ok covered : Bool), s.dmc.frozen = false → s.dmc.fails = x :: r →
    (lineSource s x covered = .none ∨ lineSource s x covered = .notFolded ∨
      ((lineSource s x covered = .copy ∨ lineSource s x covered = .row) ∧ ok = false) →
      ∃ t, exec (.dmcRecompute ok covered) s = .next t ∧ t.dmc.frozen = true ∧ t.qmx.frozen = true ∧
        t.stp.holdNext = true ∧ t.shows eDMC_FREEZE ∧ t.qmx.cmds = s.qmx.cmds ∧
        Frame [.dmc, .qmx, .stp, .evl, .pages, .regs] s t) ∧
    (lineSource s x covered = .copy ∨ lineSource s x covered = .row ∨
        (lineSource s x covered = .host ∧ (s.cmd? (s.slot x.slot).cmd).isSome = true) → ok = true →
      ∃ t, exec (.dmcRecompute ok covered) s = .next t ∧ t.dmc.frozen = false ∧ t.dmc.fails = r ∧
        t.shows eDMC_RECOMPUTE ∧
        s.tells t lDMC_RECOMPUTE none [p4 x.line, p4 (regionNo x.region), p4 (lineClass s x)]) ∧
    (lineSource s x covered = .host → s.cmd? (s.slot x.slot).cmd = none →
      ∃ t, exec (.dmcRecompute ok covered) s = .next t ∧ t.slot x.slot = Slot.free ∧ t.dmc.fails = r) ∧
    (∀ c, lineSource s x covered = .host → s.cmd? (s.slot x.slot).cmd = some c → ok = false →
      ∃ t, exec (.dmcRecompute ok covered) s = .next t ∧ t.cmd? c.seq = none ∧ t.dmc.fails = r ∧
        t.dmc.frozen = false)) ∧
  (∀ (s : State) (w : Dword), w.getLsbD 4 = true → s.dmc.frozen = true → s.dmc.dumpDone = false → s.hld.dump = .idle →
    ∃ t, exec (.dumpGo w) s = .next t ∧ t.dmc.dumpBusy = true ∧ t.hld.dump = .armed .dumpGo ∧
      Frame [.dmc, .gate, .hld] s t) ∧
  (∀ (s : State) (ca : Bool) (n : Nat) (x : LineFail), s.dmc.frozen = false → 0 < n →
    0 < (if ca then s.rd rDMC_CAPAR else s.rd rDMC_WCRC) →
    ∃ t, exec (.dramAlert ca n x) s = .next t ∧ t.shows (if ca then eDMC_CAPAR else eDMC_WCRC) ∧
      t.dmc.fails = (if n < 16 then s.dmc.fails else s.dmc.fails ++ [x]) ∧ Frame [.dmc, .pages, .regs] s t) ∧
  (∀ (s : State) (sc rank drift : Nat), windowFree s sc rank = true →
    (s.dmc.conf.osc ≤ ticksSince s (Tbl.getD s.dmc.lastOsc (sc * 2 + rank) 0) →
      ∃ t, exec (.dramOscRead sc rank drift) s = .next t ∧ t.dmc.window = true ∧
        Tbl.get t.dmc.lastOsc (sc * 2 + rank) = some s.fch.tick ∧
        (s.dmc.conf.drift < drift → t.shows eDMC_RETRAIN) ∧ (drift ≤ s.dmc.conf.drift → t.pages = s.pages) ∧
        Frame [.dmc, .pages] s t) ∧
    (16000 ≤ ticksSince s (Tbl.getD s.dmc.lastZq (sc * 2 + rank) 0) →
      ∃ t, exec (.dramZqCalibration sc rank) s = .next t ∧ t.dmc.window = true ∧
        Tbl.get t.dmc.lastZq (sc * 2 + rank) = some s.fch.tick ∧ Frame [.dmc] s t)) ∧
  (∀ (s : State) (addr : Nat) (raw : BitVec 144) (p : Pool) (fabric source : Bool) (hit : SrmHit),
    s.dmc.frozen = false → wordFails addr raw p fabric hit = true →
    (fabric = false → exec (.srmWordCheckFail addr raw p fabric false source hit) s = .next s) ∧
    (fabric = true → ∃ t, exec (.srmWordCheckFail addr raw p fabric false source hit) s = .next t ∧
      t.shows eSRM_FABRIC_RESEND ∧ Frame [.pages, .regs] s t) ∧
    (hit = .word → source = true →
      ∃ t, exec (.srmWordCheckFail addr raw p fabric true source hit) s = .next t ∧ t.dmc.frozen = false ∧
        (fabric = false → t.shows eSRM_WORD_ERR) ∧ t.shows eSRM_RECOMPUTE ∧ (t.page 0x15).errValid = true ∧
        s.tells t lSRM_RECOMPUTE none [] ∧ Frame [.evl, .pages, .regs] s t) ∧
    (∀ d i x, hit = .ring d i → source = true → Tbl.get (s.die d).ring i = some x →
      ∃ t, exec (.srmWordCheckFail addr raw p fabric true source hit) s = .next t ∧ t.records d i .badDesc ∧
        t.shows eSRM_RECOMPUTE ∧ t.dmc.frozen = false) ∧
    (∀ x, hit = .line x →
      ∃ t, exec (.srmWordCheckFail addr raw p fabric true source hit) s = .next t ∧
        t.dmc.fails = s.dmc.fails ++ [x] ∧ (t.page 0x15).errValid = true ∧ t.dmc.frozen = false) ∧
    ((∀ x, hit ≠ .line x) → source = false →
      ∃ t, exec (.srmWordCheckFail addr raw p fabric true source hit) s = .next t ∧ t.dmc.frozen = true ∧
        t.shows eSRM_FATAL ∧ t.shows eDMC_FREEZE ∧ (t.page 0x15).errValid = true))

/-- O48. A victim is picked, its rows are copied and its members erased. RECLAIM_VICTIM_PICK makes the picked span a
victim, last in the list of victims, and records a wear victim. RECLAIM_ROW_COPY of a victim's next row, with room for
the copies, leave to start and a share's credit, counts a copy of every valid granule of a row that is not in flight
and names none of them anew in the map. SPAN_ERASE_START of a member of a released or erasing span with no read
pending, with the pair of descriptors placed, the window fitting and leave to start, marks the member as started and
the span as erasing. Without a victim to pick nothing changes. -/
def Obligations.ReclaimRowsComplete : Prop :=
  (∀ (s : State) (l : Layout) (n : Nat) (wear : Bool), s.par.layout = some l → actRuns s = false →
    pickVictim s l = some (n, wear) →
    ∃ t, exec .reclaimVictimPick s = .next t ∧ (t.span n).phase = .victim ∧ t.rcl.victims = s.rcl.victims ++ [n] ∧
      (wear = true → t.rcl.wlVictim = some n ∧ t.shows eRCL_WL ∧ s.tells t lRCL_WL none []) ∧
      (∀ m, m ≠ n → t.span m = s.span m) ∧ t.map = s.map ∧ t.fch = s.fch) ∧
  (∀ (s : State) (l : Layout), s.par.layout = some l → actRuns s = true ∨ pickVictim s l = none →
    exec .reclaimVictimPick s = .next s) ∧
  (∀ (s u : State) (l : Layout) (n row : Nat) (bad : List (Nat × Nat)), s.par.layout = some l →
    nextVictimRow s n = some row → (s.span n).phase = .victim →
    copyRoom s (rowValid (s.span n) row + (rowProxies s n row).length * puGran s) = true →
    heavyRow s (if s.par.rbState = 1 ∧ s.par.rbHanded.contains n then .rebuild else .reclaim) l.d
      (rowValid (s.span n) row) = some u →
    ∃ t, exec (.reclaimRowCopy n bad) s = .next t ∧
      Tbl.getD (t.span n).rowCopies row 0 = Tbl.getD (s.span n).rowCopies row 0 +
        (if rowInFlight u n row = true then 0 else (ownValids u l n row).length) ∧
      (t.span n).phase = .victim ∧ Frame [.stp, .wbf, .ldc, .par, .evl, .pages, .regs] s t) ∧
  (∀ (s u v : State) (l : Layout) (n c d b : Nat), s.par.layout = some l → (d, b) = member s l n c →
    (s.span n).phase = .released ∨ (s.span n).phase = .erasing → readPending s n = false → c < l.k → c ∉ (s.span n).startedMembers →
    dieServes s d = true → (∀ q ∈ s.fch.intentErase, ¬(q.1 = d ∧ q.2.1 = b)) → 2 ≤ ringRoom s d →
    (s.die d).timeline.length < 15 →
    placeTwo s d (erasePair s d b (eraseCount s d b + 1) 0 0 (.spanErase n d)).1
      (erasePair s d b (eraseCount s d b + 1) 0 0 (.spanErase n d)).2 = some u →
    windowFits s d (match (u.die d).timeline.getLast? with
      | some g => (tickDiff s g.start).toNat
      | none => 1) (windowLen s d .erase) = true →
    yieldRoom s d = true → 
    heavyCharge (windowPlaced u d) .reclaim 192 (256 * (u.die d).profile.erase) = some v →
    ∃ t, exec (.spanEraseStart n c) s = .next t ∧ (t.span n).phase = .erasing ∧
      (t.span n).startedMembers = c :: (v.span n).startedMembers ∧ t.fch = v.fch ∧
      (∀ m, m ≠ n → t.span m = v.span m))

/-- O49. Decode and decrypt results end a read or take it on; poison and reverse search mark blocks. DECODE_DONE of a
direct read, correct and in its place: a plaintext granule leaves for its command, and an encrypted one waits for a
CIP lane with its codeword kept. A failed last step without a row ends the granule with Unrecovered Read Error and
counts it. A result of a job that is gone or stale ends its engine job, or drops the read. CIP_DECRYPT_DONE delivers
the decrypted granule, and a bad GCM tag ends it with Integrity Tag Mismatch, records CIP_TAG_FAIL and delivers
nothing. POISON_WAIT and REVERSE_SEARCH poison the blocks that wait, and record them. TRACKER_REVIEW moves every
offset by one step when ones or zeros prevail and starts the window anew. LDC_INJ_ARM arms unless sealed.
ENG_STALL_PROMOTE raises a job stalled past its age limit. -/
def Obligations.ReadsAreDecodedAndEnd : Prop :=
  (∀ (s : State) (id pos bits ones : Nat) (j : RdJob) (e : EngJob) (m : MemberRead) (x : Info) (c : Cmd) (p : ReadPart)
      (sp : Space),
    s.job? id = some j → engFor s .hard (.read id pos) = some e → tagStale s j.tag = false → j.kind = .direct →
    j.members.find? (fun m => m.pos == pos) = some m → Tbl.get s.fch.media m.mga = some x → infoCrcOk x = true →
    (infoMetadata x).lga = j.lba → (infoMetadata x).ns = j.ns → (infoMetadata x).pad = false →
    s.space j.ns = some sp → s.cmd? j.cmd = some c → c.parts[j.part]? = some p →
    (sp.mode = .none →
      ∃ t c' p', exec (.decodeDone id pos (.ok bits ones)) s = .next t ∧ t.job? id = none ∧ t.cmd? j.cmd = some c' ∧
        c'.parts[j.part]? = some p' ∧ p'.done = some (infoData x) ∧ p'.err = p.err) ∧
    (sp.mode ≠ .none →
      ∃ t j', exec (.decodeDone id pos (.ok bits ones)) s = .next t ∧ t.job? id = some j' ∧ j'.result = some x ∧
        j'.corrected = bits ∧ t.cmd? j.cmd = some c)) ∧
  (∀ (s : State) (id pos : Nat) (j : RdJob) (e : EngJob) (m : MemberRead) (c : Cmd) (p : ReadPart) (k : Int),
    s.job? id = some j → engFor s .hard (.read id pos) = none → engFor s .soft (.read id pos) = some e →
    tagStale s j.tag = false → j.kind = .direct → j.members.find? (fun m => m.pos == pos) = some m → m.step = 4 →
    rowPlace s j.mga = none → s.cmd? j.cmd = some c → c.parts[j.part]? = some p →
    ∃ t c' p', exec (.decodeDone id pos (.fail k)) s = .next t ∧ t.job? id = none ∧ t.cmd? j.cmd = some c' ∧
      c'.parts[j.part]? = some p' ∧ p'.err = some (2, 0x81) ∧ t.shows eLDC_UNRECOVERED) ∧
  (∀ (s : State) (id pos : Nat) (r : DecResult) (e : EngJob), engFor s .hard (.read id pos) = some e →
    (s.job? id = none → ∃ t, exec (.decodeDone id pos r) s = .next t ∧
      (∀ k, k ∈ t.stp.engs ↔ k ∈ s.stp.engs ∧ k.id ≠ e.id) ∧ Frame [.stp, .cip] s t) ∧
    (∀ j, s.job? id = some j → tagStale s j.tag = true →
      ∃ t, exec (.decodeDone id pos r) s = .next t ∧ t.job? id = none ∧ Frame [.stp, .cip] s t)) ∧
  (∀ (s : State) (id : Nat) (j : RdJob) (e : EngJob) (x : Info) (sp : Space) (c : Cmd) (p : ReadPart) (ok : Bool),
    s.job? id = some j → engFor s .cip (.read id 254) = some e → tagStale s j.tag = false → j.result = some x →
    s.space j.ns = some sp → s.cmd? j.cmd = some c → c.parts[j.part]? = some p →
    (sp.mode = .xts → ∃ t c' p', exec (.cipDecryptDone id ok) s = .next t ∧ t.job? id = none ∧
      t.cmd? j.cmd = some c' ∧ c'.parts[j.part]? = some p' ∧
      p'.done = some (Config.xtsDec (readKey s j) j.lba (infoData x))) ∧
    (sp.mode = .gcm → ok = true → ∃ t c' p', exec (.cipDecryptDone id ok) s = .next t ∧ t.job? id = none ∧
      t.cmd? j.cmd = some c' ∧ c'.parts[j.part]? = some p' ∧
      p'.done = some (Config.granDec (readKey s j) j.lba (infoMetadata x).wseq (infoData x))) ∧
    (sp.mode = .gcm → ok = false → ∃ t c' p', exec (.cipDecryptDone id ok) s = .next t ∧ t.job? id = none ∧
      t.cmd? j.cmd = some c' ∧ c'.parts[j.part]? = some p' ∧ p'.err = some (7, 1) ∧ p'.done = p.done ∧
      t.shows eCIP_TAG_FAIL ∧ s.tells t lCIP_TAG_FAIL (some j.tag.fn) [p2 j.ns, p6 j.lba, p5 j.mga])) ∧
  (∀ (s : State) (r : PoisonReq), s.ldc.poison = [r] → blockEntry s r.ns r.lba = ⟨.media, r.mga⟩ →
    swapNeeds s r.ns r.lba ≤ fineFree s →
    ∃ t, exec .poisonWait s = .next t ∧ t.ldc.poison = [] ∧ t.ldc.mediaErrors = s.ldc.mediaErrors + 1 ∧
      s.tells t lLDC_POISON none [p2 r.ns, p6 r.lba, p5 r.mga, p4 r.step]) ∧
  (∀ (s : State) (m ns lba : Nat), s.ldc.reverse = [m] → blocksNaming s m = [(ns, lba)] →
    blockEntry s ns lba = ⟨.media, m⟩ → swapNeeds s ns lba ≤ fineFree s →
    ∃ t, exec .reverseSearch s = .next t ∧ t.ldc.reverse = [] ∧ t.ldc.mediaErrors = s.ldc.mediaErrors + 1 ∧
      s.tells t lLDC_POISON none [p2 ns, p6 lba, p5 m, p4 6]) ∧
  (∀ (s : State) (die entry : Nat) (x : ThreshEntry), threshOf s die entry = x → 1 ≤ entry → entry ≤ 252 →
    die < 1024 → 0 < x.bits → s.rd rLDC_TRACK_WINDOW ≤ x.bits →
    ∃ t y, exec (.trackerReview die entry) s = .next t ∧ threshOf t die entry = y ∧ y.bits = 0 ∧ y.ones = 0 ∧
      y.offsets = x.offsets.map (fun o => clampStep (o +
        (if 6 * x.bits < 10 * x.ones then 1 else if 10 * x.ones < 4 * x.bits then -1 else 0))) ∧
      Frame [.ldc] s t) ∧
  (∀ (s : State) (p : Path) (w : Dword), w.getLsbD 10 = true →
    ((s.page 18).sealBit = false → ∃ t, exec (.ldcInjArm p w) s = .next t ∧ t.ldc.injArmed = true) ∧
    ((s.page 18).sealBit = true → ∃ t, exec (.ldcInjArm p w) s = .next t ∧ t.ldc = s.ldc)) ∧
  (∀ (s : State) (id : Nat) (j : EngJob), s.stp.engs.find? (fun j => j.id == id) = some j → j.state = .stalled →
    j.promoted = false → s.rd rSTP_ENG_AGE_LIMIT ≤ j.age →
    ∃ t, exec (.engStallPromote id) s = .next t ∧
      (∃ k ∈ t.stp.engs, k.id = id ∧ k.promoted = true ∧ k.rank = 0 ∧ k.state = .stalled) ∧
      t.stp.engs.length = s.stp.engs.length ∧ Frame [.stp, .regs] s t)

/-- O50. Ring entries start their operations or complete with the status of the table. A planned entry that passes its
checks, whose die is free, whose channel has a completion record and whose slot has room: a READ or READ_RUN of a die
that is not busy, a PROGRAM, an ERASE_INTENT, an ERASE of the block that the die is armed for (in a dim window or with
an excuse) and a Reset LUN start their operation, reserve a record and change no other die; a reset of the chip enable
holds its other LUNs too; a read of a busy die goes back to its entry for the next plan, or ends with BUSY_LIMIT; a
run across blocks ends with BAD_DESC and an ERASE of another block with NO_INTENT; STATUS and FEATURE complete at
once, a Get of the temperature giving it to the die; a RAW read of a Raw Media Read answers its bytes, or with DECODE
the info bytes or Unrecovered Read Error, and ends it. An entry that fails its first checks completes with their
status and starts nothing. -/
def Obligations.DescriptorsStartOrComplete : Prop :=
  (∀ (s : State) (d i : Nat) (x : Desc),
    preCheck s d x = none → noRecord s (chanOf d) = false → (s.die d).op = none → slotFor s d x = true →
    (startable s d i .read = some x →
      (∃ t, exec (.descriptorRead d i false) s = .next t ∧ s.begins t d i x ∧ Frame [.fch, .fns] s t) ∧
      (x.requeued < s.rdAt rFCH_READ_REQ_MAX (chanOf d) 0 →
        ∃ t y, exec (.descriptorRead d i true) s = .next t ∧ Tbl.get (t.die d).ring i = some y ∧
          y.requeued = x.requeued + 1 ∧ y.planned = false ∧ (t.die d).op = none ∧ Frame [.fch, .fns, .regs] s t) ∧
      (s.rdAt rFCH_READ_REQ_MAX (chanOf d) 0 ≤ x.requeued →
        ∃ t, exec (.descriptorRead d i true) s = .next t ∧ t.records d i .busyLimit ∧ (t.die d).op = none)) ∧
    (startable s d i .readRun = some x →
      ((mgaParts s x.mga).block = (mgaParts s (x.mga + x.count - 1)).block →
        (∃ t, exec (.descriptorReadRun d i false) s = .next t ∧ s.begins t d i x ∧ Frame [.fch, .fns] s t) ∧
        (x.requeued < s.rdAt rFCH_READ_REQ_MAX (chanOf d) 0 →
          ∃ t y, exec (.descriptorReadRun d i true) s = .next t ∧ Tbl.get (t.die d).ring i = some y ∧
            y.requeued = x.requeued + 1 ∧ y.planned = false ∧ (t.die d).op = none)) ∧
      ((mgaParts s x.mga).block ≠ (mgaParts s (x.mga + x.count - 1)).block →
        ∃ t, exec (.descriptorReadRun d i false) s = .next t ∧ t.records d i .badDesc ∧ (t.die d).op = none)) ∧
    (startable s d i .program = some x →
      ∃ t, exec (.descriptorProgram d i) s = .next t ∧ s.begins t d i x ∧ t.fch.media = s.fch.media ∧
        Frame [.fch, .fns, .wbf] s t) ∧
    (startable s d i .eraseIntent = some x →
      (0 < (s.die d).intentFree →
        ∃ t, exec (.descriptorEraseIntent d i) s = .next t ∧ s.begins t d i x ∧ Frame [.fch, .fns] s t) ∧
      ((s.die d).intentFree = 0 →
        ∃ t o, exec (.descriptorEraseIntent d i) s = .next t ∧ (t.die d).op = some o ∧ o.slot = i ∧ o.desc = x ∧
          (t.die d).intentAct = (s.die d).intentStby ∧ (t.die d).intentFree = wordLines s)) ∧
    (startable s d i .erase = some x →
      ((s.die d).armed = some (descBlock s x) →
        (dimNow s = true → ∃ t, exec (.descriptorErase d i) s = .next t ∧ s.begins t d i x ∧ Frame [.fch, .fns] s t) ∧
        (dimNow s = false → heavyExcused s = true ∨ (s.die d).armReason % 256 = 2 →
          ∃ t, exec (.descriptorErase d i) s = .next t ∧ s.begins t d i x ∧ t.fch.media = s.fch.media) ∧
        (dimNow s = false → heavyExcused s = false → (s.die d).armReason % 256 ≠ 2 →
          exec (.descriptorErase d i) s = .next s)) ∧
      ((s.die d).armed ≠ some (descBlock s x) →
        ∃ t, exec (.descriptorErase d i) s = .next t ∧ t.records d i .noIntent ∧ (t.die d).op = none ∧
          t.fch.media = s.fch.media)) ∧
    (∀ b, startable s d i .status = some x →
      ∃ t, exec (.descriptorStatus d i b) s = .next t ∧ t.records d i .ok ∧ (t.die d).op = none) ∧
    (∀ v, startable s d i .feature = some x →
      ∃ t, exec (.descriptorFeature d i v) s = .next t ∧ t.records d i .ok ∧ (t.die d).op = none ∧
        (t.die d).temp = (if x.param.getLsbD 8 = false ∧ x.param.setWidth 8 = (s.die d).profile.tempAt then v
          else (s.die d).temp)) ∧
    (startable s d i .reset = some x →
      (x.param.toNat % 4 = 0 →
        ∃ t, exec (.descriptorReset d i) s = .next t ∧ s.begins t d i x ∧ Frame [.fch, .fns] s t) ∧
      (x.param.toNat % 4 = 1 ∨ x.param.toNat % 4 = 2 → ceIdle s d = true →
        ∃ t o, exec (.descriptorReset d i) s = .next t ∧ (t.die d).op = some o ∧ o.slot = i ∧ o.desc = x ∧
          ∀ e y, Tbl.get s.fch.dies e = some y → e / 4 = d / 4 → (t.die e).op.isSome = true)) ∧
    (∀ data dec seq c decode, startable s d i .raw = some x → x.owner = .diag seq decode → s.cmd? seq = some c →
      (decode = false →
        ∃ t, exec (.descriptorRaw d i data dec) s = .next t ∧ s.ends t seq stOk 0 ∧ t.records d i .ok ∧
          t.ans = .bytes (bytesOf 4608 (scramble (scrambleSeed x.block x.wl x.page x.plane x.cw) data))) ∧
      (∀ w, decode = true → erasedWord data = false → dec = some w →
        ∃ t, exec (.descriptorRaw d i data dec) s = .next t ∧ s.ends t seq stOk 0 ∧ t.records d i .ok ∧
          t.ans = .bytes (bytesOf 4128 w ++ zeros 480)) ∧
      (decode = true → erasedWord data = true ∨ dec = none →
        ∃ t, exec (.descriptorRaw d i data dec) s = .next t ∧ s.ends t seq stUnrecovered 0 ∧ t.records d i .ok))) ∧
  (∀ (s : State) (d i : Nat) (x : Desc) (st : CStat) (k : Instr) (typ : OpType) (busy : Bool) (b : BitVec 8) (v : Int)
      (data : BitVec 36864) (dec : Option Info),
    (k, typ) ∈ [(Instr.descriptorRead d i busy, OpType.read), (.descriptorReadRun d i busy, .readRun),
      (.descriptorProgram d i, .program), (.descriptorEraseIntent d i, .eraseIntent), (.descriptorErase d i, .erase),
      (.descriptorStatus d i b, .status), (.descriptorFeature d i v, .feature), (.descriptorReset d i, .reset),
      (.descriptorRaw d i data dec, .raw)] →
    startable s d i typ = some x → preCheck s d x = some st →
    ∃ t, exec k s = .next t ∧ t.records d i st ∧ (t.die d).op = (s.die d).op ∧ t.fch.media = s.fch.media)

/-- O51. Polls, completions, timeouts, reins, slots and retraining act on their die and channel alone. A poll that is due
stores the die's answer. A ready operation completes: a PROGRAM puts its staged codewords on media and an ERASE clears
its native block, or with FAIL set the entry ends with PROG_FAIL or ERASE_FAIL and media keeps its content; an
ERASE_INTENT arms the die for its block. An operation not ready at its maximum ends with TIMEOUT, recorded, and the
LUN is reset; after the third in a row, and after a reset that times out, the die leaves service, and PAR is told. A
REIN read suspends a reinable operation, is refused past its cap or in its tail, reads in the rein, and the operation
resumes. A slot goes to a request, and without one is idle. A codeword's transfer counts on the operation. A stalled
requester past its age is promoted. Retraining notes the die's time and temperature, a low margin retrains the
channel, and its end gives the channel the rate, or at 0 takes its dies out. FCH_PIN_GO stores the faults of a channel
out of service and is ignored in service. -/
def Obligations.DieOperationsRunAndEnd : Prop :=
  (∀ (s : State) (d : Nat) (o : DieOp) (ready : Bool) (b : BitVec 8), (s.die d).polls < 2 →
    groupRoom (s.chan (chanOf d)) (pollFns s o ready).length = true → pollDue s (s.die d).profile o = true →
    ((s.die d).reinRead = none → (s.die d).op = some o → o.phase = .none →
      ∃ t, exec (.dieOpPoll d ready b) s = .next t ∧ (t.die d).op = some (polled s o ready b) ∧
        (∀ e, e ≠ d → t.die e = s.die e) ∧ Frame [.fch, .fns] s t) ∧
    ((s.die d).reinRead = some o →
      ∃ t, exec (.dieOpPoll d ready b) s = .next t ∧ (t.die d).reinRead = some (polled s o ready b) ∧
        (t.die d).op = (s.die d).op ∧ (∀ e, e ≠ d → t.die e = s.die e) ∧ Frame [.fch, .fns] s t)) ∧
  (∀ (s : State) (d n : Nat) (o : DieOp) (x : Desc), (s.die d).reinRead = none → (s.die d).op = some o →
    Tbl.get (s.die d).ring o.slot = some x →
    (isRead o.desc.typ = true → readEnds o = true →
      ∃ t, exec (.dieOpComplete d n) s = .next t ∧ t.records d o.slot .ok ∧ (t.die d).op = none ∧
        t.fch.media = s.fch.media) ∧
    (o.ready = true → o.phase = .none →
      (o.desc.typ = .program →
        (∀ st ser m, o.dstat.getLsbD 0 = false → o.desc.owner = .pu st ser m →
          ∃ t, exec (.dieOpComplete d n) s = .next t ∧ t.records d o.slot .ok ∧ (t.die d).op = none ∧
            (∀ k, (∀ g ∈ s.staged, g.stream = st → g.serial = ser → g.member = m → k ≠ o.desc.mga + g.pos) →
              Tbl.get t.fch.media k = Tbl.get s.fch.media k) ∧
            ∀ g ∈ s.staged, g.stream = st → g.serial = ser → g.member = m →
              (Tbl.get t.fch.media (o.desc.mga + g.pos)).isSome = true) ∧
        (o.dstat.getLsbD 0 = true →
          ∃ t, exec (.dieOpComplete d n) s = .next t ∧ t.records d o.slot .programFail ∧ (t.die d).op = none ∧
            t.fch.media = s.fch.media)) ∧
      (o.desc.typ = .eraseIntent →
        ∃ t, exec (.dieOpComplete d n) s = .next t ∧ t.records d o.slot .ok ∧ (t.die d).op = none ∧
          (t.die d).armed = some ((o.desc.param >>> 16).toNat % 16384) ∧ t.fch.media = s.fch.media) ∧
      (o.desc.typ = .erase → o.dstat.getLsbD 0 = true →
        ∃ t, exec (.dieOpComplete d n) s = .next t ∧ t.records d o.slot .eraseFail ∧ (t.die d).op = none ∧
          (t.die d).armed = none ∧ t.fch.media = s.fch.media) ∧
      (o.desc.typ = .erase → o.dstat.getLsbD 0 = false →
        ∃ t, exec (.dieOpComplete d n) s = .next t ∧ t.records d o.slot .ok ∧ (t.die d).armed = none ∧
          (o.desc.pslc = true → t.fch.media = s.fch.media) ∧
          (o.desc.pslc = false → ∀ k, Tbl.get t.fch.media k = (if mgaOf s d (descBlock s o.desc) 0 0 ≤ k ∧
            k < mgaOf s d (descBlock s o.desc + 1) 0 0 then none else Tbl.get s.fch.media k))))) ∧
  (∀ (s : State) (d : Nat) (o : DieOp) (x : Desc), (s.die d).reinRead = none → (s.die d).op = some o →
    o.ready = false → o.phase = .none → o.desc.typ ≠ .reset → maxTime (s.die d).profile o.desc ≤ o.run - o.since →
    (o.desc.typ = .program → o.desc.count ≤ o.done) → Tbl.get (s.die d).ring o.slot = some x →
    ((s.die d).toRun < 2 →
      ∃ t p, exec (.fchDieTimeout d) s = .next t ∧ t.records d o.slot .timeout ∧ (t.die d).op = some p ∧
        p.slot = 64 ∧ p.desc.typ = .reset ∧ (t.die d).toRun = (s.die d).toRun + 1 ∧
        (t.die d).service = (s.die d).service ∧ s.tells t lFCH_DIE_TIMEOUT none [p2 d, p4 o.desc.typ.ctorIdx]) ∧
    (2 ≤ (s.die d).toRun → (s.die d).service = true →
      ∃ t, exec (.fchDieTimeout d) s = .next t ∧ t.records d o.slot .timeout ∧ (t.die d).service = false ∧
        t.par.lostArm = s.par.lostArm ++ [d])) ∧
  (∀ (s : State) (d : Nat) (o r : DieOp) (x y : Desc), (s.die d).reinRead = some r → (s.die d).op = some o →
    r.ready = false → r.desc.typ ≠ .reset → maxTime (s.die d).profile r.desc ≤ r.run - r.since →
    Tbl.get (s.die d).ring r.slot = some x → x.chain = false → Tbl.get (s.die d).ring o.slot = some y →
    o.slot ≠ r.slot → (s.die d).toRun < 2 →
    ∃ t, exec (.fchDieTimeout d) s = .next t ∧ t.records d r.slot .timeout ∧ t.records d o.slot .resetAbort ∧
      (t.die d).reinRead = none ∧ (t.die d).armed = none) ∧
  (∀ (s : State) (d : Nat) (o : DieOp), (s.die d).op = some o → o.desc.typ = .reset → o.ready = false →
    maxTime (s.die d).profile o.desc ≤ o.run → (s.die d).service = true →
    ∃ t, exec (.dieResetTimeout d) s = .next t ∧ (t.die d).service = false ∧ (t.die d).op = none ∧
      t.par.lostArm = s.par.lostArm ++ [d] ∧ s.tells t lFCH_DIE_OUT none [p2 d] ∧
      (∀ e, e ≠ d → t.die e = s.die e) ∧ t.fch.media = s.fch.media) ∧
  (∀ (s : State) (d i : Nat) (x : Desc) (o : DieOp), startable s d i .read = some x → (s.die d).op = some o →
    x.rein = true → preCheck s d x = none →
    (reinable s d o = true → groupRoom (s.chan (chanOf d)) 1 = true →
      ∃ t p, exec (.reinSuspend d i) s = .next t ∧ (t.die d).op = some p ∧
        p.phase = .suspending (s.die d).profile.suspend ∧ p.reins = o.reins + 1 ∧ p.desc = o.desc ∧ p.run = o.run ∧
        (∀ e, e ≠ d → t.die e = s.die e) ∧ Frame [.fch, .fns, .pages, .regs] s t) ∧
    (reinKind o = true → o.phase = .none → reinRefuses s d o = true → ∀ busy,
      ∃ t, exec (.descriptorRead d i busy) s = .next t ∧ t.records d i .reinRefused ∧ (t.die d).op = some o) ∧
    (o.phase = .suspended ∨ o.phase = .suspending 0 → (s.die d).reinRead = none → noRecord s (chanOf d) = false →
      groupRoom (s.chan (chanOf d)) ((if o.reinReads = 0 then 1 else 0) + (startsOf s d x).length) = true →
      o.reinReads < s.rdAt rFCH_MAX_READS (chanOf d) 0 →
      ∃ t p r, exec (.reinRead d i) s = .next t ∧ (t.die d).op = some p ∧ p.desc = o.desc ∧ p.phase = .suspended ∧
        p.reinReads = o.reinReads + 1 ∧ (t.die d).reinRead = some r ∧ r.desc = x ∧ r.slot = i ∧
        (∀ e, e ≠ d → t.die e = s.die e) ∧ Frame [.fch, .fns] s t)) ∧
  (∀ (s : State) (d : Nat) (o : DieOp), (s.die d).op = some o → (s.die d).reinRead = none →
    o.phase = .suspended ∨ (o.phase = .suspending 0 ∧ startsHeld s (chanOf d) = true) →
    groupRoom (s.chan (chanOf d)) 1 = true →
    ∃ t, exec (.reinResume d) s = .next t ∧
      (t.die d).op = some { o with
        phase := (if (s.die d).profile.resume = 0 then .none else .resuming (s.die d).profile.resume),
        interval := 0, reinReads := 0 } ∧
      (∀ e, e ≠ d → t.die e = s.die e) ∧ Frame [.fch, .fns] s t) ∧
  (∀ (s : State) (nn : Nat), (s.chan nn).busy = false → (s.chan nn).slot < slotsPerStride (s.chan nn) →
    (requests s nn = [] →
      ∃ t, exec (.slotArbitration nn) s = .next t ∧ (t.chan nn).owner = none ∧ (t.chan nn).burst = 0 ∧
        (t.chan nn).slot = (s.chan nn).slot + 1 ∧ (t.chan nn).busy = false ∧ (∀ k, k ≠ nn → t.chan k = s.chan k) ∧
        t.fch.dies = s.fch.dies ∧ Frame [.fch, .regs] s t) ∧
    (requests s nn ≠ [] → (∀ q ∈ requests s nn, q.2 ≤ 6) →
      ∃ t w, exec (.slotArbitration nn) s = .next t ∧ (t.chan nn).owner = some w ∧ (∃ q ∈ requests s nn, q.1 = w) ∧
        (t.chan nn).slot = (s.chan nn).slot + 1 ∧ (t.chan nn).busy = decide (w < 32) ∧
        (∀ k, k ≠ nn → t.chan k = s.chan k) ∧ t.fch.dies = s.fch.dies ∧ Frame [.fch, .regs] s t)) ∧
  (∀ (s : State) (nn r : Nat), (s.chan nn).owner = some r → (s.chan nn).busy = true → r < 32 →
    (∀ o, (s.die (nn * 32 + r)).reinRead = none → (s.die (nn * 32 + r)).op = some o →
      ∃ t, exec (.codewordTransferEnd nn) s = .next t ∧ (t.chan nn).busy = false ∧
        (t.die (nn * 32 + r)).op = some { o with done := o.done + 1 } ∧
        (o.desc.cls ≤ 1 → (t.fn o.desc.tag.fn).cur.slots = (s.fn o.desc.tag.fn).cur.slots + 1) ∧
        (∀ e, e ≠ nn * 32 + r → t.die e = s.die e) ∧
        (o.desc.typ ≠ .program → Frame [.fch, .fns] s t)) ∧
    (∀ o, (s.die (nn * 32 + r)).reinRead = some o →
      ∃ t, exec (.codewordTransferEnd nn) s = .next t ∧ (t.chan nn).busy = false ∧
        (t.die (nn * 32 + r)).reinRead = some { o with done := o.done + 1 } ∧ Frame [.fch, .fns] s t)) ∧
  (∀ (s : State) (nn r : Nat) (x : Stall), Tbl.get (s.chan nn).stalls r = some x → x.promoted = false →
    s.rdAt rFCH_AGE_LIMIT nn 0 ≤ x.age →
    ∃ t, exec (.fchStallPromote nn r) s = .next t ∧
      Tbl.get (t.chan nn).stalls r = some { x with promoted := true } ∧ (∀ k, k ≠ nn → t.chan k = s.chan k) ∧
      Frame [.fch, .regs] s t) ∧
  (∀ (s : State) (d : Nat), retrainable s d = true → (s.chan (chanOf d)).owner = some 33 →
    (s.chan (chanOf d)).group = [] →
    (∃ t, exec (.dieRetrain d false) s = .next t ∧ (t.die d).trainedAt = s.tbs.clk / 1000000 ∧
      (t.die d).trainTemp = (s.die d).temp ∧ (∀ e, e ≠ d → t.die e = s.die e) ∧ Frame [.fch] s t) ∧
    (∃ t, exec (.dieRetrain d true) s = .next t ∧ (t.chan (chanOf d)).retraining = true ∧ t.stp.degraded = true ∧
      s.tells t lFCH_RATE_DROP none [p4 (chanOf d)])) ∧
  (∀ (s : State) (nn rate : Nat), (s.chan nn).retraining = true →
    (s.fch.dies.all fun p => chanOf p.1 != nn || (p.2.op.isNone && p.2.reinRead.isNone)) = true →
    (ladderRate rate = true → rate < (s.chan nn).rate →
      ∃ t, exec (.channelRetrainDone nn rate) s = .next t ∧ (t.chan nn).retraining = false ∧ (t.chan nn).rate = rate ∧
        (∀ k, k ≠ nn → t.chan k = s.chan k) ∧ t.fch.dies = s.fch.dies ∧ Frame [.stp, .fch, .pages] s t) ∧
    (∃ t, exec (.channelRetrainDone nn 0) s = .next t ∧ (t.chan nn).retraining = false ∧ (t.chan nn).rate = 0 ∧
      ∀ d y, Tbl.get s.fch.dies d = some y → chanOf d = nn → (t.die d).service = false)) ∧
  (∀ (s : State) (nn : Nat) (short open_ : BitVec 22), nn < 32 →
    ((s.chan nn).inService = true → ∃ t, exec (.fchPinGo nn short open_) s = .next t ∧ Frame [.gate] s t) ∧
    ((s.chan nn).inService = false →
      ∃ t, exec (.fchPinGo nn short open_) s = .next t ∧ t.rdAt rFCH_PIN_SHORT nn 0 = short.toNat ∧
        t.rdAt rFCH_PIN_OPEN nn 0 = open_.toNat ∧ (short = 0 → open_ = 0 → Frame [.gate, .regs] s t)))

/-- O52. Key exchange, key loads, clears and the random bit generator act as stated. A Key Exchange Offer of any function
sets its wrapping key and offer, and its response answers the device's public value, nonce and signature, or ends with
Command Sequence Error without an offer; after a failed health test the offer ends with Internal Error and sets no
key. Load Namespace Key by the owner of a persistent namespace loads the unwrapped key under a new generation, keeps
the old one as shadow and waits for its NOR record, and of a volatile one completes; a blob that does not unwrap is
counted, recorded and loads nothing. Load Migration Key and its clear act on slot 256. Clear Key empties the slot and
waits for the shadow; SHADOW_ZEROIZE, with no job that uses it, zeroizes the shadow and ends the commands that wait. A
failed DRBG test is recorded and stays. -/
def Obligations.KeyCommandsComplete : Prop :=
  (∀ (s : State) (seq pub nonce : Nat) (c : Cmd), s.adminCmd seq = some c →
    (s.key.health = true →
      ∃ t o, exec (.keyExchangeOffer seq pub nonce) s = .next t ∧ s.ends t seq stOk 0 ∧
        (t.keySlot c.fn).key = some (exchangeKey s pub nonce s.draws c.fn) ∧
        (t.keySlot c.fn).gen = (s.keySlot c.fn).gen + 1 ∧ Tbl.get t.key.offers c.fn = some o ∧ o.hostPub = pub ∧
        o.hostNonce = nonce ∧ t.key.requests = s.key.requests + 1 ∧
        (∀ k, k ≠ c.fn → t.keySlot k = s.keySlot k)) ∧
    (s.key.health = false →
      ∃ t, exec (.keyExchangeOffer seq pub nonce) s = .next t ∧ s.ends t seq stInternal 0 ∧ t.key = s.key) ∧
    (∀ o, Tbl.get s.key.offers c.fn = some o →
      ∃ t, exec (.exchangeResponse seq) s = .next t ∧ s.ends t seq stOk 0 ∧ t.key = s.key ∧
        t.ans = .bytes (leBytes 97 o.devPub ++ leBytes 32 o.devNonce ++ leBytes 96 o.sig)) ∧
    (Tbl.get s.key.offers c.fn = none →
      ∃ t, exec (.exchangeResponse seq) s = .next t ∧ s.ends t seq stSequence 0 ∧ t.ans = s.ans) ∧
    (∀ off len, ∃ t, exec (.certificateChain seq off len) s = .next t ∧ s.ends t seq stOk 0 ∧
      t.ans = .bytes (((Config.certChain (aliasMeas s)).drop off).take (min len 4096)))) ∧
  (∀ (s : State) (seq nsid ns : Nat) (sp : Space) (c : Cmd), s.adminCmd seq = some c →
    spaceOf s c.fn nsid = some (ns, sp) →
    (∃ t b, exec (.keyStatus seq nsid) s = .next t ∧ s.ends t seq stOk 0 ∧ t.ans = .bytes b ∧ b.length = 16 ∧
      t.key = s.key) ∧
    ((s.keySlot (keySlotNs ns)).key.isSome = true → nsid ≠ 0xFFFFFFFF →
      ∃ t, exec (.clearKey seq nsid) s = .next t ∧ s.waits t seq ∧ (t.keySlot (keySlotNs ns)).key = none ∧
        (t.keySlot (keySlotNs ns)).shadow = (s.keySlot (keySlotNs ns)).key ∧
        (∀ k, k ≠ keySlotNs ns → t.keySlot k = s.keySlot k)) ∧
    ((s.keySlot (keySlotNs ns)).key = none → nsid ≠ 0xFFFFFFFF →
      ∃ t, exec (.clearKey seq nsid) s = .next t ∧ s.ends t seq stOk 0 ∧ t.key = s.key) ∧
    (∀ data k, c.fn = sp.owner → sp.source = .volatile → sp.mode ≠ .none →
      unwrapFor s c.fn ns sp (keyBlob data) = some k →
      ∃ t, exec (.loadNamespaceKey seq nsid data) s = .next t ∧ s.ends t seq stOk 0 ∧
        (t.keySlot (keySlotNs ns)).key = some k ∧ (t.keySlot (keySlotNs ns)).keyId = (keyBlob data).keyId ∧
        t.shows eKEY_LOAD) ∧
    (∀ data k, c.fn = sp.owner → sp.source = .persistent → sp.mode ≠ .none →
      unwrapFor s c.fn ns sp (keyBlob data) = some k →
      ∃ t, exec (.loadNamespaceKey seq nsid data) s = .next t ∧ s.waits t seq ∧
        (t.keySlot (keySlotNs ns)).key = some k ∧ (t.keySlot (keySlotNs ns)).keyId = (keyBlob data).keyId ∧
        (t.keySlot (keySlotNs ns)).gen = (s.keySlot (keySlotNs ns)).gen + 1 ∧ t.shows eKEY_LOAD ∧
        (∀ i, i ≠ keySlotNs ns → t.keySlot i = s.keySlot i)) ∧
    (∀ data, c.fn = sp.owner → sp.source ≠ .generated → sp.mode ≠ .none →
      unwrapFor s c.fn ns sp (keyBlob data) = none →
      ∃ t, exec (.loadNamespaceKey seq nsid data) s = .next t ∧ s.ends t seq stInvalidField 0 ∧ t.key = s.key ∧
        t.shows eKEY_UNWRAP_FAIL ∧ s.tells t lKEY_UNWRAP_FAIL (some c.fn) []) ∧
    (∀ data, c.fn ≠ sp.owner ∨ sp.source = .generated ∨ sp.mode = .none →
      ∃ t, exec (.loadNamespaceKey seq nsid data) s = .next t ∧ s.ends t seq stInvalidField 0 ∧ t.key = s.key)) ∧
  (∀ (s : State) (seq nsid : Nat) (c : Cmd) (data : List Byte) (i : Instr), s.adminCmd seq = some c →
    spaceOf s c.fn nsid = none →
    i = .keyStatus seq nsid ∨ (i = .clearKey seq nsid ∧ nsid ≠ 0xFFFFFFFF) ∨ i = .loadNamespaceKey seq nsid data →
    ∃ t, exec i s = .next t ∧ s.ends t seq stInvalidNs 0 ∧ t.key = s.key ∧ t.ans = s.ans) ∧
  (∀ (s : State) (seq : Nat) (c : Cmd), s.adminCmd seq = some c → c.fn ≠ 0 →
    ∃ t, exec (.clearKey seq 0xFFFFFFFF) s = .next t ∧ s.ends t seq stInvalidField 0 ∧ t.key = s.key) ∧
  (∀ (s : State) (seq : Nat) (data : List Byte) (c : Cmd), s.adminCmd seq = some c → c.fn = 0 →
    (∀ kwk k, (s.keySlot 0).key = some kwk → Config.keyUnwrap kwk (keyBlob data).wrapped = some k →
      blobFits (keyBlob data) 256 = true →
      ∃ t, exec (.loadMigrationKey seq data) s = .next t ∧ s.ends t seq stOk 0 ∧ (t.keySlot 256).key = some k ∧
        (t.keySlot 256).gen = (s.keySlot 256).gen + 1 ∧ (∀ i, i ≠ 256 → t.keySlot i = s.keySlot i)) ∧
    (((s.keySlot 0).key.bind fun kwk => Config.keyUnwrap kwk (keyBlob data).wrapped) = none ∨
        blobFits (keyBlob data) 256 = false →
      ∃ t, exec (.loadMigrationKey seq data) s = .next t ∧ s.ends t seq stInvalidField 0 ∧ t.key = s.key) ∧
    (∃ t, exec (.clearKey seq 0xFFFFFFFF) s = .next t ∧ s.ends t seq stOk 0 ∧ (t.keySlot 256).key = none ∧
      (∀ i, i ≠ 256 → t.keySlot i = s.keySlot i))) ∧
  (∀ (s : State) (k : Nat), shadowUsed s k = false →
    ∃ t, exec (.shadowZeroize k) s = .next t ∧ (t.keySlot k).shadow = none ∧
      (t.keySlot k).key = (s.keySlot k).key ∧ (∀ i, i ≠ k → t.keySlot i = s.keySlot i) ∧
      (∀ x ∈ s.key.clears, x.slot = k → ∀ q, x.seq = some q → t.cmd? q = none) ∧
      t.key.clears = s.key.clears.filter fun x => x.slot != k) ∧
  (∀ (s : State) (k : Nat), shadowUsed s k = true → exec (.shadowZeroize k) s = .next s) ∧
  (∀ s : State, 2 ^ 20 ≤ s.key.requests →
    ∃ t, exec .drbgReseed s = .next t ∧ t.key.requests = 0 ∧ t.key.slots = s.key.slots ∧ Frame [.key, .regs] s t) ∧
  (∀ s : State, ∃ t, exec .keyDrbgFail s = .next t ∧ t.key.health = false ∧ t.shows eKEY_DRBG_FAIL ∧
    s.tells t lKEY_DRBG_FAIL none [] ∧ t.key.slots = s.key.slots)

/-- O53. SPDM requests keep their order and sessions, and IDE_KM programs streams. On a transport that works: GET_VERSION
answers 1.2 and 1.3 and begins the negotiation; GET_CAPABILITIES and NEGOTIATE_ALGORITHMS follow in order and out of
order are refused; the other requests need the negotiation complete. GET_CERTIFICATE, CHALLENGE and GET_MEASUREMENTS
answer slot 0 and refuse others. KEY_EXCHANGE opens a session while fewer than four are open; a good FINISH completes
it and a bad one ends it; HEARTBEAT, KEY_UPDATE and END_SESSION act in a finished session alone. IDE_KM programs a
stream's key and range, makes it Secure with a key, and stops it. Nothing but the answer, the draws, KEY, HIF, a
counter and the domains that the message wakes changes. -/
def Obligations.SpdmAndIdeComplete : Prop :=
  (∀ (s : State) (doe : Bool), (if doe then s.hif.ports.any fun p => p.2.up else sbiPowered s) = true →
    (∃ t, exec (.getVersion doe) s = .next t ∧ spdmStep t doe = 1 ∧
      t.ans = .bytes (leBytes 2 0x1200 ++ leBytes 2 0x1300) ∧ spdmStep t (!doe) = spdmStep s (!doe)) ∧
    (spdmStep s doe = 1 →
      ∃ t, exec (.getCapabilities doe) s = .next t ∧ spdmStep t doe = 2 ∧ t.ans = .value spdmFlags) ∧
    (spdmStep s doe ≠ 1 →
      ∃ t, exec (.getCapabilities doe) s = .next t ∧ t.ans = .refusal spdmUnexpected ∧ t.key = s.key) ∧
    (spdmStep s doe = 2 →
      (∃ t, exec (.negotiateAlgorithms doe true true true true) s = .next t ∧ spdmStep t doe = 3 ∧ t.ans = .none) ∧
      ∀ e h k a, (e && h && k && a) = false →
        ∃ t, exec (.negotiateAlgorithms doe e h k a) s = .next t ∧ t.ans = .refusal spdmInvalid ∧ t.key = s.key) ∧
    (spdmStep s doe ≠ 2 → ∀ e h k a,
      ∃ t, exec (.negotiateAlgorithms doe e h k a) s = .next t ∧ t.ans = .refusal spdmUnexpected ∧ t.key = s.key) ∧
    (spdmStep s doe < 3 → ∀ i slot n,
      i ∈ [Instr.getDigests doe, .getCertificate doe slot n n, .challenge doe slot n, .getMeasurements doe slot n,
        .keyExchange doe, .finish doe n true, .heartbeat doe n, .keyUpdate doe n, .endSession doe n] →
      ∃ t, exec i s = .next t ∧ t.ans = .refusal spdmUnexpected ∧ t.key = s.key) ∧
    (3 ≤ spdmStep s doe →
      (∃ t, exec (.getDigests doe) s = .next t ∧ t.ans = .value (Config.certDigest (aliasMeas s)) ∧ t.key = s.key) ∧
      (∀ off len, s.key.certOk = true →
        ∃ t, exec (.getCertificate doe 0 off len) s = .next t ∧ t.key = s.key ∧
          t.ans = .bytes (((Config.certChain (aliasMeas s)).drop off).take len)) ∧
      (∀ nonce, ∃ t, exec (.challenge doe 0 nonce) s = .next t ∧ t.key = s.key ∧
        t.ans = .value (Config.aliasSign (aliasMeas s) nonce)) ∧
      (∀ slot off len, slot ≠ 0 → (∃ t, exec (.getCertificate doe slot off len) s = .next t ∧
          t.ans = .refusal spdmInvalid ∧ t.key = s.key) ∧
        (∃ t, exec (.challenge doe slot len) s = .next t ∧ t.ans = .refusal spdmInvalid ∧ t.key = s.key)) ∧
      (∀ index nonce ms, measOf s index = some ms →
        ∃ t, exec (.getMeasurements doe index nonce) s = .next t ∧ t.key = s.key ∧
          t.ans = .bytes (ms.flatMap (leBytes (if index = 0 then 1 else 48)) ++
            leBytes 96 (Config.aliasSign (aliasMeas s) nonce))) ∧
      (s.key.health = true → s.key.sessions.length < 4 →
        ∃ t x, exec (.keyExchange doe) s = .next t ∧ t.ans = .value s.key.nextSession ∧
          t.key.sessions = s.key.sessions ++ [x] ∧ x.id = s.key.nextSession ∧ x.finished = false ∧ x.doe = doe ∧
          t.key.nextSession = s.key.nextSession + 1) ∧
      (∀ index nonce, measOf s index = none →
        ∃ t, exec (.getMeasurements doe index nonce) s = .next t ∧ t.ans = .refusal spdmInvalid ∧ t.key = s.key) ∧
      (∀ off len, s.key.certOk = false →
        ∃ t, exec (.getCertificate doe 0 off len) s = .next t ∧ t.ans = .refusal spdmUnspecified ∧ t.key = s.key) ∧
      (s.key.health = false →
        ∃ t, exec (.keyExchange doe) s = .next t ∧ t.ans = .refusal spdmUnspecified ∧ t.key = s.key) ∧
      (∀ id i, (s.key.sessions.find? fun x => x.id == id && x.doe == doe) = none →
        i ∈ [Instr.finish doe id true, .finish doe id false, .heartbeat doe id, .keyUpdate doe id, .endSession doe id] →
        ∃ t, exec i s = .next t ∧ t.ans = .refusal spdmInvalidSession ∧ t.key = s.key) ∧
      (s.key.health = true → 4 ≤ s.key.sessions.length →
        ∃ t, exec (.keyExchange doe) s = .next t ∧ t.ans = .refusal spdmSessionLimit ∧ t.key = s.key) ∧
      (∀ id x, s.key.sessions.find? (fun x => x.id == id && x.doe == doe) = some x →
        (x.finished = false →
          (∃ t y, exec (.finish doe id true) s = .next t ∧ t.ans = .none ∧
            t.key.sessions.find? (fun x => x.id == id && x.doe == doe) = some y ∧ y.finished = true) ∧
          (∃ t, exec (.finish doe id false) s = .next t ∧ t.ans = .refusal spdmDecrypt ∧
            t.key.sessions = s.key.sessions.filter fun x => x.id != id) ∧
          (∃ t, exec (.heartbeat doe id) s = .next t ∧ t.ans = .refusal spdmUnexpected)) ∧
        (x.finished = true →
          (∃ t, exec (.heartbeat doe id) s = .next t ∧ t.ans = .none ∧ t.key = s.key) ∧
          (∃ t y, exec (.keyUpdate doe id) s = .next t ∧ t.ans = .none ∧
            t.key.sessions.find? (fun x => x.id == id && x.doe == doe) = some y ∧ y.keyGen = x.keyGen + 1) ∧
          (∃ t, exec (.endSession doe id) s = .next t ∧ t.ans = .none ∧
            t.key.sessions = s.key.sessions.filter fun x => x.id != id))))) ∧
  (∀ (s : State) (id k : Nat) (x : Session), s.hif.ports.any (fun p => p.2.up) = true → 3 ≤ spdmStep s true →
    s.key.sessions.find? (fun x => x.id == id && x.doe == true) = some x → x.finished = true →
    (k < 8 → ∀ key lo hi,
      (∃ t y, exec (.ideKm id k (.keyProg key lo hi)) s = .next t ∧ t.ans = .none ∧ Tbl.get t.hif.ide k = some y ∧
        y.key = some key ∧ y.ridLo = lo ∧ y.ridHi = hi ∧ Frame [.ans, .gate, .hif] s t) ∧
      (∀ z, Tbl.get s.hif.ide k = some z → z.key.isSome = true →
        ∃ t y, exec (.ideKm id k .go) s = .next t ∧ t.ans = .none ∧ Tbl.get t.hif.ide k = some y ∧ y.state = .secure ∧
          y.key = z.key) ∧
      (∃ t y, exec (.ideKm id k .stop) s = .next t ∧ t.ans = .none ∧ Tbl.get t.hif.ide k = some y ∧ y.state = .off ∧
        y.key = none)) ∧
    (8 ≤ k → ∀ op, ∃ t, exec (.ideKm id k op) s = .next t ∧ t.ans = .refusal spdmInvalid ∧ t.hif = s.hif))

/-- O54. Ports come up and go down, streams fail, and TLS keys and records are kept. A port that trains, at a rate within
MAX_SPEED and a width of the port, is up with its rate, width and mode, and clears PERST; a port that loses its link
or takes PERST is down with all three 0, and once the block is ready function 0 is disabled when the port owns it. A
configuration request of a port that is up answers, reads or writes Device Control, and one that IDE or SR-IOV refuses
is an Unsupported Request; a function in reset does not answer yet. A failed stream goes Insecure, and is recorded.
CLOSE closes BAR2. A TLS handshake with the right PSK takes the lowest free index and two keys; without KWK, a free
index or the right PSK it is refused and takes nothing. A good record counts; a bad one is counted, recorded and ends
its connection. A key update keeps the old key as shadow under a new generation. -/
def Obligations.PortsAndTlsComplete : Prop :=
  (∀ (s : State) (p speed width : Nat) (flit : Bool), portThere s p = true → (s.port p).up = false →
    (s.port p).training = true → 1 ≤ speed → speed ≤ 6 → speed ≤ s.rd rHIF_MAX_SPEED → width ∈ [1, 2, 4, 8] →
    (s.hif.dual = true → width ≠ 8) → (speed = 6 → flit = true) →
    ∃ t, exec (.pcieLinkUp p speed width flit) s = .next t ∧ (t.port p).up = true ∧ (t.port p).perst = false ∧
      t.rdAt rHIF_SPEEDp 0 p = speed ∧ t.rdAt rHIF_WIDTHp 0 p = width ∧ t.rdAt rHIF_FLITp 0 p = flit.toNat ∧
      t.shows eHIF_LINK_UP ∧ (∀ q, q ≠ p → t.port q = s.port q) ∧ Frame [.gate, .hif, .bot, .evl, .pages, .regs] s t) ∧
  (∀ (s : State) (p : Nat) (i : Instr), portThere s p = true →
    (i = .pcieLinkDown p ∧ (s.port p).up = true) ∨ (i = .perstAssert p ∧ (s.port p).perst = false) →
    ∃ t, exec i s = .next t ∧ (t.port p).up = false ∧ t.rdAt rHIF_SPEEDp 0 p = 0 ∧ t.rdAt rHIF_WIDTHp 0 p = 0 ∧
      t.rdAt rHIF_FLITp 0 p = 0 ∧ (i = .perstAssert p → (t.port p).perst = true) ∧
      ((s.port p).up = true → t.shows eHIF_LINK_DOWN ∧ s.tells t lHIF_LINK_DOWN none []) ∧
      (s.bot.ready = false → t.fns = s.fns) ∧
      (s.bot.ready = true → s.hif.dual = false ∨ s.hif.owner = some p → (t.fn 0).enabled = false ∧
        (t.fn 0).flrArm = some .linkDown) ∧
      Frame [.fns, .hif, .evl, .pages, .regs] s t) ∧
  (∀ (s : State) (p f : Nat) (stream : Bool), portThere s p = true → (s.port p).up = true →
    (configRefused s f stream = false → f = 0 ∨ (s.fn f).flr = none →
      (∀ off, ∃ t, exec (.pcieConfigRequest p f ⟨.word off, stream⟩) s = .next t ∧
        t.ans = .word (Config.configWord s.bot.cfg.digest f off) ∧ Frame [.ans, .gate] s t) ∧
      (∃ t, exec (.pcieConfigRequest p f ⟨.deviceControl none, stream⟩) s = .next t ∧
        t.ans = .word ((deviceControl s f).setWidth 32) ∧ Frame [.ans, .gate] s t) ∧
      (∀ v, ∃ t, exec (.pcieConfigRequest p f ⟨.deviceControl (some v), stream⟩) s = .next t ∧ t.ans = .none ∧
        deviceControl t f = v ∧ (∀ g, g ≠ f → deviceControl t g = deviceControl s g) ∧
        Frame [.ans, .gate, .hif] s t)) ∧
    (∀ a, configRefused s f stream = true →
      ∃ t, exec (.pcieConfigRequest p f ⟨a, stream⟩) s = .next t ∧ t.ans = .refusal 1 ∧ Frame [.ans, .gate] s t) ∧
    (∀ a, configRefused s f stream = false → f ≠ 0 → (s.fn f).flr.isSome = true →
      ∃ t, exec (.pcieConfigRequest p f ⟨a, stream⟩) s = .next t ∧ Frame [.gate] s t)) ∧
  (∀ (s : State) (k : Nat) (x : IdeStream), Tbl.get s.hif.ide k = some x → x.state = .secure →
    ∃ t y, exec (.hifIdeFail k) s = .next t ∧ Tbl.get t.hif.ide k = some y ∧ y.state = .insecure ∧
      t.shows eHIF_IDE_FAIL ∧ s.tells t lHIF_IDE_FAIL none [p4 k] ∧
      (∀ f, f < 256 → x.ridLo ≤ f → f ≤ x.ridHi → f = 0 ∨ (s.fn f).state = .active → (t.fn f).flrArm = some .pcieFlr) ∧
      (∀ j, j ≠ k → Tbl.get t.hif.ide j = Tbl.get s.hif.ide j)) ∧
  (∀ (s : State) (w : Dword), w.getLsbD 0 = true →
    ∃ t, exec (.hifWinClose w) s = .next t ∧ t.hif.closed = true ∧ t.hif.ports = s.hif.ports ∧ Frame [.gate, .hif] s t) ∧
  (∀ (s : State) (f suite psk : Nat), s.net.ready = true →
    ((s.keySlot 0).key = none → ∃ t, exec (.tlsHandshake f suite psk) s = .next t ∧ t.ans = .refusal 115 ∧
      Frame [.ans, .gate] s t) ∧
    (∀ kwk, (s.keySlot 0).key = some kwk →
      (psk ≠ tlsPsk s kwk f suite →
        ∃ t, exec (.tlsHandshake f suite psk) s = .next t ∧ t.ans = .refusal 51 ∧ Frame [.ans, .gate] s t) ∧
      (psk = tlsPsk s kwk f suite → freeTlsIndex s = none →
        ∃ t, exec (.tlsHandshake f suite psk) s = .next t ∧ t.ans = .refusal 80 ∧ t.shows eNET_TLS_FULL ∧
          Frame [.ans, .gate, .pages] s t) ∧
      (∀ a, psk = tlsPsk s kwk f suite → freeTlsIndex s = some a →
        ∃ t, exec (.tlsHandshake f suite psk) s = .next t ∧ t.ans = .value a ∧
          Tbl.get t.net.tls a = some (f, suite) ∧
          (t.keySlot (1536 + 2 * a)).key = some (Config.trafficKey s.draws) ∧
          (t.keySlot (1537 + 2 * a)).key = some (Config.trafficKey (s.draws + 1)) ∧ t.draws = s.draws + 2 ∧
          Frame [.ans, .draws, .gate, .key, .cip, .net] s t))) ∧
  (∀ (s : State) (a f suite : Nat), Tbl.get s.net.tls a = some (f, suite) →
    (∃ t, exec (.tlsRecordReceive a true) s = .next t ∧
      Tbl.getD t.cip.rxRecords a 0 = Tbl.getD s.cip.rxRecords a 0 + 1 ∧
      Frame [.gate, .cip, .regs] s t) ∧
    (∃ t, exec (.tlsRecordReceive a false) s = .next t ∧ t.ans = .refusal 20 ∧ t.shows eCIP_TLS_FAIL ∧
      s.tells t lCIP_TLS_FAIL (some f) [] ∧
      (((assocOf s f).any fun x => x.queues.any fun q => q.2 == some a) = true → f ≠ 256 → (s.fn f).flrArm = none →
        (t.fn f).flrArm = some .assocLost) ∧
      (((assocOf s f).any fun x => x.queues.any fun q => q.2 == some a) = false → Tbl.get t.net.tls a = none ∧ (t.keySlot (1536 + 2 * a)).key = none ∧
        (t.keySlot (1537 + 2 * a)).key = none)) ∧
    (∃ t, exec (.tlsKeyUpdate a true) s = .next t ∧
      (t.keySlot (1536 + 2 * a)).key = some (Config.trafficKey s.draws) ∧
      (t.keySlot (1536 + 2 * a)).shadow = (s.keySlot (1536 + 2 * a)).key ∧
      (t.keySlot (1536 + 2 * a)).gen = (s.keySlot (1536 + 2 * a)).gen + 1 ∧
      (∀ k, k ≠ 1536 + 2 * a → t.keySlot k = s.keySlot k) ∧ Frame [.draws, .key, .regs] s t) ∧
    (Tbl.getD s.cip.rxRecords a 0 < 2 ^ 23 → exec (.tlsKeyUpdate a false) s = .next s) ∧
    (2 ^ 23 ≤ Tbl.getD s.cip.rxRecords a 0 →
      ∃ t, exec (.tlsKeyUpdate a false) s = .next t ∧ Tbl.getD t.cip.rxRecords a 0 = 0 ∧
        (t.keySlot (1537 + 2 * a)).shadow = (s.keySlot (1537 + 2 * a)).key))

/-- O55. Interfaces, associations and network requests act as stated. Once NVMe is ready an interface of the mode comes up
and goes down with its LINK bit and event; a PFC storm on it ignores pause, records NET_PFC_STORM, and its end honours
pause again; ARP, Neighbor Discovery and ICMP to its own address answer, and to another do nothing; a router
advertisement sets the route and one of lifetime 0 from that router clears it. An accepted Connect makes the queue
pair of the size asked for and, for queue 0, the association, and answers the function; a refused one is counted and
answers its status. A command capsule of a connected queue with a free buffer waits with its gait. Keep-alive expiry,
and the close of the admin connection, lose the association: it is recorded and the function's reset is armed.
Property Get answers CAP, CC.EN, CSTS and CRTO; a discovery association begins and is lost alike, and discovery
answers an entry for each way to reach an active function that admits the host. -/
def Obligations.NetworkRowsComplete : Prop :=
  (∀ (s : State) (ix : Nat), ifaceThere s ix = true →
    (∀ up, (s.iface ix).up ≠ up → (up = true → s.net.ready = true ∧ s.thm.ps ≠ 4) →
      ∃ t, exec (.ethLinkChange ix up) s = .next t ∧ (t.iface ix).up = up ∧ (t.rd rNET_LINK).testBit ix = up ∧
        t.shows (if up then eNET_LINK_UP else eNET_LINK_DOWN) ∧ (∀ j, j ≠ ix → t.iface j = s.iface j) ∧
        Frame [.net, .pages, .regs] s t) ∧
    ((s.iface ix).up = true → (s.iface ix).ignorePause = false → s.rdBank rNET_PFC_EN 0 ix ≠ 0 →
      ∃ t, exec (.netPfcStorm ix) s = .next t ∧ (t.iface ix).ignorePause = true ∧ t.shows eNET_PFC_STORM ∧
        s.tells t lNET_PFC_STORM none [p4 ix] ∧ (∀ j, j ≠ ix → t.iface j = s.iface j)) ∧
    ((s.iface ix).ignorePause = true →
      ∃ t, exec (.pfcStormEnd ix) s = .next t ∧ (t.iface ix).ignorePause = false ∧ (t.iface ix).up = (s.iface ix).up ∧
        Frame [.net] s t) ∧
    ((s.iface ix).up = true →
      (∀ ip v6 data, ifaceHas s ix v6 ip = true →
        (v6 = false → ∃ t, exec (.arpRequest ix ip) s = .next t ∧ t.ans = .value (ifaceMac s ix) ∧
          Frame [.ans, .gate] s t) ∧
        (v6 = true → ∃ t, exec (.neighborDiscovery ix ip) s = .next t ∧ t.ans = .value (ifaceMac s ix) ∧
          Frame [.ans, .gate] s t) ∧
        (∃ t, exec (.icmpEcho ix ip v6 data) s = .next t ∧ t.ans = .bytes data ∧ Frame [.ans, .gate] s t)) ∧
      (∀ ip data i, (ifaceHas s ix false ip = false ∧ i = .arpRequest ix ip) ∨
          (ifaceHas s ix true ip = false ∧ i = .neighborDiscovery ix ip) ∨
          (∃ v6, ifaceHas s ix v6 ip = false ∧ i = .icmpEcho ix ip v6 data) →
        ∃ t, exec i s = .next t ∧ Frame [.gate] s t) ∧
      (∀ router lifetime, lifetime ≠ 0 →
        ∃ t, exec (.routerAdvertisement ix router lifetime) s = .next t ∧ (t.iface ix).v6Route = some router ∧
          (t.iface ix).up = true ∧ Frame [.gate, .net] s t) ∧
      (∀ router, (s.iface ix).v6Route = some router →
        ∃ t, exec (.routerAdvertisement ix router 0) s = .next t ∧ (t.iface ix).v6Route = none ∧
          (t.iface ix).up = true ∧ Frame [.gate, .net] s t))) ∧
  (∀ (s : State) (f qid size hostHash kato ix : Nat) (v6 rdma : Bool) (tls : Option Nat), s.net.ready = true →
    f ≠ 256 →
    (connectRefused s f qid hostHash rdma tls = none →
      ∃ t q k, exec (.connect f qid size hostHash kato ix v6 rdma tls) s = .next t ∧ t.ans = .value f ∧
        Tbl.get (t.fn f).sqs qid = some q ∧ q.size = max 2 (min size 4096) ∧ q.cqid = qid ∧ q.head = 0 ∧ q.tail = 0 ∧
        Tbl.get (t.fn f).cqs qid = some k ∧ k.size = max 2 (min size 4096) ∧ k.posted = [] ∧
        (qid = 0 → ∃ a, t.net.assocs = s.net.assocs ++ [a] ∧ a.fn = f ∧ a.hostHash = hostHash ∧ a.kato = kato ∧
          a.queues = [(0, tls)]) ∧
        (∀ b, qid ≠ 0 → assocOf s f = some b → assocOf t f = some { b with queues := b.queues ++ [(qid, tls)] }) ∧
        (∀ g, g ≠ f → t.fn g = s.fn g) ∧ Frame [.ans, .fns, .gate, .net] s t) ∧
    (∀ x, connectRefused s f qid hostHash rdma tls = some x →
      ∃ t, exec (.connect f qid size hostHash kato ix v6 rdma tls) s = .next t ∧ t.ans = .refusal x ∧
        t.shows eNET_CONN_REFUSED ∧ t.fns = s.fns ∧ t.net.assocs = s.net.assocs)) ∧
  (∀ (s : State) (qid size hostHash kato ix : Nat) (v6 rdma : Bool) (tls : Option Nat), s.net.ready = true →
    (discoveryRefused s qid rdma = none →
      ∃ t a, exec (.connect 256 qid size hostHash kato ix v6 rdma tls) s = .next t ∧
        t.ans = .value (Config.discoveryCntlid s.draws).toNat ∧ t.net.assocs = s.net.assocs ++ [a] ∧
        a.discovery = true ∧ a.hostHash = hostHash ∧ a.kato = kato ∧ Frame [.ans, .draws, .gate, .net] s t) ∧
    (∀ x, discoveryRefused s qid rdma = some x →
      ∃ t, exec (.connect 256 qid size hostHash kato ix v6 rdma tls) s = .next t ∧ t.ans = .refusal x ∧
        t.shows eNET_CONN_REFUSED ∧ t.net.assocs = s.net.assocs)) ∧
  (∀ (s : State) (i : Nat),
    ((s.net.assocs.findIdx? fun a => a.discovery) = some i →
      ∃ t, exec (.adminConnectionClose 256) s = .next t ∧ t.net.assocs = s.net.assocs.eraseIdx i ∧
        t.shows eNET_ASSOC_LOST ∧ t.fns = s.fns) ∧
    ((s.net.assocs.findIdx? fun a => a.discovery && decide (a.kato ≠ 0 ∧ a.kaClk + 1000000 * a.kato ≤ s.tbs.clk)) =
        some i →
      ∃ t, exec (.keepAliveExpiry 256) s = .next t ∧ t.net.assocs = s.net.assocs.eraseIdx i ∧
        t.shows eNET_ASSOC_LOST ∧ t.fns = s.fns)) ∧
  (∀ (s : State) (f qid cid dscp : Nat) (a : Assoc), assocOf s f = some a → (∃ q ∈ a.queues, q.1 = qid) →
    capsuleRoom s f qid = true →
    ∃ t, exec (.commandCapsule f qid cid dscp) s = .next t ∧
      t.net.capsules = s.net.capsules ++
        [(f, qid, cid, s.rdAt rNET_DSCP_GAITk 0 (dscp % 64 / 16) / 4 ^ (dscp % 16) % 4)] ∧
      t.net.assocs = s.net.assocs ∧ Frame [.gate, .net] s t) ∧
  (∀ (s : State) (f : Nat) (a : Assoc), assocOf s f = some a → f ≠ 256 →
    (s.fn f).flrArm = none →
    (a.kato ≠ 0 → a.kaClk + 1000000 * a.kato ≤ s.tbs.clk →
      ∃ t, exec (.keepAliveExpiry f) s = .next t ∧ (t.fn f).flrArm = some .assocLost ∧ t.shows eNET_ASSOC_LOST ∧
        s.tells t lNET_ASSOC_LOST (some f) [p4 1] ∧ (∀ g, g ≠ f → t.fn g = s.fn g)) ∧
    (a.kato = 0 ∨ s.tbs.clk < a.kaClk + 1000000 * a.kato → exec (.keepAliveExpiry f) s = .next s) ∧
    (∃ t, exec (.adminConnectionClose f) s = .next t ∧ (t.fn f).flrArm = some .assocLost ∧ t.shows eNET_ASSOC_LOST ∧
      s.tells t lNET_ASSOC_LOST (some f) [p4 2] ∧ (∀ g, g ≠ f → t.fn g = s.fn g))) ∧
  (∀ (s : State) (f : Nat) (a : Assoc), assocOf s f = some a →
    (∀ off v, (off = 0 ∧ v = cap f) ∨ (off = 0x14 ∧ v = if (s.fn f).enabled then 1 else 0) ∨
        (off = 0x1C ∧ v = csts s f) ∨ (off = 0x68 ∧ v = 240) →
      ∃ t, exec (.propertyGet f off) s = .next t ∧ t.ans = .value v ∧ Frame [.ans, .gate] s t)) ∧
  (∀ (s : State) (hostHash : Nat) (es : List DiscItem), s.net.ready = true → s.rd rNET_DISC_EN ≠ 0 →
    es = discoveryItems s (fun f => hostAllowed s f hostHash) →
    ∃ t b, exec (.discoveryLogPage hostHash) s = .next t ∧ t.ans = .bytes b ∧
      b.take 16 = leBytes 8 s.net.discGen ++ leBytes 8 es.length ∧ b.length = 1024 * (1 + es.length) ∧
      (∀ x ∈ es, hostAllowed s x.fn hostHash = true ∧ (s.fn x.fn).state = .active) ∧ Frame [.ans, .gate, .net] s t)

/-- O56. Housekeeping, throttling, snuff, power states, string tests and the freeze of a dump. A round counts, starts its
stride count and die-time again, stores each fitted channel's code and scaled value, and leaves the throttle level at
or above every candidate. An open test marks exactly the channels that move by more than OPEN_THR. A package reading
leaves model temperatures and controller nodes, and adds half of the difference of the hottest die to the bias. The
level falls by one once every candidate has stayed below it for 1 s, with both events, and not before. Snuff powers
off after the dump and the direct record: SNUFF_N asserted, FPWR_EN low, no command, no core. PS3 or PS4 is entered
with no acknowledged data, no I/O command and no die operation; PS4 drops the Ethernet links. A string test stores C,
ESR and the state they give, and isolates an OPEN string; where the holdings do not fit the ceiling without the string
it is deferred. TEST_NOW makes every connected string due. A freeze runs the dump with no command, read or core left;
the links fall in a power-failure or snuff dump only. -/
def Obligations.PowerRowsComplete : Prop :=
  (∀ (s : State) (codes : Tbl (BitVec 12)) (diodes : List Int) (restores : Option Nat),
    roundStrides s ≤ s.thm.sinceRound → s.bot.phase ≠ 0 →
    ∃ t, exec (.housekeepingRound codes diodes restores) s = .next t ∧ t.thm.rounds = s.thm.rounds + 1 ∧
      t.thm.sinceRound = 0 ∧ t.thm.dieTime = [] ∧ candidate t ≤ t.thm.level ∧
      (∀ c, c < 64 → chanFitted s c = true → (t.hk c).raw = (Tbl.getD codes c 0).toNat ∧
        (t.hk c).val = scaleCode s c (Tbl.getD codes c 0).toNat) ∧
      Frame [.stp, .qmx, .fns, .wbf, .fch, .thm, .hld, .evl, .pages, .regs] s t) ∧
  (∀ (s : State) (moves : Tbl Nat), s.thm.lastOpen + 100 ≤ s.thm.rounds →
    ∃ t, exec (.openTest moves) s = .next t ∧ t.thm.lastOpen = s.thm.rounds ∧
      (∀ c, (t.hk c).broken = true ↔ (s.hk c).broken = true ∨
        ∃ d, (c, d) ∈ s.bot.cfg.channels ∧ d.openThr < Tbl.getD moves c 0) ∧
      Frame [.thm, .hld, .evl, .pages, .regs] s t) ∧
  (∀ (s : State) (readings : Tbl Int), s.thm.lastPkg + 60000000000 ≤ s.tbs.clk → s.bot.ready = true →
    s.thm.snuff ≠ .off →
    ∃ t, exec (.packageTemperatureRead readings) s = .next t ∧ t.thm.lastPkg = s.tbs.clk ∧
      (∀ k, k < 12 → Tbl.get t.thm.nodes k = Tbl.get s.thm.nodes k) ∧
      (∀ k x, Tbl.get s.thm.nodes k = some x → ∃ y, Tbl.get t.thm.nodes k = some y ∧ y.t = x.t) ∧
      ((s.bot.cfg.nodes.map Prod.fst).Nodup → ∀ k n x d r, (k, n) ∈ s.bot.cfg.nodes → 12 ≤ k →
        Tbl.get s.thm.nodes k = some x → d ∈ n.dies → (s.die d).service = true → Tbl.get readings d = some r →
        (∀ e ∈ n.dies, (s.die e).service = true → ∀ q, Tbl.get readings e = some q → q ≤ r) →
        ∃ y, Tbl.get t.thm.nodes k = some y ∧ y.bias = x.bias + ((r : Rat) - (x.t + x.bias)) / 2) ∧
      Frame [.thm] s t) ∧
  (∀ (s : State) (b : Nat), s.thm.belowSince = some b →
    (b + 1000000000 ≤ s.tbs.clk → candidate s < s.thm.level →
      ∃ t, exec .throttleLevelLower s = .next t ∧ t.thm.level = s.thm.level - 1 ∧
        t.stp.throttleNext = s.thm.level - 1 ∧ t.thm.belowSince = none ∧ t.shows eTHM_THROTTLE ∧
        t.shows eSTP_THROTTLE ∧ s.tells t lSTP_THROTTLE none [] ∧ Frame [.stp, .thm, .evl, .pages, .regs] s t) ∧
    (s.tbs.clk < b + 1000000000 → exec .throttleLevelLower s = .next s)) ∧
  (∀ s : State, s.thm.snuff = .dumping →
    (dumpBusy s = false → directWaits s = false →
      ∃ t, exec .snuffPowerOff s = .next t ∧ t.thm.snuff = .off ∧ t.thm.ps = 0 ∧ t.pins.snuffN = false ∧
        t.pins.fpwrEn = 0 ∧ t.qmx.cmds = [] ∧ t.cpx.running = 0 ∧ t.bot.ready = false ∧
        Frame [.qmx, .thm, .bot, .pins, .cpx] s t) ∧
    (dumpBusy s = true ∨ directWaits s = true → exec .snuffPowerOff s = .next s)) ∧
  (∀ (s : State) (n : Nat), s.thm.psArm = some n → 3 ≤ n → ackSlots s = 0 → (∀ c ∈ s.qmx.cmds, c.admin = true) →
    diesIdle s = true →
    ∃ t, exec .lowPowerStateEntry s = .next t ∧ t.thm.ps = n ∧ t.thm.psArm = none ∧ t.shows eTHM_PS_CHANGE ∧
      (n = 4 → ∀ k i, Tbl.get t.net.ifaces k = some i → i.up = false) ∧ (n ≠ 4 → t.net = s.net) ∧
      Frame [.net, .thm, .pages] s t) ∧
  (∀ (s : State) (k tAll tK esr : Nat), s.hld.toTest.contains k = true → (strOf s k).iso = false →
    s.hld.dump = .idle → s.hld.charged = true →
    (ackSlots s ≤ ceilingOf (energyOf s (Tbl.set s.hld.strings k { strOf s k with iso := true })) * 252 →
      ∃ t, exec (.stringTest k tAll tK esr) s = .next t ∧ (strOf t k).cUf = measuredC s tAll tK ∧
        (strOf t k).esr = esr ∧ (strOf t k).state = testedState s k (measuredC s tAll tK) esr ∧
        ((strOf t k).iso = true ↔ (strOf t k).state = .open) ∧ (strOf t k).defers = 0 ∧
        t.hld.toTest = s.hld.toTest.filter (fun j => j != k) ∧ (t.hld.toTest = [] → t.hld.lastTest = s.tbs.clk) ∧
        (∀ j, j ≠ k → strOf t j = strOf s j) ∧ Frame [.wbf, .hld, .evl, .pages, .regs] s t) ∧
    (ceilingOf (energyOf s (Tbl.set s.hld.strings k { strOf s k with iso := true })) * 252 < ackSlots s →
      (strOf s k).defers = 0 ∨ (strOf s k).deferredAt ≠ s.thm.rounds →
      ∃ t, exec (.stringTest k tAll tK esr) s = .next t ∧ (strOf t k).defers = (strOf s k).defers + 1 ∧
        (strOf t k).state = (strOf s k).state ∧ (strOf t k).iso = false ∧
        ((strOf t k).discount = true ↔ 99 ≤ (strOf s k).defers) ∧ t.hld.toTest = s.hld.toTest ∧
        t.shows eHLD_TEST_DEFER ∧ (∀ j, j ≠ k → strOf t j = strOf s j))) ∧
  (∀ (s : State) (p : Path) (w : Dword),
    ∃ t, exec (.hldTestNow p w) s = .next t ∧
      (w.getLsbD 31 = true → s.hld.toTest = [] → t.hld.toTest = connected s) ∧
      (w.getLsbD 31 = false → t.hld = s.hld) ∧ t.hld.strings = s.hld.strings ∧ Frame [.hld, .paths, .regs] s t) ∧
  (∀ (s : State) (c : DumpCause), s.hld.dump = .armed c →
    ∃ t, exec .dumpFreeze s = .next t ∧ t.hld.dump = .running c ∧ t.qmx.cmds = [] ∧ t.stp.reads = [] ∧
      t.stp.engs = [] ∧ t.cpx.running = 0 ∧ t.pins.hldLoadN = true ∧ t.wbf = s.wbf ∧ t.map = s.map ∧
      (c = .powerFail ∨ c = .snuff → t.net.assocs = [] ∧ ∀ p x, Tbl.get t.hif.ports p = some x → x.up = false) ∧
      (c ≠ .powerFail → c ≠ .snuff → t.hif = s.hif ∧ t.net = s.net))

/-- O57. Power failures, resets and the ends of dumps act as stated. A power failure arms the dump once the device is
ready and none runs; in phases 1 to 3 start-up returns to phase 1. VDD_AON_LOW, XTAL_STOP and SYS_RST are power-on
resets: phase 0, cause power-on, SECONDS 0, functions as after reset; media, fuses, die roster and ledger ring stay;
SYS_RST waits for a dump. The release of power-on reset begins phase 1, or stops start-up where the fuses fail, and
not while TEST_EN is high. A source arms a device reset, the first cause stays; the reset comes at once before ready
or after a dump, the dump first otherwise; it keeps SECONDS, the ledger queue, media, fuses and roster and counts each
epoch up. Relight restarts with its cause, event and duration, and counts a power cycle. A power return in a power-
failure dump asks for the reset that 100 ms of PWR_FAIL_N high bring. The end of a dump stores the image's outcome,
valid with its closing record on two dies; an older image that waits outlasts one that is not; a DUMP_GO dump reports
it, a shutdown dump ends the shutdown, a waiting device reset follows. -/
def Obligations.ResetsAndPowerEvents : Prop :=
  (∀ (s : State) (i : Instr), i = .pwrFail ∨ i = .vddCoreLow ∨ i = .bankTrip →
    ∃ t, exec i s = .next t ∧ (i = .pwrFail → t.pins.pwrFailN = false) ∧
      (i ≠ .pwrFail → t.pins = s.pins) ∧
      (1 ≤ s.bot.phase → s.bot.phase < 4 → i ≠ .bankTrip → t.bot.phase = 1 ∧ t.hld = s.hld) ∧
      (¬ (1 ≤ s.bot.phase ∧ s.bot.phase < 4) ∨ i = .bankTrip → t.bot = s.bot ∧
        (s.bot.ready = true → s.hld.dump = .idle →
          t.hld = { s.hld with dump := .armed .powerFail, dumpStart := s.tbs.clk }) ∧
        (s.bot.ready = false ∨ s.hld.dump ≠ .idle → t.hld = s.hld)) ∧ Frame [.hld, .bot, .pins] s t) ∧
  (∀ (s : State) (i : Instr), i = .vddAonLow ∨ i = .xtalStop ∨ (i = .sysRst ∧ dumpBusy s = false) →
    ∃ t, exec i s = .next t ∧ t.bot.phase = 0 ∧ t.bot.cause = .powerOn ∧ t.bot.ready = false ∧ t.tbs.seconds = 0 ∧
      t.tbs.origin = 0 ∧ t.fns = State.reset.fns ∧ t.qmx = State.reset.qmx ∧ t.fch.media = s.fch.media ∧
      t.fuses = s.fuses ∧ t.nor.roster = s.nor.roster ∧ t.evl.ring = s.evl.ring ∧ t.pending = s.pending ∧
      (∀ p, (t.page p).sealBit = false)) ∧
  (∀ s : State, dumpBusy s = true →
    ∃ t, exec .sysRst s = .next t ∧ t.pins.sysRstN = false ∧ Frame [.pins] s t) ∧
  (∀ s : State, s.bot.phase = 0 →
    (s.pins.testEn = true → exec .powerOnReset s = .next s) ∧
    (s.pins.testEn = false → s.fuses.ok = true → s.fuses.secretOk = true →
      ∃ t, exec .powerOnReset s = .next t ∧ t.bot.phase = 1 ∧ t.bot.releaseClk = s.tbs.clk ∧
        t.pins.sysRstN = true ∧ Frame [.bot, .pins] s t) ∧
    (s.pins.testEn = false → s.fuses.ok = false ∨ s.fuses.secretOk = false →
      ∃ t, exec .powerOnReset s = .next t ∧ t.bot.phase = 15 ∧ t.bot.failPhase = 1 ∧ t.shows eBOT_STOPPED)) ∧
  (∀ (s : State) (i : Instr) (x : ResetCause), s.bot.phase ≠ 0 → s.thm.snuff ≠ .off →
    (i = .nvmSubsystemReset 0 0x4E564D65 ∧ x = .nssr ∧ (pcieReach s 0 = true ∨ (assocOf s 0).isSome = true)) ∨
      (∃ w : Dword, w.getLsbD 1 = true ∧ i = .botSoftReset w ∧ x = .softReset) →
    (s.bot.resetArm = none →
      ∃ t, exec i s = .next t ∧ t.bot = { s.bot with resetArm := some x } ∧ Frame [.bot] s t) ∧
    (∀ y, s.bot.resetArm = some y → ∃ t, exec i s = .next t ∧ t.bot.resetArm = some y ∧ Frame [.bot] s t)) ∧
  (∀ (s : State) (x : ResetCause), s.bot.resetArm = some x →
    (s.hld.dump = .idle → s.bot.ready = true → s.hld.dumped = false →
      ∃ t, exec .deviceReset s = .next t ∧ t.hld.dump = .armed .deviceReset ∧ t.hld.image = s.hld.image ∧
        Frame [.hld] s t) ∧
    (dumpBusy s = true → exec .deviceReset s = .next s) ∧
    (dumpBusy s = false → s.hld.dump ≠ .idle ∨ s.bot.ready = false ∨ s.hld.dumped = true →
      ∃ t, exec .deviceReset s = .next t ∧ t.bot.phase = 1 ∧ t.bot.cause = x ∧ t.bot.ready = false ∧
        t.tbs.seconds = s.tbs.seconds ∧ t.tbs.origin = s.tbs.origin ∧ t.tbs.pcycle = s.tbs.pcycle ∧
        t.evl.queue = s.evl.queue ∧ t.fch.media = s.fch.media ∧ t.fuses = s.fuses ∧
        t.nor.roster = s.nor.roster ∧ t.par.layout = s.par.layout ∧
        (s.norWaits = [] → ∀ f e y, Tbl.get s.nor.fnTable f = some e → Tbl.get s.fns f = some y →
          ∃ z, Tbl.get t.nor.fnTable f = some z ∧ z.epoch = (y.epoch + 1) % 256 ∧ z.state = e.state ∧
            z.harness = e.harness))) ∧
  (∀ s : State, s.thm.snuff = .off → (∀ x, composite s = some x → x ≤ 10 * ((s.rd rTHM_RELIGHT_C : Nat) : Rat)) →
    s.thm.snuffAt + s.thm.wait * 1000000000 ≤ s.tbs.clk →
    ∃ t, exec .relight s = .next t ∧ t.bot.phase = 1 ∧ t.bot.cause = .relight ∧ t.pins.snuffN = true ∧
      t.thm.snuff = .none ∧ t.tbs.seconds = s.tbs.seconds ∧ t.tbs.pcycle = min (s.tbs.pcycle + 1) 0xFFFFFF ∧
      t.shows eTHM_RELIGHT ∧ (restart s .relight .relight).tells t lTHM_RELIGHT none
        [p4 ((s.tbs.clk - s.thm.snuffAt) / 1000000000)] ∧ t.fch.media = s.fch.media ∧ t.fuses = s.fuses) ∧
  (∀ s : State, s.hld.dump = .armed .powerFail ∨ s.hld.dump = .running .powerFail ∨ s.hld.dump = .done .powerFail →
    ∃ t, exec .powerReturnDuringDump s = .next t ∧ t.hld = { s.hld with resetAfter := true } ∧ Frame [.hld] s t) ∧
  (∀ s : State,
    (s.hld.dump = .done .powerFail → s.hld.resetAfter = true → s.thm.snuff = .none →
      ∃ t, exec .pwrFailNHigh s = .next t ∧ t.bot.phase = 1 ∧ t.bot.cause = .hld ∧ t.pins.pwrFailN = true) ∧
    (s.hld.resetAfter = false →
      ∃ t, exec .pwrFailNHigh s = .next t ∧ t.pins.pwrFailN = true ∧ t.pins.pwrHighAt = some s.tbs.clk ∧
        Frame [.pins] s t)) ∧
  (∀ (s : State) (c : DumpCause) (closing : Nat) (valid badLog : Bool) (lost : List Nat) (mib : Nat),
    s.hld.dump = .running c → valid = decide (2 ≤ closing) →
    programsDone s = true → s.pins.sysRstN = true →
    (c = .powerFail ∨ c = .snuff ∨ s.bot.resetArm = none →
      ∃ t, exec (.dumpEnd closing lost badLog mib) s = .next t ∧ t.hld.dump = .done c ∧ t.hld.dumped = true ∧
        t.hld.erased = [] ∧ t.hld.lostLines = lost ∧
        t.hld.last = (if valid = false then 2 else if c = .dumpGo then 3 else 1) ∧
        (valid = true → ∃ g, t.hld.image = some g ∧ g.valid = true ∧ g.lost = lost ∧ g.mib = mib) ∧
        (∀ g, valid = false → s.hld.image = some g → g.valid = true → t.hld.image = some g) ∧
        (c = .dumpGo → t.dmc.dumpBusy = false ∧ t.dmc.dumpDone = valid ∧ (valid = true → t.shows eHLD_DUMP_DONE)) ∧
        (c = .shutdown → t.bot.shutdown = 0 ∧ t.shows eBOT_SHUTDOWN)) ∧
    (∀ x, c ≠ .powerFail → c ≠ .snuff → s.bot.resetArm = some x →
      ∃ t, exec (.dumpEnd closing lost badLog mib) s = .next t ∧ t.bot.phase = 1 ∧ t.bot.cause = x))

/-- O58. Each phase of start-up ends in the next one or stops start-up. Configuration: of two verified copies the one of
higher GENERATION is used, of one that one; none stops start-up at phase 2, and so does a NOR without octal transfers
or suspend. After phase 2 a port that is there begins to train. Firmware: the slot that the last commit chose runs,
the other with BOT_FALLBACK where it is refused, none stops at phase 4; lanes, functions, cores and FPWR_EN0 come up,
DRAINING and SAVED functions as FROZEN. DRAM: a listed arrangement at a rate of the table is trained and its size is
known, another stops at phase 5; the fill takes the regions in order, and beyond 64 remapped rows of a rank start-up
stops. Flash: a group comes up 20 ms after its FPWR_EN rose and the next FPWR_EN rises; other groups' dies stay; after
the last group phase 7, or a stop without a channel in service. Roster: no die comes into service by the check, an
unlisted die does not serve; phase 8, or a stop with no die in service. -/
def Obligations.StartUpPhasesComplete : Prop :=
  (∀ (s : State) (reversed shorted : BitVec 8) (a b : Option Nat), s.bot.phase = 1 → s.pins.pwrFailN = true →
    xspiReset s = false → a = cfgReason s s.nor.cfgA → b = cfgReason s s.nor.cfgB →
    (s.nor.octal = false ∨ s.nor.suspend = false →
      ∃ t, exec (.configurationImageLoad reversed shorted) s = .next t ∧ t.bot.phase = 15 ∧ t.bot.failPhase = 2 ∧
        t.shows eBOT_STOPPED) ∧
    (∀ x, s.nor.octal = true → s.nor.suspend = true →
         (a = none ∧ (b ≠ none ∨ s.nor.cfgB.generation ≤ s.nor.cfgA.generation) ∧ x = s.nor.cfgA) ∨
        (b = none ∧ (a ≠ none ∨ s.nor.cfgA.generation < s.nor.cfgB.generation) ∧ x = s.nor.cfgB) →
      ∃ t, exec (.configurationImageLoad reversed shorted) s = .next t ∧ t.bot.phase = 4 ∧ t.bot.cfg = x ∧
        t.bot.linkClk = some s.tbs.clk ∧ t.hif.dual = x.dual ∧ t.pins.hldChgEn = true ∧
        (a ≠ none ∨ b ≠ none → t.shows eKEY_IMAGE_REJECT) ∧
        (s.hld.strings = [] → ∀ k, k < 8 → x.strings.getLsbD k = true →
          ((strOf t k).iso = false ↔ reversed.getLsbD k = false ∧ shorted.getLsbD k = false)) ∧
        Frame [.hif, .net, .hld, .bot, .pins, .evl, .pages, .regs] s t) ∧
    (s.nor.octal = true → s.nor.suspend = true → a ≠ none → b ≠ none →
      ∃ t, exec (.configurationImageLoad reversed shorted) s = .next t ∧ t.bot.phase = 15 ∧ t.bot.failPhase = 2 ∧
        t.shows eBOT_STOPPED ∧ t.shows eKEY_IMAGE_REJECT)) ∧
  (∀ (s : State) (p : Nat), (4 ≤ s.bot.phase ∧ s.bot.phase ≤ 11) ∨ 4 ≤ s.bot.failPhase → portThere s p = true → (s.port p).up = false →
    (s.port p).training = false → s.thm.snuff ≠ .off → dumpBusy s = false →
    ∃ t, exec (.pcieLinkTraining p) s = .next t ∧ t.port p = { s.port p with training := true, perst := false } ∧
      (∀ q, q ≠ p → t.port q = s.port q) ∧ Frame [.hif] s t) ∧
  (∀ (s : State) (bad : Nat) (lost : List (Nat × Bool)) (healthy : Bool) (scan : NorScan), s.bot.phase = 4 → bad ≤ 12 →
    (∀ k, (slotReason s s.nor.fwNext = none ∧ k = s.nor.fwNext) ∨
        (slotReason s s.nor.fwNext ≠ none ∧ slotReason s (3 - s.nor.fwNext) = none ∧ k = 3 - s.nor.fwNext) →
      ∃ t, exec (.firmwareLoad bad lost healthy scan) s = .next t ∧ t.bot.phase = 5 ∧ t.bot.fwSlot = k ∧
        (slotReason s s.nor.fwNext ≠ none → t.shows eBOT_FALLBACK ∧ t.shows eKEY_IMAGE_REJECT) ∧
        t.cip.lanes = 12 - bad ∧ t.key.health = healthy ∧ t.cpx.running = 0xFFFF ∧
        t.pins.fpwrEn = s.pins.fpwrEn ||| 1 ∧ t.pins.dmcResetN = true ∧ (t.fn 0).state = .active ∧ (t.fn 0).bind = .pcie ∧
        (t.fn 0).harness = s.bot.cfg.harness0.getD harnessZero ∧
        (∀ f e, f ≠ 0 → Tbl.get (readCopies s scan).nor.fnTable f = some e → (t.fn f).bind = e.bind ∧ (t.fn f).harness = e.harness ∧
          (t.fn f).epoch = e.epoch ∧
          (e.state = .draining ∨ e.state = .frozen ∨ e.state = .saved → (t.fn f).state = .frozen) ∧
          (e.state = .active ∨ e.state = .idle → (t.fn f).state = e.state)) ∧
        (∀ f, f ≠ 0 → Tbl.get (readCopies s scan).nor.fnTable f = none → (t.fn f).state = .free)) ∧
    (slotReason s s.nor.fwNext ≠ none → slotReason s (3 - s.nor.fwNext) ≠ none →
      ∃ t, exec (.firmwareLoad bad lost healthy scan) s = .next t ∧ t.bot.phase = 15 ∧ t.bot.failPhase = 4 ∧
        t.shows eBOT_STOPPED)) ∧
  (∀ (s : State) (d : DramFound) (pins : Tbl (BitVec 22 × BitVec 22)), s.bot.phase = 5 →
    (∀ gib top, arrangement d = some (gib, top) → d.rate = 64 ∨ d.rate = 56 ∨ d.rate = 48 → d.rate ≤ top →
      (d.busOk = true →
        ∃ t, exec (.dramPhase d pins) s = .next t ∧ t.bot.phase = 6 ∧ t.dmc.trained = true ∧
          t.dmc.filling = true ∧ t.map.dramMib = 4096 * gib - 16 ∧ t.rd rDMC_SPEED = d.rate ∧
          t.rd rDMC_SIZE_GIB = 4 * gib ∧ t.rd rDMC_SELFTEST = 1) ∧
      (d.busOk = false →
        ∃ t, exec (.dramPhase d pins) s = .next t ∧ t.bot.phase = 15 ∧ t.bot.failPhase = 5 ∧
          t.rd rDMC_SELFTEST = 3 ∧ t.shows eDMC_SELFTEST_FAIL)) ∧
    (arrangement d = none ∨ (∃ gib top, arrangement d = some (gib, top) ∧
        ((d.rate ≠ 64 ∧ d.rate ≠ 56 ∧ d.rate ≠ 48) ∨ top < d.rate)) →
      ∃ t, exec (.dramPhase d pins) s = .next t ∧ t.bot.phase = 15 ∧ t.bot.failPhase = 5 ∧ t.shows eBOT_STOPPED)) ∧
  (∀ (s : State) (r : Region) (k n ppr : Nat), fillOrder.find? (fun x => !s.dmc.usable.contains x) = some r →
    s.dmc.filling = true → (∀ p ∈ s.dmc.remaps, p.2 ≤ 64) →
    (Tbl.getD s.dmc.remaps k 0 + n ≤ 64 →
      ∃ t, exec (.dramFill [(k, n)] ppr) s = .next t ∧ t.dmc.usable = s.dmc.usable ++ [r] ∧
        (t.dmc.filling = true ↔ s.dmc.usable.length + 1 ≠ fillOrder.length) ∧
        Tbl.getD t.dmc.remaps k 0 = Tbl.getD s.dmc.remaps k 0 + n ∧
        (s.dmc.usable.length + 1 = fillOrder.length → t.rd rDMC_SELFTEST = 2) ∧ t.bot = s.bot ∧
        Frame [.dmc, .bot, .evl, .pages, .regs] s t) ∧
    (64 < Tbl.getD s.dmc.remaps k 0 + n →
      ∃ t, exec (.dramFill [(k, n)] ppr) s = .next t ∧ t.bot.phase = 15 ∧ t.bot.failPhase = 5 ∧
        t.rd rDMC_SELFTEST = 3 ∧ t.dmc.usable = s.dmc.usable)) ∧
  (∀ (s : State) (found : Tbl DieFound) (pins : Tbl (BitVec 22 × BitVec 22)) (margins : Tbl Margins), s.bot.phase = 6 →
    (s.bot.groupClk + 20000000 ≤ s.tbs.clk →
      ∃ t, exec (.flashGroupStart found pins margins) s = .next t ∧ t.bot.group = s.bot.group + 1 ∧
        t.bot.groupClk = s.tbs.clk ∧ t.pins.fpwrEn = s.pins.fpwrEn ||| (1 <<< (s.bot.group + 1)) ∧
        (s.bot.group < 3 → t.bot.phase = 6) ∧
        (3 ≤ s.bot.group → (∃ p ∈ t.fch.chans, p.2.inService = true) → t.bot.phase = 7) ∧
        (3 ≤ s.bot.group → (∀ p ∈ t.fch.chans, p.2.inService = false) → t.bot.phase = 15 ∧ t.bot.failPhase = 6 ∧
          t.shows eBOT_STOPPED) ∧
        (∀ d, chanOf d / 8 ≠ s.bot.group → t.die d = s.die d) ∧
        (∀ d x, found = [(d, x)] → chanOf d / 8 = s.bot.group → (t.die d).present = true ∧ (t.die d).uid = x.uid)) ∧
    (s.tbs.clk < s.bot.groupClk + 20000000 → exec (.flashGroupStart found pins margins) s = .next s)) ∧
  (∀ s : State, s.bot.phase = 7 → s.nor.roster.valid = true →
    ∃ t, exec .rosterCheck s = .next t ∧
      t.bot.inService = (t.fch.dies.filter fun p => p.2.service).length ∧
      (0 < t.bot.inService → t.bot.phase = 8) ∧
      (t.bot.inService = 0 → t.bot.phase = 15 ∧ t.bot.failPhase = 7 ∧ t.shows eBOT_STOPPED) ∧
      (∀ d, (t.die d).service = true → (s.die d).service = true ∧ (Tbl.get s.nor.roster.entries d).isSome = true) ∧
      Frame [.stp, .fch, .par, .nor, .bot, .evl, .pages, .regs] s t)

/-- O59. Replay, ready, shutdown and records written to NOR act as stated. Initialisation of an uninitialised drive whose
serving dies agree in geometry and have a layout ends in phase 11 on path 3; with no layout, or no die, start-up stops
at phase 7. The scan of intent records ends phase 8; loading the root and the journal ends phase 9 once the map
regions are usable, and start-up stops there without a root; replay ends phase 10 on path 1 with a valid dump image, 0
after a clean shutdown, 2 otherwise, and reports an image that is not valid. Ready sets READY_MS, the event and its
record, blows the revocations that the images name, seals what the image seals, and clears the clean mark. A normal
shutdown closes what is open and shows SHST 1; once all is programmed its checkpoint starts, and after it the clean
mark is set and SHST is 2. An abrupt one dumps first. A tenant's shutdown is 2 once none of its data is buffered. The
oldest NOR record takes effect as its write ends, its commands complete, and a function whose Save waits for it is
SAVED. -/
def Obligations.ReplayAndShutdownComplete : Prop :=
  (∀ (s : State) (bad : List Nat), s.bot.phase = 7 → s.nor.roster.valid = false →
    ((∀ p ∈ s.fch.dies, p.2.service = false) →
      ∃ t, exec (.initialisation bad) s = .next t ∧ t.bot.phase = 15 ∧ t.bot.failPhase = 7 ∧ t.shows eBOT_STOPPED) ∧
    (∀ p g, s.fch.dies.find? (fun q => q.2.service) = some p → g = p.2.geom →
      (∀ q ∈ s.fch.dies, q.2.service = true → q.2.geom = g) →
      (∀ l, chooseLayout ((s.fch.dies.filter fun q => q.2.service).map Prod.fst)
          (nativeBlocks (setGeometry s g (pslcSize s))) (s.rd rPAR_SPARE_PCT) = some l →
        ∃ t, exec (.initialisation bad) s = .next t ∧ t.bot.phase = 11 ∧ t.bot.path = 3 ∧
          t.bot.initialised = true ∧ t.shows eBOT_INIT ∧ t.nor.roster.valid = true ∧ t.par.layout = some l ∧
          t.tbs.hours = 0 ∧ t.tbs.pcycle = 1) ∧
      (chooseLayout ((s.fch.dies.filter fun q => q.2.service).map Prod.fst)
          (nativeBlocks (setGeometry s g (pslcSize s))) (s.rd rPAR_SPARE_PCT) = none →
        ∃ t, exec (.initialisation bad) s = .next t ∧ t.bot.phase = 15 ∧ t.bot.failPhase = 7 ∧
          t.nor = s.nor ∧ t.par = s.par))) ∧
  (∀ s : State, s.bot.phase = 8 →
    ∃ t, exec .intentScan s = .next t ∧ t.bot.phase = 9 ∧ t.fch.media = s.fch.media ∧
      (∀ d, t.die d = s.die d) ∧ Frame [.fch, .rcl, .bot, .evl, .pages, .regs] s t) ∧
  (∀ s : State, s.bot.phase = 9 → s.dmc.usable.contains .coarse = true → s.dmc.usable.contains .finePool = true →
    s.dmc.usable.contains .zoneMap = true →
    (∀ l r, s.par.layout = some l → chosenRoot s = some r →
      ∃ t, exec .journalLoad s = .next t ∧ t.bot.phase = 10 ∧ t.par.root = some r ∧ t.par.rootPending = none ∧
        t.map.ckptNum = r.map.ckptNum ∧ t.map.active = [] ∧ t.map.sealed = []) ∧
    (chosenRoot s = none →
      ∃ t, exec .journalLoad s = .next t ∧ t.bot.phase = 15 ∧ t.bot.failPhase = 9 ∧ t.shows eBOT_STOPPED)) ∧
  (∀ (s : State) (bad : List Nat) (l : Layout), s.bot.phase = 10 → s.par.layout = some l →
    ∃ t, exec (.replay bad) s = .next t ∧ t.bot.phase = 11 ∧
      ((∃ g, s.hld.image = some g ∧ g.valid = true) → t.bot.path = 1 ∧ t.shows eHLD_DUMP_DONE) ∧
      ((∀ g, s.hld.image = some g → g.valid = false) →
        (s.nor.roster.clean = true → t.bot.path = 0) ∧
        (s.nor.roster.clean = false → t.bot.path = 2 ∧
          (s.hld.image ≠ none → t.hld.last = 2 ∧ t.shows eHLD_DUMP_FAIL)))) ∧
  (∀ s : State, s.bot.phase = 11 → s.bot.ready = false →
    ∃ t, exec .nvmeReady s = .next t ∧ t.bot.ready = true ∧ t.shows eBOT_READY ∧
      t.rd rBOT_READY_MS = min ((s.tbs.clk - s.bot.releaseClk) / 1000000) 0xFFFFF ∧
      s.tells t lBOT_READY none
        [p4 s.bot.path, p4 (min ((s.tbs.clk - s.bot.releaseClk) / 1000000) 0xFFFFF)] ∧
      t.fuses.revoked = s.fuses.revoked ||| s.bot.cfg.revoke ||| (s.fwSlot s.bot.fwSlot).revoke ∧
      (s.bot.cfg.svnCommit = true → s.bot.cfg.svn ≤ t.fuses.svn) ∧
      (∀ p, p < 23 → p ≠ 0x13 → s.bot.cfg.sealed.getLsbD p = true → (t.page p).sealBit = true) ∧
      (s.bot.cfg.sealed.getLsbD 0x13 = true → ∀ n, n < 32 → (t.page (64 + n)).sealBit = true) ∧
      (s.bot.cfg.closeBar2 = true → t.hif.closed = true) ∧ t.qmx.wthru = s.hld.noHoldup ∧ (s.hld.noHoldup = true → t.shows eQMX_WTHRU) ∧
      t.nor.roster.clean = false ∧
      Frame [.qmx, .rcl, .hif, .net, .fuses, .nor, .bot, .evl, .pages, .regs] s t) ∧
  (∀ s : State, s.bot.ready = true → (s.fn 0).enabled = true →
    (s.bot.shutdown = 0 → (s.fn 0).shst = 0 →
      ∃ t, exec .normalShutdown s = .next t ∧ t.bot.shutdown = 1 ∧ (t.fn 0).shst = 1 ∧
        t.wbf.slots = s.wbf.slots ∧ s.tells t lEVL_WMARK none [p6 s.evl.wmark] ∧
        (∀ k x, Tbl.get s.wbf.targets k = some x → x.held ≠ [] →
          ∃ y, Tbl.get t.wbf.targets k = some y ∧ y.close = true ∧ y.held = x.held) ∧
        (∀ f, f ≠ 0 → t.fn f = s.fn f) ∧ Frame [.fns, .wbf, .bot, .evl, .pages, .regs] s t) ∧
    (s.bot.shutdown ≠ 2 → (s.fn 0).shst ≠ 2 →
      (s.hld.dumped = true →
        ∃ t, exec .abruptShutdown s = .next t ∧ (t.fn 0).shst = 2 ∧ t.bot.shutdown = 0 ∧ t.shows eBOT_SHUTDOWN ∧
          t.hld = s.hld) ∧
      (s.hld.dumped = false → s.hld.dump = .idle →
        ∃ t, exec .abruptShutdown s = .next t ∧ (t.fn 0).shst = 1 ∧ t.bot.shutdown = 2 ∧
          t.hld.dump = .armed .shutdown ∧ (∀ f, f ≠ 0 → t.fn f = s.fn f) ∧
          Frame [.fns, .hld, .bot, .pages] s t))) ∧
  (∀ s : State,
    (s.bot.shutdown = 1 → allProgrammed s = false ∨ s.map.ckpt ≠ .idle → exec .shutdownProgramsDone s = .next s) ∧
    (s.bot.shutdown = 1 → allProgrammed s = true → s.map.ckpt = .idle → (startCkpt s).map.ckpt ≠ .idle →
      ∃ t, exec .shutdownProgramsDone s = .next t ∧ t.bot.shutdown = 3 ∧ t.map.ckpt = (startCkpt s).map.ckpt) ∧
    (s.bot.shutdown = 3 → s.map.ckpt = .idle →
      ∃ t, exec .shutdownProgramsDone s = .next t ∧ t.nor.roster.clean = true ∧ (t.fn 0).shst = 2 ∧
        t.bot.shutdown = 0 ∧ t.shows eBOT_SHUTDOWN ∧ (∀ f, f ≠ 0 → t.fn f = s.fn f) ∧
        Frame [.fns, .nor, .bot, .pages] s t)) ∧
  (∀ (s : State) (f : Nat), 1 ≤ f → f < 256 → (s.fn f).enabled = true → (s.fn f).shst ≠ 2 →
    (functionHolds s f = false →
      ∃ t, exec (.tenantShutdown f) s = .next t ∧ (t.fn f).shst = 2 ∧ (∀ g, g ≠ f → t.fn g = s.fn g) ∧
        Frame [.fns] s t) ∧
    (functionHolds s f = true → (s.fn f).shst = 1 → exec (.tenantShutdown f) s = .next s) ∧
    (functionHolds s f = true → (s.fn f).shst = 0 →
      ∃ t, exec (.tenantShutdown f) s = .next t ∧ (t.fn f).shst = 1 ∧ t.wbf.slots = s.wbf.slots ∧
        (∀ g, g ≠ f → t.fn g = s.fn g) ∧ Frame [.fns, .wbf] s t)) ∧
  (∀ s : State,
    (s.norWaits = [] → exec .norRecordWriteDone s = .next s) ∧
    (∀ w r q c, s.norWaits = w :: r → w.seqs = [q] → s.cmd? q = some c →
      (∀ f e, w.entry = some (f, e) → e.state ≠ .saved) →
      ∃ t, exec .norRecordWriteDone s = .next t ∧ t.norWaits = r ∧ t.nor = norStore s.nor w ∧
        s.ends t q stOk w.dw0 ∧ Frame [.qmx, .fns, .norWaits, .nor] s t) ∧
    (∀ w r f e g, s.norWaits = w :: r → w.entry = some (f, e) → e.state = .saved → (s.fn f).saving = true →
      (s.fn f).state = .frozen → (s.fn f).record = some g →
      ∃ t, exec .norRecordWriteDone s = .next t ∧ t.norWaits = r ∧ t.nor = norStore s.nor w ∧
        (t.fn f).state = .saved ∧ (t.fn f).saving = false ∧ t.shows eTEN_SAVE))
end

