-- ==== Sys2Proof/Laws/Frame.lean ====
section
/-! SUPPORT. The calculus of frames: how the frame of a meaning follows from the frames of the operations it calls. -/

-- one theorem after another: thousands of small proofs at once would each hold a thread
set_option Elab.async false

namespace Sys2Proof.Machine

open Sys2Proof

theorem State.same_refl (s : State) (p : Part) : s.same s p := by
  cases p <;> first | rfl | exact fun _ h => h | exact fun h => h | exact ⟨fun _ h => h, Nat.le_refl _⟩

theorem State.same_trans {r s t : State} {p : Part} (h : r.same s p) (k : s.same t p) : r.same t p := by
  cases p <;> first
    | exact Eq.trans k h
    | exact fun x hx => k x (h x hx)
    | exact ⟨fun x hx => k.1 x (h.1 x hx), Nat.le_trans h.2 k.2⟩
    | exact fun hx => k (h hx)

theorem Frame.refl (ps : List Part) (s : State) : Frame ps s s := fun p _ => State.same_refl s p

theorem Frame.trans {ps : List Part} {r s t : State} (h : Frame ps r s) (k : Frame ps s t) : Frame ps r t :=
  fun p hp => State.same_trans (h p hp) (k p hp)

theorem Frame.mono {ps qs : List Part} {s t : State} (h : Frame qs s t) (sub : qs ⊆ ps) : Frame ps s t :=
  fun p hp => h p fun hq => hp (sub hq)

/-- The last operation keeps its frame, and what came before keeps the wider one. -/
theorem Frame.step {ps qs : List Part} {r s t : State} (k : Frame qs s t) (sub : qs ⊆ ps) (h : Frame ps r s) :
    Frame ps r t := Frame.trans h (k.mono sub)

theorem Frame.ite {ps : List Part} {r s t : State} {c : Prop} [Decidable c] (hs : Frame ps r s) (ht : Frame ps r t) :
    Frame ps r (if c then s else t) := by
  split
  · exact hs
  · exact ht

theorem Frame.foldl {ps : List Part} {α : Type} {r : State} {f : State → α → State}
    (hf : ∀ u x, Frame ps r u → Frame ps r (f u x)) {l : List α} {s : State} (h : Frame ps r s) :
    Frame ps r (l.foldl f s) := by
  induction l generalizing s with
  | nil => exact h
  | cons x l ih => exact ih (hf s x h)

theorem Frame.foldlOk {ps : List Part} {α ε : Type} {r : State} {f : Except ε State → α → Except ε State}
    (hf : ∀ a x t, (∀ u, a = .ok u → Frame ps r u) → f a x = .ok t → Frame ps r t) {l : List α} {a : Except ε State}
    {t : State} (e : l.foldl f a = .ok t) (h : ∀ u, a = .ok u → Frame ps r u) : Frame ps r t := by
  induction l generalizing a with
  | nil => exact h t e
  | cons x l ih => exact ih e fun u hu => hf a x u h hu

theorem Frame.foldlSome {ps : List Part} {α : Type} {r : State} {f : Option State → α → Option State}
    (hf : ∀ a x t, (∀ u, a = some u → Frame ps r u) → f a x = some t → Frame ps r t) {l : List α} {a : Option State}
    {t : State} (e : l.foldl f a = some t) (h : ∀ u, a = some u → Frame ps r u) : Frame ps r t := by
  induction l generalizing a with
  | nil => exact h t e
  | cons x l ih => exact ih e fun u hu => hf a x u h hu

theorem Frame.foldlFst {ps : List Part} {α β : Type} {r : State} {f : State × β → α → State × β}
    (hf : ∀ u x, Frame ps r u.1 → Frame ps r (f u x).1) {l : List α} {a : State × β} (h : Frame ps r a.1) :
    Frame ps r (l.foldl f a).1 := by
  induction l generalizing a with
  | nil => exact h
  | cons x l ih => exact ih (hf a x h)

/-- A state written out field by field over `s`. -/
theorem Frame.mk {ps : List Part} {r s : State} (h : Frame ps r s) {t : State}
    (k : ∀ p, p ∉ ps → s.same t p) : Frame ps r t := Frame.trans h k

/-! ## One field -/

theorem Frame.pendingSet {ps : List Part} {r s : State} {x} (hp : Part.pending ∈ ps) (h : Frame ps r s) :
    Frame ps r { s with pending := x } := by
  refine Frame.mk h fun p hq => ?_
  cases p <;> first | exact absurd hp hq | rfl | exact fun _ h => h | exact fun h => h | exact ⟨fun _ h => h, Nat.le_refl _⟩

theorem Frame.ansSet {ps : List Part} {r s : State} {x} (hp : Part.ans ∈ ps) (h : Frame ps r s) :
    Frame ps r { s with ans := x } := by
  refine Frame.mk h fun p hq => ?_
  cases p <;> first | exact absurd hp hq | rfl | exact fun _ h => h | exact fun h => h | exact ⟨fun _ h => h, Nat.le_refl _⟩

theorem Frame.drawsSet {ps : List Part} {r s : State} {x} (hp : Part.draws ∈ ps) (h : Frame ps r s) :
    Frame ps r { s with draws := x } := by
  refine Frame.mk h fun p hq => ?_
  cases p <;> first | exact absurd hp hq | rfl | exact fun _ h => h | exact fun h => h | exact ⟨fun _ h => h, Nat.le_refl _⟩

theorem Frame.gateSet {ps : List Part} {r s : State} {x} (hp : Part.gate ∈ ps) (h : Frame ps r s) :
    Frame ps r { s with gate := x } := by
  refine Frame.mk h fun p hq => ?_
  cases p <;> first | exact absurd hp hq | rfl | exact fun _ h => h | exact fun h => h | exact ⟨fun _ h => h, Nat.le_refl _⟩

theorem Frame.tbsSet {ps : List Part} {r s : State} {x} (hp : Part.tbs ∈ ps) (hv : s.tbs.ok → x.ok) (h : Frame ps r s) :
    Frame ps r { s with tbs := x } := by
  refine Frame.mk h fun p hq => ?_
  cases p <;> first | exact absurd hp hq | exact hv | rfl | exact fun _ h => h | exact fun h => h | exact ⟨fun _ h => h, Nat.le_refl _⟩

theorem Frame.stpSet {ps : List Part} {r s : State} {x} (hp : Part.stp ∈ ps) (h : Frame ps r s) :
    Frame ps r { s with stp := x } := by
  refine Frame.mk h fun p hq => ?_
  cases p <;> first | exact absurd hp hq | rfl | exact fun _ h => h | exact fun h => h | exact ⟨fun _ h => h, Nat.le_refl _⟩

theorem Frame.qmxSet {ps : List Part} {r s : State} {x} (hp : Part.qmx ∈ ps) (h : Frame ps r s) :
    Frame ps r { s with qmx := x } := by
  refine Frame.mk h fun p hq => ?_
  cases p <;> first | exact absurd hp hq | rfl | exact fun _ h => h | exact fun h => h | exact ⟨fun _ h => h, Nat.le_refl _⟩

theorem Frame.tenSet {ps : List Part} {r s : State} {x} (hp : Part.ten ∈ ps) (h : Frame ps r s) :
    Frame ps r { s with ten := x } := by
  refine Frame.mk h fun p hq => ?_
  cases p <;> first | exact absurd hp hq | rfl | exact fun _ h => h | exact fun h => h | exact ⟨fun _ h => h, Nat.le_refl _⟩

theorem Frame.fnsSet {ps : List Part} {r s : State} {x} (hp : Part.fns ∈ ps) (h : Frame ps r s) :
    Frame ps r { s with fns := x } := by
  refine Frame.mk h fun p hq => ?_
  cases p <;> first | exact absurd hp hq | rfl | exact fun _ h => h | exact fun h => h | exact ⟨fun _ h => h, Nat.le_refl _⟩

theorem Frame.mapSet {ps : List Part} {r s : State} {x} (hp : Part.map ∈ ps) (h : Frame ps r s) :
    Frame ps r { s with map := x } := by
  refine Frame.mk h fun p hq => ?_
  cases p <;> first | exact absurd hp hq | rfl | exact fun _ h => h | exact fun h => h | exact ⟨fun _ h => h, Nat.le_refl _⟩

theorem Frame.wbfSet {ps : List Part} {r s : State} {x} (hp : Part.wbf ∈ ps) (h : Frame ps r s) :
    Frame ps r { s with wbf := x } := by
  refine Frame.mk h fun p hq => ?_
  cases p <;> first | exact absurd hp hq | rfl | exact fun _ h => h | exact fun h => h | exact ⟨fun _ h => h, Nat.le_refl _⟩

theorem Frame.fchSet {ps : List Part} {r s : State} {x} (hp : Part.fch ∈ ps) (hv : Part.media ∈ ps) (hc : Tbl.wf s.fch.media = true → Tbl.wf x.media = true) (h : Frame ps r s) :
    Frame ps r { s with fch := x } := by
  refine Frame.mk h fun p hq => ?_
  cases p <;> first | exact absurd hp hq | exact absurd hv hq | exact hc | rfl | exact fun _ h => h | exact fun h => h | exact ⟨fun _ h => h, Nat.le_refl _⟩

theorem Frame.ldcSet {ps : List Part} {r s : State} {x} (hp : Part.ldc ∈ ps) (h : Frame ps r s) :
    Frame ps r { s with ldc := x } := by
  refine Frame.mk h fun p hq => ?_
  cases p <;> first | exact absurd hp hq | rfl | exact fun _ h => h | exact fun h => h | exact ⟨fun _ h => h, Nat.le_refl _⟩

theorem Frame.parSet {ps : List Part} {r s : State} {x} (hp : Part.par ∈ ps) (h : Frame ps r s) :
    Frame ps r { s with par := x } := by
  refine Frame.mk h fun p hq => ?_
  cases p <;> first | exact absurd hp hq | rfl | exact fun _ h => h | exact fun h => h | exact ⟨fun _ h => h, Nat.le_refl _⟩

theorem Frame.rclSet {ps : List Part} {r s : State} {x} (hp : Part.rcl ∈ ps) (h : Frame ps r s) :
    Frame ps r { s with rcl := x } := by
  refine Frame.mk h fun p hq => ?_
  cases p <;> first | exact absurd hp hq | rfl | exact fun _ h => h | exact fun h => h | exact ⟨fun _ h => h, Nat.le_refl _⟩

theorem Frame.dmcSet {ps : List Part} {r s : State} {x} (hp : Part.dmc ∈ ps) (h : Frame ps r s) :
    Frame ps r { s with dmc := x } := by
  refine Frame.mk h fun p hq => ?_
  cases p <;> first | exact absurd hp hq | rfl | exact fun _ h => h | exact fun h => h | exact ⟨fun _ h => h, Nat.le_refl _⟩

theorem Frame.keySet {ps : List Part} {r s : State} {x} (hp : Part.key ∈ ps) (h : Frame ps r s) :
    Frame ps r { s with key := x } := by
  refine Frame.mk h fun p hq => ?_
  cases p <;> first | exact absurd hp hq | rfl | exact fun _ h => h | exact fun h => h | exact ⟨fun _ h => h, Nat.le_refl _⟩

theorem Frame.cipSet {ps : List Part} {r s : State} {x} (hp : Part.cip ∈ ps) (h : Frame ps r s) :
    Frame ps r { s with cip := x } := by
  refine Frame.mk h fun p hq => ?_
  cases p <;> first | exact absurd hp hq | rfl | exact fun _ h => h | exact fun h => h | exact ⟨fun _ h => h, Nat.le_refl _⟩

theorem Frame.stagedSet {ps : List Part} {r s : State} {x} (hp : Part.staged ∈ ps) (h : Frame ps r s) :
    Frame ps r { s with staged := x } := by
  refine Frame.mk h fun p hq => ?_
  cases p <;> first | exact absurd hp hq | rfl | exact fun _ h => h | exact fun h => h | exact ⟨fun _ h => h, Nat.le_refl _⟩

theorem Frame.norWaitsSet {ps : List Part} {r s : State} {x} (hp : Part.norWaits ∈ ps) (h : Frame ps r s) :
    Frame ps r { s with norWaits := x } := by
  refine Frame.mk h fun p hq => ?_
  cases p <;> first | exact absurd hp hq | rfl | exact fun _ h => h | exact fun h => h | exact ⟨fun _ h => h, Nat.le_refl _⟩

theorem Frame.hifSet {ps : List Part} {r s : State} {x} (hp : Part.hif ∈ ps) (h : Frame ps r s) :
    Frame ps r { s with hif := x } := by
  refine Frame.mk h fun p hq => ?_
  cases p <;> first | exact absurd hp hq | rfl | exact fun _ h => h | exact fun h => h | exact ⟨fun _ h => h, Nat.le_refl _⟩

theorem Frame.netSet {ps : List Part} {r s : State} {x} (hp : Part.net ∈ ps) (h : Frame ps r s) :
    Frame ps r { s with net := x } := by
  refine Frame.mk h fun p hq => ?_
  cases p <;> first | exact absurd hp hq | rfl | exact fun _ h => h | exact fun h => h | exact ⟨fun _ h => h, Nat.le_refl _⟩

theorem Frame.sbiSet {ps : List Part} {r s : State} {x} (hp : Part.sbi ∈ ps) (h : Frame ps r s) :
    Frame ps r { s with sbi := x } := by
  refine Frame.mk h fun p hq => ?_
  cases p <;> first | exact absurd hp hq | rfl | exact fun _ h => h | exact fun h => h | exact ⟨fun _ h => h, Nat.le_refl _⟩

theorem Frame.thmSet {ps : List Part} {r s : State} {x} (hp : Part.thm ∈ ps) (h : Frame ps r s) :
    Frame ps r { s with thm := x } := by
  refine Frame.mk h fun p hq => ?_
  cases p <;> first | exact absurd hp hq | rfl | exact fun _ h => h | exact fun h => h | exact ⟨fun _ h => h, Nat.le_refl _⟩

theorem Frame.hldSet {ps : List Part} {r s : State} {x} (hp : Part.hld ∈ ps) (h : Frame ps r s) :
    Frame ps r { s with hld := x } := by
  refine Frame.mk h fun p hq => ?_
  cases p <;> first | exact absurd hp hq | rfl | exact fun _ h => h | exact fun h => h | exact ⟨fun _ h => h, Nat.le_refl _⟩

theorem Frame.fusesSet {ps : List Part} {r s : State} {x} (hp : Part.fuses ∈ ps) (hv : Part.otp ∈ ps) (h : Frame ps r s) :
    Frame ps r { s with fuses := x } := by
  refine Frame.mk h fun p hq => ?_
  cases p <;> first | exact absurd hp hq | exact absurd hv hq | rfl | exact fun _ h => h | exact fun h => h | exact ⟨fun _ h => h, Nat.le_refl _⟩

theorem Frame.norSet {ps : List Part} {r s : State} {x} (hp : Part.nor ∈ ps) (h : Frame ps r s) :
    Frame ps r { s with nor := x } := by
  refine Frame.mk h fun p hq => ?_
  cases p <;> first | exact absurd hp hq | rfl | exact fun _ h => h | exact fun h => h | exact ⟨fun _ h => h, Nat.le_refl _⟩

theorem Frame.botSet {ps : List Part} {r s : State} {x} (hp : Part.bot ∈ ps) (h : Frame ps r s) :
    Frame ps r { s with bot := x } := by
  refine Frame.mk h fun p hq => ?_
  cases p <;> first | exact absurd hp hq | rfl | exact fun _ h => h | exact fun h => h | exact ⟨fun _ h => h, Nat.le_refl _⟩

theorem Frame.pinsSet {ps : List Part} {r s : State} {x} (hp : Part.pins ∈ ps) (h : Frame ps r s) :
    Frame ps r { s with pins := x } := by
  refine Frame.mk h fun p hq => ?_
  cases p <;> first | exact absurd hp hq | rfl | exact fun _ h => h | exact fun h => h | exact ⟨fun _ h => h, Nat.le_refl _⟩

theorem Frame.evlSet {ps : List Part} {r s : State} {x} (hp : Part.evl ∈ ps) (h : Frame ps r s) :
    Frame ps r { s with evl := x } := by
  refine Frame.mk h fun p hq => ?_
  cases p <;> first | exact absurd hp hq | rfl | exact fun _ h => h | exact fun h => h | exact ⟨fun _ h => h, Nat.le_refl _⟩

theorem Frame.pathsSet {ps : List Part} {r s : State} {x} (hp : Part.paths ∈ ps) (h : Frame ps r s) :
    Frame ps r { s with paths := x } := by
  refine Frame.mk h fun p hq => ?_
  cases p <;> first | exact absurd hp hq | rfl | exact fun _ h => h | exact fun h => h | exact ⟨fun _ h => h, Nat.le_refl _⟩

theorem Frame.pagesSet {ps : List Part} {r s : State} {x} (hp : Part.pages ∈ ps) (hv : Part.seals ∈ ps) (h : Frame ps r s) :
    Frame ps r { s with pages := x } := by
  refine Frame.mk h fun p hq => ?_
  cases p <;> first | exact absurd hp hq | exact absurd hv hq | rfl | exact fun _ h => h | exact fun h => h | exact ⟨fun _ h => h, Nat.le_refl _⟩

theorem Frame.regsSet {ps : List Part} {r s : State} {x} (hp : Part.regs ∈ ps) (h : Frame ps r s) :
    Frame ps r { s with regs := x } := by
  refine Frame.mk h fun p hq => ?_
  cases p <;> first | exact absurd hp hq | rfl | exact fun _ h => h | exact fun h => h | exact ⟨fun _ h => h, Nat.le_refl _⟩

theorem Frame.cpxSet {ps : List Part} {r s : State} {x} (hp : Part.cpx ∈ ps) (h : Frame ps r s) :
    Frame ps r { s with cpx := x } := by
  refine Frame.mk h fun p hq => ?_
  cases p <;> first | exact absurd hp hq | rfl | exact fun _ h => h | exact fun h => h | exact ⟨fun _ h => h, Nat.le_refl _⟩

/-! ## What a frame says of a field outside it -/

theorem Frame.pending_eq {ps : List Part} {s t : State} (h : Frame ps s t) (hp : Part.pending ∉ ps := by decide) :
    t.pending = s.pending := h .pending hp

theorem Frame.ans_eq {ps : List Part} {s t : State} (h : Frame ps s t) (hp : Part.ans ∉ ps := by decide) :
    t.ans = s.ans := h .ans hp

theorem Frame.draws_eq {ps : List Part} {s t : State} (h : Frame ps s t) (hp : Part.draws ∉ ps := by decide) :
    t.draws = s.draws := h .draws hp

theorem Frame.gate_eq {ps : List Part} {s t : State} (h : Frame ps s t) (hp : Part.gate ∉ ps := by decide) :
    t.gate = s.gate := h .gate hp

theorem Frame.tbs_eq {ps : List Part} {s t : State} (h : Frame ps s t) (hp : Part.tbs ∉ ps := by decide) :
    t.tbs = s.tbs := h .tbs hp

theorem Frame.stp_eq {ps : List Part} {s t : State} (h : Frame ps s t) (hp : Part.stp ∉ ps := by decide) :
    t.stp = s.stp := h .stp hp

theorem Frame.qmx_eq {ps : List Part} {s t : State} (h : Frame ps s t) (hp : Part.qmx ∉ ps := by decide) :
    t.qmx = s.qmx := h .qmx hp

theorem Frame.ten_eq {ps : List Part} {s t : State} (h : Frame ps s t) (hp : Part.ten ∉ ps := by decide) :
    t.ten = s.ten := h .ten hp

theorem Frame.fns_eq {ps : List Part} {s t : State} (h : Frame ps s t) (hp : Part.fns ∉ ps := by decide) :
    t.fns = s.fns := h .fns hp

theorem Frame.map_eq {ps : List Part} {s t : State} (h : Frame ps s t) (hp : Part.map ∉ ps := by decide) :
    t.map = s.map := h .map hp

theorem Frame.wbf_eq {ps : List Part} {s t : State} (h : Frame ps s t) (hp : Part.wbf ∉ ps := by decide) :
    t.wbf = s.wbf := h .wbf hp

theorem Frame.fch_eq {ps : List Part} {s t : State} (h : Frame ps s t) (hp : Part.fch ∉ ps := by decide) :
    t.fch = s.fch := h .fch hp

theorem Frame.ldc_eq {ps : List Part} {s t : State} (h : Frame ps s t) (hp : Part.ldc ∉ ps := by decide) :
    t.ldc = s.ldc := h .ldc hp

theorem Frame.par_eq {ps : List Part} {s t : State} (h : Frame ps s t) (hp : Part.par ∉ ps := by decide) :
    t.par = s.par := h .par hp

theorem Frame.rcl_eq {ps : List Part} {s t : State} (h : Frame ps s t) (hp : Part.rcl ∉ ps := by decide) :
    t.rcl = s.rcl := h .rcl hp

theorem Frame.dmc_eq {ps : List Part} {s t : State} (h : Frame ps s t) (hp : Part.dmc ∉ ps := by decide) :
    t.dmc = s.dmc := h .dmc hp

theorem Frame.key_eq {ps : List Part} {s t : State} (h : Frame ps s t) (hp : Part.key ∉ ps := by decide) :
    t.key = s.key := h .key hp

theorem Frame.cip_eq {ps : List Part} {s t : State} (h : Frame ps s t) (hp : Part.cip ∉ ps := by decide) :
    t.cip = s.cip := h .cip hp

theorem Frame.staged_eq {ps : List Part} {s t : State} (h : Frame ps s t) (hp : Part.staged ∉ ps := by decide) :
    t.staged = s.staged := h .staged hp

theorem Frame.norWaits_eq {ps : List Part} {s t : State} (h : Frame ps s t) (hp : Part.norWaits ∉ ps := by decide) :
    t.norWaits = s.norWaits := h .norWaits hp

theorem Frame.hif_eq {ps : List Part} {s t : State} (h : Frame ps s t) (hp : Part.hif ∉ ps := by decide) :
    t.hif = s.hif := h .hif hp

theorem Frame.net_eq {ps : List Part} {s t : State} (h : Frame ps s t) (hp : Part.net ∉ ps := by decide) :
    t.net = s.net := h .net hp

theorem Frame.sbi_eq {ps : List Part} {s t : State} (h : Frame ps s t) (hp : Part.sbi ∉ ps := by decide) :
    t.sbi = s.sbi := h .sbi hp

theorem Frame.thm_eq {ps : List Part} {s t : State} (h : Frame ps s t) (hp : Part.thm ∉ ps := by decide) :
    t.thm = s.thm := h .thm hp

theorem Frame.hld_eq {ps : List Part} {s t : State} (h : Frame ps s t) (hp : Part.hld ∉ ps := by decide) :
    t.hld = s.hld := h .hld hp

theorem Frame.fuses_eq {ps : List Part} {s t : State} (h : Frame ps s t) (hp : Part.fuses ∉ ps := by decide) :
    t.fuses = s.fuses := h .fuses hp

theorem Frame.nor_eq {ps : List Part} {s t : State} (h : Frame ps s t) (hp : Part.nor ∉ ps := by decide) :
    t.nor = s.nor := h .nor hp

theorem Frame.bot_eq {ps : List Part} {s t : State} (h : Frame ps s t) (hp : Part.bot ∉ ps := by decide) :
    t.bot = s.bot := h .bot hp

theorem Frame.pins_eq {ps : List Part} {s t : State} (h : Frame ps s t) (hp : Part.pins ∉ ps := by decide) :
    t.pins = s.pins := h .pins hp

theorem Frame.evl_eq {ps : List Part} {s t : State} (h : Frame ps s t) (hp : Part.evl ∉ ps := by decide) :
    t.evl = s.evl := h .evl hp

theorem Frame.paths_eq {ps : List Part} {s t : State} (h : Frame ps s t) (hp : Part.paths ∉ ps := by decide) :
    t.paths = s.paths := h .paths hp

theorem Frame.pages_eq {ps : List Part} {s t : State} (h : Frame ps s t) (hp : Part.pages ∉ ps := by decide) :
    t.pages = s.pages := h .pages hp

theorem Frame.regs_eq {ps : List Part} {s t : State} (h : Frame ps s t) (hp : Part.regs ∉ ps := by decide) :
    t.regs = s.regs := h .regs hp

theorem Frame.cpx_eq {ps : List Part} {s t : State} (h : Frame ps s t) (hp : Part.cpx ∉ ps := by decide) :
    t.cpx = s.cpx := h .cpx hp

end Sys2Proof.Machine
end

