-- ==== Sys2Proof/Laws/Tbl.lean ====
section
/-! SUPPORT. Laws of the sparse tables: what a key reads as after each operation, and that each operation keeps the
canonical form. They hold of every table, canonical or not, but where a premise says so. -/

namespace Sys2Proof.Machine

open Sys2Proof

@[simp] theorem Tbl.get_nil {α : Type} (k : Nat) : Tbl.get ([] : Tbl α) k = none := rfl

@[simp] theorem Tbl.getD_nil {α : Type} (k : Nat) (d : α) : Tbl.getD ([] : Tbl α) k d = d := rfl

theorem Tbl.get_set {α : Type} (t : Tbl α) (k q : Nat) (v : α) :
    Tbl.get (Tbl.set t k v) q = if q = k then some v else Tbl.get t q := by
  induction t with
  | nil => simp only [Tbl.set, Tbl.get, eq_comm]
  | cons p r ih =>
    simp only [Tbl.set]
    split
    · simp only [Tbl.get, eq_comm]
    · split
      · subst k
        simp only [Tbl.get]
        by_cases h : q = p.1
        · simp [h]
        · simp [h, Ne.symm h]
      · next h1 h2 =>
        simp only [Tbl.get, ih]
        by_cases h : p.1 = q
        · have : ¬ q = k := by omega
          simp [h, this]
        · simp [h]

@[simp] theorem Tbl.get_set_self {α : Type} (t : Tbl α) (k : Nat) (v : α) :
    Tbl.get (Tbl.set t k v) k = some v := by simp [Tbl.get_set]

theorem Tbl.getD_set {α : Type} (t : Tbl α) (k q : Nat) (v d : α) :
    Tbl.getD (Tbl.set t k v) q d = if q = k then v else Tbl.getD t q d := by
  unfold Tbl.getD
  rw [Tbl.get_set]
  split <;> rfl

theorem Tbl.get_erase {α : Type} (t : Tbl α) (k q : Nat) :
    Tbl.get (Tbl.erase t k) q = if q = k then none else Tbl.get t q := by
  induction t with
  | nil => simp [Tbl.erase]
  | cons p r ih =>
    simp only [Tbl.erase]
    split
    · next h =>
      rw [ih]
      by_cases hq : q = k
      · simp [hq]
      · have : ¬ p.1 = q := fun e => hq (by omega)
        simp [hq, Tbl.get, this]
    · next h =>
      simp only [Tbl.get, ih]
      by_cases hq : p.1 = q
      · have : ¬ q = k := by omega
        simp [hq, this]
      · simp [hq]

theorem Tbl.getD_erase {α : Type} (t : Tbl α) (k q : Nat) (d : α) :
    Tbl.getD (Tbl.erase t k) q d = if q = k then d else Tbl.getD t q d := by
  unfold Tbl.getD
  rw [Tbl.get_erase]
  split <;> rfl

/-- What a key reads as after a value is stored at one. -/
theorem Tbl.getD_put {α : Type} [DecidableEq α] (t : Tbl α) (k q : Nat) (v d : α) :
    Tbl.getD (Tbl.put t k v d) q d = if q = k then v else Tbl.getD t q d := by
  unfold Tbl.put
  split
  · next h => rw [Tbl.getD_erase, h]
  · exact Tbl.getD_set t k q v d

@[simp] theorem Tbl.getD_put_self {α : Type} [DecidableEq α] (t : Tbl α) (k : Nat) (v d : α) :
    Tbl.getD (Tbl.put t k v d) k d = v := by simp [Tbl.getD_put]

theorem Tbl.get_upd {α : Type} (t : Tbl α) (k q : Nat) (f : α → α) :
    Tbl.get (Tbl.upd t k f) q = if q = k then (Tbl.get t q).map f else Tbl.get t q := by
  induction t with
  | nil => simp [Tbl.upd]
  | cons p r ih =>
    simp only [Tbl.upd]
    split
    · next h =>
      simp only [Tbl.get]
      by_cases hq : p.1 = q
      · simp [hq, show q = k by omega]
      · simp [hq, show ¬ q = k by omega]
    · next h =>
      simp only [Tbl.get, ih]
      by_cases hq : p.1 = q
      · simp [hq, show ¬ q = k by omega]
      · simp [hq]

theorem Tbl.get_map {α : Type} (t : Tbl α) (f : Nat → α → α) (q : Nat) :
    Tbl.get (Tbl.map t f) q = (Tbl.get t q).map (f q) := by
  induction t with
  | nil => rfl
  | cons p r ih =>
    simp only [Tbl.map, List.map_cons, Tbl.get] at *
    split
    · next h => subst q; rfl
    · exact ih

/-! ## Canonical form -/

theorem Tbl.wf_cons {α : Type} (p : Nat × α) (r : Tbl α) :
    Tbl.wf (p :: r) = true ↔ (∀ q ∈ r, p.1 < q.1) ∧ Tbl.wf r = true := by
  induction r generalizing p with
  | nil => simp [Tbl.wf]
  | cons a r ih =>
    have hw : Tbl.wf (p :: a :: r) = (decide (p.1 < a.1) && Tbl.wf (a :: r)) := rfl
    rw [hw, Bool.and_eq_true, decide_eq_true_iff]
    constructor
    · rintro ⟨h1, h2⟩
      refine ⟨fun q hq => ?_, h2⟩
      rcases List.mem_cons.1 hq with rfl | hq
      · exact h1
      · exact Nat.lt_trans h1 ((ih a).1 h2 |>.1 q hq)
    · rintro ⟨h1, h2⟩
      exact ⟨h1 a (List.mem_cons_self ..), h2⟩

theorem Tbl.mem_set {α : Type} {t : Tbl α} {k : Nat} {v : α} {q : Nat × α} (h : q ∈ Tbl.set t k v) :
    q = (k, v) ∨ q ∈ t := by
  induction t with
  | nil => exact .inl (by simpa [Tbl.set] using h)
  | cons p r ih =>
    simp only [Tbl.set] at h
    split at h
    · rcases List.mem_cons.1 h with h | h
      · exact .inl h
      · exact .inr h
    · split at h
      · rcases List.mem_cons.1 h with h | h
        · exact .inl h
        · exact .inr (List.mem_cons_of_mem _ h)
      · rcases List.mem_cons.1 h with h | h
        · exact .inr (h ▸ List.mem_cons_self ..)
        · exact (ih h).imp id (List.mem_cons_of_mem _)

theorem Tbl.wf_set {α : Type} {t : Tbl α} (h : Tbl.wf t = true) (k : Nat) (v : α) :
    Tbl.wf (Tbl.set t k v) = true := by
  induction t with
  | nil => rfl
  | cons p r ih =>
    obtain ⟨h1, h2⟩ := (Tbl.wf_cons p r).1 h
    simp only [Tbl.set]
    split
    · next hk =>
      refine (Tbl.wf_cons _ _).2 ⟨fun q hq => ?_, h⟩
      rcases List.mem_cons.1 hq with rfl | hq
      · exact hk
      · exact Nat.lt_trans hk (h1 q hq)
    · split
      · next hk => exact (Tbl.wf_cons _ _).2 ⟨fun q hq => hk ▸ h1 q hq, h2⟩
      · next hk hk' =>
        refine (Tbl.wf_cons _ _).2 ⟨fun q hq => ?_, ih h2⟩
        rcases Tbl.mem_set hq with rfl | hq
        · show p.1 < k; omega
        · exact h1 q hq

theorem Tbl.mem_erase {α : Type} {t : Tbl α} {k : Nat} {q : Nat × α} (h : q ∈ Tbl.erase t k) : q ∈ t := by
  induction t with
  | nil => exact h
  | cons p r ih =>
    simp only [Tbl.erase] at h
    split at h
    · exact List.mem_cons_of_mem _ (ih h)
    · rcases List.mem_cons.1 h with h | h
      · exact h ▸ List.mem_cons_self ..
      · exact List.mem_cons_of_mem _ (ih h)

theorem Tbl.wf_erase {α : Type} {t : Tbl α} (h : Tbl.wf t = true) (k : Nat) : Tbl.wf (Tbl.erase t k) = true := by
  induction t with
  | nil => rfl
  | cons p r ih =>
    obtain ⟨h1, h2⟩ := (Tbl.wf_cons p r).1 h
    simp only [Tbl.erase]
    split
    · exact ih h2
    · exact (Tbl.wf_cons _ _).2 ⟨fun q hq => h1 q (Tbl.mem_erase hq), ih h2⟩

theorem Tbl.wf_put {α : Type} [DecidableEq α] {t : Tbl α} (h : Tbl.wf t = true) (k : Nat) (v d : α) :
    Tbl.wf (Tbl.put t k v d) = true := by
  unfold Tbl.put
  split
  · exact Tbl.wf_erase h k
  · exact Tbl.wf_set h k v

theorem Tbl.wf_filter {α : Type} {t : Tbl α} (h : Tbl.wf t = true) (p : Nat × α → Bool) :
    Tbl.wf (List.filter p t) = true := by
  induction t with
  | nil => rfl
  | cons a r ih =>
    obtain ⟨h1, h2⟩ := (Tbl.wf_cons a r).1 h
    simp only [List.filter]
    split
    · exact (Tbl.wf_cons _ _).2 ⟨fun q hq => h1 q (List.mem_filter.1 hq).1, ih h2⟩
    · exact ih h2

theorem Tbl.wf_map {α : Type} {t : Tbl α} (h : Tbl.wf t = true) (f : Nat → α → α) :
    Tbl.wf (Tbl.map t f) = true := by
  induction t with
  | nil => rfl
  | cons a r ih =>
    obtain ⟨h1, h2⟩ := (Tbl.wf_cons a r).1 h
    refine (Tbl.wf_cons _ _).2 ⟨fun q hq => ?_, ih h2⟩
    obtain ⟨b, hb, rfl⟩ := List.mem_map.1 hq
    exact h1 b hb

end Sys2Proof.Machine
end

