-- ==== Sys2Proof/Laws/Ops.lean ====
section
/-! SUPPORT. What each operation of Machine/Ops.lean may change. -/

-- one proof after another: many at once would each hold a thread
set_option Elab.async false

namespace Sys2Proof.Machine

open Sys2Proof

theorem State.setAns_frame {ps : List Part} {r₀ : State} {s : State} {x : Answer}
    (sub : [.ans] ⊆ ps) (h₀ : Frame ps r₀ s) : Frame ps r₀ (State.setAns s x) :=
  Frame.ansSet (sub (by decide)) h₀

theorem State.setDraws_frame {ps : List Part} {r₀ : State} {s : State} {x : Nat}
    (sub : [.draws] ⊆ ps) (h₀ : Frame ps r₀ s) : Frame ps r₀ (State.setDraws s x) :=
  Frame.drawsSet (sub (by decide)) h₀

theorem State.setGate_frame {ps : List Part} {r₀ : State} {s : State} {x : Gate}
    (sub : [.gate] ⊆ ps) (h₀ : Frame ps r₀ s) : Frame ps r₀ (State.setGate s x) :=
  Frame.gateSet (sub (by decide)) h₀

/-- The bounds of the time base are kept where the new value keeps them. -/
theorem State.setTbs_keep {ps : List Part} {r s : State} {b : Tbs} (k : s.tbs.ok → b.ok)
    (sub : [.tbs] ⊆ ps) (h : Frame ps r s) : Frame ps r (s.setTbs b) :=
  Frame.tbsSet (sub (by decide)) k h

theorem State.setStp_frame {ps : List Part} {r₀ : State} {s : State} {x : Stp}
    (sub : [.stp] ⊆ ps) (h₀ : Frame ps r₀ s) : Frame ps r₀ (State.setStp s x) :=
  Frame.stpSet (sub (by decide)) h₀

theorem State.setQmx_frame {ps : List Part} {r₀ : State} {s : State} {x : Qmx}
    (sub : [.qmx] ⊆ ps) (h₀ : Frame ps r₀ s) : Frame ps r₀ (State.setQmx s x) :=
  Frame.qmxSet (sub (by decide)) h₀

theorem State.setTen_frame {ps : List Part} {r₀ : State} {s : State} {x : Ten}
    (sub : [.ten] ⊆ ps) (h₀ : Frame ps r₀ s) : Frame ps r₀ (State.setTen s x) :=
  Frame.tenSet (sub (by decide)) h₀

theorem State.setFns_frame {ps : List Part} {r₀ : State} {s : State} {x : Tbl Fn}
    (sub : [.fns] ⊆ ps) (h₀ : Frame ps r₀ s) : Frame ps r₀ (State.setFns s x) :=
  Frame.fnsSet (sub (by decide)) h₀

theorem State.setMap_frame {ps : List Part} {r₀ : State} {s : State} {x : Map}
    (sub : [.map] ⊆ ps) (h₀ : Frame ps r₀ s) : Frame ps r₀ (State.setMap s x) :=
  Frame.mapSet (sub (by decide)) h₀

theorem State.setWbf_frame {ps : List Part} {r₀ : State} {s : State} {x : Wbf}
    (sub : [.wbf] ⊆ ps) (h₀ : Frame ps r₀ s) : Frame ps r₀ (State.setWbf s x) :=
  Frame.wbfSet (sub (by decide)) h₀

/-- Media is kept where the new value of `fch` keeps it. -/
theorem State.setFch_keep {ps : List Part} {r s : State} {f : Fch} (k : f.media = s.fch.media)
    (sub : [.fch] ⊆ ps) (h : Frame ps r s) : Frame ps r (s.setFch f) := by
  refine Frame.mk h fun p hp => ?_
  cases p <;> first | exact absurd (sub (by decide)) hp | exact k | exact fun w => k.symm ▸ w | rfl | exact fun _ h => h | exact fun h => h | exact ⟨fun _ h => h, Nat.le_refl _⟩

theorem State.setLdc_frame {ps : List Part} {r₀ : State} {s : State} {x : Ldc}
    (sub : [.ldc] ⊆ ps) (h₀ : Frame ps r₀ s) : Frame ps r₀ (State.setLdc s x) :=
  Frame.ldcSet (sub (by decide)) h₀

theorem State.setPar_frame {ps : List Part} {r₀ : State} {s : State} {x : Par}
    (sub : [.par] ⊆ ps) (h₀ : Frame ps r₀ s) : Frame ps r₀ (State.setPar s x) :=
  Frame.parSet (sub (by decide)) h₀

theorem State.setRcl_frame {ps : List Part} {r₀ : State} {s : State} {x : Rcl}
    (sub : [.rcl] ⊆ ps) (h₀ : Frame ps r₀ s) : Frame ps r₀ (State.setRcl s x) :=
  Frame.rclSet (sub (by decide)) h₀

theorem State.setDmc_frame {ps : List Part} {r₀ : State} {s : State} {x : Dmc}
    (sub : [.dmc] ⊆ ps) (h₀ : Frame ps r₀ s) : Frame ps r₀ (State.setDmc s x) :=
  Frame.dmcSet (sub (by decide)) h₀

theorem State.setKey_frame {ps : List Part} {r₀ : State} {s : State} {x : Key}
    (sub : [.key] ⊆ ps) (h₀ : Frame ps r₀ s) : Frame ps r₀ (State.setKey s x) :=
  Frame.keySet (sub (by decide)) h₀

theorem State.setCip_frame {ps : List Part} {r₀ : State} {s : State} {x : Cip}
    (sub : [.cip] ⊆ ps) (h₀ : Frame ps r₀ s) : Frame ps r₀ (State.setCip s x) :=
  Frame.cipSet (sub (by decide)) h₀

theorem State.setStaged_frame {ps : List Part} {r₀ : State} {s : State} {x : List Staged}
    (sub : [.staged] ⊆ ps) (h₀ : Frame ps r₀ s) : Frame ps r₀ (State.setStaged s x) :=
  Frame.stagedSet (sub (by decide)) h₀

theorem State.setNorWaits_frame {ps : List Part} {r₀ : State} {s : State} {x : List NorWait}
    (sub : [.norWaits] ⊆ ps) (h₀ : Frame ps r₀ s) : Frame ps r₀ (State.setNorWaits s x) :=
  Frame.norWaitsSet (sub (by decide)) h₀

theorem State.setHif_frame {ps : List Part} {r₀ : State} {s : State} {x : Hif}
    (sub : [.hif] ⊆ ps) (h₀ : Frame ps r₀ s) : Frame ps r₀ (State.setHif s x) :=
  Frame.hifSet (sub (by decide)) h₀

theorem State.setNet_frame {ps : List Part} {r₀ : State} {s : State} {x : Net}
    (sub : [.net] ⊆ ps) (h₀ : Frame ps r₀ s) : Frame ps r₀ (State.setNet s x) :=
  Frame.netSet (sub (by decide)) h₀

theorem State.setSbi_frame {ps : List Part} {r₀ : State} {s : State} {x : Sbi}
    (sub : [.sbi] ⊆ ps) (h₀ : Frame ps r₀ s) : Frame ps r₀ (State.setSbi s x) :=
  Frame.sbiSet (sub (by decide)) h₀

theorem State.setThm_frame {ps : List Part} {r₀ : State} {s : State} {x : Thm}
    (sub : [.thm] ⊆ ps) (h₀ : Frame ps r₀ s) : Frame ps r₀ (State.setThm s x) :=
  Frame.thmSet (sub (by decide)) h₀

theorem State.setHld_frame {ps : List Part} {r₀ : State} {s : State} {x : Hld}
    (sub : [.hld] ⊆ ps) (h₀ : Frame ps r₀ s) : Frame ps r₀ (State.setHld s x) :=
  Frame.hldSet (sub (by decide)) h₀

/-- No fuse is un-blown where the new value blows no fewer. -/
theorem State.setFuses_keep {ps : List Part} {r s : State} {x : Fuses}
    (k : (∀ i, s.fuses.revoked.getLsbD i = true → x.revoked.getLsbD i = true) ∧ s.fuses.svn ≤ x.svn)
    (sub : [.fuses] ⊆ ps) (h : Frame ps r s) : Frame ps r (s.setFuses x) := by
  refine Frame.mk h fun p hp => ?_
  cases p <;> first | exact absurd (sub (by decide)) hp | exact k | rfl | exact fun _ h => h | exact fun h => h

theorem State.setNor_frame {ps : List Part} {r₀ : State} {s : State} {x : Nor}
    (sub : [.nor] ⊆ ps) (h₀ : Frame ps r₀ s) : Frame ps r₀ (State.setNor s x) :=
  Frame.norSet (sub (by decide)) h₀

theorem State.setBot_frame {ps : List Part} {r₀ : State} {s : State} {x : Bot}
    (sub : [.bot] ⊆ ps) (h₀ : Frame ps r₀ s) : Frame ps r₀ (State.setBot s x) :=
  Frame.botSet (sub (by decide)) h₀

theorem State.setPins_frame {ps : List Part} {r₀ : State} {s : State} {x : Pins}
    (sub : [.pins] ⊆ ps) (h₀ : Frame ps r₀ s) : Frame ps r₀ (State.setPins s x) :=
  Frame.pinsSet (sub (by decide)) h₀

theorem State.setEvl_frame {ps : List Part} {r₀ : State} {s : State} {x : Evl}
    (sub : [.evl] ⊆ ps) (h₀ : Frame ps r₀ s) : Frame ps r₀ (State.setEvl s x) :=
  Frame.evlSet (sub (by decide)) h₀

theorem State.setPaths_frame {ps : List Part} {r₀ : State} {s : State} {x : Tbl PathState}
    (sub : [.paths] ⊆ ps) (h₀ : Frame ps r₀ s) : Frame ps r₀ (State.setPaths s x) :=
  Frame.pathsSet (sub (by decide)) h₀

theorem State.setPages_frame {ps : List Part} {r₀ s : State} {x : Tbl Page}
    (sub : [.pages, .seals] ⊆ ps) (h : Frame ps r₀ s) : Frame ps r₀ (s.setPages x) :=
  Frame.pagesSet (sub (by decide)) (sub (by decide)) h

theorem State.setRegs_frame {ps : List Part} {r₀ : State} {s : State} {x : Tbl Nat}
    (sub : [.regs] ⊆ ps) (h₀ : Frame ps r₀ s) : Frame ps r₀ (State.setRegs s x) :=
  Frame.regsSet (sub (by decide)) h₀

theorem State.setCpx_frame {ps : List Part} {r₀ : State} {s : State} {x : Cpx}
    (sub : [.cpx] ⊆ ps) (h₀ : Frame ps r₀ s) : Frame ps r₀ (State.setCpx s x) :=
  Frame.cpxSet (sub (by decide)) h₀

theorem State.wake_frame {ps : List Part} {r₀ : State} {s : State} {d : BitVec 256}
    (sub : [.gate] ⊆ ps) (h₀ : Frame ps r₀ s) : Frame ps r₀ (State.wake s d) := by
  unfold State.wake
  try dsimp only
  repeat' first
    | with_reducible assumption
    | with_reducible exact List.Subset.trans (by decide) sub
    | with_reducible apply State.setGate_frame
    | with_reducible refine Frame.ite ?_ ?_
    | dsimp only
    | split

theorem State.wakePage_frame {ps : List Part} {r₀ : State} {s : State} {pg : Nat}
    (sub : [.gate] ⊆ ps) (h₀ : Frame ps r₀ s) : Frame ps r₀ (State.wakePage s pg) := by
  unfold State.wakePage
  try dsimp only
  repeat' first
    | with_reducible assumption
    | with_reducible exact List.Subset.trans (by decide) sub
    | with_reducible apply State.wake_frame
    | dsimp only
    | split

theorem State.wrBank_frame {ps : List Part} {r₀ : State} {s : State} {f : Fld} {k b v : Nat}
    (sub : [.regs] ⊆ ps) (h₀ : Frame ps r₀ s) : Frame ps r₀ (State.wrBank s f k b v) := by
  unfold State.wrBank
  try dsimp only
  repeat' first
    | with_reducible assumption
    | with_reducible exact List.Subset.trans (by decide) sub
    | with_reducible apply State.setRegs_frame
    | dsimp only
    | split

theorem State.wrAt_frame {ps : List Part} {r₀ : State} {s : State} {f : Fld} {inst k v : Nat}
    (sub : [.regs] ⊆ ps) (h₀ : Frame ps r₀ s) : Frame ps r₀ (State.wrAt s f inst k v) := by
  unfold State.wrAt
  try dsimp only
  repeat' first
    | with_reducible assumption
    | with_reducible exact List.Subset.trans (by decide) sub
    | with_reducible apply State.setRegs_frame
    | dsimp only
    | split

theorem State.wr_frame {ps : List Part} {r₀ : State} {s : State} {f : Fld} {v : Nat}
    (sub : [.regs] ⊆ ps) (h₀ : Frame ps r₀ s) : Frame ps r₀ (State.wr s f v) := by
  unfold State.wr
  try dsimp only
  repeat' first
    | with_reducible assumption
    | with_reducible exact List.Subset.trans (by decide) sub
    | with_reducible apply State.wrAt_frame
    | dsimp only
    | split

theorem State.setPage_page (s : State) (p q : Nat) (x : Page) :
    (s.setPage p x).page q = if q = p then x else s.page q := by
  unfold State.setPage State.page
  exact Tbl.getD_put _ _ _ _ _

/-- Seals are kept where the new header keeps its own. -/
theorem State.setPage_keep {ps : List Part} {r s : State} {p : Nat} {x : Page}
    (k : (s.page p).sealBit = true → x.sealBit = true) (sub : [.pages] ⊆ ps) (h : Frame ps r s) :
    Frame ps r (s.setPage p x) := by
  refine Frame.mk h fun q hq => ?_
  cases q <;> first
    | exact absurd (sub (by decide)) hq
    | (intro j hj
       rw [State.setPage_page]
       split
       · subst j; exact k hj
       · exact hj)
    | rfl
    | exact fun _ h => h
    | exact fun h => h
    | exact ⟨fun _ h => h, Nat.le_refl _⟩

theorem State.bumpAt_frame {ps : List Part} {r₀ : State} {s : State} {f : Fld} {inst k n : Nat}
    (sub : [.regs] ⊆ ps) (h₀ : Frame ps r₀ s) : Frame ps r₀ (State.bumpAt s f inst k n) := by
  unfold State.bumpAt
  try dsimp only
  repeat' first
    | with_reducible assumption
    | with_reducible exact List.Subset.trans (by decide) sub
    | with_reducible apply State.wrAt_frame
    | with_reducible refine Frame.ite ?_ ?_
    | dsimp only
    | split

theorem State.bump_frame {ps : List Part} {r₀ : State} {s : State} {f : Fld} {n : Nat}
    (sub : [.regs] ⊆ ps) (h₀ : Frame ps r₀ s) : Frame ps r₀ (State.bump s f n) := by
  unfold State.bump
  try dsimp only
  repeat' first
    | with_reducible assumption
    | with_reducible exact List.Subset.trans (by decide) sub
    | with_reducible apply State.bumpAt_frame
    | dsimp only
    | split

theorem State.evt_frame {ps : List Part} {r s : State} {p bit : Nat} (sub : [.pages] ⊆ ps) (h : Frame ps r s) :
    Frame ps r (s.evt p bit) := by
  unfold State.evt
  exact State.setPage_keep (fun h => h) sub h

theorem State.ev_frame {ps : List Part} {r₀ : State} {s : State} {e : Nat × Nat}
    (sub : [.pages] ⊆ ps) (h₀ : Frame ps r₀ s) : Frame ps r₀ (State.ev s e) := by
  unfold State.ev
  try dsimp only
  repeat' first
    | with_reducible assumption
    | with_reducible exact List.Subset.trans (by decide) sub
    | with_reducible apply State.evt_frame
    | dsimp only
    | split

theorem State.evCh_frame {ps : List Part} {r₀ : State} {s : State} {nn : Nat} {e : Nat × Nat}
    (sub : [.pages] ⊆ ps) (h₀ : Frame ps r₀ s) : Frame ps r₀ (State.evCh s nn e) := by
  unfold State.evCh
  try dsimp only
  repeat' first
    | with_reducible assumption
    | with_reducible exact List.Subset.trans (by decide) sub
    | with_reducible apply State.evt_frame
    | dsimp only
    | split

theorem State.capture_frame {ps : List Part} {r s : State} {p code : Nat} {func : Option Nat} {addr : Nat}
    (sub : [.pages] ⊆ ps) (h : Frame ps r s) : Frame ps r (s.capture p code func addr) := by
  unfold State.capture
  refine State.setPage_keep (fun h => ?_) sub h
  split <;> exact h

theorem State.setBucket_frame {ps : List Part} {r₀ : State} {s : State} {k : Nat} {b : Bucket}
    (sub : [.evl] ⊆ ps) (h₀ : Frame ps r₀ s) : Frame ps r₀ (State.setBucket s k b) := by
  unfold State.setBucket
  try dsimp only
  repeat' first
    | with_reducible assumption
    | with_reducible exact List.Subset.trans (by decide) sub
    | with_reducible apply State.setEvl_frame
    | dsimp only
    | split

theorem refuse_frame {ps : List Part} {r₀ : State} {s : State} {k : Nat} {r : LRec} {bit : Nat}
    (sub : [.evl, .pages, .regs] ⊆ ps) (h₀ : Frame ps r₀ s) : Frame ps r₀ (refuse s k r bit) := by
  unfold refuse
  try dsimp only
  repeat' first
    | with_reducible assumption
    | with_reducible exact List.Subset.trans (by decide) sub
    | with_reducible apply State.bump_frame
    | with_reducible apply State.evt_frame
    | with_reducible apply State.setBucket_frame
    | dsimp only
    | split

theorem accept_frame {ps : List Part} {r₀ : State} {s : State} {code : Nat} {r : LRec}
    (sub : [.evl, .pages, .regs] ⊆ ps) (h₀ : Frame ps r₀ s) : Frame ps r₀ (accept s code r) := by
  unfold accept
  try dsimp only
  repeat' first
    | with_reducible assumption
    | with_reducible exact List.Subset.trans (by decide) sub
    | with_reducible apply State.setBucket_frame
    | with_reducible apply State.setEvl_frame
    | with_reducible apply refuse_frame
    | with_reducible refine Frame.ite ?_ ?_
    | dsimp only
    | split

theorem State.raiseAt_frame {ps : List Part} {r₀ : State} {s : State} {p code : Nat} {func : Option Nat} {payload : List (Nat × Nat)} {addr : Option Nat}
    (sub : [.evl, .pages, .regs] ⊆ ps) (h₀ : Frame ps r₀ s) : Frame ps r₀ (State.raiseAt s p code func payload addr) := by
  unfold State.raiseAt
  try dsimp only
  repeat' first
    | with_reducible assumption
    | with_reducible exact List.Subset.trans (by decide) sub
    | with_reducible apply State.capture_frame
    | with_reducible apply State.setEvl_frame
    | with_reducible apply accept_frame
    | with_reducible refine Frame.ite ?_ ?_
    | dsimp only
    | split

theorem State.raise_frame {ps : List Part} {r₀ : State} {s : State} {code : Nat} {func : Option Nat} {payload : List (Nat × Nat)}
    (sub : [.evl, .pages, .regs] ⊆ ps) (h₀ : Frame ps r₀ s) : Frame ps r₀ (State.raise s code func payload) := by
  unfold State.raise
  try dsimp only
  repeat' first
    | with_reducible assumption
    | with_reducible exact List.Subset.trans (by decide) sub
    | with_reducible apply State.raiseAt_frame
    | dsimp only
    | split

theorem State.draw_frame {ps : List Part} {r₀ : State} {s : State}
    (sub : [.draws] ⊆ ps) (h₀ : Frame ps r₀ s) : Frame ps r₀ (State.draw s).2 := by
  unfold State.draw
  try dsimp only
  repeat' first
    | with_reducible assumption
    | with_reducible exact List.Subset.trans (by decide) sub
    | with_reducible apply State.setDraws_frame
    | dsimp only
    | split

theorem State.draw_eq_frame {ps : List Part} {r₀ : State} {s : State} {v₀ : Nat} {t : State}
    (e : (State.draw s) = (v₀, t)) (sub : [.draws] ⊆ ps) (h₀ : Frame ps r₀ s) : Frame ps r₀ t := by
  have k := State.draw_frame (s := s) sub h₀
  rw [e] at k
  exact k

theorem State.setFn_frame {ps : List Part} {r₀ : State} {s : State} {f : Nat} {x : Fn}
    (sub : [.fns] ⊆ ps) (h₀ : Frame ps r₀ s) : Frame ps r₀ (State.setFn s f x) := by
  unfold State.setFn
  try dsimp only
  repeat' first
    | with_reducible assumption
    | with_reducible exact List.Subset.trans (by decide) sub
    | with_reducible apply State.setFns_frame
    | dsimp only
    | split

theorem State.updFn_frame {ps : List Part} {r₀ : State} {s : State} {f : Nat} {g : Fn → Fn}
    (sub : [.fns] ⊆ ps) (h₀ : Frame ps r₀ s) : Frame ps r₀ (State.updFn s f g) := by
  unfold State.updFn
  try dsimp only
  repeat' first
    | with_reducible assumption
    | with_reducible exact List.Subset.trans (by decide) sub
    | with_reducible apply State.setFn_frame
    | dsimp only
    | split

theorem State.updCmd_frame {ps : List Part} {r₀ : State} {s : State} {seq : Nat} {g : Cmd → Cmd}
    (sub : [.qmx] ⊆ ps) (h₀ : Frame ps r₀ s) : Frame ps r₀ (State.updCmd s seq g) := by
  unfold State.updCmd
  try dsimp only
  repeat' first
    | with_reducible assumption
    | with_reducible exact List.Subset.trans (by decide) sub
    | with_reducible apply State.setQmx_frame
    | with_reducible refine Frame.ite ?_ ?_
    | dsimp only
    | split

theorem State.dropCmd_frame {ps : List Part} {r₀ : State} {s : State} {seq : Nat}
    (sub : [.qmx] ⊆ ps) (h₀ : Frame ps r₀ s) : Frame ps r₀ (State.dropCmd s seq) := by
  unfold State.dropCmd
  try dsimp only
  repeat' first
    | with_reducible assumption
    | with_reducible exact List.Subset.trans (by decide) sub
    | with_reducible apply State.setQmx_frame
    | dsimp only
    | split

theorem State.meter_frame {ps : List Part} {r₀ : State} {s : State} {f : Nat} {g : Meter → Meter}
    (sub : [.fns] ⊆ ps) (h₀ : Frame ps r₀ s) : Frame ps r₀ (State.meter s f g) := by
  unfold State.meter
  try dsimp only
  repeat' first
    | with_reducible assumption
    | with_reducible exact List.Subset.trans (by decide) sub
    | with_reducible apply State.updFn_frame
    | dsimp only
    | split

theorem State.entryWritten_frame {ps : List Part} {r₀ : State} {s : State} {f : Nat} {e : Cqe}
    (sub : [.fns] ⊆ ps) (h₀ : Frame ps r₀ s) : Frame ps r₀ (State.entryWritten s f e) := by
  unfold State.entryWritten
  try dsimp only
  split
  all_goals repeat' first
    | with_reducible assumption
    | with_reducible exact List.Subset.trans (by decide) sub
    | with_reducible apply State.meter_frame
    | dsimp only
    | split

theorem State.postWide_frame {ps : List Part} {r₀ : State} {s : State} {c : Cmd} {t : Status} {dw0 dw1 : Dword}
    (sub : [.fns] ⊆ ps) (h₀ : Frame ps r₀ s) : Frame ps r₀ (State.postWide s c t dw0 dw1) := by
  unfold State.postWide
  try dsimp only
  repeat' first
    | with_reducible assumption
    | with_reducible exact List.Subset.trans (by decide) sub
    | with_reducible apply State.entryWritten_frame
    | with_reducible apply State.setFn_frame
    | with_reducible refine Frame.ite ?_ ?_
    | dsimp only
    | split

theorem State.endCmd_frame {ps : List Part} {r₀ : State} {s : State} {c : Cmd} {t : Status} {dw0 dw1 : Dword}
    (sub : [.qmx, .fns] ⊆ ps) (h₀ : Frame ps r₀ s) : Frame ps r₀ (State.endCmd s c t dw0 dw1) := by
  unfold State.endCmd
  try dsimp only
  repeat' first
    | with_reducible assumption
    | with_reducible exact List.Subset.trans (by decide) sub
    | with_reducible apply State.dropCmd_frame
    | with_reducible apply State.meter_frame
    | with_reducible apply State.postWide_frame
    | with_reducible refine Frame.ite ?_ ?_
    | dsimp only
    | split

theorem State.complete_frame {ps : List Part} {r₀ : State} {s : State} {seq : Nat} {t : Status} {dw0 : Dword}
    (sub : [.qmx, .fns] ⊆ ps) (h₀ : Frame ps r₀ s) : Frame ps r₀ (State.complete s seq t dw0) := by
  unfold State.complete
  try dsimp only
  split
  all_goals repeat' first
    | with_reducible assumption
    | with_reducible exact List.Subset.trans (by decide) sub
    | with_reducible apply State.endCmd_frame
    | dsimp only
    | split

theorem State.finish_frame {ps : List Part} {r₀ : State} {s : State} {seq : Nat} {t : Status}
    (sub : [.qmx, .fns] ⊆ ps) (h₀ : Frame ps r₀ s) : Frame ps r₀ (State.finish s seq t) := by
  unfold State.finish
  try dsimp only
  repeat' first
    | with_reducible assumption
    | with_reducible exact List.Subset.trans (by decide) sub
    | with_reducible apply State.complete_frame
    | dsimp only
    | split

theorem State.asyncEvent_frame {ps : List Part} {r₀ : State} {s : State} {f typ info page : Nat}
    (sub : [.qmx, .fns] ⊆ ps) (h₀ : Frame ps r₀ s) : Frame ps r₀ (State.asyncEvent s f typ info page) := by
  unfold State.asyncEvent
  try dsimp only
  repeat' first
    | with_reducible assumption
    | with_reducible exact List.Subset.trans (by decide) sub
    | with_reducible apply State.complete_frame
    | with_reducible apply State.setFn_frame
    | dsimp only
    | split

theorem State.answer_frame {ps : List Part} {r₀ : State} {s : State} {a : Answer}
    (sub : [.ans] ⊆ ps) (h₀ : Frame ps r₀ s) : Frame ps r₀ (State.answer s a) := by
  unfold State.answer
  try dsimp only
  repeat' first
    | with_reducible assumption
    | with_reducible exact List.Subset.trans (by decide) sub
    | with_reducible apply State.setAns_frame
    | dsimp only
    | split

theorem State.reply_frame {ps : List Part} {r₀ : State} {s : State} {seq : Nat} {b : List Byte}
    (sub : [.ans, .qmx, .fns] ⊆ ps) (h₀ : Frame ps r₀ s) : Frame ps r₀ (State.reply s seq b) := by
  unfold State.reply
  try dsimp only
  split
  all_goals repeat' first
    | with_reducible assumption
    | with_reducible exact List.Subset.trans (by decide) sub
    | with_reducible apply State.answer_frame
    | with_reducible apply State.finish_frame
    | dsimp only
    | split

theorem State.admin_frame {ps : List Part} {r₀ : State} {s : State} {seq : Nat} {act : Cmd → State}
    (ha : ∀ c, Frame ps r₀ (act c)) (h₀ : Frame ps r₀ s) :
    Frame ps r₀ (State.admin s seq act) := by
  unfold State.admin
  try dsimp only
  split
  all_goals repeat' first
    | with_reducible assumption
    | with_reducible exact List.Subset.trans (by decide) sub
    | with_reducible exact ha _
    | dsimp only
    | split

theorem State.hold_frame {ps : List Part} {r₀ : State} {s : State} {seq : Nat}
    (sub : [.qmx] ⊆ ps) (h₀ : Frame ps r₀ s) : Frame ps r₀ (State.hold s seq) := by
  unfold State.hold
  try dsimp only
  repeat' first
    | with_reducible assumption
    | with_reducible exact List.Subset.trans (by decide) sub
    | with_reducible apply State.updCmd_frame
    | dsimp only
    | split

theorem State.ioCmd_frame {ps : List Part} {r₀ : State} {s : State} {seq op : Nat} {act : Cmd → State}
    (ha : ∀ c, Frame ps r₀ (act c)) (h₀ : Frame ps r₀ s) :
    Frame ps r₀ (State.ioCmd s seq op act) := by
  unfold State.ioCmd
  try dsimp only
  split
  all_goals repeat' first
    | with_reducible assumption
    | with_reducible exact List.Subset.trans (by decide) sub
    | with_reducible exact ha _
    | with_reducible refine Frame.ite ?_ ?_
    | dsimp only
    | split

end Sys2Proof.Machine
end

