-- ==== Sys2Proof/Laws/Layout.lean ====
section
/-! SUPPORT. What each operation of Machine/Layout.lean may change. -/

-- one proof after another: many at once would each hold a thread
set_option Elab.async false

namespace Sys2Proof.Machine

open Sys2Proof

theorem State.setDie_frame {ps : List Part} {r₀ : State} {s : State} {d : Nat} {x : Die}
    (sub : [.fch] ⊆ ps) (h₀ : Frame ps r₀ s) : Frame ps r₀ (State.setDie s d x) := by
  unfold State.setDie
  try dsimp only
  repeat' first
    | with_reducible assumption
    | with_reducible exact List.Subset.trans (by decide) sub
    | with_reducible refine State.setFch_keep ?_ ?_ ?_
    | exact (rfl : _ = _)
    | dsimp only
    | split

theorem State.updDie_frame {ps : List Part} {r₀ : State} {s : State} {d : Nat} {g : Die → Die}
    (sub : [.fch] ⊆ ps) (h₀ : Frame ps r₀ s) : Frame ps r₀ (State.updDie s d g) := by
  unfold State.updDie
  try dsimp only
  repeat' first
    | with_reducible assumption
    | with_reducible exact List.Subset.trans (by decide) sub
    | with_reducible apply State.setDie_frame
    | dsimp only
    | split

theorem State.setChan_frame {ps : List Part} {r₀ : State} {s : State} {c : Nat} {x : Chan}
    (sub : [.fch] ⊆ ps) (h₀ : Frame ps r₀ s) : Frame ps r₀ (State.setChan s c x) := by
  unfold State.setChan
  try dsimp only
  repeat' first
    | with_reducible assumption
    | with_reducible exact List.Subset.trans (by decide) sub
    | with_reducible refine State.setFch_keep ?_ ?_ ?_
    | exact (rfl : _ = _)
    | dsimp only
    | split

theorem State.updChan_frame {ps : List Part} {r₀ : State} {s : State} {c : Nat} {g : Chan → Chan}
    (sub : [.fch] ⊆ ps) (h₀ : Frame ps r₀ s) : Frame ps r₀ (State.updChan s c g) := by
  unfold State.updChan
  try dsimp only
  repeat' first
    | with_reducible assumption
    | with_reducible exact List.Subset.trans (by decide) sub
    | with_reducible apply State.setChan_frame
    | dsimp only
    | split

theorem State.setSpan_frame {ps : List Part} {r₀ : State} {s : State} {n : Nat} {x : Span}
    (sub : [.par] ⊆ ps) (h₀ : Frame ps r₀ s) : Frame ps r₀ (State.setSpan s n x) := by
  unfold State.setSpan
  try dsimp only
  repeat' first
    | with_reducible assumption
    | with_reducible exact List.Subset.trans (by decide) sub
    | with_reducible apply State.setPar_frame
    | dsimp only
    | split

theorem State.updSpan_frame {ps : List Part} {r₀ : State} {s : State} {n : Nat} {g : Span → Span}
    (sub : [.par] ⊆ ps) (h₀ : Frame ps r₀ s) : Frame ps r₀ (State.updSpan s n g) := by
  unfold State.updSpan
  try dsimp only
  repeat' first
    | with_reducible assumption
    | with_reducible exact List.Subset.trans (by decide) sub
    | with_reducible apply State.setSpan_frame
    | dsimp only
    | split

theorem validUp_frame {ps : List Part} {r₀ : State} {s : State} {mga n : Nat}
    (sub : [.par] ⊆ ps) (h₀ : Frame ps r₀ s) : Frame ps r₀ (validUp s mga n) := by
  unfold validUp
  try dsimp only
  repeat' first
    | with_reducible assumption
    | with_reducible exact List.Subset.trans (by decide) sub
    | with_reducible apply State.updSpan_frame
    | dsimp only
    | split

theorem validDown_frame {ps : List Part} {r₀ : State} {s : State} {mga n : Nat}
    (sub : [.par] ⊆ ps) (h₀ : Frame ps r₀ s) : Frame ps r₀ (validDown s mga n) := by
  unfold validDown
  try dsimp only
  repeat' first
    | with_reducible assumption
    | with_reducible exact List.Subset.trans (by decide) sub
    | with_reducible apply State.updSpan_frame
    | dsimp only
    | split

end Sys2Proof.Machine
end

