-- ==== Sys2Proof/Laws/MapOps.lean ====
section
/-! SUPPORT. What each operation of Machine/MapOps.lean may change. -/

-- one proof after another: many at once would each hold a thread
set_option Elab.async false

namespace Sys2Proof.Machine

open Sys2Proof

theorem State.setSpace_frame {ps : List Part} {r₀ : State} {s : State} {ns : Nat} {sp : Space}
    (sub : [.map] ⊆ ps) (h₀ : Frame ps r₀ s) : Frame ps r₀ (State.setSpace s ns sp) := by
  unfold State.setSpace
  try dsimp only
  repeat' first
    | with_reducible assumption
    | with_reducible exact List.Subset.trans (by decide) sub
    | with_reducible apply State.setMap_frame
    | dsimp only
    | split

theorem State.delta_frame {ps : List Part} {r₀ : State} {s : State} {ns lba typ : Nat} {e : Entry}
    (sub : [.map] ⊆ ps) (h₀ : Frame ps r₀ s) : Frame ps r₀ (State.delta s ns lba typ e) := by
  unfold State.delta
  try dsimp only
  repeat' first
    | with_reducible assumption
    | with_reducible exact List.Subset.trans (by decide) sub
    | with_reducible apply State.setMap_frame
    | dsimp only
    | split

theorem State.setSlot_frame {ps : List Part} {r₀ : State} {s : State} {i : Nat} {x : Slot}
    (sub : [.wbf] ⊆ ps) (h₀ : Frame ps r₀ s) : Frame ps r₀ (State.setSlot s i x) := by
  unfold State.setSlot
  try dsimp only
  repeat' first
    | with_reducible assumption
    | with_reducible exact List.Subset.trans (by decide) sub
    | with_reducible apply State.setWbf_frame
    | dsimp only
    | split

theorem State.updSlot_frame {ps : List Part} {r₀ : State} {s : State} {i : Nat} {g : Slot → Slot}
    (sub : [.wbf] ⊆ ps) (h₀ : Frame ps r₀ s) : Frame ps r₀ (State.updSlot s i g) := by
  unfold State.updSlot
  try dsimp only
  repeat' first
    | with_reducible assumption
    | with_reducible exact List.Subset.trans (by decide) sub
    | with_reducible apply State.setSlot_frame
    | dsimp only
    | split

theorem State.freeSlot_frame {ps : List Part} {r₀ : State} {s : State} {i : Nat}
    (sub : [.wbf] ⊆ ps) (h₀ : Frame ps r₀ s) : Frame ps r₀ (State.freeSlot s i) := by
  unfold State.freeSlot
  try dsimp only
  repeat' first
    | with_reducible assumption
    | with_reducible exact List.Subset.trans (by decide) sub
    | with_reducible apply State.setSlot_frame
    | with_reducible refine Frame.ite ?_ ?_
    | dsimp only
    | split

theorem State.setTarget_frame {ps : List Part} {r₀ : State} {s : State} {t : Nat} {x : Target}
    (sub : [.wbf] ⊆ ps) (h₀ : Frame ps r₀ s) : Frame ps r₀ (State.setTarget s t x) := by
  unfold State.setTarget
  try dsimp only
  repeat' first
    | with_reducible assumption
    | with_reducible exact List.Subset.trans (by decide) sub
    | with_reducible apply State.setWbf_frame
    | dsimp only
    | split

theorem State.updTarget_frame {ps : List Part} {r₀ : State} {s : State} {t : Nat} {g : Target → Target}
    (sub : [.wbf] ⊆ ps) (h₀ : Frame ps r₀ s) : Frame ps r₀ (State.updTarget s t g) := by
  unfold State.updTarget
  try dsimp only
  repeat' first
    | with_reducible assumption
    | with_reducible exact List.Subset.trans (by decide) sub
    | with_reducible apply State.setTarget_frame
    | dsimp only
    | split

theorem State.setStream_frame {ps : List Part} {r₀ : State} {s : State} {n : Nat} {x : Stream}
    (sub : [.wbf] ⊆ ps) (h₀ : Frame ps r₀ s) : Frame ps r₀ (State.setStream s n x) := by
  unfold State.setStream
  try dsimp only
  repeat' first
    | with_reducible assumption
    | with_reducible exact List.Subset.trans (by decide) sub
    | with_reducible apply State.setWbf_frame
    | dsimp only
    | split

theorem State.updStream_frame {ps : List Part} {r₀ : State} {s : State} {n : Nat} {g : Stream → Stream}
    (sub : [.wbf] ⊆ ps) (h₀ : Frame ps r₀ s) : Frame ps r₀ (State.updStream s n g) := by
  unfold State.updStream
  try dsimp only
  repeat' first
    | with_reducible assumption
    | with_reducible exact List.Subset.trans (by decide) sub
    | with_reducible apply State.setStream_frame
    | dsimp only
    | split

theorem ungroup_frame {ps : List Part} {r₀ : State} {s : State} {i : Nat}
    (sub : [.wbf] ⊆ ps) (h₀ : Frame ps r₀ s) : Frame ps r₀ (ungroup s i) := by
  unfold ungroup
  try dsimp only
  repeat' first
    | with_reducible assumption
    | with_reducible exact List.Subset.trans (by decide) sub
    | with_reducible apply State.setSlot_frame
    | with_reducible apply State.updTarget_frame
    | with_reducible refine Frame.ite ?_ ?_
    | dsimp only
    | split

theorem absorb_frame {ps : List Part} {r₀ : State} {s : State} {i : Nat}
    (sub : [.wbf, .regs] ⊆ ps) (h₀ : Frame ps r₀ s) : Frame ps r₀ (absorb s i) := by
  unfold absorb
  try dsimp only
  repeat' first
    | with_reducible assumption
    | with_reducible exact List.Subset.trans (by decide) sub
    | with_reducible apply State.bump_frame
    | with_reducible apply State.freeSlot_frame
    | with_reducible apply State.updTarget_frame
    | with_reducible refine Frame.ite ?_ ?_
    | dsimp only
    | split

theorem dropEntry_frame {ps : List Part} {r₀ : State} {s : State} {e : Entry} {n : Nat}
    (sub : [.wbf, .par, .regs] ⊆ ps) (h₀ : Frame ps r₀ s) : Frame ps r₀ (dropEntry s e n) := by
  unfold dropEntry
  try dsimp only
  split
  all_goals repeat' first
    | with_reducible assumption
    | with_reducible exact List.Subset.trans (by decide) sub
    | with_reducible apply absorb_frame
    | with_reducible apply ungroup_frame
    | with_reducible apply validDown_frame
    | with_reducible refine Frame.foldlFst (fun _ _ _ => ?_) ?_
    | with_reducible refine Frame.foldl (fun _ _ _ => ?_) ?_
    | with_reducible refine Frame.ite ?_ ?_
    | dsimp only
    | split

theorem addEntry_frame {ps : List Part} {r₀ : State} {s : State} {e : Entry} {n : Nat}
    (sub : [.par] ⊆ ps) (h₀ : Frame ps r₀ s) : Frame ps r₀ (addEntry s e n) := by
  unfold addEntry
  try dsimp only
  repeat' first
    | with_reducible assumption
    | with_reducible exact List.Subset.trans (by decide) sub
    | with_reducible apply validUp_frame
    | with_reducible refine Frame.ite ?_ ?_
    | dsimp only
    | split

theorem State.setFineUnit_frame {ps : List Part} {r₀ : State} {s : State} {f : Nat} {u : FineUnit}
    (sub : [.map] ⊆ ps) (h₀ : Frame ps r₀ s) : Frame ps r₀ (State.setFineUnit s f u) := by
  unfold State.setFineUnit
  try dsimp only
  repeat' first
    | with_reducible assumption
    | with_reducible exact List.Subset.trans (by decide) sub
    | with_reducible apply State.setMap_frame
    | dsimp only
    | split

theorem State.freeFine_frame {ps : List Part} {r₀ : State} {s : State} {f : Nat}
    (sub : [.map] ⊆ ps) (h₀ : Frame ps r₀ s) : Frame ps r₀ (State.freeFine s f) := by
  unfold State.freeFine
  try dsimp only
  repeat' first
    | with_reducible assumption
    | with_reducible exact List.Subset.trans (by decide) sub
    | with_reducible apply State.setMap_frame
    | dsimp only
    | split

theorem promote_frame {ps : List Part} {r₀ : State} {s : State} {ns u : Nat}
    (sub : [.map, .wbf, .regs] ⊆ ps) (h₀ : Frame ps r₀ s) : Frame ps r₀ (promote s ns u) := by
  unfold promote
  try dsimp only
  repeat' first
    | with_reducible assumption
    | with_reducible exact List.Subset.trans (by decide) sub
    | with_reducible apply State.bump_frame
    | with_reducible apply State.delta_frame
    | with_reducible apply State.setFineUnit_frame
    | with_reducible apply State.setMap_frame
    | with_reducible apply ungroup_frame
    | with_reducible refine Frame.ite ?_ ?_
    | dsimp only
    | split

theorem setFine_frame {ps : List Part} {r₀ : State} {s : State} {f i ns lba : Nat} {e : Entry}
    (sub : [.map, .wbf, .par, .regs] ⊆ ps) (h₀ : Frame ps r₀ s) : Frame ps r₀ (setFine s f i ns lba e) := by
  unfold setFine
  try dsimp only
  split
  all_goals repeat' first
    | with_reducible assumption
    | with_reducible exact List.Subset.trans (by decide) sub
    | with_reducible apply State.delta_frame
    | with_reducible apply State.setFineUnit_frame
    | with_reducible apply addEntry_frame
    | with_reducible apply dropEntry_frame
    | dsimp only
    | split

theorem setCoarse_frame {ps : List Part} {r₀ : State} {s : State} {ns u : Nat} {e : Entry}
    (sub : [.map, .wbf, .par, .regs] ⊆ ps) (h₀ : Frame ps r₀ s) : Frame ps r₀ (setCoarse s ns u e) := by
  unfold setCoarse
  try dsimp only
  repeat' first
    | with_reducible assumption
    | with_reducible exact List.Subset.trans (by decide) sub
    | with_reducible apply State.delta_frame
    | with_reducible apply State.freeFine_frame
    | with_reducible apply State.setMap_frame
    | with_reducible apply addEntry_frame
    | with_reducible apply dropEntry_frame
    | with_reducible refine Frame.foldlFst (fun _ _ _ => ?_) ?_
    | with_reducible refine Frame.foldl (fun _ _ _ => ?_) ?_
    | dsimp only
    | split

theorem setBlocks_frame {ps : List Part} {r₀ s : State} {ns lba : Nat} {es : List Entry} {n : Nat}
    (sub : [.map, .wbf, .par, .regs] ⊆ ps) (h : Frame ps r₀ s) : Frame ps r₀ (setBlocks s ns lba es n) := by
  induction n generalizing s lba es with
  | zero => exact h
  | succ n ih =>
    unfold setBlocks
    repeat' first
      | with_reducible assumption
      | exact List.Subset.trans (by decide) sub
      | with_reducible apply ih
      | with_reducible apply setCoarse_frame
      | with_reducible apply setFine_frame
      | with_reducible apply promote_frame
      | split

theorem bindTarget_frame {ps : List Part} {r₀ : State} {s : State} {t f : Nat}
    (sub : [.wbf] ⊆ ps) (h₀ : Frame ps r₀ s) : Frame ps r₀ (bindTarget s t f) := by
  unfold bindTarget
  try dsimp only
  repeat' first
    | with_reducible assumption
    | with_reducible exact List.Subset.trans (by decide) sub
    | with_reducible apply State.setTarget_frame
    | with_reducible apply State.setWbf_frame
    | with_reducible refine Frame.ite ?_ ?_
    | dsimp only
    | split

theorem markClose_frame {ps : List Part} {r₀ : State} {s : State} {t f : Nat} {row : Bool}
    (sub : [.wbf] ⊆ ps) (h₀ : Frame ps r₀ s) : Frame ps r₀ (markClose s t f row) := by
  unfold markClose
  try dsimp only
  repeat' first
    | with_reducible assumption
    | with_reducible exact List.Subset.trans (by decide) sub
    | with_reducible apply State.updTarget_frame
    | with_reducible refine Frame.ite ?_ ?_
    | dsimp only
    | split

theorem pushHeld_frame {ps : List Part} {r₀ : State} {s : State} {t i : Nat}
    (sub : [.wbf] ⊆ ps) (h₀ : Frame ps r₀ s) : Frame ps r₀ (pushHeld s t i) := by
  unfold pushHeld
  try dsimp only
  repeat' first
    | with_reducible assumption
    | with_reducible exact List.Subset.trans (by decide) sub
    | with_reducible apply State.updTarget_frame
    | dsimp only
    | split

theorem State.addPu_frame {ps : List Part} {r₀ : State} {s : State} {p : Pu}
    (sub : [.wbf] ⊆ ps) (h₀ : Frame ps r₀ s) : Frame ps r₀ (State.addPu s p) := by
  unfold State.addPu
  try dsimp only
  repeat' first
    | with_reducible assumption
    | with_reducible exact List.Subset.trans (by decide) sub
    | with_reducible apply State.setWbf_frame
    | dsimp only
    | split

theorem State.updPu_frame {ps : List Part} {r₀ : State} {s : State} {r : Nat} {g : Pu → Pu}
    (sub : [.wbf] ⊆ ps) (h₀ : Frame ps r₀ s) : Frame ps r₀ (State.updPu s r g) := by
  unfold State.updPu
  try dsimp only
  repeat' first
    | with_reducible assumption
    | with_reducible exact List.Subset.trans (by decide) sub
    | with_reducible apply State.setWbf_frame
    | with_reducible refine Frame.ite ?_ ?_
    | dsimp only
    | split

theorem setChunk_frame {ps : List Part} {r₀ : State} {s : State} {ns z c : Nat} {e : Entry} {lba : Nat}
    (sub : [.map] ⊆ ps) (h₀ : Frame ps r₀ s) : Frame ps r₀ (setChunk s ns z c e lba) := by
  unfold setChunk
  try dsimp only
  repeat' first
    | with_reducible assumption
    | with_reducible exact List.Subset.trans (by decide) sub
    | with_reducible apply State.delta_frame
    | with_reducible apply State.setMap_frame
    | dsimp only
    | split

theorem zoneWrite_frame {ps : List Part} {r₀ : State} {s : State} {ns : Nat} {sp : Space} {lba i : Nat}
    (sub : [.wbf, .pages] ⊆ ps) (h₀ : Frame ps r₀ s) : Frame ps r₀ (zoneWrite s ns sp lba i) := by
  unfold zoneWrite
  try dsimp only
  repeat' first
    | with_reducible assumption
    | with_reducible exact List.Subset.trans (by decide) sub
    | with_reducible apply State.addPu_frame
    | with_reducible apply State.ev_frame
    | with_reducible apply State.updPu_frame
    | with_reducible apply State.updTarget_frame
    | with_reducible apply pushHeld_frame
    | with_reducible refine Frame.ite ?_ ?_
    | dsimp only
    | split

theorem fineChunk_frame {ps : List Part} {r₀ : State} {s : State} {ns : Nat} {sp : Space} {z c : Nat}
    (sub : [.map] ⊆ ps) (h₀ : Frame ps r₀ s) : Frame ps r₀ (fineChunk s ns sp z c) := by
  unfold fineChunk
  try dsimp only
  repeat' first
    | with_reducible assumption
    | with_reducible exact List.Subset.trans (by decide) sub
    | with_reducible apply State.delta_frame
    | with_reducible apply State.setFineUnit_frame
    | with_reducible apply setChunk_frame
    | with_reducible refine Frame.foldlFst (fun _ _ _ => ?_) ?_
    | with_reducible refine Frame.foldl (fun _ _ _ => ?_) ?_
    | with_reducible refine Frame.ite ?_ ?_
    | dsimp only
    | split

theorem splitChunk_frame {ps : List Part} {r₀ : State} {s : State} {u : Pu} {ns z c : Nat} {sp : Space}
    (sub : [.map, .wbf] ⊆ ps) (h₀ : Frame ps r₀ s) : Frame ps r₀ (splitChunk s u ns z c sp) := by
  unfold splitChunk
  try dsimp only
  repeat' first
    | with_reducible assumption
    | with_reducible exact List.Subset.trans (by decide) sub
    | with_reducible apply State.setWbf_frame
    | with_reducible apply fineChunk_frame
    | with_reducible apply pushHeld_frame
    | with_reducible refine Frame.foldlFst (fun _ _ _ => ?_) ?_
    | with_reducible refine Frame.foldl (fun _ _ _ => ?_) ?_
    | with_reducible refine Frame.ite ?_ ?_
    | dsimp only
    | split

theorem setZonePart_frame {ps : List Part} {r₀ : State} {s : State} {ns : Nat} {sp : Space} {lba : Nat} {e : Entry}
    (sub : [.map, .wbf, .par, .regs] ⊆ ps) (h₀ : Frame ps r₀ s) : Frame ps r₀ (setZonePart s ns sp lba e) := by
  unfold setZonePart
  try dsimp only
  repeat' first
    | with_reducible assumption
    | with_reducible exact List.Subset.trans (by decide) sub
    | with_reducible apply fineChunk_frame
    | with_reducible apply setFine_frame
    | dsimp only
    | split

theorem landZone_frame {ps : List Part} {r₀ : State} {s : State} {ns : Nat} {sp : Space} {lba i : Nat}
    (sub : [.map, .wbf, .par, .regs] ⊆ ps) (h₀ : Frame ps r₀ s) : Frame ps r₀ (landZone s ns sp lba i) := by
  unfold landZone
  try dsimp only
  repeat' first
    | with_reducible assumption
    | with_reducible exact List.Subset.trans (by decide) sub
    | with_reducible apply setChunk_frame
    | with_reducible apply setZonePart_frame
    | with_reducible apply validUp_frame
    | dsimp only
    | split

theorem clearChunk_frame {ps : List Part} {r₀ : State} {s : State} {ns z c : Nat} {sp : Space}
    (sub : [.map, .wbf, .par, .regs] ⊆ ps) (h₀ : Frame ps r₀ s) : Frame ps r₀ (clearChunk s ns z c sp) := by
  unfold clearChunk
  try dsimp only
  repeat' first
    | with_reducible assumption
    | with_reducible exact List.Subset.trans (by decide) sub
    | with_reducible apply State.freeFine_frame
    | with_reducible apply State.freeSlot_frame
    | with_reducible apply State.setWbf_frame
    | with_reducible apply dropEntry_frame
    | with_reducible apply setChunk_frame
    | with_reducible apply validDown_frame
    | with_reducible refine Frame.foldlFst (fun _ _ _ => ?_) ?_
    | with_reducible refine Frame.foldl (fun _ _ _ => ?_) ?_
    | with_reducible refine Frame.ite ?_ ?_
    | dsimp only
    | split

theorem State.setZone_frame {ps : List Part} {r₀ : State} {s : State} {ns : Nat} {z : Nat} {zn : Zone}
    (sub : [.map] ⊆ ps) (h₀ : Frame ps r₀ s) : Frame ps r₀ (State.setZone s ns z zn) := by
  unfold State.setZone
  try dsimp only
  split
  all_goals repeat' first
    | with_reducible assumption
    | with_reducible exact List.Subset.trans (by decide) sub
    | with_reducible apply State.delta_frame
    | with_reducible apply State.setSpace_frame
    | dsimp only
    | split

theorem seqLimit_frame {ps : List Part} {r₀ : State} {s : State} {ns : Nat}
    (sub : [.map, .evl, .pages, .regs] ⊆ ps) (h₀ : Frame ps r₀ s) : Frame ps r₀ (seqLimit s ns) := by
  unfold seqLimit
  try dsimp only
  split
  all_goals repeat' first
    | with_reducible assumption
    | with_reducible exact List.Subset.trans (by decide) sub
    | with_reducible apply State.ev_frame
    | with_reducible apply State.raise_frame
    | with_reducible apply State.setSpace_frame
    | with_reducible refine Frame.ite ?_ ?_
    | dsimp only
    | split

theorem nextWseq_frame {ps : List Part} {r₀ : State} {s : State} {ns : Nat}
    (sub : [.map, .evl, .pages, .regs] ⊆ ps) (h₀ : Frame ps r₀ s) : Frame ps r₀ (nextWseq s ns).2 := by
  unfold nextWseq
  try dsimp only
  split
  all_goals repeat' first
    | with_reducible assumption
    | with_reducible exact List.Subset.trans (by decide) sub
    | with_reducible apply State.setMap_frame
    | with_reducible apply State.setSpace_frame
    | with_reducible apply seqLimit_frame
    | dsimp only
    | split

theorem nextWseq_eq_frame {ps : List Part} {r₀ : State} {s : State} {ns : Nat} {v₀ : Nat} {t : State}
    (e : (nextWseq s ns) = (v₀, t)) (sub : [.map, .evl, .pages, .regs] ⊆ ps) (h₀ : Frame ps r₀ s) : Frame ps r₀ t := by
  have k := nextWseq_frame (s := s) (ns := ns) sub h₀
  rw [e] at k
  exact k

theorem bumpSeq_frame {ps : List Part} {r₀ : State} {s : State} {ns : Nat}
    (sub : [.map, .evl, .pages, .regs] ⊆ ps) (h₀ : Frame ps r₀ s) : Frame ps r₀ (bumpSeq s ns) := by
  unfold bumpSeq
  try dsimp only
  split
  all_goals repeat' first
    | with_reducible assumption
    | with_reducible exact List.Subset.trans (by decide) sub
    | with_reducible apply State.setSpace_frame
    | with_reducible apply seqLimit_frame
    | dsimp only
    | split

theorem clearSpace_frame {ps : List Part} {r₀ : State} {s : State} {ns : Nat}
    (sub : [.map, .wbf, .par, .regs] ⊆ ps) (h₀ : Frame ps r₀ s) : Frame ps r₀ (clearSpace s ns) := by
  unfold clearSpace
  try dsimp only
  repeat' first
    | with_reducible assumption
    | with_reducible exact List.Subset.trans (by decide) sub
    | with_reducible apply State.delta_frame
    | with_reducible apply State.setMap_frame
    | with_reducible apply State.setSpace_frame
    | with_reducible apply absorb_frame
    | with_reducible apply clearChunk_frame
    | with_reducible apply setCoarse_frame
    | with_reducible apply ungroup_frame
    | with_reducible refine Frame.foldlFst (fun _ _ _ => ?_) ?_
    | with_reducible refine Frame.foldl (fun _ _ _ => ?_) ?_
    | dsimp only
    | split

theorem placePage_frame {ps : List Part} {r₀ : State} {s : State} {num mga : Nat}
    (sub : [.map, .par] ⊆ ps) (h₀ : Frame ps r₀ s) : Frame ps r₀ (placePage s num mga) := by
  unfold placePage
  try dsimp only
  repeat' first
    | with_reducible assumption
    | with_reducible exact List.Subset.trans (by decide) sub
    | with_reducible apply State.setMap_frame
    | with_reducible apply validUp_frame
    | dsimp only
    | split

theorem movePage_frame {ps : List Part} {r₀ : State} {s : State} {num old mga : Nat}
    (sub : [.map, .par] ⊆ ps) (h₀ : Frame ps r₀ s) : Frame ps r₀ (movePage s num old mga) := by
  unfold movePage
  try dsimp only
  repeat' first
    | with_reducible assumption
    | with_reducible exact List.Subset.trans (by decide) sub
    | with_reducible apply State.setPar_frame
    | with_reducible apply placePage_frame
    | with_reducible apply validDown_frame
    | with_reducible refine Frame.ite ?_ ?_
    | dsimp only
    | split

theorem State.setKeySlot_frame {ps : List Part} {r₀ : State} {s : State} {k : Nat} {x : KeySlot}
    (sub : [.key] ⊆ ps) (h₀ : Frame ps r₀ s) : Frame ps r₀ (State.setKeySlot s k x) := by
  unfold State.setKeySlot
  try dsimp only
  repeat' first
    | with_reducible assumption
    | with_reducible exact List.Subset.trans (by decide) sub
    | with_reducible apply State.setKey_frame
    | dsimp only
    | split

theorem changeKey_frame {ps : List Part} {r₀ : State} {s : State} {ns : Nat} {key : Option Nat} {source : KeySource} {owner keyId : Nat} {seq : Option Nat}
    (sub : [.key] ⊆ ps) (h₀ : Frame ps r₀ s) : Frame ps r₀ (changeKey s ns key source owner keyId seq) := by
  unfold changeKey
  try dsimp only
  repeat' first
    | with_reducible assumption
    | with_reducible exact List.Subset.trans (by decide) sub
    | with_reducible apply State.setKey_frame
    | with_reducible apply State.setKeySlot_frame
    | with_reducible refine Frame.ite ?_ ?_
    | dsimp only
    | split

theorem State.writeKeyRec_frame {ps : List Part} {r₀ : State} {s : State} {ns : Nat} {r : KeyRec} {seqs : List Nat} {dw0 : Dword}
    (sub : [.norWaits] ⊆ ps) (h₀ : Frame ps r₀ s) : Frame ps r₀ (State.writeKeyRec s ns r seqs dw0) := by
  unfold State.writeKeyRec
  try dsimp only
  repeat' first
    | with_reducible assumption
    | with_reducible exact List.Subset.trans (by decide) sub
    | with_reducible apply State.setNorWaits_frame
    | dsimp only
    | split

theorem useDrbg_frame {ps : List Part} {r₀ : State} {s : State}
    (sub : [.gate, .key] ⊆ ps) (h₀ : Frame ps r₀ s) : Frame ps r₀ (useDrbg s) := by
  unfold useDrbg
  try dsimp only
  repeat' first
    | with_reducible assumption
    | with_reducible exact List.Subset.trans (by decide) sub
    | with_reducible apply State.setKey_frame
    | with_reducible apply State.wake_frame
    | dsimp only
    | split

end Sys2Proof.Machine
end

