-- ==== Sys2Proof/Laws/Journal.lean ====
section
/-! SUPPORT. What each operation of Machine/Journal.lean may change. -/

-- one proof after another: many at once would each hold a thread
set_option Elab.async false

namespace Sys2Proof.Machine

open Sys2Proof

theorem jrec_frame {ps : List Part} {r₀ : State} {s : State} {typ stream row span serial : Nat} {body : List (Nat × Nat)}
    (sub : [.par] ⊆ ps) (h₀ : Frame ps r₀ s) : Frame ps r₀ (jrec s typ stream row span serial body) := by
  unfold jrec
  try dsimp only
  repeat' first
    | with_reducible assumption
    | with_reducible exact List.Subset.trans (by decide) sub
    | with_reducible apply State.setPar_frame
    | with_reducible refine Frame.ite ?_ ?_
    | dsimp only
    | split

theorem State.updRow_frame {ps : List Part} {r₀ : State} {s : State} {stream serial : Nat} {g : Row → Row}
    (sub : [.par] ⊆ ps) (h₀ : Frame ps r₀ s) : Frame ps r₀ (State.updRow s stream serial g) := by
  unfold State.updRow
  try dsimp only
  repeat' first
    | with_reducible assumption
    | with_reducible exact List.Subset.trans (by decide) sub
    | with_reducible apply State.setPar_frame
    | with_reducible refine Frame.ite ?_ ?_
    | dsimp only
    | split

theorem jrow_frame {ps : List Part} {r₀ : State} {s : State} {r : Row} {state : Nat}
    (sub : [.par] ⊆ ps) (h₀ : Frame ps r₀ s) : Frame ps r₀ (jrow s r state) := by
  unfold jrow
  try dsimp only
  repeat' first
    | with_reducible assumption
    | with_reducible exact List.Subset.trans (by decide) sub
    | with_reducible apply jrec_frame
    | dsimp only
    | split

theorem rowTo_frame {ps : List Part} {r₀ : State} {s : State} {stream serial state : Nat}
    (sub : [.par] ⊆ ps) (h₀ : Frame ps r₀ s) : Frame ps r₀ (rowTo s stream serial state) := by
  unfold rowTo
  try dsimp only
  split
  all_goals repeat' first
    | with_reducible assumption
    | with_reducible exact List.Subset.trans (by decide) sub
    | with_reducible apply State.updRow_frame
    | with_reducible apply jrow_frame
    | dsimp only
    | split

theorem jspan_frame {ps : List Part} {r₀ : State} {s : State} {n state : Nat}
    (sub : [.par] ⊆ ps) (h₀ : Frame ps r₀ s) : Frame ps r₀ (jspan s n state) := by
  unfold jspan
  try dsimp only
  repeat' first
    | with_reducible assumption
    | with_reducible exact List.Subset.trans (by decide) sub
    | with_reducible apply jrec_frame
    | dsimp only
    | split

theorem closeSpan_frame {ps : List Part} {r₀ : State} {s : State} {n : Nat}
    (sub : [.par] ⊆ ps) (h₀ : Frame ps r₀ s) : Frame ps r₀ (closeSpan s n) := by
  unfold closeSpan
  try dsimp only
  repeat' first
    | with_reducible assumption
    | with_reducible exact List.Subset.trans (by decide) sub
    | with_reducible apply State.updSpan_frame
    | with_reducible apply jspan_frame
    | with_reducible refine Frame.ite ?_ ?_
    | dsimp only
    | split

theorem leaveSpan_frame {ps : List Part} {r₀ : State} {s : State} {n : Nat}
    (sub : [.wbf, .par] ⊆ ps) (h₀ : Frame ps r₀ s) : Frame ps r₀ (leaveSpan s n) := by
  unfold leaveSpan
  try dsimp only
  split
  all_goals repeat' first
    | with_reducible assumption
    | with_reducible exact List.Subset.trans (by decide) sub
    | with_reducible apply State.updStream_frame
    | with_reducible apply closeSpan_frame
    | dsimp only
    | split

theorem queueRow_frame {ps : List Part} {r₀ : State} {s : State} {l : Layout} {span row : Nat}
    (sub : [.par] ⊆ ps) (h₀ : Frame ps r₀ s) : Frame ps r₀ (queueRow s l span row) := by
  unfold queueRow
  try dsimp only
  repeat' first
    | with_reducible assumption
    | with_reducible exact List.Subset.trans (by decide) sub
    | with_reducible apply State.setPar_frame
    | with_reducible refine Frame.ite ?_ ?_
    | dsimp only
    | split

theorem tryCloseRow_frame {ps : List Part} {r₀ : State} {s : State} {stream serial : Nat}
    (sub : [.wbf, .par] ⊆ ps) (h₀ : Frame ps r₀ s) : Frame ps r₀ (tryCloseRow s stream serial) := by
  unfold tryCloseRow
  try dsimp only
  split
  all_goals repeat' first
    | with_reducible assumption
    | with_reducible exact List.Subset.trans (by decide) sub
    | with_reducible apply State.setPar_frame
    | with_reducible apply State.setWbf_frame
    | with_reducible apply State.updSpan_frame
    | with_reducible apply State.updStream_frame
    | with_reducible apply closeSpan_frame
    | with_reducible apply jrow_frame
    | with_reducible apply leaveSpan_frame
    | with_reducible apply queueRow_frame
    | with_reducible refine Frame.ite ?_ ?_
    | dsimp only
    | split

theorem takeSubst_eq_frame {ps : List Part} {r₀ : State} {s : State} {l : Layout} {span c reason : Nat} {t : State}
    (e : (takeSubst s l span c reason) = some t) (sub : [.par, .rcl] ⊆ ps) (h₀ : Frame ps r₀ s) : Frame ps r₀ t := by
  unfold takeSubst at e
  try dsimp only at e
  repeat' first
    | cases e
    | split at e
  all_goals
    repeat' first
      | with_reducible assumption
      | with_reducible exact List.Subset.trans (by decide) sub
      | with_reducible apply State.setRcl_frame
      | with_reducible apply State.updSpan_frame
      | with_reducible apply jrec_frame
      | with_reducible refine Frame.ite ?_ ?_
      | dsimp only
      | split

theorem takePslc_eq_frame {ps : List Part} {r₀ : State} {s : State} {d : Nat} {v₀ : Nat} {t : State}
    (e : (takePslc s d) = some (v₀, t)) (sub : [.rcl] ⊆ ps) (h₀ : Frame ps r₀ s) : Frame ps r₀ t := by
  unfold takePslc at e
  try dsimp only at e
  repeat' first
    | cases e
    | split at e
  all_goals
    repeat' first
      | with_reducible assumption
      | with_reducible exact List.Subset.trans (by decide) sub
      | with_reducible apply State.setRcl_frame
      | dsimp only
      | split

theorem queuePslcErase_frame {ps : List Part} {r₀ : State} {s : State} {d b reason : Nat}
    (sub : [.fch] ⊆ ps) (h₀ : Frame ps r₀ s) : Frame ps r₀ (queuePslcErase s d b reason) := by
  unfold queuePslcErase
  try dsimp only
  repeat' first
    | with_reducible assumption
    | with_reducible exact List.Subset.trans (by decide) sub
    | with_reducible refine State.setFch_keep ?_ ?_ ?_
    | exact (rfl : _ = _)
    | dsimp only
    | split

theorem journalBlocks_frame {ps : List Part} {r₀ : State} {s : State} {d : Nat}
    (sub : [.fch, .rcl, .hld] ⊆ ps) (h₀ : Frame ps r₀ s) : Frame ps r₀ (journalBlocks s d).2 := by
  unfold journalBlocks
  try dsimp only
  repeat' first
    | with_reducible assumption
    | with_reducible exact List.Subset.trans (by decide) sub
    | with_reducible apply State.setHld_frame
    | with_reducible apply queuePslcErase_frame
    | with_reducible refine Frame.foldlFst (fun _ _ _ => ?_) ?_
    | with_reducible refine Frame.foldl (fun _ _ _ => ?_) ?_
    | with_reducible refine takePslc_eq_frame (by assumption) ?_ ?_
    | dsimp only
    | split

theorem journalBlocks_eq_frame {ps : List Part} {r₀ : State} {s : State} {d : Nat} {v₀ : List Nat} {t : State}
    (e : (journalBlocks s d) = (v₀, t)) (sub : [.fch, .rcl, .hld] ⊆ ps) (h₀ : Frame ps r₀ s) : Frame ps r₀ t := by
  have k := journalBlocks_frame (s := s) (d := d) sub h₀
  rw [e] at k
  exact k

theorem retireBlock_frame {ps : List Part} {r₀ : State} {s : State} {die block cause : Nat}
    (sub : [.rcl, .evl, .pages, .regs] ⊆ ps) (h₀ : Frame ps r₀ s) : Frame ps r₀ (retireBlock s die block cause) := by
  unfold retireBlock
  try dsimp only
  repeat' first
    | with_reducible assumption
    | with_reducible exact List.Subset.trans (by decide) sub
    | with_reducible apply State.bump_frame
    | with_reducible apply State.ev_frame
    | with_reducible apply State.raise_frame
    | with_reducible apply State.setRcl_frame
    | with_reducible refine Frame.ite ?_ ?_
    | dsimp only
    | split

theorem stopRebuild_frame {ps : List Part} {r₀ : State} {s : State}
    (sub : [.par, .evl, .pages, .regs] ⊆ ps) (h₀ : Frame ps r₀ s) : Frame ps r₀ (stopRebuild s) := by
  unfold stopRebuild
  try dsimp only
  repeat' first
    | with_reducible assumption
    | with_reducible exact List.Subset.trans (by decide) sub
    | with_reducible apply State.ev_frame
    | with_reducible apply State.raise_frame
    | with_reducible apply State.setPar_frame
    | with_reducible refine Frame.ite ?_ ?_
    | dsimp only
    | split

theorem retireSpan_frame {ps : List Part} {r₀ : State} {s : State} {n : Nat}
    (sub : [.par, .rcl, .evl, .pages, .regs] ⊆ ps) (h₀ : Frame ps r₀ s) : Frame ps r₀ (retireSpan s n) := by
  unfold retireSpan
  try dsimp only
  repeat' first
    | with_reducible assumption
    | with_reducible exact List.Subset.trans (by decide) sub
    | with_reducible apply State.ev_frame
    | with_reducible apply State.raise_frame
    | with_reducible apply State.setRcl_frame
    | with_reducible apply State.updSpan_frame
    | with_reducible apply jspan_frame
    | dsimp only
    | split

theorem addCredit_frame {ps : List Part} {r₀ : State} {s : State} {n : Nat}
    (sub : [.rcl] ⊆ ps) (h₀ : Frame ps r₀ s) : Frame ps r₀ (addCredit s n) := by
  unfold addCredit
  try dsimp only
  repeat' first
    | with_reducible assumption
    | with_reducible exact List.Subset.trans (by decide) sub
    | with_reducible apply State.setRcl_frame
    | with_reducible refine Frame.ite ?_ ?_
    | dsimp only
    | split

theorem handOver_frame {ps : List Part} {r₀ : State} {s : State} {n : Nat}
    (sub : [.par] ⊆ ps) (h₀ : Frame ps r₀ s) : Frame ps r₀ (handOver s n) := by
  unfold handOver
  try dsimp only
  repeat' first
    | with_reducible assumption
    | with_reducible exact List.Subset.trans (by decide) sub
    | with_reducible apply State.setPar_frame
    | with_reducible refine Frame.ite ?_ ?_
    | dsimp only
    | split

theorem breakWindow_frame {ps : List Part} {r₀ : State} {s : State}
    (sub : [.stp, .evl, .pages, .regs] ⊆ ps) (h₀ : Frame ps r₀ s) : Frame ps r₀ (breakWindow s) := by
  unfold breakWindow
  try dsimp only
  repeat' first
    | with_reducible assumption
    | with_reducible exact List.Subset.trans (by decide) sub
    | with_reducible apply State.ev_frame
    | with_reducible apply State.raise_frame
    | with_reducible apply State.setStp_frame
    | with_reducible refine Frame.ite ?_ ?_
    | dsimp only
    | split

end Sys2Proof.Machine
end

