-- ==== Sys2Proof/Laws/Buffer.lean ====
section
/-! SUPPORT. What each operation of Machine/Buffer.lean may change. -/

-- one proof after another: many at once would each hold a thread
set_option Elab.async false

namespace Sys2Proof.Machine

open Sys2Proof

theorem pushCopy_frame {ps : List Part} {r₀ : State} {s : State} {n src : Nat} {x : Info} {state : SlotState}
    (sub : [.wbf] ⊆ ps) (h₀ : Frame ps r₀ s) : Frame ps r₀ (pushCopy s n src x state) := by
  unfold pushCopy
  try dsimp only
  split
  all_goals repeat' first
    | with_reducible assumption
    | with_reducible exact List.Subset.trans (by decide) sub
    | with_reducible apply State.setSlot_frame
    | with_reducible apply pushHeld_frame
    | dsimp only
    | split

theorem pushCopyUnit_eq_frame {ps : List Part} {r₀ : State} {s : State} {n : Nat} {xs : List Info} {v₀ : Nat} {t : State}
    (e : (pushCopyUnit s n xs) = some (v₀, t)) (sub : [.wbf] ⊆ ps) (h₀ : Frame ps r₀ s) : Frame ps r₀ t := by
  unfold pushCopyUnit at e
  try dsimp only at e
  repeat' first
    | cases e
    | split at e
  all_goals
    repeat' first
      | with_reducible assumption
      | with_reducible exact List.Subset.trans (by decide) sub
      | with_reducible apply State.setSlot_frame
      | with_reducible apply pushHeld_frame
      | with_reducible refine Frame.foldlFst (fun _ _ _ => ?_) ?_
      | with_reducible refine Frame.foldl (fun _ _ _ => ?_) ?_
      | dsimp only
      | split

theorem pushCopyChunk_eq_frame {ps : List Part} {r₀ s : State} {n : Nat} {xs : List Info} {v₀ : Nat} {t : State}
    (e : pushCopyChunk s n xs = some (v₀, t)) (sub : [.wbf] ⊆ ps) (h : Frame ps r₀ s) : Frame ps r₀ t := by
  unfold pushCopyChunk at e
  split at e
  · split at e
    next u sl hp =>
      cases e
      refine State.addPu_frame sub ?_
      have k : (u, sl).1 = u := rfl
      rw [← k, ← hp]
      refine Frame.foldlFst (fun v x k => ?_) h
      dsimp only
      split
      · exact k
      · exact State.setSlot_frame sub k
  · cases e

theorem pushProxy_frame {ps : List Part} {r₀ : State} {s : State} {n : Nat} {origin : Nat × Nat × Nat} {xs : List (Option Info)}
    (sub : [.wbf] ⊆ ps) (h₀ : Frame ps r₀ s) : Frame ps r₀ (pushProxy s n origin xs) := by
  unfold pushProxy
  try dsimp only
  repeat' first
    | with_reducible assumption
    | with_reducible exact List.Subset.trans (by decide) sub
    | with_reducible apply State.addPu_frame
    | with_reducible apply State.setSlot_frame
    | with_reducible refine Frame.foldlFst (fun _ _ _ => ?_) ?_
    | with_reducible refine Frame.foldl (fun _ _ _ => ?_) ?_
    | dsimp only
    | split

theorem makeProxy_frame {ps : List Part} {r₀ : State} {s : State} {span row pos kind : Nat} {xs : List (Option Info)} {zero : BitVec 32}
    (sub : [.wbf, .par] ⊆ ps) (h₀ : Frame ps r₀ s) : Frame ps r₀ (makeProxy s span row pos kind xs zero) := by
  unfold makeProxy
  try dsimp only
  repeat' first
    | with_reducible assumption
    | with_reducible exact List.Subset.trans (by decide) sub
    | with_reducible apply State.setPar_frame
    | with_reducible apply pushProxy_frame
    | with_reducible refine Frame.foldlFst (fun _ _ _ => ?_) ?_
    | with_reducible refine Frame.foldl (fun _ _ _ => ?_) ?_
    | with_reducible refine Frame.ite ?_ ?_
    | dsimp only
    | split

theorem leaveIfSpent_frame {ps : List Part} {r₀ : State} {s : State} {n : Nat}
    (sub : [.wbf, .par] ⊆ ps) (h₀ : Frame ps r₀ s) : Frame ps r₀ (leaveIfSpent s n) := by
  unfold leaveIfSpent
  try dsimp only
  repeat' first
    | with_reducible assumption
    | with_reducible exact List.Subset.trans (by decide) sub
    | with_reducible apply leaveSpan_frame
    | with_reducible refine Frame.ite ?_ ?_
    | dsimp only
    | split

theorem openRow_frame {ps : List Part} {r₀ : State} {s : State} {l : Layout} {n sp : Nat}
    (sub : [.wbf, .par] ⊆ ps) (h₀ : Frame ps r₀ s) : Frame ps r₀ (openRow s l n sp) := by
  unfold openRow
  try dsimp only
  repeat' first
    | with_reducible assumption
    | with_reducible exact List.Subset.trans (by decide) sub
    | with_reducible apply State.setPar_frame
    | with_reducible apply State.setStream_frame
    | with_reducible apply jrec_frame
    | with_reducible apply jrow_frame
    | dsimp only
    | split

theorem rowForNext_eq_frame {ps : List Part} {r₀ : State} {s : State} {l : Layout} {n : Nat} {t : State}
    (e : (rowForNext s l n) = some t) (sub : [.wbf, .par] ⊆ ps) (h₀ : Frame ps r₀ s) : Frame ps r₀ t := by
  unfold rowForNext at e
  try dsimp only at e
  repeat' first
    | cases e
    | split at e
  all_goals
    repeat' first
      | with_reducible assumption
      | with_reducible exact List.Subset.trans (by decide) sub
      | with_reducible apply openRow_frame
      | with_reducible refine Frame.ite ?_ ?_
      | dsimp only
      | split

theorem flushRows_frame {ps : List Part} {r₀ : State} {s : State} {slots : List Nat} {stream serial : Nat}
    (sub : [.qmx] ⊆ ps) (h₀ : Frame ps r₀ s) : Frame ps r₀ (flushRows s slots stream serial) := by
  unfold flushRows
  try dsimp only
  repeat' first
    | with_reducible assumption
    | with_reducible exact List.Subset.trans (by decide) sub
    | with_reducible apply State.setQmx_frame
    | with_reducible refine Frame.ite ?_ ?_
    | dsimp only
    | split

theorem assemble_frame {ps : List Part} {r₀ : State} {s : State} {u : Pu}
    (sub : [.wbf, .rcl, .regs] ⊆ ps) (h₀ : Frame ps r₀ s) : Frame ps r₀ (assemble s u) := by
  unfold assemble
  try dsimp only
  repeat' first
    | with_reducible assumption
    | with_reducible exact List.Subset.trans (by decide) sub
    | with_reducible apply State.addPu_frame
    | with_reducible apply State.bump_frame
    | with_reducible apply State.setRcl_frame
    | with_reducible apply State.updSlot_frame
    | with_reducible refine Frame.foldlFst (fun _ _ _ => ?_) ?_
    | with_reducible refine Frame.foldl (fun _ _ _ => ?_) ?_
    | with_reducible refine Frame.ite ?_ ?_
    | dsimp only
    | split

theorem enterRow_frame {ps : List Part} {r₀ : State} {s : State} {l : Layout} {u : Pu}
    (sub : [.qmx, .wbf] ⊆ ps) (h₀ : Frame ps r₀ s) : Frame ps r₀ (enterRow s l u) := by
  unfold enterRow
  try dsimp only
  repeat' first
    | with_reducible assumption
    | with_reducible exact List.Subset.trans (by decide) sub
    | with_reducible apply State.setStream_frame
    | with_reducible apply State.setWbf_frame
    | with_reducible apply State.updSlot_frame
    | with_reducible apply flushRows_frame
    | with_reducible refine Frame.foldlFst (fun _ _ _ => ?_) ?_
    | with_reducible refine Frame.foldl (fun _ _ _ => ?_) ?_
    | with_reducible refine Frame.ite ?_ ?_
    | dsimp only
    | split

theorem assemblePad_frame {ps : List Part} {r₀ : State} {s : State} {l : Layout} {n f : Nat}
    (sub : [.qmx, .wbf, .rcl, .pages, .regs] ⊆ ps) (h₀ : Frame ps r₀ s) : Frame ps r₀ (assemblePad s l n f) := by
  unfold assemblePad
  try dsimp only
  split
  all_goals repeat' first
    | with_reducible assumption
    | with_reducible exact List.Subset.trans (by decide) sub
    | with_reducible apply State.ev_frame
    | with_reducible apply assemble_frame
    | with_reducible apply enterRow_frame
    | dsimp only
    | split

theorem enterRows_frame {ps : List Part} {r₀ s : State} {l : Layout} {n fuel : Nat}
    (sub : [.qmx, .wbf, .par, .rcl, .pages, .regs] ⊆ ps) (h : Frame ps r₀ s) : Frame ps r₀ (enterRows s l n fuel) := by
  induction fuel generalizing s with
  | zero => exact h
  | succ k ih =>
    unfold enterRows
    repeat' first
      | with_reducible assumption
      | with_reducible exact List.Subset.trans (by decide) sub
      | with_reducible apply ih
      | with_reducible apply enterRow_frame
      | with_reducible apply assemblePad_frame
      | with_reducible apply State.ev_frame
      | with_reducible refine rowForNext_eq_frame (by assumption) ?_ ?_
      | split

theorem afterClose_frame {ps : List Part} {r₀ : State} {s : State} {t rec : Nat}
    (sub : [.wbf] ⊆ ps) (h₀ : Frame ps r₀ s) : Frame ps r₀ (afterClose s t rec) := by
  unfold afterClose
  try dsimp only
  repeat' first
    | with_reducible assumption
    | with_reducible exact List.Subset.trans (by decide) sub
    | with_reducible apply State.setTarget_frame
    | with_reducible apply State.updPu_frame
    | with_reducible refine Frame.ite ?_ ?_
    | dsimp only
    | split

theorem assembleOpen_frame {ps : List Part} {r₀ : State} {s : State} {u : Pu}
    (sub : [.wbf, .rcl, .pages, .regs] ⊆ ps) (h₀ : Frame ps r₀ s) : Frame ps r₀ (assembleOpen s u) := by
  unfold assembleOpen
  try dsimp only
  split
  all_goals repeat' first
    | with_reducible assumption
    | with_reducible exact List.Subset.trans (by decide) sub
    | with_reducible apply State.ev_frame
    | with_reducible apply State.setWbf_frame
    | with_reducible apply afterClose_frame
    | with_reducible apply assemble_frame
    | with_reducible refine Frame.ite ?_ ?_
    | dsimp only
    | split

theorem assembleHeld_frame {ps : List Part} {r₀ : State} {s : State} {n t : Nat}
    (sub : [.wbf, .rcl, .pages, .regs] ⊆ ps) (h₀ : Frame ps r₀ s) : Frame ps r₀ (assembleHeld s n t) := by
  unfold assembleHeld
  try dsimp only
  repeat' first
    | with_reducible assumption
    | with_reducible exact List.Subset.trans (by decide) sub
    | with_reducible apply State.ev_frame
    | with_reducible apply State.setTarget_frame
    | with_reducible apply afterClose_frame
    | with_reducible apply assemble_frame
    | with_reducible refine Frame.ite ?_ ?_
    | dsimp only
    | split

theorem splitOpen_frame {ps : List Part} {r₀ : State} {s : State} {u : Pu}
    (sub : [.map, .wbf] ⊆ ps) (h₀ : Frame ps r₀ s) : Frame ps r₀ (splitOpen s u) := by
  unfold splitOpen
  try dsimp only
  split
  all_goals repeat' first
    | with_reducible assumption
    | with_reducible exact List.Subset.trans (by decide) sub
    | with_reducible apply splitChunk_frame
    | dsimp only
    | split

theorem execProgramUnitAssembly_frame {ps : List Part} {r₀ : State} {t : Nat} {s : State}
    (sub : [.qmx, .map, .wbf, .par, .rcl, .pages, .regs] ⊆ ps) (h₀ : Frame ps r₀ s) :
    ∃ z, execProgramUnitAssembly t s = .next z ∧ Frame ps r₀ z := by
  refine ⟨_, rfl, ?_⟩
  try dsimp only
  repeat' first
    | with_reducible assumption
    | with_reducible exact List.Subset.trans (by decide) sub
    | with_reducible apply assembleHeld_frame
    | with_reducible apply assembleOpen_frame
    | with_reducible apply assemblePad_frame
    | with_reducible apply enterRows_frame
    | with_reducible apply splitOpen_frame
    | with_reducible refine Frame.ite ?_ ?_
    | dsimp only
    | split

theorem takeSpare_eq_frame {ps : List Part} {r₀ : State} {s : State} {l : Layout} {die : Nat} {v₀ : Nat} {t : State}
    (e : (takeSpare s l die) = some (v₀, t)) (sub : [.rcl] ⊆ ps) (h₀ : Frame ps r₀ s) : Frame ps r₀ t := by
  unfold takeSpare at e
  try dsimp only at e
  repeat' first
    | cases e
    | split at e
  all_goals
    repeat' first
      | with_reducible assumption
      | with_reducible exact List.Subset.trans (by decide) sub
      | with_reducible apply State.setRcl_frame
      | dsimp only
      | split

theorem formSpare_eq_frame {ps : List Part} {r₀ s : State} {l : Layout} {n : Nat} {dies : List Nat} {t : State}
    (e : formSpare s l n dies = some t) (sub : [.par, .rcl] ⊆ ps) (h : Frame ps r₀ s) : Frame ps r₀ t := by
  unfold formSpare at e
  dsimp only at e
  obtain ⟨x, hx, rfl⟩ := Option.map_eq_some_iff.1 e
  refine State.updSpan_frame (List.Subset.trans (by decide) sub) ?_
  have k : ∀ (ds : List Nat) (a : Option (State × List (Nat × Nat))) (y : State × List (Nat × Nat)),
      (∀ u, a = some u → Frame ps r₀ u.1) → ds.foldl (fun (a : Option (State × List (Nat × Nat))) d => match a with
        | none => none
        | some (s, ms) =>
          let pick := if (s.die d).service ∧ !(freeSpares s l d).isEmpty then some d
            else leastBy ((s.fch.dies.filter fun p => p.2.service && p.2.phaseClass == (s.die d).phaseClass &&
              !(freeSpares s l p.1).isEmpty && !(ms.any fun m => m.1 == p.1)).map Prod.fst)
              fun e => 65536 - (freeSpares s l e).length
          match pick with
          | none => none
          | some e => match takeSpare s l e with
            | none => none
            | some (b, s) => some (s, ms ++ [(e, b)])) a = some y → Frame ps r₀ y.1 := by
    intro ds
    induction ds with
    | nil => exact fun a y ha e => ha y e
    | cons d ds ih =>
      refine fun a y ha e => ih _ y (fun u hu => ?_) e
      dsimp only at hu
      split at hu
      · cases hu
      · split at hu
        · cases hu
        · split at hu
          · cases hu
          · next q => cases hu; exact takeSpare_eq_frame q (List.Subset.trans (by decide) sub) (ha _ rfl)
  exact k dies _ x (fun u hu => by cases hu; exact h) hx

theorem nextSpare_eq_frame {ps : List Part} {r₀ s : State} {l : Layout} {a : Nat} {t : State}
    (e : nextSpare s l = some (a, t)) (sub : [.par, .rcl] ⊆ ps) (h : Frame ps r₀ s) : Frame ps r₀ t := by
  unfold nextSpare at e
  dsimp only at e
  split at e
  · cases e
  · obtain ⟨x, hx, q⟩ := Option.map_eq_some_iff.1 e
    cases q
    exact formSpare_eq_frame hx sub h

theorem fixMembers_eq_frame {ps : List Part} {r₀ s : State} {l : Layout} {n : Nat} {t : State}
    (e : fixMembers s l n = some t) (sub : [.par, .rcl] ⊆ ps) (h : Frame ps r₀ s) : Frame ps r₀ t := by
  unfold fixMembers at e
  refine Frame.foldlSome ?_ e fun u hu => by cases hu; exact h
  intro a x t ha ht
  split at ht
  · cases ht
  · exact takeSubst_eq_frame ht sub (ha _ rfl)

theorem beginSpan_frame {ps : List Part} {r₀ : State} {s : State} {n sp : Nat}
    (sub : [.wbf, .par] ⊆ ps) (h₀ : Frame ps r₀ s) : Frame ps r₀ (beginSpan s n sp) := by
  unfold beginSpan
  try dsimp only
  repeat' first
    | with_reducible assumption
    | with_reducible exact List.Subset.trans (by decide) sub
    | with_reducible apply State.updSpan_frame
    | with_reducible apply State.updStream_frame
    | with_reducible apply jspan_frame
    | dsimp only
    | split

theorem execSpanAllocate_frame {ps : List Part} {r₀ : State} {n : Nat} {s : State}
    (sub : [.qmx, .wbf, .par, .rcl, .evl, .pages, .regs] ⊆ ps) (h₀ : Frame ps r₀ s) :
    ∃ z, execSpanAllocate n s = .next z ∧ Frame ps r₀ z := by
  refine ⟨_, rfl, ?_⟩
  try dsimp only
  repeat' first
    | with_reducible assumption
    | with_reducible exact List.Subset.trans (by decide) sub
    | with_reducible apply beginSpan_frame
    | with_reducible apply enterRows_frame
    | with_reducible apply leaveIfSpent_frame
    | with_reducible apply retireSpan_frame
    | with_reducible apply stopRebuild_frame
    | with_reducible refine Frame.ite ?_ ?_
    | with_reducible refine fixMembers_eq_frame (by assumption) ?_ ?_
    | with_reducible refine nextSpare_eq_frame (by assumption) ?_ ?_
    | dsimp only
    | split

theorem State.updPuAt_frame {ps : List Part} {r₀ : State} {s : State} {stream serial member : Nat} {g : Pu → Pu}
    (sub : [.wbf] ⊆ ps) (h₀ : Frame ps r₀ s) : Frame ps r₀ (State.updPuAt s stream serial member g) := by
  unfold State.updPuAt
  try dsimp only
  repeat' first
    | with_reducible assumption
    | with_reducible exact List.Subset.trans (by decide) sub
    | with_reducible apply State.setWbf_frame
    | with_reducible refine Frame.ite ?_ ?_
    | dsimp only
    | split

theorem stage_frame {ps : List Part} {r₀ : State} {s : State} {stream serial member p : Nat} {x : Info}
    (sub : [.staged] ⊆ ps) (h₀ : Frame ps r₀ s) : Frame ps r₀ (stage s stream serial member p x) := by
  unfold stage
  try dsimp only
  repeat' first
    | with_reducible assumption
    | with_reducible exact List.Subset.trans (by decide) sub
    | with_reducible apply State.setStaged_frame
    | dsimp only
    | split

theorem parityOut_frame {ps : List Part} {r₀ : State} {s : State} {l : Layout} {n : Nat}
    (sub : [.wbf, .par] ⊆ ps) (h₀ : Frame ps r₀ s) : Frame ps r₀ (parityOut s l n) := by
  unfold parityOut
  try dsimp only
  repeat' first
    | with_reducible assumption
    | with_reducible exact List.Subset.trans (by decide) sub
    | with_reducible apply State.addPu_frame
    | with_reducible apply State.setStream_frame
    | with_reducible apply makeProxy_frame
    | with_reducible apply rowTo_frame
    | with_reducible refine Frame.ite ?_ ?_
    | dsimp only
    | split

theorem parityProg_frame {ps : List Part} {r₀ : State} {s : State} {n serial : Nat}
    (sub : [.qmx, .wbf, .par, .rcl, .pages, .regs] ⊆ ps) (h₀ : Frame ps r₀ s) : Frame ps r₀ (parityProg s n serial) := by
  unfold parityProg
  try dsimp only
  repeat' first
    | with_reducible assumption
    | with_reducible exact List.Subset.trans (by decide) sub
    | with_reducible apply State.setStream_frame
    | with_reducible apply enterRows_frame
    | with_reducible apply leaveIfSpent_frame
    | with_reducible apply rowTo_frame
    | with_reducible apply tryCloseRow_frame
    | with_reducible refine Frame.ite ?_ ?_
    | dsimp only
    | split

theorem fabricFailed_frame {ps : List Part} {r₀ : State} {s : State}
    (sub : [.evl, .pages, .regs] ⊆ ps) (h₀ : Frame ps r₀ s) : Frame ps r₀ (fabricFailed s) := by
  unfold fabricFailed
  try dsimp only
  repeat' first
    | with_reducible assumption
    | with_reducible exact List.Subset.trans (by decide) sub
    | with_reducible apply State.bump_frame
    | with_reducible apply State.ev_frame
    | with_reducible apply State.raise_frame
    | with_reducible apply State.wr_frame
    | dsimp only
    | split

theorem encodeMismatch_frame {ps : List Part} {r₀ : State} {s : State} {u : Pu}
    (sub : [.evl, .pages, .regs] ⊆ ps) (h₀ : Frame ps r₀ s) : Frame ps r₀ (encodeMismatch s u) := by
  unfold encodeMismatch
  try dsimp only
  repeat' first
    | with_reducible assumption
    | with_reducible exact List.Subset.trans (by decide) sub
    | with_reducible apply State.bump_frame
    | with_reducible apply State.ev_frame
    | with_reducible apply State.raise_frame
    | with_reducible apply fabricFailed_frame
    | with_reducible refine Frame.ite ?_ ?_
    | dsimp only
    | split

theorem execCodewordEncode_frame {ps : List Part} {r₀ : State} {stream serial member : Nat} {crcBad : Bool} {s : State}
    (sub : [.qmx, .wbf, .par, .rcl, .staged, .evl, .pages, .regs] ⊆ ps) (h₀ : Frame ps r₀ s) :
    ∃ z, execCodewordEncode stream serial member crcBad s = .next z ∧ Frame ps r₀ z := by
  refine ⟨_, rfl, ?_⟩
  try dsimp only
  split
  all_goals repeat' first
    | with_reducible assumption
    | with_reducible exact List.Subset.trans (by decide) sub
    | with_reducible apply State.bump_frame
    | with_reducible apply State.setStream_frame
    | with_reducible apply State.updPuAt_frame
    | with_reducible apply encodeMismatch_frame
    | with_reducible apply parityOut_frame
    | with_reducible apply parityProg_frame
    | with_reducible apply stage_frame
    | with_reducible refine Frame.ite ?_ ?_
    | dsimp only
    | split

theorem swapFine_frame {ps : List Part} {r₀ : State} {s : State} {f i ns lba slot m : Nat}
    (sub : [.map, .wbf, .par, .regs] ⊆ ps) (h₀ : Frame ps r₀ s) : Frame ps r₀ (swapFine s f i ns lba slot m) := by
  unfold swapFine
  try dsimp only
  repeat' first
    | with_reducible assumption
    | with_reducible exact List.Subset.trans (by decide) sub
    | with_reducible apply setFine_frame
    | with_reducible refine Frame.ite ?_ ?_
    | dsimp only
    | split

theorem swapHost_frame {ps : List Part} {r₀ : State} {s : State} {i m : Nat}
    (sub : [.map, .wbf, .par, .regs] ⊆ ps) (h₀ : Frame ps r₀ s) : Frame ps r₀ (swapHost s i m) := by
  unfold swapHost
  try dsimp only
  repeat' first
    | with_reducible assumption
    | with_reducible exact List.Subset.trans (by decide) sub
    | with_reducible apply setCoarse_frame
    | with_reducible apply swapFine_frame
    | with_reducible refine Frame.ite ?_ ?_
    | dsimp only
    | split

theorem swapMga_frame {ps : List Part} {r₀ : State} {s : State} {ns lba old : Nat} {e : Entry}
    (sub : [.map, .wbf, .par, .regs] ⊆ ps) (h₀ : Frame ps r₀ s) : Frame ps r₀ (swapMga s ns lba old e) := by
  unfold swapMga
  try dsimp only
  repeat' first
    | with_reducible assumption
    | with_reducible exact List.Subset.trans (by decide) sub
    | with_reducible apply setBlocks_frame
    | with_reducible apply setZonePart_frame
    | with_reducible refine Frame.ite ?_ ?_
    | dsimp only
    | split

theorem swapCopy_frame {ps : List Part} {r₀ : State} {s : State} {x : Slot} {m : Nat}
    (sub : [.map, .wbf, .par, .regs] ⊆ ps) (h₀ : Frame ps r₀ s) : Frame ps r₀ (swapCopy s x m) := by
  unfold swapCopy
  try dsimp only
  split
  all_goals repeat' first
    | with_reducible assumption
    | with_reducible exact List.Subset.trans (by decide) sub
    | with_reducible apply setCoarse_frame
    | with_reducible apply swapMga_frame
    | with_reducible refine Frame.ite ?_ ?_
    | dsimp only
    | split

theorem demoteCommit_frame {ps : List Part} {r₀ : State} {s : State} {d : Demote} {m : Nat}
    (sub : [.map, .wbf, .par, .regs] ⊆ ps) (h₀ : Frame ps r₀ s) : Frame ps r₀ (demoteCommit s d m) := by
  unfold demoteCommit
  try dsimp only
  repeat' first
    | with_reducible assumption
    | with_reducible exact List.Subset.trans (by decide) sub
    | with_reducible apply State.bump_frame
    | with_reducible apply State.delta_frame
    | with_reducible apply State.freeFine_frame
    | with_reducible apply State.setMap_frame
    | with_reducible apply setChunk_frame
    | with_reducible apply setCoarse_frame
    | with_reducible apply validDown_frame
    | with_reducible apply validUp_frame
    | with_reducible refine Frame.foldlFst (fun _ _ _ => ?_) ?_
    | with_reducible refine Frame.foldl (fun _ _ _ => ?_) ?_
    | with_reducible refine Frame.ite ?_ ?_
    | dsimp only
    | split

theorem programmed_frame {ps : List Part} {r₀ : State} {s : State} {i m : Nat}
    (sub : [.wbf] ⊆ ps) (h₀ : Frame ps r₀ s) : Frame ps r₀ (programmed s i m) := by
  unfold programmed
  try dsimp only
  repeat' first
    | with_reducible assumption
    | with_reducible exact List.Subset.trans (by decide) sub
    | with_reducible apply State.freeSlot_frame
    | with_reducible apply State.setSlot_frame
    | with_reducible refine Frame.ite ?_ ?_
    | dsimp only
    | split

theorem rowRebuilt_frame {ps : List Part} {r₀ : State} {s : State} {span row : Nat}
    (sub : [.par] ⊆ ps) (h₀ : Frame ps r₀ s) : Frame ps r₀ (rowRebuilt s span row) := by
  unfold rowRebuilt
  try dsimp only
  split
  all_goals repeat' first
    | with_reducible assumption
    | with_reducible exact List.Subset.trans (by decide) sub
    | with_reducible apply State.setPar_frame
    | with_reducible refine Frame.ite ?_ ?_
    | dsimp only
    | split

theorem proxyCommit_frame {ps : List Part} {r₀ : State} {s : State} {u : Pu} {o : Nat × Nat × Nat}
    (sub : [.map, .wbf, .par, .regs] ⊆ ps) (h₀ : Frame ps r₀ s) : Frame ps r₀ (proxyCommit s u o) := by
  unfold proxyCommit
  try dsimp only
  split
  all_goals repeat' first
    | with_reducible assumption
    | with_reducible exact List.Subset.trans (by decide) sub
    | with_reducible apply State.setPar_frame
    | with_reducible apply jrec_frame
    | with_reducible apply rowRebuilt_frame
    | with_reducible apply swapMga_frame
    | with_reducible apply tryCloseRow_frame
    | with_reducible refine Frame.foldlFst (fun _ _ _ => ?_) ?_
    | with_reducible refine Frame.foldl (fun _ _ _ => ?_) ?_
    | with_reducible refine Frame.ite ?_ ?_
    | dsimp only
    | split

theorem chunkDone_frame {ps : List Part} {r₀ : State} {s : State} {u : Pu}
    (sub : [.map, .par] ⊆ ps) (h₀ : Frame ps r₀ s) : Frame ps r₀ (chunkDone s u) := by
  unfold chunkDone
  try dsimp only
  split
  all_goals repeat' first
    | with_reducible assumption
    | with_reducible exact List.Subset.trans (by decide) sub
    | with_reducible apply setChunk_frame
    | with_reducible apply validUp_frame
    | with_reducible refine Frame.ite ?_ ?_
    | dsimp only
    | split

theorem granuleDone_frame {ps : List Part} {r₀ : State} {u : Pu} {s : State} {g : Nat × Nat}
    (sub : [.map, .wbf, .par, .regs] ⊆ ps) (h₀ : Frame ps r₀ s) : Frame ps r₀ (granuleDone u s g) := by
  unfold granuleDone
  try dsimp only
  repeat' first
    | with_reducible assumption
    | with_reducible exact List.Subset.trans (by decide) sub
    | with_reducible apply demoteCommit_frame
    | with_reducible apply movePage_frame
    | with_reducible apply placePage_frame
    | with_reducible apply swapCopy_frame
    | with_reducible apply swapHost_frame
    | with_reducible refine Frame.ite ?_ ?_
    | dsimp only
    | split

theorem puDone_frame {ps : List Part} {r₀ s : State} {u : Pu}
    (sub : [.fns, .map, .wbf, .par, .rcl, .staged, .regs] ⊆ ps) (h : Frame ps r₀ s) : Frame ps r₀ (puDone s u) := by
  unfold puDone
  split
  · extract_lets s1 s2 s3 s4 gs s5 s6 s7 s8 n put s9 rc s10
    have h1 : Frame ps r₀ s1 := Frame.stagedSet (sub (by decide)) h
    clear_value s1
    have h2 : Frame ps r₀ s2 := State.updPuAt_frame (List.Subset.trans (by decide) sub) h1
    clear_value s2
    have h3 : Frame ps r₀ s3 := State.updRow_frame (List.Subset.trans (by decide) sub) h2
    clear_value s3
    have h4 : Frame ps r₀ s4 := Frame.ite (State.updSpan_frame (List.Subset.trans (by decide) sub) h3) h3
    clear_value s4
    have h5 : Frame ps r₀ s5 := chunkDone_frame (List.Subset.trans (by decide) sub) h4
    clear_value s5
    have h6 : Frame ps r₀ s6 := by
      dsimp only [s6]
      split
      · exact proxyCommit_frame (List.Subset.trans (by decide) sub) h5
      · exact h5
    clear_value s6
    have h7 : Frame ps r₀ s7 :=
      Frame.foldl (fun _ _ k => granuleDone_frame (List.Subset.trans (by decide) sub) k) h6
    clear_value s7
    have h8 : Frame ps r₀ s8 :=
      Frame.foldl (fun _ _ k => programmed_frame (List.Subset.trans (by decide) sub) k) h7
    clear_value s8
    have h9 : Frame ps r₀ s9 := by
      dsimp only [s9, put]
      exact Frame.ite (Frame.ite (State.meter_frame (List.Subset.trans (by decide) sub)
        (State.meter_frame (List.Subset.trans (by decide) sub) h8)) h8) h8
    clear_value s9
    have h10 : Frame ps r₀ s10 :=
      Frame.ite h9 (Frame.ite (State.setRcl_frame (List.Subset.trans (by decide) sub) h9)
        (Frame.ite (State.setRcl_frame (List.Subset.trans (by decide) sub) h9) h9))
    exact tryCloseRow_frame (List.Subset.trans (by decide) sub) h10
  · exact h

theorem requeue_frame {ps : List Part} {r₀ : State} {s : State} {u : Pu}
    (sub : [.wbf] ⊆ ps) (h₀ : Frame ps r₀ s) : Frame ps r₀ (requeue s u) := by
  unfold requeue
  try dsimp only
  repeat' first
    | with_reducible assumption
    | with_reducible exact List.Subset.trans (by decide) sub
    | with_reducible apply State.setWbf_frame
    | dsimp only
    | split

theorem parityLost_frame {ps : List Part} {r₀ : State} {s : State} {u : Pu} {span row c : Nat} {staged : List Staged}
    (sub : [.wbf, .par] ⊆ ps) (h₀ : Frame ps r₀ s) : Frame ps r₀ (parityLost s u span row c staged) := by
  unfold parityLost
  try dsimp only
  repeat' first
    | with_reducible assumption
    | with_reducible exact List.Subset.trans (by decide) sub
    | with_reducible apply makeProxy_frame
    | with_reducible refine Frame.ite ?_ ?_
    | dsimp only
    | split

theorem dataLost_frame {ps : List Part} {r₀ : State} {s : State} {u : Pu}
    (sub : [.qmx, .wbf] ⊆ ps) (h₀ : Frame ps r₀ s) : Frame ps r₀ (dataLost s u) := by
  unfold dataLost
  try dsimp only
  repeat' first
    | with_reducible assumption
    | with_reducible exact List.Subset.trans (by decide) sub
    | with_reducible apply State.setQmx_frame
    | with_reducible apply State.updStream_frame
    | with_reducible apply requeue_frame
    | with_reducible refine Frame.ite ?_ ?_
    | dsimp only
    | split

theorem puFailed_frame {ps : List Part} {r₀ s : State} {u : Pu} {cause : Nat} {retire : Bool}
    (sub : [.qmx, .wbf, .par, .rcl, .staged, .evl, .pages, .regs] ⊆ ps) (h : Frame ps r₀ s) : Frame ps r₀ (puFailed s u cause retire) := by
  unfold puFailed
  split
  · extract_lets c s1 s2 b s3 st s4 q s5 s6 s7 s8 s9 s10
    have h1 : Frame ps r₀ s1 := State.updRow_frame (List.Subset.trans (by decide) sub) h
    clear_value s1
    have h2 : Frame ps r₀ s2 := by
      dsimp only [s2]
      split
      · exact jrow_frame (List.Subset.trans (by decide) sub) h1
      · exact h1
    clear_value s2
    have h3 : Frame ps r₀ s3 := Frame.ite (retireBlock_frame (List.Subset.trans (by decide) sub) h2) h2
    clear_value s3
    have h4 : Frame ps r₀ s4 := Frame.stagedSet (sub (by decide)) h3
    clear_value s4
    have h5 : Frame ps r₀ s5 := State.setWbf_frame (List.Subset.trans (by decide) sub) h4
    clear_value s5
    have h6 : Frame ps r₀ s6 := Frame.ite (parityLost_frame (List.Subset.trans (by decide) sub) h5)
      (dataLost_frame (List.Subset.trans (by decide) sub) h5)
    clear_value s6
    have h7 : Frame ps r₀ s7 := Frame.ite (State.updStream_frame (List.Subset.trans (by decide) sub) h6) h6
    clear_value s7
    have h8 : Frame ps r₀ s8 := State.raise_frame (List.Subset.trans (by decide) sub)
      (State.ev_frame (List.Subset.trans (by decide) sub) (State.bump_frame (List.Subset.trans (by decide) sub) h7))
    clear_value s8
    have h9 : Frame ps r₀ s9 := handOver_frame (List.Subset.trans (by decide) sub) h8
    clear_value s9
    have h10 : Frame ps r₀ s10 := Frame.ite (parityOut_frame (List.Subset.trans (by decide) sub) h9) h9
    exact tryCloseRow_frame (List.Subset.trans (by decide) sub)
      (parityProg_frame (List.Subset.trans (by decide) sub) h10)
  · exact h

theorem execIdleClosure_frame {ps : List Part} {r₀ : State} {t : Nat} {s : State}
    (sub : [.wbf, .regs] ⊆ ps) (h₀ : Frame ps r₀ s) :
    ∃ z, execIdleClosure t s = .next z ∧ Frame ps r₀ z := by
  refine ⟨_, rfl, ?_⟩
  try dsimp only
  repeat' first
    | with_reducible assumption
    | with_reducible exact List.Subset.trans (by decide) sub
    | with_reducible apply State.bump_frame
    | with_reducible apply markClose_frame
    | with_reducible refine Frame.ite ?_ ?_
    | dsimp only
    | split

theorem execCeilingChange_frame {ps : List Part} {r₀ : State} {s : State}
    (sub : [.wbf, .evl, .pages, .regs] ⊆ ps) (h₀ : Frame ps r₀ s) :
    ∃ z, execCeilingChange s = .next z ∧ Frame ps r₀ z := by
  refine ⟨_, rfl, ?_⟩
  try dsimp only
  split
  all_goals repeat' first
    | with_reducible assumption
    | with_reducible exact List.Subset.trans (by decide) sub
    | with_reducible apply State.ev_frame
    | with_reducible apply State.raise_frame
    | with_reducible apply State.setWbf_frame
    | with_reducible refine Frame.ite ?_ ?_
    | dsimp only
    | split

theorem closeAll_frame {ps : List Part} {r₀ : State} {s : State}
    (sub : [.wbf] ⊆ ps) (h₀ : Frame ps r₀ s) : Frame ps r₀ (closeAll s) := by
  unfold closeAll
  try dsimp only
  repeat' first
    | with_reducible assumption
    | with_reducible exact List.Subset.trans (by decide) sub
    | with_reducible apply markClose_frame
    | with_reducible refine Frame.foldlFst (fun _ _ _ => ?_) ?_
    | with_reducible refine Frame.foldl (fun _ _ _ => ?_) ?_
    | dsimp only
    | split

theorem execWriteThroughEnter_frame {ps : List Part} {r₀ : State} {s : State}
    (sub : [.qmx, .fns, .wbf, .pages] ⊆ ps) (h₀ : Frame ps r₀ s) :
    ∃ z, execWriteThroughEnter s = .next z ∧ Frame ps r₀ z := by
  refine ⟨_, rfl, ?_⟩
  try dsimp only
  repeat' first
    | with_reducible assumption
    | with_reducible exact List.Subset.trans (by decide) sub
    | with_reducible apply State.ev_frame
    | with_reducible apply State.setFns_frame
    | with_reducible apply State.setQmx_frame
    | with_reducible apply closeAll_frame
    | with_reducible refine Frame.ite ?_ ?_
    | dsimp only
    | split

theorem execWriteThroughExit_frame {ps : List Part} {r₀ : State} {s : State}
    (sub : [.qmx, .pages] ⊆ ps) (h₀ : Frame ps r₀ s) :
    ∃ z, execWriteThroughExit s = .next z ∧ Frame ps r₀ z := by
  refine ⟨_, rfl, ?_⟩
  try dsimp only
  repeat' first
    | with_reducible assumption
    | with_reducible exact List.Subset.trans (by decide) sub
    | with_reducible apply State.ev_frame
    | with_reducible apply State.setQmx_frame
    | with_reducible refine Frame.ite ?_ ?_
    | dsimp only
    | split

end Sys2Proof.Machine
end

