-- ==== Sys2Proof/Laws/Engines.lean ====
section
/-! SUPPORT. What each operation of Machine/Engines.lean may change. -/

-- one proof after another: many at once would each hold a thread
set_option Elab.async false

namespace Sys2Proof.Machine

open Sys2Proof

theorem State.setEngs_frame {ps : List Part} {r₀ : State} {s : State} {l : List EngJob}
    (sub : [.stp] ⊆ ps) (h₀ : Frame ps r₀ s) : Frame ps r₀ (State.setEngs s l) := by
  unfold State.setEngs
  try dsimp only
  repeat' first
    | with_reducible assumption
    | with_reducible exact List.Subset.trans (by decide) sub
    | with_reducible apply State.setStp_frame
    | dsimp only
    | split

theorem State.updEng_frame {ps : List Part} {r₀ : State} {s : State} {id : Nat} {g : EngJob → EngJob}
    (sub : [.stp] ⊆ ps) (h₀ : Frame ps r₀ s) : Frame ps r₀ (State.updEng s id g) := by
  unfold State.updEng
  try dsimp only
  repeat' first
    | with_reducible assumption
    | with_reducible exact List.Subset.trans (by decide) sub
    | with_reducible apply State.setEngs_frame
    | with_reducible refine Frame.ite ?_ ?_
    | dsimp only
    | split

theorem engRun_frame {ps : List Part} {r₀ : State} {s : State} {j : EngJob}
    (sub : [.stp, .cip] ⊆ ps) (h₀ : Frame ps r₀ s) : Frame ps r₀ (engRun s j) := by
  unfold engRun
  try dsimp only
  repeat' first
    | with_reducible assumption
    | with_reducible exact List.Subset.trans (by decide) sub
    | with_reducible apply State.setCip_frame
    | with_reducible apply State.updEng_frame
    | with_reducible refine Frame.ite ?_ ?_
    | dsimp only
    | split

theorem engCount_frame {ps : List Part} {r₀ : State} {s : State} {k : EngKind}
    (sub : [.stp] ⊆ ps) (h₀ : Frame ps r₀ s) : Frame ps r₀ (engCount s k) := by
  unfold engCount
  try dsimp only
  repeat' first
    | with_reducible assumption
    | with_reducible exact List.Subset.trans (by decide) sub
    | with_reducible apply State.setStp_frame
    | dsimp only
    | split

theorem engStall_frame {ps : List Part} {r₀ : State} {s : State} {id : Nat}
    (sub : [.stp, .pages] ⊆ ps) (h₀ : Frame ps r₀ s) : Frame ps r₀ (engStall s id) := by
  unfold engStall
  try dsimp only
  repeat' first
    | with_reducible assumption
    | with_reducible exact List.Subset.trans (by decide) sub
    | with_reducible apply State.ev_frame
    | with_reducible apply State.updEng_frame
    | with_reducible refine Frame.ite ?_ ?_
    | dsimp only
    | split

theorem engPreempt_frame {ps : List Part} {r₀ : State} {s : State} {v : EngJob}
    (sub : [.stp, .cip, .pages, .regs] ⊆ ps) (h₀ : Frame ps r₀ s) : Frame ps r₀ (engPreempt s v) := by
  unfold engPreempt
  try dsimp only
  repeat' first
    | with_reducible assumption
    | with_reducible exact List.Subset.trans (by decide) sub
    | with_reducible apply State.bump_frame
    | with_reducible apply State.setCip_frame
    | with_reducible apply State.updEng_frame
    | with_reducible apply engStall_frame
    | with_reducible refine Frame.ite ?_ ?_
    | dsimp only
    | split

theorem engTry_frame {ps : List Part} {r₀ : State} {s : State} {j : EngJob}
    (sub : [.stp, .cip, .pages, .regs] ⊆ ps) (h₀ : Frame ps r₀ s) : Frame ps r₀ (engTry s j) := by
  unfold engTry
  try dsimp only
  repeat' first
    | with_reducible assumption
    | with_reducible exact List.Subset.trans (by decide) sub
    | with_reducible apply State.bump_frame
    | with_reducible apply State.ev_frame
    | with_reducible apply engCount_frame
    | with_reducible apply engPreempt_frame
    | with_reducible apply engRun_frame
    | with_reducible apply engStall_frame
    | with_reducible refine Frame.ite ?_ ?_
    | dsimp only
    | split

theorem engOffer_frame {ps : List Part} {r₀ : State} {s : State} {kind : EngKind} {rank : Nat} {tag : JobTag} {owner : Owner} {long : Bool}
    (sub : [.stp, .cip, .pages, .regs] ⊆ ps) (h₀ : Frame ps r₀ s) : Frame ps r₀ (engOffer s kind rank tag owner long) := by
  unfold engOffer
  try dsimp only
  repeat' first
    | with_reducible assumption
    | with_reducible exact List.Subset.trans (by decide) sub
    | with_reducible apply State.setStp_frame
    | with_reducible apply engTry_frame
    | with_reducible refine Frame.ite ?_ ?_
    | dsimp only
    | split

theorem engDrop_frame {ps : List Part} {r₀ : State} {s : State} {j : EngJob}
    (sub : [.stp, .cip] ⊆ ps) (h₀ : Frame ps r₀ s) : Frame ps r₀ (engDrop s j) := by
  unfold engDrop
  try dsimp only
  repeat' first
    | with_reducible assumption
    | with_reducible exact List.Subset.trans (by decide) sub
    | with_reducible apply State.setCip_frame
    | with_reducible apply State.setEngs_frame
    | with_reducible refine Frame.ite ?_ ?_
    | dsimp only
    | split

theorem engGrants_frame {ps : List Part} {r₀ : State} {s : State}
    (sub : [.stp, .cip, .pages, .regs] ⊆ ps) (h₀ : Frame ps r₀ s) : Frame ps r₀ (engGrants s) := by
  unfold engGrants
  try dsimp only
  repeat' first
    | with_reducible assumption
    | with_reducible exact List.Subset.trans (by decide) sub
    | with_reducible apply State.setEngs_frame
    | with_reducible apply State.setStp_frame
    | with_reducible apply engDrop_frame
    | with_reducible apply engTry_frame
    | with_reducible refine Frame.foldlFst (fun _ _ _ => ?_) ?_
    | with_reducible refine Frame.foldl (fun _ _ _ => ?_) ?_
    | with_reducible refine Frame.ite ?_ ?_
    | dsimp only
    | split

theorem execEngStallPromote_frame {ps : List Part} {r₀ : State} {id : Nat} {s : State}
    (sub : [.stp, .regs] ⊆ ps) (h₀ : Frame ps r₀ s) :
    ∃ z, execEngStallPromote id s = .next z ∧ Frame ps r₀ z := by
  refine ⟨_, rfl, ?_⟩
  try dsimp only
  split
  all_goals repeat' first
    | with_reducible assumption
    | with_reducible exact List.Subset.trans (by decide) sub
    | with_reducible apply State.bump_frame
    | with_reducible apply State.updEng_frame
    | with_reducible refine Frame.ite ?_ ?_
    | dsimp only
    | split

theorem State.updJob_frame {ps : List Part} {r₀ : State} {s : State} {id : Nat} {g : RdJob → RdJob}
    (sub : [.stp] ⊆ ps) (h₀ : Frame ps r₀ s) : Frame ps r₀ (State.updJob s id g) := by
  unfold State.updJob
  try dsimp only
  repeat' first
    | with_reducible assumption
    | with_reducible exact List.Subset.trans (by decide) sub
    | with_reducible apply State.setStp_frame
    | with_reducible refine Frame.ite ?_ ?_
    | dsimp only
    | split

theorem State.updMember_frame {ps : List Part} {r₀ : State} {s : State} {id pos : Nat} {g : MemberRead → MemberRead}
    (sub : [.stp] ⊆ ps) (h₀ : Frame ps r₀ s) : Frame ps r₀ (State.updMember s id pos g) := by
  unfold State.updMember
  try dsimp only
  repeat' first
    | with_reducible assumption
    | with_reducible exact List.Subset.trans (by decide) sub
    | with_reducible apply State.updJob_frame
    | with_reducible refine Frame.ite ?_ ?_
    | dsimp only
    | split

theorem memberArrives_frame {ps : List Part} {r₀ : State} {s : State} {id pos : Nat} {soft : Bool}
    (sub : [.stp, .cip, .pages, .regs] ⊆ ps) (h₀ : Frame ps r₀ s) : Frame ps r₀ (memberArrives s id pos soft) := by
  unfold memberArrives
  try dsimp only
  split
  all_goals repeat' first
    | with_reducible assumption
    | with_reducible exact List.Subset.trans (by decide) sub
    | with_reducible apply State.updMember_frame
    | with_reducible apply engOffer_frame
    | with_reducible refine Frame.ite ?_ ?_
    | dsimp only
    | split

theorem arrive_frame {ps : List Part} {r₀ : State} {s : State} {x : Desc}
    (sub : [.stp, .cip, .pages, .regs] ⊆ ps) (h₀ : Frame ps r₀ s) : Frame ps r₀ (arrive s x) := by
  unfold arrive
  try dsimp only
  split
  all_goals repeat' first
    | with_reducible assumption
    | with_reducible exact List.Subset.trans (by decide) sub
    | with_reducible apply memberArrives_frame
    | with_reducible refine Frame.foldlFst (fun _ _ _ => ?_) ?_
    | with_reducible refine Frame.foldl (fun _ _ _ => ?_) ?_
    | with_reducible refine Frame.ite ?_ ?_
    | dsimp only
    | split

end Sys2Proof.Machine
end

