-- ==== Sys2Proof/Laws/Flash.lean ====
section
/-! SUPPORT. What each operation of Machine/Flash.lean may change. -/

-- one proof after another: many at once would each hold a thread
set_option Elab.async false

namespace Sys2Proof.Machine

open Sys2Proof

theorem pushDesc_frame {ps : List Part} {r₀ : State} {s : State} {d : Nat} {x : Desc} {ahead : Nat}
    (sub : [.fch] ⊆ ps) (h₀ : Frame ps r₀ s) : Frame ps r₀ (pushDesc s d x ahead) := by
  unfold pushDesc
  try dsimp only
  repeat' first
    | with_reducible assumption
    | with_reducible exact List.Subset.trans (by decide) sub
    | with_reducible apply State.setDie_frame
    | with_reducible refine Frame.ite ?_ ?_
    | dsimp only
    | split

theorem countStatus_frame {ps : List Part} {r₀ : State} {s : State} {nn : Nat} {t : CStat}
    (sub : [.pages, .regs] ⊆ ps) (h₀ : Frame ps r₀ s) : Frame ps r₀ (countStatus s nn t) := by
  unfold countStatus
  try dsimp only
  split
  all_goals repeat' first
    | with_reducible assumption
    | with_reducible exact List.Subset.trans (by decide) sub
    | with_reducible apply State.bumpAt_frame
    | with_reducible apply State.evCh_frame
    | dsimp only
    | split

theorem completeEntry_frame {ps : List Part} {r₀ : State} {s : State} {d i : Nat} {t : CStat} {op : Option DieOp} {discarded : Bool}
    (sub : [.stp, .fch, .cip, .pages, .regs] ⊆ ps) (h₀ : Frame ps r₀ s) : Frame ps r₀ (completeEntry s d i t op discarded) := by
  unfold completeEntry
  try dsimp only
  repeat' first
    | with_reducible assumption
    | with_reducible exact List.Subset.trans (by decide) sub
    | with_reducible apply State.evCh_frame
    | with_reducible apply State.setDie_frame
    | with_reducible apply State.updChan_frame
    | with_reducible apply arrive_frame
    | with_reducible apply countStatus_frame
    | with_reducible refine Frame.ite ?_ ?_
    | dsimp only
    | split

theorem finishEntry_frame {ps : List Part} {r₀ : State} {s : State} {d i : Nat} {t : CStat} {op : Option DieOp} {discarded : Bool}
    (sub : [.stp, .fch, .cip, .pages, .regs] ⊆ ps) (h₀ : Frame ps r₀ s) : Frame ps r₀ (finishEntry s d i t op discarded) := by
  unfold finishEntry
  try dsimp only
  repeat' first
    | with_reducible assumption
    | with_reducible exact List.Subset.trans (by decide) sub
    | with_reducible apply completeEntry_frame
    | with_reducible refine Frame.foldlFst (fun _ _ _ => ?_) ?_
    | with_reducible refine Frame.foldl (fun _ _ _ => ?_) ?_
    | with_reducible refine Frame.ite ?_ ?_
    | dsimp only
    | split

theorem dieOut_frame {ps : List Part} {r₀ : State} {s : State} {d : Nat}
    (sub : [.stp, .fch, .par, .cip, .evl, .pages, .regs] ⊆ ps) (h₀ : Frame ps r₀ s) : Frame ps r₀ (dieOut s d) := by
  unfold dieOut
  try dsimp only
  repeat' first
    | with_reducible assumption
    | with_reducible exact List.Subset.trans (by decide) sub
    | with_reducible apply State.evCh_frame
    | with_reducible apply State.raiseAt_frame
    | with_reducible apply State.setPar_frame
    | with_reducible apply State.updChan_frame
    | with_reducible apply State.updDie_frame
    | with_reducible apply completeEntry_frame
    | with_reducible refine Frame.foldlFst (fun _ _ _ => ?_) ?_
    | with_reducible refine Frame.foldl (fun _ _ _ => ?_) ?_
    | with_reducible refine Frame.ite ?_ ?_
    | dsimp only
    | split

theorem addGroup_frame {ps : List Part} {r₀ : State} {s : State} {d : Nat} {x : Desc} {fns : List NandFn}
    (sub : [.fns, .fch] ⊆ ps) (h₀ : Frame ps r₀ s) : Frame ps r₀ (addGroup s d x fns) := by
  unfold addGroup
  try dsimp only
  repeat' first
    | with_reducible assumption
    | with_reducible exact List.Subset.trans (by decide) sub
    | with_reducible apply State.meter_frame
    | with_reducible apply State.updChan_frame
    | with_reducible refine Frame.foldlFst (fun _ _ _ => ?_) ?_
    | with_reducible refine Frame.foldl (fun _ _ _ => ?_) ?_
    | with_reducible refine Frame.ite ?_ ?_
    | dsimp only
    | split

theorem startOp_frame {ps : List Part} {r₀ : State} {s : State} {d i : Nat} {x : Desc}
    (sub : [.fns, .fch] ⊆ ps) (h₀ : Frame ps r₀ s) : Frame ps r₀ (startOp s d i x) := by
  unfold startOp
  try dsimp only
  repeat' first
    | with_reducible assumption
    | with_reducible exact List.Subset.trans (by decide) sub
    | with_reducible apply State.updChan_frame
    | with_reducible apply State.updDie_frame
    | with_reducible apply addGroup_frame
    | with_reducible refine Frame.ite ?_ ?_
    | dsimp only
    | split

theorem lunReset_frame {ps : List Part} {r₀ : State} {s : State} {d kind : Nat}
    (sub : [.fch] ⊆ ps) (h₀ : Frame ps r₀ s) : Frame ps r₀ (lunReset s d kind) := by
  unfold lunReset
  try dsimp only
  repeat' first
    | with_reducible assumption
    | with_reducible exact List.Subset.trans (by decide) sub
    | with_reducible apply State.updDie_frame
    | dsimp only
    | split

theorem startWith_frame {ps : List Part} {r₀ : State} {s : State} {d i : Nat} {t : OpType} {go : Desc → State → State}
    (ha : ∀ x u, Frame ps r₀ u → Frame ps r₀ (go x u)) (sub : [.stp, .fch, .cip, .pages, .regs] ⊆ ps) (h₀ : Frame ps r₀ s) :
    Frame ps r₀ (startWith s d i t go) := by
  unfold startWith
  try dsimp only
  split
  all_goals repeat' first
    | with_reducible assumption
    | with_reducible exact List.Subset.trans (by decide) sub
    | with_reducible refine ha _ _ ?_
    | with_reducible apply State.evCh_frame
    | with_reducible apply finishEntry_frame
    | with_reducible refine Frame.ite ?_ ?_
    | dsimp only
    | split

theorem onBusy_frame {ps : List Part} {r₀ : State} {s : State} {d i : Nat} {x : Desc}
    (sub : [.stp, .fns, .fch, .cip, .pages, .regs] ⊆ ps) (h₀ : Frame ps r₀ s) : Frame ps r₀ (onBusy s d i x) := by
  unfold onBusy
  try dsimp only
  repeat' first
    | with_reducible assumption
    | with_reducible exact List.Subset.trans (by decide) sub
    | with_reducible apply State.bumpAt_frame
    | with_reducible apply State.updDie_frame
    | with_reducible apply addGroup_frame
    | with_reducible apply finishEntry_frame
    | with_reducible refine Frame.ite ?_ ?_
    | dsimp only
    | split

theorem execDescriptorRead_frame {ps : List Part} {r₀ : State} {d i : Nat} {busy : Bool} {s : State}
    (sub : [.stp, .fns, .fch, .cip, .pages, .regs] ⊆ ps) (h₀ : Frame ps r₀ s) :
    ∃ z, execDescriptorRead d i busy s = .next z ∧ Frame ps r₀ z := by
  refine ⟨_, rfl, ?_⟩
  try dsimp only
  split
  all_goals repeat' first
    | with_reducible assumption
    | with_reducible exact List.Subset.trans (by decide) sub
    | with_reducible apply finishEntry_frame
    | with_reducible apply onBusy_frame
    | with_reducible apply startOp_frame
    | with_reducible refine startWith_frame (fun _ _ _ => ?_) ?_ ?_
    | with_reducible refine Frame.ite ?_ ?_
    | dsimp only
    | split

theorem execDescriptorReadRun_frame {ps : List Part} {r₀ : State} {d i : Nat} {busy : Bool} {s : State}
    (sub : [.stp, .fns, .fch, .cip, .pages, .regs] ⊆ ps) (h₀ : Frame ps r₀ s) :
    ∃ z, execDescriptorReadRun d i busy s = .next z ∧ Frame ps r₀ z := by
  refine ⟨_, rfl, ?_⟩
  try dsimp only
  repeat' first
    | with_reducible assumption
    | with_reducible exact List.Subset.trans (by decide) sub
    | with_reducible apply finishEntry_frame
    | with_reducible apply onBusy_frame
    | with_reducible apply startOp_frame
    | with_reducible refine startWith_frame (fun _ _ _ => ?_) ?_ ?_
    | with_reducible refine Frame.ite ?_ ?_
    | dsimp only
    | split

theorem execDescriptorProgram_frame {ps : List Part} {r₀ : State} {d i : Nat} {s : State}
    (sub : [.stp, .fns, .wbf, .fch, .cip, .pages, .regs] ⊆ ps) (h₀ : Frame ps r₀ s) :
    ∃ z, execDescriptorProgram d i s = .next z ∧ Frame ps r₀ z := by
  refine ⟨_, rfl, ?_⟩
  try dsimp only
  repeat' first
    | with_reducible assumption
    | with_reducible exact List.Subset.trans (by decide) sub
    | with_reducible apply State.updPuAt_frame
    | with_reducible apply startOp_frame
    | with_reducible refine startWith_frame (fun _ _ _ => ?_) ?_ ?_
    | dsimp only
    | split

theorem intentPage_frame {ps : List Part} {r₀ : State} {s : State} {d : Nat}
    (sub : [.fch] ⊆ ps) (h₀ : Frame ps r₀ s) : Frame ps r₀ (intentPage s d) := by
  unfold intentPage
  try dsimp only
  repeat' first
    | with_reducible assumption
    | with_reducible exact List.Subset.trans (by decide) sub
    | with_reducible apply State.setDie_frame
    | with_reducible apply queuePslcErase_frame
    | with_reducible refine Frame.ite ?_ ?_
    | dsimp only
    | split

theorem execDescriptorEraseIntent_frame {ps : List Part} {r₀ : State} {d i : Nat} {s : State}
    (sub : [.stp, .fns, .fch, .cip, .pages, .regs] ⊆ ps) (h₀ : Frame ps r₀ s) :
    ∃ z, execDescriptorEraseIntent d i s = .next z ∧ Frame ps r₀ z := by
  refine ⟨_, rfl, ?_⟩
  try dsimp only
  repeat' first
    | with_reducible assumption
    | with_reducible exact List.Subset.trans (by decide) sub
    | with_reducible apply intentPage_frame
    | with_reducible apply startOp_frame
    | with_reducible refine startWith_frame (fun _ _ _ => ?_) ?_ ?_
    | dsimp only
    | split

theorem startErase_frame {ps : List Part} {r₀ : State} {s : State} {d i : Nat} {x : Desc}
    (sub : [.stp, .fns, .fch, .evl, .pages, .regs] ⊆ ps) (h₀ : Frame ps r₀ s) : Frame ps r₀ (startErase s d i x) := by
  unfold startErase
  try dsimp only
  repeat' first
    | with_reducible assumption
    | with_reducible exact List.Subset.trans (by decide) sub
    | with_reducible apply breakWindow_frame
    | with_reducible apply startOp_frame
    | with_reducible refine Frame.ite ?_ ?_
    | dsimp only
    | split

theorem execDescriptorErase_frame {ps : List Part} {r₀ : State} {d i : Nat} {s : State}
    (sub : [.stp, .fns, .fch, .cip, .evl, .pages, .regs] ⊆ ps) (h₀ : Frame ps r₀ s) :
    ∃ z, execDescriptorErase d i s = .next z ∧ Frame ps r₀ z := by
  refine ⟨_, rfl, ?_⟩
  try dsimp only
  repeat' first
    | with_reducible assumption
    | with_reducible exact List.Subset.trans (by decide) sub
    | with_reducible apply finishEntry_frame
    | with_reducible apply startErase_frame
    | with_reducible refine startWith_frame (fun _ _ _ => ?_) ?_ ?_
    | with_reducible refine Frame.ite ?_ ?_
    | dsimp only
    | split

theorem instantOp_frame {ps : List Part} {r₀ : State} {s : State} {d i : Nat} {x : Desc} {dstat : BitVec 8} {done : Nat}
    (sub : [.stp, .fns, .fch, .cip, .pages, .regs] ⊆ ps) (h₀ : Frame ps r₀ s) : Frame ps r₀ (instantOp s d i x dstat done) := by
  unfold instantOp
  try dsimp only
  repeat' first
    | with_reducible assumption
    | with_reducible exact List.Subset.trans (by decide) sub
    | with_reducible apply State.updDie_frame
    | with_reducible apply finishEntry_frame
    | with_reducible apply startOp_frame
    | dsimp only
    | split

theorem execDescriptorStatus_frame {ps : List Part} {r₀ : State} {d i : Nat} {dstat : BitVec 8} {s : State}
    (sub : [.stp, .fns, .fch, .cip, .pages, .regs] ⊆ ps) (h₀ : Frame ps r₀ s) :
    ∃ z, execDescriptorStatus d i dstat s = .next z ∧ Frame ps r₀ z := by
  refine ⟨_, rfl, ?_⟩
  try dsimp only
  repeat' first
    | with_reducible assumption
    | with_reducible exact List.Subset.trans (by decide) sub
    | with_reducible apply instantOp_frame
    | with_reducible refine startWith_frame (fun _ _ _ => ?_) ?_ ?_
    | dsimp only
    | split

theorem execDescriptorFeature_frame {ps : List Part} {r₀ : State} {d i : Nat} {value : Int} {s : State}
    (sub : [.stp, .fns, .fch, .cip, .pages, .regs] ⊆ ps) (h₀ : Frame ps r₀ s) :
    ∃ z, execDescriptorFeature d i value s = .next z ∧ Frame ps r₀ z := by
  refine ⟨_, rfl, ?_⟩
  try dsimp only
  repeat' first
    | with_reducible assumption
    | with_reducible exact List.Subset.trans (by decide) sub
    | with_reducible apply State.updDie_frame
    | with_reducible apply instantOp_frame
    | with_reducible refine startWith_frame (fun _ _ _ => ?_) ?_ ?_
    | with_reducible refine Frame.ite ?_ ?_
    | dsimp only
    | split

theorem execDescriptorReset_frame {ps : List Part} {r₀ : State} {d i : Nat} {s : State}
    (sub : [.stp, .fns, .fch, .cip, .pages, .regs] ⊆ ps) (h₀ : Frame ps r₀ s) :
    ∃ z, execDescriptorReset d i s = .next z ∧ Frame ps r₀ z := by
  refine ⟨_, rfl, ?_⟩
  try dsimp only
  repeat' first
    | with_reducible assumption
    | with_reducible exact List.Subset.trans (by decide) sub
    | with_reducible apply finishEntry_frame
    | with_reducible apply lunReset_frame
    | with_reducible apply startOp_frame
    | with_reducible refine startWith_frame (fun _ _ _ => ?_) ?_ ?_
    | with_reducible refine Frame.foldlFst (fun _ _ _ => ?_) ?_
    | with_reducible refine Frame.foldl (fun _ _ _ => ?_) ?_
    | with_reducible refine Frame.ite ?_ ?_
    | dsimp only
    | split

theorem rawAnswer_frame {ps : List Part} {r₀ : State} {s : State} {x : Desc} {seq : Nat} {decode : Bool} {data : BitVec 36864} {dec : Option Info}
    (sub : [.ans, .qmx, .fns] ⊆ ps) (h₀ : Frame ps r₀ s) : Frame ps r₀ (rawAnswer s x seq decode data dec) := by
  unfold rawAnswer
  try dsimp only
  repeat' first
    | with_reducible assumption
    | with_reducible exact List.Subset.trans (by decide) sub
    | with_reducible apply State.answer_frame
    | with_reducible apply State.finish_frame
    | with_reducible refine Frame.ite ?_ ?_
    | dsimp only
    | split

theorem execDescriptorRaw_frame {ps : List Part} {r₀ : State} {d i : Nat} {data : BitVec 36864} {dec : Option Info} {s : State}
    (sub : [.ans, .stp, .qmx, .fns, .fch, .cip, .pages, .regs] ⊆ ps) (h₀ : Frame ps r₀ s) :
    ∃ z, execDescriptorRaw d i data dec s = .next z ∧ Frame ps r₀ z := by
  refine ⟨_, rfl, ?_⟩
  try dsimp only
  repeat' first
    | with_reducible assumption
    | with_reducible exact List.Subset.trans (by decide) sub
    | with_reducible apply State.answer_frame
    | with_reducible apply instantOp_frame
    | with_reducible apply rawAnswer_frame
    | with_reducible refine startWith_frame (fun _ _ _ => ?_) ?_ ?_
    | dsimp only
    | split

theorem reinFails_frame {ps : List Part} {r₀ : State} {s : State} {d : Nat} {o : DieOp} {dstat : BitVec 8}
    (sub : [.stp, .fch, .cip, .pages, .regs] ⊆ ps) (h₀ : Frame ps r₀ s) : Frame ps r₀ (reinFails s d o dstat) := by
  unfold reinFails
  try dsimp only
  repeat' first
    | with_reducible assumption
    | with_reducible exact List.Subset.trans (by decide) sub
    | with_reducible apply State.updDie_frame
    | with_reducible apply finishEntry_frame
    | dsimp only
    | split

theorem execDieOpPoll_frame {ps : List Part} {r₀ : State} {d : Nat} {ready : Bool} {dstat : BitVec 8} {s : State}
    (sub : [.stp, .fns, .fch, .cip, .pages, .regs] ⊆ ps) (h₀ : Frame ps r₀ s) :
    ∃ z, execDieOpPoll d ready dstat s = .next z ∧ Frame ps r₀ z := by
  refine ⟨_, rfl, ?_⟩
  try dsimp only
  repeat' first
    | with_reducible assumption
    | with_reducible exact List.Subset.trans (by decide) sub
    | with_reducible apply State.setDie_frame
    | with_reducible apply addGroup_frame
    | with_reducible apply reinFails_frame
    | with_reducible refine Frame.ite ?_ ?_
    | dsimp only
    | split

theorem writeIntent_frame {ps : List Part} {r₀ : State} {s : State} {d : Nat} {r : IntentRec} {pageFails : Nat}
    (sub : [.fch, .rcl, .evl, .pages, .regs] ⊆ ps) (h₀ : Frame ps r₀ s) : Frame ps r₀ (writeIntent s d r pageFails) := by
  unfold writeIntent
  try dsimp only
  repeat' first
    | with_reducible assumption
    | with_reducible exact List.Subset.trans (by decide) sub
    | with_reducible apply State.raiseAt_frame
    | with_reducible apply State.setDie_frame
    | with_reducible apply State.updDie_frame
    | with_reducible apply intentPage_frame
    | with_reducible refine Frame.ite ?_ ?_
    | with_reducible refine takePslc_eq_frame (by assumption) ?_ ?_
    | dsimp only
    | split

theorem foldl_wf {α β : Type} {l : List β} {f : Tbl α → β → Tbl α} (hf : ∀ t x, Tbl.wf t = true → Tbl.wf (f t x) = true)
    {t : Tbl α} (h : Tbl.wf t = true) : Tbl.wf (l.foldl f t) = true := by
  induction l generalizing t with
  | nil => exact h
  | cons x l ih => exact ih (hf t x h)

/-- Programs and erases are all that write media, and they keep its table canonical. -/
theorem mediaAfter_frame {ps : List Part} {r s : State} {d : Nat} {x : Desc} (sub : [.fch, .media] ⊆ ps)
    (h : Frame ps r s) : Frame ps r (mediaAfter s d x) := by
  unfold mediaAfter
  split
  · exact Frame.fchSet (sub (by decide)) (sub (by decide))
      (fun w => foldl_wf (fun _ _ hw => Tbl.wf_set hw _ _) w) h
  · dsimp only
    split
    · exact State.updDie_frame (List.Subset.trans (by decide) sub) h
    · exact Frame.fchSet (sub (by decide)) (sub (by decide)) (fun w => Tbl.wf_filter w _) h
  · exact h

theorem endOp_frame {ps : List Part} {r₀ : State} {s : State} {d : Nat} {o : DieOp} {pageFails : Nat}
    (sub : [.stp, .fch, .rcl, .cip, .evl, .pages, .regs, .media] ⊆ ps) (h₀ : Frame ps r₀ s) : Frame ps r₀ (endOp s d o pageFails) := by
  unfold endOp
  try dsimp only
  repeat' first
    | with_reducible assumption
    | with_reducible exact List.Subset.trans (by decide) sub
    | with_reducible apply State.updDie_frame
    | with_reducible apply finishEntry_frame
    | with_reducible apply mediaAfter_frame
    | with_reducible apply writeIntent_frame
    | with_reducible refine Frame.ite ?_ ?_
    | dsimp only
    | split

theorem execDieOpComplete_frame {ps : List Part} {r₀ : State} {d pageFails : Nat} {s : State}
    (sub : [.stp, .fch, .rcl, .cip, .evl, .pages, .regs, .media] ⊆ ps) (h₀ : Frame ps r₀ s) :
    ∃ z, execDieOpComplete d pageFails s = .next z ∧ Frame ps r₀ z := by
  refine ⟨_, rfl, ?_⟩
  try dsimp only
  repeat' first
    | with_reducible assumption
    | with_reducible exact List.Subset.trans (by decide) sub
    | with_reducible apply State.setDie_frame
    | with_reducible apply endOp_frame
    | with_reducible apply finishEntry_frame
    | with_reducible refine Frame.ite ?_ ?_
    | dsimp only
    | split

theorem execFchDieTimeout_frame {ps : List Part} {r₀ : State} {d : Nat} {s : State}
    (sub : [.stp, .fch, .par, .cip, .evl, .pages, .regs] ⊆ ps) (h₀ : Frame ps r₀ s) :
    ∃ z, execFchDieTimeout d s = .next z ∧ Frame ps r₀ z := by
  refine ⟨_, rfl, ?_⟩
  try dsimp only
  repeat' first
    | with_reducible assumption
    | with_reducible exact List.Subset.trans (by decide) sub
    | with_reducible apply State.raiseAt_frame
    | with_reducible apply State.setDie_frame
    | with_reducible apply State.updDie_frame
    | with_reducible apply dieOut_frame
    | with_reducible apply finishEntry_frame
    | with_reducible apply lunReset_frame
    | with_reducible refine Frame.ite ?_ ?_
    | dsimp only
    | split

theorem execDieResetTimeout_frame {ps : List Part} {r₀ : State} {d : Nat} {s : State}
    (sub : [.stp, .fch, .par, .cip, .evl, .pages, .regs] ⊆ ps) (h₀ : Frame ps r₀ s) :
    ∃ z, execDieResetTimeout d s = .next z ∧ Frame ps r₀ z := by
  refine ⟨_, rfl, ?_⟩
  try dsimp only
  split
  all_goals repeat' first
    | with_reducible assumption
    | with_reducible exact List.Subset.trans (by decide) sub
    | with_reducible apply dieOut_frame
    | with_reducible refine Frame.ite ?_ ?_
    | dsimp only
    | split

theorem execReinSuspend_frame {ps : List Part} {r₀ : State} {d i : Nat} {s : State}
    (sub : [.fns, .fch, .pages, .regs] ⊆ ps) (h₀ : Frame ps r₀ s) :
    ∃ z, execReinSuspend d i s = .next z ∧ Frame ps r₀ z := by
  refine ⟨_, rfl, ?_⟩
  try dsimp only
  repeat' first
    | with_reducible assumption
    | with_reducible exact List.Subset.trans (by decide) sub
    | with_reducible apply State.bumpAt_frame
    | with_reducible apply State.evCh_frame
    | with_reducible apply State.setDie_frame
    | with_reducible apply addGroup_frame
    | with_reducible refine Frame.ite ?_ ?_
    | dsimp only
    | split

theorem execReinRead_frame {ps : List Part} {r₀ : State} {d i : Nat} {s : State}
    (sub : [.fns, .fch] ⊆ ps) (h₀ : Frame ps r₀ s) :
    ∃ z, execReinRead d i s = .next z ∧ Frame ps r₀ z := by
  refine ⟨_, rfl, ?_⟩
  try dsimp only
  repeat' first
    | with_reducible assumption
    | with_reducible exact List.Subset.trans (by decide) sub
    | with_reducible apply State.setDie_frame
    | with_reducible apply State.updChan_frame
    | with_reducible apply addGroup_frame
    | with_reducible refine Frame.ite ?_ ?_
    | dsimp only
    | split

theorem requeueRein_frame {ps : List Part} {r₀ : State} {s : State} {d : Nat}
    (sub : [.fch] ⊆ ps) (h₀ : Frame ps r₀ s) : Frame ps r₀ (requeueRein s d) := by
  unfold requeueRein
  try dsimp only
  repeat' first
    | with_reducible assumption
    | with_reducible exact List.Subset.trans (by decide) sub
    | with_reducible apply State.setDie_frame
    | with_reducible apply State.updChan_frame
    | with_reducible refine Frame.ite ?_ ?_
    | dsimp only
    | split

theorem execReinResume_frame {ps : List Part} {r₀ : State} {d : Nat} {s : State}
    (sub : [.fns, .fch] ⊆ ps) (h₀ : Frame ps r₀ s) :
    ∃ z, execReinResume d s = .next z ∧ Frame ps r₀ z := by
  refine ⟨_, rfl, ?_⟩
  try dsimp only
  repeat' first
    | with_reducible assumption
    | with_reducible exact List.Subset.trans (by decide) sub
    | with_reducible apply State.setDie_frame
    | with_reducible apply addGroup_frame
    | with_reducible apply requeueRein_frame
    | with_reducible refine Frame.ite ?_ ?_
    | dsimp only
    | split

theorem execSlotArbitration_frame {ps : List Part} {r₀ : State} {nn : Nat} {s : State}
    (sub : [.fch, .regs] ⊆ ps) (h₀ : Frame ps r₀ s) :
    ∃ z, execSlotArbitration nn s = .next z ∧ Frame ps r₀ z := by
  refine ⟨_, rfl, ?_⟩
  try dsimp only
  repeat' first
    | with_reducible assumption
    | with_reducible exact List.Subset.trans (by decide) sub
    | with_reducible apply State.bumpAt_frame
    | with_reducible apply State.setChan_frame
    | with_reducible refine Frame.ite ?_ ?_
    | dsimp only
    | split

theorem execFchStallPromote_frame {ps : List Part} {r₀ : State} {nn r : Nat} {s : State}
    (sub : [.fch, .regs] ⊆ ps) (h₀ : Frame ps r₀ s) :
    ∃ z, execFchStallPromote nn r s = .next z ∧ Frame ps r₀ z := by
  refine ⟨_, rfl, ?_⟩
  try dsimp only
  repeat' first
    | with_reducible assumption
    | with_reducible exact List.Subset.trans (by decide) sub
    | with_reducible apply State.bumpAt_frame
    | with_reducible apply State.setChan_frame
    | with_reducible refine Frame.ite ?_ ?_
    | dsimp only
    | split

theorem execCodewordTransferEnd_frame {ps : List Part} {r₀ : State} {nn : Nat} {s : State}
    (sub : [.qmx, .fns, .wbf, .fch, .par, .rcl, .pages, .regs] ⊆ ps) (h₀ : Frame ps r₀ s) :
    ∃ z, execCodewordTransferEnd nn s = .next z ∧ Frame ps r₀ z := by
  refine ⟨_, rfl, ?_⟩
  try dsimp only
  repeat' first
    | with_reducible assumption
    | with_reducible exact List.Subset.trans (by decide) sub
    | with_reducible apply State.meter_frame
    | with_reducible apply State.setChan_frame
    | with_reducible apply State.updDie_frame
    | with_reducible apply State.updPuAt_frame
    | with_reducible apply State.updSlot_frame
    | with_reducible apply parityProg_frame
    | with_reducible refine Frame.ite ?_ ?_
    | dsimp only
    | split

theorem execDieRetrain_frame {ps : List Part} {r₀ : State} {d : Nat} {low : Bool} {s : State}
    (sub : [.stp, .fch, .evl, .pages, .regs] ⊆ ps) (h₀ : Frame ps r₀ s) :
    ∃ z, execDieRetrain d low s = .next z ∧ Frame ps r₀ z := by
  refine ⟨_, rfl, ?_⟩
  try dsimp only
  repeat' first
    | with_reducible assumption
    | with_reducible exact List.Subset.trans (by decide) sub
    | with_reducible apply State.ev_frame
    | with_reducible apply State.evCh_frame
    | with_reducible apply State.raise_frame
    | with_reducible apply State.raiseAt_frame
    | with_reducible apply State.setDie_frame
    | with_reducible apply State.setStp_frame
    | with_reducible apply State.updChan_frame
    | with_reducible refine Frame.ite ?_ ?_
    | dsimp only
    | split

theorem execChannelRetrainDone_frame {ps : List Part} {r₀ : State} {nn rate : Nat} {s : State}
    (sub : [.stp, .fch, .par, .cip, .evl, .pages, .regs] ⊆ ps) (h₀ : Frame ps r₀ s) :
    ∃ z, execChannelRetrainDone nn rate s = .next z ∧ Frame ps r₀ z := by
  refine ⟨_, rfl, ?_⟩
  try dsimp only
  repeat' first
    | with_reducible assumption
    | with_reducible exact List.Subset.trans (by decide) sub
    | with_reducible apply State.evCh_frame
    | with_reducible apply State.setChan_frame
    | with_reducible apply State.setStp_frame
    | with_reducible apply dieOut_frame
    | with_reducible refine Frame.foldlFst (fun _ _ _ => ?_) ?_
    | with_reducible refine Frame.foldl (fun _ _ _ => ?_) ?_
    | with_reducible refine Frame.ite ?_ ?_
    | dsimp only
    | split

theorem pinFaults_frame {ps : List Part} {r₀ : State} {s : State} {nn : Nat} {short open_ : BitVec 22}
    (sub : [.stp, .fch, .par, .cip, .evl, .pages, .regs] ⊆ ps) (h₀ : Frame ps r₀ s) : Frame ps r₀ (pinFaults s nn short open_) := by
  unfold pinFaults
  try dsimp only
  repeat' first
    | with_reducible assumption
    | with_reducible exact List.Subset.trans (by decide) sub
    | with_reducible apply State.evCh_frame
    | with_reducible apply State.raiseAt_frame
    | with_reducible apply State.updChan_frame
    | with_reducible apply State.wrAt_frame
    | with_reducible apply dieOut_frame
    | with_reducible refine Frame.foldlFst (fun _ _ _ => ?_) ?_
    | with_reducible refine Frame.foldl (fun _ _ _ => ?_) ?_
    | with_reducible refine Frame.ite ?_ ?_
    | dsimp only
    | split

theorem execFchPinGo_frame {ps : List Part} {r₀ : State} {nn : Nat} {short open_ : BitVec 22} {s : State}
    (sub : [.gate, .stp, .fch, .par, .cip, .evl, .pages, .regs] ⊆ ps) (h₀ : Frame ps r₀ s) :
    ∃ z, execFchPinGo nn short open_ s = .next z ∧ Frame ps r₀ z := by
  refine ⟨_, rfl, ?_⟩
  try dsimp only
  repeat' first
    | with_reducible assumption
    | with_reducible exact List.Subset.trans (by decide) sub
    | with_reducible apply State.wakePage_frame
    | with_reducible apply pinFaults_frame
    | with_reducible refine Frame.ite ?_ ?_
    | dsimp only
    | split

end Sys2Proof.Machine
end

