-- ==== Sys2Proof/Laws/Time.lean ====
section
/-! SUPPORT. What each operation of Machine/Time.lean may change. -/

-- one proof after another: many at once would each hold a thread
set_option Elab.async false

namespace Sys2Proof.Machine

open Sys2Proof

theorem ppsGlitch_frame {ps : List Part} {r₀ : State} {s : State}
    (sub : [.pages, .regs] ⊆ ps) (h₀ : Frame ps r₀ s) : Frame ps r₀ (ppsGlitch s) := by
  unfold ppsGlitch
  try dsimp only
  repeat' first
    | with_reducible assumption
    | with_reducible exact List.Subset.trans (by decide) sub
    | with_reducible apply State.bump_frame
    | with_reducible apply State.ev_frame
    | dsimp only
    | split

theorem ppsLock_frame {ps : List Part} {r₀ : State} {s : State} {t : Nat} {fromHoldover : Bool}
    (sub : [.tbs, .evl, .pages, .regs] ⊆ ps) (h₀ : Frame ps r₀ s) : Frame ps r₀ (ppsLock s t fromHoldover) := by
  unfold ppsLock
  try dsimp only
  repeat' first
    | with_reducible assumption
    | with_reducible exact List.Subset.trans (by decide) sub
    | with_reducible apply State.ev_frame
    | with_reducible apply State.raise_frame
    | with_reducible refine State.setTbs_keep ?_ ?_ ?_
    | exact (fun h => h : _ → _)
    | with_reducible refine Frame.ite ?_ ?_
    | dsimp only
    | split

theorem stepTarget_ge (clk t : Nat) (offset : Int) (h : clk ≤ t) : clk + 4000 ≤ stepTarget clk t offset := by
  unfold stepTarget
  have hb : (((t : Int) + offset) % 1000000000).toNat < 1000000000 := by omega
  generalize (((t : Int) + offset) % 1000000000).toNat = b at hb ⊢
  dsimp only
  split <;> split <;> omega

theorem ppsCorrect_frame {ps : List Part} {r₀ s : State} {t : Nat} {e offset : Int} (ht : s.tbs.clk ≤ t)
    (sub : [.tbs, .stp] ⊆ ps) (h : Frame ps r₀ s) : Frame ps r₀ (ppsCorrect s t e offset) := by
  have st : [Part.tbs] ⊆ ps := List.Subset.trans (by decide) sub
  unfold ppsCorrect
  dsimp only
  split
  · exact State.setTbs_keep (fun h => h) st h
  · split
    · split
      · exact h
      split
      · split
        · refine State.setStp_frame (List.Subset.trans (by decide) sub) (State.setTbs_keep (fun k => ?_) st h)
          obtain ⟨h1, h2, h3, h4, h5⟩ := k
          have hg := stepTarget_ge s.tbs.clk t offset ht
          refine ⟨h1, ?_, ?_, h4, h5⟩
          · show 4000 ≤ if stepTarget s.tbs.clk t offset < s.tbs.clk + 12000 then
              stepTarget s.tbs.clk t offset - s.tbs.clk else s.tbs.strideLen
            split <;> omega
          · show (if stepTarget s.tbs.clk t offset < s.tbs.clk + 12000 then
              stepTarget s.tbs.clk t offset - s.tbs.clk else s.tbs.strideLen) < 12000
            split <;> omega
        · exact h
      · exact h
    · exact State.setTbs_keep (fun h => h) st h

theorem State.setTbs_clk (s : State) (b : Tbs) : (s.setTbs b).tbs.clk = b.clk := rfl

theorem ppsLock_clk (s : State) (t : Nat) (x : Bool) : (ppsLock s t x).tbs.clk = s.tbs.clk := by
  have k : Frame [.evl, .pages, .regs] (s.setTbs { s.tbs with pps := .locked, wasLocked := true, lockedAt := t, aligned := true })
      (ppsLock s t x) := by
    unfold ppsLock
    dsimp only
    split
    · exact State.raise_frame (by decide) (State.ev_frame (by decide) (Frame.refl _ _))
    · exact State.ev_frame (by decide) (Frame.refl _ _)
  rw [k.tbs_eq]
  rfl

theorem ppsPhase_frame {ps : List Part} {r₀ s : State} {t : Nat} {e offset : Int} {good : Nat}
    (ht : s.tbs.clk ≤ t) (sub : [.tbs, .stp, .evl, .pages, .regs] ⊆ ps) (h : Frame ps r₀ s) :
    Frame ps r₀ (ppsPhase s t e offset good) := by
  have sc : [Part.tbs, .stp] ⊆ ps := List.Subset.trans (by decide) sub
  have sl : [Part.tbs, .evl, .pages, .regs] ⊆ ps := List.Subset.trans (by decide) sub
  unfold ppsPhase
  split
  · exact h
  · dsimp only
    split
    · exact ppsLock_frame sl (ppsCorrect_frame ht sc h)
    · exact ppsCorrect_frame ht sc h
  · exact ppsCorrect_frame ht sc h
  · exact ppsCorrect_frame (by rw [ppsLock_clk]; exact ht) sc (ppsLock_frame sl h)

theorem ppsLearn_frame {ps : List Part} {r₀ s : State} {last : Option Nat} {t : Nat}
    (sub : [.tbs, .regs] ⊆ ps) (h : Frame ps r₀ s) : Frame ps r₀ (ppsLearn s last t) := by
  have sr : [Part.regs] ⊆ ps := List.Subset.trans (by decide) sub
  unfold ppsLearn
  split
  · extract_lets r b u v
    have hu : Frame ps r₀ u := State.setTbs_keep (fun k => ⟨k.1, k.2.1, k.2.2.1, k.2.2.2.1, k.2.2.2.2⟩)
      (List.Subset.trans (by decide) sub) h
    exact Frame.ite (State.wr_frame sr (State.wr_frame sr hu)) (State.wr_frame sr hu)
  · exact h

theorem ppsValid_frame {ps : List Part} {r₀ s : State} {t : Nat} {e offset : Int} (ht : s.tbs.clk ≤ t)
    (sub : [.tbs, .stp, .net, .evl, .pages, .regs] ⊆ ps) (h : Frame ps r₀ s) :
    Frame ps r₀ (ppsValid s t e offset) := by
  have st : [Part.tbs] ⊆ ps := List.Subset.trans (by decide) sub
  have sr : [Part.regs] ⊆ ps := List.Subset.trans (by decide) sub
  unfold ppsValid
  dsimp only
  have h1 : Frame ps r₀ (s.wr rTBS_PHASE_ERR (toSigned 32 (satSigned 32 e))) := State.wr_frame sr h
  have c1 : (s.wr rTBS_PHASE_ERR (toSigned 32 (satSigned 32 e))).tbs = s.tbs := rfl
  generalize s.wr rTBS_PHASE_ERR (toSigned 32 (satSigned 32 e)) = s1 at h1 c1 ⊢
  have h2 : Frame ps r₀ (s1.setNet { s1.net with datagramDue := true }) :=
    State.setNet_frame (List.Subset.trans (by decide) sub) h1
  have c2 : (s1.setNet { s1.net with datagramDue := true }).tbs.clk ≤ t := by
    show s1.tbs.clk ≤ t
    rw [c1]
    exact ht
  dsimp only at h2 c2
  generalize s1.setNet _ = s2 at h2 c2 ⊢
  generalize (if e.natAbs ≤ 100 then s2.tbs.goodRun + 1 else 0) = good
  have h3 : Frame ps r₀ (s2.setTbs { s2.tbs with lastEdge := some t, lastAny := some t, goodRun := good }) :=
    State.setTbs_keep (fun h => h) st h2
  have h4 := ppsPhase_frame (e := e) (offset := offset) (good := good) (by exact c2)
    (List.Subset.trans (by decide) sub) h3
  dsimp only at h4
  generalize ppsPhase _ t e offset good = s4 at h4 ⊢
  exact ppsLearn_frame (List.Subset.trans (by decide) sub) (State.setTbs_keep (fun h => h) st h4)

theorem polarityAfter_ok {t : Tbs} {a : Bool} {w : Nat} (h : t.ok) : (polarityAfter t a w).ok := by
  unfold polarityAfter
  split
  · split <;> exact h
  · exact h

theorem execPpsEdge_frame {ps : List Part} {r₀ : State} {rising : Bool} {ns width : Nat} {s : State}
    (sub : [.tbs, .stp, .net, .evl, .pages, .regs] ⊆ ps) (h : Frame ps r₀ s) : ∃ z, execPpsEdge rising ns width s = .next z ∧ Frame ps r₀ z := by
  have st : [Part.tbs] ⊆ ps := List.Subset.trans (by decide) sub
  have sg {u} (k : Frame ps r₀ u) : Frame ps r₀ (ppsGlitch u) :=
    ppsGlitch_frame (List.Subset.trans (by decide) sub) k
  refine ⟨_, rfl, Frame.ite h ?_⟩
  have h1 : Frame ps r₀ (s.setTbs (polarityAfter s.tbs rising width)) :=
    State.setTbs_keep polarityAfter_ok st h
  generalize s.setTbs (polarityAfter s.tbs rising width) = u at h1
  have hv {e offset} : Frame ps r₀ (ppsValid u (u.tbs.clk + ns) e offset) :=
    ppsValid_frame (Nat.le_add_right _ _) sub h1
  dsimp only
  split
  · exact h1
  · refine Frame.ite h1 (Frame.ite (sg h1) ?_)
    split
    · exact Frame.ite hv (sg h1)
    · split
      · exact State.setTbs_keep (fun k => k) st h1
      · exact Frame.ite hv (sg (State.setTbs_keep (fun k => k) st h1))

theorem execPpsHoldover_frame {ps : List Part} {r₀ : State} {s : State}
    (sub : [.tbs, .evl, .pages, .regs] ⊆ ps) (h₀ : Frame ps r₀ s) :
    ∃ z, execPpsHoldover s = .next z ∧ Frame ps r₀ z := by
  refine ⟨_, rfl, ?_⟩
  try dsimp only
  repeat' first
    | with_reducible assumption
    | with_reducible exact List.Subset.trans (by decide) sub
    | with_reducible apply State.ev_frame
    | with_reducible apply State.raise_frame
    | with_reducible refine State.setTbs_keep ?_ ?_ ?_
    | exact (fun h => h : _ → _)
    | with_reducible apply State.wr_frame
    | with_reducible refine Frame.ite ?_ ?_
    | dsimp only
    | split

theorem ppsEnable_frame {ps : List Part} {r₀ : State} {s : State}
    (sub : [.tbs, .regs] ⊆ ps) (h₀ : Frame ps r₀ s) : Frame ps r₀ (ppsEnable s) := by
  unfold ppsEnable
  try dsimp only
  repeat' first
    | with_reducible assumption
    | with_reducible exact List.Subset.trans (by decide) sub
    | with_reducible refine State.setTbs_keep ?_ ?_ ?_
    | exact (fun h => h : _ → _)
    | with_reducible apply State.wr_frame
    | with_reducible refine Frame.ite ?_ ?_
    | dsimp only
    | split

theorem execSetFeaturesTimestamp_frame {ps : List Part} {r₀ : State} {seq ns ms : Nat} {s : State}
    (sub : [.tbs, .qmx, .fns] ⊆ ps) (h₀ : Frame ps r₀ s) :
    ∃ z, execSetFeaturesTimestamp seq ns ms s = .next z ∧ Frame ps r₀ z := by
  refine ⟨_, rfl, ?_⟩
  try dsimp only
  repeat' first
    | with_reducible assumption
    | with_reducible exact List.Subset.trans (by decide) sub
    | with_reducible apply State.finish_frame
    | with_reducible refine State.setTbs_keep ?_ ?_ ?_
    | exact (fun h => h : _ → _)
    | with_reducible refine State.admin_frame (fun _ => ?_) ?_
    | with_reducible refine Frame.ite ?_ ?_
    | dsimp only
    | split

theorem execGetFeaturesTimestamp_frame {ps : List Part} {r₀ : State} {seq : Nat} {s : State}
    (sub : [.ans, .qmx, .fns] ⊆ ps) (h₀ : Frame ps r₀ s) :
    ∃ z, execGetFeaturesTimestamp seq s = .next z ∧ Frame ps r₀ z := by
  refine ⟨_, rfl, ?_⟩
  try dsimp only
  repeat' first
    | with_reducible assumption
    | with_reducible exact List.Subset.trans (by decide) sub
    | with_reducible apply State.reply_frame
    | with_reducible refine State.admin_frame (fun _ => ?_) ?_
    | dsimp only
    | split

theorem State.setPath_frame {ps : List Part} {r₀ : State} {s : State} {p : Path} {x : PathState}
    (sub : [.paths] ⊆ ps) (h₀ : Frame ps r₀ s) : Frame ps r₀ (State.setPath s p x) := by
  unfold State.setPath
  try dsimp only
  repeat' first
    | with_reducible assumption
    | with_reducible exact List.Subset.trans (by decide) sub
    | with_reducible apply State.setPaths_frame
    | dsimp only
    | split

theorem State.latch_frame {ps : List Part} {r₀ : State} {s : State} {p : Path} {blk off : Nat} {v : Dword}
    (sub : [.gate, .paths] ⊆ ps) (h₀ : Frame ps r₀ s) : Frame ps r₀ (State.latch s p blk off v) := by
  unfold State.latch
  try dsimp only
  repeat' first
    | with_reducible assumption
    | with_reducible exact List.Subset.trans (by decide) sub
    | with_reducible apply State.setPath_frame
    | with_reducible apply State.wakePage_frame
    | dsimp only
    | split

theorem State.setUpper_frame {ps : List Part} {r₀ : State} {s : State} {p : Path} {f : Fld} {v : Nat}
    (sub : [.paths] ⊆ ps) (h₀ : Frame ps r₀ s) : Frame ps r₀ (State.setUpper s p f v) := by
  unfold State.setUpper
  try dsimp only
  repeat' first
    | with_reducible assumption
    | with_reducible exact List.Subset.trans (by decide) sub
    | with_reducible apply State.setPath_frame
    | dsimp only
    | split

theorem writeTbsSetHi_frame {ps : List Part} {r₀ : State} {p : Path} {w : Dword} {s : State}
    (sub : [.tbs, .paths] ⊆ ps) (h₀ : Frame ps r₀ s) : Frame ps r₀ (writeTbsSetHi p w s) := by
  unfold writeTbsSetHi
  try dsimp only
  repeat' first
    | with_reducible assumption
    | with_reducible exact List.Subset.trans (by decide) sub
    | with_reducible refine State.setTbs_keep ?_ ?_ ?_
    | exact (fun h => h : _ → _)
    | with_reducible apply State.setUpper_frame
    | with_reducible refine Frame.ite ?_ ?_
    | dsimp only
    | split

theorem execTbsSetGo_frame {ps : List Part} {r₀ : State} {p : Path} {w : Dword} {s : State}
    (sub : [.tbs, .paths] ⊆ ps) (h₀ : Frame ps r₀ s) :
    ∃ z, execTbsSetGo p w s = .next z ∧ Frame ps r₀ z := by
  refine ⟨_, rfl, ?_⟩
  try dsimp only
  repeat' first
    | with_reducible assumption
    | with_reducible exact List.Subset.trans (by decide) sub
    | with_reducible apply writeTbsSetHi_frame
    | with_reducible refine Frame.ite ?_ ?_
    | dsimp only
    | split

theorem secSetRecord_frame {ps : List Part} {r₀ : State} {s : State} {old b : Nat} {p : PendSet} {applied : Bool}
    (sub : [.evl, .pages, .regs] ⊆ ps) (h₀ : Frame ps r₀ s) : Frame ps r₀ (secSetRecord s old b p applied) := by
  unfold secSetRecord
  try dsimp only
  repeat' first
    | with_reducible assumption
    | with_reducible exact List.Subset.trans (by decide) sub
    | with_reducible apply State.raise_frame
    | with_reducible refine Frame.ite ?_ ?_
    | dsimp only
    | split

theorem execSecondsSetApply_frame {ps : List Part} {r₀ : State} {s : State}
    (sub : [.tbs, .stp, .evl, .pages, .regs] ⊆ ps) (h₀ : Frame ps r₀ s) :
    ∃ z, execSecondsSetApply s = .next z ∧ Frame ps r₀ z := by
  refine ⟨_, rfl, ?_⟩
  try dsimp only
  repeat' first
    | with_reducible assumption
    | with_reducible exact List.Subset.trans (by decide) sub
    | with_reducible apply State.ev_frame
    | with_reducible apply State.setStp_frame
    | with_reducible refine State.setTbs_keep ?_ ?_ ?_
    | exact (fun h => h : _ → _)
    | with_reducible apply secSetRecord_frame
    | with_reducible refine Frame.ite ?_ ?_
    | dsimp only
    | split

theorem execTbsSecLoRead_frame {ps : List Part} {r₀ : State} {p : Path} {ns : Nat} {s : State}
    (sub : [.ans, .gate, .paths] ⊆ ps) (h₀ : Frame ps r₀ s) :
    ∃ z, execTbsSecLoRead p ns s = .next z ∧ Frame ps r₀ z := by
  refine ⟨_, rfl, ?_⟩
  try dsimp only
  repeat' first
    | with_reducible assumption
    | with_reducible exact List.Subset.trans (by decide) sub
    | with_reducible apply State.answer_frame
    | with_reducible apply State.latch_frame
    | dsimp only
    | split

theorem execTbsHour_frame {ps : List Part} {r₀ : State} {s : State}
    (sub : [.tbs, .evl, .pages, .regs] ⊆ ps) (h₀ : Frame ps r₀ s) :
    ∃ z, execTbsHour s = .next z ∧ Frame ps r₀ z := by
  refine ⟨_, rfl, ?_⟩
  try dsimp only
  repeat' first
    | with_reducible assumption
    | with_reducible exact List.Subset.trans (by decide) sub
    | with_reducible apply State.raise_frame
    | with_reducible refine State.setTbs_keep ?_ ?_ ?_
    | exact (fun h => h : _ → _)
    | with_reducible refine Frame.ite ?_ ?_
    | dsimp only
    | split

theorem execPlanCommit_frame {ps : List Part} {r₀ : State} {complete : Bool} {ns : Nat} {s : State}
    (sub : [.stp, .evl, .pages, .regs] ⊆ ps) (h₀ : Frame ps r₀ s) :
    ∃ z, execPlanCommit complete ns s = .next z ∧ Frame ps r₀ z := by
  refine ⟨_, rfl, ?_⟩
  try dsimp only
  repeat' first
    | with_reducible assumption
    | with_reducible exact List.Subset.trans (by decide) sub
    | with_reducible apply State.bump_frame
    | with_reducible apply State.ev_frame
    | with_reducible apply State.raise_frame
    | with_reducible apply State.setStp_frame
    | with_reducible apply State.wr_frame
    | with_reducible refine Frame.ite ?_ ?_
    | dsimp only
    | split

theorem gateTick_frame {ps : List Part} {r₀ : State} {s : State}
    (sub : [.gate] ⊆ ps) (h₀ : Frame ps r₀ s) : Frame ps r₀ (gateTick s) := by
  unfold gateTick
  try dsimp only
  repeat' first
    | with_reducible assumption
    | with_reducible exact List.Subset.trans (by decide) sub
    | with_reducible apply State.setGate_frame
    | with_reducible refine Frame.ite ?_ ?_
    | dsimp only
    | split

theorem execDomainWake_frame {ps : List Part} {r₀ : State} {d : Nat} {s : State}
    (sub : [.gate] ⊆ ps) (h₀ : Frame ps r₀ s) :
    ∃ z, execDomainWake d s = .next z ∧ Frame ps r₀ z := by
  refine ⟨_, rfl, ?_⟩
  try dsimp only
  repeat' first
    | with_reducible assumption
    | with_reducible exact List.Subset.trans (by decide) sub
    | with_reducible apply State.wake_frame
    | with_reducible refine Frame.ite ?_ ?_
    | dsimp only
    | split

theorem execDomainGate_frame {ps : List Part} {r₀ : State} {d : Nat} {s : State}
    (sub : [.gate] ⊆ ps) (h₀ : Frame ps r₀ s) :
    ∃ z, execDomainGate d s = .next z ∧ Frame ps r₀ z := by
  refine ⟨_, rfl, ?_⟩
  try dsimp only
  repeat' first
    | with_reducible assumption
    | with_reducible exact List.Subset.trans (by decide) sub
    | with_reducible apply State.setGate_frame
    | with_reducible refine Frame.ite ?_ ?_
    | dsimp only
    | split

theorem execCpxFwStopped_frame {ps : List Part} {r₀ : State} {s : State}
    (sub : [.evl, .pages, .regs, .cpx] ⊆ ps) (h₀ : Frame ps r₀ s) :
    ∃ z, execCpxFwStopped s = .next z ∧ Frame ps r₀ z := by
  refine ⟨_, rfl, ?_⟩
  try dsimp only
  repeat' first
    | with_reducible assumption
    | with_reducible exact List.Subset.trans (by decide) sub
    | with_reducible apply State.ev_frame
    | with_reducible apply State.raise_frame
    | with_reducible apply State.setCpx_frame
    | with_reducible refine Frame.ite ?_ ?_
    | dsimp only
    | split

theorem execLanternTablePublish_frame {ps : List Part} {r₀ : State} {s : State}
    (sub : [.stp] ⊆ ps) (h₀ : Frame ps r₀ s) :
    ∃ z, execLanternTablePublish s = .next z ∧ Frame ps r₀ z := by
  refine ⟨_, rfl, ?_⟩
  try dsimp only
  repeat' first
    | with_reducible assumption
    | with_reducible exact List.Subset.trans (by decide) sub
    | with_reducible apply State.setStp_frame
    | with_reducible refine Frame.ite ?_ ?_
    | dsimp only
    | split

theorem execGetLogPageLantern_frame {ps : List Part} {r₀ : State} {seq off len : Nat} {s : State}
    (sub : [.ans, .qmx, .fns] ⊆ ps) (h₀ : Frame ps r₀ s) :
    ∃ z, execGetLogPageLantern seq off len s = .next z ∧ Frame ps r₀ z := by
  refine ⟨_, rfl, ?_⟩
  try dsimp only
  repeat' first
    | with_reducible assumption
    | with_reducible exact List.Subset.trans (by decide) sub
    | with_reducible apply State.finish_frame
    | with_reducible apply State.reply_frame
    | with_reducible refine State.admin_frame (fun _ => ?_) ?_
    | with_reducible refine Frame.ite ?_ ?_
    | dsimp only
    | split

theorem execLanternDatagram_frame {ps : List Part} {r₀ : State} {s : State}
    (sub : [.ans, .gate, .net, .regs] ⊆ ps) (h₀ : Frame ps r₀ s) :
    ∃ z, execLanternDatagram s = .next z ∧ Frame ps r₀ z := by
  refine ⟨_, rfl, ?_⟩
  try dsimp only
  repeat' first
    | with_reducible assumption
    | with_reducible exact List.Subset.trans (by decide) sub
    | with_reducible apply State.answer_frame
    | with_reducible apply State.setNet_frame
    | with_reducible apply State.wake_frame
    | with_reducible apply State.wr_frame
    | with_reducible refine Frame.ite ?_ ?_
    | dsimp only
    | split

end Sys2Proof.Machine
end

