-- ==== Sys2Proof/Laws/Ledger.lean ====
section
/-! SUPPORT. What each operation of Machine/Ledger.lean may change. -/

-- one proof after another: many at once would each hold a thread
set_option Elab.async false

namespace Sys2Proof.Machine

open Sys2Proof

theorem aenUpdate_frame {ps : List Part} {r₀ : State} {s : State}
    (sub : [.qmx, .fns, .evl, .pages] ⊆ ps) (h₀ : Frame ps r₀ s) : Frame ps r₀ (aenUpdate s) := by
  unfold aenUpdate
  try dsimp only
  repeat' first
    | with_reducible assumption
    | with_reducible exact List.Subset.trans (by decide) sub
    | with_reducible apply State.asyncEvent_frame
    | with_reducible apply State.ev_frame
    | with_reducible apply State.setEvl_frame
    | with_reducible refine State.setPage_keep ?_ ?_ ?_
    | exact (fun h => h : _ → _)
    | exact (fun _ => rfl : _ → _)
    | with_reducible refine Frame.ite ?_ ?_
    | dsimp only
    | split

theorem execEventRaise_frame {ps : List Part} {r₀ : State} {p code : Nat} {func : Option Nat} {payload : List (Nat × Nat)} {addr : Option Nat} {s : State}
    (sub : [.evl, .pages, .regs] ⊆ ps) (h₀ : Frame ps r₀ s) :
    ∃ z, execEventRaise p code func payload addr s = .next z ∧ Frame ps r₀ z := by
  refine ⟨_, rfl, ?_⟩
  try dsimp only
  repeat' first
    | with_reducible assumption
    | with_reducible exact List.Subset.trans (by decide) sub
    | with_reducible apply State.raiseAt_frame
    | with_reducible refine Frame.ite ?_ ?_
    | dsimp only
    | split

theorem eraseAhead_frame {ps : List Part} {r₀ : State} {s : State} {loc : Nat}
    (sub : [.evl, .pages, .regs] ⊆ ps) (h₀ : Frame ps r₀ s) : Frame ps r₀ (eraseAhead s loc) := by
  unfold eraseAhead
  try dsimp only
  repeat' first
    | with_reducible assumption
    | with_reducible exact List.Subset.trans (by decide) sub
    | with_reducible apply State.bump_frame
    | with_reducible apply State.ev_frame
    | with_reducible apply State.raise_frame
    | with_reducible apply State.setEvl_frame
    | with_reducible refine Frame.ite ?_ ?_
    | dsimp only
    | split

theorem execLedgerRecordProgram_frame {ps : List Part} {r₀ : State} {s : State}
    (sub : [.evl, .pages, .regs] ⊆ ps) (h₀ : Frame ps r₀ s) :
    ∃ z, execLedgerRecordProgram s = .next z ∧ Frame ps r₀ z := by
  refine ⟨_, rfl, ?_⟩
  try dsimp only
  repeat' first
    | with_reducible assumption
    | with_reducible exact List.Subset.trans (by decide) sub
    | with_reducible apply State.setEvl_frame
    | with_reducible apply eraseAhead_frame
    | with_reducible refine Frame.ite ?_ ?_
    | dsimp only
    | split

theorem execLedgerProgramDone_frame {ps : List Part} {r₀ : State} {ok : Bool} {s : State}
    (sub : [.qmx, .fns, .evl, .pages, .regs] ⊆ ps) (h₀ : Frame ps r₀ s) :
    ∃ z, execLedgerProgramDone ok s = .next z ∧ Frame ps r₀ z := by
  refine ⟨_, rfl, ?_⟩
  try dsimp only
  repeat' first
    | with_reducible assumption
    | with_reducible exact List.Subset.trans (by decide) sub
    | with_reducible apply State.bump_frame
    | with_reducible apply State.ev_frame
    | with_reducible apply State.setEvl_frame
    | with_reducible apply aenUpdate_frame
    | with_reducible refine Frame.foldlFst (fun _ _ _ => ?_) ?_
    | with_reducible refine Frame.foldl (fun _ _ _ => ?_) ?_
    | with_reducible refine Frame.ite ?_ ?_
    | dsimp only
    | split

theorem execLedgerSectorEraseDone_frame {ps : List Part} {r₀ : State} {s : State}
    (sub : [.evl] ⊆ ps) (h₀ : Frame ps r₀ s) :
    ∃ z, execLedgerSectorEraseDone s = .next z ∧ Frame ps r₀ z := by
  refine ⟨_, rfl, ?_⟩
  try dsimp only
  repeat' first
    | with_reducible assumption
    | with_reducible exact List.Subset.trans (by decide) sub
    | with_reducible apply State.setEvl_frame
    | dsimp only
    | split

theorem State.setWindow_frame {ps : List Part} {r₀ : State} {s : State} {p : Path} {w : Window}
    (sub : [.evl] ⊆ ps) (h₀ : Frame ps r₀ s) : Frame ps r₀ (State.setWindow s p w) := by
  unfold State.setWindow
  try dsimp only
  repeat' first
    | with_reducible assumption
    | with_reducible exact List.Subset.trans (by decide) sub
    | with_reducible apply State.setEvl_frame
    | dsimp only
    | split

theorem execWindowLoad_frame {ps : List Part} {r₀ : State} {p : Path} {s : State}
    (sub : [.evl] ⊆ ps) (h₀ : Frame ps r₀ s) :
    ∃ z, execWindowLoad p s = .next z ∧ Frame ps r₀ z := by
  refine ⟨_, rfl, ?_⟩
  try dsimp only
  repeat' first
    | with_reducible assumption
    | with_reducible exact List.Subset.trans (by decide) sub
    | with_reducible apply State.setWindow_frame
    | dsimp only
    | split

theorem execWindowNext_frame {ps : List Part} {r₀ : State} {p : Path} {s : State}
    (sub : [.evl] ⊆ ps) (h₀ : Frame ps r₀ s) :
    ∃ z, execWindowNext p s = .next z ∧ Frame ps r₀ z := by
  refine ⟨_, rfl, ?_⟩
  try dsimp only
  repeat' first
    | with_reducible assumption
    | with_reducible exact List.Subset.trans (by decide) sub
    | with_reducible apply State.setWindow_frame
    | dsimp only
    | split

theorem execWindowResult_frame {ps : List Part} {r₀ : State} {p : Path} {s : State}
    (sub : [.evl] ⊆ ps) (h₀ : Frame ps r₀ s) :
    ∃ z, execWindowResult p s = .next z ∧ Frame ps r₀ z := by
  refine ⟨_, rfl, ?_⟩
  try dsimp only
  repeat' first
    | with_reducible assumption
    | with_reducible exact List.Subset.trans (by decide) sub
    | with_reducible apply State.setWindow_frame
    | dsimp only
    | split

theorem execWatermarkWrite_frame {ps : List Part} {r₀ : State} {p : Path} {lo : Dword} {s : State}
    (sub : [.qmx, .fns, .evl, .pages] ⊆ ps) (h₀ : Frame ps r₀ s) :
    ∃ z, execWatermarkWrite p lo s = .next z ∧ Frame ps r₀ z := by
  refine ⟨_, rfl, ?_⟩
  try dsimp only
  repeat' first
    | with_reducible assumption
    | with_reducible exact List.Subset.trans (by decide) sub
    | with_reducible apply State.setEvl_frame
    | with_reducible apply aenUpdate_frame
    | with_reducible refine Frame.ite ?_ ?_
    | dsimp only
    | split

theorem wmarkRecord_frame {ps : List Part} {r₀ : State} {s : State}
    (sub : [.evl, .pages, .regs] ⊆ ps) (h₀ : Frame ps r₀ s) : Frame ps r₀ (wmarkRecord s) := by
  unfold wmarkRecord
  try dsimp only
  repeat' first
    | with_reducible assumption
    | with_reducible exact List.Subset.trans (by decide) sub
    | with_reducible apply State.raise_frame
    | with_reducible apply State.setEvl_frame
    | dsimp only
    | split

theorem execEvlWmark_frame {ps : List Part} {r₀ : State} {s : State}
    (sub : [.evl, .pages, .regs] ⊆ ps) (h₀ : Frame ps r₀ s) :
    ∃ z, execEvlWmark s = .next z ∧ Frame ps r₀ z := by
  refine ⟨_, rfl, ?_⟩
  try dsimp only
  split
  all_goals repeat' first
    | with_reducible assumption
    | with_reducible exact List.Subset.trans (by decide) sub
    | with_reducible apply wmarkRecord_frame
    | with_reducible refine Frame.ite ?_ ?_
    | dsimp only
    | split

theorem execEvlNewestLoRead_frame {ps : List Part} {r₀ : State} {p : Path} {s : State}
    (sub : [.ans, .gate, .paths] ⊆ ps) (h₀ : Frame ps r₀ s) :
    ∃ z, execEvlNewestLoRead p s = .next z ∧ Frame ps r₀ z := by
  refine ⟨_, rfl, ?_⟩
  try dsimp only
  repeat' first
    | with_reducible assumption
    | with_reducible exact List.Subset.trans (by decide) sub
    | with_reducible apply State.answer_frame
    | with_reducible apply State.latch_frame
    | dsimp only
    | split

theorem execEvlOldestLoRead_frame {ps : List Part} {r₀ : State} {p : Path} {s : State}
    (sub : [.ans, .gate, .paths] ⊆ ps) (h₀ : Frame ps r₀ s) :
    ∃ z, execEvlOldestLoRead p s = .next z ∧ Frame ps r₀ z := by
  refine ⟨_, rfl, ?_⟩
  try dsimp only
  repeat' first
    | with_reducible assumption
    | with_reducible exact List.Subset.trans (by decide) sub
    | with_reducible apply State.answer_frame
    | with_reducible apply State.latch_frame
    | dsimp only
    | split

theorem execGetLogPageLedger_frame {ps : List Part} {r₀ : State} {seq off len : Nat} {s : State}
    (sub : [.ans, .qmx, .fns] ⊆ ps) (h₀ : Frame ps r₀ s) :
    ∃ z, execGetLogPageLedger seq off len s = .next z ∧ Frame ps r₀ z := by
  refine ⟨_, rfl, ?_⟩
  try dsimp only
  repeat' first
    | with_reducible assumption
    | with_reducible exact List.Subset.trans (by decide) sub
    | with_reducible apply State.finish_frame
    | with_reducible apply State.reply_frame
    | with_reducible refine State.admin_frame (fun _ => ?_) ?_
    | with_reducible refine Frame.ite ?_ ?_
    | dsimp only
    | split

theorem execGetLogPageLedgerSummary_frame {ps : List Part} {r₀ : State} {seq len : Nat} {s : State}
    (sub : [.ans, .qmx, .fns] ⊆ ps) (h₀ : Frame ps r₀ s) :
    ∃ z, execGetLogPageLedgerSummary seq len s = .next z ∧ Frame ps r₀ z := by
  refine ⟨_, rfl, ?_⟩
  try dsimp only
  repeat' first
    | with_reducible assumption
    | with_reducible exact List.Subset.trans (by decide) sub
    | with_reducible apply State.finish_frame
    | with_reducible apply State.reply_frame
    | with_reducible refine State.admin_frame (fun _ => ?_) ?_
    | with_reducible refine Frame.ite ?_ ?_
    | dsimp only
    | split

theorem bucketSummary_frame {ps : List Part} {r₀ : State} {s : State} {k : Nat}
    (sub : [.evl] ⊆ ps) (h₀ : Frame ps r₀ s) : Frame ps r₀ (bucketSummary s k) := by
  unfold bucketSummary
  try dsimp only
  repeat' first
    | with_reducible assumption
    | with_reducible exact List.Subset.trans (by decide) sub
    | with_reducible apply State.setBucket_frame
    | with_reducible apply State.setEvl_frame
    | with_reducible refine Frame.ite ?_ ?_
    | dsimp only
    | split

theorem ledgerSecond_frame {ps : List Part} {r₀ : State} {s : State}
    (sub : [.evl] ⊆ ps) (h₀ : Frame ps r₀ s) : Frame ps r₀ (ledgerSecond s) := by
  unfold ledgerSecond
  try dsimp only
  repeat' first
    | with_reducible assumption
    | with_reducible exact List.Subset.trans (by decide) sub
    | with_reducible apply State.setEvl_frame
    | with_reducible apply bucketSummary_frame
    | with_reducible refine Frame.foldlFst (fun _ _ _ => ?_) ?_
    | with_reducible refine Frame.foldl (fun _ _ _ => ?_) ?_
    | dsimp only
    | split

end Sys2Proof.Machine
end

