-- ==== Sys2Proof/Laws/Intake.lean ====
section
/-! SUPPORT. What each operation of Machine/Intake.lean may change. -/

-- one proof after another: many at once would each hold a thread
set_option Elab.async false

namespace Sys2Proof.Machine

open Sys2Proof

theorem badDoorbell_frame {ps : List Part} {r₀ : State} {s : State} {f info : Nat}
    (sub : [.qmx, .fns, .pages, .regs] ⊆ ps) (h₀ : Frame ps r₀ s) : Frame ps r₀ (badDoorbell s f info) := by
  unfold badDoorbell
  try dsimp only
  repeat' first
    | with_reducible assumption
    | with_reducible exact List.Subset.trans (by decide) sub
    | with_reducible apply State.asyncEvent_frame
    | with_reducible apply State.bump_frame
    | with_reducible apply State.ev_frame
    | dsimp only
    | split

theorem leaveLowPower_frame {ps : List Part} {r₀ : State} {s : State}
    (sub : [.thm, .pages] ⊆ ps) (h₀ : Frame ps r₀ s) : Frame ps r₀ (leaveLowPower s) := by
  unfold leaveLowPower
  try dsimp only
  repeat' first
    | with_reducible assumption
    | with_reducible exact List.Subset.trans (by decide) sub
    | with_reducible apply State.ev_frame
    | with_reducible apply State.setThm_frame
    | with_reducible refine Frame.ite ?_ ?_
    | dsimp only
    | split

theorem ringWake_frame {ps : List Part} {r₀ : State} {s : State}
    (sub : [.thm, .pages] ⊆ ps) (h₀ : Frame ps r₀ s) : Frame ps r₀ (ringWake s) := by
  unfold ringWake
  try dsimp only
  repeat' first
    | with_reducible assumption
    | with_reducible exact List.Subset.trans (by decide) sub
    | with_reducible apply leaveLowPower_frame
    | with_reducible refine Frame.ite ?_ ?_
    | dsimp only
    | split

theorem execSqTailDoorbell_frame {ps : List Part} {r₀ : State} {f qid val : Nat} {s : State}
    (sub : [.gate, .qmx, .fns, .thm, .pages, .regs] ⊆ ps) (h₀ : Frame ps r₀ s) :
    ∃ z, execSqTailDoorbell f qid val s = .next z ∧ Frame ps r₀ z := by
  refine ⟨_, rfl, ?_⟩
  try dsimp only
  repeat' first
    | with_reducible assumption
    | with_reducible exact List.Subset.trans (by decide) sub
    | with_reducible apply State.setFn_frame
    | with_reducible apply State.wake_frame
    | with_reducible apply badDoorbell_frame
    | with_reducible apply ringWake_frame
    | with_reducible refine Frame.ite ?_ ?_
    | dsimp only
    | split

theorem deletesDone_frame {ps : List Part} {r₀ : State} {s : State} {f : Nat}
    (sub : [.qmx, .fns] ⊆ ps) (h₀ : Frame ps r₀ s) : Frame ps r₀ (deletesDone s f) := by
  unfold deletesDone
  try dsimp only
  repeat' first
    | with_reducible assumption
    | with_reducible exact List.Subset.trans (by decide) sub
    | with_reducible apply State.finish_frame
    | with_reducible apply State.setQmx_frame
    | with_reducible refine Frame.foldlFst (fun _ _ _ => ?_) ?_
    | with_reducible refine Frame.foldl (fun _ _ _ => ?_) ?_
    | with_reducible refine Frame.ite ?_ ?_
    | dsimp only
    | split

theorem releaseCq_frame {ps : List Part} {r₀ : State} {s : State} {f qid val n : Nat} {q : Cq}
    (sub : [.qmx, .fns] ⊆ ps) (h₀ : Frame ps r₀ s) : Frame ps r₀ (releaseCq s f qid val n q) := by
  unfold releaseCq
  try dsimp only
  repeat' first
    | with_reducible assumption
    | with_reducible exact List.Subset.trans (by decide) sub
    | with_reducible apply State.entryWritten_frame
    | with_reducible apply State.updFn_frame
    | with_reducible apply deletesDone_frame
    | with_reducible refine Frame.foldlFst (fun _ _ _ => ?_) ?_
    | with_reducible refine Frame.foldl (fun _ _ _ => ?_) ?_
    | dsimp only
    | split

theorem execCqHeadDoorbell_frame {ps : List Part} {r₀ : State} {f qid val : Nat} {s : State}
    (sub : [.gate, .qmx, .fns, .thm, .pages, .regs] ⊆ ps) (h₀ : Frame ps r₀ s) :
    ∃ z, execCqHeadDoorbell f qid val s = .next z ∧ Frame ps r₀ z := by
  refine ⟨_, rfl, ?_⟩
  try dsimp only
  repeat' first
    | with_reducible assumption
    | with_reducible exact List.Subset.trans (by decide) sub
    | with_reducible apply State.wake_frame
    | with_reducible apply badDoorbell_frame
    | with_reducible apply releaseCq_frame
    | with_reducible apply ringWake_frame
    | with_reducible refine Frame.ite ?_ ?_
    | dsimp only
    | split

theorem execCqStall_frame {ps : List Part} {r₀ : State} {f qid : Nat} {s : State}
    (sub : [.fns, .evl, .pages, .regs] ⊆ ps) (h₀ : Frame ps r₀ s) :
    ∃ z, execCqStall f qid s = .next z ∧ Frame ps r₀ z := by
  refine ⟨_, rfl, ?_⟩
  try dsimp only
  repeat' first
    | with_reducible assumption
    | with_reducible exact List.Subset.trans (by decide) sub
    | with_reducible apply State.ev_frame
    | with_reducible apply State.raise_frame
    | with_reducible apply State.setFn_frame
    | with_reducible refine Frame.ite ?_ ?_
    | dsimp only
    | split

theorem takeEntry_frame {ps : List Part} {r₀ : State} {s : State} {f qid cid : Nat} {q : Sq}
    (sub : [.fns, .net] ⊆ ps) (h₀ : Frame ps r₀ s) : Frame ps r₀ (takeEntry s f qid cid q) := by
  unfold takeEntry
  try dsimp only
  repeat' first
    | with_reducible assumption
    | with_reducible exact List.Subset.trans (by decide) sub
    | with_reducible apply State.setNet_frame
    | with_reducible apply State.updFn_frame
    | dsimp only
    | split

theorem execCommandFetch_frame {ps : List Part} {r₀ : State} {f qid cid op n : Nat} {s : State}
    (sub : [.gate, .qmx, .fns, .net, .thm, .pages] ⊆ ps) (h : Frame ps r₀ s) :
    ∃ z, execCommandFetch f qid cid op n s = .next z ∧ Frame ps r₀ z := by
  refine ⟨_, rfl, ?_⟩
  dsimp only
  split
  · exact h
  · next q e =>
    refine Frame.ite h (Frame.ite (State.setFn_frame (List.Subset.trans (by decide) sub) h) ?_)
    have k : Frame ps r₀ (takeEntry (s.wake (requestDomains s f)) f qid cid q) :=
      takeEntry_frame (List.Subset.trans (by decide) sub) (State.wake_frame (List.Subset.trans (by decide) sub) h)
    generalize takeEntry (s.wake (requestDomains s f)) f qid cid q = u at k
    generalize newCmd s f qid cid (fetchGait s f qid cid) op n = c
    have k' : Frame ps r₀ (u.setQmx { u.qmx with cmds := u.qmx.cmds ++ [c], nextSeq := c.seq + 1 }) :=
      Frame.qmxSet (sub (by decide)) k
    exact Frame.ite (Frame.ite (leaveLowPower_frame (List.Subset.trans (by decide) sub) k') k')
      (leaveLowPower_frame (List.Subset.trans (by decide) sub)
        (State.updFn_frame (List.Subset.trans (by decide) sub) k'))

theorem execCreateIoCq_frame {ps : List Part} {r₀ : State} {seq qid size base vector : Nat} {pc ien : Bool} {s : State}
    (sub : [.qmx, .fns] ⊆ ps) (h₀ : Frame ps r₀ s) :
    ∃ z, execCreateIoCq seq qid size base vector pc ien s = .next z ∧ Frame ps r₀ z := by
  refine ⟨_, rfl, ?_⟩
  try dsimp only
  repeat' first
    | with_reducible assumption
    | with_reducible exact List.Subset.trans (by decide) sub
    | with_reducible apply State.finish_frame
    | with_reducible apply State.setFn_frame
    | with_reducible refine State.admin_frame (fun _ => ?_) ?_
    | with_reducible refine Frame.ite ?_ ?_
    | dsimp only
    | split

theorem execCreateIoSq_frame {ps : List Part} {r₀ : State} {seq qid size base cqid : Nat} {pc : Bool} {s : State}
    (sub : [.qmx, .fns] ⊆ ps) (h₀ : Frame ps r₀ s) :
    ∃ z, execCreateIoSq seq qid size base cqid pc s = .next z ∧ Frame ps r₀ z := by
  refine ⟨_, rfl, ?_⟩
  try dsimp only
  repeat' first
    | with_reducible assumption
    | with_reducible exact List.Subset.trans (by decide) sub
    | with_reducible apply State.finish_frame
    | with_reducible apply State.setFn_frame
    | with_reducible refine State.admin_frame (fun _ => ?_) ?_
    | with_reducible refine Frame.ite ?_ ?_
    | dsimp only
    | split

theorem execDeleteIoSq_frame {ps : List Part} {r₀ : State} {seq qid : Nat} {s : State}
    (sub : [.qmx, .fns] ⊆ ps) (h₀ : Frame ps r₀ s) :
    ∃ z, execDeleteIoSq seq qid s = .next z ∧ Frame ps r₀ z := by
  refine ⟨_, rfl, ?_⟩
  try dsimp only
  repeat' first
    | with_reducible assumption
    | with_reducible exact List.Subset.trans (by decide) sub
    | with_reducible apply State.finish_frame
    | with_reducible apply State.hold_frame
    | with_reducible apply State.setQmx_frame
    | with_reducible refine State.admin_frame (fun _ => ?_) ?_
    | with_reducible refine Frame.ite ?_ ?_
    | dsimp only
    | split

theorem execDeleteIoCq_frame {ps : List Part} {r₀ : State} {seq qid : Nat} {s : State}
    (sub : [.qmx, .fns] ⊆ ps) (h₀ : Frame ps r₀ s) :
    ∃ z, execDeleteIoCq seq qid s = .next z ∧ Frame ps r₀ z := by
  refine ⟨_, rfl, ?_⟩
  try dsimp only
  repeat' first
    | with_reducible assumption
    | with_reducible exact List.Subset.trans (by decide) sub
    | with_reducible apply State.finish_frame
    | with_reducible apply State.setFn_frame
    | with_reducible refine State.admin_frame (fun _ => ?_) ?_
    | with_reducible refine Frame.ite ?_ ?_
    | dsimp only
    | split

theorem execAbort_frame {ps : List Part} {r₀ : State} {seq : Nat} {s : State}
    (sub : [.qmx, .fns] ⊆ ps) (h₀ : Frame ps r₀ s) :
    ∃ z, execAbort seq s = .next z ∧ Frame ps r₀ z := by
  refine ⟨_, rfl, ?_⟩
  try dsimp only
  repeat' first
    | with_reducible assumption
    | with_reducible exact List.Subset.trans (by decide) sub
    | with_reducible apply State.complete_frame
    | with_reducible refine State.admin_frame (fun _ => ?_) ?_
    | with_reducible refine Frame.ite ?_ ?_
    | dsimp only
    | split

theorem absentAdmin_frame {ps : List Part} {r₀ : State} {seq : Nat} {s : State}
    (sub : [.qmx, .fns] ⊆ ps) (h₀ : Frame ps r₀ s) : Frame ps r₀ (absentAdmin seq s) := by
  unfold absentAdmin
  try dsimp only
  repeat' first
    | with_reducible assumption
    | with_reducible exact List.Subset.trans (by decide) sub
    | with_reducible apply State.finish_frame
    | with_reducible refine State.admin_frame (fun _ => ?_) ?_
    | dsimp only
    | split

theorem absentIo_frame {ps : List Part} {r₀ : State} {seq op : Nat} {s : State}
    (sub : [.qmx, .fns] ⊆ ps) (h₀ : Frame ps r₀ s) : Frame ps r₀ (absentIo seq op s) := by
  unfold absentIo
  try dsimp only
  repeat' first
    | with_reducible assumption
    | with_reducible exact List.Subset.trans (by decide) sub
    | with_reducible apply State.finish_frame
    | with_reducible refine State.ioCmd_frame (fun _ => ?_) ?_
    | dsimp only
    | split

theorem execDirectiveSend_frame {ps : List Part} {r₀ : State} {seq : Nat} {s : State}
    (sub : [.qmx, .fns] ⊆ ps) (h₀ : Frame ps r₀ s) :
    ∃ z, execDirectiveSend seq s = .next z ∧ Frame ps r₀ z := by
  refine ⟨_, rfl, ?_⟩
  try dsimp only
  repeat' first
    | with_reducible assumption
    | with_reducible exact List.Subset.trans (by decide) sub
    | with_reducible apply absentAdmin_frame
    | dsimp only
    | split

theorem execDirectiveReceive_frame {ps : List Part} {r₀ : State} {seq : Nat} {s : State}
    (sub : [.qmx, .fns] ⊆ ps) (h₀ : Frame ps r₀ s) :
    ∃ z, execDirectiveReceive seq s = .next z ∧ Frame ps r₀ z := by
  refine ⟨_, rfl, ?_⟩
  try dsimp only
  repeat' first
    | with_reducible assumption
    | with_reducible exact List.Subset.trans (by decide) sub
    | with_reducible apply absentAdmin_frame
    | dsimp only
    | split

theorem execDoorbellBufferConfig_frame {ps : List Part} {r₀ : State} {seq : Nat} {s : State}
    (sub : [.qmx, .fns] ⊆ ps) (h₀ : Frame ps r₀ s) :
    ∃ z, execDoorbellBufferConfig seq s = .next z ∧ Frame ps r₀ z := by
  refine ⟨_, rfl, ?_⟩
  try dsimp only
  repeat' first
    | with_reducible assumption
    | with_reducible exact List.Subset.trans (by decide) sub
    | with_reducible apply absentAdmin_frame
    | dsimp only
    | split

theorem execGetLbaStatus_frame {ps : List Part} {r₀ : State} {seq : Nat} {s : State}
    (sub : [.qmx, .fns] ⊆ ps) (h₀ : Frame ps r₀ s) :
    ∃ z, execGetLbaStatus seq s = .next z ∧ Frame ps r₀ z := by
  refine ⟨_, rfl, ?_⟩
  try dsimp only
  repeat' first
    | with_reducible assumption
    | with_reducible exact List.Subset.trans (by decide) sub
    | with_reducible apply absentAdmin_frame
    | dsimp only
    | split

theorem execUnusedVendorOpcode_frame {ps : List Part} {r₀ : State} {seq : Nat} {s : State}
    (sub : [.qmx, .fns] ⊆ ps) (h₀ : Frame ps r₀ s) :
    ∃ z, execUnusedVendorOpcode seq s = .next z ∧ Frame ps r₀ z := by
  refine ⟨_, rfl, ?_⟩
  try dsimp only
  repeat' first
    | with_reducible assumption
    | with_reducible exact List.Subset.trans (by decide) sub
    | with_reducible apply absentAdmin_frame
    | dsimp only
    | split

theorem execReservationRegister_frame {ps : List Part} {r₀ : State} {seq : Nat} {s : State}
    (sub : [.qmx, .fns] ⊆ ps) (h₀ : Frame ps r₀ s) :
    ∃ z, execReservationRegister seq s = .next z ∧ Frame ps r₀ z := by
  refine ⟨_, rfl, ?_⟩
  try dsimp only
  repeat' first
    | with_reducible assumption
    | with_reducible exact List.Subset.trans (by decide) sub
    | with_reducible apply absentIo_frame
    | dsimp only
    | split

theorem execReservationReport_frame {ps : List Part} {r₀ : State} {seq : Nat} {s : State}
    (sub : [.qmx, .fns] ⊆ ps) (h₀ : Frame ps r₀ s) :
    ∃ z, execReservationReport seq s = .next z ∧ Frame ps r₀ z := by
  refine ⟨_, rfl, ?_⟩
  try dsimp only
  repeat' first
    | with_reducible assumption
    | with_reducible exact List.Subset.trans (by decide) sub
    | with_reducible apply absentIo_frame
    | dsimp only
    | split

theorem execReservationAcquire_frame {ps : List Part} {r₀ : State} {seq : Nat} {s : State}
    (sub : [.qmx, .fns] ⊆ ps) (h₀ : Frame ps r₀ s) :
    ∃ z, execReservationAcquire seq s = .next z ∧ Frame ps r₀ z := by
  refine ⟨_, rfl, ?_⟩
  try dsimp only
  repeat' first
    | with_reducible assumption
    | with_reducible exact List.Subset.trans (by decide) sub
    | with_reducible apply absentIo_frame
    | dsimp only
    | split

theorem execReservationRelease_frame {ps : List Part} {r₀ : State} {seq : Nat} {s : State}
    (sub : [.qmx, .fns] ⊆ ps) (h₀ : Frame ps r₀ s) :
    ∃ z, execReservationRelease seq s = .next z ∧ Frame ps r₀ z := by
  refine ⟨_, rfl, ?_⟩
  try dsimp only
  repeat' first
    | with_reducible assumption
    | with_reducible exact List.Subset.trans (by decide) sub
    | with_reducible apply absentIo_frame
    | dsimp only
    | split

theorem execCopy_frame {ps : List Part} {r₀ : State} {seq : Nat} {s : State}
    (sub : [.qmx, .fns] ⊆ ps) (h₀ : Frame ps r₀ s) :
    ∃ z, execCopy seq s = .next z ∧ Frame ps r₀ z := by
  refine ⟨_, rfl, ?_⟩
  try dsimp only
  repeat' first
    | with_reducible assumption
    | with_reducible exact List.Subset.trans (by decide) sub
    | with_reducible apply absentIo_frame
    | dsimp only
    | split

theorem execAsynchronousEventRequest_frame {ps : List Part} {r₀ : State} {seq : Nat} {s : State}
    (sub : [.qmx, .fns, .evl] ⊆ ps) (h₀ : Frame ps r₀ s) :
    ∃ z, execAsynchronousEventRequest seq s = .next z ∧ Frame ps r₀ z := by
  refine ⟨_, rfl, ?_⟩
  try dsimp only
  repeat' first
    | with_reducible assumption
    | with_reducible exact List.Subset.trans (by decide) sub
    | with_reducible apply State.complete_frame
    | with_reducible apply State.finish_frame
    | with_reducible apply State.hold_frame
    | with_reducible apply State.setEvl_frame
    | with_reducible apply State.setFn_frame
    | with_reducible refine State.admin_frame (fun _ => ?_) ?_
    | with_reducible refine Frame.ite ?_ ?_
    | dsimp only
    | split

theorem State.feat_frame {ps : List Part} {r₀ : State} {s : State} {f fid : Nat} {v : Dword}
    (sub : [.fns] ⊆ ps) (h₀ : Frame ps r₀ s) : Frame ps r₀ (State.feat s f fid v) := by
  unfold State.feat
  try dsimp only
  repeat' first
    | with_reducible assumption
    | with_reducible exact List.Subset.trans (by decide) sub
    | with_reducible apply State.updFn_frame
    | dsimp only
    | split

theorem execSetFeatures_frame {ps : List Part} {r₀ : State} {seq fid : Nat} {v : Dword} {s : State}
    (sub : [.qmx, .fns] ⊆ ps) (h₀ : Frame ps r₀ s) :
    ∃ z, execSetFeatures seq fid v s = .next z ∧ Frame ps r₀ z := by
  refine ⟨_, rfl, ?_⟩
  try dsimp only
  repeat' first
    | with_reducible assumption
    | with_reducible exact List.Subset.trans (by decide) sub
    | with_reducible apply State.feat_frame
    | with_reducible apply State.finish_frame
    | with_reducible refine State.admin_frame (fun _ => ?_) ?_
    | with_reducible refine Frame.ite ?_ ?_
    | dsimp only
    | split

theorem execSetFeaturesArbitration_frame {ps : List Part} {r₀ : State} {seq : Nat} {v : Dword} {s : State}
    (sub : [.qmx, .fns] ⊆ ps) (h₀ : Frame ps r₀ s) :
    ∃ z, execSetFeaturesArbitration seq v s = .next z ∧ Frame ps r₀ z := by
  refine ⟨_, rfl, ?_⟩
  try dsimp only
  repeat' first
    | with_reducible assumption
    | with_reducible exact List.Subset.trans (by decide) sub
    | with_reducible apply State.feat_frame
    | with_reducible apply State.finish_frame
    | with_reducible refine State.admin_frame (fun _ => ?_) ?_
    | dsimp only
    | split

theorem execSetFeaturesVolatileWriteCache_frame {ps : List Part} {r₀ : State} {seq : Nat} {wce : Bool} {s : State}
    (sub : [.qmx, .fns] ⊆ ps) (h₀ : Frame ps r₀ s) :
    ∃ z, execSetFeaturesVolatileWriteCache seq wce s = .next z ∧ Frame ps r₀ z := by
  refine ⟨_, rfl, ?_⟩
  try dsimp only
  repeat' first
    | with_reducible assumption
    | with_reducible exact List.Subset.trans (by decide) sub
    | with_reducible apply State.feat_frame
    | with_reducible apply State.finish_frame
    | with_reducible refine State.admin_frame (fun _ => ?_) ?_
    | with_reducible refine Frame.ite ?_ ?_
    | dsimp only
    | split

theorem execSetFeaturesNumberOfQueues_frame {ps : List Part} {r₀ : State} {seq nsq ncq : Nat} {s : State}
    (sub : [.qmx, .fns] ⊆ ps) (h₀ : Frame ps r₀ s) :
    ∃ z, execSetFeaturesNumberOfQueues seq nsq ncq s = .next z ∧ Frame ps r₀ z := by
  refine ⟨_, rfl, ?_⟩
  try dsimp only
  repeat' first
    | with_reducible assumption
    | with_reducible exact List.Subset.trans (by decide) sub
    | with_reducible apply State.complete_frame
    | with_reducible apply State.feat_frame
    | with_reducible apply State.finish_frame
    | with_reducible refine State.admin_frame (fun _ => ?_) ?_
    | with_reducible refine Frame.ite ?_ ?_
    | dsimp only
    | split

theorem State.updAssoc_frame {ps : List Part} {r₀ : State} {s : State} {f : Nat} {g : Assoc → Assoc}
    (sub : [.net] ⊆ ps) (h₀ : Frame ps r₀ s) : Frame ps r₀ (State.updAssoc s f g) := by
  unfold State.updAssoc
  try dsimp only
  repeat' first
    | with_reducible assumption
    | with_reducible exact List.Subset.trans (by decide) sub
    | with_reducible apply State.setNet_frame
    | with_reducible refine Frame.ite ?_ ?_
    | dsimp only
    | split

theorem execSetFeaturesKeepAliveTimer_frame {ps : List Part} {r₀ : State} {seq ms : Nat} {s : State}
    (sub : [.qmx, .fns, .net] ⊆ ps) (h₀ : Frame ps r₀ s) :
    ∃ z, execSetFeaturesKeepAliveTimer seq ms s = .next z ∧ Frame ps r₀ z := by
  refine ⟨_, rfl, ?_⟩
  try dsimp only
  repeat' first
    | with_reducible assumption
    | with_reducible exact List.Subset.trans (by decide) sub
    | with_reducible apply State.finish_frame
    | with_reducible apply State.updAssoc_frame
    | with_reducible refine State.admin_frame (fun _ => ?_) ?_
    | with_reducible refine Frame.ite ?_ ?_
    | dsimp only
    | split

theorem execKeepAlive_frame {ps : List Part} {r₀ : State} {seq : Nat} {s : State}
    (sub : [.qmx, .fns, .net] ⊆ ps) (h₀ : Frame ps r₀ s) :
    ∃ z, execKeepAlive seq s = .next z ∧ Frame ps r₀ z := by
  refine ⟨_, rfl, ?_⟩
  try dsimp only
  repeat' first
    | with_reducible assumption
    | with_reducible exact List.Subset.trans (by decide) sub
    | with_reducible apply State.finish_frame
    | with_reducible apply State.updAssoc_frame
    | with_reducible refine State.admin_frame (fun _ => ?_) ?_
    | with_reducible refine Frame.ite ?_ ?_
    | dsimp only
    | split

theorem execGetFeatures_frame {ps : List Part} {r₀ : State} {seq fid : Nat} {dw11 : Dword} {s : State}
    (sub : [.qmx, .fns] ⊆ ps) (h₀ : Frame ps r₀ s) :
    ∃ z, execGetFeatures seq fid dw11 s = .next z ∧ Frame ps r₀ z := by
  refine ⟨_, rfl, ?_⟩
  try dsimp only
  repeat' first
    | with_reducible assumption
    | with_reducible exact List.Subset.trans (by decide) sub
    | with_reducible apply State.complete_frame
    | with_reducible apply State.finish_frame
    | with_reducible refine State.admin_frame (fun _ => ?_) ?_
    | with_reducible refine Frame.ite ?_ ?_
    | dsimp only
    | split

end Sys2Proof.Machine
end

