-- ==== Sys2Proof/Laws/Io.lean ====
section
/-! SUPPORT. What each operation of Machine/Io.lean may change. -/

-- one proof after another: many at once would each hold a thread
set_option Elab.async false

namespace Sys2Proof.Machine

open Sys2Proof

theorem ioTake_frame {ps : List Part} {r₀ : State} {s : State} {seq op nsid lba n : Nat} {limit change : Bool} {body : Space → Except Status IoBody}
    (sub : [.qmx, .fns] ⊆ ps) (h₀ : Frame ps r₀ s) : Frame ps r₀ (ioTake s seq op nsid lba n limit change body) := by
  unfold ioTake
  try dsimp only
  repeat' first
    | with_reducible assumption
    | with_reducible exact List.Subset.trans (by decide) sub
    | with_reducible apply State.finish_frame
    | with_reducible apply State.updCmd_frame
    | with_reducible refine State.ioCmd_frame (fun _ => ?_) ?_
    | with_reducible refine Frame.ite ?_ ?_
    | dsimp only
    | split

theorem execWrite_frame {ps : List Part} {r₀ : State} {seq nsid lba : Nat} {fua : Bool} {handle : Option Nat} {data : List Block} {metas : List (BitVec 128)} {s : State}
    (sub : [.qmx, .fns] ⊆ ps) (h₀ : Frame ps r₀ s) :
    ∃ z, execWrite seq nsid lba fua handle data metas s = .next z ∧ Frame ps r₀ z := by
  refine ⟨_, rfl, ?_⟩
  try dsimp only
  repeat' first
    | with_reducible assumption
    | with_reducible exact List.Subset.trans (by decide) sub
    | with_reducible apply ioTake_frame
    | with_reducible refine Frame.ite ?_ ?_
    | dsimp only
    | split

theorem execZoneAppend_frame {ps : List Part} {r₀ : State} {seq nsid zslba : Nat} {fua : Bool} {data : List Block} {metas : List (BitVec 128)} {s : State}
    (sub : [.qmx, .fns] ⊆ ps) (h₀ : Frame ps r₀ s) :
    ∃ z, execZoneAppend seq nsid zslba fua data metas s = .next z ∧ Frame ps r₀ z := by
  refine ⟨_, rfl, ?_⟩
  try dsimp only
  repeat' first
    | with_reducible assumption
    | with_reducible exact List.Subset.trans (by decide) sub
    | with_reducible apply ioTake_frame
    | with_reducible refine Frame.ite ?_ ?_
    | dsimp only
    | split

theorem execWriteZeroes_frame {ps : List Part} {r₀ : State} {seq nsid lba nlb : Nat} {deac fua : Bool} {s : State}
    (sub : [.qmx, .fns] ⊆ ps) (h₀ : Frame ps r₀ s) :
    ∃ z, execWriteZeroes seq nsid lba nlb deac fua s = .next z ∧ Frame ps r₀ z := by
  refine ⟨_, rfl, ?_⟩
  try dsimp only
  repeat' first
    | with_reducible assumption
    | with_reducible exact List.Subset.trans (by decide) sub
    | with_reducible apply ioTake_frame
    | with_reducible refine Frame.ite ?_ ?_
    | dsimp only
    | split

theorem execWriteUncorrectable_frame {ps : List Part} {r₀ : State} {seq nsid lba nlb : Nat} {s : State}
    (sub : [.qmx, .fns] ⊆ ps) (h₀ : Frame ps r₀ s) :
    ∃ z, execWriteUncorrectable seq nsid lba nlb s = .next z ∧ Frame ps r₀ z := by
  refine ⟨_, rfl, ?_⟩
  try dsimp only
  repeat' first
    | with_reducible assumption
    | with_reducible exact List.Subset.trans (by decide) sub
    | with_reducible apply ioTake_frame
    | with_reducible refine Frame.ite ?_ ?_
    | dsimp only
    | split

theorem execDatasetManagement_frame {ps : List Part} {r₀ : State} {seq nsid : Nat} {deallocate : Bool} {ranges : List (Nat × Nat)} {s : State}
    (sub : [.qmx, .fns] ⊆ ps) (h₀ : Frame ps r₀ s) :
    ∃ z, execDatasetManagement seq nsid deallocate ranges s = .next z ∧ Frame ps r₀ z := by
  refine ⟨_, rfl, ?_⟩
  try dsimp only
  repeat' first
    | with_reducible assumption
    | with_reducible exact List.Subset.trans (by decide) sub
    | with_reducible apply State.finish_frame
    | with_reducible apply State.updCmd_frame
    | with_reducible refine State.ioCmd_frame (fun _ => ?_) ?_
    | with_reducible refine Frame.ite ?_ ?_
    | dsimp only
    | split

theorem execRead_frame {ps : List Part} {r₀ : State} {seq nsid lba nlb : Nat} {s : State}
    (sub : [.qmx, .fns] ⊆ ps) (h₀ : Frame ps r₀ s) :
    ∃ z, execRead seq nsid lba nlb s = .next z ∧ Frame ps r₀ z := by
  refine ⟨_, rfl, ?_⟩
  try dsimp only
  repeat' first
    | with_reducible assumption
    | with_reducible exact List.Subset.trans (by decide) sub
    | with_reducible apply ioTake_frame
    | dsimp only
    | split

theorem execCompare_frame {ps : List Part} {r₀ : State} {seq nsid lba : Nat} {fused : Bool} {data : List Block} {s : State}
    (sub : [.qmx, .fns] ⊆ ps) (h₀ : Frame ps r₀ s) :
    ∃ z, execCompare seq nsid lba fused data s = .next z ∧ Frame ps r₀ z := by
  refine ⟨_, rfl, ?_⟩
  try dsimp only
  repeat' first
    | with_reducible assumption
    | with_reducible exact List.Subset.trans (by decide) sub
    | with_reducible apply ioTake_frame
    | with_reducible refine Frame.ite ?_ ?_
    | dsimp only
    | split

theorem execVerify_frame {ps : List Part} {r₀ : State} {seq nsid lba nlb : Nat} {s : State}
    (sub : [.qmx, .fns] ⊆ ps) (h₀ : Frame ps r₀ s) :
    ∃ z, execVerify seq nsid lba nlb s = .next z ∧ Frame ps r₀ z := by
  refine ⟨_, rfl, ?_⟩
  try dsimp only
  repeat' first
    | with_reducible assumption
    | with_reducible exact List.Subset.trans (by decide) sub
    | with_reducible apply ioTake_frame
    | dsimp only
    | split

theorem execFlush_frame {ps : List Part} {r₀ : State} {seq nsid : Nat} {s : State}
    (sub : [.qmx, .fns] ⊆ ps) (h₀ : Frame ps r₀ s) :
    ∃ z, execFlush seq nsid s = .next z ∧ Frame ps r₀ z := by
  refine ⟨_, rfl, ?_⟩
  try dsimp only
  repeat' first
    | with_reducible assumption
    | with_reducible exact List.Subset.trans (by decide) sub
    | with_reducible apply State.finish_frame
    | with_reducible apply State.updCmd_frame
    | with_reducible refine State.ioCmd_frame (fun _ => ?_) ?_
    | with_reducible refine Frame.ite ?_ ?_
    | dsimp only
    | split

theorem zoneAction_frame {ps : List Part} {r₀ : State} {seq nsid lba action : Nat} {all : Bool} {s : State}
    (sub : [.qmx, .fns] ⊆ ps) (h₀ : Frame ps r₀ s) : Frame ps r₀ (zoneAction seq nsid lba action all s) := by
  unfold zoneAction
  try dsimp only
  repeat' first
    | with_reducible assumption
    | with_reducible exact List.Subset.trans (by decide) sub
    | with_reducible apply State.finish_frame
    | with_reducible apply State.updCmd_frame
    | with_reducible refine State.ioCmd_frame (fun _ => ?_) ?_
    | with_reducible refine Frame.ite ?_ ?_
    | dsimp only
    | split

theorem execZoneClose_frame {ps : List Part} {r₀ : State} {seq nsid lba : Nat} {all : Bool} {s : State}
    (sub : [.qmx, .fns] ⊆ ps) (h₀ : Frame ps r₀ s) :
    ∃ z, execZoneClose seq nsid lba all s = .next z ∧ Frame ps r₀ z := by
  refine ⟨_, rfl, ?_⟩
  try dsimp only
  repeat' first
    | with_reducible assumption
    | with_reducible exact List.Subset.trans (by decide) sub
    | with_reducible apply zoneAction_frame
    | dsimp only
    | split

theorem execZoneFinish_frame {ps : List Part} {r₀ : State} {seq nsid lba : Nat} {all : Bool} {s : State}
    (sub : [.qmx, .fns] ⊆ ps) (h₀ : Frame ps r₀ s) :
    ∃ z, execZoneFinish seq nsid lba all s = .next z ∧ Frame ps r₀ z := by
  refine ⟨_, rfl, ?_⟩
  try dsimp only
  repeat' first
    | with_reducible assumption
    | with_reducible exact List.Subset.trans (by decide) sub
    | with_reducible apply zoneAction_frame
    | dsimp only
    | split

theorem execZoneOpen_frame {ps : List Part} {r₀ : State} {seq nsid lba : Nat} {all : Bool} {s : State}
    (sub : [.qmx, .fns] ⊆ ps) (h₀ : Frame ps r₀ s) :
    ∃ z, execZoneOpen seq nsid lba all s = .next z ∧ Frame ps r₀ z := by
  refine ⟨_, rfl, ?_⟩
  try dsimp only
  repeat' first
    | with_reducible assumption
    | with_reducible exact List.Subset.trans (by decide) sub
    | with_reducible apply zoneAction_frame
    | dsimp only
    | split

theorem execZoneReset_frame {ps : List Part} {r₀ : State} {seq nsid lba : Nat} {all : Bool} {s : State}
    (sub : [.qmx, .fns] ⊆ ps) (h₀ : Frame ps r₀ s) :
    ∃ z, execZoneReset seq nsid lba all s = .next z ∧ Frame ps r₀ z := by
  refine ⟨_, rfl, ?_⟩
  try dsimp only
  repeat' first
    | with_reducible assumption
    | with_reducible exact List.Subset.trans (by decide) sub
    | with_reducible apply zoneAction_frame
    | dsimp only
    | split

theorem execZoneManagementReceive_frame {ps : List Part} {r₀ : State} {seq nsid lba filter n : Nat} {s : State}
    (sub : [.ans, .qmx, .fns] ⊆ ps) (h₀ : Frame ps r₀ s) :
    ∃ z, execZoneManagementReceive seq nsid lba filter n s = .next z ∧ Frame ps r₀ z := by
  refine ⟨_, rfl, ?_⟩
  try dsimp only
  repeat' first
    | with_reducible assumption
    | with_reducible exact List.Subset.trans (by decide) sub
    | with_reducible apply State.finish_frame
    | with_reducible apply State.reply_frame
    | with_reducible refine State.ioCmd_frame (fun _ => ?_) ?_
    | with_reducible refine Frame.ite ?_ ?_
    | dsimp only
    | split

theorem execIoManagementReceive_frame {ps : List Part} {r₀ : State} {seq nsid n : Nat} {s : State}
    (sub : [.ans, .qmx, .fns] ⊆ ps) (h₀ : Frame ps r₀ s) :
    ∃ z, execIoManagementReceive seq nsid n s = .next z ∧ Frame ps r₀ z := by
  refine ⟨_, rfl, ?_⟩
  try dsimp only
  repeat' first
    | with_reducible assumption
    | with_reducible exact List.Subset.trans (by decide) sub
    | with_reducible apply State.finish_frame
    | with_reducible apply State.reply_frame
    | with_reducible refine State.ioCmd_frame (fun _ => ?_) ?_
    | with_reducible refine Frame.ite ?_ ?_
    | dsimp only
    | split

theorem execIoManagementSend_frame {ps : List Part} {r₀ : State} {seq nsid : Nat} {handles : List Nat} {s : State}
    (sub : [.qmx, .fns, .wbf] ⊆ ps) (h₀ : Frame ps r₀ s) :
    ∃ z, execIoManagementSend seq nsid handles s = .next z ∧ Frame ps r₀ z := by
  refine ⟨_, rfl, ?_⟩
  try dsimp only
  repeat' first
    | with_reducible assumption
    | with_reducible exact List.Subset.trans (by decide) sub
    | with_reducible apply State.finish_frame
    | with_reducible apply State.updStream_frame
    | with_reducible refine State.ioCmd_frame (fun _ => ?_) ?_
    | with_reducible refine Frame.foldlFst (fun _ _ _ => ?_) ?_
    | with_reducible refine Frame.foldl (fun _ _ _ => ?_) ?_
    | with_reducible refine Frame.ite ?_ ?_
    | dsimp only
    | split

theorem execSetFeaturesFdp_frame {ps : List Part} {r₀ : State} {seq : Nat} {enable : Bool} {s : State}
    (sub : [.qmx, .fns, .map, .wbf] ⊆ ps) (h₀ : Frame ps r₀ s) :
    ∃ z, execSetFeaturesFdp seq enable s = .next z ∧ Frame ps r₀ z := by
  refine ⟨_, rfl, ?_⟩
  try dsimp only
  repeat' first
    | with_reducible assumption
    | with_reducible exact List.Subset.trans (by decide) sub
    | with_reducible apply State.finish_frame
    | with_reducible apply State.setMap_frame
    | with_reducible apply State.setTarget_frame
    | with_reducible refine State.admin_frame (fun _ => ?_) ?_
    | with_reducible refine Frame.foldlFst (fun _ _ _ => ?_) ?_
    | with_reducible refine Frame.foldl (fun _ _ _ => ?_) ?_
    | with_reducible refine Frame.ite ?_ ?_
    | dsimp only
    | split

theorem dropReader_frame {ps : List Part} {r₀ : State} {s : State} {i : Nat}
    (sub : [.wbf] ⊆ ps) (h₀ : Frame ps r₀ s) : Frame ps r₀ (dropReader s i) := by
  unfold dropReader
  try dsimp only
  repeat' first
    | with_reducible assumption
    | with_reducible exact List.Subset.trans (by decide) sub
    | with_reducible apply State.setSlot_frame
    | with_reducible refine Frame.ite ?_ ?_
    | dsimp only
    | split

theorem endReaders_frame {ps : List Part} {r₀ : State} {s : State} {c : Cmd}
    (sub : [.wbf] ⊆ ps) (h₀ : Frame ps r₀ s) : Frame ps r₀ (endReaders s c) := by
  unfold endReaders
  try dsimp only
  repeat' first
    | with_reducible assumption
    | with_reducible exact List.Subset.trans (by decide) sub
    | with_reducible apply dropReader_frame
    | with_reducible refine Frame.foldlFst (fun _ _ _ => ?_) ?_
    | with_reducible refine Frame.foldl (fun _ _ _ => ?_) ?_
    | dsimp only
    | split

theorem dropFine_frame {ps : List Part} {r₀ : State} {s : State} {c : Cmd}
    (sub : [.map] ⊆ ps) (h₀ : Frame ps r₀ s) : Frame ps r₀ (dropFine s c) := by
  unfold dropFine
  try dsimp only
  repeat' first
    | with_reducible assumption
    | with_reducible exact List.Subset.trans (by decide) sub
    | with_reducible apply State.setMap_frame
    | dsimp only
    | split

theorem dropReads_frame {ps : List Part} {r₀ : State} {s : State} {c : Cmd}
    (sub : [.stp] ⊆ ps) (h₀ : Frame ps r₀ s) : Frame ps r₀ (dropReads s c) := by
  unfold dropReads
  try dsimp only
  repeat' first
    | with_reducible assumption
    | with_reducible exact List.Subset.trans (by decide) sub
    | with_reducible apply State.setStp_frame
    | dsimp only
    | split

theorem leaveUnit_frame {ps : List Part} {r₀ : State} {s : State} {u : Pu} {i : Nat}
    (sub : [.wbf] ⊆ ps) (h₀ : Frame ps r₀ s) : Frame ps r₀ (leaveUnit s u i) := by
  unfold leaveUnit
  try dsimp only
  repeat' first
    | with_reducible assumption
    | with_reducible exact List.Subset.trans (by decide) sub
    | with_reducible apply State.freeSlot_frame
    | with_reducible apply State.setWbf_frame
    | with_reducible apply State.updSlot_frame
    | with_reducible refine Frame.ite ?_ ?_
    | dsimp only
    | split

theorem dropSlot_frame {ps : List Part} {r₀ : State} {s : State} {i : Nat}
    (sub : [.wbf] ⊆ ps) (h₀ : Frame ps r₀ s) : Frame ps r₀ (dropSlot s i) := by
  unfold dropSlot
  try dsimp only
  repeat' first
    | with_reducible assumption
    | with_reducible exact List.Subset.trans (by decide) sub
    | with_reducible apply State.freeSlot_frame
    | with_reducible apply State.updTarget_frame
    | with_reducible apply leaveUnit_frame
    | with_reducible apply ungroup_frame
    | with_reducible refine Frame.ite ?_ ?_
    | dsimp only
    | split

theorem dropSlots_frame {ps : List Part} {r₀ : State} {s : State} {c : Cmd}
    (sub : [.wbf] ⊆ ps) (h₀ : Frame ps r₀ s) : Frame ps r₀ (dropSlots s c) := by
  unfold dropSlots
  try dsimp only
  repeat' first
    | with_reducible assumption
    | with_reducible exact List.Subset.trans (by decide) sub
    | with_reducible apply dropSlot_frame
    | with_reducible refine Frame.foldlFst (fun _ _ _ => ?_) ?_
    | with_reducible refine Frame.foldl (fun _ _ _ => ?_) ?_
    | with_reducible refine Frame.ite ?_ ?_
    | dsimp only
    | split

theorem padBlock_frame {ps : List Part} {r₀ : State} {s : State} {c : Cmd} {sp : Space} {lba i : Nat}
    (sub : [.map, .wbf, .par, .pages, .regs] ⊆ ps) (h₀ : Frame ps r₀ s) : Frame ps r₀ (padBlock s c sp lba i) := by
  unfold padBlock
  try dsimp only
  repeat' first
    | with_reducible assumption
    | with_reducible exact List.Subset.trans (by decide) sub
    | with_reducible apply State.setSlot_frame
    | with_reducible apply dropSlot_frame
    | with_reducible apply landZone_frame
    | with_reducible apply setZonePart_frame
    | with_reducible apply zoneWrite_frame
    | with_reducible refine Frame.ite ?_ ?_
    | dsimp only
    | split

theorem padReserved_frame {ps : List Part} {r₀ : State} {s : State} {c : Cmd} {sp : Space}
    (sub : [.map, .wbf, .par, .pages, .regs] ⊆ ps) (h₀ : Frame ps r₀ s) : Frame ps r₀ (padReserved s c sp) := by
  unfold padReserved
  try dsimp only
  repeat' first
    | with_reducible assumption
    | with_reducible exact List.Subset.trans (by decide) sub
    | with_reducible apply padBlock_frame
    | with_reducible refine Frame.foldlFst (fun _ _ _ => ?_) ?_
    | with_reducible refine Frame.foldl (fun _ _ _ => ?_) ?_
    | dsimp only
    | split

theorem releaseCmd_frame {ps : List Part} {r₀ : State} {s : State} {c : Cmd}
    (sub : [.stp, .map, .wbf, .par, .pages, .regs] ⊆ ps) (h₀ : Frame ps r₀ s) : Frame ps r₀ (releaseCmd s c) := by
  unfold releaseCmd
  try dsimp only
  repeat' first
    | with_reducible assumption
    | with_reducible exact List.Subset.trans (by decide) sub
    | with_reducible apply dropFine_frame
    | with_reducible apply dropReads_frame
    | with_reducible apply dropSlots_frame
    | with_reducible apply endReaders_frame
    | with_reducible apply padReserved_frame
    | with_reducible refine Frame.ite ?_ ?_
    | dsimp only
    | split

theorem finishIo_frame {ps : List Part} {r₀ : State} {s : State} {c : Cmd} {t : Status} {dw0 dw1 : Dword} {rd wr : Nat}
    (sub : [.stp, .qmx, .fns, .map, .wbf, .par, .pages, .regs] ⊆ ps) (h₀ : Frame ps r₀ s) : Frame ps r₀ (finishIo s c t dw0 dw1 rd wr) := by
  unfold finishIo
  try dsimp only
  repeat' first
    | with_reducible assumption
    | with_reducible exact List.Subset.trans (by decide) sub
    | with_reducible apply State.endCmd_frame
    | with_reducible apply State.meter_frame
    | with_reducible apply releaseCmd_frame
    | dsimp only
    | split

theorem acceptWrite_frame {ps : List Part} {r₀ : State} {s : State} {c : Cmd} {sp : Space} {t : Nat}
    (sub : [.map, .wbf, .evl, .pages, .regs] ⊆ ps) (h₀ : Frame ps r₀ s) : Frame ps r₀ (acceptWrite s c sp t) := by
  unfold acceptWrite
  try dsimp only
  repeat' first
    | with_reducible assumption
    | with_reducible exact List.Subset.trans (by decide) sub
    | with_reducible apply State.updSlot_frame
    | with_reducible apply pushHeld_frame
    | with_reducible apply zoneWrite_frame
    | with_reducible refine Frame.foldlFst (fun _ _ _ => ?_) ?_
    | with_reducible refine Frame.foldl (fun _ _ _ => ?_) ?_
    | with_reducible refine Frame.ite ?_ ?_
    | with_reducible apply nextWseq_frame
    | with_reducible refine nextWseq_eq_frame (by assumption) ?_ ?_
    | dsimp only
    | split

theorem repin_frame {ps : List Part} {r₀ : State} {s : State} {u : Pu}
    (sub : [.fch] ⊆ ps) (h₀ : Frame ps r₀ s) : Frame ps r₀ (repin s u) := by
  unfold repin
  try dsimp only
  repeat' first
    | with_reducible assumption
    | with_reducible exact List.Subset.trans (by decide) sub
    | with_reducible apply State.updDie_frame
    | with_reducible refine Frame.ite ?_ ?_
    | dsimp only
    | split

theorem coverGranule_frame {ps : List Part} {r₀ : State} {s : State} {i : Nat}
    (sub : [.wbf] ⊆ ps) (h₀ : Frame ps r₀ s) : Frame ps r₀ (coverGranule s i) := by
  unfold coverGranule
  try dsimp only
  repeat' first
    | with_reducible assumption
    | with_reducible exact List.Subset.trans (by decide) sub
    | with_reducible apply State.setWbf_frame
    | with_reducible refine Frame.ite ?_ ?_
    | dsimp only
    | split

theorem chainLast_frame {ps : List Part} {r₀ : State} {s : State} {i : Nat}
    (sub : [.wbf] ⊆ ps) (h₀ : Frame ps r₀ s) : Frame ps r₀ (chainLast s i) := by
  unfold chainLast
  try dsimp only
  repeat' first
    | with_reducible assumption
    | with_reducible exact List.Subset.trans (by decide) sub
    | with_reducible apply State.updTarget_frame
    | with_reducible refine Frame.ite ?_ ?_
    | dsimp only
    | split

theorem landWrite_frame {ps : List Part} {r₀ : State} {s : State} {c : Cmd} {sp : Space}
    (sub : [.qmx, .map, .wbf, .fch, .par, .regs] ⊆ ps) (h₀ : Frame ps r₀ s) : Frame ps r₀ (landWrite s c sp) := by
  unfold landWrite
  try dsimp only
  repeat' first
    | with_reducible assumption
    | with_reducible exact List.Subset.trans (by decide) sub
    | with_reducible apply State.freeSlot_frame
    | with_reducible apply State.setWbf_frame
    | with_reducible apply State.updCmd_frame
    | with_reducible apply State.updSlot_frame
    | with_reducible apply chainLast_frame
    | with_reducible apply coverGranule_frame
    | with_reducible apply dropFine_frame
    | with_reducible apply landZone_frame
    | with_reducible apply repin_frame
    | with_reducible apply setBlocks_frame
    | with_reducible refine Frame.foldlFst (fun _ _ _ => ?_) ?_
    | with_reducible refine Frame.foldl (fun _ _ _ => ?_) ?_
    | with_reducible refine Frame.ite ?_ ?_
    | dsimp only
    | split

theorem completeWrite_frame {ps : List Part} {r₀ : State} {s : State} {c : Cmd} {sp : Space} {append : Bool}
    (sub : [.stp, .qmx, .fns, .map, .wbf, .fch, .par, .pages, .regs] ⊆ ps) (h₀ : Frame ps r₀ s) : Frame ps r₀ (completeWrite s c sp append) := by
  unfold completeWrite
  try dsimp only
  repeat' first
    | with_reducible assumption
    | with_reducible exact List.Subset.trans (by decide) sub
    | with_reducible apply finishIo_frame
    | with_reducible apply landWrite_frame
    | dsimp only
    | split

theorem protect_frame {ps : List Part} {r₀ : State} {s : State} {c : Cmd} {sp : Space} {a : PiArgs}
    (sub : [.wbf] ⊆ ps) (h₀ : Frame ps r₀ s) : Frame ps r₀ (protect s c sp a) := by
  unfold protect
  try dsimp only
  repeat' first
    | with_reducible assumption
    | with_reducible exact List.Subset.trans (by decide) sub
    | with_reducible apply State.updSlot_frame
    | with_reducible refine Frame.foldlFst (fun _ _ _ => ?_) ?_
    | with_reducible refine Frame.foldl (fun _ _ _ => ?_) ?_
    | with_reducible refine Frame.ite ?_ ?_
    | dsimp only
    | split

theorem refuseWrite_frame {ps : List Part} {r₀ : State} {s : State} {c : Cmd} {sp : Space} {t : Status}
    (sub : [.stp, .qmx, .fns, .map, .wbf, .par, .evl, .pages, .regs] ⊆ ps) (h₀ : Frame ps r₀ s) : Frame ps r₀ (refuseWrite s c sp t) := by
  unfold refuseWrite
  try dsimp only
  repeat' first
    | with_reducible assumption
    | with_reducible exact List.Subset.trans (by decide) sub
    | with_reducible apply State.setSpace_frame
    | with_reducible apply finishIo_frame
    | with_reducible apply seqLimit_frame
    | with_reducible refine Frame.ite ?_ ?_
    | dsimp only
    | split

theorem writePoint_frame {ps : List Part} {r₀ : State} {s : State} {c : Cmd} {fua append : Bool} {handle : Option Nat} {pi : PiArgs}
    (sub : [.stp, .qmx, .fns, .map, .wbf, .fch, .par, .evl, .pages, .regs] ⊆ ps) (h₀ : Frame ps r₀ s) : Frame ps r₀ (writePoint s c fua append handle pi) := by
  unfold writePoint
  try dsimp only
  split
  all_goals repeat' first
    | with_reducible assumption
    | with_reducible exact List.Subset.trans (by decide) sub
    | with_reducible apply State.ev_frame
    | with_reducible apply State.updCmd_frame
    | with_reducible apply acceptWrite_frame
    | with_reducible apply bindTarget_frame
    | with_reducible apply completeWrite_frame
    | with_reducible apply finishIo_frame
    | with_reducible apply markClose_frame
    | with_reducible apply protect_frame
    | with_reducible apply refuseWrite_frame
    | with_reducible refine Frame.ite ?_ ?_
    | dsimp only
    | split

theorem mapPoint_frame {ps : List Part} {r₀ : State} {s : State} {c : Cmd} {uncorr : Bool}
    (sub : [.stp, .qmx, .fns, .map, .wbf, .par, .pages, .regs] ⊆ ps) (h₀ : Frame ps r₀ s) : Frame ps r₀ (mapPoint s c uncorr) := by
  unfold mapPoint
  try dsimp only
  split
  all_goals repeat' first
    | with_reducible assumption
    | with_reducible exact List.Subset.trans (by decide) sub
    | with_reducible apply dropFine_frame
    | with_reducible apply finishIo_frame
    | with_reducible apply setBlocks_frame
    | with_reducible refine Frame.foldlFst (fun _ _ _ => ?_) ?_
    | with_reducible refine Frame.foldl (fun _ _ _ => ?_) ?_
    | with_reducible refine Frame.ite ?_ ?_
    | dsimp only
    | split

theorem readPoint_frame {ps : List Part} {r₀ : State} {s : State} {c : Cmd} {pi : PiArgs}
    (sub : [.ans, .stp, .qmx, .fns, .map, .wbf, .par, .pages, .regs] ⊆ ps) (h₀ : Frame ps r₀ s) : Frame ps r₀ (readPoint s c pi) := by
  unfold readPoint
  try dsimp only
  repeat' first
    | with_reducible assumption
    | with_reducible exact List.Subset.trans (by decide) sub
    | with_reducible apply State.answer_frame
    | with_reducible apply finishIo_frame
    | with_reducible refine Frame.ite ?_ ?_
    | dsimp only
    | split

theorem flushPoint_frame {ps : List Part} {r₀ : State} {s : State} {c : Cmd}
    (sub : [.stp, .qmx, .fns, .map, .wbf, .par, .pages, .regs] ⊆ ps) (h₀ : Frame ps r₀ s) : Frame ps r₀ (flushPoint s c) := by
  unfold flushPoint
  try dsimp only
  repeat' first
    | with_reducible assumption
    | with_reducible exact List.Subset.trans (by decide) sub
    | with_reducible apply finishIo_frame
    | with_reducible refine Frame.ite ?_ ?_
    | dsimp only
    | split

theorem State.updZone_frame {ps : List Part} {r₀ : State} {s : State} {ns z : Nat} {g : Zone → Zone}
    (sub : [.map] ⊆ ps) (h₀ : Frame ps r₀ s) : Frame ps r₀ (State.updZone s ns z g) := by
  unfold State.updZone
  try dsimp only
  split
  all_goals repeat' first
    | with_reducible assumption
    | with_reducible exact List.Subset.trans (by decide) sub
    | with_reducible apply State.setZone_frame
    | dsimp only
    | split

theorem closeZone_frame {ps : List Part} {r₀ : State} {s : State} {ns z : Nat}
    (sub : [.map] ⊆ ps) (h₀ : Frame ps r₀ s) : Frame ps r₀ (closeZone s ns z) := by
  unfold closeZone
  try dsimp only
  repeat' first
    | with_reducible assumption
    | with_reducible exact List.Subset.trans (by decide) sub
    | with_reducible apply State.updZone_frame
    | with_reducible refine Frame.ite ?_ ?_
    | dsimp only
    | split

theorem splitReopened_frame {ps : List Part} {r₀ : State} {s : State} {ns z : Nat}
    (sub : [.map, .wbf] ⊆ ps) (h₀ : Frame ps r₀ s) : Frame ps r₀ (splitReopened s ns z) := by
  unfold splitReopened
  try dsimp only
  split
  all_goals repeat' first
    | with_reducible assumption
    | with_reducible exact List.Subset.trans (by decide) sub
    | with_reducible apply splitChunk_frame
    | dsimp only
    | split

theorem openZone_eq_frame {ps : List Part} {r₀ : State} {s : State} {f ns z : Nat} {explicit : Bool} {t : State}
    (e : (openZone s f ns z explicit) = .ok t) (sub : [.map, .wbf] ⊆ ps) (h₀ : Frame ps r₀ s) : Frame ps r₀ t := by
  unfold openZone at e
  try dsimp only at e
  repeat' first
    | cases e
    | split at e
  all_goals
    repeat' first
      | with_reducible assumption
      | with_reducible exact List.Subset.trans (by decide) sub
      | with_reducible apply State.setMap_frame
      | with_reducible apply State.updZone_frame
      | with_reducible apply closeZone_frame
      | with_reducible apply splitReopened_frame
      | with_reducible refine Frame.ite ?_ ?_
      | dsimp only
      | split

theorem unbindZone_frame {ps : List Part} {r₀ : State} {s : State} {ns z : Nat}
    (sub : [.wbf] ⊆ ps) (h₀ : Frame ps r₀ s) : Frame ps r₀ (unbindZone s ns z) := by
  unfold unbindZone
  try dsimp only
  repeat' first
    | with_reducible assumption
    | with_reducible exact List.Subset.trans (by decide) sub
    | with_reducible apply State.setTarget_frame
    | with_reducible refine Frame.ite ?_ ?_
    | dsimp only
    | split

theorem resetZone_frame {ps : List Part} {r₀ : State} {s : State} {ns z : Nat}
    (sub : [.map, .wbf, .par, .regs] ⊆ ps) (h₀ : Frame ps r₀ s) : Frame ps r₀ (resetZone s ns z) := by
  unfold resetZone
  try dsimp only
  split
  all_goals repeat' first
    | with_reducible assumption
    | with_reducible exact List.Subset.trans (by decide) sub
    | with_reducible apply State.updZone_frame
    | with_reducible apply clearChunk_frame
    | with_reducible apply unbindZone_frame
    | with_reducible refine Frame.foldlFst (fun _ _ _ => ?_) ?_
    | with_reducible refine Frame.foldl (fun _ _ _ => ?_) ?_
    | dsimp only
    | split

theorem finishZone_frame {ps : List Part} {r₀ : State} {s : State} {ns z : Nat}
    (sub : [.map, .wbf] ⊆ ps) (h₀ : Frame ps r₀ s) : Frame ps r₀ (finishZone s ns z) := by
  unfold finishZone
  try dsimp only
  split
  all_goals repeat' first
    | with_reducible assumption
    | with_reducible exact List.Subset.trans (by decide) sub
    | with_reducible apply State.updZone_frame
    | with_reducible apply markClose_frame
    | with_reducible apply unbindZone_frame
    | dsimp only
    | split

theorem zoneStep_eq_frame {ps : List Part} {r₀ : State} {s : State} {f ns z action : Nat} {t : State}
    (e : (zoneStep s f ns z action) = .ok t) (sub : [.map, .wbf, .par, .regs] ⊆ ps) (h₀ : Frame ps r₀ s) : Frame ps r₀ t := by
  unfold zoneStep at e
  try dsimp only at e
  repeat' first
    | cases e
    | split at e
  all_goals
    repeat' first
      | with_reducible assumption
      | with_reducible exact List.Subset.trans (by decide) sub
      | with_reducible apply closeZone_frame
      | with_reducible apply finishZone_frame
      | with_reducible apply resetZone_frame
      | with_reducible apply unbindZone_frame
      | with_reducible refine Frame.ite ?_ ?_
      | with_reducible refine openZone_eq_frame (by assumption) ?_ ?_
      | dsimp only
      | split

theorem zonePoint_frame {ps : List Part} {r₀ s : State} {c : Cmd} {action : Nat} {all : Bool}
    (sub : [.stp, .qmx, .fns, .map, .wbf, .par, .pages, .regs] ⊆ ps) (h : Frame ps r₀ s) : Frame ps r₀ (zonePoint s c action all) := by
  unfold zonePoint
  split
  · exact finishIo_frame (List.Subset.trans (by decide) sub) h
  · split
    · exact finishIo_frame (List.Subset.trans (by decide) sub) h
    · split
      · exact h
      · extract_lets zs r
        refine Frame.ite h ?_
        dsimp only [r]
        split
        · next e =>
          refine finishIo_frame (List.Subset.trans (by decide) sub) (Frame.foldlOk ?_ e fun u hu => by cases hu; exact h)
          intro a x t ha ht
          try dsimp only at ht
          split at ht
          · exact zoneStep_eq_frame ht (List.Subset.trans (by decide) sub) (ha _ rfl)
          · cases ht
        · exact finishIo_frame (List.Subset.trans (by decide) sub) h

theorem execCompletionPoint_frame {ps : List Part} {r₀ : State} {seq : Nat} {pi : PiArgs} {s : State}
    (sub : [.ans, .stp, .qmx, .fns, .map, .wbf, .fch, .par, .evl, .pages, .regs] ⊆ ps) (h₀ : Frame ps r₀ s) :
    ∃ z, execCompletionPoint seq pi s = .next z ∧ Frame ps r₀ z := by
  refine ⟨_, rfl, ?_⟩
  try dsimp only
  split
  all_goals repeat' first
    | with_reducible assumption
    | with_reducible exact List.Subset.trans (by decide) sub
    | with_reducible apply flushPoint_frame
    | with_reducible apply mapPoint_frame
    | with_reducible apply readPoint_frame
    | with_reducible apply writePoint_frame
    | with_reducible apply zonePoint_frame
    | with_reducible refine Frame.ite ?_ ?_
    | dsimp only
    | split

end Sys2Proof.Machine
end

