-- ==== Sys2Proof/Laws/Tenants.lean ====
section
/-! SUPPORT. What each operation of Machine/Tenants.lean may change. -/

-- one proof after another: many at once would each hold a thread
set_option Elab.async false

namespace Sys2Proof.Machine

open Sys2Proof

theorem execPoolScaleApply_frame {ps : List Part} {r₀ : State} {s : State}
    (sub : [.ten, .fns, .evl, .pages, .regs] ⊆ ps) (h₀ : Frame ps r₀ s) :
    ∃ z, execPoolScaleApply s = .next z ∧ Frame ps r₀ z := by
  refine ⟨_, rfl, ?_⟩
  try dsimp only
  repeat' first
    | with_reducible assumption
    | with_reducible exact List.Subset.trans (by decide) sub
    | with_reducible apply State.ev_frame
    | with_reducible apply State.raise_frame
    | with_reducible apply State.setFns_frame
    | with_reducible apply State.setTen_frame
    | with_reducible refine Frame.ite ?_ ?_
    | dsimp only
    | split

theorem State.reject_frame {ps : List Part} {r₀ : State} {s : State} {seq f reason : Nat} {t : Status}
    (sub : [.qmx, .fns] ⊆ ps) (h₀ : Frame ps r₀ s) : Frame ps r₀ (State.reject s seq f reason t) := by
  unfold State.reject
  try dsimp only
  repeat' first
    | with_reducible assumption
    | with_reducible exact List.Subset.trans (by decide) sub
    | with_reducible apply State.finish_frame
    | with_reducible apply State.updFn_frame
    | dsimp only
    | split

theorem State.arm_frame {ps : List Part} {r₀ : State} {s : State} {seq f : Nat} {a : FnArm}
    (sub : [.qmx, .fns] ⊆ ps) (h₀ : Frame ps r₀ s) : Frame ps r₀ (State.arm s seq f a) := by
  unfold State.arm
  try dsimp only
  repeat' first
    | with_reducible assumption
    | with_reducible exact List.Subset.trans (by decide) sub
    | with_reducible apply State.hold_frame
    | with_reducible apply State.updFn_frame
    | dsimp only
    | split

theorem State.manager_frame {ps : List Part} {r₀ : State} {s : State} {seq f : Nat} {act : State → State}
    (ha : ∀ u, Frame ps r₀ u → Frame ps r₀ (act u)) (sub : [.qmx, .fns] ⊆ ps) (h₀ : Frame ps r₀ s) :
    Frame ps r₀ (State.manager s seq f act) := by
  unfold State.manager
  try dsimp only
  repeat' first
    | with_reducible assumption
    | with_reducible exact List.Subset.trans (by decide) sub
    | with_reducible refine ha _ ?_
    | with_reducible apply State.finish_frame
    | with_reducible refine State.admin_frame (fun _ => ?_) ?_
    | with_reducible refine Frame.ite ?_ ?_
    | dsimp only
    | split

theorem execFunctionCreate_frame {ps : List Part} {r₀ : State} {seq f : Nat} {data : List Byte} {s : State}
    (sub : [.qmx, .fns] ⊆ ps) (h₀ : Frame ps r₀ s) :
    ∃ z, execFunctionCreate seq f data s = .next z ∧ Frame ps r₀ z := by
  refine ⟨_, rfl, ?_⟩
  try dsimp only
  repeat' first
    | with_reducible assumption
    | with_reducible exact List.Subset.trans (by decide) sub
    | with_reducible apply State.arm_frame
    | with_reducible apply State.reject_frame
    | with_reducible refine State.manager_frame (fun _ _ => ?_) ?_ ?_
    | with_reducible refine Frame.ite ?_ ?_
    | dsimp only
    | split

theorem execFunctionDelete_frame {ps : List Part} {r₀ : State} {seq f : Nat} {s : State}
    (sub : [.qmx, .fns] ⊆ ps) (h₀ : Frame ps r₀ s) :
    ∃ z, execFunctionDelete seq f s = .next z ∧ Frame ps r₀ z := by
  refine ⟨_, rfl, ?_⟩
  try dsimp only
  repeat' first
    | with_reducible assumption
    | with_reducible exact List.Subset.trans (by decide) sub
    | with_reducible apply State.arm_frame
    | with_reducible apply State.finish_frame
    | with_reducible refine State.manager_frame (fun _ _ => ?_) ?_ ?_
    | with_reducible refine Frame.ite ?_ ?_
    | dsimp only
    | split

theorem execFunctionBind_frame {ps : List Part} {r₀ : State} {seq f kind : Nat} {s : State}
    (sub : [.qmx, .fns] ⊆ ps) (h₀ : Frame ps r₀ s) :
    ∃ z, execFunctionBind seq f kind s = .next z ∧ Frame ps r₀ z := by
  refine ⟨_, rfl, ?_⟩
  try dsimp only
  repeat' first
    | with_reducible assumption
    | with_reducible exact List.Subset.trans (by decide) sub
    | with_reducible apply State.arm_frame
    | with_reducible apply State.reject_frame
    | with_reducible refine State.manager_frame (fun _ _ => ?_) ?_ ?_
    | with_reducible refine Frame.ite ?_ ?_
    | dsimp only
    | split

theorem execHarnessSet_frame {ps : List Part} {r₀ : State} {seq f : Nat} {data : List Byte} {s : State}
    (sub : [.qmx, .fns] ⊆ ps) (h₀ : Frame ps r₀ s) :
    ∃ z, execHarnessSet seq f data s = .next z ∧ Frame ps r₀ z := by
  refine ⟨_, rfl, ?_⟩
  try dsimp only
  repeat' first
    | with_reducible assumption
    | with_reducible exact List.Subset.trans (by decide) sub
    | with_reducible apply State.arm_frame
    | with_reducible apply State.reject_frame
    | with_reducible refine State.manager_frame (fun _ _ => ?_) ?_ ?_
    | with_reducible refine Frame.ite ?_ ?_
    | dsimp only
    | split

theorem State.writeEntry_frame {ps : List Part} {r₀ : State} {s : State} {f : Nat} {t : FnState} {seqs : List Nat} {dw0 : Dword}
    (sub : [.norWaits] ⊆ ps) (h₀ : Frame ps r₀ s) : Frame ps r₀ (State.writeEntry s f t seqs dw0) := by
  unfold State.writeEntry
  try dsimp only
  repeat' first
    | with_reducible assumption
    | with_reducible exact List.Subset.trans (by decide) sub
    | with_reducible apply State.setNorWaits_frame
    | dsimp only
    | split

theorem State.writeTable_frame {ps : List Part} {r₀ : State} {s : State} {f : Nat} {seqs : List Nat} {dw0 : Dword}
    (sub : [.norWaits] ⊆ ps) (h₀ : Frame ps r₀ s) : Frame ps r₀ (State.writeTable s f seqs dw0) := by
  unfold State.writeTable
  try dsimp only
  repeat' first
    | with_reducible assumption
    | with_reducible exact List.Subset.trans (by decide) sub
    | with_reducible apply State.writeEntry_frame
    | dsimp only
    | split

theorem execHarnessApply_frame {ps : List Part} {r₀ : State} {f : Nat} {s : State}
    (sub : [.qmx, .fns, .norWaits] ⊆ ps) (h₀ : Frame ps r₀ s) :
    ∃ z, execHarnessApply f s = .next z ∧ Frame ps r₀ z := by
  refine ⟨_, rfl, ?_⟩
  try dsimp only
  repeat' first
    | with_reducible assumption
    | with_reducible exact List.Subset.trans (by decide) sub
    | with_reducible apply State.finish_frame
    | with_reducible apply State.setFn_frame
    | with_reducible apply State.writeTable_frame
    | with_reducible refine Frame.foldlFst (fun _ _ _ => ?_) ?_
    | with_reducible refine Frame.foldl (fun _ _ _ => ?_) ?_
    | with_reducible refine Frame.ite ?_ ?_
    | dsimp only
    | split

theorem execFunctionFreeze_frame {ps : List Part} {r₀ : State} {seq f : Nat} {s : State}
    (sub : [.qmx, .fns] ⊆ ps) (h₀ : Frame ps r₀ s) :
    ∃ z, execFunctionFreeze seq f s = .next z ∧ Frame ps r₀ z := by
  refine ⟨_, rfl, ?_⟩
  try dsimp only
  repeat' first
    | with_reducible assumption
    | with_reducible exact List.Subset.trans (by decide) sub
    | with_reducible apply State.arm_frame
    | with_reducible apply State.finish_frame
    | with_reducible apply State.hold_frame
    | with_reducible apply State.updFn_frame
    | with_reducible refine State.manager_frame (fun _ _ => ?_) ?_ ?_
    | with_reducible refine Frame.ite ?_ ?_
    | dsimp only
    | split

theorem freezeDone_frame {ps : List Part} {r₀ : State} {s : State} {f : Nat}
    (sub : [.fns, .norWaits] ⊆ ps) (h₀ : Frame ps r₀ s) : Frame ps r₀ (freezeDone s f) := by
  unfold freezeDone
  try dsimp only
  repeat' first
    | with_reducible assumption
    | with_reducible exact List.Subset.trans (by decide) sub
    | with_reducible apply State.setFn_frame
    | with_reducible apply State.writeTable_frame
    | dsimp only
    | split

theorem execFreezeDrained_frame {ps : List Part} {r₀ : State} {f : Nat} {s : State}
    (sub : [.fns, .norWaits] ⊆ ps) (h₀ : Frame ps r₀ s) :
    ∃ z, execFreezeDrained f s = .next z ∧ Frame ps r₀ z := by
  refine ⟨_, rfl, ?_⟩
  try dsimp only
  repeat' first
    | with_reducible assumption
    | with_reducible exact List.Subset.trans (by decide) sub
    | with_reducible apply freezeDone_frame
    | with_reducible refine Frame.ite ?_ ?_
    | dsimp only
    | split

theorem execTenFreezeLate_frame {ps : List Part} {r₀ : State} {f : Nat} {s : State}
    (sub : [.qmx, .fns, .evl, .pages, .regs] ⊆ ps) (h₀ : Frame ps r₀ s) :
    ∃ z, execTenFreezeLate f s = .next z ∧ Frame ps r₀ z := by
  refine ⟨_, rfl, ?_⟩
  try dsimp only
  repeat' first
    | with_reducible assumption
    | with_reducible exact List.Subset.trans (by decide) sub
    | with_reducible apply State.ev_frame
    | with_reducible apply State.finish_frame
    | with_reducible apply State.raise_frame
    | with_reducible apply State.setFn_frame
    | with_reducible refine Frame.foldlFst (fun _ _ _ => ?_) ?_
    | with_reducible refine Frame.foldl (fun _ _ _ => ?_) ?_
    | with_reducible refine Frame.ite ?_ ?_
    | dsimp only
    | split

theorem execFunctionSave_frame {ps : List Part} {r₀ : State} {seq f : Nat} {s : State}
    (sub : [.gate, .qmx, .fns, .key] ⊆ ps) (h₀ : Frame ps r₀ s) :
    ∃ z, execFunctionSave seq f s = .next z ∧ Frame ps r₀ z := by
  refine ⟨_, rfl, ?_⟩
  try dsimp only
  repeat' first
    | with_reducible assumption
    | with_reducible exact List.Subset.trans (by decide) sub
    | with_reducible apply State.arm_frame
    | with_reducible apply State.finish_frame
    | with_reducible apply useDrbg_frame
    | with_reducible refine State.manager_frame (fun _ _ => ?_) ?_ ?_
    | with_reducible refine Frame.ite ?_ ?_
    | dsimp only
    | split

theorem execMinuteBoundary_frame {ps : List Part} {r₀ : State} {s : State}
    (sub : [.tbs, .fns, .pages] ⊆ ps) (h₀ : Frame ps r₀ s) :
    ∃ z, execMinuteBoundary s = .next z ∧ Frame ps r₀ z := by
  refine ⟨_, rfl, ?_⟩
  try dsimp only
  repeat' first
    | with_reducible assumption
    | with_reducible exact List.Subset.trans (by decide) sub
    | with_reducible apply State.ev_frame
    | with_reducible apply State.setFns_frame
    | with_reducible refine State.setTbs_keep ?_ ?_ ?_
    | exact (fun h => h : _ → _)
    | with_reducible refine Frame.ite ?_ ?_
    | dsimp only
    | split

theorem State.aboutFn_frame {ps : List Part} {r₀ : State} {s : State} {seq f : Nat} {b : List Byte} {off len : Nat}
    (sub : [.ans, .qmx, .fns] ⊆ ps) (h₀ : Frame ps r₀ s) : Frame ps r₀ (State.aboutFn s seq f b off len) := by
  unfold State.aboutFn
  try dsimp only
  repeat' first
    | with_reducible assumption
    | with_reducible exact List.Subset.trans (by decide) sub
    | with_reducible apply State.finish_frame
    | with_reducible apply State.reply_frame
    | with_reducible refine State.admin_frame (fun _ => ?_) ?_
    | with_reducible refine Frame.ite ?_ ?_
    | dsimp only
    | split

theorem execGetLogPageMeters_frame {ps : List Part} {r₀ : State} {seq f off len : Nat} {s : State}
    (sub : [.ans, .qmx, .fns] ⊆ ps) (h₀ : Frame ps r₀ s) :
    ∃ z, execGetLogPageMeters seq f off len s = .next z ∧ Frame ps r₀ z := by
  refine ⟨_, rfl, ?_⟩
  try dsimp only
  repeat' first
    | with_reducible assumption
    | with_reducible exact List.Subset.trans (by decide) sub
    | with_reducible apply State.aboutFn_frame
    | dsimp only
    | split

theorem execGetLogPageHarnessStatus_frame {ps : List Part} {r₀ : State} {seq f off len : Nat} {s : State}
    (sub : [.ans, .qmx, .fns] ⊆ ps) (h₀ : Frame ps r₀ s) :
    ∃ z, execGetLogPageHarnessStatus seq f off len s = .next z ∧ Frame ps r₀ z := by
  refine ⟨_, rfl, ?_⟩
  try dsimp only
  repeat' first
    | with_reducible assumption
    | with_reducible exact List.Subset.trans (by decide) sub
    | with_reducible apply State.aboutFn_frame
    | dsimp only
    | split

theorem execSaveApply_frame {ps : List Part} {r₀ : State} {f : Nat} {s : State}
    (sub : [.draws, .qmx, .ten, .fns, .norWaits] ⊆ ps) (h₀ : Frame ps r₀ s) :
    ∃ z, execSaveApply f s = .next z ∧ Frame ps r₀ z := by
  refine ⟨_, rfl, ?_⟩
  try dsimp only
  repeat' first
    | with_reducible assumption
    | with_reducible exact List.Subset.trans (by decide) sub
    | with_reducible apply State.finish_frame
    | with_reducible apply State.setFn_frame
    | with_reducible apply State.setTen_frame
    | with_reducible apply State.writeEntry_frame
    | with_reducible refine Frame.foldlFst (fun _ _ _ => ?_) ?_
    | with_reducible refine Frame.foldl (fun _ _ _ => ?_) ?_
    | with_reducible apply State.draw_frame
    | with_reducible refine State.draw_eq_frame (by assumption) ?_ ?_
    | dsimp only
    | split

theorem savedDone_frame {ps : List Part} {r₀ : State} {s : State} {f : Nat}
    (sub : [.fns, .evl, .pages, .regs] ⊆ ps) (h₀ : Frame ps r₀ s) : Frame ps r₀ (savedDone s f) := by
  unfold savedDone
  try dsimp only
  repeat' first
    | with_reducible assumption
    | with_reducible exact List.Subset.trans (by decide) sub
    | with_reducible apply State.bump_frame
    | with_reducible apply State.ev_frame
    | with_reducible apply State.raise_frame
    | with_reducible apply State.setFn_frame
    | with_reducible refine Frame.ite ?_ ?_
    | dsimp only
    | split

theorem execGetLogPageMigrationRecord_frame {ps : List Part} {r₀ : State} {seq f off len : Nat} {s : State}
    (sub : [.ans, .qmx, .fns] ⊆ ps) (h₀ : Frame ps r₀ s) :
    ∃ z, execGetLogPageMigrationRecord seq f off len s = .next z ∧ Frame ps r₀ z := by
  refine ⟨_, rfl, ?_⟩
  try dsimp only
  repeat' first
    | with_reducible assumption
    | with_reducible exact List.Subset.trans (by decide) sub
    | with_reducible apply State.finish_frame
    | with_reducible apply State.reply_frame
    | with_reducible refine State.admin_frame (fun _ => ?_) ?_
    | with_reducible refine Frame.ite ?_ ?_
    | dsimp only
    | split

theorem execFunctionThaw_frame {ps : List Part} {r₀ : State} {seq f : Nat} {s : State}
    (sub : [.qmx, .fns] ⊆ ps) (h₀ : Frame ps r₀ s) :
    ∃ z, execFunctionThaw seq f s = .next z ∧ Frame ps r₀ z := by
  refine ⟨_, rfl, ?_⟩
  try dsimp only
  repeat' first
    | with_reducible assumption
    | with_reducible exact List.Subset.trans (by decide) sub
    | with_reducible apply State.arm_frame
    | with_reducible apply State.finish_frame
    | with_reducible refine State.manager_frame (fun _ _ => ?_) ?_ ?_
    | with_reducible refine Frame.ite ?_ ?_
    | dsimp only
    | split

theorem restoreReject_frame {ps : List Part} {r₀ : State} {s : State} {seq f : Nat}
    (sub : [.qmx, .fns, .evl, .pages, .regs] ⊆ ps) (h₀ : Frame ps r₀ s) : Frame ps r₀ (restoreReject s seq f) := by
  unfold restoreReject
  try dsimp only
  repeat' first
    | with_reducible assumption
    | with_reducible exact List.Subset.trans (by decide) sub
    | with_reducible apply State.ev_frame
    | with_reducible apply State.finish_frame
    | with_reducible apply State.raise_frame
    | dsimp only
    | split

theorem restoreFits_frame {ps : List Part} {r₀ : State} {s : State} {seq f kind : Nat} {r : MigRecord}
    (sub : [.qmx, .fns] ⊆ ps) (h₀ : Frame ps r₀ s) : Frame ps r₀ (restoreFits s seq f kind r) := by
  unfold restoreFits
  try dsimp only
  repeat' first
    | with_reducible assumption
    | with_reducible exact List.Subset.trans (by decide) sub
    | with_reducible apply State.arm_frame
    | with_reducible apply State.reject_frame
    | with_reducible refine Frame.ite ?_ ?_
    | dsimp only
    | split

theorem execFunctionRestore_frame {ps : List Part} {r₀ : State} {seq f kind : Nat} {record : List Byte} {plain : Option (List Byte)} {keys : List (Option Nat)} {s : State}
    (sub : [.qmx, .fns, .evl, .pages, .regs] ⊆ ps) (h₀ : Frame ps r₀ s) :
    ∃ z, execFunctionRestore seq f kind record plain keys s = .next z ∧ Frame ps r₀ z := by
  refine ⟨_, rfl, ?_⟩
  try dsimp only
  repeat' first
    | with_reducible assumption
    | with_reducible exact List.Subset.trans (by decide) sub
    | with_reducible apply State.reject_frame
    | with_reducible apply restoreFits_frame
    | with_reducible apply restoreReject_frame
    | with_reducible refine State.manager_frame (fun _ _ => ?_) ?_ ?_
    | with_reducible refine Frame.ite ?_ ?_
    | dsimp only
    | split

theorem execTenMigSerialLoRead_frame {ps : List Part} {r₀ : State} {p : Path} {s : State}
    (sub : [.ans, .gate, .paths] ⊆ ps) (h₀ : Frame ps r₀ s) :
    ∃ z, execTenMigSerialLoRead p s = .next z ∧ Frame ps r₀ z := by
  refine ⟨_, rfl, ?_⟩
  try dsimp only
  repeat' first
    | with_reducible assumption
    | with_reducible exact List.Subset.trans (by decide) sub
    | with_reducible apply State.answer_frame
    | with_reducible apply State.latch_frame
    | dsimp only
    | split

theorem freeTls_frame {ps : List Part} {r₀ : State} {s : State} {a : Nat}
    (sub : [.key, .net] ⊆ ps) (h₀ : Frame ps r₀ s) : Frame ps r₀ (freeTls s a) := by
  unfold freeTls
  try dsimp only
  repeat' first
    | with_reducible assumption
    | with_reducible exact List.Subset.trans (by decide) sub
    | with_reducible apply State.setKeySlot_frame
    | with_reducible apply State.setNet_frame
    | dsimp only
    | split

theorem dropAssoc_frame {ps : List Part} {r₀ : State} {s : State} {f : Nat}
    (sub : [.key, .net] ⊆ ps) (h₀ : Frame ps r₀ s) : Frame ps r₀ (dropAssoc s f) := by
  unfold dropAssoc
  try dsimp only
  repeat' first
    | with_reducible assumption
    | with_reducible exact List.Subset.trans (by decide) sub
    | with_reducible apply State.setNet_frame
    | with_reducible apply freeTls_frame
    | with_reducible refine Frame.foldlFst (fun _ _ _ => ?_) ?_
    | with_reducible refine Frame.foldl (fun _ _ _ => ?_) ?_
    | dsimp only
    | split

theorem endFn_frame {ps : List Part} {r₀ : State} {s : State} {f : Nat}
    (sub : [.qmx, .fns, .key, .net] ⊆ ps) (h₀ : Frame ps r₀ s) : Frame ps r₀ (endFn s f) := by
  unfold endFn
  try dsimp only
  repeat' first
    | with_reducible assumption
    | with_reducible exact List.Subset.trans (by decide) sub
    | with_reducible apply State.setKey_frame
    | with_reducible apply State.setKeySlot_frame
    | with_reducible apply State.setQmx_frame
    | with_reducible apply State.updFn_frame
    | with_reducible apply dropAssoc_frame
    | dsimp only
    | split

theorem loadKeys_frame {ps : List Part} {r₀ : State} {s : State} {r : MigRecord}
    (sub : [.map, .key, .norWaits, .evl, .pages, .regs] ⊆ ps) (h₀ : Frame ps r₀ s) : Frame ps r₀ (loadKeys s r) := by
  unfold loadKeys
  try dsimp only
  repeat' first
    | with_reducible assumption
    | with_reducible exact List.Subset.trans (by decide) sub
    | with_reducible apply State.writeKeyRec_frame
    | with_reducible apply bumpSeq_frame
    | with_reducible apply changeKey_frame
    | with_reducible refine Frame.foldlFst (fun _ _ _ => ?_) ?_
    | with_reducible refine Frame.foldl (fun _ _ _ => ?_) ?_
    | with_reducible refine Frame.ite ?_ ?_
    | dsimp only
    | split

theorem applyArm_frame {ps : List Part} {r₀ : State} {s : State} {f : Nat} {a : FnArm} {seq : Nat}
    (sub : [.qmx, .fns, .map, .key, .norWaits, .net, .evl, .pages, .regs] ⊆ ps) (h₀ : Frame ps r₀ s) : Frame ps r₀ (applyArm s f a seq) := by
  unfold applyArm
  try dsimp only
  repeat' first
    | with_reducible assumption
    | with_reducible exact List.Subset.trans (by decide) sub
    | with_reducible apply State.ev_frame
    | with_reducible apply State.finish_frame
    | with_reducible apply State.raise_frame
    | with_reducible apply State.setFn_frame
    | with_reducible apply State.updFn_frame
    | with_reducible apply State.writeTable_frame
    | with_reducible apply endFn_frame
    | with_reducible apply loadKeys_frame
    | with_reducible refine Frame.foldlFst (fun _ _ _ => ?_) ?_
    | with_reducible refine Frame.foldl (fun _ _ _ => ?_) ?_
    | with_reducible refine Frame.ite ?_ ?_
    | dsimp only
    | split

theorem applyArms_frame {ps : List Part} {r₀ : State} {s : State} {f : Nat}
    (sub : [.qmx, .fns, .map, .key, .norWaits, .net, .evl, .pages, .regs] ⊆ ps) (h₀ : Frame ps r₀ s) : Frame ps r₀ (applyArms s f) := by
  unfold applyArms
  try dsimp only
  repeat' first
    | with_reducible assumption
    | with_reducible exact List.Subset.trans (by decide) sub
    | with_reducible apply State.setFn_frame
    | with_reducible apply applyArm_frame
    | with_reducible refine Frame.foldlFst (fun _ _ _ => ?_) ?_
    | with_reducible refine Frame.foldl (fun _ _ _ => ?_) ?_
    | dsimp only
    | split

theorem tenTick_frame {ps : List Part} {r₀ : State} {s : State}
    (sub : [.qmx, .ten, .fns, .map, .key, .norWaits, .net, .evl, .pages, .regs] ⊆ ps) (h₀ : Frame ps r₀ s) : Frame ps r₀ (tenTick s) := by
  unfold tenTick
  try dsimp only
  repeat' first
    | with_reducible assumption
    | with_reducible exact List.Subset.trans (by decide) sub
    | with_reducible apply State.setFns_frame
    | with_reducible apply State.setTen_frame
    | with_reducible apply applyArms_frame
    | with_reducible refine Frame.foldlFst (fun _ _ _ => ?_) ?_
    | with_reducible refine Frame.foldl (fun _ _ _ => ?_) ?_
    | with_reducible refine Frame.ite ?_ ?_
    | dsimp only
    | split

end Sys2Proof.Machine
end

