-- ==== Sys2Proof/Laws/Resets.lean ====
section
/-! SUPPORT. What each operation of Machine/Resets.lean may change. -/

-- one proof after another: many at once would each hold a thread
set_option Elab.async false

namespace Sys2Proof.Machine

open Sys2Proof

theorem deleteSq_frame {ps : List Part} {r₀ : State} {s : State} {f qid seq : Nat}
    (sub : [.stp, .qmx, .fns, .map, .wbf, .par, .pages, .regs] ⊆ ps) (h₀ : Frame ps r₀ s) : Frame ps r₀ (deleteSq s f qid seq) := by
  unfold deleteSq
  try dsimp only
  repeat' first
    | with_reducible assumption
    | with_reducible exact List.Subset.trans (by decide) sub
    | with_reducible apply State.bump_frame
    | with_reducible apply State.finish_frame
    | with_reducible apply State.setFn_frame
    | with_reducible apply State.setQmx_frame
    | with_reducible apply releaseCmd_frame
    | with_reducible refine Frame.foldlFst (fun _ _ _ => ?_) ?_
    | with_reducible refine Frame.foldl (fun _ _ _ => ?_) ?_
    | with_reducible refine Frame.ite ?_ ?_
    | dsimp only
    | split

theorem execSqDeletionApply_frame {ps : List Part} {r₀ : State} {s : State}
    (sub : [.stp, .qmx, .fns, .map, .wbf, .par, .pages, .regs] ⊆ ps) (h₀ : Frame ps r₀ s) :
    ∃ z, execSqDeletionApply s = .next z ∧ Frame ps r₀ z := by
  refine ⟨_, rfl, ?_⟩
  try dsimp only
  repeat' first
    | with_reducible assumption
    | with_reducible exact List.Subset.trans (by decide) sub
    | with_reducible apply State.setQmx_frame
    | with_reducible apply deleteSq_frame
    | with_reducible refine Frame.foldlFst (fun _ _ _ => ?_) ?_
    | with_reducible refine Frame.foldl (fun _ _ _ => ?_) ?_
    | dsimp only
    | split

theorem switchImage_frame {ps : List Part} {r₀ : State} {s : State} {k : Nat}
    (sub : [.key, .bot] ⊆ ps) (h₀ : Frame ps r₀ s) : Frame ps r₀ (switchImage s k) := by
  unfold switchImage
  try dsimp only
  repeat' first
    | with_reducible assumption
    | with_reducible exact List.Subset.trans (by decide) sub
    | with_reducible apply State.setBot_frame
    | with_reducible apply State.setKey_frame
    | dsimp only
    | split

theorem activateNext_frame {ps : List Part} {r₀ : State} {s : State}
    (sub : [.key, .bot] ⊆ ps) (h₀ : Frame ps r₀ s) : Frame ps r₀ (activateNext s) := by
  unfold activateNext
  try dsimp only
  repeat' first
    | with_reducible assumption
    | with_reducible exact List.Subset.trans (by decide) sub
    | with_reducible apply switchImage_frame
    | with_reducible refine Frame.ite ?_ ?_
    | dsimp only
    | split

theorem armReset_frame {ps : List Part} {r₀ : State} {s : State} {f : Nat} {c : FlrCause}
    (sub : [.fns] ⊆ ps) (h₀ : Frame ps r₀ s) : Frame ps r₀ (armReset s f c) := by
  unfold armReset
  try dsimp only
  repeat' first
    | with_reducible assumption
    | with_reducible exact List.Subset.trans (by decide) sub
    | with_reducible apply State.updFn_frame
    | dsimp only
    | split

theorem resetFn_frame {ps : List Part} {r₀ : State} {s : State} {f : Nat} {cause : FlrCause}
    (sub : [.stp, .qmx, .fns, .map, .wbf, .par, .key, .net, .pages, .regs] ⊆ ps) (h₀ : Frame ps r₀ s) : Frame ps r₀ (resetFn s f cause) := by
  unfold resetFn
  try dsimp only
  repeat' first
    | with_reducible assumption
    | with_reducible exact List.Subset.trans (by decide) sub
    | with_reducible apply State.dropCmd_frame
    | with_reducible apply State.setQmx_frame
    | with_reducible apply State.updFn_frame
    | with_reducible apply dropAssoc_frame
    | with_reducible apply releaseCmd_frame
    | with_reducible refine Frame.foldlFst (fun _ _ _ => ?_) ?_
    | with_reducible refine Frame.foldl (fun _ _ _ => ?_) ?_
    | dsimp only
    | split

theorem execFunctionLevelReset_frame {ps : List Part} {r₀ : State} {f : Nat} {s : State}
    (sub : [.stp, .qmx, .fns, .map, .wbf, .par, .key, .norWaits, .net, .bot, .pages, .regs] ⊆ ps) (h₀ : Frame ps r₀ s) :
    ∃ z, execFunctionLevelReset f s = .next z ∧ Frame ps r₀ z := by
  refine ⟨_, rfl, ?_⟩
  try dsimp only
  split
  all_goals repeat' first
    | with_reducible assumption
    | with_reducible exact List.Subset.trans (by decide) sub
    | with_reducible apply State.updFn_frame
    | with_reducible apply State.writeTable_frame
    | with_reducible apply activateNext_frame
    | with_reducible apply freezeDone_frame
    | with_reducible apply resetFn_frame
    | with_reducible refine Frame.ite ?_ ?_
    | dsimp only
    | split

theorem execFlrComplete_frame {ps : List Part} {r₀ : State} {f : Nat} {s : State}
    (sub : [.qmx, .fns, .key, .norWaits, .net, .pages, .regs] ⊆ ps) (h₀ : Frame ps r₀ s) :
    ∃ z, execFlrComplete f s = .next z ∧ Frame ps r₀ z := by
  refine ⟨_, rfl, ?_⟩
  try dsimp only
  repeat' first
    | with_reducible assumption
    | with_reducible exact List.Subset.trans (by decide) sub
    | with_reducible apply State.bump_frame
    | with_reducible apply State.ev_frame
    | with_reducible apply State.finish_frame
    | with_reducible apply State.setFn_frame
    | with_reducible apply State.writeTable_frame
    | with_reducible apply endFn_frame
    | with_reducible refine Frame.ite ?_ ?_
    | dsimp only
    | split

theorem resetDeviceControl_frame {ps : List Part} {r₀ : State} {s : State} {f : Nat}
    (sub : [.hif] ⊆ ps) (h₀ : Frame ps r₀ s) : Frame ps r₀ (resetDeviceControl s f) := by
  unfold resetDeviceControl
  try dsimp only
  repeat' first
    | with_reducible assumption
    | with_reducible exact List.Subset.trans (by decide) sub
    | with_reducible apply State.setHif_frame
    | dsimp only
    | split

theorem execPcieFlr_frame {ps : List Part} {r₀ : State} {f : Nat} {s : State}
    (sub : [.gate, .fns, .hif, .pages, .regs] ⊆ ps) (h₀ : Frame ps r₀ s) :
    ∃ z, execPcieFlr f s = .next z ∧ Frame ps r₀ z := by
  refine ⟨_, rfl, ?_⟩
  try dsimp only
  repeat' first
    | with_reducible assumption
    | with_reducible exact List.Subset.trans (by decide) sub
    | with_reducible apply State.bump_frame
    | with_reducible apply State.ev_frame
    | with_reducible apply State.wake_frame
    | with_reducible apply armReset_frame
    | with_reducible apply resetDeviceControl_frame
    | with_reducible refine Frame.ite ?_ ?_
    | dsimp only
    | split

theorem enableFn_frame {ps : List Part} {r₀ : State} {s : State} {f : Nat} {pcie : Bool} {asqs acqs asq acq : Nat}
    (sub : [.fns] ⊆ ps) (h₀ : Frame ps r₀ s) : Frame ps r₀ (enableFn s f pcie asqs acqs asq acq) := by
  unfold enableFn
  try dsimp only
  repeat' first
    | with_reducible assumption
    | with_reducible exact List.Subset.trans (by decide) sub
    | with_reducible apply State.updFn_frame
    | with_reducible refine Frame.ite ?_ ?_
    | dsimp only
    | split

theorem execCcEnSet_frame {ps : List Part} {r₀ : State} {f : Nat} {port : Option Nat} {asqs acqs asq acq : Nat} {s : State}
    (sub : [.gate, .fns, .hif, .pages, .regs] ⊆ ps) (h₀ : Frame ps r₀ s) :
    ∃ z, execCcEnSet f port asqs acqs asq acq s = .next z ∧ Frame ps r₀ z := by
  refine ⟨_, rfl, ?_⟩
  try dsimp only
  repeat' first
    | with_reducible assumption
    | with_reducible exact List.Subset.trans (by decide) sub
    | with_reducible apply State.bump_frame
    | with_reducible apply State.ev_frame
    | with_reducible apply State.setHif_frame
    | with_reducible apply State.wake_frame
    | with_reducible apply enableFn_frame
    | with_reducible refine Frame.ite ?_ ?_
    | dsimp only
    | split

theorem execCcEnClear_frame {ps : List Part} {r₀ : State} {f : Nat} {port : Option Nat} {s : State}
    (sub : [.gate, .fns, .hif] ⊆ ps) (h₀ : Frame ps r₀ s) :
    ∃ z, execCcEnClear f port s = .next z ∧ Frame ps r₀ z := by
  refine ⟨_, rfl, ?_⟩
  try dsimp only
  repeat' first
    | with_reducible assumption
    | with_reducible exact List.Subset.trans (by decide) sub
    | with_reducible apply State.setFn_frame
    | with_reducible apply State.setHif_frame
    | with_reducible apply State.updFn_frame
    | with_reducible apply State.wake_frame
    | with_reducible apply armReset_frame
    | with_reducible refine Frame.ite ?_ ?_
    | dsimp only
    | split

theorem State.setPort_frame {ps : List Part} {r₀ : State} {s : State} {p : Nat} {x : Port}
    (sub : [.hif] ⊆ ps) (h₀ : Frame ps r₀ s) : Frame ps r₀ (State.setPort s p x) := by
  unfold State.setPort
  try dsimp only
  repeat' first
    | with_reducible assumption
    | with_reducible exact List.Subset.trans (by decide) sub
    | with_reducible apply State.setHif_frame
    | dsimp only
    | split

theorem execSriovNumvfsWrite_frame {ps : List Part} {r₀ : State} {p n : Nat} {s : State}
    (sub : [.gate, .fns, .hif] ⊆ ps) (h₀ : Frame ps r₀ s) :
    ∃ z, execSriovNumvfsWrite p n s = .next z ∧ Frame ps r₀ z := by
  refine ⟨_, rfl, ?_⟩
  try dsimp only
  repeat' first
    | with_reducible assumption
    | with_reducible exact List.Subset.trans (by decide) sub
    | with_reducible apply State.setPort_frame
    | with_reducible apply State.wake_frame
    | with_reducible apply armReset_frame
    | with_reducible refine Frame.foldlFst (fun _ _ _ => ?_) ?_
    | with_reducible refine Frame.foldl (fun _ _ _ => ?_) ?_
    | with_reducible refine Frame.ite ?_ ?_
    | dsimp only
    | split

end Sys2Proof.Machine
end

