-- ==== Sys2Proof/Laws/Links.lean ====
section
/-! SUPPORT. What each operation of Machine/Links.lean may change. -/

-- one proof after another: many at once would each hold a thread
set_option Elab.async false

namespace Sys2Proof.Machine

open Sys2Proof

theorem portDown_frame {ps : List Part} {r₀ : State} {s : State} {p : Nat} {perst : Bool}
    (sub : [.hif, .regs] ⊆ ps) (h₀ : Frame ps r₀ s) : Frame ps r₀ (portDown s p perst) := by
  unfold portDown
  try dsimp only
  repeat' first
    | with_reducible assumption
    | with_reducible exact List.Subset.trans (by decide) sub
    | with_reducible apply State.setPort_frame
    | with_reducible apply State.wrAt_frame
    | dsimp only
    | split

theorem linkReset_frame {ps : List Part} {r₀ : State} {s : State} {p : Nat} {perst : Bool}
    (sub : [.fns, .hif, .evl, .pages, .regs] ⊆ ps) (h₀ : Frame ps r₀ s) : Frame ps r₀ (linkReset s p perst) := by
  unfold linkReset
  try dsimp only
  repeat' first
    | with_reducible assumption
    | with_reducible exact List.Subset.trans (by decide) sub
    | with_reducible apply State.bump_frame
    | with_reducible apply State.ev_frame
    | with_reducible apply State.raise_frame
    | with_reducible apply State.setHif_frame
    | with_reducible apply State.updFn_frame
    | with_reducible apply armReset_frame
    | with_reducible apply portDown_frame
    | with_reducible apply resetDeviceControl_frame
    | with_reducible refine Frame.foldlFst (fun _ _ _ => ?_) ?_
    | with_reducible refine Frame.foldl (fun _ _ _ => ?_) ?_
    | with_reducible refine Frame.ite ?_ ?_
    | dsimp only
    | split

theorem phaseMs_frame {ps : List Part} {r₀ : State} {s : State} {n from_ : Nat}
    (sub : [.regs] ⊆ ps) (h₀ : Frame ps r₀ s) : Frame ps r₀ (phaseMs s n from_) := by
  unfold phaseMs
  try dsimp only
  repeat' first
    | with_reducible assumption
    | with_reducible exact List.Subset.trans (by decide) sub
    | with_reducible apply State.wrAt_frame
    | with_reducible refine Frame.ite ?_ ?_
    | dsimp only
    | split

theorem execPcieLinkUp_frame {ps : List Part} {r₀ : State} {p speed width : Nat} {flit : Bool} {s : State}
    (sub : [.gate, .hif, .bot, .evl, .pages, .regs] ⊆ ps) (h₀ : Frame ps r₀ s) :
    ∃ z, execPcieLinkUp p speed width flit s = .next z ∧ Frame ps r₀ z := by
  refine ⟨_, rfl, ?_⟩
  try dsimp only
  repeat' first
    | with_reducible assumption
    | with_reducible exact List.Subset.trans (by decide) sub
    | with_reducible apply State.ev_frame
    | with_reducible apply State.raise_frame
    | with_reducible apply State.setBot_frame
    | with_reducible apply State.setPort_frame
    | with_reducible apply State.wake_frame
    | with_reducible apply State.wrAt_frame
    | with_reducible apply phaseMs_frame
    | with_reducible refine Frame.ite ?_ ?_
    | dsimp only
    | split

theorem execPcieLinkDown_frame {ps : List Part} {r₀ : State} {p : Nat} {s : State}
    (sub : [.fns, .hif, .evl, .pages, .regs] ⊆ ps) (h₀ : Frame ps r₀ s) :
    ∃ z, execPcieLinkDown p s = .next z ∧ Frame ps r₀ z := by
  refine ⟨_, rfl, ?_⟩
  try dsimp only
  repeat' first
    | with_reducible assumption
    | with_reducible exact List.Subset.trans (by decide) sub
    | with_reducible apply linkReset_frame
    | with_reducible refine Frame.ite ?_ ?_
    | dsimp only
    | split

theorem execPerstAssert_frame {ps : List Part} {r₀ : State} {p : Nat} {s : State}
    (sub : [.fns, .hif, .evl, .pages, .regs] ⊆ ps) (h₀ : Frame ps r₀ s) :
    ∃ z, execPerstAssert p s = .next z ∧ Frame ps r₀ z := by
  refine ⟨_, rfl, ?_⟩
  try dsimp only
  repeat' first
    | with_reducible assumption
    | with_reducible exact List.Subset.trans (by decide) sub
    | with_reducible apply linkReset_frame
    | with_reducible refine Frame.ite ?_ ?_
    | dsimp only
    | split

theorem execPcieConfigRequest_frame {ps : List Part} {r₀ : State} {p f : Nat} {req : ConfigReq} {s : State}
    (sub : [.ans, .gate, .hif] ⊆ ps) (h₀ : Frame ps r₀ s) :
    ∃ z, execPcieConfigRequest p f req s = .next z ∧ Frame ps r₀ z := by
  refine ⟨_, rfl, ?_⟩
  try dsimp only
  repeat' first
    | with_reducible assumption
    | with_reducible exact List.Subset.trans (by decide) sub
    | with_reducible apply State.answer_frame
    | with_reducible apply State.setHif_frame
    | with_reducible apply State.wake_frame
    | with_reducible refine Frame.ite ?_ ?_
    | dsimp only
    | split

theorem execHifWinClose_frame {ps : List Part} {r₀ : State} {w : Dword} {s : State}
    (sub : [.gate, .hif] ⊆ ps) (h₀ : Frame ps r₀ s) :
    ∃ z, execHifWinClose w s = .next z ∧ Frame ps r₀ z := by
  refine ⟨_, rfl, ?_⟩
  try dsimp only
  repeat' first
    | with_reducible assumption
    | with_reducible exact List.Subset.trans (by decide) sub
    | with_reducible apply State.setHif_frame
    | with_reducible apply State.wakePage_frame
    | with_reducible refine Frame.ite ?_ ?_
    | dsimp only
    | split

theorem execHifIdeFail_frame {ps : List Part} {r₀ : State} {k : Nat} {s : State}
    (sub : [.fns, .hif, .evl, .pages, .regs] ⊆ ps) (h₀ : Frame ps r₀ s) :
    ∃ z, execHifIdeFail k s = .next z ∧ Frame ps r₀ z := by
  refine ⟨_, rfl, ?_⟩
  try dsimp only
  split
  all_goals repeat' first
    | with_reducible assumption
    | with_reducible exact List.Subset.trans (by decide) sub
    | with_reducible apply State.ev_frame
    | with_reducible apply State.raise_frame
    | with_reducible apply State.setHif_frame
    | with_reducible apply armReset_frame
    | with_reducible refine Frame.foldlFst (fun _ _ _ => ?_) ?_
    | with_reducible refine Frame.foldl (fun _ _ _ => ?_) ?_
    | with_reducible refine Frame.ite ?_ ?_
    | dsimp only
    | split

theorem State.setIface_frame {ps : List Part} {r₀ : State} {s : State} {i : Nat} {x : Iface}
    (sub : [.net] ⊆ ps) (h₀ : Frame ps r₀ s) : Frame ps r₀ (State.setIface s i x) := by
  unfold State.setIface
  try dsimp only
  repeat' first
    | with_reducible assumption
    | with_reducible exact List.Subset.trans (by decide) sub
    | with_reducible apply State.setNet_frame
    | dsimp only
    | split

theorem execEthLinkChange_frame {ps : List Part} {r₀ : State} {i : Nat} {up : Bool} {s : State}
    (sub : [.net, .pages, .regs] ⊆ ps) (h₀ : Frame ps r₀ s) :
    ∃ z, execEthLinkChange i up s = .next z ∧ Frame ps r₀ z := by
  refine ⟨_, rfl, ?_⟩
  try dsimp only
  repeat' first
    | with_reducible assumption
    | with_reducible exact List.Subset.trans (by decide) sub
    | with_reducible apply State.ev_frame
    | with_reducible apply State.setIface_frame
    | with_reducible apply State.wr_frame
    | with_reducible refine Frame.foldlFst (fun _ _ _ => ?_) ?_
    | with_reducible refine Frame.foldl (fun _ _ _ => ?_) ?_
    | with_reducible refine Frame.ite ?_ ?_
    | dsimp only
    | split

theorem execNetPfcStorm_frame {ps : List Part} {r₀ : State} {i : Nat} {s : State}
    (sub : [.net, .evl, .pages, .regs] ⊆ ps) (h₀ : Frame ps r₀ s) :
    ∃ z, execNetPfcStorm i s = .next z ∧ Frame ps r₀ z := by
  refine ⟨_, rfl, ?_⟩
  try dsimp only
  repeat' first
    | with_reducible assumption
    | with_reducible exact List.Subset.trans (by decide) sub
    | with_reducible apply State.ev_frame
    | with_reducible apply State.raise_frame
    | with_reducible apply State.setIface_frame
    | with_reducible refine Frame.ite ?_ ?_
    | dsimp only
    | split

theorem execPfcStormEnd_frame {ps : List Part} {r₀ : State} {i : Nat} {s : State}
    (sub : [.net] ⊆ ps) (h₀ : Frame ps r₀ s) :
    ∃ z, execPfcStormEnd i s = .next z ∧ Frame ps r₀ z := by
  refine ⟨_, rfl, ?_⟩
  try dsimp only
  repeat' first
    | with_reducible assumption
    | with_reducible exact List.Subset.trans (by decide) sub
    | with_reducible apply State.setIface_frame
    | with_reducible refine Frame.ite ?_ ?_
    | dsimp only
    | split

theorem packetIn_frame {ps : List Part} {r₀ : State} {s : State} {i : Nat} {act : State → State}
    (ha : ∀ u, Frame ps r₀ u → Frame ps r₀ (act u)) (sub : [.gate] ⊆ ps) (h₀ : Frame ps r₀ s) :
    Frame ps r₀ (packetIn s i act) := by
  unfold packetIn
  try dsimp only
  repeat' first
    | with_reducible assumption
    | with_reducible exact List.Subset.trans (by decide) sub
    | with_reducible refine ha _ ?_
    | with_reducible apply State.wake_frame
    | with_reducible refine Frame.ite ?_ ?_
    | dsimp only
    | split

theorem execArpRequest_frame {ps : List Part} {r₀ : State} {i ip : Nat} {s : State}
    (sub : [.ans, .gate] ⊆ ps) (h₀ : Frame ps r₀ s) :
    ∃ z, execArpRequest i ip s = .next z ∧ Frame ps r₀ z := by
  refine ⟨_, rfl, ?_⟩
  try dsimp only
  repeat' first
    | with_reducible assumption
    | with_reducible exact List.Subset.trans (by decide) sub
    | with_reducible apply State.answer_frame
    | with_reducible refine packetIn_frame (fun _ _ => ?_) ?_ ?_
    | with_reducible refine Frame.ite ?_ ?_
    | dsimp only
    | split

theorem execNeighborDiscovery_frame {ps : List Part} {r₀ : State} {i ip : Nat} {s : State}
    (sub : [.ans, .gate] ⊆ ps) (h₀ : Frame ps r₀ s) :
    ∃ z, execNeighborDiscovery i ip s = .next z ∧ Frame ps r₀ z := by
  refine ⟨_, rfl, ?_⟩
  try dsimp only
  repeat' first
    | with_reducible assumption
    | with_reducible exact List.Subset.trans (by decide) sub
    | with_reducible apply State.answer_frame
    | with_reducible refine packetIn_frame (fun _ _ => ?_) ?_ ?_
    | with_reducible refine Frame.ite ?_ ?_
    | dsimp only
    | split

theorem execIcmpEcho_frame {ps : List Part} {r₀ : State} {i ip : Nat} {v6 : Bool} {data : List Byte} {s : State}
    (sub : [.ans, .gate] ⊆ ps) (h₀ : Frame ps r₀ s) :
    ∃ z, execIcmpEcho i ip v6 data s = .next z ∧ Frame ps r₀ z := by
  refine ⟨_, rfl, ?_⟩
  try dsimp only
  repeat' first
    | with_reducible assumption
    | with_reducible exact List.Subset.trans (by decide) sub
    | with_reducible apply State.answer_frame
    | with_reducible refine packetIn_frame (fun _ _ => ?_) ?_ ?_
    | with_reducible refine Frame.ite ?_ ?_
    | dsimp only
    | split

theorem execRouterAdvertisement_frame {ps : List Part} {r₀ : State} {i router lifetime : Nat} {s : State}
    (sub : [.gate, .net] ⊆ ps) (h₀ : Frame ps r₀ s) :
    ∃ z, execRouterAdvertisement i router lifetime s = .next z ∧ Frame ps r₀ z := by
  refine ⟨_, rfl, ?_⟩
  try dsimp only
  repeat' first
    | with_reducible assumption
    | with_reducible exact List.Subset.trans (by decide) sub
    | with_reducible apply State.setIface_frame
    | with_reducible refine packetIn_frame (fun _ _ => ?_) ?_ ?_
    | with_reducible refine Frame.ite ?_ ?_
    | dsimp only
    | split

theorem execTlsHandshake_frame {ps : List Part} {r₀ : State} {f suite psk : Nat} {s : State}
    (sub : [.ans, .draws, .gate, .key, .cip, .net, .pages] ⊆ ps) (h₀ : Frame ps r₀ s) :
    ∃ z, execTlsHandshake f suite psk s = .next z ∧ Frame ps r₀ z := by
  refine ⟨_, rfl, ?_⟩
  try dsimp only
  repeat' first
    | with_reducible assumption
    | with_reducible exact List.Subset.trans (by decide) sub
    | with_reducible apply State.answer_frame
    | with_reducible apply State.ev_frame
    | with_reducible apply State.setCip_frame
    | with_reducible apply State.setKeySlot_frame
    | with_reducible apply State.setNet_frame
    | with_reducible apply State.wake_frame
    | with_reducible refine Frame.ite ?_ ?_
    | with_reducible apply State.draw_frame
    | with_reducible refine State.draw_eq_frame (by assumption) ?_ ?_
    | dsimp only
    | split

theorem loseDiscovery_frame {ps : List Part} {r₀ : State} {s : State} {cause : Nat} {which : Assoc → Bool}
    (sub : [.net, .evl, .pages, .regs] ⊆ ps) (h₀ : Frame ps r₀ s) : Frame ps r₀ (loseDiscovery s cause which) := by
  unfold loseDiscovery
  try dsimp only
  split
  all_goals repeat' first
    | with_reducible assumption
    | with_reducible exact List.Subset.trans (by decide) sub
    | with_reducible apply State.ev_frame
    | with_reducible apply State.raise_frame
    | with_reducible apply State.setNet_frame
    | dsimp only
    | split

theorem loseAssoc_frame {ps : List Part} {r₀ : State} {s : State} {f cause : Nat}
    (sub : [.fns, .net, .evl, .pages, .regs] ⊆ ps) (h₀ : Frame ps r₀ s) : Frame ps r₀ (loseAssoc s f cause) := by
  unfold loseAssoc
  try dsimp only
  repeat' first
    | with_reducible assumption
    | with_reducible exact List.Subset.trans (by decide) sub
    | with_reducible apply State.ev_frame
    | with_reducible apply State.raise_frame
    | with_reducible apply armReset_frame
    | with_reducible apply loseDiscovery_frame
    | with_reducible refine Frame.ite ?_ ?_
    | dsimp only
    | split

theorem execTlsRecordReceive_frame {ps : List Part} {r₀ : State} {a : Nat} {tagOk : Bool} {s : State}
    (sub : [.ans, .gate, .fns, .key, .cip, .net, .evl, .pages, .regs] ⊆ ps) (h₀ : Frame ps r₀ s) :
    ∃ z, execTlsRecordReceive a tagOk s = .next z ∧ Frame ps r₀ z := by
  refine ⟨_, rfl, ?_⟩
  try dsimp only
  split
  all_goals repeat' first
    | with_reducible assumption
    | with_reducible exact List.Subset.trans (by decide) sub
    | with_reducible apply State.answer_frame
    | with_reducible apply State.bump_frame
    | with_reducible apply State.ev_frame
    | with_reducible apply State.raise_frame
    | with_reducible apply State.setCip_frame
    | with_reducible apply State.wake_frame
    | with_reducible apply freeTls_frame
    | with_reducible apply loseAssoc_frame
    | with_reducible refine Frame.ite ?_ ?_
    | dsimp only
    | split

theorem execTlsKeyUpdate_frame {ps : List Part} {r₀ : State} {a : Nat} {tx : Bool} {s : State}
    (sub : [.draws, .key, .cip, .regs] ⊆ ps) (h₀ : Frame ps r₀ s) :
    ∃ z, execTlsKeyUpdate a tx s = .next z ∧ Frame ps r₀ z := by
  refine ⟨_, rfl, ?_⟩
  try dsimp only
  split
  all_goals repeat' first
    | with_reducible assumption
    | with_reducible exact List.Subset.trans (by decide) sub
    | with_reducible apply State.bump_frame
    | with_reducible apply State.setCip_frame
    | with_reducible apply State.setKey_frame
    | with_reducible apply State.setKeySlot_frame
    | with_reducible refine Frame.ite ?_ ?_
    | with_reducible apply State.draw_frame
    | with_reducible refine State.draw_eq_frame (by assumption) ?_ ?_
    | dsimp only
    | split

theorem discoveryTick_frame {ps : List Part} {r₀ : State} {s : State}
    (sub : [.net] ⊆ ps) (h₀ : Frame ps r₀ s) : Frame ps r₀ (discoveryTick s) := by
  unfold discoveryTick
  try dsimp only
  repeat' first
    | with_reducible assumption
    | with_reducible exact List.Subset.trans (by decide) sub
    | with_reducible apply State.setNet_frame
    | with_reducible refine Frame.ite ?_ ?_
    | dsimp only
    | split

theorem connectRefuse_frame {ps : List Part} {r₀ : State} {s : State} {t : Nat}
    (sub : [.ans, .net, .evl, .pages, .regs] ⊆ ps) (h₀ : Frame ps r₀ s) : Frame ps r₀ (connectRefuse s t) := by
  unfold connectRefuse
  try dsimp only
  repeat' first
    | with_reducible assumption
    | with_reducible exact List.Subset.trans (by decide) sub
    | with_reducible apply State.answer_frame
    | with_reducible apply State.bump_frame
    | with_reducible apply State.ev_frame
    | with_reducible apply State.raise_frame
    | with_reducible apply State.setNet_frame
    | with_reducible refine Frame.ite ?_ ?_
    | dsimp only
    | split

theorem beginAssoc_frame {ps : List Part} {r₀ : State} {s : State} {f hostHash kato i : Nat} {v6 rdma : Bool} {tls : Option Nat} {seen : List DiscItem}
    (sub : [.net] ⊆ ps) (h₀ : Frame ps r₀ s) : Frame ps r₀ (beginAssoc s f hostHash kato i v6 rdma tls seen) := by
  unfold beginAssoc
  try dsimp only
  repeat' first
    | with_reducible assumption
    | with_reducible exact List.Subset.trans (by decide) sub
    | with_reducible apply State.setNet_frame
    | dsimp only
    | split

theorem execConnect_frame {ps : List Part} {r₀ : State} {f qid size hostHash kato i : Nat} {v6 rdma : Bool} {tls : Option Nat} {s : State}
    (sub : [.ans, .draws, .gate, .fns, .net, .evl, .pages, .regs] ⊆ ps) (h₀ : Frame ps r₀ s) :
    ∃ z, execConnect f qid size hostHash kato i v6 rdma tls s = .next z ∧ Frame ps r₀ z := by
  refine ⟨_, rfl, ?_⟩
  try dsimp only
  repeat' first
    | with_reducible assumption
    | with_reducible exact List.Subset.trans (by decide) sub
    | with_reducible apply State.answer_frame
    | with_reducible apply State.updAssoc_frame
    | with_reducible apply State.updFn_frame
    | with_reducible apply State.wake_frame
    | with_reducible apply beginAssoc_frame
    | with_reducible apply connectRefuse_frame
    | with_reducible refine Frame.ite ?_ ?_
    | with_reducible apply State.draw_frame
    | with_reducible refine State.draw_eq_frame (by assumption) ?_ ?_
    | dsimp only
    | split

theorem execCommandCapsule_frame {ps : List Part} {r₀ : State} {f qid cid dscp : Nat} {s : State}
    (sub : [.gate, .net] ⊆ ps) (h₀ : Frame ps r₀ s) :
    ∃ z, execCommandCapsule f qid cid dscp s = .next z ∧ Frame ps r₀ z := by
  refine ⟨_, rfl, ?_⟩
  try dsimp only
  repeat' first
    | with_reducible assumption
    | with_reducible exact List.Subset.trans (by decide) sub
    | with_reducible apply State.setNet_frame
    | with_reducible apply State.wake_frame
    | with_reducible refine Frame.ite ?_ ?_
    | dsimp only
    | split

theorem execKeepAliveExpiry_frame {ps : List Part} {r₀ : State} {f : Nat} {s : State}
    (sub : [.fns, .net, .evl, .pages, .regs] ⊆ ps) (h₀ : Frame ps r₀ s) :
    ∃ z, execKeepAliveExpiry f s = .next z ∧ Frame ps r₀ z := by
  refine ⟨_, rfl, ?_⟩
  try dsimp only
  repeat' first
    | with_reducible assumption
    | with_reducible exact List.Subset.trans (by decide) sub
    | with_reducible apply State.bump_frame
    | with_reducible apply loseAssoc_frame
    | with_reducible apply loseDiscovery_frame
    | with_reducible refine Frame.ite ?_ ?_
    | dsimp only
    | split

theorem execAdminConnectionClose_frame {ps : List Part} {r₀ : State} {f : Nat} {s : State}
    (sub : [.fns, .net, .evl, .pages, .regs] ⊆ ps) (h₀ : Frame ps r₀ s) :
    ∃ z, execAdminConnectionClose f s = .next z ∧ Frame ps r₀ z := by
  refine ⟨_, rfl, ?_⟩
  try dsimp only
  repeat' first
    | with_reducible assumption
    | with_reducible exact List.Subset.trans (by decide) sub
    | with_reducible apply loseAssoc_frame
    | dsimp only
    | split

theorem execPropertyGet_frame {ps : List Part} {r₀ : State} {f off : Nat} {s : State}
    (sub : [.ans, .gate] ⊆ ps) (h₀ : Frame ps r₀ s) :
    ∃ z, execPropertyGet f off s = .next z ∧ Frame ps r₀ z := by
  refine ⟨_, rfl, ?_⟩
  try dsimp only
  repeat' first
    | with_reducible assumption
    | with_reducible exact List.Subset.trans (by decide) sub
    | with_reducible apply State.answer_frame
    | with_reducible apply State.wake_frame
    | with_reducible refine Frame.ite ?_ ?_
    | dsimp only
    | split

theorem execDiscoveryLogPage_frame {ps : List Part} {r₀ : State} {hostHash : Nat} {s : State}
    (sub : [.ans, .gate, .net] ⊆ ps) (h₀ : Frame ps r₀ s) :
    ∃ z, execDiscoveryLogPage hostHash s = .next z ∧ Frame ps r₀ z := by
  refine ⟨_, rfl, ?_⟩
  try dsimp only
  repeat' first
    | with_reducible assumption
    | with_reducible exact List.Subset.trans (by decide) sub
    | with_reducible apply State.answer_frame
    | with_reducible apply State.setNet_frame
    | with_reducible apply State.wake_frame
    | with_reducible refine Frame.ite ?_ ?_
    | dsimp only
    | split

end Sys2Proof.Machine
end

