-- ==== Sys2Proof/Laws/Words.lean ====
section
/-! SUPPORT. What each operation of Machine/Words.lean may change. -/

-- one proof after another: many at once would each hold a thread
set_option Elab.async false

namespace Sys2Proof.Machine

open Sys2Proof

theorem storeField_frame {ps : List Part} {r₀ : State} {s : State} {p : Path} {f : Fld} {inst k v : Nat}
    (sub : [.paths, .regs] ⊆ ps) (h₀ : Frame ps r₀ s) : Frame ps r₀ (storeField s p f inst k v) := by
  unfold storeField
  try dsimp only
  repeat' first
    | with_reducible assumption
    | with_reducible exact List.Subset.trans (by decide) sub
    | with_reducible apply State.setPath_frame
    | with_reducible apply State.wrAt_frame
    | with_reducible apply State.wrBank_frame
    | with_reducible refine Frame.ite ?_ ?_
    | dsimp only
    | split

theorem storeWord_frame {ps : List Part} {r₀ : State} {s : State} {p : Path} {pg off : Nat} {w : Dword}
    (sub : [.paths, .regs] ⊆ ps) (h₀ : Frame ps r₀ s) : Frame ps r₀ (storeWord s p pg off w) := by
  unfold storeWord
  try dsimp only
  repeat' first
    | with_reducible assumption
    | with_reducible exact List.Subset.trans (by decide) sub
    | with_reducible apply State.bump_frame
    | with_reducible apply storeField_frame
    | with_reducible refine Frame.foldlFst (fun _ _ _ => ?_) ?_
    | with_reducible refine Frame.foldl (fun _ _ _ => ?_) ?_
    | with_reducible refine Frame.ite ?_ ?_
    | dsimp only
    | split

end Sys2Proof.Machine
end

