-- ==== Sys2Proof/Laws/Media.lean ====
section
/-! SUPPORT. What each operation of Machine/Media.lean may change. -/

-- one proof after another: many at once would each hold a thread
set_option Elab.async false

namespace Sys2Proof.Machine

open Sys2Proof

theorem State.setThresh_frame {ps : List Part} {r₀ : State} {s : State} {die entry : Nat} {x : ThreshEntry}
    (sub : [.ldc] ⊆ ps) (h₀ : Frame ps r₀ s) : Frame ps r₀ (State.setThresh s die entry x) := by
  unfold State.setThresh
  try dsimp only
  repeat' first
    | with_reducible assumption
    | with_reducible exact List.Subset.trans (by decide) sub
    | with_reducible apply State.setLdc_frame
    | dsimp only
    | split

theorem trackDecode_frame {ps : List Part} {r₀ : State} {s : State} {m : MemberRead} {bits ones : Nat}
    (sub : [.ldc] ⊆ ps) (h₀ : Frame ps r₀ s) : Frame ps r₀ (trackDecode s m bits ones) := by
  unfold trackDecode
  try dsimp only
  repeat' first
    | with_reducible assumption
    | with_reducible exact List.Subset.trans (by decide) sub
    | with_reducible apply State.setThresh_frame
    | with_reducible refine Frame.ite ?_ ?_
    | dsimp only
    | split

theorem execTrackerReview_frame {ps : List Part} {r₀ : State} {die entry : Nat} {s : State}
    (sub : [.ldc] ⊆ ps) (h₀ : Frame ps r₀ s) :
    ∃ z, execTrackerReview die entry s = .next z ∧ Frame ps r₀ z := by
  refine ⟨_, rfl, ?_⟩
  try dsimp only
  repeat' first
    | with_reducible assumption
    | with_reducible exact List.Subset.trans (by decide) sub
    | with_reducible apply State.setThresh_frame
    | with_reducible refine Frame.ite ?_ ?_
    | dsimp only
    | split

theorem poisonBlock_frame {ps : List Part} {r₀ : State} {s : State} {ns lba mga step : Nat}
    (sub : [.map, .wbf, .ldc, .par, .evl, .pages, .regs] ⊆ ps) (h₀ : Frame ps r₀ s) : Frame ps r₀ (poisonBlock s ns lba mga step) := by
  unfold poisonBlock
  try dsimp only
  repeat' first
    | with_reducible assumption
    | with_reducible exact List.Subset.trans (by decide) sub
    | with_reducible apply State.ev_frame
    | with_reducible apply State.raise_frame
    | with_reducible apply State.setLdc_frame
    | with_reducible apply swapMga_frame
    | with_reducible refine Frame.ite ?_ ?_
    | dsimp only
    | split

theorem execPoisonWait_frame {ps : List Part} {r₀ : State} {s : State}
    (sub : [.map, .wbf, .ldc, .par, .evl, .pages, .regs] ⊆ ps) (h₀ : Frame ps r₀ s) :
    ∃ z, execPoisonWait s = .next z ∧ Frame ps r₀ z := by
  refine ⟨_, rfl, ?_⟩
  try dsimp only
  repeat' first
    | with_reducible assumption
    | with_reducible exact List.Subset.trans (by decide) sub
    | with_reducible apply State.setLdc_frame
    | with_reducible apply poisonBlock_frame
    | with_reducible refine Frame.foldlFst (fun _ _ _ => ?_) ?_
    | with_reducible refine Frame.foldl (fun _ _ _ => ?_) ?_
    | dsimp only
    | split

theorem execReverseSearch_frame {ps : List Part} {r₀ : State} {s : State}
    (sub : [.map, .wbf, .ldc, .par, .evl, .pages, .regs] ⊆ ps) (h₀ : Frame ps r₀ s) :
    ∃ z, execReverseSearch s = .next z ∧ Frame ps r₀ z := by
  refine ⟨_, rfl, ?_⟩
  try dsimp only
  repeat' first
    | with_reducible assumption
    | with_reducible exact List.Subset.trans (by decide) sub
    | with_reducible apply State.setLdc_frame
    | with_reducible apply poisonBlock_frame
    | with_reducible refine Frame.foldlFst (fun _ _ _ => ?_) ?_
    | with_reducible refine Frame.foldl (fun _ _ _ => ?_) ?_
    | dsimp only
    | split

theorem dropJob_frame {ps : List Part} {r₀ : State} {s : State} {id : Nat}
    (sub : [.stp] ⊆ ps) (h₀ : Frame ps r₀ s) : Frame ps r₀ (dropJob s id) := by
  unfold dropJob
  try dsimp only
  repeat' first
    | with_reducible assumption
    | with_reducible exact List.Subset.trans (by decide) sub
    | with_reducible apply State.setStp_frame
    | dsimp only
    | split

theorem setPart_frame {ps : List Part} {r₀ : State} {s : State} {j : RdJob} {g : ReadPart → ReadPart}
    (sub : [.qmx] ⊆ ps) (h₀ : Frame ps r₀ s) : Frame ps r₀ (setPart s j g) := by
  unfold setPart
  try dsimp only
  repeat' first
    | with_reducible assumption
    | with_reducible exact List.Subset.trans (by decide) sub
    | with_reducible apply State.updCmd_frame
    | with_reducible refine Frame.ite ?_ ?_
    | dsimp only
    | split

theorem unrecovered_frame {ps : List Part} {r₀ : State} {s : State} {j : RdJob}
    (sub : [.stp, .qmx, .map, .wbf, .ldc, .par, .evl, .pages, .regs] ⊆ ps) (h₀ : Frame ps r₀ s) : Frame ps r₀ (unrecovered s j) := by
  unfold unrecovered
  try dsimp only
  repeat' first
    | with_reducible assumption
    | with_reducible exact List.Subset.trans (by decide) sub
    | with_reducible apply State.bump_frame
    | with_reducible apply State.ev_frame
    | with_reducible apply State.setLdc_frame
    | with_reducible apply dropJob_frame
    | with_reducible apply poisonBlock_frame
    | with_reducible apply setPart_frame
    | dsimp only
    | split

theorem deliver_frame {ps : List Part} {r₀ : State} {s : State} {j : RdJob} {b : Block} {x : Info}
    (sub : [.stp, .qmx] ⊆ ps) (h₀ : Frame ps r₀ s) : Frame ps r₀ (deliver s j b x) := by
  unfold deliver
  try dsimp only
  repeat' first
    | with_reducible assumption
    | with_reducible exact List.Subset.trans (by decide) sub
    | with_reducible apply dropJob_frame
    | with_reducible apply setPart_frame
    | with_reducible refine Frame.ite ?_ ?_
    | dsimp only
    | split

theorem jobResult_frame {ps : List Part} {r₀ : State} {s : State} {j : RdJob} {x : Info} {bits : Nat}
    (sub : [.stp, .qmx, .cip, .pages, .regs] ⊆ ps) (h₀ : Frame ps r₀ s) : Frame ps r₀ (jobResult s j x bits) := by
  unfold jobResult
  try dsimp only
  repeat' first
    | with_reducible assumption
    | with_reducible exact List.Subset.trans (by decide) sub
    | with_reducible apply State.updJob_frame
    | with_reducible apply deliver_frame
    | with_reducible apply engOffer_frame
    | with_reducible refine Frame.ite ?_ ?_
    | dsimp only
    | split

theorem misdirect_frame {ps : List Part} {r₀ : State} {s : State}
    (sub : [.ldc, .evl, .pages, .regs] ⊆ ps) (h₀ : Frame ps r₀ s) : Frame ps r₀ (misdirect s) := by
  unfold misdirect
  try dsimp only
  repeat' first
    | with_reducible assumption
    | with_reducible exact List.Subset.trans (by decide) sub
    | with_reducible apply State.bump_frame
    | with_reducible apply State.ev_frame
    | with_reducible apply State.raise_frame
    | with_reducible apply State.setLdc_frame
    | with_reducible refine Frame.ite ?_ ?_
    | dsimp only
    | split

theorem fallBack_frame {ps : List Part} {r₀ : State} {s : State} {j : RdJob}
    (sub : [.stp] ⊆ ps) (h₀ : Frame ps r₀ s) : Frame ps r₀ (fallBack s j) := by
  unfold fallBack
  try dsimp only
  repeat' first
    | with_reducible assumption
    | with_reducible exact List.Subset.trans (by decide) sub
    | with_reducible apply State.updJob_frame
    | dsimp only
    | split

theorem settleJob_frame {ps : List Part} {r₀ : State} {s : State} {id : Nat}
    (sub : [.stp, .qmx, .map, .wbf, .ldc, .par, .cip, .evl, .pages, .regs] ⊆ ps) (h₀ : Frame ps r₀ s) : Frame ps r₀ (settleJob s id) := by
  unfold settleJob
  try dsimp only
  split
  all_goals repeat' first
    | with_reducible assumption
    | with_reducible exact List.Subset.trans (by decide) sub
    | with_reducible apply State.bump_frame
    | with_reducible apply State.ev_frame
    | with_reducible apply State.updJob_frame
    | with_reducible apply fallBack_frame
    | with_reducible apply jobResult_frame
    | with_reducible apply misdirect_frame
    | with_reducible apply unrecovered_frame
    | with_reducible refine Frame.ite ?_ ?_
    | dsimp only
    | split

theorem memberFail_frame {ps : List Part} {r₀ : State} {s : State} {j : RdJob} {pos : Nat} {erased : Bool}
    (sub : [.stp, .qmx, .map, .wbf, .ldc, .par, .cip, .evl, .pages, .regs] ⊆ ps) (h₀ : Frame ps r₀ s) : Frame ps r₀ (memberFail s j pos erased) := by
  unfold memberFail
  try dsimp only
  repeat' first
    | with_reducible assumption
    | with_reducible exact List.Subset.trans (by decide) sub
    | with_reducible apply State.updJob_frame
    | with_reducible apply State.updMember_frame
    | with_reducible apply settleJob_frame
    | with_reducible refine Frame.ite ?_ ?_
    | dsimp only
    | split

theorem ladderFail_frame {ps : List Part} {r₀ : State} {s : State} {j : RdJob} {m : MemberRead} {erased : Bool} {shift : Int}
    (sub : [.stp, .qmx, .map, .wbf, .ldc, .par, .evl, .pages, .regs] ⊆ ps) (h₀ : Frame ps r₀ s) : Frame ps r₀ (ladderFail s j m erased shift) := by
  unfold ladderFail
  try dsimp only
  split
  all_goals repeat' first
    | with_reducible assumption
    | with_reducible exact List.Subset.trans (by decide) sub
    | with_reducible apply State.setThresh_frame
    | with_reducible apply State.updJob_frame
    | with_reducible apply State.updMember_frame
    | with_reducible apply unrecovered_frame
    | with_reducible refine Frame.ite ?_ ?_
    | dsimp only
    | split

theorem stepFail_frame {ps : List Part} {r₀ : State} {s : State} {j : RdJob} {m : MemberRead} {erased : Bool} {shift : Int}
    (sub : [.stp, .qmx, .map, .wbf, .ldc, .par, .cip, .evl, .pages, .regs] ⊆ ps) (h₀ : Frame ps r₀ s) : Frame ps r₀ (stepFail s j m erased shift) := by
  unfold stepFail
  try dsimp only
  repeat' first
    | with_reducible assumption
    | with_reducible exact List.Subset.trans (by decide) sub
    | with_reducible apply State.bump_frame
    | with_reducible apply State.updMember_frame
    | with_reducible apply ladderFail_frame
    | with_reducible apply memberFail_frame
    | with_reducible refine Frame.ite ?_ ?_
    | dsimp only
    | split

theorem countBits_frame {ps : List Part} {r₀ : State} {s : State} {m : MemberRead} {bits ones : Nat}
    (sub : [.ldc, .regs] ⊆ ps) (h₀ : Frame ps r₀ s) : Frame ps r₀ (countBits s m bits ones) := by
  unfold countBits
  try dsimp only
  repeat' first
    | with_reducible assumption
    | with_reducible exact List.Subset.trans (by decide) sub
    | with_reducible apply State.bump_frame
    | with_reducible apply State.setLdc_frame
    | with_reducible apply State.wr_frame
    | with_reducible apply trackDecode_frame
    | with_reducible refine Frame.ite ?_ ?_
    | dsimp only
    | split

theorem decoded_frame {ps : List Part} {r₀ : State} {s : State} {j : RdJob} {m : MemberRead} {x : Info} {here : Bool} {bits ones : Nat}
    (sub : [.stp, .qmx, .map, .wbf, .ldc, .par, .cip, .evl, .pages, .regs] ⊆ ps) (h₀ : Frame ps r₀ s) : Frame ps r₀ (decoded s j m x here bits ones) := by
  unfold decoded
  try dsimp only
  repeat' first
    | with_reducible assumption
    | with_reducible exact List.Subset.trans (by decide) sub
    | with_reducible apply State.bump_frame
    | with_reducible apply State.ev_frame
    | with_reducible apply State.updMember_frame
    | with_reducible apply countBits_frame
    | with_reducible apply jobResult_frame
    | with_reducible apply memberFail_frame
    | with_reducible apply misdirect_frame
    | with_reducible apply settleJob_frame
    | with_reducible apply stepFail_frame
    | with_reducible refine Frame.ite ?_ ?_
    | dsimp only
    | split

theorem injectNow_frame {ps : List Part} {r₀ : State} {s : State} {m : MemberRead}
    (sub : [.ldc, .pages] ⊆ ps) (h₀ : Frame ps r₀ s) : Frame ps r₀ (injectNow s m) := by
  unfold injectNow
  try dsimp only
  repeat' first
    | with_reducible assumption
    | with_reducible exact List.Subset.trans (by decide) sub
    | with_reducible apply State.ev_frame
    | with_reducible apply State.setLdc_frame
    | with_reducible refine Frame.ite ?_ ?_
    | dsimp only
    | split

theorem execDecodeDone_frame {ps : List Part} {r₀ : State} {id pos : Nat} {r : DecResult} {s : State}
    (sub : [.stp, .qmx, .map, .wbf, .ldc, .par, .cip, .evl, .pages, .regs] ⊆ ps) (h₀ : Frame ps r₀ s) :
    ∃ z, execDecodeDone id pos r s = .next z ∧ Frame ps r₀ z := by
  refine ⟨_, rfl, ?_⟩
  try dsimp only
  repeat' first
    | with_reducible assumption
    | with_reducible exact List.Subset.trans (by decide) sub
    | with_reducible apply State.bump_frame
    | with_reducible apply State.ev_frame
    | with_reducible apply decoded_frame
    | with_reducible apply dropJob_frame
    | with_reducible apply engDrop_frame
    | with_reducible apply injectNow_frame
    | with_reducible apply stepFail_frame
    | with_reducible refine Frame.ite ?_ ?_
    | dsimp only
    | split

theorem execLdcInjArm_frame {ps : List Part} {r₀ : State} {p : Path} {w : Dword} {s : State}
    (sub : [.gate, .ldc, .paths, .regs] ⊆ ps) (h₀ : Frame ps r₀ s) :
    ∃ z, execLdcInjArm p w s = .next z ∧ Frame ps r₀ z := by
  refine ⟨_, rfl, ?_⟩
  try dsimp only
  repeat' first
    | with_reducible assumption
    | with_reducible exact List.Subset.trans (by decide) sub
    | with_reducible apply State.setLdc_frame
    | with_reducible apply State.wakePage_frame
    | with_reducible apply storeWord_frame
    | with_reducible refine Frame.ite ?_ ?_
    | dsimp only
    | split

theorem execLdcBitsLoRead_frame {ps : List Part} {r₀ : State} {p : Path} {s : State}
    (sub : [.ans, .gate, .paths] ⊆ ps) (h₀ : Frame ps r₀ s) :
    ∃ z, execLdcBitsLoRead p s = .next z ∧ Frame ps r₀ z := by
  refine ⟨_, rfl, ?_⟩
  try dsimp only
  repeat' first
    | with_reducible assumption
    | with_reducible exact List.Subset.trans (by decide) sub
    | with_reducible apply State.answer_frame
    | with_reducible apply State.latch_frame
    | dsimp only
    | split

theorem execCipDecryptDone_frame {ps : List Part} {r₀ : State} {id : Nat} {tagOk : Bool} {s : State}
    (sub : [.stp, .qmx, .cip, .evl, .pages, .regs] ⊆ ps) (h₀ : Frame ps r₀ s) :
    ∃ z, execCipDecryptDone id tagOk s = .next z ∧ Frame ps r₀ z := by
  refine ⟨_, rfl, ?_⟩
  try dsimp only
  split
  all_goals repeat' first
    | with_reducible assumption
    | with_reducible exact List.Subset.trans (by decide) sub
    | with_reducible apply State.bump_frame
    | with_reducible apply State.ev_frame
    | with_reducible apply State.raise_frame
    | with_reducible apply deliver_frame
    | with_reducible apply dropJob_frame
    | with_reducible apply engDrop_frame
    | with_reducible apply setPart_frame
    | with_reducible refine Frame.ite ?_ ?_
    | dsimp only
    | split

end Sys2Proof.Machine
end

