-- ==== Sys2Proof/Laws/Planner.lean ====
section
/-! SUPPORT. What each operation of Machine/Planner.lean may change. -/

-- one proof after another: many at once would each hold a thread
set_option Elab.async false

namespace Sys2Proof.Machine

open Sys2Proof

theorem deferWindow_frame {ps : List Part} {r₀ : State} {s : State} {d : Nat}
    (sub : [.stp, .regs] ⊆ ps) (h₀ : Frame ps r₀ s) : Frame ps r₀ (deferWindow s d) := by
  unfold deferWindow
  try dsimp only
  repeat' first
    | with_reducible assumption
    | with_reducible exact List.Subset.trans (by decide) sub
    | with_reducible apply State.bump_frame
    | with_reducible apply State.setStp_frame
    | with_reducible refine Frame.ite ?_ ?_
    | dsimp only
    | split

theorem windowPlaced_frame {ps : List Part} {r₀ : State} {s : State} {d : Nat}
    (sub : [.stp] ⊆ ps) (h₀ : Frame ps r₀ s) : Frame ps r₀ (windowPlaced s d) := by
  unfold windowPlaced
  try dsimp only
  repeat' first
    | with_reducible assumption
    | with_reducible exact List.Subset.trans (by decide) sub
    | with_reducible apply State.setStp_frame
    | dsimp only
    | split

theorem execTurnBoundary_frame {ps : List Part} {r₀ : State} {s : State}
    (sub : [.stp, .pages, .regs] ⊆ ps) (h₀ : Frame ps r₀ s) :
    ∃ z, execTurnBoundary s = .next z ∧ Frame ps r₀ z := by
  refine ⟨_, rfl, ?_⟩
  try dsimp only
  repeat' first
    | with_reducible assumption
    | with_reducible exact List.Subset.trans (by decide) sub
    | with_reducible apply State.bump_frame
    | with_reducible apply State.ev_frame
    | with_reducible apply State.setStp_frame
    | with_reducible refine Frame.ite ?_ ?_
    | dsimp only
    | split

theorem placeAt_eq_frame {ps : List Part} {r₀ : State} {s : State} {d ahead : Nat} {x : Desc} {t : State}
    (e : (placeAt s d ahead x) = some t) (sub : [.fch] ⊆ ps) (h₀ : Frame ps r₀ s) : Frame ps r₀ t := by
  unfold placeAt at e
  try dsimp only at e
  repeat' first
    | cases e
    | split at e
  all_goals
    repeat' first
      | with_reducible assumption
      | with_reducible exact List.Subset.trans (by decide) sub
      | with_reducible apply State.updDie_frame
      | with_reducible apply pushDesc_frame
      | with_reducible refine Frame.foldlFst (fun _ _ _ => ?_) ?_
      | with_reducible refine Frame.foldl (fun _ _ _ => ?_) ?_
      | with_reducible refine Frame.ite ?_ ?_
      | dsimp only
      | split

theorem placeDesc_eq_frame {ps : List Part} {r₀ : State} {s : State} {d : Nat} {x : Desc} {t : State}
    (e : (placeDesc s d x) = some t) (sub : [.fch] ⊆ ps) (h₀ : Frame ps r₀ s) : Frame ps r₀ t := by
  unfold placeDesc at e
  try dsimp only at e
  repeat' first
    | cases e
    | split at e
  all_goals
    repeat' first
      | with_reducible assumption
      | with_reducible exact List.Subset.trans (by decide) sub
      | with_reducible refine placeAt_eq_frame (by assumption) ?_ ?_
      | dsimp only
      | split

theorem placeTwo_eq_frame {ps : List Part} {r₀ s : State} {d : Nat} {x y : Desc} {t : State}
    (e : placeTwo s d x y = some t) (sub : [.fch] ⊆ ps) (h : Frame ps r₀ s) : Frame ps r₀ t := by
  obtain ⟨u, e1, e2⟩ := Option.bind_eq_some_iff.1 e
  exact placeDesc_eq_frame e2 sub (placeDesc_eq_frame e1 sub h)

theorem placeOn_eq_frame {ps : List Part} {r₀ : State} {s : State} {d : Nat} {x : Desc} {t : State}
    (e : (placeOn s d x) = some t) (sub : [.fch] ⊆ ps) (h₀ : Frame ps r₀ s) : Frame ps r₀ t := by
  unfold placeOn at e
  try dsimp only at e
  repeat' first
    | cases e
    | split at e
  all_goals
    repeat' first
      | with_reducible assumption
      | with_reducible exact List.Subset.trans (by decide) sub
      | with_reducible refine Frame.ite ?_ ?_
      | with_reducible refine placeAt_eq_frame (by assumption) ?_ ?_
      | dsimp only
      | split

theorem chargeFn_frame {ps : List Part} {r₀ : State} {s : State} {f slots die : Nat}
    (sub : [.fns] ⊆ ps) (h₀ : Frame ps r₀ s) : Frame ps r₀ (chargeFn s f slots die) := by
  unfold chargeFn
  try dsimp only
  repeat' first
    | with_reducible assumption
    | with_reducible exact List.Subset.trans (by decide) sub
    | with_reducible apply State.updFn_frame
    | dsimp only
    | split

theorem startFull_frame {ps : List Part} {r₀ : State} {s : State} {l : Layout} {j : RdJob} {kind : ReadKind}
    (sub : [.stp, .fns] ⊆ ps) (h₀ : Frame ps r₀ s) : Frame ps r₀ (startFull s l j kind) := by
  unfold startFull
  try dsimp only
  repeat' first
    | with_reducible assumption
    | with_reducible exact List.Subset.trans (by decide) sub
    | with_reducible apply State.updJob_frame
    | with_reducible apply chargeFn_frame
    | dsimp only
    | split

theorem placeRead_frame {ps : List Part} {r₀ : State} {s : State} {j : RdJob}
    (sub : [.stp, .fns, .regs] ⊆ ps) (h₀ : Frame ps r₀ s) : Frame ps r₀ (placeRead s j).1 := by
  unfold placeRead
  try dsimp only
  split
  all_goals repeat' first
    | with_reducible assumption
    | with_reducible exact List.Subset.trans (by decide) sub
    | with_reducible apply State.bump_frame
    | with_reducible apply State.meter_frame
    | with_reducible apply State.setStp_frame
    | with_reducible apply State.updJob_frame
    | with_reducible apply startFull_frame
    | with_reducible refine Frame.ite ?_ ?_
    | dsimp only
    | split

theorem placeRead_eq_frame {ps : List Part} {r₀ : State} {s : State} {j : RdJob} {v₀ : Bool} {t : State}
    (e : (placeRead s j) = (t, v₀)) (sub : [.stp, .fns, .regs] ⊆ ps) (h₀ : Frame ps r₀ s) : Frame ps r₀ t := by
  have k := placeRead_frame (s := s) (j := j) sub h₀
  rw [e] at k
  exact k

theorem chargeDirect_frame {ps : List Part} {r₀ : State} {s : State} {j : RdJob} {d : Nat} {x : Desc}
    (sub : [.fns] ⊆ ps) (h₀ : Frame ps r₀ s) : Frame ps r₀ (chargeDirect s j d x) := by
  unfold chargeDirect
  try dsimp only
  repeat' first
    | with_reducible assumption
    | with_reducible exact List.Subset.trans (by decide) sub
    | with_reducible apply chargeFn_frame
    | with_reducible refine Frame.ite ?_ ?_
    | dsimp only
    | split

theorem placeMembers_frame {ps : List Part} {r₀ : State} {s : State} {id : Nat}
    (sub : [.stp, .fns, .fch] ⊆ ps) (h₀ : Frame ps r₀ s) : Frame ps r₀ (placeMembers s id) := by
  unfold placeMembers
  try dsimp only
  split
  all_goals repeat' first
    | with_reducible assumption
    | with_reducible exact List.Subset.trans (by decide) sub
    | with_reducible apply State.updJob_frame
    | with_reducible apply State.updMember_frame
    | with_reducible apply chargeDirect_frame
    | with_reducible refine Frame.foldlFst (fun _ _ _ => ?_) ?_
    | with_reducible refine Frame.foldl (fun _ _ _ => ?_) ?_
    | with_reducible refine Frame.ite ?_ ?_
    | with_reducible refine placeOn_eq_frame (by assumption) ?_ ?_
    | dsimp only
    | split

theorem placeReads_frame {ps : List Part} {r₀ : State} {s : State}
    (sub : [.stp, .fns, .fch, .evl, .pages, .regs] ⊆ ps) (h₀ : Frame ps r₀ s) : Frame ps r₀ (placeReads s) := by
  unfold placeReads
  try dsimp only
  repeat' first
    | with_reducible assumption
    | with_reducible exact List.Subset.trans (by decide) sub
    | with_reducible apply State.bump_frame
    | with_reducible apply State.ev_frame
    | with_reducible apply State.raise_frame
    | with_reducible apply State.setStp_frame
    | with_reducible apply placeMembers_frame
    | with_reducible refine Frame.foldlFst (fun _ _ _ => ?_) ?_
    | with_reducible refine Frame.foldl (fun _ _ _ => ?_) ?_
    | with_reducible refine Frame.ite ?_ ?_
    | with_reducible apply placeRead_frame
    | with_reducible refine placeRead_eq_frame (by assumption) ?_ ?_
    | dsimp only
    | split

theorem accrueQuota_frame {ps : List Part} {r₀ : State} {s : State} {slots dies : Nat}
    (sub : [.stp] ⊆ ps) (h₀ : Frame ps r₀ s) : Frame ps r₀ (accrueQuota s slots dies) := by
  unfold accrueQuota
  try dsimp only
  repeat' first
    | with_reducible assumption
    | with_reducible exact List.Subset.trans (by decide) sub
    | with_reducible apply State.setStp_frame
    | dsimp only
    | split

theorem readAgain_frame {ps : List Part} {r₀ : State} {s : State} {id pos : Nat}
    (sub : [.stp] ⊆ ps) (h₀ : Frame ps r₀ s) : Frame ps r₀ (readAgain s id pos) := by
  unfold readAgain
  try dsimp only
  split
  all_goals repeat' first
    | with_reducible assumption
    | with_reducible exact List.Subset.trans (by decide) sub
    | with_reducible apply State.updJob_frame
    | with_reducible apply State.updMember_frame
    | with_reducible refine Frame.ite ?_ ?_
    | dsimp only
    | split

theorem readLost_frame {ps : List Part} {r₀ : State} {s : State} {id pos : Nat}
    (sub : [.stp] ⊆ ps) (h₀ : Frame ps r₀ s) : Frame ps r₀ (readLost s id pos) := by
  unfold readLost
  try dsimp only
  split
  all_goals repeat' first
    | with_reducible assumption
    | with_reducible exact List.Subset.trans (by decide) sub
    | with_reducible apply State.updJob_frame
    | with_reducible apply State.updMember_frame
    | with_reducible refine Frame.ite ?_ ?_
    | dsimp only
    | split

end Sys2Proof.Machine
end

