-- ==== Sys2Proof/Laws/Spaces.lean ====
section
/-! SUPPORT. What each operation of Machine/Spaces.lean may change. -/

-- one proof after another: many at once would each hold a thread
set_option Elab.async false

namespace Sys2Proof.Machine

open Sys2Proof

theorem State.managerOnly_frame {ps : List Part} {r₀ : State} {s : State} {seq : Nat} {act : Cmd → State}
    (ha : ∀ c, Frame ps r₀ (act c)) (sub : [.qmx, .fns] ⊆ ps) (h₀ : Frame ps r₀ s) :
    Frame ps r₀ (State.managerOnly s seq act) := by
  unfold State.managerOnly
  try dsimp only
  repeat' first
    | with_reducible assumption
    | with_reducible exact List.Subset.trans (by decide) sub
    | with_reducible exact ha _
    | with_reducible apply State.finish_frame
    | with_reducible refine State.admin_frame (fun _ => ?_) ?_
    | with_reducible refine Frame.ite ?_ ?_
    | dsimp only
    | split

theorem resizeFine_frame {ps : List Part} {r₀ : State} {s : State}
    (sub : [.map] ⊆ ps) (h₀ : Frame ps r₀ s) : Frame ps r₀ (resizeFine s) := by
  unfold resizeFine
  try dsimp only
  repeat' first
    | with_reducible assumption
    | with_reducible exact List.Subset.trans (by decide) sub
    | with_reducible apply State.setMap_frame
    | dsimp only
    | split

theorem generateKey_frame {ps : List Part} {r₀ : State} {s : State} {ns : Nat} {sp : Space}
    (sub : [.draws, .gate, .key, .regs] ⊆ ps) (h₀ : Frame ps r₀ s) : Frame ps r₀ (generateKey s ns sp).2 := by
  unfold generateKey
  try dsimp only
  repeat' first
    | with_reducible assumption
    | with_reducible exact List.Subset.trans (by decide) sub
    | with_reducible apply State.bump_frame
    | with_reducible apply changeKey_frame
    | with_reducible apply useDrbg_frame
    | with_reducible refine Frame.ite ?_ ?_
    | with_reducible apply State.draw_frame
    | with_reducible refine State.draw_eq_frame (by assumption) ?_ ?_
    | dsimp only
    | split

theorem generateKey_eq_frame {ps : List Part} {r₀ : State} {s : State} {ns : Nat} {sp : Space} {v₀ : Option Nat} {t : State}
    (e : (generateKey s ns sp) = (v₀, t)) (sub : [.draws, .gate, .key, .regs] ⊆ ps) (h₀ : Frame ps r₀ s) : Frame ps r₀ t := by
  have k := generateKey_frame (s := s) (ns := ns) (sp := sp) sub h₀
  rw [e] at k
  exact k

theorem createSpace_frame {ps : List Part} {r₀ : State} {s : State} {seq : Nat} {sp : Space}
    (sub : [.draws, .gate, .qmx, .map, .key, .norWaits, .evl, .pages, .regs] ⊆ ps) (h₀ : Frame ps r₀ s) : Frame ps r₀ (createSpace s seq sp) := by
  unfold createSpace
  try dsimp only
  repeat' first
    | with_reducible assumption
    | with_reducible exact List.Subset.trans (by decide) sub
    | with_reducible apply State.hold_frame
    | with_reducible apply State.setMap_frame
    | with_reducible apply State.writeKeyRec_frame
    | with_reducible apply bumpSeq_frame
    | with_reducible apply resizeFine_frame
    | with_reducible apply State.draw_frame
    | with_reducible refine State.draw_eq_frame (by assumption) ?_ ?_
    | with_reducible apply generateKey_frame
    | with_reducible refine generateKey_eq_frame (by assumption) ?_ ?_
    | dsimp only
    | split

theorem execNamespaceCreate_frame {ps : List Part} {r₀ : State} {seq : Nat} {typ : NsType} {nsze ncap : Nat} {fmt : LbaFormat} {mode source owner zsze : Nat} {s : State}
    (sub : [.draws, .gate, .qmx, .fns, .map, .key, .norWaits, .evl, .pages, .regs] ⊆ ps) (h₀ : Frame ps r₀ s) :
    ∃ z, execNamespaceCreate seq typ nsze ncap fmt mode source owner zsze s = .next z ∧ Frame ps r₀ z := by
  refine ⟨_, rfl, ?_⟩
  try dsimp only
  repeat' first
    | with_reducible assumption
    | with_reducible exact List.Subset.trans (by decide) sub
    | with_reducible apply State.finish_frame
    | with_reducible apply State.hold_frame
    | with_reducible apply State.setMap_frame
    | with_reducible apply createSpace_frame
    | with_reducible refine State.managerOnly_frame (fun _ => ?_) ?_ ?_
    | with_reducible refine Frame.ite ?_ ?_
    | dsimp only
    | split

theorem execNamespaceCreateFineFit_frame {ps : List Part} {r₀ : State} {s : State}
    (sub : [.draws, .gate, .qmx, .map, .key, .norWaits, .evl, .pages, .regs] ⊆ ps) (h₀ : Frame ps r₀ s) :
    ∃ z, execNamespaceCreateFineFit s = .next z ∧ Frame ps r₀ z := by
  refine ⟨_, rfl, ?_⟩
  try dsimp only
  split
  all_goals repeat' first
    | with_reducible assumption
    | with_reducible exact List.Subset.trans (by decide) sub
    | with_reducible apply State.setMap_frame
    | with_reducible apply createSpace_frame
    | with_reducible refine Frame.ite ?_ ?_
    | dsimp only
    | split

theorem execNamespaceCreateFineTimeout_frame {ps : List Part} {r₀ : State} {s : State}
    (sub : [.qmx, .fns, .map] ⊆ ps) (h₀ : Frame ps r₀ s) :
    ∃ z, execNamespaceCreateFineTimeout s = .next z ∧ Frame ps r₀ z := by
  refine ⟨_, rfl, ?_⟩
  try dsimp only
  split
  all_goals repeat' first
    | with_reducible assumption
    | with_reducible exact List.Subset.trans (by decide) sub
    | with_reducible apply State.finish_frame
    | with_reducible apply State.setMap_frame
    | with_reducible refine Frame.ite ?_ ?_
    | dsimp only
    | split

theorem endSpaceCmds_frame {ps : List Part} {r₀ : State} {s : State} {ns : Nat}
    (sub : [.stp, .qmx, .fns, .map, .wbf, .par, .pages, .regs] ⊆ ps) (h₀ : Frame ps r₀ s) : Frame ps r₀ (endSpaceCmds s ns) := by
  unfold endSpaceCmds
  try dsimp only
  repeat' first
    | with_reducible assumption
    | with_reducible exact List.Subset.trans (by decide) sub
    | with_reducible apply State.finish_frame
    | with_reducible apply releaseCmd_frame
    | with_reducible refine Frame.foldlFst (fun _ _ _ => ?_) ?_
    | with_reducible refine Frame.foldl (fun _ _ _ => ?_) ?_
    | dsimp only
    | split

theorem detachSpace_frame {ps : List Part} {r₀ : State} {s : State} {ns f : Nat} {seqs : List Nat}
    (sub : [.fns, .norWaits] ⊆ ps) (h₀ : Frame ps r₀ s) : Frame ps r₀ (detachSpace s ns f seqs) := by
  unfold detachSpace
  try dsimp only
  repeat' first
    | with_reducible assumption
    | with_reducible exact List.Subset.trans (by decide) sub
    | with_reducible apply State.updFn_frame
    | with_reducible apply State.writeTable_frame
    | dsimp only
    | split

theorem forgetSpace_frame {ps : List Part} {r₀ : State} {s : State} {ns : Nat}
    (sub : [.map] ⊆ ps) (h₀ : Frame ps r₀ s) : Frame ps r₀ (forgetSpace s ns) := by
  unfold forgetSpace
  try dsimp only
  repeat' first
    | with_reducible assumption
    | with_reducible exact List.Subset.trans (by decide) sub
    | with_reducible apply State.setMap_frame
    | dsimp only
    | split

theorem deleteSpace_frame {ps : List Part} {r₀ : State} {s : State} {ns : Nat}
    (sub : [.stp, .qmx, .fns, .map, .wbf, .par, .key, .norWaits, .pages, .regs] ⊆ ps) (h₀ : Frame ps r₀ s) : Frame ps r₀ (deleteSpace s ns) := by
  unfold deleteSpace
  try dsimp only
  repeat' first
    | with_reducible assumption
    | with_reducible exact List.Subset.trans (by decide) sub
    | with_reducible apply State.setSpace_frame
    | with_reducible apply State.writeKeyRec_frame
    | with_reducible apply changeKey_frame
    | with_reducible apply clearSpace_frame
    | with_reducible apply detachSpace_frame
    | with_reducible apply endSpaceCmds_frame
    | with_reducible apply forgetSpace_frame
    | with_reducible refine Frame.foldlFst (fun _ _ _ => ?_) ?_
    | with_reducible refine Frame.foldl (fun _ _ _ => ?_) ?_
    | dsimp only
    | split

theorem execNamespaceDelete_frame {ps : List Part} {r₀ : State} {seq nsid : Nat} {s : State}
    (sub : [.stp, .qmx, .fns, .map, .wbf, .par, .key, .norWaits, .pages, .regs] ⊆ ps) (h₀ : Frame ps r₀ s) :
    ∃ z, execNamespaceDelete seq nsid s = .next z ∧ Frame ps r₀ z := by
  refine ⟨_, rfl, ?_⟩
  try dsimp only
  repeat' first
    | with_reducible assumption
    | with_reducible exact List.Subset.trans (by decide) sub
    | with_reducible apply State.finish_frame
    | with_reducible apply deleteSpace_frame
    | with_reducible apply resizeFine_frame
    | with_reducible refine State.managerOnly_frame (fun _ => ?_) ?_ ?_
    | with_reducible refine Frame.foldlFst (fun _ _ _ => ?_) ?_
    | with_reducible refine Frame.foldl (fun _ _ _ => ?_) ?_
    | with_reducible refine Frame.ite ?_ ?_
    | dsimp only
    | split

theorem reapSpaces_frame {ps : List Part} {r₀ : State} {s : State}
    (sub : [.map] ⊆ ps) (h₀ : Frame ps r₀ s) : Frame ps r₀ (reapSpaces s) := by
  unfold reapSpaces
  try dsimp only
  repeat' first
    | with_reducible assumption
    | with_reducible exact List.Subset.trans (by decide) sub
    | with_reducible apply State.setMap_frame
    | dsimp only
    | split

theorem execNamespaceAttach_frame {ps : List Part} {r₀ : State} {seq nsid f : Nat} {s : State}
    (sub : [.qmx, .fns, .norWaits] ⊆ ps) (h₀ : Frame ps r₀ s) :
    ∃ z, execNamespaceAttach seq nsid f s = .next z ∧ Frame ps r₀ z := by
  refine ⟨_, rfl, ?_⟩
  try dsimp only
  repeat' first
    | with_reducible assumption
    | with_reducible exact List.Subset.trans (by decide) sub
    | with_reducible apply State.finish_frame
    | with_reducible apply State.hold_frame
    | with_reducible apply State.setFn_frame
    | with_reducible apply State.writeTable_frame
    | with_reducible refine State.managerOnly_frame (fun _ => ?_) ?_ ?_
    | with_reducible refine Frame.ite ?_ ?_
    | dsimp only
    | split

theorem execNamespaceDetach_frame {ps : List Part} {r₀ : State} {seq nsid f : Nat} {s : State}
    (sub : [.qmx, .fns, .norWaits] ⊆ ps) (h₀ : Frame ps r₀ s) :
    ∃ z, execNamespaceDetach seq nsid f s = .next z ∧ Frame ps r₀ z := by
  refine ⟨_, rfl, ?_⟩
  try dsimp only
  repeat' first
    | with_reducible assumption
    | with_reducible exact List.Subset.trans (by decide) sub
    | with_reducible apply State.finish_frame
    | with_reducible apply State.hold_frame
    | with_reducible apply detachSpace_frame
    | with_reducible refine State.managerOnly_frame (fun _ => ?_) ?_ ?_
    | with_reducible refine Frame.ite ?_ ?_
    | dsimp only
    | split

theorem setFormat_frame {ps : List Part} {r₀ : State} {s : State} {ns : Nat} {fmt : LbaFormat}
    (sub : [.map] ⊆ ps) (h₀ : Frame ps r₀ s) : Frame ps r₀ (setFormat s ns fmt) := by
  unfold setFormat
  try dsimp only
  split
  all_goals repeat' first
    | with_reducible assumption
    | with_reducible exact List.Subset.trans (by decide) sub
    | with_reducible apply State.setSpace_frame
    | dsimp only
    | split

theorem formatHolds_frame {ps : List Part} {r₀ : State} {s : State} {seq : Nat} {nss : List Nat}
    (sub : [.qmx] ⊆ ps) (h₀ : Frame ps r₀ s) : Frame ps r₀ (formatHolds s seq nss) := by
  unfold formatHolds
  try dsimp only
  repeat' first
    | with_reducible assumption
    | with_reducible exact List.Subset.trans (by decide) sub
    | with_reducible apply State.updCmd_frame
    | dsimp only
    | split

theorem execFormatNvm_frame {ps : List Part} {r₀ : State} {seq nsid : Nat} {fmt : LbaFormat} {s : State}
    (sub : [.qmx, .fns, .map, .wbf, .par, .regs] ⊆ ps) (h₀ : Frame ps r₀ s) :
    ∃ z, execFormatNvm seq nsid fmt s = .next z ∧ Frame ps r₀ z := by
  refine ⟨_, rfl, ?_⟩
  try dsimp only
  repeat' first
    | with_reducible assumption
    | with_reducible exact List.Subset.trans (by decide) sub
    | with_reducible apply State.finish_frame
    | with_reducible apply clearSpace_frame
    | with_reducible apply formatHolds_frame
    | with_reducible apply setFormat_frame
    | with_reducible refine State.admin_frame (fun _ => ?_) ?_
    | with_reducible refine Frame.foldlFst (fun _ _ _ => ?_) ?_
    | with_reducible refine Frame.foldl (fun _ _ _ => ?_) ?_
    | with_reducible refine Frame.ite ?_ ?_
    | dsimp only
    | split

theorem cryptoErase_frame {ps : List Part} {r₀ : State} {s : State} {ns : Nat} {sp : Space} {seqs : List Nat}
    (sub : [.draws, .gate, .map, .wbf, .par, .key, .norWaits, .evl, .pages, .regs] ⊆ ps) (h₀ : Frame ps r₀ s) : Frame ps r₀ (cryptoErase s ns sp seqs) := by
  unfold cryptoErase
  try dsimp only
  repeat' first
    | with_reducible assumption
    | with_reducible exact List.Subset.trans (by decide) sub
    | with_reducible apply State.bump_frame
    | with_reducible apply State.ev_frame
    | with_reducible apply State.raise_frame
    | with_reducible apply State.writeKeyRec_frame
    | with_reducible apply bumpSeq_frame
    | with_reducible apply clearSpace_frame
    | with_reducible refine Frame.ite ?_ ?_
    | with_reducible apply generateKey_frame
    | with_reducible refine generateKey_eq_frame (by assumption) ?_ ?_
    | dsimp only
    | split

theorem cryptoEraseAll_frame {ps : List Part} {r₀ s : State} {seq : Nat} {l : List (Nat × Space)}
    (sub : [.draws, .gate, .qmx, .fns, .map, .wbf, .par, .key, .norWaits, .evl, .pages, .regs] ⊆ ps) (h : Frame ps r₀ s) :
    Frame ps r₀ (cryptoEraseAll s seq l) := by
  induction l generalizing s with
  | nil => exact State.finish_frame (List.Subset.trans (by decide) sub) h
  | cons p l ih =>
    have k {w} : Frame ps r₀ (cryptoErase s p.1 p.2 w) := cryptoErase_frame (List.Subset.trans (by decide) sub) h
    cases l with
    | nil => exact State.hold_frame (List.Subset.trans (by decide) sub) k
    | cons q l => exact ih k

theorem execFormatNvmCryptoErase_frame {ps : List Part} {r₀ : State} {seq nsid : Nat} {fmt : LbaFormat} {s : State}
    (sub : [.draws, .gate, .qmx, .fns, .map, .wbf, .par, .key, .norWaits, .evl, .pages, .regs] ⊆ ps) (h₀ : Frame ps r₀ s) :
    ∃ z, execFormatNvmCryptoErase seq nsid fmt s = .next z ∧ Frame ps r₀ z := by
  refine ⟨_, rfl, ?_⟩
  try dsimp only
  repeat' first
    | with_reducible assumption
    | with_reducible exact List.Subset.trans (by decide) sub
    | with_reducible apply State.finish_frame
    | with_reducible apply cryptoEraseAll_frame
    | with_reducible apply formatHolds_frame
    | with_reducible apply setFormat_frame
    | with_reducible refine State.admin_frame (fun _ => ?_) ?_
    | with_reducible refine Frame.foldlFst (fun _ _ _ => ?_) ?_
    | with_reducible refine Frame.foldl (fun _ _ _ => ?_) ?_
    | with_reducible refine Frame.ite ?_ ?_
    | dsimp only
    | split

theorem pushCopyFine_eq_frame {ps : List Part} {r₀ s : State} {u : FineUnit} {xs : List Info} {v₀ : Nat} {t : State}
    (e : pushCopyFine s u xs = some (v₀, t)) (sub : [.wbf] ⊆ ps) (h : Frame ps r₀ s) : Frame ps r₀ t := by
  unfold pushCopyFine at e
  split at e
  · exact pushCopyChunk_eq_frame e sub h
  · exact pushCopyUnit_eq_frame e sub h

theorem demoteUnit_frame {ps : List Part} {r₀ : State} {s : State} {f : Nat} {u : FineUnit}
    (sub : [.map, .wbf, .par, .regs] ⊆ ps) (h₀ : Frame ps r₀ s) : Frame ps r₀ (demoteUnit s f u) := by
  unfold demoteUnit
  try dsimp only
  repeat' first
    | with_reducible assumption
    | with_reducible exact List.Subset.trans (by decide) sub
    | with_reducible apply State.bump_frame
    | with_reducible apply State.setMap_frame
    | with_reducible apply setCoarse_frame
    | with_reducible refine Frame.ite ?_ ?_
    | with_reducible refine pushCopyFine_eq_frame (by assumption) ?_ ?_
    | dsimp only
    | split

theorem fineTick_frame {ps : List Part} {r₀ : State} {s : State}
    (sub : [.map, .pages] ⊆ ps) (h₀ : Frame ps r₀ s) : Frame ps r₀ (fineTick s) := by
  unfold fineTick
  try dsimp only
  repeat' first
    | with_reducible assumption
    | with_reducible exact List.Subset.trans (by decide) sub
    | with_reducible apply State.ev_frame
    | with_reducible apply State.setMap_frame
    | with_reducible refine Frame.ite ?_ ?_
    | dsimp only
    | split

theorem execDemotion_frame {ps : List Part} {r₀ : State} {s : State}
    (sub : [.map, .wbf, .par, .regs] ⊆ ps) (h₀ : Frame ps r₀ s) :
    ∃ z, execDemotion s = .next z ∧ Frame ps r₀ z := by
  refine ⟨_, rfl, ?_⟩
  try dsimp only
  repeat' first
    | with_reducible assumption
    | with_reducible exact List.Subset.trans (by decide) sub
    | with_reducible apply State.setMap_frame
    | with_reducible apply demoteUnit_frame
    | with_reducible refine Frame.ite ?_ ?_
    | dsimp only
    | split

theorem pushPages_frame {ps : List Part} {r₀ : State} {s : State} {pages : List MapPage} {num : Nat}
    (sub : [.wbf] ⊆ ps) (h₀ : Frame ps r₀ s) : Frame ps r₀ (pushPages s pages num) := by
  unfold pushPages
  try dsimp only
  repeat' first
    | with_reducible assumption
    | with_reducible exact List.Subset.trans (by decide) sub
    | with_reducible apply State.updTarget_frame
    | with_reducible apply pushCopy_frame
    | with_reducible refine Frame.foldlFst (fun _ _ _ => ?_) ?_
    | with_reducible refine Frame.foldl (fun _ _ _ => ?_) ?_
    | with_reducible refine Frame.ite ?_ ?_
    | dsimp only
    | split

theorem startCkpt_frame {ps : List Part} {r₀ : State} {s : State}
    (sub : [.map, .wbf] ⊆ ps) (h₀ : Frame ps r₀ s) : Frame ps r₀ (startCkpt s) := by
  unfold startCkpt
  try dsimp only
  repeat' first
    | with_reducible assumption
    | with_reducible exact List.Subset.trans (by decide) sub
    | with_reducible apply State.setMap_frame
    | with_reducible apply pushPages_frame
    | with_reducible refine Frame.ite ?_ ?_
    | dsimp only
    | split

theorem execCheckpointStart_frame {ps : List Part} {r₀ : State} {s : State}
    (sub : [.map, .wbf] ⊆ ps) (h₀ : Frame ps r₀ s) :
    ∃ z, execCheckpointStart s = .next z ∧ Frame ps r₀ z := by
  refine ⟨_, rfl, ?_⟩
  try dsimp only
  repeat' first
    | with_reducible assumption
    | with_reducible exact List.Subset.trans (by decide) sub
    | with_reducible apply startCkpt_frame
    | with_reducible refine Frame.ite ?_ ?_
    | dsimp only
    | split

theorem execCkptNow_frame {ps : List Part} {r₀ : State} {p : Path} {w : Dword} {s : State}
    (sub : [.gate, .map, .wbf, .paths, .regs] ⊆ ps) (h₀ : Frame ps r₀ s) :
    ∃ z, execCkptNow p w s = .next z ∧ Frame ps r₀ z := by
  refine ⟨_, rfl, ?_⟩
  try dsimp only
  repeat' first
    | with_reducible assumption
    | with_reducible exact List.Subset.trans (by decide) sub
    | with_reducible apply State.setMap_frame
    | with_reducible apply State.wakePage_frame
    | with_reducible apply startCkpt_frame
    | with_reducible apply storeWord_frame
    | with_reducible refine Frame.ite ?_ ?_
    | dsimp only
    | split

theorem pushLevel_frame {ps : List Part} {r₀ : State} {s : State} {num k : Nat}
    (sub : [.map, .wbf] ⊆ ps) (h₀ : Frame ps r₀ s) : Frame ps r₀ (pushLevel s num k) := by
  unfold pushLevel
  try dsimp only
  repeat' first
    | with_reducible assumption
    | with_reducible exact List.Subset.trans (by decide) sub
    | with_reducible apply State.setMap_frame
    | with_reducible apply pushPages_frame
    | with_reducible refine Frame.ite ?_ ?_
    | dsimp only
    | split

theorem recordRoot_frame {ps : List Part} {r₀ : State} {s : State} {r : MapRoot} {top : Nat}
    (sub : [.map, .par] ⊆ ps) (h₀ : Frame ps r₀ s) : Frame ps r₀ (recordRoot s r top) := by
  unfold recordRoot
  try dsimp only
  repeat' first
    | with_reducible assumption
    | with_reducible exact List.Subset.trans (by decide) sub
    | with_reducible apply State.setMap_frame
    | with_reducible apply State.setPar_frame
    | with_reducible apply jrec_frame
    | dsimp only
    | split

theorem writeRoot_frame {ps : List Part} {r₀ : State} {s : State}
    (sub : [.map, .wbf, .par] ⊆ ps) (h₀ : Frame ps r₀ s) : Frame ps r₀ (writeRoot s) := by
  unfold writeRoot
  try dsimp only
  split
  all_goals repeat' first
    | with_reducible assumption
    | with_reducible exact List.Subset.trans (by decide) sub
    | with_reducible apply pushLevel_frame
    | with_reducible apply recordRoot_frame
    | with_reducible refine Frame.ite ?_ ?_
    | dsimp only
    | split

theorem ckptTick_frame {ps : List Part} {r₀ : State} {s : State}
    (sub : [.map, .wbf] ⊆ ps) (h₀ : Frame ps r₀ s) : Frame ps r₀ (ckptTick s) := by
  unfold ckptTick
  try dsimp only
  repeat' first
    | with_reducible assumption
    | with_reducible exact List.Subset.trans (by decide) sub
    | with_reducible apply startCkpt_frame
    | with_reducible refine Frame.ite ?_ ?_
    | dsimp only
    | split

theorem eraseReserve_frame {ps : List Part} {r₀ : State} {s : State}
    (sub : [.fch, .hld] ⊆ ps) (h₀ : Frame ps r₀ s) : Frame ps r₀ (eraseReserve s) := by
  unfold eraseReserve
  try dsimp only
  repeat' first
    | with_reducible assumption
    | with_reducible exact List.Subset.trans (by decide) sub
    | with_reducible apply State.setHld_frame
    | with_reducible apply queuePslcErase_frame
    | with_reducible refine Frame.foldlFst (fun _ _ _ => ?_) ?_
    | with_reducible refine Frame.foldl (fun _ _ _ => ?_) ?_
    | with_reducible refine Frame.ite ?_ ?_
    | dsimp only
    | split

theorem dropPages_frame {ps : List Part} {r₀ : State} {s : State} {old new : Tbl Nat}
    (sub : [.par] ⊆ ps) (h₀ : Frame ps r₀ s) : Frame ps r₀ (dropPages s old new) := by
  unfold dropPages
  try dsimp only
  repeat' first
    | with_reducible assumption
    | with_reducible exact List.Subset.trans (by decide) sub
    | with_reducible apply validDown_frame
    | with_reducible refine Frame.foldlFst (fun _ _ _ => ?_) ?_
    | with_reducible refine Frame.foldl (fun _ _ _ => ?_) ?_
    | with_reducible refine Frame.ite ?_ ?_
    | dsimp only
    | split

theorem execCkptDone_frame {ps : List Part} {r₀ : State} {s : State}
    (sub : [.map, .fch, .par, .hld, .pages] ⊆ ps) (h₀ : Frame ps r₀ s) :
    ∃ z, execCkptDone s = .next z ∧ Frame ps r₀ z := by
  refine ⟨_, rfl, ?_⟩
  try dsimp only
  split
  all_goals repeat' first
    | with_reducible assumption
    | with_reducible exact List.Subset.trans (by decide) sub
    | with_reducible apply State.ev_frame
    | with_reducible apply State.setMap_frame
    | with_reducible apply State.setPar_frame
    | with_reducible apply dropPages_frame
    | with_reducible apply eraseReserve_frame
    | with_reducible refine Frame.ite ?_ ?_
    | dsimp only
    | split

theorem execMapCkptNumLoRead_frame {ps : List Part} {r₀ : State} {p : Path} {s : State}
    (sub : [.ans, .gate, .paths] ⊆ ps) (h₀ : Frame ps r₀ s) :
    ∃ z, execMapCkptNumLoRead p s = .next z ∧ Frame ps r₀ z := by
  refine ⟨_, rfl, ?_⟩
  try dsimp only
  repeat' first
    | with_reducible assumption
    | with_reducible exact List.Subset.trans (by decide) sub
    | with_reducible apply State.answer_frame
    | with_reducible apply State.latch_frame
    | dsimp only
    | split

end Sys2Proof.Machine
end

