-- ==== Sys2Proof/Laws/Parity.lean ====
section
/-! SUPPORT. What each operation of Machine/Parity.lean may change. -/

-- one proof after another: many at once would each hold a thread
set_option Elab.async false

namespace Sys2Proof.Machine

open Sys2Proof

theorem heavyStart_eq_frame {ps : List Part} {r₀ : State} {s : State} {reclaim : Bool} {t : State}
    (e : (heavyStart s reclaim) = some t) (sub : [.stp, .evl, .pages, .regs] ⊆ ps) (h₀ : Frame ps r₀ s) : Frame ps r₀ t := by
  unfold heavyStart at e
  try dsimp only at e
  repeat' first
    | cases e
    | split at e
  all_goals
    repeat' first
      | with_reducible assumption
      | with_reducible exact List.Subset.trans (by decide) sub
      | with_reducible apply breakWindow_frame
      | with_reducible refine Frame.ite ?_ ?_
      | dsimp only
      | split

theorem bgCharge_eq_frame {ps : List Part} {r₀ : State} {s : State} {w : BgWork} {slot die : Nat} {t : State}
    (e : (bgCharge s w slot die) = some t) (sub : [.stp] ⊆ ps) (h₀ : Frame ps r₀ s) : Frame ps r₀ t := by
  unfold bgCharge at e
  try dsimp only at e
  repeat' first
    | cases e
    | split at e
  all_goals
    repeat' first
      | with_reducible assumption
      | with_reducible exact List.Subset.trans (by decide) sub
      | with_reducible apply State.setStp_frame
      | with_reducible refine Frame.ite ?_ ?_
      | dsimp only
      | split

theorem bgRow_eq_frame {ps : List Part} {r₀ : State} {s : State} {w : BgWork} {members copies : Nat} {t : State}
    (e : (bgRow s w members copies) = some t) (sub : [.stp] ⊆ ps) (h₀ : Frame ps r₀ s) : Frame ps r₀ t := by
  unfold bgRow at e
  try dsimp only at e
  repeat' first
    | cases e
    | split at e
  all_goals
    repeat' first
      | with_reducible assumption
      | with_reducible exact List.Subset.trans (by decide) sub
      | with_reducible refine bgCharge_eq_frame (by assumption) ?_ ?_
      | dsimp only
      | split

theorem heavyCharge_eq_frame {ps : List Part} {r₀ : State} {s : State} {w : BgWork} {slots time : Nat} {t : State}
    (e : (heavyCharge s w slots time) = some t) (sub : [.stp, .evl, .pages, .regs] ⊆ ps) (h₀ : Frame ps r₀ s) : Frame ps r₀ t := by
  unfold heavyCharge at e
  try dsimp only at e
  repeat' first
    | cases e
    | split at e
  all_goals
    repeat' first
      | with_reducible assumption
      | with_reducible exact List.Subset.trans (by decide) sub
      | with_reducible refine bgCharge_eq_frame (by assumption) ?_ ?_
      | with_reducible refine heavyStart_eq_frame (by assumption) ?_ ?_
      | dsimp only
      | split

theorem heavyRow_eq_frame {ps : List Part} {r₀ : State} {s : State} {w : BgWork} {members copies : Nat} {t : State}
    (e : (heavyRow s w members copies) = some t) (sub : [.stp, .evl, .pages, .regs] ⊆ ps) (h₀ : Frame ps r₀ s) : Frame ps r₀ t := by
  unfold heavyRow at e
  try dsimp only at e
  repeat' first
    | cases e
    | split at e
  all_goals
    repeat' first
      | with_reducible assumption
      | with_reducible exact List.Subset.trans (by decide) sub
      | with_reducible refine bgRow_eq_frame (by assumption) ?_ ?_
      | with_reducible refine heavyStart_eq_frame (by assumption) ?_ ?_
      | dsimp only
      | split

theorem moveRow_frame {ps : List Part} {r₀ : State} {s : State} {n : Nat} {vs : List (Nat × Nat × Nat)} {word : Nat → Nat → Option Info}
    (sub : [.wbf, .ldc] ⊆ ps) (h₀ : Frame ps r₀ s) : Frame ps r₀ (moveRow s n vs word) := by
  unfold moveRow
  try dsimp only
  repeat' first
    | with_reducible assumption
    | with_reducible exact List.Subset.trans (by decide) sub
    | with_reducible apply State.setLdc_frame
    | with_reducible apply pushCopy_frame
    | with_reducible refine Frame.foldlFst (fun _ _ _ => ?_) ?_
    | with_reducible refine Frame.foldl (fun _ _ _ => ?_) ?_
    | dsimp only
    | split

theorem queueSpan_frame {ps : List Part} {r₀ : State} {s : State} {l : Layout} {n : Nat}
    (sub : [.par] ⊆ ps) (h₀ : Frame ps r₀ s) : Frame ps r₀ (queueSpan s l n) := by
  unfold queueSpan
  try dsimp only
  repeat' first
    | with_reducible assumption
    | with_reducible exact List.Subset.trans (by decide) sub
    | with_reducible apply State.setPar_frame
    | with_reducible apply handOver_frame
    | with_reducible refine Frame.ite ?_ ?_
    | dsimp only
    | split

theorem rosterOut_frame {ps : List Part} {r₀ : State} {s : State} {d : Nat}
    (sub : [.nor] ⊆ ps) (h₀ : Frame ps r₀ s) : Frame ps r₀ (rosterOut s d) := by
  unfold rosterOut
  try dsimp only
  repeat' first
    | with_reducible assumption
    | with_reducible exact List.Subset.trans (by decide) sub
    | with_reducible apply State.setNor_frame
    | with_reducible refine Frame.ite ?_ ?_
    | dsimp only
    | split

theorem loseDie_frame {ps : List Part} {r₀ : State} {s : State} {l : Layout} {d : Nat}
    (sub : [.stp, .wbf, .par, .nor, .evl, .pages, .regs] ⊆ ps) (h₀ : Frame ps r₀ s) : Frame ps r₀ (loseDie s l d) := by
  unfold loseDie
  try dsimp only
  repeat' first
    | with_reducible assumption
    | with_reducible exact List.Subset.trans (by decide) sub
    | with_reducible apply State.ev_frame
    | with_reducible apply State.raise_frame
    | with_reducible apply State.setPar_frame
    | with_reducible apply State.setStp_frame
    | with_reducible apply State.setStream_frame
    | with_reducible apply State.updRow_frame
    | with_reducible apply State.updStream_frame
    | with_reducible apply jrec_frame
    | with_reducible apply jrow_frame
    | with_reducible apply queueSpan_frame
    | with_reducible apply rosterOut_frame
    | with_reducible apply stopRebuild_frame
    | with_reducible refine Frame.foldlFst (fun _ _ _ => ?_) ?_
    | with_reducible refine Frame.foldl (fun _ _ _ => ?_) ?_
    | with_reducible refine Frame.ite ?_ ?_
    | dsimp only
    | split

theorem execDieLost_frame {ps : List Part} {r₀ : State} {s : State}
    (sub : [.stp, .wbf, .par, .nor, .evl, .pages, .regs] ⊆ ps) (h₀ : Frame ps r₀ s) :
    ∃ z, execDieLost s = .next z ∧ Frame ps r₀ z := by
  refine ⟨_, rfl, ?_⟩
  try dsimp only
  split
  all_goals repeat' first
    | with_reducible assumption
    | with_reducible exact List.Subset.trans (by decide) sub
    | with_reducible apply State.setPar_frame
    | with_reducible apply loseDie_frame
    | with_reducible refine Frame.foldlFst (fun _ _ _ => ?_) ?_
    | with_reducible refine Frame.foldl (fun _ _ _ => ?_) ?_
    | dsimp only
    | split

theorem flushMirror_frame {ps : List Part} {r₀ : State} {s : State} {k fails : Nat} {m : Mirror}
    (sub : [.fch, .par, .rcl] ⊆ ps) (h₀ : Frame ps r₀ s) : Frame ps r₀ (flushMirror s k fails m) := by
  unfold flushMirror
  try dsimp only
  repeat' first
    | with_reducible assumption
    | with_reducible exact List.Subset.trans (by decide) sub
    | with_reducible apply State.setPar_frame
    | with_reducible apply queuePslcErase_frame
    | with_reducible refine Frame.ite ?_ ?_
    | with_reducible refine takePslc_eq_frame (by assumption) ?_ ?_
    | dsimp only
    | split

theorem execJournalFlush_frame {ps : List Part} {r₀ : State} {fails : List Nat} {s : State}
    (sub : [.map, .wbf, .fch, .par, .rcl] ⊆ ps) (h₀ : Frame ps r₀ s) :
    ∃ z, execJournalFlush fails s = .next z ∧ Frame ps r₀ z := by
  refine ⟨_, rfl, ?_⟩
  try dsimp only
  repeat' first
    | with_reducible assumption
    | with_reducible exact List.Subset.trans (by decide) sub
    | with_reducible apply State.setPar_frame
    | with_reducible apply flushMirror_frame
    | with_reducible apply startCkpt_frame
    | with_reducible refine Frame.foldlFst (fun _ _ _ => ?_) ?_
    | with_reducible refine Frame.foldl (fun _ _ _ => ?_) ?_
    | with_reducible refine Frame.ite ?_ ?_
    | dsimp only
    | split

theorem beginRehome_frame {ps : List Part} {r₀ : State} {s : State} {k die : Nat}
    (sub : [.fch, .par, .rcl, .hld] ⊆ ps) (h₀ : Frame ps r₀ s) : Frame ps r₀ (beginRehome s k die) := by
  unfold beginRehome
  try dsimp only
  repeat' first
    | with_reducible assumption
    | with_reducible exact List.Subset.trans (by decide) sub
    | with_reducible apply State.setPar_frame
    | with_reducible apply jrec_frame
    | with_reducible refine Frame.ite ?_ ?_
    | with_reducible apply journalBlocks_frame
    | with_reducible refine journalBlocks_eq_frame (by assumption) ?_ ?_
    | dsimp only
    | split

theorem execParJrnRehome_frame {ps : List Part} {r₀ : State} {s : State}
    (sub : [.fch, .par, .rcl, .hld] ⊆ ps) (h₀ : Frame ps r₀ s) :
    ∃ z, execParJrnRehome s = .next z ∧ Frame ps r₀ z := by
  refine ⟨_, rfl, ?_⟩
  try dsimp only
  repeat' first
    | with_reducible assumption
    | with_reducible exact List.Subset.trans (by decide) sub
    | with_reducible apply beginRehome_frame
    | with_reducible refine Frame.ite ?_ ?_
    | dsimp only
    | split

theorem execJournalRehomeDone_frame {ps : List Part} {r₀ : State} {s : State}
    (sub : [.qmx, .fns, .par, .evl, .pages, .regs] ⊆ ps) (h₀ : Frame ps r₀ s) :
    ∃ z, execJournalRehomeDone s = .next z ∧ Frame ps r₀ z := by
  refine ⟨_, rfl, ?_⟩
  try dsimp only
  split
  all_goals repeat' first
    | with_reducible assumption
    | with_reducible exact List.Subset.trans (by decide) sub
    | with_reducible apply State.bump_frame
    | with_reducible apply State.ev_frame
    | with_reducible apply State.finish_frame
    | with_reducible apply State.raise_frame
    | with_reducible apply State.setPar_frame
    | with_reducible refine Frame.foldlFst (fun _ _ _ => ?_) ?_
    | with_reducible refine Frame.foldl (fun _ _ _ => ?_) ?_
    | with_reducible refine Frame.ite ?_ ?_
    | dsimp only
    | split

theorem thirdLoss_frame {ps : List Part} {r₀ : State} {s : State} {l : Layout} {span row p : Nat} {erased : List Nat}
    (sub : [.ldc, .par, .evl, .pages, .regs] ⊆ ps) (h₀ : Frame ps r₀ s) : Frame ps r₀ (thirdLoss s l span row p erased) := by
  unfold thirdLoss
  try dsimp only
  repeat' first
    | with_reducible assumption
    | with_reducible exact List.Subset.trans (by decide) sub
    | with_reducible apply State.bump_frame
    | with_reducible apply State.ev_frame
    | with_reducible apply State.raise_frame
    | with_reducible apply State.setLdc_frame
    | with_reducible apply State.setPar_frame
    | with_reducible apply jrec_frame
    | dsimp only
    | split

theorem rebuildRow_frame {ps : List Part} {r₀ : State} {s : State} {l : Layout} {span row : Nat} {bad : List (Nat × Nat)}
    (sub : [.wbf, .ldc, .par, .evl, .pages, .regs] ⊆ ps) (h₀ : Frame ps r₀ s) : Frame ps r₀ (rebuildRow s l span row bad) := by
  unfold rebuildRow
  try dsimp only
  repeat' first
    | with_reducible assumption
    | with_reducible exact List.Subset.trans (by decide) sub
    | with_reducible apply makeProxy_frame
    | with_reducible apply pushCopy_frame
    | with_reducible apply thirdLoss_frame
    | with_reducible refine Frame.foldlFst (fun _ _ _ => ?_) ?_
    | with_reducible refine Frame.foldl (fun _ _ _ => ?_) ?_
    | with_reducible refine Frame.ite ?_ ?_
    | dsimp only
    | split

theorem execRebuildRow_frame {ps : List Part} {r₀ : State} {bad : List (Nat × Nat)} {s : State}
    (sub : [.stp, .wbf, .ldc, .par, .evl, .pages, .regs] ⊆ ps) (h₀ : Frame ps r₀ s) :
    ∃ z, execRebuildRow bad s = .next z ∧ Frame ps r₀ z := by
  refine ⟨_, rfl, ?_⟩
  try dsimp only
  split
  all_goals repeat' first
    | with_reducible assumption
    | with_reducible exact List.Subset.trans (by decide) sub
    | with_reducible apply State.setPar_frame
    | with_reducible apply queueSpan_frame
    | with_reducible apply rebuildRow_frame
    | with_reducible refine Frame.ite ?_ ?_
    | with_reducible refine bgRow_eq_frame (by assumption) ?_ ?_
    | dsimp only
    | split

theorem execParRebuildDone_frame {ps : List Part} {r₀ : State} {s : State}
    (sub : [.stp, .par, .evl, .pages, .regs] ⊆ ps) (h₀ : Frame ps r₀ s) :
    ∃ z, execParRebuildDone s = .next z ∧ Frame ps r₀ z := by
  refine ⟨_, rfl, ?_⟩
  try dsimp only
  repeat' first
    | with_reducible assumption
    | with_reducible exact List.Subset.trans (by decide) sub
    | with_reducible apply State.ev_frame
    | with_reducible apply State.raise_frame
    | with_reducible apply State.setPar_frame
    | with_reducible apply State.setStp_frame
    | with_reducible refine Frame.ite ?_ ?_
    | dsimp only
    | split

theorem groomNote_frame {ps : List Part} {r₀ : State} {s : State} {l : Layout} {span row : Nat} {f : GroomFind}
    (sub : [.par, .evl, .pages, .regs] ⊆ ps) (h₀ : Frame ps r₀ s) : Frame ps r₀ (groomNote s l span row f) := by
  unfold groomNote
  try dsimp only
  split
  all_goals repeat' first
    | with_reducible assumption
    | with_reducible exact List.Subset.trans (by decide) sub
    | with_reducible apply State.bump_frame
    | with_reducible apply State.ev_frame
    | with_reducible apply State.raise_frame
    | with_reducible apply State.setPar_frame
    | dsimp only
    | split

theorem startGroom_frame {ps : List Part} {r₀ : State} {s : State}
    (sub : [.par] ⊆ ps) (h₀ : Frame ps r₀ s) : Frame ps r₀ (startGroom s) := by
  unfold startGroom
  try dsimp only
  split
  all_goals repeat' first
    | with_reducible assumption
    | with_reducible exact List.Subset.trans (by decide) sub
    | with_reducible apply State.setPar_frame
    | with_reducible refine Frame.ite ?_ ?_
    | dsimp only
    | split

theorem endGroom_frame {ps : List Part} {r₀ : State} {s : State} {n : Nat}
    (sub : [.qmx, .fns, .par, .pages] ⊆ ps) (h₀ : Frame ps r₀ s) : Frame ps r₀ (endGroom s n) := by
  unfold endGroom
  try dsimp only
  repeat' first
    | with_reducible assumption
    | with_reducible exact List.Subset.trans (by decide) sub
    | with_reducible apply State.ev_frame
    | with_reducible apply State.finish_frame
    | with_reducible apply State.setPar_frame
    | with_reducible apply State.updSpan_frame
    | with_reducible apply jrec_frame
    | with_reducible refine Frame.foldlFst (fun _ _ _ => ?_) ?_
    | with_reducible refine Frame.foldl (fun _ _ _ => ?_) ?_
    | with_reducible refine Frame.ite ?_ ?_
    | dsimp only
    | split

theorem groomRow_frame {ps : List Part} {r₀ : State} {s : State} {l : Layout} {n row : Nat} {bad : List (Nat × Nat)} {worn : Bool}
    (sub : [.wbf, .ldc, .par, .evl, .pages, .regs] ⊆ ps) (h₀ : Frame ps r₀ s) : Frame ps r₀ (groomRow s l n row bad worn) := by
  unfold groomRow
  try dsimp only
  repeat' first
    | with_reducible assumption
    | with_reducible exact List.Subset.trans (by decide) sub
    | with_reducible apply State.bump_frame
    | with_reducible apply State.setPar_frame
    | with_reducible apply groomNote_frame
    | with_reducible apply moveRow_frame
    | with_reducible refine Frame.foldlFst (fun _ _ _ => ?_) ?_
    | with_reducible refine Frame.foldl (fun _ _ _ => ?_) ?_
    | with_reducible refine Frame.ite ?_ ?_
    | dsimp only
    | split

theorem execGroomRow_frame {ps : List Part} {r₀ : State} {bad reads : List (Nat × Nat)} {s : State}
    (sub : [.stp, .qmx, .fns, .wbf, .ldc, .par, .evl, .pages, .regs] ⊆ ps) (h₀ : Frame ps r₀ s) :
    ∃ z, execGroomRow bad reads s = .next z ∧ Frame ps r₀ z := by
  refine ⟨_, rfl, ?_⟩
  try dsimp only
  split
  all_goals repeat' first
    | with_reducible assumption
    | with_reducible exact List.Subset.trans (by decide) sub
    | with_reducible apply State.setPar_frame
    | with_reducible apply endGroom_frame
    | with_reducible apply groomRow_frame
    | with_reducible apply startGroom_frame
    | with_reducible refine Frame.ite ?_ ?_
    | with_reducible refine bgRow_eq_frame (by assumption) ?_ ?_
    | with_reducible refine heavyStart_eq_frame (by assumption) ?_ ?_
    | dsimp only
    | split

theorem execRawMediaRead_frame {ps : List Part} {r₀ : State} {seq : Nat} {dw10 dw11 : Dword} {s : State}
    (sub : [.stp, .qmx, .fns, .fch, .regs] ⊆ ps) (h₀ : Frame ps r₀ s) :
    ∃ z, execRawMediaRead seq dw10 dw11 s = .next z ∧ Frame ps r₀ z := by
  refine ⟨_, rfl, ?_⟩
  try dsimp only
  repeat' first
    | with_reducible assumption
    | with_reducible exact List.Subset.trans (by decide) sub
    | with_reducible apply State.finish_frame
    | with_reducible apply State.hold_frame
    | with_reducible apply deferWindow_frame
    | with_reducible apply windowPlaced_frame
    | with_reducible refine State.managerOnly_frame (fun _ => ?_) ?_ ?_
    | with_reducible refine Frame.ite ?_ ?_
    | with_reducible refine placeDesc_eq_frame (by assumption) ?_ ?_
    | dsimp only
    | split

theorem execGroomSpan_frame {ps : List Part} {r₀ : State} {seq n : Nat} {s : State}
    (sub : [.qmx, .fns, .par] ⊆ ps) (h₀ : Frame ps r₀ s) :
    ∃ z, execGroomSpan seq n s = .next z ∧ Frame ps r₀ z := by
  refine ⟨_, rfl, ?_⟩
  try dsimp only
  repeat' first
    | with_reducible assumption
    | with_reducible exact List.Subset.trans (by decide) sub
    | with_reducible apply State.finish_frame
    | with_reducible apply State.hold_frame
    | with_reducible apply State.setPar_frame
    | with_reducible refine State.managerOnly_frame (fun _ => ?_) ?_ ?_
    | with_reducible refine Frame.ite ?_ ?_
    | dsimp only
    | split

theorem execPauseRebuild_frame {ps : List Part} {r₀ : State} {seq : Nat} {s : State}
    (sub : [.qmx, .fns, .par] ⊆ ps) (h₀ : Frame ps r₀ s) :
    ∃ z, execPauseRebuild seq s = .next z ∧ Frame ps r₀ z := by
  refine ⟨_, rfl, ?_⟩
  try dsimp only
  repeat' first
    | with_reducible assumption
    | with_reducible exact List.Subset.trans (by decide) sub
    | with_reducible apply State.finish_frame
    | with_reducible apply State.setPar_frame
    | with_reducible refine State.managerOnly_frame (fun _ => ?_) ?_ ?_
    | with_reducible refine Frame.ite ?_ ?_
    | dsimp only
    | split

theorem execResumeRebuild_frame {ps : List Part} {r₀ : State} {seq : Nat} {s : State}
    (sub : [.qmx, .fns, .par] ⊆ ps) (h₀ : Frame ps r₀ s) :
    ∃ z, execResumeRebuild seq s = .next z ∧ Frame ps r₀ z := by
  refine ⟨_, rfl, ?_⟩
  try dsimp only
  repeat' first
    | with_reducible assumption
    | with_reducible exact List.Subset.trans (by decide) sub
    | with_reducible apply State.finish_frame
    | with_reducible apply State.setPar_frame
    | with_reducible refine State.managerOnly_frame (fun _ => ?_) ?_ ?_
    | with_reducible refine Frame.ite ?_ ?_
    | dsimp only
    | split

theorem execMoveJournalMirror_frame {ps : List Part} {r₀ : State} {seq k die : Nat} {s : State}
    (sub : [.qmx, .fns, .fch, .par, .rcl, .hld] ⊆ ps) (h₀ : Frame ps r₀ s) :
    ∃ z, execMoveJournalMirror seq k die s = .next z ∧ Frame ps r₀ z := by
  refine ⟨_, rfl, ?_⟩
  try dsimp only
  repeat' first
    | with_reducible assumption
    | with_reducible exact List.Subset.trans (by decide) sub
    | with_reducible apply State.finish_frame
    | with_reducible apply State.hold_frame
    | with_reducible apply State.setPar_frame
    | with_reducible apply beginRehome_frame
    | with_reducible refine State.managerOnly_frame (fun _ => ?_) ?_ ?_
    | with_reducible refine Frame.ite ?_ ?_
    | dsimp only
    | split

theorem execGetLogPageRedundancy_frame {ps : List Part} {r₀ : State} {seq off len : Nat} {s : State}
    (sub : [.ans, .qmx, .fns] ⊆ ps) (h₀ : Frame ps r₀ s) :
    ∃ z, execGetLogPageRedundancy seq off len s = .next z ∧ Frame ps r₀ z := by
  refine ⟨_, rfl, ?_⟩
  try dsimp only
  repeat' first
    | with_reducible assumption
    | with_reducible exact List.Subset.trans (by decide) sub
    | with_reducible apply State.reply_frame
    | with_reducible refine State.admin_frame (fun _ => ?_) ?_
    | dsimp only
    | split

theorem execParJseqLoRead_frame {ps : List Part} {r₀ : State} {p : Path} {s : State}
    (sub : [.ans, .gate, .paths] ⊆ ps) (h₀ : Frame ps r₀ s) :
    ∃ z, execParJseqLoRead p s = .next z ∧ Frame ps r₀ z := by
  refine ⟨_, rfl, ?_⟩
  try dsimp only
  repeat' first
    | with_reducible assumption
    | with_reducible exact List.Subset.trans (by decide) sub
    | with_reducible apply State.answer_frame
    | with_reducible apply State.latch_frame
    | dsimp only
    | split

end Sys2Proof.Machine
end

