-- ==== Sys2Proof/Laws/Reclaim.lean ====
section
/-! SUPPORT. What each operation of Machine/Reclaim.lean may change. -/

-- one proof after another: many at once would each hold a thread
set_option Elab.async false

namespace Sys2Proof.Machine

open Sys2Proof

theorem selectCredit_frame {ps : List Part} {r₀ : State} {s : State} {n : Nat}
    (sub : [.par, .rcl] ⊆ ps) (h₀ : Frame ps r₀ s) : Frame ps r₀ (selectCredit s n) := by
  unfold selectCredit
  try dsimp only
  repeat' first
    | with_reducible assumption
    | with_reducible exact List.Subset.trans (by decide) sub
    | with_reducible apply State.updSpan_frame
    | with_reducible apply addCredit_frame
    | dsimp only
    | split

theorem execReclaimVictimPick_frame {ps : List Part} {r₀ : State} {s : State}
    (sub : [.par, .rcl, .evl, .pages, .regs] ⊆ ps) (h₀ : Frame ps r₀ s) :
    ∃ z, execReclaimVictimPick s = .next z ∧ Frame ps r₀ z := by
  refine ⟨_, rfl, ?_⟩
  try dsimp only
  split
  all_goals repeat' first
    | with_reducible assumption
    | with_reducible exact List.Subset.trans (by decide) sub
    | with_reducible apply State.ev_frame
    | with_reducible apply State.raise_frame
    | with_reducible apply State.setPar_frame
    | with_reducible apply State.setRcl_frame
    | with_reducible apply State.updSpan_frame
    | with_reducible apply selectCredit_frame
    | with_reducible refine Frame.ite ?_ ?_
    | dsimp only
    | split

theorem copyRow_frame {ps : List Part} {r₀ : State} {s : State} {l : Layout} {n row : Nat} {bad : List (Nat × Nat)}
    (sub : [.wbf, .ldc, .par] ⊆ ps) (h₀ : Frame ps r₀ s) : Frame ps r₀ (copyRow s l n row bad) := by
  unfold copyRow
  try dsimp only
  repeat' first
    | with_reducible assumption
    | with_reducible exact List.Subset.trans (by decide) sub
    | with_reducible apply State.setLdc_frame
    | with_reducible apply State.updSpan_frame
    | with_reducible apply pushCopy_frame
    | with_reducible apply pushProxy_frame
    | with_reducible refine Frame.foldlFst (fun _ _ _ => ?_) ?_
    | with_reducible refine Frame.foldl (fun _ _ _ => ?_) ?_
    | with_reducible refine Frame.ite ?_ ?_
    | dsimp only
    | split

theorem execReclaimRowCopy_frame {ps : List Part} {r₀ : State} {n : Nat} {bad : List (Nat × Nat)} {s : State}
    (sub : [.stp, .wbf, .ldc, .par, .evl, .pages, .regs] ⊆ ps) (h₀ : Frame ps r₀ s) :
    ∃ z, execReclaimRowCopy n bad s = .next z ∧ Frame ps r₀ z := by
  refine ⟨_, rfl, ?_⟩
  try dsimp only
  split
  all_goals repeat' first
    | with_reducible assumption
    | with_reducible exact List.Subset.trans (by decide) sub
    | with_reducible apply copyRow_frame
    | with_reducible refine Frame.ite ?_ ?_
    | with_reducible refine heavyRow_eq_frame (by assumption) ?_ ?_
    | dsimp only
    | split

theorem creditRow_frame {ps : List Part} {r₀ : State} {s : State} {n row : Nat}
    (sub : [.par, .rcl] ⊆ ps) (h₀ : Frame ps r₀ s) : Frame ps r₀ (creditRow s n row) := by
  unfold creditRow
  try dsimp only
  repeat' first
    | with_reducible assumption
    | with_reducible exact List.Subset.trans (by decide) sub
    | with_reducible apply State.updSpan_frame
    | with_reducible apply addCredit_frame
    | with_reducible refine Frame.ite ?_ ?_
    | dsimp only
    | split

theorem creditRows_frame {ps : List Part} {r₀ : State} {s : State}
    (sub : [.par, .rcl] ⊆ ps) (h₀ : Frame ps r₀ s) : Frame ps r₀ (creditRows s) := by
  unfold creditRows
  try dsimp only
  repeat' first
    | with_reducible assumption
    | with_reducible exact List.Subset.trans (by decide) sub
    | with_reducible apply creditRow_frame
    | with_reducible refine Frame.foldlFst (fun _ _ _ => ?_) ?_
    | with_reducible refine Frame.foldl (fun _ _ _ => ?_) ?_
    | dsimp only
    | split

theorem releaseSpan_frame {ps : List Part} {r₀ : State} {s : State} {n : Nat}
    (sub : [.par, .rcl, .regs] ⊆ ps) (h₀ : Frame ps r₀ s) : Frame ps r₀ (releaseSpan s n) := by
  unfold releaseSpan
  try dsimp only
  repeat' first
    | with_reducible assumption
    | with_reducible exact List.Subset.trans (by decide) sub
    | with_reducible apply State.bump_frame
    | with_reducible apply State.setPar_frame
    | with_reducible apply State.setRcl_frame
    | with_reducible apply State.updSpan_frame
    | with_reducible refine Frame.ite ?_ ?_
    | dsimp only
    | split

theorem releaseSpans_frame {ps : List Part} {r₀ : State} {s : State}
    (sub : [.par, .rcl, .regs] ⊆ ps) (h₀ : Frame ps r₀ s) : Frame ps r₀ (releaseSpans s) := by
  unfold releaseSpans
  try dsimp only
  split
  all_goals repeat' first
    | with_reducible assumption
    | with_reducible exact List.Subset.trans (by decide) sub
    | with_reducible apply releaseSpan_frame
    | with_reducible refine Frame.foldlFst (fun _ _ _ => ?_) ?_
    | with_reducible refine Frame.foldl (fun _ _ _ => ?_) ?_
    | with_reducible refine Frame.ite ?_ ?_
    | dsimp only
    | split

theorem spanErased_frame {ps : List Part} {r₀ : State} {s : State} {l : Layout} {n : Nat}
    (sub : [.par, .rcl] ⊆ ps) (h₀ : Frame ps r₀ s) : Frame ps r₀ (spanErased s l n) := by
  unfold spanErased
  try dsimp only
  repeat' first
    | with_reducible assumption
    | with_reducible exact List.Subset.trans (by decide) sub
    | with_reducible apply State.setPar_frame
    | with_reducible apply State.setRcl_frame
    | with_reducible apply State.setSpan_frame
    | with_reducible apply jspan_frame
    | with_reducible refine Frame.ite ?_ ?_
    | dsimp only
    | split

theorem tryErased_frame {ps : List Part} {r₀ : State} {s : State} {n : Nat}
    (sub : [.par, .rcl] ⊆ ps) (h₀ : Frame ps r₀ s) : Frame ps r₀ (tryErased s n) := by
  unfold tryErased
  try dsimp only
  split
  all_goals repeat' first
    | with_reducible assumption
    | with_reducible exact List.Subset.trans (by decide) sub
    | with_reducible apply spanErased_frame
    | with_reducible refine Frame.ite ?_ ?_
    | dsimp only
    | split

theorem eraseAgain_frame {ps : List Part} {r₀ : State} {s : State} {n c : Nat}
    (sub : [.par] ⊆ ps) (h₀ : Frame ps r₀ s) : Frame ps r₀ (eraseAgain s n c) := by
  unfold eraseAgain
  try dsimp only
  repeat' first
    | with_reducible assumption
    | with_reducible exact List.Subset.trans (by decide) sub
    | with_reducible apply State.updSpan_frame
    | dsimp only
    | split

theorem eraseFailed_frame {ps : List Part} {r₀ : State} {s : State} {l : Layout} {n c die block cause : Nat}
    (sub : [.par, .rcl, .evl, .pages, .regs] ⊆ ps) (h₀ : Frame ps r₀ s) : Frame ps r₀ (eraseFailed s l n c die block cause) := by
  unfold eraseFailed
  try dsimp only
  repeat' first
    | with_reducible assumption
    | with_reducible exact List.Subset.trans (by decide) sub
    | with_reducible apply State.setRcl_frame
    | with_reducible apply eraseAgain_frame
    | with_reducible apply retireBlock_frame
    | with_reducible apply retireSpan_frame
    | with_reducible refine Frame.ite ?_ ?_
    | with_reducible refine takeSubst_eq_frame (by assumption) ?_ ?_
    | dsimp only
    | split

theorem memberErased_frame {ps : List Part} {r₀ : State} {s : State} {n die : Nat} {t : CStat}
    (sub : [.par, .rcl, .evl, .pages, .regs] ⊆ ps) (h₀ : Frame ps r₀ s) : Frame ps r₀ (memberErased s n die t) := by
  unfold memberErased
  try dsimp only
  split
  all_goals repeat' first
    | with_reducible assumption
    | with_reducible exact List.Subset.trans (by decide) sub
    | with_reducible apply State.setRcl_frame
    | with_reducible apply State.updSpan_frame
    | with_reducible apply eraseAgain_frame
    | with_reducible apply eraseFailed_frame
    | with_reducible apply tryErased_frame
    | with_reducible refine Frame.ite ?_ ?_
    | dsimp only
    | split

theorem execSpanEraseStart_frame {ps : List Part} {r₀ : State} {n c : Nat} {s : State}
    (sub : [.stp, .fch, .par, .evl, .pages, .regs] ⊆ ps) (h₀ : Frame ps r₀ s) :
    ∃ z, execSpanEraseStart n c s = .next z ∧ Frame ps r₀ z := by
  refine ⟨_, rfl, ?_⟩
  try dsimp only
  split
  all_goals repeat' first
    | with_reducible assumption
    | with_reducible exact List.Subset.trans (by decide) sub
    | with_reducible apply State.updSpan_frame
    | with_reducible apply deferWindow_frame
    | with_reducible apply windowPlaced_frame
    | with_reducible refine Frame.ite ?_ ?_
    | with_reducible refine heavyCharge_eq_frame (by assumption) ?_ ?_
    | with_reducible refine placeTwo_eq_frame (by assumption) ?_ ?_
    | dsimp only
    | split

theorem paddockLevels_frame {ps : List Part} {r₀ : State} {s : State}
    (sub : [.rcl, .evl, .pages, .regs] ⊆ ps) (h₀ : Frame ps r₀ s) : Frame ps r₀ (paddockLevels s) := by
  unfold paddockLevels
  try dsimp only
  repeat' first
    | with_reducible assumption
    | with_reducible exact List.Subset.trans (by decide) sub
    | with_reducible apply State.ev_frame
    | with_reducible apply State.raise_frame
    | with_reducible apply State.setRcl_frame
    | with_reducible refine Frame.ite ?_ ?_
    | dsimp only
    | split

theorem smartEvent_frame {ps : List Part} {r₀ : State} {s : State} {bit info : Nat}
    (sub : [.qmx, .fns] ⊆ ps) (h₀ : Frame ps r₀ s) : Frame ps r₀ (smartEvent s bit info) := by
  unfold smartEvent
  try dsimp only
  repeat' first
    | with_reducible assumption
    | with_reducible exact List.Subset.trans (by decide) sub
    | with_reducible apply State.asyncEvent_frame
    | with_reducible refine Frame.foldlFst (fun _ _ _ => ?_) ?_
    | with_reducible refine Frame.foldl (fun _ _ _ => ?_) ?_
    | dsimp only
    | split

theorem readOnlyEnter_frame {ps : List Part} {r₀ : State} {s : State}
    (sub : [.stp, .qmx, .fns, .map, .wbf, .par, .rcl, .nor, .evl, .pages, .regs] ⊆ ps) (h₀ : Frame ps r₀ s) : Frame ps r₀ (readOnlyEnter s) := by
  unfold readOnlyEnter
  try dsimp only
  repeat' first
    | with_reducible assumption
    | with_reducible exact List.Subset.trans (by decide) sub
    | with_reducible apply State.ev_frame
    | with_reducible apply State.finish_frame
    | with_reducible apply State.raise_frame
    | with_reducible apply State.setNor_frame
    | with_reducible apply State.setRcl_frame
    | with_reducible apply releaseCmd_frame
    | with_reducible apply smartEvent_frame
    | with_reducible refine Frame.foldlFst (fun _ _ _ => ?_) ?_
    | with_reducible refine Frame.foldl (fun _ _ _ => ?_) ?_
    | with_reducible refine Frame.ite ?_ ?_
    | dsimp only
    | split

theorem lifeFigure_frame {ps : List Part} {r₀ : State} {s : State}
    (sub : [.qmx, .fns, .rcl, .evl, .pages, .regs] ⊆ ps) (h₀ : Frame ps r₀ s) : Frame ps r₀ (lifeFigure s) := by
  unfold lifeFigure
  try dsimp only
  repeat' first
    | with_reducible assumption
    | with_reducible exact List.Subset.trans (by decide) sub
    | with_reducible apply State.ev_frame
    | with_reducible apply State.raise_frame
    | with_reducible apply State.setRcl_frame
    | with_reducible apply smartEvent_frame
    | with_reducible refine Frame.ite ?_ ?_
    | dsimp only
    | split

theorem execSanitizeBlockErase_frame {ps : List Part} {r₀ : State} {seq : Nat} {s : State}
    (sub : [.qmx, .fns, .rcl, .nor] ⊆ ps) (h₀ : Frame ps r₀ s) :
    ∃ z, execSanitizeBlockErase seq s = .next z ∧ Frame ps r₀ z := by
  refine ⟨_, rfl, ?_⟩
  try dsimp only
  repeat' first
    | with_reducible assumption
    | with_reducible exact List.Subset.trans (by decide) sub
    | with_reducible apply State.finish_frame
    | with_reducible apply State.setNor_frame
    | with_reducible apply State.setRcl_frame
    | with_reducible refine State.managerOnly_frame (fun _ => ?_) ?_ ?_
    | with_reducible refine Frame.ite ?_ ?_
    | dsimp only
    | split

theorem dropCopies_frame {ps : List Part} {r₀ : State} {s : State}
    (sub : [.map, .wbf, .par] ⊆ ps) (h₀ : Frame ps r₀ s) : Frame ps r₀ (dropCopies s) := by
  unfold dropCopies
  try dsimp only
  repeat' first
    | with_reducible assumption
    | with_reducible exact List.Subset.trans (by decide) sub
    | with_reducible apply State.setMap_frame
    | with_reducible apply State.setPar_frame
    | with_reducible apply State.setSlot_frame
    | with_reducible apply State.setWbf_frame
    | with_reducible refine Frame.foldlFst (fun _ _ _ => ?_) ?_
    | with_reducible refine Frame.foldl (fun _ _ _ => ?_) ?_
    | with_reducible refine Frame.ite ?_ ?_
    | dsimp only
    | split

theorem closeStreams_frame {ps : List Part} {r₀ : State} {s : State} {l : Layout}
    (sub : [.wbf, .par] ⊆ ps) (h₀ : Frame ps r₀ s) : Frame ps r₀ (closeStreams s l) := by
  unfold closeStreams
  try dsimp only
  repeat' first
    | with_reducible assumption
    | with_reducible exact List.Subset.trans (by decide) sub
    | with_reducible apply State.setStream_frame
    | with_reducible apply leaveIfSpent_frame
    | with_reducible refine Frame.foldlFst (fun _ _ _ => ?_) ?_
    | with_reducible refine Frame.foldl (fun _ _ _ => ?_) ?_
    | with_reducible refine Frame.ite ?_ ?_
    | dsimp only
    | split

theorem sanitizeBegin_frame {ps : List Part} {r₀ : State} {s : State}
    (sub : [.stp, .qmx, .fns, .map, .wbf, .par, .rcl, .pages, .regs] ⊆ ps) (h₀ : Frame ps r₀ s) : Frame ps r₀ (sanitizeBegin s) := by
  unfold sanitizeBegin
  try dsimp only
  split
  all_goals repeat' first
    | with_reducible assumption
    | with_reducible exact List.Subset.trans (by decide) sub
    | with_reducible apply State.finish_frame
    | with_reducible apply State.setRcl_frame
    | with_reducible apply clearSpace_frame
    | with_reducible apply closeStreams_frame
    | with_reducible apply dropCopies_frame
    | with_reducible apply releaseCmd_frame
    | with_reducible refine Frame.foldlFst (fun _ _ _ => ?_) ?_
    | with_reducible refine Frame.foldl (fun _ _ _ => ?_) ?_
    | dsimp only
    | split

theorem sanitizeRun_frame {ps : List Part} {r₀ : State} {s : State}
    (sub : [.map, .wbf, .par, .rcl, .regs] ⊆ ps) (h₀ : Frame ps r₀ s) : Frame ps r₀ (sanitizeRun s) := by
  unfold sanitizeRun
  try dsimp only
  repeat' first
    | with_reducible assumption
    | with_reducible exact List.Subset.trans (by decide) sub
    | with_reducible apply State.setRcl_frame
    | with_reducible apply closeSpan_frame
    | with_reducible apply releaseSpan_frame
    | with_reducible apply startCkpt_frame
    | with_reducible refine Frame.foldlFst (fun _ _ _ => ?_) ?_
    | with_reducible refine Frame.foldl (fun _ _ _ => ?_) ?_
    | with_reducible refine Frame.ite ?_ ?_
    | dsimp only
    | split

theorem sanitizeTick_frame {ps : List Part} {r₀ : State} {s : State}
    (sub : [.stp, .qmx, .fns, .map, .wbf, .par, .rcl, .pages, .regs] ⊆ ps) (h₀ : Frame ps r₀ s) : Frame ps r₀ (sanitizeTick s) := by
  unfold sanitizeTick
  try dsimp only
  split
  all_goals repeat' first
    | with_reducible assumption
    | with_reducible exact List.Subset.trans (by decide) sub
    | with_reducible apply sanitizeBegin_frame
    | with_reducible apply sanitizeRun_frame
    | dsimp only
    | split

theorem execSanitizeComplete_frame {ps : List Part} {r₀ : State} {s : State}
    (sub : [.rcl, .hld, .nor, .evl, .pages, .regs] ⊆ ps) (h₀ : Frame ps r₀ s) :
    ∃ z, execSanitizeComplete s = .next z ∧ Frame ps r₀ z := by
  refine ⟨_, rfl, ?_⟩
  try dsimp only
  split
  all_goals repeat' first
    | with_reducible assumption
    | with_reducible exact List.Subset.trans (by decide) sub
    | with_reducible apply State.raise_frame
    | with_reducible apply State.setHld_frame
    | with_reducible apply State.setNor_frame
    | with_reducible apply State.setRcl_frame
    | with_reducible refine Frame.ite ?_ ?_
    | dsimp only
    | split

theorem execSanitizeCryptoErase_frame {ps : List Part} {r₀ : State} {seq : Nat} {s : State}
    (sub : [.draws, .gate, .qmx, .fns, .map, .wbf, .par, .rcl, .key, .norWaits, .evl, .pages, .regs] ⊆ ps) (h₀ : Frame ps r₀ s) :
    ∃ z, execSanitizeCryptoErase seq s = .next z ∧ Frame ps r₀ z := by
  refine ⟨_, rfl, ?_⟩
  try dsimp only
  repeat' first
    | with_reducible assumption
    | with_reducible exact List.Subset.trans (by decide) sub
    | with_reducible apply State.finish_frame
    | with_reducible apply State.setRcl_frame
    | with_reducible apply cryptoEraseAll_frame
    | with_reducible refine State.managerOnly_frame (fun _ => ?_) ?_ ?_
    | with_reducible refine Frame.ite ?_ ?_
    | dsimp only
    | split

theorem execSanitizeOverwrite_frame {ps : List Part} {r₀ : State} {seq : Nat} {s : State}
    (sub : [.qmx, .fns] ⊆ ps) (h₀ : Frame ps r₀ s) :
    ∃ z, execSanitizeOverwrite seq s = .next z ∧ Frame ps r₀ z := by
  refine ⟨_, rfl, ?_⟩
  try dsimp only
  repeat' first
    | with_reducible assumption
    | with_reducible exact List.Subset.trans (by decide) sub
    | with_reducible apply State.finish_frame
    | with_reducible refine State.managerOnly_frame (fun _ => ?_) ?_ ?_
    | dsimp only
    | split

theorem readWide_frame {ps : List Part} {r₀ : State} {s : State} {p : Path} {hi : Fld} {v : Nat}
    (sub : [.ans, .gate, .paths] ⊆ ps) (h₀ : Frame ps r₀ s) : Frame ps r₀ (readWide s p hi v) := by
  unfold readWide
  try dsimp only
  repeat' first
    | with_reducible assumption
    | with_reducible exact List.Subset.trans (by decide) sub
    | with_reducible apply State.answer_frame
    | with_reducible apply State.latch_frame
    | dsimp only
    | split

theorem execRclCopyLoRead_frame {ps : List Part} {r₀ : State} {p : Path} {s : State}
    (sub : [.ans, .gate, .paths] ⊆ ps) (h₀ : Frame ps r₀ s) :
    ∃ z, execRclCopyLoRead p s = .next z ∧ Frame ps r₀ z := by
  refine ⟨_, rfl, ?_⟩
  try dsimp only
  repeat' first
    | with_reducible assumption
    | with_reducible exact List.Subset.trans (by decide) sub
    | with_reducible apply readWide_frame
    | dsimp only
    | split

theorem execRclHostLoRead_frame {ps : List Part} {r₀ : State} {p : Path} {s : State}
    (sub : [.ans, .gate, .paths] ⊆ ps) (h₀ : Frame ps r₀ s) :
    ∃ z, execRclHostLoRead p s = .next z ∧ Frame ps r₀ z := by
  refine ⟨_, rfl, ?_⟩
  try dsimp only
  repeat' first
    | with_reducible assumption
    | with_reducible exact List.Subset.trans (by decide) sub
    | with_reducible apply readWide_frame
    | dsimp only
    | split

end Sys2Proof.Machine
end

