-- ==== Sys2Proof/Laws/Records.lean ====
section
/-! SUPPORT. What each operation of Machine/Records.lean may change. -/

-- one proof after another: many at once would each hold a thread
set_option Elab.async false

namespace Sys2Proof.Machine

open Sys2Proof

theorem readEnded_frame {ps : List Part} {r₀ : State} {s : State} {t : CStat} {id pos : Nat}
    (sub : [.stp, .qmx, .map, .wbf, .ldc, .par, .cip, .evl, .pages, .regs] ⊆ ps) (h₀ : Frame ps r₀ s) : Frame ps r₀ (readEnded s t id pos) := by
  unfold readEnded
  try dsimp only
  split
  all_goals repeat' first
    | with_reducible assumption
    | with_reducible exact List.Subset.trans (by decide) sub
    | with_reducible apply readAgain_frame
    | with_reducible apply readLost_frame
    | with_reducible apply settleJob_frame
    | with_reducible apply stepFail_frame
    | dsimp only
    | split

theorem readRecord_frame {ps : List Part} {r₀ : State} {s : State} {r : CRec} {id pos : Nat}
    (sub : [.stp, .qmx, .map, .wbf, .ldc, .par, .cip, .evl, .pages, .regs] ⊆ ps) (h₀ : Frame ps r₀ s) : Frame ps r₀ (readRecord s r id pos) := by
  unfold readRecord
  try dsimp only
  repeat' first
    | with_reducible assumption
    | with_reducible exact List.Subset.trans (by decide) sub
    | with_reducible apply readEnded_frame
    | with_reducible refine Frame.foldlFst (fun _ _ _ => ?_) ?_
    | with_reducible refine Frame.foldl (fun _ _ _ => ?_) ?_
    | with_reducible refine Frame.ite ?_ ?_
    | dsimp only
    | split

theorem programRecord_frame {ps : List Part} {r₀ : State} {s : State} {r : CRec} {stream serial member : Nat}
    (sub : [.qmx, .fns, .map, .wbf, .par, .rcl, .staged, .evl, .pages, .regs] ⊆ ps) (h₀ : Frame ps r₀ s) : Frame ps r₀ (programRecord s r stream serial member) := by
  unfold programRecord
  try dsimp only
  split
  all_goals repeat' first
    | with_reducible assumption
    | with_reducible exact List.Subset.trans (by decide) sub
    | with_reducible apply puDone_frame
    | with_reducible apply puFailed_frame
    | dsimp only
    | split

theorem nativeRecord_frame {ps : List Part} {r₀ : State} {s : State} {t : CStat} {die block count : Nat}
    (sub : [.fch, .par, .rcl, .evl, .pages, .regs] ⊆ ps) (h₀ : Frame ps r₀ s) : Frame ps r₀ (nativeRecord s t die block count) := by
  unfold nativeRecord
  try dsimp only
  split
  all_goals repeat' first
    | with_reducible assumption
    | with_reducible exact List.Subset.trans (by decide) sub
    | with_reducible refine State.setFch_keep ?_ ?_ ?_
    | exact (rfl : _ = _)
    | with_reducible apply State.updSpan_frame
    | with_reducible apply eraseFailed_frame
    | with_reducible apply retireBlock_frame
    | with_reducible apply tryErased_frame
    | with_reducible refine Frame.ite ?_ ?_
    | dsimp only
    | split

theorem blockRecord_frame {ps : List Part} {r₀ : State} {s : State} {t : CStat} {die block count : Nat}
    (sub : [.fch, .par, .rcl, .hld, .evl, .pages, .regs] ⊆ ps) (h₀ : Frame ps r₀ s) : Frame ps r₀ (blockRecord s t die block count) := by
  unfold blockRecord
  try dsimp only
  repeat' first
    | with_reducible assumption
    | with_reducible exact List.Subset.trans (by decide) sub
    | with_reducible apply State.setHld_frame
    | with_reducible apply State.setRcl_frame
    | with_reducible apply nativeRecord_frame
    | with_reducible apply queuePslcErase_frame
    | with_reducible refine Frame.ite ?_ ?_
    | with_reducible refine takePslc_eq_frame (by assumption) ?_ ?_
    | dsimp only
    | split

theorem takeRecord_frame {ps : List Part} {r₀ : State} {s : State} {r : CRec}
    (sub : [.stp, .qmx, .fns, .map, .wbf, .fch, .ldc, .par, .rcl, .cip, .staged, .hld, .evl, .pages, .regs] ⊆ ps) (h₀ : Frame ps r₀ s) : Frame ps r₀ (takeRecord s r) := by
  unfold takeRecord
  try dsimp only
  split
  all_goals repeat' first
    | with_reducible assumption
    | with_reducible exact List.Subset.trans (by decide) sub
    | with_reducible apply State.finish_frame
    | with_reducible apply blockRecord_frame
    | with_reducible apply memberErased_frame
    | with_reducible apply programRecord_frame
    | with_reducible apply readRecord_frame
    | with_reducible refine Frame.ite ?_ ?_
    | dsimp only
    | split

theorem drainChan_frame {ps : List Part} {r₀ : State} {s : State} {nn : Nat}
    (sub : [.stp, .qmx, .fns, .map, .wbf, .fch, .ldc, .par, .rcl, .cip, .staged, .hld, .evl, .pages, .regs] ⊆ ps) (h₀ : Frame ps r₀ s) : Frame ps r₀ (drainChan s nn) := by
  unfold drainChan
  try dsimp only
  repeat' first
    | with_reducible assumption
    | with_reducible exact List.Subset.trans (by decide) sub
    | with_reducible apply State.setChan_frame
    | with_reducible apply State.updChan_frame
    | with_reducible apply takeRecord_frame
    | with_reducible refine Frame.foldlFst (fun _ _ _ => ?_) ?_
    | with_reducible refine Frame.foldl (fun _ _ _ => ?_) ?_
    | dsimp only
    | split

theorem drainRecords_frame {ps : List Part} {r₀ : State} {s : State}
    (sub : [.stp, .qmx, .fns, .map, .wbf, .fch, .ldc, .par, .rcl, .cip, .staged, .hld, .evl, .pages, .regs] ⊆ ps) (h₀ : Frame ps r₀ s) : Frame ps r₀ (drainRecords s) := by
  unfold drainRecords
  try dsimp only
  repeat' first
    | with_reducible assumption
    | with_reducible exact List.Subset.trans (by decide) sub
    | with_reducible apply drainChan_frame
    | with_reducible refine Frame.foldlFst (fun _ _ _ => ?_) ?_
    | with_reducible refine Frame.foldl (fun _ _ _ => ?_) ?_
    | dsimp only
    | split

end Sys2Proof.Machine
end

