-- ==== Sys2Proof/Laws/Power.lean ====
section
/-! SUPPORT. What each operation of Machine/Power.lean may change. -/

-- one proof after another: many at once would each hold a thread
set_option Elab.async false

namespace Sys2Proof.Machine

open Sys2Proof

theorem setStr_frame {ps : List Part} {r₀ : State} {s : State} {k : Nat} {x : Str}
    (sub : [.hld, .evl, .pages, .regs] ⊆ ps) (h₀ : Frame ps r₀ s) : Frame ps r₀ (setStr s k x) := by
  unfold setStr
  try dsimp only
  repeat' first
    | with_reducible assumption
    | with_reducible exact List.Subset.trans (by decide) sub
    | with_reducible apply State.ev_frame
    | with_reducible apply State.raise_frame
    | with_reducible apply State.setHld_frame
    | with_reducible refine Frame.ite ?_ ?_
    | dsimp only
    | split

theorem breakChan_frame {ps : List Part} {r₀ : State} {s : State} {c : Nat}
    (sub : [.thm, .hld, .evl, .pages, .regs] ⊆ ps) (h₀ : Frame ps r₀ s) : Frame ps r₀ (breakChan s c) := by
  unfold breakChan
  try dsimp only
  repeat' first
    | with_reducible assumption
    | with_reducible exact List.Subset.trans (by decide) sub
    | with_reducible apply State.ev_frame
    | with_reducible apply State.raise_frame
    | with_reducible apply State.setThm_frame
    | with_reducible apply setStr_frame
    | with_reducible refine Frame.ite ?_ ?_
    | dsimp only
    | split

theorem sampleChan_frame {ps : List Part} {r₀ : State} {s : State} {c code : Nat}
    (sub : [.thm, .hld, .evl, .pages, .regs] ⊆ ps) (h₀ : Frame ps r₀ s) : Frame ps r₀ (sampleChan s c code) := by
  unfold sampleChan
  try dsimp only
  repeat' first
    | with_reducible assumption
    | with_reducible exact List.Subset.trans (by decide) sub
    | with_reducible apply State.setThm_frame
    | with_reducible apply breakChan_frame
    | with_reducible refine Frame.ite ?_ ?_
    | dsimp only
    | split

theorem sampleAll_frame {ps : List Part} {r₀ : State} {s : State} {codes : Tbl (BitVec 12)}
    (sub : [.thm, .hld, .evl, .pages, .regs] ⊆ ps) (h₀ : Frame ps r₀ s) : Frame ps r₀ (sampleAll s codes) := by
  unfold sampleAll
  try dsimp only
  repeat' first
    | with_reducible assumption
    | with_reducible exact List.Subset.trans (by decide) sub
    | with_reducible apply sampleChan_frame
    | with_reducible refine Frame.foldlFst (fun _ _ _ => ?_) ?_
    | with_reducible refine Frame.foldl (fun _ _ _ => ?_) ?_
    | with_reducible refine Frame.ite ?_ ?_
    | dsimp only
    | split

theorem modelStep_frame {ps : List Part} {r₀ : State} {s : State} {dt : Rat}
    (sub : [.thm] ⊆ ps) (h₀ : Frame ps r₀ s) : Frame ps r₀ (modelStep s dt) := by
  unfold modelStep
  try dsimp only
  repeat' first
    | with_reducible assumption
    | with_reducible exact List.Subset.trans (by decide) sub
    | with_reducible apply State.setThm_frame
    | dsimp only
    | split

theorem diodeStep_frame {ps : List Part} {r₀ : State} {s : State} {diodes : List Int} {k : Nat}
    (sub : [.thm, .evl, .pages, .regs] ⊆ ps) (h₀ : Frame ps r₀ s) : Frame ps r₀ (diodeStep s diodes k) := by
  unfold diodeStep
  try dsimp only
  split
  all_goals repeat' first
    | with_reducible assumption
    | with_reducible exact List.Subset.trans (by decide) sub
    | with_reducible apply State.ev_frame
    | with_reducible apply State.raise_frame
    | with_reducible apply State.setThm_frame
    | with_reducible refine Frame.ite ?_ ?_
    | dsimp only
    | split

theorem diodeSteps_frame {ps : List Part} {r₀ : State} {s : State} {diodes : List Int}
    (sub : [.thm, .evl, .pages, .regs] ⊆ ps) (h₀ : Frame ps r₀ s) : Frame ps r₀ (diodeSteps s diodes) := by
  unfold diodeSteps
  try dsimp only
  repeat' first
    | with_reducible assumption
    | with_reducible exact List.Subset.trans (by decide) sub
    | with_reducible apply diodeStep_frame
    | with_reducible refine Frame.foldlFst (fun _ _ _ => ?_) ?_
    | with_reducible refine Frame.foldl (fun _ _ _ => ?_) ?_
    | with_reducible refine Frame.ite ?_ ?_
    | dsimp only
    | split

theorem setLevel_frame {ps : List Part} {r₀ : State} {s : State} {n : Nat}
    (sub : [.stp, .thm, .evl, .pages, .regs] ⊆ ps) (h₀ : Frame ps r₀ s) : Frame ps r₀ (setLevel s n) := by
  unfold setLevel
  try dsimp only
  repeat' first
    | with_reducible assumption
    | with_reducible exact List.Subset.trans (by decide) sub
    | with_reducible apply State.ev_frame
    | with_reducible apply State.raise_frame
    | with_reducible apply State.setStp_frame
    | with_reducible apply State.setThm_frame
    | dsimp only
    | split

theorem levelStep_frame {ps : List Part} {r₀ : State} {s : State}
    (sub : [.stp, .thm, .evl, .pages, .regs] ⊆ ps) (h₀ : Frame ps r₀ s) : Frame ps r₀ (levelStep s) := by
  unfold levelStep
  try dsimp only
  repeat' first
    | with_reducible assumption
    | with_reducible exact List.Subset.trans (by decide) sub
    | with_reducible apply State.setThm_frame
    | with_reducible apply setLevel_frame
    | with_reducible refine Frame.ite ?_ ?_
    | dsimp only
    | split

theorem throttleStep_frame {ps : List Part} {r₀ : State} {s : State}
    (sub : [.stp, .thm, .evl, .pages, .regs] ⊆ ps) (h₀ : Frame ps r₀ s) : Frame ps r₀ (throttleStep s) := by
  unfold throttleStep
  try dsimp only
  repeat' first
    | with_reducible assumption
    | with_reducible exact List.Subset.trans (by decide) sub
    | with_reducible apply State.ev_frame
    | with_reducible apply State.raise_frame
    | with_reducible apply State.setThm_frame
    | with_reducible apply levelStep_frame
    | with_reducible refine Frame.ite ?_ ?_
    | dsimp only
    | split

theorem thresholdFn_frame {ps : List Part} {r₀ : State} {s : State} {f : Nat}
    (sub : [.qmx, .fns] ⊆ ps) (h₀ : Frame ps r₀ s) : Frame ps r₀ (thresholdFn s f) := by
  unfold thresholdFn
  try dsimp only
  repeat' first
    | with_reducible assumption
    | with_reducible exact List.Subset.trans (by decide) sub
    | with_reducible apply State.asyncEvent_frame
    | with_reducible apply State.setFn_frame
    | with_reducible refine Frame.ite ?_ ?_
    | dsimp only
    | split

theorem thresholdStep_frame {ps : List Part} {r₀ : State} {s : State}
    (sub : [.qmx, .fns] ⊆ ps) (h₀ : Frame ps r₀ s) : Frame ps r₀ (thresholdStep s) := by
  unfold thresholdStep
  try dsimp only
  repeat' first
    | with_reducible assumption
    | with_reducible exact List.Subset.trans (by decide) sub
    | with_reducible apply thresholdFn_frame
    | with_reducible refine Frame.foldlFst (fun _ _ _ => ?_) ?_
    | with_reducible refine Frame.foldl (fun _ _ _ => ?_) ?_
    | dsimp only
    | split

theorem powerLoop_frame {ps : List Part} {r₀ : State} {s : State}
    (sub : [.thm] ⊆ ps) (h₀ : Frame ps r₀ s) : Frame ps r₀ (powerLoop s) := by
  unfold powerLoop
  try dsimp only
  repeat' first
    | with_reducible assumption
    | with_reducible exact List.Subset.trans (by decide) sub
    | with_reducible apply State.setThm_frame
    | with_reducible refine Frame.ite ?_ ?_
    | dsimp only
    | split

theorem execThrottleLevelLower_frame {ps : List Part} {r₀ : State} {s : State}
    (sub : [.stp, .thm, .evl, .pages, .regs] ⊆ ps) (h₀ : Frame ps r₀ s) :
    ∃ z, execThrottleLevelLower s = .next z ∧ Frame ps r₀ z := by
  refine ⟨_, rfl, ?_⟩
  try dsimp only
  split
  all_goals repeat' first
    | with_reducible assumption
    | with_reducible exact List.Subset.trans (by decide) sub
    | with_reducible apply setLevel_frame
    | with_reducible refine Frame.ite ?_ ?_
    | dsimp only
    | split

theorem armDump_frame {ps : List Part} {r₀ : State} {s : State} {c : DumpCause}
    (sub : [.hld] ⊆ ps) (h₀ : Frame ps r₀ s) : Frame ps r₀ (armDump s c) := by
  unfold armDump
  try dsimp only
  repeat' first
    | with_reducible assumption
    | with_reducible exact List.Subset.trans (by decide) sub
    | with_reducible apply State.setHld_frame
    | with_reducible refine Frame.ite ?_ ?_
    | dsimp only
    | split

theorem snuffStep_frame {ps : List Part} {r₀ : State} {s : State}
    (sub : [.thm, .hld, .evl, .pages, .regs] ⊆ ps) (h₀ : Frame ps r₀ s) : Frame ps r₀ (snuffStep s) := by
  unfold snuffStep
  try dsimp only
  repeat' first
    | with_reducible assumption
    | with_reducible exact List.Subset.trans (by decide) sub
    | with_reducible apply State.bump_frame
    | with_reducible apply State.raise_frame
    | with_reducible apply State.setThm_frame
    | with_reducible apply armDump_frame
    | with_reducible refine Frame.ite ?_ ?_
    | dsimp only
    | split

theorem execSnuffPowerOff_frame {ps : List Part} {r₀ : State} {s : State}
    (sub : [.qmx, .thm, .bot, .pins, .cpx] ⊆ ps) (h₀ : Frame ps r₀ s) :
    ∃ z, execSnuffPowerOff s = .next z ∧ Frame ps r₀ z := by
  refine ⟨_, rfl, ?_⟩
  try dsimp only
  repeat' first
    | with_reducible assumption
    | with_reducible exact List.Subset.trans (by decide) sub
    | with_reducible apply State.setBot_frame
    | with_reducible apply State.setCpx_frame
    | with_reducible apply State.setPins_frame
    | with_reducible apply State.setQmx_frame
    | with_reducible apply State.setThm_frame
    | with_reducible refine Frame.ite ?_ ?_
    | dsimp only
    | split

theorem bankDrop_frame {ps : List Part} {r₀ : State} {s : State} {v : Nat} {restores : Option Nat}
    (sub : [.hld, .evl, .pages, .regs] ⊆ ps) (h₀ : Frame ps r₀ s) : Frame ps r₀ (bankDrop s v restores) := by
  unfold bankDrop
  try dsimp only
  split
  all_goals repeat' first
    | with_reducible assumption
    | with_reducible exact List.Subset.trans (by decide) sub
    | with_reducible apply setStr_frame
    | with_reducible refine Frame.ite ?_ ?_
    | dsimp only
    | split

theorem holdupStep_frame {ps : List Part} {r₀ : State} {s : State} {none_ : Bool}
    (sub : [.qmx, .hld, .evl, .pages, .regs] ⊆ ps) (h₀ : Frame ps r₀ s) : Frame ps r₀ (holdupStep s none_) := by
  unfold holdupStep
  try dsimp only
  repeat' first
    | with_reducible assumption
    | with_reducible exact List.Subset.trans (by decide) sub
    | with_reducible apply State.ev_frame
    | with_reducible apply State.raise_frame
    | with_reducible apply State.setHld_frame
    | with_reducible apply State.setQmx_frame
    | with_reducible refine Frame.ite ?_ ?_
    | dsimp only
    | split

theorem reportCeiling_frame {ps : List Part} {r₀ : State} {s : State} {e : Int}
    (sub : [.wbf, .pages] ⊆ ps) (h₀ : Frame ps r₀ s) : Frame ps r₀ (reportCeiling s e) := by
  unfold reportCeiling
  try dsimp only
  repeat' first
    | with_reducible assumption
    | with_reducible exact List.Subset.trans (by decide) sub
    | with_reducible apply State.ev_frame
    | with_reducible apply State.setWbf_frame
    | with_reducible refine Frame.ite ?_ ?_
    | dsimp only
    | split

theorem hldRound_frame {ps : List Part} {r₀ : State} {s : State} {restores : Option Nat}
    (sub : [.qmx, .wbf, .hld, .evl, .pages, .regs] ⊆ ps) (h₀ : Frame ps r₀ s) : Frame ps r₀ (hldRound s restores) := by
  unfold hldRound
  try dsimp only
  repeat' first
    | with_reducible assumption
    | with_reducible exact List.Subset.trans (by decide) sub
    | with_reducible apply State.setHld_frame
    | with_reducible apply bankDrop_frame
    | with_reducible apply holdupStep_frame
    | with_reducible apply reportCeiling_frame
    | with_reducible refine Frame.ite ?_ ?_
    | dsimp only
    | split

theorem execStringTest_frame {ps : List Part} {r₀ : State} {k tAll tK esr : Nat} {s : State}
    (sub : [.wbf, .hld, .evl, .pages, .regs] ⊆ ps) (h₀ : Frame ps r₀ s) :
    ∃ z, execStringTest k tAll tK esr s = .next z ∧ Frame ps r₀ z := by
  refine ⟨_, rfl, ?_⟩
  try dsimp only
  repeat' first
    | with_reducible assumption
    | with_reducible exact List.Subset.trans (by decide) sub
    | with_reducible apply State.bump_frame
    | with_reducible apply State.ev_frame
    | with_reducible apply State.setHld_frame
    | with_reducible apply reportCeiling_frame
    | with_reducible apply setStr_frame
    | with_reducible refine Frame.ite ?_ ?_
    | dsimp only
    | split

theorem execHldTestNow_frame {ps : List Part} {r₀ : State} {p : Path} {w : Dword} {s : State}
    (sub : [.hld, .paths, .regs] ⊆ ps) (h₀ : Frame ps r₀ s) :
    ∃ z, execHldTestNow p w s = .next z ∧ Frame ps r₀ z := by
  refine ⟨_, rfl, ?_⟩
  try dsimp only
  repeat' first
    | with_reducible assumption
    | with_reducible exact List.Subset.trans (by decide) sub
    | with_reducible apply State.setHld_frame
    | with_reducible apply storeWord_frame
    | with_reducible refine Frame.ite ?_ ?_
    | dsimp only
    | split

theorem dieTemps_frame {ps : List Part} {r₀ : State} {s : State}
    (sub : [.fch] ⊆ ps) (h₀ : Frame ps r₀ s) : Frame ps r₀ (dieTemps s) := by
  unfold dieTemps
  try dsimp only
  repeat' first
    | with_reducible assumption
    | with_reducible exact List.Subset.trans (by decide) sub
    | with_reducible apply State.updDie_frame
    | with_reducible refine Frame.foldlFst (fun _ _ _ => ?_) ?_
    | with_reducible refine Frame.foldl (fun _ _ _ => ?_) ?_
    | with_reducible refine Frame.ite ?_ ?_
    | dsimp only
    | split

theorem sumPower_frame {ps : List Part} {r₀ : State} {s : State}
    (sub : [.thm] ⊆ ps) (h₀ : Frame ps r₀ s) : Frame ps r₀ (sumPower s) := by
  unfold sumPower
  try dsimp only
  repeat' first
    | with_reducible assumption
    | with_reducible exact List.Subset.trans (by decide) sub
    | with_reducible apply State.setThm_frame
    | with_reducible refine Frame.ite ?_ ?_
    | dsimp only
    | split

theorem execHousekeepingRound_frame {ps : List Part} {r₀ : State} {codes : Tbl (BitVec 12)} {diodes : List Int} {restores : Option Nat} {s : State}
    (sub : [.stp, .qmx, .fns, .wbf, .fch, .thm, .hld, .evl, .pages, .regs] ⊆ ps) (h₀ : Frame ps r₀ s) :
    ∃ z, execHousekeepingRound codes diodes restores s = .next z ∧ Frame ps r₀ z := by
  refine ⟨_, rfl, ?_⟩
  try dsimp only
  repeat' first
    | with_reducible assumption
    | with_reducible exact List.Subset.trans (by decide) sub
    | with_reducible apply State.ev_frame
    | with_reducible apply State.setThm_frame
    | with_reducible apply dieTemps_frame
    | with_reducible apply diodeSteps_frame
    | with_reducible apply hldRound_frame
    | with_reducible apply modelStep_frame
    | with_reducible apply sampleAll_frame
    | with_reducible apply snuffStep_frame
    | with_reducible apply sumPower_frame
    | with_reducible apply thresholdStep_frame
    | with_reducible apply throttleStep_frame
    | with_reducible refine Frame.ite ?_ ?_
    | dsimp only
    | split

theorem execOpenTest_frame {ps : List Part} {r₀ : State} {moves : Tbl Nat} {s : State}
    (sub : [.thm, .hld, .evl, .pages, .regs] ⊆ ps) (h₀ : Frame ps r₀ s) :
    ∃ z, execOpenTest moves s = .next z ∧ Frame ps r₀ z := by
  refine ⟨_, rfl, ?_⟩
  try dsimp only
  repeat' first
    | with_reducible assumption
    | with_reducible exact List.Subset.trans (by decide) sub
    | with_reducible apply State.setThm_frame
    | with_reducible apply breakChan_frame
    | with_reducible refine Frame.foldlFst (fun _ _ _ => ?_) ?_
    | with_reducible refine Frame.foldl (fun _ _ _ => ?_) ?_
    | with_reducible refine Frame.ite ?_ ?_
    | dsimp only
    | split

theorem execPackageTemperatureRead_frame {ps : List Part} {r₀ : State} {readings : Tbl Int} {s : State}
    (sub : [.thm] ⊆ ps) (h₀ : Frame ps r₀ s) :
    ∃ z, execPackageTemperatureRead readings s = .next z ∧ Frame ps r₀ z := by
  refine ⟨_, rfl, ?_⟩
  try dsimp only
  repeat' first
    | with_reducible assumption
    | with_reducible exact List.Subset.trans (by decide) sub
    | with_reducible apply State.setThm_frame
    | with_reducible refine Frame.foldlFst (fun _ _ _ => ?_) ?_
    | with_reducible refine Frame.foldl (fun _ _ _ => ?_) ?_
    | with_reducible refine Frame.ite ?_ ?_
    | dsimp only
    | split

theorem applyPs_frame {ps : List Part} {r₀ : State} {s : State}
    (sub : [.thm, .pages] ⊆ ps) (h₀ : Frame ps r₀ s) : Frame ps r₀ (applyPs s) := by
  unfold applyPs
  try dsimp only
  split
  all_goals repeat' first
    | with_reducible assumption
    | with_reducible exact List.Subset.trans (by decide) sub
    | with_reducible apply State.ev_frame
    | with_reducible apply State.setThm_frame
    | with_reducible refine Frame.ite ?_ ?_
    | dsimp only
    | split

theorem execLowPowerStateEntry_frame {ps : List Part} {r₀ : State} {s : State}
    (sub : [.net, .thm, .pages] ⊆ ps) (h₀ : Frame ps r₀ s) :
    ∃ z, execLowPowerStateEntry s = .next z ∧ Frame ps r₀ z := by
  refine ⟨_, rfl, ?_⟩
  try dsimp only
  split
  all_goals repeat' first
    | with_reducible assumption
    | with_reducible exact List.Subset.trans (by decide) sub
    | with_reducible apply State.ev_frame
    | with_reducible apply State.setNet_frame
    | with_reducible apply State.setThm_frame
    | with_reducible refine Frame.ite ?_ ?_
    | dsimp only
    | split

theorem stopDie_frame {ps : List Part} {r₀ : State} {s : State} {d : Nat}
    (sub : [.stp, .fch, .cip, .pages, .regs] ⊆ ps) (h₀ : Frame ps r₀ s) : Frame ps r₀ (stopDie s d) := by
  unfold stopDie
  try dsimp only
  repeat' first
    | with_reducible assumption
    | with_reducible exact List.Subset.trans (by decide) sub
    | with_reducible apply State.updDie_frame
    | with_reducible apply completeEntry_frame
    | with_reducible apply finishEntry_frame
    | with_reducible refine Frame.foldlFst (fun _ _ _ => ?_) ?_
    | with_reducible refine Frame.foldl (fun _ _ _ => ?_) ?_
    | with_reducible refine Frame.ite ?_ ?_
    | dsimp only
    | split

theorem execDumpFreeze_frame {ps : List Part} {r₀ : State} {s : State}
    (sub : [.stp, .qmx, .fns, .fch, .cip, .hif, .net, .hld, .pins, .pages, .regs, .cpx] ⊆ ps) (h₀ : Frame ps r₀ s) :
    ∃ z, execDumpFreeze s = .next z ∧ Frame ps r₀ z := by
  refine ⟨_, rfl, ?_⟩
  try dsimp only
  split
  all_goals repeat' first
    | with_reducible assumption
    | with_reducible exact List.Subset.trans (by decide) sub
    | with_reducible apply State.setCpx_frame
    | with_reducible apply State.setFns_frame
    | with_reducible apply State.setHif_frame
    | with_reducible apply State.setHld_frame
    | with_reducible apply State.setNet_frame
    | with_reducible apply State.setPins_frame
    | with_reducible apply State.setQmx_frame
    | with_reducible apply State.setStp_frame
    | with_reducible apply stopDie_frame
    | with_reducible refine Frame.foldlFst (fun _ _ _ => ?_) ?_
    | with_reducible refine Frame.foldl (fun _ _ _ => ?_) ?_
    | with_reducible refine Frame.ite ?_ ?_
    | dsimp only
    | split

theorem endDump_frame {ps : List Part} {r₀ : State} {s : State} {c : DumpCause} {valid : Bool} {lost : List Nat} {badLog : Bool} {mib : Nat}
    (sub : [.stp, .qmx, .fns, .map, .wbf, .fch, .ldc, .par, .rcl, .dmc, .cip, .staged, .hld, .bot, .evl, .pages, .regs] ⊆ ps) (h₀ : Frame ps r₀ s) : Frame ps r₀ (endDump s c valid lost badLog mib) := by
  unfold endDump
  try dsimp only
  repeat' first
    | with_reducible assumption
    | with_reducible exact List.Subset.trans (by decide) sub
    | with_reducible apply State.bump_frame
    | with_reducible apply State.ev_frame
    | with_reducible apply State.setBot_frame
    | with_reducible apply State.setDmc_frame
    | with_reducible apply State.setHld_frame
    | with_reducible apply State.updFn_frame
    | with_reducible apply State.wr_frame
    | with_reducible apply drainRecords_frame
    | with_reducible refine Frame.foldlFst (fun _ _ _ => ?_) ?_
    | with_reducible refine Frame.foldl (fun _ _ _ => ?_) ?_
    | with_reducible refine Frame.ite ?_ ?_
    | dsimp only
    | split

end Sys2Proof.Machine
end

