-- ==== Sys2Proof/Laws/Boot.lean ====
section
/-! SUPPORT. What each operation of Machine/Boot.lean may change. -/

-- one proof after another: many at once would each hold a thread
set_option Elab.async false

namespace Sys2Proof.Machine

open Sys2Proof



theorem Tbs.reset_ok : Tbs.reset.ok := by
  unfold Tbs.ok
  decide

theorem tbsRestart_ok {lv : ResetLevel} {t : Tbs} (h : t.ok) : (tbsRestart lv t).ok := by
  cases lv
  · exact Tbs.reset_ok
  · obtain ⟨h1, h2, h3, h4, h5⟩ := h
    exact ⟨h1, h2, h3, h4, Nat.min_le_right _ _⟩
  · exact h

/-- A reset keeps the queue, the answer, the draws, the fuses, programmed media and the bounds of the time base. -/
theorem restart_frame {ps : List Part} {r₀ s : State} {lv : ResetLevel} {cause : ResetCause}
    (sub : [.gate, .tbs, .stp, .qmx, .ten, .fns, .map, .wbf, .fch, .ldc, .par, .rcl, .dmc, .key, .cip, .staged, .norWaits, .hif, .net, .sbi, .thm, .hld, .nor, .bot, .pins, .evl, .paths, .pages, .regs, .cpx, .seals] ⊆ ps)
    (h : Frame ps r₀ s) : Frame ps r₀ (restart s lv cause) := by
  unfold restart
  have ht : Frame ps r₀ (restarted s lv cause) := by
    refine Frame.mk h fun p hp => ?_
    cases p <;> first
      | exact absurd (sub (by decide)) hp
      | exact tbsRestart_ok
      | exact State.same_refl s .pending
      | exact State.same_refl s .ans
      | exact State.same_refl s .draws
      | exact State.same_refl s .fuses
      | exact State.same_refl s .media
      | exact State.same_refl s .canon
      | exact State.same_refl s .otp
  have m : Part.regs ∈ ps := sub (by decide)
  exact ppsEnable_frame (List.Subset.trans (by decide) sub)
    (Frame.ite ht (Frame.foldl (fun _ _ k => State.wrAt_frame (List.cons_subset.2 ⟨m, List.nil_subset _⟩) k) ht))

theorem toPhase_frame {ps : List Part} {r₀ : State} {s : State} {n : Nat}
    (sub : [.bot, .regs] ⊆ ps) (h₀ : Frame ps r₀ s) : Frame ps r₀ (toPhase s n) := by
  unfold toPhase
  try dsimp only
  repeat' first
    | with_reducible assumption
    | with_reducible exact List.Subset.trans (by decide) sub
    | with_reducible apply State.setBot_frame
    | with_reducible apply phaseMs_frame
    | dsimp only
    | split

theorem stopStartup_frame {ps : List Part} {r₀ : State} {s : State} {n cause : Nat}
    (sub : [.bot, .evl, .pages, .regs] ⊆ ps) (h₀ : Frame ps r₀ s) : Frame ps r₀ (stopStartup s n cause) := by
  unfold stopStartup
  try dsimp only
  repeat' first
    | with_reducible assumption
    | with_reducible exact List.Subset.trans (by decide) sub
    | with_reducible apply State.ev_frame
    | with_reducible apply State.raise_frame
    | with_reducible apply State.setBot_frame
    | with_reducible refine Frame.ite ?_ ?_
    | dsimp only
    | split

theorem powerFailure_frame {ps : List Part} {r₀ : State} {s : State}
    (sub : [.hld, .bot] ⊆ ps) (h₀ : Frame ps r₀ s) : Frame ps r₀ (powerFailure s) := by
  unfold powerFailure
  try dsimp only
  repeat' first
    | with_reducible assumption
    | with_reducible exact List.Subset.trans (by decide) sub
    | with_reducible apply State.setBot_frame
    | with_reducible apply armDump_frame
    | with_reducible refine Frame.ite ?_ ?_
    | dsimp only
    | split

theorem execPwrFail_frame {ps : List Part} {r₀ : State} {s : State}
    (sub : [.hld, .bot, .pins] ⊆ ps) (h₀ : Frame ps r₀ s) :
    ∃ z, execPwrFail s = .next z ∧ Frame ps r₀ z := by
  refine ⟨_, rfl, ?_⟩
  try dsimp only
  repeat' first
    | with_reducible assumption
    | with_reducible exact List.Subset.trans (by decide) sub
    | with_reducible apply State.setPins_frame
    | with_reducible apply powerFailure_frame
    | dsimp only
    | split

theorem execBankTrip_frame {ps : List Part} {r₀ : State} {s : State}
    (sub : [.hld] ⊆ ps) (h₀ : Frame ps r₀ s) :
    ∃ z, execBankTrip s = .next z ∧ Frame ps r₀ z := by
  refine ⟨_, rfl, ?_⟩
  try dsimp only
  repeat' first
    | with_reducible assumption
    | with_reducible exact List.Subset.trans (by decide) sub
    | with_reducible apply armDump_frame
    | dsimp only
    | split

theorem execVddCoreLow_frame {ps : List Part} {r₀ : State} {s : State}
    (sub : [.hld, .bot] ⊆ ps) (h₀ : Frame ps r₀ s) :
    ∃ z, execVddCoreLow s = .next z ∧ Frame ps r₀ z := by
  refine ⟨_, rfl, ?_⟩
  try dsimp only
  repeat' first
    | with_reducible assumption
    | with_reducible exact List.Subset.trans (by decide) sub
    | with_reducible apply powerFailure_frame
    | dsimp only
    | split

theorem cutDump_frame {ps : List Part} {r₀ : State} {s : State}
    (sub : [.hld] ⊆ ps) (h₀ : Frame ps r₀ s) : Frame ps r₀ (cutDump s) := by
  unfold cutDump
  try dsimp only
  split
  all_goals repeat' first
    | with_reducible assumption
    | with_reducible exact List.Subset.trans (by decide) sub
    | with_reducible apply State.setHld_frame
    | dsimp only
    | split

theorem execVddAonLow_frame {ps : List Part} {r₀ : State} {s : State}
    (sub : [.gate, .tbs, .stp, .qmx, .ten, .fns, .map, .wbf, .fch, .ldc, .par, .rcl, .dmc, .key, .cip, .staged, .norWaits, .hif, .net, .sbi, .thm, .hld, .nor, .bot, .pins, .evl, .paths, .pages, .regs, .cpx, .seals] ⊆ ps) (h₀ : Frame ps r₀ s) :
    ∃ z, execVddAonLow s = .next z ∧ Frame ps r₀ z := by
  refine ⟨_, rfl, ?_⟩
  try dsimp only
  repeat' first
    | with_reducible assumption
    | with_reducible exact List.Subset.trans (by decide) sub
    | with_reducible apply cutDump_frame
    | with_reducible apply restart_frame
    | dsimp only
    | split

theorem execXtalStop_frame {ps : List Part} {r₀ : State} {s : State}
    (sub : [.gate, .tbs, .stp, .qmx, .ten, .fns, .map, .wbf, .fch, .ldc, .par, .rcl, .dmc, .key, .cip, .staged, .norWaits, .hif, .net, .sbi, .thm, .hld, .nor, .bot, .pins, .evl, .paths, .pages, .regs, .cpx, .seals] ⊆ ps) (h₀ : Frame ps r₀ s) :
    ∃ z, execXtalStop s = .next z ∧ Frame ps r₀ z := by
  refine ⟨_, rfl, ?_⟩
  try dsimp only
  repeat' first
    | with_reducible assumption
    | with_reducible exact List.Subset.trans (by decide) sub
    | with_reducible apply State.setPins_frame
    | with_reducible apply cutDump_frame
    | with_reducible apply restart_frame
    | dsimp only
    | split

theorem execSysRst_frame {ps : List Part} {r₀ : State} {s : State}
    (sub : [.gate, .tbs, .stp, .qmx, .ten, .fns, .map, .wbf, .fch, .ldc, .par, .rcl, .dmc, .key, .cip, .staged, .norWaits, .hif, .net, .sbi, .thm, .hld, .nor, .bot, .pins, .evl, .paths, .pages, .regs, .cpx, .seals] ⊆ ps) (h₀ : Frame ps r₀ s) :
    ∃ z, execSysRst s = .next z ∧ Frame ps r₀ z := by
  refine ⟨_, rfl, ?_⟩
  try dsimp only
  repeat' first
    | with_reducible assumption
    | with_reducible exact List.Subset.trans (by decide) sub
    | with_reducible apply State.setPins_frame
    | with_reducible apply restart_frame
    | with_reducible refine Frame.ite ?_ ?_
    | dsimp only
    | split

theorem execPowerOnReset_frame {ps : List Part} {r₀ : State} {s : State}
    (sub : [.bot, .pins, .evl, .pages, .regs] ⊆ ps) (h₀ : Frame ps r₀ s) :
    ∃ z, execPowerOnReset s = .next z ∧ Frame ps r₀ z := by
  refine ⟨_, rfl, ?_⟩
  try dsimp only
  repeat' first
    | with_reducible assumption
    | with_reducible exact List.Subset.trans (by decide) sub
    | with_reducible apply State.setBot_frame
    | with_reducible apply State.setPins_frame
    | with_reducible apply stopStartup_frame
    | with_reducible refine Frame.ite ?_ ?_
    | dsimp only
    | split

theorem deviceReset_frame {ps : List Part} {r₀ : State} {s : State} {cause : ResetCause}
    (sub : [.gate, .tbs, .stp, .qmx, .ten, .fns, .map, .wbf, .fch, .ldc, .par, .rcl, .dmc, .key, .cip, .staged, .norWaits, .hif, .net, .sbi, .thm, .hld, .nor, .bot, .pins, .evl, .paths, .pages, .regs, .cpx, .seals] ⊆ ps) (h₀ : Frame ps r₀ s) : Frame ps r₀ (deviceReset s cause) := by
  unfold deviceReset
  try dsimp only
  repeat' first
    | with_reducible assumption
    | with_reducible exact List.Subset.trans (by decide) sub
    | with_reducible apply restart_frame
    | dsimp only
    | split

theorem execPwrFailNHigh_frame {ps : List Part} {r₀ : State} {s : State}
    (sub : [.gate, .tbs, .stp, .qmx, .ten, .fns, .map, .wbf, .fch, .ldc, .par, .rcl, .dmc, .key, .cip, .staged, .norWaits, .hif, .net, .sbi, .thm, .hld, .nor, .bot, .pins, .evl, .paths, .pages, .regs, .cpx, .seals] ⊆ ps) (h₀ : Frame ps r₀ s) :
    ∃ z, execPwrFailNHigh s = .next z ∧ Frame ps r₀ z := by
  refine ⟨_, rfl, ?_⟩
  try dsimp only
  repeat' first
    | with_reducible assumption
    | with_reducible exact List.Subset.trans (by decide) sub
    | with_reducible apply State.setPins_frame
    | with_reducible apply deviceReset_frame
    | with_reducible refine Frame.ite ?_ ?_
    | dsimp only
    | split

theorem execPowerReturnDuringDump_frame {ps : List Part} {r₀ : State} {s : State}
    (sub : [.hld] ⊆ ps) (h₀ : Frame ps r₀ s) :
    ∃ z, execPowerReturnDuringDump s = .next z ∧ Frame ps r₀ z := by
  refine ⟨_, rfl, ?_⟩
  try dsimp only
  split
  all_goals repeat' first
    | with_reducible assumption
    | with_reducible exact List.Subset.trans (by decide) sub
    | with_reducible apply State.setHld_frame
    | dsimp only
    | split

theorem execDumpEnd_frame {ps : List Part} {r₀ : State} {closing : Nat} {lost : List Nat} {badLog : Bool} {mib : Nat} {s : State}
    (sub : [.gate, .tbs, .stp, .qmx, .ten, .fns, .map, .wbf, .fch, .ldc, .par, .rcl, .dmc, .key, .cip, .staged, .norWaits, .hif, .net, .sbi, .thm, .hld, .nor, .bot, .pins, .evl, .paths, .pages, .regs, .cpx, .seals] ⊆ ps) (h₀ : Frame ps r₀ s) :
    ∃ z, execDumpEnd closing lost badLog mib s = .next z ∧ Frame ps r₀ z := by
  refine ⟨_, rfl, ?_⟩
  try dsimp only
  split
  all_goals repeat' first
    | with_reducible assumption
    | with_reducible exact List.Subset.trans (by decide) sub
    | with_reducible apply deviceReset_frame
    | with_reducible apply endDump_frame
    | with_reducible apply restart_frame
    | with_reducible refine Frame.ite ?_ ?_
    | dsimp only
    | split

theorem armDeviceReset_frame {ps : List Part} {r₀ : State} {s : State} {cause : ResetCause}
    (sub : [.bot] ⊆ ps) (h₀ : Frame ps r₀ s) : Frame ps r₀ (armDeviceReset s cause) := by
  unfold armDeviceReset
  try dsimp only
  repeat' first
    | with_reducible assumption
    | with_reducible exact List.Subset.trans (by decide) sub
    | with_reducible apply State.setBot_frame
    | with_reducible refine Frame.ite ?_ ?_
    | dsimp only
    | split

theorem execDeviceReset_frame {ps : List Part} {r₀ : State} {s : State}
    (sub : [.gate, .tbs, .stp, .qmx, .ten, .fns, .map, .wbf, .fch, .ldc, .par, .rcl, .dmc, .key, .cip, .staged, .norWaits, .hif, .net, .sbi, .thm, .hld, .nor, .bot, .pins, .evl, .paths, .pages, .regs, .cpx, .seals] ⊆ ps) (h₀ : Frame ps r₀ s) :
    ∃ z, execDeviceReset s = .next z ∧ Frame ps r₀ z := by
  refine ⟨_, rfl, ?_⟩
  try dsimp only
  split
  all_goals repeat' first
    | with_reducible assumption
    | with_reducible exact List.Subset.trans (by decide) sub
    | with_reducible apply armDump_frame
    | with_reducible apply deviceReset_frame
    | with_reducible refine Frame.ite ?_ ?_
    | dsimp only
    | split

theorem execNvmSubsystemReset_frame {ps : List Part} {r₀ : State} {f : Nat} {w : Dword} {s : State}
    (sub : [.bot] ⊆ ps) (h₀ : Frame ps r₀ s) :
    ∃ z, execNvmSubsystemReset f w s = .next z ∧ Frame ps r₀ z := by
  refine ⟨_, rfl, ?_⟩
  try dsimp only
  repeat' first
    | with_reducible assumption
    | with_reducible exact List.Subset.trans (by decide) sub
    | with_reducible apply armDeviceReset_frame
    | with_reducible refine Frame.ite ?_ ?_
    | dsimp only
    | split

theorem execBotSoftReset_frame {ps : List Part} {r₀ : State} {w : Dword} {s : State}
    (sub : [.bot] ⊆ ps) (h₀ : Frame ps r₀ s) :
    ∃ z, execBotSoftReset w s = .next z ∧ Frame ps r₀ z := by
  refine ⟨_, rfl, ?_⟩
  try dsimp only
  repeat' first
    | with_reducible assumption
    | with_reducible exact List.Subset.trans (by decide) sub
    | with_reducible apply armDeviceReset_frame
    | with_reducible refine Frame.ite ?_ ?_
    | dsimp only
    | split

theorem execRelight_frame {ps : List Part} {r₀ : State} {s : State}
    (sub : [.gate, .tbs, .stp, .qmx, .ten, .fns, .map, .wbf, .fch, .ldc, .par, .rcl, .dmc, .key, .cip, .staged, .norWaits, .hif, .net, .sbi, .thm, .hld, .nor, .bot, .pins, .evl, .paths, .pages, .regs, .cpx, .seals] ⊆ ps) (h₀ : Frame ps r₀ s) :
    ∃ z, execRelight s = .next z ∧ Frame ps r₀ z := by
  refine ⟨_, rfl, ?_⟩
  try dsimp only
  repeat' first
    | with_reducible assumption
    | with_reducible exact List.Subset.trans (by decide) sub
    | with_reducible apply State.ev_frame
    | with_reducible apply State.raise_frame
    | with_reducible apply restart_frame
    | with_reducible refine Frame.ite ?_ ?_
    | dsimp only
    | split

theorem rejectImage_frame {ps : List Part} {r₀ : State} {s : State} {reason : Option Nat}
    (sub : [.evl, .pages, .regs] ⊆ ps) (h₀ : Frame ps r₀ s) : Frame ps r₀ (rejectImage s reason) := by
  unfold rejectImage
  try dsimp only
  split
  all_goals repeat' first
    | with_reducible assumption
    | with_reducible exact List.Subset.trans (by decide) sub
    | with_reducible apply State.bump_frame
    | with_reducible apply State.ev_frame
    | with_reducible apply State.raise_frame
    | dsimp only
    | split

theorem imageValues_frame {ps : List Part} {r₀ s : State} {vs : List (Nat × Nat)}
    (sub : [.regs] ⊆ ps) (h : Frame ps r₀ s) : Frame ps r₀ (imageValues s vs) := by
  unfold imageValues
  refine Frame.foldl (fun u x k => ?_) h
  split
  · exact Frame.regsSet (sub (by decide)) k
  · exact k

theorem debugForce_frame {ps : List Part} {r₀ : State} {s : State}
    (sub : [.regs] ⊆ ps) (h₀ : Frame ps r₀ s) : Frame ps r₀ (debugForce s) := by
  unfold debugForce
  try dsimp only
  repeat' first
    | with_reducible assumption
    | with_reducible exact List.Subset.trans (by decide) sub
    | with_reducible apply State.wr_frame
    | with_reducible refine Frame.ite ?_ ?_
    | dsimp only
    | split

theorem admitStrings_frame {ps : List Part} {r₀ : State} {s : State} {c : CfgImage} {reversed shorted : BitVec 8}
    (sub : [.hld] ⊆ ps) (h₀ : Frame ps r₀ s) : Frame ps r₀ (admitStrings s c reversed shorted) := by
  unfold admitStrings
  try dsimp only
  repeat' first
    | with_reducible assumption
    | with_reducible exact List.Subset.trans (by decide) sub
    | with_reducible apply State.setHld_frame
    | with_reducible refine Frame.ite ?_ ?_
    | dsimp only
    | split

theorem applyCfg_frame {ps : List Part} {r₀ : State} {s : State} {c : CfgImage} {copyB : Bool}
    (sub : [.hif, .net, .bot, .regs] ⊆ ps) (h₀ : Frame ps r₀ s) : Frame ps r₀ (applyCfg s c copyB) := by
  unfold applyCfg
  try dsimp only
  repeat' first
    | with_reducible assumption
    | with_reducible exact List.Subset.trans (by decide) sub
    | with_reducible apply State.setBot_frame
    | with_reducible apply State.setHif_frame
    | with_reducible apply State.setNet_frame
    | with_reducible apply State.wr_frame
    | with_reducible apply debugForce_frame
    | with_reducible apply imageValues_frame
    | with_reducible refine Frame.ite ?_ ?_
    | dsimp only
    | split

theorem execConfigurationImageLoad_frame {ps : List Part} {r₀ : State} {reversed shorted : BitVec 8} {s : State}
    (sub : [.hif, .net, .hld, .bot, .pins, .evl, .pages, .regs] ⊆ ps) (h₀ : Frame ps r₀ s) :
    ∃ z, execConfigurationImageLoad reversed shorted s = .next z ∧ Frame ps r₀ z := by
  refine ⟨_, rfl, ?_⟩
  try dsimp only
  repeat' first
    | with_reducible assumption
    | with_reducible exact List.Subset.trans (by decide) sub
    | with_reducible apply State.setBot_frame
    | with_reducible apply State.setPins_frame
    | with_reducible apply admitStrings_frame
    | with_reducible apply applyCfg_frame
    | with_reducible apply rejectImage_frame
    | with_reducible apply stopStartup_frame
    | with_reducible apply toPhase_frame
    | with_reducible refine Frame.ite ?_ ?_
    | dsimp only
    | split

theorem execPcieLinkTraining_frame {ps : List Part} {r₀ : State} {p : Nat} {s : State}
    (sub : [.hif] ⊆ ps) (h₀ : Frame ps r₀ s) :
    ∃ z, execPcieLinkTraining p s = .next z ∧ Frame ps r₀ z := by
  refine ⟨_, rfl, ?_⟩
  try dsimp only
  repeat' first
    | with_reducible assumption
    | with_reducible exact List.Subset.trans (by decide) sub
    | with_reducible apply State.setPort_frame
    | with_reducible refine Frame.ite ?_ ?_
    | dsimp only
    | split

theorem loadStore_frame {ps : List Part} {r₀ : State} {s : State} {lost : List (Nat × Bool)}
    (sub : [.key, .evl, .pages, .regs] ⊆ ps) (h₀ : Frame ps r₀ s) : Frame ps r₀ (loadStore s lost) := by
  unfold loadStore
  try dsimp only
  repeat' first
    | with_reducible assumption
    | with_reducible exact List.Subset.trans (by decide) sub
    | with_reducible apply State.ev_frame
    | with_reducible apply State.raise_frame
    | with_reducible apply State.setKey_frame
    | with_reducible apply State.setKeySlot_frame
    | with_reducible refine Frame.foldlFst (fun _ _ _ => ?_) ?_
    | with_reducible refine Frame.foldl (fun _ _ _ => ?_) ?_
    | dsimp only
    | split

theorem loadIdentity_frame {ps : List Part} {r₀ : State} {s : State} {fwDigest keyIndex : Nat}
    (sub : [.key, .evl, .pages, .regs] ⊆ ps) (h₀ : Frame ps r₀ s) : Frame ps r₀ (loadIdentity s fwDigest keyIndex) := by
  unfold loadIdentity
  try dsimp only
  repeat' first
    | with_reducible assumption
    | with_reducible exact List.Subset.trans (by decide) sub
    | with_reducible apply State.ev_frame
    | with_reducible apply State.raise_frame
    | with_reducible apply State.setKey_frame
    | with_reducible refine Frame.ite ?_ ?_
    | dsimp only
    | split

theorem restoreCounts_frame {ps : List Part} {r₀ s : State}
    (sub : [.tbs] ⊆ ps) (h : Frame ps r₀ s) : Frame ps r₀ (restoreCounts s) := by
  unfold restoreCounts
  refine State.setTbs_keep (fun k => ?_) sub h
  obtain ⟨h1, h2, h3, h4, h5⟩ := k
  exact ⟨h1, h2, h3, h4, Nat.min_le_right _ _⟩

theorem releaseHeld_frame {ps : List Part} {r₀ : State} {s : State}
    (sub : [.evl, .pages, .regs] ⊆ ps) (h₀ : Frame ps r₀ s) : Frame ps r₀ (releaseHeld s) := by
  unfold releaseHeld
  try dsimp only
  repeat' first
    | with_reducible assumption
    | with_reducible exact List.Subset.trans (by decide) sub
    | with_reducible apply State.setEvl_frame
    | with_reducible apply accept_frame
    | with_reducible refine Frame.foldlFst (fun _ _ _ => ?_) ?_
    | with_reducible refine Frame.foldl (fun _ _ _ => ?_) ?_
    | dsimp only
    | split

theorem restoreLedger_frame {ps : List Part} {r₀ : State} {s : State} {corrupt : Nat}
    (sub : [.tbs, .qmx, .fns, .evl, .pages, .regs] ⊆ ps) (h₀ : Frame ps r₀ s) : Frame ps r₀ (restoreLedger s corrupt) := by
  unfold restoreLedger
  try dsimp only
  repeat' first
    | with_reducible assumption
    | with_reducible exact List.Subset.trans (by decide) sub
    | with_reducible apply State.ev_frame
    | with_reducible apply State.raise_frame
    | with_reducible apply State.wr_frame
    | with_reducible apply aenUpdate_frame
    | with_reducible apply releaseHeld_frame
    | with_reducible apply restoreCounts_frame
    | with_reducible refine Frame.ite ?_ ?_
    | dsimp only
    | split

theorem restoreFunctions_frame {ps : List Part} {r₀ : State} {s : State}
    (sub : [.ten, .fns, .nor] ⊆ ps) (h₀ : Frame ps r₀ s) : Frame ps r₀ (restoreFunctions s) := by
  unfold restoreFunctions
  try dsimp only
  repeat' first
    | with_reducible assumption
    | with_reducible exact List.Subset.trans (by decide) sub
    | with_reducible apply State.setFns_frame
    | with_reducible apply State.setNor_frame
    | with_reducible apply State.setTen_frame
    | dsimp only
    | split

theorem testLanes_frame {ps : List Part} {r₀ : State} {s : State} {bad : Nat}
    (sub : [.cip, .evl, .pages, .regs] ⊆ ps) (h₀ : Frame ps r₀ s) : Frame ps r₀ (testLanes s bad) := by
  unfold testLanes
  try dsimp only
  repeat' first
    | with_reducible assumption
    | with_reducible exact List.Subset.trans (by decide) sub
    | with_reducible apply State.ev_frame
    | with_reducible apply State.raise_frame
    | with_reducible apply State.setCip_frame
    | with_reducible refine Frame.ite ?_ ?_
    | dsimp only
    | split

theorem readCopies_frame {ps : List Part} {r₀ : State} {s : State} {x : NorScan}
    (sub : [.nor] ⊆ ps) (h₀ : Frame ps r₀ s) : Frame ps r₀ (readCopies s x) := by
  unfold readCopies
  try dsimp only
  repeat' first
    | with_reducible assumption
    | with_reducible exact List.Subset.trans (by decide) sub
    | with_reducible apply State.setNor_frame
    | with_reducible refine Frame.ite ?_ ?_
    | dsimp only
    | split

theorem execFirmwareLoad_frame {ps : List Part} {r₀ : State} {bad : Nat} {lost : List (Nat × Bool)} {healthy : Bool} {scan : NorScan} {s : State}
    (sub : [.tbs, .qmx, .ten, .fns, .key, .cip, .nor, .bot, .pins, .evl, .pages, .regs, .cpx] ⊆ ps) (h₀ : Frame ps r₀ s) :
    ∃ z, execFirmwareLoad bad lost healthy scan s = .next z ∧ Frame ps r₀ z := by
  refine ⟨_, rfl, ?_⟩
  try dsimp only
  repeat' first
    | with_reducible assumption
    | with_reducible exact List.Subset.trans (by decide) sub
    | with_reducible apply State.bump_frame
    | with_reducible apply State.ev_frame
    | with_reducible apply State.raise_frame
    | with_reducible apply State.setBot_frame
    | with_reducible apply State.setCpx_frame
    | with_reducible apply State.setKey_frame
    | with_reducible apply State.setPins_frame
    | with_reducible apply loadIdentity_frame
    | with_reducible apply loadStore_frame
    | with_reducible apply readCopies_frame
    | with_reducible apply rejectImage_frame
    | with_reducible apply restoreFunctions_frame
    | with_reducible apply restoreLedger_frame
    | with_reducible apply stopStartup_frame
    | with_reducible apply testLanes_frame
    | with_reducible apply toPhase_frame
    | with_reducible refine Frame.ite ?_ ?_
    | dsimp only
    | split

theorem dramFails_frame {ps : List Part} {r₀ : State} {s : State} {cause : Nat}
    (sub : [.dmc, .bot, .evl, .pages, .regs] ⊆ ps) (h₀ : Frame ps r₀ s) : Frame ps r₀ (dramFails s cause) := by
  unfold dramFails
  try dsimp only
  repeat' first
    | with_reducible assumption
    | with_reducible exact List.Subset.trans (by decide) sub
    | with_reducible apply State.ev_frame
    | with_reducible apply State.raise_frame
    | with_reducible apply State.setDmc_frame
    | with_reducible apply State.wr_frame
    | with_reducible apply stopStartup_frame
    | dsimp only
    | split

theorem execDramPhase_frame {ps : List Part} {r₀ : State} {d : DramFound} {pins : Tbl (BitVec 22 × BitVec 22)} {s : State}
    (sub : [.stp, .map, .fch, .par, .dmc, .cip, .bot, .evl, .pages, .regs] ⊆ ps) (h₀ : Frame ps r₀ s) :
    ∃ z, execDramPhase d pins s = .next z ∧ Frame ps r₀ z := by
  refine ⟨_, rfl, ?_⟩
  try dsimp only
  repeat' first
    | with_reducible assumption
    | with_reducible exact List.Subset.trans (by decide) sub
    | with_reducible apply State.setDmc_frame
    | with_reducible apply State.setMap_frame
    | with_reducible apply State.wr_frame
    | with_reducible apply dramFails_frame
    | with_reducible apply pinFaults_frame
    | with_reducible apply stopStartup_frame
    | with_reducible apply toPhase_frame
    | with_reducible refine Frame.foldlFst (fun _ _ _ => ?_) ?_
    | with_reducible refine Frame.foldl (fun _ _ _ => ?_) ?_
    | with_reducible refine Frame.ite ?_ ?_
    | dsimp only
    | split

theorem execDramFill_frame {ps : List Part} {r₀ : State} {rows : Tbl Nat} {ppr : Nat} {s : State}
    (sub : [.dmc, .bot, .evl, .pages, .regs] ⊆ ps) (h₀ : Frame ps r₀ s) :
    ∃ z, execDramFill rows ppr s = .next z ∧ Frame ps r₀ z := by
  refine ⟨_, rfl, ?_⟩
  try dsimp only
  split
  all_goals repeat' first
    | with_reducible assumption
    | with_reducible exact List.Subset.trans (by decide) sub
    | with_reducible apply State.bump_frame
    | with_reducible apply State.ev_frame
    | with_reducible apply State.raise_frame
    | with_reducible apply State.setDmc_frame
    | with_reducible apply State.wr_frame
    | with_reducible apply dramFails_frame
    | with_reducible refine Frame.foldlFst (fun _ _ _ => ?_) ?_
    | with_reducible refine Frame.foldl (fun _ _ _ => ?_) ?_
    | with_reducible refine Frame.ite ?_ ?_
    | dsimp only
    | split

theorem bringUp_frame {ps : List Part} {r₀ s : State} {iface r d : Nat} {x : DieFound} {m : Margins}
    (sub : [.fch] ⊆ ps) (h : Frame ps r₀ s) : Frame ps r₀ (bringUp s iface r d x m).1 :=
  State.updDie_frame sub h

theorem bringUp_eq_frame {ps : List Part} {r₀ s : State} {iface r d : Nat} {x : DieFound} {m : Margins} {t : State}
    {v : Nat} (e : bringUp s iface r d x m = (t, v)) (sub : [.fch] ⊆ ps) (h : Frame ps r₀ s) : Frame ps r₀ t := by
  have q := bringUp_frame (iface := iface) (r := r) (d := d) (x := x) (m := m) sub h
  rw [e] at q
  exact q

theorem channelUp_frame {ps : List Part} {r₀ : State} {s : State} {nn : Nat} {found : Tbl DieFound} {pins : BitVec 22 × BitVec 22}
    {margins : Tbl Margins} (sub : [.stp, .fch, .par, .cip, .evl, .pages, .regs] ⊆ ps) (h₀ : Frame ps r₀ s) :
    Frame ps r₀ (channelUp s nn found pins margins) := by
  unfold channelUp
  try dsimp only
  repeat' first
    | with_reducible assumption
    | with_reducible exact List.Subset.trans (by decide) sub
    | with_reducible apply State.evCh_frame
    | with_reducible apply State.updChan_frame
    | with_reducible apply pinFaults_frame
    | with_reducible apply bringUp_frame
    | with_reducible refine Frame.foldlFst (fun _ _ _ => ?_) ?_
    | with_reducible refine Frame.ite ?_ ?_
    | dsimp only
    | split

theorem execFlashGroupStart_frame {ps : List Part} {r₀ : State} {found : Tbl DieFound} {pins : Tbl (BitVec 22 × BitVec 22)} {margins : Tbl Margins} {s : State}
    (sub : [.stp, .fch, .par, .cip, .bot, .pins, .evl, .pages, .regs] ⊆ ps) (h₀ : Frame ps r₀ s) :
    ∃ z, execFlashGroupStart found pins margins s = .next z ∧ Frame ps r₀ z := by
  refine ⟨_, rfl, ?_⟩
  try dsimp only
  repeat' first
    | with_reducible assumption
    | with_reducible exact List.Subset.trans (by decide) sub
    | with_reducible apply State.setBot_frame
    | with_reducible apply State.setPar_frame
    | with_reducible apply State.setPins_frame
    | with_reducible apply channelUp_frame
    | with_reducible apply stopStartup_frame
    | with_reducible apply toPhase_frame
    | with_reducible refine Frame.foldlFst (fun _ _ _ => ?_) ?_
    | with_reducible refine Frame.foldl (fun _ _ _ => ?_) ?_
    | with_reducible refine Frame.ite ?_ ?_
    | dsimp only
    | split

theorem setGeometry_frame {ps : List Part} {r₀ : State} {s : State} {g : Geom} {pslc : Nat}
    (sub : [.regs] ⊆ ps) (h₀ : Frame ps r₀ s) : Frame ps r₀ (setGeometry s g pslc) := by
  unfold setGeometry
  try dsimp only
  repeat' first
    | with_reducible assumption
    | with_reducible exact List.Subset.trans (by decide) sub
    | with_reducible apply State.wr_frame
    | dsimp only
    | split

theorem State.setRoster_frame {ps : List Part} {r₀ : State} {s : State} {r : Roster}
    (sub : [.nor] ⊆ ps) (h₀ : Frame ps r₀ s) : Frame ps r₀ (State.setRoster s r) := by
  unfold State.setRoster
  try dsimp only
  repeat' first
    | with_reducible assumption
    | with_reducible exact List.Subset.trans (by decide) sub
    | with_reducible apply State.setNor_frame
    | dsimp only
    | split

theorem setEntry_frame {ps : List Part} {r₀ : State} {s : State} {d : Nat} {e : RosterEntry}
    (sub : [.nor] ⊆ ps) (h₀ : Frame ps r₀ s) : Frame ps r₀ (setEntry s d e) := by
  unfold setEntry
  try dsimp only
  repeat' first
    | with_reducible assumption
    | with_reducible exact List.Subset.trans (by decide) sub
    | with_reducible apply State.setNor_frame
    | dsimp only
    | split

theorem benchDie_frame {ps : List Part} {r₀ : State} {s : State} {d : Nat}
    (sub : [.fch] ⊆ ps) (h₀ : Frame ps r₀ s) : Frame ps r₀ (benchDie s d) := by
  unfold benchDie
  try dsimp only
  repeat' first
    | with_reducible assumption
    | with_reducible exact List.Subset.trans (by decide) sub
    | with_reducible apply State.updDie_frame
    | dsimp only
    | split

theorem checkEntry_frame {ps : List Part} {r₀ : State} {s : State} {d : Nat} {e : RosterEntry}
    (sub : [.fch, .par, .nor, .bot, .evl, .pages, .regs] ⊆ ps) (h₀ : Frame ps r₀ s) : Frame ps r₀ (checkEntry s d e) := by
  unfold checkEntry
  try dsimp only
  repeat' first
    | with_reducible assumption
    | with_reducible exact List.Subset.trans (by decide) sub
    | with_reducible apply State.ev_frame
    | with_reducible apply State.raise_frame
    | with_reducible apply State.setBot_frame
    | with_reducible apply State.setPar_frame
    | with_reducible apply benchDie_frame
    | with_reducible apply setEntry_frame
    | with_reducible refine Frame.ite ?_ ?_
    | dsimp only
    | split

theorem benchUnlisted_frame {ps : List Part} {r₀ : State} {s : State}
    (sub : [.fch] ⊆ ps) (h₀ : Frame ps r₀ s) : Frame ps r₀ (benchUnlisted s) := by
  unfold benchUnlisted
  try dsimp only
  repeat' first
    | with_reducible assumption
    | with_reducible exact List.Subset.trans (by decide) sub
    | with_reducible apply benchDie_frame
    | with_reducible refine Frame.foldlFst (fun _ _ _ => ?_) ?_
    | with_reducible refine Frame.foldl (fun _ _ _ => ?_) ?_
    | with_reducible refine Frame.ite ?_ ?_
    | dsimp only
    | split

theorem countService_frame {ps : List Part} {r₀ : State} {s : State}
    (sub : [.fch, .bot] ⊆ ps) (h₀ : Frame ps r₀ s) : Frame ps r₀ (countService s) := by
  unfold countService
  try dsimp only
  repeat' first
    | with_reducible assumption
    | with_reducible exact List.Subset.trans (by decide) sub
    | with_reducible apply State.setBot_frame
    | with_reducible apply State.updChan_frame
    | with_reducible refine Frame.foldlFst (fun _ _ _ => ?_) ?_
    | with_reducible refine Frame.foldl (fun _ _ _ => ?_) ?_
    | with_reducible refine Frame.ite ?_ ?_
    | dsimp only
    | split

theorem execRosterCheck_frame {ps : List Part} {r₀ : State} {s : State}
    (sub : [.stp, .fch, .par, .nor, .bot, .evl, .pages, .regs] ⊆ ps) (h₀ : Frame ps r₀ s) :
    ∃ z, execRosterCheck s = .next z ∧ Frame ps r₀ z := by
  refine ⟨_, rfl, ?_⟩
  try dsimp only
  repeat' first
    | with_reducible assumption
    | with_reducible exact List.Subset.trans (by decide) sub
    | with_reducible apply State.setBot_frame
    | with_reducible apply State.setNor_frame
    | with_reducible apply State.setPar_frame
    | with_reducible apply State.setStp_frame
    | with_reducible apply benchUnlisted_frame
    | with_reducible apply checkEntry_frame
    | with_reducible apply countService_frame
    | with_reducible apply setGeometry_frame
    | with_reducible apply stopStartup_frame
    | with_reducible apply toPhase_frame
    | with_reducible refine Frame.foldlFst (fun _ _ _ => ?_) ?_
    | with_reducible refine Frame.foldl (fun _ _ _ => ?_) ?_
    | with_reducible refine Frame.ite ?_ ?_
    | dsimp only
    | split

theorem execBotSerial0Read_frame {ps : List Part} {r₀ : State} {p : Path} {s : State}
    (sub : [.ans, .gate, .paths] ⊆ ps) (h₀ : Frame ps r₀ s) :
    ∃ z, execBotSerial0Read p s = .next z ∧ Frame ps r₀ z := by
  refine ⟨_, rfl, ?_⟩
  try dsimp only
  repeat' first
    | with_reducible assumption
    | with_reducible exact List.Subset.trans (by decide) sub
    | with_reducible apply State.answer_frame
    | with_reducible apply State.latch_frame
    | with_reducible refine Frame.foldlFst (fun _ _ _ => ?_) ?_
    | with_reducible refine Frame.foldl (fun _ _ _ => ?_) ?_
    | dsimp only
    | split

theorem execThmSenseBadLoRead_frame {ps : List Part} {r₀ : State} {p : Path} {s : State}
    (sub : [.ans, .gate, .paths] ⊆ ps) (h₀ : Frame ps r₀ s) :
    ∃ z, execThmSenseBadLoRead p s = .next z ∧ Frame ps r₀ z := by
  refine ⟨_, rfl, ?_⟩
  try dsimp only
  repeat' first
    | with_reducible assumption
    | with_reducible exact List.Subset.trans (by decide) sub
    | with_reducible apply readWide_frame
    | with_reducible refine Frame.foldlFst (fun _ _ _ => ?_) ?_
    | with_reducible refine Frame.foldl (fun _ _ _ => ?_) ?_
    | with_reducible refine Frame.ite ?_ ?_
    | dsimp only
    | split

end Sys2Proof.Machine
end

