-- ==== Sys2Proof/Laws/Admin.lean ====
section
/-! SUPPORT. What each operation of Machine/Admin.lean may change. -/

-- one proof after another: many at once would each hold a thread
set_option Elab.async false

namespace Sys2Proof.Machine

open Sys2Proof

theorem State.page?_frame {ps : List Part} {r₀ : State} {s : State} {seq : Nat} {b : List Byte} {off len : Nat}
    (sub : [.ans, .qmx, .fns] ⊆ ps) (h₀ : Frame ps r₀ s) : Frame ps r₀ (State.page? s seq b off len) := by
  unfold State.page?
  try dsimp only
  repeat' first
    | with_reducible assumption
    | with_reducible exact List.Subset.trans (by decide) sub
    | with_reducible apply State.finish_frame
    | with_reducible apply State.reply_frame
    | with_reducible refine Frame.ite ?_ ?_
    | dsimp only
    | split

theorem execIdentify_frame {ps : List Part} {r₀ : State} {seq cns nsid cntid csi : Nat} {s : State}
    (sub : [.ans, .qmx, .fns] ⊆ ps) (h₀ : Frame ps r₀ s) :
    ∃ z, execIdentify seq cns nsid cntid csi s = .next z ∧ Frame ps r₀ z := by
  refine ⟨_, rfl, ?_⟩
  try dsimp only
  repeat' first
    | with_reducible assumption
    | with_reducible exact List.Subset.trans (by decide) sub
    | with_reducible apply State.finish_frame
    | with_reducible apply State.reply_frame
    | with_reducible refine State.admin_frame (fun _ => ?_) ?_
    | dsimp only
    | split

theorem execGetLogPage_frame {ps : List Part} {r₀ : State} {seq lid off len : Nat} {s : State}
    (sub : [.ans, .draws, .qmx, .fns] ⊆ ps) (h₀ : Frame ps r₀ s) :
    ∃ z, execGetLogPage seq lid off len s = .next z ∧ Frame ps r₀ z := by
  refine ⟨_, rfl, ?_⟩
  try dsimp only
  repeat' first
    | with_reducible assumption
    | with_reducible exact List.Subset.trans (by decide) sub
    | with_reducible apply State.finish_frame
    | with_reducible apply State.page?_frame
    | with_reducible refine State.admin_frame (fun _ => ?_) ?_
    | with_reducible refine Frame.ite ?_ ?_
    | with_reducible apply State.draw_frame
    | with_reducible refine State.draw_eq_frame (by assumption) ?_ ?_
    | dsimp only
    | split

theorem execGetLogPageThermal_frame {ps : List Part} {r₀ : State} {seq off len : Nat} {s : State}
    (sub : [.ans, .qmx, .fns] ⊆ ps) (h₀ : Frame ps r₀ s) :
    ∃ z, execGetLogPageThermal seq off len s = .next z ∧ Frame ps r₀ z := by
  refine ⟨_, rfl, ?_⟩
  try dsimp only
  repeat' first
    | with_reducible assumption
    | with_reducible exact List.Subset.trans (by decide) sub
    | with_reducible apply State.page?_frame
    | with_reducible refine State.admin_frame (fun _ => ?_) ?_
    | dsimp only
    | split

theorem execGetLogPageDieRoster_frame {ps : List Part} {r₀ : State} {seq off len : Nat} {s : State}
    (sub : [.ans, .qmx, .fns] ⊆ ps) (h₀ : Frame ps r₀ s) :
    ∃ z, execGetLogPageDieRoster seq off len s = .next z ∧ Frame ps r₀ z := by
  refine ⟨_, rfl, ?_⟩
  try dsimp only
  repeat' first
    | with_reducible assumption
    | with_reducible exact List.Subset.trans (by decide) sub
    | with_reducible apply State.page?_frame
    | with_reducible refine State.admin_frame (fun _ => ?_) ?_
    | dsimp only
    | split

theorem execSetFeaturesPowerManagement_frame {ps : List Part} {r₀ : State} {seq : Nat} {w : Dword} {s : State}
    (sub : [.qmx, .fns, .wbf, .thm] ⊆ ps) (h₀ : Frame ps r₀ s) :
    ∃ z, execSetFeaturesPowerManagement seq w s = .next z ∧ Frame ps r₀ z := by
  refine ⟨_, rfl, ?_⟩
  try dsimp only
  repeat' first
    | with_reducible assumption
    | with_reducible exact List.Subset.trans (by decide) sub
    | with_reducible apply State.finish_frame
    | with_reducible apply State.setThm_frame
    | with_reducible apply closeAll_frame
    | with_reducible refine State.admin_frame (fun _ => ?_) ?_
    | with_reducible refine Frame.ite ?_ ?_
    | dsimp only
    | split

theorem execSetFeaturesTemperatureThreshold_frame {ps : List Part} {r₀ : State} {seq : Nat} {w : Dword} {s : State}
    (sub : [.qmx, .fns] ⊆ ps) (h₀ : Frame ps r₀ s) :
    ∃ z, execSetFeaturesTemperatureThreshold seq w s = .next z ∧ Frame ps r₀ z := by
  refine ⟨_, rfl, ?_⟩
  try dsimp only
  repeat' first
    | with_reducible assumption
    | with_reducible exact List.Subset.trans (by decide) sub
    | with_reducible apply State.feat_frame
    | with_reducible apply State.finish_frame
    | with_reducible apply thresholdFn_frame
    | with_reducible refine State.admin_frame (fun _ => ?_) ?_
    | dsimp only
    | split

theorem execFirmwareImageDownload_frame {ps : List Part} {r₀ : State} {seq off : Nat} {data : List Byte} {s : State}
    (sub : [.qmx, .fns] ⊆ ps) (h₀ : Frame ps r₀ s) :
    ∃ z, execFirmwareImageDownload seq off data s = .next z ∧ Frame ps r₀ z := by
  refine ⟨_, rfl, ?_⟩
  try dsimp only
  repeat' first
    | with_reducible assumption
    | with_reducible exact List.Subset.trans (by decide) sub
    | with_reducible apply State.finish_frame
    | with_reducible apply State.setQmx_frame
    | with_reducible refine State.managerOnly_frame (fun _ => ?_) ?_ ?_
    | with_reducible refine Frame.ite ?_ ?_
    | dsimp only
    | split

theorem commitImage_frame {ps : List Part} {r₀ s : State} {seq fs : Nat} {old : Bool} {act : Nat → State → State}
    (ha : ∀ x u, Frame ps r₀ u → Frame ps r₀ (act x u)) (sub : [.qmx, .fns, .nor, .evl, .pages, .regs] ⊆ ps) (h : Frame ps r₀ s) :
    Frame ps r₀ (commitImage s seq fs old act) := by
  have hf {u st} (k : Frame ps r₀ u) : Frame ps r₀ (u.finish seq st) :=
    State.finish_frame (List.Subset.trans (by decide) sub) k
  unfold commitImage
  refine State.managerOnly_frame (fun _ => Frame.ite (hf h) (Frame.ite (hf h) ?_)) (List.Subset.trans (by decide) sub) h
  split
  · exact hf h
  · extract_lets img
    clear_value img
    split
    · exact hf h
    · split
      · exact hf (rejectImage_frame (List.Subset.trans (by decide) sub) h)
      · exact ha _ _ (State.setQmx_frame (List.Subset.trans (by decide) sub)
          (State.setNor_frame (List.Subset.trans (by decide) sub) h))

theorem execFirmwareCommitStore_frame {ps : List Part} {r₀ : State} {seq fs : Nat} {s : State}
    (sub : [.qmx, .fns, .nor, .evl, .pages, .regs] ⊆ ps) (h₀ : Frame ps r₀ s) :
    ∃ z, execFirmwareCommitStore seq fs s = .next z ∧ Frame ps r₀ z := by
  refine ⟨_, rfl, ?_⟩
  try dsimp only
  repeat' first
    | with_reducible assumption
    | with_reducible exact List.Subset.trans (by decide) sub
    | with_reducible apply State.finish_frame
    | with_reducible refine commitImage_frame (fun _ _ _ => ?_) ?_ ?_
    | dsimp only
    | split

theorem execFirmwareCommitNextReset_frame {ps : List Part} {r₀ : State} {seq fs : Nat} {s : State}
    (sub : [.qmx, .fns, .nor, .evl, .pages, .regs] ⊆ ps) (h₀ : Frame ps r₀ s) :
    ∃ z, execFirmwareCommitNextReset seq fs s = .next z ∧ Frame ps r₀ z := by
  refine ⟨_, rfl, ?_⟩
  try dsimp only
  repeat' first
    | with_reducible assumption
    | with_reducible exact List.Subset.trans (by decide) sub
    | with_reducible apply State.finish_frame
    | with_reducible apply State.setNor_frame
    | with_reducible refine commitImage_frame (fun _ _ _ => ?_) ?_ ?_
    | dsimp only
    | split

theorem execFirmwareCommitImmediate_frame {ps : List Part} {r₀ : State} {seq fs : Nat} {s : State}
    (sub : [.qmx, .fns, .nor, .evl, .pages, .regs] ⊆ ps) (h₀ : Frame ps r₀ s) :
    ∃ z, execFirmwareCommitImmediate seq fs s = .next z ∧ Frame ps r₀ z := by
  refine ⟨_, rfl, ?_⟩
  try dsimp only
  repeat' first
    | with_reducible assumption
    | with_reducible exact List.Subset.trans (by decide) sub
    | with_reducible apply State.hold_frame
    | with_reducible apply State.setNor_frame
    | with_reducible apply State.setQmx_frame
    | with_reducible refine commitImage_frame (fun _ _ _ => ?_) ?_ ?_
    | dsimp only
    | split

theorem setPp_frame {ps : List Part} {r₀ : State} {s : State} {v : Bool}
    (sub : [.fns] ⊆ ps) (h₀ : Frame ps r₀ s) : Frame ps r₀ (setPp s v) := by
  unfold setPp
  try dsimp only
  repeat' first
    | with_reducible assumption
    | with_reducible exact List.Subset.trans (by decide) sub
    | with_reducible apply State.setFns_frame
    | dsimp only
    | split

theorem execFwActivationStop_frame {ps : List Part} {r₀ : State} {s : State}
    (sub : [.qmx, .fns, .evl, .pages, .regs] ⊆ ps) (h₀ : Frame ps r₀ s) :
    ∃ z, execFwActivationStop s = .next z ∧ Frame ps r₀ z := by
  refine ⟨_, rfl, ?_⟩
  try dsimp only
  repeat' first
    | with_reducible assumption
    | with_reducible exact List.Subset.trans (by decide) sub
    | with_reducible apply State.ev_frame
    | with_reducible apply State.raise_frame
    | with_reducible apply State.setQmx_frame
    | with_reducible apply setPp_frame
    | with_reducible refine Frame.ite ?_ ?_
    | dsimp only
    | split

theorem execFwActivationSwitch_frame {ps : List Part} {r₀ : State} {s : State}
    (sub : [.qmx, .key, .bot] ⊆ ps) (h₀ : Frame ps r₀ s) :
    ∃ z, execFwActivationSwitch s = .next z ∧ Frame ps r₀ z := by
  refine ⟨_, rfl, ?_⟩
  try dsimp only
  split
  all_goals repeat' first
    | with_reducible assumption
    | with_reducible exact List.Subset.trans (by decide) sub
    | with_reducible apply State.setQmx_frame
    | with_reducible apply switchImage_frame
    | with_reducible refine Frame.ite ?_ ?_
    | dsimp only
    | split

theorem execFwActivationResume_frame {ps : List Part} {r₀ : State} {s : State}
    (sub : [.qmx, .fns, .evl, .pages, .regs] ⊆ ps) (h₀ : Frame ps r₀ s) :
    ∃ z, execFwActivationResume s = .next z ∧ Frame ps r₀ z := by
  refine ⟨_, rfl, ?_⟩
  try dsimp only
  repeat' first
    | with_reducible assumption
    | with_reducible exact List.Subset.trans (by decide) sub
    | with_reducible apply State.ev_frame
    | with_reducible apply State.finish_frame
    | with_reducible apply State.raise_frame
    | with_reducible apply State.setQmx_frame
    | with_reducible apply setPp_frame
    | with_reducible refine Frame.ite ?_ ?_
    | dsimp only
    | split

theorem logTest_frame {ps : List Part} {r₀ : State} {s : State} {t : SelfTest} {result : Nat}
    (sub : [.cpx] ⊆ ps) (h₀ : Frame ps r₀ s) : Frame ps r₀ (logTest s t result) := by
  unfold logTest
  try dsimp only
  repeat' first
    | with_reducible assumption
    | with_reducible exact List.Subset.trans (by decide) sub
    | with_reducible apply State.setCpx_frame
    | dsimp only
    | split

theorem execDeviceSelfTest_frame {ps : List Part} {r₀ : State} {seq nsid stc : Nat} {s : State}
    (sub : [.draws, .qmx, .fns, .cpx] ⊆ ps) (h₀ : Frame ps r₀ s) :
    ∃ z, execDeviceSelfTest seq nsid stc s = .next z ∧ Frame ps r₀ z := by
  refine ⟨_, rfl, ?_⟩
  try dsimp only
  repeat' first
    | with_reducible assumption
    | with_reducible exact List.Subset.trans (by decide) sub
    | with_reducible apply State.finish_frame
    | with_reducible apply State.setCpx_frame
    | with_reducible apply logTest_frame
    | with_reducible refine State.managerOnly_frame (fun _ => ?_) ?_ ?_
    | with_reducible refine Frame.ite ?_ ?_
    | with_reducible apply State.draw_frame
    | with_reducible refine State.draw_eq_frame (by assumption) ?_ ?_
    | dsimp only
    | split

theorem selfTestEnd_frame {ps : List Part} {r₀ : State} {s : State}
    (sub : [.cpx] ⊆ ps) (h₀ : Frame ps r₀ s) : Frame ps r₀ (selfTestEnd s) := by
  unfold selfTestEnd
  try dsimp only
  split
  all_goals repeat' first
    | with_reducible assumption
    | with_reducible exact List.Subset.trans (by decide) sub
    | with_reducible apply logTest_frame
    | with_reducible refine Frame.ite ?_ ?_
    | dsimp only
    | split

theorem secondary_frame {ps : List Part} {r₀ : State} {s : State} {seq f : Nat} {act : State → State}
    (ha : ∀ u, Frame ps r₀ u → Frame ps r₀ (act u)) (sub : [.qmx, .fns] ⊆ ps) (h₀ : Frame ps r₀ s) :
    Frame ps r₀ (secondary s seq f act) := by
  unfold secondary
  try dsimp only
  repeat' first
    | with_reducible assumption
    | with_reducible exact List.Subset.trans (by decide) sub
    | with_reducible refine ha _ ?_
    | with_reducible apply State.finish_frame
    | with_reducible refine State.managerOnly_frame (fun _ => ?_) ?_ ?_
    | with_reducible refine Frame.ite ?_ ?_
    | dsimp only
    | split

theorem execSecondaryControllerOnline_frame {ps : List Part} {r₀ : State} {seq f : Nat} {s : State}
    (sub : [.qmx, .fns] ⊆ ps) (h₀ : Frame ps r₀ s) :
    ∃ z, execSecondaryControllerOnline seq f s = .next z ∧ Frame ps r₀ z := by
  refine ⟨_, rfl, ?_⟩
  try dsimp only
  repeat' first
    | with_reducible assumption
    | with_reducible exact List.Subset.trans (by decide) sub
    | with_reducible apply State.finish_frame
    | with_reducible apply State.updFn_frame
    | with_reducible refine secondary_frame (fun _ _ => ?_) ?_ ?_
    | dsimp only
    | split

theorem execSecondaryControllerOffline_frame {ps : List Part} {r₀ : State} {seq f : Nat} {s : State}
    (sub : [.qmx, .fns] ⊆ ps) (h₀ : Frame ps r₀ s) :
    ∃ z, execSecondaryControllerOffline seq f s = .next z ∧ Frame ps r₀ z := by
  refine ⟨_, rfl, ?_⟩
  try dsimp only
  repeat' first
    | with_reducible assumption
    | with_reducible exact List.Subset.trans (by decide) sub
    | with_reducible apply State.finish_frame
    | with_reducible apply State.updFn_frame
    | with_reducible apply armReset_frame
    | with_reducible refine secondary_frame (fun _ _ => ?_) ?_ ?_
    | with_reducible refine Frame.ite ?_ ?_
    | dsimp only
    | split

theorem execSecuritySend_frame {ps : List Part} {r₀ : State} {seq secp spsp : Nat} {data : List Byte} {s : State}
    (sub : [.qmx, .fns, .key] ⊆ ps) (h₀ : Frame ps r₀ s) :
    ∃ z, execSecuritySend seq secp spsp data s = .next z ∧ Frame ps r₀ z := by
  refine ⟨_, rfl, ?_⟩
  try dsimp only
  repeat' first
    | with_reducible assumption
    | with_reducible exact List.Subset.trans (by decide) sub
    | with_reducible apply State.finish_frame
    | with_reducible apply State.setKey_frame
    | with_reducible refine State.admin_frame (fun _ => ?_) ?_
    | with_reducible refine Frame.ite ?_ ?_
    | dsimp only
    | split

theorem execSecurityReceive_frame {ps : List Part} {r₀ : State} {seq secp spsp len : Nat} {s : State}
    (sub : [.ans, .draws, .qmx, .fns] ⊆ ps) (h₀ : Frame ps r₀ s) :
    ∃ z, execSecurityReceive seq secp spsp len s = .next z ∧ Frame ps r₀ z := by
  refine ⟨_, rfl, ?_⟩
  try dsimp only
  repeat' first
    | with_reducible assumption
    | with_reducible exact List.Subset.trans (by decide) sub
    | with_reducible apply State.finish_frame
    | with_reducible apply State.reply_frame
    | with_reducible refine State.admin_frame (fun _ => ?_) ?_
    | with_reducible refine Frame.ite ?_ ?_
    | with_reducible apply State.draw_frame
    | with_reducible refine State.draw_eq_frame (by assumption) ?_ ?_
    | dsimp only
    | split

end Sys2Proof.Machine
end

