-- ==== Sys2Proof/Laws/Admit.lean ====
section
/-! SUPPORT. What each operation of Machine/Admit.lean may change. -/

-- one proof after another: many at once would each hold a thread
set_option Elab.async false

namespace Sys2Proof.Machine

open Sys2Proof

/-- The state that a tried command leaves, where it leaves one, differs only in the parts named. -/
def Tried.framed (ps : List Part) (r : State) : Tried → Prop
  | .admitted s _ _ => Frame ps r s
  | .passed s => Frame ps r s
  | .noCredit => True

theorem Tried.framed_admitted {ps : List Part} {r s : State} {a : Cost} {b : Bool} (h : Frame ps r s) :
    Tried.framed ps r (.admitted s a b) := h

theorem Tried.framed_passed {ps : List Part} {r s : State} (h : Frame ps r s) : Tried.framed ps r (.passed s) := h

theorem takeSingles_frame {ps : List Part} {r₀ s : State} {c : Cmd} {data : List Block} {metas : List (BitVec 128)}
    {k n : Nat} (sub : [.wbf] ⊆ ps) (h : Frame ps r₀ s) : Frame ps r₀ (takeSingles s c data metas k n).1 := by
  induction n generalizing s k with
  | zero => exact h
  | succ n ih =>
    unfold takeSingles
    split
    · exact h
    · exact ih (State.setSlot_frame sub h)

theorem takeSingles_eq_frame {ps : List Part} {r₀ s : State} {c : Cmd} {data : List Block} {metas : List (BitVec 128)}
    {k n : Nat} {a : List Nat} {t : State} (e : takeSingles s c data metas k n = (t, a)) (sub : [.wbf] ⊆ ps)
    (h : Frame ps r₀ s) : Frame ps r₀ t := by
  have q := takeSingles_frame (c := c) (data := data) (metas := metas) (k := k) (n := n) sub h
  rw [e] at q
  exact q

theorem takeGroup_frame {ps : List Part} {r₀ : State} {s : State} {c : Cmd} {data : List Block} {metas : List (BitVec 128)} {k b : Nat}
    (sub : [.wbf] ⊆ ps) (h₀ : Frame ps r₀ s) : Frame ps r₀ (takeGroup s c data metas k b) := by
  unfold takeGroup
  try dsimp only
  repeat' first
    | with_reducible assumption
    | with_reducible exact List.Subset.trans (by decide) sub
    | with_reducible apply State.setSlot_frame
    | with_reducible refine Frame.foldlFst (fun _ _ _ => ?_) ?_
    | with_reducible refine Frame.foldl (fun _ _ _ => ?_) ?_
    | dsimp only
    | split

theorem takeSlots_frame {ps : List Part} {r₀ : State} {s : State} {c : Cmd} {data : List Block} {metas : List (BitVec 128)}
    (sub : [.wbf] ⊆ ps) (h₀ : Frame ps r₀ s) : Frame ps r₀ (takeSlots s c data metas).1 := by
  unfold takeSlots
  try dsimp only
  repeat' first
    | with_reducible assumption
    | with_reducible exact List.Subset.trans (by decide) sub
    | with_reducible apply takeGroup_frame
    | with_reducible refine Frame.foldlFst (fun _ _ _ => ?_) ?_
    | with_reducible refine Frame.foldl (fun _ _ _ => ?_) ?_
    | with_reducible refine Frame.ite ?_ ?_
    | with_reducible apply takeSingles_frame
    | with_reducible refine takeSingles_eq_frame (by assumption) ?_ ?_
    | dsimp only
    | split

theorem takeSlots_eq_frame {ps : List Part} {r₀ : State} {s : State} {c : Cmd} {data : List Block} {metas : List (BitVec 128)} {v₀ : List Nat × Nat} {t : State}
    (e : (takeSlots s c data metas) = (t, v₀)) (sub : [.wbf] ⊆ ps) (h₀ : Frame ps r₀ s) : Frame ps r₀ t := by
  have k := takeSlots_frame (s := s) (c := c) (data := data) (metas := metas) sub h₀
  rw [e] at k
  exact k

theorem fineWait_frame {ps : List Part} {r₀ : State} {s : State} {c : Cmd}
    (sub : [.qmx, .map, .evl, .pages, .regs] ⊆ ps) (h₀ : Frame ps r₀ s) : Frame ps r₀ (fineWait s c) := by
  unfold fineWait
  try dsimp only
  repeat' first
    | with_reducible assumption
    | with_reducible exact List.Subset.trans (by decide) sub
    | with_reducible apply State.bump_frame
    | with_reducible apply State.ev_frame
    | with_reducible apply State.raise_frame
    | with_reducible apply State.setMap_frame
    | with_reducible apply State.updCmd_frame
    | with_reducible refine Frame.ite ?_ ?_
    | dsimp only
    | split

theorem writePaced_eq_frame {ps : List Part} {r₀ : State} {s : State} {n : Nat} {t : State}
    (e : (writePaced s n) = some t) (sub : [.rcl] ⊆ ps) (h₀ : Frame ps r₀ s) : Frame ps r₀ t := by
  unfold writePaced at e
  try dsimp only at e
  repeat' first
    | cases e
    | split at e
  all_goals
    repeat' first
      | with_reducible assumption
      | with_reducible exact List.Subset.trans (by decide) sub
      | with_reducible apply State.setRcl_frame
      | with_reducible refine Frame.ite ?_ ?_
      | dsimp only
      | split

theorem admitPlain_frame {ps : List Part} {r₀ : State} {s : State} {c : Cmd} {data : List Block} {metas : List (BitVec 128)} {g : Grant}
    (sub : [.qmx, .map, .wbf, .rcl, .evl, .pages, .regs] ⊆ ps) (h₀ : Frame ps r₀ s) : Tried.framed ps r₀ (admitPlain s c data metas g) := by
  unfold admitPlain
  try dsimp only
  split
  all_goals repeat' first
    | with_reducible assumption
    | with_reducible exact List.Subset.trans (by decide) sub
    | with_reducible apply Tried.framed_admitted
    | with_reducible apply Tried.framed_passed
    | exact True.intro
    | with_reducible apply State.setMap_frame
    | with_reducible apply State.updCmd_frame
    | with_reducible apply fineWait_frame
    | with_reducible refine Frame.ite ?_ ?_
    | with_reducible apply takeSlots_frame
    | with_reducible refine takeSlots_eq_frame (by assumption) ?_ ?_
    | with_reducible refine writePaced_eq_frame (by assumption) ?_ ?_
    | dsimp only
    | split

theorem advanceZone_frame {ps : List Part} {r₀ : State} {s : State} {ns z n zcap : Nat}
    (sub : [.map] ⊆ ps) (h₀ : Frame ps r₀ s) : Frame ps r₀ (advanceZone s ns z n zcap) := by
  unfold advanceZone
  try dsimp only
  repeat' first
    | with_reducible assumption
    | with_reducible exact List.Subset.trans (by decide) sub
    | with_reducible apply State.updZone_frame
    | with_reducible refine Frame.ite ?_ ?_
    | dsimp only
    | split

theorem admitZoned_frame {ps : List Part} {r₀ : State} {s : State} {c : Cmd} {sp : Space} {append : Bool} {data : List Block} {metas : List (BitVec 128)} {g : Grant}
    (sub : [.stp, .qmx, .fns, .map, .wbf, .par, .rcl, .evl, .pages, .regs] ⊆ ps) (h₀ : Frame ps r₀ s) : Tried.framed ps r₀ (admitZoned s c sp append data metas g) := by
  unfold admitZoned
  try dsimp only
  repeat' first
    | with_reducible assumption
    | with_reducible exact List.Subset.trans (by decide) sub
    | with_reducible apply Tried.framed_admitted
    | with_reducible apply Tried.framed_passed
    | exact True.intro
    | with_reducible apply State.updCmd_frame
    | with_reducible apply advanceZone_frame
    | with_reducible apply fineWait_frame
    | with_reducible apply finishIo_frame
    | with_reducible refine Frame.ite ?_ ?_
    | with_reducible refine openZone_eq_frame (by assumption) ?_ ?_
    | with_reducible apply takeSingles_frame
    | with_reducible refine takeSingles_eq_frame (by assumption) ?_ ?_
    | with_reducible refine writePaced_eq_frame (by assumption) ?_ ?_
    | dsimp only
    | split

theorem touchFine_frame {ps : List Part} {r₀ : State} {s : State} {ns lba : Nat}
    (sub : [.map] ⊆ ps) (h₀ : Frame ps r₀ s) : Frame ps r₀ (touchFine s ns lba) := by
  unfold touchFine
  try dsimp only
  repeat' first
    | with_reducible assumption
    | with_reducible exact List.Subset.trans (by decide) sub
    | with_reducible apply State.setMap_frame
    | with_reducible refine Frame.ite ?_ ?_
    | dsimp only
    | split

theorem resolveBlock_frame {ps : List Part} {r₀ : State} {s : State} {c : Cmd} {k : Nat}
    (sub : [.stp, .map, .wbf] ⊆ ps) (h₀ : Frame ps r₀ s) : Frame ps r₀ (resolveBlock s c k).1 := by
  unfold resolveBlock
  try dsimp only
  repeat' first
    | with_reducible assumption
    | with_reducible exact List.Subset.trans (by decide) sub
    | with_reducible apply State.setSlot_frame
    | with_reducible apply State.setStp_frame
    | with_reducible apply touchFine_frame
    | with_reducible refine Frame.ite ?_ ?_
    | dsimp only
    | split

theorem resolveBlock_eq_frame {ps : List Part} {r₀ : State} {s : State} {c : Cmd} {k : Nat} {v₀ : ReadPart × Option Nat} {t : State}
    (e : (resolveBlock s c k) = (t, v₀)) (sub : [.stp, .map, .wbf] ⊆ ps) (h₀ : Frame ps r₀ s) : Frame ps r₀ t := by
  have k := resolveBlock_frame (s := s) (c := c) (k := k) sub h₀
  rw [e] at k
  exact k

theorem resolveRead_frame {ps : List Part} {r₀ : State} {s : State} {c : Cmd}
    (sub : [.stp, .map, .wbf] ⊆ ps) (h₀ : Frame ps r₀ s) : Frame ps r₀ (resolveRead s c).1 := by
  unfold resolveRead
  try dsimp only
  repeat' first
    | with_reducible assumption
    | with_reducible exact List.Subset.trans (by decide) sub
    | with_reducible refine Frame.foldlFst (fun _ _ _ => ?_) ?_
    | with_reducible refine Frame.foldl (fun _ _ _ => ?_) ?_
    | with_reducible apply resolveBlock_frame
    | with_reducible refine resolveBlock_eq_frame (by assumption) ?_ ?_
    | dsimp only
    | split

theorem resolveRead_eq_frame {ps : List Part} {r₀ : State} {s : State} {c : Cmd} {v₀ : List ReadPart × List Nat} {t : State}
    (e : (resolveRead s c) = (t, v₀)) (sub : [.stp, .map, .wbf] ⊆ ps) (h₀ : Frame ps r₀ s) : Frame ps r₀ t := by
  have k := resolveRead_frame (s := s) (c := c) sub h₀
  rw [e] at k
  exact k

theorem holdWait_frame {ps : List Part} {r₀ : State} {s : State}
    (sub : [.cip, .pages, .regs] ⊆ ps) (h₀ : Frame ps r₀ s) : Frame ps r₀ (holdWait s) := by
  unfold holdWait
  try dsimp only
  repeat' first
    | with_reducible assumption
    | with_reducible exact List.Subset.trans (by decide) sub
    | with_reducible apply State.bump_frame
    | with_reducible apply State.ev_frame
    | with_reducible apply State.setCip_frame
    | with_reducible refine Frame.ite ?_ ?_
    | dsimp only
    | split

theorem admitRead_frame {ps : List Part} {r₀ : State} {s : State} {c : Cmd} {g : Grant}
    (sub : [.stp, .qmx, .map, .wbf, .cip, .pages, .regs] ⊆ ps) (h₀ : Frame ps r₀ s) : Tried.framed ps r₀ (admitRead s c g) := by
  unfold admitRead
  try dsimp only
  repeat' first
    | with_reducible assumption
    | with_reducible exact List.Subset.trans (by decide) sub
    | with_reducible apply Tried.framed_admitted
    | with_reducible apply Tried.framed_passed
    | exact True.intro
    | with_reducible apply State.bump_frame
    | with_reducible apply State.updCmd_frame
    | with_reducible apply holdWait_frame
    | with_reducible refine Frame.ite ?_ ?_
    | with_reducible apply resolveRead_frame
    | with_reducible refine resolveRead_eq_frame (by assumption) ?_ ?_
    | dsimp only
    | split

theorem admitMap_frame {ps : List Part} {r₀ : State} {s : State} {c : Cmd}
    (sub : [.qmx, .map, .evl, .pages, .regs] ⊆ ps) (h₀ : Frame ps r₀ s) : Tried.framed ps r₀ (admitMap s c) := by
  unfold admitMap
  try dsimp only
  repeat' first
    | with_reducible assumption
    | with_reducible exact List.Subset.trans (by decide) sub
    | with_reducible apply Tried.framed_admitted
    | with_reducible apply Tried.framed_passed
    | exact True.intro
    | with_reducible apply State.setMap_frame
    | with_reducible apply State.updCmd_frame
    | with_reducible apply fineWait_frame
    | with_reducible refine Frame.ite ?_ ?_
    | dsimp only
    | split

theorem padOpenRow_frame {ps : List Part} {r₀ : State} {s : State} {f : Nat} {r : Row}
    (sub : [.wbf] ⊆ ps) (h₀ : Frame ps r₀ s) : Frame ps r₀ (padOpenRow s f r) := by
  unfold padOpenRow
  try dsimp only
  repeat' first
    | with_reducible assumption
    | with_reducible exact List.Subset.trans (by decide) sub
    | with_reducible apply State.updStream_frame
    | with_reducible refine Frame.ite ?_ ?_
    | dsimp only
    | split

theorem admitFlush_frame {ps : List Part} {r₀ : State} {s : State} {c : Cmd} {all : Bool}
    (sub : [.qmx, .wbf] ⊆ ps) (h₀ : Frame ps r₀ s) : Tried.framed ps r₀ (admitFlush s c all) := by
  unfold admitFlush
  try dsimp only
  repeat' first
    | with_reducible assumption
    | with_reducible exact List.Subset.trans (by decide) sub
    | with_reducible apply Tried.framed_admitted
    | with_reducible apply Tried.framed_passed
    | exact True.intro
    | with_reducible apply State.updCmd_frame
    | with_reducible apply State.updPu_frame
    | with_reducible apply markClose_frame
    | with_reducible apply padOpenRow_frame
    | with_reducible refine Frame.foldlFst (fun _ _ _ => ?_) ?_
    | with_reducible refine Frame.foldl (fun _ _ _ => ?_) ?_
    | with_reducible refine Frame.ite ?_ ?_
    | dsimp only
    | split

theorem tryBody_frame {ps : List Part} {r₀ : State} {s : State} {c : Cmd} {sp : Space} {g : Grant}
    (sub : [.stp, .qmx, .fns, .map, .wbf, .par, .rcl, .cip, .evl, .pages, .regs] ⊆ ps) (h₀ : Frame ps r₀ s) : Tried.framed ps r₀ (tryBody s c sp g) := by
  unfold tryBody
  try dsimp only
  split
  all_goals repeat' first
    | with_reducible assumption
    | with_reducible exact List.Subset.trans (by decide) sub
    | with_reducible apply Tried.framed_admitted
    | with_reducible apply Tried.framed_passed
    | exact True.intro
    | with_reducible apply State.updCmd_frame
    | with_reducible refine Frame.ite ?_ ?_
    | with_reducible apply admitMap_frame
    | with_reducible apply admitPlain_frame
    | with_reducible apply admitRead_frame
    | with_reducible apply admitZoned_frame
    | dsimp only
    | split

theorem tryAdmit_frame {ps : List Part} {r₀ : State} {s : State} {c : Cmd} {g : Grant}
    (sub : [.stp, .qmx, .fns, .map, .wbf, .par, .rcl, .cip, .evl, .pages, .regs] ⊆ ps) (h₀ : Frame ps r₀ s) : Tried.framed ps r₀ (tryAdmit s c g) := by
  unfold tryAdmit
  try dsimp only
  split
  all_goals repeat' first
    | with_reducible assumption
    | with_reducible exact List.Subset.trans (by decide) sub
    | with_reducible apply Tried.framed_admitted
    | with_reducible apply Tried.framed_passed
    | exact True.intro
    | with_reducible apply finishIo_frame
    | with_reducible refine Frame.ite ?_ ?_
    | with_reducible apply admitFlush_frame
    | with_reducible apply tryBody_frame
    | dsimp only
    | split

theorem chargeGrant_frame {ps : List Part} {r₀ : State} {s : State} {f : Nat} {h : Share} {c : Cost} {read : Bool}
    (sub : [.fns] ⊆ ps) (h₀ : Frame ps r₀ s) : Frame ps r₀ (chargeGrant s f h c read).1 := by
  unfold chargeGrant
  try dsimp only
  repeat' first
    | with_reducible assumption
    | with_reducible exact List.Subset.trans (by decide) sub
    | with_reducible apply State.updFn_frame
    | with_reducible apply chargeFn_frame
    | with_reducible refine Frame.ite ?_ ?_
    | dsimp only
    | split

theorem chargeGrant_eq_frame {ps : List Part} {r₀ : State} {s : State} {f : Nat} {h : Share} {c : Cost} {read : Bool} {v₀ : Share} {t : State}
    (e : (chargeGrant s f h c read) = (t, v₀)) (sub : [.fns] ⊆ ps) (h₀ : Frame ps r₀ s) : Frame ps r₀ t := by
  have k := chargeGrant_frame (s := s) (f := f) (h := h) (c := c) (read := read) sub h₀
  rw [e] at k
  exact k

theorem turnOf_frame {ps : List Part} {r₀ : State} {a : State × Tbl Share} {seq : Nat}
    (sub : [.stp, .qmx, .fns, .map, .wbf, .par, .rcl, .cip, .evl, .pages, .regs] ⊆ ps) (h : Frame ps r₀ a.1) : Frame ps r₀ (turnOf a seq).1 := by
  have k {c : Cmd} {g : Grant} := tryAdmit_frame (c := c) (g := g) (List.Subset.trans (by decide) sub) h
  unfold turnOf
  split
  · exact h
  · dsimp only
    split
    · exact h
    · split
      · next x e => show Tried.framed ps r₀ (.passed x); rw [← e]; exact k
      · exact h
      · next x y z e =>
        have q : Tried.framed ps r₀ (.admitted x y z) := by rw [← e]; exact k
        exact chargeGrant_frame (List.Subset.trans (by decide) sub) q

theorem admitAll_frame {ps : List Part} {r₀ : State} {s : State}
    (sub : [.stp, .qmx, .fns, .map, .wbf, .par, .rcl, .cip, .evl, .pages, .regs] ⊆ ps) (h₀ : Frame ps r₀ s) : Frame ps r₀ (admitAll s) := by
  unfold admitAll
  try dsimp only
  repeat' first
    | with_reducible assumption
    | with_reducible exact List.Subset.trans (by decide) sub
    | with_reducible apply State.setStp_frame
    | with_reducible apply State.updFn_frame
    | with_reducible refine Frame.foldlFst (fun _ _ _ => ?_) ?_
    | with_reducible refine Frame.foldl (fun _ _ _ => ?_) ?_
    | with_reducible apply turnOf_frame
    | with_reducible refine turnOf_eq_frame (by assumption) ?_ ?_
    | dsimp only
    | split

end Sys2Proof.Machine
end

