-- ==== Sys2Proof/Laws/State.lean ====
section
/-! SUPPORT. What each field reads as after a field is written, and which fields the shared operations keep. -/

-- one proof after another: many at once would each hold a thread
set_option Elab.async false

namespace Sys2Proof.Machine

open Sys2Proof

/-! ## Fields of the state -/

@[simp] theorem State.setAns_pending (s : State) (x : Answer) : (s.setAns x).pending = s.pending := rfl
@[simp] theorem State.setAns_ans (s : State) (x : Answer) : (s.setAns x).ans = x := rfl
@[simp] theorem State.setAns_draws (s : State) (x : Answer) : (s.setAns x).draws = s.draws := rfl
@[simp] theorem State.setAns_gate (s : State) (x : Answer) : (s.setAns x).gate = s.gate := rfl
@[simp] theorem State.setAns_tbs (s : State) (x : Answer) : (s.setAns x).tbs = s.tbs := rfl
@[simp] theorem State.setAns_stp (s : State) (x : Answer) : (s.setAns x).stp = s.stp := rfl
@[simp] theorem State.setAns_qmx (s : State) (x : Answer) : (s.setAns x).qmx = s.qmx := rfl
@[simp] theorem State.setAns_ten (s : State) (x : Answer) : (s.setAns x).ten = s.ten := rfl
@[simp] theorem State.setAns_fns (s : State) (x : Answer) : (s.setAns x).fns = s.fns := rfl
@[simp] theorem State.setAns_map (s : State) (x : Answer) : (s.setAns x).map = s.map := rfl
@[simp] theorem State.setAns_wbf (s : State) (x : Answer) : (s.setAns x).wbf = s.wbf := rfl
@[simp] theorem State.setAns_fch (s : State) (x : Answer) : (s.setAns x).fch = s.fch := rfl
@[simp] theorem State.setAns_ldc (s : State) (x : Answer) : (s.setAns x).ldc = s.ldc := rfl
@[simp] theorem State.setAns_par (s : State) (x : Answer) : (s.setAns x).par = s.par := rfl
@[simp] theorem State.setAns_rcl (s : State) (x : Answer) : (s.setAns x).rcl = s.rcl := rfl
@[simp] theorem State.setAns_dmc (s : State) (x : Answer) : (s.setAns x).dmc = s.dmc := rfl
@[simp] theorem State.setAns_key (s : State) (x : Answer) : (s.setAns x).key = s.key := rfl
@[simp] theorem State.setAns_cip (s : State) (x : Answer) : (s.setAns x).cip = s.cip := rfl
@[simp] theorem State.setAns_staged (s : State) (x : Answer) : (s.setAns x).staged = s.staged := rfl
@[simp] theorem State.setAns_norWaits (s : State) (x : Answer) : (s.setAns x).norWaits = s.norWaits := rfl
@[simp] theorem State.setAns_hif (s : State) (x : Answer) : (s.setAns x).hif = s.hif := rfl
@[simp] theorem State.setAns_net (s : State) (x : Answer) : (s.setAns x).net = s.net := rfl
@[simp] theorem State.setAns_sbi (s : State) (x : Answer) : (s.setAns x).sbi = s.sbi := rfl
@[simp] theorem State.setAns_thm (s : State) (x : Answer) : (s.setAns x).thm = s.thm := rfl
@[simp] theorem State.setAns_hld (s : State) (x : Answer) : (s.setAns x).hld = s.hld := rfl
@[simp] theorem State.setAns_fuses (s : State) (x : Answer) : (s.setAns x).fuses = s.fuses := rfl
@[simp] theorem State.setAns_nor (s : State) (x : Answer) : (s.setAns x).nor = s.nor := rfl
@[simp] theorem State.setAns_bot (s : State) (x : Answer) : (s.setAns x).bot = s.bot := rfl
@[simp] theorem State.setAns_pins (s : State) (x : Answer) : (s.setAns x).pins = s.pins := rfl
@[simp] theorem State.setAns_evl (s : State) (x : Answer) : (s.setAns x).evl = s.evl := rfl
@[simp] theorem State.setAns_paths (s : State) (x : Answer) : (s.setAns x).paths = s.paths := rfl
@[simp] theorem State.setAns_pages (s : State) (x : Answer) : (s.setAns x).pages = s.pages := rfl
@[simp] theorem State.setAns_regs (s : State) (x : Answer) : (s.setAns x).regs = s.regs := rfl
@[simp] theorem State.setAns_cpx (s : State) (x : Answer) : (s.setAns x).cpx = s.cpx := rfl

@[simp] theorem State.setDraws_pending (s : State) (x : Nat) : (s.setDraws x).pending = s.pending := rfl
@[simp] theorem State.setDraws_ans (s : State) (x : Nat) : (s.setDraws x).ans = s.ans := rfl
@[simp] theorem State.setDraws_draws (s : State) (x : Nat) : (s.setDraws x).draws = x := rfl
@[simp] theorem State.setDraws_gate (s : State) (x : Nat) : (s.setDraws x).gate = s.gate := rfl
@[simp] theorem State.setDraws_tbs (s : State) (x : Nat) : (s.setDraws x).tbs = s.tbs := rfl
@[simp] theorem State.setDraws_stp (s : State) (x : Nat) : (s.setDraws x).stp = s.stp := rfl
@[simp] theorem State.setDraws_qmx (s : State) (x : Nat) : (s.setDraws x).qmx = s.qmx := rfl
@[simp] theorem State.setDraws_ten (s : State) (x : Nat) : (s.setDraws x).ten = s.ten := rfl
@[simp] theorem State.setDraws_fns (s : State) (x : Nat) : (s.setDraws x).fns = s.fns := rfl
@[simp] theorem State.setDraws_map (s : State) (x : Nat) : (s.setDraws x).map = s.map := rfl
@[simp] theorem State.setDraws_wbf (s : State) (x : Nat) : (s.setDraws x).wbf = s.wbf := rfl
@[simp] theorem State.setDraws_fch (s : State) (x : Nat) : (s.setDraws x).fch = s.fch := rfl
@[simp] theorem State.setDraws_ldc (s : State) (x : Nat) : (s.setDraws x).ldc = s.ldc := rfl
@[simp] theorem State.setDraws_par (s : State) (x : Nat) : (s.setDraws x).par = s.par := rfl
@[simp] theorem State.setDraws_rcl (s : State) (x : Nat) : (s.setDraws x).rcl = s.rcl := rfl
@[simp] theorem State.setDraws_dmc (s : State) (x : Nat) : (s.setDraws x).dmc = s.dmc := rfl
@[simp] theorem State.setDraws_key (s : State) (x : Nat) : (s.setDraws x).key = s.key := rfl
@[simp] theorem State.setDraws_cip (s : State) (x : Nat) : (s.setDraws x).cip = s.cip := rfl
@[simp] theorem State.setDraws_staged (s : State) (x : Nat) : (s.setDraws x).staged = s.staged := rfl
@[simp] theorem State.setDraws_norWaits (s : State) (x : Nat) : (s.setDraws x).norWaits = s.norWaits := rfl
@[simp] theorem State.setDraws_hif (s : State) (x : Nat) : (s.setDraws x).hif = s.hif := rfl
@[simp] theorem State.setDraws_net (s : State) (x : Nat) : (s.setDraws x).net = s.net := rfl
@[simp] theorem State.setDraws_sbi (s : State) (x : Nat) : (s.setDraws x).sbi = s.sbi := rfl
@[simp] theorem State.setDraws_thm (s : State) (x : Nat) : (s.setDraws x).thm = s.thm := rfl
@[simp] theorem State.setDraws_hld (s : State) (x : Nat) : (s.setDraws x).hld = s.hld := rfl
@[simp] theorem State.setDraws_fuses (s : State) (x : Nat) : (s.setDraws x).fuses = s.fuses := rfl
@[simp] theorem State.setDraws_nor (s : State) (x : Nat) : (s.setDraws x).nor = s.nor := rfl
@[simp] theorem State.setDraws_bot (s : State) (x : Nat) : (s.setDraws x).bot = s.bot := rfl
@[simp] theorem State.setDraws_pins (s : State) (x : Nat) : (s.setDraws x).pins = s.pins := rfl
@[simp] theorem State.setDraws_evl (s : State) (x : Nat) : (s.setDraws x).evl = s.evl := rfl
@[simp] theorem State.setDraws_paths (s : State) (x : Nat) : (s.setDraws x).paths = s.paths := rfl
@[simp] theorem State.setDraws_pages (s : State) (x : Nat) : (s.setDraws x).pages = s.pages := rfl
@[simp] theorem State.setDraws_regs (s : State) (x : Nat) : (s.setDraws x).regs = s.regs := rfl
@[simp] theorem State.setDraws_cpx (s : State) (x : Nat) : (s.setDraws x).cpx = s.cpx := rfl

@[simp] theorem State.setGate_pending (s : State) (x : Gate) : (s.setGate x).pending = s.pending := rfl
@[simp] theorem State.setGate_ans (s : State) (x : Gate) : (s.setGate x).ans = s.ans := rfl
@[simp] theorem State.setGate_draws (s : State) (x : Gate) : (s.setGate x).draws = s.draws := rfl
@[simp] theorem State.setGate_gate (s : State) (x : Gate) : (s.setGate x).gate = x := rfl
@[simp] theorem State.setGate_tbs (s : State) (x : Gate) : (s.setGate x).tbs = s.tbs := rfl
@[simp] theorem State.setGate_stp (s : State) (x : Gate) : (s.setGate x).stp = s.stp := rfl
@[simp] theorem State.setGate_qmx (s : State) (x : Gate) : (s.setGate x).qmx = s.qmx := rfl
@[simp] theorem State.setGate_ten (s : State) (x : Gate) : (s.setGate x).ten = s.ten := rfl
@[simp] theorem State.setGate_fns (s : State) (x : Gate) : (s.setGate x).fns = s.fns := rfl
@[simp] theorem State.setGate_map (s : State) (x : Gate) : (s.setGate x).map = s.map := rfl
@[simp] theorem State.setGate_wbf (s : State) (x : Gate) : (s.setGate x).wbf = s.wbf := rfl
@[simp] theorem State.setGate_fch (s : State) (x : Gate) : (s.setGate x).fch = s.fch := rfl
@[simp] theorem State.setGate_ldc (s : State) (x : Gate) : (s.setGate x).ldc = s.ldc := rfl
@[simp] theorem State.setGate_par (s : State) (x : Gate) : (s.setGate x).par = s.par := rfl
@[simp] theorem State.setGate_rcl (s : State) (x : Gate) : (s.setGate x).rcl = s.rcl := rfl
@[simp] theorem State.setGate_dmc (s : State) (x : Gate) : (s.setGate x).dmc = s.dmc := rfl
@[simp] theorem State.setGate_key (s : State) (x : Gate) : (s.setGate x).key = s.key := rfl
@[simp] theorem State.setGate_cip (s : State) (x : Gate) : (s.setGate x).cip = s.cip := rfl
@[simp] theorem State.setGate_staged (s : State) (x : Gate) : (s.setGate x).staged = s.staged := rfl
@[simp] theorem State.setGate_norWaits (s : State) (x : Gate) : (s.setGate x).norWaits = s.norWaits := rfl
@[simp] theorem State.setGate_hif (s : State) (x : Gate) : (s.setGate x).hif = s.hif := rfl
@[simp] theorem State.setGate_net (s : State) (x : Gate) : (s.setGate x).net = s.net := rfl
@[simp] theorem State.setGate_sbi (s : State) (x : Gate) : (s.setGate x).sbi = s.sbi := rfl
@[simp] theorem State.setGate_thm (s : State) (x : Gate) : (s.setGate x).thm = s.thm := rfl
@[simp] theorem State.setGate_hld (s : State) (x : Gate) : (s.setGate x).hld = s.hld := rfl
@[simp] theorem State.setGate_fuses (s : State) (x : Gate) : (s.setGate x).fuses = s.fuses := rfl
@[simp] theorem State.setGate_nor (s : State) (x : Gate) : (s.setGate x).nor = s.nor := rfl
@[simp] theorem State.setGate_bot (s : State) (x : Gate) : (s.setGate x).bot = s.bot := rfl
@[simp] theorem State.setGate_pins (s : State) (x : Gate) : (s.setGate x).pins = s.pins := rfl
@[simp] theorem State.setGate_evl (s : State) (x : Gate) : (s.setGate x).evl = s.evl := rfl
@[simp] theorem State.setGate_paths (s : State) (x : Gate) : (s.setGate x).paths = s.paths := rfl
@[simp] theorem State.setGate_pages (s : State) (x : Gate) : (s.setGate x).pages = s.pages := rfl
@[simp] theorem State.setGate_regs (s : State) (x : Gate) : (s.setGate x).regs = s.regs := rfl
@[simp] theorem State.setGate_cpx (s : State) (x : Gate) : (s.setGate x).cpx = s.cpx := rfl

@[simp] theorem State.setTbs_pending (s : State) (x : Tbs) : (s.setTbs x).pending = s.pending := rfl
@[simp] theorem State.setTbs_ans (s : State) (x : Tbs) : (s.setTbs x).ans = s.ans := rfl
@[simp] theorem State.setTbs_draws (s : State) (x : Tbs) : (s.setTbs x).draws = s.draws := rfl
@[simp] theorem State.setTbs_gate (s : State) (x : Tbs) : (s.setTbs x).gate = s.gate := rfl
@[simp] theorem State.setTbs_tbs (s : State) (x : Tbs) : (s.setTbs x).tbs = x := rfl
@[simp] theorem State.setTbs_stp (s : State) (x : Tbs) : (s.setTbs x).stp = s.stp := rfl
@[simp] theorem State.setTbs_qmx (s : State) (x : Tbs) : (s.setTbs x).qmx = s.qmx := rfl
@[simp] theorem State.setTbs_ten (s : State) (x : Tbs) : (s.setTbs x).ten = s.ten := rfl
@[simp] theorem State.setTbs_fns (s : State) (x : Tbs) : (s.setTbs x).fns = s.fns := rfl
@[simp] theorem State.setTbs_map (s : State) (x : Tbs) : (s.setTbs x).map = s.map := rfl
@[simp] theorem State.setTbs_wbf (s : State) (x : Tbs) : (s.setTbs x).wbf = s.wbf := rfl
@[simp] theorem State.setTbs_fch (s : State) (x : Tbs) : (s.setTbs x).fch = s.fch := rfl
@[simp] theorem State.setTbs_ldc (s : State) (x : Tbs) : (s.setTbs x).ldc = s.ldc := rfl
@[simp] theorem State.setTbs_par (s : State) (x : Tbs) : (s.setTbs x).par = s.par := rfl
@[simp] theorem State.setTbs_rcl (s : State) (x : Tbs) : (s.setTbs x).rcl = s.rcl := rfl
@[simp] theorem State.setTbs_dmc (s : State) (x : Tbs) : (s.setTbs x).dmc = s.dmc := rfl
@[simp] theorem State.setTbs_key (s : State) (x : Tbs) : (s.setTbs x).key = s.key := rfl
@[simp] theorem State.setTbs_cip (s : State) (x : Tbs) : (s.setTbs x).cip = s.cip := rfl
@[simp] theorem State.setTbs_staged (s : State) (x : Tbs) : (s.setTbs x).staged = s.staged := rfl
@[simp] theorem State.setTbs_norWaits (s : State) (x : Tbs) : (s.setTbs x).norWaits = s.norWaits := rfl
@[simp] theorem State.setTbs_hif (s : State) (x : Tbs) : (s.setTbs x).hif = s.hif := rfl
@[simp] theorem State.setTbs_net (s : State) (x : Tbs) : (s.setTbs x).net = s.net := rfl
@[simp] theorem State.setTbs_sbi (s : State) (x : Tbs) : (s.setTbs x).sbi = s.sbi := rfl
@[simp] theorem State.setTbs_thm (s : State) (x : Tbs) : (s.setTbs x).thm = s.thm := rfl
@[simp] theorem State.setTbs_hld (s : State) (x : Tbs) : (s.setTbs x).hld = s.hld := rfl
@[simp] theorem State.setTbs_fuses (s : State) (x : Tbs) : (s.setTbs x).fuses = s.fuses := rfl
@[simp] theorem State.setTbs_nor (s : State) (x : Tbs) : (s.setTbs x).nor = s.nor := rfl
@[simp] theorem State.setTbs_bot (s : State) (x : Tbs) : (s.setTbs x).bot = s.bot := rfl
@[simp] theorem State.setTbs_pins (s : State) (x : Tbs) : (s.setTbs x).pins = s.pins := rfl
@[simp] theorem State.setTbs_evl (s : State) (x : Tbs) : (s.setTbs x).evl = s.evl := rfl
@[simp] theorem State.setTbs_paths (s : State) (x : Tbs) : (s.setTbs x).paths = s.paths := rfl
@[simp] theorem State.setTbs_pages (s : State) (x : Tbs) : (s.setTbs x).pages = s.pages := rfl
@[simp] theorem State.setTbs_regs (s : State) (x : Tbs) : (s.setTbs x).regs = s.regs := rfl
@[simp] theorem State.setTbs_cpx (s : State) (x : Tbs) : (s.setTbs x).cpx = s.cpx := rfl

@[simp] theorem State.setStp_pending (s : State) (x : Stp) : (s.setStp x).pending = s.pending := rfl
@[simp] theorem State.setStp_ans (s : State) (x : Stp) : (s.setStp x).ans = s.ans := rfl
@[simp] theorem State.setStp_draws (s : State) (x : Stp) : (s.setStp x).draws = s.draws := rfl
@[simp] theorem State.setStp_gate (s : State) (x : Stp) : (s.setStp x).gate = s.gate := rfl
@[simp] theorem State.setStp_tbs (s : State) (x : Stp) : (s.setStp x).tbs = s.tbs := rfl
@[simp] theorem State.setStp_stp (s : State) (x : Stp) : (s.setStp x).stp = x := rfl
@[simp] theorem State.setStp_qmx (s : State) (x : Stp) : (s.setStp x).qmx = s.qmx := rfl
@[simp] theorem State.setStp_ten (s : State) (x : Stp) : (s.setStp x).ten = s.ten := rfl
@[simp] theorem State.setStp_fns (s : State) (x : Stp) : (s.setStp x).fns = s.fns := rfl
@[simp] theorem State.setStp_map (s : State) (x : Stp) : (s.setStp x).map = s.map := rfl
@[simp] theorem State.setStp_wbf (s : State) (x : Stp) : (s.setStp x).wbf = s.wbf := rfl
@[simp] theorem State.setStp_fch (s : State) (x : Stp) : (s.setStp x).fch = s.fch := rfl
@[simp] theorem State.setStp_ldc (s : State) (x : Stp) : (s.setStp x).ldc = s.ldc := rfl
@[simp] theorem State.setStp_par (s : State) (x : Stp) : (s.setStp x).par = s.par := rfl
@[simp] theorem State.setStp_rcl (s : State) (x : Stp) : (s.setStp x).rcl = s.rcl := rfl
@[simp] theorem State.setStp_dmc (s : State) (x : Stp) : (s.setStp x).dmc = s.dmc := rfl
@[simp] theorem State.setStp_key (s : State) (x : Stp) : (s.setStp x).key = s.key := rfl
@[simp] theorem State.setStp_cip (s : State) (x : Stp) : (s.setStp x).cip = s.cip := rfl
@[simp] theorem State.setStp_staged (s : State) (x : Stp) : (s.setStp x).staged = s.staged := rfl
@[simp] theorem State.setStp_norWaits (s : State) (x : Stp) : (s.setStp x).norWaits = s.norWaits := rfl
@[simp] theorem State.setStp_hif (s : State) (x : Stp) : (s.setStp x).hif = s.hif := rfl
@[simp] theorem State.setStp_net (s : State) (x : Stp) : (s.setStp x).net = s.net := rfl
@[simp] theorem State.setStp_sbi (s : State) (x : Stp) : (s.setStp x).sbi = s.sbi := rfl
@[simp] theorem State.setStp_thm (s : State) (x : Stp) : (s.setStp x).thm = s.thm := rfl
@[simp] theorem State.setStp_hld (s : State) (x : Stp) : (s.setStp x).hld = s.hld := rfl
@[simp] theorem State.setStp_fuses (s : State) (x : Stp) : (s.setStp x).fuses = s.fuses := rfl
@[simp] theorem State.setStp_nor (s : State) (x : Stp) : (s.setStp x).nor = s.nor := rfl
@[simp] theorem State.setStp_bot (s : State) (x : Stp) : (s.setStp x).bot = s.bot := rfl
@[simp] theorem State.setStp_pins (s : State) (x : Stp) : (s.setStp x).pins = s.pins := rfl
@[simp] theorem State.setStp_evl (s : State) (x : Stp) : (s.setStp x).evl = s.evl := rfl
@[simp] theorem State.setStp_paths (s : State) (x : Stp) : (s.setStp x).paths = s.paths := rfl
@[simp] theorem State.setStp_pages (s : State) (x : Stp) : (s.setStp x).pages = s.pages := rfl
@[simp] theorem State.setStp_regs (s : State) (x : Stp) : (s.setStp x).regs = s.regs := rfl
@[simp] theorem State.setStp_cpx (s : State) (x : Stp) : (s.setStp x).cpx = s.cpx := rfl

@[simp] theorem State.setQmx_pending (s : State) (x : Qmx) : (s.setQmx x).pending = s.pending := rfl
@[simp] theorem State.setQmx_ans (s : State) (x : Qmx) : (s.setQmx x).ans = s.ans := rfl
@[simp] theorem State.setQmx_draws (s : State) (x : Qmx) : (s.setQmx x).draws = s.draws := rfl
@[simp] theorem State.setQmx_gate (s : State) (x : Qmx) : (s.setQmx x).gate = s.gate := rfl
@[simp] theorem State.setQmx_tbs (s : State) (x : Qmx) : (s.setQmx x).tbs = s.tbs := rfl
@[simp] theorem State.setQmx_stp (s : State) (x : Qmx) : (s.setQmx x).stp = s.stp := rfl
@[simp] theorem State.setQmx_qmx (s : State) (x : Qmx) : (s.setQmx x).qmx = x := rfl
@[simp] theorem State.setQmx_ten (s : State) (x : Qmx) : (s.setQmx x).ten = s.ten := rfl
@[simp] theorem State.setQmx_fns (s : State) (x : Qmx) : (s.setQmx x).fns = s.fns := rfl
@[simp] theorem State.setQmx_map (s : State) (x : Qmx) : (s.setQmx x).map = s.map := rfl
@[simp] theorem State.setQmx_wbf (s : State) (x : Qmx) : (s.setQmx x).wbf = s.wbf := rfl
@[simp] theorem State.setQmx_fch (s : State) (x : Qmx) : (s.setQmx x).fch = s.fch := rfl
@[simp] theorem State.setQmx_ldc (s : State) (x : Qmx) : (s.setQmx x).ldc = s.ldc := rfl
@[simp] theorem State.setQmx_par (s : State) (x : Qmx) : (s.setQmx x).par = s.par := rfl
@[simp] theorem State.setQmx_rcl (s : State) (x : Qmx) : (s.setQmx x).rcl = s.rcl := rfl
@[simp] theorem State.setQmx_dmc (s : State) (x : Qmx) : (s.setQmx x).dmc = s.dmc := rfl
@[simp] theorem State.setQmx_key (s : State) (x : Qmx) : (s.setQmx x).key = s.key := rfl
@[simp] theorem State.setQmx_cip (s : State) (x : Qmx) : (s.setQmx x).cip = s.cip := rfl
@[simp] theorem State.setQmx_staged (s : State) (x : Qmx) : (s.setQmx x).staged = s.staged := rfl
@[simp] theorem State.setQmx_norWaits (s : State) (x : Qmx) : (s.setQmx x).norWaits = s.norWaits := rfl
@[simp] theorem State.setQmx_hif (s : State) (x : Qmx) : (s.setQmx x).hif = s.hif := rfl
@[simp] theorem State.setQmx_net (s : State) (x : Qmx) : (s.setQmx x).net = s.net := rfl
@[simp] theorem State.setQmx_sbi (s : State) (x : Qmx) : (s.setQmx x).sbi = s.sbi := rfl
@[simp] theorem State.setQmx_thm (s : State) (x : Qmx) : (s.setQmx x).thm = s.thm := rfl
@[simp] theorem State.setQmx_hld (s : State) (x : Qmx) : (s.setQmx x).hld = s.hld := rfl
@[simp] theorem State.setQmx_fuses (s : State) (x : Qmx) : (s.setQmx x).fuses = s.fuses := rfl
@[simp] theorem State.setQmx_nor (s : State) (x : Qmx) : (s.setQmx x).nor = s.nor := rfl
@[simp] theorem State.setQmx_bot (s : State) (x : Qmx) : (s.setQmx x).bot = s.bot := rfl
@[simp] theorem State.setQmx_pins (s : State) (x : Qmx) : (s.setQmx x).pins = s.pins := rfl
@[simp] theorem State.setQmx_evl (s : State) (x : Qmx) : (s.setQmx x).evl = s.evl := rfl
@[simp] theorem State.setQmx_paths (s : State) (x : Qmx) : (s.setQmx x).paths = s.paths := rfl
@[simp] theorem State.setQmx_pages (s : State) (x : Qmx) : (s.setQmx x).pages = s.pages := rfl
@[simp] theorem State.setQmx_regs (s : State) (x : Qmx) : (s.setQmx x).regs = s.regs := rfl
@[simp] theorem State.setQmx_cpx (s : State) (x : Qmx) : (s.setQmx x).cpx = s.cpx := rfl

@[simp] theorem State.setTen_pending (s : State) (x : Ten) : (s.setTen x).pending = s.pending := rfl
@[simp] theorem State.setTen_ans (s : State) (x : Ten) : (s.setTen x).ans = s.ans := rfl
@[simp] theorem State.setTen_draws (s : State) (x : Ten) : (s.setTen x).draws = s.draws := rfl
@[simp] theorem State.setTen_gate (s : State) (x : Ten) : (s.setTen x).gate = s.gate := rfl
@[simp] theorem State.setTen_tbs (s : State) (x : Ten) : (s.setTen x).tbs = s.tbs := rfl
@[simp] theorem State.setTen_stp (s : State) (x : Ten) : (s.setTen x).stp = s.stp := rfl
@[simp] theorem State.setTen_qmx (s : State) (x : Ten) : (s.setTen x).qmx = s.qmx := rfl
@[simp] theorem State.setTen_ten (s : State) (x : Ten) : (s.setTen x).ten = x := rfl
@[simp] theorem State.setTen_fns (s : State) (x : Ten) : (s.setTen x).fns = s.fns := rfl
@[simp] theorem State.setTen_map (s : State) (x : Ten) : (s.setTen x).map = s.map := rfl
@[simp] theorem State.setTen_wbf (s : State) (x : Ten) : (s.setTen x).wbf = s.wbf := rfl
@[simp] theorem State.setTen_fch (s : State) (x : Ten) : (s.setTen x).fch = s.fch := rfl
@[simp] theorem State.setTen_ldc (s : State) (x : Ten) : (s.setTen x).ldc = s.ldc := rfl
@[simp] theorem State.setTen_par (s : State) (x : Ten) : (s.setTen x).par = s.par := rfl
@[simp] theorem State.setTen_rcl (s : State) (x : Ten) : (s.setTen x).rcl = s.rcl := rfl
@[simp] theorem State.setTen_dmc (s : State) (x : Ten) : (s.setTen x).dmc = s.dmc := rfl
@[simp] theorem State.setTen_key (s : State) (x : Ten) : (s.setTen x).key = s.key := rfl
@[simp] theorem State.setTen_cip (s : State) (x : Ten) : (s.setTen x).cip = s.cip := rfl
@[simp] theorem State.setTen_staged (s : State) (x : Ten) : (s.setTen x).staged = s.staged := rfl
@[simp] theorem State.setTen_norWaits (s : State) (x : Ten) : (s.setTen x).norWaits = s.norWaits := rfl
@[simp] theorem State.setTen_hif (s : State) (x : Ten) : (s.setTen x).hif = s.hif := rfl
@[simp] theorem State.setTen_net (s : State) (x : Ten) : (s.setTen x).net = s.net := rfl
@[simp] theorem State.setTen_sbi (s : State) (x : Ten) : (s.setTen x).sbi = s.sbi := rfl
@[simp] theorem State.setTen_thm (s : State) (x : Ten) : (s.setTen x).thm = s.thm := rfl
@[simp] theorem State.setTen_hld (s : State) (x : Ten) : (s.setTen x).hld = s.hld := rfl
@[simp] theorem State.setTen_fuses (s : State) (x : Ten) : (s.setTen x).fuses = s.fuses := rfl
@[simp] theorem State.setTen_nor (s : State) (x : Ten) : (s.setTen x).nor = s.nor := rfl
@[simp] theorem State.setTen_bot (s : State) (x : Ten) : (s.setTen x).bot = s.bot := rfl
@[simp] theorem State.setTen_pins (s : State) (x : Ten) : (s.setTen x).pins = s.pins := rfl
@[simp] theorem State.setTen_evl (s : State) (x : Ten) : (s.setTen x).evl = s.evl := rfl
@[simp] theorem State.setTen_paths (s : State) (x : Ten) : (s.setTen x).paths = s.paths := rfl
@[simp] theorem State.setTen_pages (s : State) (x : Ten) : (s.setTen x).pages = s.pages := rfl
@[simp] theorem State.setTen_regs (s : State) (x : Ten) : (s.setTen x).regs = s.regs := rfl
@[simp] theorem State.setTen_cpx (s : State) (x : Ten) : (s.setTen x).cpx = s.cpx := rfl

@[simp] theorem State.setFns_pending (s : State) (x : Tbl Fn) : (s.setFns x).pending = s.pending := rfl
@[simp] theorem State.setFns_ans (s : State) (x : Tbl Fn) : (s.setFns x).ans = s.ans := rfl
@[simp] theorem State.setFns_draws (s : State) (x : Tbl Fn) : (s.setFns x).draws = s.draws := rfl
@[simp] theorem State.setFns_gate (s : State) (x : Tbl Fn) : (s.setFns x).gate = s.gate := rfl
@[simp] theorem State.setFns_tbs (s : State) (x : Tbl Fn) : (s.setFns x).tbs = s.tbs := rfl
@[simp] theorem State.setFns_stp (s : State) (x : Tbl Fn) : (s.setFns x).stp = s.stp := rfl
@[simp] theorem State.setFns_qmx (s : State) (x : Tbl Fn) : (s.setFns x).qmx = s.qmx := rfl
@[simp] theorem State.setFns_ten (s : State) (x : Tbl Fn) : (s.setFns x).ten = s.ten := rfl
@[simp] theorem State.setFns_fns (s : State) (x : Tbl Fn) : (s.setFns x).fns = x := rfl
@[simp] theorem State.setFns_map (s : State) (x : Tbl Fn) : (s.setFns x).map = s.map := rfl
@[simp] theorem State.setFns_wbf (s : State) (x : Tbl Fn) : (s.setFns x).wbf = s.wbf := rfl
@[simp] theorem State.setFns_fch (s : State) (x : Tbl Fn) : (s.setFns x).fch = s.fch := rfl
@[simp] theorem State.setFns_ldc (s : State) (x : Tbl Fn) : (s.setFns x).ldc = s.ldc := rfl
@[simp] theorem State.setFns_par (s : State) (x : Tbl Fn) : (s.setFns x).par = s.par := rfl
@[simp] theorem State.setFns_rcl (s : State) (x : Tbl Fn) : (s.setFns x).rcl = s.rcl := rfl
@[simp] theorem State.setFns_dmc (s : State) (x : Tbl Fn) : (s.setFns x).dmc = s.dmc := rfl
@[simp] theorem State.setFns_key (s : State) (x : Tbl Fn) : (s.setFns x).key = s.key := rfl
@[simp] theorem State.setFns_cip (s : State) (x : Tbl Fn) : (s.setFns x).cip = s.cip := rfl
@[simp] theorem State.setFns_staged (s : State) (x : Tbl Fn) : (s.setFns x).staged = s.staged := rfl
@[simp] theorem State.setFns_norWaits (s : State) (x : Tbl Fn) : (s.setFns x).norWaits = s.norWaits := rfl
@[simp] theorem State.setFns_hif (s : State) (x : Tbl Fn) : (s.setFns x).hif = s.hif := rfl
@[simp] theorem State.setFns_net (s : State) (x : Tbl Fn) : (s.setFns x).net = s.net := rfl
@[simp] theorem State.setFns_sbi (s : State) (x : Tbl Fn) : (s.setFns x).sbi = s.sbi := rfl
@[simp] theorem State.setFns_thm (s : State) (x : Tbl Fn) : (s.setFns x).thm = s.thm := rfl
@[simp] theorem State.setFns_hld (s : State) (x : Tbl Fn) : (s.setFns x).hld = s.hld := rfl
@[simp] theorem State.setFns_fuses (s : State) (x : Tbl Fn) : (s.setFns x).fuses = s.fuses := rfl
@[simp] theorem State.setFns_nor (s : State) (x : Tbl Fn) : (s.setFns x).nor = s.nor := rfl
@[simp] theorem State.setFns_bot (s : State) (x : Tbl Fn) : (s.setFns x).bot = s.bot := rfl
@[simp] theorem State.setFns_pins (s : State) (x : Tbl Fn) : (s.setFns x).pins = s.pins := rfl
@[simp] theorem State.setFns_evl (s : State) (x : Tbl Fn) : (s.setFns x).evl = s.evl := rfl
@[simp] theorem State.setFns_paths (s : State) (x : Tbl Fn) : (s.setFns x).paths = s.paths := rfl
@[simp] theorem State.setFns_pages (s : State) (x : Tbl Fn) : (s.setFns x).pages = s.pages := rfl
@[simp] theorem State.setFns_regs (s : State) (x : Tbl Fn) : (s.setFns x).regs = s.regs := rfl
@[simp] theorem State.setFns_cpx (s : State) (x : Tbl Fn) : (s.setFns x).cpx = s.cpx := rfl

@[simp] theorem State.setMap_pending (s : State) (x : Map) : (s.setMap x).pending = s.pending := rfl
@[simp] theorem State.setMap_ans (s : State) (x : Map) : (s.setMap x).ans = s.ans := rfl
@[simp] theorem State.setMap_draws (s : State) (x : Map) : (s.setMap x).draws = s.draws := rfl
@[simp] theorem State.setMap_gate (s : State) (x : Map) : (s.setMap x).gate = s.gate := rfl
@[simp] theorem State.setMap_tbs (s : State) (x : Map) : (s.setMap x).tbs = s.tbs := rfl
@[simp] theorem State.setMap_stp (s : State) (x : Map) : (s.setMap x).stp = s.stp := rfl
@[simp] theorem State.setMap_qmx (s : State) (x : Map) : (s.setMap x).qmx = s.qmx := rfl
@[simp] theorem State.setMap_ten (s : State) (x : Map) : (s.setMap x).ten = s.ten := rfl
@[simp] theorem State.setMap_fns (s : State) (x : Map) : (s.setMap x).fns = s.fns := rfl
@[simp] theorem State.setMap_map (s : State) (x : Map) : (s.setMap x).map = x := rfl
@[simp] theorem State.setMap_wbf (s : State) (x : Map) : (s.setMap x).wbf = s.wbf := rfl
@[simp] theorem State.setMap_fch (s : State) (x : Map) : (s.setMap x).fch = s.fch := rfl
@[simp] theorem State.setMap_ldc (s : State) (x : Map) : (s.setMap x).ldc = s.ldc := rfl
@[simp] theorem State.setMap_par (s : State) (x : Map) : (s.setMap x).par = s.par := rfl
@[simp] theorem State.setMap_rcl (s : State) (x : Map) : (s.setMap x).rcl = s.rcl := rfl
@[simp] theorem State.setMap_dmc (s : State) (x : Map) : (s.setMap x).dmc = s.dmc := rfl
@[simp] theorem State.setMap_key (s : State) (x : Map) : (s.setMap x).key = s.key := rfl
@[simp] theorem State.setMap_cip (s : State) (x : Map) : (s.setMap x).cip = s.cip := rfl
@[simp] theorem State.setMap_staged (s : State) (x : Map) : (s.setMap x).staged = s.staged := rfl
@[simp] theorem State.setMap_norWaits (s : State) (x : Map) : (s.setMap x).norWaits = s.norWaits := rfl
@[simp] theorem State.setMap_hif (s : State) (x : Map) : (s.setMap x).hif = s.hif := rfl
@[simp] theorem State.setMap_net (s : State) (x : Map) : (s.setMap x).net = s.net := rfl
@[simp] theorem State.setMap_sbi (s : State) (x : Map) : (s.setMap x).sbi = s.sbi := rfl
@[simp] theorem State.setMap_thm (s : State) (x : Map) : (s.setMap x).thm = s.thm := rfl
@[simp] theorem State.setMap_hld (s : State) (x : Map) : (s.setMap x).hld = s.hld := rfl
@[simp] theorem State.setMap_fuses (s : State) (x : Map) : (s.setMap x).fuses = s.fuses := rfl
@[simp] theorem State.setMap_nor (s : State) (x : Map) : (s.setMap x).nor = s.nor := rfl
@[simp] theorem State.setMap_bot (s : State) (x : Map) : (s.setMap x).bot = s.bot := rfl
@[simp] theorem State.setMap_pins (s : State) (x : Map) : (s.setMap x).pins = s.pins := rfl
@[simp] theorem State.setMap_evl (s : State) (x : Map) : (s.setMap x).evl = s.evl := rfl
@[simp] theorem State.setMap_paths (s : State) (x : Map) : (s.setMap x).paths = s.paths := rfl
@[simp] theorem State.setMap_pages (s : State) (x : Map) : (s.setMap x).pages = s.pages := rfl
@[simp] theorem State.setMap_regs (s : State) (x : Map) : (s.setMap x).regs = s.regs := rfl
@[simp] theorem State.setMap_cpx (s : State) (x : Map) : (s.setMap x).cpx = s.cpx := rfl

@[simp] theorem State.setWbf_pending (s : State) (x : Wbf) : (s.setWbf x).pending = s.pending := rfl
@[simp] theorem State.setWbf_ans (s : State) (x : Wbf) : (s.setWbf x).ans = s.ans := rfl
@[simp] theorem State.setWbf_draws (s : State) (x : Wbf) : (s.setWbf x).draws = s.draws := rfl
@[simp] theorem State.setWbf_gate (s : State) (x : Wbf) : (s.setWbf x).gate = s.gate := rfl
@[simp] theorem State.setWbf_tbs (s : State) (x : Wbf) : (s.setWbf x).tbs = s.tbs := rfl
@[simp] theorem State.setWbf_stp (s : State) (x : Wbf) : (s.setWbf x).stp = s.stp := rfl
@[simp] theorem State.setWbf_qmx (s : State) (x : Wbf) : (s.setWbf x).qmx = s.qmx := rfl
@[simp] theorem State.setWbf_ten (s : State) (x : Wbf) : (s.setWbf x).ten = s.ten := rfl
@[simp] theorem State.setWbf_fns (s : State) (x : Wbf) : (s.setWbf x).fns = s.fns := rfl
@[simp] theorem State.setWbf_map (s : State) (x : Wbf) : (s.setWbf x).map = s.map := rfl
@[simp] theorem State.setWbf_wbf (s : State) (x : Wbf) : (s.setWbf x).wbf = x := rfl
@[simp] theorem State.setWbf_fch (s : State) (x : Wbf) : (s.setWbf x).fch = s.fch := rfl
@[simp] theorem State.setWbf_ldc (s : State) (x : Wbf) : (s.setWbf x).ldc = s.ldc := rfl
@[simp] theorem State.setWbf_par (s : State) (x : Wbf) : (s.setWbf x).par = s.par := rfl
@[simp] theorem State.setWbf_rcl (s : State) (x : Wbf) : (s.setWbf x).rcl = s.rcl := rfl
@[simp] theorem State.setWbf_dmc (s : State) (x : Wbf) : (s.setWbf x).dmc = s.dmc := rfl
@[simp] theorem State.setWbf_key (s : State) (x : Wbf) : (s.setWbf x).key = s.key := rfl
@[simp] theorem State.setWbf_cip (s : State) (x : Wbf) : (s.setWbf x).cip = s.cip := rfl
@[simp] theorem State.setWbf_staged (s : State) (x : Wbf) : (s.setWbf x).staged = s.staged := rfl
@[simp] theorem State.setWbf_norWaits (s : State) (x : Wbf) : (s.setWbf x).norWaits = s.norWaits := rfl
@[simp] theorem State.setWbf_hif (s : State) (x : Wbf) : (s.setWbf x).hif = s.hif := rfl
@[simp] theorem State.setWbf_net (s : State) (x : Wbf) : (s.setWbf x).net = s.net := rfl
@[simp] theorem State.setWbf_sbi (s : State) (x : Wbf) : (s.setWbf x).sbi = s.sbi := rfl
@[simp] theorem State.setWbf_thm (s : State) (x : Wbf) : (s.setWbf x).thm = s.thm := rfl
@[simp] theorem State.setWbf_hld (s : State) (x : Wbf) : (s.setWbf x).hld = s.hld := rfl
@[simp] theorem State.setWbf_fuses (s : State) (x : Wbf) : (s.setWbf x).fuses = s.fuses := rfl
@[simp] theorem State.setWbf_nor (s : State) (x : Wbf) : (s.setWbf x).nor = s.nor := rfl
@[simp] theorem State.setWbf_bot (s : State) (x : Wbf) : (s.setWbf x).bot = s.bot := rfl
@[simp] theorem State.setWbf_pins (s : State) (x : Wbf) : (s.setWbf x).pins = s.pins := rfl
@[simp] theorem State.setWbf_evl (s : State) (x : Wbf) : (s.setWbf x).evl = s.evl := rfl
@[simp] theorem State.setWbf_paths (s : State) (x : Wbf) : (s.setWbf x).paths = s.paths := rfl
@[simp] theorem State.setWbf_pages (s : State) (x : Wbf) : (s.setWbf x).pages = s.pages := rfl
@[simp] theorem State.setWbf_regs (s : State) (x : Wbf) : (s.setWbf x).regs = s.regs := rfl
@[simp] theorem State.setWbf_cpx (s : State) (x : Wbf) : (s.setWbf x).cpx = s.cpx := rfl

@[simp] theorem State.setFch_pending (s : State) (x : Fch) : (s.setFch x).pending = s.pending := rfl
@[simp] theorem State.setFch_ans (s : State) (x : Fch) : (s.setFch x).ans = s.ans := rfl
@[simp] theorem State.setFch_draws (s : State) (x : Fch) : (s.setFch x).draws = s.draws := rfl
@[simp] theorem State.setFch_gate (s : State) (x : Fch) : (s.setFch x).gate = s.gate := rfl
@[simp] theorem State.setFch_tbs (s : State) (x : Fch) : (s.setFch x).tbs = s.tbs := rfl
@[simp] theorem State.setFch_stp (s : State) (x : Fch) : (s.setFch x).stp = s.stp := rfl
@[simp] theorem State.setFch_qmx (s : State) (x : Fch) : (s.setFch x).qmx = s.qmx := rfl
@[simp] theorem State.setFch_ten (s : State) (x : Fch) : (s.setFch x).ten = s.ten := rfl
@[simp] theorem State.setFch_fns (s : State) (x : Fch) : (s.setFch x).fns = s.fns := rfl
@[simp] theorem State.setFch_map (s : State) (x : Fch) : (s.setFch x).map = s.map := rfl
@[simp] theorem State.setFch_wbf (s : State) (x : Fch) : (s.setFch x).wbf = s.wbf := rfl
@[simp] theorem State.setFch_fch (s : State) (x : Fch) : (s.setFch x).fch = x := rfl
@[simp] theorem State.setFch_ldc (s : State) (x : Fch) : (s.setFch x).ldc = s.ldc := rfl
@[simp] theorem State.setFch_par (s : State) (x : Fch) : (s.setFch x).par = s.par := rfl
@[simp] theorem State.setFch_rcl (s : State) (x : Fch) : (s.setFch x).rcl = s.rcl := rfl
@[simp] theorem State.setFch_dmc (s : State) (x : Fch) : (s.setFch x).dmc = s.dmc := rfl
@[simp] theorem State.setFch_key (s : State) (x : Fch) : (s.setFch x).key = s.key := rfl
@[simp] theorem State.setFch_cip (s : State) (x : Fch) : (s.setFch x).cip = s.cip := rfl
@[simp] theorem State.setFch_staged (s : State) (x : Fch) : (s.setFch x).staged = s.staged := rfl
@[simp] theorem State.setFch_norWaits (s : State) (x : Fch) : (s.setFch x).norWaits = s.norWaits := rfl
@[simp] theorem State.setFch_hif (s : State) (x : Fch) : (s.setFch x).hif = s.hif := rfl
@[simp] theorem State.setFch_net (s : State) (x : Fch) : (s.setFch x).net = s.net := rfl
@[simp] theorem State.setFch_sbi (s : State) (x : Fch) : (s.setFch x).sbi = s.sbi := rfl
@[simp] theorem State.setFch_thm (s : State) (x : Fch) : (s.setFch x).thm = s.thm := rfl
@[simp] theorem State.setFch_hld (s : State) (x : Fch) : (s.setFch x).hld = s.hld := rfl
@[simp] theorem State.setFch_fuses (s : State) (x : Fch) : (s.setFch x).fuses = s.fuses := rfl
@[simp] theorem State.setFch_nor (s : State) (x : Fch) : (s.setFch x).nor = s.nor := rfl
@[simp] theorem State.setFch_bot (s : State) (x : Fch) : (s.setFch x).bot = s.bot := rfl
@[simp] theorem State.setFch_pins (s : State) (x : Fch) : (s.setFch x).pins = s.pins := rfl
@[simp] theorem State.setFch_evl (s : State) (x : Fch) : (s.setFch x).evl = s.evl := rfl
@[simp] theorem State.setFch_paths (s : State) (x : Fch) : (s.setFch x).paths = s.paths := rfl
@[simp] theorem State.setFch_pages (s : State) (x : Fch) : (s.setFch x).pages = s.pages := rfl
@[simp] theorem State.setFch_regs (s : State) (x : Fch) : (s.setFch x).regs = s.regs := rfl
@[simp] theorem State.setFch_cpx (s : State) (x : Fch) : (s.setFch x).cpx = s.cpx := rfl

@[simp] theorem State.setLdc_pending (s : State) (x : Ldc) : (s.setLdc x).pending = s.pending := rfl
@[simp] theorem State.setLdc_ans (s : State) (x : Ldc) : (s.setLdc x).ans = s.ans := rfl
@[simp] theorem State.setLdc_draws (s : State) (x : Ldc) : (s.setLdc x).draws = s.draws := rfl
@[simp] theorem State.setLdc_gate (s : State) (x : Ldc) : (s.setLdc x).gate = s.gate := rfl
@[simp] theorem State.setLdc_tbs (s : State) (x : Ldc) : (s.setLdc x).tbs = s.tbs := rfl
@[simp] theorem State.setLdc_stp (s : State) (x : Ldc) : (s.setLdc x).stp = s.stp := rfl
@[simp] theorem State.setLdc_qmx (s : State) (x : Ldc) : (s.setLdc x).qmx = s.qmx := rfl
@[simp] theorem State.setLdc_ten (s : State) (x : Ldc) : (s.setLdc x).ten = s.ten := rfl
@[simp] theorem State.setLdc_fns (s : State) (x : Ldc) : (s.setLdc x).fns = s.fns := rfl
@[simp] theorem State.setLdc_map (s : State) (x : Ldc) : (s.setLdc x).map = s.map := rfl
@[simp] theorem State.setLdc_wbf (s : State) (x : Ldc) : (s.setLdc x).wbf = s.wbf := rfl
@[simp] theorem State.setLdc_fch (s : State) (x : Ldc) : (s.setLdc x).fch = s.fch := rfl
@[simp] theorem State.setLdc_ldc (s : State) (x : Ldc) : (s.setLdc x).ldc = x := rfl
@[simp] theorem State.setLdc_par (s : State) (x : Ldc) : (s.setLdc x).par = s.par := rfl
@[simp] theorem State.setLdc_rcl (s : State) (x : Ldc) : (s.setLdc x).rcl = s.rcl := rfl
@[simp] theorem State.setLdc_dmc (s : State) (x : Ldc) : (s.setLdc x).dmc = s.dmc := rfl
@[simp] theorem State.setLdc_key (s : State) (x : Ldc) : (s.setLdc x).key = s.key := rfl
@[simp] theorem State.setLdc_cip (s : State) (x : Ldc) : (s.setLdc x).cip = s.cip := rfl
@[simp] theorem State.setLdc_staged (s : State) (x : Ldc) : (s.setLdc x).staged = s.staged := rfl
@[simp] theorem State.setLdc_norWaits (s : State) (x : Ldc) : (s.setLdc x).norWaits = s.norWaits := rfl
@[simp] theorem State.setLdc_hif (s : State) (x : Ldc) : (s.setLdc x).hif = s.hif := rfl
@[simp] theorem State.setLdc_net (s : State) (x : Ldc) : (s.setLdc x).net = s.net := rfl
@[simp] theorem State.setLdc_sbi (s : State) (x : Ldc) : (s.setLdc x).sbi = s.sbi := rfl
@[simp] theorem State.setLdc_thm (s : State) (x : Ldc) : (s.setLdc x).thm = s.thm := rfl
@[simp] theorem State.setLdc_hld (s : State) (x : Ldc) : (s.setLdc x).hld = s.hld := rfl
@[simp] theorem State.setLdc_fuses (s : State) (x : Ldc) : (s.setLdc x).fuses = s.fuses := rfl
@[simp] theorem State.setLdc_nor (s : State) (x : Ldc) : (s.setLdc x).nor = s.nor := rfl
@[simp] theorem State.setLdc_bot (s : State) (x : Ldc) : (s.setLdc x).bot = s.bot := rfl
@[simp] theorem State.setLdc_pins (s : State) (x : Ldc) : (s.setLdc x).pins = s.pins := rfl
@[simp] theorem State.setLdc_evl (s : State) (x : Ldc) : (s.setLdc x).evl = s.evl := rfl
@[simp] theorem State.setLdc_paths (s : State) (x : Ldc) : (s.setLdc x).paths = s.paths := rfl
@[simp] theorem State.setLdc_pages (s : State) (x : Ldc) : (s.setLdc x).pages = s.pages := rfl
@[simp] theorem State.setLdc_regs (s : State) (x : Ldc) : (s.setLdc x).regs = s.regs := rfl
@[simp] theorem State.setLdc_cpx (s : State) (x : Ldc) : (s.setLdc x).cpx = s.cpx := rfl

@[simp] theorem State.setPar_pending (s : State) (x : Par) : (s.setPar x).pending = s.pending := rfl
@[simp] theorem State.setPar_ans (s : State) (x : Par) : (s.setPar x).ans = s.ans := rfl
@[simp] theorem State.setPar_draws (s : State) (x : Par) : (s.setPar x).draws = s.draws := rfl
@[simp] theorem State.setPar_gate (s : State) (x : Par) : (s.setPar x).gate = s.gate := rfl
@[simp] theorem State.setPar_tbs (s : State) (x : Par) : (s.setPar x).tbs = s.tbs := rfl
@[simp] theorem State.setPar_stp (s : State) (x : Par) : (s.setPar x).stp = s.stp := rfl
@[simp] theorem State.setPar_qmx (s : State) (x : Par) : (s.setPar x).qmx = s.qmx := rfl
@[simp] theorem State.setPar_ten (s : State) (x : Par) : (s.setPar x).ten = s.ten := rfl
@[simp] theorem State.setPar_fns (s : State) (x : Par) : (s.setPar x).fns = s.fns := rfl
@[simp] theorem State.setPar_map (s : State) (x : Par) : (s.setPar x).map = s.map := rfl
@[simp] theorem State.setPar_wbf (s : State) (x : Par) : (s.setPar x).wbf = s.wbf := rfl
@[simp] theorem State.setPar_fch (s : State) (x : Par) : (s.setPar x).fch = s.fch := rfl
@[simp] theorem State.setPar_ldc (s : State) (x : Par) : (s.setPar x).ldc = s.ldc := rfl
@[simp] theorem State.setPar_par (s : State) (x : Par) : (s.setPar x).par = x := rfl
@[simp] theorem State.setPar_rcl (s : State) (x : Par) : (s.setPar x).rcl = s.rcl := rfl
@[simp] theorem State.setPar_dmc (s : State) (x : Par) : (s.setPar x).dmc = s.dmc := rfl
@[simp] theorem State.setPar_key (s : State) (x : Par) : (s.setPar x).key = s.key := rfl
@[simp] theorem State.setPar_cip (s : State) (x : Par) : (s.setPar x).cip = s.cip := rfl
@[simp] theorem State.setPar_staged (s : State) (x : Par) : (s.setPar x).staged = s.staged := rfl
@[simp] theorem State.setPar_norWaits (s : State) (x : Par) : (s.setPar x).norWaits = s.norWaits := rfl
@[simp] theorem State.setPar_hif (s : State) (x : Par) : (s.setPar x).hif = s.hif := rfl
@[simp] theorem State.setPar_net (s : State) (x : Par) : (s.setPar x).net = s.net := rfl
@[simp] theorem State.setPar_sbi (s : State) (x : Par) : (s.setPar x).sbi = s.sbi := rfl
@[simp] theorem State.setPar_thm (s : State) (x : Par) : (s.setPar x).thm = s.thm := rfl
@[simp] theorem State.setPar_hld (s : State) (x : Par) : (s.setPar x).hld = s.hld := rfl
@[simp] theorem State.setPar_fuses (s : State) (x : Par) : (s.setPar x).fuses = s.fuses := rfl
@[simp] theorem State.setPar_nor (s : State) (x : Par) : (s.setPar x).nor = s.nor := rfl
@[simp] theorem State.setPar_bot (s : State) (x : Par) : (s.setPar x).bot = s.bot := rfl
@[simp] theorem State.setPar_pins (s : State) (x : Par) : (s.setPar x).pins = s.pins := rfl
@[simp] theorem State.setPar_evl (s : State) (x : Par) : (s.setPar x).evl = s.evl := rfl
@[simp] theorem State.setPar_paths (s : State) (x : Par) : (s.setPar x).paths = s.paths := rfl
@[simp] theorem State.setPar_pages (s : State) (x : Par) : (s.setPar x).pages = s.pages := rfl
@[simp] theorem State.setPar_regs (s : State) (x : Par) : (s.setPar x).regs = s.regs := rfl
@[simp] theorem State.setPar_cpx (s : State) (x : Par) : (s.setPar x).cpx = s.cpx := rfl

@[simp] theorem State.setRcl_pending (s : State) (x : Rcl) : (s.setRcl x).pending = s.pending := rfl
@[simp] theorem State.setRcl_ans (s : State) (x : Rcl) : (s.setRcl x).ans = s.ans := rfl
@[simp] theorem State.setRcl_draws (s : State) (x : Rcl) : (s.setRcl x).draws = s.draws := rfl
@[simp] theorem State.setRcl_gate (s : State) (x : Rcl) : (s.setRcl x).gate = s.gate := rfl
@[simp] theorem State.setRcl_tbs (s : State) (x : Rcl) : (s.setRcl x).tbs = s.tbs := rfl
@[simp] theorem State.setRcl_stp (s : State) (x : Rcl) : (s.setRcl x).stp = s.stp := rfl
@[simp] theorem State.setRcl_qmx (s : State) (x : Rcl) : (s.setRcl x).qmx = s.qmx := rfl
@[simp] theorem State.setRcl_ten (s : State) (x : Rcl) : (s.setRcl x).ten = s.ten := rfl
@[simp] theorem State.setRcl_fns (s : State) (x : Rcl) : (s.setRcl x).fns = s.fns := rfl
@[simp] theorem State.setRcl_map (s : State) (x : Rcl) : (s.setRcl x).map = s.map := rfl
@[simp] theorem State.setRcl_wbf (s : State) (x : Rcl) : (s.setRcl x).wbf = s.wbf := rfl
@[simp] theorem State.setRcl_fch (s : State) (x : Rcl) : (s.setRcl x).fch = s.fch := rfl
@[simp] theorem State.setRcl_ldc (s : State) (x : Rcl) : (s.setRcl x).ldc = s.ldc := rfl
@[simp] theorem State.setRcl_par (s : State) (x : Rcl) : (s.setRcl x).par = s.par := rfl
@[simp] theorem State.setRcl_rcl (s : State) (x : Rcl) : (s.setRcl x).rcl = x := rfl
@[simp] theorem State.setRcl_dmc (s : State) (x : Rcl) : (s.setRcl x).dmc = s.dmc := rfl
@[simp] theorem State.setRcl_key (s : State) (x : Rcl) : (s.setRcl x).key = s.key := rfl
@[simp] theorem State.setRcl_cip (s : State) (x : Rcl) : (s.setRcl x).cip = s.cip := rfl
@[simp] theorem State.setRcl_staged (s : State) (x : Rcl) : (s.setRcl x).staged = s.staged := rfl
@[simp] theorem State.setRcl_norWaits (s : State) (x : Rcl) : (s.setRcl x).norWaits = s.norWaits := rfl
@[simp] theorem State.setRcl_hif (s : State) (x : Rcl) : (s.setRcl x).hif = s.hif := rfl
@[simp] theorem State.setRcl_net (s : State) (x : Rcl) : (s.setRcl x).net = s.net := rfl
@[simp] theorem State.setRcl_sbi (s : State) (x : Rcl) : (s.setRcl x).sbi = s.sbi := rfl
@[simp] theorem State.setRcl_thm (s : State) (x : Rcl) : (s.setRcl x).thm = s.thm := rfl
@[simp] theorem State.setRcl_hld (s : State) (x : Rcl) : (s.setRcl x).hld = s.hld := rfl
@[simp] theorem State.setRcl_fuses (s : State) (x : Rcl) : (s.setRcl x).fuses = s.fuses := rfl
@[simp] theorem State.setRcl_nor (s : State) (x : Rcl) : (s.setRcl x).nor = s.nor := rfl
@[simp] theorem State.setRcl_bot (s : State) (x : Rcl) : (s.setRcl x).bot = s.bot := rfl
@[simp] theorem State.setRcl_pins (s : State) (x : Rcl) : (s.setRcl x).pins = s.pins := rfl
@[simp] theorem State.setRcl_evl (s : State) (x : Rcl) : (s.setRcl x).evl = s.evl := rfl
@[simp] theorem State.setRcl_paths (s : State) (x : Rcl) : (s.setRcl x).paths = s.paths := rfl
@[simp] theorem State.setRcl_pages (s : State) (x : Rcl) : (s.setRcl x).pages = s.pages := rfl
@[simp] theorem State.setRcl_regs (s : State) (x : Rcl) : (s.setRcl x).regs = s.regs := rfl
@[simp] theorem State.setRcl_cpx (s : State) (x : Rcl) : (s.setRcl x).cpx = s.cpx := rfl

@[simp] theorem State.setDmc_pending (s : State) (x : Dmc) : (s.setDmc x).pending = s.pending := rfl
@[simp] theorem State.setDmc_ans (s : State) (x : Dmc) : (s.setDmc x).ans = s.ans := rfl
@[simp] theorem State.setDmc_draws (s : State) (x : Dmc) : (s.setDmc x).draws = s.draws := rfl
@[simp] theorem State.setDmc_gate (s : State) (x : Dmc) : (s.setDmc x).gate = s.gate := rfl
@[simp] theorem State.setDmc_tbs (s : State) (x : Dmc) : (s.setDmc x).tbs = s.tbs := rfl
@[simp] theorem State.setDmc_stp (s : State) (x : Dmc) : (s.setDmc x).stp = s.stp := rfl
@[simp] theorem State.setDmc_qmx (s : State) (x : Dmc) : (s.setDmc x).qmx = s.qmx := rfl
@[simp] theorem State.setDmc_ten (s : State) (x : Dmc) : (s.setDmc x).ten = s.ten := rfl
@[simp] theorem State.setDmc_fns (s : State) (x : Dmc) : (s.setDmc x).fns = s.fns := rfl
@[simp] theorem State.setDmc_map (s : State) (x : Dmc) : (s.setDmc x).map = s.map := rfl
@[simp] theorem State.setDmc_wbf (s : State) (x : Dmc) : (s.setDmc x).wbf = s.wbf := rfl
@[simp] theorem State.setDmc_fch (s : State) (x : Dmc) : (s.setDmc x).fch = s.fch := rfl
@[simp] theorem State.setDmc_ldc (s : State) (x : Dmc) : (s.setDmc x).ldc = s.ldc := rfl
@[simp] theorem State.setDmc_par (s : State) (x : Dmc) : (s.setDmc x).par = s.par := rfl
@[simp] theorem State.setDmc_rcl (s : State) (x : Dmc) : (s.setDmc x).rcl = s.rcl := rfl
@[simp] theorem State.setDmc_dmc (s : State) (x : Dmc) : (s.setDmc x).dmc = x := rfl
@[simp] theorem State.setDmc_key (s : State) (x : Dmc) : (s.setDmc x).key = s.key := rfl
@[simp] theorem State.setDmc_cip (s : State) (x : Dmc) : (s.setDmc x).cip = s.cip := rfl
@[simp] theorem State.setDmc_staged (s : State) (x : Dmc) : (s.setDmc x).staged = s.staged := rfl
@[simp] theorem State.setDmc_norWaits (s : State) (x : Dmc) : (s.setDmc x).norWaits = s.norWaits := rfl
@[simp] theorem State.setDmc_hif (s : State) (x : Dmc) : (s.setDmc x).hif = s.hif := rfl
@[simp] theorem State.setDmc_net (s : State) (x : Dmc) : (s.setDmc x).net = s.net := rfl
@[simp] theorem State.setDmc_sbi (s : State) (x : Dmc) : (s.setDmc x).sbi = s.sbi := rfl
@[simp] theorem State.setDmc_thm (s : State) (x : Dmc) : (s.setDmc x).thm = s.thm := rfl
@[simp] theorem State.setDmc_hld (s : State) (x : Dmc) : (s.setDmc x).hld = s.hld := rfl
@[simp] theorem State.setDmc_fuses (s : State) (x : Dmc) : (s.setDmc x).fuses = s.fuses := rfl
@[simp] theorem State.setDmc_nor (s : State) (x : Dmc) : (s.setDmc x).nor = s.nor := rfl
@[simp] theorem State.setDmc_bot (s : State) (x : Dmc) : (s.setDmc x).bot = s.bot := rfl
@[simp] theorem State.setDmc_pins (s : State) (x : Dmc) : (s.setDmc x).pins = s.pins := rfl
@[simp] theorem State.setDmc_evl (s : State) (x : Dmc) : (s.setDmc x).evl = s.evl := rfl
@[simp] theorem State.setDmc_paths (s : State) (x : Dmc) : (s.setDmc x).paths = s.paths := rfl
@[simp] theorem State.setDmc_pages (s : State) (x : Dmc) : (s.setDmc x).pages = s.pages := rfl
@[simp] theorem State.setDmc_regs (s : State) (x : Dmc) : (s.setDmc x).regs = s.regs := rfl
@[simp] theorem State.setDmc_cpx (s : State) (x : Dmc) : (s.setDmc x).cpx = s.cpx := rfl

@[simp] theorem State.setKey_pending (s : State) (x : Key) : (s.setKey x).pending = s.pending := rfl
@[simp] theorem State.setKey_ans (s : State) (x : Key) : (s.setKey x).ans = s.ans := rfl
@[simp] theorem State.setKey_draws (s : State) (x : Key) : (s.setKey x).draws = s.draws := rfl
@[simp] theorem State.setKey_gate (s : State) (x : Key) : (s.setKey x).gate = s.gate := rfl
@[simp] theorem State.setKey_tbs (s : State) (x : Key) : (s.setKey x).tbs = s.tbs := rfl
@[simp] theorem State.setKey_stp (s : State) (x : Key) : (s.setKey x).stp = s.stp := rfl
@[simp] theorem State.setKey_qmx (s : State) (x : Key) : (s.setKey x).qmx = s.qmx := rfl
@[simp] theorem State.setKey_ten (s : State) (x : Key) : (s.setKey x).ten = s.ten := rfl
@[simp] theorem State.setKey_fns (s : State) (x : Key) : (s.setKey x).fns = s.fns := rfl
@[simp] theorem State.setKey_map (s : State) (x : Key) : (s.setKey x).map = s.map := rfl
@[simp] theorem State.setKey_wbf (s : State) (x : Key) : (s.setKey x).wbf = s.wbf := rfl
@[simp] theorem State.setKey_fch (s : State) (x : Key) : (s.setKey x).fch = s.fch := rfl
@[simp] theorem State.setKey_ldc (s : State) (x : Key) : (s.setKey x).ldc = s.ldc := rfl
@[simp] theorem State.setKey_par (s : State) (x : Key) : (s.setKey x).par = s.par := rfl
@[simp] theorem State.setKey_rcl (s : State) (x : Key) : (s.setKey x).rcl = s.rcl := rfl
@[simp] theorem State.setKey_dmc (s : State) (x : Key) : (s.setKey x).dmc = s.dmc := rfl
@[simp] theorem State.setKey_key (s : State) (x : Key) : (s.setKey x).key = x := rfl
@[simp] theorem State.setKey_cip (s : State) (x : Key) : (s.setKey x).cip = s.cip := rfl
@[simp] theorem State.setKey_staged (s : State) (x : Key) : (s.setKey x).staged = s.staged := rfl
@[simp] theorem State.setKey_norWaits (s : State) (x : Key) : (s.setKey x).norWaits = s.norWaits := rfl
@[simp] theorem State.setKey_hif (s : State) (x : Key) : (s.setKey x).hif = s.hif := rfl
@[simp] theorem State.setKey_net (s : State) (x : Key) : (s.setKey x).net = s.net := rfl
@[simp] theorem State.setKey_sbi (s : State) (x : Key) : (s.setKey x).sbi = s.sbi := rfl
@[simp] theorem State.setKey_thm (s : State) (x : Key) : (s.setKey x).thm = s.thm := rfl
@[simp] theorem State.setKey_hld (s : State) (x : Key) : (s.setKey x).hld = s.hld := rfl
@[simp] theorem State.setKey_fuses (s : State) (x : Key) : (s.setKey x).fuses = s.fuses := rfl
@[simp] theorem State.setKey_nor (s : State) (x : Key) : (s.setKey x).nor = s.nor := rfl
@[simp] theorem State.setKey_bot (s : State) (x : Key) : (s.setKey x).bot = s.bot := rfl
@[simp] theorem State.setKey_pins (s : State) (x : Key) : (s.setKey x).pins = s.pins := rfl
@[simp] theorem State.setKey_evl (s : State) (x : Key) : (s.setKey x).evl = s.evl := rfl
@[simp] theorem State.setKey_paths (s : State) (x : Key) : (s.setKey x).paths = s.paths := rfl
@[simp] theorem State.setKey_pages (s : State) (x : Key) : (s.setKey x).pages = s.pages := rfl
@[simp] theorem State.setKey_regs (s : State) (x : Key) : (s.setKey x).regs = s.regs := rfl
@[simp] theorem State.setKey_cpx (s : State) (x : Key) : (s.setKey x).cpx = s.cpx := rfl

@[simp] theorem State.setCip_pending (s : State) (x : Cip) : (s.setCip x).pending = s.pending := rfl
@[simp] theorem State.setCip_ans (s : State) (x : Cip) : (s.setCip x).ans = s.ans := rfl
@[simp] theorem State.setCip_draws (s : State) (x : Cip) : (s.setCip x).draws = s.draws := rfl
@[simp] theorem State.setCip_gate (s : State) (x : Cip) : (s.setCip x).gate = s.gate := rfl
@[simp] theorem State.setCip_tbs (s : State) (x : Cip) : (s.setCip x).tbs = s.tbs := rfl
@[simp] theorem State.setCip_stp (s : State) (x : Cip) : (s.setCip x).stp = s.stp := rfl
@[simp] theorem State.setCip_qmx (s : State) (x : Cip) : (s.setCip x).qmx = s.qmx := rfl
@[simp] theorem State.setCip_ten (s : State) (x : Cip) : (s.setCip x).ten = s.ten := rfl
@[simp] theorem State.setCip_fns (s : State) (x : Cip) : (s.setCip x).fns = s.fns := rfl
@[simp] theorem State.setCip_map (s : State) (x : Cip) : (s.setCip x).map = s.map := rfl
@[simp] theorem State.setCip_wbf (s : State) (x : Cip) : (s.setCip x).wbf = s.wbf := rfl
@[simp] theorem State.setCip_fch (s : State) (x : Cip) : (s.setCip x).fch = s.fch := rfl
@[simp] theorem State.setCip_ldc (s : State) (x : Cip) : (s.setCip x).ldc = s.ldc := rfl
@[simp] theorem State.setCip_par (s : State) (x : Cip) : (s.setCip x).par = s.par := rfl
@[simp] theorem State.setCip_rcl (s : State) (x : Cip) : (s.setCip x).rcl = s.rcl := rfl
@[simp] theorem State.setCip_dmc (s : State) (x : Cip) : (s.setCip x).dmc = s.dmc := rfl
@[simp] theorem State.setCip_key (s : State) (x : Cip) : (s.setCip x).key = s.key := rfl
@[simp] theorem State.setCip_cip (s : State) (x : Cip) : (s.setCip x).cip = x := rfl
@[simp] theorem State.setCip_staged (s : State) (x : Cip) : (s.setCip x).staged = s.staged := rfl
@[simp] theorem State.setCip_norWaits (s : State) (x : Cip) : (s.setCip x).norWaits = s.norWaits := rfl
@[simp] theorem State.setCip_hif (s : State) (x : Cip) : (s.setCip x).hif = s.hif := rfl
@[simp] theorem State.setCip_net (s : State) (x : Cip) : (s.setCip x).net = s.net := rfl
@[simp] theorem State.setCip_sbi (s : State) (x : Cip) : (s.setCip x).sbi = s.sbi := rfl
@[simp] theorem State.setCip_thm (s : State) (x : Cip) : (s.setCip x).thm = s.thm := rfl
@[simp] theorem State.setCip_hld (s : State) (x : Cip) : (s.setCip x).hld = s.hld := rfl
@[simp] theorem State.setCip_fuses (s : State) (x : Cip) : (s.setCip x).fuses = s.fuses := rfl
@[simp] theorem State.setCip_nor (s : State) (x : Cip) : (s.setCip x).nor = s.nor := rfl
@[simp] theorem State.setCip_bot (s : State) (x : Cip) : (s.setCip x).bot = s.bot := rfl
@[simp] theorem State.setCip_pins (s : State) (x : Cip) : (s.setCip x).pins = s.pins := rfl
@[simp] theorem State.setCip_evl (s : State) (x : Cip) : (s.setCip x).evl = s.evl := rfl
@[simp] theorem State.setCip_paths (s : State) (x : Cip) : (s.setCip x).paths = s.paths := rfl
@[simp] theorem State.setCip_pages (s : State) (x : Cip) : (s.setCip x).pages = s.pages := rfl
@[simp] theorem State.setCip_regs (s : State) (x : Cip) : (s.setCip x).regs = s.regs := rfl
@[simp] theorem State.setCip_cpx (s : State) (x : Cip) : (s.setCip x).cpx = s.cpx := rfl

@[simp] theorem State.setStaged_pending (s : State) (x : List Staged) : (s.setStaged x).pending = s.pending := rfl
@[simp] theorem State.setStaged_ans (s : State) (x : List Staged) : (s.setStaged x).ans = s.ans := rfl
@[simp] theorem State.setStaged_draws (s : State) (x : List Staged) : (s.setStaged x).draws = s.draws := rfl
@[simp] theorem State.setStaged_gate (s : State) (x : List Staged) : (s.setStaged x).gate = s.gate := rfl
@[simp] theorem State.setStaged_tbs (s : State) (x : List Staged) : (s.setStaged x).tbs = s.tbs := rfl
@[simp] theorem State.setStaged_stp (s : State) (x : List Staged) : (s.setStaged x).stp = s.stp := rfl
@[simp] theorem State.setStaged_qmx (s : State) (x : List Staged) : (s.setStaged x).qmx = s.qmx := rfl
@[simp] theorem State.setStaged_ten (s : State) (x : List Staged) : (s.setStaged x).ten = s.ten := rfl
@[simp] theorem State.setStaged_fns (s : State) (x : List Staged) : (s.setStaged x).fns = s.fns := rfl
@[simp] theorem State.setStaged_map (s : State) (x : List Staged) : (s.setStaged x).map = s.map := rfl
@[simp] theorem State.setStaged_wbf (s : State) (x : List Staged) : (s.setStaged x).wbf = s.wbf := rfl
@[simp] theorem State.setStaged_fch (s : State) (x : List Staged) : (s.setStaged x).fch = s.fch := rfl
@[simp] theorem State.setStaged_ldc (s : State) (x : List Staged) : (s.setStaged x).ldc = s.ldc := rfl
@[simp] theorem State.setStaged_par (s : State) (x : List Staged) : (s.setStaged x).par = s.par := rfl
@[simp] theorem State.setStaged_rcl (s : State) (x : List Staged) : (s.setStaged x).rcl = s.rcl := rfl
@[simp] theorem State.setStaged_dmc (s : State) (x : List Staged) : (s.setStaged x).dmc = s.dmc := rfl
@[simp] theorem State.setStaged_key (s : State) (x : List Staged) : (s.setStaged x).key = s.key := rfl
@[simp] theorem State.setStaged_cip (s : State) (x : List Staged) : (s.setStaged x).cip = s.cip := rfl
@[simp] theorem State.setStaged_staged (s : State) (x : List Staged) : (s.setStaged x).staged = x := rfl
@[simp] theorem State.setStaged_norWaits (s : State) (x : List Staged) : (s.setStaged x).norWaits = s.norWaits := rfl
@[simp] theorem State.setStaged_hif (s : State) (x : List Staged) : (s.setStaged x).hif = s.hif := rfl
@[simp] theorem State.setStaged_net (s : State) (x : List Staged) : (s.setStaged x).net = s.net := rfl
@[simp] theorem State.setStaged_sbi (s : State) (x : List Staged) : (s.setStaged x).sbi = s.sbi := rfl
@[simp] theorem State.setStaged_thm (s : State) (x : List Staged) : (s.setStaged x).thm = s.thm := rfl
@[simp] theorem State.setStaged_hld (s : State) (x : List Staged) : (s.setStaged x).hld = s.hld := rfl
@[simp] theorem State.setStaged_fuses (s : State) (x : List Staged) : (s.setStaged x).fuses = s.fuses := rfl
@[simp] theorem State.setStaged_nor (s : State) (x : List Staged) : (s.setStaged x).nor = s.nor := rfl
@[simp] theorem State.setStaged_bot (s : State) (x : List Staged) : (s.setStaged x).bot = s.bot := rfl
@[simp] theorem State.setStaged_pins (s : State) (x : List Staged) : (s.setStaged x).pins = s.pins := rfl
@[simp] theorem State.setStaged_evl (s : State) (x : List Staged) : (s.setStaged x).evl = s.evl := rfl
@[simp] theorem State.setStaged_paths (s : State) (x : List Staged) : (s.setStaged x).paths = s.paths := rfl
@[simp] theorem State.setStaged_pages (s : State) (x : List Staged) : (s.setStaged x).pages = s.pages := rfl
@[simp] theorem State.setStaged_regs (s : State) (x : List Staged) : (s.setStaged x).regs = s.regs := rfl
@[simp] theorem State.setStaged_cpx (s : State) (x : List Staged) : (s.setStaged x).cpx = s.cpx := rfl

@[simp] theorem State.setNorWaits_pending (s : State) (x : List NorWait) : (s.setNorWaits x).pending = s.pending := rfl
@[simp] theorem State.setNorWaits_ans (s : State) (x : List NorWait) : (s.setNorWaits x).ans = s.ans := rfl
@[simp] theorem State.setNorWaits_draws (s : State) (x : List NorWait) : (s.setNorWaits x).draws = s.draws := rfl
@[simp] theorem State.setNorWaits_gate (s : State) (x : List NorWait) : (s.setNorWaits x).gate = s.gate := rfl
@[simp] theorem State.setNorWaits_tbs (s : State) (x : List NorWait) : (s.setNorWaits x).tbs = s.tbs := rfl
@[simp] theorem State.setNorWaits_stp (s : State) (x : List NorWait) : (s.setNorWaits x).stp = s.stp := rfl
@[simp] theorem State.setNorWaits_qmx (s : State) (x : List NorWait) : (s.setNorWaits x).qmx = s.qmx := rfl
@[simp] theorem State.setNorWaits_ten (s : State) (x : List NorWait) : (s.setNorWaits x).ten = s.ten := rfl
@[simp] theorem State.setNorWaits_fns (s : State) (x : List NorWait) : (s.setNorWaits x).fns = s.fns := rfl
@[simp] theorem State.setNorWaits_map (s : State) (x : List NorWait) : (s.setNorWaits x).map = s.map := rfl
@[simp] theorem State.setNorWaits_wbf (s : State) (x : List NorWait) : (s.setNorWaits x).wbf = s.wbf := rfl
@[simp] theorem State.setNorWaits_fch (s : State) (x : List NorWait) : (s.setNorWaits x).fch = s.fch := rfl
@[simp] theorem State.setNorWaits_ldc (s : State) (x : List NorWait) : (s.setNorWaits x).ldc = s.ldc := rfl
@[simp] theorem State.setNorWaits_par (s : State) (x : List NorWait) : (s.setNorWaits x).par = s.par := rfl
@[simp] theorem State.setNorWaits_rcl (s : State) (x : List NorWait) : (s.setNorWaits x).rcl = s.rcl := rfl
@[simp] theorem State.setNorWaits_dmc (s : State) (x : List NorWait) : (s.setNorWaits x).dmc = s.dmc := rfl
@[simp] theorem State.setNorWaits_key (s : State) (x : List NorWait) : (s.setNorWaits x).key = s.key := rfl
@[simp] theorem State.setNorWaits_cip (s : State) (x : List NorWait) : (s.setNorWaits x).cip = s.cip := rfl
@[simp] theorem State.setNorWaits_staged (s : State) (x : List NorWait) : (s.setNorWaits x).staged = s.staged := rfl
@[simp] theorem State.setNorWaits_norWaits (s : State) (x : List NorWait) : (s.setNorWaits x).norWaits = x := rfl
@[simp] theorem State.setNorWaits_hif (s : State) (x : List NorWait) : (s.setNorWaits x).hif = s.hif := rfl
@[simp] theorem State.setNorWaits_net (s : State) (x : List NorWait) : (s.setNorWaits x).net = s.net := rfl
@[simp] theorem State.setNorWaits_sbi (s : State) (x : List NorWait) : (s.setNorWaits x).sbi = s.sbi := rfl
@[simp] theorem State.setNorWaits_thm (s : State) (x : List NorWait) : (s.setNorWaits x).thm = s.thm := rfl
@[simp] theorem State.setNorWaits_hld (s : State) (x : List NorWait) : (s.setNorWaits x).hld = s.hld := rfl
@[simp] theorem State.setNorWaits_fuses (s : State) (x : List NorWait) : (s.setNorWaits x).fuses = s.fuses := rfl
@[simp] theorem State.setNorWaits_nor (s : State) (x : List NorWait) : (s.setNorWaits x).nor = s.nor := rfl
@[simp] theorem State.setNorWaits_bot (s : State) (x : List NorWait) : (s.setNorWaits x).bot = s.bot := rfl
@[simp] theorem State.setNorWaits_pins (s : State) (x : List NorWait) : (s.setNorWaits x).pins = s.pins := rfl
@[simp] theorem State.setNorWaits_evl (s : State) (x : List NorWait) : (s.setNorWaits x).evl = s.evl := rfl
@[simp] theorem State.setNorWaits_paths (s : State) (x : List NorWait) : (s.setNorWaits x).paths = s.paths := rfl
@[simp] theorem State.setNorWaits_pages (s : State) (x : List NorWait) : (s.setNorWaits x).pages = s.pages := rfl
@[simp] theorem State.setNorWaits_regs (s : State) (x : List NorWait) : (s.setNorWaits x).regs = s.regs := rfl
@[simp] theorem State.setNorWaits_cpx (s : State) (x : List NorWait) : (s.setNorWaits x).cpx = s.cpx := rfl

@[simp] theorem State.setHif_pending (s : State) (x : Hif) : (s.setHif x).pending = s.pending := rfl
@[simp] theorem State.setHif_ans (s : State) (x : Hif) : (s.setHif x).ans = s.ans := rfl
@[simp] theorem State.setHif_draws (s : State) (x : Hif) : (s.setHif x).draws = s.draws := rfl
@[simp] theorem State.setHif_gate (s : State) (x : Hif) : (s.setHif x).gate = s.gate := rfl
@[simp] theorem State.setHif_tbs (s : State) (x : Hif) : (s.setHif x).tbs = s.tbs := rfl
@[simp] theorem State.setHif_stp (s : State) (x : Hif) : (s.setHif x).stp = s.stp := rfl
@[simp] theorem State.setHif_qmx (s : State) (x : Hif) : (s.setHif x).qmx = s.qmx := rfl
@[simp] theorem State.setHif_ten (s : State) (x : Hif) : (s.setHif x).ten = s.ten := rfl
@[simp] theorem State.setHif_fns (s : State) (x : Hif) : (s.setHif x).fns = s.fns := rfl
@[simp] theorem State.setHif_map (s : State) (x : Hif) : (s.setHif x).map = s.map := rfl
@[simp] theorem State.setHif_wbf (s : State) (x : Hif) : (s.setHif x).wbf = s.wbf := rfl
@[simp] theorem State.setHif_fch (s : State) (x : Hif) : (s.setHif x).fch = s.fch := rfl
@[simp] theorem State.setHif_ldc (s : State) (x : Hif) : (s.setHif x).ldc = s.ldc := rfl
@[simp] theorem State.setHif_par (s : State) (x : Hif) : (s.setHif x).par = s.par := rfl
@[simp] theorem State.setHif_rcl (s : State) (x : Hif) : (s.setHif x).rcl = s.rcl := rfl
@[simp] theorem State.setHif_dmc (s : State) (x : Hif) : (s.setHif x).dmc = s.dmc := rfl
@[simp] theorem State.setHif_key (s : State) (x : Hif) : (s.setHif x).key = s.key := rfl
@[simp] theorem State.setHif_cip (s : State) (x : Hif) : (s.setHif x).cip = s.cip := rfl
@[simp] theorem State.setHif_staged (s : State) (x : Hif) : (s.setHif x).staged = s.staged := rfl
@[simp] theorem State.setHif_norWaits (s : State) (x : Hif) : (s.setHif x).norWaits = s.norWaits := rfl
@[simp] theorem State.setHif_hif (s : State) (x : Hif) : (s.setHif x).hif = x := rfl
@[simp] theorem State.setHif_net (s : State) (x : Hif) : (s.setHif x).net = s.net := rfl
@[simp] theorem State.setHif_sbi (s : State) (x : Hif) : (s.setHif x).sbi = s.sbi := rfl
@[simp] theorem State.setHif_thm (s : State) (x : Hif) : (s.setHif x).thm = s.thm := rfl
@[simp] theorem State.setHif_hld (s : State) (x : Hif) : (s.setHif x).hld = s.hld := rfl
@[simp] theorem State.setHif_fuses (s : State) (x : Hif) : (s.setHif x).fuses = s.fuses := rfl
@[simp] theorem State.setHif_nor (s : State) (x : Hif) : (s.setHif x).nor = s.nor := rfl
@[simp] theorem State.setHif_bot (s : State) (x : Hif) : (s.setHif x).bot = s.bot := rfl
@[simp] theorem State.setHif_pins (s : State) (x : Hif) : (s.setHif x).pins = s.pins := rfl
@[simp] theorem State.setHif_evl (s : State) (x : Hif) : (s.setHif x).evl = s.evl := rfl
@[simp] theorem State.setHif_paths (s : State) (x : Hif) : (s.setHif x).paths = s.paths := rfl
@[simp] theorem State.setHif_pages (s : State) (x : Hif) : (s.setHif x).pages = s.pages := rfl
@[simp] theorem State.setHif_regs (s : State) (x : Hif) : (s.setHif x).regs = s.regs := rfl
@[simp] theorem State.setHif_cpx (s : State) (x : Hif) : (s.setHif x).cpx = s.cpx := rfl

@[simp] theorem State.setNet_pending (s : State) (x : Net) : (s.setNet x).pending = s.pending := rfl
@[simp] theorem State.setNet_ans (s : State) (x : Net) : (s.setNet x).ans = s.ans := rfl
@[simp] theorem State.setNet_draws (s : State) (x : Net) : (s.setNet x).draws = s.draws := rfl
@[simp] theorem State.setNet_gate (s : State) (x : Net) : (s.setNet x).gate = s.gate := rfl
@[simp] theorem State.setNet_tbs (s : State) (x : Net) : (s.setNet x).tbs = s.tbs := rfl
@[simp] theorem State.setNet_stp (s : State) (x : Net) : (s.setNet x).stp = s.stp := rfl
@[simp] theorem State.setNet_qmx (s : State) (x : Net) : (s.setNet x).qmx = s.qmx := rfl
@[simp] theorem State.setNet_ten (s : State) (x : Net) : (s.setNet x).ten = s.ten := rfl
@[simp] theorem State.setNet_fns (s : State) (x : Net) : (s.setNet x).fns = s.fns := rfl
@[simp] theorem State.setNet_map (s : State) (x : Net) : (s.setNet x).map = s.map := rfl
@[simp] theorem State.setNet_wbf (s : State) (x : Net) : (s.setNet x).wbf = s.wbf := rfl
@[simp] theorem State.setNet_fch (s : State) (x : Net) : (s.setNet x).fch = s.fch := rfl
@[simp] theorem State.setNet_ldc (s : State) (x : Net) : (s.setNet x).ldc = s.ldc := rfl
@[simp] theorem State.setNet_par (s : State) (x : Net) : (s.setNet x).par = s.par := rfl
@[simp] theorem State.setNet_rcl (s : State) (x : Net) : (s.setNet x).rcl = s.rcl := rfl
@[simp] theorem State.setNet_dmc (s : State) (x : Net) : (s.setNet x).dmc = s.dmc := rfl
@[simp] theorem State.setNet_key (s : State) (x : Net) : (s.setNet x).key = s.key := rfl
@[simp] theorem State.setNet_cip (s : State) (x : Net) : (s.setNet x).cip = s.cip := rfl
@[simp] theorem State.setNet_staged (s : State) (x : Net) : (s.setNet x).staged = s.staged := rfl
@[simp] theorem State.setNet_norWaits (s : State) (x : Net) : (s.setNet x).norWaits = s.norWaits := rfl
@[simp] theorem State.setNet_hif (s : State) (x : Net) : (s.setNet x).hif = s.hif := rfl
@[simp] theorem State.setNet_net (s : State) (x : Net) : (s.setNet x).net = x := rfl
@[simp] theorem State.setNet_sbi (s : State) (x : Net) : (s.setNet x).sbi = s.sbi := rfl
@[simp] theorem State.setNet_thm (s : State) (x : Net) : (s.setNet x).thm = s.thm := rfl
@[simp] theorem State.setNet_hld (s : State) (x : Net) : (s.setNet x).hld = s.hld := rfl
@[simp] theorem State.setNet_fuses (s : State) (x : Net) : (s.setNet x).fuses = s.fuses := rfl
@[simp] theorem State.setNet_nor (s : State) (x : Net) : (s.setNet x).nor = s.nor := rfl
@[simp] theorem State.setNet_bot (s : State) (x : Net) : (s.setNet x).bot = s.bot := rfl
@[simp] theorem State.setNet_pins (s : State) (x : Net) : (s.setNet x).pins = s.pins := rfl
@[simp] theorem State.setNet_evl (s : State) (x : Net) : (s.setNet x).evl = s.evl := rfl
@[simp] theorem State.setNet_paths (s : State) (x : Net) : (s.setNet x).paths = s.paths := rfl
@[simp] theorem State.setNet_pages (s : State) (x : Net) : (s.setNet x).pages = s.pages := rfl
@[simp] theorem State.setNet_regs (s : State) (x : Net) : (s.setNet x).regs = s.regs := rfl
@[simp] theorem State.setNet_cpx (s : State) (x : Net) : (s.setNet x).cpx = s.cpx := rfl

@[simp] theorem State.setSbi_pending (s : State) (x : Sbi) : (s.setSbi x).pending = s.pending := rfl
@[simp] theorem State.setSbi_ans (s : State) (x : Sbi) : (s.setSbi x).ans = s.ans := rfl
@[simp] theorem State.setSbi_draws (s : State) (x : Sbi) : (s.setSbi x).draws = s.draws := rfl
@[simp] theorem State.setSbi_gate (s : State) (x : Sbi) : (s.setSbi x).gate = s.gate := rfl
@[simp] theorem State.setSbi_tbs (s : State) (x : Sbi) : (s.setSbi x).tbs = s.tbs := rfl
@[simp] theorem State.setSbi_stp (s : State) (x : Sbi) : (s.setSbi x).stp = s.stp := rfl
@[simp] theorem State.setSbi_qmx (s : State) (x : Sbi) : (s.setSbi x).qmx = s.qmx := rfl
@[simp] theorem State.setSbi_ten (s : State) (x : Sbi) : (s.setSbi x).ten = s.ten := rfl
@[simp] theorem State.setSbi_fns (s : State) (x : Sbi) : (s.setSbi x).fns = s.fns := rfl
@[simp] theorem State.setSbi_map (s : State) (x : Sbi) : (s.setSbi x).map = s.map := rfl
@[simp] theorem State.setSbi_wbf (s : State) (x : Sbi) : (s.setSbi x).wbf = s.wbf := rfl
@[simp] theorem State.setSbi_fch (s : State) (x : Sbi) : (s.setSbi x).fch = s.fch := rfl
@[simp] theorem State.setSbi_ldc (s : State) (x : Sbi) : (s.setSbi x).ldc = s.ldc := rfl
@[simp] theorem State.setSbi_par (s : State) (x : Sbi) : (s.setSbi x).par = s.par := rfl
@[simp] theorem State.setSbi_rcl (s : State) (x : Sbi) : (s.setSbi x).rcl = s.rcl := rfl
@[simp] theorem State.setSbi_dmc (s : State) (x : Sbi) : (s.setSbi x).dmc = s.dmc := rfl
@[simp] theorem State.setSbi_key (s : State) (x : Sbi) : (s.setSbi x).key = s.key := rfl
@[simp] theorem State.setSbi_cip (s : State) (x : Sbi) : (s.setSbi x).cip = s.cip := rfl
@[simp] theorem State.setSbi_staged (s : State) (x : Sbi) : (s.setSbi x).staged = s.staged := rfl
@[simp] theorem State.setSbi_norWaits (s : State) (x : Sbi) : (s.setSbi x).norWaits = s.norWaits := rfl
@[simp] theorem State.setSbi_hif (s : State) (x : Sbi) : (s.setSbi x).hif = s.hif := rfl
@[simp] theorem State.setSbi_net (s : State) (x : Sbi) : (s.setSbi x).net = s.net := rfl
@[simp] theorem State.setSbi_sbi (s : State) (x : Sbi) : (s.setSbi x).sbi = x := rfl
@[simp] theorem State.setSbi_thm (s : State) (x : Sbi) : (s.setSbi x).thm = s.thm := rfl
@[simp] theorem State.setSbi_hld (s : State) (x : Sbi) : (s.setSbi x).hld = s.hld := rfl
@[simp] theorem State.setSbi_fuses (s : State) (x : Sbi) : (s.setSbi x).fuses = s.fuses := rfl
@[simp] theorem State.setSbi_nor (s : State) (x : Sbi) : (s.setSbi x).nor = s.nor := rfl
@[simp] theorem State.setSbi_bot (s : State) (x : Sbi) : (s.setSbi x).bot = s.bot := rfl
@[simp] theorem State.setSbi_pins (s : State) (x : Sbi) : (s.setSbi x).pins = s.pins := rfl
@[simp] theorem State.setSbi_evl (s : State) (x : Sbi) : (s.setSbi x).evl = s.evl := rfl
@[simp] theorem State.setSbi_paths (s : State) (x : Sbi) : (s.setSbi x).paths = s.paths := rfl
@[simp] theorem State.setSbi_pages (s : State) (x : Sbi) : (s.setSbi x).pages = s.pages := rfl
@[simp] theorem State.setSbi_regs (s : State) (x : Sbi) : (s.setSbi x).regs = s.regs := rfl
@[simp] theorem State.setSbi_cpx (s : State) (x : Sbi) : (s.setSbi x).cpx = s.cpx := rfl

@[simp] theorem State.setThm_pending (s : State) (x : Thm) : (s.setThm x).pending = s.pending := rfl
@[simp] theorem State.setThm_ans (s : State) (x : Thm) : (s.setThm x).ans = s.ans := rfl
@[simp] theorem State.setThm_draws (s : State) (x : Thm) : (s.setThm x).draws = s.draws := rfl
@[simp] theorem State.setThm_gate (s : State) (x : Thm) : (s.setThm x).gate = s.gate := rfl
@[simp] theorem State.setThm_tbs (s : State) (x : Thm) : (s.setThm x).tbs = s.tbs := rfl
@[simp] theorem State.setThm_stp (s : State) (x : Thm) : (s.setThm x).stp = s.stp := rfl
@[simp] theorem State.setThm_qmx (s : State) (x : Thm) : (s.setThm x).qmx = s.qmx := rfl
@[simp] theorem State.setThm_ten (s : State) (x : Thm) : (s.setThm x).ten = s.ten := rfl
@[simp] theorem State.setThm_fns (s : State) (x : Thm) : (s.setThm x).fns = s.fns := rfl
@[simp] theorem State.setThm_map (s : State) (x : Thm) : (s.setThm x).map = s.map := rfl
@[simp] theorem State.setThm_wbf (s : State) (x : Thm) : (s.setThm x).wbf = s.wbf := rfl
@[simp] theorem State.setThm_fch (s : State) (x : Thm) : (s.setThm x).fch = s.fch := rfl
@[simp] theorem State.setThm_ldc (s : State) (x : Thm) : (s.setThm x).ldc = s.ldc := rfl
@[simp] theorem State.setThm_par (s : State) (x : Thm) : (s.setThm x).par = s.par := rfl
@[simp] theorem State.setThm_rcl (s : State) (x : Thm) : (s.setThm x).rcl = s.rcl := rfl
@[simp] theorem State.setThm_dmc (s : State) (x : Thm) : (s.setThm x).dmc = s.dmc := rfl
@[simp] theorem State.setThm_key (s : State) (x : Thm) : (s.setThm x).key = s.key := rfl
@[simp] theorem State.setThm_cip (s : State) (x : Thm) : (s.setThm x).cip = s.cip := rfl
@[simp] theorem State.setThm_staged (s : State) (x : Thm) : (s.setThm x).staged = s.staged := rfl
@[simp] theorem State.setThm_norWaits (s : State) (x : Thm) : (s.setThm x).norWaits = s.norWaits := rfl
@[simp] theorem State.setThm_hif (s : State) (x : Thm) : (s.setThm x).hif = s.hif := rfl
@[simp] theorem State.setThm_net (s : State) (x : Thm) : (s.setThm x).net = s.net := rfl
@[simp] theorem State.setThm_sbi (s : State) (x : Thm) : (s.setThm x).sbi = s.sbi := rfl
@[simp] theorem State.setThm_thm (s : State) (x : Thm) : (s.setThm x).thm = x := rfl
@[simp] theorem State.setThm_hld (s : State) (x : Thm) : (s.setThm x).hld = s.hld := rfl
@[simp] theorem State.setThm_fuses (s : State) (x : Thm) : (s.setThm x).fuses = s.fuses := rfl
@[simp] theorem State.setThm_nor (s : State) (x : Thm) : (s.setThm x).nor = s.nor := rfl
@[simp] theorem State.setThm_bot (s : State) (x : Thm) : (s.setThm x).bot = s.bot := rfl
@[simp] theorem State.setThm_pins (s : State) (x : Thm) : (s.setThm x).pins = s.pins := rfl
@[simp] theorem State.setThm_evl (s : State) (x : Thm) : (s.setThm x).evl = s.evl := rfl
@[simp] theorem State.setThm_paths (s : State) (x : Thm) : (s.setThm x).paths = s.paths := rfl
@[simp] theorem State.setThm_pages (s : State) (x : Thm) : (s.setThm x).pages = s.pages := rfl
@[simp] theorem State.setThm_regs (s : State) (x : Thm) : (s.setThm x).regs = s.regs := rfl
@[simp] theorem State.setThm_cpx (s : State) (x : Thm) : (s.setThm x).cpx = s.cpx := rfl

@[simp] theorem State.setHld_pending (s : State) (x : Hld) : (s.setHld x).pending = s.pending := rfl
@[simp] theorem State.setHld_ans (s : State) (x : Hld) : (s.setHld x).ans = s.ans := rfl
@[simp] theorem State.setHld_draws (s : State) (x : Hld) : (s.setHld x).draws = s.draws := rfl
@[simp] theorem State.setHld_gate (s : State) (x : Hld) : (s.setHld x).gate = s.gate := rfl
@[simp] theorem State.setHld_tbs (s : State) (x : Hld) : (s.setHld x).tbs = s.tbs := rfl
@[simp] theorem State.setHld_stp (s : State) (x : Hld) : (s.setHld x).stp = s.stp := rfl
@[simp] theorem State.setHld_qmx (s : State) (x : Hld) : (s.setHld x).qmx = s.qmx := rfl
@[simp] theorem State.setHld_ten (s : State) (x : Hld) : (s.setHld x).ten = s.ten := rfl
@[simp] theorem State.setHld_fns (s : State) (x : Hld) : (s.setHld x).fns = s.fns := rfl
@[simp] theorem State.setHld_map (s : State) (x : Hld) : (s.setHld x).map = s.map := rfl
@[simp] theorem State.setHld_wbf (s : State) (x : Hld) : (s.setHld x).wbf = s.wbf := rfl
@[simp] theorem State.setHld_fch (s : State) (x : Hld) : (s.setHld x).fch = s.fch := rfl
@[simp] theorem State.setHld_ldc (s : State) (x : Hld) : (s.setHld x).ldc = s.ldc := rfl
@[simp] theorem State.setHld_par (s : State) (x : Hld) : (s.setHld x).par = s.par := rfl
@[simp] theorem State.setHld_rcl (s : State) (x : Hld) : (s.setHld x).rcl = s.rcl := rfl
@[simp] theorem State.setHld_dmc (s : State) (x : Hld) : (s.setHld x).dmc = s.dmc := rfl
@[simp] theorem State.setHld_key (s : State) (x : Hld) : (s.setHld x).key = s.key := rfl
@[simp] theorem State.setHld_cip (s : State) (x : Hld) : (s.setHld x).cip = s.cip := rfl
@[simp] theorem State.setHld_staged (s : State) (x : Hld) : (s.setHld x).staged = s.staged := rfl
@[simp] theorem State.setHld_norWaits (s : State) (x : Hld) : (s.setHld x).norWaits = s.norWaits := rfl
@[simp] theorem State.setHld_hif (s : State) (x : Hld) : (s.setHld x).hif = s.hif := rfl
@[simp] theorem State.setHld_net (s : State) (x : Hld) : (s.setHld x).net = s.net := rfl
@[simp] theorem State.setHld_sbi (s : State) (x : Hld) : (s.setHld x).sbi = s.sbi := rfl
@[simp] theorem State.setHld_thm (s : State) (x : Hld) : (s.setHld x).thm = s.thm := rfl
@[simp] theorem State.setHld_hld (s : State) (x : Hld) : (s.setHld x).hld = x := rfl
@[simp] theorem State.setHld_fuses (s : State) (x : Hld) : (s.setHld x).fuses = s.fuses := rfl
@[simp] theorem State.setHld_nor (s : State) (x : Hld) : (s.setHld x).nor = s.nor := rfl
@[simp] theorem State.setHld_bot (s : State) (x : Hld) : (s.setHld x).bot = s.bot := rfl
@[simp] theorem State.setHld_pins (s : State) (x : Hld) : (s.setHld x).pins = s.pins := rfl
@[simp] theorem State.setHld_evl (s : State) (x : Hld) : (s.setHld x).evl = s.evl := rfl
@[simp] theorem State.setHld_paths (s : State) (x : Hld) : (s.setHld x).paths = s.paths := rfl
@[simp] theorem State.setHld_pages (s : State) (x : Hld) : (s.setHld x).pages = s.pages := rfl
@[simp] theorem State.setHld_regs (s : State) (x : Hld) : (s.setHld x).regs = s.regs := rfl
@[simp] theorem State.setHld_cpx (s : State) (x : Hld) : (s.setHld x).cpx = s.cpx := rfl

@[simp] theorem State.setFuses_pending (s : State) (x : Fuses) : (s.setFuses x).pending = s.pending := rfl
@[simp] theorem State.setFuses_ans (s : State) (x : Fuses) : (s.setFuses x).ans = s.ans := rfl
@[simp] theorem State.setFuses_draws (s : State) (x : Fuses) : (s.setFuses x).draws = s.draws := rfl
@[simp] theorem State.setFuses_gate (s : State) (x : Fuses) : (s.setFuses x).gate = s.gate := rfl
@[simp] theorem State.setFuses_tbs (s : State) (x : Fuses) : (s.setFuses x).tbs = s.tbs := rfl
@[simp] theorem State.setFuses_stp (s : State) (x : Fuses) : (s.setFuses x).stp = s.stp := rfl
@[simp] theorem State.setFuses_qmx (s : State) (x : Fuses) : (s.setFuses x).qmx = s.qmx := rfl
@[simp] theorem State.setFuses_ten (s : State) (x : Fuses) : (s.setFuses x).ten = s.ten := rfl
@[simp] theorem State.setFuses_fns (s : State) (x : Fuses) : (s.setFuses x).fns = s.fns := rfl
@[simp] theorem State.setFuses_map (s : State) (x : Fuses) : (s.setFuses x).map = s.map := rfl
@[simp] theorem State.setFuses_wbf (s : State) (x : Fuses) : (s.setFuses x).wbf = s.wbf := rfl
@[simp] theorem State.setFuses_fch (s : State) (x : Fuses) : (s.setFuses x).fch = s.fch := rfl
@[simp] theorem State.setFuses_ldc (s : State) (x : Fuses) : (s.setFuses x).ldc = s.ldc := rfl
@[simp] theorem State.setFuses_par (s : State) (x : Fuses) : (s.setFuses x).par = s.par := rfl
@[simp] theorem State.setFuses_rcl (s : State) (x : Fuses) : (s.setFuses x).rcl = s.rcl := rfl
@[simp] theorem State.setFuses_dmc (s : State) (x : Fuses) : (s.setFuses x).dmc = s.dmc := rfl
@[simp] theorem State.setFuses_key (s : State) (x : Fuses) : (s.setFuses x).key = s.key := rfl
@[simp] theorem State.setFuses_cip (s : State) (x : Fuses) : (s.setFuses x).cip = s.cip := rfl
@[simp] theorem State.setFuses_staged (s : State) (x : Fuses) : (s.setFuses x).staged = s.staged := rfl
@[simp] theorem State.setFuses_norWaits (s : State) (x : Fuses) : (s.setFuses x).norWaits = s.norWaits := rfl
@[simp] theorem State.setFuses_hif (s : State) (x : Fuses) : (s.setFuses x).hif = s.hif := rfl
@[simp] theorem State.setFuses_net (s : State) (x : Fuses) : (s.setFuses x).net = s.net := rfl
@[simp] theorem State.setFuses_sbi (s : State) (x : Fuses) : (s.setFuses x).sbi = s.sbi := rfl
@[simp] theorem State.setFuses_thm (s : State) (x : Fuses) : (s.setFuses x).thm = s.thm := rfl
@[simp] theorem State.setFuses_hld (s : State) (x : Fuses) : (s.setFuses x).hld = s.hld := rfl
@[simp] theorem State.setFuses_fuses (s : State) (x : Fuses) : (s.setFuses x).fuses = x := rfl
@[simp] theorem State.setFuses_nor (s : State) (x : Fuses) : (s.setFuses x).nor = s.nor := rfl
@[simp] theorem State.setFuses_bot (s : State) (x : Fuses) : (s.setFuses x).bot = s.bot := rfl
@[simp] theorem State.setFuses_pins (s : State) (x : Fuses) : (s.setFuses x).pins = s.pins := rfl
@[simp] theorem State.setFuses_evl (s : State) (x : Fuses) : (s.setFuses x).evl = s.evl := rfl
@[simp] theorem State.setFuses_paths (s : State) (x : Fuses) : (s.setFuses x).paths = s.paths := rfl
@[simp] theorem State.setFuses_pages (s : State) (x : Fuses) : (s.setFuses x).pages = s.pages := rfl
@[simp] theorem State.setFuses_regs (s : State) (x : Fuses) : (s.setFuses x).regs = s.regs := rfl
@[simp] theorem State.setFuses_cpx (s : State) (x : Fuses) : (s.setFuses x).cpx = s.cpx := rfl

@[simp] theorem State.setNor_pending (s : State) (x : Nor) : (s.setNor x).pending = s.pending := rfl
@[simp] theorem State.setNor_ans (s : State) (x : Nor) : (s.setNor x).ans = s.ans := rfl
@[simp] theorem State.setNor_draws (s : State) (x : Nor) : (s.setNor x).draws = s.draws := rfl
@[simp] theorem State.setNor_gate (s : State) (x : Nor) : (s.setNor x).gate = s.gate := rfl
@[simp] theorem State.setNor_tbs (s : State) (x : Nor) : (s.setNor x).tbs = s.tbs := rfl
@[simp] theorem State.setNor_stp (s : State) (x : Nor) : (s.setNor x).stp = s.stp := rfl
@[simp] theorem State.setNor_qmx (s : State) (x : Nor) : (s.setNor x).qmx = s.qmx := rfl
@[simp] theorem State.setNor_ten (s : State) (x : Nor) : (s.setNor x).ten = s.ten := rfl
@[simp] theorem State.setNor_fns (s : State) (x : Nor) : (s.setNor x).fns = s.fns := rfl
@[simp] theorem State.setNor_map (s : State) (x : Nor) : (s.setNor x).map = s.map := rfl
@[simp] theorem State.setNor_wbf (s : State) (x : Nor) : (s.setNor x).wbf = s.wbf := rfl
@[simp] theorem State.setNor_fch (s : State) (x : Nor) : (s.setNor x).fch = s.fch := rfl
@[simp] theorem State.setNor_ldc (s : State) (x : Nor) : (s.setNor x).ldc = s.ldc := rfl
@[simp] theorem State.setNor_par (s : State) (x : Nor) : (s.setNor x).par = s.par := rfl
@[simp] theorem State.setNor_rcl (s : State) (x : Nor) : (s.setNor x).rcl = s.rcl := rfl
@[simp] theorem State.setNor_dmc (s : State) (x : Nor) : (s.setNor x).dmc = s.dmc := rfl
@[simp] theorem State.setNor_key (s : State) (x : Nor) : (s.setNor x).key = s.key := rfl
@[simp] theorem State.setNor_cip (s : State) (x : Nor) : (s.setNor x).cip = s.cip := rfl
@[simp] theorem State.setNor_staged (s : State) (x : Nor) : (s.setNor x).staged = s.staged := rfl
@[simp] theorem State.setNor_norWaits (s : State) (x : Nor) : (s.setNor x).norWaits = s.norWaits := rfl
@[simp] theorem State.setNor_hif (s : State) (x : Nor) : (s.setNor x).hif = s.hif := rfl
@[simp] theorem State.setNor_net (s : State) (x : Nor) : (s.setNor x).net = s.net := rfl
@[simp] theorem State.setNor_sbi (s : State) (x : Nor) : (s.setNor x).sbi = s.sbi := rfl
@[simp] theorem State.setNor_thm (s : State) (x : Nor) : (s.setNor x).thm = s.thm := rfl
@[simp] theorem State.setNor_hld (s : State) (x : Nor) : (s.setNor x).hld = s.hld := rfl
@[simp] theorem State.setNor_fuses (s : State) (x : Nor) : (s.setNor x).fuses = s.fuses := rfl
@[simp] theorem State.setNor_nor (s : State) (x : Nor) : (s.setNor x).nor = x := rfl
@[simp] theorem State.setNor_bot (s : State) (x : Nor) : (s.setNor x).bot = s.bot := rfl
@[simp] theorem State.setNor_pins (s : State) (x : Nor) : (s.setNor x).pins = s.pins := rfl
@[simp] theorem State.setNor_evl (s : State) (x : Nor) : (s.setNor x).evl = s.evl := rfl
@[simp] theorem State.setNor_paths (s : State) (x : Nor) : (s.setNor x).paths = s.paths := rfl
@[simp] theorem State.setNor_pages (s : State) (x : Nor) : (s.setNor x).pages = s.pages := rfl
@[simp] theorem State.setNor_regs (s : State) (x : Nor) : (s.setNor x).regs = s.regs := rfl
@[simp] theorem State.setNor_cpx (s : State) (x : Nor) : (s.setNor x).cpx = s.cpx := rfl

@[simp] theorem State.setBot_pending (s : State) (x : Bot) : (s.setBot x).pending = s.pending := rfl
@[simp] theorem State.setBot_ans (s : State) (x : Bot) : (s.setBot x).ans = s.ans := rfl
@[simp] theorem State.setBot_draws (s : State) (x : Bot) : (s.setBot x).draws = s.draws := rfl
@[simp] theorem State.setBot_gate (s : State) (x : Bot) : (s.setBot x).gate = s.gate := rfl
@[simp] theorem State.setBot_tbs (s : State) (x : Bot) : (s.setBot x).tbs = s.tbs := rfl
@[simp] theorem State.setBot_stp (s : State) (x : Bot) : (s.setBot x).stp = s.stp := rfl
@[simp] theorem State.setBot_qmx (s : State) (x : Bot) : (s.setBot x).qmx = s.qmx := rfl
@[simp] theorem State.setBot_ten (s : State) (x : Bot) : (s.setBot x).ten = s.ten := rfl
@[simp] theorem State.setBot_fns (s : State) (x : Bot) : (s.setBot x).fns = s.fns := rfl
@[simp] theorem State.setBot_map (s : State) (x : Bot) : (s.setBot x).map = s.map := rfl
@[simp] theorem State.setBot_wbf (s : State) (x : Bot) : (s.setBot x).wbf = s.wbf := rfl
@[simp] theorem State.setBot_fch (s : State) (x : Bot) : (s.setBot x).fch = s.fch := rfl
@[simp] theorem State.setBot_ldc (s : State) (x : Bot) : (s.setBot x).ldc = s.ldc := rfl
@[simp] theorem State.setBot_par (s : State) (x : Bot) : (s.setBot x).par = s.par := rfl
@[simp] theorem State.setBot_rcl (s : State) (x : Bot) : (s.setBot x).rcl = s.rcl := rfl
@[simp] theorem State.setBot_dmc (s : State) (x : Bot) : (s.setBot x).dmc = s.dmc := rfl
@[simp] theorem State.setBot_key (s : State) (x : Bot) : (s.setBot x).key = s.key := rfl
@[simp] theorem State.setBot_cip (s : State) (x : Bot) : (s.setBot x).cip = s.cip := rfl
@[simp] theorem State.setBot_staged (s : State) (x : Bot) : (s.setBot x).staged = s.staged := rfl
@[simp] theorem State.setBot_norWaits (s : State) (x : Bot) : (s.setBot x).norWaits = s.norWaits := rfl
@[simp] theorem State.setBot_hif (s : State) (x : Bot) : (s.setBot x).hif = s.hif := rfl
@[simp] theorem State.setBot_net (s : State) (x : Bot) : (s.setBot x).net = s.net := rfl
@[simp] theorem State.setBot_sbi (s : State) (x : Bot) : (s.setBot x).sbi = s.sbi := rfl
@[simp] theorem State.setBot_thm (s : State) (x : Bot) : (s.setBot x).thm = s.thm := rfl
@[simp] theorem State.setBot_hld (s : State) (x : Bot) : (s.setBot x).hld = s.hld := rfl
@[simp] theorem State.setBot_fuses (s : State) (x : Bot) : (s.setBot x).fuses = s.fuses := rfl
@[simp] theorem State.setBot_nor (s : State) (x : Bot) : (s.setBot x).nor = s.nor := rfl
@[simp] theorem State.setBot_bot (s : State) (x : Bot) : (s.setBot x).bot = x := rfl
@[simp] theorem State.setBot_pins (s : State) (x : Bot) : (s.setBot x).pins = s.pins := rfl
@[simp] theorem State.setBot_evl (s : State) (x : Bot) : (s.setBot x).evl = s.evl := rfl
@[simp] theorem State.setBot_paths (s : State) (x : Bot) : (s.setBot x).paths = s.paths := rfl
@[simp] theorem State.setBot_pages (s : State) (x : Bot) : (s.setBot x).pages = s.pages := rfl
@[simp] theorem State.setBot_regs (s : State) (x : Bot) : (s.setBot x).regs = s.regs := rfl
@[simp] theorem State.setBot_cpx (s : State) (x : Bot) : (s.setBot x).cpx = s.cpx := rfl

@[simp] theorem State.setPins_pending (s : State) (x : Pins) : (s.setPins x).pending = s.pending := rfl
@[simp] theorem State.setPins_ans (s : State) (x : Pins) : (s.setPins x).ans = s.ans := rfl
@[simp] theorem State.setPins_draws (s : State) (x : Pins) : (s.setPins x).draws = s.draws := rfl
@[simp] theorem State.setPins_gate (s : State) (x : Pins) : (s.setPins x).gate = s.gate := rfl
@[simp] theorem State.setPins_tbs (s : State) (x : Pins) : (s.setPins x).tbs = s.tbs := rfl
@[simp] theorem State.setPins_stp (s : State) (x : Pins) : (s.setPins x).stp = s.stp := rfl
@[simp] theorem State.setPins_qmx (s : State) (x : Pins) : (s.setPins x).qmx = s.qmx := rfl
@[simp] theorem State.setPins_ten (s : State) (x : Pins) : (s.setPins x).ten = s.ten := rfl
@[simp] theorem State.setPins_fns (s : State) (x : Pins) : (s.setPins x).fns = s.fns := rfl
@[simp] theorem State.setPins_map (s : State) (x : Pins) : (s.setPins x).map = s.map := rfl
@[simp] theorem State.setPins_wbf (s : State) (x : Pins) : (s.setPins x).wbf = s.wbf := rfl
@[simp] theorem State.setPins_fch (s : State) (x : Pins) : (s.setPins x).fch = s.fch := rfl
@[simp] theorem State.setPins_ldc (s : State) (x : Pins) : (s.setPins x).ldc = s.ldc := rfl
@[simp] theorem State.setPins_par (s : State) (x : Pins) : (s.setPins x).par = s.par := rfl
@[simp] theorem State.setPins_rcl (s : State) (x : Pins) : (s.setPins x).rcl = s.rcl := rfl
@[simp] theorem State.setPins_dmc (s : State) (x : Pins) : (s.setPins x).dmc = s.dmc := rfl
@[simp] theorem State.setPins_key (s : State) (x : Pins) : (s.setPins x).key = s.key := rfl
@[simp] theorem State.setPins_cip (s : State) (x : Pins) : (s.setPins x).cip = s.cip := rfl
@[simp] theorem State.setPins_staged (s : State) (x : Pins) : (s.setPins x).staged = s.staged := rfl
@[simp] theorem State.setPins_norWaits (s : State) (x : Pins) : (s.setPins x).norWaits = s.norWaits := rfl
@[simp] theorem State.setPins_hif (s : State) (x : Pins) : (s.setPins x).hif = s.hif := rfl
@[simp] theorem State.setPins_net (s : State) (x : Pins) : (s.setPins x).net = s.net := rfl
@[simp] theorem State.setPins_sbi (s : State) (x : Pins) : (s.setPins x).sbi = s.sbi := rfl
@[simp] theorem State.setPins_thm (s : State) (x : Pins) : (s.setPins x).thm = s.thm := rfl
@[simp] theorem State.setPins_hld (s : State) (x : Pins) : (s.setPins x).hld = s.hld := rfl
@[simp] theorem State.setPins_fuses (s : State) (x : Pins) : (s.setPins x).fuses = s.fuses := rfl
@[simp] theorem State.setPins_nor (s : State) (x : Pins) : (s.setPins x).nor = s.nor := rfl
@[simp] theorem State.setPins_bot (s : State) (x : Pins) : (s.setPins x).bot = s.bot := rfl
@[simp] theorem State.setPins_pins (s : State) (x : Pins) : (s.setPins x).pins = x := rfl
@[simp] theorem State.setPins_evl (s : State) (x : Pins) : (s.setPins x).evl = s.evl := rfl
@[simp] theorem State.setPins_paths (s : State) (x : Pins) : (s.setPins x).paths = s.paths := rfl
@[simp] theorem State.setPins_pages (s : State) (x : Pins) : (s.setPins x).pages = s.pages := rfl
@[simp] theorem State.setPins_regs (s : State) (x : Pins) : (s.setPins x).regs = s.regs := rfl
@[simp] theorem State.setPins_cpx (s : State) (x : Pins) : (s.setPins x).cpx = s.cpx := rfl

@[simp] theorem State.setEvl_pending (s : State) (x : Evl) : (s.setEvl x).pending = s.pending := rfl
@[simp] theorem State.setEvl_ans (s : State) (x : Evl) : (s.setEvl x).ans = s.ans := rfl
@[simp] theorem State.setEvl_draws (s : State) (x : Evl) : (s.setEvl x).draws = s.draws := rfl
@[simp] theorem State.setEvl_gate (s : State) (x : Evl) : (s.setEvl x).gate = s.gate := rfl
@[simp] theorem State.setEvl_tbs (s : State) (x : Evl) : (s.setEvl x).tbs = s.tbs := rfl
@[simp] theorem State.setEvl_stp (s : State) (x : Evl) : (s.setEvl x).stp = s.stp := rfl
@[simp] theorem State.setEvl_qmx (s : State) (x : Evl) : (s.setEvl x).qmx = s.qmx := rfl
@[simp] theorem State.setEvl_ten (s : State) (x : Evl) : (s.setEvl x).ten = s.ten := rfl
@[simp] theorem State.setEvl_fns (s : State) (x : Evl) : (s.setEvl x).fns = s.fns := rfl
@[simp] theorem State.setEvl_map (s : State) (x : Evl) : (s.setEvl x).map = s.map := rfl
@[simp] theorem State.setEvl_wbf (s : State) (x : Evl) : (s.setEvl x).wbf = s.wbf := rfl
@[simp] theorem State.setEvl_fch (s : State) (x : Evl) : (s.setEvl x).fch = s.fch := rfl
@[simp] theorem State.setEvl_ldc (s : State) (x : Evl) : (s.setEvl x).ldc = s.ldc := rfl
@[simp] theorem State.setEvl_par (s : State) (x : Evl) : (s.setEvl x).par = s.par := rfl
@[simp] theorem State.setEvl_rcl (s : State) (x : Evl) : (s.setEvl x).rcl = s.rcl := rfl
@[simp] theorem State.setEvl_dmc (s : State) (x : Evl) : (s.setEvl x).dmc = s.dmc := rfl
@[simp] theorem State.setEvl_key (s : State) (x : Evl) : (s.setEvl x).key = s.key := rfl
@[simp] theorem State.setEvl_cip (s : State) (x : Evl) : (s.setEvl x).cip = s.cip := rfl
@[simp] theorem State.setEvl_staged (s : State) (x : Evl) : (s.setEvl x).staged = s.staged := rfl
@[simp] theorem State.setEvl_norWaits (s : State) (x : Evl) : (s.setEvl x).norWaits = s.norWaits := rfl
@[simp] theorem State.setEvl_hif (s : State) (x : Evl) : (s.setEvl x).hif = s.hif := rfl
@[simp] theorem State.setEvl_net (s : State) (x : Evl) : (s.setEvl x).net = s.net := rfl
@[simp] theorem State.setEvl_sbi (s : State) (x : Evl) : (s.setEvl x).sbi = s.sbi := rfl
@[simp] theorem State.setEvl_thm (s : State) (x : Evl) : (s.setEvl x).thm = s.thm := rfl
@[simp] theorem State.setEvl_hld (s : State) (x : Evl) : (s.setEvl x).hld = s.hld := rfl
@[simp] theorem State.setEvl_fuses (s : State) (x : Evl) : (s.setEvl x).fuses = s.fuses := rfl
@[simp] theorem State.setEvl_nor (s : State) (x : Evl) : (s.setEvl x).nor = s.nor := rfl
@[simp] theorem State.setEvl_bot (s : State) (x : Evl) : (s.setEvl x).bot = s.bot := rfl
@[simp] theorem State.setEvl_pins (s : State) (x : Evl) : (s.setEvl x).pins = s.pins := rfl
@[simp] theorem State.setEvl_evl (s : State) (x : Evl) : (s.setEvl x).evl = x := rfl
@[simp] theorem State.setEvl_paths (s : State) (x : Evl) : (s.setEvl x).paths = s.paths := rfl
@[simp] theorem State.setEvl_pages (s : State) (x : Evl) : (s.setEvl x).pages = s.pages := rfl
@[simp] theorem State.setEvl_regs (s : State) (x : Evl) : (s.setEvl x).regs = s.regs := rfl
@[simp] theorem State.setEvl_cpx (s : State) (x : Evl) : (s.setEvl x).cpx = s.cpx := rfl

@[simp] theorem State.setPaths_pending (s : State) (x : Tbl PathState) : (s.setPaths x).pending = s.pending := rfl
@[simp] theorem State.setPaths_ans (s : State) (x : Tbl PathState) : (s.setPaths x).ans = s.ans := rfl
@[simp] theorem State.setPaths_draws (s : State) (x : Tbl PathState) : (s.setPaths x).draws = s.draws := rfl
@[simp] theorem State.setPaths_gate (s : State) (x : Tbl PathState) : (s.setPaths x).gate = s.gate := rfl
@[simp] theorem State.setPaths_tbs (s : State) (x : Tbl PathState) : (s.setPaths x).tbs = s.tbs := rfl
@[simp] theorem State.setPaths_stp (s : State) (x : Tbl PathState) : (s.setPaths x).stp = s.stp := rfl
@[simp] theorem State.setPaths_qmx (s : State) (x : Tbl PathState) : (s.setPaths x).qmx = s.qmx := rfl
@[simp] theorem State.setPaths_ten (s : State) (x : Tbl PathState) : (s.setPaths x).ten = s.ten := rfl
@[simp] theorem State.setPaths_fns (s : State) (x : Tbl PathState) : (s.setPaths x).fns = s.fns := rfl
@[simp] theorem State.setPaths_map (s : State) (x : Tbl PathState) : (s.setPaths x).map = s.map := rfl
@[simp] theorem State.setPaths_wbf (s : State) (x : Tbl PathState) : (s.setPaths x).wbf = s.wbf := rfl
@[simp] theorem State.setPaths_fch (s : State) (x : Tbl PathState) : (s.setPaths x).fch = s.fch := rfl
@[simp] theorem State.setPaths_ldc (s : State) (x : Tbl PathState) : (s.setPaths x).ldc = s.ldc := rfl
@[simp] theorem State.setPaths_par (s : State) (x : Tbl PathState) : (s.setPaths x).par = s.par := rfl
@[simp] theorem State.setPaths_rcl (s : State) (x : Tbl PathState) : (s.setPaths x).rcl = s.rcl := rfl
@[simp] theorem State.setPaths_dmc (s : State) (x : Tbl PathState) : (s.setPaths x).dmc = s.dmc := rfl
@[simp] theorem State.setPaths_key (s : State) (x : Tbl PathState) : (s.setPaths x).key = s.key := rfl
@[simp] theorem State.setPaths_cip (s : State) (x : Tbl PathState) : (s.setPaths x).cip = s.cip := rfl
@[simp] theorem State.setPaths_staged (s : State) (x : Tbl PathState) : (s.setPaths x).staged = s.staged := rfl
@[simp] theorem State.setPaths_norWaits (s : State) (x : Tbl PathState) : (s.setPaths x).norWaits = s.norWaits := rfl
@[simp] theorem State.setPaths_hif (s : State) (x : Tbl PathState) : (s.setPaths x).hif = s.hif := rfl
@[simp] theorem State.setPaths_net (s : State) (x : Tbl PathState) : (s.setPaths x).net = s.net := rfl
@[simp] theorem State.setPaths_sbi (s : State) (x : Tbl PathState) : (s.setPaths x).sbi = s.sbi := rfl
@[simp] theorem State.setPaths_thm (s : State) (x : Tbl PathState) : (s.setPaths x).thm = s.thm := rfl
@[simp] theorem State.setPaths_hld (s : State) (x : Tbl PathState) : (s.setPaths x).hld = s.hld := rfl
@[simp] theorem State.setPaths_fuses (s : State) (x : Tbl PathState) : (s.setPaths x).fuses = s.fuses := rfl
@[simp] theorem State.setPaths_nor (s : State) (x : Tbl PathState) : (s.setPaths x).nor = s.nor := rfl
@[simp] theorem State.setPaths_bot (s : State) (x : Tbl PathState) : (s.setPaths x).bot = s.bot := rfl
@[simp] theorem State.setPaths_pins (s : State) (x : Tbl PathState) : (s.setPaths x).pins = s.pins := rfl
@[simp] theorem State.setPaths_evl (s : State) (x : Tbl PathState) : (s.setPaths x).evl = s.evl := rfl
@[simp] theorem State.setPaths_paths (s : State) (x : Tbl PathState) : (s.setPaths x).paths = x := rfl
@[simp] theorem State.setPaths_pages (s : State) (x : Tbl PathState) : (s.setPaths x).pages = s.pages := rfl
@[simp] theorem State.setPaths_regs (s : State) (x : Tbl PathState) : (s.setPaths x).regs = s.regs := rfl
@[simp] theorem State.setPaths_cpx (s : State) (x : Tbl PathState) : (s.setPaths x).cpx = s.cpx := rfl

@[simp] theorem State.setPages_pending (s : State) (x : Tbl Page) : (s.setPages x).pending = s.pending := rfl
@[simp] theorem State.setPages_ans (s : State) (x : Tbl Page) : (s.setPages x).ans = s.ans := rfl
@[simp] theorem State.setPages_draws (s : State) (x : Tbl Page) : (s.setPages x).draws = s.draws := rfl
@[simp] theorem State.setPages_gate (s : State) (x : Tbl Page) : (s.setPages x).gate = s.gate := rfl
@[simp] theorem State.setPages_tbs (s : State) (x : Tbl Page) : (s.setPages x).tbs = s.tbs := rfl
@[simp] theorem State.setPages_stp (s : State) (x : Tbl Page) : (s.setPages x).stp = s.stp := rfl
@[simp] theorem State.setPages_qmx (s : State) (x : Tbl Page) : (s.setPages x).qmx = s.qmx := rfl
@[simp] theorem State.setPages_ten (s : State) (x : Tbl Page) : (s.setPages x).ten = s.ten := rfl
@[simp] theorem State.setPages_fns (s : State) (x : Tbl Page) : (s.setPages x).fns = s.fns := rfl
@[simp] theorem State.setPages_map (s : State) (x : Tbl Page) : (s.setPages x).map = s.map := rfl
@[simp] theorem State.setPages_wbf (s : State) (x : Tbl Page) : (s.setPages x).wbf = s.wbf := rfl
@[simp] theorem State.setPages_fch (s : State) (x : Tbl Page) : (s.setPages x).fch = s.fch := rfl
@[simp] theorem State.setPages_ldc (s : State) (x : Tbl Page) : (s.setPages x).ldc = s.ldc := rfl
@[simp] theorem State.setPages_par (s : State) (x : Tbl Page) : (s.setPages x).par = s.par := rfl
@[simp] theorem State.setPages_rcl (s : State) (x : Tbl Page) : (s.setPages x).rcl = s.rcl := rfl
@[simp] theorem State.setPages_dmc (s : State) (x : Tbl Page) : (s.setPages x).dmc = s.dmc := rfl
@[simp] theorem State.setPages_key (s : State) (x : Tbl Page) : (s.setPages x).key = s.key := rfl
@[simp] theorem State.setPages_cip (s : State) (x : Tbl Page) : (s.setPages x).cip = s.cip := rfl
@[simp] theorem State.setPages_staged (s : State) (x : Tbl Page) : (s.setPages x).staged = s.staged := rfl
@[simp] theorem State.setPages_norWaits (s : State) (x : Tbl Page) : (s.setPages x).norWaits = s.norWaits := rfl
@[simp] theorem State.setPages_hif (s : State) (x : Tbl Page) : (s.setPages x).hif = s.hif := rfl
@[simp] theorem State.setPages_net (s : State) (x : Tbl Page) : (s.setPages x).net = s.net := rfl
@[simp] theorem State.setPages_sbi (s : State) (x : Tbl Page) : (s.setPages x).sbi = s.sbi := rfl
@[simp] theorem State.setPages_thm (s : State) (x : Tbl Page) : (s.setPages x).thm = s.thm := rfl
@[simp] theorem State.setPages_hld (s : State) (x : Tbl Page) : (s.setPages x).hld = s.hld := rfl
@[simp] theorem State.setPages_fuses (s : State) (x : Tbl Page) : (s.setPages x).fuses = s.fuses := rfl
@[simp] theorem State.setPages_nor (s : State) (x : Tbl Page) : (s.setPages x).nor = s.nor := rfl
@[simp] theorem State.setPages_bot (s : State) (x : Tbl Page) : (s.setPages x).bot = s.bot := rfl
@[simp] theorem State.setPages_pins (s : State) (x : Tbl Page) : (s.setPages x).pins = s.pins := rfl
@[simp] theorem State.setPages_evl (s : State) (x : Tbl Page) : (s.setPages x).evl = s.evl := rfl
@[simp] theorem State.setPages_paths (s : State) (x : Tbl Page) : (s.setPages x).paths = s.paths := rfl
@[simp] theorem State.setPages_pages (s : State) (x : Tbl Page) : (s.setPages x).pages = x := rfl
@[simp] theorem State.setPages_regs (s : State) (x : Tbl Page) : (s.setPages x).regs = s.regs := rfl
@[simp] theorem State.setPages_cpx (s : State) (x : Tbl Page) : (s.setPages x).cpx = s.cpx := rfl

@[simp] theorem State.setRegs_pending (s : State) (x : Tbl Nat) : (s.setRegs x).pending = s.pending := rfl
@[simp] theorem State.setRegs_ans (s : State) (x : Tbl Nat) : (s.setRegs x).ans = s.ans := rfl
@[simp] theorem State.setRegs_draws (s : State) (x : Tbl Nat) : (s.setRegs x).draws = s.draws := rfl
@[simp] theorem State.setRegs_gate (s : State) (x : Tbl Nat) : (s.setRegs x).gate = s.gate := rfl
@[simp] theorem State.setRegs_tbs (s : State) (x : Tbl Nat) : (s.setRegs x).tbs = s.tbs := rfl
@[simp] theorem State.setRegs_stp (s : State) (x : Tbl Nat) : (s.setRegs x).stp = s.stp := rfl
@[simp] theorem State.setRegs_qmx (s : State) (x : Tbl Nat) : (s.setRegs x).qmx = s.qmx := rfl
@[simp] theorem State.setRegs_ten (s : State) (x : Tbl Nat) : (s.setRegs x).ten = s.ten := rfl
@[simp] theorem State.setRegs_fns (s : State) (x : Tbl Nat) : (s.setRegs x).fns = s.fns := rfl
@[simp] theorem State.setRegs_map (s : State) (x : Tbl Nat) : (s.setRegs x).map = s.map := rfl
@[simp] theorem State.setRegs_wbf (s : State) (x : Tbl Nat) : (s.setRegs x).wbf = s.wbf := rfl
@[simp] theorem State.setRegs_fch (s : State) (x : Tbl Nat) : (s.setRegs x).fch = s.fch := rfl
@[simp] theorem State.setRegs_ldc (s : State) (x : Tbl Nat) : (s.setRegs x).ldc = s.ldc := rfl
@[simp] theorem State.setRegs_par (s : State) (x : Tbl Nat) : (s.setRegs x).par = s.par := rfl
@[simp] theorem State.setRegs_rcl (s : State) (x : Tbl Nat) : (s.setRegs x).rcl = s.rcl := rfl
@[simp] theorem State.setRegs_dmc (s : State) (x : Tbl Nat) : (s.setRegs x).dmc = s.dmc := rfl
@[simp] theorem State.setRegs_key (s : State) (x : Tbl Nat) : (s.setRegs x).key = s.key := rfl
@[simp] theorem State.setRegs_cip (s : State) (x : Tbl Nat) : (s.setRegs x).cip = s.cip := rfl
@[simp] theorem State.setRegs_staged (s : State) (x : Tbl Nat) : (s.setRegs x).staged = s.staged := rfl
@[simp] theorem State.setRegs_norWaits (s : State) (x : Tbl Nat) : (s.setRegs x).norWaits = s.norWaits := rfl
@[simp] theorem State.setRegs_hif (s : State) (x : Tbl Nat) : (s.setRegs x).hif = s.hif := rfl
@[simp] theorem State.setRegs_net (s : State) (x : Tbl Nat) : (s.setRegs x).net = s.net := rfl
@[simp] theorem State.setRegs_sbi (s : State) (x : Tbl Nat) : (s.setRegs x).sbi = s.sbi := rfl
@[simp] theorem State.setRegs_thm (s : State) (x : Tbl Nat) : (s.setRegs x).thm = s.thm := rfl
@[simp] theorem State.setRegs_hld (s : State) (x : Tbl Nat) : (s.setRegs x).hld = s.hld := rfl
@[simp] theorem State.setRegs_fuses (s : State) (x : Tbl Nat) : (s.setRegs x).fuses = s.fuses := rfl
@[simp] theorem State.setRegs_nor (s : State) (x : Tbl Nat) : (s.setRegs x).nor = s.nor := rfl
@[simp] theorem State.setRegs_bot (s : State) (x : Tbl Nat) : (s.setRegs x).bot = s.bot := rfl
@[simp] theorem State.setRegs_pins (s : State) (x : Tbl Nat) : (s.setRegs x).pins = s.pins := rfl
@[simp] theorem State.setRegs_evl (s : State) (x : Tbl Nat) : (s.setRegs x).evl = s.evl := rfl
@[simp] theorem State.setRegs_paths (s : State) (x : Tbl Nat) : (s.setRegs x).paths = s.paths := rfl
@[simp] theorem State.setRegs_pages (s : State) (x : Tbl Nat) : (s.setRegs x).pages = s.pages := rfl
@[simp] theorem State.setRegs_regs (s : State) (x : Tbl Nat) : (s.setRegs x).regs = x := rfl
@[simp] theorem State.setRegs_cpx (s : State) (x : Tbl Nat) : (s.setRegs x).cpx = s.cpx := rfl

@[simp] theorem State.setCpx_pending (s : State) (x : Cpx) : (s.setCpx x).pending = s.pending := rfl
@[simp] theorem State.setCpx_ans (s : State) (x : Cpx) : (s.setCpx x).ans = s.ans := rfl
@[simp] theorem State.setCpx_draws (s : State) (x : Cpx) : (s.setCpx x).draws = s.draws := rfl
@[simp] theorem State.setCpx_gate (s : State) (x : Cpx) : (s.setCpx x).gate = s.gate := rfl
@[simp] theorem State.setCpx_tbs (s : State) (x : Cpx) : (s.setCpx x).tbs = s.tbs := rfl
@[simp] theorem State.setCpx_stp (s : State) (x : Cpx) : (s.setCpx x).stp = s.stp := rfl
@[simp] theorem State.setCpx_qmx (s : State) (x : Cpx) : (s.setCpx x).qmx = s.qmx := rfl
@[simp] theorem State.setCpx_ten (s : State) (x : Cpx) : (s.setCpx x).ten = s.ten := rfl
@[simp] theorem State.setCpx_fns (s : State) (x : Cpx) : (s.setCpx x).fns = s.fns := rfl
@[simp] theorem State.setCpx_map (s : State) (x : Cpx) : (s.setCpx x).map = s.map := rfl
@[simp] theorem State.setCpx_wbf (s : State) (x : Cpx) : (s.setCpx x).wbf = s.wbf := rfl
@[simp] theorem State.setCpx_fch (s : State) (x : Cpx) : (s.setCpx x).fch = s.fch := rfl
@[simp] theorem State.setCpx_ldc (s : State) (x : Cpx) : (s.setCpx x).ldc = s.ldc := rfl
@[simp] theorem State.setCpx_par (s : State) (x : Cpx) : (s.setCpx x).par = s.par := rfl
@[simp] theorem State.setCpx_rcl (s : State) (x : Cpx) : (s.setCpx x).rcl = s.rcl := rfl
@[simp] theorem State.setCpx_dmc (s : State) (x : Cpx) : (s.setCpx x).dmc = s.dmc := rfl
@[simp] theorem State.setCpx_key (s : State) (x : Cpx) : (s.setCpx x).key = s.key := rfl
@[simp] theorem State.setCpx_cip (s : State) (x : Cpx) : (s.setCpx x).cip = s.cip := rfl
@[simp] theorem State.setCpx_staged (s : State) (x : Cpx) : (s.setCpx x).staged = s.staged := rfl
@[simp] theorem State.setCpx_norWaits (s : State) (x : Cpx) : (s.setCpx x).norWaits = s.norWaits := rfl
@[simp] theorem State.setCpx_hif (s : State) (x : Cpx) : (s.setCpx x).hif = s.hif := rfl
@[simp] theorem State.setCpx_net (s : State) (x : Cpx) : (s.setCpx x).net = s.net := rfl
@[simp] theorem State.setCpx_sbi (s : State) (x : Cpx) : (s.setCpx x).sbi = s.sbi := rfl
@[simp] theorem State.setCpx_thm (s : State) (x : Cpx) : (s.setCpx x).thm = s.thm := rfl
@[simp] theorem State.setCpx_hld (s : State) (x : Cpx) : (s.setCpx x).hld = s.hld := rfl
@[simp] theorem State.setCpx_fuses (s : State) (x : Cpx) : (s.setCpx x).fuses = s.fuses := rfl
@[simp] theorem State.setCpx_nor (s : State) (x : Cpx) : (s.setCpx x).nor = s.nor := rfl
@[simp] theorem State.setCpx_bot (s : State) (x : Cpx) : (s.setCpx x).bot = s.bot := rfl
@[simp] theorem State.setCpx_pins (s : State) (x : Cpx) : (s.setCpx x).pins = s.pins := rfl
@[simp] theorem State.setCpx_evl (s : State) (x : Cpx) : (s.setCpx x).evl = s.evl := rfl
@[simp] theorem State.setCpx_paths (s : State) (x : Cpx) : (s.setCpx x).paths = s.paths := rfl
@[simp] theorem State.setCpx_pages (s : State) (x : Cpx) : (s.setCpx x).pages = s.pages := rfl
@[simp] theorem State.setCpx_regs (s : State) (x : Cpx) : (s.setCpx x).regs = s.regs := rfl
@[simp] theorem State.setCpx_cpx (s : State) (x : Cpx) : (s.setCpx x).cpx = x := rfl

/-! ## Shared operations -/

@[simp] theorem State.wrBank_pending (s : State) (f : Fld) (k b v : Nat) : (State.wrBank s f k b v).pending = s.pending :=
  (State.wrBank_frame (List.Subset.refl _) (Frame.refl _ _)).pending_eq
@[simp] theorem State.wrBank_ans (s : State) (f : Fld) (k b v : Nat) : (State.wrBank s f k b v).ans = s.ans :=
  (State.wrBank_frame (List.Subset.refl _) (Frame.refl _ _)).ans_eq
@[simp] theorem State.wrBank_draws (s : State) (f : Fld) (k b v : Nat) : (State.wrBank s f k b v).draws = s.draws :=
  (State.wrBank_frame (List.Subset.refl _) (Frame.refl _ _)).draws_eq
@[simp] theorem State.wrBank_gate (s : State) (f : Fld) (k b v : Nat) : (State.wrBank s f k b v).gate = s.gate :=
  (State.wrBank_frame (List.Subset.refl _) (Frame.refl _ _)).gate_eq
@[simp] theorem State.wrBank_tbs (s : State) (f : Fld) (k b v : Nat) : (State.wrBank s f k b v).tbs = s.tbs :=
  (State.wrBank_frame (List.Subset.refl _) (Frame.refl _ _)).tbs_eq
@[simp] theorem State.wrBank_stp (s : State) (f : Fld) (k b v : Nat) : (State.wrBank s f k b v).stp = s.stp :=
  (State.wrBank_frame (List.Subset.refl _) (Frame.refl _ _)).stp_eq
@[simp] theorem State.wrBank_qmx (s : State) (f : Fld) (k b v : Nat) : (State.wrBank s f k b v).qmx = s.qmx :=
  (State.wrBank_frame (List.Subset.refl _) (Frame.refl _ _)).qmx_eq
@[simp] theorem State.wrBank_ten (s : State) (f : Fld) (k b v : Nat) : (State.wrBank s f k b v).ten = s.ten :=
  (State.wrBank_frame (List.Subset.refl _) (Frame.refl _ _)).ten_eq
@[simp] theorem State.wrBank_fns (s : State) (f : Fld) (k b v : Nat) : (State.wrBank s f k b v).fns = s.fns :=
  (State.wrBank_frame (List.Subset.refl _) (Frame.refl _ _)).fns_eq
@[simp] theorem State.wrBank_map (s : State) (f : Fld) (k b v : Nat) : (State.wrBank s f k b v).map = s.map :=
  (State.wrBank_frame (List.Subset.refl _) (Frame.refl _ _)).map_eq
@[simp] theorem State.wrBank_wbf (s : State) (f : Fld) (k b v : Nat) : (State.wrBank s f k b v).wbf = s.wbf :=
  (State.wrBank_frame (List.Subset.refl _) (Frame.refl _ _)).wbf_eq
@[simp] theorem State.wrBank_fch (s : State) (f : Fld) (k b v : Nat) : (State.wrBank s f k b v).fch = s.fch :=
  (State.wrBank_frame (List.Subset.refl _) (Frame.refl _ _)).fch_eq
@[simp] theorem State.wrBank_ldc (s : State) (f : Fld) (k b v : Nat) : (State.wrBank s f k b v).ldc = s.ldc :=
  (State.wrBank_frame (List.Subset.refl _) (Frame.refl _ _)).ldc_eq
@[simp] theorem State.wrBank_par (s : State) (f : Fld) (k b v : Nat) : (State.wrBank s f k b v).par = s.par :=
  (State.wrBank_frame (List.Subset.refl _) (Frame.refl _ _)).par_eq
@[simp] theorem State.wrBank_rcl (s : State) (f : Fld) (k b v : Nat) : (State.wrBank s f k b v).rcl = s.rcl :=
  (State.wrBank_frame (List.Subset.refl _) (Frame.refl _ _)).rcl_eq
@[simp] theorem State.wrBank_dmc (s : State) (f : Fld) (k b v : Nat) : (State.wrBank s f k b v).dmc = s.dmc :=
  (State.wrBank_frame (List.Subset.refl _) (Frame.refl _ _)).dmc_eq
@[simp] theorem State.wrBank_key (s : State) (f : Fld) (k b v : Nat) : (State.wrBank s f k b v).key = s.key :=
  (State.wrBank_frame (List.Subset.refl _) (Frame.refl _ _)).key_eq
@[simp] theorem State.wrBank_cip (s : State) (f : Fld) (k b v : Nat) : (State.wrBank s f k b v).cip = s.cip :=
  (State.wrBank_frame (List.Subset.refl _) (Frame.refl _ _)).cip_eq
@[simp] theorem State.wrBank_staged (s : State) (f : Fld) (k b v : Nat) : (State.wrBank s f k b v).staged = s.staged :=
  (State.wrBank_frame (List.Subset.refl _) (Frame.refl _ _)).staged_eq
@[simp] theorem State.wrBank_norWaits (s : State) (f : Fld) (k b v : Nat) : (State.wrBank s f k b v).norWaits = s.norWaits :=
  (State.wrBank_frame (List.Subset.refl _) (Frame.refl _ _)).norWaits_eq
@[simp] theorem State.wrBank_hif (s : State) (f : Fld) (k b v : Nat) : (State.wrBank s f k b v).hif = s.hif :=
  (State.wrBank_frame (List.Subset.refl _) (Frame.refl _ _)).hif_eq
@[simp] theorem State.wrBank_net (s : State) (f : Fld) (k b v : Nat) : (State.wrBank s f k b v).net = s.net :=
  (State.wrBank_frame (List.Subset.refl _) (Frame.refl _ _)).net_eq
@[simp] theorem State.wrBank_sbi (s : State) (f : Fld) (k b v : Nat) : (State.wrBank s f k b v).sbi = s.sbi :=
  (State.wrBank_frame (List.Subset.refl _) (Frame.refl _ _)).sbi_eq
@[simp] theorem State.wrBank_thm (s : State) (f : Fld) (k b v : Nat) : (State.wrBank s f k b v).thm = s.thm :=
  (State.wrBank_frame (List.Subset.refl _) (Frame.refl _ _)).thm_eq
@[simp] theorem State.wrBank_hld (s : State) (f : Fld) (k b v : Nat) : (State.wrBank s f k b v).hld = s.hld :=
  (State.wrBank_frame (List.Subset.refl _) (Frame.refl _ _)).hld_eq
@[simp] theorem State.wrBank_fuses (s : State) (f : Fld) (k b v : Nat) : (State.wrBank s f k b v).fuses = s.fuses :=
  (State.wrBank_frame (List.Subset.refl _) (Frame.refl _ _)).fuses_eq
@[simp] theorem State.wrBank_nor (s : State) (f : Fld) (k b v : Nat) : (State.wrBank s f k b v).nor = s.nor :=
  (State.wrBank_frame (List.Subset.refl _) (Frame.refl _ _)).nor_eq
@[simp] theorem State.wrBank_bot (s : State) (f : Fld) (k b v : Nat) : (State.wrBank s f k b v).bot = s.bot :=
  (State.wrBank_frame (List.Subset.refl _) (Frame.refl _ _)).bot_eq
@[simp] theorem State.wrBank_pins (s : State) (f : Fld) (k b v : Nat) : (State.wrBank s f k b v).pins = s.pins :=
  (State.wrBank_frame (List.Subset.refl _) (Frame.refl _ _)).pins_eq
@[simp] theorem State.wrBank_evl (s : State) (f : Fld) (k b v : Nat) : (State.wrBank s f k b v).evl = s.evl :=
  (State.wrBank_frame (List.Subset.refl _) (Frame.refl _ _)).evl_eq
@[simp] theorem State.wrBank_paths (s : State) (f : Fld) (k b v : Nat) : (State.wrBank s f k b v).paths = s.paths :=
  (State.wrBank_frame (List.Subset.refl _) (Frame.refl _ _)).paths_eq
@[simp] theorem State.wrBank_pages (s : State) (f : Fld) (k b v : Nat) : (State.wrBank s f k b v).pages = s.pages :=
  (State.wrBank_frame (List.Subset.refl _) (Frame.refl _ _)).pages_eq
@[simp] theorem State.wrBank_cpx (s : State) (f : Fld) (k b v : Nat) : (State.wrBank s f k b v).cpx = s.cpx :=
  (State.wrBank_frame (List.Subset.refl _) (Frame.refl _ _)).cpx_eq

@[simp] theorem State.wrAt_pending (s : State) (f : Fld) (inst k v : Nat) : (State.wrAt s f inst k v).pending = s.pending :=
  (State.wrAt_frame (List.Subset.refl _) (Frame.refl _ _)).pending_eq
@[simp] theorem State.wrAt_ans (s : State) (f : Fld) (inst k v : Nat) : (State.wrAt s f inst k v).ans = s.ans :=
  (State.wrAt_frame (List.Subset.refl _) (Frame.refl _ _)).ans_eq
@[simp] theorem State.wrAt_draws (s : State) (f : Fld) (inst k v : Nat) : (State.wrAt s f inst k v).draws = s.draws :=
  (State.wrAt_frame (List.Subset.refl _) (Frame.refl _ _)).draws_eq
@[simp] theorem State.wrAt_gate (s : State) (f : Fld) (inst k v : Nat) : (State.wrAt s f inst k v).gate = s.gate :=
  (State.wrAt_frame (List.Subset.refl _) (Frame.refl _ _)).gate_eq
@[simp] theorem State.wrAt_tbs (s : State) (f : Fld) (inst k v : Nat) : (State.wrAt s f inst k v).tbs = s.tbs :=
  (State.wrAt_frame (List.Subset.refl _) (Frame.refl _ _)).tbs_eq
@[simp] theorem State.wrAt_stp (s : State) (f : Fld) (inst k v : Nat) : (State.wrAt s f inst k v).stp = s.stp :=
  (State.wrAt_frame (List.Subset.refl _) (Frame.refl _ _)).stp_eq
@[simp] theorem State.wrAt_qmx (s : State) (f : Fld) (inst k v : Nat) : (State.wrAt s f inst k v).qmx = s.qmx :=
  (State.wrAt_frame (List.Subset.refl _) (Frame.refl _ _)).qmx_eq
@[simp] theorem State.wrAt_ten (s : State) (f : Fld) (inst k v : Nat) : (State.wrAt s f inst k v).ten = s.ten :=
  (State.wrAt_frame (List.Subset.refl _) (Frame.refl _ _)).ten_eq
@[simp] theorem State.wrAt_fns (s : State) (f : Fld) (inst k v : Nat) : (State.wrAt s f inst k v).fns = s.fns :=
  (State.wrAt_frame (List.Subset.refl _) (Frame.refl _ _)).fns_eq
@[simp] theorem State.wrAt_map (s : State) (f : Fld) (inst k v : Nat) : (State.wrAt s f inst k v).map = s.map :=
  (State.wrAt_frame (List.Subset.refl _) (Frame.refl _ _)).map_eq
@[simp] theorem State.wrAt_wbf (s : State) (f : Fld) (inst k v : Nat) : (State.wrAt s f inst k v).wbf = s.wbf :=
  (State.wrAt_frame (List.Subset.refl _) (Frame.refl _ _)).wbf_eq
@[simp] theorem State.wrAt_fch (s : State) (f : Fld) (inst k v : Nat) : (State.wrAt s f inst k v).fch = s.fch :=
  (State.wrAt_frame (List.Subset.refl _) (Frame.refl _ _)).fch_eq
@[simp] theorem State.wrAt_ldc (s : State) (f : Fld) (inst k v : Nat) : (State.wrAt s f inst k v).ldc = s.ldc :=
  (State.wrAt_frame (List.Subset.refl _) (Frame.refl _ _)).ldc_eq
@[simp] theorem State.wrAt_par (s : State) (f : Fld) (inst k v : Nat) : (State.wrAt s f inst k v).par = s.par :=
  (State.wrAt_frame (List.Subset.refl _) (Frame.refl _ _)).par_eq
@[simp] theorem State.wrAt_rcl (s : State) (f : Fld) (inst k v : Nat) : (State.wrAt s f inst k v).rcl = s.rcl :=
  (State.wrAt_frame (List.Subset.refl _) (Frame.refl _ _)).rcl_eq
@[simp] theorem State.wrAt_dmc (s : State) (f : Fld) (inst k v : Nat) : (State.wrAt s f inst k v).dmc = s.dmc :=
  (State.wrAt_frame (List.Subset.refl _) (Frame.refl _ _)).dmc_eq
@[simp] theorem State.wrAt_key (s : State) (f : Fld) (inst k v : Nat) : (State.wrAt s f inst k v).key = s.key :=
  (State.wrAt_frame (List.Subset.refl _) (Frame.refl _ _)).key_eq
@[simp] theorem State.wrAt_cip (s : State) (f : Fld) (inst k v : Nat) : (State.wrAt s f inst k v).cip = s.cip :=
  (State.wrAt_frame (List.Subset.refl _) (Frame.refl _ _)).cip_eq
@[simp] theorem State.wrAt_staged (s : State) (f : Fld) (inst k v : Nat) : (State.wrAt s f inst k v).staged = s.staged :=
  (State.wrAt_frame (List.Subset.refl _) (Frame.refl _ _)).staged_eq
@[simp] theorem State.wrAt_norWaits (s : State) (f : Fld) (inst k v : Nat) : (State.wrAt s f inst k v).norWaits = s.norWaits :=
  (State.wrAt_frame (List.Subset.refl _) (Frame.refl _ _)).norWaits_eq
@[simp] theorem State.wrAt_hif (s : State) (f : Fld) (inst k v : Nat) : (State.wrAt s f inst k v).hif = s.hif :=
  (State.wrAt_frame (List.Subset.refl _) (Frame.refl _ _)).hif_eq
@[simp] theorem State.wrAt_net (s : State) (f : Fld) (inst k v : Nat) : (State.wrAt s f inst k v).net = s.net :=
  (State.wrAt_frame (List.Subset.refl _) (Frame.refl _ _)).net_eq
@[simp] theorem State.wrAt_sbi (s : State) (f : Fld) (inst k v : Nat) : (State.wrAt s f inst k v).sbi = s.sbi :=
  (State.wrAt_frame (List.Subset.refl _) (Frame.refl _ _)).sbi_eq
@[simp] theorem State.wrAt_thm (s : State) (f : Fld) (inst k v : Nat) : (State.wrAt s f inst k v).thm = s.thm :=
  (State.wrAt_frame (List.Subset.refl _) (Frame.refl _ _)).thm_eq
@[simp] theorem State.wrAt_hld (s : State) (f : Fld) (inst k v : Nat) : (State.wrAt s f inst k v).hld = s.hld :=
  (State.wrAt_frame (List.Subset.refl _) (Frame.refl _ _)).hld_eq
@[simp] theorem State.wrAt_fuses (s : State) (f : Fld) (inst k v : Nat) : (State.wrAt s f inst k v).fuses = s.fuses :=
  (State.wrAt_frame (List.Subset.refl _) (Frame.refl _ _)).fuses_eq
@[simp] theorem State.wrAt_nor (s : State) (f : Fld) (inst k v : Nat) : (State.wrAt s f inst k v).nor = s.nor :=
  (State.wrAt_frame (List.Subset.refl _) (Frame.refl _ _)).nor_eq
@[simp] theorem State.wrAt_bot (s : State) (f : Fld) (inst k v : Nat) : (State.wrAt s f inst k v).bot = s.bot :=
  (State.wrAt_frame (List.Subset.refl _) (Frame.refl _ _)).bot_eq
@[simp] theorem State.wrAt_pins (s : State) (f : Fld) (inst k v : Nat) : (State.wrAt s f inst k v).pins = s.pins :=
  (State.wrAt_frame (List.Subset.refl _) (Frame.refl _ _)).pins_eq
@[simp] theorem State.wrAt_evl (s : State) (f : Fld) (inst k v : Nat) : (State.wrAt s f inst k v).evl = s.evl :=
  (State.wrAt_frame (List.Subset.refl _) (Frame.refl _ _)).evl_eq
@[simp] theorem State.wrAt_paths (s : State) (f : Fld) (inst k v : Nat) : (State.wrAt s f inst k v).paths = s.paths :=
  (State.wrAt_frame (List.Subset.refl _) (Frame.refl _ _)).paths_eq
@[simp] theorem State.wrAt_pages (s : State) (f : Fld) (inst k v : Nat) : (State.wrAt s f inst k v).pages = s.pages :=
  (State.wrAt_frame (List.Subset.refl _) (Frame.refl _ _)).pages_eq
@[simp] theorem State.wrAt_cpx (s : State) (f : Fld) (inst k v : Nat) : (State.wrAt s f inst k v).cpx = s.cpx :=
  (State.wrAt_frame (List.Subset.refl _) (Frame.refl _ _)).cpx_eq

@[simp] theorem State.wr_pending (s : State) (f : Fld) (v : Nat) : (State.wr s f v).pending = s.pending :=
  (State.wr_frame (List.Subset.refl _) (Frame.refl _ _)).pending_eq
@[simp] theorem State.wr_ans (s : State) (f : Fld) (v : Nat) : (State.wr s f v).ans = s.ans :=
  (State.wr_frame (List.Subset.refl _) (Frame.refl _ _)).ans_eq
@[simp] theorem State.wr_draws (s : State) (f : Fld) (v : Nat) : (State.wr s f v).draws = s.draws :=
  (State.wr_frame (List.Subset.refl _) (Frame.refl _ _)).draws_eq
@[simp] theorem State.wr_gate (s : State) (f : Fld) (v : Nat) : (State.wr s f v).gate = s.gate :=
  (State.wr_frame (List.Subset.refl _) (Frame.refl _ _)).gate_eq
@[simp] theorem State.wr_tbs (s : State) (f : Fld) (v : Nat) : (State.wr s f v).tbs = s.tbs :=
  (State.wr_frame (List.Subset.refl _) (Frame.refl _ _)).tbs_eq
@[simp] theorem State.wr_stp (s : State) (f : Fld) (v : Nat) : (State.wr s f v).stp = s.stp :=
  (State.wr_frame (List.Subset.refl _) (Frame.refl _ _)).stp_eq
@[simp] theorem State.wr_qmx (s : State) (f : Fld) (v : Nat) : (State.wr s f v).qmx = s.qmx :=
  (State.wr_frame (List.Subset.refl _) (Frame.refl _ _)).qmx_eq
@[simp] theorem State.wr_ten (s : State) (f : Fld) (v : Nat) : (State.wr s f v).ten = s.ten :=
  (State.wr_frame (List.Subset.refl _) (Frame.refl _ _)).ten_eq
@[simp] theorem State.wr_fns (s : State) (f : Fld) (v : Nat) : (State.wr s f v).fns = s.fns :=
  (State.wr_frame (List.Subset.refl _) (Frame.refl _ _)).fns_eq
@[simp] theorem State.wr_map (s : State) (f : Fld) (v : Nat) : (State.wr s f v).map = s.map :=
  (State.wr_frame (List.Subset.refl _) (Frame.refl _ _)).map_eq
@[simp] theorem State.wr_wbf (s : State) (f : Fld) (v : Nat) : (State.wr s f v).wbf = s.wbf :=
  (State.wr_frame (List.Subset.refl _) (Frame.refl _ _)).wbf_eq
@[simp] theorem State.wr_fch (s : State) (f : Fld) (v : Nat) : (State.wr s f v).fch = s.fch :=
  (State.wr_frame (List.Subset.refl _) (Frame.refl _ _)).fch_eq
@[simp] theorem State.wr_ldc (s : State) (f : Fld) (v : Nat) : (State.wr s f v).ldc = s.ldc :=
  (State.wr_frame (List.Subset.refl _) (Frame.refl _ _)).ldc_eq
@[simp] theorem State.wr_par (s : State) (f : Fld) (v : Nat) : (State.wr s f v).par = s.par :=
  (State.wr_frame (List.Subset.refl _) (Frame.refl _ _)).par_eq
@[simp] theorem State.wr_rcl (s : State) (f : Fld) (v : Nat) : (State.wr s f v).rcl = s.rcl :=
  (State.wr_frame (List.Subset.refl _) (Frame.refl _ _)).rcl_eq
@[simp] theorem State.wr_dmc (s : State) (f : Fld) (v : Nat) : (State.wr s f v).dmc = s.dmc :=
  (State.wr_frame (List.Subset.refl _) (Frame.refl _ _)).dmc_eq
@[simp] theorem State.wr_key (s : State) (f : Fld) (v : Nat) : (State.wr s f v).key = s.key :=
  (State.wr_frame (List.Subset.refl _) (Frame.refl _ _)).key_eq
@[simp] theorem State.wr_cip (s : State) (f : Fld) (v : Nat) : (State.wr s f v).cip = s.cip :=
  (State.wr_frame (List.Subset.refl _) (Frame.refl _ _)).cip_eq
@[simp] theorem State.wr_staged (s : State) (f : Fld) (v : Nat) : (State.wr s f v).staged = s.staged :=
  (State.wr_frame (List.Subset.refl _) (Frame.refl _ _)).staged_eq
@[simp] theorem State.wr_norWaits (s : State) (f : Fld) (v : Nat) : (State.wr s f v).norWaits = s.norWaits :=
  (State.wr_frame (List.Subset.refl _) (Frame.refl _ _)).norWaits_eq
@[simp] theorem State.wr_hif (s : State) (f : Fld) (v : Nat) : (State.wr s f v).hif = s.hif :=
  (State.wr_frame (List.Subset.refl _) (Frame.refl _ _)).hif_eq
@[simp] theorem State.wr_net (s : State) (f : Fld) (v : Nat) : (State.wr s f v).net = s.net :=
  (State.wr_frame (List.Subset.refl _) (Frame.refl _ _)).net_eq
@[simp] theorem State.wr_sbi (s : State) (f : Fld) (v : Nat) : (State.wr s f v).sbi = s.sbi :=
  (State.wr_frame (List.Subset.refl _) (Frame.refl _ _)).sbi_eq
@[simp] theorem State.wr_thm (s : State) (f : Fld) (v : Nat) : (State.wr s f v).thm = s.thm :=
  (State.wr_frame (List.Subset.refl _) (Frame.refl _ _)).thm_eq
@[simp] theorem State.wr_hld (s : State) (f : Fld) (v : Nat) : (State.wr s f v).hld = s.hld :=
  (State.wr_frame (List.Subset.refl _) (Frame.refl _ _)).hld_eq
@[simp] theorem State.wr_fuses (s : State) (f : Fld) (v : Nat) : (State.wr s f v).fuses = s.fuses :=
  (State.wr_frame (List.Subset.refl _) (Frame.refl _ _)).fuses_eq
@[simp] theorem State.wr_nor (s : State) (f : Fld) (v : Nat) : (State.wr s f v).nor = s.nor :=
  (State.wr_frame (List.Subset.refl _) (Frame.refl _ _)).nor_eq
@[simp] theorem State.wr_bot (s : State) (f : Fld) (v : Nat) : (State.wr s f v).bot = s.bot :=
  (State.wr_frame (List.Subset.refl _) (Frame.refl _ _)).bot_eq
@[simp] theorem State.wr_pins (s : State) (f : Fld) (v : Nat) : (State.wr s f v).pins = s.pins :=
  (State.wr_frame (List.Subset.refl _) (Frame.refl _ _)).pins_eq
@[simp] theorem State.wr_evl (s : State) (f : Fld) (v : Nat) : (State.wr s f v).evl = s.evl :=
  (State.wr_frame (List.Subset.refl _) (Frame.refl _ _)).evl_eq
@[simp] theorem State.wr_paths (s : State) (f : Fld) (v : Nat) : (State.wr s f v).paths = s.paths :=
  (State.wr_frame (List.Subset.refl _) (Frame.refl _ _)).paths_eq
@[simp] theorem State.wr_pages (s : State) (f : Fld) (v : Nat) : (State.wr s f v).pages = s.pages :=
  (State.wr_frame (List.Subset.refl _) (Frame.refl _ _)).pages_eq
@[simp] theorem State.wr_cpx (s : State) (f : Fld) (v : Nat) : (State.wr s f v).cpx = s.cpx :=
  (State.wr_frame (List.Subset.refl _) (Frame.refl _ _)).cpx_eq

@[simp] theorem State.setPage_pending (s : State) (p : Nat) (x : Page) : (State.setPage s p x).pending = s.pending :=
  rfl
@[simp] theorem State.setPage_ans (s : State) (p : Nat) (x : Page) : (State.setPage s p x).ans = s.ans :=
  rfl
@[simp] theorem State.setPage_draws (s : State) (p : Nat) (x : Page) : (State.setPage s p x).draws = s.draws :=
  rfl
@[simp] theorem State.setPage_gate (s : State) (p : Nat) (x : Page) : (State.setPage s p x).gate = s.gate :=
  rfl
@[simp] theorem State.setPage_tbs (s : State) (p : Nat) (x : Page) : (State.setPage s p x).tbs = s.tbs :=
  rfl
@[simp] theorem State.setPage_stp (s : State) (p : Nat) (x : Page) : (State.setPage s p x).stp = s.stp :=
  rfl
@[simp] theorem State.setPage_qmx (s : State) (p : Nat) (x : Page) : (State.setPage s p x).qmx = s.qmx :=
  rfl
@[simp] theorem State.setPage_ten (s : State) (p : Nat) (x : Page) : (State.setPage s p x).ten = s.ten :=
  rfl
@[simp] theorem State.setPage_fns (s : State) (p : Nat) (x : Page) : (State.setPage s p x).fns = s.fns :=
  rfl
@[simp] theorem State.setPage_map (s : State) (p : Nat) (x : Page) : (State.setPage s p x).map = s.map :=
  rfl
@[simp] theorem State.setPage_wbf (s : State) (p : Nat) (x : Page) : (State.setPage s p x).wbf = s.wbf :=
  rfl
@[simp] theorem State.setPage_fch (s : State) (p : Nat) (x : Page) : (State.setPage s p x).fch = s.fch :=
  rfl
@[simp] theorem State.setPage_ldc (s : State) (p : Nat) (x : Page) : (State.setPage s p x).ldc = s.ldc :=
  rfl
@[simp] theorem State.setPage_par (s : State) (p : Nat) (x : Page) : (State.setPage s p x).par = s.par :=
  rfl
@[simp] theorem State.setPage_rcl (s : State) (p : Nat) (x : Page) : (State.setPage s p x).rcl = s.rcl :=
  rfl
@[simp] theorem State.setPage_dmc (s : State) (p : Nat) (x : Page) : (State.setPage s p x).dmc = s.dmc :=
  rfl
@[simp] theorem State.setPage_key (s : State) (p : Nat) (x : Page) : (State.setPage s p x).key = s.key :=
  rfl
@[simp] theorem State.setPage_cip (s : State) (p : Nat) (x : Page) : (State.setPage s p x).cip = s.cip :=
  rfl
@[simp] theorem State.setPage_staged (s : State) (p : Nat) (x : Page) : (State.setPage s p x).staged = s.staged :=
  rfl
@[simp] theorem State.setPage_norWaits (s : State) (p : Nat) (x : Page) : (State.setPage s p x).norWaits = s.norWaits :=
  rfl
@[simp] theorem State.setPage_hif (s : State) (p : Nat) (x : Page) : (State.setPage s p x).hif = s.hif :=
  rfl
@[simp] theorem State.setPage_net (s : State) (p : Nat) (x : Page) : (State.setPage s p x).net = s.net :=
  rfl
@[simp] theorem State.setPage_sbi (s : State) (p : Nat) (x : Page) : (State.setPage s p x).sbi = s.sbi :=
  rfl
@[simp] theorem State.setPage_thm (s : State) (p : Nat) (x : Page) : (State.setPage s p x).thm = s.thm :=
  rfl
@[simp] theorem State.setPage_hld (s : State) (p : Nat) (x : Page) : (State.setPage s p x).hld = s.hld :=
  rfl
@[simp] theorem State.setPage_fuses (s : State) (p : Nat) (x : Page) : (State.setPage s p x).fuses = s.fuses :=
  rfl
@[simp] theorem State.setPage_nor (s : State) (p : Nat) (x : Page) : (State.setPage s p x).nor = s.nor :=
  rfl
@[simp] theorem State.setPage_bot (s : State) (p : Nat) (x : Page) : (State.setPage s p x).bot = s.bot :=
  rfl
@[simp] theorem State.setPage_pins (s : State) (p : Nat) (x : Page) : (State.setPage s p x).pins = s.pins :=
  rfl
@[simp] theorem State.setPage_evl (s : State) (p : Nat) (x : Page) : (State.setPage s p x).evl = s.evl :=
  rfl
@[simp] theorem State.setPage_paths (s : State) (p : Nat) (x : Page) : (State.setPage s p x).paths = s.paths :=
  rfl
@[simp] theorem State.setPage_regs (s : State) (p : Nat) (x : Page) : (State.setPage s p x).regs = s.regs :=
  rfl
@[simp] theorem State.setPage_cpx (s : State) (p : Nat) (x : Page) : (State.setPage s p x).cpx = s.cpx :=
  rfl

@[simp] theorem State.bumpAt_pending (s : State) (f : Fld) (inst k n : Nat) : (State.bumpAt s f inst k n).pending = s.pending :=
  (State.bumpAt_frame (List.Subset.refl _) (Frame.refl _ _)).pending_eq
@[simp] theorem State.bumpAt_ans (s : State) (f : Fld) (inst k n : Nat) : (State.bumpAt s f inst k n).ans = s.ans :=
  (State.bumpAt_frame (List.Subset.refl _) (Frame.refl _ _)).ans_eq
@[simp] theorem State.bumpAt_draws (s : State) (f : Fld) (inst k n : Nat) : (State.bumpAt s f inst k n).draws = s.draws :=
  (State.bumpAt_frame (List.Subset.refl _) (Frame.refl _ _)).draws_eq
@[simp] theorem State.bumpAt_gate (s : State) (f : Fld) (inst k n : Nat) : (State.bumpAt s f inst k n).gate = s.gate :=
  (State.bumpAt_frame (List.Subset.refl _) (Frame.refl _ _)).gate_eq
@[simp] theorem State.bumpAt_tbs (s : State) (f : Fld) (inst k n : Nat) : (State.bumpAt s f inst k n).tbs = s.tbs :=
  (State.bumpAt_frame (List.Subset.refl _) (Frame.refl _ _)).tbs_eq
@[simp] theorem State.bumpAt_stp (s : State) (f : Fld) (inst k n : Nat) : (State.bumpAt s f inst k n).stp = s.stp :=
  (State.bumpAt_frame (List.Subset.refl _) (Frame.refl _ _)).stp_eq
@[simp] theorem State.bumpAt_qmx (s : State) (f : Fld) (inst k n : Nat) : (State.bumpAt s f inst k n).qmx = s.qmx :=
  (State.bumpAt_frame (List.Subset.refl _) (Frame.refl _ _)).qmx_eq
@[simp] theorem State.bumpAt_ten (s : State) (f : Fld) (inst k n : Nat) : (State.bumpAt s f inst k n).ten = s.ten :=
  (State.bumpAt_frame (List.Subset.refl _) (Frame.refl _ _)).ten_eq
@[simp] theorem State.bumpAt_fns (s : State) (f : Fld) (inst k n : Nat) : (State.bumpAt s f inst k n).fns = s.fns :=
  (State.bumpAt_frame (List.Subset.refl _) (Frame.refl _ _)).fns_eq
@[simp] theorem State.bumpAt_map (s : State) (f : Fld) (inst k n : Nat) : (State.bumpAt s f inst k n).map = s.map :=
  (State.bumpAt_frame (List.Subset.refl _) (Frame.refl _ _)).map_eq
@[simp] theorem State.bumpAt_wbf (s : State) (f : Fld) (inst k n : Nat) : (State.bumpAt s f inst k n).wbf = s.wbf :=
  (State.bumpAt_frame (List.Subset.refl _) (Frame.refl _ _)).wbf_eq
@[simp] theorem State.bumpAt_fch (s : State) (f : Fld) (inst k n : Nat) : (State.bumpAt s f inst k n).fch = s.fch :=
  (State.bumpAt_frame (List.Subset.refl _) (Frame.refl _ _)).fch_eq
@[simp] theorem State.bumpAt_ldc (s : State) (f : Fld) (inst k n : Nat) : (State.bumpAt s f inst k n).ldc = s.ldc :=
  (State.bumpAt_frame (List.Subset.refl _) (Frame.refl _ _)).ldc_eq
@[simp] theorem State.bumpAt_par (s : State) (f : Fld) (inst k n : Nat) : (State.bumpAt s f inst k n).par = s.par :=
  (State.bumpAt_frame (List.Subset.refl _) (Frame.refl _ _)).par_eq
@[simp] theorem State.bumpAt_rcl (s : State) (f : Fld) (inst k n : Nat) : (State.bumpAt s f inst k n).rcl = s.rcl :=
  (State.bumpAt_frame (List.Subset.refl _) (Frame.refl _ _)).rcl_eq
@[simp] theorem State.bumpAt_dmc (s : State) (f : Fld) (inst k n : Nat) : (State.bumpAt s f inst k n).dmc = s.dmc :=
  (State.bumpAt_frame (List.Subset.refl _) (Frame.refl _ _)).dmc_eq
@[simp] theorem State.bumpAt_key (s : State) (f : Fld) (inst k n : Nat) : (State.bumpAt s f inst k n).key = s.key :=
  (State.bumpAt_frame (List.Subset.refl _) (Frame.refl _ _)).key_eq
@[simp] theorem State.bumpAt_cip (s : State) (f : Fld) (inst k n : Nat) : (State.bumpAt s f inst k n).cip = s.cip :=
  (State.bumpAt_frame (List.Subset.refl _) (Frame.refl _ _)).cip_eq
@[simp] theorem State.bumpAt_staged (s : State) (f : Fld) (inst k n : Nat) : (State.bumpAt s f inst k n).staged = s.staged :=
  (State.bumpAt_frame (List.Subset.refl _) (Frame.refl _ _)).staged_eq
@[simp] theorem State.bumpAt_norWaits (s : State) (f : Fld) (inst k n : Nat) : (State.bumpAt s f inst k n).norWaits = s.norWaits :=
  (State.bumpAt_frame (List.Subset.refl _) (Frame.refl _ _)).norWaits_eq
@[simp] theorem State.bumpAt_hif (s : State) (f : Fld) (inst k n : Nat) : (State.bumpAt s f inst k n).hif = s.hif :=
  (State.bumpAt_frame (List.Subset.refl _) (Frame.refl _ _)).hif_eq
@[simp] theorem State.bumpAt_net (s : State) (f : Fld) (inst k n : Nat) : (State.bumpAt s f inst k n).net = s.net :=
  (State.bumpAt_frame (List.Subset.refl _) (Frame.refl _ _)).net_eq
@[simp] theorem State.bumpAt_sbi (s : State) (f : Fld) (inst k n : Nat) : (State.bumpAt s f inst k n).sbi = s.sbi :=
  (State.bumpAt_frame (List.Subset.refl _) (Frame.refl _ _)).sbi_eq
@[simp] theorem State.bumpAt_thm (s : State) (f : Fld) (inst k n : Nat) : (State.bumpAt s f inst k n).thm = s.thm :=
  (State.bumpAt_frame (List.Subset.refl _) (Frame.refl _ _)).thm_eq
@[simp] theorem State.bumpAt_hld (s : State) (f : Fld) (inst k n : Nat) : (State.bumpAt s f inst k n).hld = s.hld :=
  (State.bumpAt_frame (List.Subset.refl _) (Frame.refl _ _)).hld_eq
@[simp] theorem State.bumpAt_fuses (s : State) (f : Fld) (inst k n : Nat) : (State.bumpAt s f inst k n).fuses = s.fuses :=
  (State.bumpAt_frame (List.Subset.refl _) (Frame.refl _ _)).fuses_eq
@[simp] theorem State.bumpAt_nor (s : State) (f : Fld) (inst k n : Nat) : (State.bumpAt s f inst k n).nor = s.nor :=
  (State.bumpAt_frame (List.Subset.refl _) (Frame.refl _ _)).nor_eq
@[simp] theorem State.bumpAt_bot (s : State) (f : Fld) (inst k n : Nat) : (State.bumpAt s f inst k n).bot = s.bot :=
  (State.bumpAt_frame (List.Subset.refl _) (Frame.refl _ _)).bot_eq
@[simp] theorem State.bumpAt_pins (s : State) (f : Fld) (inst k n : Nat) : (State.bumpAt s f inst k n).pins = s.pins :=
  (State.bumpAt_frame (List.Subset.refl _) (Frame.refl _ _)).pins_eq
@[simp] theorem State.bumpAt_evl (s : State) (f : Fld) (inst k n : Nat) : (State.bumpAt s f inst k n).evl = s.evl :=
  (State.bumpAt_frame (List.Subset.refl _) (Frame.refl _ _)).evl_eq
@[simp] theorem State.bumpAt_paths (s : State) (f : Fld) (inst k n : Nat) : (State.bumpAt s f inst k n).paths = s.paths :=
  (State.bumpAt_frame (List.Subset.refl _) (Frame.refl _ _)).paths_eq
@[simp] theorem State.bumpAt_pages (s : State) (f : Fld) (inst k n : Nat) : (State.bumpAt s f inst k n).pages = s.pages :=
  (State.bumpAt_frame (List.Subset.refl _) (Frame.refl _ _)).pages_eq
@[simp] theorem State.bumpAt_cpx (s : State) (f : Fld) (inst k n : Nat) : (State.bumpAt s f inst k n).cpx = s.cpx :=
  (State.bumpAt_frame (List.Subset.refl _) (Frame.refl _ _)).cpx_eq

@[simp] theorem State.bump_pending (s : State) (f : Fld) (n : Nat) : (State.bump s f n).pending = s.pending :=
  (State.bump_frame (List.Subset.refl _) (Frame.refl _ _)).pending_eq
@[simp] theorem State.bump_ans (s : State) (f : Fld) (n : Nat) : (State.bump s f n).ans = s.ans :=
  (State.bump_frame (List.Subset.refl _) (Frame.refl _ _)).ans_eq
@[simp] theorem State.bump_draws (s : State) (f : Fld) (n : Nat) : (State.bump s f n).draws = s.draws :=
  (State.bump_frame (List.Subset.refl _) (Frame.refl _ _)).draws_eq
@[simp] theorem State.bump_gate (s : State) (f : Fld) (n : Nat) : (State.bump s f n).gate = s.gate :=
  (State.bump_frame (List.Subset.refl _) (Frame.refl _ _)).gate_eq
@[simp] theorem State.bump_tbs (s : State) (f : Fld) (n : Nat) : (State.bump s f n).tbs = s.tbs :=
  (State.bump_frame (List.Subset.refl _) (Frame.refl _ _)).tbs_eq
@[simp] theorem State.bump_stp (s : State) (f : Fld) (n : Nat) : (State.bump s f n).stp = s.stp :=
  (State.bump_frame (List.Subset.refl _) (Frame.refl _ _)).stp_eq
@[simp] theorem State.bump_qmx (s : State) (f : Fld) (n : Nat) : (State.bump s f n).qmx = s.qmx :=
  (State.bump_frame (List.Subset.refl _) (Frame.refl _ _)).qmx_eq
@[simp] theorem State.bump_ten (s : State) (f : Fld) (n : Nat) : (State.bump s f n).ten = s.ten :=
  (State.bump_frame (List.Subset.refl _) (Frame.refl _ _)).ten_eq
@[simp] theorem State.bump_fns (s : State) (f : Fld) (n : Nat) : (State.bump s f n).fns = s.fns :=
  (State.bump_frame (List.Subset.refl _) (Frame.refl _ _)).fns_eq
@[simp] theorem State.bump_map (s : State) (f : Fld) (n : Nat) : (State.bump s f n).map = s.map :=
  (State.bump_frame (List.Subset.refl _) (Frame.refl _ _)).map_eq
@[simp] theorem State.bump_wbf (s : State) (f : Fld) (n : Nat) : (State.bump s f n).wbf = s.wbf :=
  (State.bump_frame (List.Subset.refl _) (Frame.refl _ _)).wbf_eq
@[simp] theorem State.bump_fch (s : State) (f : Fld) (n : Nat) : (State.bump s f n).fch = s.fch :=
  (State.bump_frame (List.Subset.refl _) (Frame.refl _ _)).fch_eq
@[simp] theorem State.bump_ldc (s : State) (f : Fld) (n : Nat) : (State.bump s f n).ldc = s.ldc :=
  (State.bump_frame (List.Subset.refl _) (Frame.refl _ _)).ldc_eq
@[simp] theorem State.bump_par (s : State) (f : Fld) (n : Nat) : (State.bump s f n).par = s.par :=
  (State.bump_frame (List.Subset.refl _) (Frame.refl _ _)).par_eq
@[simp] theorem State.bump_rcl (s : State) (f : Fld) (n : Nat) : (State.bump s f n).rcl = s.rcl :=
  (State.bump_frame (List.Subset.refl _) (Frame.refl _ _)).rcl_eq
@[simp] theorem State.bump_dmc (s : State) (f : Fld) (n : Nat) : (State.bump s f n).dmc = s.dmc :=
  (State.bump_frame (List.Subset.refl _) (Frame.refl _ _)).dmc_eq
@[simp] theorem State.bump_key (s : State) (f : Fld) (n : Nat) : (State.bump s f n).key = s.key :=
  (State.bump_frame (List.Subset.refl _) (Frame.refl _ _)).key_eq
@[simp] theorem State.bump_cip (s : State) (f : Fld) (n : Nat) : (State.bump s f n).cip = s.cip :=
  (State.bump_frame (List.Subset.refl _) (Frame.refl _ _)).cip_eq
@[simp] theorem State.bump_staged (s : State) (f : Fld) (n : Nat) : (State.bump s f n).staged = s.staged :=
  (State.bump_frame (List.Subset.refl _) (Frame.refl _ _)).staged_eq
@[simp] theorem State.bump_norWaits (s : State) (f : Fld) (n : Nat) : (State.bump s f n).norWaits = s.norWaits :=
  (State.bump_frame (List.Subset.refl _) (Frame.refl _ _)).norWaits_eq
@[simp] theorem State.bump_hif (s : State) (f : Fld) (n : Nat) : (State.bump s f n).hif = s.hif :=
  (State.bump_frame (List.Subset.refl _) (Frame.refl _ _)).hif_eq
@[simp] theorem State.bump_net (s : State) (f : Fld) (n : Nat) : (State.bump s f n).net = s.net :=
  (State.bump_frame (List.Subset.refl _) (Frame.refl _ _)).net_eq
@[simp] theorem State.bump_sbi (s : State) (f : Fld) (n : Nat) : (State.bump s f n).sbi = s.sbi :=
  (State.bump_frame (List.Subset.refl _) (Frame.refl _ _)).sbi_eq
@[simp] theorem State.bump_thm (s : State) (f : Fld) (n : Nat) : (State.bump s f n).thm = s.thm :=
  (State.bump_frame (List.Subset.refl _) (Frame.refl _ _)).thm_eq
@[simp] theorem State.bump_hld (s : State) (f : Fld) (n : Nat) : (State.bump s f n).hld = s.hld :=
  (State.bump_frame (List.Subset.refl _) (Frame.refl _ _)).hld_eq
@[simp] theorem State.bump_fuses (s : State) (f : Fld) (n : Nat) : (State.bump s f n).fuses = s.fuses :=
  (State.bump_frame (List.Subset.refl _) (Frame.refl _ _)).fuses_eq
@[simp] theorem State.bump_nor (s : State) (f : Fld) (n : Nat) : (State.bump s f n).nor = s.nor :=
  (State.bump_frame (List.Subset.refl _) (Frame.refl _ _)).nor_eq
@[simp] theorem State.bump_bot (s : State) (f : Fld) (n : Nat) : (State.bump s f n).bot = s.bot :=
  (State.bump_frame (List.Subset.refl _) (Frame.refl _ _)).bot_eq
@[simp] theorem State.bump_pins (s : State) (f : Fld) (n : Nat) : (State.bump s f n).pins = s.pins :=
  (State.bump_frame (List.Subset.refl _) (Frame.refl _ _)).pins_eq
@[simp] theorem State.bump_evl (s : State) (f : Fld) (n : Nat) : (State.bump s f n).evl = s.evl :=
  (State.bump_frame (List.Subset.refl _) (Frame.refl _ _)).evl_eq
@[simp] theorem State.bump_paths (s : State) (f : Fld) (n : Nat) : (State.bump s f n).paths = s.paths :=
  (State.bump_frame (List.Subset.refl _) (Frame.refl _ _)).paths_eq
@[simp] theorem State.bump_pages (s : State) (f : Fld) (n : Nat) : (State.bump s f n).pages = s.pages :=
  (State.bump_frame (List.Subset.refl _) (Frame.refl _ _)).pages_eq
@[simp] theorem State.bump_cpx (s : State) (f : Fld) (n : Nat) : (State.bump s f n).cpx = s.cpx :=
  (State.bump_frame (List.Subset.refl _) (Frame.refl _ _)).cpx_eq

@[simp] theorem State.evt_pending (s : State) (p bit : Nat) : (State.evt s p bit).pending = s.pending :=
  (State.evt_frame (List.Subset.refl _) (Frame.refl _ _)).pending_eq
@[simp] theorem State.evt_ans (s : State) (p bit : Nat) : (State.evt s p bit).ans = s.ans :=
  (State.evt_frame (List.Subset.refl _) (Frame.refl _ _)).ans_eq
@[simp] theorem State.evt_draws (s : State) (p bit : Nat) : (State.evt s p bit).draws = s.draws :=
  (State.evt_frame (List.Subset.refl _) (Frame.refl _ _)).draws_eq
@[simp] theorem State.evt_gate (s : State) (p bit : Nat) : (State.evt s p bit).gate = s.gate :=
  (State.evt_frame (List.Subset.refl _) (Frame.refl _ _)).gate_eq
@[simp] theorem State.evt_tbs (s : State) (p bit : Nat) : (State.evt s p bit).tbs = s.tbs :=
  (State.evt_frame (List.Subset.refl _) (Frame.refl _ _)).tbs_eq
@[simp] theorem State.evt_stp (s : State) (p bit : Nat) : (State.evt s p bit).stp = s.stp :=
  (State.evt_frame (List.Subset.refl _) (Frame.refl _ _)).stp_eq
@[simp] theorem State.evt_qmx (s : State) (p bit : Nat) : (State.evt s p bit).qmx = s.qmx :=
  (State.evt_frame (List.Subset.refl _) (Frame.refl _ _)).qmx_eq
@[simp] theorem State.evt_ten (s : State) (p bit : Nat) : (State.evt s p bit).ten = s.ten :=
  (State.evt_frame (List.Subset.refl _) (Frame.refl _ _)).ten_eq
@[simp] theorem State.evt_fns (s : State) (p bit : Nat) : (State.evt s p bit).fns = s.fns :=
  (State.evt_frame (List.Subset.refl _) (Frame.refl _ _)).fns_eq
@[simp] theorem State.evt_map (s : State) (p bit : Nat) : (State.evt s p bit).map = s.map :=
  (State.evt_frame (List.Subset.refl _) (Frame.refl _ _)).map_eq
@[simp] theorem State.evt_wbf (s : State) (p bit : Nat) : (State.evt s p bit).wbf = s.wbf :=
  (State.evt_frame (List.Subset.refl _) (Frame.refl _ _)).wbf_eq
@[simp] theorem State.evt_fch (s : State) (p bit : Nat) : (State.evt s p bit).fch = s.fch :=
  (State.evt_frame (List.Subset.refl _) (Frame.refl _ _)).fch_eq
@[simp] theorem State.evt_ldc (s : State) (p bit : Nat) : (State.evt s p bit).ldc = s.ldc :=
  (State.evt_frame (List.Subset.refl _) (Frame.refl _ _)).ldc_eq
@[simp] theorem State.evt_par (s : State) (p bit : Nat) : (State.evt s p bit).par = s.par :=
  (State.evt_frame (List.Subset.refl _) (Frame.refl _ _)).par_eq
@[simp] theorem State.evt_rcl (s : State) (p bit : Nat) : (State.evt s p bit).rcl = s.rcl :=
  (State.evt_frame (List.Subset.refl _) (Frame.refl _ _)).rcl_eq
@[simp] theorem State.evt_dmc (s : State) (p bit : Nat) : (State.evt s p bit).dmc = s.dmc :=
  (State.evt_frame (List.Subset.refl _) (Frame.refl _ _)).dmc_eq
@[simp] theorem State.evt_key (s : State) (p bit : Nat) : (State.evt s p bit).key = s.key :=
  (State.evt_frame (List.Subset.refl _) (Frame.refl _ _)).key_eq
@[simp] theorem State.evt_cip (s : State) (p bit : Nat) : (State.evt s p bit).cip = s.cip :=
  (State.evt_frame (List.Subset.refl _) (Frame.refl _ _)).cip_eq
@[simp] theorem State.evt_staged (s : State) (p bit : Nat) : (State.evt s p bit).staged = s.staged :=
  (State.evt_frame (List.Subset.refl _) (Frame.refl _ _)).staged_eq
@[simp] theorem State.evt_norWaits (s : State) (p bit : Nat) : (State.evt s p bit).norWaits = s.norWaits :=
  (State.evt_frame (List.Subset.refl _) (Frame.refl _ _)).norWaits_eq
@[simp] theorem State.evt_hif (s : State) (p bit : Nat) : (State.evt s p bit).hif = s.hif :=
  (State.evt_frame (List.Subset.refl _) (Frame.refl _ _)).hif_eq
@[simp] theorem State.evt_net (s : State) (p bit : Nat) : (State.evt s p bit).net = s.net :=
  (State.evt_frame (List.Subset.refl _) (Frame.refl _ _)).net_eq
@[simp] theorem State.evt_sbi (s : State) (p bit : Nat) : (State.evt s p bit).sbi = s.sbi :=
  (State.evt_frame (List.Subset.refl _) (Frame.refl _ _)).sbi_eq
@[simp] theorem State.evt_thm (s : State) (p bit : Nat) : (State.evt s p bit).thm = s.thm :=
  (State.evt_frame (List.Subset.refl _) (Frame.refl _ _)).thm_eq
@[simp] theorem State.evt_hld (s : State) (p bit : Nat) : (State.evt s p bit).hld = s.hld :=
  (State.evt_frame (List.Subset.refl _) (Frame.refl _ _)).hld_eq
@[simp] theorem State.evt_fuses (s : State) (p bit : Nat) : (State.evt s p bit).fuses = s.fuses :=
  (State.evt_frame (List.Subset.refl _) (Frame.refl _ _)).fuses_eq
@[simp] theorem State.evt_nor (s : State) (p bit : Nat) : (State.evt s p bit).nor = s.nor :=
  (State.evt_frame (List.Subset.refl _) (Frame.refl _ _)).nor_eq
@[simp] theorem State.evt_bot (s : State) (p bit : Nat) : (State.evt s p bit).bot = s.bot :=
  (State.evt_frame (List.Subset.refl _) (Frame.refl _ _)).bot_eq
@[simp] theorem State.evt_pins (s : State) (p bit : Nat) : (State.evt s p bit).pins = s.pins :=
  (State.evt_frame (List.Subset.refl _) (Frame.refl _ _)).pins_eq
@[simp] theorem State.evt_evl (s : State) (p bit : Nat) : (State.evt s p bit).evl = s.evl :=
  (State.evt_frame (List.Subset.refl _) (Frame.refl _ _)).evl_eq
@[simp] theorem State.evt_paths (s : State) (p bit : Nat) : (State.evt s p bit).paths = s.paths :=
  (State.evt_frame (List.Subset.refl _) (Frame.refl _ _)).paths_eq
@[simp] theorem State.evt_regs (s : State) (p bit : Nat) : (State.evt s p bit).regs = s.regs :=
  (State.evt_frame (List.Subset.refl _) (Frame.refl _ _)).regs_eq
@[simp] theorem State.evt_cpx (s : State) (p bit : Nat) : (State.evt s p bit).cpx = s.cpx :=
  (State.evt_frame (List.Subset.refl _) (Frame.refl _ _)).cpx_eq

@[simp] theorem State.ev_pending (s : State) (e : Nat × Nat) : (State.ev s e).pending = s.pending :=
  (State.ev_frame (List.Subset.refl _) (Frame.refl _ _)).pending_eq
@[simp] theorem State.ev_ans (s : State) (e : Nat × Nat) : (State.ev s e).ans = s.ans :=
  (State.ev_frame (List.Subset.refl _) (Frame.refl _ _)).ans_eq
@[simp] theorem State.ev_draws (s : State) (e : Nat × Nat) : (State.ev s e).draws = s.draws :=
  (State.ev_frame (List.Subset.refl _) (Frame.refl _ _)).draws_eq
@[simp] theorem State.ev_gate (s : State) (e : Nat × Nat) : (State.ev s e).gate = s.gate :=
  (State.ev_frame (List.Subset.refl _) (Frame.refl _ _)).gate_eq
@[simp] theorem State.ev_tbs (s : State) (e : Nat × Nat) : (State.ev s e).tbs = s.tbs :=
  (State.ev_frame (List.Subset.refl _) (Frame.refl _ _)).tbs_eq
@[simp] theorem State.ev_stp (s : State) (e : Nat × Nat) : (State.ev s e).stp = s.stp :=
  (State.ev_frame (List.Subset.refl _) (Frame.refl _ _)).stp_eq
@[simp] theorem State.ev_qmx (s : State) (e : Nat × Nat) : (State.ev s e).qmx = s.qmx :=
  (State.ev_frame (List.Subset.refl _) (Frame.refl _ _)).qmx_eq
@[simp] theorem State.ev_ten (s : State) (e : Nat × Nat) : (State.ev s e).ten = s.ten :=
  (State.ev_frame (List.Subset.refl _) (Frame.refl _ _)).ten_eq
@[simp] theorem State.ev_fns (s : State) (e : Nat × Nat) : (State.ev s e).fns = s.fns :=
  (State.ev_frame (List.Subset.refl _) (Frame.refl _ _)).fns_eq
@[simp] theorem State.ev_map (s : State) (e : Nat × Nat) : (State.ev s e).map = s.map :=
  (State.ev_frame (List.Subset.refl _) (Frame.refl _ _)).map_eq
@[simp] theorem State.ev_wbf (s : State) (e : Nat × Nat) : (State.ev s e).wbf = s.wbf :=
  (State.ev_frame (List.Subset.refl _) (Frame.refl _ _)).wbf_eq
@[simp] theorem State.ev_fch (s : State) (e : Nat × Nat) : (State.ev s e).fch = s.fch :=
  (State.ev_frame (List.Subset.refl _) (Frame.refl _ _)).fch_eq
@[simp] theorem State.ev_ldc (s : State) (e : Nat × Nat) : (State.ev s e).ldc = s.ldc :=
  (State.ev_frame (List.Subset.refl _) (Frame.refl _ _)).ldc_eq
@[simp] theorem State.ev_par (s : State) (e : Nat × Nat) : (State.ev s e).par = s.par :=
  (State.ev_frame (List.Subset.refl _) (Frame.refl _ _)).par_eq
@[simp] theorem State.ev_rcl (s : State) (e : Nat × Nat) : (State.ev s e).rcl = s.rcl :=
  (State.ev_frame (List.Subset.refl _) (Frame.refl _ _)).rcl_eq
@[simp] theorem State.ev_dmc (s : State) (e : Nat × Nat) : (State.ev s e).dmc = s.dmc :=
  (State.ev_frame (List.Subset.refl _) (Frame.refl _ _)).dmc_eq
@[simp] theorem State.ev_key (s : State) (e : Nat × Nat) : (State.ev s e).key = s.key :=
  (State.ev_frame (List.Subset.refl _) (Frame.refl _ _)).key_eq
@[simp] theorem State.ev_cip (s : State) (e : Nat × Nat) : (State.ev s e).cip = s.cip :=
  (State.ev_frame (List.Subset.refl _) (Frame.refl _ _)).cip_eq
@[simp] theorem State.ev_staged (s : State) (e : Nat × Nat) : (State.ev s e).staged = s.staged :=
  (State.ev_frame (List.Subset.refl _) (Frame.refl _ _)).staged_eq
@[simp] theorem State.ev_norWaits (s : State) (e : Nat × Nat) : (State.ev s e).norWaits = s.norWaits :=
  (State.ev_frame (List.Subset.refl _) (Frame.refl _ _)).norWaits_eq
@[simp] theorem State.ev_hif (s : State) (e : Nat × Nat) : (State.ev s e).hif = s.hif :=
  (State.ev_frame (List.Subset.refl _) (Frame.refl _ _)).hif_eq
@[simp] theorem State.ev_net (s : State) (e : Nat × Nat) : (State.ev s e).net = s.net :=
  (State.ev_frame (List.Subset.refl _) (Frame.refl _ _)).net_eq
@[simp] theorem State.ev_sbi (s : State) (e : Nat × Nat) : (State.ev s e).sbi = s.sbi :=
  (State.ev_frame (List.Subset.refl _) (Frame.refl _ _)).sbi_eq
@[simp] theorem State.ev_thm (s : State) (e : Nat × Nat) : (State.ev s e).thm = s.thm :=
  (State.ev_frame (List.Subset.refl _) (Frame.refl _ _)).thm_eq
@[simp] theorem State.ev_hld (s : State) (e : Nat × Nat) : (State.ev s e).hld = s.hld :=
  (State.ev_frame (List.Subset.refl _) (Frame.refl _ _)).hld_eq
@[simp] theorem State.ev_fuses (s : State) (e : Nat × Nat) : (State.ev s e).fuses = s.fuses :=
  (State.ev_frame (List.Subset.refl _) (Frame.refl _ _)).fuses_eq
@[simp] theorem State.ev_nor (s : State) (e : Nat × Nat) : (State.ev s e).nor = s.nor :=
  (State.ev_frame (List.Subset.refl _) (Frame.refl _ _)).nor_eq
@[simp] theorem State.ev_bot (s : State) (e : Nat × Nat) : (State.ev s e).bot = s.bot :=
  (State.ev_frame (List.Subset.refl _) (Frame.refl _ _)).bot_eq
@[simp] theorem State.ev_pins (s : State) (e : Nat × Nat) : (State.ev s e).pins = s.pins :=
  (State.ev_frame (List.Subset.refl _) (Frame.refl _ _)).pins_eq
@[simp] theorem State.ev_evl (s : State) (e : Nat × Nat) : (State.ev s e).evl = s.evl :=
  (State.ev_frame (List.Subset.refl _) (Frame.refl _ _)).evl_eq
@[simp] theorem State.ev_paths (s : State) (e : Nat × Nat) : (State.ev s e).paths = s.paths :=
  (State.ev_frame (List.Subset.refl _) (Frame.refl _ _)).paths_eq
@[simp] theorem State.ev_regs (s : State) (e : Nat × Nat) : (State.ev s e).regs = s.regs :=
  (State.ev_frame (List.Subset.refl _) (Frame.refl _ _)).regs_eq
@[simp] theorem State.ev_cpx (s : State) (e : Nat × Nat) : (State.ev s e).cpx = s.cpx :=
  (State.ev_frame (List.Subset.refl _) (Frame.refl _ _)).cpx_eq

@[simp] theorem State.evCh_pending (s : State) (nn : Nat) (e : Nat × Nat) : (State.evCh s nn e).pending = s.pending :=
  (State.evCh_frame (List.Subset.refl _) (Frame.refl _ _)).pending_eq
@[simp] theorem State.evCh_ans (s : State) (nn : Nat) (e : Nat × Nat) : (State.evCh s nn e).ans = s.ans :=
  (State.evCh_frame (List.Subset.refl _) (Frame.refl _ _)).ans_eq
@[simp] theorem State.evCh_draws (s : State) (nn : Nat) (e : Nat × Nat) : (State.evCh s nn e).draws = s.draws :=
  (State.evCh_frame (List.Subset.refl _) (Frame.refl _ _)).draws_eq
@[simp] theorem State.evCh_gate (s : State) (nn : Nat) (e : Nat × Nat) : (State.evCh s nn e).gate = s.gate :=
  (State.evCh_frame (List.Subset.refl _) (Frame.refl _ _)).gate_eq
@[simp] theorem State.evCh_tbs (s : State) (nn : Nat) (e : Nat × Nat) : (State.evCh s nn e).tbs = s.tbs :=
  (State.evCh_frame (List.Subset.refl _) (Frame.refl _ _)).tbs_eq
@[simp] theorem State.evCh_stp (s : State) (nn : Nat) (e : Nat × Nat) : (State.evCh s nn e).stp = s.stp :=
  (State.evCh_frame (List.Subset.refl _) (Frame.refl _ _)).stp_eq
@[simp] theorem State.evCh_qmx (s : State) (nn : Nat) (e : Nat × Nat) : (State.evCh s nn e).qmx = s.qmx :=
  (State.evCh_frame (List.Subset.refl _) (Frame.refl _ _)).qmx_eq
@[simp] theorem State.evCh_ten (s : State) (nn : Nat) (e : Nat × Nat) : (State.evCh s nn e).ten = s.ten :=
  (State.evCh_frame (List.Subset.refl _) (Frame.refl _ _)).ten_eq
@[simp] theorem State.evCh_fns (s : State) (nn : Nat) (e : Nat × Nat) : (State.evCh s nn e).fns = s.fns :=
  (State.evCh_frame (List.Subset.refl _) (Frame.refl _ _)).fns_eq
@[simp] theorem State.evCh_map (s : State) (nn : Nat) (e : Nat × Nat) : (State.evCh s nn e).map = s.map :=
  (State.evCh_frame (List.Subset.refl _) (Frame.refl _ _)).map_eq
@[simp] theorem State.evCh_wbf (s : State) (nn : Nat) (e : Nat × Nat) : (State.evCh s nn e).wbf = s.wbf :=
  (State.evCh_frame (List.Subset.refl _) (Frame.refl _ _)).wbf_eq
@[simp] theorem State.evCh_fch (s : State) (nn : Nat) (e : Nat × Nat) : (State.evCh s nn e).fch = s.fch :=
  (State.evCh_frame (List.Subset.refl _) (Frame.refl _ _)).fch_eq
@[simp] theorem State.evCh_ldc (s : State) (nn : Nat) (e : Nat × Nat) : (State.evCh s nn e).ldc = s.ldc :=
  (State.evCh_frame (List.Subset.refl _) (Frame.refl _ _)).ldc_eq
@[simp] theorem State.evCh_par (s : State) (nn : Nat) (e : Nat × Nat) : (State.evCh s nn e).par = s.par :=
  (State.evCh_frame (List.Subset.refl _) (Frame.refl _ _)).par_eq
@[simp] theorem State.evCh_rcl (s : State) (nn : Nat) (e : Nat × Nat) : (State.evCh s nn e).rcl = s.rcl :=
  (State.evCh_frame (List.Subset.refl _) (Frame.refl _ _)).rcl_eq
@[simp] theorem State.evCh_dmc (s : State) (nn : Nat) (e : Nat × Nat) : (State.evCh s nn e).dmc = s.dmc :=
  (State.evCh_frame (List.Subset.refl _) (Frame.refl _ _)).dmc_eq
@[simp] theorem State.evCh_key (s : State) (nn : Nat) (e : Nat × Nat) : (State.evCh s nn e).key = s.key :=
  (State.evCh_frame (List.Subset.refl _) (Frame.refl _ _)).key_eq
@[simp] theorem State.evCh_cip (s : State) (nn : Nat) (e : Nat × Nat) : (State.evCh s nn e).cip = s.cip :=
  (State.evCh_frame (List.Subset.refl _) (Frame.refl _ _)).cip_eq
@[simp] theorem State.evCh_staged (s : State) (nn : Nat) (e : Nat × Nat) : (State.evCh s nn e).staged = s.staged :=
  (State.evCh_frame (List.Subset.refl _) (Frame.refl _ _)).staged_eq
@[simp] theorem State.evCh_norWaits (s : State) (nn : Nat) (e : Nat × Nat) : (State.evCh s nn e).norWaits = s.norWaits :=
  (State.evCh_frame (List.Subset.refl _) (Frame.refl _ _)).norWaits_eq
@[simp] theorem State.evCh_hif (s : State) (nn : Nat) (e : Nat × Nat) : (State.evCh s nn e).hif = s.hif :=
  (State.evCh_frame (List.Subset.refl _) (Frame.refl _ _)).hif_eq
@[simp] theorem State.evCh_net (s : State) (nn : Nat) (e : Nat × Nat) : (State.evCh s nn e).net = s.net :=
  (State.evCh_frame (List.Subset.refl _) (Frame.refl _ _)).net_eq
@[simp] theorem State.evCh_sbi (s : State) (nn : Nat) (e : Nat × Nat) : (State.evCh s nn e).sbi = s.sbi :=
  (State.evCh_frame (List.Subset.refl _) (Frame.refl _ _)).sbi_eq
@[simp] theorem State.evCh_thm (s : State) (nn : Nat) (e : Nat × Nat) : (State.evCh s nn e).thm = s.thm :=
  (State.evCh_frame (List.Subset.refl _) (Frame.refl _ _)).thm_eq
@[simp] theorem State.evCh_hld (s : State) (nn : Nat) (e : Nat × Nat) : (State.evCh s nn e).hld = s.hld :=
  (State.evCh_frame (List.Subset.refl _) (Frame.refl _ _)).hld_eq
@[simp] theorem State.evCh_fuses (s : State) (nn : Nat) (e : Nat × Nat) : (State.evCh s nn e).fuses = s.fuses :=
  (State.evCh_frame (List.Subset.refl _) (Frame.refl _ _)).fuses_eq
@[simp] theorem State.evCh_nor (s : State) (nn : Nat) (e : Nat × Nat) : (State.evCh s nn e).nor = s.nor :=
  (State.evCh_frame (List.Subset.refl _) (Frame.refl _ _)).nor_eq
@[simp] theorem State.evCh_bot (s : State) (nn : Nat) (e : Nat × Nat) : (State.evCh s nn e).bot = s.bot :=
  (State.evCh_frame (List.Subset.refl _) (Frame.refl _ _)).bot_eq
@[simp] theorem State.evCh_pins (s : State) (nn : Nat) (e : Nat × Nat) : (State.evCh s nn e).pins = s.pins :=
  (State.evCh_frame (List.Subset.refl _) (Frame.refl _ _)).pins_eq
@[simp] theorem State.evCh_evl (s : State) (nn : Nat) (e : Nat × Nat) : (State.evCh s nn e).evl = s.evl :=
  (State.evCh_frame (List.Subset.refl _) (Frame.refl _ _)).evl_eq
@[simp] theorem State.evCh_paths (s : State) (nn : Nat) (e : Nat × Nat) : (State.evCh s nn e).paths = s.paths :=
  (State.evCh_frame (List.Subset.refl _) (Frame.refl _ _)).paths_eq
@[simp] theorem State.evCh_regs (s : State) (nn : Nat) (e : Nat × Nat) : (State.evCh s nn e).regs = s.regs :=
  (State.evCh_frame (List.Subset.refl _) (Frame.refl _ _)).regs_eq
@[simp] theorem State.evCh_cpx (s : State) (nn : Nat) (e : Nat × Nat) : (State.evCh s nn e).cpx = s.cpx :=
  (State.evCh_frame (List.Subset.refl _) (Frame.refl _ _)).cpx_eq

@[simp] theorem State.capture_pending (s : State) (p code : Nat) (func : Option Nat) (addr : Nat) : (State.capture s p code func addr).pending = s.pending :=
  (State.capture_frame (List.Subset.refl _) (Frame.refl _ _)).pending_eq
@[simp] theorem State.capture_ans (s : State) (p code : Nat) (func : Option Nat) (addr : Nat) : (State.capture s p code func addr).ans = s.ans :=
  (State.capture_frame (List.Subset.refl _) (Frame.refl _ _)).ans_eq
@[simp] theorem State.capture_draws (s : State) (p code : Nat) (func : Option Nat) (addr : Nat) : (State.capture s p code func addr).draws = s.draws :=
  (State.capture_frame (List.Subset.refl _) (Frame.refl _ _)).draws_eq
@[simp] theorem State.capture_gate (s : State) (p code : Nat) (func : Option Nat) (addr : Nat) : (State.capture s p code func addr).gate = s.gate :=
  (State.capture_frame (List.Subset.refl _) (Frame.refl _ _)).gate_eq
@[simp] theorem State.capture_tbs (s : State) (p code : Nat) (func : Option Nat) (addr : Nat) : (State.capture s p code func addr).tbs = s.tbs :=
  (State.capture_frame (List.Subset.refl _) (Frame.refl _ _)).tbs_eq
@[simp] theorem State.capture_stp (s : State) (p code : Nat) (func : Option Nat) (addr : Nat) : (State.capture s p code func addr).stp = s.stp :=
  (State.capture_frame (List.Subset.refl _) (Frame.refl _ _)).stp_eq
@[simp] theorem State.capture_qmx (s : State) (p code : Nat) (func : Option Nat) (addr : Nat) : (State.capture s p code func addr).qmx = s.qmx :=
  (State.capture_frame (List.Subset.refl _) (Frame.refl _ _)).qmx_eq
@[simp] theorem State.capture_ten (s : State) (p code : Nat) (func : Option Nat) (addr : Nat) : (State.capture s p code func addr).ten = s.ten :=
  (State.capture_frame (List.Subset.refl _) (Frame.refl _ _)).ten_eq
@[simp] theorem State.capture_fns (s : State) (p code : Nat) (func : Option Nat) (addr : Nat) : (State.capture s p code func addr).fns = s.fns :=
  (State.capture_frame (List.Subset.refl _) (Frame.refl _ _)).fns_eq
@[simp] theorem State.capture_map (s : State) (p code : Nat) (func : Option Nat) (addr : Nat) : (State.capture s p code func addr).map = s.map :=
  (State.capture_frame (List.Subset.refl _) (Frame.refl _ _)).map_eq
@[simp] theorem State.capture_wbf (s : State) (p code : Nat) (func : Option Nat) (addr : Nat) : (State.capture s p code func addr).wbf = s.wbf :=
  (State.capture_frame (List.Subset.refl _) (Frame.refl _ _)).wbf_eq
@[simp] theorem State.capture_fch (s : State) (p code : Nat) (func : Option Nat) (addr : Nat) : (State.capture s p code func addr).fch = s.fch :=
  (State.capture_frame (List.Subset.refl _) (Frame.refl _ _)).fch_eq
@[simp] theorem State.capture_ldc (s : State) (p code : Nat) (func : Option Nat) (addr : Nat) : (State.capture s p code func addr).ldc = s.ldc :=
  (State.capture_frame (List.Subset.refl _) (Frame.refl _ _)).ldc_eq
@[simp] theorem State.capture_par (s : State) (p code : Nat) (func : Option Nat) (addr : Nat) : (State.capture s p code func addr).par = s.par :=
  (State.capture_frame (List.Subset.refl _) (Frame.refl _ _)).par_eq
@[simp] theorem State.capture_rcl (s : State) (p code : Nat) (func : Option Nat) (addr : Nat) : (State.capture s p code func addr).rcl = s.rcl :=
  (State.capture_frame (List.Subset.refl _) (Frame.refl _ _)).rcl_eq
@[simp] theorem State.capture_dmc (s : State) (p code : Nat) (func : Option Nat) (addr : Nat) : (State.capture s p code func addr).dmc = s.dmc :=
  (State.capture_frame (List.Subset.refl _) (Frame.refl _ _)).dmc_eq
@[simp] theorem State.capture_key (s : State) (p code : Nat) (func : Option Nat) (addr : Nat) : (State.capture s p code func addr).key = s.key :=
  (State.capture_frame (List.Subset.refl _) (Frame.refl _ _)).key_eq
@[simp] theorem State.capture_cip (s : State) (p code : Nat) (func : Option Nat) (addr : Nat) : (State.capture s p code func addr).cip = s.cip :=
  (State.capture_frame (List.Subset.refl _) (Frame.refl _ _)).cip_eq
@[simp] theorem State.capture_staged (s : State) (p code : Nat) (func : Option Nat) (addr : Nat) : (State.capture s p code func addr).staged = s.staged :=
  (State.capture_frame (List.Subset.refl _) (Frame.refl _ _)).staged_eq
@[simp] theorem State.capture_norWaits (s : State) (p code : Nat) (func : Option Nat) (addr : Nat) : (State.capture s p code func addr).norWaits = s.norWaits :=
  (State.capture_frame (List.Subset.refl _) (Frame.refl _ _)).norWaits_eq
@[simp] theorem State.capture_hif (s : State) (p code : Nat) (func : Option Nat) (addr : Nat) : (State.capture s p code func addr).hif = s.hif :=
  (State.capture_frame (List.Subset.refl _) (Frame.refl _ _)).hif_eq
@[simp] theorem State.capture_net (s : State) (p code : Nat) (func : Option Nat) (addr : Nat) : (State.capture s p code func addr).net = s.net :=
  (State.capture_frame (List.Subset.refl _) (Frame.refl _ _)).net_eq
@[simp] theorem State.capture_sbi (s : State) (p code : Nat) (func : Option Nat) (addr : Nat) : (State.capture s p code func addr).sbi = s.sbi :=
  (State.capture_frame (List.Subset.refl _) (Frame.refl _ _)).sbi_eq
@[simp] theorem State.capture_thm (s : State) (p code : Nat) (func : Option Nat) (addr : Nat) : (State.capture s p code func addr).thm = s.thm :=
  (State.capture_frame (List.Subset.refl _) (Frame.refl _ _)).thm_eq
@[simp] theorem State.capture_hld (s : State) (p code : Nat) (func : Option Nat) (addr : Nat) : (State.capture s p code func addr).hld = s.hld :=
  (State.capture_frame (List.Subset.refl _) (Frame.refl _ _)).hld_eq
@[simp] theorem State.capture_fuses (s : State) (p code : Nat) (func : Option Nat) (addr : Nat) : (State.capture s p code func addr).fuses = s.fuses :=
  (State.capture_frame (List.Subset.refl _) (Frame.refl _ _)).fuses_eq
@[simp] theorem State.capture_nor (s : State) (p code : Nat) (func : Option Nat) (addr : Nat) : (State.capture s p code func addr).nor = s.nor :=
  (State.capture_frame (List.Subset.refl _) (Frame.refl _ _)).nor_eq
@[simp] theorem State.capture_bot (s : State) (p code : Nat) (func : Option Nat) (addr : Nat) : (State.capture s p code func addr).bot = s.bot :=
  (State.capture_frame (List.Subset.refl _) (Frame.refl _ _)).bot_eq
@[simp] theorem State.capture_pins (s : State) (p code : Nat) (func : Option Nat) (addr : Nat) : (State.capture s p code func addr).pins = s.pins :=
  (State.capture_frame (List.Subset.refl _) (Frame.refl _ _)).pins_eq
@[simp] theorem State.capture_evl (s : State) (p code : Nat) (func : Option Nat) (addr : Nat) : (State.capture s p code func addr).evl = s.evl :=
  (State.capture_frame (List.Subset.refl _) (Frame.refl _ _)).evl_eq
@[simp] theorem State.capture_paths (s : State) (p code : Nat) (func : Option Nat) (addr : Nat) : (State.capture s p code func addr).paths = s.paths :=
  (State.capture_frame (List.Subset.refl _) (Frame.refl _ _)).paths_eq
@[simp] theorem State.capture_regs (s : State) (p code : Nat) (func : Option Nat) (addr : Nat) : (State.capture s p code func addr).regs = s.regs :=
  (State.capture_frame (List.Subset.refl _) (Frame.refl _ _)).regs_eq
@[simp] theorem State.capture_cpx (s : State) (p code : Nat) (func : Option Nat) (addr : Nat) : (State.capture s p code func addr).cpx = s.cpx :=
  (State.capture_frame (List.Subset.refl _) (Frame.refl _ _)).cpx_eq

@[simp] theorem State.raiseAt_pending (s : State) (p code : Nat) (func : Option Nat) (payload : List (Nat × Nat)) (addr : Option Nat) : (State.raiseAt s p code func payload addr).pending = s.pending :=
  (State.raiseAt_frame (List.Subset.refl _) (Frame.refl _ _)).pending_eq
@[simp] theorem State.raiseAt_ans (s : State) (p code : Nat) (func : Option Nat) (payload : List (Nat × Nat)) (addr : Option Nat) : (State.raiseAt s p code func payload addr).ans = s.ans :=
  (State.raiseAt_frame (List.Subset.refl _) (Frame.refl _ _)).ans_eq
@[simp] theorem State.raiseAt_draws (s : State) (p code : Nat) (func : Option Nat) (payload : List (Nat × Nat)) (addr : Option Nat) : (State.raiseAt s p code func payload addr).draws = s.draws :=
  (State.raiseAt_frame (List.Subset.refl _) (Frame.refl _ _)).draws_eq
@[simp] theorem State.raiseAt_gate (s : State) (p code : Nat) (func : Option Nat) (payload : List (Nat × Nat)) (addr : Option Nat) : (State.raiseAt s p code func payload addr).gate = s.gate :=
  (State.raiseAt_frame (List.Subset.refl _) (Frame.refl _ _)).gate_eq
@[simp] theorem State.raiseAt_tbs (s : State) (p code : Nat) (func : Option Nat) (payload : List (Nat × Nat)) (addr : Option Nat) : (State.raiseAt s p code func payload addr).tbs = s.tbs :=
  (State.raiseAt_frame (List.Subset.refl _) (Frame.refl _ _)).tbs_eq
@[simp] theorem State.raiseAt_stp (s : State) (p code : Nat) (func : Option Nat) (payload : List (Nat × Nat)) (addr : Option Nat) : (State.raiseAt s p code func payload addr).stp = s.stp :=
  (State.raiseAt_frame (List.Subset.refl _) (Frame.refl _ _)).stp_eq
@[simp] theorem State.raiseAt_qmx (s : State) (p code : Nat) (func : Option Nat) (payload : List (Nat × Nat)) (addr : Option Nat) : (State.raiseAt s p code func payload addr).qmx = s.qmx :=
  (State.raiseAt_frame (List.Subset.refl _) (Frame.refl _ _)).qmx_eq
@[simp] theorem State.raiseAt_ten (s : State) (p code : Nat) (func : Option Nat) (payload : List (Nat × Nat)) (addr : Option Nat) : (State.raiseAt s p code func payload addr).ten = s.ten :=
  (State.raiseAt_frame (List.Subset.refl _) (Frame.refl _ _)).ten_eq
@[simp] theorem State.raiseAt_fns (s : State) (p code : Nat) (func : Option Nat) (payload : List (Nat × Nat)) (addr : Option Nat) : (State.raiseAt s p code func payload addr).fns = s.fns :=
  (State.raiseAt_frame (List.Subset.refl _) (Frame.refl _ _)).fns_eq
@[simp] theorem State.raiseAt_map (s : State) (p code : Nat) (func : Option Nat) (payload : List (Nat × Nat)) (addr : Option Nat) : (State.raiseAt s p code func payload addr).map = s.map :=
  (State.raiseAt_frame (List.Subset.refl _) (Frame.refl _ _)).map_eq
@[simp] theorem State.raiseAt_wbf (s : State) (p code : Nat) (func : Option Nat) (payload : List (Nat × Nat)) (addr : Option Nat) : (State.raiseAt s p code func payload addr).wbf = s.wbf :=
  (State.raiseAt_frame (List.Subset.refl _) (Frame.refl _ _)).wbf_eq
@[simp] theorem State.raiseAt_fch (s : State) (p code : Nat) (func : Option Nat) (payload : List (Nat × Nat)) (addr : Option Nat) : (State.raiseAt s p code func payload addr).fch = s.fch :=
  (State.raiseAt_frame (List.Subset.refl _) (Frame.refl _ _)).fch_eq
@[simp] theorem State.raiseAt_ldc (s : State) (p code : Nat) (func : Option Nat) (payload : List (Nat × Nat)) (addr : Option Nat) : (State.raiseAt s p code func payload addr).ldc = s.ldc :=
  (State.raiseAt_frame (List.Subset.refl _) (Frame.refl _ _)).ldc_eq
@[simp] theorem State.raiseAt_par (s : State) (p code : Nat) (func : Option Nat) (payload : List (Nat × Nat)) (addr : Option Nat) : (State.raiseAt s p code func payload addr).par = s.par :=
  (State.raiseAt_frame (List.Subset.refl _) (Frame.refl _ _)).par_eq
@[simp] theorem State.raiseAt_rcl (s : State) (p code : Nat) (func : Option Nat) (payload : List (Nat × Nat)) (addr : Option Nat) : (State.raiseAt s p code func payload addr).rcl = s.rcl :=
  (State.raiseAt_frame (List.Subset.refl _) (Frame.refl _ _)).rcl_eq
@[simp] theorem State.raiseAt_dmc (s : State) (p code : Nat) (func : Option Nat) (payload : List (Nat × Nat)) (addr : Option Nat) : (State.raiseAt s p code func payload addr).dmc = s.dmc :=
  (State.raiseAt_frame (List.Subset.refl _) (Frame.refl _ _)).dmc_eq
@[simp] theorem State.raiseAt_key (s : State) (p code : Nat) (func : Option Nat) (payload : List (Nat × Nat)) (addr : Option Nat) : (State.raiseAt s p code func payload addr).key = s.key :=
  (State.raiseAt_frame (List.Subset.refl _) (Frame.refl _ _)).key_eq
@[simp] theorem State.raiseAt_cip (s : State) (p code : Nat) (func : Option Nat) (payload : List (Nat × Nat)) (addr : Option Nat) : (State.raiseAt s p code func payload addr).cip = s.cip :=
  (State.raiseAt_frame (List.Subset.refl _) (Frame.refl _ _)).cip_eq
@[simp] theorem State.raiseAt_staged (s : State) (p code : Nat) (func : Option Nat) (payload : List (Nat × Nat)) (addr : Option Nat) : (State.raiseAt s p code func payload addr).staged = s.staged :=
  (State.raiseAt_frame (List.Subset.refl _) (Frame.refl _ _)).staged_eq
@[simp] theorem State.raiseAt_norWaits (s : State) (p code : Nat) (func : Option Nat) (payload : List (Nat × Nat)) (addr : Option Nat) : (State.raiseAt s p code func payload addr).norWaits = s.norWaits :=
  (State.raiseAt_frame (List.Subset.refl _) (Frame.refl _ _)).norWaits_eq
@[simp] theorem State.raiseAt_hif (s : State) (p code : Nat) (func : Option Nat) (payload : List (Nat × Nat)) (addr : Option Nat) : (State.raiseAt s p code func payload addr).hif = s.hif :=
  (State.raiseAt_frame (List.Subset.refl _) (Frame.refl _ _)).hif_eq
@[simp] theorem State.raiseAt_net (s : State) (p code : Nat) (func : Option Nat) (payload : List (Nat × Nat)) (addr : Option Nat) : (State.raiseAt s p code func payload addr).net = s.net :=
  (State.raiseAt_frame (List.Subset.refl _) (Frame.refl _ _)).net_eq
@[simp] theorem State.raiseAt_sbi (s : State) (p code : Nat) (func : Option Nat) (payload : List (Nat × Nat)) (addr : Option Nat) : (State.raiseAt s p code func payload addr).sbi = s.sbi :=
  (State.raiseAt_frame (List.Subset.refl _) (Frame.refl _ _)).sbi_eq
@[simp] theorem State.raiseAt_thm (s : State) (p code : Nat) (func : Option Nat) (payload : List (Nat × Nat)) (addr : Option Nat) : (State.raiseAt s p code func payload addr).thm = s.thm :=
  (State.raiseAt_frame (List.Subset.refl _) (Frame.refl _ _)).thm_eq
@[simp] theorem State.raiseAt_hld (s : State) (p code : Nat) (func : Option Nat) (payload : List (Nat × Nat)) (addr : Option Nat) : (State.raiseAt s p code func payload addr).hld = s.hld :=
  (State.raiseAt_frame (List.Subset.refl _) (Frame.refl _ _)).hld_eq
@[simp] theorem State.raiseAt_fuses (s : State) (p code : Nat) (func : Option Nat) (payload : List (Nat × Nat)) (addr : Option Nat) : (State.raiseAt s p code func payload addr).fuses = s.fuses :=
  (State.raiseAt_frame (List.Subset.refl _) (Frame.refl _ _)).fuses_eq
@[simp] theorem State.raiseAt_nor (s : State) (p code : Nat) (func : Option Nat) (payload : List (Nat × Nat)) (addr : Option Nat) : (State.raiseAt s p code func payload addr).nor = s.nor :=
  (State.raiseAt_frame (List.Subset.refl _) (Frame.refl _ _)).nor_eq
@[simp] theorem State.raiseAt_bot (s : State) (p code : Nat) (func : Option Nat) (payload : List (Nat × Nat)) (addr : Option Nat) : (State.raiseAt s p code func payload addr).bot = s.bot :=
  (State.raiseAt_frame (List.Subset.refl _) (Frame.refl _ _)).bot_eq
@[simp] theorem State.raiseAt_pins (s : State) (p code : Nat) (func : Option Nat) (payload : List (Nat × Nat)) (addr : Option Nat) : (State.raiseAt s p code func payload addr).pins = s.pins :=
  (State.raiseAt_frame (List.Subset.refl _) (Frame.refl _ _)).pins_eq
@[simp] theorem State.raiseAt_paths (s : State) (p code : Nat) (func : Option Nat) (payload : List (Nat × Nat)) (addr : Option Nat) : (State.raiseAt s p code func payload addr).paths = s.paths :=
  (State.raiseAt_frame (List.Subset.refl _) (Frame.refl _ _)).paths_eq
@[simp] theorem State.raiseAt_cpx (s : State) (p code : Nat) (func : Option Nat) (payload : List (Nat × Nat)) (addr : Option Nat) : (State.raiseAt s p code func payload addr).cpx = s.cpx :=
  (State.raiseAt_frame (List.Subset.refl _) (Frame.refl _ _)).cpx_eq

@[simp] theorem State.raise_pending (s : State) (code : Nat) (func : Option Nat) (payload : List (Nat × Nat)) : (State.raise s code func payload).pending = s.pending :=
  (State.raise_frame (List.Subset.refl _) (Frame.refl _ _)).pending_eq
@[simp] theorem State.raise_ans (s : State) (code : Nat) (func : Option Nat) (payload : List (Nat × Nat)) : (State.raise s code func payload).ans = s.ans :=
  (State.raise_frame (List.Subset.refl _) (Frame.refl _ _)).ans_eq
@[simp] theorem State.raise_draws (s : State) (code : Nat) (func : Option Nat) (payload : List (Nat × Nat)) : (State.raise s code func payload).draws = s.draws :=
  (State.raise_frame (List.Subset.refl _) (Frame.refl _ _)).draws_eq
@[simp] theorem State.raise_gate (s : State) (code : Nat) (func : Option Nat) (payload : List (Nat × Nat)) : (State.raise s code func payload).gate = s.gate :=
  (State.raise_frame (List.Subset.refl _) (Frame.refl _ _)).gate_eq
@[simp] theorem State.raise_tbs (s : State) (code : Nat) (func : Option Nat) (payload : List (Nat × Nat)) : (State.raise s code func payload).tbs = s.tbs :=
  (State.raise_frame (List.Subset.refl _) (Frame.refl _ _)).tbs_eq
@[simp] theorem State.raise_stp (s : State) (code : Nat) (func : Option Nat) (payload : List (Nat × Nat)) : (State.raise s code func payload).stp = s.stp :=
  (State.raise_frame (List.Subset.refl _) (Frame.refl _ _)).stp_eq
@[simp] theorem State.raise_qmx (s : State) (code : Nat) (func : Option Nat) (payload : List (Nat × Nat)) : (State.raise s code func payload).qmx = s.qmx :=
  (State.raise_frame (List.Subset.refl _) (Frame.refl _ _)).qmx_eq
@[simp] theorem State.raise_ten (s : State) (code : Nat) (func : Option Nat) (payload : List (Nat × Nat)) : (State.raise s code func payload).ten = s.ten :=
  (State.raise_frame (List.Subset.refl _) (Frame.refl _ _)).ten_eq
@[simp] theorem State.raise_fns (s : State) (code : Nat) (func : Option Nat) (payload : List (Nat × Nat)) : (State.raise s code func payload).fns = s.fns :=
  (State.raise_frame (List.Subset.refl _) (Frame.refl _ _)).fns_eq
@[simp] theorem State.raise_map (s : State) (code : Nat) (func : Option Nat) (payload : List (Nat × Nat)) : (State.raise s code func payload).map = s.map :=
  (State.raise_frame (List.Subset.refl _) (Frame.refl _ _)).map_eq
@[simp] theorem State.raise_wbf (s : State) (code : Nat) (func : Option Nat) (payload : List (Nat × Nat)) : (State.raise s code func payload).wbf = s.wbf :=
  (State.raise_frame (List.Subset.refl _) (Frame.refl _ _)).wbf_eq
@[simp] theorem State.raise_fch (s : State) (code : Nat) (func : Option Nat) (payload : List (Nat × Nat)) : (State.raise s code func payload).fch = s.fch :=
  (State.raise_frame (List.Subset.refl _) (Frame.refl _ _)).fch_eq
@[simp] theorem State.raise_ldc (s : State) (code : Nat) (func : Option Nat) (payload : List (Nat × Nat)) : (State.raise s code func payload).ldc = s.ldc :=
  (State.raise_frame (List.Subset.refl _) (Frame.refl _ _)).ldc_eq
@[simp] theorem State.raise_par (s : State) (code : Nat) (func : Option Nat) (payload : List (Nat × Nat)) : (State.raise s code func payload).par = s.par :=
  (State.raise_frame (List.Subset.refl _) (Frame.refl _ _)).par_eq
@[simp] theorem State.raise_rcl (s : State) (code : Nat) (func : Option Nat) (payload : List (Nat × Nat)) : (State.raise s code func payload).rcl = s.rcl :=
  (State.raise_frame (List.Subset.refl _) (Frame.refl _ _)).rcl_eq
@[simp] theorem State.raise_dmc (s : State) (code : Nat) (func : Option Nat) (payload : List (Nat × Nat)) : (State.raise s code func payload).dmc = s.dmc :=
  (State.raise_frame (List.Subset.refl _) (Frame.refl _ _)).dmc_eq
@[simp] theorem State.raise_key (s : State) (code : Nat) (func : Option Nat) (payload : List (Nat × Nat)) : (State.raise s code func payload).key = s.key :=
  (State.raise_frame (List.Subset.refl _) (Frame.refl _ _)).key_eq
@[simp] theorem State.raise_cip (s : State) (code : Nat) (func : Option Nat) (payload : List (Nat × Nat)) : (State.raise s code func payload).cip = s.cip :=
  (State.raise_frame (List.Subset.refl _) (Frame.refl _ _)).cip_eq
@[simp] theorem State.raise_staged (s : State) (code : Nat) (func : Option Nat) (payload : List (Nat × Nat)) : (State.raise s code func payload).staged = s.staged :=
  (State.raise_frame (List.Subset.refl _) (Frame.refl _ _)).staged_eq
@[simp] theorem State.raise_norWaits (s : State) (code : Nat) (func : Option Nat) (payload : List (Nat × Nat)) : (State.raise s code func payload).norWaits = s.norWaits :=
  (State.raise_frame (List.Subset.refl _) (Frame.refl _ _)).norWaits_eq
@[simp] theorem State.raise_hif (s : State) (code : Nat) (func : Option Nat) (payload : List (Nat × Nat)) : (State.raise s code func payload).hif = s.hif :=
  (State.raise_frame (List.Subset.refl _) (Frame.refl _ _)).hif_eq
@[simp] theorem State.raise_net (s : State) (code : Nat) (func : Option Nat) (payload : List (Nat × Nat)) : (State.raise s code func payload).net = s.net :=
  (State.raise_frame (List.Subset.refl _) (Frame.refl _ _)).net_eq
@[simp] theorem State.raise_sbi (s : State) (code : Nat) (func : Option Nat) (payload : List (Nat × Nat)) : (State.raise s code func payload).sbi = s.sbi :=
  (State.raise_frame (List.Subset.refl _) (Frame.refl _ _)).sbi_eq
@[simp] theorem State.raise_thm (s : State) (code : Nat) (func : Option Nat) (payload : List (Nat × Nat)) : (State.raise s code func payload).thm = s.thm :=
  (State.raise_frame (List.Subset.refl _) (Frame.refl _ _)).thm_eq
@[simp] theorem State.raise_hld (s : State) (code : Nat) (func : Option Nat) (payload : List (Nat × Nat)) : (State.raise s code func payload).hld = s.hld :=
  (State.raise_frame (List.Subset.refl _) (Frame.refl _ _)).hld_eq
@[simp] theorem State.raise_fuses (s : State) (code : Nat) (func : Option Nat) (payload : List (Nat × Nat)) : (State.raise s code func payload).fuses = s.fuses :=
  (State.raise_frame (List.Subset.refl _) (Frame.refl _ _)).fuses_eq
@[simp] theorem State.raise_nor (s : State) (code : Nat) (func : Option Nat) (payload : List (Nat × Nat)) : (State.raise s code func payload).nor = s.nor :=
  (State.raise_frame (List.Subset.refl _) (Frame.refl _ _)).nor_eq
@[simp] theorem State.raise_bot (s : State) (code : Nat) (func : Option Nat) (payload : List (Nat × Nat)) : (State.raise s code func payload).bot = s.bot :=
  (State.raise_frame (List.Subset.refl _) (Frame.refl _ _)).bot_eq
@[simp] theorem State.raise_pins (s : State) (code : Nat) (func : Option Nat) (payload : List (Nat × Nat)) : (State.raise s code func payload).pins = s.pins :=
  (State.raise_frame (List.Subset.refl _) (Frame.refl _ _)).pins_eq
@[simp] theorem State.raise_paths (s : State) (code : Nat) (func : Option Nat) (payload : List (Nat × Nat)) : (State.raise s code func payload).paths = s.paths :=
  (State.raise_frame (List.Subset.refl _) (Frame.refl _ _)).paths_eq
@[simp] theorem State.raise_cpx (s : State) (code : Nat) (func : Option Nat) (payload : List (Nat × Nat)) : (State.raise s code func payload).cpx = s.cpx :=
  (State.raise_frame (List.Subset.refl _) (Frame.refl _ _)).cpx_eq

@[simp] theorem State.setFn_pending (s : State) (f : Nat) (x : Fn) : (State.setFn s f x).pending = s.pending :=
  (State.setFn_frame (List.Subset.refl _) (Frame.refl _ _)).pending_eq
@[simp] theorem State.setFn_ans (s : State) (f : Nat) (x : Fn) : (State.setFn s f x).ans = s.ans :=
  (State.setFn_frame (List.Subset.refl _) (Frame.refl _ _)).ans_eq
@[simp] theorem State.setFn_draws (s : State) (f : Nat) (x : Fn) : (State.setFn s f x).draws = s.draws :=
  (State.setFn_frame (List.Subset.refl _) (Frame.refl _ _)).draws_eq
@[simp] theorem State.setFn_gate (s : State) (f : Nat) (x : Fn) : (State.setFn s f x).gate = s.gate :=
  (State.setFn_frame (List.Subset.refl _) (Frame.refl _ _)).gate_eq
@[simp] theorem State.setFn_tbs (s : State) (f : Nat) (x : Fn) : (State.setFn s f x).tbs = s.tbs :=
  (State.setFn_frame (List.Subset.refl _) (Frame.refl _ _)).tbs_eq
@[simp] theorem State.setFn_stp (s : State) (f : Nat) (x : Fn) : (State.setFn s f x).stp = s.stp :=
  (State.setFn_frame (List.Subset.refl _) (Frame.refl _ _)).stp_eq
@[simp] theorem State.setFn_qmx (s : State) (f : Nat) (x : Fn) : (State.setFn s f x).qmx = s.qmx :=
  (State.setFn_frame (List.Subset.refl _) (Frame.refl _ _)).qmx_eq
@[simp] theorem State.setFn_ten (s : State) (f : Nat) (x : Fn) : (State.setFn s f x).ten = s.ten :=
  (State.setFn_frame (List.Subset.refl _) (Frame.refl _ _)).ten_eq
@[simp] theorem State.setFn_map (s : State) (f : Nat) (x : Fn) : (State.setFn s f x).map = s.map :=
  (State.setFn_frame (List.Subset.refl _) (Frame.refl _ _)).map_eq
@[simp] theorem State.setFn_wbf (s : State) (f : Nat) (x : Fn) : (State.setFn s f x).wbf = s.wbf :=
  (State.setFn_frame (List.Subset.refl _) (Frame.refl _ _)).wbf_eq
@[simp] theorem State.setFn_fch (s : State) (f : Nat) (x : Fn) : (State.setFn s f x).fch = s.fch :=
  (State.setFn_frame (List.Subset.refl _) (Frame.refl _ _)).fch_eq
@[simp] theorem State.setFn_ldc (s : State) (f : Nat) (x : Fn) : (State.setFn s f x).ldc = s.ldc :=
  (State.setFn_frame (List.Subset.refl _) (Frame.refl _ _)).ldc_eq
@[simp] theorem State.setFn_par (s : State) (f : Nat) (x : Fn) : (State.setFn s f x).par = s.par :=
  (State.setFn_frame (List.Subset.refl _) (Frame.refl _ _)).par_eq
@[simp] theorem State.setFn_rcl (s : State) (f : Nat) (x : Fn) : (State.setFn s f x).rcl = s.rcl :=
  (State.setFn_frame (List.Subset.refl _) (Frame.refl _ _)).rcl_eq
@[simp] theorem State.setFn_dmc (s : State) (f : Nat) (x : Fn) : (State.setFn s f x).dmc = s.dmc :=
  (State.setFn_frame (List.Subset.refl _) (Frame.refl _ _)).dmc_eq
@[simp] theorem State.setFn_key (s : State) (f : Nat) (x : Fn) : (State.setFn s f x).key = s.key :=
  (State.setFn_frame (List.Subset.refl _) (Frame.refl _ _)).key_eq
@[simp] theorem State.setFn_cip (s : State) (f : Nat) (x : Fn) : (State.setFn s f x).cip = s.cip :=
  (State.setFn_frame (List.Subset.refl _) (Frame.refl _ _)).cip_eq
@[simp] theorem State.setFn_staged (s : State) (f : Nat) (x : Fn) : (State.setFn s f x).staged = s.staged :=
  (State.setFn_frame (List.Subset.refl _) (Frame.refl _ _)).staged_eq
@[simp] theorem State.setFn_norWaits (s : State) (f : Nat) (x : Fn) : (State.setFn s f x).norWaits = s.norWaits :=
  (State.setFn_frame (List.Subset.refl _) (Frame.refl _ _)).norWaits_eq
@[simp] theorem State.setFn_hif (s : State) (f : Nat) (x : Fn) : (State.setFn s f x).hif = s.hif :=
  (State.setFn_frame (List.Subset.refl _) (Frame.refl _ _)).hif_eq
@[simp] theorem State.setFn_net (s : State) (f : Nat) (x : Fn) : (State.setFn s f x).net = s.net :=
  (State.setFn_frame (List.Subset.refl _) (Frame.refl _ _)).net_eq
@[simp] theorem State.setFn_sbi (s : State) (f : Nat) (x : Fn) : (State.setFn s f x).sbi = s.sbi :=
  (State.setFn_frame (List.Subset.refl _) (Frame.refl _ _)).sbi_eq
@[simp] theorem State.setFn_thm (s : State) (f : Nat) (x : Fn) : (State.setFn s f x).thm = s.thm :=
  (State.setFn_frame (List.Subset.refl _) (Frame.refl _ _)).thm_eq
@[simp] theorem State.setFn_hld (s : State) (f : Nat) (x : Fn) : (State.setFn s f x).hld = s.hld :=
  (State.setFn_frame (List.Subset.refl _) (Frame.refl _ _)).hld_eq
@[simp] theorem State.setFn_fuses (s : State) (f : Nat) (x : Fn) : (State.setFn s f x).fuses = s.fuses :=
  (State.setFn_frame (List.Subset.refl _) (Frame.refl _ _)).fuses_eq
@[simp] theorem State.setFn_nor (s : State) (f : Nat) (x : Fn) : (State.setFn s f x).nor = s.nor :=
  (State.setFn_frame (List.Subset.refl _) (Frame.refl _ _)).nor_eq
@[simp] theorem State.setFn_bot (s : State) (f : Nat) (x : Fn) : (State.setFn s f x).bot = s.bot :=
  (State.setFn_frame (List.Subset.refl _) (Frame.refl _ _)).bot_eq
@[simp] theorem State.setFn_pins (s : State) (f : Nat) (x : Fn) : (State.setFn s f x).pins = s.pins :=
  (State.setFn_frame (List.Subset.refl _) (Frame.refl _ _)).pins_eq
@[simp] theorem State.setFn_evl (s : State) (f : Nat) (x : Fn) : (State.setFn s f x).evl = s.evl :=
  (State.setFn_frame (List.Subset.refl _) (Frame.refl _ _)).evl_eq
@[simp] theorem State.setFn_paths (s : State) (f : Nat) (x : Fn) : (State.setFn s f x).paths = s.paths :=
  (State.setFn_frame (List.Subset.refl _) (Frame.refl _ _)).paths_eq
@[simp] theorem State.setFn_pages (s : State) (f : Nat) (x : Fn) : (State.setFn s f x).pages = s.pages :=
  (State.setFn_frame (List.Subset.refl _) (Frame.refl _ _)).pages_eq
@[simp] theorem State.setFn_regs (s : State) (f : Nat) (x : Fn) : (State.setFn s f x).regs = s.regs :=
  (State.setFn_frame (List.Subset.refl _) (Frame.refl _ _)).regs_eq
@[simp] theorem State.setFn_cpx (s : State) (f : Nat) (x : Fn) : (State.setFn s f x).cpx = s.cpx :=
  (State.setFn_frame (List.Subset.refl _) (Frame.refl _ _)).cpx_eq

@[simp] theorem State.updFn_pending (s : State) (f : Nat) (g : Fn → Fn) : (State.updFn s f g).pending = s.pending :=
  (State.updFn_frame (List.Subset.refl _) (Frame.refl _ _)).pending_eq
@[simp] theorem State.updFn_ans (s : State) (f : Nat) (g : Fn → Fn) : (State.updFn s f g).ans = s.ans :=
  (State.updFn_frame (List.Subset.refl _) (Frame.refl _ _)).ans_eq
@[simp] theorem State.updFn_draws (s : State) (f : Nat) (g : Fn → Fn) : (State.updFn s f g).draws = s.draws :=
  (State.updFn_frame (List.Subset.refl _) (Frame.refl _ _)).draws_eq
@[simp] theorem State.updFn_gate (s : State) (f : Nat) (g : Fn → Fn) : (State.updFn s f g).gate = s.gate :=
  (State.updFn_frame (List.Subset.refl _) (Frame.refl _ _)).gate_eq
@[simp] theorem State.updFn_tbs (s : State) (f : Nat) (g : Fn → Fn) : (State.updFn s f g).tbs = s.tbs :=
  (State.updFn_frame (List.Subset.refl _) (Frame.refl _ _)).tbs_eq
@[simp] theorem State.updFn_stp (s : State) (f : Nat) (g : Fn → Fn) : (State.updFn s f g).stp = s.stp :=
  (State.updFn_frame (List.Subset.refl _) (Frame.refl _ _)).stp_eq
@[simp] theorem State.updFn_qmx (s : State) (f : Nat) (g : Fn → Fn) : (State.updFn s f g).qmx = s.qmx :=
  (State.updFn_frame (List.Subset.refl _) (Frame.refl _ _)).qmx_eq
@[simp] theorem State.updFn_ten (s : State) (f : Nat) (g : Fn → Fn) : (State.updFn s f g).ten = s.ten :=
  (State.updFn_frame (List.Subset.refl _) (Frame.refl _ _)).ten_eq
@[simp] theorem State.updFn_map (s : State) (f : Nat) (g : Fn → Fn) : (State.updFn s f g).map = s.map :=
  (State.updFn_frame (List.Subset.refl _) (Frame.refl _ _)).map_eq
@[simp] theorem State.updFn_wbf (s : State) (f : Nat) (g : Fn → Fn) : (State.updFn s f g).wbf = s.wbf :=
  (State.updFn_frame (List.Subset.refl _) (Frame.refl _ _)).wbf_eq
@[simp] theorem State.updFn_fch (s : State) (f : Nat) (g : Fn → Fn) : (State.updFn s f g).fch = s.fch :=
  (State.updFn_frame (List.Subset.refl _) (Frame.refl _ _)).fch_eq
@[simp] theorem State.updFn_ldc (s : State) (f : Nat) (g : Fn → Fn) : (State.updFn s f g).ldc = s.ldc :=
  (State.updFn_frame (List.Subset.refl _) (Frame.refl _ _)).ldc_eq
@[simp] theorem State.updFn_par (s : State) (f : Nat) (g : Fn → Fn) : (State.updFn s f g).par = s.par :=
  (State.updFn_frame (List.Subset.refl _) (Frame.refl _ _)).par_eq
@[simp] theorem State.updFn_rcl (s : State) (f : Nat) (g : Fn → Fn) : (State.updFn s f g).rcl = s.rcl :=
  (State.updFn_frame (List.Subset.refl _) (Frame.refl _ _)).rcl_eq
@[simp] theorem State.updFn_dmc (s : State) (f : Nat) (g : Fn → Fn) : (State.updFn s f g).dmc = s.dmc :=
  (State.updFn_frame (List.Subset.refl _) (Frame.refl _ _)).dmc_eq
@[simp] theorem State.updFn_key (s : State) (f : Nat) (g : Fn → Fn) : (State.updFn s f g).key = s.key :=
  (State.updFn_frame (List.Subset.refl _) (Frame.refl _ _)).key_eq
@[simp] theorem State.updFn_cip (s : State) (f : Nat) (g : Fn → Fn) : (State.updFn s f g).cip = s.cip :=
  (State.updFn_frame (List.Subset.refl _) (Frame.refl _ _)).cip_eq
@[simp] theorem State.updFn_staged (s : State) (f : Nat) (g : Fn → Fn) : (State.updFn s f g).staged = s.staged :=
  (State.updFn_frame (List.Subset.refl _) (Frame.refl _ _)).staged_eq
@[simp] theorem State.updFn_norWaits (s : State) (f : Nat) (g : Fn → Fn) : (State.updFn s f g).norWaits = s.norWaits :=
  (State.updFn_frame (List.Subset.refl _) (Frame.refl _ _)).norWaits_eq
@[simp] theorem State.updFn_hif (s : State) (f : Nat) (g : Fn → Fn) : (State.updFn s f g).hif = s.hif :=
  (State.updFn_frame (List.Subset.refl _) (Frame.refl _ _)).hif_eq
@[simp] theorem State.updFn_net (s : State) (f : Nat) (g : Fn → Fn) : (State.updFn s f g).net = s.net :=
  (State.updFn_frame (List.Subset.refl _) (Frame.refl _ _)).net_eq
@[simp] theorem State.updFn_sbi (s : State) (f : Nat) (g : Fn → Fn) : (State.updFn s f g).sbi = s.sbi :=
  (State.updFn_frame (List.Subset.refl _) (Frame.refl _ _)).sbi_eq
@[simp] theorem State.updFn_thm (s : State) (f : Nat) (g : Fn → Fn) : (State.updFn s f g).thm = s.thm :=
  (State.updFn_frame (List.Subset.refl _) (Frame.refl _ _)).thm_eq
@[simp] theorem State.updFn_hld (s : State) (f : Nat) (g : Fn → Fn) : (State.updFn s f g).hld = s.hld :=
  (State.updFn_frame (List.Subset.refl _) (Frame.refl _ _)).hld_eq
@[simp] theorem State.updFn_fuses (s : State) (f : Nat) (g : Fn → Fn) : (State.updFn s f g).fuses = s.fuses :=
  (State.updFn_frame (List.Subset.refl _) (Frame.refl _ _)).fuses_eq
@[simp] theorem State.updFn_nor (s : State) (f : Nat) (g : Fn → Fn) : (State.updFn s f g).nor = s.nor :=
  (State.updFn_frame (List.Subset.refl _) (Frame.refl _ _)).nor_eq
@[simp] theorem State.updFn_bot (s : State) (f : Nat) (g : Fn → Fn) : (State.updFn s f g).bot = s.bot :=
  (State.updFn_frame (List.Subset.refl _) (Frame.refl _ _)).bot_eq
@[simp] theorem State.updFn_pins (s : State) (f : Nat) (g : Fn → Fn) : (State.updFn s f g).pins = s.pins :=
  (State.updFn_frame (List.Subset.refl _) (Frame.refl _ _)).pins_eq
@[simp] theorem State.updFn_evl (s : State) (f : Nat) (g : Fn → Fn) : (State.updFn s f g).evl = s.evl :=
  (State.updFn_frame (List.Subset.refl _) (Frame.refl _ _)).evl_eq
@[simp] theorem State.updFn_paths (s : State) (f : Nat) (g : Fn → Fn) : (State.updFn s f g).paths = s.paths :=
  (State.updFn_frame (List.Subset.refl _) (Frame.refl _ _)).paths_eq
@[simp] theorem State.updFn_pages (s : State) (f : Nat) (g : Fn → Fn) : (State.updFn s f g).pages = s.pages :=
  (State.updFn_frame (List.Subset.refl _) (Frame.refl _ _)).pages_eq
@[simp] theorem State.updFn_regs (s : State) (f : Nat) (g : Fn → Fn) : (State.updFn s f g).regs = s.regs :=
  (State.updFn_frame (List.Subset.refl _) (Frame.refl _ _)).regs_eq
@[simp] theorem State.updFn_cpx (s : State) (f : Nat) (g : Fn → Fn) : (State.updFn s f g).cpx = s.cpx :=
  (State.updFn_frame (List.Subset.refl _) (Frame.refl _ _)).cpx_eq

@[simp] theorem State.updCmd_pending (s : State) (seq : Nat) (g : Cmd → Cmd) : (State.updCmd s seq g).pending = s.pending :=
  (State.updCmd_frame (List.Subset.refl _) (Frame.refl _ _)).pending_eq
@[simp] theorem State.updCmd_ans (s : State) (seq : Nat) (g : Cmd → Cmd) : (State.updCmd s seq g).ans = s.ans :=
  (State.updCmd_frame (List.Subset.refl _) (Frame.refl _ _)).ans_eq
@[simp] theorem State.updCmd_draws (s : State) (seq : Nat) (g : Cmd → Cmd) : (State.updCmd s seq g).draws = s.draws :=
  (State.updCmd_frame (List.Subset.refl _) (Frame.refl _ _)).draws_eq
@[simp] theorem State.updCmd_gate (s : State) (seq : Nat) (g : Cmd → Cmd) : (State.updCmd s seq g).gate = s.gate :=
  (State.updCmd_frame (List.Subset.refl _) (Frame.refl _ _)).gate_eq
@[simp] theorem State.updCmd_tbs (s : State) (seq : Nat) (g : Cmd → Cmd) : (State.updCmd s seq g).tbs = s.tbs :=
  (State.updCmd_frame (List.Subset.refl _) (Frame.refl _ _)).tbs_eq
@[simp] theorem State.updCmd_stp (s : State) (seq : Nat) (g : Cmd → Cmd) : (State.updCmd s seq g).stp = s.stp :=
  (State.updCmd_frame (List.Subset.refl _) (Frame.refl _ _)).stp_eq
@[simp] theorem State.updCmd_ten (s : State) (seq : Nat) (g : Cmd → Cmd) : (State.updCmd s seq g).ten = s.ten :=
  (State.updCmd_frame (List.Subset.refl _) (Frame.refl _ _)).ten_eq
@[simp] theorem State.updCmd_fns (s : State) (seq : Nat) (g : Cmd → Cmd) : (State.updCmd s seq g).fns = s.fns :=
  (State.updCmd_frame (List.Subset.refl _) (Frame.refl _ _)).fns_eq
@[simp] theorem State.updCmd_map (s : State) (seq : Nat) (g : Cmd → Cmd) : (State.updCmd s seq g).map = s.map :=
  (State.updCmd_frame (List.Subset.refl _) (Frame.refl _ _)).map_eq
@[simp] theorem State.updCmd_wbf (s : State) (seq : Nat) (g : Cmd → Cmd) : (State.updCmd s seq g).wbf = s.wbf :=
  (State.updCmd_frame (List.Subset.refl _) (Frame.refl _ _)).wbf_eq
@[simp] theorem State.updCmd_fch (s : State) (seq : Nat) (g : Cmd → Cmd) : (State.updCmd s seq g).fch = s.fch :=
  (State.updCmd_frame (List.Subset.refl _) (Frame.refl _ _)).fch_eq
@[simp] theorem State.updCmd_ldc (s : State) (seq : Nat) (g : Cmd → Cmd) : (State.updCmd s seq g).ldc = s.ldc :=
  (State.updCmd_frame (List.Subset.refl _) (Frame.refl _ _)).ldc_eq
@[simp] theorem State.updCmd_par (s : State) (seq : Nat) (g : Cmd → Cmd) : (State.updCmd s seq g).par = s.par :=
  (State.updCmd_frame (List.Subset.refl _) (Frame.refl _ _)).par_eq
@[simp] theorem State.updCmd_rcl (s : State) (seq : Nat) (g : Cmd → Cmd) : (State.updCmd s seq g).rcl = s.rcl :=
  (State.updCmd_frame (List.Subset.refl _) (Frame.refl _ _)).rcl_eq
@[simp] theorem State.updCmd_dmc (s : State) (seq : Nat) (g : Cmd → Cmd) : (State.updCmd s seq g).dmc = s.dmc :=
  (State.updCmd_frame (List.Subset.refl _) (Frame.refl _ _)).dmc_eq
@[simp] theorem State.updCmd_key (s : State) (seq : Nat) (g : Cmd → Cmd) : (State.updCmd s seq g).key = s.key :=
  (State.updCmd_frame (List.Subset.refl _) (Frame.refl _ _)).key_eq
@[simp] theorem State.updCmd_cip (s : State) (seq : Nat) (g : Cmd → Cmd) : (State.updCmd s seq g).cip = s.cip :=
  (State.updCmd_frame (List.Subset.refl _) (Frame.refl _ _)).cip_eq
@[simp] theorem State.updCmd_staged (s : State) (seq : Nat) (g : Cmd → Cmd) : (State.updCmd s seq g).staged = s.staged :=
  (State.updCmd_frame (List.Subset.refl _) (Frame.refl _ _)).staged_eq
@[simp] theorem State.updCmd_norWaits (s : State) (seq : Nat) (g : Cmd → Cmd) : (State.updCmd s seq g).norWaits = s.norWaits :=
  (State.updCmd_frame (List.Subset.refl _) (Frame.refl _ _)).norWaits_eq
@[simp] theorem State.updCmd_hif (s : State) (seq : Nat) (g : Cmd → Cmd) : (State.updCmd s seq g).hif = s.hif :=
  (State.updCmd_frame (List.Subset.refl _) (Frame.refl _ _)).hif_eq
@[simp] theorem State.updCmd_net (s : State) (seq : Nat) (g : Cmd → Cmd) : (State.updCmd s seq g).net = s.net :=
  (State.updCmd_frame (List.Subset.refl _) (Frame.refl _ _)).net_eq
@[simp] theorem State.updCmd_sbi (s : State) (seq : Nat) (g : Cmd → Cmd) : (State.updCmd s seq g).sbi = s.sbi :=
  (State.updCmd_frame (List.Subset.refl _) (Frame.refl _ _)).sbi_eq
@[simp] theorem State.updCmd_thm (s : State) (seq : Nat) (g : Cmd → Cmd) : (State.updCmd s seq g).thm = s.thm :=
  (State.updCmd_frame (List.Subset.refl _) (Frame.refl _ _)).thm_eq
@[simp] theorem State.updCmd_hld (s : State) (seq : Nat) (g : Cmd → Cmd) : (State.updCmd s seq g).hld = s.hld :=
  (State.updCmd_frame (List.Subset.refl _) (Frame.refl _ _)).hld_eq
@[simp] theorem State.updCmd_fuses (s : State) (seq : Nat) (g : Cmd → Cmd) : (State.updCmd s seq g).fuses = s.fuses :=
  (State.updCmd_frame (List.Subset.refl _) (Frame.refl _ _)).fuses_eq
@[simp] theorem State.updCmd_nor (s : State) (seq : Nat) (g : Cmd → Cmd) : (State.updCmd s seq g).nor = s.nor :=
  (State.updCmd_frame (List.Subset.refl _) (Frame.refl _ _)).nor_eq
@[simp] theorem State.updCmd_bot (s : State) (seq : Nat) (g : Cmd → Cmd) : (State.updCmd s seq g).bot = s.bot :=
  (State.updCmd_frame (List.Subset.refl _) (Frame.refl _ _)).bot_eq
@[simp] theorem State.updCmd_pins (s : State) (seq : Nat) (g : Cmd → Cmd) : (State.updCmd s seq g).pins = s.pins :=
  (State.updCmd_frame (List.Subset.refl _) (Frame.refl _ _)).pins_eq
@[simp] theorem State.updCmd_evl (s : State) (seq : Nat) (g : Cmd → Cmd) : (State.updCmd s seq g).evl = s.evl :=
  (State.updCmd_frame (List.Subset.refl _) (Frame.refl _ _)).evl_eq
@[simp] theorem State.updCmd_paths (s : State) (seq : Nat) (g : Cmd → Cmd) : (State.updCmd s seq g).paths = s.paths :=
  (State.updCmd_frame (List.Subset.refl _) (Frame.refl _ _)).paths_eq
@[simp] theorem State.updCmd_pages (s : State) (seq : Nat) (g : Cmd → Cmd) : (State.updCmd s seq g).pages = s.pages :=
  (State.updCmd_frame (List.Subset.refl _) (Frame.refl _ _)).pages_eq
@[simp] theorem State.updCmd_regs (s : State) (seq : Nat) (g : Cmd → Cmd) : (State.updCmd s seq g).regs = s.regs :=
  (State.updCmd_frame (List.Subset.refl _) (Frame.refl _ _)).regs_eq
@[simp] theorem State.updCmd_cpx (s : State) (seq : Nat) (g : Cmd → Cmd) : (State.updCmd s seq g).cpx = s.cpx :=
  (State.updCmd_frame (List.Subset.refl _) (Frame.refl _ _)).cpx_eq

@[simp] theorem State.dropCmd_pending (s : State) (seq : Nat) : (State.dropCmd s seq).pending = s.pending :=
  (State.dropCmd_frame (List.Subset.refl _) (Frame.refl _ _)).pending_eq
@[simp] theorem State.dropCmd_ans (s : State) (seq : Nat) : (State.dropCmd s seq).ans = s.ans :=
  (State.dropCmd_frame (List.Subset.refl _) (Frame.refl _ _)).ans_eq
@[simp] theorem State.dropCmd_draws (s : State) (seq : Nat) : (State.dropCmd s seq).draws = s.draws :=
  (State.dropCmd_frame (List.Subset.refl _) (Frame.refl _ _)).draws_eq
@[simp] theorem State.dropCmd_gate (s : State) (seq : Nat) : (State.dropCmd s seq).gate = s.gate :=
  (State.dropCmd_frame (List.Subset.refl _) (Frame.refl _ _)).gate_eq
@[simp] theorem State.dropCmd_tbs (s : State) (seq : Nat) : (State.dropCmd s seq).tbs = s.tbs :=
  (State.dropCmd_frame (List.Subset.refl _) (Frame.refl _ _)).tbs_eq
@[simp] theorem State.dropCmd_stp (s : State) (seq : Nat) : (State.dropCmd s seq).stp = s.stp :=
  (State.dropCmd_frame (List.Subset.refl _) (Frame.refl _ _)).stp_eq
@[simp] theorem State.dropCmd_ten (s : State) (seq : Nat) : (State.dropCmd s seq).ten = s.ten :=
  (State.dropCmd_frame (List.Subset.refl _) (Frame.refl _ _)).ten_eq
@[simp] theorem State.dropCmd_fns (s : State) (seq : Nat) : (State.dropCmd s seq).fns = s.fns :=
  (State.dropCmd_frame (List.Subset.refl _) (Frame.refl _ _)).fns_eq
@[simp] theorem State.dropCmd_map (s : State) (seq : Nat) : (State.dropCmd s seq).map = s.map :=
  (State.dropCmd_frame (List.Subset.refl _) (Frame.refl _ _)).map_eq
@[simp] theorem State.dropCmd_wbf (s : State) (seq : Nat) : (State.dropCmd s seq).wbf = s.wbf :=
  (State.dropCmd_frame (List.Subset.refl _) (Frame.refl _ _)).wbf_eq
@[simp] theorem State.dropCmd_fch (s : State) (seq : Nat) : (State.dropCmd s seq).fch = s.fch :=
  (State.dropCmd_frame (List.Subset.refl _) (Frame.refl _ _)).fch_eq
@[simp] theorem State.dropCmd_ldc (s : State) (seq : Nat) : (State.dropCmd s seq).ldc = s.ldc :=
  (State.dropCmd_frame (List.Subset.refl _) (Frame.refl _ _)).ldc_eq
@[simp] theorem State.dropCmd_par (s : State) (seq : Nat) : (State.dropCmd s seq).par = s.par :=
  (State.dropCmd_frame (List.Subset.refl _) (Frame.refl _ _)).par_eq
@[simp] theorem State.dropCmd_rcl (s : State) (seq : Nat) : (State.dropCmd s seq).rcl = s.rcl :=
  (State.dropCmd_frame (List.Subset.refl _) (Frame.refl _ _)).rcl_eq
@[simp] theorem State.dropCmd_dmc (s : State) (seq : Nat) : (State.dropCmd s seq).dmc = s.dmc :=
  (State.dropCmd_frame (List.Subset.refl _) (Frame.refl _ _)).dmc_eq
@[simp] theorem State.dropCmd_key (s : State) (seq : Nat) : (State.dropCmd s seq).key = s.key :=
  (State.dropCmd_frame (List.Subset.refl _) (Frame.refl _ _)).key_eq
@[simp] theorem State.dropCmd_cip (s : State) (seq : Nat) : (State.dropCmd s seq).cip = s.cip :=
  (State.dropCmd_frame (List.Subset.refl _) (Frame.refl _ _)).cip_eq
@[simp] theorem State.dropCmd_staged (s : State) (seq : Nat) : (State.dropCmd s seq).staged = s.staged :=
  (State.dropCmd_frame (List.Subset.refl _) (Frame.refl _ _)).staged_eq
@[simp] theorem State.dropCmd_norWaits (s : State) (seq : Nat) : (State.dropCmd s seq).norWaits = s.norWaits :=
  (State.dropCmd_frame (List.Subset.refl _) (Frame.refl _ _)).norWaits_eq
@[simp] theorem State.dropCmd_hif (s : State) (seq : Nat) : (State.dropCmd s seq).hif = s.hif :=
  (State.dropCmd_frame (List.Subset.refl _) (Frame.refl _ _)).hif_eq
@[simp] theorem State.dropCmd_net (s : State) (seq : Nat) : (State.dropCmd s seq).net = s.net :=
  (State.dropCmd_frame (List.Subset.refl _) (Frame.refl _ _)).net_eq
@[simp] theorem State.dropCmd_sbi (s : State) (seq : Nat) : (State.dropCmd s seq).sbi = s.sbi :=
  (State.dropCmd_frame (List.Subset.refl _) (Frame.refl _ _)).sbi_eq
@[simp] theorem State.dropCmd_thm (s : State) (seq : Nat) : (State.dropCmd s seq).thm = s.thm :=
  (State.dropCmd_frame (List.Subset.refl _) (Frame.refl _ _)).thm_eq
@[simp] theorem State.dropCmd_hld (s : State) (seq : Nat) : (State.dropCmd s seq).hld = s.hld :=
  (State.dropCmd_frame (List.Subset.refl _) (Frame.refl _ _)).hld_eq
@[simp] theorem State.dropCmd_fuses (s : State) (seq : Nat) : (State.dropCmd s seq).fuses = s.fuses :=
  (State.dropCmd_frame (List.Subset.refl _) (Frame.refl _ _)).fuses_eq
@[simp] theorem State.dropCmd_nor (s : State) (seq : Nat) : (State.dropCmd s seq).nor = s.nor :=
  (State.dropCmd_frame (List.Subset.refl _) (Frame.refl _ _)).nor_eq
@[simp] theorem State.dropCmd_bot (s : State) (seq : Nat) : (State.dropCmd s seq).bot = s.bot :=
  (State.dropCmd_frame (List.Subset.refl _) (Frame.refl _ _)).bot_eq
@[simp] theorem State.dropCmd_pins (s : State) (seq : Nat) : (State.dropCmd s seq).pins = s.pins :=
  (State.dropCmd_frame (List.Subset.refl _) (Frame.refl _ _)).pins_eq
@[simp] theorem State.dropCmd_evl (s : State) (seq : Nat) : (State.dropCmd s seq).evl = s.evl :=
  (State.dropCmd_frame (List.Subset.refl _) (Frame.refl _ _)).evl_eq
@[simp] theorem State.dropCmd_paths (s : State) (seq : Nat) : (State.dropCmd s seq).paths = s.paths :=
  (State.dropCmd_frame (List.Subset.refl _) (Frame.refl _ _)).paths_eq
@[simp] theorem State.dropCmd_pages (s : State) (seq : Nat) : (State.dropCmd s seq).pages = s.pages :=
  (State.dropCmd_frame (List.Subset.refl _) (Frame.refl _ _)).pages_eq
@[simp] theorem State.dropCmd_regs (s : State) (seq : Nat) : (State.dropCmd s seq).regs = s.regs :=
  (State.dropCmd_frame (List.Subset.refl _) (Frame.refl _ _)).regs_eq
@[simp] theorem State.dropCmd_cpx (s : State) (seq : Nat) : (State.dropCmd s seq).cpx = s.cpx :=
  (State.dropCmd_frame (List.Subset.refl _) (Frame.refl _ _)).cpx_eq

@[simp] theorem State.postWide_pending (s : State) (c : Cmd) (t : Status) (dw0 dw1 : Dword) : (State.postWide s c t dw0 dw1).pending = s.pending :=
  (State.postWide_frame (List.Subset.refl _) (Frame.refl _ _)).pending_eq
@[simp] theorem State.postWide_ans (s : State) (c : Cmd) (t : Status) (dw0 dw1 : Dword) : (State.postWide s c t dw0 dw1).ans = s.ans :=
  (State.postWide_frame (List.Subset.refl _) (Frame.refl _ _)).ans_eq
@[simp] theorem State.postWide_draws (s : State) (c : Cmd) (t : Status) (dw0 dw1 : Dword) : (State.postWide s c t dw0 dw1).draws = s.draws :=
  (State.postWide_frame (List.Subset.refl _) (Frame.refl _ _)).draws_eq
@[simp] theorem State.postWide_gate (s : State) (c : Cmd) (t : Status) (dw0 dw1 : Dword) : (State.postWide s c t dw0 dw1).gate = s.gate :=
  (State.postWide_frame (List.Subset.refl _) (Frame.refl _ _)).gate_eq
@[simp] theorem State.postWide_tbs (s : State) (c : Cmd) (t : Status) (dw0 dw1 : Dword) : (State.postWide s c t dw0 dw1).tbs = s.tbs :=
  (State.postWide_frame (List.Subset.refl _) (Frame.refl _ _)).tbs_eq
@[simp] theorem State.postWide_stp (s : State) (c : Cmd) (t : Status) (dw0 dw1 : Dword) : (State.postWide s c t dw0 dw1).stp = s.stp :=
  (State.postWide_frame (List.Subset.refl _) (Frame.refl _ _)).stp_eq
@[simp] theorem State.postWide_qmx (s : State) (c : Cmd) (t : Status) (dw0 dw1 : Dword) : (State.postWide s c t dw0 dw1).qmx = s.qmx :=
  (State.postWide_frame (List.Subset.refl _) (Frame.refl _ _)).qmx_eq
@[simp] theorem State.postWide_ten (s : State) (c : Cmd) (t : Status) (dw0 dw1 : Dword) : (State.postWide s c t dw0 dw1).ten = s.ten :=
  (State.postWide_frame (List.Subset.refl _) (Frame.refl _ _)).ten_eq
@[simp] theorem State.postWide_map (s : State) (c : Cmd) (t : Status) (dw0 dw1 : Dword) : (State.postWide s c t dw0 dw1).map = s.map :=
  (State.postWide_frame (List.Subset.refl _) (Frame.refl _ _)).map_eq
@[simp] theorem State.postWide_wbf (s : State) (c : Cmd) (t : Status) (dw0 dw1 : Dword) : (State.postWide s c t dw0 dw1).wbf = s.wbf :=
  (State.postWide_frame (List.Subset.refl _) (Frame.refl _ _)).wbf_eq
@[simp] theorem State.postWide_fch (s : State) (c : Cmd) (t : Status) (dw0 dw1 : Dword) : (State.postWide s c t dw0 dw1).fch = s.fch :=
  (State.postWide_frame (List.Subset.refl _) (Frame.refl _ _)).fch_eq
@[simp] theorem State.postWide_ldc (s : State) (c : Cmd) (t : Status) (dw0 dw1 : Dword) : (State.postWide s c t dw0 dw1).ldc = s.ldc :=
  (State.postWide_frame (List.Subset.refl _) (Frame.refl _ _)).ldc_eq
@[simp] theorem State.postWide_par (s : State) (c : Cmd) (t : Status) (dw0 dw1 : Dword) : (State.postWide s c t dw0 dw1).par = s.par :=
  (State.postWide_frame (List.Subset.refl _) (Frame.refl _ _)).par_eq
@[simp] theorem State.postWide_rcl (s : State) (c : Cmd) (t : Status) (dw0 dw1 : Dword) : (State.postWide s c t dw0 dw1).rcl = s.rcl :=
  (State.postWide_frame (List.Subset.refl _) (Frame.refl _ _)).rcl_eq
@[simp] theorem State.postWide_dmc (s : State) (c : Cmd) (t : Status) (dw0 dw1 : Dword) : (State.postWide s c t dw0 dw1).dmc = s.dmc :=
  (State.postWide_frame (List.Subset.refl _) (Frame.refl _ _)).dmc_eq
@[simp] theorem State.postWide_key (s : State) (c : Cmd) (t : Status) (dw0 dw1 : Dword) : (State.postWide s c t dw0 dw1).key = s.key :=
  (State.postWide_frame (List.Subset.refl _) (Frame.refl _ _)).key_eq
@[simp] theorem State.postWide_cip (s : State) (c : Cmd) (t : Status) (dw0 dw1 : Dword) : (State.postWide s c t dw0 dw1).cip = s.cip :=
  (State.postWide_frame (List.Subset.refl _) (Frame.refl _ _)).cip_eq
@[simp] theorem State.postWide_staged (s : State) (c : Cmd) (t : Status) (dw0 dw1 : Dword) : (State.postWide s c t dw0 dw1).staged = s.staged :=
  (State.postWide_frame (List.Subset.refl _) (Frame.refl _ _)).staged_eq
@[simp] theorem State.postWide_norWaits (s : State) (c : Cmd) (t : Status) (dw0 dw1 : Dword) : (State.postWide s c t dw0 dw1).norWaits = s.norWaits :=
  (State.postWide_frame (List.Subset.refl _) (Frame.refl _ _)).norWaits_eq
@[simp] theorem State.postWide_hif (s : State) (c : Cmd) (t : Status) (dw0 dw1 : Dword) : (State.postWide s c t dw0 dw1).hif = s.hif :=
  (State.postWide_frame (List.Subset.refl _) (Frame.refl _ _)).hif_eq
@[simp] theorem State.postWide_net (s : State) (c : Cmd) (t : Status) (dw0 dw1 : Dword) : (State.postWide s c t dw0 dw1).net = s.net :=
  (State.postWide_frame (List.Subset.refl _) (Frame.refl _ _)).net_eq
@[simp] theorem State.postWide_sbi (s : State) (c : Cmd) (t : Status) (dw0 dw1 : Dword) : (State.postWide s c t dw0 dw1).sbi = s.sbi :=
  (State.postWide_frame (List.Subset.refl _) (Frame.refl _ _)).sbi_eq
@[simp] theorem State.postWide_thm (s : State) (c : Cmd) (t : Status) (dw0 dw1 : Dword) : (State.postWide s c t dw0 dw1).thm = s.thm :=
  (State.postWide_frame (List.Subset.refl _) (Frame.refl _ _)).thm_eq
@[simp] theorem State.postWide_hld (s : State) (c : Cmd) (t : Status) (dw0 dw1 : Dword) : (State.postWide s c t dw0 dw1).hld = s.hld :=
  (State.postWide_frame (List.Subset.refl _) (Frame.refl _ _)).hld_eq
@[simp] theorem State.postWide_fuses (s : State) (c : Cmd) (t : Status) (dw0 dw1 : Dword) : (State.postWide s c t dw0 dw1).fuses = s.fuses :=
  (State.postWide_frame (List.Subset.refl _) (Frame.refl _ _)).fuses_eq
@[simp] theorem State.postWide_nor (s : State) (c : Cmd) (t : Status) (dw0 dw1 : Dword) : (State.postWide s c t dw0 dw1).nor = s.nor :=
  (State.postWide_frame (List.Subset.refl _) (Frame.refl _ _)).nor_eq
@[simp] theorem State.postWide_bot (s : State) (c : Cmd) (t : Status) (dw0 dw1 : Dword) : (State.postWide s c t dw0 dw1).bot = s.bot :=
  (State.postWide_frame (List.Subset.refl _) (Frame.refl _ _)).bot_eq
@[simp] theorem State.postWide_pins (s : State) (c : Cmd) (t : Status) (dw0 dw1 : Dword) : (State.postWide s c t dw0 dw1).pins = s.pins :=
  (State.postWide_frame (List.Subset.refl _) (Frame.refl _ _)).pins_eq
@[simp] theorem State.postWide_evl (s : State) (c : Cmd) (t : Status) (dw0 dw1 : Dword) : (State.postWide s c t dw0 dw1).evl = s.evl :=
  (State.postWide_frame (List.Subset.refl _) (Frame.refl _ _)).evl_eq
@[simp] theorem State.postWide_paths (s : State) (c : Cmd) (t : Status) (dw0 dw1 : Dword) : (State.postWide s c t dw0 dw1).paths = s.paths :=
  (State.postWide_frame (List.Subset.refl _) (Frame.refl _ _)).paths_eq
@[simp] theorem State.postWide_pages (s : State) (c : Cmd) (t : Status) (dw0 dw1 : Dword) : (State.postWide s c t dw0 dw1).pages = s.pages :=
  (State.postWide_frame (List.Subset.refl _) (Frame.refl _ _)).pages_eq
@[simp] theorem State.postWide_regs (s : State) (c : Cmd) (t : Status) (dw0 dw1 : Dword) : (State.postWide s c t dw0 dw1).regs = s.regs :=
  (State.postWide_frame (List.Subset.refl _) (Frame.refl _ _)).regs_eq
@[simp] theorem State.postWide_cpx (s : State) (c : Cmd) (t : Status) (dw0 dw1 : Dword) : (State.postWide s c t dw0 dw1).cpx = s.cpx :=
  (State.postWide_frame (List.Subset.refl _) (Frame.refl _ _)).cpx_eq

@[simp] theorem State.endCmd_pending (s : State) (c : Cmd) (t : Status) (dw0 dw1 : Dword) : (State.endCmd s c t dw0 dw1).pending = s.pending :=
  (State.endCmd_frame (List.Subset.refl _) (Frame.refl _ _)).pending_eq
@[simp] theorem State.endCmd_ans (s : State) (c : Cmd) (t : Status) (dw0 dw1 : Dword) : (State.endCmd s c t dw0 dw1).ans = s.ans :=
  (State.endCmd_frame (List.Subset.refl _) (Frame.refl _ _)).ans_eq
@[simp] theorem State.endCmd_draws (s : State) (c : Cmd) (t : Status) (dw0 dw1 : Dword) : (State.endCmd s c t dw0 dw1).draws = s.draws :=
  (State.endCmd_frame (List.Subset.refl _) (Frame.refl _ _)).draws_eq
@[simp] theorem State.endCmd_gate (s : State) (c : Cmd) (t : Status) (dw0 dw1 : Dword) : (State.endCmd s c t dw0 dw1).gate = s.gate :=
  (State.endCmd_frame (List.Subset.refl _) (Frame.refl _ _)).gate_eq
@[simp] theorem State.endCmd_tbs (s : State) (c : Cmd) (t : Status) (dw0 dw1 : Dword) : (State.endCmd s c t dw0 dw1).tbs = s.tbs :=
  (State.endCmd_frame (List.Subset.refl _) (Frame.refl _ _)).tbs_eq
@[simp] theorem State.endCmd_stp (s : State) (c : Cmd) (t : Status) (dw0 dw1 : Dword) : (State.endCmd s c t dw0 dw1).stp = s.stp :=
  (State.endCmd_frame (List.Subset.refl _) (Frame.refl _ _)).stp_eq
@[simp] theorem State.endCmd_ten (s : State) (c : Cmd) (t : Status) (dw0 dw1 : Dword) : (State.endCmd s c t dw0 dw1).ten = s.ten :=
  (State.endCmd_frame (List.Subset.refl _) (Frame.refl _ _)).ten_eq
@[simp] theorem State.endCmd_map (s : State) (c : Cmd) (t : Status) (dw0 dw1 : Dword) : (State.endCmd s c t dw0 dw1).map = s.map :=
  (State.endCmd_frame (List.Subset.refl _) (Frame.refl _ _)).map_eq
@[simp] theorem State.endCmd_wbf (s : State) (c : Cmd) (t : Status) (dw0 dw1 : Dword) : (State.endCmd s c t dw0 dw1).wbf = s.wbf :=
  (State.endCmd_frame (List.Subset.refl _) (Frame.refl _ _)).wbf_eq
@[simp] theorem State.endCmd_fch (s : State) (c : Cmd) (t : Status) (dw0 dw1 : Dword) : (State.endCmd s c t dw0 dw1).fch = s.fch :=
  (State.endCmd_frame (List.Subset.refl _) (Frame.refl _ _)).fch_eq
@[simp] theorem State.endCmd_ldc (s : State) (c : Cmd) (t : Status) (dw0 dw1 : Dword) : (State.endCmd s c t dw0 dw1).ldc = s.ldc :=
  (State.endCmd_frame (List.Subset.refl _) (Frame.refl _ _)).ldc_eq
@[simp] theorem State.endCmd_par (s : State) (c : Cmd) (t : Status) (dw0 dw1 : Dword) : (State.endCmd s c t dw0 dw1).par = s.par :=
  (State.endCmd_frame (List.Subset.refl _) (Frame.refl _ _)).par_eq
@[simp] theorem State.endCmd_rcl (s : State) (c : Cmd) (t : Status) (dw0 dw1 : Dword) : (State.endCmd s c t dw0 dw1).rcl = s.rcl :=
  (State.endCmd_frame (List.Subset.refl _) (Frame.refl _ _)).rcl_eq
@[simp] theorem State.endCmd_dmc (s : State) (c : Cmd) (t : Status) (dw0 dw1 : Dword) : (State.endCmd s c t dw0 dw1).dmc = s.dmc :=
  (State.endCmd_frame (List.Subset.refl _) (Frame.refl _ _)).dmc_eq
@[simp] theorem State.endCmd_key (s : State) (c : Cmd) (t : Status) (dw0 dw1 : Dword) : (State.endCmd s c t dw0 dw1).key = s.key :=
  (State.endCmd_frame (List.Subset.refl _) (Frame.refl _ _)).key_eq
@[simp] theorem State.endCmd_cip (s : State) (c : Cmd) (t : Status) (dw0 dw1 : Dword) : (State.endCmd s c t dw0 dw1).cip = s.cip :=
  (State.endCmd_frame (List.Subset.refl _) (Frame.refl _ _)).cip_eq
@[simp] theorem State.endCmd_staged (s : State) (c : Cmd) (t : Status) (dw0 dw1 : Dword) : (State.endCmd s c t dw0 dw1).staged = s.staged :=
  (State.endCmd_frame (List.Subset.refl _) (Frame.refl _ _)).staged_eq
@[simp] theorem State.endCmd_norWaits (s : State) (c : Cmd) (t : Status) (dw0 dw1 : Dword) : (State.endCmd s c t dw0 dw1).norWaits = s.norWaits :=
  (State.endCmd_frame (List.Subset.refl _) (Frame.refl _ _)).norWaits_eq
@[simp] theorem State.endCmd_hif (s : State) (c : Cmd) (t : Status) (dw0 dw1 : Dword) : (State.endCmd s c t dw0 dw1).hif = s.hif :=
  (State.endCmd_frame (List.Subset.refl _) (Frame.refl _ _)).hif_eq
@[simp] theorem State.endCmd_net (s : State) (c : Cmd) (t : Status) (dw0 dw1 : Dword) : (State.endCmd s c t dw0 dw1).net = s.net :=
  (State.endCmd_frame (List.Subset.refl _) (Frame.refl _ _)).net_eq
@[simp] theorem State.endCmd_sbi (s : State) (c : Cmd) (t : Status) (dw0 dw1 : Dword) : (State.endCmd s c t dw0 dw1).sbi = s.sbi :=
  (State.endCmd_frame (List.Subset.refl _) (Frame.refl _ _)).sbi_eq
@[simp] theorem State.endCmd_thm (s : State) (c : Cmd) (t : Status) (dw0 dw1 : Dword) : (State.endCmd s c t dw0 dw1).thm = s.thm :=
  (State.endCmd_frame (List.Subset.refl _) (Frame.refl _ _)).thm_eq
@[simp] theorem State.endCmd_hld (s : State) (c : Cmd) (t : Status) (dw0 dw1 : Dword) : (State.endCmd s c t dw0 dw1).hld = s.hld :=
  (State.endCmd_frame (List.Subset.refl _) (Frame.refl _ _)).hld_eq
@[simp] theorem State.endCmd_fuses (s : State) (c : Cmd) (t : Status) (dw0 dw1 : Dword) : (State.endCmd s c t dw0 dw1).fuses = s.fuses :=
  (State.endCmd_frame (List.Subset.refl _) (Frame.refl _ _)).fuses_eq
@[simp] theorem State.endCmd_nor (s : State) (c : Cmd) (t : Status) (dw0 dw1 : Dword) : (State.endCmd s c t dw0 dw1).nor = s.nor :=
  (State.endCmd_frame (List.Subset.refl _) (Frame.refl _ _)).nor_eq
@[simp] theorem State.endCmd_bot (s : State) (c : Cmd) (t : Status) (dw0 dw1 : Dword) : (State.endCmd s c t dw0 dw1).bot = s.bot :=
  (State.endCmd_frame (List.Subset.refl _) (Frame.refl _ _)).bot_eq
@[simp] theorem State.endCmd_pins (s : State) (c : Cmd) (t : Status) (dw0 dw1 : Dword) : (State.endCmd s c t dw0 dw1).pins = s.pins :=
  (State.endCmd_frame (List.Subset.refl _) (Frame.refl _ _)).pins_eq
@[simp] theorem State.endCmd_evl (s : State) (c : Cmd) (t : Status) (dw0 dw1 : Dword) : (State.endCmd s c t dw0 dw1).evl = s.evl :=
  (State.endCmd_frame (List.Subset.refl _) (Frame.refl _ _)).evl_eq
@[simp] theorem State.endCmd_paths (s : State) (c : Cmd) (t : Status) (dw0 dw1 : Dword) : (State.endCmd s c t dw0 dw1).paths = s.paths :=
  (State.endCmd_frame (List.Subset.refl _) (Frame.refl _ _)).paths_eq
@[simp] theorem State.endCmd_pages (s : State) (c : Cmd) (t : Status) (dw0 dw1 : Dword) : (State.endCmd s c t dw0 dw1).pages = s.pages :=
  (State.endCmd_frame (List.Subset.refl _) (Frame.refl _ _)).pages_eq
@[simp] theorem State.endCmd_regs (s : State) (c : Cmd) (t : Status) (dw0 dw1 : Dword) : (State.endCmd s c t dw0 dw1).regs = s.regs :=
  (State.endCmd_frame (List.Subset.refl _) (Frame.refl _ _)).regs_eq
@[simp] theorem State.endCmd_cpx (s : State) (c : Cmd) (t : Status) (dw0 dw1 : Dword) : (State.endCmd s c t dw0 dw1).cpx = s.cpx :=
  (State.endCmd_frame (List.Subset.refl _) (Frame.refl _ _)).cpx_eq

@[simp] theorem State.complete_pending (s : State) (seq : Nat) (t : Status) (dw0 : Dword) : (State.complete s seq t dw0).pending = s.pending :=
  (State.complete_frame (List.Subset.refl _) (Frame.refl _ _)).pending_eq
@[simp] theorem State.complete_ans (s : State) (seq : Nat) (t : Status) (dw0 : Dword) : (State.complete s seq t dw0).ans = s.ans :=
  (State.complete_frame (List.Subset.refl _) (Frame.refl _ _)).ans_eq
@[simp] theorem State.complete_draws (s : State) (seq : Nat) (t : Status) (dw0 : Dword) : (State.complete s seq t dw0).draws = s.draws :=
  (State.complete_frame (List.Subset.refl _) (Frame.refl _ _)).draws_eq
@[simp] theorem State.complete_gate (s : State) (seq : Nat) (t : Status) (dw0 : Dword) : (State.complete s seq t dw0).gate = s.gate :=
  (State.complete_frame (List.Subset.refl _) (Frame.refl _ _)).gate_eq
@[simp] theorem State.complete_tbs (s : State) (seq : Nat) (t : Status) (dw0 : Dword) : (State.complete s seq t dw0).tbs = s.tbs :=
  (State.complete_frame (List.Subset.refl _) (Frame.refl _ _)).tbs_eq
@[simp] theorem State.complete_stp (s : State) (seq : Nat) (t : Status) (dw0 : Dword) : (State.complete s seq t dw0).stp = s.stp :=
  (State.complete_frame (List.Subset.refl _) (Frame.refl _ _)).stp_eq
@[simp] theorem State.complete_ten (s : State) (seq : Nat) (t : Status) (dw0 : Dword) : (State.complete s seq t dw0).ten = s.ten :=
  (State.complete_frame (List.Subset.refl _) (Frame.refl _ _)).ten_eq
@[simp] theorem State.complete_map (s : State) (seq : Nat) (t : Status) (dw0 : Dword) : (State.complete s seq t dw0).map = s.map :=
  (State.complete_frame (List.Subset.refl _) (Frame.refl _ _)).map_eq
@[simp] theorem State.complete_wbf (s : State) (seq : Nat) (t : Status) (dw0 : Dword) : (State.complete s seq t dw0).wbf = s.wbf :=
  (State.complete_frame (List.Subset.refl _) (Frame.refl _ _)).wbf_eq
@[simp] theorem State.complete_fch (s : State) (seq : Nat) (t : Status) (dw0 : Dword) : (State.complete s seq t dw0).fch = s.fch :=
  (State.complete_frame (List.Subset.refl _) (Frame.refl _ _)).fch_eq
@[simp] theorem State.complete_ldc (s : State) (seq : Nat) (t : Status) (dw0 : Dword) : (State.complete s seq t dw0).ldc = s.ldc :=
  (State.complete_frame (List.Subset.refl _) (Frame.refl _ _)).ldc_eq
@[simp] theorem State.complete_par (s : State) (seq : Nat) (t : Status) (dw0 : Dword) : (State.complete s seq t dw0).par = s.par :=
  (State.complete_frame (List.Subset.refl _) (Frame.refl _ _)).par_eq
@[simp] theorem State.complete_rcl (s : State) (seq : Nat) (t : Status) (dw0 : Dword) : (State.complete s seq t dw0).rcl = s.rcl :=
  (State.complete_frame (List.Subset.refl _) (Frame.refl _ _)).rcl_eq
@[simp] theorem State.complete_dmc (s : State) (seq : Nat) (t : Status) (dw0 : Dword) : (State.complete s seq t dw0).dmc = s.dmc :=
  (State.complete_frame (List.Subset.refl _) (Frame.refl _ _)).dmc_eq
@[simp] theorem State.complete_key (s : State) (seq : Nat) (t : Status) (dw0 : Dword) : (State.complete s seq t dw0).key = s.key :=
  (State.complete_frame (List.Subset.refl _) (Frame.refl _ _)).key_eq
@[simp] theorem State.complete_cip (s : State) (seq : Nat) (t : Status) (dw0 : Dword) : (State.complete s seq t dw0).cip = s.cip :=
  (State.complete_frame (List.Subset.refl _) (Frame.refl _ _)).cip_eq
@[simp] theorem State.complete_staged (s : State) (seq : Nat) (t : Status) (dw0 : Dword) : (State.complete s seq t dw0).staged = s.staged :=
  (State.complete_frame (List.Subset.refl _) (Frame.refl _ _)).staged_eq
@[simp] theorem State.complete_norWaits (s : State) (seq : Nat) (t : Status) (dw0 : Dword) : (State.complete s seq t dw0).norWaits = s.norWaits :=
  (State.complete_frame (List.Subset.refl _) (Frame.refl _ _)).norWaits_eq
@[simp] theorem State.complete_hif (s : State) (seq : Nat) (t : Status) (dw0 : Dword) : (State.complete s seq t dw0).hif = s.hif :=
  (State.complete_frame (List.Subset.refl _) (Frame.refl _ _)).hif_eq
@[simp] theorem State.complete_net (s : State) (seq : Nat) (t : Status) (dw0 : Dword) : (State.complete s seq t dw0).net = s.net :=
  (State.complete_frame (List.Subset.refl _) (Frame.refl _ _)).net_eq
@[simp] theorem State.complete_sbi (s : State) (seq : Nat) (t : Status) (dw0 : Dword) : (State.complete s seq t dw0).sbi = s.sbi :=
  (State.complete_frame (List.Subset.refl _) (Frame.refl _ _)).sbi_eq
@[simp] theorem State.complete_thm (s : State) (seq : Nat) (t : Status) (dw0 : Dword) : (State.complete s seq t dw0).thm = s.thm :=
  (State.complete_frame (List.Subset.refl _) (Frame.refl _ _)).thm_eq
@[simp] theorem State.complete_hld (s : State) (seq : Nat) (t : Status) (dw0 : Dword) : (State.complete s seq t dw0).hld = s.hld :=
  (State.complete_frame (List.Subset.refl _) (Frame.refl _ _)).hld_eq
@[simp] theorem State.complete_fuses (s : State) (seq : Nat) (t : Status) (dw0 : Dword) : (State.complete s seq t dw0).fuses = s.fuses :=
  (State.complete_frame (List.Subset.refl _) (Frame.refl _ _)).fuses_eq
@[simp] theorem State.complete_nor (s : State) (seq : Nat) (t : Status) (dw0 : Dword) : (State.complete s seq t dw0).nor = s.nor :=
  (State.complete_frame (List.Subset.refl _) (Frame.refl _ _)).nor_eq
@[simp] theorem State.complete_bot (s : State) (seq : Nat) (t : Status) (dw0 : Dword) : (State.complete s seq t dw0).bot = s.bot :=
  (State.complete_frame (List.Subset.refl _) (Frame.refl _ _)).bot_eq
@[simp] theorem State.complete_pins (s : State) (seq : Nat) (t : Status) (dw0 : Dword) : (State.complete s seq t dw0).pins = s.pins :=
  (State.complete_frame (List.Subset.refl _) (Frame.refl _ _)).pins_eq
@[simp] theorem State.complete_evl (s : State) (seq : Nat) (t : Status) (dw0 : Dword) : (State.complete s seq t dw0).evl = s.evl :=
  (State.complete_frame (List.Subset.refl _) (Frame.refl _ _)).evl_eq
@[simp] theorem State.complete_paths (s : State) (seq : Nat) (t : Status) (dw0 : Dword) : (State.complete s seq t dw0).paths = s.paths :=
  (State.complete_frame (List.Subset.refl _) (Frame.refl _ _)).paths_eq
@[simp] theorem State.complete_pages (s : State) (seq : Nat) (t : Status) (dw0 : Dword) : (State.complete s seq t dw0).pages = s.pages :=
  (State.complete_frame (List.Subset.refl _) (Frame.refl _ _)).pages_eq
@[simp] theorem State.complete_regs (s : State) (seq : Nat) (t : Status) (dw0 : Dword) : (State.complete s seq t dw0).regs = s.regs :=
  (State.complete_frame (List.Subset.refl _) (Frame.refl _ _)).regs_eq
@[simp] theorem State.complete_cpx (s : State) (seq : Nat) (t : Status) (dw0 : Dword) : (State.complete s seq t dw0).cpx = s.cpx :=
  (State.complete_frame (List.Subset.refl _) (Frame.refl _ _)).cpx_eq

@[simp] theorem State.finish_pending (s : State) (seq : Nat) (t : Status) : (State.finish s seq t).pending = s.pending :=
  (State.finish_frame (List.Subset.refl _) (Frame.refl _ _)).pending_eq
@[simp] theorem State.finish_ans (s : State) (seq : Nat) (t : Status) : (State.finish s seq t).ans = s.ans :=
  (State.finish_frame (List.Subset.refl _) (Frame.refl _ _)).ans_eq
@[simp] theorem State.finish_draws (s : State) (seq : Nat) (t : Status) : (State.finish s seq t).draws = s.draws :=
  (State.finish_frame (List.Subset.refl _) (Frame.refl _ _)).draws_eq
@[simp] theorem State.finish_gate (s : State) (seq : Nat) (t : Status) : (State.finish s seq t).gate = s.gate :=
  (State.finish_frame (List.Subset.refl _) (Frame.refl _ _)).gate_eq
@[simp] theorem State.finish_tbs (s : State) (seq : Nat) (t : Status) : (State.finish s seq t).tbs = s.tbs :=
  (State.finish_frame (List.Subset.refl _) (Frame.refl _ _)).tbs_eq
@[simp] theorem State.finish_stp (s : State) (seq : Nat) (t : Status) : (State.finish s seq t).stp = s.stp :=
  (State.finish_frame (List.Subset.refl _) (Frame.refl _ _)).stp_eq
@[simp] theorem State.finish_ten (s : State) (seq : Nat) (t : Status) : (State.finish s seq t).ten = s.ten :=
  (State.finish_frame (List.Subset.refl _) (Frame.refl _ _)).ten_eq
@[simp] theorem State.finish_map (s : State) (seq : Nat) (t : Status) : (State.finish s seq t).map = s.map :=
  (State.finish_frame (List.Subset.refl _) (Frame.refl _ _)).map_eq
@[simp] theorem State.finish_wbf (s : State) (seq : Nat) (t : Status) : (State.finish s seq t).wbf = s.wbf :=
  (State.finish_frame (List.Subset.refl _) (Frame.refl _ _)).wbf_eq
@[simp] theorem State.finish_fch (s : State) (seq : Nat) (t : Status) : (State.finish s seq t).fch = s.fch :=
  (State.finish_frame (List.Subset.refl _) (Frame.refl _ _)).fch_eq
@[simp] theorem State.finish_ldc (s : State) (seq : Nat) (t : Status) : (State.finish s seq t).ldc = s.ldc :=
  (State.finish_frame (List.Subset.refl _) (Frame.refl _ _)).ldc_eq
@[simp] theorem State.finish_par (s : State) (seq : Nat) (t : Status) : (State.finish s seq t).par = s.par :=
  (State.finish_frame (List.Subset.refl _) (Frame.refl _ _)).par_eq
@[simp] theorem State.finish_rcl (s : State) (seq : Nat) (t : Status) : (State.finish s seq t).rcl = s.rcl :=
  (State.finish_frame (List.Subset.refl _) (Frame.refl _ _)).rcl_eq
@[simp] theorem State.finish_dmc (s : State) (seq : Nat) (t : Status) : (State.finish s seq t).dmc = s.dmc :=
  (State.finish_frame (List.Subset.refl _) (Frame.refl _ _)).dmc_eq
@[simp] theorem State.finish_key (s : State) (seq : Nat) (t : Status) : (State.finish s seq t).key = s.key :=
  (State.finish_frame (List.Subset.refl _) (Frame.refl _ _)).key_eq
@[simp] theorem State.finish_cip (s : State) (seq : Nat) (t : Status) : (State.finish s seq t).cip = s.cip :=
  (State.finish_frame (List.Subset.refl _) (Frame.refl _ _)).cip_eq
@[simp] theorem State.finish_staged (s : State) (seq : Nat) (t : Status) : (State.finish s seq t).staged = s.staged :=
  (State.finish_frame (List.Subset.refl _) (Frame.refl _ _)).staged_eq
@[simp] theorem State.finish_norWaits (s : State) (seq : Nat) (t : Status) : (State.finish s seq t).norWaits = s.norWaits :=
  (State.finish_frame (List.Subset.refl _) (Frame.refl _ _)).norWaits_eq
@[simp] theorem State.finish_hif (s : State) (seq : Nat) (t : Status) : (State.finish s seq t).hif = s.hif :=
  (State.finish_frame (List.Subset.refl _) (Frame.refl _ _)).hif_eq
@[simp] theorem State.finish_net (s : State) (seq : Nat) (t : Status) : (State.finish s seq t).net = s.net :=
  (State.finish_frame (List.Subset.refl _) (Frame.refl _ _)).net_eq
@[simp] theorem State.finish_sbi (s : State) (seq : Nat) (t : Status) : (State.finish s seq t).sbi = s.sbi :=
  (State.finish_frame (List.Subset.refl _) (Frame.refl _ _)).sbi_eq
@[simp] theorem State.finish_thm (s : State) (seq : Nat) (t : Status) : (State.finish s seq t).thm = s.thm :=
  (State.finish_frame (List.Subset.refl _) (Frame.refl _ _)).thm_eq
@[simp] theorem State.finish_hld (s : State) (seq : Nat) (t : Status) : (State.finish s seq t).hld = s.hld :=
  (State.finish_frame (List.Subset.refl _) (Frame.refl _ _)).hld_eq
@[simp] theorem State.finish_fuses (s : State) (seq : Nat) (t : Status) : (State.finish s seq t).fuses = s.fuses :=
  (State.finish_frame (List.Subset.refl _) (Frame.refl _ _)).fuses_eq
@[simp] theorem State.finish_nor (s : State) (seq : Nat) (t : Status) : (State.finish s seq t).nor = s.nor :=
  (State.finish_frame (List.Subset.refl _) (Frame.refl _ _)).nor_eq
@[simp] theorem State.finish_bot (s : State) (seq : Nat) (t : Status) : (State.finish s seq t).bot = s.bot :=
  (State.finish_frame (List.Subset.refl _) (Frame.refl _ _)).bot_eq
@[simp] theorem State.finish_pins (s : State) (seq : Nat) (t : Status) : (State.finish s seq t).pins = s.pins :=
  (State.finish_frame (List.Subset.refl _) (Frame.refl _ _)).pins_eq
@[simp] theorem State.finish_evl (s : State) (seq : Nat) (t : Status) : (State.finish s seq t).evl = s.evl :=
  (State.finish_frame (List.Subset.refl _) (Frame.refl _ _)).evl_eq
@[simp] theorem State.finish_paths (s : State) (seq : Nat) (t : Status) : (State.finish s seq t).paths = s.paths :=
  (State.finish_frame (List.Subset.refl _) (Frame.refl _ _)).paths_eq
@[simp] theorem State.finish_pages (s : State) (seq : Nat) (t : Status) : (State.finish s seq t).pages = s.pages :=
  (State.finish_frame (List.Subset.refl _) (Frame.refl _ _)).pages_eq
@[simp] theorem State.finish_regs (s : State) (seq : Nat) (t : Status) : (State.finish s seq t).regs = s.regs :=
  (State.finish_frame (List.Subset.refl _) (Frame.refl _ _)).regs_eq
@[simp] theorem State.finish_cpx (s : State) (seq : Nat) (t : Status) : (State.finish s seq t).cpx = s.cpx :=
  (State.finish_frame (List.Subset.refl _) (Frame.refl _ _)).cpx_eq

@[simp] theorem State.answer_pending (s : State) (a : Answer) : (State.answer s a).pending = s.pending :=
  rfl
@[simp] theorem State.answer_draws (s : State) (a : Answer) : (State.answer s a).draws = s.draws :=
  rfl
@[simp] theorem State.answer_gate (s : State) (a : Answer) : (State.answer s a).gate = s.gate :=
  rfl
@[simp] theorem State.answer_tbs (s : State) (a : Answer) : (State.answer s a).tbs = s.tbs :=
  rfl
@[simp] theorem State.answer_stp (s : State) (a : Answer) : (State.answer s a).stp = s.stp :=
  rfl
@[simp] theorem State.answer_qmx (s : State) (a : Answer) : (State.answer s a).qmx = s.qmx :=
  rfl
@[simp] theorem State.answer_ten (s : State) (a : Answer) : (State.answer s a).ten = s.ten :=
  rfl
@[simp] theorem State.answer_fns (s : State) (a : Answer) : (State.answer s a).fns = s.fns :=
  rfl
@[simp] theorem State.answer_map (s : State) (a : Answer) : (State.answer s a).map = s.map :=
  rfl
@[simp] theorem State.answer_wbf (s : State) (a : Answer) : (State.answer s a).wbf = s.wbf :=
  rfl
@[simp] theorem State.answer_fch (s : State) (a : Answer) : (State.answer s a).fch = s.fch :=
  rfl
@[simp] theorem State.answer_ldc (s : State) (a : Answer) : (State.answer s a).ldc = s.ldc :=
  rfl
@[simp] theorem State.answer_par (s : State) (a : Answer) : (State.answer s a).par = s.par :=
  rfl
@[simp] theorem State.answer_rcl (s : State) (a : Answer) : (State.answer s a).rcl = s.rcl :=
  rfl
@[simp] theorem State.answer_dmc (s : State) (a : Answer) : (State.answer s a).dmc = s.dmc :=
  rfl
@[simp] theorem State.answer_key (s : State) (a : Answer) : (State.answer s a).key = s.key :=
  rfl
@[simp] theorem State.answer_cip (s : State) (a : Answer) : (State.answer s a).cip = s.cip :=
  rfl
@[simp] theorem State.answer_staged (s : State) (a : Answer) : (State.answer s a).staged = s.staged :=
  rfl
@[simp] theorem State.answer_norWaits (s : State) (a : Answer) : (State.answer s a).norWaits = s.norWaits :=
  rfl
@[simp] theorem State.answer_hif (s : State) (a : Answer) : (State.answer s a).hif = s.hif :=
  rfl
@[simp] theorem State.answer_net (s : State) (a : Answer) : (State.answer s a).net = s.net :=
  rfl
@[simp] theorem State.answer_sbi (s : State) (a : Answer) : (State.answer s a).sbi = s.sbi :=
  rfl
@[simp] theorem State.answer_thm (s : State) (a : Answer) : (State.answer s a).thm = s.thm :=
  rfl
@[simp] theorem State.answer_hld (s : State) (a : Answer) : (State.answer s a).hld = s.hld :=
  rfl
@[simp] theorem State.answer_fuses (s : State) (a : Answer) : (State.answer s a).fuses = s.fuses :=
  rfl
@[simp] theorem State.answer_nor (s : State) (a : Answer) : (State.answer s a).nor = s.nor :=
  rfl
@[simp] theorem State.answer_bot (s : State) (a : Answer) : (State.answer s a).bot = s.bot :=
  rfl
@[simp] theorem State.answer_pins (s : State) (a : Answer) : (State.answer s a).pins = s.pins :=
  rfl
@[simp] theorem State.answer_evl (s : State) (a : Answer) : (State.answer s a).evl = s.evl :=
  rfl
@[simp] theorem State.answer_paths (s : State) (a : Answer) : (State.answer s a).paths = s.paths :=
  rfl
@[simp] theorem State.answer_pages (s : State) (a : Answer) : (State.answer s a).pages = s.pages :=
  rfl
@[simp] theorem State.answer_regs (s : State) (a : Answer) : (State.answer s a).regs = s.regs :=
  rfl
@[simp] theorem State.answer_cpx (s : State) (a : Answer) : (State.answer s a).cpx = s.cpx :=
  rfl

@[simp] theorem State.meter_pending (s : State) (f : Nat) (g : Meter → Meter) : (State.meter s f g).pending = s.pending :=
  (State.meter_frame (List.Subset.refl _) (Frame.refl _ _)).pending_eq
@[simp] theorem State.meter_ans (s : State) (f : Nat) (g : Meter → Meter) : (State.meter s f g).ans = s.ans :=
  (State.meter_frame (List.Subset.refl _) (Frame.refl _ _)).ans_eq
@[simp] theorem State.meter_draws (s : State) (f : Nat) (g : Meter → Meter) : (State.meter s f g).draws = s.draws :=
  (State.meter_frame (List.Subset.refl _) (Frame.refl _ _)).draws_eq
@[simp] theorem State.meter_gate (s : State) (f : Nat) (g : Meter → Meter) : (State.meter s f g).gate = s.gate :=
  (State.meter_frame (List.Subset.refl _) (Frame.refl _ _)).gate_eq
@[simp] theorem State.meter_tbs (s : State) (f : Nat) (g : Meter → Meter) : (State.meter s f g).tbs = s.tbs :=
  (State.meter_frame (List.Subset.refl _) (Frame.refl _ _)).tbs_eq
@[simp] theorem State.meter_stp (s : State) (f : Nat) (g : Meter → Meter) : (State.meter s f g).stp = s.stp :=
  (State.meter_frame (List.Subset.refl _) (Frame.refl _ _)).stp_eq
@[simp] theorem State.meter_qmx (s : State) (f : Nat) (g : Meter → Meter) : (State.meter s f g).qmx = s.qmx :=
  (State.meter_frame (List.Subset.refl _) (Frame.refl _ _)).qmx_eq
@[simp] theorem State.meter_ten (s : State) (f : Nat) (g : Meter → Meter) : (State.meter s f g).ten = s.ten :=
  (State.meter_frame (List.Subset.refl _) (Frame.refl _ _)).ten_eq
@[simp] theorem State.meter_map (s : State) (f : Nat) (g : Meter → Meter) : (State.meter s f g).map = s.map :=
  (State.meter_frame (List.Subset.refl _) (Frame.refl _ _)).map_eq
@[simp] theorem State.meter_wbf (s : State) (f : Nat) (g : Meter → Meter) : (State.meter s f g).wbf = s.wbf :=
  (State.meter_frame (List.Subset.refl _) (Frame.refl _ _)).wbf_eq
@[simp] theorem State.meter_fch (s : State) (f : Nat) (g : Meter → Meter) : (State.meter s f g).fch = s.fch :=
  (State.meter_frame (List.Subset.refl _) (Frame.refl _ _)).fch_eq
@[simp] theorem State.meter_ldc (s : State) (f : Nat) (g : Meter → Meter) : (State.meter s f g).ldc = s.ldc :=
  (State.meter_frame (List.Subset.refl _) (Frame.refl _ _)).ldc_eq
@[simp] theorem State.meter_par (s : State) (f : Nat) (g : Meter → Meter) : (State.meter s f g).par = s.par :=
  (State.meter_frame (List.Subset.refl _) (Frame.refl _ _)).par_eq
@[simp] theorem State.meter_rcl (s : State) (f : Nat) (g : Meter → Meter) : (State.meter s f g).rcl = s.rcl :=
  (State.meter_frame (List.Subset.refl _) (Frame.refl _ _)).rcl_eq
@[simp] theorem State.meter_dmc (s : State) (f : Nat) (g : Meter → Meter) : (State.meter s f g).dmc = s.dmc :=
  (State.meter_frame (List.Subset.refl _) (Frame.refl _ _)).dmc_eq
@[simp] theorem State.meter_key (s : State) (f : Nat) (g : Meter → Meter) : (State.meter s f g).key = s.key :=
  (State.meter_frame (List.Subset.refl _) (Frame.refl _ _)).key_eq
@[simp] theorem State.meter_cip (s : State) (f : Nat) (g : Meter → Meter) : (State.meter s f g).cip = s.cip :=
  (State.meter_frame (List.Subset.refl _) (Frame.refl _ _)).cip_eq
@[simp] theorem State.meter_staged (s : State) (f : Nat) (g : Meter → Meter) : (State.meter s f g).staged = s.staged :=
  (State.meter_frame (List.Subset.refl _) (Frame.refl _ _)).staged_eq
@[simp] theorem State.meter_norWaits (s : State) (f : Nat) (g : Meter → Meter) : (State.meter s f g).norWaits = s.norWaits :=
  (State.meter_frame (List.Subset.refl _) (Frame.refl _ _)).norWaits_eq
@[simp] theorem State.meter_hif (s : State) (f : Nat) (g : Meter → Meter) : (State.meter s f g).hif = s.hif :=
  (State.meter_frame (List.Subset.refl _) (Frame.refl _ _)).hif_eq
@[simp] theorem State.meter_net (s : State) (f : Nat) (g : Meter → Meter) : (State.meter s f g).net = s.net :=
  (State.meter_frame (List.Subset.refl _) (Frame.refl _ _)).net_eq
@[simp] theorem State.meter_sbi (s : State) (f : Nat) (g : Meter → Meter) : (State.meter s f g).sbi = s.sbi :=
  (State.meter_frame (List.Subset.refl _) (Frame.refl _ _)).sbi_eq
@[simp] theorem State.meter_thm (s : State) (f : Nat) (g : Meter → Meter) : (State.meter s f g).thm = s.thm :=
  (State.meter_frame (List.Subset.refl _) (Frame.refl _ _)).thm_eq
@[simp] theorem State.meter_hld (s : State) (f : Nat) (g : Meter → Meter) : (State.meter s f g).hld = s.hld :=
  (State.meter_frame (List.Subset.refl _) (Frame.refl _ _)).hld_eq
@[simp] theorem State.meter_fuses (s : State) (f : Nat) (g : Meter → Meter) : (State.meter s f g).fuses = s.fuses :=
  (State.meter_frame (List.Subset.refl _) (Frame.refl _ _)).fuses_eq
@[simp] theorem State.meter_nor (s : State) (f : Nat) (g : Meter → Meter) : (State.meter s f g).nor = s.nor :=
  (State.meter_frame (List.Subset.refl _) (Frame.refl _ _)).nor_eq
@[simp] theorem State.meter_bot (s : State) (f : Nat) (g : Meter → Meter) : (State.meter s f g).bot = s.bot :=
  (State.meter_frame (List.Subset.refl _) (Frame.refl _ _)).bot_eq
@[simp] theorem State.meter_pins (s : State) (f : Nat) (g : Meter → Meter) : (State.meter s f g).pins = s.pins :=
  (State.meter_frame (List.Subset.refl _) (Frame.refl _ _)).pins_eq
@[simp] theorem State.meter_evl (s : State) (f : Nat) (g : Meter → Meter) : (State.meter s f g).evl = s.evl :=
  (State.meter_frame (List.Subset.refl _) (Frame.refl _ _)).evl_eq
@[simp] theorem State.meter_paths (s : State) (f : Nat) (g : Meter → Meter) : (State.meter s f g).paths = s.paths :=
  (State.meter_frame (List.Subset.refl _) (Frame.refl _ _)).paths_eq
@[simp] theorem State.meter_pages (s : State) (f : Nat) (g : Meter → Meter) : (State.meter s f g).pages = s.pages :=
  (State.meter_frame (List.Subset.refl _) (Frame.refl _ _)).pages_eq
@[simp] theorem State.meter_regs (s : State) (f : Nat) (g : Meter → Meter) : (State.meter s f g).regs = s.regs :=
  (State.meter_frame (List.Subset.refl _) (Frame.refl _ _)).regs_eq
@[simp] theorem State.meter_cpx (s : State) (f : Nat) (g : Meter → Meter) : (State.meter s f g).cpx = s.cpx :=
  (State.meter_frame (List.Subset.refl _) (Frame.refl _ _)).cpx_eq

@[simp] theorem State.hold_pending (s : State) (seq : Nat) : (State.hold s seq).pending = s.pending :=
  (State.hold_frame (List.Subset.refl _) (Frame.refl _ _)).pending_eq
@[simp] theorem State.hold_ans (s : State) (seq : Nat) : (State.hold s seq).ans = s.ans :=
  (State.hold_frame (List.Subset.refl _) (Frame.refl _ _)).ans_eq
@[simp] theorem State.hold_draws (s : State) (seq : Nat) : (State.hold s seq).draws = s.draws :=
  (State.hold_frame (List.Subset.refl _) (Frame.refl _ _)).draws_eq
@[simp] theorem State.hold_gate (s : State) (seq : Nat) : (State.hold s seq).gate = s.gate :=
  (State.hold_frame (List.Subset.refl _) (Frame.refl _ _)).gate_eq
@[simp] theorem State.hold_tbs (s : State) (seq : Nat) : (State.hold s seq).tbs = s.tbs :=
  (State.hold_frame (List.Subset.refl _) (Frame.refl _ _)).tbs_eq
@[simp] theorem State.hold_stp (s : State) (seq : Nat) : (State.hold s seq).stp = s.stp :=
  (State.hold_frame (List.Subset.refl _) (Frame.refl _ _)).stp_eq
@[simp] theorem State.hold_ten (s : State) (seq : Nat) : (State.hold s seq).ten = s.ten :=
  (State.hold_frame (List.Subset.refl _) (Frame.refl _ _)).ten_eq
@[simp] theorem State.hold_fns (s : State) (seq : Nat) : (State.hold s seq).fns = s.fns :=
  (State.hold_frame (List.Subset.refl _) (Frame.refl _ _)).fns_eq
@[simp] theorem State.hold_map (s : State) (seq : Nat) : (State.hold s seq).map = s.map :=
  (State.hold_frame (List.Subset.refl _) (Frame.refl _ _)).map_eq
@[simp] theorem State.hold_wbf (s : State) (seq : Nat) : (State.hold s seq).wbf = s.wbf :=
  (State.hold_frame (List.Subset.refl _) (Frame.refl _ _)).wbf_eq
@[simp] theorem State.hold_fch (s : State) (seq : Nat) : (State.hold s seq).fch = s.fch :=
  (State.hold_frame (List.Subset.refl _) (Frame.refl _ _)).fch_eq
@[simp] theorem State.hold_ldc (s : State) (seq : Nat) : (State.hold s seq).ldc = s.ldc :=
  (State.hold_frame (List.Subset.refl _) (Frame.refl _ _)).ldc_eq
@[simp] theorem State.hold_par (s : State) (seq : Nat) : (State.hold s seq).par = s.par :=
  (State.hold_frame (List.Subset.refl _) (Frame.refl _ _)).par_eq
@[simp] theorem State.hold_rcl (s : State) (seq : Nat) : (State.hold s seq).rcl = s.rcl :=
  (State.hold_frame (List.Subset.refl _) (Frame.refl _ _)).rcl_eq
@[simp] theorem State.hold_dmc (s : State) (seq : Nat) : (State.hold s seq).dmc = s.dmc :=
  (State.hold_frame (List.Subset.refl _) (Frame.refl _ _)).dmc_eq
@[simp] theorem State.hold_key (s : State) (seq : Nat) : (State.hold s seq).key = s.key :=
  (State.hold_frame (List.Subset.refl _) (Frame.refl _ _)).key_eq
@[simp] theorem State.hold_cip (s : State) (seq : Nat) : (State.hold s seq).cip = s.cip :=
  (State.hold_frame (List.Subset.refl _) (Frame.refl _ _)).cip_eq
@[simp] theorem State.hold_staged (s : State) (seq : Nat) : (State.hold s seq).staged = s.staged :=
  (State.hold_frame (List.Subset.refl _) (Frame.refl _ _)).staged_eq
@[simp] theorem State.hold_norWaits (s : State) (seq : Nat) : (State.hold s seq).norWaits = s.norWaits :=
  (State.hold_frame (List.Subset.refl _) (Frame.refl _ _)).norWaits_eq
@[simp] theorem State.hold_hif (s : State) (seq : Nat) : (State.hold s seq).hif = s.hif :=
  (State.hold_frame (List.Subset.refl _) (Frame.refl _ _)).hif_eq
@[simp] theorem State.hold_net (s : State) (seq : Nat) : (State.hold s seq).net = s.net :=
  (State.hold_frame (List.Subset.refl _) (Frame.refl _ _)).net_eq
@[simp] theorem State.hold_sbi (s : State) (seq : Nat) : (State.hold s seq).sbi = s.sbi :=
  (State.hold_frame (List.Subset.refl _) (Frame.refl _ _)).sbi_eq
@[simp] theorem State.hold_thm (s : State) (seq : Nat) : (State.hold s seq).thm = s.thm :=
  (State.hold_frame (List.Subset.refl _) (Frame.refl _ _)).thm_eq
@[simp] theorem State.hold_hld (s : State) (seq : Nat) : (State.hold s seq).hld = s.hld :=
  (State.hold_frame (List.Subset.refl _) (Frame.refl _ _)).hld_eq
@[simp] theorem State.hold_fuses (s : State) (seq : Nat) : (State.hold s seq).fuses = s.fuses :=
  (State.hold_frame (List.Subset.refl _) (Frame.refl _ _)).fuses_eq
@[simp] theorem State.hold_nor (s : State) (seq : Nat) : (State.hold s seq).nor = s.nor :=
  (State.hold_frame (List.Subset.refl _) (Frame.refl _ _)).nor_eq
@[simp] theorem State.hold_bot (s : State) (seq : Nat) : (State.hold s seq).bot = s.bot :=
  (State.hold_frame (List.Subset.refl _) (Frame.refl _ _)).bot_eq
@[simp] theorem State.hold_pins (s : State) (seq : Nat) : (State.hold s seq).pins = s.pins :=
  (State.hold_frame (List.Subset.refl _) (Frame.refl _ _)).pins_eq
@[simp] theorem State.hold_evl (s : State) (seq : Nat) : (State.hold s seq).evl = s.evl :=
  (State.hold_frame (List.Subset.refl _) (Frame.refl _ _)).evl_eq
@[simp] theorem State.hold_paths (s : State) (seq : Nat) : (State.hold s seq).paths = s.paths :=
  (State.hold_frame (List.Subset.refl _) (Frame.refl _ _)).paths_eq
@[simp] theorem State.hold_pages (s : State) (seq : Nat) : (State.hold s seq).pages = s.pages :=
  (State.hold_frame (List.Subset.refl _) (Frame.refl _ _)).pages_eq
@[simp] theorem State.hold_regs (s : State) (seq : Nat) : (State.hold s seq).regs = s.regs :=
  (State.hold_frame (List.Subset.refl _) (Frame.refl _ _)).regs_eq
@[simp] theorem State.hold_cpx (s : State) (seq : Nat) : (State.hold s seq).cpx = s.cpx :=
  (State.hold_frame (List.Subset.refl _) (Frame.refl _ _)).cpx_eq

@[simp] theorem State.reply_pending (s : State) (seq : Nat) (b : List Byte) : (State.reply s seq b).pending = s.pending :=
  (State.reply_frame (List.Subset.refl _) (Frame.refl _ _)).pending_eq
@[simp] theorem State.reply_draws (s : State) (seq : Nat) (b : List Byte) : (State.reply s seq b).draws = s.draws :=
  (State.reply_frame (List.Subset.refl _) (Frame.refl _ _)).draws_eq
@[simp] theorem State.reply_gate (s : State) (seq : Nat) (b : List Byte) : (State.reply s seq b).gate = s.gate :=
  (State.reply_frame (List.Subset.refl _) (Frame.refl _ _)).gate_eq
@[simp] theorem State.reply_tbs (s : State) (seq : Nat) (b : List Byte) : (State.reply s seq b).tbs = s.tbs :=
  (State.reply_frame (List.Subset.refl _) (Frame.refl _ _)).tbs_eq
@[simp] theorem State.reply_stp (s : State) (seq : Nat) (b : List Byte) : (State.reply s seq b).stp = s.stp :=
  (State.reply_frame (List.Subset.refl _) (Frame.refl _ _)).stp_eq
@[simp] theorem State.reply_ten (s : State) (seq : Nat) (b : List Byte) : (State.reply s seq b).ten = s.ten :=
  (State.reply_frame (List.Subset.refl _) (Frame.refl _ _)).ten_eq
@[simp] theorem State.reply_map (s : State) (seq : Nat) (b : List Byte) : (State.reply s seq b).map = s.map :=
  (State.reply_frame (List.Subset.refl _) (Frame.refl _ _)).map_eq
@[simp] theorem State.reply_wbf (s : State) (seq : Nat) (b : List Byte) : (State.reply s seq b).wbf = s.wbf :=
  (State.reply_frame (List.Subset.refl _) (Frame.refl _ _)).wbf_eq
@[simp] theorem State.reply_fch (s : State) (seq : Nat) (b : List Byte) : (State.reply s seq b).fch = s.fch :=
  (State.reply_frame (List.Subset.refl _) (Frame.refl _ _)).fch_eq
@[simp] theorem State.reply_ldc (s : State) (seq : Nat) (b : List Byte) : (State.reply s seq b).ldc = s.ldc :=
  (State.reply_frame (List.Subset.refl _) (Frame.refl _ _)).ldc_eq
@[simp] theorem State.reply_par (s : State) (seq : Nat) (b : List Byte) : (State.reply s seq b).par = s.par :=
  (State.reply_frame (List.Subset.refl _) (Frame.refl _ _)).par_eq
@[simp] theorem State.reply_rcl (s : State) (seq : Nat) (b : List Byte) : (State.reply s seq b).rcl = s.rcl :=
  (State.reply_frame (List.Subset.refl _) (Frame.refl _ _)).rcl_eq
@[simp] theorem State.reply_dmc (s : State) (seq : Nat) (b : List Byte) : (State.reply s seq b).dmc = s.dmc :=
  (State.reply_frame (List.Subset.refl _) (Frame.refl _ _)).dmc_eq
@[simp] theorem State.reply_key (s : State) (seq : Nat) (b : List Byte) : (State.reply s seq b).key = s.key :=
  (State.reply_frame (List.Subset.refl _) (Frame.refl _ _)).key_eq
@[simp] theorem State.reply_cip (s : State) (seq : Nat) (b : List Byte) : (State.reply s seq b).cip = s.cip :=
  (State.reply_frame (List.Subset.refl _) (Frame.refl _ _)).cip_eq
@[simp] theorem State.reply_staged (s : State) (seq : Nat) (b : List Byte) : (State.reply s seq b).staged = s.staged :=
  (State.reply_frame (List.Subset.refl _) (Frame.refl _ _)).staged_eq
@[simp] theorem State.reply_norWaits (s : State) (seq : Nat) (b : List Byte) : (State.reply s seq b).norWaits = s.norWaits :=
  (State.reply_frame (List.Subset.refl _) (Frame.refl _ _)).norWaits_eq
@[simp] theorem State.reply_hif (s : State) (seq : Nat) (b : List Byte) : (State.reply s seq b).hif = s.hif :=
  (State.reply_frame (List.Subset.refl _) (Frame.refl _ _)).hif_eq
@[simp] theorem State.reply_net (s : State) (seq : Nat) (b : List Byte) : (State.reply s seq b).net = s.net :=
  (State.reply_frame (List.Subset.refl _) (Frame.refl _ _)).net_eq
@[simp] theorem State.reply_sbi (s : State) (seq : Nat) (b : List Byte) : (State.reply s seq b).sbi = s.sbi :=
  (State.reply_frame (List.Subset.refl _) (Frame.refl _ _)).sbi_eq
@[simp] theorem State.reply_thm (s : State) (seq : Nat) (b : List Byte) : (State.reply s seq b).thm = s.thm :=
  (State.reply_frame (List.Subset.refl _) (Frame.refl _ _)).thm_eq
@[simp] theorem State.reply_hld (s : State) (seq : Nat) (b : List Byte) : (State.reply s seq b).hld = s.hld :=
  (State.reply_frame (List.Subset.refl _) (Frame.refl _ _)).hld_eq
@[simp] theorem State.reply_fuses (s : State) (seq : Nat) (b : List Byte) : (State.reply s seq b).fuses = s.fuses :=
  (State.reply_frame (List.Subset.refl _) (Frame.refl _ _)).fuses_eq
@[simp] theorem State.reply_nor (s : State) (seq : Nat) (b : List Byte) : (State.reply s seq b).nor = s.nor :=
  (State.reply_frame (List.Subset.refl _) (Frame.refl _ _)).nor_eq
@[simp] theorem State.reply_bot (s : State) (seq : Nat) (b : List Byte) : (State.reply s seq b).bot = s.bot :=
  (State.reply_frame (List.Subset.refl _) (Frame.refl _ _)).bot_eq
@[simp] theorem State.reply_pins (s : State) (seq : Nat) (b : List Byte) : (State.reply s seq b).pins = s.pins :=
  (State.reply_frame (List.Subset.refl _) (Frame.refl _ _)).pins_eq
@[simp] theorem State.reply_evl (s : State) (seq : Nat) (b : List Byte) : (State.reply s seq b).evl = s.evl :=
  (State.reply_frame (List.Subset.refl _) (Frame.refl _ _)).evl_eq
@[simp] theorem State.reply_paths (s : State) (seq : Nat) (b : List Byte) : (State.reply s seq b).paths = s.paths :=
  (State.reply_frame (List.Subset.refl _) (Frame.refl _ _)).paths_eq
@[simp] theorem State.reply_pages (s : State) (seq : Nat) (b : List Byte) : (State.reply s seq b).pages = s.pages :=
  (State.reply_frame (List.Subset.refl _) (Frame.refl _ _)).pages_eq
@[simp] theorem State.reply_regs (s : State) (seq : Nat) (b : List Byte) : (State.reply s seq b).regs = s.regs :=
  (State.reply_frame (List.Subset.refl _) (Frame.refl _ _)).regs_eq
@[simp] theorem State.reply_cpx (s : State) (seq : Nat) (b : List Byte) : (State.reply s seq b).cpx = s.cpx :=
  (State.reply_frame (List.Subset.refl _) (Frame.refl _ _)).cpx_eq

@[simp] theorem State.asyncEvent_pending (s : State) (f typ info page : Nat) : (State.asyncEvent s f typ info page).pending = s.pending :=
  (State.asyncEvent_frame (List.Subset.refl _) (Frame.refl _ _)).pending_eq
@[simp] theorem State.asyncEvent_ans (s : State) (f typ info page : Nat) : (State.asyncEvent s f typ info page).ans = s.ans :=
  (State.asyncEvent_frame (List.Subset.refl _) (Frame.refl _ _)).ans_eq
@[simp] theorem State.asyncEvent_draws (s : State) (f typ info page : Nat) : (State.asyncEvent s f typ info page).draws = s.draws :=
  (State.asyncEvent_frame (List.Subset.refl _) (Frame.refl _ _)).draws_eq
@[simp] theorem State.asyncEvent_gate (s : State) (f typ info page : Nat) : (State.asyncEvent s f typ info page).gate = s.gate :=
  (State.asyncEvent_frame (List.Subset.refl _) (Frame.refl _ _)).gate_eq
@[simp] theorem State.asyncEvent_tbs (s : State) (f typ info page : Nat) : (State.asyncEvent s f typ info page).tbs = s.tbs :=
  (State.asyncEvent_frame (List.Subset.refl _) (Frame.refl _ _)).tbs_eq
@[simp] theorem State.asyncEvent_stp (s : State) (f typ info page : Nat) : (State.asyncEvent s f typ info page).stp = s.stp :=
  (State.asyncEvent_frame (List.Subset.refl _) (Frame.refl _ _)).stp_eq
@[simp] theorem State.asyncEvent_ten (s : State) (f typ info page : Nat) : (State.asyncEvent s f typ info page).ten = s.ten :=
  (State.asyncEvent_frame (List.Subset.refl _) (Frame.refl _ _)).ten_eq
@[simp] theorem State.asyncEvent_map (s : State) (f typ info page : Nat) : (State.asyncEvent s f typ info page).map = s.map :=
  (State.asyncEvent_frame (List.Subset.refl _) (Frame.refl _ _)).map_eq
@[simp] theorem State.asyncEvent_wbf (s : State) (f typ info page : Nat) : (State.asyncEvent s f typ info page).wbf = s.wbf :=
  (State.asyncEvent_frame (List.Subset.refl _) (Frame.refl _ _)).wbf_eq
@[simp] theorem State.asyncEvent_fch (s : State) (f typ info page : Nat) : (State.asyncEvent s f typ info page).fch = s.fch :=
  (State.asyncEvent_frame (List.Subset.refl _) (Frame.refl _ _)).fch_eq
@[simp] theorem State.asyncEvent_ldc (s : State) (f typ info page : Nat) : (State.asyncEvent s f typ info page).ldc = s.ldc :=
  (State.asyncEvent_frame (List.Subset.refl _) (Frame.refl _ _)).ldc_eq
@[simp] theorem State.asyncEvent_par (s : State) (f typ info page : Nat) : (State.asyncEvent s f typ info page).par = s.par :=
  (State.asyncEvent_frame (List.Subset.refl _) (Frame.refl _ _)).par_eq
@[simp] theorem State.asyncEvent_rcl (s : State) (f typ info page : Nat) : (State.asyncEvent s f typ info page).rcl = s.rcl :=
  (State.asyncEvent_frame (List.Subset.refl _) (Frame.refl _ _)).rcl_eq
@[simp] theorem State.asyncEvent_dmc (s : State) (f typ info page : Nat) : (State.asyncEvent s f typ info page).dmc = s.dmc :=
  (State.asyncEvent_frame (List.Subset.refl _) (Frame.refl _ _)).dmc_eq
@[simp] theorem State.asyncEvent_key (s : State) (f typ info page : Nat) : (State.asyncEvent s f typ info page).key = s.key :=
  (State.asyncEvent_frame (List.Subset.refl _) (Frame.refl _ _)).key_eq
@[simp] theorem State.asyncEvent_cip (s : State) (f typ info page : Nat) : (State.asyncEvent s f typ info page).cip = s.cip :=
  (State.asyncEvent_frame (List.Subset.refl _) (Frame.refl _ _)).cip_eq
@[simp] theorem State.asyncEvent_staged (s : State) (f typ info page : Nat) : (State.asyncEvent s f typ info page).staged = s.staged :=
  (State.asyncEvent_frame (List.Subset.refl _) (Frame.refl _ _)).staged_eq
@[simp] theorem State.asyncEvent_norWaits (s : State) (f typ info page : Nat) : (State.asyncEvent s f typ info page).norWaits = s.norWaits :=
  (State.asyncEvent_frame (List.Subset.refl _) (Frame.refl _ _)).norWaits_eq
@[simp] theorem State.asyncEvent_hif (s : State) (f typ info page : Nat) : (State.asyncEvent s f typ info page).hif = s.hif :=
  (State.asyncEvent_frame (List.Subset.refl _) (Frame.refl _ _)).hif_eq
@[simp] theorem State.asyncEvent_net (s : State) (f typ info page : Nat) : (State.asyncEvent s f typ info page).net = s.net :=
  (State.asyncEvent_frame (List.Subset.refl _) (Frame.refl _ _)).net_eq
@[simp] theorem State.asyncEvent_sbi (s : State) (f typ info page : Nat) : (State.asyncEvent s f typ info page).sbi = s.sbi :=
  (State.asyncEvent_frame (List.Subset.refl _) (Frame.refl _ _)).sbi_eq
@[simp] theorem State.asyncEvent_thm (s : State) (f typ info page : Nat) : (State.asyncEvent s f typ info page).thm = s.thm :=
  (State.asyncEvent_frame (List.Subset.refl _) (Frame.refl _ _)).thm_eq
@[simp] theorem State.asyncEvent_hld (s : State) (f typ info page : Nat) : (State.asyncEvent s f typ info page).hld = s.hld :=
  (State.asyncEvent_frame (List.Subset.refl _) (Frame.refl _ _)).hld_eq
@[simp] theorem State.asyncEvent_fuses (s : State) (f typ info page : Nat) : (State.asyncEvent s f typ info page).fuses = s.fuses :=
  (State.asyncEvent_frame (List.Subset.refl _) (Frame.refl _ _)).fuses_eq
@[simp] theorem State.asyncEvent_nor (s : State) (f typ info page : Nat) : (State.asyncEvent s f typ info page).nor = s.nor :=
  (State.asyncEvent_frame (List.Subset.refl _) (Frame.refl _ _)).nor_eq
@[simp] theorem State.asyncEvent_bot (s : State) (f typ info page : Nat) : (State.asyncEvent s f typ info page).bot = s.bot :=
  (State.asyncEvent_frame (List.Subset.refl _) (Frame.refl _ _)).bot_eq
@[simp] theorem State.asyncEvent_pins (s : State) (f typ info page : Nat) : (State.asyncEvent s f typ info page).pins = s.pins :=
  (State.asyncEvent_frame (List.Subset.refl _) (Frame.refl _ _)).pins_eq
@[simp] theorem State.asyncEvent_evl (s : State) (f typ info page : Nat) : (State.asyncEvent s f typ info page).evl = s.evl :=
  (State.asyncEvent_frame (List.Subset.refl _) (Frame.refl _ _)).evl_eq
@[simp] theorem State.asyncEvent_paths (s : State) (f typ info page : Nat) : (State.asyncEvent s f typ info page).paths = s.paths :=
  (State.asyncEvent_frame (List.Subset.refl _) (Frame.refl _ _)).paths_eq
@[simp] theorem State.asyncEvent_pages (s : State) (f typ info page : Nat) : (State.asyncEvent s f typ info page).pages = s.pages :=
  (State.asyncEvent_frame (List.Subset.refl _) (Frame.refl _ _)).pages_eq
@[simp] theorem State.asyncEvent_regs (s : State) (f typ info page : Nat) : (State.asyncEvent s f typ info page).regs = s.regs :=
  (State.asyncEvent_frame (List.Subset.refl _) (Frame.refl _ _)).regs_eq
@[simp] theorem State.asyncEvent_cpx (s : State) (f typ info page : Nat) : (State.asyncEvent s f typ info page).cpx = s.cpx :=
  (State.asyncEvent_frame (List.Subset.refl _) (Frame.refl _ _)).cpx_eq

end Sys2Proof.Machine
end

