-- ==== Sys2Proof/Laws/Finish.lean ====
section
/-! SUPPORT. What the shared operations do: reading back a function, a page, a register field, a command or a window
after it is written; how a command ends; what a raised event leaves. -/

-- one proof after another: many at once would each hold a thread
set_option Elab.async false

namespace Sys2Proof.Machine

open Sys2Proof

/-! ## Functions, pages, fields, windows, paths -/

theorem State.setFn_fn (s : State) (f g : Nat) (x : Fn) : (s.setFn f x).fn g = if g = f then x else s.fn g :=
  Tbl.getD_put _ _ _ _ _

@[simp] theorem State.setFn_fn_self (s : State) (f : Nat) (x : Fn) : (s.setFn f x).fn f = x := by
  simp [State.setFn_fn]

theorem State.setFn_fn_ne (s : State) {f g : Nat} (x : Fn) (h : g ≠ f) : (s.setFn f x).fn g = s.fn g := by
  rw [State.setFn_fn, if_neg h]

theorem State.updFn_fn (s : State) (f g : Nat) (u : Fn → Fn) :
    (s.updFn f u).fn g = if g = f then u (s.fn f) else s.fn g := State.setFn_fn _ _ _ _

@[simp] theorem State.updFn_fn_self (s : State) (f : Nat) (u : Fn → Fn) : (s.updFn f u).fn f = u (s.fn f) := by
  simp [State.updFn_fn]

theorem State.fn_congr {s t : State} (h : t.fns = s.fns) (f : Nat) : t.fn f = s.fn f := by
  unfold State.fn; rw [h]

@[simp] theorem State.setPage_page_self (s : State) (p : Nat) (x : Page) : (s.setPage p x).page p = x := by
  simp [State.setPage_page]

theorem State.page_congr {s t : State} (h : t.pages = s.pages) (p : Nat) : t.page p = s.page p := by
  unfold State.page; rw [h]

theorem State.rdAt_congr {s t : State} (h : t.regs = s.regs) (f : Fld) (n k : Nat) : t.rdAt f n k = s.rdAt f n k := by
  unfold State.rdAt; rw [h]

theorem State.rd_congr {s t : State} (h : t.regs = s.regs) (f : Fld) : t.rd f = s.rd f := State.rdAt_congr h f 0 0

/-- A field reads the value last written, cut to its width. -/
theorem State.wrAt_rdAt (s : State) (f : Fld) (n k v : Nat) : (s.wrAt f n k v).rdAt f n k = v % 2 ^ f.w := by
  simp [State.rdAt, State.wrAt]

theorem State.wr_rd (s : State) (f : Fld) (v : Nat) : (s.wr f v).rd f = v % 2 ^ f.w := State.wrAt_rdAt _ _ _ _ _

/-- A write of one field leaves every field of another key. -/
theorem State.wrAt_rdAt_ne (s : State) {f g : Fld} {n k m j : Nat} (v : Nat) (h : fieldKey g m j ≠ fieldKey f n k) :
    (s.wrAt f n k v).rdAt g m j = s.rdAt g m j := by
  simp only [State.rdAt, State.wrAt, State.setRegs_regs, Tbl.getD, Tbl.put]
  split
  · rw [Tbl.get_erase, if_neg h]
  · rw [Tbl.get_set, if_neg h]

theorem State.wr_rd_ne (s : State) {f g : Fld} (v : Nat) (h : fieldKey g 0 0 ≠ fieldKey f 0 0) :
    (s.wr f v).rd g = s.rd g := State.wrAt_rdAt_ne s v h

theorem State.bump_rd_ne (s : State) {f g : Fld} (v : Nat) (h : fieldKey g 0 0 ≠ fieldKey f 0 0) :
    (s.bump f v).rd g = s.rd g := by
  unfold State.bump State.bumpAt
  split
  · rfl
  · exact State.wrAt_rdAt_ne s _ h

theorem Path.ctorIdx_inj {p q : Path} (h : p.ctorIdx = q.ctorIdx) : p = q := by
  cases p <;> cases q <;> first | rfl | exact absurd h (by decide)

theorem State.setWindow_window (s : State) (p q : Path) (w : Window) :
    (s.setWindow p w).window q = if q = p then w else s.window q := by
  refine (Tbl.getD_put _ _ _ _ _).trans ?_
  by_cases h : q = p
  · subst h; simp
  · rw [if_neg h, if_neg fun e => h (Path.ctorIdx_inj e)]; rfl

/-! ## Commands -/

theorem State.cmd?_congr {s t : State} (h : t.qmx.cmds = s.qmx.cmds) (n : Nat) : t.cmd? n = s.cmd? n := by
  unfold State.cmd?; rw [h]

theorem State.cmd?_seq {s : State} {n : Nat} {c : Cmd} (h : s.cmd? n = some c) : c.seq = n := by
  simpa using List.find?_some h

theorem State.adminCmd_cmd? {s : State} {n : Nat} {c : Cmd} (h : s.adminCmd n = some c) : s.cmd? n = some c := by
  unfold State.adminCmd at h
  split at h
  · cases h
  · next d hd =>
    split at h
    · exact hd.trans h
    · cases h

theorem State.admin_eq {s : State} {n : Nat} {c : Cmd} (h : s.adminCmd n = some c) (act : Cmd → State) :
    s.admin n act = act c := by
  unfold State.admin; rw [h]

theorem State.ioCmd_eq {s : State} {n : Nat} {c : Cmd} (h : s.cmd? n = some c) (ha : c.admin = false)
    (hb : c.body = .undecoded) (act : Cmd → State) : s.ioCmd n c.op act = act c := by
  unfold State.ioCmd; simp [h, ha, hb]

/-- A command that is gone is found no more. -/
theorem State.dropCmd_cmd? (s : State) (n : Nat) : (s.dropCmd n).cmd? n = none := by
  simp [State.dropCmd, State.cmd?, List.find?_filter]

theorem State.dropCmd_cmd?_ne (s : State) {n m : Nat} (h : m ≠ n) : (s.dropCmd n).cmd? m = s.cmd? m := by
  simp only [State.dropCmd, State.cmd?, State.setQmx_qmx, List.find?_filter]
  congr 1
  funext c
  by_cases hc : c.seq = m
  · simp [hc, h]
  · simp [hc]

theorem State.updCmd_cmd? {s : State} {n : Nat} {c : Cmd} (g : Cmd → Cmd) (h : s.cmd? n = some c)
    (hg : (g c).seq = n) : (s.updCmd n g).cmd? n = some (g c) := by
  simp only [State.updCmd, State.cmd?, State.setQmx_qmx] at *
  generalize s.qmx.cmds = l at h
  induction l with
  | nil => cases h
  | cons d l ih =>
    by_cases hd : d.seq = n
    · simp only [List.find?_cons, hd, beq_self_eq_true] at h
      cases h
      simp [hd, hg]
    · simp only [List.find?_cons, beq_eq_false_iff_ne.mpr hd] at h
      simp only [List.map_cons, if_neg hd, List.find?_cons, beq_eq_false_iff_ne.mpr hd]
      exact ih h

theorem State.updCmd_cmd?_ne (s : State) {n m : Nat} (g : Cmd → Cmd) (hm : m ≠ n)
    (hg : ∀ c, c.seq = n → (g c).seq = n) : (s.updCmd n g).cmd? m = s.cmd? m := by
  simp only [State.updCmd, State.cmd?, State.setQmx_qmx]
  generalize s.qmx.cmds = l
  induction l with
  | nil => rfl
  | cons d l ih =>
    by_cases hd : d.seq = n
    · have h1 : (d.seq == m) = false := beq_eq_false_iff_ne.mpr fun e => hm (e.symm.trans hd)
      have h2 : ((g d).seq == m) = false := beq_eq_false_iff_ne.mpr fun e => hm (e.symm.trans (hg d hd))
      simp only [List.map_cons, if_pos hd, List.find?_cons, h1, h2]
      exact ih
    · simp only [List.map_cons, if_neg hd, List.find?_cons]
      rw [ih]

/-! ## How a command ends -/

/-- A meter changes nothing of a function but its current record. -/
theorem State.meter_fn (s : State) (f k : Nat) (g : Meter → Meter) :
    ∃ m, (s.meter f g).fn k = { s.fn k with cur := m } := by
  unfold State.meter
  rw [State.updFn_fn]
  split
  · next h => subst h; exact ⟨_, rfl⟩
  · exact ⟨_, rfl⟩

theorem State.meter_fn_ne (s : State) {f k : Nat} (g : Meter → Meter) (h : k ≠ f) : (s.meter f g).fn k = s.fn k := by
  unfold State.meter
  rw [State.updFn_fn, if_neg h]

/-- An entry that is written counts in the latency histogram alone. -/
theorem State.entryWritten_fn (s : State) (f k : Nat) (e : Cqe) :
    ∃ m, (s.entryWritten f e).fn k = { s.fn k with cur := m } := by
  unfold State.entryWritten
  split
  · exact State.meter_fn _ _ _ _
  · exact ⟨_, rfl⟩

theorem State.entryWritten_fn_ne (s : State) {f k : Nat} (e : Cqe) (h : k ≠ f) :
    (s.entryWritten f e).fn k = s.fn k := by
  unfold State.entryWritten
  split
  · exact State.meter_fn_ne _ _ h
  · rfl

/-- Where the entry of a command goes: its queue takes it, and nothing else of the function changes but the meters. -/
theorem State.postWide_fn {t : State} {c : Cmd} {q : Sq} (x : Status) (d e : Dword)
    (hq : Tbl.get (t.fn c.fn).sqs c.sqid = some q) :
    ∃ m, (t.postWide c x d e).fn c.fn = { t.fn c.fn with
      cqs := Tbl.upd (t.fn c.fn).cqs q.cqid (fun k => k.push { entryOf t q c x d with dw1 := e }), cur := m } := by
  unfold State.postWide
  dsimp only
  rw [hq]
  dsimp only
  split
  · exact ⟨_, State.setFn_fn_self _ _ _⟩
  · obtain ⟨m, k⟩ := State.entryWritten_fn (t.setFn c.fn { t.fn c.fn with
      cqs := Tbl.upd (t.fn c.fn).cqs q.cqid (fun k => k.push { entryOf t q c x d with dw1 := e }) }) c.fn c.fn
      { entryOf t q c x d with dw1 := e }
    rw [State.setFn_fn_self] at k
    exact ⟨m, k⟩

theorem State.postWide_fn_ne {t : State} {c : Cmd} {f : Nat} (x : Status) (d e : Dword) (hf : f ≠ c.fn) :
    (t.postWide c x d e).fn f = t.fn f := by
  unfold State.postWide
  dsimp only
  split
  · rfl
  · split
    · exact State.setFn_fn_ne _ _ hf
    · rw [State.entryWritten_fn_ne _ _ hf]
      exact State.setFn_fn_ne _ _ hf

theorem State.endCmd_fn (t : State) (c : Cmd) (x : Status) (d e : Dword) (f : Nat) :
    ∃ m, (t.endCmd c x d e).fn f = { (t.postWide c x d e).fn f with cur := m } := by
  unfold State.endCmd
  dsimp only
  split
  · exact ⟨_, rfl⟩
  · exact State.meter_fn _ _ _ _

theorem State.endCmd_cmds (t : State) (c : Cmd) (x : Status) (d e : Dword) :
    (t.endCmd c x d e).qmx.cmds = t.qmx.cmds.filter fun k => k.seq != c.seq := by
  unfold State.endCmd
  dsimp only
  split <;> simp [State.dropCmd]

/-- A completion in a state that has the commands and queues of `s` ends the command of `s`. -/
theorem State.complete_ends {s t : State} {n : Nat} {c : Cmd} {x : Status} {d : Dword} (h : s.cmd? n = some c)
    (hq : t.qmx.cmds = s.qmx.cmds) (hs : (t.fn c.fn).sqs = (s.fn c.fn).sqs) (hc : (t.fn c.fn).cqs = (s.fn c.fn).cqs)
    (hb : (t.fn c.fn).bind = (s.fn c.fn).bind) (hd : t.rd rNET_DSCP_TX = s.rd rNET_DSCP_TX) :
    s.ends (t.complete n x d) n x d := by
  have ht : t.cmd? n = some c := (State.cmd?_congr hq n).trans h
  refine ⟨c, h, ?_, fun q k h1 h2 => ?_⟩
  · unfold State.complete
    rw [ht]
    dsimp only
    rw [State.endCmd_cmds, hq, State.cmd?_seq h]
  · unfold State.complete
    rw [ht]
    dsimp only
    obtain ⟨m, e⟩ := State.endCmd_fn t c x d 0 c.fn
    obtain ⟨m', e'⟩ := State.postWide_fn x d 0 (hs ▸ h1 : Tbl.get (t.fn c.fn).sqs c.sqid = some q)
    rw [e, e']
    dsimp only
    rw [Tbl.get_upd, if_pos rfl, hc, h2]
    unfold entryOf
    rw [hb, hd]
    rfl

/-- Whatever keeps the commands and the queues after a command has ended keeps its end. -/
theorem State.ends_then {s t u : State} {n : Nat} {x : Status} {d : Dword} (h : s.ends t n x d)
    (hq : u.qmx.cmds = t.qmx.cmds) (hf : ∀ f, (u.fn f).cqs = (t.fn f).cqs) : s.ends u n x d := by
  obtain ⟨c, h1, h2, h3⟩ := h
  exact ⟨c, h1, hq.trans h2, fun q k a b => by rw [hf]; exact h3 q k a b⟩

theorem State.finish_ends {s t : State} {n : Nat} {c : Cmd} {x : Status} (h : s.cmd? n = some c)
    (hq : t.qmx.cmds = s.qmx.cmds) (hf : t.fns = s.fns) (hd : t.rd rNET_DSCP_TX = s.rd rNET_DSCP_TX) :
    s.ends (t.finish n x) n x 0 :=
  State.complete_ends h hq (by rw [State.fn_congr hf]) (by rw [State.fn_congr hf]) (by rw [State.fn_congr hf]) hd

theorem State.reply_ends {s t : State} {n : Nat} {c : Cmd} {b : List Byte} (h : s.cmd? n = some c)
    (hq : t.qmx.cmds = s.qmx.cmds) (hf : t.fns = s.fns) (hd : t.rd rNET_DSCP_TX = s.rd rNET_DSCP_TX) :
    s.ends (t.reply n b) n stOk 0 := by
  unfold State.reply
  rw [(State.cmd?_congr hq n).trans h]
  exact State.finish_ends h hq hf hd

theorem State.reply_ans {t : State} {n : Nat} {c : Cmd} (b : List Byte) (h : t.cmd? n = some c) :
    (t.reply n b).ans = .bytes b := by
  unfold State.reply
  rw [h]
  exact State.finish_ans _ _ _

/-- A completion leaves every other function as it was. -/
theorem State.complete_fn_ne {t : State} {n f : Nat} {c : Cmd} (x : Status) (d : Dword) (h : t.cmd? n = some c)
    (hf : f ≠ c.fn) : (t.complete n x d).fn f = t.fn f := by
  unfold State.complete
  rw [h]
  dsimp only
  have e : (t.postWide c x d 0).fn f = t.fn f := State.postWide_fn_ne x d 0 hf
  unfold State.endCmd
  dsimp only
  split
  · exact e
  · rw [State.meter_fn_ne _ _ hf]; exact e

/-- A completion changes nothing of a function but its completion queues and its current meters. -/
theorem State.complete_fn (t : State) (n f : Nat) (x : Status) (d : Dword) :
    ∃ q m, (t.complete n x d).fn f = { t.fn f with cqs := q, cur := m } := by
  unfold State.complete
  split
  · exact ⟨_, _, rfl⟩
  · next c h =>
    obtain ⟨m, e⟩ := State.endCmd_fn t c x d 0 f
    by_cases hf : f = c.fn
    · subst hf
      cases hq : Tbl.get (t.fn c.fn).sqs c.sqid with
      | none =>
        have k : t.postWide c x d 0 = t := by unfold State.postWide; dsimp only; rw [hq]
        rw [k] at e
        exact ⟨_, _, e⟩
      | some q =>
        obtain ⟨m', e'⟩ := State.postWide_fn x d 0 hq
        rw [e'] at e
        exact ⟨_, _, e⟩
    · rw [State.postWide_fn_ne x d 0 hf] at e
      exact ⟨_, _, e⟩

theorem State.complete_none {t : State} {n : Nat} (x : Status) (d : Dword) (h : t.cmd? n = none) :
    t.complete n x d = t := by
  unfold State.complete; rw [h]

theorem State.hold_waits {s t : State} {n : Nat} {c : Cmd} (h : s.cmd? n = some c) (hq : t.qmx.cmds = s.qmx.cmds) :
    s.waits (t.hold n) n :=
  ⟨c, h, by simp [State.hold, State.updCmd, hq]⟩

theorem State.waits_then {s t u : State} {n : Nat} (h : s.waits t n) (hq : u.qmx.cmds = t.qmx.cmds) : s.waits u n :=
  let ⟨c, h1, h2⟩ := h
  ⟨c, h1, hq.trans h2⟩

/-! ## Events -/

theorem State.evt_page (s : State) (p b q : Nat) : ((s.evt p b).page q).evtRaw =
    if q = p then (s.page p).evtRaw ||| BitVec.ofNat 32 (2 ^ b) else (s.page q).evtRaw := by
  unfold State.evt
  rw [State.setPage_page]
  by_cases h : q = p <;> simp [h]

theorem evt_bit {b : Nat} (h : b < 32) : (BitVec.ofNat 32 (2 ^ b)).getLsbD b = true :=
  (by decide : ∀ c : Fin 32, (BitVec.ofNat 32 (2 ^ c.val)).getLsbD c = true) ⟨b, h⟩

/-- A raised event bit shows. -/
theorem State.ev_shows (s : State) {e : Nat × Nat} (h : e.2 < 32) : (s.ev e).shows e := by
  unfold State.shows State.ev
  rw [State.evt_page, if_pos rfl, BitVec.getLsbD_or, evt_bit h, Bool.or_true]

theorem State.evCh_shows (s : State) {nn : Nat} {e : Nat × Nat} (h : e.2 < 32) : (s.evCh nn e).shows (64 + nn, e.2) :=
  State.ev_shows s (e := (64 + nn, e.2)) h

/-- A bit that shows still shows after another event. -/
theorem State.evt_shows {s : State} {e : Nat × Nat} (h : s.shows e) (p b : Nat) : (s.evt p b).shows e := by
  unfold State.shows at *
  rw [State.evt_page]
  split
  · next hp => rw [← hp, BitVec.getLsbD_or, h, Bool.true_or]
  · exact h

theorem State.ev_shows' {s : State} {e : Nat × Nat} (h : s.shows e) (a : Nat × Nat) : (s.ev a).shows e :=
  State.evt_shows h _ _

theorem State.shows_congr {s t : State} {e : Nat × Nat} (h : s.shows e) (hp : t.pages = s.pages) : t.shows e := by
  unfold State.shows at *
  rw [State.page_congr hp]; exact h

theorem refuse_shows {s : State} {e : Nat × Nat} (h : s.shows e) (k : Nat) (r : LRec) (b : Nat) :
    (refuse s k r b).shows e := by
  unfold refuse
  refine State.evt_shows (State.shows_congr h ?_) _ _
  simp [State.setBucket]

theorem accept_shows {s : State} {e : Nat × Nat} (h : s.shows e) (code : Nat) (r : LRec) : (accept s code r).shows e := by
  unfold accept
  dsimp only
  split
  · exact State.shows_congr h rfl
  · split
    · split
      · exact refuse_shows h _ _ _
      · exact State.shows_congr h rfl
    · exact refuse_shows h _ _ _

/-- A raised event is accepted, or held before the counts are restored, after its capture. -/
theorem State.raiseAt_cases (s : State) (p code : Nat) (f : Option Nat) (l : List (Nat × Nat)) (a : Option Nat) :
    ∃ u, (u = s ∨ ∃ n, u = s.capture p (code % 256) f n) ∧
      (s.raiseAt p code f l a = accept u code (recordNow s code f l) ∨
        s.raiseAt p code f l a = u.setEvl { u.evl with held := u.evl.held ++ [(u.tbs.clk, recordNow s code f l)] }) := by
  unfold State.raiseAt
  dsimp only
  by_cases h : severity code ≥ 3
  · rw [if_pos h]
    refine ⟨s.capture p (code % 256) f (a.getD (payloadNat (recordNow s code f l).payload % 2 ^ 32)),
      Or.inr ⟨_, rfl⟩, ?_⟩
    split
    · exact Or.inl rfl
    · exact Or.inr rfl
  · rw [if_neg h]
    refine ⟨_, Or.inl rfl, ?_⟩
    split
    · exact Or.inl rfl
    · exact Or.inr rfl

theorem State.capture_shows {s : State} {e : Nat × Nat} (h : s.shows e) (p code : Nat) (f : Option Nat) (n : Nat) :
    (s.capture p code f n).shows e := by
  unfold State.capture State.shows at *
  dsimp only
  rw [State.setPage_page]
  by_cases hp : e.1 = p
  · rw [if_pos hp, ← hp]; split <;> exact h
  · rw [if_neg hp]; exact h

/-- A raised event clears no event bit. -/
theorem State.raiseAt_shows {s : State} {e : Nat × Nat} (h : s.shows e) (p code : Nat) (f : Option Nat)
    (l : List (Nat × Nat)) (a : Option Nat) : (s.raiseAt p code f l a).shows e := by
  obtain ⟨u, hu, k⟩ := s.raiseAt_cases p code f l a
  have hs : u.shows e := by
    rcases hu with rfl | ⟨n, rfl⟩
    · exact h
    · exact State.capture_shows h _ _ _ _
  rcases k with k | k <;> rw [k]
  · exact accept_shows hs _ _
  · exact State.shows_congr hs rfl

theorem State.raise_shows {s : State} {e : Nat × Nat} (h : s.shows e) (code : Nat) (f : Option Nat)
    (l : List (Nat × Nat)) : (s.raise code f l).shows e := State.raiseAt_shows h _ _ _ _ _

/-- The record of an event raised in a state with the time of `s`. -/
theorem recordNow_of {s t : State} (h : t.tbs = s.tbs) (code : Nat) (f : Option Nat) (l : List (Nat × Nat)) :
    (recordNow t code f l).of s code f l := by
  simp [LRec.of, recordNow, h]

theorem enqueue_mem (e : Evl) (r : LRec) : (∃ n, { r with seq := n } ∈ (enqueue e r).mirror) ∨ r ∈ (enqueue e r).queue := by
  unfold enqueue
  split
  · exact Or.inl ⟨_, List.mem_cons_self⟩
  · split
    · exact Or.inr (List.mem_append_right _ List.mem_cons_self)
    · exact Or.inr (List.mem_append_right _ List.mem_cons_self)

theorem refuse_tells {s t : State} {code : Nat} {f : Option Nat} {l : List (Nat × Nat)} {r : LRec} (h : r.of s code f l)
    (k b : Nat) : s.tells (refuse t k r b) code f l := by
  refine ⟨r, h, Or.inr (Or.inr (Or.inr ⟨k, { bucketOf t k with
    suppressed := min ((bucketOf t k).suppressed + 1) 0xFFFF, last := some r }, ?_, rfl⟩))⟩
  unfold refuse
  simp [State.setBucket]

theorem accept_tells {s t : State} {code : Nat} {f : Option Nat} {l : List (Nat × Nat)} {r : LRec}
    (h : r.of s code f l) : s.tells (accept t code r) code f l := by
  unfold accept
  dsimp only
  have go : ∀ (u : State) (q : LRec), q.of s code f l → s.tells (u.setEvl (enqueue u.evl q)) code f l := by
    intro u q hq
    rcases enqueue_mem u.evl q with ⟨n, hn⟩ | hn
    · exact ⟨{ q with seq := n }, hq, Or.inr (Or.inl hn)⟩
    · exact ⟨q, hq, Or.inl hn⟩
  split
  · exact go t r h
  · split
    · split
      · exact refuse_tells h _ _
      · exact go _ _ h
    · exact refuse_tells h _ _

/-- The ledger hears of a raised event. -/
theorem State.raiseAt_tells {s t : State} (ht : t.tbs = s.tbs) (p code : Nat) (f : Option Nat) (l : List (Nat × Nat))
    (a : Option Nat) : s.tells (t.raiseAt p code f l a) code f l := by
  obtain ⟨u, -, k⟩ := t.raiseAt_cases p code f l a
  rcases k with k | k <;> rw [k]
  · exact accept_tells (recordNow_of ht code f l)
  · exact ⟨_, recordNow_of ht code f l, Or.inr (Or.inr (Or.inl ⟨_, List.mem_append_right _ List.mem_cons_self⟩))⟩

theorem State.raise_tells {s t : State} (ht : t.tbs = s.tbs) (code : Nat) (f : Option Nat) (l : List (Nat × Nat)) :
    s.tells (t.raise code f l) code f l := State.raiseAt_tells ht _ _ _ _ _

theorem State.tells_congr {s t u : State} {code : Nat} {f : Option Nat} {l : List (Nat × Nat)} (h : s.tells t code f l)
    (he : u.evl = t.evl) : s.tells u code f l := by
  unfold State.tells at *
  rw [he]; exact h

end Sys2Proof.Machine
end

