-- ==== Sys2Proof/Laws/Header.lean ====
section
/-! SUPPORT. What each operation of Machine/Header.lean may change. -/

-- one proof after another: many at once would each hold a thread
set_option Elab.async false

namespace Sys2Proof.Machine

open Sys2Proof

theorem setEvents_frame {ps : List Part} {r₀ : State} {s : State} {p : Nat} {mask : Dword}
    (sub : [.pages] ⊆ ps) (h₀ : Frame ps r₀ s) : Frame ps r₀ (setEvents s p mask) := by
  unfold setEvents
  try dsimp only
  repeat' first
    | with_reducible assumption
    | with_reducible exact List.Subset.trans (by decide) sub
    | with_reducible apply State.evt_frame
    | with_reducible refine Frame.foldlFst (fun _ _ _ => ?_) ?_
    | with_reducible refine Frame.foldl (fun _ _ _ => ?_) ?_
    | with_reducible refine Frame.ite ?_ ?_
    | dsimp only
    | split

theorem execEvtRawClear_frame {ps : List Part} {r₀ : State} {p : Nat} {w same : Dword} {s : State}
    (sub : [.gate, .pages] ⊆ ps) (h₀ : Frame ps r₀ s) :
    ∃ z, execEvtRawClear p w same s = .next z ∧ Frame ps r₀ z := by
  refine ⟨_, rfl, ?_⟩
  try dsimp only
  repeat' first
    | with_reducible assumption
    | with_reducible exact List.Subset.trans (by decide) sub
    | with_reducible refine State.setPage_keep ?_ ?_ ?_
    | exact (fun h => h : _ → _)
    | exact (fun _ => rfl : _ → _)
    | with_reducible apply State.wakePage_frame
    | with_reducible apply setEvents_frame
    | with_reducible refine Frame.ite ?_ ?_
    | dsimp only
    | split

theorem execEvtForce_frame {ps : List Part} {r₀ : State} {p : Nat} {w : Dword} {s : State}
    (sub : [.gate, .pages] ⊆ ps) (h₀ : Frame ps r₀ s) :
    ∃ z, execEvtForce p w s = .next z ∧ Frame ps r₀ z := by
  refine ⟨_, rfl, ?_⟩
  try dsimp only
  repeat' first
    | with_reducible assumption
    | with_reducible exact List.Subset.trans (by decide) sub
    | with_reducible apply State.wakePage_frame
    | with_reducible apply setEvents_frame
    | with_reducible refine Frame.ite ?_ ?_
    | dsimp only
    | split

theorem execErrAck_frame {ps : List Part} {r₀ : State} {p : Nat} {s : State}
    (sub : [.gate, .pages] ⊆ ps) (h₀ : Frame ps r₀ s) :
    ∃ z, execErrAck p s = .next z ∧ Frame ps r₀ z := by
  refine ⟨_, rfl, ?_⟩
  try dsimp only
  repeat' first
    | with_reducible assumption
    | with_reducible exact List.Subset.trans (by decide) sub
    | with_reducible refine State.setPage_keep ?_ ?_ ?_
    | exact (fun h => h : _ → _)
    | exact (fun _ => rfl : _ → _)
    | with_reducible apply State.wakePage_frame
    | with_reducible refine Frame.ite ?_ ?_
    | dsimp only
    | split

theorem execSealBlock_frame {ps : List Part} {r₀ : State} {p : Nat} {s : State}
    (sub : [.gate, .pages] ⊆ ps) (h₀ : Frame ps r₀ s) :
    ∃ z, execSealBlock p s = .next z ∧ Frame ps r₀ z := by
  refine ⟨_, rfl, ?_⟩
  try dsimp only
  repeat' first
    | with_reducible assumption
    | with_reducible exact List.Subset.trans (by decide) sub
    | with_reducible refine State.setPage_keep ?_ ?_ ?_
    | exact (fun h => h : _ → _)
    | exact (fun _ => rfl : _ → _)
    | with_reducible apply State.wakePage_frame
    | with_reducible refine Frame.ite ?_ ?_
    | dsimp only
    | split

theorem clearCounters_frame {ps : List Part} {r₀ : State} {s : State} {p : Nat}
    (sub : [.regs] ⊆ ps) (h₀ : Frame ps r₀ s) : Frame ps r₀ (clearCounters s p) := by
  unfold clearCounters
  try dsimp only
  repeat' first
    | with_reducible assumption
    | with_reducible exact List.Subset.trans (by decide) sub
    | with_reducible apply State.setRegs_frame
    | with_reducible refine Frame.foldlFst (fun _ _ _ => ?_) ?_
    | with_reducible refine Frame.foldl (fun _ _ _ => ?_) ?_
    | dsimp only
    | split

theorem execBlockSoftReset_frame {ps : List Part} {r₀ : State} {p : Nat} {same : Dword} {s : State}
    (sub : [.gate, .pages, .regs] ⊆ ps) (h₀ : Frame ps r₀ s) :
    ∃ z, execBlockSoftReset p same s = .next z ∧ Frame ps r₀ z := by
  refine ⟨_, rfl, ?_⟩
  try dsimp only
  repeat' first
    | with_reducible assumption
    | with_reducible exact List.Subset.trans (by decide) sub
    | with_reducible refine State.setPage_keep ?_ ?_ ?_
    | exact (fun h => h : _ → _)
    | exact (fun _ => rfl : _ → _)
    | with_reducible apply State.wakePage_frame
    | with_reducible apply clearCounters_frame
    | with_reducible apply setEvents_frame
    | with_reducible refine Frame.ite ?_ ?_
    | dsimp only
    | split

end Sys2Proof.Machine
end

