-- ==== Sys2Proof/Laws/Keys.lean ====
section
/-! SUPPORT. What each operation of Machine/Keys.lean may change. -/

-- one proof after another: many at once would each hold a thread
set_option Elab.async false

namespace Sys2Proof.Machine

open Sys2Proof

theorem execKeyExchangeOffer_frame {ps : List Part} {r₀ : State} {seq hostPub hostNonce : Nat} {s : State}
    (sub : [.draws, .gate, .qmx, .fns, .key] ⊆ ps) (h₀ : Frame ps r₀ s) :
    ∃ z, execKeyExchangeOffer seq hostPub hostNonce s = .next z ∧ Frame ps r₀ z := by
  refine ⟨_, rfl, ?_⟩
  try dsimp only
  repeat' first
    | with_reducible assumption
    | with_reducible exact List.Subset.trans (by decide) sub
    | with_reducible apply State.finish_frame
    | with_reducible apply State.setKey_frame
    | with_reducible apply State.setKeySlot_frame
    | with_reducible apply State.wake_frame
    | with_reducible apply useDrbg_frame
    | with_reducible refine State.admin_frame (fun _ => ?_) ?_
    | with_reducible refine Frame.ite ?_ ?_
    | with_reducible apply State.draw_frame
    | with_reducible refine State.draw_eq_frame (by assumption) ?_ ?_
    | dsimp only
    | split

theorem execExchangeResponse_frame {ps : List Part} {r₀ : State} {seq : Nat} {s : State}
    (sub : [.ans, .gate, .qmx, .fns] ⊆ ps) (h₀ : Frame ps r₀ s) :
    ∃ z, execExchangeResponse seq s = .next z ∧ Frame ps r₀ z := by
  refine ⟨_, rfl, ?_⟩
  try dsimp only
  repeat' first
    | with_reducible assumption
    | with_reducible exact List.Subset.trans (by decide) sub
    | with_reducible apply State.finish_frame
    | with_reducible apply State.reply_frame
    | with_reducible apply State.wake_frame
    | with_reducible refine State.admin_frame (fun _ => ?_) ?_
    | dsimp only
    | split

theorem execCertificateChain_frame {ps : List Part} {r₀ : State} {seq off len : Nat} {s : State}
    (sub : [.ans, .gate, .qmx, .fns] ⊆ ps) (h₀ : Frame ps r₀ s) :
    ∃ z, execCertificateChain seq off len s = .next z ∧ Frame ps r₀ z := by
  refine ⟨_, rfl, ?_⟩
  try dsimp only
  repeat' first
    | with_reducible assumption
    | with_reducible exact List.Subset.trans (by decide) sub
    | with_reducible apply State.reply_frame
    | with_reducible apply State.wake_frame
    | with_reducible refine State.admin_frame (fun _ => ?_) ?_
    | dsimp only
    | split

theorem execKeyStatus_frame {ps : List Part} {r₀ : State} {seq nsid : Nat} {s : State}
    (sub : [.ans, .gate, .qmx, .fns] ⊆ ps) (h₀ : Frame ps r₀ s) :
    ∃ z, execKeyStatus seq nsid s = .next z ∧ Frame ps r₀ z := by
  refine ⟨_, rfl, ?_⟩
  try dsimp only
  repeat' first
    | with_reducible assumption
    | with_reducible exact List.Subset.trans (by decide) sub
    | with_reducible apply State.finish_frame
    | with_reducible apply State.reply_frame
    | with_reducible apply State.wake_frame
    | with_reducible refine State.admin_frame (fun _ => ?_) ?_
    | with_reducible refine Frame.ite ?_ ?_
    | dsimp only
    | split

theorem refuseLoad_frame {ps : List Part} {r₀ : State} {s : State} {f seq : Nat}
    (sub : [.qmx, .fns, .evl, .pages, .regs] ⊆ ps) (h₀ : Frame ps r₀ s) : Frame ps r₀ (refuseLoad s f seq) := by
  unfold refuseLoad
  try dsimp only
  repeat' first
    | with_reducible assumption
    | with_reducible exact List.Subset.trans (by decide) sub
    | with_reducible apply State.bump_frame
    | with_reducible apply State.ev_frame
    | with_reducible apply State.finish_frame
    | with_reducible apply State.raise_frame
    | dsimp only
    | split

theorem loadDone_frame {ps : List Part} {r₀ : State} {s : State} {f slot keyId : Nat}
    (sub : [.evl, .pages, .regs] ⊆ ps) (h₀ : Frame ps r₀ s) : Frame ps r₀ (loadDone s f slot keyId) := by
  unfold loadDone
  try dsimp only
  repeat' first
    | with_reducible assumption
    | with_reducible exact List.Subset.trans (by decide) sub
    | with_reducible apply State.bump_frame
    | with_reducible apply State.ev_frame
    | with_reducible apply State.raise_frame
    | dsimp only
    | split

theorem execLoadNamespaceKey_frame {ps : List Part} {r₀ : State} {seq nsid : Nat} {data : List Byte} {s : State}
    (sub : [.gate, .qmx, .fns, .map, .key, .norWaits, .nor, .evl, .pages, .regs] ⊆ ps) (h₀ : Frame ps r₀ s) :
    ∃ z, execLoadNamespaceKey seq nsid data s = .next z ∧ Frame ps r₀ z := by
  refine ⟨_, rfl, ?_⟩
  try dsimp only
  repeat' first
    | with_reducible assumption
    | with_reducible exact List.Subset.trans (by decide) sub
    | with_reducible apply State.finish_frame
    | with_reducible apply State.hold_frame
    | with_reducible apply State.setKey_frame
    | with_reducible apply State.setNor_frame
    | with_reducible apply State.wake_frame
    | with_reducible apply State.writeKeyRec_frame
    | with_reducible apply bumpSeq_frame
    | with_reducible apply changeKey_frame
    | with_reducible apply loadDone_frame
    | with_reducible apply refuseLoad_frame
    | with_reducible refine State.admin_frame (fun _ => ?_) ?_
    | with_reducible refine Frame.ite ?_ ?_
    | dsimp only
    | split

theorem execLoadMigrationKey_frame {ps : List Part} {r₀ : State} {seq : Nat} {data : List Byte} {s : State}
    (sub : [.gate, .qmx, .fns, .key, .evl, .pages, .regs] ⊆ ps) (h₀ : Frame ps r₀ s) :
    ∃ z, execLoadMigrationKey seq data s = .next z ∧ Frame ps r₀ z := by
  refine ⟨_, rfl, ?_⟩
  try dsimp only
  repeat' first
    | with_reducible assumption
    | with_reducible exact List.Subset.trans (by decide) sub
    | with_reducible apply State.finish_frame
    | with_reducible apply State.setKeySlot_frame
    | with_reducible apply State.wake_frame
    | with_reducible apply loadDone_frame
    | with_reducible apply refuseLoad_frame
    | with_reducible refine State.managerOnly_frame (fun _ => ?_) ?_ ?_
    | with_reducible refine Frame.ite ?_ ?_
    | dsimp only
    | split

theorem execClearKey_frame {ps : List Part} {r₀ : State} {seq nsid : Nat} {s : State}
    (sub : [.gate, .qmx, .fns, .key] ⊆ ps) (h₀ : Frame ps r₀ s) :
    ∃ z, execClearKey seq nsid s = .next z ∧ Frame ps r₀ z := by
  refine ⟨_, rfl, ?_⟩
  try dsimp only
  repeat' first
    | with_reducible assumption
    | with_reducible exact List.Subset.trans (by decide) sub
    | with_reducible apply State.finish_frame
    | with_reducible apply State.hold_frame
    | with_reducible apply State.setKeySlot_frame
    | with_reducible apply State.wake_frame
    | with_reducible apply changeKey_frame
    | with_reducible refine State.admin_frame (fun _ => ?_) ?_
    | with_reducible refine Frame.ite ?_ ?_
    | dsimp only
    | split

theorem execShadowZeroize_frame {ps : List Part} {r₀ : State} {k : Nat} {s : State}
    (sub : [.qmx, .fns, .key] ⊆ ps) (h₀ : Frame ps r₀ s) :
    ∃ z, execShadowZeroize k s = .next z ∧ Frame ps r₀ z := by
  refine ⟨_, rfl, ?_⟩
  try dsimp only
  repeat' first
    | with_reducible assumption
    | with_reducible exact List.Subset.trans (by decide) sub
    | with_reducible apply State.finish_frame
    | with_reducible apply State.setKey_frame
    | with_reducible apply State.setKeySlot_frame
    | with_reducible refine Frame.foldlFst (fun _ _ _ => ?_) ?_
    | with_reducible refine Frame.foldl (fun _ _ _ => ?_) ?_
    | with_reducible refine Frame.ite ?_ ?_
    | dsimp only
    | split

theorem execDrbgReseed_frame {ps : List Part} {r₀ : State} {s : State}
    (sub : [.key, .regs] ⊆ ps) (h₀ : Frame ps r₀ s) :
    ∃ z, execDrbgReseed s = .next z ∧ Frame ps r₀ z := by
  refine ⟨_, rfl, ?_⟩
  try dsimp only
  repeat' first
    | with_reducible assumption
    | with_reducible exact List.Subset.trans (by decide) sub
    | with_reducible apply State.bump_frame
    | with_reducible apply State.setKey_frame
    | with_reducible refine Frame.ite ?_ ?_
    | dsimp only
    | split

theorem execKeyDrbgFail_frame {ps : List Part} {r₀ : State} {s : State}
    (sub : [.key, .evl, .pages, .regs] ⊆ ps) (h₀ : Frame ps r₀ s) :
    ∃ z, execKeyDrbgFail s = .next z ∧ Frame ps r₀ z := by
  refine ⟨_, rfl, ?_⟩
  try dsimp only
  repeat' first
    | with_reducible assumption
    | with_reducible exact List.Subset.trans (by decide) sub
    | with_reducible apply State.ev_frame
    | with_reducible apply State.raise_frame
    | with_reducible apply State.setKey_frame
    | dsimp only
    | split

theorem execKeyKcvLoRead_frame {ps : List Part} {r₀ : State} {p : Path} {s : State}
    (sub : [.ans, .gate, .paths] ⊆ ps) (h₀ : Frame ps r₀ s) :
    ∃ z, execKeyKcvLoRead p s = .next z ∧ Frame ps r₀ z := by
  refine ⟨_, rfl, ?_⟩
  try dsimp only
  repeat' first
    | with_reducible assumption
    | with_reducible exact List.Subset.trans (by decide) sub
    | with_reducible apply readWide_frame
    | dsimp only
    | split

theorem spdmIn_frame {ps : List Part} {r₀ : State} {s : State} {doe : Bool} {act : State → State}
    (ha : ∀ u, Frame ps r₀ u → Frame ps r₀ (act u)) (sub : [.gate, .regs] ⊆ ps) (h₀ : Frame ps r₀ s) :
    Frame ps r₀ (spdmIn s doe act) := by
  unfold spdmIn
  try dsimp only
  repeat' first
    | with_reducible assumption
    | with_reducible exact List.Subset.trans (by decide) sub
    | with_reducible refine ha _ ?_
    | with_reducible apply State.bump_frame
    | with_reducible apply State.wake_frame
    | with_reducible refine Frame.ite ?_ ?_
    | dsimp only
    | split

theorem spdmError_frame {ps : List Part} {r₀ : State} {s : State} {code : Nat}
    (sub : [.ans] ⊆ ps) (h₀ : Frame ps r₀ s) : Frame ps r₀ (spdmError s code) := by
  unfold spdmError
  try dsimp only
  repeat' first
    | with_reducible assumption
    | with_reducible exact List.Subset.trans (by decide) sub
    | with_reducible apply State.answer_frame
    | dsimp only
    | split

theorem setSpdm_frame {ps : List Part} {r₀ : State} {s : State} {doe : Bool} {n : Nat}
    (sub : [.key] ⊆ ps) (h₀ : Frame ps r₀ s) : Frame ps r₀ (setSpdm s doe n) := by
  unfold setSpdm
  try dsimp only
  repeat' first
    | with_reducible assumption
    | with_reducible exact List.Subset.trans (by decide) sub
    | with_reducible apply State.setKey_frame
    | dsimp only
    | split

theorem spdmReady_frame {ps : List Part} {r₀ : State} {s : State} {doe : Bool} {act : State → State}
    (ha : ∀ u, Frame ps r₀ u → Frame ps r₀ (act u)) (sub : [.ans, .gate, .regs] ⊆ ps) (h₀ : Frame ps r₀ s) :
    Frame ps r₀ (spdmReady s doe act) := by
  unfold spdmReady
  try dsimp only
  repeat' first
    | with_reducible assumption
    | with_reducible exact List.Subset.trans (by decide) sub
    | with_reducible refine ha _ ?_
    | with_reducible apply spdmError_frame
    | with_reducible refine spdmIn_frame (fun _ _ => ?_) ?_ ?_
    | with_reducible refine Frame.ite ?_ ?_
    | dsimp only
    | split

theorem execGetVersion_frame {ps : List Part} {r₀ : State} {doe : Bool} {s : State}
    (sub : [.ans, .gate, .key, .regs] ⊆ ps) (h₀ : Frame ps r₀ s) :
    ∃ z, execGetVersion doe s = .next z ∧ Frame ps r₀ z := by
  refine ⟨_, rfl, ?_⟩
  try dsimp only
  repeat' first
    | with_reducible assumption
    | with_reducible exact List.Subset.trans (by decide) sub
    | with_reducible apply State.answer_frame
    | with_reducible apply setSpdm_frame
    | with_reducible refine spdmIn_frame (fun _ _ => ?_) ?_ ?_
    | dsimp only
    | split

theorem execGetCapabilities_frame {ps : List Part} {r₀ : State} {doe : Bool} {s : State}
    (sub : [.ans, .gate, .key, .regs] ⊆ ps) (h₀ : Frame ps r₀ s) :
    ∃ z, execGetCapabilities doe s = .next z ∧ Frame ps r₀ z := by
  refine ⟨_, rfl, ?_⟩
  try dsimp only
  repeat' first
    | with_reducible assumption
    | with_reducible exact List.Subset.trans (by decide) sub
    | with_reducible apply State.answer_frame
    | with_reducible apply setSpdm_frame
    | with_reducible apply spdmError_frame
    | with_reducible refine spdmIn_frame (fun _ _ => ?_) ?_ ?_
    | with_reducible refine Frame.ite ?_ ?_
    | dsimp only
    | split

theorem execNegotiateAlgorithms_frame {ps : List Part} {r₀ : State} {doe ecdsa384 sha384 secp384 aesGcm : Bool} {s : State}
    (sub : [.ans, .gate, .key, .regs] ⊆ ps) (h₀ : Frame ps r₀ s) :
    ∃ z, execNegotiateAlgorithms doe ecdsa384 sha384 secp384 aesGcm s = .next z ∧ Frame ps r₀ z := by
  refine ⟨_, rfl, ?_⟩
  try dsimp only
  repeat' first
    | with_reducible assumption
    | with_reducible exact List.Subset.trans (by decide) sub
    | with_reducible apply State.answer_frame
    | with_reducible apply setSpdm_frame
    | with_reducible apply spdmError_frame
    | with_reducible refine spdmIn_frame (fun _ _ => ?_) ?_ ?_
    | with_reducible refine Frame.ite ?_ ?_
    | dsimp only
    | split

theorem execGetDigests_frame {ps : List Part} {r₀ : State} {doe : Bool} {s : State}
    (sub : [.ans, .gate, .regs] ⊆ ps) (h₀ : Frame ps r₀ s) :
    ∃ z, execGetDigests doe s = .next z ∧ Frame ps r₀ z := by
  refine ⟨_, rfl, ?_⟩
  try dsimp only
  repeat' first
    | with_reducible assumption
    | with_reducible exact List.Subset.trans (by decide) sub
    | with_reducible apply State.answer_frame
    | with_reducible refine spdmReady_frame (fun _ _ => ?_) ?_ ?_
    | dsimp only
    | split

theorem execGetCertificate_frame {ps : List Part} {r₀ : State} {doe : Bool} {slot off len : Nat} {s : State}
    (sub : [.ans, .gate, .regs] ⊆ ps) (h₀ : Frame ps r₀ s) :
    ∃ z, execGetCertificate doe slot off len s = .next z ∧ Frame ps r₀ z := by
  refine ⟨_, rfl, ?_⟩
  try dsimp only
  repeat' first
    | with_reducible assumption
    | with_reducible exact List.Subset.trans (by decide) sub
    | with_reducible apply State.answer_frame
    | with_reducible apply spdmError_frame
    | with_reducible refine spdmReady_frame (fun _ _ => ?_) ?_ ?_
    | with_reducible refine Frame.ite ?_ ?_
    | dsimp only
    | split

theorem execChallenge_frame {ps : List Part} {r₀ : State} {doe : Bool} {slot nonce : Nat} {s : State}
    (sub : [.ans, .gate, .regs] ⊆ ps) (h₀ : Frame ps r₀ s) :
    ∃ z, execChallenge doe slot nonce s = .next z ∧ Frame ps r₀ z := by
  refine ⟨_, rfl, ?_⟩
  try dsimp only
  repeat' first
    | with_reducible assumption
    | with_reducible exact List.Subset.trans (by decide) sub
    | with_reducible apply State.answer_frame
    | with_reducible apply spdmError_frame
    | with_reducible refine spdmReady_frame (fun _ _ => ?_) ?_ ?_
    | with_reducible refine Frame.ite ?_ ?_
    | dsimp only
    | split

theorem execGetMeasurements_frame {ps : List Part} {r₀ : State} {doe : Bool} {index nonce : Nat} {s : State}
    (sub : [.ans, .gate, .regs] ⊆ ps) (h₀ : Frame ps r₀ s) :
    ∃ z, execGetMeasurements doe index nonce s = .next z ∧ Frame ps r₀ z := by
  refine ⟨_, rfl, ?_⟩
  try dsimp only
  repeat' first
    | with_reducible assumption
    | with_reducible exact List.Subset.trans (by decide) sub
    | with_reducible apply State.answer_frame
    | with_reducible apply spdmError_frame
    | with_reducible refine spdmReady_frame (fun _ _ => ?_) ?_ ?_
    | with_reducible refine Frame.ite ?_ ?_
    | dsimp only
    | split

theorem execKeyExchange_frame {ps : List Part} {r₀ : State} {doe : Bool} {s : State}
    (sub : [.ans, .draws, .gate, .key, .regs] ⊆ ps) (h₀ : Frame ps r₀ s) :
    ∃ z, execKeyExchange doe s = .next z ∧ Frame ps r₀ z := by
  refine ⟨_, rfl, ?_⟩
  try dsimp only
  repeat' first
    | with_reducible assumption
    | with_reducible exact List.Subset.trans (by decide) sub
    | with_reducible apply State.answer_frame
    | with_reducible apply State.setKey_frame
    | with_reducible apply spdmError_frame
    | with_reducible apply useDrbg_frame
    | with_reducible refine spdmReady_frame (fun _ _ => ?_) ?_ ?_
    | with_reducible refine Frame.ite ?_ ?_
    | with_reducible apply State.draw_frame
    | with_reducible refine State.draw_eq_frame (by assumption) ?_ ?_
    | dsimp only
    | split

theorem inSession_frame {ps : List Part} {r₀ : State} {s : State} {doe : Bool} {id : Nat} {done : Bool} {act : Session → State → State}
    (ha : ∀ x u, Frame ps r₀ u → Frame ps r₀ (act x u)) (sub : [.ans, .gate, .regs] ⊆ ps) (h₀ : Frame ps r₀ s) :
    Frame ps r₀ (inSession s doe id done act) := by
  unfold inSession
  try dsimp only
  repeat' first
    | with_reducible assumption
    | with_reducible exact List.Subset.trans (by decide) sub
    | with_reducible refine ha _ _ ?_
    | with_reducible apply spdmError_frame
    | with_reducible refine spdmReady_frame (fun _ _ => ?_) ?_ ?_
    | with_reducible refine Frame.ite ?_ ?_
    | dsimp only
    | split

theorem dropSession_frame {ps : List Part} {r₀ : State} {s : State} {id : Nat}
    (sub : [.key] ⊆ ps) (h₀ : Frame ps r₀ s) : Frame ps r₀ (dropSession s id) := by
  unfold dropSession
  try dsimp only
  repeat' first
    | with_reducible assumption
    | with_reducible exact List.Subset.trans (by decide) sub
    | with_reducible apply State.setKey_frame
    | dsimp only
    | split

theorem updSession_frame {ps : List Part} {r₀ : State} {s : State} {id : Nat} {g : Session → Session}
    (sub : [.key] ⊆ ps) (h₀ : Frame ps r₀ s) : Frame ps r₀ (updSession s id g) := by
  unfold updSession
  try dsimp only
  repeat' first
    | with_reducible assumption
    | with_reducible exact List.Subset.trans (by decide) sub
    | with_reducible apply State.setKey_frame
    | with_reducible refine Frame.ite ?_ ?_
    | dsimp only
    | split

theorem execFinish_frame {ps : List Part} {r₀ : State} {doe : Bool} {id : Nat} {good : Bool} {s : State}
    (sub : [.ans, .gate, .key, .regs] ⊆ ps) (h₀ : Frame ps r₀ s) :
    ∃ z, execFinish doe id good s = .next z ∧ Frame ps r₀ z := by
  refine ⟨_, rfl, ?_⟩
  try dsimp only
  repeat' first
    | with_reducible assumption
    | with_reducible exact List.Subset.trans (by decide) sub
    | with_reducible apply State.answer_frame
    | with_reducible apply dropSession_frame
    | with_reducible apply spdmError_frame
    | with_reducible apply updSession_frame
    | with_reducible refine inSession_frame (fun _ _ _ => ?_) ?_ ?_
    | with_reducible refine Frame.ite ?_ ?_
    | dsimp only
    | split

theorem execHeartbeat_frame {ps : List Part} {r₀ : State} {doe : Bool} {id : Nat} {s : State}
    (sub : [.ans, .gate, .regs] ⊆ ps) (h₀ : Frame ps r₀ s) :
    ∃ z, execHeartbeat doe id s = .next z ∧ Frame ps r₀ z := by
  refine ⟨_, rfl, ?_⟩
  try dsimp only
  repeat' first
    | with_reducible assumption
    | with_reducible exact List.Subset.trans (by decide) sub
    | with_reducible apply State.answer_frame
    | with_reducible refine inSession_frame (fun _ _ _ => ?_) ?_ ?_
    | dsimp only
    | split

theorem execKeyUpdate_frame {ps : List Part} {r₀ : State} {doe : Bool} {id : Nat} {s : State}
    (sub : [.ans, .gate, .key, .regs] ⊆ ps) (h₀ : Frame ps r₀ s) :
    ∃ z, execKeyUpdate doe id s = .next z ∧ Frame ps r₀ z := by
  refine ⟨_, rfl, ?_⟩
  try dsimp only
  repeat' first
    | with_reducible assumption
    | with_reducible exact List.Subset.trans (by decide) sub
    | with_reducible apply State.answer_frame
    | with_reducible apply updSession_frame
    | with_reducible refine inSession_frame (fun _ _ _ => ?_) ?_ ?_
    | dsimp only
    | split

theorem execEndSession_frame {ps : List Part} {r₀ : State} {doe : Bool} {id : Nat} {s : State}
    (sub : [.ans, .gate, .key, .regs] ⊆ ps) (h₀ : Frame ps r₀ s) :
    ∃ z, execEndSession doe id s = .next z ∧ Frame ps r₀ z := by
  refine ⟨_, rfl, ?_⟩
  try dsimp only
  repeat' first
    | with_reducible assumption
    | with_reducible exact List.Subset.trans (by decide) sub
    | with_reducible apply State.answer_frame
    | with_reducible apply dropSession_frame
    | with_reducible refine inSession_frame (fun _ _ _ => ?_) ?_ ?_
    | dsimp only
    | split

theorem ideApply_frame {ps : List Part} {r₀ : State} {s : State} {k : Nat} {x : IdeStream}
    (sub : [.hif] ⊆ ps) (h₀ : Frame ps r₀ s) : Frame ps r₀ (ideApply s k x) := by
  unfold ideApply
  try dsimp only
  repeat' first
    | with_reducible assumption
    | with_reducible exact List.Subset.trans (by decide) sub
    | with_reducible apply State.setHif_frame
    | dsimp only
    | split

theorem execIdeKm_frame {ps : List Part} {r₀ : State} {id k : Nat} {op : IdeOp} {s : State}
    (sub : [.ans, .gate, .hif, .regs] ⊆ ps) (h₀ : Frame ps r₀ s) :
    ∃ z, execIdeKm id k op s = .next z ∧ Frame ps r₀ z := by
  refine ⟨_, rfl, ?_⟩
  try dsimp only
  repeat' first
    | with_reducible assumption
    | with_reducible exact List.Subset.trans (by decide) sub
    | with_reducible apply State.answer_frame
    | with_reducible apply ideApply_frame
    | with_reducible apply spdmError_frame
    | with_reducible refine inSession_frame (fun _ _ _ => ?_) ?_ ?_
    | with_reducible refine Frame.ite ?_ ?_
    | dsimp only
    | split

end Sys2Proof.Machine
end

