-- ==== Sys2Proof/Laws/Memory.lean ====
section
/-! SUPPORT. What each operation of Machine/Memory.lean may change. -/

-- one proof after another: many at once would each hold a thread
set_option Elab.async false

namespace Sys2Proof.Machine

open Sys2Proof

theorem State.setSubch_frame {ps : List Part} {r₀ : State} {s : State} {c : Nat} {x : Subch}
    (sub : [.dmc] ⊆ ps) (h₀ : Frame ps r₀ s) : Frame ps r₀ (State.setSubch s c x) := by
  unfold State.setSubch
  try dsimp only
  repeat' first
    | with_reducible assumption
    | with_reducible exact List.Subset.trans (by decide) sub
    | with_reducible apply State.setDmc_frame
    | dsimp only
    | split

theorem readLine_frame {ps : List Part} {r₀ : State} {s : State} {line : Nat}
    (sub : [.dmc] ⊆ ps) (h₀ : Frame ps r₀ s) : Frame ps r₀ (readLine s line) := by
  unfold readLine
  try dsimp only
  repeat' first
    | with_reducible assumption
    | with_reducible exact List.Subset.trans (by decide) sub
    | with_reducible apply State.setSubch_frame
    | dsimp only
    | split

theorem writeBack_frame {ps : List Part} {r₀ : State} {s : State} {line : Nat}
    (sub : [.dmc] ⊆ ps) (h₀ : Frame ps r₀ s) : Frame ps r₀ (writeBack s line) := by
  unfold writeBack
  try dsimp only
  repeat' first
    | with_reducible assumption
    | with_reducible exact List.Subset.trans (by decide) sub
    | with_reducible apply State.setSubch_frame
    | with_reducible refine Frame.ite ?_ ?_
    | dsimp only
    | split

theorem freeze_frame {ps : List Part} {r₀ : State} {s : State} {cause : FreezeCause} {line : Nat}
    (sub : [.stp, .qmx, .dmc, .evl, .pages, .regs] ⊆ ps) (h₀ : Frame ps r₀ s) : Frame ps r₀ (freeze s cause line) := by
  unfold freeze
  try dsimp only
  repeat' first
    | with_reducible assumption
    | with_reducible exact List.Subset.trans (by decide) sub
    | with_reducible apply State.ev_frame
    | with_reducible apply State.raiseAt_frame
    | with_reducible apply State.setDmc_frame
    | with_reducible apply State.setQmx_frame
    | with_reducible apply State.setStp_frame
    | with_reducible refine Frame.ite ?_ ?_
    | dsimp only
    | split

theorem lineFailed_frame {ps : List Part} {r₀ : State} {s : State} {x : LineFail} {qtr : BitVec 4} {lcrc tag : Bool} {raw : BitVec 640}
    (sub : [.dmc, .pages, .regs] ⊆ ps) (h₀ : Frame ps r₀ s) : Frame ps r₀ (lineFailed s x qtr lcrc tag raw) := by
  unfold lineFailed
  try dsimp only
  repeat' first
    | with_reducible assumption
    | with_reducible exact List.Subset.trans (by decide) sub
    | with_reducible apply State.capture_frame
    | with_reducible apply State.setDmc_frame
    | with_reducible apply State.wr_frame
    | with_reducible apply State.wrAt_frame
    | with_reducible refine Frame.foldlFst (fun _ _ _ => ?_) ?_
    | with_reducible refine Frame.foldl (fun _ _ _ => ?_) ?_
    | with_reducible refine Frame.ite ?_ ?_
    | dsimp only
    | split

theorem execDramLineCheckFail_frame {ps : List Part} {r₀ : State} {x : LineFail} {qtr : BitVec 4} {lcrc tag passes : Bool} {raw : BitVec 640} {s : State}
    (sub : [.wbf, .dmc, .pages, .regs] ⊆ ps) (h₀ : Frame ps r₀ s) :
    ∃ z, execDramLineCheckFail x qtr lcrc tag passes raw s = .next z ∧ Frame ps r₀ z := by
  refine ⟨_, rfl, ?_⟩
  try dsimp only
  repeat' first
    | with_reducible assumption
    | with_reducible exact List.Subset.trans (by decide) sub
    | with_reducible apply State.bump_frame
    | with_reducible apply State.ev_frame
    | with_reducible apply State.freeSlot_frame
    | with_reducible apply lineFailed_frame
    | with_reducible apply readLine_frame
    | with_reducible apply writeBack_frame
    | with_reducible refine Frame.ite ?_ ?_
    | dsimp only
    | split

theorem recomputed_frame {ps : List Part} {r₀ : State} {s : State} {x : LineFail}
    (sub : [.dmc, .evl, .pages, .regs] ⊆ ps) (h₀ : Frame ps r₀ s) : Frame ps r₀ (recomputed s x) := by
  unfold recomputed
  try dsimp only
  repeat' first
    | with_reducible assumption
    | with_reducible exact List.Subset.trans (by decide) sub
    | with_reducible apply State.bump_frame
    | with_reducible apply State.ev_frame
    | with_reducible apply State.raise_frame
    | with_reducible apply writeBack_frame
    | dsimp only
    | split

theorem execDmcRecompute_frame {ps : List Part} {r₀ : State} {ok covered : Bool} {s : State}
    (sub : [.stp, .qmx, .fns, .map, .wbf, .par, .dmc, .evl, .pages, .regs] ⊆ ps) (h₀ : Frame ps r₀ s) :
    ∃ z, execDmcRecompute ok covered s = .next z ∧ Frame ps r₀ z := by
  refine ⟨_, rfl, ?_⟩
  try dsimp only
  split
  all_goals repeat' first
    | with_reducible assumption
    | with_reducible exact List.Subset.trans (by decide) sub
    | with_reducible apply State.finish_frame
    | with_reducible apply State.freeSlot_frame
    | with_reducible apply State.setDmc_frame
    | with_reducible apply freeze_frame
    | with_reducible apply recomputed_frame
    | with_reducible apply releaseCmd_frame
    | with_reducible refine Frame.ite ?_ ?_
    | dsimp only
    | split

theorem execDramAlert_frame {ps : List Part} {r₀ : State} {ca : Bool} {n : Nat} {x : LineFail} {s : State}
    (sub : [.dmc, .pages, .regs] ⊆ ps) (h₀ : Frame ps r₀ s) :
    ∃ z, execDramAlert ca n x s = .next z ∧ Frame ps r₀ z := by
  refine ⟨_, rfl, ?_⟩
  try dsimp only
  repeat' first
    | with_reducible assumption
    | with_reducible exact List.Subset.trans (by decide) sub
    | with_reducible apply State.bump_frame
    | with_reducible apply State.ev_frame
    | with_reducible apply lineFailed_frame
    | with_reducible refine Frame.ite ?_ ?_
    | dsimp only
    | split

theorem execDramOscRead_frame {ps : List Part} {r₀ : State} {sc rank drift : Nat} {s : State}
    (sub : [.dmc, .pages] ⊆ ps) (h₀ : Frame ps r₀ s) :
    ∃ z, execDramOscRead sc rank drift s = .next z ∧ Frame ps r₀ z := by
  refine ⟨_, rfl, ?_⟩
  try dsimp only
  repeat' first
    | with_reducible assumption
    | with_reducible exact List.Subset.trans (by decide) sub
    | with_reducible apply State.ev_frame
    | with_reducible apply State.setDmc_frame
    | with_reducible refine Frame.ite ?_ ?_
    | dsimp only
    | split

theorem execDramZqCalibration_frame {ps : List Part} {r₀ : State} {sc rank : Nat} {s : State}
    (sub : [.dmc] ⊆ ps) (h₀ : Frame ps r₀ s) :
    ∃ z, execDramZqCalibration sc rank s = .next z ∧ Frame ps r₀ z := by
  refine ⟨_, rfl, ?_⟩
  try dsimp only
  repeat' first
    | with_reducible assumption
    | with_reducible exact List.Subset.trans (by decide) sub
    | with_reducible apply State.setDmc_frame
    | with_reducible refine Frame.ite ?_ ?_
    | dsimp only
    | split

theorem drainWrites_frame {ps : List Part} {r₀ : State} {s : State}
    (sub : [.dmc] ⊆ ps) (h₀ : Frame ps r₀ s) : Frame ps r₀ (drainWrites s) := by
  unfold drainWrites
  try dsimp only
  repeat' first
    | with_reducible assumption
    | with_reducible exact List.Subset.trans (by decide) sub
    | with_reducible apply State.setDmc_frame
    | with_reducible refine Frame.ite ?_ ?_
    | dsimp only
    | split

theorem refreshTick_frame {ps : List Part} {r₀ : State} {s : State}
    (sub : [.draws, .dmc] ⊆ ps) (h₀ : Frame ps r₀ s) : Frame ps r₀ (refreshTick s) := by
  unfold refreshTick
  try dsimp only
  repeat' first
    | with_reducible assumption
    | with_reducible exact List.Subset.trans (by decide) sub
    | with_reducible apply State.setDmc_frame
    | with_reducible refine Frame.foldlFst (fun _ _ _ => ?_) ?_
    | with_reducible refine Frame.foldl (fun _ _ _ => ?_) ?_
    | with_reducible refine Frame.ite ?_ ?_
    | with_reducible apply State.draw_frame
    | with_reducible refine State.draw_eq_frame (by assumption) ?_ ?_
    | dsimp only
    | split

theorem execDumpGo_frame {ps : List Part} {r₀ : State} {w : Dword} {s : State}
    (sub : [.gate, .dmc, .hld] ⊆ ps) (h₀ : Frame ps r₀ s) :
    ∃ z, execDumpGo w s = .next z ∧ Frame ps r₀ z := by
  refine ⟨_, rfl, ?_⟩
  try dsimp only
  repeat' first
    | with_reducible assumption
    | with_reducible exact List.Subset.trans (by decide) sub
    | with_reducible apply State.setDmc_frame
    | with_reducible apply State.setHld_frame
    | with_reducible apply State.wakePage_frame
    | with_reducible refine Frame.ite ?_ ?_
    | dsimp only
    | split

theorem execSrmWordCheckFail_frame {ps : List Part} {r₀ : State} {addr : Nat} {raw : BitVec 144} {p : Pool} {fabric again source : Bool} {hit : SrmHit} {s : State}
    (sub : [.stp, .qmx, .fch, .dmc, .cip, .evl, .pages, .regs] ⊆ ps) (h₀ : Frame ps r₀ s) :
    ∃ z, execSrmWordCheckFail addr raw p fabric again source hit s = .next z ∧ Frame ps r₀ z := by
  refine ⟨_, rfl, ?_⟩
  try dsimp only
  repeat' first
    | with_reducible assumption
    | with_reducible exact List.Subset.trans (by decide) sub
    | with_reducible apply State.bump_frame
    | with_reducible apply State.capture_frame
    | with_reducible apply State.ev_frame
    | with_reducible apply State.raise_frame
    | with_reducible apply State.wr_frame
    | with_reducible apply finishEntry_frame
    | with_reducible apply freeze_frame
    | with_reducible apply lineFailed_frame
    | with_reducible refine Frame.ite ?_ ?_
    | dsimp only
    | split

end Sys2Proof.Machine
end

