-- ==== Sys2Proof/Laws/Sideband.lean ====
section
/-! SUPPORT. What each operation of Machine/Sideband.lean may change. -/

-- one proof after another: many at once would each hold a thread
set_option Elab.async false

namespace Sys2Proof.Machine

open Sys2Proof

theorem mctpIn_frame {ps : List Part} {r₀ : State} {s : State} {pec : Bool} {act : State → State}
    (ha : ∀ u, Frame ps r₀ u → Frame ps r₀ (act u)) (sub : [.gate, .pages, .regs] ⊆ ps) (h₀ : Frame ps r₀ s) :
    Frame ps r₀ (mctpIn s pec act) := by
  unfold mctpIn
  try dsimp only
  repeat' first
    | with_reducible assumption
    | with_reducible exact List.Subset.trans (by decide) sub
    | with_reducible refine ha _ ?_
    | with_reducible apply State.bump_frame
    | with_reducible apply State.ev_frame
    | with_reducible apply State.wake_frame
    | with_reducible refine Frame.ite ?_ ?_
    | dsimp only
    | split

theorem execSetEndpointId_frame {ps : List Part} {r₀ : State} {pec : Bool} {eid : Nat} {s : State}
    (sub : [.gate, .sbi, .pages, .regs] ⊆ ps) (h₀ : Frame ps r₀ s) :
    ∃ z, execSetEndpointId pec eid s = .next z ∧ Frame ps r₀ z := by
  refine ⟨_, rfl, ?_⟩
  try dsimp only
  repeat' first
    | with_reducible assumption
    | with_reducible exact List.Subset.trans (by decide) sub
    | with_reducible apply State.ev_frame
    | with_reducible apply State.setSbi_frame
    | with_reducible refine mctpIn_frame (fun _ _ => ?_) ?_ ?_
    | with_reducible refine Frame.ite ?_ ?_
    | dsimp only
    | split

theorem miConfigSet_eq_frame {ps : List Part} {r₀ : State} {s : State} {cfg v : Nat} {t : State}
    (e : (miConfigSet s cfg v) = .ok t) (sub : [.sbi, .regs] ⊆ ps) (h₀ : Frame ps r₀ s) : Frame ps r₀ t := by
  unfold miConfigSet at e
  try dsimp only at e
  repeat' first
    | cases e
    | split at e
  all_goals
    repeat' first
      | with_reducible assumption
      | with_reducible exact List.Subset.trans (by decide) sub
      | with_reducible apply State.setSbi_frame
      | with_reducible apply State.wr_frame
      | with_reducible refine Frame.ite ?_ ?_
      | dsimp only
      | split

theorem miVpdWrite_eq_frame {ps : List Part} {r₀ : State} {s : State} {off : Nat} {data : List Byte} {t : State}
    (e : (miVpdWrite s off data) = .ok t) (sub : [.nor] ⊆ ps) (h₀ : Frame ps r₀ s) : Frame ps r₀ t := by
  unfold miVpdWrite at e
  try dsimp only at e
  repeat' first
    | cases e
    | split at e
  all_goals
    repeat' first
      | with_reducible assumption
      | with_reducible exact List.Subset.trans (by decide) sub
      | with_reducible apply State.setNor_frame
      | with_reducible refine Frame.foldlFst (fun _ _ _ => ?_) ?_
      | with_reducible refine Frame.foldl (fun _ _ _ => ?_) ?_
      | with_reducible refine Frame.ite ?_ ?_
      | dsimp only
      | split

theorem miReply_frame {ps : List Part} {r₀ : State} {s : State} {r : MiReply}
    (sub : [.ans, .draws] ⊆ ps) (h₀ : Frame ps r₀ s) : Frame ps r₀ (miReply s r) := by
  unfold miReply
  try dsimp only
  split
  all_goals repeat' first
    | with_reducible assumption
    | with_reducible exact List.Subset.trans (by decide) sub
    | with_reducible apply State.answer_frame
    | with_reducible apply State.draw_frame
    | with_reducible refine State.draw_eq_frame (by assumption) ?_ ?_
    | dsimp only
    | split

theorem miDone_frame {ps : List Part} {r₀ s : State} {x : Except Nat State}
    (hx : ∀ t, x = .ok t → Frame ps r₀ t) (sub : [.ans] ⊆ ps) (h : Frame ps r₀ s) : Frame ps r₀ (miDone s x) := by
  unfold miDone
  split
  · exact State.answer_frame sub (hx _ rfl)
  · exact State.answer_frame sub h

theorem miIn_frame {ps : List Part} {r₀ : State} {s : State} {pec : Bool} {act : State → State}
    (ha : ∀ u, Frame ps r₀ u → Frame ps r₀ (act u)) (sub : [.gate, .pages, .regs] ⊆ ps) (h₀ : Frame ps r₀ s) :
    Frame ps r₀ (miIn s pec act) := by
  unfold miIn
  try dsimp only
  repeat' first
    | with_reducible assumption
    | with_reducible exact List.Subset.trans (by decide) sub
    | with_reducible refine ha _ ?_
    | with_reducible refine mctpIn_frame (fun _ _ => ?_) ?_ ?_
    | with_reducible refine Frame.ite ?_ ?_
    | dsimp only
    | split

theorem execReadNvmeMiDataStructure_frame {ps : List Part} {r₀ : State} {pec : Bool} {typ ctl : Nat} {s : State}
    (sub : [.ans, .draws, .gate, .pages, .regs] ⊆ ps) (h₀ : Frame ps r₀ s) :
    ∃ z, execReadNvmeMiDataStructure pec typ ctl s = .next z ∧ Frame ps r₀ z := by
  refine ⟨_, rfl, ?_⟩
  try dsimp only
  repeat' first
    | with_reducible assumption
    | with_reducible exact List.Subset.trans (by decide) sub
    | with_reducible apply miReply_frame
    | with_reducible refine miIn_frame (fun _ _ => ?_) ?_ ?_
    | dsimp only
    | split

theorem execSubsystemHealthStatusPoll_frame {ps : List Part} {r₀ : State} {pec : Bool} {s : State}
    (sub : [.ans, .draws, .gate, .pages, .regs] ⊆ ps) (h₀ : Frame ps r₀ s) :
    ∃ z, execSubsystemHealthStatusPoll pec s = .next z ∧ Frame ps r₀ z := by
  refine ⟨_, rfl, ?_⟩
  try dsimp only
  repeat' first
    | with_reducible assumption
    | with_reducible exact List.Subset.trans (by decide) sub
    | with_reducible apply miReply_frame
    | with_reducible refine miIn_frame (fun _ _ => ?_) ?_ ?_
    | dsimp only
    | split

theorem execControllerHealthStatusPoll_frame {ps : List Part} {r₀ : State} {pec : Bool} {from_ n : Nat} {s : State}
    (sub : [.ans, .draws, .gate, .pages, .regs] ⊆ ps) (h₀ : Frame ps r₀ s) :
    ∃ z, execControllerHealthStatusPoll pec from_ n s = .next z ∧ Frame ps r₀ z := by
  refine ⟨_, rfl, ?_⟩
  try dsimp only
  repeat' first
    | with_reducible assumption
    | with_reducible exact List.Subset.trans (by decide) sub
    | with_reducible apply miReply_frame
    | with_reducible refine miIn_frame (fun _ _ => ?_) ?_ ?_
    | dsimp only
    | split

theorem execConfigurationGet_frame {ps : List Part} {r₀ : State} {pec : Bool} {cfg : Nat} {s : State}
    (sub : [.ans, .draws, .gate, .pages, .regs] ⊆ ps) (h₀ : Frame ps r₀ s) :
    ∃ z, execConfigurationGet pec cfg s = .next z ∧ Frame ps r₀ z := by
  refine ⟨_, rfl, ?_⟩
  try dsimp only
  repeat' first
    | with_reducible assumption
    | with_reducible exact List.Subset.trans (by decide) sub
    | with_reducible apply miReply_frame
    | with_reducible refine miIn_frame (fun _ _ => ?_) ?_ ?_
    | dsimp only
    | split

theorem execConfigurationSet_frame {ps : List Part} {r₀ : State} {pec : Bool} {cfg v : Nat} {s : State}
    (sub : [.ans, .gate, .sbi, .pages, .regs] ⊆ ps) (h₀ : Frame ps r₀ s) :
    ∃ z, execConfigurationSet pec cfg v s = .next z ∧ Frame ps r₀ z := by
  refine ⟨_, rfl, ?_⟩
  try dsimp only
  repeat' first
    | with_reducible assumption
    | with_reducible exact List.Subset.trans (by decide) sub
    | with_reducible refine miDone_frame (fun _ _ => ?_) ?_ ?_
    | with_reducible refine miIn_frame (fun _ _ => ?_) ?_ ?_
    | with_reducible refine miConfigSet_eq_frame (by assumption) ?_ ?_
    | dsimp only
    | split

theorem execVpdRead_frame {ps : List Part} {r₀ : State} {pec : Bool} {off len : Nat} {s : State}
    (sub : [.ans, .draws, .gate, .pages, .regs] ⊆ ps) (h₀ : Frame ps r₀ s) :
    ∃ z, execVpdRead pec off len s = .next z ∧ Frame ps r₀ z := by
  refine ⟨_, rfl, ?_⟩
  try dsimp only
  repeat' first
    | with_reducible assumption
    | with_reducible exact List.Subset.trans (by decide) sub
    | with_reducible apply miReply_frame
    | with_reducible refine miIn_frame (fun _ _ => ?_) ?_ ?_
    | dsimp only
    | split

theorem execVpdWrite_frame {ps : List Part} {r₀ : State} {pec : Bool} {off : Nat} {data : List Byte} {s : State}
    (sub : [.ans, .gate, .nor, .pages, .regs] ⊆ ps) (h₀ : Frame ps r₀ s) :
    ∃ z, execVpdWrite pec off data s = .next z ∧ Frame ps r₀ z := by
  refine ⟨_, rfl, ?_⟩
  try dsimp only
  repeat' first
    | with_reducible assumption
    | with_reducible exact List.Subset.trans (by decide) sub
    | with_reducible refine miDone_frame (fun _ _ => ?_) ?_ ?_
    | with_reducible refine miIn_frame (fun _ _ => ?_) ?_ ?_
    | with_reducible refine miVpdWrite_eq_frame (by assumption) ?_ ?_
    | dsimp only
    | split

theorem execNvmeMiReset_frame {ps : List Part} {r₀ : State} {pec : Bool} {s : State}
    (sub : [.ans, .gate, .bot, .pages, .regs] ⊆ ps) (h : Frame ps r₀ s) : ∃ z, execNvmeMiReset pec s = .next z ∧ Frame ps r₀ z := by
  refine ⟨_, rfl, miIn_frame (fun u k => ?_) (List.Subset.trans (by decide) sub) h⟩
  refine miDone_frame (fun t e => ?_) (List.Subset.trans (by decide) sub) k
  cases e
  exact armDeviceReset_frame (List.Subset.trans (by decide) sub) k

theorem execTunnelledAdminCommand_frame {ps : List Part} {r₀ : State} {pec : Bool} {f opcode nsid dw10 dw11 off len : Nat} {s : State}
    (sub : [.ans, .draws, .gate, .pages, .regs] ⊆ ps) (h₀ : Frame ps r₀ s) :
    ∃ z, execTunnelledAdminCommand pec f opcode nsid dw10 dw11 off len s = .next z ∧ Frame ps r₀ z := by
  refine ⟨_, rfl, ?_⟩
  try dsimp only
  repeat' first
    | with_reducible assumption
    | with_reducible exact List.Subset.trans (by decide) sub
    | with_reducible apply State.answer_frame
    | with_reducible refine miIn_frame (fun _ _ => ?_) ?_ ?_
    | with_reducible refine Frame.ite ?_ ?_
    | with_reducible apply State.draw_frame
    | with_reducible refine State.draw_eq_frame (by assumption) ?_ ?_
    | dsimp only
    | split

theorem execNvmeMiSend_frame {ps : List Part} {r₀ : State} {seq op a v : Nat} {data : List Byte} {s : State}
    (sub : [.qmx, .fns, .sbi, .nor, .bot, .regs] ⊆ ps) (h : Frame ps r₀ s) :
    ∃ z, execNvmeMiSend seq op a v data s = .next z ∧ Frame ps r₀ z := by
  refine ⟨_, rfl, State.managerOnly_frame (fun c => ?_) (List.Subset.trans (by decide) sub) h⟩
  dsimp only
  split
  · next t e =>
    refine State.finish_frame (List.Subset.trans (by decide) sub) ?_
    split at e
    · exact miConfigSet_eq_frame e (List.Subset.trans (by decide) sub) h
    · exact miVpdWrite_eq_frame e (List.Subset.trans (by decide) sub) h
    · cases e
      exact armDeviceReset_frame (List.Subset.trans (by decide) sub) h
    · cases e
  · exact State.complete_frame (List.Subset.trans (by decide) sub) h

theorem execNvmeMiReceive_frame {ps : List Part} {r₀ : State} {seq op a v : Nat} {s : State}
    (sub : [.ans, .draws, .qmx, .fns] ⊆ ps) (h₀ : Frame ps r₀ s) :
    ∃ z, execNvmeMiReceive seq op a v s = .next z ∧ Frame ps r₀ z := by
  refine ⟨_, rfl, ?_⟩
  try dsimp only
  repeat' first
    | with_reducible assumption
    | with_reducible exact List.Subset.trans (by decide) sub
    | with_reducible apply State.complete_frame
    | with_reducible apply State.reply_frame
    | with_reducible refine State.managerOnly_frame (fun _ => ?_) ?_ ?_
    | with_reducible apply State.draw_frame
    | with_reducible refine State.draw_eq_frame (by assumption) ?_ ?_
    | dsimp only
    | split

theorem execBasicManagementCommand_frame {ps : List Part} {r₀ : State} {s : State}
    (sub : [.ans, .draws, .gate] ⊆ ps) (h₀ : Frame ps r₀ s) :
    ∃ z, execBasicManagementCommand s = .next z ∧ Frame ps r₀ z := by
  refine ⟨_, rfl, ?_⟩
  try dsimp only
  repeat' first
    | with_reducible assumption
    | with_reducible exact List.Subset.trans (by decide) sub
    | with_reducible apply State.wake_frame
    | with_reducible apply miReply_frame
    | with_reducible refine Frame.ite ?_ ?_
    | dsimp only
    | split

theorem execUartConsoleInput_frame {ps : List Part} {r₀ : State} {data : List Byte} {s : State}
    (sub : [.gate, .sbi] ⊆ ps) (h₀ : Frame ps r₀ s) :
    ∃ z, execUartConsoleInput data s = .next z ∧ Frame ps r₀ z := by
  refine ⟨_, rfl, ?_⟩
  try dsimp only
  repeat' first
    | with_reducible assumption
    | with_reducible exact List.Subset.trans (by decide) sub
    | with_reducible apply State.setSbi_frame
    | with_reducible apply State.wake_frame
    | with_reducible refine Frame.ite ?_ ?_
    | dsimp only
    | split

theorem execJtagPinInstructionExit_frame {ps : List Part} {r₀ : State} {s : State}
    (sub : [.gate, .bot] ⊆ ps) (h₀ : Frame ps r₀ s) :
    ∃ z, execJtagPinInstructionExit s = .next z ∧ Frame ps r₀ z := by
  refine ⟨_, rfl, ?_⟩
  try dsimp only
  repeat' first
    | with_reducible assumption
    | with_reducible exact List.Subset.trans (by decide) sub
    | with_reducible apply State.wake_frame
    | with_reducible apply armDeviceReset_frame
    | dsimp only
    | split

end Sys2Proof.Machine
end

