-- ==== Sys2Proof/Laws/RegAccess.lean ====
section
/-! SUPPORT. What each operation of Machine/RegAccess.lean may change. -/

-- one proof after another: many at once would each hold a thread
set_option Elab.async false

namespace Sys2Proof.Machine

open Sys2Proof

theorem answered_frame {ps : List Part} {r₀ s : State} {o : Out} (e : ∃ t, o = .next t ∧ Frame ps r₀ t) :
    Frame ps r₀ (answered s o).2 := by
  obtain ⟨t, rfl, h⟩ := e
  exact h

theorem regRead_frame {ps : List Part} {r₀ : State} {s : State} {p : Path} {a : Around} {addr : Nat}
    (sub : [.ans, .gate, .paths] ⊆ ps) (h₀ : Frame ps r₀ s) : Frame ps r₀ (regRead s p a addr).2 := by
  unfold regRead
  try dsimp only
  split
  all_goals repeat' first
    | with_reducible assumption
    | with_reducible exact List.Subset.trans (by decide) sub
    | with_reducible apply State.wakePage_frame
    | with_reducible refine Frame.ite ?_ ?_
    | with_reducible apply answered_frame
    | with_reducible apply execBotSerial0Read_frame
    | with_reducible apply execEvlNewestLoRead_frame
    | with_reducible apply execEvlOldestLoRead_frame
    | with_reducible apply execKeyKcvLoRead_frame
    | with_reducible apply execLdcBitsLoRead_frame
    | with_reducible apply execMapCkptNumLoRead_frame
    | with_reducible apply execParJseqLoRead_frame
    | with_reducible apply execRclCopyLoRead_frame
    | with_reducible apply execRclHostLoRead_frame
    | with_reducible apply execTbsSecLoRead_frame
    | with_reducible apply execTenMigSerialLoRead_frame
    | with_reducible apply execThmSenseBadLoRead_frame
    | dsimp only
    | split

theorem regRead_eq_frame {ps : List Part} {r₀ : State} {s : State} {p : Path} {a : Around} {addr : Nat} {v₀ : Dword} {t : State}
    (e : (regRead s p a addr) = (v₀, t)) (sub : [.ans, .gate, .paths] ⊆ ps) (h₀ : Frame ps r₀ s) : Frame ps r₀ t := by
  have k := regRead_frame (s := s) (p := p) (a := a) (addr := addr) sub h₀
  rw [e] at k
  exact k

/-- A meaning answers a next state, and that state has the frame. -/
theorem Out.state_frame {ps : List Part} {r₀ s : State} {o : Out} (e : ∃ t, o = .next t ∧ Frame ps r₀ t) :
    Frame ps r₀ (Out.state o s) := by
  obtain ⟨t, rfl, h⟩ := e
  exact h

theorem writeCtrl_frame {ps : List Part} {r₀ : State} {s : State} {pg : Nat} {w : Dword}
    (sub : [.gate, .bot, .pages, .regs] ⊆ ps) (h₀ : Frame ps r₀ s) : Frame ps r₀ (writeCtrl s pg w) := by
  unfold writeCtrl
  try dsimp only
  repeat' first
    | with_reducible assumption
    | with_reducible exact List.Subset.trans (by decide) sub
    | with_reducible apply Out.state_frame
    | with_reducible refine State.setPage_keep ?_ ?_ ?_
    | exact (fun h => h : _ → _)
    | exact (fun _ => rfl : _ → _)
    | with_reducible apply armDeviceReset_frame
    | with_reducible refine Frame.ite ?_ ?_
    | with_reducible apply execBlockSoftReset_frame
    | dsimp only
    | split

theorem writeHeader_frame {ps : List Part} {r₀ : State} {s : State} {pg off : Nat} {w : Dword}
    (sub : [.gate, .bot, .pages, .regs] ⊆ ps) (h₀ : Frame ps r₀ s) : Frame ps r₀ (writeHeader s pg off w) := by
  unfold writeHeader
  try dsimp only
  split
  all_goals repeat' first
    | with_reducible assumption
    | with_reducible exact List.Subset.trans (by decide) sub
    | with_reducible apply Out.state_frame
    | with_reducible refine State.setPage_keep ?_ ?_ ?_
    | exact (fun h => h : _ → _)
    | exact (fun _ => rfl : _ → _)
    | with_reducible apply writeCtrl_frame
    | with_reducible refine Frame.ite ?_ ?_
    | with_reducible apply execErrAck_frame
    | with_reducible apply execEvtForce_frame
    | with_reducible apply execEvtRawClear_frame
    | with_reducible apply execSealBlock_frame
    | dsimp only
    | split

theorem dropAddress_frame {ps : List Part} {r₀ : State} {s : State} {ix : Nat} {v6 : Bool}
    (sub : [.fns, .net, .evl, .pages, .regs] ⊆ ps) (h₀ : Frame ps r₀ s) : Frame ps r₀ (dropAddress s ix v6) := by
  unfold dropAddress
  try dsimp only
  repeat' first
    | with_reducible assumption
    | with_reducible exact List.Subset.trans (by decide) sub
    | with_reducible apply loseAssoc_frame
    | with_reducible apply loseDiscovery_frame
    | with_reducible refine Frame.foldlFst (fun _ _ _ => ?_) ?_
    | with_reducible refine Frame.foldl (fun _ _ _ => ?_) ?_
    | with_reducible refine Frame.ite ?_ ?_
    | dsimp only
    | split

theorem writeAddress_frame {ps : List Part} {r₀ : State} {p : Path} {off : Nat} {w : Dword} {s : State}
    (sub : [.fns, .net, .evl, .paths, .pages, .regs] ⊆ ps) (h₀ : Frame ps r₀ s) : Frame ps r₀ (writeAddress p off w s) := by
  unfold writeAddress
  try dsimp only
  repeat' first
    | with_reducible assumption
    | with_reducible exact List.Subset.trans (by decide) sub
    | with_reducible apply dropAddress_frame
    | with_reducible apply storeWord_frame
    | with_reducible refine Frame.ite ?_ ?_
    | dsimp only
    | split

theorem execInterfaceAddressWrite_frame {ps : List Part} {r₀ : State} {p : Path} {off : Nat} {w : Dword} {s : State}
    (sub : [.gate, .fns, .net, .evl, .paths, .pages, .regs] ⊆ ps) (h₀ : Frame ps r₀ s) :
    ∃ z, execInterfaceAddressWrite p off w s = .next z ∧ Frame ps r₀ z := by
  refine ⟨_, rfl, ?_⟩
  try dsimp only
  repeat' first
    | with_reducible assumption
    | with_reducible exact List.Subset.trans (by decide) sub
    | with_reducible apply State.wakePage_frame
    | with_reducible apply writeAddress_frame
    | with_reducible refine Frame.ite ?_ ?_
    | dsimp only
    | split

theorem writeCursor_frame {ps : List Part} {r₀ : State} {s : State} {p : Path} {hi : Bool} {w : Dword}
    (sub : [.evl] ⊆ ps) (h₀ : Frame ps r₀ s) : Frame ps r₀ (writeCursor s p hi w) := by
  unfold writeCursor
  try dsimp only
  repeat' first
    | with_reducible assumption
    | with_reducible exact List.Subset.trans (by decide) sub
    | with_reducible apply State.setWindow_frame
    | with_reducible refine Frame.ite ?_ ?_
    | dsimp only
    | split

theorem writeWindow_frame {ps : List Part} {r₀ : State} {s : State} {p : Path} {w : Dword}
    (sub : [.evl] ⊆ ps) (h₀ : Frame ps r₀ s) : Frame ps r₀ (writeWindow s p w) := by
  unfold writeWindow
  try dsimp only
  repeat' first
    | with_reducible assumption
    | with_reducible exact List.Subset.trans (by decide) sub
    | with_reducible apply Out.state_frame
    | with_reducible refine Frame.ite ?_ ?_
    | with_reducible apply execWindowLoad_frame
    | with_reducible apply execWindowNext_frame
    | dsimp only
    | split

theorem writeCringHead_frame {ps : List Part} {r₀ : State} {s : State} {nn : Nat} {w : Dword}
    (sub : [.fch] ⊆ ps) (h₀ : Frame ps r₀ s) : Frame ps r₀ (writeCringHead s nn w) := by
  unfold writeCringHead
  try dsimp only
  repeat' first
    | with_reducible assumption
    | with_reducible exact List.Subset.trans (by decide) sub
    | with_reducible apply State.updChan_frame
    | with_reducible refine Frame.ite ?_ ?_
    | dsimp only
    | split

theorem writeBody_frame {ps : List Part} {r₀ : State} {s : State} {p : Path} {a : Around} {pg off : Nat} {w : Dword}
    (sub : [.gate, .tbs, .stp, .qmx, .fns, .map, .wbf, .fch, .ldc, .par, .dmc, .cip, .hif, .net, .hld, .evl, .paths, .pages, .regs] ⊆ ps) (h₀ : Frame ps r₀ s) : Frame ps r₀ (writeBody s p a pg off w) := by
  unfold writeBody
  try dsimp only
  split
  all_goals repeat' first
    | with_reducible assumption
    | with_reducible exact List.Subset.trans (by decide) sub
    | with_reducible apply Out.state_frame
    | with_reducible apply State.setUpper_frame
    | with_reducible apply aenUpdate_frame
    | with_reducible apply ppsEnable_frame
    | with_reducible apply storeWord_frame
    | with_reducible apply writeAddress_frame
    | with_reducible apply writeCringHead_frame
    | with_reducible apply writeCursor_frame
    | with_reducible apply writeTbsSetHi_frame
    | with_reducible apply writeWindow_frame
    | with_reducible refine Frame.ite ?_ ?_
    | with_reducible apply execCkptNow_frame
    | with_reducible apply execDumpGo_frame
    | with_reducible apply execFchPinGo_frame
    | with_reducible apply execHifWinClose_frame
    | with_reducible apply execHldTestNow_frame
    | with_reducible apply execLdcInjArm_frame
    | with_reducible apply execWatermarkWrite_frame
    | dsimp only
    | split

theorem regWrite_frame {ps : List Part} {r₀ : State} {s : State} {p : Path} {a : Around} {addr : Nat} {w : Dword}
    (sub : [.gate, .tbs, .stp, .qmx, .fns, .map, .wbf, .fch, .ldc, .par, .dmc, .cip, .hif, .net, .hld, .bot, .evl, .paths, .pages, .regs] ⊆ ps) (h₀ : Frame ps r₀ s) : Frame ps r₀ (regWrite s p a addr w) := by
  unfold regWrite
  try dsimp only
  split
  all_goals repeat' first
    | with_reducible assumption
    | with_reducible exact List.Subset.trans (by decide) sub
    | with_reducible apply State.wakePage_frame
    | with_reducible apply writeBody_frame
    | with_reducible apply writeHeader_frame
    | with_reducible refine Frame.ite ?_ ?_
    | dsimp only
    | split

theorem execRegisterWrite_frame {ps : List Part} {r₀ : State} {p : Path} {port addr : Nat} {w : Dword} {whole : Bool} {short open_ : BitVec 22} {s : State}
    (sub : [.gate, .tbs, .stp, .qmx, .fns, .map, .wbf, .fch, .ldc, .par, .dmc, .cip, .hif, .net, .hld, .bot, .evl, .paths, .pages, .regs] ⊆ ps) (h₀ : Frame ps r₀ s) :
    ∃ z, execRegisterWrite p port addr w whole short open_ s = .next z ∧ Frame ps r₀ z := by
  refine ⟨_, rfl, ?_⟩
  try dsimp only
  repeat' first
    | with_reducible assumption
    | with_reducible exact List.Subset.trans (by decide) sub
    | with_reducible apply State.bump_frame
    | with_reducible apply regWrite_frame
    | with_reducible refine Frame.ite ?_ ?_
    | dsimp only
    | split

theorem messageRefused_frame {ps : List Part} {r₀ : State} {s : State} {status : Nat}
    (sub : [.ans, .pages] ⊆ ps) (h₀ : Frame ps r₀ s) : Frame ps r₀ (messageRefused s status) := by
  unfold messageRefused
  try dsimp only
  repeat' first
    | with_reducible assumption
    | with_reducible exact List.Subset.trans (by decide) sub
    | with_reducible apply State.answer_frame
    | with_reducible apply State.ev_frame
    | dsimp only
    | split

theorem readWords_frame {ps : List Part} {r₀ s : State} {a : Around} {off n : Nat}
    (sub : [.ans, .gate, .paths] ⊆ ps) (h : Frame ps r₀ s) : Frame ps r₀ (readWords s a off n).2 := by
  induction n generalizing s off with
  | zero => exact h
  | succ n ih => exact ih (regRead_frame (List.Subset.trans (by decide) sub) h)

theorem readWords_eq_frame {ps : List Part} {r₀ s : State} {a : Around} {off n : Nat} {x : List Dword} {t : State}
    (e : readWords s a off n = (x, t)) (sub : [.ans, .gate, .paths] ⊆ ps) (h : Frame ps r₀ s) : Frame ps r₀ t := by
  have q := readWords_frame (a := a) (off := off) (n := n) sub h
  rw [e] at q
  exact q

theorem writeWords_frame {ps : List Part} {r₀ s : State} {a : Around} {off : Nat} {l : List Dword}
    (sub : [.gate, .tbs, .stp, .qmx, .fns, .map, .wbf, .fch, .ldc, .par, .dmc, .cip, .hif, .net, .hld, .bot, .evl, .paths, .pages, .regs] ⊆ ps) (h : Frame ps r₀ s) : Frame ps r₀ (writeWords s a off l) := by
  induction l generalizing s off with
  | nil => exact h
  | cons w l ih => exact ih (regWrite_frame (List.Subset.trans (by decide) sub) h)

theorem messageIn_frame {ps : List Part} {r₀ : State} {s : State} {pec : Bool} {act : State → State}
    (ha : ∀ u, Frame ps r₀ u → Frame ps r₀ (act u)) (sub : [.gate, .pages, .regs] ⊆ ps) (h₀ : Frame ps r₀ s) :
    Frame ps r₀ (messageIn s pec act) := by
  unfold messageIn
  try dsimp only
  repeat' first
    | with_reducible assumption
    | with_reducible exact List.Subset.trans (by decide) sub
    | with_reducible refine ha _ ?_
    | with_reducible refine mctpIn_frame (fun _ _ => ?_) ?_ ?_
    | with_reducible refine Frame.ite ?_ ?_
    | dsimp only
    | split

theorem execRegisterReadMessage_frame {ps : List Part} {r₀ : State} {pec : Bool} {off n ns : Nat} {s : State}
    (sub : [.ans, .gate, .paths, .pages, .regs] ⊆ ps) (h₀ : Frame ps r₀ s) :
    ∃ z, execRegisterReadMessage pec off n ns s = .next z ∧ Frame ps r₀ z := by
  refine ⟨_, rfl, ?_⟩
  try dsimp only
  repeat' first
    | with_reducible assumption
    | with_reducible exact List.Subset.trans (by decide) sub
    | with_reducible apply State.answer_frame
    | with_reducible apply messageRefused_frame
    | with_reducible refine messageIn_frame (fun _ _ => ?_) ?_ ?_
    | with_reducible apply readWords_frame
    | with_reducible refine readWords_eq_frame (by assumption) ?_ ?_
    | dsimp only
    | split

theorem execRegisterWriteMessage_frame {ps : List Part} {r₀ : State} {pec : Bool} {off : Nat} {ws : List Dword} {short open_ : BitVec 22} {s : State}
    (sub : [.ans, .gate, .tbs, .stp, .qmx, .fns, .map, .wbf, .fch, .ldc, .par, .dmc, .cip, .hif, .net, .hld, .bot, .evl, .paths, .pages, .regs] ⊆ ps) (h₀ : Frame ps r₀ s) :
    ∃ z, execRegisterWriteMessage pec off ws short open_ s = .next z ∧ Frame ps r₀ z := by
  refine ⟨_, rfl, ?_⟩
  try dsimp only
  repeat' first
    | with_reducible assumption
    | with_reducible exact List.Subset.trans (by decide) sub
    | with_reducible apply State.answer_frame
    | with_reducible apply messageRefused_frame
    | with_reducible apply writeWords_frame
    | with_reducible refine messageIn_frame (fun _ _ => ?_) ?_ ?_
    | dsimp only
    | split

theorem execJtagRegisterAccess_frame {ps : List Part} {r₀ : State} {addr : Nat} {data : Option Dword} {ns : Nat} {short open_ : BitVec 22} {s : State}
    (sub : [.ans, .gate, .tbs, .stp, .qmx, .fns, .map, .wbf, .fch, .ldc, .par, .dmc, .cip, .hif, .net, .hld, .bot, .evl, .paths, .pages, .regs] ⊆ ps) (h₀ : Frame ps r₀ s) :
    ∃ z, execJtagRegisterAccess addr data ns short open_ s = .next z ∧ Frame ps r₀ z := by
  refine ⟨_, rfl, ?_⟩
  try dsimp only
  repeat' first
    | with_reducible assumption
    | with_reducible exact List.Subset.trans (by decide) sub
    | with_reducible apply State.answer_frame
    | with_reducible apply State.wake_frame
    | with_reducible apply regWrite_frame
    | with_reducible refine Frame.ite ?_ ?_
    | with_reducible apply regRead_frame
    | with_reducible refine regRead_eq_frame (by assumption) ?_ ?_
    | dsimp only
    | split

end Sys2Proof.Machine
end

