-- ==== Sys2Proof/Laws/Replay.lean ====
section
/-! SUPPORT. What each operation of Machine/Replay.lean may change. -/

-- one proof after another: many at once would each hold a thread
set_option Elab.async false

namespace Sys2Proof.Machine

open Sys2Proof

theorem eraseRecords_frame {ps : List Part} {r₀ : State} {s : State} {d b reason : Nat}
    (sub : [.fch, .rcl, .evl, .pages, .regs] ⊆ ps) (h₀ : Frame ps r₀ s) : Frame ps r₀ (eraseRecords s d b reason) := by
  unfold eraseRecords
  try dsimp only
  repeat' first
    | with_reducible assumption
    | with_reducible exact List.Subset.trans (by decide) sub
    | with_reducible apply State.setRcl_frame
    | with_reducible apply writeIntent_frame
    | with_reducible refine Frame.ite ?_ ?_
    | dsimp only
    | split

theorem firstErase_frame {ps : List Part} {r₀ : State} {s : State} {d b reason : Nat}
    (sub : [.fch, .rcl, .evl, .pages, .regs] ⊆ ps) (h₀ : Frame ps r₀ s) : Frame ps r₀ (firstErase s d b reason) := by
  unfold firstErase
  try dsimp only
  repeat' first
    | with_reducible assumption
    | with_reducible exact List.Subset.trans (by decide) sub
    | with_reducible refine State.setFch_keep ?_ ?_ ?_
    | exact (rfl : _ = _)
    | with_reducible apply eraseRecords_frame
    | dsimp only
    | split

theorem initDie_frame {ps : List Part} {r₀ : State} {s : State} {bad jdies : List Nat} {d : Nat}
    (sub : [.fch, .rcl, .hld, .evl, .pages, .regs] ⊆ ps) (h₀ : Frame ps r₀ s) : Frame ps r₀ (initDie s bad jdies d) := by
  unfold initDie
  try dsimp only
  repeat' first
    | with_reducible assumption
    | with_reducible exact List.Subset.trans (by decide) sub
    | with_reducible apply State.setHld_frame
    | with_reducible apply State.updDie_frame
    | with_reducible apply firstErase_frame
    | with_reducible refine Frame.foldlFst (fun _ _ _ => ?_) ?_
    | with_reducible refine Frame.foldl (fun _ _ _ => ?_) ?_
    | with_reducible refine Frame.ite ?_ ?_
    | dsimp only
    | split

theorem retireBad_frame {ps : List Part} {r₀ : State} {s : State} {l : Layout} {bad : List Nat}
    (sub : [.par, .rcl, .evl, .pages, .regs] ⊆ ps) (h₀ : Frame ps r₀ s) : Frame ps r₀ (retireBad s l bad) := by
  unfold retireBad
  try dsimp only
  repeat' first
    | with_reducible assumption
    | with_reducible exact List.Subset.trans (by decide) sub
    | with_reducible apply State.setRcl_frame
    | with_reducible apply retireBlock_frame
    | with_reducible apply retireSpan_frame
    | with_reducible refine Frame.foldlFst (fun _ _ _ => ?_) ?_
    | with_reducible refine Frame.foldl (fun _ _ _ => ?_) ?_
    | with_reducible refine Frame.ite ?_ ?_
    | with_reducible refine takeSubst_eq_frame (by assumption) ?_ ?_
    | dsimp only
    | split

theorem initSpans_frame {ps : List Part} {r₀ : State} {s : State} {l : Layout}
    (sub : [.fch, .par, .rcl, .evl, .pages, .regs] ⊆ ps) (h₀ : Frame ps r₀ s) : Frame ps r₀ (initSpans s l) := by
  unfold initSpans
  try dsimp only
  repeat' first
    | with_reducible assumption
    | with_reducible exact List.Subset.trans (by decide) sub
    | with_reducible apply State.updSpan_frame
    | with_reducible apply firstErase_frame
    | with_reducible refine Frame.foldlFst (fun _ _ _ => ?_) ?_
    | with_reducible refine Frame.foldl (fun _ _ _ => ?_) ?_
    | dsimp only
    | split

theorem emptyStores_frame {ps : List Part} {r₀ s : State} (sub : [.tbs, .fns, .map, .nor, .evl] ⊆ ps) (h : Frame ps r₀ s) :
    Frame ps r₀ (emptyStores s) := by
  unfold emptyStores
  refine State.setTbs_keep (fun k => ?_) (List.Subset.trans (by decide) sub)
    (State.setEvl_frame (List.Subset.trans (by decide) sub)
      (State.setMap_frame (List.Subset.trans (by decide) sub) (State.setFns_frame (List.Subset.trans (by decide) sub)
        (State.setNor_frame (List.Subset.trans (by decide) sub) h))))
  obtain ⟨h1, h2, h3, h4, h5⟩ := k
  exact ⟨h1, h2, h3, (by decide : 0 < 1000000000), (by decide : 1 ≤ 0xFFFFFF)⟩

theorem initialise_frame {ps : List Part} {r₀ : State} {s : State} {g : Geom} {l : Layout} {bad : List Nat}
    (sub : [.tbs, .fns, .map, .fch, .par, .rcl, .hld, .nor, .evl, .pages, .regs] ⊆ ps) (h₀ : Frame ps r₀ s) : Frame ps r₀ (initialise s g l bad) := by
  unfold initialise
  try dsimp only
  repeat' first
    | with_reducible assumption
    | with_reducible exact List.Subset.trans (by decide) sub
    | with_reducible apply State.setHld_frame
    | with_reducible apply State.setMap_frame
    | with_reducible apply State.setNor_frame
    | with_reducible apply State.setPar_frame
    | with_reducible apply State.setRcl_frame
    | with_reducible apply State.setRoster_frame
    | with_reducible apply State.updDie_frame
    | with_reducible apply emptyStores_frame
    | with_reducible apply initDie_frame
    | with_reducible apply initSpans_frame
    | with_reducible apply retireBad_frame
    | with_reducible refine Frame.foldlFst (fun _ _ _ => ?_) ?_
    | with_reducible refine Frame.foldl (fun _ _ _ => ?_) ?_
    | dsimp only
    | split

theorem execInitialisation_frame {ps : List Part} {r₀ : State} {bad : List Nat} {s : State}
    (sub : [.tbs, .fns, .map, .fch, .par, .rcl, .hld, .nor, .bot, .evl, .pages, .regs] ⊆ ps) (h₀ : Frame ps r₀ s) :
    ∃ z, execInitialisation bad s = .next z ∧ Frame ps r₀ z := by
  refine ⟨_, rfl, ?_⟩
  try dsimp only
  repeat' first
    | with_reducible assumption
    | with_reducible exact List.Subset.trans (by decide) sub
    | with_reducible apply State.ev_frame
    | with_reducible apply State.raise_frame
    | with_reducible apply State.setBot_frame
    | with_reducible apply benchDie_frame
    | with_reducible apply countService_frame
    | with_reducible apply initialise_frame
    | with_reducible apply resizeFine_frame
    | with_reducible apply setGeometry_frame
    | with_reducible apply stopStartup_frame
    | with_reducible apply toPhase_frame
    | with_reducible refine Frame.foldlFst (fun _ _ _ => ?_) ?_
    | with_reducible refine Frame.foldl (fun _ _ _ => ?_) ?_
    | with_reducible refine Frame.ite ?_ ?_
    | dsimp only
    | split

theorem scanDie_frame {ps : List Part} {r₀ : State} {s : State} {d : Nat}
    (sub : [.fch, .rcl, .evl, .pages, .regs] ⊆ ps) (h₀ : Frame ps r₀ s) : Frame ps r₀ (scanDie s d) := by
  unfold scanDie
  try dsimp only
  repeat' first
    | with_reducible assumption
    | with_reducible exact List.Subset.trans (by decide) sub
    | with_reducible apply State.bumpAt_frame
    | with_reducible apply State.evCh_frame
    | with_reducible apply State.raiseAt_frame
    | with_reducible refine State.setFch_keep ?_ ?_ ?_
    | exact (rfl : _ = _)
    | with_reducible apply State.setRcl_frame
    | with_reducible refine Frame.foldlFst (fun _ _ _ => ?_) ?_
    | with_reducible refine Frame.foldl (fun _ _ _ => ?_) ?_
    | with_reducible refine Frame.ite ?_ ?_
    | dsimp only
    | split

theorem execIntentScan_frame {ps : List Part} {r₀ : State} {s : State}
    (sub : [.fch, .rcl, .bot, .evl, .pages, .regs] ⊆ ps) (h₀ : Frame ps r₀ s) :
    ∃ z, execIntentScan s = .next z ∧ Frame ps r₀ z := by
  refine ⟨_, rfl, ?_⟩
  try dsimp only
  repeat' first
    | with_reducible assumption
    | with_reducible exact List.Subset.trans (by decide) sub
    | with_reducible apply scanDie_frame
    | with_reducible apply toPhase_frame
    | with_reducible refine Frame.foldlFst (fun _ _ _ => ?_) ?_
    | with_reducible refine Frame.foldl (fun _ _ _ => ?_) ?_
    | with_reducible refine Frame.ite ?_ ?_
    | dsimp only
    | split

theorem loadBook_frame {ps : List Part} {r₀ : State} {s : State} {l : Layout} {r : Root}
    (sub : [.par, .rcl] ⊆ ps) (h₀ : Frame ps r₀ s) : Frame ps r₀ (loadBook s l r) := by
  unfold loadBook
  try dsimp only
  repeat' first
    | with_reducible assumption
    | with_reducible exact List.Subset.trans (by decide) sub
    | with_reducible apply State.setPar_frame
    | with_reducible apply State.setRcl_frame
    | with_reducible refine Frame.foldlFst (fun _ _ _ => ?_) ?_
    | with_reducible refine Frame.foldl (fun _ _ _ => ?_) ?_
    | dsimp only
    | split

theorem loadMap_frame {ps : List Part} {r₀ : State} {s : State} {r : MapRoot}
    (sub : [.map] ⊆ ps) (h₀ : Frame ps r₀ s) : Frame ps r₀ (loadMap s r) := by
  unfold loadMap
  try dsimp only
  repeat' first
    | with_reducible assumption
    | with_reducible exact List.Subset.trans (by decide) sub
    | with_reducible apply State.setMap_frame
    | with_reducible apply resizeFine_frame
    | with_reducible refine Frame.ite ?_ ?_
    | dsimp only
    | split

theorem execJournalLoad_frame {ps : List Part} {r₀ : State} {s : State}
    (sub : [.map, .par, .rcl, .bot, .evl, .pages, .regs] ⊆ ps) (h₀ : Frame ps r₀ s) :
    ∃ z, execJournalLoad s = .next z ∧ Frame ps r₀ z := by
  refine ⟨_, rfl, ?_⟩
  try dsimp only
  repeat' first
    | with_reducible assumption
    | with_reducible exact List.Subset.trans (by decide) sub
    | with_reducible apply loadBook_frame
    | with_reducible apply loadMap_frame
    | with_reducible apply stopStartup_frame
    | with_reducible apply toPhase_frame
    | with_reducible refine Frame.ite ?_ ?_
    | dsimp only
    | split

theorem dropUnits_frame {ps : List Part} {r₀ : State} {s : State} {e : Entry} {n : Nat}
    (sub : [.map] ⊆ ps) (h₀ : Frame ps r₀ s) : Frame ps r₀ (dropUnits s e n) := by
  unfold dropUnits
  try dsimp only
  repeat' first
    | with_reducible assumption
    | with_reducible exact List.Subset.trans (by decide) sub
    | with_reducible apply State.freeFine_frame
    | with_reducible refine Frame.foldlFst (fun _ _ _ => ?_) ?_
    | with_reducible refine Frame.foldl (fun _ _ _ => ?_) ?_
    | with_reducible refine Frame.ite ?_ ?_
    | dsimp only
    | split

theorem applyDelta_frame {ps : List Part} {r₀ : State} {s : State} {d : Delta}
    (sub : [.map] ⊆ ps) (h₀ : Frame ps r₀ s) : Frame ps r₀ (applyDelta s d) := by
  unfold applyDelta
  try dsimp only
  split
  all_goals repeat' first
    | with_reducible assumption
    | with_reducible exact List.Subset.trans (by decide) sub
    | with_reducible apply State.setFineUnit_frame
    | with_reducible apply State.setMap_frame
    | with_reducible apply State.setSpace_frame
    | with_reducible apply dropUnits_frame
    | with_reducible refine Frame.foldlFst (fun _ _ _ => ?_) ?_
    | with_reducible refine Frame.foldl (fun _ _ _ => ?_) ?_
    | with_reducible refine Frame.ite ?_ ?_
    | dsimp only
    | split

theorem restoreSlots_frame {ps : List Part} {r₀ : State} {s : State} {img : DumpImage}
    (sub : [.wbf] ⊆ ps) (h₀ : Frame ps r₀ s) : Frame ps r₀ (restoreSlots s img) := by
  unfold restoreSlots
  try dsimp only
  repeat' first
    | with_reducible assumption
    | with_reducible exact List.Subset.trans (by decide) sub
    | with_reducible apply State.setWbf_frame
    | with_reducible refine Frame.ite ?_ ?_
    | dsimp only
    | split

theorem finishSent_frame {ps : List Part} {r₀ : State} {s : State} {u : Pu}
    (sub : [.fns, .map, .wbf, .par, .rcl, .staged, .regs] ⊆ ps) (h₀ : Frame ps r₀ s) : Frame ps r₀ (finishSent s u) := by
  unfold finishSent
  try dsimp only
  repeat' first
    | with_reducible assumption
    | with_reducible exact List.Subset.trans (by decide) sub
    | with_reducible apply puDone_frame
    | with_reducible refine Frame.ite ?_ ?_
    | dsimp only
    | split

theorem restoreRows_frame {ps : List Part} {r₀ : State} {s : State} {img : DumpImage}
    (sub : [.fns, .map, .wbf, .par, .rcl, .staged, .regs] ⊆ ps) (h₀ : Frame ps r₀ s) : Frame ps r₀ (restoreRows s img) := by
  unfold restoreRows
  try dsimp only
  repeat' first
    | with_reducible assumption
    | with_reducible exact List.Subset.trans (by decide) sub
    | with_reducible apply State.setPar_frame
    | with_reducible apply State.setWbf_frame
    | with_reducible apply finishSent_frame
    | with_reducible refine Frame.foldlFst (fun _ _ _ => ?_) ?_
    | with_reducible refine Frame.foldl (fun _ _ _ => ?_) ?_
    | dsimp only
    | split

theorem restoreDeltas_frame {ps : List Part} {r₀ : State} {s : State} {img : DumpImage}
    (sub : [.map] ⊆ ps) (h₀ : Frame ps r₀ s) : Frame ps r₀ (restoreDeltas s img) := by
  unfold restoreDeltas
  try dsimp only
  repeat' first
    | with_reducible assumption
    | with_reducible exact List.Subset.trans (by decide) sub
    | with_reducible apply State.setMap_frame
    | with_reducible apply applyDelta_frame
    | with_reducible refine Frame.foldlFst (fun _ _ _ => ?_) ?_
    | with_reducible refine Frame.foldl (fun _ _ _ => ?_) ?_
    | with_reducible refine Frame.ite ?_ ?_
    | dsimp only
    | split

theorem restoreJournal_frame {ps : List Part} {r₀ : State} {s : State} {img : DumpImage}
    (sub : [.par] ⊆ ps) (h₀ : Frame ps r₀ s) : Frame ps r₀ (restoreJournal s img) := by
  unfold restoreJournal
  try dsimp only
  repeat' first
    | with_reducible assumption
    | with_reducible exact List.Subset.trans (by decide) sub
    | with_reducible apply State.setPar_frame
    | with_reducible refine Frame.ite ?_ ?_
    | dsimp only
    | split

theorem refineChunk_frame {ps : List Part} {r₀ : State} {s : State} {ns : Nat} {sp : Space} {z c : Nat}
    (sub : [.map, .wbf] ⊆ ps) (h₀ : Frame ps r₀ s) : Frame ps r₀ (refineChunk s ns sp z c) := by
  unfold refineChunk
  try dsimp only
  repeat' first
    | with_reducible assumption
    | with_reducible exact List.Subset.trans (by decide) sub
    | with_reducible apply State.delta_frame
    | with_reducible apply State.setFineUnit_frame
    | with_reducible apply State.setWbf_frame
    | with_reducible apply pushHeld_frame
    | with_reducible apply setChunk_frame
    | with_reducible refine Frame.foldlFst (fun _ _ _ => ?_) ?_
    | with_reducible refine Frame.foldl (fun _ _ _ => ?_) ?_
    | with_reducible refine Frame.ite ?_ ?_
    | dsimp only
    | split

theorem setOne_frame {ps : List Part} {r₀ : State} {s : State} {ns lba : Nat} {e : Entry}
    (sub : [.map, .wbf, .regs] ⊆ ps) (h₀ : Frame ps r₀ s) : Frame ps r₀ (setOne s ns lba e) := by
  unfold setOne
  try dsimp only
  split
  all_goals repeat' first
    | with_reducible assumption
    | with_reducible exact List.Subset.trans (by decide) sub
    | with_reducible apply State.delta_frame
    | with_reducible apply State.setMap_frame
    | with_reducible apply promote_frame
    | with_reducible apply refineChunk_frame
    | dsimp only
    | split

theorem loseSlots_frame {ps : List Part} {r₀ : State} {s : State} {lost : List Nat}
    (sub : [.map, .wbf, .evl, .pages, .regs] ⊆ ps) (h₀ : Frame ps r₀ s) : Frame ps r₀ (loseSlots s lost) := by
  unfold loseSlots
  try dsimp only
  split
  all_goals repeat' first
    | with_reducible assumption
    | with_reducible exact List.Subset.trans (by decide) sub
    | with_reducible apply State.raiseAt_frame
    | with_reducible apply setOne_frame
    | with_reducible refine Frame.foldlFst (fun _ _ _ => ?_) ?_
    | with_reducible refine Frame.foldl (fun _ _ _ => ?_) ?_
    | dsimp only
    | split

theorem recount_frame {ps : List Part} {r₀ : State} {s : State}
    (sub : [.par] ⊆ ps) (h₀ : Frame ps r₀ s) : Frame ps r₀ (recount s) := by
  unfold recount
  try dsimp only
  repeat' first
    | with_reducible assumption
    | with_reducible exact List.Subset.trans (by decide) sub
    | with_reducible apply State.setPar_frame
    | with_reducible apply validUp_frame
    | with_reducible refine Frame.foldlFst (fun _ _ _ => ?_) ?_
    | with_reducible refine Frame.foldl (fun _ _ _ => ?_) ?_
    | with_reducible refine Frame.ite ?_ ?_
    | dsimp only
    | split

theorem restoreMeters_frame {ps : List Part} {r₀ : State} {s : State} {img : DumpImage}
    (sub : [.fns] ⊆ ps) (h₀ : Frame ps r₀ s) : Frame ps r₀ (restoreMeters s img) := by
  unfold restoreMeters
  try dsimp only
  repeat' first
    | with_reducible assumption
    | with_reducible exact List.Subset.trans (by decide) sub
    | with_reducible apply State.setFns_frame
    | dsimp only
    | split

theorem replayDump_frame {ps : List Part} {r₀ : State} {s : State} {img : DumpImage}
    (sub : [.fns, .map, .wbf, .par, .rcl, .key, .staged, .hld, .evl, .pages, .regs] ⊆ ps) (h₀ : Frame ps r₀ s) : Frame ps r₀ (replayDump s img) := by
  unfold replayDump
  try dsimp only
  repeat' first
    | with_reducible assumption
    | with_reducible exact List.Subset.trans (by decide) sub
    | with_reducible apply State.ev_frame
    | with_reducible apply State.raise_frame
    | with_reducible apply State.setHld_frame
    | with_reducible apply State.setKey_frame
    | with_reducible apply loseSlots_frame
    | with_reducible apply restoreDeltas_frame
    | with_reducible apply restoreJournal_frame
    | with_reducible apply restoreMeters_frame
    | with_reducible apply restoreRows_frame
    | with_reducible apply restoreSlots_frame
    | dsimp only
    | split

theorem coverZone_frame {ps : List Part} {r₀ : State} {s : State} {ns lba : Nat}
    (sub : [.map] ⊆ ps) (h₀ : Frame ps r₀ s) : Frame ps r₀ (coverZone s ns lba) := by
  unfold coverZone
  try dsimp only
  split
  all_goals repeat' first
    | with_reducible assumption
    | with_reducible exact List.Subset.trans (by decide) sub
    | with_reducible apply State.setZone_frame
    | with_reducible refine Frame.ite ?_ ?_
    | dsimp only
    | split

theorem applyFound_frame {ps : List Part} {r₀ : State} {s : State} {g : Found}
    (sub : [.map, .wbf, .regs] ⊆ ps) (h₀ : Frame ps r₀ s) : Frame ps r₀ (applyFound s g) := by
  unfold applyFound
  try dsimp only
  repeat' first
    | with_reducible assumption
    | with_reducible exact List.Subset.trans (by decide) sub
    | with_reducible apply coverZone_frame
    | with_reducible apply setChunk_frame
    | with_reducible apply setOne_frame
    | with_reducible refine Frame.ite ?_ ?_
    | dsimp only
    | split

theorem loseBuffer_frame {ps : List Part} {r₀ : State} {s : State} {kept : List Nat}
    (sub : [.map, .wbf, .regs] ⊆ ps) (h₀ : Frame ps r₀ s) : Frame ps r₀ (loseBuffer s kept).2 := by
  unfold loseBuffer
  try dsimp only
  repeat' first
    | with_reducible assumption
    | with_reducible exact List.Subset.trans (by decide) sub
    | with_reducible apply setChunk_frame
    | with_reducible apply setOne_frame
    | with_reducible refine Frame.foldlFst (fun _ _ _ => ?_) ?_
    | with_reducible refine Frame.foldl (fun _ _ _ => ?_) ?_
    | dsimp only
    | split

theorem loseBuffer_eq_frame {ps : List Part} {r₀ : State} {s : State} {kept : List Nat} {v₀ : Nat} {t : State}
    (e : (loseBuffer s kept) = (v₀, t)) (sub : [.map, .wbf, .regs] ⊆ ps) (h₀ : Frame ps r₀ s) : Frame ps r₀ t := by
  have k := loseBuffer_frame (s := s) (kept := kept) sub h₀
  rw [e] at k
  exact k

theorem raiseSeqs_frame {ps : List Part} {r₀ : State} {s : State} {gs : List Found}
    (sub : [.map] ⊆ ps) (h₀ : Frame ps r₀ s) : Frame ps r₀ (raiseSeqs s gs) := by
  unfold raiseSeqs
  try dsimp only
  repeat' first
    | with_reducible assumption
    | with_reducible exact List.Subset.trans (by decide) sub
    | with_reducible apply State.setMap_frame
    | with_reducible apply State.setSpace_frame
    | with_reducible refine Frame.foldlFst (fun _ _ _ => ?_) ?_
    | with_reducible refine Frame.foldl (fun _ _ _ => ?_) ?_
    | dsimp only
    | split

theorem spanScan_frame {ps : List Part} {r₀ : State} {s : State} {l : Layout} {bad : List Nat} {slots : Tbl Slot}
    (sub : [.map, .wbf, .evl, .pages, .regs] ⊆ ps) (h₀ : Frame ps r₀ s) : Frame ps r₀ (spanScan s l bad slots) := by
  unfold spanScan
  try dsimp only
  split
  all_goals repeat' first
    | with_reducible assumption
    | with_reducible exact List.Subset.trans (by decide) sub
    | with_reducible apply State.ev_frame
    | with_reducible apply State.raise_frame
    | with_reducible apply applyFound_frame
    | with_reducible apply raiseSeqs_frame
    | with_reducible refine Frame.foldlFst (fun _ _ _ => ?_) ?_
    | with_reducible refine Frame.foldl (fun _ _ _ => ?_) ?_
    | with_reducible refine Frame.ite ?_ ?_
    | with_reducible apply loseBuffer_frame
    | with_reducible refine loseBuffer_eq_frame (by assumption) ?_ ?_
    | dsimp only
    | split

theorem holdDumped_frame {ps : List Part} {r₀ : State} {s : State} {slots : Tbl Slot}
    (sub : [.wbf] ⊆ ps) (h₀ : Frame ps r₀ s) : Frame ps r₀ (holdDumped s slots) := by
  unfold holdDumped
  try dsimp only
  repeat' first
    | with_reducible assumption
    | with_reducible exact List.Subset.trans (by decide) sub
    | with_reducible apply State.setSlot_frame
    | with_reducible apply bindTarget_frame
    | with_reducible apply pushHeld_frame
    | with_reducible refine Frame.foldlFst (fun _ _ _ => ?_) ?_
    | with_reducible refine Frame.foldl (fun _ _ _ => ?_) ?_
    | dsimp only
    | split

theorem closeOpenRow_frame {ps : List Part} {r₀ : State} {s : State} {l : Layout} {bad : List Nat} {r : Row}
    (sub : [.wbf, .par] ⊆ ps) (h₀ : Frame ps r₀ s) : Frame ps r₀ (closeOpenRow s l bad r) := by
  unfold closeOpenRow
  try dsimp only
  repeat' first
    | with_reducible assumption
    | with_reducible exact List.Subset.trans (by decide) sub
    | with_reducible apply State.updRow_frame
    | with_reducible apply State.updStream_frame
    | with_reducible apply jrow_frame
    | with_reducible apply makeProxy_frame
    | with_reducible apply pushCopy_frame
    | with_reducible refine Frame.foldlFst (fun _ _ _ => ?_) ?_
    | with_reducible refine Frame.foldl (fun _ _ _ => ?_) ?_
    | with_reducible refine Frame.ite ?_ ?_
    | dsimp only
    | split

theorem closeOpenRows_frame {ps : List Part} {r₀ : State} {s : State} {l : Layout} {bad : List Nat}
    (sub : [.wbf, .par] ⊆ ps) (h₀ : Frame ps r₀ s) : Frame ps r₀ (closeOpenRows s l bad) := by
  unfold closeOpenRows
  try dsimp only
  repeat' first
    | with_reducible assumption
    | with_reducible exact List.Subset.trans (by decide) sub
    | with_reducible apply closeOpenRow_frame
    | with_reducible apply closeSpan_frame
    | with_reducible refine Frame.foldlFst (fun _ _ _ => ?_) ?_
    | with_reducible refine Frame.foldl (fun _ _ _ => ?_) ?_
    | dsimp only
    | split

theorem refillReserve_frame {ps : List Part} {r₀ : State} {s : State}
    (sub : [.fch, .hld] ⊆ ps) (h₀ : Frame ps r₀ s) : Frame ps r₀ (refillReserve s) := by
  unfold refillReserve
  try dsimp only
  repeat' first
    | with_reducible assumption
    | with_reducible exact List.Subset.trans (by decide) sub
    | with_reducible apply State.setHld_frame
    | with_reducible apply queuePslcErase_frame
    | with_reducible refine Frame.foldlFst (fun _ _ _ => ?_) ?_
    | with_reducible refine Frame.foldl (fun _ _ _ => ?_) ?_
    | with_reducible refine Frame.ite ?_ ?_
    | dsimp only
    | split

theorem lostAtStart_frame {ps : List Part} {r₀ : State} {s : State} {l : Layout}
    (sub : [.stp, .wbf, .par, .nor, .evl, .pages, .regs] ⊆ ps) (h₀ : Frame ps r₀ s) : Frame ps r₀ (lostAtStart s l) := by
  unfold lostAtStart
  try dsimp only
  repeat' first
    | with_reducible assumption
    | with_reducible exact List.Subset.trans (by decide) sub
    | with_reducible apply State.setPar_frame
    | with_reducible apply State.setStp_frame
    | with_reducible apply loseDie_frame
    | with_reducible apply queueSpan_frame
    | with_reducible apply stopRebuild_frame
    | with_reducible refine Frame.foldlFst (fun _ _ _ => ?_) ?_
    | with_reducible refine Frame.foldl (fun _ _ _ => ?_) ?_
    | with_reducible refine Frame.ite ?_ ?_
    | dsimp only
    | split

theorem execReplay_frame {ps : List Part} {r₀ : State} {bad : List Nat} {s : State}
    (sub : [.stp, .fns, .map, .wbf, .fch, .par, .rcl, .key, .staged, .hld, .nor, .bot, .evl, .pages, .regs] ⊆ ps) (h₀ : Frame ps r₀ s) :
    ∃ z, execReplay bad s = .next z ∧ Frame ps r₀ z := by
  refine ⟨_, rfl, ?_⟩
  try dsimp only
  split
  all_goals repeat' first
    | with_reducible assumption
    | with_reducible exact List.Subset.trans (by decide) sub
    | with_reducible apply State.ev_frame
    | with_reducible apply State.raise_frame
    | with_reducible apply State.setBot_frame
    | with_reducible apply State.setHld_frame
    | with_reducible apply State.setKey_frame
    | with_reducible apply State.setWbf_frame
    | with_reducible apply closeOpenRows_frame
    | with_reducible apply holdDumped_frame
    | with_reducible apply lostAtStart_frame
    | with_reducible apply recount_frame
    | with_reducible apply refillReserve_frame
    | with_reducible apply replayDump_frame
    | with_reducible apply restoreMeters_frame
    | with_reducible apply spanScan_frame
    | with_reducible apply toPhase_frame
    | with_reducible refine Frame.ite ?_ ?_
    | dsimp only
    | split

theorem commitSvn_frame {ps : List Part} {r₀ s : State} {flag : Bool} {svn : Nat}
    (sub : [.fuses, .evl, .pages, .regs] ⊆ ps) (h : Frame ps r₀ s) : Frame ps r₀ (commitSvn s flag svn) := by
  unfold commitSvn
  split
  · next k =>
    exact State.raise_frame (List.Subset.trans (by decide) sub) (State.ev_frame (List.Subset.trans (by decide) sub)
      (State.setFuses_keep ⟨fun _ w => w, Nat.le_of_lt k.2⟩ (List.Subset.trans (by decide) sub) h))
  · exact h

theorem sealBlock_frame {ps : List Part} {r₀ s : State} {b : Nat} (sub : [.pages] ⊆ ps) (h : Frame ps r₀ s) :
    Frame ps r₀ (sealBlock s b) := by
  unfold sealBlock
  exact Frame.foldl (fun _ _ k => State.setPage_keep (fun _ => rfl) sub k) h

theorem execNvmeReady_frame {ps : List Part} {r₀ s : State}
    (sub : [.qmx, .rcl, .hif, .net, .fuses, .nor, .bot, .evl, .pages, .regs] ⊆ ps) (h : Frame ps r₀ s) : ∃ z, execNvmeReady s = .next z ∧ Frame ps r₀ z := by
  refine ⟨_, rfl, ?_⟩
  refine Frame.ite h ?_
  extract_lets ms s1 b s2 s3 im s4 fu s5 s6 hf s7 nt qm s8 s9 rc s10 ro
  have h1 : Frame ps r₀ s1 := phaseMs_frame (List.Subset.trans (by decide) sub) h
  clear_value s1
  have h2 : Frame ps r₀ s2 := State.wr_frame (List.Subset.trans (by decide) sub)
    (State.setBot_frame (List.Subset.trans (by decide) sub) h1)
  clear_value s2
  have h3 : Frame ps r₀ s3 := State.raise_frame (List.Subset.trans (by decide) sub)
    (State.ev_frame (List.Subset.trans (by decide) sub) h2)
  clear_value s3
  have h4 : Frame ps r₀ s4 := commitSvn_frame (List.Subset.trans (by decide) sub)
    (commitSvn_frame (List.Subset.trans (by decide) sub) h3)
  clear_value s4
  have h5 : Frame ps r₀ s5 :=
    State.setFuses_keep ⟨fun i w => by simp [fu, w], Nat.le_refl _⟩ (List.Subset.trans (by decide) sub) h4
  clear_value s5
  have h6 : Frame ps r₀ s6 := Frame.foldl (fun u p k =>
    Frame.ite (sealBlock_frame (List.Subset.trans (by decide) sub) k) k) h5
  clear_value s6
  have h7 : Frame ps r₀ s7 := State.setHif_frame (List.Subset.trans (by decide) sub) h6
  clear_value s7
  have h8 : Frame ps r₀ s8 := State.setQmx_frame (List.Subset.trans (by decide) sub)
    (State.setNet_frame (List.Subset.trans (by decide) sub) h7)
  clear_value s8
  have h9 : Frame ps r₀ s9 := Frame.ite (State.ev_frame (List.Subset.trans (by decide) sub) h8) h8
  clear_value s9
  have h10 : Frame ps r₀ s10 := State.setRcl_frame (List.Subset.trans (by decide) sub) h9
  exact State.setRoster_frame (List.Subset.trans (by decide) sub) h10

end Sys2Proof.Machine
end

