-- ==== Sys2Proof/Laws/Shutdown.lean ====
section
/-! SUPPORT. What each operation of Machine/Shutdown.lean may change. -/

-- one proof after another: many at once would each hold a thread
set_option Elab.async false

namespace Sys2Proof.Machine

open Sys2Proof

theorem execNormalShutdown_frame {ps : List Part} {r₀ : State} {s : State}
    (sub : [.fns, .wbf, .bot, .evl, .pages, .regs] ⊆ ps) (h₀ : Frame ps r₀ s) :
    ∃ z, execNormalShutdown s = .next z ∧ Frame ps r₀ z := by
  refine ⟨_, rfl, ?_⟩
  try dsimp only
  repeat' first
    | with_reducible assumption
    | with_reducible exact List.Subset.trans (by decide) sub
    | with_reducible apply State.setBot_frame
    | with_reducible apply State.updFn_frame
    | with_reducible apply closeAll_frame
    | with_reducible apply wmarkRecord_frame
    | with_reducible refine Frame.ite ?_ ?_
    | dsimp only
    | split

theorem execShutdownProgramsDone_frame {ps : List Part} {r₀ : State} {s : State}
    (sub : [.fns, .map, .wbf, .nor, .bot, .pages] ⊆ ps) (h₀ : Frame ps r₀ s) :
    ∃ z, execShutdownProgramsDone s = .next z ∧ Frame ps r₀ z := by
  refine ⟨_, rfl, ?_⟩
  try dsimp only
  repeat' first
    | with_reducible assumption
    | with_reducible exact List.Subset.trans (by decide) sub
    | with_reducible apply State.ev_frame
    | with_reducible apply State.setBot_frame
    | with_reducible apply State.setRoster_frame
    | with_reducible apply State.updFn_frame
    | with_reducible apply startCkpt_frame
    | with_reducible refine Frame.ite ?_ ?_
    | dsimp only
    | split

theorem execAbruptShutdown_frame {ps : List Part} {r₀ : State} {s : State}
    (sub : [.fns, .hld, .bot, .pages] ⊆ ps) (h₀ : Frame ps r₀ s) :
    ∃ z, execAbruptShutdown s = .next z ∧ Frame ps r₀ z := by
  refine ⟨_, rfl, ?_⟩
  try dsimp only
  repeat' first
    | with_reducible assumption
    | with_reducible exact List.Subset.trans (by decide) sub
    | with_reducible apply State.ev_frame
    | with_reducible apply State.setBot_frame
    | with_reducible apply State.updFn_frame
    | with_reducible apply armDump_frame
    | with_reducible refine Frame.ite ?_ ?_
    | dsimp only
    | split

theorem execTenantShutdown_frame {ps : List Part} {r₀ : State} {f : Nat} {s : State}
    (sub : [.fns, .wbf] ⊆ ps) (h₀ : Frame ps r₀ s) :
    ∃ z, execTenantShutdown f s = .next z ∧ Frame ps r₀ z := by
  refine ⟨_, rfl, ?_⟩
  try dsimp only
  repeat' first
    | with_reducible assumption
    | with_reducible exact List.Subset.trans (by decide) sub
    | with_reducible apply State.setFn_frame
    | with_reducible apply State.setWbf_frame
    | with_reducible refine Frame.ite ?_ ?_
    | dsimp only
    | split

theorem execNorRecordWriteDone_frame {ps : List Part} {r₀ : State} {s : State}
    (sub : [.qmx, .fns, .norWaits, .nor, .evl, .pages, .regs] ⊆ ps) (h₀ : Frame ps r₀ s) :
    ∃ z, execNorRecordWriteDone s = .next z ∧ Frame ps r₀ z := by
  refine ⟨_, rfl, ?_⟩
  try dsimp only
  split
  all_goals repeat' first
    | with_reducible assumption
    | with_reducible exact List.Subset.trans (by decide) sub
    | with_reducible apply State.complete_frame
    | with_reducible apply State.setNor_frame
    | with_reducible apply State.setNorWaits_frame
    | with_reducible apply savedDone_frame
    | with_reducible refine Frame.foldlFst (fun _ _ _ => ?_) ?_
    | with_reducible refine Frame.foldl (fun _ _ _ => ?_) ?_
    | with_reducible refine Frame.ite ?_ ?_
    | dsimp only
    | split

end Sys2Proof.Machine
end

