-- ==== Sys2Proof/Laws/Stride.lean ====
section
/-! SUPPORT. What each operation of Machine/Stride.lean may change. -/

-- one proof after another: many at once would each hold a thread
set_option Elab.async false

namespace Sys2Proof.Machine

open Sys2Proof

theorem fchTick_frame {ps : List Part} {r₀ : State} {s : State} {run : Bool}
    (sub : [.fch, .thm] ⊆ ps) (h₀ : Frame ps r₀ s) : Frame ps r₀ (fchTick s run) := by
  unfold fchTick
  try dsimp only
  repeat' first
    | with_reducible assumption
    | with_reducible exact List.Subset.trans (by decide) sub
    | with_reducible refine State.setFch_keep ?_ ?_ ?_
    | exact (rfl : _ = _)
    | with_reducible apply State.setThm_frame
    | with_reducible refine Frame.foldlFst (fun _ _ _ => ?_) ?_
    | with_reducible refine Frame.foldl (fun _ _ _ => ?_) ?_
    | dsimp only
    | split

theorem timelineTick_frame {ps : List Part} {r₀ : State} {s : State}
    (sub : [.fch] ⊆ ps) (h₀ : Frame ps r₀ s) : Frame ps r₀ (timelineTick s) := by
  unfold timelineTick
  try dsimp only
  repeat' first
    | with_reducible assumption
    | with_reducible exact List.Subset.trans (by decide) sub
    | with_reducible refine State.setFch_keep ?_ ?_ ?_
    | exact (rfl : _ = _)
    | dsimp only
    | split

theorem turnTick_frame {ps : List Part} {r₀ : State} {s : State}
    (sub : [.stp] ⊆ ps) (h₀ : Frame ps r₀ s) : Frame ps r₀ (turnTick s) := by
  unfold turnTick
  try dsimp only
  repeat' first
    | with_reducible assumption
    | with_reducible exact List.Subset.trans (by decide) sub
    | with_reducible apply State.setStp_frame
    | with_reducible refine Frame.ite ?_ ?_
    | dsimp only
    | split

theorem shareTick_frame {ps : List Part} {r₀ : State} {s : State}
    (sub : [.stp] ⊆ ps) (h₀ : Frame ps r₀ s) : Frame ps r₀ (shareTick s) := by
  unfold shareTick
  try dsimp only
  repeat' first
    | with_reducible assumption
    | with_reducible exact List.Subset.trans (by decide) sub
    | with_reducible apply State.setStp_frame
    | with_reducible refine Frame.ite ?_ ?_
    | dsimp only
    | split

theorem throughClose_frame {ps : List Part} {r₀ : State} {s : State}
    (sub : [.wbf] ⊆ ps) (h₀ : Frame ps r₀ s) : Frame ps r₀ (throughClose s) := by
  unfold throughClose
  try dsimp only
  repeat' first
    | with_reducible assumption
    | with_reducible exact List.Subset.trans (by decide) sub
    | with_reducible apply closeAll_frame
    | with_reducible apply markClose_frame
    | with_reducible refine Frame.foldlFst (fun _ _ _ => ?_) ?_
    | with_reducible refine Frame.foldl (fun _ _ _ => ?_) ?_
    | with_reducible refine Frame.ite ?_ ?_
    | dsimp only
    | split

theorem forceClose_frame {ps : List Part} {r₀ : State} {s : State} {t : Nat}
    (sub : [.wbf, .pages, .regs] ⊆ ps) (h₀ : Frame ps r₀ s) : Frame ps r₀ (forceClose s t) := by
  unfold forceClose
  try dsimp only
  repeat' first
    | with_reducible assumption
    | with_reducible exact List.Subset.trans (by decide) sub
    | with_reducible apply State.bump_frame
    | with_reducible apply State.ev_frame
    | with_reducible apply markClose_frame
    | dsimp only
    | split

theorem ceilingClose_frame {ps : List Part} {r₀ : State} {s : State}
    (sub : [.wbf, .pages, .regs] ⊆ ps) (h₀ : Frame ps r₀ s) : Frame ps r₀ (ceilingClose s) := by
  unfold ceilingClose
  try dsimp only
  repeat' first
    | with_reducible assumption
    | with_reducible exact List.Subset.trans (by decide) sub
    | with_reducible apply State.setWbf_frame
    | with_reducible apply forceClose_frame
    | with_reducible refine Frame.foldlFst (fun _ _ _ => ?_) ?_
    | with_reducible refine Frame.foldl (fun _ _ _ => ?_) ?_
    | with_reducible refine Frame.ite ?_ ?_
    | dsimp only
    | split

theorem allotmentClose_frame {ps : List Part} {r₀ : State} {s : State}
    (sub : [.wbf, .pages, .regs] ⊆ ps) (h₀ : Frame ps r₀ s) : Frame ps r₀ (allotmentClose s) := by
  unfold allotmentClose
  try dsimp only
  repeat' first
    | with_reducible assumption
    | with_reducible exact List.Subset.trans (by decide) sub
    | with_reducible apply forceClose_frame
    | with_reducible refine Frame.foldlFst (fun _ _ _ => ?_) ?_
    | with_reducible refine Frame.foldl (fun _ _ _ => ?_) ?_
    | with_reducible refine Frame.ite ?_ ?_
    | dsimp only
    | split

theorem settleMarks_frame {ps : List Part} {r₀ : State} {s : State}
    (sub : [.wbf] ⊆ ps) (h₀ : Frame ps r₀ s) : Frame ps r₀ (settleMarks s) := by
  unfold settleMarks
  try dsimp only
  repeat' first
    | with_reducible assumption
    | with_reducible exact List.Subset.trans (by decide) sub
    | with_reducible apply State.setTarget_frame
    | with_reducible apply State.updStream_frame
    | with_reducible refine Frame.foldlFst (fun _ _ _ => ?_) ?_
    | with_reducible refine Frame.foldl (fun _ _ _ => ?_) ?_
    | with_reducible refine Frame.ite ?_ ?_
    | dsimp only
    | split

theorem closeTick_frame {ps : List Part} {r₀ : State} {s : State}
    (sub : [.wbf, .pages, .regs] ⊆ ps) (h₀ : Frame ps r₀ s) : Frame ps r₀ (closeTick s) := by
  unfold closeTick
  try dsimp only
  repeat' first
    | with_reducible assumption
    | with_reducible exact List.Subset.trans (by decide) sub
    | with_reducible apply State.setWbf_frame
    | with_reducible apply allotmentClose_frame
    | with_reducible apply ceilingClose_frame
    | with_reducible apply settleMarks_frame
    | with_reducible apply throughClose_frame
    | with_reducible apply unbindZone_frame
    | with_reducible refine Frame.foldlFst (fun _ _ _ => ?_) ?_
    | with_reducible refine Frame.foldl (fun _ _ _ => ?_) ?_
    | dsimp only
    | split

theorem puAbsent_frame {ps : List Part} {r₀ : State} {s : State} {u : Pu}
    (sub : [.qmx, .wbf, .par, .rcl, .staged, .evl, .pages, .regs] ⊆ ps) (h₀ : Frame ps r₀ s) : Frame ps r₀ (puAbsent s u) := by
  unfold puAbsent
  try dsimp only
  repeat' first
    | with_reducible assumption
    | with_reducible exact List.Subset.trans (by decide) sub
    | with_reducible apply State.setStaged_frame
    | with_reducible apply State.setWbf_frame
    | with_reducible apply puFailed_frame
    | with_reducible refine Frame.ite ?_ ?_
    | dsimp only
    | split

theorem puWindow_eq_frame {ps : List Part} {r₀ : State} {s : State} {u : Pu} {t : State}
    (e : (puWindow s u) = some t) (sub : [.stp, .evl, .pages, .regs] ⊆ ps) (h₀ : Frame ps r₀ s) : Frame ps r₀ t := by
  unfold puWindow at e
  try dsimp only at e
  repeat' first
    | cases e
    | split at e
  all_goals
    repeat' first
      | with_reducible assumption
      | with_reducible exact List.Subset.trans (by decide) sub
      | with_reducible apply breakWindow_frame
      | with_reducible refine Frame.ite ?_ ?_
      | dsimp only
      | split

theorem placePu_frame {ps : List Part} {r₀ : State} {s : State} {u : Pu}
    (sub : [.stp, .qmx, .fns, .wbf, .fch, .par, .rcl, .staged, .evl, .pages, .regs] ⊆ ps) (h₀ : Frame ps r₀ s) : Frame ps r₀ (placePu s u) := by
  unfold placePu
  try dsimp only
  repeat' first
    | with_reducible assumption
    | with_reducible exact List.Subset.trans (by decide) sub
    | with_reducible apply chargeFn_frame
    | with_reducible apply deferWindow_frame
    | with_reducible apply puAbsent_frame
    | with_reducible apply windowPlaced_frame
    | with_reducible refine Frame.ite ?_ ?_
    | with_reducible refine placeDesc_eq_frame (by assumption) ?_ ?_
    | with_reducible refine puWindow_eq_frame (by assumption) ?_ ?_
    | dsimp only
    | split

theorem placeErase_frame {ps : List Part} {r₀ : State} {s : State} {q : Nat × Nat × Nat × Nat}
    (sub : [.stp, .map, .wbf, .fch, .evl, .pages, .regs] ⊆ ps) (h₀ : Frame ps r₀ s) : Frame ps r₀ (placeErase s q) := by
  unfold placeErase
  try dsimp only
  repeat' first
    | with_reducible assumption
    | with_reducible exact List.Subset.trans (by decide) sub
    | with_reducible refine State.setFch_keep ?_ ?_ ?_
    | exact (rfl : _ = _)
    | with_reducible apply breakWindow_frame
    | with_reducible apply deferWindow_frame
    | with_reducible apply startCkpt_frame
    | with_reducible apply windowPlaced_frame
    | with_reducible refine Frame.ite ?_ ?_
    | with_reducible refine placeTwo_eq_frame (by assumption) ?_ ?_
    | dsimp only
    | split

theorem placeWrites_frame {ps : List Part} {r₀ : State} {s : State}
    (sub : [.stp, .qmx, .fns, .map, .wbf, .fch, .par, .rcl, .staged, .evl, .pages, .regs] ⊆ ps) (h₀ : Frame ps r₀ s) : Frame ps r₀ (placeWrites s) := by
  unfold placeWrites
  try dsimp only
  repeat' first
    | with_reducible assumption
    | with_reducible exact List.Subset.trans (by decide) sub
    | with_reducible apply placeErase_frame
    | with_reducible apply placePu_frame
    | with_reducible refine Frame.foldlFst (fun _ _ _ => ?_) ?_
    | with_reducible refine Frame.foldl (fun _ _ _ => ?_) ?_
    | dsimp only
    | split

theorem ageTick_frame {ps : List Part} {r₀ : State} {s : State}
    (sub : [.qmx, .fns, .map, .par, .cip, .pages, .regs] ⊆ ps) (h₀ : Frame ps r₀ s) : Frame ps r₀ (ageTick s) := by
  unfold ageTick
  try dsimp only
  repeat' first
    | with_reducible assumption
    | with_reducible exact List.Subset.trans (by decide) sub
    | with_reducible apply State.bump_frame
    | with_reducible apply State.ev_frame
    | with_reducible apply State.setCip_frame
    | with_reducible apply State.setFns_frame
    | with_reducible apply State.setMap_frame
    | with_reducible apply State.setPar_frame
    | with_reducible apply State.setQmx_frame
    | with_reducible refine Frame.ite ?_ ?_
    | dsimp only
    | split

theorem planIntake_frame {ps : List Part} {r₀ : State} {s : State}
    (sub : [.stp, .qmx, .ten, .fns, .map, .wbf, .fch, .ldc, .par, .rcl, .key, .cip, .staged, .norWaits, .net, .hld, .evl, .pages, .regs] ⊆ ps) (h₀ : Frame ps r₀ s) : Frame ps r₀ (planIntake s) := by
  unfold planIntake
  try dsimp only
  repeat' first
    | with_reducible assumption
    | with_reducible exact List.Subset.trans (by decide) sub
    | with_reducible apply State.setStp_frame
    | with_reducible apply accrueQuota_frame
    | with_reducible apply drainRecords_frame
    | with_reducible apply shareTick_frame
    | with_reducible apply tenTick_frame
    | with_reducible apply timelineTick_frame
    | dsimp only
    | split

theorem spaceTick_frame {ps : List Part} {r₀ : State} {s : State}
    (sub : [.stp, .qmx, .fns, .map, .wbf, .par, .rcl, .nor, .evl, .pages, .regs] ⊆ ps) (h₀ : Frame ps r₀ s) : Frame ps r₀ (spaceTick s) := by
  unfold spaceTick
  try dsimp only
  repeat' first
    | with_reducible assumption
    | with_reducible exact List.Subset.trans (by decide) sub
    | with_reducible apply ckptTick_frame
    | with_reducible apply creditRows_frame
    | with_reducible apply fineTick_frame
    | with_reducible apply paddockLevels_frame
    | with_reducible apply readOnlyEnter_frame
    | with_reducible apply reapSpaces_frame
    | with_reducible apply releaseSpans_frame
    | with_reducible apply sanitizeTick_frame
    | with_reducible apply writeRoot_frame
    | dsimp only
    | split

theorem planBuild_frame {ps : List Part} {r₀ : State} {s : State}
    (sub : [.stp, .qmx, .fns, .map, .wbf, .fch, .par, .rcl, .cip, .staged, .evl, .pages, .regs] ⊆ ps) (h₀ : Frame ps r₀ s) : Frame ps r₀ (planBuild s) := by
  unfold planBuild
  try dsimp only
  repeat' first
    | with_reducible assumption
    | with_reducible exact List.Subset.trans (by decide) sub
    | with_reducible apply admitAll_frame
    | with_reducible apply engGrants_frame
    | with_reducible apply placeReads_frame
    | with_reducible apply placeWrites_frame
    | with_reducible refine Frame.ite ?_ ?_
    | dsimp only
    | split

theorem planTurn_frame {ps : List Part} {r₀ : State} {s : State} {fw : Bool}
    (sub : [.stp, .cpx] ⊆ ps) (h₀ : Frame ps r₀ s) : Frame ps r₀ (planTurn s fw) := by
  unfold planTurn
  try dsimp only
  repeat' first
    | with_reducible assumption
    | with_reducible exact List.Subset.trans (by decide) sub
    | with_reducible apply State.setCpx_frame
    | with_reducible apply State.setStp_frame
    | with_reducible refine Frame.ite ?_ ?_
    | dsimp only
    | split

theorem boundary_frame {ps : List Part} {r₀ : State} {s : State} {fw : Bool}
    (sub : [.draws, .gate, .stp, .qmx, .ten, .fns, .map, .wbf, .fch, .ldc, .par, .rcl, .dmc, .key, .cip, .staged, .norWaits, .net, .thm, .hld, .nor, .evl, .pages, .regs, .cpx] ⊆ ps) (h₀ : Frame ps r₀ s) : Frame ps r₀ (boundary s fw) := by
  unfold boundary
  try dsimp only
  repeat' first
    | with_reducible assumption
    | with_reducible exact List.Subset.trans (by decide) sub
    | with_reducible apply State.setThm_frame
    | with_reducible apply ageTick_frame
    | with_reducible apply applyPs_frame
    | with_reducible apply closeTick_frame
    | with_reducible apply discoveryTick_frame
    | with_reducible apply drainWrites_frame
    | with_reducible apply fchTick_frame
    | with_reducible apply gateTick_frame
    | with_reducible apply planBuild_frame
    | with_reducible apply planIntake_frame
    | with_reducible apply planTurn_frame
    | with_reducible apply refreshTick_frame
    | with_reducible apply spaceTick_frame
    | with_reducible apply turnTick_frame
    | with_reducible refine Frame.ite ?_ ?_
    | dsimp only
    | split

theorem strideLength_bounds (t : Tbs) : 4000 ≤ strideLength t ∧ strideLength t < 12000 := by
  unfold strideLength
  split
  · split
    · next h => omega
    · split
      · omega
      · split <;> omega
  · split
    · omega
    · split <;> omega

theorem hoursAfter_ok {t : Tbs} {n : Nat} (h : t.ok) : (hoursAfter t n).ok := by
  obtain ⟨h1, h2, h3, h4, h5⟩ := h
  unfold hoursAfter
  dsimp only
  split
  · exact ⟨h1, h2, h3, Nat.mod_lt _ (by decide), h5⟩
  · exact ⟨h1, h2, h3, Nat.mod_lt _ (by decide), h5⟩

theorem startStride_ok {t : Tbs} (h1 : t.strideInSec < 125000) (h4 : t.hourNs < 1000000000) (h5 : t.pcycle ≤ 0xFFFFFF) :
    (startStride t).ok :=
  ⟨h1, (strideLength_bounds t).1, (strideLength_bounds t).2, h4, h5⟩

theorem tbsTick_ok {t : Tbs} (h : t.ok) : (tbsTick t).ok := by
  have k : (hoursAfter { t with clk := t.clk + t.strideLen } t.strideLen).ok := hoursAfter_ok h
  unfold tbsTick
  dsimp only at k ⊢
  generalize hoursAfter _ _ = u at k ⊢
  obtain ⟨h1, h2, h3, h4, h5⟩ := k
  split
  · exact startStride_ok (by decide : 0 < 125000) h4 h5
  · next q => exact startStride_ok (by show u.strideInSec + 1 < 125000; omega) h4 h5

theorem tbsStep_ok {t : Tbs} (h : t.ok) : (tbsStep t).ok := by
  have k : (hoursAfter { t with clk := t.clk + t.strideLen } t.strideLen).ok := hoursAfter_ok h
  unfold tbsStep
  dsimp only at k ⊢
  generalize hoursAfter _ _ = u at k ⊢
  obtain ⟨h1, h2, h3, h4, h5⟩ := k
  exact startStride_ok (by decide : 0 < 125000) h4 h5

theorem execStrideTick_frame {ps : List Part} {r₀ : State} {fw : Bool} {s : State}
    (sub : [.draws, .gate, .tbs, .stp, .qmx, .ten, .fns, .map, .wbf, .fch, .ldc, .par, .rcl, .dmc, .key, .cip, .staged, .norWaits, .net, .thm, .hld, .nor, .evl, .pages, .regs, .cpx] ⊆ ps) (h : Frame ps r₀ s) : ∃ z, execStrideTick fw s = .next z ∧ Frame ps r₀ z :=
  ⟨_, rfl, Frame.ite h (boundary_frame (List.Subset.trans (by decide) sub)
    (State.setTbs_keep tbsTick_ok (List.Subset.trans (by decide) sub) h))⟩

theorem execPpsStep_frame {ps : List Part} {r₀ : State} {fw : Bool} {s : State}
    (sub : [.draws, .gate, .tbs, .stp, .qmx, .ten, .fns, .map, .wbf, .fch, .ldc, .par, .rcl, .dmc, .key, .cip, .staged, .norWaits, .net, .thm, .hld, .nor, .evl, .pages, .regs, .cpx] ⊆ ps) (h : Frame ps r₀ s) : ∃ z, execPpsStep fw s = .next z ∧ Frame ps r₀ z := by
  refine ⟨_, rfl, ?_⟩
  split
  · exact boundary_frame (List.Subset.trans (by decide) sub) (State.raise_frame (List.Subset.trans (by decide) sub)
      (State.ev_frame (List.Subset.trans (by decide) sub) (State.bump_frame (List.Subset.trans (by decide) sub)
        (State.setTbs_keep tbsStep_ok (List.Subset.trans (by decide) sub) h))))
  · exact h

theorem fixLantern_frame {ps : List Part} {r₀ : State} {s : State}
    (sub : [.stp] ⊆ ps) (h₀ : Frame ps r₀ s) : Frame ps r₀ (fixLantern s) := by
  unfold fixLantern
  try dsimp only
  repeat' first
    | with_reducible assumption
    | with_reducible exact List.Subset.trans (by decide) sub
    | with_reducible apply State.setStp_frame
    | with_reducible refine Frame.ite ?_ ?_
    | dsimp only
    | split

theorem capacitySample_frame {ps : List Part} {r₀ : State} {s : State}
    (sub : [.fns] ⊆ ps) (h₀ : Frame ps r₀ s) : Frame ps r₀ (capacitySample s) := by
  unfold capacitySample
  try dsimp only
  repeat' first
    | with_reducible assumption
    | with_reducible exact List.Subset.trans (by decide) sub
    | with_reducible apply State.setFns_frame
    | with_reducible refine Frame.ite ?_ ?_
    | dsimp only
    | split

theorem secondReports_frame {ps : List Part} {r₀ : State} {s : State}
    (sub : [.stp, .map, .ldc, .net, .evl, .pages, .regs] ⊆ ps) (h₀ : Frame ps r₀ s) : Frame ps r₀ (secondReports s) := by
  unfold secondReports
  try dsimp only
  repeat' first
    | with_reducible assumption
    | with_reducible exact List.Subset.trans (by decide) sub
    | with_reducible apply State.ev_frame
    | with_reducible apply State.raise_frame
    | with_reducible apply State.setLdc_frame
    | with_reducible apply State.setMap_frame
    | with_reducible apply State.setNet_frame
    | with_reducible apply State.setStp_frame
    | with_reducible refine Frame.ite ?_ ?_
    | dsimp only
    | split

theorem execSecondBoundary_frame {ps : List Part} {r₀ : State} {s : State}
    (sub : [.tbs, .stp, .qmx, .fns, .map, .ldc, .rcl, .net, .thm, .evl, .pages, .regs, .cpx] ⊆ ps) (h₀ : Frame ps r₀ s) :
    ∃ z, execSecondBoundary s = .next z ∧ Frame ps r₀ z := by
  refine ⟨_, rfl, ?_⟩
  try dsimp only
  repeat' first
    | with_reducible assumption
    | with_reducible exact List.Subset.trans (by decide) sub
    | with_reducible apply State.bump_frame
    | with_reducible apply State.setNet_frame
    | with_reducible refine State.setTbs_keep ?_ ?_ ?_
    | exact (fun h => h : _ → _)
    | with_reducible apply capacitySample_frame
    | with_reducible apply fixLantern_frame
    | with_reducible apply ledgerSecond_frame
    | with_reducible apply lifeFigure_frame
    | with_reducible apply powerLoop_frame
    | with_reducible apply secondReports_frame
    | with_reducible apply selfTestEnd_frame
    | with_reducible refine Frame.ite ?_ ?_
    | dsimp only
    | split

end Sys2Proof.Machine
end

