-- ==== Sys2Proof/WellFormed.lean ====
section
/-! DEFINITION. Operands within the ranges that the spec gives them. `exec` is total and does not ask for this: an
operand out of range is a command to a function, die, page or port that is not there. -/

namespace Sys2Proof

/-- 256 functions (R105). -/
def okFunction (f : Nat) : Bool := decide (f < 256)
/-- An NSID is a dword. -/
def okNsid (n : Nat) : Bool := decide (n < 2 ^ 32)
/-- A queue identifier has 16 bits. -/
def okQueue (n : Nat) : Bool := decide (n < 2 ^ 16)
/-- A command identifier has 16 bits. -/
def okCommandId (n : Nat) : Bool := decide (n < 2 ^ 16)
/-- An LBA has 64 bits. -/
def okLba (n : Nat) : Bool := decide (n < 2 ^ 64)
/-- A command covers 1 to 65,536 logical blocks: NLB is a 0's based 16-bit field. -/
def okBlocks (n : Nat) : Bool := decide (1 ≤ n ∧ n ≤ 65536)
/-- Dataset Management carries 1 to 256 ranges: NR is a 0's based byte. -/
def okRanges (l : List (Nat × Nat)) : Bool := decide (1 ≤ l.length ∧ l.length ≤ 256)
/-- Identifiers of one byte: log pages, Features, CNS. -/
def okByte (n : Nat) : Bool := decide (n < 256)
/-- The firmware slot field has three bits. -/
def okSlot (n : Nat) : Bool := decide (n < 8)
/-- 32 channels with up to 32 dies each. -/
def okDie (d : Nat) : Bool := decide (d < 1024)
def okChannel (n : Nat) : Bool := decide (n < 32)
/-- A die's descriptor ring has 64 entries (R203). -/
def okRing (n : Nat) : Bool := decide (n < 64)
/-- 249 clock domains (R13). -/
def okDomain (n : Nat) : Bool := decide (n < 249)
/-- Two PCIe ports, four network interfaces, eight selective IDE streams (R428). -/
def okPort (n : Nat) : Bool := decide (n < 2)
def okInterface (n : Nat) : Bool := decide (n < 4)
def okStream (n : Nat) : Bool := decide (n < 8)
/-- Up to eight strings in the hold-up bank (R466). -/
def okString (n : Nat) : Bool := decide (n < 8)
/-- Three journal mirrors. -/
def okMirror (n : Nat) : Bool := decide (n < 3)
/-- Four DRAM subchannels of one or two ranks (R358). -/
def okSubchannel (n : Nat) : Bool := decide (n < 4)
def okRank (n : Nat) : Bool := decide (n < 2)
/-- 12 CIP lanes. -/
def okLanes (n : Nat) : Bool := decide (n ≤ 12)
/-- Register pages: one for each block, 1 to 22, and 64 to 95 for the flash channels (R520). -/
def okPage (p : Nat) : Bool := decide ((1 ≤ p ∧ p ≤ 22) ∨ (64 ≤ p ∧ p < 96))

/-- Every operand of the command lies in the range that the spec gives it. -/
def Instr.wf (i : Instr) : Bool :=
  match i with
  | .sqTailDoorbell f qid _ => okFunction f && okQueue qid
  | .cqHeadDoorbell f qid _ => okFunction f && okQueue qid
  | .commandFetch f qid cid _ _ => okFunction f && okQueue qid && okCommandId cid
  | .cqStall f qid => okFunction f && okQueue qid
  | .createIoSq _ qid _ _ cqid _ => okQueue qid && okQueue cqid
  | .createIoCq _ qid _ _ _ _ _ => okQueue qid
  | .deleteIoSq _ qid => okQueue qid
  | .deleteIoCq _ qid => okQueue qid
  | .getLogPage _ lid _ _ => okByte lid
  | .getLogPageMeters _ f _ _ => okFunction f
  | .getLogPageHarnessStatus _ f _ _ => okFunction f
  | .getLogPageMigrationRecord _ f _ _ => okFunction f
  | .identify _ cns nsid _ _ => okByte cns && okNsid nsid
  | .setFeatures _ fid _ => okByte fid
  | .getFeatures _ fid _ => okByte fid
  | .namespaceDelete _ nsid => okNsid nsid
  | .namespaceAttach _ nsid f => okNsid nsid && okFunction f
  | .namespaceDetach _ nsid f => okNsid nsid && okFunction f
  | .firmwareCommitStore _ fs => okSlot fs
  | .firmwareCommitNextReset _ fs => okSlot fs
  | .firmwareCommitImmediate _ fs => okSlot fs
  | .deviceSelfTest _ nsid _ => okNsid nsid
  | .secondaryControllerOnline _ f => okFunction f
  | .secondaryControllerOffline _ f => okFunction f
  | .formatNvm _ nsid _ => okNsid nsid
  | .formatNvmCryptoErase _ nsid _ => okNsid nsid
  | .flush _ nsid => okNsid nsid
  | .write _ nsid lba _ _ data _ => okNsid nsid && okLba lba && okBlocks data.length
  | .read _ nsid lba nlb => okNsid nsid && okLba lba && okBlocks nlb
  | .writeUncorrectable _ nsid lba nlb => okNsid nsid && okLba lba && okBlocks nlb
  | .compare _ nsid lba _ data => okNsid nsid && okLba lba && okBlocks data.length
  | .writeZeroes _ nsid lba nlb _ _ => okNsid nsid && okLba lba && okBlocks nlb
  | .datasetManagement _ nsid _ ranges => okNsid nsid && okRanges ranges
  | .verify _ nsid lba nlb => okNsid nsid && okLba lba && okBlocks nlb
  | .ioManagementReceive _ nsid _ => okNsid nsid
  | .ioManagementSend _ nsid _ => okNsid nsid
  | .zoneManagementReceive _ nsid lba _ _ => okNsid nsid && okLba lba
  | .zoneReset _ nsid lba _ => okNsid nsid && okLba lba
  | .zoneFinish _ nsid lba _ => okNsid nsid && okLba lba
  | .zoneOpen _ nsid lba _ => okNsid nsid && okLba lba
  | .zoneClose _ nsid lba _ => okNsid nsid && okLba lba
  | .zoneAppend _ nsid zslba _ data _ => okNsid nsid && okLba zslba && okBlocks data.length
  | .functionCreate _ f _ => okFunction f
  | .functionDelete _ f => okFunction f
  | .functionBind _ f _ => okFunction f
  | .harnessSet _ f _ => okFunction f
  | .harnessApply f => okFunction f
  | .functionFreeze _ f => okFunction f
  | .freezeDrained f => okFunction f
  | .tenFreezeLate f => okFunction f
  | .functionSave _ f => okFunction f
  | .saveApply f => okFunction f
  | .functionThaw _ f => okFunction f
  | .functionRestore _ f _ _ _ _ => okFunction f
  | .functionLevelReset f => okFunction f
  | .flrComplete f => okFunction f
  | .pcieFlr f => okFunction f
  | .ccEnClear f _ => okFunction f
  | .ccEnSet f _ _ _ _ _ => okFunction f
  | .sriovNumvfsWrite p _ => okPort p
  | .descriptorRead d slot _ => okDie d && okRing slot
  | .descriptorReadRun d slot _ => okDie d && okRing slot
  | .descriptorProgram d ix => okDie d && okRing ix
  | .descriptorEraseIntent d ix => okDie d && okRing ix
  | .descriptorErase d ix => okDie d && okRing ix
  | .descriptorStatus d ix _ => okDie d && okRing ix
  | .descriptorFeature d ix _ => okDie d && okRing ix
  | .descriptorReset d ix => okDie d && okRing ix
  | .descriptorRaw d ix _ _ => okDie d && okRing ix
  | .dieOpPoll d _ _ => okDie d
  | .dieOpComplete d _ => okDie d
  | .fchDieTimeout d => okDie d
  | .dieResetTimeout d => okDie d
  | .reinSuspend d ix => okDie d && okRing ix
  | .reinRead d ix => okDie d && okRing ix
  | .reinResume d => okDie d
  | .slotArbitration nn => okChannel nn
  | .codewordTransferEnd nn => okChannel nn
  | .fchStallPromote nn r => okChannel nn && okRing r
  | .dieRetrain d _ => okDie d
  | .channelRetrainDone nn _ => okChannel nn
  | .fchPinGo nn _ _ => okChannel nn
  | .trackerReview die _ => okDie die
  | .moveJournalMirror _ k die => okMirror k && okDie die
  | .dramOscRead sc rank _ => okSubchannel sc && okRank rank
  | .dramZqCalibration sc rank => okSubchannel sc && okRank rank
  | .keyStatus _ nsid => okNsid nsid
  | .loadNamespaceKey _ nsid _ => okNsid nsid
  | .clearKey _ nsid => okNsid nsid
  | .ideKm _ k _ => okStream k
  | .pcieLinkUp p _ _ _ => okPort p
  | .pcieLinkDown p => okPort p
  | .perstAssert p => okPort p
  | .pcieConfigRequest p f _ => okPort p && okFunction f
  | .hifIdeFail k => okStream k
  | .ethLinkChange ix _ => okInterface ix
  | .tlsHandshake f _ _ => okFunction f
  | .connect f qid _ _ _ ix _ _ _ => okFunction f && okQueue qid && okInterface ix
  | .commandCapsule f qid cid _ => okFunction f && okQueue qid && okCommandId cid
  | .keepAliveExpiry f => okFunction f
  | .adminConnectionClose f => okFunction f
  | .propertyGet f _ => okFunction f
  | .netPfcStorm ix => okInterface ix
  | .pfcStormEnd ix => okInterface ix
  | .arpRequest ix _ => okInterface ix
  | .neighborDiscovery ix _ => okInterface ix
  | .icmpEcho ix _ _ _ => okInterface ix
  | .routerAdvertisement ix _ _ => okInterface ix
  | .tunnelledAdminCommand _ f _ nsid _ _ _ _ => okFunction f && okNsid nsid
  | .stringTest k _ _ _ => okString k
  | .pcieLinkTraining p => okPort p
  | .firmwareLoad bad _ _ _ => okLanes bad
  | .nvmSubsystemReset f _ => okFunction f
  | .blockSoftReset p _ => okPage p
  | .tenantShutdown f => okFunction f
  | .eventRaise p _ _ _ _ => okPage p
  | .evtRawClear p _ _ => okPage p
  | .evtForce p _ => okPage p
  | .errAck p => okPage p
  | .sealBlock p => okPage p
  | .domainWake d => okDomain d
  | .domainGate d => okDomain d
  | .strideTick _ | .secondBoundary | .minuteBoundary | .tbsHour | .planCommit _ _ | .turnBoundary | .ppsEdge _ _ _
    | .ppsStep _ | .ppsHoldover | .setFeaturesTimestamp _ _ _ | .getFeaturesTimestamp _ | .tbsSetGo _ _ |
    .secondsSetApply | .tbsSecLoRead _ _ | .lanternTablePublish | .lanternDatagram | .getLogPageLantern _ _ _ |
    .completionPoint _ _ | .writeThroughEnter | .writeThroughExit | .sqDeletionApply | .getLogPageRedundancy _ _ _ |
    .getLogPageThermal _ _ _ | .getLogPageLedger _ _ _ | .getLogPageLedgerSummary _ _ | .getLogPageDieRoster _ _ _ |
    .abort _ | .setFeaturesArbitration _ _ | .setFeaturesPowerManagement _ _ | .setFeaturesVolatileWriteCache _ _ |
    .setFeaturesNumberOfQueues _ _ _ | .setFeaturesTemperatureThreshold _ _ | .setFeaturesKeepAliveTimer _ _ |
    .setFeaturesFdp _ _ | .asynchronousEventRequest _ | .namespaceCreate _ _ _ _ _ _ _ _ _ | .namespaceCreateFineFit
    | .namespaceCreateFineTimeout | .firmwareImageDownload _ _ _ | .fwActivationStop | .fwActivationSwitch |
    .fwActivationResume | .keepAlive _ | .directiveSend _ | .directiveReceive _ | .nvmeMiSend _ _ _ _ _ |
    .nvmeMiReceive _ _ _ _ | .doorbellBufferConfig _ | .securitySend _ _ _ _ | .securityReceive _ _ _ _ |
    .sanitizeBlockErase _ | .sanitizeComplete | .sanitizeCryptoErase _ | .sanitizeOverwrite _ | .getLbaStatus _ |
    .unusedVendorOpcode _ | .reservationRegister _ | .reservationReport _ | .reservationAcquire _ |
    .reservationRelease _ | .copy _ | .poolScaleApply | .tenMigSerialLoRead _ | .demotion | .checkpointStart |
    .ckptNow _ _ | .ckptDone | .mapCkptNumLoRead _ | .programUnitAssembly _ | .spanAllocate _ | .idleClosure _ |
    .ceilingChange | .codewordEncode _ _ _ _ | .engStallPromote _ | .decodeDone _ _ _ | .poisonWait | .reverseSearch
    | .ldcInjArm _ _ | .ldcBitsLoRead _ | .dieLost | .journalFlush _ | .parJrnRehome | .journalRehomeDone |
    .rebuildRow _ | .parRebuildDone | .groomRow _ _ | .rawMediaRead _ _ _ | .groomSpan _ _ | .pauseRebuild _ |
    .resumeRebuild _ | .parJseqLoRead _ | .reclaimVictimPick | .reclaimRowCopy _ _ | .spanEraseStart _ _ |
    .rclCopyLoRead _ | .rclHostLoRead _ | .dramLineCheckFail _ _ _ _ _ _ | .dmcRecompute _ _ | .dumpGo _ |
    .dramAlert _ _ _ | .srmWordCheckFail _ _ _ _ _ _ _ | .keyExchangeOffer _ _ _ | .exchangeResponse _ |
    .certificateChain _ _ _ | .loadMigrationKey _ _ | .shadowZeroize _ | .cipDecryptDone _ _ | .tlsRecordReceive _ _
    | .tlsKeyUpdate _ _ | .drbgReseed | .keyDrbgFail | .keyKcvLoRead _ | .getVersion _ | .getCapabilities _ |
    .negotiateAlgorithms _ _ _ _ _ | .getDigests _ | .getCertificate _ _ _ _ | .challenge _ _ _ |
    .getMeasurements _ _ _ | .keyExchange _ | .finish _ _ _ | .heartbeat _ _ | .keyUpdate _ _ | .endSession _ _ |
    .hifWinClose _ | .interfaceAddressWrite _ _ _ | .discoveryLogPage _ | .registerReadMessage _ _ _ _ |
    .registerWriteMessage _ _ _ _ _ | .setEndpointId _ _ | .readNvmeMiDataStructure _ _ _ |
    .subsystemHealthStatusPoll _ | .controllerHealthStatusPoll _ _ _ | .configurationGet _ _ |
    .configurationSet _ _ _ | .vpdRead _ _ _ | .vpdWrite _ _ _ | .nvmeMiReset _ | .basicManagementCommand |
    .uartConsoleInput _ | .jtagRegisterAccess _ _ _ _ _ | .jtagPinInstructionExit | .housekeepingRound _ _ _ |
    .openTest _ | .packageTemperatureRead _ | .throttleLevelLower | .snuffPowerOff | .relight | .lowPowerStateEntry
    | .hldTestNow _ _ | .pwrFail | .bankTrip | .vddCoreLow | .vddAonLow | .dumpFreeze | .dumpEnd _ _ _ _ |
    .powerReturnDuringDump | .xtalStop | .powerOnReset | .configurationImageLoad _ _ | .dramPhase _ _ |
    .dramFill _ _ | .flashGroupStart _ _ _ | .rosterCheck | .initialisation _ | .intentScan | .journalLoad |
    .replay _ | .nvmeReady | .deviceReset | .sysRst | .botSoftReset _ | .normalShutdown | .shutdownProgramsDone |
    .abruptShutdown | .ledgerRecordProgram | .ledgerProgramDone _ | .windowLoad _ | .windowNext _ | .windowResult _
    | .watermarkWrite _ _ | .evlWmark | .evlNewestLoRead _ | .evlOldestLoRead _ | .botSerial0Read _ |
    .thmSenseBadLoRead _ | .registerWrite _ _ _ _ _ _ _ | .cpxFwStopped | .pwrFailNHigh | .ledgerSectorEraseDone |
    .norRecordWriteDone => true

end Sys2Proof
end

section
/-! PROOFS. Register accesses (O44): one rule for each operation of the register window, then the clauses of the
statement by path. -/

namespace Sys2Proof.Machine

open Sys2Proof

/-! ## What a frame says of reads of the parts outside it -/

section
variable {ps : List Part} {s t : State}

theorem Frame.page_eq (h : Frame ps s t) (p : Nat) (hp : Part.pages ∉ ps := by decide) : t.page p = s.page p :=
  State.page_congr (h.pages_eq hp) p

theorem Frame.rdAt_eq (h : Frame ps s t) (f : Fld) (n k : Nat) (hp : Part.regs ∉ ps := by decide) :
    t.rdAt f n k = s.rdAt f n k :=
  State.rdAt_congr (h.regs_eq hp) f n k

theorem Frame.rd_eq (h : Frame ps s t) (f : Fld) (hp : Part.regs ∉ ps := by decide) : t.rd f = s.rd f :=
  h.rdAt_eq f 0 0 hp

theorem Frame.cntHeld_eq (h : Frame ps s t) (p : Nat) (hp : Part.pages ∉ ps := by decide) :
    t.cntHeld p = s.cntHeld p := by
  unfold State.cntHeld
  rw [h.page_eq p hp]

theorem Frame.selected_eq (h : Frame ps s t) (p : Path) (f : Fld) (inst : Nat) (hp : Part.paths ∉ ps := by decide) :
    selected t p f inst = selected s p f inst := by
  unfold selected State.path
  rw [h.paths_eq hp]

theorem Frame.phaseReached_eq (h : Frame ps s t) (hp : Part.bot ∉ ps := by decide) :
    phaseReached t = phaseReached s := by
  unfold phaseReached
  rw [h.bot_eq hp]

theorem Frame.released_eq (h : Frame ps s t) (pg : Nat) (hp : Part.bot ∉ ps := by decide) :
    released t pg = released s pg := by
  unfold released
  rw [h.phaseReached_eq hp]

theorem Frame.windowUp_eq (h : Frame ps s t) (p : Path) (hb : Part.bot ∉ ps := by decide)
    (ht : Part.thm ∉ ps := by decide) (hh : Part.hld ∉ ps := by decide) : windowUp t p = windowUp s p := by
  unfold windowUp jtagOnly
  rw [h.phaseReached_eq hb, h.thm_eq ht, h.hld_eq hh]

end

theorem State.wake_keeps (s : State) (d : BitVec 256) : Frame [.gate] s (s.wake d) :=
  State.wake_frame (List.Subset.refl _) (Frame.refl _ s)

theorem State.wakePage_keeps (s : State) (pg : Nat) : Frame [.gate] s (s.wakePage pg) :=
  State.wakePage_frame (List.Subset.refl _) (Frame.refl _ s)

/-! ## Counters and banked words -/

/-- A saturating counter that is neither held nor full advances by one (R527). -/
theorem State.bump_one_rd {s : State} {f : Fld} (hh : s.cntHeld (pageNo f.blk 0) = false)
    (hf : s.rd f < 2 ^ f.w - 1) : (s.bump f 1).rd f = s.rd f + 1 := by
  have hmin : min (s.rdAt f 0 0 + 1) (2 ^ f.w - 1) = s.rd f + 1 := Nat.min_eq_left hf
  unfold State.bump State.bumpAt
  rw [if_neg (by simp [hh]), hmin]
  exact (State.wr_rd s f _).trans (Nat.mod_eq_of_lt (by omega))

/-- Another key's write is not seen, whatever each key reads as where it is not listed. -/
theorem Tbl.getD_put_ne {α : Type} [DecidableEq α] (t : Tbl α) {k q : Nat} (h : q ≠ k) (v d e : α) :
    Tbl.getD (Tbl.put t k v d) q e = Tbl.getD t q e := by
  unfold Tbl.put
  split
  · rw [Tbl.getD_erase, if_neg h]
  · rw [Tbl.getD_set, if_neg h]

theorem State.wrBank_rdBank (s : State) (f : Fld) (k b v : Nat) : (s.wrBank f k b v).rdBank f k b = v % 2 ^ f.w := by
  simp [State.rdBank, State.wrBank]

/-- The banks lie above the plain fields, so a plain field's write keeps every banked word. -/
theorem State.wrAt_rdBank (s : State) {g : Fld} {inst j : Nat} (v : Nat) (f : Fld) (k b : Nat)
    (h : fieldKey g inst j < 2 ^ 32) : (s.wrAt g inst j v).rdBank f k b = s.rdBank f k b := by
  have hne : bankKey f k b ≠ fieldKey g inst j := by unfold bankKey; omega
  exact Tbl.getD_put_ne s.regs hne _ _ _

theorem State.bump_rdBank (s : State) {g : Fld} (n : Nat) (f : Fld) (k b : Nat) (h : fieldKey g 0 0 < 2 ^ 32) :
    (s.bump g n).rdBank f k b = s.rdBank f k b := by
  unfold State.bump State.bumpAt
  split
  · rfl
  · exact State.wrAt_rdBank s _ f k b h

theorem State.rdBank_congr {s t : State} (h : t.regs = s.regs) (f : Fld) (k b : Nat) :
    t.rdBank f k b = s.rdBank f k b := by
  unfold State.rdBank
  rw [h]

/-! ## Events keep the banked words -/

theorem refuse_rdBank (s : State) (n : Nat) (r : LRec) (bit : Nat) (f : Fld) (k b : Nat) :
    (refuse s n r bit).rdBank f k b = s.rdBank f k b := by
  unfold refuse
  exact (State.rdBank_congr (State.evt_regs _ _ _) f k b).trans (State.bump_rdBank _ 1 f k b (by decide))

theorem accept_rdBank (s : State) (code : Nat) (r : LRec) (f : Fld) (k b : Nat) :
    (accept s code r).rdBank f k b = s.rdBank f k b := by
  unfold accept
  dsimp only
  split
  · rfl
  · split
    · split
      · exact refuse_rdBank _ _ _ _ f k b
      · rfl
    · exact refuse_rdBank _ _ _ _ f k b

theorem State.raise_rdBank (s : State) (code : Nat) (fn : Option Nat) (l : List (Nat × Nat)) (f : Fld) (k b : Nat) :
    (s.raise code fn l).rdBank f k b = s.rdBank f k b := by
  obtain ⟨u, hu, hr⟩ := s.raiseAt_cases (code / 256) code fn l none
  have hregs : u.regs = s.regs := by
    rcases hu with rfl | ⟨n, rfl⟩
    · rfl
    · exact State.capture_regs _ _ _ _ _
  have hub : u.rdBank f k b = s.rdBank f k b := State.rdBank_congr hregs f k b
  unfold State.raise
  rcases hr with hr | hr <;> rw [hr]
  · exact (accept_rdBank u _ _ f k b).trans hub
  · exact hub

/-! ## A lost association keeps the banked words (R431) -/

theorem loseDiscovery_rdBank (s : State) (cause : Nat) (p : Assoc → Bool) (f : Fld) (k b : Nat) :
    (loseDiscovery s cause p).rdBank f k b = s.rdBank f k b := by
  unfold loseDiscovery
  split
  · rfl
  · exact (State.raise_rdBank _ _ _ _ f k b).trans (State.rdBank_congr (State.ev_regs _ _) f k b)

theorem loseAssoc_rdBank (s : State) (fn cause : Nat) (f : Fld) (k b : Nat) :
    (loseAssoc s fn cause).rdBank f k b = s.rdBank f k b := by
  unfold loseAssoc
  split
  · exact loseDiscovery_rdBank s cause _ f k b
  · split
    · rfl
    · exact (State.raise_rdBank _ _ _ _ f k b).trans (State.rdBank_congr (State.ev_regs _ _) f k b)

theorem dropAddress_rdBank (s : State) (ix : Nat) (v6 : Bool) (f : Fld) (k b : Nat) :
    (dropAddress s ix v6).rdBank f k b = s.rdBank f k b := by
  unfold dropAddress
  generalize s.net.assocs.filter _ = l
  induction l generalizing s with
  | nil => rfl
  | cons a l ih =>
    rw [List.foldl_cons, ih]
    split
    · exact loseDiscovery_rdBank s 3 _ f k b
    · exact loseAssoc_rdBank s a.fn 3 f k b

/-! ## Writes of a word -/

/-- A word outside the paddock thresholds with one stored field: SEAL counts the write of an RW-S field, and the field
takes a value in range where it may be written (R521, R530). -/
theorem storeWord_single {s : State} {p : Path} {pg off : Nat} {w : Dword} {f : Fld}
    (hf : (fieldsAt pg off).filter (fun f => !keptElsewhere f) = [f]) (hg : (pg == 17 && off == 0x40) = false) :
    storeWord s p pg off w =
      let sealed := (s.page pg).sealBit
      let t := if sealed && f.acc == .rws then s.bump rBOT_SEALED_WR 1 else s
      if (f.acc == .rw || (f.acc == .rws && !sealed)) && fieldOk t f (fieldOf f w) then
        storeField t p f (pageInst pg) ((off - f.off) / 4) (fieldOf f w)
      else t := by
  unfold storeWord
  simp only [hf, hg, List.any_cons, List.any_nil, Bool.or_false, List.foldl_cons, List.foldl_nil, Bool.false_and,
    Bool.false_eq_true, if_false]

/-! ### TEN BG_MAX -/

theorem fieldOf_bgMax (w : Dword) : fieldOf rTEN_BG_MAX w = w.toNat % 64 := by
  simp [fieldOf, rTEN_BG_MAX]

theorem fieldOk_bgMax (s : State) (v : Nat) : fieldOk s rTEN_BG_MAX v = within 10 50 v := rfl

theorem storeField_bgMax (s : State) (p : Path) (v : Nat) :
    storeField s p rTEN_BG_MAX (pageInst 12) ((0x58 - rTEN_BG_MAX.off) / 4) v = s.wr rTEN_BG_MAX v := rfl

theorem storeWord_bgMax (s : State) (p : Path) (w : Dword) : storeWord s p 12 0x58 w =
    if (s.page 12).sealBit then s.bump rBOT_SEALED_WR 1
    else if 10 ≤ w.toNat % 64 ∧ w.toNat % 64 ≤ 50 then s.wr rTEN_BG_MAX (w.toNat % 64) else s := by
  rw [storeWord_single (f := rTEN_BG_MAX) (by decide) rfl, fieldOf_bgMax]
  have hacc : rTEN_BG_MAX.acc = .rws := rfl
  cases (s.page 12).sealBit with
  | true => simp [hacc]
  | false => simp [hacc, fieldOk_bgMax, within, storeField_bgMax]

/-- A write at TEN BG_MAX reaches the page, and the released block stores the word. -/
theorem regWrite_bgMax {s : State} (hr : released s 12 = true) (p : Path) (a : Around) (w : Dword) :
    regWrite s p a 0xC00058 w = storeWord (s.wakePage 12) p 12 0x58 w := by
  have hr' : released (s.wakePage 12) 12 = true := ((s.wakePage_keeps 12).released_eq 12).trans hr
  have haddr : pageAt 0xC00058 = some (12, 0x58) := by decide
  unfold regWrite
  rw [haddr]
  simp [hr', writeBody]

theorem regWrite_bgMax_inRange {s : State} {w : Dword} (hr : released s 12 = true) (hs : (s.page 12).sealBit = false)
    (hv : 10 ≤ w.toNat % 64 ∧ w.toNat % 64 ≤ 50) (p : Path) (a : Around) :
    regWrite s p a 0xC00058 w = (s.wakePage 12).wr rTEN_BG_MAX (w.toNat % 64) := by
  rw [regWrite_bgMax hr, storeWord_bgMax, (s.wakePage_keeps 12).page_eq 12, hs, if_neg (by decide), if_pos hv]

theorem regWrite_bgMax_outOfRange {s : State} {w : Dword} (hr : released s 12 = true)
    (hs : (s.page 12).sealBit = false) (hv : w.toNat % 64 < 10 ∨ 50 < w.toNat % 64) (p : Path) (a : Around) :
    regWrite s p a 0xC00058 w = s.wakePage 12 := by
  rw [regWrite_bgMax hr, storeWord_bgMax, (s.wakePage_keeps 12).page_eq 12, hs, if_neg (by decide), if_neg (by omega)]

theorem regWrite_bgMax_sealed {s : State} (hr : released s 12 = true) (hs : (s.page 12).sealBit = true) (p : Path)
    (a : Around) (w : Dword) : regWrite s p a 0xC00058 w = (s.wakePage 12).bump rBOT_SEALED_WR 1 := by
  rw [regWrite_bgMax hr, storeWord_bgMax, (s.wakePage_keeps 12).page_eq 12, hs, if_pos rfl]

/-- A value in range is stored by every path alike, and nothing else is. -/
theorem regWrite_bgMax_stores {s : State} {w : Dword} (hr : released s 12 = true) (hs : (s.page 12).sealBit = false)
    (hlo : 10 ≤ w.toNat % 64) (hhi : w.toNat % 64 ≤ 50) (p : Path) (a : Around) :
    (regWrite s p a 0xC00058 w).rd rTEN_BG_MAX = w.toNat % 64 ∧
      (∀ f n k, fieldKey f n k ≠ fieldKey rTEN_BG_MAX 0 0 →
        (regWrite s p a 0xC00058 w).rdAt f n k = s.rdAt f n k) ∧
      Frame [.gate, .regs] s (regWrite s p a 0xC00058 w) := by
  have hk := s.wakePage_keeps 12
  rw [regWrite_bgMax_inRange hr hs ⟨hlo, hhi⟩]
  refine ⟨?_, fun f n k h => ?_, State.wr_frame (by decide) (hk.mono (by decide))⟩
  · rw [State.wr_rd]
    exact Nat.mod_mod _ _
  · exact (State.wrAt_rdAt_ne _ _ h).trans (hk.rdAt_eq f n k)

/-! ### The address words of an interface -/

theorem storeWord_ipv4 {s : State} (hs : (s.page 9).sealBit = false) (p : Path) (w : Dword) :
    storeWord s p 9 0x50 w = s.wrBank rNET_IPV4 0 (selected s p rNET_IF_SEL 0) w.toNat := by
  rw [storeWord_single (f := rNET_IPV4) (by decide) rfl, hs]
  have hv : fieldOf rNET_IPV4 w = w.toNat := by
    have := w.isLt
    simp only [fieldOf, rNET_IPV4]
    omega
  rw [hv]
  rfl

theorem storeWord_ipv6 {s : State} (hs : (s.page 9).sealBit = false) (p : Path) {k : Nat} (hk : k < 4) (w : Dword) :
    storeWord s p 9 (0x60 + 4 * k) w = s.wrBank rNET_IPV6k k (selected s p rNET_IF_SEL 0) w.toNat := by
  have hf : (fieldsAt 9 (0x60 + 4 * k)).filter (fun f => !keptElsewhere f) = [rNET_IPV6k] := by
    revert k
    decide
  have hv : fieldOf rNET_IPV6k w = w.toNat := by
    have := w.isLt
    simp only [fieldOf, rNET_IPV6k]
    omega
  have hw : (0x60 + 4 * k - rNET_IPV6k.off) / 4 = k := by
    simp only [rNET_IPV6k]
    omega
  rw [storeWord_single hf rfl, hs, hv, hw]
  rfl

/-- Once the word of field `f` is stored for the selected interface, the connections that a changed address drops leave
it and the selection as they are. -/
theorem writeAddress_reads {s : State} {p : Path} {off k : Nat} {w : Dword} {f : Fld} (hf : f.w = 32)
    (hw : storeWord s p 9 off w = s.wrBank f k (selected s p rNET_IF_SEL 0) w.toNat) :
    (writeAddress p off w s).rdBank f k (selected (writeAddress p off w s) p rNET_IF_SEL 0) = w.toNat := by
  have hstored : (storeWord s p 9 off w).rdBank f k (selected s p rNET_IF_SEL 0) = w.toNat := by
    rw [hw, State.wrBank_rdBank, hf]
    exact Nat.mod_eq_of_lt w.isLt
  have hstore : Frame [.regs] s (storeWord s p 9 off w) := by
    rw [hw]
    exact State.wrBank_frame (List.Subset.refl _) (Frame.refl _ s)
  have hdrop : Frame [.fns, .net, .evl, .pages, .regs] s (writeAddress p off w s) := by
    unfold writeAddress
    exact Frame.ite (hstore.mono (by decide)) (dropAddress_frame (by decide) (hstore.mono (by decide)))
  rw [hdrop.selected_eq]
  unfold writeAddress
  dsimp only
  split
  · exact hstored
  · rw [dropAddress_rdBank, hstored]

/-! ## Reads and messages -/

theorem readWords_length (s : State) (a : Around) (off n : Nat) : (readWords s a off n).1.length = n := by
  induction n generalizing s off with
  | zero => rfl
  | succ n ih => exact congrArg Nat.succ (ih _ _)

theorem messageStatus_ok {off n : Nat} (h1 : 1 ≤ n) (h16 : n ≤ 16) (ha : off % 4 = 0)
    (hw : off + 4 * n ≤ 2 ^ 26) :
    messageStatus off n = 0 := by
  unfold messageStatus
  rw [if_neg (by omega), if_neg (by omega)]

theorem messageStatus_badCount {off n : Nat} (h : n = 0 ∨ 16 < n) : messageStatus off n = 2 := if_pos h

theorem messageStatus_badOffset {off n : Nat} (h1 : 1 ≤ n) (h16 : n ≤ 16)
    (h : off % 4 ≠ 0 ∨ 2 ^ 26 < off + 4 * n) :
    messageStatus off n = 1 := by
  unfold messageStatus
  rw [if_neg (by omega), if_pos h]

/-- The state in which a message that the sideband takes is served: its domain woken, the message counted (R441,
R450). -/
def messageTaken (s : State) : State := (s.wake smbusDomain).bump rSBI_MCTP_RX 1

theorem messageTaken_keeps (s : State) : Frame [.gate, .regs] s (messageTaken s) :=
  State.bump_frame (by decide) ((s.wake_keeps _).mono (by decide))

/-- An addressed endpoint behind an open window acts on a message whose PEC holds. -/
theorem messageIn_taken {s : State} (hu : sbiUp s = true) (he : s.sbi.eid ≠ 0) (hw : windowUp s .bmc = true)
    (act : State → State) : messageIn s true act = act (messageTaken s) := by
  have hk := messageTaken_keeps s
  have hin : mctpIn s true (fun t => if t.sbi.eid != 0 && windowUp t .bmc then act t else t) =
      (fun t => if t.sbi.eid != 0 && windowUp t .bmc then act t else t) (messageTaken s) := by
    unfold mctpIn
    simp only [hu, Bool.not_true, Bool.false_eq_true, if_false]
    rfl
  unfold messageIn
  rw [hin]
  simp [hk.sbi_eq, hk.windowUp_eq, he, hw]

/-- A refused message answers its status and no words, and shows REG_ACCESS_ERR. -/
theorem messageRefused_shows (s : State) (k : Nat) :
    (messageRefused s k).ans = .words k [] ∧ (messageRefused s k).shows eSBI_REG_ACCESS_ERR :=
  ⟨rfl, State.shows_congr (State.ev_shows s (by decide)) rfl⟩

theorem messageRefused_keeps (s : State) (k : Nat) :
    Frame [.ans, .gate, .pages, .regs] s (messageRefused (messageTaken s) k) :=
  messageRefused_frame (by decide) ((messageTaken_keeps s).mono (by decide))

/-! ## The clauses of the statement, by path -/

theorem exec_registerWrite (p : Path) (port addr : Nat) (w : Dword) (whole : Bool) (short open_ : BitVec 22)
    (s : State) : exec (.registerWrite p port addr w whole short open_) s =
      execRegisterWrite p port addr w whole short open_ s := rfl

theorem exec_registerReadMessage (pec : Bool) (off n ns : Nat) (s : State) :
    exec (.registerReadMessage pec off n ns) s = execRegisterReadMessage pec off n ns s := rfl

theorem exec_registerWriteMessage (pec : Bool) (off : Nat) (ws : List Dword) (short open_ : BitVec 22) (s : State) :
    exec (.registerWriteMessage pec off ws short open_) s = execRegisterWriteMessage pec off ws short open_ s := rfl

theorem exec_jtagRegisterAccess (addr : Nat) (data : Option Dword) (ns : Nat) (short open_ : BitVec 22) (s : State) :
    exec (.jtagRegisterAccess addr data ns short open_) s = execJtagRegisterAccess addr data ns short open_ s := rfl

theorem exec_interfaceAddressWrite (p : Path) (off : Nat) (w : Dword) (s : State) :
    exec (.interfaceAddressWrite p off w) s = execInterfaceAddressWrite p off w s := rfl

/-! ### REGISTER_WRITE -/

theorem registerWrite_dropped {s : State} {p : Path} {port : Nat} (h : pathWrites s p port = false) (addr : Nat)
    (w : Dword) (whole : Bool) (short open_ : BitVec 22) :
    exec (.registerWrite p port addr w whole short open_) s = .next s := by
  simp [exec_registerWrite, execRegisterWrite, h]

/-- A manager's write that is not one whole dword is only counted (R521). -/
theorem registerWrite_badSize {s : State} {port : Nat} (h : pathWrites s .manager port = true) (addr : Nat) (w : Dword)
    (short open_ : BitVec 22) :
    exec (.registerWrite .manager port addr w false short open_) s = .next (s.bump rBOT_BAD_SIZE 1) := by
  simp [exec_registerWrite, execRegisterWrite, h]

theorem registerWrite_taken {s : State} {p : Path} {port addr : Nat} (h : pathWrites s p port = true)
    (ha : addr % 4 = 0) (w : Dword) (short open_ : BitVec 22) :
    exec (.registerWrite p port addr w true short open_) s = .next (regWrite s p ⟨0, short, open_⟩ addr w) := by
  simp [exec_registerWrite, execRegisterWrite, h, ha]

theorem registerWrite_bgMax {s : State} {p : Path} {port : Nat} (hp : pathWrites s p port = true)
    (hr : released s 12 = true) (w : Dword) :
    ((s.page 12).sealBit = false → 10 ≤ w.toNat % 64 → w.toNat % 64 ≤ 50 →
      ∃ t, exec (.registerWrite p port 0xC00058 w true 0 0) s = .next t ∧ t.rd rTEN_BG_MAX = w.toNat % 64 ∧
        (∀ f n k, fieldKey f n k ≠ fieldKey rTEN_BG_MAX 0 0 → t.rdAt f n k = s.rdAt f n k) ∧
        Frame [.gate, .regs] s t) ∧
    ((s.page 12).sealBit = false → w.toNat % 64 < 10 ∨ 50 < w.toNat % 64 →
      ∃ t, exec (.registerWrite p port 0xC00058 w true 0 0) s = .next t ∧ Frame [.gate] s t) ∧
    ((s.page 12).sealBit = true → s.cntHeld 1 = false → s.rd rBOT_SEALED_WR < 65535 →
      ∃ t, exec (.registerWrite p port 0xC00058 w true 0 0) s = .next t ∧
        t.rd rTEN_BG_MAX = s.rd rTEN_BG_MAX ∧ t.rd rBOT_SEALED_WR = s.rd rBOT_SEALED_WR + 1 ∧
        Frame [.gate, .regs] s t) := by
  have hx := registerWrite_taken hp (addr := 0xC00058) rfl w 0 0
  have hk := s.wakePage_keeps 12
  refine ⟨fun hs hlo hhi => ⟨_, hx, regWrite_bgMax_stores hr hs hlo hhi p _⟩, fun hs hv => ⟨_, hx, ?_⟩,
    fun hs hh hc => ⟨_, hx, ?_⟩⟩
  · rw [regWrite_bgMax_outOfRange hr hs hv]
    exact hk
  · rw [regWrite_bgMax_sealed hr hs]
    refine ⟨?_, ?_, State.bump_frame (by decide) (hk.mono (by decide))⟩
    · exact (State.bump_rd_ne _ 1 (by decide)).trans (hk.rd_eq _)
    · rw [← hk.rd_eq rBOT_SEALED_WR] at hc ⊢
      exact State.bump_one_rd ((hk.cntHeld_eq 1).trans hh) hc

/-! ### Register access messages (R443) -/

section
variable {s : State} (hu : sbiUp s = true) (he : s.sbi.eid ≠ 0) (hw : windowUp s .bmc = true)
include hu he hw

theorem registerReadMessage_ok {off n : Nat} (hm : messageStatus off n = 0) (ns : Nat) :
    ∃ t ws, exec (.registerReadMessage true off n ns) s = .next t ∧ t.ans = .words 0 ws ∧ ws.length = n ∧
      Frame [.ans, .gate, .paths, .regs] s t := by
  rw [exec_registerReadMessage, execRegisterReadMessage, messageIn_taken hu he hw, hm]
  exact ⟨_, _, rfl, rfl, readWords_length _ _ _ _, State.answer_frame (by decide)
    (readWords_frame (by decide) ((messageTaken_keeps s).mono (by decide)))⟩

theorem registerReadMessage_refused {off n k : Nat} (hm : messageStatus off n = k + 1) (ns : Nat) :
    ∃ t, exec (.registerReadMessage true off n ns) s = .next t ∧ t.ans = .words (k + 1) [] ∧
      t.shows eSBI_REG_ACCESS_ERR ∧ Frame [.ans, .gate, .pages, .regs] s t := by
  rw [exec_registerReadMessage, execRegisterReadMessage, messageIn_taken hu he hw, hm]
  obtain ⟨hans, hshow⟩ := messageRefused_shows (messageTaken s) (k + 1)
  exact ⟨_, rfl, hans, hshow, messageRefused_keeps s _⟩

theorem registerWriteMessage_ok {off : Nat} {ws : List Dword} (hm : messageStatus off ws.length = 0)
    (short open_ : BitVec 22) :
    exec (.registerWriteMessage true off ws short open_) s =
      .next ((writeWords (messageTaken s) ⟨0, short, open_⟩ off ws).answer (.words 0 [])) := by
  simp [exec_registerWriteMessage, execRegisterWriteMessage, messageIn_taken hu he hw, hm]

theorem registerWriteMessage_refused {off k : Nat} {ws : List Dword} (hm : messageStatus off ws.length = k + 1)
    (short open_ : BitVec 22) :
    ∃ t, exec (.registerWriteMessage true off ws short open_) s = .next t ∧ t.ans = .words (k + 1) [] ∧
      Frame [.ans, .gate, .pages, .regs] s t := by
  rw [exec_registerWriteMessage, execRegisterWriteMessage, messageIn_taken hu he hw, hm]
  exact ⟨_, rfl, (messageRefused_shows _ _).1, messageRefused_keeps s _⟩

theorem registerWriteMessage_bgMax {w : Dword} (hr : released s 12 = true) (hs : (s.page 12).sealBit = false)
    (hlo : 10 ≤ w.toNat % 64) (hhi : w.toNat % 64 ≤ 50) :
    ∃ t, exec (.registerWriteMessage true 0xC00058 [w] 0 0) s = .next t ∧ t.ans = .words 0 [] ∧
      t.rd rTEN_BG_MAX = w.toNat % 64 ∧ Frame [.ans, .gate, .regs] s t := by
  have hm : messageStatus 0xC00058 1 = 0 := by decide
  have hk := messageTaken_keeps s
  have hr' : released (messageTaken s) 12 = true := (hk.released_eq 12).trans hr
  have hs' : ((messageTaken s).page 12).sealBit = false := by rw [hk.page_eq 12]; exact hs
  obtain ⟨hval, -, hkeep⟩ := regWrite_bgMax_stores hr' hs' hlo hhi .bmc ⟨0, 0, 0⟩
  exact ⟨_, registerWriteMessage_ok hu he hw (ws := [w]) hm 0 0, rfl, hval,
    State.answer_frame (by decide) ((hk.trans hkeep).mono (by decide))⟩

end

/-! ### JTAG_REGISTER_ACCESS (R445) -/

section
variable {s : State} {addr : Nat} (hw : windowUp s .jtag = true) (ha : addr % 4 = 0)
include hw ha

theorem jtagRegisterAccess_disabled (hj : s.rd rSBI_JTAG_REG_EN = 0) (data : Option Dword) (ns : Nat)
    (short open_ : BitVec 22) :
    exec (.jtagRegisterAccess addr data ns short open_) s =
      .next (if data.isNone then (s.wake jtagDomain).answer (.word 0) else s.wake jtagDomain) := by
  have hk := s.wake_keeps jtagDomain
  simp [exec_jtagRegisterAccess, execJtagRegisterAccess, hk.windowUp_eq, hk.rd_eq, hw, ha, hj]

theorem jtagRegisterAccess_write (hj : s.rd rSBI_JTAG_REG_EN = 1) (w : Dword) (ns : Nat) (short open_ : BitVec 22) :
    exec (.jtagRegisterAccess addr (some w) ns short open_) s =
      .next (regWrite (s.wake jtagDomain) .jtag ⟨ns, short, open_⟩ addr w) := by
  have hk := s.wake_keeps jtagDomain
  simp [exec_jtagRegisterAccess, execJtagRegisterAccess, hk.windowUp_eq, hk.rd_eq, hw, ha, hj]

theorem jtagRegisterAccess_read (hj : s.rd rSBI_JTAG_REG_EN = 1) (ns : Nat) (short open_ : BitVec 22) :
    exec (.jtagRegisterAccess addr none ns short open_) s =
      .next ((regRead (s.wake jtagDomain) .jtag ⟨ns, short, open_⟩ addr).2.answer
        (.word (regRead (s.wake jtagDomain) .jtag ⟨ns, short, open_⟩ addr).1)) := by
  have hk := s.wake_keeps jtagDomain
  simp [exec_jtagRegisterAccess, execJtagRegisterAccess, hk.windowUp_eq, hk.rd_eq, hw, ha, hj]

end

/-- The first word of TEN's page names the block (R526). -/
theorem regRead_tenId (s : State) (p : Path) (a : Around) :
    regRead s p a 0xC00000 = (0x0C000100, s.wakePage 12) := by
  have haddr : pageAt 0xC00000 = some (12, 0) := by decide
  unfold regRead
  rw [haddr]
  rfl

theorem jtagRegisterAccess_off {s : State} {addr : Nat} (hw : windowUp s .jtag = true) (ha : addr % 4 = 0)
    (hj : s.rd rSBI_JTAG_REG_EN = 0) (w : Dword) (ns : Nat) :
    (∃ t, exec (.jtagRegisterAccess addr (some w) ns 0 0) s = .next t ∧ Frame [.gate] s t) ∧
      ∃ t, exec (.jtagRegisterAccess addr none ns 0 0) s = .next t ∧ t.ans = .word 0 ∧ Frame [.ans, .gate] s t := by
  have hk := s.wake_keeps jtagDomain
  exact ⟨⟨_, jtagRegisterAccess_disabled hw ha hj (some w) ns 0 0, hk⟩,
    _, jtagRegisterAccess_disabled hw ha hj none ns 0 0, rfl, State.answer_frame (by decide) (hk.mono (by decide))⟩

theorem jtagRegisterAccess_on {s : State} (hw : windowUp s .jtag = true) (hj : s.rd rSBI_JTAG_REG_EN = 1) (w : Dword)
    (ns : Nat) :
    (∃ t, exec (.jtagRegisterAccess 0xC00000 none ns 0 0) s = .next t ∧ t.ans = .word 0x0C000100 ∧
      Frame [.ans, .gate] s t) ∧
    (released s 12 = true → (s.page 12).sealBit = false → 10 ≤ w.toNat % 64 → w.toNat % 64 ≤ 50 →
      ∃ t, exec (.jtagRegisterAccess 0xC00058 (some w) ns 0 0) s = .next t ∧ t.rd rTEN_BG_MAX = w.toNat % 64 ∧
        Frame [.gate, .regs] s t) := by
  have hk := s.wake_keeps jtagDomain
  refine ⟨⟨_, jtagRegisterAccess_read hw (by decide) hj ns 0 0, ?_⟩, fun hr hs hlo hhi => ?_⟩
  · rw [regRead_tenId]
    exact ⟨rfl, State.answer_frame (by decide) (State.wakePage_frame (by decide) (hk.mono (by decide)))⟩
  · have hs' : ((s.wake jtagDomain).page 12).sealBit = false := by rw [hk.page_eq 12]; exact hs
    obtain ⟨hval, -, hkeep⟩ := regWrite_bgMax_stores ((hk.released_eq 12).trans hr) hs' hlo hhi .jtag ⟨ns, 0, 0⟩
    exact ⟨_, jtagRegisterAccess_write hw (by decide) hj w ns 0 0, hval, (hk.mono (by decide)).trans hkeep⟩

/-! ### INTERFACE_ADDRESS_WRITE (R431) -/

theorem interfaceAddressWrite_stores {s : State} {p : Path} {off k : Nat} {w : Dword} {f : Fld}
    (hr : released s 9 = true) (ho : addressWord off = true) (ha : off % 4 = 0) (hf : f.w = 32)
    (hw : storeWord (s.wakePage 9) p 9 off w =
      (s.wakePage 9).wrBank f k (selected (s.wakePage 9) p rNET_IF_SEL 0) w.toNat) :
    ∃ t, exec (.interfaceAddressWrite p off w) s = .next t ∧
      t.rdBank f k (selected t p rNET_IF_SEL 0) = w.toNat := by
  refine ⟨writeAddress p off w (s.wakePage 9), ?_, writeAddress_reads hf hw⟩
  simp [exec_interfaceAddressWrite, execInterfaceAddressWrite, ho, ha, hr]

theorem interfaceAddressWrite_reads {s : State} (hr : released s 9 = true) (hs : (s.page 9).sealBit = false) (p : Path)
    (w : Dword) :
    (∃ t, exec (.interfaceAddressWrite p 0x50 w) s = .next t ∧
      t.rdBank rNET_IPV4 0 (selected t p rNET_IF_SEL 0) = w.toNat) ∧
    ∀ k, k < 4 → ∃ t, exec (.interfaceAddressWrite p (0x60 + 4 * k) w) s = .next t ∧
      t.rdBank rNET_IPV6k k (selected t p rNET_IF_SEL 0) = w.toNat := by
  have hs' : ((s.wakePage 9).page 9).sealBit = false := by rw [(s.wakePage_keeps 9).page_eq 9]; exact hs
  refine ⟨interfaceAddressWrite_stores hr rfl rfl rfl (storeWord_ipv4 hs' p w), fun k hk => ?_⟩
  have ho : addressWord (0x60 + 4 * k) = true := by
    revert k
    decide
  exact interfaceAddressWrite_stores hr ho (by omega) rfl (storeWord_ipv6 hs' p hk w)

/-- Settles O44, by the rule of each path to the register window. -/
theorem registerAccessesReadAndWrite : Obligations.RegisterAccessesReadAndWrite := by
  unfold Obligations.RegisterAccessesReadAndWrite
  refine ⟨fun s p port w hp hr => registerWrite_bgMax hp hr w,
    fun s p port addr w b hp => registerWrite_dropped hp addr w b 0 0,
    fun s port addr w hp => registerWrite_badSize hp addr w 0 0, fun s off n ns hu he hw => ⟨?_, ?_, ?_⟩,
    fun s w hu he hw hr hs hlo hhi => registerWriteMessage_bgMax hu he hw hr hs hlo hhi,
    fun s ws off hu he hw hn => ?_,
    fun s addr ns w hw ha => ⟨fun hj => jtagRegisterAccess_off hw ha hj w ns,
      fun hj => jtagRegisterAccess_on hw hj w ns⟩,
    fun s p w hr hs => interfaceAddressWrite_reads hr hs p w⟩
  · exact fun h1 h16 ha hin => registerReadMessage_ok hu he hw (messageStatus_ok h1 h16 ha hin) ns
  · exact fun hn => registerReadMessage_refused hu he hw (messageStatus_badCount hn) ns
  · exact fun h1 h16 hoff => registerReadMessage_refused hu he hw (messageStatus_badOffset h1 h16 hoff) ns
  · have hn' : ws.length = 0 ∨ 16 < ws.length := hn.imp_left (congrArg List.length)
    exact registerWriteMessage_refused hu he hw (messageStatus_badCount hn') 0 0

end Sys2Proof.Machine
end

section
/-! PROOFS. Steps of the block (O1, O2, O5, O16, O41): the frame of every command, then what a step does with the
queue, with the seals, with the clock gates and with the words that a path latches. -/

namespace Sys2Proof.Machine

open Sys2Proof

/-! ## The frame of every command -/

/-- Every command answers a next state and changes only its own parts: the frames of the meanings, one for each arm of
the dispatch. -/
theorem exec_keepsOtherParts (c : Instr) (s : State) : ∃ t, exec c s = .next t ∧ Frame c.parts s t := by
  have sub := List.Subset.refl c.parts
  have h := Frame.refl c.parts s
  cases c with
  | strideTick => exact execStrideTick_frame sub h
  | secondBoundary => exact execSecondBoundary_frame sub h
  | minuteBoundary => exact execMinuteBoundary_frame sub h
  | tbsHour => exact execTbsHour_frame sub h
  | planCommit => exact execPlanCommit_frame sub h
  | turnBoundary => exact execTurnBoundary_frame sub h
  | ppsEdge => exact execPpsEdge_frame sub h
  | ppsStep => exact execPpsStep_frame sub h
  | ppsHoldover => exact execPpsHoldover_frame sub h
  | setFeaturesTimestamp => exact execSetFeaturesTimestamp_frame sub h
  | getFeaturesTimestamp => exact execGetFeaturesTimestamp_frame sub h
  | tbsSetGo => exact execTbsSetGo_frame sub h
  | secondsSetApply => exact execSecondsSetApply_frame sub h
  | tbsSecLoRead => exact execTbsSecLoRead_frame sub h
  | lanternTablePublish => exact execLanternTablePublish_frame sub h
  | lanternDatagram => exact execLanternDatagram_frame sub h
  | getLogPageLantern => exact execGetLogPageLantern_frame sub h
  | sqTailDoorbell => exact execSqTailDoorbell_frame sub h
  | cqHeadDoorbell => exact execCqHeadDoorbell_frame sub h
  | commandFetch => exact execCommandFetch_frame sub h
  | completionPoint => exact execCompletionPoint_frame sub h
  | cqStall => exact execCqStall_frame sub h
  | writeThroughEnter => exact execWriteThroughEnter_frame sub h
  | writeThroughExit => exact execWriteThroughExit_frame sub h
  | createIoSq => exact execCreateIoSq_frame sub h
  | createIoCq => exact execCreateIoCq_frame sub h
  | deleteIoSq => exact execDeleteIoSq_frame sub h
  | sqDeletionApply => exact execSqDeletionApply_frame sub h
  | deleteIoCq => exact execDeleteIoCq_frame sub h
  | getLogPage => exact execGetLogPage_frame sub h
  | getLogPageMeters => exact execGetLogPageMeters_frame sub h
  | getLogPageHarnessStatus => exact execGetLogPageHarnessStatus_frame sub h
  | getLogPageRedundancy => exact execGetLogPageRedundancy_frame sub h
  | getLogPageThermal => exact execGetLogPageThermal_frame sub h
  | getLogPageLedger => exact execGetLogPageLedger_frame sub h
  | getLogPageLedgerSummary => exact execGetLogPageLedgerSummary_frame sub h
  | getLogPageMigrationRecord => exact execGetLogPageMigrationRecord_frame sub h
  | getLogPageDieRoster => exact execGetLogPageDieRoster_frame sub h
  | identify => exact execIdentify_frame sub h
  | abort => exact execAbort_frame sub h
  | setFeatures => exact execSetFeatures_frame sub h
  | setFeaturesArbitration => exact execSetFeaturesArbitration_frame sub h
  | setFeaturesPowerManagement => exact execSetFeaturesPowerManagement_frame sub h
  | setFeaturesVolatileWriteCache => exact execSetFeaturesVolatileWriteCache_frame sub h
  | setFeaturesNumberOfQueues => exact execSetFeaturesNumberOfQueues_frame sub h
  | setFeaturesTemperatureThreshold => exact execSetFeaturesTemperatureThreshold_frame sub h
  | setFeaturesKeepAliveTimer => exact execSetFeaturesKeepAliveTimer_frame sub h
  | setFeaturesFdp => exact execSetFeaturesFdp_frame sub h
  | getFeatures => exact execGetFeatures_frame sub h
  | asynchronousEventRequest => exact execAsynchronousEventRequest_frame sub h
  | namespaceCreate => exact execNamespaceCreate_frame sub h
  | namespaceCreateFineFit => exact execNamespaceCreateFineFit_frame sub h
  | namespaceCreateFineTimeout => exact execNamespaceCreateFineTimeout_frame sub h
  | namespaceDelete => exact execNamespaceDelete_frame sub h
  | namespaceAttach => exact execNamespaceAttach_frame sub h
  | namespaceDetach => exact execNamespaceDetach_frame sub h
  | firmwareImageDownload => exact execFirmwareImageDownload_frame sub h
  | firmwareCommitStore => exact execFirmwareCommitStore_frame sub h
  | firmwareCommitNextReset => exact execFirmwareCommitNextReset_frame sub h
  | firmwareCommitImmediate => exact execFirmwareCommitImmediate_frame sub h
  | fwActivationStop => exact execFwActivationStop_frame sub h
  | fwActivationSwitch => exact execFwActivationSwitch_frame sub h
  | fwActivationResume => exact execFwActivationResume_frame sub h
  | deviceSelfTest => exact execDeviceSelfTest_frame sub h
  | keepAlive => exact execKeepAlive_frame sub h
  | directiveSend => exact execDirectiveSend_frame sub h
  | directiveReceive => exact execDirectiveReceive_frame sub h
  | secondaryControllerOnline => exact execSecondaryControllerOnline_frame sub h
  | secondaryControllerOffline => exact execSecondaryControllerOffline_frame sub h
  | nvmeMiSend => exact execNvmeMiSend_frame sub h
  | nvmeMiReceive => exact execNvmeMiReceive_frame sub h
  | doorbellBufferConfig => exact execDoorbellBufferConfig_frame sub h
  | formatNvm => exact execFormatNvm_frame sub h
  | formatNvmCryptoErase => exact execFormatNvmCryptoErase_frame sub h
  | securitySend => exact execSecuritySend_frame sub h
  | securityReceive => exact execSecurityReceive_frame sub h
  | sanitizeBlockErase => exact execSanitizeBlockErase_frame sub h
  | sanitizeComplete => exact execSanitizeComplete_frame sub h
  | sanitizeCryptoErase => exact execSanitizeCryptoErase_frame sub h
  | sanitizeOverwrite => exact execSanitizeOverwrite_frame sub h
  | getLbaStatus => exact execGetLbaStatus_frame sub h
  | unusedVendorOpcode => exact execUnusedVendorOpcode_frame sub h
  | flush => exact execFlush_frame sub h
  | write => exact execWrite_frame sub h
  | read => exact execRead_frame sub h
  | writeUncorrectable => exact execWriteUncorrectable_frame sub h
  | compare => exact execCompare_frame sub h
  | writeZeroes => exact execWriteZeroes_frame sub h
  | datasetManagement => exact execDatasetManagement_frame sub h
  | verify => exact execVerify_frame sub h
  | reservationRegister => exact execReservationRegister_frame sub h
  | reservationReport => exact execReservationReport_frame sub h
  | reservationAcquire => exact execReservationAcquire_frame sub h
  | reservationRelease => exact execReservationRelease_frame sub h
  | copy => exact execCopy_frame sub h
  | ioManagementReceive => exact execIoManagementReceive_frame sub h
  | ioManagementSend => exact execIoManagementSend_frame sub h
  | zoneManagementReceive => exact execZoneManagementReceive_frame sub h
  | zoneReset => exact execZoneReset_frame sub h
  | zoneFinish => exact execZoneFinish_frame sub h
  | zoneOpen => exact execZoneOpen_frame sub h
  | zoneClose => exact execZoneClose_frame sub h
  | zoneAppend => exact execZoneAppend_frame sub h
  | functionCreate => exact execFunctionCreate_frame sub h
  | functionDelete => exact execFunctionDelete_frame sub h
  | functionBind => exact execFunctionBind_frame sub h
  | harnessSet => exact execHarnessSet_frame sub h
  | harnessApply => exact execHarnessApply_frame sub h
  | functionFreeze => exact execFunctionFreeze_frame sub h
  | freezeDrained => exact execFreezeDrained_frame sub h
  | tenFreezeLate => exact execTenFreezeLate_frame sub h
  | functionSave => exact execFunctionSave_frame sub h
  | saveApply => exact execSaveApply_frame sub h
  | functionThaw => exact execFunctionThaw_frame sub h
  | functionRestore => exact execFunctionRestore_frame sub h
  | functionLevelReset => exact execFunctionLevelReset_frame sub h
  | flrComplete => exact execFlrComplete_frame sub h
  | pcieFlr => exact execPcieFlr_frame sub h
  | ccEnClear => exact execCcEnClear_frame sub h
  | ccEnSet => exact execCcEnSet_frame sub h
  | sriovNumvfsWrite => exact execSriovNumvfsWrite_frame sub h
  | poolScaleApply => exact execPoolScaleApply_frame sub h
  | tenMigSerialLoRead => exact execTenMigSerialLoRead_frame sub h
  | demotion => exact execDemotion_frame sub h
  | checkpointStart => exact execCheckpointStart_frame sub h
  | ckptNow => exact execCkptNow_frame sub h
  | ckptDone => exact execCkptDone_frame sub h
  | mapCkptNumLoRead => exact execMapCkptNumLoRead_frame sub h
  | programUnitAssembly => exact execProgramUnitAssembly_frame sub h
  | spanAllocate => exact execSpanAllocate_frame sub h
  | idleClosure => exact execIdleClosure_frame sub h
  | ceilingChange => exact execCeilingChange_frame sub h
  | codewordEncode => exact execCodewordEncode_frame sub h
  | descriptorRead => exact execDescriptorRead_frame sub h
  | descriptorReadRun => exact execDescriptorReadRun_frame sub h
  | descriptorProgram => exact execDescriptorProgram_frame sub h
  | descriptorEraseIntent => exact execDescriptorEraseIntent_frame sub h
  | descriptorErase => exact execDescriptorErase_frame sub h
  | descriptorStatus => exact execDescriptorStatus_frame sub h
  | descriptorFeature => exact execDescriptorFeature_frame sub h
  | descriptorReset => exact execDescriptorReset_frame sub h
  | descriptorRaw => exact execDescriptorRaw_frame sub h
  | dieOpPoll => exact execDieOpPoll_frame sub h
  | dieOpComplete => exact execDieOpComplete_frame sub h
  | fchDieTimeout => exact execFchDieTimeout_frame sub h
  | dieResetTimeout => exact execDieResetTimeout_frame sub h
  | reinSuspend => exact execReinSuspend_frame sub h
  | reinRead => exact execReinRead_frame sub h
  | reinResume => exact execReinResume_frame sub h
  | slotArbitration => exact execSlotArbitration_frame sub h
  | codewordTransferEnd => exact execCodewordTransferEnd_frame sub h
  | fchStallPromote => exact execFchStallPromote_frame sub h
  | dieRetrain => exact execDieRetrain_frame sub h
  | channelRetrainDone => exact execChannelRetrainDone_frame sub h
  | fchPinGo => exact execFchPinGo_frame sub h
  | engStallPromote => exact execEngStallPromote_frame sub h
  | decodeDone => exact execDecodeDone_frame sub h
  | poisonWait => exact execPoisonWait_frame sub h
  | reverseSearch => exact execReverseSearch_frame sub h
  | trackerReview => exact execTrackerReview_frame sub h
  | ldcInjArm => exact execLdcInjArm_frame sub h
  | ldcBitsLoRead => exact execLdcBitsLoRead_frame sub h
  | dieLost => exact execDieLost_frame sub h
  | journalFlush => exact execJournalFlush_frame sub h
  | parJrnRehome => exact execParJrnRehome_frame sub h
  | journalRehomeDone => exact execJournalRehomeDone_frame sub h
  | rebuildRow => exact execRebuildRow_frame sub h
  | parRebuildDone => exact execParRebuildDone_frame sub h
  | groomRow => exact execGroomRow_frame sub h
  | rawMediaRead => exact execRawMediaRead_frame sub h
  | groomSpan => exact execGroomSpan_frame sub h
  | pauseRebuild => exact execPauseRebuild_frame sub h
  | resumeRebuild => exact execResumeRebuild_frame sub h
  | moveJournalMirror => exact execMoveJournalMirror_frame sub h
  | parJseqLoRead => exact execParJseqLoRead_frame sub h
  | reclaimVictimPick => exact execReclaimVictimPick_frame sub h
  | reclaimRowCopy => exact execReclaimRowCopy_frame sub h
  | spanEraseStart => exact execSpanEraseStart_frame sub h
  | rclCopyLoRead => exact execRclCopyLoRead_frame sub h
  | rclHostLoRead => exact execRclHostLoRead_frame sub h
  | dramLineCheckFail => exact execDramLineCheckFail_frame sub h
  | dmcRecompute => exact execDmcRecompute_frame sub h
  | dumpGo => exact execDumpGo_frame sub h
  | dramAlert => exact execDramAlert_frame sub h
  | dramOscRead => exact execDramOscRead_frame sub h
  | dramZqCalibration => exact execDramZqCalibration_frame sub h
  | srmWordCheckFail => exact execSrmWordCheckFail_frame sub h
  | keyExchangeOffer => exact execKeyExchangeOffer_frame sub h
  | exchangeResponse => exact execExchangeResponse_frame sub h
  | certificateChain => exact execCertificateChain_frame sub h
  | keyStatus => exact execKeyStatus_frame sub h
  | loadNamespaceKey => exact execLoadNamespaceKey_frame sub h
  | loadMigrationKey => exact execLoadMigrationKey_frame sub h
  | clearKey => exact execClearKey_frame sub h
  | shadowZeroize => exact execShadowZeroize_frame sub h
  | cipDecryptDone => exact execCipDecryptDone_frame sub h
  | tlsRecordReceive => exact execTlsRecordReceive_frame sub h
  | tlsKeyUpdate => exact execTlsKeyUpdate_frame sub h
  | drbgReseed => exact execDrbgReseed_frame sub h
  | keyDrbgFail => exact execKeyDrbgFail_frame sub h
  | keyKcvLoRead => exact execKeyKcvLoRead_frame sub h
  | getVersion => exact execGetVersion_frame sub h
  | getCapabilities => exact execGetCapabilities_frame sub h
  | negotiateAlgorithms => exact execNegotiateAlgorithms_frame sub h
  | getDigests => exact execGetDigests_frame sub h
  | getCertificate => exact execGetCertificate_frame sub h
  | challenge => exact execChallenge_frame sub h
  | getMeasurements => exact execGetMeasurements_frame sub h
  | keyExchange => exact execKeyExchange_frame sub h
  | finish => exact execFinish_frame sub h
  | heartbeat => exact execHeartbeat_frame sub h
  | keyUpdate => exact execKeyUpdate_frame sub h
  | endSession => exact execEndSession_frame sub h
  | ideKm => exact execIdeKm_frame sub h
  | pcieLinkUp => exact execPcieLinkUp_frame sub h
  | pcieLinkDown => exact execPcieLinkDown_frame sub h
  | perstAssert => exact execPerstAssert_frame sub h
  | pcieConfigRequest => exact execPcieConfigRequest_frame sub h
  | hifIdeFail => exact execHifIdeFail_frame sub h
  | hifWinClose => exact execHifWinClose_frame sub h
  | ethLinkChange => exact execEthLinkChange_frame sub h
  | tlsHandshake => exact execTlsHandshake_frame sub h
  | connect => exact execConnect_frame sub h
  | commandCapsule => exact execCommandCapsule_frame sub h
  | keepAliveExpiry => exact execKeepAliveExpiry_frame sub h
  | adminConnectionClose => exact execAdminConnectionClose_frame sub h
  | propertyGet => exact execPropertyGet_frame sub h
  | netPfcStorm => exact execNetPfcStorm_frame sub h
  | pfcStormEnd => exact execPfcStormEnd_frame sub h
  | arpRequest => exact execArpRequest_frame sub h
  | neighborDiscovery => exact execNeighborDiscovery_frame sub h
  | icmpEcho => exact execIcmpEcho_frame sub h
  | routerAdvertisement => exact execRouterAdvertisement_frame sub h
  | interfaceAddressWrite => exact execInterfaceAddressWrite_frame sub h
  | discoveryLogPage => exact execDiscoveryLogPage_frame sub h
  | registerReadMessage => exact execRegisterReadMessage_frame sub h
  | registerWriteMessage => exact execRegisterWriteMessage_frame sub h
  | setEndpointId => exact execSetEndpointId_frame sub h
  | readNvmeMiDataStructure => exact execReadNvmeMiDataStructure_frame sub h
  | subsystemHealthStatusPoll => exact execSubsystemHealthStatusPoll_frame sub h
  | controllerHealthStatusPoll => exact execControllerHealthStatusPoll_frame sub h
  | configurationGet => exact execConfigurationGet_frame sub h
  | configurationSet => exact execConfigurationSet_frame sub h
  | vpdRead => exact execVpdRead_frame sub h
  | vpdWrite => exact execVpdWrite_frame sub h
  | nvmeMiReset => exact execNvmeMiReset_frame sub h
  | tunnelledAdminCommand => exact execTunnelledAdminCommand_frame sub h
  | basicManagementCommand => exact execBasicManagementCommand_frame sub h
  | uartConsoleInput => exact execUartConsoleInput_frame sub h
  | jtagRegisterAccess => exact execJtagRegisterAccess_frame sub h
  | jtagPinInstructionExit => exact execJtagPinInstructionExit_frame sub h
  | housekeepingRound => exact execHousekeepingRound_frame sub h
  | openTest => exact execOpenTest_frame sub h
  | packageTemperatureRead => exact execPackageTemperatureRead_frame sub h
  | throttleLevelLower => exact execThrottleLevelLower_frame sub h
  | snuffPowerOff => exact execSnuffPowerOff_frame sub h
  | relight => exact execRelight_frame sub h
  | lowPowerStateEntry => exact execLowPowerStateEntry_frame sub h
  | stringTest => exact execStringTest_frame sub h
  | hldTestNow => exact execHldTestNow_frame sub h
  | pwrFail => exact execPwrFail_frame sub h
  | bankTrip => exact execBankTrip_frame sub h
  | vddCoreLow => exact execVddCoreLow_frame sub h
  | vddAonLow => exact execVddAonLow_frame sub h
  | dumpFreeze => exact execDumpFreeze_frame sub h
  | dumpEnd => exact execDumpEnd_frame sub h
  | powerReturnDuringDump => exact execPowerReturnDuringDump_frame sub h
  | xtalStop => exact execXtalStop_frame sub h
  | powerOnReset => exact execPowerOnReset_frame sub h
  | configurationImageLoad => exact execConfigurationImageLoad_frame sub h
  | pcieLinkTraining => exact execPcieLinkTraining_frame sub h
  | firmwareLoad => exact execFirmwareLoad_frame sub h
  | dramPhase => exact execDramPhase_frame sub h
  | dramFill => exact execDramFill_frame sub h
  | flashGroupStart => exact execFlashGroupStart_frame sub h
  | rosterCheck => exact execRosterCheck_frame sub h
  | initialisation => exact execInitialisation_frame sub h
  | intentScan => exact execIntentScan_frame sub h
  | journalLoad => exact execJournalLoad_frame sub h
  | replay => exact execReplay_frame sub h
  | nvmeReady => exact execNvmeReady_frame sub h
  | deviceReset => exact execDeviceReset_frame sub h
  | nvmSubsystemReset => exact execNvmSubsystemReset_frame sub h
  | sysRst => exact execSysRst_frame sub h
  | botSoftReset => exact execBotSoftReset_frame sub h
  | blockSoftReset => exact execBlockSoftReset_frame sub h
  | normalShutdown => exact execNormalShutdown_frame sub h
  | shutdownProgramsDone => exact execShutdownProgramsDone_frame sub h
  | abruptShutdown => exact execAbruptShutdown_frame sub h
  | tenantShutdown => exact execTenantShutdown_frame sub h
  | eventRaise => exact execEventRaise_frame sub h
  | ledgerRecordProgram => exact execLedgerRecordProgram_frame sub h
  | ledgerProgramDone => exact execLedgerProgramDone_frame sub h
  | windowLoad => exact execWindowLoad_frame sub h
  | windowNext => exact execWindowNext_frame sub h
  | windowResult => exact execWindowResult_frame sub h
  | watermarkWrite => exact execWatermarkWrite_frame sub h
  | evlWmark => exact execEvlWmark_frame sub h
  | evlNewestLoRead => exact execEvlNewestLoRead_frame sub h
  | evlOldestLoRead => exact execEvlOldestLoRead_frame sub h
  | botSerial0Read => exact execBotSerial0Read_frame sub h
  | thmSenseBadLoRead => exact execThmSenseBadLoRead_frame sub h
  | evtRawClear => exact execEvtRawClear_frame sub h
  | evtForce => exact execEvtForce_frame sub h
  | errAck => exact execErrAck_frame sub h
  | sealBlock => exact execSealBlock_frame sub h
  | registerWrite => exact execRegisterWrite_frame sub h
  | domainWake => exact execDomainWake_frame sub h
  | domainGate => exact execDomainGate_frame sub h
  | cpxFwStopped => exact execCpxFwStopped_frame sub h
  | pwrFailNHigh => exact execPwrFailNHigh_frame sub h
  | ledgerSectorEraseDone => exact execLedgerSectorEraseDone_frame sub h
  | norRecordWriteDone => exact execNorRecordWriteDone_frame sub h

theorem exec_frame_of_next {c : Instr} {s t : State} (h : exec c s = .next t) : Frame c.parts s t := by
  obtain ⟨u, hu, hf⟩ := exec_keepsOtherParts c s
  cases hu.symm.trans h
  exact hf

/-! ## Steps and their queue -/

theorem step_cons (c : Instr) (q : List Instr) (s : State) :
    step { s with pending := c :: q } = exec c { s with pending := q } := rfl

theorem step_of_pending_nil {s : State} (h : s.pending = []) : step s = .next s := by
  unfold step
  rw [h]

theorem step_of_pending_cons {s : State} {c : Instr} {q : List Instr} (h : s.pending = c :: q) :
    step s = exec c { s with pending := q } := by
  unfold step
  rw [h]

/-- No command puts one in the queue or takes one out. -/
theorem pending_notMem_parts (c : Instr) : Part.pending ∉ c.parts := by
  cases c <;> exact of_decide_eq_true rfl

/-- Settles O1, by the definition of a step. -/
theorem stepRunsFrontCommand : Obligations.StepRunsFrontCommand :=
  step_cons

/-- Settles O2, by whether the queue is empty: a command at its front answers a next state, and its frame keeps the
rest of the queue. -/
theorem everyStepAnswersNext : Obligations.EveryStepAnswersNext := by
  unfold Obligations.EveryStepAnswersNext
  intro s
  cases hq : s.pending with
  | nil => exact ⟨s, step_of_pending_nil hq, hq, fun _ => rfl⟩
  | cons c q =>
    obtain ⟨t, ht, hkeep⟩ := exec_keepsOtherParts c { s with pending := q }
    have hpend : t.pending = q := hkeep.pending_eq (pending_notMem_parts c)
    exact ⟨t, (step_of_pending_cons hq).trans ht, hpend, fun h => absurd h (List.cons_ne_nil c q)⟩

/-! ## Seals (R18, R530) -/

/-- The commands that may break a seal are those at which a device reset or a power-on can begin. -/
theorem parts_contains_seals (c : Instr) : c.parts.contains .seals = c.startsReset := by
  cases c <;> rfl

theorem seals_notMem_parts {c : Instr} (h : c.startsReset = false) : Part.seals ∉ c.parts := by
  have hc : c.parts.contains .seals = false := (parts_contains_seals c).trans h
  simpa using hc

/-- Settles O5: the frame of a command that starts no reset keeps the seals. -/
theorem sealHoldsUntilReset : Obligations.SealHoldsUntilReset := by
  unfold Obligations.SealHoldsUntilReset
  intro c s t p hc ht
  exact exec_frame_of_next ht .seals (seals_notMem_parts hc) p

/-! ## Clock gates (R30, R33) -/

theorem exec_domainWake (d : Nat) (s : State) : exec (.domainWake d) s = execDomainWake d s := rfl

theorem exec_domainGate (d : Nat) (s : State) : exec (.domainGate d) s = execDomainGate d s := rfl

/-- A set of one domain holds that domain alone. -/
theorem domains_self_getLsbD {d : Nat} (h : d < 256) (e : Nat) : (domains d d).getLsbD e = decide (e = d) := by
  have hpow : 2 ^ (d + 1) - 2 ^ d = 2 ^ d := by rw [Nat.pow_succ]; omega
  unfold domains
  rw [hpow, BitVec.getLsbD_ofNat, Nat.testBit_two_pow]
  by_cases he : e = d
  · simp [he, h]
  · simp [he, Ne.symm he]

theorem demandWoken_lt {d : Nat} (h : demandWoken.getLsbD d = true) : d < 256 := BitVec.lt_of_getLsbD h

/-- A demand-woken domain that a request reaches outside snuff is clocked and has work. -/
theorem domainWake_clocks {s : State} {d : Nat} (hd : demandWoken.getLsbD d = true) (hs : s.thm.snuff ≠ .off) :
    exec (.domainWake d) s =
      .next (s.setGate { s.gate with on := s.gate.on ||| domains d d, busy := s.gate.busy ||| domains d d }) := by
  simp [exec_domainWake, execDomainWake, State.wake, hd, hs]

/-- A demand-woken domain that is idle, without work and not forced is gated. -/
theorem domainGate_stops {s : State} {d : Nat} (hd : demandWoken.getLsbD d = true)
    (hidle : 2 ≤ Tbl.getD s.gate.idle d 0) (hbusy : s.gate.busy.getLsbD d = false)
    (hforced : (forced s).getLsbD d = false) :
    exec (.domainGate d) s =
      .next (s.setGate { s.gate with on := s.gate.on &&& ~~~ domains d d, idle := Tbl.erase s.gate.idle d }) := by
  simp [exec_domainGate, execDomainGate, hd, hidle, hbusy, hforced]

/-- Settles O16: what each command writes, read back bit by bit, and the frames of both. -/
theorem gatingLosesNoState : Obligations.GatingLosesNoState := by
  unfold Obligations.GatingLosesNoState
  refine ⟨fun s d hd hs => ⟨_, domainWake_clocks hd hs, ?_, ?_, rfl, fun e he => ?_⟩,
    fun s d hd hidle hbusy hforced => ⟨_, domainGate_stops hd hidle hbusy hforced, ?_, rfl, fun e he => ?_⟩,
    fun s t d h => h.elim exec_frame_of_next exec_frame_of_next⟩
  · simp [domains_self_getLsbD (demandWoken_lt hd)]
  · simp [domains_self_getLsbD (demandWoken_lt hd)]
  · simp [domains_self_getLsbD (demandWoken_lt hd), he]
  · simp [domains_self_getLsbD (demandWoken_lt hd)]
  · have hlt : s.gate.on.getLsbD e = true → e < 256 := BitVec.lt_of_getLsbD
    simpa [domains_self_getLsbD (demandWoken_lt hd), he] using hlt

/-! ## Latches of a path (R17, R531) -/

theorem Frame.path_eq {ps : List Part} {s t : State} (h : Frame ps s t) (p : Path)
    (hp : Part.paths ∉ ps := by decide) : t.path p = s.path p := by
  unfold State.path
  rw [h.paths_eq hp]

theorem State.setPath_path (s : State) (p q : Path) (x : PathState) :
    (s.setPath p x).path q = if q = p then x else s.path q := by
  refine (Tbl.getD_put _ _ _ _ _).trans ?_
  by_cases h : q = p
  · rw [h, if_pos rfl, if_pos rfl]
  · rw [if_neg h, if_neg fun e => h (Path.ctorIdx_inj e)]
    rfl

theorem State.latch_path_ne (s : State) {p q : Path} (h : q ≠ p) (blk off : Nat) (v : Dword) :
    (s.latch p blk off v).path q = s.path q := by
  unfold State.latch
  rw [State.setPath_path, if_neg h, (s.wakePage_keeps blk).path_eq]

/-- A latch holds its word at its own offset and leaves the path's other latches. -/
theorem State.latch_latched (s : State) (p : Path) (blk off b o : Nat) (v : Dword) :
    (s.latch p blk off v).latched p b o =
      if b * 4096 + o = blk * 4096 + off then v else s.latched p b o := by
  unfold State.latch State.latched
  rw [State.setPath_path, if_pos rfl, Tbl.getD_put]

theorem State.latch_latched_self (s : State) (p : Path) (blk off : Nat) (v : Dword) :
    (s.latch p blk off v).latched p blk off = v := by
  rw [State.latch_latched, if_pos rfl]

theorem State.latch_latched_ne (s : State) (p : Path) {blk off b o : Nat} (v : Dword)
    (h : b * 4096 + o ≠ blk * 4096 + off) : (s.latch p blk off v).latched p b o = s.latched p b o := by
  rw [State.latch_latched, if_neg h]

theorem State.answer_latched (s : State) (a : Answer) (p : Path) (blk off : Nat) :
    (s.answer a).latched p blk off = s.latched p blk off := rfl

theorem State.latch_keeps (s : State) (p : Path) (blk off : Nat) (v : Dword) :
    Frame [.gate, .paths] s (s.latch p blk off v) :=
  State.latch_frame (List.Subset.refl _) (Frame.refl _ s)

/-- What every LO read of a wide register comes to: its low word is answered and the rest latched. -/
theorem exec_latchAnswer {i : Instr} {s : State} {p : Path} {blk off n : Nat}
    (h : exec i s = .next ((s.latch p blk off (BitVec.ofNat 32 (n / 2 ^ 32))).answer (.word (BitVec.ofNat 32 n)))) :
    ∃ t, exec i s = .next t ∧ t.ans = .word (BitVec.ofNat 32 n) ∧
      t.latched p blk off = BitVec.ofNat 32 (n / 2 ^ 32) ∧
      (∀ b o, b * 4096 + o ≠ blk * 4096 + off → t.latched p b o = s.latched p b o) ∧
      (∀ q, q ≠ p → t.path q = s.path q) ∧ Frame [.ans, .gate, .paths] s t :=
  ⟨_, h, rfl, s.latch_latched_self p blk off _, fun _ _ hne => s.latch_latched_ne p _ hne,
    fun _ hq => s.latch_path_ne hq blk off _,
    State.answer_frame (by decide) ((s.latch_keeps p blk off _).mono (by decide))⟩

/-! ### SENSE_BAD (R475) -/

/-- The number whose bit `c`, for `c` below `k`, is `f c`. -/
def bitsBelow (f : Nat → Bool) (k : Nat) : Nat :=
  (List.range k).foldl (fun n c => if f c then n + 2 ^ c else n) 0

theorem bitsBelow_succ (f : Nat → Bool) (k : Nat) :
    bitsBelow f (k + 1) = if f k then bitsBelow f k + 2 ^ k else bitsBelow f k := by
  simp [bitsBelow, List.range_succ]

theorem bitsBelow_lt (f : Nat → Bool) (k : Nat) : bitsBelow f k < 2 ^ k := by
  induction k with
  | zero => exact Nat.one_pos
  | succ k ih =>
    rw [bitsBelow_succ, Nat.pow_succ]
    split <;> omega

theorem bitsBelow_testBit (f : Nat → Bool) {k c : Nat} (h : c < k) : (bitsBelow f k).testBit c = f c := by
  induction k with
  | zero => omega
  | succ k ih =>
    have hlt := bitsBelow_lt f k
    rw [bitsBelow_succ]
    rcases Nat.lt_succ_iff_lt_or_eq.1 h with hc | rfl
    · rw [← ih hc]
      split
      · rw [Nat.add_comm, Nat.testBit_two_pow_add_gt hc]
      · rfl
    · have hc : (bitsBelow f c).testBit c = false := Nat.testBit_lt_two_pow hlt
      split
      · next hf => rw [Nat.add_comm, Nat.testBit_two_pow_add_eq, hc, hf]; rfl
      · next hf => rw [hc]; exact (Bool.eq_false_iff.2 hf).symm

theorem eq_bitsBelow {n k : Nat} {f : Nat → Bool} (hn : n < 2 ^ k) (h : ∀ c, c < k → n.testBit c = f c) :
    n = bitsBelow f k := by
  refine Nat.eq_of_testBit_eq fun c => ?_
  by_cases hc : c < k
  · rw [h c hc, bitsBelow_testBit f hc]
  · have hk : 2 ^ k ≤ 2 ^ c := Nat.pow_le_pow_right (by decide) (Nat.le_of_not_lt hc)
    rw [Nat.testBit_lt_two_pow (Nat.lt_of_lt_of_le hn hk),
      Nat.testBit_lt_two_pow (Nat.lt_of_lt_of_le (bitsBelow_lt f k) hk)]

theorem exec_thmSenseBadLoRead (p : Path) (s : State) :
    exec (.thmSenseBadLoRead p) s =
      .next (readWide s p rTHM_SENSE_BAD_HI (bitsBelow (fun c => (s.hk c).broken) 64)) := rfl

/-! ### Reads that latch more than one word -/

theorem State.latch_tbs (s : State) (p : Path) (blk off : Nat) (v : Dword) : (s.latch p blk off v).tbs = s.tbs :=
  (s.latch_keeps p blk off v).tbs_eq

theorem exec_tbsSecLoRead (p : Path) (ns : Nat) (s : State) :
    exec (.tbsSecLoRead p ns) s =
      .next (((s.latch p 2 0x44 (BitVec.ofNat 32 (s.seconds / 2 ^ 32))).latch p 2 0x48
        (BitVec.ofNat 32 (s.tbs.strideInSec + 131072 * min ns 7999))).answer (.word (BitVec.ofNat 32 s.seconds))) := by
  have hx : exec (.tbsSecLoRead p ns) s = execTbsSecLoRead p ns s := rfl
  simp only [hx, execTbsSecLoRead, State.seconds, State.latch_tbs]

/-- Word `k` of the serial number (R499). -/
def serialWord (s : State) (k : Nat) : Dword := BitVec.ofNat 32 (s.fuses.serial.toNat / 2 ^ (32 * k))

theorem serialWord_zero (s : State) : serialWord s 0 = BitVec.ofNat 32 s.fuses.serial.toNat :=
  congrArg (BitVec.ofNat 32) (Nat.div_one _)

theorem exec_botSerial0Read (p : Path) (s : State) :
    exec (.botSerial0Read p) s =
      .next ((((s.latch p 1 0x74 (serialWord s 1)).latch p 1 0x78 (serialWord s 2)).latch p 1 0x7C
        (serialWord s 3)).answer (.word (serialWord s 0))) := rfl

theorem tbsSecLoRead_latches (s : State) (p : Path) {ns : Nat} (hns : ns ≤ 7999) :
    ∃ t, exec (.tbsSecLoRead p ns) s = .next t ∧ t.ans = .word (BitVec.ofNat 32 s.seconds) ∧
      t.latched p 2 0x44 = BitVec.ofNat 32 (s.seconds / 2 ^ 32) ∧
      t.latched p 2 0x48 = BitVec.ofNat 32 (s.tbs.strideInSec + 131072 * ns) ∧
      (∀ q, q ≠ p → t.path q = s.path q) ∧ Frame [.ans, .gate, .paths] s t := by
  have hx := exec_tbsSecLoRead p ns s
  rw [Nat.min_eq_left hns] at hx
  refine ⟨_, hx, rfl, ?_, State.latch_latched_self _ p 2 0x48 _, fun q hq => ?_, exec_frame_of_next hx⟩
  · simp [State.answer_latched, State.latch_latched]
  · exact (State.latch_path_ne _ hq 2 0x48 _).trans (State.latch_path_ne s hq 2 0x44 _)

theorem botSerial0Read_latches (s : State) (p : Path) :
    ∃ t, exec (.botSerial0Read p) s = .next t ∧ t.ans = .word (serialWord s 0) ∧
      (∀ k, 1 ≤ k → k ≤ 3 → t.latched p 1 (0x70 + 4 * k) = serialWord s k) ∧
      (∀ q, q ≠ p → t.path q = s.path q) ∧ Frame [.ans, .gate, .paths] s t := by
  have hx := exec_botSerial0Read p s
  refine ⟨_, hx, rfl, fun k h1 h3 => ?_, fun q hq => ?_, exec_frame_of_next hx⟩
  · have hk : k = 1 ∨ k = 2 ∨ k = 3 := by omega
    rcases hk with rfl | rfl | rfl <;> simp [State.answer_latched, State.latch_latched]
  · exact (State.latch_path_ne _ hq 1 0x7C _).trans
      ((State.latch_path_ne _ hq 1 0x78 _).trans (State.latch_path_ne s hq 1 0x74 _))

/-- Settles O41: each read is a latch and an answer, at the offset of its own HI register. -/
theorem lowReadsLatchOnlyTheirPath : Obligations.LowReadsLatchOnlyTheirPath := by
  unfold Obligations.LowReadsLatchOnlyTheirPath
  refine ⟨?_, fun s p ns hns => tbsSecLoRead_latches s p hns, fun s p => ?_⟩
  · rintro s p i n blk off (⟨rfl, rfl, rfl, rfl⟩ | ⟨rfl, rfl, rfl, rfl⟩ | ⟨rfl, rfl, rfl, hlt, hbits⟩ |
      ⟨rfl, rfl, rfl, rfl⟩ | ⟨rfl, rfl, rfl, rfl⟩ | ⟨rfl, rfl, rfl, rfl⟩ | ⟨rfl, rfl, rfl, rfl⟩ |
      ⟨rfl, rfl, rfl, rfl⟩ | ⟨rfl, rfl, rfl, rfl⟩ | ⟨rfl, rfl, rfl, rfl⟩)
    case inr.inr.inl =>
      obtain rfl := eq_bitsBelow hlt hbits
      exact exec_latchAnswer (exec_thmSenseBadLoRead p s)
    all_goals exact exec_latchAnswer rfl
  · rw [← serialWord_zero]
    exact botSerial0Read_latches s p

end Sys2Proof.Machine
end

section
/-! PROOFS. Stride and time (O3, O8, O11, O12, O13, O14, O15, O48): what the counters of the time base, the PPS engine,
the sets of SECONDS, plans, turns, the lantern table and reclaim leave, one rule for each operation, then the clauses of
each statement. -/

namespace Sys2Proof.Machine

open Sys2Proof

/-! ## Register fields under a raised event -/

theorem refuse_rd_ne (s : State) (k : Nat) (r : LRec) (bit : Nat) {f : Fld}
    (h : fieldKey f 0 0 ≠ fieldKey rEVL_SUPPRESSED 0 0) : (refuse s k r bit).rd f = s.rd f := by
  unfold refuse
  exact (State.rd_congr (State.evt_regs _ _ _) f).trans (State.bump_rd_ne _ 1 h)

theorem accept_rd_ne (s : State) (code : Nat) (r : LRec) {f : Fld}
    (h : fieldKey f 0 0 ≠ fieldKey rEVL_SUPPRESSED 0 0) : (accept s code r).rd f = s.rd f := by
  unfold accept
  dsimp only
  split
  · rfl
  · split
    · split
      · exact refuse_rd_ne _ _ _ _ h
      · rfl
    · exact refuse_rd_ne _ _ _ _ h

/-- A raised event writes no field but the count of the records that its bucket refused. -/
theorem State.raise_rd_ne (s : State) (code : Nat) (fn : Option Nat) (l : List (Nat × Nat)) {f : Fld}
    (h : fieldKey f 0 0 ≠ fieldKey rEVL_SUPPRESSED 0 0) : (s.raise code fn l).rd f = s.rd f := by
  obtain ⟨u, hu, hr⟩ := s.raiseAt_cases (code / 256) code fn l none
  have hub : u.rd f = s.rd f := by
    rcases hu with rfl | ⟨n, rfl⟩
    · rfl
    · exact State.rd_congr (State.capture_regs _ _ _ _ _) f
  unfold State.raise
  rcases hr with hr | hr <;> rw [hr]
  · exact (accept_rd_ne u _ _ h).trans hub
  · exact hub

theorem State.ev_rd (s : State) (e : Nat × Nat) (f : Fld) : (s.ev e).rd f = s.rd f :=
  State.rd_congr (State.ev_regs s e) f

/-- A record tells the operating time alone, so an event raised while that stands is told from either state. -/
theorem State.raise_tells_hours {s t : State} (hh : t.tbs.hours = s.tbs.hours) (hs : t.tbs.hourSec = s.tbs.hourSec)
    (hp : t.tbs.pcycle = s.tbs.pcycle) (code : Nat) (f : Option Nat) (l : List (Nat × Nat)) :
    s.tells (t.raise code f l) code f l := by
  obtain ⟨r, ⟨h1, h2, h3, h4, h5, h6, h7, h8⟩, hmem⟩ := State.raise_tells (s := t) (t := t) rfl code f l
  exact ⟨r, ⟨h1, h2, h3, h4, h5, h6.trans hh, h7.trans hs, h8.trans hp⟩, hmem⟩

/-! ## Bounds of the time base (O3) and the reset values (O8) -/

/-- No command steps out of the bounds of the time base. -/
theorem clock_notMem_parts (c : Instr) : Part.clock ∉ c.parts := by
  cases c <;> exact of_decide_eq_true rfl

theorem exec_keeps_tbsOk {c : Instr} {s t : State} (h : exec c s = .next t) : s.tbs.ok → t.tbs.ok :=
  exec_frame_of_next h .clock (clock_notMem_parts c)

/-- Settles O3, by whether the queue is empty: the command at its front keeps the bounds by its frame. -/
theorem timeBaseBoundsKept : Obligations.TimeBaseBoundsKept := by
  unfold Obligations.TimeBaseBoundsKept
  intro s t hok ht
  cases hq : s.pending with
  | nil =>
    cases (step_of_pending_nil hq).symm.trans ht
    exact hok
  | cons c q => exact exec_keeps_tbsOk ((step_of_pending_cons hq).symm.trans ht) hok

theorem tbsReset_ok : Tbs.reset.ok := by
  unfold Tbs.ok
  decide

/-- Settles O8: the reset state lists its values; a function or a page that it does not list reads as FREE and as
unsealed. -/
theorem resetLeavesStatedValues : Obligations.ResetLeavesStatedValues :=
  ⟨⟨rfl, rfl, rfl, fun _ _ => rfl, rfl, rfl, rfl⟩, tbsReset_ok, rfl, fun _ => rfl, rfl⟩

/-! ## Counters (O11) -/

theorem boundary_tbs (s : State) (fw : Bool) : (boundary s fw).tbs = s.tbs :=
  (boundary_frame (List.Subset.refl _) (Frame.refl _ s)).tbs_eq

/-- The operating hours alone move with elapsed time (R57). -/
theorem hoursAfter_eq (t : Tbs) (n : Nat) :
    ∃ ns sec h due, hoursAfter t n = { t with hourNs := ns, hourSec := sec, hours := h, hourDue := due } := by
  unfold hoursAfter
  dsimp only
  split
  · exact ⟨_, _, t.hours, t.hourDue, rfl⟩
  · exact ⟨_, _, _, _, rfl⟩

/-- Less than one second more of operating time: the nanoseconds carry into the seconds, and the seconds into the hours,
which saturate (R57). -/
theorem hoursAfter_counts {t : Tbs} {n : Nat} (hns : t.hourNs < 1000000000) (hsec : t.hourSec < 3600)
    (hh : t.hours ≤ 0xFFFFFF) (hn : n < 1000000000) :
    (hoursAfter t n).hourNs < 1000000000 ∧ (hoursAfter t n).hourSec < 3600 ∧ (hoursAfter t n).hours ≤ 0xFFFFFF ∧
      (1000000000 * (hoursAfter t n).hourSec + (hoursAfter t n).hourNs) % 3600000000000 =
        (1000000000 * t.hourSec + t.hourNs + n) % 3600000000000 ∧
      (hoursAfter t n).hours = (if 1000000000 * t.hourSec + t.hourNs + n < 3600000000000 then t.hours
        else min (t.hours + 1) 0xFFFFFF) := by
  unfold hoursAfter
  dsimp only
  split
  · next hlt =>
    rw [if_pos (by omega)]
    dsimp only
    omega
  · next hge =>
    have hone : (t.hourSec + (t.hourNs + n) / 1000000000) / 3600 = 1 := by omega
    rw [if_neg (by omega), hone]
    dsimp only
    omega

/-- With no step due and nothing to slew a stride is 8,000 ns long (R38). -/
theorem strideLength_plain {t : Tbs} (hd : t.stepDue = none) (hl : t.slewLeft = 0) : strideLength t = 8000 := by
  simp [strideLength, hd, hl]

/-- The counters at a stride tick (R37, R38). -/
theorem tbsTick_counts {t : Tbs} (h : t.strideInSec < 125000) :
    (tbsTick t).clk = t.clk + t.strideLen ∧ (tbsTick t).strideInSec = (t.strideInSec + 1) % 125000 ∧
      (tbsTick t).nsInStride = 0 ∧ (tbsTick t).secondDue = (t.secondDue || decide (t.strideInSec = 124999)) ∧
      (tbsTick t).seconds = t.seconds ∧
      (t.stepDue = none → t.slewLeft = 0 → t.slewNext = 0 → (tbsTick t).strideLen = 8000) := by
  obtain ⟨ns, sec, hrs, due, he⟩ := hoursAfter_eq { t with clk := t.clk + t.strideLen } t.strideLen
  unfold tbsTick
  rw [he]
  dsimp only
  split
  · next hw =>
    have hlast : t.strideInSec = 124999 := by omega
    exact ⟨rfl, by rw [hw]; rfl, rfl, by simp [startStride, hlast], rfl, fun hd _ hn => strideLength_plain hd hn⟩
  · next hw =>
    have hlast : t.strideInSec ≠ 124999 := by omega
    have hmod : (t.strideInSec + 1) % 125000 = t.strideInSec + 1 := Nat.mod_eq_of_lt (by omega)
    exact ⟨rfl, hmod.symm, rfl, by simp [startStride, hlast], rfl, fun hd hl _ => strideLength_plain hd hl⟩

/-- A stride tick moves the operating hours by the length of the stride that ends. -/
theorem tbsTick_hours (t : Tbs) :
    (tbsTick t).hourNs = (hoursAfter t t.strideLen).hourNs ∧ (tbsTick t).hourSec = (hoursAfter t t.strideLen).hourSec ∧
      (tbsTick t).hours = (hoursAfter t t.strideLen).hours := by
  unfold tbsTick hoursAfter startStride
  dsimp only
  split <;> split <;> exact ⟨rfl, rfl, rfl⟩

/-- The counters at a step (R50). -/
theorem tbsStep_counts (t : Tbs) :
    (tbsStep t).strideInSec = 0 ∧ (tbsStep t).clk = t.clk + t.strideLen ∧ (tbsStep t).secondDue = true ∧
      (tbsStep t).stepDue = none ∧ (tbsStep t).aligned = true ∧ (tbsStep t).seconds = t.seconds := by
  obtain ⟨ns, sec, hrs, due, he⟩ := hoursAfter_eq { t with clk := t.clk + t.strideLen } t.strideLen
  unfold tbsStep
  rw [he]
  exact ⟨rfl, rfl, rfl, rfl, rfl, rfl⟩

/-- A step stride ends at the target boundary of the step that is due. -/
theorem stepStride_end {t : Tbs} {b : Nat} {e : Int} (h : stepStride t = true) (hd : t.stepDue = some (b, e)) :
    t.clk + t.strideLen = b := by
  simp only [stepStride, hd, Bool.and_eq_true, beq_iff_eq] at h
  exact h.1.1

theorem exec_strideTick {s : State} (h : stepStride s.tbs = false) (fw : Bool) :
    exec (.strideTick fw) s = .next (boundary (s.setTbs (tbsTick s.tbs)) fw) := by
  change execStrideTick fw s = _
  simp [execStrideTick, h]

theorem exec_strideTick_tbs {s : State} (h : stepStride s.tbs = false) (fw : Bool) :
    ∃ t, exec (.strideTick fw) s = .next t ∧ t.tbs = tbsTick s.tbs :=
  ⟨_, exec_strideTick h fw, boundary_tbs _ fw⟩

theorem exec_ppsStep_tbs {s : State} {b : Nat} {e : Int} (h : stepStride s.tbs = true)
    (hd : s.tbs.stepDue = some (b, e)) (fw : Bool) : ∃ t, exec (.ppsStep fw) s = .next t ∧ t.tbs = tbsStep s.tbs := by
  have hx : exec (.ppsStep fw) s = execPpsStep fw s := rfl
  rw [hx]
  unfold execPpsStep
  rw [h, hd]
  exact ⟨_, rfl, by simp [boundary_tbs]⟩

/-- The counters of a second boundary: SECONDS has advanced, and a second in HOLDOVER counts (R37, R52). -/
def secondCounted (s : State) : State :=
  if (s.setTbs (tbsSecond s.tbs)).tbs.pps = .holdover then (s.setTbs (tbsSecond s.tbs)).bump rTBS_HOLD_S 1
  else s.setTbs (tbsSecond s.tbs)

/-- What a second boundary brings about outside snuff. -/
def secondWork (s : State) : State :=
  let u := if s.tbs.pps = .free then s.setNet { s.net with datagramDue := true } else s
  let v := capacitySample (fixLantern (secondReports u))
  selfTestEnd (ledgerSecond (powerLoop (lifeFigure (if v.thm.level ≥ 1 then v.bump rTHM_THROTTLE_S 1 else v))))

theorem exec_secondBoundary {s : State} (h : s.tbs.secondDue = true) :
    exec .secondBoundary s =
      .next (if (secondCounted s).thm.snuff = .off then secondCounted s else secondWork (secondCounted s)) := by
  change execSecondBoundary s = _
  unfold execSecondBoundary
  rw [if_neg (by simp [h])]
  rfl

theorem secondCounted_keeps (s : State) : Frame [.regs] (s.setTbs (tbsSecond s.tbs)) (secondCounted s) := by
  unfold secondCounted
  exact Frame.ite (State.bump_frame (List.Subset.refl _) (Frame.refl _ _)) (Frame.refl _ _)

theorem secondWork_tbs (s : State) : (secondWork s).tbs = s.tbs := by
  have hu : Frame [.net] s (if s.tbs.pps = .free then s.setNet { s.net with datagramDue := true } else s) :=
    Frame.ite (State.setNet_frame (List.Subset.refl _) (Frame.refl _ s)) (Frame.refl _ s)
  unfold secondWork
  dsimp only
  generalize (if s.tbs.pps = .free then s.setNet { s.net with datagramDue := true } else s) = u at hu ⊢
  have hv : Frame [.stp, .fns, .map, .ldc, .net, .evl, .pages, .regs] s
      (capacitySample (fixLantern (secondReports u))) :=
    capacitySample_frame (by decide) (fixLantern_frame (by decide) (secondReports_frame (by decide)
      (hu.mono (by decide))))
  generalize capacitySample (fixLantern (secondReports u)) = v at hv ⊢
  have hw : Frame [.stp, .qmx, .fns, .map, .ldc, .rcl, .net, .thm, .evl, .pages, .regs, .cpx] s
      (selfTestEnd (ledgerSecond (powerLoop (lifeFigure
        (if v.thm.level ≥ 1 then v.bump rTHM_THROTTLE_S 1 else v))))) :=
    selfTestEnd_frame (by decide) (ledgerSecond_frame (by decide) (powerLoop_frame (by decide)
      (lifeFigure_frame (by decide) (Frame.ite (State.bump_frame (by decide) (hv.mono (by decide)))
        (hv.mono (by decide))))))
  exact hw.tbs_eq

/-- A second that is due advances SECONDS; in snuff its time base and its registers alone change. -/
theorem secondBoundary_advances {s : State} (h : s.tbs.secondDue = true) :
    ∃ t, exec .secondBoundary s = .next t ∧ t.tbs = tbsSecond s.tbs ∧
      (s.thm.snuff = .off → Frame [.tbs, .regs] s t) := by
  have hk := secondCounted_keeps s
  have hsnuff : (secondCounted s).thm.snuff = s.thm.snuff := congrArg Thm.snuff hk.thm_eq
  rw [exec_secondBoundary h, hsnuff]
  by_cases hoff : s.thm.snuff = .off
  · rw [if_pos hoff]
    have hs : Frame [.tbs, .regs] s (s.setTbs (tbsSecond s.tbs)) :=
      State.setTbs_keep (fun k => k) (by decide) (Frame.refl _ s)
    exact ⟨_, rfl, hk.tbs_eq, fun _ => hk.step (by decide) hs⟩
  · rw [if_neg hoff]
    exact ⟨_, rfl, (secondWork_tbs _).trans hk.tbs_eq, fun k => absurd k hoff⟩

/-- Settles O11, clause by clause from the counters of a tick, of a second and of a step. -/
theorem timeBaseCounts : Obligations.TimeBaseCounts := by
  unfold Obligations.TimeBaseCounts
  refine ⟨fun s fw hs hlt => ?_, fun s hd => ?_, fun s fw b e hs hd => ?_, fun s fw hs hns hsec hh hlen => ?_⟩
  · obtain ⟨t, ht, htbs⟩ := exec_strideTick_tbs hs fw
    exact ⟨t, ht, htbs ▸ tbsTick_counts hlt⟩
  · obtain ⟨t, ht, htbs, hf⟩ := secondBoundary_advances hd
    refine ⟨t, ht, ?_⟩
    rw [htbs]
    exact ⟨rfl, rfl, rfl, rfl, rfl, rfl, hf⟩
  · obtain ⟨t, ht, htbs⟩ := exec_ppsStep_tbs hs hd fw
    have hb := stepStride_end hs hd
    exact ⟨t, ht, htbs ▸ hb ▸ tbsStep_counts s.tbs⟩
  · obtain ⟨t, ht, htbs⟩ := exec_strideTick_tbs hs fw
    obtain ⟨hn, hc, ho⟩ := tbsTick_hours s.tbs
    refine ⟨t, ht, ?_⟩
    rw [htbs, hn, hc, ho]
    exact hoursAfter_counts hns hsec hh (by omega)

/-! ## PPS edges and holdover (O12) -/

/-- What the correction of a valid edge leaves alone: the elapsed time, SECONDS, the last valid edge and NET. -/
structure KeepsEdge (s u : State) : Prop where
  clk : u.tbs.clk = s.tbs.clk
  seconds : u.tbs.seconds = s.tbs.seconds
  lastEdge : u.tbs.lastEdge = s.tbs.lastEdge
  net : u.net = s.net

theorem KeepsEdge.refl (s : State) : KeepsEdge s s := ⟨rfl, rfl, rfl, rfl⟩

theorem KeepsEdge.trans {r s u : State} (h : KeepsEdge r s) (k : KeepsEdge s u) : KeepsEdge r u :=
  ⟨k.clk.trans h.clk, k.seconds.trans h.seconds, k.lastEdge.trans h.lastEdge, k.net.trans h.net⟩

theorem KeepsEdge.ite {s u v : State} {c : Prop} [Decidable c] (hu : KeepsEdge s u) (hv : KeepsEdge s v) :
    KeepsEdge s (if c then u else v) := by
  split
  · exact hu
  · exact hv

theorem ppsLock_keepsEdge (s : State) (t : Nat) (x : Bool) : KeepsEdge s (ppsLock s t x) := by
  unfold ppsLock
  dsimp only
  split <;> constructor <;> simp

theorem ppsCorrect_keepsEdge (s : State) (t : Nat) (e offset : Int) : KeepsEdge s (ppsCorrect s t e offset) := by
  unfold ppsCorrect
  dsimp only
  split
  · exact ⟨rfl, rfl, rfl, rfl⟩
  · split
    · split
      · exact .refl s
      · split
        · split
          · exact ⟨rfl, rfl, rfl, rfl⟩
          · exact .refl s
        · exact .refl s
    · exact ⟨rfl, rfl, rfl, rfl⟩

theorem ppsPhase_keepsEdge (s : State) (t : Nat) (e offset : Int) (good : Nat) :
    KeepsEdge s (ppsPhase s t e offset good) := by
  unfold ppsPhase
  split
  · exact .refl s
  · dsimp only
    split
    · exact (ppsCorrect_keepsEdge s t e offset).trans (ppsLock_keepsEdge _ t false)
    · exact ppsCorrect_keepsEdge s t e offset
  · exact ppsCorrect_keepsEdge s t e offset
  · exact (ppsLock_keepsEdge s t true).trans (ppsCorrect_keepsEdge _ t e offset)

theorem State.setTbs_keepsEdge (s : State) (x : Option Int) (n : Nat) :
    KeepsEdge s (s.setTbs { s.tbs with prevErr := x, predEdge := n }) := ⟨rfl, rfl, rfl, rfl⟩

theorem State.wr_keepsEdge (s : State) (f : Fld) (v : Nat) : KeepsEdge s (s.wr f v) := ⟨rfl, rfl, rfl, rfl⟩

theorem ppsLearn_keepsEdge (s : State) (last : Option Nat) (t : Nat) : KeepsEdge s (ppsLearn s last t) := by
  unfold ppsLearn
  split
  · extract_lets r b u v
    have hu : KeepsEdge s u := State.setTbs_keepsEdge s s.tbs.prevErr _
    have hv : KeepsEdge s v := hu.trans (State.wr_keepsEdge u _ _)
    exact KeepsEdge.ite (hv.trans (State.wr_keepsEdge v _ _)) hv
  · exact .refl s

theorem ppsCorrected_keepsEdge (s : State) (last : Option Nat) (t : Nat) (e offset : Int) (good : Nat) :
    KeepsEdge s (ppsLearn ((ppsPhase s t e offset good).setTbs
      { (ppsPhase s t e offset good).tbs with prevErr := some e, predEdge := t + 1000000000 }) last t) := by
  have hp := ppsPhase_keepsEdge s t e offset good
  generalize ppsPhase s t e offset good = u at hp ⊢
  exact (hp.trans (State.setTbs_keepsEdge u _ _)).trans (ppsLearn_keepsEdge _ last t)

/-- A valid edge becomes the last one and makes a lantern datagram due (R46, R65). -/
theorem ppsValid_leaves (s : State) (t : Nat) (e offset : Int) :
    (ppsValid s t e offset).tbs.lastEdge = some t ∧ (ppsValid s t e offset).tbs.clk = s.tbs.clk ∧
      (ppsValid s t e offset).tbs.seconds = s.tbs.seconds ∧ (ppsValid s t e offset).net.datagramDue = true := by
  unfold ppsValid
  obtain ⟨hc, hs, hl, hn⟩ := ppsCorrected_keepsEdge _ _ t e offset _
  exact ⟨hl, hc, hs, congrArg Net.datagramDue hn⟩

/-- The polarity decision moves the polarity alone. -/
theorem polarityAfter_keeps (t : Tbs) (rising : Bool) (width : Nat) :
    (polarityAfter t rising width).clk = t.clk ∧ (polarityAfter t rising width).seconds = t.seconds ∧
      (polarityAfter t rising width).lastEdge = t.lastEdge ∧ (polarityAfter t rising width).pps = t.pps ∧
      (polarityAfter t rising width).predEdge = t.predEdge := by
  unfold polarityAfter
  split
  · split <;> exact ⟨rfl, rfl, rfl, rfl, rfl⟩
  · exact ⟨rfl, rfl, rfl, rfl, rfl⟩

theorem edgeValid_congr {b c : Tbs} (hp : c.pps = b.pps) (he : c.predEdge = b.predEdge) (t a : Nat) :
    edgeValid c t a = edgeValid b t a := by
  unfold edgeValid
  rw [hp, he]

section
variable {s : State} {ns width : Nat}

theorem activeEdge_rising (h : s.rd rTBS_POL = 1) (b : Tbs) : activeEdge (s.setTbs b) = some true := if_pos h

/-- With the rising edge forced a pulse that is too short is a glitch (R46). -/
theorem exec_ppsEdge_short (hen : s.rd rTBS_EN = 1) (hpol : s.rd rTBS_POL = 1) (hns : ns < s.tbs.strideLen)
    (hw : width < 100) :
    exec (.ppsEdge true ns width) s = .next (ppsGlitch (s.setTbs (polarityAfter s.tbs true width))) := by
  change execPpsEdge true ns width s = _
  unfold execPpsEdge
  dsimp only
  rw [if_neg (by omega), activeEdge_rising hpol]
  simp [hw]

/-- With the rising edge forced a good pulse near one second after the last valid edge is valid (R46). -/
theorem exec_ppsEdge_valid {a : Nat} (hen : s.rd rTBS_EN = 1) (hpol : s.rd rTBS_POL = 1)
    (hns : ns < s.tbs.strideLen) (hw : 100 ≤ width) (hw' : width ≤ 400000000) (ha : s.tbs.lastEdge = some a)
    (hv : edgeValid s.tbs (s.tbs.clk + ns) a = true) :
    ∃ u e offset, exec (.ppsEdge true ns width) s = .next (ppsValid u (s.tbs.clk + ns) e offset) ∧
      u.tbs.clk = s.tbs.clk ∧ u.tbs.seconds = s.tbs.seconds := by
  obtain ⟨hclk, hsec, hedge, hpps, hpred⟩ := polarityAfter_keeps s.tbs true width
  have hx : exec (.ppsEdge true ns width) s = execPpsEdge true ns width s := rfl
  rw [hx]
  unfold execPpsEdge
  dsimp only
  rw [if_neg (by omega), activeEdge_rising hpol]
  dsimp only
  rw [if_neg (by simp), if_neg (by omega)]
  simp only [State.setTbs_tbs, hclk, hedge, ha]
  rw [if_pos ((edgeValid_congr hpps hpred _ a).trans hv)]
  exact ⟨_, _, _, rfl, hclk, hsec⟩

end

theorem edgeValid_of_near {b : Tbs} {t a : Nat} (h1 : a + 1000000000 ≤ t + 200000) (h2 : t ≤ a + 1000000000 + 200000)
    (hl : b.pps = .locked → b.predEdge ≤ t + 200000 ∧ t ≤ b.predEdge + 200000) : edgeValid b t a = true := by
  have hnear : nearSecond t a = true := decide_eq_true (by omega)
  unfold edgeValid
  rw [hnear]
  by_cases hp : b.pps = .locked
  · obtain ⟨hlo, hhi⟩ := hl hp
    have hpred : ((t : Int) - b.predEdge).natAbs ≤ 200000 := by omega
    simp [hpred]
  · simp [hp]

/-- The time base as HOLDOVER is entered (R51). -/
def heldOver (t : Tbs) : Tbs :=
  { t with pps := .holdover, lastEdge := none, lastAny := none, prevErr := none, goodRun := 0 }

theorem exec_ppsHoldover_lost {s : State} {a : Nat} (hl : s.tbs.pps = .locked) (ha : s.tbs.lastEdge = some a)
    (h : a + 3000000000 ≤ s.tbs.clk) :
    exec .ppsHoldover s =
      .next (((((s.setTbs (heldOver s.tbs)).wr rTBS_HOLD_S 0).wr rTBS_FREQ_OK 0).ev eTBS_PPS_LOST).raise
        lTBS_PPS_LOST none []) := by
  change execPpsHoldover s = _
  unfold execPpsHoldover
  dsimp only
  rw [if_pos (by simp [hl, ha, h])]
  rfl

/-- Settles O12, by whether an edge is a glitch or valid, and by what HOLDOVER writes. -/
theorem ppsEdgesAndHoldover : Obligations.PpsEdgesAndHoldover := by
  unfold Obligations.PpsEdgesAndHoldover
  refine ⟨fun s ns width hen hpol hns hw => ?_, fun s ns width a hen hpol hns hlo hhi ha h1 h2 hl => ?_,
    fun s a hl ha h => ?_⟩
  · obtain ⟨hclk, -, hedge, hpps, -⟩ := polarityAfter_keeps s.tbs true width
    refine ⟨_, exec_ppsEdge_short hen hpol hns hw, State.ev_shows _ (by decide), ?_⟩
    simp [ppsGlitch, hclk, hedge, hpps]
  · obtain ⟨u, e, offset, ht, hclk, hsec⟩ :=
      exec_ppsEdge_valid hen hpol hns hlo hhi ha (edgeValid_of_near h1 h2 hl)
    obtain ⟨hedge, hc, hs, hnet⟩ := ppsValid_leaves u (s.tbs.clk + ns) e offset
    exact ⟨_, ht, hedge, hc.trans hclk, hs.trans hsec, hnet⟩
  · refine ⟨_, exec_ppsHoldover_lost hl ha h, ?_, ?_, State.raise_shows (State.ev_shows _ (by decide)) _ _ _, ?_, ?_⟩
    · simp [heldOver]
    · rw [State.raise_rd_ne _ _ _ _ (by decide), State.ev_rd, State.wr_rd_ne _ _ (by decide), State.wr_rd]
      rfl
    · exact State.raise_tells_hours (by simp [heldOver]) (by simp [heldOver]) (by simp [heldOver]) _ _ _
    · simp [heldOver]

/-! ## Sets of SECONDS (O13) -/

theorem setFeaturesTimestamp_manager {s : State} {seq ns ms : Nat} {c : Cmd} (h : s.adminCmd seq = some c)
    (hc : c.fn = 0) :
    exec (.setFeaturesTimestamp seq ns ms) s =
      .next ((s.setTbs (addSet s.tbs ⟨false, ms, s.tbs.clk + ns⟩)).finish seq stOk) := by
  change execSetFeaturesTimestamp seq ns ms s = _
  unfold execSetFeaturesTimestamp
  rw [State.admin_eq h, if_neg (by simp [hc])]

theorem setFeaturesTimestamp_tenant {s : State} {seq : Nat} {c : Cmd} (h : s.adminCmd seq = some c) (hc : c.fn ≠ 0)
    (ns ms : Nat) : exec (.setFeaturesTimestamp seq ns ms) s = .next (s.finish seq stNotChangeable) := by
  change execSetFeaturesTimestamp seq ns ms s = _
  unfold execSetFeaturesTimestamp
  rw [State.admin_eq h, if_pos hc]

theorem exec_getFeaturesTimestamp {s : State} {seq : Nat} {c : Cmd} (h : s.adminCmd seq = some c) :
    exec (.getFeaturesTimestamp seq) s = .next (s.reply seq (timestampBytes s)) := by
  change execGetFeaturesTimestamp seq s = _
  unfold execGetFeaturesTimestamp
  rw [State.admin_eq h]

/-- A Timestamp set takes the place of the Timestamp set that waits, and leaves the register set. -/
theorem addSet_timestamp (t : Tbs) (ms r : Nat) :
    (addSet t ⟨false, ms, r⟩).sets = (t.sets.filter fun q => q.viaReg) ++ [⟨false, ms, r⟩] := by
  simp [addSet]

/-- A register set takes the place of the register set that waits, and leaves the Timestamp set. -/
theorem addSet_register (t : Tbs) (v r : Nat) :
    (addSet t ⟨true, v, r⟩).sets = (t.sets.filter fun q => !q.viaReg) ++ [⟨true, v, r⟩] := by
  simp [addSet]

theorem State.setUpper_upper (s : State) (p : Path) (f : Fld) (v : Nat) : (s.setUpper p f v).upper p f = v := by
  unfold State.setUpper State.upper
  dsimp only
  rw [State.setPath_path, if_pos rfl]
  exact Tbl.getD_put_self _ _ _ _

theorem State.setUpper_path_ne (s : State) {p q : Path} (h : q ≠ p) (f : Fld) (v : Nat) :
    (s.setUpper p f v).path q = s.path q := by
  unfold State.setUpper
  dsimp only
  rw [State.setPath_path, if_neg h]

/-- A write of SET_HI with GO holds the upper part for the path and arms the register set (R55, R532). -/
theorem exec_tbsSetGo {w : Dword} (hw : w.getLsbD 31 = true) (s : State) (p : Path) :
    exec (.tbsSetGo p w) s =
      .next ((s.setUpper p rTBS_SET_HI (w.toNat % 65536)).setTbs
        (addSet s.tbs ⟨true, w.toNat % 65536 * 2 ^ 32 + s.rd rTBS_SET_LO, s.tbs.clk⟩)) := by
  change execTbsSetGo p w s = _
  unfold execTbsSetGo writeTbsSetHi
  dsimp only
  rw [if_pos hw, if_pos hw, State.setUpper_upper]
  rfl

/-- The time base after the set `p`, received last, has applied at the boundary (R55, R56). -/
def setApplied (t : Tbs) (p : PendSet) : Tbs :=
  let v := setValue p t.clk
  let plain := decide (v = (t.prevSeconds.toNat + 1) % 2 ^ 48)
  { t with seconds := BitVec.ofNat 48 v, origin := 1, sets := [], atSecond := false,
           minuteDue := !plain || decide (v % 60 = 0), minutePartial := !plain }

theorem secSetRecord_tbs (s : State) (old b : Nat) (p : PendSet) (x : Bool) : (secSetRecord s old b p x).tbs = s.tbs :=
  (secSetRecord_frame (List.Subset.refl _) (Frame.refl _ s)).tbs_eq

theorem secSetRecord_shows {s : State} {e : Nat × Nat} (h : s.shows e) (old b : Nat) (p : PendSet) (x : Bool) :
    (secSetRecord s old b p x).shows e :=
  State.raise_shows h _ _ _

/-- The set received last applies at the boundary, and its event is set. -/
theorem secondsSetApply_applies {s : State} {l : List PendSet} {p : PendSet} (ha : s.tbs.atSecond = true)
    (hs : s.tbs.sets = l ++ [p]) :
    ∃ t, exec .secondsSetApply s = .next t ∧ t.tbs = setApplied s.tbs p ∧ t.shows eTBS_SEC_SET := by
  have hx : exec .secondsSetApply s = execSecondsSetApply s := rfl
  have hrev : s.tbs.sets.reverse = p :: l.reverse := by simp [hs]
  rw [hx]
  unfold execSecondsSetApply
  dsimp only
  rw [ha, hrev]
  dsimp only
  refine ⟨_, rfl, ?_⟩
  generalize hu : State.setStp _ _ = u
  have htbs : (u.ev eTBS_SEC_SET).tbs = setApplied s.tbs p := by
    rw [State.ev_tbs, ← hu]
    rfl
  have hev : (u.ev eTBS_SEC_SET).shows eTBS_SEC_SET := State.ev_shows u (by decide)
  generalize u.ev eTBS_SEC_SET = v at htbs hev ⊢
  split
  · split
    · exact ⟨htbs, hev⟩
    · exact ⟨(secSetRecord_tbs _ _ _ _ _).trans htbs, secSetRecord_shows hev _ _ _ _⟩
  · exact ⟨(secSetRecord_tbs _ _ _ _ _).trans ((secSetRecord_tbs _ _ _ _ _).trans htbs),
      secSetRecord_shows (secSetRecord_shows hev _ _ _ _) _ _ _ _⟩

theorem setValue_register {v : Nat} (h : v < 2 ^ 48) (r b : Nat) : setValue ⟨true, v, r⟩ b = v :=
  Nat.mod_eq_of_lt h

/-- A Timestamp of `ms` received `d` ns before the boundary names the nearest second, halves up (R55). -/
theorem setValue_timestamp {ms d : Nat} (hm : ms < 2 ^ 48) (hd : d ≤ 1000000000) (r : Nat) :
    setValue ⟨false, ms, r⟩ (r + d) = (2 * (ms * 1000000 + d) + 1000000000) / 2000000000 := by
  simp only [setValue, Bool.false_eq_true, if_false, Nat.add_sub_cancel_left]
  omega

/-- Settles O13, by what each command writes to the sets and what the set received last leaves. -/
theorem settingSeconds : Obligations.SettingSeconds := by
  unfold Obligations.SettingSeconds
  refine ⟨fun s seq ns ms c h hc => ?_, fun s seq ns ms c h hc => ?_, fun s seq c h => ?_, fun s p w hw => ?_,
    fun s l p ha hs => ?_, fun v r b hv => setValue_register hv r b, fun ms d r hm hd => setValue_timestamp hm hd r⟩
  · refine ⟨_, setFeaturesTimestamp_manager h hc, State.finish_ends (State.adminCmd_cmd? h) rfl rfl rfl, ?_, ?_⟩
    · rw [State.finish_tbs]
      exact addSet_timestamp _ _ _
    · rw [State.finish_tbs]
      rfl
  · exact ⟨_, setFeaturesTimestamp_tenant h hc ns ms, State.finish_ends (State.adminCmd_cmd? h) rfl rfl rfl,
      State.finish_tbs _ _ _⟩
  · exact ⟨_, exec_getFeaturesTimestamp h, State.reply_ends (State.adminCmd_cmd? h) rfl rfl rfl,
      State.reply_ans _ (State.adminCmd_cmd? h)⟩
  · exact ⟨_, exec_tbsSetGo hw s p, addSet_register _ _ _, rfl, fun q hq => State.setUpper_path_ne s hq _ _⟩
  · obtain ⟨t, ht, htbs, hev⟩ := secondsSetApply_applies ha hs
    refine ⟨t, ht, ?_⟩
    rw [htbs]
    exact ⟨rfl, rfl, rfl, rfl, hev⟩

/-! ## Minutes, hours and the firmware (O14) -/

/-- A function at a minute boundary: the record of one that exists becomes the newest of its ring, and a new one begins
(R123). -/
def latchMinute (s : State) (f : Nat) (x : Fn) : Fn :=
  if x.state = .free ∧ f ≠ 0 then x
  else { x with ring := pushRing x.ring (closeMeter x (if s.tbs.minutePartial then 1 else 0)), cur := openMeter s f 0 }

theorem exec_minuteBoundary {s : State} (h : s.tbs.minuteDue = true) :
    exec .minuteBoundary s =
      .next (((s.setFns (Tbl.map s.fns (latchMinute s))).setTbs
        { s.tbs with minuteDue := false, minutePartial := false }).ev eTBS_MINUTE) := by
  change execMinuteBoundary s = _
  unfold execMinuteBoundary
  rw [if_neg (by simp [h])]
  rfl

theorem exec_tbsHour {s : State} (h : s.tbs.hourDue = true) :
    exec .tbsHour s = .next ((s.setTbs { s.tbs with hourDue := false }).raise lTBS_HOUR none []) := by
  change execTbsHour s = _
  unfold execTbsHour
  rw [if_pos h]

theorem exec_cpxFwStopped {s : State} (hs : s.cpx.stopped = false) (hn : 125 ≤ s.cpx.still) :
    exec .cpxFwStopped s =
      .next (((s.setCpx { s.cpx with stopped := true }).ev eCPX_FW_STOPPED).raise lCPX_FW_STOPPED none []) := by
  change execCpxFwStopped s = _
  unfold execCpxFwStopped
  rw [if_neg (by simp [hs, hn])]

/-- A listed function reads as what the same change to every function makes of it. -/
theorem State.fn_of_map {s t : State} {g : Nat → Fn → Fn} {f : Nat} {x : Fn} (ht : t.fns = Tbl.map s.fns g)
    (h : Tbl.get s.fns f = some x) : t.fn f = g f x := by
  unfold State.fn Tbl.getD
  rw [ht, Tbl.get_map, h]
  rfl

/-- Settles O14, by what each command writes. -/
theorem minuteHourAndFirmwareEvents : Obligations.MinuteHourAndFirmwareEvents := by
  unfold Obligations.MinuteHourAndFirmwareEvents
  refine ⟨fun s h => ?_, fun s h => ?_, fun s hs hn => ?_⟩
  · refine ⟨_, exec_minuteBoundary h, by simp, State.ev_shows _ (by decide), fun f x hx hfree => ?_⟩
    have hl : latchMinute s f x = { x with
        ring := pushRing x.ring (closeMeter x (if s.tbs.minutePartial then 1 else 0)), cur := openMeter s f 0 } :=
      if_neg (by tauto)
    rw [State.fn_of_map (s := s) (g := latchMinute s) (by simp) hx, hl]
    exact ⟨rfl, rfl, rfl, rfl⟩
  · exact ⟨_, exec_tbsHour h, by simp, State.raise_tells_hours (by simp) (by simp) (by simp) _ _ _, by simp⟩
  · exact ⟨_, exec_cpxFwStopped hs hn, by simp, State.raise_shows (State.ev_shows _ (by decide)) _ _ _,
      State.raise_tells (by simp) _ _ _⟩

/-! ## Plans and turns (O15) -/

theorem exec_planCommit (complete : Bool) (ns : Nat) (s : State) :
    exec (.planCommit complete ns) s = execPlanCommit complete ns s := rfl

theorem plan_late {ok : Bool} {ns : Nat} (h : ok = false ∨ 7200 < ns) : ¬(ok = true ∧ ns ≤ 7200) := by
  rintro ⟨rfl, hns⟩
  exact h.elim (by decide) (by omega)

/-- A plan complete by 7,200 ns is committed (R39). -/
theorem planCommit_inTime {s : State} (hc : s.stp.committed = false) (hs : s.cpx.stopped = false) {ns : Nat}
    (hns : ns ≤ 7200) :
    exec (.planCommit true ns) s = .next ((s.wr rSTP_OVR_RUN 0).setStp
      { s.stp with committed := true, holdNext := false, planReady := true }) := by
  rw [exec_planCommit]
  unfold execPlanCommit
  rw [if_neg (by simp [hc]), if_neg (by simp [hs]), if_pos ⟨rfl, hns⟩]
  simp

/-- The counters of an overrun: the total, the run, and the longest run (R40). -/
def overrunCounted (s : State) (run : Nat) : State :=
  (((s.bump rSTP_OVR_TOTAL 1).wr rSTP_OVR_RUN run).wr rSTP_OVR_MAXRUN
    (max run (((s.bump rSTP_OVR_TOTAL 1).rd rSTP_OVR_MAXRUN)))).setStp
      { s.stp with committed := true, holdNext := true, planReady := false }

/-- A plan that is not complete by 7,200 ns is an overrun, and the third in a row is recorded (R40). -/
theorem planCommit_overrun {s : State} {ok : Bool} {ns : Nat} (hc : s.stp.committed = false)
    (hs : s.cpx.stopped = false) (hh : s.stp.stepHold = false) (hl : ok = false ∨ 7200 < ns) :
    exec (.planCommit ok ns) s = .next
      (if min (s.rd rSTP_OVR_RUN + 1) 255 = 3 then
        ((overrunCounted s (min (s.rd rSTP_OVR_RUN + 1) 255)).ev eSTP_OVERRUN_RUN).raise lSTP_OVERRUN_RUN none []
      else overrunCounted s (min (s.rd rSTP_OVR_RUN + 1) 255)) := by
  rw [exec_planCommit]
  unfold execPlanCommit
  rw [if_neg (by simp [hc]), if_neg (by simp [hs]), if_neg (plan_late hl), if_neg (by simp [hh])]
  simp [overrunCounted]

theorem overrunCounted_rd (s : State) {run : Nat} (h : run ≤ 255) : (overrunCounted s run).rd rSTP_OVR_RUN = run := by
  have hw : ((s.bump rSTP_OVR_TOTAL 1).wr rSTP_OVR_RUN run).rd rSTP_OVR_RUN = run :=
    (State.wr_rd _ _ _).trans (Nat.mod_eq_of_lt (show run < 256 by omega))
  unfold overrunCounted
  exact (State.wr_rd_ne _ _ (by decide)).trans hw

/-- With the firmware stopped, or in a step stride whose plan is late, a hold plan is committed and no overrun counts
(R41). -/
theorem planCommit_hold {s : State} {ok : Bool} {ns : Nat} (hc : s.stp.committed = false)
    (h : s.cpx.stopped = true ∨ (s.stp.stepHold = true ∧ (ok = false ∨ 7200 < ns))) :
    ∃ x : Stp, x.committed = true ∧ x.holdNext = true ∧ exec (.planCommit ok ns) s = .next (s.setStp x) := by
  rw [exec_planCommit]
  unfold execPlanCommit
  rw [if_neg (by simp [hc])]
  by_cases hs : s.cpx.stopped = true
  · rw [if_pos hs]
    exact ⟨_, rfl, rfl, rfl⟩
  · obtain ⟨hh, hl⟩ := h.resolve_left hs
    rw [if_neg hs, if_neg (plan_late hl), if_pos hh]
    exact ⟨_, rfl, rfl, rfl⟩

theorem exec_turnBoundary (s : State) : exec .turnBoundary s = execTurnBoundary s := rfl

/-- The next class opens once no window of the class goes on (R254). -/
theorem turnBoundary_opens {s : State} (hp : s.stp.turnLen ≤ s.stp.turnPos) (hc : classes s ≠ 0)
    (hw : tickDiff s s.stp.windowEnd ≤ 0) :
    exec .turnBoundary s = .next (s.setStp { s.stp with openClass := (s.stp.openClass + 1) % classes s, turnPos := 0,
                                                        turnLen := s.rd rSTP_TURN_STRIDES }) := by
  rw [exec_turnBoundary]
  unfold execTurnBoundary
  rw [if_neg (by omega), if_neg (by omega)]

/-- A window that goes on at the end of the turn stretches it by one stride (R256). -/
theorem turnBoundary_stretches {s : State} (hp : s.stp.turnPos = s.stp.turnLen) (hc : classes s ≠ 0)
    (hw : 0 < tickDiff s s.stp.windowEnd) :
    exec .turnBoundary s = .next (((s.setStp { s.stp with turnLen := s.stp.turnLen + 1 }).bump rSTP_STRETCH 1).ev
      eSTP_STRETCH) := by
  rw [exec_turnBoundary]
  unfold execTurnBoundary
  rw [if_neg (by omega), if_pos (by omega)]
  simp [hp]

/-! ## The lantern table (O15) -/

theorem exec_lanternTablePublish {s : State} {l : Lantern} (h : s.stp.lanternNext = some l) :
    exec .lanternTablePublish s = .next (s.setStp { s.stp with published := true }) := by
  change execLanternTablePublish s = _
  unfold execLanternTablePublish
  rw [h]
  rfl

theorem lanternNow_published {s : State} {l : Lantern} (hp : s.stp.published = true) (h : s.stp.lanternNext = some l) :
    lanternNow s = l := by
  unfold lanternNow
  rw [hp, h]

theorem exec_getLogPageLantern {s : State} {seq off : Nat} {c : Cmd} (h : s.adminCmd seq = some c) (ho : off ≤ 160)
    (len : Nat) :
    exec (.getLogPageLantern seq off len) s = .next (s.reply seq (slice (lanternBytes (lanternNow s)) off len)) := by
  change execGetLogPageLantern seq off len s = _
  unfold execGetLogPageLantern
  rw [State.admin_eq h, if_neg (by omega)]

/-- The state in which a datagram has been sent: its interface is awake, the datagram is counted and no longer due
(R65). -/
def datagramCounted (s : State) : State :=
  let u := (s.wake (netDomains (s.rd rSTP_PORT))).wr rSTP_DGRAM_SENT (s.rd rSTP_DGRAM_SENT + 1)
  u.setNet { u.net with datagramDue := false }

/-- The datagram of the readable table (R65). -/
def lanternPacket (s : State) : Answer :=
  .datagram (s.rd rSTP_PORT) (if s.rd rSTP_VLAN_EN = 1 then some (s.rd rSTP_VLAN_ID) else none)
    (s.rd rSTP_SRC_PORT) (s.rd rSTP_DST_PORT) (s.rd rSTP_IPV6 == 1)
    (if s.rd rSTP_IPV6 = 1 then addressOf fun k => s.rdBank rNET_IPV6k k (s.rd rSTP_PORT)
      else s.rdBank rNET_IPV4 0 (s.rd rSTP_PORT))
    (if s.rd rSTP_IPV6 = 1 then addressOf fun k => s.rdAt rSTP_IPk 0 k else s.rdAt rSTP_IPk 0 0)
    ([0x51, 0x48, 0x4C, 0x54, 0x01, 0, 0, 0] ++ leBytes 8 s.fuses.serial.toNat ++ lanternBytes (lanternNow s))

theorem exec_lanternDatagram {s : State} (he : s.rd rSTP_DGRAM_EN = 1) (hd : s.net.datagramDue = true) :
    exec .lanternDatagram s = .next ((datagramCounted s).answer (lanternPacket s)) := by
  change execLanternDatagram s = _
  unfold execLanternDatagram
  rw [if_pos (by simp [he, hd])]
  simp [datagramCounted, lanternPacket]

theorem leBytes_length (n v : Nat) : (leBytes n v).length = n := by
  induction n generalizing v with
  | zero => rfl
  | succ n ih => simp [leBytes, ih]

theorem lanternBytes_length (l : Lantern) : (lanternBytes l).length = 160 := by
  simp [lanternBytes, leBytes_length, zeros]

/-- Settles O15, by what each command writes. -/
theorem plansTurnsAndLanternTable : Obligations.PlansTurnsAndLanternTable := by
  unfold Obligations.PlansTurnsAndLanternTable
  refine ⟨fun s ns hc hs hns => ?_, fun s ok ns hc hs hh hl => ?_, fun s ok ns hc h => ?_, fun s hp hk hw => ?_,
    fun s hp hk hw => ?_, fun s l h => ?_, fun s seq off len c h ho => ?_, fun s he hd => ?_, lanternBytes_length⟩
  · refine ⟨_, planCommit_inTime hc hs hns, rfl, rfl, rfl, ?_,
      State.setStp_frame (by decide) (State.wr_frame (by decide) (Frame.refl _ s))⟩
    exact State.wr_rd s rSTP_OVR_RUN 0
  · have hx := planCommit_overrun hc hs hh hl
    refine ⟨_, hx, ?_, ?_, ?_, fun h2 => ?_, exec_frame_of_next hx⟩
    · split <;> simp [overrunCounted]
    · split <;> simp [overrunCounted]
    · have hrd := overrunCounted_rd s (Nat.min_le_right (s.rd rSTP_OVR_RUN + 1) 255)
      split
      · rw [State.raise_rd_ne _ _ _ _ (by decide), State.ev_rd, hrd]
      · exact hrd
    · rw [if_pos (by simp [h2])]
      exact ⟨State.raise_shows (State.ev_shows _ (by decide)) _ _ _,
        State.raise_tells (by simp [overrunCounted]) _ _ _⟩
  · obtain ⟨x, hcom, hnext, hx⟩ := planCommit_hold hc h
    exact ⟨_, hx, hcom, hnext, State.setStp_frame (List.Subset.refl _) (Frame.refl _ s)⟩
  · exact ⟨_, turnBoundary_opens hp hk hw, rfl, rfl, rfl, rfl⟩
  · exact ⟨_, turnBoundary_stretches hp hk hw, by simp, by simp, State.ev_shows _ (by decide)⟩
  · have hx := exec_lanternTablePublish h
    exact ⟨_, hx, lanternNow_published rfl h, exec_frame_of_next hx⟩
  · exact ⟨_, exec_getLogPageLantern h ho len, State.reply_ends (State.adminCmd_cmd? h) rfl rfl rfl,
      State.reply_ans _ (State.adminCmd_cmd? h)⟩
  · exact ⟨_, exec_lanternDatagram he hd, rfl, State.wr_rd _ _ _, rfl⟩

/-! ## Reclaim (O48) -/

theorem State.setSpan_span (s : State) (n m : Nat) (x : Span) :
    (s.setSpan n x).span m = if m = n then x else s.span m :=
  Tbl.getD_put _ _ _ _ _

@[simp] theorem State.updSpan_span_self (s : State) (n : Nat) (g : Span → Span) :
    (s.updSpan n g).span n = g (s.span n) := by
  simp [State.updSpan, State.setSpan_span]

theorem State.updSpan_span_ne (s : State) {n m : Nat} (g : Span → Span) (h : m ≠ n) :
    (s.updSpan n g).span m = s.span m := by
  simp [State.updSpan, State.setSpan_span, h]

theorem State.span_congr {s t : State} (h : t.par.spans = s.par.spans) (n : Nat) : t.span n = s.span n := by
  unfold State.span
  rw [h]

theorem Frame.span_eq {ps : List Part} {s t : State} (h : Frame ps s t) (n : Nat) (hp : Part.par ∉ ps := by decide) :
    t.span n = s.span n :=
  State.span_congr (congrArg Par.spans (h.par_eq hp)) n

theorem addCredit_keeps (s : State) (n : Nat) : Frame [.rcl] s (addCredit s n) :=
  addCredit_frame (List.Subset.refl _) (Frame.refl _ s)

theorem addCredit_lists (s : State) (n : Nat) :
    (addCredit s n).rcl.victims = s.rcl.victims ∧ (addCredit s n).rcl.wlVictim = s.rcl.wlVictim := by
  unfold addCredit
  split <;> exact ⟨rfl, rfl⟩

/-- The credit of a victim's empty rows moves neither the lists of victims nor a span's phase, and no other span. -/
theorem selectCredit_leaves (s : State) (n : Nat) :
    ((selectCredit s n).span n).phase = (s.span n).phase ∧ (selectCredit s n).rcl.victims = s.rcl.victims ∧
      (selectCredit s n).rcl.wlVictim = s.rcl.wlVictim ∧ ∀ m, m ≠ n → (selectCredit s n).span m = s.span m := by
  unfold selectCredit
  dsimp only
  generalize List.filter _ _ = empty
  obtain ⟨hv, hw⟩ := addCredit_lists
    (s.updSpan n fun x => { x with doneRows := empty, rowCopies := [] }) (empty.length * (dataMembers s * puGran s))
  have hk := addCredit_keeps
    (s.updSpan n fun x => { x with doneRows := empty, rowCopies := [] }) (empty.length * (dataMembers s * puGran s))
  refine ⟨?_, hv, hw, fun m hm => (hk.span_eq m).trans (State.updSpan_span_ne s _ hm)⟩
  rw [hk.span_eq n, State.updSpan_span_self]

theorem exec_reclaimVictimPick (s : State) : exec .reclaimVictimPick s = execReclaimVictimPick s := rfl

/-- A span leaves the spans handed over and groom's visit, is marked, and comes last among the victims (R337). -/
def victimMarked (s : State) (n : Nat) (wear : Bool) : State :=
  let u := s.setPar { s.par with handed := s.par.handed.filter (· != n),
                                 groomSpan := if s.par.groomSpan = some n then none else s.par.groomSpan }
  (u.updSpan n fun x => { x with phase := .victim }).setRcl
    { s.rcl with victims := s.rcl.victims ++ [n], wlVictim := if wear then some n else s.rcl.wlVictim }

/-- A span is taken as a victim; its empty rows give their credit (R337, R340). -/
def victimTaken (s : State) (n : Nat) (wear : Bool) : State := selectCredit (victimMarked s n wear) n

theorem victimMarked_span (s : State) (n : Nat) (wear : Bool) (m : Nat) :
    (victimMarked s n wear).span m = if m = n then { s.span n with phase := .victim } else s.span m :=
  State.setSpan_span _ _ _ _

theorem victimMarked_keeps (s : State) (n : Nat) (wear : Bool) : Frame [.par, .rcl] s (victimMarked s n wear) :=
  State.setRcl_frame (by decide) (State.updSpan_frame (by decide) (State.setPar_frame (by decide) (Frame.refl _ s)))

theorem reclaimVictimPick_takes {s : State} {l : Layout} {n : Nat} {wear : Bool} (hl : s.par.layout = some l)
    (ha : actRuns s = false) (hp : pickVictim s l = some (n, wear)) :
    exec .reclaimVictimPick s = .next
      (if wear then ((victimTaken s n wear).ev eRCL_WL).raise lRCL_WL none [] else victimTaken s n wear) := by
  rw [exec_reclaimVictimPick]
  unfold execReclaimVictimPick
  rw [hl]
  dsimp only
  rw [ha, hp]
  rfl

theorem reclaimVictimPick_none {s : State} {l : Layout} (hl : s.par.layout = some l)
    (h : actRuns s = true ∨ pickVictim s l = none) : exec .reclaimVictimPick s = .next s := by
  have hpick : (if actRuns s then none else pickVictim s l) = none := by
    rcases h with h | h <;> simp [h]
  rw [exec_reclaimVictimPick]
  unfold execReclaimVictimPick
  rw [hl]
  dsimp only
  rw [hpick]

theorem victimTaken_leaves (s : State) (n : Nat) (wear : Bool) :
    ((victimTaken s n wear).span n).phase = .victim ∧ (victimTaken s n wear).rcl.victims = s.rcl.victims ++ [n] ∧
      (wear = true → (victimTaken s n wear).rcl.wlVictim = some n) ∧
      (∀ m, m ≠ n → (victimTaken s n wear).span m = s.span m) ∧ Frame [.par, .rcl] s (victimTaken s n wear) := by
  obtain ⟨hphase, hvict, hwl, hother⟩ := selectCredit_leaves (victimMarked s n wear) n
  refine ⟨?_, hvict, fun hw => hwl.trans (if_pos hw), fun m hm => ?_,
    selectCredit_frame (by decide) (victimMarked_keeps s n wear)⟩
  · exact hphase.trans (by rw [victimMarked_span, if_pos rfl])
  · exact (hother m hm).trans (by rw [victimMarked_span, if_neg hm])

/-! ### Row copies -/

/-- A row's copies and moves wait in the write buffer; the victim counts a copy for each of its own valid granules. -/
theorem copyRow_span (s : State) (l : Layout) (n row : Nat) (bad : List (Nat × Nat)) :
    (copyRow s l n row bad).span n = { s.span n with
      rowCopies := Tbl.set (s.span n).rowCopies row (Tbl.getD (s.span n).rowCopies row 0 +
        (if rowInFlight s n row then [] else ownValids s l n row).length) } := by
  unfold copyRow
  extract_lets word vs got moves stream u v
  have hu : Frame [.wbf, .ldc] s u := by
    refine Frame.foldl (fun w x hw => ?_) (Frame.refl _ s)
    split
    · exact pushCopy_frame (by decide) hw
    · exact State.setLdc_frame (by decide) hw
  have hv : Frame [.wbf, .ldc] s v := Frame.foldl (fun w x hw => pushProxy_frame (by decide) hw) hu
  have hlen : got.length = vs.length := List.length_map _
  rw [State.updSpan_span_self, hv.span_eq n, hlen]

theorem heavyRow_keeps {s u : State} {w : BgWork} {members copies : Nat} (h : heavyRow s w members copies = some u) :
    Frame [.stp, .evl, .pages, .regs] s u :=
  heavyRow_eq_frame h (List.Subset.refl _) (Frame.refl _ s)

theorem reclaimRowCopy_copies {s u : State} {l : Layout} {n row : Nat} (hl : s.par.layout = some l)
    (hr : nextVictimRow s n = some row) (hp : (s.span n).phase = .victim)
    (hroom : copyRoom s (rowValid (s.span n) row + (rowProxies s n row).length * puGran s) = true)
    (hu : heavyRow s (if s.par.rbState = 1 ∧ s.par.rbHanded.contains n then .rebuild else .reclaim) l.d
      (rowValid (s.span n) row) = some u) (bad : List (Nat × Nat)) :
    exec (.reclaimRowCopy n bad) s = .next (copyRow u l n row bad) := by
  change execReclaimRowCopy n bad s = _
  unfold execReclaimRowCopy
  rw [hl, hr]
  dsimp only
  rw [if_neg (by simp [hp, hroom]), hu]

/-! ### Member erases -/

theorem heavyCharge_keeps {s u : State} {w : BgWork} {slots time : Nat} (h : heavyCharge s w slots time = some u) :
    Frame [.stp, .evl, .pages, .regs] s u :=
  heavyCharge_eq_frame h (List.Subset.refl _) (Frame.refl _ s)

/-- The erase of member `c` of span `n`, block `b` of die `d`, may not be placed now: its span is not RELEASED or
ERASING or waits for a read, the member is not there or has started, or its die has no room (R332). -/
def eraseBarred (s : State) (l : Layout) (n c d b : Nat) : Prop :=
  ((s.span n).phase ≠ .released ∧ (s.span n).phase ≠ .erasing) ∨ readPending s n ∨ c ≥ l.k ∨
    (s.span n).startedMembers.contains c ∨ !dieServes s d ∨ (s.fch.intentErase.any fun q => q.1 == d && q.2.1 == b) ∨
    ringRoom s d < 2 ∨ (s.die d).timeline.length ≥ 15

/-- Strides until the descriptor placed last on a die of `u` begins (R246, R255). -/
def lastStart (s u : State) (d : Nat) : Nat :=
  match (u.die d).timeline.getLast? with
  | some g => (tickDiff s g.start).toNat
  | none => 1

/-- The pair of descriptors of a member's erase is placed, its window fits and its share has credit: the member has
started (R61, R255, R332). -/
theorem spanEraseStart_starts {s u v : State} {l : Layout} {n c d b : Nat} (hl : s.par.layout = some l)
    (hm : (d, b) = member s l n c) (h : ¬eraseBarred s l n c d b)
    (hplace : placeTwo s d (erasePair s d b (eraseCount s d b + 1) 0 0 (.spanErase n d)).1
      (erasePair s d b (eraseCount s d b + 1) 0 0 (.spanErase n d)).2 = some u)
    (hfits : windowFits s d (lastStart s u d) (windowLen s d .erase) = true) (hyield : yieldRoom s d = true)
    (hv : heavyCharge (windowPlaced u d) .reclaim 192 (256 * (u.die d).profile.erase) = some v) :
    exec (.spanEraseStart n c) s =
      .next (v.updSpan n fun x => { x with phase := .erasing, startedMembers := c :: x.startedMembers }) := by
  change execSpanEraseStart n c s = _
  unfold execSpanEraseStart
  rw [hl]
  dsimp only
  rw [← hm]
  dsimp only
  unfold eraseBarred at h
  rw [if_neg h, hplace]
  dsimp only
  rw [if_neg, if_neg (by simp [hyield]), hv]
  have hno : ¬(!windowFits s d (lastStart s u d) (windowLen s d .erase)) = true := by simp [hfits]
  exact hno

/-- Settles O48, by what each command writes: the victim and its lists, the row's copies, the member that starts. -/
theorem reclaimRowsComplete : Obligations.ReclaimRowsComplete := by
  unfold Obligations.ReclaimRowsComplete
  refine ⟨fun s l n wear hl ha hp => ?_, fun s l hl h => reclaimVictimPick_none hl h,
    fun s u l n row bad hl hr hp hroom hu => ?_,
    fun s u v l n c d b hl hm hp hread hk hnew hd hblock hring htime hplace hfits hy hv => ?_⟩
  · obtain ⟨hphase, hvict, hwl, hother, hf⟩ := victimTaken_leaves s n wear
    refine ⟨_, reclaimVictimPick_takes hl ha hp, ?_⟩
    cases wear with
    | false => exact ⟨hphase, hvict, fun h => absurd h (by decide), hother, hf.map_eq, hf.fch_eq⟩
    | true =>
      have hrest : Frame [.evl, .pages, .regs] (victimTaken s n true)
          (((victimTaken s n true).ev eRCL_WL).raise lRCL_WL none []) :=
        State.raise_frame (by decide) (State.ev_frame (by decide) (Frame.refl _ _))
      rw [if_pos rfl, hrest.map_eq, hrest.fch_eq, hrest.rcl_eq, hrest.span_eq]
      refine ⟨hphase, hvict, fun _ => ⟨hwl rfl, State.raise_shows (State.ev_shows _ (by decide)) _ _ _,
        State.raise_tells ((State.ev_tbs _ _).trans hf.tbs_eq) _ _ _⟩, fun m hm => ?_, hf.map_eq, hf.fch_eq⟩
      rw [hrest.span_eq]
      exact hother m hm
  · have hx := reclaimRowCopy_copies hl hr hp hroom hu bad
    have hspan : u.span n = s.span n := (heavyRow_keeps hu).span_eq n
    refine ⟨_, hx, ?_, ?_, exec_frame_of_next hx⟩
    · rw [copyRow_span, hspan]
      simp only [Tbl.getD_set, if_true]
      split <;> rfl
    · rw [copyRow_span, hspan]
      exact hp
  · have hbar : ¬eraseBarred s l n c d b := by
      rintro (⟨h, h'⟩ | h | h | h | h | h | h | h)
      · exact hp.elim h h'
      · simp [hread] at h
      · omega
      · exact hnew (by simpa using h)
      · simp [hd] at h
      · obtain ⟨q, hq, hqd⟩ := List.any_eq_true.1 h
        exact hblock q hq (by simpa using hqd)
      · omega
      · omega
    exact ⟨_, spanEraseStart_starts hl hm hbar hplace hfits hy hv, by simp, by simp, rfl,
      fun m hmn => State.updSpan_span_ne v _ hmn⟩

end Sys2Proof.Machine
end

section
/-! PROOFS. Command intake (O9, O22-O28): how a fetched command is found, ends and leaves, one rule for each shared
operation, then the queues, doorbells, resets, features and event requests of each statement. -/

-- one proof after another: many at once would each hold a thread of the compiler
set_option Elab.async false

namespace Sys2Proof.Machine

open Sys2Proof

/-! ## How an admin or an I/O command runs -/

/-- An admin command in its order runs its action. -/
theorem exec_admin {i : Instr} {s : State} {seq : Nat} {c : Cmd} {act : Cmd → State}
    (hi : exec i s = .next (s.admin seq act)) (h : s.adminCmd seq = some c) : exec i s = .next (act c) :=
  hi.trans (congrArg _ (State.admin_eq h act))

/-- A command that the manager alone may give runs its action for function 0. -/
theorem exec_manager {i : Instr} {s : State} {seq : Nat} {c : Cmd} {act : Cmd → State}
    (hi : exec i s = .next (s.managerOnly seq act)) (h : s.adminCmd seq = some c) (h0 : c.fn = 0) :
    exec i s = .next (act c) :=
  (exec_admin hi h).trans (congrArg _ (if_neg (not_not_intro h0)))

/-- It is refused to a tenant. -/
theorem exec_manager_tenant {i : Instr} {s : State} {seq : Nat} {c : Cmd} {act : Cmd → State}
    (hi : exec i s = .next (s.managerOnly seq act)) (h : s.adminCmd seq = some c) (h0 : c.fn ≠ 0) :
    exec i s = .next (s.finish seq stInvalidOpcode) :=
  (exec_admin hi h).trans (congrArg _ (if_pos h0))

/-- A fetched I/O command of its opcode runs its action. -/
theorem exec_ioCmd {i : Instr} {s : State} {seq op : Nat} {c : Cmd} {act : Cmd → State}
    (hi : exec i s = .next (s.ioCmd seq op act)) (h : s.cmd? seq = some c) (ha : c.admin = false)
    (hb : c.body = .undecoded) (hop : c.op = op) : exec i s = .next (act c) := by
  subst hop
  exact hi.trans (congrArg _ (State.ioCmd_eq h ha hb act))

/-! ## What a completion leaves -/

section
variable {s t : State} {n : Nat} {c : Cmd} {x : Status} {d : Dword}

theorem State.complete_keeps (t : State) (n : Nat) (x : Status) (d : Dword) :
    Frame [.qmx, .fns] t (t.complete n x d) :=
  State.complete_frame (List.Subset.refl _) (Frame.refl _ t)

theorem State.finish_keeps (t : State) (n : Nat) (x : Status) : Frame [.qmx, .fns] t (t.finish n x) :=
  t.complete_keeps n x 0

/-- A command that ends in the state in which it was fetched. -/
theorem State.complete_ends_self (h : s.cmd? n = some c) (x : Status) (d : Dword) :
    s.ends (s.complete n x d) n x d :=
  State.complete_ends h rfl rfl rfl rfl rfl

theorem State.finish_ends_self (h : s.cmd? n = some c) (x : Status) : s.ends (s.finish n x) n x 0 :=
  State.complete_ends_self h x 0

/-- What has ended is no longer fetched. -/
theorem State.ends_cmd? (h : s.ends t n x d) : t.cmd? n = none := by
  obtain ⟨c, -, hc, -⟩ := h
  exact (State.cmd?_congr hc n).trans (s.dropCmd_cmd? n)

theorem State.ends_cmd?_ne (h : s.ends t n x d) {m : Nat} (hm : m ≠ n) : t.cmd? m = s.cmd? m := by
  obtain ⟨c, -, hc, -⟩ := h
  exact (State.cmd?_congr hc m).trans (s.dropCmd_cmd?_ne hm)

end

/-! ## The entry of a command that ends (O9) -/

theorem Cq.push_full {k : Cq} (h : k.full = true) (e : Cqe) :
    k.push e = { k with held := k.held ++ [e] } := by
  simp [Cq.push, h]

theorem Cq.push_room {k : Cq} (h : k.full = false) (hh : k.held = []) (e : Cqe) :
    k.push e = { k with posted := k.posted ++ [e], tail := (k.tail + 1) % k.size,
                        phase := if k.tail + 1 = k.size then !k.phase else k.phase } := by
  simp [Cq.push, h, hh]

/-- Settles O9, by where the entry goes: the queue of its submission queue, or the held completions behind it. -/
theorem endedCommandPostsItsEntry : Obligations.EndedCommandPostsItsEntry := by
  unfold Obligations.EndedCommandPostsItsEntry
  refine ⟨fun s seq c x dw0 h => ⟨State.complete_ends_self h x dw0, fun f hf => State.complete_fn_ne x dw0 h hf⟩,
    fun s seq x dw0 h => State.complete_none x dw0 h, fun k e h => ?_, fun k e h hh => ?_⟩
  · rw [Cq.push_full h]
    exact ⟨rfl, rfl⟩
  · rw [Cq.push_room h hh]
    exact ⟨rfl, rfl, hh⟩

/-! ## Abort and absent commands (O26, O27) -/

/-- A command that only ends: its entry is posted, and nothing but QMX and its function's queue and meters changes. -/
theorem State.complete_only_ends {s : State} {seq : Nat} {c : Cmd} (h : s.cmd? seq = some c) (x : Status) (d : Dword) :
    s.ends (s.complete seq x d) seq x d ∧ Frame [.qmx, .fns] s (s.complete seq x d) ∧
      ∀ g, g ≠ c.fn → (s.complete seq x d).fn g = s.fn g :=
  ⟨State.complete_ends_self h x d, State.complete_keeps _ _ _ _, fun _ hg => State.complete_fn_ne x d h hg⟩

theorem abort_answers {s : State} {seq : Nat} {c : Cmd} (h : s.adminCmd seq = some c) :
    exec (.abort seq) s = .next (if actDrains s then s else s.complete seq stOk 1) :=
  exec_admin (act := fun _ => if actDrains s then s else s.complete seq stOk 1) rfl h

/-- Settles O26, by whether an activation drains: Abort completes with "not aborted", or waits. -/
theorem abortAbortsNothing : Obligations.AbortAbortsNothing := by
  unfold Obligations.AbortAbortsNothing
  refine ⟨fun s seq c h hd => ?_, fun s seq c h hd => ?_⟩
  · obtain ⟨hends, hframe, hfn⟩ := State.complete_only_ends (State.adminCmd_cmd? h) stOk 1
    refine ⟨_, (abort_answers h).trans (by rw [hd]; rfl), hends, fun n hn => State.ends_cmd?_ne hends hn, hframe, hfn⟩
  · rw [abort_answers h, hd]
    rfl

theorem absentAdmin_answers {i : Instr} {s : State} {seq : Nat} {c : Cmd} (h : s.adminCmd seq = some c)
    (hi : exec i s = .next (absentAdmin seq s)) : exec i s = .next (s.complete seq stInvalidOpcode 0) :=
  exec_admin hi h

theorem absentIo_answers {i : Instr} {s : State} {seq op : Nat} {c : Cmd} (h : s.cmd? seq = some c)
    (ha : c.admin = false) (hb : c.body = .undecoded) (hop : c.op = op)
    (hi : exec i s = .next (absentIo seq op s)) : exec i s = .next (s.complete seq stInvalidOpcode 0) :=
  exec_ioCmd hi h ha hb hop

/-- Settles O27, by the set that the opcode is absent from; Sanitize Overwrite is there, and refused. -/
theorem absentCommandsEndWithInvalidOpcode : Obligations.AbsentCommandsEndWithInvalidOpcode := by
  unfold Obligations.AbsentCommandsEndWithInvalidOpcode
  refine ⟨fun s seq c i h hi => ?_, fun s seq c i h ha hb hi => ?_, fun s seq c h h0 => ?_⟩
  · refine ⟨_, absentAdmin_answers h ?_, State.complete_only_ends (State.adminCmd_cmd? h) _ _⟩
    simp only [List.mem_cons, List.not_mem_nil, or_false] at hi
    rcases hi with rfl | rfl | rfl | rfl | rfl <;> rfl
  · have hx : ∃ op, c.op = op ∧ exec i s = .next (absentIo seq op s) := by
      simp only [List.mem_cons, List.not_mem_nil, or_false, Prod.mk.injEq] at hi
      rcases hi with ⟨rfl, hop⟩ | ⟨rfl, hop⟩ | ⟨rfl, hop⟩ | ⟨rfl, hop⟩ | ⟨rfl, hop⟩ <;> exact ⟨_, hop, rfl⟩
    obtain ⟨op, hop, hx⟩ := hx
    exact ⟨_, absentIo_answers h ha hb hop hx, State.complete_only_ends h _ _⟩
  · obtain ⟨hends, hframe, -⟩ := State.complete_only_ends (State.adminCmd_cmd? h) stInvalidField 0
    exact ⟨_, exec_manager (c := c) (act := fun _ => s.finish seq stInvalidField) rfl h h0, hends, hframe⟩

/-! ## Parts of a function that a completion leaves -/

section
variable (t : State) (n f : Nat) (x : Status) (d : Dword)

@[simp] theorem State.complete_feats : ((t.complete n x d).fn f).feats = (t.fn f).feats := by
  obtain ⟨q, m, h⟩ := t.complete_fn n f x d
  rw [h]

@[simp] theorem State.complete_sqs : ((t.complete n x d).fn f).sqs = (t.fn f).sqs := by
  obtain ⟨q, m, h⟩ := t.complete_fn n f x d
  rw [h]

@[simp] theorem State.complete_aers : ((t.complete n x d).fn f).aers = (t.fn f).aers := by
  obtain ⟨q, m, h⟩ := t.complete_fn n f x d
  rw [h]

@[simp] theorem State.complete_events : ((t.complete n x d).fn f).events = (t.fn f).events := by
  obtain ⟨q, m, h⟩ := t.complete_fn n f x d
  rw [h]

/-- A completed command is fetched no more, and one that was gone stays gone. -/
theorem State.complete_cmd? : (t.complete n x d).cmd? n = none := by
  cases h : t.cmd? n with
  | none => rw [State.complete_none x d h, h]
  | some c => exact State.ends_cmd? (State.complete_ends_self h x d)

end

section
variable {s t : State} {n : Nat} {c : Cmd}

/-- A command ends in a state that differs from the one in which it was fetched outside QMX, functions and registers. -/
theorem State.complete_ends_of_frame {ps : List Part} (h : s.cmd? n = some c) (hf : Frame ps s t) (x : Status)
    (d : Dword)
    (hq : Part.qmx ∉ ps := by decide) (hn : Part.fns ∉ ps := by decide) (hr : Part.regs ∉ ps := by decide) :
    s.ends (t.complete n x d) n x d := by
  have hfn := State.fn_congr (hf.fns_eq hn)
  exact State.complete_ends h (by rw [hf.qmx_eq hq]) (by rw [hfn]) (by rw [hfn]) (by rw [hfn])
    (hf.rd_eq rNET_DSCP_TX hr)

/-- A command ends after a change of its own function that keeps its queues and its transport. -/
theorem State.updFn_complete_ends (h : s.cmd? n = some c) {g : Fn → Fn} (hs : (g (s.fn c.fn)).sqs = (s.fn c.fn).sqs)
    (hc : (g (s.fn c.fn)).cqs = (s.fn c.fn).cqs) (hb : (g (s.fn c.fn)).bind = (s.fn c.fn).bind) (x : Status)
    (d : Dword) :
    s.ends ((s.updFn c.fn g).complete n x d) n x d :=
  State.complete_ends h rfl (by rw [State.updFn_fn_self, hs]) (by rw [State.updFn_fn_self, hc])
    (by rw [State.updFn_fn_self, hb]) rfl

theorem State.updFn_complete_fn_ne (h : s.cmd? n = some c) (g : Fn → Fn) (x : Status) (d : Dword) {f : Nat}
    (hf : f ≠ c.fn) : ((s.updFn c.fn g).complete n x d).fn f = s.fn f :=
  (State.complete_fn_ne x d (t := s.updFn c.fn g) h hf).trans (State.setFn_fn_ne s _ hf)

/-! ## Features (O28) -/

/-- A command that stores a feature value ends with it stored, and other functions stay. -/
theorem State.feat_complete (h : s.cmd? n = some c) (k : Nat) (v : Dword) (x : Status) (d : Dword) :
    s.ends ((s.feat c.fn k v).complete n x d) n x d ∧
      Tbl.get (((s.feat c.fn k v).complete n x d).fn c.fn).feats k = some v ∧
      ∀ g, g ≠ c.fn → ((s.feat c.fn k v).complete n x d).fn g = s.fn g := by
  refine ⟨State.updFn_complete_ends h rfl rfl rfl x d, ?_, fun g hg => State.updFn_complete_fn_ne h _ x d hg⟩
  rw [State.complete_feats, State.feat, State.updFn_fn_self, Tbl.get_set_self]

end

section
variable {s : State} {seq fid : Nat} {c : Cmd}

theorem setFeatures_stores (h : s.adminCmd seq = some c) (hp : plainFeature fid = true) (v : Dword) :
    exec (.setFeatures seq fid v) s =
      .next ((s.feat c.fn fid (if fid = 5 then v &&& 0xFFFEFFFF else v)).finish seq stOk) :=
  (exec_admin (i := .setFeatures seq fid v) rfl h).trans (congrArg _ (if_pos hp))

theorem setFeatures_refuses (h : s.adminCmd seq = some c) (hp : plainFeature fid = false) (ho : ownFeature fid = false)
    (v : Dword) : exec (.setFeatures seq fid v) s = .next (s.finish seq stInvalidField) :=
  (exec_admin (i := .setFeatures seq fid v) rfl h).trans (by simp [hp, ho])

theorem plainFeature_of_mem (h : fid ∈ [0x05, 0x08, 0x09, 0x0A, 0x0B, 0x19, 0x80]) : plainFeature fid = true :=
  List.contains_iff_mem.2 h

theorem absentFeature_of_mem (h : fid ∈ [0x0C, 0x0D, 0x10, 0x11, 0x12, 0x13, 0x14, 0x16, 0x17, 0x18]) :
    plainFeature fid = false ∧ ownFeature fid = false :=
  (by decide : ∀ k ∈ [0x0C, 0x0D, 0x10, 0x11, 0x12, 0x13, 0x14, 0x16, 0x17, 0x18],
    plainFeature k = false ∧ ownFeature k = false) fid h

theorem setFeaturesVolatileWriteCache_answers (h : s.adminCmd seq = some c) (wce : Bool) :
    exec (.setFeaturesVolatileWriteCache seq wce) s =
      .next (if (s.fn c.fn).harness.tether then (s.feat c.fn 6 (if wce then 1 else 0)).finish seq stOk
        else s.finish seq stInvalidField) :=
  exec_admin (c := c) (act := fun c => if (s.fn c.fn).harness.tether then
    (s.feat c.fn 6 (if wce then 1 else 0)).finish seq stOk else s.finish seq stInvalidField) rfl h

/-- The counts that Number of Queues grants: what is asked, at most the harness queue pairs (R69). -/
def queuesGranted (s : State) (f nsq ncq : Nat) : Dword :=
  BitVec.ofNat 32 (min nsq ((s.fn f).harness.qpairs - 1) + 65536 * min ncq ((s.fn f).harness.qpairs - 1))

theorem setFeaturesNumberOfQueues_grants (h : s.adminCmd seq = some c) {nsq ncq : Nat} (hs : nsq < 65535)
    (hc : ncq < 65535) (hsq : ∀ k ∈ Tbl.keys (s.fn c.fn).sqs, k = 0) (hcq : ∀ k ∈ Tbl.keys (s.fn c.fn).cqs, k = 0) :
    exec (.setFeaturesNumberOfQueues seq nsq ncq) s =
      .next ((s.feat c.fn 7 (queuesGranted s c.fn nsq ncq)).complete seq stOk (queuesGranted s c.fn nsq ncq)) := by
  have hk : ((Tbl.keys (s.fn c.fn).sqs).any (· != 0) || (Tbl.keys (s.fn c.fn).cqs).any (· != 0)) = false := by
    simp only [Bool.or_eq_false_iff, List.any_eq_false, bne_iff_ne, ne_eq, not_not]
    exact ⟨hsq, hcq⟩
  refine (exec_admin (i := .setFeaturesNumberOfQueues seq nsq ncq) rfl h).trans ?_
  dsimp only
  rw [if_neg (by omega), hk]
  rfl

theorem State.updAssoc_keeps (s : State) (f : Nat) (g : Assoc → Assoc) : Frame [.net] s (s.updAssoc f g) :=
  State.setNet_frame (List.Subset.refl _) (Frame.refl _ s)

/-- The association of a function after a change that leaves its function and kind. -/
theorem assocOf_updAssoc {f : Nat} {a : Assoc} (h : assocOf s f = some a) (g : Assoc → Assoc)
    (hg : ∀ a, (g a).fn = a.fn ∧ (g a).discovery = a.discovery) : assocOf (s.updAssoc f g) f = some (g a) := by
  have hp : ∀ b : Assoc, ((if b.fn = f ∧ !b.discovery then g b else b).fn == f &&
      !(if b.fn = f ∧ !b.discovery then g b else b).discovery) = (b.fn == f && !b.discovery) := by
    intro b
    split
    · rw [(hg b).1, (hg b).2]
    · rfl
  have ha : a.fn = f ∧ !a.discovery := by simpa using List.find?_some h
  unfold assocOf State.updAssoc at *
  rw [State.setNet_net, List.find?_map]
  simp only [Function.comp_def, hp, h, Option.map_some, if_pos ha]

theorem assocOf_complete (t : State) (n f : Nat) (x : Status) (d : Dword) :
    assocOf (t.complete n x d) f = assocOf t f := by
  unfold assocOf
  rw [State.complete_net]

/-- Keep Alive and its timer change one association, and end. -/
theorem State.updAssoc_finish (h : s.cmd? seq = some c) {f : Nat} {a : Assoc} (ha : assocOf s f = some a)
    (g : Assoc → Assoc) (hg : ∀ a, (g a).fn = a.fn ∧ (g a).discovery = a.discovery) :
    s.ends ((s.updAssoc f g).finish seq stOk) seq stOk 0 ∧
      assocOf ((s.updAssoc f g).finish seq stOk) f = some (g a) :=
  ⟨State.complete_ends_of_frame h (s.updAssoc_keeps f g) _ _,
    (assocOf_complete _ _ _ _ _).trans (assocOf_updAssoc ha g hg)⟩

theorem setFeaturesKeepAliveTimer_sets (h : s.adminCmd seq = some c) {a : Assoc} (ha : assocOf s c.fn = some a)
    (ms : Nat) : exec (.setFeaturesKeepAliveTimer seq ms) s =
      .next ((s.updAssoc c.fn fun a => { a with kato := ms, kaClk := s.tbs.clk }).finish seq stOk) :=
  (exec_admin (i := .setFeaturesKeepAliveTimer seq ms) rfl h).trans (congrArg _ (if_neg (by simp [ha])))

theorem keepAlive_restarts (h : s.adminCmd seq = some c) {a : Assoc} (ha : assocOf s c.fn = some a) :
    exec (.keepAlive seq) s = .next ((s.updAssoc c.fn fun a => { a with kaClk := s.tbs.clk }).finish seq stOk) :=
  (exec_admin (i := .keepAlive seq) rfl h).trans (congrArg _ (if_neg (by simp [ha])))

/-- An asynchronous event changes nothing of a function but its requests, events, queues and meters. -/
theorem State.asyncEvent_feats (s : State) (f typ info page g : Nat) :
    ((s.asyncEvent f typ info page).fn g).feats = (s.fn g).feats := by
  unfold State.asyncEvent
  dsimp only
  split
  · rw [State.setFn_fn]
    split
    · next hg => rw [hg]
    · rfl
  · rw [State.complete_feats, State.setFn_fn]
    split
    · next hg => rw [hg]
    · rfl

theorem thresholdFn_feats (s : State) (f g : Nat) : ((thresholdFn s f).fn g).feats = (s.fn g).feats := by
  have hset : ∀ y, ((s.setFn f { s.fn f with tempWarn := y }).fn g).feats = (s.fn g).feats := by
    intro y
    rw [State.setFn_fn]
    split
    · next hg => rw [hg]
    · rfl
  unfold thresholdFn
  dsimp only
  split
  · rw [State.asyncEvent_feats, hset]
  · exact hset _

theorem setFeaturesTemperatureThreshold_stores (h : s.adminCmd seq = some c) {w : Dword} (hk : thresholdKey w ≠ 0) :
    exec (.setFeaturesTemperatureThreshold seq w) s =
      .next ((thresholdFn (s.feat c.fn (thresholdKey w) (w &&& 0xFFFF)) c.fn).finish seq stOk) := by
  refine (exec_admin (i := .setFeaturesTemperatureThreshold seq w) rfl h).trans ?_
  split
  · next h0 => exact absurd h0 hk
  · rfl

theorem setFeaturesTemperatureThreshold_refuses (h : s.adminCmd seq = some c) {w : Dword} (hk : thresholdKey w = 0) :
    exec (.setFeaturesTemperatureThreshold seq w) s = .next (s.finish seq stInvalidField) := by
  refine (exec_admin (i := .setFeaturesTemperatureThreshold seq w) rfl h).trans ?_
  split
  · rfl
  · next hne => exact absurd hk hne

/-- What Set Features Power Management leaves before it ends: the state is armed, and for PS3 and PS4 every target that
holds granules closes. -/
def powerArmed (s : State) (n : Nat) : State :=
  if n ≥ 3 then closeAll (s.setThm { s.thm with psArm := some n }) else s.setThm { s.thm with psArm := some n }

theorem powerArmed_keeps (s : State) (n : Nat) : Frame [.thm, .wbf] s (powerArmed s n) := by
  have h : Frame [.thm, .wbf] s (s.setThm { s.thm with psArm := some n }) :=
    State.setThm_frame (by decide) (Frame.refl _ s)
  unfold powerArmed
  split
  · exact closeAll_frame (by decide) h
  · exact h

theorem powerArmed_thm (s : State) (n : Nat) : (powerArmed s n).thm = { s.thm with psArm := some n } := by
  unfold powerArmed
  split
  · exact (closeAll_frame (List.Subset.refl _) (Frame.refl _ _)).thm_eq
  · rfl

theorem setFeaturesPowerManagement_arms (h : s.adminCmd seq = some c) (h0 : c.fn = 0) {w : Dword}
    (hw : w.toNat % 32 ≤ 4) (hn : w.toNat % 32 = 4 → s.net.assocs = []) :
    exec (.setFeaturesPowerManagement seq w) s = .next ((powerArmed s (w.toNat % 32)).finish seq stOk) := by
  refine (exec_admin (i := .setFeaturesPowerManagement seq w) rfl h).trans ?_
  dsimp only
  rw [if_neg (by simp [h0]), if_neg]
  · rfl
  · rintro (hgt | ⟨h4, hne⟩)
    · omega
    · simp [hn h4] at hne

theorem setFeaturesPowerManagement_tenant (h : s.adminCmd seq = some c) (h0 : c.fn ≠ 0) (w : Dword) :
    exec (.setFeaturesPowerManagement seq w) s = .next (s.finish seq stNotChangeable) :=
  (exec_admin (i := .setFeaturesPowerManagement seq w) rfl h).trans (congrArg _ (if_pos h0))

/-- Get Features ends with the value in Dword 0, or with Invalid Field. -/
theorem getFeatures_answers (h : s.adminCmd seq = some c) (hf : fid ≠ 0x0E) (dw11 : Dword) :
    exec (.getFeatures seq fid dw11) s =
      .next (match featureValue s c.fn (if fid = 4 then thresholdKey dw11 else fid % 256) with
        | some v => s.complete seq stOk v
        | none => s.finish seq stInvalidField) :=
  (exec_admin (i := .getFeatures seq fid dw11) rfl h).trans (congrArg _ (if_neg hf))

/-! ## Asynchronous event requests (O28) -/

theorem asynchronousEventRequest_limit (h : s.adminCmd seq = some c) (hl : 8 ≤ (s.fn c.fn).aers.length) :
    exec (.asynchronousEventRequest seq) s = .next (s.finish seq stAerLimit) :=
  (exec_admin (i := .asynchronousEventRequest seq) rfl h).trans (congrArg _ (if_pos hl))

theorem asynchronousEventRequest_takes (h : s.adminCmd seq = some c) (hl : (s.fn c.fn).aers.length < 8)
    {typ info page : Nat} {r : List (Nat × Nat × Nat)} (he : (s.fn c.fn).events = (typ, info, page) :: r) :
    exec (.asynchronousEventRequest seq) s =
      .next ((s.updFn c.fn fun x => { x with events := r }).complete seq stOk (aenDword typ info page)) := by
  refine (exec_admin (i := .asynchronousEventRequest seq) rfl h).trans ?_
  dsimp only
  rw [if_neg (by omega), he]
  rfl

theorem asynchronousEventRequest_waits (h : s.adminCmd seq = some c) (hl : (s.fn c.fn).aers.length < 8)
    (he : (s.fn c.fn).events = []) (ha : s.evl.aenWaiting = false) :
    exec (.asynchronousEventRequest seq) s =
      .next ((s.updFn c.fn fun x => { x with aers := x.aers ++ [seq] }).hold seq) := by
  refine (exec_admin (i := .asynchronousEventRequest seq) rfl h).trans ?_
  dsimp only
  rw [if_neg (by omega)]
  split
  · next he' => rw [he] at he'; cases he'
  · rw [if_neg (by simp [ha])]
    rfl

end

/-- Settles O28, command by command: a feature is stored or refused, an event request ends or waits, and a keep-alive
restarts the timer of its association. -/
theorem featuresEventsAndKeepAlive : Obligations.FeaturesEventsAndKeepAlive := by
  unfold Obligations.FeaturesEventsAndKeepAlive
  refine ⟨fun s seq fid v c h hf => ?_, fun s seq fid v c h hf => ?_, fun s seq v c h => ?_, fun s seq wce c h => ?_,
    fun s seq nsq ncq c h hs hc hsq hcq => ?_, fun s seq ms c a h ha => ?_, fun s seq w c h hk => ?_,
    fun s seq w c h hk => ?_, fun s seq w c h h0 hw hn => ?_, fun s seq w c h h0 => ?_,
    fun s seq fid dw11 c h hf => ⟨fun v hv => ?_, fun hv => ?_⟩, fun s seq c h hl => ?_,
    fun s seq typ info page r c h hl he => ?_, fun s seq c h hl he ha => ?_, fun s seq c a h ha => ?_⟩
  all_goals have hc? := State.adminCmd_cmd? h
  · exact ⟨_, setFeatures_stores h (plainFeature_of_mem hf) v, State.feat_complete hc? _ _ _ _⟩
  · obtain ⟨hp, ho⟩ := absentFeature_of_mem hf
    exact ⟨_, setFeatures_refuses h hp ho v, State.finish_ends_self hc? _, State.complete_feats ..⟩
  · obtain ⟨hends, hfeat, -⟩ := State.feat_complete hc? 1 (v &&& 7) stOk 0
    exact ⟨_, exec_admin (i := .setFeaturesArbitration seq v) rfl h, hends, hfeat⟩
  · refine ⟨_, setFeaturesVolatileWriteCache_answers h wce, fun ht => ?_, fun ht => ?_⟩
    · obtain ⟨hends, hfeat, -⟩ := State.feat_complete hc? 6 (if wce then 1 else 0) stOk 0
      rw [if_pos ht]
      exact ⟨hends, hfeat⟩
    · rw [if_neg (by simp [ht])]
      exact ⟨State.finish_ends_self hc? _, State.complete_feats ..⟩
  · obtain ⟨hends, hfeat, -⟩ := State.feat_complete hc? 7 (queuesGranted s c.fn nsq ncq) stOk
      (queuesGranted s c.fn nsq ncq)
    exact ⟨_, _, setFeaturesNumberOfQueues_grants h hs hc hsq hcq, hends, rfl, hfeat⟩
  · exact ⟨_, setFeaturesKeepAliveTimer_sets h ha ms, State.updAssoc_finish hc? ha _ fun _ => ⟨rfl, rfl⟩⟩
  · refine ⟨_, setFeaturesTemperatureThreshold_stores h hk, ?_, State.complete_cmd? _ _ _ _⟩
    rw [State.finish, State.complete_feats, thresholdFn_feats, State.feat, State.updFn_fn_self, Tbl.get_set_self]
  · exact ⟨_, setFeaturesTemperatureThreshold_refuses h hk, State.finish_ends_self hc? _, State.complete_feats ..⟩
  · refine ⟨_, setFeaturesPowerManagement_arms h h0 hw hn,
      State.complete_ends_of_frame hc? (powerArmed_keeps s _) _ _, ?_, ?_⟩ <;>
      rw [State.finish_thm, powerArmed_thm]
  · exact ⟨_, setFeaturesPowerManagement_tenant h h0 w, State.finish_ends_self hc? _, State.finish_thm ..⟩
  · refine ⟨_, (getFeatures_answers h hf dw11).trans (by rw [hv]), ?_⟩
    obtain ⟨hends, hframe, -⟩ := State.complete_only_ends hc? stOk v
    exact ⟨hends, hframe⟩
  · refine ⟨_, (getFeatures_answers h hf dw11).trans (by rw [hv]), ?_⟩
    obtain ⟨hends, hframe, -⟩ := State.complete_only_ends hc? stInvalidField 0
    exact ⟨hends, hframe⟩
  · exact ⟨_, asynchronousEventRequest_limit h hl, State.finish_ends_self hc? _, State.complete_aers ..⟩
  · refine ⟨_, asynchronousEventRequest_takes h hl he, State.updFn_complete_ends hc? rfl rfl rfl _ _, ?_⟩
    rw [State.complete_events, State.updFn_fn_self]
  · refine ⟨_, asynchronousEventRequest_waits h hl he ha, State.hold_waits hc? rfl, ?_, fun g hg => ?_⟩
    · exact congrArg Fn.aers (State.updFn_fn_self s c.fn fun x => { x with aers := x.aers ++ [seq] })
    · exact State.setFn_fn_ne s _ hg
  · exact ⟨_, keepAlive_restarts h ha, State.updAssoc_finish hc? ha _ fun _ => ⟨rfl, rfl⟩⟩

/-! ## Queues of a function under a completion -/

theorem Tbl.mem_of_get {α : Type} {t : Tbl α} {k : Nat} {v : α} (h : Tbl.get t k = some v) : (k, v) ∈ t := by
  induction t with
  | nil => cases h
  | cons p r ih =>
    simp only [Tbl.get] at h
    split at h
    · next hk =>
      cases h
      exact hk ▸ List.mem_cons_self
    · exact List.mem_cons_of_mem _ (ih h)

section
variable {s t : State} {n : Nat} {c : Cmd}

/-- A completion ends its command where the command's own submission queue and that queue's completion queue read as in
the state in which it was fetched. -/
theorem State.complete_ends_of_queue (h : s.cmd? n = some c) (hq : t.qmx.cmds = s.qmx.cmds)
    (hs : ∀ q, Tbl.get (s.fn c.fn).sqs c.sqid = some q → Tbl.get (t.fn c.fn).sqs c.sqid = some q ∧
      Tbl.get (t.fn c.fn).cqs q.cqid = Tbl.get (s.fn c.fn).cqs q.cqid)
    (hb : (t.fn c.fn).bind = (s.fn c.fn).bind) (hd : t.rd rNET_DSCP_TX = s.rd rNET_DSCP_TX) (x : Status) (d : Dword) :
    s.ends (t.complete n x d) n x d := by
  have ht : t.cmd? n = some c := (State.cmd?_congr hq n).trans h
  obtain ⟨c', hc', hcmds, hpost⟩ := State.complete_ends_self ht x d
  cases hc'.symm.trans ht
  refine ⟨c, h, hcmds.trans (by rw [hq]), fun q k h1 h2 => ?_⟩
  obtain ⟨h3, h4⟩ := hs q h1
  have hp := hpost q k h3 (h4.trans h2)
  have he : entryOf t q c x d = entryOf s q c x d := by
    unfold entryOf
    rw [hb, hd]
  exact hp.trans (by rw [he])

/-- The same after a change of the command's own function. -/
theorem State.updFn_complete_ends_of_queue (h : s.cmd? n = some c) {g : Fn → Fn}
    (hs : ∀ q, Tbl.get (s.fn c.fn).sqs c.sqid = some q → Tbl.get (g (s.fn c.fn)).sqs c.sqid = some q ∧
      Tbl.get (g (s.fn c.fn)).cqs q.cqid = Tbl.get (s.fn c.fn).cqs q.cqid)
    (hb : (g (s.fn c.fn)).bind = (s.fn c.fn).bind) (x : Status) (d : Dword) :
    s.ends ((s.updFn c.fn g).complete n x d) n x d :=
  State.complete_ends_of_queue (t := s.updFn c.fn g) h rfl
    (by rw [State.updFn_fn_self]; exact hs) (by rw [State.updFn_fn_self, hb]) rfl x d

/-- A completion reaches one completion queue of its function alone. -/
theorem State.complete_cqs_get_ne (h : t.cmd? n = some c) {k : Nat}
    (hk : ∀ q, Tbl.get (t.fn c.fn).sqs c.sqid = some q → q.cqid ≠ k) (x : Status) (d : Dword) :
    Tbl.get ((t.complete n x d).fn c.fn).cqs k = Tbl.get (t.fn c.fn).cqs k := by
  obtain ⟨m, e⟩ := State.endCmd_fn t c x d 0 c.fn
  have hx : t.complete n x d = t.endCmd c x d 0 := by unfold State.complete; rw [h]
  rw [hx, e]
  cases hs : Tbl.get (t.fn c.fn).sqs c.sqid with
  | none =>
    have hp : t.postWide c x d 0 = t := by unfold State.postWide; dsimp only; rw [hs]
    rw [hp]
  | some q =>
    obtain ⟨m', e'⟩ := State.postWide_fn x d 0 hs
    rw [e']
    dsimp only
    rw [Tbl.get_upd, if_neg (hk q hs).symm]

/-- Nothing but the list of fetched commands changes in QMX. -/
theorem State.complete_qmx (t : State) (n : Nat) (x : Status) (d : Dword) :
    (t.complete n x d).qmx = { t.qmx with cmds := t.qmx.cmds.filter fun c => c.seq != n } := by
  cases h : t.cmd? n with
  | none =>
    have hf : (t.qmx.cmds.filter fun c => c.seq != n) = t.qmx.cmds :=
      List.filter_eq_self.2 fun c hc => by
        have := List.find?_eq_none.1 h c hc
        simpa using this
    rw [State.complete_none x d h, hf]
  | some c =>
    have hc := State.cmd?_seq h
    unfold State.complete State.endCmd
    rw [h]
    dsimp only
    split <;> simp [State.dropCmd, hc]

end

/-! ## I/O queues (O23) -/

section
variable {s : State} {seq qid : Nat} {c : Cmd}

theorem createIoSq_creates (h : s.adminCmd seq = some c) (hn : (s.fn c.fn).bind ≠ .network) (h1 : 1 ≤ qid)
    (hp : qid ≤ (s.fn c.fn).harness.qpairs) (hfree : Tbl.get (s.fn c.fn).sqs qid = none) {size cqid : Nat}
    (hlo : 2 ≤ size) (hhi : size ≤ 4096) (h0 : cqid ≠ 0) {k : Cq} (hk : Tbl.get (s.fn c.fn).cqs cqid = some k)
    (base : Nat) (pc : Bool) :
    exec (.createIoSq seq qid size base cqid pc) s =
      .next ((s.updFn c.fn fun x => { x with sqs := Tbl.set x.sqs qid ⟨base, size, cqid, 0, 0, pc⟩ }).finish
        seq stOk) := by
  refine (exec_admin (i := .createIoSq seq qid size base cqid pc) rfl h).trans ?_
  dsimp only
  rw [if_neg hn, if_neg, if_neg (by omega), if_neg]
  · rfl
  · simp [h0, hk]
  · simp [hfree, show qid ≠ 0 by omega, hp]

theorem createIoCq_creates (h : s.adminCmd seq = some c) (hn : (s.fn c.fn).bind ≠ .network) (h1 : 1 ≤ qid)
    (hp : qid ≤ (s.fn c.fn).harness.qpairs) (hfree : Tbl.get (s.fn c.fn).cqs qid = none) {size vector : Nat}
    (hlo : 2 ≤ size) (hhi : size ≤ 4096) (hv : vector ≤ 2047) (base : Nat) (pc ien : Bool) :
    exec (.createIoCq seq qid size base vector pc ien) s =
      .next ((s.updFn c.fn fun x => { x with
        cqs := Tbl.set x.cqs qid ⟨base, size, 0, 0, true, pc, ien, vector, [], [], 0, false⟩ }).finish seq stOk) := by
  refine (exec_admin (i := .createIoCq seq qid size base vector pc ien) rfl h).trans ?_
  dsimp only
  rw [if_neg hn, if_neg, if_neg (by omega), if_neg (by omega)]
  · rfl
  · simp [hfree, show qid ≠ 0 by omega, hp]

theorem deleteIoSq_waits (h : s.adminCmd seq = some c) (h0 : qid ≠ 0) {q : Sq}
    (hq : Tbl.get (s.fn c.fn).sqs qid = some q) (ha : actDrains s = false) :
    exec (.deleteIoSq seq qid) s =
      .next ((s.hold seq).setQmx { (s.hold seq).qmx with sqDel := s.qmx.sqDel ++ [(c.fn, qid, seq)] }) := by
  refine (exec_admin (i := .deleteIoSq seq qid) rfl h).trans ?_
  rw [if_neg (by simp [ha]), if_neg (by simp [h0, hq])]
  rfl

theorem deleteIoCq_deletes (h : s.adminCmd seq = some c) (h0 : qid ≠ 0) {k : Cq}
    (hk : Tbl.get (s.fn c.fn).cqs qid = some k) (hs : ∀ p ∈ (s.fn c.fn).sqs, p.2.cqid ≠ qid) :
    exec (.deleteIoCq seq qid) s =
      .next ((s.updFn c.fn fun x => { x with cqs := Tbl.erase x.cqs qid }).finish seq stOk) := by
  refine (exec_admin (i := .deleteIoCq seq qid) rfl h).trans ?_
  dsimp only
  rw [if_neg (by simp [h0, hk]), if_neg (by simpa using hs)]
  rfl

/-- On the network Connect makes the queues. -/
theorem createIo_network (h : s.adminCmd seq = some c) (hn : (s.fn c.fn).bind = .network) {i : Instr}
    {size base cqid vector : Nat} {pc ien : Bool}
    (hi : i = .createIoSq seq qid size base cqid pc ∨ i = .createIoCq seq qid size base vector pc ien) :
    exec i s = .next (s.finish seq stInvalidOpcode) := by
  rcases hi with rfl | rfl
  · exact (exec_admin (i := .createIoSq seq qid size base cqid pc) rfl h).trans (congrArg _ (if_pos hn))
  · exact (exec_admin (i := .createIoCq seq qid size base vector pc ien) rfl h).trans (congrArg _ (if_pos hn))

end

/-! ## Deletion of submission queues (O23) -/

/-- From `s` to `t` commands only leave QMX, Deletes only begin to wait, and none is taken anew. -/
structure OnlyLeaves (s t : State) : Prop where
  cmds : t.qmx.cmds ⊆ s.qmx.cmds
  waits : s.qmx.sqWait ⊆ t.qmx.sqWait
  sqDel : t.qmx.sqDel = s.qmx.sqDel

theorem OnlyLeaves.refl (s : State) : OnlyLeaves s s := ⟨List.Subset.refl _, List.Subset.refl _, rfl⟩

theorem OnlyLeaves.trans {r s t : State} (h : OnlyLeaves r s) (k : OnlyLeaves s t) : OnlyLeaves r t :=
  ⟨List.Subset.trans k.cmds h.cmds, List.Subset.trans h.waits k.waits, k.sqDel.trans h.sqDel⟩

theorem OnlyLeaves.of_qmx {s t : State} (h : t.qmx = s.qmx) : OnlyLeaves s t := by
  refine ⟨?_, ?_, ?_⟩ <;> rw [h] <;> exact List.Subset.refl _

theorem OnlyLeaves.cmd?_none {s t : State} (h : OnlyLeaves s t) {n : Nat} (hn : s.cmd? n = none) : t.cmd? n = none :=
  List.find?_eq_none.2 fun c hc => List.find?_eq_none.1 hn c (h.cmds hc)

theorem State.complete_onlyLeaves (t : State) (n : Nat) (x : Status) (d : Dword) : OnlyLeaves t (t.complete n x d) := by
  refine ⟨?_, ?_, ?_⟩ <;> rw [State.complete_qmx]
  · exact List.filter_subset_self _
  · exact List.Subset.refl _

theorem State.complete_cmds_seq (t : State) (n : Nat) (x : Status) (d : Dword) :
    ∀ c ∈ (t.complete n x d).qmx.cmds, c.seq ≠ n := by
  rw [State.complete_qmx]
  exact fun c hc => by simpa using (List.mem_filter.1 hc).2

theorem releaseCmd_keeps (s : State) (c : Cmd) : Frame [.stp, .map, .wbf, .par, .pages, .regs] s (releaseCmd s c) :=
  releaseCmd_frame (List.Subset.refl _) (Frame.refl _ s)

/-- Commands that are aborted one after another: each is gone, and the submission queues stay. -/
theorem abortAll_leaves (x : Status) (l : List Cmd) (s : State) :
    OnlyLeaves s (l.foldl (fun s c => (releaseCmd s c).finish c.seq x) s) ∧
      (∀ c ∈ (l.foldl (fun s c => (releaseCmd s c).finish c.seq x) s).qmx.cmds, ∀ d ∈ l, c.seq ≠ d.seq) ∧
      ∀ g, ((l.foldl (fun s c => (releaseCmd s c).finish c.seq x) s).fn g).sqs = (s.fn g).sqs := by
  induction l generalizing s with
  | nil => exact ⟨OnlyLeaves.refl s, by simp, fun _ => rfl⟩
  | cons d l ih =>
    obtain ⟨hl, hseq, hsqs⟩ := ih ((releaseCmd s d).finish d.seq x)
    have hr := releaseCmd_keeps s d
    refine ⟨((OnlyLeaves.of_qmx hr.qmx_eq).trans (State.complete_onlyLeaves _ _ _ _)).trans hl, fun c hc e he => ?_,
      fun g => ?_⟩
    · rcases List.mem_cons.1 he with rfl | he
      · exact State.complete_cmds_seq _ _ _ _ c (hl.cmds hc)
      · exact hseq c hc e he
    · rw [List.foldl_cons, hsqs, State.finish, State.complete_sqs, State.fn_congr hr.fns_eq]

/-- The I/O commands of a submission queue. -/
def cmdsOfSq (s : State) (f qid : Nat) : List Cmd := s.qmx.cmds.filter fun c => c.fn == f && c.sqid == qid && !c.admin

/-- The state of a submission queue's deletion before its Delete ends: its commands are aborted and the queue is
gone. -/
def sqGone (s : State) (f qid : Nat) : State :=
  (((cmdsOfSq s f qid).foldl (fun s c => (releaseCmd s c).finish c.seq stSqDeletion) s).bump rQMX_SQDEL
    (cmdsOfSq s f qid).length).updFn f fun x => { x with sqs := Tbl.erase x.sqs qid }

/-- A deleted queue's Delete waits for aborted completions that are held, or ends. -/
theorem deleteSq_cases (s : State) (f qid seq : Nat) :
    (∃ cqid, deleteSq s f qid seq =
      (sqGone s f qid).setQmx { (sqGone s f qid).qmx with
        sqWait := (sqGone s f qid).qmx.sqWait ++ [(f, cqid, qid, seq)] }) ∨
    deleteSq s f qid seq = (sqGone s f qid).finish seq stOk := by
  unfold deleteSq
  dsimp only
  split
  · exact Or.inl ⟨_, rfl⟩
  · exact Or.inr rfl

theorem sqGone_leaves (s : State) (f qid : Nat) :
    OnlyLeaves s (sqGone s f qid) ∧
      (∀ c ∈ (sqGone s f qid).qmx.cmds, c.admin = false → c.fn = f → c.sqid ≠ qid) ∧
      ∀ g, ((sqGone s f qid).fn g).sqs = if g = f then Tbl.erase (s.fn f).sqs qid else (s.fn g).sqs := by
  obtain ⟨hl, hseq, hsqs⟩ := abortAll_leaves stSqDeletion (cmdsOfSq s f qid) s
  have hq : (sqGone s f qid).qmx = ((cmdsOfSq s f qid).foldl
    (fun s c => (releaseCmd s c).finish c.seq stSqDeletion) s).qmx := by simp [sqGone]
  refine ⟨hl.trans (OnlyLeaves.of_qmx hq), fun c hc ha hf hs => ?_, fun g => ?_⟩
  · rw [hq] at hc
    exact hseq c hc c (List.mem_filter.2 ⟨hl.cmds hc, by simp [ha, hf, hs]⟩) rfl
  · unfold sqGone
    rw [State.updFn_fn]
    split
    · dsimp only
      rw [State.fn_congr (State.bump_fns _ _ _), hsqs]
    · rw [State.fn_congr (State.bump_fns _ _ _), hsqs]

/-- One deletion: the queue and its I/O commands are gone, its Delete ended or waits, and other queues stay. -/
theorem deleteSq_leaves (s : State) (f qid seq : Nat) :
    OnlyLeaves s (deleteSq s f qid seq) ∧
      (∀ c ∈ (deleteSq s f qid seq).qmx.cmds, c.admin = false → c.fn = f → c.sqid ≠ qid) ∧
      (∀ g, ((deleteSq s f qid seq).fn g).sqs = if g = f then Tbl.erase (s.fn f).sqs qid else (s.fn g).sqs) ∧
      ((deleteSq s f qid seq).cmd? seq = none ∨ ∃ cqid, (f, cqid, qid, seq) ∈ (deleteSq s f qid seq).qmx.sqWait) := by
  obtain ⟨hl, hio, hsqs⟩ := sqGone_leaves s f qid
  rcases deleteSq_cases s f qid seq with ⟨cqid, he⟩ | he <;> rw [he]
  · exact ⟨hl.trans ⟨List.Subset.refl _, List.subset_append_left _ _, rfl⟩, hio, hsqs,
      Or.inr ⟨cqid, List.mem_append_right _ List.mem_cons_self⟩⟩
  · have hc := State.complete_onlyLeaves (sqGone s f qid) seq stOk 0
    exact ⟨hl.trans hc, fun c hm => hio c (hc.cmds hm), fun g => (State.complete_sqs ..).trans (hsqs g),
      Or.inl (State.complete_cmd? ..)⟩

/-- What the deletions of a list leave: each queue of the list as `deleteSq_leaves` says, and every other queue. -/
theorem deleteSqs_leave (l : List (Nat × Nat × Nat)) (s : State) :
    OnlyLeaves s (l.foldl (fun s d => deleteSq s d.1 d.2.1 d.2.2) s) ∧
      (∀ d ∈ l, Tbl.get ((l.foldl (fun s d => deleteSq s d.1 d.2.1 d.2.2) s).fn d.1).sqs d.2.1 = none ∧
        (∀ c ∈ (l.foldl (fun s d => deleteSq s d.1 d.2.1 d.2.2) s).qmx.cmds, c.admin = false → c.fn = d.1 →
          c.sqid ≠ d.2.1) ∧
        ((l.foldl (fun s d => deleteSq s d.1 d.2.1 d.2.2) s).cmd? d.2.2 = none ∨
          ∃ w ∈ (l.foldl (fun s d => deleteSq s d.1 d.2.1 d.2.2) s).qmx.sqWait,
            w.1 = d.1 ∧ w.2.2.1 = d.2.1 ∧ w.2.2.2 = d.2.2)) ∧
      ∀ f q, Tbl.get ((l.foldl (fun s d => deleteSq s d.1 d.2.1 d.2.2) s).fn f).sqs q =
        if ∃ d ∈ l, d.1 = f ∧ d.2.1 = q then none else Tbl.get (s.fn f).sqs q := by
  induction l generalizing s with
  | nil => exact ⟨OnlyLeaves.refl s, by simp, by simp⟩
  | cons e l ih =>
    obtain ⟨hl, hd, hget⟩ := ih (deleteSq s e.1 e.2.1 e.2.2)
    obtain ⟨kl, kio, ksqs, kend⟩ := deleteSq_leaves s e.1 e.2.1 e.2.2
    have hall : ∀ f q, Tbl.get (((e :: l).foldl (fun s d => deleteSq s d.1 d.2.1 d.2.2) s).fn f).sqs q =
        if ∃ d ∈ e :: l, d.1 = f ∧ d.2.1 = q then none else Tbl.get (s.fn f).sqs q := by
      intro f q
      rw [List.foldl_cons, hget]
      by_cases hin : ∃ d ∈ l, d.1 = f ∧ d.2.1 = q
      · obtain ⟨d, hm, hp⟩ := hin
        rw [if_pos ⟨d, hm, hp⟩, if_pos ⟨d, List.mem_cons_of_mem _ hm, hp⟩]
      · rw [if_neg hin, ksqs]
        by_cases he : e.1 = f ∧ e.2.1 = q
        · have hin' : ∃ d ∈ e :: l, d.1 = f ∧ d.2.1 = q := ⟨e, List.mem_cons_self, he⟩
          rw [if_pos hin', if_pos he.1.symm, Tbl.get_erase, if_pos he.2.symm]
        · have hno : ¬∃ d ∈ e :: l, d.1 = f ∧ d.2.1 = q := by
            rintro ⟨d, hm, hp⟩
            rcases List.mem_cons.1 hm with rfl | hm
            · exact he hp
            · exact hin ⟨d, hm, hp⟩
          rw [if_neg hno]
          split
          · next hf => rw [Tbl.get_erase, if_neg fun hq => he ⟨hf.symm, hq.symm⟩, hf]
          · rfl
    refine ⟨kl.trans hl, fun d hm => ⟨(hall d.1 d.2.1).trans (if_pos ⟨d, hm, rfl, rfl⟩), ?_⟩, hall⟩
    rcases List.mem_cons.1 hm with rfl | hm
    · refine ⟨fun c hc => kio c (hl.cmds hc), kend.imp hl.cmd?_none ?_⟩
      rintro ⟨cqid, hw⟩
      exact ⟨_, hl.waits hw, rfl, rfl, rfl⟩
    · exact (hd d hm).2

/-- Settles O23, command by command: a queue that is created stands empty, a deleted one is gone, and a Delete of a
submission queue waits for the boundary. -/
theorem queueCommandsComplete : Obligations.QueueCommandsComplete := by
  unfold Obligations.QueueCommandsComplete
  refine ⟨fun s seq qid size base cqid pc c k h hn h1 hp hfree hlo hhi h0 hk => ?_,
    fun s seq qid size base vector pc ien c h hn h1 hp hfree hlo hhi hv hown => ?_,
    fun s seq qid c q h h0 hq ha => ?_, fun s seq qid c k h h0 hk hs => ?_, fun s => ?_,
    fun s seq c i qid size base cqid vector pc ien h hn hi => ?_⟩
  · have hc? := State.adminCmd_cmd? h
    refine ⟨_, createIoSq_creates h hn h1 hp hfree hlo hhi h0 hk base pc,
      State.updFn_complete_ends_of_queue hc? (fun q hq => ?_) rfl _ _, ?_, fun q hq => ?_,
      fun g hg => State.updFn_complete_fn_ne hc? _ _ _ hg⟩
    · have hne : c.sqid ≠ qid := fun e => by rw [e, hfree] at hq; cases hq
      exact ⟨by rw [Tbl.get_set, if_neg hne, hq], rfl⟩
    · rw [State.finish, State.complete_sqs, State.updFn_fn_self, Tbl.get_set_self]
    · rw [State.finish, State.complete_sqs, State.updFn_fn_self, Tbl.get_set, if_neg hq]
  · have hc? := State.adminCmd_cmd? h
    refine ⟨_, ⟨base, size, 0, 0, true, pc, ien, vector, [], [], 0, false⟩,
      createIoCq_creates h hn h1 hp hfree hlo hhi hv base pc ien,
      State.updFn_complete_ends_of_queue hc? (fun q hq => ?_) rfl _ _, ?_, rfl, rfl, rfl, rfl, rfl, rfl, rfl, rfl, rfl,
      rfl, fun g hg => State.updFn_complete_fn_ne hc? _ _ _ hg⟩
    · exact ⟨hq, by rw [Tbl.get_set, if_neg (hown q hq)]⟩
    · refine (State.complete_cqs_get_ne (t := s.updFn c.fn _) hc? (fun q hq => ?_) _ _).trans ?_
      · rw [State.updFn_fn_self] at hq
        exact hown q hq
      · rw [State.updFn_fn_self, Tbl.get_set_self]
  · exact ⟨_, deleteIoSq_waits h h0 hq ha, State.waits_then (State.hold_waits (State.adminCmd_cmd? h) rfl) rfl, rfl,
      rfl⟩
  · have hc? := State.adminCmd_cmd? h
    have hown : ∀ q, Tbl.get (s.fn c.fn).sqs c.sqid = some q → q.cqid ≠ qid := fun q hq =>
      hs _ (Tbl.mem_of_get hq)
    refine ⟨_, deleteIoCq_deletes h h0 hk hs, State.updFn_complete_ends_of_queue hc? (fun q hq => ?_) rfl _ _, ?_, ?_,
      fun g hg => State.updFn_complete_fn_ne hc? _ _ _ hg⟩
    · exact ⟨hq, by rw [Tbl.get_erase, if_neg (hown q hq)]⟩
    · refine (State.complete_cqs_get_ne (t := s.updFn c.fn _) hc? (fun q hq => ?_) _ _).trans ?_
      · rw [State.updFn_fn_self] at hq
        exact hown q hq
      · rw [State.updFn_fn_self, Tbl.get_erase, if_pos rfl]
    · rw [State.finish, State.complete_sqs, State.updFn_fn_self]
  · obtain ⟨hl, hd, hget⟩ := deleteSqs_leave s.qmx.sqDel (s.setQmx { s.qmx with sqDel := [] })
    refine ⟨_, rfl, hl.sqDel, hd, fun f q hno => (hget f q).trans (if_neg ?_)⟩
    rintro ⟨d, hm, hf, hq⟩
    exact (hno d hm).elim (· hf) (· hq)
  · obtain ⟨hends, hframe, -⟩ := State.complete_only_ends (State.adminCmd_cmd? h) stInvalidOpcode 0
    exact ⟨_, createIo_network h hn hi, hends, hframe⟩

/-! ## Doorbells (O24) -/

theorem ringWake_keeps (s : State) : Frame [.thm, .pages] s (ringWake s) :=
  ringWake_frame (List.Subset.refl _) (Frame.refl _ s)

theorem leaveLowPower_keeps (s : State) : Frame [.thm, .pages] s (leaveLowPower s) :=
  leaveLowPower_frame (List.Subset.refl _) (Frame.refl _ s)

theorem Frame.fn_eq {ps : List Part} {s t : State} (h : Frame ps s t) (f : Nat) (hp : Part.fns ∉ ps := by decide) :
    t.fn f = s.fn f :=
  State.fn_congr (h.fns_eq hp) f

section
variable {s : State} {f qid val : Nat}

theorem sqTailDoorbell_sets (hb : ideBlocked s f = false) {q : Sq} (hq : Tbl.get (s.fn f).sqs qid = some q)
    (hv : val < q.size) : exec (.sqTailDoorbell f qid val) s =
      .next (ringWake ((s.wake (requestDomains s f)).setFn f
        { s.fn f with sqs := Tbl.set (s.fn f).sqs qid { q with tail := val } })) := by
  change Host.Outcome.next _ = _
  rw [if_neg (by simp [hb]), hq]
  dsimp only
  rw [if_neg (by omega)]

theorem cqHeadDoorbell_releases (hb : ideBlocked s f = false) {q : Cq} (hq : Tbl.get (s.fn f).cqs qid = some q)
    (hv : val < q.size) (hn : (val + q.size - q.head) % q.size ≤ q.posted.length) :
    exec (.cqHeadDoorbell f qid val) s =
      .next (ringWake (releaseCq (s.wake (requestDomains s f)) f qid val ((val + q.size - q.head) % q.size) q)) := by
  change Host.Outcome.next _ = _
  rw [if_neg (by simp [hb]), hq]
  dsimp only
  rw [if_neg (by omega)]

/-- A doorbell of an Insecure stream is dropped. -/
theorem doorbell_blocked (hb : ideBlocked s f = true) {i : Instr}
    (hi : i = .sqTailDoorbell f qid val ∨ i = .cqHeadDoorbell f qid val) : exec i s = .next s := by
  rcases hi with rfl | rfl <;> exact congrArg _ (if_pos hb)

end

/-- Held completions move into the queue in their order, and the head stays. -/
theorem Cq.drain_moves (n : Nat) (q : Cq) :
    (q.drain n).posted ++ (q.drain n).held = q.posted ++ q.held ∧ (q.drain n).head = q.head ∧
      (q.held.length ≤ n → (q.drain n).held = [] ∨ (q.drain n).full = true) := by
  induction n generalizing q with
  | zero => exact ⟨rfl, rfl, fun h => Or.inl (List.length_eq_zero_iff.1 (Nat.le_zero.1 h))⟩
  | succ n ih =>
    unfold Cq.drain
    split
    · next hh => exact ⟨rfl, rfl, fun _ => Or.inl hh⟩
    · next e r hh =>
      split
      · next hf => exact ⟨rfl, rfl, fun _ => Or.inr hf⟩
      · next hf =>
        have hroom : ({ q with held := [] } : Cq).full = false := Bool.eq_false_iff.2 hf
        dsimp only
        rw [Cq.push_room hroom rfl]
        obtain ⟨h1, h2, h3⟩ := ih _
        refine ⟨h1.trans ?_, h2, fun hl => h3 ?_⟩
        · rw [hh]
          simp
        · rw [hh] at hl
          simpa using hl

theorem Cq.release_moves (q : Cq) (val n : Nat) :
    (q.release val n).posted ++ (q.release val n).held = q.posted.drop n ++ q.held ∧ (q.release val n).head = val ∧
      ((q.release val n).held = [] ∨ (q.release val n).full = true) := by
  obtain ⟨h1, h2, h3⟩ := Cq.drain_moves q.held.length { q with head := val, posted := q.posted.drop n }
  exact ⟨h1, h2, h3 (Nat.le_refl _)⟩

/-- Entries that are written count in meters alone. -/
theorem entriesWritten_fn (l : List Cqe) (f : Nat) (s : State) :
    (l.foldl (fun s e => s.entryWritten f e) s).qmx = s.qmx ∧
      (∀ g, ∃ m, (l.foldl (fun s e => s.entryWritten f e) s).fn g = { s.fn g with cur := m }) ∧
      ∀ g, g ≠ f → (l.foldl (fun s e => s.entryWritten f e) s).fn g = s.fn g := by
  induction l generalizing s with
  | nil => exact ⟨rfl, fun g => ⟨_, rfl⟩, fun _ _ => rfl⟩
  | cons e l ih =>
    obtain ⟨h1, h2, h3⟩ := ih (s.entryWritten f e)
    refine ⟨h1.trans (State.entryWritten_frame (List.Subset.refl _) (Frame.refl [.fns] s)).qmx_eq, fun g => ?_,
      fun g hg => (h3 g hg).trans (State.entryWritten_fn_ne s e hg)⟩
    obtain ⟨m, hm⟩ := h2 g
    obtain ⟨m', hm'⟩ := State.entryWritten_fn s f g e
    exact ⟨m, hm.trans (by rw [hm'])⟩

/-- A release of entries before the Deletes that waited for it end: the queue as released, with the meters of the
entries that were written in their place. -/
def cqReleased (s : State) (f qid val n : Nat) (q : Cq) : State :=
  (q.held.take (q.held.length - (q.release val n).held.length)).foldl (fun s e => s.entryWritten f e)
    (s.updFn f fun x => { x with cqs := Tbl.set x.cqs qid (q.release val n) })

theorem releaseCq_eq (s : State) (f qid val n : Nat) (q : Cq) :
    releaseCq s f qid val n q = deletesDone (cqReleased s f qid val n q) f := rfl

theorem cqReleased_leaves (s : State) (f qid val n : Nat) (q : Cq) :
    (cqReleased s f qid val n q).qmx = s.qmx ∧
      (∃ m, (cqReleased s f qid val n q).fn f =
        { s.fn f with cqs := Tbl.set (s.fn f).cqs qid (q.release val n), cur := m }) ∧
      ∀ g, g ≠ f → (cqReleased s f qid val n q).fn g = s.fn g := by
  obtain ⟨h1, h2, h3⟩ := entriesWritten_fn (q.held.take (q.held.length - (q.release val n).held.length)) f
    (s.updFn f fun x => { x with cqs := Tbl.set x.cqs qid (q.release val n) })
  obtain ⟨m, hm⟩ := h2 f
  rw [State.updFn_fn_self] at hm
  exact ⟨h1, ⟨m, hm⟩, fun g hg => (h3 g hg).trans (State.setFn_fn_ne s _ hg)⟩

theorem deletesDone_none {s : State} {f : Nat} (h : ∀ w ∈ s.qmx.sqWait, w.1 ≠ f) : deletesDone s f = s := by
  unfold deletesDone
  rw [List.filter_eq_nil_iff.2 fun w hw => by simpa using h w hw]
  rfl

/-- The one Delete that waits ends once the queue holds no completion of its submission queue. -/
theorem deletesDone_one {s : State} {f qid sq seq : Nat} {k : Cq} (hw : s.qmx.sqWait = [(f, qid, sq, seq)])
    (hk : Tbl.get (s.fn f).cqs qid = some k) (hh : ∀ e ∈ k.held, e.sqid ≠ sq) :
    deletesDone s f = (s.setQmx { s.qmx with sqWait := [] }).finish seq stOk := by
  have hno : (k.held.any fun e => e.sqid == sq) = false := by simpa using hh
  unfold deletesDone
  simp [hw, hk, hno]

/-- A bad doorbell before its event is given to the function: counted and shown. -/
def badDoorbellCounted (s : State) : State := (s.bump rQMX_BADDB 1).ev eQMX_BADDB

theorem badDoorbellCounted_keeps (s : State) : Frame [.pages, .regs] s (badDoorbellCounted s) :=
  State.ev_frame (by decide) (State.bump_frame (by decide) (Frame.refl _ s))

theorem badDoorbell_eq (s : State) (f info : Nat) :
    badDoorbell s f info = (badDoorbellCounted s).asyncEvent f 0 info 1 := rfl

theorem asyncEvent_waits {s : State} {f : Nat} (h : (s.fn f).aers = []) (typ info page : Nat) :
    s.asyncEvent f typ info page = s.updFn f fun x => { x with events := x.events ++ [(typ, info, page)] } := by
  unfold State.asyncEvent
  dsimp only
  split
  · rfl
  · next he => rw [h] at he; cases he

theorem asyncEvent_completes {s : State} {f a : Nat} {r : List Nat} (h : (s.fn f).aers = a :: r)
    (typ info page : Nat) : s.asyncEvent f typ info page =
      (s.updFn f fun x => { x with aers := r }).complete a stOk (aenDword typ info page) := by
  unfold State.asyncEvent
  dsimp only
  split
  · next he => rw [h] at he; cases he
  · next he =>
    cases h.symm.trans he
    rfl

/-- Each bad doorbell is answered alike, with the information of its case. -/
theorem doorbell_bad {s : State} {f qid val info : Nat} {i : Instr} (hb : ideBlocked s f = false)
    (hi : (i = .sqTailDoorbell f qid val ∧ Tbl.get (s.fn f).sqs qid = none ∧ info = 0) ∨
      (i = .cqHeadDoorbell f qid val ∧ Tbl.get (s.fn f).cqs qid = none ∧ info = 0) ∨
      (∃ q, i = .sqTailDoorbell f qid val ∧ Tbl.get (s.fn f).sqs qid = some q ∧ q.size ≤ val ∧ info = 1) ∨
      (∃ q, i = .cqHeadDoorbell f qid val ∧ Tbl.get (s.fn f).cqs qid = some q ∧
        (q.size ≤ val ∨ q.posted.length < (val + q.size - q.head) % q.size) ∧ info = 1)) :
    exec i s = .next (badDoorbell (s.wake (requestDomains s f)) f info) := by
  rcases hi with ⟨rfl, hq, rfl⟩ | ⟨rfl, hq, rfl⟩ | ⟨q, rfl, hq, hv, rfl⟩ | ⟨q, rfl, hq, hv, rfl⟩ <;>
    change Host.Outcome.next _ = _ <;> rw [if_neg (by simp [hb]), hq] <;> dsimp only
  · rw [if_pos hv]
  · rw [if_pos hv]

theorem doorbellTaken_keeps (s : State) (f : Nat) :
    Frame [.gate, .pages, .regs] s (badDoorbellCounted (s.wake (requestDomains s f))) :=
  ((s.wake_keeps _).mono (by decide)).trans ((badDoorbellCounted_keeps _).mono (by decide))

theorem badDoorbellCounted_shows (s : State) : (badDoorbellCounted s).shows eQMX_BADDB :=
  State.ev_shows _ (by decide)

theorem badDoorbellCounted_dscp (s : State) : (badDoorbellCounted s).rd rNET_DSCP_TX = s.rd rNET_DSCP_TX :=
  (State.ev_rd _ _ _).trans (State.bump_rd_ne s 1 (by decide))

/-- Settles O24, by the doorbell and its value: a queue moves, or the write is counted and reported. -/
theorem doorbellsTakeEffect : Obligations.DoorbellsTakeEffect := by
  unfold Obligations.DoorbellsTakeEffect
  refine ⟨fun s f qid val q hb hq hv => ?_, fun s f qid val q hb hq hv hn hw => ?_,
    fun s f qid val sq seq q c hb hq hv hn hw hc hh => ?_,
    fun s f qid val info i hb hi => ⟨fun ha => ?_, fun a r c ha hc hf => ?_⟩,
    fun s f qid val i hb hi => doorbell_blocked hb hi⟩
  · have hr := ringWake_keeps ((s.wake (requestDomains s f)).setFn f
      { s.fn f with sqs := Tbl.set (s.fn f).sqs qid { q with tail := val } })
    refine ⟨_, sqTailDoorbell_sets hb hq hv, ?_, ?_, fun k hk => ?_, ?_, fun g hg => ?_⟩
    · rw [hr.fn_eq, State.setFn_fn_self, Tbl.get_set_self]
    · rw [hr.fn_eq, State.setFn_fn_self]
    · rw [hr.fn_eq, State.setFn_fn_self, Tbl.get_set, if_neg hk]
    · rw [hr.qmx_eq, State.setFn_qmx, (s.wake_keeps _).qmx_eq]
    · rw [hr.fn_eq, State.setFn_fn_ne _ _ hg, (s.wake_keeps _).fn_eq]
  · have hk := s.wake_keeps (requestDomains s f)
    obtain ⟨hqmx, ⟨m, hfn⟩, hne⟩ := cqReleased_leaves (s.wake (requestDomains s f)) f qid val
      ((val + q.size - q.head) % q.size) q
    obtain ⟨hmoves, hhead, hfull⟩ := q.release_moves val ((val + q.size - q.head) % q.size)
    have hx := cqHeadDoorbell_releases hb hq hv hn
    rw [releaseCq_eq, deletesDone_none (by rw [hqmx, hk.qmx_eq]; exact hw)] at hx
    rw [hk.fn_eq] at hfn
    have hr := ringWake_keeps (cqReleased (s.wake (requestDomains s f)) f qid val
      ((val + q.size - q.head) % q.size) q)
    refine ⟨_, _, hx, ?_, hhead, hmoves, hfull, fun j hj => ?_, ?_, ?_, fun g hg => ?_⟩
    · rw [hr.fn_eq, hfn, Tbl.get_set_self]
    · rw [hr.fn_eq, hfn, Tbl.get_set, if_neg hj]
    · rw [hr.fn_eq, hfn]
    · rw [hr.qmx_eq, hqmx, hk.qmx_eq]
    · rw [hr.fn_eq, hne g hg, hk.fn_eq]
  · have hk := s.wake_keeps (requestDomains s f)
    obtain ⟨hqmx, ⟨m, hfn⟩, -⟩ := cqReleased_leaves (s.wake (requestDomains s f)) f qid val
      ((val + q.size - q.head) % q.size) q
    have hx := cqHeadDoorbell_releases hb hq hv hn
    rw [releaseCq_eq, deletesDone_one (by rw [hqmx, hk.qmx_eq]; exact hw)
      (by rw [hfn]; exact Tbl.get_set_self _ _ _) hh] at hx
    refine ⟨_, hx, ?_, ?_⟩
    · rw [State.cmd?_congr (congrArg Qmx.cmds (ringWake_keeps _).qmx_eq)]
      exact State.complete_cmd? _ _ _ _
    · rw [(ringWake_keeps _).qmx_eq, State.finish, State.complete_qmx]
      rfl
  · have hk := doorbellTaken_keeps s f
    have hx := doorbell_bad hb hi
    rw [badDoorbell_eq, asyncEvent_waits (by rw [hk.fn_eq]; exact ha)] at hx
    refine ⟨_, hx, ?_, ?_, ?_, ?_, ?_, fun g hg => ?_⟩
    · rw [State.updFn_fn_self, hk.fn_eq]
    · rw [State.updFn_fn_self, hk.fn_eq]
    · exact State.shows_congr (badDoorbellCounted_shows _) (State.updFn_pages _ _ _)
    · rw [State.updFn_fn_self, hk.fn_eq]
    · rw [State.updFn_qmx, hk.qmx_eq]
    · rw [State.updFn, State.setFn_fn_ne _ _ hg, hk.fn_eq]
  · subst hf
    have hk := doorbellTaken_keeps s c.fn
    have hx := doorbell_bad hb hi
    rw [badDoorbell_eq, asyncEvent_completes (by rw [hk.fn_eq]; exact ha)] at hx
    have hc' : (badDoorbellCounted (s.wake (requestDomains s c.fn))).cmd? a = some c :=
      (State.cmd?_congr (congrArg Qmx.cmds hk.qmx_eq) a).trans hc
    refine ⟨_, hx, ?_, ?_, ?_, ?_, ?_, fun g hg => ?_⟩
    · rw [State.complete_sqs, State.updFn_fn_self, hk.fn_eq]
    · exact State.shows_congr (badDoorbellCounted_shows _)
        ((State.complete_pages _ _ _ _).trans (State.updFn_pages _ _ _))
    · rw [State.complete_aers, State.updFn_fn_self]
    · rw [State.complete_events, State.updFn_fn_self, hk.fn_eq]
    · have hd : (badDoorbellCounted (s.wake (requestDomains s c.fn))).rd rNET_DSCP_TX = s.rd rNET_DSCP_TX :=
        (badDoorbellCounted_dscp _).trans ((s.wake_keeps _).rd_eq _)
      have hdw : aenDword 0 info 1 = BitVec.ofNat 32 (256 * info + 65536) := by
        unfold aenDword
        rw [Nat.zero_add]
      rw [hdw]
      exact State.complete_ends hc (by rw [State.updFn_qmx, hk.qmx_eq]) (by rw [State.updFn_fn_self, hk.fn_eq])
        (by rw [State.updFn_fn_self, hk.fn_eq]) (by rw [State.updFn_fn_self, hk.fn_eq]) hd
    · exact (State.updFn_complete_fn_ne hc' _ _ _ hg).trans (hk.fn_eq g)

/-! ## Fetch, enable and full queues (O25) -/

/-- QMX with the entry that a fetch takes. -/
def entryFetched (s : State) (f qid cid op n : Nat) (q : Sq) : State :=
  let u := takeEntry (s.wake (requestDomains s f)) f qid cid q
  u.setQmx { u.qmx with cmds := u.qmx.cmds ++ [newCmd s f qid cid (fetchGait s f qid cid) op n],
                        nextSeq := s.qmx.nextSeq + 1 }

/-- The token levels that an I/O command of opcode `op` on `n` blocks leaves its function (R114). -/
def tokensTaken (op n : Nat) (x : Fn) : Fn :=
  { x with iopsLevel := if x.harness.iopsMax = 0 then x.iopsLevel else x.iopsLevel - 65536,
           bwLevel := if x.harness.bwMax = 0 then x.bwLevel else x.bwLevel - (transferBytes op n * 65536 : Nat) }

section
variable {s : State} {f qid cid op n : Nat} {q : Sq}

/-- COMMAND_FETCH of the function and the queue in turn, with an entry waiting. -/
theorem commandFetch_inTurn (hq : Tbl.get (s.fn f).sqs qid = some q) (hf : fnInTurn s = some f)
    (hv : queueInTurn s f = some qid) (he : entryWaits s f qid cid q = true) (op n : Nat) :
    exec (.commandFetch f qid cid op n) s = .next (
      if qid ≠ 0 ∧ !harnessRoom s f op n (fetchGait s f qid cid) then s.setFn f { s.fn f with passed := true }
      else if qid = 0 then
        (if (entryFetched s f qid cid op n q).thm.ps = 4 then leaveLowPower (entryFetched s f qid cid op n q)
        else entryFetched s f qid cid op n q)
      else leaveLowPower ((entryFetched s f qid cid op n q).updFn f (tokensTaken op n))) := by
  change Host.Outcome.next _ = _
  dsimp only
  rw [hq]
  dsimp only
  rw [if_neg (by simp [hf, hv, he])]
  rfl

theorem entryFetched_qmx (s : State) (f qid cid op n : Nat) (q : Sq) : (entryFetched s f qid cid op n q).qmx =
    { s.qmx with cmds := s.qmx.cmds ++ [newCmd s f qid cid (fetchGait s f qid cid) op n],
                 nextSeq := s.qmx.nextSeq + 1 } := by
  have hk : (takeEntry (s.wake (requestDomains s f)) f qid cid q).qmx = s.qmx :=
    (takeEntry_frame (by decide) (State.wake_frame (ps := [.gate, .fns, .net]) (by decide) (Frame.refl _ s))).qmx_eq
  unfold entryFetched
  dsimp only
  rw [State.setQmx_qmx, hk]

theorem entryFetched_fn (s : State) (f qid cid op n : Nat) (q : Sq) :
    ((entryFetched s f qid cid op n q).fn f).sqs = Tbl.set (s.fn f).sqs qid { q with head := (q.head + 1) % q.size } ∧
      ((entryFetched s f qid cid op n q).fn f).cqs = (s.fn f).cqs ∧
      ∀ g, g ≠ f → (entryFetched s f qid cid op n q).fn g = s.fn g := by
  have hk := s.wake_keeps (requestDomains s f)
  have hfn : ∀ g, (entryFetched s f qid cid op n q).fn g =
      (takeEntry (s.wake (requestDomains s f)) f qid cid q).fn g := fun g => rfl
  have htake : ∀ g, (takeEntry (s.wake (requestDomains s f)) f qid cid q).fn g =
      ((s.wake (requestDomains s f)).updFn f fun x =>
        { x with sqs := Tbl.set x.sqs qid { q with head := (q.head + 1) % q.size },
                 visit := x.visit.take qid (Tbl.getD x.feats 1 0).toNat,
                 fetched := x.fetched + 2 ^ 20 / max x.harness.slotShare 1 }).fn g := fun g => rfl
  refine ⟨?_, ?_, fun g hg => ?_⟩
  · rw [hfn, htake, State.updFn_fn_self, hk.fn_eq]
  · rw [hfn, htake, State.updFn_fn_self, hk.fn_eq]
  · rw [hfn, htake, State.updFn_fn, if_neg hg, hk.fn_eq]

/-- With room, or for an admin command, the entry is fetched; other functions and other queues stay. -/
theorem commandFetch_takes (hq : Tbl.get (s.fn f).sqs qid = some q) (hf : fnInTurn s = some f)
    (hv : queueInTurn s f = some qid) (he : entryWaits s f qid cid q = true)
    (hr : qid = 0 ∨ harnessRoom s f op n (fetchGait s f qid cid) = true) :
    ∃ t, exec (.commandFetch f qid cid op n) s = .next t ∧ t.qmx = (entryFetched s f qid cid op n q).qmx ∧
      (t.fn f).sqs = Tbl.set (s.fn f).sqs qid { q with head := (q.head + 1) % q.size } ∧
      (t.fn f).cqs = (s.fn f).cqs ∧ ∀ g, g ≠ f → t.fn g = s.fn g := by
  obtain ⟨hsqs, hcqs, hne⟩ := entryFetched_fn s f qid cid op n q
  have hx := commandFetch_inTurn hq hf hv he op n
  rw [if_neg (by rcases hr with h | h <;> simp [h])] at hx
  refine ⟨_, hx, ?_⟩
  split
  · split
    · have hk := leaveLowPower_keeps (entryFetched s f qid cid op n q)
      exact ⟨hk.qmx_eq, by rw [hk.fn_eq, hsqs], by rw [hk.fn_eq, hcqs], fun g hg => by rw [hk.fn_eq, hne g hg]⟩
    · exact ⟨rfl, hsqs, hcqs, hne⟩
  · have hk := leaveLowPower_keeps ((entryFetched s f qid cid op n q).updFn f (tokensTaken op n))
    refine ⟨hk.qmx_eq, ?_, ?_, fun g hg => ?_⟩
    · rw [hk.fn_eq, State.updFn_fn_self]
      exact hsqs
    · rw [hk.fn_eq, State.updFn_fn_self]
      exact hcqs
    · rw [hk.fn_eq, State.updFn_fn, if_neg hg, hne g hg]

theorem commandFetch_passes (hq : Tbl.get (s.fn f).sqs qid = some q) (hf : fnInTurn s = some f)
    (hv : queueInTurn s f = some qid) (he : entryWaits s f qid cid q = true) (h0 : qid ≠ 0)
    (hr : harnessRoom s f op n (fetchGait s f qid cid) = false) :
    exec (.commandFetch f qid cid op n) s = .next (s.setFn f { s.fn f with passed := true }) :=
  (commandFetch_inTurn hq hf hv he op n).trans (congrArg _ (if_pos ⟨h0, by simp [hr]⟩))

end

section
variable {s : State} {f p asqs acqs asq acq : Nat}

/-- CC_EN_SET of a disabled function by a port that may own it. -/
theorem ccEnSet_enables (hr : reached s f (some p) = true) (h1 : (s.fn f).flr = none) (h2 : (s.fn f).flrArm = none)
    (h3 : (s.fn f).offline = false) (h4 : (s.fn f).enabled = false)
    (ho : f = 0 → s.hif.dual = true → s.hif.owner = none ∨ s.hif.owner = some p) :
    exec (.ccEnSet f (some p) asqs acqs asq acq) s = .next (enableFn
      (if f = 0 ∧ s.hif.dual then (s.wake (requestDomains s f)).setHif { s.hif with owner := some p }
        else s.wake (requestDomains s f)) f true asqs acqs asq acq) := by
  have hk := s.wake_keeps (requestDomains s f)
  change Host.Outcome.next _ = _
  rw [if_neg (by simp [hr]), if_neg (by simp [h1, h2, h3]), if_neg, if_neg (by simp [h4]), hk.hif_eq]
  · rfl
  · rw [hk.hif_eq]
    rintro ⟨h0, hd, -, hs, hn⟩
    rcases ho h0 hd with h | h <;> rw [h] at hs hn
    · cases hs
    · exact hn rfl

theorem ccEnSet_denied {r : Nat} (hr : reached s 0 (some p) = true) (h1 : (s.fn 0).flr = none)
    (h2 : (s.fn 0).flrArm = none) (h3 : (s.fn 0).offline = false) (hd : s.hif.dual = true)
    (ho : s.hif.owner = some r) (hne : r ≠ p) : exec (.ccEnSet 0 (some p) asqs acqs asq acq) s =
      .next (((s.wake (requestDomains s 0)).bump rHIF_DENIED 1).ev eHIF_OWNER_DENIED) := by
  have hk := s.wake_keeps (requestDomains s 0)
  change Host.Outcome.next _ = _
  rw [if_neg (by simp [hr]), if_neg (by simp [h1, h2, h3]), if_pos]
  rw [hk.hif_eq, ho]
  exact ⟨rfl, hd, rfl, rfl, fun e => hne (Option.some.inj e)⟩

end

theorem cqStall_records {s : State} {f qid : Nat} {q : Cq} (hq : Tbl.get (s.fn f).cqs qid = some q)
    (h0 : s.rd rQMX_STALL_STRIDES ≠ 0) (hf : s.rd rQMX_STALL_STRIDES ≤ q.fullFor) (hs : q.stalled = false) :
    exec (.cqStall f qid) s = .next (((s.setFn f
      { s.fn f with cqs := Tbl.set (s.fn f).cqs qid { q with stalled := true } }).ev eQMX_CQ_STALL).raise
        lQMX_CQ_STALL (some f) []) := by
  change Host.Outcome.next _ = _
  dsimp only
  rw [hq]
  dsimp only
  rw [if_neg (by simp [h0, hs, hf])]

theorem State.raise_ev_fn (s : State) (e : Nat × Nat) (code : Nat) (k : Option Nat) (l : List (Nat × Nat)) (g : Nat) :
    ((s.ev e).raise code k l).fn g = s.fn g :=
  State.fn_congr ((State.raise_fns _ _ _ _).trans (State.ev_fns _ _)) g

/-- Settles O25, by the event: the entry is fetched or its function passed over, the controller is enabled or the port
denied, and a full queue is recorded. -/
theorem fetchAndEnableComplete : Obligations.FetchAndEnableComplete := by
  unfold Obligations.FetchAndEnableComplete
  refine ⟨fun s f qid cid op n q hq hf hv he => ⟨fun hr => ?_, fun h0 hr => ?_⟩,
    fun s f p asqs acqs asq acq hr h1 h2 h3 h4 ho => ?_,
    fun s p asqs acqs asq acq r hr h1 h2 h3 hd ho hne => ?_, fun s f qid q hq h0 hf hs => ?_⟩
  · obtain ⟨t, hx, hqmx, hsqs, hcqs, hne⟩ := commandFetch_takes hq hf hv he hr
    refine ⟨t, newCmd s f qid cid (fetchGait s f qid cid) op n, hx,
      by rw [hqmx, entryFetched_qmx], rfl, by rw [hqmx, entryFetched_qmx], rfl, rfl,
      rfl, rfl, rfl, rfl, rfl, rfl, rfl, rfl, by rw [hsqs, Tbl.get_set_self], hcqs, hne⟩
  · refine ⟨_, commandFetch_passes hq hf hv he h0 hr, ?_, ?_, fun g hg => State.setFn_fn_ne s _ hg,
      State.setFn_frame (by decide) (Frame.refl _ s)⟩ <;> rw [State.setFn_fn_self]
  · have hk := s.wake_keeps (requestDomains s f)
    refine ⟨_, ⟨asq, asqs % 4096 + 1, 0, 0, 0, true⟩,
      ⟨acq, acqs % 4096 + 1, 0, 0, true, true, true, 0, [], [], 0, false⟩, ccEnSet_enables hr h1 h2 h3 h4 ho, ?_, ?_,
      rfl, rfl, rfl, ?_, rfl, rfl, fun h0 hd => ?_, fun g hg => ?_⟩
    · rw [enableFn, State.updFn_fn_self]
      rfl
    · rw [enableFn, State.updFn_fn_self]
      exact Tbl.get_set_self _ _ _
    · rw [enableFn, State.updFn_fn_self]
      exact Tbl.get_set_self _ _ _
    · rw [if_pos ⟨h0, hd⟩]
      rfl
    · rw [enableFn, State.updFn_fn, if_neg hg]
      split <;> exact hk.fn_eq g
  · have hk := s.wake_keeps (requestDomains s 0)
    refine ⟨_, ccEnSet_denied hr h1 h2 h3 hd ho hne, State.ev_shows _ (by decide), ?_, ?_⟩
    · rw [State.ev_hif, State.bump_hif, hk.hif_eq]
    · rw [State.ev_fns, State.bump_fns, hk.fns_eq]
  · refine ⟨_, cqStall_records hq h0 hf hs, ?_, State.raise_shows (State.ev_shows _ (by decide)) _ _ _,
      State.raise_tells ((State.ev_tbs _ _).trans (State.setFn_tbs _ _ _)) _ _ _⟩
    rw [State.raise_ev_fn, State.setFn_fn_self, Tbl.get_set_self]

/-! ## Resets of a function (O22) -/

theorem armReset_fn (s : State) (f g : Nat) (c : FlrCause) :
    (armReset s f c).fn g = if g = f then { s.fn f with flrArm := some c } else s.fn g :=
  State.updFn_fn s f g _

section
variable {s : State} {f : Nat}

theorem pcieFlr_arms (hr : pcieReach s f = true) : exec (.pcieFlr f) s = .next (armReset
    (((resetDeviceControl (s.wake (requestDomains s f)) f).bump rHIF_FLR 1).ev eHIF_FLR) f .pcieFlr) :=
  congrArg _ (if_pos hr)

theorem pcieFlr_keeps_fn (s : State) (f g : Nat) :
    (((resetDeviceControl (s.wake (requestDomains s f)) f).bump rHIF_FLR 1).ev eHIF_FLR).fn g = s.fn g := by
  rw [State.fn_congr (State.ev_fns _ _), State.fn_congr (State.bump_fns _ _ _)]
  exact (s.wake_keeps _).fn_eq g

/-- CC_EN_CLEAR of an enabled controller, in a function that no port owns. -/
theorem ccEnClear_clears {port : Option Nat} (hr : reached s f port = true) (he : (s.fn f).enabled = true)
    (hd : f = 0 → s.hif.dual = false) : exec (.ccEnClear f port) s =
      .next (armReset ((s.wake (requestDomains s f)).setFn f { s.fn f with enabled := false }) f .ccEn) := by
  have hk := s.wake_keeps (requestDomains s f)
  change Host.Outcome.next _ = _
  rw [if_neg (by simp [hr]), if_neg (by simp [he]), if_neg]
  rw [hk.hif_eq]
  rintro ⟨h0, h1⟩
  rw [hd h0] at h1
  cases h1

/-- In dual-port mode the owner of function 0 gives it up. -/
theorem ccEnClear_gives_up {port : Option Nat} (hr : reached s 0 port = true) (he : (s.fn 0).enabled = true)
    (hd : s.hif.dual = true) (ho : s.hif.owner = port) : exec (.ccEnClear 0 port) s =
      .next (armReset (((s.wake (requestDomains s 0)).setHif { s.hif with owner := none }).updFn 0
        fun x => { x with enabled := false }) 0 .ccEn) := by
  have hk := s.wake_keeps (requestDomains s 0)
  change Host.Outcome.next _ = _
  rw [if_neg (by simp [hr]), if_neg (by simp [he]), if_pos (by rw [hk.hif_eq]; exact ⟨rfl, hd⟩),
    if_pos (by rw [hk.hif_eq]; exact ho), hk.hif_eq]

end

/-- Resets that are armed one after another. -/
theorem armResets_fn (c : FlrCause) (l : List Nat) (s : State) {f : Nat}
    (h : f ∈ l ∨ (s.fn f).flrArm = some c) : ((l.foldl (fun s f => armReset s f c) s).fn f).flrArm = some c := by
  induction l generalizing s with
  | nil => exact h.resolve_left List.not_mem_nil
  | cons g l ih =>
    refine ih _ ?_
    rw [armReset_fn]
    split
    · exact Or.inr rfl
    · next hg => exact h.imp_left fun hm => (List.mem_cons.1 hm).resolve_left hg

theorem armResets_keeps (c : FlrCause) (l : List Nat) (s : State) :
    Frame [.fns] s (l.foldl (fun s f => armReset s f c) s) :=
  Frame.foldl (fun _ _ h => armReset_frame (List.Subset.refl _) h) (Frame.refl _ s)

theorem boundOn_congr {s t : State} (hf : t.fns = s.fns) (hh : t.hif = s.hif) (hr : t.regs = s.regs) (p : Nat) :
    boundOn t p = boundOn s p := by
  unfold boundOn
  simp only [hf, hh, State.rdAt_congr hr]

theorem vfEnabled_congr {s t : State} (hh : t.hif = s.hif) (hr : t.regs = s.regs) (k : Nat) :
    vfEnabled t k = vfEnabled s k := by
  unfold vfEnabled
  simp only [hh, State.rdAt_congr hr]

theorem State.port_congr {s t : State} (h : t.hif = s.hif) (p : Nat) : t.port p = s.port p := by
  unfold State.port
  rw [h]

theorem State.setPort_port (s : State) (p : Nat) (x : Port) : (s.setPort p x).port p = x := by
  unfold State.port State.setPort
  rw [State.setHif_hif, Tbl.getD_set, if_pos rfl]

/-- Functions of a port whose VF a write of NumVFs disables (R106). -/
def vfsLost (s : State) (p n : Nat) : List Nat := (boundOn s p).filter fun f => vfEnabled s f && decide (n < f)

theorem sriovNumvfsWrite_lowers {s : State} {p n : Nat} (hn : n ≤ 255) (hp : p = 0 ∨ (p = 1 ∧ s.hif.dual = true)) :
    exec (.sriovNumvfsWrite p n) s =
      .next ((vfsLost s p n).foldl (fun s f => armReset s f .numVfs) ((s.wake (linkDomains s.hif.dual p)).setPort p
        { s.port p with numVfs := n })) := by
  have hk := s.wake_keeps (linkDomains s.hif.dual p)
  have hl : vfsLost (s.wake (linkDomains s.hif.dual p)) p n = vfsLost s p n := by
    unfold vfsLost
    rw [boundOn_congr hk.fns_eq hk.hif_eq hk.regs_eq]
    simp only [vfEnabled_congr hk.hif_eq hk.regs_eq]
  have hport : (s.wake (linkDomains s.hif.dual p)).port p = s.port p := State.port_congr hk.hif_eq p
  change Host.Outcome.next _ = _
  rw [if_neg, ← hl, ← hport]
  · rfl
  · rintro (h | ⟨h0, h1⟩)
    · omega
    · rcases hp with rfl | ⟨rfl, hd⟩
      · exact h0 rfl
      · simp [hd] at h1

/-- Commands that a reset drops one after another: each is gone, and functions and records stay. -/
theorem dropAll_leaves (l : List Cmd) (s : State) :
    Frame [.stp, .qmx, .map, .wbf, .par, .pages, .regs] s
        (l.foldl (fun s c => (releaseCmd s c).dropCmd c.seq) s) ∧
      (∀ c ∈ (l.foldl (fun s c => (releaseCmd s c).dropCmd c.seq) s).qmx.cmds,
        c ∈ s.qmx.cmds ∧ ∀ d ∈ l, c.seq ≠ d.seq) := by
  induction l generalizing s with
  | nil => exact ⟨Frame.refl _ s, fun c hc => ⟨hc, by simp⟩⟩
  | cons d l ih =>
    obtain ⟨hk, hc⟩ := ih ((releaseCmd s d).dropCmd d.seq)
    have hr := releaseCmd_keeps s d
    have hd : Frame [.stp, .qmx, .map, .wbf, .par, .pages, .regs] s ((releaseCmd s d).dropCmd d.seq) :=
      State.dropCmd_frame (by decide) (hr.mono (by decide))
    refine ⟨hd.trans hk, fun c hm => ?_⟩
    obtain ⟨h1, h2⟩ := hc c hm
    have h1' := List.mem_filter.1 h1
    rw [hr.qmx_eq] at h1'
    refine ⟨h1'.1, fun e he => ?_⟩
    rcases List.mem_cons.1 he with rfl | he
    · simpa using h1'.2
    · exact h2 e he

/-- A function after the first two steps of its reset (R120). -/
def fnReset (x : Fn) (cause : FlrCause) : Fn :=
  { x with epoch := (x.epoch + 1) % 256, enabled := false, shst := 0, sqs := [], cqs := [], aers := [], events := [],
           feats := [], tempWarn := false, flrArm := none, flr := some cause, flrFor := 0 }

/-- The state of a reset before the function itself is reset: its commands and its association are gone. -/
def cmdsDropped (s : State) (f : Nat) : State :=
  let t := (s.qmx.cmds.filter fun c => c.fn == f).foldl (fun s c => (releaseCmd s c).dropCmd c.seq) s
  dropAssoc (t.setQmx { t.qmx with sqDel := t.qmx.sqDel.filter fun d => d.1 != f,
                                   sqWait := t.qmx.sqWait.filter fun d => d.1 != f }) f

theorem resetFn_eq (s : State) (f : Nat) (cause : FlrCause) :
    resetFn s f cause = (cmdsDropped s f).updFn f fun x => fnReset x cause := rfl

theorem cmdsDropped_leaves (s : State) (f : Nat) :
    Frame [.stp, .qmx, .map, .wbf, .par, .key, .net, .pages, .regs] s (cmdsDropped s f) ∧
      ∀ c ∈ (cmdsDropped s f).qmx.cmds, c.fn ≠ f := by
  obtain ⟨hk, hc⟩ := dropAll_leaves (s.qmx.cmds.filter fun c => c.fn == f) s
  refine ⟨dropAssoc_frame (by decide) (State.setQmx_frame (by decide) (hk.mono (by decide))), fun c hm hf => ?_⟩
  unfold cmdsDropped at hm
  rw [(dropAssoc_frame (List.Subset.refl _) (Frame.refl [.key, .net] _)).qmx_eq] at hm
  obtain ⟨h1, h2⟩ := hc c hm
  exact h2 c (List.mem_filter.2 ⟨h1, by simp [hf]⟩) rfl

theorem resetFn_leaves (s : State) (f : Nat) (cause : FlrCause) :
    (resetFn s f cause).fn f = fnReset (s.fn f) cause ∧ (∀ c ∈ (resetFn s f cause).qmx.cmds, c.fn ≠ f) ∧
      (resetFn s f cause).norWaits = s.norWaits := by
  obtain ⟨hk, hc⟩ := cmdsDropped_leaves s f
  rw [resetFn_eq]
  exact ⟨by rw [State.updFn_fn_self, hk.fn_eq], hc, hk.norWaits_eq⟩

theorem activateNext_keeps (s : State) : Frame [.key, .bot] s (activateNext s) :=
  activateNext_frame (List.Subset.refl _) (Frame.refl _ s)

/-- The state of a reset before its function enters its last state and the function table. -/
def fnCleared (s : State) (f : Nat) (cause : FlrCause) : State :=
  (if f = 0 then activateNext (resetFn s f cause) else resetFn s f cause).updFn f
    fun x => { x with saving := false, record := none }

theorem fnCleared_leaves (s : State) (f : Nat) (cause : FlrCause) :
    (fnCleared s f cause).fn f = { fnReset (s.fn f) cause with saving := false, record := none } ∧
      (∀ c ∈ (fnCleared s f cause).qmx.cmds, c.fn ≠ f) ∧ (fnCleared s f cause).norWaits = s.norWaits := by
  obtain ⟨hfn, hc, hn⟩ := resetFn_leaves s f cause
  have hk : Frame [.key, .bot] (resetFn s f cause)
      (if f = 0 then activateNext (resetFn s f cause) else resetFn s f cause) :=
    Frame.ite (activateNext_keeps _) (Frame.refl _ _)
  unfold fnCleared
  refine ⟨by rw [State.updFn_fn_self, hk.fn_eq, hfn], ?_, ?_⟩
  · rw [State.updFn_qmx, hk.qmx_eq]
    exact hc
  · rw [State.updFn_norWaits, hk.norWaits_eq, hn]

/-- The last step of a reset's start: a DRAINING or SAVED function is FROZEN, and its entry of the function table is
written (R129, R135). -/
def resetEnd (s : State) (f : Nat) : State :=
  match (s.fn f).state with
  | .draining => freezeDone s f
  | .saved => (s.updFn f fun x => { x with state := .frozen }).writeTable f [] 0
  | _ => s.writeTable f [] 0

theorem functionLevelReset_begins {s : State} {f : Nat} {cause : FlrCause} (ha : (s.fn f).flrArm = some cause)
    (hs : staleJobs s f (fun e => e == ((s.fn f).epoch + 1) % 256) = false) :
    exec (.functionLevelReset f) s = .next (resetEnd (fnCleared s f cause) f) := by
  change Host.Outcome.next _ = _
  rw [ha]
  dsimp only
  rw [if_neg (by simp [hs])]
  rfl

theorem State.writeTable_leaves (s : State) (f : Nat) (seqs : List Nat) (d : Dword) :
    (s.writeTable f seqs d).fns = s.fns ∧ (s.writeTable f seqs d).qmx = s.qmx ∧
      (s.writeTable f seqs d).norWaits.length = s.norWaits.length + 1 :=
  ⟨rfl, rfl, by simp [State.writeTable, State.writeEntry]⟩

theorem resetEnd_leaves (s : State) (f : Nat) :
    (∃ w b n, (resetEnd s f).fn f = { s.fn f with
        freezeWait := w, freezeLate := b, drainFor := n
        state := if (s.fn f).state = .draining ∨ (s.fn f).state = .saved then .frozen else (s.fn f).state }) ∧
      (resetEnd s f).qmx = s.qmx ∧ (resetEnd s f).norWaits.length = s.norWaits.length + 1 := by
  unfold resetEnd
  split
  · next hd =>
    unfold freezeDone
    obtain ⟨h1, h2, h3⟩ := State.writeTable_leaves (s.setFn f { s.fn f with
      state := .frozen, freezeWait := [], freezeLate := false, drainFor := 0 }) f (s.fn f).freezeWait 0
    refine ⟨⟨[], false, 0, ?_⟩, h2, h3⟩
    rw [State.fn_congr h1, State.setFn_fn_self, if_pos (Or.inl hd)]
  · next hd =>
    obtain ⟨h1, h2, h3⟩ := State.writeTable_leaves (s.updFn f fun x => { x with state := .frozen }) f [] 0
    refine ⟨⟨(s.fn f).freezeWait, (s.fn f).freezeLate, (s.fn f).drainFor, ?_⟩, h2, h3⟩
    rw [State.fn_congr h1, State.updFn_fn_self, if_pos (Or.inr hd)]
  · next h1 h2 =>
    obtain ⟨k1, k2, k3⟩ := s.writeTable_leaves f [] 0
    refine ⟨⟨(s.fn f).freezeWait, (s.fn f).freezeLate, (s.fn f).drainFor, ?_⟩, k2, k3⟩
    rw [State.fn_congr k1, if_neg (not_or.2 ⟨h1, h2⟩)]

theorem flrComplete_ends {s : State} {f : Nat} (hf : (s.fn f).flr.isSome = true) (ha : (s.fn f).flrArm = none)
    (hw : (s.fn f).deleteWait = none) (hs : staleJobs s f (fun e => e != (s.fn f).epoch) = false) :
    exec (.flrComplete f) s =
      .next (((s.bump rTEN_FLR_COUNT 1).ev eTEN_FLR).setFn f { s.fn f with flr := none }) := by
  have hnone : (s.fn f).flr ≠ none := fun e => by rw [e] at hf; cases hf
  change Host.Outcome.next _ = _
  dsimp only
  rw [if_neg (by simp [hnone, ha, hs]), hw]

/-- A saturating counter after one count (R527). -/
theorem State.bump_rd (s : State) (f : Fld) (n : Nat) : (s.bump f n).rd f =
    if s.cntHeld (pageNo f.blk 0) then s.rd f else min (s.rd f + n) (2 ^ f.w - 1) := by
  have hpos : 0 < 2 ^ f.w := Nat.two_pow_pos _
  unfold State.bump State.bumpAt
  split
  · rfl
  · exact (State.wr_rd s f _).trans (Nat.mod_eq_of_lt (by omega))

/-- Settles O22, by the event: a cause arms the reset, the boundary begins it, and the last old job ends it. -/
theorem functionResetsComplete : Obligations.FunctionResetsComplete := by
  unfold Obligations.FunctionResetsComplete
  refine ⟨fun s f hr => ?_, fun s f port hr he hd => ?_, fun s port hr he hd ho => ?_,
    fun s p n f hn hp hf hv hlt => ?_,
    fun s f cause ha hs => ?_, fun s f hf ha hw hs => ?_⟩
  · refine ⟨_, pcieFlr_arms hr, ?_, State.shows_congr (State.ev_shows _ (by decide)) (State.updFn_pages _ _ _),
      fun g hg => ?_⟩
    · rw [armReset_fn, if_pos rfl]
    · rw [armReset_fn, if_neg hg, pcieFlr_keeps_fn]
  · have hk := s.wake_keeps (requestDomains s f)
    refine ⟨_, ccEnClear_clears hr he hd, ?_, ?_, fun g hg => ?_,
      armReset_frame (by decide) (State.setFn_frame (by decide) (hk.mono (by decide)))⟩
    · rw [armReset_fn, if_pos rfl, State.setFn_fn_self]
    · rw [armReset_fn, if_pos rfl]
    · rw [armReset_fn, if_neg hg, State.setFn_fn_ne _ _ hg, hk.fn_eq]
  · have hk := s.wake_keeps (requestDomains s 0)
    refine ⟨_, ccEnClear_gives_up hr he hd ho, ?_, ?_, rfl, fun g hg => ?_⟩
    · rw [armReset_fn, if_pos rfl, State.updFn_fn_self]
    · rw [armReset_fn, if_pos rfl]
    · rw [armReset_fn, if_neg hg, State.updFn_fn, if_neg hg]
      exact hk.fn_eq g
  · refine ⟨_, sriovNumvfsWrite_lowers hn hp, ?_, armResets_fn _ _ _ (Or.inl ?_)⟩
    · have hk := armResets_keeps .numVfs (vfsLost s p n)
        ((s.wake (linkDomains s.hif.dual p)).setPort p { s.port p with numVfs := n })
      rw [State.port_congr hk.hif_eq, State.setPort_port]
    · exact List.mem_filter.2 ⟨hf, by simp [hv, hlt]⟩
  · obtain ⟨hfn, hc, hnor⟩ := fnCleared_leaves s f cause
    obtain ⟨⟨w, b, n, hend⟩, hqmx, hlen⟩ := resetEnd_leaves (fnCleared s f cause) f
    rw [hfn] at hend
    refine ⟨_, functionLevelReset_begins ha hs, ?_⟩
    rw [hend, hqmx, hlen, hnor]
    exact ⟨rfl, rfl, rfl, rfl, rfl, rfl, rfl, rfl, rfl, rfl, rfl, hc, rfl⟩
  · refine ⟨_, flrComplete_ends hf ha hw hs, ?_, ?_, ?_, ?_⟩
    · rw [State.setFn_fn_self]
    · rw [State.setFn_fn_self]
    · exact State.shows_congr (State.ev_shows _ (by decide)) (State.setFn_pages _ _ _)
    · exact (State.rd_congr (State.setFn_regs _ _ _) _).trans ((State.ev_rd _ _ _).trans (State.bump_rd _ _ _))

end Sys2Proof.Machine
end

section
/-! PROOFS. I/O commands (O29-O31): the checks of an entry, what a command that passes them names, and the completion
point of each. -/

-- one proof after another: many at once would each hold a thread of the compiler
set_option Elab.async false

namespace Sys2Proof.Machine

open Sys2Proof

/-! ## The namespace that a command names -/

section
variable {s : State} {c : Cmd} {nsid ns : Nat} {sp : Space} {change : Bool}

theorem ioSpace_sanitizing (h : s.rcl.sanitize = .armed ∨ s.rcl.sanitize = .erasing) :
    ioSpace s c nsid change = .error stSanitizing := by
  unfold ioSpace
  rw [if_pos h]

theorem ioSpace_unattached (h : ¬(s.rcl.sanitize = .armed ∨ s.rcl.sanitize = .erasing))
    (hn : Tbl.get (s.fn c.fn).spaces nsid = none) : ioSpace s c nsid change = .error stInvalidNs := by
  unfold ioSpace
  rw [if_neg h, hn]

/-- An attached namespace outside a sanitize is checked for its key, and for a change against write protection. -/
theorem ioSpace_attached (h : ¬(s.rcl.sanitize = .armed ∨ s.rcl.sanitize = .erasing))
    (hn : Tbl.get (s.fn c.fn).spaces nsid = some ns) (hs : s.space ns = some sp) :
    ioSpace s c nsid change = if !keyReady s ns sp then .error stKeyNotLoaded
      else if change && (s.rcl.readOnly || sp.wp) then .error stWriteProtected else .ok (ns, sp) := by
  unfold ioSpace
  rw [if_neg h, hn]
  dsimp only
  rw [hs]

/-- A command that may change a namespace may use it. -/
theorem ioSpace_use (h : ioSpace s c nsid true = .ok (ns, sp)) : ioSpace s c nsid false = .ok (ns, sp) := by
  unfold ioSpace at *
  split at h
  · cases h
  · next hsan =>
    rw [if_neg hsan]
    split at h
    · cases h
    · next hn =>
      split at h
      · cases h
      · next hs =>
        split at h
        · cases h
        · next hk =>
          split at h
          · cases h
          · cases h
            simp [hk]

end

/-! ## Commands that pass their checks (O29) -/

section
variable {s : State} {seq op nsid ns lba n : Nat} {c : Cmd} {sp : Space} {i : Instr}

/-- A change of a command that keeps its number is taken by that command alone. -/
theorem State.updCmd_takes (h : s.cmd? seq = some c) {g : Cmd → Cmd} (hg : ∀ d, (g d).seq = d.seq) :
    Frame [.qmx] s (s.updCmd seq g) ∧ s.takes (s.updCmd seq g) seq (g c) :=
  ⟨State.updCmd_frame (List.Subset.refl _) (Frame.refl _ s),
    State.updCmd_cmd? g h ((hg c).trans (State.cmd?_seq h)),
    fun _ hn => State.updCmd_cmd?_ne s g hn fun d hd => (hg d).trans hd⟩

/-- A row of the I/O opcodes on blocks that its namespace has is taken with its namespace, its blocks and its body. -/
theorem exec_ioTake {limit change : Bool} {body : Space → Except Status IoBody} {b : IoBody}
    (hi : exec i s = .next (ioTake s seq op nsid lba n limit change body)) (h : s.cmd? seq = some c)
    (ha : c.admin = false) (hb : c.body = .undecoded) (hop : c.op = op) (hn : c.blocks = n)
    (hs : ioSpace s c nsid change = .ok (ns, sp)) (h1 : 1 ≤ n) (hl : limit = true → n ≤ 256) (hr : lba + n ≤ sp.nsze)
    (hbody : body sp = .ok b) : ∃ t, exec i s = .next t ∧ Frame [.qmx] s t ∧
      s.takes t seq { c with nsid := nsid, ns := ns, lba := lba, nlb := n, body := b } := by
  refine ⟨s.updCmd seq fun c => { c with nsid := nsid, ns := ns, lba := lba, nlb := n, body := b }, ?_,
    State.updCmd_takes h fun _ => rfl⟩
  refine (exec_ioCmd (c := c) hi h ha hb hop).trans ?_
  rw [if_neg (not_not_intro hn), hs]
  dsimp only
  rw [if_neg, if_neg (by omega), hbody]
  rintro (h0 | ⟨hlim, h256⟩)
  · omega
  · have := hl hlim
    unfold maxBlocks at h256
    omega

theorem exec_flush_takes (h : s.cmd? seq = some c) (ha : c.admin = false) (hb : c.body = .undecoded) (hop : c.op = 0x00)
    (hs : ioSpace s c nsid false = .ok (ns, sp)) (hall : nsid ≠ 0xFFFFFFFF) :
    exec (.flush seq nsid) s =
      .next (s.updCmd seq fun c => { c with nsid := nsid, ns := ns, body := .flush false }) := by
  refine (exec_ioCmd (i := .flush seq nsid) rfl h ha hb hop).trans ?_
  rw [if_neg hall, hs]

theorem exec_flushAll_takes (h : s.cmd? seq = some c) (ha : c.admin = false) (hb : c.body = .undecoded)
    (hop : c.op = 0x00) (hs : ¬(s.rcl.sanitize = .armed ∨ s.rcl.sanitize = .erasing)) :
    exec (.flush seq 0xFFFFFFFF) s =
      .next (s.updCmd seq fun c => { c with nsid := 0xFFFFFFFF, body := .flush true }) := by
  refine (exec_ioCmd (i := .flush seq 0xFFFFFFFF) rfl h ha hb hop).trans ?_
  rw [if_pos rfl, if_neg hs]

/-- Dataset Management of ranges that all have blocks, and only blocks of the namespace. -/
theorem exec_datasetManagement {deallocate : Bool} {r : List (Nat × Nat)} (h : s.cmd? seq = some c)
    (ha : c.admin = false) (hb : c.body = .undecoded) (hop : c.op = 0x09)
    (hs : ioSpace s c nsid deallocate = .ok (ns, sp)) (hlen : r.length ≤ 255) (h1 : 1 ≤ n) (hr : lba + n ≤ sp.nsze)
    (hall : ∀ x ∈ r, 1 ≤ x.2 ∧ x.1 + x.2 ≤ sp.nsze) :
    exec (.datasetManagement seq nsid deallocate ((lba, n) :: r)) s =
      .next (if !deallocate || sp.typ == .zoned then s.finish seq stOk
        else s.updCmd seq fun c =>
          { c with nsid := nsid, ns := ns, lba := lba, nlb := n, ranges := r, body := .mapOnly false }) := by
  have hany : ((lba, n) :: r).any (fun x => decide (x.1 + x.2 > sp.nsze)) = false := by
    simp only [List.any_cons, Bool.or_eq_false_iff, decide_eq_false_iff_not, List.any_eq_false, decide_eq_true_iff]
    exact ⟨by omega, fun x hx => by have := hall x hx; omega⟩
  have hfilter : ((lba, n) :: r).filter (fun x => x.2 != 0) = (lba, n) :: r := by
    refine List.filter_eq_self.2 fun x hx => ?_
    rcases List.mem_cons.1 hx with rfl | hx
    · simpa using (by omega : n ≠ 0)
    · have := hall x hx
      simpa using (by omega : x.2 ≠ 0)
  refine (exec_ioCmd (i := .datasetManagement seq nsid deallocate ((lba, n) :: r)) rfl h ha hb hop).trans ?_
  rw [hs]
  dsimp only
  rw [if_neg (by simp; omega), hany, if_neg (by simp), hfilter]

/-- A zone action on a zone of a zoned namespace, or on all of them. -/
theorem exec_zoneAction_takes {action : Nat} {all : Bool} (hi : exec i s = .next (zoneAction seq nsid lba action all s))
    (h : s.cmd? seq = some c) (ha : c.admin = false) (hb : c.body = .undecoded) (hop : c.op = 0x79)
    (hs : ioSpace s c nsid true = .ok (ns, sp)) (hz : sp.typ = .zoned) (hr : lba < sp.nsze)
    (hstart : all = true ∨ lba % max sp.zsze 1 = 0) :
    exec i s = .next (s.updCmd seq fun c => { c with
      nsid := nsid, ns := ns, lba := if all then 0 else lba, nlb := if all then sp.nsze else sp.zsze
      body := .zone action all }) := by
  refine (exec_ioCmd hi h ha hb hop).trans ?_
  rw [hs]
  dsimp only
  rw [if_neg (by simp [hz]), if_neg (by omega), if_neg]
  rintro ⟨hall, hne⟩
  rcases hstart with h | h
  · simp [h] at hall
  · exact hne h

end

/-- Settles O29, opcode by opcode: an entry that passes its checks is taken with what it names. -/
theorem ioCommandsAreTaken : Obligations.IoCommandsAreTaken := by
  unfold Obligations.IoCommandsAreTaken
  refine ⟨fun s seq nsid ns c sp lba n h ha hb hs => ⟨fun hn h1 hr => ⟨fun hop hl => ?_, fun hop => ?_,
      fun data hop hlen hl => ?_⟩, fun hop hall => ?_⟩,
    fun s seq c h ha hb hop hs1 hs2 => ?_,
    fun s seq nsid ns c sp lba n h ha hb hs h1 hr => ⟨fun hn => ⟨fun fua k data metas hop hlen hl hk => ?_,
      fun hop ht => ?_, fun deac fua hop => ?_, fun fua data metas hop ht hz hlen hl => ?_⟩,
      fun r hop hlen hall => ⟨fun ht => ?_, fun deallocate hd => ?_⟩, fun ht hop i a all hi hstart => ?_⟩⟩
  · exact exec_ioTake rfl h ha hb hop hn hs h1 (fun _ => hl) hr rfl
  · exact exec_ioTake rfl h ha hb hop hn hs h1 (fun h => by cases h) hr rfl
  · subst hlen
    exact exec_ioTake rfl h ha hb hop hn hs h1 (fun _ => hl) hr rfl
  · exact ⟨_, exec_flush_takes h ha hb hop hs hall, State.updCmd_takes h fun _ => rfl⟩
  · exact ⟨_, exec_flushAll_takes h ha hb hop (not_or.2 ⟨hs1, hs2⟩), State.updCmd_takes h fun _ => rfl⟩
  · subst hlen
    exact exec_ioTake rfl h ha hb hop hn hs h1 (fun _ => hl) hr (by rw [hk]; rfl)
  · exact exec_ioTake rfl h ha hb hop hn hs h1 (fun h => by cases h) hr (if_neg (by simp [ht]))
  · exact exec_ioTake rfl h ha hb hop hn hs h1 (fun h => by cases h) hr (by split <;> rfl)
  · subst hlen
    exact exec_ioTake rfl h ha hb hop hn hs h1 (fun _ => hl) hr (by rw [if_neg (by simp [ht]), if_neg (by simp [hz])])
  · exact ⟨_, (exec_datasetManagement h ha hb hop hs hlen h1 hr hall).trans (congrArg _ (if_neg (by simp [ht]))),
      State.updCmd_takes h fun _ => rfl⟩
  · have hs' : ioSpace s c nsid deallocate = .ok (ns, sp) := by
      cases deallocate
      · exact ioSpace_use hs
      · exact hs
    obtain ⟨hends, hframe, -⟩ := State.complete_only_ends h stOk 0
    exact ⟨_, (exec_datasetManagement h ha hb hop hs' hlen h1 hr hall).trans
      (congrArg _ (if_pos (by rcases hd with hd | hd <;> simp [hd]))), hends, hframe⟩
  · have hx : exec i s = .next (zoneAction seq nsid lba a all s) := by
      simp only [List.mem_cons, List.not_mem_nil, or_false, Prod.mk.injEq] at hi
      rcases hi with ⟨rfl, rfl⟩ | ⟨rfl, rfl⟩ | ⟨rfl, rfl⟩ | ⟨rfl, rfl⟩ <;> rfl
    exact ⟨_, exec_zoneAction_takes hx h ha hb hop hs ht (by omega) hstart, State.updCmd_takes h fun _ => rfl⟩

/-! ## Commands that fail a check (O30) -/

section
variable {s : State} {seq op nsid ns lba n : Nat} {c : Cmd} {sp : Space} {i : Instr}

/-- A row of the I/O opcodes whose namespace is refused ends with that status. -/
theorem exec_ioTake_noSpace {limit change : Bool} {body : Space → Except Status IoBody} {x : Status}
    (hi : exec i s = .next (ioTake s seq op nsid lba n limit change body)) (h : s.cmd? seq = some c)
    (ha : c.admin = false) (hb : c.body = .undecoded) (hop : c.op = op) (hn : c.blocks = n)
    (hs : ioSpace s c nsid change = .error x) : exec i s = .next (s.finish seq x) := by
  refine (exec_ioCmd (c := c) hi h ha hb hop).trans ?_
  rw [if_neg (not_not_intro hn), hs]

/-- With a namespace it ends with the status of the first check that its blocks or its body fail. -/
theorem exec_ioTake_checked {limit change : Bool} {body : Space → Except Status IoBody} {x : Status}
    (hi : exec i s = .next (ioTake s seq op nsid lba n limit change body)) (h : s.cmd? seq = some c)
    (ha : c.admin = false) (hb : c.body = .undecoded) (hop : c.op = op) (hn : c.blocks = n)
    (hs : ioSpace s c nsid change = .ok (ns, sp))
    (hx : (limit = true ∧ 256 < n ∧ x = stInvalidField) ∨
      (1 ≤ n ∧ (limit = true → n ≤ 256) ∧ ((sp.nsze < lba + n ∧ x = stLbaRange) ∨
        (lba + n ≤ sp.nsze ∧ body sp = .error x)))) : exec i s = .next (s.finish seq x) := by
  refine (exec_ioCmd (c := c) hi h ha hb hop).trans ?_
  rw [if_neg (not_not_intro hn), hs]
  dsimp only
  rcases hx with ⟨hl, hbig, rfl⟩ | ⟨h1, hl, hr⟩
  · rw [if_pos (Or.inr ⟨hl, hbig⟩)]
  · rw [if_neg (by rintro (h0 | ⟨hlim, hbig⟩) <;> [omega; exact absurd (hl hlim) (Nat.not_le.2 hbig)])]
    rcases hr with ⟨hr, rfl⟩ | ⟨hr, hbody⟩
    · rw [if_pos hr]
    · rw [if_neg (by omega), hbody]

theorem exec_flush_refused (h : s.cmd? seq = some c) (ha : c.admin = false) (hb : c.body = .undecoded)
    (hop : c.op = 0x00) {x : Status} (hs : ioSpace s c nsid false = .error x) (hall : nsid ≠ 0xFFFFFFFF) :
    exec (.flush seq nsid) s = .next (s.finish seq x) := by
  refine (exec_ioCmd (i := .flush seq nsid) rfl h ha hb hop).trans ?_
  rw [if_neg hall, hs]

/-- A conventional namespace has no zones to report or to act on. -/
theorem exec_zoneManagementReceive_conventional (h : s.cmd? seq = some c) (ha : c.admin = false)
    (hb : c.body = .undecoded) (hop : c.op = 0x7A) (hs : ioSpace s c nsid false = .ok (ns, sp))
    (ht : sp.typ = .conventional) (filter n : Nat) :
    exec (.zoneManagementReceive seq nsid lba filter n) s = .next (s.finish seq stInvalidOpcode) := by
  refine (exec_ioCmd (i := .zoneManagementReceive seq nsid lba filter n) rfl h ha hb hop).trans ?_
  rw [hs]
  dsimp only
  rw [if_pos ht]

theorem exec_zoneAction_conventional {action : Nat} {all : Bool}
    (hi : exec i s = .next (zoneAction seq nsid lba action all s)) (h : s.cmd? seq = some c) (ha : c.admin = false)
    (hb : c.body = .undecoded) (hop : c.op = 0x79) (hs : ioSpace s c nsid true = .ok (ns, sp))
    (ht : sp.typ = .conventional) : exec i s = .next (s.finish seq stInvalidOpcode) := by
  refine (exec_ioCmd (c := c) hi h ha hb hop).trans ?_
  rw [hs]
  dsimp only
  rw [if_pos ht]

/-- A namespace with its key may be read, and changed where nothing protects it. -/
theorem ioSpace_ok (hsan : ¬(s.rcl.sanitize = .armed ∨ s.rcl.sanitize = .erasing))
    (hn : Tbl.get (s.fn c.fn).spaces nsid = some ns) (hs : s.space ns = some sp) (hk : keyReady s ns sp = true)
    {change : Bool} (hw : change = true → s.rcl.readOnly = false ∧ sp.wp = false) :
    ioSpace s c nsid change = .ok (ns, sp) := by
  rw [ioSpace_attached hsan hn hs, if_neg (by simp [hk]), if_neg]
  cases change
  · simp
  · simp [hw rfl]

end

/-- Settles O30, check by check: each ends the command with its status and changes nothing else. -/
theorem ioCommandsAreRefused : Obligations.IoCommandsAreRefused := by
  unfold Obligations.IoCommandsAreRefused
  intro s seq nsid lba n c i x h ha hb hn hcase
  suffices hx : exec i s = .next (s.finish seq x) from ⟨_, hx, State.complete_only_ends h x 0⟩
  have hrep : c.blocks = (List.replicate n (0 : Block)).length := by rw [hn, List.length_replicate]
  rcases hcase with ⟨hsan, hop, rfl, rfl⟩ | ⟨hs1, hs2, hrest⟩
  · exact exec_ioTake_noSpace rfl h ha hb hop hn (ioSpace_sanitizing hsan)
  have hsan := not_or.2 ⟨hs1, hs2⟩
  rcases hrest with ⟨hnone, rfl, hi⟩ | ⟨ns, sp, hns, hsp, hcheck⟩
  · have hun := fun change => ioSpace_unattached (change := change) hsan hnone
    rcases hi with ⟨hop, rfl⟩ | ⟨hop, rfl⟩ | ⟨hop, rfl, hall⟩
    · exact exec_ioTake_noSpace rfl h ha hb hop hn (hun _)
    · exact exec_ioTake_noSpace rfl h ha hb hop hrep (hun _)
    · exact exec_flush_refused h ha hb hop (hun _) hall
  have hok := fun hk => ioSpace_ok (change := false) hsan hns hsp hk (by simp)
  have hokw := fun hk hro hwp => ioSpace_ok (change := true) hsan hns hsp hk fun _ => ⟨hro, hwp⟩
  rcases hcheck with ⟨hk, hop, rfl, rfl⟩ | ⟨hk, hprot, hop, rfl, rfl⟩ | ⟨hk, hbig, hop, rfl, rfl⟩ |
    ⟨hk, h1, hl, hr, hop, rfl, rfl⟩ | ⟨hk, h1, hl, hr, hop, rfl, rfl⟩ | ⟨hk, ht, rfl, hop, rfl⟩ |
    ⟨hk, ht, hro, hwp, rfl, hzone⟩ | ⟨hk, ht, hro, hwp, h1, hr, rfl, hop, rfl⟩
  · exact exec_ioTake_noSpace rfl h ha hb hop hn ((ioSpace_attached hsan hns hsp).trans (if_pos (by simp [hk])))
  · refine exec_ioTake_noSpace rfl h ha hb hop hrep ((ioSpace_attached hsan hns hsp).trans ?_)
    rw [if_neg (by simp [hk]), if_pos (by simpa using hprot)]
  · exact exec_ioTake_checked rfl h ha hb hop hn (hok hk) (Or.inl ⟨rfl, hbig, rfl⟩)
  · exact exec_ioTake_checked rfl h ha hb hop hn (hok hk) (Or.inr ⟨h1, fun _ => hl, Or.inl ⟨hr, rfl⟩⟩)
  · exact exec_ioTake_checked rfl h ha hb hop hrep (hok hk)
      (Or.inr ⟨by simpa using h1, fun _ => by simpa using hl, Or.inr ⟨by simpa using hr, rfl⟩⟩)
  · exact exec_zoneManagementReceive_conventional h ha hb hop (hok hk) ht 0 n
  · have hs := hokw hk hro hwp
    rcases hzone with ⟨hop, rfl | rfl | rfl | rfl⟩ | ⟨hop, h1, hl, hr, rfl⟩
    · exact exec_zoneAction_conventional rfl h ha hb hop hs ht
    · exact exec_zoneAction_conventional rfl h ha hb hop hs ht
    · exact exec_zoneAction_conventional rfl h ha hb hop hs ht
    · exact exec_zoneAction_conventional rfl h ha hb hop hs ht
    · exact exec_ioTake_checked rfl h ha hb hop hrep hs (Or.inr ⟨by simpa using h1, fun _ => by simpa using hl,
        Or.inr ⟨by simpa using hr, if_pos ht⟩⟩)
  · exact exec_ioTake_checked rfl h ha hb hop hn (hokw hk hro hwp)
      (Or.inr ⟨h1, (fun h => by cases h), Or.inr ⟨hr, if_pos ht⟩⟩)

/-! ## The end of an I/O command (O31) -/

/-- An entry that is posted counts in the latency histogram alone. -/
theorem State.postWide_cur (t : State) (c : Cmd) (x : Status) (d e : Dword) :
    ∃ h, ((t.postWide c x d e).fn c.fn).cur = { (t.fn c.fn).cur with hist := h } := by
  unfold State.postWide
  dsimp only
  split
  · exact ⟨_, rfl⟩
  · split
    · exact ⟨(t.fn c.fn).cur.hist, by rw [State.setFn_fn_self]⟩
    · unfold State.entryWritten
      split
      · unfold State.meter
        rw [State.updFn_fn_self, State.setFn_fn_self]
        exact ⟨_, rfl⟩
      · exact ⟨(t.fn c.fn).cur.hist, by rw [State.setFn_fn_self]⟩

/-- A command that ends counts as one command, unless it is an admin command. -/
theorem State.endCmd_cur (t : State) (c : Cmd) (x : Status) (d e : Dword) :
    ∃ h, ((t.endCmd c x d e).fn c.fn).cur =
      { (t.fn c.fn).cur with hist := h, commands := (t.fn c.fn).cur.commands + if c.admin then 0 else 1 } := by
  obtain ⟨h, hh⟩ := State.postWide_cur t c x d e
  refine ⟨h, ?_⟩
  unfold State.endCmd
  dsimp only
  split
  · rw [State.fn_congr (State.dropCmd_fns _ _), hh]
    rfl
  · unfold State.meter
    rw [State.updFn_fn_self, State.fn_congr (State.dropCmd_fns _ _), hh]

/-- What the entry of command `n` depends on is the same in `s` and `t`: the functions, the DSCP register and the
commands other than `n`. -/
structure SameEntries (n : Nat) (s t : State) : Prop where
  fns : t.fns = s.fns
  dscp : t.rd rNET_DSCP_TX = s.rd rNET_DSCP_TX
  cmds : t.qmx.cmds.filter (fun d => d.seq != n) = s.qmx.cmds.filter fun d => d.seq != n

namespace SameEntries

variable {n : Nat} {r s t : State}

theorem trans (h : SameEntries n r s) (k : SameEntries n s t) : SameEntries n r t :=
  ⟨k.fns.trans h.fns, k.dscp.trans h.dscp, k.cmds.trans h.cmds⟩

theorem of_frame {ps : List Part} (h : Frame ps s t) (hf : Part.fns ∉ ps := by decide)
    (hr : Part.regs ∉ ps := by decide) (hq : Part.qmx ∉ ps := by decide) : SameEntries n s t :=
  ⟨h.fns_eq hf, h.rd_eq _ hr, by rw [h.qmx_eq hq]⟩

/-- A frame without functions and commands, when the DSCP register keeps its value. -/
theorem of_dscp {ps : List Part} (h : Frame ps s t) (hd : t.rd rNET_DSCP_TX = s.rd rNET_DSCP_TX)
    (hf : Part.fns ∉ ps := by decide) (hq : Part.qmx ∉ ps := by decide) : SameEntries n s t :=
  ⟨h.fns_eq hf, hd, by rw [h.qmx_eq hq]⟩

/-- A change of command `n` alone. -/
theorem updCmd (s : State) {g : Cmd → Cmd} (hg : ∀ d, (g d).seq = d.seq) : SameEntries n s (s.updCmd n g) := by
  refine ⟨State.updCmd_fns _ _ _, State.rd_congr (State.updCmd_regs _ _ _) _, ?_⟩
  unfold State.updCmd
  rw [State.setQmx_qmx]
  induction s.qmx.cmds with
  | nil => rfl
  | cons d l ih =>
    by_cases hd : d.seq = n
    · simpa [hd, hg] using ih
    · simpa [hd] using ih

end SameEntries

/-- A command as it is released: what it holds may have changed, its entry has not. -/
structure Cmd.sameEntry (c d : Cmd) : Prop where
  seq : d.seq = c.seq
  fn : d.fn = c.fn
  sqid : d.sqid = c.sqid
  admin : d.admin = c.admin
  entry : ∀ s q x e, entryOf s q d x e = entryOf s q c x e

theorem Cmd.sameEntry_refl (c : Cmd) : c.sameEntry c := ⟨rfl, rfl, rfl, rfl, fun _ _ _ _ => rfl⟩

/-- An I/O command that ends posts its entry and counts the bytes that it moved. -/
theorem finishIo_ends {s t : State} {n : Nat} {c d : Cmd} {x : Status} {rd wr : Nat} (h : s.cmd? n = some c)
    (hd : c.sameEntry d) (ht : SameEntries n s (releaseCmd t d)) :
    s.ends (finishIo t d x 0 0 rd wr) n x 0 ∧
      ((finishIo t d x 0 0 rd wr).fn c.fn).cur.bytesRead = (s.fn c.fn).cur.bytesRead + rd ∧
      ((finishIo t d x 0 0 rd wr).fn c.fn).cur.bytesWritten = (s.fn c.fn).cur.bytesWritten + wr ∧
      ((finishIo t d x 0 0 rd wr).fn c.fn).cur.commands =
        (s.fn c.fn).cur.commands + if c.admin then 0 else 1 := by
  unfold finishIo
  dsimp only
  generalize hu : (releaseCmd t d).meter d.fn _ = u
  have hfn : (releaseCmd t d).fn c.fn = s.fn c.fn := State.fn_congr ht.fns _
  have huf : u.fn c.fn = { s.fn c.fn with
      cur := { (s.fn c.fn).cur with bytesRead := (s.fn c.fn).cur.bytesRead + rd,
                                    bytesWritten := (s.fn c.fn).cur.bytesWritten + wr } } := by
    rw [← hu, hd.fn]
    unfold State.meter
    rw [State.updFn_fn_self, hfn]
  have hk : Frame [.fns] (releaseCmd t d) u := hu ▸ State.meter_frame (List.Subset.refl _) (Frame.refl _ _)
  obtain ⟨hist, hcur⟩ := State.endCmd_cur u d x 0 0
  rw [hd.fn, huf] at hcur
  refine ⟨⟨c, h, ?_, fun q k hq hc => ?_⟩, by rw [hcur], by rw [hcur], by rw [hcur, hd.admin]⟩
  · rw [State.endCmd_cmds, hd.seq, State.cmd?_seq h, hk.qmx_eq, ht.cmds]
  · obtain ⟨m, hm⟩ := State.endCmd_fn u d x 0 0 c.fn
    have hq' : Tbl.get (u.fn d.fn).sqs d.sqid = some q := by rw [hd.fn, hd.sqid, huf]; exact hq
    obtain ⟨m', hm'⟩ := State.postWide_fn x 0 0 hq'
    have he : entryOf u q d x 0 = entryOf s q c x 0 := by
      rw [hd.entry]
      unfold entryOf
      rw [huf, hk.rd_eq, ht.dscp]
    rw [hd.fn] at hm'
    rw [hm, hm', he, huf]
    rw [Tbl.get_upd, if_pos rfl, hc]
    rfl

/-! ## What a completion point leaves of the DSCP register -/

/-- What each step of a fold keeps, the fold keeps. -/
theorem foldl_keeps {α β : Type} {f : State → α → State} (p : State → β) (hf : ∀ s x, p (f s x) = p s) (l : List α)
    (s : State) : p (l.foldl f s) = p s := by
  induction l generalizing s with
  | nil => rfl
  | cons x l ih => exact (ih _).trans (hf s x)

/-- The register of DSCP values (R439), which an entry that leaves through the network shows. -/
def State.dscp (s : State) : Nat := s.rd rNET_DSCP_TX

theorem Frame.dscp_eq {ps : List Part} {s t : State} (h : Frame ps s t) (hr : Part.regs ∉ ps := by decide) :
    t.dscp = s.dscp := h.rd_eq _ hr

section
variable (s : State)

theorem absorb_dscp (i : Nat) : (absorb s i).dscp = s.dscp := by
  unfold absorb
  dsimp only
  split
  · exact (State.freeSlot_frame (List.Subset.refl _) (Frame.refl _ _)).dscp_eq.trans
      ((State.bump_rd_ne _ _ (by decide)).trans (State.updTarget_frame (List.Subset.refl _) (Frame.refl _ _)).dscp_eq)
  · rfl

theorem dropEntry_dscp (e : Entry) (n : Nat) : (dropEntry s e n).dscp = s.dscp := by
  unfold dropEntry
  split
  · exact (validDown_frame (List.Subset.refl _) (Frame.refl _ _)).dscp_eq
  · refine (foldl_keeps State.dscp (fun t i => absorb_dscp t _) _ _).trans ?_
    split
    · exact (ungroup_frame (List.Subset.refl _) (Frame.refl _ _)).dscp_eq
    · rfl
  · rfl

theorem promote_dscp (ns u : Nat) : (promote s ns u).dscp = s.dscp := by
  unfold promote
  dsimp only
  split
  · rfl
  · refine (State.delta_frame (List.Subset.refl _) (Frame.refl _ _)).dscp_eq.trans
      ((State.bump_rd_ne _ _ (by decide)).trans ?_)
    split
    · exact (ungroup_frame (List.Subset.refl _) (Frame.refl _ _)).dscp_eq
    · rfl

theorem setFine_dscp (f i ns lba : Nat) (e : Entry) : (setFine s f i ns lba e).dscp = s.dscp := by
  unfold setFine
  split
  · rfl
  · exact (State.delta_frame (List.Subset.refl _) (Frame.refl _ _)).dscp_eq.trans
      ((addEntry_frame (List.Subset.refl _) (Frame.refl _ _)).dscp_eq.trans (dropEntry_dscp _ _ _))

theorem setCoarse_dscp (ns u : Nat) (e : Entry) : (setCoarse s ns u e).dscp = s.dscp := by
  unfold setCoarse
  dsimp only
  refine (State.delta_frame (List.Subset.refl _) (Frame.refl _ _)).dscp_eq.trans
    ((addEntry_frame (List.Subset.refl _) (Frame.refl _ _)).dscp_eq.trans ?_)
  change State.dscp (match (coarseOf s ns u).kind with | Kind.fine => _ | _ => _) = _
  split
  · split
    · exact foldl_keeps State.dscp (fun t e => dropEntry_dscp t e 1) _ _
    · rfl
  · exact dropEntry_dscp _ _ _

theorem setBlocks_dscp (s : State) (ns lba : Nat) (es : List Entry) (n : Nat) :
    (setBlocks s ns lba es n).dscp = s.dscp := by
  induction n generalizing s lba es with
  | zero => rfl
  | succ n ih =>
    unfold setBlocks
    split
    · rfl
    · split
      · exact (ih _ _ _).trans (setCoarse_dscp _ _ _ _)
      · exact (ih _ _ _).trans ((setFine_dscp _ _ _ _ _ _).trans (promote_dscp _ _ _))

theorem seqLimit_dscp (ns : Nat) : (seqLimit s ns).dscp = s.dscp := by
  unfold seqLimit
  split
  · rfl
  · split
    · rfl
    · exact (State.raise_rd_ne _ _ _ _ (by decide)).trans (State.ev_rd _ _ _)

theorem nextWseq_dscp (ns : Nat) : (nextWseq s ns).2.dscp = s.dscp := by
  unfold nextWseq
  split
  · rfl
  · exact seqLimit_dscp _ _

end

/-! ## Release, landing and acceptance keep the entries -/

theorem readsDropped_keeps (s : State) (c : Cmd) :
    Frame [.stp, .map, .wbf] s (dropReads (endReaders (dropFine s c) c) c) :=
  dropReads_frame (by decide) (endReaders_frame (by decide) (dropFine_frame (by decide) (Frame.refl _ s)))

/-- What a command that is no zoned write holds lies in the read jobs, the map and the buffer. -/
theorem releaseCmd_quiet {s : State} {c : Cmd}
    (hz : ∀ sp, s.space c.ns = some sp → sp.typ = .zoned → ∀ f a h d m, c.body ≠ .write f a h d m) :
    Frame [.stp, .map, .wbf] s (releaseCmd s c) := by
  have hk := readsDropped_keeps s c
  have hs : (dropReads (endReaders (dropFine s c) c) c).space c.ns = s.space c.ns := by
    unfold State.space
    rw [(dropReads_frame (List.Subset.refl _) (Frame.refl [.stp] _)).map_eq,
      (endReaders_frame (List.Subset.refl _) (Frame.refl [.wbf] _)).map_eq]
    rfl
  unfold releaseCmd
  dsimp only
  rw [hs]
  split
  · next _ _ _ _ _ sp hb hsp =>
    rw [if_neg fun h => hz sp hsp h.1 _ _ _ _ _ hb]
    exact dropSlots_frame (by decide) hk
  · exact dropSlots_frame (by decide) hk
  · exact hk

/-- A command without slots gives back no block of a zone. -/
theorem releaseCmd_noSlots (s : State) {c : Cmd} (h : c.slots = []) : Frame [.stp, .map, .wbf] s (releaseCmd s c) := by
  have hk := readsDropped_keeps s c
  unfold releaseCmd
  dsimp only
  split
  · split
    · unfold padReserved
      rw [h]
      exact hk
    · exact dropSlots_frame (by decide) hk
  · exact dropSlots_frame (by decide) hk
  · exact hk

section
variable {s : State} {c : Cmd} {sp : Space}

/-- A write of a conventional namespace lands in the map and in what it has programmed. -/
theorem landWrite_sameEntries (hsp : sp.typ = .conventional) : SameEntries c.seq s (landWrite s c sp) := by
  unfold landWrite
  dsimp only
  rw [hsp]
  dsimp only
  generalize hs1 : List.foldl _ (dropFine _ c) c.slots = s1
  have h1 : Frame [.map, .wbf] s s1 := by
    subst hs1
    exact Frame.foldl (fun _ _ h => State.updSlot_frame (by decide) h)
      (dropFine_frame (by decide) (State.setWbf_frame (by decide) (Frame.refl _ s)))
  generalize hs2 : s1.updCmd c.seq _ = s2
  have h2 : SameEntries c.seq s1 s2 := hs2 ▸ SameEntries.updCmd _ fun _ => rfl
  have h3 : Frame [.wbf] s2 (c.slots.foldl chainLast s2) :=
    Frame.foldl (fun _ _ h => chainLast_frame (List.Subset.refl _) h) (Frame.refl _ _)
  generalize c.slots.foldl chainLast s2 = s3 at h3
  generalize hs4 : setBlocks s3 c.ns c.lba _ c.nlb = s4
  have h4 : SameEntries c.seq s3 s4 :=
    .of_dscp (hs4 ▸ setBlocks_frame (List.Subset.refl _) (Frame.refl _ _)) (hs4 ▸ setBlocks_dscp _ _ _ _ _)
  refine (((SameEntries.of_frame h1).trans h2).trans (.of_frame h3)).trans (h4.trans ?_)
  refine .of_frame (ps := [.fch, .wbf]) (Frame.foldl (fun _ _ h => ?_)
    (Frame.foldl (fun _ _ h => repin_frame (by decide) h) (Frame.refl _ _)))
  split
  · exact State.freeSlot_frame (by decide) (coverGranule_frame (by decide) h)
  · exact h

/-- An acceptance keeps the entries, the functions' modes and the ceiling (R87, R178). -/
structure Accepts (c : Cmd) (s t : State) : Prop where
  entries : SameEntries c.seq s t
  wthru : t.qmx.wthru = s.qmx.wthru
  dropping : t.wbf.dropping = s.wbf.dropping

theorem State.updSlot_dropping (s : State) (i : Nat) (g : Slot → Slot) :
    (s.updSlot i g).wbf.dropping = s.wbf.dropping := rfl

theorem bindTarget_dropping (s : State) (t f : Nat) : (bindTarget s t f).wbf.dropping = s.wbf.dropping := by
  unfold bindTarget
  dsimp only
  split
  · rfl
  · split
    · rfl
    · split <;> rfl

theorem protect_dropping (s : State) (c : Cmd) (sp : Space) (a : PiArgs) :
    (protect s c sp a).wbf.dropping = s.wbf.dropping := by
  unfold protect
  split
  · rfl
  · exact foldl_keeps (fun s : State => s.wbf.dropping) (fun _ _ => State.updSlot_dropping _ _ _) _ _

theorem acceptWrite_keeps (s : State) (c : Cmd) (t : Nat) (hsp : sp.typ = .conventional) :
    (acceptWrite s c sp t).dscp = s.dscp ∧ (acceptWrite s c sp t).wbf.dropping = s.wbf.dropping := by
  have hseq (u : State) : (nextWseq u c.ns).2.wbf = u.wbf :=
    (nextWseq_frame (List.Subset.refl _) (Frame.refl _ _)).wbf_eq
  unfold acceptWrite
  dsimp only
  rw [hsp]
  dsimp only
  constructor
  · refine (foldl_keeps State.dscp (fun u i => ?_) _ _).trans (foldl_keeps State.dscp (fun u i => ?_) _ _)
    · split
      · rfl
      · rfl
    · exact nextWseq_dscp u c.ns
  · refine (foldl_keeps (fun u : State => u.wbf.dropping) (fun u i => ?_) _ _).trans
      (foldl_keeps (fun u : State => u.wbf.dropping) (fun u i => ?_) _ _)
    · split
      · rfl
      · rfl
    · exact (State.updSlot_dropping _ _ _).trans (congrArg Wbf.dropping (hseq u))

/-- The state in which a write without FUA has been accepted. -/
def accepted (s : State) (c : Cmd) (sp : Space) (handle : Option Nat) (pi : PiArgs) : State :=
  let t := acceptWrite (bindTarget (protect s c sp pi) (writeTarget s c sp handle) c.fn) c sp
    (writeTarget s c sp handle)
  t.updCmd c.seq fun d => { d with atPoint := true, wthru := rowPoint t c false || programPoint t c }

theorem accepted_keeps (handle : Option Nat) (pi : PiArgs) (hsp : sp.typ = .conventional) :
    Accepts c s (accepted s c sp handle pi) := by
  have hb : Frame [.wbf] s (bindTarget (protect s c sp pi) (writeTarget s c sp handle) c.fn) :=
    bindTarget_frame (List.Subset.refl _) (protect_frame (List.Subset.refl _) (Frame.refl _ s))
  obtain ⟨hd, hw⟩ := acceptWrite_keeps (sp := sp) (bindTarget (protect s c sp pi) (writeTarget s c sp handle) c.fn) c
    (writeTarget s c sp handle) hsp
  have ha := acceptWrite_frame (c := c) (sp := sp) (t := writeTarget s c sp handle)
    (s := bindTarget (protect s c sp pi) (writeTarget s c sp handle) c.fn) (List.Subset.refl _) (Frame.refl _ _)
  refine ⟨((SameEntries.of_frame hb).trans (.of_dscp ha hd)).trans (.updCmd _ fun _ => rfl), ?_, ?_⟩
  · exact (congrArg Qmx.wthru ha.qmx_eq).trans (congrArg Qmx.wthru hb.qmx_eq)
  · exact hw.trans ((bindTarget_dropping _ _ _).trans (protect_dropping s c sp pi))

/-- A command waits behind the same writes when no other command has changed. -/
theorem behindWrite_congr {t : State} (h : SameEntries c.seq s t) : behindWrite t c = behindWrite s c := by
  have hl (l : List Cmd) : l.filter (fun d => !d.admin && decide (d.seq < c.seq)) =
      (l.filter fun d => d.seq != c.seq).filter fun d => !d.admin && decide (d.seq < c.seq) := by
    rw [List.filter_filter]
    refine List.filter_congr fun d _ => ?_
    by_cases hd : d.seq < c.seq
    · simp [hd, Nat.ne_of_lt hd]
    · simp [hd]
  unfold behindWrite earlier
  rw [hl t.qmx.cmds, hl s.qmx.cmds, h.cmds]

end

/-! ## Completion points (O31) -/

/-- What an admitted command does at its completion point, by its body. -/
def completionOf (s : State) (c : Cmd) (pi : PiArgs) : State :=
  match c.body with
  | .write fua append handle _ _ => writePoint s c fua append handle pi
  | .mapOnly u => mapPoint s c u
  | .flush _ => flushPoint s c
  | .zone a all => zonePoint s c a all
  | .read | .compare _ | .verify => readPoint s c pi
  | .undecoded | .adminWait => s

section
variable {s : State} {seq : Nat} {c : Cmd} {pi : PiArgs}

theorem exec_completionPoint (h : s.cmd? seq = some c) (ha : c.admitted = true) (hz : s.dmc.frozen = false) :
    exec (.completionPoint seq pi) s = .next (completionOf s c pi) := by
  change Host.Outcome.next _ = _
  rw [h]
  dsimp only
  rw [if_neg (by simp [ha, hz])]
  unfold completionOf
  cases c.body <;> rfl

/-- A command that is no write ends without a change that its entry shows. -/
theorem finishIo_ends_quiet {t : State} {d : Cmd} {x : Status} {rd wr : Nat} (h : s.cmd? seq = some c)
    (hd : c.sameEntry d) (hb : ∀ f a h l m, d.body ≠ .write f a h l m) (ht : SameEntries seq s t) :
    s.ends (finishIo t d x 0 0 rd wr) seq x 0 ∧
      ((finishIo t d x 0 0 rd wr).fn c.fn).cur.bytesRead = (s.fn c.fn).cur.bytesRead + rd ∧
      ((finishIo t d x 0 0 rd wr).fn c.fn).cur.commands =
        (s.fn c.fn).cur.commands + if c.admin then 0 else 1 := by
  obtain ⟨he, hr, -, hc⟩ := finishIo_ends (x := x) (rd := rd) (wr := wr) h hd
    (ht.trans (.of_frame (releaseCmd_quiet (s := t) fun _ _ _ => hb)))
  exact ⟨he, hr, hc⟩

theorem finishIo_ans (t : State) (d : Cmd) (x : Status) (rd wr : Nat) :
    (finishIo t d x 0 0 rd wr).ans = t.ans :=
  (finishIo_frame (List.Subset.refl _) (Frame.refl _ t)).ans_eq

/-- The status that the protection information of a read gives its blocks (R139). -/
def readPi (s : State) (c : Cmd) (pi : PiArgs) : Option Status :=
  (s.space c.ns).bind fun sp => piStatus sp pi c.lba (c.parts.map fun p => (p.done.getD 0, p.hostMeta))

/-- A read that has brought its blocks without an error, by its body. -/
theorem readPoint_passes (hp : c.parts.any (partOpen s) = false) (hx : partsStatus c.parts = none)
    (hpi : readPi s c pi = none) : readPoint s c pi = match c.body with
      | .compare d => finishIo s c (if c.parts.map (fun p => p.done.getD 0) = d then stOk else stCompareFail) 0 0 0 0
      | .read => finishIo (s.answer (.data (c.parts.map fun p => p.done.getD 0)
          (if pi.pract then [] else c.parts.map ReadPart.hostMeta))) c stOk 0 0 (4096 * c.nlb) 0
      | _ => finishIo s c stOk 0 0 0 0 := by
  unfold readPi at hpi
  unfold readPoint
  dsimp only
  rw [if_neg (by simp [hp]), hx, hpi, List.map_map, List.map_map]
  cases c.body <;> rfl

theorem readPoint_fails {x : Status} (hp : c.parts.any (partOpen s) = false)
    (hx : partsStatus c.parts = some x ∨ (partsStatus c.parts = none ∧ readPi s c pi = some x)) :
    readPoint s c pi = finishIo s c x 0 0 0 0 := by
  unfold readPi at hx
  unfold readPoint
  dsimp only
  rw [if_neg (by simp [hp])]
  rcases hx with hx | ⟨hx, hpi⟩
  · simp only [hx]
  · simp only [hx, hpi]

theorem flushPoint_ends (ht : (s.fn c.fn).harness.tether = false) :
    flushPoint s c = finishIo s { c with slots := [] } stOk 0 0 0 0 := by
  unfold flushPoint
  rw [if_neg (by simp [ht])]

/-- The state in which a change of the map alone has entered it. -/
def mapChanged (s : State) (c : Cmd) (u : Bool) : State :=
  c.spans.foldl (fun s r => setBlocks s c.ns r.1 (List.replicate r.2 ⟨if u then .uncorr else .unmapped, 0⟩) r.2)
    (dropFine s c)

theorem mapChanged_sameEntries (s : State) (c : Cmd) (u : Bool) : SameEntries seq s (mapChanged s c u) := by
  refine .of_dscp (ps := [.map, .wbf, .par, .regs]) ?_ ?_
  · exact Frame.foldl (fun _ _ h => setBlocks_frame (by decide) h) (dropFine_frame (by decide) (Frame.refl _ s))
  · exact (foldl_keeps State.dscp (fun t r => setBlocks_dscp t _ _ _ _) _ _).trans
      (dropFine_frame (List.Subset.refl _) (Frame.refl _ s)).dscp_eq

theorem mapPoint_ends {u : Bool} {sp : Space} (hsp : s.space c.ns = some sp) (hr : s.rcl.readOnly = false)
    (hw : sp.wp = false) (h1 : behindWrite s c = false) (h2 : behindAccept s c = false) :
    mapPoint s c u = finishIo (mapChanged s c u) { c with fineRsv := 0 } stOk 0 0 0 0 := by
  unfold mapPoint
  rw [hsp]
  dsimp only
  rw [if_neg (by simp [hr, hw]), if_neg (by simp [h1, h2])]
  rfl

section
variable {h : Option Nat} {d : List Block} {m : List (BitVec 128)} {sp : Space}

/-- A write that waits for nothing is accepted and lands at once. -/
theorem writePoint_completes (hsp : s.space c.ns = some sp) (hc : sp.typ = .conventional) (hat : c.atPoint = false)
    (hr : s.rcl.readOnly = false) (hw : sp.wp = false) (ht : (s.fn c.fn).harness.tether = false)
    (hwt : s.qmx.wthru = false) (hdr : s.wbf.dropping = false) (h1 : behindWrite s c = false)
    (h2 : behindAccept s c = false) (h3 : acceptRefused s c sp pi = none) :
    writePoint s c false false h pi = completeWrite (accepted s c sp h pi) c sp false := by
  have hk := accepted_keeps (s := s) (c := c) (sp := sp) h pi hc
  have hrow : rowPoint (accepted s c sp h pi) c false = false := by
    unfold rowPoint
    rw [State.fn_congr hk.entries.fns, ht]
    rfl
  have hprog : programPoint (accepted s c sp h pi) c = false := by
    unfold programPoint
    rw [hk.wthru, hk.dropping, hwt, hdr]
    rfl
  have hbehind : behindWrite (accepted s c sp h pi) c = false := (behindWrite_congr hk.entries).trans h1
  have hready (u : State) (hu : u = accepted s c sp h pi) :
      (if writeReady u c false && !behindWrite u c then completeWrite u c sp false else u) =
        completeWrite (accepted s c sp h pi) c sp false := by
    subst hu
    exact if_pos (by simp [writeReady, hrow, hprog, hbehind])
  unfold writePoint
  rw [hsp]
  dsimp only
  rw [if_neg (by simp [hr, hw]), if_neg (by simp [h2]), hat]
  simp only [Bool.false_eq_true, if_false, h3]
  rw [if_neg (by simp [hc])]
  exact hready _ (if_neg (Bool.eq_false_iff.1 hrow))

theorem writePoint_protected (hsp : s.space c.ns = some sp) (hat : c.atPoint = false)
    (hw : s.rcl.readOnly = true ∨ sp.wp = true) :
    writePoint s c false false h pi = finishIo s c stWriteProtected 0 0 0 0 := by
  unfold writePoint
  rw [hsp]
  dsimp only
  rw [if_pos (by simpa [hat] using hw)]

/-- An accepted write that lands ends with success, and its bytes count. -/
theorem completeWrite_ends {t : State} (h0 : s.cmd? seq = some c) (hc : sp.typ = .conventional)
    (ht : SameEntries seq s t) :
    s.ends (completeWrite t c sp false) seq stOk 0 ∧ ((completeWrite t c sp false).fn c.fn).cur.bytesWritten =
      (s.fn c.fn).cur.bytesWritten + 4096 * c.nlb := by
  have hseq := State.cmd?_seq h0
  have hl : SameEntries seq t (landWrite t c sp) := hseq ▸ landWrite_sameEntries hc
  have hr := releaseCmd_noSlots (landWrite t c sp) (c := { c with slots := [], fineRsv := 0 }) rfl
  obtain ⟨he, -, hw, -⟩ := finishIo_ends (d := { c with slots := [], fineRsv := 0 }) (x := stOk) (rd := 0)
    (wr := 4096 * c.nlb) h0 ⟨rfl, rfl, rfl, rfl, fun _ _ _ _ => rfl⟩
    ((ht.trans hl).trans (.of_frame hr))
  exact ⟨he, hw⟩

end

end

section
variable {s : State} {seq : Nat} {c : Cmd} {pi : PiArgs}

/-- The completion point of a command that is no write and that ends there. -/
theorem completionPoint_ends {t : State} {d : Cmd} {x : Status} {rd : Nat} (h : s.cmd? seq = some c)
    (ha : c.admitted = true) (hz : s.dmc.frozen = false) (hd : c.sameEntry d)
    (hb : ∀ f a h l m, d.body ≠ .write f a h l m) (ht : SameEntries seq s t)
    (hc : completionOf s c pi = finishIo t d x 0 0 rd 0) :
    ∃ u, exec (.completionPoint seq pi) s = .next u ∧ s.ends u seq x 0 ∧ u.ans = t.ans ∧
      (u.fn c.fn).cur.bytesRead = (s.fn c.fn).cur.bytesRead + rd ∧
      (u.fn c.fn).cur.commands = (s.fn c.fn).cur.commands + if c.admin then 0 else 1 := by
  obtain ⟨he, hr, hn⟩ := finishIo_ends_quiet (x := x) (rd := rd) (wr := 0) h hd hb ht
  exact ⟨_, (exec_completionPoint h ha hz).trans (congrArg _ hc), he, finishIo_ans _ _ _ _ _, hr, hn⟩

section
variable (h : s.cmd? seq = some c) (ha : c.admitted = true) (hz : s.dmc.frozen = false)
include h ha hz

theorem read_completes (hp : c.parts.any (partOpen s) = false) (hx : partsStatus c.parts = none)
    (hpi : readPi s c pi = none) (hb : c.body = .read) (hadm : c.admin = false) :
    ∃ t, exec (.completionPoint seq pi) s = .next t ∧ s.ends t seq stOk 0 ∧
      t.ans = .data (c.parts.map fun p => p.done.getD 0) (if pi.pract then [] else c.parts.map ReadPart.hostMeta) ∧
      (t.fn c.fn).cur.bytesRead = (s.fn c.fn).cur.bytesRead + 4096 * c.nlb ∧
      (t.fn c.fn).cur.commands = (s.fn c.fn).cur.commands + 1 := by
  obtain ⟨u, hu, he, hans, hr, hn⟩ := completionPoint_ends (pi := pi) (d := c) (x := stOk)
    (rd := 4096 * c.nlb) h ha hz ⟨rfl, rfl, rfl, rfl, fun _ _ _ _ => rfl⟩ (by simp [hb])
    (t := s.answer (.data (c.parts.map fun p => p.done.getD 0)
      (if pi.pract then [] else c.parts.map ReadPart.hostMeta)))
    ⟨rfl, rfl, rfl⟩ (by simp only [completionOf, hb, readPoint_passes hp hx hpi])
  rw [hadm] at hn
  exact ⟨u, hu, he, hans, hr, hn⟩

theorem compare_completes (hp : c.parts.any (partOpen s) = false) (hx : partsStatus c.parts = none)
    (hpi : readPi s c pi = none) {d : List Block} (hb : c.body = .compare d) :
    ∃ t, exec (.completionPoint seq pi) s = .next t ∧
      s.ends t seq (if c.parts.map (fun p => p.done.getD 0) = d then stOk else stCompareFail) 0 ∧ t.ans = s.ans := by
  obtain ⟨u, hu, he, hans, -, -⟩ := completionPoint_ends (pi := pi) (d := c) (t := s) (rd := 0)
    (x := if c.parts.map (fun p => p.done.getD 0) = d then stOk else stCompareFail)
    h ha hz c.sameEntry_refl (by simp [hb]) ⟨rfl, rfl, rfl⟩
    (by simp only [completionOf, hb, readPoint_passes hp hx hpi])
  exact ⟨u, hu, he, hans⟩

theorem verify_completes (hp : c.parts.any (partOpen s) = false) (hx : partsStatus c.parts = none)
    (hpi : readPi s c pi = none) (hb : c.body = .verify) :
    ∃ t, exec (.completionPoint seq pi) s = .next t ∧ s.ends t seq stOk 0 ∧ t.ans = s.ans := by
  obtain ⟨u, hu, he, hans, -, -⟩ := completionPoint_ends (pi := pi) (d := c) (t := s) (rd := 0)
    (x := stOk) h ha hz c.sameEntry_refl (by simp [hb]) ⟨rfl, rfl, rfl⟩
    (by simp only [completionOf, hb, readPoint_passes hp hx hpi])
  exact ⟨u, hu, he, hans⟩

theorem read_fails {x : Status} (hb : c.body = .read) (hp : c.parts.any (partOpen s) = false)
    (hx : partsStatus c.parts = some x ∨ (partsStatus c.parts = none ∧ readPi s c pi = some x)) :
    ∃ t, exec (.completionPoint seq pi) s = .next t ∧ s.ends t seq x 0 ∧ t.ans = s.ans ∧
      (t.fn c.fn).cur.bytesRead = (s.fn c.fn).cur.bytesRead := by
  obtain ⟨u, hu, he, hans, hr, -⟩ := completionPoint_ends (pi := pi) (d := c) (t := s) (rd := 0)
    (x := x) h ha hz c.sameEntry_refl (by simp [hb]) ⟨rfl, rfl, rfl⟩
    (by simp only [completionOf, hb, readPoint_fails hp hx])
  exact ⟨u, hu, he, hans, hr⟩

theorem flush_completes {all : Bool} (hb : c.body = .flush all) (ht : (s.fn c.fn).harness.tether = false) :
    ∃ t, exec (.completionPoint seq pi) s = .next t ∧ s.ends t seq stOk 0 := by
  obtain ⟨u, hu, he, -⟩ := completionPoint_ends (pi := pi) (d := { c with slots := [] }) (t := s) (rd := 0)
    (x := stOk) h ha hz ⟨rfl, rfl, rfl, rfl, fun _ _ _ _ => rfl⟩ (by simp [hb]) ⟨rfl, rfl, rfl⟩
    (by simp only [completionOf, hb, flushPoint_ends ht])
  exact ⟨u, hu, he⟩

theorem mapOnly_completes {m : Bool} {sp : Space} (hb : c.body = .mapOnly m) (hsp : s.space c.ns = some sp)
    (hr : s.rcl.readOnly = false) (hw : sp.wp = false) (h1 : behindWrite s c = false) (h2 : behindAccept s c = false) :
    ∃ t, exec (.completionPoint seq pi) s = .next t ∧ s.ends t seq stOk 0 := by
  obtain ⟨u, hu, he, -⟩ := completionPoint_ends (pi := pi) (d := { c with fineRsv := 0 }) (t := mapChanged s c m)
    (rd := 0) (x := stOk) h ha hz ⟨rfl, rfl, rfl, rfl, fun _ _ _ _ => rfl⟩ (by simp [hb]) (mapChanged_sameEntries s c m)
    (by simp only [completionOf, hb, mapPoint_ends hsp hr hw h1 h2])
  exact ⟨u, hu, he⟩

section
variable {w : Option Nat} {d : List Block} {m : List (BitVec 128)} {sp : Space}
variable (hb : c.body = .write false false w d m) (hsp : s.space c.ns = some sp) (hc : sp.typ = .conventional)
  (hat : c.atPoint = false)
include hb hsp hc hat

theorem write_completes (hr : s.rcl.readOnly = false) (hw : sp.wp = false) (ht : (s.fn c.fn).harness.tether = false)
    (hwt : s.qmx.wthru = false) (hdr : s.wbf.dropping = false) (h1 : behindWrite s c = false)
    (h2 : behindAccept s c = false) (h3 : acceptRefused s c sp pi = none) :
    ∃ t, exec (.completionPoint seq pi) s = .next t ∧ s.ends t seq stOk 0 ∧
      (t.fn c.fn).cur.bytesWritten = (s.fn c.fn).cur.bytesWritten + 4096 * c.nlb := by
  have hk := accepted_keeps (s := s) (c := c) (sp := sp) w pi hc
  refine ⟨completeWrite (accepted s c sp w pi) c sp false, (exec_completionPoint h ha hz).trans (congrArg _ ?_),
    completeWrite_ends h hc (State.cmd?_seq h ▸ hk.entries)⟩
  simp only [completionOf, hb, writePoint_completes hsp hc hat hr hw ht hwt hdr h1 h2 h3]

theorem write_protected (hw : s.rcl.readOnly = true ∨ sp.wp = true) :
    ∃ t, exec (.completionPoint seq pi) s = .next t ∧ s.ends t seq stWriteProtected 0 ∧
      (t.fn c.fn).cur.bytesWritten = (s.fn c.fn).cur.bytesWritten := by
  have hq : Frame [.stp, .map, .wbf] s (releaseCmd s c) :=
    releaseCmd_quiet fun sp' hsp' hz' => by
      cases hsp.symm.trans hsp'
      cases hc.symm.trans hz'
  obtain ⟨he, -, hwr, -⟩ := finishIo_ends (x := stWriteProtected) (rd := 0) (wr := 0) h c.sameEntry_refl (.of_frame hq)
  refine ⟨_, (exec_completionPoint h ha hz).trans (congrArg _ ?_), he, hwr⟩
  simp only [completionOf, hb, writePoint_protected hsp hat hw]

end

end

end

/-- Settles O31: what each command does at its completion point, and the entry that its end posts. -/
theorem completionPointsComplete : Obligations.CompletionPointsComplete :=
  ⟨fun _ _ _ _ h ha hz hp hx hpi => ⟨read_completes h ha hz hp hx hpi,
      fun _ => compare_completes h ha hz hp hx hpi, verify_completes h ha hz hp hx hpi⟩,
    fun _ _ _ _ _ h ha hz hb hp hx => read_fails h ha hz hb hp hx,
    fun _ _ _ _ _ h ha hz hb ht => flush_completes h ha hz hb ht,
    fun _ _ _ _ _ _ h ha hz hb hsp hr hw h1 h2 => mapOnly_completes h ha hz hb hsp hr hw h1 h2,
    fun _ _ _ _ _ _ _ _ h ha hz hb hsp hc hat =>
      ⟨write_completes h ha hz hb hsp hc hat, write_protected h ha hz hb hsp hc hat⟩⟩

end Sys2Proof.Machine
end

section
/-! PROOFS. Modes of the write buffer (O33), Format NVM and namespace deletion (O36), log pages and Identify (O38), and
firmware, self-test and security commands (O39, O40). -/

-- one proof after another: many at once would each hold a thread of the compiler
set_option Elab.async false

namespace Sys2Proof.Machine

open Sys2Proof

/-! ## Marks for closing -/

theorem State.setTarget_target (s : State) (g h : Nat) (x : Target) :
    (s.setTarget g x).target h = if h = g then x else s.target h :=
  Tbl.getD_put _ _ _ _ _

theorem State.target_congr {s t : State} (h : t.wbf = s.wbf) (g : Nat) : t.target g = s.target g := by
  unfold State.target
  rw [h]

theorem markClose_target (s : State) (g f : Nat) (row : Bool) :
    ((markClose s g f row).target g).close = true ∧ ((markClose s g f row).target g).held = (s.target g).held := by
  unfold markClose State.updTarget
  rw [State.setTarget_target, if_pos rfl]
  exact ⟨rfl, rfl⟩

theorem markClose_target_ne (s : State) {g h : Nat} (f : Nat) (row : Bool) (hn : h ≠ g) :
    (markClose s g f row).target h = s.target h := by
  unfold markClose State.updTarget
  rw [State.setTarget_target, if_neg hn]

theorem markCloses_target (l : List Nat) (s : State) {g : Nat} (h : g ∈ l ∨ (s.target g).close = true) :
    ((l.foldl (fun s t => markClose s t (s.target t).fn false) s).target g).close = true := by
  induction l generalizing s with
  | nil => exact h.resolve_left List.not_mem_nil
  | cons a l ih =>
    refine ih _ ?_
    by_cases ha : g = a
    · exact Or.inr (ha ▸ (markClose_target s a _ _).1)
    · rw [markClose_target_ne s _ _ ha]
      exact h.imp_left fun hm => (List.mem_cons.1 hm).resolve_left ha

/-- Every host target with held granules is marked. -/
theorem closeAll_target (s : State) {g : Nat} (hg : ctlStream g = none) (hh : (s.target g).held ≠ []) :
    ((closeAll s).target g).close = true := by
  refine markCloses_target _ s (Or.inl (List.mem_filter.2 ⟨?_, ?_⟩))
  · cases hx : Tbl.get s.wbf.targets g with
    | none =>
      refine absurd ?_ hh
      unfold State.target Tbl.getD
      rw [hx]
      rfl
    | some x => exact List.mem_map.2 ⟨(g, x), Tbl.mem_of_get hx, rfl⟩
  · unfold targetHolds
    simp [hg, hh]

/-! ## Write-through, the ceiling and idle closure (O33) -/

/-- The state of write-through before its closures (R87). -/
def wthruBegun (s : State) : State :=
  (s.setQmx { s.qmx with wthruArm := false, wthru := true, wthruOff := false }).setFns
    (Tbl.map s.fns fun _ x => { x with cur := { x.cur with flags := x.cur.flags ||| 4 } })

theorem writeThroughEnter_begins {s : State} (h : s.qmx.wthruArm = true) :
    exec .writeThroughEnter s = .next ((closeAll (wthruBegun s)).ev eQMX_WTHRU) :=
  congrArg _ (if_neg (by simp [h]))

theorem writeThroughExit_ends {s : State} (h1 : s.qmx.wthru = true) (h2 : s.qmx.wthruOff = true)
    (h3 : ackSlots s < slotsTotal s) :
    exec .writeThroughExit s = .next ((s.setQmx { s.qmx with wthru := false, wthruOff := false }).ev eQMX_WTHRU) :=
  congrArg _ (if_pos ⟨h1, h2, h3⟩)

theorem idleClosure_marks {s : State} {g : Nat} (h0 : s.rd rWBF_IDLE_STRIDES ≠ 0)
    (hi : s.rd rWBF_IDLE_STRIDES ≤ (s.target g).idle) (hc : (s.target g).close = false)
    (hh : targetHolds s g = true) :
    exec (.idleClosure g) s = .next ((markClose s g (s.target g).fn false).bump rWBF_IDLE_CLOSE 1) := by
  refine congrArg _ (if_neg ?_)
  simp [h0, hc, hh]
  omega

/-- The state in which the buffer has its new ceiling. -/
def ceilingSet (s : State) (c : Nat) : State :=
  (s.setWbf { s.wbf with ceil := c, ceilNext := none }).ev eWBF_CEIL_CHANGE

/-- The state in which the buffer gives back what lies above its ceiling, before the record of it. -/
def ceilingDropped (s : State) (c : Nat) : State :=
  ((ceilingSet s c).setWbf { (ceilingSet s c).wbf with dropping := true }).ev eWBF_CEIL_DROP

theorem ceilingSet_wbf (s : State) (c : Nat) : (ceilingSet s c).wbf = { s.wbf with ceil := c, ceilNext := none } :=
  State.ev_wbf _ _

theorem ceilingSet_shows (s : State) (c : Nat) : (ceilingSet s c).shows eWBF_CEIL_CHANGE := State.ev_shows _ (by decide)

theorem ceilingDropped_shows (s : State) (c : Nat) : (ceilingDropped s c).shows eWBF_CEIL_CHANGE :=
  State.ev_shows' (State.shows_congr (ceilingSet_shows s c)
    (State.setWbf_pages (ceilingSet s c) { (ceilingSet s c).wbf with dropping := true })) _

theorem ceilingDropped_wbf (s : State) (c : Nat) :
    (ceilingDropped s c).wbf = { s.wbf with ceil := c, ceilNext := none, dropping := true } := by
  unfold ceilingDropped
  rw [State.ev_wbf, State.setWbf_wbf, ceilingSet_wbf]

theorem ceilingDropped_tbs (s : State) (c : Nat) : (ceilingDropped s c).tbs = s.tbs :=
  (State.ev_tbs _ eWBF_CEIL_DROP).trans (State.ev_tbs _ eWBF_CEIL_CHANGE)

section
variable {s : State} {c : Nat}

theorem ceilingChange_sets (h : s.wbf.ceilNext = some c) (hc : c ≠ s.wbf.ceil) :
    exec .ceilingChange s = .next (
      if ackSlots s > c * 252 then
        if s.wbf.dropping then ceilingSet s c
        else (ceilingDropped s c).raise lWBF_CEIL_DROP none [p4 c, p4 (ackSlots s)]
      else (ceilingSet s c).setWbf { (ceilingSet s c).wbf with dropping := false }) := by
  have hack : ackSlots (ceilingSet s c) = ackSlots s := by
    unfold ackSlots
    rw [ceilingSet_wbf]
  have hd : (ceilingSet s c).wbf.dropping = s.wbf.dropping := by rw [ceilingSet_wbf]
  rw [← hack, ← hd]
  change Host.Outcome.next _ = _
  rw [h]
  exact congrArg _ (if_neg hc)

/-- The ceiling falls below what is acknowledged. -/
theorem ceilingChange_drops (h : s.wbf.ceilNext = some c) (hc : c ≠ s.wbf.ceil) (ha : c * 252 < ackSlots s)
    (hd : s.wbf.dropping = false) :
    exec .ceilingChange s = .next ((ceilingDropped s c).raise lWBF_CEIL_DROP none [p4 c, p4 (ackSlots s)]) := by
  rw [ceilingChange_sets h hc, if_pos ha, if_neg (by simp [hd])]

theorem ceilingChange_stays (h : s.wbf.ceilNext = some c) (hc : c ≠ s.wbf.ceil) (ha : c * 252 < ackSlots s)
    (hd : s.wbf.dropping = true) : exec .ceilingChange s = .next (ceilingSet s c) := by
  rw [ceilingChange_sets h hc, if_pos ha, if_pos hd]

theorem ceilingChange_rises (h : s.wbf.ceilNext = some c) (hc : c ≠ s.wbf.ceil) (ha : ackSlots s ≤ c * 252) :
    exec .ceilingChange s = .next ((ceilingSet s c).setWbf { (ceilingSet s c).wbf with dropping := false }) := by
  rw [ceilingChange_sets h hc, if_neg (by omega)]

end

section
variable (s : State)

theorem wthruBegun_fn {f : Nat} {x : Fn} (h : Tbl.get s.fns f = some x) :
    ((wthruBegun s).fn f).cur.flags = x.cur.flags ||| 4 := by
  simp only [State.fn, wthruBegun, State.setFns_fns, Tbl.getD, Tbl.get_map, h, Option.map_some, Option.getD_some]

theorem wthruEntered_keeps : Frame [.wbf, .pages] (wthruBegun s) ((closeAll (wthruBegun s)).ev eQMX_WTHRU) :=
  State.ev_frame (by decide) (closeAll_frame (by decide) (Frame.refl _ _))

end

/-- Settles O33: each mode's state after its step. -/
theorem writeBufferModesComplete : Obligations.WriteBufferModesComplete := by
  refine ⟨fun s h => ?_, fun s h1 h2 h3 => ?_, fun s c h hc => ?_, fun s g h0 hi hc hh => ?_⟩
  · have hk := wthruEntered_keeps s
    have hq : (wthruBegun s).qmx = { s.qmx with wthruArm := false, wthru := true, wthruOff := false } := rfl
    refine ⟨_, writeThroughEnter_begins h, ?_, ?_, State.ev_shows _ (by decide), fun f x hf => ?_, fun g hg hh => ?_⟩
    · rw [hk.qmx_eq, hq]
    · rw [hk.qmx_eq, hq]
    · rw [hk.fn_eq, wthruBegun_fn s hf]
    · rw [State.target_congr (State.ev_wbf _ _)]
      exact closeAll_target (wthruBegun s) hg hh
  · exact ⟨_, writeThroughExit_ends h1 h2 h3, by rw [State.ev_qmx]; rfl, by rw [State.ev_qmx]; rfl,
      State.ev_shows _ (by decide)⟩
  · rcases Nat.lt_or_ge (c * 252) (ackSlots s) with ha | ha
    · cases hd : s.wbf.dropping with
      | true =>
        refine ⟨_, ceilingChange_stays h hc ha hd, ?_⟩
        rw [ceilingSet_wbf]
        exact ⟨rfl, rfl, ceilingSet_shows s c, rfl, fun _ => ⟨hd, by simp⟩, fun hle => absurd ha (Nat.not_lt.2 hle)⟩
      | false =>
        refine ⟨_, ceilingChange_drops h hc ha hd, ?_⟩
        rw [State.raise_wbf, ceilingDropped_wbf]
        exact ⟨rfl, rfl, State.raise_shows (ceilingDropped_shows s c) _ _ _, rfl,
          fun _ => ⟨rfl, fun _ => State.raise_tells (ceilingDropped_tbs s c) _ _ _⟩,
          fun hle => absurd ha (Nat.not_lt.2 hle)⟩
    · refine ⟨_, ceilingChange_rises h hc ha, ?_⟩
      rw [State.setWbf_wbf, ceilingSet_wbf]
      exact ⟨rfl, rfl, State.shows_congr (ceilingSet_shows s c) rfl, rfl, fun hgt => absurd hgt (Nat.not_lt.2 ha),
        fun _ => rfl⟩
  · obtain ⟨hcl, hheld⟩ := markClose_target s g (s.target g).fn false
    have ht (k : Nat) : ((markClose s g (s.target g).fn false).bump rWBF_IDLE_CLOSE 1).target k =
        (markClose s g (s.target g).fn false).target k := State.target_congr (State.bump_wbf _ _ _) k
    refine ⟨_, idleClosure_marks h0 hi hc hh, by rw [ht]; exact hcl, by rw [ht]; exact hheld, fun k hk => ?_⟩
    rw [ht, markClose_target_ne s _ _ hk]

/-! ## Crypto erase of a namespace whose key slot is EMPTY (O36) -/

theorem State.setKeySlot_keySlot (s : State) (k : Nat) (x : KeySlot) : (s.setKeySlot k x).keySlot k = x :=
  Tbl.getD_put_self _ _ _ _

theorem State.keySlot_congr {s t : State} (h : t.key.slots = s.key.slots) (k : Nat) : t.keySlot k = s.keySlot k := by
  unfold State.keySlot
  rw [h]

/-- A key that changes leaves the old one as the shadow, and a slot that is EMPTY keeps the shadow that it has. -/
theorem changeKey_shadow (s : State) (ns : Nat) (key : Option Nat) (source : KeySource) (owner keyId : Nat)
    (seq : Option Nat) : ((changeKey s ns key source owner keyId seq).keySlot (keySlotNs ns)).shadow =
      if (s.keySlot (keySlotNs ns)).key.isSome then (s.keySlot (keySlotNs ns)).key
      else (s.keySlot (keySlotNs ns)).shadow := by
  unfold changeKey
  dsimp only
  split
  · rw [State.setKeySlot_keySlot]
  · rw [State.keySlot_congr (s := s.setKeySlot (keySlotNs ns) _) (by rw [State.setKey_key]), State.setKeySlot_keySlot]

/-- Crypto erase of a namespace whose key is loaded, not generated, is a change of the key to EMPTY. -/
theorem cryptoErase_shadow {s : State} {ns : Nat} {sp : Space} (hm : sp.mode ≠ .none) (hg : sp.source ≠ .generated)
    (seqs : List Nat) : ((cryptoErase s ns sp seqs).keySlot (keySlotNs ns)).shadow =
      if (s.keySlot (keySlotNs ns)).key.isSome then (s.keySlot (keySlotNs ns)).key
      else (s.keySlot (keySlotNs ns)).shadow := by
  have hk : Frame [.map, .wbf, .par, .evl, .pages, .regs] s (bumpSeq (clearSpace s ns) ns) :=
    bumpSeq_frame (by decide) (clearSpace_frame (by decide) (Frame.refl _ s))
  have hgen : (generateKey (bumpSeq (clearSpace s ns) ns) ns sp).2 =
      changeKey (bumpSeq (clearSpace s ns) ns) ns none sp.source sp.owner 0 none := by
    unfold generateKey
    rw [if_neg hm, if_neg hg]
  have hend : (cryptoErase s ns sp seqs).key = (generateKey (bumpSeq (clearSpace s ns) ns) ns sp).2.key := by
    unfold cryptoErase
    dsimp only
    rw [State.raise_key, State.ev_key, State.bump_key]
    exact (State.writeKeyRec_frame (List.Subset.refl _) (Frame.refl _ _)).key_eq
  rw [State.keySlot_congr (congrArg Key.slots (hend.trans (congrArg State.key hgen))), changeKey_shadow,
    State.keySlot_congr (congrArg Key.slots hk.key_eq)]

/-- Format NVM with SES 010b of one namespace that nothing refuses is its crypto erase. -/
theorem formatNvmCryptoErase_erases {s : State} {seq nsid ns : Nat} {fmt : LbaFormat} {c : Cmd} {sp : Space}
    (h : s.adminCmd seq = some c) (hl : formatCovers s c.fn nsid = [(ns, sp)])
    (hr : formatRefused s c.fn [(ns, sp)] fmt = none) (hop : c.op = 0x80) (hw : formatWaits s seq [ns] = false)
    (hm : sp.mode ≠ .none) (hh : s.key.health = true) : exec (.formatNvmCryptoErase seq nsid fmt) s =
      .next ((cryptoErase (setFormat s ns fmt) ns sp [seq]).hold seq) := by
  refine (exec_admin (i := .formatNvmCryptoErase seq nsid fmt) rfl h).trans ?_
  dsimp only
  rw [hl, hr]
  dsimp only
  rw [if_neg (not_not_intro hop), if_neg (by simpa using hm), if_neg (by simp [keysRefused, hh]), if_neg (by simp [hw])]
  rfl

/-- A namespace in cipher mode XTS whose key the host loads. -/
def loadedSpace : Space :=
  { typ := .conventional, nsze := 16, lbaf := 0, pi := 0, mode := .xts, source := .persistent, owner := 0, nguid := 0,
    seq := 0, wp := false, zsze := 0, zcap := 0, zones := [], deleted := false }

/-- A Format NVM command of the manager. -/
def formatCmd : Cmd :=
  { seq := 0, fn := 0, epoch := 0, sqid := 0, cid := 0, admin := true, op := 0x80, blocks := 0, gait := 0, wbBytes := 0,
    fetchClk := 0, fetchTick := 0, mark := 0, nsid := 0, ns := 0, lba := 0, nlb := 0, body := .undecoded, ranges := [],
    admitted := false, waited := false, fineRsv := 0, slots := [], parts := [], atPoint := false, rows := [],
    wthru := false }

/-- The namespace has been erased once, its key slot is EMPTY, and the key of before is still the shadow (R405); a
second crypto erase is fetched. -/
def erasedOnce : State :=
  ((State.reset.setMap { Map.reset with spaces := [(0, loadedSpace)] }).setKey
    { Key.reset with slots := [(keySlotNs 0, { KeySlot.empty with shadow := some 1 })], health := true }).setQmx
      { Qmx.reset with cmds := [formatCmd] }

/-- Refutes O36: a crypto erase of a namespace whose key slot is EMPTY (a second erase before the jobs of the old key
have ended) keeps the shadow that stands, and that is not the slot's (absent) key. -/
theorem not_formatAndDeleteClearTheNamespace : ¬ Obligations.FormatAndDeleteClearTheNamespace := by
  rintro ⟨-, -, hErase, -, -⟩
  have hs : erasedOnce.adminCmd 0 = some formatCmd := by decide
  have hl : formatCovers erasedOnce 0 1 = [(0, loadedSpace)] := by decide
  have hr : formatRefused erasedOnce 0 [(0, loadedSpace)] ⟨0, 0⟩ = none := by decide
  have hw : formatWaits erasedOnce 0 [0] = false := by decide
  obtain ⟨t, ht, -, hshadow, -⟩ := hErase erasedOnce 0 1 0 ⟨0, 0⟩ formatCmd loadedSpace hs hl (by decide) hr rfl hw
    (by decide) rfl
  have hrun := formatNvmCryptoErase_erases hs hl hr rfl hw (by decide) rfl
  have hkept : (t.keySlot (keySlotNs 0)).shadow = some 1 := by
    cases hrun.symm.trans ht
    rw [State.keySlot_congr (congrArg Key.slots (State.hold_key _ _)), cryptoErase_shadow (by decide) (by decide)]
    rfl
  cases hkept.symm.trans hshadow

/-! ## Log pages and Identify (O38) -/

section
variable {s t : State} {seq off len : Nat} {c : Cmd} {b : List Byte} {i : Instr}

/-- A reply in a state that keeps commands, functions and registers ends the command and answers its bytes. -/
theorem exec_replies {ps : List Part} (h : s.cmd? seq = some c) (hi : exec i s = .next (t.reply seq b))
    (hf : Frame ps s t) (hq : Part.qmx ∉ ps := by decide) (hfn : Part.fns ∉ ps := by decide)
    (hr : Part.regs ∉ ps := by decide) :
    ∃ u, exec i s = .next u ∧ s.ends u seq stOk 0 ∧ u.ans = .bytes b :=
  ⟨_, hi, State.reply_ends h (by rw [hf.qmx_eq hq]) (hf.fns_eq hfn) (hf.rd_eq _ hr),
    State.reply_ans b ((State.cmd?_congr (by rw [hf.qmx_eq hq]) _).trans h)⟩

/-- The same in the state of the command itself. -/
theorem exec_replies_self (h : s.cmd? seq = some c) (hi : exec i s = .next (s.reply seq b)) :
    ∃ u, exec i s = .next u ∧ s.ends u seq stOk 0 ∧ u.ans = .bytes b :=
  exec_replies h hi (Frame.refl [] s)

/-- A command that is refused at once ends and answers nothing. -/
theorem exec_finishes {x : Status} (h : s.cmd? seq = some c) (hi : exec i s = .next (s.finish seq x)) :
    ∃ u, exec i s = .next u ∧ s.ends u seq x 0 ∧ u.ans = s.ans :=
  ⟨_, hi, State.finish_ends_self h x, State.finish_ans _ _ _⟩

theorem exec_finishes_after {ps : List Part} {x : Status} (h : s.cmd? seq = some c)
    (hi : exec i s = .next (t.finish seq x)) (hf : Frame ps s t)
    (ha : Part.ans ∉ ps := by decide) (hq : Part.qmx ∉ ps := by decide)
    (hfn : Part.fns ∉ ps := by decide) (hr : Part.regs ∉ ps := by decide) :
    ∃ u, exec i s = .next u ∧ s.ends u seq x 0 ∧ u.ans = s.ans :=
  ⟨_, hi, State.finish_ends h (by rw [hf.qmx_eq hq]) (hf.fns_eq hfn) (hf.rd_eq _ hr),
    (State.finish_ans _ _ _).trans (hf.ans_eq ha)⟩

/-- A page is answered from an offset in it. -/
theorem State.page?_within (t : State) (seq len : Nat) (h : off ≤ b.length) :
    t.page? seq b off len = t.reply seq (slice b off len) :=
  if_neg (by omega)

theorem State.page?_past (t : State) (seq len : Nat) (h : b.length < off) :
    t.page? seq b off len = t.finish seq stInvalidField :=
  if_pos h

theorem State.draw_keeps (s : State) : Frame [.draws] s s.draw.2 :=
  State.setDraws_frame (List.Subset.refl _) (Frame.refl _ s)

theorem getLogPage_present {lid : Nat} (h : s.adminCmd seq = some c) (ho : ownPage lid = false)
    (hb : nvmePage s c.fn lid = some b) :
    exec (.getLogPage seq lid off len) s = .next (s.draw.2.page? seq b off len) := by
  refine (exec_admin (i := .getLogPage seq lid off len) rfl h).trans ?_
  rw [if_neg (by simp [ho]), hb]

theorem getLogPage_absent {lid : Nat} (h : s.adminCmd seq = some c) (ho : ownPage lid = false)
    (hb : nvmePage s c.fn lid = none) :
    exec (.getLogPage seq lid off len) s = .next (s.finish seq stInvalidLogPage) := by
  refine (exec_admin (i := .getLogPage seq lid off len) rfl h).trans ?_
  rw [if_neg (by simp [ho]), hb]

theorem identify_answers {cns nsid cntid csi : Nat} (h : s.adminCmd seq = some c)
    (hb : identifyData s c.fn cns nsid cntid csi = .ok b) :
    exec (.identify seq cns nsid cntid csi) s = .next (s.reply seq b) := by
  refine (exec_admin (i := .identify seq cns nsid cntid csi) rfl h).trans ?_
  rw [hb]

theorem identify_refuses {cns nsid cntid csi : Nat} {x : Status} (h : s.adminCmd seq = some c)
    (hx : identifyData s c.fn cns nsid cntid csi = .error x) :
    exec (.identify seq cns nsid cntid csi) s = .next (s.finish seq x) := by
  refine (exec_admin (i := .identify seq cns nsid cntid csi) rfl h).trans ?_
  rw [hx]

/-- The ledger's pages are the manager's. -/
theorem ledgerPage_refused (h : s.adminCmd seq = some c) (h0 : c.fn ≠ 0)
    (hi : i = .getLogPageLedger seq off len ∨ i = .getLogPageLedgerSummary seq len) :
    exec i s = .next (s.finish seq stInvalidField) := by
  rcases hi with rfl | rfl
  · exact (exec_admin (i := .getLogPageLedger seq off len) rfl h).trans (congrArg _ (if_pos (Or.inl h0)))
  · exact (exec_admin (i := .getLogPageLedgerSummary seq len) rfl h).trans (congrArg _ (if_pos h0))

theorem getLogPageLedger_answers {k : Nat} (h : s.adminCmd seq = some c) (h0 : c.fn = 0) :
    exec (.getLogPageLedger seq (64 * k) len) s =
      .next (s.reply seq (slice (ledgerPage s.evl k ((len + 63) / 64)) 0 len)) := by
  refine (exec_admin (i := .getLogPageLedger seq (64 * k) len) rfl h).trans (congrArg _ ((if_neg ?_).trans ?_))
  · omega
  · rw [Nat.mul_div_cancel_left k (by decide)]

theorem getLogPageLedgerSummary_answers (h : s.adminCmd seq = some c) (h0 : c.fn = 0) :
    exec (.getLogPageLedgerSummary seq len) s = .next (s.reply seq (slice (ledgerSummary s.evl) 0 len)) :=
  (exec_admin (i := .getLogPageLedgerSummary seq len) rfl h).trans (congrArg _ (if_neg (not_not_intro h0)))

end

/-- Settles O38: the bytes of each page, or the status that refuses it. -/
theorem logPagesAndIdentifyAnswer : Obligations.LogPagesAndIdentifyAnswer := by
  refine ⟨fun s seq lid off len c h ho => ⟨fun b hb hle => ?_, fun hb => ?_, fun b hb hlt => ?_⟩,
    fun s seq off len c i b h hle hi => ?_, fun s seq k len c h h0 => ⟨?_, ?_⟩, fun s seq off len c i h h0 hi => ?_,
    fun s seq cns nsid cntid csi c h => ⟨fun b hb => ?_, fun x hx => ?_⟩⟩
  · refine exec_replies (State.adminCmd_cmd? h) (t := s.draw.2) ?_ s.draw_keeps
    rw [getLogPage_present h ho hb, State.page?_within _ _ _ hle]
  · exact exec_finishes (State.adminCmd_cmd? h) (getLogPage_absent h ho hb)
  · refine exec_finishes_after (State.adminCmd_cmd? h) (t := s.draw.2) ?_ s.draw_keeps
    rw [getLogPage_present h ho hb, State.page?_past _ _ _ hlt]
  · refine exec_replies_self (State.adminCmd_cmd? h) ?_
    rw [← State.page?_within s seq len hle]
    rcases hi with ⟨hi, hb⟩ | ⟨hi, hb⟩ | ⟨hi, hb⟩
    · rw [hi, hb]
      exact exec_admin (i := .getLogPageThermal seq off len) rfl h
    · rw [hi, hb]
      exact exec_admin (i := .getLogPageDieRoster seq off len) rfl h
    · rw [State.page?_within s seq len hle, hi, hb]
      exact exec_admin (i := .getLogPageRedundancy seq off len) rfl h
  · exact exec_replies_self (State.adminCmd_cmd? h) (getLogPageLedger_answers h h0)
  · exact exec_replies_self (State.adminCmd_cmd? h) (getLogPageLedgerSummary_answers h h0)
  · exact exec_finishes (State.adminCmd_cmd? h) (ledgerPage_refused h h0 hi)
  · exact exec_replies_self (State.adminCmd_cmd? h) (identify_answers h hb)
  · exact exec_finishes (State.adminCmd_cmd? h) (identify_refuses h hx)

/-! ## Firmware commands and activation (O39) -/

section
variable {s : State} {seq fs k : Nat} {c : Cmd} {old : Bool} {act : Nat → State → State} {x : FwImage}

/-- The state in which a verified image is stored in its slot and the download is used up. -/
def imageStored (s : State) (k : Nat) (x : FwImage) : State :=
  (s.setNor { s.nor with fw := Tbl.set s.nor.fw k x }).setQmx { s.qmx with download := [] }

/-- The state in which the slot is named for the next activation as well. -/
def imageNamed (s : State) (k : Nat) (x : FwImage) : State :=
  (imageStored s k x).setNor { (imageStored s k x).nor with fwNext := k }

/-- The state in which the activation of the slot is armed. -/
def imageArmed (s : State) (seq k : Nat) (x : FwImage) : State :=
  (imageNamed s k x).setQmx { (imageNamed s k x).qmx with act := .armed, actSlot := k, actCmd := some seq }

theorem imageStored_fw (s : State) (k : Nat) (x : FwImage) : Tbl.get (imageStored s k x).nor.fw k = some x :=
  Tbl.get_set_self _ _ _

/-- The image that a Commit takes: the download's, or where there is none the slot's, if the action allows it. -/
def commitSource (s : State) (k : Nat) (old : Bool) : Option FwImage :=
  if s.qmx.download.isEmpty then (if old then some (s.fwSlot k) else none)
  else (joinPieces s.qmx.download 0).map parseImage

theorem commitSource_download {b : List Byte} (hd : s.qmx.download ≠ []) (hb : joinPieces s.qmx.download 0 = some b) :
    commitSource s k old = some (parseImage b) := by
  unfold commitSource
  rw [if_neg (by simpa using hd), hb]
  rfl

theorem commitSource_slot (hd : s.qmx.download = []) : commitSource s k true = some (s.fwSlot k) := by
  unfold commitSource
  rw [hd]
  rfl

theorem commitSource_none (hd : s.qmx.download = []) : commitSource s k false = none := by
  unfold commitSource
  rw [hd]
  rfl

section
variable (h : s.adminCmd seq = some c) (h0 : c.fn = 0) (hs : sanitizing s = false) (ha : s.qmx.act = .idle)
  (hk : commitSlot s fs = some k)
include h h0 hs ha hk

/-- A Commit by the manager that nothing refuses takes its image, or has none. -/
theorem commitImage_source : commitImage s seq fs old act = match commitSource s k old with
    | none => s.finish seq stInvalidFwImage
    | some x => match fwReason s x with
      | some r => (rejectImage s (some r)).finish seq stInvalidFwImage
      | none => act k (imageStored s k x) := by
  unfold commitImage State.managerOnly
  rw [State.admin_eq h, if_neg (not_not_intro h0), if_neg (by simp [hs]), if_neg (not_not_intro ha), hk]
  rfl

theorem commitImage_acts (hx : commitSource s k old = some x) (hr : fwReason s x = none) :
    commitImage s seq fs old act = act k (imageStored s k x) := by
  simp only [commitImage_source h h0 hs ha hk, hx, hr]

theorem commitImage_rejects {r : Nat} (hx : commitSource s k old = some x) (hr : fwReason s x = some r) :
    commitImage s seq fs old act = (rejectImage s (some r)).finish seq stInvalidFwImage := by
  simp only [commitImage_source h h0 hs ha hk, hx, hr]

theorem commitImage_none (hx : commitSource s k old = none) :
    commitImage s seq fs old act = s.finish seq stInvalidFwImage := by
  simp only [commitImage_source h h0 hs ha hk, hx]

end

end

/-! ### What a Commit leaves -/

section
variable {s t : State} {seq k : Nat} {c : Cmd}

theorem rejectImage_keeps (s : State) (r : Nat) : Frame [.evl, .pages, .regs] s (rejectImage s (some r)) :=
  rejectImage_frame (List.Subset.refl _) (Frame.refl _ s)

theorem rejectImage_dscp (s : State) (r : Nat) : (rejectImage s (some r)).rd rNET_DSCP_TX = s.rd rNET_DSCP_TX :=
  (State.raise_rd_ne _ _ _ _ (by decide)).trans ((State.ev_rd _ _ _).trans (State.bump_rd_ne _ _ (by decide)))

/-- A Commit of an image that fails ends and leaves NOR. -/
theorem rejectImage_ends (h : s.cmd? seq = some c) (r : Nat) :
    s.ends ((rejectImage s (some r)).finish seq stInvalidFwImage) seq stInvalidFwImage 0 ∧
      ((rejectImage s (some r)).finish seq stInvalidFwImage).nor = s.nor := by
  have hk := rejectImage_keeps s r
  refine ⟨State.finish_ends h (congrArg Qmx.cmds hk.qmx_eq) hk.fns_eq (rejectImage_dscp s r), ?_⟩
  exact ((State.finish_keeps _ _ _).nor_eq).trans hk.nor_eq

end

/-- PP of every function, by the function itself. -/
theorem setPp_fn {s : State} {f : Nat} {x : Fn} (v : Bool) (h : Tbl.get s.fns f = some x) :
    (setPp s v).fn f = { x with pp := v } := by
  have hm := Tbl.get_map s.fns (fun _ x => { x with pp := v }) f
  rw [h] at hm
  unfold State.fn Tbl.getD
  exact congrArg (fun o => Option.getD o Fn.free) hm

/-- The state of an activation after its stop, before the record of it (R101 step 1). -/
def actStopped (s : State) : State := (setPp (s.setQmx { s.qmx with act := .draining 0 }) true).ev eQMX_ACT_START

theorem fwActivationStop_eq {s : State} (h : s.qmx.act = .armed) :
    exec .fwActivationStop s = .next ((actStopped s).raise lQMX_ACT_START none []) :=
  congrArg _ (if_neg (not_not_intro h))

theorem actStopped_qmx (s : State) : (actStopped s).qmx = { s.qmx with act := .draining 0 } := State.ev_qmx _ _

theorem actStopped_shows (s : State) : (actStopped s).shows eQMX_ACT_START := State.ev_shows _ (by decide)

theorem actStopped_tbs (s : State) : (actStopped s).tbs = s.tbs := by
  rw [actStopped, State.ev_tbs]
  rfl

theorem actStopped_fn {s : State} {f : Nat} {x : Fn} (h : Tbl.get s.fns f = some x) :
    (actStopped s).fn f = { x with pp := true } := by
  rw [actStopped, State.fn_congr (State.ev_fns _ _)]
  exact setPp_fn true h

/-- The state of an activation in which fetch resumes, before the record of it (R101 step 5). -/
def actResumed (s : State) : State :=
  (setPp (s.setQmx { s.qmx with act := .idle, actCmd := none }) false).ev eQMX_ACT_DONE

theorem actResumed_qmx (s : State) : (actResumed s).qmx = { s.qmx with act := .idle, actCmd := none } :=
  State.ev_qmx _ _

theorem actResumed_shows (s : State) : (actResumed s).shows eQMX_ACT_DONE := State.ev_shows _ (by decide)

theorem actResumed_tbs (s : State) : (actResumed s).tbs = s.tbs := by
  rw [actResumed, State.ev_tbs]
  rfl

theorem actResumed_fn {s : State} {f : Nat} {x : Fn} (h : Tbl.get s.fns f = some x) :
    (actResumed s).fn f = { x with pp := false } := by
  rw [actResumed, State.fn_congr (State.ev_fns _ _)]
  exact setPp_fn false h

theorem fwActivationResume_eq {s : State} {seq : Nat} (h : s.qmx.act = .switched) (hc : s.qmx.actCmd = some seq) :
    exec .fwActivationResume s = .next (((actResumed s).raise lQMX_ACT_DONE none []).finish seq stOk) := by
  refine congrArg Host.Outcome.next ((if_neg (not_not_intro h)).trans ?_)
  dsimp only
  rw [hc]
  rfl

theorem fwActivationSwitch_eq {s : State} {n : Nat} (h : s.qmx.act = .draining n)
    (hd : (∀ c ∈ s.qmx.cmds, c.admitted = false) ∨ drainLimit s ≤ n) :
    exec .fwActivationSwitch s = .next (switchImage (s.setQmx { s.qmx with act := .switched }) s.qmx.actSlot) := by
  change Host.Outcome.next _ = _
  rw [h]
  refine congrArg _ (if_neg ?_)
  simp only [Bool.and_eq_true, List.any_eq_true, decide_eq_true_eq, not_and, forall_exists_index, Nat.not_lt]
  rintro c ⟨hc, had⟩
  rcases hd with hd | hd
  · rw [hd c hc] at had
    cases had
  · exact hd

theorem firmwareImageDownload_keeps {s : State} {seq off : Nat} {data : List Byte} {c : Cmd}
    (h : s.adminCmd seq = some c) (h0 : c.fn = 0) (hs : sanitizing s = false) (hne : data ≠ [])
    (h4 : data.length % 4 = 0) (ho : off % 4 = 0)
    (hl : off + data.length ≤ 16777216)
    (hd : ∀ p ∈ s.qmx.download, off + data.length ≤ p.1 ∨ p.1 + p.2.length ≤ off) :
    exec (.firmwareImageDownload seq off data) s =
      .next ((s.setQmx { s.qmx with download := Tbl.set s.qmx.download off data }).finish seq stOk) := by
  have hlen : data.length ≠ 0 := fun he => hne (List.length_eq_zero_iff.1 he)
  refine (exec_manager (i := .firmwareImageDownload seq off data) rfl h h0).trans ?_
  dsimp only
  rw [if_neg (by simp [hs]), if_neg (by omega), if_neg]
  simp only [List.any_eq_true, decide_eq_true_eq, not_exists, not_and]
  intro p hp hlt hlt'
  have := hd p hp
  omega

section
variable {s : State} {seq fs k : Nat} {c : Cmd}
variable (h : s.adminCmd seq = some c) (h0 : c.fn = 0) (hs : sanitizing s = false) (ha : s.qmx.act = .idle)
  (hk : commitSlot s fs = some k)
include h h0 hs ha hk

theorem firmwareCommitStore_stores {x : FwImage} (hx : commitSource s k false = some x) (hr : fwReason s x = none) :
    ∃ t, exec (.firmwareCommitStore seq fs) s = .next t ∧ s.ends t seq stOk 0 ∧ Tbl.get t.nor.fw k = some x ∧
      t.nor.fwNext = s.nor.fwNext ∧ t.bot.fwSlot = s.bot.fwSlot := by
  refine ⟨(imageStored s k x).finish seq stOk, congrArg Host.Outcome.next (commitImage_acts h h0 hs ha hk hx hr),
    State.finish_ends (State.adminCmd_cmd? h) rfl rfl rfl, ?_⟩
  rw [(State.finish_keeps _ _ _).nor_eq, (State.finish_keeps _ _ _).bot_eq]
  exact ⟨imageStored_fw s k x, rfl, rfl⟩

/-- A Commit for the next controller-level reset stores its image and names its slot. -/
theorem firmwareCommitNextReset_stores {x : FwImage} (hx : commitSource s k true = some x) (hr : fwReason s x = none) :
    ∃ t, exec (.firmwareCommitNextReset seq fs) s = .next t ∧ s.ends t seq stOk 0 ∧ Tbl.get t.nor.fw k = some x ∧
      t.nor.fwNext = k ∧ t.bot.fwSlot = s.bot.fwSlot := by
  refine ⟨(imageNamed s k x).finish seq stOk, congrArg Host.Outcome.next (commitImage_acts h h0 hs ha hk hx hr),
    State.finish_ends (State.adminCmd_cmd? h) rfl rfl rfl, ?_⟩
  rw [(State.finish_keeps _ _ _).nor_eq, (State.finish_keeps _ _ _).bot_eq]
  exact ⟨imageStored_fw s k x, rfl, rfl⟩

/-- An immediate Commit stores its image, arms the activation and waits for it. -/
theorem firmwareCommitImmediate_arms {x : FwImage} (hx : commitSource s k true = some x) (hr : fwReason s x = none) :
    ∃ t, exec (.firmwareCommitImmediate seq fs) s = .next t ∧ s.waits t seq ∧ Tbl.get t.nor.fw k = some x ∧
      t.nor.fwNext = k ∧ t.qmx.act = .armed ∧ t.qmx.actSlot = k ∧ t.qmx.actCmd = some seq := by
  refine ⟨(imageArmed s seq k x).hold seq, congrArg Host.Outcome.next (commitImage_acts h h0 hs ha hk hx hr),
    State.hold_waits (State.adminCmd_cmd? h) rfl, ?_⟩
  rw [State.hold_nor]
  exact ⟨imageStored_fw s k x, rfl, rfl, rfl, rfl⟩

theorem firmwareCommitStore_none (hx : commitSource s k false = none) :
    ∃ t, exec (.firmwareCommitStore seq fs) s = .next t ∧ s.ends t seq stInvalidFwImage 0 ∧ t.nor = s.nor :=
  ⟨_, congrArg Host.Outcome.next (commitImage_none h h0 hs ha hk hx), State.finish_ends_self (State.adminCmd_cmd? h) _,
    (State.finish_keeps _ _ _).nor_eq⟩

theorem firmwareCommit_rejects {x : FwImage} {r : Nat} {i : Instr} (hx : ∀ old, commitSource s k old = some x)
    (hr : fwReason s x = some r)
    (hi : i ∈ [Instr.firmwareCommitStore seq fs, .firmwareCommitNextReset seq fs, .firmwareCommitImmediate seq fs]) :
    ∃ t, exec i s = .next t ∧ s.ends t seq stInvalidFwImage 0 ∧ t.nor = s.nor := by
  refine ⟨_, ?_, rejectImage_ends (State.adminCmd_cmd? h) r⟩
  simp only [List.mem_cons, List.not_mem_nil, or_false] at hi
  rcases hi with rfl | rfl | rfl
  · exact congrArg Host.Outcome.next (commitImage_rejects h h0 hs ha hk (hx false) hr)
  · exact congrArg Host.Outcome.next (commitImage_rejects h h0 hs ha hk (hx true) hr)
  · exact congrArg Host.Outcome.next (commitImage_rejects h h0 hs ha hk (hx true) hr)

end

/-- Settles O39: each command's state, and each step of an activation. -/
theorem firmwareCommandsComplete : Obligations.FirmwareCommandsComplete := by
  refine ⟨fun s seq off data c h h0 hs hne h4 ho hl hd => ?_,
    fun s seq fs k c b h h0 hs ha hk hd hb hr => ⟨?_, ?_, ?_⟩, fun s seq fs k c h h0 hs ha hk hd hr => ⟨?_, ?_, ?_⟩,
    fun s seq fs k c b r i h h0 hs ha hk hd hb hr hi => ?_, fun s ha => ?_, fun s n ha hd => ?_,
    fun s seq c ha hc h => ?_⟩
  · refine ⟨_, firmwareImageDownload_keeps h h0 hs hne h4 ho hl hd,
      State.finish_ends (State.adminCmd_cmd? h) rfl rfl rfl, ?_, (State.finish_keeps _ _ _).nor_eq⟩
    rw [State.finish, State.complete_qmx]
    exact Tbl.get_set_self _ _ _
  · exact firmwareCommitStore_stores h h0 hs ha hk (commitSource_download hd hb) hr
  · exact firmwareCommitNextReset_stores h h0 hs ha hk (commitSource_download hd hb) hr
  · exact firmwareCommitImmediate_arms h h0 hs ha hk (commitSource_download hd hb) hr
  · obtain ⟨t, ht, he, hf, hn, hb⟩ := firmwareCommitNextReset_stores h h0 hs ha hk (commitSource_slot hd) hr
    exact ⟨t, ht, he, by rw [State.fwSlot, Tbl.getD, hf]; rfl, hn, hb⟩
  · obtain ⟨t, ht, he, hf, -, hact⟩ := firmwareCommitImmediate_arms h h0 hs ha hk (commitSource_slot hd) hr
    exact ⟨t, ht, he, by rw [State.fwSlot, Tbl.getD, hf]; rfl, hact⟩
  · exact firmwareCommitStore_none h h0 hs ha hk (commitSource_none hd)
  · exact firmwareCommit_rejects h h0 hs ha hk (fun _ => commitSource_download hd hb) hr hi
  · have hq : ((actStopped s).raise lQMX_ACT_START none []).qmx = { s.qmx with act := .draining 0 } := by
      rw [State.raise_qmx, actStopped_qmx]
    refine ⟨_, fwActivationStop_eq ha, by rw [hq], ?_, fun f x hf => ?_, State.raise_shows (actStopped_shows s) _ _ _,
      State.raise_tells (actStopped_tbs s) _ _ _⟩
    · unfold fetchStop actRuns
      rw [hq]
      simp
    · rw [State.fn_congr (State.raise_fns _ _ _ _), actStopped_fn hf]
  · exact ⟨_, fwActivationSwitch_eq ha hd, rfl, rfl, rfl⟩
  · have hk := State.finish_keeps ((actResumed s).raise lQMX_ACT_DONE none []) seq stOk
    refine ⟨_, fwActivationResume_eq ha hc, ?_, State.complete_cmd? _ _ _ _, fun f x hf => ?_,
      State.shows_congr (State.raise_shows (actResumed_shows s) _ _ _) hk.pages_eq,
      State.tells_congr (State.raise_tells (actResumed_tbs s) _ _ _) hk.evl_eq⟩
    · rw [State.finish, State.complete_qmx, State.raise_qmx, actResumed_qmx]
    · obtain ⟨q, m, he⟩ := State.complete_fn ((actResumed s).raise lQMX_ACT_DONE none []) seq f stOk 0
      rw [State.finish, he, State.fn_congr (State.raise_fns _ _ _ _), actResumed_fn hf]

/-! ## Self-test, secondary controllers and security commands (O40) -/

section
variable {s : State} {seq nsid f : Nat} {c : Cmd} {i : Instr}

/-- The self-test that begins now. -/
def testNow (s : State) (nsid stc : Nat) : SelfTest :=
  { code := stc, start := s.tbs.clk, draw := s.draws, nsid := nsid }

/-- No namespace, all of them, or one that is there may be tested. -/
theorem nsid_tested (hn : nsid = 0 ∨ nsid = 0xFFFFFFFF ∨ (spaceOf s 0 nsid).isSome = true) :
    ¬(nsid ≠ 0 ∧ nsid ≠ 0xFFFFFFFF ∧ (spaceOf s 0 nsid).isNone = true) := by
  rintro ⟨h1, h2, h3⟩
  rcases hn with hn | hn | hn
  · exact h1 hn
  · exact h2 hn
  · rw [Option.isNone_iff_eq_none] at h3
    simp [h3] at hn

section
variable (h : s.adminCmd seq = some c) (h0 : c.fn = 0) (hs : sanitizing s = false)
  (hn : nsid = 0 ∨ nsid = 0xFFFFFFFF ∨ (spaceOf s 0 nsid).isSome)
include h h0 hs hn

theorem deviceSelfTest_starts {stc : Nat} (hc : stc = 1 ∨ stc = 2) (ht : s.cpx.selfTest = none) :
    exec (.deviceSelfTest seq nsid stc) s =
      .next ((s.draw.2.setCpx { s.cpx with selfTest := some (testNow s nsid stc) }).finish seq stOk) := by
  refine (exec_manager (i := .deviceSelfTest seq nsid stc) rfl h h0).trans ?_
  rw [if_neg (by simp [hs]), if_neg (nsid_tested hn), if_neg (by omega), if_neg (by omega), if_neg (by simp [ht])]
  rfl

theorem deviceSelfTest_aborts {x : SelfTest} (ht : s.cpx.selfTest = some x) :
    exec (.deviceSelfTest seq nsid 15) s = .next ((logTest s x 1).finish seq stOk) := by
  refine (exec_manager (i := .deviceSelfTest seq nsid 15) rfl h h0).trans ?_
  rw [if_neg (by simp [hs]), if_neg (nsid_tested hn), if_pos rfl, ht]

end

section
variable {act : State → State}

/-- A secondary controller that no migration holds. -/
theorem secondary_acts (h : s.adminCmd seq = some c) (h0 : c.fn = 0) (hf : f ≠ 0) (hf' : f ≤ 255)
    (hs : (s.fn f).state ≠ .free) (hh : held (s.fn f).state = false) : secondary s seq f act = act s := by
  unfold secondary State.managerOnly
  rw [State.admin_eq h, if_neg (not_not_intro h0), if_neg, if_neg (by simp [hh])]
  rintro (h | h | h)
  · exact hf h
  · omega
  · exact hs h

theorem secondary_unknown (h : s.adminCmd seq = some c) (h0 : c.fn = 0)
    (hf : f = 0 ∨ 255 < f ∨ (s.fn f).state = .free) : secondary s seq f act = s.finish seq stInvalidCtrlId := by
  unfold secondary State.managerOnly
  rw [State.admin_eq h, if_neg (not_not_intro h0)]
  exact if_pos hf

theorem secondary_held (h : s.adminCmd seq = some c) (h0 : c.fn = 0) (hf : f ≠ 0) (hf' : f ≤ 255)
    (hh : held (s.fn f).state = true) : secondary s seq f act = s.finish seq stFrozen := by
  unfold secondary State.managerOnly
  rw [State.admin_eq h, if_neg (not_not_intro h0), if_neg, if_pos hh]
  rintro (h | h | h)
  · exact hf h
  · omega
  · rw [h] at hh
    cases hh

end

/-- Both secondary controller commands are refused where their common checks refuse them. -/
theorem secondaryController_refused {x : Status} (h : s.cmd? seq = some c)
    (hx : ∀ act : State → State, secondary s seq f act = s.finish seq x)
    (hi : i = .secondaryControllerOnline seq f ∨ i = .secondaryControllerOffline seq f) :
    ∃ t, exec i s = .next t ∧ s.ends t seq x 0 ∧ Frame [.qmx, .fns] s t := by
  refine ⟨_, ?_, State.finish_ends_self h x, s.finish_keeps seq x⟩
  rcases hi with rfl | rfl
  · exact congrArg Host.Outcome.next (hx _)
  · exact congrArg Host.Outcome.next (hx _)

/-- A change of another function keeps what the entry of a command shows. -/
theorem State.updFn_finish_ends (h : s.cmd? seq = some c) (hf : f ≠ c.fn) (g : Fn → Fn) (x : Status) :
    s.ends ((s.updFn f g).finish seq x) seq x 0 := by
  have hn : (s.updFn f g).fn c.fn = s.fn c.fn := State.setFn_fn_ne s _ hf.symm
  exact State.complete_ends h rfl (by rw [hn]) (by rw [hn]) (by rw [hn]) rfl

theorem secondaryControllerOnline_acts (h : s.adminCmd seq = some c) (h0 : c.fn = 0) (hf : f ≠ 0) (hf' : f ≤ 255)
    (hs : (s.fn f).state ≠ .free) (hh : held (s.fn f).state = false) :
    exec (.secondaryControllerOnline seq f) s =
      .next ((s.updFn f fun x => { x with offline := false }).finish seq stOk) :=
  congrArg Host.Outcome.next (secondary_acts h h0 hf hf' hs hh)

/-- The state in which a secondary controller is offline; the reset of an enabled one is armed. -/
def wentOffline (s : State) (f : Nat) : State :=
  (if (s.fn f).enabled then armReset s f .ccEn else s).updFn f fun x => { x with offline := true, enabled := false }

theorem secondaryControllerOffline_acts (h : s.adminCmd seq = some c) (h0 : c.fn = 0) (hf : f ≠ 0) (hf' : f ≤ 255)
    (hs : (s.fn f).state ≠ .free) (hh : held (s.fn f).state = false) :
    exec (.secondaryControllerOffline seq f) s = .next ((wentOffline s f).finish seq stOk) :=
  congrArg Host.Outcome.next (secondary_acts h h0 hf hf' hs hh)

theorem wentOffline_keeps (s : State) (f : Nat) : Frame [.fns] s (wentOffline s f) := by
  refine State.updFn_frame (List.Subset.refl _) ?_
  split
  · exact armReset_frame (List.Subset.refl _) (Frame.refl _ s)
  · exact Frame.refl _ s

theorem wentOffline_fn_ne (s : State) {f g : Nat} (hg : g ≠ f) : (wentOffline s f).fn g = s.fn g := by
  unfold wentOffline
  rw [State.updFn_fn, if_neg hg]
  split
  · rw [armReset_fn, if_neg hg]
  · rfl

theorem wentOffline_fn (s : State) (f : Nat) : (wentOffline s f).fn f =
    { s.fn f with offline := true, enabled := false,
                  flrArm := if (s.fn f).enabled then some .ccEn else (s.fn f).flrArm } := by
  unfold wentOffline
  rw [State.updFn_fn_self]
  split
  · rw [armReset_fn, if_pos rfl]
  · rfl

theorem State.finish_fn_ne_self {t : State} (ht : t.cmd? seq = some c) (hf : f ≠ c.fn) (x : Status) :
    (t.finish seq x).fn f = t.fn f :=
  State.complete_fn_ne x 0 ht hf

/-- Security Send to a protocol that is there keeps its payload. -/
theorem securitySend_keeps {secp spsp : Nat} (data : List Byte) (h : s.adminCmd seq = some c) (h1 : 1 ≤ secp)
    (h2 : secp ≤ 255) (h3 : spsp ≤ 65535) (hp : Config.securityProtocol secp spsp = true) :
    exec (.securitySend seq secp spsp data) s = .next ((s.setKey
      { s.key with secure := Tbl.set s.key.secure (secKey c.fn secp spsp) data }).finish seq stOk) := by
  refine (exec_admin (i := .securitySend seq secp spsp data) rfl h).trans (congrArg _ (if_neg ?_))
  simp only [hp, Bool.not_true, Bool.false_eq_true, or_false]
  omega

theorem securitySend_list {spsp : Nat} (data : List Byte) (h : s.adminCmd seq = some c) :
    exec (.securitySend seq 0 spsp data) s = .next (s.finish seq stInvalidField) :=
  (exec_admin (i := .securitySend seq 0 spsp data) rfl h).trans (congrArg _ (if_pos (Or.inl rfl)))

/-- The list of security protocols: itself and those that are there. -/
def protocolList : List Byte :=
  let l := 0 :: (List.range 255).filterMap fun p => if Config.securityProtocol (p + 1) 0 then some (p + 1) else none
  zeros 6 ++ [BitVec.ofNat 8 (l.length / 256), BitVec.ofNat 8 l.length] ++ l.map (BitVec.ofNat 8)

theorem securityReceive_list {len : Nat} (h : s.adminCmd seq = some c) :
    exec (.securityReceive seq 0 0 len) s = .next (s.reply seq (slice protocolList 0 len)) :=
  exec_admin (i := .securityReceive seq 0 0 len) rfl h

theorem securityReceive_answers {secp spsp len : Nat} (h : s.adminCmd seq = some c) (h1 : 1 ≤ secp) (h2 : secp ≤ 255)
    (h3 : spsp ≤ 65535) (hp : Config.securityProtocol secp spsp = true) :
    exec (.securityReceive seq secp spsp len) s = .next (s.draw.2.reply seq (slice (Config.securityAnswer secp spsp
      (Tbl.getD s.key.secure (secKey c.fn secp spsp) []) s.draws) 0 len)) := by
  refine (exec_admin (i := .securityReceive seq secp spsp len) rfl h).trans ?_
  rw [if_neg (by omega), if_neg]
  simp only [hp, Bool.not_true, Bool.false_eq_true, or_false]
  omega

end

theorem slice_length (b : List Byte) (off len : Nat) : (slice b off len).length = len := by
  have : ((b.drop off).take len).length ≤ len := List.length_take_le _ _
  simp only [slice, zeros, List.length_append, List.length_replicate]
  omega

/-- Settles O40: what each command leaves, and the status of each refusal. -/
theorem selfTestControllersAndSecurity : Obligations.SelfTestControllersAndSecurity := by
  refine ⟨fun s seq nsid stc c h h0 hs hn hc ht => ?_, fun s seq nsid c x h h0 hs hn ht => ?_,
    fun s seq f c h h0 hf hf' hst hh => ⟨?_, ?_⟩,
    fun s seq f c i h h0 hf hi => secondaryController_refused (State.adminCmd_cmd? h)
      (fun _ => secondary_unknown h h0 hf) hi,
    fun s seq f c i h h0 hf hf' hh hi => secondaryController_refused (State.adminCmd_cmd? h)
      (fun _ => secondary_held h h0 hf hf' hh) hi,
    fun s seq secp spsp data c h h1 h2 h3 hp => ?_, fun s seq len c h => ?_, fun s seq data spsp c h => ?_,
    fun s seq secp spsp len c h h1 h2 h3 hp => ?_⟩
  · refine ⟨_, testNow s nsid stc, deviceSelfTest_starts h h0 hs hn hc ht,
      State.finish_ends (State.adminCmd_cmd? h) rfl rfl rfl, ?_, rfl, rfl, rfl⟩
    rw [(State.finish_keeps _ _ _).cpx_eq]
    rfl
  · refine ⟨_, { code := x.code, result := 1, hours := s.tbs.hours, nsid := x.nsid },
      deviceSelfTest_aborts h h0 hs hn ht, State.finish_ends (State.adminCmd_cmd? h) rfl rfl rfl, ?_, ?_, rfl, rfl⟩
    · rw [(State.finish_keeps _ _ _).cpx_eq]
      rfl
    · rw [(State.finish_keeps _ _ _).cpx_eq]
      rfl
  · have hne : f ≠ c.fn := h0 ▸ hf
    refine ⟨_, secondaryControllerOnline_acts h h0 hf hf' hst hh,
      State.updFn_finish_ends (State.adminCmd_cmd? h) hne _ _, ?_⟩
    rw [State.finish_fn_ne_self (t := s.updFn f _) (State.adminCmd_cmd? h) hne, State.updFn_fn_self]
  · have hne : f ≠ c.fn := h0 ▸ hf
    have hk := wentOffline_keeps s f
    have hcmd : (wentOffline s f).cmd? seq = some c :=
      (State.cmd?_congr (congrArg Qmx.cmds hk.qmx_eq) _).trans (State.adminCmd_cmd? h)
    have hc : (wentOffline s f).fn c.fn = s.fn c.fn := wentOffline_fn_ne s hne.symm
    refine ⟨_, secondaryControllerOffline_acts h h0 hf hf' hst hh,
      State.complete_ends (State.adminCmd_cmd? h) (congrArg Qmx.cmds hk.qmx_eq) (by rw [hc]) (by rw [hc]) (by rw [hc])
        (hk.rd_eq _), ?_⟩
    rw [State.finish_fn_ne_self hcmd hne, wentOffline_fn]
    exact ⟨rfl, rfl, fun he => if_pos he⟩
  · refine ⟨_, securitySend_keeps data h h1 h2 h3 hp, State.finish_ends (State.adminCmd_cmd? h) rfl rfl rfl, ?_⟩
    rw [(State.finish_keeps _ _ _).key_eq]
    exact Tbl.get_set_self _ _ _
  · obtain ⟨t, ht, he, ha⟩ := exec_replies_self (State.adminCmd_cmd? h) (securityReceive_list (len := len) h)
    exact ⟨t, _, ht, he, ha, slice_length _ _ _⟩
  · exact ⟨_, securitySend_list data h, State.finish_ends_self (State.adminCmd_cmd? h) _, (s.finish_keeps seq _).key_eq⟩
  · exact exec_replies (State.adminCmd_cmd? h) (securityReceive_answers h h1 h2 h3 hp) s.draw_keeps

end Sys2Proof.Machine
end

section
/-! PROOFS. The sideband (O45): messages over SMBus, the NVMe-MI commands over SMBus and in-band, the tunnel, the UART
and the pins of JTAG. -/

-- one proof after another: many at once would each hold a thread of the compiler
set_option Elab.async false

namespace Sys2Proof.Machine

open Sys2Proof

/-! ## Messages -/

section
variable {s : State} {act : State → State}

theorem mctpIn_down (hu : sbiUp s = false) (pec : Bool) : mctpIn s pec act = s := if_pos (by simp [hu])

theorem mctpIn_badPec (hu : sbiUp s = true) :
    mctpIn s false act = ((s.wake smbusDomain).bump rSBI_PEC_ERR 1).ev eSBI_PEC_ERR := by
  unfold mctpIn
  simp [hu]

theorem mctpIn_taken (hu : sbiUp s = true) : mctpIn s true act = act (messageTaken s) := by
  unfold mctpIn
  simp only [hu, Bool.not_true, Bool.false_eq_true, if_false]
  rfl

/-- An NVMe-MI message acts while the resident firmware runs. -/
theorem miIn_taken (hu : sbiUp s = true) (hm : miServed s = true) : miIn s true act = act (messageTaken s) := by
  have hm' : miServed (messageTaken s) = true := by
    unfold miServed
    rw [(messageTaken_keeps s).bot_eq]
    exact hm
  unfold miIn
  rw [mctpIn_taken hu, if_pos hm']

theorem badPec_keeps (s : State) :
    Frame [.gate, .pages, .regs] s (((s.wake smbusDomain).bump rSBI_PEC_ERR 1).ev eSBI_PEC_ERR) :=
  State.ev_frame (by decide) (State.bump_frame (by decide) ((s.wake_keeps _).mono (by decide)))

/-- Every message over SMBus is one of MCTP. -/
theorem message_mctpIn {pec : Bool} {i : Instr} {a b c d e f g : Nat} {data : List Byte} {ws : List Dword}
    {x y : BitVec 22} (s : State)
    (hi : i ∈ [Instr.setEndpointId pec a, .readNvmeMiDataStructure pec a b, .subsystemHealthStatusPoll pec,
      .controllerHealthStatusPoll pec a b, .configurationGet pec a, .configurationSet pec a b, .vpdRead pec a b,
      .vpdWrite pec a data, .nvmeMiReset pec, .tunnelledAdminCommand pec a b c d e f g,
      .registerReadMessage pec a b c, .registerWriteMessage pec a ws x y]) :
    ∃ act, exec i s = .next (mctpIn s pec act) := by
  simp only [List.mem_cons, List.not_mem_nil, or_false] at hi
  rcases hi with rfl | rfl | rfl | rfl | rfl | rfl | rfl | rfl | rfl | rfl | rfl | rfl
  all_goals exact ⟨_, rfl⟩

end

/-! ## NVMe-MI commands -/

section
variable {s : State} {i : Instr}

theorem miReply_ok (u : State) (x : List Byte) :
    (miReply u (.ok x)).ans = .bytes x ∧ Frame [.ans, .draws] u (miReply u (.ok x)) :=
  ⟨rfl, miReply_frame (List.Subset.refl _) (Frame.refl _ u)⟩

theorem miReply_error (u : State) (x : Nat) :
    (miReply u (.error x)).ans = .refusal x ∧ Frame [.ans] u (miReply u (.error x)) :=
  ⟨rfl, State.answer_frame (List.Subset.refl _) (Frame.refl _ u)⟩

/-- A request that reads answers its bytes, or the status that refuses it. -/
theorem miRead_answers {g : State → MiReply} (hi : exec i s = .next (miIn s true fun t => miReply t (g t)))
    (hu : sbiUp s = true) (hm : miServed s = true) :
    (∀ x, g (messageTaken s) = .ok x →
      ∃ t, exec i s = .next t ∧ t.ans = .bytes x ∧ Frame [.ans, .draws, .gate, .regs] s t) ∧
    (∀ x, g (messageTaken s) = .error x →
      ∃ t, exec i s = .next t ∧ t.ans = .refusal x ∧ Frame [.ans, .gate, .regs] s t) := by
  have hk := messageTaken_keeps s
  rw [miIn_taken hu hm] at hi
  refine ⟨fun x hx => ?_, fun x hx => ?_⟩
  · rw [hx] at hi
    obtain ⟨ha, hf⟩ := miReply_ok (messageTaken s) x
    exact ⟨_, hi, ha, (hk.mono (by decide)).trans (hf.mono (by decide))⟩
  · rw [hx] at hi
    obtain ⟨ha, hf⟩ := miReply_error (messageTaken s) x
    exact ⟨_, hi, ha, (hk.mono (by decide)).trans (hf.mono (by decide))⟩

/-- A request that changes the block answers nothing, or the status that refuses it. -/
theorem miChange_acts {g : State → Except Nat State} (hi : exec i s = .next (miIn s true fun t => miDone t (g t)))
    (hu : sbiUp s = true) (hm : miServed s = true) {u : State} (hg : g (messageTaken s) = .ok u) :
    exec i s = .next (u.answer .none) := by
  rw [hi, miIn_taken hu hm, hg]
  rfl

theorem miChange_refused {g : State → Except Nat State} (hi : exec i s = .next (miIn s true fun t => miDone t (g t)))
    (hu : sbiUp s = true) (hm : miServed s = true) {x : Nat} (hg : g (messageTaken s) = .error x) :
    ∃ t, exec i s = .next t ∧ t.ans = .refusal x ∧ t.regs = (messageTaken s).regs ∧
      Frame [.ans, .gate, .regs] s t := by
  refine ⟨(messageTaken s).answer (.refusal x), ?_, rfl, rfl,
    State.answer_frame (by decide) ((messageTaken_keeps s).mono (by decide))⟩
  rw [hi, miIn_taken hu hm, hg]
  rfl

theorem miConfigSet_error {cfg v x : Nat} (h : miConfigSet s cfg v = .error x) (u : State) :
    miConfigSet u cfg v = .error 4 := by
  unfold miConfigSet at *
  split at h
  · split at h
    · cases h
    · next hw => exact if_neg hw
  · split at h
    · cases h
    · next hw => exact if_neg hw
  · rfl

theorem miConfigSet_speed {v : Nat} (h1 : 1 ≤ v) (h3 : v ≤ 3) (u : State) :
    miConfigSet u 1 v = .ok (u.wr rSBI_SMB_SPEED (v - 1)) := if_pos (by simp [within]; omega)

theorem miConfigSet_unit {v : Nat} (h1 : 64 ≤ v) (h3 : v ≤ 250) (u : State) :
    miConfigSet u 3 v = .ok (u.setSbi { u.sbi with mtu := v }) := if_pos (by simp [within]; omega)

theorem miConfigSet_badSpeed {v : Nat} (h : v = 0 ∨ 3 < v) (u : State) : miConfigSet u 1 v = .error 4 :=
  if_neg (by simp [within]; omega)

theorem messageTaken_rd (s : State) {f : Fld} (h : fieldKey f 0 0 ≠ fieldKey rSBI_MCTP_RX 0 0) :
    (messageTaken s).rd f = s.rd f :=
  (State.bump_rd_ne _ _ h).trans ((s.wake_keeps _).rd_eq f)

/-! ### The VPD area -/

/-- Bytes put one after another from an offset. -/
def vpdPut (off : Nat) (l : List (Byte × Nat)) (t : Tbl Byte) : Tbl Byte :=
  l.foldl (fun (t : Tbl Byte) (b : Byte × Nat) => Tbl.put t (off + b.2) b.1 0) t

theorem vpdPut_getD (data : List Byte) (off n k : Nat) (t : Tbl Byte) :
    Tbl.getD (vpdPut off (data.zipIdx n) t) k 0 =
      if off + n ≤ k ∧ k < off + n + data.length then data.getD (k - (off + n)) 0 else Tbl.getD t k 0 := by
  induction data generalizing n t with
  | nil =>
    rw [List.length_nil, if_neg (by omega)]
    rfl
  | cons b data ih =>
    rw [List.zipIdx_cons, vpdPut, List.foldl_cons, ← vpdPut, ih, List.length_cons]
    by_cases h0 : k = off + n
    · rw [if_neg (by omega), if_pos (by omega), Tbl.getD_put, if_pos h0, h0, Nat.sub_self]
      rfl
    · rw [Tbl.getD_put, if_neg h0]
      by_cases h1 : off + (n + 1) ≤ k ∧ k < off + (n + 1) + data.length
      · rw [if_pos h1, if_pos (by omega), show k - (off + n) = k - (off + (n + 1)) + 1 by omega]
        rfl
      · rw [if_neg h1, if_neg (by omega)]

/-- The state in which bytes are stored in the VPD area. -/
def vpdStored (s : State) (off : Nat) (data : List Byte) : State :=
  s.setNor { s.nor with vpd := vpdPut off data.zipIdx s.nor.vpd }

theorem vpdStored_getD (s : State) (off : Nat) (data : List Byte) (k : Nat) :
    Tbl.getD (vpdStored s off data).nor.vpd k 0 =
      if off ≤ k ∧ k < off + data.length then data.getD (k - off) 0 else Tbl.getD s.nor.vpd k 0 :=
  vpdPut_getD data off 0 k s.nor.vpd

theorem miVpdWrite_stores {off : Nat} {data : List Byte} (h : off + data.length ≤ 256) (s : State) :
    miVpdWrite s off data = .ok (vpdStored s off data) := if_neg (by omega)

/-- What is stored reads back, in any state with the same area. -/
theorem miVpdRead_stored {off : Nat} {data : List Byte} (h : off + data.length ≤ 256) {s t : State}
    (ht : t.nor = (vpdStored s off data).nor) : miVpdRead t off data.length = .ok data := by
  refine (if_neg (by omega)).trans (congrArg _ (List.ext_getElem (by simp) fun k _ hk => ?_))
  rw [List.getElem_map, List.getElem_range, ht, vpdStored_getD, if_pos (by omega), Nat.add_sub_cancel_left]
  simp [List.getD, hk]

/-! ### Device resets -/

theorem armDeviceReset_arms (hp : s.bot.phase ≠ 0) (hs : s.thm.snuff ≠ .off) (cause : ResetCause) :
    armDeviceReset s cause = s.setBot { s.bot with resetArm := some (s.bot.resetArm.getD cause) } :=
  if_neg (by rintro (h | h); exacts [hp h, hs h])

end

/-! ## Tunnelled admin commands -/

section
variable {s : State} {f op nsid dw10 dw11 off len : Nat}

/-- The answer of the tunnel, by its opcode. -/
def tunnelAnswer (u : State) (f op nsid dw10 dw11 off len : Nat) : Except Status (List Byte) :=
  match op with
  | 0x02 => tunnelPage u f (dw10 % 256) (dw10 / 256 % 128) (dw11 / 65536) off len
  | 0x06 => identifyData u f (dw10 % 256) nsid (dw10 / 65536) (dw11 / 2 ^ 24)
  | 0x0A => tunnelFeature u f (dw10 % 256) dw11
  | _ => .error stInvalidOpcode

theorem tunnelAnswer_other (u : State) (h2 : op ≠ 2) (h6 : op ≠ 6) (h10 : op ≠ 10) :
    tunnelAnswer u f op nsid dw10 dw11 off len = .error stInvalidOpcode := by
  unfold tunnelAnswer
  split
  · exact absurd rfl h2
  · exact absurd rfl h6
  · exact absurd rfl h10
  · rfl

section
variable (hu : sbiUp s = true) (hm : miServed s = true)
include hu hm

theorem tunnel_free (hf : (s.fn f).state = .free) :
    exec (.tunnelledAdminCommand true f op nsid dw10 dw11 off len) s =
      .next ((messageTaken s).answer (.refusal 4)) := by
  refine congrArg Host.Outcome.next ((miIn_taken hu hm).trans (if_pos ?_))
  rw [(messageTaken_keeps s).fn_eq]
  exact hf

theorem tunnel_answers (hf : (s.fn f).state ≠ .free) {x : List Byte}
    (hx : tunnelAnswer (messageTaken s) f op nsid dw10 dw11 off len = .ok x) :
    exec (.tunnelledAdminCommand true f op nsid dw10 dw11 off len) s =
      .next ((messageTaken s).answer (.bytes x)).draw.2 := by
  refine congrArg Host.Outcome.next ((miIn_taken hu hm).trans ((if_neg ?_).trans ?_))
  · rw [(messageTaken_keeps s).fn_eq]
    exact hf
  · change (match tunnelAnswer (messageTaken s) f op nsid dw10 dw11 off len with | .ok _ => _ | .error _ => _) = _
    rw [hx]

theorem tunnel_refuses (hf : (s.fn f).state ≠ .free) {x : Status}
    (hx : tunnelAnswer (messageTaken s) f op nsid dw10 dw11 off len = .error x) :
    exec (.tunnelledAdminCommand true f op nsid dw10 dw11 off len) s =
      .next ((messageTaken s).answer (.refusal (256 * x.sct + x.sc))) := by
  refine congrArg Host.Outcome.next ((miIn_taken hu hm).trans ((if_neg ?_).trans ?_))
  · rw [(messageTaken_keeps s).fn_eq]
    exact hf
  · change (match tunnelAnswer (messageTaken s) f op nsid dw10 dw11 off len with | .ok _ => _ | .error _ => _) = _
    rw [hx]

end

end

/-! ## NVMe-MI in-band -/

section
variable {s : State} {seq op a v : Nat} {data : List Byte} {c : Cmd}

/-- What NVMe-MI Send does, by its opcode. -/
def sendResult (s : State) (op a v : Nat) (data : List Byte) : Except Nat State :=
  match op with
  | 3 => miConfigSet s a v
  | 6 => miVpdWrite s a data
  | 7 => .ok (armDeviceReset s .nvmeMi)
  | _ => .error miInvalidOpcode

theorem sendResult_other (h : op ∉ [3, 6, 7]) : sendResult s op a v data = .error 3 := by
  unfold sendResult
  split
  · simp at h
  · simp at h
  · simp at h
  · rfl

/-- What NVMe-MI Receive answers, by its opcode. -/
def receiveResult (s : State) (op a v : Nat) : MiReply :=
  match op with
  | 0 => miStructure s a v
  | 1 => .ok (miSubsystem s)
  | 2 => .ok (miControllers s a v)
  | 4 => miConfigGet s a
  | 5 => miVpdRead s a v
  | _ => .error miInvalidOpcode

theorem receiveResult_other (h : op ∉ [0, 1, 2, 4, 5]) : receiveResult s op a v = .error 3 := by
  unfold receiveResult
  split
  · simp at h
  · simp at h
  · simp at h
  · simp at h
  · simp at h
  · rfl

section
variable (h : s.adminCmd seq = some c) (h0 : c.fn = 0)
include h h0

theorem nvmeMiSend_acts {t : State} (ht : sendResult s op a v data = .ok t) :
    exec (.nvmeMiSend seq op a v data) s = .next (t.finish seq stOk) := by
  refine (exec_manager (i := .nvmeMiSend seq op a v data) rfl h h0).trans (congrArg Host.Outcome.next ?_)
  change (match sendResult s op a v data with | .ok _ => _ | .error _ => _) = _
  rw [ht]

theorem nvmeMiSend_refused {e : Nat} (ht : sendResult s op a v data = .error e) :
    exec (.nvmeMiSend seq op a v data) s = .next (s.complete seq stOk (BitVec.ofNat 32 e)) := by
  refine (exec_manager (i := .nvmeMiSend seq op a v data) rfl h h0).trans (congrArg Host.Outcome.next ?_)
  change (match sendResult s op a v data with | .ok _ => _ | .error _ => _) = _
  rw [ht]

theorem nvmeMiReceive_answers {x : List Byte} (hx : receiveResult s op a v = .ok x) :
    ∃ t, exec (.nvmeMiReceive seq op a v) s = .next t ∧ s.ends t seq stOk 0 ∧ t.ans = .bytes x := by
  refine exec_replies (State.adminCmd_cmd? h) (t := s.draw.2) ?_ s.draw_keeps
  refine (exec_manager (i := .nvmeMiReceive seq op a v) rfl h h0).trans (congrArg Host.Outcome.next ?_)
  change (match receiveResult s op a v with | .ok _ => _ | .error _ => _) = _
  rw [hx]

theorem nvmeMiReceive_refused {e : Nat} (hx : receiveResult s op a v = .error e) :
    exec (.nvmeMiReceive seq op a v) s = .next (s.complete seq stOk (BitVec.ofNat 32 e)) := by
  refine (exec_manager (i := .nvmeMiReceive seq op a v) rfl h h0).trans (congrArg Host.Outcome.next ?_)
  change (match receiveResult s op a v with | .ok _ => _ | .error _ => _) = _
  rw [hx]

theorem nvmeMiSend_vpdWrite {off : Nat} (hl : off + data.length ≤ 256) :
    ∃ t, exec (.nvmeMiSend seq 6 off v data) s = .next t ∧ s.ends t seq stOk 0 ∧
      miVpdRead t off data.length = .ok data :=
  ⟨_, nvmeMiSend_acts h h0 (miVpdWrite_stores hl s), State.finish_ends (State.adminCmd_cmd? h) rfl rfl rfl,
    miVpdRead_stored hl (State.finish_keeps _ _ _).nor_eq⟩

theorem nvmeMiSend_reset : ∃ t, exec (.nvmeMiSend seq 7 a v data) s = .next t ∧ s.ends t seq stOk 0 ∧
    (s.bot.phase ≠ 0 → s.thm.snuff ≠ .off → t.bot.resetArm = some (s.bot.resetArm.getD .nvmeMi)) := by
  have hk : Frame [.bot] s (armDeviceReset s .nvmeMi) := armDeviceReset_frame (List.Subset.refl _) (Frame.refl _ s)
  refine ⟨_, nvmeMiSend_acts h h0 (rfl : sendResult s 7 a v data = .ok (armDeviceReset s .nvmeMi)),
    State.complete_ends_of_frame (State.adminCmd_cmd? h) hk _ _, fun hp hs => ?_⟩
  rw [(State.finish_keeps _ _ _).bot_eq, armDeviceReset_arms hp hs]
  rfl

theorem nvmeMiSend_unit (h1 : 64 ≤ v) (h2 : v ≤ 250) : ∃ t, exec (.nvmeMiSend seq 3 3 v data) s = .next t ∧
    s.ends t seq stOk 0 ∧ t.sbi.mtu = v := by
  refine ⟨_, nvmeMiSend_acts h h0 (miConfigSet_unit h1 h2 s), State.finish_ends (State.adminCmd_cmd? h) rfl rfl rfl, ?_⟩
  rw [(State.finish_keeps _ _ _).sbi_eq]
  rfl

end

theorem nvmeMiSend_tenant (h : s.adminCmd seq = some c) (h0 : c.fn ≠ 0) :
    exec (.nvmeMiSend seq op a v data) s = .next (s.finish seq stInvalidOpcode) :=
  exec_manager_tenant (i := .nvmeMiSend seq op a v data) rfl h h0

theorem nvmeMiReceive_tenant (h : s.adminCmd seq = some c) (h0 : c.fn ≠ 0) :
    exec (.nvmeMiReceive seq op a v) s = .next (s.finish seq stInvalidOpcode) :=
  exec_manager_tenant (i := .nvmeMiReceive seq op a v) rfl h h0

end

/-! ## Basic management, UART and JTAG -/

theorem lay_length (n : Nat) (rest : Nat → Byte) (fs : List (Nat × List Byte)) : (lay n rest fs).length = n := by
  simp [lay]

section
variable {s : State} (hu : sbiUp s = true)
include hu

theorem basicManagementCommand_answers (hm : miServed s = true) :
    ∃ t b, exec .basicManagementCommand s = .next t ∧ t.ans = .bytes b ∧ b.length = 31 ∧
      Frame [.ans, .draws, .gate] s t := by
  refine ⟨_, _, congrArg Host.Outcome.next (if_neg (by simp [hu, hm])), (miReply_ok _ _).1, lay_length _ _ _, ?_⟩
  exact ((s.wake_keeps _).mono (by decide)).trans ((miReply_ok _ _).2.mono (by decide))

theorem uartConsoleInput_taken (data : List Byte) (he : s.rd rSBI_UART_IN_EN = 1) :
    exec (.uartConsoleInput data) s =
      .next ((s.wake uartDomain).setSbi { s.sbi with console := s.sbi.console ++ data }) := by
  have hk := s.wake_keeps uartDomain
  refine congrArg Host.Outcome.next ((if_neg (by simp [hu])).trans ((if_pos ((hk.rd_eq _).trans he)).trans ?_))
  rw [hk.sbi_eq]

theorem uartConsoleInput_ignored (data : List Byte) (he : s.rd rSBI_UART_IN_EN = 0) :
    exec (.uartConsoleInput data) s = .next (s.wake uartDomain) := by
  refine congrArg Host.Outcome.next ((if_neg (by simp [hu])).trans (if_neg ?_))
  rw [(s.wake_keeps uartDomain).rd_eq, he]
  decide

end

theorem jtagPinInstructionExit_arms {s : State} (hp : s.bot.phase ≠ 0) (hs : s.thm.snuff ≠ .off) :
    ∃ t, exec .jtagPinInstructionExit s = .next t ∧ t.bot.resetArm = some (s.bot.resetArm.getD .jtag) ∧
      Frame [.gate, .bot] s t := by
  have hk := s.wake_keeps jtagDomain
  refine ⟨_, rfl, ?_, armDeviceReset_frame (by decide) (hk.mono (by decide))⟩
  rw [armDeviceReset_arms (by rwa [hk.bot_eq]) (by rwa [hk.thm_eq]), State.setBot_bot, hk.bot_eq]

/-! ## The requests over SMBus -/

section
variable {s : State} (hu : sbiUp s = true)
include hu

theorem setEndpointId_assigns {eid : Nat} (h8 : 8 ≤ eid) (h254 : eid ≤ 254) :
    ∃ t, exec (.setEndpointId true eid) s = .next t ∧ t.sbi.eid = eid ∧ t.shows eSBI_EID_SET ∧
      Frame [.gate, .sbi, .pages, .regs] s t := by
  have hk := messageTaken_keeps s
  refine ⟨_, congrArg Host.Outcome.next ((mctpIn_taken hu).trans (if_pos (by simp [within]; omega))), ?_,
    State.ev_shows _ (by decide), State.ev_frame (by decide) (State.setSbi_frame (by decide) (hk.mono (by decide)))⟩
  rw [State.ev_sbi]
  rfl

variable (hm : miServed s = true)
include hm

theorem configurationSet_speed {v : Nat} (h1 : 1 ≤ v) (h3 : v ≤ 3) :
    ∃ t, exec (.configurationSet true 1 v) s = .next t ∧ t.ans = .none ∧ t.rd rSBI_SMB_SPEED = v - 1 ∧
      Frame [.ans, .gate, .regs] s t := by
  refine ⟨((messageTaken s).wr rSBI_SMB_SPEED (v - 1)).answer .none,
    miChange_acts (i := .configurationSet true 1 v) rfl hu hm (miConfigSet_speed h1 h3 _), rfl, ?_,
    State.answer_frame (by decide) (State.wr_frame (by decide) ((messageTaken_keeps s).mono (by decide)))⟩
  refine (State.wr_rd _ _ _).trans (Nat.mod_eq_of_lt ?_)
  change v - 1 < 4
  omega

theorem configurationSet_unit {v : Nat} (h1 : 64 ≤ v) (h3 : v ≤ 250) :
    ∃ t, exec (.configurationSet true 3 v) s = .next t ∧ t.ans = .none ∧ t.sbi.mtu = v ∧ t.sbi.eid = s.sbi.eid ∧
      Frame [.ans, .gate, .sbi, .regs] s t := by
  have hk := messageTaken_keeps s
  have heid : (messageTaken s).sbi.eid = s.sbi.eid := by rw [hk.sbi_eq]
  exact ⟨_, miChange_acts (i := .configurationSet true 3 v) rfl hu hm (miConfigSet_unit h1 h3 _), rfl, rfl,
    heid, State.answer_frame (by decide) (State.setSbi_frame (by decide) (hk.mono (by decide)))⟩

theorem configurationSet_badSpeed {v : Nat} (hv : v = 0 ∨ 3 < v) :
    ∃ t, exec (.configurationSet true 1 v) s = .next t ∧ t.ans = .refusal 4 ∧
      t.rd rSBI_SMB_SPEED = s.rd rSBI_SMB_SPEED ∧ Frame [.ans, .gate, .regs] s t := by
  obtain ⟨t, ht, ha, hr, hf⟩ := miChange_refused (i := .configurationSet true 1 v) rfl hu hm (miConfigSet_badSpeed hv _)
  exact ⟨t, ht, ha, (State.rd_congr hr _).trans (messageTaken_rd s (by decide)), hf⟩

theorem vpdWrite_stores {off : Nat} {data : List Byte} (hl : off + data.length ≤ 256) :
    ∃ t, exec (.vpdWrite true off data) s = .next t ∧ t.ans = .none ∧ miVpdRead t off data.length = .ok data ∧
      (∀ k, k < off ∨ off + data.length ≤ k → Tbl.getD t.nor.vpd k 0 = Tbl.getD s.nor.vpd k 0) ∧
      Frame [.ans, .gate, .nor, .regs] s t := by
  have hk := messageTaken_keeps s
  refine ⟨(vpdStored (messageTaken s) off data).answer .none,
    miChange_acts (i := .vpdWrite true off data) rfl hu hm (miVpdWrite_stores hl _), rfl, miVpdRead_stored hl rfl,
    fun k ho => ?_, State.answer_frame (by decide) (State.setNor_frame (by decide) (hk.mono (by decide)))⟩
  refine (vpdStored_getD (messageTaken s) off data k).trans ?_
  rw [if_neg (by omega), hk.nor_eq]

theorem nvmeMiReset_arms (hs : s.thm.snuff ≠ .off) :
    ∃ t, exec (.nvmeMiReset true) s = .next t ∧ t.ans = .none ∧
      t.bot.resetArm = some (s.bot.resetArm.getD .nvmeMi) ∧ Frame [.ans, .gate, .bot, .regs] s t := by
  have hk := messageTaken_keeps s
  have hp : s.bot.phase ≠ 0 := by
    have := of_decide_eq_true hm
    omega
  have ha := armDeviceReset_arms (s := messageTaken s) (by rwa [hk.bot_eq]) (by rwa [hk.thm_eq]) .nvmeMi
  refine ⟨_, miChange_acts (i := .nvmeMiReset true) rfl hu hm (congrArg Except.ok ha), rfl, ?_,
    State.answer_frame (by decide) (State.setBot_frame (by decide) (hk.mono (by decide)))⟩
  exact congrArg (fun b : Bot => some (b.resetArm.getD .nvmeMi)) hk.bot_eq

end

/-- Settles O45: each request's answer and what it changes. -/
theorem sidebandRequestsAnswer : Obligations.SidebandRequestsAnswer := by
  refine ⟨fun s eid hu h8 h254 => ?_, fun s pec i a b c d e f g data ws x y hi => ⟨fun hu => ?_, fun hu hp => ?_⟩,
    fun s u i a b r hu hm hut hi => ?_, fun s v hu hm => ⟨fun cfg x hx => ?_, fun h1 h3 => ?_, fun h1 h3 => ?_,
      fun hv => ?_⟩, fun s off data hu hm hl => ?_, fun s hu hm hs => ?_,
    fun s u f op nsid dw10 dw11 off len r hu hm hut hr => ?_,
    fun s hu hm => basicManagementCommand_answers hu hm, fun s data hu => ⟨fun he => ?_, fun he => ?_⟩,
    fun s hp hs => jtagPinInstructionExit_arms hp hs,
    fun s seq a v data c h => ⟨fun h0 h1 h2 => ⟨nvmeMiSend_unit h h0 h1 h2, nvmeMiReceive_answers h h0 rfl⟩,
      fun h0 => ⟨fun off hl => nvmeMiSend_vpdWrite h h0 hl, nvmeMiSend_reset h h0, fun op hop => ?_, fun op hop => ?_,
        fun op x hx => ?_⟩, fun h0 => ⟨?_, ?_⟩⟩⟩
  · exact setEndpointId_assigns hu h8 h254
  · obtain ⟨act, ha⟩ := message_mctpIn s hi
    rw [ha, mctpIn_down hu]
  · subst hp
    obtain ⟨act, ha⟩ := message_mctpIn s hi
    rw [ha, mctpIn_badPec hu]
    exact ⟨_, rfl, State.ev_shows _ (by decide), badPec_keeps s⟩
  · subst hut
    rcases hi with ⟨rfl, rfl⟩ | ⟨rfl, rfl⟩ | ⟨rfl, rfl⟩ | ⟨rfl, rfl⟩ | ⟨rfl, rfl⟩
    · exact miRead_answers (g := fun t => miStructure t a b) rfl hu hm
    · exact miRead_answers (g := fun t => .ok (miSubsystem t)) rfl hu hm
    · exact miRead_answers (g := fun t => .ok (miControllers t a b)) rfl hu hm
    · exact miRead_answers (g := fun t => miConfigGet t a) rfl hu hm
    · exact miRead_answers (g := fun t => miVpdRead t a b) rfl hu hm
  · obtain ⟨t, ht, ha, -, hf⟩ := miChange_refused (i := .configurationSet true cfg v) rfl hu hm (miConfigSet_error hx _)
    exact ⟨t, ht, ha, hf⟩
  · exact configurationSet_speed hu hm h1 h3
  · exact configurationSet_unit hu hm h1 h3
  · exact configurationSet_badSpeed hu hm hv
  · exact vpdWrite_stores hu hm hl
  · exact nvmeMiReset_arms hu hm hs
  · have hk := messageTaken_keeps s
    have hr' : tunnelAnswer (messageTaken s) f op nsid dw10 dw11 off len = r := by
      subst hut
      rcases hr with ⟨rfl, rfl⟩ | ⟨rfl, rfl⟩ | ⟨rfl, rfl⟩ | ⟨h2, h6, h10, rfl⟩
      · rfl
      · rfl
      · rfl
      · exact tunnelAnswer_other _ h2 h6 h10
    refine ⟨fun hf => ⟨_, tunnel_free hu hm hf, rfl, State.answer_frame (by decide) (hk.mono (by decide))⟩,
      fun hf => ⟨fun x hx => ⟨_, tunnel_answers hu hm hf (hr'.trans hx), rfl, ?_⟩,
        fun x hx => ⟨_, tunnel_refuses hu hm hf (hr'.trans hx), rfl,
          State.answer_frame (by decide) (hk.mono (by decide))⟩⟩⟩
    exact State.setDraws_frame (by decide) (State.answer_frame (by decide) (hk.mono (by decide)))
  · exact ⟨_, uartConsoleInput_taken hu data he, rfl,
      State.setSbi_frame (by decide) ((s.wake_keeps _).mono (by decide))⟩
  · exact ⟨_, uartConsoleInput_ignored hu data he, s.wake_keeps _⟩
  · exact ⟨_, nvmeMiSend_refused h h0 (sendResult_other hop), State.complete_ends_self (State.adminCmd_cmd? h) _ _⟩
  · exact ⟨_, nvmeMiReceive_refused h h0 (receiveResult_other hop),
      State.complete_ends_self (State.adminCmd_cmd? h) _ _, State.complete_ans _ _ _ _⟩
  · refine nvmeMiReceive_answers h h0 ?_
    rcases hx with ⟨rfl, hx⟩ | ⟨rfl, rfl⟩ | ⟨rfl, rfl⟩ | ⟨rfl, hx⟩ | ⟨rfl, hx⟩
    · exact hx
    · rfl
    · rfl
    · exact hx
    · exact hx
  · exact ⟨_, nvmeMiSend_tenant h h0, State.finish_ends_self (State.adminCmd_cmd? h) _, (s.finish_keeps seq _).sbi_eq⟩
  · exact ⟨_, nvmeMiReceive_tenant h h0, State.finish_ends_self (State.adminCmd_cmd? h) _, State.finish_ans _ _ _⟩

end Sys2Proof.Machine
end

section
/-! PROOFS. Functions and tenants (O17-O21): the manager's commands and what they arm, Restore and its checks, the
changes at the boundary, the events of functions, and the log pages of a function. -/

-- one proof after another: many at once would each hold a thread of the compiler
set_option Elab.async false

namespace Sys2Proof.Machine

open Sys2Proof

/-! ## Commands of the manager (R134) -/

section
variable {s : State} {seq f : Nat} {c : Cmd} {i : Instr} {act : State → State}

/-- A manager command on a function number up to 255 runs its action for function 0. -/
theorem exec_fnManager (hi : exec i s = .next (s.manager seq f act)) (h : s.adminCmd seq = some c) (h0 : c.fn = 0)
    (hf : f ≤ 255) : exec i s = .next (act s) :=
  (exec_admin hi h).trans (congrArg _ ((if_neg (not_not_intro h0)).trans (if_neg (Nat.not_lt.2 hf))))

/-- It is refused to a tenant. -/
theorem exec_fnManager_tenant (hi : exec i s = .next (s.manager seq f act)) (h : s.adminCmd seq = some c)
    (h0 : c.fn ≠ 0) : exec i s = .next (s.finish seq stInvalidOpcode) :=
  (exec_admin hi h).trans (congrArg _ (if_pos h0))

theorem State.arm_waits (h : s.cmd? seq = some c) (f : Nat) (a : FnArm) : s.waits (s.arm seq f a) seq :=
  State.hold_waits h rfl

theorem State.arm_fn (s : State) (seq f : Nat) (a : FnArm) :
    (s.arm seq f a).fn f = { s.fn f with arms := (s.fn f).arms ++ [(a, seq)] } :=
  (State.fn_congr (State.hold_fns _ _) f).trans (State.updFn_fn_self s f _)

/-- A command that arms a change waits, the change stands behind those armed before, and any reading `p` of the function
that leaves out its armed changes stays. -/
theorem exec_arms {β : Type} (p : Fn → β) (hp : ∀ x l, p { x with arms := l } = p x) {a : FnArm}
    (h : s.cmd? seq = some c) (hi : exec i s = .next (s.arm seq f a)) :
    ∃ t, exec i s = .next t ∧ s.waits t seq ∧ (t.fn f).arms = (s.fn f).arms ++ [(a, seq)] ∧ p (t.fn f) = p (s.fn f) :=
  ⟨_, hi, State.arm_waits h f a, by rw [State.arm_fn], by rw [State.arm_fn, hp]⟩

end

/-! ### What each command arms (O17) -/

section
variable {s : State} {seq f : Nat} {c : Cmd} (h : s.adminCmd seq = some c) (h0 : c.fn = 0) (hf : f ≤ 255)
include h h0 hf

theorem functionCreate_arms {data : List Byte} {g : Harness} (hf0 : f ≠ 0) (ha : armedState (s.fn f) = .free)
    (hh : held (s.fn f).state = false) (hp : parseHarness data = some (f, g)) (hr : g.inRange = true)
    (hfit : poolReject s f g = 0) : exec (.functionCreate seq f data) s = .next (s.arm seq f (.create g)) := by
  refine (exec_fnManager (i := .functionCreate seq f data) rfl h h0 hf).trans (congrArg Host.Outcome.next ?_)
  dsimp only
  rw [if_neg (by simp [hh]), if_neg (by simp [ha, hf0]), hp]
  dsimp only
  rw [if_neg (by simp [hr]), if_neg (not_not_intro hfit)]

theorem functionDelete_arms (hf0 : f ≠ 0) (ha : armedState (s.fn f) ≠ .free) (hd : (s.fn f).deleteWait = none) :
    exec (.functionDelete seq f) s = .next (s.arm seq f .delete) := by
  refine (exec_fnManager (i := .functionDelete seq f) rfl h h0 hf).trans (congrArg Host.Outcome.next (if_neg ?_))
  simp [hf0, ha, hd]

theorem functionBind_arms {kind : Nat} {b : Machine.Bind} (hf0 : f ≠ 0) (ha : armedState (s.fn f) ≠ .free)
    (hh : held (armedState (s.fn f)) = false)
    (hb : (kind = 0 ∧ b = .none) ∨ (kind = 1 ∧ b = .pcie ∧ vfEnabled s f = true) ∨ (kind = 2 ∧ b = .network)) :
    exec (.functionBind seq f kind) s = .next (s.arm seq f (.bind b)) := by
  refine (exec_fnManager (i := .functionBind seq f kind) rfl h h0 hf).trans (congrArg Host.Outcome.next ?_)
  dsimp only
  rw [if_neg hf0, if_neg ha, if_neg (by simp [hh])]
  rcases hb with ⟨rfl, rfl⟩ | ⟨rfl, rfl, hv⟩ | ⟨rfl, rfl⟩
  · rfl
  · exact if_pos hv
  · rfl

theorem harnessSet_arms {data : List Byte} {g : Harness}
    (ha : f ≠ 0 → armedState (s.fn f) ≠ .free ∧ held (armedState (s.fn f)) = false)
    (hp : parseHarness data = some (f, g)) (hr : g.inRange = true) (ht : g.tether = (armedHarness (s.fn f)).tether)
    (hz : g.openZones = 0 → holdsZoned s (s.fn f) = false) (hfit : poolReject s f g = 0) :
    exec (.harnessSet seq f data) s = .next (s.arm seq f (.harness g)) := by
  refine (exec_fnManager (i := .harnessSet seq f data) rfl h h0 hf).trans (congrArg Host.Outcome.next ?_)
  dsimp only
  rw [if_neg fun e => (ha e.1).1 e.2, if_neg fun e => by simp [(ha e.1).2] at e, hp]
  dsimp only
  rw [if_neg (by simp [hr]), if_neg fun e => e.1 ht, if_neg fun e => by simp [hz e.1] at e,
    if_neg (not_not_intro hfit)]

theorem functionFreeze_arms (hf0 : f ≠ 0) (ha : armedState (s.fn f) = .active) : exec (.functionFreeze seq f) s =
    .next ((s.arm seq f .freeze).updFn f fun x => { x with freezeWait := x.freezeWait ++ [seq] }) := by
  refine (exec_fnManager (i := .functionFreeze seq f) rfl h h0 hf).trans (congrArg Host.Outcome.next ?_)
  dsimp only
  rw [ha]
  exact if_neg hf0

theorem functionSave_arms (hf0 : f ≠ 0) (ha : armedState (s.fn f) = .frozen) (hk : (migKey s).isSome = true)
    (hh : s.key.health = true) : exec (.functionSave seq f) s = .next ((useDrbg s).arm seq f .save) :=
  (exec_fnManager (i := .functionSave seq f) rfl h h0 hf).trans
    (congrArg Host.Outcome.next ((if_pos ⟨ha, hk, hf0⟩).trans (if_pos hh)))

theorem functionThaw_arms (hf0 : f ≠ 0) (ha : armedState (s.fn f) = .frozen ∨ armedState (s.fn f) = .saved) :
    exec (.functionThaw seq f) s = .next (s.arm seq f .thaw) := by
  refine (exec_fnManager (i := .functionThaw seq f) rfl h h0 hf).trans (congrArg Host.Outcome.next ?_)
  rcases ha with ha | ha
  · rw [ha]
    exact if_neg hf0
  · rw [ha]

end

theorem useDrbg_keeps (s : State) : Frame [.gate, .key] s (useDrbg s) :=
  useDrbg_frame (List.Subset.refl _) (Frame.refl _ s)

/-- The commands on functions that only the manager may give (R134). -/
theorem exec_manager_of_mem {s : State} {seq f kind : Nat} {data : List Byte} {plain : Option (List Byte)}
    {keys : List (Option Nat)} {i : Instr}
    (hi : i ∈ [Instr.functionCreate seq f data, .functionDelete seq f, .functionBind seq f kind,
      .harnessSet seq f data, .functionFreeze seq f, .functionSave seq f, .functionThaw seq f,
      .functionRestore seq f kind data plain keys]) : ∃ act, exec i s = .next (s.manager seq f act) := by
  simp only [List.mem_cons, List.not_mem_nil, or_false] at hi
  rcases hi with rfl | rfl | rfl | rfl | rfl | rfl | rfl | rfl <;> exact ⟨_, rfl⟩

/-- Settles O17, command by command: each arms its change, and a tenant's ends with Invalid Command Opcode. -/
theorem managerCommandsArmTheirChange : Obligations.ManagerCommandsArmTheirChange := by
  unfold Obligations.ManagerCommandsArmTheirChange
  refine ⟨fun s seq f data g c h h0 hf hf0 ha hh hp hr hfit => ?_, fun s seq f c h h0 hf hf0 ha hd => ?_,
    fun s seq f kind b c h h0 hf hf0 ha hh hb => ?_, fun s seq f data g c h h0 hf ha hp hr ht hz hfit => ?_,
    fun s seq f c h h0 hf hf0 ha => ?_, fun s seq f c h h0 hf hf0 ha hk hh => ?_,
    fun s seq f c h h0 hf hf0 ha => ?_, fun s seq f kind data plain keys c i h h0 hi => ?_⟩
  all_goals have hc := State.adminCmd_cmd? h
  · exact exec_arms Fn.state (fun _ _ => rfl) hc (functionCreate_arms h h0 hf hf0 ha hh hp hr hfit)
  · exact exec_arms Fn.state (fun _ _ => rfl) hc (functionDelete_arms h h0 hf hf0 ha hd)
  · exact exec_arms Fn.bind (fun _ _ => rfl) hc (functionBind_arms h h0 hf hf0 ha hh hb)
  · exact exec_arms Fn.harness (fun _ _ => rfl) hc (harnessSet_arms h h0 hf ha hp hr ht hz hfit)
  · refine ⟨_, functionFreeze_arms h h0 hf hf0 ha, State.waits_then (State.arm_waits hc f .freeze) rfl, ?_, ?_⟩ <;>
      rw [State.updFn_fn_self, State.arm_fn]
  · have hk' := useDrbg_keeps s
    refine ⟨_, functionSave_arms h h0 hf hf0 ha hk hh, State.hold_waits hc (congrArg Qmx.cmds hk'.qmx_eq), ?_, rfl⟩
    rw [State.arm_fn, hk'.fn_eq]
  · exact exec_arms Fn.state (fun _ _ => rfl) hc (functionThaw_arms h h0 hf hf0 ha)
  · obtain ⟨act, hact⟩ := exec_manager_of_mem (s := s) hi
    exact ⟨_, exec_fnManager_tenant hact h h0, State.finish_ends_self hc _, State.finish_keeps _ _ _,
      fun g hg => State.complete_fn_ne _ _ hc hg⟩

/-! ## Restore (O18) -/

section
variable {s : State} {seq f kind : Nat}

/-- A record that passes steps 5 and 6 of R131 is armed. -/
theorem restoreFits_arms {r : MigRecord} {b : Machine.Bind} (hr : r.harness.inRange = true)
    (hfit : poolReject s f r.harness = 0) (hb : (kind = 0 ∧ b = .none) ∨ (kind = 2 ∧ b = .network)) :
    restoreFits s seq f kind r = s.arm seq f (.restore r b) := by
  unfold restoreFits
  rw [if_neg (by simp [hr]), if_neg (not_not_intro hfit)]
  rcases hb with ⟨rfl, rfl⟩ | ⟨rfl, rfl⟩
  · rfl
  · rfl

variable {c : Cmd} {rec : List Byte} {keys : List (Option Nat)} (h : s.adminCmd seq = some c) (h0 : c.fn = 0)
  (hf : f ≤ 255) (hf0 : f ≠ 0) (ha : armedState (s.fn f) = .free)
include h h0 hf hf0 ha

theorem functionRestore_arms {body : List Byte} {b : Machine.Bind} {r : MigRecord} {k : KeySlot}
    (hform : recordForm rec = true) (hk : migKey s = some k) (hid : k.keyId = recField rec 56 4)
    (hl : body.length + 96 = rec.length) (hp : parseRecord rec body keys (k.key.getD 0) = some r)
    (hsp : r.spaces.zipIdx.all (fun e => restoreSpaceOk s e.1 (keys.getD e.2 none).isSome) = true)
    (hr : r.harness.inRange = true) (hfit : poolReject s f r.harness = 0)
    (hb : (kind = 0 ∧ b = .none) ∨ (kind = 2 ∧ b = .network)) :
    exec (.functionRestore seq f kind rec (some body) keys) s = .next (s.arm seq f (.restore r b)) := by
  refine (exec_fnManager (i := .functionRestore seq f kind rec (some body) keys) rfl h h0 hf).trans
    (congrArg Host.Outcome.next ?_)
  dsimp only
  rw [if_neg (by simp [ha, hf0]), if_neg (by simp [hform]), hk]
  dsimp only
  rw [if_neg (not_not_intro hid), if_neg (not_not_intro hl), hp]
  dsimp only
  rw [if_pos hsp]
  exact restoreFits_arms hr hfit hb

/-- Steps 1 to 3 of R131: the head of the record, its key, its tag. -/
theorem functionRestore_rejects {plain : Option (List Byte)}
    (hx : recordForm rec = false ∨ plain = none ∨ (migKey s).map KeySlot.keyId ≠ some (recField rec 56 4)) :
    exec (.functionRestore seq f kind rec plain keys) s = .next (restoreReject s seq f) := by
  refine (exec_fnManager (i := .functionRestore seq f kind rec plain keys) rfl h h0 hf).trans
    (congrArg Host.Outcome.next ?_)
  dsimp only
  rw [if_neg (by simp [ha, hf0])]
  by_cases hform : recordForm rec = true
  · rw [if_neg (by simp [hform])]
    cases hk : migKey s with
    | none => rfl
    | some k =>
      dsimp only
      by_cases hid : k.keyId = recField rec 56 4
      · have hplain : plain = none := by simpa [hform, hk, hid] using hx
        rw [if_neg (not_not_intro hid), hplain]
      · exact if_pos hid
  · exact if_pos (by simpa using hform)

end

@[simp] theorem State.complete_arms (t : State) (n f : Nat) (x : Status) (d : Dword) :
    ((t.complete n x d).fn f).arms = (t.fn f).arms := by
  obtain ⟨q, m, h⟩ := t.complete_fn n f x d
  rw [h]

/-- A refused Restore as its event and its record stand, before the command ends. -/
def rejectShown (s : State) (f : Nat) : State := (s.ev eTEN_REJECT).raise lTEN_MIG_REJECT (some f) []

theorem rejectShown_keeps (s : State) (f : Nat) : Frame [.evl, .pages, .regs] s (rejectShown s f) :=
  State.raise_frame (by decide) (State.ev_frame (by decide) (Frame.refl _ s))

theorem rejectShown_dscp (s : State) (f : Nat) : (rejectShown s f).rd rNET_DSCP_TX = s.rd rNET_DSCP_TX :=
  (State.raise_rd_ne _ _ _ _ (by decide)).trans (State.ev_rd _ _ _)

/-- Settles O18: a record that passes every check is armed, and one that fails an early check is rejected. -/
theorem restoreIsCheckedInItsOrder : Obligations.RestoreIsCheckedInItsOrder := by
  unfold Obligations.RestoreIsCheckedInItsOrder
  refine ⟨fun s seq f kind b rec body keys r k c h h0 hf hf0 ha hform hk hid hl hp hsp hr hfit hb => ?_,
    fun s seq f kind rec plain keys c h h0 hf hf0 ha hx => ?_⟩
  · exact exec_arms Fn.state (fun _ _ => rfl) (State.adminCmd_cmd? h)
      (functionRestore_arms h h0 hf hf0 ha hform hk hid hl hp hsp hr hfit hb)
  · have hk := rejectShown_keeps s f
    have hu : Frame [.qmx, .fns] (rejectShown s f) (restoreReject s seq f) := State.finish_keeps _ _ _
    refine ⟨_, functionRestore_rejects h h0 hf hf0 ha hx, State.complete_cmd? _ _ _ _,
      State.shows_congr (State.raise_shows (State.ev_shows s (by decide)) _ _ _) hu.pages_eq,
      State.tells_congr (State.raise_tells (State.ev_tbs _ _) _ _ _) hu.evl_eq, ?_,
      State.finish_ends (State.adminCmd_cmd? h) (congrArg Qmx.cmds hk.qmx_eq) hk.fns_eq (rejectShown_dscp s f)⟩
    exact (State.complete_arms _ _ _ _ _).trans (congrArg Fn.arms (hk.fn_eq f))

/-! ## Changes at the boundary (O19) -/

/-- The end of a change: its command completes, and the function table is written (R107, R497). -/
def changeDone (s : State) (f seq : Nat) : State := (s.finish seq stOk).writeTable f [] 0

theorem changeDone_fn (s : State) (f seq g : Nat) :
    ∃ q m, (changeDone s f seq).fn g = { s.fn g with cqs := q, cur := m } := by
  obtain ⟨q, m, e⟩ := s.complete_fn seq g stOk 0
  exact ⟨q, m, (State.fn_congr ((s.finish seq stOk).writeTable_leaves f [] 0).1 g).trans e⟩

/-- Its command is gone, and one write to NOR more waits. -/
theorem changeDone_leaves (s : State) (f seq : Nat) : (changeDone s f seq).cmd? seq = none ∧
    (changeDone s f seq).norWaits.length = s.norWaits.length + 1 := by
  obtain ⟨-, hqmx, hlen⟩ := (s.finish seq stOk).writeTable_leaves f [] 0
  refine ⟨(State.cmd?_congr (congrArg Qmx.cmds hqmx) seq).trans (State.complete_cmd? s seq stOk 0), hlen.trans ?_⟩
  rw [(s.finish_keeps seq stOk).norWaits_eq]

section
variable {s : State} {f seq : Nat}

/-- The one change that waits, neither a harness nor a Save, is taken from the list and applied. -/
theorem applyArms_single {a : FnArm} (h : (s.fn f).arms = [(a, seq)]) (ha : isHarnessArm a = false) (hs : a ≠ .save) :
    applyArms s f = applyArm (s.setFn f { s.fn f with arms := [] }) f a seq := by
  simp [applyArms, takeArms, h, ha, hs]

theorem applyArm_create (s : State) (f seq : Nat) (h : Harness) : ∃ y : Fn, y.state = .idle ∧ y.harness = h ∧
    y.arms = [] ∧ applyArm s f (.create h) seq = changeDone (s.setFn f y) f seq :=
  ⟨_, rfl, rfl, rfl, rfl⟩

theorem applyArm_freeze (s : State) (f seq : Nat) : applyArm s f .freeze seq =
    s.setFn f { s.fn f with state := .draining, drainFor := 0, freezeLate := false } := rfl

theorem applyArm_thaw (h : (s.fn f).record = none) : applyArm s f .thaw seq =
    changeDone (s.setFn f { s.fn f with state := .active }) f seq := by
  unfold applyArm
  dsimp only
  split
  · next r hr => cases h.symm.trans hr
  · rfl

theorem applyArm_delete (h : (s.fn f).state = .idle) :
    applyArm s f .delete seq = changeDone (endFn s f) f seq :=
  if_neg (by simp [h])

/-- A function that ends is FREE and holds no namespace. -/
theorem endFn_fn (s : State) (f : Nat) : ∃ x : Fn, (endFn s f).fn f = freeFn x :=
  ⟨_, State.updFn_fn_self _ f freeFn⟩

theorem endFn_keeps (s : State) (f : Nat) : Frame [.qmx, .fns, .key, .net] s (endFn s f) :=
  endFn_frame (List.Subset.refl _) (Frame.refl _ s)

end

/-- Settles O19, change by change: what it makes of the function, and how its command ends. -/
theorem armedChangesApplyAtTheBoundary : Obligations.ArmedChangesApplyAtTheBoundary := by
  unfold Obligations.ArmedChangesApplyAtTheBoundary
  refine ⟨fun s f seq h ha _ => ?_, fun s f seq ha _ => ?_, fun s f seq ha hr _ => ?_, fun s f seq ha hs _ => ?_⟩
  · obtain ⟨y, hstate, hharness, harms, hy⟩ := applyArm_create (s.setFn f { s.fn f with arms := [] }) f seq h
    rw [applyArms_single ha rfl (by simp), hy]
    obtain ⟨q, m, hfn⟩ := changeDone_fn ((s.setFn f { s.fn f with arms := [] }).setFn f y) f seq f
    rw [hfn, State.setFn_fn_self]
    exact ⟨hstate, hharness, harms, changeDone_leaves _ f seq⟩
  · rw [applyArms_single ha rfl (by simp), applyArm_freeze, State.setFn_fn_self, State.setFn_fn_self]
    exact ⟨rfl, rfl, rfl, rfl⟩
  · have hfn := s.setFn_fn_self f { s.fn f with arms := [] }
    rw [applyArms_single ha rfl (by simp), applyArm_thaw (by rw [hfn]; exact hr), hfn]
    obtain ⟨q, m, hdone⟩ := changeDone_fn
      ((s.setFn f { s.fn f with arms := [] }).setFn f { s.fn f with arms := [], state := .active }) f seq f
    rw [hdone, State.setFn_fn_self]
    exact ⟨rfl, rfl, changeDone_leaves _ f seq⟩
  · have hfn := s.setFn_fn_self f { s.fn f with arms := [] }
    rw [applyArms_single ha rfl (by simp), applyArm_delete (by rw [hfn]; exact hs)]
    obtain ⟨q, m, hdone⟩ := changeDone_fn (endFn (s.setFn f { s.fn f with arms := [] }) f) f seq f
    obtain ⟨x, hx⟩ := endFn_fn (s.setFn f { s.fn f with arms := [] }) f
    obtain ⟨hcmd, hlen⟩ := changeDone_leaves (endFn (s.setFn f { s.fn f with arms := [] }) f) f seq
    rw [hdone, hx]
    rw [(endFn_keeps _ f).norWaits_eq] at hlen
    exact ⟨rfl, rfl, hcmd, hlen⟩

/-! ## Events of functions at the boundary (O20) -/

/-- Commands that end one after another with one status. -/
def finishAll (l : List Nat) (x : Status) (s : State) : State := l.foldl (fun s q => s.finish q x) s

section
variable (l : List Nat) (x : Status) (s : State)

theorem finishAll_keeps : Frame [.qmx, .fns] s (finishAll l x s) :=
  Frame.foldl (fun _ _ h => State.finish_frame (List.Subset.refl _) h) (Frame.refl _ s)

theorem finishAll_onlyLeaves : OnlyLeaves s (finishAll l x s) := by
  induction l generalizing s with
  | nil => exact OnlyLeaves.refl s
  | cons q l ih => exact (s.complete_onlyLeaves q x 0).trans (ih (s.finish q x))

theorem finishAll_cmd? {n : Nat} (h : n ∈ l) : (finishAll l x s).cmd? n = none := by
  induction l generalizing s with
  | nil => cases h
  | cons q l ih =>
    rcases List.mem_cons.1 h with rfl | h
    · exact (finishAll_onlyLeaves l x (s.finish n x)).cmd?_none (s.complete_cmd? n x 0)
    · exact ih (s.finish q x) h

/-- They change nothing of a function but its completion queues and its current meters. -/
theorem finishAll_fn (g : Nat) : ∃ q m, (finishAll l x s).fn g = { s.fn g with cqs := q, cur := m } := by
  induction l generalizing s with
  | nil => exact ⟨_, _, rfl⟩
  | cons n l ih =>
    obtain ⟨q, m, h⟩ := ih (s.finish n x)
    obtain ⟨q', m', h'⟩ := s.complete_fn n g x 0
    exact ⟨q, m, h.trans (congrArg (fun y : Fn => { y with cqs := q, cur := m }) h')⟩

end

/-- A function with a new harness: the changes of its harness are taken, and each bucket is clipped to its depth
(R113). -/
def harnessed (x : Fn) (h : Harness) : Fn :=
  { (takeArms x isHarnessArm).2 with
    harness := h, iopsLevel := min x.iopsLevel (iopsGain h * h.burst : Nat),
    bwLevel := min x.bwLevel (bwGain h * h.burst : Nat) }

section
variable {s : State} {f : Nat}

theorem harnessApply_applies {seq : Nat} {h : Harness} {l : List (FnArm × Nat)}
    (hl : (takeArms (s.fn f) isHarnessArm).1 = l ++ [(.harness h, seq)]) : exec (.harnessApply f) s =
      .next ((finishAll ((l ++ [(FnArm.harness h, seq)]).map Prod.snd) stOk
        (s.setFn f (harnessed (s.fn f) h))).writeTable f [] 0) := by
  have hpair : takeArms (s.fn f) isHarnessArm =
      (l ++ [(.harness h, seq)], (takeArms (s.fn f) isHarnessArm).2) := Prod.ext hl rfl
  change execHarnessApply f s = _
  unfold execHarnessApply finishAll
  rw [hpair, List.foldl_map]
  dsimp only
  rw [if_neg (by simp)]
  simp only [List.foldl_append, List.foldl_cons, List.foldl_nil]
  rfl

/-- The function has the new harness, its buckets lie within their new depths, and the commands that waited are gone. -/
theorem harnessApply_leaves {seq : Nat} {h : Harness} {l : List (FnArm × Nat)}
    (hl : (takeArms (s.fn f) isHarnessArm).1 = l ++ [(.harness h, seq)]) :
    ∃ t, exec (.harnessApply f) s = .next t ∧ (t.fn f).harness = h ∧
      (t.fn f).iopsLevel ≤ (iopsGain h * h.burst : Nat) ∧ (t.fn f).bwLevel ≤ (bwGain h * h.burst : Nat) ∧
      (∀ a ∈ l ++ [(.harness h, seq)], t.cmd? a.2 = none) ∧ t.norWaits.length = s.norWaits.length + 1 := by
  have hk := finishAll_keeps ((l ++ [(FnArm.harness h, seq)]).map Prod.snd) stOk (s.setFn f (harnessed (s.fn f) h))
  obtain ⟨q, m, hfn⟩ :=
    finishAll_fn ((l ++ [(FnArm.harness h, seq)]).map Prod.snd) stOk (s.setFn f (harnessed (s.fn f) h)) f
  obtain ⟨hfns, hqmx, hlen⟩ := State.writeTable_leaves
    (finishAll ((l ++ [(FnArm.harness h, seq)]).map Prod.snd) stOk (s.setFn f (harnessed (s.fn f) h))) f [] 0
  refine ⟨_, harnessApply_applies hl, ?_⟩
  rw [State.fn_congr hfns, hfn, State.setFn_fn_self, hlen, hk.norWaits_eq]
  exact ⟨rfl, min_le_right _ _, min_le_right _ _, fun a ha => (State.cmd?_congr (congrArg Qmx.cmds hqmx) a.2).trans
    (finishAll_cmd? _ _ _ (List.mem_map_of_mem ha)), rfl⟩

/-- The end of a drain, in its function and in the others (R128). -/
theorem freezeDone_leaves (s : State) (f : Nat) : (freezeDone s f).fn f =
      { s.fn f with state := .frozen, freezeWait := [], freezeLate := false, drainFor := 0 } ∧
    (freezeDone s f).norWaits.length = s.norWaits.length + 1 ∧ ∀ g, g ≠ f → (freezeDone s f).fn g = s.fn g := by
  obtain ⟨hfns, -, hlen⟩ := State.writeTable_leaves (s.setFn f
    { s.fn f with state := .frozen, freezeWait := [], freezeLate := false, drainFor := 0 }) f (s.fn f).freezeWait 0
  exact ⟨(State.fn_congr hfns f).trans (State.setFn_fn_self s f _), hlen,
    fun g hg => (State.fn_congr hfns g).trans (State.setFn_fn_ne s _ hg)⟩

theorem freezeDrained_freezes (hs : (s.fn f).state = .draining) (hi : inFlight s f = []) :
    exec (.freezeDrained f) s = .next (freezeDone s f) :=
  congrArg Host.Outcome.next (if_pos ⟨hs, by rw [hi]; rfl⟩)

/-- A drain that is late, before its event: the Freezes that waited have ended (R128). -/
def drainLate (s : State) (f : Nat) : State :=
  finishAll (s.fn f).freezeWait stInterrupted (s.setFn f { s.fn f with freezeWait := [], freezeLate := true })

theorem tenFreezeLate_ends (hs : (s.fn f).state = .draining) (hd : 6250 ≤ (s.fn f).drainFor)
    (hl : (s.fn f).freezeLate = false) : exec (.tenFreezeLate f) s =
      .next (((drainLate s f).ev eTEN_FREEZE_LATE).raise lTEN_FREEZE_LATE (some f) []) :=
  congrArg Host.Outcome.next (if_pos ⟨hs, hd, by simp [hl]⟩)

theorem drainLate_keeps (s : State) (f : Nat) : Frame [.qmx, .fns] s (drainLate s f) :=
  Frame.trans (State.setFn_frame (by decide) (Frame.refl _ s)) (finishAll_keeps _ _ _)

/-- The Freezes that waited are gone, the function stays DRAINING, and the ledger hears of it. -/
theorem tenFreezeLate_leaves (hs : (s.fn f).state = .draining) (hd : 6250 ≤ (s.fn f).drainFor)
    (hl : (s.fn f).freezeLate = false) :
    ∃ t, exec (.tenFreezeLate f) s = .next t ∧ (t.fn f).state = .draining ∧ (t.fn f).freezeWait = [] ∧
      (t.fn f).freezeLate = true ∧ (∀ q ∈ (s.fn f).freezeWait, t.cmd? q = none) ∧ t.shows eTEN_FREEZE_LATE ∧
      s.tells t lTEN_FREEZE_LATE (some f) [] := by
  obtain ⟨q, m, hfn⟩ := finishAll_fn (s.fn f).freezeWait stInterrupted
    (s.setFn f { s.fn f with freezeWait := [], freezeLate := true }) f
  rw [State.setFn_fn_self] at hfn
  refine ⟨_, tenFreezeLate_ends hs hd hl, ?_⟩
  rw [State.raise_ev_fn, drainLate, hfn]
  refine ⟨hs, rfl, rfl, fun n hn => ?_, State.raise_shows (State.ev_shows _ (by decide)) _ _ _,
    State.raise_tells ((State.ev_tbs _ _).trans (drainLate_keeps s f).tbs_eq) _ _ _⟩
  rw [State.cmd?_congr (congrArg Qmx.cmds ((State.raise_qmx _ _ _ _).trans (State.ev_qmx _ _)))]
  exact finishAll_cmd? _ _ _ hn

/-- The state of a Save whose record takes the next migration serial (R129). -/
def serialTaken (s : State) : State := s.draw.2.setTen { s.ten with migSerial := s.ten.migSerial + 1 }

/-- The record that a Save builds under migration key `k` (R130). -/
def savedRecord (s : State) (f : Nat) (k : KeySlot) : MigRecord :=
  let x := s.fn f
  { srcBind := x.bind, srcFunc := f, epoch := x.epoch, srcSerial := s.fuses.serial.toNat,
    migSerial := s.ten.migSerial, ledgerSeq := s.evl.newest, saveSeconds := s.seconds, keyId := k.keyId,
    harness := x.harness, queues := saveQueues x, spaces := saveSpaces s x,
    meters := closeMeter x 8 :: x.ring.take 60, key := k.key.getD 0, iv := Config.gcmIv s.draw.1 }

/-- The function that waits for its table entry with the record (R129). -/
def savingFn (s : State) (f : Nat) (k : KeySlot) : Fn :=
  { (takeArms (s.fn f) (· == .save)).2 with
    saving := true, record := some (savedRecord s f k), ring := pushRing (s.fn f).ring (closeMeter (s.fn f) 8),
    cur := openMeter (serialTaken s) f 0 }

theorem State.writeEntry_fns (s : State) (f : Nat) (x : FnState) (l : List Nat) (d : Dword) :
    (s.writeEntry f x l d).fns = s.fns := rfl

theorem saveApply_builds {seq : Nat} {k : KeySlot} (ha : (.save, seq) ∈ (s.fn f).arms) (hk : migKey s = some k) :
    exec (.saveApply f) s = .next (((serialTaken s).setFn f (savingFn s f k)).writeEntry f .saved
      ((takeArms (s.fn f) (· == .save)).1.map Prod.snd) (BitVec.ofNat 32 (recordLength (savedRecord s f k)))) := by
  have hm : (FnArm.save, seq) ∈ (takeArms (s.fn f) (· == .save)).1 := List.mem_filter.2 ⟨ha, by simp⟩
  obtain ⟨a, l, hl⟩ := List.exists_cons_of_ne_nil (List.ne_nil_of_mem hm)
  change execSaveApply f s = _
  unfold execSaveApply
  dsimp only
  rw [hl, hk]
  rfl

/-- The function waits with a record of its own epoch and harness, under the next migration serial. -/
theorem saveApply_leaves {seq : Nat} {k : KeySlot} (ha : (.save, seq) ∈ (s.fn f).arms) (hk : migKey s = some k) :
    ∃ t r, exec (.saveApply f) s = .next t ∧ (t.fn f).saving = true ∧ (t.fn f).state = (s.fn f).state ∧
      (t.fn f).record = some r ∧ r.srcFunc = f ∧ r.epoch = (s.fn f).epoch ∧ r.harness = (s.fn f).harness ∧
      r.migSerial = s.ten.migSerial ∧ t.ten.migSerial = s.ten.migSerial + 1 ∧
      t.norWaits.length = s.norWaits.length + 1 := by
  have hfn : ((serialTaken s).setFn f (savingFn s f k)).fn f = savingFn s f k := State.setFn_fn_self _ _ _
  refine ⟨_, savedRecord s f k, saveApply_builds ha hk, ?_⟩
  rw [State.fn_congr (State.writeEntry_fns _ _ _ _ _), hfn]
  exact ⟨rfl, rfl, rfl, rfl, rfl, rfl, rfl, rfl, List.length_append⟩

end

/-- The state after the oldest write to NOR has ended, before what waited on it. -/
def recordStored (s : State) (w : NorWait) (q : List NorWait) : State :=
  (s.setNor (norStore s.nor w)).setNorWaits q

section
variable {s : State} {f : Nat} {r : MigRecord}

theorem norRecordWriteDone_saves {w : NorWait} {q : List NorWait} {e : FnEntry} (hw : s.norWaits = w :: q)
    (he : w.entry = some (f, e)) (hs : e.state = .saved) (hq : w.seqs = []) :
    exec .norRecordWriteDone s = .next (savedDone (recordStored s w q) f) := by
  change execNorRecordWriteDone s = _
  unfold execNorRecordWriteDone
  rw [hw]
  dsimp only
  rw [he, hq]
  dsimp only
  rw [if_pos hs]
  rfl

/-- The function is SAVED and counted, before its event (R129). -/
def saveCounted (s : State) (f : Nat) : State :=
  (s.setFn f { s.fn f with saving := false, state := .saved }).bump rTEN_MIG_SAVES 1

theorem saveCounted_fn (s : State) (f g : Nat) : (saveCounted s f).fn g =
    if g = f then { s.fn f with saving := false, state := .saved } else s.fn g :=
  (State.fn_congr (State.bump_fns _ _ _) g).trans (State.setFn_fn s f g _)

theorem saveCounted_keeps (s : State) (f : Nat) : Frame [.fns, .regs] s (saveCounted s f) :=
  State.bump_frame (by decide) (State.setFn_frame (by decide) (Frame.refl _ s))

theorem savedDone_saves (hv : (s.fn f).saving = true) (hs : (s.fn f).state = .frozen) (hr : (s.fn f).record = some r) :
    savedDone s f = ((saveCounted s f).ev eTEN_SAVE).raise lTEN_MIG_SAVE (some f) [p4 r.migSerial] := by
  unfold savedDone
  dsimp only
  split
  · next r' hr' =>
    cases hr.symm.trans hr'
    exact if_pos ⟨hv, hs⟩
  · next hr' => cases hr.symm.trans hr'

/-- The end of that write makes the function SAVED with its record readable, and the ledger hears of it. -/
theorem norRecordWriteDone_leaves {w : NorWait} {q : List NorWait} {e : FnEntry} (hw : s.norWaits = w :: q)
    (he : w.entry = some (f, e)) (hst : e.state = .saved) (hq : w.seqs = []) (hv : (s.fn f).saving = true)
    (hs : (s.fn f).state = .frozen) (hr : (s.fn f).record = some r) :
    ∃ t, exec .norRecordWriteDone s = .next t ∧ (t.fn f).state = .saved ∧ (t.fn f).saving = false ∧
      recordReadable t f = some r ∧ t.norWaits = q ∧ t.shows eTEN_SAVE ∧
      s.tells t lTEN_MIG_SAVE (some f) [p4 r.migSerial] ∧ ∀ g, g ≠ f → t.fn g = s.fn g := by
  have hfn (g : Nat) : (recordStored s w q).fn g = s.fn g := rfl
  have hnow (g : Nat) := (State.raise_ev_fn (saveCounted (recordStored s w q) f) eTEN_SAVE lTEN_MIG_SAVE (some f)
    [p4 r.migSerial] g).trans (saveCounted_fn _ f g)
  have htbs : ((saveCounted (recordStored s w q) f).ev eTEN_SAVE).tbs = s.tbs := by
    rw [State.ev_tbs, (saveCounted_keeps _ f).tbs_eq]
    rfl
  refine ⟨_, norRecordWriteDone_saves hw he hst hq, ?_⟩
  rw [savedDone_saves (s := recordStored s w q) hv hs hr]
  refine ⟨?_, ?_, ?_, ?_, State.raise_shows (State.ev_shows _ (by decide)) _ _ _,
    State.raise_tells htbs _ _ _, fun g hg => ?_⟩
  · rw [hnow, if_pos rfl]
  · rw [hnow, if_pos rfl]
  · unfold recordReadable
    rw [hnow, if_pos rfl]
    exact (if_pos rfl).trans hr
  · rw [State.raise_norWaits, State.ev_norWaits, (saveCounted_keeps _ f).norWaits_eq]
    rfl
  · rw [hnow, if_neg hg, hfn]

end

/-- The resources of the pool as of this boundary (R110). -/
def scaledTen (s : State) : Ten :=
  { s.ten with scaleSlot := ⟨availSlots s, promisedAll s Harness.slotShare⟩,
               scaleDie := ⟨availDies s, promisedAll s Harness.dieShare⟩,
               scaleWb := ⟨availWb s, promisedAll s Harness.wbMib⟩ }

/-- The state in which they are in force, and the meters say so. -/
def sharesScaled (s : State) : State :=
  if poolScaled (s.setTen (scaledTen s)) then
    (s.setTen (scaledTen s)).setFns
      (Tbl.map s.fns fun _ x => { x with cur := { x.cur with flags := x.cur.flags ||| 0x20 } })
  else s.setTen (scaledTen s)

/-- A resource has begun to be short. -/
def poolFell (s : State) : Bool :=
  ((scaledTen s).scaleSlot.short && !s.ten.scaleSlot.short) ||
    ((scaledTen s).scaleDie.short && !s.ten.scaleDie.short) || ((scaledTen s).scaleWb.short && !s.ten.scaleWb.short)

theorem exec_poolScaleApply (s : State) : exec .poolScaleApply s = .next
    (if poolFell s then ((sharesScaled s).ev eTEN_POOL_SHORT).raise lTEN_POOL_SHORT none [] else sharesScaled s) := rfl

theorem sharesScaled_keeps (s : State) : Frame [.fns] (s.setTen (scaledTen s)) (sharesScaled s) :=
  Frame.ite (State.setFns_frame (List.Subset.refl _) (Frame.refl _ _)) (Frame.refl _ _)

theorem poolFell_of_slot {s : State} (h : s.ten.scaleSlot.short = false) (hn : (scaledTen s).scaleSlot.short = true) :
    poolFell s = true := by
  simp [poolFell, h, hn]

/-- A resource that begins to be short raises its event, and the scales stand either way. -/
theorem poolScaleApply_ten (s : State) : (if poolFell s then ((sharesScaled s).ev eTEN_POOL_SHORT).raise
    lTEN_POOL_SHORT none [] else sharesScaled s).ten = scaledTen s := by
  split
  · rw [State.raise_ten, State.ev_ten, (sharesScaled_keeps s).ten_eq]
    rfl
  · rw [(sharesScaled_keeps s).ten_eq]
    rfl

/-- Settles O20, event by event: what it makes of the function, the pool or the record. -/
theorem functionBoundaryRowsComplete : Obligations.FunctionBoundaryRowsComplete := by
  unfold Obligations.FunctionBoundaryRowsComplete
  refine ⟨fun s f seq h l hl => harnessApply_leaves hl, fun s f hs hi => ?_,
    fun s f hs hd hl => tenFreezeLate_leaves hs hd hl, fun s f seq ha hk => ?_,
    fun s f w q e r hw he hst hq hv hs hr => norRecordWriteDone_leaves hw he hst hq hv hs hr, fun s => ?_⟩
  · obtain ⟨hfn, hlen, hne⟩ := freezeDone_leaves s f
    exact ⟨_, freezeDrained_freezes hs hi, by rw [hfn], by rw [hfn], hlen, hne⟩
  · obtain ⟨k, hk⟩ := Option.isSome_iff_exists.1 hk
    exact saveApply_leaves ha hk
  · refine ⟨_, exec_poolScaleApply s, ?_⟩
    rw [poolScaleApply_ten]
    refine ⟨rfl, rfl, rfl, fun h1 h2 => ?_⟩
    rw [if_pos (poolFell_of_slot h1 h2)]
    exact ⟨State.raise_shows (State.ev_shows _ (by decide)) _ _ _,
      State.raise_tells ((State.ev_tbs _ _).trans (sharesScaled_keeps s).tbs_eq) _ _ _⟩

/-! ## Log pages of a function (O21) -/

section
variable {s : State} {seq f off len : Nat} {c : Cmd} {i : Instr} {b : List Byte} (h : s.adminCmd seq = some c)
include h

/-- A page about function `f` answers the manager and the function itself. -/
theorem exec_aboutFn (hi : exec i s = .next (s.aboutFn seq f b off len)) (hf : f ≤ 255) (hc : c.fn = 0 ∨ c.fn = f) :
    exec i s = .next (s.reply seq (slice b off len)) := by
  refine (exec_admin hi h).trans (congrArg Host.Outcome.next (if_neg ?_))
  rintro (hlt | ⟨h0, hne⟩)
  · exact absurd hf (Nat.not_le.2 hlt)
  · exact hc.elim h0 hne

theorem exec_aboutFn_tenant (hi : exec i s = .next (s.aboutFn seq f b off len)) (h0 : c.fn ≠ 0) (hf : f ≠ c.fn) :
    exec i s = .next (s.finish seq stInvalidField) :=
  (exec_admin hi h).trans (congrArg Host.Outcome.next (if_pos (Or.inr ⟨h0, hf.symm⟩)))

/-- The migration record page answers the manager alone: the record's bytes, or none. -/
theorem getLogPageMigrationRecord_answers (h0 : c.fn = 0) (hf : f ≤ 255) :
    exec (.getLogPageMigrationRecord seq f off len) s = .next (s.reply seq
      (((recordReadable s f).map fun r => slice (recordCipher r) off len).getD [])) := by
  refine (exec_admin (i := .getLogPageMigrationRecord seq f off len) rfl h).trans (congrArg Host.Outcome.next ?_)
  rw [if_neg (by omega)]
  cases recordReadable s f with
  | none => rfl
  | some r => rfl

theorem getLogPageMigrationRecord_tenant (h0 : c.fn ≠ 0) :
    exec (.getLogPageMigrationRecord seq f off len) s = .next (s.finish seq stInvalidField) :=
  (exec_admin (i := .getLogPageMigrationRecord seq f off len) rfl h).trans
    (congrArg Host.Outcome.next (if_pos (Or.inl h0)))

end

/-- Settles O21, by who asks: the function itself and the manager read its pages, any other tenant is refused. -/
theorem functionLogPagesAreOwn : Obligations.FunctionLogPagesAreOwn := by
  unfold Obligations.FunctionLogPagesAreOwn
  refine ⟨fun s seq f off len c h hf hc => ⟨?_, ?_⟩, fun s seq f off len c i h h0 hi => ?_,
    fun s seq f off len c h h0 hf => ⟨fun hr => ?_, fun r hr => ?_⟩⟩
  all_goals have hcmd := State.adminCmd_cmd? h
  · exact exec_replies_self hcmd (exec_aboutFn (i := .getLogPageMeters seq f off len) h rfl hf hc)
  · exact exec_replies_self hcmd (exec_aboutFn (i := .getLogPageHarnessStatus seq f off len) h rfl hf hc)
  · have hrefused : exec i s = .next (s.finish seq stInvalidField) := by
      rcases hi with ⟨rfl, hf⟩ | ⟨rfl, hf⟩ | rfl
      · exact exec_aboutFn_tenant (i := .getLogPageMeters seq f off len) h rfl h0 hf
      · exact exec_aboutFn_tenant (i := .getLogPageHarnessStatus seq f off len) h rfl h0 hf
      · exact getLogPageMigrationRecord_tenant h h0
    exact ⟨_, hrefused, State.finish_ends_self hcmd _, State.finish_ans _ _ _, State.finish_keeps _ _ _⟩
  · refine exec_replies_self hcmd ((getLogPageMigrationRecord_answers h h0 hf).trans ?_)
    rw [hr]
    rfl
  · refine exec_replies_self hcmd ((getLogPageMigrationRecord_answers h h0 hf).trans ?_)
    rw [hr]
    rfl

end Sys2Proof.Machine
end

section
/-! PROOFS. Namespace Management (O35): what a creation lists, and the one that makes no namespace. -/

-- one proof after another: many at once would each hold a thread of the compiler
set_option Elab.async false

namespace Sys2Proof.Machine

open Sys2Proof

theorem State.space_congr {s t : State} (h : t.map.spaces = s.map.spaces) (ns : Nat) : t.space ns = s.space ns := by
  unfold State.space
  rw [h]

theorem State.space_deleted {s : State} {ns : Nat} {sp : Space} (h : Tbl.get s.map.spaces ns = some sp)
    (hd : sp.deleted = true) : s.space ns = none := by
  unfold State.space
  rw [h]
  exact if_pos hd

theorem bumpSeq_noSpace {s : State} {ns : Nat} (h : s.space ns = none) : bumpSeq s ns = s := by
  unfold bumpSeq
  rw [h]

/-- The table of namespaces once a creation has listed its own. -/
def spaceListed (s : State) (sp : Space) : State :=
  s.draw.2.setMap { s.map with
    spaces := Tbl.set s.map.spaces (freeKey s.map.spaces 0) { sp with nguid := Config.nguid s.draw.1 } }

theorem Map.withFineTotal_spaces (m : Map) (n : Nat) : { m with fineTotal := n }.spaces = m.spaces := rfl

theorem resizeFine_spaces (s : State) : (resizeFine s).map.spaces = s.map.spaces :=
  Map.withFineTotal_spaces s.map (fineUnits s (liveSpaces s))

theorem createSpace_spaces (s : State) (seq : Nat) (sp : Space) : (createSpace s seq sp).map.spaces =
    (bumpSeq (spaceListed s sp) (freeKey s.map.spaces 0)).map.spaces := by
  have hk : Frame [.draws, .gate, .key, .regs] (bumpSeq (spaceListed s sp) (freeKey s.map.spaces 0))
      (generateKey (bumpSeq (spaceListed s sp) (freeKey s.map.spaces 0)) (freeKey s.map.spaces 0)
        { sp with nguid := Config.nguid s.draw.1 }).2 := generateKey_frame (List.Subset.refl _) (Frame.refl _ _)
  have hspaces := congrArg Map.spaces hk.map_eq
  refine Eq.trans ?_ hspaces
  unfold createSpace
  dsimp only
  rw [(State.writeKeyRec_frame (List.Subset.refl _) (Frame.refl [.norWaits] _)).map_eq, State.hold_map,
    resizeFine_spaces]
  rfl

/-- A creation of a namespace that counts as deleted makes none. -/
theorem createSpace_deleted (s : State) (seq : Nat) {sp : Space} (hd : sp.deleted = true) :
    (createSpace s seq sp).space (freeKey s.map.spaces 0) = none := by
  have hl : (spaceListed s sp).space (freeKey s.map.spaces 0) = none :=
    State.space_deleted (Tbl.get_set_self _ _ _) hd
  rw [State.space_congr ((createSpace_spaces s seq sp).trans (by rw [bumpSeq_noSpace hl])), hl]

/-- A creation waits for the fine pool, which it fits, with a namespace that is marked deleted. -/
def deletedWaits : State :=
  State.reset.setMap { Map.reset with
    fineCreate := some { seq := 0, space := { loadedSpace with deleted := true }, target := 0, since := 0 } }

/-- Refutes O35: where the namespace of the creation that waits is marked deleted, CREATE_FINE_FIT leaves no namespace
under the lowest free index. The statement takes the waiting creation as it is, whatever its namespace. -/
theorem not_namespaceCommandsComplete : ¬ Obligations.NamespaceCommandsComplete := by
  rintro ⟨-, hFit, -, -, -⟩
  obtain ⟨t, q, ht, -, hspace, -⟩ := hFit deletedWaits _ rfl (by decide)
  have hrun : exec .namespaceCreateFineFit deletedWaits = .next (createSpace
      (deletedWaits.setMap { deletedWaits.map with fineCreate := none }) 0 { loadedSpace with deleted := true }) := rfl
  cases hrun.symm.trans ht
  cases hspace.symm.trans (createSpace_deleted _ 0 rfl)

end Sys2Proof.Machine
end

section
/-! PROOFS. The mapping (O4, O37): the table of programmed codewords, and the sanitize that erases by key once more. -/

-- one proof after another: many at once would each hold a thread of the compiler
set_option Elab.async false

namespace Sys2Proof.Machine

open Sys2Proof

/-! ## The table of programmed codewords (O4) -/

/-- No command takes the table of programmed codewords out of its canonical form: each of the die operations that
write media keeps it (`mediaAfter_frame`), and the rest leave media alone. -/
theorem canon_notMem_parts (c : Instr) : Part.canon ∉ c.parts := by
  cases c <;> exact of_decide_eq_true rfl

theorem exec_keeps_mediaWf {c : Instr} {s t : State} (h : exec c s = .next t) :
    Tbl.wf s.fch.media = true → Tbl.wf t.fch.media = true :=
  exec_frame_of_next h .canon (canon_notMem_parts c)

/-- Settles O4, by whether the queue is empty: the command at its front keeps the canonical form by its frame. -/
theorem codewordTableStaysCanonical : Obligations.CodewordTableStaysCanonical := by
  unfold Obligations.CodewordTableStaysCanonical
  intro s t hwf ht
  cases hq : s.pending with
  | nil =>
    cases (step_of_pending_nil hq).symm.trans ht
    exact hwf
  | cons c q => exact exec_keeps_mediaWf ((step_of_pending_cons hq).symm.trans ht) hwf

/-! ## Sanitize by key of a namespace whose key slot is EMPTY (O37) -/

/-- SANITIZE_CRYPTO_ERASE of the manager, with one namespace and nothing to refuse it or to wait for, is the crypto
erase of that namespace (R406). -/
theorem sanitizeCryptoErase_erases {s : State} {seq ns : Nat} {c : Cmd} {sp : Space} (h : s.adminCmd seq = some c)
    (h0 : c.fn = 0) (hs : sanitizing s = false) (hl : liveSpaces s = [(ns, sp)]) (hm : sp.mode ≠ .none)
    (hh : s.key.health = true) (hw : formatWaits s seq [ns] = false) : exec (.sanitizeCryptoErase seq) s =
      .next ((cryptoErase (s.setRcl { s.rcl with sanitize := .completed }) ns sp [seq]).hold seq) := by
  refine (exec_manager (i := .sanitizeCryptoErase seq) rfl h h0).trans ?_
  dsimp only
  rw [hl, if_neg (by simp [hs]), if_neg (by simpa using hm), if_neg (by simp [keysRefused, hh]),
    if_neg (by simp [hw])]
  rfl

/-- What it leaves of a key that the host loads: the slot's key becomes the shadow, and a slot that is EMPTY keeps the
shadow that it has (R405). -/
theorem sanitizeCryptoErase_shadow {s t : State} {seq ns : Nat} {c : Cmd} {sp : Space} (h : s.adminCmd seq = some c)
    (h0 : c.fn = 0) (hs : sanitizing s = false) (hl : liveSpaces s = [(ns, sp)]) (hm : sp.mode ≠ .none)
    (hg : sp.source ≠ .generated) (hh : s.key.health = true) (hw : formatWaits s seq [ns] = false)
    (ht : exec (.sanitizeCryptoErase seq) s = .next t) : (t.keySlot (keySlotNs ns)).shadow =
      if (s.keySlot (keySlotNs ns)).key.isSome then (s.keySlot (keySlotNs ns)).key
      else (s.keySlot (keySlotNs ns)).shadow := by
  cases (sanitizeCryptoErase_erases h h0 hs hl hm hh hw).symm.trans ht
  rw [State.keySlot_congr (congrArg Key.slots (State.hold_key _ _)), cryptoErase_shadow hm hg]
  rfl

/-- A Sanitize command of the manager. -/
def sanitizeCmd : Cmd := { formatCmd with op := 0x84 }

/-- The only namespace has been erased by key once, its key slot is EMPTY and the key of before is still the shadow; the
manager's Sanitize is fetched. -/
def erasedOnceSanitize : State := erasedOnce.setQmx { erasedOnce.qmx with cmds := [sanitizeCmd] }

/-- Refutes O37, by its last clause: a crypto erase of a namespace whose key slot is EMPTY (a second erase before the
jobs of the old key have ended) keeps the shadow that stands, and that is not the slot's (absent) key. -/
theorem not_checkpointsAndSanitizeComplete : ¬ Obligations.CheckpointsAndSanitizeComplete := by
  rintro ⟨-, -, -, -, -, -, -, -, -, hErase⟩
  have hc : erasedOnceSanitize.adminCmd 0 = some sanitizeCmd := by decide
  have hs : sanitizing erasedOnceSanitize = false := by decide
  have hl : liveSpaces erasedOnceSanitize = [(0, loadedSpace)] := by decide
  have hw : formatWaits erasedOnceSanitize 0 [0] = false := by decide
  have hm : loadedSpace.mode ≠ .none := by decide
  obtain ⟨t, ht, -, -, hshadow, -⟩ := hErase erasedOnceSanitize 0 0 loadedSpace sanitizeCmd hc rfl hs hl hm rfl hw
  have hkept : (t.keySlot (keySlotNs 0)).shadow = some 1 :=
    sanitizeCryptoErase_shadow hc rfl hs hl hm (by decide) rfl hw ht
  cases hkept.symm.trans hshadow

end Sys2Proof.Machine
end

section
/-! PROOFS. Write streams (O34): what assembly, a member's entry into its row and the start of a span leave of the
write buffer, and the codewords that go to the staging pool. -/

-- one proof after another: many at once would each hold a thread of the compiler
set_option Elab.async false

namespace Sys2Proof.Machine

open Sys2Proof

/-! ## Streams and slots of the write buffer -/

theorem State.setStream_stream (s : State) (n m : Nat) (x : Stream) :
    (s.setStream n x).stream m = if m = n then x else s.stream m :=
  Tbl.getD_put _ _ _ _ _

theorem State.stream_congr {s t : State} (h : t.wbf.streams = s.wbf.streams) (n : Nat) : t.stream n = s.stream n := by
  unfold State.stream
  rw [h]

/-- A fold whose steps change slots alone changes slots alone. -/
theorem foldl_slots {α : Type} {f : State → α → State}
    (hf : ∀ s x, (f s x).wbf = { s.wbf with slots := (f s x).wbf.slots }) (l : List α) (s : State) :
    (l.foldl f s).wbf = { s.wbf with slots := (l.foldl f s).wbf.slots } := by
  induction l generalizing s with
  | nil => rfl
  | cons x l ih =>
    exact (ih (f s x)).trans (congrArg (fun w : Wbf => { w with slots := (l.foldl f (f s x)).wbf.slots }) (hf s x))

/-- A free assembly record is that of no program unit. -/
theorem freeRecord_unused {s : State} {r : Nat} (h : freeRecord s = some r) : ∀ u ∈ s.wbf.pus, u.recNo ≠ r := by
  intro u hu he
  unfold freeRecord at h
  have hr := List.find?_some h
  simp only [Bool.not_eq_true', List.contains_eq_mem, decide_eq_false_iff_not] at hr
  exact hr (List.mem_map.2 ⟨u, hu, he⟩)

/-! ## Members and their rows (R180-R182) -/

/-- Assembly adds the unit, which waits for its row, and moves slots on (R180). -/
theorem assemble_wbf (s : State) (u : Pu) : (assemble s u).wbf =
    { s.wbf with slots := (assemble s u).wbf.slots, pus := s.wbf.pus ++ [{ u with state := .waiting }] } := by
  have hadd : (s.addPu { u with state := .waiting }).wbf =
      { s.wbf with pus := s.wbf.pus ++ [{ u with state := .waiting }] } := rfl
  unfold assemble
  dsimp only
  rw [State.bump_wbf, apply_ite State.wbf, State.setRcl_wbf, ite_self, foldl_slots, hadd]
  intro t p
  split <;> rfl

theorem assemble_stream (s : State) (u : Pu) (n : Nat) : (assemble s u).stream n = s.stream n :=
  State.stream_congr (by rw [assemble_wbf]) n

theorem assemble_target (s : State) (u : Pu) (g : Nat) : (assemble s u).target g = s.target g := by
  unfold State.target
  rw [assemble_wbf]

/-- The program unit as the next member of its stream's row (R181). -/
def enteredPu (s : State) (l : Layout) (u : Pu) : Pu :=
  let x := s.stream u.stream
  let b := member s l (x.span.getD 0) (posData l x.row x.members)
  { u with serial := x.serial, member := x.members, die := b.1, mga := mgaOf s b.1 b.2 x.row 0, state := .assembled }

/-- The stream whose row has taken a member. -/
def rowGains (x : Stream) (l : Layout) (u : Pu) : Stream :=
  { x with members := x.members + 1, padRow := (x.padRow || u.rowPad) && decide (x.members + 1 < l.d),
           padFn := if u.rowPad then u.padFn else x.padFn }

/-- The slots of a member take its place in the row. -/
def slotsEnter (s : State) (x : Stream) (slots : List Nat) : State :=
  slots.foldl (fun s i => s.updSlot i fun y => { y with member := x.members, rowSerial := x.serial }) s

theorem slotsEnter_wbf (s : State) (x : Stream) (slots : List Nat) :
    (slotsEnter s x slots).wbf = { s.wbf with slots := (slotsEnter s x slots).wbf.slots } := by
  refine foldl_slots ?_ slots s
  exact fun _ _ => rfl

theorem enterRow_wbf (s : State) (l : Layout) (u : Pu) : (enterRow s l u).wbf =
    { s.wbf with slots := (enterRow s l u).wbf.slots,
                 pus := (s.wbf.pus.filter fun p => p.recNo != u.recNo) ++ [enteredPu s l u],
                 streams := Tbl.put s.wbf.streams u.stream (rowGains (s.stream u.stream) l u) Stream.empty } :=
  congrArg (fun w : Wbf =>
      { w with streams := Tbl.put w.streams u.stream (rowGains (s.stream u.stream) l u) Stream.empty })
    (slotsEnter_wbf (s.setWbf { s.wbf with
      pus := (s.wbf.pus.filter fun p => p.recNo != u.recNo) ++ [enteredPu s l u] }) (s.stream u.stream) _)

theorem enterRow_stream (s : State) (l : Layout) (u : Pu) (n : Nat) :
    (enterRow s l u).stream n = if n = u.stream then rowGains (s.stream u.stream) l u else s.stream n := by
  unfold State.stream
  rw [enterRow_wbf]
  exact Tbl.getD_put _ _ _ _ _

theorem enterRow_target (s : State) (l : Layout) (u : Pu) (g : Nat) : (enterRow s l u).target g = s.target g := by
  unfold State.target
  rw [enterRow_wbf]

theorem enterRow_mem (s : State) (l : Layout) (u : Pu) : enteredPu s l u ∈ (enterRow s l u).wbf.pus := by
  rw [enterRow_wbf]
  exact List.mem_append_right _ (List.mem_singleton_self _)

/-- With no program unit of the stream waiting, nothing enters a row. -/
theorem enterRows_of_no_waiting {s : State} {n : Nat} (h : ∀ u ∈ s.wbf.pus, u.stream = n → u.state ≠ .waiting)
    (l : Layout) (k : Nat) : enterRows s l n k = s := by
  cases k with
  | zero => rfl
  | succ k =>
    have hf : (s.wbf.pus.find? fun u => u.stream == n && u.state == .waiting) = none :=
      List.find?_eq_none.2 fun u hu => by simpa using h u hu
    unfold enterRows
    rw [hf]

/-- A row that accumulates and still has room is the one that takes the next member. -/
theorem rowForNext_of_room {s : State} {l : Layout} {n : Nat} (h1 : (s.stream n).state = .accumulating)
    (h2 : (s.stream n).span.isSome = true) (h3 : (s.stream n).members < l.d) : rowForNext s l n = some s := by
  obtain ⟨sp, hsp⟩ := Option.isSome_iff_exists.1 h2
  unfold rowForNext
  dsimp only
  rw [hsp]
  dsimp only
  rw [if_pos h1, if_pos h3]

/-- The only unit of a stream that waits, last in the list, enters the row that has room for it. -/
theorem enterRows_of_last_waiting {s : State} {l : Layout} {n : Nat} {old : List Pu} {v : Pu}
    (hpus : s.wbf.pus = old ++ [v]) (hold : ∀ u ∈ old, u.stream = n → u.state ≠ .waiting) (hn : v.stream = n)
    (hv : v.state = .waiting) (hp : v.proxyOf = none) (hrow : rowForNext s l n = some s) (k : Nat) :
    enterRows s l n (k + 1) = enterRow s l v := by
  have hfind : (s.wbf.pus.find? fun u => u.stream == n && u.state == .waiting) = some v := by
    rw [hpus, List.find?_append, List.find?_eq_none.2 fun u hu => by simpa using hold u hu]
    simp [hn, hv]
  have hsuits : suitsUnit s l v = true := by
    unfold suitsUnit
    simp only [hp]
  have hnone : ∀ u ∈ (enterRow s l v).wbf.pus, u.stream = n → u.state ≠ .waiting := by
    rw [enterRow_wbf, hpus]
    simp only [List.filter_append, List.mem_append, List.mem_filter, List.mem_singleton]
    rintro u ((⟨hu, -⟩ | ⟨rfl, hne⟩) | rfl)
    · exact hold u hu
    · simp at hne
    · exact fun _ => PuState.noConfusion
  rw [enterRows, hfind]
  simp only [hrow, hsuits, if_true]
  exact enterRows_of_no_waiting hnone l k

/-! ## PROGRAM_UNIT_ASSEMBLY (R180-R187) -/

/-- The program unit that a target's chain gives (R182). -/
def heldUnit (s : State) (n g r : Nat) : Pu :=
  { Pu.blank with recNo := r, stream := n, target := g, fn := (s.target g).fn, slots := (gather s (s.target g)).1,
                  padFn := if (s.target g).close then (s.target g).closeFn else (s.target g).fn }

/-- The chain once that unit has left it. -/
def chainLeft (s : State) (g : Nat) : State :=
  s.setTarget g { s.target g with held := (gather s (s.target g)).2 }

theorem assembleHeld_takes {s : State} {g r : Nat} (n : Nat) (hh : (s.target g).held ≠ [])
    (hc : (gather s (s.target g)).1.all Option.isSome = true ∨ (s.target g).close = true)
    (hr : freeRecord s = some r) :
    assembleHeld s n g = afterClose (assemble (chainLeft s g) (heldUnit s n g r)) g r := by
  have hgo : ¬ ((s.target g).held.isEmpty ||
      !((gather s (s.target g)).1.all Option.isSome || (s.target g).close)) = true := by
    rcases hc with hc | hc <;> simp [hh, hc]
  unfold assembleHeld
  dsimp only
  rw [if_neg hgo, hr]
  rfl

theorem afterClose_streams (s : State) (g r : Nat) : (afterClose s g r).wbf.streams = s.wbf.streams := by
  unfold afterClose
  dsimp only
  split
  · rfl
  · split <;> rfl

theorem afterClose_held (s : State) (g r : Nat) : ((afterClose s g r).target g).held = (s.target g).held := by
  have hset : ((s.setTarget g { s.target g with close := false, closeRow := false }).target g).held =
      (s.target g).held := by rw [State.setTarget_target, if_pos rfl]
  unfold afterClose
  dsimp only
  split
  · rfl
  · split
    · exact hset
    · exact hset

/-- Of the program units, the marks change that of the record alone, and of it whether its row is to be padded (R91). -/
theorem afterClose_pus {s : State} {r : Nat} {old : List Pu} {v : Pu} (g : Nat) (hpus : s.wbf.pus = old ++ [v])
    (hv : v.recNo = r) (hold : ∀ u ∈ old, u.recNo ≠ r) :
    ∃ b f, (afterClose s g r).wbf.pus = old ++ [{ v with rowPad := b, padFn := f }] := by
  have hmap (k : Pu → Pu) : (s.wbf.pus.map fun p => if p.recNo = r then k p else p) = old ++ [k v] := by
    rw [hpus, List.map_append, List.map_congr_left fun p hp => if_neg (hold p hp), List.map_id']
    simp [hv]
  unfold afterClose
  dsimp only
  split
  · exact ⟨_, _, hpus⟩
  · split
    · exact ⟨_, _, hmap _⟩
    · exact ⟨_, _, hpus⟩

section
variable {s : State} {g r : Nat} (n : Nat) (hh : (s.target g).held ≠ [])
  (hc : (gather s (s.target g)).1.all Option.isSome = true ∨ (s.target g).close = true)
  (hr : freeRecord s = some r)
include hh hc hr

theorem assembleHeld_stream (m : Nat) : (assembleHeld s n g).stream m = s.stream m :=
  State.stream_congr (by rw [assembleHeld_takes n hh hc hr, afterClose_streams, assemble_wbf]; rfl) m

theorem assembleHeld_held : ((assembleHeld s n g).target g).held = (gather s (s.target g)).2 := by
  rw [assembleHeld_takes n hh hc hr, afterClose_held, assemble_target, chainLeft, State.setTarget_target, if_pos rfl]

theorem assembleHeld_pus : ∃ b f, (assembleHeld s n g).wbf.pus =
    s.wbf.pus ++ [{ heldUnit s n g r with state := .waiting, rowPad := b, padFn := f }] := by
  rw [assembleHeld_takes n hh hc hr]
  exact afterClose_pus g (congrArg Wbf.pus (assemble_wbf _ _)) rfl (freeRecord_unused hr)

end

section
variable {s : State} {g n r : Nat} {l : Layout} (hfr : s.dmc.frozen = false) (hn : streamOf s g = some n)
  (hl : s.par.layout = some l) (hw : ∀ u ∈ s.wbf.pus, u.stream = n → u.state ≠ .waiting)
  (hst : (s.stream n).state = .accumulating) (hr : freeRecord s = some r)
include hfr hn hl hw

theorem programUnitAssembly_takes (hp : (s.stream n).padRow = false) (ho : openChunk s g = none) :
    exec (.programUnitAssembly g) s = .next (enterRows (assembleHeld s n g) l n rowFuel) := by
  refine congrArg Host.Outcome.next ((if_neg (by simp [hfr])).trans ?_)
  simp only [hn, hl, enterRows_of_no_waiting hw, hp, ho, Bool.false_eq_true, false_and, if_false]

include hst

theorem programUnitAssembly_pads (hp : (s.stream n).padRow = true) :
    exec (.programUnitAssembly g) s = .next (assemblePad s l n (s.stream n).padFn) := by
  refine congrArg Host.Outcome.next ((if_neg (by simp [hfr])).trans ?_)
  simp only [hn, hl, enterRows_of_no_waiting hw, hp, hst, and_self, if_true]

include hr

/-- One unit of the chain becomes the row's next member. -/
theorem programUnitAssembly_member (hsp : (s.stream n).span.isSome = true)
    (hmem : (s.stream n).members < l.d) (hp : (s.stream n).padRow = false)
    (ho : openChunk s g = none) (hh : (s.target g).held ≠ [])
    (hc : (gather s (s.target g)).1.all Option.isSome = true ∨ (s.target g).close = true) :
    ∃ t u, exec (.programUnitAssembly g) s = .next t ∧ u ∈ t.wbf.pus ∧ u.recNo = r ∧ u.stream = n ∧
      u.serial = (s.stream n).serial ∧ u.member = (s.stream n).members ∧ u.state = .assembled ∧ u.encoded = 0 ∧
      u.slots = (gather s (s.target g)).1 ∧ (t.stream n).members = (s.stream n).members + 1 ∧
      (t.target g).held = (gather s (s.target g)).2 := by
  have hstream := assembleHeld_stream n hh hc hr n
  obtain ⟨b, f, hpus⟩ := assembleHeld_pus n hh hc hr
  have hrow : rowForNext (assembleHeld s n g) l n = some (assembleHeld s n g) :=
    rowForNext_of_room (hstream ▸ hst) (hstream ▸ hsp) (hstream ▸ hmem)
  have ht := (programUnitAssembly_takes hfr hn hl hw hp ho).trans
    (congrArg _ (enterRows_of_last_waiting hpus hw rfl rfl rfl hrow 127))
  refine ⟨_, _, ht, enterRow_mem _ _ _, rfl, rfl, congrArg Stream.serial hstream, congrArg Stream.members hstream, rfl,
    rfl, rfl, ?_, ?_⟩
  · rw [enterRow_stream]
    exact (congrArg Stream.members (if_pos rfl)).trans (congrArg (·.members + 1) hstream)
  · rw [enterRow_target, assembleHeld_held n hh hc hr]

/-- A row that is to be padded gets a member of pad alone (R187). -/
theorem programUnitAssembly_pad_member (hp : (s.stream n).padRow = true) :
    ∃ t u, exec (.programUnitAssembly g) s = .next t ∧ u ∈ t.wbf.pus ∧ u.recNo = r ∧ u.stream = n ∧
      u.member = (s.stream n).members ∧ u.state = .assembled ∧ u.slots = List.replicate (puGran s) none ∧
      (t.stream n).members = (s.stream n).members + 1 ∧
      (t.stream n).padRow = decide ((s.stream n).members + 1 < l.d) := by
  let u := padUnit s n (s.stream n).padFn r
  have hpad : assemblePad s l n (s.stream n).padFn = enterRow (assemble s u) l u := by
    unfold assemblePad
    rw [hr]
  have hgain : (enterRow (assemble s u) l u).stream n = rowGains (s.stream n) l u := by
    rw [enterRow_stream, assemble_stream]
    exact if_pos rfl
  refine ⟨_, _, (programUnitAssembly_pads hfr hn hl hw hst hp).trans (congrArg _ hpad), enterRow_mem _ _ _, rfl, rfl,
    congrArg Stream.members (assemble_stream s u n), rfl, rfl, congrArg Stream.members hgain, ?_⟩
  rw [hgain]
  unfold rowGains
  simp only [hp, Bool.true_or, Bool.true_and]

end

/-! ## What the rows leave of the spans (R181) -/

/-- The table of spans and the span of every stream are as they were. -/
structure SameSpans (s t : State) : Prop where
  spans : t.par.spans = s.par.spans
  stream : ∀ n, (t.stream n).span = (s.stream n).span

namespace SameSpans

theorem refl (s : State) : SameSpans s s := ⟨rfl, fun _ => rfl⟩

theorem trans {r s t : State} (h : SameSpans r s) (k : SameSpans s t) : SameSpans r t :=
  ⟨k.spans.trans h.spans, fun n => (k.stream n).trans (h.stream n)⟩

theorem of_frame {ps : List Part} {s t : State} (h : Frame ps s t) (hp : Part.par ∉ ps := by decide)
    (hw : Part.wbf ∉ ps := by decide) : SameSpans s t :=
  ⟨congrArg Par.spans (h.par_eq hp),
    fun n => congrArg Stream.span (State.stream_congr (congrArg Wbf.streams (h.wbf_eq hw)) n)⟩

end SameSpans

theorem assemble_sameSpans (s : State) (u : Pu) : SameSpans s (assemble s u) where
  spans := congrArg Par.spans (assemble_frame (List.Subset.refl _) (Frame.refl _ s)).par_eq
  stream n := congrArg Stream.span (assemble_stream s u n)

theorem enterRow_sameSpans (s : State) (l : Layout) (u : Pu) : SameSpans s (enterRow s l u) where
  spans := congrArg Par.spans (enterRow_frame (List.Subset.refl _) (Frame.refl _ s)).par_eq
  stream n := by
    rw [enterRow_stream]
    split
    next h => rw [h]; rfl
    next => rfl

theorem assemblePad_sameSpans (s : State) (l : Layout) (n f : Nat) : SameSpans s (assemblePad s l n f) := by
  unfold assemblePad
  split
  · exact .of_frame (State.ev_frame (List.Subset.refl _) (Frame.refl _ s))
  · exact (assemble_sameSpans _ _).trans (enterRow_sameSpans _ _ _)

theorem openRow_sameSpans (s : State) (l : Layout) (n sp : Nat) : SameSpans s (openRow s l n sp) where
  spans := rfl
  stream m := by
    have h : (openRow s l n sp).stream m = (s.setStream n _).stream m := State.stream_congr rfl m
    rw [h, State.setStream_stream]
    split
    next h => rw [h]
    next => rfl

theorem rowForNext_sameSpans {s t : State} {l : Layout} {n : Nat} (h : rowForNext s l n = some t) : SameSpans s t := by
  unfold rowForNext at h
  dsimp only at h
  repeat' split at h
  all_goals cases h
  · exact .refl s
  · exact openRow_sameSpans _ _ _ _

theorem enterRows_sameSpans (l : Layout) (n k : Nat) (s : State) : SameSpans s (enterRows s l n k) := by
  induction k generalizing s with
  | zero => exact .refl s
  | succ k ih =>
    unfold enterRows
    split
    · exact .refl s
    · split
      · exact .refl s
      next hrow =>
        have hs := rowForNext_sameSpans hrow
        split
        · exact (hs.trans (enterRow_sameSpans _ _ _)).trans (ih _)
        · split
          · exact hs.trans (.of_frame (State.ev_frame (List.Subset.refl _) (Frame.refl _ _)))
          · exact (hs.trans (assemblePad_sameSpans _ _ _ _)).trans (ih _)

/-! ## SPAN_ALLOCATE (R307, R333, R336, R341) -/

/-- The erased span that a stream takes: of least erase count, for stream 253 of the greatest (R333, R341). -/
def erasedPick (s : State) (l : Layout) (n : Nat) : Option Nat :=
  let erased := (List.range l.spans).filter fun m => (s.span m).phase == .erased
  if n = 253 then mostBy erased (spanErases s l) else leastBy erased (spanErases s l)

theorem erasedPick_none {s : State} {l : Layout} (n : Nat) (h : ∀ m, m < l.spans → (s.span m).phase ≠ .erased) :
    erasedPick s l n = none := by
  have hnil : ((List.range l.spans).filter fun m => (s.span m).phase == .erased) = [] :=
    List.filter_eq_nil_iff.2 fun m hm => by simpa using h m (List.mem_range.1 hm)
  unfold erasedPick
  dsimp only
  rw [hnil]
  exact ite_self _

theorem leaveIfSpent_of_no_span {s : State} {n : Nat} (h : (s.stream n).span = none) : leaveIfSpent s n = s :=
  if_neg (by simp [spanSpent, h])

theorem beginSpan_stream (s : State) (n sp : Nat) : (beginSpan s n sp).stream n =
    { s.stream n with span := some sp, nextRow := 0, newSpan := false } :=
  (State.setStream_stream s n n _).trans (if_pos rfl)

/-- The span table entry of a span that stream `n` begins. -/
def spanBegun (x : Span) (n : Nat) : Span :=
  { x with phase := .open, stream := n, valid := [], lost := [], firstAt := 0, firstHours := 0, erasedMembers := [],
           startedMembers := [], doneRows := [], rowCopies := [] }

theorem beginSpan_span (s : State) (n sp m : Nat) :
    (beginSpan s n sp).span m = if m = sp then spanBegun (s.span sp) n else s.span m :=
  (State.span_congr rfl m).trans
    (State.setSpan_span (s.updStream n fun x => { x with span := some sp, nextRow := 0, newSpan := false }) sp m
      (spanBegun (s.span sp) n))

section
variable {s : State} {n sp : Nat} {l : Layout}

/-- A stream with no span and free accumulators that has something to write takes a span. -/
theorem spanAllocate_takes (hl : s.par.layout = some l) (hle : n ≤ 255) (hsp : (s.stream n).span = none)
    (hfree : rowsFree (s.stream n) = true) (hwant : streamWants s n = true)
    (hroom : n < 252 → n < targetStreams s ∧ atFloor s = false) :
    exec (.spanAllocate n) s = .next (
      if n = 254 ∧ proxyWaits s then
        (nextSpare s l).elim (stopRebuild s) fun a => enterRows (beginSpan a.2 n a.1) l n rowFuel
      else (erasedPick s l n).elim s fun sp =>
        (fixMembers s l sp).elim (retireSpan s sp) fun u => enterRows (beginSpan u n sp) l n rowFuel) := by
  have hgo : ¬ ((s.stream n).span.isSome = true ∨ (!rowsFree (s.stream n)) = true ∨ (!streamWants s n) = true ∨
      (n < 252 ∧ (n ≥ targetStreams s ∨ atFloor s = true)) ∨ n > 255) := by
    rw [hsp, hfree, hwant]
    rintro (h | h | h | ⟨h1, h2 | h2⟩ | h)
    · cases h
    · cases h
    · cases h
    · exact absurd (hroom h1).1 (Nat.not_lt.2 h2)
    · exact absurd ((hroom h1).2.symm.trans h2) Bool.noConfusion
    · omega
  refine congrArg Host.Outcome.next ?_
  dsimp only
  rw [leaveIfSpent_of_no_span hsp, hl]
  dsimp only
  rw [if_neg hgo]
  congr 1
  · cases nextSpare s l <;> rfl
  · change (match erasedPick s l n with | none => _ | some sp => _) = _
    cases erasedPick s l n with
    | none => rfl
    | some sp =>
      dsimp only [Option.elim_some]
      cases fixMembers s l sp <;> rfl

/-- The span that a stream begins is its own and open, and nothing that then enters its rows changes that. -/
theorem beginSpan_enterRows (s : State) (l : Layout) (n sp k : Nat) :
    ((enterRows (beginSpan s n sp) l n k).stream n).span = some sp ∧
      (enterRows (beginSpan s n sp) l n k).span sp = spanBegun (s.span sp) n ∧
      ∀ m, m ≠ sp → (enterRows (beginSpan s n sp) l n k).span m = s.span m := by
  have hk := enterRows_sameSpans l n k (beginSpan s n sp)
  refine ⟨?_, ?_, fun m hm => ?_⟩
  · rw [hk.stream, beginSpan_stream]
  · rw [State.span_congr hk.spans, beginSpan_span, if_pos rfl]
  · rw [State.span_congr hk.spans, beginSpan_span, if_neg hm]

/-- With no unit waiting, the span begins at its first row. -/
theorem beginSpan_nextRow (hw : ∀ u ∈ s.wbf.pus, u.stream = n → u.state ≠ .waiting) (l : Layout) (sp k : Nat) :
    ((enterRows (beginSpan s n sp) l n k).stream n).nextRow = 0 := by
  rw [enterRows_of_no_waiting (s := beginSpan s n sp) hw, beginSpan_stream]

end

/-! ## CODEWORD_ENCODE (R188, R275, R295, R296) -/

/-- The next codeword of a placed program unit of the stream's row `ser` may be encoded: under a plan that is not held,
with positions left of which none is in the accumulators yet. -/
structure EncodeReady (s : State) (n ser m : Nat) (u : Pu) (l : Layout) : Prop where
  unit : s.findPu n ser m = some u
  layout : s.par.layout = some l
  frozen : s.dmc.frozen = false
  plan : planHeld s = false
  placed : puPlaced s u = true
  position : u.encoded < puGran s
  serial : (s.stream n).serial = ser
  state : u.state = .assembled ∨ u.state = .sent

theorem EncodeReady.go {s : State} {n ser m : Nat} {u : Pu} {l : Layout} (h : EncodeReady s n ser m u l) (b : Bool) :
    ¬ (s.dmc.frozen = true ∨ planHeld s = true ∨ (!(puPlaced s u || !dieIn s u.die)) = true ∨ u.encoded ≥ puGran s ∨
      ((s.stream n).serial ≠ ser ∧ b = true) ∨ (u.state ≠ .assembled ∧ u.state ≠ .sent)) := by
  rw [h.frozen, h.plan, h.placed]
  rintro (hx | hx | hx | hx | ⟨hx, -⟩ | ⟨hx1, hx2⟩)
  · cases hx
  · cases hx
  · cases hx
  · exact absurd h.position (Nat.not_lt.2 hx)
  · exact hx h.serial
  · exact h.state.elim hx1 hx2

/-- The next codeword of a data member is not held back in a row that accumulates, with its key there. -/
theorem codeword_goes {s : State} {n : Nat} {u : Pu} (hst : (s.stream n).state = .accumulating)
    (hkey : ((u.slots.getD u.encoded none).any fun i => keyMissing s (s.slot i)) = false) (b : Bool) :
    ¬ (((s.stream n).state ≠ .accumulating ∧ b = true) ∨
      ((u.slots.getD u.encoded none).any fun i => keyMissing s (s.slot i)) = true) := by
  rw [hkey]
  rintro (hx | hx)
  · exact hx.1 hst
  · cases hx

section
variable (s : State) (n ser m : Nat) (u : Pu)

/-- A codeword of P or Q, or of data, is in the staging pool, and its unit is at its next position. -/
def codewordStaged (x : Info) (g : Pu → Pu) : State := (stage s n ser m u.encoded x).updPuAt n ser m g

/-- The granule in turn is a host's, which the cipher encrypts. -/
def hostGranule : Bool :=
  match u.slots.getD u.encoded none with
  | some i => (s.slot i).raw.isNone && !(s.slot i).pad
  | none => false

/-- The data codeword in turn, staged and counted. -/
def dataStaged : State :=
  let t := codewordStaged s n ser m u (puInfo s u u.encoded) fun v =>
    { v with encoded := u.encoded + 1, foldedTo := max v.foldedTo (u.encoded + 1), tries := 0 }
  if hostGranule s u then t.bump rCIP_GRAN_ENC 1 else t

/-- The stream whose accumulators have taken the codeword in turn of member `m` (R188). -/
def rowFolds (x : Stream) (p : Nat) (i : Info) (m : Nat) : Stream :=
  { x with accP := Tbl.put x.accP p (foldP (Tbl.getD x.accP p 0) i) 0,
           accQ := Tbl.put x.accQ p (foldQ (Tbl.getD x.accQ p 0) i m) 0, folded := x.folded + 1 }

/-- The data codeword in turn, staged and folded. -/
def dataFolded : State :=
  (dataStaged s n ser m u).setStream n (rowFolds (s.stream n) u.encoded (puInfo s u u.encoded) m)

theorem dataStaged_staged :
    (dataStaged s n ser m u).staged = s.staged ++ [⟨n, ser, m, u.encoded, puInfo s u u.encoded⟩] := by
  unfold dataStaged
  dsimp only
  rw [apply_ite State.staged, State.bump_staged, ite_self]
  rfl

theorem dataFolded_stream :
    (dataFolded s n ser m u).stream n = rowFolds (s.stream n) u.encoded (puInfo s u u.encoded) m :=
  (State.setStream_stream _ _ _ _).trans (if_pos rfl)

end

section
variable {s : State} {n ser m : Nat} {u : Pu} {l : Layout} (h : EncodeReady s n ser m u l)
include h

/-- A data codeword is staged and folded, and the row's parity goes out once everything is folded. -/
theorem codewordEncode_folds (hm : m < 254) (hf : u.foldedTo ≤ u.encoded)
    (hst : (s.stream n).state = .accumulating)
    (hkey : ((u.slots.getD u.encoded none).any fun i => keyMissing s (s.slot i)) = false) :
    exec (.codewordEncode n ser m false) s = .next (
      if allFolded (dataFolded s n ser m u) l n then parityProg (parityOut (dataFolded s n ser m u) l n) n ser
      else dataFolded s n ser m u) := by
  have hagain : decide (u.encoded < u.foldedTo) = false := decide_eq_false (Nat.not_lt.2 hf)
  refine congrArg Host.Outcome.next ?_
  rw [h.unit, h.layout]
  dsimp only
  rw [if_neg (h.go _), if_neg (Nat.not_le.2 hm), if_neg (codeword_goes hst hkey _), if_neg Bool.noConfusion,
    if_neg (by simp [hagain])]
  rfl

/-- A check before encoding that fails leaves the position to be tried again (R296). -/
theorem codewordEncode_mismatch (hm : m < 254) (hst : (s.stream n).state = .accumulating)
    (hkey : ((u.slots.getD u.encoded none).any fun i => keyMissing s (s.slot i)) = false) :
    exec (.codewordEncode n ser m true) s =
      .next ((encodeMismatch s u).updPuAt n ser m fun v => { v with tries := v.tries + 1 }) := by
  refine congrArg Host.Outcome.next ?_
  rw [h.unit, h.layout]
  dsimp only
  rw [if_neg (h.go _), if_neg (Nat.not_le.2 hm), if_neg (codeword_goes hst hkey _), if_pos rfl]

/-- A codeword of P or Q is staged as its accumulator holds it. -/
theorem codewordEncode_parity (hm : m = 254 ∨ m = 255) (hst : (s.stream n).state = .parityOut) (b : Bool) :
    exec (.codewordEncode n ser m b) s = .next (codewordStaged s n ser m u
      (Tbl.getD (if m = 254 then (s.stream n).accP else (s.stream n).accQ) u.encoded 0)
      fun v => { v with encoded := u.encoded + 1 }) := by
  refine congrArg Host.Outcome.next ?_
  rw [h.unit, h.layout]
  dsimp only
  rw [if_neg (h.go _), if_pos (by omega), if_neg (by simp [hst])]
  rfl

end

theorem allFolded_of_room {s : State} {l : Layout} {n : Nat} (h : (s.stream n).members < l.d) :
    allFolded s l n = false :=
  decide_eq_false fun hx => absurd hx.1 (Nat.ne_of_lt h)

/-- What the parity of a row does leaves the staging pool alone. -/
theorem parityGoesOut_staged (s : State) (l : Layout) (n ser : Nat) :
    (parityProg (parityOut s l n) n ser).staged = s.staged :=
  (parityProg_frame (ps := [.qmx, .wbf, .par, .rcl, .pages, .regs]) (by decide)
    (parityOut_frame (by decide) (Frame.refl _ s))).staged_eq

theorem fabricFailed_shows {s : State} {e : Nat × Nat} (h : s.shows e) : (fabricFailed s).shows e := by
  have h1 := State.ev_shows' (State.shows_congr h (State.bump_pages s rSRM_FABRIC_RESEND 1)) eSRM_FABRIC_RESEND
  refine State.raise_shows (State.ev_shows' (State.shows_congr h1 ?_) _) _ _ _
  rw [State.bump_pages, State.wr_pages, State.wr_pages, State.bump_pages]

theorem encodeMismatch_shows (s : State) (u : Pu) : (encodeMismatch s u).shows eLDC_CRC_ENC := by
  have h : ((s.bump rLDC_CRC_ENC 1).ev eLDC_CRC_ENC).shows eLDC_CRC_ENC := State.ev_shows _ (by decide)
  unfold encodeMismatch
  dsimp only
  split
  · exact State.raise_shows h _ _ _
  · split
    · exact fabricFailed_shows h
    · exact h

theorem encodeMismatch_keeps (s : State) (u : Pu) : Frame [.evl, .pages, .regs] s (encodeMismatch s u) :=
  encodeMismatch_frame (List.Subset.refl _) (Frame.refl _ s)

/-! ## The statement -/

/-- Settles O34, operation by operation: the member that enters its row, the span that begins, the codeword that is
staged. -/
theorem programUnitsAreAssembledAndSpansBegun : Obligations.ProgramUnitsAreAssembledAndSpansBegun := by
  refine ⟨fun s g n r l hfr hn hl hw hst hsp hmem hr => ⟨?_, ?_⟩, fun s n sp l hl hle hsp hfree hwant hroom => ?_,
    fun s n ser m u l hu hl hfr hpl hpu hm hp hf hser hst hs hkey => ?_,
    fun s n ser m u l b hu hl hfr hpl hpu hm hp hser hst hs => ?_⟩
  · exact programUnitAssembly_member hfr hn hl hw hst hr hsp hmem
  · exact programUnitAssembly_pad_member hfr hn hl hw hst hr
  · have ht := spanAllocate_takes hl hle hsp hfree hwant hroom
    refine ⟨fun h254 hlost hpick => ?_, fun u h254 hproxy hspare => ?_, fun h254 hnone => ?_⟩
    · have hfix : fixMembers s l sp = some s := by
        unfold fixMembers
        rw [hlost]
        rfl
      rw [if_neg (by simpa using h254), show erasedPick s l n = some sp from hpick, Option.elim_some, hfix,
        Option.elim_some] at ht
      obtain ⟨h1, h2, h3⟩ := beginSpan_enterRows s l n sp rowFuel
      exact ⟨_, ht, h1, fun hw => beginSpan_nextRow hw l sp _, by rw [h2]; rfl, by rw [h2]; rfl, h3⟩
    · rw [if_pos ⟨h254, hproxy⟩, hspare, Option.elim_some] at ht
      obtain ⟨h1, h2, -⟩ := beginSpan_enterRows u l n sp rowFuel
      exact ⟨_, ht, h1, by rw [h2]; rfl, by rw [h2]; rfl, by rw [h2]; rfl⟩
    · rwa [if_neg (by simpa using h254), erasedPick_none n hnone] at ht
  · have hready : EncodeReady s n ser m u l := ⟨hu, hl, hfr, hpl, hpu, hp, hser, hs⟩
    refine ⟨⟨_, codewordEncode_folds hready hm hf hst hkey, ?_, fun hroom => ?_⟩,
      ⟨_, codewordEncode_mismatch hready hm hst hkey, (encodeMismatch_keeps s u).staged_eq,
        State.shows_congr (encodeMismatch_shows s u) rfl,
        State.stream_congr (congrArg Wbf.streams (encodeMismatch_keeps s u).wbf_eq) n⟩⟩
    · rw [apply_ite State.staged, parityGoesOut_staged, ite_self]
      exact dataStaged_staged s n ser m u
    · have hx := dataFolded_stream s n ser m u
      rw [allFolded_of_room (by rw [hx]; exact hroom), if_neg Bool.noConfusion, hx]
      exact ⟨rfl, Tbl.getD_put_self _ _ _ _, Tbl.getD_put_self _ _ _ _⟩
  · exact ⟨_, codewordEncode_parity ⟨hu, hl, hfr, hpl, hpu, hp, hser, hs⟩ hm hst b, rfl, rfl⟩

end Sys2Proof.Machine
end

section
/-! PROOFS. Shutdown (O59): what a normal shutdown leaves of the targets of the controller's own streams. -/

-- one proof after another: many at once would each hold a thread of the compiler
set_option Elab.async false

namespace Sys2Proof.Machine

open Sys2Proof

/-! ## Normal shutdown and the targets of the controller's own streams (O59) -/

/-- A fold of marks leaves a target that it does not name. -/
theorem markCloses_target_of_notMem (l : List Nat) (s : State) {g : Nat} (h : g ∉ l) :
    (l.foldl (fun s t => markClose s t (s.target t).fn false) s).target g = s.target g := by
  induction l generalizing s with
  | nil => rfl
  | cons a l ih =>
    rw [List.mem_cons, not_or] at h
    exact (ih _ h.2).trans (markClose_target_ne s _ _ h.1)

/-- The targets of the controller's streams are not closed: their sources stand (R173, R491). -/
theorem closeAll_target_of_ctlStream (s : State) {g n : Nat} (hg : ctlStream g = some n) :
    (closeAll s).target g = s.target g :=
  markCloses_target_of_notMem _ s fun hm => by
    have hhost := (List.mem_filter.1 hm).2
    simp [hg] at hhost

/-- NORMAL_SHUTDOWN of a manager that is ready and has not begun one. -/
theorem normalShutdown_begins {s : State} (hr : s.bot.ready = true) (he : (s.fn 0).enabled = true)
    (hb : s.bot.shutdown = 0) (hs : (s.fn 0).shst = 0) : exec .normalShutdown s =
      .next (wmarkRecord (closeAll ((s.updFn 0 fun x => { x with shst := 1 }).setBot { s.bot with shutdown := 1 }))) := by
  refine congrArg Host.Outcome.next (if_neg ?_)
  simp [hr, he, hb, hs]

/-- It leaves the target of a controller's stream as it is. -/
theorem normalShutdown_target_of_ctlStream {s t : State} (hr : s.bot.ready = true) (he : (s.fn 0).enabled = true)
    (hb : s.bot.shutdown = 0) (hs : (s.fn 0).shst = 0) {g n : Nat} (hg : ctlStream g = some n)
    (ht : exec .normalShutdown s = .next t) : t.target g = s.target g := by
  cases (normalShutdown_begins hr he hb hs).symm.trans ht
  refine (State.target_congr ((wmarkRecord_frame (List.Subset.refl _) (Frame.refl _ _)).wbf_eq) g).trans ?_
  rw [closeAll_target_of_ctlStream _ hg]
  exact State.target_congr (by rw [State.setBot_wbf, State.updFn_wbf]) g

/-- A drive that is ready, with its manager enabled, where the target of controller stream 0 holds a copy. -/
def copyHeld : State :=
  ((State.reset.setBot { Bot.reset with ready := true }).setFn 0 { Fn.free with enabled := true }).setWbf
    { Wbf.reset with targets := [(tgtCtl 0, { Target.empty with held := [0] })] }

/-- Refutes O59, by the clause of a normal shutdown: a target that holds granules need not be a host's. The target of a
controller's stream holds copies, and a normal shutdown leaves it without its mark. -/
theorem not_replayAndShutdownComplete : ¬ Obligations.ReplayAndShutdownComplete := by
  rintro ⟨-, -, -, -, -, hShutdown, -⟩
  have hr : copyHeld.bot.ready = true := rfl
  have he : (copyHeld.fn 0).enabled = true := by decide
  have hs : (copyHeld.fn 0).shst = 0 := by decide
  obtain ⟨t, ht, -, -, -, -, hClosed, -⟩ := (hShutdown copyHeld hr he).1 rfl hs
  obtain ⟨y, hy, hclose, -⟩ := hClosed (tgtCtl 0) { Target.empty with held := [0] } (by decide) (by decide)
  have hkept : t.target (tgtCtl 0) = copyHeld.target (tgtCtl 0) :=
    normalShutdown_target_of_ctlStream hr he rfl hs (n := 0) (by decide) ht
  have hlisted : t.target (tgtCtl 0) = y := congrArg (Option.getD · Target.empty) hy
  have hopen : (copyHeld.target (tgtCtl 0)).close = false := by decide
  rw [← hkept, hlisted, hclose] at hopen
  cases hopen

end Sys2Proof.Machine
end

section
/-! PROOFS. Ring entries (O50): what starts and completions leave of the dies and of the channels, one rule for each
operation, then the clauses of the statement. -/

-- one proof after another: many at once would each hold a thread of the compiler
set_option Elab.async false

namespace Sys2Proof.Machine

open Sys2Proof

/-! ## Dies and channels read back -/

theorem State.setDie_die (s : State) (d e : Nat) (x : Die) : (s.setDie d x).die e = if e = d then x else s.die e :=
  Tbl.getD_put _ _ _ _ _

@[simp] theorem State.setDie_die_self (s : State) (d : Nat) (x : Die) : (s.setDie d x).die d = x := by
  rw [State.setDie_die, if_pos rfl]

theorem State.setDie_die_ne (s : State) {d e : Nat} (x : Die) (h : e ≠ d) : (s.setDie d x).die e = s.die e := by
  rw [State.setDie_die, if_neg h]

theorem State.updDie_die (s : State) (d e : Nat) (g : Die → Die) :
    (s.updDie d g).die e = if e = d then g (s.die d) else s.die e := State.setDie_die _ _ _ _

@[simp] theorem State.updDie_die_self (s : State) (d : Nat) (g : Die → Die) : (s.updDie d g).die d = g (s.die d) :=
  State.setDie_die_self _ _ _

theorem State.updDie_die_ne (s : State) {d e : Nat} (g : Die → Die) (h : e ≠ d) : (s.updDie d g).die e = s.die e :=
  State.setDie_die_ne _ _ h

@[simp] theorem State.setDie_chan (s : State) (d c : Nat) (x : Die) : (s.setDie d x).chan c = s.chan c := rfl
@[simp] theorem State.updDie_chan (s : State) (d c : Nat) (g : Die → Die) : (s.updDie d g).chan c = s.chan c := rfl

theorem State.setChan_chan (s : State) (c k : Nat) (x : Chan) : (s.setChan c x).chan k = if k = c then x else s.chan k :=
  Tbl.getD_put _ _ _ _ _

@[simp] theorem State.setChan_chan_self (s : State) (c : Nat) (x : Chan) : (s.setChan c x).chan c = x := by
  rw [State.setChan_chan, if_pos rfl]

theorem State.setChan_chan_ne (s : State) {c k : Nat} (x : Chan) (h : k ≠ c) : (s.setChan c x).chan k = s.chan k := by
  rw [State.setChan_chan, if_neg h]

theorem State.updChan_chan (s : State) (c k : Nat) (g : Chan → Chan) :
    (s.updChan c g).chan k = if k = c then g (s.chan c) else s.chan k := State.setChan_chan _ _ _ _

@[simp] theorem State.updChan_chan_self (s : State) (c : Nat) (g : Chan → Chan) :
    (s.updChan c g).chan c = g (s.chan c) := State.setChan_chan_self _ _ _

theorem State.updChan_chan_ne (s : State) {c k : Nat} (g : Chan → Chan) (h : k ≠ c) :
    (s.updChan c g).chan k = s.chan k := State.setChan_chan_ne _ _ h

@[simp] theorem State.setChan_die (s : State) (c d : Nat) (x : Chan) : (s.setChan c x).die d = s.die d := rfl
@[simp] theorem State.updChan_die (s : State) (c d : Nat) (g : Chan → Chan) : (s.updChan c g).die d = s.die d := rfl

theorem State.die_congr {s t : State} (h : t.fch = s.fch) (d : Nat) : t.die d = s.die d := by
  unfold State.die
  rw [h]

theorem State.chan_congr {s t : State} (h : t.fch = s.fch) (c : Nat) : t.chan c = s.chan c := by
  unfold State.chan
  rw [h]

theorem Frame.die_eq {ps : List Part} {s t : State} (h : Frame ps s t) (d : Nat) (hp : Part.fch ∉ ps := by decide) :
    t.die d = s.die d := State.die_congr (h.fch_eq hp) d

theorem Frame.chan_eq {ps : List Part} {s t : State} (h : Frame ps s t) (c : Nat) (hp : Part.fch ∉ ps := by decide) :
    t.chan c = s.chan c := State.chan_congr (h.fch_eq hp) c

theorem Frame.media_eq {ps : List Part} {s t : State} (h : Frame ps s t) (hp : Part.media ∉ ps := by decide) :
    t.fch.media = s.fch.media := h .media hp

theorem Tbl.get_put_ne {α : Type} [DecidableEq α] (t : Tbl α) {k q : Nat} (h : q ≠ k) (v d : α) :
    Tbl.get (Tbl.put t k v d) q = Tbl.get t q := by
  unfold Tbl.put
  split
  · rw [Tbl.get_erase, if_neg h]
  · rw [Tbl.get_set, if_neg h]

/-! ## Completion records (R204, R211, R212) -/

/-- A completion record that a channel holds: in its ring, or waiting for room in it. -/
def Chan.holds (c : Chan) (r : CRec) : Prop := r ∈ c.cring ∨ r ∈ c.waiting

theorem Chan.record_holds_self (c : Chan) (r : CRec) : (c.record r).holds r := by
  unfold Chan.record
  split
  · exact Or.inl (List.mem_append_right _ List.mem_cons_self)
  · exact Or.inr (List.mem_append_right _ List.mem_cons_self)

theorem Chan.record_holds {c : Chan} {q : CRec} (h : c.holds q) (r : CRec) : (c.record r).holds q := by
  unfold Chan.record
  split
  · exact h.imp_left (List.mem_append_left _)
  · exact h.imp_right (List.mem_append_left _)

/-- What the completions of entries of die `d` can do: its ring loses entries, and its channel gains records. -/
structure Completes (d : Nat) (s t : State) : Prop where
  die : t.die d = { s.die d with ring := (t.die d).ring }
  dieNe : ∀ e, e ≠ d → t.die e = s.die e
  free : ∀ i, Tbl.get (s.die d).ring i = none → Tbl.get (t.die d).ring i = none
  chan : t.chan (chanOf d) = { s.chan (chanOf d) with
    cring := (t.chan (chanOf d)).cring, waiting := (t.chan (chanOf d)).waiting,
    reserved := (t.chan (chanOf d)).reserved, cringTail := (t.chan (chanOf d)).cringTail }
  chanNe : ∀ c, c ≠ chanOf d → t.chan c = s.chan c
  holds : ∀ r, (s.chan (chanOf d)).holds r → (t.chan (chanOf d)).holds r

namespace Completes
variable {d : Nat} {r s t : State}

theorem refl (d : Nat) (s : State) : Completes d s s := ⟨rfl, fun _ _ => rfl, fun _ h => h, rfl, fun _ _ => rfl, fun _ h => h⟩

theorem trans (h : Completes d r s) (k : Completes d s t) : Completes d r t where
  die := by rw [k.die, h.die]
  dieNe e he := (k.dieNe e he).trans (h.dieNe e he)
  free i hi := k.free i (h.free i hi)
  chan := by rw [k.chan, h.chan]
  chanNe c hc := (k.chanNe c hc).trans (h.chanNe c hc)
  holds q hq := k.holds q (h.holds q hq)

theorem of_fch (h : t.fch = s.fch) : Completes d s t := by
  have hd : ∀ e, t.die e = s.die e := State.die_congr h
  have hc : ∀ c, t.chan c = s.chan c := State.chan_congr h
  exact ⟨by rw [hd], fun e _ => hd e, fun i hi => by rwa [hd], by rw [hc], fun c _ => hc c, fun q hq => by rwa [hc]⟩

theorem foldl {α : Type} {f : State → α → State} (hf : ∀ s x, Completes d s (f s x)) (l : List α) (s : State) :
    Completes d s (l.foldl f s) := by
  induction l generalizing s with
  | nil => exact refl d s
  | cons x l ih => exact (hf s x).trans (ih _)

/-- A record that the channel holds of an entry stays. -/
theorem records {i : Nat} {x : CStat} (h : Completes d s t) (hs : s.records d i x) : t.records d i x := by
  obtain ⟨hi, q, hq, hslot, hpos, hstat⟩ := hs
  exact ⟨h.free i hi, q, h.holds q hq, hslot, hpos, hstat⟩

end Completes

/-- The entry `x` at place `i` of a die's ring completes: the entry is free, and its record enters the channel's ring. -/
def entryRecorded (s : State) (d i : Nat) (x : Desc) (t : CStat) (op : Option DieOp) (discarded : Bool) : State :=
  (s.setDie d { s.die d with ring := Tbl.erase (s.die d).ring i }).updChan (chanOf d) fun c =>
    Chan.record (if op.isSome then { c with reserved := c.reserved - 1 } else c) (makeRec s d i x t op discarded)

section
variable {s : State} {d i : Nat} {x : Desc} (t : CStat) (op : Option DieOp) (discarded : Bool)

theorem completeEntry_fch (hx : Tbl.get (s.die d).ring i = some x) :
    (completeEntry s d i t op discarded).fch = (entryRecorded s d i x t op discarded).fch := by
  have hcount : ∀ u : State, (countStatus u (chanOf d) t).fch = u.fch := fun u =>
    (countStatus_frame (List.Subset.refl _) (Frame.refl _ u)).fch_eq
  have harrive : ∀ u : State, (arrive u x).fch = u.fch := fun u =>
    (arrive_frame (List.Subset.refl _) (Frame.refl _ u)).fch_eq
  unfold completeEntry
  dsimp only
  rw [hx]
  dsimp only
  rw [hcount, apply_ite State.fch, harrive, ite_self, apply_ite State.fch, State.evCh_fch, ite_self]
  rfl

theorem completeEntry_none (hx : Tbl.get (s.die d).ring i = none) : completeEntry s d i t op discarded = s := by
  unfold completeEntry
  dsimp only
  rw [hx]

theorem entryRecorded_completes : Completes d s (entryRecorded s d i x t op discarded) := by
  have hdie : ∀ e, (entryRecorded s d i x t op discarded).die e =
      if e = d then { s.die d with ring := Tbl.erase (s.die d).ring i } else s.die e := fun e => State.setDie_die _ _ _ _
  have hchan : ∀ c, (entryRecorded s d i x t op discarded).chan c = if c = chanOf d then
      Chan.record (if op.isSome then { s.chan c with reserved := (s.chan c).reserved - 1 } else s.chan c)
        (makeRec s d i x t op discarded) else s.chan c := fun c => by
    unfold entryRecorded
    rw [State.updChan_chan]
    by_cases hc : c = chanOf d
    · subst hc; rw [if_pos rfl, if_pos rfl]; rfl
    · rw [if_neg hc, if_neg hc]; rfl
  refine ⟨by rw [hdie, if_pos rfl], fun e he => by rw [hdie, if_neg he], fun k hk => ?_, ?_,
    fun c hc => by rw [hchan, if_neg hc], fun q hq => ?_⟩
  · rw [hdie, if_pos rfl]
    dsimp only
    rw [Tbl.get_erase, hk, ite_self]
  · rw [hchan, if_pos rfl]
    unfold Chan.record
    split <;> split <;> rfl
  · rw [hchan, if_pos rfl]
    refine Chan.record_holds ?_ _
    split <;> exact hq

theorem entryRecorded_records : (entryRecorded s d i x t op discarded).records d i t := by
  refine ⟨?_, makeRec s d i x t op discarded, ?_, rfl, rfl, rfl⟩
  · unfold entryRecorded
    rw [State.updChan_die, State.setDie_die_self]
    exact (Tbl.get_erase _ _ _).trans (if_pos rfl)
  · unfold entryRecorded
    rw [State.updChan_chan_self]
    exact Chan.record_holds_self _ _

theorem completeEntry_completes (s : State) (d i : Nat) : Completes d s (completeEntry s d i t op discarded) := by
  cases hx : Tbl.get (s.die d).ring i with
  | none => rw [completeEntry_none t op discarded hx]; exact Completes.refl d s
  | some x => exact (entryRecorded_completes t op discarded).trans (Completes.of_fch (completeEntry_fch t op discarded hx))

theorem completeEntry_records (hx : Tbl.get (s.die d).ring i = some x) :
    (completeEntry s d i t op discarded).records d i t :=
  (Completes.of_fch (completeEntry_fch t op discarded hx)).records (entryRecorded_records t op discarded)

/-- The end of an entry is its own completion, and then that of the rest of its chain. -/
theorem finishEntry_eq (hx : Tbl.get (s.die d).ring i = some x) : ∃ l : List Nat, finishEntry s d i t op discarded =
    l.foldl (fun s k => completeEntry s d k .chainBroken none false) (completeEntry s d i t op discarded) := by
  unfold finishEntry
  dsimp only
  rw [hx]
  exact ⟨_, rfl⟩

theorem finishEntry_completes (s : State) (d i : Nat) : Completes d s (finishEntry s d i t op discarded) := by
  cases hx : Tbl.get (s.die d).ring i with
  | none =>
    unfold finishEntry
    dsimp only
    rw [hx]
    exact Completes.refl d s
  | some x =>
    obtain ⟨l, hl⟩ := finishEntry_eq t op discarded hx
    rw [hl]
    exact (completeEntry_completes t op discarded s d i).trans
      (Completes.foldl (fun u k => completeEntry_completes _ _ _ u d k) l _)

theorem finishEntry_records (hx : Tbl.get (s.die d).ring i = some x) :
    (finishEntry s d i t op discarded).records d i t := by
  obtain ⟨l, hl⟩ := finishEntry_eq t op discarded hx
  rw [hl]
  exact (Completes.foldl (fun u k => completeEntry_completes _ _ _ u d k) l _).records
    (completeEntry_records t op discarded hx)

theorem finishEntry_keeps (s : State) (d i : Nat) :
    Frame [.stp, .fch, .cip, .pages, .regs] s (finishEntry s d i t op discarded) :=
  finishEntry_frame (List.Subset.refl _) (Frame.refl _ s)

end

/-! ## What starts (R206, R212, R217) -/

section
variable (s : State) (d i : Nat) (x : Desc) (fns : List NandFn)

theorem addGroup_keeps : Frame [.fns, .fch] s (addGroup s d x fns) :=
  addGroup_frame (List.Subset.refl _) (Frame.refl _ s)

theorem addGroup_die (e : Nat) : (addGroup s d x fns).die e = s.die e := by
  unfold addGroup
  dsimp only
  split <;> rfl

theorem addGroup_dies : (addGroup s d x fns).fch.dies = s.fch.dies := by
  unfold addGroup
  dsimp only
  split <;> rfl

theorem addGroup_chan (c : Nat) : (addGroup s d x fns).chan c =
    { s.chan c with group := ((addGroup s d x fns).chan c).group } := by
  have hchan : ∀ k, (addGroup s d x fns).chan k = (s.updChan (chanOf d) fun c => { c with
      group := fns.foldl (fun g w =>
        insertEntry { rank := descRank x, pos := diePos d, what := w, fn := chargedFn x } g) c.group }).chan k := by
    intro k
    unfold addGroup
    dsimp only
    split <;> rfl
  rw [hchan, State.updChan_chan]
  split
  · next h => subst h; rfl
  · rfl

theorem addGroup_fn (k : Nat) : ∃ m, (addGroup s d x fns).fn k = { s.fn k with cur := m } := by
  unfold addGroup
  dsimp only
  split
  · exact State.meter_fn _ _ _ _
  · exact ⟨_, rfl⟩

theorem startOp_keeps : Frame [.fns, .fch] s (startOp s d i x) :=
  startOp_frame (List.Subset.refl _) (Frame.refl _ s)

theorem startOp_die_self : (startOp s d i x).die d = { s.die d with
    op := some (DieOp.start i x), thresh := if isRead x.typ then x.thresh else (s.die d).thresh } := by
  unfold startOp
  dsimp only
  rw [addGroup_die, State.updDie_die_self]
  rfl

theorem startOp_die_ne {e : Nat} (h : e ≠ d) : (startOp s d i x).die e = s.die e := by
  unfold startOp
  dsimp only
  rw [addGroup_die, State.updDie_die_ne _ _ h]
  rfl

theorem startOp_dies_get {e : Nat} (h : e ≠ d) : Tbl.get (startOp s d i x).fch.dies e = Tbl.get s.fch.dies e := by
  have hdies : (startOp s d i x).fch.dies = Tbl.put s.fch.dies d { s.die d with
      op := some (DieOp.start i x), thresh := if isRead x.typ then x.thresh else (s.die d).thresh } Die.absent := by
    unfold startOp
    dsimp only
    rw [addGroup_dies]
    rfl
  rw [hdies, Tbl.get_put_ne _ h]

theorem startOp_reserved : ((startOp s d i x).chan (chanOf d)).reserved = (s.chan (chanOf d)).reserved + 1 := by
  unfold startOp
  dsimp only
  rw [addGroup_chan, State.updDie_chan, State.updChan_chan_self]

theorem startOp_fn (k : Nat) : ∃ m, (startOp s d i x).fn k = { s.fn k with cur := m } := addGroup_fn _ _ _ _ k

/-- A start begins the operation of its entry. -/
theorem startOp_begins : s.begins (startOp s d i x) d i x := by
  refine ⟨⟨DieOp.start i x, ?_, rfl, rfl, rfl, rfl, rfl⟩, ?_, startOp_reserved s d i x,
    fun e he => startOp_die_ne s d i x he⟩
  · rw [startOp_die_self]
  · rw [startOp_die_self]

end

/-- What keeps FCH before or after a start keeps what it began. -/
theorem State.begins_congr {r s t u : State} {d i : Nat} {x : Desc} (h : s.begins t d i x) (hs : s.fch = r.fch)
    (ht : u.fch = t.fch) : r.begins u d i x := by
  obtain ⟨hop, hring, hres, hother⟩ := h
  refine ⟨?_, ?_, ?_, fun e he => ?_⟩
  · rwa [State.die_congr ht]
  · rwa [State.die_congr ht, ← State.die_congr hs]
  · rwa [State.chan_congr ht, ← State.chan_congr hs]
  · rw [State.die_congr ht, ← State.die_congr hs]
    exact hother e he

theorem State.records_congr {s t : State} {d i : Nat} {x : CStat} (h : s.records d i x)
    (hr : (t.die d).ring = (s.die d).ring) (hc : t.chan (chanOf d) = s.chan (chanOf d)) : t.records d i x := by
  unfold State.records
  rw [hr, hc]
  exact h

theorem startable_entry {s : State} {d i : Nat} {t : OpType} {x : Desc} (h : startable s d i t = some x) :
    Tbl.get (s.die d).ring i = some x ∧ x.typ = t := by
  unfold startable at h
  dsimp only at h
  split at h
  · cases h
  · next y hy =>
    split at h
    · next hc =>
      cases h
      simp only [Bool.and_eq_true, decide_eq_true_eq] at hc
      exact ⟨hy, hc.1.1.1.1⟩
    · cases h

/-- An entry meets every check of a start of type `t`, its die is free, and there is room for it. -/
structure MayStart (s : State) (d i : Nat) (t : OpType) (x : Desc) : Prop where
  entry : startable s d i t = some x
  check : preCheck s d x = none
  record : noRecord s (chanOf d) = false
  idle : (s.die d).op = none
  room : slotFor s d x = true

theorem startWith_fails {s : State} {d i : Nat} {t : OpType} {x : Desc} {st : CStat} (h : startable s d i t = some x)
    (hc : preCheck s d x = some st) (go : Desc → State → State) :
    startWith s d i t go = finishEntry s d i st none false := by
  unfold startWith
  rw [h]
  dsimp only
  rw [hc]

namespace MayStart
variable {s : State} {d i : Nat} {t : OpType} {x : Desc}

theorem starts (h : MayStart s d i t x) (go : Desc → State → State) : startWith s d i t go = go x s := by
  unfold startWith
  rw [h.entry]
  dsimp only
  rw [h.check]
  dsimp only
  rw [if_neg (by simp [h.record]), if_neg (by simp [h.idle, h.room])]

theorem ring (h : MayStart s d i t x) : Tbl.get (s.die d).ring i = some x := (startable_entry h.entry).1
theorem typ (h : MayStart s d i t x) : x.typ = t := (startable_entry h.entry).2

/-- An entry that ends in place of its start leaves its die without an operation. -/
theorem finishes (h : MayStart s d i t x) (st : CStat) {u : State} (hu : u.fch = s.fch) :
    (finishEntry u d i st none false).records d i st ∧ ((finishEntry u d i st none false).die d).op = none ∧
      (finishEntry u d i st none false).fch.media = s.fch.media := by
  refine ⟨finishEntry_records _ _ _ (x := x) ?_, ?_, ?_⟩
  · rw [State.die_congr hu]
    exact h.ring
  · rw [(finishEntry_completes _ _ _ u d i).die, State.die_congr hu]
    exact h.idle
  · rw [(finishEntry_keeps _ _ _ u d i).media_eq, hu]

end MayStart

/-! ## Reads (R217, R218, R219) -/

section
variable {s : State} {d i : Nat} {x : Desc}

/-- A read of a busy LUN goes back to its entry for the next plan. -/
theorem onBusy_requeues (h : x.requeued < s.rdAt rFCH_READ_REQ_MAX (chanOf d) 0) : onBusy s d i x =
    ((addGroup s d x [.statusEnhanced]).updDie d fun y => { y with
      ring := Tbl.set y.ring i { x with requeued := x.requeued + 1, planned := false } }).bumpAt
        rFCH_ON_BUSY (chanOf d) 0 1 := by
  unfold onBusy
  dsimp only
  rw [State.rdAt_congr (addGroup_keeps s d x _).regs_eq, if_neg (by omega)]

theorem onBusy_gives_up (h : s.rdAt rFCH_READ_REQ_MAX (chanOf d) 0 ≤ x.requeued) : onBusy s d i x =
    finishEntry (addGroup s d x [.statusEnhanced]) d i .busyLimit none false := by
  unfold onBusy
  dsimp only
  rw [State.rdAt_congr (addGroup_keeps s d x _).regs_eq, if_pos h]

theorem onBusy_requeued (hop : (s.die d).op = none) (h : x.requeued < s.rdAt rFCH_READ_REQ_MAX (chanOf d) 0) :
    ∃ y, Tbl.get ((onBusy s d i x).die d).ring i = some y ∧ y.requeued = x.requeued + 1 ∧ y.planned = false ∧
      ((onBusy s d i x).die d).op = none ∧ Frame [.fch, .fns, .regs] s (onBusy s d i x) := by
  refine ⟨{ x with requeued := x.requeued + 1, planned := false }, ?_, rfl, rfl, ?_, ?_⟩
  all_goals rw [onBusy_requeues h]
  · rw [State.die_congr (State.bumpAt_fch _ _ _ _ _), State.updDie_die_self]
    exact Tbl.get_set_self _ _ _
  · rw [State.die_congr (State.bumpAt_fch _ _ _ _ _), State.updDie_die_self, addGroup_die]
    exact hop
  · exact State.bumpAt_frame (by decide) (State.updDie_frame (by decide) ((addGroup_keeps s d x _).mono (by decide)))

theorem onBusy_limit (hx : Tbl.get (s.die d).ring i = some x) (hop : (s.die d).op = none)
    (h : s.rdAt rFCH_READ_REQ_MAX (chanOf d) 0 ≤ x.requeued) :
    (onBusy s d i x).records d i .busyLimit ∧ ((onBusy s d i x).die d).op = none := by
  rw [onBusy_gives_up h]
  refine ⟨finishEntry_records _ _ _ (x := x) (by rwa [addGroup_die]), ?_⟩
  rw [(finishEntry_completes _ _ _ _ d i).die, addGroup_die]
  exact hop

theorem descriptorRead_starts (h : MayStart s d i .read x) (busy : Bool) : exec (.descriptorRead d i busy) s =
    .next (if busy then onBusy s d i x else startOp s d i x) := by
  show execDescriptorRead d i busy s = _
  unfold execDescriptorRead
  rw [h.entry, h.idle]
  dsimp only
  rw [h.starts]

theorem descriptorReadRun_starts (h : MayStart s d i .readRun x) (busy : Bool) : exec (.descriptorReadRun d i busy) s =
    .next (if (mgaParts s x.mga).block ≠ (mgaParts s (x.mga + x.count - 1)).block then
        finishEntry s d i .badDesc none false
      else if busy then onBusy s d i x else startOp s d i x) :=
  congrArg Host.Outcome.next (h.starts _)

/-! ## Programs, intent records and erases (R226, R227, R228, R61) -/

theorem descriptorProgram_begins (h : MayStart s d i .program x) :
    ∃ t, exec (.descriptorProgram d i) s = .next t ∧ s.begins t d i x ∧ Frame [.fch, .fns, .wbf] s t := by
  refine ⟨_, congrArg Host.Outcome.next (h.starts _), ?_, ?_⟩
  · dsimp only
    split
    · exact State.begins_congr (startOp_begins s d i x) rfl
        (State.updPuAt_frame (ps := [.wbf]) (List.Subset.refl _) (Frame.refl _ _)).fch_eq
    · exact startOp_begins s d i x
  · dsimp only
    have hstart := (startOp_keeps s d i x).mono (ps := [.fch, .fns, .wbf]) (by decide)
    split
    · exact State.updPuAt_frame (by decide) hstart
    · exact hstart

theorem intentPage_of_free (h : 0 < (s.die d).intentFree) : intentPage s d = s := if_pos h

/-- With no free page the standby intent block becomes the active one (R226). -/
theorem intentPage_of_full (h : (s.die d).intentFree = 0) : (intentPage s d).die d = { s.die d with
    intentAct := (s.die d).intentStby, intentStby := (s.die d).intentAct, intentFree := wordLines s } := by
  unfold intentPage
  dsimp only
  rw [if_neg (by omega)]
  exact State.setDie_die_self _ _ _

theorem descriptorEraseIntent_starts (h : MayStart s d i .eraseIntent x) : exec (.descriptorEraseIntent d i) s =
    .next (startOp (intentPage s d) d i x) := congrArg Host.Outcome.next (h.starts _)

theorem descriptorErase_starts (h : MayStart s d i .erase x) : exec (.descriptorErase d i) s =
    .next (if (s.die d).armed = some (descBlock s x) then startErase s d i x
      else finishEntry s d i .noIntent none false) := congrArg Host.Outcome.next (h.starts _)

theorem breakWindow_keeps (s : State) : Frame [.stp, .evl, .pages, .regs] s (breakWindow s) :=
  breakWindow_frame (List.Subset.refl _) (Frame.refl _ s)

/-- An erase in a lit window that an excuse breaks begins too. -/
theorem startErase_breaks (hd : dimNow s = false) (he : heavyExcused s = true ∨ (s.die d).armReason % 256 = 2) :
    startErase s d i x = startOp (breakWindow s) d i x := by
  unfold startErase
  rw [if_neg (by simp [hd]), if_pos he]

theorem startErase_waits (hd : dimNow s = false) (he : heavyExcused s = false) (hr : (s.die d).armReason % 256 ≠ 2) :
    startErase s d i x = s := by
  unfold startErase
  rw [if_neg (by simp [hd]), if_neg (by simp [he, hr])]

theorem startErase_dim (hd : dimNow s = true) : startErase s d i x = startOp s d i x := if_pos hd

end

/-! ## Operations that report at once (R210) -/

section
variable {s : State} {d i : Nat} {x : Desc}

/-- An entry that completes with OK ends no chain. -/
theorem finishEntry_ok (s : State) (d i : Nat) (op : Option DieOp) (b : Bool) :
    finishEntry s d i .ok op b = completeEntry s d i .ok op b := by
  unfold finishEntry
  dsimp only
  split
  · next hx => exact (completeEntry_none _ _ _ hx).symm
  · rw [if_neg (by simp)]
    rfl

/-- A completion whose status FCH does not count, and after which no codeword arrives, writes no register. -/
theorem completeEntry_regs {t : CStat} (ht : ∀ u nn, countStatus u nn t = u)
    (hr : t = .ok → ∀ x, Tbl.get (s.die d).ring i = some x → isRead x.typ = false) (op : Option DieOp) (b : Bool) :
    (completeEntry s d i t op b).regs = s.regs := by
  unfold completeEntry
  dsimp only
  split
  · rfl
  · next x hx =>
    have hquiet : ¬(t = .ok ∧ !b ∧ isRead x.typ) := fun h => by
      have hread := hr h.1 x hx
      simp [hread] at h
    rw [ht, if_neg (by simpa using hquiet), apply_ite State.regs, State.evCh_regs, ite_self]
    rfl

/-- What an operation that reports at once leaves: its die is free, its record stands, and nothing but its ring and its
thresholds has changed. -/
theorem instantOp_leaves (hx : Tbl.get (s.die d).ring i = some x) (hr : isRead x.typ = false) (b : BitVec 8) (n : Nat) :
    (instantOp s d i x b n).records d i .ok ∧
      (∃ g h, (instantOp s d i x b n).die d = { s.die d with op := none, ring := g, thresh := h }) ∧
      (instantOp s d i x b n).regs = s.regs ∧ (instantOp s d i x b n).qmx = s.qmx ∧
      ∀ k, ∃ m, (instantOp s d i x b n).fn k = { s.fn k with cur := m } := by
  have hfree : ∀ u : State, Frame [.fch] u (u.updDie d fun y => { y with op := none }) := fun u =>
    State.updDie_frame (List.Subset.refl _) (Frame.refl _ u)
  unfold instantOp
  dsimp only
  rw [finishEntry_ok]
  have hentry : Tbl.get (((startOp s d i x).updDie d fun y => { y with op := none }).die d).ring i = some x := by
    rw [State.updDie_die_self, startOp_die_self]
    exact hx
  refine ⟨completeEntry_records _ _ _ hentry, ?_, ?_, ?_, fun k => ?_⟩
  · rw [(completeEntry_completes _ _ _ _ d i).die, State.updDie_die_self, startOp_die_self]
    exact ⟨_, _, rfl⟩
  · rw [completeEntry_regs (fun _ _ => rfl) (fun _ y hy => by cases hentry.symm.trans hy; exact hr),
      (hfree _).regs_eq, (startOp_keeps s d i x).regs_eq]
  · rw [(completeEntry_frame (ps := [.stp, .fch, .cip, .pages, .regs]) (List.Subset.refl _) (Frame.refl _ _)).qmx_eq,
      (hfree _).qmx_eq, (startOp_keeps s d i x).qmx_eq]
  · obtain ⟨m, hm⟩ := startOp_fn s d i x k
    refine ⟨m, Eq.trans (State.fn_congr ?_ k) hm⟩
    rw [(completeEntry_frame (ps := [.stp, .fch, .cip, .pages, .regs]) (List.Subset.refl _) (Frame.refl _ _)).fns_eq,
      (hfree _).fns_eq]

theorem descriptorStatus_reports (h : MayStart s d i .status x) (b : BitVec 8) :
    ∃ t, exec (.descriptorStatus d i b) s = .next t ∧ t.records d i .ok ∧ (t.die d).op = none := by
  obtain ⟨hrec, ⟨g, hg, hdie⟩, -⟩ := instantOp_leaves h.ring (by rw [h.typ]; rfl) b 0
  exact ⟨_, congrArg Host.Outcome.next (h.starts _), hrec, by rw [hdie]⟩

/-- A Get of the temperature feature gives it to the die (R455). -/
theorem descriptorFeature_reports (h : MayStart s d i .feature x) (v : Int) :
    ∃ t, exec (.descriptorFeature d i v) s = .next t ∧ t.records d i .ok ∧ (t.die d).op = none ∧
      (t.die d).temp = (if x.param.getLsbD 8 = false ∧ x.param.setWidth 8 = (s.die d).profile.tempAt then v
        else (s.die d).temp) := by
  obtain ⟨hrec, ⟨g, k, hdie⟩, -⟩ := instantOp_leaves h.ring (by rw [h.typ]; rfl) 0 0
  refine ⟨_, congrArg Host.Outcome.next (h.starts _), ?_⟩
  dsimp only
  by_cases hget : x.param.getLsbD 8 = false ∧ x.param.setWidth 8 = (s.die d).profile.tempAt
  · have hcond : ¬(x.param.getLsbD 8 = true ∨
        x.param.setWidth 8 ≠ ((instantOp s d i x 0 0).die d).profile.tempAt) := by
      rw [hdie, not_or, hget.1]
      exact ⟨Bool.false_ne_true, not_not.2 hget.2⟩
    rw [if_neg hcond, if_pos hget, State.updDie_die_self]
    exact ⟨State.records_congr hrec (by rw [State.updDie_die_self]) (State.updDie_chan _ _ _ _), by rw [hdie], rfl⟩
  · have hcond : x.param.getLsbD 8 = true ∨
        x.param.setWidth 8 ≠ ((instantOp s d i x 0 0).die d).profile.tempAt := by
      rw [hdie]
      by_cases h8 : x.param.getLsbD 8 = true
      · exact Or.inl h8
      · exact Or.inr fun he => hget ⟨by simpa using h8, he⟩
    rw [if_pos hcond, if_neg hget]
    exact ⟨hrec, by rw [hdie], by rw [hdie]⟩

/-! ## Resets (R210) -/

/-- Resets of LUNs leave each of them busy. -/
theorem lunResets_op (k : Nat) (l : List Nat) (s : State) (e : Nat) (h : e ∈ l ∨ (s.die e).op.isSome = true) :
    ((l.foldl (fun s e => lunReset s e k) s).die e).op.isSome = true := by
  induction l generalizing s with
  | nil => exact h.resolve_left List.not_mem_nil
  | cons a l ih =>
    refine ih _ ?_
    by_cases he : e = a
    · refine Or.inr ?_
      unfold lunReset
      rw [he, State.updDie_die_self]
      rfl
    · refine (h.imp_left fun hm => (List.mem_cons.1 hm).resolve_left he).imp_right fun ho => ?_
      unfold lunReset
      rwa [State.updDie_die_ne _ _ he]

theorem lunResets_die_ne (k : Nat) (l : List Nat) (s : State) {e : Nat} (h : e ∉ l) :
    (l.foldl (fun s e => lunReset s e k) s).die e = s.die e := by
  induction l generalizing s with
  | nil => rfl
  | cons a l ih =>
    rw [List.mem_cons, not_or] at h
    refine (ih _ h.2).trans ?_
    unfold lunReset
    exact State.updDie_die_ne _ _ h.1

theorem descriptorReset_starts (h : MayStart s d i .reset x) : exec (.descriptorReset d i) s =
    .next (if x.param.toNat % 4 = 3 then finishEntry s d i .badDesc none false
      else if x.param.toNat % 4 ≠ 0 ∧ !ceIdle s d then s
      else if x.param.toNat % 4 = 0 then startOp s d i x
      else (((startOp s d i x).fch.dies.map Prod.fst).filter fun e => e / 4 == d / 4 && e != d).foldl
        (fun s e => lunReset s e (x.param.toNat % 4)) (startOp s d i x)) :=
  congrArg Host.Outcome.next (h.starts _)

/-- A reset of the chip enable holds every LUN of it. -/
theorem descriptorReset_holds (h : MayStart s d i .reset x) (hk : x.param.toNat % 4 = 1 ∨ x.param.toNat % 4 = 2)
    (hc : ceIdle s d = true) :
    ∃ t o, exec (.descriptorReset d i) s = .next t ∧ (t.die d).op = some o ∧ o.slot = i ∧ o.desc = x ∧
      ∀ e y, Tbl.get s.fch.dies e = some y → e / 4 = d / 4 → (t.die e).op.isSome = true := by
  have hself : d ∉ ((startOp s d i x).fch.dies.map Prod.fst).filter fun e => e / 4 == d / 4 && e != d := by
    simp
  have hrun := descriptorReset_starts h
  rw [if_neg (by omega), if_neg (by simp [hc]), if_neg (by omega)] at hrun
  refine ⟨_, DieOp.start i x, hrun, ?_, rfl, rfl, fun e y hy he => ?_⟩
  · rw [lunResets_die_ne _ _ _ hself, startOp_die_self]
  · refine lunResets_op _ _ _ e ?_
    by_cases hed : e = d
    · refine Or.inr ?_
      rw [hed, startOp_die_self]
      rfl
    · refine Or.inl (List.mem_filter.2 ⟨?_, by simp [he, hed]⟩)
      have hlisted : Tbl.get (startOp s d i x).fch.dies e = some y := (startOp_dies_get s d i x hed).trans hy
      exact List.mem_map.2 ⟨(e, y), Tbl.mem_of_get hlisted, rfl⟩

end

/-! ## Raw reads (R210, R328) -/

section
variable {s : State} {d i : Nat} {x : Desc}

/-- A command that ends after an operation that reports at once; the record of the entry stands. -/
theorem finish_of_instantOp {v : State} {seq : Nat} {c : Cmd} {b : BitVec 8} {n : Nat}
    (hx : Tbl.get (s.die d).ring i = some x) (hr : isRead x.typ = false) (hc : s.cmd? seq = some c)
    (hv : Frame [.ans] (instantOp s d i x b n) v) (st : Status) :
    s.ends (v.finish seq st) seq st 0 ∧ (v.finish seq st).records d i .ok := by
  obtain ⟨hrec, -, hregs, hqmx, hfn⟩ := instantOp_leaves hx hr b n
  obtain ⟨m, hm⟩ := hfn c.fn
  have hkept : v.fn c.fn = { s.fn c.fn with cur := m } := (hv.fn_eq c.fn).trans hm
  refine ⟨State.complete_ends hc (by rw [hv.qmx_eq, hqmx]) (by rw [hkept]) (by rw [hkept]) (by rw [hkept])
    ((hv.rd_eq _).trans (State.rd_congr hregs _)), ?_⟩
  exact Completes.records (Completes.of_fch (by rw [State.finish_fch, hv.fch_eq])) hrec

theorem descriptorRaw_answers (h : MayStart s d i .raw x) {seq : Nat} {decode : Bool} (ho : x.owner = .diag seq decode)
    (data : BitVec 36864) (dec : Option Info) : exec (.descriptorRaw d i data dec) s =
    .next (rawAnswer (instantOp s d i x 0 x.count) x seq decode data dec) := by
  refine congrArg Host.Outcome.next ((h.starts _).trans ?_)
  dsimp only
  rw [ho]

/-- A raw read that answers `a` and ends its command. -/
theorem descriptorRaw_finishes (h : MayStart s d i .raw x) {seq : Nat} {c : Cmd} (hc : s.cmd? seq = some c)
    {data : BitVec 36864} {dec : Option Info} {a : Answer}
    (hrun : exec (.descriptorRaw d i data dec) s = .next (((instantOp s d i x 0 x.count).answer a).finish seq stOk)) :
    ∃ t, exec (.descriptorRaw d i data dec) s = .next t ∧ s.ends t seq stOk 0 ∧ t.records d i .ok ∧ t.ans = a := by
  obtain ⟨hends, hrec⟩ := finish_of_instantOp h.ring (by rw [h.typ]; rfl) hc
    (State.answer_frame (a := a) (List.Subset.refl _) (Frame.refl _ (instantOp s d i x 0 x.count))) stOk
  exact ⟨_, hrun, hends, hrec, State.finish_ans _ _ _⟩

theorem descriptorRaw_plain (h : MayStart s d i .raw x) {seq : Nat} {c : Cmd} (ho : x.owner = .diag seq false)
    (hc : s.cmd? seq = some c) (data : BitVec 36864) (dec : Option Info) :
    ∃ t, exec (.descriptorRaw d i data dec) s = .next t ∧ s.ends t seq stOk 0 ∧ t.records d i .ok ∧
      t.ans = .bytes (bytesOf 4608 (scramble (scrambleSeed x.block x.wl x.page x.plane x.cw) data)) := by
  have hrun := descriptorRaw_answers h ho data dec
  unfold rawAnswer at hrun
  rw [if_neg Bool.false_ne_true] at hrun
  exact descriptorRaw_finishes h hc hrun

theorem descriptorRaw_decoded (h : MayStart s d i .raw x) {seq : Nat} {c : Cmd} (ho : x.owner = .diag seq true)
    (hc : s.cmd? seq = some c) {data : BitVec 36864} (he : erasedWord data = false) (w : Info) :
    ∃ t, exec (.descriptorRaw d i data (some w)) s = .next t ∧ s.ends t seq stOk 0 ∧ t.records d i .ok ∧
      t.ans = .bytes (bytesOf 4128 w ++ zeros 480) := by
  have hrun := descriptorRaw_answers h ho data (some w)
  unfold rawAnswer at hrun
  rw [if_pos rfl, he, if_neg Bool.false_ne_true] at hrun
  exact descriptorRaw_finishes h hc hrun

theorem descriptorRaw_undecoded (h : MayStart s d i .raw x) {seq : Nat} {c : Cmd} (ho : x.owner = .diag seq true)
    (hc : s.cmd? seq = some c) {data : BitVec 36864} {dec : Option Info} (he : erasedWord data = true ∨ dec = none) :
    ∃ t, exec (.descriptorRaw d i data dec) s = .next t ∧ s.ends t seq stUnrecovered 0 ∧ t.records d i .ok := by
  obtain ⟨hends, hrec⟩ := finish_of_instantOp h.ring (by rw [h.typ]; rfl) hc
    (Frame.refl [.ans] (instantOp s d i x 0 x.count)) stUnrecovered
  have hnone : (if erasedWord data then none else dec) = none := by
    rcases he with he | he
    · rw [if_pos he]
    · rw [he, ite_self]
  have hrun := descriptorRaw_answers h ho data dec
  unfold rawAnswer at hrun
  rw [if_pos rfl, hnone] at hrun
  exact ⟨_, hrun, hends, hrec⟩

/-! ## Entries that fail their first checks (R204) -/

/-- What starts the entry `i` of die `d`: the commands of the ring, with the type that each starts. -/
def starters (d i : Nat) (busy : Bool) (b : BitVec 8) (v : Int) (data : BitVec 36864) (dec : Option Info) :
    List (Instr × OpType) :=
  [(Instr.descriptorRead d i busy, OpType.read), (.descriptorReadRun d i busy, .readRun),
    (.descriptorProgram d i, .program), (.descriptorEraseIntent d i, .eraseIntent), (.descriptorErase d i, .erase),
    (.descriptorStatus d i b, .status), (.descriptorFeature d i v, .feature), (.descriptorReset d i, .reset),
    (.descriptorRaw d i data dec, .raw)]

theorem descriptorRead_fails {st : CStat} (h : startable s d i .read = some x) (hc : preCheck s d x = some st)
    (busy : Bool) : exec (.descriptorRead d i busy) s = .next (finishEntry s d i st none false) := by
  show execDescriptorRead d i busy s = _
  unfold execDescriptorRead
  cases hop : (s.die d).op with
  | none =>
    rw [h]
    dsimp only
    rw [startWith_fails h hc]
  | some o =>
    rw [h]
    dsimp only
    rw [if_neg (by simp [hc]), startWith_fails h hc]

/-- An entry that fails its first checks ends with their status, whatever its type. -/
theorem starters_fail {st : CStat} {k : Instr} {typ : OpType} {busy : Bool} {b : BitVec 8} {v : Int}
    {data : BitVec 36864} {dec : Option Info} (hk : (k, typ) ∈ starters d i busy b v data dec)
    (h : startable s d i typ = some x) (hc : preCheck s d x = some st) :
    exec k s = .next (finishEntry s d i st none false) := by
  simp only [starters, List.mem_cons, Prod.mk.injEq, List.not_mem_nil, or_false] at hk
  obtain ⟨rfl, rfl⟩ | ⟨rfl, rfl⟩ | ⟨rfl, rfl⟩ | ⟨rfl, rfl⟩ | ⟨rfl, rfl⟩ | ⟨rfl, rfl⟩ | ⟨rfl, rfl⟩ | ⟨rfl, rfl⟩ |
    ⟨rfl, rfl⟩ := hk
  · exact descriptorRead_fails h hc busy
  all_goals exact congrArg Host.Outcome.next (startWith_fails h hc _)

theorem starters_complete {st : CStat} {k : Instr} {typ : OpType} {busy : Bool} {b : BitVec 8} {v : Int}
    {data : BitVec 36864} {dec : Option Info} (hk : (k, typ) ∈ starters d i busy b v data dec)
    (h : startable s d i typ = some x) (hc : preCheck s d x = some st) :
    ∃ t, exec k s = .next t ∧ t.records d i st ∧ (t.die d).op = (s.die d).op ∧ t.fch.media = s.fch.media := by
  refine ⟨_, starters_fail hk h hc, finishEntry_records _ _ _ (startable_entry h).1, ?_,
    (finishEntry_keeps _ _ _ s d i).media_eq⟩
  rw [(finishEntry_completes _ _ _ s d i).die]

/-! ## The clauses of O50 -/

/-- What an entry that starts at once leaves. -/
theorem starts_of_exec {k : Instr} (h : exec k s = .next (startOp s d i x)) :
    ∃ t, exec k s = .next t ∧ s.begins t d i x ∧ Frame [.fch, .fns] s t :=
  ⟨_, h, startOp_begins s d i x, (startOp_keeps s d i x).mono (by decide)⟩

theorem descriptorRead_settles (h : MayStart s d i .read x) :
    (∃ t, exec (.descriptorRead d i false) s = .next t ∧ s.begins t d i x ∧ Frame [.fch, .fns] s t) ∧
    (x.requeued < s.rdAt rFCH_READ_REQ_MAX (chanOf d) 0 →
      ∃ t y, exec (.descriptorRead d i true) s = .next t ∧ Tbl.get (t.die d).ring i = some y ∧
        y.requeued = x.requeued + 1 ∧ y.planned = false ∧ (t.die d).op = none ∧ Frame [.fch, .fns, .regs] s t) ∧
    (s.rdAt rFCH_READ_REQ_MAX (chanOf d) 0 ≤ x.requeued →
      ∃ t, exec (.descriptorRead d i true) s = .next t ∧ t.records d i .busyLimit ∧ (t.die d).op = none) := by
  refine ⟨starts_of_exec (descriptorRead_starts h false), fun hq => ?_, fun hq => ?_⟩
  · obtain ⟨y, hring, hrest⟩ := onBusy_requeued h.idle hq
    exact ⟨_, y, descriptorRead_starts h true, hring, hrest⟩
  · exact ⟨_, descriptorRead_starts h true, onBusy_limit h.ring h.idle hq⟩

theorem descriptorReadRun_settles (h : MayStart s d i .readRun x) :
    ((mgaParts s x.mga).block = (mgaParts s (x.mga + x.count - 1)).block →
      (∃ t, exec (.descriptorReadRun d i false) s = .next t ∧ s.begins t d i x ∧ Frame [.fch, .fns] s t) ∧
      (x.requeued < s.rdAt rFCH_READ_REQ_MAX (chanOf d) 0 →
        ∃ t y, exec (.descriptorReadRun d i true) s = .next t ∧ Tbl.get (t.die d).ring i = some y ∧
          y.requeued = x.requeued + 1 ∧ y.planned = false ∧ (t.die d).op = none)) ∧
    ((mgaParts s x.mga).block ≠ (mgaParts s (x.mga + x.count - 1)).block →
      ∃ t, exec (.descriptorReadRun d i false) s = .next t ∧ t.records d i .badDesc ∧ (t.die d).op = none) := by
  refine ⟨fun hb => ⟨starts_of_exec ?_, fun hq => ?_⟩, fun hb => ?_⟩
  · rw [descriptorReadRun_starts h, if_neg (not_not.2 hb), if_neg Bool.false_ne_true]
  · obtain ⟨y, hring, hcount, hplan, hop, -⟩ := onBusy_requeued h.idle hq
    refine ⟨_, y, ?_, hring, hcount, hplan, hop⟩
    rw [descriptorReadRun_starts h, if_neg (not_not.2 hb), if_pos rfl]
  · obtain ⟨hrec, hop, -⟩ := h.finishes .badDesc rfl
    refine ⟨_, ?_, hrec, hop⟩
    rw [descriptorReadRun_starts h, if_pos hb]

theorem descriptorEraseIntent_settles (h : MayStart s d i .eraseIntent x) :
    (0 < (s.die d).intentFree →
      ∃ t, exec (.descriptorEraseIntent d i) s = .next t ∧ s.begins t d i x ∧ Frame [.fch, .fns] s t) ∧
    ((s.die d).intentFree = 0 →
      ∃ t o, exec (.descriptorEraseIntent d i) s = .next t ∧ (t.die d).op = some o ∧ o.slot = i ∧ o.desc = x ∧
        (t.die d).intentAct = (s.die d).intentStby ∧ (t.die d).intentFree = wordLines s) := by
  refine ⟨fun hf => starts_of_exec ?_, fun hf => ⟨_, DieOp.start i x, descriptorEraseIntent_starts h, ?_⟩⟩
  · rw [descriptorEraseIntent_starts h, intentPage_of_free hf]
  · rw [startOp_die_self, intentPage_of_full hf]
    exact ⟨rfl, rfl, rfl, rfl, rfl⟩

theorem descriptorErase_settles (h : MayStart s d i .erase x) :
    ((s.die d).armed = some (descBlock s x) →
      (dimNow s = true → ∃ t, exec (.descriptorErase d i) s = .next t ∧ s.begins t d i x ∧ Frame [.fch, .fns] s t) ∧
      (dimNow s = false → heavyExcused s = true ∨ (s.die d).armReason % 256 = 2 →
        ∃ t, exec (.descriptorErase d i) s = .next t ∧ s.begins t d i x ∧ t.fch.media = s.fch.media) ∧
      (dimNow s = false → heavyExcused s = false → (s.die d).armReason % 256 ≠ 2 →
        exec (.descriptorErase d i) s = .next s)) ∧
    ((s.die d).armed ≠ some (descBlock s x) →
      ∃ t, exec (.descriptorErase d i) s = .next t ∧ t.records d i .noIntent ∧ (t.die d).op = none ∧
        t.fch.media = s.fch.media) := by
  have hrun := descriptorErase_starts h
  refine ⟨fun ha => ?_, fun ha => ?_⟩
  · rw [if_pos ha] at hrun
    refine ⟨fun hd => starts_of_exec ?_, fun hd he => ?_, fun hd he hr => ?_⟩
    · rw [hrun, startErase_dim hd]
    · have hbroken := (breakWindow_keeps s).fch_eq
      rw [startErase_breaks hd he] at hrun
      exact ⟨_, hrun, State.begins_congr (startOp_begins (breakWindow s) d i x) hbroken rfl,
        ((startOp_keeps (breakWindow s) d i x).media_eq).trans (by rw [hbroken])⟩
    · rw [hrun, startErase_waits hd he hr]
  · rw [if_neg ha] at hrun
    exact ⟨_, hrun, h.finishes .noIntent rfl⟩

end

/-- Settles O50: a ready entry by the equation of its command (`MayStart`), and one that fails its checks by the common
end of its entry (`starters_fail`). -/
theorem descriptorsStartOrComplete : Obligations.DescriptorsStartOrComplete := by
  refine ⟨fun s d i x hcheck hrecord hidle hroom => ?_,
    fun s d i x st k typ busy b v data dec hk h hc => starters_complete hk h hc⟩
  have may : ∀ {t}, startable s d i t = some x → MayStart s d i t x := fun h => ⟨h, hcheck, hrecord, hidle, hroom⟩
  refine ⟨fun h => descriptorRead_settles (may h), fun h => descriptorReadRun_settles (may h), fun h => ?_,
    fun h => descriptorEraseIntent_settles (may h), fun h => descriptorErase_settles (may h),
    fun b h => descriptorStatus_reports (may h) b, fun v h => descriptorFeature_reports (may h) v,
    fun h => ⟨fun hk => starts_of_exec ?_, fun hk hc => descriptorReset_holds (may h) hk hc⟩,
    fun data dec seq c decode h ho hcmd => ⟨fun hd => ?_, fun w hd he hw => ?_, fun hd he => ?_⟩⟩
  · obtain ⟨t, hrun, hbegins, hframe⟩ := descriptorProgram_begins (may h)
    exact ⟨t, hrun, hbegins, hframe.media_eq, hframe⟩
  · rw [descriptorReset_starts (may h), if_neg (by omega), if_neg (by omega), if_pos hk]
  · subst hd
    exact descriptorRaw_plain (may h) ho hcmd data dec
  · subst hd hw
    exact descriptorRaw_decoded (may h) ho hcmd he w
  · subst hd
    exact descriptorRaw_undecoded (may h) ho hcmd he

end Sys2Proof.Machine
end

section
/-! PROOFS. Die operations (O51): polls, completions, timeouts, reins, slots and retraining, one rule for each operation,
then the clauses of the statement. -/

-- one proof after another: many at once would each hold a thread of the compiler
set_option Elab.async false

namespace Sys2Proof.Machine

open Sys2Proof

/-! ## A raised event: the fields it leaves, and what the ledger has heard stays heard -/

/-- A bump of one field leaves every field of another key. -/
theorem State.bumpAt_rdAt_ne (s : State) {f g : Fld} {n k m j : Nat} (v : Nat)
    (h : fieldKey g m j ≠ fieldKey f n k) : (s.bumpAt f n k v).rdAt g m j = s.rdAt g m j := by
  unfold State.bumpAt
  split
  · rfl
  · exact State.wrAt_rdAt_ne s _ h

theorem refuse_rdAt_ne (s : State) (q : Nat) (r : LRec) (bit : Nat) {f : Fld} {n k : Nat}
    (h : fieldKey f n k ≠ fieldKey rEVL_SUPPRESSED 0 0) : (refuse s q r bit).rdAt f n k = s.rdAt f n k := by
  unfold refuse
  exact (State.rdAt_congr (State.evt_regs _ _ _) f n k).trans (State.bumpAt_rdAt_ne _ 1 h)

theorem accept_rdAt_ne (s : State) (code : Nat) (r : LRec) {f : Fld} {n k : Nat}
    (h : fieldKey f n k ≠ fieldKey rEVL_SUPPRESSED 0 0) : (accept s code r).rdAt f n k = s.rdAt f n k := by
  unfold accept
  dsimp only
  split
  · rfl
  · split
    · split
      · exact refuse_rdAt_ne _ _ _ _ h
      · rfl
    · exact refuse_rdAt_ne _ _ _ _ h

/-- A raised event writes no field but the count of the records that its bucket refused. -/
theorem State.raiseAt_rdAt_ne (s : State) (p code : Nat) (fn : Option Nat) (l : List (Nat × Nat)) (a : Option Nat)
    {f : Fld} {n k : Nat} (h : fieldKey f n k ≠ fieldKey rEVL_SUPPRESSED 0 0) :
    (s.raiseAt p code fn l a).rdAt f n k = s.rdAt f n k := by
  obtain ⟨u, hu, hr⟩ := s.raiseAt_cases p code fn l a
  have hub : u.rdAt f n k = s.rdAt f n k := by
    rcases hu with rfl | ⟨n, rfl⟩
    · rfl
    · exact State.rdAt_congr (State.capture_regs _ _ _ _ _) f _ _
  rcases hr with hr | hr <;> rw [hr]
  · exact (accept_rdAt_ne u _ _ h).trans hub
  · exact hub

theorem State.evCh_rdAt (s : State) (nn : Nat) (e : Nat × Nat) (f : Fld) (n k : Nat) :
    (s.evCh nn e).rdAt f n k = s.rdAt f n k := State.rdAt_congr (State.evCh_regs _ _ _) f n k

/-- The ledger holds record `r`: queued, held until the counts are restored, in the mirror, or the last one that bucket
`q` refused. -/
def Evl.heard (e : Evl) (q : Nat) (r : LRec) : Prop :=
  r ∈ e.queue ∨ r ∈ e.mirror ∨ (∃ n, (n, r) ∈ e.held) ∨ ∃ b, Tbl.get e.buckets q = some b ∧ b.last = some r

/-- The ledger of `t` has heard of an event raised in `s`, by its bucket `q` where that has refused it. -/
def State.hears (s t : State) (q code : Nat) (f : Option Nat) (l : List (Nat × Nat)) : Prop :=
  ∃ r : LRec, r.of s code f l ∧ t.evl.heard q r

theorem State.hears_tells {s t : State} {q code : Nat} {f : Option Nat} {l : List (Nat × Nat)} (h : s.hears t q code f l) :
    s.tells t code f l := by
  obtain ⟨r, hr, hq | hm | hh | hb⟩ := h
  · exact ⟨r, hr, Or.inl hq⟩
  · exact ⟨r, hr, Or.inr (Or.inl hm)⟩
  · exact ⟨r, hr, Or.inr (Or.inr (Or.inl hh))⟩
  · exact ⟨r, hr, Or.inr (Or.inr (Or.inr ⟨q, hb⟩))⟩

theorem Evl.enqueue_heard {e : Evl} {q : Nat} {r : LRec} (h : e.heard q r) (x : LRec) : (enqueue e x).heard q r := by
  unfold enqueue
  split
  · exact h.imp_right (Or.imp_left (List.mem_cons_of_mem _))
  · split
    · refine h.imp_left fun hm => ?_
      rw [← List.takeWhile_append_dropWhile (p := LRec.direct) (l := e.queue)] at hm
      exact (List.mem_append.1 hm).elim (List.mem_append_left _) fun hd =>
        List.mem_append_right _ (List.mem_cons_of_mem _ hd)
    · exact h.imp_left (List.mem_append_left _)

theorem State.setBucket_heard {s : State} {q k : Nat} {r : LRec} (h : s.evl.heard q r) (hk : q ≠ k) (b : Bucket) :
    (s.setBucket k b).evl.heard q r := by
  unfold State.setBucket
  refine h.imp_right (Or.imp_right (Or.imp_right ?_))
  rintro ⟨c, hc, hr⟩
  exact ⟨c, by rwa [State.setEvl_evl, Tbl.get_set, if_neg hk], hr⟩

theorem refuse_evl (s : State) (k : Nat) (r : LRec) (bit : Nat) : (refuse s k r bit).evl =
    (s.setBucket k { bucketOf s k with
      suppressed := min ((bucketOf s k).suppressed + 1) 0xFFFF, last := some r }).evl := by
  unfold refuse
  simp

/-- A record that another bucket screens takes nothing from what the ledger has heard. -/
theorem accept_heard {s : State} {q : Nat} {r : LRec} (h : s.evl.heard q r) {code : Nat} {x : LRec}
    (hk : q ≠ bucketKey code x.payload) : (accept s code x).evl.heard q r := by
  unfold accept
  dsimp only
  split
  · exact Evl.enqueue_heard h x
  · split
    · split
      · rw [refuse_evl]
        exact State.setBucket_heard h hk _
      · exact Evl.enqueue_heard (State.setBucket_heard h hk _) _
    · rw [refuse_evl]
      exact State.setBucket_heard h hk _

theorem accept_hears (s : State) (code : Nat) (x : LRec) : ∃ y : LRec,
    (∃ n m, y = { x with seq := n, suppressed := m }) ∧
      (accept s code x).evl.heard (bucketKey code x.payload) y := by
  have queued : ∀ (u : State) (z : LRec), ∃ y : LRec, (∃ n, y = { z with seq := n }) ∧
      (u.setEvl (enqueue u.evl z)).evl.heard (bucketKey code x.payload) y := fun u z => by
    rcases enqueue_mem u.evl z with ⟨n, hn⟩ | hn
    · exact ⟨_, ⟨n, rfl⟩, Or.inr (Or.inl hn)⟩
    · exact ⟨z, ⟨z.seq, rfl⟩, Or.inl hn⟩
  have refused : ∀ bit, (refuse s (bucketKey code x.payload) x bit).evl.heard (bucketKey code x.payload) x := fun bit => by
    rw [refuse_evl]
    exact Or.inr (Or.inr (Or.inr ⟨_, Tbl.get_set_self _ _ _, rfl⟩))
  unfold accept
  dsimp only
  split
  · obtain ⟨y, ⟨n, hy⟩, hm⟩ := queued s x
    exact ⟨y, ⟨n, x.suppressed, hy⟩, hm⟩
  · split
    · split
      · exact ⟨x, ⟨x.seq, x.suppressed, rfl⟩, refused 4⟩
      · obtain ⟨y, ⟨n, hy⟩, hm⟩ := queued (s.setBucket (bucketKey code x.payload) { bucketOf s (bucketKey code x.payload) with
          tokens := if neverRefused code then (bucketOf s (bucketKey code x.payload)).tokens
            else (bucketOf s (bucketKey code x.payload)).tokens - 1, suppressed := 0, last := none })
          { x with suppressed := (bucketOf s (bucketKey code x.payload)).suppressed }
        exact ⟨y, ⟨n, _, hy⟩, hm⟩
    · exact ⟨x, ⟨x.seq, x.suppressed, rfl⟩, refused 5⟩

/-- The ledger hears of a raised event, and its own bucket is the one that may have refused it. -/
theorem State.raiseAt_hears {s t : State} (ht : t.tbs = s.tbs) (p : Nat) {code : Nat} (f : Option Nat)
    (l : List (Nat × Nat)) (a : Option Nat) (hc : code ≠ 0x0701) : s.hears (t.raiseAt p code f l a) code code f l := by
  obtain ⟨h1, h2, h3, h4, h5, h6, h7, h8⟩ := recordNow_of ht code f l
  obtain ⟨u, -, hr⟩ := t.raiseAt_cases p code f l a
  rcases hr with hr | hr <;> rw [hr]
  · obtain ⟨y, ⟨n, m, rfl⟩, hy⟩ := accept_hears u code (recordNow t code f l)
    rw [bucketKey, if_neg hc] at hy
    exact ⟨{ recordNow t code f l with seq := n, suppressed := m }, ⟨h1, h2, h3, h4, h5, h6, h7, h8⟩, hy⟩
  · exact ⟨_, ⟨h1, h2, h3, h4, h5, h6, h7, h8⟩,
      Or.inr (Or.inr (Or.inl ⟨_, List.mem_append_right _ List.mem_cons_self⟩))⟩

/-- An event of another bucket takes nothing from what the ledger has heard. -/
theorem State.hears_raiseAt {s t : State} {q c : Nat} {g : Option Nat} {m : List (Nat × Nat)} (h : s.hears t q c g m)
    (p : Nat) {code : Nat} (f : Option Nat) (l : List (Nat × Nat)) (a : Option Nat) (hc : code ≠ 0x0701) (hq : q ≠ code) :
    s.hears (t.raiseAt p code f l a) q c g m := by
  obtain ⟨r, hof, hr⟩ := h
  refine ⟨r, hof, ?_⟩
  obtain ⟨u, hu, hrun⟩ := t.raiseAt_cases p code f l a
  have hkept : u.evl = t.evl := by
    rcases hu with rfl | ⟨n, rfl⟩
    · rfl
    · exact State.capture_evl _ _ _ _ _
  rw [← hkept] at hr
  rcases hrun with hrun | hrun <;> rw [hrun]
  · exact accept_heard hr (by rw [bucketKey, if_neg hc]; exact hq)
  · exact hr.imp_right (Or.imp_right (Or.imp_left fun ⟨n, hn⟩ => ⟨n, List.mem_append_left _ hn⟩))

theorem State.hears_congr {s t u : State} {q code : Nat} {f : Option Nat} {l : List (Nat × Nat)}
    (h : s.hears t q code f l) (he : u.evl = t.evl) : s.hears u q code f l := by
  unfold State.hears at *
  rw [he]
  exact h

/-! ## One die and its command group (R214) -/

/-- A die that changes while its channel's command group takes entries: the other dies stand. -/
theorem setDie_addGroup_leaves (s : State) (d : Nat) (y : Die) (x : Desc) (fns : List NandFn) :
    (addGroup (s.setDie d y) d x fns).die d = y ∧
      (∀ e, e ≠ d → (addGroup (s.setDie d y) d x fns).die e = s.die e) ∧
      Frame [.fch, .fns] s (addGroup (s.setDie d y) d x fns) := by
  refine ⟨?_, fun e he => ?_, addGroup_frame (by decide) (State.setDie_frame (by decide) (Frame.refl _ s))⟩
  · rw [addGroup_die, State.setDie_die_self]
  · rw [addGroup_die, State.setDie_die_ne _ _ he]

/-! ## Polls (R215) -/

section
variable {s : State} {d : Nat} {o : DieOp} {ready : Bool} (b : BitVec 8)

theorem dieOpPoll_op (hp : (s.die d).polls < 2) (hg : groupRoom (s.chan (chanOf d)) (pollFns s o ready).length = true)
    (hd : pollDue s (s.die d).profile o = true) (hr : (s.die d).reinRead = none) (ho : (s.die d).op = some o)
    (hn : o.phase = .none) : exec (.dieOpPoll d ready b) s =
    .next (addGroup (s.setDie d { s.die d with op := some (polled s o ready b), polls := (s.die d).polls + 1 }) d o.desc
      (pollFns s o ready)) := by
  refine congrArg Host.Outcome.next ?_
  dsimp only
  rw [if_neg (by omega), hr, ho]
  dsimp only
  rw [if_neg (by simp [hg]), if_neg (by simp [hn]), if_neg (by simp [hn, hd])]

theorem dieOpPoll_reinRead (hp : (s.die d).polls < 2)
    (hg : groupRoom (s.chan (chanOf d)) (pollFns s o ready).length = true)
    (hd : pollDue s (s.die d).profile o = true) (hr : (s.die d).reinRead = some o) : exec (.dieOpPoll d ready b) s =
    .next (addGroup (s.setDie d { s.die d with reinRead := some (polled s o ready b), polls := (s.die d).polls + 1 }) d
      o.desc (pollFns s o ready)) := by
  refine congrArg Host.Outcome.next ?_
  dsimp only
  rw [if_neg (by omega), hr]
  dsimp only
  rw [if_neg (by simp [hg]), if_neg (by simp [hd])]

end

theorem dieOpPoll_settles (s : State) (d : Nat) (o : DieOp) (ready : Bool) (b : BitVec 8) (hp : (s.die d).polls < 2)
    (hg : groupRoom (s.chan (chanOf d)) (pollFns s o ready).length = true)
    (hd : pollDue s (s.die d).profile o = true) :
    ((s.die d).reinRead = none → (s.die d).op = some o → o.phase = .none →
      ∃ t, exec (.dieOpPoll d ready b) s = .next t ∧ (t.die d).op = some (polled s o ready b) ∧
        (∀ e, e ≠ d → t.die e = s.die e) ∧ Frame [.fch, .fns] s t) ∧
    ((s.die d).reinRead = some o →
      ∃ t, exec (.dieOpPoll d ready b) s = .next t ∧ (t.die d).reinRead = some (polled s o ready b) ∧
        (t.die d).op = (s.die d).op ∧ (∀ e, e ≠ d → t.die e = s.die e) ∧ Frame [.fch, .fns] s t) := by
  refine ⟨fun hr ho hn => ?_, fun hr => ?_⟩
  · obtain ⟨hself, hother, hframe⟩ := setDie_addGroup_leaves s d
      { s.die d with op := some (polled s o ready b), polls := (s.die d).polls + 1 } o.desc (pollFns s o ready)
    exact ⟨_, dieOpPoll_op b hp hg hd hr ho hn, by rw [hself], hother, hframe⟩
  · obtain ⟨hself, hother, hframe⟩ := setDie_addGroup_leaves s d
      { s.die d with reinRead := some (polled s o ready b), polls := (s.die d).polls + 1 } o.desc (pollFns s o ready)
    exact ⟨_, dieOpPoll_reinRead b hp hg hd hr, by rw [hself], by rw [hself], hother, hframe⟩

/-! ## Intent records (R226, R227, R228) -/

theorem takePslc_keeps {s t : State} {d b : Nat} (h : takePslc s d = some (b, t)) : Frame [.rcl] s t :=
  takePslc_eq_frame h (List.Subset.refl _) (Frame.refl _ s)

/-- A die but for its intent blocks and the records in them. -/
def Die.butIntent (y : Die) : Die :=
  { y with intentAct := 0, intentStby := 0, intentFree := 0, recSeq := 0, records := [] }

theorem Die.butIntent_eq {y z : Die} (h : y.butIntent = z.butIntent) : y.ring = z.ring ∧ y.op = z.op := by
  have hring : y.butIntent.ring = z.butIntent.ring := by rw [h]
  have hop : y.butIntent.op = z.butIntent.op := by rw [h]
  exact ⟨hring, hop⟩

theorem intentPage_butIntent (s : State) (d : Nat) : ((intentPage s d).die d).butIntent = (s.die d).butIntent := by
  by_cases h : 0 < (s.die d).intentFree
  · rw [intentPage_of_free h]
  · rw [intentPage_of_full (by omega)]
    rfl

/-- A record keeps what the die does, its ring and what it is armed for. -/
theorem writeIntent_butIntent (s : State) (d : Nat) (r : IntentRec) (n : Nat) :
    ((writeIntent s d r n).die d).butIntent = (s.die d).butIntent := by
  refine Eq.trans ?_ (intentPage_butIntent s d)
  unfold writeIntent
  dsimp only
  split
  · rw [State.die_congr (State.raiseAt_fch _ _ _ _ _ _)]
    split
    · next b u hu =>
      rw [State.updDie_die_self, (takePslc_keeps hu).die_eq, State.setDie_die_self]
      rfl
    · rw [State.setDie_die_self]
      rfl
  · rw [State.setDie_die_self]
    rfl

theorem writeIntent_keeps (s : State) (d : Nat) (r : IntentRec) (n : Nat) :
    Frame [.fch, .rcl, .evl, .pages, .regs] s (writeIntent s d r n) :=
  writeIntent_frame (List.Subset.refl _) (Frame.refl _ s)

/-- A record writes no field but the count of refused records. -/
theorem writeIntent_rdAt_ne (s : State) (d : Nat) (r : IntentRec) (n : Nat) {f : Fld} {k j : Nat}
    (h : fieldKey f k j ≠ fieldKey rEVL_SUPPRESSED 0 0) : (writeIntent s d r n).rdAt f k j = s.rdAt f k j := by
  have hpage : (intentPage s d).regs = s.regs := (intentPage_frame (List.Subset.refl _) (Frame.refl _ s)).regs_eq
  unfold writeIntent
  dsimp only
  split
  · rw [State.raiseAt_rdAt_ne _ _ _ _ _ _ h]
    split
    · next b u hu =>
      exact State.rdAt_congr ((takePslc_keeps hu).regs_eq.trans hpage) f k j
    · exact State.rdAt_congr hpage f k j
  · exact State.rdAt_congr hpage f k j

/-! ## The end of a ready operation (R211, R215, R228) -/

/-- The die when its operation `o` has ended, before its records and its effect. -/
def opEnded (s : State) (d : Nat) (o : DieOp) : State :=
  s.updDie d fun y => { y with op := none, toRun := if o.slot = noSlot then y.toRun else 0 }

theorem opEnded_die (s : State) (d : Nat) (o : DieOp) : (opEnded s d o).die d =
    { s.die d with op := none, toRun := if o.slot = noSlot then (s.die d).toRun else 0 } := State.updDie_die_self _ _ _

section
variable {s : State} {d : Nat} {o : DieOp} (n : Nat)

/-- The record that an erase leaves at its end. -/
def eraseDone (s : State) (d : Nat) (o : DieOp) : IntentRec :=
  { done := true, flags := BitVec.ofNat 8 ((s.die d).armReason / 256) ||| (if o.dstat.getLsbD 0 then 8 else 0),
    block := descBlock s o.desc, recSeq := 0, eraseCount := (s.die d).armCount, reason := (s.die d).armReason % 256,
    seconds := s.now, pcycle := s.tbs.pcycle }

/-- An erase at its end: its record is written, and the die is not armed any more. -/
def eraseDisarmed (s : State) (d : Nat) (o : DieOp) : State :=
  (writeIntent (opEnded s d o) d (eraseDone (opEnded s d o) d o) n).updDie d fun y => { y with armed := none }

/-- An ERASE_INTENT at its end: its record is written, and the die is armed for its block. -/
def eraseArmed (s : State) (d : Nat) (o : DieOp) : State :=
  (writeIntent (opEnded s d o) d (intentOf (opEnded s d o) o.desc.param false false) n).updDie d fun y => { y with
    armed := some ((o.desc.param >>> 16).toNat % 16384), armCount := (o.desc.param >>> 32).toNat % 2 ^ 32,
    armReason := o.desc.param.toNat % 65536 }

theorem isRead_iff {t : OpType} : isRead t = true ↔ t = .read ∨ t = .readRun := by
  unfold isRead
  rw [Bool.or_eq_true, beq_iff_eq, beq_iff_eq]

theorem endOp_read (h : isRead o.desc.typ = true) :
    endOp s d o n = finishEntry (opEnded s d o) d o.slot .ok (some o) o.discard := by
  unfold endOp
  dsimp only
  rcases isRead_iff.1 h with h | h <;> rw [h] <;> rfl

theorem endOp_program (h : o.desc.typ = .program) : endOp s d o n =
    finishEntry (if o.dstat.getLsbD 0 then opEnded s d o else mediaAfter (opEnded s d o) d o.desc) d o.slot
      (if o.dstat.getLsbD 0 then .programFail else .ok) (some o) false := by
  unfold endOp
  dsimp only
  rw [h]
  rfl

theorem endOp_eraseIntent (h : o.desc.typ = .eraseIntent) :
    endOp s d o n = finishEntry (eraseArmed n s d o) d o.slot .ok (some o) false := by
  unfold endOp
  dsimp only
  rw [h]
  rfl

theorem endOp_erase (h : o.desc.typ = .erase) : endOp s d o n =
    finishEntry (if o.dstat.getLsbD 0 then eraseDisarmed n s d o else mediaAfter (eraseDisarmed n s d o) d o.desc) d
      o.slot (if o.dstat.getLsbD 0 then .eraseFail else .ok) (some o) false := by
  unfold endOp
  dsimp only
  rw [h]
  rfl

theorem eraseDisarmed_die : ((eraseDisarmed n s d o).die d).ring = (s.die d).ring ∧
    ((eraseDisarmed n s d o).die d).op = none ∧ ((eraseDisarmed n s d o).die d).armed = none := by
  obtain ⟨hring, hop⟩ := Die.butIntent_eq ((writeIntent_butIntent (opEnded s d o) d (eraseDone (opEnded s d o) d o) n).trans
    (congrArg Die.butIntent (opEnded_die s d o)))
  unfold eraseDisarmed
  rw [State.updDie_die_self]
  exact ⟨hring, hop, rfl⟩

theorem eraseArmed_die : ((eraseArmed n s d o).die d).ring = (s.die d).ring ∧ ((eraseArmed n s d o).die d).op = none ∧
    ((eraseArmed n s d o).die d).armed = some ((o.desc.param >>> 16).toNat % 16384) := by
  obtain ⟨hring, hop⟩ := Die.butIntent_eq ((writeIntent_butIntent (opEnded s d o) d
    (intentOf (opEnded s d o) o.desc.param false false) n).trans (congrArg Die.butIntent (opEnded_die s d o)))
  unfold eraseArmed
  rw [State.updDie_die_self]
  exact ⟨hring, hop, rfl⟩

theorem eraseDisarmed_media : (eraseDisarmed n s d o).fch.media = s.fch.media :=
  (writeIntent_keeps (opEnded s d o) d _ n).media_eq

theorem eraseArmed_media : (eraseArmed n s d o).fch.media = s.fch.media :=
  (writeIntent_keeps (opEnded s d o) d _ n).media_eq

theorem eraseDisarmed_rd_ne {f : Fld} (h : fieldKey f 0 0 ≠ fieldKey rEVL_SUPPRESSED 0 0) :
    (eraseDisarmed n s d o).rd f = s.rd f :=
  writeIntent_rdAt_ne (opEnded s d o) d _ n h

/-- An entry that ends once its die is free. -/
theorem finishEntry_free {u : State} {i : Nat} {x : Desc} (hx : Tbl.get (u.die d).ring i = some x)
    (ho : (u.die d).op = none) (t : CStat) (op : Option DieOp) (b : Bool) :
    (finishEntry u d i t op b).records d i t ∧ ((finishEntry u d i t op b).die d).op = none ∧
      ((finishEntry u d i t op b).die d).armed = (u.die d).armed ∧
      (finishEntry u d i t op b).fch.media = u.fch.media := by
  have hdie := (finishEntry_completes t op b u d i).die
  refine ⟨finishEntry_records _ _ _ hx, by rw [hdie]; exact ho, by rw [hdie], (finishEntry_keeps _ _ _ u d i).media_eq⟩

/-! ## What media hold after an operation (R143) -/

/-- A fold of writes into a table changes no key but theirs, and each of theirs is there. -/
theorem get_foldl_set {α β : Type} (key : β → Nat) (val : β → α) (l : List β) (t : Tbl α) :
    (∀ k, (∀ g ∈ l, k ≠ key g) → Tbl.get (l.foldl (fun t g => Tbl.set t (key g) (val g)) t) k = Tbl.get t k) ∧
      ∀ k, (Tbl.get t k).isSome = true ∨ (∃ g ∈ l, k = key g) →
        (Tbl.get (l.foldl (fun t g => Tbl.set t (key g) (val g)) t) k).isSome = true := by
  induction l generalizing t with
  | nil => exact ⟨fun _ _ => rfl, fun k h => h.resolve_right (by simp)⟩
  | cons a l ih =>
    obtain ⟨hkept, hset⟩ := ih (Tbl.set t (key a) (val a))
    refine ⟨fun k hk => ?_, fun k hk => hset k ?_⟩
    · rw [List.foldl_cons, hkept k fun g hg => hk g (List.mem_cons_of_mem _ hg), Tbl.get_set,
        if_neg (hk a List.mem_cons_self)]
    · rw [Tbl.get_set]
      rcases hk with hk | ⟨g, hg, hk⟩
      · split <;> simp [hk]
      · rcases List.mem_cons.1 hg with rfl | hg
        · simp [hk]
        · exact Or.inr ⟨g, hg, hk⟩

/-- A table cut to the keys that meet `p`. -/
theorem get_filter_key {α : Type} (p : Nat → Bool) (t : Tbl α) (k : Nat) :
    Tbl.get (t.filter fun q => p q.1) k = if p k then Tbl.get t k else none := by
  induction t with
  | nil => exact (ite_self _).symm
  | cons q t ih =>
    rw [List.filter_cons]
    by_cases hq : q.1 = k
    · subst hq
      by_cases hp : p q.1 = true
      · simp [hp, Tbl.get]
      · simpa [hp, Tbl.get] using ih
    · by_cases hp : p q.1 = true <;> simp [hp, hq, Tbl.get, ih]

/-- The codewords staged for the member of a program. -/
def stagedFor (s : State) (st ser m : Nat) : List Staged :=
  s.staged.filter fun g => g.stream == st && g.serial == ser && g.member == m

theorem mem_stagedFor {s : State} {st ser m : Nat} {g : Staged} :
    g ∈ stagedFor s st ser m ↔ g ∈ s.staged ∧ g.stream = st ∧ g.serial = ser ∧ g.member = m := by
  simp [stagedFor, and_assoc]

theorem mediaAfter_program {u : State} {x : Desc} {st ser m : Nat} (ht : x.typ = .program) (ho : x.owner = .pu st ser m) :
    mediaAfter u d x = u.setFch { u.fch with
      media := (stagedFor u st ser m).foldl (fun t g => Tbl.set t (x.mga + g.pos) g.info) u.fch.media } := by
  unfold mediaAfter
  rw [ht, ho]
  rfl

theorem mediaAfter_pslcErase {u : State} {x : Desc} (ht : x.typ = .erase) (hp : x.pslc = true) :
    mediaAfter u d x = u.updDie d fun y => { y with records := y.records.filter fun p => p.block != x.block } := by
  unfold mediaAfter
  rw [ht]
  exact if_pos hp

theorem mediaAfter_erase {u : State} {x : Desc} (ht : x.typ = .erase) (hp : x.pslc = false) :
    mediaAfter u d x = u.setFch { u.fch with
      media := u.fch.media.filter fun p =>
        decide (p.1 < mgaOf u d (descBlock u x) 0 0 ∨ p.1 ≥ mgaOf u d (descBlock u x + 1) 0 0) } := by
  unfold mediaAfter
  rw [ht]
  exact if_neg (by simp [hp])

/-- What an operation does to media keeps its die's ring, its operation and what it is armed for. -/
theorem mediaAfter_die {u : State} {x : Desc} : ((mediaAfter u d x).die d).ring = (u.die d).ring ∧
    ((mediaAfter u d x).die d).op = (u.die d).op ∧ ((mediaAfter u d x).die d).armed = (u.die d).armed := by
  unfold mediaAfter
  split
  · exact ⟨rfl, rfl, rfl⟩
  · dsimp only
    split
    · rw [State.updDie_die_self]
      exact ⟨rfl, rfl, rfl⟩
    · exact ⟨rfl, rfl, rfl⟩
  · exact ⟨rfl, rfl, rfl⟩

/-- The cells that an erase clears are those of its block, as the geometry had it before the operation ended. -/
theorem eraseDisarmed_cells (x : Desc) :
    mgaOf (eraseDisarmed n s d o) d (descBlock (eraseDisarmed n s d o) x) 0 0 = mgaOf s d (descBlock s x) 0 0 ∧
      mgaOf (eraseDisarmed n s d o) d (descBlock (eraseDisarmed n s d o) x + 1) 0 0 =
        mgaOf s d (descBlock s x + 1) 0 0 := by
  simp only [mgaOf, descBlock, mgaParts, slotsDie, wordLines, puGran,
    eraseDisarmed_rd_ne n (s := s) (d := d) (o := o) (f := rMAP_SLOTS_DIE) (by decide),
    eraseDisarmed_rd_ne n (s := s) (d := d) (o := o) (f := rMAP_WLS) (by decide),
    eraseDisarmed_rd_ne n (s := s) (d := d) (o := o) (f := rMAP_BITS) (by decide),
    eraseDisarmed_rd_ne n (s := s) (d := d) (o := o) (f := rMAP_PLANES) (by decide),
    eraseDisarmed_rd_ne n (s := s) (d := d) (o := o) (f := rMAP_PU_GRAN) (by decide), and_self]

/-! ## Completions (R211, R215) -/

theorem dieOpComplete_read (hr : (s.die d).reinRead = none) (ho : (s.die d).op = some o)
    (ht : isRead o.desc.typ = true) (he : readEnds o = true) :
    exec (.dieOpComplete d n) s = .next (endOp s d o n) := by
  refine congrArg Host.Outcome.next ?_
  dsimp only
  rw [hr, ho]
  dsimp only
  rw [if_pos ht, if_pos he]

theorem dieOpComplete_ready (hr : (s.die d).reinRead = none) (ho : (s.die d).op = some o)
    (ht : isRead o.desc.typ = false) (hready : o.ready = true) (hp : o.phase = .none) :
    exec (.dieOpComplete d n) s = .next (endOp s d o n) := by
  refine congrArg Host.Outcome.next ?_
  dsimp only
  rw [hr, ho]
  dsimp only
  rw [if_neg (by simp [ht]), if_pos ⟨hready, hp⟩]

section
variable {x : Desc} (hr : (s.die d).reinRead = none) (ho : (s.die d).op = some o)
  (hx : Tbl.get (s.die d).ring o.slot = some x)
include hr ho hx

theorem dieOpComplete_endsRead (ht : isRead o.desc.typ = true) (he : readEnds o = true) :
    ∃ t, exec (.dieOpComplete d n) s = .next t ∧ t.records d o.slot .ok ∧ (t.die d).op = none ∧
      t.fch.media = s.fch.media := by
  obtain ⟨hrec, hop, -, hmedia⟩ := finishEntry_free (u := opEnded s d o) (by rwa [opEnded_die]) (by rw [opEnded_die])
    .ok (some o) o.discard
  refine ⟨_, dieOpComplete_read n hr ho ht he, ?_⟩
  rw [endOp_read n ht]
  exact ⟨hrec, hop, hmedia⟩

theorem dieOpComplete_programs {st ser m : Nat} (hready : o.ready = true) (hp : o.phase = .none)
    (ht : o.desc.typ = .program) (hf : o.dstat.getLsbD 0 = false) (hpu : o.desc.owner = .pu st ser m) :
    ∃ t, exec (.dieOpComplete d n) s = .next t ∧ t.records d o.slot .ok ∧ (t.die d).op = none ∧
      (∀ k, (∀ g ∈ s.staged, g.stream = st → g.serial = ser → g.member = m → k ≠ o.desc.mga + g.pos) →
        Tbl.get t.fch.media k = Tbl.get s.fch.media k) ∧
      ∀ g ∈ s.staged, g.stream = st → g.serial = ser → g.member = m →
        (Tbl.get t.fch.media (o.desc.mga + g.pos)).isSome = true := by
  obtain ⟨hring, hidle, -⟩ := mediaAfter_die (u := opEnded s d o) (d := d) (x := o.desc)
  obtain ⟨hrec, hop, -, hmedia⟩ := finishEntry_free (u := mediaAfter (opEnded s d o) d o.desc)
    (by rw [hring, opEnded_die]; exact hx) (by rw [hidle, opEnded_die]) .ok (some o) false
  have hcells := hmedia.trans (congrArg (fun u => u.fch.media) (mediaAfter_program ht hpu))
  obtain ⟨hkept, hset⟩ := get_foldl_set (fun g : Staged => o.desc.mga + g.pos) Staged.info (stagedFor s st ser m) s.fch.media
  refine ⟨_, dieOpComplete_ready n hr ho (by rw [ht]; rfl) hready hp, ?_⟩
  rw [endOp_program n ht, hf]
  refine ⟨hrec, hop, fun k hk => ?_, fun g hg h1 h2 h3 => ?_⟩
  · refine (congrArg (Tbl.get · k) hcells).trans (hkept k fun g hg => ?_)
    obtain ⟨hmem, h1, h2, h3⟩ := mem_stagedFor.1 hg
    exact hk g hmem h1 h2 h3
  · refine (congrArg (fun t => (Tbl.get t (o.desc.mga + g.pos)).isSome) hcells).trans (hset _ (Or.inr ?_))
    exact ⟨g, mem_stagedFor.2 ⟨hg, h1, h2, h3⟩, rfl⟩

theorem dieOpComplete_programFails (hready : o.ready = true) (hp : o.phase = .none) (ht : o.desc.typ = .program)
    (hf : o.dstat.getLsbD 0 = true) :
    ∃ t, exec (.dieOpComplete d n) s = .next t ∧ t.records d o.slot .programFail ∧ (t.die d).op = none ∧
      t.fch.media = s.fch.media := by
  obtain ⟨hrec, hop, -, hmedia⟩ := finishEntry_free (u := opEnded s d o) (by rwa [opEnded_die]) (by rw [opEnded_die])
    .programFail (some o) false
  refine ⟨_, dieOpComplete_ready n hr ho (by rw [ht]; rfl) hready hp, ?_⟩
  rw [endOp_program n ht, hf]
  exact ⟨hrec, hop, hmedia⟩

theorem dieOpComplete_arms (hready : o.ready = true) (hp : o.phase = .none) (ht : o.desc.typ = .eraseIntent) :
    ∃ t, exec (.dieOpComplete d n) s = .next t ∧ t.records d o.slot .ok ∧ (t.die d).op = none ∧
      (t.die d).armed = some ((o.desc.param >>> 16).toNat % 16384) ∧ t.fch.media = s.fch.media := by
  obtain ⟨hring, hidle, harmed⟩ := eraseArmed_die (s := s) (d := d) (o := o) n
  obtain ⟨hrec, hop, harm, hmedia⟩ := finishEntry_free (u := eraseArmed n s d o) (by rw [hring]; exact hx) hidle
    .ok (some o) false
  refine ⟨_, dieOpComplete_ready n hr ho (by rw [ht]; rfl) hready hp, ?_⟩
  rw [endOp_eraseIntent n ht]
  exact ⟨hrec, hop, harm.trans harmed, hmedia.trans (eraseArmed_media n)⟩

theorem dieOpComplete_eraseFails (hready : o.ready = true) (hp : o.phase = .none) (ht : o.desc.typ = .erase)
    (hf : o.dstat.getLsbD 0 = true) :
    ∃ t, exec (.dieOpComplete d n) s = .next t ∧ t.records d o.slot .eraseFail ∧ (t.die d).op = none ∧
      (t.die d).armed = none ∧ t.fch.media = s.fch.media := by
  obtain ⟨hring, hidle, harmed⟩ := eraseDisarmed_die (s := s) (d := d) (o := o) n
  obtain ⟨hrec, hop, harm, hmedia⟩ := finishEntry_free (u := eraseDisarmed n s d o) (by rw [hring]; exact hx) hidle
    .eraseFail (some o) false
  refine ⟨_, dieOpComplete_ready n hr ho (by rw [ht]; rfl) hready hp, ?_⟩
  rw [endOp_erase n ht, hf]
  exact ⟨hrec, hop, harm.trans harmed, hmedia.trans (eraseDisarmed_media n)⟩

theorem dieOpComplete_erases (hready : o.ready = true) (hp : o.phase = .none) (ht : o.desc.typ = .erase)
    (hf : o.dstat.getLsbD 0 = false) :
    ∃ t, exec (.dieOpComplete d n) s = .next t ∧ t.records d o.slot .ok ∧ (t.die d).armed = none ∧
      (o.desc.pslc = true → t.fch.media = s.fch.media) ∧
      (o.desc.pslc = false → ∀ k, Tbl.get t.fch.media k = (if mgaOf s d (descBlock s o.desc) 0 0 ≤ k ∧
        k < mgaOf s d (descBlock s o.desc + 1) 0 0 then none else Tbl.get s.fch.media k)) := by
  obtain ⟨hring, hidle, harmed⟩ := eraseDisarmed_die (s := s) (d := d) (o := o) n
  obtain ⟨hring', hidle', harmed'⟩ := mediaAfter_die (u := eraseDisarmed n s d o) (d := d) (x := o.desc)
  obtain ⟨hrec, -, harm, hmedia⟩ := finishEntry_free (u := mediaAfter (eraseDisarmed n s d o) d o.desc)
    (by rw [hring', hring]; exact hx) (hidle'.trans hidle) .ok (some o) false
  refine ⟨_, dieOpComplete_ready n hr ho (by rw [ht]; rfl) hready hp, ?_⟩
  rw [endOp_erase n ht, hf]
  refine ⟨hrec, harm.trans (harmed'.trans harmed), fun hps => ?_, fun hps k => ?_⟩
  · refine hmedia.trans ?_
    rw [mediaAfter_pslcErase ht hps]
    exact eraseDisarmed_media n
  · obtain ⟨hlo, hhi⟩ := eraseDisarmed_cells (s := s) (d := d) (o := o) n o.desc
    refine (congrArg (Tbl.get · k) hmedia).trans ?_
    rw [mediaAfter_erase ht hps, hlo, hhi]
    refine (get_filter_key (fun k => decide (k < mgaOf s d (descBlock s o.desc) 0 0 ∨
      k ≥ mgaOf s d (descBlock s o.desc + 1) 0 0)) _ k).trans ?_
    rw [eraseDisarmed_media]
    by_cases hk : mgaOf s d (descBlock s o.desc) 0 0 ≤ k ∧ k < mgaOf s d (descBlock s o.desc + 1) 0 0
    · rw [if_pos hk, if_neg (by rw [decide_eq_true_iff]; omega)]
    · rw [if_neg hk, if_pos (by rw [decide_eq_true_iff]; omega)]

end

end

/-! ## A die that leaves service (R241, R242) -/

theorem State.updChan_keeps (s : State) (c : Nat) (g : Chan → Chan) : Frame [.fch] s (s.updChan c g) :=
  State.updChan_frame (List.Subset.refl _) (Frame.refl _ s)

/-- Completion records reserved for what a die has in progress. -/
def recordsHeld (y : Die) : Nat :=
  (if y.op.any fun o => decide (o.slot < 64) then 1 else 0) + (if y.reinRead.isSome then 1 else 0)

/-- The die with its ring emptied into the channel's completion ring and nothing in progress. -/
def dieEmptied (s : State) (d : Nat) : State :=
  ((ringOrder (s.die d)).foldl (fun s p => completeEntry s d p.1 .dieAbsent none false)
    (s.updChan (chanOf d) fun c => { c with reserved := c.reserved - recordsHeld (s.die d) })).updDie d fun y =>
      { y with service := false, op := none, reinRead := none, timeline := [], armed := none }

/-- The die's leaving is shown, told, and left to PAR. -/
def dieReported (s : State) (d : Nat) : State :=
  let s := ((dieEmptied s d).evCh (chanOf d) eFCH_DIE_OUT).raiseAt (64 + chanOf d) lFCH_DIE_OUT none [p2 d] (some (diePos d))
  s.setPar { s.par with lostArm := s.par.lostArm ++ [d] }

/-- A channel without a die in service leaves too. -/
def channelOut (s : State) (nn : Nat) : State :=
  ((s.updChan nn fun c => { c with inService := false }).evCh nn eFCH_CH_OUT).raiseAt (64 + nn) lFCH_CH_OUT none [p4 nn] none

section
variable {s : State} {d : Nat}

theorem dieOut_of_serving (h : (s.die d).service = true) : dieOut s d =
    if (dieReported s d).fch.dies.any fun p => chanOf p.1 == chanOf d && p.2.service then dieReported s d
    else channelOut (dieReported s d) (chanOf d) := by
  unfold dieOut
  rw [if_neg (by simp [h])]
  rfl

theorem dieOut_of_absent (h : (s.die d).service = false) : dieOut s d = s := by
  unfold dieOut
  rw [if_pos (by simp [h])]

/-- What a die that leaves service can change: its own ring and work, its channel's records and service. -/
structure LeavesService (d : Nat) (s t : State) : Prop where
  die : t.die d = { s.die d with
    ring := (t.die d).ring, service := false, op := none, reinRead := none, timeline := [], armed := none }
  dieNe : ∀ e, e ≠ d → t.die e = s.die e
  free : ∀ i, Tbl.get (s.die d).ring i = none → Tbl.get (t.die d).ring i = none
  holds : ∀ r, (s.chan (chanOf d)).holds r → (t.chan (chanOf d)).holds r
  chan : t.chan (chanOf d) = { s.chan (chanOf d) with
    cring := (t.chan (chanOf d)).cring, waiting := (t.chan (chanOf d)).waiting,
    reserved := (t.chan (chanOf d)).reserved, cringTail := (t.chan (chanOf d)).cringTail,
    inService := (t.chan (chanOf d)).inService }
  chanNe : ∀ c, c ≠ chanOf d → t.chan c = s.chan c

theorem dieEmptied_leaves (s : State) (d : Nat) : LeavesService d s (dieEmptied s d) := by
  have h := Completes.foldl (d := d) (fun u (p : Nat × Desc) => completeEntry_completes .dieAbsent none false u d p.1)
    (ringOrder (s.die d))
    (s.updChan (chanOf d) fun c => { c with reserved := c.reserved - recordsHeld (s.die d) })
  have hown := State.updChan_chan_self s (chanOf d) fun c => { c with reserved := c.reserved - recordsHeld (s.die d) }
  unfold dieEmptied
  refine ⟨?_, fun e he => ?_, fun i hi => ?_, fun r hr => ?_, ?_, fun c hc => ?_⟩
  · rw [State.updDie_die_self, h.die]
    rfl
  · rw [State.updDie_die_ne _ _ he, h.dieNe e he]
    rfl
  · rw [State.updDie_die_self]
    exact h.free i hi
  · refine h.holds r ?_
    rw [hown]
    exact hr
  · rw [State.updDie_chan, h.chan, hown]
  · rw [State.updDie_chan, h.chanNe c hc, State.updChan_chan_ne _ _ hc]

theorem dieReported_fch (s : State) (d : Nat) : (dieReported s d).fch = (dieEmptied s d).fch := by
  unfold dieReported
  dsimp only
  rw [State.setPar_fch, State.raiseAt_fch, State.evCh_fch]

theorem channelOut_fch (s : State) (nn : Nat) :
    (channelOut s nn).fch = (s.updChan nn fun c => { c with inService := false }).fch := by
  unfold channelOut
  rw [State.raiseAt_fch, State.evCh_fch]

/-- The channel's own leaving adds to what its last die's can change. -/
theorem LeavesService.channelOut {t : State} (h : LeavesService d s t) : LeavesService d s (channelOut t (chanOf d)) := by
  have hdie : ∀ e, (Machine.channelOut t (chanOf d)).die e = t.die e := fun e =>
    State.die_congr (channelOut_fch t (chanOf d)) e
  have hchan : ∀ c, (Machine.channelOut t (chanOf d)).chan c =
      (t.updChan (chanOf d) fun c => { c with inService := false }).chan c := fun c =>
    State.chan_congr (channelOut_fch t (chanOf d)) c
  refine ⟨?_, fun e he => ?_, fun i hi => ?_, fun r hr => ?_, ?_, fun c hc => ?_⟩
  · rw [hdie]
    exact h.die
  · rw [hdie]
    exact h.dieNe e he
  · rw [hdie]
    exact h.free i hi
  · rw [hchan, State.updChan_chan_self]
    exact h.holds r hr
  · rw [hchan, State.updChan_chan_self, h.chan]
  · rw [hchan, State.updChan_chan_ne _ _ hc]
    exact h.chanNe c hc

theorem LeavesService.of_fch {t u : State} (h : LeavesService d s t) (e : u.fch = t.fch) : LeavesService d s u := by
  have hdie : ∀ e, u.die e = t.die e := State.die_congr e
  have hchan : ∀ c, u.chan c = t.chan c := State.chan_congr e
  exact ⟨by rw [hdie]; exact h.die, fun e he => by rw [hdie]; exact h.dieNe e he,
    fun i hi => by rw [hdie]; exact h.free i hi, fun r hr => by rw [hchan]; exact h.holds r hr,
    by rw [hchan]; exact h.chan, fun c hc => by rw [hchan]; exact h.chanNe c hc⟩

theorem dieOut_leaves (h : (s.die d).service = true) : LeavesService d s (dieOut s d) := by
  have hr := (dieEmptied_leaves s d).of_fch (dieReported_fch s d)
  rw [dieOut_of_serving h]
  split
  · exact hr
  · exact hr.channelOut

theorem dieOut_service (s : State) (d : Nat) : ((dieOut s d).die d).service = false := by
  by_cases h : (s.die d).service = true
  · rw [(dieOut_leaves h).die]
  · rw [dieOut_of_absent (by simpa using h)]
    simpa using h

theorem dieOut_die_ne (s : State) {d e : Nat} (he : e ≠ d) : (dieOut s d).die e = s.die e := by
  by_cases h : (s.die d).service = true
  · exact (dieOut_leaves h).dieNe e he
  · rw [dieOut_of_absent (by simpa using h)]

/-- A die that leaves service keeps what it is. -/
theorem dieOut_identity (s : State) (d e : Nat) : ((dieOut s d).die e).present = (s.die e).present ∧
    ((dieOut s d).die e).uid = (s.die e).uid := by
  by_cases he : e = d
  · subst he
    by_cases h : (s.die e).service = true
    · rw [(dieOut_leaves h).die]
      exact ⟨rfl, rfl⟩
    · rw [dieOut_of_absent (by simpa using h)]
      exact ⟨rfl, rfl⟩
  · rw [dieOut_die_ne s he]
    exact ⟨rfl, rfl⟩

theorem dieOut_records {i : Nat} {x : CStat} (hr : s.records d i x) : (dieOut s d).records d i x := by
  by_cases h : (s.die d).service = true
  · obtain ⟨hi, q, hq, hrest⟩ := hr
    exact ⟨(dieOut_leaves h).free i hi, q, (dieOut_leaves h).holds q hq, hrest⟩
  · rwa [dieOut_of_absent (by simpa using h)]

/-- No channel changes its rate or its retraining as a die leaves service. -/
theorem dieOut_chan (s : State) (d c : Nat) : ((dieOut s d).chan c).rate = (s.chan c).rate ∧
    ((dieOut s d).chan c).retraining = (s.chan c).retraining := by
  by_cases h : (s.die d).service = true
  · by_cases hc : c = chanOf d
    · subst hc
      rw [(dieOut_leaves h).chan]
      exact ⟨rfl, rfl⟩
    · rw [(dieOut_leaves h).chanNe c hc]
      exact ⟨rfl, rfl⟩
  · rw [dieOut_of_absent (by simpa using h)]
    exact ⟨rfl, rfl⟩

theorem dieOut_keeps (s : State) (d : Nat) : Frame [.stp, .fch, .par, .cip, .evl, .pages, .regs] s (dieOut s d) :=
  dieOut_frame (List.Subset.refl _) (Frame.refl _ s)

theorem dieEmptied_keeps (s : State) (d : Nat) : Frame [.stp, .fch, .cip, .pages, .regs] s (dieEmptied s d) := by
  unfold dieEmptied
  refine State.updDie_frame (by decide) ?_
  generalize ringOrder (s.die d) = l
  have hu : Frame [.stp, .fch, .cip, .pages, .regs] s
      (s.updChan (chanOf d) fun c => { c with reserved := c.reserved - recordsHeld (s.die d) }) :=
    State.updChan_frame (by decide) (Frame.refl _ s)
  generalize (s.updChan (chanOf d) fun c => { c with reserved := c.reserved - recordsHeld (s.die d) }) = u at hu ⊢
  induction l generalizing u with
  | nil => exact hu
  | cons p l ih => exact ih _ (completeEntry_frame (List.Subset.refl _) hu)

/-- An entry that a die takes with it writes no register. -/
theorem dieEmptied_regs (s : State) (d : Nat) : (dieEmptied s d).regs = s.regs := by
  unfold dieEmptied
  exact foldl_keeps State.regs (fun u (p : Nat × Desc) => completeEntry_regs (t := .dieAbsent)
    (fun _ _ => rfl) nofun none false) _ _

theorem dieReported_par (s : State) (d : Nat) : (dieReported s d).par = { s.par with lostArm := s.par.lostArm ++ [d] } := by
  unfold dieReported
  dsimp only
  rw [State.setPar_par, State.raiseAt_par, State.evCh_par, (dieEmptied_keeps s d).par_eq]

theorem channelOut_par (s : State) (nn : Nat) : (channelOut s nn).par = s.par := by
  unfold channelOut
  rw [State.raiseAt_par, State.evCh_par, (State.updChan_keeps s nn _).par_eq]

/-- PAR is told of the die. -/
theorem dieOut_par (h : (s.die d).service = true) : (dieOut s d).par = { s.par with lostArm := s.par.lostArm ++ [d] } := by
  rw [dieOut_of_serving h]
  split
  · exact dieReported_par s d
  · rw [channelOut_par]
    exact dieReported_par s d

/-- The ledger is told of the die, and of its channel without losing the first. -/
theorem dieOut_tells (h : (s.die d).service = true) : s.tells (dieOut s d) lFCH_DIE_OUT none [p2 d] := by
  have htold : s.hears (dieReported s d) lFCH_DIE_OUT lFCH_DIE_OUT none [p2 d] := by
    unfold dieReported
    exact State.hears_congr (State.raiseAt_hears ((State.evCh_tbs _ _ _).trans (dieEmptied_keeps s d).tbs_eq) _ _ _ _
      (by decide)) (State.setPar_evl _ _)
  rw [dieOut_of_serving h]
  refine State.hears_tells (q := lFCH_DIE_OUT) ?_
  split
  · exact htold
  · unfold channelOut
    exact State.hears_raiseAt (State.hears_congr htold ((State.evCh_evl _ _ _).trans
      (State.updChan_keeps _ _ _).evl_eq)) _ _ _ _ (by decide) (by decide)

theorem dieOut_rdAt_ne (s : State) (d : Nat) {f : Fld} {n k : Nat}
    (h : fieldKey f n k ≠ fieldKey rEVL_SUPPRESSED 0 0) : (dieOut s d).rdAt f n k = s.rdAt f n k := by
  have hreported : (dieReported s d).rdAt f n k = s.rdAt f n k := by
    unfold dieReported
    refine (State.rdAt_congr (State.setPar_regs _ _) f n k).trans ((State.raiseAt_rdAt_ne _ _ _ _ _ _ h).trans ?_)
    rw [State.evCh_rdAt]
    exact State.rdAt_congr (dieEmptied_regs s d) f n k
  by_cases hs : (s.die d).service = true
  · rw [dieOut_of_serving hs]
    split
    · exact hreported
    · unfold channelOut
      rw [State.raiseAt_rdAt_ne _ _ _ _ _ _ h, State.evCh_rdAt]
      exact hreported
  · rw [dieOut_of_absent (by simpa using hs)]

end

/-! ## Timeouts (R215, R241) -/

/-- An operation past the profile's maximum that a timeout ends; a reset has its own. -/
def opLate (y : Die) (o : DieOp) : Bool :=
  !o.ready && o.desc.typ != .reset && decide (o.run - o.since ≥ maxTime y.profile o.desc)

/-- A timeout of an operation of type `t` is recorded and counted in the die's run of them. -/
def timeoutCounted (s : State) (d : Nat) (t : OpType) : State :=
  (s.raiseAt (64 + chanOf d) lFCH_DIE_TIMEOUT none [p2 d, p4 t.ctorIdx] (some (diePos d))).updDie d fun y =>
    { y with toRun := y.toRun + 1 }

/-- The third timeout in a row takes the die out of service; another resets its LUN. -/
def timedOut (s : State) (d : Nat) (t : OpType) : State :=
  if ((timeoutCounted s d t).die d).toRun ≥ 3 then dieOut (timeoutCounted s d t) d
  else lunReset (timeoutCounted s d t) d 0

/-- The die with nothing in progress after its operation is late; an erase disarms it. -/
def opDropped (s : State) (d : Nat) (o : DieOp) : State :=
  s.setDie d { s.die d with reinRead := none, op := none, armed := if o.desc.typ = .erase then none else (s.die d).armed }

section
variable {s : State} {d : Nat} {o r : DieOp}

theorem fchDieTimeout_op (hr : (s.die d).reinRead = none) (ho : (s.die d).op = some o) (hl : opLate (s.die d) o = true)
    (hp : o.phase = .none) (hc : o.desc.typ = .program → o.desc.count ≤ o.done) : exec (.fchDieTimeout d) s =
    .next (timedOut (finishEntry (opDropped s d o) d o.slot .timeout (some o) false) d o.desc.typ) := by
  have hsent : (!(decide (o.desc.typ = .program ∧ o.done < o.desc.count))) = true := by
    rw [Bool.not_eq_true', decide_eq_false_iff_not]
    intro h
    have := hc h.1
    omega
  refine congrArg Host.Outcome.next ?_
  dsimp only
  rw [hr, ho]
  dsimp only
  unfold timedOut timeoutCounted opDropped
  rw [if_pos ⟨hl, hp, hsent⟩]

theorem fchDieTimeout_rein (hr : (s.die d).reinRead = some r) (ho : (s.die d).op = some o)
    (hl : opLate (s.die d) r = true) : exec (.fchDieTimeout d) s =
    .next (timedOut (finishEntry (finishEntry (s.setDie d { s.die d with reinRead := none, op := none, armed := none }) d
      r.slot .timeout (some r) false) d o.slot .resetAbort (some o) false) d r.desc.typ) := by
  refine congrArg Host.Outcome.next ?_
  dsimp only
  rw [hr, ho]
  exact if_pos hl

theorem timeoutCounted_die (s : State) (d : Nat) (t : OpType) :
    (timeoutCounted s d t).die d = { s.die d with toRun := (s.die d).toRun + 1 } := by
  unfold timeoutCounted
  rw [State.updDie_die_self, State.die_congr (State.raiseAt_fch _ _ _ _ _ _)]

theorem timeoutCounted_records {t : OpType} {i : Nat} {x : CStat} (h : s.records d i x) :
    (timeoutCounted s d t).records d i x := by
  refine State.records_congr h (by rw [timeoutCounted_die]) ?_
  unfold timeoutCounted
  rw [State.updDie_chan]
  exact State.chan_congr (State.raiseAt_fch _ _ _ _ _ _) _

theorem timeoutCounted_par (s : State) (d : Nat) (t : OpType) : (timeoutCounted s d t).par = s.par := by
  unfold timeoutCounted
  exact State.raiseAt_par _ _ _ _ _ _

theorem lunReset_die (s : State) (d k : Nat) : ∃ p, (lunReset s d k).die d = { s.die d with op := some p } ∧
    p.slot = noSlot ∧ p.desc.typ = .reset := by
  unfold lunReset
  exact ⟨_, State.updDie_die_self _ _ _, rfl, rfl⟩

theorem lunReset_records {k i : Nat} {x : CStat} (h : s.records d i x) : (lunReset s d k).records d i x := by
  unfold lunReset
  exact State.records_congr h (by rw [State.updDie_die_self]) (State.updDie_chan _ _ _ _)

/-- A first or second timeout resets the LUN. -/
theorem timedOut_resets (h : (s.die d).toRun < 2) (t : OpType) :
    timedOut s d t = lunReset (timeoutCounted s d t) d 0 := by
  unfold timedOut
  rw [timeoutCounted_die]
  exact if_neg (by simp; omega)

/-- The third takes the die out. -/
theorem timedOut_leaves (h : 2 ≤ (s.die d).toRun) (t : OpType) : timedOut s d t = dieOut (timeoutCounted s d t) d := by
  unfold timedOut
  rw [timeoutCounted_die]
  exact if_pos (by simp; omega)

theorem lunReset_evl (s : State) (d k : Nat) : (lunReset s d k).evl = s.evl :=
  (lunReset_frame (List.Subset.refl _) (Frame.refl _ s)).evl_eq

theorem fchDieTimeout_resets {x : Desc} (hr : (s.die d).reinRead = none) (ho : (s.die d).op = some o)
    (hl : opLate (s.die d) o = true) (hp : o.phase = .none) (hc : o.desc.typ = .program → o.desc.count ≤ o.done)
    (hx : Tbl.get (s.die d).ring o.slot = some x) (h2 : (s.die d).toRun < 2) :
    ∃ t p, exec (.fchDieTimeout d) s = .next t ∧ t.records d o.slot .timeout ∧ (t.die d).op = some p ∧
      p.slot = 64 ∧ p.desc.typ = .reset ∧ (t.die d).toRun = (s.die d).toRun + 1 ∧
      (t.die d).service = (s.die d).service ∧ s.tells t lFCH_DIE_TIMEOUT none [p2 d, p4 o.desc.typ.ctorIdx] := by
  have hdrop : (opDropped s d o).die d = _ := State.setDie_die_self _ _ _
  have hrec := finishEntry_records .timeout (some o) false (s := opDropped s d o) (d := d) (i := o.slot) (x := x)
    (by rw [hdrop]; exact hx)
  have hdie := (finishEntry_completes .timeout (some o) false (opDropped s d o) d o.slot).die
  have htbs := (finishEntry_keeps .timeout (some o) false (opDropped s d o) d o.slot).tbs_eq
  have hrun := fchDieTimeout_op hr ho hl hp hc
  generalize finishEntry (opDropped s d o) d o.slot .timeout (some o) false = u at hrun hrec hdie htbs
  rw [timedOut_resets (by rw [hdie, hdrop]; exact h2)] at hrun
  obtain ⟨p, hreset, hslot, htyp⟩ := lunReset_die (timeoutCounted u d o.desc.typ) d 0
  refine ⟨_, p, hrun, lunReset_records (timeoutCounted_records hrec), by rw [hreset], hslot, htyp, ?_, ?_,
    State.tells_congr ?_ (lunReset_evl _ d 0)⟩
  · rw [hreset, timeoutCounted_die, hdie, hdrop]
  · rw [hreset, timeoutCounted_die, hdie, hdrop]
  · exact State.tells_congr (State.raiseAt_tells htbs _ _ _ _ _) rfl

theorem fchDieTimeout_leaves {x : Desc} (hr : (s.die d).reinRead = none) (ho : (s.die d).op = some o)
    (hl : opLate (s.die d) o = true) (hp : o.phase = .none) (hc : o.desc.typ = .program → o.desc.count ≤ o.done)
    (hx : Tbl.get (s.die d).ring o.slot = some x) (h2 : 2 ≤ (s.die d).toRun) (hs : (s.die d).service = true) :
    ∃ t, exec (.fchDieTimeout d) s = .next t ∧ t.records d o.slot .timeout ∧ (t.die d).service = false ∧
      t.par.lostArm = s.par.lostArm ++ [d] := by
  have hdrop : (opDropped s d o).die d = _ := State.setDie_die_self _ _ _
  have hrec := finishEntry_records .timeout (some o) false (s := opDropped s d o) (d := d) (i := o.slot) (x := x)
    (by rw [hdrop]; exact hx)
  have hdie := (finishEntry_completes .timeout (some o) false (opDropped s d o) d o.slot).die
  have hpar : (finishEntry (opDropped s d o) d o.slot .timeout (some o) false).par = s.par :=
    (finishEntry_keeps .timeout (some o) false (opDropped s d o) d o.slot).par_eq
  have hrun := fchDieTimeout_op hr ho hl hp hc
  generalize finishEntry (opDropped s d o) d o.slot .timeout (some o) false = u at hrun hrec hdie hpar
  rw [timedOut_leaves (by rw [hdie, hdrop]; exact h2)] at hrun
  refine ⟨_, hrun, dieOut_records (timeoutCounted_records hrec), dieOut_service _ d, ?_⟩
  rw [dieOut_par (by rw [timeoutCounted_die, hdie, hdrop]; exact hs), timeoutCounted_par, hpar]

/-- An entry without CHAIN ends alone. -/
theorem finishEntry_of_unchained {i : Nat} {x : Desc} (hx : Tbl.get (s.die d).ring i = some x) (hc : x.chain = false)
    (t : CStat) (op : Option DieOp) (b : Bool) : finishEntry s d i t op b = completeEntry s d i t op b := by
  unfold finishEntry
  dsimp only
  rw [hx]
  dsimp only
  rw [if_neg (by simp [hc])]
  rfl

theorem completeEntry_ring {i : Nat} {x : Desc} (hx : Tbl.get (s.die d).ring i = some x) (t : CStat) (op : Option DieOp)
    (b : Bool) : ((completeEntry s d i t op b).die d).ring = Tbl.erase (s.die d).ring i := by
  rw [State.die_congr (completeEntry_fch t op b hx)]
  unfold entryRecorded
  rw [State.updChan_die, State.setDie_die_self]

theorem fchDieTimeout_abortsRein {x y : Desc} (hr : (s.die d).reinRead = some r) (ho : (s.die d).op = some o)
    (hl : opLate (s.die d) r = true) (hx : Tbl.get (s.die d).ring r.slot = some x) (hc : x.chain = false)
    (hy : Tbl.get (s.die d).ring o.slot = some y) (hne : o.slot ≠ r.slot) (h2 : (s.die d).toRun < 2) :
    ∃ t, exec (.fchDieTimeout d) s = .next t ∧ t.records d r.slot .timeout ∧ t.records d o.slot .resetAbort ∧
      (t.die d).reinRead = none ∧ (t.die d).armed = none := by
  have hrun := fchDieTimeout_rein hr ho hl
  generalize hu : s.setDie d { s.die d with reinRead := none, op := none, armed := none } = u at hrun
  have hdrop : u.die d = { s.die d with reinRead := none, op := none, armed := none } := by
    rw [← hu, State.setDie_die_self]
  have hxu : Tbl.get (u.die d).ring r.slot = some x := by rw [hdrop]; exact hx
  have hread := finishEntry_records .timeout (some r) false hxu
  have hdie := (finishEntry_completes .timeout (some r) false u d r.slot).die
  have hyv : Tbl.get ((finishEntry u d r.slot .timeout (some r) false).die d).ring o.slot = some y := by
    rw [finishEntry_of_unchained hxu hc, completeEntry_ring hxu, Tbl.get_erase, if_neg hne, hdrop]
    exact hy
  generalize finishEntry u d r.slot .timeout (some r) false = v at hrun hread hdie hyv
  have hheld := finishEntry_records .resetAbort (some o) false hyv
  have hends := finishEntry_completes .resetAbort (some o) false v d o.slot
  generalize finishEntry v d o.slot .resetAbort (some o) false = w at hrun hheld hends
  have hw : w.die d = { s.die d with reinRead := none, op := none, armed := none, ring := (w.die d).ring } := by
    rw [hends.die, hdie, hdrop]
  rw [timedOut_resets (by rw [hw]; exact h2)] at hrun
  obtain ⟨p, hreset, -, -⟩ := lunReset_die (timeoutCounted w d r.desc.typ) d 0
  refine ⟨_, hrun, lunReset_records (timeoutCounted_records (hends.records hread)),
    lunReset_records (timeoutCounted_records hheld), ?_, ?_⟩
  · rw [hreset, timeoutCounted_die, hw]
  · rw [hreset, timeoutCounted_die, hw]

theorem dieResetTimeout_leaves (ho : (s.die d).op = some o) (ht : o.desc.typ = .reset) (hr : o.ready = false)
    (hl : maxTime (s.die d).profile o.desc ≤ o.run) (hs : (s.die d).service = true) :
    ∃ t, exec (.dieResetTimeout d) s = .next t ∧ (t.die d).service = false ∧ (t.die d).op = none ∧
      t.par.lostArm = s.par.lostArm ++ [d] ∧ s.tells t lFCH_DIE_OUT none [p2 d] ∧
      (∀ e, e ≠ d → t.die e = s.die e) ∧ t.fch.media = s.fch.media := by
  have hrun : exec (.dieResetTimeout d) s = .next (dieOut s d) := by
    refine congrArg Host.Outcome.next ?_
    rw [ho]
    exact if_pos ⟨ht, by simp [hr], hl⟩
  refine ⟨_, hrun, dieOut_service s d, by rw [(dieOut_leaves hs).die], by rw [dieOut_par hs], dieOut_tells hs,
    fun e he => dieOut_die_ne s he, (dieOut_keeps s d).media_eq⟩

end

/-! ## Reins (R221-R225) -/

section
variable {s : State} {d i : Nat} {x : Desc} {o : DieOp}

theorem reinSuspend_settles (h : startable s d i .read = some x) (ho : (s.die d).op = some o) (hx : x.rein = true)
    (hc : preCheck s d x = none) (hr : reinable s d o = true) (hg : groupRoom (s.chan (chanOf d)) 1 = true) :
    ∃ t p, exec (.reinSuspend d i) s = .next t ∧ (t.die d).op = some p ∧
      p.phase = .suspending (s.die d).profile.suspend ∧ p.reins = o.reins + 1 ∧ p.desc = o.desc ∧ p.run = o.run ∧
      (∀ e, e ≠ d → t.die e = s.die e) ∧ Frame [.fch, .fns, .pages, .regs] s t := by
  obtain ⟨hself, hother, hframe⟩ := setDie_addGroup_leaves s d { s.die d with
    op := some { o with phase := .suspending (s.die d).profile.suspend, reins := o.reins + 1, reinReads := 0 } } x
    [suspendFn o.desc]
  refine ⟨_, { o with phase := .suspending (s.die d).profile.suspend, reins := o.reins + 1, reinReads := 0 }, rfl, ?_⟩
  dsimp only
  rw [h, ho]
  dsimp only
  rw [if_neg (by simp [hx, hc, hr, hg])]
  generalize addGroup _ _ _ _ = u at hself hother hframe
  have hfch : ∀ b : Prop, [Decidable b] → (if b then (u.bumpAt rFCH_REINS (chanOf d) 0 1).evCh (chanOf d) eFCH_REIN_CAP
      else u.bumpAt rFCH_REINS (chanOf d) 0 1).fch = u.fch := fun b _ => by
    rw [apply_ite State.fch, State.evCh_fch, State.bumpAt_fch, ite_self]
  refine ⟨?_, rfl, rfl, rfl, rfl, fun e he => ?_, ?_⟩
  · rw [State.die_congr (hfch _), hself]
  · rw [State.die_congr (hfch _), hother e he]
  · have hbump : Frame [.fch, .fns, .pages, .regs] s (u.bumpAt rFCH_REINS (chanOf d) 0 1) :=
      State.bumpAt_frame (by decide) (hframe.mono (by decide))
    exact Frame.ite (State.evCh_frame (by decide) hbump) hbump

theorem descriptorRead_refuses (h : startable s d i .read = some x) (ho : (s.die d).op = some o) (hx : x.rein = true)
    (hc : preCheck s d x = none) (hk : reinKind o = true) (hp : o.phase = .none) (hr : reinRefuses s d o = true)
    (busy : Bool) :
    ∃ t, exec (.descriptorRead d i busy) s = .next t ∧ t.records d i .reinRefused ∧ (t.die d).op = some o := by
  refine ⟨_, rfl, ?_⟩
  rw [h, ho]
  dsimp only
  rw [if_pos ⟨by rw [hc]; rfl, hx, hk, hp, hr⟩]
  refine ⟨finishEntry_records _ _ _ (startable_entry h).1, ?_⟩
  rw [(finishEntry_completes _ _ _ s d i).die]
  exact ho

theorem reinRead_settles (h : startable s d i .read = some x) (ho : (s.die d).op = some o) (hx : x.rein = true)
    (hc : preCheck s d x = none) (hp : o.phase = .suspended ∨ o.phase = .suspending 0) (hr : (s.die d).reinRead = none)
    (hn : noRecord s (chanOf d) = false)
    (hg : groupRoom (s.chan (chanOf d)) ((if o.reinReads = 0 then 1 else 0) + (startsOf s d x).length) = true)
    (hm : o.reinReads < s.rdAt rFCH_MAX_READS (chanOf d) 0) :
    ∃ t p r, exec (.reinRead d i) s = .next t ∧ (t.die d).op = some p ∧ p.desc = o.desc ∧ p.phase = .suspended ∧
      p.reinReads = o.reinReads + 1 ∧ (t.die d).reinRead = some r ∧ r.desc = x ∧ r.slot = i ∧
      (∀ e, e ≠ d → t.die e = s.die e) ∧ Frame [.fch, .fns] s t := by
  have hlatent : (o.phase == .suspending 0 || o.phase == .suspended) = true := by
    rcases hp with hp | hp <;> rw [hp] <;> decide
  have hlen : ((if o.reinReads = 0 then [NandFn.statusEnhanced] else []) ++ startsOf s d x).length =
      (if o.reinReads = 0 then 1 else 0) + (startsOf s d x).length := by
    rw [List.length_append]
    split <;> rfl
  have hgo : ¬((!x.rein) = true ∨ (preCheck s d x).isSome = true ∨
      (!(o.phase == .suspending 0 || o.phase == .suspended)) = true ∨ (s.die d).reinRead.isSome = true ∨
      (!groupRoom (s.chan (chanOf d))
        ((if o.reinReads = 0 then [NandFn.statusEnhanced] else []) ++ startsOf s d x).length) = true ∨
      o.reinReads ≥ s.rdAt rFCH_MAX_READS (chanOf d) 0 ∨ noRecord s (chanOf d) = true) := by
    rw [hlen, hg, hx, hc, hr, hn, hlatent]
    simp
    omega
  obtain ⟨hself, hother, hframe⟩ := setDie_addGroup_leaves
    (s.updChan (chanOf d) fun c => { c with reserved := c.reserved + 1 }) d { s.die d with
      op := some { o with phase := .suspended, reinReads := o.reinReads + 1 }, reinRead := some (DieOp.start i x),
      thresh := x.thresh } x ((if o.reinReads = 0 then [NandFn.statusEnhanced] else []) ++ startsOf s d x)
  refine ⟨_, { o with phase := .suspended, reinReads := o.reinReads + 1 }, DieOp.start i x, rfl, ?_⟩
  dsimp only
  rw [h, ho]
  dsimp only
  rw [if_neg hgo]
  refine ⟨by rw [hself], rfl, rfl, rfl, by rw [hself], rfl, rfl, fun e he => (hother e he).trans (State.updChan_die _ _ _ _),
    Frame.trans ((State.updChan_keeps _ _ _).mono (by decide)) hframe⟩

theorem requeueRein_of_none (hr : (s.die d).reinRead = none) : requeueRein s d = s := by
  unfold requeueRein
  dsimp only
  rw [hr]

theorem reinResume_settles (ho : (s.die d).op = some o) (hr : (s.die d).reinRead = none)
    (hp : o.phase = .suspended ∨ (o.phase = .suspending 0 ∧ startsHeld s (chanOf d) = true))
    (hg : groupRoom (s.chan (chanOf d)) 1 = true) :
    ∃ t, exec (.reinResume d) s = .next t ∧
      (t.die d).op = some { o with
        phase := (if (s.die d).profile.resume = 0 then .none else .resuming (s.die d).profile.resume),
        interval := 0, reinReads := 0 } ∧
      (∀ e, e ≠ d → t.die e = s.die e) ∧ Frame [.fch, .fns] s t := by
  obtain ⟨hself, hother, hframe⟩ := setDie_addGroup_leaves s d { s.die d with
    op := some { o with
      phase := (if (s.die d).profile.resume = 0 then .none else .resuming (s.die d).profile.resume),
      interval := 0, reinReads := 0 } } o.desc [resumeFn o.desc]
  refine ⟨_, rfl, ?_⟩
  dsimp only
  rw [requeueRein_of_none hr, ite_self, ho]
  dsimp only
  rw [if_pos ⟨hp, by rw [hr]; rfl, hg⟩]
  exact ⟨by rw [hself], hother, hframe⟩

end

/-! ## The channel arbiter (R232-R236) -/

/-- The least rank of requests is one of theirs, or the bound. -/
theorem leastRank_attained (l : List (Nat × Nat)) (a : Nat) :
    (l.foldl (fun a r => min a r.2) a = a ∧ ∀ q ∈ l, a ≤ q.2) ∨ ∃ q ∈ l, q.2 = l.foldl (fun a r => min a r.2) a := by
  induction l generalizing a with
  | nil => exact Or.inl ⟨rfl, by simp⟩
  | cons b l ih =>
    rw [List.foldl_cons]
    rcases ih (min a b.2) with ⟨heq, hle⟩ | ⟨q, hq, hrank⟩
    · by_cases hab : a ≤ b.2
      · rw [Nat.min_eq_left hab] at heq hle ⊢
        exact Or.inl ⟨heq, List.forall_mem_cons.2 ⟨hab, hle⟩⟩
      · rw [Nat.min_eq_right (by omega)] at heq ⊢
        exact Or.inr ⟨b, List.mem_cons_self, heq.symm⟩
    · exact Or.inr ⟨q, List.mem_cons_of_mem _ hq, hrank⟩

/-- A fold that replaces its pick by a better number ends in one of the numbers. -/
theorem foldl_replace_mem {P : Nat → Nat → Prop} [∀ b n, Decidable (P b n)] {l : List Nat} (h : l ≠ []) :
    ∃ w ∈ l, l.foldl (fun (a : Option Nat) n => match a with
      | none => some n
      | some b => if P b n then some n else some b) none = some w := by
  have go : ∀ (l : List Nat) (a : Nat), ∃ w ∈ a :: l, l.foldl (fun (a : Option Nat) n => match a with
      | none => some n
      | some b => if P b n then some n else some b) (some a) = some w := by
    intro l
    induction l with
    | nil => exact fun a => ⟨a, List.mem_cons_self, rfl⟩
    | cons n l ih =>
      intro a
      rw [List.foldl_cons]
      dsimp only
      split
      · obtain ⟨w, hw, hrun⟩ := ih n
        exact ⟨w, List.mem_cons_of_mem _ hw, hrun⟩
      · obtain ⟨w, hw, hrun⟩ := ih a
        exact ⟨w, (List.mem_cons.1 hw).elim (fun e => by rw [e]; exact List.mem_cons_self) fun hm =>
          List.mem_cons_of_mem _ (List.mem_cons_of_mem _ hm), hrun⟩
  cases l with
  | nil => exact absurd rfl h
  | cons n l => exact go l n

theorem pickAt_mem (c : Chan) {rs : List Nat} (h : rs ≠ []) (rank : Nat) : ∃ w ∈ rs, pickAt c rs rank = some w := by
  unfold pickAt
  split
  · exact foldl_replace_mem h
  · exact foldl_replace_mem h

/-- The best rank among requests, and who asks at it. -/
def leastRank (rs : List (Nat × Nat)) : Nat := rs.foldl (fun a r => min a r.2) 6
def bestAsking (rs : List (Nat × Nat)) : List Nat := (rs.filter fun r => r.2 == leastRank rs).map Prod.fst

theorem winner_eq (c : Chan) {rs : List (Nat × Nat)} (h : rs ≠ []) (last : Option Nat) : winner c rs last =
    pickAt c (if ((bestAsking rs).filter fun r => some r != last).isEmpty then bestAsking rs
      else (bestAsking rs).filter fun r => some r != last) (leastRank rs) := by
  cases rs with
  | nil => exact absurd rfl h
  | cons _ _ => rfl

/-- Among requests of ranks 0-6 one wins. -/
theorem winner_mem (c : Chan) {rs : List (Nat × Nat)} (h : rs ≠ []) (hrank : ∀ q ∈ rs, q.2 ≤ 6) (last : Option Nat) :
    ∃ w, winner c rs last = some w ∧ ∃ q ∈ rs, q.1 = w := by
  have hbest : ∃ q ∈ rs, q.2 = leastRank rs := by
    rcases leastRank_attained rs 6 with ⟨heq, hle⟩ | hfound
    · obtain ⟨q, hq⟩ := List.exists_mem_of_ne_nil rs h
      exact ⟨q, hq, by rw [leastRank, heq]; exact Nat.le_antisymm (hrank q hq) (hle q hq)⟩
    · exact hfound
  obtain ⟨q, hq, hqr⟩ := hbest
  have hsame : ∀ w, w ∈ bestAsking rs → ∃ q ∈ rs, q.1 = w := fun w hw => by
    obtain ⟨q, hq, rfl⟩ := List.mem_map.1 hw
    exact ⟨q, (List.mem_filter.1 hq).1, rfl⟩
  have hne : bestAsking rs ≠ [] :=
    List.ne_nil_of_mem (List.mem_map_of_mem (List.mem_filter.2 ⟨hq, by simp [hqr]⟩))
  rw [winner_eq c h]
  split
  · obtain ⟨w, hw, hrun⟩ := pickAt_mem c hne (leastRank rs)
    exact ⟨w, hrun, hsame w hw⟩
  · next hothers =>
    obtain ⟨w, hw, hrun⟩ := pickAt_mem c (rs := (bestAsking rs).filter fun r => some r != last)
      (fun hnil => hothers (by rw [hnil]; rfl)) (leastRank rs)
    exact ⟨w, hrun, hsame w (List.mem_filter.1 hw).1⟩

/-- The channel with its next slot taken. -/
def slotTaken (s : State) (nn : Nat) : State := s.setChan nn { s.chan nn with slot := (s.chan nn).slot + 1, group := [] }

/-- The channel's owner still asks. -/
def ownerAsks (s : State) (nn : Nat) : Bool :=
  match ((slotTaken s nn).chan nn).owner with
  | some o => (requests s nn).any fun q => q.1 == o
  | none => false

/-- The owner asks, its burst has not expired, and no better request stands against it, or it is promoted. -/
def ownerKeeps (s : State) (nn : Nat) : Bool :=
  let c := (slotTaken s nn).chan nn
  let rankOf (r : Nat) : Nat := (((requests s nn).find? fun q => q.1 == r).map Prod.snd).getD 6
  ownerAsks s nn && decide (c.burst < (slotTaken s nn).rdAt rFCH_FCH_BURST nn 0) &&
    (!((requests s nn).any fun q => decide (q.2 < rankOf (c.owner.getD 0))) ||
      (ownerAsks s nn && (Tbl.get c.stalls (c.owner.getD 0)).any Stall.promoted))

/-- The requester that the next slot goes to. -/
def slotWinner (s : State) (nn : Nat) : Option Nat :=
  let c := (slotTaken s nn).chan nn
  if ownerKeeps s nn then some (c.owner.getD 0)
  else winner c (requests s nn)
    (if ownerAsks s nn ∧ c.burst ≥ (slotTaken s nn).rdAt rFCH_FCH_BURST nn 0 then c.owner else none)

theorem slotTaken_chan (s : State) (nn : Nat) :
    (slotTaken s nn).chan nn = { s.chan nn with slot := (s.chan nn).slot + 1, group := [] } := State.setChan_chan_self _ _ _

theorem slotWinner_of_none {s : State} {nn : Nat} (h : requests s nn = []) : slotWinner s nn = none := by
  have hasks : ownerAsks s nn = false := by
    unfold ownerAsks
    rw [h]
    split <;> rfl
  have hkeeps : ownerKeeps s nn = false := by
    unfold ownerKeeps
    simp [hasks]
  unfold slotWinner
  rw [hkeeps, h]
  rfl

theorem slotWinner_mem {s : State} {nn : Nat} (h : requests s nn ≠ []) (hrank : ∀ q ∈ requests s nn, q.2 ≤ 6) :
    ∃ w, slotWinner s nn = some w ∧ ∃ q ∈ requests s nn, q.1 = w := by
  unfold slotWinner
  dsimp only
  split
  · next hkeeps =>
    have hasks : ownerAsks s nn = true := by
      unfold ownerKeeps at hkeeps
      simp only [Bool.and_eq_true] at hkeeps
      exact hkeeps.1.1
    refine ⟨_, rfl, ?_⟩
    unfold ownerAsks at hasks
    split at hasks
    · next o ho =>
      obtain ⟨q, hq, he⟩ := List.any_eq_true.1 hasks
      exact ⟨q, hq, by rw [ho]; exact eq_of_beq he⟩
    · cases hasks
  · exact winner_mem _ h hrank _

/-- What a channel's grant leaves: its own slot, owner and stalls, and a count. -/
structure GrantsSlot (s : State) (nn : Nat) (owner : Option Nat) (busy : Bool) (t : State) : Prop where
  owner : (t.chan nn).owner = owner
  slot : (t.chan nn).slot = (s.chan nn).slot + 1
  busy : (t.chan nn).busy = busy
  chanNe : ∀ k, k ≠ nn → t.chan k = s.chan k
  dies : t.fch.dies = s.fch.dies
  frame : Frame [.fch, .regs] s t

theorem grantsSlot_of_chan {s t : State} {nn : Nat} {c : Chan} {owner : Option Nat} {busy : Bool}
    (hf : Frame [.regs] ((slotTaken s nn).setChan nn c) t) (ho : c.owner = owner) (hb : c.busy = busy)
    (hs : c.slot = ((slotTaken s nn).chan nn).slot) : GrantsSlot s nn owner busy t := by
  have hc := hf.fch_eq
  have hchan : t.chan nn = c := (State.chan_congr hc nn).trans (State.setChan_chan_self _ _ _)
  refine ⟨by rw [hchan, ho], by rw [hchan, hs, slotTaken_chan], by rw [hchan, hb], fun k hk => ?_, by rw [hc]; rfl, ?_⟩
  · rw [State.chan_congr hc k, State.setChan_chan_ne _ _ hk]
    exact State.setChan_chan_ne _ _ hk
  · exact Frame.trans (State.setChan_frame (by decide) (State.setChan_frame (by decide) (Frame.refl _ s)))
      (hf.mono (by decide))

section
variable {s : State} {nn : Nat} (hb : (s.chan nn).busy = false) (hs : (s.chan nn).slot < slotsPerStride (s.chan nn))
include hb hs

/-- Without a winner the next slot is idle. -/
theorem slotArbitration_idle (h : slotWinner s nn = none) : ∃ t, exec (.slotArbitration nn) s = .next t ∧
    GrantsSlot s nn none false t ∧ (t.chan nn).burst = 0 := by
  have hrun : exec (.slotArbitration nn) s = .next (((slotTaken s nn).setChan nn
      { (slotTaken s nn).chan nn with owner := none, burst := 0 }).bumpAt rFCH_SLOTS_IDLE nn 0 1) := by
    refine congrArg Host.Outcome.next ?_
    dsimp only
    rw [if_neg (by simp [hb]; omega)]
    split
    · rfl
    · next w hw => exact absurd (h.symm.trans hw) (by simp)
  refine ⟨_, hrun, grantsSlot_of_chan (State.bumpAt_frame (List.Subset.refl _) (Frame.refl _ _)) rfl ?_ rfl, ?_⟩
  · dsimp only
    rw [slotTaken_chan]
    exact hb
  · rw [State.chan_congr (State.bumpAt_fch _ _ _ _ _), State.setChan_chan_self]

/-- The next slot goes to the winner. -/
theorem slotArbitration_grants {w : Nat} (h : slotWinner s nn = some w) :
    ∃ t, exec (.slotArbitration nn) s = .next t ∧ GrantsSlot s nn (some w) (decide (w < 32)) t := by
  refine ⟨_, rfl, ?_⟩
  dsimp only
  rw [if_neg (by simp [hb]; omega)]
  split
  · next hw => exact absurd (h.symm.trans hw) (by simp)
  · next v hw =>
    obtain rfl : w = v := Option.some.inj (h.symm.trans hw)
    have counted : ∀ (u : State) (b : Bool), Frame [.regs] u
        (if w < 32 then (if b then u.bumpAt rFCH_PREEMPT nn 0 1 else u).bumpAt rFCH_SLOTS_DATA nn 0 1
          else (if b then u.bumpAt rFCH_PREEMPT nn 0 1 else u).bumpAt rFCH_SLOTS_CMD nn 0 1) := fun u b => by
      have hpre : Frame [.regs] u (if b then u.bumpAt rFCH_PREEMPT nn 0 1 else u) :=
        Frame.ite (State.bumpAt_frame (List.Subset.refl _) (Frame.refl _ u)) (Frame.refl _ u)
      exact Frame.ite (State.bumpAt_frame (List.Subset.refl _) hpre) (State.bumpAt_frame (List.Subset.refl _) hpre)
    exact grantsSlot_of_chan (counted _ _) rfl rfl rfl

end

theorem slotArbitration_settles (s : State) (nn : Nat) (hb : (s.chan nn).busy = false)
    (hs : (s.chan nn).slot < slotsPerStride (s.chan nn)) :
    (requests s nn = [] →
      ∃ t, exec (.slotArbitration nn) s = .next t ∧ (t.chan nn).owner = none ∧ (t.chan nn).burst = 0 ∧
        (t.chan nn).slot = (s.chan nn).slot + 1 ∧ (t.chan nn).busy = false ∧ (∀ k, k ≠ nn → t.chan k = s.chan k) ∧
        t.fch.dies = s.fch.dies ∧ Frame [.fch, .regs] s t) ∧
    (requests s nn ≠ [] → (∀ q ∈ requests s nn, q.2 ≤ 6) →
      ∃ t w, exec (.slotArbitration nn) s = .next t ∧ (t.chan nn).owner = some w ∧ (∃ q ∈ requests s nn, q.1 = w) ∧
        (t.chan nn).slot = (s.chan nn).slot + 1 ∧ (t.chan nn).busy = decide (w < 32) ∧
        (∀ k, k ≠ nn → t.chan k = s.chan k) ∧ t.fch.dies = s.fch.dies ∧ Frame [.fch, .regs] s t) := by
  refine ⟨fun hn => ?_, fun hne hrank => ?_⟩
  · obtain ⟨t, hrun, hg, hburst⟩ := slotArbitration_idle hb hs (slotWinner_of_none hn)
    exact ⟨t, hrun, hg.owner, hburst, hg.slot, hg.busy, hg.chanNe, hg.dies, hg.frame⟩
  · obtain ⟨w, hw, hask⟩ := slotWinner_mem hne hrank
    obtain ⟨t, hrun, hg⟩ := slotArbitration_grants hb hs hw
    exact ⟨t, w, hrun, hg.owner, hask, hg.slot, hg.busy, hg.chanNe, hg.dies, hg.frame⟩

/-! ## The end of a codeword's transfer (R124, R235) -/

/-- A slot that counts in its function's meter, when its work is the function's. -/
def slotCounted (s : State) (x : Desc) : State :=
  if x.cls ≤ 1 then s.meter x.tag.fn fun m => { m with slots := m.slots + 1 } else s

theorem slotCounted_keeps (s : State) (x : Desc) : Frame [.fns] s (slotCounted s x) :=
  Frame.ite (State.meter_frame (List.Subset.refl _) (Frame.refl _ s)) (Frame.refl _ s)

theorem slotCounted_slots {s : State} {x : Desc} (h : x.cls ≤ 1) :
    ((slotCounted s x).fn x.tag.fn).cur.slots = (s.fn x.tag.fn).cur.slots + 1 := by
  unfold slotCounted
  rw [if_pos h]
  unfold State.meter
  rw [State.updFn_fn, if_pos rfl]

/-- The channel idle after the transfer, with its slot counted. -/
def transferCounted (s : State) (nn : Nat) (x : Desc) : State :=
  slotCounted (s.setChan nn { s.chan nn with busy := false }) x

theorem transferCounted_keeps (s : State) (nn : Nat) (x : Desc) : Frame [.fch, .fns] s (transferCounted s nn x) :=
  Frame.trans (State.setChan_frame (by decide) (Frame.refl _ s)) ((slotCounted_keeps _ x).mono (by decide))

theorem transferCounted_fch (s : State) (nn : Nat) (x : Desc) :
    (transferCounted s nn x).fch = (s.setChan nn { s.chan nn with busy := false }).fch := (slotCounted_keeps _ x).fch_eq

theorem transferCounted_die (s : State) (nn : Nat) (x : Desc) (d : Nat) : (transferCounted s nn x).die d = s.die d :=
  State.die_congr (transferCounted_fch s nn x) d

theorem transferCounted_busy (s : State) (nn : Nat) (x : Desc) : ((transferCounted s nn x).chan nn).busy = false := by
  rw [State.chan_congr (transferCounted_fch s nn x), State.setChan_chan_self]

section
variable {s : State} {nn r : Nat} {o : DieOp} (hw : (s.chan nn).owner = some r) (hb : (s.chan nn).busy = true)
  (hr : r < 32)
include hw hb hr

/-- A read in a rein counts its codeword. -/
theorem codewordTransferEnd_reinRead (ho : (s.die (nn * 32 + r)).reinRead = some o) :
    exec (.codewordTransferEnd nn) s = .next ((transferCounted s nn o.desc).updDie (nn * 32 + r) fun y =>
      { y with reinRead := some { o with done := o.done + 1 } }) := by
  refine congrArg Host.Outcome.next ?_
  unfold transferCounted slotCounted
  dsimp only
  rw [hw]
  dsimp only
  rw [if_neg (by simp [hb]; omega), ho]

/-- An operation counts its codeword; a program's also goes to its slot and its parity, which keep dies and meters. -/
theorem codewordTransferEnd_op (hi : (s.die (nn * 32 + r)).reinRead = none) (ho : (s.die (nn * 32 + r)).op = some o) :
    ∃ t, exec (.codewordTransferEnd nn) s = .next t ∧
      Frame [.qmx, .wbf, .par, .rcl, .pages, .regs] ((transferCounted s nn o.desc).updDie (nn * 32 + r) fun y =>
        { y with op := some { o with done := o.done + 1 } }) t ∧
      (o.desc.typ ≠ .program → t = (transferCounted s nn o.desc).updDie (nn * 32 + r) fun y =>
        { y with op := some { o with done := o.done + 1 } }) := by
  have hgo : ¬((!(s.chan nn).busy) = true ∨ r ≥ 32) := by
    rw [hb]
    simp
    omega
  refine ⟨_, rfl, ?_⟩
  dsimp only
  split
  · next hn => exact absurd (hw.symm.trans hn) (by simp)
  next q hq =>
  obtain rfl : r = q := Option.some.inj (hw.symm.trans hq)
  rw [if_neg hgo, hi, ho]
  dsimp only
  split
  · next st ser m ht hpu =>
    refine ⟨parityProg_frame (List.Subset.refl _) ?_, fun h => absurd ht h⟩
    split
    · exact State.updSlot_frame (by decide) (State.updPuAt_frame (by decide) (Frame.refl _ _))
    · exact State.updPuAt_frame (by decide) (Frame.refl _ _)
  · exact ⟨Frame.refl _ _, fun _ => rfl⟩

theorem codewordTransferEnd_countsOp (hi : (s.die (nn * 32 + r)).reinRead = none)
    (ho : (s.die (nn * 32 + r)).op = some o) :
    ∃ t, exec (.codewordTransferEnd nn) s = .next t ∧ (t.chan nn).busy = false ∧
      (t.die (nn * 32 + r)).op = some { o with done := o.done + 1 } ∧
      (o.desc.cls ≤ 1 → (t.fn o.desc.tag.fn).cur.slots = (s.fn o.desc.tag.fn).cur.slots + 1) ∧
      (∀ e, e ≠ nn * 32 + r → t.die e = s.die e) ∧
      (o.desc.typ ≠ .program → Frame [.fch, .fns] s t) := by
  obtain ⟨t, hrun, hframe, hplain⟩ := codewordTransferEnd_op hw hb hr hi ho
  refine ⟨t, hrun, ?_, ?_, fun hc => ?_, fun e he => ?_, fun hp => ?_⟩
  · rw [hframe.chan_eq]
    exact transferCounted_busy s nn o.desc
  · rw [hframe.die_eq, State.updDie_die_self]
  · rw [hframe.fn_eq]
    exact slotCounted_slots (s := s.setChan nn { s.chan nn with busy := false }) hc
  · rw [hframe.die_eq, State.updDie_die_ne _ _ he, transferCounted_die]
  · rw [hplain hp]
    exact Frame.trans (transferCounted_keeps s nn o.desc) (State.updDie_frame (by decide) (Frame.refl _ _))

theorem codewordTransferEnd_countsReinRead (ho : (s.die (nn * 32 + r)).reinRead = some o) :
    ∃ t, exec (.codewordTransferEnd nn) s = .next t ∧ (t.chan nn).busy = false ∧
      (t.die (nn * 32 + r)).reinRead = some { o with done := o.done + 1 } ∧ Frame [.fch, .fns] s t := by
  refine ⟨_, codewordTransferEnd_reinRead hw hb hr ho, transferCounted_busy s nn o.desc, by rw [State.updDie_die_self],
    Frame.trans (transferCounted_keeps s nn o.desc) (State.updDie_frame (by decide) (Frame.refl _ _))⟩

end

/-! ## Stalls (R236) -/

theorem fchStallPromote_settles {s : State} {nn r : Nat} {x : Stall} (hx : Tbl.get (s.chan nn).stalls r = some x)
    (hp : x.promoted = false) (ha : s.rdAt rFCH_AGE_LIMIT nn 0 ≤ x.age) :
    ∃ t, exec (.fchStallPromote nn r) s = .next t ∧
      Tbl.get (t.chan nn).stalls r = some { x with promoted := true } ∧ (∀ k, k ≠ nn → t.chan k = s.chan k) ∧
      Frame [.fch, .regs] s t := by
  have hrun : exec (.fchStallPromote nn r) s = .next ((s.setChan nn { s.chan nn with
      stalls := Tbl.set (s.chan nn).stalls r { x with promoted := true } }).bumpAt rFCH_PROMOTED nn 0 1) := by
    refine congrArg Host.Outcome.next ?_
    dsimp only
    rw [hx]
    exact if_neg (by simp [hp]; omega)
  refine ⟨_, hrun, ?_, fun k hk => ?_, State.bumpAt_frame (by decide) (State.setChan_frame (by decide) (Frame.refl _ s))⟩
  · rw [State.chan_congr (State.bumpAt_fch _ _ _ _ _), State.setChan_chan_self]
    exact Tbl.get_set_self _ _ _
  · rw [State.chan_congr (State.bumpAt_fch _ _ _ _ _), State.setChan_chan_ne _ _ hk]

/-! ## Retraining (R237-R239) -/

/-- A die re-centred in its channel's MNT slot. -/
def dieRecentred (s : State) (d : Nat) : State :=
  (s.setDie d { s.die d with trainedAt := s.tbs.clk / 1000000, trainTemp := (s.die d).temp }).updChan (chanOf d) fun c =>
    { c with mntUsed := true,
             group := [{ rank := 5, pos := diePos d, what := .zqShort, fn := 256 },
               { rank := 5, pos := diePos d, what := .trainRead, fn := 256 }] }

/-- STP is degraded, and tells it when it was not. -/
def degradedTold (s : State) : State :=
  if s.stp.degraded then s
  else (s.setStp { s.stp with degraded := true }).ev eSTP_DEGRADED |>.raise lSTP_DEGRADED none []

theorem degradedTold_degraded (s : State) : (degradedTold s).stp.degraded = true := by
  unfold degradedTold
  split
  · next h => exact h
  · rw [State.raise_stp, State.ev_stp]
    rfl

theorem degradedTold_keeps (s : State) : Frame [.stp, .evl, .pages, .regs] s (degradedTold s) := by
  unfold degradedTold
  split
  · exact Frame.refl _ s
  · exact State.raise_frame (by decide) (State.ev_frame (by decide) (State.setStp_frame (by decide) (Frame.refl _ s)))

section
variable {s : State} {d : Nat} (hr : retrainable s d = true) (ho : (s.chan (chanOf d)).owner = some 33)
  (hg : (s.chan (chanOf d)).group = [])
include hr ho hg

theorem dieRetrain_run (low : Bool) : exec (.dieRetrain d low) s = .next (if low then
    ((degradedTold ((dieRecentred s d).updChan (chanOf d) fun c => { c with retraining := true })).evCh (chanOf d)
      eFCH_RATE_DROP).raiseAt (64 + chanOf d) lFCH_RATE_DROP none [p4 (chanOf d)] none else dieRecentred s d) :=
  congrArg Host.Outcome.next (if_neg (by simp [hr, ho, hg]))

theorem dieRetrain_settles :
    (∃ t, exec (.dieRetrain d false) s = .next t ∧ (t.die d).trainedAt = s.tbs.clk / 1000000 ∧
      (t.die d).trainTemp = (s.die d).temp ∧ (∀ e, e ≠ d → t.die e = s.die e) ∧ Frame [.fch] s t) ∧
    (∃ t, exec (.dieRetrain d true) s = .next t ∧ (t.chan (chanOf d)).retraining = true ∧ t.stp.degraded = true ∧
      s.tells t lFCH_RATE_DROP none [p4 (chanOf d)]) := by
  have hself : (dieRecentred s d).die d =
      { s.die d with trainedAt := s.tbs.clk / 1000000, trainTemp := (s.die d).temp } := by
    unfold dieRecentred
    rw [State.updChan_die, State.setDie_die_self]
  have hframe : Frame [.fch] s (dieRecentred s d) :=
    State.updChan_frame (by decide) (State.setDie_frame (by decide) (Frame.refl _ s))
  have hother : ∀ e, e ≠ d → (dieRecentred s d).die e = s.die e := fun e he => by
    unfold dieRecentred
    rw [State.updChan_die, State.setDie_die_ne _ _ he]
  refine ⟨⟨_, dieRetrain_run hr ho hg false, by rw [if_neg Bool.false_ne_true, hself],
    by rw [if_neg Bool.false_ne_true, hself], hother, hframe⟩, _, dieRetrain_run hr ho hg true, ?_, ?_, ?_⟩
  all_goals rw [if_pos rfl]
  · rw [State.chan_congr (State.raiseAt_fch _ _ _ _ _ _), State.chan_congr (State.evCh_fch _ _ _),
      (degradedTold_keeps _).chan_eq, State.updChan_chan_self]
  · rw [State.raiseAt_stp, State.evCh_stp]
    exact degradedTold_degraded _
  · refine State.raiseAt_tells ?_ _ _ _ _ _
    rw [State.evCh_tbs, (degradedTold_keeps _).tbs_eq, (State.updChan_keeps _ _ _).tbs_eq, hframe.tbs_eq]

end

/-- A fold of dies that leave service takes each of them out. -/
theorem diesOut_service (l : List (Nat × Die)) (s : State) {d : Nat}
    (h : d ∈ l.map Prod.fst ∨ (s.die d).service = false) :
    ((l.foldl (fun s p => dieOut s p.1) s).die d).service = false := by
  induction l generalizing s with
  | nil => exact h.resolve_left (by simp)
  | cons p l ih =>
    refine ih _ ?_
    by_cases hd : d = p.1
    · rw [hd]
      exact Or.inr (dieOut_service s p.1)
    · rw [dieOut_die_ne s hd]
      exact h.imp_left fun hm => (List.mem_cons.1 hm).resolve_left hd

theorem channelRetrainDone_settles {s : State} {nn : Nat} (rate : Nat) (hr : (s.chan nn).retraining = true)
    (hi : (s.fch.dies.all fun p => chanOf p.1 != nn || (p.2.op.isNone && p.2.reinRead.isNone)) = true) :
    (ladderRate rate = true → rate < (s.chan nn).rate →
      ∃ t, exec (.channelRetrainDone nn rate) s = .next t ∧ (t.chan nn).retraining = false ∧ (t.chan nn).rate = rate ∧
        (∀ k, k ≠ nn → t.chan k = s.chan k) ∧ t.fch.dies = s.fch.dies ∧ Frame [.stp, .fch, .pages] s t) ∧
    (∃ t, exec (.channelRetrainDone nn 0) s = .next t ∧ (t.chan nn).retraining = false ∧ (t.chan nn).rate = 0 ∧
      ∀ d y, Tbl.get s.fch.dies d = some y → chanOf d = nn → (t.die d).service = false) := by
  have hgo : ¬((!(s.chan nn).retraining) = true ∨
      (!(s.fch.dies.all fun p => chanOf p.1 != nn || (p.2.op.isNone && p.2.reinRead.isNone))) = true) := by
    rw [hr, hi]
    simp
  refine ⟨fun hl hlt => ?_, ?_⟩
  · have hpos : rate ≠ 0 := by
      rintro rfl
      simp [ladderRate] at hl
    have hset : ∀ t, Frame [.stp, .pages] (s.setChan nn { s.chan nn with retraining := false, rate := rate }) t →
        (t.chan nn).retraining = false ∧ (t.chan nn).rate = rate ∧ (∀ k, k ≠ nn → t.chan k = s.chan k) ∧
          t.fch.dies = s.fch.dies ∧ Frame [.stp, .fch, .pages] s t := fun t ht => by
      refine ⟨by rw [ht.chan_eq, State.setChan_chan_self], by rw [ht.chan_eq, State.setChan_chan_self],
        fun k hk => by rw [ht.chan_eq, State.setChan_chan_ne _ _ hk], by rw [ht.fch_eq]; rfl,
        Frame.trans (State.setChan_frame (by decide) (Frame.refl _ s)) (ht.mono (by decide))⟩
    refine ⟨_, rfl, ?_⟩
    dsimp only
    rw [if_neg hgo, if_neg hpos, if_neg (by simp [hl]; omega)]
    have htrained : Frame [.stp, .pages] (s.setChan nn { s.chan nn with retraining := false, rate := rate })
        ((s.setChan nn { s.chan nn with retraining := false, rate := rate }).evCh nn eFCH_TRAIN_DONE) :=
      State.evCh_frame (by decide) (Frame.refl _ _)
    exact hset _ (Frame.ite (State.setStp_frame (by decide) htrained) htrained)
  · have hrun : exec (.channelRetrainDone nn 0) s = .next ((s.fch.dies.filter fun p => chanOf p.1 == nn).foldl
        (fun s p => dieOut s p.1) (s.setChan nn { s.chan nn with retraining := false, rate := 0 })) := by
      refine congrArg Host.Outcome.next ?_
      dsimp only
      rw [if_neg hgo, if_pos rfl]
      rfl
    refine ⟨_, hrun, ?_, ?_, fun d y hy hc => diesOut_service _ _ (Or.inl ?_)⟩
    · refine (foldl_keeps (fun u => (u.chan nn).retraining) (fun u (p : Nat × Die) => (dieOut_chan u p.1 nn).2) _ _).trans ?_
      rw [State.setChan_chan_self]
    · refine (foldl_keeps (fun u => (u.chan nn).rate) (fun u (p : Nat × Die) => (dieOut_chan u p.1 nn).1) _ _).trans ?_
      rw [State.setChan_chan_self]
    · exact List.mem_map.2 ⟨(d, y), List.mem_filter.2 ⟨Tbl.mem_of_get hy, by simp [hc]⟩, rfl⟩

/-! ## The pin test (R240) -/

/-- The pins that a test found stuck, shorted or open are stored (R240). -/
def pinsStored (s : State) (nn : Nat) (short open_ : BitVec 22) : State :=
  (s.wrAt rFCH_PIN_SHORT nn 0 short.toNat).wrAt rFCH_PIN_OPEN nn 0 open_.toNat

theorem pinFaults_none (s : State) (nn : Nat) : pinFaults s nn 0 0 = pinsStored s nn 0 0 := by
  unfold pinFaults
  dsimp only
  rw [if_pos ⟨rfl, rfl⟩]
  rfl

/-- What follows a fault writes no field but the count of refused records. -/
theorem pinFaults_rdAt_ne (s : State) (nn : Nat) (short open_ : BitVec 22) {f : Fld} {n k : Nat}
    (h : fieldKey f n k ≠ fieldKey rEVL_SUPPRESSED 0 0) :
    (pinFaults s nn short open_).rdAt f n k = (pinsStored s nn short open_).rdAt f n k := by
  unfold pinFaults
  dsimp only
  split
  · rfl
  · rw [State.raiseAt_rdAt_ne _ _ _ _ _ _ h, State.evCh_rdAt]
    have hdies : ∀ (l : List (Nat × Die)) (u : State), (l.foldl (fun s p => dieOut s p.1) u).rdAt f n k = u.rdAt f n k :=
      fun l u => foldl_keeps (fun u => u.rdAt f n k) (fun u (p : Nat × Die) => dieOut_rdAt_ne u p.1 h) l u
    have hchan : ∀ (u : State) (g : Chan → Chan), (u.updChan nn g).rdAt f n k = u.rdAt f n k := fun u g =>
      (State.updChan_keeps u nn g).rdAt_eq f n k
    split
    · rw [hchan, hdies, hchan]
      rfl
    · rw [hdies, hchan]
      rfl

theorem fchPinGo_settles {s : State} {nn : Nat} (short open_ : BitVec 22) (hn : nn < 32) :
    ((s.chan nn).inService = true → ∃ t, exec (.fchPinGo nn short open_) s = .next t ∧ Frame [.gate] s t) ∧
    ((s.chan nn).inService = false →
      ∃ t, exec (.fchPinGo nn short open_) s = .next t ∧ t.rdAt rFCH_PIN_SHORT nn 0 = short.toNat ∧
        t.rdAt rFCH_PIN_OPEN nn 0 = open_.toNat ∧ (short = 0 → open_ = 0 → Frame [.gate, .regs] s t)) := by
  have hwake : Frame [.gate] s (s.wakePage (64 + nn)) := State.wakePage_frame (List.Subset.refl _) (Frame.refl _ s)
  have hrun : exec (.fchPinGo nn short open_) s = .next (if (s.chan nn).inService then s.wakePage (64 + nn)
      else pinFaults (s.wakePage (64 + nn)) nn short open_) := by
    refine congrArg Host.Outcome.next ((if_neg (by omega)).trans ?_)
    dsimp only
    rw [hwake.chan_eq]
  refine ⟨fun hs => ?_, fun hs => ?_⟩
  · rw [if_pos hs] at hrun
    exact ⟨_, hrun, hwake⟩
  · rw [if_neg (by simp [hs])] at hrun
    refine ⟨_, hrun, ?_, ?_, fun h0 h1 => ?_⟩
    · rw [pinFaults_rdAt_ne _ _ _ _ (by simp [fieldKey, pageNo, rFCH_PIN_SHORT, rEVL_SUPPRESSED]; omega)]
      unfold pinsStored
      rw [State.wrAt_rdAt_ne _ _ (by simp [fieldKey, rFCH_PIN_SHORT, rFCH_PIN_OPEN]), State.wrAt_rdAt]
      exact Nat.mod_eq_of_lt short.isLt
    · rw [pinFaults_rdAt_ne _ _ _ _ (by simp [fieldKey, pageNo, rFCH_PIN_OPEN, rEVL_SUPPRESSED]; omega)]
      unfold pinsStored
      rw [State.wrAt_rdAt]
      exact Nat.mod_eq_of_lt open_.isLt
    · subst h0 h1
      rw [pinFaults_none]
      exact State.wrAt_frame (by decide) (State.wrAt_frame (by decide) (hwake.mono (by decide)))

/-! ## The statement (O51) -/

/-- Settles O51, clause by clause: each command by its equation, and what a completion, a timeout or a die that leaves
service keeps by `Completes` and `LeavesService`. -/
theorem dieOperationsRunAndEnd : Obligations.DieOperationsRunAndEnd := by
  refine ⟨dieOpPoll_settles, fun s d n o x hr ho hx => ?_, fun s d o x hr ho hready hp ht hm hc hx => ?_,
    fun s d o r x y hr ho hready ht hm hx hchain hy hne h2 => ?_,
    fun s d o ho ht hr hl hs => dieResetTimeout_leaves ho ht hr hl hs,
    fun s d i x o h ho hx hc => ⟨reinSuspend_settles h ho hx hc, fun hk hp hr => descriptorRead_refuses h ho hx hc hk hp hr,
      fun hp hr hn hg hm => reinRead_settles h ho hx hc hp hr hn hg hm⟩,
    fun s d o ho hr hp hg => reinResume_settles ho hr hp hg, slotArbitration_settles,
    fun s nn r hw hb hr => ⟨fun o hi ho => codewordTransferEnd_countsOp hw hb hr hi ho,
      fun o ho => codewordTransferEnd_countsReinRead hw hb hr ho⟩,
    fun s nn r x hx hp ha => fchStallPromote_settles hx hp ha, fun s d hr ho hg => dieRetrain_settles hr ho hg,
    fun s nn rate hr hi => channelRetrainDone_settles rate hr hi, fun s nn short open_ hn => fchPinGo_settles short open_ hn⟩
  · exact ⟨dieOpComplete_endsRead n hr ho hx, fun hready hp => ⟨fun ht => ⟨fun st ser m hf hpu =>
      dieOpComplete_programs n hr ho hx hready hp ht hf hpu, dieOpComplete_programFails n hr ho hx hready hp ht⟩,
      dieOpComplete_arms n hr ho hx hready hp, dieOpComplete_eraseFails n hr ho hx hready hp,
      dieOpComplete_erases n hr ho hx hready hp⟩⟩
  · have hlate : opLate (s.die d) o = true := by simp [opLate, hready, ht, hm]
    exact ⟨fchDieTimeout_resets hr ho hlate hp hc hx, fchDieTimeout_leaves hr ho hlate hp hc hx⟩
  · exact fchDieTimeout_abortsRein hr ho (by simp [opLate, hready, ht, hm]) hx hchain hy hne h2

end Sys2Proof.Machine
end

section
/-! PROOFS. Start-up (O58): what each phase leaves, then the clauses of the statement. -/

-- one proof after another: many at once would each hold a thread of the compiler
set_option Elab.async false

namespace Sys2Proof.Machine

open Sys2Proof

/-! ## Progress of start-up (R483, R493) -/

theorem toPhase_bot (s : State) (n : Nat) : (toPhase s n).bot = { s.bot with phase := n, phaseClk := s.tbs.clk } := rfl

theorem toPhase_keeps (s : State) (n : Nat) : Frame [.bot, .regs] s (toPhase s n) :=
  toPhase_frame (List.Subset.refl _) (Frame.refl _ s)

/-- A phase that ends writes its time alone: no field of another page. -/
theorem toPhase_rd_ne (s : State) (n : Nat) {f : Fld}
    (h : fieldKey f 0 0 ≠ fieldKey rBOT_PHASE_MSk 0 ((s.bot.phase - 1) / 2) ∧
      fieldKey f 0 0 ≠ fieldKey rBOT_PHASE_MSk_16 0 ((s.bot.phase - 1) / 2)) :
    (toPhase s n).rd f = s.rd f := by
  have hms : (phaseMs s s.bot.phase s.bot.phaseClk).rd f = s.rd f := by
    unfold phaseMs
    dsimp only
    split
    · exact State.wrAt_rdAt_ne _ _ h.1
    · exact State.wrAt_rdAt_ne _ _ h.2
  exact hms

theorem stopStartup_keeps (s : State) (n cause : Nat) : Frame [.bot, .evl, .pages, .regs] s (stopStartup s n cause) :=
  stopStartup_frame (List.Subset.refl _) (Frame.refl _ s)

theorem stopStartup_bot (s : State) (n cause : Nat) : (stopStartup s n cause).bot =
    { s.bot with phase := 15, failPhase := n, failCode := Config.failCode n cause % 256 } := by
  unfold stopStartup
  dsimp only
  rw [apply_ite State.bot, State.raise_bot, State.ev_bot, State.setBot_bot, ite_self]

theorem stopStartup_phase (s : State) (n cause : Nat) :
    (stopStartup s n cause).bot.phase = 15 ∧ (stopStartup s n cause).bot.failPhase = n := by
  rw [stopStartup_bot]
  exact ⟨rfl, rfl⟩

theorem stopStartup_shows_of {s : State} {e : Nat × Nat} (h : s.shows e) (n cause : Nat) :
    (stopStartup s n cause).shows e := by
  have hev : ((s.setBot { s.bot with phase := 15, failPhase := n, failCode := Config.failCode n cause % 256 }).ev
      eBOT_STOPPED).shows e := State.ev_shows' (State.shows_congr h (State.setBot_pages _ _)) _
  unfold stopStartup
  dsimp only
  split
  · exact State.raise_shows hev _ _ _
  · exact hev

theorem stopStartup_shows (s : State) (n cause : Nat) : (stopStartup s n cause).shows eBOT_STOPPED := by
  unfold stopStartup
  dsimp only
  split
  · exact State.raise_shows (State.ev_shows _ (by decide)) _ _ _
  · exact State.ev_shows _ (by decide)

theorem stopStartup_rd_ne (s : State) (n cause : Nat) {f : Fld}
    (h : fieldKey f 0 0 ≠ fieldKey rEVL_SUPPRESSED 0 0) : (stopStartup s n cause).rd f = s.rd f := by
  unfold stopStartup
  dsimp only
  split
  · rw [State.raise_rd_ne _ _ _ _ h, State.ev_rd]
    exact State.rd_congr (State.setBot_regs _ _) f
  · rw [State.ev_rd]
    exact State.rd_congr (State.setBot_regs _ _) f

/-! ## Configuration image (R466, R478, R481) -/

theorem rejectImage_shows_of {s : State} {e : Nat × Nat} (h : s.shows e) (r : Option Nat) : (rejectImage s r).shows e := by
  unfold rejectImage
  split
  · exact h
  · exact State.raise_shows (State.ev_shows' (State.shows_congr h (State.bump_pages _ _ _)) _) _ _ _

/-- A refusal shows. -/
theorem rejectImage_shows {s : State} {r : Option Nat} (h : r ≠ none) : (rejectImage s r).shows eKEY_IMAGE_REJECT := by
  cases r with
  | none => exact absurd rfl h
  | some r => exact State.raise_shows (State.ev_shows _ (by decide)) _ _ _

theorem rejectImage_leaves (s : State) (r : Option Nat) : Frame [.evl, .pages, .regs] s (rejectImage s r) :=
  rejectImage_frame (List.Subset.refl _) (Frame.refl _ s)

/-- The image that applies: its fields, and registers. -/
theorem applyCfg_eq (s : State) (c : CfgImage) (b : Bool) :
    ∃ r, Frame [.regs] (s.setBot { s.bot with cfg := c, cfgCopy := b }) r ∧
      applyCfg s c b = (r.setHif { r.hif with dual := c.dual }).setNet { r.net with modes := c.portModes } := by
  refine ⟨_, ?_, rfl⟩
  have sub : ([.regs] : List Part) ⊆ [.regs] := List.Subset.refl _
  exact State.wr_frame sub <| State.wr_frame sub <| State.wr_frame sub <| debugForce_frame sub <| State.wr_frame sub <|
    State.wr_frame sub <| State.wr_frame sub <| State.wr_frame sub <| imageValues_frame sub <| Frame.refl _ _

/-- What a string reads when the bank is connected. -/
def admitted (reversed shorted : BitVec 8) (k : Nat) : Str :=
  if reversed.getLsbD k then { Str.untested with state := .reversed }
  else if shorted.getLsbD k then { Str.untested with state := .shorted }
  else { Str.untested with iso := false }

theorem admitted_iso (reversed shorted : BitVec 8) (k : Nat) :
    (admitted reversed shorted k).iso = false ↔ reversed.getLsbD k = false ∧ shorted.getLsbD k = false := by
  unfold admitted
  cases reversed.getLsbD k <;> cases shorted.getLsbD k <;> simp [Str.untested]

theorem get_map_pair {α : Type} (f : Nat → α) {l : List Nat} {k : Nat} (h : k ∈ l) :
    Tbl.get (l.map fun k => (k, f k)) k = some (f k) := by
  induction l with
  | nil => exact absurd h List.not_mem_nil
  | cons a l ih =>
    rw [List.map_cons, Tbl.get]
    split
    · next ha => rw [← ha]
    · next ha => exact ih ((List.mem_cons.1 h).resolve_left fun e => ha e.symm)

theorem admitStrings_str {s : State} (h : s.hld.strings = []) (c : CfgImage) (reversed shorted : BitVec 8) {k : Nat}
    (hk : k < 8) (hc : c.strings.getLsbD k = true) :
    strOf (admitStrings s c reversed shorted) k = admitted reversed shorted k := by
  unfold strOf admitStrings
  dsimp only
  rw [h, if_neg (by simp)]
  have hmem : k ∈ (List.range 8).filter fun k => c.strings.getLsbD k :=
    List.mem_filter.2 ⟨List.mem_range.2 hk, hc⟩
  exact congrArg (Option.getD · Str.untested) (get_map_pair (admitted reversed shorted) hmem)

theorem admitStrings_leaves (s : State) (c : CfgImage) (reversed shorted : BitVec 8) :
    Frame [.hld] s (admitStrings s c reversed shorted) := admitStrings_frame (List.Subset.refl _) (Frame.refl _ s)

/-- The state after both copies were read and refused as they must be. -/
def cfgRead (s : State) (a b : Option Nat) : State :=
  let u := rejectImage (rejectImage (toPhase s 2) a) b
  u.setBot { u.bot with norOk := (if a.isNone then 1 else 0) ||| (if b.isNone then 2 else 0) }

/-- Phase 4 with the image `x` in use. -/
def cfgUsed (s : State) (x : CfgImage) (copyB : Bool) (reversed shorted : BitVec 8) : State :=
  let u := admitStrings (applyCfg s x copyB) (applyCfg s x copyB).bot.cfg reversed shorted
  let u := u.setPins { u.pins with hldChgEn := true }
  (toPhase u 4).setBot { (toPhase u 4).bot with linkClk := some u.tbs.clk }

section
variable {s : State} (hp : s.bot.phase = 1) (hf : s.pins.pwrFailN = true) (hx : xspiReset s = false)
  (reversed shorted : BitVec 8)
include hp hf hx

theorem configurationImageLoad_unfit (h : s.nor.octal = false ∨ s.nor.suspend = false) :
    exec (.configurationImageLoad reversed shorted) s = .next (stopStartup (toPhase s 2) 2 1) := by
  refine congrArg Host.Outcome.next ?_
  rw [if_neg (by simp [hp, hf, hx]), if_pos]
  rcases h with h | h <;> simp [h]

theorem configurationImageLoad_reads (ho : s.nor.octal = true) (hs : s.nor.suspend = true) {a b : Option Nat}
    (ha : a = cfgReason s s.nor.cfgA) (hb : b = cfgReason s s.nor.cfgB) :
    exec (.configurationImageLoad reversed shorted) s = .next (if a.isSome ∧ b.isSome then
      stopStartup (cfgRead s a b) 2 0 else
        cfgUsed (cfgRead s a b)
          (if b.isNone && (a.isSome || decide (s.nor.cfgB.generation > s.nor.cfgA.generation)) then s.nor.cfgB else s.nor.cfgA)
          (b.isNone && (a.isSome || decide (s.nor.cfgB.generation > s.nor.cfgA.generation))) reversed shorted) := by
  subst ha hb
  refine congrArg Host.Outcome.next ?_
  rw [if_neg (by simp [hp, hf, hx]), if_neg (by simp [ho, hs])]
  rfl

end

theorem applyCfg_bot (s : State) (x : CfgImage) (b : Bool) : (applyCfg s x b).bot = { s.bot with cfg := x, cfgCopy := b } := by
  obtain ⟨r, hr, heq⟩ := applyCfg_eq s x b
  rw [heq]
  exact hr.bot_eq

theorem applyCfg_hif (s : State) (x : CfgImage) (b : Bool) : (applyCfg s x b).hif.dual = x.dual := by
  obtain ⟨r, hr, heq⟩ := applyCfg_eq s x b
  rw [heq]
  rfl

theorem applyCfg_leaves (s : State) (x : CfgImage) (b : Bool) : Frame [.hif, .net, .bot, .regs] s (applyCfg s x b) :=
  applyCfg_frame (List.Subset.refl _) (Frame.refl _ s)

section
variable (s : State) (x : CfgImage) (copyB : Bool) (reversed shorted : BitVec 8)

theorem cfgUsed_leaves : Frame [.hif, .net, .hld, .bot, .pins, .regs] s (cfgUsed s x copyB reversed shorted) :=
  State.setBot_frame (by decide) <| toPhase_frame (by decide) <| State.setPins_frame (by decide) <|
    admitStrings_frame (by decide) <| applyCfg_frame (by decide) (Frame.refl _ s)

theorem cfgUsed_bot : (cfgUsed s x copyB reversed shorted).bot.phase = 4 ∧
    (cfgUsed s x copyB reversed shorted).bot.cfg = x ∧
    (cfgUsed s x copyB reversed shorted).bot.linkClk = some s.tbs.clk := by
  have hbot := ((admitStrings_leaves (applyCfg s x copyB) (applyCfg s x copyB).bot.cfg reversed shorted).bot_eq).trans
    (applyCfg_bot s x copyB)
  have htbs := ((admitStrings_leaves (applyCfg s x copyB) (applyCfg s x copyB).bot.cfg reversed shorted).tbs_eq).trans
    (applyCfg_leaves s x copyB).tbs_eq
  exact ⟨rfl, congrArg Bot.cfg hbot, congrArg (fun b : Tbs => some b.clk) htbs⟩

theorem cfgUsed_hif : (cfgUsed s x copyB reversed shorted).hif.dual = x.dual :=
  (congrArg Hif.dual (admitStrings_leaves (applyCfg s x copyB) (applyCfg s x copyB).bot.cfg reversed shorted).hif_eq).trans
    (applyCfg_hif s x copyB)

theorem cfgUsed_of_admitted : Frame [.bot, .pins, .regs]
    (admitStrings (applyCfg s x copyB) (applyCfg s x copyB).bot.cfg reversed shorted)
    (cfgUsed s x copyB reversed shorted) :=
  State.setBot_frame (by decide) <| toPhase_frame (by decide) <| State.setPins_frame (by decide) <| Frame.refl _ _

/-- A string is isolated but when it reads neither reversed nor shorted. -/
theorem cfgUsed_str (h : s.hld.strings = []) {k : Nat} (hk : k < 8) (hc : x.strings.getLsbD k = true) :
    (strOf (cfgUsed s x copyB reversed shorted) k).iso = false ↔ reversed.getLsbD k = false ∧ shorted.getLsbD k = false := by
  have hstr : strOf (cfgUsed s x copyB reversed shorted) k = admitted reversed shorted k := by
    unfold strOf
    rw [(cfgUsed_of_admitted s x copyB reversed shorted).hld_eq]
    refine admitStrings_str (by rw [(applyCfg_leaves s x copyB).hld_eq, h]) _ reversed shorted hk ?_
    rw [applyCfg_bot]
    exact hc
  rw [hstr]
  exact admitted_iso reversed shorted k

end

theorem cfgRead_leaves (s : State) (a b : Option Nat) : Frame [.bot, .evl, .pages, .regs] s (cfgRead s a b) :=
  State.setBot_frame (by decide) <| rejectImage_frame (by decide) <| rejectImage_frame (by decide) <|
    (toPhase_keeps s 2).mono (by decide)

theorem cfgRead_shows (s : State) {a b : Option Nat} (h : a ≠ none ∨ b ≠ none) :
    (cfgRead s a b).shows eKEY_IMAGE_REJECT := by
  refine State.shows_congr (s := rejectImage (rejectImage (toPhase s 2) a) b) ?_ (State.setBot_pages _ _)
  rcases h with h | h
  · exact rejectImage_shows_of (rejectImage_shows h) b
  · exact rejectImage_shows h

section
variable {s : State} (hp : s.bot.phase = 1) (hf : s.pins.pwrFailN = true) (hx : xspiReset s = false)
  (reversed shorted : BitVec 8)
include hp hf hx

theorem configurationImageLoad_uses (ho : s.nor.octal = true) (hs : s.nor.suspend = true) {a b : Option Nat}
    (ha : a = cfgReason s s.nor.cfgA) (hb : b = cfgReason s s.nor.cfgB) {x : CfgImage}
    (hc : (a = none ∧ (b ≠ none ∨ s.nor.cfgB.generation ≤ s.nor.cfgA.generation) ∧ x = s.nor.cfgA) ∨
      (b = none ∧ (a ≠ none ∨ s.nor.cfgA.generation < s.nor.cfgB.generation) ∧ x = s.nor.cfgB)) :
    ∃ copyB, exec (.configurationImageLoad reversed shorted) s =
      .next (cfgUsed (cfgRead s a b) x copyB reversed shorted) := by
  have hrun := configurationImageLoad_reads hp hf hx reversed shorted ho hs ha hb
  have hone : ¬(a.isSome = true ∧ b.isSome = true) := by
    rcases hc with ⟨h, -⟩ | ⟨h, -⟩ <;> simp [h]
  rw [if_neg hone] at hrun
  rcases hc with ⟨hnone, hbest, hx⟩ | ⟨hnone, hbest, hx⟩
  · have huse : (b.isNone && (a.isSome || decide (s.nor.cfgB.generation > s.nor.cfgA.generation))) = false := by
      rcases hbest with h | h
      · simp [h]
      · simp [hnone, h]
    rw [huse, if_neg Bool.false_ne_true, ← hx] at hrun
    exact ⟨false, hrun⟩
  · have huse : (b.isNone && (a.isSome || decide (s.nor.cfgB.generation > s.nor.cfgA.generation))) = true := by
      rcases hbest with h | h
      · simp [hnone, Option.ne_none_iff_isSome.1 h]
      · simp [hnone, h]
    rw [huse, if_pos rfl, ← hx] at hrun
    exact ⟨true, hrun⟩

theorem configurationImageLoad_settles {a b : Option Nat} (ha : a = cfgReason s s.nor.cfgA)
    (hb : b = cfgReason s s.nor.cfgB) :
    (s.nor.octal = false ∨ s.nor.suspend = false →
      ∃ t, exec (.configurationImageLoad reversed shorted) s = .next t ∧ t.bot.phase = 15 ∧ t.bot.failPhase = 2 ∧
        t.shows eBOT_STOPPED) ∧
    (∀ x, s.nor.octal = true → s.nor.suspend = true →
         (a = none ∧ (b ≠ none ∨ s.nor.cfgB.generation ≤ s.nor.cfgA.generation) ∧ x = s.nor.cfgA) ∨
        (b = none ∧ (a ≠ none ∨ s.nor.cfgA.generation < s.nor.cfgB.generation) ∧ x = s.nor.cfgB) →
      ∃ t, exec (.configurationImageLoad reversed shorted) s = .next t ∧ t.bot.phase = 4 ∧ t.bot.cfg = x ∧
        t.bot.linkClk = some s.tbs.clk ∧ t.hif.dual = x.dual ∧ t.pins.hldChgEn = true ∧
        (a ≠ none ∨ b ≠ none → t.shows eKEY_IMAGE_REJECT) ∧
        (s.hld.strings = [] → ∀ k, k < 8 → x.strings.getLsbD k = true →
          ((strOf t k).iso = false ↔ reversed.getLsbD k = false ∧ shorted.getLsbD k = false)) ∧
        Frame [.hif, .net, .hld, .bot, .pins, .evl, .pages, .regs] s t) ∧
    (s.nor.octal = true → s.nor.suspend = true → a ≠ none → b ≠ none →
      ∃ t, exec (.configurationImageLoad reversed shorted) s = .next t ∧ t.bot.phase = 15 ∧ t.bot.failPhase = 2 ∧
        t.shows eBOT_STOPPED ∧ t.shows eKEY_IMAGE_REJECT) := by
  have hread := cfgRead_leaves s a b
  refine ⟨fun h => ?_, fun x ho hs hc => ?_, fun ho hs hna hnb => ?_⟩
  · obtain ⟨hphase, hfail⟩ := stopStartup_phase (toPhase s 2) 2 1
    exact ⟨_, configurationImageLoad_unfit hp hf hx reversed shorted h, hphase, hfail, stopStartup_shows _ _ _⟩
  · obtain ⟨copyB, hrun⟩ := configurationImageLoad_uses hp hf hx reversed shorted ho hs ha hb hc
    have hused := cfgUsed_leaves (cfgRead s a b) x copyB reversed shorted
    obtain ⟨hphase, hcfg, hlink⟩ := cfgUsed_bot (cfgRead s a b) x copyB reversed shorted
    exact ⟨_, hrun, hphase, hcfg, hlink.trans (by rw [hread.tbs_eq]), cfgUsed_hif _ _ _ _ _, rfl,
      fun h => State.shows_congr (cfgRead_shows s h) hused.pages_eq,
      fun h k hk hc => cfgUsed_str _ _ _ _ _ (by rw [hread.hld_eq, h]) hk hc,
      Frame.trans (hread.mono (by decide)) (hused.mono (by decide))⟩
  · have hrun := configurationImageLoad_reads hp hf hx reversed shorted ho hs ha hb
    rw [if_pos ⟨Option.ne_none_iff_isSome.1 hna, Option.ne_none_iff_isSome.1 hnb⟩] at hrun
    obtain ⟨hphase, hfail⟩ := stopStartup_phase (cfgRead s a b) 2 0
    exact ⟨_, hrun, hphase, hfail, stopStartup_shows _ _ _, stopStartup_shows_of (cfgRead_shows s (Or.inl hna)) _ _⟩

end

/-! ## Link training (R484) -/

theorem State.setPort_port_ne (s : State) {p q : Nat} (x : Port) (h : q ≠ p) : (s.setPort p x).port q = s.port q := by
  unfold State.port State.setPort
  rw [State.setHif_hif, Tbl.getD_set, if_neg h]

theorem pcieLinkTraining_settles {s : State} {p : Nat}
    (ha : (4 ≤ s.bot.phase ∧ s.bot.phase ≤ 11) ∨ 4 ≤ s.bot.failPhase) (ht : portThere s p = true)
    (hu : (s.port p).up = false) (hn : (s.port p).training = false) (hs : s.thm.snuff ≠ .off) (hd : dumpBusy s = false) :
    ∃ t, exec (.pcieLinkTraining p) s = .next t ∧ t.port p = { s.port p with training := true, perst := false } ∧
      (∀ q, q ≠ p → t.port q = s.port q) ∧ Frame [.hif] s t := by
  have hafter : (decide (4 ≤ s.bot.phase ∧ s.bot.phase ≤ 11) || decide (s.bot.failPhase ≥ 4)) = true := by
    simpa using ha
  refine ⟨s.setPort p { s.port p with training := true, perst := false }, congrArg Host.Outcome.next ?_, ?_,
    fun q hq => ?_, State.setPort_frame (List.Subset.refl _) (Frame.refl _ s)⟩
  · dsimp only
    rw [hafter, if_neg (by simp [ht, hu, hn, hs, hd])]
  · exact State.setPort_port s p _
  · exact State.setPort_port_ne s _ hq

/-! ## DRAM (R358, R379-R381) -/

/-- A failed self-test stops start-up at phase 5, and shows. -/
theorem dramFails_settles (s : State) (cause : Nat) : (dramFails s cause).bot.phase = 15 ∧
    (dramFails s cause).bot.failPhase = 5 ∧ (dramFails s cause).rd rDMC_SELFTEST = 3 ∧
    (dramFails s cause).shows eDMC_SELFTEST_FAIL ∧ (dramFails s cause).dmc.usable = s.dmc.usable := by
  unfold dramFails
  dsimp only
  obtain ⟨hphase, hfail⟩ := stopStartup_phase ((((s.wr rDMC_SELFTEST 3).ev eDMC_SELFTEST_FAIL).raise lDMC_SELFTEST_FAIL none
    []).setDmc { (((s.wr rDMC_SELFTEST 3).ev eDMC_SELFTEST_FAIL).raise lDMC_SELFTEST_FAIL none []).dmc with
      filling := false }) 5 cause
  refine ⟨hphase, hfail, ?_, ?_, ?_⟩
  · rw [stopStartup_rd_ne _ _ _ (by decide)]
    refine (State.rd_congr (State.setDmc_regs _ _) _).trans ?_
    rw [State.raise_rd_ne _ _ _ _ (by decide), State.ev_rd, State.wr_rd]
    rfl
  · exact stopStartup_shows_of (State.shows_congr (State.raise_shows (State.ev_shows _ (by decide)) _ _ _)
      (State.setDmc_pages _ _)) _ _
  · rw [(stopStartup_keeps _ _ _).dmc_eq, State.setDmc_dmc, State.raise_dmc, State.ev_dmc, State.wr_dmc]

/-- The fields of the DRAM found. -/
def dramShown (s : State) (d : DramFound) (gib : Nat) : State :=
  (((((((s.wr rDMC_SPEED d.rate).wr rDMC_RANKS d.ranks).wr rDMC_X16 (if d.x16 then 1 else 0)).wr rDMC_D32G
    (if d.d32g then 1 else 0)).wr rDMC_SIZE_GIB (4 * gib)).wr rDMC_WCRC (if d.wcrc then 1 else 0)).wr rDMC_CAPAR
    (if d.capar then 1 else 0)).wr rDMC_HPPR (if d.hppr then 1 else 0)

/-- DRAM trained, its fill begun, and its size known to MAP. -/
def dramTrained (s : State) (d : DramFound) (gib : Nat) : State :=
  let u := (dramShown s d gib).wr rDMC_SELFTEST 1
  let u := u.setDmc { u.dmc with trained := true, filling := true }
  u.setMap { u.map with dramMib := 4096 * gib - 16 }

/-- The pin test of the channels in `pins`. -/
def pinsTested (s : State) (pins : Tbl (BitVec 22 × BitVec 22)) : State :=
  pins.foldl (fun s p => if p.1 < 32 then pinFaults s p.1 p.2.1 p.2.2 else s) s

theorem pinFaults_keeps (s : State) (nn : Nat) (short open_ : BitVec 22) :
    Frame [.stp, .fch, .par, .cip, .evl, .pages, .regs] s (pinFaults s nn short open_) :=
  pinFaults_frame (List.Subset.refl _) (Frame.refl _ s)

theorem pinsTested_keeps (s : State) (pins : Tbl (BitVec 22 × BitVec 22)) :
    Frame [.stp, .fch, .par, .cip, .evl, .pages, .regs] s (pinsTested s pins) := by
  unfold pinsTested
  induction pins generalizing s with
  | nil => exact Frame.refl _ s
  | cons p l ih =>
    refine Frame.trans ?_ (ih _)
    exact Frame.ite (pinFaults_keeps s _ _ _) (Frame.refl _ s)

/-- The pin test writes its own page: a field of a page below the channels' stands. -/
theorem pinFaults_rd_of_page (s : State) (nn : Nat) (short open_ : BitVec 22) {f : Fld}
    (h : fieldKey f 0 0 ≠ fieldKey rEVL_SUPPRESSED 0 0) (hp : fieldKey f 0 0 < 64 * 4096 * 32) :
    (pinFaults s nn short open_).rd f = s.rd f := by
  have hkey : ∀ g : Fld, g.blk = 0x13 → 64 * 4096 * 32 ≤ fieldKey g nn 0 := fun g hg => by
    rw [fieldKey, pageNo, if_pos hg]
    omega
  have hshort := hkey rFCH_PIN_SHORT rfl
  have hopen := hkey rFCH_PIN_OPEN rfl
  refine (pinFaults_rdAt_ne s nn short open_ h).trans ?_
  unfold pinsStored
  rw [State.wrAt_rdAt_ne _ _ (by omega), State.wrAt_rdAt_ne _ _ (by omega)]
  rfl

theorem pinsTested_rd_of_page (s : State) (pins : Tbl (BitVec 22 × BitVec 22)) {f : Fld}
    (h : fieldKey f 0 0 ≠ fieldKey rEVL_SUPPRESSED 0 0) (hp : fieldKey f 0 0 < 64 * 4096 * 32) :
    (pinsTested s pins).rd f = s.rd f := by
  refine foldl_keeps (fun u => u.rd f) (fun u p => ?_) pins s
  split
  · exact pinFaults_rd_of_page u _ _ _ h hp
  · rfl

theorem dramShown_keeps (s : State) (d : DramFound) (gib : Nat) : Frame [.regs] s (dramShown s d gib) := by
  have sub : ([.regs] : List Part) ⊆ [.regs] := List.Subset.refl _
  exact State.wr_frame sub <| State.wr_frame sub <| State.wr_frame sub <| State.wr_frame sub <| State.wr_frame sub <|
    State.wr_frame sub <| State.wr_frame sub <| State.wr_frame sub <| Frame.refl _ s

theorem dramShown_speed (s : State) (d : DramFound) (gib : Nat) : (dramShown s d gib).rd rDMC_SPEED = d.rate % 128 := by
  unfold dramShown
  rw [State.wr_rd_ne _ _ (by decide), State.wr_rd_ne _ _ (by decide), State.wr_rd_ne _ _ (by decide),
    State.wr_rd_ne _ _ (by decide), State.wr_rd_ne _ _ (by decide), State.wr_rd_ne _ _ (by decide),
    State.wr_rd_ne _ _ (by decide), State.wr_rd]
  rfl

theorem dramShown_size (s : State) (d : DramFound) (gib : Nat) :
    (dramShown s d gib).rd rDMC_SIZE_GIB = 4 * gib % 128 := by
  unfold dramShown
  rw [State.wr_rd_ne _ _ (by decide), State.wr_rd_ne _ _ (by decide), State.wr_rd_ne _ _ (by decide), State.wr_rd]
  rfl

theorem arrangement_gib {d : DramFound} {gib top : Nat} (h : arrangement d = some (gib, top)) : gib ≤ 16 := by
  unfold arrangement at h
  split at h <;> cases h <;> omega

theorem dramTrained_rd_ne (s : State) (d : DramFound) (gib : Nat) {f : Fld}
    (h : fieldKey f 0 0 ≠ fieldKey rDMC_SELFTEST 0 0) : (dramTrained s d gib).rd f = (dramShown s d gib).rd f := by
  unfold dramTrained
  dsimp only
  exact (State.rd_congr (State.setMap_regs _ _) f).trans ((State.rd_congr (State.setDmc_regs _ _) f).trans
    (State.wr_rd_ne _ _ h))

theorem dramTrained_selftest (s : State) (d : DramFound) (gib : Nat) : (dramTrained s d gib).rd rDMC_SELFTEST = 1 := by
  unfold dramTrained
  dsimp only
  refine (State.rd_congr (State.setMap_regs _ _) _).trans ((State.rd_congr (State.setDmc_regs _ _) _).trans ?_)
  rw [State.wr_rd]
  rfl

theorem dramTrained_bot (s : State) (d : DramFound) (gib : Nat) : (dramTrained s d gib).bot = s.bot := by
  have h : Frame [.regs] s ((dramShown s d gib).wr rDMC_SELFTEST 1) :=
    State.wr_frame (List.Subset.refl _) (dramShown_keeps s d gib)
  unfold dramTrained
  dsimp only
  exact (State.setMap_bot _ _).trans ((State.setDmc_bot _ _).trans h.bot_eq)

section
variable {s : State} {d : DramFound} (pins : Tbl (BitVec 22 × BitVec 22)) (hp : s.bot.phase = 5) {gib top : Nat}
include hp

theorem dramPhase_found (ha : arrangement d = some (gib, top)) (hr : d.rate = 64 ∨ d.rate = 56 ∨ d.rate = 48)
    (ht : d.rate ≤ top) : exec (.dramPhase d pins) s = .next (if !d.busOk then dramFails (dramShown s d gib) 2
      else toPhase (pinsTested (dramTrained s d gib) pins) 6) := by
  have hrate : ([64, 56, 48] : List Nat).contains d.rate = true := by
    simpa using hr
  refine congrArg Host.Outcome.next ?_
  rw [if_neg (by simp [hp]), ha]
  dsimp only
  rw [hrate, if_neg (by simp; omega)]
  rfl

theorem dramPhase_trains (ha : arrangement d = some (gib, top)) (hr : d.rate = 64 ∨ d.rate = 56 ∨ d.rate = 48)
    (ht : d.rate ≤ top) (hb : d.busOk = true) :
    ∃ t, exec (.dramPhase d pins) s = .next t ∧ t.bot.phase = 6 ∧ t.dmc.trained = true ∧
      t.dmc.filling = true ∧ t.map.dramMib = 4096 * gib - 16 ∧ t.rd rDMC_SPEED = d.rate ∧
      t.rd rDMC_SIZE_GIB = 4 * gib ∧ t.rd rDMC_SELFTEST = 1 := by
  have hrun := dramPhase_found pins hp ha hr ht
  rw [if_neg (by simp [hb])] at hrun
  have hgib := arrangement_gib ha
  have htested := pinsTested_keeps (dramTrained s d gib) pins
  have hphase : (pinsTested (dramTrained s d gib) pins).bot.phase = 5 := by
    rw [htested.bot_eq, dramTrained_bot, hp]
  have hkeeps := toPhase_keeps (pinsTested (dramTrained s d gib) pins) 6
  refine ⟨_, hrun, rfl, ?_, ?_, ?_, ?_, ?_, ?_⟩
  · rw [hkeeps.dmc_eq, htested.dmc_eq]
    rfl
  · rw [hkeeps.dmc_eq, htested.dmc_eq]
    rfl
  · rw [hkeeps.map_eq, htested.map_eq]
    rfl
  · rw [toPhase_rd_ne _ _ (by rw [hphase]; decide), pinsTested_rd_of_page _ _ (by decide) (by decide),
      dramTrained_rd_ne _ _ _ (by decide), dramShown_speed]
    omega
  · rw [toPhase_rd_ne _ _ (by rw [hphase]; decide), pinsTested_rd_of_page _ _ (by decide) (by decide),
      dramTrained_rd_ne _ _ _ (by decide), dramShown_size]
    omega
  · rw [toPhase_rd_ne _ _ (by rw [hphase]; decide), pinsTested_rd_of_page _ _ (by decide) (by decide),
      dramTrained_selftest]

theorem dramPhase_busFails (ha : arrangement d = some (gib, top)) (hr : d.rate = 64 ∨ d.rate = 56 ∨ d.rate = 48)
    (ht : d.rate ≤ top) (hb : d.busOk = false) :
    ∃ t, exec (.dramPhase d pins) s = .next t ∧ t.bot.phase = 15 ∧ t.bot.failPhase = 5 ∧
      t.rd rDMC_SELFTEST = 3 ∧ t.shows eDMC_SELFTEST_FAIL := by
  have hrun := dramPhase_found pins hp ha hr ht
  rw [if_pos (by simp [hb])] at hrun
  obtain ⟨hphase, hfail, htest, hshow, -⟩ := dramFails_settles (dramShown s d gib) 2
  exact ⟨_, hrun, hphase, hfail, htest, hshow⟩

theorem dramPhase_unlisted (h : arrangement d = none ∨ (∃ gib top, arrangement d = some (gib, top) ∧
      ((d.rate ≠ 64 ∧ d.rate ≠ 56 ∧ d.rate ≠ 48) ∨ top < d.rate))) :
    ∃ t, exec (.dramPhase d pins) s = .next t ∧ t.bot.phase = 15 ∧ t.bot.failPhase = 5 ∧ t.shows eBOT_STOPPED := by
  have hstop : ∃ cause, exec (.dramPhase d pins) s = .next (stopStartup s 5 cause) := by
    rcases h with ha | ⟨gib, top, ha, hr⟩
    · refine ⟨0, congrArg Host.Outcome.next ?_⟩
      rw [if_neg (by simp [hp]), ha]
    · refine ⟨1, congrArg Host.Outcome.next ?_⟩
      rw [if_neg (by simp [hp]), ha]
      dsimp only
      refine if_pos ?_
      rcases hr with ⟨h64, h56, h48⟩ | hr
      · exact Or.inl (by simp [h64, h56, h48])
      · exact Or.inr hr
  obtain ⟨cause, hrun⟩ := hstop
  obtain ⟨hphase, hfail⟩ := stopStartup_phase s 5 cause
  exact ⟨_, hrun, hphase, hfail, stopStartup_shows _ _ _⟩

end

/-! ## The fill (R380, R381) -/

/-- The rows that a region's passes remap and repair are counted and told. -/
def rowsTold (s : State) (k n ppr : Nat) : State :=
  let remaps := Tbl.put s.dmc.remaps k (Tbl.getD s.dmc.remaps k 0 + n) 0
  let u := (s.bump rDMC_PPR ppr).setDmc { s.dmc with remaps := remaps }
  (List.range (n + ppr)).foldl (fun s _ => (s.ev eDMC_REMAP).raise lDMC_ROW_REMAP none [])
    (u.wr rDMC_REMAPPED (min 255 (remaps.map Prod.snd).sum))

theorem rowsTold_keeps (s : State) (k n ppr : Nat) : Frame [.dmc, .evl, .pages, .regs] s (rowsTold s k n ppr) := by
  unfold rowsTold
  dsimp only
  refine Frame.foldl (fun u _ hu => State.raise_frame (by decide) (State.ev_frame (by decide) hu)) ?_
  exact State.wr_frame (by decide) (State.setDmc_frame (by decide) (State.bump_frame (by decide) (Frame.refl _ s)))

theorem rowsTold_dmc (s : State) (k n ppr : Nat) : (rowsTold s k n ppr).dmc = { s.dmc with
    remaps := Tbl.put s.dmc.remaps k (Tbl.getD s.dmc.remaps k 0 + n) 0 } := by
  unfold rowsTold
  dsimp only
  refine (foldl_keeps State.dmc (fun u _ => ?_) _ _).trans ?_
  · rw [State.raise_dmc, State.ev_dmc]
  · rw [State.wr_dmc, State.setDmc_dmc]

/-- A region whose passes have ended is usable; after the last one the self-test has passed. -/
def regionFilled (u : State) (r : Region) : State :=
  let done := decide ((u.dmc.usable ++ [r]).length = fillOrder.length)
  let v := u.setDmc { u.dmc with usable := u.dmc.usable ++ [r], filling := !done }
  if done then v.wr rDMC_SELFTEST 2 else v

theorem regionFilled_keeps (u : State) (r : Region) : Frame [.dmc, .regs] u (regionFilled u r) := by
  have h : Frame [.dmc, .regs] u (u.setDmc { u.dmc with
      usable := u.dmc.usable ++ [r], filling := !decide ((u.dmc.usable ++ [r]).length = fillOrder.length) }) :=
    State.setDmc_frame (by decide) (Frame.refl _ u)
  exact Frame.ite (State.wr_frame (by decide) h) h

theorem regionFilled_dmc (u : State) (r : Region) : (regionFilled u r).dmc = { u.dmc with
    usable := u.dmc.usable ++ [r], filling := !decide ((u.dmc.usable ++ [r]).length = fillOrder.length) } := by
  unfold regionFilled
  dsimp only
  rw [apply_ite State.dmc, State.wr_dmc, State.setDmc_dmc, ite_self]

theorem regionFilled_selftest {u : State} {r : Region} (h : u.dmc.usable.length + 1 = fillOrder.length) :
    (regionFilled u r).rd rDMC_SELFTEST = 2 := by
  unfold regionFilled
  dsimp only
  rw [if_pos (by rw [List.length_append]; exact decide_eq_true h), State.wr_rd]
  rfl

theorem Tbl.mem_put {α : Type} [DecidableEq α] {t : Tbl α} {k : Nat} {v d : α} {q : Nat × α}
    (h : q ∈ Tbl.put t k v d) : q = (k, v) ∨ q ∈ t := by
  unfold Tbl.put at h
  split at h
  · exact Or.inr (Tbl.mem_erase h)
  · exact Tbl.mem_set h

section
variable {s : State} {r : Region} {k n : Nat} (ppr : Nat)
  (hr : fillOrder.find? (fun x => !s.dmc.usable.contains x) = some r) (hf : s.dmc.filling = true)
include hr hf

theorem dramFill_run : exec (.dramFill [(k, n)] ppr) s = .next (
    if (Tbl.put s.dmc.remaps k (Tbl.getD s.dmc.remaps k 0 + n) 0).any fun p => decide (p.2 > 64) then
      dramFails (rowsTold s k n ppr) 3
    else regionFilled (rowsTold s k n ppr) r) := by
  refine congrArg Host.Outcome.next ?_
  rw [hr]
  dsimp only
  rw [if_neg (by simp [hf])]
  simp only [List.map_cons, List.map_nil, List.sum_cons, List.sum_nil, Nat.add_zero, List.foldl_cons, List.foldl_nil]
  rfl

theorem dramFill_fills (hl : ∀ p ∈ s.dmc.remaps, p.2 ≤ 64) (hn : Tbl.getD s.dmc.remaps k 0 + n ≤ 64) :
    ∃ t, exec (.dramFill [(k, n)] ppr) s = .next t ∧ t.dmc.usable = s.dmc.usable ++ [r] ∧
      (t.dmc.filling = true ↔ s.dmc.usable.length + 1 ≠ fillOrder.length) ∧
      Tbl.getD t.dmc.remaps k 0 = Tbl.getD s.dmc.remaps k 0 + n ∧
      (s.dmc.usable.length + 1 = fillOrder.length → t.rd rDMC_SELFTEST = 2) ∧ t.bot = s.bot ∧
      Frame [.dmc, .bot, .evl, .pages, .regs] s t := by
  have hfew : ¬((Tbl.put s.dmc.remaps k (Tbl.getD s.dmc.remaps k 0 + n) 0).any fun p => decide (p.2 > 64)) = true := by
    rw [List.any_eq_true]
    rintro ⟨p, hp, hbig⟩
    rw [decide_eq_true_iff] at hbig
    rcases Tbl.mem_put hp with rfl | hp
    · exact absurd hbig (by dsimp only; omega)
    · have := hl p hp
      omega
  have hrun := dramFill_run ppr hr hf (k := k) (n := n)
  rw [if_neg hfew] at hrun
  have htold := rowsTold_keeps s k n ppr
  have hdmc := rowsTold_dmc s k n ppr
  have hfill := regionFilled_keeps (rowsTold s k n ppr) r
  refine ⟨_, hrun, ?_, ?_, ?_, fun hlast => regionFilled_selftest (by rw [hdmc]; exact hlast), ?_,
    Frame.trans (htold.mono (by decide)) (hfill.mono (by decide))⟩
  · rw [regionFilled_dmc, hdmc]
  · rw [regionFilled_dmc, hdmc]
    simp
  · rw [regionFilled_dmc, hdmc]
    exact Tbl.getD_put_self _ _ _ _
  · rw [hfill.bot_eq, htold.bot_eq]

theorem dramFill_stops (hn : 64 < Tbl.getD s.dmc.remaps k 0 + n) :
    ∃ t, exec (.dramFill [(k, n)] ppr) s = .next t ∧ t.bot.phase = 15 ∧ t.bot.failPhase = 5 ∧
      t.rd rDMC_SELFTEST = 3 ∧ t.dmc.usable = s.dmc.usable := by
  have hmany : ((Tbl.put s.dmc.remaps k (Tbl.getD s.dmc.remaps k 0 + n) 0).any fun p => decide (p.2 > 64)) = true := by
    have hput : Tbl.get (Tbl.put s.dmc.remaps k (Tbl.getD s.dmc.remaps k 0 + n) 0) k =
        some (Tbl.getD s.dmc.remaps k 0 + n) := by
      unfold Tbl.put
      rw [if_neg (by omega)]
      exact Tbl.get_set_self _ _ _
    exact List.any_eq_true.2 ⟨_, Tbl.mem_of_get hput, decide_eq_true hn⟩
  have hrun := dramFill_run ppr hr hf (k := k) (n := n)
  rw [if_pos hmany] at hrun
  obtain ⟨hphase, hfail, htest, -, husable⟩ := dramFails_settles (rowsTold s k n ppr) 3
  exact ⟨_, hrun, hphase, hfail, htest, husable.trans (by rw [rowsTold_dmc])⟩

end

/-! ## Flash discovery (R237, R238, R240, R485) -/

/-- A die that is not the channel's stands through its pin test. -/
theorem pinFaults_die_ne (s : State) {nn d : Nat} (short open_ : BitVec 22) (h : chanOf d ≠ nn) :
    (pinFaults s nn short open_).die d = s.die d := by
  have hdies : ∀ (l : List (Nat × Die)) (u : State), (∀ p ∈ l, chanOf p.1 = nn) →
      (l.foldl (fun s p => dieOut s p.1) u).die d = u.die d := by
    intro l
    induction l with
    | nil => exact fun _ _ => rfl
    | cons p l ih =>
      intro u hl
      have hp : d ≠ p.1 := fun e => h (e ▸ hl p List.mem_cons_self)
      exact (ih _ fun q hq => hl q (List.mem_cons_of_mem _ hq)).trans (dieOut_die_ne u hp)
  have hmine : ∀ (u : State) (f : Nat × Die → Bool), ∀ p ∈ u.fch.dies.filter fun p => chanOf p.1 == nn && f p,
      chanOf p.1 = nn := fun u f p hp => by
    have := (List.mem_filter.1 hp).2
    simp only [Bool.and_eq_true, beq_iff_eq] at this
    exact this.1
  unfold pinFaults
  dsimp only
  split
  · rfl
  · rw [State.die_congr (State.raiseAt_fch _ _ _ _ _ _), State.die_congr (State.evCh_fch _ _ _)]
    split
    · rw [State.updChan_die, hdies _ _ (hmine _ _)]
      rfl
    · rw [hdies _ _ (hmine _ _)]
      rfl

/-- A die keeps what it is through a pin test. -/
theorem pinFaults_identity (s : State) (nn d : Nat) (short open_ : BitVec 22) :
    ((pinFaults s nn short open_).die d).present = (s.die d).present ∧
      ((pinFaults s nn short open_).die d).uid = (s.die d).uid := by
  have hdies : ∀ (l : List (Nat × Die)) (u : State),
      ((l.foldl (fun s p => dieOut s p.1) u).die d).present = (u.die d).present ∧
        ((l.foldl (fun s p => dieOut s p.1) u).die d).uid = (u.die d).uid := fun l u =>
    ⟨foldl_keeps (fun u => (u.die d).present) (fun u (p : Nat × Die) => (dieOut_identity u p.1 d).1) l u,
      foldl_keeps (fun u => (u.die d).uid) (fun u (p : Nat × Die) => (dieOut_identity u p.1 d).2) l u⟩
  unfold pinFaults
  dsimp only
  split
  · exact ⟨rfl, rfl⟩
  · rw [State.die_congr (State.raiseAt_fch _ _ _ _ _ _), State.die_congr (State.evCh_fch _ _ _)]
    split
    · rw [State.updChan_die]
      exact hdies _ _
    · exact hdies _ _

/-- The dies of a channel brought up one after another, from rate `r` on. -/
def diesUp (s : State) (iface r : Nat) (l : List (Nat × DieFound)) (margins : Tbl Margins) : State × Nat :=
  l.foldl (fun a p => bringUp a.1 iface a.2 p.1 p.2 (Tbl.getD margins p.1 [])) (s, r)

theorem diesUp_die_ne (s : State) (iface r : Nat) {l : List (Nat × DieFound)} (margins : Tbl Margins) {d : Nat}
    (h : ∀ p ∈ l, p.1 ≠ d) : (diesUp s iface r l margins).1.die d = s.die d := by
  unfold diesUp
  induction l generalizing s r with
  | nil => rfl
  | cons p l ih =>
    rw [List.foldl_cons]
    refine (ih _ _ fun q hq => h q (List.mem_cons_of_mem _ hq)).trans ?_
    exact State.updDie_die_ne _ _ (Ne.symm (h p List.mem_cons_self))

/-- A die that answers is there, with its unique ID. -/
theorem diesUp_found (s : State) (iface r d : Nat) (x : DieFound) (margins : Tbl Margins) :
    ((diesUp s iface r [(d, x)] margins).1.die d).present = true ∧
      ((diesUp s iface r [(d, x)] margins).1.die d).uid = x.uid := by
  unfold diesUp
  rw [List.foldl_cons, List.foldl_nil]
  unfold bringUp
  dsimp only
  rw [State.updDie_die_self]
  exact ⟨rfl, rfl⟩

theorem mem_insertBy {α : Type} {key : α → Nat} {x y : α} {l : List α} (h : y ∈ insertBy key x l) : y = x ∨ y ∈ l := by
  induction l with
  | nil => exact Or.inl (List.mem_singleton.1 h)
  | cons z l ih =>
    rw [insertBy] at h
    split at h
    · exact List.mem_cons.1 h
    · rcases List.mem_cons.1 h with rfl | h
      · exact Or.inr List.mem_cons_self
      · exact (ih h).imp_right (List.mem_cons_of_mem _)

theorem mem_of_mem_sortBy {α : Type} {key : α → Nat} {l : List α} {y : α} (h : y ∈ sortBy key l) : y ∈ l := by
  have go : ∀ (l a : List α), y ∈ l.foldl (fun a x => insertBy key x a) a → y ∈ l ∨ y ∈ a := by
    intro l
    induction l with
    | nil => exact fun _ h => Or.inr h
    | cons x l ih =>
      intro a h
      rcases ih _ h with h | h
      · exact Or.inl (List.mem_cons_of_mem _ h)
      · rcases mem_insertBy h with rfl | h
        · exact Or.inl List.mem_cons_self
        · exact Or.inr h
  exact (go l [] h).resolve_right List.not_mem_nil

/-- What answers on a channel, in position order. -/
def foundOn (nn : Nat) (found : Tbl DieFound) : List (Nat × DieFound) :=
  sortBy Prod.fst (found.filter fun (p : Nat × DieFound) => chanOf p.1 == nn)

theorem foundOn_chan {nn : Nat} {found : Tbl DieFound} {p : Nat × DieFound} (h : p ∈ foundOn nn found) :
    chanOf p.1 = nn := eq_of_beq (List.mem_filter.1 (mem_of_mem_sortBy h)).2

theorem foundOn_single {nn d : Nat} (x : DieFound) (h : chanOf d = nn) : foundOn nn [(d, x)] = [(d, x)] := by
  unfold foundOn
  rw [List.filter_cons, if_pos (by simp [h])]
  rfl

/-- The channel after the pin test that its pins have. -/
def channelPinned (s : State) (nn : Nat) (pins : BitVec 22 × BitVec 22) : State :=
  if pins.1 = 0 then s else pinFaults s nn pins.1 (BitVec.ofNat 22 (s.rdAt rFCH_PIN_OPEN nn 0))

/-- The data interface of the channel's lowest present die. -/
def channelIface (s : State) (nn : Nat) (found : Tbl DieFound) : Nat :=
  (((foundOn nn found).head?.bind fun p => profileOf s p.2).map Profile.iface).getD 0

/-- The channel in service at the rate that its dies pass. -/
def channelRated (s : State) (nn iface rate : Nat) (serves : Bool) : State :=
  let s := s.updChan nn fun c => { c with inService := serves && !c.pinBad, rate := if serves then rate else 0,
                                          iface := if serves then iface else 0 }
  if serves then s.evCh nn eFCH_TRAIN_DONE else s

theorem channelRated_die (s : State) (nn iface rate : Nat) (serves : Bool) (d : Nat) :
    (channelRated s nn iface rate serves).die d = s.die d := by
  unfold channelRated
  dsimp only
  split
  · rw [State.die_congr (State.evCh_fch _ _ _), State.updChan_die]
  · rw [State.updChan_die]

/-- The channel with its dies brought up and its rate chosen. -/
def channelTrained (s : State) (nn : Nat) (found : Tbl DieFound) (pins : BitVec 22 × BitVec 22) (margins : Tbl Margins) :
    State :=
  let a := channelPinned s nn pins
  let f := diesUp a (channelIface a nn found) (100 * a.rdAt rFCH_RATE_CAP nn 0) (foundOn nn found) margins
  channelRated f.1 nn (channelIface a nn found) f.2 ((foundOn nn found).any fun p => (f.1.die p.1).service)

theorem channelTrained_die (s : State) (nn : Nat) (found : Tbl DieFound) (pins : BitVec 22 × BitVec 22)
    (margins : Tbl Margins) : ∃ iface r, ∀ d, (channelTrained s nn found pins margins).die d =
      (diesUp (channelPinned s nn pins) iface r (foundOn nn found) margins).1.die d :=
  ⟨_, _, fun d => channelRated_die _ _ _ _ _ d⟩

/-- Training may show open pins. -/
theorem channelUp_eq (s : State) (nn : Nat) (found : Tbl DieFound) (pins : BitVec 22 × BitVec 22)
    (margins : Tbl Margins) : channelUp s nn found pins margins =
      if pins.2 ||| openEnables (channelTrained s nn found pins margins) nn found = 0 then
        channelTrained s nn found pins margins
      else pinFaults (channelTrained s nn found pins margins) nn
        (BitVec.ofNat 22 ((channelTrained s nn found pins margins).rdAt rFCH_PIN_SHORT nn 0))
        (pins.2 ||| openEnables (channelTrained s nn found pins margins) nn found |||
          BitVec.ofNat 22 ((channelTrained s nn found pins margins).rdAt rFCH_PIN_OPEN nn 0)) := rfl

theorem channelPinned_die_ne (s : State) {nn d : Nat} (pins : BitVec 22 × BitVec 22) (h : chanOf d ≠ nn) :
    (channelPinned s nn pins).die d = s.die d := by
  unfold channelPinned
  split
  · rfl
  · exact pinFaults_die_ne s _ _ h

/-- A channel that comes up leaves the other channels' dies. -/
theorem channelUp_die_ne (s : State) {nn d : Nat} (found : Tbl DieFound) (pins : BitVec 22 × BitVec 22)
    (margins : Tbl Margins) (h : chanOf d ≠ nn) : (channelUp s nn found pins margins).die d = s.die d := by
  obtain ⟨iface, r, hb⟩ := channelTrained_die s nn found pins margins
  have hdie : (channelTrained s nn found pins margins).die d = s.die d := by
    rw [hb, diesUp_die_ne _ _ _ _ fun p hp e => h (by rw [← e]; exact foundOn_chan hp), channelPinned_die_ne s pins h]
  rw [channelUp_eq]
  split
  · exact hdie
  · rw [pinFaults_die_ne _ _ _ h, hdie]

/-- The one die that answers is there, with its unique ID. -/
theorem channelUp_found (s : State) {nn d : Nat} (x : DieFound) (pins : BitVec 22 × BitVec 22) (margins : Tbl Margins)
    (h : chanOf d = nn) : ((channelUp s nn [(d, x)] pins margins).die d).present = true ∧
      ((channelUp s nn [(d, x)] pins margins).die d).uid = x.uid := by
  obtain ⟨iface, r, hb⟩ := channelTrained_die s nn [(d, x)] pins margins
  have hfound := diesUp_found (channelPinned s nn pins) iface r d x margins
  rw [foundOn_single x h] at hb
  rw [← hb] at hfound
  rw [channelUp_eq]
  split
  · exact hfound
  · obtain ⟨hpresent, huid⟩ := pinFaults_identity (channelTrained s nn [(d, x)] pins margins) nn d
      (BitVec.ofNat 22 ((channelTrained s nn [(d, x)] pins margins).rdAt rFCH_PIN_SHORT nn 0))
      (pins.2 ||| openEnables (channelTrained s nn [(d, x)] pins margins) nn [(d, x)] |||
        BitVec.ofNat 22 ((channelTrained s nn [(d, x)] pins margins).rdAt rFCH_PIN_OPEN nn 0))
    exact ⟨hpresent.trans hfound.1, huid.trans hfound.2⟩

/-- The channels of a group, come up one after another. -/
def groupUp (s : State) (g : Nat) (found : Tbl DieFound) (pins : Tbl (BitVec 22 × BitVec 22)) (margins : Tbl Margins) :
    State :=
  (groupChannels g).foldl (fun s nn => channelUp s nn found (Tbl.getD pins nn (0, 0)) margins) s

theorem groupUp_keeps (s : State) (g : Nat) (found : Tbl DieFound) (pins : Tbl (BitVec 22 × BitVec 22))
    (margins : Tbl Margins) : Frame [.stp, .fch, .par, .cip, .evl, .pages, .regs] s (groupUp s g found pins margins) :=
  Frame.foldl (fun _ _ h => channelUp_frame (List.Subset.refl _) h) (Frame.refl _ s)

theorem groupChannels_group {g nn : Nat} (h : nn ∈ groupChannels g) : nn / 8 = g := by
  obtain ⟨k, hk, rfl⟩ := List.mem_map.1 h
  have := List.mem_range.1 hk
  omega

theorem mem_groupChannels (nn : Nat) : nn ∈ groupChannels (nn / 8) :=
  List.mem_map.2 ⟨nn % 8, List.mem_range.2 (by omega), by omega⟩

section
variable (s : State) {g : Nat} (pins : Tbl (BitVec 22 × BitVec 22)) (margins : Tbl Margins)

/-- A group that comes up leaves the other groups' dies. -/
theorem groupUp_die_ne (found : Tbl DieFound) {d : Nat} (h : chanOf d / 8 ≠ g) :
    (groupUp s g found pins margins).die d = s.die d := by
  have hfold : ∀ (l : List Nat) (u : State), (∀ nn ∈ l, chanOf d ≠ nn) →
      (l.foldl (fun s nn => channelUp s nn found (Tbl.getD pins nn (0, 0)) margins) u).die d = u.die d := by
    intro l
    induction l with
    | nil => exact fun _ _ => rfl
    | cons nn l ih =>
      intro u hl
      exact (ih _ fun q hq => hl q (List.mem_cons_of_mem _ hq)).trans
        (channelUp_die_ne u found _ margins (hl nn List.mem_cons_self))
  exact hfold _ s fun nn hnn e => h (e ▸ groupChannels_group hnn)

theorem groupUp_found {d : Nat} (x : DieFound) (h : chanOf d / 8 = g) :
    ((groupUp s g [(d, x)] pins margins).die d).present = true ∧
      ((groupUp s g [(d, x)] pins margins).die d).uid = x.uid := by
  have hfold : ∀ (l : List Nat) (u : State),
      (chanOf d ∈ l ∨ ((u.die d).present = true ∧ (u.die d).uid = x.uid)) →
      ((l.foldl (fun s nn => channelUp s nn [(d, x)] (Tbl.getD pins nn (0, 0)) margins) u).die d).present = true ∧
        ((l.foldl (fun s nn => channelUp s nn [(d, x)] (Tbl.getD pins nn (0, 0)) margins) u).die d).uid = x.uid := by
    intro l
    induction l with
    | nil => exact fun u hu => hu.resolve_left List.not_mem_nil
    | cons nn l ih =>
      intro u hu
      refine ih _ ?_
      by_cases hc : chanOf d = nn
      · exact Or.inr (channelUp_found u x _ margins hc)
      · rw [channelUp_die_ne u _ _ margins hc]
        exact hu.imp_left fun hm => (List.mem_cons.1 hm).resolve_left hc
  exact hfold _ s (Or.inl (h ▸ mem_groupChannels (chanOf d)))

end

/-- The group is up, and the next one's supply rises. -/
def groupStarted (s : State) (found : Tbl DieFound) (pins : Tbl (BitVec 22 × BitVec 22)) (margins : Tbl Margins) : State :=
  let u := groupUp s s.bot.group found pins margins
  let u := (u.setPins { u.pins with fpwrEn := u.pins.fpwrEn ||| (1 <<< (s.bot.group + 1)) }).setPar { u.par with lostArm := [] }
  u.setBot { u.bot with group := s.bot.group + 1, groupClk := u.tbs.clk }

section
variable {s : State} (found : Tbl DieFound) (pins : Tbl (BitVec 22 × BitVec 22)) (margins : Tbl Margins)

theorem groupStarted_bot : (groupStarted s found pins margins).bot =
    { s.bot with group := s.bot.group + 1, groupClk := s.tbs.clk } := by
  have h := groupUp_keeps s s.bot.group found pins margins
  unfold groupStarted
  dsimp only
  rw [State.setBot_bot, State.setPar_bot, State.setPins_bot, State.setPar_tbs, State.setPins_tbs, h.bot_eq, h.tbs_eq]

theorem groupStarted_pins : (groupStarted s found pins margins).pins.fpwrEn =
    s.pins.fpwrEn ||| (1 <<< (s.bot.group + 1)) := by
  have h := groupUp_keeps s s.bot.group found pins margins
  unfold groupStarted
  dsimp only
  rw [State.setBot_pins, State.setPar_pins, State.setPins_pins, h.pins_eq]

theorem groupStarted_fch : (groupStarted s found pins margins).fch = (groupUp s s.bot.group found pins margins).fch := by
  unfold groupStarted
  dsimp only
  rw [State.setBot_fch, State.setPar_fch, State.setPins_fch]

theorem flashGroupStart_run (hp : s.bot.phase = 6) (hc : s.bot.groupClk + 20000000 ≤ s.tbs.clk) :
    exec (.flashGroupStart found pins margins) s = .next (if s.bot.group < 3 then groupStarted s found pins margins
      else if (groupStarted s found pins margins).fch.chans.any fun p => p.2.inService then
        toPhase (groupStarted s found pins margins) 7 else stopStartup (groupStarted s found pins margins) 6 0) := by
  refine congrArg Host.Outcome.next ?_
  rw [if_neg (by simp [hp]; omega)]
  rfl

theorem flashGroupStart_waits (hc : s.tbs.clk < s.bot.groupClk + 20000000) :
    exec (.flashGroupStart found pins margins) s = .next s :=
  congrArg Host.Outcome.next (if_pos (Or.inr hc))

/-- What follows a group: its successor, phase 7, or a stop. All of them keep the dies, the supplies and the group. -/
theorem flashGroupStart_ends (hp : s.bot.phase = 6) (hc : s.bot.groupClk + 20000000 ≤ s.tbs.clk) :
    ∃ t, exec (.flashGroupStart found pins margins) s = .next t ∧ t.bot.group = s.bot.group + 1 ∧
      t.bot.groupClk = s.tbs.clk ∧ t.pins.fpwrEn = s.pins.fpwrEn ||| (1 <<< (s.bot.group + 1)) ∧
      t.fch = (groupUp s s.bot.group found pins margins).fch ∧
      (s.bot.group < 3 → t.bot.phase = 6) ∧
      (3 ≤ s.bot.group → (∃ p ∈ t.fch.chans, p.2.inService = true) → t.bot.phase = 7) ∧
      (3 ≤ s.bot.group → (∀ p ∈ t.fch.chans, p.2.inService = false) → t.bot.phase = 15 ∧ t.bot.failPhase = 6 ∧
        t.shows eBOT_STOPPED) := by
  have hrun := flashGroupStart_run found pins margins hp hc
  have hbot := groupStarted_bot (s := s) found pins margins
  have hpins := groupStarted_pins (s := s) found pins margins
  have hfch := groupStarted_fch (s := s) found pins margins
  generalize groupStarted s found pins margins = u at hrun hbot hpins hfch
  by_cases hg : s.bot.group < 3
  · rw [if_pos hg] at hrun
    exact ⟨_, hrun, by rw [hbot], by rw [hbot], hpins, hfch, fun _ => by rw [hbot]; exact hp, fun h => by omega,
      fun h => by omega⟩
  rw [if_neg hg] at hrun
  by_cases hs : (u.fch.chans.any fun p => p.2.inService) = true
  · rw [if_pos hs] at hrun
    have hkeeps := toPhase_keeps u 7
    refine ⟨_, hrun, by rw [toPhase_bot, hbot], by rw [toPhase_bot, hbot], by rw [hkeeps.pins_eq]; exact hpins,
      hkeeps.fch_eq.trans hfch, fun h => absurd h hg, fun _ _ => rfl, fun _ hall => ?_⟩
    obtain ⟨p, hmem, hp⟩ := List.any_eq_true.1 hs
    rw [hkeeps.fch_eq] at hall
    rw [hall p hmem] at hp
    cases hp
  · rw [if_neg hs] at hrun
    have hkeeps := stopStartup_keeps u 6 0
    refine ⟨_, hrun, by rw [stopStartup_bot, hbot], by rw [stopStartup_bot, hbot], by rw [hkeeps.pins_eq]; exact hpins,
      hkeeps.fch_eq.trans hfch, fun h => absurd h hg, fun _ hone => ?_, fun _ _ => ?_⟩
    · rw [hkeeps.fch_eq] at hone
      exact absurd (List.any_eq_true.2 hone) hs
    · obtain ⟨hphase, hfail⟩ := stopStartup_phase u 6 0
      exact ⟨hphase, hfail, stopStartup_shows _ _ _⟩

theorem flashGroupStart_settles (hp : s.bot.phase = 6) :
    (s.bot.groupClk + 20000000 ≤ s.tbs.clk →
      ∃ t, exec (.flashGroupStart found pins margins) s = .next t ∧ t.bot.group = s.bot.group + 1 ∧
        t.bot.groupClk = s.tbs.clk ∧ t.pins.fpwrEn = s.pins.fpwrEn ||| (1 <<< (s.bot.group + 1)) ∧
        (s.bot.group < 3 → t.bot.phase = 6) ∧
        (3 ≤ s.bot.group → (∃ p ∈ t.fch.chans, p.2.inService = true) → t.bot.phase = 7) ∧
        (3 ≤ s.bot.group → (∀ p ∈ t.fch.chans, p.2.inService = false) → t.bot.phase = 15 ∧ t.bot.failPhase = 6 ∧
          t.shows eBOT_STOPPED) ∧
        (∀ d, chanOf d / 8 ≠ s.bot.group → t.die d = s.die d) ∧
        (∀ d x, found = [(d, x)] → chanOf d / 8 = s.bot.group → (t.die d).present = true ∧ (t.die d).uid = x.uid)) ∧
    (s.tbs.clk < s.bot.groupClk + 20000000 → exec (.flashGroupStart found pins margins) s = .next s) := by
  refine ⟨fun hc => ?_, flashGroupStart_waits found pins margins⟩
  obtain ⟨t, hrun, hgroup, hclk, hpins, hfch, hnext, hlast, hstop⟩ := flashGroupStart_ends found pins margins hp hc
  refine ⟨t, hrun, hgroup, hclk, hpins, hnext, hlast, hstop, fun d hd => ?_, fun d x hf hd => ?_⟩
  · rw [State.die_congr hfch, groupUp_die_ne s pins margins found hd]
  · rw [State.die_congr hfch, hf]
    exact groupUp_found s pins margins x hd

end

/-! ## The die roster (R488, R489) -/

theorem benchDie_service (s : State) (d k : Nat) :
    ((benchDie s d).die k).service = true ↔ (s.die k).service = true ∧ k ≠ d := by
  unfold benchDie
  rw [State.updDie_die]
  split
  · next h => simp [h]
  · next h => simp [h]

/-- The check of an entry benches its die, or leaves every die. -/
theorem checkEntry_fch (s : State) (d : Nat) (e : RosterEntry) :
    (checkEntry s d e).fch = s.fch ∨ (checkEntry s d e).fch = (benchDie s d).fch := by
  unfold checkEntry setEntry
  dsimp only
  split
  · exact Or.inr rfl
  · split
    · split
      · refine Or.inr ?_
        rw [State.setPar_fch, State.raise_fch, State.ev_fch, State.setBot_fch]
      · refine Or.inr ?_
        rw [State.raise_fch, State.ev_fch, State.setBot_fch]
    · split
      · split
        · exact Or.inl rfl
        · refine Or.inr ?_
          rw [State.raise_fch, State.ev_fch, State.setPar_fch, State.setNor_fch, State.setBot_fch]
      · split
        · exact Or.inl (State.setNor_fch _ _)
        · exact Or.inr rfl

/-- The check of an entry writes that entry of the roster, or none. -/
theorem checkEntry_nor (s : State) (d : Nat) (e : RosterEntry) :
    (checkEntry s d e).nor = s.nor ∨ ∃ x, (checkEntry s d e).nor =
      { s.nor with roster := { s.nor.roster with entries := Tbl.set s.nor.roster.entries d x } } := by
  have hbench : (benchDie s d).nor = s.nor := (benchDie_frame (List.Subset.refl _) (Frame.refl _ s)).nor_eq
  unfold checkEntry setEntry
  dsimp only
  split
  · exact Or.inl hbench
  · split
    · split
      · refine Or.inl ?_
        rw [State.setPar_nor, State.raise_nor, State.ev_nor, State.setBot_nor, hbench]
      · refine Or.inl ?_
        rw [State.raise_nor, State.ev_nor, State.setBot_nor, hbench]
    · split
      · split
        · exact Or.inl rfl
        · refine Or.inr ⟨{ e with
            state := 2, changed := ((benchDie s d).setBot { s.bot with missing := s.bot.missing + 1 }).now }, ?_⟩
          rw [State.raise_nor, State.ev_nor, State.setPar_nor, State.setNor_nor, State.setBot_nor, hbench]
      · split
        · exact Or.inr ⟨_, State.setNor_nor _ _⟩
        · exact Or.inl hbench

/-- The check brings no die into service. -/
theorem checkEntry_service {s : State} {d k : Nat} {e : RosterEntry}
    (h : ((checkEntry s d e).die k).service = true) : (s.die k).service = true := by
  rcases checkEntry_fch s d e with hf | hf <;> rw [State.die_congr hf] at h
  · exact h
  · exact ((benchDie_service s d k).1 h).1

theorem Tbl.isSome_get_of_mem {α : Type} {t : Tbl α} {p : Nat × α} (h : p ∈ t) : (Tbl.get t p.1).isSome = true := by
  induction t with
  | nil => exact absurd h List.not_mem_nil
  | cons q t ih =>
    rw [Tbl.get]
    split
    · rfl
    · next hq => exact ih ((List.mem_cons.1 h).resolve_left fun e => hq (by rw [e]))

/-- The check of an entry adds none. -/
theorem checkEntry_entries {s : State} {d k : Nat} {e : RosterEntry}
    (h : (Tbl.get (checkEntry s d e).nor.roster.entries k).isSome = true) :
    k = d ∨ (Tbl.get s.nor.roster.entries k).isSome = true := by
  rcases checkEntry_nor s d e with hn | ⟨x, hn⟩ <;> rw [hn] at h
  · exact Or.inr h
  · by_cases hk : k = d
    · exact Or.inl hk
    · dsimp only at h
      rw [Tbl.get_set, if_neg hk] at h
      exact Or.inr h

/-- The roster's entries, checked one after another. -/
def entriesChecked (s : State) (l : List (Nat × RosterEntry)) : State := l.foldl (fun s p => checkEntry s p.1 p.2) s

theorem entriesChecked_service {s : State} {l : List (Nat × RosterEntry)} {k : Nat}
    (h : ((entriesChecked s l).die k).service = true) : (s.die k).service = true := by
  unfold entriesChecked at h
  induction l generalizing s with
  | nil => exact h
  | cons p l ih => exact checkEntry_service (ih h)

theorem entriesChecked_entries {s : State} {l : List (Nat × RosterEntry)} {k : Nat}
    (h : (Tbl.get (entriesChecked s l).nor.roster.entries k).isSome = true) :
    (∃ p ∈ l, p.1 = k) ∨ (Tbl.get s.nor.roster.entries k).isSome = true := by
  unfold entriesChecked at h
  induction l generalizing s with
  | nil => exact Or.inr h
  | cons p l ih =>
    rcases ih h with ⟨q, hq, he⟩ | h
    · exact Or.inl ⟨q, List.mem_cons_of_mem _ hq, he⟩
    · exact (checkEntry_entries h).imp_left fun e => ⟨p, List.mem_cons_self, e.symm⟩

/-- The roster checked against what was found, and written when it has changed. -/
def rosterChecked (s : State) : State :=
  let u := entriesChecked (s.setBot { s.bot with missing := 0, foreign := 0 }) s.nor.roster.entries
  if u.nor.roster = s.nor.roster then u
  else u.setNor (({ u.nor with roster := s.nor.roster } : Nor).putRoster u.nor.roster)

theorem rosterChecked_fch (s : State) : (rosterChecked s).fch =
    (entriesChecked (s.setBot { s.bot with missing := 0, foreign := 0 }) s.nor.roster.entries).fch := by
  unfold rosterChecked
  dsimp only
  split
  · rfl
  · exact State.setNor_fch _ _

theorem rosterChecked_service {s : State} {k : Nat} (h : ((rosterChecked s).die k).service = true) :
    (s.die k).service = true := by
  rw [State.die_congr (rosterChecked_fch s)] at h
  have hbefore := entriesChecked_service h
  rwa [State.die_congr (State.setBot_fch _ _)] at hbefore

theorem rosterChecked_entries {s : State} {k : Nat}
    (h : (Tbl.get (rosterChecked s).nor.roster.entries k).isSome = true) :
    (Tbl.get s.nor.roster.entries k).isSome = true := by
  have hentries : (rosterChecked s).nor.roster.entries =
      (entriesChecked (s.setBot { s.bot with missing := 0, foreign := 0 }) s.nor.roster.entries).nor.roster.entries := by
    unfold rosterChecked
    dsimp only
    split
    · rfl
    · rw [State.setNor_nor]
      rfl
  rw [hentries] at h
  rcases entriesChecked_entries h with ⟨p, hp, rfl⟩ | h
  · exact Tbl.isSome_get_of_mem hp
  · exact h

/-- A die that serves is listed among the dies. -/
theorem State.die_listed {s : State} {d : Nat} (h : (s.die d).service = true) : d ∈ s.fch.dies.map Prod.fst := by
  unfold State.die Tbl.getD at h
  cases hd : Tbl.get s.fch.dies d with
  | none => rw [hd] at h; cases h
  | some y => exact List.mem_map.2 ⟨(d, y), Tbl.mem_of_get hd, rfl⟩

/-- Only dies with an entry are left in service. -/
theorem benchUnlisted_service {s : State} {d : Nat} (h : ((benchUnlisted s).die d).service = true) :
    (s.die d).service = true ∧ (Tbl.get s.nor.roster.entries d).isSome = true := by
  have hfold : ∀ (l : List Nat) (u : State), u.nor = s.nor →
      ((l.foldl (fun s d => if (Tbl.get s.nor.roster.entries d).isSome then s else benchDie s d) u).die d).service = true →
        (u.die d).service = true ∧ (d ∈ l → (Tbl.get s.nor.roster.entries d).isSome = true) := by
    intro l
    induction l with
    | nil => exact fun u _ hu => ⟨hu, fun hm => absurd hm List.not_mem_nil⟩
    | cons a l ih =>
      intro u hn hu
      rw [List.foldl_cons] at hu
      by_cases ha : (Tbl.get u.nor.roster.entries a).isSome = true
      · rw [if_pos ha] at hu
        obtain ⟨hserve, hlist⟩ := ih u hn hu
        refine ⟨hserve, fun hm => (List.mem_cons.1 hm).elim (fun e => ?_) hlist⟩
        rw [e, ← hn]
        exact ha
      · rw [if_neg ha] at hu
        obtain ⟨hserve, hlist⟩ := ih _ ((benchDie_frame (List.Subset.refl _) (Frame.refl _ u)).nor_eq.trans hn) hu
        obtain ⟨hserve, hne⟩ := (benchDie_service u a d).1 hserve
        exact ⟨hserve, fun hm => hlist ((List.mem_cons.1 hm).resolve_left hne)⟩
  obtain ⟨hserve, hlist⟩ := hfold (s.fch.dies.map Prod.fst) s rfl h
  exact ⟨hserve, hlist (State.die_listed hserve)⟩

/-- The count of dies takes channels without one out, and no die. -/
theorem countService_dies (s : State) : (countService s).fch.dies = s.fch.dies := by
  unfold countService
  dsimp only
  rw [State.setBot_fch]
  refine foldl_keeps (fun u => u.fch.dies) (fun u nn => ?_) _ _
  split
  · rfl
  · rfl

theorem countService_inService (s : State) : (countService s).bot.inService =
    ((countService s).fch.dies.filter fun p => p.2.service).length := by
  unfold countService
  dsimp only
  rw [State.setBot_bot, State.setBot_fch]

/-- The lost dies go to PAR, and the geometry to MAP. -/
def lossKept (s : State) (lost : List Nat) : State :=
  let s := s.setPar { s.par with lost := lost.filter fun d => !s.par.lostArm.contains d }
  match s.nor.roster.geom with
  | some g => setGeometry s g (pslcSize s)
  | none => s

theorem lossKept_keeps (s : State) (lost : List Nat) : Frame [.par, .regs] s (lossKept s lost) := by
  have h : Frame [.par, .regs] s (s.setPar { s.par with lost := lost.filter fun d => !s.par.lostArm.contains d }) :=
    State.setPar_frame (by decide) (Frame.refl _ s)
  unfold lossKept
  dsimp only
  split
  · exact setGeometry_frame (by decide) h
  · exact h

/-- The roster checked, its dies counted, and what is lost given to PAR. -/
def rosterSettled (s : State) : State :=
  lossKept (countService (benchUnlisted (rosterChecked s))) (lostByRoster (countService (benchUnlisted (rosterChecked s))))

theorem rosterSettled_inService (s : State) : (rosterSettled s).bot.inService =
    ((rosterSettled s).fch.dies.filter fun p => p.2.service).length := by
  unfold rosterSettled
  rw [(lossKept_keeps _ _).bot_eq, (lossKept_keeps _ _).fch_eq]
  exact countService_inService _

theorem rosterSettled_service {s : State} {d : Nat} (h : ((rosterSettled s).die d).service = true) :
    (s.die d).service = true ∧ (Tbl.get s.nor.roster.entries d).isSome = true := by
  have hdie : (rosterSettled s).die d = (benchUnlisted (rosterChecked s)).die d := by
    unfold rosterSettled
    rw [(lossKept_keeps _ _).die_eq]
    unfold State.die
    rw [countService_dies]
  rw [hdie] at h
  obtain ⟨hserve, hlist⟩ := benchUnlisted_service h
  exact ⟨rosterChecked_service hserve, rosterChecked_entries hlist⟩

theorem rosterCheck_run {s : State} (hp : s.bot.phase = 7) (hv : s.nor.roster.valid = true) :
    ∃ u, Frame [.stp] (rosterSettled s) u ∧ exec .rosterCheck s = .next
      (if (rosterSettled s).bot.inService = 0 then stopStartup (rosterSettled s) 7 0 else toPhase u 8) := by
  refine ⟨if (lostByRoster (countService (benchUnlisted (rosterChecked s)))).isEmpty ∧
      (rosterSettled s).par.lostArm.isEmpty then rosterSettled s
    else (rosterSettled s).setStp { (rosterSettled s).stp with degraded := true },
    Frame.ite (Frame.refl _ _) (State.setStp_frame (List.Subset.refl _) (Frame.refl _ _)), congrArg Host.Outcome.next ?_⟩
  rw [if_neg (by simp [hp, hv])]
  rfl

theorem rosterCheck_settles {s : State} (hp : s.bot.phase = 7) (hv : s.nor.roster.valid = true) :
    ∃ t, exec .rosterCheck s = .next t ∧
      t.bot.inService = (t.fch.dies.filter fun p => p.2.service).length ∧
      (0 < t.bot.inService → t.bot.phase = 8) ∧
      (t.bot.inService = 0 → t.bot.phase = 15 ∧ t.bot.failPhase = 7 ∧ t.shows eBOT_STOPPED) ∧
      (∀ d, (t.die d).service = true → (s.die d).service = true ∧ (Tbl.get s.nor.roster.entries d).isSome = true) ∧
      Frame [.stp, .fch, .par, .nor, .bot, .evl, .pages, .regs] s t := by
  obtain ⟨z, hz, hframe⟩ := execRosterCheck_frame (List.Subset.refl _) (Frame.refl _ s)
  obtain ⟨u, hu, hrun⟩ := rosterCheck_run hp hv
  have hcount := rosterSettled_inService s
  have hserve := fun d => rosterSettled_service (s := s) (d := d)
  generalize rosterSettled s = v at hu hrun hcount hserve
  by_cases hnone : v.bot.inService = 0
  · rw [if_pos hnone] at hrun
    cases hrun.symm.trans hz
    have hkeeps := stopStartup_keeps v 7 0
    obtain ⟨hphase, hfail⟩ := stopStartup_phase v 7 0
    refine ⟨_, hrun, by rw [stopStartup_bot, hkeeps.fch_eq]; exact hcount, fun h => ?_,
      fun _ => ⟨hphase, hfail, stopStartup_shows _ _ _⟩, fun d hd => hserve d (by rwa [hkeeps.die_eq] at hd), hframe⟩
    rw [stopStartup_bot, hnone] at h
    cases h
  · rw [if_neg hnone] at hrun
    cases hrun.symm.trans hz
    have hkeeps := toPhase_keeps u 8
    refine ⟨_, hrun, by rw [toPhase_bot, hkeeps.fch_eq, hu.bot_eq, hu.fch_eq]; exact hcount, fun _ => rfl,
      fun h => ?_, fun d hd => hserve d (by rwa [hkeeps.die_eq, hu.die_eq] at hd), hframe⟩
    rw [toPhase_bot, hu.bot_eq] at h
    exact absurd h hnone

/-! ## Firmware: the slot that runs (R413, R493) -/

theorem slotReason_congr {s t : State} (hf : t.fuses = s.fuses) (hn : t.nor.fw = s.nor.fw) (k : Nat) :
    slotReason t k = slotReason s k := by
  unfold slotReason imageReason State.fwSlot
  rw [hf, hn]

/-- The scan of NOR keeps the firmware slots. -/
theorem readCopies_slots (s : State) (x : NorScan) :
    (readCopies s x).nor.fw = s.nor.fw ∧ (readCopies s x).nor.fwNext = s.nor.fwNext := by
  unfold readCopies
  rw [State.setNor_nor]
  split
  · exact ⟨rfl, rfl⟩
  · split <;> exact ⟨rfl, rfl⟩

/-- What the scan uses of the function table comes from NOR alone. -/
theorem readCopies_fnTable {s t : State} (h : t.nor = s.nor) (x : NorScan) :
    (readCopies t x).nor.fnTable = (readCopies s x).nor.fnTable := by
  unfold readCopies
  rw [State.setNor_nor, State.setNor_nor, h]

/-- NOR scanned, and the image refused that the last commit chose. -/
def fwScanned (s : State) (scan : NorScan) : State :=
  let u := readCopies (restoreLedger s scan.corrupt) scan
  let u := rejectImage u (if (slotReason u u.nor.fwNext).isNone then none else slotReason u u.nor.fwNext)
  u.setBot { u.bot with norOk := u.bot.norOk ||| (if (slotReason u 1).isNone then 4 else 0) |||
    (if (slotReason u 2).isNone then 8 else 0) ||| (if u.nor.roster.valid then 16 else 0) }

theorem fwScanned_keeps (s : State) (scan : NorScan) :
    Frame [.tbs, .qmx, .fns, .nor, .bot, .evl, .pages, .regs] s (fwScanned s scan) :=
  State.setBot_frame (by decide) <| rejectImage_frame (by decide) <| readCopies_frame (by decide) <|
    restoreLedger_frame (by decide) (Frame.refl _ s)

theorem fwScanned_nor (s : State) (scan : NorScan) :
    (fwScanned s scan).nor = (readCopies (restoreLedger s scan.corrupt) scan).nor := by
  unfold fwScanned
  dsimp only
  rw [State.setBot_nor, (rejectImage_leaves _ _).nor_eq]

theorem restoreLedger_keeps (s : State) (corrupt : Nat) :
    Frame [.tbs, .qmx, .fns, .evl, .pages, .regs] s (restoreLedger s corrupt) :=
  restoreLedger_frame (List.Subset.refl _) (Frame.refl _ s)

theorem fwScanned_slots (s : State) (scan : NorScan) :
    (fwScanned s scan).nor.fw = s.nor.fw ∧ (fwScanned s scan).nor.fwNext = s.nor.fwNext := by
  obtain ⟨hfw, hnext⟩ := readCopies_slots (restoreLedger s scan.corrupt) scan
  rw [fwScanned_nor, hfw, hnext, (restoreLedger_keeps s scan.corrupt).nor_eq]
  exact ⟨rfl, rfl⟩

theorem fwScanned_fnTable (s : State) (scan : NorScan) :
    (fwScanned s scan).nor.fnTable = (readCopies s scan).nor.fnTable := by
  rw [fwScanned_nor]
  exact readCopies_fnTable (restoreLedger_keeps s scan.corrupt).nor_eq scan

theorem fwScanned_reason (s : State) (scan : NorScan) (k : Nat) :
    slotReason (fwScanned s scan) k = slotReason s k :=
  slotReason_congr (fwScanned_keeps s scan).fuses_eq (fwScanned_slots s scan).1 k

theorem fwScanned_bot (s : State) (scan : NorScan) :
    ∃ x, (fwScanned s scan).bot = { s.bot with norOk := x } := by
  have h : (rejectImage (readCopies (restoreLedger s scan.corrupt) scan) (if (slotReason (readCopies (restoreLedger s
      scan.corrupt) scan) (readCopies (restoreLedger s scan.corrupt) scan).nor.fwNext).isNone then none else slotReason
      (readCopies (restoreLedger s scan.corrupt) scan)
      (readCopies (restoreLedger s scan.corrupt) scan).nor.fwNext)).bot = s.bot := by
    rw [(rejectImage_leaves _ _).bot_eq, (readCopies_frame (List.Subset.refl _) (Frame.refl _ _)).bot_eq,
      (restoreLedger_keeps s scan.corrupt).bot_eq]
  unfold fwScanned
  dsimp only
  rw [State.setBot_bot, h]
  exact ⟨_, rfl⟩

theorem fwScanned_shows {s : State} {scan : NorScan} (h : slotReason s s.nor.fwNext ≠ none) :
    (fwScanned s scan).shows eKEY_IMAGE_REJECT := by
  have hfw := readCopies_slots (restoreLedger s scan.corrupt) scan
  have hnor := (restoreLedger_keeps s scan.corrupt).nor_eq
  have hreason : slotReason (readCopies (restoreLedger s scan.corrupt) scan)
      (readCopies (restoreLedger s scan.corrupt) scan).nor.fwNext = slotReason s s.nor.fwNext := by
    rw [hfw.2, hnor]
    refine slotReason_congr ?_ (hfw.1.trans (by rw [hnor])) _
    rw [(readCopies_frame (List.Subset.refl _) (Frame.refl _ _)).fuses_eq, (restoreLedger_keeps s _).fuses_eq]
  unfold fwScanned
  dsimp only
  refine State.shows_congr (rejectImage_shows ?_) (State.setBot_pages _ _)
  rw [hreason, if_neg (by simpa using h)]
  exact h

/-! ## Firmware: what a slot that runs brings up (R394, R398, R409-R411, R485, R497) -/

/-- The slot chosen, with the fallback told. -/
def fwChosen (u : State) (k : Nat) : State :=
  let fall := k != u.nor.fwNext
  let v := u.setBot { u.bot with fwSlot := k, fallback := fall }
  if fall then (v.ev eBOT_FALLBACK).raise lBOT_FW_FALLBACK none [p4 k] else v

/-- The cores run, and the entropy source is tested. -/
def fwRunning (u : State) (healthy : Bool) : State :=
  let u := u.setCpx { Cpx.reset with running := 0xFFFF, results := u.cpx.results }
  let u := u.setKey { u.key with health := healthy, requests := 0 }
  if healthy then u.bump rKEY_RESEEDS 1 else (u.ev eKEY_DRBG_FAIL).raise lKEY_DRBG_FAIL none []

/-- Lanes tested, and keys and certificates loaded. -/
def fwLoaded (u : State) (bad : Nat) (lost : List (Nat × Bool)) (x : FwImage) : State :=
  loadIdentity (loadStore (testLanes u bad) lost) x.digest x.keyIndex

/-- The functions restored; phase 5 begins with the first supply and the DRAM's reset. -/
def fwServing (u : State) : State :=
  let u := toPhase (restoreFunctions u) 5
  let u := u.setPins { u.pins with fpwrEn := u.pins.fpwrEn ||| 1, dmcResetN := true }
  u.setBot { u.bot with group := 0, groupClk := u.tbs.clk }

/-- The slot `k` runs. -/
def fwUp (u : State) (k bad : Nat) (lost : List (Nat × Bool)) (healthy : Bool) : State :=
  fwServing (fwLoaded (fwRunning (fwChosen u k) healthy) bad lost (u.fwSlot k))

theorem pickSlot_next {u : State} (h : slotReason u u.nor.fwNext = none) : pickSlot u = some u.nor.fwNext := by
  unfold pickSlot
  dsimp only
  rw [h]
  rfl

theorem pickSlot_other {u : State} (h : slotReason u u.nor.fwNext ≠ none)
    (ho : slotReason u (3 - u.nor.fwNext) = none) : pickSlot u = some (3 - u.nor.fwNext) := by
  unfold pickSlot
  dsimp only
  rw [if_neg (by simpa using h), ho]
  rfl

theorem pickSlot_none {u : State} (h : slotReason u u.nor.fwNext ≠ none)
    (ho : slotReason u (3 - u.nor.fwNext) ≠ none) : pickSlot u = none := by
  unfold pickSlot
  dsimp only
  rw [if_neg (by simpa using h), if_neg (by simpa using ho)]

/-- What follows the scan of NOR: the chosen slot runs, or start-up stops (R493). -/
def fwDecided (u : State) (bad : Nat) (lost : List (Nat × Bool)) (healthy : Bool) : State :=
  match pickSlot u with
  | none => stopStartup (rejectImage u (slotReason u (3 - u.nor.fwNext))) 4 0
  | some k => fwUp u k bad lost healthy

theorem firmwareLoad_run {s : State} {bad : Nat} (lost : List (Nat × Bool)) (healthy : Bool) (scan : NorScan)
    (hp : s.bot.phase = 4) (hb : bad ≤ 12) :
    exec (.firmwareLoad bad lost healthy scan) s = .next (fwDecided (fwScanned s scan) bad lost healthy) :=
  congrArg Host.Outcome.next ((if_neg (by simp [hp]; omega)).trans rfl)

/-- A fold keeps a property that each of its steps keeps. -/
theorem foldl_shows {α : Type} {f : State → α → State} {e : Nat × Nat} (hf : ∀ u x, u.shows e → (f u x).shows e)
    (l : List α) {s : State} (h : s.shows e) : (l.foldl f s).shows e := by
  induction l generalizing s with
  | nil => exact h
  | cons x l ih => exact ih (hf s x h)

section
variable (u : State) (k bad : Nat) (lost : List (Nat × Bool)) (healthy : Bool) (x : FwImage) {e : Nat × Nat}

theorem fwChosen_keeps : Frame [.bot, .evl, .pages, .regs] u (fwChosen u k) := by
  have h : Frame [.bot, .evl, .pages, .regs] u
      (u.setBot { u.bot with fwSlot := k, fallback := k != u.nor.fwNext }) := State.setBot_frame (by decide) (Frame.refl _ u)
  exact Frame.ite (State.raise_frame (by decide) (State.ev_frame (by decide) h)) h

theorem fwChosen_bot : (fwChosen u k).bot = { u.bot with fwSlot := k, fallback := k != u.nor.fwNext } := by
  unfold fwChosen
  dsimp only
  rw [apply_ite State.bot, State.raise_bot, State.ev_bot, State.setBot_bot, ite_self]

/-- A slot that the last commit did not choose shows the fallback. -/
theorem fwChosen_fallback {u : State} {k : Nat} (h : k ≠ u.nor.fwNext) : (fwChosen u k).shows eBOT_FALLBACK := by
  unfold fwChosen
  dsimp only
  rw [if_pos (by simpa using h)]
  exact State.raise_shows (State.ev_shows _ (by decide)) _ _ _

theorem fwChosen_shows {u : State} (h : u.shows e) : (fwChosen u k).shows e := by
  have hset : (u.setBot { u.bot with fwSlot := k, fallback := k != u.nor.fwNext }).shows e :=
    State.shows_congr h (State.setBot_pages _ _)
  unfold fwChosen
  dsimp only
  split
  · exact State.raise_shows (State.ev_shows' hset _) _ _ _
  · exact hset

/-- The cores' state is all that the start of the cores and the entropy test give. -/
theorem fwRunning_keeps : Frame [.cpx, .key, .evl, .pages, .regs] u (fwRunning u healthy) := by
  have h : Frame [.cpx, .key, .evl, .pages, .regs] u
      ((u.setCpx { Cpx.reset with running := 0xFFFF, results := u.cpx.results }).setKey { u.key with
        health := healthy, requests := 0 }) := State.setKey_frame (by decide) (State.setCpx_frame (by decide) (Frame.refl _ u))
  exact Frame.ite (State.bump_frame (by decide) h) (State.raise_frame (by decide) (State.ev_frame (by decide) h))

theorem fwRunning_cpx : (fwRunning u healthy).cpx.running = 0xFFFF := by
  unfold fwRunning
  dsimp only
  rw [apply_ite State.cpx, State.bump_cpx, State.raise_cpx, State.ev_cpx, ite_self, State.setKey_cpx, State.setCpx_cpx]

theorem fwRunning_health : (fwRunning u healthy).key.health = healthy := by
  unfold fwRunning
  dsimp only
  rw [apply_ite State.key, State.bump_key, State.raise_key, State.ev_key, ite_self, State.setKey_key]

theorem fwRunning_shows {u : State} (h : u.shows e) : (fwRunning u healthy).shows e := by
  have hset : ((u.setCpx { Cpx.reset with running := 0xFFFF, results := u.cpx.results }).setKey { u.key with
      health := healthy, requests := 0 }).shows e :=
    State.shows_congr h ((State.setKey_pages _ _).trans (State.setCpx_pages _ _))
  unfold fwRunning
  dsimp only
  split
  · exact State.shows_congr hset (State.bump_pages _ _ _)
  · exact State.raise_shows (State.ev_shows' hset _) _ _ _

theorem testLanes_lanes : (testLanes u bad).cip.lanes = 12 - bad := by
  unfold testLanes
  dsimp only
  rw [apply_ite State.cip, State.raise_cip, State.ev_cip, State.setCip_cip, ite_self]

theorem testLanes_shows {u : State} (h : u.shows e) : (testLanes u bad).shows e := by
  have hset : (u.setCip { u.cip with lanes := 12 - bad }).shows e := State.shows_congr h (State.setCip_pages _ _)
  unfold testLanes
  dsimp only
  split
  · exact hset
  · exact State.raise_shows (State.ev_shows' hset _) _ _ _

/-- Loading the key store writes slots: the entropy source's health stands. -/
theorem loadStore_health : (loadStore u lost).key.health = u.key.health := by
  unfold loadStore
  dsimp only
  refine (foldl_keeps (fun u => u.key.health) (fun v p => ?_) _ _).trans rfl
  split
  · rfl
  · rw [State.raise_key, State.ev_key]
  · split <;> rfl

theorem loadStore_shows {u : State} (h : u.shows e) : (loadStore u lost).shows e := by
  unfold loadStore
  dsimp only
  refine foldl_shows (fun v p hv => ?_) _ (State.shows_congr h (State.setKey_pages _ _))
  split
  · exact hv
  · exact State.raise_shows (State.ev_shows' hv _) _ _ _
  · split
    · exact hv
    · exact State.shows_congr hv (State.setKey_pages _ _)

theorem loadIdentity_health (a b : Nat) : (loadIdentity u a b).key.health = u.key.health := by
  unfold loadIdentity
  dsimp only
  split
  · rfl
  · rw [State.raise_key, State.ev_key]
    rfl

theorem loadIdentity_shows {u : State} (h : u.shows e) (a b : Nat) : (loadIdentity u a b).shows e := by
  unfold loadIdentity
  dsimp only
  split
  · exact State.shows_congr h (State.setKey_pages _ _)
  · exact State.raise_shows (State.ev_shows' (State.shows_congr h (State.setKey_pages _ _)) _) _ _ _

theorem fwLoaded_keeps : Frame [.cip, .key, .evl, .pages, .regs] u (fwLoaded u bad lost x) :=
  loadIdentity_frame (by decide) <| loadStore_frame (by decide) <| testLanes_frame (by decide) <| Frame.refl _ u

theorem fwLoaded_lanes : (fwLoaded u bad lost x).cip.lanes = 12 - bad := by
  have h : Frame [.key, .evl, .pages, .regs] (testLanes u bad) (fwLoaded u bad lost x) :=
    loadIdentity_frame (by decide) <| loadStore_frame (by decide) <| Frame.refl _ _
  rw [h.cip_eq]
  exact testLanes_lanes u bad

theorem fwLoaded_health : (fwLoaded u bad lost x).key.health = u.key.health := by
  unfold fwLoaded
  rw [loadIdentity_health, loadStore_health, (testLanes_frame (List.Subset.refl _) (Frame.refl _ u)).key_eq]

theorem fwLoaded_shows {u : State} (h : u.shows e) : (fwLoaded u bad lost x).shows e :=
  loadIdentity_shows (loadStore_shows lost (testLanes_shows bad h)) _ _

theorem fwServing_keeps : Frame [.ten, .fns, .nor, .bot, .pins, .regs] u (fwServing u) :=
  State.setBot_frame (by decide) <| State.setPins_frame (by decide) <| toPhase_frame (by decide) <|
    restoreFunctions_frame (by decide) (Frame.refl _ u)

end

/-! ## Firmware: the functions (R105, R497) -/

/-- Function 0's entry: the image's harness, with what the table kept of its namespaces and its epoch. -/
def managerEntry (s : State) : FnEntry :=
  { state := .active, bind := .pcie, harness := s.bot.cfg.harness0.getD harnessZero,
    spaces := ((Tbl.get s.nor.fnTable 0).map FnEntry.spaces).getD [],
    epoch := ((Tbl.get s.nor.fnTable 0).map FnEntry.epoch).getD 0 }

theorem get_mapEntries {α β : Type} (g : Nat → α → β) (t : Tbl α) (k : Nat) :
    Tbl.get (List.map (fun p : Nat × α => (p.1, g p.1 p.2)) t) k = (Tbl.get t k).map (g k) := by
  induction t with
  | nil => rfl
  | cons p t ih =>
    rw [List.map_cons, Tbl.get, Tbl.get]
    split
    · next h => rw [h]; rfl
    · exact ih

/-- A function is what its entry gives it, or free. -/
theorem restoreFunctions_fn (s : State) (f : Nat) : ∃ u, (restoreFunctions s).fn f =
    ((Tbl.get (Tbl.set s.nor.fnTable 0 (managerEntry s)) f).map (functionFrom u f)).getD Fn.free := by
  refine ⟨s.setNor { s.nor with fnTable := Tbl.set s.nor.fnTable 0 (managerEntry s) }, ?_⟩
  unfold State.fn Tbl.getD
  rw [← get_mapEntries]
  rfl

theorem restoreFunctions_manager (s : State) : ((restoreFunctions s).fn 0).state = .active ∧
    ((restoreFunctions s).fn 0).bind = .pcie ∧
    ((restoreFunctions s).fn 0).harness = s.bot.cfg.harness0.getD harnessZero := by
  obtain ⟨u, hu⟩ := restoreFunctions_fn s 0
  rw [hu, Tbl.get_set_self]
  exact ⟨rfl, rfl, rfl⟩

/-- DRAINING, FROZEN and SAVED functions come up frozen; others as they were. -/
theorem restoreFunctions_tenant {s : State} {f : Nat} {e : FnEntry} (hf : f ≠ 0) (h : Tbl.get s.nor.fnTable f = some e) :
    ((restoreFunctions s).fn f).bind = e.bind ∧ ((restoreFunctions s).fn f).harness = e.harness ∧
      ((restoreFunctions s).fn f).epoch = e.epoch ∧
      (e.state = .draining ∨ e.state = .frozen ∨ e.state = .saved → ((restoreFunctions s).fn f).state = .frozen) ∧
      (e.state = .active ∨ e.state = .idle → ((restoreFunctions s).fn f).state = e.state) := by
  obtain ⟨u, hu⟩ := restoreFunctions_fn s f
  rw [hu, Tbl.get_set, if_neg hf, h]
  refine ⟨rfl, rfl, rfl, fun hs => ?_, fun hs => ?_⟩
  · show (functionFrom u f e).state = _
    unfold functionFrom
    rcases hs with hs | hs | hs <;> rw [hs]
  · show (functionFrom u f e).state = _
    unfold functionFrom
    rcases hs with hs | hs <;> rw [hs]

theorem restoreFunctions_free {s : State} {f : Nat} (hf : f ≠ 0) (h : Tbl.get s.nor.fnTable f = none) :
    ((restoreFunctions s).fn f).state = .free := by
  obtain ⟨u, hu⟩ := restoreFunctions_fn s f
  rw [hu, Tbl.get_set, if_neg hf, h]
  rfl

theorem fwServing_fn (u : State) (f : Nat) : (fwServing u).fn f = (restoreFunctions u).fn f := by
  have h : Frame [.bot, .pins, .regs] (restoreFunctions u) (fwServing u) :=
    State.setBot_frame (by decide) <| State.setPins_frame (by decide) <| toPhase_frame (by decide) <| Frame.refl _ _
  exact h.fn_eq f

theorem fwServing_bot (u : State) : (fwServing u).bot.phase = 5 ∧ (fwServing u).bot.fwSlot = u.bot.fwSlot := by
  have h := (restoreFunctions_frame (List.Subset.refl _) (Frame.refl _ u)).bot_eq
  unfold fwServing
  dsimp only
  rw [State.setBot_bot, State.setPins_bot, toPhase_bot, h]
  exact ⟨rfl, rfl⟩

theorem fwServing_pins (u : State) :
    (fwServing u).pins.fpwrEn = u.pins.fpwrEn ||| 1 ∧ (fwServing u).pins.dmcResetN = true := by
  have h : (toPhase (restoreFunctions u) 5).pins = u.pins :=
    (toPhase_keeps _ 5).pins_eq.trans (restoreFunctions_frame (List.Subset.refl _) (Frame.refl _ u)).pins_eq
  unfold fwServing
  dsimp only
  rw [State.setBot_pins, State.setPins_pins, h]
  exact ⟨rfl, rfl⟩

/-! ## Firmware: the load (R493) -/

section
variable (u : State) (k bad : Nat) (lost : List (Nat × Bool)) (healthy : Bool)

/-- What a slot that runs has before its functions are restored. -/
def fwReady : State := fwLoaded (fwRunning (fwChosen u k) healthy) bad lost (u.fwSlot k)

theorem fwReady_keeps : Frame [.bot, .cpx, .cip, .key, .evl, .pages, .regs] u (fwReady u k bad lost healthy) :=
  Frame.trans ((fwChosen_keeps u k).mono (by decide)) (Frame.trans ((fwRunning_keeps _ healthy).mono (by decide))
    ((fwLoaded_keeps _ bad lost _).mono (by decide)))

theorem fwReady_bot : (fwReady u k bad lost healthy).bot = { u.bot with fwSlot := k, fallback := k != u.nor.fwNext } := by
  unfold fwReady
  rw [(fwLoaded_keeps _ bad lost _).bot_eq, (fwRunning_keeps _ healthy).bot_eq, fwChosen_bot]

theorem fwUp_hardware : (fwUp u k bad lost healthy).bot.phase = 5 ∧ (fwUp u k bad lost healthy).bot.fwSlot = k ∧
    (fwUp u k bad lost healthy).cip.lanes = 12 - bad ∧ (fwUp u k bad lost healthy).key.health = healthy ∧
    (fwUp u k bad lost healthy).cpx.running = 0xFFFF ∧
    (fwUp u k bad lost healthy).pins.fpwrEn = u.pins.fpwrEn ||| 1 ∧
    (fwUp u k bad lost healthy).pins.dmcResetN = true := by
  have hserve := fwServing_keeps (fwReady u k bad lost healthy)
  obtain ⟨hphase, hslot⟩ := fwServing_bot (fwReady u k bad lost healthy)
  obtain ⟨hpins, hreset⟩ := fwServing_pins (fwReady u k bad lost healthy)
  refine ⟨hphase, hslot.trans (by rw [fwReady_bot]), ?_, ?_, ?_, hpins.trans ?_, hreset⟩
  · exact (congrArg Cip.lanes hserve.cip_eq).trans (fwLoaded_lanes _ _ _ _)
  · refine (congrArg Key.health hserve.key_eq).trans ?_
    unfold fwReady
    rw [fwLoaded_health, fwRunning_health]
  · refine (congrArg Cpx.running hserve.cpx_eq).trans ?_
    unfold fwReady
    rw [(fwLoaded_keeps _ bad lost _).cpx_eq, fwRunning_cpx]
  · rw [(fwReady_keeps u k bad lost healthy).pins_eq]

theorem fwUp_shows {u : State} {e : Nat × Nat} (h : (fwChosen u k).shows e) :
    (fwUp u k bad lost healthy).shows e :=
  State.shows_congr (fwLoaded_shows bad lost _ (fwRunning_shows healthy h)) (fwServing_keeps _).pages_eq

end

/-- Where the chosen slot is refused and the other runs, the fallback and the refusal show. -/
theorem fwUp_fallsBack {s : State} (bad : Nat) (lost : List (Nat × Bool)) (healthy : Bool) (scan : NorScan)
    (h : slotReason s s.nor.fwNext ≠ none) (ho : slotReason s (3 - s.nor.fwNext) = none) :
    (fwUp (fwScanned s scan) (3 - s.nor.fwNext) bad lost healthy).shows eBOT_FALLBACK ∧
      (fwUp (fwScanned s scan) (3 - s.nor.fwNext) bad lost healthy).shows eKEY_IMAGE_REJECT := by
  obtain ⟨-, hnext⟩ := fwScanned_slots s scan
  have hother : 3 - s.nor.fwNext ≠ (fwScanned s scan).nor.fwNext := fun e => by
    rw [hnext] at e
    rw [e] at ho
    exact h ho
  exact ⟨fwUp_shows _ _ _ _ (fwChosen_fallback hother),
    fwUp_shows _ _ _ _ (fwChosen_shows _ (fwScanned_shows h))⟩

section
variable {s : State} {bad : Nat} (lost : List (Nat × Bool)) (healthy : Bool) (scan : NorScan) (hp : s.bot.phase = 4)
  (hb : bad ≤ 12)
include hp hb

/-- The slot that runs: the one that the last commit chose, or the other with the fallback shown. -/
theorem firmwareLoad_chooses {k : Nat} (hk : (slotReason s s.nor.fwNext = none ∧ k = s.nor.fwNext) ∨
      (slotReason s s.nor.fwNext ≠ none ∧ slotReason s (3 - s.nor.fwNext) = none ∧ k = 3 - s.nor.fwNext)) :
    exec (.firmwareLoad bad lost healthy scan) s = .next (fwUp (fwScanned s scan) k bad lost healthy) := by
  obtain ⟨-, hnext⟩ := fwScanned_slots s scan
  have hpick : pickSlot (fwScanned s scan) = some k := by
    rcases hk with ⟨hfit, rfl⟩ | ⟨hunfit, hfit, rfl⟩
    · rw [pickSlot_next (by rw [hnext, fwScanned_reason]; exact hfit), hnext]
    · rw [pickSlot_other (by rw [hnext, fwScanned_reason]; exact hunfit) (by rw [hnext, fwScanned_reason]; exact hfit),
        hnext]
  rw [firmwareLoad_run lost healthy scan hp hb]
  unfold fwDecided
  rw [hpick]

theorem firmwareLoad_settles :
    (∀ k, (slotReason s s.nor.fwNext = none ∧ k = s.nor.fwNext) ∨
        (slotReason s s.nor.fwNext ≠ none ∧ slotReason s (3 - s.nor.fwNext) = none ∧ k = 3 - s.nor.fwNext) →
      ∃ t, exec (.firmwareLoad bad lost healthy scan) s = .next t ∧ t.bot.phase = 5 ∧ t.bot.fwSlot = k ∧
        (slotReason s s.nor.fwNext ≠ none → t.shows eBOT_FALLBACK ∧ t.shows eKEY_IMAGE_REJECT) ∧
        t.cip.lanes = 12 - bad ∧ t.key.health = healthy ∧ t.cpx.running = 0xFFFF ∧
        t.pins.fpwrEn = s.pins.fpwrEn ||| 1 ∧ t.pins.dmcResetN = true ∧ (t.fn 0).state = .active ∧ (t.fn 0).bind = .pcie ∧
        (t.fn 0).harness = s.bot.cfg.harness0.getD harnessZero ∧
        (∀ f e, f ≠ 0 → Tbl.get (readCopies s scan).nor.fnTable f = some e → (t.fn f).bind = e.bind ∧ (t.fn f).harness = e.harness ∧
          (t.fn f).epoch = e.epoch ∧
          (e.state = .draining ∨ e.state = .frozen ∨ e.state = .saved → (t.fn f).state = .frozen) ∧
          (e.state = .active ∨ e.state = .idle → (t.fn f).state = e.state)) ∧
        (∀ f, f ≠ 0 → Tbl.get (readCopies s scan).nor.fnTable f = none → (t.fn f).state = .free)) ∧
    (slotReason s s.nor.fwNext ≠ none → slotReason s (3 - s.nor.fwNext) ≠ none →
      ∃ t, exec (.firmwareLoad bad lost healthy scan) s = .next t ∧ t.bot.phase = 15 ∧ t.bot.failPhase = 4 ∧
        t.shows eBOT_STOPPED) := by
  refine ⟨fun k hk => ?_, fun h ho => ?_⟩
  · have hready := fwReady_keeps (fwScanned s scan) k bad lost healthy
    have hfn : ∀ f, (fwUp (fwScanned s scan) k bad lost healthy).fn f =
        (restoreFunctions (fwReady (fwScanned s scan) k bad lost healthy)).fn f := fun f => fwServing_fn _ f
    have htable : (fwReady (fwScanned s scan) k bad lost healthy).nor.fnTable = (readCopies s scan).nor.fnTable := by
      rw [hready.nor_eq, fwScanned_fnTable]
    obtain ⟨x, hbot⟩ := fwScanned_bot s scan
    have hcfg : (fwReady (fwScanned s scan) k bad lost healthy).bot.cfg = s.bot.cfg := by
      rw [fwReady_bot, hbot]
    obtain ⟨hphase, hslot, hlanes, hhealth, hcpx, hpins, hreset⟩ := fwUp_hardware (fwScanned s scan) k bad lost healthy
    obtain ⟨hstate, hbind, hharness⟩ := restoreFunctions_manager (fwReady (fwScanned s scan) k bad lost healthy)
    refine ⟨_, firmwareLoad_chooses lost healthy scan hp hb hk, hphase, hslot, fun h => ?_, hlanes, hhealth, hcpx,
      hpins.trans (by rw [(fwScanned_keeps s scan).pins_eq]), hreset, by rw [hfn]; exact hstate, by rw [hfn]; exact hbind,
      by rw [hfn, hharness, hcfg], fun f e hf he => ?_, fun f hf he => ?_⟩
    · obtain ⟨-, ho, rfl⟩ := hk.resolve_left fun hfit => h hfit.1
      exact fwUp_fallsBack bad lost healthy scan h ho
    · rw [hfn]
      exact restoreFunctions_tenant hf (by rw [htable]; exact he)
    · rw [hfn]
      exact restoreFunctions_free hf (by rw [htable]; exact he)
  · obtain ⟨-, hnext⟩ := fwScanned_slots s scan
    have hpick : pickSlot (fwScanned s scan) = none :=
      pickSlot_none (by rw [hnext, fwScanned_reason]; exact h) (by rw [hnext, fwScanned_reason]; exact ho)
    have hrun := firmwareLoad_run lost healthy scan hp hb
    unfold fwDecided at hrun
    rw [hpick] at hrun
    obtain ⟨hphase, hfail⟩ := stopStartup_phase (rejectImage (fwScanned s scan)
      (slotReason (fwScanned s scan) (3 - (fwScanned s scan).nor.fwNext))) 4 0
    exact ⟨_, hrun, hphase, hfail, stopStartup_shows _ _ _⟩

end

/-! ## The statement (O58) -/

/-- Settles O58, phase by phase: what a phase does is one equation, its end is `toPhase` or `stopStartup`. -/
theorem startUpPhasesComplete : Obligations.StartUpPhasesComplete := by
  refine ⟨fun s reversed shorted a b hp hf hx ha hb => configurationImageLoad_settles hp hf hx reversed shorted ha hb,
    fun s p ha ht hu hn hs hd => pcieLinkTraining_settles ha ht hu hn hs hd,
    fun s bad lost healthy scan hp hb => firmwareLoad_settles lost healthy scan hp hb,
    fun s d pins hp => ⟨fun gib top ha hr ht => ⟨dramPhase_trains pins hp ha hr ht, dramPhase_busFails pins hp ha hr ht⟩,
      dramPhase_unlisted pins hp⟩,
    fun s r k n ppr hr hf hl => ⟨dramFill_fills ppr hr hf hl, dramFill_stops ppr hr hf⟩,
    fun s found pins margins hp => flashGroupStart_settles found pins margins hp,
    fun s hp hv => rosterCheck_settles hp hv⟩

end Sys2Proof.Machine
end

