-- ==== Sys2Proof/Proofs/ReadResults.lean ====
section
/-! PROOFS. Results of the read engines (O49): how a read job and its granule end, what a decode and a decryption leave,
poisoned blocks, the threshold tracker, the injection and stalled engine jobs. -/

-- one proof after another: many at once would each hold a thread of the compiler
set_option Elab.async false

namespace Sys2Proof.Machine

open Sys2Proof

/-! ## Read jobs (R259, R270) -/

theorem State.job?_id {s : State} {id : Nat} {j : RdJob} (h : s.job? id = some j) : j.id = id := by
  simpa using List.find?_some h

theorem State.job?_congr {s t : State} (h : t.stp.reads = s.stp.reads) (id : Nat) : t.job? id = s.job? id := by
  unfold State.job?
  rw [h]

theorem dropJob_job? (s : State) (id : Nat) : (dropJob s id).job? id = none := by
  simp [dropJob, State.job?, List.find?_filter]

theorem State.updJob_job? {s : State} {id : Nat} {j : RdJob} {g : RdJob → RdJob} (h : s.job? id = some j)
    (hg : ∀ i, (g i).id = i.id) : (s.updJob id g).job? id = some (g j) := by
  have hsame : ((fun i : RdJob => i.id == id) ∘ fun i => if i.id = id then g i else i) = fun i => i.id == id := by
    funext i
    dsimp only [Function.comp]
    split
    · rw [hg]
    · rfl
  have hfind : s.stp.reads.find? (fun i => i.id == id) = some j := h
  simp only [State.job?, State.updJob, State.setStp_stp, List.find?_map, hsame, hfind, Option.map_some,
    if_pos (State.job?_id h)]

/-! ## Engine jobs (R266-R268) -/

theorem engDrop_keeps (s : State) (e : EngJob) : Frame [.stp, .cip] s (engDrop s e) :=
  engDrop_frame (List.Subset.refl _) (Frame.refl _ s)

/-- A job that leaves takes no other with it, and no read. -/
theorem engDrop_stp (s : State) (e : EngJob) :
    (engDrop s e).stp = { s.stp with engs := s.stp.engs.filter fun k => k.id != e.id } := by
  unfold engDrop
  dsimp only
  split <;> rfl

theorem engDrop_tagStale (s : State) (e : EngJob) (g : JobTag) : tagStale (engDrop s e) g = tagStale s g := by
  unfold tagStale
  rw [(engDrop_keeps s e).fn_eq]

theorem engDrop_space (s : State) (e : EngJob) (ns : Nat) : (engDrop s e).space ns = s.space ns :=
  State.space_congr (by rw [(engDrop_keeps s e).map_eq]) ns

theorem engDrop_readKey (s : State) (e : EngJob) (j : RdJob) : readKey (engDrop s e) j = readKey s j := by
  unfold readKey State.keySlot
  rw [(engDrop_keeps s e).key_eq]

theorem State.updEng_reads (s : State) (id : Nat) (g : EngJob → EngJob) : (s.updEng id g).stp.reads = s.stp.reads :=
  rfl

theorem engRun_reads (s : State) (e : EngJob) : (engRun s e).stp.reads = s.stp.reads := by
  unfold engRun
  dsimp only
  rw [State.updEng_reads]
  split <;> rfl

theorem engStall_reads (s : State) (id : Nat) : (engStall s id).stp.reads = s.stp.reads := by
  unfold engStall
  split
  · rfl
  · rw [State.ev_stp, State.updEng_reads]

theorem engPreempt_reads (s : State) (v : EngJob) : (engPreempt s v).stp.reads = s.stp.reads := by
  unfold engPreempt
  dsimp only
  rw [engStall_reads]
  split
  · rw [State.updEng_reads, State.bump_stp, State.setCip_stp, State.bump_stp]
  · rw [State.updEng_reads, apply_ite State.stp, State.bump_stp, State.bump_stp, ite_self]

theorem engTry_reads (s : State) (e : EngJob) : (engTry s e).stp.reads = s.stp.reads := by
  unfold engTry
  split
  · rw [engRun_reads]
    rfl
  · split
    · split
      · rw [engStall_reads, State.ev_stp, State.bump_stp]
      · rw [engRun_reads, engPreempt_reads]
    · exact engStall_reads _ _

/-- A new engine job leaves the reads as they are, whether it runs, preempts or stalls. -/
theorem engOffer_reads (s : State) (k : EngKind) (rank : Nat) (g : JobTag) (o : Owner) (long : Bool) :
    (engOffer s k rank g o long).stp.reads = s.stp.reads := by
  unfold engOffer
  dsimp only
  split
  · rfl
  · rw [engTry_reads]
    rfl

/-! ## How a granule ends -/

/-- In `t` read job `id` is gone, and the granule of job `j` in its command stands at `p`. -/
def JobEnds (t : State) (id : Nat) (j : RdJob) (p : ReadPart) : Prop :=
  t.job? id = none ∧ ∃ c, t.cmd? j.cmd = some c ∧ c.parts[j.part]? = some p

theorem JobEnds.congr {s t : State} {id : Nat} {j : RdJob} {p : ReadPart} (h : JobEnds s id j p)
    (hr : t.stp.reads = s.stp.reads) (hq : t.qmx.cmds = s.qmx.cmds) : JobEnds t id j p := by
  obtain ⟨hj, c, hc, hp⟩ := h
  exact ⟨(State.job?_congr hr id).trans hj, c, (State.cmd?_congr hq _).trans hc, hp⟩

section
variable {s : State} {j : RdJob} {c : Cmd} {p : ReadPart}

/-- Of the granules of a command, the job's own takes the change. -/
theorem setPart_cmd? (hc : s.cmd? j.cmd = some c) (hp : c.parts[j.part]? = some p) (g : ReadPart → ReadPart) :
    ∃ c', (setPart s j g).cmd? j.cmd = some c' ∧ c'.parts[j.part]? = some (g p) := by
  have hseq : c.seq = j.cmd := State.cmd?_seq hc
  refine ⟨_, State.updCmd_cmd? _ hc hseq, ?_⟩
  simp [List.getElem?_map, List.getElem?_zipIdx, hp]

theorem dropJob_setPart_ends (hc : s.cmd? j.cmd = some c) (hp : c.parts[j.part]? = some p) (g : ReadPart → ReadPart)
    (id : Nat) : JobEnds (dropJob (setPart s j g) id) id j (g p) :=
  ⟨dropJob_job? _ _, setPart_cmd? hc hp g⟩

/-- A granule that leaves carries its plaintext, and its error stays as it was. -/
theorem deliver_ends (hc : s.cmd? j.cmd = some c) (hp : c.parts[j.part]? = some p) (b : Block) (x : Info) :
    ∃ p', JobEnds (deliver s j b x) j.id j p' ∧ p'.done = some b ∧ p'.err = p.err :=
  ⟨_, dropJob_setPart_ends hc hp _ _, rfl, rfl⟩

end

/-! ## Poisoned blocks (R291, R293, R563) -/

section
variable {s : State} {ns lba mga step : Nat}

theorem poisonBlock_keeps : Frame [.map, .wbf, .ldc, .par, .evl, .pages, .regs] s (poisonBlock s ns lba mga step) :=
  poisonBlock_frame (List.Subset.refl _) (Frame.refl _ s)

theorem poisonSwap_keeps : Frame [.map, .wbf, .par, .regs] s (swapMga s ns lba mga ⟨.poison, 0⟩) :=
  swapMga_frame (List.Subset.refl _) (Frame.refl _ s)

/-- A poisoning clears no event bit. -/
theorem poisonBlock_shows_of {e : Nat × Nat} (h : s.shows e) : (poisonBlock s ns lba mga step).shows e := by
  unfold poisonBlock
  split
  · exact h
  · split
    · exact State.ev_shows' (State.shows_congr h (State.setLdc_pages _ _)) _
    · exact State.raise_shows (State.shows_congr h (by rw [State.setLdc_pages, poisonSwap_keeps.pages_eq])) _ _ _

/-- A block that still names the MGA, with a fine unit free where its swap needs one, is poisoned: it counts as a media
error, and the ledger hears of it. -/
theorem poisonBlock_poisons (hb : blockEntry s ns lba = ⟨.media, mga⟩) (hf : swapNeeds s ns lba ≤ fineFree s) :
    (poisonBlock s ns lba mga step).ldc = { s.ldc with mediaErrors := s.ldc.mediaErrors + 1 } ∧
      s.tells (poisonBlock s ns lba mga step) lLDC_POISON none [p2 ns, p6 lba, p5 mga, p4 step] := by
  unfold poisonBlock
  rw [if_neg (not_not_intro hb), if_neg (Nat.not_lt.mpr hf)]
  dsimp only
  have hldc : (swapMga s ns lba mga ⟨.poison, 0⟩).ldc = s.ldc := poisonSwap_keeps.ldc_eq
  exact ⟨by rw [State.raise_ldc, State.setLdc_ldc, hldc],
    State.raise_tells (by rw [State.setLdc_tbs, poisonSwap_keeps.tbs_eq]) _ _ _⟩

end

theorem poisonWait_poisons {s : State} {r : PoisonReq} (hr : s.ldc.poison = [r])
    (hb : blockEntry s r.ns r.lba = ⟨.media, r.mga⟩) (hf : swapNeeds s r.ns r.lba ≤ fineFree s) :
    ∃ t, exec .poisonWait s = .next t ∧ t.ldc.poison = [] ∧ t.ldc.mediaErrors = s.ldc.mediaErrors + 1 ∧
      s.tells t lLDC_POISON none [p2 r.ns, p6 r.lba, p5 r.mga, p4 r.step] := by
  obtain ⟨hldc, htells⟩ := poisonBlock_poisons (s := s.setLdc { s.ldc with poison := [] }) (step := r.step) hb hf
  have hrun : exec .poisonWait s =
      .next (poisonBlock (s.setLdc { s.ldc with poison := [] }) r.ns r.lba r.mga r.step) := by
    show execPoisonWait s = _
    unfold execPoisonWait
    rw [hr]
    rfl
  exact ⟨_, hrun, by rw [hldc]; rfl, by rw [hldc]; rfl, htells⟩

theorem reverseSearch_poisons {s : State} {m ns lba : Nat} (hm : s.ldc.reverse = [m])
    (hn : blocksNaming s m = [(ns, lba)]) (hb : blockEntry s ns lba = ⟨.media, m⟩)
    (hf : swapNeeds s ns lba ≤ fineFree s) :
    ∃ t, exec .reverseSearch s = .next t ∧ t.ldc.reverse = [] ∧ t.ldc.mediaErrors = s.ldc.mediaErrors + 1 ∧
      s.tells t lLDC_POISON none [p2 ns, p6 lba, p5 m, p4 6] := by
  obtain ⟨hldc, htells⟩ := poisonBlock_poisons (s := s.setLdc { s.ldc with reverse := [] }) (step := 6) hb hf
  have hn' : blocksNaming (s.setLdc { s.ldc with reverse := [] }) m = [(ns, lba)] := hn
  have hrun : exec .reverseSearch s = .next (poisonBlock (s.setLdc { s.ldc with reverse := [] }) ns lba m 6) := by
    show execReverseSearch s = _
    unfold execReverseSearch
    dsimp only
    rw [hm, List.foldl_cons, List.foldl_nil, hn', List.foldl_cons, List.foldl_nil]
  exact ⟨_, hrun, by rw [hldc]; rfl, by rw [hldc]; rfl, htells⟩

/-! ## DECODE_DONE: the result counts (R283, R298) -/

/-- The state in which a decoder's result for member `m` is judged: engine job `e` has left, an armed injection has been
applied, and the decode is counted. -/
def atDecode (s : State) (e : EngJob) (m : MemberRead) : State := (injectNow (engDrop s e) m).bump rLDC_DECODED 1

theorem injectNow_keeps (s : State) (m : MemberRead) : Frame [.ldc, .pages] s (injectNow s m) :=
  injectNow_frame (List.Subset.refl _) (Frame.refl _ s)

section
variable {s : State} {e : EngJob} {m : MemberRead}

theorem atDecode_keeps : Frame [.stp, .cip, .ldc, .pages, .regs] s (atDecode s e m) :=
  State.bump_frame (by decide) <| injectNow_frame (by decide) <| engDrop_frame (by decide) <| Frame.refl _ s

theorem atDecode_reads : (atDecode s e m).stp.reads = s.stp.reads := by
  unfold atDecode
  rw [State.bump_stp, (injectNow_keeps _ m).stp_eq, engDrop_stp]

theorem atDecode_rd_ne {f : Fld} (h : fieldKey f 0 0 ≠ fieldKey rLDC_DECODED 0 0) :
    (atDecode s e m).rd f = s.rd f := by
  unfold atDecode
  rw [State.bump_rd_ne _ _ h, (injectNow_keeps _ m).rd_eq, (engDrop_keeps s e).rd_eq]

/-- The place of an MGA in its row comes from the layout and the figures of the geometry alone. -/
theorem atDecode_rowPlace (mga : Nat) : rowPlace (atDecode s e m) mga = rowPlace s mga := by
  unfold rowPlace spanOf substSpan baseSpan State.span mgaPos mgaParts slotsDie wordLines puGran nativeBlocks
  rw [atDecode_keeps.par_eq, atDecode_rd_ne (f := rMAP_SLOTS_DIE) (by decide),
    atDecode_rd_ne (f := rMAP_WLS) (by decide), atDecode_rd_ne (f := rMAP_BITS) (by decide),
    atDecode_rd_ne (f := rMAP_PLANES) (by decide), atDecode_rd_ne (f := rMAP_PU_GRAN) (by decide),
    atDecode_rd_ne (f := rMAP_BLOCKS) (by decide)]

end

/-! ## DECODE_DONE: equations of the command -/

section
variable {s : State} {id pos : Nat} {j : RdJob} {e : EngJob} {m : MemberRead}

/-- A decode with a zero syndrome of a codeword on media: the engine job leaves, and the codeword is checked. -/
theorem decodeDone_ok (bits ones : Nat) {x : Info} (hj : s.job? id = some j)
    (he : engFor s .hard (.read id pos) = some e) (hs : tagStale s j.tag = false)
    (hm : j.members.find? (fun m => m.pos == pos) = some m) (hx : Tbl.get s.fch.media m.mga = some x) :
    exec (.decodeDone id pos (.ok bits ones)) s = .next (decoded (atDecode s e m) j m x true bits ones) := by
  have hmedia : (injectNow (engDrop s e) m).fch.media = s.fch.media := by
    rw [(injectNow_keeps _ m).fch_eq, (engDrop_keeps s e).fch_eq]
  show execDecodeDone id pos (.ok bits ones) s = _
  unfold execDecodeDone
  simp [hj, he, hm, engDrop_tagStale, hs, hmedia, hx, atDecode]

/-- A decode that fails in a soft decoder is a failed step. -/
theorem decodeDone_fail (k : Int) (hj : s.job? id = some j) (hh : engFor s .hard (.read id pos) = none)
    (he : engFor s .soft (.read id pos) = some e) (hs : tagStale s j.tag = false)
    (hm : j.members.find? (fun m => m.pos == pos) = some m) :
    exec (.decodeDone id pos (.fail k)) s = .next (stepFail (atDecode s e m) j m false k) := by
  show execDecodeDone id pos (.fail k) s = _
  unfold execDecodeDone
  simp [hj, hh, he, hm, engDrop_tagStale, hs, atDecode]

theorem decodeDone_stale (r : DecResult) (hj : s.job? id = some j) (he : engFor s .hard (.read id pos) = some e)
    (hs : tagStale s j.tag = true) : exec (.decodeDone id pos r) s = .next (dropJob (engDrop s e) id) := by
  show execDecodeDone id pos r s = _
  unfold execDecodeDone
  simp [hj, he, engDrop_tagStale, hs]

theorem decodeDone_gone (r : DecResult) (hj : s.job? id = none) (he : engFor s .hard (.read id pos) = some e) :
    exec (.decodeDone id pos r) s = .next (engDrop s e) := by
  show execDecodeDone id pos r s = _
  unfold execDecodeDone
  simp [hj, he]

/-- A target with its CRC and its address right passes the checks (R277, R295). -/
theorem decoded_direct {x : Info} (here : Bool) (bits ones : Nat) (hk : j.kind = .direct) (hc : infoCrcOk x = true)
    (hl : (infoMetadata x).lga = j.lba) (hn : (infoMetadata x).ns = j.ns) :
    decoded s j m x here bits ones = jobResult (countBits s m bits ones) j x bits := by
  unfold decoded
  rw [if_neg (by simp [hc]), if_pos hk, if_pos ⟨hl, hn⟩]

theorem countBits_keeps (s : State) (m : MemberRead) (bits ones : Nat) :
    Frame [.ldc, .regs] s (countBits s m bits ones) :=
  countBits_frame (List.Subset.refl _) (Frame.refl _ s)

end

/-! ## A direct read that decodes (R268, R388) -/

section
variable {s : State} {j : RdJob} {x : Info} {sp : Space}

theorem jobResult_plain (bits : Nat) (hpad : (infoMetadata x).pad = false) (hsp : s.space j.ns = some sp)
    (hmode : sp.mode = .none) : jobResult s j x bits =
      deliver (s.updJob j.id fun j => { j with result := some x, corrected := bits }) j (infoData x) x := by
  have hsp' : (s.updJob j.id fun j => { j with result := some x, corrected := bits }).space j.ns = some sp := hsp
  unfold jobResult
  simp only [hpad, hsp', hmode, if_pos, Bool.false_eq_true, if_false]

/-- An encrypted granule waits for a lane: its job keeps the codeword, and its command stands. -/
theorem jobResult_encrypted (bits : Nat) (hpad : (infoMetadata x).pad = false) (hsp : s.space j.ns = some sp)
    (hmode : sp.mode ≠ .none) {id : Nat} (hj : s.job? id = some j) :
    (jobResult s j x bits).job? id = some { j with result := some x, corrected := bits } ∧
      (jobResult s j x bits).qmx = s.qmx := by
  obtain rfl := State.job?_id hj
  have hsp' : (s.updJob j.id fun j => { j with result := some x, corrected := bits }).space j.ns = some sp := hsp
  unfold jobResult
  simp only [hpad, hsp', if_neg hmode, Bool.false_eq_true, if_false]
  refine ⟨(State.job?_congr (engOffer_reads _ _ _ _ _ _) j.id).trans ?_,
    (engOffer_frame (List.Subset.refl _) (Frame.refl _ _)).qmx_eq⟩
  exact State.updJob_job? (g := fun j => { j with result := some x, corrected := bits }) hj fun _ => rfl

end

theorem decodeDone_direct {s : State} {id pos : Nat} (bits ones : Nat) {j : RdJob} {e : EngJob} {m : MemberRead}
    {x : Info} {c : Cmd} {p : ReadPart} {sp : Space} (hj : s.job? id = some j)
    (he : engFor s .hard (.read id pos) = some e) (hs : tagStale s j.tag = false) (hk : j.kind = .direct)
    (hm : j.members.find? (fun m => m.pos == pos) = some m) (hx : Tbl.get s.fch.media m.mga = some x)
    (hcrc : infoCrcOk x = true) (hl : (infoMetadata x).lga = j.lba) (hn : (infoMetadata x).ns = j.ns)
    (hpad : (infoMetadata x).pad = false) (hsp : s.space j.ns = some sp) (hc : s.cmd? j.cmd = some c)
    (hp : c.parts[j.part]? = some p) :
    (sp.mode = .none →
      ∃ t c' p', exec (.decodeDone id pos (.ok bits ones)) s = .next t ∧ t.job? id = none ∧ t.cmd? j.cmd = some c' ∧
        c'.parts[j.part]? = some p' ∧ p'.done = some (infoData x) ∧ p'.err = p.err) ∧
    (sp.mode ≠ .none →
      ∃ t j', exec (.decodeDone id pos (.ok bits ones)) s = .next t ∧ t.job? id = some j' ∧ j'.result = some x ∧
        j'.corrected = bits ∧ t.cmd? j.cmd = some c) := by
  have hrun := decodeDone_ok bits ones hj he hs hm hx
  rw [decoded_direct true bits ones hk hcrc hl hn] at hrun
  have hcount := countBits_keeps (atDecode s e m) m bits ones
  have hjob : (countBits (atDecode s e m) m bits ones).job? id = some j :=
    (State.job?_congr (by rw [hcount.stp_eq, atDecode_reads]) id).trans hj
  have hspace : (countBits (atDecode s e m) m bits ones).space j.ns = some sp :=
    (State.space_congr (by rw [hcount.map_eq, atDecode_keeps.map_eq]) _).trans hsp
  have hcmd : (countBits (atDecode s e m) m bits ones).cmd? j.cmd = some c :=
    (State.cmd?_congr (by rw [hcount.qmx_eq, atDecode_keeps.qmx_eq]) _).trans hc
  refine ⟨fun hmode => ?_, fun hmode => ?_⟩
  · rw [jobResult_plain bits hpad hspace hmode] at hrun
    obtain ⟨p', ⟨hgone, c', hc', hp'⟩, hdone, herr⟩ := deliver_ends
      (s := (countBits (atDecode s e m) m bits ones).updJob j.id fun j => { j with result := some x, corrected := bits })
      hcmd hp (infoData x) x
    exact ⟨_, c', p', hrun, State.job?_id hj ▸ hgone, hc', hp', hdone, herr⟩
  · obtain ⟨hwaits, hqmx⟩ := jobResult_encrypted bits hpad hspace hmode hjob
    exact ⟨_, _, hrun, hwaits, rfl, rfl, (State.cmd?_congr (by rw [hqmx]) _).trans hcmd⟩

/-! ## The last step fails (R287, R291, R292) -/

theorem unrecovered_ends {s : State} {j : RdJob} {c : Cmd} {p : ReadPart} (hc : s.cmd? j.cmd = some c)
    (hp : c.parts[j.part]? = some p) :
    JobEnds (unrecovered s j) j.id j { p with err := some (2, 0x81) } ∧ (unrecovered s j).shows eLDC_UNRECOVERED := by
  have hcmd : ((s.bump rLDC_UNRECOVERED 1).ev eLDC_UNRECOVERED).cmd? j.cmd = some c :=
    (State.cmd?_congr (by rw [State.ev_qmx, State.bump_qmx]) _).trans hc
  have hends := dropJob_setPart_ends hcmd hp (fun p => { p with err := some (2, 0x81) }) j.id
  have hshows : ((s.bump rLDC_UNRECOVERED 1).ev eLDC_UNRECOVERED).shows eLDC_UNRECOVERED := State.ev_shows _ (by decide)
  refine ⟨hends.congr ?_ ?_, poisonBlock_shows_of (State.shows_congr hshows rfl)⟩
  · exact congrArg Stp.reads poisonBlock_keeps.stp_eq
  · exact congrArg Qmx.cmds poisonBlock_keeps.qmx_eq

/-- A direct read without a row ends at its failed step 4. -/
theorem stepFail_last {s : State} {j : RdJob} {m : MemberRead} (k : Int) (hk : j.kind = .direct) (hm : m.step = 4)
    (hr : rowPlace s j.mga = none) : stepFail s j m false k = unrecovered s j := by
  have hnext : nextStep s j m.step false = 6 := by simp [nextStep, hm, hr]
  unfold stepFail
  rw [if_neg (show ¬ m.step = 1 by omega), if_pos hk]
  unfold ladderFail
  rw [hnext]
  rfl

theorem decodeDone_lastStepFails {s : State} {id pos : Nat} {j : RdJob} {e : EngJob} {m : MemberRead} {c : Cmd}
    {p : ReadPart} (k : Int) (hj : s.job? id = some j) (hh : engFor s .hard (.read id pos) = none)
    (he : engFor s .soft (.read id pos) = some e) (hs : tagStale s j.tag = false) (hk : j.kind = .direct)
    (hm : j.members.find? (fun m => m.pos == pos) = some m) (h4 : m.step = 4) (hr : rowPlace s j.mga = none)
    (hc : s.cmd? j.cmd = some c) (hp : c.parts[j.part]? = some p) :
    ∃ t c' p', exec (.decodeDone id pos (.fail k)) s = .next t ∧ t.job? id = none ∧ t.cmd? j.cmd = some c' ∧
      c'.parts[j.part]? = some p' ∧ p'.err = some (2, 0x81) ∧ t.shows eLDC_UNRECOVERED := by
  have hrun := decodeDone_fail k hj hh he hs hm
  rw [stepFail_last k hk h4 ((atDecode_rowPlace j.mga).trans hr)] at hrun
  have hcmd : (atDecode s e m).cmd? j.cmd = some c := (State.cmd?_congr (by rw [atDecode_keeps.qmx_eq]) _).trans hc
  obtain ⟨⟨hgone, c', hc', hp'⟩, hshows⟩ := unrecovered_ends hcmd hp
  exact ⟨_, c', _, hrun, State.job?_id hj ▸ hgone, hc', hp', rfl, hshows⟩

/-! ## Results of a job that is gone or stale (R119) -/

theorem decodeDone_unwanted {s : State} {id pos : Nat} (r : DecResult) {e : EngJob}
    (he : engFor s .hard (.read id pos) = some e) :
    (s.job? id = none → ∃ t, exec (.decodeDone id pos r) s = .next t ∧
      (∀ k, k ∈ t.stp.engs ↔ k ∈ s.stp.engs ∧ k.id ≠ e.id) ∧ Frame [.stp, .cip] s t) ∧
    (∀ j, s.job? id = some j → tagStale s j.tag = true →
      ∃ t, exec (.decodeDone id pos r) s = .next t ∧ t.job? id = none ∧ Frame [.stp, .cip] s t) := by
  refine ⟨fun hj => ⟨_, decodeDone_gone r hj he, fun k => ?_, engDrop_keeps s e⟩, fun j hj hs =>
    ⟨_, decodeDone_stale r hj he hs, dropJob_job? _ _, dropJob_frame (by decide) (engDrop_keeps s e)⟩⟩
  rw [engDrop_stp]
  simp [List.mem_filter]

/-! ## CIP_DECRYPT_DONE (R386, R388, R390) -/

section
variable {s : State} {id : Nat} {j : RdJob} {e : EngJob} {x : Info} {sp : Space}

/-- The state after a GCM tag that does not verify: the event is counted, shown and raised. -/
def tagFailed (s : State) (j : RdJob) : State :=
  ((s.bump rCIP_TAG_FAIL 1).ev eCIP_TAG_FAIL).raise lCIP_TAG_FAIL (some j.tag.fn) [p2 j.ns, p6 j.lba, p5 j.mga]

variable (hj : s.job? id = some j) (he : engFor s .cip (.read id 254) = some e) (hs : tagStale s j.tag = false)
  (hx : j.result = some x) (hsp : s.space j.ns = some sp)
include hj he hs hx hsp

theorem cipDecryptDone_xts (ok : Bool) (hmode : sp.mode = .xts) : exec (.cipDecryptDone id ok) s =
    .next (deliver ((engDrop s e).bump rCIP_GRAN_DEC 1) j (Config.xtsDec (readKey s j) j.lba (infoData x)) x) := by
  show execCipDecryptDone id ok s = _
  unfold execCipDecryptDone
  simp only [hj, he, engDrop_tagStale, hs, hx, engDrop_space, hsp, hmode, engDrop_readKey, Bool.false_eq_true, if_false]

theorem cipDecryptDone_gcm (ok : Bool) (hmode : sp.mode = .gcm) : exec (.cipDecryptDone id ok) s = .next (
    if ok then deliver ((engDrop s e).bump rCIP_GRAN_DEC 1) j
      (Config.granDec (readKey s j) j.lba (infoMetadata x).wseq (infoData x)) x
    else dropJob (setPart (tagFailed (engDrop s e) j) j fun p => { p with err := some (7, 1) }) id) := by
  show execCipDecryptDone id ok s = _
  unfold execCipDecryptDone
  simp only [hj, he, engDrop_tagStale, hs, hx, engDrop_space, hsp, hmode, engDrop_readKey, Bool.false_eq_true,
    if_false, tagFailed]

end

/-- The tag failure leaves the commands, shows its event, and the ledger hears of it. -/
theorem tagFailed_leaves {s t : State} (ht : t.tbs = s.tbs) (j : RdJob) : (tagFailed t j).qmx = t.qmx ∧
    (tagFailed t j).shows eCIP_TAG_FAIL ∧
    s.tells (tagFailed t j) lCIP_TAG_FAIL (some j.tag.fn) [p2 j.ns, p6 j.lba, p5 j.mga] := by
  refine ⟨?_, State.raise_shows (State.ev_shows _ (by decide)) _ _ _, State.raise_tells ?_ _ _ _⟩
  · unfold tagFailed
    rw [State.raise_qmx, State.ev_qmx, State.bump_qmx]
  · rw [State.ev_tbs, State.bump_tbs, ht]

theorem cipDecryptDone_settles {s : State} {id : Nat} {j : RdJob} {e : EngJob} {x : Info} {sp : Space} {c : Cmd}
    {p : ReadPart} (ok : Bool) (hj : s.job? id = some j) (he : engFor s .cip (.read id 254) = some e)
    (hs : tagStale s j.tag = false) (hx : j.result = some x) (hsp : s.space j.ns = some sp)
    (hc : s.cmd? j.cmd = some c) (hp : c.parts[j.part]? = some p) :
    (sp.mode = .xts → ∃ t c' p', exec (.cipDecryptDone id ok) s = .next t ∧ t.job? id = none ∧
      t.cmd? j.cmd = some c' ∧ c'.parts[j.part]? = some p' ∧
      p'.done = some (Config.xtsDec (readKey s j) j.lba (infoData x))) ∧
    (sp.mode = .gcm → ok = true → ∃ t c' p', exec (.cipDecryptDone id ok) s = .next t ∧ t.job? id = none ∧
      t.cmd? j.cmd = some c' ∧ c'.parts[j.part]? = some p' ∧
      p'.done = some (Config.granDec (readKey s j) j.lba (infoMetadata x).wseq (infoData x))) ∧
    (sp.mode = .gcm → ok = false → ∃ t c' p', exec (.cipDecryptDone id ok) s = .next t ∧ t.job? id = none ∧
      t.cmd? j.cmd = some c' ∧ c'.parts[j.part]? = some p' ∧ p'.err = some (7, 1) ∧ p'.done = p.done ∧
      t.shows eCIP_TAG_FAIL ∧ s.tells t lCIP_TAG_FAIL (some j.tag.fn) [p2 j.ns, p6 j.lba, p5 j.mga]) := by
  have hid : j.id = id := State.job?_id hj
  have hcount : ((engDrop s e).bump rCIP_GRAN_DEC 1).cmd? j.cmd = some c :=
    (State.cmd?_congr (by rw [State.bump_qmx, (engDrop_keeps s e).qmx_eq]) _).trans hc
  refine ⟨fun hmode => ?_, fun hmode hok => ?_, fun hmode hok => ?_⟩
  · obtain ⟨p', ⟨hgone, c', hc', hp'⟩, hdone, -⟩ :=
      deliver_ends hcount hp (Config.xtsDec (readKey s j) j.lba (infoData x)) x
    exact ⟨_, c', p', cipDecryptDone_xts hj he hs hx hsp ok hmode, hid ▸ hgone, hc', hp', hdone⟩
  · obtain ⟨p', ⟨hgone, c', hc', hp'⟩, hdone, -⟩ :=
      deliver_ends hcount hp (Config.granDec (readKey s j) j.lba (infoMetadata x).wseq (infoData x)) x
    have hrun := cipDecryptDone_gcm hj he hs hx hsp ok hmode
    rw [if_pos hok] at hrun
    exact ⟨_, c', p', hrun, hid ▸ hgone, hc', hp', hdone⟩
  · obtain ⟨hqmx, hshows, htells⟩ := tagFailed_leaves (engDrop_keeps s e).tbs_eq j
    have hcmd : (tagFailed (engDrop s e) j).cmd? j.cmd = some c :=
      (State.cmd?_congr (by rw [hqmx, (engDrop_keeps s e).qmx_eq]) _).trans hc
    obtain ⟨hgone, c', hc', hp'⟩ := dropJob_setPart_ends hcmd hp (fun p => { p with err := some (7, 1) }) id
    have hrun := cipDecryptDone_gcm hj he hs hx hsp ok hmode
    rw [if_neg (by simp [hok])] at hrun
    exact ⟨_, c', _, hrun, hgone, hc', hp', rfl, rfl, State.shows_congr hshows rfl, State.tells_congr htells rfl⟩

/-! ## The threshold tracker (R286) -/

theorem threshOf_setThresh (s : State) (die entry : Nat) (x : ThreshEntry) :
    threshOf (s.setThresh die entry x) die entry = x := Tbl.getD_put_self _ _ _ _

theorem trackerReview_moves {s : State} {die entry : Nat} {x : ThreshEntry} (hx : threshOf s die entry = x)
    (h1 : 1 ≤ entry) (h2 : entry ≤ 252) (hb : 0 < x.bits) (hw : s.rd rLDC_TRACK_WINDOW ≤ x.bits) :
    ∃ t y, exec (.trackerReview die entry) s = .next t ∧ threshOf t die entry = y ∧ y.bits = 0 ∧ y.ones = 0 ∧
      y.offsets = x.offsets.map (fun o => clampStep (o +
        (if 6 * x.bits < 10 * x.ones then 1 else if 10 * x.ones < 4 * x.bits then -1 else 0))) ∧
      Frame [.ldc] s t := by
  subst hx
  have hgathered : ¬ (entry = 0 ∨ entry > 252 ∨ (threshOf s die entry).bits = 0 ∨
      (threshOf s die entry).bits < s.rd rLDC_TRACK_WINDOW) := by omega
  have hrun : exec (.trackerReview die entry) s = _ := congrArg Host.Outcome.next (if_neg hgathered)
  exact ⟨_, _, hrun, threshOf_setThresh _ _ _ _, rfl, rfl, rfl,
    State.setThresh_frame (List.Subset.refl _) (Frame.refl _ s)⟩

/-! ## Injection (R298, R530) -/

theorem ldcInjArm_arms {s : State} (p : Path) {w : Dword} (hw : w.getLsbD 10 = true) :
    ((s.page 18).sealBit = false → ∃ t, exec (.ldcInjArm p w) s = .next t ∧ t.ldc.injArmed = true) ∧
    ((s.page 18).sealBit = true → ∃ t, exec (.ldcInjArm p w) s = .next t ∧ t.ldc = s.ldc) := by
  have hstored : Frame [.gate, .paths, .regs] s (storeWord (s.wakePage 18) p 18 0x80 w) :=
    storeWord_frame (by decide) ((State.wakePage_keeps s 18).mono (by decide))
  have hpage := hstored.page_eq 18
  refine ⟨fun hseal => ?_, fun hseal => ?_⟩
  · have hrun : exec (.ldcInjArm p w) s = _ := congrArg Host.Outcome.next (if_pos (by rw [hpage, hw, hseal]; rfl))
    exact ⟨_, hrun, rfl⟩
  · have hrun : exec (.ldcInjArm p w) s = _ := congrArg Host.Outcome.next (if_neg (by rw [hpage, hseal]; simp))
    exact ⟨_, hrun, hstored.ldc_eq⟩

/-! ## Stalled engine jobs (R268) -/

theorem engStallPromote_promotes {s : State} {id : Nat} {j : EngJob}
    (hj : s.stp.engs.find? (fun j => j.id == id) = some j) (hs : j.state = .stalled) (hp : j.promoted = false)
    (ha : s.rd rSTP_ENG_AGE_LIMIT ≤ j.age) :
    ∃ t, exec (.engStallPromote id) s = .next t ∧
      (∃ k ∈ t.stp.engs, k.id = id ∧ k.promoted = true ∧ k.rank = 0 ∧ k.state = .stalled) ∧
      t.stp.engs.length = s.stp.engs.length ∧ Frame [.stp, .regs] s t := by
  have hid : j.id = id := by simpa using List.find?_some hj
  have hrun : exec (.engStallPromote id) s =
      .next ((s.updEng id fun j => { j with promoted := true, rank := 0 }).bump rSTP_ENG_PROMOTED 1) := by
    show execEngStallPromote id s = _
    unfold execEngStallPromote
    rw [hj]
    exact congrArg Host.Outcome.next (if_pos ⟨hs, by simp [hp], ha⟩)
  refine ⟨_, hrun, ⟨{ j with promoted := true, rank := 0 }, ?_, hid, rfl, rfl, hs⟩, ?_,
    State.bump_frame (by decide) (State.updEng_frame (by decide) (Frame.refl _ s))⟩
  · rw [State.bump_stp]
    exact List.mem_map.mpr ⟨j, List.mem_of_find?_eq_some hj, if_pos hid⟩
  · rw [State.bump_stp]
    exact List.length_map _

/-! ## The statement (O49) -/

/-- Settles O49, command by command: a result of the engines by the equation of its command and the end of its granule,
the other commands by what they write. -/
theorem readsAreDecodedAndEnd : Obligations.ReadsAreDecodedAndEnd :=
  ⟨fun _ _ _ bits ones _ _ _ _ _ _ _ hj he hs hk hm hx hcrc hl hn hpad hsp hc hp =>
      decodeDone_direct bits ones hj he hs hk hm hx hcrc hl hn hpad hsp hc hp,
    fun _ _ _ _ _ _ _ _ k hj hh he hs hk hm h4 hr hc hp => decodeDone_lastStepFails k hj hh he hs hk hm h4 hr hc hp,
    fun _ _ _ r _ he => decodeDone_unwanted r he,
    fun _ _ _ _ _ _ _ _ ok hj he hs hx hsp hc hp => cipDecryptDone_settles ok hj he hs hx hsp hc hp,
    fun _ _ hr hb hf => poisonWait_poisons hr hb hf,
    fun _ _ _ _ hm hn hb hf => reverseSearch_poisons hm hn hb hf,
    fun _ _ _ _ hx h1 h2 _ hb hw => trackerReview_moves hx h1 h2 hb hw,
    fun _ p _ hw => ldcInjArm_arms p hw,
    fun _ _ _ hj hs hp ha => engStallPromote_promotes hj hs hp ha⟩

end Sys2Proof.Machine
end

