-- ==== Sys2Proof/Proofs/RawReads.lean ====
section
/-! PROOFS. Raw media reads and full timelines (O46): a die whose list of segments is full takes no descriptor, and the
command stays as it was fetched. -/

-- one proof after another: many at once would each hold a thread of the compiler
set_option Elab.async false

namespace Sys2Proof.Machine

open Sys2Proof

/-! ## Commands of the manager, and commands that do not wait -/

theorem State.adminCmd_body {s : State} {n : Nat} {c : Cmd} (h : s.adminCmd n = some c) : c.body = .undecoded := by
  unfold State.adminCmd at h
  split at h
  · cases h
  · split at h
    · next hc =>
      cases h
      simp only [Bool.and_eq_true, beq_iff_eq] at hc
      exact hc.1.2
    · cases h

theorem State.managerOnly_eq {s : State} {n : Nat} {c : Cmd} (h : s.adminCmd n = some c) (h0 : c.fn = 0)
    (act : Cmd → State) : s.managerOnly n act = act c :=
  (State.admin_eq h _).trans (if_neg (not_not_intro h0))

/-- An admin command whose opcode is not yet decoded does not wait for the end of its action. -/
theorem State.not_waits_self {s : State} {n : Nat} {c : Cmd} (h : s.adminCmd n = some c) : ¬ s.waits s n := by
  rintro ⟨-, -, hmap⟩
  have hc : c ∈ s.qmx.cmds := List.mem_of_find?_eq_some (State.adminCmd_cmd? h)
  have hfix : (if c.seq = n then { c with body := .adminWait } else c) = c :=
    List.map_inj_left.mp (hmap.symm.trans (List.map_id _).symm) c hc
  rw [if_pos (State.cmd?_seq (State.adminCmd_cmd? h))] at hfix
  have hwait : IoBody.adminWait = c.body := congrArg Cmd.body hfix
  rw [State.adminCmd_body h] at hwait
  cases hwait

/-! ## Full timelines (R246) -/

/-- Nothing more is placed on a die whose list of segments is full (R246). -/
theorem placeDesc_of_timeline_full {s : State} {d : Nat} (h : 16 ≤ (s.die d).timeline.length) (x : Desc) :
    placeDesc s d x = none := if_pos (Or.inr h)

/-- A RAW_MEDIA_READ that nothing refuses, of word line 0 of a native block, finds a full timeline: the command stays as
it was fetched, with no descriptor (R246, R328). -/
theorem rawMediaRead_of_timeline_full {s : State} {seq : Nat} {dw10 dw11 : Dword} {c : Cmd}
    (h : s.adminCmd seq = some c) (h0 : c.fn = 0) (hen : s.rd rPAR_RAW_EN = 1) (hdie : dw10.toNat < 1024)
    (hblock : dw11.toNat < 2 ^ 14) (hserves : dieServes s dw10.toNat = true) (hnative : dw11.toNat < nativeBlocks s)
    (hwl : 0 < wordLines s) (hbits : 0 < s.rd rMAP_BITS) (hplanes : 0 < s.rd rMAP_PLANES)
    (herase : underErase s (s.die dw10.toNat) dw11.toNat = false) (hroom : 0 < ringRoom s dw10.toNat)
    (hfits : windowFits s dw10.toNat 1 2 = true) (hfull : 16 ≤ (s.die dw10.toNat).timeline.length) :
    exec (.rawMediaRead seq dw10 dw11) s = .next s := by
  have hplace (x : Desc) : placeDesc (windowPlaced s dw10.toNat) dw10.toNat x = none :=
    placeDesc_of_timeline_full (s := windowPlaced s dw10.toNat) hfull x
  -- the Dwords name the die and the block, and nothing else
  have hdie' : dw10.toNat % 1024 = dw10.toNat ∧ dw10.toNat / 8192 % 2 = 0 ∧ dw10.toNat < 16384 := by omega
  have hblock' : dw11.toNat % 16384 = dw11.toNat ∧ dw11.toNat / 16384 % 2048 = 0 ∧
      dw11.toNat / 33554432 % 8 = 0 ∧ dw11.toNat / 268435456 % 8 = 0 ∧ dw11.toNat < 2147483648 := by omega
  show execRawMediaRead seq dw10 dw11 s = _
  unfold execRawMediaRead
  rw [State.managerOnly_eq h h0]
  simp [hen, hdie', hblock', hserves, hnative, hwl.ne', hbits.ne', hplanes.ne', herase, hroom.ne', hfits, maxTime,
    hplace]

/-! ## The statement (O46) -/

/-- The manager's Raw Media Read of block 0 of die 0. -/
def rawReadCmd : Cmd := { formatCmd with op := 0xCA }

/-- A die in service with 16 READs in its ring and a segment of its timeline for each. -/
def fullDie : Die :=
  { Die.absent with
    present := true
    service := true
    ring := (List.range 16).map fun i => (i, { Desc.blank with typ := .read, count := 1 })
    next := 16
    timeline := (List.range 16).map fun i =>
      { slot := i, typ := .read, start := i + 1, nomEnd := i + 2, reinFrom := 0, reins := 0, rank := 0 } }

theorem fullDie_ring_free {i : Nat} (h : 64 ≤ i) : Tbl.get fullDie.ring i = none :=
  Option.eq_none_iff_forall_ne_some.mpr fun x hx => by
    obtain ⟨j, hj, hji⟩ := List.mem_map.mp (Tbl.mem_of_get hx)
    have hlt : j < 16 := List.mem_range.mp hj
    have hkey : j = i := congrArg Prod.fst hji
    omega

/-- Raw Media Read is enabled and fetched, die 0 serves, its turn lasts for four strides, and its list of segments is
full. -/
def timelineFull : State :=
  ((((((State.reset.wr rMAP_BLOCKS 1024).wr rMAP_WLS 128).wr rMAP_PLANES 4).wr rMAP_BITS 3).setStp
    { Stp.reset with turnLen := 4 }).setFch
      { Fch.reset with chans := [(0, { Chan.empty with inService := true })], dies := [(0, fullDie)] }).setQmx
        { Qmx.reset with cmds := [rawReadCmd] }

/-- Refutes O46, by its last clause: a ring of 64 entries may have room while the timeline of 16 segments is full. Then
Raw Media Read places no descriptor, and its command is left undecoded and does not begin to wait (R246, R328). -/
theorem not_redundancyRowsComplete : ¬ Obligations.RedundancyRowsComplete := by
  rintro ⟨-, -, -, -, -, -, -, -, -, -, -, hRaw⟩
  have hcmd : timelineFull.adminCmd 0 = some rawReadCmd := by decide
  have hserves : dieServes timelineFull 0 = true := by decide
  have hnative : 0 < nativeBlocks timelineFull := by decide
  have hwl : 0 < wordLines timelineFull := by decide
  have hbits : 0 < timelineFull.rd rMAP_BITS := by decide
  have hplanes : 0 < timelineFull.rd rMAP_PLANES := by decide
  have herase : underErase timelineFull (timelineFull.die 0) 0 = false := rfl
  have hroom : 0 < ringRoom timelineFull 0 := by decide
  have hfits : windowFits timelineFull 0 1 2 = true := by decide
  obtain ⟨t, k, x, ht, hwaits, -⟩ := (hRaw timelineFull 0 0 0 rawReadCmd hcmd rfl).2 rfl (by decide) (by decide) hserves
    hnative hwl hbits hplanes herase hroom hfits fun _ => fullDie_ring_free
  have hkept : exec (.rawMediaRead 0 0 0) timelineFull = .next timelineFull :=
    rawMediaRead_of_timeline_full hcmd rfl rfl (by decide) (by decide) hserves hnative hwl hbits hplanes herase hroom
      hfits (by decide)
  cases hkept.symm.trans ht
  exact State.not_waits_self hcmd hwaits

end Sys2Proof.Machine
end

