-- ==== Sys2Proof/Proofs/StaleLines.lean ====
section
/-! PROOFS. Stale lines of slots that a read transfers from (O47): the slot of a line of write data in FILLING whose
command is gone waits for its readers before it is FREE. -/

-- one proof after another: many at once would each hold a thread of the compiler
set_option Elab.async false

namespace Sys2Proof.Machine

open Sys2Proof

/-! ## Slots and their readers (R174) -/

@[simp] theorem State.setSlot_slot_self (s : State) (i : Nat) (x : Slot) : (s.setSlot i x).slot i = x := by
  simp [State.slot, State.setSlot]

/-- To give a slot up takes no reader from it: one that a read transfers from is not FREE until the transfer ends. -/
theorem State.freeSlot_readers (s : State) (i : Nat) : ((s.freeSlot i).slot i).readers = (s.slot i).readers := by
  unfold State.freeSlot
  dsimp only
  split
  · next h => rw [State.setSlot_slot_self, h]; rfl
  · rw [State.setSlot_slot_self]

@[simp] theorem readLine_slot (s : State) (line i : Nat) : (readLine s line).slot i = s.slot i := rfl

/-! ## Stale lines (R364) -/

/-- A line of write data of a command that is gone is read and not delivered, and its slot is given up (R364, R120). -/
theorem dramLineCheckFail_of_stale {s : State} {x : LineFail} {qtr : BitVec 4} {lcrc tag : Bool} {raw : BitVec 640}
    (passes : Bool) (hrun : s.dmc.frozen = false) (hline : lineExists s x = true)
    (hqueue : x.line ∉ (s.subch (lineSc x.line)).writes)
    (hcheck : lineCheck x.line raw (lineOwner s x) = (qtr, lcrc, tag)) (hstale : lineStale s x raw = true) :
    exec (.dramLineCheckFail x qtr lcrc tag passes raw) s = .next ((readLine s x.line).freeSlot x.slot) := by
  show execDramLineCheckFail x qtr lcrc tag passes raw s = _
  unfold execDramLineCheckFail
  rw [if_neg (by simp [hrun, hline, hqueue, hcheck]), if_pos hstale]

/-! ## The statement (O47) -/

/-- A data line of slot 0. -/
def slotZeroLine : LineFail := { line := 0, region := .writeBuffer, slot := 0, descriptor := false, fn := 0 }

/-- Slot 0 is in FILLING, with a read that transfers from it. Its command is gone, and its function has left the epoch
of the command. -/
def readWhileFilling : State :=
  ((State.reset.wr rDMC_SIZE_GIB 64).setFn 0 { Fn.free with epoch := 1 }).setSlot 0
    { Slot.free with state := .filling, readers := 1 }

/-- Refutes O47, by its clause of stale lines: the statement says that the slot is FREE at once, and a slot with a
reader is only marked, since freeing waits for READERS = 0 (R174, R382). -/
theorem not_memoryFailuresAreHandled : ¬ Obligations.MemoryFailuresAreHandled := by
  rintro ⟨hLine, -⟩
  have hrun : readWhileFilling.dmc.frozen = false := rfl
  have hline : lineExists readWhileFilling slotZeroLine = true := by decide
  have hqueue : slotZeroLine.line ∉ (readWhileFilling.subch (lineSc slotZeroLine.line)).writes := by decide
  have hstale : lineStale readWhileFilling slotZeroLine 0#640 = true := by
    rw [lineStale, lineTag, BitVec.extractLsb'_zero]
    decide
  obtain ⟨t, ht, hfree, -⟩ := (hLine readWhileFilling slotZeroLine _ _ _ 0#640 hrun hline hqueue rfl).2 false hstale
  have hmarked := dramLineCheckFail_of_stale false hrun hline hqueue rfl hstale
  cases hmarked.symm.trans ht
  have hreader : (readWhileFilling.slot 0).readers = 0 :=
    calc (readWhileFilling.slot 0).readers
      _ = (((readLine readWhileFilling 0).freeSlot 0).slot 0).readers := by
        rw [State.freeSlot_readers, readLine_slot]
      _ = Slot.free.readers := congrArg Slot.readers hfree
  exact absurd hreader (by decide)

end Sys2Proof.Machine
end

