-- ==== Sys2Proof/Proofs/Fuses.lean ====
section
/-! PROOFS. The whole block (O6, O7): what every command keeps of the parts it does not act on, and the fuses, which no
command un-blows. -/

namespace Sys2Proof.Machine

open Sys2Proof

/-- Settles O7: the frames of the meanings, one for each arm of the dispatch. -/
theorem everyCommandKeepsOtherParts : Obligations.EveryCommandKeepsOtherParts :=
  fun _ _ _ => exec_frame_of_next

/-- No command un-blows a fuse: NVME_READY alone blows fuses and keeps those that are blown (`State.setFuses_keep`), and
the rest leave the fuses alone (R414, R477). -/
theorem otp_notMem_parts (c : Instr) : Part.otp ∉ c.parts := by
  cases c <;> exact of_decide_eq_true rfl

theorem exec_keeps_fuses {c : Instr} {s t : State} (h : exec c s = .next t) :
    (∀ i, s.fuses.revoked.getLsbD i = true → t.fuses.revoked.getLsbD i = true) ∧ s.fuses.svn ≤ t.fuses.svn :=
  exec_frame_of_next h .otp (otp_notMem_parts c)

/-- Settles O6, by whether the queue is empty: the command at its front keeps the blown fuses by its frame. -/
theorem fusesNeverComeBack : Obligations.FusesNeverComeBack := by
  unfold Obligations.FusesNeverComeBack
  intro s t ht
  cases hq : s.pending with
  | nil =>
    cases (step_of_pending_nil hq).symm.trans ht
    exact ⟨Nat.le_refl _, fun _ h => h⟩
  | cons c q => exact (exec_keeps_fuses ((step_of_pending_cons hq).symm.trans ht)).symm

end Sys2Proof.Machine
end

