-- ==== Sys2Proof/Proofs/RaisedEvents.lean ====
section
/-! PROOFS. Raised events (O10): what EVENT_RAISE of a code of the ledger leaves, and the place of a direct event. -/

namespace Sys2Proof.Machine

open Sys2Proof

section
variable {s : State} {p code : Nat} {func : Option Nat} {payload : List (Nat × Nat)} {addr : Option Nat}

theorem exec_eventRaise (hc : ledgerCodes.contains code = true) :
    exec (.eventRaise p code func payload addr) s = .next (s.raiseAt p code func payload addr) := by
  show execEventRaise p code func payload addr s = _
  rw [execEventRaise, if_pos hc]

/-- A direct record joins the queue, whatever its bucket holds (R506, R509). -/
theorem accept_direct_mem_queue {u : State} {r : LRec} (hr : r.direct = true) (hn : u.evl.norStopped = false) :
    r ∈ (accept u code r).evl.queue := by
  rw [accept, if_pos hr]
  simp [enqueue, hn, hr]

/-- Before the event is screened, at most its capture has changed (R529). -/
theorem State.raiseAt_accepts (hr : s.evl.restored = true) :
    ∃ u : State, u.evl = s.evl ∧ s.raiseAt p code func payload addr = accept u code (recordNow s code func payload) := by
  unfold State.raiseAt
  dsimp only
  by_cases hsev : severity code ≥ 3
  · rw [if_pos hsev, if_pos (by rw [State.capture_evl, hr])]
    exact ⟨_, State.capture_evl _ _ _ _ _, rfl⟩
  · rw [if_neg hsev, if_pos hr]
    exact ⟨s, rfl, rfl⟩

theorem eventRaise_direct_queued (hd : isDirect code = true) (hr : s.evl.restored = true)
    (hn : s.evl.norStopped = false) :
    recordNow s code func payload ∈ (s.raiseAt p code func payload addr).evl.queue := by
  obtain ⟨u, hu, hrun⟩ := State.raiseAt_accepts (p := p) (code := code) (func := func) (payload := payload)
    (addr := addr) hr
  rw [hrun]
  exact accept_direct_mem_queue hd (by rw [hu, hn])

end

/-- Settles O10: the ledger hears of every event that it raises, and a direct one is queued. -/
theorem raisedEventIsRecordedOrCounted : Obligations.RaisedEventIsRecordedOrCounted := by
  unfold Obligations.RaisedEventIsRecordedOrCounted
  refine ⟨fun s p code func payload addr hc => ?_, fun s p code func payload addr hc hd hr hn => ?_⟩
  · exact ⟨_, exec_eventRaise hc, State.raiseAt_tells rfl _ _ _ _ _, exec_frame_of_next (exec_eventRaise hc)⟩
  · exact ⟨_, _, exec_eventRaise hc, eventRaise_direct_queued hd hr hn, recordNow_of rfl _ _ _⟩

end Sys2Proof.Machine
end

