-- ==== Sys2Proof/Proofs/PageHeaders.lean ====
section
/-! PROOFS. Page headers (O43): what a run of event sets leaves of the header of a page, then one rule for each command on
a header. -/

namespace Sys2Proof.Machine

open Sys2Proof

/-! ## Event sets (R528) -/

theorem State.evt_page_self (s : State) (p b : Nat) : (s.evt p b).page p =
    { s.page p with evtRaw := (s.page p).evtRaw ||| BitVec.ofNat 32 (2 ^ b)
                    evtCount := min ((s.page p).evtCount + 1) 0xFFFFFFFF } := State.setPage_page_self _ _ _

theorem State.evt_page_ne (s : State) {p q : Nat} (h : q ≠ p) (b : Nat) : (s.evt p b).page q = s.page q := by
  unfold State.evt
  rw [State.setPage_page, if_neg h]

theorem twoPow_getLsbD {i : Nat} (hi : i < 32) (b : Nat) :
    (BitVec.ofNat 32 (2 ^ b)).getLsbD i = decide (i = b) := by
  rw [BitVec.getLsbD_ofNat, Nat.testBit_two_pow, decide_eq_true hi, Bool.true_and]
  exact decide_eq_decide.2 eq_comm

/-- An event set raises its own bit and no other. -/
theorem State.evt_evtRaw (s : State) (p b : Nat) {i : Nat} (hi : i < 32) :
    ((s.evt p b).page p).evtRaw.getLsbD i = ((s.page p).evtRaw.getLsbD i || decide (i = b)) := by
  rw [State.evt_page_self]
  exact (BitVec.getLsbD_or).trans (by rw [twoPow_getLsbD hi])

/-- The events of a list of bits that a mask has, set one by one. -/
def setBits (p : Nat) (mask : Dword) (l : List Nat) (s : State) : State :=
  l.foldl (fun s b => if mask.getLsbD b then s.evt p b else s) s

theorem setBits_cons (p : Nat) (mask : Dword) (b : Nat) (l : List Nat) (s : State) :
    setBits p mask (b :: l) s = setBits p mask l (if mask.getLsbD b then s.evt p b else s) := rfl

section
variable (p : Nat) (mask : Dword)

theorem setBits_page_ne {q : Nat} (h : q ≠ p) (l : List Nat) (s : State) :
    (setBits p mask l s).page q = s.page q := by
  induction l generalizing s with
  | nil => rfl
  | cons b l ih =>
    rw [setBits_cons, ih]
    split
    · exact s.evt_page_ne h b
    · rfl

theorem setBits_page_self (l : List Nat) (s : State) :
    ∃ r n, (setBits p mask l s).page p = { s.page p with evtRaw := r, evtCount := n } := by
  induction l generalizing s with
  | nil => exact ⟨_, _, rfl⟩
  | cons b l ih =>
    obtain ⟨r, n, h⟩ := ih (if mask.getLsbD b then s.evt p b else s)
    refine ⟨r, n, ?_⟩
    rw [setBits_cons, h]
    split
    · rw [State.evt_page_self]
    · rfl

theorem setBits_evtRaw {i : Nat} (hi : i < 32) (l : List Nat) (s : State) :
    ((setBits p mask l s).page p).evtRaw.getLsbD i =
      (decide (i ∈ l) && mask.getLsbD i || (s.page p).evtRaw.getLsbD i) := by
  induction l generalizing s with
  | nil => simp [setBits]
  | cons b l ih =>
    rw [setBits_cons, ih]
    by_cases hib : i = b
    · subst hib
      cases hm : mask.getLsbD i <;> simp [s.evt_evtRaw p i hi]
    · cases hm : mask.getLsbD b <;> simp [s.evt_evtRaw p b hi, hib]

theorem setBits_evtCount (l : List Nat) (s : State) (h : (s.page p).evtCount ≤ 0xFFFFFFFF) :
    ((setBits p mask l s).page p).evtCount =
      min ((s.page p).evtCount + (l.filter fun b => mask.getLsbD b).length) 0xFFFFFFFF := by
  induction l generalizing s with
  | nil => exact (Nat.min_eq_left h).symm
  | cons b l ih =>
    rw [setBits_cons]
    cases hm : mask.getLsbD b
    · rw [if_neg (by simp), ih s h, List.filter_cons_of_neg (by simp [hm])]
    · rw [if_pos rfl, ih _ (by rw [State.evt_page_self]; exact Nat.min_le_right _ _),
        List.filter_cons_of_pos (by simp [hm]), State.evt_page_self, List.length_cons]
      dsimp only
      omega

end

theorem evtBits_le (p : Nat) : evtBits p ≤ 12 := by
  unfold evtBits
  split
  case h_22 => split <;> omega
  all_goals omega

section
variable (s : State) (p : Nat) (mask : Dword)

theorem setEvents_eq : setEvents s p mask = setBits p mask (List.range (evtBits p)) s := rfl

theorem setEvents_page_ne {q : Nat} (h : q ≠ p) : (setEvents s p mask).page q = s.page q :=
  setBits_page_ne p mask h _ s

theorem setEvents_page_self : ∃ r n, (setEvents s p mask).page p = { s.page p with evtRaw := r, evtCount := n } :=
  setBits_page_self p mask _ s

theorem setEvents_evtRaw {b : Nat} (hb : b < evtBits p) : ((setEvents s p mask).page p).evtRaw.getLsbD b =
    (mask.getLsbD b || (s.page p).evtRaw.getLsbD b) := by
  have hle := evtBits_le p
  rw [setEvents_eq, setBits_evtRaw p mask (by omega), decide_eq_true (List.mem_range.2 hb), Bool.true_and]

theorem setEvents_evtCount (h : (s.page p).evtCount ≤ 0xFFFFFFFF) : ((setEvents s p mask).page p).evtCount =
    min ((s.page p).evtCount + ((List.range (evtBits p)).filter fun b => mask.getLsbD b).length) 0xFFFFFFFF :=
  setBits_evtCount p mask _ s h

theorem setEvents_keeps : Frame [.pages] s (setEvents s p mask) :=
  setEvents_frame (List.Subset.refl _) (Frame.refl _ s)

end

/-! ## EVT_RAW (R528) -/

section
variable {s : State} {p : Nat}

/-- A write of ones to EVT_RAW, before the sets of the same cycle: EVL's AEN stays while its condition holds (R516). -/
def rawCleared (s : State) (p : Nat) (w : Dword) : State :=
  s.setPage p { s.page p with
    evtRaw := (s.page p).evtRaw &&& (~~~ w ||| if p = 3 ∧ s.evl.aen then 1 else 0) }

theorem rawCleared_evtRaw (w : Dword) {b : Nat} (hb : b < 32) :
    ((rawCleared s p w).page p).evtRaw.getLsbD b = ((s.page p).evtRaw.getLsbD b &&
      (!w.getLsbD b || decide (p = 3 ∧ b = 0 ∧ s.evl.aen = true))) := by
  unfold rawCleared
  rw [State.setPage_page_self]
  dsimp only
  rw [BitVec.getLsbD_and, BitVec.getLsbD_or, BitVec.getLsbD_not, decide_eq_true hb, Bool.true_and]
  by_cases hk : p = 3 ∧ s.evl.aen = true
  · obtain ⟨h3, haen⟩ := hk
    simp [h3, haen, BitVec.getLsbD_one]
  · rw [if_neg hk]
    have hno : ¬(p = 3 ∧ b = 0 ∧ s.evl.aen = true) := fun h => hk ⟨h.1, h.2.2⟩
    simp [hno]

theorem exec_evtRawClear (hp : pageExists p = true) (w same : Dword) : exec (.evtRawClear p w same) s =
    .next (setEvents (rawCleared (s.wakePage p) p w) p same) := by
  show execEvtRawClear p w same s = _
  unfold execEvtRawClear
  rw [if_neg (by simp [hp])]
  rfl

theorem evtRawClear_clears (hp : pageExists p = true) (w same : Dword) : ∃ t, exec (.evtRawClear p w same) s = .next t ∧
    (∀ b, b < evtBits p → (t.page p).evtRaw.getLsbD b =
      (same.getLsbD b || ((s.page p).evtRaw.getLsbD b &&
        (!w.getLsbD b || decide (p = 3 ∧ b = 0 ∧ s.evl.aen = true))))) ∧
    ((s.page p).evtCount ≤ 0xFFFFFFFF → (t.page p).evtCount =
      min ((s.page p).evtCount + ((List.range (evtBits p)).filter fun b => same.getLsbD b).length) 0xFFFFFFFF) ∧
    (t.page p).evtMask = (s.page p).evtMask ∧ (t.page p).sealBit = (s.page p).sealBit ∧
    (∀ q, q ≠ p → t.page q = s.page q) ∧ Frame [.gate, .pages] s t := by
  have hwake := s.wakePage_keeps p
  have hpage : ∀ q, (s.wakePage p).page q = s.page q := fun q => hwake.page_eq q
  have hself : (rawCleared (s.wakePage p) p w).page p = { s.page p with
      evtRaw := ((rawCleared (s.wakePage p) p w).page p).evtRaw } := by
    unfold rawCleared
    rw [State.setPage_page_self, hpage]
  obtain ⟨r, n, hset⟩ := setEvents_page_self (rawCleared (s.wakePage p) p w) p same
  refine ⟨_, exec_evtRawClear hp w same, fun b hb => ?_, fun hn => ?_, ?_, ?_, fun q hq => ?_,
    exec_frame_of_next (exec_evtRawClear hp w same)⟩
  · have hle := evtBits_le p
    rw [setEvents_evtRaw _ _ _ hb, rawCleared_evtRaw w (by omega), hpage, hwake.evl_eq]
  · rw [setEvents_evtCount _ _ _ (by rw [hself]; exact hn), hself]
  · rw [hset, hself]
  · rw [hset, hself]
  · rw [setEvents_page_ne _ _ _ hq, rawCleared, State.setPage_page, if_neg hq, hpage]

/-! ## EVT_FORCE, ERR_ACK and SEAL (R528-R530) -/

theorem exec_evtForce (hp : pageExists p = true) (hs : (s.page p).sealBit = false) (w : Dword) : exec (.evtForce p w) s =
    .next (setEvents (s.wakePage p) p w) := by
  show execEvtForce p w s = _
  rw [execEvtForce, if_pos hp, if_neg (by simp [hs])]

theorem evtForce_sets (hp : pageExists p = true) (hs : (s.page p).sealBit = false) (w : Dword) : ∃ t, exec (.evtForce p w) s = .next t ∧
    (∀ b, b < evtBits p → (t.page p).evtRaw.getLsbD b = (w.getLsbD b || (s.page p).evtRaw.getLsbD b)) ∧
    ((s.page p).evtCount ≤ 0xFFFFFFFF → (t.page p).evtCount =
      min ((s.page p).evtCount + ((List.range (evtBits p)).filter fun b => w.getLsbD b).length) 0xFFFFFFFF) ∧
    (∀ q, q ≠ p → t.page q = s.page q) ∧ Frame [.gate, .pages] s t := by
  have hpage : ∀ q, (s.wakePage p).page q = s.page q := fun q => (s.wakePage_keeps p).page_eq q
  refine ⟨_, exec_evtForce hp hs w, fun b hb => ?_, fun hn => ?_, fun q hq => ?_,
    exec_frame_of_next (exec_evtForce hp hs w)⟩
  · rw [setEvents_evtRaw _ _ _ hb, hpage]
  · rw [setEvents_evtCount _ _ _ (by rw [hpage]; exact hn), hpage]
  · rw [setEvents_page_ne _ _ _ hq, hpage]

theorem evtForce_sealed (hs : (s.page p).sealBit = true) (w : Dword) :
    ∃ t, exec (.evtForce p w) s = .next t ∧ Frame [.gate] s t := by
  refine ⟨_, rfl, ?_⟩
  rw [if_pos hs]
  split
  · exact s.wakePage_keeps p
  · exact Frame.refl _ s

/-- A command that changes only the header of one page. -/
theorem exec_setPage {i : Instr} {x : Page} (hi : exec i s = .next ((s.wakePage p).setPage p x))
    (hparts : i.parts = [.gate, .pages]) : ∃ t, exec i s = .next t ∧ t.page p = x ∧
      (∀ q, q ≠ p → t.page q = s.page q) ∧ Frame [.gate, .pages] s t := by
  refine ⟨_, hi, State.setPage_page_self _ _ _, fun q hq => ?_, hparts ▸ exec_frame_of_next hi⟩
  rw [State.setPage_page, if_neg hq]
  exact (s.wakePage_keeps p).page_eq q

theorem exec_errAck (hp : pageExists p = true) : exec (.errAck p) s = .next ((s.wakePage p).setPage p
    { s.page p with errValid := false, errCode := 0, errFunc := 0, errMore := 0, errAddr := 0 }) := by
  show execErrAck p s = _
  unfold execErrAck
  dsimp only
  rw [if_neg (by simp [hp]), (s.wakePage_keeps p).page_eq p]

theorem exec_sealBlock (hp : pageExists p = true) : exec (.sealBlock p) s =
    .next ((s.wakePage p).setPage p { s.page p with sealBit := true }) :=
  congrArg Host.Outcome.next (if_pos hp)

/-! ## SOFT_RESET (R527) -/

/-- The keys of a page's saturating counters. -/
def counterKeys (p : Nat) : List Nat :=
  ((fieldsOf (pageBlk p)).filter Fld.sat).flatMap fun f => (List.range f.n).map fun k => fieldKey f (pageInst p) k

theorem mem_counterKeys {q : Nat} : q ∈ counterKeys p ↔
    ∃ f ∈ fieldsOf (pageBlk p), f.sat = true ∧ ∃ k, k < f.n ∧ fieldKey f (pageInst p) k = q := by
  simp [counterKeys, and_assoc]

theorem Tbl.getD_foldl_erase {α : Type} (l : List Nat) (t : Tbl α) (q : Nat) (d : α) :
    Tbl.getD (l.foldl Tbl.erase t) q d = if q ∈ l then d else Tbl.getD t q d := by
  induction l generalizing t with
  | nil => rfl
  | cons k l ih =>
    rw [List.foldl_cons, ih, Tbl.getD_erase]
    by_cases hq : q = k <;> simp [hq]

theorem clearCounters_rdAt (f : Fld) (n k : Nat) : (clearCounters s p).rdAt f n k =
    if fieldKey f n k ∈ counterKeys p then f.reset else s.rdAt f n k :=
  Tbl.getD_foldl_erase (counterKeys p) s.regs _ _

/-- The header after a soft reset, before the sets of the same cycle. -/
def Page.softReset (x : Page) : Page :=
  { x with evtRaw := 0, evtCount := 0, errValid := false, errCode := 0, errFunc := 0, errMore := 0, errAddr := 0 }

theorem exec_blockSoftReset (hp : pageExists p = true) (h1 : p ≠ 1) (same : Dword) : exec (.blockSoftReset p same) s =
    .next (setEvents ((clearCounters (s.wakePage p) p).setPage p (s.page p).softReset) p same) := by
  show execBlockSoftReset p same s = _
  unfold execBlockSoftReset
  dsimp only
  rw [if_neg (by simp [h1, hp]), (s.wakePage_keeps p).page_eq p]
  rfl

theorem blockSoftReset_clears (hp : pageExists p = true) (h1 : p ≠ 1) (same : Dword) : ∃ t, exec (.blockSoftReset p same) s = .next t ∧
    (∀ b, b < evtBits p → (t.page p).evtRaw.getLsbD b = same.getLsbD b) ∧
    (t.page p).evtCount = ((List.range (evtBits p)).filter fun b => same.getLsbD b).length ∧
    (t.page p).errValid = false ∧ (t.page p).errAddr = 0 ∧ (t.page p).sealBit = (s.page p).sealBit ∧
    (t.page p).evtMask = (s.page p).evtMask ∧ (t.page p).enable = (s.page p).enable ∧
    (∀ f ∈ fieldsOf (pageBlk p), f.sat = true → ∀ k, k < f.n → t.rdAt f (pageInst p) k = f.reset) ∧
    (∀ f n k, (∀ g ∈ fieldsOf (pageBlk p), g.sat = true → ∀ j, j < g.n →
      fieldKey g (pageInst p) j ≠ fieldKey f n k) → t.rdAt f n k = s.rdAt f n k) ∧
    (∀ q, q ≠ p → t.page q = s.page q) ∧ Frame [.gate, .pages, .regs] s t := by
  have hwake := s.wakePage_keeps p
  have hcount : ((List.range (evtBits p)).filter fun b => same.getLsbD b).length ≤ 12 :=
    calc ((List.range (evtBits p)).filter fun b => same.getLsbD b).length
      _ ≤ (List.range (evtBits p)).length := List.length_filter_le _ _
      _ = evtBits p := List.length_range
      _ ≤ 12 := evtBits_le p
  obtain ⟨r, n, hset⟩ :=
    setEvents_page_self ((clearCounters (s.wakePage p) p).setPage p (s.page p).softReset) p same
  rw [State.setPage_page_self] at hset
  have hregs (f : Fld) (i k : Nat) :
      (setEvents ((clearCounters (s.wakePage p) p).setPage p (s.page p).softReset) p same).rdAt f i k =
        if fieldKey f i k ∈ counterKeys p then f.reset else s.rdAt f i k := by
    rw [(setEvents_keeps _ p same).rdAt_eq, State.rdAt_congr (State.setPage_regs _ _ _), clearCounters_rdAt,
      hwake.rdAt_eq]
  refine ⟨_, exec_blockSoftReset hp h1 same, fun b hb => ?_, ?_, ?_, ?_, ?_, ?_, ?_, fun f hf hsat k hk => ?_,
    fun f i k hne => ?_, fun q hq => ?_, exec_frame_of_next (exec_blockSoftReset hp h1 same)⟩
  · rw [setEvents_evtRaw _ _ _ hb, State.setPage_page_self]
    simp [Page.softReset]
  · rw [setEvents_evtCount _ _ _ (by simp [Page.softReset]), State.setPage_page_self]
    simp only [Page.softReset, Nat.zero_add]
    omega
  · rw [hset]; rfl
  · rw [hset]; rfl
  · rw [hset]; rfl
  · rw [hset]; rfl
  · rw [hset]; rfl
  · rw [hregs, if_pos (mem_counterKeys.2 ⟨f, hf, hsat, k, hk, rfl⟩)]
  · rw [hregs, if_neg]
    intro hmem
    obtain ⟨g, hg, hsat, j, hj, hkey⟩ := mem_counterKeys.1 hmem
    exact hne g hg hsat j hj hkey
  · have hother := setEvents_page_ne ((clearCounters (s.wakePage p) p).setPage p (s.page p).softReset) p same hq
    rw [State.setPage_page, if_neg hq] at hother
    exact hother.trans (hwake.page_eq q)

end

/-- Settles O43, one rule for each command on a header. -/
theorem pageHeadersAct : Obligations.PageHeadersAct := by
  unfold Obligations.PageHeadersAct
  exact ⟨fun _ _ w same hp => evtRawClear_clears hp w same,
    fun _ _ w hp hs => evtForce_sets hp hs w,
    fun _ _ w hs => evtForce_sealed hs w,
    fun _ _ hp => ⟨exec_setPage (exec_errAck hp) rfl, exec_setPage (exec_sealBlock hp) rfl⟩,
    fun _ _ same hp h1 => blockSoftReset_clears hp h1 same⟩

end Sys2Proof.Machine
end

