-- ==== Sys2Proof/Proofs/LedgerRing.lean ====
section
/-! PROOFS. The ledger's ring, windows and watermark (O42): what the intake of an event and the AEN condition may change
of EVL, then one rule for each command. -/

-- one proof after another: many at once would each hold a thread of the compiler
set_option Elab.async false

namespace Sys2Proof.Machine

open Sys2Proof

/-! ## What the intake of an event changes of EVL (R505-R509) -/

/-- `f` is `e` but for what takes raised events: the queue, the held records, the buckets and, once NOR writing has
stopped, the mirror. -/
def Evl.takesIn (e f : Evl) : Prop :=
  ∃ q m h b, f = { e with queue := q, mirror := m, held := h, buckets := b } ∧ (e.norStopped = false → m = e.mirror)

theorem Evl.takesIn_refl (e : Evl) : e.takesIn e := ⟨_, _, _, _, rfl, fun _ => rfl⟩

theorem Evl.takesIn_trans {e f g : Evl} (h : e.takesIn f) (k : f.takesIn g) : e.takesIn g := by
  obtain ⟨q, m, h, b, rfl, hm⟩ := h
  obtain ⟨q', m', h', b', rfl, hm'⟩ := k
  exact ⟨q', m', h', b', rfl, fun hn => (hm' hn).trans (hm hn)⟩

theorem enqueue_takesIn (e : Evl) (r : LRec) : e.takesIn (enqueue e r) := by
  unfold enqueue
  split
  · next hn => exact ⟨_, _, _, _, rfl, fun h => absurd (h.symm.trans hn) (by decide)⟩
  · split
    · exact ⟨_, _, _, _, rfl, fun _ => rfl⟩
    · exact ⟨_, _, _, _, rfl, fun _ => rfl⟩

theorem State.setBucket_takesIn (s : State) (k : Nat) (b : Bucket) : s.evl.takesIn (s.setBucket k b).evl :=
  ⟨_, _, _, _, rfl, fun _ => rfl⟩

theorem accept_takesIn (s : State) (code : Nat) (r : LRec) : s.evl.takesIn (accept s code r).evl := by
  have refused (bit : Nat) : s.evl.takesIn (refuse s (bucketKey code r.payload) r bit).evl := by
    rw [refuse_evl]
    exact s.setBucket_takesIn _ _
  unfold accept
  dsimp only
  split
  · exact enqueue_takesIn _ _
  · split
    · split
      · exact refused 4
      · exact Evl.takesIn_trans (s.setBucket_takesIn _ _) (enqueue_takesIn _ _)
    · exact refused 5

theorem State.raiseAt_takesIn (s : State) (p code : Nat) (f : Option Nat) (l : List (Nat × Nat)) (a : Option Nat) :
    s.evl.takesIn (s.raiseAt p code f l a).evl := by
  obtain ⟨u, hu, hrun⟩ := s.raiseAt_cases p code f l a
  have hevl : u.evl = s.evl := by
    rcases hu with rfl | ⟨n, rfl⟩
    · rfl
    · exact State.capture_evl _ _ _ _ _
  rw [← hevl]
  rcases hrun with hrun | hrun <;> rw [hrun]
  · exact accept_takesIn u _ _
  · exact ⟨_, _, _, _, rfl, fun _ => rfl⟩

theorem State.raise_takesIn (s : State) (code : Nat) (f : Option Nat) (l : List (Nat × Nat)) :
    s.evl.takesIn (s.raise code f l).evl := State.raiseAt_takesIn _ _ _ _ _ _

/-! ## AEN (R516) -/

theorem aenUpdate_evl (s : State) : ∃ a w, (aenUpdate s).evl = { s.evl with aen := a, aenWaiting := w } := by
  unfold aenUpdate
  dsimp only
  split
  · split
    · rw [State.setEvl_evl, State.ev_evl]
      exact ⟨_, _, rfl⟩
    · rw [State.asyncEvent_evl, State.ev_evl]
      exact ⟨_, _, rfl⟩
  · split
    · exact ⟨_, _, rfl⟩
    · exact ⟨_, _, rfl⟩

/-- The AEN condition moves no event but its own. -/
theorem aenUpdate_shows {s : State} {e : Nat × Nat} (h : s.shows e) (he : e ≠ eEVL_AEN) : (aenUpdate s).shows e := by
  unfold aenUpdate
  dsimp only
  split
  · have hev : ((s.setEvl { s.evl with aen := true }).ev eEVL_AEN).shows e := State.ev_shows' (State.shows_congr h rfl) _
    split
    · exact State.shows_congr hev rfl
    · exact State.shows_congr hev (State.asyncEvent_pages _ _ _ _ _)
  · split
    · unfold State.shows at *
      have hlt : e.2 < 32 := BitVec.lt_of_getLsbD h
      by_cases hp : e.1 = 3
      · have hb : e.2 ≠ 0 := fun h0 => he (Prod.ext hp h0)
        rw [hp] at h
        rw [hp, State.setPage_page_self]
        refine (BitVec.getLsbD_and).trans ?_
        rw [State.page_congr (State.setEvl_pages _ _), h, Bool.true_and, BitVec.getLsbD_not, decide_eq_true hlt,
          BitVec.getLsbD_one]
        simp [hb]
      · rw [State.setPage_page, if_neg hp]
        exact h
    · exact h

/-! ## Programs of the ring (R503-R505, R557) -/

/-- What EVL is after the erase ahead: the records of that sector are gone. -/
def Evl.erased (e : Evl) (sec : Nat) : Evl :=
  { e with ring := e.ring.filter (fun r => r.1 / sectorSize != sec)
           torn := e.torn.filter (fun k => k / sectorSize != sec), erasing := some sec }

theorem eraseAhead_inSector (s : State) {loc : Nat} (h : loc % 64 ≠ 0) : eraseAhead s loc = s := if_pos h

theorem eraseAhead_evl (s : State) {loc : Nat} (h : loc % 64 = 0) :
    (s.evl.erased ((loc / 64 + 1) % 2048)).takesIn (eraseAhead s loc).evl := by
  unfold eraseAhead
  rw [if_neg (show ¬loc % sectorSize ≠ 0 from not_not_intro h)]
  dsimp only
  split
  · exact Evl.takesIn_refl _
  · have hbump : ∀ n, (((s.setEvl (s.evl.erased ((loc / 64 + 1) % 2048))).bump rEVL_UNREAD_LOST n).ev
        eEVL_UNREAD_LOST).evl = s.evl.erased ((loc / 64 + 1) % 2048) := fun n => by
      rw [State.ev_evl, State.bump_evl, State.setEvl_evl]
    exact hbump _ ▸ State.raise_takesIn _ _ _ _

section
variable {s : State} {r : LRec}

/-- The state in which the record at the front of the queue begins its program. -/
def programBegun (s : State) (r : LRec) (q : List LRec) : State :=
  s.setEvl { s.evl with queue := q, programming := some (s.evl.next, { r with seq := newestSeq s.evl + 1 }) }

theorem exec_ledgerRecordProgram {q : List LRec} (hp : s.evl.programming = none) (hq : s.evl.queue = r :: q)
    (hn : s.evl.norStopped = false) (hr : s.evl.restored = true) (hx : xspiReset s = false)
    (he : s.evl.erasing ≠ some (s.evl.next / 64)) :
    exec .ledgerRecordProgram s = .next (eraseAhead (programBegun s r q) s.evl.next) := by
  refine congrArg Host.Outcome.next ?_
  dsimp only
  rw [hp, hq]
  dsimp only
  rw [if_neg (by simp [hn, hr, hx, sectorSize, he])]
  rfl

theorem ledgerRecordProgram_begins {q : List LRec} (hp : s.evl.programming = none) (hq : s.evl.queue = r :: q)
    (hn : s.evl.norStopped = false) (hr : s.evl.restored = true) (hx : xspiReset s = false)
    (he : s.evl.erasing ≠ some (s.evl.next / 64)) : ∃ t, exec .ledgerRecordProgram s = .next t ∧
      t.evl.programming = some (s.evl.next, { r with seq := newestSeq s.evl + 1 }) ∧ t.evl.next = s.evl.next ∧
      t.evl.mirror = s.evl.mirror ∧
      (s.evl.next % 64 ≠ 0 → t.evl.ring = s.evl.ring ∧ t.evl.queue = q) ∧
      ∀ x, x ∈ t.evl.ring ↔ x ∈ s.evl.ring ∧ (s.evl.next % 64 = 0 → x.1 / 64 ≠ (s.evl.next / 64 + 1) % 2048) := by
  refine ⟨_, exec_ledgerRecordProgram hp hq hn hr hx he, ?_⟩
  by_cases hsec : s.evl.next % 64 = 0
  · obtain ⟨q', m, h, b, hevl, hm⟩ := eraseAhead_evl (programBegun s r q) hsec
    rw [hevl]
    refine ⟨rfl, rfl, hm hn, fun hne => absurd hsec hne, fun x => List.mem_filter.trans ?_⟩
    simp [programBegun, sectorSize, hsec]
  · rw [eraseAhead_inSector _ hsec]
    exact ⟨rfl, rfl, rfl, fun _ => ⟨rfl, rfl⟩, fun x => ⟨fun hx => ⟨hx, fun h => absurd h hsec⟩, And.left⟩⟩

/-! ## The ends of a program (R503, R505, R506) -/

variable {loc : Nat}

theorem ledgerProgramDone_verified (hp : s.evl.programming = some (loc, r)) :
    ∃ t, exec (.ledgerProgramDone true) s = .next t ∧ Tbl.get t.evl.ring loc = some r ∧
      t.evl.next = (loc + 1) % 131072 ∧ t.evl.programming = none ∧ t.evl.failRun = 0 ∧
      t.evl.mirror = (r :: s.evl.mirror).take 16384 ∧ t.evl.queue = s.evl.queue ∧
      ∀ k, k ≠ loc → Tbl.get t.evl.ring k = Tbl.get s.evl.ring k := by
  have hrun : exec (.ledgerProgramDone true) s = .next (aenUpdate (s.setEvl { s.evl with
      ring := Tbl.set s.evl.ring loc r, next := (loc + 1) % ringSize, programming := none, failRun := 0
      mirror := (r :: s.evl.mirror).take 16384 })) := by
    refine congrArg Host.Outcome.next ?_
    dsimp only
    rw [hp]
    rfl
  obtain ⟨a, w, hevl⟩ := aenUpdate_evl (s.setEvl { s.evl with
    ring := Tbl.set s.evl.ring loc r, next := (loc + 1) % ringSize, programming := none, failRun := 0
    mirror := (r :: s.evl.mirror).take 16384 })
  refine ⟨_, hrun, ?_⟩
  rw [hevl]
  exact ⟨Tbl.get_set_self _ _ _, rfl, rfl, rfl, rfl, rfl, fun k hk => (Tbl.get_set _ _ _ _).trans (if_neg hk)⟩

/-- EVL after a program that failed its verify: the location is abandoned. -/
def Evl.tornAt (e : Evl) (loc : Nat) : Evl :=
  { e with torn := loc :: e.torn, next := (loc + 1) % ringSize, programming := none, failRun := e.failRun + 1 }

theorem exec_ledgerProgramDone_failed (hp : s.evl.programming = some (loc, r)) :
    exec (.ledgerProgramDone false) s = .next (
      if s.evl.failRun + 1 < 16 then
        (s.bump rEVL_NOR_FAIL 1).setEvl { s.evl.tornAt loc with queue := r :: s.evl.queue }
      else aenUpdate (((s.bump rEVL_NOR_FAIL 1).setEvl ((r :: s.evl.queue).foldl enqueue
        { s.evl.tornAt loc with norStopped := true, queue := [] })).ev eEVL_NOR_ERR)) := by
  refine congrArg Host.Outcome.next ?_
  dsimp only
  rw [hp]
  rfl

theorem ledgerProgramDone_failed (hp : s.evl.programming = some (loc, r)) (hf : s.evl.failRun < 15) :
    ∃ t, exec (.ledgerProgramDone false) s = .next t ∧ t.evl.ring = s.evl.ring ∧ t.evl.queue = r :: s.evl.queue ∧
      t.evl.torn = loc :: s.evl.torn ∧ t.evl.next = (loc + 1) % 131072 ∧ t.evl.failRun = s.evl.failRun + 1 ∧
      t.evl.norStopped = s.evl.norStopped ∧ t.evl.mirror = s.evl.mirror ∧ Frame [.evl, .regs] s t := by
  have hrun := exec_ledgerProgramDone_failed hp
  rw [if_pos (by omega)] at hrun
  exact ⟨_, hrun, rfl, rfl, rfl, rfl, rfl, rfl, rfl,
    State.setEvl_frame (by decide) (State.bump_frame (by decide) (Frame.refl _ s))⟩

/-- Once NOR writing has stopped, the records that come go to the mirror alone (R505). -/
theorem enqueues_stopped (l : List LRec) {e : Evl} (hn : e.norStopped = true) :
    ∃ m, l.foldl enqueue e = { e with mirror := m } := by
  induction l generalizing e with
  | nil => exact ⟨_, rfl⟩
  | cons r l ih =>
    have hone : ∃ m, enqueue e r = { e with mirror := m } := by
      rw [enqueue, if_pos hn]
      exact ⟨_, rfl⟩
    obtain ⟨m, hm⟩ := hone
    rw [List.foldl_cons, hm]
    exact ih hn

theorem ledgerProgramDone_stops (hp : s.evl.programming = some (loc, r)) (hf : 15 ≤ s.evl.failRun) :
    ∃ t, exec (.ledgerProgramDone false) s = .next t ∧ t.evl.ring = s.evl.ring ∧ t.evl.norStopped = true ∧
      t.evl.queue = [] ∧ t.shows eEVL_NOR_ERR := by
  have hrun := exec_ledgerProgramDone_failed hp
  rw [if_neg (by omega)] at hrun
  obtain ⟨m, hm⟩ := enqueues_stopped (r :: s.evl.queue) (e := { s.evl.tornAt loc with norStopped := true, queue := [] }) rfl
  rw [hm] at hrun
  refine ⟨_, hrun, ?_⟩
  obtain ⟨a, w, hevl⟩ := aenUpdate_evl (((s.bump rEVL_NOR_FAIL 1).setEvl
    { s.evl.tornAt loc with norStopped := true, queue := [], mirror := m }).ev eEVL_NOR_ERR)
  rw [hevl, State.ev_evl, State.setEvl_evl]
  exact ⟨rfl, rfl, rfl, aenUpdate_shows (State.ev_shows _ (by decide)) (by decide)⟩

end

/-! ## Windows (R512, R534) -/

section
variable {s : State} {p : Path}

/-- What a command that writes the window of its path leaves. -/
theorem exec_setWindow {i : Instr} {w : Window} (hi : exec i s = .next (s.setWindow p w)) :
    ∃ t, exec i s = .next t ∧ t.window p = w ∧ (∀ q, q ≠ p → t.window q = s.window q) ∧ Frame [.evl] s t ∧
      t.evl.ring = s.evl.ring :=
  ⟨_, hi, by rw [State.setWindow_window, if_pos rfl], fun q hq => by rw [State.setWindow_window, if_neg hq],
    State.setWindow_frame (List.Subset.refl _) (Frame.refl _ s), rfl⟩

theorem windowLoad_requests (s : State) (p : Path) : ∃ t, exec (.windowLoad p) s = .next t ∧
    (t.window p).valid = false ∧ (t.window p).serial = (s.window p).serial + 1 ∧
    (t.window p).cursor = (s.window p).cursor ∧ (∀ q, q ≠ p → t.window q = s.window q) ∧ Frame [.evl] s t ∧
    t.evl.ring = s.evl.ring := by
  obtain ⟨t, ht, hw, hrest⟩ := exec_setWindow (i := .windowLoad p) (s := s) rfl
  exact ⟨t, ht, by rw [hw]; rfl, by rw [hw]; rfl, by rw [hw]; rfl, hrest⟩

/-- The cursor that a NEXT moves to, with whether it found nothing above. -/
def nextRequest (e : Evl) (w : Window) : Window :=
  match e.above w.cursor.toNat with
  | some n => { w with cursor := BitVec.ofNat 48 n }.request false
  | none => w.request true

theorem exec_windowNext (s : State) (p : Path) :
    exec (.windowNext p) s = .next (s.setWindow p (nextRequest s.evl (s.window p))) := by
  refine congrArg Host.Outcome.next ?_
  dsimp only
  unfold nextRequest
  cases s.evl.above (s.window p).cursor.toNat <;> rfl

theorem windowNext_requests (s : State) (p : Path) : ∃ t, exec (.windowNext p) s = .next t ∧
    (t.window p).valid = false ∧ (t.window p).serial = (s.window p).serial + 1 ∧
    (∀ n, s.evl.above (s.window p).cursor.toNat = some n → (t.window p).cursor = BitVec.ofNat 48 n) ∧
    (∀ q, q ≠ p → t.window q = s.window q) ∧ Frame [.evl] s t ∧ t.evl.ring = s.evl.ring := by
  obtain ⟨t, ht, hw, hrest⟩ := exec_setWindow (exec_windowNext s p)
  refine ⟨t, ht, ?_, ?_, fun n hn => ?_, hrest⟩
  · rw [hw, nextRequest]
    split <;> rfl
  · rw [hw, nextRequest]
    split <;> rfl
  · rw [hw, nextRequest, hn]
    rfl

/-- The window once its fetch at the cursor is complete. -/
def Window.fetched (w : Window) (x : Nat × Option LRec × Nat) : Window :=
  { w with valid := true, result := x.1, record := x.2.1, cursor := BitVec.ofNat 48 x.2.2, pending := none }

theorem exec_windowResult {last : Bool} (h : (s.window p).pending = some last) : exec (.windowResult p) s =
    .next (s.setWindow p ((s.window p).fetched (fetchResult s.evl (s.window p).cursor.toNat last))) := by
  refine congrArg Host.Outcome.next ?_
  dsimp only
  rw [h]
  rfl

/-! ### The result of a fetch -/

variable {e : Evl} {cur : Nat}

theorem Evl.newest_of_empty (h : e.records = []) : e.newest = 0 := by
  rw [Evl.newest, h]
  rfl

theorem Evl.oldest_of_empty (h : e.records = []) : e.oldest = 0 := by
  rw [Evl.oldest, h]
  rfl

theorem Evl.records_ne_nil_of_find {n : Nat} {r : LRec} (h : e.find n = some r) : e.records ≠ [] := fun h0 => by
  rw [Evl.find, h0] at h
  cases h

theorem fetchResult_notYet {last : Bool} (h : last = true ∨ e.newest < cur) : fetchResult e cur last = (2, none, cur) :=
  if_pos (by rcases h with h | h <;> simp [h])

theorem fetchResult_within (hr : e.records ≠ []) (hn : cur ≤ e.newest) : fetchResult e cur false =
    if cur < e.oldest then (1, e.find e.oldest, e.oldest)
    else match e.find cur with
      | some r => (0, some r, cur)
      | none => (3, none, cur) :=
  if_neg (by simp [hr, hn])

theorem fetchResult_found {r : LRec} (hn : cur ≤ e.newest) (ho : e.oldest ≤ cur) (hf : e.find cur = some r) :
    fetchResult e cur false = (0, some r, cur) := by
  rw [fetchResult_within (Evl.records_ne_nil_of_find hf) hn, if_neg (by omega), hf]

theorem fetchResult_gap (hr : e.records ≠ []) (hn : cur ≤ e.newest) (ho : e.oldest ≤ cur) (hf : e.find cur = none) :
    fetchResult e cur false = (3, none, cur) := by
  rw [fetchResult_within hr hn, if_neg (by omega), hf]

theorem fetchResult_below (hc : cur < e.oldest) (hn : e.oldest ≤ e.newest) :
    fetchResult e cur false = (1, e.find e.oldest, e.oldest) := by
  have hr : e.records ≠ [] := fun h0 => by
    rw [Evl.oldest_of_empty h0] at hc
    omega
  rw [fetchResult_within hr (by omega), if_pos hc]

theorem Window.fetched_cursor_self (w : Window) (n : Nat) (r : Option LRec) :
    (w.fetched (n, r, w.cursor.toNat)).cursor = w.cursor := by
  simp [Window.fetched]

theorem windowResult_answers {last : Bool} (h : (s.window p).pending = some last) :
    ∃ t, exec (.windowResult p) s = .next t ∧ (t.window p).valid = true ∧ (t.window p).pending = none ∧
      (t.window p).serial = (s.window p).serial ∧
      (s.evl.newest < (s.window p).cursor.toNat →
        (t.window p).result = 2 ∧ (t.window p).record = none ∧ (t.window p).cursor = (s.window p).cursor) ∧
      (∀ r, last = false → (s.window p).cursor.toNat ≤ s.evl.newest → s.evl.oldest ≤ (s.window p).cursor.toNat →
        s.evl.find (s.window p).cursor.toNat = some r →
        (t.window p).result = 0 ∧ (t.window p).record = some r ∧ (t.window p).cursor = (s.window p).cursor) ∧
      (last = false → (s.window p).cursor.toNat < s.evl.oldest → s.evl.oldest ≤ s.evl.newest →
        (t.window p).result = 1 ∧ (t.window p).record = s.evl.find s.evl.oldest ∧
        (t.window p).cursor = BitVec.ofNat 48 s.evl.oldest) ∧
      (last = false → s.evl.records ≠ [] → (s.window p).cursor.toNat ≤ s.evl.newest →
        s.evl.oldest ≤ (s.window p).cursor.toNat → s.evl.find (s.window p).cursor.toNat = none →
        (t.window p).result = 3 ∧ (t.window p).record = none) ∧
      (last = true → (t.window p).result = 2 ∧ (t.window p).record = none) ∧
      (∀ q, q ≠ p → t.window q = s.window q) ∧ Frame [.evl] s t := by
  obtain ⟨t, ht, hw, hother, hkeep, -⟩ := exec_setWindow (exec_windowResult h)
  have hcur := Window.fetched_cursor_self (s.window p)
  refine ⟨t, ht, ?_⟩
  rw [hw]
  refine ⟨rfl, rfl, rfl, fun hn => ?_, fun r hl hn ho hf => ?_, fun hl hc hn => ?_, fun hl hr hn ho hf => ?_,
    fun hl => ?_, hother, hkeep⟩
  · rw [fetchResult_notYet (Or.inr hn)]
    exact ⟨rfl, rfl, hcur _ _⟩
  · subst hl
    rw [fetchResult_found hn ho hf]
    exact ⟨rfl, rfl, hcur _ _⟩
  · subst hl
    rw [fetchResult_below hc hn]
    exact ⟨rfl, rfl, rfl⟩
  · subst hl
    rw [fetchResult_gap hr hn ho hf]
    exact ⟨rfl, rfl⟩
  · rw [fetchResult_notYet (Or.inl hl)]
    exact ⟨rfl, rfl⟩

end

/-! ## The watermark (R515, R516) -/

section
variable {s : State} {lo : Dword} {v : Nat}

/-- The upper part of the manager's watermark with the lower one of a write. -/
def wmarkWritten (s : State) (lo : Dword) : Nat := s.upper .manager rEVL_WMARK_HI * 2 ^ 32 + lo.toNat

theorem watermarkWrite_taken (hv : v = wmarkWritten s lo) (h1 : s.evl.wmark ≤ v) (h2 : v ≤ s.evl.newest + 1) :
    ∃ t, exec (.watermarkWrite .manager lo) s = .next t ∧ t.evl.wmark = v ∧ t.evl.ring = s.evl.ring := by
  subst hv
  refine ⟨_, congrArg Host.Outcome.next (if_pos ⟨rfl, h1, h2⟩), ?_⟩
  obtain ⟨a, w, hevl⟩ := aenUpdate_evl (s.setEvl { s.evl with
    wmark := wmarkWritten s lo
    wmarkDue := if wmarkWritten s lo = s.evl.wmark ∨ s.evl.wmarkDue.isSome then s.evl.wmarkDue else some s.tbs.clk })
  exact ⟨(congrArg Evl.wmark hevl).trans rfl, (congrArg Evl.ring hevl).trans rfl⟩

theorem watermarkWrite_outOfBounds (hv : v = wmarkWritten s lo) (h : v < s.evl.wmark ∨ s.evl.newest + 1 < v) :
    exec (.watermarkWrite .manager lo) s = .next s := by
  subst hv
  refine congrArg Host.Outcome.next (if_neg ?_)
  rintro ⟨-, h1, h2⟩
  exact h.elim (Nat.not_lt.2 h1) (Nat.not_lt.2 h2)

theorem watermarkWrite_otherPath {p : Path} (hp : p ≠ .manager) (s : State) (lo : Dword) :
    exec (.watermarkWrite p lo) s = .next s :=
  congrArg Host.Outcome.next (if_neg fun h => hp h.1)

theorem exec_evlWmark {b : Nat} (hd : s.evl.wmarkDue = some b) (hb : b + 60000000000 ≤ s.tbs.clk) :
    exec .evlWmark s = .next (wmarkRecord s) := by
  show execEvlWmark s = _
  unfold execEvlWmark
  rw [hd]
  dsimp only
  rw [if_pos hb]

theorem wmarkRecord_takesIn (s : State) :
    Evl.takesIn { s.evl with wmarkDue := none } (wmarkRecord s).evl := State.raise_takesIn _ _ _ _

theorem evlWmark_records {b : Nat} (hd : s.evl.wmarkDue = some b) (hb : b + 60000000000 ≤ s.tbs.clk) :
    ∃ t, exec .evlWmark s = .next t ∧ t.evl.wmarkDue = none ∧ t.evl.wmark = s.evl.wmark ∧
      s.tells t lEVL_WMARK none [p6 s.evl.wmark] := by
  obtain ⟨q, m, h, k, hevl, -⟩ := wmarkRecord_takesIn s
  exact ⟨_, exec_evlWmark hd hb, by rw [hevl], by rw [hevl], State.raise_tells (State.setEvl_tbs _ _) _ _ _⟩

end

/-- Settles O42, one rule for each command of the ring, of the windows and of the watermark. -/
theorem ledgerRingAndWindowsWork : Obligations.LedgerRingAndWindowsWork := by
  unfold Obligations.LedgerRingAndWindowsWork
  refine ⟨fun s r q hp hq hn hr hx he => ledgerRecordProgram_begins hp hq hn hr hx he,
    fun s loc r hp => ⟨ledgerProgramDone_verified hp, ledgerProgramDone_failed hp, ledgerProgramDone_stops hp⟩,
    fun s p => ⟨windowLoad_requests s p, windowNext_requests s p⟩,
    fun s p last h => windowResult_answers h,
    fun s lo v hv => ⟨watermarkWrite_taken hv, watermarkWrite_outOfBounds hv,
      watermarkWrite_otherPath (by decide) s lo, watermarkWrite_otherPath (by decide) s lo⟩,
    fun s b hd hb => evlWmark_records hd hb, fun s n _ => ?_⟩
  exact ⟨_, rfl, rfl, rfl, State.setEvl_frame (List.Subset.refl _) (Frame.refl _ s)⟩

end Sys2Proof.Machine
end

