-- ==== Sys2Proof/Proofs/KeyCommands.lean ====
section
/-! PROOFS. Keys: exchanges, loads, clears, the shadow and the random bit generator (O52). First what a key command
reads in a state whose domains woke, and what a key slot holds after a change; then one rule for each command. -/

-- one proof after another: many at once would each hold a thread of the compiler
set_option Elab.async false

namespace Sys2Proof.Machine

open Sys2Proof

/-! ## What a key command reads -/

theorem spaceOf_congr {s t : State} (hf : t.fns = s.fns) (hm : t.map.spaces = s.map.spaces) (f nsid : Nat) :
    spaceOf t f nsid = spaceOf s f nsid := by
  have hspace : t.space = s.space := funext (State.space_congr hm)
  unfold spaceOf
  rw [State.fn_congr hf, hspace]

@[simp] theorem State.wake_key (s : State) (d : BitVec 256) : (s.wake d).key = s.key := (s.wake_keeps d).key_eq
@[simp] theorem State.wake_ans (s : State) (d : BitVec 256) : (s.wake d).ans = s.ans := (s.wake_keeps d).ans_eq
@[simp] theorem State.wake_tbs (s : State) (d : BitVec 256) : (s.wake d).tbs = s.tbs := (s.wake_keeps d).tbs_eq
@[simp] theorem State.wake_qmx (s : State) (d : BitVec 256) : (s.wake d).qmx = s.qmx := (s.wake_keeps d).qmx_eq
@[simp] theorem State.wake_map (s : State) (d : BitVec 256) : (s.wake d).map = s.map := (s.wake_keeps d).map_eq
@[simp] theorem State.wake_nor (s : State) (d : BitVec 256) : (s.wake d).nor = s.nor := (s.wake_keeps d).nor_eq
@[simp] theorem State.wake_hif (s : State) (d : BitVec 256) : (s.wake d).hif = s.hif := (s.wake_keeps d).hif_eq
@[simp] theorem State.wake_fuses (s : State) (d : BitVec 256) : (s.wake d).fuses = s.fuses := (s.wake_keeps d).fuses_eq
@[simp] theorem State.wake_draws (s : State) (d : BitVec 256) : (s.wake d).draws = s.draws := (s.wake_keeps d).draws_eq

/-- Waking a domain changes nothing that a key command reads. -/
theorem spaceOf_wake (s : State) (d : BitVec 256) (f nsid : Nat) : spaceOf (s.wake d) f nsid = spaceOf s f nsid :=
  spaceOf_congr (s.wake_keeps d).fns_eq (congrArg Map.spaces (s.wake_keeps d).map_eq) f nsid

theorem keySlot_wake (s : State) (d : BitVec 256) (k : Nat) : (s.wake d).keySlot k = s.keySlot k :=
  State.keySlot_congr (congrArg Key.slots (s.wake_keeps d).key_eq) k

/-- A command that ends after changes which keep its queues and the DSCP of a network completion. -/
theorem Frame.finish_ends_dscp {s t : State} {ps : List Part} {n : Nat} {c : Cmd} {x : Status} (hf : Frame ps s t)
    (h : s.cmd? n = some c) (hd : t.dscp = s.dscp) (hq : Part.qmx ∉ ps := by decide)
    (hfn : Part.fns ∉ ps := by decide) : s.ends (t.finish n x) n x 0 :=
  State.finish_ends h (by rw [hf.qmx_eq hq]) (hf.fns_eq hfn) hd

theorem Frame.finish_ends {s t : State} {ps : List Part} {n : Nat} {c : Cmd} {x : Status} (hf : Frame ps s t)
    (h : s.cmd? n = some c) (hr : Part.regs ∉ ps := by decide) (hq : Part.qmx ∉ ps := by decide)
    (hfn : Part.fns ∉ ps := by decide) : s.ends (t.finish n x) n x 0 :=
  hf.finish_ends_dscp h (hf.dscp_eq hr) hq hfn

theorem State.raise_dscp (s : State) (code : Nat) (f : Option Nat) (l : List (Nat × Nat)) :
    (s.raise code f l).dscp = s.dscp := State.raise_rd_ne _ _ _ _ (by decide)

theorem bumpSeq_dscp (s : State) (ns : Nat) : (bumpSeq s ns).dscp = s.dscp := by
  unfold bumpSeq
  split
  · rfl
  · rw [seqLimit_dscp]
    rfl

/-! ## Key slots -/

theorem State.setKeySlot_keySlot_ne (s : State) {k i : Nat} (x : KeySlot) (h : i ≠ k) :
    (s.setKeySlot k x).keySlot i = s.keySlot i := Tbl.getD_put_ne _ h _ _ _

/-- The slot of a namespace after a change of its key (R405). -/
def KeySlot.changed (k : KeySlot) (key : Option Nat) (source : KeySource) (owner keyId : Nat) : KeySlot :=
  { k with key := key, shadow := if k.key.isSome then k.key else k.shadow, source := source, owner := owner,
           keyId := keyId, gen := k.gen + 1 }

theorem changeKey_slots (s : State) (ns : Nat) (key : Option Nat) (source : KeySource) (owner keyId : Nat)
    (seq : Option Nat) : (changeKey s ns key source owner keyId seq).key.slots =
      (s.setKeySlot (keySlotNs ns) ((s.keySlot (keySlotNs ns)).changed key source owner keyId)).key.slots := by
  unfold changeKey
  dsimp only
  split
  · rfl
  · rw [State.setKey_key]
    rfl

theorem changeKey_keySlot (s : State) (ns : Nat) (key : Option Nat) (source : KeySource) (owner keyId : Nat)
    (seq : Option Nat) : (changeKey s ns key source owner keyId seq).keySlot (keySlotNs ns) =
      (s.keySlot (keySlotNs ns)).changed key source owner keyId :=
  (State.keySlot_congr (changeKey_slots ..) _).trans (State.setKeySlot_keySlot _ _ _)

theorem changeKey_keySlot_ne (s : State) (ns : Nat) (key : Option Nat) (source : KeySource) (owner keyId : Nat)
    (seq : Option Nat) {i : Nat} (h : i ≠ keySlotNs ns) :
    (changeKey s ns key source owner keyId seq).keySlot i = s.keySlot i :=
  (State.keySlot_congr (changeKey_slots ..) _).trans (State.setKeySlot_keySlot_ne _ _ h)

/-! ## Exchanges (R401, R402) -/

section
variable {s : State} {seq pub nonce nsid ns : Nat} {c : Cmd} {sp : Space} {data : List Byte}

/-- The offer that the device makes with the `n`th draw. -/
def offerOf (s : State) (pub nonce n f : Nat) : Offer :=
  { hostPub := pub, hostNonce := nonce, devPub := Config.ephemeral n, devNonce := Config.nonce n,
    sig := Config.aliasSign (aliasMeas s) (Config.sha384 (leBytes 97 pub ++ leBytes 32 nonce ++
      leBytes 97 (Config.ephemeral n) ++ leBytes 32 (Config.nonce n) ++ leBytes 1 f)) }

/-- The state in which function `f` has its wrapping key and its offer. -/
def exchanged (s : State) (pub nonce f : Nat) : State :=
  let n := (useDrbg (s.wake keyDomains)).draw.1
  let u := (useDrbg (s.wake keyDomains)).draw.2
  let v := u.setKeySlot f { u.keySlot f with
    key := some (exchangeKey u pub nonce n f), owner := f, gen := (u.keySlot f).gen + 1 }
  v.setKey { v.key with offers := Tbl.set v.key.offers f (offerOf u pub nonce n f) }

theorem exchanged_requests (s : State) (pub nonce f : Nat) :
    (exchanged s pub nonce f).key.requests = s.key.requests + 1 :=
  congrArg (fun k => k.requests + 1) (s.wake_key keyDomains)

theorem exchanged_offer (s : State) (pub nonce f : Nat) : ∃ o,
    Tbl.get (exchanged s pub nonce f).key.offers f = some o ∧ o.hostPub = pub ∧ o.hostNonce = nonce :=
  ⟨_, Tbl.get_set_self _ _ _, rfl, rfl⟩

theorem useDrbg_fuses (s : State) : (useDrbg s).fuses = s.fuses := (useDrbg_keeps s).fuses_eq

theorem useDrbg_draws (s : State) : (useDrbg s).draws = s.draws := (useDrbg_keeps s).draws_eq

/-- The wrapping key depends on the exchange and on the device serial alone. -/
theorem exchangeKey_congr {s t : State} (h : t.fuses = s.fuses) (pub nonce n f : Nat) :
    exchangeKey t pub nonce n f = exchangeKey s pub nonce n f := by
  unfold exchangeKey
  rw [h]

theorem exchanged_slots (s : State) (pub nonce f : Nat) : (exchanged s pub nonce f).key.slots =
    (s.setKeySlot f { s.keySlot f with
      key := some (exchangeKey s pub nonce s.draws f), owner := f, gen := (s.keySlot f).gen + 1 }).key.slots := by
  have hslots : (useDrbg (s.wake keyDomains)).draw.2.key.slots = s.key.slots :=
    (congrArg Key.slots (s.wake_key keyDomains) : (s.wake keyDomains).key.slots = s.key.slots)
  have hfuses : (useDrbg (s.wake keyDomains)).draw.2.fuses = s.fuses :=
    (useDrbg_fuses _).trans (s.wake_fuses _)
  have hdraws : (useDrbg (s.wake keyDomains)).draw.1 = s.draws := (useDrbg_draws _).trans (s.wake_draws _)
  unfold exchanged State.setKeySlot
  dsimp only [State.setKey_key]
  rw [hslots, State.keySlot_congr hslots, exchangeKey_congr hfuses, hdraws]

theorem exec_keyExchangeOffer (h : s.adminCmd seq = some c) (hh : s.key.health = true) :
    exec (.keyExchangeOffer seq pub nonce) s = .next ((exchanged s pub nonce c.fn).finish seq stOk) := by
  refine (exec_admin (i := .keyExchangeOffer seq pub nonce) rfl h).trans (congrArg Host.Outcome.next ?_)
  dsimp only
  rw [State.wake_key, hh, if_neg (by decide)]
  rfl

theorem exec_keyExchangeOffer_unhealthy (h : s.adminCmd seq = some c) (hh : s.key.health = false) :
    exec (.keyExchangeOffer seq pub nonce) s = .next ((s.wake keyDomains).finish seq stInternal) := by
  refine (exec_admin (i := .keyExchangeOffer seq pub nonce) rfl h).trans (congrArg Host.Outcome.next ?_)
  exact if_pos (by rw [State.wake_key, hh]; rfl)

theorem exchanged_keeps (s : State) (pub nonce f : Nat) : Frame [.gate, .key, .draws] s (exchanged s pub nonce f) :=
  State.setKey_frame (by decide) (State.setKeySlot_frame (by decide) (State.draw_frame (by decide)
    (useDrbg_frame (by decide) (State.wake_frame (by decide) (Frame.refl _ s)))))

theorem keyExchangeOffer_sets (h : s.adminCmd seq = some c) (hh : s.key.health = true) :
    ∃ t o, exec (.keyExchangeOffer seq pub nonce) s = .next t ∧ s.ends t seq stOk 0 ∧
      (t.keySlot c.fn).key = some (exchangeKey s pub nonce s.draws c.fn) ∧
      (t.keySlot c.fn).gen = (s.keySlot c.fn).gen + 1 ∧ Tbl.get t.key.offers c.fn = some o ∧ o.hostPub = pub ∧
      o.hostNonce = nonce ∧ t.key.requests = s.key.requests + 1 ∧
      (∀ k, k ≠ c.fn → t.keySlot k = s.keySlot k) := by
  have hslot (k : Nat) := (State.keySlot_congr (congrArg Key.slots (State.finish_key (exchanged s pub nonce c.fn) seq
    stOk)) k).trans (State.keySlot_congr (exchanged_slots s pub nonce c.fn) k)
  obtain ⟨o, ho, hp, hn⟩ := exchanged_offer s pub nonce c.fn
  refine ⟨_, o, exec_keyExchangeOffer h hh, (exchanged_keeps s pub nonce c.fn).finish_ends
    (State.adminCmd_cmd? h), ?_, ?_, ?_, hp, hn, ?_, fun k hk => ?_⟩
  · rw [hslot, State.setKeySlot_keySlot]
  · rw [hslot, State.setKeySlot_keySlot]
  · rw [State.finish_key, ho]
  · rw [State.finish_key, exchanged_requests]
  · rw [hslot, State.setKeySlot_keySlot_ne _ _ hk]

theorem exchangeResponse_answers {o : Offer} (h : s.adminCmd seq = some c)
    (ho : Tbl.get s.key.offers c.fn = some o) : ∃ t, exec (.exchangeResponse seq) s = .next t ∧ s.ends t seq stOk 0 ∧
      t.key = s.key ∧ t.ans = .bytes (leBytes 97 o.devPub ++ leBytes 32 o.devNonce ++ leBytes 96 o.sig) := by
  have hi : exec (.exchangeResponse seq) s = .next ((s.wake keyDomains).reply seq
      (leBytes 97 o.devPub ++ leBytes 32 o.devNonce ++ leBytes 96 o.sig)) := by
    refine (exec_admin (i := .exchangeResponse seq) rfl h).trans (congrArg Host.Outcome.next ?_)
    dsimp only
    rw [State.wake_key, ho]
  obtain ⟨t, ht, hends, hans⟩ := exec_replies (State.adminCmd_cmd? h) hi (s.wake_keeps _)
  refine ⟨t, ht, hends, ?_, hans⟩
  cases hi.symm.trans ht
  rw [State.reply_key, State.wake_key]

theorem exchangeResponse_refuses (h : s.adminCmd seq = some c) (ho : Tbl.get s.key.offers c.fn = none) :
    ∃ t, exec (.exchangeResponse seq) s = .next t ∧ s.ends t seq stSequence 0 ∧ t.ans = s.ans := by
  have hi : exec (.exchangeResponse seq) s = .next ((s.wake keyDomains).finish seq stSequence) := by
    refine (exec_admin (i := .exchangeResponse seq) rfl h).trans (congrArg Host.Outcome.next ?_)
    dsimp only
    rw [State.wake_key, ho]
  exact exec_finishes_after (State.adminCmd_cmd? h) hi (s.wake_keeps _)

theorem certificateChain_answers (h : s.adminCmd seq = some c) (off len : Nat) :
    ∃ t, exec (.certificateChain seq off len) s = .next t ∧ s.ends t seq stOk 0 ∧
      t.ans = .bytes (((Config.certChain (aliasMeas s)).drop off).take (min len 4096)) :=
  exec_replies (State.adminCmd_cmd? h) (exec_admin (i := .certificateChain seq off len) rfl h) (s.wake_keeps _)

/-! ## Key status and clears (R401, R404, R405) -/

/-- A key command that ends at once, in a state in which only its domains woke, changes no key. -/
theorem exec_endsAwake {i : Instr} {x : Status} (h : s.adminCmd seq = some c)
    (hi : exec i s = .next ((s.wake keyDomains).finish seq x)) :
    ∃ t, exec i s = .next t ∧ s.ends t seq x 0 ∧ t.key = s.key ∧ t.ans = s.ans := by
  refine ⟨_, hi, (s.wake_keeps _).finish_ends (State.adminCmd_cmd? h), ?_, ?_⟩
  · rw [State.finish_key, State.wake_key]
  · rw [State.finish_ans, State.wake_ans]

theorem keyStatus_answers (h : s.adminCmd seq = some c) (hs : spaceOf s c.fn nsid = some (ns, sp)) :
    ∃ t b, exec (.keyStatus seq nsid) s = .next t ∧ s.ends t seq stOk 0 ∧ t.ans = .bytes b ∧ b.length = 16 ∧
      t.key = s.key := by
  have hi : ∃ b, b.length = 16 ∧ exec (.keyStatus seq nsid) s = .next ((s.wake keyDomains).reply seq b) := by
    rw [exec_admin (i := .keyStatus seq nsid) rfl h]
    dsimp only
    rw [spaceOf_wake, hs]
    refine ⟨_, ?_, rfl⟩
    simp only [List.length_append, leBytes_length]
  obtain ⟨b, hb, hi⟩ := hi
  obtain ⟨t, ht, hends, hans⟩ := exec_replies (State.adminCmd_cmd? h) hi (s.wake_keeps _)
  refine ⟨t, b, ht, hends, hans, hb, ?_⟩
  cases hi.symm.trans ht
  rw [State.reply_key, State.wake_key]

/-- Without the namespace a key command is refused, whatever the keys. -/
theorem keyCommand_noSpace {i : Instr} (h : s.adminCmd seq = some c) (hs : spaceOf s c.fn nsid = none)
    (hi : i = .keyStatus seq nsid ∨ (i = .clearKey seq nsid ∧ nsid ≠ 0xFFFFFFFF) ∨ i = .loadNamespaceKey seq nsid data) :
    exec i s = .next ((s.wake keyDomains).finish seq stInvalidNs) := by
  rcases hi with rfl | ⟨rfl, hn⟩ | rfl
  · rw [exec_admin (i := .keyStatus seq nsid) rfl h]
    dsimp only
    rw [spaceOf_wake, hs]
  · rw [exec_admin (i := .clearKey seq nsid) rfl h]
    dsimp only
    rw [if_neg hn, spaceOf_wake, hs]
  · rw [exec_admin (i := .loadNamespaceKey seq nsid data) rfl h]
    dsimp only
    rw [spaceOf_wake, hs]

theorem clearKey_empties (h : s.adminCmd seq = some c) (hs : spaceOf s c.fn nsid = some (ns, sp))
    (hk : (s.keySlot (keySlotNs ns)).key.isSome = true) (hn : nsid ≠ 0xFFFFFFFF) :
    ∃ t, exec (.clearKey seq nsid) s = .next t ∧ s.waits t seq ∧ (t.keySlot (keySlotNs ns)).key = none ∧
      (t.keySlot (keySlotNs ns)).shadow = (s.keySlot (keySlotNs ns)).key ∧
      (∀ k, k ≠ keySlotNs ns → t.keySlot k = s.keySlot k) := by
  have hi : exec (.clearKey seq nsid) s = .next
      (changeKey ((s.wake keyDomains).hold seq) ns none sp.source sp.owner 0 (some seq)) := by
    rw [exec_admin (i := .clearKey seq nsid) rfl h]
    dsimp only
    rw [if_neg hn, spaceOf_wake, hs]
    dsimp only
    rw [keySlot_wake, if_neg (by simpa [Option.isNone_iff_eq_none] using Option.isSome_iff_ne_none.1 hk)]
  have hheld (k : Nat) : ((s.wake keyDomains).hold seq).keySlot k = s.keySlot k :=
    (State.keySlot_congr (congrArg Key.slots (State.hold_key _ _)) k).trans (keySlot_wake _ _ k)
  have hchange := changeKey_frame (ns := ns) (key := none) (source := sp.source) (owner := sp.owner) (keyId := 0)
    (seq := some seq) (List.Subset.refl _) (Frame.refl _ ((s.wake keyDomains).hold seq))
  refine ⟨_, hi, State.waits_then (State.hold_waits (t := s.wake keyDomains) (State.adminCmd_cmd? h)
    (by rw [State.wake_qmx])) (by rw [hchange.qmx_eq]), ?_, ?_, fun k hkn => ?_⟩
  · rw [changeKey_keySlot]
    rfl
  · rw [changeKey_shadow, hheld, if_pos hk]
  · rw [changeKey_keySlot_ne _ _ _ _ _ _ _ hkn, hheld]

theorem clearKey_ofEmpty (h : s.adminCmd seq = some c) (hs : spaceOf s c.fn nsid = some (ns, sp))
    (hk : (s.keySlot (keySlotNs ns)).key = none) (hn : nsid ≠ 0xFFFFFFFF) :
    exec (.clearKey seq nsid) s = .next ((s.wake keyDomains).finish seq stOk) := by
  rw [exec_admin (i := .clearKey seq nsid) rfl h]
  dsimp only
  rw [if_neg hn, spaceOf_wake, hs]
  dsimp only
  rw [keySlot_wake, hk, if_pos (by rfl)]

theorem clearMigrationKey_tenant (h : s.adminCmd seq = some c) (h0 : c.fn ≠ 0) :
    exec (.clearKey seq 0xFFFFFFFF) s = .next ((s.wake keyDomains).finish seq stInvalidField) := by
  rw [exec_admin (i := .clearKey seq 0xFFFFFFFF) rfl h]
  dsimp only
  rw [if_pos rfl, if_pos h0]

theorem clearMigrationKey_clears (h : s.adminCmd seq = some c) (h0 : c.fn = 0) :
    ∃ t, exec (.clearKey seq 0xFFFFFFFF) s = .next t ∧ s.ends t seq stOk 0 ∧ (t.keySlot 256).key = none ∧
      (∀ i, i ≠ 256 → t.keySlot i = s.keySlot i) := by
  have hi : exec (.clearKey seq 0xFFFFFFFF) s = .next (((s.wake keyDomains).setKeySlot 256
      { KeySlot.empty with gen := ((s.wake keyDomains).keySlot 256).gen + 1 }).finish seq stOk) := by
    rw [exec_admin (i := .clearKey seq 0xFFFFFFFF) rfl h]
    dsimp only
    rw [if_pos rfl, if_neg (not_not_intro h0)]
  have hkeeps := State.setKeySlot_frame (k := 256)
    (x := { KeySlot.empty with gen := ((s.wake keyDomains).keySlot 256).gen + 1 }) (by decide)
    (State.wake_frame (d := keyDomains) (by decide) (Frame.refl [.gate, .key] s))
  refine ⟨_, hi, hkeeps.finish_ends (State.adminCmd_cmd? h), ?_, fun i hne => ?_⟩
  · rw [State.keySlot_congr (congrArg Key.slots (State.finish_key _ _ _)), State.setKeySlot_keySlot]
    rfl
  · rw [State.keySlot_congr (congrArg Key.slots (State.finish_key _ _ _)), State.setKeySlot_keySlot_ne _ _ hne,
      keySlot_wake]

/-! ## Loads (R403, R404) -/

theorem unwrapFor_congr {t : State} (hk : t.key.slots = s.key.slots) (hn : t.nor.keys = s.nor.keys) (hm : t.map = s.map)
    (f : Nat) (b : KeyBlob) : unwrapFor t f ns sp b = unwrapFor s f ns sp b := by
  unfold unwrapFor keyRec
  rw [State.keySlot_congr hk, hn, show hasData t ns = hasData s ns by unfold hasData; rw [hm]]

theorem unwrapFor_wake (d : BitVec 256) (f : Nat) (b : KeyBlob) :
    unwrapFor (s.wake d) f ns sp b = unwrapFor s f ns sp b :=
  unwrapFor_congr (by rw [State.wake_key]) (by rw [State.wake_nor]) (by rw [State.wake_map]) f b

theorem loadDone_shows (s : State) (f slot keyId : Nat) : (loadDone s f slot keyId).shows eKEY_LOAD :=
  State.raise_shows (State.ev_shows _ (by decide)) _ _ _

theorem loadDone_key (s : State) (f slot keyId : Nat) : (loadDone s f slot keyId).key = s.key :=
  (loadDone_frame (List.Subset.refl _) (Frame.refl _ s)).key_eq

theorem loadDone_dscp (s : State) (f slot keyId : Nat) : (loadDone s f slot keyId).dscp = s.dscp :=
  (State.raise_dscp _ _ _ _).trans (State.bump_rd_ne (f := rKEY_LOADS) _ _ (by decide))

/-- A refused load ends its command, is counted and recorded, and loads nothing. -/
theorem exec_refusesLoad {i : Instr} (h : s.adminCmd seq = some c)
    (hi : exec i s = .next (refuseLoad (s.wake keyDomains) c.fn seq)) :
    ∃ t, exec i s = .next t ∧ s.ends t seq stInvalidField 0 ∧ t.key = s.key ∧ t.shows eKEY_UNWRAP_FAIL ∧
      s.tells t lKEY_UNWRAP_FAIL (some c.fn) [] := by
  have hkeeps : Frame [.gate, .evl, .pages, .regs] s ((((s.wake keyDomains).bump rKEY_UNWRAP_FAIL 1).ev
      eKEY_UNWRAP_FAIL).raise lKEY_UNWRAP_FAIL (some c.fn) []) :=
    State.raise_frame (by decide) (State.ev_frame (by decide) (State.bump_frame (by decide)
      (State.wake_frame (by decide) (Frame.refl _ s))))
  refine ⟨_, hi, hkeeps.finish_ends_dscp (State.adminCmd_cmd? h) ?_, ?_, ?_, ?_⟩
  · exact (State.raise_dscp _ _ _ _).trans ((State.bump_rd_ne (f := rKEY_UNWRAP_FAIL) _ _ (by decide)).trans
      (s.wake_keeps _).dscp_eq)
  · exact (State.finish_key _ _ _).trans hkeeps.key_eq
  · exact State.shows_congr (State.raise_shows (State.ev_shows _ (by decide)) _ _ _) (State.finish_pages _ _ _)
  · exact State.tells_congr (State.raise_tells (by rw [State.ev_tbs, State.bump_tbs, State.wake_tbs]) _ _ _)
      (State.finish_evl _ _ _)

/-- The state in which a namespace's key `k` has been taken, counted and recorded. -/
def keyTaken (s : State) (f ns : Nat) (sp : Space) (k keyId : Nat) : State :=
  let u := loadDone (bumpSeq (changeKey (s.wake keyDomains) ns (some k) sp.source sp.owner keyId none) ns) f
    (keySlotNs ns) keyId
  u.setKey { u.key with waitKeys := u.key.waitKeys.filter (· != ns) }

theorem keyTaken_keeps (s : State) (f ns : Nat) (sp : Space) (k keyId : Nat) :
    Frame [.gate, .map, .evl, .pages, .regs, .key] s (keyTaken s f ns sp k keyId) :=
  State.setKey_frame (by decide) (loadDone_frame (by decide) (bumpSeq_frame (by decide) (changeKey_frame (by decide)
    (State.wake_frame (by decide) (Frame.refl _ s)))))

theorem State.setKey_dscp (s : State) (x : Key) : (s.setKey x).dscp = s.dscp := rfl

theorem keyTaken_dscp (s : State) (f ns : Nat) (sp : Space) (k keyId : Nat) :
    (keyTaken s f ns sp k keyId).dscp = s.dscp := by
  have hc : (changeKey (s.wake keyDomains) ns (some k) sp.source sp.owner keyId none).dscp = s.dscp :=
    (changeKey_frame (by decide) (State.wake_frame (by decide) (Frame.refl [.gate, .key] s))).dscp_eq
  unfold keyTaken
  rw [State.setKey_dscp, loadDone_dscp, bumpSeq_dscp, hc]

theorem keyTaken_slots (s : State) (f ns : Nat) (sp : Space) (k keyId : Nat) : (keyTaken s f ns sp k keyId).key.slots =
    (changeKey (s.wake keyDomains) ns (some k) sp.source sp.owner keyId none).key.slots := by
  unfold keyTaken
  rw [State.setKey_key]
  dsimp only
  rw [loadDone_key, (bumpSeq_frame (List.Subset.refl _) (Frame.refl _ _)).key_eq]

theorem keyTaken_keySlot (s : State) (f ns : Nat) (sp : Space) (k keyId : Nat) :
    (keyTaken s f ns sp k keyId).keySlot (keySlotNs ns) =
      (s.keySlot (keySlotNs ns)).changed (some k) sp.source sp.owner keyId :=
  (State.keySlot_congr (keyTaken_slots ..) _).trans ((changeKey_keySlot ..).trans (by rw [keySlot_wake]))

theorem keyTaken_keySlot_ne (s : State) (f ns : Nat) (sp : Space) (k keyId : Nat) {i : Nat} (hi : i ≠ keySlotNs ns) :
    (keyTaken s f ns sp k keyId).keySlot i = s.keySlot i :=
  (State.keySlot_congr (keyTaken_slots ..) _).trans ((changeKey_keySlot_ne _ _ _ _ _ _ _ hi).trans (keySlot_wake ..))

theorem keyTaken_shows (s : State) (f ns : Nat) (sp : Space) (k keyId : Nat) :
    (keyTaken s f ns sp k keyId).shows eKEY_LOAD := by
  unfold keyTaken
  exact State.shows_congr (loadDone_shows _ _ _ _) (State.setKey_pages _ _)

section
variable {k : Nat} (h : s.adminCmd seq = some c) (hs : spaceOf s c.fn nsid = some (ns, sp))
include h hs

/-- A load that the namespace does not allow is refused. -/
theorem loadNamespaceKey_notAdmitted (hr : c.fn ≠ sp.owner ∨ sp.source = .generated ∨ sp.mode = .none) :
    exec (.loadNamespaceKey seq nsid data) s = .next ((s.wake keyDomains).finish seq stInvalidField) := by
  rw [exec_admin (i := .loadNamespaceKey seq nsid data) rfl h]
  dsimp only
  rw [spaceOf_wake, hs]
  dsimp only
  rw [if_pos hr]

theorem loadNamespaceKey_refused (hr : ¬(c.fn ≠ sp.owner ∨ sp.source = .generated ∨ sp.mode = .none))
    (hu : unwrapFor s c.fn ns sp (keyBlob data) = none) :
    exec (.loadNamespaceKey seq nsid data) s = .next (refuseLoad (s.wake keyDomains) c.fn seq) := by
  rw [exec_admin (i := .loadNamespaceKey seq nsid data) rfl h]
  dsimp only
  rw [spaceOf_wake, hs]
  dsimp only
  rw [if_neg hr, unwrapFor_wake, hu]

/-- A load that is accepted: in the state `u` the key has been taken, and the record `r` is written or put. -/
theorem loadNamespaceKey_taken (hr : ¬(c.fn ≠ sp.owner ∨ sp.source = .generated ∨ sp.mode = .none))
    (hu : unwrapFor s c.fn ns sp (keyBlob data) = some k) : ∃ u r,
      Frame [.gate, .map, .evl, .pages, .regs, .key] s u ∧ u.dscp = s.dscp ∧ u.shows eKEY_LOAD ∧
      u.keySlot (keySlotNs ns) = (s.keySlot (keySlotNs ns)).changed (some k) sp.source sp.owner (keyBlob data).keyId ∧
      (∀ i, i ≠ keySlotNs ns → u.keySlot i = s.keySlot i) ∧
      exec (.loadNamespaceKey seq nsid data) s = .next (if sp.source = .persistent then
        (u.hold seq).writeKeyRec ns r [seq] 0 else (u.setNor (u.nor.putKey ns r)).finish seq stOk) := by
  refine ⟨keyTaken s c.fn ns sp k (keyBlob data).keyId, newKeyRec sp (some k) (keyBlob data).keyId
    (((keyRec (s.wake keyDomains) ns).map KeyRec.erased).getD []), keyTaken_keeps _ _ _ _ _ _, keyTaken_dscp .., keyTaken_shows ..,
    keyTaken_keySlot .., fun i hi => keyTaken_keySlot_ne _ _ _ _ _ _ hi, ?_⟩
  rw [exec_admin (i := .loadNamespaceKey seq nsid data) rfl h]
  dsimp only
  rw [spaceOf_wake, hs]
  dsimp only
  rw [if_neg hr, unwrapFor_wake, hu]
  rfl

theorem loadNamespaceKey_volatile (ho : c.fn = sp.owner) (hv : sp.source = .volatile) (hm : sp.mode ≠ .none)
    (hu : unwrapFor s c.fn ns sp (keyBlob data) = some k) :
    ∃ t, exec (.loadNamespaceKey seq nsid data) s = .next t ∧ s.ends t seq stOk 0 ∧
      (t.keySlot (keySlotNs ns)).key = some k ∧ (t.keySlot (keySlotNs ns)).keyId = (keyBlob data).keyId ∧
      t.shows eKEY_LOAD := by
  obtain ⟨u, r, hkeeps, hdscp, hshows, hslot, -, hi⟩ := loadNamespaceKey_taken h hs (by simp [ho, hv, hm]) hu
  rw [if_neg (by rw [hv]; decide)] at hi
  have hput : Frame [.gate, .map, .evl, .pages, .regs, .key, .nor] s (u.setNor (u.nor.putKey ns r)) :=
    State.setNor_frame (by decide) (hkeeps.mono (by decide))
  have hslot' : ((u.setNor (u.nor.putKey ns r)).finish seq stOk).keySlot (keySlotNs ns) = _ :=
    (State.keySlot_congr (congrArg Key.slots (State.finish_key _ _ _)) _).trans hslot
  refine ⟨_, hi, hput.finish_ends_dscp (State.adminCmd_cmd? h) hdscp, ?_, ?_,
    State.shows_congr hshows (State.finish_pages _ _ _)⟩
  · rw [hslot']
    rfl
  · rw [hslot']
    rfl

theorem loadNamespaceKey_persistent (ho : c.fn = sp.owner) (hp : sp.source = .persistent) (hm : sp.mode ≠ .none)
    (hu : unwrapFor s c.fn ns sp (keyBlob data) = some k) :
    ∃ t, exec (.loadNamespaceKey seq nsid data) s = .next t ∧ s.waits t seq ∧
      (t.keySlot (keySlotNs ns)).key = some k ∧ (t.keySlot (keySlotNs ns)).keyId = (keyBlob data).keyId ∧
      (t.keySlot (keySlotNs ns)).gen = (s.keySlot (keySlotNs ns)).gen + 1 ∧ t.shows eKEY_LOAD ∧
      (∀ i, i ≠ keySlotNs ns → t.keySlot i = s.keySlot i) := by
  obtain ⟨u, r, hkeeps, -, hshows, hslot, hother, hi⟩ := loadNamespaceKey_taken h hs (by simp [ho, hp, hm]) hu
  rw [if_pos hp] at hi
  have hslot' : ((u.hold seq).writeKeyRec ns r [seq] 0).keySlot (keySlotNs ns) = _ := hslot
  refine ⟨_, hi, State.waits_then (State.hold_waits (State.adminCmd_cmd? h) (by rw [hkeeps.qmx_eq])) rfl, ?_, ?_, ?_,
    State.shows_congr hshows rfl, hother⟩
  · rw [hslot']
    rfl
  · rw [hslot']
    rfl
  · rw [hslot']
    rfl

end

section
variable (h : s.adminCmd seq = some c) (h0 : c.fn = 0)
include h h0

theorem loadMigrationKey_loads {kwk k : Nat} (hw : (s.keySlot 0).key = some kwk)
    (hu : Config.keyUnwrap kwk (keyBlob data).wrapped = some k) (hb : blobFits (keyBlob data) 256 = true) :
    ∃ t, exec (.loadMigrationKey seq data) s = .next t ∧ s.ends t seq stOk 0 ∧ (t.keySlot 256).key = some k ∧
      (t.keySlot 256).gen = (s.keySlot 256).gen + 1 ∧ (∀ i, i ≠ 256 → t.keySlot i = s.keySlot i) := by
  have hi : exec (.loadMigrationKey seq data) s = .next ((loadDone ((s.wake keyDomains).setKeySlot 256
      { (s.wake keyDomains).keySlot 256 with
        key := some k, source := .volatile, owner := 0, keyId := (keyBlob data).keyId,
        gen := ((s.wake keyDomains).keySlot 256).gen + 1 }) c.fn 256 (keyBlob data).keyId).finish seq stOk) := by
    rw [exec_manager (i := .loadMigrationKey seq data) rfl h h0]
    dsimp only
    rw [keySlot_wake, hw, Option.bind_some, hu]
    dsimp only
    rw [hb, if_neg (by decide)]
  have hslot (i : Nat) (u : State) : ((loadDone u c.fn 256 (keyBlob data).keyId).finish seq stOk).keySlot i =
      u.keySlot i :=
    State.keySlot_congr (congrArg Key.slots ((State.finish_key _ _ _).trans (loadDone_key ..))) i
  have hset (x : KeySlot) : Frame [.gate, .key, .evl, .pages, .regs] s ((s.wake keyDomains).setKeySlot 256 x) :=
    State.setKeySlot_frame (by decide) (State.wake_frame (by decide) (Frame.refl _ s))
  refine ⟨_, hi, (loadDone_frame (by decide) (hset _)).finish_ends_dscp (State.adminCmd_cmd? h)
    ((loadDone_dscp ..).trans (s.wake_keeps keyDomains).dscp_eq), ?_, ?_, fun i hne => ?_⟩
  · rw [hslot, State.setKeySlot_keySlot]
  · rw [hslot, State.setKeySlot_keySlot]
    exact congrArg (fun x => x.gen + 1) (keySlot_wake s keyDomains 256)
  · rw [hslot, State.setKeySlot_keySlot_ne _ _ hne, keySlot_wake]

theorem loadMigrationKey_refuses
    (hb : ((s.keySlot 0).key.bind fun kwk => Config.keyUnwrap kwk (keyBlob data).wrapped) = none ∨
      blobFits (keyBlob data) 256 = false) :
    exec (.loadMigrationKey seq data) s = .next (refuseLoad (s.wake keyDomains) c.fn seq) := by
  rw [exec_manager (i := .loadMigrationKey seq data) rfl h h0]
  dsimp only
  rw [keySlot_wake]
  rcases hb with hb | hb
  · rw [hb]
  · split
    · rfl
    · rw [hb, if_pos (by rfl)]

end
end

/-! ## The shadow (R405) -/

/-- The commands that wait for the shadow of slot `k`. -/
def shadowWaiters (s : State) (k : Nat) : List Nat :=
  (s.key.clears.filter fun x => x.slot == k).filterMap KeyClear.seq

/-- The state in which the shadow of slot `k` is zero and no clear waits for it. -/
def shadowCleared (s : State) (k : Nat) : State :=
  let u := s.setKeySlot k { s.keySlot k with shadow := none }
  u.setKey { u.key with clears := u.key.clears.filter fun x => x.slot != k }

theorem shadowCleared_slots (s : State) (k : Nat) : (shadowCleared s k).key.slots =
    (s.setKeySlot k { s.keySlot k with shadow := none }).key.slots := rfl

theorem exec_shadowZeroize {s : State} {k : Nat} (h : shadowUsed s k = false) :
    exec (.shadowZeroize k) s = .next (finishAll (shadowWaiters s k) stOk (shadowCleared s k)) :=
  congrArg Host.Outcome.next (if_neg (ne_true_of_eq_false h))

theorem shadowZeroize_zeroizes {s : State} {k : Nat} (h : shadowUsed s k = false) :
    ∃ t, exec (.shadowZeroize k) s = .next t ∧ (t.keySlot k).shadow = none ∧
      (t.keySlot k).key = (s.keySlot k).key ∧ (∀ i, i ≠ k → t.keySlot i = s.keySlot i) ∧
      (∀ x ∈ s.key.clears, x.slot = k → ∀ q, x.seq = some q → t.cmd? q = none) ∧
      t.key.clears = s.key.clears.filter fun x => x.slot != k := by
  have hkey : (finishAll (shadowWaiters s k) stOk (shadowCleared s k)).key = (shadowCleared s k).key :=
    (finishAll_keeps _ _ _).key_eq
  have hslots := (congrArg Key.slots hkey).trans (shadowCleared_slots s k)
  refine ⟨_, exec_shadowZeroize h, ?_, ?_, fun i hne => ?_, fun x hx hxk q hq => ?_, ?_⟩
  · rw [State.keySlot_congr hslots, State.setKeySlot_keySlot]
  · rw [State.keySlot_congr hslots, State.setKeySlot_keySlot]
  · rw [State.keySlot_congr hslots, State.setKeySlot_keySlot_ne _ _ hne]
  · have hmem : x ∈ s.key.clears.filter fun x => x.slot == k := List.mem_filter.2 ⟨hx, beq_iff_eq.2 hxk⟩
    exact finishAll_cmd? _ _ _ (List.mem_filterMap.2 ⟨x, hmem, hq⟩)
  · rw [hkey]
    rfl

/-! ## The random bit generator (R409) -/

theorem drbgReseed_restarts {s : State} (h : 2 ^ 20 ≤ s.key.requests) :
    ∃ t, exec .drbgReseed s = .next t ∧ t.key.requests = 0 ∧ t.key.slots = s.key.slots ∧ Frame [.key, .regs] s t := by
  have hi : exec .drbgReseed s = .next ((s.setKey { s.key with requests := 0 }).bump rKEY_RESEEDS 1) :=
    congrArg Host.Outcome.next (if_neg (Nat.not_lt.2 h))
  exact ⟨_, hi, by rw [State.bump_key]; rfl, by rw [State.bump_key]; rfl, exec_frame_of_next hi⟩

theorem keyDrbgFail_records (s : State) : ∃ t, exec .keyDrbgFail s = .next t ∧ t.key.health = false ∧
    t.shows eKEY_DRBG_FAIL ∧ s.tells t lKEY_DRBG_FAIL none [] ∧ t.key.slots = s.key.slots := by
  have hkey : ((((s.setKey { s.key with health := false }).ev eKEY_DRBG_FAIL).raise lKEY_DRBG_FAIL none [])).key =
      { s.key with health := false } := by
    rw [State.raise_key, State.ev_key, State.setKey_key]
  exact ⟨_, rfl, by rw [hkey], State.raise_shows (State.ev_shows _ (by decide)) _ _ _,
    State.raise_tells (by rw [State.ev_tbs, State.setKey_tbs]) _ _ _, by rw [hkey]⟩

/-! ## O52 -/

/-- Settles O52, command by command. -/
theorem keyCommandsComplete : Obligations.KeyCommandsComplete := by
  refine ⟨fun s seq pub nonce c h => ⟨keyExchangeOffer_sets h, fun hh => ?_, fun o => exchangeResponse_answers h,
      exchangeResponse_refuses h, certificateChain_answers h⟩,
    fun s seq nsid ns sp c h hs => ⟨keyStatus_answers h hs, clearKey_empties h hs, fun hk hn => ?_,
      fun data k => loadNamespaceKey_volatile h hs, fun data k => loadNamespaceKey_persistent h hs,
      fun data ho hg hm hu => exec_refusesLoad h (loadNamespaceKey_refused h hs (by simp [ho, hg, hm]) hu),
      fun data hr => ?_⟩,
    fun s seq nsid c data i h hs hi => exec_endsAwake h (keyCommand_noSpace h hs hi), fun s seq c h h0 => ?_,
    fun s seq data c h h0 => ⟨fun kwk k => loadMigrationKey_loads h h0, fun hb => ?_, clearMigrationKey_clears h h0⟩,
    fun s k => shadowZeroize_zeroizes, fun s k hu => congrArg Host.Outcome.next (if_pos hu),
    fun s => drbgReseed_restarts, keyDrbgFail_records⟩
  · obtain ⟨t, ht, hends, hkey, -⟩ := exec_endsAwake h (exec_keyExchangeOffer_unhealthy h hh)
    exact ⟨t, ht, hends, hkey⟩
  · obtain ⟨t, ht, hends, hkey, -⟩ := exec_endsAwake h (clearKey_ofEmpty h hs hk hn)
    exact ⟨t, ht, hends, hkey⟩
  · obtain ⟨t, ht, hends, hkey, -⟩ := exec_endsAwake h (loadNamespaceKey_notAdmitted h hs hr)
    exact ⟨t, ht, hends, hkey⟩
  · obtain ⟨t, ht, hends, hkey, -⟩ := exec_endsAwake h (clearMigrationKey_tenant h h0)
    exact ⟨t, ht, hends, hkey⟩
  · obtain ⟨t, ht, hends, hkey, -⟩ := exec_refusesLoad h (loadMigrationKey_refuses h h0 hb)
    exact ⟨t, ht, hends, hkey⟩

end Sys2Proof.Machine
end

