-- ==== Sys2Proof/Proofs/SpdmSessions.lean ====
section
/-! PROOFS. SPDM requests and IDE key management (O53): what a transport that works does first, what a request needs of
the negotiation and of its session, and then one rule for each request. -/

-- one proof after another: many at once would each hold a thread of the compiler
set_option Elab.async false

namespace Sys2Proof.Machine

open Sys2Proof

/-! ## Transports and the negotiation (R411) -/

/-- The transport works: DOE has a port that is up, and SBI is powered for MCTP. -/
def spdmWorks (s : State) (doe : Bool) : Bool := if doe then s.hif.ports.any fun p => p.2.up else sbiPowered s

/-- The state in which a message has arrived on a transport that works. -/
def spdmArrived (s : State) (doe : Bool) : State :=
  if doe then s.wake (domains 25 25 ||| domains 27 27 ||| keyDomains)
  else (s.wake (smbusDomain ||| keyDomains)).bump rSBI_MCTP_RX 1

theorem spdmIn_works {s : State} {doe : Bool} (h : spdmWorks s doe = true) (act : State → State) :
    spdmIn s doe act = act (spdmArrived s doe) := by
  cases doe
  · exact if_pos h
  · exact if_pos h

theorem spdmArrived_keeps (s : State) (doe : Bool) : Frame [.gate, .regs] s (spdmArrived s doe) := by
  cases doe
  · exact State.bump_frame (by decide) (State.wake_frame (by decide) (Frame.refl _ s))
  · exact State.wake_frame (by decide) (Frame.refl _ s)

theorem spdmArrived_key (s : State) (doe : Bool) : (spdmArrived s doe).key = s.key := (spdmArrived_keeps s doe).key_eq

theorem spdmArrived_step (s : State) (doe d : Bool) : spdmStep (spdmArrived s doe) d = spdmStep s d := by
  unfold spdmStep
  rw [spdmArrived_key]

theorem spdmArrived_aliasMeas (s : State) (doe : Bool) : aliasMeas (spdmArrived s doe) = aliasMeas s := by
  unfold aliasMeas
  rw [spdmArrived_key]

theorem spdmArrived_measOf (s : State) (doe : Bool) (index : Nat) : measOf (spdmArrived s doe) index = measOf s index := by
  unfold measOf
  rw [spdmArrived_key]

theorem setSpdm_step (s : State) (doe : Bool) (n : Nat) : spdmStep (setSpdm s doe n) doe = n :=
  Tbl.getD_put_self _ _ _ _

theorem setSpdm_step_other (s : State) (doe : Bool) (n : Nat) : spdmStep (setSpdm s doe n) (!doe) = spdmStep s (!doe) :=
  Tbl.getD_put_ne _ (by cases doe <;> decide) _ _ _

section
variable {s u : State} {doe : Bool} {i : Instr} {a : Answer}

/-- A request that answers in a state which keeps KEY. -/
theorem exec_answers (hi : exec i s = .next (u.answer a)) (hk : u.key = s.key) :
    ∃ t, exec i s = .next t ∧ t.ans = a ∧ t.key = s.key :=
  ⟨_, hi, rfl, hk⟩

/-- A request that is refused on arrival changes nothing of KEY. -/
theorem exec_spdmRefuses {code : Nat} (hi : exec i s = .next (spdmError (spdmArrived s doe) code)) :
    ∃ t, exec i s = .next t ∧ t.ans = .refusal code ∧ t.key = s.key :=
  exec_answers hi (spdmArrived_key s doe)

/-! ## The negotiation itself -/

section
variable (h : spdmWorks s doe = true)
include h

theorem getVersion_begins : ∃ t, exec (.getVersion doe) s = .next t ∧ spdmStep t doe = 1 ∧
    t.ans = .bytes (leBytes 2 0x1200 ++ leBytes 2 0x1300) ∧ spdmStep t (!doe) = spdmStep s (!doe) :=
  ⟨_, congrArg Host.Outcome.next (spdmIn_works h _), setSpdm_step _ _ _, rfl,
    (setSpdm_step_other _ _ _).trans (spdmArrived_step _ _ _)⟩

theorem getCapabilities_follows (h1 : spdmStep s doe = 1) :
    ∃ t, exec (.getCapabilities doe) s = .next t ∧ spdmStep t doe = 2 ∧ t.ans = .value spdmFlags :=
  ⟨_, congrArg Host.Outcome.next ((spdmIn_works h _).trans
    (if_neg (not_not_intro ((spdmArrived_step _ _ _).trans h1)))), setSpdm_step _ _ _, rfl⟩

theorem getCapabilities_refuses (h1 : spdmStep s doe ≠ 1) :
    ∃ t, exec (.getCapabilities doe) s = .next t ∧ t.ans = .refusal spdmUnexpected ∧ t.key = s.key :=
  exec_spdmRefuses (doe := doe) (congrArg Host.Outcome.next ((spdmIn_works h _).trans
    (if_pos ((spdmArrived_step s doe doe).trans_ne h1))))

theorem negotiateAlgorithms_follows (h2 : spdmStep s doe = 2) : ∃ t,
    exec (.negotiateAlgorithms doe true true true true) s = .next t ∧ spdmStep t doe = 3 ∧ t.ans = .none :=
  ⟨_, congrArg Host.Outcome.next ((spdmIn_works h _).trans
    (if_neg (not_not_intro ((spdmArrived_step _ _ _).trans h2)))), setSpdm_step _ _ _, rfl⟩

theorem negotiateAlgorithms_invalid (h2 : spdmStep s doe = 2) {e y k g : Bool} (hn : (e && y && k && g) = false) :
    ∃ t, exec (.negotiateAlgorithms doe e y k g) s = .next t ∧ t.ans = .refusal spdmInvalid ∧ t.key = s.key :=
  exec_spdmRefuses (doe := doe) (congrArg Host.Outcome.next ((spdmIn_works h _).trans
    ((if_neg (not_not_intro ((spdmArrived_step _ _ _).trans h2))).trans (if_neg (ne_true_of_eq_false hn)))))

theorem negotiateAlgorithms_refuses (h2 : spdmStep s doe ≠ 2) (e y k g : Bool) :
    ∃ t, exec (.negotiateAlgorithms doe e y k g) s = .next t ∧ t.ans = .refusal spdmUnexpected ∧ t.key = s.key :=
  exec_spdmRefuses (doe := doe) (congrArg Host.Outcome.next ((spdmIn_works h _).trans
    (if_pos ((spdmArrived_step s doe doe).trans_ne h2))))

/-! ## Requests that need the negotiation complete -/

theorem spdmReady_early (h3 : spdmStep s doe < 3) (act : State → State) :
    spdmReady s doe act = spdmError (spdmArrived s doe) spdmUnexpected :=
  (spdmIn_works h _).trans (if_pos ((spdmArrived_step s doe doe).trans_lt h3))

theorem spdmReady_acts (h3 : 3 ≤ spdmStep s doe) (act : State → State) :
    spdmReady s doe act = act (spdmArrived s doe) :=
  (spdmIn_works h _).trans (if_neg (Nat.not_lt.2 (h3.trans_eq (spdmArrived_step s doe doe).symm)))

/-- Before the negotiation is complete the other requests are refused. -/
theorem spdmRequest_early (h3 : spdmStep s doe < 3) {slot n : Nat}
    (hi : i ∈ [Instr.getDigests doe, .getCertificate doe slot n n, .challenge doe slot n, .getMeasurements doe slot n,
      .keyExchange doe, .finish doe n true, .heartbeat doe n, .keyUpdate doe n, .endSession doe n]) :
    ∃ t, exec i s = .next t ∧ t.ans = .refusal spdmUnexpected ∧ t.key = s.key := by
  have hact : ∃ act, exec i s = .next (spdmReady s doe act) := by
    simp only [List.mem_cons, List.not_mem_nil, or_false] at hi
    rcases hi with rfl | rfl | rfl | rfl | rfl | rfl | rfl | rfl | rfl <;> exact ⟨_, rfl⟩
  obtain ⟨act, hact⟩ := hact
  exact exec_spdmRefuses (doe := doe) (hact.trans (congrArg Host.Outcome.next (spdmReady_early h h3 act)))

section
variable (h3 : 3 ≤ spdmStep s doe)
include h3

/-- A request that the negotiation admits runs its action. -/
theorem exec_spdmReady {act : State → State} (hi : exec i s = .next (spdmReady s doe act)) :
    exec i s = .next (act (spdmArrived s doe)) :=
  hi.trans (congrArg Host.Outcome.next (spdmReady_acts h h3 act))

theorem getDigests_answers : ∃ t, exec (.getDigests doe) s = .next t ∧
    t.ans = .value (Config.certDigest (aliasMeas s)) ∧ t.key = s.key := by
  have hi := exec_spdmReady (i := .getDigests doe) h h3 rfl
  rw [spdmArrived_aliasMeas] at hi
  exact exec_answers hi (spdmArrived_key s doe)

theorem getCertificate_answers (hc : s.key.certOk = true) (off len : Nat) :
    ∃ t, exec (.getCertificate doe 0 off len) s = .next t ∧ t.key = s.key ∧
      t.ans = .bytes (((Config.certChain (aliasMeas s)).drop off).take len) := by
  have hi := exec_spdmReady (i := .getCertificate doe 0 off len) h h3 rfl
  rw [if_neg (not_not_intro rfl), spdmArrived_key, hc, if_neg (by decide), spdmArrived_aliasMeas] at hi
  exact ⟨_, hi, spdmArrived_key s doe, rfl⟩

theorem getCertificate_failed (hc : s.key.certOk = false) (off len : Nat) :
    ∃ t, exec (.getCertificate doe 0 off len) s = .next t ∧ t.ans = .refusal spdmUnspecified ∧ t.key = s.key := by
  have hi := exec_spdmReady (i := .getCertificate doe 0 off len) h h3 rfl
  rw [if_neg (not_not_intro rfl), spdmArrived_key, hc, if_pos (by rfl)] at hi
  exact exec_spdmRefuses hi

theorem getCertificate_otherSlot {slot : Nat} (hs : slot ≠ 0) (off len : Nat) :
    ∃ t, exec (.getCertificate doe slot off len) s = .next t ∧ t.ans = .refusal spdmInvalid ∧ t.key = s.key :=
  exec_spdmRefuses (doe := doe) ((exec_spdmReady (i := .getCertificate doe slot off len) h h3 rfl).trans
    (congrArg Host.Outcome.next (if_pos hs)))

theorem challenge_answers (nonce : Nat) : ∃ t, exec (.challenge doe 0 nonce) s = .next t ∧ t.key = s.key ∧
    t.ans = .value (Config.aliasSign (aliasMeas s) nonce) := by
  have hi := exec_spdmReady (i := .challenge doe 0 nonce) h h3 rfl
  rw [if_neg (not_not_intro rfl), spdmArrived_aliasMeas] at hi
  exact ⟨_, hi, spdmArrived_key s doe, rfl⟩

theorem challenge_otherSlot {slot : Nat} (hs : slot ≠ 0) (nonce : Nat) :
    ∃ t, exec (.challenge doe slot nonce) s = .next t ∧ t.ans = .refusal spdmInvalid ∧ t.key = s.key :=
  exec_spdmRefuses (doe := doe) ((exec_spdmReady (i := .challenge doe slot nonce) h h3 rfl).trans
    (congrArg Host.Outcome.next (if_pos hs)))

theorem getMeasurements_answers {index : Nat} {ms : List Nat} (hm : measOf s index = some ms) (nonce : Nat) :
    ∃ t, exec (.getMeasurements doe index nonce) s = .next t ∧ t.key = s.key ∧
      t.ans = .bytes (ms.flatMap (leBytes (if index = 0 then 1 else 48)) ++
        leBytes 96 (Config.aliasSign (aliasMeas s) nonce)) := by
  have hi := exec_spdmReady (i := .getMeasurements doe index nonce) h h3 rfl
  rw [spdmArrived_measOf, hm, spdmArrived_aliasMeas] at hi
  exact ⟨_, hi, spdmArrived_key s doe, rfl⟩

theorem getMeasurements_refuses {index : Nat} (hm : measOf s index = none) (nonce : Nat) :
    ∃ t, exec (.getMeasurements doe index nonce) s = .next t ∧ t.ans = .refusal spdmInvalid ∧ t.key = s.key := by
  have hi := exec_spdmReady (i := .getMeasurements doe index nonce) h h3 rfl
  rw [spdmArrived_measOf, hm] at hi
  exact exec_spdmRefuses hi

/-! ## Sessions (R412) -/

theorem keyExchange_opens (hh : s.key.health = true) (hl : s.key.sessions.length < 4) :
    ∃ t x, exec (.keyExchange doe) s = .next t ∧ t.ans = .value s.key.nextSession ∧
      t.key.sessions = s.key.sessions ++ [x] ∧ x.id = s.key.nextSession ∧ x.finished = false ∧ x.doe = doe ∧
      t.key.nextSession = s.key.nextSession + 1 := by
  have hi := exec_spdmReady (i := .keyExchange doe) h h3 rfl
  have hdrawn : (useDrbg (spdmArrived s doe)).draw.2.key = { s.key with requests := s.key.requests + 1 } :=
    congrArg (fun k : Key => { k with requests := k.requests + 1 }) (spdmArrived_key s doe)
  dsimp only at hi
  rw [hdrawn, spdmArrived_key, hh, if_neg (by decide), if_neg (Nat.not_le.2 hl)] at hi
  exact ⟨_, { id := s.key.nextSession, finished := false, doe := doe, keyGen := 0 }, hi, rfl, rfl, rfl, rfl, rfl, rfl⟩

theorem keyExchange_unhealthy (hh : s.key.health = false) :
    ∃ t, exec (.keyExchange doe) s = .next t ∧ t.ans = .refusal spdmUnspecified ∧ t.key = s.key := by
  have hi := exec_spdmReady (i := .keyExchange doe) h h3 rfl
  dsimp only at hi
  rw [spdmArrived_key, hh, if_pos (by rfl)] at hi
  exact exec_spdmRefuses hi

theorem keyExchange_full (hh : s.key.health = true) (hl : 4 ≤ s.key.sessions.length) :
    ∃ t, exec (.keyExchange doe) s = .next t ∧ t.ans = .refusal spdmSessionLimit ∧ t.key = s.key := by
  have hi := exec_spdmReady (i := .keyExchange doe) h h3 rfl
  dsimp only at hi
  rw [spdmArrived_key, hh, if_neg (by decide), if_pos hl] at hi
  exact exec_spdmRefuses hi

theorem inSession_unknown {id : Nat} (hn : (s.key.sessions.find? fun x => x.id == id && x.doe == doe) = none)
    (done : Bool) (act : Session → State → State) :
    inSession s doe id done act = spdmError (spdmArrived s doe) spdmInvalidSession := by
  refine (spdmReady_acts h h3 _).trans ?_
  rw [spdmArrived_key, hn]

/-- A session of the transport: a message for which it is in the right state acts. -/
theorem inSession_acts {id : Nat} {x : Session} {done : Bool}
    (hx : s.key.sessions.find? (fun x => x.id == id && x.doe == doe) = some x) (hd : x.finished = done)
    (act : Session → State → State) : inSession s doe id done act = act x (spdmArrived s doe) := by
  refine (spdmReady_acts h h3 _).trans ?_
  rw [spdmArrived_key, hx]
  exact if_pos hd

theorem inSession_otherState {id : Nat} {x : Session} {done : Bool}
    (hx : s.key.sessions.find? (fun x => x.id == id && x.doe == doe) = some x) (hd : x.finished ≠ done)
    (act : Session → State → State) :
    inSession s doe id done act = spdmError (spdmArrived s doe) spdmUnexpected := by
  refine (spdmReady_acts h h3 _).trans ?_
  rw [spdmArrived_key, hx]
  exact if_neg hd

theorem sessionRequest_unknown {id : Nat}
    (hn : (s.key.sessions.find? fun x => x.id == id && x.doe == doe) = none)
    (hi : i ∈ [Instr.finish doe id true, .finish doe id false, .heartbeat doe id, .keyUpdate doe id,
      .endSession doe id]) :
    ∃ t, exec i s = .next t ∧ t.ans = .refusal spdmInvalidSession ∧ t.key = s.key := by
  have hact : ∃ done act, exec i s = .next (inSession s doe id done act) := by
    simp only [List.mem_cons, List.not_mem_nil, or_false] at hi
    rcases hi with rfl | rfl | rfl | rfl | rfl <;> exact ⟨_, _, rfl⟩
  obtain ⟨done, act, hact⟩ := hact
  exact exec_spdmRefuses (doe := doe) (hact.trans (congrArg Host.Outcome.next (inSession_unknown h h3 hn done act)))

end
end

/-- A change of a session that keeps its names is found in its place. -/
theorem updSession_find? {id : Nat} {x : Session} {g : Session → Session}
    (hx : u.key.sessions.find? (fun x => x.id == id && x.doe == doe) = some x)
    (hg : ∀ y, (g y).id = y.id ∧ (g y).doe = y.doe) :
    (updSession u id g).key.sessions.find? (fun x => x.id == id && x.doe == doe) = some (g x) := by
  have hid : x.id = id := by
    have := List.find?_some hx
    simp only [Bool.and_eq_true, beq_iff_eq] at this
    exact this.1
  have hnames : (fun y : Session => (if y.id = id then g y else y).id == id && (if y.id = id then g y else y).doe == doe) =
      fun y : Session => y.id == id && y.doe == doe := by
    funext y
    split
    · rw [(hg y).1, (hg y).2]
    · rfl
  unfold updSession
  rw [State.setKey_key, List.find?_map]
  dsimp only [Function.comp_def]
  rw [hnames, hx, Option.map_some, if_pos hid]

/-- In the state of arrival the session is found too. -/
theorem spdmArrived_session {id : Nat} {x : Session}
    (hx : s.key.sessions.find? (fun x => x.id == id && x.doe == doe) = some x) :
    (spdmArrived s doe).key.sessions.find? (fun x => x.id == id && x.doe == doe) = some x := by
  rw [spdmArrived_key, hx]

section
variable {id : Nat} {x : Session} (h : spdmWorks s doe = true) (h3 : 3 ≤ spdmStep s doe)
    (hx : s.key.sessions.find? (fun x => x.id == id && x.doe == doe) = some x)
include h h3 hx

theorem finish_completes (hf : x.finished = false) : ∃ t y, exec (.finish doe id true) s = .next t ∧ t.ans = .none ∧
    t.key.sessions.find? (fun x => x.id == id && x.doe == doe) = some y ∧ y.finished = true :=
  ⟨_, { x with finished := true }, congrArg Host.Outcome.next (inSession_acts h h3 hx hf _), rfl,
    updSession_find? (spdmArrived_session hx) fun _ => ⟨rfl, rfl⟩, rfl⟩

theorem finish_ends (hf : x.finished = false) : ∃ t, exec (.finish doe id false) s = .next t ∧
    t.ans = .refusal spdmDecrypt ∧ t.key.sessions = s.key.sessions.filter fun x => x.id != id :=
  ⟨_, congrArg Host.Outcome.next (inSession_acts h h3 hx hf _), rfl,
    congrArg (fun k : Key => k.sessions.filter fun x : Session => x.id != id) (spdmArrived_key s doe)⟩

theorem heartbeat_unfinished (hf : x.finished = false) :
    ∃ t, exec (.heartbeat doe id) s = .next t ∧ t.ans = .refusal spdmUnexpected :=
  ⟨_, congrArg Host.Outcome.next (inSession_otherState h h3 hx (by rw [hf]; decide) _), rfl⟩

theorem heartbeat_finished (hf : x.finished = true) :
    ∃ t, exec (.heartbeat doe id) s = .next t ∧ t.ans = .none ∧ t.key = s.key :=
  ⟨_, congrArg Host.Outcome.next (inSession_acts h h3 hx hf _), rfl, spdmArrived_key s doe⟩

theorem keyUpdate_finished (hf : x.finished = true) : ∃ t y, exec (.keyUpdate doe id) s = .next t ∧ t.ans = .none ∧
    t.key.sessions.find? (fun x => x.id == id && x.doe == doe) = some y ∧ y.keyGen = x.keyGen + 1 :=
  ⟨_, { x with keyGen := x.keyGen + 1 }, congrArg Host.Outcome.next (inSession_acts h h3 hx hf _), rfl,
    updSession_find? (spdmArrived_session hx) fun _ => ⟨rfl, rfl⟩, rfl⟩

theorem endSession_finished (hf : x.finished = true) : ∃ t, exec (.endSession doe id) s = .next t ∧ t.ans = .none ∧
    t.key.sessions = s.key.sessions.filter fun x => x.id != id :=
  ⟨_, congrArg Host.Outcome.next (inSession_acts h h3 hx hf _), rfl,
    congrArg (fun k : Key => k.sessions.filter fun x : Session => x.id != id) (spdmArrived_key s doe)⟩

end

/-! ## IDE key management (R428) -/

section
variable {id k : Nat} {x : Session} (h : spdmWorks s true = true) (h3 : 3 ≤ spdmStep s true)
    (hx : s.key.sessions.find? (fun x => x.id == id && x.doe == true) = some x) (hf : x.finished = true)
include h h3 hx hf

theorem ideKm_otherStream (hk : 8 ≤ k) (op : IdeOp) :
    ∃ t, exec (.ideKm id k op) s = .next t ∧ t.ans = .refusal spdmInvalid ∧ t.hif = s.hif :=
  ⟨_, congrArg Host.Outcome.next ((inSession_acts h h3 hx hf _).trans (if_pos hk)), rfl,
    (spdmArrived_keeps s true).hif_eq⟩

theorem ideKm_programs (hk : k < 8) (key lo hi : Nat) : ∃ t y, exec (.ideKm id k (.keyProg key lo hi)) s = .next t ∧
    t.ans = .none ∧ Tbl.get t.hif.ide k = some y ∧ y.key = some key ∧ y.ridLo = lo ∧ y.ridHi = hi ∧
    Frame [.ans, .gate, .hif] s t :=
  ⟨_, _, congrArg Host.Outcome.next ((inSession_acts h h3 hx hf _).trans (if_neg (Nat.not_le.2 hk))), rfl,
    Tbl.get_set_self _ _ _, rfl, rfl, rfl, State.answer_frame (by decide) (State.setHif_frame (by decide)
      (State.wake_frame (by decide) (Frame.refl _ s)))⟩

theorem ideKm_secures (hk : k < 8) {z : IdeStream} (hz : Tbl.get s.hif.ide k = some z) (hkey : z.key.isSome = true) :
    ∃ t y, exec (.ideKm id k .go) s = .next t ∧ t.ans = .none ∧ Tbl.get t.hif.ide k = some y ∧ y.state = .secure ∧
      y.key = z.key := by
  have hi : exec (.ideKm id k .go) s = .next _ := congrArg Host.Outcome.next
    ((inSession_acts h h3 hx hf _).trans (if_neg (Nat.not_le.2 hk)))
  have hget : Tbl.getD (spdmArrived s true).hif.ide k { state := .off, ridLo := 1, ridHi := 0, key := none } = z := by
    rw [(spdmArrived_keeps s true).hif_eq]
    unfold Tbl.getD
    rw [hz]
    rfl
  dsimp only at hi
  rw [hget, if_neg (by simpa [Option.isNone_iff_eq_none] using Option.isSome_iff_ne_none.1 hkey)] at hi
  exact ⟨_, { z with state := .secure }, hi, rfl, Tbl.get_set_self _ _ _, rfl, rfl⟩

theorem ideKm_stops (hk : k < 8) : ∃ t y, exec (.ideKm id k .stop) s = .next t ∧ t.ans = .none ∧
    Tbl.get t.hif.ide k = some y ∧ y.state = .off ∧ y.key = none :=
  ⟨_, _, congrArg Host.Outcome.next ((inSession_acts h h3 hx hf _).trans (if_neg (Nat.not_le.2 hk))), rfl,
    Tbl.get_set_self _ _ _, rfl, rfl⟩

end
end

/-! ## O53 -/

/-- Settles O53, request by request. -/
theorem spdmAndIdeComplete : Obligations.SpdmAndIdeComplete := by
  refine ⟨fun s doe h => ⟨getVersion_begins h, getCapabilities_follows h, getCapabilities_refuses h,
      fun h2 => ⟨negotiateAlgorithms_follows h h2, fun e y k g => negotiateAlgorithms_invalid h h2⟩,
      negotiateAlgorithms_refuses h, fun h3 i slot n => spdmRequest_early h h3, fun h3 => ?_⟩,
    fun s id k x h h3 hx hf => ⟨fun hk key lo hi => ⟨ideKm_programs h h3 hx hf hk key lo hi,
      fun z => ideKm_secures h h3 hx hf hk, ideKm_stops h h3 hx hf hk⟩, ideKm_otherStream h h3 hx hf⟩⟩
  exact ⟨getDigests_answers h h3, fun off len hc => getCertificate_answers h h3 hc off len, challenge_answers h h3,
    fun slot off len hs => ⟨getCertificate_otherSlot h h3 hs off len, challenge_otherSlot h h3 hs len⟩,
    fun index nonce ms hm => getMeasurements_answers h h3 hm nonce, keyExchange_opens h h3,
    fun index nonce hm => getMeasurements_refuses h h3 hm nonce,
    fun off len hc => getCertificate_failed h h3 hc off len, keyExchange_unhealthy h h3,
    fun id i => sessionRequest_unknown h h3, keyExchange_full h h3,
    fun id x hx => ⟨fun hf => ⟨finish_completes h h3 hx hf, finish_ends h h3 hx hf, heartbeat_unfinished h h3 hx hf⟩,
      fun hf => ⟨heartbeat_finished h h3 hx hf, keyUpdate_finished h h3 hx hf, endSession_finished h h3 hx hf⟩⟩⟩

end Sys2Proof.Machine
end

