-- ==== Sys2Proof/Proofs/DiscoveryItems.lean ====
section
/-! PROOFS. The refutation of O55: the Discovery Log Page goes by the entries of the function table, and the statement by
the function that the table answers, which is the first entry of its number. -/

-- one proof after another: many at once would each hold a thread of the compiler
set_option Elab.async false

namespace Sys2Proof.Machine

open Sys2Proof

/-- A function table that lists function 1 twice, first FREE and then ACTIVE on the network, in a device whose
interface 0 has an address and whose function 1 admits any host. -/
def listedTwice : State :=
  ((((State.reset.setNet { Net.reset with ready := true, modes := [1] }).setFns
    [(1, Fn.free), (1, { Fn.free with state := .active, bind := .network })]).wrBank rNET_IPV4 0 0 1).wrBank
      rNET_ANY_HOST 0 1 1)

/-- The one way to reach function 1. -/
def listedItem : DiscItem := { fn := 1, rdma := false, iface := 0, v6 := false, addr := 1, tls := false }

theorem listedItem_mem : listedItem ∈ discoveryItems listedTwice (fun f => hostAllowed listedTwice f 0) := by decide

/-- Refutes O55: of a function number that the table lists twice, FREE and then ACTIVE, discovery answers the entry of the
ACTIVE one, and the function itself reads as FREE. -/
theorem not_networkRowsComplete : ¬ Obligations.NetworkRowsComplete := by
  rintro ⟨-, -, -, -, -, -, -, hDiscovery⟩
  obtain ⟨_, _, -, -, -, -, hActive, -⟩ := hDiscovery listedTwice 0 _ rfl (by decide) rfl
  exact absurd (hActive listedItem listedItem_mem).2 (by decide)

end Sys2Proof.Machine
end

