-- ==== Sys2Proof/Proofs/PortsAndTls.lean ====
section
/-! PROOFS. PCIe ports, configuration requests, IDE streams and TLS (O54): what the fields of a port read after each
operation, then one rule for each command. -/

-- one proof after another: many at once would each hold a thread of the compiler
set_option Elab.async false

namespace Sys2Proof.Machine

open Sys2Proof

/-! ## The rate, width and mode of a port (R418) -/

/-- What the fields of port `p` read: rate code, width and Flit mode. -/
def State.linkReads (t : State) (p speed width flit : Nat) : Prop :=
  t.rdAt rHIF_SPEEDp 0 p = speed ∧ t.rdAt rHIF_WIDTHp 0 p = width ∧ t.rdAt rHIF_FLITp 0 p = flit

/-- Writes of the three fields of a port. -/
def linkWritten (s : State) (p speed width flit : Nat) : State :=
  ((s.wrAt rHIF_SPEEDp 0 p speed).wrAt rHIF_WIDTHp 0 p width).wrAt rHIF_FLITp 0 p flit

theorem portThere_cases {s : State} {p : Nat} (h : portThere s p = true) : p = 0 ∨ p = 1 := by
  unfold portThere at h
  simp only [Bool.or_eq_true, Bool.and_eq_true, beq_iff_eq] at h
  exact h.imp_right And.left

theorem linkWritten_reads (s : State) (p : Nat) {speed width flit : Nat} (hs : speed < 8) (hw : width < 16)
    (hf : flit < 2) : (linkWritten s p speed width flit).linkReads p speed width flit := by
  have hlo {f g : Fld} (hfg : f.blk = g.blk ∧ f.off = g.off ∧ f.lo ≠ g.lo) : fieldKey f 0 p ≠ fieldKey g 0 p := by
    obtain ⟨hb, ho, hl⟩ := hfg
    unfold fieldKey
    rw [hb, ho]
    omega
  unfold linkWritten
  refine ⟨?_, ?_, ?_⟩
  · rw [State.wrAt_rdAt_ne _ _ (hlo (by decide)), State.wrAt_rdAt_ne _ _ (hlo (by decide)), State.wrAt_rdAt]
    exact Nat.mod_eq_of_lt hs
  · rw [State.wrAt_rdAt_ne _ _ (hlo (by decide)), State.wrAt_rdAt]
    exact Nat.mod_eq_of_lt hw
  · rw [State.wrAt_rdAt]
    exact Nat.mod_eq_of_lt hf

section
variable {s t : State} {p speed width flit : Nat}

theorem State.linkReads_congr (h : s.linkReads p speed width flit) (hr : t.regs = s.regs) :
    t.linkReads p speed width flit := by
  unfold State.linkReads
  simp only [State.rdAt_congr hr]
  exact h

/-- A write of a register that is none of the port's three keeps them. -/
theorem State.linkReads_wrAt (h : s.linkReads p speed width flit) (f : Fld) (n k v : Nat)
    (hk : ∀ g ∈ [rHIF_SPEEDp, rHIF_WIDTHp, rHIF_FLITp], fieldKey g 0 p ≠ fieldKey f n k) :
    (s.wrAt f n k v).linkReads p speed width flit := by
  obtain ⟨h1, h2, h3⟩ := h
  refine ⟨?_, ?_, ?_⟩
  · rwa [State.wrAt_rdAt_ne _ _ (hk _ (by simp))]
  · rwa [State.wrAt_rdAt_ne _ _ (hk _ (by simp))]
  · rwa [State.wrAt_rdAt_ne _ _ (hk _ (by simp))]

theorem State.linkReads_bump (h : s.linkReads p speed width flit) (f : Fld) (n : Nat)
    (hk : ∀ g ∈ [rHIF_SPEEDp, rHIF_WIDTHp, rHIF_FLITp], fieldKey g 0 p ≠ fieldKey f 0 0) :
    (s.bump f n).linkReads p speed width flit := by
  unfold State.bump State.bumpAt
  split
  · exact h
  · exact State.linkReads_wrAt h f 0 0 _ hk

theorem State.linkReads_raise (h : s.linkReads p speed width flit) (code : Nat) (fn : Option Nat) (l : List (Nat × Nat))
    (hp : p = 0 ∨ p = 1) : (s.raise code fn l).linkReads p speed width flit := by
  have hk : ∀ g ∈ [rHIF_SPEEDp, rHIF_WIDTHp, rHIF_FLITp], fieldKey g 0 p ≠ fieldKey rEVL_SUPPRESSED 0 0 := by
    rcases hp with rfl | rfl <;> decide
  obtain ⟨h1, h2, h3⟩ := h
  refine ⟨?_, ?_, ?_⟩
  · exact (State.raiseAt_rdAt_ne _ _ _ _ _ _ (hk _ (by simp))).trans h1
  · exact (State.raiseAt_rdAt_ne _ _ _ _ _ _ (hk _ (by simp))).trans h2
  · exact (State.raiseAt_rdAt_ne _ _ _ _ _ _ (hk _ (by simp))).trans h3

end

/-! ## A port trains (R420, R425) -/

section
variable {s : State} {p speed width : Nat} {flit : Bool}

/-- The state in which port `p` is up and its fields tell so. -/
def portTrained (s : State) (p speed width : Nat) (flit : Bool) : State :=
  ((linkWritten ((s.wake (linkDomains s.hif.dual p)).setPort p { s.port p with up := true, perst := false, lost := false })
    p speed width (if flit then 1 else 0)).ev eHIF_LINK_UP).ev eHIF_SPEED

/-- What start-up keeps of the first training: the duration of phase 3, and that it has ended (R484, R499). -/
def trainingTimed (s : State) : State :=
  let u := match s.bot.linkClk with
    | some from_ => phaseMs s 3 from_
    | none => s
  u.setBot { u.bot with linkClk := none }

theorem exec_pcieLinkUp (hp : portThere s p = true) (hu : (s.port p).up = false) (ht : (s.port p).training = true)
    (h1 : 1 ≤ speed) (h6 : speed ≤ 6) (hm : speed ≤ s.rd rHIF_MAX_SPEED) (hw : width ∈ [1, 2, 4, 8])
    (hd : s.hif.dual = true → width ≠ 8) (hf : speed = 6 → flit = true) :
    exec (.pcieLinkUp p speed width flit) s = .next (if (s.port p).lost
      then (trainingTimed (portTrained s p speed width flit)).raise lHIF_LINK_UP none []
      else trainingTimed (portTrained s p speed width flit)) := by
  have hno : ¬(!portThere s p ∨ (s.port p).up ∨ !(s.port p).training ∨ speed = 0 ∨ speed > min 6 (s.rd rHIF_MAX_SPEED)
      ∨ !([1, 2, 4, 8] : List Nat).contains width ∨ (s.hif.dual ∧ width = 8) ∨ (speed = 6 ∧ !flit)) := by
    have hw' : ([1, 2, 4, 8] : List Nat).contains width = true := List.contains_iff_mem.2 hw
    rw [hp, hu, ht, hw']
    rintro (h | h | h | h | h | h | ⟨h, h'⟩ | ⟨h, h'⟩)
    · cases h
    · cases h
    · cases h
    · omega
    · omega
    · cases h
    · exact hd h h'
    · rw [hf h] at h'
      cases h'
  exact congrArg Host.Outcome.next (if_neg hno)

theorem trainingTimed_keeps (s : State) : Frame [.bot, .regs] s (trainingTimed s) := by
  unfold trainingTimed
  dsimp only
  split
  · exact State.setBot_frame (by decide) (State.wrAt_frame (by decide) (Frame.refl _ s))
  · exact State.setBot_frame (by decide) (Frame.refl _ s)

theorem trainingTimed_linkReads {t : State} {k : Nat} (hp : p = 0 ∨ p = 1) (h : t.linkReads p speed width k) :
    (trainingTimed t).linkReads p speed width k := by
  unfold trainingTimed
  dsimp only
  split
  · refine State.linkReads_congr (State.linkReads_wrAt h rBOT_PHASE_MSk 0 1 _ ?_) rfl
    rcases hp with rfl | rfl <;> decide
  · exact State.linkReads_congr h rfl

theorem portTrained_hif : (portTrained s p speed width flit).hif =
    (s.setPort p { s.port p with up := true, perst := false, lost := false }).hif := by
  unfold portTrained
  rw [State.ev_hif, State.ev_hif]
  exact congrArg (fun h : Hif => { h with
    ports := Tbl.set h.ports p { s.port p with up := true, perst := false, lost := false } }) (s.wake_hif _)

theorem pcieLinkUp_up (hp : portThere s p = true) (hu : (s.port p).up = false) (ht : (s.port p).training = true)
    (h1 : 1 ≤ speed) (h6 : speed ≤ 6) (hm : speed ≤ s.rd rHIF_MAX_SPEED) (hw : width ∈ [1, 2, 4, 8])
    (hd : s.hif.dual = true → width ≠ 8) (hf : speed = 6 → flit = true) :
    ∃ t, exec (.pcieLinkUp p speed width flit) s = .next t ∧ (t.port p).up = true ∧ (t.port p).perst = false ∧
      t.rdAt rHIF_SPEEDp 0 p = speed ∧ t.rdAt rHIF_WIDTHp 0 p = width ∧ t.rdAt rHIF_FLITp 0 p = flit.toNat ∧
      t.shows eHIF_LINK_UP ∧ (∀ q, q ≠ p → t.port q = s.port q) ∧ Frame [.gate, .hif, .bot, .evl, .pages, .regs] s t := by
  have hi := exec_pcieLinkUp hp hu ht h1 h6 hm hw hd hf
  have hw16 : width < 16 := by
    simp only [List.mem_cons, List.not_mem_nil, or_false] at hw
    omega
  have hflit : flit.toNat = if flit then 1 else 0 := by cases flit <;> rfl
  have hreads : (portTrained s p speed width flit).linkReads p speed width flit.toNat := by
    rw [hflit]
    exact State.linkReads_congr (linkWritten_reads _ p (Nat.lt_of_le_of_lt h6 (by decide)) hw16 (by split <;> decide))
      ((State.ev_regs _ _).trans (State.ev_regs _ _))
  have hshows : (portTrained s p speed width flit).shows eHIF_LINK_UP := State.ev_shows' (State.ev_shows _ (by decide)) _
  generalize hv : portTrained s p speed width flit = v at hi hreads hshows
  have hport : v.hif = (s.setPort p { s.port p with up := true, perst := false, lost := false }).hif := hv ▸ portTrained_hif
  clear hv
  have htimed := trainingTimed_linkReads (portThere_cases hp) hreads
  have hkeeps := trainingTimed_keeps v
  have hshows' : (trainingTimed v).shows eHIF_LINK_UP := State.shows_congr hshows hkeeps.pages_eq
  generalize trainingTimed v = w at hi htimed hkeeps hshows'
  have hfin : ∃ t, exec (.pcieLinkUp p speed width flit) s = .next t ∧ t.hif = w.hif ∧
      t.linkReads p speed width flit.toNat ∧ t.shows eHIF_LINK_UP := by
    split at hi
    · exact ⟨_, hi, State.raise_hif _ _ _ _, State.linkReads_raise htimed _ _ _ (portThere_cases hp),
        State.raise_shows hshows' _ _ _⟩
    · exact ⟨_, hi, rfl, htimed, hshows'⟩
  obtain ⟨t, hi, hhif, ⟨hr1, hr2, hr3⟩, hsh⟩ := hfin
  have hports (q : Nat) : t.port q =
      (s.setPort p { s.port p with up := true, perst := false, lost := false }).port q :=
    State.port_congr (hhif.trans (hkeeps.hif_eq.trans hport)) q
  refine ⟨t, hi, ?_, ?_, hr1, hr2, hr3, hsh, fun q hq => ?_, exec_frame_of_next hi⟩
  · rw [hports, State.setPort_port]
  · rw [hports, State.setPort_port]
  · rw [hports, State.setPort_port_ne _ _ hq]

end

/-! ## A port loses its link (R421) -/

/-- Resets of Device Control keep the ports. -/
theorem resetDeviceControls_keeps (l : List Nat) (s : State) : Frame [.hif] s (l.foldl resetDeviceControl s) ∧
    (l.foldl resetDeviceControl s).hif.ports = s.hif.ports :=
  ⟨Frame.foldl (fun _ _ h => State.setHif_frame (List.Subset.refl _) h) (Frame.refl _ s),
    foldl_keeps (f := resetDeviceControl) (fun s => s.hif.ports) (fun _ _ => rfl) l s⟩

theorem State.port_ports {s t : State} (h : t.hif.ports = s.hif.ports) (p : Nat) : t.port p = s.port p := by
  unfold State.port
  rw [h]

section
variable {s : State} {p : Nat} {perst : Bool}

theorem portDown_port (s : State) (p : Nat) (perst : Bool) : (portDown s p perst).port p =
    { s.port p with up := false, perst := perst, numVfs := 0, lost := (s.port p).lost || (s.port p).up } :=
  State.setPort_port s p _

theorem portDown_linkReads (s : State) (p : Nat) (perst : Bool) : (portDown s p perst).linkReads p 0 0 0 :=
  linkWritten_reads _ p (by decide) (by decide) (by decide)

/-- Port `p` owns function 0. -/
def ownsManager (s : State) (p : Nat) : Bool := !s.hif.dual || s.hif.owner == some p

/-- The state in which the port's link is gone, before the event. -/
def linkGone (s : State) (p : Nat) (perst : Bool) : State :=
  (if ownsManager s p then 0 :: boundOn s p else boundOn s p).foldl resetDeviceControl (portDown s p perst)

/-- The event of a link that was up. -/
def linkLost (s : State) (p : Nat) (perst : Bool) : State :=
  if (s.port p).up then
    (((linkGone s p perst).bump rHIF_LINK_DOWN 1).ev eHIF_LINK_DOWN).raise lHIF_LINK_DOWN none []
  else linkGone s p perst

/-- The resets that follow once the block is ready. -/
def linkFunctionsReset (s u : State) (p : Nat) : State :=
  let u := (boundOn s p).foldl (fun s f => armReset s f .linkDown) u
  if ownsManager s p then
    let u := if u.hif.dual then u.setHif { u.hif with owner := none } else u
    armReset (u.updFn 0 fun x => { x with enabled := false }) 0 .linkDown
  else u

theorem linkReset_eq (s : State) (p : Nat) (perst : Bool) : linkReset s p perst =
    if !(linkLost s p perst).bot.ready then linkLost s p perst
    else linkFunctionsReset s (linkLost s p perst) p := rfl

theorem linkGone_keeps (s : State) (p : Nat) (perst : Bool) : Frame [.hif, .regs] s (linkGone s p perst) := by
  have hdown : Frame [.hif, .regs] s (portDown s p perst) :=
    State.wrAt_frame (by decide) (State.wrAt_frame (by decide) (State.wrAt_frame (by decide)
      (State.setPort_frame (by decide) (Frame.refl _ s))))
  exact hdown.trans ((resetDeviceControls_keeps _ _).1.mono (by decide))

theorem linkGone_down (s : State) (p : Nat) (perst : Bool) : (linkGone s p perst).linkReads p 0 0 0 ∧
    (linkGone s p perst).hif.ports = (portDown s p perst).hif.ports := by
  obtain ⟨hk, hp⟩ := resetDeviceControls_keeps (if ownsManager s p then 0 :: boundOn s p else boundOn s p)
    (portDown s p perst)
  exact ⟨State.linkReads_congr (portDown_linkReads s p perst) hk.regs_eq, hp⟩

theorem linkLost_down (hp : p = 0 ∨ p = 1) : (linkLost s p perst).linkReads p 0 0 0 ∧
    (linkLost s p perst).hif.ports = (portDown s p perst).hif.ports ∧ (linkLost s p perst).fns = s.fns ∧
    (linkLost s p perst).bot = s.bot ∧
    ((s.port p).up = true → (linkLost s p perst).shows eHIF_LINK_DOWN ∧
      s.tells (linkLost s p perst) lHIF_LINK_DOWN none []) := by
  obtain ⟨hreads, hports⟩ := linkGone_down s p perst
  have hk := linkGone_keeps s p perst
  unfold linkLost
  split
  · refine ⟨?_, ?_, ?_, ?_, fun _ => ⟨State.raise_shows (State.ev_shows _ (by decide)) _ _ _, State.raise_tells ?_ _ _ _⟩⟩
    · refine State.linkReads_raise (State.linkReads_congr (State.linkReads_bump hreads _ 1 ?_) (State.ev_regs _ _)) _ _ _ hp
      rcases hp with rfl | rfl <;> decide
    · rw [State.raise_hif, State.ev_hif, State.bump_hif, hports]
    · rw [State.raise_fns, State.ev_fns, State.bump_fns, hk.fns_eq]
    · rw [State.raise_bot, State.ev_bot, State.bump_bot, hk.bot_eq]
    · rw [State.ev_tbs, State.bump_tbs, hk.tbs_eq]
  · next hu => exact ⟨hreads, hports, hk.fns_eq, hk.bot_eq, fun h => absurd h hu⟩

theorem linkFunctionsReset_keeps (s u : State) (p : Nat) : Frame [.fns, .hif] u (linkFunctionsReset s u p) ∧
    (linkFunctionsReset s u p).hif.ports = u.hif.ports := by
  have hk := armResets_keeps .linkDown (boundOn s p) u
  unfold linkFunctionsReset
  dsimp only
  split
  · split
    · exact ⟨armReset_frame (by decide) (State.updFn_frame (by decide) (State.setHif_frame (by decide)
        (hk.mono (by decide)))), (congrArg Hif.ports hk.hif_eq :)⟩
    · exact ⟨armReset_frame (by decide) (State.updFn_frame (by decide) (hk.mono (by decide))), congrArg Hif.ports hk.hif_eq⟩
  · exact ⟨hk.mono (by decide), congrArg Hif.ports hk.hif_eq⟩

theorem linkFunctionsReset_manager {u : State} (ho : ownsManager s p = true) :
    ((linkFunctionsReset s u p).fn 0).enabled = false ∧ ((linkFunctionsReset s u p).fn 0).flrArm = some .linkDown := by
  unfold linkFunctionsReset
  dsimp only
  rw [if_pos ho, armReset_fn, if_pos rfl, State.updFn_fn_self]
  exact ⟨rfl, rfl⟩

/-- A reset of a port's link: the port reads link down, a link that was up is told of, and the functions follow once the
block is ready. -/
theorem linkReset_resets (hp : p = 0 ∨ p = 1) :
    ((linkReset s p perst).port p).up = false ∧ ((linkReset s p perst).port p).perst = perst ∧
      (linkReset s p perst).linkReads p 0 0 0 ∧
      ((s.port p).up = true → (linkReset s p perst).shows eHIF_LINK_DOWN ∧
        s.tells (linkReset s p perst) lHIF_LINK_DOWN none []) ∧
      (s.bot.ready = false → (linkReset s p perst).fns = s.fns) ∧
      (s.bot.ready = true → s.hif.dual = false ∨ s.hif.owner = some p →
        ((linkReset s p perst).fn 0).enabled = false ∧ ((linkReset s p perst).fn 0).flrArm = some .linkDown) := by
  obtain ⟨hreads, hports, hfns, hbot, htold⟩ := linkLost_down (s := s) (perst := perst) hp
  rw [linkReset_eq, hbot]
  cases hr : s.bot.ready
  · rw [if_pos (by rfl), State.port_ports hports, portDown_port]
    exact ⟨rfl, rfl, hreads, htold, fun _ => hfns, fun h => absurd h (by decide)⟩
  · rw [if_neg (by decide)]
    obtain ⟨hk, hkp⟩ := linkFunctionsReset_keeps s (linkLost s p perst) p
    refine ⟨?_, ?_, State.linkReads_congr hreads hk.regs_eq, fun hu => ?_, fun h => absurd h (by decide), fun _ ho => ?_⟩
    · rw [State.port_ports (hkp.trans hports), portDown_port]
    · rw [State.port_ports (hkp.trans hports), portDown_port]
    · exact ⟨State.shows_congr (htold hu).1 hk.pages_eq, State.tells_congr (htold hu).2 hk.evl_eq⟩
    · refine linkFunctionsReset_manager ?_
      unfold ownsManager
      rcases ho with ho | ho <;> simp [ho]

theorem portLosesLink {i : Instr} (hp : portThere s p = true)
    (hi : (i = .pcieLinkDown p ∧ (s.port p).up = true) ∨ (i = .perstAssert p ∧ (s.port p).perst = false)) :
    ∃ t, exec i s = .next t ∧ (t.port p).up = false ∧ t.rdAt rHIF_SPEEDp 0 p = 0 ∧ t.rdAt rHIF_WIDTHp 0 p = 0 ∧
      t.rdAt rHIF_FLITp 0 p = 0 ∧ (i = .perstAssert p → (t.port p).perst = true) ∧
      ((s.port p).up = true → t.shows eHIF_LINK_DOWN ∧ s.tells t lHIF_LINK_DOWN none []) ∧
      (s.bot.ready = false → t.fns = s.fns) ∧
      (s.bot.ready = true → s.hif.dual = false ∨ s.hif.owner = some p → (t.fn 0).enabled = false ∧
        (t.fn 0).flrArm = some .linkDown) ∧
      Frame [.fns, .hif, .evl, .pages, .regs] s t := by
  rcases hi with ⟨rfl, hu⟩ | ⟨rfl, hn⟩
  · have hrun : exec (.pcieLinkDown p) s = .next (linkReset s p false) :=
      congrArg Host.Outcome.next (if_pos ⟨hp, hu⟩)
    obtain ⟨hup, -, ⟨h1, h2, h3⟩, htold, hfns, hman⟩ := linkReset_resets (s := s) (perst := false) (portThere_cases hp)
    exact ⟨_, hrun, hup, h1, h2, h3, fun h => Instr.noConfusion h, htold, hfns, hman, exec_frame_of_next hrun⟩
  · have hrun : exec (.perstAssert p) s = .next (linkReset s p true) :=
      congrArg Host.Outcome.next (if_pos ⟨hp, by rw [hn]; rfl⟩)
    obtain ⟨hup, hperst, ⟨h1, h2, h3⟩, htold, hfns, hman⟩ := linkReset_resets (s := s) (perst := true) (portThere_cases hp)
    exact ⟨_, hrun, hup, h1, h2, h3, fun _ => hperst, htold, hfns, hman, exec_frame_of_next hrun⟩

end

/-! ## Configuration requests (R419, R420, R429) -/

theorem configRefused_congr {s t : State} (hh : t.hif = s.hif) (hr : t.regs = s.regs) (f : Nat) (stream : Bool) :
    configRefused t f stream = configRefused s f stream := by
  unfold configRefused ideBlocked ideSecure
  rw [hh, vfEnabled_congr hh hr]

theorem deviceControl_congr {s t : State} (h : t.hif = s.hif) (f : Nat) : deviceControl t f = deviceControl s f := by
  unfold deviceControl
  rw [h]

section
variable {s : State} {p f : Nat} {stream : Bool} {a : ConfigAt}

/-- The state in which a configuration request has woken its port. -/
def portWoken (s : State) (p : Nat) : State := s.wake (linkDomains s.hif.dual p)

theorem portWoken_keeps (s : State) (p : Nat) : Frame [.gate] s (portWoken s p) := s.wake_keeps _

theorem portWoken_refused : configRefused (portWoken s p) f stream = configRefused s f stream :=
  configRefused_congr (portWoken_keeps s p).hif_eq (portWoken_keeps s p).regs_eq f stream

/-- A request of a port that is up is looked at. -/
theorem exec_pcieConfigRequest (hp : portThere s p = true) (hu : (s.port p).up = true) (a : ConfigAt) (stream : Bool) :
    exec (.pcieConfigRequest p f ⟨a, stream⟩) s = .next (
      if configRefused s f stream then (portWoken s p).answer (.refusal 1)
      else if f ≠ 0 ∧ (s.fn f).flr.isSome then portWoken s p
      else match a with
        | .word off => (portWoken s p).answer (.word (Config.configWord s.bot.cfg.digest f off))
        | .deviceControl none => (portWoken s p).answer (.word ((deviceControl s f).setWidth 32))
        | .deviceControl (some v) =>
          ((portWoken s p).setHif { s.hif with devCtl := Tbl.put s.hif.devCtl f v deviceControlReset }).answer .none) := by
  have hk := portWoken_keeps s p
  rw [← portWoken_refused (p := p), ← hk.hif_eq, ← hk.bot_eq, ← deviceControl_congr hk.hif_eq, ← hk.fn_eq f]
  refine congrArg Host.Outcome.next (if_neg ?_)
  rw [hp, hu]
  decide

theorem pcieConfigRequest_refuses (hp : portThere s p = true) (hu : (s.port p).up = true)
    (hr : configRefused s f stream = true) : ∃ t, exec (.pcieConfigRequest p f ⟨a, stream⟩) s = .next t ∧
      t.ans = .refusal 1 ∧ Frame [.ans, .gate] s t :=
  ⟨_, (exec_pcieConfigRequest hp hu a stream).trans (congrArg Host.Outcome.next (if_pos hr)), rfl,
    State.answer_frame (by decide) ((portWoken_keeps s p).mono (by decide))⟩

theorem pcieConfigRequest_inReset (hp : portThere s p = true) (hu : (s.port p).up = true)
    (hr : configRefused s f stream = false) (h0 : f ≠ 0) (hf : (s.fn f).flr.isSome = true) :
    ∃ t, exec (.pcieConfigRequest p f ⟨a, stream⟩) s = .next t ∧ Frame [.gate] s t :=
  ⟨_, (exec_pcieConfigRequest hp hu a stream).trans (congrArg Host.Outcome.next ((if_neg (ne_true_of_eq_false hr)).trans
    (if_pos ⟨h0, hf⟩))), portWoken_keeps s p⟩

/-- What nothing refuses and no reset delays is answered. -/
theorem exec_pcieConfigRequest_answers (hp : portThere s p = true) (hu : (s.port p).up = true)
    (hr : configRefused s f stream = false) (hf : f = 0 ∨ (s.fn f).flr = none) (a : ConfigAt) :
    exec (.pcieConfigRequest p f ⟨a, stream⟩) s = .next (match a with
        | .word off => (portWoken s p).answer (.word (Config.configWord s.bot.cfg.digest f off))
        | .deviceControl none => (portWoken s p).answer (.word ((deviceControl s f).setWidth 32))
        | .deviceControl (some v) =>
          ((portWoken s p).setHif { s.hif with devCtl := Tbl.put s.hif.devCtl f v deviceControlReset }).answer .none) := by
  have hno : ¬(f ≠ 0 ∧ (s.fn f).flr.isSome = true) := by
    rintro ⟨h0, hs⟩
    rw [hf.resolve_left h0] at hs
    cases hs
  exact (exec_pcieConfigRequest hp hu a stream).trans (congrArg Host.Outcome.next
    ((if_neg (ne_true_of_eq_false hr)).trans (if_neg hno)))

theorem deviceControl_written (hp : portThere s p = true) (hu : (s.port p).up = true)
    (hr : configRefused s f stream = false) (hf : f = 0 ∨ (s.fn f).flr = none) (v : BitVec 16) :
    ∃ t, exec (.pcieConfigRequest p f ⟨.deviceControl (some v), stream⟩) s = .next t ∧ t.ans = .none ∧
      deviceControl t f = v ∧ (∀ g, g ≠ f → deviceControl t g = deviceControl s g) ∧ Frame [.ans, .gate, .hif] s t :=
  ⟨_, exec_pcieConfigRequest_answers hp hu hr hf _, rfl, Tbl.getD_put_self _ _ _ _,
    fun _ hg => Tbl.getD_put_ne _ hg _ _ _, State.answer_frame (by decide) (State.setHif_frame (by decide)
      ((portWoken_keeps s p).mono (by decide)))⟩

theorem pcieConfigRequest_answers (hp : portThere s p = true) (hu : (s.port p).up = true)
    (hr : configRefused s f stream = false) (hf : f = 0 ∨ (s.fn f).flr = none) :
    (∀ off, ∃ t, exec (.pcieConfigRequest p f ⟨.word off, stream⟩) s = .next t ∧
      t.ans = .word (Config.configWord s.bot.cfg.digest f off) ∧ Frame [.ans, .gate] s t) ∧
    (∃ t, exec (.pcieConfigRequest p f ⟨.deviceControl none, stream⟩) s = .next t ∧
      t.ans = .word ((deviceControl s f).setWidth 32) ∧ Frame [.ans, .gate] s t) ∧
    (∀ v, ∃ t, exec (.pcieConfigRequest p f ⟨.deviceControl (some v), stream⟩) s = .next t ∧ t.ans = .none ∧
      deviceControl t f = v ∧ (∀ g, g ≠ f → deviceControl t g = deviceControl s g) ∧
      Frame [.ans, .gate, .hif] s t) := by
  have hframe : ∀ x, Frame [.ans, .gate] s ((portWoken s p).answer x) := fun x =>
    State.answer_frame (by decide) ((portWoken_keeps s p).mono (by decide))
  exact ⟨fun off => ⟨_, exec_pcieConfigRequest_answers hp hu hr hf _, rfl, hframe _⟩,
    ⟨_, exec_pcieConfigRequest_answers hp hu hr hf _, rfl, hframe _⟩, deviceControl_written hp hu hr hf⟩

end

/-! ## IDE streams and BAR2 (R424, R429) -/

section
variable {s : State} {k : Nat} {x : IdeStream}

/-- The functions that a failed stream resets. -/
def streamFunctions (s : State) (x : IdeStream) : List Nat :=
  (List.range 256).filter fun f =>
    decide (x.ridLo ≤ f ∧ f ≤ x.ridHi) && (f == 0 || ((s.fn f).state != .free && (s.fn f).state != .idle))

/-- The state in which stream `k` is Insecure and the resets of its functions are armed. -/
def streamFailed (s : State) (k : Nat) (x : IdeStream) : State :=
  (streamFunctions s x).foldl (fun s f => armReset s f .pcieFlr)
    (s.setHif { s.hif with ide := Tbl.set s.hif.ide k { x with state := .insecure } })

theorem exec_hifIdeFail (hx : Tbl.get s.hif.ide k = some x) (hs : x.state = .secure) : exec (.hifIdeFail k) s =
    .next (((streamFailed s k x).ev eHIF_IDE_FAIL).raise lHIF_IDE_FAIL none [p4 k]) := by
  show execHifIdeFail k s = _
  unfold execHifIdeFail
  rw [hx]
  dsimp only
  rw [if_neg (not_not_intro hs)]
  rfl

theorem streamFailed_keeps (s : State) (k : Nat) (x : IdeStream) : Frame [.fns, .hif] s (streamFailed s k x) ∧
    (streamFailed s k x).hif.ide = Tbl.set s.hif.ide k { x with state := .insecure } := by
  have hk := armResets_keeps .pcieFlr (streamFunctions s x)
    (s.setHif { s.hif with ide := Tbl.set s.hif.ide k { x with state := .insecure } })
  exact ⟨Frame.trans (State.setHif_frame (by decide) (Frame.refl _ s)) (hk.mono (by decide)),
    (congrArg Hif.ide hk.hif_eq :)⟩

theorem streamFunctions_mem {f : Nat} (hf : f < 256) (hlo : x.ridLo ≤ f) (hhi : f ≤ x.ridHi)
    (ha : f = 0 ∨ (s.fn f).state = .active) : f ∈ streamFunctions s x := by
  refine List.mem_filter.2 ⟨List.mem_range.2 hf, ?_⟩
  rw [decide_eq_true ⟨hlo, hhi⟩, Bool.true_and]
  rcases ha with rfl | ha
  · rfl
  · rw [ha, Bool.or_eq_true]
    exact .inr (by decide)

theorem hifIdeFail_fails (hx : Tbl.get s.hif.ide k = some x) (hs : x.state = .secure) :
    ∃ t y, exec (.hifIdeFail k) s = .next t ∧ Tbl.get t.hif.ide k = some y ∧ y.state = .insecure ∧
      t.shows eHIF_IDE_FAIL ∧ s.tells t lHIF_IDE_FAIL none [p4 k] ∧
      (∀ f, f < 256 → x.ridLo ≤ f → f ≤ x.ridHi → f = 0 ∨ (s.fn f).state = .active → (t.fn f).flrArm = some .pcieFlr) ∧
      (∀ j, j ≠ k → Tbl.get t.hif.ide j = Tbl.get s.hif.ide j) := by
  obtain ⟨hk, hide⟩ := streamFailed_keeps s k x
  have hide' : (((streamFailed s k x).ev eHIF_IDE_FAIL).raise lHIF_IDE_FAIL none [p4 k]).hif.ide =
      Tbl.set s.hif.ide k { x with state := .insecure } := by
    rw [State.raise_hif, State.ev_hif, hide]
  refine ⟨_, { x with state := .insecure }, exec_hifIdeFail hx hs, ?_, rfl, State.raise_shows (State.ev_shows _ (by decide)) _ _ _,
    State.raise_tells (by rw [State.ev_tbs, hk.tbs_eq]) _ _ _, fun f hf hlo hhi ha => ?_, fun j hj => ?_⟩
  · rw [hide', Tbl.get_set_self]
  · rw [State.fn_congr (State.raise_fns _ _ _ _), State.fn_congr (State.ev_fns _ _)]
    exact armResets_fn _ _ _ (.inl (streamFunctions_mem hf hlo hhi ha))
  · rw [hide', Tbl.get_set, if_neg hj]

theorem hifWinClose_closes {w : Dword} (hw : w.getLsbD 0 = true) : ∃ t, exec (.hifWinClose w) s = .next t ∧
    t.hif.closed = true ∧ t.hif.ports = s.hif.ports ∧ Frame [.gate, .hif] s t := by
  have hrun : exec (.hifWinClose w) s = .next ((s.wakePage 8).setHif { (s.wakePage 8).hif with closed := true }) :=
    congrArg Host.Outcome.next (if_pos hw)
  exact ⟨_, hrun, rfl, (congrArg Hif.ports (s.wakePage_keeps 8).hif_eq :), exec_frame_of_next hrun⟩

end

end Sys2Proof.Machine
end

