-- ==== Sys2Proof/Proofs/TlsRecords.lean ====
section
/-! PROOFS. TLS handshakes, records and key updates, and O54. -/

-- one proof after another: many at once would each hold a thread of the compiler
set_option Elab.async false

namespace Sys2Proof.Machine

open Sys2Proof

/-! ## Handshakes (R434, R435) -/

section
variable {s : State} {f suite psk kwk a : Nat}

/-- The state in which a handshake has woken the domains of TLS. -/
def tlsWoken (s : State) : State := s.wake (domains 35 37 ||| keyDomains)

theorem tlsWoken_keeps (s : State) : Frame [.gate] s (tlsWoken s) := s.wake_keeps _

theorem tlsWoken_answers (s : State) (x : Answer) : Frame [.ans, .gate] s ((tlsWoken s).answer x) :=
  State.answer_frame (by decide) ((tlsWoken_keeps s).mono (by decide))

theorem tlsPsk_congr {t : State} (hr : t.regs = s.regs) (kwk f suite : Nat) :
    tlsPsk t kwk f suite = tlsPsk s kwk f suite := by
  unfold tlsPsk State.rdBank
  rw [hr]

theorem freeTlsIndex_congr {t : State} (hn : t.net = s.net) : freeTlsIndex t = freeTlsIndex s := by
  unfold freeTlsIndex
  rw [hn]

/-- The state in which the connection has TLS index `a` and its two keys. -/
def tlsConnected (s : State) (f suite a : Nat) : State :=
  let d := (tlsWoken s).draw
  let e := d.2.draw
  let u := e.2.setNet { e.2.net with tls := Tbl.set e.2.net.tls a (f, suite) }
  let v := u.setCip { u.cip with rxRecords := Tbl.put u.cip.rxRecords a 0 0 }
  (v.setKeySlot (1536 + 2 * a) { KeySlot.empty with key := some (Config.trafficKey d.1), owner := f }).setKeySlot
    (1537 + 2 * a) { KeySlot.empty with key := some (Config.trafficKey e.1), owner := f }

/-- A handshake, once the device is ready. -/
theorem exec_tlsHandshake (hr : s.net.ready = true) : exec (.tlsHandshake f suite psk) s = .next (
    match (s.keySlot 0).key with
    | none => (tlsWoken s).answer (.refusal 115)
    | some kwk =>
      if psk ≠ tlsPsk s kwk f suite then (tlsWoken s).answer (.refusal 51)
      else match freeTlsIndex s with
        | none => ((tlsWoken s).ev eNET_TLS_FULL).answer (.refusal 80)
        | some a => (tlsConnected s f suite a).answer (.value a)) := by
  have hk := tlsWoken_keeps s
  have hslot : (tlsWoken s).keySlot 0 = s.keySlot 0 := State.keySlot_congr (congrArg Key.slots hk.key_eq) 0
  have hpsk := tlsPsk_congr (t := tlsWoken s) hk.regs_eq
  have hfree := freeTlsIndex_congr (t := tlsWoken s) hk.net_eq
  rw [← hslot, ← hfree]
  simp only [← hpsk]
  exact congrArg Host.Outcome.next (if_neg (by rw [hr]; decide))

theorem tlsHandshake_noKwk (hr : s.net.ready = true) (hk : (s.keySlot 0).key = none) :
    ∃ t, exec (.tlsHandshake f suite psk) s = .next t ∧ t.ans = .refusal 115 ∧ Frame [.ans, .gate] s t := by
  have hi := exec_tlsHandshake (f := f) (suite := suite) (psk := psk) hr
  rw [hk] at hi
  exact ⟨_, hi, rfl, tlsWoken_answers s _⟩

theorem tlsHandshake_wrongPsk (hr : s.net.ready = true) (hk : (s.keySlot 0).key = some kwk)
    (hp : psk ≠ tlsPsk s kwk f suite) :
    ∃ t, exec (.tlsHandshake f suite psk) s = .next t ∧ t.ans = .refusal 51 ∧ Frame [.ans, .gate] s t := by
  have hi := exec_tlsHandshake (f := f) (suite := suite) (psk := psk) hr
  rw [hk] at hi
  dsimp only at hi
  rw [if_pos hp] at hi
  exact ⟨_, hi, rfl, tlsWoken_answers s _⟩

theorem tlsHandshake_full (hr : s.net.ready = true) (hk : (s.keySlot 0).key = some kwk)
    (hp : psk = tlsPsk s kwk f suite) (hn : freeTlsIndex s = none) :
    ∃ t, exec (.tlsHandshake f suite psk) s = .next t ∧ t.ans = .refusal 80 ∧ t.shows eNET_TLS_FULL ∧
      Frame [.ans, .gate, .pages] s t := by
  have hi := exec_tlsHandshake (f := f) (suite := suite) (psk := psk) hr
  rw [hk] at hi
  dsimp only at hi
  rw [if_neg (not_not_intro hp), hn] at hi
  exact ⟨_, hi, rfl, State.shows_congr (State.ev_shows (tlsWoken s) (by decide)) rfl,
    State.answer_frame (by decide) (State.ev_frame (by decide) ((tlsWoken_keeps s).mono (by decide)))⟩

theorem tlsConnected_keeps (s : State) (f suite a : Nat) :
    Frame [.draws, .gate, .key, .cip, .net] s (tlsConnected s f suite a) :=
  State.setKeySlot_frame (by decide) (State.setKeySlot_frame (by decide) (State.setCip_frame (by decide)
    (State.setNet_frame (by decide) (State.draw_frame (by decide) (State.draw_frame (by decide)
      ((tlsWoken_keeps s).mono (by decide)))))))

theorem tlsConnected_keys (s : State) (f suite a : Nat) :
    ((tlsConnected s f suite a).keySlot (1536 + 2 * a)).key = some (Config.trafficKey s.draws) ∧
    ((tlsConnected s f suite a).keySlot (1537 + 2 * a)).key = some (Config.trafficKey (s.draws + 1)) ∧
    (tlsConnected s f suite a).draws = s.draws + 2 := by
  have hd : (tlsWoken s).draws = s.draws := (tlsWoken_keeps s).draws_eq
  refine ⟨?_, ?_, ?_⟩
  · unfold tlsConnected
    rw [State.setKeySlot_keySlot_ne _ _ (by omega), State.setKeySlot_keySlot]
    exact congrArg (fun n => some (Config.trafficKey n)) hd
  · unfold tlsConnected
    rw [State.setKeySlot_keySlot]
    exact congrArg (fun n => some (Config.trafficKey (n + 1))) hd
  · exact congrArg (· + 2) hd

theorem tlsHandshake_connects (hr : s.net.ready = true) (hk : (s.keySlot 0).key = some kwk)
    (hp : psk = tlsPsk s kwk f suite) (ha : freeTlsIndex s = some a) :
    ∃ t, exec (.tlsHandshake f suite psk) s = .next t ∧ t.ans = .value a ∧ Tbl.get t.net.tls a = some (f, suite) ∧
      (t.keySlot (1536 + 2 * a)).key = some (Config.trafficKey s.draws) ∧
      (t.keySlot (1537 + 2 * a)).key = some (Config.trafficKey (s.draws + 1)) ∧ t.draws = s.draws + 2 ∧
      Frame [.ans, .draws, .gate, .key, .cip, .net] s t := by
  have hi := exec_tlsHandshake (f := f) (suite := suite) (psk := psk) hr
  rw [hk] at hi
  dsimp only at hi
  rw [if_neg (not_not_intro hp), ha] at hi
  obtain ⟨hn, hm, hd⟩ := tlsConnected_keys s f suite a
  exact ⟨_, hi, rfl, Tbl.get_set_self _ _ _, hn, hm, hd,
    State.answer_frame (by decide) ((tlsConnected_keeps s f suite a).mono (by decide))⟩

end

/-! ## Records (R408) -/

section
variable {s : State} {a f suite : Nat}

/-- The state in which a record has arrived. -/
def recordArrived (s : State) : State := (s.wake (domains 35 35 ||| keyDomains)).bump rCIP_TLS_REC 1

theorem recordArrived_keeps (s : State) : Frame [.gate, .regs] s (recordArrived s) :=
  State.bump_frame (by decide) (State.wake_frame (by decide) (Frame.refl _ s))

theorem tlsRecordReceive_counts (ha : Tbl.get s.net.tls a = some (f, suite)) :
    ∃ t, exec (.tlsRecordReceive a true) s = .next t ∧
      Tbl.getD t.cip.rxRecords a 0 = Tbl.getD s.cip.rxRecords a 0 + 1 ∧ Frame [.gate, .cip, .regs] s t := by
  have hi : exec (.tlsRecordReceive a true) s = .next ((recordArrived s).setCip { (recordArrived s).cip with
      rxRecords := Tbl.put (recordArrived s).cip.rxRecords a (Tbl.getD (recordArrived s).cip.rxRecords a 0 + 1) 0 }) := by
    show execTlsRecordReceive a true s = _
    unfold execTlsRecordReceive
    rw [ha]
    rfl
  refine ⟨_, hi, ?_, State.setCip_frame (by decide) ((recordArrived_keeps s).mono (by decide))⟩
  rw [State.setCip_cip, (recordArrived_keeps s).cip_eq, Tbl.getD_put_self]

/-- The state in which a record that fails its check is counted, recorded and answered. -/
def recordRefused (s : State) (f : Nat) : State :=
  ((((recordArrived s).bump rCIP_TLS_AUTH_FAIL 1).ev eCIP_TLS_FAIL).raise lCIP_TLS_FAIL (some f) []).answer (.refusal 20)

/-- A queue of the function's association uses the connection. -/
def tlsInUse (s : State) (f a : Nat) : Bool := (assocOf s f).any fun x => x.queues.any fun q => q.2 == some a

theorem assocOf_congr {t : State} (h : t.net = s.net) (f : Nat) : assocOf t f = assocOf s f := by
  unfold assocOf
  rw [h]

theorem recordRefused_keeps (s : State) (f : Nat) : Frame [.ans, .gate, .evl, .pages, .regs] s (recordRefused s f) :=
  State.answer_frame (by decide) (State.raise_frame (by decide) (State.ev_frame (by decide) (State.bump_frame (by decide)
    ((recordArrived_keeps s).mono (by decide)))))

theorem recordRefused_tells (s : State) (f : Nat) : (recordRefused s f).ans = .refusal 20 ∧
    (recordRefused s f).shows eCIP_TLS_FAIL ∧
    s.hears (recordRefused s f) lCIP_TLS_FAIL lCIP_TLS_FAIL (some f) [] := by
  refine ⟨rfl, State.shows_congr (State.raise_shows (State.ev_shows _ (by decide)) lCIP_TLS_FAIL (some f) []) rfl,
    State.hears_congr (State.raiseAt_hears ?_ (lCIP_TLS_FAIL / 256) (some f) [] none (by decide)) rfl⟩
  rw [State.ev_tbs, State.bump_tbs, (recordArrived_keeps s).tbs_eq]

theorem exec_tlsRecordReceive_bad (ha : Tbl.get s.net.tls a = some (f, suite)) : exec (.tlsRecordReceive a false) s =
    .next (if tlsInUse s f a then loseAssoc (recordRefused s f) f 4 else freeTls (recordRefused s f) a) := by
  have hu : tlsInUse (recordRefused s f) f a = tlsInUse s f a := by
    unfold tlsInUse
    rw [assocOf_congr (recordRefused_keeps s f).net_eq]
  rw [← hu]
  show execTlsRecordReceive a false s = _
  unfold execTlsRecordReceive
  rw [ha]
  rfl

/-- The loss of an association leaves the answer, the events shown and what the ledger has heard of other codes. -/
theorem loseAssoc_leaves {t : State} (n : Nat) {e : Nat × Nat} {q code : Nat} {g : Option Nat} {l : List (Nat × Nat)}
    (he : t.shows e) (hh : s.hears t q code g l) (hq : q ≠ lNET_ASSOC_LOST) :
    (loseAssoc t f n).ans = t.ans ∧ (loseAssoc t f n).shows e ∧ s.hears (loseAssoc t f n) q code g l := by
  have told (u : State) (hf : Frame [.fns, .net] t u) (o : Option Nat) (m : List (Nat × Nat)) :
      ((u.ev eNET_ASSOC_LOST).raise lNET_ASSOC_LOST o m).ans = t.ans ∧
      ((u.ev eNET_ASSOC_LOST).raise lNET_ASSOC_LOST o m).shows e ∧
      s.hears ((u.ev eNET_ASSOC_LOST).raise lNET_ASSOC_LOST o m) q code g l := by
    refine ⟨?_, State.raise_shows (State.ev_shows' (State.shows_congr he hf.pages_eq) _) _ _ _,
      State.hears_raiseAt (State.hears_congr hh ?_) _ _ _ _ (by decide) hq⟩
    · rw [State.raise_ans, State.ev_ans, hf.ans_eq]
    · rw [State.ev_evl, hf.evl_eq]
  unfold loseAssoc
  split
  · unfold loseDiscovery
    split
    · exact ⟨rfl, he, hh⟩
    · exact told _ (State.setNet_frame (by decide) (Frame.refl _ t)) _ _
  · split
    · exact ⟨rfl, he, hh⟩
    · exact told _ (armReset_frame (by decide) (Frame.refl _ t)) _ _

/-- An association that is there and whose function has no reset armed arms it. -/
theorem loseAssoc_arms {t : State} (n : Nat) (h0 : f ≠ 256) (ha : (assocOf t f).isSome = true)
    (hf : (t.fn f).flrArm = none) : ((loseAssoc t f n).fn f).flrArm = some .assocLost := by
  have hno : ¬((assocOf t f).isNone = true ∨ (t.fn f).flrArm.isSome = true) := by
    rw [hf]
    rintro (h | h)
    · rw [Option.isNone_iff_eq_none] at h
      rw [h] at ha
      cases ha
    · cases h
  unfold loseAssoc
  rw [if_neg (show f ≠ discoveryFn from h0), if_neg hno, State.fn_congr (State.raise_fns _ _ _ _),
    State.fn_congr (State.ev_fns _ _), armReset_fn, if_pos rfl]

theorem freeTls_frees (t : State) (a : Nat) : Tbl.get (freeTls t a).net.tls a = none ∧
    ((freeTls t a).keySlot (1536 + 2 * a)).key = none ∧ ((freeTls t a).keySlot (1537 + 2 * a)).key = none ∧
    Frame [.key, .net] t (freeTls t a) := by
  refine ⟨?_, ?_, ?_, freeTls_frame (by decide) (Frame.refl _ t)⟩
  · exact (Tbl.get_erase _ _ _).trans (if_pos rfl)
  · unfold freeTls
    rw [State.setKeySlot_keySlot_ne _ _ (by omega), State.setKeySlot_keySlot]
    rfl
  · unfold freeTls
    rw [State.setKeySlot_keySlot]
    rfl

theorem tlsRecordReceive_refuses (ha : Tbl.get s.net.tls a = some (f, suite)) :
    ∃ t, exec (.tlsRecordReceive a false) s = .next t ∧ t.ans = .refusal 20 ∧ t.shows eCIP_TLS_FAIL ∧
      s.tells t lCIP_TLS_FAIL (some f) [] ∧
      (tlsInUse s f a = true → f ≠ 256 → (s.fn f).flrArm = none → (t.fn f).flrArm = some .assocLost) ∧
      (tlsInUse s f a = false → Tbl.get t.net.tls a = none ∧ (t.keySlot (1536 + 2 * a)).key = none ∧
        (t.keySlot (1537 + 2 * a)).key = none) := by
  have hi := exec_tlsRecordReceive_bad ha
  have hk := recordRefused_keeps s f
  obtain ⟨hans, hshows, hhears⟩ := recordRefused_tells s f
  cases hu : tlsInUse s f a
  · rw [hu, if_neg (by decide)] at hi
    obtain ⟨hget, hrx, htx, hfree⟩ := freeTls_frees (recordRefused s f) a
    exact ⟨_, hi, hfree.ans_eq.trans hans, State.shows_congr hshows hfree.pages_eq,
      State.hears_tells (State.hears_congr hhears hfree.evl_eq), fun h => absurd h (by decide), fun _ => ⟨hget, hrx, htx⟩⟩
  · rw [hu, if_pos rfl] at hi
    obtain ⟨hans', hshows', hhears'⟩ := loseAssoc_leaves (f := f) 4 hshows hhears (by decide)
    refine ⟨_, hi, hans'.trans hans, hshows', State.hears_tells hhears', fun _ h0 hf => ?_, fun h => absurd h (by decide)⟩
    refine loseAssoc_arms 4 h0 ?_ ((congrArg Fn.flrArm (State.fn_congr hk.fns_eq f)).trans hf)
    rw [assocOf_congr hk.net_eq]
    unfold tlsInUse at hu
    cases ho : assocOf s f with
    | none => rw [ho] at hu; cases hu
    | some _ => rfl

end

/-! ## Key updates (R405, R408) -/

section
variable {s : State} {a f suite : Nat}

/-- The state in which slot `k` has the next traffic key, the old one as its shadow. -/
def trafficUpdated (s : State) (k : Nat) : State :=
  let u := s.draw.2.setKeySlot k { s.keySlot k with
    key := some (Config.trafficKey s.draws), shadow := (s.keySlot k).key, gen := (s.keySlot k).gen + 1 }
  u.setKey { u.key with clears := u.key.clears ++ [{ slot := k, seq := none }] }

theorem trafficUpdated_slots (s : State) (k : Nat) : (trafficUpdated s k).key.slots = (s.setKeySlot k { s.keySlot k with
    key := some (Config.trafficKey s.draws), shadow := (s.keySlot k).key, gen := (s.keySlot k).gen + 1 }).key.slots := rfl

theorem trafficUpdated_keySlot (s : State) (k : Nat) : (trafficUpdated s k).keySlot k = { s.keySlot k with
    key := some (Config.trafficKey s.draws), shadow := (s.keySlot k).key, gen := (s.keySlot k).gen + 1 } :=
  (State.keySlot_congr (trafficUpdated_slots s k) k).trans (State.setKeySlot_keySlot _ _ _)

theorem trafficUpdated_keySlot_ne (s : State) {k i : Nat} (h : i ≠ k) :
    (trafficUpdated s k).keySlot i = s.keySlot i :=
  (State.keySlot_congr (trafficUpdated_slots s k) i).trans (State.setKeySlot_keySlot_ne _ _ h)

theorem tlsKeyUpdate_transmit (ha : Tbl.get s.net.tls a = some (f, suite)) :
    ∃ t, exec (.tlsKeyUpdate a true) s = .next t ∧
      (t.keySlot (1536 + 2 * a)).key = some (Config.trafficKey s.draws) ∧
      (t.keySlot (1536 + 2 * a)).shadow = (s.keySlot (1536 + 2 * a)).key ∧
      (t.keySlot (1536 + 2 * a)).gen = (s.keySlot (1536 + 2 * a)).gen + 1 ∧
      (∀ k, k ≠ 1536 + 2 * a → t.keySlot k = s.keySlot k) ∧ Frame [.draws, .key, .regs] s t := by
  have hi : exec (.tlsKeyUpdate a true) s = .next ((trafficUpdated s (1536 + 2 * a)).bump rCIP_KEY_UPDATE 1) := by
    show execTlsKeyUpdate a true s = _
    unfold execTlsKeyUpdate
    rw [ha]
    rfl
  have hslot (k : Nat) : ((trafficUpdated s (1536 + 2 * a)).bump rCIP_KEY_UPDATE 1).keySlot k =
      (trafficUpdated s (1536 + 2 * a)).keySlot k :=
    State.keySlot_congr (congrArg Key.slots (State.bump_key _ _ _)) k
  refine ⟨_, hi, ?_, ?_, ?_, fun k hk => ?_, State.bump_frame (by decide) (State.setKey_frame (by decide)
    (State.setKeySlot_frame (by decide) (State.draw_frame (by decide) (Frame.refl _ s))))⟩
  · rw [hslot, trafficUpdated_keySlot]
  · rw [hslot, trafficUpdated_keySlot]
  · rw [hslot, trafficUpdated_keySlot]
  · rw [hslot, trafficUpdated_keySlot_ne _ hk]

theorem tlsKeyUpdate_early (ha : Tbl.get s.net.tls a = some (f, suite)) (hl : Tbl.getD s.cip.rxRecords a 0 < 2 ^ 23) :
    exec (.tlsKeyUpdate a false) s = .next s := by
  show execTlsKeyUpdate a false s = _
  unfold execTlsKeyUpdate
  rw [ha]
  dsimp only
  rw [if_pos ⟨rfl, hl⟩]

theorem tlsKeyUpdate_receive (ha : Tbl.get s.net.tls a = some (f, suite)) (hl : 2 ^ 23 ≤ Tbl.getD s.cip.rxRecords a 0) :
    ∃ t, exec (.tlsKeyUpdate a false) s = .next t ∧ Tbl.getD t.cip.rxRecords a 0 = 0 ∧
      (t.keySlot (1537 + 2 * a)).shadow = (s.keySlot (1537 + 2 * a)).key := by
  have hi : exec (.tlsKeyUpdate a false) s = .next (((trafficUpdated s (1537 + 2 * a)).setCip
      { (trafficUpdated s (1537 + 2 * a)).cip with
        rxRecords := Tbl.put (trafficUpdated s (1537 + 2 * a)).cip.rxRecords a 0 0 }).bump rCIP_KEY_UPDATE 1) := by
    show execTlsKeyUpdate a false s = _
    unfold execTlsKeyUpdate
    rw [ha]
    dsimp only
    rw [if_neg fun h => Nat.not_lt.2 hl h.2]
    rfl
  refine ⟨_, hi, ?_, ?_⟩
  · rw [State.bump_cip, State.setCip_cip, Tbl.getD_put_self]
  · rw [State.keySlot_congr (congrArg Key.slots (State.bump_key _ _ _))]
    exact congrArg KeySlot.shadow (trafficUpdated_keySlot s (1537 + 2 * a))

end

/-! ## O54 -/

/-- Settles O54, command by command. -/
theorem portsAndTlsComplete : Obligations.PortsAndTlsComplete :=
  ⟨fun _ _ _ _ _ => pcieLinkUp_up, fun _ _ _ => portLosesLink,
    fun _ _ _ _ hp hu => ⟨pcieConfigRequest_answers hp hu, fun _ => pcieConfigRequest_refuses hp hu,
      fun _ => pcieConfigRequest_inReset hp hu⟩,
    fun _ _ _ => hifIdeFail_fails, fun _ _ => hifWinClose_closes,
    fun _ _ _ _ hr => ⟨tlsHandshake_noKwk hr, fun _ hk => ⟨tlsHandshake_wrongPsk hr hk, tlsHandshake_full hr hk,
      fun _ => tlsHandshake_connects hr hk⟩⟩,
    fun _ _ _ _ ha => ⟨tlsRecordReceive_counts ha, tlsRecordReceive_refuses ha, tlsKeyUpdate_transmit ha,
      tlsKeyUpdate_early ha, tlsKeyUpdate_receive ha⟩⟩

end Sys2Proof.Machine
end

