-- ==== Sys2Proof/Proofs/ThermalRounds.lean ====
section
/-! PROOFS. The housekeeping round, the open test and the package readings (the first part of O56): what each step of a
round leaves of THM. -/

-- one proof after another: many at once would each hold a thread of the compiler
set_option Elab.async false

namespace Sys2Proof.Machine

open Sys2Proof

/-! ## Channels (R451, R453) -/

theorem State.hk_congr {s t : State} (h : t.thm.chans = s.thm.chans) (c : Nat) : t.hk c = s.hk c := by
  unfold State.hk
  rw [h]

theorem setStr_thm (s : State) (k : Nat) (x : Str) : (setStr s k x).thm = s.thm :=
  (setStr_frame (List.Subset.refl _) (Frame.refl _ s)).thm_eq

/-- The state in which channel `c` holds `x`. -/
def State.setHk (s : State) (c : Nat) (x : HkChan) : State :=
  s.setThm { s.thm with chans := Tbl.set s.thm.chans c x }

theorem State.setHk_hk (s : State) (c k : Nat) (x : HkChan) : (s.setHk c x).hk k = if k = c then x else s.hk k :=
  Tbl.getD_set _ _ _ _ _

/-- A broken channel is marked, and nothing else of THM changes. -/
theorem breakChan_thm (s : State) (c : Nat) : (breakChan s c).thm =
    if (s.hk c).broken then s.thm else (s.setHk c { s.hk c with broken := true }).thm := by
  unfold breakChan
  split
  · rfl
  · dsimp only
    split
    · rw [setStr_thm, State.raise_thm, State.ev_thm]
      rfl
    · rw [State.raise_thm, State.ev_thm]
      rfl

theorem breakChan_hk (s : State) (c k : Nat) : (breakChan s c).hk k =
    if k = c then { s.hk c with broken := true } else s.hk k := by
  have hthm := congrArg Thm.chans (breakChan_thm s c)
  by_cases hb : (s.hk c).broken = true
  · rw [if_pos hb] at hthm
    rw [State.hk_congr hthm]
    split
    · next hk =>
      rw [hk]
      exact congrArg (fun b => { s.hk c with broken := b }) hb
    · rfl
  · rw [if_neg hb] at hthm
    rw [State.hk_congr hthm]
    exact State.setHk_hk _ _ _ _

/-- A step of a round that changes of THM the channels alone. -/
def State.samples (s t : State) : Prop := ∃ ch, t.thm = { s.thm with chans := ch }

theorem State.samples_refl (s : State) : s.samples s := ⟨_, rfl⟩

theorem State.samples_trans {s t u : State} (h : s.samples t) (k : t.samples u) : s.samples u := by
  obtain ⟨a, ha⟩ := h
  obtain ⟨b, hb⟩ := k
  exact ⟨b, by rw [hb, ha]⟩

theorem State.samples_rounds {s t : State} (h : s.samples t) : t.thm.rounds = s.thm.rounds := by
  obtain ⟨ch, hch⟩ := h
  rw [hch]

theorem breakChan_samples (s : State) (c : Nat) : s.samples (breakChan s c) := by
  unfold State.samples
  rw [breakChan_thm]
  split
  · exact ⟨_, rfl⟩
  · exact ⟨_, rfl⟩

/-- A channel that is sampled holds its code and the value in its unit, and may be found broken. -/
theorem sampleChan_cases (s : State) (c code : Nat) : ∃ x : HkChan, x.raw = code ∧ x.val = scaleCode s c code ∧
    (sampleChan s c code = s.setHk c x ∨ sampleChan s c code = breakChan (s.setHk c x) c) := by
  refine ⟨{ s.hk c with
    raw := code, val := scaleCode s c code,
    badRun := if inRange s c (scaleCode s c code) then 0 else (s.hk c).badRun + 1 }, rfl, rfl, ?_⟩
  by_cases hn : (if inRange s c (scaleCode s c code) then 0 else (s.hk c).badRun + 1) ≥ 2
  · exact .inr (if_pos hn)
  · exact .inl (if_neg hn)

theorem sampleChan_samples (s : State) (c code : Nat) : s.samples (sampleChan s c code) := by
  obtain ⟨x, -, -, h | h⟩ := sampleChan_cases s c code <;> rw [h]
  · exact ⟨_, rfl⟩
  · exact State.samples_trans ⟨_, rfl⟩ (breakChan_samples _ c)

theorem sampleChan_hk_ne (s : State) {c k : Nat} (code : Nat) (hk : k ≠ c) : (sampleChan s c code).hk k = s.hk k := by
  obtain ⟨x, -, -, h | h⟩ := sampleChan_cases s c code <;> rw [h]
  · rw [State.setHk_hk, if_neg hk]
  · rw [breakChan_hk, if_neg hk, State.setHk_hk, if_neg hk]

theorem sampleChan_hk (s : State) (c code : Nat) : ((sampleChan s c code).hk c).raw = code ∧
    ((sampleChan s c code).hk c).val = scaleCode s c code := by
  obtain ⟨x, hraw, hval, h | h⟩ := sampleChan_cases s c code <;> rw [h]
  · rw [State.setHk_hk, if_pos rfl]
    exact ⟨hraw, hval⟩
  · rw [breakChan_hk, if_pos rfl, State.setHk_hk, if_pos rfl]
    exact ⟨hraw, hval⟩

theorem sampleChan_bot (s : State) (c code : Nat) : (sampleChan s c code).bot = s.bot :=
  (sampleChan_frame (List.Subset.refl _) (Frame.refl _ s)).bot_eq

theorem scaleCode_congr {s t : State} (h : t.bot = s.bot) (c code : Nat) : scaleCode t c code = scaleCode s c code := by
  unfold scaleCode
  rw [h]

theorem chanFitted_congr {s t : State} (h : t.bot = s.bot) (c : Nat) : chanFitted t c = chanFitted s c := by
  unfold chanFitted
  rw [h]

/-- Channels that are sampled one after another. -/
def samplesOf (codes : Tbl (BitVec 12)) (l : List Nat) (s : State) : State :=
  l.foldl (fun s c => if chanFitted s c then sampleChan s c (Tbl.getD codes c 0).toNat else s) s

theorem samplesOf_samples (codes : Tbl (BitVec 12)) (l : List Nat) (s : State) : s.samples (samplesOf codes l s) := by
  induction l generalizing s with
  | nil => exact s.samples_refl
  | cons c l ih =>
    refine State.samples_trans ?_ (ih _)
    dsimp only
    split
    · exact sampleChan_samples _ _ _
    · exact s.samples_refl

/-- The channel holds its code and the value that the image of `s` gives it. -/
def State.sampled (s t : State) (codes : Tbl (BitVec 12)) (c : Nat) : Prop :=
  (t.hk c).raw = (Tbl.getD codes c 0).toNat ∧ (t.hk c).val = scaleCode s c (Tbl.getD codes c 0).toNat

theorem samplesOf_sampled {s : State} (codes : Tbl (BitVec 12)) (l : List Nat) {u : State} (hu : u.bot = s.bot) {c : Nat}
    (hf : chanFitted s c = true) (h : c ∈ l ∨ s.sampled u codes c) : s.sampled (samplesOf codes l u) codes c := by
  induction l generalizing u with
  | nil => exact h.resolve_left List.not_mem_nil
  | cons a l ih =>
    have hfit : chanFitted u a = chanFitted s a := chanFitted_congr hu a
    refine ih (u := if chanFitted u a then sampleChan u a (Tbl.getD codes a 0).toNat else u) ?_ ?_
    · split
      · exact (sampleChan_bot _ _ _).trans hu
      · exact hu
    · by_cases ha : c = a
      · subst ha
        right
        rw [hfit, if_pos hf]
        obtain ⟨hraw, hval⟩ := sampleChan_hk u c (Tbl.getD codes c 0).toNat
        exact ⟨hraw, hval.trans (scaleCode_congr hu _ _)⟩
      · refine h.imp (fun hm => (List.mem_cons.1 hm).resolve_left ha) fun hs => ?_
        split
        · unfold State.sampled
          rw [sampleChan_hk_ne _ _ ha]
          exact hs
        · exact hs

/-! ## The steps of a round after sampling (R454-R468) -/

/-- THM keeps its channels and its count of rounds. -/
def Thm.sameRound (a b : Thm) : Prop := b.chans = a.chans ∧ b.rounds = a.rounds

theorem Thm.sameRound_trans {a b c : Thm} (h : a.sameRound b) (k : b.sameRound c) : a.sameRound c :=
  ⟨k.1.trans h.1, k.2.trans h.2⟩

theorem Thm.sameRound_of_eq {a b : Thm} (h : b = a) : a.sameRound b := h ▸ ⟨rfl, rfl⟩

theorem diodeStep_sameRound (s : State) (diodes : List Int) (k : Nat) : s.thm.sameRound (diodeStep s diodes k).thm := by
  unfold diodeStep
  split
  · exact ⟨rfl, rfl⟩
  · dsimp only
    split
    · rw [State.raise_thm, State.ev_thm]
      exact ⟨rfl, rfl⟩
    · exact ⟨rfl, rfl⟩

theorem diodeSteps_sameRound (s : State) (diodes : List Int) : s.thm.sameRound (diodeSteps s diodes).thm := by
  unfold diodeSteps
  generalize [0, 1, 3, 6] = l
  induction l generalizing s with
  | nil => exact ⟨rfl, rfl⟩
  | cons k l ih =>
    refine Thm.sameRound_trans ?_ (ih _)
    dsimp only
    split
    · exact diodeStep_sameRound _ _ _
    · exact ⟨rfl, rfl⟩

theorem setLevel_thm (s : State) (n : Nat) : (setLevel s n).thm = { s.thm with level := n, belowSince := none } := by
  unfold setLevel
  rw [State.raise_thm, State.ev_thm, State.ev_thm]
  rfl

theorem levelStep_thm (s : State) : ∃ n b, (levelStep s).thm = { s.thm with level := n, belowSince := b } ∧
    candidate s ≤ n := by
  unfold levelStep
  dsimp only
  split
  · exact ⟨_, _, setLevel_thm _ _, Nat.le_refl _⟩
  · next hle =>
    split
    · exact ⟨_, _, rfl, Nat.not_lt.1 hle⟩
    · split
      · exact ⟨_, _, rfl, Nat.not_lt.1 hle⟩
      · exact ⟨_, _, rfl, Nat.not_lt.1 hle⟩

/-- No candidate is above the level in force. -/
def Thm.levelHolds (a : Thm) : Prop := max (max a.lAbs a.lRise) (max a.lPower (floorLevel a.ps)) ≤ a.level

theorem levelStep_holds (s : State) : (levelStep s).thm.levelHolds ∧ s.thm.sameRound (levelStep s).thm := by
  obtain ⟨n, b, h, hn⟩ := levelStep_thm s
  rw [h]
  exact ⟨hn, rfl, rfl⟩

theorem throttleStep_holds (s : State) : (throttleStep s).thm.levelHolds ∧ s.thm.sameRound (throttleStep s).thm := by
  unfold throttleStep
  dsimp only
  split
  · obtain ⟨hl, hr⟩ := levelStep_holds _
    refine ⟨hl, Thm.sameRound_trans ?_ hr⟩
    rw [State.raise_thm, State.ev_thm]
    exact ⟨rfl, rfl⟩
  · obtain ⟨hl, hr⟩ := levelStep_holds _
    exact ⟨hl, Thm.sameRound_trans ⟨rfl, rfl⟩ hr⟩

theorem armDump_thm (s : State) (c : DumpCause) : (armDump s c).thm = s.thm :=
  (armDump_frame (List.Subset.refl _) (Frame.refl _ s)).thm_eq

/-- What a snuff may change of THM: its own fields alone. -/
def Thm.snuffs (a b : Thm) : Prop := ∃ n c l w, b = { a with snuff := n, snuffAt := c, lastSnuff := l, wait := w }

/-- The snuff itself, where the node is hot enough; `recent` tells that another came before within the hour (R463, R464). -/
def snuffFrom (recent : Bool) (now : Nat) (s : State) : State :=
  if s.thm.snuff ≠ .none then s
  else match composite s with
    | .none => s
    | some t =>
      if t < 10 * (s.fuses.snuffC : Rat) then s
      else armDump (((s.setThm { s.thm with
          snuff := .dumping, snuffAt := s.tbs.clk, lastSnuff := some now,
          wait := if recent then min 480 (2 * s.thm.wait) else 30 }).bump rTHM_SNUFFS 1).raise lTHM_SNUFF none []) .snuff

theorem snuffStep_eq (s : State) :
    snuffStep s = snuffFrom (s.thm.lastSnuff.any fun t => decide (operatingSeconds s < t + 3600)) (operatingSeconds s)
      (if s.thm.lastSnuff.any fun t => decide (operatingSeconds s < t + 3600) then s
        else s.setThm { s.thm with wait := 30 }) := rfl

theorem snuffFrom_thm (recent : Bool) (now : Nat) (s : State) : s.thm.snuffs (snuffFrom recent now s).thm := by
  unfold snuffFrom
  split
  · exact ⟨_, _, _, _, rfl⟩
  · split
    · exact ⟨_, _, _, _, rfl⟩
    · split
      · exact ⟨_, _, _, _, rfl⟩
      · rw [armDump_thm, State.raise_thm, State.bump_thm]
        exact ⟨_, _, _, _, rfl⟩

theorem snuffStep_thm (s : State) : s.thm.snuffs (snuffStep s).thm := by
  rw [snuffStep_eq]
  split
  · exact snuffFrom_thm _ _ s
  · obtain ⟨n, c, l, w, h⟩ := snuffFrom_thm (s.thm.lastSnuff.any fun t => decide (operatingSeconds s < t + 3600))
      (operatingSeconds s) (s.setThm { s.thm with wait := 30 })
    exact ⟨n, c, l, w, h⟩

theorem snuffStep_holds {s : State} (h : s.thm.levelHolds) : (snuffStep s).thm.levelHolds ∧
    s.thm.sameRound (snuffStep s).thm := by
  obtain ⟨n, c, l, w, ht⟩ := snuffStep_thm s
  rw [ht]
  exact ⟨h, rfl, rfl⟩

/-! ## HOUSEKEEPING_ROUND (R452) -/

/-- The steps of a round from the thermal model on. -/
def roundSteps (s : State) (n : Nat) (diodes : List Int) (restores : Option Nat) : State :=
  hldRound (snuffStep (thresholdStep (throttleStep (dieTemps (diodeSteps (sumPower (modelStep s ((n : Rat) / 125000)))
    diodes))))) restores

theorem roundSteps_holds (s : State) (n : Nat) (diodes : List Int) (restores : Option Nat) :
    (roundSteps s n diodes restores).thm.levelHolds ∧ s.thm.sameRound (roundSteps s n diodes restores).thm := by
  obtain ⟨hl, hr⟩ := throttleStep_holds (dieTemps (diodeSteps (sumPower (modelStep s ((n : Rat) / 125000))) diodes))
  have hdies : (dieTemps (diodeSteps (sumPower (modelStep s ((n : Rat) / 125000))) diodes)).thm =
      (diodeSteps (sumPower (modelStep s ((n : Rat) / 125000))) diodes).thm :=
    (dieTemps_frame (List.Subset.refl _) (Frame.refl _ _)).thm_eq
  have hdiodes : s.thm.sameRound (diodeSteps (sumPower (modelStep s ((n : Rat) / 125000))) diodes).thm :=
    Thm.sameRound_trans (b := (sumPower (modelStep s ((n : Rat) / 125000))).thm) ⟨rfl, rfl⟩ (diodeSteps_sameRound _ _)
  rw [hdies] at hr
  unfold roundSteps
  generalize throttleStep (dieTemps (diodeSteps (sumPower (modelStep s ((n : Rat) / 125000))) diodes)) = u at hl hr
  have hthr : (thresholdStep u).thm = u.thm := (thresholdStep_frame (List.Subset.refl _) (Frame.refl _ u)).thm_eq
  obtain ⟨hl', hr'⟩ := snuffStep_holds (s := thresholdStep u) (by rw [hthr]; exact hl)
  rw [(hldRound_frame (List.Subset.refl _) (Frame.refl _ (snuffStep (thresholdStep u)))).thm_eq]
  rw [hthr] at hr'
  exact ⟨hl', Thm.sameRound_trans hdiodes (Thm.sameRound_trans hr hr')⟩

/-- The state in which a round has ended. -/
def roundEnded (s : State) : State :=
  let u := if fastNow s ∧ !s.thm.fast then s.ev eTHM_FAST else s
  u.setThm { u.thm with rounds := u.thm.rounds + 1, sinceRound := 0, dieTime := [], fast := fastNow s }

theorem roundEnded_thm (s : State) : (roundEnded s).thm =
    { s.thm with rounds := s.thm.rounds + 1, sinceRound := 0, dieTime := [], fast := fastNow s } := by
  unfold roundEnded
  dsimp only
  split
  · rw [State.setThm_thm, State.ev_thm]
  · rfl

section
variable {s : State} {codes : Tbl (BitVec 12)} {diodes : List Int} {restores : Option Nat}

theorem exec_housekeepingRound (hd : roundStrides s ≤ s.thm.sinceRound) (hp : s.bot.phase ≠ 0) :
    exec (.housekeepingRound codes diodes restores) s =
      .next (roundEnded (roundSteps (samplesOf codes (List.range 64) s) (roundStrides s) diodes restores)) :=
  congrArg Host.Outcome.next (if_neg (by rintro (h | h); exacts [Nat.not_lt.2 hd h, hp h]))

theorem housekeepingRound_runs (hd : roundStrides s ≤ s.thm.sinceRound) (hp : s.bot.phase ≠ 0) :
    ∃ t, exec (.housekeepingRound codes diodes restores) s = .next t ∧ t.thm.rounds = s.thm.rounds + 1 ∧
      t.thm.sinceRound = 0 ∧ t.thm.dieTime = [] ∧ candidate t ≤ t.thm.level ∧
      (∀ c, c < 64 → chanFitted s c = true → (t.hk c).raw = (Tbl.getD codes c 0).toNat ∧
        (t.hk c).val = scaleCode s c (Tbl.getD codes c 0).toNat) ∧
      Frame [.stp, .qmx, .fns, .wbf, .fch, .thm, .hld, .evl, .pages, .regs] s t := by
  have hi := exec_housekeepingRound (codes := codes) (diodes := diodes) (restores := restores) hd hp
  have hch := State.samples_rounds (samplesOf_samples codes (List.range 64) s)
  have hsampled (c : Nat) (hc : c < 64) (hf : chanFitted s c = true) :
      s.sampled (samplesOf codes (List.range 64) s) codes c :=
    samplesOf_sampled codes _ rfl hf (.inl (List.mem_range.2 hc))
  generalize samplesOf codes (List.range 64) s = u at hi hch hsampled
  obtain ⟨hl, hchans, hrounds⟩ := roundSteps_holds u (roundStrides s) diodes restores
  generalize roundSteps u (roundStrides s) diodes restores = v at hi hl hchans hrounds
  refine ⟨_, hi, ?_, ?_, ?_, ?_, fun c hc hf => ?_, exec_frame_of_next hi⟩
  · rw [roundEnded_thm]
    exact congrArg (· + 1) (hrounds.trans hch)
  · rw [roundEnded_thm]
  · rw [roundEnded_thm]
  · unfold candidate
    rw [roundEnded_thm]
    exact hl
  · rw [State.hk_congr (t := roundEnded v) (s := u) (by rw [roundEnded_thm]; exact hchans)]
    exact hsampled c hc hf

/-! ## OPEN_TEST (R453) -/

/-- The open test of some channels: those that move by more than their threshold are broken. -/
def openTested (moves : Tbl Nat) (l : List (Nat × HkDef)) (s : State) : State :=
  l.foldl (fun s (p : Nat × HkDef) => if Tbl.getD moves p.1 0 > p.2.openThr then breakChan s p.1 else s) s

theorem openTested_broken (moves : Tbl Nat) (l : List (Nat × HkDef)) (s : State) (c : Nat) :
    ((openTested moves l s).hk c).broken = true ↔
      (s.hk c).broken = true ∨ ∃ d, (c, d) ∈ l ∧ d.openThr < Tbl.getD moves c 0 := by
  induction l generalizing s with
  | nil => simp [openTested]
  | cons p l ih =>
    have hstep : ((if Tbl.getD moves p.1 0 > p.2.openThr then breakChan s p.1 else s).hk c).broken = true ↔
        (s.hk c).broken = true ∨ (c = p.1 ∧ p.2.openThr < Tbl.getD moves c 0) := by
      by_cases hm : Tbl.getD moves p.1 0 > p.2.openThr
      · rw [if_pos hm, breakChan_hk]
        by_cases hc : c = p.1
        · subst hc
          simp [hm]
        · simp [hc]
      · rw [if_neg hm]
        refine ⟨.inl, fun h => h.resolve_right ?_⟩
        rintro ⟨rfl, h⟩
        exact hm h
    refine (ih _).trans ?_
    rw [hstep, or_assoc]
    refine or_congr Iff.rfl ⟨?_, ?_⟩
    · rintro (⟨rfl, h⟩ | ⟨d, hd, h⟩)
      · exact ⟨p.2, List.mem_cons_self, h⟩
      · exact ⟨d, List.mem_cons_of_mem _ hd, h⟩
    · rintro ⟨d, hd, h⟩
      rcases List.mem_cons.1 hd with rfl | hd
      · exact .inl ⟨rfl, h⟩
      · exact .inr ⟨d, hd, h⟩

theorem openTested_samples (moves : Tbl Nat) (l : List (Nat × HkDef)) (s : State) : s.samples (openTested moves l s) := by
  induction l generalizing s with
  | nil => exact s.samples_refl
  | cons p l ih =>
    refine State.samples_trans ?_ (ih _)
    dsimp only
    split
    · exact breakChan_samples _ _
    · exact s.samples_refl

theorem openTest_marks {moves : Tbl Nat} (h : s.thm.lastOpen + 100 ≤ s.thm.rounds) :
    ∃ t, exec (.openTest moves) s = .next t ∧ t.thm.lastOpen = s.thm.rounds ∧
      (∀ c, (t.hk c).broken = true ↔ (s.hk c).broken = true ∨
        ∃ d, (c, d) ∈ s.bot.cfg.channels ∧ d.openThr < Tbl.getD moves c 0) ∧
      Frame [.thm, .hld, .evl, .pages, .regs] s t := by
  have hi : exec (.openTest moves) s = .next ((openTested moves s.bot.cfg.channels s).setThm
      { (openTested moves s.bot.cfg.channels s).thm with
        lastOpen := (openTested moves s.bot.cfg.channels s).thm.rounds }) :=
    congrArg Host.Outcome.next (if_neg (Nat.not_lt.2 h))
  exact ⟨_, hi, State.samples_rounds (openTested_samples moves s.bot.cfg.channels s), openTested_broken moves s.bot.cfg.channels s, exec_frame_of_next hi⟩

end

/-! ## PACKAGE_TEMPERATURE_READ (R455) -/

/-- The readings of the dies in service of a package. -/
def packageReadings (s : State) (readings : Tbl Int) (n : NetNode) : List Int :=
  (n.dies.filter fun d => (s.die d).service).filterMap fun d => Tbl.get readings d

/-- One package takes its readings. -/
def packageStep (readings : Tbl Int) (s : State) (p : Nat × NetNode) : State :=
  if p.1 < 12 ∨ (Tbl.get s.thm.nodes p.1).isNone then s
  else match packageReadings s readings p.2 with
    | [] => s
    | r :: rest =>
      let x := s.node p.1
      let hot : Rat := ((rest.foldl max r : Int) : Rat)
      s.setThm { s.thm with nodes := Tbl.set s.thm.nodes p.1 { x with bias := x.bias + (hot - (x.t + x.bias)) / 2 } }

section
variable {s : State} {readings : Tbl Int}

theorem packageStep_keeps (s : State) (readings : Tbl Int) (p : Nat × NetNode) : Frame [.thm] s (packageStep readings s p) := by
  unfold packageStep
  split
  · exact Frame.refl _ s
  · split
    · exact Frame.refl _ s
    · exact State.setThm_frame (by decide) (Frame.refl _ s)

theorem packageSteps_keeps (readings : Tbl Int) (l : List (Nat × NetNode)) (s : State) :
    Frame [.thm] s (l.foldl (packageStep readings) s) :=
  Frame.foldl (fun u p h => h.trans (packageStep_keeps u readings p)) (Frame.refl _ s)

/-- Of THM a package's readings change its node alone, and of that the bias alone. -/
theorem packageStep_node (s : State) (readings : Tbl Int) (p : Nat × NetNode) (k : Nat) :
    (k < 12 ∨ k ≠ p.1 → Tbl.get (packageStep readings s p).thm.nodes k = Tbl.get s.thm.nodes k) ∧
    (∀ x, Tbl.get s.thm.nodes k = some x → ∃ y, Tbl.get (packageStep readings s p).thm.nodes k = some y ∧ y.t = x.t) := by
  unfold packageStep
  split
  · exact ⟨fun _ => rfl, fun x hx => ⟨x, hx, rfl⟩⟩
  · next hp =>
    split
    · exact ⟨fun _ => rfl, fun x hx => ⟨x, hx, rfl⟩⟩
    · dsimp only
      rw [State.setThm_thm]
      dsimp only
      refine ⟨fun hk => ?_, fun x hx => ?_⟩
      · rw [Tbl.get_set, if_neg]
        rintro rfl
        exact hk.elim (fun h => hp (.inl h)) fun h => h rfl
      · rw [Tbl.get_set]
        split
        · next hk =>
          refine ⟨_, rfl, ?_⟩
          unfold State.node Tbl.getD
          rw [← hk, hx]
          rfl
        · exact ⟨x, hx, rfl⟩

theorem packageSteps_node_ne (l : List (Nat × NetNode)) (s : State) {k : Nat} (hk : k < 12 ∨ k ∉ l.map Prod.fst) :
    Tbl.get (l.foldl (packageStep readings) s).thm.nodes k = Tbl.get s.thm.nodes k := by
  induction l generalizing s with
  | nil => rfl
  | cons p l ih =>
    refine (ih _ (hk.imp_right fun h hm => h (List.mem_cons_of_mem _ hm))).trans ((packageStep_node s readings p k).1 ?_)
    exact hk.imp_right fun h e => h (e ▸ List.mem_cons_self)

theorem packageSteps_t (l : List (Nat × NetNode)) (s : State) {k : Nat} {x : Node} (hx : Tbl.get s.thm.nodes k = some x) :
    ∃ y, Tbl.get (l.foldl (packageStep readings) s).thm.nodes k = some y ∧ y.t = x.t := by
  induction l generalizing s x with
  | nil => exact ⟨x, hx, rfl⟩
  | cons p l ih =>
    obtain ⟨y, hy, ht⟩ := (packageStep_node s readings p k).2 x hx
    obtain ⟨z, hz, ht'⟩ := ih _ hy
    exact ⟨z, hz, ht'.trans ht⟩

/-- The greatest of some readings, from one of them on. -/
theorem foldl_max_eq (l : List Int) (a : Int) {r : Int} (hr : r ∈ a :: l) (hmax : ∀ q ∈ a :: l, q ≤ r) :
    l.foldl max a = r := by
  induction l generalizing a with
  | nil => exact (List.mem_singleton.1 hr).symm
  | cons b l ih =>
    have hab : max a b ≤ r := max_le (hmax a (by simp)) (hmax b (by simp))
    refine ih (max a b) ?_ fun q hq => ?_
    · rcases List.mem_cons.1 hr with rfl | hr
      · exact List.mem_cons.2 (.inl (le_antisymm (le_max_left _ _) hab))
      · rcases List.mem_cons.1 hr with rfl | hr
        · exact List.mem_cons.2 (.inl (le_antisymm (le_max_right _ _) hab))
        · exact List.mem_cons_of_mem _ hr
    · rcases List.mem_cons.1 hq with rfl | hq
      · exact hab
      · exact hmax q (List.mem_cons_of_mem _ (List.mem_cons_of_mem _ hq))

theorem packageReadings_mem {n : NetNode} {r : Int} : r ∈ packageReadings s readings n ↔
    ∃ d ∈ n.dies, (s.die d).service = true ∧ Tbl.get readings d = some r := by
  unfold packageReadings
  simp only [List.mem_filterMap, List.mem_filter, and_assoc]

/-- A package whose hottest reading is `r` moves its bias by half of the difference. -/
theorem packageStep_bias {k d : Nat} {n : NetNode} {x : Node} {r : Int} (hk : 12 ≤ k) (hx : Tbl.get s.thm.nodes k = some x)
    (hd : d ∈ n.dies) (hs : (s.die d).service = true) (hr : Tbl.get readings d = some r)
    (hmax : ∀ e ∈ n.dies, (s.die e).service = true → ∀ q, Tbl.get readings e = some q → q ≤ r) :
    ∃ y, Tbl.get (packageStep readings s (k, n)).thm.nodes k = some y ∧
      y.bias = x.bias + ((r : Rat) - (x.t + x.bias)) / 2 := by
  have hmem : r ∈ packageReadings s readings n := packageReadings_mem.2 ⟨d, hd, hs, hr⟩
  have hle : ∀ q ∈ packageReadings s readings n, q ≤ r := fun q hq => by
    obtain ⟨e, he, hse, hqe⟩ := packageReadings_mem.1 hq
    exact hmax e he hse q hqe
  have hnode : s.node k = x := by
    unfold State.node Tbl.getD
    rw [hx]
    rfl
  unfold packageStep
  rw [if_neg (by rintro (h | h); exacts [Nat.not_lt.2 hk h, by rw [hx] at h; cases h])]
  dsimp only
  split
  · next hnil =>
    rw [hnil] at hmem
    cases hmem
  · next a l hl =>
    rw [hl] at hmem hle
    rw [State.setThm_thm, hnode, foldl_max_eq l a hmem hle]
    exact ⟨_, Tbl.get_set_self _ _ _, rfl⟩

theorem packageSteps_bias (l : List (Nat × NetNode)) (s : State) (hl : (l.map Prod.fst).Nodup) {k d : Nat} {n : NetNode}
    {x : Node} {r : Int} (hm : (k, n) ∈ l) (hk : 12 ≤ k) (hx : Tbl.get s.thm.nodes k = some x)
    (hd : d ∈ n.dies) (hs : (s.die d).service = true) (hr : Tbl.get readings d = some r)
    (hmax : ∀ e ∈ n.dies, (s.die e).service = true → ∀ q, Tbl.get readings e = some q → q ≤ r) :
    ∃ y, Tbl.get (l.foldl (packageStep readings) s).thm.nodes k = some y ∧
      y.bias = x.bias + ((r : Rat) - (x.t + x.bias)) / 2 := by
  induction l generalizing s with
  | nil => cases hm
  | cons p l ih =>
    obtain ⟨hp, hl⟩ := List.nodup_cons.1 hl
    rcases List.mem_cons.1 hm with rfl | hm
    · obtain ⟨y, hy, hb⟩ := packageStep_bias hk hx hd hs hr hmax
      exact ⟨y, (packageSteps_node_ne l _ (.inr hp)).trans hy, hb⟩
    · have hne : k ≠ p.1 := fun e => hp (e ▸ List.mem_map_of_mem (f := Prod.fst) hm)
      have hdie : (packageStep readings s p).die = s.die :=
        funext (State.die_congr (packageStep_keeps s readings p).fch_eq)
      exact ih _ hl hm (((packageStep_node s readings p k).1 (.inr hne)).trans hx) (by rw [hdie]; exact hs)
        (by rw [hdie]; exact hmax)

theorem exec_packageTemperatureRead (hc : s.thm.lastPkg + 60000000000 ≤ s.tbs.clk) (hr : s.bot.ready = true)
    (hs : s.thm.snuff ≠ .off) : exec (.packageTemperatureRead readings) s =
      .next ((s.bot.cfg.nodes.foldl (packageStep readings) s).setThm
        { (s.bot.cfg.nodes.foldl (packageStep readings) s).thm with
          lastPkg := (s.bot.cfg.nodes.foldl (packageStep readings) s).tbs.clk }) := by
  have hno : ¬(s.tbs.clk < s.thm.lastPkg + 60000000000 ∨ !s.bot.ready ∨ s.thm.snuff = .off) := by
    rw [hr]
    rintro (h | h | h)
    · exact Nat.not_lt.2 hc h
    · cases h
    · exact hs h
  show execPackageTemperatureRead readings s = _
  unfold execPackageTemperatureRead
  rw [if_neg hno]
  rfl

theorem packageTemperatureRead_moves (hc : s.thm.lastPkg + 60000000000 ≤ s.tbs.clk) (hr : s.bot.ready = true)
    (hs : s.thm.snuff ≠ .off) : ∃ t, exec (.packageTemperatureRead readings) s = .next t ∧ t.thm.lastPkg = s.tbs.clk ∧
      (∀ k, k < 12 → Tbl.get t.thm.nodes k = Tbl.get s.thm.nodes k) ∧
      (∀ k x, Tbl.get s.thm.nodes k = some x → ∃ y, Tbl.get t.thm.nodes k = some y ∧ y.t = x.t) ∧
      ((s.bot.cfg.nodes.map Prod.fst).Nodup → ∀ k n x d r, (k, n) ∈ s.bot.cfg.nodes → 12 ≤ k →
        Tbl.get s.thm.nodes k = some x → d ∈ n.dies → (s.die d).service = true → Tbl.get readings d = some r →
        (∀ e ∈ n.dies, (s.die e).service = true → ∀ q, Tbl.get readings e = some q → q ≤ r) →
        ∃ y, Tbl.get t.thm.nodes k = some y ∧ y.bias = x.bias + ((r : Rat) - (x.t + x.bias)) / 2) ∧
      Frame [.thm] s t := by
  have hk := packageSteps_keeps readings s.bot.cfg.nodes s
  exact ⟨_, exec_packageTemperatureRead hc hr hs, congrArg Tbs.clk hk.tbs_eq,
    fun k hlt => packageSteps_node_ne _ s (.inl hlt), fun k x hx => packageSteps_t _ s hx,
    fun hn k n x d r hm h12 hx hd hsd hrd hmax => packageSteps_bias _ s hn hm h12 hx hd hsd hrd hmax,
    State.setThm_frame (by decide) hk⟩

end

end Sys2Proof.Machine
end

