-- ==== Sys2Proof/Proofs/PowerRows.lean ====
section
/-! PROOFS. Throttling, snuff, power states, string tests and the freeze of a dump, and O56. -/

-- one proof after another: many at once would each hold a thread of the compiler
set_option Elab.async false

namespace Sys2Proof.Machine

open Sys2Proof

/-! ## The level, snuff and low power (R459-R463) -/

section
variable {s : State} {b n : Nat}

theorem setLevel_tells (s : State) (n : Nat) : (setLevel s n).thm.level = n ∧ (setLevel s n).stp.throttleNext = n ∧
    (setLevel s n).thm.belowSince = none ∧ (setLevel s n).shows eTHM_THROTTLE ∧ (setLevel s n).shows eSTP_THROTTLE ∧
    s.tells (setLevel s n) lSTP_THROTTLE none [] := by
  refine ⟨by rw [setLevel_thm], ?_, by rw [setLevel_thm],
    State.raise_shows (State.ev_shows' (State.ev_shows _ (by decide)) _) _ _ _,
    State.raise_shows (State.ev_shows _ (by decide)) _ _ _, State.raise_tells ?_ _ _ _⟩
  · unfold setLevel
    rw [State.raise_stp, State.ev_stp, State.ev_stp]
    rfl
  · rw [State.ev_tbs, State.ev_tbs]
    rfl

theorem throttleLevelLower_lowers (hb : s.thm.belowSince = some b) (hc : b + 1000000000 ≤ s.tbs.clk)
    (hl : candidate s < s.thm.level) : ∃ t, exec .throttleLevelLower s = .next t ∧ t.thm.level = s.thm.level - 1 ∧
      t.stp.throttleNext = s.thm.level - 1 ∧ t.thm.belowSince = none ∧ t.shows eTHM_THROTTLE ∧
      t.shows eSTP_THROTTLE ∧ s.tells t lSTP_THROTTLE none [] ∧ Frame [.stp, .thm, .evl, .pages, .regs] s t := by
  have hi : exec .throttleLevelLower s = .next (setLevel s (s.thm.level - 1)) := by
    show execThrottleLevelLower s = _
    unfold execThrottleLevelLower
    rw [hb]
    dsimp only
    rw [if_neg (not_or.2 ⟨Nat.not_lt.2 hc, Nat.not_le.2 hl⟩)]
  obtain ⟨hlevel, hnext, hbelow, hthm, hstp, htold⟩ := setLevel_tells s (s.thm.level - 1)
  exact ⟨_, hi, hlevel, hnext, hbelow, hthm, hstp, htold, exec_frame_of_next hi⟩

theorem throttleLevelLower_early (hb : s.thm.belowSince = some b) (hc : s.tbs.clk < b + 1000000000) :
    exec .throttleLevelLower s = .next s := by
  show execThrottleLevelLower s = _
  unfold execThrottleLevelLower
  rw [hb]
  dsimp only
  rw [if_pos (.inl hc)]

theorem snuffPowerOff_off (hs : s.thm.snuff = .dumping) (hd : dumpBusy s = false) (hw : directWaits s = false) :
    ∃ t, exec .snuffPowerOff s = .next t ∧ t.thm.snuff = .off ∧ t.thm.ps = 0 ∧ t.pins.snuffN = false ∧
      t.pins.fpwrEn = 0 ∧ t.qmx.cmds = [] ∧ t.cpx.running = 0 ∧ t.bot.ready = false ∧
      Frame [.qmx, .thm, .bot, .pins, .cpx] s t := by
  have hi : exec .snuffPowerOff s = .next _ := congrArg Host.Outcome.next
    (if_neg (by rw [hs, hd, hw]; decide : ¬(s.thm.snuff ≠ .dumping ∨ dumpBusy s ∨ directWaits s)))
  exact ⟨_, hi, rfl, rfl, rfl, rfl, rfl, rfl, rfl, exec_frame_of_next hi⟩

theorem snuffPowerOff_waits (h : dumpBusy s = true ∨ directWaits s = true) : exec .snuffPowerOff s = .next s :=
  congrArg Host.Outcome.next (if_pos (.inr h))

/-- The state in which PS3 or PS4 has been entered. -/
def psEntered (s : State) (n : Nat) : State := (s.setThm { s.thm with ps := n, psArm := .none }).ev eTHM_PS_CHANGE

theorem exec_lowPowerStateEntry (ha : s.thm.psArm = some n) (h3 : 3 ≤ n) (hk : ackSlots s = 0)
    (hc : ∀ c ∈ s.qmx.cmds, c.admin = true) (hd : diesIdle s = true) : exec .lowPowerStateEntry s =
      .next (if n = 4 then (psEntered s n).setNet { s.net with
        ifaces := Tbl.map s.net.ifaces fun _ (i : Iface) => { i with up := false } } else psEntered s n) := by
  have hnet : (psEntered s n).net = s.net := (State.ev_net _ _).trans rfl
  have hadmin : ¬(s.qmx.cmds.any fun c => !c.admin) = true := by
    simp only [List.any_eq_true, not_exists, not_and]
    intro c hm
    rw [hc c hm]
    decide
  rw [← hnet]
  show execLowPowerStateEntry s = _
  unfold execLowPowerStateEntry
  rw [ha]
  dsimp only
  rw [if_neg]
  · rfl
  · rw [hk, hd]
    rintro (h | h | h | h)
    · exact Nat.not_lt.2 h3 h
    · exact h rfl
    · exact hadmin h
    · cases h

theorem lowPowerStateEntry_enters (ha : s.thm.psArm = some n) (h3 : 3 ≤ n) (hk : ackSlots s = 0)
    (hc : ∀ c ∈ s.qmx.cmds, c.admin = true) (hd : diesIdle s = true) :
    ∃ t, exec .lowPowerStateEntry s = .next t ∧ t.thm.ps = n ∧ t.thm.psArm = none ∧ t.shows eTHM_PS_CHANGE ∧
      (n = 4 → ∀ k i, Tbl.get t.net.ifaces k = some i → i.up = false) ∧ (n ≠ 4 → t.net = s.net) ∧
      Frame [.net, .thm, .pages] s t := by
  have hi := exec_lowPowerStateEntry ha h3 hk hc hd
  have hthm : (psEntered s n).thm = { s.thm with ps := n, psArm := .none } := (State.ev_thm _ _).trans rfl
  have hshows : (psEntered s n).shows eTHM_PS_CHANGE := State.ev_shows _ (by decide)
  have hkeeps : Frame [.net, .thm, .pages] s (psEntered s n) :=
    State.ev_frame (by decide) (State.setThm_frame (by decide) (Frame.refl _ s))
  by_cases h4 : n = 4
  · rw [if_pos h4] at hi
    refine ⟨_, hi, congrArg Thm.ps hthm, congrArg Thm.psArm hthm, State.shows_congr hshows rfl, fun _ k i hg => ?_,
      fun h => absurd h4 h, State.setNet_frame (by decide) hkeeps⟩
    rw [State.setNet_net, Tbl.get_map] at hg
    obtain ⟨x, -, rfl⟩ := Option.map_eq_some_iff.1 hg
    rfl
  · rw [if_neg h4] at hi
    exact ⟨_, hi, congrArg Thm.ps hthm, congrArg Thm.psArm hthm, hshows, fun h => absurd h h4, fun _ => State.ev_net _ _,
      hkeeps⟩

end

/-! ## String tests (R467, R469, R476) -/

section
variable {s : State} {k tAll tK esr : Nat}

theorem setStr_hld (s : State) (k : Nat) (x : Str) :
    (setStr s k x).hld = { s.hld with strings := Tbl.set s.hld.strings k x } := by
  unfold setStr
  dsimp only
  split
  · rw [State.raise_hld, State.ev_hld]
    rfl
  · rfl

theorem strOf_congr {t : State} (h : t.hld.strings = s.hld.strings) (j : Nat) : strOf t j = strOf s j := by
  unfold strOf
  rw [h]

theorem setStr_strOf (s : State) (k j : Nat) (x : Str) : strOf (setStr s k x) j = if j = k then x else strOf s j := by
  unfold strOf
  rw [setStr_hld]
  exact Tbl.getD_set _ _ _ _ _

/-- The ceiling that the bank would give without string `k`, in slots. -/
def slotsWithout (s : State) (k : Nat) : Nat :=
  ceilingOf (energyOf s (Tbl.set s.hld.strings k { strOf s k with iso := true })) * 252

/-- What a test leaves of string `k`. -/
def testedStr (s : State) (k tAll tK esr : Nat) : Str :=
  { strOf s k with state := testedState s k (measuredC s tAll tK) esr, cUf := measuredC s tAll tK, esr := esr,
                   iso := testedState s k (measuredC s tAll tK) esr == .open, defers := 0, discount := false }

/-- What a deferral leaves of string `k`. -/
def deferredStr (s : State) (k : Nat) : Str :=
  { strOf s k with defers := (strOf s k).defers + 1, deferredAt := s.thm.rounds,
                   discount := decide ((strOf s k).defers + 1 ≥ 100) }

/-- The state in which the test of string `k` is deferred, before its ceiling. -/
def testDeferred (s : State) (k : Nat) : State := ((setStr s k (deferredStr s k)).bump rHLD_DEFERS 1).ev eHLD_TEST_DEFER

section
variable (hm : s.hld.toTest.contains k = true) (hi : (strOf s k).iso = false) (hd : s.hld.dump = .idle)
    (hc : s.hld.charged = true)
include hm hi hd hc

theorem stringTest_due : ¬(!s.hld.toTest.contains k ∨ (strOf s k).iso ∨ s.hld.dump ≠ .idle ∨ !s.hld.charged) := by
  rw [hm, hi, hd, hc]
  decide

theorem stringTest_tests (hf : ackSlots s ≤ slotsWithout s k) :
    ∃ t, exec (.stringTest k tAll tK esr) s = .next t ∧ (strOf t k).cUf = measuredC s tAll tK ∧
      (strOf t k).esr = esr ∧ (strOf t k).state = testedState s k (measuredC s tAll tK) esr ∧
      ((strOf t k).iso = true ↔ (strOf t k).state = .open) ∧ (strOf t k).defers = 0 ∧
      t.hld.toTest = s.hld.toTest.filter (fun j => j != k) ∧ (t.hld.toTest = [] → t.hld.lastTest = s.tbs.clk) ∧
      (∀ j, j ≠ k → strOf t j = strOf s j) ∧ Frame [.wbf, .hld, .evl, .pages, .regs] s t := by
  have hrun : exec (.stringTest k tAll tK esr) s = .next ((setStr s k (testedStr s k tAll tK esr)).setHld
      { (setStr s k (testedStr s k tAll tK esr)).hld with
        toTest := (setStr s k (testedStr s k tAll tK esr)).hld.toTest.filter (· != k),
        lastTest := if ((setStr s k (testedStr s k tAll tK esr)).hld.toTest.filter (· != k)).isEmpty
          then (setStr s k (testedStr s k tAll tK esr)).tbs.clk
          else (setStr s k (testedStr s k tAll tK esr)).hld.lastTest }) :=
    congrArg Host.Outcome.next ((if_neg (stringTest_due hm hi hd hc)).trans (if_neg (Nat.not_lt.2 hf)))
  have hclk : (setStr s k (testedStr s k tAll tK esr)).tbs = s.tbs :=
    (setStr_frame (List.Subset.refl _) (Frame.refl _ s)).tbs_eq
  rw [setStr_hld, hclk] at hrun
  have hstr : strOf ((setStr s k (testedStr s k tAll tK esr)).setHld { s.hld with
      strings := Tbl.set s.hld.strings k (testedStr s k tAll tK esr),
      toTest := s.hld.toTest.filter (· != k),
      lastTest := if (s.hld.toTest.filter (· != k)).isEmpty then s.tbs.clk else s.hld.lastTest }) k =
      testedStr s k tAll tK esr := (Tbl.getD_set _ _ _ _ _).trans (if_pos rfl)
  refine ⟨_, hrun, ?_, ?_, ?_, ?_, ?_, rfl, fun he => ?_, fun j hj => (Tbl.getD_set _ _ _ _ _).trans (if_neg hj),
    exec_frame_of_next hrun⟩
  · rw [hstr]
    rfl
  · rw [hstr]
    rfl
  · rw [hstr]
    rfl
  · rw [hstr]
    exact beq_iff_eq
  · rw [hstr]
    rfl
  · exact if_pos (List.isEmpty_iff.2 he)

theorem exec_stringTest_defers (hf : slotsWithout s k < ackSlots s)
    (hr : (strOf s k).defers = 0 ∨ (strOf s k).deferredAt ≠ s.thm.rounds) : exec (.stringTest k tAll tK esr) s =
      .next (if (deferredStr s k).discount then
        reportCeiling (testDeferred s k) (energyOf (testDeferred s k) (testDeferred s k).hld.strings)
      else testDeferred s k) := by
  have hround : ¬((strOf s k).deferredAt = s.thm.rounds ∧ (strOf s k).defers > 0) := by
    rintro ⟨h, h'⟩
    exact hr.elim (Nat.ne_of_gt h') fun hne => hne h
  exact congrArg Host.Outcome.next ((if_neg (stringTest_due hm hi hd hc)).trans ((if_pos hf).trans (if_neg hround)))

theorem stringTest_defers (hf : slotsWithout s k < ackSlots s)
    (hr : (strOf s k).defers = 0 ∨ (strOf s k).deferredAt ≠ s.thm.rounds) :
    ∃ t, exec (.stringTest k tAll tK esr) s = .next t ∧ (strOf t k).defers = (strOf s k).defers + 1 ∧
      (strOf t k).state = (strOf s k).state ∧ (strOf t k).iso = false ∧
      ((strOf t k).discount = true ↔ 99 ≤ (strOf s k).defers) ∧ t.hld.toTest = s.hld.toTest ∧
      t.shows eHLD_TEST_DEFER ∧ (∀ j, j ≠ k → strOf t j = strOf s j) := by
  have hrun := exec_stringTest_defers (tAll := tAll) (tK := tK) (esr := esr) hm hi hd hc hf hr
  have hhld : (testDeferred s k).hld = { s.hld with strings := Tbl.set s.hld.strings k (deferredStr s k) } := by
    unfold testDeferred
    rw [State.ev_hld, State.bump_hld, setStr_hld]
  have hshows : (testDeferred s k).shows eHLD_TEST_DEFER := State.ev_shows _ (by decide)
  have hend : ∃ t, exec (.stringTest k tAll tK esr) s = .next t ∧ t.hld = (testDeferred s k).hld ∧
      t.shows eHLD_TEST_DEFER := by
    split at hrun
    · refine ⟨_, hrun, (reportCeiling_frame (List.Subset.refl _) (Frame.refl _ _)).hld_eq, ?_⟩
      unfold reportCeiling
      dsimp only
      split
      · exact hshows
      · exact State.ev_shows' (State.shows_congr hshows rfl) _
    · exact ⟨_, hrun, rfl, hshows⟩
  obtain ⟨t, ht, hthld, htshows⟩ := hend
  rw [hhld] at hthld
  have hstr (j : Nat) : strOf t j = if j = k then deferredStr s k else strOf s j := by
    unfold strOf
    rw [hthld]
    exact Tbl.getD_set _ _ _ _ _
  refine ⟨t, ht, ?_, ?_, ?_, ?_, by rw [hthld], htshows, fun j hj => ?_⟩
  · rw [hstr, if_pos rfl]
    rfl
  · rw [hstr, if_pos rfl]
    rfl
  · rw [hstr, if_pos rfl]
    exact hi
  · rw [hstr, if_pos rfl]
    exact decide_eq_true_iff.trans (by omega)
  · rw [hstr, if_neg hj]

end

theorem hldTestNow_arms (s : State) (p : Path) (w : Dword) : ∃ t, exec (.hldTestNow p w) s = .next t ∧
    (w.getLsbD 31 = true → s.hld.toTest = [] → t.hld.toTest = connected s) ∧
    (w.getLsbD 31 = false → t.hld = s.hld) ∧ t.hld.strings = s.hld.strings ∧ Frame [.hld, .paths, .regs] s t := by
  have hk : Frame [.paths, .regs] s (storeWord s p 5 0x48 w) := storeWord_frame (List.Subset.refl _) (Frame.refl _ s)
  have hhld := hk.hld_eq
  have hrun : exec (.hldTestNow p w) s = .next (if w.getLsbD 31 ∧ s.hld.toTest.isEmpty then
      (storeWord s p 5 0x48 w).setHld { s.hld with toTest := connected s } else storeWord s p 5 0x48 w) := by
    have hconn : connected (storeWord s p 5 0x48 w) = connected s := by
      unfold connected
      rw [hhld]
    rw [← hconn, ← hhld]
    rfl
  refine ⟨_, hrun, fun hw he => ?_, fun hw => ?_, ?_, exec_frame_of_next hrun⟩
  · rw [if_pos ⟨hw, List.isEmpty_iff.2 he⟩]
    rfl
  · rw [if_neg fun h => absurd (h.1.symm.trans hw) (by decide)]
    exact hhld
  · split
    · rfl
    · rw [hhld]

end

/-! ## The freeze of a dump (R471) -/

section
variable {s : State} {c : DumpCause}

/-- The state of a freeze before the links. -/
def dumpFrozen (s : State) : State :=
  let u := (s.fch.dies.map Prod.fst).foldl stopDie s
  let u := u.setStp { u.stp with reads := [], engs := [] }
  let u := (u.setQmx { u.qmx with cmds := [] }).setCpx { u.cpx with running := 0 }
  (u.setPins { u.pins with hldLoadN := true }).setFns (Tbl.map u.fns fun _ (x : Fn) =>
    { x with aers := [], cqs := Tbl.map x.cqs fun _ (q : Cq) => { q with held := [] } })

/-- The links of a dump whose power is going. -/
def linksDropped (s : State) : State :=
  (s.setHif { s.hif with ports := Tbl.map s.hif.ports fun _ (p : Port) => { p with up := false, training := false } }).setNet
    { s.net with ifaces := Tbl.map s.net.ifaces fun _ (i : Iface) => { i with up := false }, assocs := [], capsules := [] }

theorem stopDies_keep (s : State) : Frame [.stp, .fch, .cip, .pages, .regs] s ((s.fch.dies.map Prod.fst).foldl stopDie s) :=
  Frame.foldl (fun _ _ h => stopDie_frame (List.Subset.refl _) h) (Frame.refl _ s)

theorem dumpFrozen_keeps (s : State) :
    Frame [.stp, .qmx, .fns, .fch, .cip, .pins, .pages, .regs, .cpx] s (dumpFrozen s) :=
  State.setFns_frame (by decide) (State.setPins_frame (by decide) (State.setCpx_frame (by decide)
    (State.setQmx_frame (by decide) (State.setStp_frame (by decide) ((stopDies_keep s).mono (by decide))))))

theorem exec_dumpFreeze (hd : s.hld.dump = .armed c) : ∃ u, exec .dumpFreeze s = .next (u.setHld { u.hld with dump := .running c }) ∧
    u = if linksLost c then linksDropped (dumpFrozen s) else dumpFrozen s := by
  refine ⟨_, ?_, rfl⟩
  show execDumpFreeze s = _
  unfold execDumpFreeze
  rw [hd]
  rfl

theorem dumpFreeze_freezes (hd : s.hld.dump = .armed c) : ∃ t, exec .dumpFreeze s = .next t ∧ t.hld.dump = .running c ∧
    t.qmx.cmds = [] ∧ t.stp.reads = [] ∧ t.stp.engs = [] ∧ t.cpx.running = 0 ∧ t.pins.hldLoadN = true ∧ t.wbf = s.wbf ∧
    t.map = s.map ∧
    (c = .powerFail ∨ c = .snuff → t.net.assocs = [] ∧ ∀ p x, Tbl.get t.hif.ports p = some x → x.up = false) ∧
    (c ≠ .powerFail → c ≠ .snuff → t.hif = s.hif ∧ t.net = s.net) := by
  obtain ⟨u, hrun, hu⟩ := exec_dumpFreeze hd
  have hk := dumpFrozen_keeps s
  cases hl : linksLost c
  · rw [hl, if_neg (by decide)] at hu
    subst hu
    have hc : ¬(c = .powerFail ∨ c = .snuff) := by
      rintro (rfl | rfl) <;> exact absurd hl (by decide)
    exact ⟨_, hrun, rfl, rfl, rfl, rfl, rfl, rfl, hk.wbf_eq, hk.map_eq, fun h => absurd h hc,
      fun _ _ => ⟨hk.hif_eq, hk.net_eq⟩⟩
  · rw [hl, if_pos rfl] at hu
    subst hu
    have hc : c = .powerFail ∨ c = .snuff := by
      unfold linksLost at hl
      simpa only [Bool.or_eq_true, beq_iff_eq] using hl
    refine ⟨_, hrun, rfl, rfl, rfl, rfl, rfl, rfl, hk.wbf_eq, hk.map_eq, fun _ => ⟨rfl, fun p x hx => ?_⟩,
      fun h1 h2 => (hc.elim h1 h2).elim⟩
    unfold linksDropped at hx
    dsimp only [State.setHld_hif, State.setNet_hif, State.setHif_hif] at hx
    rw [Tbl.get_map] at hx
    obtain ⟨y, -, rfl⟩ := Option.map_eq_some_iff.1 hx
    rfl

end

/-! ## O56 -/

/-- Settles O56, command by command. -/
theorem powerRowsComplete : Obligations.PowerRowsComplete :=
  ⟨fun _ _ _ _ => housekeepingRound_runs, fun _ _ => openTest_marks, fun _ _ => packageTemperatureRead_moves,
    fun _ _ hb => ⟨throttleLevelLower_lowers hb, throttleLevelLower_early hb⟩,
    fun _ hs => ⟨snuffPowerOff_off hs, snuffPowerOff_waits⟩, fun _ _ => lowPowerStateEntry_enters,
    fun _ _ _ _ _ hm hi hd hc => ⟨stringTest_tests hm hi hd hc, stringTest_defers hm hi hd hc⟩, hldTestNow_arms,
    fun _ _ => dumpFreeze_freezes⟩

end Sys2Proof.Machine
end

