-- ==== Sys2Proof/Proofs/ResetEvents.lean ====
section
/-! PROOFS. Power failures, resets and the ends of dumps (O57): what a restart leaves, what the records that a dump drains
leave of the hold-up bank, then one rule for each event. -/

-- one proof after another: many at once would each hold a thread of the compiler
set_option Elab.async false

namespace Sys2Proof.Machine

open Sys2Proof

/-! ## Power failures (R470, R498, R544) -/

section
variable {s : State} {c : DumpCause}

theorem armDump_arms (hr : s.bot.ready = true) (hd : s.hld.dump = .idle) :
    (armDump s c).hld = { s.hld with dump := .armed c, dumpStart := s.tbs.clk } := by
  unfold armDump
  rw [hr, hd, if_neg (by decide)]
  rfl

theorem armDump_stays (h : s.bot.ready = false ∨ s.hld.dump ≠ .idle) : armDump s c = s := by
  refine if_pos (h.symm.imp_right fun hr => ?_)
  rw [hr]
  rfl

theorem armDump_bot (s : State) (c : DumpCause) : (armDump s c).bot = s.bot :=
  (armDump_frame (List.Subset.refl _) (Frame.refl _ s)).bot_eq

/-- The dump that a power failure arms, once the device is ready and none runs. -/
theorem armDump_powerFail (s : State) : (armDump s .powerFail).bot = s.bot ∧
    (s.bot.ready = true → s.hld.dump = .idle →
      (armDump s .powerFail).hld = { s.hld with dump := .armed .powerFail, dumpStart := s.tbs.clk }) ∧
    (s.bot.ready = false ∨ s.hld.dump ≠ .idle → (armDump s .powerFail).hld = s.hld) :=
  ⟨armDump_bot _ _, armDump_arms, fun h => congrArg State.hld (armDump_stays h)⟩

/-- What a power failure does to start-up and to the bank. -/
theorem powerFailure_does (s : State) :
    (1 ≤ s.bot.phase → s.bot.phase < 4 → (powerFailure s).bot.phase = 1 ∧ (powerFailure s).hld = s.hld) ∧
    (¬(1 ≤ s.bot.phase ∧ s.bot.phase < 4) → powerFailure s = armDump s .powerFail) ∧
    (powerFailure s).pins = s.pins := by
  unfold powerFailure
  refine ⟨fun h1 h4 => ?_, fun h => if_neg h, ?_⟩
  · rw [if_pos ⟨h1, h4⟩]
    exact ⟨rfl, rfl⟩
  · split
    · rfl
    · exact (armDump_frame (List.Subset.refl _) (Frame.refl _ s)).pins_eq

theorem powerFails {i : Instr} (hi : i = .pwrFail ∨ i = .vddCoreLow ∨ i = .bankTrip) :
    ∃ t, exec i s = .next t ∧ (i = .pwrFail → t.pins.pwrFailN = false) ∧ (i ≠ .pwrFail → t.pins = s.pins) ∧
      (1 ≤ s.bot.phase → s.bot.phase < 4 → i ≠ .bankTrip → t.bot.phase = 1 ∧ t.hld = s.hld) ∧
      (¬ (1 ≤ s.bot.phase ∧ s.bot.phase < 4) ∨ i = .bankTrip → t.bot = s.bot ∧
        (s.bot.ready = true → s.hld.dump = .idle →
          t.hld = { s.hld with dump := .armed .powerFail, dumpStart := s.tbs.clk }) ∧
        (s.bot.ready = false ∨ s.hld.dump ≠ .idle → t.hld = s.hld)) ∧ Frame [.hld, .bot, .pins] s t := by
  rcases hi with rfl | rfl | rfl
  · have hrun : exec .pwrFail s = .next (powerFailure (s.setPins { s.pins with pwrFailN := false, pwrHighAt := none })) :=
      rfl
    obtain ⟨hearly, hlate, hpins⟩ := powerFailure_does (s.setPins { s.pins with pwrFailN := false, pwrHighAt := none })
    refine ⟨_, hrun, fun _ => by rw [hpins]; rfl, fun h => absurd rfl h, fun h1 h4 _ => hearly h1 h4, fun h => ?_,
      (exec_frame_of_next hrun).mono (by decide)⟩
    rw [hlate (h.resolve_right Instr.noConfusion)]
    exact armDump_powerFail (s.setPins { s.pins with pwrFailN := false, pwrHighAt := none })
  · have hrun : exec .vddCoreLow s = .next (powerFailure s) := rfl
    obtain ⟨hearly, hlate, hpins⟩ := powerFailure_does s
    refine ⟨_, hrun, fun h => Instr.noConfusion h, fun _ => hpins, fun h1 h4 _ => hearly h1 h4, fun h => ?_,
      (exec_frame_of_next hrun).mono (by decide)⟩
    rw [hlate (h.resolve_right Instr.noConfusion)]
    exact armDump_powerFail s
  · have hrun : exec .bankTrip s = .next (armDump s .powerFail) := rfl
    exact ⟨_, hrun, fun h => Instr.noConfusion h,
      fun _ => (armDump_frame (List.Subset.refl _) (Frame.refl _ s)).pins_eq, fun _ _ h => absurd rfl h,
      fun _ => armDump_powerFail s, (exec_frame_of_next hrun).mono (by decide)⟩

end

/-! ## Restarts (R494-R496) -/

section
variable (s : State) (lv : ResetLevel) (cause : ResetCause)

/-- After the reset values a restart touches RATE_CAP and TBS alone. -/
theorem restart_keeps : Frame [.tbs, .regs] (restarted s lv cause) (restart s lv cause) := by
  unfold restart
  refine ppsEnable_frame (List.Subset.refl _) ?_
  split
  · exact Frame.refl _ _
  · exact Frame.foldl (fun _ _ h => State.wrAt_frame (by decide) h) (Frame.refl _ _)

theorem ppsEnable_tbs : (ppsEnable s).tbs.seconds = s.tbs.seconds ∧ (ppsEnable s).tbs.origin = s.tbs.origin ∧
    (ppsEnable s).tbs.pcycle = s.tbs.pcycle := by
  unfold ppsEnable
  dsimp only
  split
  · exact ⟨rfl, rfl, rfl⟩
  · split
    · exact ⟨rfl, rfl, rfl⟩
    · exact ⟨rfl, rfl, rfl⟩

/-- The seconds, their origin and the power cycles are those that the level leaves. -/
theorem restart_tbs : (restart s lv cause).tbs.seconds = (tbsRestart lv s.tbs).seconds ∧
    (restart s lv cause).tbs.origin = (tbsRestart lv s.tbs).origin ∧
    (restart s lv cause).tbs.pcycle = (tbsRestart lv s.tbs).pcycle := by
  have hcap : ∀ t : State, (if s.fuses.grade = 0 then t
      else (List.range 32).foldl (fun t nn => t.wrAt rFCH_RATE_CAP nn 0 32) t).tbs = t.tbs := fun t => by
    split
    · rfl
    · exact foldl_keeps (f := fun t nn => t.wrAt rFCH_RATE_CAP nn 0 32) State.tbs (fun _ _ => State.wrAt_tbs _ _ _ _ _)
        _ t
  unfold restart
  dsimp only
  obtain ⟨h1, h2, h3⟩ := ppsEnable_tbs (if s.fuses.grade = 0 then restarted s lv cause
    else (List.range 32).foldl (fun t nn => t.wrAt rFCH_RATE_CAP nn 0 32) (restarted s lv cause))
  rw [hcap] at h1 h2 h3
  exact ⟨h1, h2, h3⟩

theorem restart_bot : (restart s lv cause).bot.phase = (if lv = .powerOn then 0 else 1) ∧
    (restart s lv cause).bot.cause = cause ∧ (restart s lv cause).bot.ready = false := by
  rw [(restart_keeps s lv cause).bot_eq]
  exact ⟨rfl, rfl, rfl⟩

/-- What every reset keeps: the media and the fuses. -/
theorem restart_media : (restart s lv cause).fch.media = s.fch.media ∧ (restart s lv cause).fuses = s.fuses := by
  rw [(restart_keeps s lv cause).fch_eq, (restart_keeps s lv cause).fuses_eq]
  exact ⟨rfl, rfl⟩

theorem norStore_roster (n : Nor) (w : NorWait) : (norStore n w).roster = n.roster := by
  have put (n : Nor) (ns : Nat) (r : KeyRec) : (n.putKey ns r).roster = n.roster := by
    unfold Nor.putKey
    split <;> rfl
  unfold norStore
  dsimp only
  split
  · rw [put]
    split <;> rfl
  · split <;> rfl

theorem norStores_roster (l : List NorWait) (n : Nor) : (l.foldl norStore n).roster = n.roster := by
  induction l generalizing n with
  | nil => rfl
  | cons w l ih => exact (ih _).trans (norStore_roster n w)

theorem restart_roster : (restart s lv cause).nor.roster = s.nor.roster := by
  rw [(restart_keeps s lv cause).nor_eq]
  unfold restarted
  dsimp only
  split
  · exact norStores_roster _ _
  · rfl

end

/-! ## Power-on resets (R494, R543, R544, R553) -/

section
variable {s : State}

/-- A power-on reset of a state `u` that differs from `s` in the bank and the pins alone. -/
theorem powerOn_resets {u : State} (hu : Frame [.hld, .pins] s u) :
    (restart u .powerOn .powerOn).bot.phase = 0 ∧ (restart u .powerOn .powerOn).bot.cause = .powerOn ∧
      (restart u .powerOn .powerOn).bot.ready = false ∧ (restart u .powerOn .powerOn).tbs.seconds = 0 ∧
      (restart u .powerOn .powerOn).tbs.origin = 0 ∧ (restart u .powerOn .powerOn).fns = State.reset.fns ∧
      (restart u .powerOn .powerOn).qmx = State.reset.qmx ∧ (restart u .powerOn .powerOn).fch.media = s.fch.media ∧
      (restart u .powerOn .powerOn).fuses = s.fuses ∧ (restart u .powerOn .powerOn).nor.roster = s.nor.roster ∧
      (restart u .powerOn .powerOn).evl.ring = s.evl.ring ∧ (restart u .powerOn .powerOn).pending = s.pending ∧
      (∀ p, ((restart u .powerOn .powerOn).page p).sealBit = false) := by
  have hk := restart_keeps u .powerOn .powerOn
  obtain ⟨hphase, hcause, hready⟩ := restart_bot u .powerOn .powerOn
  obtain ⟨hsec, horigin, -⟩ := restart_tbs u .powerOn .powerOn
  obtain ⟨hmedia, hfuses⟩ := restart_media u .powerOn .powerOn
  refine ⟨hphase, hcause, hready, hsec, horigin, hk.fns_eq, hk.qmx_eq, ?_, ?_, ?_, ?_, ?_, fun p => ?_⟩
  · rw [hmedia, hu.fch_eq]
  · rw [hfuses, hu.fuses_eq]
  · rw [restart_roster, hu.nor_eq]
  · rw [hk.evl_eq, ← hu.evl_eq]
    unfold restarted evlRestart
    dsimp only
    rw [if_neg (by decide)]
    split <;> rfl
  · exact hk.pending_eq.trans hu.pending_eq
  · unfold State.page
    rw [hk.pages_eq]
    rfl

theorem powerOnReset_events {i : Instr} (hi : i = .vddAonLow ∨ i = .xtalStop ∨ (i = .sysRst ∧ dumpBusy s = false)) :
    ∃ u, Frame [.hld, .pins] s u ∧ exec i s = .next (restart u .powerOn .powerOn) := by
  rcases hi with rfl | rfl | ⟨rfl, hd⟩
  · exact ⟨_, cutDump_frame (by decide) (Frame.refl _ s), rfl⟩
  · exact ⟨_, cutDump_frame (by decide) (State.setPins_frame (by decide) (Frame.refl _ s)), rfl⟩
  · exact ⟨_, State.setPins_frame (by decide) (Frame.refl _ s), congrArg Host.Outcome.next
      (if_neg (ne_true_of_eq_false hd))⟩

theorem sysRst_waits (hd : dumpBusy s = true) :
    ∃ t, exec .sysRst s = .next t ∧ t.pins.sysRstN = false ∧ Frame [.pins] s t :=
  ⟨_, congrArg Host.Outcome.next (if_pos hd), rfl, State.setPins_frame (by decide) (Frame.refl _ s)⟩

/-- The state in which power-on reset is released. -/
def powerReleased (s : State) : State :=
  (s.setPins { s.pins with sysRstN := true, xtal := true }).setBot
    { s.bot with phase := 1, releaseClk := s.tbs.clk, phaseClk := s.tbs.clk }

theorem exec_powerOnReset (hp : s.bot.phase = 0) (ht : s.pins.testEn = false) : exec .powerOnReset s =
    .next (if s.fuses.ok && s.fuses.secretOk then powerReleased s else stopStartup (powerReleased s) 1 0) :=
  congrArg Host.Outcome.next (if_neg (by rw [hp, ht]; decide))

theorem powerOnReset_begins (hp : s.bot.phase = 0) (ht : s.pins.testEn = false) (hf : s.fuses.ok = true)
    (hs : s.fuses.secretOk = true) : ∃ t, exec .powerOnReset s = .next t ∧ t.bot.phase = 1 ∧
      t.bot.releaseClk = s.tbs.clk ∧ t.pins.sysRstN = true ∧ Frame [.bot, .pins] s t := by
  have hi := exec_powerOnReset hp ht
  rw [hf, hs, if_pos (by rfl)] at hi
  exact ⟨_, hi, rfl, rfl, rfl, State.setBot_frame (by decide) (State.setPins_frame (by decide) (Frame.refl _ s))⟩

theorem powerOnReset_stops (hp : s.bot.phase = 0) (ht : s.pins.testEn = false)
    (hf : s.fuses.ok = false ∨ s.fuses.secretOk = false) : ∃ t, exec .powerOnReset s = .next t ∧ t.bot.phase = 15 ∧
      t.bot.failPhase = 1 ∧ t.shows eBOT_STOPPED := by
  have hi := exec_powerOnReset hp ht
  rw [if_neg (by rcases hf with h | h <;> simp [h])] at hi
  obtain ⟨hphase, hfail⟩ := stopStartup_phase (powerReleased s) 1 0
  exact ⟨_, hi, hphase, hfail, stopStartup_shows _ _ _⟩

/-! ## Device resets (R495) -/

theorem resetSource_arms {i : Instr} {x : ResetCause} (hp : s.bot.phase ≠ 0) (hs : s.thm.snuff ≠ .off)
    (hi : (i = .nvmSubsystemReset 0 0x4E564D65 ∧ x = .nssr ∧ (pcieReach s 0 = true ∨ (assocOf s 0).isSome = true)) ∨
      (∃ w : Dword, w.getLsbD 1 = true ∧ i = .botSoftReset w ∧ x = .softReset)) :
    (s.bot.resetArm = none → ∃ t, exec i s = .next t ∧ t.bot = { s.bot with resetArm := some x } ∧ Frame [.bot] s t) ∧
    (∀ y, s.bot.resetArm = some y → ∃ t, exec i s = .next t ∧ t.bot.resetArm = some y ∧ Frame [.bot] s t) := by
  have hrun : exec i s = .next (s.setBot { s.bot with resetArm := some (s.bot.resetArm.getD x) }) := by
    rw [← armDeviceReset_arms hp hs]
    rcases hi with ⟨rfl, rfl, hr⟩ | ⟨w, hw, rfl, rfl⟩
    · exact congrArg Host.Outcome.next (if_pos ⟨rfl, rfl, hr⟩)
    · exact congrArg Host.Outcome.next (if_pos hw)
  have hk : ∀ b, Frame [.bot] s (s.setBot b) := fun b => State.setBot_frame (by decide) (Frame.refl _ s)
  refine ⟨fun hn => ⟨_, hrun, ?_, hk _⟩, fun y hy => ⟨_, hrun, ?_, hk _⟩⟩
  · rw [hn]
    rfl
  · rw [hy]
    rfl

/-- Every entry of the function table counts its epoch up, from the epoch that its function has. -/
theorem nextEpochs_get (s : State) {t : Tbl FnEntry} {f : Nat} {e : FnEntry} {y : Fn} (he : Tbl.get t f = some e)
    (hy : Tbl.get s.fns f = some y) :
    Tbl.get (nextEpochs s t) f = some { e with epoch := (y.epoch + 1) % 256 } := by
  unfold nextEpochs
  rw [Tbl.get_map, he, Option.map_some, hy]

section
variable {x : ResetCause} (ha : s.bot.resetArm = some x)
include ha

theorem exec_deviceReset : exec .deviceReset s = .next (
    if s.hld.dump = .idle ∧ s.bot.ready ∧ !s.hld.dumped then armDump s .deviceReset
    else if dumpBusy s then s else restart s .device x) := by
  show execDeviceReset s = _
  unfold execDeviceReset
  rw [ha]
  rfl

theorem deviceReset_dumpsFirst (hd : s.hld.dump = .idle) (hr : s.bot.ready = true) (hn : s.hld.dumped = false) :
    ∃ t, exec .deviceReset s = .next t ∧ t.hld.dump = .armed .deviceReset ∧ t.hld.image = s.hld.image ∧
      Frame [.hld] s t := by
  have hi := exec_deviceReset ha
  rw [if_pos ⟨hd, hr, by rw [hn]; rfl⟩] at hi
  have hhld := armDump_arms (c := .deviceReset) hr hd
  exact ⟨_, hi, by rw [hhld], by rw [hhld], armDump_frame (by decide) (Frame.refl _ s)⟩

theorem deviceReset_waits (hd : dumpBusy s = true) : exec .deviceReset s = .next s := by
  have hi := exec_deviceReset ha
  rw [if_neg, if_pos hd] at hi
  · exact hi
  · rintro ⟨h, -⟩
    unfold dumpBusy at hd
    rw [h] at hd
    cases hd

theorem deviceReset_resets (hd : dumpBusy s = false)
    (hw : s.hld.dump ≠ .idle ∨ s.bot.ready = false ∨ s.hld.dumped = true) :
    ∃ t, exec .deviceReset s = .next t ∧ t.bot.phase = 1 ∧ t.bot.cause = x ∧ t.bot.ready = false ∧
      t.tbs.seconds = s.tbs.seconds ∧ t.tbs.origin = s.tbs.origin ∧ t.tbs.pcycle = s.tbs.pcycle ∧
      t.evl.queue = s.evl.queue ∧ t.fch.media = s.fch.media ∧ t.fuses = s.fuses ∧
      t.nor.roster = s.nor.roster ∧ t.par.layout = s.par.layout ∧
      (s.norWaits = [] → ∀ f e y, Tbl.get s.nor.fnTable f = some e → Tbl.get s.fns f = some y →
        ∃ z, Tbl.get t.nor.fnTable f = some z ∧ z.epoch = (y.epoch + 1) % 256 ∧ z.state = e.state ∧
          z.harness = e.harness) := by
  have hno : ¬(s.hld.dump = .idle ∧ s.bot.ready ∧ !s.hld.dumped) := by
    rintro ⟨h1, h2, h3⟩
    rcases hw with h | h | h
    · exact h h1
    · rw [h] at h2
      cases h2
    · rw [h] at h3
      cases h3
  have hi := exec_deviceReset ha
  rw [if_neg hno, if_neg (ne_true_of_eq_false hd)] at hi
  have hk := restart_keeps s .device x
  obtain ⟨hphase, hcause, hready⟩ := restart_bot s .device x
  obtain ⟨hsec, horigin, hcycle⟩ := restart_tbs s .device x
  obtain ⟨hmedia, hfuses⟩ := restart_media s .device x
  refine ⟨_, hi, hphase, hcause, hready, hsec, horigin, hcycle, ?_, hmedia, hfuses, restart_roster s .device x, ?_,
    fun hn f e y he hy => ⟨{ e with epoch := (y.epoch + 1) % 256 }, ?_, rfl, rfl, rfl⟩⟩
  · rw [hk.evl_eq]
    rfl
  · rw [hk.par_eq]
    rfl
  · rw [hk.nor_eq]
    unfold restarted
    dsimp only
    rw [if_pos rfl, hn]
    exact nextEpochs_get s he hy

end

/-! ## Relight and the return of power (R464, R473) -/

theorem relight_restarts (hs : s.thm.snuff = .off)
    (hc : ∀ x, composite s = some x → x ≤ 10 * ((s.rd rTHM_RELIGHT_C : Nat) : Rat))
    (hw : s.thm.snuffAt + s.thm.wait * 1000000000 ≤ s.tbs.clk) :
    ∃ t, exec .relight s = .next t ∧ t.bot.phase = 1 ∧ t.bot.cause = .relight ∧ t.pins.snuffN = true ∧
      t.thm.snuff = .none ∧ t.tbs.seconds = s.tbs.seconds ∧ t.tbs.pcycle = min (s.tbs.pcycle + 1) 0xFFFFFF ∧
      t.shows eTHM_RELIGHT ∧ (restart s .relight .relight).tells t lTHM_RELIGHT none
        [p4 ((s.tbs.clk - s.thm.snuffAt) / 1000000000)] ∧ t.fch.media = s.fch.media ∧ t.fuses = s.fuses := by
  have hcool : (match composite s with
      | some t => decide (t ≤ 10 * ((s.rd rTHM_RELIGHT_C : Nat) : Rat))
      | none => true) = true := by
    split
    · next t ht => exact decide_eq_true (hc t ht)
    · rfl
  have hrun : exec .relight s = .next (((restart s .relight .relight).ev eTHM_RELIGHT).raise lTHM_RELIGHT none
      [p4 ((s.tbs.clk - s.thm.snuffAt) / 1000000000)]) := by
    refine congrArg Host.Outcome.next (if_neg ?_)
    rintro (h | h | h)
    · exact h hs
    · exact absurd (h.symm.trans (congrArg (fun b => !b) hcool)) (by decide)
    · exact Nat.not_lt.2 hw h
  have hk := restart_keeps s .relight .relight
  obtain ⟨hphase, hcause, -⟩ := restart_bot s .relight .relight
  obtain ⟨hsec, -, hcycle⟩ := restart_tbs s .relight .relight
  obtain ⟨hmedia, hfuses⟩ := restart_media s .relight .relight
  refine ⟨_, hrun, ?_, ?_, ?_, ?_, ?_, ?_, State.raise_shows (State.ev_shows _ (by decide)) _ _ _,
    State.raise_tells (State.ev_tbs _ _) _ _ _, ?_, ?_⟩
  · rw [State.raise_bot, State.ev_bot]
    exact hphase
  · rw [State.raise_bot, State.ev_bot]
    exact hcause
  · rw [State.raise_pins, State.ev_pins, hk.pins_eq]
    rfl
  · rw [State.raise_thm, State.ev_thm, hk.thm_eq]
    rfl
  · rw [State.raise_tbs, State.ev_tbs]
    exact hsec
  · rw [State.raise_tbs, State.ev_tbs]
    exact hcycle
  · rw [State.raise_fch, State.ev_fch]
    exact hmedia
  · rw [State.raise_fuses, State.ev_fuses]
    exact hfuses

theorem powerReturnDuringDump_asks
    (h : s.hld.dump = .armed .powerFail ∨ s.hld.dump = .running .powerFail ∨ s.hld.dump = .done .powerFail) :
    ∃ t, exec .powerReturnDuringDump s = .next t ∧ t.hld = { s.hld with resetAfter := true } ∧ Frame [.hld] s t := by
  have hrun : exec .powerReturnDuringDump s = .next (s.setHld { s.hld with resetAfter := true }) := by
    show execPowerReturnDuringDump s = _
    unfold execPowerReturnDuringDump
    rcases h with h | h | h <;> rw [h]
  exact ⟨_, hrun, rfl, State.setHld_frame (by decide) (Frame.refl _ s)⟩

theorem pwrFailNHigh_resets (hd : s.hld.dump = .done .powerFail) (hr : s.hld.resetAfter = true)
    (hs : s.thm.snuff = .none) : ∃ t, exec .pwrFailNHigh s = .next t ∧ t.bot.phase = 1 ∧ t.bot.cause = .hld ∧
      t.pins.pwrFailN = true := by
  have hrun : exec .pwrFailNHigh s = .next (restart (s.setPins { s.pins with
      pwrFailN := true, pwrHighAt := some s.tbs.clk }) .device .hld) := by
    show execPwrFailNHigh s = _
    unfold execPwrFailNHigh
    dsimp only [State.setPins_hld]
    rw [hd]
    exact congrArg Host.Outcome.next (if_pos ⟨hr, hs⟩)
  obtain ⟨hphase, hcause, -⟩ := restart_bot (s.setPins { s.pins with
    pwrFailN := true, pwrHighAt := some s.tbs.clk }) .device .hld
  refine ⟨_, hrun, hphase, hcause, ?_⟩
  rw [(restart_keeps _ _ _).pins_eq]
  rfl

theorem pwrFailNHigh_notes (hr : s.hld.resetAfter = false) : ∃ t, exec .pwrFailNHigh s = .next t ∧
    t.pins.pwrFailN = true ∧ t.pins.pwrHighAt = some s.tbs.clk ∧ Frame [.pins] s t := by
  have hrun : exec .pwrFailNHigh s = .next (s.setPins { s.pins with
      pwrFailN := true, pwrHighAt := some s.tbs.clk }) := by
    have hno : ¬(s.hld.resetAfter ∧ s.thm.snuff = .none) := fun h => absurd (hr.symm.trans h.1) (by decide)
    show execPwrFailNHigh s = _
    unfold execPwrFailNHigh
    dsimp only [State.setPins_hld]
    split
    · exact congrArg Host.Outcome.next (if_neg hno)
    · exact congrArg Host.Outcome.next (if_neg hno)
    · rfl
  exact ⟨_, hrun, rfl, rfl, State.setPins_frame (by decide) (Frame.refl _ s)⟩

end

/-! ## What the drained records leave of the image (R212, R473) -/

theorem blockRecord_image (s : State) (t : CStat) (die block count : Nat) :
    (blockRecord s t die block count).hld.image = s.hld.image := by
  have counted (u : State) (hu : u.hld.image = s.hld.image) :
      (if block < nativeBlocks u then nativeRecord u t die block count
        else if !u.hld.reserve.contains (blockKey die block) then u
        else match t with
          | .ok => if u.hld.erased.contains (blockKey die block) then u
            else u.setHld { u.hld with erased := u.hld.erased ++ [blockKey die block] }
          | .eraseFail | .timeout =>
            let s := u.setHld { u.hld with reserve := u.hld.reserve.filter (· != blockKey die block) }
            let s := s.setRcl { s.rcl with retired := blockKey die block :: s.rcl.retired }
            match takePslc s die with
            | some (b, s) => queuePslcErase (s.setHld { s.hld with reserve := s.hld.reserve ++ [blockKey die b] }) die b 2
            | none => s
          | _ => queuePslcErase u die block 2).hld.image = s.hld.image := by
    split
    · rw [(nativeRecord_frame (List.Subset.refl _) (Frame.refl _ u)).hld_eq]
      exact hu
    · split
      · exact hu
      · dsimp only
        split
        · split
          · exact hu
          · exact hu
        · split
          · next b v hv =>
            have hk := takePslc_eq_frame hv (List.Subset.refl _) (Frame.refl _ _)
            exact (congrArg Hld.image hk.hld_eq).trans hu
          · exact hu
        · split
          · next b v hv =>
            have hk := takePslc_eq_frame hv (List.Subset.refl _) (Frame.refl _ _)
            exact (congrArg Hld.image hk.hld_eq).trans hu
          · exact hu
        · exact hu
  unfold blockRecord
  dsimp only
  split
  · exact counted _ rfl
  · exact counted _ rfl

theorem takeRecord_image (s : State) (r : CRec) : (takeRecord s r).hld.image = s.hld.image := by
  unfold takeRecord
  split
  · rw [(readRecord_frame (List.Subset.refl _) (Frame.refl _ s)).hld_eq]
  · rw [(programRecord_frame (List.Subset.refl _) (Frame.refl _ s)).hld_eq]
  · rw [(memberErased_frame (List.Subset.refl _) (Frame.refl _ s)).hld_eq]
  · exact blockRecord_image _ _ _ _ _
  · split
    · rfl
    · rw [State.finish_hld]
  · rfl
  · rfl

theorem drainChan_image (s : State) (nn : Nat) : (drainChan s nn).hld.image = s.hld.image :=
  foldl_keeps (f := takeRecord) (fun s => s.hld.image) takeRecord_image _
    (s.setChan nn { s.chan nn with cring := [], cringHead := (s.chan nn).cringTail })

theorem drainRecords_image (s : State) : (drainRecords s).hld.image = s.hld.image :=
  foldl_keeps (f := drainChan) (fun s => s.hld.image) drainChan_image _ s

/-! ## The end of a dump (R471, R473, R476) -/

section
variable {s : State} {c : DumpCause} {closing mib : Nat} {lost : List Nat} {badLog valid : Bool}

/-- The bank once the dump has ended. -/
def dumpedHld (u : State) (c : DumpCause) (valid : Bool) (lost : List Nat) (badLog : Bool) (mib : Nat) : Hld :=
  { u.hld with
    dump := .done c,
    image := if !valid && u.hld.image.any (fun i => i.valid) then u.hld.image
      else some (makeImage u valid (decide (c = .dumpGo)) lost badLog mib),
    dumped := true, erased := [],
    last := if !valid then 2 else if decide (c = .dumpGo) then 3 else 1, lostLines := lost }

/-- The counters of a dump that has ended. -/
def dumpCounted (u : State) (c : DumpCause) (valid : Bool) (lost : List Nat) (badLog : Bool) (mib : Nat) : State :=
  let s := u.setHld (dumpedHld u c valid lost badLog mib)
  let s := (s.wr rHLD_LAST_MS (min ((s.tbs.clk - s.hld.dumpStart) / 1000000) 0xFFFF)).wr rHLD_LAST_MIB (min mib 4095)
  let s := s.bump rHLD_DUMPS 1
  let s := if valid then s else s.bump rHLD_DUMP_FAILS 1
  lost.foldl (fun s _ => (s.bump rDMC_LOST_LINES 1).ev eDMC_LOST) s

theorem endDump_eq (s : State) (c : DumpCause) (valid : Bool) (lost : List Nat) (badLog : Bool) (mib : Nat) :
    endDump s c valid lost badLog mib =
      (let s := dumpCounted (drainRecords s) c valid lost badLog mib
       if c = .dumpGo then
         let s := s.setDmc { s.dmc with dumpBusy := false, dumpDone := valid }
         if valid then s.ev eHLD_DUMP_DONE else s
       else if c = .shutdown then
         let s := s.updFn 0 fun x => { x with shst := 2 }
         (s.setBot { s.bot with shutdown := 0 }).ev eBOT_SHUTDOWN
       else s) := rfl

theorem dumpCounted_keeps (u : State) (c : DumpCause) (valid : Bool) (lost : List Nat) (badLog : Bool) (mib : Nat) :
    Frame [.pages, .regs] (u.setHld (dumpedHld u c valid lost badLog mib)) (dumpCounted u c valid lost badLog mib) := by
  unfold dumpCounted
  dsimp only
  refine Frame.foldl (fun _ _ h => State.ev_frame (by decide) (State.bump_frame (by decide) h)) ?_
  split
  · exact State.bump_frame (by decide) (State.wr_frame (by decide) (State.wr_frame (by decide) (Frame.refl _ _)))
  · exact State.bump_frame (by decide) (State.bump_frame (by decide) (State.wr_frame (by decide)
      (State.wr_frame (by decide) (Frame.refl _ _))))

theorem endDump_hld (s : State) (c : DumpCause) (valid : Bool) (lost : List Nat) (badLog : Bool) (mib : Nat) :
    (endDump s c valid lost badLog mib).hld = dumpedHld (drainRecords s) c valid lost badLog mib := by
  rw [endDump_eq]
  dsimp only
  have hk := (dumpCounted_keeps (drainRecords s) c valid lost badLog mib).hld_eq
  split
  · split
    · rw [State.ev_hld]
      exact hk
    · exact hk
  · split
    · rw [State.ev_hld]
      exact hk
    · exact hk

theorem endDump_bot (s : State) (c : DumpCause) (valid : Bool) (lost : List Nat) (badLog : Bool) (mib : Nat) :
    (endDump s c valid lost badLog mib).bot = if c = .shutdown then { s.bot with shutdown := 0 } else s.bot := by
  rw [endDump_eq]
  dsimp only
  have hk : (dumpCounted (drainRecords s) c valid lost badLog mib).bot = s.bot :=
    (dumpCounted_keeps _ _ _ _ _ _).bot_eq.trans (drainRecords_frame (List.Subset.refl _) (Frame.refl _ s)).bot_eq
  by_cases hs : c = .shutdown
  · subst hs
    exact congrArg (fun b : Bot => { b with shutdown := 0 }) hk
  · rw [if_neg hs, if_neg hs]
    split
    · cases valid
      · exact hk
      · exact hk
    · exact hk

theorem endDump_pins (s : State) (c : DumpCause) (valid : Bool) (lost : List Nat) (badLog : Bool) (mib : Nat) :
    (endDump s c valid lost badLog mib).pins = s.pins :=
  (endDump_frame (List.Subset.refl _) (Frame.refl _ s)).pins_eq

theorem endDump_dumpGo (s : State) (valid : Bool) (lost : List Nat) (badLog : Bool) (mib : Nat) :
    (endDump s .dumpGo valid lost badLog mib).dmc.dumpBusy = false ∧
      (endDump s .dumpGo valid lost badLog mib).dmc.dumpDone = valid ∧
      (valid = true → (endDump s .dumpGo valid lost badLog mib).shows eHLD_DUMP_DONE) := by
  rw [endDump_eq, if_pos rfl]
  dsimp only
  cases valid
  · exact ⟨rfl, rfl, fun h => absurd h (by decide)⟩
  · rw [if_pos rfl, State.ev_dmc]
    exact ⟨rfl, rfl, fun _ => State.ev_shows _ (by decide)⟩

theorem endDump_shutdown (s : State) (valid : Bool) (lost : List Nat) (badLog : Bool) (mib : Nat) :
    (endDump s .shutdown valid lost badLog mib).bot.shutdown = 0 ∧
      (endDump s .shutdown valid lost badLog mib).shows eBOT_SHUTDOWN := by
  refine ⟨by rw [endDump_bot, if_pos rfl], ?_⟩
  rw [endDump_eq, if_neg (by decide), if_pos rfl]
  exact State.ev_shows _ (by decide)

/-- The image that a dump leaves: its own, or an older one that waits and is valid where its own is not. -/
theorem dumpedHld_image (u : State) (c : DumpCause) (valid : Bool) (lost : List Nat) (badLog : Bool) (mib : Nat) :
    (valid = true → ∃ g, (dumpedHld u c valid lost badLog mib).image = some g ∧ g.valid = true ∧ g.lost = lost ∧
      g.mib = mib) ∧
    (∀ g, valid = false → u.hld.image = some g → g.valid = true →
      (dumpedHld u c valid lost badLog mib).image = some g) := by
  unfold dumpedHld
  refine ⟨fun hv => ?_, fun g hv hg hgv => ?_⟩
  · rw [if_neg (by simp [hv])]
    exact ⟨_, rfl, hv, rfl, rfl⟩
  · rw [if_pos (by simp [hv, hg, hgv])]
    exact hg

/-- What follows a dump that ended in state `u`: the device reset that waits, unless the power is going. -/
def dumpFollowed (u : State) (c : DumpCause) (arm : Option ResetCause) : State :=
  match c, arm with
  | .powerFail, _ | .snuff, _ => u
  | _, some cause => restart u .device cause
  | _, none => u

/-- The end of a dump with SYS_RST_N high: a device reset that waits follows, unless the power is going. -/
theorem exec_dumpEnd (hd : s.hld.dump = .running c) (hp : programsDone s = true) (hr : s.pins.sysRstN = true) :
    exec (.dumpEnd closing lost badLog mib) s = .next (
      dumpFollowed (endDump s c (decide (2 ≤ closing)) lost badLog mib) c s.bot.resetArm) := by
  have harm : (endDump s c (decide (2 ≤ closing)) lost badLog mib).bot.resetArm = s.bot.resetArm := by
    rw [endDump_bot]
    split <;> rfl
  rw [← harm]
  show execDumpEnd closing lost badLog mib s = _
  unfold execDumpEnd
  rw [hd]
  dsimp only
  rw [hp, if_neg (by decide), endDump_pins, hr, if_neg (by decide)]
  rfl

theorem dumpEnd_ends (hd : s.hld.dump = .running c) (hv : valid = decide (2 ≤ closing)) (hp : programsDone s = true)
    (hr : s.pins.sysRstN = true) (hw : c = .powerFail ∨ c = .snuff ∨ s.bot.resetArm = none) :
    ∃ t, exec (.dumpEnd closing lost badLog mib) s = .next t ∧ t.hld.dump = .done c ∧ t.hld.dumped = true ∧
      t.hld.erased = [] ∧ t.hld.lostLines = lost ∧
      t.hld.last = (if valid = false then 2 else if c = .dumpGo then 3 else 1) ∧
      (valid = true → ∃ g, t.hld.image = some g ∧ g.valid = true ∧ g.lost = lost ∧ g.mib = mib) ∧
      (∀ g, valid = false → s.hld.image = some g → g.valid = true → t.hld.image = some g) ∧
      (c = .dumpGo → t.dmc.dumpBusy = false ∧ t.dmc.dumpDone = valid ∧ (valid = true → t.shows eHLD_DUMP_DONE)) ∧
      (c = .shutdown → t.bot.shutdown = 0 ∧ t.shows eBOT_SHUTDOWN) := by
  have hrun : exec (.dumpEnd closing lost badLog mib) s = .next (endDump s c valid lost badLog mib) := by
    rw [exec_dumpEnd hd hp hr, hv]
    rcases hw with rfl | rfl | hn
    · rfl
    · rfl
    · rw [hn]
      cases c <;> rfl
  obtain ⟨hnew, hold⟩ := dumpedHld_image (drainRecords s) c valid lost badLog mib
  have hhld := endDump_hld s c valid lost badLog mib
  refine ⟨_, hrun, ?_, ?_, ?_, ?_, ?_, ?_, fun g hf hg hgv => ?_, ?_, ?_⟩
  · rw [hhld]
    rfl
  · rw [hhld]
    rfl
  · rw [hhld]
    rfl
  · rw [hhld]
    rfl
  · rw [hhld]
    cases valid
    · rfl
    · simp only [dumpedHld, decide_eq_true_iff, Bool.not_true, Bool.false_eq_true, Bool.true_eq_false, if_false]
  · rw [hhld]
    exact hnew
  · rw [hhld]
    exact hold g hf ((drainRecords_image s).trans hg) hgv
  · rintro rfl
    exact endDump_dumpGo s valid lost badLog mib
  · rintro rfl
    exact endDump_shutdown s valid lost badLog mib

theorem dumpEnd_resets {x : ResetCause} (hd : s.hld.dump = .running c) (hp : programsDone s = true)
    (hr : s.pins.sysRstN = true) (h1 : c ≠ .powerFail) (h2 : c ≠ .snuff) (ha : s.bot.resetArm = some x) :
    ∃ t, exec (.dumpEnd closing lost badLog mib) s = .next t ∧ t.bot.phase = 1 ∧ t.bot.cause = x := by
  have hrun : exec (.dumpEnd closing lost badLog mib) s =
      .next (restart (endDump s c (decide (2 ≤ closing)) lost badLog mib) .device x) := by
    rw [exec_dumpEnd hd hp hr, ha]
    cases c with
    | powerFail => exact absurd rfl h1
    | snuff => exact absurd rfl h2
    | _ => rfl
  obtain ⟨hphase, hcause, -⟩ := restart_bot (endDump s c (decide (2 ≤ closing)) lost badLog mib) .device x
  exact ⟨_, hrun, hphase, hcause⟩

end

/-! ## O57 -/

/-- Settles O57, event by event. -/
theorem resetsAndPowerEvents : Obligations.ResetsAndPowerEvents := by
  refine ⟨fun _ _ => powerFails, fun s i hi => ?_, fun _ => sysRst_waits,
    fun _ hp => ⟨fun ht => congrArg Host.Outcome.next (if_pos (.inr ht)), powerOnReset_begins hp, powerOnReset_stops hp⟩,
    fun _ _ _ => resetSource_arms,
    fun _ _ ha => ⟨deviceReset_dumpsFirst ha, deviceReset_waits ha, deviceReset_resets ha⟩, fun _ => relight_restarts,
    fun _ => powerReturnDuringDump_asks, fun _ => ⟨pwrFailNHigh_resets, pwrFailNHigh_notes⟩,
    fun _ _ _ _ _ _ _ hd hv hp hr => ⟨dumpEnd_ends hd hv hp hr, fun _ => dumpEnd_resets hd hp hr⟩⟩
  obtain ⟨u, hu, hrun⟩ := powerOnReset_events hi
  exact ⟨_, hrun, powerOn_resets hu⟩

end Sys2Proof.Machine
end
